-- ==== Sys2Proof/Word.lean ====
section
/-!
DEFINITION. The word types of the Sveted and their plainest arithmetic (04 R81 to R86, 05 R109).
-/
namespace Sys2Proof

/-- One byte. -/
abbrev Byte := BitVec 8
/-- A 32-bit register of one lane (R109). -/
abbrev W32 := BitVec 32
/-- A g register, and one instruction word (R81, R109). -/
abbrev W64 := BitVec 64
/-- A virtual address, 57 bits (R110). -/
abbrev Addr := BitVec 57
/-- A set of lanes, lane l in bit l (R110). -/
abbrev LaneMask := BitVec 32
/-- One 32-bit register in all 32 lanes (R109). -/
abbrev LaneVec := Vector W32 32

/-- Bits h down to l of a word, as a number (R2). -/
def bits (w : Nat) (h l : Nat) : Nat := w / 2 ^ l % 2 ^ (h + 1 - l)

/-- Bit i of a number. -/
def bit (w : Nat) (i : Nat) : Bool := w.testBit i

/-- The signed value of the low `w` bits of `x`. -/
def signed (w : Nat) (x : Nat) : Int :=
  if (x % 2 ^ w).testBit (w - 1) then (x % 2 ^ w : Nat) - (2 ^ w : Nat) else (x % 2 ^ w : Nat)

/-- An integer reduced modulo `2 ^ w`. -/
def wrap (w : Nat) (x : Int) : Nat := (x % (2 ^ w : Nat)).toNat

/-- The lane numbers 0 to 31 (R9). -/
def laneList : List (Fin 32) := List.finRange 32

end Sys2Proof
end

