-- ==== Sys2Proof/Config.lean ====
section
/-!
DEFINITION. What an implementation or the signed images fix, and the FREE VALUES: constants without a body, applied to the
model's counter `tick` or to operands, of which nothing can be proved (log 2).
-/
namespace Sys2Proof.Config

/-! ### Free values -/

/-- FREE VALUE (log 2): which of two allowed values a read or a write takes, at moment `tick`, for register `site`, in lane
`lane` (R96, R124, R183). -/
opaque pick : (tick site lane : Nat) → Bool

/-- FREE VALUE (log 2): whether the flags of shadow number `n` are seen, or survive a `csrw`, at moment `tick` (R112). -/
opaque pickFlags : (tick n : Nat) → Bool

/-- FREE VALUE (log 12): byte `i` of the module's identity public key, which the PUF seed gives (R451, R453). -/
opaque identityByte : (i : Nat) → BitVec 8

/-- FREE VALUE (log 12): byte `i` of a signature made at moment `tick` with the identity key over a digest (R453). -/
opaque signatureByte : (digest : List Nat) → (tick i : Nat) → BitVec 8

/-- FREE VALUE (log 78): byte `i` behind the last payload word of the flit numbered `seq`: no rule gives it a value (R420, R460). -/
opaque padByte : (seq i : Nat) → BitVec 8

/-- FREE VALUE (log 36): byte `i` of a queue entry with its drain record, made from the numbers that say what it is and how far it came:
no rule gives it a form (R405). -/
opaque entryByte : (entry : List Nat) → (i : Nat) → BitVec 8

/-- FREE VALUE (log 36): the cause code of a kill ordered by the supervisor cluster, a code of R115 less 1: no rule says which (R412,
R414). -/
opaque killCause : (tick : Nat) → Nat

/-- FREE VALUE (log 49): the handle of the `i`-th packet of INFL with these numbers; its form is private to the queue processors (R338). -/
opaque inflWord : (seq units i : Nat) → BitVec 64

/-- FREE VALUE (log 76): the cycle at which counter `n` was 0, as of moment `tick`: counters of different cores and dies are not
synchronised (R27). -/
opaque counterStart : (tick n : Nat) → Nat

/-- FREE VALUE (log 36): the slot that the event of a release names when the dump used none (R413). -/
opaque noSlot : (tick : Nat) → BitVec 64

/-- FREE VALUE (log 39): which of the slices allowed takes the entry that moves at moment `tick` (R242). -/
opaque foldTarget : (tick : Nat) → Nat

/-- FREE VALUE (log 39): the SRAM word address of an error found at moment `tick`: no rule places a truss's data in its pool (R249). -/
opaque sramWord : (tick : Nat) → BitVec 64

/-- FREE VALUE (log 20): the rounding of a transcendental result that the widest precision tried does not decide; the exact
value is never that near a rounding boundary in any known case (R149). -/
opaque roundingUndecided : (op a : Nat) → Bool

/-- FREE VALUE (log 13): byte `i` of the header of a batch record with the fields named: R46 gives the fields and not their places. -/
opaque svcHeaderByte : (fields : List Nat) → (i : Nat) → BitVec 8

/-- FREE VALUE (log 33): word `i` of the record of an `nprobe` that finds no message, made at moment `tick`: R382 gives it no value. -/
opaque probeWord : (tick i : Nat) → BitVec 64

/-- FREE VALUE (log 1): which of the steps that are possible the device takes at moment `tick`: their order is not fixed. -/
opaque nextStep : (tick : Nat) → Nat

/-- FREE VALUE (log 77): what a bring-up that a write of RETRY starts at moment `tick` finds, by number: no rule says what the flash then
holds (R451). -/
opaque bootWord : (tick i : Nat) → Nat

/-- FREE VALUE (log 77): what sensor `i` reads at moment `tick`: module power, or the hottest junction's temperature (R452). -/
opaque sensorWord : (tick i : Nat) → BitVec 64

/-- FREE VALUE (log 10): how many core cycles pass in the step at moment `tick`; no latency is fixed (R469). -/
opaque extraCycles : (tick : Nat) → Nat

/-- FREE VALUE (log 10): which line a cache replaces at moment `tick`: replacement is not fixed (R469). -/
opaque victim : (tick : Nat) → Nat

/-- FREE VALUE (log 6): which of the free ACC units a truss that starts at moment `tick` takes as its `i`-th (R109, R232). -/
opaque accUnit : (tick i : Nat) → Nat

/-- FREE VALUE (log 6): element `e` of tile number `n` of a core's pool, in a unit that trusses of the same device took as REG or SCR space
at moment `tick`: R109 lets it hold what they left there. -/
opaque unitWord : (tick n e : Nat) → BitVec 32

/-- FREE VALUE (log 21): which of two allowed effects a table read takes, where no order makes another course's write
visible (R207). -/
opaque pickTable : (tick site : Nat) → Bool

/-! ### Fixed by the signed images (R450), and named in log 4 -/

/-- Where the courses of a die's service truss start (R468); image. -/
def svcEntry (_die : Nat) : Nat := 0
/-- Vector registers of a course of a service truss: four footprints take no more than two REG units (R12, R35); image. -/
def svcRegs : Nat := 248
/-- Base of a die's service ring (R118); image. -/
def svrBase (_die : Nat) : Nat := 0
/-- Root of the stage-1 tables of the physical function's space (R216); image. -/
def pfRoot : Nat := 0
/-- Fabric device ID (R417); image. -/
def fabricId : Nat := 0
/-- Corrected errors between events of kind 0x20 (R440); image. -/
def cecThr : Nat := 0
/-- Sustained power limit in watts (R452); image. -/
def pwrLim : Nat := 2800
/-- The memory that the supervisor cluster's pool reserves (R392, R450), from here to `poolEnd`; image. -/
def poolBase : Nat := 2 ^ 38
def poolEnd : Nat := 2 ^ 39
/-- Pages of the pool that stage-2 tables take, from its start; image. -/
def tablePages : Nat := 1024
/-- 64 KiB units that the page migration engine may take (R244), from this offset in the pool on; image. -/
def freeUnits : Nat := 256
def unitOffset : Nat := 2 ^ 28
/-- Base of the queue control blocks (R336); image. -/
def qcbBase : Nat := poolBase + 2 ^ 29
/-- Context and dump areas lie from this offset in the pool on; image. -/
def areaOffset : Nat := 2 ^ 30
/-- The contribution pool of 64 MiB (R434); image. -/
def contribBase : Nat := poolBase + 2 ^ 29 + 2 ^ 25

/-! ### Numbers of the manual -/

/-- Cores of the device (R9). -/
def nCores : Nat := 192
/-- Course slots of a core (R9). -/
def nSlots : Nat := 64
/-- Pool units of a core (R10). -/
def nUnits : Nat := 32
/-- Lines of a home slice, 28 MiB (R13). -/
def sliceLines : Nat := 229376
/-- Lines of a core's L1, 256 KiB (R10). -/
def l1Lines : Nat := 2048
/-- Request slots of a core, and those that one slice's requests may hold (R10, R240). -/
def coreSlots : Nat := 256
def sliceSlots : Nat := 96
/-- The age beyond which a waiting request goes first (R241). -/
def agedCycles : Nat := 4096
/-- Entries of the truss's copy queue (R322). -/
def copyCap : Nat := 32
/-- Entries of the truss's matrix queue (R286). -/
def matCap : Nat := 8
/-- Entries of the truss's network queue (R322). -/
def netCap : Nat := 32
/-- Records of a service ring (R46). -/
def ringCap : Nat := 1024
/-- Promise directory entries of a slice (R275). -/
def directoryCap : Nat := 65536
/-- Monitor table entries of a slice (R277). -/
def monitorCap : Nat := 4096
/-- Messages of a core's active-message queue for one device (R48). -/
def amsgCap : Nat := 64
/-- Posted receives of a virtual device (R356). -/
def recvCap : Nat := 4096
/-- Payload bytes of the unexpected-message queue (R356). -/
def unexpectedBytes : Nat := 16777216
/-- Divergence stack entries (R42). -/
def divCap : Nat := 32
/-- Trap frames (R50). -/
def trapCap : Nat := 4
/-- Cycles of a scheduling slice on the I/O die (R401). -/
def sliceIoCycles : Nat := 750000
/-- The guarded `region` wait and the strike window, in core cycles (R166, R441). -/
def strikeWindow : Nat := 1024
/-- The fixed number of slots in a quarantine buffer (R442). -/
def quarantineCap : Nat := 256
/-- Kibibytes of one core's record in a context area (R405). -/
def ctxRecordBytes : Nat := 2832 * 1024

end Sys2Proof.Config
end

