-- ==== Sys2Proof/Syntax.lean ====
section
/-!
DEFINITION. The steps of the Sveted: every row of the opcode table is one constructor of `Instr` (04 R81 to R106 for the
instruction words; file 95 for the other steps).
-/
namespace Sys2Proof

/-! ### Operand types -/

/-- A v register index (R86). -/
abbrev VReg := Fin 256
/-- A g register index (R86). -/
abbrev GReg := Fin 64
/-- A token t0 to t15 (R87). -/
abbrev Tok := Fin 16
/-- A predicate p0 to p7 as a source (R88). -/
abbrev PSrc := Fin 8
/-- A predicate p0 to p6 as a destination (R109). -/
abbrev PDst := Fin 7

/-- The guard of a word: predicate PG, inverted when GN is 1 (R88). -/
structure Guard where
  neg  : Bool
  pred : PSrc
  deriving DecidableEq, Repr

/-- PG = 7, GN = 0: no guard (R158). -/
def Guard.always : Guard := ⟨false, 7⟩

/-- A register field of forms F and I with its kind bit (R86, R87). -/
inductive Reg where
  | v (n : VReg)
  | g (n : GReg)
  deriving DecidableEq, Repr

/-- The type set INT of R125. -/
inductive IntTy where
  | i8 | i16 | i32 | i64 | n8 | n16 | n32 | n64
  deriving DecidableEq, Repr

/-- The type set I of R125. -/
inductive STy where
  | i8 | i16 | i32 | i64
  deriving DecidableEq, Repr

/-- The type set B of R125. -/
inductive BTy where
  | b32 | b64
  deriving DecidableEq, Repr

/-- The types of `madw` (R125). -/
inductive MadwTy where
  | i32 | n32
  deriving DecidableEq, Repr

/-- The types of `sar` (R125). -/
inductive SarTy where
  | i32 | i64
  deriving DecidableEq, Repr

/-- The 32-bit and 64-bit integer types of `bfe`, `lea`, `redl`, `icvt` and `ficvt` (R125, R137, R143). -/
inductive WTy where
  | i32 | i64 | n32 | n64
  deriving DecidableEq, Repr

/-- The type set F of R139. -/
inductive FTy where
  | f16 | bf16 | f32 | f64
  deriving DecidableEq, Repr

/-- The type set H of R139. -/
inductive HTy where
  | f16 | bf16 | f32
  deriving DecidableEq, Repr

/-- The type set X2 of R139. -/
inductive X2Ty where
  | bf16x2 | f16x2
  deriving DecidableEq, Repr

/-- The destination types of `qexp` (R143). -/
inductive QTy where
  | bf16 | f32
  deriving DecidableEq, Repr

/-- Condition codes of `cmp` and `cmpi` (R129). -/
inductive Cond where
  | eq | ne | lt | le | gt | ge
  deriving DecidableEq, Repr

/-- Condition codes of `fcmp` (R146). -/
inductive FCond where
  | eq | ne | lt | le | gt | ge | un | ord
  deriving DecidableEq, Repr

/-- Rounding codes a word may carry (R63). -/
inductive RM where
  | rne | rtz | rup | rdn | dyn
  deriving DecidableEq, Repr

/-- The narrow formats of `qcvt` and `qexp`, codes 4 to 13 of R59. -/
inductive NFmt where
  | e4m3 | e5m2 | e3m2 | e2m3 | e2m1 | qi8 | qn8 | qi4 | qn4 | dpt8
  deriving DecidableEq, Repr

/-- What a `qexp` reads: a narrow code or an S10 container (R153). -/
inductive QSrc where
  | narrow (f : NFmt)
  | s10
  deriving DecidableEq, Repr

/-- The target formats of `scvt` (R72). -/
inductive ScaleFmt where
  | e4m3 | e5m2 | e3m2 | e2m3 | e2m1 | dpt8
  deriving DecidableEq, Repr

/-- Modes of `shfl` (R135). -/
inductive ShflMode where
  | pick | rot | mir | xch
  deriving DecidableEq, Repr

/-- Modes of `vote` with a predicate result (R136). -/
inductive VotePred where
  | all | any | odd | same
  deriving DecidableEq, Repr

/-- Modes of `vote` with a register result (R136). -/
inductive VoteReg where
  | mask | count | first
  deriving DecidableEq, Repr

/-- The destination and mode of `vote` (R136). -/
inductive VoteOp where
  | pred (m : VotePred) (d : PDst)
  | reg (m : VoteReg) (d : Reg)
  deriving DecidableEq, Repr

/-- The operation and type of `redl` (R137). -/
inductive RedlOp where
  | add (t : WTy) | min (t : WTy) | max (t : WTy)
  | and (t : BTy) | or (t : BTy) | xor (t : BTy)
  deriving DecidableEq, Repr

/-- Branch hints (R106). -/
inductive Hint where
  | none | likely | unlikely | groupUniform
  deriving DecidableEq, Repr

/-- Scopes, SCP 0 to 5 (R306). -/
inductive Scope where
  | crs | trs | spn | dev | fab | sys
  deriving DecidableEq, Repr

/-- Access sizes SZ 0 to 6 (R252). -/
inductive Sz where
  | n8 | i8 | n16 | i16 | b32 | b64 | b128
  deriving DecidableEq, Repr

/-- Sizes of `ldc`, SZ 0 to 5 (R258). -/
inductive LdcSz where
  | n8 | i8 | n16 | i16 | b32 | b64
  deriving DecidableEq, Repr

/-- Sizes of `acp` and of atomics (R258, R262). -/
inductive ASz where
  | b32 | b64 | b128
  deriving DecidableEq, Repr

/-- Semantics of a load (R258); a relaxed access has scope 0 (R252). -/
inductive LdSem where
  | rlx
  | acq (s : Scope)
  deriving DecidableEq, Repr

/-- Semantics of a store (R258). -/
inductive StSem where
  | rlx
  | rel (s : Scope)
  deriving DecidableEq, Repr

/-- Semantics of an atomic (R262). -/
inductive AtSem where
  | rlx
  | acq (s : Scope)
  | rel (s : Scope)
  | ar (s : Scope)
  deriving DecidableEq, Repr

/-- Kinds of fence (R265). -/
inductive FenceSem where
  | acq | rel | ar
  deriving DecidableEq, Repr

/-- Operations of an atomic, AOP 0 to 10 (R263). -/
inductive AOp where
  | add | smin | smax | umin | umax | and | or | xor | swap | cas | fadd
  deriving DecidableEq, Repr

/-- The memory operand of R252. -/
structure MemOpnd where
  gb  : GReg
  vx  : VReg
  xe  : Bool
  off : BitVec 13
  deriving DecidableEq, Repr

/-- The memory operand of an atomic (R262). -/
structure AtOpnd where
  gb : GReg
  vx : VReg
  xe : Bool
  deriving DecidableEq, Repr

/-- The fields of `lyset` and `lyget` (R204). -/
inductive LySel where
  | base | space | format | ndim | bnd | swz
  | size0 | size1 | size2 | size3
  | stride1 | stride2 | stride3
  | word0 | word1 | word2 | word3
  deriving DecidableEq, Repr

/-- What `lyset` writes: one field, or the whole entry set to 0 (R204). -/
inductive LyOp where
  | field (s : LySel)
  | clear
  deriving DecidableEq, Repr

/-- The fields of `tplset` and `tplget` (R212). -/
inductive TplSel where
  | src | dst | bar | cvt | mcast
  | ext0 | ext1 | ext2 | ext3
  | word0 | word1
  deriving DecidableEq, Repr

/-- What `tplset` writes: one field, or the whole template set to 0 (R212). -/
inductive TplOp where
  | field (s : TplSel)
  | clear
  deriving DecidableEq, Repr

/-- Modes of `tlbinv` with their operands (R220). -/
inductive TlbMode where
  | page (a b : GReg)
  | space (b : GReg)
  | all
  deriving DecidableEq, Repr

/-- Scopes of `tlbinv` (R220). -/
inductive TlbScope where
  | core | clu | dev
  deriving DecidableEq, Repr

/-- Levels of `prf` (R258). -/
inductive PrfLevel where
  | l1 | home
  deriving DecidableEq, Repr

/-- The queue a ring commit or release goes through, QS (R359). -/
inductive QSel where
  | none | copy | mat | net
  deriving DecidableEq, Repr

/-- Tile types of `accld` and `accst`, TT (R302). -/
inductive TileTy where
  | f32 | i32 | f64
  deriving DecidableEq, Repr

/-- The layout operand of `ldl` and `stl`: entry, first coordinate register, coordinates minus 1, registers minus 1, ROW
(R270). -/
structure LayOpnd where
  l   : Fin 256
  gc  : GReg
  nc  : Fin 4
  nr  : Fin 8
  row : Bool
  deriving DecidableEq, Repr

/-- The second half H1 of a paired word, and the way either half reads (R90). -/
inductive Half where
  | mov (d a : VReg) | add (d a : VReg) | sub (d a : VReg) | and (d a : VReg) | or (d a : VReg) | xor (d a : VReg)
  | shl (d a : VReg) | shr (d a : VReg) | sar (d a : VReg) | min (d a : VReg) | max (d a : VReg)
  | fadd (d a : VReg) | fmul (d a : VReg) | fmin (d a : VReg) | fmax (d a : VReg)
  | hadd2 (d a : VReg) | hmul2 (d a : VReg)
  | addi (d : VReg) (x : BitVec 8) | shli (d : VReg) (n : BitVec 5) | shri (d : VReg) (n : BitVec 5)
  | andi (d : VReg) (x : BitVec 8) | movi (d : VReg) (x : BitVec 8)
  deriving DecidableEq, Repr

/-! ### Names used by the device's other steps -/

/-- A course: its truss's number in the model and its course index (R31, R110). -/
structure CRef where
  truss  : Nat
  course : Nat
  deriving DecidableEq, Repr

/-- Where a home request is served (R236, R314, R469). -/
inductive Serve where
  /-- At the home slice, or at the core that owns the scratchpad; a load allocates its line in the L1. -/
  | home
  /-- At the home slice, and the L1 keeps no copy (replacement). -/
  | homeNoFill
  /-- A relaxed load from the L1's copy; a store updates the L1's copy before its home performs it. -/
  | l1
  deriving DecidableEq, Repr

/-- Engines a RESET or a drain names (R396, R414). -/
inductive Engine where
  | core | copy | matrix | network | queueProcessor | distributor | pageMigration | matching
  deriving DecidableEq, Repr

/-- An engine that has not reported its drain in time, and whether the supervisor cluster escalates the drain of a course or a truss to its
device (R388, R406, R409). -/
structure LateEngine where
  eng : Engine
  escalate : Bool
  deriving DecidableEq, Repr

/-- A course of a die's service truss (R12, R468). -/
structure SvcCourse where
  die : Fin 2
  course : Fin 4
  deriving DecidableEq, Repr

/-- Why a course is killed (R437, R443, R50, R414). -/
inductive KillCause where
  | poisonRead | noRegion | unguardedStrike | poisonFetch
  | trapOverflow (cause detail : Nat)
  | supervisor
  deriving DecidableEq, Repr

/-- Pages of registers the host writes (R389, R394, R418, R440, R452). -/
inductive HostPage where
  | mailbox
  | fabric
  | health
  | boot
  | control (vdid : Nat)
  | msix (vdid : Nat)
  deriving DecidableEq, Repr

/-- Where an uncorrectable error is found (R249, R437). -/
inductive EccPlace where
  | slice (addr : Nat)
  | hbm (addr : Nat)
  | scratchpad (truss off : Nat)
  | tile (truss tile word : Nat)
  /-- Word `w` of register `r`: v registers by number, g registers from 256, predicates from 320. -/
  | register (c : CRef) (r w : Nat)
  | l1 (core addr : Nat)
  | icache (core addr : Nat)
  | ioSram (word : Nat)
  /-- Payload word `word` of an unexpected message in the matching engine's memory. -/
  | matching (vdid msg word : Nat)
  | deviceTable (vdid : Nat)
  | supervisorMemory
  | queueProcessorMemory (qp : Nat)
  deriving DecidableEq, Repr

/-- An image in flash (R449): its header, KEY of 2,592 bytes, SIG of 4,627 bytes and body; and whether SIG verifies with KEY over the digest
of bytes 0 to 95 and the body. The verification, ML-DSA-87 of FIPS 204, is named by the spec and not given in it (log 12). -/
structure FlashImage where
  magic  : BitVec 64
  kind   : BitVec 64
  svn    : BitVec 64
  len    : BitVec 64
  digest : Vector (BitVec 64) 8
  key    : List (BitVec 8)
  sig    : List (BitVec 8)
  body   : List (BitVec 8)
  sigOk  : Bool
  deriving DecidableEq, Repr

/-- The fields that a configuration image supplies (R450), each absent or with the value it gives; the form of the body is not in the spec
(log 77). The fold table is given by the entries that are not h mod 128. -/
structure CfgFields where
  pwrLim      : Option (BitVec 64)
  cecThr      : Option (BitVec 64)
  svrBase0    : Option (BitVec 64)
  svrBase1    : Option (BitVec 64)
  fold        : Option (List (Nat × BitVec 32))
  fabricId    : Option Nat
  qcbBase     : Option Nat
  contribBase : Option Nat
  /-- The supervisor cluster's memory pool, from its start to its end. -/
  pool        : Option (Nat × Nat)
  deriving DecidableEq, Repr

/-- What a bring-up run finds, step by step (R451): the outside facts that decide READY or FAIL. -/
structure BringUp where
  pufOk    : Bool
  fw       : FlashImage
  /-- The digest by which the firmware image names the configuration image's key. -/
  cfgKey   : List (BitVec 64)
  cfg      : FlashImage
  fields   : CfgFields
  sramOk   : Bool
  /-- The first stack that fails to train, if one does. -/
  hbmFail  : Option Nat
  /-- Slice columns whose channels lock. -/
  columns  : BitVec 16
  /-- Clusters whose reply channels lock. -/
  clusters : BitVec 24
  deriving DecidableEq, Repr

/-- Flit types of R421. -/
inductive FlitTy where
  | idle | data | ctrl | drain
  /-- TYPE 4 to 15 (R421). -/
  | reserved (code : Fin 12)
  deriving DecidableEq, Repr

/-- Kinds of transfer, KIND 1 to 9 of R422. -/
inductive XKind where
  | put | getReq | getData | msg | contrib | lReq | lData | done | absent
  deriving DecidableEq, Repr

/-- A transfer as its descriptor and data give it (R422). -/
structure Transfer where
  kind   : XKind
  srcEp  : BitVec 16
  dstEp  : BitVec 16
  xid    : BitVec 32
  grp    : BitVec 12
  addr   : BitVec 64
  len    : BitVec 64
  cn     : BitVec 32
  st     : BitVec 8
  data   : List Byte
  /-- Indexes of the poisoned 8-byte payload words (R422). -/
  poison : List Nat
  deriving DecidableEq, Repr

/-- What a CTRL flit of training phase 5 carries (R419). -/
structure LinkParams where
  id      : BitVec 7
  link    : Nat
  version : Nat
  tx      : BitVec 16
  rx      : BitVec 16
  deriving DecidableEq, Repr

/-- How a flit came over the fibre: the codewords could be corrected, and the bits of its 280 bytes that differ from those sent, by byte
(R420, R425). -/
structure Reception where
  fecOk : Bool
  noise : List (Nat × Byte)
  deriving DecidableEq, Repr

/-- A flit: its header fields and the part of a transfer it carries (R421). The last four fields are the model's own labels of what
a switch keeps beside a flit: the transfer it belongs to, where its data lie in the transfer, the wavelengths it is striped over, and the
number of its first beat (R420, R428). -/
structure Flit where
  seq    : BitVec 16
  ackSeq : BitVec 16
  av     : Bool
  nak    : Bool
  ty     : FlitTy
  allow  : Nat
  dstEp  : BitVec 16
  srcEp  : BitVec 16
  fst    : Bool
  lst    : Bool
  hop    : Nat
  rs     : Bool
  /-- Reserved bits found nonzero (R421). -/
  resv   : Bool
  /-- The announced mask of a CTRL flit; it is the mask of the direction on which the flit's taker sends, else of the other one. -/
  mask   : BitVec 16
  ofTx   : Bool
  par    : Option LinkParams
  /-- The descriptor, on a first flit. -/
  desc   : Option Transfer
  /-- Payload data bytes of this flit, and its poisoned payload words (PSN). -/
  data   : List Byte
  poison : List Nat
  xid    : BitVec 32
  off    : Nat
  wl     : BitVec 16
  beat   : Nat
  deriving DecidableEq, Repr

/-! ### The steps -/

/-- Every row of the opcode table (R89, R90; file 95). Rows 0 to 178 are instruction words. -/
inductive Instr where
  -- 06: integer, predicate and lane words
  | add (gd : Guard) (t : IntTy) (sat : Bool) (d a b : Reg)
  | sub (gd : Guard) (t : IntTy) (sat : Bool) (d a b : Reg)
  | mul (gd : Guard) (t : IntTy) (d a b : Reg)
  | mulh (gd : Guard) (t : IntTy) (d a b : Reg)
  | mad (gd : Guard) (t : IntTy) (d a b : Reg) (c : VReg)
  | madw (gd : Guard) (t : MadwTy) (d a b : Reg) (c : VReg)
  | min (gd : Guard) (t : IntTy) (d a b : Reg)
  | max (gd : Guard) (t : IntTy) (d a b : Reg)
  | abs (gd : Guard) (t : STy) (sat : Bool) (d a : Reg)
  | neg (gd : Guard) (t : STy) (sat : Bool) (d a : Reg)
  | and (gd : Guard) (t : BTy) (d a b : Reg)
  | or (gd : Guard) (t : BTy) (d a b : Reg)
  | xor (gd : Guard) (t : BTy) (d a b : Reg)
  | andn (gd : Guard) (t : BTy) (d a b : Reg)
  | not (gd : Guard) (t : BTy) (d a : Reg)
  | shl (gd : Guard) (t : BTy) (d a b : Reg)
  | shr (gd : Guard) (t : BTy) (d a b : Reg)
  | sar (gd : Guard) (t : SarTy) (d a b : Reg)
  | rot (gd : Guard) (t : BTy) (d a b : Reg)
  | bfe (gd : Guard) (t : WTy) (d a b : Reg)
  | bfi (gd : Guard) (t : BTy) (d a b : Reg) (c : VReg)
  | pop (gd : Guard) (t : BTy) (d a : Reg)
  | clz (gd : Guard) (t : BTy) (d a : Reg)
  | brev (gd : Guard) (t : BTy) (d a : Reg)
  | sel (gd : Guard) (t : BTy) (d a b : Reg) (p : PSrc) (inv : Bool)
  | mov (gd : Guard) (t : BTy) (d a : Reg)
  | cmp (gd : Guard) (t : IntTy) (cc : Cond) (d : PDst) (a b : Reg)
  | plog (gd : Guard) (d : PDst) (a b c : PSrc) (tt : BitVec 8)
  | lea (gd : Guard) (t : WTy) (d a b : Reg) (sh : Fin 8)
  | shfl (gd : Guard) (t : BTy) (m : ShflMode) (wl : Fin 6) (d a : VReg) (b : Reg) (c : GReg)
  | vote (gd : Guard) (op : VoteOp) (a : PSrc) (c : GReg)
  | redl (gd : Guard) (op : RedlOp) (scan : Bool) (d a : Reg) (c : GReg)
  | addi (gd : Guard) (d a : Reg) (imm : BitVec 30)
  | andi (gd : Guard) (d a : Reg) (imm : BitVec 30)
  | ori (gd : Guard) (d a : Reg) (imm : BitVec 30)
  | xori (gd : Guard) (d a : Reg) (imm : BitVec 30)
  | movi (gd : Guard) (d : Reg) (imm : BitVec 30)
  | cmpi (gd : Guard) (cc : Cond) (uns : Bool) (d : PDst) (a : Reg) (imm : BitVec 30)
  | muli (gd : Guard) (d a : Reg) (imm : BitVec 30)
  | leai (gd : Guard) (d a : Reg) (off : BitVec 27) (sh : Fin 8)
  -- 07: floating-point words
  | fadd (gd : Guard) (t : FTy) (rm : RM) (d a b : Reg)
  | fsub (gd : Guard) (t : FTy) (rm : RM) (d a b : Reg)
  | fmul (gd : Guard) (t : FTy) (rm : RM) (d a b : Reg)
  | fma (gd : Guard) (t : FTy) (rm : RM) (d a b : Reg) (c : VReg)
  | fmin (gd : Guard) (t : FTy) (d a b : Reg)
  | fmax (gd : Guard) (t : FTy) (d a b : Reg)
  | fcmp (gd : Guard) (t : FTy) (cc : FCond) (d : PDst) (a b : Reg)
  | frcp (gd : Guard) (t : FTy) (rm : RM) (tk : Tok) (d : VReg) (a : Reg)
  | frsq (gd : Guard) (t : FTy) (rm : RM) (tk : Tok) (d : VReg) (a : Reg)
  | fsqrt (gd : Guard) (t : FTy) (rm : RM) (tk : Tok) (d : VReg) (a : Reg)
  | fexp2 (gd : Guard) (t : HTy) (rm : RM) (tk : Tok) (d : VReg) (a : Reg)
  | flog2 (gd : Guard) (t : HTy) (rm : RM) (tk : Tok) (d : VReg) (a : Reg)
  | fsin (gd : Guard) (t : HTy) (rm : RM) (tk : Tok) (d : VReg) (a : Reg)
  | fcos (gd : Guard) (t : HTy) (rm : RM) (tk : Tok) (d : VReg) (a : Reg)
  | fdiv (gd : Guard) (t : FTy) (rm : RM) (tk : Tok) (d : VReg) (a b : Reg)
  | fcvt (gd : Guard) (t s : FTy) (rm : RM) (d a : Reg)
  | icvt (gd : Guard) (t : FTy) (s : WTy) (rm : RM) (d a : Reg)
  | ficvt (gd : Guard) (t : WTy) (s : FTy) (rm : RM) (d a : Reg)
  | qcvt (gd : Guard) (s : HTy) (f : NFmt) (sat : Bool) (d : VReg) (a : Reg) (pos : Fin 8)
  | qexp (gd : Guard) (t : QTy) (f : QSrc) (d a : Reg) (pos : Fin 8)
  | fscl (gd : Guard) (t : FTy) (rm : RM) (d a b : Reg)
  | frnd (gd : Guard) (t : FTy) (rm : RM) (d a : Reg)
  | fclass (gd : Guard) (s : FTy) (d a : Reg)
  | hadd2 (gd : Guard) (t : X2Ty) (rm : RM) (d a b : Reg)
  | hmul2 (gd : Guard) (t : X2Ty) (rm : RM) (d a b : Reg)
  | hfma2 (gd : Guard) (t : X2Ty) (rm : RM) (d a b : Reg) (c : VReg)
  | hmin2 (gd : Guard) (t : X2Ty) (d a b : Reg)
  | hmax2 (gd : Guard) (t : X2Ty) (d a b : Reg)
  | fdot4 (gd : Guard) (rm : RM) (ae5 be5 : Bool) (d a b : Reg) (c : VReg)
  | scvt (gd : Guard) (f : ScaleFmt) (d a : Reg)
  | fmovi (gd : Guard) (d : Reg) (imm : BitVec 30)
  | faddi (gd : Guard) (d a : Reg) (imm : BitVec 30)
  | fmuli (gd : Guard) (d a : Reg) (imm : BitVec 30)
  -- 04 R90: paired words, named by their half H0; `h` is the half H1
  | pairMov (d a : VReg) (h : Half)
  | pairAdd (d a : VReg) (h : Half)
  | pairSub (d a : VReg) (h : Half)
  | pairAnd (d a : VReg) (h : Half)
  | pairOr (d a : VReg) (h : Half)
  | pairXor (d a : VReg) (h : Half)
  | pairShl (d a : VReg) (h : Half)
  | pairShr (d a : VReg) (h : Half)
  | pairSar (d a : VReg) (h : Half)
  | pairMin (d a : VReg) (h : Half)
  | pairMax (d a : VReg) (h : Half)
  | pairFadd (d a : VReg) (h : Half)
  | pairFmul (d a : VReg) (h : Half)
  | pairFmin (d a : VReg) (h : Half)
  | pairFmax (d a : VReg) (h : Half)
  | pairHadd2 (d a : VReg) (h : Half)
  | pairHmul2 (d a : VReg) (h : Half)
  | pairAddi (d : VReg) (x : BitVec 8) (h : Half)
  | pairShli (d : VReg) (n : BitVec 5) (h : Half)
  | pairShri (d : VReg) (n : BitVec 5) (h : Half)
  | pairAndi (d : VReg) (x : BitVec 8) (h : Half)
  | pairMovi (d : VReg) (x : BitVec 8) (h : Half)
  -- 08: control, trap and system words
  | nop
  | dly (n : Fin 64)
  | bra (gd : Guard) (hint : Hint) (off : BitVec 18) (join : BitVec 12)
  | jmp (gd : Guard) (a : GReg)
  | call (gd : Guard) (d : GReg) (off : BitVec 18) (mask : BitVec 12)
  | callr (gd : Guard) (d a : GReg) (mask : BitVec 12)
  | ret (gd : Guard) (a : GReg)
  | bsync (c : GReg)
  | exit (gd : Guard)
  | region (fin : Bool)
  | trap (gd : Guard) (n : BitVec 8)
  | rett
  | tmask (gd : Guard) (n : Bool)
  | csrr (gd : Guard) (t : BTy) (d : Reg) (idx : BitVec 8)
  | csrw (gd : Guard) (t : BTy) (idx : BitVec 8) (a : Reg)
  | yield
  | sysc (gd : Guard) (tk : Tok) (d a : VReg) (na nr : Fin 9) (svc : BitVec 14)
  | brk (gd : Guard) (n : BitVec 8)
  -- 09: counters
  | waitt (gd : Guard) (tk : Tok) (n : Fin 64)
  | tkst (gd : Guard) (tk : Tok) (clr : Bool) (d : GReg)
  | barinit (gd : Guard) (b : Fin 16)
  | bararv (gd : Guard) (b : Fin 16) (a : GReg)
  | barxb (gd : Guard) (b : Fin 16) (a : GReg)
  | barwait (gd : Guard) (b : Fin 16) (d : GReg) (tk : Option Tok)
  | bartest (gd : Guard) (b : Fin 16) (d : GReg)
  | barinv (gd : Guard) (b : Fin 16)
  | cntrd (gd : Guard) (t : BTy) (d : Reg) (idx : BitVec 8)
  | cntctl (gd : Guard) (a b : GReg) (k : Fin 8)
  | genrd (gd : Guard) (d : Reg)
  -- 10: tables
  | lyset (gd : Guard) (n : Fin 256) (op : LyOp) (a : GReg)
  | lyget (gd : Guard) (d : GReg) (n : Fin 256) (sel : LySel)
  | tplset (gd : Guard) (n : Fin 64) (op : TplOp) (a : GReg)
  | tplget (gd : Guard) (d : GReg) (n : Fin 64) (sel : TplSel)
  | tlbinv (gd : Guard) (m : TlbMode) (sc : TlbScope)
  | fgset (gd : Guard) (opn : Bool) (a : GReg)
  | hdlset (gd : Guard) (a b : GReg)
  -- 12: memory and promise-cell words
  | ld (gd : Guard) (tk : Tok) (d : VReg) (m : MemOpnd) (z : Sz) (sem : LdSem)
  | st (gd : Guard) (tk : Option Tok) (d : VReg) (m : MemOpnd) (z : Sz) (sem : StSem)
  | lds (gd : Guard) (tk : Tok) (d : VReg) (m : MemOpnd) (z : Sz) (sem : LdSem) (ssc : Bool)
  | sts (gd : Guard) (tk : Option Tok) (d : VReg) (m : MemOpnd) (z : Sz) (sem : StSem) (ssc : Bool)
  | ldc (gd : Guard) (tk : Tok) (d gb : GReg) (off : BitVec 13) (z : LdcSz)
  | prf (gd : Guard) (lv : PrfLevel) (m : MemOpnd)
  | acp (gd : Guard) (tk : Option Tok) (d : VReg) (m : MemOpnd) (z : ASz) (bar : Option (Fin 16))
  | atom (gd : Guard) (tk : Tok) (d : VReg) (m : AtOpnd) (va : VReg) (op : AOp) (z : ASz) (sem : AtSem)
  | red (gd : Guard) (tk : Option Tok) (m : AtOpnd) (va : VReg) (op : AOp) (z : ASz) (sem : AtSem)
  | atoms (gd : Guard) (tk : Tok) (d : VReg) (m : AtOpnd) (va : VReg) (op : AOp) (z : ASz) (sem : AtSem) (ssc : Bool)
  | fence (gd : Guard) (k : FenceSem) (sc : Scope)
  | iflush (gd : Guard) (gb gl : GReg)
  | isync (gd : Guard)
  | cwb (gd : Guard) (tk : Tok) (gb gl : GReg) (inv : Bool)
  | pinit (gd : Guard) (tk : Tok) (ga : GReg) (free : Bool)
  | pfill (gd : Guard) (tk : Tok) (ga gv : GReg) (sc : Scope)
  | pwait (gd : Guard) (tk : Tok) (d ga : GReg) (sc : Scope)
  | pequ (gd : Guard) (tk : Tok) (ga gv : GReg)
  | ptest (gd : Guard) (tk : Tok) (d ga : GReg) (sc : Scope)
  | ldl (gd : Guard) (tk : Tok) (d : VReg) (o : LayOpnd)
  | stl (gd : Guard) (tk : Option Tok) (d : VReg) (o : LayOpnd)
  -- 13: matrix words
  | mma (gd : Guard) (tk : Tok) (acc : Fin 64) (la : Fin 256) (gca : GReg) (lb : Fin 256) (gcb gf gk : GReg)
  | mmaz (gd : Guard) (tk : Tok) (acc : Fin 64) (la : Fin 256) (gca : GReg) (lb : Fin 256) (gcb gf gk : GReg)
  | accz (gd : Guard) (tk : Tok) (acc : Fin 64) (n1 : Fin 64)
  | accld (gd : Guard) (tk : Tok) (acc : Fin 64) (l : Fin 256) (gc : GReg) (tt : TileTy)
  | accst (gd : Guard) (tk : Tok) (acc : Fin 64) (l : Fin 256) (gc : GReg) (tt : TileTy)
  | accmvGet (gd : Guard) (tk : Tok) (acc : Fin 64) (x : VReg) (gr : GReg)
  | accmvPut (gd : Guard) (tk : Tok) (acc : Fin 64) (x : VReg) (gr : GReg)
  | accmvStat (gd : Guard) (tk : Tok) (acc : Fin 64) (x gr : GReg) (clr : Bool)
  | accmvCopy (gd : Guard) (tk : Tok) (acc x : Fin 64) (gr : GReg)
  | accsc (gd : Guard) (tk : Tok) (acc : Fin 64) (gs : GReg) (i32 : Bool)
  | mtest (gd : Guard) (tk : Tok) (d : GReg)
  -- 16: ring, copy, message and network words
  | rgacqInit (gd : Guard) (rg : Fin 8) (ga : GReg)
  | rgacq (gd : Guard) (d : GReg) (rg : Fin 8)
  | rgcmt (gd : Guard) (q : QSel) (rg : Fin 8) (ga : GReg)
  | rgtake (gd : Guard) (d : GReg) (rg : Fin 8)
  | rgrel (gd : Guard) (q : QSel) (rg : Fin 8) (ga : GReg)
  | bcopy (gd : Guard) (tk : Tok) (ct : Fin 64) (gs gdst : GReg) (nc : Fin 4)
  | qfence (gd : Guard) (copy mat net : Bool)
  | amsg (gd : Guard) (tk : Tok) (gx : GReg) (nb : BitVec 7)
  | nsend (gd : Guard) (tk : Tok) (gx : GReg)
  | nrecv (gd : Guard) (tk : Tok) (gx : GReg)
  | fput (gd : Guard) (tk : Tok) (gx : GReg)
  | fget (gd : Guard) (tk : Tok) (gx : GReg)
  | fcopy (gd : Guard) (tk : Tok) (gx : GReg)
  | fmrs (gd : Guard) (tk : Tok) (gx : GReg)
  | fmrl (gd : Guard) (tk : Tok) (gx : GReg)
  | nprobe (gd : Guard) (tk : Tok) (gx : GReg)
  -- the courses' other steps
  | tokenCompletion (c : CRef) (tk : Tok)
  | dlyExpiry (c : CRef)
  | yieldExpiry (c : CRef)
  | regionGuardWaitExpiry (c : CRef)
  | asyncTrapTaken (c : CRef)
  | debugRequest (c : CRef)
  | eventCounterOverflow (core : Nat) (k : Fin 8) (n : Nat)
  | meterAccumulate (vd : Fin 512)
  -- the engines' steps
  | matrixEntryStart (core : Nat) (rows : Nat)
  | matrixEntryComplete (core : Nat)
  | selfTestProduct (core : Nat) (failed : BitVec 4)
  | copyEntryExecute (core : Nat) (n : Nat)
  | ringEntryEffect (truss : Nat) (q : QSel)
  | networkEntryStart (truss : Nat)
  | serviceRecordTake (who : SvcCourse) (reject : Bool) (results : List (List W32))
  | amsgArrival (core : Nat)
  | handlerSpawn (core : Nat)
  | launchAdmission
  | courseRetire (c : CRef)
  | launchComplete (launch : Nat)
  | quarantineRelease (c : CRef)
  | strikeReport (core : Nat) (zone : Fin 5)
  | regionRollback (c : CRef)
  | pwaitRepeat (waiter : Nat)
  | partialEviction (core : Nat) (vd : Fin 512) (need : Nat)
  | fullEviction (truss : Nat)
  | courseUnpark (c : CRef)
  | trussRestore (truss : Nat)
  | sliceBoundary (set : Fin 32)
  -- the memories' steps
  | homeSliceAccess (acc part : Nat) (srv : Serve)
  | lineHandover (line : Nat)
  | pageIn (vd : Fin 512) (gpa : Nat)
  | pageOut (vd : Fin 512) (gpa hostFrame : Nat)
  | counterManagedMove (vd : Fin 512) (gpa hostFrame : Nat)
  | stage1FaultRecord (vd : Fin 512)
  | stage2FaultEvent (vd : Fin 512)
  | eccCorrected (unitKind : Fin 6) (unit : Nat)
  | eccUncorrectable (place : EccPlace)
  -- kills and degradation
  | courseKill (c : CRef) (cause : KillCause)
  | killDrain (eng : Engine)
  | drainTimeout (late : LateEngine)
  | killDump
  | killRelease
  | coreRetire (core : Nat)
  | columnRetire (col : Fin 16)
  -- queues from the host
  | kickWrite (vd : Fin 512) (j : Fin 512) (tail : W32)
  | submissionWrite (vd : Fin 512) (j : Fin 512) (posted : Bool) (off : Nat) (data : List Byte)
  | packetFetch (blk : Nat)
  | packetNop (blk : Nat)
  | packetLaunch (blk : Nat)
  | packetWaitPromise (blk : Nat)
  | packetWaitMemory (blk : Nat)
  | waitPoll (blk : Nat)
  | packetSignalFill (blk : Nat)
  | packetSignalStore (blk : Nat)
  | packetSignalInterrupt (blk : Nat)
  | packetCond (blk : Nat)
  | packetCopy (blk : Nat)
  | packetFence (blk : Nat)
  | packetRetire (blk : Nat)
  | retireReport (blk : Nat)
  | queueSchedulerPass
  | queueUnmap (blk : Nat)
  | heartbeatMiss (qp : Fin 8)
  | fallbackVisit (qp : Fin 8) (slot : Fin 32)
  -- the supervisor mailbox: MBCMD0 to MBCMD7
  | create (w : Vector W64 8)
  | destroy (w : Vector W64 8)
  | setweight (w : Vector W64 8)
  | defset (w : Vector W64 8)
  | setset (w : Vector W64 8)
  | setmode (w : Vector W64 8)
  | mapvec (w : Vector W64 8)
  | map2 (w : Vector W64 8)
  | unmap2 (w : Vector W64 8)
  | abort2 (w : Vector W64 8)
  | meters (w : Vector W64 8)
  | qcreate (w : Vector W64 8)
  | qrestart (w : Vector W64 8)
  | resetCourse (w : Vector W64 8)
  | resetTruss (w : Vector W64 8)
  | resetVirtualDevice (w : Vector W64 8)
  | resetEngine (w : Vector W64 8)
  | resetSliceColumn (w : Vector W64 8)
  | resetOpticalLink (w : Vector W64 8)
  | dumpack (w : Vector W64 8)
  | columnOn (w : Vector W64 8)
  | columnOff (w : Vector W64 8)
  -- the control page
  | s1rootWrite (vd : Fin 512) (v : W64)
  | fltbaseWrite (vd : Fin 512) (v : W64)
  | fltresReplay (vd : Fin 512) (v : W64)
  | fltresAbort (vd : Fin 512) (v : W64)
  -- the fabric page: FBCMD0 to FBCMD11
  | route (w : Vector W64 12)
  | epset (w : Vector W64 12)
  | gset (w : Vector W64 12)
  | gclr (w : Vector W64 12)
  | quiesce (w : Vector W64 12)
  | relock (w : Vector W64 12)
  -- the boot page and the other host-visible registers
  | bootctlRetry (b : BringUp)
  | bootctlAttest
  | pwrlimWrite (v : W64)
  | registerWrite (page : HostPage) (off : Nat) (v : W64)
  | powerOn (b : BringUp)
  | powerThrottle (excess : Bool)
  | thermalTrip
  -- the fabric
  | lightDetect (link : Fin 16) (lit : BitVec 16)
  | trainingPhaseTimeout (link : Fin 16)
  | linkRetryTimer (link : Fin 16)
  | flitReceive (link : Fin 16) (rx : Reception) (f : Flit)
  | ctrlFlitReceive (link : Fin 16) (f : Flit)
  | drainFlitReceive (link : Fin 16) (f : Flit)
  | ackTimer (link : Fin 16)
  | resendTimeout (link : Fin 16)
  | resendLimit (link : Fin 16)
  | lossOfLight (link : Fin 16) (lost : BitVec 16) (atSender : Bool)
  | laserRelight (link : Fin 16) (lit : BitVec 16)
  | quiesceTimeout (link : Fin 16)
  | put (x : Transfer)
  | getreq (x : Transfer)
  | getdata (x : Transfer)
  | msg (x : Transfer)
  | contrib (x : Transfer)
  | lreq (x : Transfer)
  | ldata (x : Transfer)
  | done (x : Transfer)
  | absent (x : Transfer)
  | firmwareRunningAgain (qp : Fin 8)
  | wavelengthLock (link : Fin 16) (locked : BitVec 16)
  | hostMemoryWrite (vd : Option (Fin 512)) (addr : Nat) (data : List Byte)
  | hostAtomicop (vd : Fin 512) (addr : Nat) (op : AOp) (z : ASz) (a cmp : BitVec 128)
  | modulePowerOff
  deriving DecidableEq, Repr

end Sys2Proof
end

