-- ==== Sys2Proof/Machine/State.lean ====
section
/-!
DEFINITION. The state of the whole device as plain data, and its value right after reset.
-/
namespace Sys2Proof.Machine

/-- A sparse table: keys strictly rising, no entry equal to the value an unlisted key reads as. -/
abbrev Tbl (α : Type) := List (Nat × α)

/-- Bytes by address in the same form: a list of `Host.Cell`; an unlisted byte reads 0 (log 3). -/
abbrev Mem := List Host.Cell

/-! ### Courses -/

/-- A completion token (R178). -/
structure Token where
  count  : BitVec 6
  status : BitVec 8
  deriving DecidableEq, Repr

/-- A trap frame, words 0 to 7 (R114). -/
structure Frame where
  words : Vector W64 8
  deriving DecidableEq, Repr

/-- A divergence-stack entry (R42). -/
structure DivEntry where
  pc    : Addr
  mask  : LaneMask
  join  : Addr
  phase : Bool
  deriving DecidableEq, Repr

/-- The pending record of a `bsync` (R164). -/
structure Bsync where
  pc      : Addr
  mask    : LaneMask
  arrived : LaneMask
  tsp     : Nat
  deriving DecidableEq, Repr

/-- One register with a value of it: what a result writes, or what a register held before it. -/
inductive RegVal where
  /-- A v register: the lanes that count and their values. -/
  | v (n : VReg) (lanes : LaneMask) (x : LaneVec)
  | g (n : GReg) (x : W64)
  /-- A predicate: the lanes that count and their values. -/
  | p (n : PDst) (lanes : LaneMask) (x : LaneMask)
  deriving DecidableEq, Repr

/-- An open shadow of a fixed-latency result (R95, R96): the register's earlier value and the position from which the result is
visible. -/
structure Shadow where
  old    : RegVal
  till   : Nat
  /-- STRICT was 1 when the shadow opened (R111). -/
  strict : Bool
  deriving DecidableEq, Repr

/-- Flags not yet visible in FSTAT (R112). -/
structure FlagShadow where
  flags : BitVec 5
  till  : Nat
  deriving DecidableEq, Repr

/-- A fault met after issue, delivered by R255. -/
structure LateFault where
  cause  : Nat
  detail : Nat
  faddr  : W64
  /-- The number of its operation: faults are raised in issue order. -/
  seq    : Nat
  deriving DecidableEq, Repr

/-- What an outstanding token operation waits for. -/
inductive OpWait where
  | nothing
  /-- Memory accesses, engine entries, promise operations, transfers: `n` parts are still to complete. -/
  | parts (n : Nat)
  /-- A `barwait.tk` on a barrier (R193). -/
  | barrier (b : Fin 16)
  /-- A batch record (R175). -/
  | service
  deriving DecidableEq, Repr

/-- An operation that counts on a token (R178, R179), kept until a `waitt` covers it. -/
structure TokOp where
  id     : Nat
  tk     : Tok
  wait   : OpWait
  /-- What it writes; the values are known when it is done. -/
  writes : List RegVal
  /-- The numbers of its destination registers, whatever it comes to write (R183). -/
  dests  : List Nat
  flags  : BitVec 5
  status : BitVec 8
  fault  : Option LateFault
  /-- Its count has fallen (R179). -/
  fallen : Bool
  /-- Issued after STRICT became 1 (R183). -/
  strict : Bool
  /-- Registers written by other words while it was outstanding (R124). -/
  clash  : List RegVal
  /-- The value read poison into a register (R250). -/
  poison : Bool
  /-- Issued inside the current idempotent region (R184). -/
  inRegion : Bool
  /-- A barrier wait, whose acquire takes effect when it is covered, and an acquire that then invalidates the L1 (R193, R207, R236). -/
  acq    : Bool
  inval  : Bool
  /-- A matrix-class operation (R298). -/
  mat    : Bool
  deriving DecidableEq, Repr

/-- Why a course that is resident does not issue (R38). -/
inductive Hold where
  | none
  | dly (till : Nat)
  | yield (till : Nat)
  /-- The wait after a guarded `region` (R166). -/
  | guard (till : Nat)
  deriving DecidableEq, Repr

/-- The states of R51. -/
inductive CState where
  | resident | parked | stored | retired | killed
  deriving DecidableEq, Repr

/-- A record of a cause chain (R412). -/
structure Cause where
  w0 : W64
  w1 : W64
  w2 : W64
  w3 : W64
  deriving DecidableEq, Repr

/-- Where a part of an access, or the access an agent is making, stands. -/
inductive Phase where
  /-- Held in quarantine (R442). -/
  | held
  | untranslated
  /-- Translated, tagged with a generation (R195); the place lies in host memory. -/
  | ready (pa : Nat) (gen : BitVec 16) (host : Bool)
  /-- Waiting on a stage-1 fault (R396). -/
  | wait1 (va : Nat)
  /-- Waiting on a stage-2 fault (R397). -/
  | wait2 (gpa : Nat)
  /-- Waiting for the page migration engine (R244). -/
  | paging (gpa : Nat)
  | performed
  /-- Ended in a fault. -/
  | failed (cause detail : Nat)
  deriving DecidableEq, Repr

/-- A replayable fault that a page waits on, in the order the faults were met (R221, R396, R397, R472). -/
structure FaultWait where
  space  : Nat
  stage2 : Bool
  /-- The faulting virtual or guest-physical address. -/
  addr   : Nat
  detail : Nat
  die    : Nat
  kind   : Nat
  core   : Nat
  slot   : Nat
  /-- A page in host memory: its service is the page migration engine's (R218, R244). -/
  paging : Bool
  /-- It is passed on: its record is written. -/
  passed : Bool
  deriving DecidableEq, Repr

/-- What a quarantined operation does when it is released (R442). -/
inductive HeldOp where
  /-- A memory access by its number. -/
  | access (id : Nat)
  /-- A queue entry by its number. -/
  | entry (id : Nat)
  | arrive (b : Fin 16) (mask : BitVec 16)
  | expect (b : Fin 16) (n : W32)
  | barinit (b : Fin 16)
  | barinv (b : Fin 16)
  | ringInit (rg : Fin 8) (desc : W64)
  /-- An acquire or take of a slot, whose word the course holds since the issue. -/
  | ringGet (rg : Fin 8) (slot : Nat) (take : Bool)
  /-- A commit or release, with the phase that its slot word names. -/
  | ringEffect (rg : Fin 8) (slot : Nat) (commit phase : Bool)
  | promise (id : Nat)
  | service (die : Fin 2) (record : List Byte)
  deriving DecidableEq, Repr

/-- An operation held in the quarantine buffer of a guarded course (R442). -/
structure Held where
  op    : HeldOp
  at_   : Nat
  tokOp : Option Nat
  /-- The number of the operation: it orders faults delivered later (R255). -/
  seq   : Nat
  deriving DecidableEq, Repr

/-- A word in a core's instruction cache, by space and virtual address (R237). -/
structure ICell where
  core  : Nat
  space : Nat
  va    : Nat
  pa    : Nat
  word  : W64
  psn   : Bool
  deriving DecidableEq, Repr

/-- A course (R109, R110). -/
structure Course where
  v : Vector LaneVec 256
  g : Vector W64 64
  p : Vector LaneMask 7
  tok : Vector Token 16
  pc : Addr
  lanes : LaneMask
  /-- Lanes that have executed `exit` (R164). -/
  exited : LaneMask
  tm : Bool
  tkmask : BitVec 16
  strict : Bool
  region : Addr
  /-- The cycle at which the current region was entered (R166, R184). -/
  regionAt : Nat
  rgstate : W64
  rowprog : W32
  fstat : BitVec 5
  rmode : BitVec 2
  /-- Trap frames, the top frame first; TSP is their number (R110). -/
  frames : List Frame
  /-- Divergence entries, the top entry first; DIVSP is their number (R42). -/
  div : List DivEntry
  bsync : Option Bsync
  ctxArea : Addr
  role : BitVec 2
  slot : Nat
  /-- Issue position (R95). -/
  pos : Nat
  shadows : List Shadow
  flagShadows : List FlagShadow
  /-- Outstanding and uncovered token operations, in issue order. -/
  ops : List TokOp
  nextOp : Nat
  hold : Hold
  /-- The barrier a blocked `barwait` waits on, and the status that has woken it (R193). -/
  barBlocked : Option (Fin 16)
  barWoke : Option (BitVec 64)
  /-- Blocked in a `waitt` since its word was met (R38, R180, R199). -/
  stalled : Bool
  /-- Faults of operations without a token, in issue order (R255). -/
  late : List LateFault
  debugPend : Bool
  rollbackPend : Bool
  ovfPend : List (BitVec 8)
  abn : Bool
  cstate : CState
  lastIssue : Nat
  created : Nat
  /-- The cycle of the last restore from an eviction (R39). -/
  restored : Option Nat
  /-- Quarantined operations, oldest first (R442). -/
  quarantine : List Held
  /-- The words issued within the strike window, newest first: the cycle, and the quadrant of the device, 4 to a core (R441). -/
  recent : List (Nat × Nat)
  /-- The last cycle at which a matrix entry of the course wrote a tile, and the core of its engine (R441). -/
  matWrote : Option (Nat × Nat)
  /-- `mma` and `mmaz` start row chosen by a `csrw` to ROWPROG (R298). -/
  rowStart : Bool
  /-- Where the fetch of the next word stands (R160). -/
  fetch : Phase
  /-- Words that have left the instruction cache and that the course may have fetched before, without issuing them (R267). -/
  ahead : List ICell
  chain : List Cause
  /-- 8-byte words of registers that hold an uncorrectable error: the register's number (`RegVal.name`) and the word in it, lanes 2 w and
  2 w + 1 of a v register (R249, R437). -/
  psn : List (Nat × Nat)
  /-- Parts of accesses in flight that used a translation since invalidated by a `tlbinv` of this course (R220). -/
  inval : List (Nat × Nat)
  deriving DecidableEq, Repr

/-! ### Trusses -/

/-- A barrier object (R185). -/
structure Bar where
  valid   : Bool
  phase   : BitVec 16
  mask    : BitVec 16
  arrived : BitVec 16
  fixed   : Bool
  pend    : W32
  deriving DecidableEq, Repr

/-- Slot states of a stage ring (R358). -/
inductive SlotState where
  | free | acquired | committing | filled | abandoned | taken | releasing
  deriving DecidableEq, Repr

/-- A slot of a stage ring, with the course that acquired or took it (R358, R367). -/
structure Slot where
  st    : SlotState
  phase : Bool
  owner : Nat
  deriving DecidableEq, Repr

/-- A stage ring (R358). -/
structure Ring where
  valid : Bool
  ssz   : Nat
  prod  : BitVec 2
  cons  : BitVec 2
  base  : Nat
  acq   : W32
  take  : W32
  slots : List Slot
  /-- Occupancy at the end of the previous cycle (R40, R358). -/
  occ   : Nat
  deriving DecidableEq, Repr

/-- An accumulator tile (R282) with its status word (R283): element (i, j) has number 64 i + j; unlisted elements are 0. -/
structure Tile where
  elems  : Tbl W32
  status : BitVec 8
  /-- 8-byte words that hold an uncorrectable error: word w holds elements 2 w and 2 w + 1 (R249). -/
  psnWords : List Nat
  /-- The cycle of the last write by the matrix engine (R441). -/
  wrote  : Option Nat
  deriving DecidableEq, Repr

/-- A layout entry as a tensor word carries it (R206). -/
abbrev Layout := Vector W64 4

/-- A write of a layout entry or a copy template that some courses of the truss may still read old (R207): the word, the field's
mask, the bits before it, and the courses that have not observed it. -/
structure TabWrite where
  tpl    : Bool
  n      : Nat
  word   : Nat
  mask   : W64
  old    : W64
  writer : Nat
  /-- A release of the writer has followed it. -/
  released : Bool
  stale  : BitVec 16
  deriving DecidableEq, Repr

/-- What an entry of an engine queue does; every operand is the copy taken at issue (R206, R286, R362, R369, R375). -/
inductive EntryBody where
  | mma (zero : Bool) (acc : Nat) (a b sa sb : Layout) (ca0 ca1 cb0 cb1 : Int) (fmt : W64) (k : Nat)
  | accz (acc n : Nat)
  | accld (acc : Nat) (l : Layout) (c0 c1 : Int) (tt : TileTy)
  | accst (acc : Nat) (l : Layout) (c0 c1 : Int) (tt : TileTy)
  | accGet (acc x row : Nat)
  | accPut (acc row : Nat) (vals : List W32)
  | accStat (acc x : Nat) (clr : Bool)
  | accCopy (acc x : Nat)
  | accsc (acc : Nat) (f : W32) (i32 : Bool)
  | mtest (d : Nat)
  | bcopy (tpl : Vector W64 2) (src dst : Layout) (s d : List Int)
  /-- A commit or release, with the phase that its slot word names; `none` once a kill has taken its slot (R367). -/
  | ring (rg : Fin 8) (slot : Nat) (commit : Bool) (phase : Option Bool)
  | qfence (copy mat net : Bool) (fence : Nat)
  | amsg (target handler : Nat) (tblBase : Nat) (payload : List Byte)
  | nsend (ep tag : Nat) (buf len : Nat)
  | nrecv (mw : W64) (buf cap recAddr : Nat)
  | nprobe (mw : W64) (recAddr : Nat)
  | fput (ep loc peer len : Nat)
  | fget (ep loc peer len : Nat)
  | fcopy (sep dep src dst len : Nat)
  | fmrs (grp src off cnt : Nat)
  | fmrl (grp off dst cnt : Nat)
  deriving DecidableEq, Repr

/-- An entry of a truss's matrix, copy or network queue. -/
structure QEntry where
  id     : Nat
  course : Nat
  tokOp  : Option Nat
  issued : Nat
  body   : EntryBody
  /-- The engine has begun it. -/
  begun  : Bool
  /-- Rows committed or elements performed (R295, R371). -/
  done   : Nat
  /-- Every row or element is performed; the entry has yet to complete. -/
  full   : Bool
  /-- A row of a tile is committed by it (R284, R305). -/
  wrote  : Bool
  poison : Bool
  drop   : Bool
  partly : Bool
  fault  : Option LateFault
  /-- Sub-arrays that computed it (R283). -/
  subs   : BitVec 4
  ovf    : Bool
  /-- The access the engine is making for it, and its virtual address. -/
  wait   : Phase
  waitAt : Nat
  /-- Held in quarantine (R442). -/
  held   : Bool
  /-- Recorded as not performed: re-issued before the course's next word (R52). -/
  redo   : Bool
  /-- Issued inside the course's current region (R184). -/
  inRegion : Bool
  /-- What the engine has read and not yet used: the columns of B and of its scales, or a held tile (R288, R442). -/
  cached : Bool
  cache  : List (List Nat)
  deriving DecidableEq, Repr

/-- The items of a launch (R30, R345). -/
structure LaunchItems where
  kernel  : W64
  handler : W64
  tblBase : Nat
  tblCnt  : Nat
  part    : W64
  gx      : Nat
  gy      : Nat
  gz      : Nat
  courses : Nat
  span    : Nat
  regs    : Nat
  progress : Nat
  strict  : Bool
  guarded : Bool
  tkmask  : BitVec 16
  roles   : W32
  arg     : W64
  g5      : W64
  g6      : W64
  g7      : W64
  statusAddr : Nat
  deriving DecidableEq, Repr

/-- Where a truss is (R51). -/
inductive TrussPlace where
  | onCore (core : Nat)
  /-- In the context record of the core it left (R405). -/
  | stored (core : Nat)
  | gone
  deriving DecidableEq, Repr

/-- A truss: its courses and the state they share. -/
structure Truss where
  vd      : Fin 512
  /-- The launch it belongs to, by number; handler trusses name the sender's launch (R49). -/
  launch  : Nat
  items   : LaunchItems
  kernelMode : Bool
  /-- A handler truss (R49). -/
  handlerTruss : Bool
  index   : Nat
  spanPos : Nat
  /-- Trusses of one span share this number. -/
  spanId  : Nat
  place   : TrussPlace
  courses : List Course
  bars    : Vector Bar 16
  goneMask : BitVec 16
  layouts : Tbl Layout
  tpls    : Tbl (Vector W64 2)
  /-- Table writes that some course may read old, oldest first (R207). -/
  tabPend : List TabWrite
  rings   : Vector Ring 8
  scr     : Mem
  scrPsn  : Tbl Bool
  tiles   : List Tile
  /-- The pool units of its core that hold the tiles, four tiles to a unit (R232). -/
  units   : List Nat
  matQ    : List QEntry
  copyQ   : List QEntry
  netQ    : List QEntry
  /-- The header slot of its context record (R405). -/
  ctxSlot : Nat
  /-- A course of it has been dumped: the truss's own image is in the dump (R411). -/
  dumped  : Bool
  /-- To be fully evicted once it has drained (R54, R402, R404, R446). -/
  evict   : Bool
  /-- Its engine has run the self-test that comes before its tiles leave (R285). -/
  tested  : Bool
  deriving DecidableEq, Repr

/-! ### Launches, accesses, waiters -/

/-- A launch (R470): known by its block and SEQ. -/
structure Launch where
  vd    : Fin 512
  blk   : Nat
  seq   : W32
  items : LaunchItems
  /-- Trusses admitted so far. -/
  admitted : Nat
  status : BitVec 8
  /-- Every truss is retired or killed, and the status written (R344, R345). -/
  complete : Bool
  /-- The write of its status (R345). -/
  wait : Phase
  deriving DecidableEq, Repr

/-- One piece of an access: at most 8 bytes of one lane, or a 16-byte CAS (R254, R257). -/
structure Part where
  lane  : Nat
  va    : Nat
  size  : Nat
  /-- Bytes to store, or the operand of an atomic. -/
  data  : List Byte
  cmp   : List Byte
  phase : Phase
  /-- Bytes read. -/
  got   : List Byte
  poison : Bool
  /-- Destination offset of `acp`. -/
  dst   : Nat
  /-- The cycle at which its request left its core (R240, R241). -/
  sent  : Nat
  /-- A store whose bytes the L1 of its core holds, before its home has performed it (R236, R313). -/
  early : Bool
  deriving DecidableEq, Repr

/-- What an access does (R259 to R264, R271). -/
inductive AccKind where
  | load | store | atomic (op : AOp) | copy (bar : Option (Fin 16)) | prefetch (l1 : Bool)
  /-- `cwb`: its one part shrinks page by page (R269). -/
  | clean (inv : Bool)
  deriving DecidableEq, Repr

/-- How a load's bytes reach registers. -/
inductive Landing where
  | none
  /-- A v register run from D with a size (R256). -/
  | v (d : VReg) (z : Sz)
  | g (d : GReg) (z : LdcSz)
  /-- The old values of an atomic. -/
  | at_ (d : VReg) (z : ASz)
  /-- Elements of a layout load: each part is one element with its register and field (R271). -/
  | lay (d : VReg) (fmt : Nat) (nr : Nat) (row : Bool)
  deriving DecidableEq, Repr

/-- A memory word of a course that has issued and whose parts are not all performed. -/
structure Access where
  id    : Nat
  who   : CRef
  tokOp : Option Nat
  kind  : AccKind
  /-- A span-scratchpad access: the parts' addresses name the member (R253). -/
  ssc   : Bool
  scratch : Bool
  acq   : Option Scope
  rel   : Option Scope
  parts : List Part
  /-- Bytes of a retired span member were dropped or read as zero (R56). -/
  drop  : Bool
  /-- Issued inside the course's current region (R184). -/
  inRegion : Bool
  land_ : Landing
  lanes : LaneMask
  deriving DecidableEq, Repr

/-- Directory entry of a promise cell (R272). -/
inductive PCell where
  | empty (members : Nat)
  | full (x : W64) (members : Nat)
  | linked (root : Nat)
  deriving DecidableEq, Repr

/-- Operations on promise cells (R273). -/
inductive POp where
  | pinit (free : Bool) | pfill (x : W64) | pwait | pequ (other : Nat) | ptest
  deriving DecidableEq, Repr

/-- Who waits for a promise operation: a course's token operation, or a queue's packet (R347, R348). -/
inductive PWho where
  | course (c : CRef) (op : Nat) (d : Option GReg)
  | queue (blk : Nat)
  deriving DecidableEq, Repr

/-- A promise operation that has issued: its cell by virtual address; a waiter when it is a `pwait` parked or repeating. -/
structure PromOp where
  id     : Nat
  who    : PWho
  vd     : Fin 512
  op     : POp
  va     : Nat
  phase  : Phase
  phase2 : Phase
  /-- A waiter: the cell named, by system-physical address, and whether it is parked (R277). -/
  waiting : Option (Nat × Bool)
  /-- Releases of the course that must come first are those of lower number. -/
  rel    : Bool
  /-- The release is at truss scope: what the core's L1 shows the truss is performed (R276). -/
  relTrs : Bool
  acqScope : Option Scope
  /-- The cycle at which its request left its core (R240, R241). -/
  sent   : Nat
  deriving DecidableEq, Repr

/-- A TLB entry (R219): which TLB holds it, its space, page and translation. -/
structure TlbEntry where
  /-- A first-level TLB of a core, else a second-level TLB of a cluster. -/
  first : Bool
  unit  : Nat
  space : Nat
  va    : Nat
  size  : Nat
  pa    : Nat
  w     : Bool
  x     : Bool
  u     : Bool
  atom  : BitVec 2
  cm    : Bool
  prm   : Bool
  host  : Bool
  gen   : BitVec 16
  deriving DecidableEq, Repr

/-- A copy of a global line in an L1 (R236). -/
structure L1Line where
  data : List Byte
  psn  : BitVec 16
  deriving DecidableEq, Repr

/-- A message on its way to, or queued at, a target core (R48). -/
structure AMsg where
  vd      : Fin 512
  target  : Nat
  handler : Nat
  tblBase : Nat
  launch  : Nat
  payload : List Byte
  /-- The sender's truss and queue entry. -/
  sender  : Option (Nat × Nat)
  /-- The read of its handler table entry (R213). -/
  wait    : Phase
  deriving DecidableEq, Repr

/-- A release narrower than `.sys` that its home has performed while earlier accesses of its course are still to be: agents of its scope's
instance that acquire what it wrote wait for them; toward others it is a store (R306, R308, R311). -/
structure EarlyRel where
  who   : CRef
  scope : Scope
  /-- Where it wrote: 0 device memory, 1 host memory, 2 + n the scratchpad of truss n. -/
  space : Nat
  addr  : Nat
  size  : Nat
  /-- The earlier accesses, by number. -/
  needs : List Nat
  /-- Its own number. -/
  seq   : Nat
  deriving DecidableEq, Repr

/-- A pool unit of a core as an ACC unit that no truss holds: the device of the truss that held the unit last, none where trusses of two
devices shared it, and its four tiles as they were left (R109, R233). -/
structure AccUnit where
  vd    : Option (Fin 512)
  tiles : List Tile
  /-- It has since lain in REG or SCR space, from that moment of `tick` on (R232). -/
  used  : Option Nat
  deriving DecidableEq, Repr

/-- An event counter (R199). -/
structure EvCounter where
  value : BitVec 48
  ctl   : BitVec 16
  deriving DecidableEq, Repr

/-- A core. -/
structure Core where
  /-- The cycle at which CYC was 0: CYC is the cycle count minus it, modulo 2^64 (R27). -/
  cyc0    : Nat
  strkz   : BitVec 5
  mtint   : W32
  ec      : Vector EvCounter 8
  /-- Matrix instructions completed since the last periodic self-test (R299). -/
  mcount  : Nat
  fenced  : BitVec 4
  retired : Bool
  /-- The partition word in force (R35). -/
  part    : Option W64
  /-- Queued active messages, oldest first (R48). -/
  amsgs   : List AMsg
  /-- The core's pool units that no truss holds as ACC units, by unit number (R232, R233); a unit not listed was never held. -/
  acc     : Tbl AccUnit
  /-- The truss the matrix engine is executing for, and the truss it served last (R286). -/
  matBusy : Option Nat
  matLast : Option Nat
  copyLast : Option Nat
  /-- Uncorrectable errors of the core, by cycle (R446). -/
  ueAt    : List Nat
  /-- A switch parks courses of this device here until so many bytes of REG space are free (R53, R402). -/
  parking : Option (Fin 512 × Nat)
  deriving DecidableEq, Repr

/-! ### Virtual devices and queues -/

/-- A posted receive (R381). -/
structure Recv where
  who : CRef
  op  : Nat
  mw  : W64
  buf : Nat
  cap : Nat
  recAddr : Nat
  /-- The entry it came from: its place in issue order, and what goes back to the queue with it (R335, R384). -/
  entry : Nat
  issued : Nat
  inRegion : Bool
  deriving DecidableEq, Repr

/-- An unexpected message (R381). -/
structure UMsg where
  src  : BitVec 16
  tag  : W32
  data : List Byte
  poison : List Nat
  deriving DecidableEq, Repr

/-- A fault record that waits for room in a fault ring (R396). -/
structure FaultRec where
  w0 : W64
  w1 : W64
  w2 : W64
  w3 : W64
  deriving DecidableEq, Repr

/-- A virtual device: its table entry (R223) and what the supervisor cluster keeps with it. -/
structure VDev where
  v : Bool
  mode : BitVec 3
  weight : BitVec 8
  s1root : Nat
  s2root : Nat
  gen : BitVec 16
  hqs : Nat
  ctxBase : Nat
  dumpBase : Nat
  fep : Nat
  nfep : Nat
  ctxSize : Nat
  dumpSlots : Nat
  set : Fin 32
  pass : W64
  runnable : Bool
  meters : Vector W64 10
  /-- What cores and engines have counted and not yet added to the meters (R198). -/
  shares : Vector W64 10
  /-- MODE before a kill (R413). -/
  modeBefore : BitVec 3
  kdone : Bool
  /-- Header of the dump area (R411). -/
  dumpNext : W32
  dumpFreed : W32
  dumpTrunc : Bool
  dumps : W32
  /-- Numbers of the dump slots in use that hold a cause chain, oldest first (R411). -/
  chainSlots : List W32
  /-- Control page (R394). -/
  fltbase : W64
  flttail : W64
  flthead : W64
  vecs : W64
  /-- MSI-X table of its virtual function, 8-byte words, and its pending bits (R393). -/
  msix : Tbl W64
  recvs : List Recv
  umsgs : List UMsg
  /-- Words to the cluster grant table entry (R224). -/
  grant : BitVec 24
  excl : Bool
  /-- Generation raises since the last full invalidation (R196). -/
  genRaises : Nat
  /-- A SETSET to this set waits until the device's trusses are out (R404). -/
  moveTo : Option (Fin 32)
  deriving DecidableEq, Repr

/-- A part of a context record that is in use, in the images, scratchpad portions and tiles (R405): its device, the core of the record, the
truss, and its course when it is a course's image; its place from the start of that part, and its size. -/
structure CtxPart where
  vd     : Fin 512
  core   : Nat
  truss  : Nat
  course : Option Nat
  off    : Nat
  size   : Nat
  deriving DecidableEq, Repr

/-- States of a queue control block (R338). -/
inductive QState where
  | unmapped | running | blocked | faulted | halted
  deriving DecidableEq, Repr

/-- What an issued packet still waits for (R344). -/
inductive Inflight where
  | done
  | launch (n : Nat)
  /-- The promise operation of a WAIT, and of a fill, by number. -/
  | waitProm (id : Nat)
  | promise (id : Nat)
  | waitMem (addr : Nat) (value mask : W64) (cond : Nat) (w64 : Bool)
  | copy (src dst len at_ : Nat)
  deriving DecidableEq, Repr

/-- An issued, unretired packet (R338 INFL). -/
structure Packet where
  seq   : W32
  units : Nat
  st    : Inflight
  /-- The access of a COPY (R344). -/
  wait  : Phase
  deriving DecidableEq, Repr

/-- A queue control block as its hardware slot holds it while it is mapped, with what the I/O die and its queue processor keep of it; the
words of a block that is not mapped are those of its 256 bytes in device memory (R336, R338, R352). -/
structure Qcb where
  v : Bool
  st : QState
  bprio : BitVec 4
  vd : Fin 512
  rsz : Nat
  kidx : Fin 512
  rbase : Nat
  tail : W32
  head : W32
  eseq : W32
  retire : W32
  hmir : Nat
  ageq : BitVec 16
  waitSince : BitVec 48
  errSeq : W32
  een : Bool
  evec : Fin 64
  err : BitVec 8
  infl : List Packet
  pending : Bool
  /-- The hardware slot that holds it (R351). -/
  slot : Option (Fin 256)
  /-- Fetched packets, oldest first (R343). -/
  look : List (List Byte)
  /-- Packets still to be skipped by a COND (R350). -/
  skip : Nat
  /-- Retirements not yet written to HMIR (R342), and the last memory WAIT poll. -/
  unreported : Bool
  polled : Nat
  /-- The access its thread is making, and the write to HMIR (R342, R353). -/
  wait : Phase
  hwait : Phase
  /-- `wait` is that of a ring fetch: the place in sequence of the packet fetched (R353). -/
  ringAt : Option W32
  deriving DecidableEq, Repr

/-- A cluster set (R399). -/
structure ClSet where
  defined : Bool
  mask : BitVec 24
  floor : W64
  running : Option (Fin 512)
  /-- The device that a switch under way goes into (R402). -/
  next : Option (Fin 512)
  sliceStart : Nat
  deriving DecidableEq, Repr

/-- Stages of a kill (R408). -/
inductive KillStage where
  /-- A DESTROY waits for the end of a switch into its device (R416). -/
  | wait
  | drain | dump | release
  deriving DecidableEq, Repr

/-- What a kill acts on. -/
inductive KillScope where
  | course (c : CRef)
  | truss (t : Nat)
  | device (v : Fin 512) (destroy : Bool)
  deriving DecidableEq, Repr

/-- A kill under way (R408, R445). -/
structure Kill where
  scope : KillScope
  stage : KillStage
  /-- Engines that have reported their drain (R409). -/
  drained : List Engine
  began : Nat
  root : Cause
  firstSlot : Option W32
  /-- A mailbox command waits for its release. -/
  mailbox : Bool
  /-- A RESET of the device, whose control page it resets (R6, R414). -/
  resets : Bool
  deriving DecidableEq, Repr

/-- A run of fold-table entries under way (R242): the column folded off or on, and the entries still to move. -/
structure Fold where
  col : Fin 16
  on_ : Bool
  /-- The column is reset and folded back on (R414), or retired for good (R446). -/
  reset : Bool
  retire : Bool
  mailbox : Bool
  /-- The entry that moves, and its lines that the old slice still holds. -/
  entry : Option Nat
  left : List Nat
  /-- The cycle at which its entry was written (R242). -/
  began : Nat
  deriving DecidableEq, Repr

/-! ### The fabric -/

/-- Link states of R418. -/
inductive LinkSt where
  | down | training | up | quiet | dark
  deriving DecidableEq, Repr

/-- A flit that this end sends, and whether its transfer is one this device has begun (R422, R423). -/
structure OutFlit where
  f    : Flit
  mine : Bool
  deriving DecidableEq, Repr

/-- A fabric link (R418 to R430). -/
structure Link where
  st : LinkSt
  phase : Nat
  txmask : BitVec 16
  rxmask : BitVec 16
  lit : BitVec 16
  retrains : BitVec 8
  /-- Restarts in a row (R419), and where a training began. -/
  restarts : Nat
  phaseStart : Nat
  /-- Training keeps the allowances as they stand (R426, R430). -/
  relocking : Bool
  allow : Nat
  /-- Allowance to return to the partner. -/
  owe : Nat
  txSeq : BitVec 16
  rxSeq : BitVec 16
  /-- Unacknowledged flits, oldest first (R425); those from `cursor` on are still to be sent. -/
  replay : List OutFlit
  cursor : Nat
  /-- Flits that have not entered the replay buffer, oldest first. -/
  pend   : List OutFlit
  /-- Flits put on the light, oldest first, and the beats since the last restripe or the end of training (R420). -/
  sent : List Flit
  beats : Nat
  unacked : Nat
  resends : Nat
  /-- A NAK has been sent and the expected flit has not come (R425). -/
  naking : Bool
  lastRx : Nat
  lastAck : Nat
  quiescing : Option Nat
  drainSent : Bool
  drainGot : Bool
  /-- Records of kind 0x11 that wait for the ACKSEQ of the receiver's NAK, oldest first (R462). -/
  restripe : List Cause
  deriving DecidableEq, Repr

/-- A transfer this device has started and whose end has not come (R422, R431): the entry it serves. -/
structure Outgoing where
  xid    : W32
  kind   : XKind
  vd     : Fin 512
  truss  : Nat
  entry  : Nat
  dstEp  : BitVec 16
  /-- Local destination of a get. -/
  loc    : Nat
  len    : Nat
  /-- One of its flits is acknowledged (R428). -/
  acked  : Bool
  /-- An `fcopy` between two other places: the destination endpoint that the bytes go on to. -/
  thru   : Option (BitVec 16)
  deriving DecidableEq, Repr

/-- A contribution to a chunk of a reduction window (R434): the elements given, from `first` in the chunk, and those not summed. -/
structure Contribution where
  grp   : Nat
  chunk : Nat
  peer  : Nat
  cn    : W32
  first : Nat
  elems : List (Nat × Bool)
  left  : List Nat
  srcEp : BitVec 16
  xid   : W32
  deriving DecidableEq, Repr

/-- The worst status so far over the chunks of a contributor's transfer (R434). -/
structure ContribStat where
  srcEp : BitVec 16
  xid   : W32
  grp   : Nat
  dstEp : BitVec 16
  st    : BitVec 8
  /-- Chunks of the transfer have yet to enter the pool. -/
  more  : Bool
  deriving DecidableEq, Repr

/-- A gathering of replies for an `fmrl` (R435): replies by peer index, and the elements written. -/
structure Gather where
  xid   : W32
  truss : Nat
  entry : Nat
  grp   : Nat
  dst   : Nat
  cnt   : Nat
  replies : List (Nat × List Byte × List Nat)
  done_ : Nat
  psn   : Bool
  deriving DecidableEq, Repr

/-- A transfer at the switch of its destination: what is received and how far it is served (R376, R460). -/
structure Inbound where
  x     : Transfer
  /-- The link it is still arriving on, and the one it came by. -/
  link  : Option (Fin 16)
  via   : Option (Fin 16)
  /-- Bytes performed, or read; of a contribution, chunks in the pool. -/
  at_   : Nat
  wait  : Phase
  psn   : Bool
  /-- The posted receive it is paired with; a message from the unexpected queue answers nothing (R381). -/
  rv    : Option Recv
  quiet : Bool
  /-- Send allowance kept back until it is served (R434). -/
  owed  : Nat
  deriving DecidableEq, Repr

/-- A transfer that this switch is forwarding, and the link it leaves on (R423), until the flits it has sent on are acknowledged (R428). -/
structure Forward where
  kind  : XKind
  link  : Fin 16
  srcEp : BitVec 16
  dstEp : BitVec 16
  xid   : W32
  out   : Option (Fin 16)
  /-- One of its flits is acknowledged (R428). -/
  acked : Bool
  /-- Its last flit has gone on. -/
  ended : Bool
  deriving DecidableEq, Repr

/-! ### The device -/

/-- Where bring-up stands (R451, R455). -/
inductive Power where
  /-- Module power is off. -/
  | off
  /-- A step of bring-up is under way. -/
  | booting
  | ready
  | failed
  deriving DecidableEq, Repr

/-- How a deferrable memory write completes (R340). -/
inductive Completion where
  | successful | unsupported | retry
  deriving DecidableEq, Repr

/-- A posted write, message or completion of the device toward the host, as it leaves the host port (R321, R349, R471). -/
inductive HostOut where
  | msix (fn : Nat) (vec : Nat)
  | write (addr : Nat) (data : List Byte)
  | completion (c : Completion)
  /-- The old value that an AtomicOp of the host returns. -/
  | atomicOld (x : BitVec 128)
  /-- An AtomicOp request to the host: FetchAdd, Swap or CAS of `size` bytes (R23, R247). -/
  | atomicOp (op : AOp) (addr size : Nat) (a cmp : BitVec 128)
  deriving DecidableEq, Repr

/-- The whole device. -/
structure State where
  /-- The happenings that come next, oldest first; `none` is one issue of a course: the model's own field (log 1). -/
  agenda : List (Option Instr)
  /-- The course an instruction word acts for: the model's own field (log 1). -/
  cur : CRef
  /-- The counter that free values are applied to: the model's own field (log 2). -/
  tick : Nat
  power : Power
  bootStep : BitVec 4
  bootCode : BitVec 4
  bootDetail : BitVec 8
  /-- What the bring-up under way finds: the flash and the parts of the module, as they stand (R451). -/
  boot : Option BringUp
  computeOn : Bool
  throttled : Bool
  /-- Core cycles and I/O-die cycles since power-on (R7). -/
  clk : Nat
  ioClk : Nat
  /-- When the counters of dies 0, 1 and 2 were 0, in cycles of each die's clock, modulo 2^64 (R27). -/
  dieCtr0 : Vector Nat 3
  -- memory
  mem : Mem
  memPsn : Tbl Bool
  /-- Lines of device memory that their home slices hold, oldest first, and those of them that are dirty (R238). -/
  lines : List Nat
  dirty : List Nat
  /-- The core that each slice served last (R241). -/
  sliceLast : Tbl Nat
  hostMem : Mem
  /-- Poisoned words among what the device has put into host memory (R250). -/
  hostPsn : Tbl Bool
  cells : Tbl PCell
  proms : List PromOp
  accesses : List Access
  /-- Releases performed, or shown by an L1, before earlier accesses of their courses: stores toward agents that they do not include (R308). -/
  early : List EarlyRel
  nextId : Nat
  l1 : Tbl L1Line
  icache : List ICell
  tlbs : List TlbEntry
  /-- Fault gates that are held, by 513 times the die plus the space (R221). -/
  gates : Tbl Bool
  faults : List FaultWait
  /-- The generation of the physical function's space (R176). -/
  pfGen : BitVec 16
  /-- Sides of the last 4,096 atomics of a COUNTER-MANAGED unit, newest first: true for the host (R248). -/
  cmCount : Tbl (List Bool)
  fold : Tbl W32
  columns : BitVec 16
  /-- Columns that have been retired for good (R446). -/
  columnsGone : BitVec 16
  folds : List Fold
  hbmFree : List Nat
  pool : List Nat
  ueCol : Tbl (List Nat)
  /-- Poisoned words of the I/O die's SRAMs (R17, R249). -/
  ioPsn : Tbl Bool
  -- cores, trusses, launches
  cores : Vector Core 192
  svrBase : Vector Addr 2
  svrHead : Vector (BitVec 11) 2
  svrTail : Vector (BitVec 11) 2
  svcCore : Vector Nat 2
  /-- Batch records in the rings: the calling course and operation, oldest first, per die. -/
  svcRecs : Vector (List (Option (CRef × Nat))) 2
  /-- The record that each course of a die's service truss took last and has not completed (R468). -/
  svcTaken : Vector (Tbl (CRef × Nat)) 2
  trusses : List Truss
  launches : List Launch
  amsgFly : List AMsg
  -- virtual devices
  vds : Tbl VDev
  remap : Tbl W64
  kickMap : Tbl W32
  qcbs : Tbl Qcb
  sets : Vector ClSet 32
  kills : List Kill
  /-- Passes that the scheduler of queue mappings owes for wakes and for queues become idle or BLOCKED, and the I/O-die cycle of its last
periodic pass (R351). -/
  passesDue : Nat
  passAt : Nat
  /-- The parts of the context records in use, in the order written (R405). -/
  ctxParts : List CtxPart
  qpFallback : Vector Bool 8
  /-- The slot that the fallback scheduler of each queue processor visits next (R354). -/
  qpCursor : Vector Nat 8
  -- registers the host reaches
  mbcmd : Vector W64 8
  mbBusy : Bool
  mbStatus : BitVec 16
  mbOut : Vector W64 4
  evBase : W64
  evSize : W64
  evTail : W64
  evHead : W64
  /-- Event records that wait for room (R397). -/
  evWait : List Cause
  fbcmd : Vector W64 12
  /-- A QUIESCE (else a RELOCK) under way, and its links (R418). -/
  fbBusy : Option (Bool × BitVec 16)
  fbStatus : BitVec 16
  fbOut : Vector W64 4
  cecnt : W64
  uecnt : W64
  strikes : W64
  degrade : W64
  rrcnt : W64
  cecthr : W64
  discards : W64
  capctl : W64
  capbase : W64
  capsize : W64
  captail : W64
  caphead : W64
  /-- Capture records used by the replay under way, by kind (R447). -/
  replayed : Tbl Nat
  /-- What the device has written to host addresses as the physical function's requests see them (R471). -/
  pfHost : Mem
  fwSvn : W64
  cfgSvn : W64
  fwDigest : Vector W64 8
  cfgDigest : Vector W64 8
  nonce : Vector W64 8
  attaddr : W64
  attstat : W64
  pwrlim : W64
  pwrnow : W64
  tjmax : W64
  /-- The hottest junction's temperature now, in degrees (R452, R454). -/
  junction : W64
  /-- What the configuration image supplies (R450): the fabric device ID (R417), QCBBASE (R336), the contribution pool (R434) and the bounds of
  the supervisor cluster's pool (R392). -/
  fabricId : BitVec 7
  qcbBase : Nat
  contribBase : Nat
  poolLo : Nat
  poolHi : Nat
  -- fabric
  links : Vector Link 16
  routes : Vector (BitVec 16) 128
  endpoints : Tbl (BitVec 16)
  groups : Tbl (Vector W64 8)
  outgoing : List Outgoing
  nextXid : W32
  forwards : List Forward
  inbound : List Inbound
  /-- Flits for which no link of their route is UP yet (R430). -/
  xmit : List OutFlit
  contribs : List Contribution
  contribStats : List ContribStat
  /-- Highest CN summed, by group, peer and chunk (R434). -/
  summed : List (Nat × Nat × Nat × W32)
  /-- The contribution number each group gives next (R434). -/
  nextCn : Tbl W32
  gathers : List Gather
  /-- MSG and DONE transfers already taken, by kind, source endpoint and XID (R428). -/
  seen : List (XKind × BitVec 16 × W32)
  hostOut : List HostOut
  /-- The host port is trained; posted writes of the physical function that wait for it, oldest first (R471). -/
  hostUp : Bool
  hostWait : List (Nat × List Byte)
  deriving DecidableEq, Repr

/-- What stops the machine. -/
inductive Fault where
  /-- Raised by the meanings of HOST_MEMORY_WRITE and HOST_ATOMICOP: the host names an address outside the 52-bit
  system-physical space (R216), which no device address is. Safe: such a write has no effect to model. -/
  | noSuchAddress
  deriving DecidableEq, Repr

/-- What the model refuses. -/
inductive Refusal where
  /-- Raised by an arm of `exec` whose instruction has no meaning yet. Safe: the machine stops. -/
  | notModelled (mnemonic : String)
  deriving DecidableEq, Repr

/-! ### Reset -/

def Bar.launch : Bar := ⟨true, 0, 0, 0, false, 0⟩
def Ring.launch : Ring := ⟨false, 0, 0, 0, 0, 0, 0, [], 0⟩

/-- A link at power-on: DOWN, every field 0 (R418). -/
def Link.reset : Link :=
  { st := .down, phase := 0, txmask := 0, rxmask := 0, lit := 0, retrains := 0, restarts := 0, phaseStart := 0,
    relocking := false, allow := 0, owe := 0, txSeq := 0, rxSeq := 0, replay := [], cursor := 0, pend := [], sent := [], beats := 0, unacked := 0, resends := 0,
    naking := false, lastRx := 0, lastAck := 0, quiescing := none, drainSent := false, drainGot := false, restripe := [] }

/-- A core at reset (R27, R118, R199). -/
def Core.reset : Core :=
  { cyc0 := 0, strkz := 0, mtint := 65536, ec := Vector.replicate 8 ⟨0, 0⟩, mcount := 0, fenced := 0, retired := false,
    part := none, amsgs := [], acc := [], matBusy := none, matLast := none, copyLast := none, ueAt := [],
    parking := none }

def ClSet.reset : ClSet := ⟨false, 0, 0, none, none, 0⟩

/-- The module as power is applied, before bring-up (R451): every field at its power-on value (R6). The values no rule gives are
those of log 3 (memory), log 4 (the signed images), log 1 (agenda, cur) and log 2 (tick). -/
def State.reset : State :=
  { agenda := [], cur := ⟨0, 0⟩, tick := 0,
    power := .off, bootStep := 0, bootCode := 0, bootDetail := 0, boot := none, computeOn := false, throttled := false,
    clk := 0, ioClk := 0, dieCtr0 := Vector.replicate 3 0,
    mem := [], memPsn := [], lines := [], dirty := [], sliceLast := [], hostMem := [], hostPsn := [], cells := [], proms := [], accesses := [], early := [], nextId := 0,
    l1 := [], icache := [], tlbs := [], gates := [], faults := [], pfGen := 0, cmCount := [], fold := [], columns := 0xFFFF, columnsGone := 0, folds := [],
    hbmFree := [], pool := [], ueCol := [], ioPsn := [],
    cores := Vector.replicate 192 Core.reset,
    svrBase := #v[BitVec.ofNat 57 (Config.svrBase 0), BitVec.ofNat 57 (Config.svrBase 1)],
    svrHead := #v[0, 0], svrTail := #v[0, 0], svcCore := #v[95, 191], svcRecs := #v[[], []], svcTaken := #v[[], []],
    trusses := [], launches := [], amsgFly := [],
    vds := [], remap := [], kickMap := [], qcbs := [], sets := Vector.replicate 32 ClSet.reset, kills := [],
    passesDue := 0, passAt := 0, ctxParts := [], qpFallback := Vector.replicate 8 false, qpCursor := Vector.replicate 8 0,
    mbcmd := Vector.replicate 8 0, mbBusy := false, mbStatus := 0, mbOut := Vector.replicate 4 0,
    evBase := 0, evSize := 0, evTail := 0, evHead := 0, evWait := [],
    fbcmd := Vector.replicate 12 0, fbBusy := none, fbStatus := 0, fbOut := Vector.replicate 4 0,
    cecnt := 0, uecnt := 0, strikes := 0, degrade := 0, rrcnt := 0, cecthr := BitVec.ofNat 64 Config.cecThr, discards := 0,
    capctl := 0, capbase := 0, capsize := 0, captail := 0, caphead := 0, replayed := [], pfHost := [],
    fwSvn := 0, cfgSvn := 0, fwDigest := Vector.replicate 8 0, cfgDigest := Vector.replicate 8 0,
    nonce := Vector.replicate 8 0, attaddr := 0, attstat := 0, pwrlim := BitVec.ofNat 64 Config.pwrLim, pwrnow := 0,
    tjmax := 0, junction := 0, fabricId := BitVec.ofNat 7 Config.fabricId, qcbBase := Config.qcbBase, contribBase := Config.contribBase,
    poolLo := Config.poolBase, poolHi := Config.poolEnd,
    links := Vector.replicate 16 Link.reset, routes := Vector.replicate 128 0, endpoints := [], groups := [],
    outgoing := [], nextXid := 0, forwards := [], inbound := [], xmit := [], contribs := [], contribStats := [], summed := [], nextCn := [], gathers := [], seen := [],
    hostOut := [], hostUp := false, hostWait := [] }

end Sys2Proof.Machine
end

