-- ==== Sys2Proof/Machine/Tables.lean ====
section
/-!
DEFINITION. Sparse tables in one canonical form, and bytes of memory over them (00 R3: little-endian).
-/
namespace Sys2Proof.Machine

/-- The value of key `k`; an unlisted key reads `d`. -/
def tget {α : Type} (d : α) : Tbl α → Nat → α
  | [], _ => d
  | (j, x) :: t, k => if k = j then x else if k < j then d else tget d t k

/-- The table with key `k` at `x`: the entry is removed when `x` is what an unlisted key reads. -/
def tset {α : Type} [DecidableEq α] (d : α) (t : Tbl α) (k : Nat) (x : α) : Tbl α :=
  match t with
  | [] => if x = d then [] else [(k, x)]
  | (j, y) :: t =>
    if k = j then if x = d then t else (k, x) :: t
    else if k < j then if x = d then (j, y) :: t else (k, x) :: (j, y) :: t
    else (j, y) :: tset d t k x

/-- The canonical form: keys strictly rising, no entry equal to the default. -/
def twf {α : Type} [DecidableEq α] (d : α) : Tbl α → Bool
  | [] => true
  | [(_, x)] => decide (x ≠ d)
  | (j, x) :: (k, y) :: t => decide (x ≠ d) && decide (j < k) && twf d ((k, y) :: t)

/-- An entry of a table whose unlisted keys are absent. -/
def tget? {α : Type} (t : Tbl α) (k : Nat) : Option α :=
  match t with
  | [] => none
  | (j, x) :: t => if k = j then some x else if k < j then none else tget? t k

/-- Adds or replaces an entry of such a table. -/
def tput {α : Type} (t : Tbl α) (k : Nat) (x : α) : Tbl α :=
  match t with
  | [] => [(k, x)]
  | (j, y) :: t =>
    if k = j then (k, x) :: t else if k < j then (k, x) :: (j, y) :: t else (j, y) :: tput t k x

/-- Removes an entry of such a table. -/
def tdel {α : Type} (t : Tbl α) (k : Nat) : Tbl α := t.filter (fun e => e.1 != k)

/-! ### Bytes -/

/-- What a byte that nothing has written reads as (log 3; scratchpad: R233). -/
def unlisted : Byte := 0

/-- One byte of a memory. -/
def mget (m : Mem) (a : Nat) : Byte := tget unlisted m a
/-- One byte written. -/
def mset (m : Mem) (a : Nat) (b : Byte) : Mem := tset unlisted m a b
/-- The canonical form of a memory. -/
def Memory.wf (m : Mem) : Bool := twf unlisted m

/-- `n` bytes from address `a`, lowest first. -/
def readBytes (m : Mem) (a : Nat) : Nat → List Byte
  | 0 => []
  | n + 1 => mget m a :: readBytes m (a + 1) n

/-- Bytes written from address `a` on, lowest first. -/
def writeBytes (m : Mem) (a : Nat) : List Byte → Mem
  | [] => m
  | b :: bs => writeBytes (mset m a b) (a + 1) bs

/-- The cells that bytes from address `a` on list. -/
def cellsFrom (a : Nat) : List Byte → Mem
  | [] => []
  | b :: bs => if b = unlisted then cellsFrom (a + 1) bs else (a, b) :: cellsFrom (a + 1) bs

/-- The same as `writeBytes`, for long runs of bytes (`spliceBytes_eq`). -/
def spliceBytes (m : Mem) (a : Nat) (bs : List Byte) : Mem :=
  (m.filter fun c => c.1 < a) ++ cellsFrom a bs ++ m.filter fun c => a + bs.length ≤ c.1

/-- The little-endian number in a list of bytes (R3). -/
def bytesNat : List Byte → Nat
  | [] => 0
  | b :: bs => b.toNat + 256 * bytesNat bs

/-- The `n` low bytes of a number, little-endian (R3). -/
def natBytes : Nat → Nat → List Byte
  | 0, _ => []
  | n + 1, x => BitVec.ofNat 8 x :: natBytes n (x / 256)

/-- The number in `n` bytes at `a`. -/
def readNat (m : Mem) (a n : Nat) : Nat := bytesNat (readBytes m a n)
/-- `n` bytes of a number written at `a`. -/
def writeNat (m : Mem) (a n x : Nat) : Mem := writeBytes m a (natBytes n x)

/-- A memory with the poison bits of its words. -/
structure Bank where
  m   : Mem
  psn : Tbl Bool

/-- The 8-byte words that `n` bytes from `a` touch (R249). -/
def wordsOf (a n : Nat) : List Nat := if n = 0 then [] else List.range' (a / 8) ((a + n - 1) / 8 - a / 8 + 1)

/-- Some word touched is poisoned. -/
def anyPsn (p : Tbl Bool) (a n : Nat) : Bool := (wordsOf a n).any (fun w => tget false p w)

/-- The poison bits after `n` bytes from `a` are written with data that is poisoned or clean: only a word wholly overwritten with
clean data becomes clean (R250). -/
def psnWrite (p : Tbl Bool) (a n : Nat) (poison : Bool) : Tbl Bool :=
  (wordsOf a n).foldl (fun p w =>
    if poison then tset false p w true
    else if a ≤ 8 * w ∧ 8 * w + 8 ≤ a + n then tset false p w false else p) p

end Sys2Proof.Machine
end

