-- ==== Sys2Proof/Machine/Uses.lean ====
section
/-!
DEFINITION. What each instruction word names: its registers, its token, its role class, its mode. The limits of R86, R92, R93,
the shadows of R96 and the strict tracking of R99 and R183 are all read from here.
-/
namespace Sys2Proof

/-- A run of registers an instruction names: the first, how many, and the alignment of the first (R86, R256). -/
inductive Opnd where
  | v (n k al : Nat)
  | g (n k al : Nat)
  deriving DecidableEq, Repr

/-- The registers and predicates a word reads and writes at issue or at completion. -/
structure Uses where
  dst  : List Opnd := []
  src  : List Opnd := []
  pdst : List Nat := []
  psrc : List Nat := []
  deriving DecidableEq, Repr

/-- Opcode classes of R33. -/
inductive OpClass where
  | general | copy | network | matrix
  deriving DecidableEq, Repr

/-- Registers a type takes in v registers (R86). -/
def IntTy.regs : IntTy → Nat | .i64 | .n64 => 2 | _ => 1
def STy.regs : STy → Nat | .i64 => 2 | _ => 1
def BTy.regs : BTy → Nat | .b64 => 2 | .b32 => 1
def SarTy.regs : SarTy → Nat | .i64 => 2 | .i32 => 1
def WTy.regs : WTy → Nat | .i64 | .n64 => 2 | _ => 1
def FTy.regs : FTy → Nat | .f64 => 2 | _ => 1
def Sz.regs : Sz → Nat | .b64 => 2 | .b128 => 4 | _ => 1
def ASz.regs : ASz → Nat | .b32 => 1 | .b64 => 2 | .b128 => 4

/-- A register field as an operand of `k` 32-bit registers: an aligned run of v registers, or one g register (R86). -/
def Reg.opnd (r : Reg) (k : Nat) : Opnd :=
  match r with
  | .v n => .v n.val k k
  | .g n => .g n.val 1 1

/-- A v register or aligned run of v registers. -/
def vop (n : VReg) (k : Nat) : Opnd := .v n.val k k
/-- One g register. -/
def gop (n : GReg) : Opnd := .g n.val 1 1

def MemOpnd.uses (m : MemOpnd) : List Opnd :=
  gop m.gb :: if m.xe then [vop m.vx 1] else []
def AtOpnd.uses (m : AtOpnd) : List Opnd :=
  gop m.gb :: if m.xe then [vop m.vx 1] else []

/-- Destination of a half (R90). -/
def Half.dst : Half → VReg
  | .mov d _ | .add d _ | .sub d _ | .and d _ | .or d _ | .xor d _ | .shl d _ | .shr d _ | .sar d _ | .min d _ | .max d _
  | .fadd d _ | .fmul d _ | .fmin d _ | .fmax d _ | .hadd2 d _ | .hmul2 d _
  | .addi d _ | .shli d _ | .shri d _ | .andi d _ | .movi d _ => d

/-- The registers a half reads (R93). -/
def Half.srcs : Half → List VReg
  | .mov _ a => [a]
  | .add d a | .sub d a | .and d a | .or d a | .xor d a | .shl d a | .shr d a | .sar d a | .min d a | .max d a
  | .fadd d a | .fmul d a | .fmin d a | .fmax d a | .hadd2 d a | .hmul2 d a => [d, a]
  | .addi d _ | .shli d _ | .shri d _ | .andi d _ => [d]
  | .movi _ _ => []

/-- The half H0 of a paired word (R90). -/
def Instr.half0 : Instr → Option Half
  | .pairMov d a _ => some (.mov d a) | .pairAdd d a _ => some (.add d a) | .pairSub d a _ => some (.sub d a)
  | .pairAnd d a _ => some (.and d a) | .pairOr d a _ => some (.or d a) | .pairXor d a _ => some (.xor d a)
  | .pairShl d a _ => some (.shl d a) | .pairShr d a _ => some (.shr d a) | .pairSar d a _ => some (.sar d a)
  | .pairMin d a _ => some (.min d a) | .pairMax d a _ => some (.max d a)
  | .pairFadd d a _ => some (.fadd d a) | .pairFmul d a _ => some (.fmul d a)
  | .pairFmin d a _ => some (.fmin d a) | .pairFmax d a _ => some (.fmax d a)
  | .pairHadd2 d a _ => some (.hadd2 d a) | .pairHmul2 d a _ => some (.hmul2 d a)
  | .pairAddi d x _ => some (.addi d x) | .pairShli d n _ => some (.shli d n) | .pairShri d n _ => some (.shri d n)
  | .pairAndi d x _ => some (.andi d x) | .pairMovi d x _ => some (.movi d x)
  | _ => none

/-- The half H1 of a paired word (R90). -/
def Instr.half1 : Instr → Option Half
  | .pairMov _ _ h | .pairAdd _ _ h | .pairSub _ _ h | .pairAnd _ _ h | .pairOr _ _ h | .pairXor _ _ h
  | .pairShl _ _ h | .pairShr _ _ h | .pairSar _ _ h | .pairMin _ _ h | .pairMax _ _ h
  | .pairFadd _ _ h | .pairFmul _ _ h | .pairFmin _ _ h | .pairFmax _ _ h | .pairHadd2 _ _ h | .pairHmul2 _ _ h
  | .pairAddi _ _ h | .pairShli _ _ h | .pairShri _ _ h | .pairAndi _ _ h | .pairMovi _ _ h => some h
  | _ => none

/-- The paired word with halves `h0` and `h1` (R84, R90). -/
def Instr.pair (h0 h1 : Half) : Instr :=
  match h0 with
  | .mov d a => .pairMov d a h1 | .add d a => .pairAdd d a h1 | .sub d a => .pairSub d a h1
  | .and d a => .pairAnd d a h1 | .or d a => .pairOr d a h1 | .xor d a => .pairXor d a h1
  | .shl d a => .pairShl d a h1 | .shr d a => .pairShr d a h1 | .sar d a => .pairSar d a h1
  | .min d a => .pairMin d a h1 | .max d a => .pairMax d a h1
  | .fadd d a => .pairFadd d a h1 | .fmul d a => .pairFmul d a h1
  | .fmin d a => .pairFmin d a h1 | .fmax d a => .pairFmax d a h1
  | .hadd2 d a => .pairHadd2 d a h1 | .hmul2 d a => .pairHmul2 d a h1
  | .addi d x => .pairAddi d x h1 | .shli d n => .pairShli d n h1 | .shri d n => .pairShri d n h1
  | .andi d x => .pairAndi d x h1 | .movi d x => .pairMovi d x h1

/-- The guard of a word; a word that has none acts in every active lane (R88, R93). -/
def Instr.guard : Instr → Guard
  | .add g .. | .sub g .. | .mul g .. | .mulh g .. | .mad g .. | .madw g .. | .min g .. | .max g .. | .abs g .. | .neg g ..
  | .and g .. | .or g .. | .xor g .. | .andn g .. | .not g .. | .shl g .. | .shr g .. | .sar g .. | .rot g .. | .bfe g ..
  | .bfi g .. | .pop g .. | .clz g .. | .brev g .. | .sel g .. | .mov g .. | .cmp g .. | .plog g .. | .lea g ..
  | .shfl g .. | .vote g .. | .redl g .. | .addi g .. | .andi g .. | .ori g .. | .xori g .. | .movi g .. | .cmpi g ..
  | .muli g .. | .leai g .. | .fadd g .. | .fsub g .. | .fmul g .. | .fma g .. | .fmin g .. | .fmax g .. | .fcmp g ..
  | .frcp g .. | .frsq g .. | .fsqrt g .. | .fexp2 g .. | .flog2 g .. | .fsin g .. | .fcos g .. | .fdiv g .. | .fcvt g ..
  | .icvt g .. | .ficvt g .. | .qcvt g .. | .qexp g .. | .fscl g .. | .frnd g .. | .fclass g .. | .hadd2 g .. | .hmul2 g ..
  | .hfma2 g .. | .hmin2 g .. | .hmax2 g .. | .fdot4 g .. | .scvt g .. | .fmovi g .. | .faddi g .. | .fmuli g ..
  | .bra g .. | .jmp g .. | .call g .. | .callr g .. | .ret g .. | .exit g | .trap g .. | .tmask g .. | .csrr g ..
  | .csrw g .. | .sysc g .. | .brk g .. | .waitt g .. | .tkst g .. | .barinit g .. | .bararv g .. | .barxb g ..
  | .barwait g .. | .bartest g .. | .barinv g .. | .cntrd g .. | .cntctl g .. | .genrd g .. | .lyset g .. | .lyget g ..
  | .tplset g .. | .tplget g .. | .tlbinv g .. | .fgset g .. | .hdlset g .. | .ld g .. | .st g .. | .lds g .. | .sts g ..
  | .ldc g .. | .prf g .. | .acp g .. | .atom g .. | .red g .. | .atoms g .. | .fence g .. | .iflush g .. | .isync g
  | .cwb g .. | .pinit g .. | .pfill g .. | .pwait g .. | .pequ g .. | .ptest g .. | .ldl g .. | .stl g .. | .mma g ..
  | .mmaz g .. | .accz g .. | .accld g .. | .accst g .. | .accmvGet g .. | .accmvPut g .. | .accmvStat g ..
  | .accmvCopy g .. | .accsc g .. | .mtest g .. | .rgacqInit g .. | .rgacq g .. | .rgcmt g .. | .rgtake g .. | .rgrel g ..
  | .bcopy g .. | .qfence g .. | .amsg g .. | .nsend g .. | .nrecv g .. | .fput g .. | .fget g .. | .fcopy g ..
  | .fmrs g .. | .fmrl g .. | .nprobe g .. => g
  | _ => .always

/-- The token a word counts on, if it counts on one (R87, R97). -/
def Instr.token : Instr → Option Tok
  | .frcp _ _ _ tk .. | .frsq _ _ _ tk .. | .fsqrt _ _ _ tk .. | .fexp2 _ _ _ tk .. | .flog2 _ _ _ tk .. | .fsin _ _ _ tk ..
  | .fcos _ _ _ tk .. | .fdiv _ _ _ tk .. | .sysc _ tk .. | .ld _ tk .. | .lds _ tk .. | .ldc _ tk .. | .atom _ tk ..
  | .atoms _ tk .. | .cwb _ tk .. | .pinit _ tk .. | .pfill _ tk .. | .pwait _ tk .. | .pequ _ tk .. | .ptest _ tk ..
  | .ldl _ tk .. | .mma _ tk .. | .mmaz _ tk .. | .accz _ tk .. | .accld _ tk .. | .accst _ tk .. | .accmvGet _ tk ..
  | .accmvPut _ tk .. | .accmvStat _ tk .. | .accmvCopy _ tk .. | .accsc _ tk .. | .mtest _ tk .. | .bcopy _ tk ..
  | .amsg _ tk .. | .nsend _ tk .. | .nrecv _ tk .. | .fput _ tk .. | .fget _ tk .. | .fcopy _ tk .. | .fmrs _ tk ..
  | .fmrl _ tk .. | .nprobe _ tk .. => some tk
  | .barwait _ _ _ tk | .st _ tk .. | .sts _ tk .. | .acp _ tk .. | .red _ tk .. | .stl _ tk .. => tk
  | _ => none

/-- The role class of a word (R33). -/
def Instr.opClass : Instr → OpClass
  | .mma .. | .mmaz .. | .accz .. | .accld .. | .accst .. | .accmvGet .. | .accmvPut .. | .accmvStat .. | .accmvCopy ..
  | .accsc .. | .mtest .. => .matrix
  | .acp .. | .ldl .. | .stl .. | .bcopy .. => .copy
  | .amsg .. | .nsend .. | .nrecv .. | .fput .. | .fget .. | .fcopy .. | .fmrs .. | .fmrl .. | .nprobe .. => .network
  | _ => .general

/-- The kernel-mode instructions (R89). -/
def Instr.kernelMode : Instr → Bool
  | .cntctl .. | .tlbinv .. | .fgset .. | .hdlset .. | .mtest .. => true
  | _ => false

def Half.uses (h : Half) : Uses :=
  { dst := [vop h.dst 1], src := h.srcs.map (vop · 1) }

/-- D, A and B of one width (R125, R143). -/
def uDAB (k : Nat) (d a b : Reg) : Uses := { dst := [d.opnd k], src := [a.opnd k, b.opnd k] }
/-- D and A of widths `kd` and `ka`. -/
def uDA (kd ka : Nat) (d a : Reg) : Uses := { dst := [d.opnd kd], src := [a.opnd ka] }
/-- A token-class unary word (R143). -/
def uTokDA (k : Nat) (d : VReg) (a : Reg) : Uses := { dst := [vop d k], src := [a.opnd k] }
/-- The consecutive g registers of a network word (R375). -/
def uNet (gx : GReg) (k : Nat) : Uses := { src := [.g gx.val k 1] }
/-- The operands of `mma` and `mmaz` (R293). -/
def uMma (gca gcb gf gk : GReg) : Uses := { src := [.g gca.val 2 1, .g gcb.val 2 1, gop gf, gop gk] }

/-- The registers of a word, its guard predicate apart. -/
def Instr.body : Instr → Uses
  | .add _ t _ d a b | .sub _ t _ d a b => uDAB t.regs d a b
  | .mul _ t d a b | .mulh _ t d a b | .min _ t d a b | .max _ t d a b => uDAB t.regs d a b
  | .mad _ t d a b c => { dst := [d.opnd t.regs], src := [a.opnd t.regs, b.opnd t.regs, vop c t.regs] }
  | .madw _ _ d a b c => { dst := [d.opnd 2], src := [a.opnd 1, b.opnd 1, vop c 2] }
  | .abs _ t _ d a | .neg _ t _ d a => uDA t.regs t.regs d a
  | .and _ t d a b | .or _ t d a b | .xor _ t d a b | .andn _ t d a b => uDAB t.regs d a b
  | .not _ t d a | .pop _ t d a | .clz _ t d a | .brev _ t d a | .mov _ t d a => uDA t.regs t.regs d a
  | .shl _ t d a b | .shr _ t d a b | .rot _ t d a b => { dst := [d.opnd t.regs], src := [a.opnd t.regs, b.opnd 1] }
  | .sar _ t d a b => { dst := [d.opnd t.regs], src := [a.opnd t.regs, b.opnd 1] }
  | .bfe _ t d a b => { dst := [d.opnd t.regs], src := [a.opnd t.regs, b.opnd 1] }
  | .bfi _ t d a b c => { dst := [d.opnd t.regs], src := [a.opnd t.regs, b.opnd 1, vop c t.regs] }
  | .sel _ t d a b p _ => { dst := [d.opnd t.regs], src := [a.opnd t.regs, b.opnd t.regs], psrc := [p.val] }
  | .cmp _ t _ d a b => { pdst := [d.val], src := [a.opnd t.regs, b.opnd t.regs] }
  | .plog _ d a b c _ => { pdst := [d.val], psrc := [a.val, b.val, c.val] }
  | .lea _ t d a b _ => { dst := [d.opnd 2], src := [a.opnd 2, b.opnd t.regs] }
  | .shfl _ t _ _ d a b c => { dst := [vop d t.regs], src := [vop a t.regs, b.opnd 1, gop c] }
  | .vote _ (.pred _ d) a c => { pdst := [d.val], psrc := [a.val], src := [gop c] }
  | .vote _ (.reg _ d) a c => { dst := [d.opnd 1], psrc := [a.val], src := [gop c] }
  | .redl _ op _ d a c =>
      let k := match op with | .add t | .min t | .max t => t.regs | .and t | .or t | .xor t => t.regs
      { dst := [d.opnd k], src := [a.opnd k, gop c] }
  | .addi _ d a _ | .andi _ d a _ | .ori _ d a _ | .xori _ d a _ | .muli _ d a _ | .leai _ d a _ _ => uDA 1 1 d a
  | .movi _ d _ | .fmovi _ d _ => { dst := [d.opnd 1] }
  | .cmpi _ _ _ d a _ => { pdst := [d.val], src := [a.opnd 1] }
  | .fadd _ t _ d a b | .fsub _ t _ d a b | .fmul _ t _ d a b => uDAB t.regs d a b
  | .fma _ t _ d a b c => { dst := [d.opnd t.regs], src := [a.opnd t.regs, b.opnd t.regs, vop c t.regs] }
  | .fmin _ t d a b | .fmax _ t d a b => uDAB t.regs d a b
  | .fcmp _ t _ d a b => { pdst := [d.val], src := [a.opnd t.regs, b.opnd t.regs] }
  | .frcp _ t _ _ d a | .frsq _ t _ _ d a | .fsqrt _ t _ _ d a => uTokDA t.regs d a
  | .fexp2 _ _ _ _ d a | .flog2 _ _ _ _ d a | .fsin _ _ _ _ d a | .fcos _ _ _ _ d a => uTokDA 1 d a
  | .fdiv _ t _ _ d a b => { dst := [vop d t.regs], src := [a.opnd t.regs, b.opnd t.regs] }
  | .fcvt _ t s _ d a => uDA t.regs s.regs d a
  | .icvt _ t s _ d a => uDA t.regs s.regs d a
  | .ficvt _ t s _ d a => uDA t.regs s.regs d a
  | .qcvt _ _ _ _ d a _ => { dst := [vop d 1], src := [a.opnd 1, vop d 1] }
  | .qexp _ _ _ d a _ => uDA 1 1 d a
  | .fscl _ t _ d a b => { dst := [d.opnd t.regs], src := [a.opnd t.regs, b.opnd 1] }
  | .frnd _ t _ d a => uDA t.regs t.regs d a
  | .fclass _ s d a => uDA 1 s.regs d a
  | .hadd2 _ _ _ d a b | .hmul2 _ _ _ d a b => uDAB 1 d a b
  | .hmin2 _ _ d a b | .hmax2 _ _ d a b => uDAB 1 d a b
  | .hfma2 _ _ _ d a b c | .fdot4 _ _ _ _ d a b c => { dst := [d.opnd 1], src := [a.opnd 1, b.opnd 1, vop c 1] }
  | .scvt _ _ d a | .faddi _ d a _ | .fmuli _ d a _ => uDA 1 1 d a
  | .jmp _ a | .bsync a => { src := [gop a] }
  | .call _ d _ _ => { dst := [.g d.val 2 2] }
  | .callr _ d a _ => { dst := [.g d.val 2 2], src := [gop a] }
  | .ret _ a => { src := [.g a.val 2 2] }
  | .csrr _ t d _ | .cntrd _ t d _ => { dst := [d.opnd t.regs] }
  | .csrw _ t _ a => { src := [a.opnd t.regs] }
  | .sysc _ _ d a na nr _ => { dst := [.v d.val nr.val 1], src := [.v a.val na.val 1] }
  | .tkst _ _ _ d => { dst := [gop d] }
  | .bararv _ _ a | .barxb _ _ a | .lyset _ _ (.field _) a | .tplset _ _ (.field _) a | .fgset _ _ a => { src := [gop a] }
  | .barwait _ _ d _ | .bartest _ _ d | .lyget _ d _ _ | .tplget _ d _ _ => { dst := [gop d] }
  | .cntctl _ a b _ | .hdlset _ a b | .tlbinv _ (.page a b) _ | .iflush _ a b => { src := [gop a, gop b] }
  | .tlbinv _ (.space b) _ => { src := [gop b] }
  | .genrd _ d => { dst := [d.opnd 1] }
  | .ld _ _ d m z _ | .lds _ _ d m z _ _ => { dst := [vop d z.regs], src := m.uses }
  | .st _ _ d m z _ | .sts _ _ d m z _ _ => { src := vop d z.regs :: m.uses }
  | .ldc _ _ d gb _ _ => { dst := [gop d], src := [gop gb] }
  | .prf _ _ m => { src := m.uses }
  | .acp _ _ d m _ _ => { src := vop d 1 :: m.uses }
  | .atom _ _ d m va op z _ | .atoms _ _ d m va op z _ _ =>
      { dst := [vop d z.regs],
        src := m.uses ++ [vop va z.regs] ++ if op = .cas then [vop d z.regs] else [] }
  | .red _ _ m va _ z _ => { src := m.uses ++ [vop va z.regs] }
  | .cwb _ _ gb gl _ => { src := [gop gb, gop gl] }
  | .pinit _ _ ga _ => { src := [gop ga] }
  | .pfill _ _ ga gv _ | .pequ _ _ ga gv => { src := [gop ga, gop gv] }
  | .pwait _ _ d ga _ => { dst := [gop d], src := [gop ga] }
  | .ptest _ _ d ga _ => { dst := [.g d.val 2 2], src := [gop ga] }
  | .ldl _ _ d o => { dst := [.v d.val (o.nr.val + 1) 1], src := [.g o.gc.val (o.nc.val + 1) 1] }
  | .stl _ _ d o => { src := [.v d.val (o.nr.val + 1) 1, .g o.gc.val (o.nc.val + 1) 1] }
  | .mma _ _ _ _ gca _ gcb gf gk | .mmaz _ _ _ _ gca _ gcb gf gk => uMma gca gcb gf gk
  | .accld _ _ _ _ gc _ | .accst _ _ _ _ gc _ => { src := [.g gc.val 2 1] }
  | .accmvGet _ _ _ x gr => { dst := [vop x 2], src := [gop gr] }
  | .accmvPut _ _ _ x gr => { src := [vop x 2, gop gr] }
  | .accmvStat _ _ _ x _ _ | .mtest _ _ x => { dst := [gop x] }
  | .accsc _ _ _ gs _ => { src := [gop gs] }
  | .rgacqInit _ _ ga | .rgcmt _ _ _ ga | .rgrel _ _ _ ga => { src := [gop ga] }
  | .rgacq _ d _ | .rgtake _ d _ => { dst := [gop d] }
  | .bcopy _ _ _ gs gd nc => { src := [.g gs.val (nc.val + 1) 1, .g gd.val (nc.val + 1) 1] }
  | .amsg _ _ gx nb => uNet gx (1 + (nb.toNat + 7) / 8)
  | .nsend _ _ gx => uNet gx 3
  | .nrecv _ _ gx | .fput _ _ gx | .fget _ _ gx | .fcopy _ _ gx | .fmrs _ _ gx | .fmrl _ _ gx => uNet gx 4
  | .nprobe _ _ gx => uNet gx 2
  | i =>
    match i.half0, i.half1 with
    | some h0, some h1 => { dst := h0.uses.dst ++ h1.uses.dst, src := h0.uses.src ++ h1.uses.src }
    | _, _ => {}

/-- The registers of a word with its guard predicate (R88); p7 is no register (R109). -/
def Instr.uses (i : Instr) : Uses :=
  let u := i.body
  { u with psrc := (i.guard.pred.val :: u.psrc).filter (· != 7) }

/-- A run of registers lies in its file and is aligned (R86, R92 step 4, R256). -/
def Opnd.wf : Opnd → Bool
  | .v n k al => n % al == 0 && n + k ≤ 256
  | .g n k al => n % al == 0 && n + k ≤ 64

/-- A run of registers lies below the launch's v register count (R92 step 4). -/
def Opnd.below (lim : Nat) : Opnd → Bool
  | .v n k _ => k == 0 || n + k ≤ lim
  | .g .. => true

/-- How many times the registers of `rs` lie in bank `b` (R93). -/
def bankCount (b : Nat) (rs : List VReg) : Nat := (rs.filter (fun r => r.val % 4 == b)).length

/-- The pairing rules of R93. -/
def pairOk (h0 h1 : Half) : Bool :=
  h0.dst.val % 4 != h1.dst.val % 4 &&
  (List.range 4).all (fun b => bankCount b (h0.srcs ++ h1.srcs) ≤ 2)

/-- The highest position a `qcvt` or `qexp` field may have, plus 1 (R152). -/
def NFmt.fields : NFmt → Nat
  | .e2m1 | .qi4 | .qn4 => 8
  | _ => 4

/-- The limits between fields that the operand types do not express (R92 step 4, and each word's own rule). -/
def Instr.fieldsOk : Instr → Bool
  | .add gd t sat d a b =>       -- R92 step 1, R125: the all-zero word is no `add`
      !(gd == ⟨false, 0⟩ && t == .i8 && !sat && d == .v 0 && a == .v 0 && b == .v 0)
  | .redl _ _ scan d _ _ => !scan || match d with | .v _ => true | .g _ => false   -- R137
  | .fcvt _ t s _ _ _ => t != s                                                     -- R143
  | .qcvt _ s f sat _ _ pos => pos.val < f.fields && (f != .dpt8 || s == .f32) && (!sat || f == .e5m2)   -- R152
  | .qexp _ _ (.narrow f) _ _ pos => pos.val < f.fields                             -- R153
  | .qexp _ _ .s10 _ _ pos => pos.val < 2                                           -- R153
  | .dly n => n.val != 0                                                            -- R95
  | .atom _ _ _ _ _ op z _ | .atoms _ _ _ _ _ op z _ _ => z != .b128 || op == .cas -- R263
  | .red _ _ _ _ op z _ => op != .cas && z != .b128                                 -- R263
  | .qfence _ c m n => c || m || n                                                  -- R374
  | i =>
    match i.half0, i.half1 with
    | some h0, some h1 => pairOk h0 h1
    | _, _ => true

/-- How many tiles a truss must hold for the word's tile numbers (R109, R293, R301, R302, R303). -/
def Instr.tiles : Instr → Nat
  | .mma _ _ acc .. | .mmaz _ _ acc .. | .accmvGet _ _ acc .. | .accmvPut _ _ acc .. | .accmvStat _ _ acc ..
  | .accsc _ _ acc .. => acc.val + 1
  | .accz _ _ acc n1 => acc.val + n1.val + 1
  | .accld _ _ acc _ _ tt | .accst _ _ acc _ _ tt => if tt = .f64 then acc.val + 2 else acc.val + 1
  | .accmvCopy _ _ acc x _ => Nat.max acc.val x.val + 1
  | _ => 0

/-- The steps that are instruction words of a course; the others are the device's own steps. -/
def Instr.isWord : Instr → Bool
  | .tokenCompletion .. | .dlyExpiry .. | .yieldExpiry .. | .regionGuardWaitExpiry .. | .asyncTrapTaken .. | .debugRequest ..
  | .eventCounterOverflow .. | .meterAccumulate .. | .matrixEntryStart .. | .matrixEntryComplete .. | .selfTestProduct ..
  | .copyEntryExecute .. | .ringEntryEffect .. | .networkEntryStart .. | .serviceRecordTake .. | .amsgArrival ..
  | .handlerSpawn .. | .launchAdmission | .courseRetire .. | .launchComplete .. | .quarantineRelease .. | .strikeReport ..
  | .regionRollback .. | .pwaitRepeat .. | .partialEviction .. | .fullEviction .. | .courseUnpark .. | .trussRestore ..
  | .sliceBoundary .. | .homeSliceAccess .. | .lineHandover .. | .pageIn .. | .pageOut .. | .counterManagedMove ..
  | .stage1FaultRecord .. | .stage2FaultEvent .. | .eccCorrected .. | .eccUncorrectable .. | .courseKill .. | .killDrain ..
  | .drainTimeout .. | .killDump | .killRelease | .coreRetire .. | .columnRetire .. | .kickWrite .. | .submissionWrite ..
  | .packetFetch .. | .packetNop .. | .packetLaunch .. | .packetWaitPromise .. | .packetWaitMemory .. | .waitPoll ..
  | .packetSignalFill .. | .packetSignalStore .. | .packetSignalInterrupt .. | .packetCond .. | .packetCopy ..
  | .packetFence .. | .packetRetire .. | .retireReport .. | .queueSchedulerPass | .queueUnmap .. | .heartbeatMiss ..
  | .fallbackVisit .. | .create .. | .destroy .. | .setweight .. | .defset .. | .setset .. | .setmode .. | .mapvec ..
  | .map2 .. | .unmap2 .. | .abort2 .. | .meters .. | .qcreate .. | .qrestart .. | .resetCourse .. | .resetTruss ..
  | .resetVirtualDevice .. | .resetEngine .. | .resetSliceColumn .. | .resetOpticalLink .. | .dumpack .. | .columnOn ..
  | .columnOff .. | .s1rootWrite .. | .fltbaseWrite .. | .fltresReplay .. | .fltresAbort .. | .route .. | .epset ..
  | .gset .. | .gclr .. | .quiesce .. | .relock .. | .bootctlRetry .. | .bootctlAttest | .pwrlimWrite ..
  | .registerWrite .. | .powerOn .. | .powerThrottle .. | .thermalTrip | .lightDetect .. | .trainingPhaseTimeout ..
  | .linkRetryTimer .. | .flitReceive .. | .ctrlFlitReceive .. | .drainFlitReceive .. | .ackTimer .. | .resendTimeout ..
  | .resendLimit .. | .lossOfLight .. | .laserRelight .. | .quiesceTimeout .. | .put .. | .getreq .. | .getdata ..
  | .msg .. | .contrib .. | .lreq .. | .ldata .. | .done .. | .absent .. | .firmwareRunningAgain .. | .wavelengthLock ..
  | .hostMemoryWrite .. | .hostAtomicop .. | .modulePowerOff => false
  | _ => true

end Sys2Proof
end

