-- ==== Sys2Proof/Machine/Course.lean ====
section
/-!
DEFINITION. The registers of one course: lanes and guards, results with their shadows, strict tracking, positions (02 R41, 04 R88,
R94 to R99, 09 R183).
-/
namespace Sys2Proof.Machine

/-- Element `i` of a vector; `d` beyond its end. -/
def vat {α : Type} {n : Nat} (xs : Vector α n) (i : Nat) (d : α) : α := if h : i < n then xs[i] else d
/-- The vector with element `i` set. -/
def vput {α : Type} {n : Nat} (xs : Vector α n) (i : Nat) (x : α) : Vector α n := if h : i < n then xs.set i x else xs

/-- The bits below `n` at which `f` holds. -/
def maskOf (n : Nat) (f : Nat → Bool) : Nat := (List.range n).foldl (fun m l => if f l then m + 2 ^ l else m) 0

/-- The lowest-numbered lane of a mask; 32 when it is empty. -/
def lowestLane (m : LaneMask) : Nat := ((List.range 32).find? (fun l => m.getLsbD l)).getD 32

/-- The lanes of a mask in ascending order. -/
def lanesIn (m : LaneMask) : List Nat := (List.range 32).filter (fun l => m.getLsbD l)

/-- How many lanes a mask holds. -/
def laneCount (m : LaneMask) : Nat := (lanesIn m).length

/-! ### Reading -/

/-- A v register in one lane. -/
def Course.vget (k : Course) (n lane : Nat) : W32 := vat (vat k.v n (Vector.replicate 32 0)) lane 0
/-- A g register. -/
def Course.gget (k : Course) (n : Nat) : W64 := vat k.g n 0
/-- A predicate in every lane; p7 is true (R109). -/
def Course.pget (k : Course) (n : Nat) : LaneMask := vat k.p n 0xFFFFFFFF

/-- The 32-bit value of a register field in a lane (R86). -/
def Course.src32 (k : Course) (a : Reg) (lane : Nat) : W32 :=
  match a with
  | .v n => k.vget n lane
  | .g n => (k.gget n).truncate 32

/-- The 64-bit value of a v pair in a lane (R86). -/
def Course.vpair (k : Course) (n lane : Nat) : W64 := k.vget (n + 1) lane ++ k.vget n lane

/-- The 64-bit value of a register field in a lane: a v pair or a g register whole (R86). -/
def Course.src64 (k : Course) (a : Reg) (lane : Nat) : W64 :=
  match a with
  | .v n => k.vpair n lane
  | .g n => k.gget n

/-- A source of `regs` 32-bit registers, zero-extended to 64 bits (R86). -/
def Course.src (k : Course) (regs : Nat) (a : Reg) (lane : Nat) : W64 :=
  if regs = 2 then k.src64 a lane else (k.src32 a lane).zeroExtend 64

/-- The lanes in which a guard is true (R88). -/
def Course.guardMask (k : Course) (g : Guard) : LaneMask :=
  if g.neg then ~~~ k.pget g.pred else k.pget g.pred

/-- The executing lanes: active lanes whose guard is true (R44, R122). -/
def Course.exec (k : Course) (g : Guard) : LaneMask := k.lanes &&& k.guardMask g

/-- The guard in the lowest-numbered active lane, as uniform words read it (R41, R88). -/
def Course.uniform (k : Course) (g : Guard) : Bool :=
  lowestLane k.lanes < 32 && (k.guardMask g).getLsbD (lowestLane k.lanes)

/-! ### Register values -/

/-- A number for each register: v below 256, then g, then p. -/
def RegVal.name : RegVal → Nat
  | .v n .. => n
  | .g n _ => 256 + n
  | .p n .. => 320 + n

/-- The lanes in which it counts. -/
def RegVal.lanes : RegVal → LaneMask
  | .v _ m _ => m
  | .g .. => 0xFFFFFFFF
  | .p _ m _ => m

/-- The registers of an operand, by number. -/
def Opnd.names : Opnd → List Nat
  | .v n k _ => List.range' n k
  | .g n k _ => (List.range' n k).map (256 + ·)

/-- Writes a register value in those of its lanes that `ch` chooses; a g register is written whole when `ch 0` holds. -/
def Course.blend (k : Course) (ch : Nat → Bool) (w : RegVal) : Course :=
  match w with
  | .v n m x =>
    { k with v := k.v.set n (Vector.ofFn fun l => if m.getLsbD l && ch l then x[l] else (k.v[n])[l]) }
  | .g n x => if ch 0 then { k with g := k.g.set n x } else k
  | .p n m x =>
    { k with p := k.p.set n (BitVec.ofNat 32 (maskOf 32 fun l =>
        if m.getLsbD l && ch l then x.getLsbD l else (k.p[n]).getLsbD l)) }

/-- Writes a register value in all its lanes. -/
def Course.put (k : Course) (w : RegVal) : Course := k.blend (fun _ => true) w

/-- What the course holds in the register and lanes of `w`. -/
def Course.current (k : Course) (w : RegVal) : RegVal :=
  match w with
  | .v n m _ => .v n m k.v[n]
  | .g n _ => .g n k.g[n]
  | .p n m _ => .p n m k.p[n]

/-- Two values of one register that share a lane. -/
def RegVal.meets (a b : RegVal) : Bool := a.name == b.name && (a.lanes &&& b.lanes) != 0

/-- An operation has completed, and its count has not fallen (R179). -/
def TokOp.done (o : TokOp) : Bool := o.wait == .nothing

/-- A completed operation whose count has not fallen has results that a read may meet: it ended in no fault, and what it read holds no
poison (R183, R250, R255). -/
def TokOp.lands (o : TokOp) : Bool := o.done && !o.fallen && o.fault.isNone && !o.poison

/-- The course as a word reads it: a register in an open shadow, or the destination of a completed operation whose count has not
fallen, is seen with its old or its new value, per lane (R96, R183; the choice is a free value, log 2). -/
def Course.seen (k : Course) (tick : Nat) : Course :=
  let k := (k.ops.filter TokOp.lands).foldl
    (fun k o => o.writes.foldl (fun k w => k.blend (fun l => Config.pick tick (2048 * (o.id + 1) + w.name) l) w) k) k
  k.shadows.zipIdx.foldr (fun x k => k.blend (fun l => Config.pick tick (1024 * (2 * x.2 + 1) + x.1.old.name) l) x.1.old) k

/-! ### Writing -/

/-- Marks outstanding operations whose destination `w` writes too (R124). -/
def markClash (w : RegVal) (ops : List TokOp) : List TokOp :=
  ops.map fun o => if !o.fallen && o.writes.any w.meets then { o with clash := w :: o.clash } else o

/-- A lane of `w` lies in an open shadow of its register. -/
def Course.shadowed (k : Course) (w : RegVal) (l : Nat) : Bool :=
  k.shadows.any fun sh => sh.old.name == w.name && match w with | .g .. => true | _ => sh.old.lanes.getLsbD l

/-- The poisoned words of registers after a write: a word wholly overwritten is clean (R250). -/
def clearWords (w : RegVal) (ws : List (Nat × Nat)) : List (Nat × Nat) :=
  ws.filter fun x => !(x.1 == w.name && match w with
    | .v _ m _ => m.getLsbD (2 * x.2) && m.getLsbD (2 * x.2 + 1)
    | .g .. => true
    | .p _ m _ => m == 0xFFFFFFFF)

/-- A shadow from position `till` on, where the result `w` of a later word becomes visible before the shadow ends: in the lanes of `w` the
register is then no longer as it was before both, but holds one of the two results (R95, R96). -/
def Shadow.cut (sh : Shadow) (w : RegVal) (till : Nat) : List Shadow :=
  if !sh.old.meets w || sh.till ≤ till then [sh]
  else
    let both := sh.old.lanes &&& w.lanes
    let rest := sh.old.lanes &&& ~~~ w.lanes
    match sh.old, w with
    | .v n _ x, .v m _ y =>
      (if rest = 0 then [] else [{ sh with old := .v n rest x }]) ++ [{ sh with old := .v n both x, till := till }, { sh with old := .v m both y }]
    | .p n _ x, .p m _ y =>
      (if rest = 0 then [] else [{ sh with old := .p n rest x }]) ++ [{ sh with old := .p n both x, till := till }, { sh with old := .p m both y }]
    | _, _ => [{ sh with till := till }, { sh with old := w }]

/-- A result of latency class `L`: visible from position q + L. Inside the shadow of an earlier result the register ends holding
either value, per lane (R95, R96; log 2). -/
def Course.land (k : Course) (tick L : Nat) (w : RegVal) : Course :=
  let k' := k.blend (fun l => !k.shadowed w l || Config.pick tick (1024 * 1024 + w.name) l) w
  { k' with shadows := (k.shadows.map fun sh => sh.cut w (k.pos + L)).flatten ++ [⟨k.current w, k.pos + L, k.strict⟩],
            ops := markClash w k.ops, psn := clearWords w k.psn }

/-- A write of a g register with no shadow: every later word sees it, whatever result was under way in it (R163). -/
def Course.putNow (k : Course) (n : GReg) (y : W64) : Course :=
  let w := RegVal.g n y
  { k.put w with shadows := k.shadows.filter (fun sh => sh.old.name != w.name), ops := markClash w k.ops,
                 psn := clearWords w k.psn }

/-- The lane values of `f`. -/
def laneVec (f : Nat → W32) : LaneVec := Vector.ofFn fun l => f l

/-- The results of a word: in the executing lanes of a v register or pair, or once in a g register. `f` gives each lane's 64-bit
result, already extended (R41, R86, R122). -/
def resultVals (regs : Nat) (d : Reg) (ex : LaneMask) (f : Nat → W64) : List RegVal :=
  match d with
  | .v n =>
    let lo := RegVal.v n ex (laneVec fun l => (f l).truncate 32)
    if regs = 2 then [lo, .v (n + 1) ex (laneVec fun l => ((f l) >>> 32).truncate 32)] else [lo]
  | .g n => [.g n (f (lowestLane ex))]

/-- The executing set of a word with destination `d`: for a g register, the lowest-numbered active lane when its guard is true
(R41, R122). -/
def Course.execFor (k : Course) (g : Guard) (d : Reg) : LaneMask :=
  match d with
  | .v _ => k.exec g
  | .g _ => if k.uniform g then BitVec.ofNat 32 (2 ^ lowestLane k.lanes) else 0

/-- Results landed with one latency; nothing when no lane executes. -/
def Course.landAll (k : Course) (tick L : Nat) (ex : LaneMask) (ws : List RegVal) : Course :=
  if ex = 0 then k else ws.foldl (fun k w => k.land tick L w) k

/-- Flags that reach FSTAT at position q + L (R112). -/
def Course.raise (k : Course) (L : Nat) (fl : BitVec 5) : Course :=
  if fl = 0 then k else { k with flagShadows := k.flagShadows ++ [⟨fl, k.pos + L⟩] }

/-- Every shadow closes (R98). -/
def Course.closeShadows (k : Course) : Course :=
  { k with shadows := [], fstat := k.flagShadows.foldl (fun f sh => f ||| sh.flags) k.fstat, flagShadows := [] }

/-- The course after a word that adds `n` to the position (R95): shadows that end are dropped, flags that become visible join
FSTAT; the word counts in its quadrant (R441). -/
def Course.moved (k : Course) (clk core n : Nat) : Course :=
  { k with pos := k.pos + n, lastIssue := clk, stalled := false,
           recent := (clk, 4 * core + k.slot / 16) :: k.recent.filter (fun x => clk ≤ x.1 + Config.strikeWindow),
           shadows := k.shadows.filter (fun sh => k.pos + n < sh.till),
           fstat := (k.flagShadows.filter (fun sh => sh.till ≤ k.pos + n)).foldl (fun f sh => f ||| sh.flags) k.fstat,
           flagShadows := k.flagShadows.filter (fun sh => k.pos + n < sh.till) }

/-! ### Strict tracking -/

/-- Registers under strict tracking: in open shadows, and destinations of uncovered operations (R99, R183). -/
def Course.tracked (k : Course) : List Nat :=
  (k.shadows.filter (·.strict)).map (·.old.name) ++
  ((k.ops.filter (·.strict)).map (·.dests)).flatten

/-- The registers a word reads. -/
def readNames (i : Instr) : List Nat := (i.uses.src.map Opnd.names).flatten ++ i.uses.psrc.map (320 + ·)
/-- The registers a word writes. -/
def writeNames (i : Instr) : List Nat := (i.uses.dst.map Opnd.names).flatten ++ i.uses.pdst.map (320 + ·)

/-- The fault of strict tracking: UNDERWAIT for a read, then UNDERWRITE for a write (R99, R183). DEDUCED (log 42): a word reads and
writes the registers it names, whatever its guard and its lanes. -/
def Course.strictFault (k : Course) (i : Instr) : Option Nat :=
  if !k.strict then none
  else
    let ts := k.tracked
    if (readNames i).any (ts.contains ·) then some 0x09
    else if (writeNames i).any (ts.contains ·) then some 0x0A
    else none

/-! ### Tokens -/

/-- The count of a token. -/
def Course.count (k : Course) (tk : Tok) : Nat := (k.tok[tk]).count.toNat

/-- A word that counts on a token: its operation is outstanding (R178). `ws` names its destinations; matrix-class operations and
acquires are marked, and flags that are known. -/
def Course.issueOp (k : Course) (tk : Tok) (wait : OpWait) (ws : List RegVal) (mat : Bool := false) (acq : Bool := false)
    (inval : Bool := false) (flags : BitVec 5 := 0) (dests : List Nat := ws.map RegVal.name) : Course :=
  let clash := (k.shadows.map (·.old)).filter (fun o => ws.any o.meets) ++
    ((k.ops.filter (fun o => !o.fallen)).map (·.writes)).flatten.filter (fun o => ws.any o.meets)
  let op : TokOp :=
    { id := k.nextOp, tk := tk, wait := wait, writes := ws, dests := dests, flags := flags, status := 0, fault := none, fallen := false,
      strict := k.strict, clash := clash, poison := false, inRegion := k.rgstate.getLsbD 63, acq := acq,
      inval := inval, mat := mat }
  { k with tok := k.tok.set tk { k.tok[tk] with count := k.tok[tk].count + 1 },
           ops := ws.foldl (fun os w => markClash w os) k.ops ++ [op], nextOp := k.nextOp + 1 }

/-- Changes operation `id`. -/
def Course.modOp (k : Course) (id : Nat) (f : TokOp → TokOp) : Course :=
  { k with ops := k.ops.map fun o => if o.id = id then f o else o }

/-- Operation `id` has completed with a status; an operation that is already complete keeps what it has. -/
def Course.completeOp (k : Course) (id : Nat) (status : BitVec 8) : Course :=
  k.modOp id fun o => { o with wait := .nothing, status := if o.status = 0 then status else o.status }

end Sys2Proof.Machine
end

