-- ==== Sys2Proof/Machine/Ops.lean ====
section
/-!
DEFINITION. Named operations over the state that the meanings share: the course an instruction acts for, meters, barrier objects,
killing a course, taking a trap and returning from one (02 R50, 05 R116, 08 R168 to R170, 09 R186 to R188, 19 R445).
-/
namespace Sys2Proof.Machine

/-! ### Access to the parts of the state -/

def State.truss? (s : State) (t : Nat) : Option Truss := s.trusses[t]?
def State.course? (s : State) (c : CRef) : Option Course := (s.trusses[c.truss]?).bind fun t => t.courses[c.course]?

/-- Changes truss `t`. -/
def State.modTruss (s : State) (t : Nat) (f : Truss → Truss) : State := { s with trusses := s.trusses.modify t f }
/-- Changes course `j` of a truss. -/
def Truss.modCourse (t : Truss) (j : Nat) (f : Course → Course) : Truss := { t with courses := t.courses.modify j f }
/-- Changes a course. -/
def State.modCourse (s : State) (c : CRef) (f : Course → Course) : State :=
  s.modTruss c.truss fun t => t.modCourse c.course f
def State.setCourse (s : State) (c : CRef) (k : Course) : State := s.modCourse c fun _ => k
def State.setTruss (s : State) (n : Nat) (t : Truss) : State := s.modTruss n fun _ => t

/-- The core a truss lies on, or the core whose context record holds it. -/
def Truss.core (t : Truss) : Nat := match t.place with | .onCore c => c | .stored c => c | .gone => 0
def Truss.onCore (t : Truss) : Bool := match t.place with | .onCore _ => true | _ => false
/-- The compute die of a core (R9). -/
def dieOf (core : Nat) : Nat := core / 96

def State.core (s : State) (n : Nat) : Core := vat s.cores n Core.reset
def State.modCore (s : State) (n : Nat) (f : Core → Core) : State := { s with cores := vput s.cores n (f (s.core n)) }

def State.vdev? (s : State) (v : Nat) : Option VDev := tget? s.vds v
def State.modVdev (s : State) (v : Nat) (f : VDev → VDev) : State :=
  match tget? s.vds v with
  | some d => { s with vds := tput s.vds v (f d) }
  | none => s

/-- The bank of a global place: device memory, or the host's for a SYSTEM-ATOMIC page (R246, R247). -/
def State.bank (s : State) (host : Bool) : Bank := if host then ⟨s.hostMem, s.hostPsn⟩ else ⟨s.mem, s.memPsn⟩

/-- The counter of die `d`: 0 and 1 are the compute dies, 2 the I/O die (R27). -/
def State.dieCtr (s : State) (d : Nat) : W64 :=
  BitVec.ofNat 64 (if d = 2 then s.ioClk else s.clk) - BitVec.ofNat 64 (vat s.dieCtr0 d 0)

/-- The device's space number of a virtual device; the physical function's is 512 (R176). -/
def pfSpace : Nat := 512

/-- The space a truss's accesses are translated in: kernel-mode courses use the physical function's (log 22). What a service truss does is
metered to no device: no device has that number. -/
def Truss.space (t : Truss) : Nat := if t.kernelMode then pfSpace else t.vd

/-- A truss of a virtual device: a service truss is none (R468). -/
def Truss.ofVd (t : Truss) (v : Nat) : Bool := t.vd.val == v && !t.kernelMode

/-! ### Meters and event counters -/

/-- Adds to a meter's share that is not yet accumulated (R198). -/
def State.addShare (s : State) (vd : Nat) (m n : Nat) : State :=
  s.modVdev vd fun d => { d with shares := vput d.shares m (vat d.shares m 0 + BitVec.ofNat 64 n) }

/-- Shares join their meters (R198). -/
def VDev.accumulate (d : VDev) : VDev :=
  { d with meters := Vector.ofFn fun i => d.meters[i] + d.shares[i], shares := Vector.replicate 10 0 }

/-- The resident course in a slot of a core. -/
def State.courseInSlot (s : State) (core slot : Nat) : Option CRef :=
  (List.range s.trusses.length).findSome? fun ti =>
    match s.trusses[ti]? with
    | some t =>
      if t.place = .onCore core then
        ((List.range t.courses.length).find? fun j =>
          match t.courses[j]? with
          | some k => k.cstate == .resident && k.slot == slot
          | none => false).map fun j => ⟨ti, j⟩
      else none
    | none => none

/-- `n` occurrences are counted by counter `k` of a core; a wrap of an armed counter leaves its trap pending in the course of
its target slot, or is discarded (R199). -/
def State.bumpCounter (s : State) (core k n : Nat) : State :=
  let ec := vat (s.core core).ec k ⟨0, 0⟩
  let s' := s.modCore core fun c => { c with ec := vput c.ec k { ec with value := ec.value + BitVec.ofNat 48 n } }
  if ec.value.toNat + n < 2 ^ 48 || !ec.ctl.getLsbD 9 then s'
  else
    match s.courseInSlot core (bits ec.ctl.toNat 15 10) with
    | some c => s'.modCourse c fun x => { x with ovfPend := x.ovfPend ++ [BitVec.ofNat 8 k] }
    | none => s'

/-- Occurrences that a counter counts while cycles pass: of event 0, 3, 4 or 9, where it is enabled (R199). -/
def EvCounter.passed (x : EvCounter) (count : Nat → Nat) : Nat :=
  let evt := bits x.ctl.toNat 7 0
  if x.ctl.getLsbD 8 && (evt == 0 || evt == 3 || evt == 4 || evt == 9) then count evt else 0

/-- The counters of a core that wrap armed for a slot (R199). -/
def Core.wraps (c : Core) (count : Nat → Nat) (slot : Nat) : List (BitVec 8) :=
  ((List.range 8).filter fun k =>
    let x := vat c.ec k ⟨0, 0⟩
    2 ^ 48 ≤ x.value.toNat + x.passed count && x.ctl.getLsbD 9 && bits x.ctl.toNat 15 10 == slot).map (BitVec.ofNat 8)

/-- `n` occurrences of event `evt` on a core (R199). -/
def State.countEvent (s : State) (core evt n : Nat) : State :=
  (List.range 8).foldl (fun s k =>
    let ec := vat (s.core core).ec k ⟨0, 0⟩
    if ec.ctl.getLsbD 8 && bits ec.ctl.toNat 7 0 == evt then s.bumpCounter core k n else s) s

/-! ### Barrier objects -/

/-- Courses of the truss as a mask (R187). -/
def Truss.courseMask (t : Truss) : BitVec 16 := BitVec.ofNat 16 (2 ^ t.courses.length - 1)

/-- The phase is complete (R188). -/
def Bar.complete (b : Bar) (gone : BitVec 16) : Bool :=
  b.valid && b.fixed && (b.mask &&& ~~~ (b.arrived ||| gone)) == 0 && b.pend == 0

/-- A `barwait.tk` completes with a status; only OK makes it an acquire (R193, R327). -/
def TokOp.barEnds (o : TokOp) (st : W64) : TokOp :=
  { o with wait := .nothing, acq := o.acq && st == 0, inval := o.inval && st == 0,
           writes := o.writes.map fun w => match w with | .g n _ => .g n st | w => w }

/-- A waiting `barwait` wakes with a status: the blocked form resumes, and each `.tk` operation completes with it (R193). -/
def Course.wakeBar (k : Course) (b : Fin 16) (st : W64) : Course :=
  { k with barBlocked := if k.barBlocked = some b then none else k.barBlocked,
           barWoke := if k.barBlocked = some b then some st else k.barWoke,
           ops := k.ops.map fun o => if o.wait = .barrier b then o.barEnds st else o }

/-- Every wait on every barrier ends as ABANDONED, and ABN is clear; a course that waits nowhere keeps ABN set (R57, R193). -/
def Course.abandon (k : Course) : Course :=
  let waits := k.barBlocked.isSome || k.ops.any fun o => match o.wait with | .barrier _ => true | _ => false
  if waits then
    { k with barBlocked := none, barWoke := if k.barBlocked.isSome then some 1 else k.barWoke, abn := false,
             ops := k.ops.map fun o => match o.wait with | .barrier _ => o.barEnds 1 | _ => o }
  else { k with abn := true }

/-- The test of R188 on barrier `b` of a truss. -/
def Truss.testBar (t : Truss) (b : Fin 16) : Truss :=
  let x := t.bars[b]
  if x.complete t.goneMask then
    { t with bars := t.bars.set b { x with phase := x.phase + 1, mask := 0, arrived := 0, fixed := false },
             courses := t.courses.map fun k => k.wakeBar b 0 }
  else t

/-- The test of R188 on every barrier. -/
def Truss.testBars (t : Truss) : Truss := (List.finRange 16).foldl Truss.testBar t

/-- A barrier changed, then tested (R188, R194). -/
def Truss.changeBar (t : Truss) (b : Fin 16) (f : Bar → Bar) : Truss :=
  ({ t with bars := t.bars.set b (f t.bars[b]) }).testBar b

/-- Bytes land on a barrier: PEND falls; a barrier that is not valid discards the count (R189). -/
def Truss.landBytes (t : Truss) (b : Fin 16) (n : Nat) : Truss :=
  if t.bars[b].valid then t.changeBar b fun x => { x with pend := x.pend - BitVec.ofNat 32 n } else t

/-! ### Table writes of the truss (R207) -/

/-- A release of course `j` at truss scope covers its table writes. -/
def Truss.publish (t : Truss) (j : Nat) : Truss :=
  { t with tabPend := t.tabPend.map fun w => if w.writer = j then { w with released := true } else w }

/-- Course `j` no longer reads the masked bits of a table word as they were before the writes listed. -/
def coverWrites (ws : List TabWrite) (j : Nat) (tpl : Bool) (n word : Nat) (mask : W64) : List TabWrite :=
  ((ws.map fun w =>
    if w.tpl == tpl && w.n == n && w.word == word && w.stale.getLsbD j then
      [{ w with mask := w.mask &&& ~~~ mask }, { w with mask := w.mask &&& mask, stale := w.stale &&& ~~~ (BitVec.ofNat 16 (2 ^ j)) }]
    else [w]).flatten).filter fun w => w.mask != 0 && w.stale != 0

/-- An acquire of course `j` at truss scope: it reads every released table write new, and nothing that the write replaced. -/
def Truss.observe (t : Truss) (j : Nat) : Truss :=
  { t with tabPend := t.tabPend.foldl (fun ws w =>
      if w.released && w.stale.getLsbD j then coverWrites (ws ++ [w]) j w.tpl w.n w.word w.mask else ws ++ [w]) [] }

/-! ### Rings and a killed course -/

/-- A slot of a killed course: ACQUIRED and COMMITTING become ABANDONED, TAKEN and RELEASING become FREE with the phase flipped
(R367). -/
def Slot.killed (x : Slot) : Slot :=
  match x.st with
  | .acquired | .committing => { x with st := .abandoned }
  | .taken | .releasing => { x with st := .free, phase := !x.phase }
  | _ => x

/-- The commit or release that an entry stands for: its ring, its slot and the phase named; a held one has not begun (R442). -/
def QEntry.ringSlot (e : QEntry) : Option (Fin 8 × Nat × Bool) :=
  if e.held then none
  else match e.body with
    | .ring rg i _ ph => ph.map fun p => (rg, i, p)
    | _ => none

/-- A kill of course `j` takes slot `i` of ring `rg`: the course acquired or took it, or its own entry was to commit or release it
(R367). -/
def Truss.slotOf (t : Truss) (j : Nat) (rg : Fin 8) (i : Nat) (x : Slot) : Bool :=
  (x.owner == j && x.killed != x) ||
  ((x.st == .committing || x.st == .releasing) &&
    (t.copyQ ++ t.matQ ++ t.netQ).any fun e => e.course == j && e.ringSlot == some (rg, i, x.phase))

/-- The rings when course `j` is killed (R367): an entry whose slot is taken away, of whatever course, changes nothing any more. -/
def Truss.killSlots (t : Truss) (j : Nat) : Truss :=
  let lost := fun (e : QEntry) => match e.ringSlot with
    | some (rg, i, p) => (match t.rings[rg].slots[i]? with | some x => x.phase == p && t.slotOf j rg i x | none => false)
    | none => false
  let dead := fun (es : List QEntry) => es.map fun e =>
    match e.body, lost e with | .ring rg i c _, true => { e with body := .ring rg i c none } | _, _ => e
  { t with rings := Vector.ofFn fun rg =>
             { t.rings[rg] with slots := t.rings[rg].slots.mapIdx fun i x => if t.slotOf j rg i x then x.killed else x },
           copyQ := dead t.copyQ, matQ := dead t.matQ, netQ := dead t.netQ }

/-- Slots of a ring in FILLED, ABANDONED, TAKEN or RELEASING: its occupancy (R358). -/
def Ring.filled (r : Ring) : Nat :=
  (r.slots.filter fun x => x.st == .filled || x.st == .abandoned || x.st == .taken || x.st == .releasing).length

/-- A course of the truss is gone (R186). -/
def Truss.markGone (t : Truss) (j : Nat) : Truss :=
  ({ t with goneMask := t.goneMask ||| BitVec.ofNat 16 (2 ^ j) }).testBars

/-! ### Killing -/

/-- A cause record (R412): cause, detail, agent kind, the agent's place, FPC and FADDR. -/
def State.causeRec (s : State) (cause detail agent core slot : Nat) (fpc faddr : W64) : Cause :=
  { w0 := BitVec.ofNat 64 (cause % 256 + detail % 256 * 2 ^ 8 + agent % 256 * 2 ^ 16 + dieOf core % 256 * 2 ^ 24 +
            core % 256 * 2 ^ 32 + slot % 64 * 2 ^ 40),
    w1 := s.dieCtr (dieOf core), w2 := fpc, w3 := faddr }

/-- The kill step of one course: KILLED at an instruction boundary; its siblings are told, its ring slots are freed, its held
operations are dropped (R51, R57, R186, R367, R408 step 2). A course that is gone already only takes a further link, until its
chain is dumped (R445). -/
def State.killStep (s : State) (c : CRef) (root : Cause) : State :=
  match s.truss? c.truss, s.course? c with
  | some t, some k =>
    if k.cstate = .killed then
      s.modCourse c fun k => { k with chain := if k.chain.isEmpty then [] else k.chain ++ [root] }
    else if k.cstate = .retired then s
    else
      let s := s.modTruss c.truss fun t =>
        let t := t.modCourse c.course fun k =>
          { k.closeShadows with cstate := .killed, chain := [root], quarantine := [], barBlocked := none,
                                barWoke := none, stalled := false, late := [], ops := k.ops.map fun o => { o with fault := none } }
        let t := { t with
          courses := (List.range t.courses.length).zipWith
            (fun j k => if j = c.course || t.goneMask.getLsbD j then k else k.abandon) t.courses }
        (t.killSlots c.course).markGone c.course
      s.addShare t.space 8 1
  | _, _ => s

/-- A course kill: the kill step, then its drain, dump and release follow (R445). -/
def State.killCourse (s : State) (c : CRef) (root : Cause) : State :=
  match s.course? c with
  | some k =>
    if k.cstate = .killed || k.cstate = .retired then s.killStep c root
    else
      let s := s.killStep c root
      { s with kills := s.kills ++
          [{ scope := .course c, stage := .drain, drained := [], began := s.clk, root := root, firstSlot := none,
             mailbox := false, resets := false }] }
  | none => s

/-- A course's own cause record. -/
def State.courseCause (s : State) (c : CRef) (cause detail : Nat) (fpc faddr : W64) : Cause :=
  match s.truss? c.truss, s.course? c with
  | some t, some k => s.causeRec cause detail 0 t.core k.slot fpc faddr
  | _, _ => s.causeRec cause detail 0 0 0 fpc faddr

/-! ### Traps -/

/-- Word 4 + w of a frame: the tokens 4w to 4w + 3 (R114). -/
def Course.tokenWord (k : Course) (w : Nat) : W64 :=
  BitVec.ofNat 64 ((List.range 4).foldr (fun j acc =>
    let tk := vat k.tok (4 * w + j) ⟨0, 0⟩
    acc * 2 ^ 16 + tk.count.toNat + tk.status.toNat * 2 ^ 8) 0)

/-- The frame a trap writes (R114, R168 step 3). -/
def Course.frame (k : Course) (cause detail : Nat) (faddr : W64) (asy : Bool) : Frame :=
  { words := #v[k.pc.zeroExtend 64,
      BitVec.ofNat 64 (cause % 256 + detail % 256 * 2 ^ 8 + k.div.length % 64 * 2 ^ 16 + asy.toNat * 2 ^ 23 +
        k.tm.toNat * 2 ^ 24),
      faddr,
      BitVec.ofNat 64 (k.lanes.toNat + k.tkmask.toNat * 2 ^ 32),
      k.tokenWord 0, k.tokenWord 1, k.tokenWord 2, k.tokenWord 3] }

/-- A word that waits has not issued: a barrier wait that was blocked or had been woken is met afresh by the word that comes next at
its address, an ABANDONED that it had not returned included (R193; log 45). -/
def Course.unblock (k : Course) : Course :=
  { k with barBlocked := none, barWoke := none, stalled := false, abn := k.abn || k.barWoke == some 1 }

/-- The course enters its handler (R116, R168 steps 1, 3 and 4). The ends of `dly`, `yield` and the wait of a guarded `region` stay:
they bound the word that comes next (R95, R161, R166; log 45). -/
def Course.enter (k : Course) (handler : Addr) (cause detail : Nat) (faddr : W64) (asy : Bool) : Course :=
  let k := k.closeShadows.unblock
  { k with frames := k.frame cause detail faddr asy :: k.frames, tm := true, tkmask := 0xF000, pc := handler }

/-- TAKING A TRAP (R50, R168): the frame is pushed and the handler entered; a fifth frame raises TRAPOVF and a handler address of
0 escalates with the trap's own cause, and then the course is killed. The word that traps counts as the course's last issue. -/
def trapEntry (s : State) (c : CRef) (cause detail : Nat) (faddr : W64) (asy : Bool) : State :=
  match s.truss? c.truss, s.course? c with
  | some t, some k =>
    let fpc := k.pc.zeroExtend 64
    if Config.trapCap ≤ k.frames.length then
      s.killCourse c (s.courseCause c 0x19 0 fpc faddr)
    else if t.items.handler = 0 then
      s.killCourse c (s.courseCause c cause detail fpc faddr)
    else
      { s.modCourse c (fun k => { k.enter (t.items.handler.truncate 57) cause detail faddr asy with lastIssue := s.clk })
        with tick := s.tick + 1 }
  | _, _ => s

/-- Field FPC of a frame. -/
def Frame.fpc (f : Frame) : Addr := (f.words[0]).truncate 57
def Frame.stm (f : Frame) : Bool := (f.words[1]).getLsbD 24
def Frame.fdsp (f : Frame) : Nat := bits (f.words[1]).toNat 21 16
def Frame.stk (f : Frame) : BitVec 16 := ((f.words[3]) >>> 32).truncate 16
def Frame.fmask (f : Frame) : LaneMask := (f.words[3]).truncate 32
/-- The count of token `j` in a frame's snapshot. -/
def Frame.tokCount (f : Frame) (j : Nat) : Nat := bits (vat f.words (4 + j / 4) 0).toNat (16 * (j % 4) + 5) (16 * (j % 4))

/-- RETURN FROM A TRAP (R116, R170): the top frame gives PC, LANEMASK, DIVSP, TM and TKMASK, and is popped; every shadow closes
(R98). -/
def Course.leave (k : Course) : Course :=
  match k.frames with
  | [] => k
  | f :: fs =>
    let k := k.closeShadows
    { k with pc := f.fpc, lanes := f.fmask, div := k.div.drop (k.div.length - f.fdsp), tm := f.stm, tkmask := f.stk,
             frames := fs }

/-! ### The merge loop (R42) -/

/-- One turn of the merge loop, when it applies. -/
def Course.mergeStep (k : Course) : Option Course :=
  match k.div with
  | [] => none
  | e :: es =>
    if k.pc = e.join || k.lanes = 0 then
      some (if e.phase then { k with lanes := k.lanes ||| e.mask, pc := e.join, div := es }
        else { k with lanes := e.mask, pc := e.pc, div := { e with mask := k.lanes, phase := true } :: es })
    else none

/-- The merge loop with a bound on its turns. -/
def Course.mergeFuel (k : Course) : Nat → Course
  | 0 => k
  | n + 1 => match k.mergeStep with | some k' => k'.mergeFuel n | none => k

/-- The merge loop that runs before every fetch: an entry takes at most two turns (R42). -/
def Course.merge (k : Course) : Course := k.mergeFuel (2 * k.div.length + 1)

/-- The quadrant has used its issue of this cycle (R38, R169). -/
def State.quadSpent (s : State) (quad : Nat) : Bool :=
  s.trusses.any fun t => 4 * t.core ≤ quad && quad < 4 * t.core + 4 && t.onCore &&
    t.courses.any fun k => 4 * t.core + k.slot / 16 == quad && k.lastIssue == s.clk

/-! ### Time -/

/-- Courses of a truss that are resident on its core (R51). -/
def Truss.resident (t : Truss) : Nat :=
  if t.onCore then (t.courses.filter fun k => k.cstate == .resident).length else 0

/-- What `n` cycles on a core come to, by event: cycles, those that its courses spend stalled in a `waitt` or waiting at a barrier, and the
one for which a course that STRICT holds to every other cycle is kept back after an issue (R183, R199). -/
def State.cycleEvents (s : State) (core n evt : Nat) : Nat :=
  let of_ := fun (p : Course → Bool) =>
    (s.trusses.map fun t => if t.place = .onCore core then (t.courses.filter fun k => k.cstate == .resident && p k).length else 0).sum
  if evt = 9 then Nat.min n 1 * of_ (fun k => k.strict && k.recent.head?.map (·.1) == some s.clk)
  else n * if evt = 0 then 1 else if evt = 3 then of_ (·.stalled) else of_ (·.barBlocked.isSome)

/-- Cycles within which shares join their meters (R198). -/
def meterSpan : Nat := 65536

/-- The clocks move on to core cycle `t`; two I/O-die cycles pass in three core cycles (R7). Each resident course meters its cycles
(R198), shares join the meters where a span of 65,536 cycles ends (R198; log 87), the event counters of cycles count (R199), and where a
cycle ends, each ring notes its occupancy (R40). -/
def State.advanceTo (s : State) (t : Nat) : State :=
  let clk := Nat.max s.clk t
  let n := clk - s.clk
  let s' := s.trusses.foldl (fun st x => st.addShare x.space 0 (x.resident * n)) s
  { s' with
    vds := if clk / meterSpan = s.clk / meterSpan then s'.vds else s'.vds.map fun e => (e.1, e.2.accumulate),
    clk := clk, ioClk := Nat.max s.ioClk (clk * 2 / 3),
    cores := Vector.ofFn fun i =>
      let c := s.cores[i]
      { c with ec := c.ec.map fun (x : EvCounter) => { x with value := x.value + BitVec.ofNat 48 (x.passed (s.cycleEvents i n)) } },
    trusses := s.trusses.map fun x =>
      { x with
        rings := x.rings.map fun (r : Ring) => { r with occ := if n = 0 then r.occ else r.filled },
        courses := x.courses.map fun k =>
          if x.onCore && k.cstate = .resident then
            { k with ovfPend := k.ovfPend ++ (s.core x.core).wraps (s.cycleEvents x.core n) k.slot }
          else k } }

/-! ### What a word's effect answers -/

/-- What the effect of an instruction word comes to. -/
inductive Res where
  /-- The effect is done; the course goes on at the next word. -/
  | ok (s : State)
  /-- The effect is done; the course goes on at `pc`. -/
  | jump (s : State) (pc : Addr)
  /-- A precise fault: nothing has changed. -/
  | trap (cause detail : Nat) (faddr : W64)
  /-- A fault of an earlier operation, raised at this word in place of its effect; `s` no longer holds it (R255). -/
  | late (s : State) (cause detail : Nat) (faddr : W64)
  /-- The word has begun to wait and has not issued. -/
  | wait (s : State)

/-- The course a word acts for: the state, its truss, the course, and the course as the word reads it (R94, R96). -/
structure Ctx where
  s : State
  c : CRef
  t : Truss
  k : Course
  r : Course

/-- The word's context: the course must be resident on a core (R51). -/
def State.ctx? (s : State) : Option Ctx :=
  match s.truss? s.cur.truss, s.course? s.cur with
  | some t, some k =>
    if t.onCore && k.cstate = .resident then some ⟨s, s.cur, t, k, k.seen s.tick⟩ else none
  | _, _ => none

/-- The state with the word's course replaced. -/
def Ctx.set (x : Ctx) (k : Course) : State := x.s.setCourse x.c k
/-- The effect is done on the course alone. -/
def Ctx.ok (x : Ctx) (k : Course) : Res := .ok (x.set k)

/-- Whether an access that must come first covers a fresh L1: every line of the core's L1 is invalidated (R236). -/
def State.invalidateL1 (s : State) (core : Nat) : State :=
  { s with l1 := s.l1.filter fun e => e.1 % 192 != core }

end Sys2Proof.Machine
end

