-- ==== Sys2Proof/Machine/Barriers.lean ====
section
/-!
DEFINITION. What operations on barriers and rings do to their truss, and the truss as a course with held operations sees it (09 R185 to
R194; 16 R358 to R365; 19 R442).
-/
namespace Sys2Proof.Machine

/-! ### Barrier objects (R185 to R194) -/

/-- What an operation on a barrier or ring comes to: the truss after it, or a precise fault. -/
abbrev TrussOp := Except (Nat × Nat × W64) Truss

def barFault (detail : Nat) : TrussOp := .error (0x04, detail, 0)

/-- `barinit` (R191). -/
def barInit (t : Truss) (b : Fin 16) : TrussOp :=
  if t.bars[b].valid then barFault 0x03 else .ok { t with bars := t.bars.set b ⟨true, 0, 0, 0, false, 0⟩ }

/-- `barinv` (R191): every waiter wakes with INVALID. -/
def barInv (t : Truss) (b : Fin 16) : TrussOp :=
  .ok { t with bars := t.bars.set b { t.bars[b] with valid := false, mask := 0, arrived := 0, fixed := false, pend := 0 },
               courses := t.courses.map fun k => k.wakeBar b 2 }

/-- `bararv` of course `j` with mask `m` (R45, R187, R192). -/
def barArrive (t : Truss) (j : Nat) (b : Fin 16) (m : BitVec 16) : TrussOp :=
  let x := t.bars[b]
  if !x.valid then barFault 0x02
  else if m &&& ~~~ t.courseMask ≠ 0 then barFault 0x05
  else if x.fixed && m ≠ x.mask then barFault 0x00
  else if !m.getLsbD j then barFault 0x01
  else if x.arrived.getLsbD j then barFault 0x04
  else .ok (t.changeBar b fun x => { x with mask := m, fixed := true, arrived := x.arrived ||| BitVec.ofNat 16 (2 ^ j) })

/-- `barxb` of `n` bytes (R187, R192). -/
def barExpect (t : Truss) (b : Fin 16) (n : W32) : TrussOp :=
  let x := t.bars[b]
  if !x.valid then barFault 0x02
  else if (2 ^ 31 - 1 : Int) < x.pend.toInt + n.toNat then barFault 0x06
  else .ok (t.changeBar b fun x => { x with pend := x.pend + n })

/-! ### Ring operations that may be held (R361, R362) -/

/-- The fields of a slot word that a commit or release is checked by (R360, R361). -/
def slotRef (i : Nat) (ph : Bool) : W64 := BitVec.ofNat 64 (i * 2 ^ 32 + ph.toNat * 2 ^ 40)

/-- The slot word of slot `i` (R360). -/
def Ring.word (r : Ring) (i : Nat) (abn : Bool) : W64 :=
  let ph := ((r.slots[i]?).map (·.phase)).getD false
  BitVec.ofNat 64 (r.base + i * r.ssz * 128 + i * 2 ^ 32 + ph.toNat * 2 ^ 40 + abn.toNat * 2 ^ 41)

/-- The state of slot `i` of a ring. -/
def Ring.slot (r : Ring) (i : Nat) : SlotState := ((r.slots[i]?).map (·.st)).getD .free

/-- A slot of a ring changed. -/
def Truss.modSlot (t : Truss) (rg : Fin 8) (i : Nat) (f : Slot → Slot) : Truss :=
  { t with rings := t.rings.set rg { t.rings[rg] with slots := t.rings[rg].slots.modify i f } }

/-- The effect of a commit or a release on the slot it named: COMMITTING becomes FILLED, RELEASING becomes FREE with the phase flipped
(R361, R365); nothing once a kill has taken the slot (R367). -/
def Truss.ringEffect (t : Truss) (rg : Fin 8) (i : Nat) (commit : Bool) (ph : Option Bool) : Truss :=
  t.modSlot rg i fun x =>
    if ph ≠ some x.phase then x
    else if commit then if x.st = .committing then { x with st := .filled } else x
    else if x.st = .releasing then { x with st := .free, phase := !x.phase } else x

/-- `rgacq.init` (R361, R364). -/
def ringInit (t : Truss) (rg : Fin 8) (w : W64) : TrussOp :=
  let r := t.rings[rg]
  let n := w.toNat
  let ns := bits n 5 0 + 1
  let ssz := bits n 19 8
  let base := bits n 63 32
  let top := base + ns * ssz * 128
  if r.valid && r.slots.any fun x => x.st != .free then .error (0x01, 0x31, 0)
  else if bits n 31 28 ≠ 0 || bits n 23 20 ≠ 0 || bits n 7 6 ≠ 0 || ssz = 0 || base % 128 ≠ 0 then .error (0x01, 0x35, 0)
  else if bits t.items.part.toNat 33 24 * 4096 < top then .error (0x13, 0xA0, BitVec.ofNat 64 top)
  else
    let fresh : Ring := { valid := true, ssz := ssz, prod := BitVec.ofNat 2 (bits n 25 24), cons := BitVec.ofNat 2 (bits n 27 26),
                          base := base, acq := 0, take := 0, slots := List.replicate ns ⟨.free, false, 0⟩, occ := 0 }
    .ok { t with rings := t.rings.set rg fresh }

/-- The slot that the next `rgacq` or `rgtake` of a ring reaches, and whether it stands as the word waits for (R361). -/
def Ring.next (r : Ring) (take : Bool) : Nat := (if take then r.take else r.acq).toNat % r.slots.length
def Ring.nextReady (r : Ring) (take : Bool) : Bool :=
  let st := r.slot (r.next take)
  if take then st == .filled || st == .abandoned else st == .free

/-- Course `j` acquires or takes slot `i` of a ring (R361). One that was held finds the ring no longer valid, or the slot with another
course: it changes nothing (R442; the fault of the second case is a DESIGN CHOICE, log 88). -/
def ringGet (t : Truss) (j : Nat) (rg : Fin 8) (i : Nat) (take : Bool) : TrussOp :=
  let r := t.rings[rg]
  if !r.valid then .error (0x01, 0x30, 0)
  else if r.next take ≠ i || !r.nextReady take then .error (0x01, if take then 0x33 else 0x32, 0)
  else
    let r' : Ring := { r with
      acq := if take then r.acq else r.acq + 1, take := if take then r.take + 1 else r.take,
      slots := r.slots.modify i fun y => { y with st := if take then .taken else .acquired, owner := j } }
    .ok { t with rings := t.rings.set rg r' }

/-- The checks of a commit or release, then COMMITTING or RELEASING (R361, R364). -/
def ringBegin (t : Truss) (rg : Fin 8) (w : W64) (commit : Bool) : TrussOp :=
  let r := t.rings[rg]
  let i := bits w.toNat 37 32
  if !r.valid then .error (0x01, 0x30, 0)
  else match r.slots[i]? with
    | none => .error (0x01, 0x34, 0)
    | some x =>
      if x.st ≠ (if commit then .acquired else .taken) then .error (0x01, if commit then 0x32 else 0x33, 0)
      else if x.phase ≠ w.getLsbD 40 then .error (0x01, 0x34, 0)
      else .ok (t.modSlot rg i fun x => { x with st := if commit then .committing else .releasing })

/-! ### Holding (R442) -/

/-- The ring operation a queue entry of the truss stands for. -/
def Truss.ringEntry (t : Truss) (id : Nat) : Option (Fin 8 × Nat × Bool × Bool) :=
  ((t.copyQ ++ t.matQ ++ t.netQ).find? fun e => e.id == id).bind fun e =>
    match e.body with | .ring rg i commit ph => some (rg, i, commit, ph.getD false) | _ => none

/-- A held operation on barriers and rings applied to its truss; a held queue entry has only begun its commit or release; the others
change nothing here. -/
def Truss.applyHeld (t : Truss) (j : Nat) (op : HeldOp) : TrussOp :=
  match op with
  | .arrive b m => (barArrive t j b m).map fun t => t.publish j
  | .expect b n => barExpect t b n
  | .barinit b => barInit t b
  | .barinv b => barInv t b
  | .ringInit rg w => ringInit t rg w
  | .ringGet rg i take => ringGet t j rg i take
  | .ringEffect rg i commit ph =>
    (ringBegin t rg (slotRef i ph) commit).map fun t => (t.ringEffect rg i commit (some ph)).publish j
  | .entry id =>
    match t.ringEntry id with
    | some (rg, i, commit, ph) => ringBegin t rg (slotRef i ph) commit
    | none => .ok t
  | _ => .ok t

/-- The truss as course `j` acts on it: its own held operations applied in issue order (R442). -/
def Truss.view (t : Truss) (j : Nat) : Truss :=
  match t.courses[j]? with
  | some k => k.quarantine.foldl (fun t h => match t.applyHeld j h.op with | .ok t' => t' | .error _ => t) t
  | none => t

end Sys2Proof.Machine
end

