-- ==== Sys2Proof/WellFormed.lean ====
section
/-!
DEFINITION. Well-formed instruction words: what step 4 of R92 checks of the word alone, without the launch's register and tile
counts. The device's other steps carry no word and are well-formed.
-/
namespace Sys2Proof

/-- Every register run lies in its file and is aligned, and the limits between fields hold (R92 step 4). -/
def Instr.wf (i : Instr) : Bool :=
  i.body.dst.all Opnd.wf && i.body.src.all Opnd.wf && i.fieldsOk

end Sys2Proof
end

