-- ==== Sys2Proof/Machine/Issue.lean ====
section
/-!
DEFINITION. The issue of one instruction word: the checks of R92 in order, what holds a word back (R38), late faults (R255), strict
tracking (R99), and the step to the next position (R95).
-/
namespace Sys2Proof.Machine

/-- The classes a role allows (R33): 0 general, 1 copy, 2 matrix, 3 vector. -/
def roleAllows (role : BitVec 2) (c : OpClass) : Bool :=
  match c with
  | .general => true
  | .copy => role = 0 || role = 1
  | .network => role ≠ 2
  | .matrix => role = 0 || role = 2

/-- The tiles and registers a word names lie in what the launch gave the course, beside what the word alone shows (R92 step 4,
R109, R174). -/
def Ctx.fits (x : Ctx) (i : Instr) : Bool :=
  (i.body.dst ++ i.body.src).all (Opnd.below x.t.items.regs) && i.tiles ≤ x.t.tiles.length &&
  !(x.t.kernelMode && match i with | .sysc .. => true | _ => false)

/-- The first check of R92 that the word fails, steps 2 to 5, with its cause. -/
def Ctx.rejects (x : Ctx) (i : Instr) : Option Nat :=
  if !roleAllows x.k.role i.opClass then some 0x03
  else if i.kernelMode && !x.t.kernelMode then some 0x17
  else if !i.wf || !x.fits i then some 0x01
  else match i.token with
    | some tk => if x.k.tkmask.getLsbD tk then none else some 0x0B
    | none => none

/-! ### What holds a word back -/

/-- Engine queues of a truss (R356). -/
def Truss.queue (t : Truss) (q : QSel) : List QEntry :=
  match q with | .none => [] | .copy => t.copyQ | .mat => t.matQ | .net => t.netQ

/-- Entries a queue holds (R286, R356). -/
def queueCap : QSel → Nat | .none => 1 | .copy => Config.copyCap | .mat => Config.matCap | .net => Config.netCap

/-- The queue has no room (R362, R374). -/
def Truss.full (t : Truss) (q : QSel) : Bool := queueCap q ≤ ((t.queue q).filter fun e => !e.redo).length

/-- Entries of course `j` recorded as not performed have yet to be re-issued, which comes before its next word (R52). -/
def Truss.redoing (t : Truss) (j : Nat) : Bool := (t.copyQ ++ t.matQ ++ t.netQ).any fun e => e.redo && e.course == j

/-- Quarantined operations of a quadrant: the guarded courses on its 16 slots (R9, R442). -/
def State.quarantined (s : State) (core quad : Nat) : Nat :=
  (s.trusses.map fun t =>
    if t.items.guarded && t.place = .onCore core then
      (t.courses.map fun k => if k.slot / 16 = quad then k.quarantine.length else 0).sum
    else 0).sum

/-- Prefetches and write-backs order nothing (R260, R269). -/
def AccKind.ordered : AccKind → Bool
  | .prefetch _ | .clean _ => false
  | _ => true

/-- Scopes at which an acquire or a release is more than a relaxed access to any other agent (R306, R308). -/
def strong : Option Scope → Bool
  | none | some .crs => false
  | some _ => true

/-- An access of the course still has a part to perform (R265). -/
def State.accessing (s : State) (c : CRef) : Bool := s.accesses.any fun a => a.who == c && a.kind.ordered

/-- A part is still to be performed toward the courses of its truss: a store that the core's L1 shows them already is performed there
(R236, R265). -/
def Access.unseen (a : Access) : Bool :=
  a.parts.any fun p => !p.early && match p.phase with | .performed | .failed .. => false | _ => true

/-- An access of the course is still to be performed at a scope (R265). -/
def State.accessingAt (s : State) (sc : Scope) (c : CRef) : Bool :=
  match sc with
  | .crs | .trs => s.accesses.any fun a => a.who == c && a.kind.ordered && a.unseen
  | _ => s.accessing c

/-- A promise operation of the course has not taken effect; a `pwait` that waits counts where it is an acquire (R265, R276, R317; log 71). -/
def State.promising (s : State) (c : CRef) : Bool :=
  s.proms.any fun p => (p.waiting.isNone || strong p.acqScope) && match p.who with | .course d .. => d == c | .queue _ => false

/-- Earlier loads and atomics of the course that have not returned (R265). -/
def State.loading (s : State) (c : CRef) : Bool :=
  s.accesses.any fun a => a.who == c && match a.kind with | .load | .atomic _ | .copy _ => true | _ => false

/-- Accesses of the course that count on no token are still to be performed (R255). -/
def State.accessingFree (s : State) (c : CRef) : Bool := 
  s.accesses.any fun a => a.who == c && a.tokOp.isNone && a.kind.ordered

/-- An access or a promise operation of this number is still to be performed. -/
def State.unsettled (s : State) (id : Nat) : Bool :=
  (s.accesses.any fun a => a.id == id) || s.proms.any fun p => p.id == id && p.waiting.isNone

/-- A release that its home has performed early has still to take effect: earlier accesses of its course are to be performed (R311). -/
def State.open (s : State) (r : EarlyRel) : Bool := r.needs.any s.unsettled

/-- A release of the course, performed early, is still to take effect. -/
def State.earlyOpen (s : State) (c : CRef) : Bool := s.early.any fun r => r.who == c && s.open r

/-- A release of the course is still to take effect (R317). -/
def State.releasing (s : State) (c : CRef) : Bool :=
  (s.accesses.any fun a => a.who == c && strong a.rel) || s.earlyOpen c ||
  s.proms.any fun p => p.rel && p.waiting.isNone && match p.who with | .course d .. => d == c | .queue _ => false

/-- Translated, and on its way to a home. -/
def Phase.flying : Phase → Bool
  | .ready .. => true
  | _ => false

/-- Accesses in flight that used a translation which a `tlbinv` of the course has invalidated are still to be performed or rejected
(R220). -/
def State.invalidating (s : State) (k : Course) : Bool :=
  k.inval.any fun (x : Nat × Nat) =>
    (s.accesses.any fun a => a.id == x.1 && match a.parts[x.2]? with | some p => p.phase.flying && p.got.isEmpty | none => false) ||
    s.proms.any fun p => p.id == x.1 && p.waiting.isNone && (if x.2 = 0 then p.phase else p.phase2).flying

/-- The lanes that remain: active, on the divergence stack, or at a `bsync` (R56, R165). -/
def Course.live (k : Course) : LaneMask :=
  let a := k.div.foldl (fun m e => m ||| e.mask) k.lanes
  match k.bsync with | some b => a ||| b.arrived | none => a

/-- A service ring holds 1,024 records (R46). -/
def State.serviceFull (s : State) (die : Nat) : Bool := vat s.svrTail die 0 - vat s.svrHead die 0 == 1024

/-- The words at which a fault of an operation without a token is raised (R255): `fence`, a release, `pfill`, `bararv`, `exit`. They
raise it, and wait until such faults are known, whatever their guards say (DESIGN CHOICE, log 91: R255 does not speak of a word that no
lane executes). -/
def deliversLate : Instr → Bool
  | .fence .. | .pfill .. | .bararv .. | .exit _ => true
  | .st _ _ _ _ _ (.rel _) | .sts _ _ _ _ _ (.rel _) _ => true
  | .atom _ _ _ _ _ _ _ (.rel _) | .atom _ _ _ _ _ _ _ (.ar _) => true
  | .red _ _ _ _ _ _ (.rel _) | .red _ _ _ _ _ _ (.ar _) => true
  | .atoms _ _ _ _ _ _ _ (.rel _) _ | .atoms _ _ _ _ _ _ _ (.ar _) _ => true
  | _ => false

/-- The word does not issue yet (R38, R178, R180, R265, R286, R361, R362, R374, R442). `bararv`, `rgcmt` and `rgrel` are releases:
they wait until the course's earlier accesses are performed (R192, R362; log 8), and where they are held, their release waits (R442).
A `barwait` or `bartest` that may acquire waits for the course's earlier releases (R311, R317). A word at which a fault of an operation without a token is raised waits until such faults are known (R255), unless a rollback is to come
(R443). -/
def Ctx.stalls (x : Ctx) (i : Instr) : Bool :=
  (match i.token with | some tk => x.k.count tk == 63 | none => false) ||
  (x.t.items.guarded && Config.quarantineCap ≤ x.s.quarantined x.t.core (x.k.slot / 16)) ||
  (deliversLate i && !x.k.rollbackPend && x.s.accessingFree x.c) || x.t.redoing x.c.course ||
  match i with
  | .waitt g tk n => x.k.stalled && x.r.uniform g && n.val < x.k.count tk
  | .barwait g _ _ none => x.k.barBlocked.isSome || (x.r.uniform g && x.s.releasing x.c)
  | .barwait g _ _ _ | .bartest g .. => x.r.uniform g && x.s.releasing x.c
  | .rgacq g _ rg => x.r.uniform g && (let q := (x.t.view x.c.course).rings[rg]; q.valid && !q.nextReady false)
  | .rgtake g _ rg => x.r.uniform g && (let q := (x.t.view x.c.course).rings[rg]; q.valid && !q.nextReady true)
  | .rgcmt g q _ _ | .rgrel g q _ _ =>
      x.r.uniform g && ((q != .none && x.t.full q) || (!x.t.items.guarded && (x.s.accessingAt .trs x.c || x.s.promising x.c)))
  | .bararv g _ _ => x.r.uniform g && !x.t.items.guarded && (x.s.accessingAt .trs x.c || x.s.promising x.c)
  | .bcopy g .. => x.r.uniform g && x.t.full .copy
  | .qfence g c m n => x.r.uniform g && ((c && x.t.full .copy) || (m && x.t.full .mat) || (n && x.t.full .net))
  | .fence g k sc =>
      x.r.uniform g && ((sc == .sys && x.s.invalidating x.k) || match k with
      | .rel => x.s.accessingAt sc x.c || x.s.promising x.c
      | .acq => x.s.loading x.c || x.s.releasing x.c
      | .ar => x.s.accessingAt sc x.c || x.s.promising x.c)
  | .sysc g .. => x.r.exec g != 0 && x.s.serviceFull (dieOf x.t.core)
  | i =>
    match i.opClass with
    | .matrix => x.t.full .mat
    | .network => x.r.uniform i.guard && x.t.full .net
    | _ => false

/-! ### Late faults and strict tracking -/

/-- The word reads a register word that holds an uncorrectable error: one that its guard lies in, or one of a source in a lane that
executes (R437; log 47). -/
def Ctx.readsPoison (x : Ctx) (i : Instr) : Bool :=
  let ex := x.k.exec i.guard
  x.k.psn.any fun (r, w) =>
    r == 320 + i.guard.pred.val ||
    (ex != 0 && (readNames i).contains r && (256 ≤ r || ex.getLsbD (2 * w) || ex.getLsbD (2 * w + 1)))

/-! ### Issue -/

/-- What a word adds to the position (R95). -/
def positionsOf : Instr → Nat
  | .dly n => n.val
  | _ => 1

/-- The word has issued: the course is at its next position and at `pc`; the word is counted (R95, R198, R199). -/
def State.finish (s : State) (c : CRef) (i : Instr) (pc : Option Addr) : State :=
  match s.truss? c.truss with
  | none => s
  | some t =>
    let s1 := s.modCourse c fun k => { k.moved s.clk t.core (positionsOf i) with pc := pc.getD (k.pc + 8) }
    let s2 := (s1.addShare t.space 1 1).countEvent t.core 1 1
    let s3 := match i with | .dly n => s2.countEvent t.core 2 n.val | _ => s2
    { s3 with tick := s.tick + 1 }

/-- What the answer of a word's effect makes of the state `s` that the word met (R95, R116). -/
def Res.settle (s : State) (x : Ctx) (i : Instr) : Res → State
  | .ok s' => s'.finish x.c i none
  | .jump s' pc => s'.finish x.c i (some pc)
  | .trap cause detail faddr => trapEntry s x.c cause detail faddr false
  | .late s' cause detail faddr => trapEntry s' x.c cause detail faddr false
  | .wait s' => s'

/-- THE ISSUE of a word with effect `body`: R92 steps 2 to 5; a word that is held back does not issue; a late fault is raised in
place of the word; strict tracking; then the word's own checks and effect. Every fault here is precise. -/
def issue (i : Instr) (s : State) (body : Ctx → Res) : State :=
  match s.ctx? with
  | none => s
  | some x =>
    match x.rejects i with
    | some cause => trapEntry s x.c cause 0 0 false
    | none =>
      if x.stalls i then s
      else
        match (if deliversLate i then x.k.late else []) with
        | f :: fs => trapEntry (s.modCourse x.c fun k => { k with late := fs }) x.c f.cause f.detail f.faddr false
        | [] =>
          match x.k.strictFault i with
          | some cause => trapEntry s x.c cause 0 0 false
          | none =>
            if x.readsPoison i then s.killCourse x.c (s.courseCause x.c 0x15 0 (x.k.pc.zeroExtend 64) 0)
            else
              (body x).settle s x i

/-- A word whose effect is on its course's registers alone. -/
def issueCourse (i : Instr) (s : State) (f : Ctx → Course) : State := issue i s fun x => x.ok (f x)

end Sys2Proof.Machine
end

