-- ==== Sys2Proof/Machine/Operands.lean ====
section
/-!
DEFINITION. Operand forms and result forms of the register words (04 R86, 06 R121, R122, R132; 04 R97).
-/
namespace Sys2Proof.Machine

/-- What a meaning answers. -/
abbrev Out := Host.Outcome State Fault Refusal

/-- An integer width and whether it is signed (R91, R121). -/
structure NumTy where
  w  : Nat
  sg : Bool
  deriving DecidableEq, Repr

def numI : IntTy → NumTy
  | .i8 => ⟨8, true⟩ | .i16 => ⟨16, true⟩ | .i32 => ⟨32, true⟩ | .i64 => ⟨64, true⟩
  | .n8 => ⟨8, false⟩ | .n16 => ⟨16, false⟩ | .n32 => ⟨32, false⟩ | .n64 => ⟨64, false⟩
def numS : STy → NumTy
  | .i8 => ⟨8, true⟩ | .i16 => ⟨16, true⟩ | .i32 => ⟨32, true⟩ | .i64 => ⟨64, true⟩
def numB : BTy → NumTy | .b32 => ⟨32, false⟩ | .b64 => ⟨64, false⟩
def numW : WTy → NumTy
  | .i32 => ⟨32, true⟩ | .i64 => ⟨64, true⟩ | .n32 => ⟨32, false⟩ | .n64 => ⟨64, false⟩
def numSar : SarTy → NumTy | .i32 => ⟨32, true⟩ | .i64 => ⟨64, true⟩
def numMadw : MadwTy → NumTy | .i32 => ⟨32, true⟩ | .n32 => ⟨32, false⟩

/-- 32-bit registers of a width (R86). -/
def NumTy.regs (t : NumTy) : Nat := if t.w = 64 then 2 else 1
/-- The ends of a type's range (R126). -/
def NumTy.lo (t : NumTy) : Int := if t.sg then -((2 ^ (t.w - 1) : Nat) : Int) else 0
def NumTy.hi (t : NumTy) : Int := if t.sg then (2 ^ (t.w - 1) : Nat) - 1 else (2 ^ t.w : Nat) - 1

/-- The low `w` bits of a pattern as an integer of the type (R121). -/
def NumTy.value (t : NumTy) (x : Nat) : Int := if t.sg then signed t.w x else ((x % 2 ^ t.w : Nat) : Int)

/-- An integer reduced modulo `2 ^ w`, then extended to 64 bits as its type says (R86, R121). -/
def NumTy.result (t : NumTy) (x : Int) : W64 := BitVec.ofInt 64 (t.value (wrap t.w x))

/-- A source extended to an integer (R121). -/
def Course.int (k : Course) (t : NumTy) (a : Reg) (lane : Nat) : Int := t.value (k.src t.regs a lane).toNat
/-- A source's low `w` bits as a pattern (R121, R128). -/
def Course.pat (k : Course) (t : NumTy) (a : Reg) (lane : Nat) : Nat := (k.src t.regs a lane).toNat % 2 ^ t.w
/-- A 32-bit source as an unsigned number: shift counts, position words (R121). -/
def Course.cnt (k : Course) (a : Reg) (lane : Nat) : Nat := (k.src32 a lane).toNat

/-- Latency of an integer, logic or move word (R97). -/
def intClass : Reg → Nat | .v _ => 4 | .g _ => 2

/-- A fixed-latency word that computes in each executing lane, or once for a g destination (R41, R88, R97). -/
def Ctx.lanewise (x : Ctx) (gd : Guard) (L regs : Nat) (d : Reg) (f : Nat → W64) : Course :=
  let ex := x.r.execFor gd d
  x.k.landAll x.s.tick L ex (resultVals regs d ex f)

/-- An integer word: `f` gives the integer result of a lane (R121, R126). -/
def Ctx.intWord (x : Ctx) (gd : Guard) (t : NumTy) (d : Reg) (f : Nat → Int) : Course :=
  x.lanewise gd (intClass d) t.regs d fun l => t.result (f l)

/-- A word with a predicate destination, written in the executing lanes (R122, R129). -/
def Ctx.predWord (x : Ctx) (L : Nat) (ex : LaneMask) (d : PDst) (f : Nat → Bool) : Course :=
  x.k.landAll x.s.tick L ex [.p d ex (BitVec.ofNat 32 (maskOf 32 f))]

/-- The width of an I-form integer word (R104, R132). -/
def immWidth : Reg → Nat | .v _ => 32 | .g _ => 64

/-- The source of an I-form integer word at its width: a v source is sign-extended, a g source gives its low bits (R132). -/
def Course.immSrc (k : Course) (w : Nat) (a : Reg) (lane : Nat) : Int :=
  match a with
  | .v n => (k.vget n lane).toInt
  | .g n => if w = 32 then ((k.gget n).truncate 32).toInt else (k.gget n).toInt

/-- An I-form integer word (R132). -/
def Ctx.immWord (x : Ctx) (gd : Guard) (d a : Reg) (f : Int → Int) : Course :=
  let w := immWidth d
  x.intWord gd ⟨w, true⟩ d fun l => f (x.r.immSrc w a l)

/-- The executing set of a lane-exchange word (R122, R134). -/
def Course.exchangeSet (k : Course) (gd : Guard) (toG : Bool) : LaneMask :=
  if toG && !k.uniform gd then 0 else k.exec gd

/-- A lane-exchange word: its membership mask must be its executing set (R44, R134). -/
def Ctx.exchange (x : Ctx) (ex : LaneMask) (c : GReg) (k : Course) : Res :=
  let m : LaneMask := (x.r.gget c).truncate 32
  if m = ex then x.ok k else .trap 0x05 (lowestLane (m ^^^ ex)) 0

end Sys2Proof.Machine
end

