-- ==== Sys2Proof/Machine/Flags.lean ====
section
/-!
DEFINITION. The sticky IEEE flags: FSTAT, what a word raises, and what a read or a write of FSTAT sees (03 R64, 05 R112).
-/
namespace Sys2Proof.Machine

/-- A set of flags: bit 0 NX, 1 UF, 2 OF, 3 DZ, 4 NV (R64). -/
abbrev FFlags := BitVec 5

def fNone : FFlags := 0
def fNX : FFlags := 1
def fUF : FFlags := 2
def fOF : FFlags := 4
def fDZ : FFlags := 8
def fNV : FFlags := 16

/-- A code with the flags its computation raises. -/
abbrev FRes := Nat × FFlags

/-- Flags when a condition holds. -/
def flagIf (c : Bool) (f : FFlags) : FFlags := if c then f else 0

/-- The flags of every executing lane (R64). -/
def laneFlags (ex : LaneMask) (f : Nat → FFlags) : FFlags := (lanesIn ex).foldl (fun acc l => acc ||| f l) 0

/-- What a read of FSTAT returns: flags of open shadows, and of completed operations whose counts have not fallen, are in it or
not (R112, R150; log 2). -/
def Course.fstatSeen (k : Course) (tick : Nat) : FFlags :=
  let a := k.flagShadows.foldl (fun f sh => if Config.pickFlags tick (2 * sh.till + 1) then f ||| sh.flags else f) k.fstat
  (k.ops.filter fun o => o.done && !o.fallen).foldl
    (fun f o => if Config.pickFlags tick (2 * o.id) then f ||| o.flags else f) a

/-- A write of FSTAT: each pending set of flags survives it or not (R112; log 2). The flags of a token operation that has completed join FSTAT
when its count falls, whatever is written before that (DESIGN CHOICE, log 91: R150 leaves open when). -/
def Course.fstatWrite (k : Course) (tick : Nat) (x : FFlags) : Course :=
  { k with fstat := x, flagShadows := k.flagShadows.filter fun sh => Config.pickFlags tick (2 * sh.till + 1) }

end Sys2Proof.Machine
end

