-- ==== Sys2Proof/Machine/FloatCore.lean ====
section
/-!
DEFINITION. Number formats, exact values, and the one rounding (03 R59 to R65, R73, R74).
-/
namespace Sys2Proof.Machine

/-- A floating format: exponent and fraction bits, bias, and the largest finite magnitude as a code without its sign (R59, R65). -/
structure Fmt where
  eb   : Nat
  fb   : Nat
  bias : Nat
  maxMag : Nat
  deriving DecidableEq, Repr

/-- A binary format of IEEE shape: the top exponent holds infinity and NaNs (R61). -/
def ieee (eb fb : Nat) : Fmt := ⟨eb, fb, 2 ^ (eb - 1) - 1, (2 ^ eb - 1) * 2 ^ fb - 1⟩

def fmtF16 : Fmt := ieee 5 10
def fmtBF16 : Fmt := ieee 8 7
def fmtF32 : Fmt := ieee 8 23
def fmtF64 : Fmt := ieee 11 52
def fmtE4M3 : Fmt := ⟨4, 3, 7, 0x7E⟩
def fmtE5M2 : Fmt := ⟨5, 2, 15, 0x7B⟩
def fmtE3M2 : Fmt := ⟨3, 2, 3, 0x1F⟩
def fmtE2M3 : Fmt := ⟨2, 3, 1, 0x1F⟩
def fmtE2M1 : Fmt := ⟨2, 1, 1, 0x7⟩

def fmtOf : FTy → Fmt | .f16 => fmtF16 | .bf16 => fmtBF16 | .f32 => fmtF32 | .f64 => fmtF64
def fmtH : HTy → Fmt | .f16 => fmtF16 | .bf16 => fmtBF16 | .f32 => fmtF32
def fmtX2 : X2Ty → Fmt | .bf16x2 => fmtBF16 | .f16x2 => fmtF16
def fmtQ : QTy → Fmt | .bf16 => fmtBF16 | .f32 => fmtF32

/-- Bits of a code. -/
def Fmt.width (f : Fmt) : Nat := 1 + f.eb + f.fb
/-- The exponent of the least significant bit of a subnormal. -/
def Fmt.qmin (f : Fmt) : Int := 1 - f.bias - f.fb
/-- Infinity of an IEEE format. -/
def Fmt.inf (f : Fmt) (neg : Bool) : Nat := (2 ^ f.eb - 1) * 2 ^ f.fb + neg.toNat * 2 ^ (f.eb + f.fb)
/-- The canonical NaN of an IEEE format (R62). -/
def Fmt.nan (f : Fmt) : Nat := (2 ^ f.eb - 1) * 2 ^ f.fb + 2 ^ (f.fb - 1)
/-- A zero of a sign. -/
def Fmt.zero (f : Fmt) (neg : Bool) : Nat := neg.toNat * 2 ^ (f.eb + f.fb)

/-- The value of a code: NaN (signalling or quiet), infinity, or a signed dyadic number `m × 2 ^ e`; zero keeps its sign as
`m = 0`. -/
inductive FVal where
  | nan (sig : Bool)
  | inf (neg : Bool)
  | fin (neg : Bool) (m : Nat) (e : Int)
  deriving DecidableEq, Repr

/-- The number a code of exponent and fraction fields gives, when it is no infinity or NaN (R61, R65). -/
def Fmt.number (f : Fmt) (x : Nat) : FVal :=
  let neg := x.testBit (f.eb + f.fb)
  let ef := x / 2 ^ f.fb % 2 ^ f.eb
  let fr := x % 2 ^ f.fb
  if ef = 0 then .fin neg fr f.qmin else .fin neg (fr + 2 ^ f.fb) (f.qmin + (ef - 1 : Nat))

/-- The value of a code of an IEEE format (R61, R141). -/
def Fmt.decode (f : Fmt) (x : Nat) : FVal :=
  let neg := x.testBit (f.eb + f.fb)
  let ef := x / 2 ^ f.fb % 2 ^ f.eb
  let fr := x % 2 ^ f.fb
  if ef = 2 ^ f.eb - 1 then if fr = 0 then .inf neg else .nan (!fr.testBit (f.fb - 1))
  else f.number x

/-- A rounding mode, codes 0 to 3 (R63). -/
inductive RMode where
  | rne | rtz | rup | rdn
  deriving DecidableEq, Repr

def RMode.ofCode : Nat → RMode | 1 => .rtz | 2 => .rup | 3 => .rdn | _ => .rne

/-- The mode of a word: DYN takes RMODE as it stands at issue (R63, R140). -/
def rmOf (rm : RM) (rmode : BitVec 2) : RMode :=
  match rm with
  | .rne => .rne | .rtz => .rtz | .rup => .rup | .rdn => .rdn
  | .dyn => RMode.ofCode rmode.toNat

/-- A magnitude `m × 2 ^ e`, with more below its last bit when `sticky`, cut to a multiple of `2 ^ q`: the multiple, and whether
what is cut off is 0, below half, half, or above half (0, 1, 2, 3). With `sticky`, `e < q` is assumed. -/
def cutAt (m : Nat) (e : Int) (sticky : Bool) (q : Int) : Nat × Nat :=
  if q ≤ e then (m * 2 ^ (e - q).toNat, if sticky then 1 else 0)
  else
    let sh := (q - e).toNat
    if Nat.log2 m + 1 < sh then (0, if m = 0 && !sticky then 0 else 1)
    else
      let r := m % 2 ^ sh
      let half := 2 ^ (sh - 1)
      (m / 2 ^ sh, if r < half then (if r = 0 && !sticky then 0 else 1) else if r = half && !sticky then 2 else 3)

/-- Whether the cut magnitude is raised by one unit (R63). -/
def roundsUp (rm : RMode) (neg : Bool) (n cut : Nat) : Bool :=
  match rm with
  | .rne => cut = 3 || (cut = 2 && n % 2 = 1)
  | .rtz => false
  | .rup => cut ≠ 0 && !neg
  | .rdn => cut ≠ 0 && neg

/-- A nonzero magnitude rounded into a format with no upper limit on the exponent: the magnitude as a code without its sign, whether
the result is inexact, and whether it is tiny after rounding (R62, R64). -/
def Fmt.roundMag (f : Fmt) (rm : RMode) (neg : Bool) (m : Nat) (e : Int) (sticky : Bool) : Nat × Bool × Bool :=
  let top : Int := (Nat.log2 m : Int) + e
  let q := max (top - f.fb) f.qmin
  let (n, cut) := cutAt m e sticky q
  let n := if roundsUp rm neg n cut then n + 1 else n
  let (n2, cut2) := cutAt m e sticky (top - f.fb)
  let n2 := if roundsUp rm neg n2 cut2 then n2 + 1 else n2
  let emin : Int := 1 - f.bias
  let tiny := top < emin - 1 || (top = emin - 1 && n2 < 2 ^ (f.fb + 1))
  ((q - f.qmin).toNat * 2 ^ f.fb + n, cut ≠ 0, tiny)

/-- Overflow of an IEEE format goes to infinity or to the largest finite number (R73). -/
def overflowsToInf (rm : RMode) (neg : Bool) : Bool :=
  match rm with | .rne => true | .rtz => false | .rup => !neg | .rdn => neg

/-- A nonzero number rounded once to an IEEE format, with its flags (R62 to R64). -/
def Fmt.round (f : Fmt) (rm : RMode) (neg : Bool) (m : Nat) (e : Int) (sticky : Bool) : FRes :=
  let (mag, inexact, tiny) := f.roundMag rm neg m e sticky
  let sgn := neg.toNat * 2 ^ (f.eb + f.fb)
  if f.maxMag < mag then
    (if overflowsToInf rm neg then f.inf neg else sgn + f.maxMag, fOF ||| fNX)
  else (sgn + mag, flagIf inexact fNX ||| flagIf (inexact && tiny) fUF)

/-- A value rounded to an IEEE format: NaN is canonical with NV if it signals, infinities and zeros keep their signs (R62, R73). -/
def Fmt.ofVal (f : Fmt) (rm : RMode) (x : FVal) : FRes :=
  match x with
  | .nan sig => (f.nan, flagIf sig fNV)
  | .inf neg => (f.inf neg, 0)
  | .fin neg m e => if m = 0 then (f.zero neg, 0) else f.round rm neg m e false

/-! ### Exact arithmetic -/

def FVal.isNan : FVal → Bool | .nan _ => true | _ => false
def FVal.isSig : FVal → Bool | .nan s => s | _ => false
def FVal.isInf : FVal → Bool | .inf _ => true | _ => false
def FVal.isZero : FVal → Bool | .fin _ m _ => m = 0 | _ => false
def FVal.neg : FVal → Bool | .nan _ => false | .inf n => n | .fin n _ _ => n
/-- The value with its sign changed. -/
def FVal.negate : FVal → FVal | .nan s => .nan s | .inf n => .inf !n | .fin n m e => .fin (!n) m e

/-- The signed multiple of `2 ^ q` that a finite value is, for `q` no more than its exponent. -/
def FVal.scaled (q : Int) : FVal → Int
  | .fin n m e => (if n then -1 else 1) * (m * 2 ^ (e - q).toNat : Nat)
  | _ => 0

def FVal.exp : FVal → Int | .fin _ _ e => e | _ => 0

/-- The exact product of two values; NaN for 0 × ∞ (R144). -/
def mulVal (a b : FVal) : FVal :=
  match a, b with
  | .fin n m e, .fin n' m' e' => .fin (n != n') (m * m') (e + e')
  | .inf n, .fin n' m _ => if m = 0 then .nan true else .inf (n != n')
  | .fin n m _, .inf n' => if m = 0 then .nan true else .inf (n != n')
  | .inf n, .inf n' => .inf (n != n')
  | .nan s, .nan s' => .nan (s || s')
  | .nan s, _ => .nan s
  | _, .nan s => .nan s

/-- The exact sum of two values; NaN for ∞ − ∞; an exact zero of unlike signs takes the sign `zneg` (R144). -/
def addVal (zneg : Bool) (a b : FVal) : FVal :=
  match a, b with
  | .fin n m e, .fin n' m' e' =>
    if m = 0 && m' = 0 then .fin (if n = n' then n else zneg) 0 e
    else
      let q := min e e'
      let t := (FVal.fin n m e).scaled q + (FVal.fin n' m' e').scaled q
      if t = 0 then .fin zneg 0 q else .fin (t < 0) t.natAbs q
  | .inf n, .inf n' => if n = n' then .inf n else .nan true
  | .inf n, .fin .. => .inf n
  | .fin .., .inf n => .inf n
  | .nan s, .nan s' => .nan (s || s')
  | .nan s, _ => .nan s
  | _, .nan s => .nan s

/-- An exact zero sum is −0 only under RDN (R144). -/
def zeroNeg (rm : RMode) : Bool := rm = .rdn

def fAdd (f : Fmt) (rm : RMode) (a b : FVal) : FRes := f.ofVal rm (addVal (zeroNeg rm) a b)
def fSub (f : Fmt) (rm : RMode) (a b : FVal) : FRes := f.ofVal rm (addVal (zeroNeg rm) a b.negate)
def fMul (f : Fmt) (rm : RMode) (a b : FVal) : FRes := f.ofVal rm (mulVal a b)
/-- One rounding; 0 × ∞ raises NV even with a quiet NaN in c (R144). -/
def fFma (f : Fmt) (rm : RMode) (a b c : FVal) : FRes := f.ofVal rm (addVal (zeroNeg rm) (mulVal a b) c)

/-! ### Comparison -/

/-- A key that orders the codes of a format, −0 below +0 (R145). -/
def Fmt.key (f : Fmt) (x : Nat) : Int :=
  let mag : Nat := x % 2 ^ (f.eb + f.fb)
  if x.testBit (f.eb + f.fb) then -(mag : Int) - 1 else mag

/-- A key in which −0 equals +0 (R146). -/
def Fmt.cmpKey (f : Fmt) (x : Nat) : Int :=
  let mag : Nat := x % 2 ^ (f.eb + f.fb)
  if x.testBit (f.eb + f.fb) then -(mag : Int) else mag

/-- `fmin` and `fmax` (R145). -/
def fMinMax (f : Fmt) (isMax : Bool) (a b : Nat) : FRes :=
  let va := f.decode a
  let vb := f.decode b
  let nv := flagIf (va.isSig || vb.isSig) fNV
  if va.isNan && vb.isNan then (f.nan, nv)
  else if va.isNan then (b, nv)
  else if vb.isNan then (a, nv)
  else if isMax then (if f.key a < f.key b then b else a, 0)
  else (if f.key b < f.key a then b else a, 0)

/-- `fcmp` (R146). -/
def fCompare (f : Fmt) (cc : FCond) (a b : Nat) : Bool × FFlags :=
  let va := f.decode a
  let vb := f.decode b
  let un := va.isNan || vb.isNan
  let sig := va.isSig || vb.isSig
  let x := f.cmpKey a
  let y := f.cmpKey b
  match cc with
  | .eq => (!un && x = y, flagIf sig fNV)
  | .ne => (un || x ≠ y, flagIf sig fNV)
  | .lt => (!un && x < y, flagIf un fNV)
  | .le => (!un && x ≤ y, flagIf un fNV)
  | .gt => (!un && y < x, flagIf un fNV)
  | .ge => (!un && y ≤ x, flagIf un fNV)
  | .un => (un, flagIf sig fNV)
  | .ord => (!un, flagIf sig fNV)

/-! ### Rounding to an integer -/

/-- A finite value rounded to an integer, and whether the result differs (R147, R151). -/
def roundInt (rm : RMode) (neg : Bool) (m : Nat) (e : Int) : Int × Bool :=
  let (n, cut) := cutAt m e false 0
  let n := if roundsUp rm neg n cut then n + 1 else n
  (if neg then -(n : Int) else n, cut ≠ 0)

/-- `frnd` (R147). -/
def fRnd (f : Fmt) (rm : RMode) (x : FVal) : FRes :=
  match x with
  | .fin neg m e =>
    let (n, inexact) := roundInt rm neg m e
    if n = 0 then (f.zero neg, flagIf inexact fNX)
    else ((f.round rm neg n.natAbs 0 false).1, flagIf inexact fNX)
  | x => f.ofVal rm x

/-- `fscl` (R147). -/
def fScl (f : Fmt) (rm : RMode) (x : FVal) (b : Int) : FRes :=
  match x with
  | .fin neg m e => f.ofVal rm (.fin neg m (e + b))
  | x => f.ofVal rm x

/-- `fclass` (R148). -/
def fClass (f : Fmt) (x : Nat) : Nat :=
  match f.decode x with
  | .nan sig => if sig then 256 else 512
  | .inf neg => if neg then 1 else 128
  | .fin neg m _ =>
    if m = 0 then if neg then 8 else 16
    else if m < 2 ^ f.fb then if neg then 4 else 32
    else if neg then 2 else 64

end Sys2Proof.Machine
end

