-- ==== Sys2Proof/Machine/Counters.lean ====
section
/-!
DEFINITION. Tokens, barrier objects, generations and counters: the words of 09 (R176 to R200).
-/
namespace Sys2Proof.Machine

/-! ### Tokens (R178 to R183) -/

/-- The operations on a token that a `waitt` with `n` covers: all but the `n` most recently issued (R180). -/
def Course.covered (k : Course) (tk : Tok) (n : Nat) : List TokOp :=
  let os := k.ops.filter fun o => o.tk == tk
  os.take (os.length - n)

/-- The effect of `waitt`: it blocks while the count is above `n`; then the fault of the covered operation issued first is raised;
without one, every covered operation is done with, and an acquire among them invalidates the L1 (R180, R193, R236, R255). -/
def waittEffect (x : Ctx) (gd : Guard) (tk : Tok) (n : Nat) : Res :=
  if !x.r.uniform gd then x.ok x.k
  else if n < x.k.count tk then .wait (x.set { x.k with stalled := true })
  else
    let cov := x.k.covered tk n
    match cov.find? fun o => o.fault.isSome with
    | some o =>
      match o.fault with
      | some f => .late (x.set (x.k.modOp o.id fun o => { o with fault := none })) f.cause f.detail f.faddr
      | none => x.ok x.k
    | none =>
      let ids := cov.map (·.id)
      let s := x.set { x.k with ops := x.k.ops.filter fun o => !ids.contains o.id }
      let s := if cov.any (·.acq) then s.modTruss x.c.truss fun t => t.observe x.c.course else s
      .ok (if cov.any (·.inval) then s.invalidateL1 x.t.core else s)

def execWaitt (gd : Guard) (tk : Tok) (n : Fin 64) (s : State) : Out :=
  .next (issue (.waitt gd tk n) s fun x => waittEffect x gd tk n)

/-- Count in [5:0] and status in [15:8] (R182). -/
def tokenWord (t : Token) : W64 := BitVec.ofNat 64 (t.count.toNat + t.status.toNat * 2 ^ 8)

/-- A move to a g register, class 2; CLR then sets the status byte to OK (R182). -/
def execTkst (gd : Guard) (tk : Tok) (clr : Bool) (d : GReg) (s : State) : Out :=
  .next (issueCourse (.tkst gd tk clr d) s fun x =>
    let k := x.lanewise gd 2 2 (.g d) fun _ => tokenWord x.k.tok[tk]
    if x.r.uniform gd && clr then { k with tok := k.tok.set tk { k.tok[tk] with status := 0 } } else k)

/-! ### Barrier objects (R185 to R194) -/

/-- An operation on a barrier or ring: checked at issue against the course's view; held under the guarded bit, else done (R187, R364,
R442). -/
def Ctx.trussWord (x : Ctx) (op : HeldOp) : Res :=
  match (x.t.view x.c.course).applyHeld x.c.course op with
  | .error (cause, detail, faddr) => .trap cause detail faddr
  | .ok t =>
    if x.t.items.guarded then
      .ok { x.set { x.k with quarantine := x.k.quarantine ++ [⟨op, x.s.clk, none, x.s.nextId⟩] } with nextId := x.s.nextId + 1 }
    else .ok (x.s.setTruss x.c.truss t)

/-- A word that acts once for the course when the guard of the lowest-numbered active lane is true (R190). -/
def Ctx.once (x : Ctx) (gd : Guard) (f : Unit → Res) : Res := if x.r.uniform gd then f () else x.ok x.k

def execBarinit (gd : Guard) (b : Fin 16) (s : State) : Out :=
  .next (issue (.barinit gd b) s fun x => x.once gd fun _ => x.trussWord (.barinit b))

def execBararv (gd : Guard) (b : Fin 16) (a : GReg) (s : State) : Out :=
  .next (issue (.bararv gd b a) s fun x => x.once gd fun _ => x.trussWord (.arrive b ((x.r.gget a).truncate 16)))

def execBarxb (gd : Guard) (b : Fin 16) (a : GReg) (s : State) : Out :=
  .next (issue (.barxb gd b a) s fun x => x.once gd fun _ => x.trussWord (.expect b ((x.r.gget a).truncate 32)))

def execBarinv (gd : Guard) (b : Fin 16) (s : State) : Out :=
  .next (issue (.barinv gd b) s fun x => x.once gd fun _ => x.trussWord (.barinv b))

/-- An acquire at truss scope (R207); a barrier's, in a truss whose span is above 1, invalidates the core's L1 (R236). -/
def Ctx.barAcquire (x : Ctx) (s : State) : State :=
  let s := s.modTruss x.c.truss fun t => t.observe x.c.course
  if 1 < x.t.items.span then s.invalidateL1 x.t.core else s

/-- The status a `barwait` meets, if it does not have to wait; ABN is cleared by the reader (R193). -/
def Ctx.barStatus (x : Ctx) (b : Fin 16) : Option W64 :=
  let y := (x.t.view x.c.course).bars[b]
  if x.k.abn then some 1
  else if !y.valid then some 2
  else if !y.arrived.getLsbD x.c.course then some 0
  else none

/-- The blocking form: it begins to wait, or gives gD its status, visible to the next word (R193). -/
def barwaitBlocking (x : Ctx) (b : Fin 16) (d : GReg) : Res :=
  let done := fun (st : W64) (k : Course) =>
    let s := x.set (k.land x.s.tick 1 (.g d st))
    Res.ok (if st = 0 then x.barAcquire s else s)
  match x.k.barWoke with
  | some st => done st { x.k with barWoke := none }
  | none => match x.barStatus b with
    | some st => done st (if st = 1 then { x.k with abn := false } else x.k)
    | none => .wait (x.set { x.k with barBlocked := some b })

/-- The `.tk` form: gD lands when the operation completes; the acquire takes effect when it is covered (R193). -/
def barwaitToken (x : Ctx) (b : Fin 16) (d : GReg) (tk : Tok) : Res :=
  let inval := decide (1 < x.t.items.span)
  match x.barStatus b with
  | some st =>
    let k := if st = 1 then { x.k with abn := false } else x.k
    x.ok (k.issueOp tk .nothing [.g d st] false (st == 0) (inval && st == 0))
  | none => x.ok (x.k.issueOp tk (.barrier b) [.g d 0] false true inval)

def execBarwait (gd : Guard) (b : Fin 16) (d : GReg) (tk : Option Tok) (s : State) : Out :=
  .next (issue (.barwait gd b d tk) s fun x =>
    match tk with
    | none => x.once gd fun _ => barwaitBlocking x b d
    | some tk => if x.r.uniform gd then barwaitToken x b d tk else x.ok (x.k.issueOp tk .nothing [] (dests := [256 + d.val])))

/-- PHASE, DONE, ABN and V of a barrier, class 2; DONE = 1 is an acquire (R193). -/
def bartestEffect (x : Ctx) (gd : Guard) (b : Fin 16) (d : GReg) : Res :=
  let y := (x.t.view x.c.course).bars[b]
  let done := !y.arrived.getLsbD x.c.course
  let w := BitVec.ofNat 64 (y.phase.toNat + done.toNat * 2 ^ 16 + x.k.abn.toNat * 2 ^ 17 + y.valid.toNat * 2 ^ 18)
  let s := x.set (x.lanewise gd 2 2 (.g d) fun _ => w)
  .ok (if done && x.r.uniform gd then x.barAcquire s else s)

def execBartest (gd : Guard) (b : Fin 16) (d : GReg) (s : State) : Out :=
  .next (issue (.bartest gd b d) s fun x => bartestEffect x gd b d)

/-! ### Generations, meters and event counters (R195 to R200) -/

/-- The generation in force in a space (R195). -/
def State.gen (s : State) (space : Nat) : BitVec 16 :=
  if space = pfSpace then s.pfGen else match s.vdev? space with | some d => d.gen | none => 0

/-- A counter word: the same value in every executing lane, class 4 (R196, R200). -/
def Ctx.counterWord (x : Ctx) (gd : Guard) (regs : Nat) (d : Reg) (y : W64) : Course := x.lanewise gd 4 regs d fun _ => y

def execGenrd (gd : Guard) (d : Reg) (s : State) : Out :=
  .next (issueCourse (.genrd gd d) s fun x => x.counterWord gd 1 d ((x.s.gen x.t.space).zeroExtend 64))

/-- The counter of an index, or the cause of the fault its access raises (R200). -/
def Ctx.counter (x : Ctx) (idx : Nat) : Except Nat W64 :=
  if idx < 10 then .ok (match x.s.vdev? x.t.space with | some d => vat d.meters idx 0 | none => 0)
  else if 0x10 ≤ idx && idx ≤ 0x17 then
    if x.t.kernelMode then .ok ((vat (x.s.core x.t.core).ec (idx - 0x10) ⟨0, 0⟩).value.zeroExtend 64) else .error 0x17
  else .error 0x01

def execCntrd (gd : Guard) (t : BTy) (d : Reg) (idx : BitVec 8) (s : State) : Out :=
  .next (issue (.cntrd gd t d idx) s fun x =>
    if x.r.execFor gd d = 0 then x.ok x.k
    else match x.counter idx.toNat with
      | .ok y => x.ok (x.counterWord gd t.regs d (match t with | .b32 => (y.truncate 32 : W32).zeroExtend 64 | .b64 => y))
      | .error cause => .trap cause 0 0)

/-- The control word and the value are set; a reserved bit or an event code above 9 raises ILLEGAL_OP (R199). -/
def execCntctl (gd : Guard) (a b : GReg) (k : Fin 8) (s : State) : Out :=
  .next (issue (.cntctl gd a b k) s fun x => x.once gd fun _ =>
    let w := (x.r.gget a).toNat
    if bits w 63 16 ≠ 0 || 9 < bits w 7 0 then .trap 0x01 0x20 0
    else .ok (x.s.modCore x.t.core fun c =>
      { c with ec := c.ec.set k ⟨(x.r.gget b).truncate 48, BitVec.ofNat 16 w⟩ }))

end Sys2Proof.Machine
end

