-- ==== Sys2Proof/Machine/Translate.lean ====
section
/-!
DEFINITION. Address translation: the home slices and what they hold, the two-stage walk, the TLBs, generations, and faults that wait to
be serviced (09 R195, 10 R215 to R221, R228, 11 R238, R243, 17 R396, R397, R472).
-/
namespace Sys2Proof.Machine

/-! ### Homes (R228, R238, R243) -/

/-- The fold-table entry of an address. -/
def foldIndex (a : Nat) : Nat :=
  (bits a 16 7) ^^^ (bits a 26 17) ^^^ (bits a 36 27) ^^^ (bits a 46 37) ^^^ (bits a 51 47)

/-- The slice that holds a line or is to fetch it, under the slice fold table; while its entry moves, OLD has the lines it still holds (R242,
R243). -/
def State.homeOf (s : State) (a : Nat) : Nat :=
  match tget? s.fold (foldIndex a) with
  | some w =>
    if w.getLsbD 31 && s.folds.any (fun f => f.entry == some (foldIndex a) && f.left.contains (a / 128)) then bits w.toNat 22 16
    else bits w.toNat 6 0
  | none => foldIndex a % 128

/-- The slice that a request goes to: one that left its core after the write of a moving entry goes to SLICE (R242 step 2). -/
def State.homeFor (s : State) (a sent : Nat) : Nat :=
  match tget? s.fold (foldIndex a) with
  | some w => if s.folds.any fun f => f.entry == some (foldIndex a) && f.began ≤ sent then bits w.toNat 6 0 else s.homeOf a
  | none => s.homeOf a

/-- A line comes to its slice: one that is full replaces another line, and one that is not may (log 10), writing it back when it is dirty;
the traffic is metered to the device (R13, R198). -/
def State.makeRoom (s : State) (vd l : Nat) : State :=
  let mine := s.lines.filter fun x => x != l && s.homeOf (x * 128) == s.homeOf (l * 128)
  let i := Config.victim s.tick % (if Config.sliceLines ≤ mine.length then mine.length else mine.length + 1)
  let s : State := { s with tick := s.tick + 1 }
  match mine[i]? with
  | some x =>
    let s := if s.dirty.contains x then s.addShare vd 3 128 else s
    { s with lines := s.lines.filter (· != x), dirty := s.dirty.filter (· != x) }
  | none => s

/-- OLD hands a line of the moving entry over to SLICE (R242 step 3). -/
def State.handOver (s : State) (vd l : Nat) : State :=
  match s.folds with
  | f :: fs =>
    if f.left.contains l then
      let s : State := { s with folds := { f with left := f.left.filter (· != l) } :: fs }
      if s.lines.contains l then s.makeRoom vd l else s
    else s
  | [] => s

/-- Lines that a promise instruction names come with their directory entries (R242). -/
def State.handOvers (s : State) (vd : Nat) (ls : List Nat) : State := ls.foldl (fun s l => s.handOver vd l) s

/-- A slice serves an access to a line: it holds the line, and an access that changes it leaves it dirty. A line it does not hold is
filled from HBM, and one that OLD of a moving entry still holds is handed over (R13, R198, R238, R242; log 39). -/
def State.touchLine (s : State) (vd a : Nat) (write : Bool) : State :=
  let l := a / 128
  let s := s.handOver vd l
  let s := if s.lines.contains l then s
    else
      let s := (s.makeRoom vd l).addShare vd 3 128
      { s with lines := s.lines ++ [l] }
  { s with dirty := if write && !s.dirty.contains l then s.dirty ++ [l] else s.dirty }

/-- The lines of `n` bytes from `a`. -/
def linesIn (a n : Nat) : List Nat := if n = 0 then [] else List.range' (a / 128) ((a + n - 1) / 128 - a / 128 + 1)

/-- An access of `n` bytes at the slices that hold them. -/
def State.touchRange (s : State) (vd a n : Nat) (write : Bool) : State :=
  (linesIn a n).foldl (fun s l => s.touchLine vd (l * 128) write) s

/-- A write of `n` bytes performed at its home, for device `vd`: in its slice, or at the host through the host port (R238, R246, R321). -/
def State.putBank (s : State) (vd : Nat) (host : Bool) (pa n : Nat) (b : Bank) : State :=
  if host then { s with hostMem := b.m, hostPsn := b.psn, hostOut := s.hostOut ++ [HostOut.write pa (readBytes b.m pa n)] }
  else { s.touchRange vd pa n true with mem := b.m, memPsn := b.psn }

/-! ### The walk (R215 to R218) -/

/-- What an access asks of a page: a write, a fetch, user mode. -/
structure Want where
  w : Bool
  x : Bool
  u : Bool
  deriving DecidableEq, Repr

/-- How a walk ends without a translation. -/
inductive Miss where
  | xlate1 (detail : Nat)
  | xlate2 (gpa detail : Nat)
  /-- A stage-2 leaf with HOST = 1: the page migration engine's (R244). -/
  | paging (gpa : Nat)
  | perm (detail : Nat)
  /-- A poisoned table entry (R437). -/
  | psn (addr : Nat)
  deriving DecidableEq, Repr

/-- A leaf a walk found: its place, in host memory or not, its value, its level and the address it gives. -/
structure Leaf where
  addr : Nat
  host : Bool
  e    : Nat
  lvl  : Nat
  out  : Nat
  deriving DecidableEq, Repr

/-- The base-two logarithm of the bytes a leaf covers (R216, R217). -/
def leafBits (e lvl : Nat) : Nat :=
  if lvl = 3 then 30 else if lvl = 2 then 21 else if bit e 8 then 16 else 12

/-- Reserved bits, a misplaced LEAF, or ATOM 3: reason 1 of R218. -/
def entryBad (stage2 : Bool) (lvl e : Nat) : Bool :=
  if bit e 7 then
    3 < lvl || bits e 63 60 ≠ 0 || bits e 59 58 == 3 || bits e 55 52 ≠ 0 || bits e 11 10 ≠ 0 || bit e 1 ||
      (bit e 8 && lvl ≠ 1) || (bit e 9 && !stage2)
  else lvl = 1 || bits e 63 52 ≠ 0 || bits e 11 1 ≠ 0

/-- DETAIL of R218. -/
def walkDetail (reason : Nat) (stage2 : Bool) (lvl : Nat) : Nat := reason * 32 + stage2.toNat * 16 + lvl

/-- A place that a stage-2 leaf puts in host memory (R246). -/
def entryHost (e : Nat) : Bool := bit e 9 || bits e 59 58 == 1

/-- One stage of a walk of `va` from level `n` down. `sys` gives the system-physical address of an entry, whether it lies in host
memory, and the leaves its own walk passed. -/
def walkStage (b : Bool → Bank) (stage2 : Bool) (va : Nat) (sys : Nat → Except Miss (Nat × Bool × List Leaf)) :
    (n table : Nat) → Except Miss (Leaf × List Leaf)
  | 0, _ => .error (.perm (walkDetail 1 stage2 1))
  | n + 1, table =>
    let idx := va / 2 ^ (12 + 9 * n) % (if stage2 && n = 4 then 16 else 512)
    match sys (table + 8 * idx) with
    | .error e => .error e
    | .ok (a, host, ls) =>
      let e := readNat (b host).m a 8
      if anyPsn (b host).psn a 8 then .error (.psn a)
      else if !bit e 0 then
        if stage2 then
          if n = 0 && bit e 9 then .error (.paging va) else .error (.xlate2 va (walkDetail 0 true (n + 1)))
        else .error (.xlate1 (walkDetail 0 false (n + 1)))
      else if entryBad stage2 (n + 1) e then .error (.perm (walkDetail 1 stage2 (n + 1)))
      else if bit e 7 then
        let w := leafBits e (n + 1)
        .ok (⟨a, host, e, n + 1, (bits e 51 12 * 4096) / 2 ^ w * 2 ^ w + va % 2 ^ w⟩, ls)
      else
        match walkStage b stage2 va sys n (bits e 51 12 * 4096) with
        | .error e => .error e
        | .ok (l, ls') => .ok (l, ls ++ ls')

/-- The stage-2 walk of a guest-physical address. -/
def walk2 (m : Mem) (psn : Tbl Bool) (root gpa : Nat) : Except Miss Leaf :=
  (walkStage (fun _ => ⟨m, psn⟩) true gpa (fun a => .ok (a, false, [])) 5 root).map (·.1)

/-- The permission checks on one leaf (R218 step 3). -/
def leafDenies (want : Want) (stage2 : Bool) (l : Leaf) : Option Miss :=
  if want.w && !bit l.e 2 then some (.perm (walkDetail 2 stage2 l.lvl))
  else if want.x && !bit l.e 3 then some (.perm (walkDetail 3 stage2 l.lvl))
  else if want.u && !bit l.e 4 then some (.perm (walkDetail 4 stage2 l.lvl))
  else none

/-- A translation with its effective attributes (R216). -/
structure Place where
  pa   : Nat
  gen  : BitVec 16
  host : Bool
  atom : Nat
  cm   : Bool
  prm  : Bool
  deriving DecidableEq, Repr

/-- A walk that succeeded: the leaves of both stages, and the stage-2 leaves of the tables it read. -/
structure Walked where
  l1 : Leaf
  l2 : Option Leaf
  tables : List Leaf

/-- The walk of a virtual address in a space (R216, R218). -/
def State.walk (s : State) (space va : Nat) (want : Want) : Except Miss Walked :=
  let check := fun (l1 : Leaf) (l2 : Option Leaf) (ts : List Leaf) =>
    match leafDenies want false l1, l2.bind (leafDenies want true) with
    | some e, _ => Except.error e
    | none, some e => .error e
    | none, none => .ok (⟨l1, l2, ts⟩ : Walked)
  if space = pfSpace then
    match walkStage s.bank false va (fun a => .ok (a, false, [])) 5 Config.pfRoot with
    | .error e => .error e
    | .ok (l1, _) => check l1 none []
  else
    match s.vdev? space with
    | none => .error (.xlate1 (walkDetail 0 false 5))
    | some d =>
      let sys := fun gpa => (walk2 s.mem s.memPsn d.s2root gpa).map fun l => (l.out, entryHost l.e, [l])
      match walkStage s.bank false va sys 5 d.s1root with
      | .error e => .error e
      | .ok (l1, ts) =>
        match walk2 s.mem s.memPsn d.s2root l1.out with
        | .error e => .error e
        | .ok l2 => check l1 (some l2) ts

/-- Bits of an entry's low byte set by the walker. -/
def markEntry (m : Mem) (a mask : Nat) : Mem := mset m a (mget m a ||| BitVec.ofNat 8 mask)

/-- The walker sets bits of an entry by an atomic update at its home, and never rewrites a bit that is 1 (R215): an entry in host
memory by an AtomicOp of the I/O die (R247). -/
def State.markLeaf (s : State) (vd mask : Nat) (l : Leaf) : State :=
  if l.host then
    let old := readNat s.hostMem l.addr 8
    let m := markEntry s.hostMem l.addr mask
    { s with hostMem := m,
             hostOut := s.hostOut ++ (if readNat m l.addr 8 = old then [] else
               [HostOut.atomicOp .cas l.addr 8 (BitVec.ofNat 128 (readNat m l.addr 8)) (BitVec.ofNat 128 old)]) }
  else
    let m := markEntry s.mem l.addr mask
    let s := s.touchLine vd l.addr (mget m l.addr != mget s.mem l.addr)
    { s with mem := m }

/-- The walker sets A on every leaf it used, and DRT on the leaves of a written place (R215). -/
def State.markWalk (s : State) (vd : Nat) (w : Walked) (want : Want) : State :=
  let s := w.tables.foldl (State.markLeaf · vd 0x40 ·) s
  (w.l1 :: w.l2.toList).foldl (State.markLeaf · vd (if want.w then 0x60 else 0x40) ·) s

/-- The TLB entry of a walk: the smaller of both pages; writes may use it once DRT is set (R215, R216, R219). -/
def Walked.entry (w : Walked) (s : State) (space va : Nat) (want : Want) : TlbEntry :=
  let e1 := w.l1.e
  let e2 := match w.l2 with | some l => l.e | none => e1
  let b := match w.l2 with | some l => Nat.min (leafBits e1 w.l1.lvl) (leafBits l.e l.lvl) | none => leafBits e1 w.l1.lvl
  let out := match w.l2 with | some l => l.out | none => w.l1.out
  let atom := if bits e2 59 58 ≠ 0 && w.l2.isSome then bits e2 59 58 else bits e1 59 58
  { first := true, unit := 0, space := space, va := va / 2 ^ b * 2 ^ b, size := 2 ^ b, pa := out - va % 2 ^ b,
    w := bit e1 2 && bit e2 2 && (want.w || (bit e1 5 && bit e2 5)), x := bit e1 3 && bit e2 3, u := bit e1 4 && bit e2 4,
    atom := BitVec.ofNat 2 atom, cm := w.l2.isSome && bit e2 57, prm := bit e1 56,
    host := atom = 1 || (w.l2.isSome && bit e2 9), gen := s.gen space }

/-! #### What a walk reads (R198, R218) -/

/-- The entries in device memory that one stage of a walk reads. `sys` gives those that the translation of an entry's address reads, and the
place it comes to. -/
def walkReads (b : Bool → Bank) (stage2 : Bool) (va : Nat) (sys : Nat → List Nat × Option (Nat × Bool)) : (n table : Nat) → List Nat
  | 0, _ => []
  | n + 1, table =>
    let x := sys (table + 8 * (va / 2 ^ (12 + 9 * n) % (if stage2 && n = 4 then 16 else 512)))
    match x.2 with
    | none => x.1
    | some (a, host) =>
      let e := readNat (b host).m a 8
      let down := bit e 0 && !bit e 7 && !entryBad stage2 (n + 1) e && !anyPsn (b host).psn a 8
      x.1 ++ (if host then [] else [a]) ++ (if down then walkReads b stage2 va sys n (bits e 51 12 * 4096) else [])

/-- The entries in device memory that the walk of a virtual address reads. -/
def State.walkReads (s : State) (space va : Nat) : List Nat :=
  if space = pfSpace then Machine.walkReads s.bank false va (fun a => ([], some (a, false))) 5 Config.pfRoot
  else match s.vdev? space with
    | none => []
    | some d =>
      let two := fun (gpa : Nat) => Machine.walkReads (fun _ => ⟨s.mem, s.memPsn⟩) true gpa (fun a => ([], some (a, false))) 5 d.s2root
      let sys := fun (gpa : Nat) =>
        (two gpa, match walk2 s.mem s.memPsn d.s2root gpa with | .ok l => some (l.out, entryHost l.e) | .error _ => none)
      let out := walkStage s.bank false va
        (fun gpa => (walk2 s.mem s.memPsn d.s2root gpa).map fun l => (l.out, entryHost l.e, [])) 5 d.s1root
      Machine.walkReads s.bank false va sys 5 d.s1root ++ match out with | .ok (l, _) => two l.out | .error _ => []

/-- The walker reads its entries at their home slices. -/
def State.readTables (s : State) (space va : Nat) : State :=
  (s.walkReads space va).foldl (fun s a => s.touchLine space a false) s

/-! ### TLBs (R219) -/

/-- The entry serves an access. -/
def TlbEntry.hits (e : TlbEntry) (gen : BitVec 16) (space va : Nat) (want : Want) : Bool :=
  e.space == space && e.va ≤ va && va < e.va + e.size && e.gen == gen && (e.w || !want.w) && (e.x || !want.x) && (e.u || !want.u)

/-- The place an entry gives. -/
def TlbEntry.place (e : TlbEntry) (va : Nat) : Place := ⟨e.pa + (va - e.va), e.gen, e.host, e.atom.toNat, e.cm, e.prm⟩

/-- A new entry joins a TLB; the oldest entry leaves a TLB that is full. -/
def tlbFill (ts : List TlbEntry) (first : Bool) (unit cap : Nat) (e : TlbEntry) : List TlbEntry :=
  let mine := fun (x : TlbEntry) => x.first == first && x.unit == unit
  let ts := if cap ≤ (ts.filter mine).length then
      match ts.find? mine with | some x => ts.erase x | none => ts
    else ts
  ts ++ [{ e with first := first, unit := unit }]

/-- Cores of a cluster (R9). -/
def clusterOf (core : Nat) : Nat := core / 8

/-- Translation for an agent: a core's TLB, its cluster's TLB, then a walk that fills both; an agent of the I/O die walks (R219). -/
def State.translate (s : State) (core : Option Nat) (space va : Nat) (want : Want) : State × Except Miss Place :=
  let g := s.gen space
  let walk := fun (s : State) (fill : State → TlbEntry → State) =>
    let r := s.walk space va want
    let s := s.readTables space va
    match r with
    | .error e => (s, Except.error e)
    | .ok w =>
      let e := w.entry s space va want
      (fill (s.markWalk space w want) e, .ok (e.place va))
  match core with
  | none => walk s fun s _ => s
  | some c =>
    match s.tlbs.find? fun e => e.first && e.unit == c && e.hits g space va want with
    | some e => (s, .ok (e.place va))
    | none =>
      let s := s.countEvent c 6 1
      match s.tlbs.find? fun e => !e.first && e.unit == clusterOf c && e.hits g space va want with
      | some e => ({ s with tlbs := tlbFill s.tlbs true c 256 e }, .ok (e.place va))
      | none =>
        walk s fun s e => { s with tlbs := tlbFill (tlbFill s.tlbs true c 256 e) false (clusterOf c) 8192 e }

/-- TLB entries that satisfy `p` are invalidated (R220). -/
def State.dropTlb (s : State) (p : TlbEntry → Bool) : State := { s with tlbs := s.tlbs.filter fun e => !p e }

/-- A translation in hand is given up: the access translates again. -/
def Phase.retry : Phase → Phase
  | .ready .. => .untranslated
  | p => p

/-- The space a promise operation is translated in. -/
def State.promSpace (s : State) (p : PromOp) : Nat :=
  match p.who with
  | .course c .. => match s.truss? c.truss with | some t => t.space | none => p.vd
  | .queue _ => p.vd

/-- Accesses of a space that are in flight give up their translations (R196): those that a home has not performed yet. -/
def State.retryFlight (s : State) (space : Nat) : State :=
  let ofTruss := fun (n : Nat) => match s.truss? n with | some t => t.space == space | none => false
  { s with
    accesses := s.accesses.map fun a =>
      if !a.scratch && ofTruss a.who.truss then
        { a with parts := a.parts.map fun p => if p.got.isEmpty then { p with phase := p.phase.retry } else p }
      else a,
    proms := s.proms.map fun p =>
      if s.promSpace p == space then
        { p with phase := p.phase.retry, phase2 := p.phase2.retry, waiting := p.waiting.filter (·.2) }
      else p }

/-- A space's generation is raised; every 32,768 raises its TLB entries are invalidated, and its accesses in flight are drained: none
keeps a tag that a later generation could match (R196). -/
def State.raiseGen (s : State) (vd : Nat) : State :=
  match s.vdev? vd with
  | none => s
  | some d =>
    let s := s.modVdev vd fun d => { d with gen := d.gen + 1, genRaises := (d.genRaises + 1) % 32768 }
    if d.genRaises + 1 = 32768 then (s.dropTlb fun e => e.space == vd).retryFlight vd else s

/-- Words of a core's instruction cache that `p` picks leave it; a course of the core may have fetched them already (R266, R267). -/
def State.dropIcache (s : State) (core : Nat) (p : ICell → Bool) : State :=
  let out := s.icache.filter fun x => x.core == core && p x
  if out.isEmpty then s
  else
    { s with
      icache := s.icache.filter fun x => !(x.core == core && p x),
      trusses := s.trusses.map fun t =>
        if t.place = .onCore core then
          let mine := out.filter fun x => x.space == t.space
          { t with courses := t.courses.map fun k =>
              if k.cstate = .resident then
                { k with ahead := (k.ahead.filter fun y => !mine.any fun x => x.va == y.va) ++ mine }
              else k }
        else t }

/-- The accesses in flight, by number and part, whose translation an invalidated entry may have given: `used core space va` (R220). -/
def State.flightOf (s : State) (used : Nat → Nat → Nat → Bool) : List (Nat × Nat) :=
  let at_ := fun (c : CRef) (va : Nat) => match s.truss? c.truss with | some t => used t.core t.space va | none => false
  let ofAccess := fun (a : Access) =>
    if a.scratch then []
    else a.parts.zipIdx.filterMap fun x => if x.1.phase.flying && at_ a.who x.1.va then some (a.id, x.2) else none
  let ofProm := fun (p : PromOp) => match p.who with
    | .course c .. =>
      (if p.phase.flying && at_ c p.va then [(p.id, 0)] else []) ++
      (match p.op with | .pequ b => if p.phase2.flying && at_ c b then [(p.id, 1)] else [] | _ => [])
    | .queue _ => []
  (s.accesses.map ofAccess ++ s.proms.map ofProm).flatten

/-! ### Event records (R389, R397, R438) -/

/-- Host-bus writes of a list of 8-byte words. -/
def wordBytes (ws : List W64) : List Byte := (ws.map fun w => natBytes 8 w.toNat).flatten

/-- The event ring's records: 2 to the n; none while EVSIZE holds no legal n (R389). -/
def State.evRoom (s : State) : Bool :=
  let n := bits s.evSize.toNat 4 0
  7 ≤ n && n ≤ 16 && (s.evTail - s.evHead).toNat < 2 ^ n

/-- A posted write of the physical function to a host address leaves. -/
def State.pfPut (s : State) (addr : Nat) (data : List Byte) : State :=
  { s with pfHost := writeBytes s.pfHost addr data, hostOut := s.hostOut ++ [HostOut.write addr data] }

/-- A posted write of the physical function to a host address; it waits while the host port is not trained (R471). -/
def State.pfWrite (s : State) (addr : Nat) (data : List Byte) : State :=
  if s.hostUp then s.pfPut addr data else { s with hostWait := s.hostWait ++ [(addr, data)] }

/-- The host port has trained: the writes that waited leave in their order (R471). -/
def State.hostTrained (s : State) : State :=
  s.hostWait.foldl (fun s x => s.pfPut x.1 x.2) { s with hostUp := true, hostWait := [] }

/-- Waiting event records leave while the ring has room. -/
def State.flushEvents (s : State) : Nat → State
  | 0 => s
  | k + 1 =>
    match s.evWait with
    | r :: rs =>
      if s.evRoom then
        (({ s with evWait := rs, evTail := s.evTail + 1 } : State).pfWrite
          (s.evBase.toNat + 32 * (s.evTail.toNat % 2 ^ bits s.evSize.toNat 4 0)) (wordBytes [r.w0, r.w1, r.w2, r.w3])).flushEvents k
      else s
    | [] => s

/-- An event record is written, or waits for room (R397). -/
def State.postEvent (s : State) (kind die vdid extra : Nat) (w2 w3 : W64) : State :=
  let w0 := BitVec.ofNat 64 (kind + die % 256 * 2 ^ 8 + vdid % 512 * 2 ^ 16 + extra)
  ({ s with evWait := s.evWait ++ [(⟨w0, s.dieCtr die, w2, w3⟩ : Cause)] }).flushEvents (s.evWait.length + 1)

/-- "No device" in an event record (R438). -/
def noVd : Nat := 0x1FF

/-! ### Waiting on faults (R218, R396, R397, R472) -/

/-- The agent an access is made for, as a fault record names it (R472). -/
structure Agent where
  die  : Nat
  kind : Nat
  core : Nat
  slot : Nat
  deriving DecidableEq, Repr

/-- The fault's wait is that of a page named by its stage, or of a 64 KiB unit in host memory (R244, R396, R397). -/
def FaultWait.on (f : FaultWait) (space : Nat) (stage2 paging : Bool) (addr : Nat) : Bool :=
  let unit := if paging then 65536 else 4096
  f.space == space && f.stage2 == stage2 && f.paging == paging && f.addr / unit == addr / unit

/-- A fault waits to be passed on; one on a page that a fault of its die, or one passed on, already waits on joins it (R221, R244, R396,
R397). -/
def State.noteFault (s : State) (ag : Agent) (space : Nat) (stage2 paging : Bool) (addr detail : Nat) : State :=
  if s.faults.any fun f => f.on space stage2 paging addr && (f.passed || f.die == ag.die) then s
  else { s with faults := s.faults ++ [⟨space, stage2, addr, detail, ag.die, ag.kind, ag.core, ag.slot, paging, false⟩] }

/-- A walk has met a poisoned table entry (R437). -/
def State.poisonedEntry (s : State) (ag : Agent) (space a : Nat) : State :=
  s.postEvent 0x21 ag.die (if space < 512 then space else noVd) 0 (BitVec.ofNat 64 (3 + s.homeOf a * 2 ^ 8)) (BitVec.ofNat 64 a)

/-- A translation for an agent. `Phase.ready` is success; else where the access now stands. The attributes of a success come
beside it. -/
def State.reach (s : State) (ag : Agent) (space va : Nat) (want : Want) : State × Phase × Option Place :=
  match s.translate (if ag.core < 192 then some ag.core else none) space va want with
  | (s, .ok p) => (s, .ready p.pa p.gen p.host, some p)
  | (s, .error (.xlate1 d)) => (s.noteFault ag space false false va d, .wait1 va, none)
  | (s, .error (.xlate2 gpa d)) => (s.noteFault ag space true false gpa d, .wait2 gpa, none)
  | (s, .error (.paging gpa)) => (s.noteFault ag space true true gpa 0, .paging gpa, none)
  | (s, .error (.perm d)) => (s, .failed 0x13 d, none)
  | (s, .error (.psn a)) => (s.poisonedEntry ag space a, .failed 0x13 0xA8, none)

/-- The same for an access that may have lost its course to a kill: a replayable fault is then discarded, not recorded (R409). -/
def State.reachIf (s : State) (live : Bool) (ag : Agent) (space va : Nat) (want : Want) : State × Phase × Option Place :=
  if live then s.reach ag space va want
  else match s.translate (if ag.core < 192 then some ag.core else none) space va want with
    | (s, .ok p) => (s, .ready p.pa p.gen p.host, some p)
    | (s, .error (.perm d)) => (s, .failed 0x13 d, none)
    | (s, .error (.psn a)) => (s.poisonedEntry ag space a, .failed 0x13 0xA8, none)
    | (s, .error _) => (s, .failed 0x12 0, none)

/-- The agent of a course (R472). -/
def Truss.agent (t : Truss) (k : Course) (kind : Nat) : Agent := ⟨dieOf t.core, kind, t.core, k.slot⟩

/-- An access is waiting for a fault to be serviced. -/
def Phase.waits : Phase → Bool
  | .wait1 _ | .wait2 _ | .paging _ => true
  | _ => false

/-- A wait ends when its page is named: the walk runs again, or the access ends in PERM with DETAIL 0 (R396, R397). -/
def Phase.resolve (p : Phase) (sel : Phase → Bool) (abort : Bool) : Phase :=
  if p.waits && sel p then if abort then .failed 0x13 0 else .untranslated else p

/-- The waits of a queue control block end; a FAULTED thread returns to RUNNING (R353). -/
def Qcb.resolve (b : Qcb) (sel : Phase → Bool) (abort : Bool) : Qcb :=
  let st := if b.st = .faulted ∧ b.wait.waits ∧ sel b.wait then QState.running else b.st
  { b with wait := b.wait.resolve sel abort, hwait := b.hwait.resolve sel abort, st := st,
           infl := b.infl.map fun p => { p with wait := p.wait.resolve sel abort } }

/-- The waits of a truss's courses and entries end. -/
def Truss.resolve (t : Truss) (sel : Phase → Bool) (abort : Bool) : Truss :=
  let q := fun (e : QEntry) => { e with wait := e.wait.resolve sel abort }
  { t with courses := t.courses.map fun k => { k with fetch := k.fetch.resolve sel abort },
           matQ := t.matQ.map q, copyQ := t.copyQ.map q, netQ := t.netQ.map q }

/-- The waits of an access end. -/
def Access.resolve (a : Access) (sel : Phase → Bool) (abort : Bool) : Access :=
  { a with parts := a.parts.map fun p => { p with phase := p.phase.resolve sel abort } }

/-- Every wait of a space that `sel` picks ends (R396, R397, R244). -/
def State.resolve (s : State) (space : Nat) (sel : Phase → Bool) (abort : Bool) : State :=
  let ofTruss := fun (n : Nat) => match s.truss? n with | some t => t.space == space | none => false
  { s with
    accesses := s.accesses.map fun a => if ofTruss a.who.truss then a.resolve sel abort else a,
    proms := s.proms.map fun p =>
      if s.promSpace p == space then { p with phase := p.phase.resolve sel abort, phase2 := p.phase2.resolve sel abort } else p,
    trusses := s.trusses.map fun t => if t.space == space then t.resolve sel abort else t,
    cores := s.cores.map fun (c : Core) =>
      { c with amsgs := c.amsgs.map fun m => if m.vd.val == space then { m with wait := m.wait.resolve sel abort } else m },
    launches := s.launches.map fun l => if l.vd.val == space then { l with wait := l.wait.resolve sel abort } else l,
    qcbs := s.qcbs.map fun e => if e.2.vd.val == space then (e.1, e.2.resolve sel abort) else e,
    inbound := s.inbound.map fun i =>
      if i.x.dstEp.toNat % 512 == space then { i with wait := i.wait.resolve sel abort } else i }

end Sys2Proof.Machine
end

