-- ==== Sys2Proof/Machine/CourseEvents.lean ====
section
/-!
DEFINITION. The steps of courses other than words: completions of token operations, the ends of timed holds, debug requests, counters
and meters (08 R161, R166, R169, 09 R179, R198, R199). A step that is not due changes nothing (log 11).
-/
namespace Sys2Proof.Machine

/-! ### Token completion (R178 to R183) -/

/-- The operation whose count falls next on a token: the one issued first whose count has not fallen, once it has completed (R179). -/
def Course.nextFall (k : Course) (tk : Tok) : Option TokOp :=
  match k.ops.find? fun o => o.tk == tk && !o.fallen with
  | some o => if o.done then some o else none
  | none => none

/-- A result lands: in a lane that another word wrote too, the register ends with either value (R124; log 2). -/
def Course.landOp (k : Course) (tick : Nat) (o : TokOp) (w : RegVal) : Course :=
  let clash := fun l => o.clash.any fun c => c.name == w.name && (match w with | .g .. => true | _ => c.lanes.getLsbD l)
  let k := k.blend (fun l => !clash l || Config.pick tick (2048 * (o.id + 1) + w.name) l) w
  { k with psn := clearWords w k.psn }

/-- The count falls past an operation: its results and flags land, its status is applied (R179); an operation that ended in a fault
changes no register (R255). -/
def Course.fall (k : Course) (tick : Nat) (o : TokOp) : Course :=
  let k := if o.fault.isSome then k else o.writes.foldl (fun k w => k.landOp tick o w) k
  let tok := k.tok[o.tk]
  let k := { k with
    tok := k.tok.set o.tk ⟨tok.count - 1, if tok.status = 0 then o.status else tok.status⟩,
    fstat := if o.fault.isSome then k.fstat else k.fstat ||| o.flags }
  k.modOp o.id fun o => { o with fallen := true }

/-- A value read poisoned is consumed: the course is killed instead (R250, R437). -/
def tokenFall (s : State) (c : CRef) (tk : Tok) : State :=
  match s.course? c with
  | none => s
  | some k =>
    if k.cstate = .killed || k.cstate = .retired then s
    else match k.nextFall tk with
      | none => s
      | some o =>
        if o.poison && o.fault.isNone then s.killCourse c (s.courseCause c 0x15 0 (k.pc.zeroExtend 64) 0)
        else { s.setCourse c (k.fall s.tick o) with tick := s.tick + 1 }

def execTokenCompletion (c : CRef) (tk : Tok) (s : State) : Out := .next (tokenFall s c tk)

/-! ### Timed holds -/

/-- The hold `sel` picks ends; time has come to its end (R95, R161, R166). Only a course that is resident counts: the count of a parked
or stored one stands in its image (R52, R98). -/
def endHold (s : State) (c : CRef) (sel : Hold → Option Nat) : State :=
  match s.truss? c.truss, s.course? c with
  | some t, some k =>
    if !t.onCore || k.cstate != .resident then s
    else match sel k.hold with
      | some t => (s.advanceTo t).modCourse c fun k => { k with hold := .none }
      | none => s
  | _, _ => s

def execDlyExpiry (c : CRef) (s : State) : Out :=
  .next (endHold s c fun h => match h with | .dly t => some t | _ => none)

def execYieldExpiry (c : CRef) (s : State) : Out :=
  .next (endHold s c fun h => match h with | .yield t => some t | _ => none)

def execRegionGuardWaitExpiry (c : CRef) (s : State) : Out :=
  .next (endHold s c fun h => match h with | .guard t => some t | _ => none)

/-! ### Asynchronous requests, counters and meters -/

/-- A debug request waits until the course takes it (R50, R169). -/
def execDebugRequest (c : CRef) (s : State) : Out :=
  .next (match s.course? c with
    | some k => if k.cstate = .killed || k.cstate = .retired then s else s.modCourse c fun k => { k with debugPend := true }
    | none => s)

/-- Counter `k` of a core counts on while `n` cycles pass: the cycles, and the stalled, waiting and half-rate ones of its core (R199). -/
def execEventCounterOverflow (core : Nat) (k : Fin 8) (n : Nat) (s : State) : Out :=
  .next (
    let ec := vat (s.core core).ec k ⟨0, 0⟩
    let evt := bits ec.ctl.toNat 7 0
    if !ec.ctl.getLsbD 8 then s
    else if evt = 0 ∨ evt = 3 ∨ evt = 4 ∨ evt = 9 then s.advanceTo (s.clk + n)
    else s)

/-- The shares of cores and engines join a device's meters (R198). -/
def execMeterAccumulate (vd : Fin 512) (s : State) : Out := .next (s.modVdev vd VDev.accumulate)

end Sys2Proof.Machine
end

