-- ==== Sys2Proof/Machine/Layout.lean ====
section
/-!
DEFINITION. Layout entries and copy templates: their words, the checks of tensor words, and the places of elements; the other table
words (10 R201 to R214, R220, R221; 03 R60).
-/
namespace Sys2Proof.Machine

/-! ### Fields of layout entries (R203 to R205) -/

/-- A field of an entry: its word, its low bit, its width, and where it stands in gA. -/
structure FieldAt where
  word : Nat
  low  : Nat
  width : Nat
  at_  : Nat

def lyFields : LySel → List FieldAt
  | .base => [⟨0, 0, 57, 0⟩] | .space => [⟨0, 57, 2, 0⟩] | .format => [⟨0, 59, 5, 0⟩]
  | .ndim => [⟨1, 60, 3, 0⟩] | .bnd => [⟨1, 63, 1, 0⟩] | .swz => [⟨2, 20, 4, 0⟩, ⟨2, 24, 5, 4⟩]
  | .size0 => [⟨1, 0, 20, 0⟩] | .size1 => [⟨1, 20, 20, 0⟩] | .size2 => [⟨1, 40, 20, 0⟩] | .size3 => [⟨2, 0, 20, 0⟩]
  | .stride1 => [⟨2, 32, 32, 0⟩] | .stride2 => [⟨3, 0, 32, 0⟩] | .stride3 => [⟨3, 32, 32, 0⟩]
  | .word0 => [⟨0, 0, 64, 0⟩] | .word1 => [⟨1, 0, 64, 0⟩] | .word2 => [⟨2, 0, 64, 0⟩] | .word3 => [⟨3, 0, 64, 0⟩]

/-- The number of a selection (R204). -/
def lyCode : LySel → Nat
  | .base => 0 | .space => 1 | .format => 2 | .ndim => 3 | .bnd => 4 | .swz => 5
  | .size0 => 8 | .size1 => 9 | .size2 => 10 | .size3 => 11 | .stride1 => 13 | .stride2 => 14 | .stride3 => 15
  | .word0 => 16 | .word1 => 17 | .word2 => 18 | .word3 => 19

/-- The value is legal for its selection (R204, R205). -/
def lyLegal (s : LySel) (y : Nat) : Bool :=
  match s with
  | .base => bits y 63 57 == 0
  | .space => bits y 63 2 == 0
  | .format => y ≤ 13
  | .ndim => y ≤ 4
  | .bnd => bits y 63 1 == 0
  | .swz => bits y 63 9 == 0
  | .size0 | .size1 | .size2 | .size3 => bits y 63 20 == 0
  | .stride1 | .stride2 | .stride3 => bits y 63 32 == 0
  | .word0 => bits y 63 59 ≤ 13
  | .word1 => bits y 62 60 ≤ 4
  | .word2 => bits y 31 29 == 0
  | .word3 => true

/-- A bit mask of `width` bits from `low`. -/
def fieldMask (low width : Nat) : W64 := BitVec.ofNat 64 ((2 ^ width - 1) * 2 ^ low)

/-- The bits that a field write puts into a word, and their mask. -/
def FieldAt.bits (f : FieldAt) (y : Nat) : W64 × W64 :=
  (BitVec.ofNat 64 (y / 2 ^ f.at_ % 2 ^ f.width * 2 ^ f.low), fieldMask f.low f.width)

/-- A field as a read returns it (R205). -/
def FieldAt.read (f : FieldAt) (w : W64) : Nat := w.toNat / 2 ^ f.low % 2 ^ f.width * 2 ^ f.at_

def Layout.zero : Layout := Vector.replicate 4 0
def tplZero : Vector W64 2 := Vector.replicate 2 0

/-! ### Reading and writing the truss's tables (R207) -/

/-- The words of an entry as course `j` reads them: a write it has not observed may be read old, field by field (log 21). -/
def Truss.tabSeen {n : Nat} (t : Truss) (tick j : Nat) (tpl : Bool) (e : Nat) (ws : Vector W64 n) : Vector W64 n :=
  (List.range t.tabPend.length).foldr (fun i ws =>
    match t.tabPend[i]? with
    | some w =>
      if w.tpl == tpl && w.n == e && w.stale.getLsbD j && Config.pickTable tick i then
        vput ws w.word ((vat ws w.word 0 &&& ~~~ w.mask) ||| (w.old &&& w.mask))
      else ws
    | none => ws) ws

def Truss.layout (t : Truss) (tick j e : Nat) : Layout := t.tabSeen tick j false e (tget Layout.zero t.layouts e)
def Truss.template (t : Truss) (tick j e : Nat) : Vector W64 2 := t.tabSeen tick j true e (tget tplZero t.tpls e)

/-- The other courses of a truss. -/
def Truss.others (t : Truss) (j : Nat) : BitVec 16 := t.courseMask &&& ~~~ (BitVec.ofNat 16 (2 ^ j))

/-- The bits of a word that other courses have written with no order between those writes and one of course `j` of the masked bits, and that
the free value leaves as they are: of two writes to a field one value is left (R207; log 21). -/
def Truss.lostBits (t : Truss) (tick j : Nat) (tpl : Bool) (e word : Nat) (m : W64) : W64 :=
  (t.tabPend.zipIdx.filter fun x => x.1.tpl == tpl && x.1.n == e && x.1.word == word && x.1.writer != j && x.1.stale.getLsbD j &&
    Config.pickTable tick (4096 + x.2)).foldl (fun l x => l ||| (x.1.mask &&& m)) 0

/-- Course `j` writes bits of one word as one write: other courses may go on reading them as they were (log 21). -/
def Truss.putWord {n : Nat} (t : Truss) (tick j : Nat) (tpl : Bool) (e : Nat) (ws : Vector W64 n) (word : Nat) (m v : W64) :
    Truss × Vector W64 n :=
  let was := vat ws word 0
  let lost := t.lostBits tick j tpl e word m
  let old := (was &&& ~~~ lost) ||| (v &&& lost)
  ({ t with tabPend := coverWrites t.tabPend j tpl e word m ++ (if t.others j = 0 then [] else [⟨tpl, e, word, m, old, j, false, t.others j⟩]) },
   vput ws word ((was &&& ~~~ (m &&& ~~~ lost)) ||| (v &&& m &&& ~~~ lost)))

/-- Course `j` writes fields of an entry: those of one word are one write (R207). -/
def Truss.putFields {n : Nat} (t : Truss) (tick j : Nat) (tpl : Bool) (e : Nat) (ws : Vector W64 n) (fs : List FieldAt) (y : Nat) :
    Truss × Vector W64 n :=
  (fs.map (·.word)).dedup.foldl (fun x word =>
    let here := fs.filter fun f => f.word == word
    x.1.putWord tick j tpl e x.2 word (here.foldl (fun m f => m ||| fieldMask f.low f.width) 0) (here.foldl (fun v f => v ||| (f.bits y).1) 0)) (t, ws)

/-- Course `j` writes fields of a layout entry. -/
def Truss.putLayout (t : Truss) (tick j e : Nat) (fs : List FieldAt) (y : Nat) : Truss :=
  let x := t.putFields tick j false e (tget Layout.zero t.layouts e) fs y
  { x.1 with layouts := tset Layout.zero t.layouts e x.2 }

/-- Course `j` writes fields of a copy template. -/
def Truss.putTemplate (t : Truss) (tick j e : Nat) (fs : List FieldAt) (y : Nat) : Truss :=
  let x := t.putFields tick j true e (tget tplZero t.tpls e) fs y
  { x.1 with tpls := tset tplZero t.tpls e x.2 }

/-- The effect of `lyset` (R204, R205). -/
def lysetEffect (x : Ctx) (n : Fin 256) (op : LyOp) (a : GReg) : Res :=
  match op with
  | .clear =>
    let all : List FieldAt := [⟨0, 0, 64, 0⟩, ⟨1, 0, 64, 0⟩, ⟨2, 0, 64, 0⟩, ⟨3, 0, 64, 0⟩]
    .ok (x.s.setTruss x.c.truss (x.t.putLayout x.s.tick x.c.course n all 0))
  | .field sel =>
    let y := (x.r.gget a).toNat
    if lyLegal sel y then .ok (x.s.setTruss x.c.truss (x.t.putLayout x.s.tick x.c.course n (lyFields sel) y))
    else .trap 0x16 (0x10 + lyCode sel) 0

def execLyset (gd : Guard) (n : Fin 256) (op : LyOp) (a : GReg) (s : State) : Out :=
  .next (issue (.lyset gd n op a) s fun x => x.once gd fun _ => lysetEffect x n op a)

/-- Class 8 (R204). -/
def execLyget (gd : Guard) (d : GReg) (n : Fin 256) (sel : LySel) (s : State) : Out :=
  .next (issueCourse (.lyget gd d n sel) s fun x =>
    let e := x.t.layout x.s.tick x.c.course n
    x.lanewise gd 8 2 (.g d) fun _ => BitVec.ofNat 64 (((lyFields sel).map fun f => f.read (vat e f.word 0)).sum))

/-! ### Copy templates (R211, R212) -/

def tplFields : TplSel → List FieldAt
  | .src => [⟨0, 0, 8, 0⟩] | .dst => [⟨1, 40, 8, 0⟩] | .bar => [⟨0, 12, 4, 0⟩, ⟨0, 19, 1, 4⟩]
  | .cvt => [⟨1, 63, 1, 0⟩] | .mcast => [⟨1, 55, 8, 0⟩]
  | .ext0 => [⟨0, 20, 20, 0⟩] | .ext1 => [⟨0, 40, 20, 0⟩] | .ext2 => [⟨1, 0, 20, 0⟩] | .ext3 => [⟨1, 20, 20, 0⟩]
  | .word0 => [⟨0, 0, 64, 0⟩] | .word1 => [⟨1, 0, 64, 0⟩]

def tplCode : TplSel → Nat
  | .src => 0 | .dst => 1 | .bar => 2 | .cvt => 3 | .mcast => 4
  | .ext0 => 8 | .ext1 => 9 | .ext2 => 10 | .ext3 => 11 | .word0 => 16 | .word1 => 17

def tplLegal (s : TplSel) (y : Nat) : Bool :=
  match s with
  | .src | .dst | .mcast => bits y 63 8 == 0
  | .bar => bits y 63 5 == 0
  | .cvt => bits y 63 1 == 0
  | .ext0 | .ext1 | .ext2 | .ext3 => bits y 63 20 == 0
  | .word0 => bits y 63 60 == 0 && bits y 18 16 == 0 && bits y 11 8 == 0
  | .word1 => bits y 54 48 == 0

/-- The effect of `tplset` (R212). -/
def tplsetEffect (x : Ctx) (n : Fin 64) (op : TplOp) (a : GReg) : Res :=
  match op with
  | .clear => .ok (x.s.setTruss x.c.truss (x.t.putTemplate x.s.tick x.c.course n [⟨0, 0, 64, 0⟩, ⟨1, 0, 64, 0⟩] 0))
  | .field sel =>
    let y := (x.r.gget a).toNat
    if tplLegal sel y then .ok (x.s.setTruss x.c.truss (x.t.putTemplate x.s.tick x.c.course n (tplFields sel) y))
    else .trap 0x16 (0x10 + tplCode sel) 0

def execTplset (gd : Guard) (n : Fin 64) (op : TplOp) (a : GReg) (s : State) : Out :=
  .next (issue (.tplset gd n op a) s fun x => x.once gd fun _ => tplsetEffect x n op a)

/-- Class 8 (R212). -/
def execTplget (gd : Guard) (d : GReg) (n : Fin 64) (sel : TplSel) (s : State) : Out :=
  .next (issueCourse (.tplget gd d n sel) s fun x =>
    let e := x.t.template x.s.tick x.c.course n
    x.lanewise gd 8 2 (.g d) fun _ => BitVec.ofNat 64 (((tplFields sel).map fun f => f.read (vat e f.word 0)).sum))

/-! ### The fields of an entry as numbers -/

def Layout.fmt (e : Layout) : Nat := bits e[0].toNat 63 59
def Layout.space (e : Layout) : Nat := bits e[0].toNat 58 57
def Layout.base (e : Layout) : Nat := bits e[0].toNat 56 0
def Layout.bnd (e : Layout) : Bool := bit e[1].toNat 63
def Layout.ndim (e : Layout) : Nat := bits e[1].toNat 62 60
def Layout.size (e : Layout) (d : Nat) : Nat :=
  match d with | 0 => bits e[1].toNat 19 0 | 1 => bits e[1].toNat 39 20 | 2 => bits e[1].toNat 59 40 | _ => bits e[2].toNat 19 0
def Layout.stride (e : Layout) (d : Nat) : Nat :=
  match d with | 0 => 1 | 1 => bits e[2].toNat 63 32 | 2 => bits e[3].toNat 31 0 | _ => bits e[3].toNat 63 32
def Layout.smk (e : Layout) : Nat := bits e[2].toNat 28 24
def Layout.ssh (e : Layout) : Nat := bits e[2].toNat 23 20

/-- Bits of an element of a format (R59). -/
def fmtBits (f : Nat) : Nat :=
  match f with
  | 0 => 64 | 1 => 32 | 2 => 16 | 3 => 16 | 6 => 6 | 7 => 6 | 8 => 4 | 11 => 4 | 12 => 4 | _ => 8

/-- Bits of an element: 16 in scale space (R203). -/
def Layout.bits (e : Layout) : Nat := if e.space = 3 then 16 else fmtBits e.fmt

/-- The code an out-of-bounds element reads as (R208). -/
def Layout.zeroCode (e : Layout) : Nat := if e.space ≠ 3 && e.fmt = 13 then 0x77 else 0

/-! ### Checks of tensor words (R206) -/

/-- A LAYOUT fault: DETAIL and FADDR. -/
abbrev LayFault := Nat × W64

/-- The checks on an entry alone, 0x01 to 0x06. Of several that fail, the lowest DETAIL is raised (DESIGN CHOICE, log 90: R206 orders
elements, not the checks of one entry). -/
def Layout.check (e : Layout) (span : Nat) : Option LayFault :=
  let n := e.ndim
  let bad := (List.range 4).any fun d => if d < n then e.size d = 0 else e.size d ≠ 0 || (d ≠ 0 && e.stride d ≠ 0)
  if n = 0 then some (0x01, 0)
  else if bad then some (0x02, 0)
  else if e.space = 3 && e.fmt ≠ 0 then some (0x03, 0)
  else if e.smk ≠ 0 && e.space = 0 then some (0x04, 0)
  else if e.space = 0 && 16 ≤ e.bits && e.base % (e.bits / 8) ≠ 0 then some (0x05, 0)
  else if e.space = 2 && span ≤ Sys2Proof.bits e.base 56 54 then some (0x06, 0)
  else none

/-- A box of elements: start coordinates, extents, and the dimensions from the fastest. -/
structure Sweep where
  lo  : List Int
  ext : List Nat
  order : List Nat

def Sweep.lo' (w : Sweep) (d : Nat) : Int := (w.lo[d]?).getD 0
def Sweep.ext' (w : Sweep) (d : Nat) : Nat := (w.ext[d]?).getD 1

/-- The size a coordinate is held to: beyond NDIM only 0 is in bounds (R208). -/
def Layout.limit (e : Layout) (d : Nat) : Int := if d < e.ndim then e.size d else 1

/-- A coordinate vector is in bounds (R208). -/
def Layout.inside (e : Layout) (x : List Int) : Bool :=
  (List.range 4).all fun d => let c := (x[d]?).getD 0; 0 ≤ c && c < e.limit d

/-- The element index (R208). -/
def Layout.index (e : Layout) (x : List Int) : Nat :=
  ((List.range 4).map fun d => ((x[d]?).getD 0).toNat * e.stride d).sum

/-- First byte, and bytes, of element `i` from the entry's base (R60). -/
def Layout.bytes (e : Layout) (i : Nat) : Nat × Nat := (i * e.bits / 8, (i * e.bits % 8 + e.bits + 7) / 8)

/-- BASE within a portion (R208). -/
def Layout.offset (e : Layout) : Nat := if e.space = 2 then Sys2Proof.bits e.base 53 0 else e.base

/-- The element's last byte lies beyond the portion; the swizzle keeps it in its 128-byte row (R206, R209). -/
def Layout.beyond (e : Layout) (portion : Nat) (x : List Int) : Bool :=
  e.space ≠ 0 && portion < e.offset + (e.bytes (e.index x)).1 + (e.bytes (e.index x)).2

/-- The smallest number below `2 ^ n` above `b` for which a monotone `p` holds. -/
def leastFrom (p : Nat → Bool) : (n b : Nat) → Nat
  | 0, b => b
  | n + 1, b => if p (b + 2 ^ n - 1) then leastFrom p n b else leastFrom p n (b + 2 ^ n)

/-- Steps of the element order for one step of each dimension. -/
def Sweep.steps (w : Sweep) : List (Nat × Nat) :=
  (w.order.foldl (fun (acc : List (Nat × Nat) × Nat) d => (acc.1 ++ [(d, acc.2)], acc.2 * w.ext' d)) ([], 1)).1

/-- The first element that is out of bounds: its place in the element order, the lowest dimension it is out of, and its coordinate
there. -/
def Layout.firstOut (e : Layout) (w : Sweep) : Option (Nat × Nat × Int) :=
  match (List.range 4).find? fun d => w.lo' d < 0 || e.limit d ≤ w.lo' d with
  | some d => some (0, d, w.lo' d)
  | none => w.steps.findSome? fun (d, st) =>
      if e.limit d < w.lo' d + w.ext' d then some ((e.limit d - w.lo' d).toNat * st, d, e.limit d) else none

/-- The first element in bounds that lies beyond the portion, among those before place `n` of the order when the elements before
it are all in bounds. Offsets are monotone in every coordinate, so each offset is the least one, from the slowest dimension on. -/
def Layout.firstBeyond (e : Layout) (portion : Nat) (w : Sweep) : Option Nat :=
  let lo := fun d => max (w.lo' d) 0
  let hi := fun d => min (w.lo' d + w.ext' d) (e.limit d) - 1
  if (List.range 4).any fun d => hi d < lo d then none
  else if !e.beyond portion ((List.range 4).map hi) then none
  else
    let r := w.steps.foldr (fun (dst : Nat × Nat) (acc : List Int × Nat) =>
      let (d, st) := dst
      let at_ := fun (o : Nat) => acc.1.set d (min (lo d + o) (hi d))
      let o := leastFrom (fun o => e.beyond portion (at_ o)) 21 0
      (at_ o, acc.2 + (lo d + o - w.lo' d).toNat * st)) ((List.range 4).map hi, 0)
    some r.2

/-- The first faulting element of a sweep: its place, and the fault (R206, 0x00 and 0x07). -/
def Layout.firstBad (e : Layout) (portion : Nat) (w : Sweep) : Option (Nat × LayFault) :=
  if (List.range 4).any fun d => w.ext' d = 0 then none
  else
    let out := if e.bnd then e.firstOut w else none
    match out, e.firstBeyond portion w with
    | none, none => none
    | none, some k => some (k, (0x07, 0))
    | some (k, d, c), none => some (k, (0x00, BitVec.ofNat 64 (wrap 32 c * 2 ^ 32 + d)))
    | some (k, d, c), some b =>
      if b < k then some (b, (0x07, 0)) else some (k, (0x00, BitVec.ofNat 64 (wrap 32 c * 2 ^ 32 + d)))

/-- Scratchpad bytes of each truss of the launch (R235). -/
def Truss.portion (t : Truss) : Nat := bits t.items.part.toNat 33 24 * 4096

/-- All checks of R206 on one entry over one sweep. -/
def Layout.faults (e : Layout) (t : Truss) (w : Sweep) : Option LayFault :=
  match e.check t.items.span with
  | some f => some f
  | none => (e.firstBad t.portion w).map (·.2)

/-! ### Places of elements (R208, R209) -/

/-- Where an element lies: its space, the span member, the address of each of its bytes, the bit its code starts at, and its
bits. -/
structure Elem where
  global : Bool
  member : Nat
  bytes  : List Nat
  sh     : Nat
  width  : Nat

/-- The swizzle of R209. -/
def Layout.swizzle (e : Layout) (o : Nat) : Nat := o ^^^ (((o / 2 ^ (7 + e.ssh)) &&& e.smk) * 4)

/-- The place of the element at coordinates that are in bounds (R208, R60). `pos` is the truss's own span position. -/
def Layout.elem (e : Layout) (pos : Nat) (x : List Int) : Elem :=
  let i := e.index x
  let (b, n) := e.bytes i
  let addr := fun k => if e.space = 0 then (e.base + b + k) % 2 ^ 57 else e.swizzle (e.offset + b + k)
  { global := e.space = 0, member := if e.space = 2 then Sys2Proof.bits e.base 56 54 else pos,
    bytes := (List.range n).map addr, sh := i * e.bits % 8, width := e.bits }

/-- The code of an element in the bytes that hold it (R60). -/
def Elem.code (m : Elem) (bs : List Byte) : Nat := bytesNat bs / 2 ^ m.sh % 2 ^ m.width

/-- The bytes an element's code is written into, over the old ones: every other field of a byte keeps its value (R210). -/
def Elem.put (m : Elem) (old : List Byte) (code : Nat) : List Byte :=
  let o := bytesNat old
  natBytes old.length (o - o / 2 ^ m.sh % 2 ^ m.width * 2 ^ m.sh + code % 2 ^ m.width * 2 ^ m.sh)

/-- A coordinate register: a signed 32-bit value (R208). -/
def Course.coord (k : Course) (n : Nat) : Int := ((k.gget n).truncate 32 : W32).toInt

/-! ### Kernel-mode table words (R214, R220, R221) -/

/-- TLB entries in a scope (R220). -/
def TlbEntry.inScope (e : TlbEntry) (core : Nat) : TlbScope → Bool
  | .core => e.first && e.unit == core
  | .clu => if e.first then clusterOf e.unit == clusterOf core else e.unit == clusterOf core
  | .dev => true

/-- The effect of `tlbinv`: it is complete when the word issues, so a later fence finds nothing to wait for but accesses (R220). -/
def tlbinvEffect (x : Ctx) (m : TlbMode) (sc : TlbScope) : Res :=
  let space := fun (b : GReg) => (x.r.gget b).toNat % 1024
  let bad := match m with | .page _ b | .space b => decide (512 < space b) | .all => false
  if bad then .trap 0x01 0 0
  else
    let named := fun (e : TlbEntry) => match m with
      | .page a b => e.space == space b && e.va ≤ (x.r.gget a).toNat && (x.r.gget a).toNat < e.va + e.size
      | .space b => e.space == space b
      | .all => true
    let gone := x.s.tlbs.filter fun e => e.inScope x.t.core sc && named e
    let used := fun (core sp va : Nat) => gone.any fun e =>
      e.space == sp && e.va ≤ va && va < e.va + e.size && (if e.first then e.unit == core else e.unit == clusterOf core)
    let s := x.s.dropTlb gone.contains
    .ok (s.modCourse x.c fun k => { k with inval := k.inval ++ s.flightOf used })

def execTlbinv (gd : Guard) (m : TlbMode) (sc : TlbScope) (s : State) : Out :=
  .next (issue (.tlbinv gd m sc) s fun x => x.once gd fun _ => tlbinvEffect x m sc)

/-- The gate of a space on a die: opening it lets waiting faults pass (R221). -/
def execFgset (gd : Guard) (opn : Bool) (a : GReg) (s : State) : Out :=
  .next (issue (.fgset gd opn a) s fun x => x.once gd fun _ =>
    let space := (x.r.gget a).toNat % 1024
    if 512 < space then .trap 0x01 0 0
    else .ok { x.s with gates := tset false x.s.gates (513 * dieOf x.t.core + space) (!opn) })

/-- The handler binding of a launch: for its trusses on every core, and for those that start later (R213, R214). -/
def State.bindHandlers (s : State) (launch base cnt : Nat) : State :=
  let bind := fun (i : LaunchItems) => { i with tblBase := base, tblCnt := cnt }
  { s with trusses := s.trusses.map (fun t => if t.launch = launch then { t with items := bind t.items } else t),
           launches := s.launches.modify launch fun l => { l with items := bind l.items } }

/-- The effect of `hdlset`: it acts for the course whose batch record the die's service truss holds (R214, R468). MISALIGN
comes before the count's ILLEGAL_OP (DESIGN CHOICE, log 90), and nonzero bits [63:57] of gA are dropped (DESIGN CHOICE, log 91): R214 says
neither. -/
def hdlsetEffect (x : Ctx) (a b : GReg) : Res :=
  let base := (x.r.gget a).toNat
  let cnt := (x.r.gget b).toNat
  let caller := (tget? (vat x.s.svcTaken (dieOf x.t.core) []) x.c.course).bind fun r => x.s.truss? r.1.truss
  match caller with
  | none => .trap 0x01 0 0
  | some t =>
    if base % 8 ≠ 0 then .trap 0x02 0 (x.r.gget a)
    else if 256 < cnt then .trap 0x01 0 0
    else .ok (x.s.bindHandlers t.launch (base % 2 ^ 57) cnt)

def execHdlset (gd : Guard) (a b : GReg) (s : State) : Out :=
  .next (issue (.hdlset gd a b) s fun x => x.once gd fun _ => hdlsetEffect x a b)

end Sys2Proof.Machine
end

