-- ==== Sys2Proof/Machine/Access.lean ====
section
/-!
DEFINITION. Memory accesses after their issue: translation, the order of one course's accesses, what a home or an owning core does with
one part, and the completion of the access (09 R195, 11 R236 to R250, 12 R255 to R264, 14 R309 to R318).
-/
namespace Sys2Proof.Machine

/-! ### Values -/

/-- The new value of an atomic on `w` bits (R263). -/
def atomicNew (op : AOp) (w old a cmp : Nat) : Nat :=
  match op with
  | .add => (old + a) % 2 ^ w
  | .smin => if signed w a < signed w old then a else old
  | .smax => if signed w old < signed w a then a else old
  | .umin => Nat.min old a
  | .umax => Nat.max old a
  | .and => old &&& a
  | .or => old ||| a
  | .xor => old ^^^ a
  | .swap => a
  | .cas => if old = cmp then a else old
  | .fadd => let f := if w = 32 then fmtF32 else fmtF64; (fAdd f .rne (f.decode old) (f.decode a)).1

/-- New bytes over old ones where a mask has ones; beyond the mask the new ones. -/
def maskBytes : (old new mask : List Byte) → List Byte
  | o :: os, n :: ns, k :: ks => ((o &&& ~~~k) ||| (n &&& k)) :: maskBytes os ns ks
  | _, ns, _ => ns

/-- Bytes of a list replaced from place `i` on. -/
def patch (xs : List Byte) (i : Nat) (bs : List Byte) : List Byte := xs.take i ++ bs ++ xs.drop (i + bs.length)

/-- A write of `p`'s data at `a`: a poisoned word becomes clean when all 8 of its bytes are overwritten (R250). -/
def Bank.store (b : Bank) (p : Part) (a : Nat) (poison : Bool) : Bank :=
  ⟨writeBytes b.m a (maskBytes (readBytes b.m a p.size) p.data p.cmp),
   if poison || p.cmp.all (· == 0xFF) then psnWrite b.psn a p.size poison else b.psn⟩

/-- A read. -/
def Bank.load (b : Bank) (p : Part) (a : Nat) : Part :=
  { p with got := readBytes b.m a p.size, poison := anyPsn b.psn a p.size }

/-- An atomic: a poisoned word is not modified (R250, R264). -/
def Bank.atomic (b : Bank) (op : AOp) (p : Part) (a : Nat) : Bank × Part :=
  let q := b.load p a
  if q.poison then (b, q)
  else
    let x := atomicNew op (8 * p.size) (bytesNat q.got) (bytesNat p.data) (bytesNat p.cmp)
    (⟨writeBytes b.m a (natBytes p.size x), b.psn⟩, q)

/-! ### The L1 (R236) -/

/-- The key of a core's copy of a line. -/
def l1Key (core a : Nat) : Nat := a / 128 * 192 + core

/-- The L1 takes a copy of the line; one that is full replaces another line, and one that is not may (R10, R230; log 10). -/
def State.l1Fill (s : State) (core a : Nat) : State :=
  let b := a / 128 * 128
  let psn := BitVec.ofNat 16 (maskOf 16 fun i => tget false s.memPsn (b / 8 + i))
  let mine := s.l1.filter fun e => e.1 % 192 == core && e.1 != l1Key core a
  let i := Config.victim s.tick % (if Config.l1Lines ≤ mine.length then mine.length else mine.length + 1)
  { s with l1 := tput (match mine[i]? with | some x => tdel s.l1 x.1 | none => s.l1) (l1Key core a) ⟨readBytes s.mem b 128, psn⟩,
           tick := s.tick + 1 }

/-- The copy leaves the L1. -/
def State.l1Drop (s : State) (core a : Nat) : State := { s with l1 := tdel s.l1 (l1Key core a) }

/-- A store updates the copy when it is present. -/
def State.l1Patch (s : State) (core a : Nat) (p : Part) : State :=
  match tget? s.l1 (l1Key core a) with
  | some ln =>
    let old := (ln.data.drop (a % 128)).take p.size
    let psn := if p.size = 8 && p.cmp.all (· == 0xFF) then ln.psn &&& ~~~ (BitVec.ofNat 16 (2 ^ (a % 128 / 8))) else ln.psn
    { s with l1 := tput s.l1 (l1Key core a) ⟨patch ln.data (a % 128) (maskBytes old p.data p.cmp), psn⟩ }
  | none => s

/-- A part read from the copy. -/
def L1Line.read (ln : L1Line) (p : Part) (a : Nat) : Part :=
  { p with got := (ln.data.drop (a % 128)).take p.size, poison := ln.psn.getLsbD (a % 128 / 8) }

/-! ### Order among the accesses of one course -/

/-- Performed, or ended in a fault. -/
def Phase.settled : Phase → Bool
  | .performed | .failed .. => true
  | _ => false

/-- The physical address of a translated part. -/
def Phase.pa? : Phase → Option Nat
  | .ready pa .. => some pa
  | _ => none

def Access.pending (a : Access) : Bool := a.parts.any fun p => !p.phase.settled

/-- An acquire whose load is served at the home, and that invalidates the L1: at span scope or wider (R236, R314). -/
def homeAcq : Option Scope → Bool
  | some .spn | some .dev | some .fab | some .sys => true
  | _ => false

/-- A release that is a store toward agents it does not include, the host at least: its home may perform it before the course's earlier
accesses, and those it includes wait for them (R308; log 8). -/
def narrow : Option Scope → Bool
  | some .trs | some .spn | some .dev | some .fab => true
  | _ => false

/-- Two ranges share a byte. -/
def rangesMeet (a n b m : Nat) : Bool := a < b + m && b < a + n

/-- Two global parts may touch one byte: until both are translated, equal places within a page count (log 30). -/
def Part.meets (p q : Part) : Bool :=
  rangesMeet p.va p.size q.va q.size ||
  match p.phase.pa?, q.phase.pa? with
  | some a, some b => rangesMeet a p.size b q.size
  | _, _ => rangesMeet (p.va % 4096) p.size (q.va % 4096) q.size

/-- A held store does not keep the course's own later loads waiting: they see it (R442). -/
def sees (a b : Access) (q : Part) : Bool := a.kind == .load && b.kind == .store && q.phase == .held

/-- Member numbers of the scratchpads an access touches: those its parts name, or the course's own for `acp` (R253, R261). -/
def Access.member (b : Access) (pos : Nat) (q : Part) : Option Nat :=
  if b.scratch then some (q.va / 2 ^ 32) else match b.kind with | .copy _ => some pos | _ => none

/-- Earlier accesses of the course that are not settled. -/
def State.earlier (s : State) (a : Access) : List Access :=
  s.accesses.filter fun b => b.who == a.who && b.id < a.id && b.kind.ordered && b.pending

/-- Promise operations of the course issued earlier than number `n` that have not taken effect; waiters are none (R276). -/
def State.promisesBefore (s : State) (c : CRef) (n : Nat) : Bool :=
  s.proms.any fun p => p.id < n && p.waiting.isNone && match p.who with | .course d .. => d == c | .queue _ => false

/-- A `pwait` or `ptest` of the course issued earlier than number `n` has not completed: it may be an acquire (R307). -/
def State.acquiresBefore (s : State) (c : CRef) (n : Nat) : Bool :=
  s.proms.any fun p => p.id < n && strong p.acqScope && match p.who with | .course d .. => d == c | .queue _ => false

/-- A release that an access of the course issued before number `n` makes has not taken effect (R317). -/
def State.releasesBefore (s : State) (c : CRef) (n : Nat) : Bool :=
  (s.accesses.any fun a => a.who == c && a.id < n && strong a.rel) || s.early.any fun r => r.who == c && r.seq < n && s.open r

/-- The matrices of R317 to R321 keep this access behind one that is not settled. -/
def State.fenced (s : State) (a : Access) : Bool :=
  let es := s.earlier a
  es.any (fun b => strong b.acq) || s.acquiresBefore a.who a.id ||
  (strong a.rel && !narrow a.rel && (!es.isEmpty || s.promisesBefore a.who a.id)) ||
  (strong a.acq && (s.promisesBefore a.who a.id || s.releasesBefore a.who a.id))

/-! ### Releases toward those they include (R306, R308, R311) -/

/-- The instance of a scope of course `c` holds course `d` (R306). -/
def State.inScope (s : State) (sc : Scope) (c d : CRef) : Bool :=
  c == d || match sc with
    | .crs => false
    | .trs => c.truss == d.truss
    | .spn => (match s.truss? c.truss, s.truss? d.truss with | some t, some u => t.spanId == u.spanId | _, _ => false)
    | .dev | .fab => (match s.truss? c.truss, s.truss? d.truss with | some t, some u => t.space == u.space | _, _ => false)
    | .sys => true

/-- A release at device scope or wider, whose bytes a queue processor of its virtual device reads, comes before accesses that are still to
be performed: the queue processor's acquire waits (R306, R331). -/
def State.earlyHides (s : State) (vd space pa size : Nat) : Bool :=
  s.early.any fun r => r.space == space && rangesMeet pa size r.addr r.size && (r.scope == .dev || r.scope == .fab) && s.open r &&
    match s.truss? r.who.truss with | some t => t.ofVd vd | none => false

/-- A read of bytes that a narrow release has written waits, in an agent that the release includes, until the accesses it releases are
performed (R311). -/
def State.earlyAwaited (s : State) (a : Access) (space pa size : Nat) : Bool :=
  (match a.kind with | .load | .atomic _ | .copy _ => true | _ => false) &&
  s.early.any fun r => r.who != a.who && r.space == space && rangesMeet pa size r.addr r.size && s.inScope r.scope r.who a.who && s.open r

/-- What an access must come after, as a release: the earlier accesses and promise operations of its course (R308). -/
def State.needsOf (s : State) (a : Access) : List Nat :=
  (s.earlier a).map (·.id) ++
  (s.proms.filter fun p => p.id < a.id && p.waiting.isNone && match p.who with | .course d .. => d == a.who | .queue _ => false).map (·.id)

/-- A narrow release that comes before accesses of its course is noted where it becomes visible (R308, R311). -/
def State.showRelease (s : State) (a : Access) (space pa size : Nat) : State :=
  match a.rel with
  | some sc =>
    let needs := s.needsOf a
    { s with early := if narrow a.rel && !needs.isEmpty then s.early ++ [⟨a.who, sc, space, pa, size, needs, a.id⟩] else s.early }
  | none => s

/-- A write at its place: a narrow release that comes before accesses of its course is noted, an atomic hands on what it read, and a store
hides what it overwrites (R311). -/
def State.noteRelease (s : State) (a : Access) (space pa size : Nat) : State :=
  let kept := match a.kind with
    | .atomic _ => s.early
    | _ => s.early.filter fun r => !(r.space == space && pa ≤ r.addr && r.addr + r.size ≤ pa + size)
  ({ s with early := kept } : State).showRelease a space pa size

/-- The bytes of a global part are still awaited by an earlier one (R257). -/
def State.bytesAwaited (s : State) (a : Access) (i : Nat) (p : Part) : Bool :=
  (a.parts.take i).any (fun q => !q.phase.settled && p.meets q) ||
  (s.earlier a).any fun b => !b.scratch && b.parts.any fun q => !q.phase.settled && !sees a b q && p.meets q

/-- A scratchpad part of member `m` waits for the course's earlier accesses to that member, and for earlier lanes on its bytes
(R257, R317, R318). -/
def State.memberAwaited (s : State) (a : Access) (pos i : Nat) (p : Part) (m at_ : Nat) : Bool :=
  let place := fun (q : Part) => if a.scratch then q.va % 2 ^ 32 else q.dst
  (a.parts.take i).any (fun q => !q.phase.settled && a.member pos q == some m && rangesMeet at_ p.size (place q) q.size) ||
  (s.earlier a).any fun b => b.parts.any fun q => !q.phase.settled && !sees a b q && b.member pos q == some m

/-! ### Bytes that the course holds (R442) -/

/-- A load of a guarded course sees its own held stores, in issue order (R442). -/
def State.heldBytes (s : State) (a : Access) (p : Part) : Part :=
  let stores := ((s.earlier a).filter fun b => b.kind == .store && b.scratch == a.scratch).map (·.parts.filter (·.phase == .held))
  stores.flatten.foldl (fun p q =>
    { p with got := (List.range p.size).map fun i =>
        let j := p.va + i - q.va
        let old := (p.got[i]?).getD 0
        if q.va ≤ p.va + i && j < q.size then
          (maskBytes [old] [(q.data[j]?).getD 0] (q.cmp.drop j)).headD old
        else old }) p

/-! ### Completion -/

/-- An operation of a course has ended: with a fault, poison and a status for its token, or a fault to be delivered by R255. -/
def Course.endOp (k : Course) (op : Option Nat) (fault : Option LateFault) (writes : List RegVal) (poison : Bool)
    (status : BitVec 8) : Course :=
  match op, fault with
  | some id, some f => (k.modOp id fun o => { o with fault := some f }).completeOp id 0
  | some id, none => (k.modOp id fun o => { o with writes := writes, poison := poison }).completeOp id status
  | none, some f =>
    { k with late := k.late.takeWhile (·.seq < f.seq) ++ f :: k.late.dropWhile (·.seq < f.seq) }
  | none, none => k

/-- A 32-bit register's value from a lane's bytes (R256). -/
def sizedValue (z : Sz) (x : Nat) : Nat :=
  match z with
  | .n8 => x % 2 ^ 8 | .i8 => wrap 32 (signed 8 x) | .n16 => x % 2 ^ 16 | .i16 => wrap 32 (signed 16 x)
  | .b32 => x % 2 ^ 32 | .b64 => x % 2 ^ 64 | .b128 => x

/-- The value of `ldc` (R259). -/
def ldcValue (z : LdcSz) (x : Nat) : Nat :=
  match z with
  | .n8 => x % 2 ^ 8 | .i8 => wrap 64 (signed 8 x) | .n16 => x % 2 ^ 16 | .i16 => wrap 64 (signed 16 x)
  | .b32 => x % 2 ^ 32 | .b64 => x % 2 ^ 64

/-- The bytes that came back for a lane. -/
def Access.laneBytes (a : Access) (l : Nat) : Nat := bytesNat ((a.parts.filter (·.lane == l)).map (·.got)).flatten

/-- `n` registers from `d` with `f` giving each lane's value, register 0 in the low bits. -/
def runWrites (d : VReg) (n : Nat) (lanes : LaneMask) (f : Nat → Nat) : List RegVal :=
  (List.range n).filterMap fun i =>
    if h : d.val + i < 256 then some (.v ⟨d.val + i, h⟩ lanes (laneVec fun l => BitVec.ofNat 32 (f l / 2 ^ (32 * i)))) else none

/-- The code of element `j` of a lane: its bytes in order, its bit field from them (R60, R271). -/
def Access.laneCode (a : Access) (l j width : Nat) : Nat :=
  let ps := a.parts.filter fun p => p.lane == l && p.dst / 8 == j
  bytesNat (ps.map (·.got)).flatten / 2 ^ ((ps.head?.map (·.dst % 8)).getD 0) % 2 ^ width

/-- The registers of a lane after `ldl`, register 0 in the low bits: elements lie one after another, with 8 unused bits in each
register of the 6-bit formats (R271). -/
def Access.laneRun (a : Access) (l width n : Nat) : Nat :=
  let per := if width = 6 then 4 else 32 / width
  if per = 0 then ((List.range (n / 2)).map fun j => a.laneCode l j width * 2 ^ (64 * j)).sum
  else ((List.range (n * per)).map fun j => a.laneCode l j width * 2 ^ (32 * (j / per) + width * (j % per))).sum

/-- What a completed access writes (R256, R259, R264, R271). -/
def Access.writes (a : Access) : List RegVal :=
  match a.land_ with
  | .none => []
  | .v d z => runWrites d z.regs a.lanes fun l => sizedValue z (a.laneBytes l)
  | .g d z => [.g d (BitVec.ofNat 64 (ldcValue z (bytesNat (a.parts.map (·.got)).flatten)))]
  | .at_ d z => runWrites d z.regs a.lanes fun l => a.laneBytes l
  | .lay d w n _ => runWrites d n a.lanes fun l => a.laneRun l w n

/-- The fault of the first lane that has one, in lane order: the access of that lane changed nothing (R255). Which lane's fault is raised is a
DESIGN CHOICE (log 90): R255 says only "the faulting address". -/
def Access.fault? (a : Access) : Option LateFault :=
  a.parts.findSome? fun p => match p.phase with
    | .failed cause detail => some ⟨cause, detail, BitVec.ofNat 64 p.va, a.id⟩
    | _ => none

/-- The status of an access without a fault: POISONED for data moved poisoned into memory or left so by `red`, else DROP (R181,
R261, R264). -/
def Access.status (a : Access) : BitVec 8 :=
  if a.land_ == .none && a.parts.any (·.poison) then 6 else if a.drop then 4 else 0

/-- An access with no part left is complete: an acquire takes effect, and the operation ends (R236, R255, R259). -/
def State.settle (s : State) (a : Access) : State :=
  if a.pending then { s with accesses := s.accesses.map fun b => if b.id = a.id then a else b }
  else
    let s := { s with accesses := s.accesses.filter fun b => b.id != a.id }
    let fault := if a.kind.ordered || a.tokOp.isSome then a.fault? else none
    let s := if homeAcq a.acq && fault.isNone then
        match s.truss? a.who.truss with | some t => s.invalidateL1 t.core | none => s
      else s
    let s : State := { s with early := s.early.filter s.open }
    s.modCourse a.who fun k =>
      k.endOp a.tokOp fault a.writes (a.land_ != .none && a.parts.any (·.poison)) a.status

/-- Part `i` of an access changed. -/
def State.setPart (s : State) (a : Access) (i : Nat) (p : Part) : State := s.settle { a with parts := a.parts.set i p }

/-! ### Translation of a part -/

/-- The rights a part needs: a copy, a prefetch and a write-back read (R216, R218). -/
def AccKind.want (k : AccKind) (t : Truss) : Want :=
  ⟨match k with | .store | .atomic _ => true | _ => false, false, !t.kernelMode⟩

/-- The on-page checks of R255: promise pages, and atomics on FABRIC pages. -/
def placeDenies (k : AccKind) (pl : Place) : Option Nat :=
  match k with
  | .prefetch _ | .clean _ => none
  | .atomic _ => if pl.prm then some 0xA3 else if pl.atom = 2 then some 0xA1 else none
  | _ => if pl.prm then some 0xA3 else none

/-! ### Request slots and the turn at a slice (R240, R241) -/

/-- A request to a slice: the core it came from, what it is for, the line, and when it left its core. -/
structure Request where
  core : Nat
  id   : Nat
  line : Nat
  sent : Nat
  host : Bool
  deriving DecidableEq, Repr

/-- The requests for a part or a cell in flight, to a slice or, for a page in host memory, to the host port: one for each line of an access
(R240, R246). -/
def Phase.request (ph : Phase) (core id sent : Nat) : Option Request :=
  match ph with
  | .ready pa _ host => some ⟨core, id, pa / 128, sent, host⟩
  | _ => none

/-- The core of a course. -/
def State.coreOf (s : State) (c : CRef) : Nat := match s.truss? c.truss with | some t => t.core | none => 192

/-- The requests of an access that are in flight. -/
def State.accessRequests (s : State) (a : Access) : List Request :=
  if a.scratch then []
  else a.parts.filterMap fun p => if p.got.isEmpty then p.phase.request (s.coreOf a.who) a.id p.sent else none

/-- The requests of a promise operation that are in flight: a parked `pwait` has no reply yet, a repeating one has (R277). -/
def State.promRequests (s : State) (p : PromOp) : List Request :=
  match p.who, p.waiting with
  | .course _ .., some (_, false) | .queue _, _ => []
  | .course c .., _ => [p.phase, p.phase2].filterMap fun ph => ph.request (s.coreOf c) p.id p.sent

/-- The slots that the requests of a core hold: number, line and slice, none for one to the host (R240). -/
def State.requests (s : State) (core : Nat) : List (Nat × Nat × Option Nat) :=
  ((((s.accesses.map s.accessRequests) ++ s.proms.map s.promRequests).flatten.filter (·.core == core)).map
    fun r => (r.id, r.line, if r.host then none else some (s.homeFor (r.line * 128) r.sent))).dedup

/-- A core has a slot for a request to a line: that of its access, or a new one (R240). -/
def State.hasSlot (s : State) (core id pa : Nat) (host : Bool) : Bool :=
  let rs := s.requests core
  rs.any (fun r => r.1 == id && r.2.1 == pa / 128 && r.2.2.isNone == host) ||
  (rs.length < Config.coreSlots &&
    (host || (rs.filter fun r => r.2.2 == some (s.homeFor pa s.clk)).length < Config.sliceSlots))

/-- One part of a global access is translated, and its request leaves the core when a slot is free; a prefetch that finds no translation
is dropped (R240, R255, R260). -/
def State.translatePart (s : State) (a : Access) (i : Nat) (p : Part) (t : Truss) (k : Course) : State :=
  match a.kind with
  | .prefetch _ =>
    match s.translate (some t.core) t.space p.va (a.kind.want t) with
    | (s, .ok pl) =>
      s.setPart a i { p with sent := s.clk, phase :=
        if pl.prm then .performed else if s.hasSlot t.core a.id pl.pa pl.host then .ready pl.pa pl.gen pl.host else .untranslated }
    | (s, .error e) =>
      (match e with | .psn pte => s.poisonedEntry (t.agent k 0) t.space pte | _ => s).setPart a i { p with phase := .performed }
  | _ =>
    let r := s.reachIf (k.cstate != .killed) (t.agent k 0) t.space p.va (a.kind.want t)
    match r.2.2 with
    | some pl =>
      match placeDenies a.kind pl with
      | some d => r.1.setPart a i { p with phase := .failed 0x13 d }
      | none =>
        r.1.setPart a i { p with
          phase := if r.1.hasSlot t.core a.id pl.pa pl.host then r.2.1 else .untranslated, sent := s.clk,
          dst := match a.kind with | .atomic _ => pl.cm.toNat | _ => p.dst }
    | none => r.1.setPart a i { p with phase := r.2.1 }

/-! ### Parts performed -/

/-- The unit of an address and the side whose memory it lies in, as one number. -/
def unitKey (pa : Nat) (host : Bool) : Nat := pa / 65536 * 2 + host.toNat

/-- An atomic joins the last 4,096 of a COUNTER-MANAGED unit (R248). -/
def State.countAtomic (s : State) (pa : Nat) (inHost byHost : Bool) : State :=
  let k := unitKey pa inHost
  { s with cmCount := tset [] s.cmCount k ((byHost :: tget [] s.cmCount k).take 4096) }

/-- The host port asks the host for an atomic: as an AtomicOp of its kind, or, for any other operation, as a 64-bit CAS of the word
that holds it (R23, R247). -/
def State.askHost (s : State) (op : AOp) (pa : Nat) (p : Part) (b : Bank) : State :=
  let native := match op with | .add | .swap => p.size != 16 | .cas => true | _ => false
  let w := pa / 8 * 8
  let req := if native then HostOut.atomicOp op pa p.size (BitVec.ofNat 128 (bytesNat p.data)) (BitVec.ofNat 128 (bytesNat p.cmp))
    else HostOut.atomicOp .cas w 8 (BitVec.ofNat 128 (readNat b.m w 8)) (BitVec.ofNat 128 (readNat s.hostMem w 8))
  { s with hostMem := b.m, hostPsn := b.psn, hostOut := s.hostOut ++ [req] }

/-- A read of a global part: from the L1's copy, or at the home, which the L1 then copies; a copy that is older than what was read leaves
the L1 (R236, R310, R314). -/
def State.readPart (s : State) (a : Access) (t : Truss) (p : Part) (pa : Nat) (host : Bool) (srv : Serve) : State × Part :=
  let cached := if host || homeAcq a.acq then none else tget? s.l1 (l1Key t.core pa)
  match srv, cached with
  | .l1, some ln => (s, ln.read p pa)
  | _, _ =>
    let q := (s.bank host).load p pa
    if host then (s, q)
    else
      let s := (if homeAcq a.acq then s else s.countEvent t.core 5 1).touchRange t.space pa p.size false
      (if srv == .homeNoFill || homeAcq a.acq then s.l1Drop t.core pa else s.l1Fill t.core pa, q)

/-- The lines of a write-back within one page, written back where they are dirty, and dropped with INV (R269). -/
def State.cleanPart (s : State) (a : Access) (i : Nat) (p : Part) (pa : Nat) (host inv : Bool) (vd : Nat) : State :=
  let n := Nat.min p.size (4096 - p.va % 4096)
  let mine := fun (l : Nat) => !host && pa / 128 ≤ l && l * 128 < pa + n
  let s := s.addShare vd 3 (128 * (s.dirty.filter mine).length)
  let s : State := { s with dirty := s.dirty.filter fun l => !mine l, lines := s.lines.filter fun l => !(inv && mine l) }
  s.setPart a i { p with va := p.va + n, size := p.size - n, phase := if p.size = n then .performed else .untranslated }

/-- What the home does with one translated part. -/
def State.performGlobal (s : State) (a : Access) (i : Nat) (t : Truss) (p : Part) (pa : Nat) (host : Bool) (srv : Serve) : State :=
  let done := fun (s : State) (p : Part) => s.setPart a i { p with phase := .performed }
  match a.kind with
  | .load => let (s', q) := s.readPart a t p pa host srv; done s' (s'.heldBytes a q)
  | .copy _ => let (s', q) := s.readPart a t p pa host srv; s'.setPart a i q
  | .store =>
    if srv == .l1 then
      if host || (tget? s.l1 (l1Key t.core pa)).isNone then s
      else ((s.l1Patch t.core pa p).showRelease a 0 pa p.size).setPart a i { p with early := true }
    else
      let s' := (s.putBank t.space host pa p.size ((s.bank host).store p pa false)).noteRelease a host.toNat pa p.size
      done (if host then s' else s'.l1Patch t.core pa p) { p with early := false }
  | .atomic op =>
    let (b, q) := (s.bank host).atomic op p pa
    let s' := if q.poison then s else if host then s.askHost op pa p b else s.putBank t.space false pa p.size b
    let s' := (if host then s' else s'.l1Drop t.core pa).noteRelease a host.toNat pa p.size
    done (if p.dst = 1 then s'.countAtomic pa host false else s') q
  | .prefetch l1 =>
    let s' := if host then s else s.touchLine t.space pa false
    done (if l1 && !host then s'.l1Fill t.core pa else s') p
  | .clean inv => s.cleanPart a i p pa host inv t.space

/-- Bytes of `acp` land in the scratchpad and count on its barrier (R189, R261). -/
def State.landPart (s : State) (a : Access) (i : Nat) (p : Part) (bar : Option (Fin 16)) : State :=
  let s := s.modTruss a.who.truss fun t =>
    let b := (⟨t.scr, t.scrPsn⟩ : Bank).store { p with data := p.got, cmp := [] } p.dst p.poison
    let t := { t with scr := b.m, scrPsn := b.psn }
    match bar with | some n => t.landBytes n p.size | none => t
  s.setPart a i { p with phase := .performed }

/-- The truss at a span position (R30, R253). -/
def State.spanMember (s : State) (t : Truss) (m : Nat) : Option Nat :=
  (List.range s.trusses.length).find? fun n => match s.truss? n with
    | some u => u.spanId == t.spanId && u.spanPos == m && u.place != .gone
    | none => false

/-- What the owning core does with a scratchpad part: one sent to a member that has retired is dropped, and reads zero, or the zero
code that a layout load carries in `data` (R56, R309). -/
def State.performScratch (s : State) (a : Access) (i : Nat) (t : Truss) (p : Part) : State :=
  let m := p.va / 2 ^ 32
  let off := p.va % 2 ^ 32
  let owner := if m = t.spanPos then some a.who.truss else s.spanMember t m
  match owner.bind fun n => (s.truss? n).map fun u => (n, u) with
  | none =>
    let zero := if a.kind = .load && !p.data.isEmpty then p.data else List.replicate p.size 0
    s.setPart { a with drop := true } i { p with got := zero, phase := .performed }
  | some (n, u) =>
    let b : Bank := ⟨u.scr, u.scrPsn⟩
    let (b', q) := match a.kind with
      | .store => (b.store p off false, p)
      | .atomic op => b.atomic op p off
      | _ => (b, s.heldBytes a (b.load p off))
    let s := s.modTruss n fun u => { u with scr := b'.m, scrPsn := b'.psn }
    let s := match a.kind with | .load => s | _ => s.noteRelease a (2 + n) off p.size
    s.setPart a i { q with phase := .performed }

/-! ### One step of one part -/

/-- The course is out of its slot: what it has outstanding is recorded as not performed (R52). -/
def Course.away (k : Course) : Bool := k.cstate == .parked || k.cstate == .stored

/-! #### What keeps a part waiting -/

/-- Parts of the same lane. -/
def Access.mates (a : Access) (i : Nat) (p : Part) : List Part :=
  (a.parts.zipIdx.filter fun x => x.2 != i && x.1.lane == p.lane).map (·.1)

/-- A store of several parts in one lane changes memory only once none of them can end in PERM (R255). -/
def Access.laneAwaited (a : Access) (i : Nat) (p : Part) (gen : BitVec 16) : Bool :=
  a.kind == .store && (a.mates i p).any fun q => match q.phase with
    | .ready _ g _ => !a.scratch && g ≠ gen
    | q => !q.settled

/-- A part of the lane has ended in PERM: its other parts change nothing (R255). -/
def Access.laneFailed (a : Access) (i : Nat) (p : Part) : Bool :=
  (match a.kind with | .store | .copy _ => true | _ => false) &&
    (a.mates i p).any fun q => match q.phase with | .failed .. => true | _ => false

/-- The bytes of a lane's copy land together, once every part of them is read (R255, R261). -/
def Access.laneUnread (a : Access) (i : Nat) (p : Part) : Bool :=
  (a.mates i p).any fun q => !q.phase.settled && q.got.isEmpty

/-- A store of the core that its L1 holds already, and its home has not performed, lies in the line: until it is performed, agents of the
core read the line in the L1 only (R310, R313). -/
def State.lineAwaited (s : State) (core : Nat) (a : Access) (i pa : Nat) : Bool :=
  s.accesses.any fun b => s.coreOf b.who == core &&
    b.parts.zipIdx.any fun x => x.1.early && !(b.id == a.id && x.2 == i) &&
      match x.1.phase with | .ready q .. => q / 128 == pa / 128 | _ => false

/-- The L1 serves a load of a line that it holds, or takes the bytes of a store (R236, R314). -/
def State.l1Serves (s : State) (a : Access) (core pa : Nat) (host : Bool) : Bool :=
  !host && (tget? s.l1 (l1Key core pa)).isSome &&
    match a.kind with | .load | .copy _ => !homeAcq a.acq | .store => true | _ => false

/-- The scratchpad that member `m` of a truss's span owns, as a space number of `EarlyRel`. -/
def State.spanSpace (s : State) (c : CRef) (t : Truss) (m : Nat) : Nat :=
  2 + if m = t.spanPos then c.truss else (s.spanMember t m).getD 0

/-- A store that the core's L1 has shown to its truss is on its way to its home again: until then agents of the core do not read its bytes
(R195, R265). -/
def State.shownAwaited (s : State) (core : Nat) (a : Access) (p : Part) : Bool :=
  s.accesses.any fun b => b.id != a.id && s.coreOf b.who == core && b.parts.any fun q => q.early && !q.phase.settled &&
    (match q.phase with | .ready .. => false | _ => true) && p.meets q

/-- A translated part has to wait: for the course's earlier accesses, for its lane, for a narrow release that it reads, or for a store that
the core's L1 holds. -/
def State.partBlocked (s : State) (a : Access) (t : Truss) (i : Nat) (p : Part) (pa : Nat) (gen : BitVec 16) (host l1 : Bool) : Bool :=
  if a.scratch then
    s.fenced a || s.memberAwaited a t.spanPos i p (p.va / 2 ^ 32) (p.va % 2 ^ 32) ||
    s.earlyAwaited a (s.spanSpace a.who t (p.va / 2 ^ 32)) (p.va % 2 ^ 32) p.size
  else if !p.got.isEmpty then match a.kind with
    | .copy _ => a.laneUnread i p || s.memberAwaited a t.spanPos i p t.spanPos p.dst
    | _ => true
  else
    (a.kind.ordered && (s.fenced a || s.bytesAwaited a i p || s.earlyAwaited a host.toNat pa p.size || s.shownAwaited t.core a p)) ||
    a.laneAwaited i p gen ||
    (s.lineAwaited t.core a i pa && !(l1 && a.kind == .load && s.l1Serves a t.core pa host))

/-- A promise operation waits for earlier ones of its course that name a common cell, for an earlier acquire, and, as a release, for every
earlier access, release and acquiring `pwait` of another cell (R274, R276, R317; log 71). Until both are translated, cells at equal places within a page count as common. -/
def State.promAwaits (s : State) (p : PromOp) : Bool :=
  let cells := fun (p : PromOp) => (p.va, p.phase) :: match p.op with | .pequ b => [(b, p.phase2)] | _ => []
  let same := fun (x y : Nat × Phase) => match x.2.pa?, y.2.pa? with | some a, some b => a == b | _, _ => x.1 % 4096 == y.1 % 4096
  (s.proms.any fun q => q.id < p.id && (match q.who, p.who with
      | .course c .., .course d .. => c == d | .queue a, .queue b => a == b | _, _ => false) &&
    (let common := (cells q).any fun x => (cells p).any (same x)
     if q.waiting.isNone then (p.rel && (q.rel || strong q.acqScope)) || common else p.rel && strong q.acqScope && !common)) ||
  match p.who with
  | .course c .. =>
    (s.accesses.any fun a => a.who == c && a.id < p.id && a.kind.ordered && a.pending &&
      ((p.rel && (!p.relTrs || a.unseen)) || strong a.acq)) ||
    (strong p.acqScope && (s.releasesBefore c p.id))
  | .queue _ => false

/-! #### The turn at a slice (R241) -/

/-- Requests that a slice could serve now. -/
def State.waitingAt (s : State) (home : Nat) : List Request :=
  let ofAccess := fun (a : Access) =>
    match s.truss? a.who.truss, s.course? a.who with
    | some t, some k =>
      if k.away || a.scratch then []
      else a.parts.zipIdx.filterMap fun x => match x.1.phase with
        | .ready pa gen false =>
          if x.1.got.isEmpty && s.gen t.space == gen && !s.partBlocked a t x.2 x.1 pa gen false false then
            some (⟨t.core, a.id, pa / 128, x.1.sent, false⟩ : Request)
          else none
        | _ => none
    | _, _ => []
  let ofProm := fun (p : PromOp) => if p.waiting.isSome || s.promAwaits p then [] else s.promRequests p
  (((s.accesses.map ofAccess) ++ s.proms.map ofProm).flatten.filter fun r => !r.host && s.homeFor (r.line * 128) r.sent == home)

/-- It is the turn of a core's request at a slice: the oldest of those that have aged, and without one the next core in number order that
has a request waiting (R241). -/
def State.turn (s : State) (home core sent : Nat) : Bool :=
  let ws := s.waitingAt home
  let aged := ws.filter fun r => Config.agedCycles < s.clk - r.sent
  let last := (tget? s.sliceLast home).getD 191
  let dist := fun (c : Nat) => (c + 191 - last) % 192
  if aged.isEmpty then ws.all fun r => dist core ≤ dist r.core
  else decide (Config.agedCycles < s.clk - sent) && aged.all fun r => sent < r.sent || (sent == r.sent && core ≤ r.core)

/-- A slice has served a core. -/
def State.noteTurn (s : State) (home core : Nat) : State := { s with sliceLast := tput s.sliceLast home core }

/-- A store that the core's L1 had shown shows itself in the line that the L1 holds, now that its place is known again. -/
def State.showAgain (s : State) (core acc i : Nat) : State :=
  match (s.accesses.find? fun a => a.id == acc).bind fun a => a.parts[i]? with
  | some p => match p.phase with | .ready pa _ false => if p.early then s.l1Patch core pa p else s | _ => s
  | none => s

/-- One step of part `i` of an access: its translation, or its place in the order of its home; a stale generation is rejected and
translated again (R195, R238, R241, R309). -/
def State.homeStep (s : State) (acc i : Nat) (srv : Serve) : State :=
  match s.accesses.find? fun a => a.id == acc with
  | none => s
  | some a =>
    match a.parts[i]?, s.truss? a.who.truss, s.course? a.who with
    | some p, some t, some k =>
      if k.away then s
      else match p.phase with
      | .untranslated => (s.translatePart a i p t k).showAgain t.core acc i
      | .ready pa gen host =>
        if !a.scratch && p.got.isEmpty && s.gen t.space ≠ gen then
          ((if p.early then s.l1Drop t.core pa else s).countEvent t.core 8 1).setPart a i
            { p with phase := if k.cstate = .killed then .failed 0x14 0 else .untranslated }
        else if a.laneFailed i p then s.setPart a i { p with phase := .performed }
        else if s.partBlocked a t i p pa gen host (srv == .l1) then s
        else if a.scratch then s.performScratch a i t p
        else if !p.got.isEmpty then match a.kind with | .copy bar => s.landPart a i p bar | _ => s
        else if host || (srv == .l1 && s.l1Serves a t.core pa host) then s.performGlobal a i t p pa host srv
        else if s.turn (s.homeFor pa p.sent) t.core p.sent then
          (s.performGlobal a i t p pa host (if srv == .l1 then .home else srv)).noteTurn (s.homeFor pa p.sent) t.core
        else s
      | .failed .. => s.settle a
      | _ => s
    | _, _, _ => s

end Sys2Proof.Machine
end

