-- ==== Sys2Proof/Machine/Memory.lean ====
section
/-!
DEFINITION. The memory words: loads, stores, copies per lane, atomics, fences, code visibility, layout-addressed elements (12 R252 to
R271).
-/
namespace Sys2Proof.Machine

/-! ### Addresses and the checks at issue (R253, R254) -/

/-- The memory operand of an atomic: no offset (R262). -/
def atMem (m : AtOpnd) : MemOpnd := ⟨m.gb, m.vx, m.xe, 0⟩

/-- The effective address of a lane (R253). -/
def Course.ea (k : Course) (gb vx : Nat) (xe : Bool) (off : BitVec 13) (l : Nat) : Nat :=
  (k.gget gb + (if xe then (k.vget vx l).signExtend 64 else 0) + off.signExtend 64).toNat
def Course.eaOf (k : Course) (m : MemOpnd) (l : Nat) : Nat := k.ea m.gb m.vx m.xe m.off l

/-- The lowest lane that fails a check, with its fault (R254). -/
def laneFault (lanes : List Nat) (bad : Nat → Bool) (cause : Nat) (detail fa : Nat → Nat) : Option Res :=
  (lanes.find? bad).map fun l => .trap cause (detail l) (BitVec.ofNat 64 (fa l))

/-- Some fault, or the next check. -/
def orElse (a : Option Res) (b : Unit → Option Res) : Option Res := match a with | some r => some r | none => b ()

/-- The checks of a global access of `n` bytes (R254). -/
def globalFault (lanes : List Nat) (n : Nat) (ea : Nat → Nat) : Option Res :=
  orElse (laneFault lanes (fun l => ea l % n ≠ 0) 0x02 id ea) fun _ =>
    laneFault lanes (fun l => 2 ^ 57 ≤ ea l) 0x13 (fun _ => 0xA5) ea

/-- The checks of a scratchpad access of `n` bytes (R235, R254). -/
def scratchFault (t : Truss) (ssc : Bool) (lanes : List Nat) (n : Nat) (ea : Nat → Nat) : Option Res :=
  let off := fun l => if ssc then ea l % 2 ^ 32 else ea l
  orElse (laneFault lanes (fun l => ea l % n ≠ 0) 0x02 id ea) fun _ =>
  orElse (laneFault lanes (fun l => t.portion ≤ off l || (ssc && 2 ^ 35 ≤ ea l)) 0x13 (fun _ => 0xA0) off) fun _ =>
    laneFault lanes (fun l => ssc && t.items.span ≤ ea l / 2 ^ 32) 0x13 (fun _ => 0xA2) ea

/-! ### Sending an access -/

/-- One part of a lane; a scratchpad part needs no translation. -/
def mkPart (scr : Bool) (l va n : Nat) (data cmp : List Byte) (dst : Nat) : Part :=
  { lane := l, va := va, size := n, data := data, cmp := cmp, phase := if scr then .ready 0 0 false else .untranslated,
    got := [], poison := false, dst := dst, sent := 0, early := false }

/-- The parts of a lane's access of `n` bytes: 16 bytes are two pieces of 8 (R257). -/
def laneParts (scr : Bool) (l va n : Nat) (data : List Byte) (dst : Nat) : List Part :=
  if n = 16 then [mkPart scr l va 8 (data.take 8) [] dst, mkPart scr l (va + 8) 8 (data.drop 8) [] (dst + 8)]
  else [mkPart scr l va n data [] dst]

/-- An access kind whose effect a guarded course holds back (R442). -/
def AccKind.observable : AccKind → Bool
  | .store | .atomic _ | .copy _ => true
  | _ => false

/-- What a memory word sends. -/
structure Sent where
  tk    : Option Tok
  kind  : AccKind
  ssc   : Bool := false
  scratch : Bool := false
  acq   : Option Scope := none
  rel   : Option Scope := none
  parts : List Part
  land_ : Landing := .none
  lanes : LaneMask

/-- The registers that a load's bytes reach, by number. -/
def Landing.names : Landing → List Nat
  | .none => []
  | .v d z => List.range' d.val z.regs
  | .g d _ => [256 + d.val]
  | .at_ d z => List.range' d.val z.regs
  | .lay d _ n _ => List.range' d.val n

/-- THE ISSUE OF AN ACCESS: its operation counts on its token, and the access waits to be performed. Accesses to the truss's own
scratchpad are performed at once when nothing earlier is in the way (R309, R317); a guarded course's effects are held (R442). With
no executing lane there is no access, and the token completes OK (R88). -/
def Ctx.send (x : Ctx) (m : Sent) : Res :=
  if m.lanes = 0 then x.ok (match m.tk with | some tk => x.k.issueOp tk .nothing [] (dests := m.land_.names) | none => x.k)
  else
    let id := x.s.nextId
    let op := m.tk.map fun _ => x.k.nextOp
    let held := x.t.items.guarded && m.kind.observable
    let parts := if held then m.parts.map fun p => if p.phase.settled then p else { p with phase := .held } else m.parts
    let a : Access :=
      { id := id, who := x.c, tokOp := op, kind := m.kind, ssc := m.ssc, scratch := m.scratch, acq := m.acq, rel := m.rel,
        parts := parts, drop := false, inRegion := x.k.rgstate.getLsbD 63, land_ := m.land_, lanes := m.lanes }
    let k := match m.tk with | some tk => x.k.issueOp tk (.parts parts.length) a.writes | none => x.k
    let k := if held then { k with quarantine := k.quarantine ++ [⟨.access id, x.s.clk, op, id⟩] } else k
    let s := x.set k
    let s : State := { s with accesses := s.accesses ++ [a], nextId := id + 1 }
    let s := if a.pending then s else s.settle a
    let own := m.scratch && parts.all fun p => p.va / 2 ^ 32 = x.t.spanPos
    .ok (if own && !x.t.items.guarded then (List.range parts.length).foldl (fun s i => s.homeStep id i .home) s else s)

/-! ### Loads and stores (R256, R258, R259) -/

def szBytes : Sz → Nat | .n8 | .i8 => 1 | .n16 | .i16 => 2 | .b32 => 4 | .b64 => 8 | .b128 => 16
def ldcBytes : LdcSz → Nat | .n8 | .i8 => 1 | .n16 | .i16 => 2 | .b32 => 4 | .b64 => 8
def aszBytes : ASz → Nat | .b32 => 4 | .b64 => 8 | .b128 => 16

def ldAcq : LdSem → Option Scope | .rlx => none | .acq s => some s
def stRel : StSem → Option Scope | .rlx => none | .rel s => some s
def atAcq : AtSem → Option Scope | .acq s | .ar s => some s | _ => none
def atRel : AtSem → Option Scope | .rel s | .ar s => some s | _ => none

/-- The first `n` bytes of a run of v registers in a lane (R256). -/
def Course.runBytes (k : Course) (d n l : Nat) : List Byte :=
  (((List.range ((n + 3) / 4)).map fun i => natBytes 4 (k.vget (d + i) l).toNat).flatten).take n

/-- The address of a scratchpad part: its member in bits [34:32] (R253). -/
def scrAddr (t : Truss) (ssc : Bool) (ea : Nat) : Nat := if ssc then ea else t.spanPos * 2 ^ 32 + ea

/-- A load's or store's parts: `put` gives the bytes a lane stores. -/
def Ctx.spaceParts (x : Ctx) (scr ssc : Bool) (ex : LaneMask) (m : MemOpnd) (n : Nat) (put : Nat → List Byte) : List Part :=
  ((lanesIn ex).map fun l =>
    let ea := x.r.eaOf m l
    laneParts scr l (if scr then scrAddr x.t ssc ea else ea) n (put l) 0).flatten

/-- The checks of an access in its space. -/
def Ctx.spaceFault (x : Ctx) (scr ssc : Bool) (ex : LaneMask) (n : Nat) (ea : Nat → Nat) : Option Res :=
  if scr then scratchFault x.t ssc (lanesIn ex) n ea else globalFault (lanesIn ex) n ea

/-- The effect of `ld` and `lds`. -/
def loadEffect (x : Ctx) (gd : Guard) (tk : Tok) (d : VReg) (m : MemOpnd) (z : Sz) (sem : LdSem) (scr ssc : Bool) : Res :=
  let ex := x.r.exec gd
  match x.spaceFault scr ssc ex (szBytes z) (x.r.eaOf m) with
  | some f => f
  | none => x.send { tk := some tk, kind := .load, ssc := ssc, scratch := scr, acq := ldAcq sem,
                     parts := x.spaceParts scr ssc ex m (szBytes z) fun _ => [], land_ := .v d z, lanes := ex }

/-- The effect of `st` and `sts`. -/
def storeEffect (x : Ctx) (gd : Guard) (tk : Option Tok) (d : VReg) (m : MemOpnd) (z : Sz) (sem : StSem) (scr ssc : Bool) : Res :=
  let ex := x.r.exec gd
  match x.spaceFault scr ssc ex (szBytes z) (x.r.eaOf m) with
  | some f => f
  | none => x.send { tk := tk, kind := .store, ssc := ssc, scratch := scr, rel := stRel sem,
                     parts := x.spaceParts scr ssc ex m (szBytes z) (x.r.runBytes d (szBytes z)), lanes := ex }

def execLd (gd : Guard) (tk : Tok) (d : VReg) (m : MemOpnd) (z : Sz) (sem : LdSem) (s : State) : Out :=
  .next (issue (.ld gd tk d m z sem) s fun x => loadEffect x gd tk d m z sem false false)

def execSt (gd : Guard) (tk : Option Tok) (d : VReg) (m : MemOpnd) (z : Sz) (sem : StSem) (s : State) : Out :=
  .next (issue (.st gd tk d m z sem) s fun x => storeEffect x gd tk d m z sem false false)

def execLds (gd : Guard) (tk : Tok) (d : VReg) (m : MemOpnd) (z : Sz) (sem : LdSem) (ssc : Bool) (s : State) : Out :=
  .next (issue (.lds gd tk d m z sem ssc) s fun x => loadEffect x gd tk d m z sem true ssc)

def execSts (gd : Guard) (tk : Option Tok) (d : VReg) (m : MemOpnd) (z : Sz) (sem : StSem) (ssc : Bool) (s : State) : Out :=
  .next (issue (.sts gd tk d m z sem ssc) s fun x => storeEffect x gd tk d m z sem true ssc)

/-- `ldc` executes once, in the lowest-numbered active lane (R122, R259). -/
def ldcEffect (x : Ctx) (gd : Guard) (tk : Tok) (d gb : GReg) (off : BitVec 13) (z : LdcSz) : Res :=
  let ex := x.r.execFor gd (.g d)
  let l := lowestLane x.k.lanes
  let ea := x.r.ea gb 0 false off
  match globalFault (lanesIn ex) (ldcBytes z) ea with
  | some f => f
  | none => x.send { tk := some tk, kind := .load, parts := laneParts false l (ea l) (ldcBytes z) [] 0, land_ := .g d z, lanes := ex }

def execLdc (gd : Guard) (tk : Tok) (d gb : GReg) (off : BitVec 13) (z : LdcSz) (s : State) : Out :=
  .next (issue (.ldc gd tk d gb off z) s fun x => ldcEffect x gd tk d gb off z)

/-- A prefetch: an address out of range is dropped at once (R260). -/
def execPrf (gd : Guard) (lv : PrfLevel) (m : MemOpnd) (s : State) : Out :=
  .next (issue (.prf gd lv m) s fun x =>
    let ex := x.r.exec gd
    let parts := ((lanesIn ex).filter fun l => x.r.eaOf m l < 2 ^ 57).map fun l => mkPart false l (x.r.eaOf m l) 1 [] [] 0
    x.send { tk := none, kind := .prefetch (lv == .l1), parts := parts, lanes := ex })

/-- The effect of `acp` (R261): the source's checks, then those of the destination offsets. -/
def acpEffect (x : Ctx) (gd : Guard) (tk : Option Tok) (d : VReg) (m : MemOpnd) (z : ASz) (bar : Option (Fin 16)) : Res :=
  let ex := x.r.exec gd
  let n := aszBytes z
  let off := fun l => (x.r.vget d l).toNat
  let lanes := lanesIn ex
  let fault := orElse (globalFault lanes n (x.r.eaOf m)) fun _ =>
    orElse (laneFault lanes (fun l => off l % n ≠ 0) 0x02 id off) fun _ =>
      laneFault lanes (fun l => x.t.portion ≤ off l) 0x13 (fun _ => 0xA0) off
  match fault with
  | some f => f
  | none => x.send { tk := tk, kind := .copy bar,
                     parts := (lanes.map fun l => laneParts false l (x.r.eaOf m l) n [] (off l)).flatten, lanes := ex }

def execAcp (gd : Guard) (tk : Option Tok) (d : VReg) (m : MemOpnd) (z : ASz) (bar : Option (Fin 16)) (s : State) : Out :=
  .next (issue (.acp gd tk d m z bar) s fun x => acpEffect x gd tk d m z bar)

/-! ### Atomics (R262 to R264) -/

/-- The effect of `atom`, `red` and `atoms`; `d` is the destination, and the compare value of `cas`. -/
def atomicEffect (x : Ctx) (gd : Guard) (tk : Option Tok) (d : Option VReg) (m : AtOpnd) (va : VReg) (op : AOp) (z : ASz)
    (sem : AtSem) (scr ssc : Bool) : Res :=
  let ex := x.r.exec gd
  let n := aszBytes z
  let ea := x.r.eaOf (atMem m)
  match x.spaceFault scr ssc ex n ea with
  | some f => f
  | none =>
    let parts := (lanesIn ex).map fun l =>
      mkPart scr l (if scr then scrAddr x.t ssc (ea l) else ea l) n (x.r.runBytes va n l)
        (match d with | some d => if op = .cas then x.r.runBytes d n l else [] | none => []) 0
    x.send { tk := tk, kind := .atomic op, ssc := ssc, scratch := scr, acq := atAcq sem, rel := atRel sem, parts := parts,
             land_ := (match d with | some d => .at_ d z | none => .none), lanes := ex }

def execAtom (gd : Guard) (tk : Tok) (d : VReg) (m : AtOpnd) (va : VReg) (op : AOp) (z : ASz) (sem : AtSem) (s : State) : Out :=
  .next (issue (.atom gd tk d m va op z sem) s fun x => atomicEffect x gd (some tk) (some d) m va op z sem false false)

def execRed (gd : Guard) (tk : Option Tok) (m : AtOpnd) (va : VReg) (op : AOp) (z : ASz) (sem : AtSem) (s : State) : Out :=
  .next (issue (.red gd tk m va op z sem) s fun x => atomicEffect x gd tk none m va op z sem false false)

def execAtoms (gd : Guard) (tk : Tok) (d : VReg) (m : AtOpnd) (va : VReg) (op : AOp) (z : ASz) (sem : AtSem) (ssc : Bool)
    (s : State) : Out :=
  .next (issue (.atoms gd tk d m va op z sem ssc) s fun x => atomicEffect x gd (some tk) (some d) m va op z sem true ssc)

/-! ### Fences and code visibility (R265 to R269) -/

/-- The effect of a fence whose conditions hold: an acquire invalidates the L1 at span scope or wider (R236, R265); table writes are
published and observed at truss scope or wider (R207). -/
def fenceEffect (x : Ctx) (k : FenceSem) (sc : Scope) : Res :=
  let tru := fun (f : Truss → Truss) (s : State) => if sc = .crs then s else s.modTruss x.c.truss f
  let s := if k = .acq then x.s else tru (fun t => t.publish x.c.course) x.s
  if k = .rel then .ok s
  else
    let s := tru (fun t => t.observe x.c.course) s
    .ok (if sc = .crs || sc = .trs then s else s.invalidateL1 x.t.core)

def execFence (gd : Guard) (k : FenceSem) (sc : Scope) (s : State) : Out :=
  .next (issue (.fence gd k sc) s fun x => x.once gd fun _ => fenceEffect x k sc)

/-- The check of a range of `len` bytes from `base`: one that reaches 2^57 (R266, R269). -/
def rangeFault (base len : Nat) : Option Res :=
  if len ≠ 0 && 2 ^ 57 < base + len then some (.trap 0x13 0xA5 (BitVec.ofNat 64 base)) else none

/-- Every 64-byte fetch block that overlaps the range leaves the core's instruction cache (R266). -/
def iflushEffect (x : Ctx) (gb gl : GReg) : Res :=
  let base := (x.r.gget gb).toNat
  let len := (x.r.gget gl).toNat
  match rangeFault base len with
  | some f => f
  | none => .ok (x.s.dropIcache x.t.core fun c =>
      len ≠ 0 && c.space == x.t.space && c.va / 64 * 64 < base + len && base < c.va / 64 * 64 + 64)

def execIflush (gd : Guard) (gb gl : GReg) (s : State) : Out :=
  .next (issue (.iflush gd gb gl) s fun x => x.once gd fun _ => iflushEffect x gb gl)

/-- Every word fetched beyond the `isync` is discarded (R267). -/
def execIsync (gd : Guard) (s : State) : Out :=
  .next (issueCourse (.isync gd) s fun x => if x.r.uniform gd then { x.k with ahead := [] } else x.k)

/-- The effect of `cwb` (R269): a length of 0 completes OK at once. -/
def cwbEffect (x : Ctx) (tk : Tok) (gb gl : GReg) (inv : Bool) : Res :=
  let base := (x.r.gget gb).toNat
  let len := (x.r.gget gl).toNat
  match rangeFault base len with
  | some f => f
  | none =>
    if len = 0 then x.ok (x.k.issueOp tk .nothing [])
    else x.send { tk := some tk, kind := .clean inv, parts := [mkPart false 0 base len [] [] 0], lanes := 1 }

def execCwb (gd : Guard) (tk : Tok) (gb gl : GReg) (inv : Bool) (s : State) : Out :=
  .next (issue (.cwb gd tk gb gl inv) s fun x =>
    if x.r.uniform gd then cwbEffect x tk gb gl inv else x.ok (x.k.issueOp tk .nothing []))

/-! ### Layout-addressed elements (R270, R271) -/

/-- Elements of `regs` registers (R271). -/
def layElems (width regs : Nat) : Nat :=
  if width = 64 then regs / 2 else if width = 6 then 4 * regs else 32 / width * regs

/-- The coordinates of element `j` of lane `l`, of `n` elements a lane (R271). -/
def Course.layCoord (k : Course) (o : LayOpnd) (n l j : Nat) : List Int :=
  let c := fun d => if d ≤ o.nc.val then k.coord (o.gc.val + d) else 0
  if o.row then [c 0 + j, c 1 + l, c 2, c 3] else [c 0 + (l * n + j : Nat), c 1, c 2, c 3]

/-- The fault of one element (R206, R208). -/
def Layout.elemFault (e : Layout) (portion : Nat) (x : List Int) : Option LayFault :=
  if e.inside x then if e.beyond portion x then some (0x07, 0) else none
  else if e.bnd then
    let d := ((List.range 4).find? fun d => (x[d]?).getD 0 < 0 || e.limit d ≤ (x[d]?).getD 0).getD 0
    some (0x00, BitVec.ofNat 64 (wrap 32 ((x[d]?).getD 0) * 2 ^ 32 + d))
  else none

/-- The bytes of an element in runs that lie in one 8-byte word each. -/
def byteRuns : List Nat → List (List Nat)
  | [] => []
  | a :: as =>
    match byteRuns as with
    | (b :: r) :: rs => if b = a + 1 && b % 8 ≠ 0 then (a :: b :: r) :: rs else [a] :: (b :: r) :: rs
    | rs => [a] :: rs

/-- The code of element `j` in a lane's registers (R271). -/
def Course.layCode (k : Course) (d width l j : Nat) : Nat :=
  if width = 64 then (k.vpair (d + 2 * j) l).toNat
  else
    let per := if width = 6 then 4 else 32 / width
    (k.vget (d + j / per) l).toNat / 2 ^ (width * (j % per)) % 2 ^ width

/-- The parts of element `j` of a lane: `code` is what a store writes; an element out of bounds is read as its zero code, and not
written (R208, R271). -/
def Layout.elemParts (e : Layout) (pos l j : Nat) (x : List Int) (code : Option Nat) : List Part :=
  if !e.inside x then
    if code.isSome then []
    else [{ mkPart true l 0 8 [] [] (8 * j) with phase := .performed, got := natBytes 8 e.zeroCode }]
  else
    let m := e.elem pos x
    let n := m.bytes.length
    let data := match code with | some c => natBytes n (c % 2 ^ m.width * 2 ^ m.sh) | none => natBytes n (e.zeroCode * 2 ^ m.sh)
    let mask := natBytes n ((2 ^ m.width - 1) * 2 ^ m.sh)
    let runs := byteRuns m.bytes
    (List.range runs.length).map fun i =>
      let at_ := ((runs.take i).map List.length).sum
      let r := (runs[i]?).getD []
      let a := r.headD 0
      mkPart (!m.global) l (if m.global then a else m.member * 2 ^ 32 + a) r.length ((data.drop at_).take r.length)
        (if code.isSome then (mask.drop at_).take r.length else []) (8 * j + m.sh)

/-- The effect of `ldl` and `stl`. -/
def layEffect (x : Ctx) (gd : Guard) (tk : Option Tok) (d : VReg) (o : LayOpnd) (store : Bool) : Res :=
  let ex := x.r.exec gd
  let regs := o.nr.val + 1
  let e := x.t.layout x.s.tick x.c.course o.l
  let n := layElems e.bits regs
  let idx := ((lanesIn ex).map fun l => (List.range n).map fun j => (l, j)).flatten
  if ex = 0 then
    x.send { tk := tk, kind := .load, parts := [], land_ := if store then .none else .lay d e.bits regs o.row, lanes := 0 }
  else match e.check x.t.items.span with
  | some (detail, fa) => .trap 0x16 detail fa
  | none =>
    if e.bits = 64 && (d.val % 2 ≠ 0 || regs % 2 ≠ 0) then .trap 0x01 0 0
    else match idx.findSome? fun (l, j) => e.elemFault x.t.portion (x.r.layCoord o n l j) with
    | some (detail, fa) => .trap 0x16 detail fa
    | none =>
      let parts := (idx.map fun (l, j) => e.elemParts x.t.spanPos l j (x.r.layCoord o n l j)
        (if store then some (x.r.layCode d e.bits l j) else none)).flatten
      x.send { tk := tk, kind := if store then .store else .load, scratch := e.space ≠ 0, ssc := e.space = 2, parts := parts,
               land_ := if store then .none else .lay d e.bits regs o.row, lanes := ex }

def execLdl (gd : Guard) (tk : Tok) (d : VReg) (o : LayOpnd) (s : State) : Out :=
  .next (issue (.ldl gd tk d o) s fun x => layEffect x gd (some tk) d o false)

def execStl (gd : Guard) (tk : Option Tok) (d : VReg) (o : LayOpnd) (s : State) : Out :=
  .next (issue (.stl gd tk d o) s fun x => layEffect x gd tk d o true)

end Sys2Proof.Machine
end

