-- ==== Sys2Proof/Machine/Promise.lean ====
section
/-!
DEFINITION. Interrupts and halting queues (15 R346, R349), and promise cells with their words (12 R272 to R281).
-/
namespace Sys2Proof.Machine

/-! ### Interrupts and halts -/

/-- A discarded write, doorbell or interrupt is counted (R440). -/
def State.discard (s : State) : State := { s with discards := s.discards + 1 }

/-- An interrupt through a remap entry (R225, R349): virtual device v sends as function v + 1 (R393). -/
def State.interrupt (s : State) (e : Nat) : State :=
  let w := tget 0 s.remap e
  if !w.getLsbD 63 then s.discard
  else if w.getLsbD 62 then { s with remap := tset 0 s.remap e (w ||| BitVec.ofNat 64 (2 ^ 61)) }
  else { s with hostOut := s.hostOut ++ [HostOut.msix (e / 64 + 1) (bits w.toNat 10 0)] }

/-! ### Queue control blocks (R336, R338, R352) -/

/-- The 256 bytes of a block in device memory. -/
def State.qcbAddr (s : State) (blk : Nat) : Nat := s.qcbBase + 256 * blk

/-- Packets lie behind HEAD. -/
def Qcb.idle (b : Qcb) : Bool := b.head == b.tail

def QState.code : QState → Nat | .unmapped => 0 | .running => 1 | .blocked => 2 | .faulted => 3 | .halted => 4
/-- Codes 5 to 7 are reserved: a block that holds one is UNMAPPED. -/
def qstateOf (n : Nat) : QState := match n with | 1 => .running | 2 => .blocked | 3 => .faulted | 4 => .halted | _ => .unmapped

/-- A block of which nothing is kept. -/
def Qcb.blank : Qcb :=
  { v := false, st := .unmapped, bprio := 0, vd := 0, rsz := 0, kidx := 0, rbase := 0, tail := 0, head := 0, eseq := 0, retire := 0, hmir := 0,
    ageq := 0, waitSince := 0, errSeq := 0, een := false, evec := 0, err := 0, infl := [], pending := false, slot := none, look := [],
    skip := 0, unreported := false, polled := 0, wait := .untranslated, hwait := .untranslated, ringAt := none }

/-- A block with the fields of words 0 to 6 (R338). -/
def Qcb.load (b : Qcb) (w : Nat → Nat) : Qcb :=
  { b with
    v := bit (w 0) 63, st := qstateOf (bits (w 0) 62 60), bprio := BitVec.ofNat 4 (bits (w 0) 59 56),
    vd := ⟨bits (w 0) 51 43 % 512, Nat.mod_lt _ (by decide)⟩, rsz := bits (w 0) 42 38, kidx := ⟨bits (w 0) 8 0 % 512, Nat.mod_lt _ (by decide)⟩,
    rbase := bits (w 1) 56 0, tail := BitVec.ofNat 32 (bits (w 2) 63 32), head := BitVec.ofNat 32 (bits (w 2) 31 0),
    eseq := BitVec.ofNat 32 (bits (w 3) 63 32), retire := BitVec.ofNat 32 (bits (w 3) 31 0), hmir := bits (w 4) 56 0,
    ageq := BitVec.ofNat 16 (bits (w 5) 63 48), waitSince := BitVec.ofNat 48 (bits (w 5) 47 0), errSeq := BitVec.ofNat 32 (bits (w 6) 63 32),
    een := bit (w 6) 15, evec := ⟨bits (w 6) 13 8 % 64, Nat.mod_lt _ (by decide)⟩, err := BitVec.ofNat 8 (bits (w 6) 7 0) }

/-- Word `i` of a block, 0 to 23; its reserved bits are 0 (R5, R338, R352). -/
def Qcb.word (b : Qcb) (i : Nat) : Nat :=
  match i with
  | 0 => b.v.toNat * 2 ^ 63 + b.st.code * 2 ^ 60 + b.bprio.toNat * 2 ^ 56 + b.vd * 2 ^ 43 + b.rsz * 2 ^ 38 + b.kidx
  | 1 => b.rbase
  | 2 => b.tail.toNat * 2 ^ 32 + b.head.toNat
  | 3 => b.eseq.toNat * 2 ^ 32 + b.retire.toNat
  | 4 => b.hmir
  | 5 => b.ageq.toNat * 2 ^ 48 + b.waitSince.toNat
  | 6 => b.errSeq.toNat * 2 ^ 32 + b.een.toNat * 2 ^ 15 + b.evec * 2 ^ 8 + b.err.toNat
  | 7 => 0
  | i => match b.infl[i - 8]? with | some p => (Config.inflWord p.seq.toNat p.units (i - 8)).toNat | none => 0

/-- Word `i` of a block in device memory. -/
def State.qcbWord (s : State) (blk i : Nat) : Nat := readNat s.mem (s.qcbAddr blk + 8 * i) 8

/-- A block in use: the words its hardware slot holds, or, while it is not mapped, those in device memory. -/
def State.qcb? (s : State) (blk : Nat) : Option Qcb :=
  let b := (tget? s.qcbs blk).getD Qcb.blank
  let b := if b.slot.isSome then b else b.load (s.qcbWord blk)
  if b.v then some b else none

/-- A block is kept: in its slot, or, when it is not mapped, by its words in device memory, which are then clean (R250, R352). -/
def State.putQcb (s : State) (blk : Nat) (b : Qcb) : State :=
  { s with qcbs := tput s.qcbs blk b,
           mem := if b.slot.isSome then s.mem
             else spliceBytes s.mem (s.qcbAddr blk) ((List.range 24).map fun i => natBytes 8 (b.word i)).flatten,
           memPsn := if b.slot.isSome then s.memPsn else psnWrite s.memPsn (s.qcbAddr blk) 192 false }

/-- A mapped queue is idle or BLOCKED (R351). -/
def Qcb.restful (b : Qcb) : Bool := b.slot.isSome && (b.idle || b.st == .blocked)

/-- Changes a queue control block. A mapped queue that becomes idle or BLOCKED wakes the scheduler of mappings (R351). -/
def State.modQcb (s : State) (blk : Nat) (f : Qcb → Qcb) : State :=
  match s.qcb? blk with
  | some b =>
    let c := f b
    { s.putQcb blk c with passesDue := s.passesDue + (b.slot.isSome && !b.restful && c.restful).toNat }
  | none => s

/-- The blocks in use, by number, among those of which something is kept. -/
def State.queues (s : State) : List (Nat × Qcb) := s.qcbs.filterMap fun e => (s.qcb? e.1).map fun b => (e.1, b)

/-- A halting error (R346); a queue that is HALTED keeps its first one. -/
def State.haltQueue (s : State) (blk : Nat) (err : BitVec 8) (seq : W32) : State :=
  match s.qcb? blk with
  | none => s
  | some b =>
    if b.st = .halted then s
    else
      let s := s.modQcb blk fun b => { b with st := .halted, err := err, errSeq := seq }
      if b.een then s.interrupt (b.vd * 64 + b.evec) else s

/-! ### The directory (R272, R274) -/

/-- The ridge of a cell's class; none without an entry (R274). -/
def ridge (cells : Tbl PCell) : (fuel c : Nat) → Option Nat
  | 0, _ => none
  | n + 1, c =>
    match tget? cells c with
    | none => none
    | some (.linked r) => ridge cells n r
    | some _ => some c

def State.findRidge (s : State) (c : Nat) : Option Nat := ridge s.cells (s.cells.length + 1) c

/-- The class value of a ridge. -/
def State.cellValue (s : State) (r : Nat) : Option W64 := match tget? s.cells r with | some (.full x _) => some x | _ => none
/-- The member count of a ridge. -/
def State.members (s : State) (r : Nat) : Nat :=
  match tget? s.cells r with | some (.full _ n) => n | some (.empty n) => n | _ => 0

/-- The ridge of a class waited on by a parked or repeating `pwait` (R277). -/
def PromOp.on (p : PromOp) (r : Nat) : Bool := match p.waiting with | some (c, _) => c == r | none => false

/-! ### The end of an operation -/

/-- How a promise operation ends. -/
inductive PromEnd where
  | ok (vals : List W64) (acq : Bool)
  | fault (cause detail : Nat)
  | unreach
  deriving DecidableEq, Repr

/-- The values of consecutive g registers. -/
def gRun (d : Option GReg) (vals : List W64) : List RegVal :=
  match d with
  | some d => (List.range vals.length).filterMap fun i =>
      if h : d.val + i < 64 then some (.g ⟨d.val + i, h⟩ ((vals[i]?).getD 0)) else none
  | none => []

/-- The ERR code of a promise fault (R346). -/
def haltCode (cause : Nat) : BitVec 8 := if cause = 0x10 then 6 else if cause = 0x11 then 7 else 5

/-- A queue's promise packet ends: it completes, and a WAIT lets the thread go on; a fault halts the queue (R346, R347). -/
def State.endQueueProm (s : State) (blk id : Nat) (op : POp) (e : PromEnd) : State :=
  match s.qcb? blk with
  | none => s
  | some b =>
    let mine := fun (p : Packet) => p.st == .promise id || p.st == .waitProm id
    let seq := ((b.infl.find? mine).map (·.seq)).getD 0
    let s := s.modQcb blk fun b =>
      { b with st := if b.st = .blocked ∧ op = .pwait then .running else b.st,
               infl := b.infl.map fun p => if mine p then { p with st := .done } else p }
    match e with
    | .fault cause _ => s.haltQueue blk (haltCode cause) seq
    | _ => s

/-- An acquire that a course makes at a scope takes effect: the table writes released to it are seen, and at span scope or wider the L1 is
invalidated (R207, R236, R325). -/
def State.acquire (s : State) (c : CRef) (sc : Option Scope) : State :=
  if strong sc then
    let s := s.modTruss c.truss fun t => t.observe c.course
    if homeAcq sc then (match s.truss? c.truss with | some t => s.invalidateL1 t.core | none => s) else s
  else s

/-- A promise operation ends (R277, R280); an acquire that it makes is in effect then (R325). -/
def State.promEnd (s : State) (p : PromOp) (e : PromEnd) : State :=
  let s : State := { s with proms := s.proms.filter fun q => q.id != p.id }
  match p.who with
  | .queue blk => s.endQueueProm blk p.id p.op e
  | .course c op d =>
    let s := match e with | .ok _ true => s.acquire c p.acqScope | _ => s
    s.modCourse c fun k =>
      match e with
      | .fault cause detail => k.endOp (some op) (some ⟨cause, detail, BitVec.ofNat 64 p.va, p.id⟩) [] false 0
      | .unreach => k.endOp (some op) none [] false 2
      | .ok vals _ => k.endOp (some op) none (gRun d vals) false 0

/-- Every parked waiter of a class that has become FULL completes (R276, R278). -/
def State.wakeClass (s : State) (r : Nat) : State :=
  match s.cellValue r with
  | none => s
  | some x => (s.proms.filter fun p => p.on r && p.waiting == some (r, true)).foldl (fun s p => s.promEnd p (.ok [x] true)) s

/-! ### Effects in promise order (R275 to R279) -/

/-- DETAIL of R280. -/
def promDetail (op : POp) (reason : Nat) : Nat :=
  (match op with | .pinit _ => 0 | .pfill _ => 1 | .pwait => 2 | .pequ _ => 3 | .ptest => 4) * 32 + reason

def State.promFault (s : State) (p : PromOp) (reason : Nat) : State :=
  s.promEnd p (.fault (if reason = 5 then 0x10 else 0x11) (promDetail p.op reason))

/-- `pinit` (R275). -/
def State.pinitEffect (s : State) (p : PromOp) (c : Nat) (free : Bool) : State :=
  let waits := s.proms.any fun q => q.on c
  let done := fun (cells : Tbl PCell) => ({ s with cells := cells } : State).promEnd p (.ok [] false)
  match tget? s.cells c, free with
  | none, false =>
    if Config.directoryCap ≤ (s.cells.filter fun e => s.homeOf e.1 == s.homeOf c).length then s.promFault p 3
    else done (tput s.cells c (.empty 1))
  | some (.linked _), false => s.promFault p 2
  | some _, false => if waits then s.promFault p 1 else done (tput s.cells c (.empty (s.members c)))
  | none, true => s.promFault p 0
  | some (.linked r), true =>
    let cells := (tdel s.cells c).map fun e => if e.2 = .linked c then (e.1, .linked r) else e
    match ridge cells (cells.length + 1) r with
    | some m => done (tput cells m (match tget? cells m with
        | some (.full x n) => .full x (n - 1) | some (.empty n) => .empty (n - 1) | _ => .empty 0))
    | none => done cells
  | some _, true => if 1 < s.members c || waits then s.promFault p 4 else done (tdel s.cells c)

/-- `pfill` (R276). -/
def State.pfillEffect (s : State) (p : PromOp) (c : Nat) (x : W64) : State :=
  match s.findRidge c with
  | none => s.promFault p 0
  | some r =>
    match s.cellValue r with
    | some y => if y = x then s.promEnd p (.ok [] false) else s.promFault p 5
    | none => (({ s with cells := tput s.cells r (.full x (s.members r)) } : State).promEnd p (.ok [] false)).wakeClass r

/-- A `pwait` walks from its cell: it completes, parks, or is repeated (R277). -/
def State.pwaitEffect (s : State) (p : PromOp) (c : Nat) : State :=
  match s.findRidge c with
  | none => s.promFault p 0
  | some r =>
    match s.cellValue r with
    | some x => s.promEnd p (.ok [x] true)
    | none =>
      let parked := (s.proms.filter fun q => match q.waiting with
        | some (m, true) => s.homeOf m == s.homeOf r
        | _ => false).length
      { s with proms := s.proms.map fun q =>
          if q.id = p.id then { q with waiting := some (r, decide (parked < Config.monitorCap)) } else q }

/-- `pequ` (R278): the root is the lower of the two ridges, and the waiters of the other move to it. -/
def State.pequEffect (s : State) (p : PromOp) (a b : Nat) : State :=
  match s.findRidge a, s.findRidge b with
  | some ra, some rb =>
    if ra = rb then s.promEnd p (.ok [] false)
    else
      match s.cellValue ra, s.cellValue rb with
      | some x, some y => if x = y then union ra rb (some x) else s.promFault p 5
      | some x, none => union ra rb (some x)
      | none, y => union ra rb y
  | _, _ => s.promFault p 0
where
  union (ra rb : Nat) (val : Option W64) : State :=
    let root := Nat.min ra rb
    let other := Nat.max ra rb
    let n := s.members ra + s.members rb
    let cells := tput (tput s.cells root (match val with | some x => .full x n | none => .empty n)) other (.linked root)
    let s : State := { s with
      cells := cells,
      proms := s.proms.map fun q => if q.on other then { q with waiting := q.waiting.map fun w => (root, w.2) } else q }
    (s.promEnd p (.ok [] false)).wakeClass root

/-- `ptest` (R279). -/
def State.ptestEffect (s : State) (p : PromOp) (c : Nat) : State :=
  match s.findRidge c with
  | none => s.promEnd p (.ok [0, 0] false)
  | some r =>
    let v := s.cellValue r
    let w := BitVec.ofNat 64 (v.isSome.toNat + (decide (c = r)).toNat * 2 + 4)
    s.promEnd p (.ok [w, v.getD 0] v.isSome)

/-- The effect of a promise operation on its cells (R274). -/
def State.promEffect (s : State) (p : PromOp) (a b : Nat) : State :=
  match p.op with
  | .pinit free => s.pinitEffect p a free
  | .pfill x => s.pfillEffect p a x
  | .pwait => s.pwaitEffect p a
  | .pequ _ => s.pequEffect p a b
  | .ptest => s.ptestEffect p a

/-! ### Order and translation -/

/-- The rights a promise operation needs (R216; log 32). -/
def POp.want (op : POp) (user : Bool) : Want := ⟨match op with | .pwait | .ptest => false | _ => true, false, user⟩

/-- The agent and space of a promise operation (R472). -/
def State.promAgent (s : State) (p : PromOp) : Agent × Nat × Bool :=
  match p.who with
  | .course c .. =>
    match s.truss? c.truss, s.course? c with
    | some t, some k => (t.agent k 0, t.space, !t.kernelMode)
    | _, _ => (⟨0, 0, 0, 0⟩, p.vd, true)
  | .queue blk =>
    let qp := match (tget? s.qcbs blk).bind (·.slot) with | some n => n.val / 32 | none => 0
    (⟨2, 4, 0xFF, qp⟩, p.vd, true)

/-- Changes a promise operation. -/
def State.setProm (s : State) (p : PromOp) : State := { s with proms := s.proms.map fun q => if q.id = p.id then p else q }

/-- The operation is one of a course that is out of its slot (R52, R281). -/
def State.awayProm (s : State) (p : PromOp) : Bool :=
  match p.who with | .course c .. => (match s.course? c with | some k => k.away | none => false) | .queue _ => false

/-- The operation is one of a killed course. -/
def State.killedProm (s : State) (p : PromOp) : Bool :=
  match p.who with | .course c .. => (match s.course? c with | some k => k.cstate == .killed | none => false) | .queue _ => false

/-- One step of a promise operation; one of a killed course that its home rejects is discarded (R408): the translation of cell `i`, or, with every cell translated, its place in promise order (R255,
R274). -/
def State.promStep (s : State) (id i : Nat) : State :=
  match s.proms.find? fun p => p.id == id && p.waiting.isNone && !s.awayProm p with
  | none => s
  | some p =>
    let (ag, space, user) := s.promAgent p
    let put := fun (s : State) (ph : Phase) =>
      s.setProm (if i = 0 then { p with phase := ph, sent := s.clk } else { p with phase2 := ph, sent := s.clk })
    let perform := fun (a b : Nat) =>
      match p.who with
      | .course .. =>
        if s.turn (s.homeFor a p.sent) ag.core p.sent then
          ((s.handOvers space [a / 128, b / 128]).promEffect p a b).noteTurn (s.homeFor a p.sent) ag.core
        else s
      | .queue _ => (s.handOvers space [a / 128, b / 128]).promEffect p a b
    let va := if i = 0 then p.va else match p.op with | .pequ b => b | _ => p.va
    match if i = 0 then p.phase else p.phase2 with
    | .untranslated =>
      let r := s.reachIf (!s.killedProm p) ag space va (p.op.want user)
      match r.2.1, r.2.2 with
      | .failed cause d, _ => r.1.promEnd { p with va := va } (.fault cause d)
      | ph, some pl =>
        if !pl.prm then r.1.promEnd { p with va := va } (.fault 0x13 0xA4)
        else if ag.core < 192 && !r.1.hasSlot ag.core p.id pl.pa pl.host then r.1
        else put r.1 ph
      | ph, none => put r.1 ph
    | .failed cause d => s.promEnd { p with va := va } (.fault cause d)
    | .ready a gen _ =>
      if s.gen space ≠ gen then
        let s := if ag.core < 192 then s.countEvent ag.core 8 1 else s
        if s.killedProm p then s.promEnd p (.fault 0x14 0) else put s .untranslated
      else
        let two := match p.op with | .pequ _ => true | _ => false
        match p.phase2, two && i = 0 with
        | .ready b gen2 _, true => if s.gen space ≠ gen2 || s.promAwaits p then s else perform a b
        | _, false => if two || s.promAwaits p then s else perform a a
        | _, true => s
    | _ => s

/-- A home slice performs one step of a request: of a memory access, or of a promise operation (R195, R238). -/
def execHomeSliceAccess (acc part : Nat) (srv : Serve) (s : State) : Out :=
  .next (if s.accesses.any fun a => a.id == acc then s.homeStep acc part srv else s.promStep acc part)

/-- A repeating `pwait` walks again from its cell; one whose translation is stale is rejected and translates again (R195, R277). -/
def execPwaitRepeat (waiter : Nat) (s : State) : Out :=
  .next (match s.proms.find? fun p => p.id == waiter with
    | some p =>
      match p.waiting, p.phase with
      | some (_, false), .ready c gen _ =>
        let (ag, space, _) := s.promAgent p
        if s.gen space ≠ gen then
          (if ag.core < 192 then s.countEvent ag.core 8 1 else s).setProm { p with waiting := none, phase := .untranslated }
        else s.pwaitEffect p c
      | _, _ => s
    | none => s)

/-! ### The words (R273) -/

/-- A promise word: the checks of its cell addresses (R254, R273), then its operation; a guarded course's is held (R442). -/
def Ctx.promise (x : Ctx) (gd : Guard) (tk : Tok) (d : Option GReg) (op : POp) (a : W64) (rel acq : Option Scope) : Res :=
  let cells := a.toNat :: match op with | .pequ b => [b] | _ => []
  let dests := match op with | .ptest => gRun d [0, 0] | _ => gRun d [0]
  if !x.r.uniform gd then x.ok (x.k.issueOp tk .nothing [] (dests := dests.map RegVal.name))
  else
    let fa := fun (c : Nat) => BitVec.ofNat 64 c
    match cells.find? (fun c => c % 8 ≠ 0), cells.find? (fun c => 2 ^ 57 ≤ c) with
    | some c, _ => .trap 0x02 (lowestLane x.k.lanes) (fa c)
    | none, some c => .trap 0x13 0xA5 (fa c)
    | none, none =>
      let id := x.s.nextId
      let held := x.t.items.guarded
      let ph := if held then Phase.held else .untranslated
      let p : PromOp :=
        { id := id, who := .course x.c x.k.nextOp d, vd := x.t.vd, op := op, va := a.toNat, phase := ph,
          phase2 := match op with | .pequ _ => ph | _ => .performed, waiting := none, rel := strong rel, relTrs := rel == some .trs, acqScope := acq, sent := 0 }
      let k := x.k.issueOp tk (.parts 1) dests
      let k := if held then { k with quarantine := k.quarantine ++ [⟨.promise id, x.s.clk, some x.k.nextOp, id⟩] } else k
      let s := x.set k
      .ok { s with proms := s.proms ++ [p], nextId := id + 1 }

def execPinit (gd : Guard) (tk : Tok) (ga : GReg) (free : Bool) (s : State) : Out :=
  .next (issue (.pinit gd tk ga free) s fun x => x.promise gd tk none (.pinit free) (x.r.gget ga) none none)

def execPfill (gd : Guard) (tk : Tok) (ga gv : GReg) (sc : Scope) (s : State) : Out :=
  .next (issue (.pfill gd tk ga gv sc) s fun x => x.promise gd tk none (.pfill (x.r.gget gv)) (x.r.gget ga) (some sc) none)

def execPwait (gd : Guard) (tk : Tok) (d ga : GReg) (sc : Scope) (s : State) : Out :=
  .next (issue (.pwait gd tk d ga sc) s fun x => x.promise gd tk (some d) .pwait (x.r.gget ga) none (some sc))

def execPequ (gd : Guard) (tk : Tok) (ga gv : GReg) (s : State) : Out :=
  .next (issue (.pequ gd tk ga gv) s fun x => x.promise gd tk none (.pequ (x.r.gget gv).toNat) (x.r.gget ga) none none)

def execPtest (gd : Guard) (tk : Tok) (d ga : GReg) (sc : Scope) (s : State) : Out :=
  .next (issue (.ptest gd tk d ga sc) s fun x => x.promise gd tk (some d) .ptest (x.r.gget ga) none (some sc))

end Sys2Proof.Machine
end

