-- ==== Sys2Proof/Machine/Engine.lean ====
section
/-!
DEFINITION. What the engines of a core share: entries of the three queues, their order and fences, their reads and writes, and their
ends (13 R286, R288, R296; 14 R322, R323).
-/
namespace Sys2Proof.Machine

/-- Issue cycles are withheld now: power or heat is in excess, and which cycles go is a free choice (R454; log 10). -/
def State.withholds (s : State) : Bool := s.throttled && Config.pick s.tick (2 ^ 25) 0

/-! ### Entries -/

/-- Changes a queue of a truss. -/
def Truss.modQueue (t : Truss) (q : QSel) (f : List QEntry → List QEntry) : Truss :=
  match q with
  | .none => t
  | .copy => { t with copyQ := f t.copyQ }
  | .mat => { t with matQ := f t.matQ }
  | .net => { t with netQ := f t.netQ }

/-- The head of a queue; entries withdrawn by a drain are not in it (R52). -/
def Truss.head? (t : Truss) (q : QSel) : Option QEntry := (t.queue q).find? fun e => !e.redo

/-- The queues a `qfence` names. -/
def fenceQueues (copy mat net : Bool) : List QSel :=
  (if copy then [.copy] else []) ++ (if mat then [.mat] else []) ++ (if net then [.net] else [])

/-- A `qfence` that every queue it names has reached: its number (R323). -/
def Truss.reachedFence (t : Truss) : Option Nat :=
  [QSel.copy, .mat, .net].findSome? fun q =>
    match t.head? q with
    | some e =>
      match e.body with
      | .qfence c m n f =>
        if !e.held && (fenceQueues c m n).all fun q' => match t.head? q' with
            | some e' => (match e'.body with | .qfence _ _ _ f' => f' == f | _ => false)
            | none => false
          then some f else none
      | _ => none
    | none => none

/-- Reached fences leave their queues, one after another (R323). -/
def Truss.passFences (t : Truss) : Nat → Truss
  | 0 => t
  | n + 1 =>
    match t.reachedFence with
    | some f =>
      let out := fun (es : List QEntry) => es.filter fun e => match e.body with | .qfence _ _ _ f' => f' != f | _ => true
      ({ t with copyQ := out t.copyQ, matQ := out t.matQ, netQ := out t.netQ } : Truss).passFences n
    | none => t

/-- Withdrawn entries of some courses enter a queue again, in issue order, as far as it has room (R52, R286, R297, R335). -/
def Truss.reissueIn (t : Truss) (js : List Nat) (q : QSel) : Truss :=
  t.modQueue q fun es =>
    let back := (es.filter fun e => js.contains e.course && e.redo).take (queueCap q - (es.filter fun e => !e.redo).length)
    es.filter (fun e => !(back.any fun b => b.id == e.id)) ++ back.map fun e => { e with redo := false }

/-- Withdrawn entries of some courses enter their queues again. -/
def Truss.reissue (t : Truss) (js : List Nat) : Truss :=
  (((t.reissueIn js .copy).reissueIn js .mat).reissueIn js .net).passFences 64

/-- Withdrawn entries of the courses that are back and found no room enter the queues as room comes free. -/
def Truss.refill (t : Truss) : Truss :=
  if t.evict || !(t.copyQ ++ t.matQ ++ t.netQ).any (·.redo) then t
  else t.reissue ((List.range t.courses.length).filter fun j => match t.courses[j]? with | some k => k.cstate == .resident | none => false)

/-- A fresh entry. -/
def mkEntry (id course : Nat) (op : Option Nat) (issued : Nat) (body : EntryBody) (held inRegion : Bool) : QEntry :=
  { id := id, course := course, tokOp := op, issued := issued, body := body, begun := false, done := 0, full := false,
    wrote := false, poison := false, drop := false, partly := false, fault := none, subs := 0, ovf := false, wait := .untranslated, waitAt := 0,
    held := held, redo := false, inRegion := inRegion, cached := false, cache := [] }

/-- THE ISSUE OF AN ENTRY: the word counts on its token, and the entry takes its place in the queue; a guarded course's entry is held
(R286, R362, R374, R442). -/
def Ctx.enqueue (x : Ctx) (q : QSel) (tk : Option Tok) (ws : List RegVal) (body : EntryBody) (start : Nat := 0) : Res :=
  let id := x.s.nextId
  let op := tk.map fun _ => x.k.nextOp
  let held := x.t.items.guarded
  let k := match tk with | some tk => x.k.issueOp tk (.parts 1) ws (q == .mat) | none => x.k
  let k := if held then { k with quarantine := k.quarantine ++ [⟨.entry id, x.s.clk, op, id⟩] } else k
  let e := { mkEntry id x.c.course op x.s.clk body held (x.k.rgstate.getLsbD 63) with done := start }
  let s : State := { x.set k with nextId := id + 1 }
  .ok (s.modTruss x.c.truss fun t => (t.modQueue q fun es => es ++ [e]).passFences 64)

/-- Replaces an entry. -/
def State.setEntry (s : State) (tn : Nat) (q : QSel) (e : QEntry) : State :=
  s.modTruss tn fun t => t.modQueue q fun es => es.map fun x => if x.id = e.id then e else x

/-- An entry has completed: it leaves its queue, and its operation ends (R286, R296). -/
def State.endEntry (s : State) (tn : Nat) (q : QSel) (e : QEntry) (ws : List RegVal) (consumed : Bool) (status : BitVec 8) :
    State :=
  let s := s.modTruss tn fun t => (t.modQueue q fun es => es.filter fun x => x.id != e.id).passFences 64 |>.refill
  s.modCourse ⟨tn, e.course⟩ fun k => k.endOp e.tokOp e.fault ws consumed status

/-- The status of an entry that ran to its end (R181). -/
def QEntry.status (e : QEntry) : BitVec 8 := if e.poison then 6 else if e.drop then 4 else if e.partly then 5 else 0

/-- The agent of an entry: its engine's core, and the slot of the course that issued it (R472). -/
def Truss.entryAgent (t : Truss) (e : QEntry) (kind : Nat) : Agent :=
  ⟨dieOf t.core, kind, t.core, match t.courses[e.course]? with | some k => k.slot | none => 0⟩

/-! ### Reads and writes of engines -/

/-- Where an engine acts: its truss and agent. -/
structure EngineAt where
  tn : Nat
  t  : Truss
  ag : Agent

/-- Bytes an engine has read. -/
structure Got where
  bytes  : List Byte
  poison : Bool
  drop   : Bool

/-- An engine's access that does not go on: where it stands, and the address. -/
abbrev Halted := Phase × Nat

/-- One global place for an engine: promise pages end in PERM 0xA3 (R255, R296), and a place whose request finds no free slot of the core
waits for one (R240, R288). -/
def State.enginePlace (s : State) (at_ : EngineAt) (va : Nat) (w : Bool) : State × Except Halted Place :=
  let r := s.reach at_.ag at_.t.space va ⟨w, false, !at_.t.kernelMode⟩
  match r.2.2 with
  | some pl =>
    if pl.prm then (r.1, .error (.failed 0x13 0xA3, va))
    else if at_.ag.core < 192 && !r.1.hasSlot at_.ag.core r.1.nextId pl.pa pl.host then (r.1, .error (.untranslated, va))
    else (r.1, .ok pl)
  | none => (r.1, .error (r.2.1, va))

/-- An entry that has not begun waits for the acquires and releases that its course issued before it (R317, R320). -/
def State.entryAwaits (s : State) (tn : Nat) (e : QEntry) : Bool :=
  let c : CRef := ⟨tn, e.course⟩
  !e.begun && (s.acquiresBefore c e.id || s.releasesBefore c e.id ||
    (s.accesses.any fun a => a.who == c && a.id < e.id && strong a.acq) ||
    s.proms.any fun p => p.id < e.id && p.rel && p.waiting.isNone && match p.who with | .course d .. => d == c | .queue _ => false)

/-- The truss that owns a scratchpad part. -/
def State.owner (s : State) (at_ : EngineAt) (m : Nat) : Option Nat :=
  if m = at_.t.spanPos then some at_.tn else s.spanMember at_.t m

/-- An 8-byte word of device or host memory is clean. -/
def State.cleanWord (s : State) (host : Bool) (w : Nat) : State :=
  if host then { s with hostPsn := tset false s.hostPsn w false } else { s with memPsn := tset false s.memPsn w false }

/-- The bytes of parts in order, read at their homes or owning cores (R288). -/
def State.engineLoad (s : State) (at_ : EngineAt) : List Part → State × Except Halted Got
  | [] => (s, .ok ⟨[], false, false⟩)
  | p :: ps =>
    let one : State × Except Halted Got :=
      match p.phase with
      | .performed => (s, .ok ⟨p.got, false, false⟩)
      | .ready .. =>
        match (s.owner at_ (p.va / 2 ^ 32)).bind s.truss? with
        | some u =>
          let q := (⟨u.scr, u.scrPsn⟩ : Bank).load p (p.va % 2 ^ 32)
          (s, .ok ⟨q.got, q.poison, false⟩)
        | none => (s, .ok ⟨if p.data.isEmpty then List.replicate p.size 0 else p.data, false, true⟩)
      | _ =>
        match s.enginePlace at_ p.va false with
        | (s, .ok pl) =>
          let q := (s.bank pl.host).load p pl.pa
          (if pl.host then s else s.touchRange at_.t.space pl.pa p.size false, .ok ⟨q.got, q.poison, false⟩)
        | (s, .error e) => (s, .error e)
    match one with
    | (s, .error e) => (s, .error e)
    | (s, .ok g) =>
      match s.engineLoad at_ ps with
      | (s, .error e) => (s, .error e)
      | (s, .ok g') => (s, .ok ⟨g.bytes ++ g'.bytes, g.poison || g'.poison, g.drop || g'.drop⟩)

/-- Parts written in order; the answer says whether a part was dropped (R56, R210). The core's L1 loses its copy of a line written in
memory, so that the effect is seen once it is covered (R189, R326). -/
def State.engineStore (s : State) (at_ : EngineAt) (poison : Bool) (whole : Nat → Bool) : List Part → State × Except Halted Bool
  | [] => (s, .ok false)
  | p :: ps =>
    let one : State × Except Halted Bool :=
      match p.phase with
      | .ready .. =>
        match s.owner at_ (p.va / 2 ^ 32) with
        | some n => (s.modTruss n fun u =>
            let b := (⟨u.scr, u.scrPsn⟩ : Bank).store p (p.va % 2 ^ 32) poison
            { u with scr := b.m,
                     scrPsn := if whole (p.va / 8) then tset false b.psn (p.va % 2 ^ 32 / 8) false else b.psn }, .ok false)
        | none => (s, .ok true)
      | _ =>
        match s.enginePlace at_ p.va true with
        | (s, .ok pl) =>
          let s' := s.putBank at_.t.space pl.host pl.pa p.size ((s.bank pl.host).store p pl.pa poison)
          let s' := if pl.host then s' else s'.l1Drop at_.t.core pl.pa
          (if whole (p.va / 8) then s'.cleanWord pl.host (pl.pa / 8) else s', .ok false)
        | (s, .error e) => (s, .error e)
    match one with
    | (s, .error e) => (s, .error e)
    | (s, .ok d) =>
      match s.engineStore at_ poison whole ps with
      | (s, .error e) => (s, .error e)
      | (s, .ok d') => (s, .ok (d || d'))

/-- One element read through an entry: its code (R208, R294). -/
def State.loadElem (s : State) (at_ : EngineAt) (e : Layout) (x : List Int) : State × Except Halted (Nat × Got) :=
  let ps := e.elemParts at_.t.spanPos 0 0 x none
  match s.engineLoad at_ ps with
  | (s, .error h) => (s, .error h)
  | (s, .ok g) =>
    let sh := (ps.head?.map (·.dst % 8)).getD 0
    (s, .ok (bytesNat g.bytes / 2 ^ sh % 2 ^ e.bits, g))

/-- Elements read in order: their codes, and what came with them. -/
def State.loadElems (s : State) (at_ : EngineAt) (e : Layout) : List (List Int) → State × Except Halted (List Nat × Got)
  | [] => (s, .ok ([], ⟨[], false, false⟩))
  | x :: xs =>
    match s.loadElem at_ e x with
    | (s, .error h) => (s, .error h)
    | (s, .ok (c, g)) =>
      match s.loadElems at_ e xs with
      | (s, .error h) => (s, .error h)
      | (s, .ok (cs, g')) => (s, .ok (c :: cs, ⟨[], g.poison || g'.poison, g.drop || g'.drop⟩))

/-- An entry that cannot go on: it waits, or it ends with a fault (R296). -/
def QEntry.halt (e : QEntry) (h : Halted) : QEntry :=
  match h.1 with
  | .failed cause detail =>
    { e with full := true, fault := some ⟨cause, detail, BitVec.ofNat 64 h.2, e.id⟩, wait := .untranslated }
  | ph => { e with wait := ph, waitAt := h.2 }

/-- What came with an operand joins the entry's status (R181). -/
def QEntry.note (e : QEntry) (g : Got) : QEntry := { e with poison := e.poison || g.poison, drop := e.drop || g.drop, wait := .untranslated }

/-- A wait that a fault service has ended in PERM ends the entry; the address is the faulting one (R296). -/
def QEntry.aborted (e : QEntry) : Option QEntry :=
  match e.wait with
  | .failed .. => some (e.halt (e.wait, e.waitAt))
  | _ => none

/-- Trusses of a core. -/
def State.trussesOn (s : State) (core : Nat) : List Nat :=
  (List.range s.trusses.length).filter fun n => match s.truss? n with | some t => t.place == .onCore core | none => false

/-- The next truss by an engine's round robin: the first after the last one served, by the slot of its first course (R286). -/
def State.roundRobin (s : State) (cands : List Nat) (last : Option Nat) : Option Nat :=
  let slot := fun n => match (s.truss? n).bind (fun t => t.courses[0]?) with | some k => k.slot | none => 0
  let best := fun (ns : List Nat) => ns.foldl (fun b n => match b with
    | some m => if slot n < slot m then some n else b
    | none => some n) none
  let after := match last with | some l => cands.filter fun n => slot l < slot n | none => []
  match best after with | some n => some n | none => best cands

end Sys2Proof.Machine
end

