-- ==== Sys2Proof/Machine/Narrow.lean ====
section
/-!
DEFINITION. The narrow formats, DPT8 and the S10 scale: values, conversions into and out of them (03 R65 to R74, 07 R152 to R154).
-/
namespace Sys2Proof.Machine

/-! ### Values of codes -/

/-- A DPT8 term in units of 2^−6 (R67). -/
def dptTerm (neg : Bool) (c : Nat) : Int :=
  if c = 7 then 0 else if neg then -((2 ^ (6 - c) : Nat) : Int) else (2 ^ (6 - c) : Nat)

/-- The value of a DPT8 code in units of 2^−6 (R67). -/
def dptUnits (x : Nat) : Int := dptTerm (x.testBit 7) (bits x 6 4) + dptTerm (x.testBit 3) (bits x 2 0)

/-- An integer as a value; 0 is +0. -/
def intVal (x : Int) (e : Int) : FVal := .fin (x < 0) x.natAbs e

/-- The value of an S10 container (R70). -/
def s10Val (x : Nat) : FVal :=
  if bits x 15 10 ≠ 0 || bits x 9 2 = 255 then .nan false
  else .fin false (4 + bits x 1 0) ((bits x 9 2 : Nat) - 129)

/-- The value of a narrow code (R65 to R67). -/
def narrowVal (f : NFmt) (x : Nat) : FVal :=
  match f with
  | .e4m3 => if x % 128 = 127 then .nan false else fmtE4M3.number (x % 256)
  | .e5m2 =>
    if x % 128 = 0x7C then .inf (x.testBit 7) else if 0x7C < x % 128 then .nan false else fmtE5M2.number (x % 256)
  | .e3m2 => fmtE3M2.number (x % 64)
  | .e2m3 => fmtE2M3.number (x % 64)
  | .e2m1 => fmtE2M1.number (x % 16)
  | .qi8 => intVal (signed 8 x) 0
  | .qn8 => intVal (x % 256 : Nat) 0
  | .qi4 => intVal (signed 4 x) 0
  | .qn4 => intVal (x % 16 : Nat) 0
  | .dpt8 => intVal (dptUnits x) (-6)

/-- Bits of a narrow code (R59). -/
def narrowBits : NFmt → Nat
  | .e4m3 | .e5m2 | .qi8 | .qn8 | .dpt8 => 8
  | .e3m2 | .e2m3 => 6
  | .e2m1 | .qi4 | .qn4 => 4

/-! ### Conversions into narrow floats and integers (R73) -/

/-- A finite value rounded RNE into a narrow float; `ovf` is the code of an overflow. -/
def toNarrow (f : Fmt) (ovf : Nat) (neg : Bool) (m : Nat) (e : Int) : FRes :=
  let sgn := neg.toNat * 2 ^ (f.eb + f.fb)
  if m = 0 then (sgn, 0)
  else
    let (mag, inexact, tiny) := f.roundMag .rne neg m e false
    if f.maxMag < mag then (sgn + ovf, fOF ||| fNX)
    else (sgn + mag, flagIf inexact fNX ||| flagIf (inexact && tiny) fUF)

/-- A value saturated to an integer range by RNE (R73). -/
def toSmallInt (w : Nat) (sg : Bool) (x : FVal) : FRes :=
  let lo := NumTy.lo ⟨w, sg⟩
  let hi := NumTy.hi ⟨w, sg⟩
  match x with
  | .nan _ => (0, fNV)
  | .inf n => (wrap w (if n then lo else hi), fNV)
  | .fin n m e =>
    let (v, inexact) := roundInt .rne n m e
    if v < lo then (wrap w lo, fNV) else if hi < v then (wrap w hi, fNV) else (wrap w v, flagIf inexact fNX)

/-- The sign bit of a narrow float format. -/
def signOf (f : Fmt) (neg : Bool) : Nat := neg.toNat * 2 ^ (f.eb + f.fb)

/-- A format without NaN and infinity (R73): NaN gives +0 with NV, infinity the largest finite value. -/
def toFinite (f : Fmt) (x : FVal) : FRes :=
  match x with
  | .nan _ => (0, fNV)
  | .inf n => (signOf f n + f.maxMag, fOF ||| fNX)
  | .fin n m e => toNarrow f f.maxMag n m e

/-! ### DPT8 (R67 to R69) -/

/-- The canonical code of a nonnegative number of units 2^−6, if some code has that value (R68). -/
def dptMag (u : Nat) : Option Nat :=
  if u = 0 then some 0x77
  else if u = 128 then some 0x00
  else if u = 2 ^ Nat.log2 u ∧ u ≤ 64 then some ((6 - Nat.log2 u) * 16 + 7)
  else
    let i := Nat.log2 u
    let low := u - 2 ^ i
    if u < 128 ∧ low = 2 ^ Nat.log2 low then some ((6 - i) * 16 + (6 - Nat.log2 low))
    else
      let gap := 2 ^ (i + 1) - u
      if i + 1 ≤ 6 ∧ gap = 2 ^ Nat.log2 gap then some ((6 - (i + 1)) * 16 + 8 + (6 - Nat.log2 gap)) else none

/-- The canonical code of a number of units (R68): the signs of both present terms are flipped for a negative value. -/
def dptCode (neg : Bool) (u : Nat) : Nat :=
  match dptMag u with
  | some c =>
    if !neg || u = 0 then c
    else if c % 8 = 7 then c ^^^ 0x80 else c ^^^ 0x88
  | none => 0x77

/-- The DPT8 magnitudes, in units, ascending. -/
def dptGrid : List Nat := (List.range 129).filter fun u => (dptMag u).isSome

/-- How `u` half-units of 2^−7 compare with `m × 2 ^ e`. -/
def cmpHalf (u m : Nat) (e : Int) : Ordering :=
  let k := e + 7
  if 0 ≤ k then compare u (m * 2 ^ k.toNat) else compare (u * 2 ^ (-k).toNat) m

/-- The conversion to DPT8 (R69): nearest, ties to the smaller magnitude. -/
def toDpt8 (x : FVal) : FRes :=
  match x with
  | .nan _ => (0x77, fNV)
  | .inf n => (if n then 0x88 else 0x00, fOF ||| fNX)
  | .fin n m e =>
    if m = 0 then (0x77, 0)
    else if cmpHalf 256 m e = .lt then (if n then 0x88 else 0x00, fOF ||| fNX)
    else
      let lo := (dptGrid.filter fun u => cmpHalf (2 * u) m e != .gt).getLastD 0
      let hi := (dptGrid.find? fun u => cmpHalf (2 * u) m e != .lt).getD 128
      let u := if cmpHalf (lo + hi) m e = .lt then hi else lo
      (dptCode n u, flagIf (lo ≠ hi) fNX)

/-! ### S10 (R70 to R72) -/

/-- `n / d` against `2 ^ k`. -/
def leQuot (k : Int) (n d : Nat) : Bool :=
  if 0 ≤ k then d * 2 ^ k.toNat ≤ n else d ≤ n * 2 ^ (-k).toNat

/-- The smallest S10 code at or above a positive quotient `n / d` within the S10 range, and whether they differ (R71). -/
def s10Up (n d : Nat) : Nat × Bool :=
  let k : Int := (Nat.log2 n : Int) - Nat.log2 d
  let k := if leQuot k n d then k else k - 1
  -- n / d = 2^k × (1 + r), 0 ≤ r < 1; the code is the ceiling of 4 r
  let num := 4 * n * 2 ^ (-k).toNat
  let den := d * 2 ^ k.toNat
  let f := (num + den - 1) / den - 4
  (((k + 127) * 4 + f).toNat, f * den + 4 * den ≠ num)

/-- The conversion to S10 of a positive quotient `n / d` times `2 ^ e` (R71). -/
def s10OfQuot (n d : Nat) (e : Int) : FRes :=
  let n' := n * 2 ^ e.toNat
  let d' := d * 2 ^ (-e).toNat
  if !leQuot (-127) n' d' then (0x0000, fNX)
  else if 7 * d' * 2 ^ 125 < n' then (0x03FB, fOF ||| fNX)
  else let (c, inexact) := s10Up n' d'; (c, flagIf inexact fNX)

/-- The conversion of a value, divided by `num / den`, to S10 (R71, R72). -/
def toS10 (num den : Nat) (x : FVal) : FRes :=
  match x with
  | .nan _ | .inf _ => (0x03FC, fNV)
  | .fin n m e => if m = 0 || n then (0x0000, fNX) else s10OfQuot (m * den) num e

/-- The largest finite magnitude of a target as a fraction (R72). -/
def scaleMax : ScaleFmt → Nat × Nat
  | .e4m3 => (448, 1) | .e5m2 => (57344, 1) | .e3m2 => (28, 1) | .e2m3 => (15, 2) | .e2m1 => (6, 1) | .dpt8 => (2, 1)

/-- `scvt` (R72, R154). -/
def scaleCode (f : ScaleFmt) (x : FVal) : FRes := toS10 (scaleMax f).1 (scaleMax f).2 x

/-! ### The conversion rows of R73 -/

/-- A value into a narrow format (R69, R73). -/
def toNFmt (f : NFmt) (sat : Bool) (x : FVal) : FRes :=
  match f with
  | .e4m3 =>
    match x with
    | .nan s => (0x7F, flagIf s fNV)
    | .inf n => (signOf fmtE4M3 n + 0x7E, fOF ||| fNX)
    | .fin n m e => toNarrow fmtE4M3 0x7E n m e
  | .e5m2 =>
    match x with
    | .nan s => (0x7E, flagIf s fNV)
    | .inf n => if sat then (signOf fmtE5M2 n + 0x7B, fOF ||| fNX) else (signOf fmtE5M2 n + 0x7C, 0)
    | .fin n m e => toNarrow fmtE5M2 (if sat then 0x7B else 0x7C) n m e
  | .e3m2 => toFinite fmtE3M2 x
  | .e2m3 => toFinite fmtE2M3 x
  | .e2m1 => toFinite fmtE2M1 x
  | .qi8 => toSmallInt 8 true x
  | .qn8 => toSmallInt 8 false x
  | .qi4 => toSmallInt 4 true x
  | .qn4 => toSmallInt 4 false x
  | .dpt8 => toDpt8 x

/-- `ficvt`: a value to an integer type by a rounding mode (R73, R151). -/
def toInt (t : NumTy) (rm : RMode) (x : FVal) : W64 × FFlags :=
  match x with
  | .nan _ => (0, fNV)
  | .inf n => (t.result (if n then t.lo else t.hi), fNV)
  | .fin n m e =>
    let (v, inexact) := roundInt rm n m e
    if v < t.lo then (t.result t.lo, fNV)
    else if t.hi < v then (t.result t.hi, fNV)
    else (t.result v, flagIf inexact fNX)

/-- A code placed in its field of a register (R152). -/
def putField (w pos : Nat) (old : W32) (c : Nat) : W32 :=
  let m := BitVec.ofNat 32 ((2 ^ w - 1) * 2 ^ (w * pos))
  (old &&& ~~~ m) ||| (BitVec.ofNat 32 (c % 2 ^ w * 2 ^ (w * pos)))

/-- A field of a register (R153). -/
def getField (w pos : Nat) (x : W32) : Nat := x.toNat / 2 ^ (w * pos) % 2 ^ w

end Sys2Proof.Machine
end

