-- ==== Sys2Proof/Machine/Matrix.lean ====
section
/-!
DEFINITION. The matrix engine: tiles, the arithmetic of products, the matrix words and their entries (03 R75 to R79, 13 R282 to R305).
-/
namespace Sys2Proof.Machine

/-! ### Tiles (R282 to R284) -/

/-- Element number `e` of a tile. -/
def Tile.get (x : Tile) (e : Nat) : W32 := tget 0 x.elems e

/-- A row of a tile. -/
def Tile.row (x : Tile) (i : Nat) : List W32 := (List.range 64).map fun j => x.get (64 * i + j)

/-- A row written: its words are clean (R250). -/
def Tile.setRow (x : Tile) (i : Nat) (ys : List W32) : Tile :=
  let new := ((List.range 64).map fun j => (64 * i + j, (ys[j]?).getD 0)).filter fun e => e.2 != 0
  { x with elems := x.elems.takeWhile (fun e => e.1 < 64 * i) ++ new ++ x.elems.dropWhile (fun e => e.1 < 64 * i + 64),
           psnWords := x.psnWords.filter fun w => w / 32 != i }

/-- Every bit of the tile and of its status word 0 (R301). -/
def Tile.cleared (x : Tile) : Tile := { x with elems := [], status := 0, psnWords := [] }

/-- The word of an element, or some word of a row, holds an uncorrectable error (R249). -/
def Tile.elemPsn (x : Tile) (e : Nat) : Bool := x.psnWords.contains (e / 2)
def Tile.rowPsn (x : Tile) (i : Nat) : Bool := x.psnWords.any fun w => w / 32 == i

/-- The status bits (R283). -/
def Tile.psn (x : Tile) : Bool := x.status.getLsbD 0
def statusOf (ws : BitVec 4) (ovf psn : Bool) : BitVec 8 := BitVec.ofNat 8 (ws.toNat * 4 + ovf.toNat * 2 + psn.toNat)
def Tile.ws (x : Tile) : BitVec 4 := BitVec.ofNat 4 (bits x.status.toNat 5 2)
def Tile.ovf (x : Tile) : Bool := x.status.getLsbD 1
def Tile.markPsn (x : Tile) : Tile := { x with status := x.status ||| 1 }

def Tile.zero : Tile := ⟨[], 0, [], none⟩
/-- Poison that a read of the whole tile meets (R250). -/
def Tile.anyPsn (x : Tile) : Bool := x.psn || !x.psnWords.isEmpty

def Truss.tile (t : Truss) (n : Nat) : Tile := (t.tiles[n]?).getD Tile.zero
def Truss.modTile (t : Truss) (n : Nat) (f : Tile → Tile) : Truss := { t with tiles := t.tiles.modify n f }

/-! ### Arithmetic (R75 to R78) -/

/-- The value of an operand code of format `f` (R59, R65 to R67). -/
def fmtVal (f c : Nat) : FVal :=
  match f with
  | 0 => fmtF64.decode c | 1 => fmtF32.decode c | 2 => fmtBF16.decode c | 3 => fmtF16.decode c
  | 4 => narrowVal .e4m3 c | 5 => narrowVal .e5m2 c | 6 => narrowVal .e3m2 c | 7 => narrowVal .e2m3 c
  | 8 => narrowVal .e2m1 c | 9 => narrowVal .qi8 c | 10 => narrowVal .qn8 c | 11 => narrowVal .qi4 c
  | 12 => narrowVal .qn4 c | _ => narrowVal .dpt8 c

/-- The integer of a code of an integer format, or of DPT8 in units of 2^−6 (R66, R78). -/
def fmtInt (f c : Nat) : Int :=
  match f with
  | 9 => signed 8 c | 10 => (c % 256 : Nat) | 11 => signed 4 c | 12 => (c % 16 : Nat) | _ => dptUnits c

/-- The exact sum of products in the group's window, as a value (R76). -/
def windowSum (ps : List (Bool × Nat × Int)) : FVal :=
  let nz := ps.filter fun p => p.2.1 ≠ 0
  match nz with
  | [] => .fin false 0 0
  | p :: rest =>
    let top := fun (q : Bool × Nat × Int) => (Nat.log2 q.2.1 : Int) + q.2.2
    let E := rest.foldl (fun e q => max e (top q)) (top p)
    let w := E - 49
    let s := nz.foldl (fun (a : Int) q =>
      let sh := q.2.2 - w
      let m : Nat := if 0 ≤ sh then q.2.1 * 2 ^ sh.toNat else q.2.1 / 2 ^ (-sh).toNat
      if q.1 then a - m else a + m) 0
    .fin (s < 0) s.natAbs w

/-- An exact product; a NaN for a NaN or for 0 × ∞ (R77). -/
def isNanVal : FVal → Bool | .nan _ => true | _ => false

/-- The contribution s32 of one group, before its rounding (R76, R77). -/
def groupVal (as bs : List FVal) (sA sB : FVal) : FVal :=
  let ps := List.zipWith mulVal as bs
  let infs := fun (n : Bool) => ps.any fun p => match p with | .inf m => m == n | _ => false
  if ps.any isNanVal || isNanVal sA || isNanVal sB || (infs true && infs false) then .nan false
  else if infs true then .inf true
  else if infs false then .inf false
  else
    let s := windowSum (ps.map fun p => match p with | .fin n m e => (n, m, e) | _ => (false, 0, 0))
    match mulVal (mulVal s sA) sB with
    | .fin n m e => .fin (n && m != 0) m e
    | v => v

/-- Consecutive groups of `g` (R75). -/
def groups {α : Type} (g : Nat) : (fuel : Nat) → List α → List (List α)
  | 0, _ => []
  | _, [] => []
  | n + 1, xs => xs.take g :: groups g n (xs.drop g)

/-- One output element with floating accumulation in FP32 (R76, R77). -/
def dotF32 (fa fb g : Nat) (as bs sas sbs : List Nat) (acc : Nat) : Nat :=
  let ga := groups g as.length (as.map (fmtVal fa))
  let gb := groups g bs.length (bs.map (fmtVal fb))
  let scale := fun (ss : List Nat) (i : Nat) => match ss[i]? with | some c => s10Val c | none => .fin false 1 0
  (List.range ga.length).foldl (fun acc i =>
    let s := (fmtF32.ofVal .rne (groupVal ((ga[i]?).getD []) ((gb[i]?).getD []) (scale sas i) (scale sbs i))).1
    (fAdd fmtF32 .rne (fmtF32.decode acc) (fmtF32.decode s)).1) acc

/-- One output element of FP64 operands: a fused step for each k (R76). -/
def dotF64 (as bs : List Nat) (acc : Nat) : Nat :=
  (List.zip as bs).foldl (fun acc p =>
    (fFma fmtF64 .rne (fmtF64.decode p.1) (fmtF64.decode p.2) (fmtF64.decode acc)).1) acc

/-- One output element of integer operands, and whether a running sum left the range (R78). -/
def dotI32 (fa fb : Nat) (as bs : List Nat) (acc : Nat) : Nat × Bool :=
  let r := (List.zip as bs).foldl (fun (st : Int × Bool) p =>
    let x := st.1 + fmtInt fa p.1 * fmtInt fb p.2
    (x, st.2 || x < -(2 ^ 31 : Nat) || (2 ^ 31 : Nat) ≤ x)) (signed 32 acc, false)
  (wrap 32 r.1, r.2)

/-! ### Format pairs and the format block (R289, R290) -/

def isF8 (f : Nat) : Bool := f == 4 || f == 5
def isI8 (f : Nat) : Bool := f == 9 || f == 10
def isF6 (f : Nat) : Bool := f == 6 || f == 7 || f == 8
def isI4 (f : Nat) : Bool := f == 11 || f == 12
def scalable (f : Nat) : Bool := (4 ≤ f && f ≤ 8) || f == 13

/-- Accumulate type (0 f32, 1 i32, 2 f64) and depth K of a pair, when the pair and its scaling are allowed (R289). -/
def pairInfo (a b : Nat) (sa sb : Bool) : Option (Nat × Nat) :=
  let plain := !sa && !sb
  if a = 0 && b = 0 && plain then some (2, 8)
  else if a = 1 && b = 1 && plain then some (0, 16)
  else if a = b && (a = 2 || a = 3) && plain then some (0, 64)
  else if isF8 a && isF8 b then some (0, 128)
  else if isI8 a && isI8 b && plain then some (1, 128)
  else if isF6 a && isF6 b then some (0, 256)
  else if isI4 a && isI4 b && plain then some (1, 256)
  else if (a = 13 && isF8 b) || (isF8 a && b = 13) then some (0, 512)
  else if a = 13 && isI8 b && !sb then some (if sa then 0 else 1, 512)
  else if isI8 a && b = 13 && !sa then some (if sb then 0 else 1, 512)
  else none

/-- The fields of a format block (R290). -/
structure FmtBlock where
  af  : Nat
  as_ : Bool
  bf  : Nat
  bs  : Bool
  bl  : Nat
  ase : Nat
  bse : Nat
  acc : Nat
  an  : Nat
  bn  : Nat

def fmtBlock (w : Nat) : FmtBlock :=
  ⟨bits w 4 0, bit w 5, bits w 10 6, bit w 11, bits w 13 12, bits w 21 14, bits w 29 22, bits w 31 30, bits w 39 32, bits w 47 40⟩

/-- The block length L. -/
def FmtBlock.len (f : FmtBlock) : Nat := 16 * 2 ^ f.bl

/-- The group size G (R75). -/
def FmtBlock.group (f : FmtBlock) : Nat :=
  if f.as_ || f.bs then f.len else if f.af = 0 then 1 else if f.af = 1 then 4 else if f.af = 2 || f.af = 3 then 16 else 32

/-- Blocks of scales that `k` elements need. -/
def FmtBlock.blocks (f : FmtBlock) (k : Nat) : Nat := (k + f.len - 1) / f.len

/-- A field of an unscaled operand that is not 0 (R290). -/
def FmtBlock.stray (f : FmtBlock) : Bool :=
  (!f.as_ && (f.ase ≠ 0 || f.an ≠ 0)) || (!f.bs && (f.bse ≠ 0 || f.bn ≠ 0)) || (!f.as_ && !f.bs && f.bl ≠ 0)

/-! ### The checks at issue (R44, R292) -/

/-- A matrix word needs all 32 lanes active with a true guard (R44). -/
def Ctx.converged (x : Ctx) (gd : Guard) (f : Unit → Res) : Res :=
  if x.r.exec gd = 0xFFFFFFFF then f () else .trap 0x06 0 0

/-- The operands of an `mma` or `mmaz` at issue. -/
structure MmaOps where
  la  : Layout
  lb  : Layout
  lsa : Layout
  lsb : Layout
  ca0 : Int
  ca1 : Int
  cb0 : Int
  cb1 : Int
  fmt : W64
  k   : W64

def Ctx.mmaOps (x : Ctx) (la : Fin 256) (gca : GReg) (lb : Fin 256) (gcb gf gk : GReg) : MmaOps :=
  let ly := x.t.layout x.s.tick x.c.course
  let f := fmtBlock (x.r.gget gf).toNat
  ⟨ly la, ly lb, ly f.ase, ly f.bse, x.r.coord gca, x.r.coord (gca.val + 1), x.r.coord gcb, x.r.coord (gcb.val + 1),
    x.r.gget gf, x.r.gget gk⟩

/-- Steps 1 to 9 of R292: the DETAIL of the first FMT fault. -/
def MmaOps.fmtFault (o : MmaOps) (acc tiles : Nat) : Option Nat :=
  let f := fmtBlock o.fmt.toNat
  if bits o.fmt.toNat 63 48 ≠ 0 || 14 ≤ f.af || 14 ≤ f.bf || f.bl = 3 || f.acc = 3 || f.stray then some 0x00
  else if (f.as_ && !scalable f.af) || (f.bs && !scalable f.bf) then some 0x01
  else
    match pairInfo f.af f.bf f.as_ f.bs with
    | none => some 0x02
    | some (ty, depth) =>
      if f.acc ≠ ty then some 0x03
      else if ty = 2 && (acc % 2 = 1 || tiles ≤ acc + 1) then some 0x03
      else if o.la.fmt ≠ f.af then some 0x04
      else if o.lb.fmt ≠ f.bf then some 0x05
      else if o.la.space = 3 || o.lb.space = 3 || (f.as_ && o.lsa.space ≠ 3) || (f.bs && o.lsb.space ≠ 3) then some 0x06
      else if depth < bits o.k.toNat 9 0 || bits o.k.toNat 63 10 ≠ 0 then some 0x07
      else if (f.as_ && o.ca0 % f.len ≠ 0) || (f.bs && o.cb1 % f.len ≠ 0) then some 0x08
      else none

/-- Step 10 of R292: the layout checks over every element that R294 reads, in the order of R206. The entry
of an operand is checked before its own elements and after the operands before it (DESIGN CHOICE, log 90). -/
def MmaOps.layFault (o : MmaOps) (t : Truss) : Option LayFault :=
  let f := fmtBlock o.fmt.toNat
  let k := bits o.k.toNat 9 0
  let nb := f.blocks k
  let L : Int := f.len
  let next := fun (a : Option LayFault) (b : Option LayFault) => match a with | some x => some x | none => b
  next (o.la.faults t ⟨[o.ca0, o.ca1], [k, 64], [0, 1]⟩)
    (next (o.lb.faults t ⟨[o.cb0, o.cb1], [64, k], [0, 1]⟩)
      (next (if f.as_ then o.lsa.faults t ⟨[o.ca0 / L, o.ca1], [nb, 64], [0, 1]⟩ else none)
        (if f.bs then o.lsb.faults t ⟨[o.cb1 / L, o.cb0], [nb, 64], [1, 0]⟩ else none)))

/-- The effect of `mma` and `mmaz` (R292, R293): a `csrw` to ROWPROG chooses the start row (R298). -/
def mmaEffect (x : Ctx) (gd : Guard) (tk : Tok) (acc : Nat) (o : MmaOps) (zero : Bool) : Res :=
  x.converged gd fun _ =>
    match o.fmtFault acc x.t.tiles.length with
    | some d => .trap 0x0D d 0
    | none =>
      match o.layFault x.t with
      | some (d, fa) => .trap 0x16 d fa
      | none =>
        let f := fmtBlock o.fmt.toNat
        let k := bits o.k.toNat 9 0
        if f.as_ && f.an < f.blocks k then .trap 0x0E 0x00 0
        else if f.bs && f.bn < f.blocks k then .trap 0x0E 0x01 0
        else
          let start := if x.k.rowStart && x.k.rowprog.getLsbD 7 then bits x.k.rowprog.toNat 6 0 else 0
          { x with k := { x.k with rowStart := false } }.enqueue .mat (some tk) []
            (.mma zero acc o.la o.lb o.lsa o.lsb o.ca0 o.ca1 o.cb0 o.cb1 o.fmt k) start

def execMma (gd : Guard) (tk : Tok) (acc : Fin 64) (la : Fin 256) (gca : GReg) (lb : Fin 256) (gcb gf gk : GReg) (s : State) :
    Out :=
  .next (issue (.mma gd tk acc la gca lb gcb gf gk) s fun x => mmaEffect x gd tk acc (x.mmaOps la gca lb gcb gf gk) false)

def execMmaz (gd : Guard) (tk : Tok) (acc : Fin 64) (la : Fin 256) (gca : GReg) (lb : Fin 256) (gcb gf gk : GReg) (s : State) :
    Out :=
  .next (issue (.mmaz gd tk acc la gca lb gcb gf gk) s fun x => mmaEffect x gd tk acc (x.mmaOps la gca lb gcb gf gk) true)

/-! ### Tile housekeeping words (R300 to R304) -/

def execAccz (gd : Guard) (tk : Tok) (acc n1 : Fin 64) (s : State) : Out :=
  .next (issue (.accz gd tk acc n1) s fun x => x.converged gd fun _ => x.enqueue .mat (some tk) [] (.accz acc (n1.val + 1)))

/-- The tile types and formats that go together (R302). -/
def tilePair (tt : TileTy) (l : Layout) (acc : Nat) : Bool :=
  l.space ≠ 3 && match tt with
    | .f32 => l.fmt = 1 || l.fmt = 2 || l.fmt = 3
    | .i32 => l.fmt = 1
    | .f64 => l.fmt = 0 && acc % 2 = 0

/-- The effect of `accld` and `accst`. -/
def accMoveEffect (x : Ctx) (gd : Guard) (tk : Tok) (acc : Nat) (l : Fin 256) (gc : GReg) (tt : TileTy) (store : Bool) : Res :=
  x.converged gd fun _ =>
    let e := x.t.layout x.s.tick x.c.course l
    let c0 := x.r.coord gc
    let c1 := x.r.coord (gc.val + 1)
    if !tilePair tt e acc then .trap 0x0D 0x09 0
    else match e.faults x.t ⟨[c0, c1], [64, 64], [0, 1]⟩ with
      | some (d, fa) => .trap 0x16 d fa
      | none => x.enqueue .mat (some tk) [] (if store then .accst acc e c0 c1 tt else .accld acc e c0 c1 tt)

def execAccld (gd : Guard) (tk : Tok) (acc : Fin 64) (l : Fin 256) (gc : GReg) (tt : TileTy) (s : State) : Out :=
  .next (issue (.accld gd tk acc l gc tt) s fun x => accMoveEffect x gd tk acc l gc tt false)

def execAccst (gd : Guard) (tk : Tok) (acc : Fin 64) (l : Fin 256) (gc : GReg) (tt : TileTy) (s : State) : Out :=
  .next (issue (.accst gd tk acc l gc tt) s fun x => accMoveEffect x gd tk acc l gc tt true)

/-- A v register pair as a destination. -/
def vPairDest (d : VReg) : List RegVal := runWrites d 2 0xFFFFFFFF fun _ => 0

def execAccmvGet (gd : Guard) (tk : Tok) (acc : Fin 64) (v : VReg) (gr : GReg) (s : State) : Out :=
  .next (issue (.accmvGet gd tk acc v gr) s fun x => x.converged gd fun _ =>
    x.enqueue .mat (some tk) (vPairDest v) (.accGet acc v ((x.r.gget gr).toNat % 64)))

/-- The 64 elements of a row as a register pair holds them (R303). -/
def Course.pairRow (k : Course) (v : Nat) : List W32 := ((List.range 32).map fun l => [k.vget v l, k.vget (v + 1) l]).flatten

def execAccmvPut (gd : Guard) (tk : Tok) (acc : Fin 64) (v : VReg) (gr : GReg) (s : State) : Out :=
  .next (issue (.accmvPut gd tk acc v gr) s fun x => x.converged gd fun _ =>
    x.enqueue .mat (some tk) [] (.accPut acc ((x.r.gget gr).toNat % 64) (x.r.pairRow v)))

def execAccmvStat (gd : Guard) (tk : Tok) (acc : Fin 64) (d gr : GReg) (clr : Bool) (s : State) : Out :=
  .next (issue (.accmvStat gd tk acc d gr clr) s fun x => x.converged gd fun _ =>
    x.enqueue .mat (some tk) [.g d 0] (.accStat acc d clr))

def execAccmvCopy (gd : Guard) (tk : Tok) (acc src : Fin 64) (gr : GReg) (s : State) : Out :=
  .next (issue (.accmvCopy gd tk acc src gr) s fun x => x.converged gd fun _ =>
    x.enqueue .mat (some tk) [] (.accCopy acc src))

def execAccsc (gd : Guard) (tk : Tok) (acc : Fin 64) (gs : GReg) (i32 : Bool) (s : State) : Out :=
  .next (issue (.accsc gd tk acc gs i32) s fun x => x.converged gd fun _ =>
    x.enqueue .mat (some tk) [] (.accsc acc ((x.r.gget gs).truncate 32) i32))

def execMtest (gd : Guard) (tk : Tok) (d : GReg) (s : State) : Out :=
  .next (issue (.mtest gd tk d) s fun x => x.converged gd fun _ => x.enqueue .mat (some tk) [.g d 0] (.mtest d))

/-! ### The engine executes an entry (R286, R294 to R296) -/

/-- A core's sub-arrays in service (R299). -/
def Core.inService (c : Core) : BitVec 4 := ~~~ c.fenced

/-- The columns of B and of its scales, read once (R288, R294). -/
def State.loadColumns (s : State) (at_ : EngineAt) (l : Layout) (xs : Nat → List (List Int)) :
    (n j : Nat) → State × Except Halted (List (List Nat) × Got)
  | 0, _ => (s, .ok ([], ⟨[], false, false⟩))
  | n + 1, j =>
    match s.loadElems at_ l (xs j) with
    | (s, .error h) => (s, .error h)
    | (s, .ok (cs, g)) =>
      match s.loadColumns at_ l xs n (j + 1) with
      | (s, .error h) => (s, .error h)
      | (s, .ok (rest, g')) => (s, .ok (cs :: rest, ⟨[], g.poison || g'.poison, g.drop || g'.drop⟩))

/-- An `mma`'s B operand and scales join its entry. -/
def State.mmaCache (s : State) (at_ : EngineAt) (e : QEntry) (lb lsb : Layout) (cb0 cb1 : Int) (f : FmtBlock) (k : Nat) :
    State × QEntry :=
  match s.loadColumns at_ lb (fun j => (List.range k).map fun (i : Nat) => [cb0 + j, cb1 + i]) 64 0 with
  | (s, .error h) => (s, e.halt h)
  | (s, .ok (bs, g)) =>
    let nb := if f.bs then f.blocks k else 0
    match s.loadColumns at_ lsb (fun j => (List.range nb).map fun (b : Nat) => [cb1 / (f.len : Int) + b, cb0 + j]) 64 0 with
    | (s, .error h) => (s, e.halt h)
    | (s, .ok (ss, g')) => (s, { (e.note g).note g' with cached := true, cache := bs ++ ss })

/-- ROWPROG of the issuing course (R295). -/
def State.setRowprog (s : State) (tn course : Nat) (w : W32) : State := s.modCourse ⟨tn, course⟩ fun k => { k with rowprog := w }

/-- One row of an `mma`: its A elements are read, its 64 elements computed, and the row committed (R294, R295). -/
def State.mmaRow (s : State) (at_ : EngineAt) (e : QEntry) (zero : Bool) (acc : Nat) (la lsa : Layout) (ca0 ca1 : Int)
    (f : FmtBlock) (k : Nat) : State × QEntry :=
  let i := e.done
  match s.loadElems at_ la ((List.range k).map fun (q : Nat) => [ca0 + q, ca1 + i]) with
  | (s, .error h) => (s, e.halt h)
  | (s, .ok (as, g)) =>
    let nb := if f.as_ then f.blocks k else 0
    match s.loadElems at_ lsa ((List.range nb).map fun (b : Nat) => [ca0 / (f.len : Int) + b, ca1 + i]) with
    | (s, .error h) => (s, e.halt h)
    | (s, .ok (sas, g')) =>
      let t := (s.truss? at_.tn).getD at_.t
      let lo := t.tile acc
      let hi := t.tile (acc + 1)
      let col := fun j => (e.cache[j]?).getD []
      let old := fun (x : Tile) j => if zero then 0 else (x.get (64 * i + j)).toNat
      let out : List (Nat × Bool) := (List.range 64).map fun j =>
        if f.acc = 2 then (dotF64 as (col j) (old lo j + old hi j * 2 ^ 32), false)
        else if f.acc = 1 then dotI32 f.af f.bf as (col j) (old lo j)
        else (dotF32 f.af f.bf f.group as (col j) sas (col (64 + j)) (old lo j), false)
      let put := fun (sh : Nat) (x : Tile) =>
        { x.setRow i (out.map fun o => BitVec.ofNat 32 (o.1 / 2 ^ sh)) with wrote := some s.clk }
      let s := s.modTruss at_.tn fun t =>
        let t := t.modTile acc (put 0)
        if f.acc = 2 then t.modTile (acc + 1) (put 32) else t
      let s := s.setRowprog at_.tn e.course (BitVec.ofNat 32 (128 + i + 1))
      let bad := !zero && (lo.rowPsn i || (f.acc = 2 && hi.rowPsn i))
      (s, { (e.note g).note g' with
        done := i + 1, full := i + 1 = 64, wrote := true, ovf := e.ovf || out.any (·.2), poison := e.poison || g.poison || g'.poison || bad,
        subs := e.subs ||| (s.core at_.t.core).inService })

/-- Rows of a tile read or written for `accld` and `accst`: the two halves of an f64 element (R282, R302). -/
def tileCode (t : Truss) (acc : Nat) (tt : TileTy) (e : Nat) : Nat :=
  ((t.tile acc).get e).toNat + if tt = .f64 then ((t.tile (acc + 1)).get e).toNat * 2 ^ 32 else 0

/-- An element's code on its way into a tile (R73, R302). -/
def accldCode (fmt c : Nat) : Nat :=
  if fmt = 2 || fmt = 3 then (fmtF32.ofVal .rne (fmtVal fmt c)).1 else c

/-- An element's code on its way out of a tile (R73, R302). -/
def accstCode (fmt c : Nat) : Nat :=
  if fmt = 2 then (fmtBF16.ofVal .rne (fmtF32.decode c)).1
  else if fmt = 3 then (fmtF16.ofVal .rne (fmtF32.decode c)).1 else c

/-- One row of an `accld`; an out-of-bounds element takes +0 (R302). -/
def State.accldRow (s : State) (at_ : EngineAt) (e : QEntry) (acc : Nat) (l : Layout) (c0 c1 : Int) (tt : TileTy) : State × QEntry :=
  let i := e.done
  match s.loadElems at_ l ((List.range 64).map fun (j : Nat) => [c0 + j, c1 + i]) with
  | (s, .error h) => (s, e.halt h)
  | (s, .ok (cs, g)) =>
    let put := fun (sh : Nat) (x : Tile) =>
      { x.setRow i (cs.map fun c => BitVec.ofNat 32 (accldCode l.fmt c / 2 ^ sh)) with wrote := some s.clk }
    let s := s.modTruss at_.tn fun t =>
      let t := t.modTile acc (put 0)
      if tt = .f64 then t.modTile (acc + 1) (put 32) else t
    (s, { e.note g with done := i + 1, full := i + 1 = 64, wrote := true })

/-- Elements of one row of an `accst`, from element `j` on; a row that halts goes on at its element (R302). -/
def State.accstRow (s : State) (at_ : EngineAt) (e : QEntry) (l : Layout) (c0 c1 : Int) (codes : Nat → Nat) (psn : Nat → Bool) :
    (n : Nat) → State × QEntry
  | 0 => (s, e)
  | n + 1 =>
    let i := e.done / 64
    let j := e.done % 64
    let ps := l.elemParts at_.t.spanPos 0 0 [c0 + j, c1 + i] (some (accstCode l.fmt (codes e.done)))
    match s.engineStore at_ (psn e.done) (fun _ => false) ps with
    | (s, .error h) => (s, e.halt h)
    | (s, .ok d) =>
      let bad := psn e.done
      s.accstRow at_ { e with done := e.done + 1, full := e.done + 1 = 4096, drop := e.drop || d, poison := e.poison || bad,
                              wait := .untranslated } l c0 c1 codes psn n

/-- `accsc` on one element (R304). -/
def scaleElem (f : W32) (i32 : Bool) (x : W32) : W32 :=
  let a : FVal := if i32 then intVal x.toInt 0 else fmtF32.decode x.toNat
  BitVec.ofNat 32 (fMul fmtF32 .rne a (fmtF32.decode f.toNat)).1

/-- The result of an entry that writes registers, and what poison it consumes (R303). -/
def QEntry.results (e : QEntry) (t : Truss) : List RegVal × Bool :=
  match e.body with
  | .accGet acc v row =>
    let r := (t.tile acc).row row
    let x := fun h => laneVec fun l => (r[2 * l + h]?).getD 0
    ((if h : v + 1 < 256 then [RegVal.v ⟨v, by omega⟩ 0xFFFFFFFF (x 0), .v ⟨v + 1, h⟩ 0xFFFFFFFF (x 1)] else []),
      (t.tile acc).psn || (t.tile acc).rowPsn row)
  | .accStat acc d _ =>
    ((if h : d < 64 then [RegVal.g ⟨d, h⟩ ((t.tile acc).status.zeroExtend 64)] else []), false)
  | _ => ([], false)

/-- The effect of an entry that acts in one step; the others go row by row. Poison goes along with the data of a tile that is copied or
scaled, and the entry completes POISONED (R250). -/
def State.tileStep (s : State) (at_ : EngineAt) (e : QEntry) : State × QEntry :=
  let bad := match e.body with | .accCopy _ src => (at_.t.tile src).anyPsn | .accsc acc .. => (at_.t.tile acc).anyPsn | _ => false
  let upd := fun (f : Truss → Truss) => (s.modTruss at_.tn f, { e with full := true, wrote := true, poison := e.poison || bad })
  match e.body with
  | .accz acc n => upd fun t => (List.range n).foldl (fun t i => t.modTile (acc + i) fun x => { x.cleared with wrote := some s.clk }) t
  | .accPut acc row vals => upd fun t => t.modTile acc fun x => { x.setRow row vals with wrote := some s.clk }
  | .accCopy acc src => upd fun t => t.modTile acc fun _ => { t.tile src with wrote := some s.clk }
  | .accsc acc f i32 => upd fun t => t.modTile acc fun x =>
      { (List.range 64).foldl (fun x i => x.setRow i ((x.row i).map (scaleElem f i32))) x with
        wrote := some s.clk, psnWords := x.psnWords }
  | _ => upd id

/-- One step of an entry's work, by its body. -/
def State.matWork (s : State) (at_ : EngineAt) (e : QEntry) : State × QEntry :=
  match e.body with
  | .mma zero acc la lb lsa lsb ca0 ca1 cb0 cb1 fmt k =>
    let f := fmtBlock fmt.toNat
    if 64 ≤ e.done then (s, { e with full := true })
    else if !e.cached then s.mmaCache at_ e lb lsb cb0 cb1 f k
    else s.mmaRow at_ e zero acc la lsa ca0 ca1 f k
  | .accld acc l c0 c1 tt => s.accldRow at_ e acc l c0 c1 tt
  | .accst acc l c0 c1 tt =>
    let two := fun (p : Tile → Bool) => p (at_.t.tile acc) || (tt = .f64 && p (at_.t.tile (acc + 1)))
    if at_.t.items.guarded then
      if !e.cached then
        (s, { e with cached := true, issued := s.clk,
                     cache := [(List.range 4096).map (tileCode at_.t acc tt),
                               (List.range 4096).filter fun i => two fun x => x.psn || x.elemPsn i] })
      else
        let cs := e.cache.headD []
        let ps := (e.cache.drop 1).headD []
        (s.advanceTo (e.issued + Config.strikeWindow)).accstRow at_ e l c0 c1 (fun i => (cs[i]?).getD 0) ps.contains 64
    else s.accstRow at_ e l c0 c1 (tileCode at_.t acc tt) (fun i => two fun x => x.psn || x.elemPsn i) 64
  | _ => s.tileStep at_ e

/-- Bodies that write a tile (R441). -/
def EntryBody.writesTile : EntryBody → Bool
  | .mma .. | .accz .. | .accld .. | .accPut .. | .accCopy .. | .accsc .. => true
  | _ => false

/-- The course of an entry that writes a tile is known to have written at this cycle (R441). -/
def State.noteWrite (s : State) (tn : Nat) (e : QEntry) : State :=
  if e.body.writesTile && e.wrote then s.modCourse ⟨tn, e.course⟩ fun k => { k with matWrote := some (s.clk, s.coreOf ⟨tn, e.course⟩) } else s

/-- Steps of an entry until it is full, waits, or `n` steps are done. -/
def State.matRun (s : State) (core tn : Nat) (e : QEntry) : Nat → State × QEntry
  | 0 => (s, e)
  | n + 1 =>
    match s.truss? tn with
    | none => (s, e)
    | some t =>
      let (s, e) := s.matWork ⟨tn, t, t.entryAgent e 2⟩ e
      let s := s.noteWrite tn e
      if e.full || e.wait.waits then (s, e) else s.matRun core tn e n

/-- An entry the matrix engine executes; ring effects and fences are not (R362, R374). -/
def EntryBody.forEngine : EntryBody → Bool
  | .ring .. | .qfence .. => false
  | _ => true

/-- The self-test is due before the next entry (R299). -/
def Core.testDue (c : Core) : Bool := c.mtint ≠ 0 && c.mtint.toNat ≤ c.mcount

/-- The truss whose entry the engine executes: the one it is executing, or the next (R286). -/
def State.matNext (s : State) (core : Nat) : Option Nat :=
  match (s.core core).matBusy with
  | some n => some n
  | none =>
    if (s.core core).testDue then none
    else s.roundRobin ((s.trussesOn core).filter fun n =>
      match (s.truss? n).bind (·.head? .mat) with
      | some e => !e.held && e.body.forEngine && !s.entryAwaits n e
      | none => false) (s.core core).matLast

/-- The engine takes the next entry, or goes on with the one it has, for `rows` rows. With every sub-array fenced, it writes nothing
(R299). -/
def matrixStart (s : State) (core rows : Nat) : State :=
  match s.matNext core with
  | none => s
  | some tn =>
    match (s.truss? tn).bind (·.head? .mat) with
    | none => s
    | some e =>
      if e.wait.waits || e.full then s
      else
        let s := s.modCore core fun c => { c with matBusy := some tn, matLast := some tn }
        let s := s.modTruss tn fun t => { t with tested := false }
        let svc := (s.core core).inService
        let e := { e with begun := true }
        let (s, e) := match e.aborted with
          | some e => (s, e)
          | none =>
            if svc = 0 then (s, { e with full := true, poison := true })
            else
              s.matRun core tn e (rows + 1)
        s.setEntry tn .mat e

/-- While power or heat is in excess the engine may withhold its cycles (R454). -/
def execMatrixEntryStart (core rows : Nat) (s : State) : Out := .next (if s.withholds then s else matrixStart s core rows)

/-! ### Completion (R284, R286, R295) -/

/-- A self-test of a core: sub-arrays in service that fail are fenced, and their tiles poisoned; those that pass lose their WS bits
(R299). The rows that an unfinished product has committed are judged with its own record of sub-arrays (R285, R297). -/
def State.selfTest (s : State) (core : Nat) (failed : BitVec 4) : State :=
  let svc := (s.core core).inService
  let bad := failed &&& svc
  let pass := svc &&& ~~~ failed
  let mark := fun (x : Tile) =>
    let x := if x.ws &&& bad ≠ 0 then x.markPsn else x
    { x with status := statusOf (x.ws &&& ~~~ pass) x.ovf x.psn }
  let s : State := { s with
    trusses := s.trusses.map fun t =>
      if t.place = .onCore core then
        { t with tiles := t.tiles.map mark, tested := t.tested || t.evict,
                 matQ := t.matQ.map fun e => { e with poison := e.poison || e.subs &&& bad ≠ 0, subs := e.subs &&& ~~~ pass } }
      else t }
  let s := s.modCore core fun c =>
    { c with fenced := c.fenced ||| bad, acc := c.acc.map fun e => (e.1, { e.2 with tiles := e.2.tiles.map mark }) }
  (List.range 4).foldl (fun s i =>
    if bad.getLsbD i then
      let s := s.postEvent 0x23 2 noVd 0 (BitVec.ofNat 64 (core + i * 2 ^ 8)) ((s.core core).inService.zeroExtend 64)
      let s := s.postEvent 0x28 2 noVd 0 7 (BitVec.ofNat 64 core)
      { s with rrcnt := s.rrcnt + 1,
               degrade := BitVec.ofNat 64 (s.degrade.toNat - bits s.degrade.toNat 7 0 + (bits s.degrade.toNat 7 0 + 1) % 256) }
    else s) s

/-- Status of the tiles an entry wrote, at its completion (R284, R295). A product that ends in PERM after a row was committed adds what its
rows bring and clears nothing (DESIGN CHOICE, log 75: R296 names no status). -/
def State.matStatus (s : State) (tn : Nat) (e : QEntry) : State :=
  let upd := fun (n : Nat) (f : Tile → Tile) => s.modTruss tn fun t => t.modTile n f
  match e.body with
  | .mma zero acc _ _ _ _ _ _ _ _ fmt _ =>
    let fresh := zero && e.fault.isNone
    let set := fun (x : Tile) =>
      { x with status := statusOf (x.ws ||| e.subs) ((!fresh && x.ovf) || e.ovf) ((!fresh && x.psn) || e.poison) }
    let s := upd acc set
    if (fmtBlock fmt.toNat).acc = 2 then s.modTruss tn fun t => t.modTile (acc + 1) set else s
  | .accld acc _ _ _ tt =>
    let set := fun (x : Tile) => { x with status := statusOf 0 false e.poison }
    let s := upd acc set
    if tt = .f64 then s.modTruss tn fun t => t.modTile (acc + 1) set else s
  | .accStat acc _ clr => if clr then upd acc fun x => { x with status := statusOf x.ws false x.psn } else s
  | _ => s

/-- MACs of a completed entry (R286). -/
def QEntry.macs (e : QEntry) : Nat := match e.body with | .mma _ _ _ _ _ _ _ _ _ _ _ k => 64 * 64 * k | _ => 0

/-- The entry the engine has finished completes: tile status, MACS, ROWPROG, event counter 7, the periodic count, and its token. -/
def matrixComplete (s : State) (core : Nat) : State :=
  match (s.core core).matBusy with
  | none => s
  | some tn =>
    match s.truss? tn with
    | none => s
    | some t =>
      match t.head? .mat with
      | none => s
      | some e =>
        let isMma := match e.body with | .mma .. => true | _ => false
        let dead := (s.core core).inService = 0
        if !e.full || (match e.body with | .mtest _ => !dead | _ => false) then s
        else
          let ws := e.results t
          let s := if !dead && (e.fault.isNone || (isMma && e.wrote)) then s.matStatus tn e else s
          let s := if isMma then s.setRowprog tn e.course 0 else s
          let s := s.modCore core fun c =>
            { c with matBusy := none, mcount := if isMma then c.mcount + 1 else c.mcount }
          let s := if e.fault.isNone && !dead then s.addShare t.space 2 e.macs else s
          let s := s.countEvent core 7 1
          s.endEntry tn .mat e (if dead then [] else ws.1) (ws.2 && !dead) e.status

def execMatrixEntryComplete (core : Nat) (s : State) : Out := .next (matrixComplete s core)

/-- A truss that is to be fully evicted holds tiles: its engine runs a self-test before they leave (R285). -/
def Truss.unproven (t : Truss) : Bool := !t.tiles.isEmpty && !t.tested
def State.testBefore (s : State) (tn : Nat) : Bool :=
  match s.truss? tn with | some t => t.evict && t.unproven | none => false

/-- A self-test product runs: when the periodic count is due, before the next entry, or for the `mtest` the engine has reached (R299,
R300). -/
def execSelfTestProduct (core : Nat) (failed : BitVec 4) (s : State) : Out :=
  .next (
    let svc := (s.core core).inService
    match (s.core core).matBusy with
    | none =>
      if (s.core core).testDue then (s.modCore core fun c => { c with mcount := 0 }).selfTest core failed
      else if (s.trussesOn core).any s.testBefore then s.selfTest core failed
      else s
    | some tn =>
      match (s.truss? tn).bind (·.head? .mat) with
      | some e =>
        match e.body with
        | .mtest d =>
          let s := ((s.modCore core fun c => { c with matBusy := none }).selfTest core failed).countEvent core 7 1
          let y := BitVec.ofNat 64 ((s.core core).inService.toNat + (failed &&& svc).toNat * 16)
          s.endEntry tn .mat e (if h : d < 64 then [.g ⟨d, h⟩ y] else []) false 0
        | _ => s
      | none => s)

end Sys2Proof.Machine
end

