-- ==== Sys2Proof/Machine/Copy.lean ====
section
/-!
DEFINITION. Stage rings, bulk copies and queue fences: their words, and the steps of their entries (16 R358 to R374, R386).
-/
namespace Sys2Proof.Machine

/-! ### Stage rings (R358 to R367) -/

def execRgacqInit (gd : Guard) (rg : Fin 8) (ga : GReg) (s : State) : Out :=
  .next (issue (.rgacqInit gd rg ga) s fun x => x.once gd fun _ => x.trussWord (.ringInit rg (x.r.gget ga)))

/-- A slot goes to the course: gD holds its word, visible to the next word, and the course makes an acquire at truss scope (R361,
R362). A guarded course's acquire or take is held, and its word comes from the ring as the course sees it (R442). -/
def Ctx.ringGet (x : Ctx) (d : GReg) (rg : Fin 8) (take : Bool) : Res :=
  let j := x.c.course
  let r := (x.t.view j).rings[rg]
  let i := r.next take
  match x.trussWord (.ringGet rg i take) with
  | .ok s => .ok (s.modTruss x.c.truss fun t =>
      (t.modCourse j fun k => k.land x.s.tick 1 (.g d (r.word i (take && r.slot i = .abandoned)))).observe j)
  | stop => stop

def execRgacq (gd : Guard) (d : GReg) (rg : Fin 8) (s : State) : Out :=
  .next (issue (.rgacq gd d rg) s fun x => x.once gd fun _ => x.ringGet d rg false)

def execRgtake (gd : Guard) (d : GReg) (rg : Fin 8) (s : State) : Out :=
  .next (issue (.rgtake gd d rg) s fun x => x.once gd fun _ => x.ringGet d rg true)

/-- A commit or a release: its checks, then its effect at issue, or an entry in the named queue; a queue that is empty lets it take
effect at once (R361, R362, R364). A guarded course's is held (R442). -/
def Ctx.ringPut (x : Ctx) (q : QSel) (rg : Fin 8) (w : W64) (commit : Bool) : Res :=
  let j := x.c.course
  let i := bits w.toNat 37 32
  let ph := w.getLsbD 40
  let now := q = .none || (x.t.head? q).isNone
  match ringBegin (x.t.view j) rg w commit with
  | .error (cause, detail, fa) => .trap cause detail fa
  | .ok _ =>
    if x.t.items.guarded then
      if now then
        .ok { x.set { x.k with quarantine := x.k.quarantine ++ [⟨.ringEffect rg i commit ph, x.s.clk, none, x.s.nextId⟩] } with
              nextId := x.s.nextId + 1 }
      else x.enqueue q none [] (.ring rg i commit (some ph))
    else
      match ringBegin x.t rg w commit with
      | .error (cause, detail, fa) => .trap cause detail fa
      | .ok t =>
        if now then .ok (x.s.setTruss x.c.truss ((t.ringEffect rg i commit (some ph)).publish j))
        else ({ x with s := x.s.setTruss x.c.truss t, t := t } : Ctx).enqueue q none [] (.ring rg i commit (some ph))

def execRgcmt (gd : Guard) (q : QSel) (rg : Fin 8) (ga : GReg) (s : State) : Out :=
  .next (issue (.rgcmt gd q rg ga) s fun x => x.once gd fun _ => x.ringPut q rg (x.r.gget ga) true)

def execRgrel (gd : Guard) (q : QSel) (rg : Fin 8) (ga : GReg) (s : State) : Out :=
  .next (issue (.rgrel gd q rg ga) s fun x => x.once gd fun _ => x.ringPut q rg (x.r.gget ga) false)

/-- A ring entry that stands at the head of its queue takes effect (R362). -/
def ringEntryStep (s : State) (tn : Nat) (q : QSel) : State :=
  match s.truss? tn with
  | none => s
  | some t =>
    match t.head? q with
    | some e =>
      match e.body with
      | .ring rg i commit ph =>
        if e.held || !t.onCore then s
        else (s.modTruss tn fun t => (t.ringEffect rg i commit ph).publish e.course).endEntry tn q e [] false 0
      | _ => s
    | none => s

def execRingEntryEffect (truss : Nat) (q : QSel) (s : State) : Out := .next (ringEntryStep s truss q)

/-! ### Queue fences (R323, R374) -/

/-- The fence enters every named queue (R374); a guarded course's entries are held (R442). -/
def Ctx.fenceQueues (x : Ctx) (copy mat net : Bool) : Res :=
  let id := x.s.nextId
  let e := mkEntry id x.c.course none x.s.clk (.qfence copy mat net id) x.t.items.guarded (x.k.rgstate.getLsbD 63)
  let k := if x.t.items.guarded then { x.k with quarantine := x.k.quarantine ++ [⟨.entry id, x.s.clk, none, id⟩] } else x.k
  let s : State := { x.set k with nextId := id + 1 }
  .ok (s.modTruss x.c.truss fun t =>
    ((Sys2Proof.Machine.fenceQueues copy mat net).foldl (fun t q => t.modQueue q fun es => es ++ [e]) t).passFences 64)

def execQfence (gd : Guard) (copy mat net : Bool) (s : State) : Out :=
  .next (issue (.qfence gd copy mat net) s fun x => x.once gd fun _ => x.fenceQueues copy mat net)

/-! ### Copy templates as numbers (R211) -/

def tplExt (w : Vector W64 2) (d : Nat) : Nat :=
  let w0 := w[0].toNat
  let w1 := w[1].toNat
  let n := match d with | 0 => bits w0 39 20 | 1 => bits w0 59 40 | 2 => bits w1 19 0 | _ => bits w1 39 20
  if d = 0 then n else Nat.max n 1
def tplBe (w : Vector W64 2) : Bool := w[0].getLsbD 19
def tplBar (w : Vector W64 2) : Fin 16 := ⟨bits w[0].toNat 15 12, by unfold bits; exact Nat.mod_lt _ (by decide)⟩
def tplSrc (w : Vector W64 2) : Nat := bits w[0].toNat 7 0
def tplDst (w : Vector W64 2) : Nat := bits w[1].toNat 47 40
def tplCvt (w : Vector W64 2) : Bool := w[1].getLsbD 63
def tplMcast (w : Vector W64 2) : Nat := bits w[1].toNat 62 55

/-- The elements a template sweeps, first coordinate fastest (R371). -/
def tplSweep (w : Vector W64 2) (lo : List Int) : Sweep := ⟨lo, (List.range 4).map (tplExt w), [0, 1, 2, 3]⟩

/-! ### Conversions of a copy (R73, R371) -/

/-- The narrow format of a code (R59). -/
def nfmtOf (f : Nat) : NFmt :=
  match f with
  | 4 => .e4m3 | 5 => .e5m2 | 6 => .e3m2 | 7 => .e2m3 | 8 => .e2m1 | 9 => .qi8 | 10 => .qn8 | 11 => .qi4 | 12 => .qn4 | _ => .dpt8

/-- The binary format of a code (R59). -/
def binaryOf (f : Nat) : Fmt := match f with | 0 => fmtF64 | 1 => fmtF32 | 2 => fmtBF16 | _ => fmtF16

/-- The format of an entry's elements; 14 stands for an S10 container (R203). -/
def Layout.kind (e : Layout) : Nat := if e.space = 3 then 14 else e.fmt

/-- The pair is a row of R73. -/
def convertible (a b : Nat) : Bool :=
  if a ≤ 3 then (b ≤ 3 && a ≠ b) || (1 ≤ a && 4 ≤ b && b ≤ 12) || (a = 1 && 13 ≤ b) else b = 1 || b = 2

/-- The value of an element. -/
def kindVal (a c : Nat) : FVal := if a = 14 then s10Val c else fmtVal a c

/-- An element converted by its row, rounding RNE (R371). -/
def convert (a b c : Nat) : Nat :=
  let v := kindVal a c
  if b ≤ 3 then ((binaryOf b).ofVal .rne v).1 else if b = 14 then (toS10 1 1 v).1 else (toNFmt (nfmtOf b) false v).1

/-! ### The issue of a bulk copy (R369, R370) -/

/-- Coordinates in `n + 1` consecutive g registers; missing ones are 0 (R208, R369). -/
def Course.coords (k : Course) (g n : Nat) : List Int := (List.range 4).map fun d => if d ≤ n then k.coord (g + d) else 0

/-- The first faulting element of a copy: at one place the source comes before the destination (R206). -/
def firstOfTwo (a b : Option (Nat × LayFault)) : Option LayFault :=
  match a, b with
  | none, none => none
  | some x, none => some x.2
  | none, some y => some y.2
  | some x, some y => if y.1 < x.1 then some y.2 else some x.2

/-- The LAYOUT checks of a copy on its template and entries (R206, R370 step 1). Both entries are checked before any
element (DESIGN CHOICE, log 90: R206 does not order an entry's checks against another operand's elements). -/
def copyLayFault (t : Truss) (w : Vector W64 2) (ls ld : Layout) (cs cd : List Int) : Option LayFault :=
  if tplExt w 0 = 0 then some (0x08, 0)
  else
    match ls.check t.items.span, ld.check t.items.span with
    | some f, _ => some f
    | none, some f => some f
    | none, none => firstOfTwo (ls.firstBad t.portion (tplSweep w cs)) (ld.firstBad t.portion (tplSweep w cd))

/-- The effect of `bcopy` (R369, R370). -/
def bcopyEffect (x : Ctx) (tk : Tok) (ct gs gdst nc : Nat) : Res :=
  let j := x.c.course
  let w := x.t.template x.s.tick j ct
  let ls := x.t.layout x.s.tick j (tplSrc w)
  let ld := x.t.layout x.s.tick j (tplDst w)
  let cs := x.r.coords gs nc
  let cd := x.r.coords gdst nc
  match copyLayFault x.t w ls ld cs cd with
  | some (detail, fa) => .trap 0x16 detail fa
  | none =>
    if 2 ^ x.t.items.span ≤ tplMcast w then .trap 0x0F 0 0
    else if tplMcast w ≠ 0 && (ld.space = 0 || ld.space = 2) then .trap 0x16 0x09 0
    else if !tplCvt w && ls.bits ≠ ld.bits then .trap 0x0D 0x0A 0
    else if tplCvt w && !convertible ls.kind ld.kind then .trap 0x0D 0x0B 0
    else x.enqueue .copy (some tk) [] (.bcopy w ls ld cs cd)

def execBcopy (gd : Guard) (tk : Tok) (ct : Fin 64) (gs gdst : GReg) (nc : Fin 4) (s : State) : Out :=
  .next (issue (.bcopy gd tk ct gs gdst nc) s fun x =>
    if x.r.uniform gd then bcopyEffect x tk ct gs gdst nc else x.ok (x.k.issueOp tk .nothing []))

/-! ### The bulk copy engine (R368, R371 to R373) -/

/-- The offset of element `n` of a sweep. -/
def Sweep.at_ (w : Sweep) (n : Nat) : List Int :=
  (w.order.foldl (fun (acc : List Int × Nat) d => (acc.1.set d (w.lo' d + (acc.2 % w.ext' d : Nat)), acc.2 / w.ext' d))
    ([0, 0, 0, 0], n)).1

/-- Elements of a sweep. -/
def Sweep.count (w : Sweep) : Nat := (w.ext.foldl (· * ·) 1)

/-- The bytes of an element, from its entry's base, before the swizzle; none out of bounds. -/
def Layout.range? (e : Layout) (w : Sweep) (n : Nat) : Option (Nat × Nat) :=
  let x := w.at_ n
  if e.inside x then some (e.bytes (e.index x)) else none

/-- Element indexes rise along the sweep. -/
def Layout.rising (e : Layout) (w : Sweep) : Bool :=
  (w.order.foldl (fun (acc : Bool × Nat) d =>
    if w.ext' d ≤ 1 then acc else (acc.1 && acc.2 < e.stride d, acc.2 + (w.ext' d - 1) * e.stride d)) (true, 0)).1

/-- Some of the first `n` elements of a sweep writes byte `b`; along a rising sweep only the last one before can. -/
def Layout.wrote (e : Layout) (w : Sweep) (rising : Bool) (b : Nat) : (n : Nat) → Bool
  | 0 => false
  | n + 1 =>
    match e.range? w n with
    | some (lo, k) => (lo ≤ b && b < lo + k) || (!rising && e.wrote w rising b n)
    | none => e.wrote w rising b n

/-- The bytes that element `n` is the first to write any bit of (R372). -/
def Layout.freshBytes (e : Layout) (w : Sweep) (n : Nat) : Nat :=
  match e.range? w n with
  | some (lo, k) => ((List.range k).filter fun i => !e.wrote w (e.rising w) (lo + i) n).length
  | none => 0

/-- Span positions that receive a copy (R371). -/
def copyTargets (t : Truss) (w : Vector W64 2) : List Nat :=
  if tplMcast w = 0 then [t.spanPos] else (List.range 8).filter (tplMcast w).testBit

/-- The bits of an element, by the addresses of its parts. -/
def Layout.elemBits (e : Layout) (pos : Nat) (x : List Int) : List Nat :=
  let m := e.elem pos x
  (List.range m.width).filterMap fun b => (m.bytes[(m.sh + b) / 8]?).map fun a =>
    8 * (if m.global then a else m.member * 2 ^ 32 + a) + (m.sh + b) % 8

/-- Elements up to number `n` of a sweep, the last 17 of them, write all of an 8-byte word: a copy carries the poison bit of a word to the word
that it becomes (R250). -/
def Layout.wholeWord (e : Layout) (pos : Nat) (sw : Sweep) (n word : Nat) : Bool :=
  let bs := ((List.range (Nat.min (n + 1) 17)).map fun i =>
    if e.inside (sw.at_ (n - i)) then e.elemBits pos (sw.at_ (n - i)) else []).flatten
  (List.range 64).all fun b => bs.contains (64 * word + b)

/-- An element is written to one target, and its bytes land on the barrier (R372). -/
def State.landElem (s : State) (at_ : EngineAt) (w : Vector W64 2) (ld : Layout) (x : List Int) (code fresh m : Nat) (psn : Bool)
    (whole : Nat → Nat → Bool) :
    State × Except Halted Bool :=
  match s.engineStore at_ psn (whole m) (ld.elemParts m 0 0 x (some code)) with
  | (s, .error h) => (s, .error h)
  | (s, .ok d) =>
    let to_ := if ld.space = 0 then some at_.tn else s.owner at_ (if ld.space = 2 then bits ld.base 56 54 else m)
    match to_, tplBe w && !d with
    | some n, true => (s.modTruss n fun t => t.landBytes (tplBar w) fresh, .ok d)
    | _, _ => (s, .ok d)

/-- An element is written to every target. -/
def State.landAll (s : State) (at_ : EngineAt) (w : Vector W64 2) (ld : Layout) (x : List Int) (code fresh : Nat) (psn : Bool)
    (whole : Nat → Nat → Bool) : List Nat → State × Except Halted Bool
  | [] => (s, .ok false)
  | m :: ms =>
    match s.landElem at_ w ld x code fresh m psn whole with
    | (s, .error h) => (s, .error h)
    | (s, .ok d) =>
      match s.landAll at_ w ld x code fresh psn whole ms with
      | (s, .error h) => (s, .error h)
      | (s, .ok d') => (s, .ok (d || d'))

/-- The next element of a copy is performed (R371). -/
def State.copyElem (s : State) (at_ : EngineAt) (e : QEntry) (w : Vector W64 2) (ls ld : Layout) (cs cd : List Int) :
    State × QEntry :=
  let sw := tplSweep w cd
  let xd := sw.at_ e.done
  match s.loadElem at_ ls ((tplSweep w cs).at_ e.done) with
  | (s, .error h) => (s, e.halt h)
  | (s, .ok (c, g)) =>
    let code := if tplCvt w then convert ls.kind ld.kind c else c
    let moved : Got := if ld.inside xd then g else { g with poison := false, drop := false }
    let e' := { e.note moved with done := e.done + 1, full := sw.count ≤ e.done + 1 }
    if !ld.inside xd then (s, e')
    else
      match s.landAll at_ w ld xd code (ld.freshBytes sw e.done) g.poison
          (fun m word => !e'.poison && ld.wholeWord m sw e.done word) (copyTargets at_.t w) with
      | (s, .error h) => (s, e.halt h)
      | (s, .ok d) => (s, { e' with drop := e'.drop || d })

/-- Up to `n` elements of a copy, until it is full or waits. -/
def State.copyRun (s : State) (tn : Nat) (e : QEntry) : Nat → State × QEntry
  | 0 => (s, e)
  | n + 1 =>
    if e.full || e.wait.waits then (s, e)
    else
      match s.truss? tn, e.body with
      | some t, .bcopy w ls ld cs cd =>
        let (s, e) := s.copyElem ⟨tn, t, t.entryAgent e 1⟩ e w ls ld cs cd
        s.copyRun tn e n
      | _, _ => (s, e)

/-- The entry at the head of a copy queue, when it is the engine's to run. -/
def State.copyHead (s : State) (tn : Nat) : Option QEntry :=
  match (s.truss? tn).bind (·.head? .copy) with
  | some e => match e.body with | .bcopy .. => if e.held || s.entryAwaits tn e then none else some e | _ => none
  | none => none

/-- The truss the copy engine serves: the one whose entry it has begun, else the next by its round robin (R286, R368). -/
def State.copyNext (s : State) (core : Nat) : Option Nat :=
  let busy := (s.core core).copyLast.bind fun n => match s.copyHead n with | some e => if e.begun then some n else none | none => none
  match busy with
  | some n => some n
  | none => s.roundRobin ((s.trussesOn core).filter fun n => (s.copyHead n).isSome) (s.core core).copyLast

/-- The engine performs up to `n` elements of its entry, and ends it when the last has landed (R371, R373). -/
def copyStep (s : State) (core n : Nat) : State :=
  match s.copyNext core with
  | none => s
  | some tn =>
    match s.copyHead tn with
    | none => s
    | some e =>
      if e.wait.waits then s
      else
        let s := s.modCore core fun c => { c with copyLast := some tn }
        let e := { e with begun := true }
        let (s, e) := match e.aborted with | some e => (s, e) | none => s.copyRun tn e (n + 1)
        if e.full then s.endEntry tn .copy e [] false e.status else s.setEntry tn .copy e

def execCopyEntryExecute (core n : Nat) (s : State) : Out := .next (copyStep s core n)

end Sys2Proof.Machine
end

