-- ==== Sys2Proof/Machine/Wire.lean ====
section
/-!
DEFINITION. A flit on the light: its header, descriptor, payload and check bytes, and the wavelengths of its beats (18 R420 to R422).
-/
namespace Sys2Proof.Machine

/-! ### The check bytes (R420) -/

/-- CRC-64/ECMA-182: one byte more. The standard is named by R420 and not given there (PRESUMED, log 85). -/
def crcByte (c : Nat) (b : Byte) : Nat :=
  (List.range 8).foldl (fun c _ => (if bit c 63 then 2 * c % 2 ^ 64 ^^^ 0x42F0E1EBA9EA3693 else 2 * c)) (c ^^^ b.toNat * 2 ^ 56)

def crc64 (bs : List Byte) : Nat := bs.foldl crcByte 0

/-! ### Header and payload (R421, R422) -/

def flitCode : FlitTy → Nat
  | .idle => 0 | .data => 1 | .ctrl => 2 | .drain => 3 | .reserved c => 4 + c

def kindCode : XKind → Nat
  | .put => 1 | .getReq => 2 | .getData => 3 | .msg => 4 | .contrib => 5 | .lReq => 6 | .lData => 7 | .done => 8 | .absent => 9

/-- The descriptor of a transfer (R422). -/
def descriptorOf (x : Transfer) : List W64 :=
  [BitVec.ofNat 64 (x.xid.toNat * 2 ^ 32 + x.grp.toNat % 4096 * 2 ^ 20 + kindCode x.kind), BitVec.ofNat 64 x.addr.toNat,
   BitVec.ofNat 64 x.len.toNat, BitVec.ofNat 64 (x.cn.toNat * 2 ^ 32 + x.st.toNat)]

/-- Payload words that hold any byte of a transfer (R421, R460). -/
def flitWords (f : Flit) : Nat := (if f.fst && f.desc.isSome then 4 else 0) + (f.data.length + 7) / 8

/-- What a CTRL flit of training or restriping says: a new mask lies in word 0 [15:0], as the run of 23 shows; no rule gives the other places
(log 78). -/
def flitControl (f : Flit) : List W64 :=
  match f.par with
  | some p => [BitVec.ofNat 64 (p.id.toNat + p.link % 256 * 2 ^ 8 + p.version * 2 ^ 16), p.tx.zeroExtend 64, p.rx.zeroExtend 64, 0]
  | none => [f.mask.zeroExtend 64, BitVec.ofNat 64 f.ofTx.toNat, BitVec.ofNat 64 f.allow, 0]

/-- The header (R421); the allowance that a phase 6 grants is said in the payload. -/
def flitHeader (f : Flit) : List W64 :=
  [BitVec.ofNat 64 (f.seq.toNat * 2 ^ 48 + f.ackSeq.toNat * 2 ^ 32 + f.av.toNat * 2 ^ 31 + f.nak.toNat * 2 ^ 30 + flitCode f.ty * 2 ^ 26 +
     f.allow % 1024 * 2 ^ 16 + f.dstEp.toNat),
   BitVec.ofNat 64 (f.srcEp.toNat * 2 ^ 48 + f.fst.toNat * 2 ^ 47 + f.lst.toNat * 2 ^ 46 + f.hop % 8 * 2 ^ 43 + f.rs.toNat * 2 ^ 42 +
     flitWords f * 2 ^ 32 + maskNat 32 fun i => f.poison.contains i)]
where
  maskNat (n : Nat) (p : Nat → Bool) : Nat := ((List.range n).map fun i => (p i).toNat * 2 ^ i).sum

/-- The payload: the descriptor or what a CTRL flit says, then data; bytes behind them are free (log 78). -/
def flitPayload (f : Flit) : List Byte :=
  let front := match f.ty, f.desc with
    | .ctrl, _ => wordBytes (flitControl f)
    | _, some x => if f.fst then wordBytes (descriptorOf x) else []
    | _, none => []
  let bs := front ++ f.data
  (bs ++ (List.range (256 - bs.length)).map (Config.padByte f.seq.toNat)).take 256

/-- The 280 bytes of a flit: header, payload and CRC. -/
def flitWire (f : Flit) : List Byte :=
  let bs := wordBytes (flitHeader f) ++ flitPayload f
  bs ++ natBytes 8 (crc64 bs)

/-- A flit passes its check: nothing on the fibre has changed it, or what has changed leaves the CRC right, which is linear (R420). -/
def received (r : Reception) : Bool :=
  let bs := (List.range 280).map fun i => (r.noise.filter fun x => x.1 == i).foldl (fun b x => b ^^^ x.2) (0 : Byte)
  r.fecOk && (r.noise.isEmpty || crc64 (bs.take 272) == bytesNat (bs.drop 272))

/-! ### Beats (R420) -/

/-- The active wavelength of beat `n` of a stream over a mask. -/
def beatWavelength (mask : BitVec 16) (n : Nat) : Nat :=
  let ws := (List.range 16).filter mask.getLsbD
  (ws[n % ws.length]?).getD 0

/-- The 35 beats of a flit that was sent: the wavelength and the eight bytes of each. -/
def flitBeats (f : Flit) : List (Nat × List Byte) :=
  (List.range 35).map fun k => (beatWavelength f.wl (f.beat + k), ((flitWire f).drop (8 * k)).take 8)

/-! ### Codewords (R420) -/

/-- Multiplication in the field of RS(544,514): polynomials over two elements modulo x^10 + x^3 + 1 (PRESUMED, log 85: clause 91 is named by R420
and not given there). -/
def gfMul (a b : Nat) : Nat :=
  ((List.range 10).reverse.foldl (fun acc i =>
    let d := 2 * acc
    (if bit d 10 then d ^^^ 0x409 else d) ^^^ (if bit b i then a else 0)) 0)

/-- The generator polynomial, from the highest coefficient on: its roots are the first 30 powers of 2 (log 85). -/
def rsGenerator : List Nat :=
  ((List.range 30).foldl (fun (x : List Nat × Nat) _ =>
    ((x.1 ++ [0]).zipWith (fun a b => a ^^^ b) (0 :: x.1.map (gfMul x.2)), gfMul 2 x.2)) ([1], 1)).1

/-- The 30 check symbols of 514 symbols. -/
def rsParity (ms : List Nat) : List Nat :=
  ms.foldl (fun r m =>
    let q := m ^^^ r.headD 0
    (r.drop 1 ++ [0]).zipWith (fun a g => a ^^^ gfMul q g) (rsGenerator.drop 1)) (List.replicate 30 0)

/-- The 10-bit symbols in a run of bytes, lowest bit first. -/
def rsSymbols (bs : List Byte) : List Nat := (List.range (8 * bs.length / 10)).map fun i => bytesNat ((bs.drop (10 * i / 8)).take 3) / 2 ^ (10 * i % 8) % 1024

/-- The bytes that a wavelength carries of the flits sent. -/
def waveBytes (fs : List Flit) (w : Nat) : List Byte := ((fs.map flitBeats).flatten.filterMap fun b => if b.1 = w then some b.2 else none).flatten

/-- The whole codewords that a wavelength carries of the flits sent: 514 symbols of its own beats and 30 check symbols each. -/
def waveCodewords (fs : List Flit) (w : Nat) : List (List Nat) :=
  let ss := rsSymbols (waveBytes fs w)
  (List.range (ss.length / 514)).map fun i =>
    let ms := (ss.drop (514 * i)).take 514
    ms ++ rsParity ms

end Sys2Proof.Machine
end

