-- ==== Sys2Proof/Machine/Fabric.lean ====
section
/-!
DEFINITION. The fabric's links and routes: flits, allowances, replay, training, masks, reachability (18 R417 to R431, R436, 23 R460 to
R462).
-/
namespace Sys2Proof.Machine

/-! ### Endpoints and routes (R417, R423, R431) -/

def epDev (e : BitVec 16) : Nat := e.toNat / 512
def epVd (e : BitVec 16) : Nat := e.toNat % 512
/-- This device's endpoint number of a virtual device. -/
def State.ownEp (s : State) (vd : Nat) : BitVec 16 := BitVec.ofNat 16 (s.fabricId.toNat * 512 + vd)
def State.isOwn (s : State) (e : BitVec 16) : Bool := epDev e == s.fabricId.toNat

def State.link (s : State) (n : Nat) : Link := vat s.links n Link.reset
def State.modLink (s : State) (n : Nat) (f : Link → Link) : State := { s with links := vput s.links n (f (s.link n)) }

/-- The links of a route register. -/
def State.routeOf (s : State) (d : Nat) : List Nat := (List.range 16).filter fun n => (vat s.routes d 0).getLsbD n
/-- The links that new transfers may take (R423, R430). -/
def State.openLinks (s : State) (d : Nat) : List Nat := (s.routeOf d).filter fun n => (s.link n).st == .up && (s.link n).quiescing.isNone
/-- Transfers for a device wait while a link of its route may still come back (R430). -/
def State.mayWait (s : State) (d : Nat) : Bool := (s.routeOf d).any fun n => (s.link n).st != .down
/-- An endpoint's device can be reached (R431). -/
def State.reachable (s : State) (e : BitVec 16) : Bool := s.isOwn e || (s.routeOf (epDev e)).any fun n => (s.link n).st == .up

/-! ### Flits (R420 to R422, R460) -/

/-- A flit with every field zero. -/
def mkFlit (ty : FlitTy) : Flit :=
  { seq := 0, ackSeq := 0, av := false, nak := false, ty := ty, allow := 0, dstEp := 0, srcEp := 0, fst := false, lst := false, hop := 0,
    rs := false, resv := false, mask := 0, ofTx := false, par := none, desc := none, data := [], poison := [], xid := 0, off := 0,
    wl := 0, beat := 0 }

/-- A list cut into pieces of `n`. -/
def pieces {α : Type} (n : Nat) : (fuel : Nat) → List α → List (List α)
  | 0, _ => []
  | _, [] => []
  | k + 1, xs => xs.take n :: pieces n k (xs.drop n)

/-- The flits of a transfer: the descriptor and 224 bytes, then 256 bytes each (R422, R460). -/
def flitsOf (x : Transfer) : List Flit :=
  let base : Flit := { mkFlit .data with dstEp := x.dstEp, srcEp := x.srcEp, xid := x.xid }
  let rest := pieces 256 (x.data.length / 256 + 1) (x.data.drop 224)
  let psn := fun (lo n sh : Nat) => (x.poison.filter fun w => lo ≤ w && w < lo + n).map fun w => w - lo + sh
  { base with fst := true, lst := rest.isEmpty, desc := some { x with data := [], poison := [] }, data := x.data.take 224,
              poison := psn 0 28 4 } ::
  (List.range rest.length).map fun k =>
    { base with lst := k + 1 = rest.length, data := (rest[k]?).getD [], off := 224 + 256 * k, poison := psn (28 + 32 * k) 32 0 }

/-! ### Sending (R424, R425) -/

/-- A flit's 35 beats go on the light (R420). -/
def Link.light (l : Link) (f : Flit) : Link :=
  { l with sent := l.sent ++ [{ f with wl := l.txmask, beat := l.beats }], beats := l.beats + 35 }

/-- The beat count starts again, at a flit boundary (R427). -/
def Link.restart (l : Link) : Link := { l with beats := 0 }

/-- A flit leaves: what it says of the reverse direction rides on it (R421, R424). -/
def Link.emit (l : Link) (f : Flit) : Link :=
  let a := Nat.min l.owe 1023
  { l.light { f with ackSeq := l.rxSeq, av := true, allow := a } with owe := l.owe - a, unacked := 0 }

/-- An IDLE flit: it carries the next unused SEQ and consumes none (R421). -/
def Link.idle (l : Link) (nak : Bool) : Link := l.emit { mkFlit .idle with seq := l.txSeq, nak := nak }

/-- A CTRL flit that announces the mask its sender sends on (R427). -/
def announces (f : Flit) : Bool := f.ty == .ctrl && !f.ofTx && f.par.isNone

/-- Flits leave while the allowance and the replay buffer let them: first those to be resent, then new ones (R424, R425). The resends of the
oldest are counted (R426), and the beat count starts again after a mask is announced (R427). -/
def Link.pumpFuel (l : Link) : Nat → Link
  | 0 => l
  | n + 1 =>
    if l.st ≠ .up || l.allow = 0 then l
    else
      match l.replay[l.cursor]? with
      | some o =>
        { l.emit o.f with cursor := l.cursor + 1, allow := l.allow - 1, resends := l.resends + (l.cursor == 0).toNat }.pumpFuel n
      | none =>
        match l.pend with
        | [] => l
        | o :: os =>
          if 4096 ≤ l.replay.length then l
          else
            let f := { o.f with seq := l.txSeq }
            let a : Link := { { l with pend := os, replay := l.replay ++ [{ o with f := f }], txSeq := l.txSeq + 1 }.emit f with
              cursor := l.cursor + 1, allow := l.allow - 1 }
            (if announces f then a.restart else a).pumpFuel n

def Link.pump (l : Link) : Link := l.pumpFuel (l.pend.length + l.replay.length + 1)

/-- Kinds whose bytes FABBYTES counts (R198). -/
def kindMetered : XKind → Bool
  | .put | .getData | .msg | .contrib | .lData => true
  | _ => false

/-- A link changes, and then sends what it can. Each transfer of this device whose first flit leaves is metered to the device of its
source endpoint (R198, R460). -/
def State.pumpLink (s : State) (n : Nat) (g : Link → Link) : State :=
  let a := g (s.link n)
  let b := a.pump
  let first := (a.pend.take (a.pend.length - b.pend.length)).filterMap fun o =>
    if o.f.fst && !o.f.rs && o.f.hop = 0 && s.isOwn o.f.srcEp then o.f.desc.filter fun x => kindMetered x.kind else none
  first.foldl (fun s x => s.addShare (epVd x.srcEp) 4 x.len.toNat) (s.modLink n fun _ => b)

/-- A CTRL flit is to leave before every other new flit, after CTRL flits that wait already (R425, R427). -/
def Link.ctrl (l : Link) (f : Flit) : Link :=
  let isCtrl := fun (o : OutFlit) => o.f.ty == .ctrl
  { l with pend := l.pend.takeWhile isCtrl ++ ⟨{ f with ty := .ctrl }, false⟩ :: l.pend.dropWhile isCtrl }

/-! ### Ends of transfers -/

/-- The queue entry of a transfer completes with a status (R325, R376). -/
def State.endNet (s : State) (truss entry : Nat) (st : BitVec 8) : State :=
  match (s.truss? truss).bind fun t => t.netQ.find? fun e => e.id == entry with
  | some e => s.endEntry truss .net e [] false st
  | none => s

/-- A transfer of this device ends. One that wrote through this device's own switch is seen by its course: the core's L1 gives up its lines
(R326). -/
def State.endOutgoing (s : State) (xid : W32) (st : BitVec 8) : State :=
  match s.outgoing.find? fun o => o.xid == xid with
  | some o =>
    let s := if s.isOwn o.dstEp then match s.truss? o.truss with | some t => s.invalidateL1 t.core | none => s else s
    ({ s with outgoing := s.outgoing.filter fun o => o.xid != xid, gathers := s.gathers.filter fun g => g.xid != xid } : State).endNet
      o.truss o.entry st
  | none => s

/-- The status of a transfer whose peer can no longer be reached (R379, R380, R428, R431). -/
def Outgoing.lost (o : Outgoing) : BitVec 8 :=
  match o.kind with
  | .lReq => 3
  | .contrib => 2
  | _ => if o.acked then 5 else 2

/-- A fresh entry for a transfer at this switch. -/
def mkInbound (x : Transfer) (link : Option (Fin 16)) : Inbound :=
  { x := x, link := link, via := link, at_ := 0, wait := .untranslated, psn := false, rv := none, quiet := false, owed := 0 }

/-- A transfer without data. -/
def mkTransfer (kind : XKind) (src dst : BitVec 16) (xid : W32) : Transfer :=
  { kind := kind, srcEp := src, dstEp := dst, xid := xid, grp := 0, addr := 0, len := 0, cn := 0, st := 0, data := [], poison := [] }

/-- The flit is one of the transfer. -/
def Forward.is (w : Forward) (f : Flit) : Bool := w.srcEp == f.srcEp && w.dstEp == f.dstEp && w.xid == f.xid

/-- Kinds that an answer ends. -/
def kindAwaits : XKind → Bool
  | .put | .getReq | .msg | .contrib | .lReq => true
  | _ => false

mutual

/-- A flit takes a link of its route, waits for one, or is lost (R423, R430, R431). A lost flit ends its transfer: of this device, or one of
another that this switch forwards, by a DONE with UNREACH, or with PARTIAL once a flit of it has been acknowledged (R428); `n` bounds the answers
to answers. -/
def State.routeFlit (s : State) (o : OutFlit) : (n : Nat) → State
  | 0 => s
  | n + 1 =>
    let d := epDev o.f.dstEp
    match s.openLinks d with
    | [] =>
      if s.mayWait d then { s with xmit := s.xmit ++ [o] }
      else if o.mine then
        match s.outgoing.find? fun x => x.xid == o.f.xid with
        | some x => s.endOutgoing o.f.xid x.lost
        | none => s
      else
        match s.forwards.find? fun w => w.is o.f with
        | some w =>
          let s : State := { s with forwards := s.forwards.filter fun w => !w.is o.f }
          if kindAwaits w.kind && !s.isOwn w.srcEp then
            s.routeAll ((flitsOf { mkTransfer .done w.dstEp w.srcEp w.xid with st := if w.acked then 5 else 2 }).map (⟨·, false⟩)) n
          else s
        | none => s
    | ls =>
      let k := (ls[o.f.xid.toNat % ls.length]?).getD 0
      s.pumpLink k fun l => { l with pend := l.pend ++ [o] }

/-- Flits routed one after another. -/
def State.routeAll (s : State) (os : List OutFlit) : (n : Nat) → State
  | 0 => s
  | n + 1 => os.foldl (fun s o => s.routeFlit o n) s

end

/-- A transfer is sent: served by this device's own switch, or as flits on a link (R423, R460). -/
def State.sendTransfer (s : State) (x : Transfer) (mine : Bool) : State :=
  if s.isOwn x.dstEp then { s with inbound := s.inbound ++ [mkInbound x none] }
  else s.routeAll ((flitsOf x).map (⟨·, mine⟩)) 4

/-- A DONE goes back to the source of a transfer (R422, R460). -/
def State.sendDone (s : State) (x : Transfer) (st : BitVec 8) : State :=
  s.sendTransfer { mkTransfer .done x.dstEp x.srcEp x.xid with st := st } false

/-! ### Groups that lose a peer (R433, R434, R459) -/

def State.group (s : State) (g : Nat) : Vector W64 8 := tget (Vector.replicate 8 0) s.groups g
def grpV (w : Vector W64 8) : Bool := w[0].getLsbD 63
def grpOwner (w : Vector W64 8) : Nat := bits w[0].toNat 62 54
def grpOp (w : Vector W64 8) : Nat := bits w[0].toNat 53 52
def grpPeers (w : Vector W64 8) : Nat := bits w[0].toNat 51 47
def grpSelf (w : Vector W64 8) : Nat := bits w[0].toNat 46 42
def grpLen (w : Vector W64 8) : Nat := bits w[0].toNat 31 0 * 4096
def grpBase (w : Vector W64 8) : Nat := bits w[1].toNat 56 0
def grpPeer (w : Vector W64 8) (j : Nat) : BitVec 16 :=
  BitVec.ofNat 16 (bits (vat w (2 + j / 4) 0).toNat (16 * (j % 4) + 15) (16 * (j % 4)))
/-- Bytes of an element (R379). -/
def grpSize (w : Vector W64 8) : Nat := if grpOp w = 0 then 2 else 4

/-- A virtual device is ACTIVE (R388). -/
def State.active (s : State) (vd : Nat) : Bool :=
  match s.vdev? vd with | some d => d.v && d.mode.toNat < 4 | none => false

/-- A peer is unreachable, as this device alone can tell (R431, R459). -/
def State.peerGone (s : State) (e : BitVec 16) : Bool := if s.isOwn e then !s.active (epVd e) else !s.reachable e

/-- Some peer of the group is absent (R433, R459). -/
def State.groupAbsent (s : State) (g : Nat) : Bool :=
  let w := s.group g
  !grpV w || (List.range (grpPeers w)).any fun j => s.peerGone (grpPeer w j)

/-- Allowance that was kept back for a contribution goes back, on the link it came by (R434). -/
def State.returnOwed (s : State) (i : Inbound) : State :=
  match i.via with
  | some n => s.modLink n fun l => { l with owe := l.owe + i.owed }
  | none => s

/-- Transfers at this switch that `p` picks are dropped. -/
def State.dropInbounds (s : State) (p : Inbound → Bool) : State :=
  let s := (s.inbound.filter p).foldl State.returnOwed s
  { s with inbound := s.inbound.filter fun i => !p i }

/-- Every pending chunk of a group is freed without writing, and every contributor completes UNREACH (R434, R459); what is left of their
transfers enters no chunk. -/
def State.freeGroup (s : State) (g : Nat) : State :=
  let cs := s.contribStats.filter fun c => c.grp == g
  let s : State := { s with contribs := s.contribs.filter fun c => c.grp != g,
                            contribStats := s.contribStats.filter fun c => c.grp != g }
  let s := s.dropInbounds fun i => i.x.kind == .contrib && i.x.grp.toNat == g && i.at_ != 0
  cs.foldl (fun s c => s.sendDone (mkTransfer .contrib c.srcEp c.dstEp c.xid) 2) s

/-! ### When routes or links change -/

/-- No link leads to an endpoint's device, and none may come back (R430, R431). -/
def State.lostPeer (s : State) (e : BitVec 16) : Bool := !s.isOwn e && (s.openLinks (epDev e)).isEmpty && !s.mayWait (epDev e)

/-- Commands that wait for links complete (R418, R430). -/
def State.fabricDone (s : State) : State :=
  match s.fbBusy with
  | none => s
  | some (quiesce, m) =>
    let ls := (List.range 16).filter m.getLsbD
    let fin := fun (l : Link) =>
      if quiesce then l.st == .quiet || l.st == .dark || l.st == .down || (l.st == .up && l.quiescing.isNone)
      else l.st == .up || l.st == .down
    if ls.all fun n => fin (s.link n) then
      let out := maskOf 16 fun n => m.getLsbD n && (s.link n).st == (if quiesce then .quiet else .up)
      { s with fbBusy := none, fbStatus := 0, fbOut := s.fbOut.set 0 (BitVec.ofNat 64 out), hostOut := s.hostOut ++ [.msix 0 0] }
    else s

/-- An `fmrl` still awaits a reply: with the last one it writes its sums, and no peer can then make it write nothing (R380, R435). -/
def Gather.gathering (g : Gather) (s : State) : Bool := g.replies.length < grpPeers (s.group g.grp)

/-- Flits that wait are routed again; transfers whose peer is unreachable end, on either side; open chunks are tested; commands may complete
(R428, R430, R459). -/
def State.fabricChanged (s : State) : State :=
  let os := s.xmit
  let s := ({ s with xmit := [] } : State).routeAll os 5
  let s := s.dropInbounds fun i => i.link.isSome && s.lostPeer i.x.srcEp
  let gone := s.outgoing.filter fun o =>
    match o.kind, s.gathers.find? fun g => g.xid == o.xid with
    | .lReq, some g =>
      g.gathering s && (List.range (grpPeers (s.group g.grp))).any fun j => s.lostPeer (grpPeer (s.group g.grp) j)
    | _, _ => s.lostPeer o.dstEp
  let s := gone.foldl (fun s o => s.endOutgoing o.xid o.lost) s
  let gs := (s.contribStats.map (·.grp)).dedup
  let s := gs.foldl (fun s g => if s.groupAbsent g then s.freeGroup g else s) s
  s.fabricDone

/-! ### Records of links (R427, R462) -/

/-- The laser source whose four wavelengths are lost, else 0xF. -/
def sourceOf (lost : BitVec 16) : Nat := ((List.range 4).find? fun k => lost == BitVec.ofNat 16 (0xF * 2 ^ (4 * k))).getD 15

/-- The record of a link: both masks before and after. -/
def State.linkCause (s : State) (kind n src : Nat) (a b : Link) : Cause :=
  let m := fun (l : Link) => l.txmask.toNat
  { w0 := BitVec.ofNat 64 (kind + 2 * 2 ^ 8 + n * 2 ^ 16 + src * 2 ^ 20), w1 := s.dieCtr 2,
    w2 := BitVec.ofNat 64 (m a + m b * 2 ^ 16 + a.rxmask.toNat * 2 ^ 32 + b.rxmask.toNat * 2 ^ 48), w3 := 0 }

/-- A finished event record joins the ring (R397). -/
def State.postCause (s : State) (c : Cause) : State :=
  ({ s with evWait := s.evWait ++ [c] } : State).flushEvents (s.evWait.length + 1)

/-- The replacement request of a laser module, and its wavelengths in DEGRADE (R427, R440, R462). -/
def State.laserLost (s : State) (n : Nat) (lost : BitVec 16) : State :=
  let s := s.postEvent 0x28 2 noVd 0 6 (BitVec.ofNat 64 n)
  let d := s.degrade.toNat
  let c := (bits d 28 20 + ((List.range 16).filter lost.getLsbD).length) % 512
  { s with rrcnt := s.rrcnt + 1, degrade := BitVec.ofNat 64 (d - bits d 28 20 * 2 ^ 20 + c * 2 ^ 20) }

def ones (m : BitVec 16) : Nat := ((List.range 16).filter m.getLsbD).length

/-- The transmit mask after a record, and the wavelengths it lost. -/
def afterOf (c : Cause) : BitVec 16 := BitVec.ofNat 16 (bits c.w2.toNat 31 16)
def lostOf (c : Cause) : BitVec 16 := BitVec.ofNat 16 (bits c.w2.toNat 15 0) &&& ~~~ afterOf c

/-! ### A link goes DOWN or comes UP (R419, R428) -/

/-- A link is DOWN: kind 0x10; its unacknowledged flits go on another link with RS = 1, its unsent ones as they are (R428). Losses of laser
light that no NAK has answered are noted in the health record; it tries phase 1 at once, but after three restarts (R419). -/
def State.linkDown (s : State) (n : Nat) (after : Link) : State :=
  let b := s.link n
  let s := s.postCause (s.linkCause 0x10 n 15 b after)
  let resent := (b.replay.filter fun o => o.f.ty == .data).map fun (o : OutFlit) => ({ o with f := { o.f with rs := true } } : OutFlit)
  let os := resent ++ b.pend.filter fun o => o.f.ty == .data
  let s := b.restripe.foldl (fun s c => s.laserLost n (lostOf c)) s
  let s := s.modLink n fun _ =>
    { after with st := .down, phase := if after.restarts < 3 then 1 else 0, replay := [], cursor := 0, pend := [], quiescing := none, drainSent := false,
                 drainGot := false, relocking := false, resends := 0, naking := false, restripe := [], phaseStart := s.clk }
  (s.routeAll os 5).fabricChanged

/-- A link is UP: kind 0x13; what is unacknowledged is resent from the oldest flit (R419, R426, R427). -/
def State.linkUp (s : State) (n : Nat) : State :=
  let b := s.link n
  let none_ : Link := { b with txmask := 0, rxmask := 0 }
  let s := s.postCause (s.linkCause 0x13 n 15 none_ b)
  let s := s.pumpLink n fun l =>
    { l with st := .up, phase := 6, restarts := 0, relocking := false, quiescing := none, drainSent := false, drainGot := false,
             cursor := 0, resends := 0, naking := false, lastAck := s.clk, beats := 0 }
  s.fabricChanged

/-! ### Training (R419) -/

/-- Limits of phases 2 to 6, in cycles. -/
def phaseLimit (p : Nat) : Nat := if p = 2 then 2 ^ 20 else if p = 3 then 2 ^ 18 else 2 ^ 16

/-- The phase under way has exceeded its limit (R419). -/
def State.phaseOver (s : State) (l : Link) : Bool := 2 ≤ l.phase && l.phaseStart + phaseLimit l.phase < s.clk

/-- A link begins a training phase. In phase 1 it stays DOWN, but for one that trains again with what it holds (R419, R426, R430, R436). -/
def State.toPhase (s : State) (n p : Nat) : State :=
  s.modLink n fun l =>
    { l with st := if p = 1 && !l.relocking && l.quiescing.isNone then .down else .training, phase := p, phaseStart := s.clk }

/-- Training restarts at phase 1; after three restarts in a row the link is DOWN (R419). -/
def State.retrain (s : State) (n : Nat) : State :=
  let l := s.link n
  if 3 ≤ l.restarts then s.linkDown n l
  else (s.modLink n fun l => { l with restarts := l.restarts + 1 }).toPhase n 1

/-- A retraining of a link that was UP is counted (R418). -/
def Link.countRetrain (l : Link) : Link := { l with retrains := if l.retrains = 255 then 255 else l.retrains + 1 }

/-- The wavelengths of a direction's two fibres, 0 to 7 and 8 to 15 (R20). -/
def fibres (m : BitVec 16) : List (BitVec 16) := [m &&& 0x00FF, m &&& 0xFF00]

/-- Phase 1: optical power on at least two wavelengths of each receive fibre (R419). -/
def execLightDetect (link : Fin 16) (lit : BitVec 16) (s : State) : Out :=
  .next (
    let l := s.link link
    if s.power ≠ .ready then s
    else if (l.st == .down && l.restarts < 3) || (l.st == .training && l.phase == 1) then
      let s := s.modLink link fun l => { l with lit := lit }
      if (fibres lit).all (fun f => 2 ≤ ones f) then s.toPhase link 2 else s
    else s)

/-- Phase 2 leaves unlocked wavelengths out of the receive mask; phases 3 and 4 align and find codewords; phase 5 sends this end's
parameters (R419). -/
def execWavelengthLock (link : Fin 16) (locked : BitVec 16) (s : State) : Out :=
  .next (
    let l := s.link link
    if l.st ≠ .training then s
    else if s.phaseOver l then s.retrain link
    else if l.phase = 2 then
      if 2 ≤ ones (l.lit &&& locked) then (s.modLink link fun l => { l with rxmask := l.lit &&& locked }).toPhase link 3 else s.retrain link
    else if l.phase = 3 then s.toPhase link 4
    else if l.phase = 4 then
      (s.modLink link fun l => l.emit { mkFlit .ctrl with
        seq := l.txSeq, par := some ⟨s.fabricId, link, 1, 0xFFFF, l.rxmask⟩ }).toPhase link 5
    else s)

def execTrainingPhaseTimeout (link : Fin 16) (s : State) : Out :=
  .next (
    let l := s.link link
    if l.st = .training && 2 ≤ l.phase then (s.advanceTo (l.phaseStart + phaseLimit l.phase)).retrain link else s)

def execLinkRetryTimer (link : Fin 16) (s : State) : Out :=
  .next (
    let l := s.link link
    if s.power ≠ .ready || l.st ≠ .down then s
    else
      let s := s.advanceTo (l.phaseStart + 2 ^ 27)
      (s.modLink link fun l => { l with restarts := 0 }).toPhase link 1)

/-- CTRL flits of phases 5 and 6: the parameters must agree; then the partner grants 1,024 flits, or still holds that grant (R419,
R430). -/
def State.trainCtrl (s : State) (n : Nat) (f : Flit) : State :=
  let l := s.link n
  if s.phaseOver l then s.retrain n
  else match l.phase, f.par with
  | 5, some p =>
    let ok := p.id ≠ s.fabricId && p.version = 1 && 2 ≤ ones p.rx && l.rxmask &&& ~~~ p.tx == 0
    if ok then
      (s.modLink n fun l => { l with txmask := p.rx, allow := if l.relocking then l.allow + f.allow else l.allow }.light { mkFlit .ctrl with seq := l.txSeq, allow := 1024 }).toPhase n 6
    else (s.modLink n fun l => { l with relocking := false }).retrain n
  | 6, none =>
    if l.relocking then
      if l.quiescing.isSome && f.allow ≠ 1024 then (s.modLink n fun l => { l with relocking := false }).retrain n else s.linkUp n
    else (s.modLink n fun l => { l with allow := f.allow, owe := 0, rxSeq := f.seq }).linkUp n
  | _, _ => if f.mask ≠ 0 then s.modLink n fun l => { l with owe := l.owe + 1 } else s

/-! ### Restriping (R427, R429, R461, R462) -/

/-- A CTRL flit that announces a mask. -/
def Link.announce (l : Link) (mask : BitVec 16) (ofTx nak : Bool) : Link := l.ctrl { mkFlit .ctrl with mask := mask, ofTx := ofTx, nak := nak }

/-- The receive mask changes: below two wavelengths the link is DOWN; a loss is answered with a NAK, and recorded (R427 steps 2, 3). -/
def State.newRx (s : State) (n : Nat) (mask : BitVec 16) : State :=
  let b := s.link n
  let a : Link := { b with rxmask := mask }
  if ones mask < 2 then s.linkDown n a
  else if b.rxmask &&& ~~~ mask = 0 then
    (s.modLink n fun _ => a).postCause (s.linkCause 0x12 n (sourceOf (mask &&& ~~~ b.rxmask)) b a)
  else
    let s := s.pumpLink n fun _ => ({ a with naking := true }).announce mask true true
    s.postCause { s.linkCause 0x11 n (sourceOf (b.rxmask &&& ~~~ mask)) b a with w3 := b.rxSeq.zeroExtend 64 }

/-- The transmit mask changes by the receiver's CTRL flit; a shrunk mask is recorded with its ACKSEQ, and the laser module's
replacement is requested; a grown one is announced back (R427, R429, R462). -/
def State.newTx (s : State) (n : Nat) (mask : BitVec 16) (ack : BitVec 16) : State :=
  let b := s.link n
  let a : Link := { b with txmask := mask }
  let lost := b.txmask &&& ~~~ mask
  if ones mask < 2 then (s.laserLost n lost).linkDown n a
  else if lost = 0 then
    let s := s.pumpLink n fun _ => a.announce mask false false
    s.postCause (s.linkCause 0x12 n (sourceOf (mask &&& ~~~ b.txmask)) b a)
  else
    let s := s.modLink n fun _ => a.restart
    (s.postCause { s.linkCause 0x11 n (sourceOf lost) b a with w3 := ack.zeroExtend 64 }).laserLost n lost

/-- A CTRL flit of an UP link (R427, R429, R461, R462): the sender's mask; or the receiver's, which answers the oldest announcement that no NAK
has answered, reports a further loss, or, without NAK, grows, but for wavelengths that this end has since lost. -/
def State.upCtrl (s : State) (n : Nat) (f : Flit) : State :=
  let l := s.link n
  let lose := fun (s : State) => if l.txmask &&& ~~~ f.mask = 0 then s else s.newTx n (l.txmask &&& f.mask) f.ackSeq
  if !f.ofTx then (if f.mask ≠ l.rxmask then s.newRx n f.mask else s)
  else if f.nak then
    match l.restripe with
    | c :: cs =>
      if f.mask = afterOf c then
        ((s.modLink n fun l => { l with restripe := cs }).postCause { c with w3 := f.ackSeq.zeroExtend 64 }).laserLost n (lostOf c)
      else lose s
    | [] => lose s
  else
    let m := f.mask &&& ~~~ (l.restripe.foldl (fun m c => m ||| lostOf c) 0)
    if m &&& ~~~ l.txmask = 0 then s else s.newTx n (l.txmask ||| m) f.ackSeq

/-- Power falls on wavelengths: of an UP link the observing end acts; a QUIET or DARK link only changes its masks (R427, R430, R436). -/
def lightLost (s : State) (n : Nat) (lost : BitVec 16) (atSender : Bool) : State :=
  let l := s.link n
  match l.st with
  | .up =>
    if atSender then
      let x := lost &&& l.txmask
      if x = 0 then s
      else
        let a : Link := { l with txmask := l.txmask &&& ~~~ x }
        if ones a.txmask < 2 then (s.laserLost n x).linkDown n a
        else s.pumpLink n fun _ => ({ a with restripe := l.restripe ++ [s.linkCause 0x11 n (sourceOf x) l a] } : Link).announce a.txmask false false
    else
      let x := lost &&& l.rxmask
      if x = 0 then s else s.newRx n (l.rxmask &&& ~~~ x)
  | .quiet | .dark =>
    let a : Link := if atSender then { l with txmask := l.txmask &&& ~~~ lost }
      else { l with rxmask := l.rxmask &&& ~~~ lost, lit := l.lit &&& ~~~ lost }
    s.modLink n fun _ => if a.rxmask = 0 then { a with st := .dark } else a
  | .training => s.modLink n fun l => { l with lit := l.lit &&& ~~~ lost }
  | .down => s.modLink n fun l => { l with lit := l.lit &&& ~~~ lost }

def execLossOfLight (link : Fin 16) (lost : BitVec 16) (atSender : Bool) (s : State) : Out := .next (lightLost s link lost atSender)

/-- Relit wavelengths pass phases 2 to 4 alone, and this end announces the larger mask; it takes effect when the sender has announced it
too (R429). -/
def execLaserRelight (link : Fin 16) (lit : BitVec 16) (s : State) : Out :=
  .next (
    let l := s.link link
    if l.st = .up then
      if l.rxmask ||| lit = l.rxmask then s else s.pumpLink link fun l => { l with lit := l.lit ||| lit }.announce (l.rxmask ||| lit) true false
    else s.modLink link fun l => { l with lit := l.lit ||| lit })

/-! ### Receiving (R424, R425, R428) -/

/-- What a flit says of the reverse direction: acknowledged flits leave the replay buffer; a NAK rewinds it; allowance returns (R424,
R425). -/
def State.takeAck (s : State) (n : Nat) (f : Flit) : State :=
  let l := s.link n
  let k := match l.replay.head? with
    | some o => let d := (f.ackSeq - o.f.seq).toNat; if f.av && d ≤ l.replay.length then d else 0
    | none => 0
  let got := l.replay.take k
  let xids := (got.filter (·.mine)).map (·.f.xid)
  let on := got.filter fun o => !o.mine
  let s : State := { s with
    outgoing := s.outgoing.map fun o => if xids.contains o.xid then { o with acked := true } else o,
    forwards := (s.forwards.filter fun w => !(on.any fun o => o.f.lst && w.is o.f)).map fun w =>
      if on.any fun o => w.is o.f then { w with acked := true } else w }
  let rewind := f.nak && f.av && k < l.replay.length
  s.pumpLink n fun l =>
    let l := { l with replay := l.replay.drop k, cursor := l.cursor - k, allow := l.allow + f.allow,
                      lastAck := if f.av then s.clk else l.lastAck, resends := if 0 < k then 0 else l.resends }
    if rewind then { l with cursor := 0 } else l

/-- The DRAIN flit of a link that takes no new transfers follows the last flit of those under way (R430). -/
def State.sendDrain (s : State) (n : Nat) : State :=
  let l := s.link n
  if l.st = .up && l.quiescing.isSome && !l.drainSent && !(s.forwards.any fun w => !w.ended && w.out.map (·.val) == some n) then
    s.pumpLink n fun l => { l with drainSent := true, pend := l.pend ++ [OutFlit.mk (mkFlit .drain) false] }
  else s

/-- A flit is discarded, and its allowance returned; the first of a run is answered with a NAK (R424, R425). -/
def State.rejectFlit (s : State) (n : Nat) (costs : Bool) : State :=
  s.modLink n fun l =>
    let l := { l with owe := if costs then l.owe + 1 else l.owe }
    if l.naking then l else { l.idle true with naking := true }

/-- The entry of a forwarded flit's transfer: made by the first flit, kept by the later ones. -/
def State.forwardOf (s : State) (n : Fin 16) (f : Flit) : Option Forward :=
  match f.desc, s.forwards.find? fun w => w.is f with
  | some x, _ =>
    let ls := s.openLinks (epDev f.dstEp)
    some ⟨x.kind, n, f.srcEp, f.dstEp, f.xid, (ls[f.xid.toNat % ls.length]?).bind fun k => if h : k < 16 then some ⟨k, h⟩ else none, false, f.lst⟩
  | none, some w => some { w with link := n, ended := f.lst }
  | none, none => none

/-- A forwarded flit: it goes on over the link its transfer took, while that is UP; a fifth hop drops it, and a DONE with UNREACH goes back to
its source (R423). -/
def State.forwardFlit (s : State) (n : Fin 16) (f : Flit) : State :=
  if 4 ≤ f.hop then
    match f.desc with
    | some x => s.sendDone x 2
    | none => s
  else
    let o : OutFlit := ⟨{ f with hop := f.hop + 1 }, false⟩
    let w := s.forwardOf n f
    let s : State := { s with forwards := (s.forwards.filter fun w => !w.is f) ++ w.toList }
    match w.bind (·.out) with
    | some k =>
      if (s.link k).st = .up then
        let s := s.pumpLink k fun l => { l with pend := l.pend ++ [o] }
        if f.lst then s.sendDrain k else s
      else s.routeFlit o 4
    | none => s.routeFlit o 4

/-- The contribution pool of 64 MiB is full: each contribution to a chunk takes a slot of 256 bytes (R434). -/
def contribSlots : Nat := 64 * 2 ^ 20 / 256
def State.poolFull (s : State) : Bool := contribSlots ≤ s.contribs.length

/-- A flit for this device joins its transfer; while the pool is full, the allowance of a CONTRIB flit is kept back (R434); a message or an answer already taken is discarded (R428, R460). -/
def State.acceptFlit (s : State) (n : Fin 16) (f : Flit) : State :=
  let same := fun (i : Inbound) => i.link.isSome && i.x.srcEp == f.srcEp && i.x.dstEp == f.dstEp && i.x.xid == f.xid
  let owes := fun (s : State) (k : Nat) => s.modLink n fun l => { l with owe := l.owe + k }
  let sh := if f.fst then 4 else 0
  let psn := f.poison.map fun w => f.off / 8 + w - sh
  let fill := fun (i : Inbound) =>
    { i with x := { i.x with data := patch i.x.data f.off f.data, poison := i.x.poison ++ psn }, link := if f.lst then none else some n }
  match s.inbound.find? same, f.desc with
  | some i, _ =>
    let keep := i.x.kind == .contrib && s.poolFull
    let s : State := { s with inbound := s.inbound.map fun j => if same j then
      (if keep then { fill j with owed := j.owed + 1 } else fill j) else j }
    if keep then s else owes s 1
  | none, some x =>
    if (x.kind == .msg || x.kind == .done) && s.seen.contains (x.kind, x.srcEp, x.xid) then owes s 1
    else
      let i := fill (mkInbound x (some n))
      let s : State := { s with seen := if x.kind == .msg || x.kind == .done then s.seen ++ [(x.kind, x.srcEp, x.xid)] else s.seen }
      if x.kind == .contrib && s.poolFull then { s with inbound := s.inbound ++ [{ i with owed := 1 }] }
      else owes { s with inbound := s.inbound ++ [i] } 1
  | none, none => owes s 1

/-- An in-sequence DRAIN flit: this end stops choosing the link too, and answers (R430 step 1). -/
def State.takeDrain (s : State) (n : Nat) : State :=
  (s.modLink n fun l => { l with drainGot := true, owe := l.owe + 1, quiescing := some (l.quiescing.getD s.clk) }).sendDrain n

/-- The link is QUIET once both DRAIN flits are acknowledged and both allowances stand at 1,024 (R430). -/
def State.quietCheck (s : State) (n : Nat) : State :=
  let l := s.link n
  if l.st = .up && l.quiescing.isSome && l.drainSent && l.drainGot && l.replay.isEmpty && l.pend.isEmpty && l.owe = 0 && l.allow = 1024 then
    (s.modLink n fun l => { l with st := .quiet }).fabricChanged
  else s

/-- Flits that cost allowance, which their discard returns (R424). -/
def flitCosts : FlitTy → Bool | .data | .ctrl | .drain => true | _ => false
def flitReserved : FlitTy → Bool | .reserved _ => true | _ => false

/-- A receiver's verdict on a flit (R421, R424, R425, R427, R461): reserved bits and types count as a CRC failure; a flit striped over another
mask than the receiver's, or out of sequence, is discarded. An announcement of a new mask by the sender is striped over that mask; out of sequence
it is discarded as a flit, and the mask is taken all the same (DEDUCED, log 85: the flits before it may have been lost with the light). -/
def flitStep (s : State) (n : Fin 16) (rx : Reception) (f : Flit) : State :=
  let l := s.link n
  let ok := received rx && !f.resv && !flitReserved f.ty
  let news := announces f && f.mask ≠ l.rxmask && f.wl &&& ~~~ f.mask == 0
  if l.st = .training then
    if ok && f.ty = .ctrl then s.trainCtrl n f else s.modLink n fun l => { l with owe := l.owe + (flitCosts f.ty).toNat }
  else if l.st ≠ .up then s
  else if !ok || (f.wl ≠ l.rxmask && !news) then s.rejectFlit n (flitCosts f.ty)
  else if f.seq ≠ l.rxSeq then
    if news then (s.modLink n fun l => { l with owe := l.owe + 1 }).newRx n f.mask else s.rejectFlit n (flitCosts f.ty)
  else if f.ty = .idle then (s.takeAck n f).quietCheck n
  else
    let s := s.modLink n fun l => { l with rxSeq := l.rxSeq + 1, unacked := l.unacked + 1, lastRx := s.clk, naking := false }
    let s := if f.ty = .ctrl then (s.modLink n fun l => { l with owe := l.owe + 1 }).upCtrl n f else s
    let s := s.takeAck n f
    let s := if f.ty = .ctrl then s
      else if f.ty = .drain then (s.takeDrain n).modLink n (·.idle false)
      else if s.isOwn f.dstEp then s.acceptFlit n f
      else (s.modLink n fun l => { l with owe := l.owe + 1 }).forwardFlit n f
    let s := if 64 ≤ (s.link n).unacked then s.modLink n (·.idle false) else s
    s.quietCheck n

def execFlitReceive (link : Fin 16) (rx : Reception) (f : Flit) (s : State) : Out := .next (flitStep s link rx f)

/-- A flit that came unharmed. -/
def unharmed : Reception := ⟨true, []⟩

def execCtrlFlitReceive (link : Fin 16) (f : Flit) (s : State) : Out :=
  .next (if f.ty = .ctrl then flitStep s link unharmed f else s)

def execDrainFlitReceive (link : Fin 16) (f : Flit) (s : State) : Out :=
  .next (if f.ty = .drain then flitStep s link unharmed f else s)

/-! ### Timers (R425, R426, R430) -/

def execAckTimer (link : Fin 16) (s : State) : Out :=
  .next (
    let l := s.link link
    if l.st = .up && 0 < l.unacked then ((s.advanceTo l.lastRx).modLink link (·.idle false)).quietCheck link else s)

def execResendTimeout (link : Fin 16) (s : State) : Out :=
  .next (
    let l := s.link link
    if l.st = .up && !l.replay.isEmpty then
      let s := s.advanceTo (l.lastAck + 8192)
      s.pumpLink link fun l => { l with cursor := 0, lastAck := s.clk }
    else s)

def execResendLimit (link : Fin 16) (s : State) : Out :=
  .next (
    let l := s.link link
    if l.st = .up && 16 ≤ l.resends then
      (s.modLink link fun l => ({ l with relocking := true, lit := l.rxmask } : Link).countRetrain).toPhase link 2 |>.fabricChanged
    else s)

def execQuiesceTimeout (link : Fin 16) (s : State) : Out :=
  .next (
    let l := s.link link
    match l.quiescing with
    | some t => let s := s.advanceTo (t + 2 ^ 32); s.linkDown link (s.link link)
    | none => s)

/-! ### The fabric page (R418, R430, R432) -/

/-- A command of the fabric page is set aside with its status, and the interrupt is sent (R389, R418). -/
def State.fabricStatus (s : State) (st : BitVec 16) : State := { s with fbStatus := st, hostOut := s.hostOut ++ [.msix 0 0] }

/-- A fabric-page command: the words stand in FBCMD; a doorbell while BUSY is counted and ignored (R389, R418). -/
def fabricCommand (s : State) (w : Vector W64 12) (f : State → State) : State :=
  if s.power ≠ .ready then s
  else if s.fbBusy.isSome then s.discard
  else f { s with fbcmd := w }

def execRoute (w : Vector W64 12) (s : State) : Out :=
  .next (fabricCommand s w fun s =>
    (({ s with routes := vput s.routes (bits w[1].toNat 6 0) (w[2].truncate 16) } : State).fabricChanged).fabricStatus 0)

def execEpset (w : Vector W64 12) (s : State) : Out :=
  .next (fabricCommand s w fun s =>
    ({ s with endpoints := tset 0 s.endpoints (bits w[1].toNat 11 0) (w[2].truncate 16) } : State).fabricStatus 0)

/-- The checks of R432; PEER fields at and above NPEER are no reserved bits (R227). -/
def State.groupOk (s : State) (w : Vector W64 8) : Bool :=
  let n := grpPeers w
  s.active (grpOwner w) && grpBase w % 4096 == 0 && 2 ≤ n && n ≤ 24 && grpSelf w < n && grpOp w != 3 &&
  bits w[0].toNat 41 32 == 0 && bits w[1].toNat 63 57 == 0 &&
  grpPeer w (grpSelf w) == s.ownEp (grpOwner w)

def execGset (w : Vector W64 12) (s : State) : Out :=
  .next (fabricCommand s w fun s =>
    let g := bits w[0].toNat 27 16
    let e : Vector W64 8 := #v[w[1], w[2], w[3], w[4], w[5], w[6], w[7], w[8]]
    if !s.groupOk e then s.fabricStatus 1
    else if s.contribStats.any fun c => c.grp == g then s.fabricStatus 4
    else
      ({ s with groups := tset (Vector.replicate 8 0) s.groups g e, nextCn := tset 0 s.nextCn g 0,
                summed := s.summed.filter fun x => x.1 != g } : State).fabricStatus 0)

/-- V = 0; pending contributions complete UNREACH, and gathering `fmrl` entries PEERABSENT (R418, R436). -/
def execGclr (w : Vector W64 12) (s : State) : Out :=
  .next (fabricCommand s w fun s =>
    let g := bits w[0].toNat 27 16
    let e := s.group g
    let s : State := { s with groups := tset (Vector.replicate 8 0) s.groups g (e.set 0 (e[0] &&& ~~~ (BitVec.ofNat 64 (2 ^ 63)))) }
    let xs := (s.gathers.filter fun x => x.grp == g && x.gathering s).map (·.xid)
    ((xs.foldl (fun s x => s.endOutgoing x 3) s).freeGroup g).fabricStatus 0)

/-- QUIESCE: each named UP link takes no new transfers, and its DRAIN flit follows its last DATA flit (R423, R430 step 1). -/
def execQuiesce (w : Vector W64 12) (s : State) : Out :=
  .next (fabricCommand s w fun s =>
    let m : BitVec 16 := w[1].truncate 16
    let ls := (List.range 16).filter m.getLsbD
    if ls.any fun n => (s.link n).st == .training then s.fabricStatus 4
    else
      let s := ls.foldl (fun s n =>
        let l := s.link n
        if l.st = .up && l.quiescing.isNone then
          ((s.modLink n fun l => { l with quiescing := some s.clk }).sendDrain n).quietCheck n
        else s) s
      ({ s with fbBusy := some (true, m) } : State).fabricChanged)

/-- RELOCK: each named link trains again, keeping its allowances (R430 step 3). -/
def execRelock (w : Vector W64 12) (s : State) : Out :=
  .next (fabricCommand s w fun s =>
    let m : BitVec 16 := w[1].truncate 16
    let ls := (List.range 16).filter m.getLsbD
    if ls.any fun n => (s.link n).st != .quiet && (s.link n).st != .dark then s.fabricStatus 4
    else
      let s := ls.foldl (fun s n => (s.modLink n fun l => { l with relocking := true, restarts := 0 }).toPhase n 1) s
      ({ s with fbBusy := some (false, m) } : State).fabricChanged)

/-- A fabric link is reset: LSTAT takes its reset value, and it retrains from phase 1, keeping its replay buffer (R6, R414, R418, R436). -/
def State.resetLink (s : State) (n : Nat) : State :=
  let l := s.link n
  let a : Link := { l with retrains := 0, txmask := 0, rxmask := 0, restarts := 0, relocking := l.relocking || (l.st != .down && l.st != .training) }
  ((s.modLink n fun _ => a).toPhase n 1).fabricChanged

end Sys2Proof.Machine
end

