-- ==== Sys2Proof/Machine/Sha3.lean ====
section
/-!
DEFINITION. SHA3-512, the digest of captures, images and reports (19 R447, 20 R449, R453). The standard, FIPS 202, is named by the spec and
not given in it (log 12).
-/
namespace Sys2Proof.Machine

/-! ### The permutation: 25 words, the word of column `x` and row `y` at `x + 5 y` -/

/-- The words in the order in which FIPS 202 turns them, each with its turn: the walk starts at column 1 of row 0 and goes from (x, y) to
(y, 2 x + 3 y); the word met after `t` moves turns by the triangular number of t + 1. -/
def turnWalk : (moves t x y : Nat) → List (Nat × Nat)
  | 0, _, _, _ => []
  | n + 1, t, x, y => (x + 5 * y, (t + 1) * (t + 2) / 2 % 64) :: turnWalk n (t + 1) y ((2 * x + 3 * y) % 5)

/-- The turn of word `i`; word 0 is not on the walk and turns by 0. -/
def wordTurn (i : Nat) : Nat := ((turnWalk 24 0 1 0).lookup i).getD 0

/-- The shift register that gives the bits of the round constants: eight bits over the polynomial x^8 + x^6 + x^5 + x^4 + 1. -/
def roundShift (r : Nat) : Nat := if 128 ≤ r then 2 * r ^^^ 0x171 else 2 * r

/-- The constant of a round takes seven bits of the register, for the places 0, 1, 3, 7, 15, 31 and 63, and hands the register on. -/
def roundConstant : (left place r : Nat) → Nat × Nat
  | 0, _, r => (0, r)
  | n + 1, place, r =>
    let (c, r') := roundConstant n (2 * place + 1) (roundShift r)
    (r % 2 * 2 ^ place + c, r')

/-- The constants of `n` rounds from a register. -/
def roundConstants : (n r : Nat) → List W64
  | 0, _ => []
  | n + 1, r => BitVec.ofNat 64 (roundConstant 7 0 r).1 :: roundConstants n (roundConstant 7 0 r).2

/-- One round. -/
def keccakRound (a : Vector W64 25) (rc : W64) : Vector W64 25 :=
  let at_ := fun (v : Vector W64 25) (x y : Nat) => (v[x % 5 + 5 * (y % 5)]?).getD 0
  let col : Vector W64 5 := Vector.ofFn fun x => (List.range 5).foldl (fun s y => s ^^^ at_ a x y) 0
  let mix := fun (x : Nat) => (col[(x + 4) % 5]?).getD 0 ^^^ ((col[(x + 1) % 5]?).getD 0).rotateLeft 1
  let a : Vector W64 25 := Vector.ofFn fun i => a[i] ^^^ mix (i.val % 5)
  let b : Vector W64 25 := Vector.ofFn fun i =>
    let x := (i.val % 5 + 3 * (i.val / 5)) % 5
    let y := i.val % 5
    (at_ a x y).rotateLeft (wordTurn (x + 5 * y))
  let d : Vector W64 25 := Vector.ofFn fun i =>
    let x := i.val % 5
    let y := i.val / 5
    b[i] ^^^ (~~~ (at_ b (x + 1) y) &&& at_ b (x + 2) y)
  d.set 0 (d[0] ^^^ rc)

/-! ### The sponge: blocks of 72 bytes -/

/-- The words of some bytes, eight to a word, the lowest first. -/
def byteWords : (n : Nat) → List Byte → List W64
  | 0, _ => []
  | n + 1, bs => BitVec.ofNat 64 (bytesNat (bs.take 8)) :: byteWords n (bs.drop 8)

/-- One block joins the sponge. -/
def absorb (a : Vector W64 25) (block : List Byte) : Vector W64 25 :=
  let ws := byteWords 9 block
  (roundConstants 24 1).foldl keccakRound (Vector.ofFn fun i => a[i] ^^^ (ws[i.val]?).getD 0)

/-- All blocks; the last is padded with 06H, zeros and 80H. -/
def sponge (a : Vector W64 25) : (fuel : Nat) → List Byte → Vector W64 25
  | 0, _ => a
  | n + 1, bs =>
    if 72 ≤ bs.length then sponge (absorb a (bs.take 72)) n (bs.drop 72)
    else
      let p := bs ++ [0x06] ++ List.replicate (71 - bs.length) 0
      absorb a (p.take 71 ++ [(p[71]?).getD 0 ||| 0x80])

/-- The eight words of the digest of some bytes. -/
def sha3 (data : List Byte) : List W64 := (sponge (Vector.replicate 25 0) (data.length + 1) data).toList.take 8

end Sys2Proof.Machine
end

