-- ==== Sys2Proof/Machine/Capture.lean ====
section
/-!
DEFINITION. Capture of a virtual device's events, and the records that a replay takes (19 R440, R447).
-/
namespace Sys2Proof.Machine

/-! ### CAPCTL -/

/-- The device named is captured, or replayed. -/
def State.capturing (s : State) (vd : Nat) : Bool :=
  s.capctl.getLsbD 9 && !s.capctl.getLsbD 10 && bits s.capctl.toNat 8 0 == vd
def State.replaying (s : State) (vd : Nat) : Bool :=
  s.capctl.getLsbD 9 && s.capctl.getLsbD 10 && bits s.capctl.toNat 8 0 == vd

/-- Records of the capture ring: 2 to the n, with n from 10 to 24; none otherwise (R440). -/
def State.capRecords (s : State) : Nat :=
  let n := bits s.capsize.toNat 4 0
  if 10 ≤ n && n ≤ 24 then 2 ^ n else 0

/-! ### Writing records -/

/-- A record of `kind` with words 2 to 7, and what stands beside the kind in w0 (the places of contents: log 14). While the ring is
full, OVF is set and the record dropped. -/
def State.capture (s : State) (vd kind w0 : Nat) (ws : List W64) : State :=
  if !s.capturing vd then s
  else if s.capRecords ≤ (s.captail - s.caphead).toNat then { s with capctl := s.capctl ||| BitVec.ofNat 64 (2 ^ 11) }
  else
    let words := [BitVec.ofNat 64 (kind + w0), s.dieCtr 2] ++ (List.range 6).map fun i => (ws[i]?).getD 0
    ({ s with captail := s.captail + 1 } : State).pfWrite (s.capbase.toNat + 64 * (s.captail.toNat % s.capRecords)) (wordBytes words)

/-- A record with a digest, continued in one of kind 6. -/
def State.captureDigest (s : State) (vd kind w0 : Nat) (data : List Byte) : State :=
  let d := sha3 data
  (s.capture vd kind w0 (d.take 6)).capture vd 6 0 (d.drop 6)

/-! ### Replay -/

/-- Word `i` of record `n`. -/
def State.capWord (s : State) (n i : Nat) : W64 :=
  BitVec.ofNat 64 (readNat s.pfHost (s.capbase.toNat + 64 * (n % (Nat.max 1 s.capRecords)) + 8 * i) 8)

/-- The first record of a kind from number `n` on. -/
def State.findRecord (s : State) (kind : Nat) (n : Nat) : (fuel : Nat) → Option Nat
  | 0 => none
  | k + 1 => if s.captail.toNat ≤ n then none
    else if bits (s.capWord n 0).toNat 7 0 = kind then some n else s.findRecord kind (n + 1) k

/-- The first `k` records of a kind from number `n` on. -/
def State.recordsFrom (s : State) (kind : Nat) : (k n : Nat) → List Nat
  | 0, _ => []
  | k + 1, n => match s.findRecord kind n s.capRecords with | some m => m :: s.recordsFrom kind k (m + 1) | none => []

/-- The next record of a kind that the replay has not used. -/
def State.nextRecord (s : State) (kind : Nat) : Option Nat :=
  let n := Nat.max (tget 0 s.replayed kind) (s.captail.toNat - s.capRecords)
  s.findRecord kind n s.capRecords

/-- That record is used. -/
def State.useRecord (s : State) (kind n : Nat) : State := { s with replayed := tset 0 s.replayed kind (n + 1) }

/-- The recorded digest differs from that of the same thing now: MIS and event 0x29 (R447). The answer says whether it does. -/
def State.compareDigest (s : State) (vd kind blk : Nat) (seq : W32) (data : List Byte) : State × Bool :=
  if !s.replaying vd then (s, false)
  else match s.nextRecord kind with
    | none => (s, false)
    | some n =>
      let d := sha3 data
      let same := (List.range 6).all (fun i => s.capWord n (i + 2) == (d[i]?).getD 0) &&
        (List.range 2).all (fun i => s.capWord (n + 1) (i + 2) == (d[i + 6]?).getD 0)
      let s := s.useRecord kind n
      if same then (s, false)
      else
        (({ s with capctl := s.capctl ||| BitVec.ofNat 64 (2 ^ 12) } : State).postEvent 0x29 2 vd 0 (BitVec.ofNat 64 n)
          (BitVec.ofNat 64 (blk + seq.toNat * 2 ^ 32)), true)

/-- The value a COND or a memory WAIT takes: the recorded one in a replay (R447). -/
def State.takenValue (s : State) (vd : Nat) (x : W64) : State × W64 :=
  if s.replaying vd then
    match s.nextRecord 4 with | some n => (s.useRecord 4 n, s.capWord n 2) | none => (s, x)
  else (s.capture vd 4 0 [x], x)

end Sys2Proof.Machine
end

