-- ==== Sys2Proof/Machine/Control.lean ====
section
/-!
DEFINITION. Control, trap and system words (08 R158 to R175; 02 R42 to R44; 05 R110 to R118).
-/
namespace Sys2Proof.Machine

/-! ### Nothing, delay and yield (R161) -/

def execNop (s : State) : Out := .next (issueCourse .nop s fun x => x.k)

/-- The next word issues no earlier than `n` cycles after the `dly` (R95). -/
def execDly (n : Fin 64) (s : State) : Out :=
  .next (issueCourse (.dly n) s fun x => { x.k with hold := .dly (x.s.clk + n.val) })

/-- The course is not eligible for the next 8 cycles: those from `clk + 1` to `clk + 8` (R161). -/
def execYield (s : State) : Out := .next (issueCourse .yield s fun x => { x.k with hold := .yield (x.s.clk + 9) })

/-! ### Transfers (R42, R159, R160, R162, R163) -/

/-- The check of a target address: alignment, then the address range (R160). -/
def targetFault (t : Int) : Option Res :=
  let fa : W64 := BitVec.ofInt 64 t
  if t % 8 ≠ 0 then some (.trap 0x02 0 fa)
  else if t < 0 || (2 ^ 57 : Nat) ≤ t then some (.trap 0x13 0 fa)
  else none

/-- The target of a relative transfer (R162, R163). -/
def relTarget (pc : Addr) (off : BitVec 18) : Int := pc.toNat + 8 * off.toInt

/-- A divergent branch (R42). -/
def Course.split (k : Course) (hint : Hint) (t : Addr) (join : BitVec 12) (taken : LaneMask) : Course :=
  let rest := k.lanes &&& ~~~ taken
  let next := k.pc + 8
  let j := k.pc + 8 * join.zeroExtend 57
  if hint = .unlikely then { k with div := ⟨t, taken, j, false⟩ :: k.div, lanes := rest, pc := next }
  else { k with div := ⟨next, rest, j, false⟩ :: k.div, lanes := taken, pc := t }

/-- The effect of `bra` (R42, R43). DEDUCED (log 73): a `bra` that no lane takes checks no target; a target out of range comes before
DIVERGE and DIVSTACK. -/
def braEffect (x : Ctx) (gd : Guard) (hint : Hint) (off : BitVec 18) (join : BitVec 12) : Res :=
  let taken := x.r.exec gd
  let t := relTarget x.k.pc off
  if taken = 0 then x.ok x.k
  else
    match targetFault t with
    | some f => f
    | none =>
      let t := BitVec.ofInt 57 t
      if taken = x.k.lanes then .jump x.s t
      else if join = 0 then .trap 0x07 0 0
      else if Config.divCap ≤ x.k.div.length then .trap 0x08 0 0
      else
        let k := x.k.split hint t join taken
        let s := if hint = .groupUniform then (x.set k).addShare x.t.space 6 1 else x.set k
        .jump s k.pc

def execBra (gd : Guard) (hint : Hint) (off : BitVec 18) (join : BitVec 12) (s : State) : Out :=
  .next (issue (.bra gd hint off join) s fun x => braEffect x gd hint off join)

/-- A transfer of the whole course: a guard that differs raises DIVERGE; a false guard does nothing (R159). -/
def uniformTransfer (x : Ctx) (gd : Guard) (f : Unit → Res) : Res :=
  let m := x.r.exec gd
  if m = x.k.lanes && m ≠ 0 then f ()
  else if m = 0 then x.ok x.k
  else .trap 0x07 (lowestLane (x.k.lanes &&& ~~~ m)) 0

/-- A transfer to an address in a g register after its checks (R160). -/
def goTo (t : Int) (s : State) : Res :=
  match targetFault t with
  | some f => f
  | none => .jump s (BitVec.ofInt 57 t)

def execJmp (gd : Guard) (a : GReg) (s : State) : Out :=
  .next (issue (.jmp gd a) s fun x => uniformTransfer x gd fun _ => goTo (x.r.gget a).toNat x.s)

/-- The link pair and the new mask of a call (R163): the pair is written at issue and has no shadow. -/
def Course.link (k : Course) (d : Nat) (mask : BitVec 12) : Course :=
  let w (k : Course) (n : Nat) (y : W64) : Course := if h : n < 64 then k.putNow ⟨n, h⟩ y else k
  let k' := w (w k d (k.pc.zeroExtend 64 + 8)) (d + 1) (k.tkmask.zeroExtend 64)
  { k' with tkmask := mask.zeroExtend 16 ||| (k.tkmask &&& 0xF000) }

def execCall (gd : Guard) (d : GReg) (off : BitVec 18) (mask : BitVec 12) (s : State) : Out :=
  .next (issue (.call gd d off mask) s fun x => uniformTransfer x gd fun _ =>
    goTo (relTarget x.k.pc off) (x.set (x.k.link d mask)))

def execCallr (gd : Guard) (d a : GReg) (mask : BitVec 12) (s : State) : Out :=
  .next (issue (.callr gd d a mask) s fun x => uniformTransfer x gd fun _ =>
    goTo (x.r.gget a).toNat (x.set (x.k.link d mask)))

/-- A token of t8 to t11 is outstanding (R56, R163). -/
def Course.leaks (k : Course) : Bool := (List.range' 8 4).any fun j => (vat k.tok j ⟨0, 0⟩).count != 0

/-- TOKLEAK comes before the target checks (R163). -/
def execRet (gd : Guard) (a : GReg) (s : State) : Out :=
  .next (issue (.ret gd a) s fun x => uniformTransfer x gd fun _ =>
    if x.k.leaks then .trap 0x0C 0 0
    else goTo (x.r.gget a).toNat
      (x.set { x.k with tkmask := ((x.r.gget (a.val + 1)).truncate 16 &&& 0x0FFF) ||| (x.k.tkmask &&& 0xF000) }))

/-! ### Reconvergence and leaving (R164, R165) -/

/-- The effect of `bsync` (R164). -/
def bsyncEffect (x : Ctx) (c : GReg) : Res :=
  let m : LaneMask := (x.r.gget c).truncate 32
  let act := x.k.lanes
  let out := act &&& ~~~ m
  let prior : Option Res := match x.k.bsync with
    | some b =>
      if b.pc ≠ x.k.pc || b.tsp ≠ x.k.frames.length then some (.trap 0x05 32 0)
      else if m ≠ b.mask then some (.trap 0x05 (lowestLane (m ^^^ b.mask)) 0)
      else none
    | none => none
  match prior with
  | some f => f
  | none =>
    if out ≠ 0 then .trap 0x05 (lowestLane out) 0
    else
      let arrived := (match x.k.bsync with | some b => b.arrived | none => 0) ||| act
      let need := m &&& ~~~ x.k.exited
      if arrived = need then x.ok { x.k with lanes := need, bsync := none }
      else .jump (x.set { x.k with bsync := some ⟨x.k.pc, m, arrived, x.k.frames.length⟩, lanes := 0 }) x.k.pc

def execBsync (c : GReg) (s : State) : Out := .next (issue (.bsync c) s fun x => bsyncEffect x c)

/-- Lanes removed everywhere (R165). -/
def Course.removeLanes (k : Course) (ex : LaneMask) : Course :=
  { k with lanes := k.lanes &&& ~~~ ex, exited := k.exited ||| ex,
           div := k.div.map fun e => { e with mask := e.mask &&& ~~~ ex },
           bsync := k.bsync.map fun b => { b with arrived := b.arrived &&& ~~~ ex },
           frames := k.frames.map fun f =>
             { words := f.words.set 3 (f.words[3] &&& ~~~ ((ex.zeroExtend 64 : W64))) } }

/-- The effect of `exit` (R56, R165); the last lane's exit with a rollback request pending kills the course (R443). -/
def exitEffect (x : Ctx) (gd : Guard) : Res :=
  let ex := x.r.exec gd
  let last := x.k.live &&& ~~~ ex = 0
  if ex = 0 then x.ok x.k
  else if last && x.k.leaks then .trap 0x0C 0 0
  else
    let k := x.k.removeLanes ex
    if last then
      let k := { k with rgstate := k.rgstate &&& ~~~ (BitVec.ofNat 64 (2 ^ 63)), div := [], bsync := none }
      if x.k.rollbackPend then
        .ok ((x.set k).killCourse x.c (x.s.courseCause x.c 0x15 1 (x.k.pc.zeroExtend 64) 0))
      else x.ok k
    else x.ok k

def execExit (gd : Guard) (s : State) : Out := .next (issue (.exit gd) s fun x => exitEffect x gd)

/-! ### Regions (R166) -/

/-- RGSTATE as `region` records it (R113, R166). -/
def Course.regionState (k : Course) : W64 :=
  BitVec.ofNat 64 (2 ^ 63 + k.frames.length * 2 ^ 38 + k.div.length * 2 ^ 32 + k.lanes.toNat)

/-- The effect of `region` and `region.end`: operations in flight are older than the region. -/
def regionEffect (x : Ctx) (fin : Bool) : Course :=
  if fin then { x.k with rgstate := x.k.rgstate &&& ~~~ (BitVec.ofNat 64 (2 ^ 63)) }
  else
    { x.k with region := x.k.pc, regionAt := x.s.clk, rgstate := x.k.regionState, ops := x.k.ops.map fun o => { o with inRegion := false },
               hold := if x.t.items.guarded then .guard (x.k.lastIssue + Config.strikeWindow) else x.k.hold }

def execRegion (fin : Bool) (s : State) : Out := .next (issueCourse (.region fin) s fun x => regionEffect x fin)

/-! ### Traps (R167, R170, R171) -/

def execTrap (gd : Guard) (n : BitVec 8) (s : State) : Out :=
  .next (issue (.trap gd n) s fun x => if x.r.uniform gd then .trap 0x18 n.toNat 0 else x.ok x.k)

def execBrk (gd : Guard) (n : BitVec 8) (s : State) : Out :=
  .next (issue (.brk gd n) s fun x => if x.r.uniform gd then .trap 0x1A n.toNat 0 else x.ok x.k)

/-- The checks of `rett` in order, then the return (R116, R170). -/
def rettEffect (x : Ctx) : Res :=
  match x.k.frames with
  | [] => .trap 0x01 0x01 0
  | f :: _ =>
    if x.k.div.length < f.fdsp then .trap 0x01 0x02 0
    else if (match x.k.bsync with | some b => b.tsp == x.k.frames.length | none => false) then .trap 0x01 0x03 0
    else if (List.range' 12 4).any fun j => f.tokCount j < (vat x.k.tok j ⟨0, 0⟩).count.toNat then .trap 0x0C 0 0
    else if f.fpc.toNat % 8 ≠ 0 then .trap 0x02 0 (f.fpc.zeroExtend 64)
    else .jump (x.set x.k.leave) f.fpc

def execRett (s : State) : Out := .next (issue .rett s rettEffect)

def execTmask (gd : Guard) (n : Bool) (s : State) : Out :=
  .next (issueCourse (.tmask gd n) s fun x => if x.r.uniform gd then { x.k with tm := n } else x.k)

/-! ### Special registers (R110 to R118, R172, R173) -/

/-- Word `i` of the top frame; 0 while TSP is 0 (R117). -/
def Course.tf (k : Course) (i : Nat) : W64 := match k.frames with | [] => 0 | f :: _ => vat f.words i 0

/-- CYC of a core (R27). -/
def State.cyc (s : State) (core : Nat) : W64 := BitVec.ofNat 64 s.clk - BitVec.ofNat 64 (s.core core).cyc0

/-- PLACE (R113). -/
def Ctx.place (x : Ctx) : W64 := BitVec.ofNat 64 (x.t.core * 64 + x.k.slot)

/-- A special register as a `csrr` reads it; `none` for an index that is not assigned (R110). -/
def Ctx.special (x : Ctx) (idx : Nat) : Option W64 :=
  let k := x.k
  match idx with
  | 0x00 => some (k.pc.zeroExtend 64)
  | 0x01 => some (k.lanes.zeroExtend 64)
  | 0x02 => some (BitVec.ofNat 64 k.tm.toNat)
  | 0x03 => some (k.tkmask.zeroExtend 64)
  | 0x04 => some (BitVec.ofNat 64 k.strict.toNat)
  | 0x05 => some (k.region.zeroExtend 64)
  | 0x06 => some (BitVec.ofNat 64 k.frames.length)
  | 0x07 => some k.rgstate
  | 0x08 => some (k.tf 0)
  | 0x09 => some (k.tf 1)
  | 0x0A => some (k.tf 2)
  | 0x0B => some (k.tf 3)
  | 0x0C => some (k.rowprog.zeroExtend 64)
  | 0x0D => some (BitVec.ofNat 64 k.div.length)
  | 0x0E => some (k.ctxArea.zeroExtend 64)
  | 0x10 => some (BitVec.ofNat 64 x.c.course)
  | 0x11 => some (BitVec.ofNat 64 x.t.index)
  | 0x12 => some (BitVec.ofNat 64 x.t.spanPos)
  | 0x13 => some (k.role.zeroExtend 64)
  | 0x14 => some x.place
  | 0x18 => some ((k.fstatSeen x.s.tick).zeroExtend 64)
  | 0x19 => some (k.rmode.zeroExtend 64)
  | 0x1C => some (x.s.cyc x.t.core)
  | 0x1D => some (BitVec.ofNat 64 x.t.vd.val)
  | _ => none

/-- The kernel-mode registers (R118). -/
def isKernelIdx (idx : Nat) : Bool := 0x40 ≤ idx && idx ≤ 0x45

/-- A kernel-mode register as a `csrr` reads it (R118). -/
def Ctx.kernelReg (x : Ctx) (idx : Nat) : W64 :=
  let die := dieOf x.t.core
  match idx with
  | 0x40 => BitVec.ofNat 64 x.t.kernelMode.toNat
  | 0x41 => (vat x.s.svrBase die 0).zeroExtend 64
  | 0x42 => (vat x.s.svrHead die 0).zeroExtend 64
  | 0x43 => (vat x.s.svrTail die 0).zeroExtend 64
  | 0x44 => (x.s.core x.t.core).strkz.zeroExtend 64
  | _ => (x.s.core x.t.core).mtint.zeroExtend 64

/-- A register result of type b32 or b64: the same value in every executing lane (R172). -/
def Ctx.spread (x : Ctx) (gd : Guard) (t : BTy) (d : Reg) (y : W64) : Course :=
  let y := match t with | .b32 => (y.truncate 32 : W32).zeroExtend 64 | .b64 => y
  x.lanewise gd 4 t.regs d fun _ => y

/-- The effect of `csrr`: only an access faults (R4, R110). -/
def csrrEffect (x : Ctx) (gd : Guard) (t : BTy) (d : Reg) (idx : Nat) : Res :=
  if x.r.execFor gd d = 0 then x.ok x.k
  else if isKernelIdx idx then
    if x.t.kernelMode then x.ok (x.spread gd t d (x.kernelReg idx)) else .trap 0x17 0 0
  else match x.special idx with
    | some y => x.ok (x.spread gd t d y)
    | none => .trap 0x01 0 0

def execCsrr (gd : Guard) (t : BTy) (d : Reg) (idx : BitVec 8) (s : State) : Out :=
  .next (issue (.csrr gd t d idx) s fun x => csrrEffect x gd t d idx.toNat)

/-- A frame word as written: RO fields keep their values; `none` when a reserved bit is 1 (R4, R114, R116). -/
def writeTf (i : Nat) (old y : W64) : Option W64 :=
  match i with
  | 0 => if y >>> 57 = 0 then some y else none
  | 1 =>
    if y >>> 25 = 0 && !y.getLsbD 22 then
      some ((old &&& 0x80FFFF) ||| (y &&& 0x13F0000))
    else none
  | 2 => some old
  | _ => if y >>> 48 = 0 then some y else none

/-- A write of a frame word of the top frame. -/
def Ctx.writeFrame (x : Ctx) (i : Nat) (y : W64) : Res :=
  match x.k.frames with
  | [] => .trap 0x01 0 0
  | f :: fs =>
    match writeTf i (vat f.words i 0) y with
    | some z => x.ok { x.k with frames := ⟨vput f.words i z⟩ :: fs }
    | none => .trap 0x01 0 0

/-- STRICT written: a 1 tracks only the shadows that open after it, and the token operations issued after STRICT became 1 (R111,
R183). -/
def Course.setStrict (k : Course) (on : Bool) : Course :=
  if on then
    { k with strict := true, shadows := k.shadows.map fun sh => { sh with strict := false },
             ops := k.ops.map fun o => { o with strict := o.strict && k.strict } }
  else { k with strict := false }

/-- A write of a kernel-mode register (R118). -/
def Ctx.writeKernel (x : Ctx) (idx : Nat) (y : W64) : Res :=
  let die := dieOf x.t.core
  match idx with
  | 0x41 => .ok { x.s with svrBase := vput x.s.svrBase die (y.truncate 57) }
  | 0x42 => .ok { x.s with svrHead := vput x.s.svrHead die (y.truncate 11) }
  | 0x44 => .ok (x.s.modCore x.t.core fun c => { c with strkz := c.strkz &&& ~~~ (y.truncate 5 : BitVec 5) })
  | 0x45 => .ok (x.s.modCore x.t.core fun c => { c with mtint := y.truncate 32 })
  | _ => .trap 0x01 0 0

/-- A write of a special register (R110, R113, R116, R117). -/
def Ctx.writeSpecial (x : Ctx) (idx : Nat) (y : W64) : Res :=
  match idx with
  | 0x02 => x.ok { x.k with tm := y.getLsbD 0 }
  | 0x03 =>
    let m : BitVec 16 := y.truncate 16
    if x.k.frames = [] && m &&& 0xF000 ≠ 0 then .trap 0x0B 0 0 else x.ok { x.k with tkmask := m }
  | 0x04 => x.ok (x.k.setStrict (y.getLsbD 0))
  | 0x08 => x.writeFrame 0 y
  | 0x09 => x.writeFrame 1 y
  | 0x0A => x.writeFrame 2 y
  | 0x0B => x.writeFrame 3 y
  | 0x0C =>
    if (y.truncate 32 : W32) >>> 8 ≠ 0 then .trap 0x01 0 0
    else if x.k.ops.any fun o => o.mat && !o.fallen then x.ok x.k   -- R298
    else x.ok { x.k with rowprog := y.truncate 32, rowStart := true }
  | 0x18 => x.ok (x.k.fstatWrite x.s.tick (y.truncate 5))
  | 0x19 => x.ok { x.k with rmode := y.truncate 2 }
  | _ => .trap 0x01 0 0

/-- The effect of `csrw`: its source is that of the lowest-numbered active lane, its guard too; b32 clears the upper bits (R173). -/
def csrwEffect (x : Ctx) (gd : Guard) (t : BTy) (idx : Nat) (a : Reg) : Res :=
  if !x.r.uniform gd then x.ok x.k
  else
    let y := x.r.src t.regs a (lowestLane x.k.lanes)
    if isKernelIdx idx then if x.t.kernelMode then x.writeKernel idx y else .trap 0x17 0 0
    else x.writeSpecial idx y

def execCsrw (gd : Guard) (t : BTy) (idx : BitVec 8) (a : Reg) (s : State) : Out :=
  .next (issue (.csrw gd t idx a) s fun x => csrwEffect x gd t idx.toNat a)

/-! ### Service calls (R46, R174, R175) -/

/-- The batch record: a header of 64 bytes, whose field places are free (log 13), and 32 bytes of argument words for each executing
lane in ascending order (R46). Its mask and its lanes are the executing lanes, the active ones with a true guard (DEDUCED, log 89: R46 says
"active", and a lane whose guard is false does nothing by R44). -/
def Ctx.record (x : Ctx) (ex : LaneMask) (tk : Tok) (a : VReg) (na : Fin 9) (svc : BitVec 14) : List Byte :=
  let hdr := (List.range 64).map (Config.svcHeaderByte [svc.toNat, x.t.vd, x.t.core, x.k.slot, ex.toNat, tk,
    (x.s.dieCtr (dieOf x.t.core)).toNat])
  let args := ((lanesIn ex).map fun l =>
    ((List.range 8).map fun j => natBytes 4 (if j < na.val then (x.r.vget (a.val + j) l).toNat else 0)).flatten).flatten
  hdr ++ args

/-- The core writes a record to its die's service ring and SVRTAIL advances (R46, R118). -/
def State.writeRecord (s : State) (die : Nat) (rec_ : List Byte) (who : CRef × Nat) : State :=
  let tail := vat s.svrTail die 0
  let a := (vat s.svrBase die 0).toNat + 2048 * (tail.toNat % 1024)
  { s with mem := writeBytes s.mem a rec_, memPsn := psnWrite s.memPsn a rec_.length false,
           svrTail := vput s.svrTail die (tail + 1),
           svcRecs := vput s.svcRecs die (vat s.svcRecs die [] ++ [some who]) }

/-- The result registers of a call, in the lanes of its record; their values come with the results. -/
def syscDests (d : VReg) (nr : Nat) (ex : LaneMask) : List RegVal :=
  (List.range nr).filterMap fun j => if h : d.val + j < 256 then some (.v ⟨d.val + j, h⟩ ex (Vector.replicate 32 0)) else none

/-- The effect of `sysc`: with no executing lane the token completes OK at once (R175); under the guarded bit the record is held
(R442). -/
def syscEffect (x : Ctx) (gd : Guard) (tk : Tok) (d a : VReg) (na nr : Fin 9) (svc : BitVec 14) : Res :=
  let ex := x.r.exec gd
  if ex = 0 then x.ok (x.k.issueOp tk .nothing [] (dests := (syscDests d nr ex).map RegVal.name))
  else
    let rec_ := x.record ex tk a na svc
    let id := x.k.nextOp
    let k := x.k.issueOp tk .service (syscDests d nr ex)
    let die := dieOf x.t.core
    if x.t.items.guarded then
      x.ok { k with quarantine := k.quarantine ++ [⟨.service (if die = 0 then 0 else 1) rec_, x.s.clk, some id, x.s.nextId⟩] }
    else .ok ((x.set k).writeRecord die rec_ (x.c, id))

def execSysc (gd : Guard) (tk : Tok) (d a : VReg) (na nr : Fin 9) (svc : BitVec 14) (s : State) : Out :=
  .next (issue (.sysc gd tk d a na nr svc) s fun x => syscEffect x gd tk d a na nr svc)

end Sys2Proof.Machine
end

