-- ==== Sys2Proof/Machine/Network.lean ====
section
/-!
DEFINITION. The network-class words, the start of their entries, and active messages on their way (16 R375 to R384, R386; 02 R48).
-/
namespace Sys2Proof.Machine

/-! ### The words (R375) -/

/-- The network words act once; a false guard completes OK (R375, R386). -/
def Ctx.network (x : Ctx) (gd : Guard) (tk : Tok) (f : Unit → Res) : Res :=
  if x.r.uniform gd then f () else x.ok (x.k.issueOp tk .nothing [])

/-- Register `i` of a network word's run. -/
def Course.gx (k : Course) (g i : Nat) : Nat := (k.gget (g + i)).toNat

/-- Bits that must be zero (R375). -/
def reserved (bad : Bool) : Option Res := if bad then some (.trap 0x01 0x40 0) else none

/-- A local range of bytes (R254, R376). -/
def localFault (base len : Nat) : Option Res :=
  if 2 ^ 57 ≤ base || 2 ^ 57 < base + len then some (.trap 0x13 0xA5 (BitVec.ofNat 64 base)) else none

/-- A record address (R254, R382). -/
def Ctx.recordFault (x : Ctx) (a : Nat) : Option Res :=
  if a % 8 ≠ 0 then some (.trap 0x02 (lowestLane x.k.lanes) (BitVec.ofNat 64 a)) else localFault a 32

/-- The first fault of a list of checks. -/
def firstFault : List (Option Res) → Option Res
  | [] => none
  | some r :: _ => some r
  | none :: rs => firstFault rs

/-- The checks, then the entry; a length of 0 completes OK at issue (R375). -/
def Ctx.netEntry (x : Ctx) (tk : Tok) (checks : List (Option Res)) (empty : Bool) (body : EntryBody) : Res :=
  match firstFault checks with
  | some r => r
  | none => if empty then x.ok (x.k.issueOp tk .nothing []) else x.enqueue .net (some tk) [] body

/-- The payload of `amsg`, filled with zeros to 64 bytes (R377). -/
def Course.payload (k : Course) (g nb : Nat) : List Byte :=
  let bs := (((List.range ((nb + 7) / 8)).map fun i => natBytes 8 (k.gx g (1 + i))).flatten).take nb
  bs ++ List.replicate (64 - nb) 0

/-- The effect of `amsg` (R48, R377). -/
def amsgEffect (x : Ctx) (tk : Tok) (g nb : Nat) : Res :=
  let w := x.r.gx g 0
  let h := bits w 15 8
  x.netEntry tk [reserved (bits w 63 16 ≠ 0 || 64 < nb), if x.t.items.tblCnt ≤ h then some (.trap 0x01 0 0) else none] false
    (.amsg (bits w 7 0) h x.t.items.tblBase (x.r.payload g nb))

def execAmsg (gd : Guard) (tk : Tok) (gx : GReg) (nb : BitVec 7) (s : State) : Out :=
  .next (issue (.amsg gd tk gx nb) s fun x => x.network gd tk fun _ => amsgEffect x tk gx nb.toNat)

def nsendEffect (x : Ctx) (tk : Tok) (g : Nat) : Res :=
  let w := x.r.gx g 0
  let buf := x.r.gx g 1
  let len := x.r.gx g 2
  x.netEntry tk [reserved (bits w 31 16 ≠ 0 || 2 ^ 32 ≤ len), localFault buf len] (len = 0)
    (.nsend (bits w 15 0) (bits w 63 32) buf len)

def execNsend (gd : Guard) (tk : Tok) (gx : GReg) (s : State) : Out :=
  .next (issue (.nsend gd tk gx) s fun x => x.network gd tk fun _ => nsendEffect x tk gx)

def nrecvEffect (x : Ctx) (tk : Tok) (g : Nat) : Res :=
  let w := x.r.gx g 0
  let buf := x.r.gx g 1
  let cap := x.r.gx g 2
  let ra := x.r.gx g 3
  x.netEntry tk [reserved (bits w 31 17 ≠ 0 || 2 ^ 32 ≤ cap), localFault buf cap, x.recordFault ra] false
    (.nrecv (BitVec.ofNat 64 w) buf cap ra)

def execNrecv (gd : Guard) (tk : Tok) (gx : GReg) (s : State) : Out :=
  .next (issue (.nrecv gd tk gx) s fun x => x.network gd tk fun _ => nrecvEffect x tk gx)

def nprobeEffect (x : Ctx) (tk : Tok) (g : Nat) : Res :=
  let w := x.r.gx g 0
  let ra := x.r.gx g 1
  x.netEntry tk [reserved (bits w 31 17 ≠ 0), x.recordFault ra] false (.nprobe (BitVec.ofNat 64 w) ra)

def execNprobe (gd : Guard) (tk : Tok) (gx : GReg) (s : State) : Out :=
  .next (issue (.nprobe gd tk gx) s fun x => x.network gd tk fun _ => nprobeEffect x tk gx)

/-- `fput` and `fget`: endpoint, local address, peer address, length (R378). -/
def putGetEffect (x : Ctx) (tk : Tok) (g : Nat) (get : Bool) : Res :=
  let w := x.r.gx g 0
  let loc := x.r.gx g 1
  let peer := x.r.gx g 2
  let len := x.r.gx g 3
  x.netEntry tk [reserved (bits w 63 16 ≠ 0 || 2 ^ 32 ≤ len), localFault loc len] (len = 0)
    (if get then .fget w loc peer len else .fput w loc peer len)

def execFput (gd : Guard) (tk : Tok) (gx : GReg) (s : State) : Out :=
  .next (issue (.fput gd tk gx) s fun x => x.network gd tk fun _ => putGetEffect x tk gx false)

def execFget (gd : Guard) (tk : Tok) (gx : GReg) (s : State) : Out :=
  .next (issue (.fget gd tk gx) s fun x => x.network gd tk fun _ => putGetEffect x tk gx true)

/-- The endpoint index that names the issuing device itself in `fcopy` (R376). -/
def selfEp : Nat := 0xFFFE

def fcopyEffect (x : Ctx) (tk : Tok) (g : Nat) : Res :=
  let w := x.r.gx g 0
  let sep := bits w 15 0
  let dep := bits w 31 16
  let src := x.r.gx g 1
  let dst := x.r.gx g 2
  let len := x.r.gx g 3
  x.netEntry tk [reserved (bits w 63 32 ≠ 0 || 2 ^ 32 ≤ len), if sep = selfEp then localFault src len else none,
      if dep = selfEp then localFault dst len else none] (len = 0)
    (.fcopy sep dep src dst len)

def execFcopy (gd : Guard) (tk : Tok) (gx : GReg) (s : State) : Out :=
  .next (issue (.fcopy gd tk gx) s fun x => x.network gd tk fun _ => fcopyEffect x tk gx)

/-- `fmrs` and `fmrl`: the checks of R375, then those of R380 with R254's before the window's end. -/
def reduceEffect (x : Ctx) (tk : Tok) (g : Nat) (readBack : Bool) : Res :=
  let w := x.r.gx g 0
  let a := x.r.gx g 1
  let b := x.r.gx g 2
  let cnt := x.r.gx g 3
  let loc := if readBack then b else a
  let off := if readBack then a else b
  let e := x.s.group (bits w 11 0)
  let sz := grpSize e
  let bad := if loc % sz ≠ 0 then some loc else if off % sz ≠ 0 then some off else none
  x.netEntry tk [
      reserved (bits w 63 12 ≠ 0 || 2 ^ 32 ≤ cnt),
      if !grpV e || grpOwner e ≠ x.t.space then some (.trap 0x13 0xA7 0) else none,
      bad.map fun p => .trap 0x02 (lowestLane x.k.lanes) (BitVec.ofNat 64 p),
      localFault loc (cnt * sz),
      if grpLen e < off + cnt * sz then some (.trap 0x13 0xA6 0) else none] (cnt = 0)
    (if readBack then .fmrl (bits w 11 0) off loc cnt else .fmrs (bits w 11 0) loc off cnt)

def execFmrs (gd : Guard) (tk : Tok) (gx : GReg) (s : State) : Out :=
  .next (issue (.fmrs gd tk gx) s fun x => x.network gd tk fun _ => reduceEffect x tk gx false)

def execFmrl (gd : Guard) (tk : Tok) (gx : GReg) (s : State) : Out :=
  .next (issue (.fmrl gd tk gx) s fun x => x.network gd tk fun _ => reduceEffect x tk gx true)

/-! ### Runs of bytes in a virtual device's space (R376, R378, R460) -/

/-- Who reads or writes a run of bytes: its agent, space and mode. -/
structure Reacher where
  ag    : Agent
  space : Nat
  user  : Bool

/-- The switch, for a transfer from another device (R472). -/
def switchReach (vd : Nat) : Reacher := ⟨⟨2, 3, 0xFF, 0⟩, vd, true⟩

/-- The bytes of one piece: within one 8-byte word of the transfer and one page. -/
def pieceLen (va k n : Nat) : Nat := Nat.min n (Nat.min (8 - k % 8) (4096 - va % 4096))

/-- One place of a run; promise pages and addresses out of range end in PERM (R254, R255). -/
def State.runPlace (s : State) (r : Reacher) (va : Nat) (w : Bool) : State × Except Halted Place :=
  if 2 ^ 57 ≤ va then (s, .error (.failed 0x13 0xA5, va))
  else
    let q := s.reach r.ag r.space va ⟨w, false, r.user⟩
    match q.2.2 with
    | some pl => if pl.prm then (q.1, .error (.failed 0x13 0xA3, va)) else (q.1, .ok pl)
    | none => (q.1, .error (q.2.1, va))

/-- Bytes of a run read in ascending order: those read, the poisoned words among them, and where it stopped. -/
structure RunRead where
  bytes : List Byte
  psn   : List Nat
  stop  : Option Halted

/-- `n` bytes from `va`, from place `k` of the transfer on. -/
def State.readRun (s : State) (r : Reacher) (va k n : Nat) : (fuel : Nat) → State × RunRead
  | 0 => (s, ⟨[], [], none⟩)
  | fuel + 1 =>
    if n = 0 then (s, ⟨[], [], none⟩)
    else
      match s.runPlace r va false with
      | (s, .error h) => (s, ⟨[], [], some h⟩)
      | (s, .ok pl) =>
        let m := pieceLen va k n
        let b := s.bank pl.host
        let bs := readBytes b.m pl.pa m
        let p := if anyPsn b.psn pl.pa m then [k / 8] else []
        let s := if pl.host then s else s.touchRange r.space pl.pa m false
        let (s, out) := s.readRun r (va + m) (k + m) (n - m) fuel
        (s, ⟨bs ++ out.bytes, p ++ out.psn, out.stop⟩)

/-- Bytes written from `va` on, from place `k` of the transfer: how many, whether poison was among them, and where it stopped. The core that
the write is made for drops its copies of the lines (R326). -/
def State.writeRun (s : State) (r : Reacher) (va k : Nat) (psn : List Nat) : (fuel : Nat) → List Byte → State × Nat × Bool × Option Halted
  | 0, _ => (s, 0, false, none)
  | _, [] => (s, 0, false, none)
  | fuel + 1, bs =>
    match s.runPlace r va true with
    | (s, .error h) => (s, 0, false, some h)
    | (s, .ok pl) =>
      let m := pieceLen va k bs.length
      let bad := psn.contains (k / 8)
      let p := mkPart false 0 va m (bs.take m) [] 0
      let s := s.putBank r.space pl.host pl.pa m ((s.bank pl.host).store p pl.pa bad)
      let s := if pl.host then s else s.l1Drop r.ag.core pl.pa
      let (s, n, q, stop) := s.writeRun r (va + m) (k + m) psn fuel (bs.drop m)
      (s, n + m, q || bad, stop)

/-! ### Starting an entry (R322, R376 to R384) -/

/-- The endpoint number an index names; none at or above NFEP (R376). -/
def State.endpoint? (s : State) (vd e : Nat) : Option (BitVec 16) :=
  match s.vdev? vd with
  | some d => if e < d.nfep then some (tget 0 s.endpoints (d.fep + e)) else none
  | none => none

/-- The local bytes of an entry, read as far as they can be; an entry that stops keeps what it has read (R376, R378). -/
def State.localBytes (s : State) (r : Reacher) (e : QEntry) (va len : Nat) : State × Except QEntry (List Byte × List Nat) :=
  let had := (e.cache.headD []).map (BitVec.ofNat 8)
  let bad := (e.cache.drop 1).headD []
  let (s, out) := s.readRun r (va + e.done) e.done (len - e.done) len
  let bs := had ++ out.bytes
  let ps := bad ++ out.psn
  match out.stop with
  | some h => (s, .error ({ e with cached := true, cache := [bs.map BitVec.toNat, ps], done := bs.length }.halt h))
  | none => (s, .ok (bs, ps))

/-- A transfer of an entry begins; the entry waits for its end. -/
def State.beginTransfer (s : State) (tn : Nat) (t : Truss) (e : QEntry) (x : Transfer) (loc len : Nat) (thru : Option (BitVec 16)) : State :=
  let xid := s.nextXid
  let s := s.setEntry tn .net { e with begun := true, full := true, wait := .untranslated }
  let s : State := { s with nextXid := xid + 1, outgoing := s.outgoing ++
    [{ xid := xid, kind := x.kind, vd := t.vd, truss := tn, entry := e.id, dstEp := x.dstEp, loc := loc, len := len, acked := false,
       thru := thru }] }
  s.sendTransfer { x with xid := xid, srcEp := s.ownEp t.vd, len := BitVec.ofNat 64 x.len.toNat } true

/-- An entry that sends local bytes (R378, R379, R381). -/
def State.sendBytes (s : State) (tn : Nat) (t : Truss) (r : Reacher) (e : QEntry) (loc len : Nat) (x : Transfer) : State :=
  match s.localBytes r e loc len with
  | (s, .error e') => if e'.full then s.endEntry tn .net e' [] false 0 else s.setEntry tn .net e'
  | (s, .ok (bs, ps)) => s.beginTransfer tn t e { x with data := bs, poison := ps, len := BitVec.ofNat 64 len } len len none

/-- The receiver's endpoint index that names a sender, or 0xFFFD (R381). -/
def State.sourceIndex (s : State) (vd : Nat) (src : BitVec 16) : BitVec 16 :=
  match s.vdev? vd with
  | some d => match (List.range d.nfep).find? fun e => tget 0 s.endpoints (d.fep + e) == src with
    | some e => BitVec.ofNat 16 e
    | none => 0xFFFD
  | none => 0xFFFD

/-- A match word against a source and a tag (R381). -/
def matches_ (mw : W64) (src : BitVec 16) (tag : W32) : Bool :=
  let w := mw.toNat
  (bits w 15 0 == 0xFFFF || bits w 15 0 == src.toNat) && (bit w 16 || bits w 63 32 == tag.toNat)

/-- The record of `nrecv` and `nprobe` (R382). -/
def recordBytes (w0 w1 w2 : W64) (found : Bool) (st : BitVec 8) : List Byte :=
  wordBytes [w0, w1, w2, BitVec.ofNat 64 (found.toNat * 2 ^ 8 + st.toNat)]

/-- A message's first two record words. -/
def UMsg.words (m : UMsg) : W64 × W64 := (BitVec.ofNat 64 (m.tag.toNat * 2 ^ 32 + m.src.toNat), BitVec.ofNat 64 m.data.length)

/-- `nrecv` is posted, or pairs with the oldest message that it matches; then its entry is complete in queue terms (R381, R383). With a
full list it waits in its queue. -/
def State.postRecv (s : State) (tn : Nat) (t : Truss) (e : QEntry) (mw : W64) (buf cap ra : Nat) : State :=
  match s.vdev? t.vd with
  | none => s
  | some d =>
    let rv : Recv := ⟨⟨tn, e.course⟩, e.tokOp.getD 0, mw, buf, cap, ra, e.id, e.issued, e.inRegion⟩
    let out := fun (s : State) => s.endEntry tn .net { e with tokOp := none } [] false 0
    match d.umsgs.find? fun m => matches_ mw m.src m.tag with
    | some m =>
      let x : Transfer := { mkTransfer .msg m.src (s.ownEp t.vd) s.nextXid with
        addr := m.tag.zeroExtend 64, len := BitVec.ofNat 64 m.data.length, data := m.data, poison := m.poison }
      let s : State := { s with nextXid := s.nextXid + 1, inbound := s.inbound ++ [{ mkInbound x none with rv := some rv, quiet := true }] }
      out (s.modVdev t.vd fun d => { d with umsgs := d.umsgs.erase m })
    | none =>
      if Config.recvCap ≤ d.recvs.length then s else out (s.modVdev t.vd fun d => { d with recvs := d.recvs ++ [rv] })

/-- `nprobe` writes its record and completes; what the record of no match holds is free (R381, R382; log 33). A record that has begun
keeps what it found. -/
def State.probe (s : State) (tn : Nat) (t : Truss) (r : Reacher) (e : QEntry) (mw : W64) (ra : Nat) : State :=
  let m := (s.vdev? t.vd).bind fun d => d.umsgs.find? fun m => matches_ mw m.src m.tag
  let ws := match m with
    | some m => m.words
    | none => (Config.probeWord s.tick 0 &&& 0xFFFFFFFF0000FFFF, Config.probeWord s.tick 1)
  let bs := if e.cached then (e.cache.headD []).map (BitVec.ofNat 8) else recordBytes ws.1 ws.2 0 m.isSome 0
  match s.writeRun r (ra + e.done) e.done [] 32 (bs.drop e.done) with
  | (s, n, _, stop) =>
    let s : State := { s with tick := s.tick + 1 }
    match stop with
    | none => s.endEntry tn .net e [] false 0
    | some h =>
      let e' := { e with begun := true, cached := true, cache := [bs.map BitVec.toNat], done := e.done + n }.halt h
      if e'.full then s.endEntry tn .net e' [] false 0 else s.setEntry tn .net e'

/-- The core at a grant position (R224). -/
def State.grantCore (s : State) (vd p : Nat) : Option Nat :=
  match s.vdev? vd with
  | some d => (((List.range 24).filter fun c => d.grant.getLsbD c)[p / 8]?).map fun c => 8 * c + p % 8
  | none => none

/-- The peers of an `fmrl` are asked, this device's own switch among them (R435). -/
def State.askPeers (s : State) (tn : Nat) (t : Truss) (e : QEntry) (g off dst cnt : Nat) : State :=
  let w := s.group g
  let js := List.range (grpPeers w)
  let xid := s.nextXid
  let s := s.setEntry tn .net { e with begun := true, full := true }
  let o : Outgoing := { xid := xid, kind := .lReq, vd := t.vd, truss := tn, entry := e.id, dstEp := grpPeer w 0, loc := dst, len := cnt,
                        acked := false, thru := none }
  let s : State := { s with
    nextXid := xid + 1, outgoing := s.outgoing ++ [o],
    gathers := s.gathers ++ [⟨xid, tn, e.id, g, dst, cnt, [], 0, false⟩] }
  js.foldl (fun s j => s.sendTransfer
    { mkTransfer .lReq (s.ownEp t.vd) (grpPeer w j) xid with
      grp := BitVec.ofNat 12 g, addr := BitVec.ofNat 64 off, len := BitVec.ofNat 64 (cnt * grpSize w) } true) s

/-- The work of an entry by its body. A service truss belongs to no device, and reaches no endpoint (R376, R468). -/
def State.netStart (s : State) (tn : Nat) (t : Truss) (e : QEntry) : State :=
  let r : Reacher := ⟨t.entryAgent e 3, t.space, !t.kernelMode⟩
  let fin := fun (st : BitVec 8) => s.endEntry tn .net e [] false st
  let own := s.ownEp t.vd
  let mk := fun (kind : XKind) (ep : BitVec 16) (addr : Nat) => { mkTransfer kind own ep 0 with addr := BitVec.ofNat 64 addr }
  if t.kernelMode then fin 2 else
  match e.body with
  | .amsg p h base payload =>
    match s.grantCore t.vd p with
    | none => fin 2
    | some c =>
      ({ s with amsgFly := s.amsgFly ++ [⟨t.vd, c, h, base, t.launch, payload, some (tn, e.id), .untranslated⟩] } : State).setEntry tn .net
        { e with begun := true, full := true }
  | .nsend ep tag buf len =>
    match s.endpoint? t.vd ep with
    | some d => if s.lostPeer d then fin 2 else s.sendBytes tn t r e buf len (mk .msg d tag)
    | none => fin 2
  | .nrecv mw buf cap ra => s.postRecv tn t e mw buf cap ra
  | .nprobe mw ra => s.probe tn t r e mw ra
  | .fput ep loc peer len =>
    match s.endpoint? t.vd ep with
    | some d => if s.lostPeer d then fin 2 else s.sendBytes tn t r e loc len (mk .put d peer)
    | none => fin 2
  | .fget ep loc peer len =>
    match s.endpoint? t.vd ep with
    | some d =>
      if s.lostPeer d then fin 2
      else s.beginTransfer tn t e { mk .getReq d peer with len := BitVec.ofNat 64 len } loc len none
    | none => fin 2
  | .fcopy sep dep src dst len =>
    let ep := fun n => if n = selfEp then some own else s.endpoint? t.vd n
    match ep sep, ep dep with
    | some a, some b =>
      if s.lostPeer a || s.lostPeer b then fin 2
      else if sep = selfEp then s.sendBytes tn t r e src len (mk .put b dst)
      else s.beginTransfer tn t e { mk .getReq a src with len := BitVec.ofNat 64 len } dst len (if dep = selfEp then none else some b)
    | _, _ => fin 2
  | .fmrs g src off cnt =>
    let w := s.group g
    if !grpV w || grpOwner w ≠ t.vd || s.lostPeer (grpPeer w 0) then fin 2
    else
      let cn := tget 0 s.nextCn g
      match s.localBytes r e src (cnt * grpSize w) with
      | (s, .error e') => if e'.full then s.endEntry tn .net e' [] false 0 else s.setEntry tn .net e'
      | (s, .ok (bs, ps)) =>
        let s : State := { s with nextCn := tset 0 s.nextCn g (cn + 1) }
        s.beginTransfer tn t e
          { mk .contrib (grpPeer w 0) off with grp := BitVec.ofNat 12 g, cn := cn, len := BitVec.ofNat 64 bs.length, data := bs, poison := ps }
          0 cnt none
  | .fmrl g off dst cnt =>
    let w := s.group g
    if !grpV w || grpOwner w ≠ t.vd || (List.range (grpPeers w)).any (fun j => s.lostPeer (grpPeer w j)) then fin 3
    else s.askPeers tn t e g off dst cnt
  | _ => s

/-- The head entry of a truss's network queue begins, or goes on after a wait (R322, R376). -/
def networkStep (s : State) (tn : Nat) : State :=
  match s.truss? tn with
  | none => s
  | some t =>
    match t.head? .net with
    | none => s
    | some e =>
      if e.held || e.full || e.wait.waits || !t.onCore || s.entryAwaits tn e then s
      else match e.aborted with
        | some e' => s.endEntry tn .net e' [] false 0
        | none => s.netStart tn t e

def execNetworkEntryStart (truss : Nat) (s : State) : Out := .next (networkStep s truss)

/-! ### Active messages (R48) -/

/-- The message that reached a core first is queued, or refused with BUSY when the device's queue of 64 is full. -/
def amsgArrive (s : State) (core : Nat) : State :=
  match s.amsgFly.find? fun m => m.target == core with
  | none => s
  | some m =>
    let full := Config.amsgCap ≤ ((s.core core).amsgs.filter fun x => x.vd == m.vd).length
    let s : State := { s with amsgFly := s.amsgFly.erase m }
    let s := if full then s else s.modCore core fun c => { c with amsgs := c.amsgs ++ [{ m with sender := none }] }
    match m.sender with
    | some (tn, id) => s.endNet tn id (if full then 1 else 0)
    | none => s

def execAmsgArrival (core : Nat) (s : State) : Out := .next (amsgArrive s core)

end Sys2Proof.Machine
end

