-- ==== Sys2Proof/Machine/Drain.lean ====
section
/-!
DEFINITION. What the drains of evictions, rollbacks and kills share: when an operation can go no further, and operations discarded or
recorded as not performed (02 R52, 09 R184, 12 R281, 13 R297, 16 R384, 19 R442).
-/
namespace Sys2Proof.Machine

/-- A truss's courses may issue: it lies on a core that it is not about to leave, and its device has the slice; the service truss always may
(R52, R401, R402, R468). -/
def State.runs (s : State) (t : Truss) : Bool :=
  t.onCore && !t.evict &&
  (t.kernelMode || match s.vdev? t.vd with
    | some d =>
      let x := vat s.sets d.set ClSet.reset
      x.running == some t.vd && x.next.isNone && d.moveTo.isNone && s.active t.vd
    | none => false)

/-! ### Operations that can go no further -/

/-- A part that waits for a fault, is held, or lies behind a part that does: with every other part of the course in the same case, only
the service of a fault moves it (R52). -/
def State.partStuck (s : State) (t : Truss) (a : Access) (i : Nat) (p : Part) : Bool :=
  match p.phase with
  | .performed | .failed .. | .wait1 _ | .wait2 _ | .paging _ | .held => true
  | .untranslated => false
  | .ready pa gen host =>
    !a.laneFailed i p && (a.scratch || !p.got.isEmpty || s.gen t.space == gen) && s.partBlocked a t i p pa gen host false

def State.accessStuck (s : State) (t : Truss) (a : Access) : Bool :=
  (List.range a.parts.length).all fun i => match a.parts[i]? with | some p => s.partStuck t a i p | none => true

/-- A parked or repeating `pwait` holds up no drain (R281). -/
def State.promStuck (s : State) (p : PromOp) : Bool :=
  p.waiting.isSome || p.phase.waits || p.phase2.waits || p.phase == .held || s.promAwaits p

/-- The engine of a queue is kept by an entry that waits, of whatever truss (R52, R286, R368). -/
def State.engineWaits (s : State) (core : Nat) (q : QSel) : Bool :=
  let waits := fun (n : Nat) => match (s.truss? n).bind (·.head? q) with | some e => e.wait.waits | none => false
  match q with
  | .mat => match (s.core core).matBusy with | some n => waits n | none => false
  | .copy => match s.copyNext core with | some n => waits n | none => false
  | _ => false

/-- An entry of a truss's queue that waits, or stands behind one that does (R52). -/
def State.entryStuck (s : State) (tn : Nat) (t : Truss) (q : QSel) (id : Nat) : Bool :=
  let es := (t.queue q).filter fun e => !e.redo
  let upTo := es.takeWhile (·.id != id)
  let waits := fun (e : QEntry) => e.wait.waits || e.held || s.entryAwaits tn e
  match es.find? (·.id == id) with
  | none => true
  | some e => waits e || (!e.begun && upTo.any waits) || s.engineWaits t.core q

/-- The entries of a truss with their queues. -/
def Truss.entries (t : Truss) : List (QSel × QEntry) :=
  t.copyQ.map (QSel.copy, ·) ++ t.matQ.map (QSel.mat, ·) ++ t.netQ.map (QSel.net, ·)

/-- A posted receive of an operation (R384). -/
def State.posted (s : State) (vd : Nat) (c : CRef) (op : Nat) : Option Recv :=
  (s.vdev? vd).bind fun d => d.recvs.find? fun r => r.who == c && r.op == op

/-- The promise operation of a token operation. -/
def PromOp.of (p : PromOp) (c : CRef) (op : Nat) : Bool :=
  match p.who with | .course d n _ => d == c && n == op | .queue _ => false

/-- Nothing but the service of a fault, a wake or a message moves this operation: a drain waits for it no longer. -/
def State.opStuck (s : State) (c : CRef) (t : Truss) (o : TokOp) : Bool :=
  match o.wait with
  | .nothing | .barrier _ => true
  | .service => match s.course? c with | some k => k.quarantine.any fun h => h.tokOp == some o.id | none => false
  | .parts _ =>
    let as := s.accesses.filter fun a => a.who == c && a.tokOp == some o.id
    let ps := s.proms.filter fun p => p.of c o.id
    let es := t.entries.filter fun e => e.2.course == c.course && e.2.tokOp == some o.id
    o.fallen ||
    ((!as.isEmpty || !ps.isEmpty || !es.isEmpty || (s.posted t.vd c o.id).isSome) &&
      as.all (s.accessStuck t) && ps.all s.promStuck && es.all fun e => e.2.redo || s.entryStuck c.truss t e.1 e.2.id)

/-! ### Operations discarded -/

/-- A discarded operation lowers its count and changes nothing (R184, R442). -/
def Course.dropOp (k : Course) (id : Nat) : Course :=
  match k.ops.find? fun o => o.id == id with
  | some o =>
    { k with ops := k.ops.filter (·.id != id),
             tok := if o.fallen then k.tok else k.tok.set o.tk { k.tok[o.tk] with count := k.tok[o.tk].count - 1 } }
  | none => k

/-- Entries leave their queues without completing; an engine that executed one is free. -/
def State.dropEntries (s : State) (tn : Nat) (sel : QEntry → Bool) : State :=
  match s.truss? tn with
  | none => s
  | some t =>
    let busy := match t.head? .mat with | some e => sel e | none => false
    let s := if busy && (s.core t.core).matBusy == some tn then s.modCore t.core fun c => { c with matBusy := none } else s
    s.modTruss tn fun t =>
      let out := fun (es : List QEntry) => es.filter fun e => !sel e
      ({ t with copyQ := out t.copyQ, matQ := out t.matQ, netQ := out t.netQ } : Truss).passFences 64 |>.refill

/-- Posted receives of a device are removed. -/
def State.dropRecvs (s : State) (vd : Nat) (sel : Recv → Bool) : State :=
  s.modVdev vd fun d => { d with recvs := d.recvs.filter fun r => !sel r }

/-- The L1 of a course's core gives up lines that hold bytes of stores which are discarded. -/
def State.dropEarly (s : State) (c : CRef) (sel : Access → Bool) : State :=
  ((s.accesses.filter fun a => a.who == c && sel a).map (·.parts)).flatten.foldl (fun s p =>
    match p.phase with
    | .ready pa .. => if p.early then s.l1Drop (s.coreOf c) pa else s
    | _ => s) s

/-- What a course's operation has still to do is discarded, with the operation. -/
def State.discardOp (s : State) (c : CRef) (vd id : Nat) : State :=
  let s := s.dropEarly c fun a => a.tokOp == some id
  let s : State := { s with
    accesses := s.accesses.filter fun a => !(a.who == c && a.tokOp == some id),
    proms := s.proms.filter fun p => !p.of c id }
  ((s.dropEntries c.truss fun e => e.course == c.course && e.tokOp == some id).dropRecvs vd fun r => r.who == c && r.op == id).modCourse c
    fun k => k.dropOp id

/-! ### The quarantine buffer (R442) -/

/-- A held operation is discarded. -/
def State.dropHeld (s : State) (c : CRef) (h : Held) : State :=
  let s := match h.op with
    | .access id => { s with accesses := s.accesses.filter fun a => a.id != id }
    | .promise id => { s with proms := s.proms.filter fun p => p.id != id }
    | .entry id => s.dropEntries c.truss fun e => e.id == id
    | _ => s
  s.modCourse c fun k =>
    let k := match h.tokOp with | some id => k.dropOp id | none => k
    { k with quarantine := k.quarantine.filter (· != h) }

/-- An access is let go: its parts go on to translation, or to their owning cores. -/
def Access.release (a : Access) : Access :=
  { a with parts := a.parts.map fun p =>
      if p.phase = .held then { p with phase := if a.scratch then .ready 0 0 false else .untranslated } else p }

/-- The oldest held operation is released. One on barriers or rings is applied to the state as it now stands; a check that no longer
holds leaves everything as it was, and its fault is delivered by R255 (R442). -/
def State.releaseHeld (s : State) (c : CRef) (h : Held) : State :=
  let s := s.modCourse c fun k => { k with quarantine := k.quarantine.filter (· != h) }
  let late := fun (s : State) (f : Nat × Nat × W64) => s.modCourse c fun k =>
    k.endOp h.tokOp (some ⟨f.1, f.2.1, f.2.2, h.seq⟩) [] false 0
  match s.truss? c.truss with
  | none => s
  | some t =>
    match h.op with
    | .access id => { s with accesses := s.accesses.map fun a => if a.id = id then a.release else a }
    | .promise id =>
      let go := fun (p : Phase) => if p = .held then Phase.untranslated else p
      { s with proms := s.proms.map fun p => if p.id = id then { p with phase := go p.phase, phase2 := go p.phase2 } else p }
    | .service die rec_ => s.writeRecord die rec_ (c, h.tokOp.getD 0)
    | .entry id =>
      match t.applyHeld c.course h.op with
      | .ok t' =>
        let free := fun (es : List QEntry) => es.map fun e => if e.id = id then { e with held := false } else e
        s.setTruss c.truss
          (({ t' with copyQ := free t'.copyQ, matQ := free t'.matQ, netQ := free t'.netQ } : Truss).passFences 64)
      | .error f => late (s.dropEntries c.truss fun e => e.id == id) f
    | op =>
      match t.applyHeld c.course op with
      | .ok t' => s.setTruss c.truss t'
      | .error f => late s f

/-- A course takes part in nothing any more. -/
def Course.gone (k : Course) : Bool := k.cstate == .killed || k.cstate == .retired

/-- A held release at truss scope: `bararv`, `rgcmt`, `rgrel` (R192, R362). -/
def Truss.heldRelease (t : Truss) (h : Held) : Bool :=
  match h.op with
  | .arrive .. | .ringEffect .. => true
  | .entry id => (t.copyQ ++ t.matQ ++ t.netQ).any fun e => e.id == id && match e.body with | .ring .. => true | _ => false
  | _ => false

/-- A held release waits for the course's earlier accesses (R192, R276, R362). -/
def State.releaseWaits (s : State) (c : CRef) (h : Held) : Bool :=
  (match s.truss? c.truss with | some t => t.heldRelease h | none => false) &&
  (s.accesses.any (fun a => a.who == c && a.kind.ordered && a.id < h.seq && a.unseen) ||
   s.proms.any fun p => (p.waiting.isNone || strong p.acqScope) && p.id < h.seq && match p.who with | .course d .. => d == c | .queue _ => false)

/-- The oldest held operation is released 1,024 cycles after it issued, in issue order, unless a rollback request is pending; a `sysc`
record waits for room in its ring (R442). -/
def quarantineStep (s : State) (c : CRef) : State :=
  match s.course? c with
  | none => s
  | some k =>
    match k.quarantine with
    | [] => s
    | h :: _ =>
      let full := match h.op with | .service die _ => s.serviceFull die | _ => false
      if k.gone || k.rollbackPend || full || s.releaseWaits c h then s else (s.advanceTo (h.at_ + Config.strikeWindow)).releaseHeld c h

def execQuarantineRelease (c : CRef) (s : State) : Out := .next (quarantineStep s c)

end Sys2Proof.Machine
end

