-- ==== Sys2Proof/Machine/Image.lean ====
section
/-!
DEFINITION. Images of courses and trusses as bytes, and the context records that hold them (02 R35, R52; 17 R405, R411). The parts of an
image and their order are the model's choice where no rule gives them (log 36).
-/
namespace Sys2Proof.Machine

/-- Bytes written straight into device memory by the supervisor cluster. -/
def State.supWrite (s : State) (a : Nat) (bs : List Byte) : State :=
  { s with mem := spliceBytes s.mem a bs, memPsn := psnWrite s.memPsn a bs.length false }

/-- Bytes of an image, and the 8-byte words of it that are poisoned: a copy carries poison (R250). -/
structure Image where
  bytes : List Byte
  psn   : List Nat
  deriving DecidableEq, Repr

/-- Zeros fill a part up to its size. -/
def padTo (n : Nat) (bs : List Byte) : List Byte := (bs ++ List.replicate n 0).take n

def State.putImage (s : State) (a : Nat) (i : Image) : State :=
  let s := s.supWrite a i.bytes
  { s with memPsn := i.psn.foldl (fun p w => tset false p (a / 8 + w) true) s.memPsn }

/-! ### Partition words and (R231) -/

def partReg (w : W64) : Nat := bits w.toNat 5 0
def partScr (w : W64) : Nat := bits w.toNat 13 8
def partAcc (w : W64) : Nat := bits w.toNat 21 16
def partScrt (w : W64) : Nat := bits w.toNat 33 24
def partAcct (w : W64) : Nat := bits w.toNat 44 40
/-- Bytes of a pool unit (R10). -/
def unitBytes : Nat := 65536

/-! ### The course image (R35, R52) -/

/-- The register footprint of a course (R35). -/
def footprint (regs : Nat) : Nat := (128 * regs + 1024 + 4095) / 4096 * 4096

/-- Bytes of a v register, lane 0 first. -/
def vecBytes (x : LaneVec) : List Byte := (x.toList.map fun w => natBytes 4 w.toNat).flatten

/-- The remaining count of a hold. -/
def Hold.count : Hold → Nat | .none => 0 | .dly t => t | .yield t => t | .guard t => t

/-- The special registers of course `j` of a truss, the asynchronous traps held, and the pending record of a `bsync` (R52, R110, R114,
R164). -/
def Course.specials (k : Course) (t : Truss) (j : Nat) : List W64 :=
  [k.pc.zeroExtend 64, BitVec.ofNat 64 (k.lanes.toNat + k.exited.toNat * 2 ^ 32),
   BitVec.ofNat 64 (k.frames.length + k.div.length * 2 ^ 8 + k.tm.toNat * 2 ^ 16 + k.strict.toNat * 2 ^ 17 + k.rmode.toNat * 2 ^ 18 +
     k.fstat.toNat * 2 ^ 24 + k.tkmask.toNat * 2 ^ 32 + k.role.toNat * 2 ^ 48 + k.debugPend.toNat * 2 ^ 50 + k.rollbackPend.toNat * 2 ^ 51 +
     k.abn.toNat * 2 ^ 52),
   k.region.zeroExtend 64, k.rgstate, BitVec.ofNat 64 (k.rowprog.toNat + k.hold.count * 2 ^ 32), k.ctxArea.zeroExtend 64,
   BitVec.ofNat 64 (k.ovfPend.foldr (fun x n => x.toNat + 2 ^ 8 * n) 0),
   BitVec.ofNat 64 (j + t.spanPos * 2 ^ 8 + t.vd.val * 2 ^ 16 + t.index * 2 ^ 32),
   BitVec.ofNat 64 (t.core * 64 + k.slot),
   match k.bsync with | some b => BitVec.ofNat 64 (b.pc.toNat + b.tsp * 2 ^ 57 + 2 ^ 63) | none => 0,
   match k.bsync with | some b => BitVec.ofNat 64 (b.mask.toNat + b.arrived.toNat * 2 ^ 32) | none => 0]

/-- The image of course `j` of a truss, whose lanes have `regs` v registers: these, then 1,024 bytes with its g and p registers, special registers,
tokens, trap stack and divergence stack, as far as they go in (R35, R52; log 36). -/
def Course.image (k : Course) (t : Truss) (j : Nat) : Image :=
  let regs := t.items.regs
  let vs := ((List.range regs).map fun r => vecBytes (vat k.v r (Vector.replicate 32 0))).flatten
  let state :=
    wordBytes k.g.toList ++ (k.p.toList.map fun m => natBytes 4 m.toNat).flatten ++ natBytes 4 0 ++ wordBytes (k.specials t j) ++
    (k.tok.toList.map fun t => [t.count.zeroExtend 8, t.status]).flatten ++ (k.frames.map fun f => wordBytes f.words.toList).flatten ++
    (k.div.map fun e => natBytes 18 (e.pc.toNat / 8 + e.join.toNat / 8 * 2 ^ 54 + e.mask.toNat * 2 ^ 108 + e.phase.toNat * 2 ^ 140)).flatten
  { bytes := padTo (footprint regs) (padTo (128 * regs) vs ++ padTo 1024 state),
    psn := k.psn.filterMap fun x => if x.1 < regs then some (16 * x.1 + x.2) else if x.1 < 320 then some (16 * regs + (x.1 - 256)) else none }

/-! ### The truss's own image (R405) -/

/-- The numbers that say what a queue entry is and how far it came (R405). -/
def QEntry.numbers (e : QEntry) : List Nat := [e.id, e.course, e.issued, e.begun.toNat, e.done, e.full.toNat, e.redo.toNat]

def Bar.words (b : Bar) : List W64 :=
  [BitVec.ofNat 64 (b.arrived.toNat + b.mask.toNat * 2 ^ 16 + b.phase.toNat * 2 ^ 32 + b.valid.toNat * 2 ^ 63),
   BitVec.ofNat 64 (b.pend.toNat + b.fixed.toNat * 2 ^ 63)]

def SlotState.code : SlotState → Nat
  | .free => 0 | .acquired => 1 | .committing => 2 | .filled => 3 | .abandoned => 4 | .taken => 5 | .releasing => 6

def Ring.bytes (r : Ring) : List Byte :=
  wordBytes [BitVec.ofNat 64 (r.slots.length + r.ssz * 2 ^ 8 + r.prod.toNat * 2 ^ 20 + r.cons.toNat * 2 ^ 22 + r.valid.toNat * 2 ^ 63),
    BitVec.ofNat 64 r.base, BitVec.ofNat 64 (r.acq.toNat + r.take.toNat * 2 ^ 32)] ++
  padTo 64 (r.slots.map fun x => BitVec.ofNat 8 (x.st.code + x.phase.toNat * 8 + x.owner % 16 * 16))

/-- Bytes of a truss header (R405). -/
def headerBytes : Nat := 12288

/-- The header: layout table, copy templates, barrier objects, GONE mask, stage rings and queue entries (R405; log 36). -/
def Truss.header (t : Truss) : Image :=
  let es := t.matQ ++ t.copyQ ++ t.netQ
  let tables :=
    ((List.range 256).map fun n => wordBytes (tget (Vector.replicate 4 0) t.layouts n).toList).flatten ++
    ((List.range 64).map fun n => wordBytes (tget (Vector.replicate 2 0) t.tpls n).toList).flatten ++
    wordBytes (t.bars.toList.map Bar.words).flatten ++ natBytes 8 t.goneMask.toNat ++ (t.rings.toList.map Ring.bytes).flatten
  let entries := if es.isEmpty then [] else (List.range 2100).map fun i => Config.entryByte (es.map QEntry.numbers).flatten i
  ⟨padTo headerBytes (tables ++ entries), []⟩

/-- The truss's scratchpad portion. -/
def Truss.scratchImage (t : Truss) : Image :=
  ⟨readBytes t.scr 0 (partScrt t.items.part * 4096), (t.scrPsn.filter (·.2)).map (·.1)⟩

/-- A tile: element (i, j) at byte 4 (64 i + j). -/
def Tile.image (x : Tile) : Image := ⟨((List.range 4096).map fun e => natBytes 4 (tget 0 x.elems e).toNat).flatten, x.psnWords⟩

/-- What follows the first killed course of a truss in a dump (R411). -/
def Truss.images (t : Truss) : List Image := t.header :: t.scratchImage :: t.tiles.map Tile.image

/-! ### Context records (R405) -/

/-- The parts of a record after its header slots. -/
def recImages : Nat := 768 * 1024
def recStatus : Nat := 2816 * 1024
def recMessages : Nat := 2824 * 1024

/-- The address of a device's record of a core. -/
def VDev.record (d : VDev) (core : Nat) : Nat :=
  d.ctxBase + (((List.range 192).filter fun c => d.grant.getLsbD (c / 8)).takeWhile (· < core)).length * Config.ctxRecordBytes

/-- The parts of a device's record of a core. -/
def State.partsOf (s : State) (vd : Fin 512) (core : Nat) : List CtxPart := s.ctxParts.filter fun p => p.vd == vd && p.core == core

/-- The lowest place, from `at_` on, where `n` bytes meet no part in use: parts are packed from the start (R405). -/
def firstGap (ps : List CtxPart) (n : Nat) : (fuel at_ : Nat) → Nat
  | 0, at_ => at_
  | k + 1, at_ =>
    match ps.find? fun p => at_ < p.off + p.size && p.off < at_ + n with
    | some p => firstGap ps n k (p.off + p.size)
    | none => at_

/-- An image is written into the record of a core, and its part is in use; the answer is its place. -/
def State.keepImage (s : State) (tn : Nat) (t : Truss) (j : Option Nat) (i : Image) : State × Nat :=
  match s.vdev? t.vd with
  | none => (s, 0)
  | some d =>
    let ps := s.partsOf t.vd t.core
    let off := firstGap ps i.bytes.length (ps.length + 1) 0
    (({ s with ctxParts := s.ctxParts ++ [⟨t.vd, t.core, tn, j, off, i.bytes.length⟩] } : State).putImage (d.record t.core + recImages + off) i, off)

/-- The image of a course that leaves its slot (R52, R405). -/
def State.keepCourse (s : State) (c : CRef) : State :=
  match s.truss? c.truss, s.course? c with
  | some t, some k => (s.keepImage c.truss t (some c.course) (k.image t c.course)).1
  | _, _ => s

/-- A tile and its status word, 64 bytes for each 16 KiB of the part (log 36). -/
def State.keepTile (s : State) (tn : Nat) (t : Truss) (x : Tile) : State :=
  match s.vdev? t.vd with
  | none => s
  | some d =>
    let (s, off) := s.keepImage tn t none x.image
    s.supWrite (d.record t.core + recStatus + off / 16384 * 64) (padTo 64 [x.status])

/-- A record takes its core's messages of the device, 128 bytes for each, as far as they go in (R405; log 36). -/
def State.keepMessages (s : State) (vd : Nat) (d : VDev) (core : Nat) : State :=
  let msgs := (s.core core).amsgs.filter fun m => m.vd.val == vd
  s.supWrite (d.record core + recMessages)
    (padTo 8192 (msgs.map fun m => padTo 128 (wordBytes [BitVec.ofNat 64 m.handler, BitVec.ofNat 64 m.tblBase] ++ m.payload)).flatten)

/-- What a truss holds beside its courses joins their images in the record: header, scratchpad portion, tiles, status words, and the
core's messages of the device (R405; log 36). -/
def State.keepTruss (s : State) (tn : Nat) (t : Truss) : State :=
  match s.vdev? t.vd with
  | none => s
  | some d =>
    let s := s.putImage (d.record t.core + headerBytes * t.ctxSlot) t.header
    let s := if partScrt t.items.part = 0 then s else (s.keepImage tn t none t.scratchImage).1
    let s := t.tiles.foldl (fun s x => s.keepTile tn t x) s
    s.keepMessages t.vd.val d t.core

/-- Parts that `p` picks are free again: a restore reads them, or what they hold is gone (R405, R413). -/
def State.freeParts (s : State) (p : CtxPart → Bool) : State := { s with ctxParts := s.ctxParts.filter fun x => !p x }

end Sys2Proof.Machine
end

