-- ==== Sys2Proof/Machine/Launch.lean ====
section
/-!
DEFINITION. Launches: the room on cores, placement, admission, handler trusses, retirement and completion (02 R30 to R37, R46 to R49,
R56, R58, R470; 11 R231 to R233; 17 R405).
-/
namespace Sys2Proof.Machine

/-- Trusses of a launch. -/
def LaunchItems.total (i : LaunchItems) : Nat := i.gx * i.gy * i.gz

/-! ### Room on a core (R35) -/

/-- The course holds its slot. -/
def Course.holds (k : Course) : Bool := k.slot < 64

/-- The trusses that lie on a core. -/
def State.onCore (s : State) (core : Nat) : List Truss := s.trusses.filter fun t => t.place == .onCore core

/-- The core hosts a service truss: slots 60 to 63 and two REG units are never free (R12). -/
def State.hostsService (s : State) (core : Nat) : Bool := vat s.svcCore (dieOf core) 192 == core

/-- The free slots of a quadrant, in order. -/
def State.freeIn (s : State) (core quad : Nat) : List Nat :=
  let used := ((s.onCore core).map fun t => t.courses.map (·.slot)).flatten
  (List.range' (16 * quad) 16).filter fun n => !used.contains n && !(s.hostsService core && 60 ≤ n)

/-- Free slots; a core that is out of service has none for admission (R34, R446). -/
def State.freeSlots (s : State) (core : Nat) : Nat :=
  if (s.core core).retired then 0 else ((List.range 4).map fun q => (s.freeIn core q).length).sum

/-- The image of a course lies in its record: it is parked, or was when it was killed (R51, R405). -/
def State.imaged (s : State) (c : CRef) : Bool := s.ctxParts.any fun p => p.truss == c.truss && p.course == some c.course

/-- Bytes of REG space that a truss takes: a course parked, or killed while it was, holds its slot and no footprint (R51, R53). -/
def State.regOf (s : State) (tn : Nat) : Nat :=
  match s.truss? tn with
  | some t =>
    ((t.courses.zipIdx.filter fun x =>
      x.1.holds && x.1.cstate != .parked && !(x.1.cstate == .killed && s.imaged ⟨tn, x.2⟩)).length) * footprint t.items.regs
  | none => 0

/-- Bytes of the REG space of a core that the trusses `p` picks take. -/
def State.regUsedBy (s : State) (core : Nat) (p : Truss → Bool) : Nat :=
  (((List.range s.trusses.length).filter fun n => match s.truss? n with
    | some t => t.place == .onCore core && !t.kernelMode && p t
    | none => false).map s.regOf).sum
def State.regUsed (s : State) (core : Nat) : Nat := s.regUsedBy core fun _ => true
def State.scrUsed (s : State) (core : Nat) : Nat := ((s.onCore core).map fun t => partScrt t.items.part * 4096).sum
def State.accUsed (s : State) (core : Nat) : Nat := ((s.onCore core).map fun t => partAcct t.items.part).sum

/-- The REG space of a core, under the partition word in force or the one given. -/
def State.regSpace (s : State) (core : Nat) (part : W64) : Nat := partReg ((s.core core).part.getD part) * unitBytes

/-- A truss of `n` live courses with these items fits on a core; a handler truss needs conditions 2 and 3 only (R35, R49). -/
def State.fits (s : State) (core : Nat) (i : LaunchItems) (n : Nat) (handler : Bool) : Bool :=
  let c := s.core core
  core < 192 && !c.retired &&
  (handler || c.part.isNone || c.part == some i.part) &&
  (handler || !s.hostsService core || partReg i.part + partScr i.part + partAcc i.part ≤ 30) &&
  n ≤ s.freeSlots core &&
  s.regUsed core + n * footprint i.regs ≤ s.regSpace core i.part &&
  (handler || (s.scrUsed core + partScrt i.part * 4096 ≤ partScr i.part * unitBytes &&
    s.accUsed core + partAcct i.part ≤ partAcc i.part))

/-! ### Placement (R34, R37) -/

/-- The first element at which `f` is greatest. -/
def bestBy (f : Nat → Nat) (xs : List Nat) : Option Nat :=
  xs.foldl (fun b x => match b with | some y => if f y < f x then some x else some y | none => some x) none

/-- Clusters a device holds (R224). -/
def VDev.clusters (d : VDev) : List Nat := (List.range 24).filter d.grant.getLsbD
/-- Cores of a device's grant, in ascending order. -/
def VDev.cores (d : VDev) : List Nat := (d.clusters.map fun c => List.range' (8 * c) 8).flatten

/-- The ways to give the members of a span cores of a list in ascending order, each one it fits on. -/
def spanWays : List (Nat → Bool) → List Nat → List (List Nat)
  | [], _ => [[]]
  | _ :: _, [] => []
  | ok :: oks, c :: cs => (if ok c then (spanWays oks cs).map (c :: ·) else []) ++ spanWays (ok :: oks) cs

/-- The cores for the members of a span, or one truss, with what each fits on: in the cluster with the most free slots where they fit,
the cores with the most free slots, ties to the lower cores (R34). -/
def State.pickCores (s : State) (d : VDev) (oks : List (Nat → Bool)) : Option (List Nat) :=
  let ways := fun (cl : Nat) => spanWays oks (List.range' (8 * cl) 8)
  let free := fun (cs : List Nat) => (cs.map s.freeSlots).sum
  (bestBy (fun cl => free (List.range' (8 * cl) 8)) (d.clusters.filter fun cl => !(ways cl).isEmpty)).bind fun cl =>
    (ways cl).foldl (fun b w => match b with | some y => if free y < free w then some w else some y | none => some w) none

/-- Slots for `n` courses: each takes the lowest free slot of the quadrant with the most (R37). -/
def assignSlots (free : List (List Nat)) : (n : Nat) → List Nat
  | 0 => []
  | n + 1 =>
    match bestBy (fun q => ((free[q]?).getD []).length) (List.range 4) with
    | some q =>
      match (free[q]?).getD [] with
      | x :: xs => x :: assignSlots (free.set q xs) n
      | [] => 64 :: assignSlots free n
    | none => []

def State.slotsFor (s : State) (core n : Nat) : List Nat := assignSlots ((List.range 4).map (s.freeIn core)) n

/-! ### A truss starts (R32, R233, R405) -/

/-- The lowest free header slot of the device's record of a core. -/
def State.headerSlot (s : State) (vd core : Nat) : Nat :=
  let used := (s.trusses.filter fun t => t.ofVd vd && (t.place == .onCore core || t.place == .stored core)).map (·.ctxSlot)
  ((List.range 64).find? fun n => !used.contains n).getD 0

/-- The address of a header slot (R405). -/
def State.headerAddr (s : State) (vd core slot : Nat) : Addr :=
  match s.vdev? vd with
  | some d => BitVec.ofNat 57 (d.record core + headerBytes * slot)
  | none => 0

/-- The eight g registers a course starts with (R32). -/
def LaunchItems.start (i : LaunchItems) (index j spanPos : Nat) : List W64 :=
  [BitVec.ofNat 64 index, BitVec.ofNat 64 j, BitVec.ofNat 64 spanPos, i.arg,
   BitVec.ofNat 64 (i.gx + i.gy * 2 ^ 32 + i.gz * 2 ^ 48), i.g5, i.g6, i.g7]

/-- A course as it starts (R32). -/
def Course.start (i : LaunchItems) (role : BitVec 2) (g : List W64) (slot : Nat) (area : Addr) (clk : Nat) : Course :=
  { v := Vector.replicate 256 (Vector.replicate 32 0), g := Vector.ofFn fun n => (g[n.val]?).getD 0, p := Vector.replicate 7 0,
    tok := Vector.replicate 16 ⟨0, 0⟩, pc := i.kernel.truncate 57, lanes := 0xFFFFFFFF, exited := 0, tm := false,
    tkmask := i.tkmask, strict := i.strict, region := 0, regionAt := 0, rgstate := 0, rowprog := 0, fstat := 0, rmode := 0,
    frames := [], div := [], bsync := none, ctxArea := area, role := role, slot := slot, pos := 0, shadows := [],
    flagShadows := [], ops := [], nextOp := 0, hold := .none, barBlocked := none, barWoke := none, stalled := false, late := [],
    debugPend := false, rollbackPend := false, ovfPend := [], abn := false, cstate := .resident, lastIssue := 0, created := clk,
    restored := none, quarantine := [], recent := [], matWrote := none, rowStart := false, fetch := .untranslated, ahead := [],
    chain := [], psn := [], inval := [] }

/-- The role of course `j` (R30). -/
def LaunchItems.role (i : LaunchItems) (j : Nat) : BitVec 2 := BitVec.ofNat 2 (i.roles.toNat / 2 ^ (2 * j))

/-! #### ACC units (R109, R232, R233) -/

/-- The first ACC unit under a partition word: REG units, then SCR units, then ACC units (R232). -/
def accBase (part : W64) : Nat := partReg part + partScr part

/-- The ACC units of a core that no truss holds, under the partition word in force or the one given. -/
def State.accFree (s : State) (core : Nat) (part : W64) : List Nat :=
  let used := ((s.onCore core).map (·.units)).flatten
  let w := (s.core core).part.getD part
  (List.range' (accBase w) (partAcc w)).filter fun u => !used.contains u

/-- `n` units of those free: which ones is not fixed (R232; log 6). -/
def takeUnits (tick : Nat) : (n i : Nat) → List Nat → List Nat
  | 0, _, _ => []
  | n + 1, i, free =>
    let u := (free[Config.accUnit tick i % free.length]?).getD 0
    u :: takeUnits tick n (i + 1) (free.filter (· != u))

/-- Tile `i` of unit `u`: as it was left, or, where the unit has been REG or SCR space since, with elements that no rule gives (R109;
log 6). -/
def AccUnit.tileOf (a : AccUnit) (u i : Nat) : Tile :=
  let x := (a.tiles[i]?).getD Tile.zero
  match a.used with
  | none => x
  | some tick =>
    { x with psnWords := [], wrote := none,
             elems := (List.range 4096).filterMap fun e =>
               let w := Config.unitWord tick (4 * u + i) e
               if w = 0 then none else some (e, w) }

/-- The tiles of a unit as they pass to a truss of device `vd`: what a truss of the same device left there, else zeros (R233). -/
def Core.unitTiles (c : Core) (vd : Fin 512) (u : Nat) : List Tile :=
  match tget? c.acc u with
  | some a => if a.vd = some vd then (List.range 4).map (a.tileOf u) else List.replicate 4 Tile.zero
  | none => List.replicate 4 Tile.zero

/-- A truss that takes units: they are no longer the core's. -/
def Core.takeAcc (c : Core) (us : List Nat) : Core := { c with acc := us.foldl tdel c.acc }

/-- A truss gives its units up, and leaves in them what they hold. -/
def Core.leaveAcc (c : Core) (t : Truss) : Core :=
  { c with acc := t.units.zipIdx.foldl (fun m x => tput m x.1 ⟨some t.vd, (List.range 4).map fun i => t.tile (4 * x.2 + i), none⟩) c.acc }

/-- A truss of device `vd` comes to the core, which takes the partition word if it has none (R35). The REG and SCR units are that device's
from then on, or no one's where trusses of another device hold them too (R233; log 6). -/
def Core.usePool (c : Core) (tick : Nat) (vd : Fin 512) (part : W64) : Core :=
  let w := c.part.getD part
  { c with part := some w, acc := (List.range (accBase w)).foldl (fun m u =>
      let old := tget? m u
      if c.part.isNone then tput m u ⟨some vd, (old.map (·.tiles)).getD [], some tick⟩
      else if old.bind (·.vd) = some vd then m
      else tput m u ⟨none, (old.map (·.tiles)).getD [], some tick⟩) c.acc }

/-- What a new truss is made from. -/
structure NewTruss where
  vd      : Fin 512
  launch  : Nat
  items   : LaunchItems
  handler : Bool
  index   : Nat
  spanPos : Nat
  spanId  : Nat
  /-- g0 and on, of each course. -/
  regs    : Nat → List W64

/-- A truss as it starts on a core. -/
def State.freshTruss (s : State) (core : Nat) (n : NewTruss) : Truss :=
  let h := s.headerSlot n.vd core
  let slots := s.slotsFor core n.items.courses
  let units := takeUnits s.tick (partAcct n.items.part) 0 (s.accFree core n.items.part)
  { vd := n.vd, launch := n.launch, items := n.items, kernelMode := false, handlerTruss := n.handler, index := n.index,
    spanPos := n.spanPos, spanId := n.spanId, place := .onCore core,
    courses := (List.range n.items.courses).map fun j =>
      Course.start n.items (n.items.role j) (n.regs j) ((slots[j]?).getD 64) (s.headerAddr n.vd core h) s.clk,
    bars := Vector.replicate 16 Bar.launch, goneMask := 0, layouts := [], tpls := [], tabPend := [],
    rings := Vector.replicate 8 Ring.launch, scr := [], scrPsn := [],
    tiles := (units.map ((s.core core).unitTiles n.vd)).flatten, units := units, matQ := [], copyQ := [], netQ := [], ctxSlot := h,
    dumped := false, evict := false, tested := false }

/-- A truss starts on a core: its scratchpad is zero, it takes its ACC units, and the core takes the partition word if it has none (R35,
R233). -/
def State.startTruss (s : State) (core : Nat) (part : W64) (n : NewTruss) : State :=
  let t := s.freshTruss core n
  let s := s.modCore core fun c => (c.usePool s.tick n.vd part).takeAcc t.units
  { s with trusses := s.trusses ++ [t], tick := s.tick + 1 }

/-! #### The service trusses (R12, R468) -/

/-- The number of no launch: a service truss belongs to none. -/
def noLaunch : Nat := 2 ^ 64

/-- The items that stand for what the firmware image gives a service truss (log 48). -/
def serviceItems (die : Nat) : LaunchItems :=
  { kernel := BitVec.ofNat 64 (Config.svcEntry die), handler := 0, tblBase := 0, tblCnt := 0, part := 0, gx := 1, gy := 1, gz := 1,
    courses := 4, span := 1, regs := Config.svcRegs, progress := 1, strict := false, guarded := false, tkmask := 0xFFFF, roles := 0,
    arg := 0, g5 := 0, g6 := 0, g7 := 0, statusAddr := 0 }

/-- A die's service truss as it starts from the firmware image: four courses in slots 60 to 63 (R12, R468). No launch
starts it: its VDID, TRUSS, SPANPOS and CTXAREA read 0, and its TKMASK is 0xFFFF (DESIGN CHOICE, log 86: R468 gives no values). -/
def serviceTruss (die core id clk : Nat) : Truss :=
  let i := serviceItems die
  { vd := 0, launch := noLaunch, items := i, kernelMode := true, handlerTruss := false, index := 0, spanPos := 0, spanId := id,
    place := .onCore core,
    courses := (List.range 4).map fun j => Course.start i 0 (i.start 0 j 0) (60 + j) 0 clk,
    bars := Vector.replicate 16 Bar.launch, goneMask := 0, layouts := [], tpls := [], tabPend := [],
    rings := Vector.replicate 8 Ring.launch, scr := [], scrPsn := [], tiles := [], units := [], matQ := [], copyQ := [], netQ := [],
    ctxSlot := 0, dumped := false, evict := false, tested := false }

/-! ### Admission (R34, R36, R330, R470) -/

/-- The next trusses of a launch, one span, start on the cores given in span order. -/
def State.startSpan (s : State) (ln : Nat) (l : Launch) (index : Nat) (cores : List Nat) : State :=
  let id := s.nextId
  (cores.zipIdx.foldl (fun s (x : Nat × Nat) =>
    let i := index + x.2
    let s := (s.dropIcache x.1 fun _ => true).startTruss x.1 l.items.part
      { vd := l.vd, launch := ln, items := l.items, handler := false, index := i, spanPos := x.2, spanId := id,
        regs := fun j => l.items.start i j x.2 }
    s.capture l.vd 2 0 [BitVec.ofNat 64 (l.blk + l.seq.toNat * 2 ^ 32), BitVec.ofNat 64 i, BitVec.ofNat 64 x.1])
    { s with nextId := id + 1 })

/-- The device that a cluster set serves now: the one that runs, or the one a switch goes into once the old one's work is away
(R402). -/
def State.evicting (s : State) (set : Nat) : Bool :=
  let cl := (vat s.sets set ClSet.reset).mask
  s.trusses.any (fun t => t.evict && t.onCore && cl.getLsbD (t.core / 8)) ||
  (List.range 192).any fun c => (s.core c).parking.isSome && cl.getLsbD (c / 8)
def State.served (s : State) (vd : Nat) : Bool :=
  match s.vdev? vd with
  | some d =>
    let x := vat s.sets d.set ClSet.reset
    s.active vd && d.moveTo.isNone && ((x.running.map (·.val) == some vd && x.next.isNone) || (x.next.map (·.val) == some vd && !s.evicting d.set))
  | none => false

/-- A core takes no new truss of a device while its record holds a stored one, or while a message waits to be taken there (R49,
R405). -/
def State.openFor (s : State) (vd core : Nat) : Bool :=
  !(s.trusses.any fun t => t.ofVd vd && t.place == .stored core) &&
  !((s.core core).amsgs.any fun m => s.served m.vd)

/-- One span of a launch starts where it fits; none when it fits nowhere. -/
def State.admitSpan (s : State) (ln : Nat) : Option State :=
  match s.launches[ln]? with
  | none => none
  | some l =>
    match s.vdev? l.vd with
    | none => none
    | some d =>
      match s.pickCores d (List.replicate l.items.span fun c => s.openFor l.vd c && s.fits c l.items l.items.courses false) with
      | some cores =>
        let s := s.startSpan ln l l.admitted cores
        some { s with launches := s.launches.modify ln fun l => { l with admitted := l.admitted + l.items.span } }
      | none => none

/-- Spans start until one does not fit or all have started. -/
def State.admitMany (s : State) (ln : Nat) : (fuel : Nat) → State
  | 0 => s
  | n + 1 =>
    match s.launches[ln]? with
    | some l =>
      if l.items.total ≤ l.admitted then s
      else match s.admitSpan ln with | some s' => s'.admitMany ln n | none => s
    | none => s

/-- The slots of the device bound the trusses that can lie on it. -/
def maxTrusses : Nat := Config.nCores * Config.nSlots

def Launch.allAdmitted (l : Launch) : Bool := l.complete || l.items.total ≤ l.admitted

/-- The device with its granted clusters empty (R36). -/
def State.emptied (s : State) (d : VDev) : State :=
  { s with trusses := s.trusses.map fun t => if d.cores.contains t.core && !t.kernelMode then { t with place := .gone } else t,
           cores := Vector.ofFn fun (i : Fin 192) =>
             if d.cores.contains i.val then { s.cores[i] with part := none, amsgs := [] } else s.cores[i] }

/-- Earlier launches of the same queue have all their trusses (R344). -/
def State.queueClear (s : State) (ln : Nat) (l : Launch) : Bool :=
  (s.launches.take ln).all fun e => e.blk != l.blk || e.vd != l.vd || e.allAdmitted

/-- A started truss of the launch is out (R36). -/
def State.startedOut (s : State) (ln : Nat) : Bool :=
  s.trusses.any fun t => t.launch == ln && !t.handlerTruss && match t.place with | .stored _ => true | _ => false

/-- The device's granted clusters would hold the launch if they were empty. -/
def State.roomIfEmpty (s : State) (ln : Nat) (d : VDev) : Bool :=
  match ((s.emptied d).admitMany ln maxTrusses).launches[ln]? with | some l => l.allAdmitted | none => true

/-- The launch completes with LAUNCHFIT and nothing of it runs (R36). -/
def State.launchRejected (s : State) (ln : Nat) (l : Launch) : State :=
  { s with launches := s.launches.modify ln fun k => { k with status := 1, admitted := l.items.total } }

/-- A CONCURRENT launch starts whole, waits, or cannot fit at all: LAUNCHFIT (R36). The answer says whether it keeps younger launches
out (R470). -/
def State.admitConcurrent (s : State) (ln : Nat) (d : VDev) (l : Launch) : State × Bool :=
  let s' := s.admitMany ln maxTrusses
  if match s'.launches[ln]? with | some l => l.allAdmitted | none => true then (s', false)
  else if s.roomIfEmpty ln d then (s, true)
  else (s.launchRejected ln l, false)

/-- A CONCURRENT launch that not even the empty device could hold is rejected in a replay too. -/
def State.rejectHopeless (s : State) (vd : Nat) (d : VDev) : State :=
  (List.range s.launches.length).foldl (fun s ln => match s.launches[ln]? with
    | some l => if l.vd.val = vd && l.items.progress = 0 && !l.allAdmitted && !s.roomIfEmpty ln d then s.launchRejected ln l else s
    | none => s) s

/-- What a record of kind 2 names: the launch as this run knows it, the truss's index and the core. -/
def State.recordOf (s : State) (vd n : Nat) : Option (Nat × Nat × Nat) :=
  let w := (s.capWord n 2).toNat
  let ln := (List.range s.launches.length).reverse.find? fun k => match s.launches[k]? with
    | some l => l.vd.val == vd && l.blk == w % 2 ^ 16 && l.seq.toNat == w / 2 ^ 32
    | none => false
  ln.map fun ln => (ln, (s.capWord n 3).toNat, (s.capWord n 4).toNat)

/-- The trusses of the spans from `index` on start on the recorded cores, each span on distinct cores that take its members; none when one
cannot. -/
def State.startRecorded (s : State) (ln : Nat) (l : Launch) : (spans index : Nat) → (cores : List Nat) → Option State
  | 0, _, _ => some s
  | k + 1, index, cores =>
    let cs := cores.take l.items.span
    if cs.eraseDups.length = cs.length && cs.all (fun c => s.openFor l.vd c && s.fits c l.items l.items.courses false) then
      (s.startSpan ln l index cs).startRecorded ln l k (index + l.items.span) (cores.drop l.items.span)
    else none

/-- A replay admits the next recorded truss on its recorded core once no other truss of the device is left, a span and a CONCURRENT launch
whole (R447). A record that names a truss already admitted stands for its restore: the restore takes the record, and it is passed over once
the truss is gone. -/
def State.admitReplay (s : State) (vd : Nat) : State :=
  match (s.nextRecord 2).bind fun n => (s.recordOf vd n).map fun x => (n, x) with
  | none => s
  | some (n, ln, i, _) =>
    match s.launches[ln]?, s.trusses.find? fun t => t.launch == ln && t.index == i && !t.handlerTruss with
    | some _, some t => if t.place == .gone then s.useRecord 2 n else s
    | some l, none =>
      let k := if l.items.progress = 0 then l.items.total else l.items.span
      let ns := s.recordsFrom 2 k n
      let xs := ns.filterMap (s.recordOf vd)
      let named := xs.map (fun x => (x.1, x.2.1)) == (List.range k).map fun j => (ln, i + j)
      let busy := s.trusses.any fun t => t.ofVd vd && !t.handlerTruss && t.place != .gone
      if busy || !named || !s.served vd then s
      else match s.startRecorded ln l (k / l.items.span) i (xs.map (·.2.2)) with
        | none => s
        | some s =>
          { s.useRecord 2 (ns.getLastD n) with launches := s.launches.modify ln fun l => { l with admitted := l.admitted + k } }
    | none, _ => s

/-- The launch has taken what room it can; the answer says whether, as a CONCURRENT one, it cannot be admitted. -/
def State.admitLaunch (s : State) (ln : Nat) (d : VDev) (l : Launch) : State × Bool :=
  if !s.queueClear ln l then (s, l.items.progress == 0)
  else if l.items.progress = 0 then s.admitConcurrent ln d l
  else if l.items.progress = 1 && s.startedOut ln then (s, false)
  else (s.admitMany ln maxTrusses, false)

/-- The launches of a device, oldest first, take what room there is; `oldest` while none of those before has unadmitted trusses: a
CONCURRENT one that waits then keeps the younger ones out (R470). -/
def State.admitDevice (s : State) (vd : Nat) (d : VDev) (oldest : Bool) : (lns : List Nat) → State
  | [] => s
  | ln :: lns =>
    match s.launches[ln]? with
    | none => s.admitDevice vd d oldest lns
    | some l =>
      if l.vd.val != vd || l.allAdmitted then s.admitDevice vd d oldest lns
      else
        let r := s.admitLaunch ln d l
        let left := match r.1.launches[ln]? with | some l => !l.allAdmitted | none => false
        if r.2 && oldest then r.1 else r.1.admitDevice vd d (oldest && !left) lns

/-! ### Active-message handlers (R49, R213) -/

/-- The items of a handler truss: no scratchpad and no tiles. -/
def LaunchItems.forHandler (i : LaunchItems) (entry : W64) : LaunchItems :=
  { i with kernel := entry, courses := 1, span := 1, roles := 0,
           part := BitVec.ofNat 64 (partReg i.part + partScr i.part * 2 ^ 8 + partAcc i.part * 2 ^ 16) }

/-- The payload in v0 to v15 of lane 0. -/
def payloadV (data : List Byte) : Vector LaneVec 256 :=
  Vector.ofFn fun n => Vector.ofFn fun l => if l.val = 0 && n.val < 16 then BitVec.ofNat 32 (bytesNat ((data.drop (4 * n.val)).take 4)) else 0

/-- The handler truss of a message starts on its core at the entry read; an entry with upper bits faults at the first fetch (R160,
R213). Its TRUSS and SPANPOS read 0 (DESIGN CHOICE, log 34: R49 gives a handler truss no linear index and no span). -/
def State.spawn (s : State) (core : Nat) (m : AMsg) (l : Launch) (entry : W64) (fetch : Phase) : State :=
  let n := s.trusses.length
  let s := s.modCore core fun c => { c with amsgs := c.amsgs.erase m }
  let s := s.startTruss core l.items.part
    { vd := m.vd, launch := m.launch, items := l.items.forHandler entry, handler := true, index := 0, spanPos := 0,
      spanId := s.nextId, regs := fun _ => (List.range 8).map fun i => BitVec.ofNat 64 (bytesNat ((m.payload.drop (8 * i)).take 8)) }
  ({ s with nextId := s.nextId + 1 } : State).modCourse ⟨n, 0⟩ fun k =>
    { k with v := payloadV m.payload,
             fetch := if entry.toNat / 2 ^ 57 ≠ 0 && entry.toNat % 8 = 0 then .failed 0x13 0 else fetch }

/-! ### Retirement (R56, R186, R363) -/

/-- The course is still covered by a kill (R408). -/
def State.underKill (s : State) (c : CRef) : Bool :=
  s.kills.any fun k => k.stage != .wait && match k.scope with
    | .course d => d == c
    | .truss t => t == c.truss
    | .device v _ => match s.truss? c.truss with | some t => t.vd == v | none => false

/-- The last truss that leaves a core frees its partition word (R35). -/
def State.freePart (s : State) (core : Nat) : State :=
  if (s.onCore core).all (·.kernelMode) then s.modCore core fun c => { c with part := none } else s

/-- The end of the slice of the device that ran: its pass and its SLICES meter (R401, R465). -/
def State.chargeSlice (s : State) (vd : Nat) : State :=
  (s.addShare vd 9 1).modVdev vd fun d =>
    { d.accumulate with pass := d.pass + BitVec.ofNat 64 (2 ^ 20 / Nat.max 1 d.weight.toNat) }

/-- A SETSET that waited for the trusses gives the device its new grant and pass; messages keep their grant positions (R404, R405). -/
def State.finishMove (s : State) (vd : Nat) : State :=
  match s.vdev? vd with
  | none => s
  | some d =>
    match d.moveTo with
    | none => s
    | some n =>
      if s.trusses.any fun t => t.ofVd vd && t.onCore then s
      else
        let x := vat s.sets n ClSet.reset
        let old := d.cores
        let new := (List.range 192).filter fun c => x.mask.getLsbD (c / 8)
        let at_ := fun (c : Nat) => (new[(old.takeWhile (· < c)).length]?).getD c
        let msgs : List AMsg := ((old.map fun c => ((s.core c).amsgs.filter fun m => m.vd.val == vd).map fun m =>
          ({ m with target := at_ c } : AMsg))).flatten
        let s := { s with cores := Vector.ofFn fun (i : Fin 192) =>
          { s.cores[i] with amsgs := (s.cores[i].amsgs.filter fun (m : AMsg) => m.vd.val != vd) ++ msgs.filter fun (m : AMsg) => m.target == i.val } }
        let o := vat s.sets d.set ClSet.reset
        let into := o.next.map (·.val) == some vd
        let ran := o.running.map (·.val) == some vd
        let s := if ran && o.next.isNone then s.chargeSlice vd else s
        let o' : ClSet := { o with running := if ran || into then none else o.running, next := if into then none else o.next }
        let s : State := { s with sets := vput s.sets d.set o' }
        let s := s.modVdev vd fun d =>
          { d with set := n, grant := x.mask, moveTo := none, pass := if d.pass < x.floor then x.floor else d.pass, runnable := false }
        { s with mbBusy := false, mbStatus := 0, hostOut := s.hostOut ++ [HostOut.msix 0 0] }

/-- A truss whose courses are all retired, or killed and released, is gone with all it held (R56); a device that waits for its last truss to
leave moves (R404). -/
def State.retireTruss (s : State) (tn : Nat) : State :=
  match s.truss? tn with
  | none => s
  | some t =>
    let over_ := (List.range t.courses.length).all fun j => match t.courses[j]? with
      | some k => k.cstate == .retired || (k.cstate == .killed && !s.underKill ⟨tn, j⟩)
      | none => true
    if !over_ || t.place = .gone then s
    else
      ((s.modCore t.core fun c => c.leaveAcc t).modTruss tn fun t =>
        { t with place := .gone, scr := [], scrPsn := [], tiles := [], units := [], layouts := [], tpls := [], tabPend := [], evict := false,
                 rings := Vector.replicate 8 Ring.launch, matQ := [], copyQ := [], netQ := [],
                 courses := t.courses.map fun k => { k with slot := 64 } }).freePart t.core
        |>.freeParts (fun p => p.truss == tn) |>.finishMove t.space

/-- Nothing of the course is outstanding (R56, R363). -/
def State.quiet (s : State) (c : CRef) (t : Truss) (k : Course) : Bool :=
  (List.range 16).all (fun j => (vat k.tok j ⟨0, 0⟩).count == 0) && k.quarantine.isEmpty &&
  !(t.entries.any fun e => e.2.course == c.course) && !(s.accesses.any fun a => a.who == c && a.kind.ordered)

/-- The merge loop has left the course without a lane, and no `bsync` is pending (R42, R164). -/
def Course.laneless (k : Course) : Bool := k.merge.lanes == 0 && k.bsync.isNone

/-- A course without lanes retires once nothing of it is outstanding; with a rollback request pending it is killed (R443). -/
def courseRetireStep (s : State) (c : CRef) : State :=
  match s.truss? c.truss, s.course? c with
  | some t, some k =>
    if k.cstate = .resident && t.onCore && k.laneless && k.rollbackPend then
      s.killCourse c (s.courseCause c 0x15 1 (k.pc.zeroExtend 64) 0)
    else if k.cstate = .resident && t.onCore && k.laneless && s.quiet c t k then
      (s.modTruss c.truss fun t => (t.modCourse c.course fun k =>
        { k.closeShadows with cstate := .retired, div := [], bsync := none, hold := .none }).markGone c.course).retireTruss c.truss
    else s
  | _, _ => s

def execCourseRetire (c : CRef) (s : State) : Out := .next (courseRetireStep s c)

/-! ### Completion (R58, R344, R345) -/

/-- The trusses of a launch, handler trusses apart. -/
def State.trussesOf (s : State) (ln : Nat) : List Truss := s.trusses.filter fun t => t.launch == ln && !t.handlerTruss

/-- The launch is over: its packet has completed. -/
def State.endLaunch (s : State) (ln : Nat) (l : Launch) (perm : Bool) : State :=
  let s := { s with launches := s.launches.modify ln fun l => { l with complete := true, wait := .performed } }
  let seq := match s.qcb? l.blk with
    | some b => ((b.infl.find? fun p => p.st == .launch ln).map (·.seq)).getD l.seq
    | none => l.seq
  let s := s.modQcb l.blk fun b =>
    { b with infl := b.infl.map fun p => if p.st = .launch ln then { p with st := .done } else p }
  if perm then s.haltQueue l.blk 5 seq else s

/-- Every truss is gone and every store of the launch is performed. -/
def State.launchOver (s : State) (ln : Nat) (l : Launch) : Bool :=
  l.allAdmitted && !l.complete && (s.trussesOf ln).all (fun t => t.place == .gone) &&
  !(s.accesses.any fun a => a.kind.ordered && match s.truss? a.who.truss with | some t => t.launch == ln | none => false)

/-- The status of a launch whose trusses are gone (R58). -/
def State.launchStatus (s : State) (ln : Nat) (l : Launch) : BitVec 8 :=
  if l.status ≠ 0 then l.status
  else if (s.trussesOf ln).any fun t => t.courses.any fun k => k.cstate == .killed then 3 else 0

/-- A launch that is over writes its status and completes; a status write that ends in PERM halts the queue (R345). -/
def completeStep (s : State) (ln : Nat) : State :=
  match s.launches[ln]? with
  | none => s
  | some l =>
    if !s.launchOver ln l || l.wait.waits then s
    else
      let st := s.launchStatus ln l
      if l.items.statusAddr = 0 then s.endLaunch ln l false
      else
        match l.wait with
        | .failed .. => s.endLaunch ln l true
        | _ =>
          let r := s.reach ⟨2, 5, 0xFF, 0⟩ l.vd l.items.statusAddr ⟨true, false, true⟩
          match r.2.2 with
          | some pl =>
            if pl.prm then r.1.endLaunch ln l true
            else
              let b := r.1.bank pl.host
              (r.1.putBank l.vd pl.host pl.pa 8 ⟨writeNat b.m pl.pa 8 st.toNat, psnWrite b.psn pl.pa 8 false⟩).endLaunch ln l false
          | none =>
            match r.2.1 with
            | .failed .. => r.1.endLaunch ln l true
            | ph => { r.1 with launches := r.1.launches.modify ln fun l => { l with wait := ph } }

def execLaunchComplete (launch : Nat) (s : State) : Out := .next (completeStep s launch)

/-! ### The service truss (R46, R47) -/

/-- A call's results, in the lanes of its record; a call rejected fails with SYSCFAULT at the covering `waitt`; those of a course that
is gone are discarded (R47). -/
def State.endCall (s : State) (c : CRef) (op : Nat) (reject : Bool) (results : List (List W32)) : State :=
  s.modCourse c fun k =>
    if k.gone then k
    else if reject then k.endOp (some op) (some ⟨0x1B, 0, 0, s.nextId⟩) [] false 0
    else
      let ws := (((k.ops.find? fun o => o.id == op).map (·.writes)).getD []).zipIdx.map fun (w, j) =>
        match w with
        | .v n m _ =>
          let rows := (List.range 32).map fun l => ((results[(lanesIn m).idxOf l]?).getD [])
          RegVal.v n m (laneVec fun l => ((rows[l]?).getD [])[j]?.getD 0)
        | w => w
      k.endOp (some op) none ws false 0

/-- A course of the service truss takes the next record of its die, in ring order, or completes the call that it took last (R46, R468). -/
def serviceStep (s : State) (die : Fin 2) (course : Fin 4) (reject : Bool) (results : List (List W32)) : State :=
  let taken := vat s.svcTaken die []
  match tget? taken course with
  | some (c, op) => ({ s with svcTaken := vput s.svcTaken die (tdel taken course) } : State).endCall c op reject results
  | none =>
    match vat s.svcRecs die [] with
    | r :: rs =>
      { s with svcRecs := vput s.svcRecs die rs, svrHead := vput s.svrHead die (vat s.svrHead die 0 + 1),
               svcTaken := vput s.svcTaken die (match r with | some x => tput taken course x | none => taken) }
    | [] => s

def execServiceRecordTake (who : SvcCourse) (reject : Bool) (results : List (List W32)) (s : State) : Out :=
  .next (serviceStep s who.die who.course reject results)

end Sys2Proof.Machine
end

