-- ==== Sys2Proof/Machine/Faults.lean ====
section
/-!
DEFINITION. Records of replayable faults, and what ends the waits on them (10 R221; 17 R394, R396, R397, R472).
-/
namespace Sys2Proof.Machine

/-! ### Passing faults on (R221) -/

/-- The fault gate of a space holds the faults of a die; the I/O die keeps no gate, and the gate of either compute die holds the faults
of its engines and queue processors (R221, R353; log 74). -/
def State.gateHeld (s : State) (die space : Nat) : Bool :=
  if die < 2 then tget false s.gates (513 * die + space) else tget false s.gates space || tget false s.gates (513 + space)

/-- The oldest fault of a stage in a space that may be passed on: no gate holds it, and no fault passed on waits on its page. -/
def State.nextFault (s : State) (space : Nat) (stage2 paging : Bool) : Option FaultWait :=
  s.faults.find? fun f => f.space == space && f.stage2 == stage2 && f.paging == paging && !f.passed && !s.gateHeld f.die space &&
    !s.faults.any fun g => g.passed && g.on space stage2 paging f.addr

/-- A fault is passed on. -/
def State.passFault (s : State) (f : FaultWait) : State :=
  { s with faults := s.faults.map fun g => if g = f then { g with passed := true } else g }

/-- Bytes written at a guest-physical address, where stage 2 maps it; the answer says whether it does. -/
def State.guestWrite (s : State) (vd : Nat) (d : VDev) (gpa : Nat) (data : List Byte) : Option State :=
  match walk2 s.mem s.memPsn d.s2root gpa with
  | .ok l =>
    let host := entryHost l.e
    let b := s.bank host
    some (s.putBank vd host l.out data.length ⟨writeBytes b.m l.out data, psnWrite b.psn l.out data.length false⟩)
  | .error _ => none

/-- The fault ring has room for a record (R396). -/
def VDev.fltRoom (d : VDev) : Bool :=
  let n := bits d.fltbase.toNat 3 0
  7 ≤ n && n ≤ 12 && (d.flttail - d.flthead).toNat < 2 ^ n

/-- The record of a stage-1 fault (R396, R472). -/
def State.faultRecord (s : State) (f : FaultWait) : List Byte :=
  wordBytes [BitVec.ofNat 64 (f.addr % 2 ^ 57),
    BitVec.ofNat 64 (f.detail + 0x12 * 2 ^ 8 + f.kind * 2 ^ 16 + f.core * 2 ^ 22 + f.slot * 2 ^ 30),
    s.dieCtr f.die, BitVec.ofNat 64 f.die]

/-- A stage-1 fault is recorded in the device's ring, and the fault vector is sent; a ring without room, or that stage 2 does not map,
leaves it waiting (R396; log 37). -/
def faultRecordStep (s : State) (vd : Nat) : State :=
  match s.nextFault vd false false, s.vdev? vd with
  | some f, some d =>
    if !d.fltRoom then s
    else
      let n := bits d.fltbase.toNat 3 0
      match s.guestWrite vd d (bits d.fltbase.toNat 51 12 * 4096 + 32 * (d.flttail.toNat % 2 ^ n)) (s.faultRecord f) with
      | some s =>
        let s := (s.passFault f).modVdev vd fun d => { d with flttail := d.flttail + 1 }
        if d.vecs.getLsbD 16 then s.interrupt (vd * 64 + bits d.vecs.toNat 5 0) else s
      | none => s
  | _, _ => s

def execStage1FaultRecord (vd : Fin 512) (s : State) : Out := .next (faultRecordStep s vd)

/-- A stage-2 fault is recorded in the physical function's event ring (R397). -/
def faultEventStep (s : State) (vd : Nat) : State :=
  match s.nextFault vd true false with
  | some f => (s.passFault f).postEvent 0x01 f.die vd 0 (BitVec.ofNat 64 f.addr) (BitVec.ofNat 64 f.detail)
  | none => s

def execStage2FaultEvent (vd : Fin 512) (s : State) : Out := .next (faultEventStep s vd)

/-! ### The end of waits -/

/-- The waits on a page of stage 1 end: their walks run again, or they end in PERM (R396). -/
def State.endStage1 (s : State) (vd va : Nat) (abort : Bool) : State :=
  let s : State := { s with faults := s.faults.filter fun f => !(f.space == vd && !f.stage2 && f.addr / 4096 == va / 4096) }
  s.resolve vd (fun p => match p with | .wait1 a => a / 4096 == va / 4096 | _ => false) abort

/-- The waits on guest-physical pages that `sel` picks end (R397); a mapping replays those on pages of host memory too. -/
def State.endStage2 (s : State) (vd : Nat) (sel : Nat → Bool) (abort : Bool) : State :=
  let s : State := { s with faults := s.faults.filter fun f => !(f.space == vd && f.stage2 && !(f.paging && abort) && sel f.addr) }
  s.resolve vd (fun p => match p with | .wait2 a => sel a | .paging a => !abort && sel a | _ => false) abort

/-- A write to FLTRES (R394, R396). -/
def State.fltres (s : State) (vd : Nat) (v : W64) (abort : Bool) : State :=
  if v.getLsbD 63 == abort && s.active vd then s.endStage1 vd (v.toNat % 2 ^ 57) abort else s

def execFltresReplay (vd : Fin 512) (v : W64) (s : State) : Out := .next (s.fltres vd v false)
def execFltresAbort (vd : Fin 512) (v : W64) (s : State) : Out := .next (s.fltres vd v true)

end Sys2Proof.Machine
end

