-- ==== Sys2Proof/Machine/Arbiter.lean ====
section
/-!
DEFINITION. How a quadrant arbiter ranks the courses of its slots (02 R38 to R40, 17 R401).
-/
namespace Sys2Proof.Machine

/-- A ring favours a role, by its occupancy at the end of the previous cycle (R40). -/
def Ring.favours (r : Ring) (role : BitVec 2) : Bool :=
  r.valid && ((r.prod == role && 2 * r.occ < r.slots.length) || (r.cons == role && r.slots.length < 2 * r.occ))

/-- Core cycles for which a restored course ranks second (R39). -/
def restoredCycles : Nat := 1125000

/-- The level of a course, 1 the highest (R39). -/
def State.level (s : State) (t : Truss) (k : Course) : Nat :=
  if !k.frames.isEmpty then 1
  else if (match k.restored with | some c => decide (s.clk ≤ c + restoredCycles) | none => false) then 2
  else if (List.finRange 8).any fun n => t.rings[n].favours k.role then 3
  else 4

/-- A hold has ended or there is none (R95, R161, R166). -/
def Hold.over (h : Hold) (clk : Nat) : Bool :=
  match h with | .none => true | .dly t | .yield t | .guard t => t ≤ clk

end Sys2Proof.Machine
end

