-- ==== Sys2Proof/Machine/Schedule.lean ====
section
/-!
DEFINITION. Eviction and restore, and the weighted fair scheduler (02 R51 to R55; 09 R197; 17 R399 to R405; 24 R464 to R466).
-/
namespace Sys2Proof.Machine

/-! ### The drain before an image is saved (R52) -/

/-- Nothing of the course moves any more but by the service of a fault, a wake or a message. What a pending rollback request keeps held
goes into the image with the request (R442, R448). -/
def State.drained (s : State) (c : CRef) (t : Truss) (k : Course) : Bool :=
  (k.quarantine.isEmpty || k.rollbackPend) && k.ops.all (s.opStuck c t) &&
  (s.accesses.filter fun a => a.who == c).all (s.accessStuck t) &&
  (t.entries.filter fun e => e.2.course == c.course).all fun e => e.2.redo || s.entryStuck c.truss t e.1 e.2.id

/-- Operations that have completed fall, in issue order. -/
def State.fallAll (s : State) (c : CRef) : State :=
  match s.course? c with
  | some k => k.ops.foldl (fun s o => if o.fallen || !o.done then s else tokenFall s c o.tk) s
  | none => s

/-- An access recorded as not performed. -/
def Access.withdraw (a : Access) : Access :=
  { a with parts := a.parts.map fun p =>
      if p.phase.settled || p.phase == .held || a.scratch || !p.got.isEmpty then p else { p with phase := .untranslated } }

/-- A promise operation recorded as not performed; a waiter walks again (R281). -/
def PromOp.withdraw (p : PromOp) : PromOp :=
  if p.phase = .held then p
  else { p with waiting := none, phase := .untranslated, phase2 := if p.phase2 = .performed then .performed else .untranslated }

/-- An entry recorded as not performed; a product keeps its committed rows, and a scaling the elements it has scaled (R297, R373, R415). -/
def QEntry.withdraw (e : QEntry) : QEntry :=
  let e := { e with redo := true, begun := false, cached := false, cache := [],
                    wait := match e.wait with | .failed c d => .failed c d | _ => .untranslated }
  match e.body with
  | .mma .. | .accsc .. => e
  | _ => if e.fault.isSome then e else { e with done := 0, full := false, poison := false, drop := false, partly := false }

/-- The posted receives of a course go back to its queue, at their places in issue order, to be posted again (R335, R384). -/
def State.unpost (s : State) (c : CRef) (vd : Nat) : State :=
  match s.vdev? vd with
  | none => s
  | some d =>
    let mine := d.recvs.filter fun r => r.who == c
    mine.foldl (fun s r =>
      let e := { mkEntry r.entry c.course (some r.op) r.issued (.nrecv r.mw r.buf r.cap r.recAddr) false r.inRegion with redo := true }
      s.modTruss c.truss fun t =>
        { t with netQ := t.netQ.takeWhile (fun x => x.id < e.id) ++ e :: t.netQ.dropWhile (fun x => x.id < e.id) })
      (s.dropRecvs vd fun r => r.who == c)

/-- What the course still has outstanding is recorded as not performed, and leaves its engines (R52). -/
def State.withdraw (s : State) (c : CRef) (t : Truss) : State :=
  let mine := fun (e : QEntry) => e.course == c.course && !e.redo
  let busy := match t.head? .mat with | some e => mine e | none => false
  let s := if busy && (s.core t.core).matBusy == some c.truss then s.modCore t.core fun x => { x with matBusy := none } else s
  let ids := (t.netQ.filter mine).map (·.id)
  let gone := fun (n e : Nat) => n == c.truss && ids.contains e
  let s := s.dropEarly c fun _ => true
  let s : State := { s with
    accesses := s.accesses.map fun a => if a.who = c then a.withdraw else a,
    proms := s.proms.map fun p => match p.who with | .course d .. => if d = c then p.withdraw else p | .queue _ => p,
    outgoing := s.outgoing.filter fun o => !gone o.truss o.entry, gathers := s.gathers.filter fun g => !gone g.truss g.entry }
  let out := fun (es : List QEntry) => es.map fun e => if mine e then e.withdraw else e
  (s.unpost c t.vd).modTruss c.truss fun t =>
    ({ t with copyQ := out t.copyQ, matQ := out t.matQ, netQ := out t.netQ } : Truss).passFences 64

/-- The remaining count of a `dly` is kept in the image (R52). -/
def Hold.leave (h : Hold) (clk : Nat) : Hold :=
  match h with | .none => .none | .dly t => .dly (t - clk) | .yield t => .yield (t - clk) | .guard t => .guard (t - clk)
def Hold.back (h : Hold) (clk : Nat) : Hold :=
  match h with | .none => .none | .dly t => .dly (t + clk) | .yield t => .yield (t + clk) | .guard t => .guard (t + clk)

/-- The image of a course is saved, in the record of its core (R51, R52, R98, R405); each one parked or stored counts in EVICTS (R466). -/
def State.saveCourse (s : State) (c : CRef) (to_ : CState) : State :=
  let s := s.fallAll c
  match s.truss? c.truss, s.course? c with
  | some t, some k =>
    if k.cstate ≠ .resident then s
    else
      (((s.withdraw c t).modCourse c fun k =>
        { k.closeShadows with cstate := to_, hold := k.hold.leave s.clk, fetch := .untranslated }).keepCourse c).addShare t.space 7 1
  | _, _ => s

/-- A course comes back to a slot (R39, R51, R52). -/
def Course.comeBack (k : Course) (slot clk : Nat) : Course :=
  { k with cstate := .resident, slot := slot, hold := k.hold.back clk, restored := some clk, ahead := [] }

/-! ### Partial eviction and unparking (R53) -/

/-- Free REG space of a core. -/
def State.regFree (s : State) (core : Nat) : Nat := s.regSpace core 0 - s.regUsed core

/-- The outgoing device's next course to park on a core: of the lowest level, the one created earliest. Among those created in one cycle it
is the one of the lowest truss number, then of the lowest index (DESIGN CHOICE, log 81: R53 is silent). -/
def State.parkNext (s : State) (core vd : Nat) : Option CRef :=
  let cs := ((List.range s.trusses.length).map fun n => match s.truss? n with
    | some t =>
      if t.ofVd vd && t.place = .onCore core && !t.evict then
        (List.range t.courses.length).filterMap fun j => match t.courses[j]? with
          | some k => if k.cstate = .resident then some ((⟨n, j⟩ : CRef), s.level t k, k.created) else none
          | none => none
      else []
    | none => []).flatten
  (cs.foldl (fun b x => match b with
    | some y => if y.2.1 < x.2.1 || (y.2.1 = x.2.1 && x.2.2 < y.2.2) then some x else some y
    | none => some x) none).map (·.1)

/-- One course is parked, once it has drained, while the space a switch needs is not free. -/
def partialStep (s : State) (core vd need : Nat) : State :=
  if (s.core core).parking.map (fun x => (x.1.val, x.2)) ≠ some (vd, need) then s
  else
    let stop := fun (s : State) => s.modCore core fun c => { c with parking := none }
    if need ≤ s.regFree core then stop s
    else match s.parkNext core vd with
      | none => stop s
      | some c =>
        match s.truss? c.truss, s.course? c with
        | some t, some k => if s.drained c t k then (s.saveCourse c .parked).modVdev vd VDev.accumulate else s
        | _, _ => s

def execPartialEviction (core : Nat) (vd : Fin 512) (need : Nat) (s : State) : Out := .next (partialStep s core vd need)

/-- A parked course can return: its device has the set, and its footprint is free (R51, R402). -/
def State.unparkable (s : State) (t : Truss) (k : Course) : Bool :=
  k.cstate == .parked && t.onCore && !t.evict && s.served t.space && footprint t.items.regs ≤ s.regFree t.core

/-- A parked course returns to its slot, and its image's part of the record is free (R405). -/
def unparkStep (s : State) (c : CRef) : State :=
  match s.truss? c.truss, s.course? c with
  | some t, some k =>
    if s.unparkable t k then
      (s.modTruss c.truss fun t => (t.modCourse c.course fun k => k.comeBack k.slot s.clk).reissue [c.course]).freeParts
        fun p => p.truss == c.truss && p.course == some c.course
    else s
  | _, _ => s

def execCourseUnpark (c : CRef) (s : State) : Out := .next (unparkStep s c)

/-! ### Full eviction (R54, R285, R403) -/

/-- The launch's trusses move together (R36). -/
def State.together (s : State) (t : Truss) : Bool :=
  !t.handlerTruss && match s.launches[t.launch]? with | some l => l.items.progress == 0 | none => false

/-- The trusses that leave or come back with a truss: its span, or every truss of a CONCURRENT launch (R36, R54). -/
def State.groupOf (s : State) (tn : Nat) : List Nat :=
  match s.truss? tn with
  | none => []
  | some t =>
    (List.range s.trusses.length).filter fun n => match s.truss? n with
      | some u => n == tn || (u.place != .gone && (u.spanId == t.spanId ||
          (s.together t && !u.handlerTruss && u.launch == t.launch)))
      | none => false

/-- The resident courses of a truss have drained, and the killed ones are dumped and released (R57). -/
def State.canLeave (s : State) (tn : Nat) : Bool :=
  match s.truss? tn with
  | none => true
  | some t =>
    !t.onCore || (List.range t.courses.length).all fun j => match t.courses[j]? with
      | some k => if k.cstate = .resident then s.drained ⟨tn, j⟩ t k else k.cstate != .killed || !k.holds
      | none => true

/-- What the truss has in the matrix queue, which waits, is recorded as not performed: the engine is free for its self-test (R285, R297). -/
def State.recordMatrix (s : State) (tn : Nat) : State :=
  match s.truss? tn with
  | none => s
  | some t =>
    let s := if (s.core t.core).matBusy = some tn then s.modCore t.core fun c => { c with matBusy := none } else s
    s.modTruss tn fun t => { t with matQ := t.matQ.map fun e => if e.redo then e else e.withdraw }

/-- A truss is stored in the record of its core with all it holds, its tiles with WS 0, which its ACC units keep too; a parked image goes
along (R54, R109, R285, R405, R466). -/
def State.storeTruss (s : State) (tn : Nat) : State :=
  match s.truss? tn with
  | none => s
  | some t =>
    if !t.onCore then s
    else
      let s := (List.range t.courses.length).foldl (fun s j => s.saveCourse ⟨tn, j⟩ .stored) s
      let parked := (t.courses.filter fun k => k.cstate == .parked).length
      let tiles := (((s.truss? tn).map (·.tiles)).getD []).map fun (x : Tile) => { x with status := statusOf 0 x.ovf x.psn }
      let s := s.modCore t.core fun c => c.leaveAcc { t with tiles := tiles }
      let s := match s.truss? tn with | some u => s.keepTruss tn { u with tiles := tiles } | none => s
      let s := s.modTruss tn fun t =>
        { t with place := .stored t.core, evict := false, tested := false, tiles := tiles, units := [],
                 courses := t.courses.map fun k =>
                   { k with slot := 64, cstate := if k.cstate = .parked then .stored else k.cstate } }
      ((s.freePart t.core).addShare t.space 7 parked).modVdev t.space VDev.accumulate

/-- A truss that is to leave, with those that leave with it, is stored once all have drained, and, where it holds tiles, once its engine has
run a self-test (R285). -/
def evictStep (s : State) (tn : Nat) : State :=
  match s.truss? tn with
  | none => s
  | some t =>
    let g := (s.groupOf tn).filter fun n => match s.truss? n with | some u => u.onCore | none => false
    let untested := g.filter fun n => match s.truss? n with | some u => u.unproven | none => false
    if !(t.evict && t.onCore && g.all s.canLeave) then s
    else if untested.isEmpty then (g.foldl State.storeTruss s).finishMove t.space
    else untested.foldl State.recordMatrix s

def execFullEviction (truss : Nat) (s : State) : Out := .next (evictStep s truss)

/-! ### Restore (R54, R464) -/

/-- The partition word of a truss's launch. -/
def State.launchPart (s : State) (t : Truss) : W64 :=
  match s.launches[t.launch]? with | some l => l.items.part | none => t.items.part

/-- Live courses of a truss. -/
def Truss.live (t : Truss) : Nat := (t.courses.filter fun k => !k.gone).length

/-- The next record of a replay that stands for this truss. -/
def State.recordFor (s : State) (t : Truss) (n : Nat) : Bool :=
  !t.handlerTruss && match s.recordOf t.vd n with | some x => x.1 == t.launch && x.2.1 == t.index | none => false

/-- A restore is captured, and takes its record in a replay (R447). A handler truss is no truss of a LAUNCH packet: none stands for it
(log 14). -/
def State.noteRestore (s : State) (t : Truss) (core : Nat) : State :=
  if t.handlerTruss then s
  else if s.replaying t.vd then
    match s.nextRecord 2 with | some n => if s.recordFor t n then s.useRecord 2 n else s | none => s
  else
    let (blk, seq) := match s.launches[t.launch]? with | some l => (l.blk, l.seq) | none => (0, 0)
    s.capture t.vd 2 0 [BitVec.ofNat 64 (blk + seq.toNat * 2 ^ 32), BitVec.ofNat 64 t.index, BitVec.ofNat 64 core]

/-- The cores on which the replay's next records restore these trusses, in order; none when the records name others. -/
def State.recordedCores (s : State) (vd : Nat) (ms : List Nat) : Option (List Nat) :=
  if !s.replaying vd then none
  else match s.nextRecord 2 with
    | none => none
    | some n =>
      let ns := s.recordsFrom 2 ms.length n
      if ns.length = ms.length && (ms.zip ns).all (fun x => match s.truss? x.1 with | some t => s.recordFor t x.2 | none => false) then
        some (ns.map fun n => (s.capWord n 4).toNat)
      else none

/-- A stored truss comes to a core: its live courses take slots by R37 (R54, R405, R464). The core's L1 gives up its lines, so that no course
reads there what is older than it has written or seen (R310, R316). -/
def State.bringBack (s : State) (tn core : Nat) : State :=
  match s.truss? tn with
  | none => s
  | some t =>
    let h := if t.place = .stored core then t.ctxSlot else s.headerSlot t.vd core
    let slots := s.slotsFor core t.live
    let area := s.headerAddr t.vd core h
    let live := (List.range t.courses.length).filter fun j => match t.courses[j]? with | some k => !k.gone | none => false
    let part := s.launchPart t
    let units := takeUnits s.tick ((t.tiles.length + 3) / 4) 0 (s.accFree core part)
    let s := s.modTruss tn fun t =>
      let cs := (List.range t.courses.length).zipWith (fun j k =>
        if k.gone then k
        else { k.comeBack ((slots[(live.idxOf j)]?).getD 64) s.clk with ctxArea := area }) t.courses
      ({ t with courses := cs, place := .onCore core, ctxSlot := h, units := units, tested := false } : Truss).reissue live
    let s := (s.modCore core fun c => (c.usePool s.tick t.vd part).takeAcc units).freeParts fun p => p.truss == tn
    ({ s.invalidateL1 core with tick := s.tick + 1 } : State).noteRestore t core

/-- The members of a truss's span, in span order. -/
def State.spanOf (s : State) (tn : Nat) : List Nat :=
  match s.truss? tn with
  | none => []
  | some t =>
    (List.range t.items.span).filterMap fun p => (List.range s.trusses.length).find? fun n => match s.truss? n with
      | some u => u.spanId == t.spanId && u.spanPos == p && (match u.place with | .stored _ => true | _ => false)
      | none => false

/-- One span is restored where it fits, in a replay on the recorded cores (R447), each member by its own live courses (R34, R54, R464). -/
def State.restoreSpan (s : State) (tn : Nat) : Option State :=
  match s.truss? tn with
  | none => none
  | some t =>
    match s.vdev? t.vd with
    | none => none
    | some d =>
      let ms := if t.items.span = 1 then [tn] else s.spanOf tn
      let live := fun (n : Nat) => match s.truss? n with | some u => u.live | none => 0
      let items : LaunchItems := if t.handlerTruss then t.items else { t.items with part := s.launchPart t }
      let cores := match s.recordedCores t.vd ms with
        | some cores => if (ms.zip cores).all fun x => s.fits x.2 items (live x.1) t.handlerTruss then some cores else none
        | none => s.pickCores d (ms.map fun n c => s.fits c items (live n) t.handlerTruss)
      match cores with
      | some cores => some ((ms.zip cores).foldl (fun s x => s.bringBack x.1 x.2) s)
      | none => none

/-- Every span of a list of trusses is restored, or none. -/
def State.restoreAll (s : State) : List Nat → Option State
  | [] => some s
  | n :: ns =>
    match s.truss? n with
    | some t =>
      match t.place with
      | .stored _ => (s.restoreSpan n).bind fun s' => s'.restoreAll ns
      | _ => s.restoreAll ns
    | none => s.restoreAll ns

/-- A parked course of a truss that `p` picks can return now. -/
def State.unparking (s : State) (p : Truss → Bool) : Bool := s.trusses.any fun t => p t && t.courses.any (s.unparkable t)

/-- What a restore of the truss comes to; none when it must wait: the device's parked courses return first (R402). -/
def State.restored? (s : State) (tn : Nat) : Option State :=
  match s.truss? tn with
  | none => none
  | some t =>
    match t.place with
    | .stored _ =>
      if s.served t.space && t.live ≠ 0 && !s.unparking (fun u => u.ofVd t.vd) then s.restoreAll (s.groupOf tn) else none
    | _ => none

def execTrussRestore (truss : Nat) (s : State) : Out := .next ((s.restored? truss).getD s)

/-! ### Admission and handlers, after what returns (R34, R49, R402, R470) -/

/-- A stored truss of the device can be restored now. -/
def State.restoring (s : State) (vd : Nat) : Bool :=
  (List.range s.trusses.length).any fun n => match s.truss? n with | some t => t.ofVd vd && (s.restored? n).isSome | none => false

/-- What an admission step does for a device: new trusses start once its parked courses and its stored trusses have gone where they can
(R402). -/
def State.admitFor (s : State) (vd : Nat) (d : VDev) : State :=
  if !s.served vd then s
  else if s.replaying vd then (s.rejectHopeless vd d).admitReplay vd
  else if s.unparking (fun t => t.ofVd vd) || s.restoring vd then s
  else s.admitDevice vd d true (List.range s.launches.length)

/-- An admission step. -/
def admission (s : State) : State := s.vds.foldl (fun s e => s.admitFor e.1 e.2) s

def execLaunchAdmission (s : State) : Out := .next (admission s)

/-- The oldest message of a running device at a core is taken: the core reads its table entry, and starts its handler when it fits, after
what can return there (R402). A read that ends in PERM leaves a handler whose first fetch faults so (log 34). -/
def spawnStep (s : State) (core : Nat) : State :=
  match (s.core core).amsgs.find? fun m => s.served m.vd with
  | none => s
  | some m =>
    match s.launches[m.launch]? with
    | none => s.modCore core fun c => { c with amsgs := c.amsgs.erase m }
    | some l =>
      if m.wait.waits || !s.fits core l.items 1 true || s.unparking (fun t => t.ofVd m.vd && t.place == .onCore core) || s.restoring m.vd then s
      else
        match m.wait with
        | .failed cause d => s.spawn core m l 0 (.failed cause d)
        | _ =>
          let slot := ((s.slotsFor core 1)[0]?).getD 0
          let r := s.reach ⟨dieOf core, 0, core, slot⟩ m.vd (m.tblBase + 8 * m.handler) ⟨false, false, true⟩
          match r.2.2 with
          | some pl =>
            if pl.prm then r.1.spawn core m l 0 (.failed 0x13 0xA3)
            else (if pl.host then r.1 else r.1.touchRange m.vd pl.pa 8 false).spawn core m l (BitVec.ofNat 64 (readNat (s.bank pl.host).m pl.pa 8)) .untranslated
          | none =>
            match r.2.1 with
            | .failed cause d => r.1.spawn core m l 0 (.failed cause d)
            | ph => r.1.modCore core fun c => { c with amsgs := c.amsgs.map fun x => if x = m then { x with wait := ph } else x }

def execHandlerSpawn (core : Nat) (s : State) : Out := .next (spawnStep s core)

/-! ### Runnable devices and passes (R197, R400) -/

/-- The device has work (R400). -/
def State.hasWork (s : State) (vd : Nat) : Bool :=
  s.trusses.any (fun t => t.ofVd vd && t.place != .gone) ||
  s.launches.any (fun l => l.vd.val == vd && !l.allAdmitted) ||
  s.cores.any (fun (c : Core) => c.amsgs.any fun m => m.vd.val == vd) ||
  s.queues.any fun e => e.2.vd.val == vd && e.2.slot.isSome && e.2.st != .blocked && e.2.head != e.2.tail

def State.isRunnable (s : State) (vd : Nat) : Bool := s.active vd && s.hasWork vd

/-- Devices of a set. -/
def State.holders (s : State) (set : Nat) : List Nat := (s.vds.filter fun e => e.2.v && e.2.set.val == set).map (·.1)

/-- The smallest pass among some devices. -/
def State.minPass (s : State) (vs : List Nat) : Option (Nat × W64) :=
  vs.foldl (fun b v => match s.vdev? v with
    | some d => (match b with | some y => if d.pass.toNat < y.2.toNat then some (v, d.pass) else some y | none => some (v, d.pass))
    | none => b) none

/-- F of a set follows the smallest pass of its runnable devices (R197). -/
def State.setFloor (s : State) (set : Nat) : State :=
  match s.minPass ((s.holders set).filter fun v => match s.vdev? v with | some d => d.runnable | none => false) with
  | some (_, p) => { s with sets := vput s.sets set { vat s.sets set ClSet.reset with floor := p } }
  | none => s

/-- A device that has become runnable takes the pass of R197; one that has stopped is counted no more. -/
def State.noteRunnable (s : State) (set vd : Nat) : State :=
  match s.vdev? vd with
  | none => s
  | some d =>
    let now := s.isRunnable vd
    let f := (vat s.sets set ClSet.reset).floor
    if now && !d.runnable then (s.modVdev vd fun d => { d with runnable := true, pass := if d.pass < f then f else d.pass }).setFloor set
    else if !now && d.runnable then (s.modVdev vd fun d => { d with runnable := false }).setFloor set
    else s

def State.noteSet (s : State) (set : Nat) : State := (s.holders set).foldl (fun s v => s.noteRunnable set v) s

/-! ### Slices and switches (R401, R402) -/

/-- What the incoming device would put on a core: the items of a truss, the courses that come, and whether the truss lies there already. -/
structure Coming where
  items : LaunchItems
  n     : Nat
  there : Bool

/-- The work of the incoming device for a core: its trusses with parked courses there, and those stored in its record of that core; where
it has none, the first truss stored elsewhere, or else the next of a launch (R402; log 35). -/
def State.incoming (s : State) (vd core : Nat) : List Coming :=
  let items := fun (t : Truss) => { t.items with part := s.launchPart t }
  let parked := fun (t : Truss) => (t.courses.filter fun k => k.cstate == .parked).length
  let mine := s.trusses.filter fun t => t.ofVd vd
  let here := (mine.filter fun t => t.place == .onCore core && parked t ≠ 0).map fun t => (⟨items t, parked t, true⟩ : Coming)
  let kept := (mine.filter fun t => t.place == .stored core && t.live ≠ 0).map fun t => (⟨items t, t.live, false⟩ : Coming)
  match here ++ kept with
  | [] =>
    match mine.find? fun t => (match t.place with | .stored _ => true | _ => false) && t.live ≠ 0 with
    | some t => [⟨items t, t.live, false⟩]
    | none => ((s.launches.find? fun l => l.vd.val == vd && !l.allAdmitted).map fun l => (⟨l.items, l.items.courses, false⟩ : Coming)).toList
  | xs => xs

/-- Partial eviction serves on a core, with the REG bytes that the incoming work needs; none when the old device's trusses must all leave:
the four conditions of R402, for all that the new device would put there. -/
def State.partialNeed (s : State) (old new core : Nat) : Option Nat :=
  let xs := s.incoming new core
  let fresh := xs.filter fun x => !x.there
  let need := (xs.map fun x => x.n * footprint x.items.regs).sum
  let others := s.regUsedBy core fun t => !t.ofVd old
  match xs.head? with
  | none => some 0
  | some x =>
    let w := (s.core core).part.getD x.items.part
    if xs.all (fun x => x.items.part == w) &&
        s.scrUsed core + (fresh.map fun x => partScrt x.items.part * 4096).sum ≤ partScr w * unitBytes &&
        s.accUsed core + (fresh.map fun x => partAcct x.items.part).sum ≤ partAcc w &&
        (fresh.map (·.n)).sum ≤ s.freeSlots core && others + need ≤ partReg w * unitBytes
      then some need else none

/-- Trusses marked to leave take their spans, and the trusses of their CONCURRENT launches, with them (R54, R403). -/
def State.markGroups (s : State) : State :=
  let ns := (((List.range s.trusses.length).filter fun n => match s.truss? n with | some t => t.evict | none => false).map s.groupOf).flatten
  ns.foldl (fun s n => s.modTruss n fun t => { t with evict := t.onCore }) s

/-- The messages of a device that wait on cores of a mask are in its records from the moment it leaves them (R405). -/
def State.keepQueues (s : State) (vd : Nat) (cl : BitVec 24) : State :=
  match s.vdev? vd with
  | none => s
  | some d =>
    ((List.range 192).filter fun core => cl.getLsbD (core / 8) && (s.core core).amsgs.any fun m => m.vd.val == vd).foldl
      (fun s core => s.keepMessages vd d core) s

/-- The switch from one device to another is decided core by core (R402). -/
def State.planSwitch (s : State) (set old new : Nat) : State :=
  let cl := (vat s.sets set ClSet.reset).mask
  let s := s.keepQueues old cl
  ((List.range 192).foldl (fun s core =>
    if !cl.getLsbD (core / 8) then s
    else match s.partialNeed old new core with
      | some need =>
        s.modCore core fun c =>
          { c with parking := if (s.onCore core).any (fun t => t.ofVd old) && s.regFree core < need then
              (if h : old < 512 then some (⟨old, h⟩, need) else none) else none }
      | none =>
        { s with trusses := s.trusses.map fun t => if t.ofVd old && t.place = .onCore core then { t with evict := true } else t }) s).markGroups

/-- Cycles of the I/O die at which the running slice ends. -/
def ClSet.sliceEnd (x : ClSet) : Nat := x.sliceStart + Config.sliceIoCycles

/-- A capture records a switch into or out of the device (R447). -/
def State.captureSwitch (s : State) (set : Nat) (old new : Option (Fin 512)) : State :=
  let s := match old with | some v => s.capture v 3 0 [BitVec.ofNat 64 set, 0] | none => s
  match new with | some v => s.capture v 3 0 [BitVec.ofNat 64 set, 1] | none => s

/-- The device that a boundary selects: the smallest pass, ties to the lower VDID; in a replay the recorded switch decides for the
device replayed (R401, R447). -/
def State.select (s : State) (set : Nat) (old : Option (Fin 512)) : State × Option Nat :=
  let r := (s.holders set).filter fun v => match s.vdev? v with | some d => d.runnable | none => false
  let best := fun (vs : List Nat) => (s.minPass vs).map (·.1)
  match r.find? s.replaying with
  | some v =>
    match s.nextRecord 3 with
    | some n =>
      let into := s.capWord n 3 == 1
      let runsNow := old.map (·.val) == some v
      if into && !runsNow then (s.useRecord 3 n, some v)
      else if !into && runsNow then
        match best (r.filter (· != v)) with | some w => (s.useRecord 3 n, some w) | none => (s, some v)
      else (s, if runsNow then some v else best (r.filter (· != v)))
    | none => (s, best r)
  | none => (s, best r)

/-- A boundary: the slice is charged, and the next device is selected (R401). -/
def State.boundary (s : State) (set : Nat) : State :=
  let old := (vat s.sets set ClSet.reset).running
  let s := match old with | some v => s.chargeSlice v | none => s
  let s := (s.noteSet set).setFloor set
  let excl := match old with | some v => (match s.vdev? v with | some d => d.excl | none => false) | none => false
  let (s, sel) := if excl then (s, old.map (·.val)) else s.select set old
  let put := fun (s : State) (f : ClSet → ClSet) => ({ s with sets := vput s.sets set (f (vat s.sets set ClSet.reset)) } : State)
  match sel with
  | none => put s fun x => { x with running := none, next := none }
  | some v =>
    let nv : Option (Fin 512) := if h : v < 512 then some ⟨v, h⟩ else none
    if old = nv then put s fun x => { x with sliceStart := s.ioClk }
    else
      let s := s.captureSwitch set old nv
      let s := match old with | some o => s.planSwitch set o v | none => s
      put s fun x => { x with next := nv }

/-- A switch is over: no eviction is left, nothing parked or stored of the device can come back, and no new truss of it can start (R402). -/
def State.switchDone (s : State) (set vd : Nat) : Bool :=
  !s.evicting set && !s.unparking (fun t => t.ofVd vd) && !s.restoring vd &&
  match s.vdev? vd with
  | some d => (s.admitFor vd d).trusses.length == s.trusses.length
  | none => true

/-- The scheduler of a cluster set: a boundary when the slice ends, when the running device stops being runnable, or when a device
becomes runnable in an idle set; or the end of a switch. -/
def sliceStep (s : State) (set : Fin 32) : State :=
  let x := vat s.sets set ClSet.reset
  if !x.defined then s
  else
    let s := s.noteSet set
    match x.next, x.running with
    | some v, _ =>
      if s.switchDone set v then
        { s with sets := vput s.sets set { vat s.sets set ClSet.reset with running := some v, next := none, sliceStart := s.ioClk } }
      else s
    | none, some v =>
      if !s.isRunnable v then s.boundary set else (s.advanceTo ((x.sliceEnd * 3 + 1) / 2)).boundary set
    | none, none => if (s.holders set).any s.isRunnable then s.boundary set else s

def execSliceBoundary (set : Fin 32) (s : State) : Out := .next (sliceStep s set)

end Sys2Proof.Machine
end

