-- ==== Sys2Proof/Machine/Queue.lean ====
section
/-!
DEFINITION. Queues from the host: kicks, submissions, packets, retirement, the mapping of queues to slots and the fallback scheduler (14
R331, R332; 15 R336 to R355).
-/
namespace Sys2Proof.Machine

/-! ### Queue control blocks -/

def Qcb.units (b : Qcb) : Nat := 2 ^ b.rsz
/-- The queue processor of a mapped queue. -/
def Qcb.qp (b : Qcb) : Nat := match b.slot with | some n => n.val / 32 | none => 0
/-- The agent of a queue's thread (R472). -/
def Qcb.agent (b : Qcb) : Agent := ⟨2, 4, 0xFF, b.qp⟩
/-- The address of a unit count in the ring (R338). -/
def Qcb.unitAt (b : Qcb) (u : W32) : Nat := b.rbase + 32 * (u.toNat % b.units)

/-- The I/O-die counter (R27). -/
def State.ioNow (s : State) : Nat := (s.dieCtr 2).toNat

/-- The pending bit is set; WAITSINCE is recorded when it was clear (R341). -/
def Qcb.pend (b : Qcb) (io : Nat) : Qcb :=
  { b with pending := true, waitSince := if b.pending then b.waitSince else BitVec.ofNat 48 io }

/-! ### Kicks and submissions (R332, R339 to R341) -/

/-- The kick-page map entry of a kick register (R226). -/
def State.kickEntry (s : State) (vd j : Nat) : W32 := tget 0 s.kickMap (vd * 512 + j)

/-- A new tail is applied when it moves forward (R332); a kick to a queue that is UNMAPPED sets its pending bit (R341). -/
def Qcb.kick (b : Qcb) (io : Nat) (t : W32) : Qcb :=
  let d := (t - b.tail).toNat
  let b := { b with tail := if 1 ≤ d ∧ d < 2 ^ 31 then t else b.tail }
  if b.st = .unmapped then b.pend io else b

/-- A kick or submission to a queue that was UNMAPPED wakes the scheduler of mappings (R341, R351). -/
def State.wakeFor (s : State) (b : Qcb) : State := { s with passesDue := s.passesDue + (b.st == .unmapped).toNat }

/-- A posted write to a kick register. -/
def kickStep (s : State) (vd j : Nat) (t : W32) : State :=
  if (s.vdev? vd).isNone then s
  else
    let e := s.kickEntry vd j
    let blk := bits e.toNat 15 0
    match s.qcb? blk with
    | none => s.discard
    | some b =>
      if !e.getLsbD 31 || e.getLsbD 30 then s.discard
      else if b.units < (t - b.retire).toNat then s.discard.haltQueue blk 8 b.eseq
      else (s.modQcb blk fun b => b.kick s.ioNow t).wakeFor b

def execKickWrite (vd j : Fin 512) (tail : W32) (s : State) : Out := .next (kickStep s vd j tail)

/-- The device answers a deferrable write. -/
def State.complete (s : State) (c : Completion) : State := { s with hostOut := s.hostOut ++ [HostOut.completion c] }

/-- The places of units from a unit count on; none when one is not reached. -/
def State.unitPlaces (s : State) (b : Qcb) (u : W32) : (n : Nat) → State × Except Phase (List Place)
  | 0 => (s, .ok [])
  | n + 1 =>
    let r := s.reach b.agent b.vd (b.unitAt u) ⟨true, false, true⟩
    match r.2.2 with
    | none => (r.1, .error r.2.1)
    | some pl =>
      if pl.prm then (r.1, .error (.failed 0x13 0xA3))
      else match r.1.unitPlaces b (u + 1) n with
        | (s, .error ph) => (s, .error ph)
        | (s, .ok pls) => (s, .ok (pl :: pls))

/-- Units written one after another from a unit count on, each at its home; none is written where a place is not reached (R340). -/
def State.putUnits (s : State) (b : Qcb) (u : W32) (xs : List (List Byte)) : State × Option Phase :=
  match s.unitPlaces b u xs.length with
  | (s, .error ph) => (s, some ph)
  | (s, .ok pls) =>
    ((pls.zip xs).foldl (fun s x =>
      let m := s.bank x.1.host
      s.putBank b.vd x.1.host x.1.pa 32 ⟨writeBytes m.m x.1.pa x.2, psnWrite m.psn x.1.pa 32 false⟩) s, none)

/-- A write to a submission page. A ring page that must first be serviced answers Retry, one that ends in PERM halts the queue (log
38). -/
def submitStep (s : State) (vd j : Nat) (posted : Bool) (off : Nat) (data : List Byte) : State :=
  if posted then s.discard
  else if (s.vdev? vd).isNone then s.complete .unsupported
  else
    let e := s.kickEntry vd j
    let blk := bits e.toNat 15 0
    match s.qcb? blk with
    | none => s.complete .unsupported
    | some b =>
      if !e.getLsbD 31 || !e.getLsbD 30 || data.length ≠ 128 || off % 128 ≠ 0 || 4096 ≤ off then s.complete .unsupported
      else if b.st = .halted || b.units < (b.tail - b.retire).toNat + 4 then s.complete .retry
      else match s.putUnits b b.tail (pieces 32 4 data) with
        | (s, none) =>
          ((s.modQcb blk fun b =>
            let b := { b with tail := b.tail + 4 }
            if b.st = .unmapped then b.pend s.ioNow else b).wakeFor b).complete .successful
        | (s, some (.failed ..)) => (s.haltQueue blk 5 b.eseq).complete .retry
        | (s, some _) => s.complete .retry

def execSubmissionWrite (vd j : Fin 512) (posted : Bool) (off : Nat) (data : List Byte) (s : State) : Out :=
  .next (submitStep s vd j posted off data)

/-! ### The thread's accesses -/

/-- `n` bytes read for a thread, within one page. -/
def State.queueRead (s : State) (b : Qcb) (va n : Nat) : State × Except Phase (List Byte) :=
  if 2 ^ 57 ≤ va then (s, .error (.failed 0x13 0xA5))
  else
    let r := s.reach b.agent b.vd va ⟨false, false, true⟩
    match r.2.2 with
    | some pl =>
      if pl.prm then (r.1, .error (.failed 0x13 0xA3))
      else (if pl.host then r.1 else r.1.touchRange b.vd pl.pa n false, .ok (readBytes (r.1.bank pl.host).m pl.pa n))
    | none => (r.1, .error r.2.1)

/-- The same as an acquire (R331, R347): bytes of a release that includes the queue processor wait for what the release comes after. -/
def State.queueAcquire (s : State) (b : Qcb) (va n : Nat) : State × Except Phase (List Byte) :=
  let hidden := match (s.reach b.agent b.vd va ⟨false, false, true⟩).2.2 with
    | some pl => s.earlyHides b.vd pl.host.toNat pl.pa n
    | none => false
  if hidden then (s, .error .untranslated) else s.queueRead b va n

/-- `n` bytes written for a thread, within one page. -/
def State.queueWrite (s : State) (b : Qcb) (va : Nat) (data : List Byte) : State × Except Phase Unit :=
  if 2 ^ 57 ≤ va then (s, .error (.failed 0x13 0xA5))
  else
    let r := s.reach b.agent b.vd va ⟨true, false, true⟩
    match r.2.2 with
    | some pl =>
      if pl.prm then (r.1, .error (.failed 0x13 0xA3))
      else
        let m := r.1.bank pl.host
        (r.1.putBank b.vd pl.host pl.pa data.length
          ⟨writeBytes m.m pl.pa data, psnWrite m.psn pl.pa data.length false⟩, .ok ())
    | none => (r.1, .error r.2.1)

/-- A ring fetch that does not end: the thread stops on a replayable fault, and PERM halts the queue (R353). -/
def State.fetchFault (s : State) (blk : Nat) (seq : W32) (ph : Phase) : State :=
  match ph with
  | .failed .. => s.haltQueue blk 5 seq
  | ph => s.modQcb blk fun b => { b with st := .faulted, wait := ph, ringAt := some seq }

/-! ### Packets as bytes (R342) -/

def pkWord (p : List Byte) (i : Nat) : Nat := bytesNat ((p.drop i).take 8)
def pkW0 (p : List Byte) : Nat := pkWord p 0
def pkSeq (p : List Byte) : W32 := BitVec.ofNat 32 (pkW0 p / 2 ^ 32)
def pkFlags (p : List Byte) : Nat := bits (pkW0 p) 31 17
def pkOrd (p : List Byte) : Bool := bit (pkW0 p) 16
def pkSize (p : List Byte) : Nat := bits (pkW0 p) 10 8
def pkType (p : List Byte) : Nat := bits (pkW0 p) 7 0

/-- SIZE lies within the type's limits (R344). -/
def sizeOk (ty n : Nat) : Bool :=
  match ty with
  | 0 => true | 1 => n == 3 | 2 | 3 | 5 => n == 1 | 4 | 6 => n == 0 | _ => false

/-- FLAGS bits that a type assigns. -/
def flagBits (ty : Nat) : Nat := match ty with | 2 => 0x1F | 3 => 7 | 4 => 1 | 6 => 7 | _ => 0

def allZero (p : List Byte) (i n : Nat) : Bool := ((p.drop i).take n).all (· == 0)

/-- The body of a packet breaks a rule of its type (R344, R346 to R350). Bytes that a type's table does not name count as reserved: bytes
26 to 31 of a COND, and those after a SIGNAL's fields (DESIGN CHOICE, log 63: R350 and R348 do not call them reserved). -/
def bodyBad (p : List Byte) : Bool :=
  let f := pkFlags p
  let a := pkWord p 16
  match pkType p with
  | 1 => pkWord p 104 % 8 != 0
  | 2 => !allZero p 40 24 || 3 < bits f 3 1 || a % (if !bit f 0 || bit f 4 then 8 else 4) != 0
  | 3 => !allZero p 32 32 || bits f 1 0 == 3 || (bits f 1 0 == 2 && (64 ≤ a || !allZero p 24 8)) ||
      (bits f 1 0 < 2 && a % (if bits f 1 0 = 0 || bit f 2 then 8 else 4) != 0)
  | 4 => !allZero p 26 6 || a % 4 != 0
  | 5 => !allZero p 40 24 || pkWord p 32 == 0 || 2 ^ 32 ≤ pkWord p 32
  | 6 => !allZero p 16 16 || (f != 3 && f != 5)
  | _ => false

/-- The first check of R343 that a packet fails. -/
def packetErr (b : Qcb) (p : List Byte) : Option (BitVec 8) :=
  let w1 := pkWord p 8
  if pkSeq p ≠ b.eseq then some 1
  else if bits w1 8 0 ≠ b.vd.val then some 2
  else if 6 < pkType p || !sizeOk (pkType p) (pkSize p) then some 3
  else if bits (pkW0 p) 15 11 ≠ 0 || bits w1 63 9 ≠ 0 || pkFlags p &&& flagBits (pkType p) ≠ pkFlags p || bodyBad p then some 4
  else none

/-! ### Fetch (R343) -/

/-- Where the next packet to fetch begins, and its place in sequence. -/
def Qcb.fetchAt (b : Qcb) : W32 := b.head + BitVec.ofNat 32 ((b.look.map fun p => pkSize p + 1).sum)

/-- Units read one after another. -/
def State.getUnits (s : State) (b : Qcb) (u : W32) : (n : Nat) → State × Except Phase (List Byte)
  | 0 => (s, .ok [])
  | n + 1 =>
    match s.queueRead b (b.unitAt u) 32 with
    | (s, .error ph) => (s, .error ph)
    | (s, .ok x) =>
      match s.getUnits b (u + 1) n with
      | (s, .error ph) => (s, .error ph)
      | (s, .ok y) => (s, .ok (x ++ y))

/-- A thread that may act: its queue is mapped and RUNNING, its device is ACTIVE. -/
def State.threadRuns (s : State) (b : Qcb) : Bool := b.st == .running && b.slot.isSome && s.active b.vd && !b.wait.waits

/-- The fallback scheduler serves the queue's slot (R354). -/
def State.fallback (s : State) (b : Qcb) : Bool := b.slot.isSome && vat s.qpFallback b.qp false

/-- The place in sequence of the packet whose ring fetch has ended in PERM (R353). -/
def Qcb.ringFailed (b : Qcb) : Option W32 := match b.wait with | .failed .. => b.ringAt | _ => none

/-- The access of the packet that is to issue has ended in PERM (R346). -/
def Qcb.packetFailed (b : Qcb) : Bool := match b.wait with | .failed .. => b.ringAt.isNone | _ => false

/-- A ring fetch that ended in PERM halts the queue. -/
def State.haltRing (s : State) (blk : Nat) (seq : W32) : State :=
  (s.modQcb blk fun b => { b with wait := .untranslated, ringAt := none }).haltQueue blk 5 seq

/-- The thread fetches one packet into its lookahead: at most 16, and never past TAIL. -/
def fetchPacket (s : State) (blk : Nat) : State :=
  match s.qcb? blk with
  | none => s
  | some b =>
    let at_ := b.fetchAt
    let left := (b.tail - at_).toNat
    let seq := b.eseq + BitVec.ofNat 32 b.look.length
    if !s.threadRuns b || b.packetFailed || 16 ≤ b.look.length || left = 0 || b.units < left then s
    else match b.ringFailed with
      | some q => s.haltRing blk q
      | none =>
        match s.getUnits b at_ 1 with
        | (s, .error ph) => s.fetchFault blk seq ph
        | (s, .ok h) =>
          if left < pkSize h + 1 then s
          else match s.getUnits b at_ (pkSize h + 1) with
            | (s, .error ph) => s.fetchFault blk seq ph
            | (s, .ok p) => s.modQcb blk fun b => { b with look := b.look ++ [p], wait := .untranslated, ringAt := none }

def execPacketFetch (blk : Nat) (s : State) : Out :=
  .next (match s.qcb? blk with | some b => if s.fallback b then s else fetchPacket s blk | none => s)

/-! ### Issue (R342 to R344) -/

/-- A packet has issued: HEAD and ESEQ rise, and its handle is kept. -/
def Qcb.issued (b : Qcb) (p : List Byte) (st : Inflight) : Qcb :=
  { b with head := b.head + BitVec.ofNat 32 (pkSize p + 1), eseq := b.eseq + 1, look := b.look.drop 1,
           infl := b.infl ++ [⟨pkSeq p, pkSize p + 1, st, .untranslated⟩], wait := .untranslated, ringAt := none }

/-- A packet acts once every earlier packet has retired (R344). -/
def waitsForAll (p : List Byte) : Bool := pkOrd p || pkType p = 3 || pkType p = 4 || pkType p = 6

/-- What the issue of a packet of the right kind comes to. -/
inductive Issued where
  | ok (s : State) (st : Inflight)
  /-- The packet issues, and halts the queue (R346). -/
  | halt (s : State) (err : BitVec 8)
  /-- An address must first be serviced. -/
  | wait (s : State) (ph : Phase)

/-- A recorded digest that differs halts the queue with BADPKT; else the packet is captured (R447). -/
def State.digestPacket (s : State) (b : Qcb) (blk : Nat) (p : List Byte) : State × Bool :=
  match s.compareDigest b.vd 1 blk (pkSeq p) p with
  | (s, true) => (s, true)
  | (s, false) => (s.captureDigest b.vd 1 (blk * 2 ^ 8 + (pkSeq p).toNat * 2 ^ 32) p, false)

/-- A packet that issues is digested first: with a recorded digest that differs it does not (R447). -/
def State.digested (s : State) (b : Qcb) (blk : Nat) (p : List Byte) (issue_ : State → State) : State :=
  match s.digestPacket b blk p with
  | (s, true) => s.haltQueue blk 4 b.eseq
  | (s, false) => issue_ s

/-- THE ISSUE OF A PACKET: the header is read again, the packet is checked, and it acts by `f`, or is passed over by a COND's skip. `mine`
says which packets this step is for. -/
def State.issuePacket (s : State) (blk : Nat) (mine : List Byte → Bool) (f : State → Qcb → List Byte → Issued) : State :=
  match s.qcb? blk with
  | none => s
  | some b =>
    match b.look with
    | [] => s
    | p :: _ =>
      if !s.threadRuns b || !mine p || 16 ≤ b.infl.length || (b.skip = 0 && waitsForAll p && !b.infl.isEmpty) then s
      else match b.ringFailed with
      | some q => s.haltRing blk q
      | none =>
        match s.queueRead b (b.unitAt b.head) 16 with
        | (s, .error ph) => s.fetchFault blk b.eseq ph
        | (s, .ok h) =>
          if h ≠ p.take 16 then s.modQcb blk fun b => { b with look := [] }
          else match packetErr b p with
            | some e => s.haltQueue blk e b.eseq
            | none =>
              if b.skip ≠ 0 then s.digested b blk p fun s => s.modQcb blk fun b => { b.issued p .done with skip := b.skip - 1 }
              else if b.packetFailed then s.digested b blk p fun s => (s.modQcb blk fun b => b.issued p .done).haltQueue blk 5 (pkSeq p)
              else
                match f s b p with
                | .wait s ph => s.modQcb blk fun b => { b with wait := ph, ringAt := none }
                | _ => s.digested b blk p fun s =>
                  match f s b p with
                  | .ok s st => s.modQcb blk fun b => b.issued p st
                  | .halt s e => (s.modQcb blk fun b => b.issued p .done).haltQueue blk e (pkSeq p)
                  | .wait s ph => s.modQcb blk fun b => { b with wait := ph, ringAt := none }

/-- A step of the queue processor's firmware; where the fallback scheduler serves the slot, it does nothing (R354). -/
def State.firmware (s : State) (blk : Nat) (f : State → Nat → State) : State :=
  match s.qcb? blk with | some b => if s.fallback b then s else f s blk | none => s

/-- How an access that does not end leaves a packet. -/
def Issued.of (s : State) (ph : Phase) : Issued := match ph with | .failed .. => .halt s 5 | ph => .wait s ph

/-! ### NOP and LAUNCH (R344, R345) -/

/-- A NOP, or a packet whose type or size is none. -/
def issueNop (s : State) (blk : Nat) : State := s.issuePacket blk (fun p => pkType p = 0 || 6 < pkType p) fun s _ _ => .ok s .done

def execPacketNop (blk : Nat) (s : State) : Out := .next (s.firmware blk issueNop)

/-- The fields of a partition word: its reserved bits are ignored (R5, R231). -/
def partMask : W64 := BitVec.ofNat 64 (0x3F + 0x3F * 2 ^ 8 + 0x3F * 2 ^ 16 + 0x3FF * 2 ^ 24 + 0x1F * 2 ^ 40)

/-- The items of a LAUNCH. -/
def launchItems (p : List Byte) : LaunchItems :=
  let shape := pkWord p 56
  let grid := pkWord p 48
  let w := fun i => BitVec.ofNat 64 (pkWord p i)
  { kernel := BitVec.ofNat 64 (pkWord p 16 % 2 ^ 57), handler := BitVec.ofNat 64 (pkWord p 24 % 2 ^ 57), tblBase := pkWord p 32 % 2 ^ 57,
    tblCnt := bits shape 56 48, part := w 40 &&& partMask, gx := bits grid 31 0, gy := bits grid 47 32, gz := bits grid 63 48,
    courses := bits shape 4 0, span := bits shape 11 8, regs := if bits shape 23 16 = 0 then 256 else bits shape 23 16,
    progress := bits shape 25 24, strict := bit shape 26, guarded := bit shape 27, tkmask := BitVec.ofNat 16 (bits shape 47 32),
    roles := BitVec.ofNat 32 (pkWord p 64), arg := w 72, g5 := w 80, g6 := w 88, g7 := w 96, statusAddr := pkWord p 104 % 2 ^ 57 }

/-- The partition word is in range (R231). -/
def partOk (w : W64) : Bool :=
  1 ≤ partReg w && partReg w + partScr w + partAcc w ≤ 32 &&
  partScrt w ≤ 512 && partScrt w ≤ 16 * partScr w && partAcct w ≤ 16 && partAcct w ≤ partAcc w

/-- Every item is in range, and one truss fits on an empty core (R30, R231). -/
def LaunchItems.ok (i : LaunchItems) : Bool :=
  1 ≤ i.gx && i.gx ≤ 2 ^ 31 && 1 ≤ i.gy && 1 ≤ i.gz && i.total ≤ 2 ^ 31 &&
  1 ≤ i.span && i.span ≤ 8 && i.total % i.span == 0 && 1 ≤ i.courses && i.courses ≤ 16 && partOk i.part &&
  16 ≤ i.regs && i.regs % 8 == 0 && i.progress != 3 && i.kernel.toNat % 8 == 0 && i.handler.toNat % 8 == 0 && i.tblCnt ≤ 256 &&
  i.tkmask &&& 0xF000 == 0 && i.arg.toNat < 2 ^ 57 && i.courses * footprint i.regs ≤ partReg i.part * unitBytes

/-- A LAUNCH goes to the launch distributor; one with a bad item completes with LAUNCHBAD (R30, R470). -/
def launchPacket (s : State) (blk : Nat) (b : Qcb) (p : List Byte) : Issued :=
  let i := launchItems p
  let l : Launch := { vd := b.vd, blk := blk, seq := pkSeq p, items := i, admitted := if i.ok then 0 else i.total,
                      status := if i.ok then 0 else 2, complete := false, wait := .untranslated }
  .ok { s with launches := s.launches ++ [l] } (.launch s.launches.length)

def issueLaunch (s : State) (blk : Nat) : State := s.issuePacket blk (fun p => pkType p = 1) fun s b p => launchPacket s blk b p

def execPacketLaunch (blk : Nat) (s : State) : Out := .next (s.firmware blk issueLaunch)

/-! ### WAIT (R347) -/

/-- A promise operation of a queue, with its number. -/
def State.queueProm (s : State) (blk : Nat) (b : Qcb) (op : POp) (va : Nat) (rel : Bool) (acq : Option Scope) : State × Nat :=
  let q : PromOp := { id := s.nextId, who := .queue blk, vd := b.vd, op := op, va := va, phase := .untranslated,
                      phase2 := .performed, waiting := none, rel := rel, relTrs := false, acqScope := acq, sent := s.clk }
  ({ s with proms := s.proms ++ [q], nextId := s.nextId + 1 }, s.nextId)

def issueWaitPromise (s : State) (blk : Nat) : State :=
  s.issuePacket blk (fun p => pkType p = 2 && !bit (pkFlags p) 0) fun s b p =>
    if 2 ^ 57 ≤ pkWord p 16 then .halt s 5
    else
      let r := s.queueProm blk b .pwait (pkWord p 16) false (some .sys)
      .ok (r.1.modQcb blk fun b => { b with st := .blocked }) (.waitProm r.2)

def execPacketWaitPromise (blk : Nat) (s : State) : Out := .next (s.firmware blk issueWaitPromise)

def issueWaitMemory (s : State) (blk : Nat) : State :=
  s.issuePacket blk (fun p => pkType p = 2 && bit (pkFlags p) 0) fun s _ p =>
    .ok (s.modQcb blk fun b => { b with st := .blocked, polled := s.ioClk })
      (.waitMem (pkWord p 16) (BitVec.ofNat 64 (pkWord p 24)) (BitVec.ofNat 64 (pkWord p 32)) (bits (pkFlags p) 3 1) (bit (pkFlags p) 4))

def execPacketWaitMemory (blk : Nat) (s : State) : Out := .next (s.firmware blk issueWaitMemory)

/-- A packet of a queue has completed. -/
def Qcb.finish (b : Qcb) (st : Inflight) : Qcb :=
  { b with infl := b.infl.map fun p => if p.st = st then { p with st := .done } else p }

/-- The memory WAIT of a queue that has issued and not completed. -/
def Qcb.memWait (b : Qcb) : Option (Packet × Nat × W64 × W64 × Nat × Bool) :=
  b.infl.findSome? fun p => match p.st with | .waitMem a v m c w => some (p, a, v, m, c, w) | _ => none

/-- The condition of a memory WAIT (R347). -/
def waitHolds (x v : Nat) (cond : Nat) : Bool :=
  match cond with | 0 => x == v | 1 => x != v | 2 => v ≤ x | _ => x < v

/-- A memory WAIT reads its word, every 1,024 cycles of the I/O die; one issued before its queue halted runs on (R346). -/
def pollStep (s : State) (blk : Nat) : State :=
  match s.qcb? blk with
  | none => s
  | some b =>
    match b.memWait with
    | none => s
    | some (p, a, v, m, cond, w64) =>
      if b.slot.isNone || s.fallback b || b.wait.waits || !s.active b.vd then s
      else
        let s := s.advanceTo ((b.polled * 3 + 1) / 2)
        let go := fun (s : State) => s.modQcb blk fun b => { b.finish p.st with st := if b.st = .blocked then .running else b.st, wait := .untranslated }
        let read := match b.wait with
          | .failed c d => (s, Except.error (Phase.failed c d))
          | _ => s.queueAcquire b a (if w64 then 8 else 4)
        match read with
        | (s, .error (.failed ..)) => (go s).haltQueue blk 5 p.seq
        | (s, .error ph) => s.modQcb blk fun b => { b with wait := ph, ringAt := none }
        | (s, .ok x) =>
          let keep := if w64 then 2 ^ 64 else 2 ^ 32
          let holds := fun (x : Nat) => waitHolds ((x &&& m.toNat) % keep) (v.toNat % keep) cond
          let x := bytesNat x
          let again := s.modQcb blk fun b => { b with polled := b.polled + 1024, wait := .untranslated }
          if s.replaying b.vd then go (s.takenValue b.vd (BitVec.ofNat 64 x)).1
          else if holds x then go (s.takenValue b.vd (BitVec.ofNat 64 x)).1 else again

def execWaitPoll (blk : Nat) (s : State) : Out := .next (pollStep s blk)

/-! ### SIGNAL (R348, R349) -/

def signalKind (p : List Byte) : Nat := bits (pkFlags p) 1 0

def issueSignalFill (s : State) (blk : Nat) : State :=
  s.issuePacket blk (fun p => pkType p = 3 && signalKind p = 0) fun s b p =>
    if 2 ^ 57 ≤ pkWord p 16 then .halt s 5
    else
      let r := s.queueProm blk b (.pfill (BitVec.ofNat 64 (pkWord p 24))) (pkWord p 16) true none
      .ok r.1 (.promise r.2)

def execPacketSignalFill (blk : Nat) (s : State) : Out := .next (s.firmware blk issueSignalFill)

def issueSignalStore (s : State) (blk : Nat) : State :=
  s.issuePacket blk (fun p => pkType p = 3 && signalKind p = 1) fun s b p =>
    match s.queueWrite b (pkWord p 16) (natBytes (if bit (pkFlags p) 2 then 8 else 4) (pkWord p 24)) with
    | (s, .ok _) => .ok s .done
    | (s, .error ph) => Issued.of s ph

def execPacketSignalStore (blk : Nat) (s : State) : Out := .next (s.firmware blk issueSignalStore)

def issueSignalInterrupt (s : State) (blk : Nat) : State :=
  s.issuePacket blk (fun p => pkType p = 3 && 2 ≤ signalKind p) fun s b p => .ok (s.interrupt (b.vd * 64 + pkWord p 16)) .done

def execPacketSignalInterrupt (blk : Nat) (s : State) : Out := .next (s.firmware blk issueSignalInterrupt)

/-! ### COND, COPY and FENCE (R331, R344, R350) -/

def issueCond (s : State) (blk : Nat) : State :=
  s.issuePacket blk (fun p => pkType p = 4) fun s b p =>
    match s.queueAcquire b (pkWord p 16) 4 with
    | (s, .error ph) => Issued.of s ph
    | (s, .ok x) =>
      let (s, x) := s.takenValue b.vd (BitVec.ofNat 64 (bytesNat x))
      let skip := (x != 0) == bit (pkFlags p) 0
      let n := bytesNat ((p.drop 24).take 2)
      .ok (if skip && n ≠ 0 then s.modQcb blk fun b => { b with skip := n, look := b.look.take 1 } else s) .done

def execPacketCond (blk : Nat) (s : State) : Out := .next (s.firmware blk issueCond)

/-- Bytes of a COPY that one step moves: up to the end of both pages and of a 128-byte line. -/
def copyPiece (src dst left : Nat) : Nat :=
  Nat.min left (Nat.min 128 (Nat.min (4096 - src % 4096) (4096 - dst % 4096)))

/-- Bytes read and written on the page migration data path; poison goes along by words (R250, R344). -/
def State.moveBytes (s : State) (b : Qcb) (src dst n : Nat) : State × Except Phase Unit :=
  if 2 ^ 57 < src + n || 2 ^ 57 < dst + n then (s, .error (.failed 0x13 0xA5))
  else
    let r := s.reach b.agent b.vd src ⟨false, false, true⟩
    match r.2.2 with
    | none => (r.1, .error r.2.1)
    | some ps =>
      let q := r.1.reach b.agent b.vd dst ⟨true, false, true⟩
      match q.2.2 with
      | none => (q.1, .error q.2.1)
      | some pd =>
        if ps.prm || pd.prm then (q.1, .error (.failed 0x13 0xA3))
        else
          let from_ := q.1.bank ps.host
          let to_ := q.1.bank pd.host
          let s := if ps.host then q.1 else q.1.touchRange b.vd ps.pa n false
          let psn := (List.range n).foldl (fun (psn : Tbl Bool) i =>
            if tget false from_.psn ((ps.pa + i) / 8) then tset false psn ((pd.pa + i) / 8) true
            else if (pd.pa + i) % 8 = 0 && 8 ≤ n - i then tset false psn ((pd.pa + i) / 8) false else psn) to_.psn
          (s.putBank b.vd pd.host pd.pa n ⟨writeBytes to_.m pd.pa (readBytes from_.m ps.pa n), psn⟩, .ok ())

/-- A COPY that has issued moves its next piece; PERM halts the queue, with what is written kept (R346). -/
def State.copyStep (s : State) (blk : Nat) (b : Qcb) (p : Packet) (src dst len at_ : Nat) : State :=
  let put := fun (s : State) (st : Inflight) (ph : Phase) => s.modQcb blk fun b =>
    { b with infl := b.infl.map fun q => if q = p then { q with st := st, wait := ph } else q }
  match p.wait with
  | .failed .. => (put s .done .untranslated).haltQueue blk 5 p.seq
  | _ =>
    let n := copyPiece (src + at_) (dst + at_) (len - at_)
    match s.moveBytes b (src + at_) (dst + at_) n with
    | (s, .ok _) => put s (if len ≤ at_ + n then .done else .copy src dst len (at_ + n)) .untranslated
    | (s, .error (.failed ..)) => (put s .done .untranslated).haltQueue blk 5 p.seq
    | (s, .error ph) => put s p.st ph

/-- The source bytes of a COPY, as far as they can be read when it issues. -/
def State.copySource (s : State) (b : Qcb) (src : Nat) (n : Nat) : List Byte :=
  (List.range n).map fun i => match s.walk b.vd (src + i) ⟨false, false, true⟩ with
    | .ok w => let a := match w.l2 with | some l => l.out | none => w.l1.out
               mget (s.bank ((w.entry s b.vd (src + i) ⟨false, false, true⟩).host)).m a
    | .error _ => 0

/-- A COPY issues; its source is captured, or compared with the recorded digest (R447). -/
def issueCopy (s : State) (blk : Nat) : State :=
  s.issuePacket blk (fun p => pkType p = 5) fun s b p =>
    let len := pkWord p 32
    let st := Inflight.copy (pkWord p 16) (pkWord p 24) len 0
    if s.capturing b.vd then .ok (s.captureDigest b.vd 5 0 (s.copySource b (pkWord p 16) len)) st
    else if s.replaying b.vd then
      match s.compareDigest b.vd 5 blk (pkSeq p) (s.copySource b (pkWord p 16) len) with
      | (s, true) => .halt s 4
      | (s, false) => .ok s st
    else .ok s st

/-- The COPYs of a queue that have bytes to move. -/
def Qcb.copying (b : Qcb) : List (Packet × Nat × Nat × Nat × Nat) :=
  b.infl.filterMap fun p => match p.st with
    | .copy a c n i => if p.wait.waits then none else some (p, a, c, n, i)
    | _ => none

/-- The next packet to issue is a COPY, and the queue processor's firmware runs. -/
def State.copyMayIssue (s : State) (b : Qcb) : Bool :=
  !s.fallback b && match b.look with | p :: _ => pkType p == 5 | [] => false

/-- A COPY that has issued moves its next piece, whether or not the queue is still mapped, or the next COPY issues: nothing orders them, so
which comes first is a free choice (R344, R352). -/
def stepCopy (s : State) (blk : Nat) : State :=
  match s.qcb? blk with
  | none => s
  | some b =>
    let run := b.copying.map fun (p, a, c, n, i) => fun (s : State) => s.copyStep blk b p a c n i
    let next := if s.copyMayIssue b then [fun (s : State) => issueCopy s blk] else []
    match run ++ next with
    | [f] => f s
    | fs => match fs[Config.nextStep s.tick % fs.length]? with | some f => f s | none => s

def execPacketCopy (blk : Nat) (s : State) : Out := .next (stepCopy s blk)

/-- A FENCE issues once every earlier packet has retired; nothing of the queue is then left to release. -/
def issueFence (s : State) (blk : Nat) : State := s.issuePacket blk (fun p => pkType p = 6) fun s _ _ => .ok s .done

def execPacketFence (blk : Nat) (s : State) : Out := .next (s.firmware blk issueFence)

/-! ### Retirement (R342) -/

/-- Completed packets retire in ring order. -/
def Qcb.retireDone (b : Qcb) : Qcb :=
  let out := b.infl.takeWhile fun p => p.st == .done
  if out.isEmpty then b
  else { b with infl := b.infl.drop out.length, retire := b.retire + BitVec.ofNat 32 ((out.map (·.units)).sum), unreported := true }

def execPacketRetire (blk : Nat) (s : State) : Out := .next (s.modQcb blk Qcb.retireDone)

/-- RETIRE is written to HMIR; a write that ends in PERM is skipped and counted. -/
def reportStep (s : State) (blk : Nat) : State :=
  match s.qcb? blk with
  | none => s
  | some b =>
    let done := fun (s : State) => s.modQcb blk fun b => { b with unreported := false, hwait := .untranslated }
    if !b.unreported || b.hwait.waits then s
    else if b.hmir = 0 then done s
    else match b.hwait with
      | .failed .. => (done s).discard
      | _ =>
        match s.queueWrite b b.hmir (natBytes 4 b.retire.toNat) with
        | (s, .ok _) => done s
        | (s, .error (.failed ..)) => (done s).discard
        | (s, .error ph) => s.modQcb blk fun b => { b with hwait := ph }

def execRetireReport (blk : Nat) (s : State) : Out := .next (reportStep s blk)

/-! ### Mapping queues to slots (R351, R352) -/

/-- A WAIT that has not completed is withdrawn: it will issue again (R352). -/
def Qcb.withdrawWait (b : Qcb) : Qcb :=
  let open_ := fun (p : Packet) => match p.st with | .waitMem .. | .waitProm _ => true | _ => false
  match b.infl.find? open_ with
  | some p =>
    { b with infl := b.infl.filter fun q => !open_ q, head := b.head - BitVec.ofNat 32 p.units, eseq := b.eseq - 1 }
  | none => b

/-- The promise operation of a queue's WAIT goes with it; the fills of its SIGNALs stay. -/
def State.withdrawQueue (s : State) (blk : Nat) : State :=
  { s with proms := s.proms.filter fun p => !(match p.who with | .queue n => n == blk && p.op == .pwait | _ => false) }

/-- A queue is unmapped at an issue boundary. -/
def State.unmapQueue (s : State) (blk : Nat) : State :=
  match s.qcb? blk with
  | none => s
  | some _ =>
    (s.withdrawQueue blk).modQcb blk fun b =>
      let b := { b.withdrawWait with look := [], st := .unmapped, slot := none, wait := .untranslated, ringAt := none }
      if b.idle then b else b.pend s.ioNow

/-- A queue is mapped to a slot. -/
def State.mapQueue (s : State) (blk : Nat) (n : Fin 256) : State :=
  s.modQcb blk fun b => { b with st := .running, slot := some n, pending := false, look := [], wait := .untranslated, ringAt := none }

/-- The firmware unmaps a mapped queue that is RUNNING or BLOCKED (R352). -/
def unmapStep (s : State) (blk : Nat) : State :=
  match s.qcb? blk with
  | some b => if b.slot.isSome && (b.st = .running || b.st = .blocked) && !s.fallback b then s.unmapQueue blk else s
  | none => s

def execQueueUnmap (blk : Nat) (s : State) : Out := .next (unmapStep s blk)

/-- Time since the pending bit was set. -/
def Qcb.age (b : Qcb) (io : Nat) : Nat := (BitVec.ofNat 48 io - b.waitSince).toNat

/-- The effective priority of a pending queue (R351). -/
def Qcb.priority (b : Qcb) (io : Nat) : Nat :=
  if b.ageq = 0 then b.bprio.toNat else Nat.min 15 (b.bprio.toNat + b.age io / (1024 * b.ageq.toNat))

/-- Pending queues in the order of a pass. -/
def State.pendingQueues (s : State) : List Nat :=
  let cs := s.queues.filter fun e => e.2.pending && e.2.st == .unmapped && s.active e.2.vd
  let before := fun (x y : Nat × Qcb) =>
    let px := x.2.priority s.ioNow
    let py := y.2.priority s.ioNow
    py < px || (px == py && (y.2.age s.ioNow < x.2.age s.ioNow || (x.2.age s.ioNow == y.2.age s.ioNow && x.1 ≤ y.1)))
  (cs.mergeSort before).map (·.1)

/-- The queue of a device, among those that `ok` picks, with the lowest BPRIO, ties to the highest block number. -/
def State.victim (s : State) (vd : Nat) (ok : Qcb → Bool) : Option (Nat × Qcb) :=
  (s.qcbs.filter fun e => e.2.vd.val == vd && e.2.slot.isSome && !s.fallback e.2 && ok e.2).foldl
    (fun b e => match b with
      | some x => if e.2.bprio.toNat ≤ x.2.bprio.toNat then some e else some x
      | none => some e) none

/-- The lowest free hardware slot whose queue processor's firmware runs. -/
def State.freeSlot (s : State) : Option (Fin 256) :=
  (List.finRange 256).find? fun n => !vat s.qpFallback (n.val / 32) false && !s.qcbs.any fun e => e.2.slot == some n

/-- One candidate of a pass: the first rule of R351 that applies. -/
def State.tryMap (s : State) (blk : Nat) : State :=
  match s.qcb? blk with
  | none => s
  | some b =>
    let hqs := match s.vdev? b.vd with | some d => d.hqs | none => 0
    let held := (s.qcbs.filter fun e => e.2.vd == b.vd && e.2.slot.isSome).length
    let swap := fun (x : Nat × Qcb) => match x.2.slot with | some n => (s.unmapQueue x.1).mapQueue blk n | none => s
    match (if held < hqs then s.freeSlot else none) with
    | some n => s.mapQueue blk n
    | none =>
      match s.victim b.vd fun q => (q.st == .running && q.idle) || q.st == .blocked with
      | some x => swap x
      | none =>
        match s.victim b.vd fun q => q.st == .running && q.bprio.toNat < Nat.min 15 (b.priority s.ioNow) && q.bprio != 15 with
        | some x => swap x
        | none => s

/-- What a pass does; devices that become runnable are noticed (R197, R351). -/
def State.mapQueues (s : State) : State := (List.range 32).foldl State.noteSet (s.pendingQueues.foldl State.tryMap s)

/-- A pass of the scheduler of queue mappings: one for each wake, and for each queue become idle or BLOCKED; else the periodic one, every
65,536 cycles of the I/O die (R351). -/
def mapPass (s : State) : State :=
  match s.passesDue with
  | n + 1 => State.mapQueues { s with passesDue := n }
  | 0 =>
    let s := s.advanceTo (((s.passAt + 65536) * 3 + 1) / 2)
    State.mapQueues { s with passAt := s.passAt + 65536 }

def execQueueSchedulerPass (s : State) : Out := .next (mapPass s)

/-! ### The fallback scheduler (R354) -/

/-- A queue processor misses its heartbeat; its firmware runs again. -/
def State.setFallback (s : State) (qp : Fin 8) (on : Bool) : State :=
  if vat s.qpFallback qp false = on then s
  else ({ s with qpFallback := vput s.qpFallback qp on } : State).postEvent 0x27 2 noVd 0
    (BitVec.ofNat 64 (qp.val + on.toNat * 2 ^ 8)) 0

def execHeartbeatMiss (qp : Fin 8) (s : State) : Out := .next (s.setFallback qp true)
def execFirmwareRunningAgain (qp : Fin 8) (s : State) : Out := .next (s.setFallback qp false)

/-- The fallback scheduler visits a slot, the slots in ascending order and the first after the last: it issues the slot's packet when its
type is one it serves, or fetches (R354). -/
def visitStep (s : State) (qp : Fin 8) (slot : Fin 32) : State :=
  if !vat s.qpFallback qp false || vat s.qpCursor qp 0 ≠ slot.val then s
  else
    let s : State := { s with qpCursor := vput s.qpCursor qp ((slot.val + 1) % 32) }
    match s.qcbs.find? fun e => (e.2.slot.map (·.val)) == some (32 * qp.val + slot.val) with
    | none => s
    | some (blk, b) =>
      match b.look with
      | [] => fetchPacket s blk
      | p :: _ =>
        match pkType p with
        | 1 => issueLaunch s blk
        | 2 => if bit (pkFlags p) 0 then s else issueWaitPromise s blk
        | 3 => if signalKind p = 0 then issueSignalFill s blk else if signalKind p = 1 then issueSignalStore s blk
               else issueSignalInterrupt s blk
        | 4 | 5 | 6 => s
        | _ => issueNop s blk

def execFallbackVisit (qp : Fin 8) (slot : Fin 32) (s : State) : Out := .next (visitStep s qp slot)

end Sys2Proof.Machine
end

