-- ==== Sys2Proof/Machine/Rollback.lean ====
section
/-!
DEFINITION. Asynchronous traps, strike reports and region rollback (08 R169, 09 R184, 19 R441 to R443, R448).
-/
namespace Sys2Proof.Machine

/-! ### Asynchronous traps (R50, R169) -/

/-- An asynchronous trap can be taken now. -/
def Course.asyncOpen (k : Course) : Bool := k.cstate == .resident && !k.tm && k.frames.length < Config.trapCap

/-- A course at an instruction boundary: the merge loop has run, and a word comes next. Its quadrant has an issue left in this cycle
(R42, R169). A course whose eviction is under way takes nothing: its image holds what is pending (R52, R448). -/
def State.atBoundary (s : State) (c : CRef) : Option (State × Truss × Course) :=
  match s.truss? c.truss, s.course? c with
  | some t, some k =>
    let k := k.merge
    if s.runs t && k.asyncOpen && k.lanes != 0 && !s.quadSpent (4 * t.core + k.slot / 16) then some (s.setCourse c k, t, k) else none
  | _, _ => none

/-- Taking a pending trap, in the order debug, rollback, overflow; a rollback request is taken by the step of its own (R50, R169). -/
def asyncTrap (s : State) (c : CRef) : State :=
  match s.atBoundary c with
  | some (s, _, k) =>
    if k.debugPend then trapEntry (s.modCourse c fun k => { k with debugPend := false }) c 0x1A 0xFF 0 true
    else if k.rollbackPend then s
    else match k.ovfPend with
      | n :: ns => trapEntry (s.modCourse c fun k => { k with ovfPend := ns }) c 0x18 n.toNat 0 true
      | [] => s
  | none => s

def execAsyncTrapTaken (c : CRef) (s : State) : Out := .next (asyncTrap s c)

/-! ### Strike reports (R441, R442) -/

/-- A cycle lies in the window of a report made now (R441). -/
def State.inWindow (s : State) (t : Nat) : Bool := s.clk ≤ t + Config.strikeWindow

/-- A report of zone `zone` of a core affects the course: it issued in the quadrant, or its entry wrote a tile, within the window. -/
def State.struck (s : State) (t : Truss) (k : Course) (core zone : Nat) : Bool :=
  t.place != .gone && k.cstate != .retired &&
  if zone < 4 then k.recent.any fun x => x.2 == 4 * core + zone && s.inWindow x.1
  else match k.matWrote with | some w => w.2 == core && s.inWindow w.1 | none => false

/-- The cause record of a strike: its agent is the sensor (R412). -/
def State.strikeCause (s : State) (c : CRef) (k : Course) : Cause :=
  s.causeRec 0x15 2 7 (s.coreOf c) k.slot (k.pc.zeroExtend 64) 0

/-- A report makes a course affected: a guarded course loses what it holds from the window on and has a rollback request; another is
killed, and one that is being killed has the strike in its chain, with the DETAIL of a launch without the guarded bit (R442, R443, R448;
DESIGN CHOICE, log 88: R448 names none). -/
def State.strikeCourse (s : State) (c : CRef) (guarded : Bool) : State :=
  match s.course? c with
  | none => s
  | some k =>
    if guarded && k.cstate != .killed then
      let s := (k.quarantine.filter fun h => s.inWindow h.at_).foldl (fun s h => s.dropHeld c h) s
      s.modCourse c fun k => { k with rollbackPend := true }
    else s.killCourse c (s.strikeCause c k)

/-- A tile that a struck engine wrote within the window is poisoned (R284, R441). -/
def State.strikeTile (s : State) (x : Tile) : Tile :=
  match x.wrote with | some w => if s.inWindow w then x.markPsn else x | none => x

/-- The tile an `accst` that is held reads is poisoned: its writes are poisoned words (R442). -/
def Truss.strikeHeld (t : Truss) (hit : Nat → Bool) : Truss :=
  { t with matQ := t.matQ.map fun e => match e.body with
      | .accst acc _ _ _ tt =>
        if e.cached && (hit acc || (tt == .f64 && hit (acc + 1))) then { e with cache := [e.cache.headD [], List.range 4096] } else e
      | _ => e }

/-- The tiles of a core that its struck engine wrote, in trusses on the core, in those it has stored since, and in units left since. -/
def State.strikeTiles (s : State) (core : Nat) : State :=
  let s := s.modCore core fun c => { c with acc := c.acc.map fun e => (e.1, { e.2 with tiles := e.2.tiles.map s.strikeTile }) }
  { s with trusses := s.trusses.map fun t =>
      if t.place = .onCore core || t.place = .stored core then
        let t' : Truss := { t with tiles := t.tiles.map s.strikeTile }
        if t.items.guarded then
          t'.strikeHeld fun n => match (t.tile n).wrote with | some w => s.inWindow w | none => false
        else t'
      else t }

/-- A strike sensor reports to its core: STRKZ, event 0x22, and the courses and tiles of the zone (R441). -/
def strike (s : State) (core : Nat) (zone : Fin 5) : State :=
  let hits := ((List.range s.trusses.length).map fun n => match s.truss? n with
    | some t => (List.range t.courses.length).filterMap fun j =>
        match t.courses[j]? with
        | some k => if s.struck t k core zone then some ((⟨n, j⟩ : CRef), t.items.guarded) else none
        | none => none
    | none => []).flatten
  let s := s.modCore core fun c => { c with strkz := c.strkz ||| BitVec.ofNat 5 (2 ^ zone.val) }
  let s := s.postEvent 0x22 (dieOf core) noVd 0 (BitVec.ofNat 64 (core + zone.val * 2 ^ 8)) (s.cyc core)
  let s := { s with strikes := s.strikes + 1 }
  let s := if zone.val = 4 then s.strikeTiles core else s
  hits.foldl (fun s h => s.strikeCourse h.1 h.2) s

def execStrikeReport (core : Nat) (zone : Fin 5) (s : State) : Out := .next (if core < 192 then strike s core zone else s)

/-! ### Region rollback (R443) -/

/-- Fields of RGSTATE (R113). -/
def Course.rgV (k : Course) : Bool := k.rgstate.getLsbD 63
def Course.tdepth (k : Course) : Nat := bits k.rgstate.toNat 40 38
def Course.ddepth (k : Course) : Nat := bits k.rgstate.toNat 37 32

/-- What a rollback leaves of a hold: the region word issues again, with a wait of its own (R161, R443). -/
def Hold.rolled : Hold → Hold
  | .yield t => .yield t
  | _ => .none

/-- The return to the region's entry (R120, R443): the lanes it makes active have not executed `exit` (R164). What is left of a `dly` is
dropped, and the cycles of a `yield` stand (R161). TM returns to STM of the lowest discarded frame as R443 says, though R119 and R120 do not
name TM among what a rollback changes (DEDUCED, log 89). -/
def Course.toRegion (k : Course) (clk : Nat) : Course :=
  let k := k.closeShadows.unblock
  let n := k.frames.length - k.tdepth
  let lowest := (k.frames.take n).getLast?
  { k with frames := k.frames.drop n, tm := match lowest with | some f => f.stm | none => k.tm,
           lanes := k.rgstate.truncate 32, exited := k.exited &&& ~~~ (k.rgstate.truncate 32),
           div := k.div.drop (k.div.length - k.ddepth), bsync := none, hold := k.hold.rolled, pc := k.region, fetch := .untranslated, rollbackPend := false, lastIssue := clk }

/-- Every token drains: what has completed falls, in issue order; what meets a replayable fault is discarded inside the region and
stays outstanding before it (R184). -/
def State.drainTokens (s : State) (c : CRef) (vd : Nat) : State :=
  match s.course? c with
  | none => s
  | some k =>
    k.ops.foldl (fun s o =>
      if o.fallen then s
      else if o.done then tokenFall s c o.tk
      else if o.inRegion then s.discardOp c vd o.id
      else s) s

/-- A rollback request is taken. Held operations of the region are discarded; older ones, and whatever is in flight, drain first. -/
def rollback (s : State) (c : CRef) : State :=
  match s.atBoundary c with
  | some (s, t, k) =>
    if !k.rollbackPend || k.debugPend then s
    else if !k.rgV || k.frames.length < k.tdepth || k.div.length < k.ddepth then
      s.killCourse c (s.courseCause c 0x15 1 (k.pc.zeroExtend 64) 0)
    else match k.quarantine with
      | h :: _ => if k.regionAt < h.at_ then s.dropHeld c h else if s.releaseWaits c h then s else s.releaseHeld c h
      | [] =>
        if !k.ops.all (s.opStuck c t) then s
        else
          let s := s.drainTokens c t.vd
          match s.course? c with
          | some k => if k.gone then s else s.setCourse c (k.toRegion s.clk)
          | none => s
  | none => s

def execRegionRollback (c : CRef) (s : State) : Out := .next (rollback s c)

end Sys2Proof.Machine
end

