-- ==== Sys2Proof/Machine/Transfers.lean ====
section
/-!
DEFINITION. Transfers at the switch of their destination: what each kind does there, message matching, and reductions (16 R376 to R384;
18 R422, R431, R433 to R435; 22 R458, R459; 23 R460). An event for a transfer that has not arrived by flits is its arrival.
-/
namespace Sys2Proof.Machine

/-! ### Entries of transfers at this switch -/

def Inbound.is (i : Inbound) (x : Transfer) : Bool :=
  i.x.kind == x.kind && i.x.srcEp == x.srcEp && i.x.dstEp == x.dstEp && i.x.xid == x.xid

def State.setInbound (s : State) (i : Inbound) : State := { s with inbound := s.inbound.map fun j => if j.is i.x then i else j }
def State.dropInbound (s : State) (i : Inbound) : State := { s with inbound := s.inbound.filter fun j => !j.is i.x }

/-- It ends with a DONE to its source; a message from the unexpected queue answers nothing. -/
def State.answer (s : State) (i : Inbound) (st : BitVec 8) : State :=
  let s := s.dropInbound i
  if i.quiet then s else s.sendDone i.x st

/-- Whole: its last flit has been received. -/
def Inbound.whole (i : Inbound) : Bool := i.link.isNone

/-- What a transfer ends with when a place ends in PERM (R376). -/
def partialSt : BitVec 8 := 5
/-- OK, or POISONED (R181, R422). -/
def okOr (psn : Bool) : BitVec 8 := if psn then 6 else 0

/-! ### PUT, GETREQ, GETDATA (R376, R422, R460) -/

/-- A PUT's bytes are written as they come; then DONE (R460). -/
def State.servePut (s : State) (i : Inbound) : State :=
  let x := i.x
  if !s.active (epVd x.dstEp) then s.answer i (if i.at_ = 0 then 2 else partialSt)
  else
    match s.writeRun (switchReach (epVd x.dstEp)) (x.addr.toNat + i.at_) i.at_ x.poison x.data.length (x.data.drop i.at_) with
    | (s, n, bad, stop) =>
      let i := { i with at_ := i.at_ + n, psn := i.psn || bad, wait := .untranslated }
      match stop with
      | some (.failed .., _) => s.answer i partialSt
      | some (ph, _) => s.setInbound { i with wait := ph }
      | none => if i.whole then s.answer i (okOr i.psn) else s.setInbound i

/-- The bytes asked for are read and sent; those before a place that ends in PERM are sent too (R376). -/
def State.serveGetReq (s : State) (i : Inbound) : State :=
  let x := i.x
  if !s.active (epVd x.dstEp) then s.answer i 2
  else
    match s.readRun (switchReach (epVd x.dstEp)) (x.addr.toNat + i.at_) i.at_ (x.len.toNat - i.at_) x.len.toNat with
    | (s, out) =>
      let x := { x with data := x.data ++ out.bytes, poison := x.poison ++ out.psn }
      let i := { i with x := x, at_ := i.at_ + out.bytes.length, wait := .untranslated }
      let reply := fun (s : State) =>
        s.sendTransfer { x with kind := .getData, srcEp := x.dstEp, dstEp := x.srcEp, addr := 0, len := BitVec.ofNat 64 x.data.length } false
      match out.stop with
      | some (.failed .., _) => (if x.data.isEmpty then s else reply s).answer i partialSt
      | some (ph, _) => s.setInbound { i with wait := ph }
      | none => reply (s.dropInbound i)

/-- The reacher of a transfer's own entry, for its local bytes. -/
def State.entryReach (s : State) (o : Outgoing) : Reacher :=
  match s.truss? o.truss with
  | some t =>
    match t.netQ.find? fun e => e.id == o.entry with
    | some e => ⟨t.entryAgent e 3, t.space, !t.kernelMode⟩
    | none => switchReach o.vd
  | none => switchReach o.vd

/-- A local place of a transfer ends in a fault: the entry ends with it (R376). -/
def State.faultOutgoing (s : State) (o : Outgoing) (h : Halted) : State :=
  let s : State := { s with outgoing := s.outgoing.filter fun p => p.xid != o.xid, gathers := s.gathers.filter fun g => g.xid != o.xid }
  match (s.truss? o.truss).bind fun t => t.netQ.find? fun e => e.id == o.entry with
  | some e => s.endEntry o.truss .net (e.halt h) [] false 0
  | none => s

/-- The bytes of an `fcopy` between two other places go on to the second (R378). -/
def State.passOn (s : State) (o : Outgoing) (i : Inbound) (dst : BitVec 16) : State :=
  let xid := s.nextXid
  let x := i.x
  let s : State := { s.dropInbound i with
    nextXid := xid + 1,
    outgoing := (s.outgoing.filter fun p => p.xid != o.xid) ++
      [{ o with xid := xid, kind := .put, dstEp := dst, loc := x.data.length, acked := false, thru := none }] }
  s.sendTransfer { x with kind := .put, srcEp := s.ownEp o.vd, dstEp := dst, xid := xid, addr := BitVec.ofNat 64 o.loc } true

/-- GETDATA bytes are written at the requester's homes (R325, R422). -/
def State.serveGetData (s : State) (i : Inbound) : State :=
  let x := i.x
  match s.outgoing.find? fun o => o.xid == x.xid && o.kind == .getReq with
  | none => s.dropInbound i
  | some o =>
    match o.thru with
    | some dst => if i.whole then s.passOn o i dst else s
    | none =>
      match s.writeRun (s.entryReach o) (o.loc + i.at_) i.at_ x.poison x.data.length (x.data.drop i.at_) with
      | (s, n, bad, stop) =>
        let i := { i with at_ := i.at_ + n, psn := i.psn || bad, wait := .untranslated }
        match stop with
        | some (.failed c d, va) => (s.dropInbound i).faultOutgoing o (.failed c d, va)
        | some (ph, _) => s.setInbound { i with wait := ph }
        | none =>
          if !i.whole then s.setInbound i
          else if x.data.length = o.len then (s.dropInbound i).endOutgoing o.xid (okOr i.psn)
          else s.dropInbound i

/-! ### Messages (R381, R382) -/

/-- The message takes the oldest posted receive that it matches, or joins the unexpected queue, or is refused with BUSY (R381). -/
def State.matchMsg (s : State) (i : Inbound) : State :=
  let x := i.x
  let vd := epVd x.dstEp
  match s.vdev? vd with
  | none => s.answer i 2
  | some d =>
    let src := s.sourceIndex vd x.srcEp
    let tag : W32 := x.addr.truncate 32
    match d.recvs.find? fun r => matches_ r.mw src tag with
    | some r => (s.modVdev vd fun d => { d with recvs := d.recvs.erase r }).setInbound { i with rv := some r }
    | none =>
      let bytes := (d.umsgs.map fun m => m.data.length).sum + x.data.length
      if Config.recvCap ≤ d.umsgs.length || Config.unexpectedBytes < bytes || Config.recvCap ≤ d.recvs.length then s.answer i 1
      else (s.modVdev vd fun d => { d with umsgs := d.umsgs ++ [⟨src, tag, x.data, x.poison⟩] }).answer i (okOr (!x.poison.isEmpty))

/-- The agent and space of a posted receive. -/
def State.recvReach (s : State) (vd : Nat) (r : Recv) : Reacher :=
  match s.truss? r.who.truss, s.course? r.who with
  | some t, some k => ⟨t.agent k 3, t.space, !t.kernelMode⟩
  | _, _ => switchReach vd

/-- A paired message: the bytes that fit, then the record; then both sides complete (R381, R382). The sender learns of the payload only. -/
def State.deliverMsg (s : State) (i : Inbound) (r : Recv) : State :=
  let x := i.x
  let vd := epVd x.dstEp
  let len := x.data.length
  let got := Nat.min len r.cap
  let w := s.recvReach vd r
  let src := if i.quiet then x.srcEp else s.sourceIndex vd x.srcEp
  let fail := fun (s : State) (i : Inbound) (st : BitVec 8) (c d va : Nat) =>
    (s.modCourse r.who fun k => k.endOp (some r.op) (some ⟨c, d, BitVec.ofNat 64 va, r.op⟩) [] false 0).answer i st
  match s.writeRun w (r.buf + i.at_) i.at_ x.poison len ((x.data.take got).drop i.at_) with
  | (s, n, bad, stop) =>
    let i := { i with at_ := i.at_ + n, psn := i.psn || bad, wait := .untranslated }
    match stop with
    | some (.failed c d, va) => fail s i partialSt c d va
    | some (ph, _) => s.setInbound { i with wait := ph }
    | none =>
      let st : BitVec 8 := if r.cap < len then 5 else okOr i.psn
      let rec_ := recordBytes (BitVec.ofNat 64 (x.addr.toNat % 2 ^ 32 * 2 ^ 32 + src.toNat)) (BitVec.ofNat 64 len) (BitVec.ofNat 64 got) true st
      let k := i.at_ - got
      match s.writeRun w (r.recAddr + k) k [] 32 (rec_.drop k) with
      | (s, m, _, stop) =>
        let i := { i with at_ := i.at_ + m }
        match stop with
        | some (.failed c d, va) => fail s i (okOr i.psn) c d va
        | some (ph, _) => s.setInbound { i with wait := ph }
        | none => (s.modCourse r.who fun c => c.endOp (some r.op) none [] false st).answer i (okOr i.psn)

/-- A message that the same endpoint sent the same device earlier has not been matched: transfer numbers give the order of sending
(R381, R422). -/
def State.msgAwaits (s : State) (i : Inbound) : Bool :=
  s.inbound.any fun j => j.x.kind == .msg && j.rv.isNone && j.x.srcEp == i.x.srcEp && j.x.dstEp == i.x.dstEp &&
    j.x.xid != i.x.xid && (i.x.xid - j.x.xid).toNat < 2 ^ 31

/-- A message at its destination (R381, R431). -/
def State.serveMsg (s : State) (i : Inbound) : State :=
  if !i.whole || (i.rv.isNone && s.msgAwaits i) then s
  else
    match i.rv with
    | some r => s.deliverMsg i r
    | none => if s.active (epVd i.x.dstEp) then s.matchMsg i else s.answer i 2

/-! ### Contributions (R379, R434, R458, R459) -/

/-- One element of a reduction (R80). -/
def reduceSum (op : Nat) (vs : List Nat) : Nat :=
  if op = 2 then (vs.foldl (· + ·) 0) % 2 ^ 32
  else
    let f := if op = 0 then fmtBF16 else fmtF32
    let y := vs.foldl (fun acc v => (fAdd fmtF32 .rne (fmtF32.decode acc) (f.decode v)).1) 0
    if op = 0 then (fmtBF16.ofVal .rne (fmtF32.decode y)).1 else y

/-- The peer index of an endpoint in a group. -/
def grpIndex (w : Vector W64 8) (e : BitVec 16) : Option Nat := (List.range (grpPeers w)).find? fun j => grpPeer w j == e

/-- The elements of a transfer: value and poison. -/
def elements (sz : Nat) (data : List Byte) (psn : List Nat) : List (Nat × Bool) :=
  let ps := pieces sz (data.length / sz + 1) data
  (List.range ps.length).map fun k => (bytesNat ((ps[k]?).getD []), psn.contains (k * sz / 8))

/-- The contributions that have come of a transfer, chunk by chunk of 256 bytes, each whole (R434). -/
def splitContrib (w : Vector W64 8) (x : Transfer) (peer : Nat) : List Contribution :=
  let sz := grpSize w
  let per := 256 / sz
  let e0 := x.addr.toNat / sz
  let es := elements sz x.data x.poison
  (List.range (es.length / per + 2)).filterMap fun c =>
    let chunk := e0 / per + c
    let lo := Nat.max e0 (chunk * per)
    let hi := Nat.min ((chunk + 1) * per) (e0 + x.len.toNat / sz)
    let mine := (es.drop (lo - e0)).take (hi - lo)
    if hi ≤ lo || mine.length < hi - lo then none
    else some ⟨x.grp.toNat, chunk, peer, x.cn, lo - chunk * per, mine, List.range' (lo - chunk * per) mine.length, x.srcEp, x.xid⟩

/-- A contribution is discarded when its number is already summed or held for its peer and chunk (R434). -/
def State.stale (s : State) (c : Contribution) : Bool :=
  s.summed.any (fun (g, k, p, n) => g == c.grp && k == c.chunk && p == c.peer && c.cn.toNat ≤ n.toNat) ||
  s.contribs.any fun d => d.grp == c.grp && d.chunk == c.chunk && d.peer == c.peer && d.cn == c.cn

/-- The contributions that a sum of element `e` of a chunk takes: each peer's oldest that still holds it (R379, R434). -/
def State.sumOf (s : State) (w : Vector W64 8) (g chunk e : Nat) : Option (List Contribution) :=
  (List.range (grpPeers w)).mapM fun j =>
    s.contribs.find? fun c => c.grp == g && c.chunk == chunk && c.peer == j && c.left.contains e

/-- The next element of a group that every peer has contributed to. -/
def State.nextSum (s : State) (w : Vector W64 8) (g : Nat) : Option (Nat × Nat × List Contribution) :=
  (s.contribs.filter fun c => c.grp == g && c.peer == 0).findSome? fun c =>
    c.left.findSome? fun e => (s.sumOf w g c.chunk e).map fun cs => (c.chunk, e, cs)

/-- UNREACH before PARTIAL before POISONED before OK (R434). -/
def worse (a b : BitVec 8) : BitVec 8 :=
  let rank := fun (x : BitVec 8) => if x = 2 then 3 else if x = 5 then 2 else if x = 6 then 1 else 0
  if rank a < rank b then b else a

/-- Contributors of a group all of whose chunks have come and are summed get their DONE (R434). -/
def State.endContribs (s : State) (g : Nat) : State :=
  let ended := s.contribStats.filter fun k => k.grp == g && !k.more && !(s.contribs.any fun c => c.srcEp == k.srcEp && c.xid == k.xid)
  ended.foldl (fun s k => s.sendDone (mkTransfer .contrib k.srcEp k.dstEp k.xid) k.st)
    { s with contribStats := s.contribStats.filter fun k => !ended.contains k }

/-- An element of a chunk is done with: every contributor of the chunk takes the status, the contributions lose the element, and those
that are summed whole leave; a contributor with none left gets its DONE (R434). -/
def State.consume (s : State) (g chunk e : Nat) (cs : List Contribution) (st : BitVec 8) : State :=
  let there := s.contribs.filter fun c => c.grp == g && c.chunk == chunk
  let stats := s.contribStats.map fun k =>
    if there.any fun c => c.srcEp == k.srcEp && c.xid == k.xid then { k with st := worse k.st st } else k
  let all := s.contribs.map fun c => if cs.contains c then { c with left := c.left.filter (· != e) } else c
  let out := all.filter fun c => c.left.isEmpty
  let rest := all.filter fun c => !c.left.isEmpty
  ({ s with
    contribs := rest, contribStats := stats,
    summed := out.foldl (fun m c => (m.filter fun (a, b, p, _) => !(a == c.grp && b == c.chunk && p == c.peer)) ++
      [(c.grp, c.chunk, c.peer, c.cn)]) s.summed } : State).endContribs g

/-- Sums that are ready are written to the window, in the owner's space; a write that waits stops the run (R434). -/
def State.sumRun (s : State) (w : Vector W64 8) (g : Nat) : (fuel : Nat) → State × Option Phase
  | 0 => (s, none)
  | n + 1 =>
    match s.nextSum w g with
    | none => (s, none)
    | some (chunk, e, cs) =>
      let sz := grpSize w
      let at_ := fun (c : Contribution) => (c.elems[e - c.first]?).getD (0, false)
      let bad := cs.any fun c => (at_ c).2
      let y := reduceSum (grpOp w) (cs.map fun c => (at_ c).1)
      match s.writeRun (switchReach (grpOwner w)) (grpBase w + chunk * 256 + e * sz) 0 (if bad then [0] else []) sz (natBytes sz y) with
      | (s, _, _, some (.failed .., _)) => (s.consume g chunk e cs partialSt).sumRun w g n
      | (s, _, _, some (ph, _)) => (s, some ph)
      | (s, _, _, none) => (s.consume g chunk e cs (okOr bad)).sumRun w g n

/-- The entry of a group refuses a contribution: it is not there, or its peers, its home or the size of its elements differ (R433). -/
def grpRefuses (w : Vector W64 8) (x : Transfer) : Bool :=
  !grpV w || grpPeer w 0 != x.dstEp || (grpIndex w x.srcEp).isNone || x.len.toNat % grpSize w != 0

/-- Chunks of a transfer enter the pool as they come; the contributor is known from its first one on (R434). -/
def State.poolChunks (s : State) (x : Transfer) (g : Nat) (cs : List Contribution) (more : Bool) : State :=
  let mine := fun (k : ContribStat) => k.srcEp == x.srcEp && k.xid == x.xid
  let stats := if cs.isEmpty || s.contribStats.any mine then s.contribStats else s.contribStats ++ [⟨x.srcEp, x.xid, g, x.dstEp, 0, true⟩]
  { s with contribs := s.contribs ++ cs,
           contribStats := stats.map fun k => if mine k then { k with more := more } else k }

/-- A contribution at peer 0's switch, chunk by chunk as far as the pool has room (R379, R431, R433, R434, R459). -/
def State.serveContrib (s : State) (i : Inbound) : State :=
  let x := i.x
  let g := x.grp.toNat
  let w := s.group g
  if !s.active (epVd x.dstEp) then (s.returnOwed i).answer i 2
  else if grpRefuses w x then
    (s.returnOwed i).dropInbound i |>.sendTransfer { mkTransfer .absent x.dstEp x.srcEp x.xid with grp := x.grp } false
  else
    let come := splitContrib w x ((grpIndex w x.srcEp).getD 0)
    let cs := ((come.drop i.at_).take (contribSlots - s.contribs.length))
    let new := cs.filter fun c => !s.stale c
    let opens := new.any fun c => !(s.contribs.any fun d => d.grp == g && d.chunk == c.chunk)
    if opens && s.groupAbsent g then ((s.freeGroup g).returnOwed i).answer i 2
    else
      let over_ := i.whole && come.length ≤ i.at_ + cs.length
      let s := if s.poolFull then s else s.returnOwed i
      let i := { i with at_ := i.at_ + cs.length, owed := if s.poolFull then i.owed else 0, wait := .untranslated }
      let s := ((s.poolChunks x g new (!over_)).setInbound i).endContribs g
      match s.sumRun w g (x.data.length + 1) with
      | (s, some ph) => s.setInbound { i with wait := ph }
      | (s, none) => if over_ then s.dropInbound i else s

/-! ### Reading windows (R380, R433, R435) -/

/-- A peer reads its window and replies, or answers ABSENT; one whose device is not ACTIVE answers DONE with UNREACH (R431, R433, R435). -/
def State.serveLReq (s : State) (i : Inbound) : State :=
  let x := i.x
  let w := s.group x.grp.toNat
  let back := fun (s : State) (y : Transfer) => (s.dropInbound i).sendTransfer { y with grp := x.grp, addr := x.addr } false
  if !s.active (epVd x.dstEp) then s.answer i 2
  else if !grpV w || grpOwner w ≠ epVd x.dstEp || (grpIndex w x.srcEp).isNone || x.len.toNat % grpSize w ≠ 0 ||
      grpLen w < x.addr.toNat + x.len.toNat then back s (mkTransfer .absent x.dstEp x.srcEp x.xid)
  else
    match s.readRun (switchReach (grpOwner w)) (grpBase w + x.addr.toNat + i.at_) i.at_ (x.len.toNat - i.at_) x.len.toNat with
    | (s, out) =>
      let x := { x with data := x.data ++ out.bytes, poison := x.poison ++ out.psn }
      match out.stop with
      | some (.failed .., _) => s.answer i partialSt
      | some (ph, _) => s.setInbound { i with x := x, at_ := i.at_ + out.bytes.length, wait := ph }
      | none => back s { mkTransfer .lData x.dstEp x.srcEp x.xid with len := x.len, data := x.data, poison := x.poison }

/-- The sums of an `fmrl` are written, element by element from `done_` on (R435). -/
def State.gatherRun (s : State) (o : Outgoing) (w : Vector W64 8) (gt : Gather) : (fuel : Nat) → State × Gather × Option Halted
  | 0 => (s, gt, none)
  | n + 1 =>
    if gt.cnt ≤ gt.done_ then (s, gt, none)
    else
      let sz := grpSize w
      let k := gt.done_
      let vs := (List.range (grpPeers w)).map fun j =>
        match gt.replies.find? fun r => r.1 == j with
        | some (_, bs, ps) => (bytesNat ((bs.drop (k * sz)).take sz), ps.contains (k * sz / 8))
        | none => (0, false)
      let bad := vs.any (·.2)
      match s.writeRun (s.entryReach o) (gt.dst + k * sz) 0 (if bad then [0] else []) sz (natBytes sz (reduceSum (grpOp w) (vs.map (·.1)))) with
      | (s, _, _, some h) => (s, gt, some h)
      | (s, _, _, none) => s.gatherRun o w { gt with done_ := k + 1, psn := gt.psn || bad } n

/-- A reply is gathered; with the last one the sums are written to the destination. A peer whose reply has another group or length is absent
(R433, R435). -/
def State.serveLData (s : State) (i : Inbound) : State :=
  let x := i.x
  match s.gathers.find? fun g => g.xid == x.xid, s.outgoing.find? fun o => o.xid == x.xid && o.kind == .lReq with
  | some gt, some o =>
    if !i.whole then s
    else if x.grp.toNat ≠ gt.grp || x.len.toNat ≠ gt.cnt * grpSize (s.group gt.grp) || x.data.length ≠ x.len.toNat then
      (s.dropInbound i).endOutgoing x.xid 3
    else
      let w := s.group gt.grp
      let free := (List.range (grpPeers w)).find? fun j => grpPeer w j == x.srcEp && !(gt.replies.any fun r => r.1 == j)
      let gt := if i.at_ ≠ 0 then gt else match free with
        | some j => { gt with replies := gt.replies ++ [(j, x.data, x.poison)] }
        | none => gt
      let put := fun (s : State) (g : Gather) => ({ s with gathers := s.gathers.map fun h => if h.xid = g.xid then g else h } : State)
      if gt.replies.length < grpPeers w then put (s.dropInbound i) gt
      else
        match s.gatherRun o w gt gt.cnt with
        | (s, _, some (.failed c d, va)) => (s.dropInbound i).faultOutgoing o (.failed c d, va)
        | (s, gt, some (ph, _)) => (put s gt).setInbound { i with at_ := 1, wait := ph }
        | (s, gt, none) => (s.dropInbound i).endOutgoing x.xid (okOr gt.psn)
  | _, _ => s.dropInbound i

/-! ### DONE and ABSENT (R433, R460) -/

/-- The originating operation completes with the status; bytes still being written come first, a copy passed on in part is PARTIAL, and a peer
of an `fmrl` that cannot be reached is absent (R376, R428, R431, R433). -/
def State.serveDone (s : State) (i : Inbound) : State :=
  let x := i.x
  match s.outgoing.find? fun o => o.xid == x.xid && o.vd.val == epVd x.dstEp && (o.kind == .lReq || o.dstEp == x.srcEp) with
  | none => s.dropInbound i
  | some o =>
    if s.inbound.any fun j => j.x.kind == .getData && j.x.xid == x.xid && j.x.dstEp == x.dstEp then s
    else
      let st := if o.kind = .put && o.loc < o.len then worse partialSt x.st else if o.kind = .lReq && x.st = 2 then 3 else x.st
      (s.dropInbound i).endOutgoing x.xid st

def State.serveAbsent (s : State) (i : Inbound) : State :=
  match s.outgoing.find? fun o => o.xid == i.x.xid && o.vd.val == epVd i.x.dstEp with
  | some o => (s.dropInbound i).endOutgoing i.x.xid (if o.kind = .lReq then 3 else 2)
  | none => s.dropInbound i

/-! ### The events -/

/-- What a transfer does at its destination, by its kind. -/
def State.serve (s : State) (i : Inbound) : State :=
  match i.x.kind with
  | .put => s.servePut i
  | .getReq => s.serveGetReq i
  | .getData => s.serveGetData i
  | .msg => s.serveMsg i
  | .contrib => s.serveContrib i
  | .lReq => s.serveLReq i
  | .lData => s.serveLData i
  | .done => s.serveDone i
  | .absent => s.serveAbsent i

/-- One step of a transfer: if it has not come by flits, this is its arrival, whole; a second copy of a message or an answer is
discarded (R428). A transfer that waits for a fault service does nothing. -/
def transferStep (s : State) (kind : XKind) (x : Transfer) : State :=
  let x := { x with kind := kind }
  if s.power ≠ .ready || !s.isOwn x.dstEp then s
  else
    match s.inbound.find? fun i => i.is x with
    | some i =>
      match i.wait with
      | .failed .. => s.serve { i with wait := .untranslated }
      | w => if w.waits then s else s.serve i
    | none =>
      let once := kind == .msg || kind == .done
      if once && s.seen.contains (kind, x.srcEp, x.xid) then s
      else
        let i := mkInbound x none
        let s : State := { s with inbound := s.inbound ++ [i], seen := if once then s.seen ++ [(kind, x.srcEp, x.xid)] else s.seen }
        s.serve i

def execPut (x : Transfer) (s : State) : Out := .next (transferStep s .put x)
def execGetreq (x : Transfer) (s : State) : Out := .next (transferStep s .getReq x)
def execGetdata (x : Transfer) (s : State) : Out := .next (transferStep s .getData x)
def execMsg (x : Transfer) (s : State) : Out := .next (transferStep s .msg x)
def execContrib (x : Transfer) (s : State) : Out := .next (transferStep s .contrib x)
def execLreq (x : Transfer) (s : State) : Out := .next (transferStep s .lReq x)
def execLdata (x : Transfer) (s : State) : Out := .next (transferStep s .lData x)
def execDone (x : Transfer) (s : State) : Out := .next (transferStep s .done x)
def execAbsent (x : Transfer) (s : State) : Out := .next (transferStep s .absent x)

end Sys2Proof.Machine
end

