-- ==== Sys2Proof/Machine/Kill.lean ====
section
/-!
DEFINITION. Kill, drain, dump and release (02 R57; 09 R186; 12 R281; 13 R305; 17 R406 to R413; 19 R445).
-/
namespace Sys2Proof.Machine

/-! ### What a kill covers -/

/-- The course lies in the scope. -/
def State.covers (s : State) (k : KillScope) (c : CRef) : Bool :=
  match k with
  | .course d => d == c
  | .truss t => t == c.truss
  | .device v _ => match s.truss? c.truss with | some t => t.ofVd v | none => false

/-- Courses that `sel` picks, of trusses that still hold something. -/
def State.coursesWhere (s : State) (sel : CRef → Course → Bool) : List CRef :=
  ((List.range s.trusses.length).map fun n => match s.truss? n with
    | some t => if t.place = .gone then [] else (List.range t.courses.length).filterMap fun j => match t.courses[j]? with
        | some k => if sel ⟨n, j⟩ k then some (⟨n, j⟩ : CRef) else none
        | none => none
    | none => []).flatten

/-- The killed courses of a scope. -/
def State.killedOf (s : State) (k : KillScope) : List CRef := s.coursesWhere fun c x => x.cstate == .killed && s.covers k c

/-- The first kill at a stage, with its place in the list. -/
def State.killAt (s : State) (st : KillStage) (sel : Kill → Bool) : Option (Nat × Kill) :=
  (s.kills.zipIdx.find? fun x => x.1.stage == st && sel x.1).map fun x => (x.2, x.1)

def State.modKill (s : State) (n : Nat) (f : Kill → Kill) : State := { s with kills := s.kills.modify n f }

/-! ### Starting kills (R406, R408, R414) -/

/-- The root of a kill that the supervisor cluster orders: one of the codes of R115 (R412; log 36). -/
def State.orderedCause (s : State) : Cause :=
  { w0 := BitVec.ofNat 64 (1 + Config.killCause s.tick % 0x1B + 6 * 2 ^ 16 + 2 * 2 ^ 24 + 0xFF * 2 ^ 32), w1 := s.dieCtr 2, w2 := 0, w3 := 0 }

def State.pushKill (s : State) (scope : KillScope) (root : Cause) (mailbox : Bool) : State :=
  { s with tick := s.tick + 1,
           kills := s.kills ++ [{ scope := scope, stage := .drain, drained := [], began := s.clk, root := root, firstSlot := none,
                                  mailbox := mailbox, resets := false }] }

/-- Step 2 over a scope: every course of it that lives is killed. -/
def State.killAll (s : State) (k : KillScope) (root : Cause) : State :=
  (s.coursesWhere fun c x => !x.gone && s.covers k c).foldl (fun s c => s.killStep c root) s

/-- Steps 1 and 2 of the kill of a course or a truss (R414). -/
def State.startKill (s : State) (scope : KillScope) (mailbox : Bool) : State :=
  (s.killAll scope s.orderedCause).pushKill scope s.orderedCause mailbox

/-- Steps 1 and 2 of the kill of a device's work (R408). -/
def State.killDevice (s : State) (v : Fin 512) (destroy mailbox : Bool) : State :=
  let s := s.modVdev v fun d => { d with modeBefore := d.mode, mode := 4 }
  let gate := fun (s : State) (die : Nat) => ({ s with gates := tset false s.gates (513 * die + v.val) true } : State)
  ((gate (gate s 0) 1).raiseGen v).startKill (.device v destroy) mailbox

/-- A RESET of the device's work: its control page is reset too (R6, R414). -/
def State.resetWork (s : State) (v : Fin 512) : State :=
  let s' := s.killDevice v false true
  s'.modKill (s'.kills.length - 1) fun k => { k with resets := true }

/-- A switch into the device is under way. -/
def State.switchingTo (s : State) (v : Fin 512) : Bool := s.sets.any fun (x : ClSet) => x.next == some v

/-- A DESTROY of a device that a switch goes into waits for the end of the switch (R416). -/
def State.destroyWork (s : State) (v : Fin 512) : State :=
  if s.switchingTo v then
    { s with kills := s.kills ++ [{ scope := .device v true, stage := .wait, drained := [], began := s.clk, root := s.orderedCause,
                                    firstSlot := none, mailbox := true, resets := false }] }
  else s.killDevice v true true

/-- A kill that waited for a switch begins at its step 1 (R416). -/
def State.beginWaiting (s : State) : State :=
  match s.kills.find? fun k => k.stage == .wait with
  | some k =>
    match k.scope with
    | .device v destroy =>
      if s.switchingTo v then s
      else ({ s with kills := s.kills.filter fun x => x.stage != .wait } : State).killDevice v destroy k.mailbox
    | _ => s
  | none => s

/-! ### Core and memory pipe, with what cores and home slices hold (R281, R409) -/

/-- Every wait in a space, wherever it stands. -/
def State.phasesOf (s : State) (space : Nat) : List Phase :=
  let ofTruss := fun (n : Nat) => match s.truss? n with | some t => t.space == space | none => false
  ((s.accesses.filter fun a => ofTruss a.who.truss).map fun a => a.parts.map (·.phase)).flatten ++
  ((s.proms.filter fun p => s.promSpace p == space).map fun p => [p.phase, p.phase2]).flatten ++
  ((s.trusses.filter fun t => t.space == space).map fun t =>
    t.courses.map (·.fetch) ++ t.entries.map fun e => e.2.wait).flatten ++
  (s.cores.toList.map fun (c : Core) => (c.amsgs.filter fun m => m.vd.val == space).map (·.wait)).flatten ++
  (s.launches.filter fun l => l.vd.val == space).map (·.wait) ++
  ((s.qcbs.filter fun e => e.2.vd.val == space).map fun e => e.2.wait :: e.2.hwait :: e.2.infl.map (·.wait)).flatten ++
  (s.inbound.filter fun i => i.x.dstEp.toNat % 512 == space).map (·.wait)

/-- Some access waits on the fault's page. -/
def State.waitedOn (s : State) (f : FaultWait) : Bool :=
  (s.phasesOf f.space).any fun p => match p with
    | .wait1 va => !f.stage2 && va / 4096 == f.addr / 4096
    | .wait2 gpa => f.stage2 && !f.paging && gpa / 4096 == f.addr / 4096
    | .paging gpa => f.paging && gpa / 65536 == f.addr / 65536
    | _ => false

/-- Faults that no access waits on any longer are discarded. -/
def State.pruneFaults (s : State) : State := { s with faults := s.faults.filter fun f => f.passed || s.waitedOn f }

/-- What waits or is held is discarded (R408, R409). -/
def Access.abandon (a : Access) : Access :=
  { a with parts := a.parts.map fun p => if p.phase.waits || p.phase == .held then { p with phase := .failed 0x12 0 } else p }

def PWho.isOf (w : PWho) (cs : List CRef) : Bool := match w with | .course c .. => cs.contains c | .queue _ => false

/-- A promise operation that its course's kill withdraws (R281). -/
def PromOp.idle (p : PromOp) : Bool :=
  p.waiting.isSome || p.phase.waits || p.phase2.waits || p.phase == .held || p.phase2 == .held

/-- Pages of device memory that stage-2 tables map, as system-physical ranges; a place in host memory is none (R244, R246, R413). -/
def stage2Leaves (m : Mem) : (lvl table : Nat) → List (Nat × Nat)
  | 0, _ => []
  | lvl + 1, table =>
    ((List.range (if lvl = 4 then 16 else 512)).map fun i =>
      let e := readNat m (table + 8 * i) 8
      if !bit e 0 then []
      else if bit e 7 then if entryHost e then [] else [(bits e 51 12 * 4096, 4096 * 512 ^ lvl)]
      else stage2Leaves m lvl (bits e 51 12 * 4096)).flatten

/-- The device's promise cells leave the directory; a class that held one falls apart (R281). -/
def State.dropCells (s : State) (v : Nat) : State :=
  match s.vdev? v with
  | none => s
  | some d =>
    let pages := stage2Leaves s.mem 5 d.s2root
    let mine := fun (pa : Nat) => pages.any fun r => r.1 ≤ pa && pa < r.1 + r.2
    let hit := ((s.cells.filter fun e => mine e.1).filterMap fun e => s.findRidge e.1).dedup
    let broken := fun (c : Nat) => match s.findRidge c with | some r => hit.contains r | none => false
    let cells := (s.cells.filter fun e => !mine e.1).map fun e => if broken e.1 then (e.1, PCell.empty 1) else e
    let lost := s.proms.filter fun p => match p.waiting with | some (r, _) => hit.contains r | none => false
    let s : State := { s with cells := cells }
    lost.foldl (fun s p => if p.vd.val = v then { s with proms := s.proms.filter fun q => q.id != p.id } else s.promEnd p .unreach) s

/-- What cores, slices and service truss hold of a killed device. -/
def State.dropDevice (s : State) (v : Nat) : State :=
  let ofV := fun (c : CRef) => match s.truss? c.truss with | some t => t.ofVd v | none => false
  let s : State := { s with
    cores := s.cores.map fun (c : Core) => { c with amsgs := c.amsgs.filter fun m => m.vd.val != v },
    amsgFly := s.amsgFly.filter fun m => m.vd.val != v,
    svcRecs := s.svcRecs.map fun (rs : List (Option (CRef × Nat))) => rs.map fun r => r.bind fun x => if ofV x.1 then none else some x }
  s.dropCells v

/-- The device of a kill of a device's work. -/
def Kill.device (k : Kill) : Option (Fin 512) := match k.scope with | .device v _ => some v | _ => none

/-- The core and its memory pipe: what waits is discarded, and the rest must end by itself. -/
def State.drainCore (s : State) (k : Kill) (cs : List CRef) (force : Bool) : State × Bool :=
  let s := (s.accesses.filter fun a => cs.contains a.who).foldl (fun s a => s.settle a.abandon) s
  let s := if force then cs.foldl (fun s c => s.dropEarly c fun _ => true) s else s
  let s : State := { s with
    proms := s.proms.filter fun p => !(p.who.isOf cs && (force || p.idle)),
    accesses := s.accesses.filter fun a => !(force && cs.contains a.who) }
  let s := cs.foldl (fun s c => s.modCourse c fun x => { x with fetch := .untranslated }) s
  let s := match k.device with | some v => s.dropDevice v | none => s
  (s.pruneFaults, !(s.accesses.any fun a => cs.contains a.who) && !(s.proms.any fun p => p.who.isOf cs))

/-! ### Engines (R305, R409) -/

/-- A killed course's entries leave one queue of its truss. -/
def State.dropQueue (s : State) (c : CRef) (q : QSel) : State :=
  match s.truss? c.truss with
  | some t =>
    let ids := ((t.queue q).filter fun e => e.course == c.course).map (·.id)
    s.dropEntries c.truss fun e => ids.contains e.id
  | none => s

/-- The 128-byte destination line of element `n` of a copy. -/
def destLine (w : Vector W64 2) (ld : Layout) (cd : List Int) (n : Nat) : Option Nat :=
  (ld.range? (tplSweep w cd) n).map fun r => (bits ld.base 51 0 + r.1) / 128

/-- A running copy goes on to the end of the destination line it is writing. -/
def State.finishLine (s : State) (tn : Nat) (e : QEntry) : Nat → State
  | 0 => s
  | n + 1 =>
    match e.body with
    | .bcopy w _ ld _ cd =>
      if e.done = 0 || e.full || e.wait.waits || (destLine w ld cd e.done).isNone ||
          destLine w ld cd e.done ≠ destLine w ld cd (e.done - 1) then s
      else
        match s.copyRun tn e 1 with
        | (s, e') => s.finishLine tn e' n
    | _ => s

/-- The bulk copy engine. -/
def State.drainCopy (s : State) (cs : List CRef) : State :=
  cs.foldl (fun s c =>
    let s := match (s.truss? c.truss).bind (·.head? .copy) with
      | some e => if e.course = c.course && e.begun && !e.held then s.finishLine c.truss e 256 else s
      | none => s
    s.dropQueue c .copy) s

/-- Tiles that an entry writes. -/
def EntryBody.tiles : EntryBody → List Nat
  | .mma _ acc _ _ _ _ _ _ _ _ fmt _ => if (fmtBlock fmt.toNat).acc = 2 then [acc, acc + 1] else [acc]
  | .accz acc n => List.range' acc n
  | .accld acc _ _ _ tt => if tt = .f64 then [acc, acc + 1] else [acc]
  | .accPut acc .. => [acc]
  | .accCopy acc _ => [acc]
  | .accsc acc .. => [acc]
  | _ => []

/-- The matrix engine: an entry stops at a row boundary, and a tile with a committed row of it is poisoned, whether the engine holds the
entry or it is recorded as not performed. -/
def State.drainMatrix (s : State) (cs : List CRef) : State :=
  cs.foldl (fun s c =>
    (s.modTruss c.truss fun t =>
      (t.matQ.filter fun e => e.course == c.course && e.wrote).foldl
        (fun t e => e.body.tiles.foldl (fun t n => t.modTile n Tile.markPsn) t) t).dropQueue c .mat) s

/-- A killed course's transfers: what is not yet on the light goes no further, and contributions are withdrawn. -/
def State.dropTransfer (s : State) (o : Outgoing) : State :=
  let s := s.dropInbounds fun i => i.x.kind == .contrib && i.x.srcEp == s.ownEp o.vd && i.x.xid == o.xid
  let unsent := fun (f : OutFlit) => f.mine && f.f.xid == o.xid
  let s : State := { s with
    outgoing := s.outgoing.filter fun p => p.xid != o.xid,
    gathers := s.gathers.filter fun g => g.xid != o.xid,
    xmit := s.xmit.filter fun f => !unsent f,
    links := s.links.map fun (l : Link) => { l with pend := l.pend.filter fun f => !unsent f } }
  match s.contribStats.find? fun x => x.srcEp == s.ownEp o.vd && x.xid == o.xid with
  | some x =>
    (({ s with contribs := s.contribs.filter fun y => !(y.srcEp == x.srcEp && y.xid == x.xid),
               contribStats := s.contribStats.filter fun y => !(y.srcEp == x.srcEp && y.xid == x.xid) } : State)).freeGroup x.grp
  | none => s

/-- The network queue. -/
def State.drainNetwork (s : State) (cs : List CRef) : State :=
  cs.foldl (fun s c =>
    match s.truss? c.truss with
    | some t =>
      let ids := (t.netQ.filter fun e => e.course == c.course).map (·.id)
      let os := s.outgoing.filter fun o => o.truss == c.truss && ids.contains o.entry
      (os.foldl State.dropTransfer s).dropQueue c .net
    | none => s) s

/-- The matching engine. -/
def State.drainMatching (s : State) (k : Kill) (cs : List CRef) : State :=
  let s := cs.foldl (fun s c => match s.truss? c.truss with
    | some t => s.dropRecvs t.vd fun r => r.who == c
    | none => s) s
  match k.device with
  | none => s
  | some v =>
    let s := s.modVdev v fun d => { d with recvs := [], umsgs := [] }
    let mine := fun (i : Inbound) => epVd i.x.dstEp == v.val
    let s : State := { s with inbound := s.inbound.map fun i => if mine i then { i with wait := .untranslated } else i }
    (s.inbound.filter fun i => mine i && i.x.kind == .msg).foldl (fun s i => s.answer i 2) s

/-! ### Engines of the I/O die -/

/-- The page migration engine: joined and queued faults of the device are discarded, with the waits on them. -/
def State.drainPaging (s : State) (k : Kill) : State :=
  match k.device with
  | none => s
  | some v =>
    { s with faults := s.faults.filter fun f => f.space != v.val,
             launches := s.launches.map fun l => if l.vd = v then { l with wait := .untranslated } else l }

/-- Queue processors: every queue of the device ends HALTED without an error, its waits withdrawn. -/
def State.drainQueues (s : State) (k : Kill) : State :=
  match k.device with
  | none => s
  | some v =>
    let blks := (s.queues.filter fun e => e.2.vd == v).map (·.1)
    blks.foldl (fun s blk => match s.qcb? blk with
      | some _ =>
        let s := s.withdrawQueue blk
        let s : State := { s with proms := s.proms.filter fun p => match p.who with | .queue n => n != blk | _ => true }
        s.modQcb blk fun b =>
          let b := b.withdrawWait
          { b with st := .halted, err := 0, errSeq := b.eseq, look := [], wait := .untranslated, hwait := .untranslated,
                   infl := b.infl.map fun p => { p with wait := .untranslated, st := match p.st with | .launch n => .launch n | _ => .done } }
      | none => s) s

/-- A launch of a killed device ends FAULTED; its status is written for a RESET, where its place can be reached. -/
def State.faultLaunch (s : State) (ln : Nat) (destroy : Bool) : State :=
  match s.launches[ln]? with
  | none => s
  | some l =>
    let st : BitVec 8 := if l.status = 0 then 3 else l.status
    let s : State := { s with launches := s.launches.modify ln fun l => { l with admitted := l.items.total, status := st } }
    if destroy || l.items.statusAddr = 0 then s.endLaunch ln l false
    else
      match s.translate none l.vd l.items.statusAddr ⟨true, false, true⟩ with
      | (s, .ok pl) =>
        if pl.prm then s.endLaunch ln l false
        else
          let b := s.bank pl.host
          (s.putBank l.vd pl.host pl.pa 8 ⟨writeNat b.m pl.pa 8 st.toNat, psnWrite b.psn pl.pa 8 false⟩).endLaunch ln l false
      | (s, .error _) => s.endLaunch ln l false

/-- The launch distributor. -/
def State.drainLaunches (s : State) (k : Kill) : State :=
  match k.scope with
  | .device v destroy =>
    (List.range s.launches.length).foldl (fun s n => match s.launches[n]? with
      | some l => if l.vd = v && !l.complete then s.faultLaunch n destroy else s
      | none => s) s
  | _ => s

/-! ### The drain step (R409) -/

/-- Faults met in the drain are further links of the chains; a replayable fault, XLATE or GENSTALE, is none (R409,
R445). -/
def State.linkFaults (s : State) (cs : List CRef) : State :=
  cs.foldl (fun s c => match s.truss? c.truss, s.course? c with
    | some t, some k =>
      let fs := (k.ops.filterMap (·.fault) ++ k.late).filter fun f => f.cause != 0x12 && f.cause != 0x14
      s.modCourse c fun k =>
        { k with late := [], ops := k.ops.map (fun o => { o with fault := none }),
                 chain := if k.chain.isEmpty then [] else k.chain ++ fs.map fun f => s.causeRec f.cause f.detail 0 t.core k.slot 0 f.faddr }
    | _, _ => s) s

/-- One engine's part of a drain; the answer says whether it is done. -/
def State.drainEngine (s : State) (k : Kill) (eng : Engine) (force : Bool) : State × Bool :=
  let cs := s.killedOf k.scope
  match eng with
  | .core => s.drainCore k cs force
  | .copy => (s.drainCopy cs, true)
  | .matrix => (s.drainMatrix cs, true)
  | .network => (s.drainNetwork cs, true)
  | .queueProcessor => (s.drainQueues k, true)
  | .distributor => (s.drainLaunches k, true)
  | .pageMigration => (s.drainPaging k, true)
  | .matching => (s.drainMatching k cs, true)

/-- Engines that report in a drain. -/
def allEngines : List Engine := [.core, .copy, .matrix, .network, .queueProcessor, .distributor, .pageMigration, .matching]

/-- An engine has reported; when all have, the dump follows. -/
def State.reported (s : State) (n : Nat) (k : Kill) (eng : Engine) : State :=
  let ds := k.drained ++ [eng]
  let s := s.modKill n fun k => { k with drained := ds }
  if allEngines.all ds.contains then
    (s.linkFaults (s.killedOf k.scope)).modKill n fun k => { k with stage := .dump }
  else s

def drainStep (s : State) (eng : Engine) : State :=
  let s := s.beginWaiting
  match s.killAt .drain fun k => !k.drained.contains eng with
  | some (n, k) =>
    match s.drainEngine k eng false with
    | (s, true) => s.reported n k eng
    | (s, false) => s
  | none => s

def execKillDrain (eng : Engine) (s : State) : Out := .next (drainStep s eng)

/-- The code of an engine kind in a reset and in event 0x26 (R414, R438). -/
def engineKind : Engine → Nat
  | .core => 0 | .copy => 1 | .matrix => 2 | .network => 3 | .queueProcessor => 4 | .distributor => 5 | .pageMigration => 6 | .matching => 7

/-! ### Engine resets (R414, R415) -/

/-- The trusses of a core. -/
def State.onCoreIds (s : State) (core : Nat) : List Nat :=
  (List.range s.trusses.length).filter fun n => match s.truss? n with | some t => t.place == .onCore core | none => false

/-- The entries an engine had begun are as before they were begun, but for what a second execution would do twice: they run again in their
order, with the outcome of one execution (R415). -/
def State.restartQueue (s : State) (core : Nat) (q : QSel) : State :=
  (s.onCoreIds core).foldl (fun s n => s.modTruss n fun t =>
    t.modQueue q fun es => es.map fun e => if e.begun && !e.redo then { e.withdraw with redo := false } else e) s

/-- The network engine goes on with the entries of a core's trusses: transfers under way keep their numbers, so that each is performed once, and
places are looked up again (R415). -/
def State.restartNetwork (s : State) (core : Nat) : State :=
  (s.onCoreIds core).foldl (fun s n => s.modTruss n fun t =>
    t.modQueue .net fun es => es.map fun e => { e with wait := e.wait.retry }) s

/-- A COPY moves its bytes again from the start (R415). -/
def Qcb.recopy (b : Qcb) : Qcb :=
  { b with infl := b.infl.map fun p => { p with st := match p.st with | .copy a c n _ => .copy a c n 0 | x => x, wait := p.wait.retry } }

/-- A queue processor's threads begin again at their headers. -/
def State.restartQp (s : State) (qp : Nat) : State :=
  { s with qcbs := s.qcbs.map fun e => if e.2.slot.isSome && e.2.qp == qp then (e.1, { e.2.recopy with look := [] }) else e }

/-- A core's issue and memory pipe: its courses' accesses in flight are recorded as not performed and go again; its caches are empty, and
its registers and event counters hold what they hold at reset (R6, R118, R199, R201, R229, R299). -/
def State.resetCore (s : State) (core : Nat) : State :=
  let here := fun (c : CRef) => (s.onCoreIds core).contains c.truss
  let s := (s.coursesWhere fun c _ => here c).foldl (fun s c => s.dropEarly c fun _ => true) s
  let s : State := { s with
    accesses := s.accesses.map fun a => if here a.who then a.withdraw else a,
    proms := s.proms.map fun p => match p.who with | .course c .. => if here c then p.withdraw else p | .queue _ => p,
    icache := s.icache.filter fun x => x.core != core, tlbs := s.tlbs.filter fun e => !(e.first && e.unit == core) }
  (s.invalidateL1 core).modCore core fun c =>
    { c with strkz := 0, mtint := 65536, ec := Vector.replicate 8 ⟨0, 0⟩, mcount := 0, fenced := 0 }

/-- The launch distributor looks up again the places of the statuses that it was writing. -/
def State.restartLaunches (s : State) : State := { s with launches := s.launches.map fun l => { l with wait := l.wait.retry } }

/-- The page migration engine's data path moves its COPYs again. -/
def State.restartPaging (s : State) : State := { s with qcbs := s.qcbs.map fun e => (e.1, e.2.recopy) }

/-- The matching engine delivers again, from their first bytes, the messages it was delivering. -/
def State.restartMatching (s : State) : State :=
  { s with inbound := s.inbound.map fun i =>
      if i.x.kind == .msg && i.rv.isSome then { i with at_ := 0, wait := i.wait.retry, psn := false } else i }

/-- An engine is reset, by its number and kind: what it held goes on from its start, in its order (R414, R415). -/
def State.resetEngine (s : State) (n kind : Nat) : State :=
  match kind with
  | 0 => s.resetCore n
  | 1 => s.restartQueue n .copy
  | 2 => (s.restartQueue n .mat).modCore n fun c => { c with matBusy := none }
  | 3 => s.restartNetwork n
  | 4 => s.restartQp n
  | 5 => s.restartLaunches
  | 6 => s.restartPaging
  | _ => s.restartMatching

/-- An engine is reset, and event 0x26 names it (R415, R438). -/
def State.resetNoted (s : State) (n kind : Nat) : State :=
  (s.resetEngine n kind).postEvent 0x26 2 noVd 0 (BitVec.ofNat 64 (n + kind * 2 ^ 8)) 0

/-! ### Engines that do not report (R409) -/

/-- The numbers of the engines of a kind that a kill waits for: the cores of what it kills, or the engine of the I/O die. -/
def State.engineNumbers (s : State) (k : Kill) (eng : Engine) : List Nat :=
  match eng with
  | .core | .copy | .matrix | .network => ((s.killedOf k.scope).filterMap fun c => (s.truss? c.truss).map Truss.core).dedup
  | .queueProcessor => ((s.qcbs.filter fun e => k.device == some e.2.vd && e.2.slot.isSome).map fun e => e.2.qp).dedup
  | _ => [0]

/-- The device of the course or truss that a kill acts on. -/
def State.killOwner (s : State) (k : Kill) : Option (Fin 512) :=
  let own := fun (n : Nat) => (s.truss? n).bind fun t => if t.kernelMode then none else some t.vd
  match k.scope with | .device _ _ => none | .course c => own c.truss | .truss t => own t

/-- An engine that has not reported in time is reset, and the kill goes on; the supervisor cluster may escalate the drain of a course or a
truss to its device (R388, R406, R409, R415). -/
def timeoutStep (s : State) (eng : Engine) (escalate : Bool) : State :=
  match s.killAt .drain fun k => !k.drained.contains eng with
  | some (n, k) =>
    let s := s.advanceTo (k.began + 2 ^ 22)
    let s := (s.engineNumbers k eng).foldl (fun s m => s.resetNoted m (engineKind eng)) s
    let s := (s.drainEngine k eng true).1.reported n k eng
    match s.killOwner k with
    | some v => if escalate && s.active v then s.killDevice v false false else s
    | none => s
  | none => s

def execDrainTimeout (late : LateEngine) (s : State) : Out := .next (timeoutStep s late.eng late.escalate)

/-! ### Dumps (R411, R412) -/

/-- A cause chain as records: at most 16, the last one marked when links are left out. -/
def chainRecords (cs : List Cause) : List Cause :=
  if cs.length ≤ 16 then cs
  else cs.take 15 ++ (cs.getLast?.toList.map fun c => { c with w0 := c.w0 ||| BitVec.ofNat 64 (2 ^ 63) })
def chainBytes (cs : List Cause) : List Byte := wordBytes ((chainRecords cs).map fun c => [c.w0, c.w1, c.w2, c.w3]).flatten

/-- Bytes of a dump slot. -/
def dumpSlotBytes : Nat := 65536

/-- Room in a dump area. -/
def VDev.dumpRoom (d : VDev) : Nat := d.dumpSlots - (d.dumpNext - d.dumpFreed).toNat

/-- The address of a dump slot by its running number. -/
def VDev.slotAddr (d : VDev) (n : W32) : Nat := d.dumpBase + dumpSlotBytes * (1 + n.toNat % d.dumpSlots)

/-- The header of a dump area is written. -/
def State.dumpHeader (s : State) (v : Nat) : State :=
  match s.vdev? v with
  | some d => s.supWrite d.dumpBase (wordBytes [BitVec.ofNat 64 (d.dumpNext.toNat * 2 ^ 32 + d.dumpFreed.toNat),
      BitVec.ofNat 64 (d.dumps.toNat + d.dumpTrunc.toNat * 2 ^ 63)])
  | none => s

/-- The oldest slot in use that holds no chain. -/
def VDev.chainPlace (d : VDev) : Option W32 :=
  ((List.range (d.dumpNext - d.dumpFreed).toNat).map fun i => d.dumpFreed + BitVec.ofNat 32 i).find? fun n => !d.chainSlots.contains n

/-- One image after another. -/
def Image.join (a b : Image) : Image := ⟨a.bytes ++ b.bytes, a.psn ++ b.psn.map (· + a.bytes.length / 8)⟩

/-- The next slot is written. -/
def State.dumpSlot (s : State) (v : Nat) (d : VDev) (i : Image) : State :=
  (s.putImage (d.slotAddr d.dumpNext) i).modVdev v fun d => { d with dumpNext := d.dumpNext + 1 }

/-- What is left of an image after one slot. -/
def Image.rest (i : Image) : Image :=
  ⟨i.bytes.drop dumpSlotBytes, (i.psn.filter (dumpSlotBytes / 8 ≤ ·)).map (· - dumpSlotBytes / 8)⟩
def Image.first (i : Image) : Image := ⟨i.bytes.take dumpSlotBytes, i.psn.filter (· < dumpSlotBytes / 8)⟩

/-- A truss's header, scratchpad portion and tiles in consecutive slots, while there is room. -/
def State.dumpTruss (s : State) (v : Nat) : (fuel : Nat) → Image → State
  | 0, _ => s
  | n + 1, i =>
    if i.bytes.isEmpty then s
    else match s.vdev? v with
      | some d =>
        if d.dumpRoom = 0 then s.modVdev v fun d => { d with dumpTrunc := true }
        else (s.dumpSlot v d i.first).dumpTruss v n i.rest
      | none => s

/-- A killed course is dumped, with the count that was left of its `dly`: the slot used, if any, and the chain is then spent. -/
def State.dumpCourse (s : State) (c : CRef) : State × Option W32 :=
  match s.truss? c.truss, s.course? c with
  | some t, some k =>
    if k.chain.isEmpty then (s, none)
    else
      let s := s.modCourse c fun k => { k with chain := [] }
      match s.vdev? t.vd with
      | none => (s, none)
      | some d =>
        let bs := chainBytes k.chain
        let k := if s.imaged c || !t.onCore then k else { k with hold := k.hold.leave s.clk }
        let count := fun (s : State) => s.modVdev t.vd fun d => { d with dumps := d.dumps + 1 }
        if d.dumpRoom = 0 then
          let s := (count s).modVdev t.vd fun d => { d with dumpTrunc := true }
          match d.chainPlace with
          | some n => ((s.supWrite (d.slotAddr n) bs).modVdev t.vd fun d => { d with chainSlots := d.chainSlots ++ [n] }, some n)
          | none => (s, none)
        else
          let n := d.dumpNext
          let s := ((count s).dumpSlot t.vd d (Image.join ⟨bs, []⟩ (k.image t c.course))).modVdev t.vd fun d => { d with chainSlots := d.chainSlots ++ [n] }
          if t.dumped then (s, some n)
          else ((s.modTruss c.truss fun t => { t with dumped := true }).dumpTruss t.vd 64 (t.images.foldl Image.join ⟨[], []⟩), some n)
  | _, _ => (s, none)

/-- The dump of a kill. -/
def dumpStep (s : State) : State :=
  match s.killAt .dump fun _ => true with
  | none => s
  | some (n, k) =>
    let cs := s.killedOf k.scope
    let (s, first) := cs.foldl (fun (x : State × Option W32) c =>
      match x.1.dumpCourse c with
      | (s, m) => (s, x.2.orElse fun _ => m)) (s, k.firstSlot)
    let vs := (cs.filterMap fun c => (s.truss? c.truss).map (·.vd.val)).dedup
    (vs.foldl State.dumpHeader s).modKill n fun k => { k with stage := .release, firstSlot := first }

def execKillDump (s : State) : Out := .next (dumpStep s)

/-! ### Release (R413) -/

/-- A mailbox command completes (R389). -/
def State.mbDone (s : State) (st : BitVec 16) : State :=
  { s with mbBusy := false, mbStatus := st, hostOut := s.hostOut ++ [HostOut.msix 0 0] }

/-- Stage-2 table pages below a table, the root included. -/
def stage2Tables (m : Mem) : (lvl table : Nat) → List Nat
  | 0, table => [table]
  | lvl + 1, table =>
    table :: ((List.range 512).map fun i =>
      let e := readNat m (table + 8 * i) 8
      if bit e 0 && !bit e 7 then stage2Tables m lvl (bits e 51 12 * 4096) else []).flatten

/-- 64 KiB units that lie wholly in a list of 4 KiB pages. -/
def wholeUnits (pages : List (Nat × Nat)) : List Nat :=
  let small := (pages.filter fun p => p.2 == 4096).map (·.1)
  let ofBig := ((pages.filter fun p => 65536 ≤ p.2).map fun p => (List.range (p.2 / 65536)).map fun i => p.1 + 65536 * i).flatten
  ofBig ++ ((small.map fun p => p / 65536 * 65536).dedup.filter fun u => (List.range 16).all fun i => small.contains (u + 4096 * i))

/-- A table page is empty again when it goes back to the pool. -/
def State.clearPage (s : State) (a : Nat) : State := s.supWrite a (List.replicate 4096 0)

/-- The device ceases to exist (R413). -/
def State.removeDevice (s : State) (v : Nat) : State :=
  match s.vdev? v with
  | none => s
  | some d =>
    let tables := stage2Tables s.mem 4 d.s2root
    let blks := (s.queues.filter fun e => e.2.vd.val == v).map (·.1)
    let units := (wholeUnits (stage2Leaves s.mem 5 d.s2root)).filter fun u => !s.hbmFree.contains u
    let s := blks.foldl (fun s blk => s.supWrite (s.qcbAddr blk) (List.replicate 256 0)) (tables.foldl State.clearPage s)
    { s with
      cores := s.cores.map fun (c : Core) => { c with acc := c.acc.filter fun e => e.2.vd.map (·.val) != some v },
      ctxParts := s.ctxParts.filter fun p => p.vd.val != v,
      pool := s.pool ++ tables, hbmFree := s.hbmFree ++ units,
      l1 := s.l1.filter (fun e => !units.contains (e.1 / 192 * 128 / 65536 * 65536)),
      remap := s.remap.filter (fun e => e.1 / 64 != v), kickMap := s.kickMap.filter (fun e => e.1 / 512 != v),
      qcbs := s.qcbs.filter (fun e => !blks.contains e.1), vds := tdel s.vds v,
      sets := s.sets.map fun (x : ClSet) =>
        { x with running := if x.running.map (·.val) = some v || x.next.map (·.val) = some v then none else x.running,
                 next := if x.next.map (·.val) = some v then none else x.next } }

/-- The registers of a device's control page at reset, but for VSTAT (R6, R394). -/
def VDev.resetPage (d : VDev) : VDev := { d with s1root := 0, fltbase := 0, flttail := 0, flthead := 0, vecs := 0 }

/-- What the release of a device's kill does beyond its courses: its hardware queue slots are free, and after a RESET the registers of its
control page hold what they hold at reset, once the kill vector is sent (R6, R394, R413). -/
def State.releaseDevice (s : State) (v : Fin 512) (destroy resets : Bool) : State :=
  let s := (s.queues.filter fun e => e.2.vd == v && e.2.slot.isSome).foldl (fun s e => s.modQcb e.1 fun b => { b with slot := none }) s
  let s : State := { s with
    tlbs := s.tlbs.filter fun e => e.space != v.val,
    gates := tset false (tset false s.gates v.val false) (513 + v.val) false }
  if destroy then s.removeDevice v
  else
    let s := s.modVdev v fun d => { d with mode := d.modeBefore, kdone := true }
    match s.vdev? v with
    | some d =>
      let s := if d.vecs.getLsbD 17 then s.interrupt (v.val * 64 + bits d.vecs.toNat 13 8) else s
      if resets then s.modVdev v VDev.resetPage else s
    | none => s

/-- The VDID that a kill concerns. -/
def State.killVd (s : State) (k : Kill) : Nat :=
  match k.scope with
  | .device v _ => v.val
  | .course c => (match s.truss? c.truss with | some t => t.vd.val | none => noVd)
  | .truss t => (match s.truss? t with | some t => t.vd.val | none => noVd)

/-- The release of a kill. -/
def releaseStep (s : State) : State :=
  match s.killAt .release fun _ => true with
  | none => s
  | some (n, k) =>
    let cs := s.killedOf k.scope
    let vd := s.killVd k
    let s : State := { s with kills := s.kills.eraseIdx n }
    let s := cs.foldl (fun s c =>
      if s.underKill c then s
      else (s.modCourse c fun k => { k with slot := 64, chain := [], ops := [] }).freeParts fun p =>
        p.truss == c.truss && p.course == some c.course) s
    let s := ((cs.map (·.truss)).dedup).foldl State.retireTruss s
    let slot := match k.firstSlot with
      | some m => (match s.vdev? vd with | some d => BitVec.ofNat 64 (m.toNat % d.dumpSlots) | none => 0)
      | none => Config.noSlot s.tick
    let s := s.postEvent 0x02 2 vd 0 slot (BitVec.ofNat 64 (bits k.root.w0.toNat 7 0))
    let s : State := { s with tick := s.tick + 1 }
    let s := match k.scope with | .device v destroy => s.releaseDevice v destroy k.resets | _ => s
    if k.mailbox then s.mbDone 0 else s

def execKillRelease (s : State) : Out := .next (releaseStep s)

/-! ### Course kills (R50, R250, R437, R443, R445) -/

/-- The cause, detail and fault address of a kill whose reason holds for the course. -/
def State.killReason (s : State) (t : Truss) (k : Course) (cause : KillCause) : Option (Nat × Nat × W64) :=
  match cause with
  | .poisonRead => if k.ops.any fun o => o.done && !o.fallen && o.poison && o.fault.isNone then some (0x15, 0, 0) else none
  | .noRegion =>
    if k.rollbackPend && (k.live == 0 || (!k.tm && (!k.rgV || k.frames.length < k.tdepth || k.div.length < k.ddepth))) then some (0x15, 1, 0) else none
  | .unguardedStrike =>
    if !t.items.guarded && k.recent.any (fun x => s.inWindow x.1 && (s.core (x.2 / 4)).strkz.getLsbD (x.2 % 4)) then some (0x15, 2, 0) else none
  | .poisonFetch =>
    match k.fetch with | .failed 0x15 _ => some (0x15, 3, k.pc.zeroExtend 64) | _ => none
  | .trapOverflow cause detail =>
    if k.fetch ≠ .failed cause detail then none
    else if Config.trapCap ≤ k.frames.length then some (0x19, 0, 0)
    else if t.items.handler = 0 then some (cause, detail, 0) else none
  | .supervisor => none

/-- A course kill: its reason holds, or the supervisor cluster orders it. -/
def courseKillStep (s : State) (c : CRef) (cause : KillCause) : State :=
  match s.truss? c.truss, s.course? c with
  | some t, some k =>
    if k.gone || t.place = .gone then s
    else if cause = .supervisor then s.startKill (.course c) false
    else match s.killReason t k cause with
      | some (code, d, _) =>
        s.killCourse c (if cause = .unguardedStrike then s.strikeCause c k else s.courseCause c code d (k.pc.zeroExtend 64) 0)
      | none => s
  | _, _ => s

def execCourseKill (c : CRef) (cause : KillCause) (s : State) : Out := .next (courseKillStep s c cause)

end Sys2Proof.Machine
end

