-- ==== Sys2Proof/Machine/Paging.lean ====
section
/-!
DEFINITION. The page migration engine, and what the host does to device memory (11 R244 to R248; 14 R310, R321).
-/
namespace Sys2Proof.Machine

/-! ### Stage-2 leaves -/

/-- The address of the level-1 entry of a guest-physical address, when the tables above it stand (R216). -/
def leafAddr (m : Mem) (gpa : Nat) : (n table : Nat) → Option Nat
  | 0, table => some (table + 8 * (gpa / 4096 % 512))
  | n + 1, table =>
    let e := readNat m (table + 8 * (gpa / 2 ^ (21 + 9 * n) % (if n = 3 then 16 else 512))) 8
    if bit e 0 && !bit e 7 then leafAddr m gpa n (bits e 51 12 * 4096) else none

/-- The level-1 entry of a guest-physical address of a device. -/
def State.leaf2 (s : State) (d : VDev) (gpa : Nat) : Option (Nat × Nat) :=
  (leafAddr s.mem gpa 4 d.s2root).map fun a => (a, readNat s.mem a 8)

/-- The entry of a page of a 64 KiB unit, with the attributes it had. -/
def unitEntry (e frame : Nat) (host : Bool) : Nat :=
  let attrs := e &&& (2 ^ 58 + 2 ^ 59 + 2 ^ 57 + 2 ^ 56 + 0x7C)
  attrs + frame * 4096 + 2 ^ 7 + (if host then 2 ^ 9 else 2 ^ 8 + 1)

/-- The 16 level-1 entries of a unit name 16 frames one after another (R244, R245). -/
def State.writeUnit (s : State) (d : VDev) (unit frame : Nat) (host : Bool) : State :=
  (List.range 16).foldl (fun s i => match s.leaf2 d (unit + 4096 * i) with
    | some (a, e) => s.supWrite a (natBytes 8 (unitEntry e (frame + i) host))
    | none => s) s

/-- Bytes of a range of a memory at another place, with the poison of their words (R250). -/
def copyBytes (from_ to_ : Mem) (src dst n : Nat) : Mem :=
  (from_.filter fun c => src ≤ c.1 && c.1 < src + n).foldl (fun m c => mset m (dst + (c.1 - src)) c.2)
    (to_.filter fun c => !(dst ≤ c.1 && c.1 < dst + n))
def copyPoison (from_ to_ : Tbl Bool) (src dst n : Nat) : Tbl Bool :=
  (from_.filter fun c => src / 8 ≤ c.1 && c.1 < (src + n) / 8).foldl (fun m c => tset false m (dst / 8 + (c.1 - src / 8)) c.2)
    (to_.filter fun c => !(dst / 8 ≤ c.1 && c.1 < (dst + n) / 8))

/-- Lines of a range leave the slices, which write back those that are dirty, and the L1s (R198, R245). -/
def State.dropLines (s : State) (vd pa n : Nat) : State :=
  let mine := fun (l : Nat) => pa / 128 ≤ l && l < (pa + n) / 128
  let s := s.addShare vd 3 ((s.dirty.filter mine).length * 128)
  { s with lines := s.lines.filter fun l => !mine l, dirty := s.dirty.filter fun l => !mine l,
           l1 := s.l1.filter fun e => !mine (e.1 / 192) }

/-! ### Units that never move (R246, R272) -/

/-- The entries of a table that are not 0. -/
def tableEntries (m : Mem) (pa : Nat) : List Nat :=
  (((m.filter fun c => pa ≤ c.1 && c.1 < pa + 4096).map fun c => (c.1 - pa) / 8).dedup).map fun i => readNat m (pa + 8 * i) 8

/-- The entry is of a unit in host memory that may move: not SYSTEM-ATOMIC (R246). -/
def inHost (e : Nat) : Bool := !bit e 0 && bit e 9 && bits e 59 58 != 1

/-- Where a stage-1 table lies: in the page that stage 2 maps, or in host memory while its unit is paged out (R244). -/
def State.tablePlace (s : State) (d : VDev) (gpa : Nat) : Option (Nat × Bool) :=
  match walk2 s.mem s.memPsn d.s2root gpa, s.leaf2 d gpa with
  | .ok l, _ => some (l.out, entryHost l.e)
  | .error _, some (_, e) => if inHost e then some (bits e 51 16 * 65536 + gpa % 65536, true) else none
  | .error _, none => none

/-- The stage-1 leaves below a table of a device: where each begins, how many bytes it maps, and the entry (R216). -/
def State.leaves1 (s : State) (d : VDev) : (lvl table : Nat) → List (Nat × Nat × Nat)
  | 0, _ => []
  | lvl + 1, table =>
    match s.tablePlace d table with
    | none => []
    | some (pa, host) =>
      ((tableEntries (s.bank host).m pa).map fun e =>
        if !bit e 0 then []
        else if bit e 7 then
          let n := 2 ^ leafBits e (lvl + 1)
          [(bits e 51 12 * 4096 / n * n, n, e)]
        else s.leaves1 d lvl (bits e 51 12 * 4096)).flatten

/-- A unit whose effective ATOM is SYSTEM-ATOMIC, or whose effective PRM is 1, by a stage-1 leaf that maps it: it is never moved (R216,
R246, R272). -/
def State.unitPinned (s : State) (d : VDev) (unit e : Nat) : Bool :=
  (s.leaves1 d 5 d.s1root).any fun x =>
    x.1 < unit + 65536 && unit < x.1 + x.2.1 && (bit x.2.2 56 || (bits e 59 58 == 0 && bits x.2.2 59 58 == 1))

/-! ### Page-in and page-out (R244, R245) -/

/-- Bytes of a unit. -/
def unit64 : Nat := 65536

/-- A fault on the unit may be serviced: it has been passed on, or no gate holds it (R218, R221, R244). -/
def State.wantsUnit (s : State) (vd unit : Nat) : Bool :=
  s.faults.any fun f => f.on vd true true unit && (f.passed || !s.gateHeld f.die vd)

/-- The entry is of a unit in HBM that may move. -/
def inHbm (e : Nat) : Bool := bit e 0 && bit e 7 && !bit e 9 && bits e 59 58 != 1

/-- The unit is brought into HBM, and every access that waits for it replays its walk (R244). The bytes written to HBM are metered
(R198). -/
def State.pageIn (s : State) (vd : Nat) (d : VDev) (unit e hbm : Nat) : State :=
  let host := bits e 51 16 * unit64
  let s := s.dropLines vd hbm unit64
  let s : State := { s with
    faults := s.faults.filter fun f => !f.on vd true true unit,
    mem := copyBytes s.hostMem s.mem host hbm unit64, memPsn := copyPoison s.hostPsn s.memPsn host hbm unit64,
    hbmFree := s.hbmFree.erase hbm }
  let s := (s.writeUnit d unit (hbm / 4096) false).addShare vd 5 unit64 |>.addShare vd 3 unit64
  s.resolve vd (fun p => match p with | .paging gpa => gpa / unit64 * unit64 == unit | _ => false) false

/-- A page-in takes HBM from the free pool for a unit that an access waits for. -/
def pageInStep (s : State) (vd gpa : Nat) : State :=
  let unit := gpa / unit64 * unit64
  match s.vdev? vd, s.hbmFree with
  | some d, hbm :: _ =>
    match s.leaf2 d gpa with
    | some (_, e) => if inHost e && !s.unitPinned d unit e && s.wantsUnit vd unit then s.pageIn vd d unit e hbm else s
    | none => s
  | _, _ => s

def execPageIn (vd : Fin 512) (gpa : Nat) (s : State) : Out := .next (pageInStep s vd gpa)

/-- The unit is moved out to host memory (R245); the bytes read from HBM are metered (R198). -/
def State.pageOut (s : State) (vd : Nat) (d : VDev) (unit e frame : Nat) : State :=
  let hbm := bits e 51 16 * unit64
  let host := frame / 16 * unit64
  let s := ((s.writeUnit d unit (frame / 16 * 16) true).raiseGen vd).dropLines vd hbm unit64
  let bytes := readBytes s.mem hbm unit64
  let s : State := { s with
    hostMem := copyBytes s.mem s.hostMem hbm host unit64, hostPsn := copyPoison s.memPsn s.hostPsn hbm host unit64,
    hbmFree := s.hbmFree ++ [hbm], hostOut := s.hostOut ++ [HostOut.write host bytes] }
  (s.addShare vd 5 unit64).addShare vd 3 unit64

/-- All 16 pages of a unit lie in HBM, one after another. -/
def State.unitInHbm (s : State) (d : VDev) (unit e : Nat) : Bool :=
  (List.range 16).all fun i => match s.leaf2 d (unit + 4096 * i) with
    | some (_, x) => inHbm x && bits x 51 12 == bits e 51 16 * 16 + i
    | none => false

/-- A page-out of a unit that the supervisor cluster has chosen. -/
def pageOutStep (s : State) (vd gpa frame : Nat) : State :=
  let unit := gpa / unit64 * unit64
  match s.vdev? vd with
  | some d =>
    match s.leaf2 d gpa with
    | some (_, e) => if s.unitInHbm d unit e && !s.unitPinned d unit e then s.pageOut vd d unit e frame else s
    | none => s
  | none => s

def execPageOut (vd : Fin 512) (gpa hostFrame : Nat) (s : State) : Out := .next (pageOutStep s vd gpa hostFrame)

/-- A counter-managed unit of a device in start-up, test or recovery mode moves toward the side that issued more than three quarters of
its last 4,096 atomics (R248): then its count begins anew. -/
def managedStep (s : State) (vd gpa frame : Nat) : State :=
  let unit := gpa / unit64 * unit64
  match s.vdev? vd with
  | some d =>
    match s.leaf2 d gpa with
    | some (_, e) =>
      let key := unitKey (bits e 51 12 * 4096) (bit e 9)
      let c := tget [] s.cmCount key
      let byHost := (c.filter id).length
      let s' : State := { s with cmCount := tset [] s.cmCount key [] }
      if !bit e 57 || d.mode = 0 || 3 < d.mode.toNat || c.length ≠ 4096 || s.unitPinned d unit e then s
      else if 3072 < byHost && s.unitInHbm d unit e then s'.pageOut vd d unit e frame
      else if byHost < 1024 && inHost e then
        match s.hbmFree with | hbm :: _ => s'.pageIn vd d unit e hbm | [] => s
      else s
    | none => s
  | none => s

def execCounterManagedMove (vd : Fin 512) (gpa hostFrame : Nat) (s : State) : Out := .next (managedStep s vd gpa hostFrame)

/-! ### The host's accesses to device memory (R310, R321, R247, R248) -/

/-- Bytes of the 52-bit system-physical space (R216). -/
def addrSpace : Nat := 2 ^ 52

/-- The place of a host access: a system-physical address, or one that a virtual function gives, guest-physical, through stage 2. -/
def State.hostPlace (s : State) (vd : Option (Fin 512)) (addr : Nat) : Option (Nat × Bool × Bool) :=
  match vd with
  | none => some (addr, false, false)
  | some v =>
    match s.vdev? v.val with
    | some d =>
      match walk2 s.mem s.memPsn d.s2root addr with
      | .ok l => some (l.out, entryHost l.e, bit l.e 57)
      | .error _ => none
    | none => none

/-- Bytes of a posted write, each at its home; those that no mapping places have none. -/
def State.hostBytes (s : State) (vd : Option (Fin 512)) (addr : Nat) (data : List Byte) : State :=
  (pieces 8 data.length data).zipIdx.foldl (fun s x =>
    let a := addr + 8 * x.2
    match s.hostPlace vd a with
    | some (pa, host, _) =>
      let b := s.bank host
      if host then { s with hostMem := writeBytes b.m pa x.1, hostPsn := psnWrite b.psn pa x.1.length false }
      else s.putBank ((vd.map (·.val)).getD pfSpace) false pa x.1.length ⟨writeBytes b.m pa x.1, psnWrite b.psn pa x.1.length false⟩
    | none => s) s

/-- A posted write of the host to device memory; a virtual function's address is guest-physical. -/
def execHostMemoryWrite (vd : Option (Fin 512)) (addr : Nat) (data : List Byte) (s : State) : Out :=
  if addrSpace < addr + data.length then .fault .noSuchAddress
  else if s.power ≠ .ready then .next s
  else .next (s.hostBytes vd addr data)

/-- FetchAdd, Swap and CAS of 32 and 64 bits, and CAS of 128 (R23). -/
def isAtomicOp (op : AOp) (z : ASz) : Bool :=
  match op with | .add | .swap => z != .b128 | .cas => true | _ => false

/-- Bytes of an atomic's size. -/
def asize (z : ASz) : Nat := match z with | .b32 => 4 | .b64 => 8 | .b128 => 16

/-- An AtomicOp of the host, performed at the home and counted on counter-managed pages. -/
def hostAtomic (s : State) (vd : Fin 512) (addr : Nat) (op : AOp) (z : ASz) (a cmp : BitVec 128) : State :=
  let n := asize z
  if s.power ≠ .ready || !isAtomicOp op z || addr % n ≠ 0 then s
  else match s.hostPlace (some vd) addr with
    | none => s
    | some (pa, host, cm) =>
      let p : Part := { lane := 0, va := addr, size := n, data := natBytes n a.toNat, cmp := natBytes n cmp.toNat, phase := .performed,
                        got := [], poison := false, dst := 0, sent := s.clk, early := false }
      let (b, q) := (s.bank host).atomic op p pa
      let s := if q.poison then s
        else if host then { s with hostMem := b.m, hostPsn := b.psn }
        else s.putBank vd false pa n b
      let s := if cm then s.countAtomic pa host true else s
      { s with hostOut := s.hostOut ++ [HostOut.atomicOld (BitVec.ofNat 128 (bytesNat q.got))] }

def execHostAtomicop (vd : Fin 512) (addr : Nat) (op : AOp) (z : ASz) (a cmp : BitVec 128) (s : State) : Out :=
  if addrSpace < addr + asize z then .fault .noSuchAddress else .next (hostAtomic s vd addr op z a cmp)

end Sys2Proof.Machine
end

