-- ==== Sys2Proof/Machine/Degrade.lean ====
section
/-!
DEFINITION. Folding slice columns, errors of memories, and worn parts (01 R12, R14; 11 R242, R243, R249; 19 R437 to R440, R446).
-/
namespace Sys2Proof.Machine

/-! ### The health record (R440, R446) -/

/-- A field of DEGRADE counts one more. -/
def State.degradeBy (s : State) (hi lo : Nat) : State :=
  let f := bits s.degrade.toNat hi lo
  { s with degrade := BitVec.ofNat 64 (s.degrade.toNat - f * 2 ^ lo + (f + 1) % 2 ^ (hi + 1 - lo) * 2 ^ lo) }

/-- A replacement request, written by the supervisor cluster (R438, R439, R446). -/
def State.askReplacement (s : State) (kind unit : Nat) : State :=
  { s with rrcnt := s.rrcnt + 1 }.postEvent 0x28 2 noVd 0 (BitVec.ofNat 64 kind) (BitVec.ofNat 64 unit)

/-- The window in which worn parts gather errors. -/
def wearWindow : Nat := 2 ^ 36
/-- `n` errors of a list, oldest first, lie within one window. -/
def crowded (n : Nat) (ts : List Nat) : Bool := (ts.zip (ts.drop (n - 1))).any fun x => x.2 ≤ x.1 + wearWindow

/-! ### Slice columns (R14, R242, R243) -/

def columnOf (slice : Nat) : Nat := slice / 8
/-- Columns that are powered, and that no fold under way takes off. -/
def State.powered (s : State) : List Nat :=
  (List.range 16).filter fun c => s.columns.getLsbD c && !(s.folds.any fun f => f.col.val == c && !f.on_)
/-- The home slice of a fold-table entry. -/
def State.sliceOf (s : State) (h : Nat) : Nat := match tget? s.fold h with | some w => bits w.toNat 6 0 | none => h % 128

/-- The entries that a fold has still to move: those homed on a column that goes off, or those that the image homes on a column that
comes on. -/
def State.toMove (s : State) (f : Fold) : Option Nat :=
  (List.range 1024).find? fun h =>
    if f.on_ then columnOf (h % 128) == f.col.val && columnOf (s.sliceOf h) != f.col.val
    else columnOf (s.sliceOf h) == f.col.val

/-- Where an entry goes: its slice of the image on a column that comes on; a slice of a column that stays powered, of the supervisor
cluster's choice (log 39). -/
def State.foldDest (s : State) (f : Fold) (h : Nat) : Nat :=
  if f.on_ then h % 128
  else
    let cs := s.powered
    ((cs.map fun c => List.range' (8 * c) 8).flatten[Config.foldTarget s.tick % (8 * cs.length)]?).getD (h % 128)

/-- Lines of an entry that its slice holds, or that have a promise cell in its directory (R242 step 3). -/
def State.linesOf (s : State) (h : Nat) : List Nat :=
  ((s.lines.filter fun l => foldIndex (l * 128) == h) ++ ((s.cells.map fun e => e.1 / 128).filter fun l => foldIndex (l * 128) == h)).dedup

/-- A fold-table entry (R228). -/
def foldWord (mig : Bool) (old slice : Nat) : W32 := BitVec.ofNat 32 (mig.toNat * 2 ^ 31 + old * 2 ^ 16 + slice)

/-- Step 1 of R242 for an entry. -/
def State.startMove (s : State) (f : Fold) (h : Nat) : State :=
  let old := s.sliceOf h
  let new := s.foldDest f h
  { s with fold := tput s.fold h (foldWord true old new), tick := s.tick + 1,
           folds := s.folds.modify 0 fun f => { f with entry := some h, left := s.linesOf h, began := s.clk } }

/-- Step 5: OLD holds no line of the entry. -/
def State.endMove (s : State) (h : Nat) : State :=
  { s with fold := tput s.fold h (foldWord false (match tget? s.fold h with | some w => bits w.toNat 22 16 | none => 0) (s.sliceOf h)),
           folds := s.folds.modify 0 fun f => { f with entry := none, left := [] } }

/-- Every entry of the column has moved: it is off or on; a reset folds it on again, and a retirement is recorded. -/
def State.endFold (s : State) (f : Fold) : State :=
  let m : BitVec 16 := BitVec.ofNat 16 (2 ^ f.col.val)
  let s : State := { s with folds := s.folds.drop 1, columns := if f.on_ then s.columns ||| m else s.columns &&& ~~~ m }
  if f.reset && !f.on_ then
    { s with columns := s.columns ||| m, folds := ⟨f.col, true, true, false, f.mailbox, none, [], 0⟩ :: s.folds }
  else
    let s := if f.retire then
        s.postEvent 0x24 2 noVd 0 (BitVec.ofNat 64 f.col.val) (BitVec.ofNat 64 s.powered.length)
      else s
    if f.mailbox then s.mbDone 0 else s

/-- A step of the fold under way: the next entry starts to move, a line is handed over, or the entry's move ends. No value changes
(R243). -/
def foldStep (s : State) (line : Nat) : State :=
  match s.folds with
  | [] => s
  | f :: _ =>
    match f.entry with
    | none => match s.toMove f with | some h => s.startMove f h | none => s.endFold f
    | some h =>
      if f.left.isEmpty then s.endMove h
      else s.handOver noVd line

def execLineHandover (line : Nat) (s : State) : Out := .next (foldStep s line)

/-- A column begins to fold off or on. -/
def State.beginFold (s : State) (col : Fin 16) (on reset retire mailbox : Bool) : State :=
  { s with folds := s.folds ++ [⟨col, on, reset, retire, mailbox, none, [], 0⟩],
           columns := if on then s.columns ||| BitVec.ofNat 16 (2 ^ col.val) else s.columns }

/-- A column has had 64 uncorrectable errors within the window: it is folded off for good, or, with four columns powered, only asked to
be replaced (R446). -/
def columnRetireStep (s : State) (col : Fin 16) : State :=
  if !crowded 64 (tget [] s.ueCol col) || !s.powered.contains col.val then s
  else
    let s := ({ s with ueCol := tset [] s.ueCol col [] } : State).askReplacement 7 col.val
    if s.powered.length ≤ 4 then s
    else (({ s with columnsGone := s.columnsGone ||| BitVec.ofNat 16 (2 ^ col.val) } : State).degradeBy 19 16).beginFold col false false true false

def execColumnRetire (col : Fin 16) (s : State) : Out := .next (columnRetireStep s col)

/-! ### Cores (R12, R446) -/

/-- Cores in service. -/
def State.inServiceCores (s : State) : Nat := (s.cores.toList.filter fun (c : Core) => !c.retired).length

/-- The highest core of a die that is in service. -/
def State.lastCore (s : State) (die : Nat) : Option Nat :=
  ((List.range' (96 * die) 96).filter fun n => !(s.core n).retired).getLast?

/-- The die's service truss moves to another core, where slots 60 to 63 and two pool units are never free from then on: a truss that holds
any of them is to leave (R12, R446). -/
def State.moveService (s : State) (core new : Nat) : State :=
  { s with
    svcCore := vput s.svcCore (dieOf core) new,
    trusses := s.trusses.map fun t =>
      if t.kernelMode && t.place = .onCore core then { t with place := .onCore new }
      else if t.place = .onCore new then
        let p := t.items.part
        { t with evict := t.evict || (t.courses.any fun k => 60 ≤ k.slot && k.slot < 64) || 30 < partReg p + partScr p + partAcc p }
      else t }

/-- A core is taken out of service by the supervisor cluster: its trusses are to leave, and a service truss on it moves. Where no core of the
die is in service any longer the service truss stays where it is (DESIGN CHOICE, log 86: R446 names no place). -/
def State.retireCore (s : State) (core : Nat) : State :=
  let s := s.modCore core fun c => { c with retired := true }
  let s := s.postEvent 0x25 2 noVd 0 (BitVec.ofNat 64 core) (BitVec.ofNat 64 s.inServiceCores)
  let s := (s.askReplacement 7 core).degradeBy 15 8
  let s := if s.hostsService core then
      match s.lastCore (dieOf core) with | some n => s.moveService core n | none => s
    else s
  ({ s with trusses := s.trusses.map fun t => if t.place = .onCore core && !t.kernelMode then { t with evict := true } else t } : State).markGroups

/-- All four sub-arrays of a core are fenced, or it had a second uncorrectable error within the window. -/
def coreRetireStep (s : State) (core : Nat) : State :=
  let c := s.core core
  if 192 ≤ core || c.retired || !(c.fenced == 0xF || crowded 2 c.ueAt) then s else s.retireCore core

def execCoreRetire (core : Nat) (s : State) : Out := .next (coreRetireStep s core)

/-! ### Errors of memories (R249, R437, R439) -/

/-- The die of a unit (R9, R13, R15). -/
def unitDie (kind unit : Nat) : Nat :=
  if kind ≤ 2 then dieOf unit else if kind = 3 then unit / 64 else if kind = 4 then unit / 4 else 2

/-- A single-bit error is corrected and counted; event 0x20 follows every CECTHR errors. -/
def corrected (s : State) (kind unit : Nat) : State :=
  let s : State := { s with cecnt := s.cecnt + 1 }
  if s.cecthr ≠ 0 && s.cecnt.toNat % s.cecthr.toNat = 0 then
    s.postEvent 0x20 (unitDie kind unit) noVd 0 (BitVec.ofNat 64 (kind + unit * 2 ^ 8)) s.cecnt
  else s

def execEccCorrected (unitKind : Fin 6) (unit : Nat) (s : State) : Out := .next (corrected s unitKind unit)

/-- An uncorrectable error is counted and reported, with the device that it concerns (R438). -/
def State.ueEvent (s : State) (kind unit vd : Nat) (w3 : W64) : State :=
  { s with uecnt := s.uecnt + 1 }.postEvent 0x21 (unitDie kind unit) vd 0 (BitVec.ofNat 64 (kind + unit * 2 ^ 8)) w3

/-- An error of a core's own SRAM counts toward its retirement (R446). -/
def State.coreError (s : State) (kind core : Nat) : State :=
  let s := (s.ueEvent kind core noVd (Config.sramWord s.tick)).modCore core fun c => { c with ueAt := c.ueAt ++ [s.clk] }
  { s with tick := s.tick + 1 }

/-- An error in a word of the I/O die's SRAMs: the word is poisoned and reported (R17, R249). -/
def State.ioError (s : State) (vd : Nat) (w : W64) : State :=
  { s.ueEvent 5 0 vd w with ioPsn := tset false s.ioPsn w.toNat true }

/-- The same for a word of the device tables or of a memory of the die whose place no rule gives (R249; log 39). -/
def State.ioWord (s : State) (vd : Nat) : State :=
  { s.ioError vd (Config.sramWord s.tick) with tick := s.tick + 1 }

/-- The HBM stack of an address (R15). -/
def stackOf (a : Nat) : Nat := bits a 14 12 ^^^ bits a 23 21

/-- Poison set on words of device memory. -/
def State.poisonWords (s : State) (a n : Nat) : State :=
  { s with memPsn := (List.range' (a / 8) n).foldl (fun p w => tset false p w true) s.memPsn }

/-- A second-level copy of a line: the words of an L1 line that are poisoned. -/
def State.poisonL1 (s : State) (core a : Nat) : State :=
  { s with l1 := s.l1.map fun e => if e.1 = l1Key core a then (e.1, { e.2 with psn := e.2.psn ||| BitVec.ofNat 16 (2 ^ (a / 8 % 16)) }) else e }

/-- Commands of the mailbox that are in flight complete BUSY, as its firmware restarts (R437). -/
def State.failCommands (s : State) : State :=
  if !s.mbBusy then s
  else
    let s : State := { s with
      kills := s.kills.map fun k => { k with mailbox := false }, folds := s.folds.map fun f => { f with mailbox := false },
      vds := s.vds.map fun e => (e.1, { e.2 with moveTo := none }) }
    s.mbDone 4

/-- An uncorrectable error: its word is poisoned where it is found, and what owns it is contained. -/
def uncorrectable (s : State) (place : EccPlace) : State :=
  match place with
  | .slice a =>
    let home := s.homeOf a
    let s := (s.ueEvent 3 home noVd (BitVec.ofNat 64 (a / 8 * 8))).poisonWords (a / 8 * 8) 1
    { s with ueCol := tset [] s.ueCol (columnOf home) (tget [] s.ueCol (columnOf home) ++ [s.clk]) }
  | .hbm a => (s.ueEvent 4 (stackOf a) noVd (BitVec.ofNat 64 (a / 32 * 32))).poisonWords (a / 32 * 32) 4
  | .scratchpad tn off =>
    match s.truss? tn with
    | some t => if t.onCore then (s.coreError 0 t.core).modTruss tn fun t => { t with scrPsn := tset false t.scrPsn (off / 8) true } else s
    | none => s
  | .tile tn n w =>
    match s.truss? tn with
    | some t =>
      if t.onCore then (s.coreError 0 t.core).modTruss tn fun t => t.modTile n fun x => { x with psnWords := x.psnWords ++ [w % 2048] } else s
    | none => s
  | .register c r w =>
    match s.truss? c.truss, s.course? c with
    | some t, some k =>
      if t.onCore && k.cstate == .resident then (s.coreError 0 t.core).modCourse c fun k => { k with psn := k.psn ++ [(r, w)] } else s
    | _, _ => s
  | .l1 core a => if core < 192 then (s.coreError 1 core).poisonL1 core a else s
  | .icache core a =>
    if core < 192 then
      let s := s.coreError 2 core
      { s with icache := s.icache.map fun c => if c.core = core && c.pa / 8 = a / 8 then { c with psn := true } else c }
    else s
  | .ioSram w => s.ioError noVd (BitVec.ofNat 64 w)
  | .matching v n w =>
    (s.ioWord v).modVdev v fun d =>
      { d with umsgs := d.umsgs.modify n fun m => { m with poison := m.poison ++ [w] } }
  | .deviceTable v =>
    let s := s.ioWord v
    if h : v < 512 then (if s.active v then s.killDevice ⟨v, h⟩ false false else s) else s
  | .supervisorMemory => (s.ioWord noVd).failCommands
  | .queueProcessorMemory qp =>
    let s := s.ioWord noVd
    if h : qp < 8 then s.setFallback ⟨qp, h⟩ true else s

def execEccUncorrectable (place : EccPlace) (s : State) : Out := .next (uncorrectable s place)

end Sys2Proof.Machine
end

