-- ==== Sys2Proof/Machine/Mailbox.lean ====
section
/-!
DEFINITION. The supervisor mailbox (17 R388 to R392, R395, R398, R399, R404, R411, R414, R415; 01 R14).
-/
namespace Sys2Proof.Machine

/-! ### Commands -/

/-- How a command ends: at once with a status, and what it has changed; or later, while BUSY stays set. -/
inductive Ended where
  | status (s : State) (st : BitVec 16)
  | later (s : State)

def okSt : BitVec 16 := 0
def badArg : BitVec 16 := 1
def inUse : BitVec 16 := 2
def noRoom : BitVec 16 := 3
def busySt : BitVec 16 := 4
def noVdSt : BitVec 16 := 5

/-- A command runs: a doorbell while BUSY is counted and ignored (R389). -/
def mailbox (s : State) (w : Vector W64 8) (f : State → Ended) : State :=
  if s.power ≠ .ready then s
  else if s.mbBusy then s.discard
  else match f { s with mbcmd := w, mbBusy := true } with
    | .status s st => s.mbDone st
    | .later s => s

/-- A command on a device that is there and not DRAINING (R390). -/
def onDevice (s : State) (vd : Nat) (f : VDev → Ended) : Ended :=
  match s.vdev? vd with
  | none => .status s noVdSt
  | some d => if d.mode = 4 then .status s busySt else f d

/-- Field VDID of MBCMD1. -/
def argVd (w : Vector W64 8) : Nat := bits w[1].toNat 8 0
def fin512 (n : Nat) : Fin 512 := ⟨n % 512, Nat.mod_lt _ (by decide)⟩

/-! ### CREATE (R392) -/

/-- Clusters in a mask. -/
def maskClusters (m : BitVec 24) : Nat := ((List.range 24).filter m.getLsbD).length
/-- Bytes of a context area for the cores of a mask (R405). -/
def ctxNeed (m : BitVec 24) : Nat := 8 * maskClusters m * Config.ctxRecordBytes

/-- Areas of the devices that exist. -/
def VDev.areas (d : VDev) : List (Nat × Nat) := [(d.ctxBase, d.ctxSize), (d.dumpBase, dumpSlotBytes * (1 + d.dumpSlots))]

/-- The area lies in memory that the pool has reserved. -/
def State.inPool (s : State) (a n : Nat) : Bool := s.poolLo + Config.areaOffset ≤ a && a + n ≤ s.poolHi

/-- A stage-2 mapping of some device covers a part of a range of device memory (R405; log 49). -/
def State.mappedNow (s : State) (a n : Nat) : Bool :=
  s.vds.any fun e => (stage2Leaves s.mem 5 e.2.s2root).any fun r => rangesMeet a n r.1 r.2

/-- The first check that fails (R392). -/
def State.createErr (s : State) (w : Vector W64 8) (set mode weight hqs ctx dump slots size : Nat) (x : ClSet) : BitVec 16 :=
  let clear := fun (i : Nat) (mask : Nat) => (vat w i 0).toNat &&& (2 ^ 64 - 1 - mask) == 0
  let used := 0x1FF + 0xFF * 2 ^ 16 + 0x1F * 2 ^ 24 + 0x1FF * 2 ^ 32 + 7 * 2 ^ 41
  let n := if size = 0 then ctxNeed x.mask else size
  let room := [(ctx, n), (dump, dumpSlotBytes * (1 + slots))]
  let others := (s.vds.map fun e => e.2.areas).flatten
  if !clear 1 used || 3 < mode || weight = 0 || slots < 16 || 65536 < slots || ctx % unit64 ≠ 0 || dump % unit64 ≠ 0 ||
      size % unit64 ≠ 0 then badArg
  else if (s.vdev? (argVd w)).isSome then inUse
  else if 32 ≤ set || !x.defined then badArg
  else if 256 < hqs + (s.vds.map fun e => e.2.hqs).sum then noRoom
  else if n < ctxNeed x.mask then noRoom
  else if !(room.all fun r => s.inPool r.1 r.2) || s.mappedNow ctx n || rangesMeet ctx n dump (dumpSlotBytes * (1 + slots)) ||
      (room.any fun r => others.any fun o => rangesMeet r.1 r.2 o.1 o.2) then noRoom
  else if s.pool.isEmpty then noRoom
  else okSt

/-- A device as CREATE makes it. -/
def VDev.created (mode : BitVec 3) (weight : BitVec 8) (s2root hqs ctx dump fep nfep size slots : Nat) (set : Fin 32) (grant : BitVec 24) :
    VDev :=
  { v := true, mode := mode, weight := weight, s1root := 0, s2root := s2root, gen := 0, hqs := hqs, ctxBase := ctx, dumpBase := dump,
    fep := fep, nfep := nfep, ctxSize := size, dumpSlots := slots, set := set, pass := 0, runnable := false,
    meters := Vector.replicate 10 0, shares := Vector.replicate 10 0, modeBefore := mode, kdone := false, dumpNext := 0, dumpFreed := 0,
    dumpTrunc := false, dumps := 0, chainSlots := [], fltbase := 0, flttail := 0, flthead := 0, vecs := 0, msix := [], recvs := [],
    umsgs := [], grant := grant, excl := false, genRaises := 0, moveTo := none }

def doCreate (w : Vector W64 8) (s : State) : Ended :=
  let a := w[1].toNat
  let b := w[4].toNat
  let v := argVd w
  let set := bits a 28 24
  let x := vat s.sets set ClSet.reset
  let size := w[5].toNat
  match s.vdev? v with
  | some d => if d.mode = 4 then .status s busySt else .status s (s.createErr w set (bits a 43 41) (bits a 23 16) (bits a 40 32) w[2].toNat w[3].toNat (bits b 63 32) size x)
  | none =>
    let e := s.createErr w set (bits a 43 41) (bits a 23 16) (bits a 40 32) w[2].toNat w[3].toNat (bits b 63 32) size x
    match s.pool with
    | root :: pool =>
      if e ≠ okSt then .status s e
      else
        let d := VDev.created (BitVec.ofNat 3 (bits a 43 41)) (BitVec.ofNat 8 (bits a 23 16)) root (bits a 40 32) w[2].toNat w[3].toNat
          (bits b 15 0) (bits b 31 16) (if size = 0 then ctxNeed x.mask else size) (bits b 63 32) ⟨set % 32, Nat.mod_lt _ (by decide)⟩ x.mask
        let s : State := { s.clearPage root with
          pool := pool, vds := tput s.vds v d, remap := s.remap.filter (fun e => e.1 / 64 != v),
          kickMap := s.kickMap.filter (fun e => e.1 / 512 != v) }
        .status (s.dumpHeader v) okSt
    | [] => .status s (if e = okSt then noRoom else e)

/-! ### Devices and sets (R388, R399, R404) -/

def doDestroy (w : Vector W64 8) (s : State) : Ended :=
  onDevice s (argVd w) fun _ => .later (s.destroyWork (fin512 (argVd w)))

def doSetweight (w : Vector W64 8) (s : State) : Ended :=
  onDevice s (argVd w) fun _ =>
    if bits w[2].toNat 7 0 = 0 then .status s badArg
    else .status (s.modVdev (argVd w) fun d => { d with weight := BitVec.ofNat 8 (bits w[2].toNat 7 0) }) okSt

def doDefset (w : Vector W64 8) (s : State) : Ended :=
  let n := bits w[1].toNat 4 0
  let m : BitVec 24 := w[2].truncate 24
  if !(s.holders n).isEmpty || (List.range 32).any fun k => k != n && (vat s.sets k ClSet.reset).defined && (vat s.sets k ClSet.reset).mask &&& m != 0 then
    .status s inUse
  else .status { s with sets := vput s.sets n { ClSet.reset with defined := true, mask := m } } okSt

/-- The CONCURRENT launches of a device fit on the cores of a mask (R404). -/
def State.launchesFit (s : State) (vd : Nat) (d : VDev) (m : BitVec 24) : Bool :=
  let d' : VDev := { d with grant := m }
  let s' := (s.modVdev vd fun _ => d').emptied d'
  (List.range s.launches.length).all fun n => match s.launches[n]? with
    | some l =>
      if l.vd.val = vd && l.items.progress = 0 && !l.complete then
        let t : State := { s' with launches := s'.launches.modify n fun l => { l with admitted := 0 } }
        match (t.admitMany n maxTrusses).launches[n]? with | some l => l.allAdmitted | none => false
      else true
    | none => true

def doSetset (w : Vector W64 8) (s : State) : Ended :=
  let v := argVd w
  let n := bits w[2].toNat 4 0
  let x := vat s.sets n ClSet.reset
  onDevice s v fun d =>
    if !x.defined then .status s badArg
    else if d.ctxSize < ctxNeed x.mask || !s.launchesFit v d x.mask then .status s noRoom
    else
      let s := s.modVdev v fun d => { d with moveTo := some ⟨n % 32, Nat.mod_lt _ (by decide)⟩ }
      let mark := fun (t : Truss) => if t.ofVd v && t.onCore then { t with evict := true } else t
      .later (({ s with trusses := s.trusses.map mark } : State).finishMove v)

def doSetmode (w : Vector W64 8) (s : State) : Ended :=
  onDevice s (argVd w) fun _ =>
    let m := bits w[2].toNat 2 0
    if 3 < m then .status s badArg else .status (s.modVdev (argVd w) fun d => { d with mode := BitVec.ofNat 3 m }) okSt

/-! ### Vectors (R225, R349, R398) -/

/-- A remap entry is written; clearing M sends a held message once. -/
def State.setVector (s : State) (e : Nat) (v m : Bool) (vec : Nat) : State :=
  let old := tget 0 s.remap e
  let held := old.getLsbD 61 && v
  let x := BitVec.ofNat 64 (v.toNat * 2 ^ 63 + m.toNat * 2 ^ 62 + (held && m).toNat * 2 ^ 61 + vec)
  let s : State := { s with remap := tset 0 s.remap e x }
  if held && !m then { s with hostOut := s.hostOut ++ [HostOut.msix (e / 64 + 1) vec] } else s

def doMapvec (w : Vector W64 8) (s : State) : Ended :=
  onDevice s (argVd w) fun _ =>
    if bits w[3].toNat 61 11 ≠ 0 then .status s badArg
    else .status (s.setVector (argVd w * 64 + bits w[2].toNat 5 0) (w[3].getLsbD 63) (w[3].getLsbD 62) (bits w[3].toNat 10 0)) okSt

/-! ### Stage-2 mappings (R216, R244, R390, R397) -/

/-- The place of a level-1 entry, with the tables above it taken from the pool where they lack; none when the pool is empty. -/
def State.makeLeaf (s : State) (gpa : Nat) : (n table : Nat) → Option (State × Nat)
  | 0, table => some (s, table + 8 * (gpa / 4096 % 512))
  | n + 1, table =>
    let a := table + 8 * (gpa / 2 ^ (21 + 9 * n) % (if n = 3 then 16 else 512))
    let e := readNat s.mem a 8
    if bit e 0 && !bit e 7 then s.makeLeaf gpa n (bits e 51 12 * 4096)
    else match s.pool with
      | [] => none
      | page :: pool =>
        (({ s with pool := pool } : State).clearPage page |>.supWrite a (natBytes 8 (page + 1))).makeLeaf gpa n page

/-- Leaf attribute bits of MBCMD5: W, X, U, CM, ATOM and HOST; a unit in host memory that may move is not valid (R215, R244). -/
def leafOf (attrs frame : Nat) : Nat :=
  let a := attrs &&& (0x1C + 2 ^ 9 + 2 ^ 57 + 2 ^ 58 + 2 ^ 59)
  a + frame * 4096 + 2 ^ 7 + (if bit a 9 && bits a 59 58 ≠ 1 then 0 else 1)

/-- `n` pages from a guest-physical address on are mapped; the answer says whether a valid leaf was replaced. -/
def State.mapPages (s : State) (root gpa frame attrs : Nat) : (n : Nat) → Option (State × Bool)
  | 0 => some (s, false)
  | n + 1 =>
    match s.makeLeaf gpa 4 root with
    | none => none
    | some (s', a) =>
      let was := bit (readNat s'.mem a 8) 0
      match (s'.supWrite a (natBytes 8 (leafOf attrs frame))).mapPages root (gpa + 4096) (frame + 1) attrs n with
      | none => none
      | some (s, r) => some (s, was || r)

/-- Waits on pages of a range: on a stage-2 fault, or on the page migration engine. -/
def inRange (base n : Nat) (p : Phase) : Bool :=
  match p with | .wait2 a | .paging a => base ≤ a && a < base + 4096 * n | _ => false

/-- Pages of device memory that meet a context area: no stage-2 mapping ever covers one (R405; log 49). -/
def State.coversContext (s : State) (attrs a n : Nat) : Bool :=
  !entryHost attrs && s.vds.any fun e => rangesMeet a n e.2.ctxBase e.2.ctxSize

def doMap2 (w : Vector W64 8) (s : State) : Ended :=
  let v := argVd w
  let base := w[2].toNat
  let n := w[4].toNat
  onDevice s v fun d =>
    if base % 4096 ≠ 0 || w[3].toNat % 4096 ≠ 0 || addrSpace < base + 4096 * n || addrSpace < w[3].toNat + 4096 * n ||
        bits w[5].toNat 59 58 = 3 || s.coversContext w[5].toNat w[3].toNat (4096 * n) then .status s badArg
    else match s.mapPages d.s2root base (w[3].toNat / 4096) w[5].toNat n with
      | none => .status s noRoom
      | some (s, replaced) =>
        let s := if replaced then s.raiseGen v else s
        let s : State := { s with faults := s.faults.filter fun f => !(f.space == v && f.stage2 && base ≤ f.addr && f.addr < base + 4096 * n) }
        .status (s.resolve v (inRange base n) false) okSt

/-- `n` pages are unmapped. -/
def State.unmapPages (s : State) (root gpa : Nat) : (n : Nat) → State
  | 0 => s
  | n + 1 =>
    let s := match leafAddr s.mem gpa 4 root with | some a => s.supWrite a (List.replicate 8 0) | none => s
    s.unmapPages root (gpa + 4096) n

def doUnmap2 (w : Vector W64 8) (s : State) : Ended :=
  let v := argVd w
  let base := w[2].toNat
  let n := w[4].toNat
  onDevice s v fun d =>
    if base % 4096 ≠ 0 || addrSpace < base + 4096 * n then .status s badArg
    else .status ((s.unmapPages d.s2root base n).raiseGen v) okSt

def doAbort2 (w : Vector W64 8) (s : State) : Ended :=
  let v := argVd w
  let page := w[2].toNat / 4096
  onDevice s v fun _ => .status (s.endStage2 v (fun a => a / 4096 == page) true) okSt

/-! ### Meters and dumps (R198, R390, R411) -/

/-- Acts also on a device that is DRAINING. -/
def onAny (s : State) (vd : Nat) (f : VDev → Ended) : Ended := match s.vdev? vd with | some d => f d | none => .status s noVdSt

def doMeters (w : Vector W64 8) (s : State) : Ended :=
  onAny s (argVd w) fun d =>
    if w[2].toNat % 8 ≠ 0 then .status s badArg else .status (s.pfWrite w[2].toNat (wordBytes d.meters.toList)) okSt

def doDumpack (w : Vector W64 8) (s : State) : Ended :=
  let v := argVd w
  let n := w[2].toNat
  onAny s v fun d =>
    if (d.dumpNext - d.dumpFreed).toNat < n then .status s badArg
    else
      let freed := d.dumpFreed + BitVec.ofNat 32 n
      .status ((s.modVdev v fun d =>
        { d with dumpFreed := freed, chainSlots := d.chainSlots.filter fun k => (k - freed).toNat < (d.dumpNext - freed).toNat }).dumpHeader v) okSt

/-! ### Queues (R338, R390, R391) -/

/-- Words 0 to 4 of a block are those given, words 5 and 6 those of its memory; it is UNMAPPED, nothing pending, no error, nothing
issued (R390). -/
def State.newQcb (s : State) (w : Vector W64 8) (blk : Nat) : Qcb :=
  { Qcb.blank.load (fun i => if i < 5 then (vat w (i + 2) 0).toNat else s.qcbWord blk i) with st := .unmapped, waitSince := 0, errSeq := 0, err := 0 }

/-- The block belongs to a device that is DRAINING (R390). -/
def State.drainingBlock (s : State) (blk : Nat) : Bool :=
  match s.qcb? blk with
  | some b => (match s.vdev? b.vd with | some d => d.mode == 4 | none => false)
  | none => false

def doQcreate (w : Vector W64 8) (s : State) : Ended :=
  let blk := bits w[1].toNat 15 0
  let b := s.newQcb w blk
  let k := b.vd.val * 512 + b.kidx.val
  onDevice s b.vd fun _ =>
    if s.drainingBlock blk then .status s busySt
    else if (s.qcb? blk).isSome || (tget 0 s.kickMap k).getLsbD 31 then .status s inUse
    else
      let s := s.putQcb blk b
      .status { s with kickMap := tset 0 s.kickMap k (BitVec.ofNat 32 (2 ^ 31 + (w[7].getLsbD 0).toNat * 2 ^ 30 + blk)) } okSt

def doQrestart (w : Vector W64 8) (s : State) : Ended :=
  let blk := bits w[1].toNat 15 0
  let tail : W32 := w[2].truncate 32
  match s.qcb? blk with
  | none => .status s badArg
  | some b =>
    onDevice s b.vd fun _ =>
      if (b.st ≠ .halted && b.st ≠ .faulted) || b.retire ≠ b.head then .status s busySt
      else if b.units < (tail - b.retire).toNat then .status s badArg
      else
        let s := s.modQcb blk fun b =>
          let b := { b with err := 0, errSeq := 0, head := b.retire, tail := tail, eseq := w[3].truncate 32, st := .unmapped, slot := none,
                            look := [], skip := 0, wait := .untranslated, ringAt := none }
          if b.idle then b else b.pend s.ioNow
        .status { s with passesDue := s.passesDue + (tail != b.retire).toNat } okSt

/-! ### Resets (R414, R415) -/

/-- The course in a slot of a core that belongs to a device: resident, or parked and holding its slot. -/
def State.courseAt (s : State) (vd core slot : Nat) : Option CRef :=
  (s.coursesWhere fun c k => !k.gone && k.slot == slot && match s.truss? c.truss with
    | some t => t.ofVd vd && t.place == .onCore core | none => false).head?

/-- A reset on a device: one that is not there holds no work, and the reset of what holds no work completes OK (R414). -/
def onTarget (s : State) (vd : Nat) (f : VDev → Ended) : Ended :=
  match s.vdev? vd with | none => .status s okSt | some _ => onDevice s vd f

def doResetCourse (w : Vector W64 8) (s : State) : Ended :=
  let x := w[2].toNat
  onTarget s (bits x 8 0) fun _ =>
    match s.courseAt (bits x 8 0) (bits x 16 9) (bits x 22 17) with
    | some c => .later (s.startKill (.course c) true)
    | none => .status s okSt

/-- The truss whose first course has the slot. -/
def doResetTruss (w : Vector W64 8) (s : State) : Ended :=
  let x := w[2].toNat
  onTarget s (bits x 8 0) fun _ =>
    let first := (List.range s.trusses.length).find? fun n => match s.truss? n with
      | some t => t.ofVd (bits x 8 0) && t.place == .onCore (bits x 16 9) && (t.courses.head?.map (·.slot)) == some (bits x 22 17)
      | none => false
    match first with
    | some n => .later (s.startKill (.truss n) true)
    | none => .status s okSt

/-- The device has work of any kind: trusses, launches, messages or packets. -/
def State.holdsWork (s : State) (vd : Nat) : Bool :=
  s.trusses.any (fun t => t.ofVd vd && t.place != .gone) || s.launches.any (fun l => l.vd.val == vd && !l.complete) ||
  s.cores.any (fun (c : Core) => c.amsgs.any fun m => m.vd.val == vd) ||
  s.queues.any fun e => e.2.vd.val == vd && (!e.2.idle || !e.2.infl.isEmpty)

/-- A device without work is reset as it stands: its control page holds what it holds at reset, with S1ROOT's change as R395 has it (R6,
R414). -/
def doResetDevice (w : Vector W64 8) (s : State) : Ended :=
  let v := bits w[2].toNat 8 0
  onTarget s v fun _ => 
    if s.holdsWork v then .later (s.resetWork (fin512 v))
    else .status (((s.modVdev v fun d => { d.resetPage with kdone := false }).raiseGen v).dropTlb fun e => e.space == v) okSt

/-- The number and kind name no engine. -/
def badEngine (n k : Nat) : Bool := 7 < k || (k < 4 && 192 ≤ n) || (k = 4 && 8 ≤ n)

def doResetEngine (w : Vector W64 8) (s : State) : Ended :=
  let n := bits w[2].toNat 7 0
  let k := bits w[2].toNat 11 8
  if badEngine n k then .status s badArg
  else .status (s.resetNoted n k) okSt

/-! ### Columns and links (R14, R242, R414) -/

def fin16 (n : Nat) : Fin 16 := ⟨n % 16, Nat.mod_lt _ (by decide)⟩

def doResetColumn (w : Vector W64 8) (s : State) : Ended :=
  let c := fin16 (bits w[2].toNat 3 0)
  if !s.powered.contains c.val then .status s okSt
  else if s.powered.length ≤ 4 then .status s noRoom
  else .later (s.beginFold c false true false true)

def doResetLink (w : Vector W64 8) (s : State) : Ended := .status (s.resetLink (bits w[2].toNat 3 0)) okSt

def doColumnOn (w : Vector W64 8) (s : State) : Ended :=
  let c := fin16 (bits w[1].toNat 3 0)
  if s.columnsGone.getLsbD c then .status s badArg
  else if s.columns.getLsbD c && !(s.folds.any fun f => f.col == c) then .status s okSt
  else .later (s.beginFold c true false false true)

def doColumnOff (w : Vector W64 8) (s : State) : Ended :=
  let c := fin16 (bits w[1].toNat 3 0)
  if !s.powered.contains c.val then .status s okSt
  else if s.powered.length ≤ 4 then .status s noRoom
  else .later (s.beginFold c false false false true)

/-! ### The doorbell -/

/-- The command that MBCMD0 names, by its code; RESET by its scope and COLUMN by its direction (R390, R414). -/
def doCommand (w : Vector W64 8) (s : State) : Ended :=
  match bits w[0].toNat 7 0 with
  | 0x01 => doCreate w s | 0x02 => doDestroy w s | 0x03 => doSetweight w s | 0x04 => doDefset w s
  | 0x05 => doSetset w s | 0x06 => doSetmode w s | 0x07 => doMapvec w s | 0x08 => doMap2 w s
  | 0x09 => doUnmap2 w s | 0x0A => doAbort2 w s | 0x0B => doMeters w s | 0x0C => doQcreate w s
  | 0x0D => doQrestart w s
  | 0x0E =>
    match bits w[1].toNat 3 0 with
    | 0 => doResetCourse w s | 1 => doResetTruss w s | 2 => doResetDevice w s | 3 => doResetEngine w s
    | 4 => doResetColumn w s | 5 => doResetLink w s | _ => .status s badArg
  | 0x0F => doDumpack w s
  | 0x10 => if w[2].getLsbD 0 then doColumnOn w s else doColumnOff w s
  | _ => .status s badArg

/-- The command words with the code in MBCMD0. -/
def coded (w : Vector W64 8) (code : Nat) : Vector W64 8 := w.set 0 (BitVec.ofNat 64 (w[0].toNat / 256 * 256 + code))
/-- The words of a RESET of a scope. -/
def ofScope (w : Vector W64 8) (scope : Nat) : Vector W64 8 := (coded w 0x0E).set 1 (BitVec.ofNat 64 (w[1].toNat / 16 * 16 + scope))

def execCreate (w : Vector W64 8) (s : State) : Out := .next (mailbox s (coded w 0x01) (doCreate w))
def execDestroy (w : Vector W64 8) (s : State) : Out := .next (mailbox s (coded w 0x02) (doDestroy w))
def execSetweight (w : Vector W64 8) (s : State) : Out := .next (mailbox s (coded w 0x03) (doSetweight w))
def execDefset (w : Vector W64 8) (s : State) : Out := .next (mailbox s (coded w 0x04) (doDefset w))
def execSetset (w : Vector W64 8) (s : State) : Out := .next (mailbox s (coded w 0x05) (doSetset w))
def execSetmode (w : Vector W64 8) (s : State) : Out := .next (mailbox s (coded w 0x06) (doSetmode w))
def execMapvec (w : Vector W64 8) (s : State) : Out := .next (mailbox s (coded w 0x07) (doMapvec w))
def execMap2 (w : Vector W64 8) (s : State) : Out := .next (mailbox s (coded w 0x08) (doMap2 w))
def execUnmap2 (w : Vector W64 8) (s : State) : Out := .next (mailbox s (coded w 0x09) (doUnmap2 w))
def execAbort2 (w : Vector W64 8) (s : State) : Out := .next (mailbox s (coded w 0x0A) (doAbort2 w))
def execMeters (w : Vector W64 8) (s : State) : Out := .next (mailbox s (coded w 0x0B) (doMeters w))
def execQcreate (w : Vector W64 8) (s : State) : Out := .next (mailbox s (coded w 0x0C) (doQcreate w))
def execQrestart (w : Vector W64 8) (s : State) : Out := .next (mailbox s (coded w 0x0D) (doQrestart w))
def execResetCourse (w : Vector W64 8) (s : State) : Out := .next (mailbox s (ofScope w 0) (doResetCourse w))
def execResetTruss (w : Vector W64 8) (s : State) : Out := .next (mailbox s (ofScope w 1) (doResetTruss w))
def execResetVirtualDevice (w : Vector W64 8) (s : State) : Out := .next (mailbox s (ofScope w 2) (doResetDevice w))
def execResetEngine (w : Vector W64 8) (s : State) : Out := .next (mailbox s (ofScope w 3) (doResetEngine w))
def execResetSliceColumn (w : Vector W64 8) (s : State) : Out := .next (mailbox s (ofScope w 4) (doResetColumn w))
def execResetOpticalLink (w : Vector W64 8) (s : State) : Out := .next (mailbox s (ofScope w 5) (doResetLink w))
def execDumpack (w : Vector W64 8) (s : State) : Out := .next (mailbox s (coded w 0x0F) (doDumpack w))
def execColumnOn (w : Vector W64 8) (s : State) : Out :=
  .next (mailbox s ((coded w 0x10).set 2 (w[2] ||| 1)) (doColumnOn w))
def execColumnOff (w : Vector W64 8) (s : State) : Out :=
  .next (mailbox s ((coded w 0x10).set 2 (w[2] &&& ~~~ 1)) (doColumnOff w))

/-! ### The control page (R394, R395) -/

/-- S1ROOT names a new root: the generation rises, and the space leaves every TLB; a write with other bits is ignored (R395). -/
def s1rootStep (s : State) (vd : Nat) (v : W64) : State :=
  if (s.vdev? vd).isNone || v &&& ~~~ (BitVec.ofNat 64 (2 ^ 52 - 4096)) != 0 then s
  else ((s.modVdev vd fun d => { d with s1root := v.toNat }).raiseGen vd).dropTlb fun e => e.space == vd

def execS1rootWrite (vd : Fin 512) (v : W64) (s : State) : Out := .next (s1rootStep s vd v)

/-- FLTBASE with a ring size in range and no other bit. -/
def fltbaseStep (s : State) (vd : Nat) (v : W64) : State :=
  let n := bits v.toNat 3 0
  if n < 7 || 12 < n || v &&& ~~~ (BitVec.ofNat 64 (2 ^ 52 - 4096 + 15)) != 0 then s
  else s.modVdev vd fun d => { d with fltbase := v }

def execFltbaseWrite (vd : Fin 512) (v : W64) (s : State) : Out := .next (fltbaseStep s vd v)

end Sys2Proof.Machine
end

