-- ==== Sys2Proof/Machine/Boot.lean ====
section
/-!
DEFINITION. Host-visible registers without a step of their own, bring-up, attestation, power and heat (00 R4, R5; 17 R389, R394; 18 R418;
19 R440; 20 R449 to R456).
-/
namespace Sys2Proof

/-! ### A module whose parts work (log 4) -/

/-- The values that the configuration image supplies. -/
def CfgFields.good : CfgFields :=
  ⟨some (BitVec.ofNat 64 Config.pwrLim), some (BitVec.ofNat 64 Config.cecThr), some (BitVec.ofNat 64 (Config.svrBase 0)),
   some (BitVec.ofNat 64 (Config.svrBase 1)), some [], some Config.fabricId, some Config.qcbBase, some Config.contribBase,
   some (Config.poolBase, Config.poolEnd)⟩

/-- The signer's public key. -/
def FlashImage.goodKey : List Byte := List.replicate 2592 0

/-- A sound image of a kind, with security version 0 and an empty body. -/
def FlashImage.good (kind : BitVec 64) : FlashImage :=
  ⟨0x56534B49_4D470001, kind, 0, 0, Vector.ofFn fun i => ((Machine.sha3 [])[i.val]?).getD 0, goodKey, List.replicate 4627 0, [], true⟩

/-- A bring-up in which every part works. -/
def BringUp.good : BringUp :=
  ⟨true, .good 1, Machine.sha3 FlashImage.goodKey, .good 2, .good, true, none, 0xFFFF, 0xFFFFFF⟩

end Sys2Proof

namespace Sys2Proof.Machine

/-! ### The checks of bring-up (R449, R450, R451) -/

/-- The digest of the firmware image's key, fixed in the boot ROM (R449; DESIGN CHOICE, log 4: the spec gives no key). -/
def romKey : List W64 := sha3 FlashImage.goodKey

/-- An image of a kind passes its checks, with the digest that its key must have (R449). -/
def imageOk (i : FlashImage) (kind : Nat) (key : List W64) : Bool :=
  i.magic.toNat == 0x56534B49_4D470001 && i.kind.toNat == kind && i.len.toNat == i.body.length && i.len.toNat ≤ 64 * 2 ^ 20 &&
  sha3 i.key == key && i.sigOk

/-- A field is there, in its range. -/
def givenIn {α : Type} (x : Option α) (p : α → Bool) : Bool := match x with | some v => p v | none => false

/-- Device memory (R15). -/
def memoryBytes : Nat := 2 ^ 39

/-- The configuration image gives every field, each in its range (R228, R417, R434, R450, R452). -/
def fieldsOk (f : CfgFields) : Bool :=
  givenIn f.pwrLim (fun v => decide (1000 ≤ v.toNat && v.toNat ≤ 2800)) && f.cecThr.isSome &&
  givenIn f.svrBase0 (fun v => decide (v.toNat < 2 ^ 57)) && givenIn f.svrBase1 (fun v => decide (v.toNat < 2 ^ 57)) &&
  givenIn f.fold (fun es => es.all fun e => decide (e.1 < 1024 && e.2.toNat < 128)) && givenIn f.fabricId (fun n => decide (n < 128)) &&
  givenIn f.qcbBase (fun a => decide (a + 256 * 65536 ≤ memoryBytes)) && givenIn f.contribBase (fun a => decide (a + 2 ^ 26 ≤ memoryBytes)) &&
  givenIn f.pool fun r => decide (r.1 ≤ r.2 && r.2 ≤ memoryBytes)

/-- The firmware image passes (step 4); so does the configuration image, whose key the firmware image names (step 5). -/
def fwOk (b : BringUp) : Bool := b.pufOk && imageOk b.fw 1 romKey
def cfgOk (b : BringUp) : Bool := fwOk b && imageOk b.cfg 2 b.cfgKey && fieldsOk b.fields

/-- Enough of the photonic layer locks (R14, R451 step 8). -/
def opticsOk (b : BringUp) : Bool := 4 ≤ ((List.range 16).filter b.columns.getLsbD).length && b.clusters != 0

/-- How step `n` fails: CODE and DETAIL of BOOTSTAT; none when it passes (R451). -/
def stepFails (b : BringUp) (n : Nat) : Option (Nat × Nat) :=
  match n with
  | 3 => if b.pufOk then none else some (1, 0)
  | 4 => if fwOk b then none else some (2, 0)
  | 5 => if cfgOk b then none else some (3, 0)
  | 6 => if b.sramOk then none else some (4, 0)
  | 7 => b.hbmFail.map fun n => (5, n)
  | 8 => if opticsOk b then none else some (6, 0)
  | _ => none

/-- Where a bring-up stops: the step, CODE and DETAIL; none when it passes. -/
def bootStops (b : BringUp) : Option (Nat × Nat × Nat) :=
  [3, 4, 5, 6, 7, 8].findSome? fun n => (stepFails b n).map fun x => (n, x.1, x.2)

/-! ### The steps of bring-up (R451) -/

/-- The memory that the configuration image gives the supervisor cluster (R392, R450; log 4). -/
def imagePool (lo hi : Nat) : List Nat :=
  ((List.range Config.tablePages).map fun i => lo + 4096 * i).filter fun a => a + 4096 ≤ hi
def imageUnits (lo hi : Nat) : List Nat :=
  ((List.range Config.freeUnits).map fun i => lo + Config.unitOffset + unit64 * i).filter fun a => a + unit64 ≤ hi

/-- Step 4 has passed: the firmware image's version and digest. -/
def State.readFirmware (s : State) (b : BringUp) : State := { s with fwSvn := b.fw.svn, fwDigest := b.fw.digest }

/-- Step 5 has passed: the configuration image supplies its fields (R450). -/
def State.readConfig (s : State) (b : BringUp) : State :=
  let f := b.fields
  let (lo, hi) := f.pool.getD (s.poolLo, s.poolHi)
  { s with
    cfgSvn := b.cfg.svn, cfgDigest := b.cfg.digest, pwrlim := f.pwrLim.getD s.pwrlim, cecthr := f.cecThr.getD s.cecthr,
    svrBase := #v[((f.svrBase0.map fun v => v.truncate 57)).getD (vat s.svrBase 0 0), ((f.svrBase1.map fun v => v.truncate 57)).getD (vat s.svrBase 1 0)],
    fold := (f.fold.getD []).foldl (fun t e => tput t e.1 e.2) [], fabricId := (f.fabricId.map fun n => BitVec.ofNat 7 n).getD s.fabricId,
    qcbBase := f.qcbBase.getD s.qcbBase, contribBase := f.contribBase.getD s.contribBase, poolLo := lo, poolHi := hi,
    pool := imagePool lo hi, hbmFree := imageUnits lo hi }

/-- Step 6: the compute dies leave reset with every SRAM zero, and the counters of cores and compute dies run, each from a moment of its own
(R12, R27; log 76). -/
def State.computeUp (s : State) : State :=
  { s with
    computeOn := true, dieCtr0 := vput (vput s.dieCtr0 0 (Config.counterStart s.tick 192)) 1 (Config.counterStart s.tick 193),
    cores := Vector.ofFn fun (i : Fin 192) => { Core.reset with cyc0 := Config.counterStart s.tick i.val },
    lines := [], dirty := [], l1 := [], icache := [], tlbs := [], tick := s.tick + 1 }

/-- Step 6 has passed: each die's service truss starts on its last core (R12, R468). -/
def State.startService (s : State) : State :=
  { s with
    svcCore := #v[95, 191],
    trusses := (s.trusses.filter fun t => !t.kernelMode) ++ (List.range 2).map fun die => serviceTruss die (95 + 96 * die) (s.nextId + die) s.clk,
    nextId := s.nextId + 2, tick := s.tick + 1 }

/-- Columns whose channels do not lock are off, their entries elsewhere (R242, step 8). -/
def State.bootFold (s : State) (columns : BitVec 16) : State :=
  if columns = 0xFFFF then { s with columns := 0xFFFF }
  else
    let cs := (List.range 16).filter columns.getLsbD
    let slices := (cs.map fun c => List.range' (8 * c) 8).flatten
    (List.range 1024).foldl (fun s h =>
      let home := (tget (foldWord false 0 (h % 128)) s.fold h).toNat % 128
      if columns.getLsbD (columnOf home) then s
      else
        let d := (slices[Config.foldTarget s.tick % slices.length]?).getD home
        { s with fold := tput s.fold h (foldWord false 0 d), tick := s.tick + 1 }) { s with columns := columns }

/-- Cores of clusters whose reply channels do not lock are retired (R446, step 8). -/
def State.bootCores (s : State) (clusters : BitVec 24) : State :=
  if clusters = 0xFFFFFF then s
  else (List.range 192).foldl (fun s c => if clusters.getLsbD (c / 8) then s else s.retireCore c) s

/-- Step 8: what locks stays in service. -/
def State.opticsUp (s : State) (b : BringUp) : State :=
  (if 4 ≤ ((List.range 16).filter b.columns.getLsbD).length then s.bootFold b.columns else s).bootCores b.clusters

/-- Step 9: the fabric links start training (R419). -/
def State.linksUp (s : State) : State := { s with links := s.links.map fun (l : Link) => { l with phase := 1, phaseStart := s.clk } }

/-- READY (R451). -/
def State.readyUp (s : State) : State := { s with power := .ready, bootStep := 10, bootCode := 0, bootDetail := 0, boot := none }

/-- Steps 5 to 10 of a bring-up that passes. -/
def State.ready (s : State) (b : BringUp) : State := (((((s.readConfig b).computeUp).startService).opticsUp b).linksUp).readyUp

/-- What step `n` does before its outcome is known, and what it does when it has passed. -/
def State.bootActs (s : State) (b : BringUp) (n : Nat) : State :=
  match n with
  | 6 => s.computeUp
  | 8 => s.opticsUp b
  | 9 => s.linksUp
  | 10 => s.readyUp
  | _ => s
def State.bootPassed (s : State) (b : BringUp) (n : Nat) : State :=
  match n with
  | 4 => s.readFirmware b
  | 5 => s.readConfig b
  | 6 => s.startService
  | _ => s

/-- The step of bring-up under way runs: it fails, or the next one is under way (R451). -/
def bootAdvance (s : State) : State :=
  match s.boot with
  | none => s
  | some b =>
    let n := s.bootStep.toNat
    let s := s.bootActs b n
    match stepFails b n with
    | some (code, detail) =>
      { s with power := .failed, bootCode := BitVec.ofNat 4 code, bootDetail := BitVec.ofNat 8 detail, boot := none }
    | none => if n < 10 then { s.bootPassed b n with bootStep := BitVec.ofNat 4 (n + 1) } else s

/-- Bring-up runs from step 3, whose run finds `b`. -/
def State.bootFrom3 (s : State) (b : BringUp) : State :=
  { s with power := .booting, bootStep := 3, bootCode := 0, bootDetail := 0, boot := some b }

/-- Steps 3 to 10 of a bring-up, one after another. -/
def State.bringUp (s : State) (b : BringUp) : State := (List.range 8).foldl (fun s _ => bootAdvance s) (s.bootFrom3 b)

/-- Module power comes on: the I/O-die counter starts, the host port trains, and step 3 is under way (R451, R471). -/
def powerOn (s : State) (b : BringUp) : State :=
  if s.power = .off then (({ s with dieCtr0 := vput s.dieCtr0 2 s.ioClk, passAt := s.ioClk } : State).hostTrained).bootFrom3 b else s

def execPowerOn (b : BringUp) (s : State) : Out := .next (powerOn s b)

/-- RETRY acts after a failure of bring-up; a thermal trip holds until power is cycled (R451, R455). -/
def bootRetry (s : State) (b : BringUp) : State := if s.power = .failed && s.bootCode ≠ 7 then s.bootFrom3 b else s

def execBootctlRetry (b : BringUp) (s : State) : Out := .next (bootRetry s b)

/-- A bring-up that finds what it finds (log 77). -/
def State.freeBringUp (s : State) : BringUp :=
  let w := fun (i : Nat) => Config.bootWord s.tick i
  let bytes := fun (at_ n : Nat) => (List.range n).map fun i => BitVec.ofNat 8 (w (at_ + i))
  let given := fun {α : Type} (i : Nat) (x : α) => if w i == 0 then none else some x
  let image := fun (n : Nat) => (⟨BitVec.ofNat 64 (w n), BitVec.ofNat 64 (w (n + 1)), BitVec.ofNat 64 (w (n + 2)), BitVec.ofNat 64 (w (n + 3)),
    Vector.ofFn fun i => BitVec.ofNat 64 (w (n + 4 + i.val)), bytes (n + 20) 2592, bytes (n + 4000) 4627,
    bytes (n + 10000) (w (n + 13)), w (n + 12) == 0⟩ : FlashImage)
  let entry := fun (i : Nat) => (w (200 + 2 * i), BitVec.ofNat 32 (w (201 + 2 * i)))
  let fields : CfgFields :=
    ⟨given 20 (BitVec.ofNat 64 (w 21)), given 22 (BitVec.ofNat 64 (w 23)), given 24 (BitVec.ofNat 64 (w 25)), given 26 (BitVec.ofNat 64 (w 27)),
     given 28 ((List.range (w 29)).map entry), given 30 (w 31), given 32 (w 33), given 34 (w 35), given 36 (w 37, w 38)⟩
  { pufOk := w 0 == 0, fw := image 100000, cfgKey := (List.range 8).map fun i => BitVec.ofNat 64 (w (40 + i)), cfg := image (10 ^ 9),
    fields := fields, sramOk := w 2 == 0, hbmFail := if w 3 < 8 then some (w 3) else none, columns := BitVec.ofNat 16 (w 4),
    clusters := BitVec.ofNat 24 (w 5) }

/-- A write of 1 to RETRY by itself: bring-up runs with the flash as it then stands (R451, R452). -/
def retryWrite (s : State) : State := { bootRetry s s.freeBringUp with tick := s.tick + 2 }

/-! ### Attestation (R453) -/

/-- The report: the nonce, both SVNs, the images' digests, the fabric device ID, the key's digest, the die counters and the signature over
the digest of all of these; the key and the signature are free (log 12), and the places are the model's (log 84). -/
def State.report (s : State) : List Byte :=
  let key := (List.range 2592).map Config.identityByte
  let contents := wordBytes (s.nonce.toList ++ [s.fwSvn, s.cfgSvn] ++ s.fwDigest.toList ++ s.cfgDigest.toList) ++
    natBytes 8 s.fabricId.toNat ++ wordBytes (sha3 key) ++ wordBytes [s.dieCtr 0, s.dieCtr 1, s.dieCtr 2]
  contents ++ (List.range 4627).map (Config.signatureByte ((sha3 contents).map (·.toNat)) s.tick)

/-- ATTEST with READY 1 and BUSY 0 makes the supervisor cluster busy with a report; a write at any other time is counted (R453). -/
def attest (s : State) : State :=
  if s.power ≠ .ready || s.attstat.getLsbD 63 then s.discard else { s with attstat := BitVec.ofNat 64 (2 ^ 63) }

/-- The report is made of what stands now, the nonce included (R456); it is written, and DONE follows. -/
def attestStep (s : State) : State :=
  if s.power ≠ .ready || !s.attstat.getLsbD 63 then s
  else { s.pfWrite s.attaddr.toNat s.report with attstat := 1, tick := s.tick + 1 }

def execBootctlAttest (s : State) : Out := .next (attest s)

/-! ### Power and heat (R454, R455) -/

/-- Module power exceeds the limit, or a junction exceeds 105 degrees (R454). -/
def State.overLimit (s : State) : Bool := s.pwrlim.toNat < s.pwrnow.toNat || 105 < s.junction.toNat

/-- A limit in range is taken; another write is ignored. -/
def powerLimit (s : State) (v : W64) : State := if 1000 ≤ v.toNat && v.toNat ≤ 2800 then { s with pwrlim := v } else s

def execPwrlimWrite (v : W64) (s : State) : Out := .next (if s.power = .off then s else powerLimit s v)

/-- While power or heat is in excess, arbiters and engines withhold issue cycles; results and order stay. The happening is the moment at
which the sensors show the excess, or show it gone (R454). -/
def execPowerThrottle (excess : Bool) (s : State) : Out :=
  .next (if s.power = .ready && s.overLimit == excess then { s with throttled := excess } else s)

/-- A junction at 115 degrees, in whatever step of bring-up: the event names no core, the compute dies lose power, and FAIL holds with
CODE 7 (R455). -/
def thermalTrip (s : State) : State :=
  if s.power = .off || (s.power = .failed && s.bootCode = 7) then s
  else
    { s.postEvent 0x25 2 noVd 0 0xFF (BitVec.ofNat 64 s.inServiceCores) with
      power := .failed, computeOn := false, bootCode := 7, bootDetail := 0, boot := none }

def execThermalTrip (s : State) : Out := .next (thermalTrip s)

/-- Module power goes: what the host holds, what has left the port, and the model's own fields stay. -/
def powerOff (s : State) : State :=
  { State.reset with
    agenda := s.agenda, tick := s.tick + 1, clk := s.clk, ioClk := s.ioClk, hostMem := s.hostMem, hostPsn := s.hostPsn, pfHost := s.pfHost,
    hostOut := s.hostOut }

def execModulePowerOff (s : State) : Out := .next (powerOff s)

/-! ### Other registers (R4, R5) -/

/-- Bits kept of a write. -/
def keep (v : W64) (hi lo : Nat) : W64 := BitVec.ofNat 64 (bits v.toNat hi lo * 2 ^ lo)

/-- The mailbox page (R389). The low bits of an EVBASE that is not aligned to 4 KiB are dropped (DESIGN CHOICE, log 77). -/
def mailboxWrite (s : State) (off : Nat) (v : W64) : State :=
  match off with
  | 0x40 => if v = 1 then mailbox s s.mbcmd (doCommand s.mbcmd) else s
  | 0x80 => ({ s with evBase := keep v 63 12 } : State).flushEvents s.evWait.length
  | 0x88 => ({ s with evSize := keep v 4 0 } : State).flushEvents s.evWait.length
  | 0x98 => ({ s with evHead := v } : State).flushEvents s.evWait.length
  | _ => if off % 8 = 0 && off < 0x40 then { s with mbcmd := vput s.mbcmd (off / 8) v } else s

/-- The command that FBCMD0 names (R418). -/
def fabricDoor (s : State) : State :=
  let w := s.fbcmd
  match bits w[0].toNat 7 0 with
  | 1 => outState s (execRoute w s) | 2 => outState s (execEpset w s) | 3 => outState s (execGset w s)
  | 4 => outState s (execGclr w s) | 5 => outState s (execQuiesce w s) | 6 => outState s (execRelock w s)
  | _ => fabricCommand s w fun s => s.fabricStatus 1
where
  outState (s : State) (o : Out) : State := match o with | .next s' => s' | _ => s

/-- The fabric page (R418). -/
def fabricWrite (s : State) (off : Nat) (v : W64) : State :=
  if off = 0x60 then if v = 1 then fabricDoor s else s
  else if off % 8 = 0 && off < 0x60 then { s with fbcmd := vput s.fbcmd (off / 8) v } else s

/-- CAPCTL: OVF and MIS are cleared by a 1; a replay begins with every record unused (R440, R447). -/
def captureControl (s : State) (v : W64) : State :=
  let flags := s.capctl &&& ~~~ v &&& 0x1800
  { s with capctl := keep v 10 0 ||| flags,
           replayed := if v.getLsbD 9 && v.getLsbD 10 && !(s.capctl.getLsbD 9 && s.capctl.getLsbD 10) then [] else s.replayed }

/-- The health page (R440). The low bits of a CAPBASE that is not aligned to 4 KiB are dropped (DESIGN CHOICE, log 77). -/
def healthWrite (s : State) (off : Nat) (v : W64) : State :=
  match off with
  | 0x28 => { s with cecthr := v }
  | 0x38 => captureControl s v
  | 0x40 => { s with capbase := keep v 63 12 }
  | 0x48 => { s with capsize := keep v 4 0 }
  | 0x58 => { s with caphead := v }
  | _ => s

/-- The boot page (R452). The low bits of an ATTADDR that is not aligned to 8 KiB are dropped (DESIGN CHOICE, log 77). -/
def bootWrite (s : State) (off : Nat) (v : W64) : State :=
  match off with
  | 0x08 =>
    let s := if v.getLsbD 1 then attest s else s
    if v.getLsbD 0 then retryWrite s else s
  | 0x80 => { s with attaddr := keep v 63 13 }
  | 0x90 => powerLimit s v
  | _ => if off % 8 = 0 && 0x40 ≤ off && off < 0x80 then { s with nonce := vput s.nonce (off / 8 - 8) v } else s

/-- The control page of a virtual function (R394). -/
def controlWrite (s : State) (vd off : Nat) (v : W64) : State :=
  match off with
  | 0x00 => if v.getLsbD 8 then s.modVdev vd fun d => { d with kdone := false } else s
  | 0x08 => s1rootStep s vd v
  | 0x10 => fltbaseStep s vd v
  | 0x20 => s.modVdev vd fun d => { d with flthead := v }
  | 0x28 => s.fltres vd v (v.getLsbD 63)
  | 0x30 => s.modVdev vd fun d => { d with vecs := keep v 5 0 ||| keep v 13 8 ||| keep v 17 16 }
  | _ => s

/-- A write to a register; before READY, and after a failure, only the boot page answers (R451). -/
def registerWrite (s : State) (page : HostPage) (off : Nat) (v : W64) : State :=
  match page with
  | .boot => if s.power = .off then s else bootWrite s off v
  | page =>
    if s.power ≠ .ready then s
    else match page with
      | .mailbox => mailboxWrite s off v
      | .fabric => fabricWrite s off v
      | .health => healthWrite s off v
      | .boot => s
      | .control vd => controlWrite s vd off v
      | .msix vd =>
        if off % 8 = 0 && off < 0x8000 then s.modVdev vd fun d => { d with msix := tset 0 d.msix (off / 8) v } else s

/-! ### Reads of registers (R4, R5, R393) -/

/-- A mailbox's status word: BUSY and the status. -/
def statusWord (busy : Bool) (st : BitVec 16) : W64 := BitVec.ofNat 64 (st.toNat + busy.toNat * 2 ^ 63)

/-- LSTAT of a link (R418). -/
def Link.word (l : Link) : W64 :=
  let st := match l.st with | .down => 0 | .training => 1 | .up => 2 | .quiet => 3 | .dark => 4
  BitVec.ofNat 64 (st + l.phase % 16 * 8 + l.txmask.toNat * 2 ^ 16 + l.rxmask.toNat * 2 ^ 32 + l.retrains.toNat * 2 ^ 48)

/-- BOOTSTAT (R452). -/
def State.bootWord (s : State) : W64 :=
  BitVec.ofNat 64 (s.bootStep.toNat + (s.power == .ready).toNat * 2 ^ 4 + (s.power == .failed).toNat * 2 ^ 5 + s.bootCode.toNat * 2 ^ 8 +
    s.bootDetail.toNat * 2 ^ 16)

/-- Word `i` of a function's MSI-X pending-bit array: a vector is pending while a remap entry to it holds a masked interrupt (R225, R393). -/
def State.pendingBits (s : State) (vd i : Nat) : W64 :=
  BitVec.ofNat 64 (maskOf 64 fun n => (List.range 64).any fun k =>
    let e := tget 0 s.remap (vd * 64 + k)
    e.getLsbD 63 && e.getLsbD 61 && bits e.toNat 10 0 == 64 * i + n)

/-- A page of registers as it reads: an action, a reserved place and a place of no register read 0 (R4, R5). -/
def State.pageWord (s : State) (page : HostPage) (off : Nat) : W64 :=
  let i := off / 8
  match page with
  | .mailbox =>
    if off < 0x40 then vat s.mbcmd i 0
    else match off with
      | 0x48 => statusWord s.mbBusy s.mbStatus
      | 0x80 => s.evBase | 0x88 => s.evSize | 0x90 => s.evTail | 0x98 => s.evHead
      | _ => if 0x50 ≤ off && off < 0x70 then vat s.mbOut (i - 10) 0 else 0
  | .fabric =>
    if off < 0x60 then vat s.fbcmd i 0
    else if off = 0x68 then statusWord s.fbBusy.isSome s.fbStatus
    else if 0x70 ≤ off && off < 0x90 then vat s.fbOut (i - 14) 0
    else if 0x100 ≤ off && off < 0x180 then (vat s.links (i - 32) Link.reset).word
    else 0
  | .health =>
    match off with
    | 0x00 => s.cecnt | 0x08 => s.uecnt | 0x10 => s.strikes | 0x18 => s.degrade | 0x20 => s.rrcnt | 0x28 => s.cecthr | 0x30 => s.discards
    | 0x38 => s.capctl | 0x40 => s.capbase | 0x48 => s.capsize | 0x50 => s.captail | 0x58 => s.caphead | _ => 0
  | .boot =>
    match off with
    | 0x00 => s.bootWord | 0x10 => s.fwSvn | 0x18 => s.cfgSvn
    | 0x80 => s.attaddr | 0x88 => s.attstat | 0x90 => s.pwrlim | 0x98 => s.pwrnow | 0xA0 => s.tjmax
    | _ => if 0x40 ≤ off && off < 0x80 then vat s.nonce (i - 8) 0 else 0
  | .control vd =>
    match s.vdev? vd with
    | none => 0
    | some d =>
      match off with
      | 0x00 => BitVec.ofNat 64 (d.mode.toNat + d.kdone.toNat * 2 ^ 8) | 0x08 => BitVec.ofNat 64 d.s1root | 0x10 => d.fltbase
      | 0x18 => d.flttail | 0x20 => d.flthead | 0x30 => d.vecs | _ => 0
  | .msix vd =>
    if off < 0x8000 then (match s.vdev? vd with | some d => tget 0 d.msix i | none => 0)
    else if off < 0x8100 then s.pendingBits vd (i - 0x1000)
    else 0

/-- A page answers: the boot page once power is on, the others once the device is READY, and those of a virtual function while its device
exists (R393, R451). -/
def State.answers (s : State) (page : HostPage) : Bool :=
  match page with
  | .boot => s.power != .off
  | .mailbox | .fabric | .health => s.power == .ready
  | .control vd | .msix vd => s.power == .ready && (s.vdev? vd).isSome

/-- What the host reads at a register's place; none where the read gets Unsupported Request. -/
def registerRead (s : State) (page : HostPage) (off : Nat) : Option W64 :=
  if s.answers page && off % 8 == 0 then some (s.pageWord page off) else none

/-- What a read leaves: TJMAX starts anew (R452). Other registers stay. -/
def afterRead (s : State) (page : HostPage) (off : Nat) : State :=
  if page = .boot && off = 0xA0 && s.answers page then { s with tjmax := s.junction } else s

def execRegisterWrite (page : HostPage) (off : Nat) (v : W64) (s : State) : Out := .next (registerWrite s page off v)

end Sys2Proof.Machine
end

