-- ==== Sys2Proof/Machine/Transcendental.lean ====
section
/-!
DEFINITION. Division, roots and the transcendental functions, correctly rounded (07 R149, R150). The transcendentals are enclosed
between two fixed-point bounds; when both round alike at a precision of 256, 512 or 1024 bits, that is the result (log 20).
-/
namespace Sys2Proof.Machine

/-- The square root of `n`, rounded down, bit by bit from `2 ^ k`. -/
def isqrtFrom (n : Nat) : (k r : Nat) → Nat
  | 0, r => r
  | k + 1, r => let t := r + 2 ^ k; isqrtFrom n k (if t * t ≤ n then t else r)

/-- The square root of `n`, rounded down. -/
def isqrt (n : Nat) : Nat := isqrtFrom n (Nat.log2 n / 2 + 1) 0

/-- A quotient of nonzero numbers to `p + 3` bits or more, rounded once. -/
def Fmt.quot (f : Fmt) (rm : RMode) (neg : Bool) (m1 : Nat) (e1 : Int) (m2 : Nat) (e2 : Int) : FRes :=
  let k := Nat.log2 m2 + f.fb + 4
  let n := m1 * 2 ^ k
  f.round rm neg (n / m2) (e1 - e2 - k) (n % m2 != 0)

/-- IEEE division (R149). -/
def fDiv (f : Fmt) (rm : RMode) (a b : FVal) : FRes :=
  match a, b with
  | .nan s, y => (f.nan, flagIf (s || y.isSig) fNV)
  | x, .nan s => (f.nan, flagIf (s || x.isSig) fNV)
  | .inf _, .inf _ => (f.nan, fNV)
  | .inf n, y => (f.inf (n != y.neg), 0)
  | x, .inf n => (f.zero (x.neg != n), 0)
  | .fin n m e, .fin n' m' e' =>
    if m' = 0 then if m = 0 then (f.nan, fNV) else (f.inf (n != n'), fDZ)
    else if m = 0 then (f.zero (n != n'), 0)
    else f.quot rm (n != n') m e m' e'

/-- `frcp`: 1/a (R149). -/
def fRcp (f : Fmt) (rm : RMode) (a : FVal) : FRes := fDiv f rm (.fin false 1 0) a

/-- A magnitude with an even exponent and at least `p` bits. -/
def evenScale (p m : Nat) (e : Int) : Nat × Int :=
  let k := p - Nat.log2 m
  let k := if (e - k) % 2 = 0 then k else k + 1
  (m * 2 ^ k, e - k)

/-- `fsqrt` (R149). -/
def fSqrt (f : Fmt) (rm : RMode) (a : FVal) : FRes :=
  match a with
  | .nan s => (f.nan, flagIf s fNV)
  | .inf n => if n then (f.nan, fNV) else (f.inf false, 0)
  | .fin n m e =>
    if m = 0 then (f.zero n, 0)
    else if n then (f.nan, fNV)
    else
      let (m, e) := evenScale (2 * f.fb + 8) m e
      let r := isqrt m
      f.round rm false r (e / 2) (r * r != m)

/-- `frsq`: 1/√a (R149). With a = m × 2^e, e even, the result is √(2^2k / m) × 2^(−k − e/2). -/
def fRsq (f : Fmt) (rm : RMode) (a : FVal) : FRes :=
  match a with
  | .nan s => (f.nan, flagIf s fNV)
  | .inf n => if n then (f.nan, fNV) else (f.zero false, 0)
  | .fin n m e =>
    if m = 0 then (f.inf n, fDZ)
    else if n then (f.nan, fNV)
    else
      let (m, e) := if e % 2 = 0 then (m, e) else (2 * m, e - 1)
      let k := Nat.log2 m + f.fb + 5
      let r := isqrt (2 ^ (2 * k) / m)
      f.round rm false r (-(k : Int) - e / 2) (r * r * m != 2 ^ (2 * k))

/-! ### Fixed-point series: values are multiples of 2^−P -/

/-- The sum of z^(2k+1)/(2k+1), `n` terms: `zk` is z^(2k+1), `z2` is z², in units of 2^−P. -/
def atanhSum (P z2 : Nat) : (n zk d : Nat) → Nat
  | 0, _, _ => 0
  | n + 1, zk, d => zk / d + atanhSum P z2 n (zk * z2 / 2 ^ P) (d + 2)

/-- The alternating sum for the arc tangent. -/
def atanSum (P z2 : Nat) : (n zk d : Nat) → Int
  | 0, _, _ => 0
  | n + 1, zk, d => (zk / d : Nat) - atanSum P z2 n (zk * z2 / 2 ^ P) (d + 2)

/-- ln 2 = 2 artanh(1/3). -/
def ln2Fix (P : Nat) : Nat := 2 * atanhSum P (2 ^ P / 9) (P / 3 + 2) (2 ^ P / 3) 1

/-- π = 16 arctan(1/5) − 4 arctan(1/239). -/
def piFix (P : Nat) : Nat :=
  (16 * atanSum P (2 ^ P / 25) (P / 4 + 2) (2 ^ P / 5) 1 - 4 * atanSum P (2 ^ P / 57121) (P / 15 + 2) (2 ^ P / 239) 1).toNat

/-- The sum of t^k/k! from term `tk` on. -/
def expSum (P t : Nat) : (n tk k : Nat) → Nat
  | 0, _, _ => 0
  | n + 1, tk, k => tk + expSum P t n (tk * t / 2 ^ P / (k + 1)) (k + 1)

/-- The alternating sum of r^k/k! for k, k + 2, ...: sine from k = 1, cosine from k = 0. -/
def trigSum (P r2 : Nat) : (n tk k : Nat) → Int
  | 0, _, _ => 0
  | n + 1, tk, k => (tk : Int) - trigSum P r2 n (tk * r2 / 2 ^ P / ((k + 1) * (k + 2))) (k + 2)

/-- How far, in units of 2^−P, a bound stands off the computed value: more than every truncation above adds up to. -/
def slack : Nat := 2 ^ 20

/-- The result that two bounds agree on: `lo` and `hi` are multiples of `2 ^ e` around an irrational value. -/
def agree (f : Fmt) (rm : RMode) (neg : Bool) (lo hi : Nat) (e : Int) : Option FRes :=
  if lo = 0 then none
  else
    let a := f.round rm neg lo e true
    if a = f.round rm neg hi e true then some a else none

/-- The first agreement over the three precisions; else one of the two roundings of the last bounds, a free value (log 20). -/
def decideRound (op code : Nat) (f : Fmt) (rm : RMode) (b : Nat → Bool × Nat × Nat × Int) : FRes :=
  let at_ (P : Nat) : Option FRes := let (neg, lo, hi, e) := b P; agree f rm neg lo hi e
  match at_ 256 with
  | some r => r
  | none => match at_ 512 with
    | some r => r
    | none => match at_ 1024 with
      | some r => r
      | none =>
        let (neg, lo, hi, e) := b 1024
        if Config.roundingUndecided op code then f.round rm neg hi e true else f.round rm neg (lo + 1) e true

/-- The floor of a dyadic number at `2 ^ (−P)`: the number times `2 ^ P`, rounded down. -/
def fixFloor (P : Nat) (neg : Bool) (m : Nat) (e : Int) : Int :=
  let s : Int := if neg then -(m : Int) else m
  let k := e + P
  if 0 ≤ k then s * (2 ^ k.toNat : Nat) else s / ((2 ^ (-k).toNat : Nat) : Int)

/-- `fexp2` (R149). -/
def fExp2 (f : Fmt) (rm : RMode) (code : Nat) : FRes :=
  match f.decode code with
  | .nan s => (f.nan, flagIf s fNV)
  | .inf n => (if n then f.zero false else f.inf false, 0)
  | .fin neg m e =>
    if m = 0 then f.round rm false 1 0 false
    else
      let w := fixFloor 0 neg m e
      if 4096 < w then f.round rm false 1 4096 true
      else if w < -4096 then f.round rm false 1 (-4096) true
      else if fixFloor 256 neg m e = w * (2 ^ 256 : Nat) ∧ 0 ≤ e + 256 then f.round rm false 1 w false
      else decideRound 0 code f rm fun P =>
        let fr := (fixFloor P neg m e - w * (2 ^ P : Nat)).toNat
        let v := expSum P (fr * ln2Fix P / 2 ^ P) (P / 2 + 8) (2 ^ P) 0
        (false, v - slack, v + slack, w - P)

/-- log2 of `m × 2 ^ e` in units of 2^−P, with its sign. -/
def log2Fix (P m : Nat) (e : Int) : Int :=
  let L := Nat.log2 m
  let z := (m - 2 ^ L) * 2 ^ P / (m + 2 ^ L)
  let ln := 2 * atanhSum P (z * z / 2 ^ P) (P / 3 + 2) z 1
  (e + L) * (2 ^ P : Nat) + (ln * 2 ^ P / ln2Fix P : Nat)

/-- `flog2` (R149). -/
def fLog2 (f : Fmt) (rm : RMode) (code : Nat) : FRes :=
  match f.decode code with
  | .nan s => (f.nan, flagIf s fNV)
  | .inf n => if n then (f.nan, fNV) else (f.inf false, 0)
  | .fin neg m e =>
    if m = 0 then (f.inf true, fDZ)
    else if neg then (f.nan, fNV)
    else if m = 2 ^ Nat.log2 m then
      let k := e + Nat.log2 m
      if k = 0 then (f.zero false, 0) else f.round rm (k < 0) k.natAbs 0 false
    else decideRound 1 code f rm fun P =>
      let v := log2Fix P m e
      (v < 0, v.natAbs - slack, v.natAbs + slack, -(P : Int))

/-- Sine (`cos = false`) or cosine of `m × 2 ^ e`, the argument's sign apart: its sign and value in units of 2^−P, by quadrant
reduction with enough further bits of π that the argument's own magnitude costs nothing. -/
def trigFix (P : Nat) (cos : Bool) (m : Nat) (e : Int) : Bool × Nat :=
  let Q := P + 192
  let a := (fixFloor Q false m e).toNat
  let half := piFix Q / 2
  let q := a / half % 4
  let r := (a % half) / 2 ^ 192
  let r2 := r * r / 2 ^ P
  let useCos := (q % 2 = 1) != cos
  let v := if useCos then trigSum P r2 (P / 4 + 16) (2 ^ P) 0 else trigSum P r2 (P / 4 + 16) r 1
  (if cos then q = 1 || q = 2 else 2 ≤ q, v.toNat)

/-- `fsin` and `fcos` (R149). -/
def fTrig (f : Fmt) (rm : RMode) (cos : Bool) (code : Nat) : FRes :=
  match f.decode code with
  | .nan s => (f.nan, flagIf s fNV)
  | .inf _ => (f.nan, fNV)
  | .fin neg m e =>
    if m = 0 then if cos then f.round rm false 1 0 false else (f.zero neg, 0)
    else decideRound (if cos then 3 else 2) code f rm fun P =>
      let (s, v) := trigFix P cos m e
      (s != (neg && !cos), v - slack, v + slack, -(P : Int))

end Sys2Proof.Machine
end

