-- ==== Sys2Proof/Machine/Float.lean ====
section
/-!
DEFINITION. Floating-point and conversion words (07 R139 to R156).
-/
namespace Sys2Proof.Machine

/-- The element a word reads from a source: 16, 32 or 64 bits (R139). -/
def Course.elem (k : Course) (f : Fmt) (a : Reg) (l : Nat) : Nat :=
  if f.width = 64 then (k.src64 a l).toNat else (k.src32 a l).toNat % 2 ^ f.width

/-- The value of a source element. -/
def Course.fval (k : Course) (f : Fmt) (a : Reg) (l : Nat) : FVal := f.decode (k.elem f a l)

/-- Registers of a format. -/
def Fmt.regs (f : Fmt) : Nat := if f.width = 64 then 2 else 1

/-- The latency class of the plain words: 6, or 8 for f64 (R97, R143). -/
def Fmt.plainClass (f : Fmt) : Nat := if f.width = 64 then 8 else 6

/-- A fixed-latency word whose lanes give a 64-bit result and flags (R64, R88, R112). -/
def Ctx.flagWord (x : Ctx) (gd : Guard) (L regs : Nat) (d : Reg) (f : Nat → W64 × FFlags) : Course :=
  let ex := x.r.execFor gd d
  (x.lanewise gd L regs d fun l => (f l).1).raise L (laneFlags ex fun l => (f l).2)

/-- A fixed-latency word whose lanes give a code and flags. -/
def Ctx.fWord (x : Ctx) (gd : Guard) (L regs : Nat) (d : Reg) (f : Nat → FRes) : Course :=
  x.flagWord gd L regs d fun l => (BitVec.ofNat 64 (f l).1, (f l).2)

/-- The rounding mode of a word at issue (R140). -/
def Ctx.rm (x : Ctx) (rm : RM) : RMode := rmOf rm x.r.rmode

/-! ### Arithmetic (R144 to R148) -/

def execFadd (gd : Guard) (t : FTy) (rm : RM) (d a b : Reg) (s : State) : Out :=
  .next (issueCourse (.fadd gd t rm d a b) s fun x =>
    x.fWord gd (fmtOf t).plainClass (fmtOf t).regs d fun l =>
      fAdd (fmtOf t) (x.rm rm) (x.r.fval (fmtOf t) a l) (x.r.fval (fmtOf t) b l))

def execFsub (gd : Guard) (t : FTy) (rm : RM) (d a b : Reg) (s : State) : Out :=
  .next (issueCourse (.fsub gd t rm d a b) s fun x =>
    x.fWord gd (fmtOf t).plainClass (fmtOf t).regs d fun l =>
      fSub (fmtOf t) (x.rm rm) (x.r.fval (fmtOf t) a l) (x.r.fval (fmtOf t) b l))

def execFmul (gd : Guard) (t : FTy) (rm : RM) (d a b : Reg) (s : State) : Out :=
  .next (issueCourse (.fmul gd t rm d a b) s fun x =>
    x.fWord gd (fmtOf t).plainClass (fmtOf t).regs d fun l =>
      fMul (fmtOf t) (x.rm rm) (x.r.fval (fmtOf t) a l) (x.r.fval (fmtOf t) b l))

def execFma (gd : Guard) (t : FTy) (rm : RM) (d a b : Reg) (c : VReg) (s : State) : Out :=
  .next (issueCourse (.fma gd t rm d a b c) s fun x =>
    x.fWord gd (fmtOf t).plainClass (fmtOf t).regs d fun l =>
      fFma (fmtOf t) (x.rm rm) (x.r.fval (fmtOf t) a l) (x.r.fval (fmtOf t) b l) (x.r.fval (fmtOf t) (.v c) l))

def execFmin (gd : Guard) (t : FTy) (d a b : Reg) (s : State) : Out :=
  .next (issueCourse (.fmin gd t d a b) s fun x =>
    x.fWord gd (fmtOf t).plainClass (fmtOf t).regs d fun l =>
      fMinMax (fmtOf t) false (x.r.elem (fmtOf t) a l) (x.r.elem (fmtOf t) b l))

def execFmax (gd : Guard) (t : FTy) (d a b : Reg) (s : State) : Out :=
  .next (issueCourse (.fmax gd t d a b) s fun x =>
    x.fWord gd (fmtOf t).plainClass (fmtOf t).regs d fun l =>
      fMinMax (fmtOf t) true (x.r.elem (fmtOf t) a l) (x.r.elem (fmtOf t) b l))

def execFcmp (gd : Guard) (t : FTy) (cc : FCond) (d : PDst) (a b : Reg) (s : State) : Out :=
  .next (issueCourse (.fcmp gd t cc d a b) s fun x =>
    let f := fmtOf t
    let r := fun l => fCompare f cc (x.r.elem f a l) (x.r.elem f b l)
    let ex := x.r.exec gd
    (x.predWord f.plainClass ex d fun l => (r l).1).raise f.plainClass (laneFlags ex fun l => (r l).2))

def execFscl (gd : Guard) (t : FTy) (rm : RM) (d a b : Reg) (s : State) : Out :=
  .next (issueCourse (.fscl gd t rm d a b) s fun x =>
    x.fWord gd 8 (fmtOf t).regs d fun l => fScl (fmtOf t) (x.rm rm) (x.r.fval (fmtOf t) a l) (x.r.src32 b l).toInt)

def execFrnd (gd : Guard) (t : FTy) (rm : RM) (d a : Reg) (s : State) : Out :=
  .next (issueCourse (.frnd gd t rm d a) s fun x =>
    x.fWord gd 8 (fmtOf t).regs d fun l => fRnd (fmtOf t) (x.rm rm) (x.r.fval (fmtOf t) a l))

def execFclass (gd : Guard) (t : FTy) (d a : Reg) (s : State) : Out :=
  .next (issueCourse (.fclass gd t d a) s fun x =>
    x.fWord gd 8 1 d fun l => (fClass (fmtOf t) (x.r.elem (fmtOf t) a l), 0))

/-! ### Packed words (R144, R145) -/

/-- Element `i` of a packed source (R61). -/
def Course.half (k : Course) (a : Reg) (i l : Nat) : Nat := (k.src32 a l).toNat / 2 ^ (16 * i) % 2 ^ 16

/-- The same operation on element 0 and element 1. -/
def packed (f : Nat → FRes) : FRes := ((f 1).1 * 2 ^ 16 + (f 0).1, (f 0).2 ||| (f 1).2)

/-- The value of a packed element. -/
def Course.hval (k : Course) (t : X2Ty) (a : Reg) (i l : Nat) : FVal := (fmtX2 t).decode (k.half a i l)

def execHadd2 (gd : Guard) (t : X2Ty) (rm : RM) (d a b : Reg) (s : State) : Out :=
  .next (issueCourse (.hadd2 gd t rm d a b) s fun x =>
    x.fWord gd 6 1 d fun l => packed fun i => fAdd (fmtX2 t) (x.rm rm) (x.r.hval t a i l) (x.r.hval t b i l))

def execHmul2 (gd : Guard) (t : X2Ty) (rm : RM) (d a b : Reg) (s : State) : Out :=
  .next (issueCourse (.hmul2 gd t rm d a b) s fun x =>
    x.fWord gd 6 1 d fun l => packed fun i => fMul (fmtX2 t) (x.rm rm) (x.r.hval t a i l) (x.r.hval t b i l))

def execHfma2 (gd : Guard) (t : X2Ty) (rm : RM) (d a b : Reg) (c : VReg) (s : State) : Out :=
  .next (issueCourse (.hfma2 gd t rm d a b c) s fun x =>
    x.fWord gd 6 1 d fun l => packed fun i =>
      fFma (fmtX2 t) (x.rm rm) (x.r.hval t a i l) (x.r.hval t b i l) (x.r.hval t (.v c) i l))

def execHmin2 (gd : Guard) (t : X2Ty) (d a b : Reg) (s : State) : Out :=
  .next (issueCourse (.hmin2 gd t d a b) s fun x =>
    x.fWord gd 6 1 d fun l => packed fun i => fMinMax (fmtX2 t) false (x.r.half a i l) (x.r.half b i l))

def execHmax2 (gd : Guard) (t : X2Ty) (d a b : Reg) (s : State) : Out :=
  .next (issueCourse (.hmax2 gd t d a b) s fun x =>
    x.fWord gd 6 1 d fun l => packed fun i => fMinMax (fmtX2 t) true (x.r.half a i l) (x.r.half b i l))

/-! ### Token-class words (R149, R150) -/

/-- An operation on a token that is complete when it issues: its results land when its count falls (R150, R179). -/
def Ctx.tokenResult (x : Ctx) (tk : Tok) (ws : List RegVal) (dests : List Nat) (fl : FFlags) : Course :=
  x.k.issueOp tk .nothing ws (flags := fl) (dests := dests)

/-- A token-class floating word. -/
def Ctx.tokWord (x : Ctx) (gd : Guard) (tk : Tok) (regs : Nat) (d : VReg) (f : Nat → FRes) : Course :=
  let ex := x.r.exec gd
  x.tokenResult tk (if ex = 0 then [] else resultVals regs (.v d) ex fun l => BitVec.ofNat 64 (f l).1) (List.range' d.val regs)
    (laneFlags ex fun l => (f l).2)

def execFrcp (gd : Guard) (t : FTy) (rm : RM) (tk : Tok) (d : VReg) (a : Reg) (s : State) : Out :=
  .next (issueCourse (.frcp gd t rm tk d a) s fun x =>
    x.tokWord gd tk (fmtOf t).regs d fun l => fRcp (fmtOf t) (x.rm rm) (x.r.fval (fmtOf t) a l))

def execFrsq (gd : Guard) (t : FTy) (rm : RM) (tk : Tok) (d : VReg) (a : Reg) (s : State) : Out :=
  .next (issueCourse (.frsq gd t rm tk d a) s fun x =>
    x.tokWord gd tk (fmtOf t).regs d fun l => fRsq (fmtOf t) (x.rm rm) (x.r.fval (fmtOf t) a l))

def execFsqrt (gd : Guard) (t : FTy) (rm : RM) (tk : Tok) (d : VReg) (a : Reg) (s : State) : Out :=
  .next (issueCourse (.fsqrt gd t rm tk d a) s fun x =>
    x.tokWord gd tk (fmtOf t).regs d fun l => fSqrt (fmtOf t) (x.rm rm) (x.r.fval (fmtOf t) a l))

def execFexp2 (gd : Guard) (t : HTy) (rm : RM) (tk : Tok) (d : VReg) (a : Reg) (s : State) : Out :=
  .next (issueCourse (.fexp2 gd t rm tk d a) s fun x =>
    x.tokWord gd tk 1 d fun l => fExp2 (fmtH t) (x.rm rm) (x.r.elem (fmtH t) a l))

def execFlog2 (gd : Guard) (t : HTy) (rm : RM) (tk : Tok) (d : VReg) (a : Reg) (s : State) : Out :=
  .next (issueCourse (.flog2 gd t rm tk d a) s fun x =>
    x.tokWord gd tk 1 d fun l => fLog2 (fmtH t) (x.rm rm) (x.r.elem (fmtH t) a l))

def execFsin (gd : Guard) (t : HTy) (rm : RM) (tk : Tok) (d : VReg) (a : Reg) (s : State) : Out :=
  .next (issueCourse (.fsin gd t rm tk d a) s fun x =>
    x.tokWord gd tk 1 d fun l => fTrig (fmtH t) (x.rm rm) false (x.r.elem (fmtH t) a l))

def execFcos (gd : Guard) (t : HTy) (rm : RM) (tk : Tok) (d : VReg) (a : Reg) (s : State) : Out :=
  .next (issueCourse (.fcos gd t rm tk d a) s fun x =>
    x.tokWord gd tk 1 d fun l => fTrig (fmtH t) (x.rm rm) true (x.r.elem (fmtH t) a l))

def execFdiv (gd : Guard) (t : FTy) (rm : RM) (tk : Tok) (d : VReg) (a b : Reg) (s : State) : Out :=
  .next (issueCourse (.fdiv gd t rm tk d a b) s fun x =>
    x.tokWord gd tk (fmtOf t).regs d fun l =>
      fDiv (fmtOf t) (x.rm rm) (x.r.fval (fmtOf t) a l) (x.r.fval (fmtOf t) b l))

/-! ### Conversions (R151 to R154) -/

def execFcvt (gd : Guard) (t src : FTy) (rm : RM) (d a : Reg) (s : State) : Out :=
  .next (issueCourse (.fcvt gd t src rm d a) s fun x =>
    x.fWord gd 8 (fmtOf t).regs d fun l => (fmtOf t).ofVal (x.rm rm) (x.r.fval (fmtOf src) a l))

def execIcvt (gd : Guard) (t : FTy) (src : WTy) (rm : RM) (d a : Reg) (s : State) : Out :=
  .next (issueCourse (.icvt gd t src rm d a) s fun x =>
    x.fWord gd 8 (fmtOf t).regs d fun l => (fmtOf t).ofVal (x.rm rm) (intVal (x.r.int (numW src) a l) 0))

def execFicvt (gd : Guard) (t : WTy) (src : FTy) (rm : RM) (d a : Reg) (s : State) : Out :=
  .next (issueCourse (.ficvt gd t src rm d a) s fun x =>
    x.flagWord gd 8 (numW t).regs d fun l => toInt (numW t) (x.rm rm) (x.r.fval (fmtOf src) a l))

/-- The field of D is written; D's other bits are those it held at issue (R152). -/
def execQcvt (gd : Guard) (t : HTy) (f : NFmt) (sat : Bool) (d : VReg) (a : Reg) (pos : Fin 8) (s : State) : Out :=
  .next (issueCourse (.qcvt gd t f sat d a pos) s fun x =>
    x.fWord gd 8 1 (.v d) fun l =>
      let (c, fl) := toNFmt f sat (x.r.fval (fmtH t) a l)
      ((putField (narrowBits f) pos (x.r.vget d l) c).toNat, fl))

/-- The value a `qexp` reads (R153). -/
def qexpVal (f : QSrc) (pos : Nat) (x : W32) : FVal :=
  match f with
  | .narrow n => narrowVal n (getField (narrowBits n) pos x)
  | .s10 => s10Val (getField 16 pos x)

/-- An expansion is exact and raises no flag (R73, R153). -/
def execQexp (gd : Guard) (t : QTy) (f : QSrc) (d a : Reg) (pos : Fin 8) (s : State) : Out :=
  .next (issueCourse (.qexp gd t f d a pos) s fun x =>
    x.fWord gd 8 1 d fun l => (((fmtQ t).ofVal .rne (qexpVal f pos (x.r.src32 a l))).1, 0))

def execScvt (gd : Guard) (f : ScaleFmt) (d a : Reg) (s : State) : Out :=
  .next (issueCourse (.scvt gd f d a) s fun x => x.fWord gd 8 1 d fun l => scaleCode f (x.r.fval fmtF32 a l))

/-- One E4M3 or E5M2 code of a register (R155). -/
def dotCode (e5 : Bool) (x : W32) (j : Nat) : FVal :=
  narrowVal (if e5 then .e5m2 else .e4m3) (x.toNat / 2 ^ (8 * j) % 256)

/-- The exact sum of c and four products, rounded once (R155). Infinite products join c by IEEE rules; a NaN among the codes or
the products raises NV, and so does a signalling c. -/
def fDot4 (rm : RMode) (ae5 be5 : Bool) (a b : W32) (c : FVal) : FRes :=
  let ps := (List.range 4).map fun j => mulVal (dotCode ae5 a j) (dotCode be5 b j)
  let isNan := ps.any FVal.isNan || (ps.any (· == .inf true) && ps.any (· == .inf false))
  if isNan then (fmtF32.nan, fNV)
  else if ps.any FVal.isInf then fmtF32.ofVal rm (addVal (zeroNeg rm) (.inf (ps.any (· == .inf true))) c)
  else fmtF32.ofVal rm (ps.foldl (addVal (zeroNeg rm)) c)

def execFdot4 (gd : Guard) (rm : RM) (ae5 be5 : Bool) (d a b : Reg) (c : VReg) (s : State) : Out :=
  .next (issueCourse (.fdot4 gd rm ae5 be5 d a b c) s fun x =>
    x.fWord gd 8 1 d fun l =>
      fDot4 (x.rm rm) ae5 be5 (x.r.src32 a l) (x.r.src32 b l) (x.r.fval fmtF32 (.v c) l))

/-! ### Immediate words (R156) -/

/-- The FP32 immediate (R83). -/
def immF32 (imm : BitVec 30) : Nat := imm.toNat * 4

def execFmovi (gd : Guard) (d : Reg) (imm : BitVec 30) (s : State) : Out :=
  .next (issueCourse (.fmovi gd d imm) s fun x => x.fWord gd 4 1 d fun _ => (immF32 imm, 0))

def execFaddi (gd : Guard) (d a : Reg) (imm : BitVec 30) (s : State) : Out :=
  .next (issueCourse (.faddi gd d a imm) s fun x =>
    x.fWord gd 6 1 d fun l => fAdd fmtF32 .rne (x.r.fval fmtF32 a l) (fmtF32.decode (immF32 imm)))

def execFmuli (gd : Guard) (d a : Reg) (imm : BitVec 30) (s : State) : Out :=
  .next (issueCourse (.fmuli gd d a imm) s fun x =>
    x.fWord gd 6 1 d fun l => fMul fmtF32 .rne (x.r.fval fmtF32 a l) (fmtF32.decode (immF32 imm)))

end Sys2Proof.Machine
end

