-- ==== Sys2Proof/Machine/Integer.lean ====
section
/-!
DEFINITION. Integer, predicate and lane words (06 R121 to R137).
-/
namespace Sys2Proof.Machine

/-! ### Arithmetic (R126, R127) -/

/-- The result clamped to the type's range when SAT is 1 (R126). -/
def saturate (t : NumTy) (sat : Bool) (x : Int) : Int := if sat then max t.lo (min t.hi x) else x

def execAdd (gd : Guard) (t : IntTy) (sat : Bool) (d a b : Reg) (s : State) : Out :=
  .next (issueCourse (.add gd t sat d a b) s fun x =>
    x.intWord gd (numI t) d fun l => saturate (numI t) sat (x.r.int (numI t) a l + x.r.int (numI t) b l))

def execSub (gd : Guard) (t : IntTy) (sat : Bool) (d a b : Reg) (s : State) : Out :=
  .next (issueCourse (.sub gd t sat d a b) s fun x =>
    x.intWord gd (numI t) d fun l => saturate (numI t) sat (x.r.int (numI t) a l - x.r.int (numI t) b l))

def execMul (gd : Guard) (t : IntTy) (d a b : Reg) (s : State) : Out :=
  .next (issueCourse (.mul gd t d a b) s fun x =>
    x.intWord gd (numI t) d fun l => x.r.int (numI t) a l * x.r.int (numI t) b l)

/-- The upper `w` bits of the exact product (R126). -/
def execMulh (gd : Guard) (t : IntTy) (d a b : Reg) (s : State) : Out :=
  .next (issueCourse (.mulh gd t d a b) s fun x =>
    x.intWord gd (numI t) d fun l => (x.r.int (numI t) a l * x.r.int (numI t) b l) / ((2 ^ (numI t).w : Nat) : Int))

def execMad (gd : Guard) (t : IntTy) (d a b : Reg) (c : VReg) (s : State) : Out :=
  .next (issueCourse (.mad gd t d a b c) s fun x =>
    x.intWord gd (numI t) d fun l =>
      x.r.int (numI t) a l * x.r.int (numI t) b l + x.r.int (numI t) (.v c) l)

/-- A and B are 32-bit, C and D 64-bit (R127). -/
def execMadw (gd : Guard) (t : MadwTy) (d a b : Reg) (c : VReg) (s : State) : Out :=
  .next (issueCourse (.madw gd t d a b c) s fun x =>
    x.intWord gd ⟨64, true⟩ d fun l =>
      x.r.int (numMadw t) a l * x.r.int (numMadw t) b l + x.r.int ⟨64, true⟩ (.v c) l)

def execMin (gd : Guard) (t : IntTy) (d a b : Reg) (s : State) : Out :=
  .next (issueCourse (.min gd t d a b) s fun x =>
    x.intWord gd (numI t) d fun l => min (x.r.int (numI t) a l) (x.r.int (numI t) b l))

def execMax (gd : Guard) (t : IntTy) (d a b : Reg) (s : State) : Out :=
  .next (issueCourse (.max gd t d a b) s fun x =>
    x.intWord gd (numI t) d fun l => max (x.r.int (numI t) a l) (x.r.int (numI t) b l))

def execAbs (gd : Guard) (t : STy) (sat : Bool) (d a : Reg) (s : State) : Out :=
  .next (issueCourse (.abs gd t sat d a) s fun x =>
    x.intWord gd (numS t) d fun l => saturate (numS t) sat ((x.r.int (numS t) a l).natAbs : Int))

def execNeg (gd : Guard) (t : STy) (sat : Bool) (d a : Reg) (s : State) : Out :=
  .next (issueCourse (.neg gd t sat d a) s fun x =>
    x.intWord gd (numS t) d fun l => saturate (numS t) sat (-(x.r.int (numS t) a l)))

/-- `a + b × 2 ^ s` with A 64-bit and B of its type (R127). -/
def execLea (gd : Guard) (t : WTy) (d a b : Reg) (sh : Fin 8) (s : State) : Out :=
  .next (issueCourse (.lea gd t d a b sh) s fun x =>
    x.intWord gd ⟨64, true⟩ d fun l => x.r.int ⟨64, true⟩ a l + x.r.int (numW t) b l * ((2 ^ sh.val : Nat) : Int))

/-! ### Logic, shifts and bits (R128) -/

/-- A word on `w`-bit patterns. -/
def Ctx.patWord (x : Ctx) (gd : Guard) (t : NumTy) (d : Reg) (f : Nat → Nat) : Course :=
  x.intWord gd t d fun l => (f l : Int)

def execAnd (gd : Guard) (t : BTy) (d a b : Reg) (s : State) : Out :=
  .next (issueCourse (.and gd t d a b) s fun x =>
    x.patWord gd (numB t) d fun l => x.r.pat (numB t) a l &&& x.r.pat (numB t) b l)

def execOr (gd : Guard) (t : BTy) (d a b : Reg) (s : State) : Out :=
  .next (issueCourse (.or gd t d a b) s fun x =>
    x.patWord gd (numB t) d fun l => x.r.pat (numB t) a l ||| x.r.pat (numB t) b l)

def execXor (gd : Guard) (t : BTy) (d a b : Reg) (s : State) : Out :=
  .next (issueCourse (.xor gd t d a b) s fun x =>
    x.patWord gd (numB t) d fun l => x.r.pat (numB t) a l ^^^ x.r.pat (numB t) b l)

/-- The complement of a `w`-bit pattern. -/
def flip (w x : Nat) : Nat := 2 ^ w - 1 - x % 2 ^ w

def execAndn (gd : Guard) (t : BTy) (d a b : Reg) (s : State) : Out :=
  .next (issueCourse (.andn gd t d a b) s fun x =>
    x.patWord gd (numB t) d fun l => x.r.pat (numB t) a l &&& flip (numB t).w (x.r.pat (numB t) b l))

def execNot (gd : Guard) (t : BTy) (d a : Reg) (s : State) : Out :=
  .next (issueCourse (.not gd t d a) s fun x => x.patWord gd (numB t) d fun l => flip (numB t).w (x.r.pat (numB t) a l))

def execShl (gd : Guard) (t : BTy) (d a b : Reg) (s : State) : Out :=
  .next (issueCourse (.shl gd t d a b) s fun x =>
    x.patWord gd (numB t) d fun l => x.r.pat (numB t) a l * 2 ^ (x.r.cnt b l % (numB t).w))

def execShr (gd : Guard) (t : BTy) (d a b : Reg) (s : State) : Out :=
  .next (issueCourse (.shr gd t d a b) s fun x =>
    x.patWord gd (numB t) d fun l => x.r.pat (numB t) a l / 2 ^ (x.r.cnt b l % (numB t).w))

/-- Copies of the top bit come in: the floor of the signed value over the power of two. -/
def execSar (gd : Guard) (t : SarTy) (d a b : Reg) (s : State) : Out :=
  .next (issueCourse (.sar gd t d a b) s fun x =>
    x.intWord gd (numSar t) d fun l =>
      x.r.int (numSar t) a l / ((2 ^ (x.r.cnt b l % (numSar t).w) : Nat) : Int))

/-- A `w`-bit pattern rotated left by `n`. -/
def rotl (w a n : Nat) : Nat := if n = 0 then a else (a * 2 ^ n) % 2 ^ w ||| a / 2 ^ (w - n)

def execRot (gd : Guard) (t : BTy) (d a b : Reg) (s : State) : Out :=
  .next (issueCourse (.rot gd t d a b) s fun x =>
    x.patWord gd (numB t) d fun l => rotl (numB t).w (x.r.pat (numB t) a l) (x.r.cnt b l % (numB t).w))

/-- Position and length of a field from its position word, cut to the width; length 0 where the field is empty (R128). -/
def fieldOf (w b : Nat) : Nat × Nat :=
  let pos := bits b 5 0
  let len := bits b 14 8
  if w ≤ pos || len = 0 then (0, 0) else (pos, Nat.min len (w - pos))

def execBfe (gd : Guard) (t : WTy) (d a b : Reg) (s : State) : Out :=
  .next (issueCourse (.bfe gd t d a b) s fun x =>
    x.intWord gd (numW t) d fun l =>
      let (pos, len) := fieldOf (numW t).w (x.r.cnt b l)
      let f := x.r.pat (numW t) a l / 2 ^ pos % 2 ^ len
      if len = 0 then 0 else NumTy.value ⟨len, (numW t).sg⟩ f)

def execBfi (gd : Guard) (t : BTy) (d a b : Reg) (c : VReg) (s : State) : Out :=
  .next (issueCourse (.bfi gd t d a b c) s fun x =>
    x.patWord gd (numB t) d fun l =>
      let (pos, len) := fieldOf (numB t).w (x.r.cnt b l)
      let m := (2 ^ len - 1) * 2 ^ pos
      (x.r.pat (numB t) (.v c) l &&& flip (numB t).w m) ||| ((x.r.pat (numB t) a l * 2 ^ pos) &&& m))

/-- How many of the low `w` bits are 1. -/
def popBits (w x : Nat) : Nat := ((List.range w).filter (fun i => x.testBit i)).length
/-- How many 0 bits lie above the highest 1 bit; `w` for 0. -/
def clzBits (w x : Nat) : Nat := if x % 2 ^ w = 0 then w else w - 1 - Nat.log2 (x % 2 ^ w)
/-- The low `w` bits in reverse order. -/
def revBits (w x : Nat) : Nat := maskOf w fun i => x.testBit (w - 1 - i)

def execPop (gd : Guard) (t : BTy) (d a : Reg) (s : State) : Out :=
  .next (issueCourse (.pop gd t d a) s fun x => x.patWord gd (numB t) d fun l => popBits (numB t).w (x.r.pat (numB t) a l))

def execClz (gd : Guard) (t : BTy) (d a : Reg) (s : State) : Out :=
  .next (issueCourse (.clz gd t d a) s fun x => x.patWord gd (numB t) d fun l => clzBits (numB t).w (x.r.pat (numB t) a l))

def execBrev (gd : Guard) (t : BTy) (d a : Reg) (s : State) : Out :=
  .next (issueCourse (.brev gd t d a) s fun x => x.patWord gd (numB t) d fun l => revBits (numB t).w (x.r.pat (numB t) a l))

/-! ### Predicates, selection and moves (R129 to R131) -/

/-- A condition on two integers (R129). -/
def condHolds (cc : Cond) (a b : Int) : Bool :=
  match cc with
  | .eq => a = b | .ne => a ≠ b | .lt => a < b | .le => a ≤ b | .gt => b < a | .ge => b ≤ a

def execCmp (gd : Guard) (t : IntTy) (cc : Cond) (d : PDst) (a b : Reg) (s : State) : Out :=
  .next (issueCourse (.cmp gd t cc d a b) s fun x =>
    x.predWord 4 (x.r.exec gd) d fun l => condHolds cc (x.r.int (numI t) a l) (x.r.int (numI t) b l))

/-- Bit (pa × 4 + pb × 2 + pc) of the truth table (R130). -/
def execPlog (gd : Guard) (d : PDst) (a b c : PSrc) (tt : BitVec 8) (s : State) : Out :=
  .next (issueCourse (.plog gd d a b c tt) s fun x =>
    x.predWord 4 (x.r.exec gd) d fun l =>
      tt.getLsbD (((x.r.pget a).getLsbD l).toNat * 4 + ((x.r.pget b).getLsbD l).toNat * 2 + ((x.r.pget c).getLsbD l).toNat))

def execSel (gd : Guard) (t : BTy) (d a b : Reg) (p : PSrc) (inv : Bool) (s : State) : Out :=
  .next (issueCourse (.sel gd t d a b p inv) s fun x =>
    x.patWord gd (numB t) d fun l =>
      if (x.r.pget p).getLsbD l != inv then x.r.pat (numB t) a l else x.r.pat (numB t) b l)

def execMov (gd : Guard) (t : BTy) (d a : Reg) (s : State) : Out :=
  .next (issueCourse (.mov gd t d a) s fun x => x.patWord gd (numB t) d fun l => x.r.pat (numB t) a l)

/-! ### I-form words (R132, R133) -/

def execAddi (gd : Guard) (d a : Reg) (imm : BitVec 30) (s : State) : Out :=
  .next (issueCourse (.addi gd d a imm) s fun x => x.immWord gd d a (· + imm.toInt))

/-- A bitwise operation on two integers at width `w`. -/
def bitwise (w : Nat) (f : Nat → Nat → Nat) (a b : Int) : Int := (f (wrap w a) (wrap w b) : Nat)

def execAndi (gd : Guard) (d a : Reg) (imm : BitVec 30) (s : State) : Out :=
  .next (issueCourse (.andi gd d a imm) s fun x => x.immWord gd d a fun y => bitwise (immWidth d) (· &&& ·) y imm.toInt)

def execOri (gd : Guard) (d a : Reg) (imm : BitVec 30) (s : State) : Out :=
  .next (issueCourse (.ori gd d a imm) s fun x => x.immWord gd d a fun y => bitwise (immWidth d) (· ||| ·) y imm.toInt)

def execXori (gd : Guard) (d a : Reg) (imm : BitVec 30) (s : State) : Out :=
  .next (issueCourse (.xori gd d a imm) s fun x => x.immWord gd d a fun y => bitwise (immWidth d) (· ^^^ ·) y imm.toInt)

def execMovi (gd : Guard) (d : Reg) (imm : BitVec 30) (s : State) : Out :=
  .next (issueCourse (.movi gd d imm) s fun x => x.intWord gd ⟨immWidth d, true⟩ d fun _ => imm.toInt)

def execMuli (gd : Guard) (d a : Reg) (imm : BitVec 30) (s : State) : Out :=
  .next (issueCourse (.muli gd d a imm) s fun x => x.immWord gd d a (· * imm.toInt))

def execLeai (gd : Guard) (d a : Reg) (off : BitVec 27) (sh : Fin 8) (s : State) : Out :=
  .next (issueCourse (.leai gd d a off sh) s fun x => x.immWord gd d a (· + off.toInt * ((2 ^ sh.val : Nat) : Int)))

/-- The compare of `cmpi`: at width 64 for a g source and 32 for a v source, signed or unsigned (R133). -/
def cmpiHolds (k : Course) (cc : Cond) (uns : Bool) (a : Reg) (imm : BitVec 30) (l : Nat) : Bool :=
  let w := immWidth a
  condHolds cc (NumTy.value ⟨w, !uns⟩ (wrap w (k.immSrc w a l))) (NumTy.value ⟨w, !uns⟩ (wrap w imm.toInt))

def execCmpi (gd : Guard) (cc : Cond) (uns : Bool) (d : PDst) (a : Reg) (imm : BitVec 30) (s : State) : Out :=
  .next (issueCourse (.cmpi gd cc uns d a imm) s fun x => x.predWord 4 (x.r.exec gd) d (cmpiHolds x.r cc uns a imm))

/-! ### Lane exchange (R134 to R137) -/

/-- The source lane of `shfl` (R135). -/
def shflLane (m : ShflMode) (wl : Fin 6) (ex : LaneMask) (b l : Nat) : Nat :=
  let seg := 2 ^ wl.val
  let base := l - l % seg
  let r := l % seg
  let src := match m with
    | .pick => base + b % seg
    | .rot => base + (r + b) % seg
    | .mir => base + (seg - 1 - r + b) % seg
    | .xch => base + (r ^^^ (b % seg))
  if ex.getLsbD src then src else l

/-- Lanes may see the same source lane's register inside a shadow differently; each reads it as old or new (R135). -/
def execShfl (gd : Guard) (t : BTy) (m : ShflMode) (wl : Fin 6) (d a : VReg) (b : Reg) (c : GReg) (s : State) : Out :=
  .next (issue (.shfl gd t m wl d a b c) s fun x =>
    let ex := x.r.exec gd
    x.exchange ex c (x.k.landAll x.s.tick 8 ex (resultVals t.regs (.v d) ex fun l =>
      (x.k.seen (x.s.tick + 32 * 2 ^ 64 * (l + 1))).src t.regs (.v a) (shflLane m wl ex (x.r.cnt b l) l))))

/-- The lanes of X in which predicate `a` is true. -/
def votes (k : Course) (ex : LaneMask) (a : PSrc) : LaneMask := ex &&& k.pget a

def votePred (m : VotePred) (ex y : LaneMask) : Bool :=
  match m with
  | .all => y == ex
  | .any => y != 0
  | .odd => laneCount y % 2 == 1
  | .same => y == ex || y == 0

def voteReg (m : VoteReg) (y : LaneMask) : Nat :=
  match m with
  | .mask => y.toNat
  | .count => laneCount y
  | .first => lowestLane y

/-- A predicate result, or a register result (R136). -/
def voteEffect (x : Ctx) (gd : Guard) (op : VoteOp) (a : PSrc) (c : GReg) : Res :=
  match op with
  | .pred m d =>
    let ex := x.r.exec gd
    x.exchange ex c (x.predWord 8 ex d fun _ => votePred m ex (votes x.r ex a))
  | .reg m d =>
    let ex := x.r.exchangeSet gd (match d with | .g _ => true | .v _ => false)
    x.exchange ex c (x.k.landAll x.s.tick 8 ex (resultVals 1 d ex fun _ => BitVec.ofNat 64 (voteReg m (votes x.r ex a))))

def execVote (gd : Guard) (op : VoteOp) (a : PSrc) (c : GReg) (s : State) : Out :=
  .next (issue (.vote gd op a c) s fun x => voteEffect x gd op a c)

/-- The type of a `redl`. -/
def redlNum : RedlOp → NumTy
  | .add t | .min t | .max t => numW t
  | .and t | .or t | .xor t => numB t

/-- The combination of two values (R137). -/
def redlCombine (op : RedlOp) (a b : Int) : Int :=
  match op with
  | .add _ => a + b
  | .min _ => min a b
  | .max _ => max a b
  | .and t => bitwise (numB t).w (· &&& ·) a b
  | .or t => bitwise (numB t).w (· ||| ·) a b
  | .xor t => bitwise (numB t).w (· ^^^ ·) a b

/-- The combination over a list of values. -/
def redlAll (op : RedlOp) : List Int → Int
  | [] => 0
  | y :: ys => ys.foldl (redlCombine op) y

/-- The combination over X, or the inclusive prefix (R137). -/
def redlValue (k : Course) (op : RedlOp) (scan : Bool) (ex : LaneMask) (a : Reg) (l : Nat) : Int :=
  redlAll op (((lanesIn ex).filter fun j => !scan || j ≤ l).map (k.int (redlNum op) a))

def execRedl (gd : Guard) (op : RedlOp) (scan : Bool) (d a : Reg) (c : GReg) (s : State) : Out :=
  .next (issue (.redl gd op scan d a c) s fun x =>
    let ex := x.r.exchangeSet gd (match d with | .g _ => true | .v _ => false)
    x.exchange ex c (x.k.landAll x.s.tick 8 ex (resultVals (redlNum op).regs d ex fun l =>
      (redlNum op).result (redlValue x.r op scan ex a l))))

end Sys2Proof.Machine
end

