-- ==== Sys2Proof/Machine/Paired.lean ====
section
/-!
DEFINITION. Paired words (04 R84, R90, R93, R97; 06 R138; 07 R157).
-/
namespace Sys2Proof.Machine

/-- The latency class of a half: 4 for i32 and immediate halves, 6 for f32 and bf16x2 halves (R97). -/
def halfClass : Half → Nat
  | .fadd .. | .fmul .. | .fmin .. | .fmax .. | .hadd2 .. | .hmul2 .. => 6
  | _ => 4

/-- An integer half in one lane: `x` is D's value, `y` A's (R90, R138). -/
def pairInt (f : Int → Int → Int) (x y : W32) : FRes := (wrap 32 (f x.toInt y.toInt), 0)

/-- A float half in one lane, RNE (R90, R157). -/
def pairFloat (f : FVal → FVal → FRes) (x y : W32) : FRes := f (fmtF32.decode x.toNat) (fmtF32.decode y.toNat)

/-- A bf16x2 half in one lane (R157). -/
def pairPacked (f : FVal → FVal → FRes) (x y : W32) : FRes :=
  packed fun i => f (fmtBF16.decode (x.toNat / 2 ^ (16 * i) % 2 ^ 16)) (fmtBF16.decode (y.toNat / 2 ^ (16 * i) % 2 ^ 16))

/-- The result of a half in a lane, with its flags (R90). -/
def halfValue (k : Course) (h : Half) (l : Nat) : FRes :=
  match h with
  | .mov _ a => ((k.vget a l).toNat, 0)
  | .add d a => pairInt (· + ·) (k.vget d l) (k.vget a l)
  | .sub d a => pairInt (· - ·) (k.vget d l) (k.vget a l)
  | .and d a => ((k.vget d l &&& k.vget a l).toNat, 0)
  | .or d a => ((k.vget d l ||| k.vget a l).toNat, 0)
  | .xor d a => ((k.vget d l ^^^ k.vget a l).toNat, 0)
  | .shl d a => ((k.vget d l <<< ((k.vget a l).toNat % 32)).toNat, 0)
  | .shr d a => ((k.vget d l >>> ((k.vget a l).toNat % 32)).toNat, 0)
  | .sar d a => (((k.vget d l).sshiftRight ((k.vget a l).toNat % 32)).toNat, 0)
  | .min d a => pairInt min (k.vget d l) (k.vget a l)
  | .max d a => pairInt max (k.vget d l) (k.vget a l)
  | .fadd d a => pairFloat (fAdd fmtF32 .rne) (k.vget d l) (k.vget a l)
  | .fmul d a => pairFloat (fMul fmtF32 .rne) (k.vget d l) (k.vget a l)
  | .fmin d a => fMinMax fmtF32 false (k.vget d l).toNat (k.vget a l).toNat
  | .fmax d a => fMinMax fmtF32 true (k.vget d l).toNat (k.vget a l).toNat
  | .hadd2 d a => pairPacked (fAdd fmtBF16 .rne) (k.vget d l) (k.vget a l)
  | .hmul2 d a => pairPacked (fMul fmtBF16 .rne) (k.vget d l) (k.vget a l)
  | .addi d x => ((k.vget d l + x.signExtend 32).toNat, 0)
  | .shli d n => ((k.vget d l <<< n.toNat).toNat, 0)
  | .shri d n => ((k.vget d l >>> n.toNat).toNat, 0)
  | .andi d x => ((k.vget d l &&& x.signExtend 32).toNat, 0)
  | .movi _ x => ((x.signExtend 32).toNat, 0)

/-- The result of one half lands with the half's own class; `r` is the course as the word reads it (R93, R97). -/
def landHalf (x : Ctx) (k : Course) (h : Half) : Course :=
  let ex := x.r.lanes
  let L := halfClass h
  (k.landAll x.s.tick L ex [.v h.dst ex (laneVec fun l => BitVec.ofNat 32 (halfValue x.r h l).1)]).raise L
    (laneFlags ex fun l => (halfValue x.r h l).2)

/-- Both halves read at issue, so neither sees the other's result; they act in every active lane (R93). -/
def pairWord (h0 h1 : Half) (s : State) : State :=
  issueCourse (Instr.pair h0 h1) s fun x => landHalf x (landHalf x x.k h0) h1

def execPairMov (d a : VReg) (h : Half) (s : State) : Out := .next (pairWord (.mov d a) h s)
def execPairAdd (d a : VReg) (h : Half) (s : State) : Out := .next (pairWord (.add d a) h s)
def execPairSub (d a : VReg) (h : Half) (s : State) : Out := .next (pairWord (.sub d a) h s)
def execPairAnd (d a : VReg) (h : Half) (s : State) : Out := .next (pairWord (.and d a) h s)
def execPairOr (d a : VReg) (h : Half) (s : State) : Out := .next (pairWord (.or d a) h s)
def execPairXor (d a : VReg) (h : Half) (s : State) : Out := .next (pairWord (.xor d a) h s)
def execPairShl (d a : VReg) (h : Half) (s : State) : Out := .next (pairWord (.shl d a) h s)
def execPairShr (d a : VReg) (h : Half) (s : State) : Out := .next (pairWord (.shr d a) h s)
def execPairSar (d a : VReg) (h : Half) (s : State) : Out := .next (pairWord (.sar d a) h s)
def execPairMin (d a : VReg) (h : Half) (s : State) : Out := .next (pairWord (.min d a) h s)
def execPairMax (d a : VReg) (h : Half) (s : State) : Out := .next (pairWord (.max d a) h s)
def execPairFadd (d a : VReg) (h : Half) (s : State) : Out := .next (pairWord (.fadd d a) h s)
def execPairFmul (d a : VReg) (h : Half) (s : State) : Out := .next (pairWord (.fmul d a) h s)
def execPairFmin (d a : VReg) (h : Half) (s : State) : Out := .next (pairWord (.fmin d a) h s)
def execPairFmax (d a : VReg) (h : Half) (s : State) : Out := .next (pairWord (.fmax d a) h s)
def execPairHadd2 (d a : VReg) (h : Half) (s : State) : Out := .next (pairWord (.hadd2 d a) h s)
def execPairHmul2 (d a : VReg) (h : Half) (s : State) : Out := .next (pairWord (.hmul2 d a) h s)
def execPairAddi (d : VReg) (x : BitVec 8) (h : Half) (s : State) : Out := .next (pairWord (.addi d x) h s)
def execPairShli (d : VReg) (n : BitVec 5) (h : Half) (s : State) : Out := .next (pairWord (.shli d n) h s)
def execPairShri (d : VReg) (n : BitVec 5) (h : Half) (s : State) : Out := .next (pairWord (.shri d n) h s)
def execPairAndi (d : VReg) (x : BitVec 8) (h : Half) (s : State) : Out := .next (pairWord (.andi d x) h s)
def execPairMovi (d : VReg) (x : BitVec 8) (h : Half) (s : State) : Out := .next (pairWord (.movi d x) h s)

end Sys2Proof.Machine
end

