-- ==== Sys2Proof/Machine/Dispatch.lean ====
section
/-!
DEFINITION. One arm per step of the opcode table: each calls that step's meaning.
-/
namespace Sys2Proof.Machine

def exec (i : Instr) (s : State) : Host.Outcome State Fault Refusal :=
  match i with
  | .add gd t sat d a b => Sys2Proof.Machine.execAdd gd t sat d a b s
  | .sub gd t sat d a b => Sys2Proof.Machine.execSub gd t sat d a b s
  | .mul gd t d a b => Sys2Proof.Machine.execMul gd t d a b s
  | .mulh gd t d a b => Sys2Proof.Machine.execMulh gd t d a b s
  | .mad gd t d a b c => Sys2Proof.Machine.execMad gd t d a b c s
  | .madw gd t d a b c => Sys2Proof.Machine.execMadw gd t d a b c s
  | .min gd t d a b => Sys2Proof.Machine.execMin gd t d a b s
  | .max gd t d a b => Sys2Proof.Machine.execMax gd t d a b s
  | .abs gd t sat d a => Sys2Proof.Machine.execAbs gd t sat d a s
  | .neg gd t sat d a => Sys2Proof.Machine.execNeg gd t sat d a s
  | .and gd t d a b => Sys2Proof.Machine.execAnd gd t d a b s
  | .or gd t d a b => Sys2Proof.Machine.execOr gd t d a b s
  | .xor gd t d a b => Sys2Proof.Machine.execXor gd t d a b s
  | .andn gd t d a b => Sys2Proof.Machine.execAndn gd t d a b s
  | .not gd t d a => Sys2Proof.Machine.execNot gd t d a s
  | .shl gd t d a b => Sys2Proof.Machine.execShl gd t d a b s
  | .shr gd t d a b => Sys2Proof.Machine.execShr gd t d a b s
  | .sar gd t d a b => Sys2Proof.Machine.execSar gd t d a b s
  | .rot gd t d a b => Sys2Proof.Machine.execRot gd t d a b s
  | .bfe gd t d a b => Sys2Proof.Machine.execBfe gd t d a b s
  | .bfi gd t d a b c => Sys2Proof.Machine.execBfi gd t d a b c s
  | .pop gd t d a => Sys2Proof.Machine.execPop gd t d a s
  | .clz gd t d a => Sys2Proof.Machine.execClz gd t d a s
  | .brev gd t d a => Sys2Proof.Machine.execBrev gd t d a s
  | .sel gd t d a b p inv => Sys2Proof.Machine.execSel gd t d a b p inv s
  | .mov gd t d a => Sys2Proof.Machine.execMov gd t d a s
  | .cmp gd t cc d a b => Sys2Proof.Machine.execCmp gd t cc d a b s
  | .plog gd d a b c tt => Sys2Proof.Machine.execPlog gd d a b c tt s
  | .lea gd t d a b sh => Sys2Proof.Machine.execLea gd t d a b sh s
  | .shfl gd t m wl d a b c => Sys2Proof.Machine.execShfl gd t m wl d a b c s
  | .vote gd op a c => Sys2Proof.Machine.execVote gd op a c s
  | .redl gd op scan d a c => Sys2Proof.Machine.execRedl gd op scan d a c s
  | .addi gd d a imm => Sys2Proof.Machine.execAddi gd d a imm s
  | .andi gd d a imm => Sys2Proof.Machine.execAndi gd d a imm s
  | .ori gd d a imm => Sys2Proof.Machine.execOri gd d a imm s
  | .xori gd d a imm => Sys2Proof.Machine.execXori gd d a imm s
  | .movi gd d imm => Sys2Proof.Machine.execMovi gd d imm s
  | .cmpi gd cc uns d a imm => Sys2Proof.Machine.execCmpi gd cc uns d a imm s
  | .muli gd d a imm => Sys2Proof.Machine.execMuli gd d a imm s
  | .leai gd d a off sh => Sys2Proof.Machine.execLeai gd d a off sh s
  | .fadd gd t rm d a b => Sys2Proof.Machine.execFadd gd t rm d a b s
  | .fsub gd t rm d a b => Sys2Proof.Machine.execFsub gd t rm d a b s
  | .fmul gd t rm d a b => Sys2Proof.Machine.execFmul gd t rm d a b s
  | .fma gd t rm d a b c => Sys2Proof.Machine.execFma gd t rm d a b c s
  | .fmin gd t d a b => Sys2Proof.Machine.execFmin gd t d a b s
  | .fmax gd t d a b => Sys2Proof.Machine.execFmax gd t d a b s
  | .fcmp gd t cc d a b => Sys2Proof.Machine.execFcmp gd t cc d a b s
  | .frcp gd t rm tk d a => Sys2Proof.Machine.execFrcp gd t rm tk d a s
  | .frsq gd t rm tk d a => Sys2Proof.Machine.execFrsq gd t rm tk d a s
  | .fsqrt gd t rm tk d a => Sys2Proof.Machine.execFsqrt gd t rm tk d a s
  | .fexp2 gd t rm tk d a => Sys2Proof.Machine.execFexp2 gd t rm tk d a s
  | .flog2 gd t rm tk d a => Sys2Proof.Machine.execFlog2 gd t rm tk d a s
  | .fsin gd t rm tk d a => Sys2Proof.Machine.execFsin gd t rm tk d a s
  | .fcos gd t rm tk d a => Sys2Proof.Machine.execFcos gd t rm tk d a s
  | .fdiv gd t rm tk d a b => Sys2Proof.Machine.execFdiv gd t rm tk d a b s
  | .fcvt gd t src rm d a => Sys2Proof.Machine.execFcvt gd t src rm d a s
  | .icvt gd t src rm d a => Sys2Proof.Machine.execIcvt gd t src rm d a s
  | .ficvt gd t src rm d a => Sys2Proof.Machine.execFicvt gd t src rm d a s
  | .qcvt gd src f sat d a pos => Sys2Proof.Machine.execQcvt gd src f sat d a pos s
  | .qexp gd t f d a pos => Sys2Proof.Machine.execQexp gd t f d a pos s
  | .fscl gd t rm d a b => Sys2Proof.Machine.execFscl gd t rm d a b s
  | .frnd gd t rm d a => Sys2Proof.Machine.execFrnd gd t rm d a s
  | .fclass gd src d a => Sys2Proof.Machine.execFclass gd src d a s
  | .hadd2 gd t rm d a b => Sys2Proof.Machine.execHadd2 gd t rm d a b s
  | .hmul2 gd t rm d a b => Sys2Proof.Machine.execHmul2 gd t rm d a b s
  | .hfma2 gd t rm d a b c => Sys2Proof.Machine.execHfma2 gd t rm d a b c s
  | .hmin2 gd t d a b => Sys2Proof.Machine.execHmin2 gd t d a b s
  | .hmax2 gd t d a b => Sys2Proof.Machine.execHmax2 gd t d a b s
  | .fdot4 gd rm ae5 be5 d a b c => Sys2Proof.Machine.execFdot4 gd rm ae5 be5 d a b c s
  | .scvt gd f d a => Sys2Proof.Machine.execScvt gd f d a s
  | .fmovi gd d imm => Sys2Proof.Machine.execFmovi gd d imm s
  | .faddi gd d a imm => Sys2Proof.Machine.execFaddi gd d a imm s
  | .fmuli gd d a imm => Sys2Proof.Machine.execFmuli gd d a imm s
  | .pairMov d a h => Sys2Proof.Machine.execPairMov d a h s
  | .pairAdd d a h => Sys2Proof.Machine.execPairAdd d a h s
  | .pairSub d a h => Sys2Proof.Machine.execPairSub d a h s
  | .pairAnd d a h => Sys2Proof.Machine.execPairAnd d a h s
  | .pairOr d a h => Sys2Proof.Machine.execPairOr d a h s
  | .pairXor d a h => Sys2Proof.Machine.execPairXor d a h s
  | .pairShl d a h => Sys2Proof.Machine.execPairShl d a h s
  | .pairShr d a h => Sys2Proof.Machine.execPairShr d a h s
  | .pairSar d a h => Sys2Proof.Machine.execPairSar d a h s
  | .pairMin d a h => Sys2Proof.Machine.execPairMin d a h s
  | .pairMax d a h => Sys2Proof.Machine.execPairMax d a h s
  | .pairFadd d a h => Sys2Proof.Machine.execPairFadd d a h s
  | .pairFmul d a h => Sys2Proof.Machine.execPairFmul d a h s
  | .pairFmin d a h => Sys2Proof.Machine.execPairFmin d a h s
  | .pairFmax d a h => Sys2Proof.Machine.execPairFmax d a h s
  | .pairHadd2 d a h => Sys2Proof.Machine.execPairHadd2 d a h s
  | .pairHmul2 d a h => Sys2Proof.Machine.execPairHmul2 d a h s
  | .pairAddi d x h => Sys2Proof.Machine.execPairAddi d x h s
  | .pairShli d n h => Sys2Proof.Machine.execPairShli d n h s
  | .pairShri d n h => Sys2Proof.Machine.execPairShri d n h s
  | .pairAndi d x h => Sys2Proof.Machine.execPairAndi d x h s
  | .pairMovi d x h => Sys2Proof.Machine.execPairMovi d x h s
  | .nop => Sys2Proof.Machine.execNop s
  | .dly n => Sys2Proof.Machine.execDly n s
  | .bra gd hint off join => Sys2Proof.Machine.execBra gd hint off join s
  | .jmp gd a => Sys2Proof.Machine.execJmp gd a s
  | .call gd d off mask => Sys2Proof.Machine.execCall gd d off mask s
  | .callr gd d a mask => Sys2Proof.Machine.execCallr gd d a mask s
  | .ret gd a => Sys2Proof.Machine.execRet gd a s
  | .bsync c => Sys2Proof.Machine.execBsync c s
  | .exit gd => Sys2Proof.Machine.execExit gd s
  | .region fin => Sys2Proof.Machine.execRegion fin s
  | .trap gd n => Sys2Proof.Machine.execTrap gd n s
  | .rett => Sys2Proof.Machine.execRett s
  | .tmask gd n => Sys2Proof.Machine.execTmask gd n s
  | .csrr gd t d idx => Sys2Proof.Machine.execCsrr gd t d idx s
  | .csrw gd t idx a => Sys2Proof.Machine.execCsrw gd t idx a s
  | .yield => Sys2Proof.Machine.execYield s
  | .sysc gd tk d a na nr svc => Sys2Proof.Machine.execSysc gd tk d a na nr svc s
  | .brk gd n => Sys2Proof.Machine.execBrk gd n s
  | .waitt gd tk n => Sys2Proof.Machine.execWaitt gd tk n s
  | .tkst gd tk clr d => Sys2Proof.Machine.execTkst gd tk clr d s
  | .barinit gd b => Sys2Proof.Machine.execBarinit gd b s
  | .bararv gd b a => Sys2Proof.Machine.execBararv gd b a s
  | .barxb gd b a => Sys2Proof.Machine.execBarxb gd b a s
  | .barwait gd b d tk => Sys2Proof.Machine.execBarwait gd b d tk s
  | .bartest gd b d => Sys2Proof.Machine.execBartest gd b d s
  | .barinv gd b => Sys2Proof.Machine.execBarinv gd b s
  | .cntrd gd t d idx => Sys2Proof.Machine.execCntrd gd t d idx s
  | .cntctl gd a b k => Sys2Proof.Machine.execCntctl gd a b k s
  | .genrd gd d => Sys2Proof.Machine.execGenrd gd d s
  | .lyset gd n op a => Sys2Proof.Machine.execLyset gd n op a s
  | .lyget gd d n sel => Sys2Proof.Machine.execLyget gd d n sel s
  | .tplset gd n op a => Sys2Proof.Machine.execTplset gd n op a s
  | .tplget gd d n sel => Sys2Proof.Machine.execTplget gd d n sel s
  | .tlbinv gd m sc => Sys2Proof.Machine.execTlbinv gd m sc s
  | .fgset gd opn a => Sys2Proof.Machine.execFgset gd opn a s
  | .hdlset gd a b => Sys2Proof.Machine.execHdlset gd a b s
  | .ld gd tk d m z sem => Sys2Proof.Machine.execLd gd tk d m z sem s
  | .st gd tk d m z sem => Sys2Proof.Machine.execSt gd tk d m z sem s
  | .lds gd tk d m z sem ssc => Sys2Proof.Machine.execLds gd tk d m z sem ssc s
  | .sts gd tk d m z sem ssc => Sys2Proof.Machine.execSts gd tk d m z sem ssc s
  | .ldc gd tk d gb off z => Sys2Proof.Machine.execLdc gd tk d gb off z s
  | .prf gd lv m => Sys2Proof.Machine.execPrf gd lv m s
  | .acp gd tk d m z bar => Sys2Proof.Machine.execAcp gd tk d m z bar s
  | .atom gd tk d m va op z sem => Sys2Proof.Machine.execAtom gd tk d m va op z sem s
  | .red gd tk m va op z sem => Sys2Proof.Machine.execRed gd tk m va op z sem s
  | .atoms gd tk d m va op z sem ssc => Sys2Proof.Machine.execAtoms gd tk d m va op z sem ssc s
  | .fence gd k sc => Sys2Proof.Machine.execFence gd k sc s
  | .iflush gd gb gl => Sys2Proof.Machine.execIflush gd gb gl s
  | .isync gd => Sys2Proof.Machine.execIsync gd s
  | .cwb gd tk gb gl inv => Sys2Proof.Machine.execCwb gd tk gb gl inv s
  | .pinit gd tk ga free => Sys2Proof.Machine.execPinit gd tk ga free s
  | .pfill gd tk ga gv sc => Sys2Proof.Machine.execPfill gd tk ga gv sc s
  | .pwait gd tk d ga sc => Sys2Proof.Machine.execPwait gd tk d ga sc s
  | .pequ gd tk ga gv => Sys2Proof.Machine.execPequ gd tk ga gv s
  | .ptest gd tk d ga sc => Sys2Proof.Machine.execPtest gd tk d ga sc s
  | .ldl gd tk d o => Sys2Proof.Machine.execLdl gd tk d o s
  | .stl gd tk d o => Sys2Proof.Machine.execStl gd tk d o s
  | .mma gd tk acc la gca lb gcb gf gk => Sys2Proof.Machine.execMma gd tk acc la gca lb gcb gf gk s
  | .mmaz gd tk acc la gca lb gcb gf gk => Sys2Proof.Machine.execMmaz gd tk acc la gca lb gcb gf gk s
  | .accz gd tk acc n1 => Sys2Proof.Machine.execAccz gd tk acc n1 s
  | .accld gd tk acc l gc tt => Sys2Proof.Machine.execAccld gd tk acc l gc tt s
  | .accst gd tk acc l gc tt => Sys2Proof.Machine.execAccst gd tk acc l gc tt s
  | .accmvGet gd tk acc x gr => Sys2Proof.Machine.execAccmvGet gd tk acc x gr s
  | .accmvPut gd tk acc x gr => Sys2Proof.Machine.execAccmvPut gd tk acc x gr s
  | .accmvStat gd tk acc x gr clr => Sys2Proof.Machine.execAccmvStat gd tk acc x gr clr s
  | .accmvCopy gd tk acc x gr => Sys2Proof.Machine.execAccmvCopy gd tk acc x gr s
  | .accsc gd tk acc gs i32 => Sys2Proof.Machine.execAccsc gd tk acc gs i32 s
  | .mtest gd tk d => Sys2Proof.Machine.execMtest gd tk d s
  | .rgacqInit gd rg ga => Sys2Proof.Machine.execRgacqInit gd rg ga s
  | .rgacq gd d rg => Sys2Proof.Machine.execRgacq gd d rg s
  | .rgcmt gd q rg ga => Sys2Proof.Machine.execRgcmt gd q rg ga s
  | .rgtake gd d rg => Sys2Proof.Machine.execRgtake gd d rg s
  | .rgrel gd q rg ga => Sys2Proof.Machine.execRgrel gd q rg ga s
  | .bcopy gd tk ct gs gdst nc => Sys2Proof.Machine.execBcopy gd tk ct gs gdst nc s
  | .qfence gd copy mat net => Sys2Proof.Machine.execQfence gd copy mat net s
  | .amsg gd tk gx nb => Sys2Proof.Machine.execAmsg gd tk gx nb s
  | .nsend gd tk gx => Sys2Proof.Machine.execNsend gd tk gx s
  | .nrecv gd tk gx => Sys2Proof.Machine.execNrecv gd tk gx s
  | .fput gd tk gx => Sys2Proof.Machine.execFput gd tk gx s
  | .fget gd tk gx => Sys2Proof.Machine.execFget gd tk gx s
  | .fcopy gd tk gx => Sys2Proof.Machine.execFcopy gd tk gx s
  | .fmrs gd tk gx => Sys2Proof.Machine.execFmrs gd tk gx s
  | .fmrl gd tk gx => Sys2Proof.Machine.execFmrl gd tk gx s
  | .nprobe gd tk gx => Sys2Proof.Machine.execNprobe gd tk gx s
  | .tokenCompletion c tk => Sys2Proof.Machine.execTokenCompletion c tk s
  | .dlyExpiry c => Sys2Proof.Machine.execDlyExpiry c s
  | .yieldExpiry c => Sys2Proof.Machine.execYieldExpiry c s
  | .regionGuardWaitExpiry c => Sys2Proof.Machine.execRegionGuardWaitExpiry c s
  | .asyncTrapTaken c => Sys2Proof.Machine.execAsyncTrapTaken c s
  | .debugRequest c => Sys2Proof.Machine.execDebugRequest c s
  | .eventCounterOverflow core k n => Sys2Proof.Machine.execEventCounterOverflow core k n s
  | .meterAccumulate vd => Sys2Proof.Machine.execMeterAccumulate vd s
  | .matrixEntryStart core rows => Sys2Proof.Machine.execMatrixEntryStart core rows s
  | .matrixEntryComplete core => Sys2Proof.Machine.execMatrixEntryComplete core s
  | .selfTestProduct core failed => Sys2Proof.Machine.execSelfTestProduct core failed s
  | .copyEntryExecute core n => Sys2Proof.Machine.execCopyEntryExecute core n s
  | .ringEntryEffect truss q => Sys2Proof.Machine.execRingEntryEffect truss q s
  | .networkEntryStart truss => Sys2Proof.Machine.execNetworkEntryStart truss s
  | .serviceRecordTake who reject results => Sys2Proof.Machine.execServiceRecordTake who reject results s
  | .amsgArrival core => Sys2Proof.Machine.execAmsgArrival core s
  | .handlerSpawn core => Sys2Proof.Machine.execHandlerSpawn core s
  | .launchAdmission => Sys2Proof.Machine.execLaunchAdmission s
  | .courseRetire c => Sys2Proof.Machine.execCourseRetire c s
  | .launchComplete launch => Sys2Proof.Machine.execLaunchComplete launch s
  | .quarantineRelease c => Sys2Proof.Machine.execQuarantineRelease c s
  | .strikeReport core zone => Sys2Proof.Machine.execStrikeReport core zone s
  | .regionRollback c => Sys2Proof.Machine.execRegionRollback c s
  | .pwaitRepeat waiter => Sys2Proof.Machine.execPwaitRepeat waiter s
  | .partialEviction core vd need => Sys2Proof.Machine.execPartialEviction core vd need s
  | .fullEviction truss => Sys2Proof.Machine.execFullEviction truss s
  | .courseUnpark c => Sys2Proof.Machine.execCourseUnpark c s
  | .trussRestore truss => Sys2Proof.Machine.execTrussRestore truss s
  | .sliceBoundary set => Sys2Proof.Machine.execSliceBoundary set s
  | .homeSliceAccess acc part srv => Sys2Proof.Machine.execHomeSliceAccess acc part srv s
  | .lineHandover line => Sys2Proof.Machine.execLineHandover line s
  | .pageIn vd gpa => Sys2Proof.Machine.execPageIn vd gpa s
  | .pageOut vd gpa hostFrame => Sys2Proof.Machine.execPageOut vd gpa hostFrame s
  | .counterManagedMove vd gpa hostFrame => Sys2Proof.Machine.execCounterManagedMove vd gpa hostFrame s
  | .stage1FaultRecord vd => Sys2Proof.Machine.execStage1FaultRecord vd s
  | .stage2FaultEvent vd => Sys2Proof.Machine.execStage2FaultEvent vd s
  | .eccCorrected unitKind unit => Sys2Proof.Machine.execEccCorrected unitKind unit s
  | .eccUncorrectable place => Sys2Proof.Machine.execEccUncorrectable place s
  | .courseKill c cause => Sys2Proof.Machine.execCourseKill c cause s
  | .killDrain eng => Sys2Proof.Machine.execKillDrain eng s
  | .drainTimeout late => Sys2Proof.Machine.execDrainTimeout late s
  | .killDump => Sys2Proof.Machine.execKillDump s
  | .killRelease => Sys2Proof.Machine.execKillRelease s
  | .coreRetire core => Sys2Proof.Machine.execCoreRetire core s
  | .columnRetire col => Sys2Proof.Machine.execColumnRetire col s
  | .kickWrite vd j tail => Sys2Proof.Machine.execKickWrite vd j tail s
  | .submissionWrite vd j posted off data => Sys2Proof.Machine.execSubmissionWrite vd j posted off data s
  | .packetFetch blk => Sys2Proof.Machine.execPacketFetch blk s
  | .packetNop blk => Sys2Proof.Machine.execPacketNop blk s
  | .packetLaunch blk => Sys2Proof.Machine.execPacketLaunch blk s
  | .packetWaitPromise blk => Sys2Proof.Machine.execPacketWaitPromise blk s
  | .packetWaitMemory blk => Sys2Proof.Machine.execPacketWaitMemory blk s
  | .waitPoll blk => Sys2Proof.Machine.execWaitPoll blk s
  | .packetSignalFill blk => Sys2Proof.Machine.execPacketSignalFill blk s
  | .packetSignalStore blk => Sys2Proof.Machine.execPacketSignalStore blk s
  | .packetSignalInterrupt blk => Sys2Proof.Machine.execPacketSignalInterrupt blk s
  | .packetCond blk => Sys2Proof.Machine.execPacketCond blk s
  | .packetCopy blk => Sys2Proof.Machine.execPacketCopy blk s
  | .packetFence blk => Sys2Proof.Machine.execPacketFence blk s
  | .packetRetire blk => Sys2Proof.Machine.execPacketRetire blk s
  | .retireReport blk => Sys2Proof.Machine.execRetireReport blk s
  | .queueSchedulerPass => Sys2Proof.Machine.execQueueSchedulerPass s
  | .queueUnmap blk => Sys2Proof.Machine.execQueueUnmap blk s
  | .heartbeatMiss qp => Sys2Proof.Machine.execHeartbeatMiss qp s
  | .fallbackVisit qp slot => Sys2Proof.Machine.execFallbackVisit qp slot s
  | .create w => Sys2Proof.Machine.execCreate w s
  | .destroy w => Sys2Proof.Machine.execDestroy w s
  | .setweight w => Sys2Proof.Machine.execSetweight w s
  | .defset w => Sys2Proof.Machine.execDefset w s
  | .setset w => Sys2Proof.Machine.execSetset w s
  | .setmode w => Sys2Proof.Machine.execSetmode w s
  | .mapvec w => Sys2Proof.Machine.execMapvec w s
  | .map2 w => Sys2Proof.Machine.execMap2 w s
  | .unmap2 w => Sys2Proof.Machine.execUnmap2 w s
  | .abort2 w => Sys2Proof.Machine.execAbort2 w s
  | .meters w => Sys2Proof.Machine.execMeters w s
  | .qcreate w => Sys2Proof.Machine.execQcreate w s
  | .qrestart w => Sys2Proof.Machine.execQrestart w s
  | .resetCourse w => Sys2Proof.Machine.execResetCourse w s
  | .resetTruss w => Sys2Proof.Machine.execResetTruss w s
  | .resetVirtualDevice w => Sys2Proof.Machine.execResetVirtualDevice w s
  | .resetEngine w => Sys2Proof.Machine.execResetEngine w s
  | .resetSliceColumn w => Sys2Proof.Machine.execResetSliceColumn w s
  | .resetOpticalLink w => Sys2Proof.Machine.execResetOpticalLink w s
  | .dumpack w => Sys2Proof.Machine.execDumpack w s
  | .columnOn w => Sys2Proof.Machine.execColumnOn w s
  | .columnOff w => Sys2Proof.Machine.execColumnOff w s
  | .s1rootWrite vd v => Sys2Proof.Machine.execS1rootWrite vd v s
  | .fltbaseWrite vd v => Sys2Proof.Machine.execFltbaseWrite vd v s
  | .fltresReplay vd v => Sys2Proof.Machine.execFltresReplay vd v s
  | .fltresAbort vd v => Sys2Proof.Machine.execFltresAbort vd v s
  | .route w => Sys2Proof.Machine.execRoute w s
  | .epset w => Sys2Proof.Machine.execEpset w s
  | .gset w => Sys2Proof.Machine.execGset w s
  | .gclr w => Sys2Proof.Machine.execGclr w s
  | .quiesce w => Sys2Proof.Machine.execQuiesce w s
  | .relock w => Sys2Proof.Machine.execRelock w s
  | .bootctlRetry b => Sys2Proof.Machine.execBootctlRetry b s
  | .bootctlAttest => Sys2Proof.Machine.execBootctlAttest s
  | .pwrlimWrite v => Sys2Proof.Machine.execPwrlimWrite v s
  | .registerWrite page off v => Sys2Proof.Machine.execRegisterWrite page off v s
  | .powerOn b => Sys2Proof.Machine.execPowerOn b s
  | .powerThrottle excess => Sys2Proof.Machine.execPowerThrottle excess s
  | .thermalTrip => Sys2Proof.Machine.execThermalTrip s
  | .lightDetect link lit => Sys2Proof.Machine.execLightDetect link lit s
  | .trainingPhaseTimeout link => Sys2Proof.Machine.execTrainingPhaseTimeout link s
  | .linkRetryTimer link => Sys2Proof.Machine.execLinkRetryTimer link s
  | .flitReceive link rx f => Sys2Proof.Machine.execFlitReceive link rx f s
  | .ctrlFlitReceive link f => Sys2Proof.Machine.execCtrlFlitReceive link f s
  | .drainFlitReceive link f => Sys2Proof.Machine.execDrainFlitReceive link f s
  | .ackTimer link => Sys2Proof.Machine.execAckTimer link s
  | .resendTimeout link => Sys2Proof.Machine.execResendTimeout link s
  | .resendLimit link => Sys2Proof.Machine.execResendLimit link s
  | .lossOfLight link lost atSender => Sys2Proof.Machine.execLossOfLight link lost atSender s
  | .laserRelight link lit => Sys2Proof.Machine.execLaserRelight link lit s
  | .quiesceTimeout link => Sys2Proof.Machine.execQuiesceTimeout link s
  | .put x => Sys2Proof.Machine.execPut x s
  | .getreq x => Sys2Proof.Machine.execGetreq x s
  | .getdata x => Sys2Proof.Machine.execGetdata x s
  | .msg x => Sys2Proof.Machine.execMsg x s
  | .contrib x => Sys2Proof.Machine.execContrib x s
  | .lreq x => Sys2Proof.Machine.execLreq x s
  | .ldata x => Sys2Proof.Machine.execLdata x s
  | .done x => Sys2Proof.Machine.execDone x s
  | .absent x => Sys2Proof.Machine.execAbsent x s
  | .firmwareRunningAgain qp => Sys2Proof.Machine.execFirmwareRunningAgain qp s
  | .wavelengthLock link locked => Sys2Proof.Machine.execWavelengthLock link locked s
  | .hostMemoryWrite vd addr data => Sys2Proof.Machine.execHostMemoryWrite vd addr data s
  | .hostAtomicop vd addr op z a cmp => Sys2Proof.Machine.execHostAtomicop vd addr op z a cmp s
  | .modulePowerOff => Sys2Proof.Machine.execModulePowerOff s

end Sys2Proof.Machine
end

