-- ==== Sys2Proof/Decode.lean ====
section
/-!
DEFINITION. Decoding and encoding of the 64-bit instruction words (04 R81 to R93 and the encoding tables of 06 to 16).
-/
namespace Sys2Proof

/-! ### The fields of a word -/

/-- The fields of forms F, I and E, as numbers (R82, R83, R85): `e` is bits [45:0], `imm` is bits [29:0]. -/
structure Raw where
  gd  : Guard
  tk  : Nat
  d   : Nat
  a   : Nat
  b   : Nat
  c   : Nat
  ty  : Nat
  ag  : Bool
  bg  : Bool
  sub : Nat
  imm : Nat
  e   : Nat
  deriving DecidableEq, Repr

/-- A number below `n`, as `Fin n`. -/
def fin? (n x : Nat) : Option (Fin n) := if h : x < n then some ⟨x, h⟩ else none

/-- The guard fields GN and PG (R88). -/
def guardOf (gn pg : Nat) : Guard := ⟨gn % 2 == 1, ⟨pg % 8, by omega⟩⟩

/-- The fields of the word `w` (R82). -/
def rawOf (w : Nat) : Raw :=
  { gd := guardOf (bits w 53 53) (bits w 52 50), tk := bits w 49 46, d := bits w 45 38, a := bits w 37 30,
    b := bits w 29 22, c := bits w 21 14, ty := bits w 13 10, ag := bits w 9 9 == 1, bg := bits w 8 8 == 1,
    sub := bits w 7 0, imm := bits w 29 0, e := bits w 45 0 }

/-- A condition a decoder requires: a reserved field is zero, or a field holds a legal value (R92 step 4). -/
def req (b : Bool) : Option Unit := if b then some () else none

/-! ### Register fields -/

/-- A v register index (R86). -/
def vreg (x : Nat) : Option VReg := fin? 256 x
/-- A g register index, bits [7:6] zero (R86). -/
def greg (x : Nat) : Option GReg := fin? 64 x
/-- A register field with its kind bit (R86). -/
def regField (g : Bool) (x : Nat) : Option Reg := if g then (greg x).map .g else (vreg x).map .v

namespace Raw
/-- D with the kind bit DG of TK, whose other bits are reserved in form F (R87). -/
def dF (f : Raw) : Option Reg := if f.tk % 8 = 0 then regField (f.tk / 8 == 1) f.d else none
/-- D in form I: DG is TK[3], TK[1:0] reserved (R87). -/
def dI (f : Raw) : Option Reg := if f.tk % 4 = 0 then regField (f.tk / 8 == 1) f.d else none
/-- A in form I: AG is TK[2] (R87). -/
def aI (f : Raw) : Option Reg := if f.tk % 4 = 0 then regField (f.tk / 4 % 2 == 1) f.a else none
/-- A in form F (R86). -/
def aF (f : Raw) : Option Reg := regField f.ag f.a
/-- B in form F (R86). -/
def bF (f : Raw) : Option Reg := regField f.bg f.b
/-- D as a v register of a token-class word, whose TK names a token (R87). -/
def dV (f : Raw) : Option VReg := vreg f.d
/-- The token TK names. -/
def tok (f : Raw) : Option Tok := fin? 16 f.tk
/-- D as a g register with DG = 1 (R87). -/
def dG (f : Raw) : Option GReg := if f.tk = 8 then greg f.d else none
/-- A as a g register with AG = 1. -/
def aG (f : Raw) : Option GReg := if f.ag then greg f.a else none
/-- B as a g register with BG = 1. -/
def bG (f : Raw) : Option GReg := if f.bg then greg f.b else none
/-- C as a v register. -/
def cV (f : Raw) : Option VReg := vreg f.c
/-- C as a g register. -/
def cG (f : Raw) : Option GReg := greg f.c
/-- D as a predicate p0 to p6, D[7:3] zero, no g destination (R125). -/
def dP (f : Raw) : Option PDst := if f.tk = 0 then fin? 7 f.d else none
def noA (f : Raw) : Bool := f.a == 0 && !f.ag
def noB (f : Raw) : Bool := f.b == 0 && !f.bg
def noC (f : Raw) : Bool := f.c == 0
def noD (f : Raw) : Bool := f.d == 0 && f.tk == 0
/-- The guard is absent: GN = 0 and PG = 7 (R158). -/
def unguarded (f : Raw) : Bool := f.gd == .always
/-- Bits h to l of bits [45:0]. -/
def ef (f : Raw) (h l : Nat) : Nat := bits f.e h l
end Raw

/-! ### Type codes (R91) and the other small codes -/

def IntTy.ofCode : Nat → Option IntTy
  | 0 => some .i8 | 1 => some .i16 | 2 => some .i32 | 3 => some .i64
  | 4 => some .n8 | 5 => some .n16 | 6 => some .n32 | 7 => some .n64 | _ => none
def IntTy.code : IntTy → Nat
  | .i8 => 0 | .i16 => 1 | .i32 => 2 | .i64 => 3 | .n8 => 4 | .n16 => 5 | .n32 => 6 | .n64 => 7
def STy.ofCode : Nat → Option STy
  | 0 => some .i8 | 1 => some .i16 | 2 => some .i32 | 3 => some .i64 | _ => none
def STy.code : STy → Nat | .i8 => 0 | .i16 => 1 | .i32 => 2 | .i64 => 3
def BTy.ofCode : Nat → Option BTy | 12 => some .b32 | 13 => some .b64 | _ => none
def BTy.code : BTy → Nat | .b32 => 12 | .b64 => 13
def MadwTy.ofCode : Nat → Option MadwTy | 2 => some .i32 | 6 => some .n32 | _ => none
def MadwTy.code : MadwTy → Nat | .i32 => 2 | .n32 => 6
def SarTy.ofCode : Nat → Option SarTy | 2 => some .i32 | 3 => some .i64 | _ => none
def SarTy.code : SarTy → Nat | .i32 => 2 | .i64 => 3
def WTy.ofCode : Nat → Option WTy
  | 2 => some .i32 | 3 => some .i64 | 6 => some .n32 | 7 => some .n64 | _ => none
def WTy.code : WTy → Nat | .i32 => 2 | .i64 => 3 | .n32 => 6 | .n64 => 7
def FTy.ofCode : Nat → Option FTy
  | 8 => some .f16 | 9 => some .bf16 | 10 => some .f32 | 11 => some .f64 | _ => none
def FTy.code : FTy → Nat | .f16 => 8 | .bf16 => 9 | .f32 => 10 | .f64 => 11
def HTy.ofCode : Nat → Option HTy | 8 => some .f16 | 9 => some .bf16 | 10 => some .f32 | _ => none
def HTy.code : HTy → Nat | .f16 => 8 | .bf16 => 9 | .f32 => 10
def X2Ty.ofCode : Nat → Option X2Ty | 14 => some .bf16x2 | 15 => some .f16x2 | _ => none
def X2Ty.code : X2Ty → Nat | .bf16x2 => 14 | .f16x2 => 15
def QTy.ofCode : Nat → Option QTy | 9 => some .bf16 | 10 => some .f32 | _ => none
def QTy.code : QTy → Nat | .bf16 => 9 | .f32 => 10
def Cond.ofCode : Nat → Option Cond
  | 0 => some .eq | 1 => some .ne | 2 => some .lt | 3 => some .le | 4 => some .gt | 5 => some .ge | _ => none
def Cond.code : Cond → Nat | .eq => 0 | .ne => 1 | .lt => 2 | .le => 3 | .gt => 4 | .ge => 5
def FCond.ofCode : Nat → Option FCond
  | 0 => some .eq | 1 => some .ne | 2 => some .lt | 3 => some .le | 4 => some .gt | 5 => some .ge
  | 6 => some .un | 7 => some .ord | _ => none
def FCond.code : FCond → Nat
  | .eq => 0 | .ne => 1 | .lt => 2 | .le => 3 | .gt => 4 | .ge => 5 | .un => 6 | .ord => 7
/-- Rounding codes 0 to 4; 5 to 7 are not legal (R63, R140). -/
def RM.ofCode : Nat → Option RM
  | 0 => some .rne | 1 => some .rtz | 2 => some .rup | 3 => some .rdn | 4 => some .dyn | _ => none
def RM.code : RM → Nat | .rne => 0 | .rtz => 1 | .rup => 2 | .rdn => 3 | .dyn => 4
/-- Narrow codes 4 to 13 (R59). -/
def NFmt.ofCode : Nat → Option NFmt
  | 4 => some .e4m3 | 5 => some .e5m2 | 6 => some .e3m2 | 7 => some .e2m3 | 8 => some .e2m1
  | 9 => some .qi8 | 10 => some .qn8 | 11 => some .qi4 | 12 => some .qn4 | 13 => some .dpt8 | _ => none
def NFmt.code : NFmt → Nat
  | .e4m3 => 4 | .e5m2 => 5 | .e3m2 => 6 | .e2m3 => 7 | .e2m1 => 8
  | .qi8 => 9 | .qn8 => 10 | .qi4 => 11 | .qn4 => 12 | .dpt8 => 13
/-- The target codes of `scvt` (R72). -/
def ScaleFmt.ofCode : Nat → Option ScaleFmt
  | 4 => some .e4m3 | 5 => some .e5m2 | 6 => some .e3m2 | 7 => some .e2m3 | 8 => some .e2m1 | 13 => some .dpt8 | _ => none
def ScaleFmt.code : ScaleFmt → Nat
  | .e4m3 => 4 | .e5m2 => 5 | .e3m2 => 6 | .e2m3 => 7 | .e2m1 => 8 | .dpt8 => 13
def ShflMode.ofCode : Nat → Option ShflMode
  | 0 => some .pick | 1 => some .rot | 2 => some .mir | 3 => some .xch | _ => none
def ShflMode.code : ShflMode → Nat | .pick => 0 | .rot => 1 | .mir => 2 | .xch => 3
def Scope.ofCode : Nat → Option Scope
  | 0 => some .crs | 1 => some .trs | 2 => some .spn | 3 => some .dev | 4 => some .fab | 5 => some .sys | _ => none
def Scope.code : Scope → Nat | .crs => 0 | .trs => 1 | .spn => 2 | .dev => 3 | .fab => 4 | .sys => 5
def Sz.ofCode : Nat → Option Sz
  | 0 => some .n8 | 1 => some .i8 | 2 => some .n16 | 3 => some .i16 | 4 => some .b32 | 5 => some .b64 | 6 => some .b128
  | _ => none
def Sz.code : Sz → Nat | .n8 => 0 | .i8 => 1 | .n16 => 2 | .i16 => 3 | .b32 => 4 | .b64 => 5 | .b128 => 6
def LdcSz.ofCode : Nat → Option LdcSz
  | 0 => some .n8 | 1 => some .i8 | 2 => some .n16 | 3 => some .i16 | 4 => some .b32 | 5 => some .b64 | _ => none
def LdcSz.code : LdcSz → Nat | .n8 => 0 | .i8 => 1 | .n16 => 2 | .i16 => 3 | .b32 => 4 | .b64 => 5
/-- SZ of atomics, 0 to 2 (R262). -/
def ASz.ofCode : Nat → Option ASz | 0 => some .b32 | 1 => some .b64 | 2 => some .b128 | _ => none
def ASz.code : ASz → Nat | .b32 => 0 | .b64 => 1 | .b128 => 2
/-- SEM and SCP of a load: `.rlx` with scope 0, or `.acq` (R252, R258). -/
def LdSem.ofCode (sem scp : Nat) : Option LdSem :=
  match sem with
  | 0 => if scp = 0 then some .rlx else none
  | 1 => (Scope.ofCode scp).map .acq
  | _ => none
def LdSem.sem : LdSem → Nat | .rlx => 0 | .acq _ => 1
def LdSem.scp : LdSem → Nat | .rlx => 0 | .acq s => s.code
/-- SEM and SCP of a store (R258). -/
def StSem.ofCode (sem scp : Nat) : Option StSem :=
  match sem with
  | 0 => if scp = 0 then some .rlx else none
  | 2 => (Scope.ofCode scp).map .rel
  | _ => none
def StSem.sem : StSem → Nat | .rlx => 0 | .rel _ => 2
def StSem.scp : StSem → Nat | .rlx => 0 | .rel s => s.code
/-- SEM and SCP of an atomic (R262). -/
def AtSem.ofCode (sem scp : Nat) : Option AtSem :=
  match sem with
  | 0 => if scp = 0 then some .rlx else none
  | 1 => (Scope.ofCode scp).map .acq
  | 2 => (Scope.ofCode scp).map .rel
  | 3 => (Scope.ofCode scp).map .ar
  | _ => none
def AtSem.sem : AtSem → Nat | .rlx => 0 | .acq _ => 1 | .rel _ => 2 | .ar _ => 3
def AtSem.scp : AtSem → Nat | .rlx => 0 | .acq s => s.code | .rel s => s.code | .ar s => s.code
def FenceSem.ofCode : Nat → Option FenceSem | 1 => some .acq | 2 => some .rel | 3 => some .ar | _ => none
def FenceSem.code : FenceSem → Nat | .acq => 1 | .rel => 2 | .ar => 3
def AOp.ofCode : Nat → Option AOp
  | 0 => some .add | 1 => some .smin | 2 => some .smax | 3 => some .umin | 4 => some .umax | 5 => some .and
  | 6 => some .or | 7 => some .xor | 8 => some .swap | 9 => some .cas | 10 => some .fadd | _ => none
def AOp.code : AOp → Nat
  | .add => 0 | .smin => 1 | .smax => 2 | .umin => 3 | .umax => 4 | .and => 5 | .or => 6 | .xor => 7 | .swap => 8
  | .cas => 9 | .fadd => 10
/-- The sel codes of R204. -/
def LySel.ofCode : Nat → Option LySel
  | 0 => some .base | 1 => some .space | 2 => some .format | 3 => some .ndim | 4 => some .bnd | 5 => some .swz
  | 8 => some .size0 | 9 => some .size1 | 10 => some .size2 | 11 => some .size3
  | 13 => some .stride1 | 14 => some .stride2 | 15 => some .stride3
  | 16 => some .word0 | 17 => some .word1 | 18 => some .word2 | 19 => some .word3 | _ => none
def LySel.code : LySel → Nat
  | .base => 0 | .space => 1 | .format => 2 | .ndim => 3 | .bnd => 4 | .swz => 5
  | .size0 => 8 | .size1 => 9 | .size2 => 10 | .size3 => 11 | .stride1 => 13 | .stride2 => 14 | .stride3 => 15
  | .word0 => 16 | .word1 => 17 | .word2 => 18 | .word3 => 19
def LyOp.ofCode (n : Nat) : Option LyOp := if n = 6 then some .clear else (LySel.ofCode n).map .field
def LyOp.code : LyOp → Nat | .clear => 6 | .field s => s.code
/-- The sel codes of R212. -/
def TplSel.ofCode : Nat → Option TplSel
  | 0 => some .src | 1 => some .dst | 2 => some .bar | 3 => some .cvt | 4 => some .mcast
  | 8 => some .ext0 | 9 => some .ext1 | 10 => some .ext2 | 11 => some .ext3 | 16 => some .word0 | 17 => some .word1
  | _ => none
def TplSel.code : TplSel → Nat
  | .src => 0 | .dst => 1 | .bar => 2 | .cvt => 3 | .mcast => 4 | .ext0 => 8 | .ext1 => 9 | .ext2 => 10 | .ext3 => 11
  | .word0 => 16 | .word1 => 17
def TplOp.ofCode (n : Nat) : Option TplOp := if n = 6 then some .clear else (TplSel.ofCode n).map .field
def TplOp.code : TplOp → Nat | .clear => 6 | .field s => s.code
def TlbScope.ofCode : Nat → Option TlbScope | 0 => some .core | 1 => some .clu | 2 => some .dev | _ => none
def TlbScope.code : TlbScope → Nat | .core => 0 | .clu => 1 | .dev => 2
def PrfLevel.ofCode : Nat → Option PrfLevel | 0 => some .l1 | 1 => some .home | _ => none
def PrfLevel.code : PrfLevel → Nat | .l1 => 0 | .home => 1
def QSel.ofCode : Nat → Option QSel | 0 => some .none | 1 => some .copy | 2 => some .mat | 3 => some .net | _ => Option.none
def QSel.code : QSel → Nat | .none => 0 | .copy => 1 | .mat => 2 | .net => 3
def TileTy.ofCode : Nat → Option TileTy | 0 => some .f32 | 1 => some .i32 | 2 => some .f64 | _ => none
def TileTy.code : TileTy → Nat | .f32 => 0 | .i32 => 1 | .f64 => 2
def Hint.ofCode : Nat → Option Hint
  | 0 => some .none | 1 => some .likely | 2 => some .unlikely | 3 => some .groupUniform | _ => Option.none
def Hint.code : Hint → Nat | .none => 0 | .likely => 1 | .unlikely => 2 | .groupUniform => 3

/-! ### Decoding by operand shape -/

/-- D, A, B with type code `t`: C reserved (R125). -/
def decDAB {α : Type} (f : Raw) (t : Option α) (mk : Guard → α → Reg → Reg → Reg → Instr) (sub : Bool) : Option Instr := do
  let t ← t; let d ← f.dF; let a ← f.aF; let b ← f.bF
  let _ ← req (f.noC && sub)
  return mk f.gd t d a b

/-- D, A, B, C with C a v register. -/
def decDABC {α : Type} (f : Raw) (t : Option α) (mk : Guard → α → Reg → Reg → Reg → VReg → Instr) (sub : Bool) :
    Option Instr := do
  let t ← t; let d ← f.dF; let a ← f.aF; let b ← f.bF; let c ← f.cV
  let _ ← req sub
  return mk f.gd t d a b c

/-- D, A: B and C reserved. -/
def decDA {α : Type} (f : Raw) (t : Option α) (mk : Guard → α → Reg → Reg → Instr) (sub : Bool) : Option Instr := do
  let t ← t; let d ← f.dF; let a ← f.aF
  let _ ← req (f.noB && f.noC && sub)
  return mk f.gd t d a

/-- Token, v destination, A (R143). -/
def decTokDA {α : Type} (f : Raw) (t : Option α) (mk : Guard → α → RM → Tok → VReg → Reg → Instr) : Option Instr := do
  let t ← t; let rm ← RM.ofCode (f.sub % 8); let tk ← f.tok; let d ← f.dV; let a ← f.aF
  let _ ← req (f.noB && f.noC && f.sub < 8)
  return mk f.gd t rm tk d a

/-- The SAT bit is SUB[0] alone (R125). -/
def satOk (f : Raw) : Bool := f.sub < 2
/-- The rounding code is SUB[2:0] alone (R140). -/
def rmOk (f : Raw) : Bool := f.sub < 8
/-- TY is zero (R91). -/
def noTy (f : Raw) : Option Unit := req (f.ty == 0)

/-- I form, D and A (R132). -/
def decI (f : Raw) (mk : Guard → Reg → Reg → BitVec 30 → Instr) : Option Instr := do
  let d ← f.dI; let a ← f.aI
  return mk f.gd d a (BitVec.ofNat 30 f.imm)

/-- Opcodes 0x00 to 0x0F (R125). -/
def decodeOp0 (f : Raw) : Nat → Option Instr
  | 0 => decDAB f (IntTy.ofCode f.ty) (.add · · (f.sub == 1)) (satOk f)
  | 1 => decDAB f (IntTy.ofCode f.ty) (.sub · · (f.sub == 1)) (satOk f)
  | 2 => decDAB f (IntTy.ofCode f.ty) .mul (f.sub == 0)
  | 3 => decDAB f (IntTy.ofCode f.ty) .mulh (f.sub == 0)
  | 4 => decDABC f (IntTy.ofCode f.ty) .mad (f.sub == 0)
  | 5 => decDABC f (MadwTy.ofCode f.ty) .madw (f.sub == 0)
  | 6 => decDAB f (IntTy.ofCode f.ty) .min (f.sub == 0)
  | 7 => decDAB f (IntTy.ofCode f.ty) .max (f.sub == 0)
  | 8 => decDA f (STy.ofCode f.ty) (.abs · · (f.sub == 1)) (satOk f)
  | 9 => decDA f (STy.ofCode f.ty) (.neg · · (f.sub == 1)) (satOk f)
  | 10 => decDAB f (BTy.ofCode f.ty) .and (f.sub == 0)
  | 11 => decDAB f (BTy.ofCode f.ty) .or (f.sub == 0)
  | 12 => decDAB f (BTy.ofCode f.ty) .xor (f.sub == 0)
  | 13 => decDAB f (BTy.ofCode f.ty) .andn (f.sub == 0)
  | 14 => decDA f (BTy.ofCode f.ty) .not (f.sub == 0)
  | 15 => decDAB f (BTy.ofCode f.ty) .shl (f.sub == 0)
  | _ => none

/-- `vote` (R136). -/
def decodeVote (f : Raw) : Option Instr := do
  let a ← fin? 8 f.a; let c ← f.cG
  let _ ← req (f.ty == 12 && !f.ag && f.noB)
  match f.sub with
  | 0 => do let d ← f.dP; return .vote f.gd (.pred .all d) a c
  | 1 => do let d ← f.dP; return .vote f.gd (.pred .any d) a c
  | 2 => do let d ← f.dP; return .vote f.gd (.pred .odd d) a c
  | 3 => do let d ← f.dP; return .vote f.gd (.pred .same d) a c
  | 4 => do let d ← f.dF; return .vote f.gd (.reg .mask d) a c
  | 5 => do let d ← f.dF; return .vote f.gd (.reg .count d) a c
  | 6 => do let d ← f.dF; return .vote f.gd (.reg .first d) a c
  | _ => none

/-- The operation and type of `redl` (R137). -/
def RedlOp.ofCode (op ty : Nat) : Option RedlOp :=
  match op with
  | 0 => (WTy.ofCode ty).map .add
  | 1 => (WTy.ofCode ty).map .min
  | 2 => (WTy.ofCode ty).map .max
  | 3 => (BTy.ofCode ty).map .and
  | 4 => (BTy.ofCode ty).map .or
  | 5 => (BTy.ofCode ty).map .xor
  | _ => none
def RedlOp.op : RedlOp → Nat
  | .add _ => 0 | .min _ => 1 | .max _ => 2 | .and _ => 3 | .or _ => 4 | .xor _ => 5
def RedlOp.ty : RedlOp → Nat
  | .add t | .min t | .max t => t.code
  | .and t | .or t | .xor t => t.code

/-- Opcodes 0x10 to 0x1F (R125, R134 to R137). -/
def decodeOp1 (f : Raw) : Nat → Option Instr
  | 0 => decDAB f (BTy.ofCode f.ty) .shr (f.sub == 0)
  | 1 => decDAB f (SarTy.ofCode f.ty) .sar (f.sub == 0)
  | 2 => decDAB f (BTy.ofCode f.ty) .rot (f.sub == 0)
  | 3 => decDAB f (WTy.ofCode f.ty) .bfe (f.sub == 0)
  | 4 => decDABC f (BTy.ofCode f.ty) .bfi (f.sub == 0)
  | 5 => decDA f (BTy.ofCode f.ty) .pop (f.sub == 0)
  | 6 => decDA f (BTy.ofCode f.ty) .clz (f.sub == 0)
  | 7 => decDA f (BTy.ofCode f.ty) .brev (f.sub == 0)
  | 8 => do
      let p ← fin? 8 (f.sub % 8)
      decDAB f (BTy.ofCode f.ty) (.sel · · · · · p (f.sub / 8 == 1)) (f.sub < 16)
  | 9 => decDA f (BTy.ofCode f.ty) .mov (f.sub == 0)
  | 10 => do
      let t ← IntTy.ofCode f.ty; let cc ← Cond.ofCode f.sub; let d ← f.dP; let a ← f.aF; let b ← f.bF
      let _ ← req f.noC
      return .cmp f.gd t cc d a b
  | 11 => do
      let d ← f.dP; let a ← fin? 8 f.a; let b ← fin? 8 f.b; let c ← fin? 8 f.c
      let _ ← req (f.ty == 0 && !f.ag && !f.bg)
      return .plog f.gd d a b c (BitVec.ofNat 8 f.sub)
  | 12 => do
      let s ← fin? 8 f.sub
      decDAB f (WTy.ofCode f.ty) (.lea · · · · · s) true
  | 13 => do
      let t ← BTy.ofCode f.ty; let m ← ShflMode.ofCode (f.sub % 4); let wl ← fin? 6 (f.sub / 4)
      let d ← f.dV; let a ← vreg f.a; let b ← f.bF; let c ← f.cG
      let _ ← req (f.tk == 0 && !f.ag)
      return .shfl f.gd t m wl d a b c
  | 14 => decodeVote f
  | 15 => do
      let op ← RedlOp.ofCode (f.sub % 8) f.ty; let d ← f.dF; let a ← f.aF; let c ← f.cG
      let _ ← req (f.noB && f.sub < 16)
      return .redl f.gd op (f.sub / 8 == 1) d a c
  | _ => none

/-- Opcodes 0x20 to 0x27 (R132, R133). -/
def decodeOp2 (f : Raw) : Nat → Option Instr
  | 0 => decI f .addi
  | 1 => decI f .andi
  | 2 => decI f .ori
  | 3 => decI f .xori
  | 4 => do
      let d ← f.dI
      let _ ← req (f.a == 0 && f.tk / 4 % 2 == 0)
      return .movi f.gd d (BitVec.ofNat 30 f.imm)
  | 5 => do
      let cc ← Cond.ofCode (f.d / 8 % 8); let d ← fin? 7 (f.d % 8); let a ← f.aI
      let _ ← req (f.tk / 8 == 0 && f.d < 128)
      return .cmpi f.gd cc (f.d / 64 == 1) d a (BitVec.ofNat 30 f.imm)
  | 6 => decI f .muli
  | 7 => do
      let d ← f.dI; let a ← f.aI; let s ← fin? 8 (f.imm / 2 ^ 27)
      return .leai f.gd d a (BitVec.ofNat 27 f.imm) s
  | _ => none

/-- Opcodes 0x40 to 0x4F (R143). -/
def decodeOp4 (f : Raw) : Nat → Option Instr
  | 0 => do let rm ← RM.ofCode (f.sub % 8); decDAB f (FTy.ofCode f.ty) (.fadd · · rm) (rmOk f)
  | 1 => do let rm ← RM.ofCode (f.sub % 8); decDAB f (FTy.ofCode f.ty) (.fsub · · rm) (rmOk f)
  | 2 => do let rm ← RM.ofCode (f.sub % 8); decDAB f (FTy.ofCode f.ty) (.fmul · · rm) (rmOk f)
  | 3 => do let rm ← RM.ofCode (f.sub % 8); decDABC f (FTy.ofCode f.ty) (.fma · · rm) (rmOk f)
  | 4 => decDAB f (FTy.ofCode f.ty) .fmin (f.sub == 0)
  | 5 => decDAB f (FTy.ofCode f.ty) .fmax (f.sub == 0)
  | 6 => do
      let t ← FTy.ofCode f.ty; let cc ← FCond.ofCode f.sub; let d ← f.dP; let a ← f.aF; let b ← f.bF
      let _ ← req f.noC
      return .fcmp f.gd t cc d a b
  | 7 => decTokDA f (FTy.ofCode f.ty) .frcp
  | 8 => decTokDA f (FTy.ofCode f.ty) .frsq
  | 9 => decTokDA f (FTy.ofCode f.ty) .fsqrt
  | 10 => decTokDA f (HTy.ofCode f.ty) .fexp2
  | 11 => decTokDA f (HTy.ofCode f.ty) .flog2
  | 12 => decTokDA f (HTy.ofCode f.ty) .fsin
  | 13 => decTokDA f (HTy.ofCode f.ty) .fcos
  | 14 => do
      let t ← FTy.ofCode f.ty; let rm ← RM.ofCode f.sub; let tk ← f.tok; let d ← f.dV; let a ← f.aF; let b ← f.bF
      let _ ← req f.noC
      return .fdiv f.gd t rm tk d a b
  | 15 => do
      let rm ← RM.ofCode (f.sub % 8); let s ← FTy.ofCode (f.sub / 8)
      decDA f (FTy.ofCode f.ty) (.fcvt · · s rm) true
  | _ => none

/-- Opcodes 0x50 to 0x5F (R143). -/
def decodeOp5 (f : Raw) : Nat → Option Instr
  | 0 => do
      let rm ← RM.ofCode (f.sub % 8); let s ← WTy.ofCode (f.sub / 8)
      decDA f (FTy.ofCode f.ty) (.icvt · · s rm) true
  | 1 => do
      let rm ← RM.ofCode (f.sub % 8); let s ← FTy.ofCode (f.sub / 8)
      decDA f (WTy.ofCode f.ty) (.ficvt · · s rm) true
  | 2 => do
      let s ← HTy.ofCode f.ty; let q ← NFmt.ofCode (f.sub % 32); let d ← f.dV; let a ← f.aF; let pos ← fin? 8 f.c
      let _ ← req (f.tk == 0 && f.noB && f.sub < 64)
      return .qcvt f.gd s q (f.sub / 32 == 1) d a pos
  | 3 => do
      let t ← QTy.ofCode f.ty; let d ← f.dF; let a ← f.aF; let pos ← fin? 8 f.c
      let q ← if f.sub = 32 then some .s10 else (NFmt.ofCode f.sub).map .narrow
      let _ ← req f.noB
      return .qexp f.gd t q d a pos
  | 4 => do let rm ← RM.ofCode (f.sub % 8); decDAB f (FTy.ofCode f.ty) (.fscl · · rm) (rmOk f)
  | 5 => do let rm ← RM.ofCode (f.sub % 8); decDA f (FTy.ofCode f.ty) (.frnd · · rm) (rmOk f)
  | 6 => decDA f (FTy.ofCode f.ty) .fclass (f.sub == 0)
  | 7 => do let rm ← RM.ofCode (f.sub % 8); decDAB f (X2Ty.ofCode f.ty) (.hadd2 · · rm) (rmOk f)
  | 8 => do let rm ← RM.ofCode (f.sub % 8); decDAB f (X2Ty.ofCode f.ty) (.hmul2 · · rm) (rmOk f)
  | 9 => do let rm ← RM.ofCode (f.sub % 8); decDABC f (X2Ty.ofCode f.ty) (.hfma2 · · rm) (rmOk f)
  | 10 => decDAB f (X2Ty.ofCode f.ty) .hmin2 (f.sub == 0)
  | 11 => decDAB f (X2Ty.ofCode f.ty) .hmax2 (f.sub == 0)
  | 12 => do
      let rm ← RM.ofCode (f.sub % 8); let d ← f.dF; let a ← f.aF; let b ← f.bF; let c ← f.cV
      let _ ← req (f.ty == 10 && f.sub < 32)
      return .fdot4 f.gd rm (f.sub / 8 % 2 == 1) (f.sub / 16 == 1) d a b c
  | 13 => do
      let q ← ScaleFmt.ofCode f.sub; let d ← f.dF; let a ← f.aF
      let _ ← req (f.ty == 10 && f.noB && f.noC)
      return .scvt f.gd q d a
  | _ => none

/-- Opcodes 0x60 to 0x62 (R156). -/
def decodeOp6 (f : Raw) : Nat → Option Instr
  | 0 => do
      let d ← f.dI
      let _ ← req (f.a == 0 && f.tk / 4 % 2 == 0)
      return .fmovi f.gd d (BitVec.ofNat 30 f.imm)
  | 1 => decI f .faddi
  | 2 => decI f .fmuli
  | _ => none

/-- A word of chapter 08 without operands (R158). -/
def bare (f : Raw) (sub : Bool) : Bool := f.noD && f.noA && f.noB && f.noC && f.ty == 0 && sub

/-- Opcodes 0x80 to 0x8F (R158). -/
def decodeOp8 (f : Raw) : Nat → Option Instr
  | 0 => do let _ ← req (bare f (f.sub == 0) && f.unguarded); return .nop
  | 1 => do let n ← fin? 64 f.sub; let _ ← req (bare f true && f.unguarded); return .dly n
  | 2 => do
      let h ← Hint.ofCode f.d
      let _ ← req (f.tk == 0 && f.a == 0)
      return .bra f.gd h (BitVec.ofNat 18 (f.imm / 2 ^ 12)) (BitVec.ofNat 12 f.imm)
  | 3 => do
      let a ← f.aG
      let _ ← req (f.noD && f.noB && f.noC && f.ty == 0 && f.sub == 0)
      return .jmp f.gd a
  | 4 => do
      let d ← greg f.d
      let _ ← req (f.tk == 0 && f.a == 0)
      return .call f.gd d (BitVec.ofNat 18 (f.imm / 2 ^ 12)) (BitVec.ofNat 12 f.imm)
  | 5 => do
      let d ← f.dG; let a ← f.aG
      let _ ← req (f.b < 16 && !f.bg && f.noC && f.ty == 0)
      return .callr f.gd d a (BitVec.ofNat 12 (f.b * 256 + f.sub))
  | 6 => do
      let a ← f.aG
      let _ ← req (f.noD && f.noB && f.noC && f.ty == 0 && f.sub == 0)
      return .ret f.gd a
  | 7 => do
      let c ← f.cG
      let _ ← req (f.noD && f.noA && f.noB && f.ty == 0 && f.sub == 0 && f.unguarded)
      return .bsync c
  | 8 => do let _ ← req (bare f (f.sub == 0)); return .exit f.gd
  | 9 => do let _ ← req (bare f (f.sub < 2) && f.unguarded); return .region (f.sub == 1)
  | 10 => do let _ ← req (bare f true); return .trap f.gd (BitVec.ofNat 8 f.sub)
  | 11 => do let _ ← req (bare f (f.sub == 0) && f.unguarded); return .rett
  | 12 => do let _ ← req (bare f (f.sub < 2)); return .tmask f.gd (f.sub == 1)
  | 13 => do
      let t ← BTy.ofCode f.ty; let d ← f.dF
      let _ ← req (f.noA && f.noB && f.noC)
      return .csrr f.gd t d (BitVec.ofNat 8 f.sub)
  | 14 => do
      let t ← BTy.ofCode f.ty; let a ← f.aF
      let _ ← req (f.noD && f.noB && f.noC)
      return .csrw f.gd t (BitVec.ofNat 8 f.sub) a
  | 15 => do let _ ← req (bare f (f.sub == 0) && f.unguarded); return .yield
  | _ => none

/-- Opcodes 0x90 and 0x91 (R158, R174). -/
def decodeOp9 (f : Raw) : Nat → Option Instr
  | 0 => do
      let tk ← f.tok; let d ← vreg (f.ef 45 38); let a ← vreg (f.ef 37 30); let na ← fin? 9 (f.ef 29 26)
      let nr ← fin? 9 (f.ef 25 22)
      let _ ← req (f.ef 21 14 == 0)
      return .sysc f.gd tk d a na nr (BitVec.ofNat 14 (f.ef 13 0))
  | 1 => do let _ ← req (bare f true); return .brk f.gd (BitVec.ofNat 8 f.sub)
  | _ => none

/-- Opcodes 0xA0 to 0xAA (R180, R182, R190, R196, R199, R200). -/
def decodeOpA (f : Raw) : Nat → Option Instr
  | 0 => do
      let tk ← f.tok; let n ← fin? 64 f.sub
      let _ ← req (f.d == 0 && f.noA && f.noB && f.noC && f.ty == 0)
      return .waitt f.gd tk n
  | 1 => do
      let tk ← f.tok; let d ← greg f.d
      let _ ← req (f.noA && f.noB && f.noC && f.ty == 0 && f.sub < 2)
      return .tkst f.gd tk (f.sub == 1) d
  | 2 => do
      let b ← fin? 16 (f.ef 29 26)
      let _ ← req (f.tk == 0 && f.ef 45 38 == 0 && f.ef 37 30 == 0 && f.ef 25 0 == 0)
      return .barinit f.gd b
  | 3 => do
      let b ← fin? 16 (f.ef 29 26); let a ← greg (f.ef 37 30)
      let _ ← req (f.tk == 0 && f.ef 45 38 == 0 && f.ef 25 0 == 0)
      return .bararv f.gd b a
  | 4 => do
      let b ← fin? 16 (f.ef 29 26); let a ← greg (f.ef 37 30)
      let _ ← req (f.tk == 0 && f.ef 45 38 == 0 && f.ef 25 0 == 0)
      return .barxb f.gd b a
  | 5 => do
      let b ← fin? 16 (f.ef 29 26); let d ← greg (f.ef 45 38); let tk ← f.tok
      let _ ← req (f.ef 37 30 == 0 && f.ef 24 0 == 0 && (f.ef 25 25 == 1 || f.tk == 0))
      return .barwait f.gd b d (if f.ef 25 25 = 1 then some tk else none)
  | 6 => do
      let b ← fin? 16 (f.ef 29 26); let d ← greg (f.ef 45 38)
      let _ ← req (f.tk == 0 && f.ef 37 30 == 0 && f.ef 25 0 == 0)
      return .bartest f.gd b d
  | 7 => do
      let b ← fin? 16 (f.ef 29 26)
      let _ ← req (f.tk == 0 && f.ef 45 38 == 0 && f.ef 37 30 == 0 && f.ef 25 0 == 0)
      return .barinv f.gd b
  | 8 => do
      let t ← BTy.ofCode f.ty; let d ← f.dF
      let _ ← req (f.noA && f.noB && f.noC)
      return .cntrd f.gd t d (BitVec.ofNat 8 f.sub)
  | 9 => do
      let a ← f.aG; let b ← f.bG; let k ← fin? 8 f.sub
      let _ ← req (f.noD && f.noC && f.ty == 0)
      return .cntctl f.gd a b k
  | 10 => do
      let d ← f.dF
      let _ ← req (f.noA && f.noB && f.noC && f.ty == 0 && f.sub == 0)
      return .genrd f.gd d
  | _ => none

/-- Opcodes 0xB0 to 0xB6 (R204, R212, R214, R220, R221). -/
def decodeOpB (f : Raw) : Nat → Option Instr
  | 0 => do
      let n ← fin? 256 f.d; let op ← LyOp.ofCode f.sub; let a ← f.aG
      let _ ← req (f.tk == 0 && f.noB && f.noC && f.ty == 0)
      return .lyset f.gd n op a
  | 1 => do
      let d ← f.dG; let n ← fin? 256 f.a; let s ← LySel.ofCode f.sub
      let _ ← req (!f.ag && f.noB && f.noC && f.ty == 0)
      return .lyget f.gd d n s
  | 2 => do
      let n ← fin? 64 f.d; let op ← TplOp.ofCode f.sub; let a ← f.aG
      let _ ← req (f.tk == 0 && f.noB && f.noC && f.ty == 0)
      return .tplset f.gd n op a
  | 3 => do
      let d ← f.dG; let n ← fin? 64 f.a; let s ← TplSel.ofCode f.sub
      let _ ← req (!f.ag && f.noB && f.noC && f.ty == 0)
      return .tplget f.gd d n s
  | 4 => do
      let sc ← TlbScope.ofCode (f.sub / 4 % 4)
      let _ ← req (f.noD && f.noC && f.ty == 0 && f.sub < 16)
      match f.sub % 4 with
      | 0 => do let a ← f.aG; let b ← f.bG; return .tlbinv f.gd (.page a b) sc
      | 1 => do let b ← f.bG; let _ ← req f.noA; return .tlbinv f.gd (.space b) sc
      | 2 => do let _ ← req (f.noA && f.noB); return .tlbinv f.gd .all sc
      | _ => none
  | 5 => do
      let a ← f.aG
      let _ ← req (f.noD && f.noB && f.noC && f.ty == 0 && f.sub < 2)
      return .fgset f.gd (f.sub == 1) a
  | 6 => do
      let a ← f.aG; let b ← f.bG
      let _ ← req (f.noD && f.noC && f.ty == 0 && f.sub == 0)
      return .hdlset f.gd a b
  | _ => none

namespace Raw
/-- GB, VX, XE and OFF of R252. -/
def mem (f : Raw) : Option MemOpnd := do
  let gb ← fin? 64 (f.ef 37 32); let vx ← fin? 256 (f.ef 31 24)
  return { gb := gb, vx := vx, xe := f.ef 23 23 == 1, off := BitVec.ofNat 13 (f.ef 12 0) }
/-- GB, VX and XE of R262. -/
def amem (f : Raw) : Option AtOpnd := do
  let gb ← fin? 64 (f.ef 37 32); let vx ← fin? 256 (f.ef 31 24)
  return { gb := gb, vx := vx, xe := f.ef 23 23 == 1 }
/-- A word that counts when its enable bit is set: TK is reserved when it is clear (R87). -/
def optTok (f : Raw) (te : Bool) : Option (Option Tok) :=
  if te then (fin? 16 f.tk).map some else if f.tk = 0 then some none else none
end Raw

/-- Loads (R258). -/
def decLoad (f : Raw) : Option (Tok × VReg × MemOpnd × Sz × LdSem) := do
  let tk ← f.tok; let d ← vreg (f.ef 45 38); let m ← f.mem; let z ← Sz.ofCode (f.ef 22 20)
  let s ← LdSem.ofCode (f.ef 19 18) (f.ef 17 15)
  let _ ← req (f.ef 14 14 == 0)
  return (tk, d, m, z, s)

/-- Stores (R258). -/
def decStore (f : Raw) : Option (Option Tok × VReg × MemOpnd × Sz × StSem) := do
  let tk ← f.optTok (f.ef 14 14 == 1); let d ← vreg (f.ef 45 38); let m ← f.mem; let z ← Sz.ofCode (f.ef 22 20)
  let s ← StSem.ofCode (f.ef 19 18) (f.ef 17 15)
  return (tk, d, m, z, s)

/-- Opcodes 0xC0 to 0xCF (R258, R262, R265 to R269, R273). -/
def decodeOpC (f : Raw) : Nat → Option Instr
  | 0 => do
      let (tk, d, m, z, s) ← decLoad f
      let _ ← req (f.ef 13 13 == 0)
      return .ld f.gd tk d m z s
  | 1 => do
      let (tk, d, m, z, s) ← decStore f
      let _ ← req (f.ef 13 13 == 0)
      return .st f.gd tk d m z s
  | 2 => do
      let (tk, d, m, z, s) ← decLoad f
      return .lds f.gd tk d m z s (f.ef 13 13 == 1)
  | 3 => do
      let (tk, d, m, z, s) ← decStore f
      return .sts f.gd tk d m z s (f.ef 13 13 == 1)
  | 4 => do
      let tk ← f.tok; let d ← greg (f.ef 45 38); let gb ← greg (f.ef 37 32); let z ← LdcSz.ofCode (f.ef 22 20)
      let _ ← req (f.ef 31 23 == 0 && f.ef 19 13 == 0)
      return .ldc f.gd tk d gb (BitVec.ofNat 13 (f.ef 12 0)) z
  | 5 => do
      let lv ← PrfLevel.ofCode (f.ef 19 18); let m ← f.mem
      let _ ← req (f.tk == 0 && f.ef 45 38 == 0 && f.ef 22 20 == 0 && f.ef 17 13 == 0)
      return .prf f.gd lv m
  | 6 => do
      let tk ← f.optTok (f.ef 14 14 == 1); let d ← vreg (f.ef 45 38); let m ← f.mem
      let b ← fin? 16 (f.ef 18 15)
      let z ← match f.ef 22 20 with | 4 => some .b32 | 5 => some .b64 | 6 => some .b128 | _ => none
      let _ ← req (f.ef 13 13 == 0)
      return .acp f.gd tk d m z (if f.ef 19 19 = 1 then some b else none)
  | 7 => do
      let tk ← f.tok; let d ← vreg (f.ef 45 38); let m ← f.amem; let va ← vreg (f.ef 22 15)
      let op ← AOp.ofCode (f.ef 14 11); let z ← ASz.ofCode (f.ef 10 9); let s ← AtSem.ofCode (f.ef 8 7) (f.ef 6 4)
      let _ ← req (f.ef 3 0 == 0)
      return .atom f.gd tk d m va op z s
  | 8 => do
      let tk ← f.optTok (f.ef 2 2 == 1); let m ← f.amem; let va ← vreg (f.ef 22 15)
      let op ← AOp.ofCode (f.ef 14 11); let z ← ASz.ofCode (f.ef 10 9); let s ← AtSem.ofCode (f.ef 8 7) (f.ef 6 4)
      let _ ← req (f.ef 45 38 == 0 && f.ef 3 3 == 0 && f.ef 1 0 == 0)
      return .red f.gd tk m va op z s
  | 9 => do
      let tk ← f.tok; let d ← vreg (f.ef 45 38); let m ← f.amem; let va ← vreg (f.ef 22 15)
      let op ← AOp.ofCode (f.ef 14 11); let z ← ASz.ofCode (f.ef 10 9); let s ← AtSem.ofCode (f.ef 8 7) (f.ef 6 4)
      let _ ← req (f.ef 2 0 == 0)
      return .atoms f.gd tk d m va op z s (f.ef 3 3 == 1)
  | 10 => do
      let k ← FenceSem.ofCode (f.ef 19 18); let sc ← Scope.ofCode (f.ef 17 15)
      let _ ← req (f.tk == 0 && f.ef 45 20 == 0 && f.ef 14 0 == 0)
      return .fence f.gd k sc
  | 11 => do
      let gb ← greg (f.ef 37 32); let gl ← greg (f.ef 31 26)
      let _ ← req (f.tk == 0 && f.ef 45 38 == 0 && f.ef 25 0 == 0)
      return .iflush f.gd gb gl
  | 12 => do let _ ← req (f.tk == 0 && f.e == 0); return .isync f.gd
  | 13 => do
      let tk ← f.tok; let gb ← greg (f.ef 37 32); let gl ← greg (f.ef 31 26)
      let _ ← req (f.ef 45 38 == 0 && f.ef 24 0 == 0)
      return .cwb f.gd tk gb gl (f.ef 25 25 == 1)
  | 14 => do
      let tk ← f.tok; let ga ← greg (f.ef 37 32)
      let _ ← req (f.ef 45 38 == 0 && f.ef 31 23 == 0 && f.ef 21 0 == 0)
      return .pinit f.gd tk ga (f.ef 22 22 == 1)
  | 15 => do
      let tk ← f.tok; let ga ← greg (f.ef 37 32); let gv ← greg (f.ef 31 26); let sc ← Scope.ofCode (f.ef 25 23)
      let _ ← req (f.ef 45 38 == 0 && f.ef 22 0 == 0)
      return .pfill f.gd tk ga gv sc
  | _ => none

/-- The layout operand of R270. -/
def decLay (f : Raw) : Option LayOpnd := do
  let l ← fin? 256 (f.ef 37 30); let gc ← greg (f.ef 29 24); let nc ← fin? 4 (f.ef 23 22); let nr ← fin? 8 (f.ef 21 19)
  let _ ← req (f.ef 16 0 == 0)
  return { l := l, gc := gc, nc := nc, nr := nr, row := f.ef 17 17 == 1 }

/-- Opcodes 0xD0 to 0xD4 (R270, R273). -/
def decodeOpD (f : Raw) : Nat → Option Instr
  | 0 => do
      let tk ← f.tok; let d ← greg (f.ef 45 38); let ga ← greg (f.ef 37 32); let sc ← Scope.ofCode (f.ef 25 23)
      let _ ← req (f.ef 31 26 == 0 && f.ef 22 0 == 0)
      return .pwait f.gd tk d ga sc
  | 1 => do
      let tk ← f.tok; let ga ← greg (f.ef 37 32); let gv ← greg (f.ef 31 26)
      let _ ← req (f.ef 45 38 == 0 && f.ef 25 0 == 0)
      return .pequ f.gd tk ga gv
  | 2 => do
      let tk ← f.tok; let d ← greg (f.ef 45 38); let ga ← greg (f.ef 37 32); let sc ← Scope.ofCode (f.ef 25 23)
      let _ ← req (f.ef 31 26 == 0 && f.ef 22 0 == 0)
      return .ptest f.gd tk d ga sc
  | 3 => do
      let tk ← f.tok; let d ← vreg (f.ef 45 38); let o ← decLay f
      let _ ← req (f.ef 18 18 == 0)
      return .ldl f.gd tk d o
  | 4 => do
      let tk ← f.optTok (f.ef 18 18 == 1); let d ← vreg (f.ef 45 38); let o ← decLay f
      return .stl f.gd tk d o
  | _ => none

/-- `mma` and `mmaz` (R293). -/
def decMma (f : Raw) (mk : Guard → Tok → Fin 64 → Fin 256 → GReg → Fin 256 → GReg → GReg → GReg → Instr) :
    Option Instr := do
  let tk ← f.tok; let acc ← fin? 64 (f.ef 45 40); let la ← fin? 256 (f.ef 39 32); let gca ← greg (f.ef 31 26)
  let lb ← fin? 256 (f.ef 25 18); let gcb ← greg (f.ef 17 12); let gf ← greg (f.ef 11 6); let gk ← greg (f.ef 5 0)
  return mk f.gd tk acc la gca lb gcb gf gk

/-- `accld` and `accst` (R302). -/
def decAccMem (f : Raw) (mk : Guard → Tok → Fin 64 → Fin 256 → GReg → TileTy → Instr) : Option Instr := do
  let tk ← f.tok; let acc ← fin? 64 (f.ef 45 40); let l ← fin? 256 (f.ef 39 32); let gc ← greg (f.ef 31 26)
  let tt ← TileTy.ofCode (f.ef 25 24)
  let _ ← req (f.ef 23 0 == 0)
  return mk f.gd tk acc l gc tt

/-- Opcodes 0xE0 to 0xE7 (R293, R300 to R304). -/
def decodeOpE (f : Raw) : Nat → Option Instr
  | 0 => decMma f .mma
  | 1 => decMma f .mmaz
  | 2 => do
      let tk ← f.tok; let acc ← fin? 64 (f.ef 45 40); let n ← fin? 64 (f.ef 39 34)
      let _ ← req (f.ef 33 0 == 0)
      return .accz f.gd tk acc n
  | 3 => decAccMem f .accld
  | 4 => decAccMem f .accst
  | 5 => do
      let tk ← f.tok; let acc ← fin? 64 (f.ef 45 40); let gr ← greg (f.ef 31 26)
      let _ ← req (f.ef 22 0 == 0 && (f.ef 23 23 == 0 || f.ef 25 24 == 2))
      match f.ef 25 24 with
      | 0 => do let x ← vreg (f.ef 39 32); return .accmvGet f.gd tk acc x gr
      | 1 => do let x ← vreg (f.ef 39 32); return .accmvPut f.gd tk acc x gr
      | 2 => do let x ← greg (f.ef 39 32); return .accmvStat f.gd tk acc x gr (f.ef 23 23 == 1)
      | 3 => do let x ← fin? 64 (f.ef 39 32); return .accmvCopy f.gd tk acc x gr
      | _ => none
  | 6 => do
      let tk ← f.tok; let acc ← fin? 64 (f.ef 45 40); let gs ← greg (f.ef 37 32)
      let _ ← req (f.ef 39 38 == 0 && f.ef 23 0 == 0 && f.ef 31 26 == 0 && f.ef 25 24 < 2)
      return .accsc f.gd tk acc gs (f.ef 25 24 == 1)
  | 7 => do
      let tk ← f.tok; let d ← greg (f.ef 45 38)
      let _ ← req (f.ef 37 0 == 0)
      return .mtest f.gd tk d
  | _ => none

/-- The network words (R375): GX, every other bit reserved. -/
def decNet (f : Raw) (mk : Guard → Tok → GReg → Instr) : Option Instr := do
  let tk ← f.tok; let gx ← greg (f.ef 45 40)
  let _ ← req (f.ef 39 0 == 0)
  return mk f.gd tk gx

/-- Opcodes 0xF0 to 0xFE (R359, R369, R374, R375). -/
def decodeOpF (f : Raw) : Nat → Option Instr
  | 0 => do
      let rg ← fin? 8 (f.ef 31 29)
      let _ ← req (f.tk == 0 && f.ef 28 27 == 0 && f.ef 25 0 == 0)
      if f.ef 26 26 = 1 then do
        let ga ← greg (f.ef 37 32); let _ ← req (f.ef 45 38 == 0)
        return .rgacqInit f.gd rg ga
      else do
        let d ← greg (f.ef 45 38); let _ ← req (f.ef 37 32 == 0)
        return .rgacq f.gd d rg
  | 1 => do
      let q ← QSel.ofCode (f.ef 28 27); let rg ← fin? 8 (f.ef 31 29); let ga ← greg (f.ef 37 32)
      let _ ← req (f.tk == 0 && f.ef 45 38 == 0 && f.ef 26 0 == 0)
      return .rgcmt f.gd q rg ga
  | 2 => do
      let d ← greg (f.ef 45 38); let rg ← fin? 8 (f.ef 31 29)
      let _ ← req (f.tk == 0 && f.ef 37 32 == 0 && f.ef 28 0 == 0)
      return .rgtake f.gd d rg
  | 3 => do
      let q ← QSel.ofCode (f.ef 28 27); let rg ← fin? 8 (f.ef 31 29); let ga ← greg (f.ef 37 32)
      let _ ← req (f.tk == 0 && f.ef 45 38 == 0 && f.ef 26 0 == 0)
      return .rgrel f.gd q rg ga
  | 4 => do
      let tk ← f.tok; let ct ← fin? 64 (f.ef 45 40); let gs ← greg (f.ef 39 34); let gd ← greg (f.ef 33 28)
      let nc ← fin? 4 (f.ef 27 26)
      let _ ← req (f.ef 25 0 == 0)
      return .bcopy f.gd tk ct gs gd nc
  | 5 => do
      let _ ← req (f.tk == 0 && f.ef 42 0 == 0)
      return .qfence f.gd (f.ef 43 43 == 1) (f.ef 44 44 == 1) (f.ef 45 45 == 1)
  | 6 => do
      let tk ← f.tok; let gx ← greg (f.ef 45 40)
      let _ ← req (f.ef 32 0 == 0)
      return .amsg f.gd tk gx (BitVec.ofNat 7 (f.ef 39 33))
  | 7 => decNet f .nsend
  | 8 => decNet f .nrecv
  | 9 => decNet f .fput
  | 10 => decNet f .fget
  | 11 => decNet f .fcopy
  | 12 => decNet f .fmrs
  | 13 => decNet f .fmrl
  | 14 => decNet f .nprobe
  | _ => none

/-- Every assigned opcode by its row of the map (R89). -/
def decodeOp (f : Raw) (op : Nat) : Option Instr :=
  match op / 16 with
  | 0 => decodeOp0 f (op % 16)
  | 1 => decodeOp1 f (op % 16)
  | 2 => decodeOp2 f (op % 16)
  | 4 => decodeOp4 f (op % 16)
  | 5 => decodeOp5 f (op % 16)
  | 6 => decodeOp6 f (op % 16)
  | 8 => decodeOp8 f (op % 16)
  | 9 => decodeOp9 f (op % 16)
  | 10 => decodeOpA f (op % 16)
  | 11 => decodeOpB f (op % 16)
  | 12 => decodeOpC f (op % 16)
  | 13 => decodeOpD f (op % 16)
  | 14 => decodeOpE f (op % 16)
  | 15 => decodeOpF f (op % 16)
  | _ => none

/-- How many opcodes of the map's row `r` are assigned; they are its first ones (R89). -/
def rowCount : Nat → Nat
  | 0 => 16 | 1 => 16 | 2 => 8 | 4 => 16 | 5 => 14 | 6 => 3 | 8 => 16 | 9 => 2 | 10 => 11 | 11 => 7 | 12 => 16 | 13 => 5
  | 14 => 8 | 15 => 15 | _ => 0

/-- The opcode is assigned (R89). -/
def opAssigned (op : Nat) : Bool := op % 16 < rowCount (op / 16)

/-- The form of an assigned opcode: 0 F, 2 I, 3 E (R89). -/
def opForm (op : Nat) : Nat :=
  if op / 16 = 2 || op / 16 = 6 || op = 0x82 || op = 0x84 then 2
  else if op = 0x90 || op / 16 ≥ 12 || (0xA2 ≤ op && op ≤ 0xA7) then 3
  else 0

/-- The role class of an assigned opcode (R33). -/
def opClassOf (op : Nat) : OpClass :=
  if op / 16 = 14 then .matrix
  else if op = 0xC6 || op = 0xD3 || op = 0xD4 || op = 0xF4 then .copy
  else if op ≥ 0xF6 then .network
  else .general

/-- The kernel-mode opcodes (R89). -/
def opKernel (op : Nat) : Bool := op == 0xA9 || op == 0xB4 || op == 0xB5 || op == 0xB6 || op == 0xE7

/-- A half of a paired word from its fields OP7, D, A, X (R84, R90); a reserved field is zero. -/
def decodeHalf (op d a x : Nat) : Option Half := do
  let d ← vreg d; let a' ← vreg a
  let r (h : VReg → VReg → Half) : Option Half := if x = 0 then some (h d a') else none
  let i (h : Half) : Option Half := if a = 0 then some h else none
  match op with
  | 0 => r .mov | 1 => r .add | 2 => r .sub | 3 => r .and | 4 => r .or | 5 => r .xor
  | 6 => r .shl | 7 => r .shr | 8 => r .sar | 9 => r .min | 10 => r .max
  | 11 => r .fadd | 12 => r .fmul | 13 => r .fmin | 14 => r .fmax | 15 => r .hadd2 | 16 => r .hmul2
  | 17 => i (.addi d (BitVec.ofNat 8 x))
  | 18 => if x < 32 then i (.shli d (BitVec.ofNat 5 x)) else none
  | 19 => if x < 32 then i (.shri d (BitVec.ofNat 5 x)) else none
  | 20 => i (.andi d (BitVec.ofNat 8 x))
  | 21 => i (.movi d (BitVec.ofNat 8 x))
  | _ => none

/-- Why a word is no instruction: refused at step 1 of R92, or at step 4, after the checks of steps 2 and 3 that its opcode
decides. -/
inductive Reject where
  | unassigned
  | reserved (cls : OpClass) (kernel : Bool)
  deriving DecidableEq, Repr

/-- What the 64-bit word `w` decodes to (R81, R92). -/
def decodeWord (w : Nat) : Except Reject Instr :=
  if w = 0 then .error .unassigned
  else if bits w 63 62 = 1 then
    if bits w 61 55 > 0x15 || bits w 30 24 > 0x15 then .error .unassigned
    else
      match decodeHalf (bits w 61 55) (bits w 54 47) (bits w 46 39) (bits w 38 31),
            decodeHalf (bits w 30 24) (bits w 23 16) (bits w 15 8) (bits w 7 0) with
      | some h0, some h1 =>
        if (Instr.pair h0 h1).wf then .ok (.pair h0 h1) else .error (.reserved .general false)
      | _, _ => .error (.reserved .general false)
  else
    let op := bits w 61 54
    if !opAssigned op || opForm op != bits w 63 62 then .error .unassigned
    else
      match decodeOp (rawOf w) op with
      | some i => if i.wf then .ok i else .error (.reserved (opClassOf op) (opKernel op))
      | none => .error (.reserved (opClassOf op) (opKernel op))

/-- A little-endian number from bytes (R3). -/
def leNat : List Byte → Nat
  | [] => 0
  | b :: bs => b.toNat + 256 * leNat bs

/-- The `n` low bytes of `x`, little-endian (R3). -/
def leBytes : Nat → Nat → List Byte
  | 0, _ => []
  | n + 1, x => BitVec.ofNat 8 x :: leBytes n (x / 256)

/-- Decoding from bytes: an instruction takes eight, the first in bits [7:0] (R3, R81); the rest of the list comes back. -/
def decodeBytes (bs : List Byte) : Except Reject (Instr × List Byte) :=
  if bs.length < 8 then .error .unassigned
  else
    match decodeWord (leNat (bs.take 8)) with
    | .ok i => .ok (i, bs.drop 8)
    | .error r => .error r

/-- The instruction read from a word of the opcode table's numbering: bit 0 is the word's bit 0, and every bit above `nbits` is
zero. -/
def decodeTableWord (nbits w : Nat) : Option Instr :=
  match decodeBytes (leBytes 8 (w % 2 ^ nbits)) with
  | .ok (i, _) => some i
  | .error _ => none

/-! ### Encoding -/

def Guard.code (g : Guard) : Nat := (if g.neg then 8 else 0) + g.pred.val
def b2n (b : Bool) : Nat := if b then 1 else 0

/-- A word of form F (R82). -/
def fWord (op : Nat) (gd : Guard) (tk d a b c ty : Nat) (ag bg : Bool) (sub : Nat) : Nat :=
  op * 2 ^ 54 + gd.code * 2 ^ 50 + tk * 2 ^ 46 + d * 2 ^ 38 + a * 2 ^ 30 + b * 2 ^ 22 + c * 2 ^ 14 + ty * 2 ^ 10 +
    b2n ag * 2 ^ 9 + b2n bg * 2 ^ 8 + sub

/-- A word of form I (R83). -/
def iWord (op : Nat) (gd : Guard) (tk d a imm : Nat) : Nat :=
  2 * 2 ^ 62 + op * 2 ^ 54 + gd.code * 2 ^ 50 + tk * 2 ^ 46 + d * 2 ^ 38 + a * 2 ^ 30 + imm

/-- A word of form E (R85). -/
def eWord (op : Nat) (gd : Guard) (tk e : Nat) : Nat :=
  3 * 2 ^ 62 + op * 2 ^ 54 + gd.code * 2 ^ 50 + tk * 2 ^ 46 + e

def Reg.num : Reg → Nat | .v n => n.val | .g n => n.val
def Reg.isG : Reg → Bool | .v _ => false | .g _ => true
/-- DG as TK[3] (R87). -/
def Reg.dg (r : Reg) : Nat := b2n r.isG * 8

def fDAB (op : Nat) (gd : Guard) (ty : Nat) (d a b : Reg) (sub : Nat) : Nat :=
  fWord op gd d.dg d.num a.num b.num 0 ty a.isG b.isG sub
def fDABC (op : Nat) (gd : Guard) (ty : Nat) (d a b : Reg) (c : VReg) (sub : Nat) : Nat :=
  fWord op gd d.dg d.num a.num b.num c.val ty a.isG b.isG sub
def fDA (op : Nat) (gd : Guard) (ty : Nat) (d a : Reg) (sub : Nat) : Nat :=
  fWord op gd d.dg d.num a.num 0 0 ty a.isG false sub
def fTokDA (op : Nat) (gd : Guard) (ty : Nat) (rm : RM) (tk : Tok) (d : VReg) (a : Reg) : Nat :=
  fWord op gd tk.val d.val a.num 0 0 ty a.isG false rm.code
def iDA (op : Nat) (gd : Guard) (d a : Reg) (imm : Nat) : Nat :=
  iWord op gd (d.dg + b2n a.isG * 4) d.num a.num imm
/-- A word of chapter 08 or 09 with only SUB. -/
def fBare (op : Nat) (gd : Guard) (sub : Nat) : Nat := fWord op gd 0 0 0 0 0 0 false false sub

def MemOpnd.code (m : MemOpnd) : Nat := m.gb.val * 2 ^ 32 + m.vx.val * 2 ^ 24 + b2n m.xe * 2 ^ 23 + m.off.toNat
def AtOpnd.code (m : AtOpnd) : Nat := m.gb.val * 2 ^ 32 + m.vx.val * 2 ^ 24 + b2n m.xe * 2 ^ 23
def eLoad (op : Nat) (gd : Guard) (tk : Tok) (d : VReg) (m : MemOpnd) (z : Sz) (s : LdSem) (sp : Bool) : Nat :=
  eWord op gd tk.val (d.val * 2 ^ 38 + m.code + z.code * 2 ^ 20 + s.sem * 2 ^ 18 + s.scp * 2 ^ 15 + b2n sp * 2 ^ 13)
def tokNum : Option Tok → Nat | some t => t.val | none => 0
def eStore (op : Nat) (gd : Guard) (tk : Option Tok) (d : VReg) (m : MemOpnd) (z : Sz) (s : StSem) (sp : Bool) : Nat :=
  eWord op gd (tokNum tk)
    (d.val * 2 ^ 38 + m.code + z.code * 2 ^ 20 + s.sem * 2 ^ 18 + s.scp * 2 ^ 15 + b2n tk.isSome * 2 ^ 14 + b2n sp * 2 ^ 13)
def eAtom (op : Nat) (gd : Guard) (tk d : Nat) (m : AtOpnd) (va : VReg) (o : AOp) (z : ASz) (s : AtSem) (low : Nat) : Nat :=
  eWord op gd tk
    (d * 2 ^ 38 + m.code + va.val * 2 ^ 15 + o.code * 2 ^ 11 + z.code * 2 ^ 9 + s.sem * 2 ^ 7 + s.scp * 2 ^ 4 + low)
def eLay (op : Nat) (gd : Guard) (tk : Nat) (d : VReg) (o : LayOpnd) (te : Bool) : Nat :=
  eWord op gd tk (d.val * 2 ^ 38 + o.l.val * 2 ^ 30 + o.gc.val * 2 ^ 24 + o.nc.val * 2 ^ 22 + o.nr.val * 2 ^ 19 +
    b2n te * 2 ^ 18 + b2n o.row * 2 ^ 17)
def eMma (op : Nat) (gd : Guard) (tk : Tok) (acc : Fin 64) (la : Fin 256) (gca : GReg) (lb : Fin 256) (gcb gf gk : GReg) :
    Nat :=
  eWord op gd tk.val (acc.val * 2 ^ 40 + la.val * 2 ^ 32 + gca.val * 2 ^ 26 + lb.val * 2 ^ 18 + gcb.val * 2 ^ 12 +
    gf.val * 2 ^ 6 + gk.val)
def eAccMem (op : Nat) (gd : Guard) (tk : Tok) (acc : Fin 64) (l : Fin 256) (gc : GReg) (tt : TileTy) : Nat :=
  eWord op gd tk.val (acc.val * 2 ^ 40 + l.val * 2 ^ 32 + gc.val * 2 ^ 26 + tt.code * 2 ^ 24)
def eAccmv (gd : Guard) (tk : Tok) (acc x gr mode : Nat) (clr : Bool) : Nat :=
  eWord 0xE5 gd tk.val (acc * 2 ^ 40 + x * 2 ^ 32 + gr * 2 ^ 26 + mode * 2 ^ 24 + b2n clr * 2 ^ 23)
def eBar (op : Nat) (gd : Guard) (b : Fin 16) (d a : Nat) : Nat :=
  eWord op gd 0 (d * 2 ^ 38 + a * 2 ^ 30 + b.val * 2 ^ 26)
def eProm (op : Nat) (gd : Guard) (tk : Tok) (d ga gv scp : Nat) (free : Bool) : Nat :=
  eWord op gd tk.val (d * 2 ^ 38 + ga * 2 ^ 32 + gv * 2 ^ 26 + scp * 2 ^ 23 + b2n free * 2 ^ 22)
def eRing (op : Nat) (gd : Guard) (d ga : Nat) (rg : Fin 8) (q : QSel) (init : Bool) : Nat :=
  eWord op gd 0 (d * 2 ^ 38 + ga * 2 ^ 32 + rg.val * 2 ^ 29 + q.code * 2 ^ 27 + b2n init * 2 ^ 26)
def eNet (op : Nat) (gd : Guard) (tk : Tok) (gx : GReg) : Nat := eWord op gd tk.val (gx.val * 2 ^ 40)

/-- OP7, A and X of a half (R84, R90). -/
def Half.code : Half → Nat × Nat × Nat
  | .mov _ a => (0, a.val, 0) | .add _ a => (1, a.val, 0) | .sub _ a => (2, a.val, 0) | .and _ a => (3, a.val, 0)
  | .or _ a => (4, a.val, 0) | .xor _ a => (5, a.val, 0) | .shl _ a => (6, a.val, 0) | .shr _ a => (7, a.val, 0)
  | .sar _ a => (8, a.val, 0) | .min _ a => (9, a.val, 0) | .max _ a => (10, a.val, 0) | .fadd _ a => (11, a.val, 0)
  | .fmul _ a => (12, a.val, 0) | .fmin _ a => (13, a.val, 0) | .fmax _ a => (14, a.val, 0) | .hadd2 _ a => (15, a.val, 0)
  | .hmul2 _ a => (16, a.val, 0)
  | .addi _ x => (17, 0, x.toNat) | .shli _ n => (18, 0, n.toNat) | .shri _ n => (19, 0, n.toNat)
  | .andi _ x => (20, 0, x.toNat) | .movi _ x => (21, 0, x.toNat)

/-- The 31 bits of a half (R84). -/
def Half.word (h : Half) : Nat := h.code.1 * 2 ^ 24 + h.dst.val * 2 ^ 16 + h.code.2.1 * 2 ^ 8 + h.code.2.2

/-- A word of form P (R84). -/
def pWord (h0 h1 : Half) : Nat := 2 ^ 62 + h0.word * 2 ^ 31 + h1.word

def PrfLevel.bits : PrfLevel → Nat | .l1 => 0 | .home => 1
/-- SZ codes of `acp` (R258). -/
def ASz.acpCode : ASz → Nat | .b32 => 4 | .b64 => 5 | .b128 => 6

/-- The word of an instruction; the device's other steps have none, and give 0, which no instruction has (R92). -/
def encode : Instr → Nat
  | .add gd t sat d a b => fDAB 0x00 gd t.code d a b (b2n sat)
  | .sub gd t sat d a b => fDAB 0x01 gd t.code d a b (b2n sat)
  | .mul gd t d a b => fDAB 0x02 gd t.code d a b 0
  | .mulh gd t d a b => fDAB 0x03 gd t.code d a b 0
  | .mad gd t d a b c => fDABC 0x04 gd t.code d a b c 0
  | .madw gd t d a b c => fDABC 0x05 gd t.code d a b c 0
  | .min gd t d a b => fDAB 0x06 gd t.code d a b 0
  | .max gd t d a b => fDAB 0x07 gd t.code d a b 0
  | .abs gd t sat d a => fDA 0x08 gd t.code d a (b2n sat)
  | .neg gd t sat d a => fDA 0x09 gd t.code d a (b2n sat)
  | .and gd t d a b => fDAB 0x0A gd t.code d a b 0
  | .or gd t d a b => fDAB 0x0B gd t.code d a b 0
  | .xor gd t d a b => fDAB 0x0C gd t.code d a b 0
  | .andn gd t d a b => fDAB 0x0D gd t.code d a b 0
  | .not gd t d a => fDA 0x0E gd t.code d a 0
  | .shl gd t d a b => fDAB 0x0F gd t.code d a b 0
  | .shr gd t d a b => fDAB 0x10 gd t.code d a b 0
  | .sar gd t d a b => fDAB 0x11 gd t.code d a b 0
  | .rot gd t d a b => fDAB 0x12 gd t.code d a b 0
  | .bfe gd t d a b => fDAB 0x13 gd t.code d a b 0
  | .bfi gd t d a b c => fDABC 0x14 gd t.code d a b c 0
  | .pop gd t d a => fDA 0x15 gd t.code d a 0
  | .clz gd t d a => fDA 0x16 gd t.code d a 0
  | .brev gd t d a => fDA 0x17 gd t.code d a 0
  | .sel gd t d a b p inv => fDAB 0x18 gd t.code d a b (p.val + b2n inv * 8)
  | .mov gd t d a => fDA 0x19 gd t.code d a 0
  | .cmp gd t cc d a b => fWord 0x1A gd 0 d.val a.num b.num 0 t.code a.isG b.isG cc.code
  | .plog gd d a b c tt => fWord 0x1B gd 0 d.val a.val b.val c.val 0 false false tt.toNat
  | .lea gd t d a b sh => fDAB 0x1C gd t.code d a b sh.val
  | .shfl gd t m wl d a b c => fWord 0x1D gd 0 d.val a.val b.num c.val t.code false b.isG (m.code + wl.val * 4)
  | .vote gd (.pred m d) a c =>
      fWord 0x1E gd 0 d.val a.val 0 c.val 12 false false (match m with | .all => 0 | .any => 1 | .odd => 2 | .same => 3)
  | .vote gd (.reg m d) a c =>
      fWord 0x1E gd d.dg d.num a.val 0 c.val 12 false false (match m with | .mask => 4 | .count => 5 | .first => 6)
  | .redl gd op scan d a c => fWord 0x1F gd d.dg d.num a.num 0 c.val op.ty a.isG false (op.op + b2n scan * 8)
  | .addi gd d a imm => iDA 0x20 gd d a imm.toNat
  | .andi gd d a imm => iDA 0x21 gd d a imm.toNat
  | .ori gd d a imm => iDA 0x22 gd d a imm.toNat
  | .xori gd d a imm => iDA 0x23 gd d a imm.toNat
  | .movi gd d imm => iWord 0x24 gd d.dg d.num 0 imm.toNat
  | .cmpi gd cc uns d a imm =>
      iWord 0x25 gd (b2n a.isG * 4) (d.val + cc.code * 8 + b2n uns * 64) a.num imm.toNat
  | .muli gd d a imm => iDA 0x26 gd d a imm.toNat
  | .leai gd d a off sh => iDA 0x27 gd d a (sh.val * 2 ^ 27 + off.toNat)
  | .fadd gd t rm d a b => fDAB 0x40 gd t.code d a b rm.code
  | .fsub gd t rm d a b => fDAB 0x41 gd t.code d a b rm.code
  | .fmul gd t rm d a b => fDAB 0x42 gd t.code d a b rm.code
  | .fma gd t rm d a b c => fDABC 0x43 gd t.code d a b c rm.code
  | .fmin gd t d a b => fDAB 0x44 gd t.code d a b 0
  | .fmax gd t d a b => fDAB 0x45 gd t.code d a b 0
  | .fcmp gd t cc d a b => fWord 0x46 gd 0 d.val a.num b.num 0 t.code a.isG b.isG cc.code
  | .frcp gd t rm tk d a => fTokDA 0x47 gd t.code rm tk d a
  | .frsq gd t rm tk d a => fTokDA 0x48 gd t.code rm tk d a
  | .fsqrt gd t rm tk d a => fTokDA 0x49 gd t.code rm tk d a
  | .fexp2 gd t rm tk d a => fTokDA 0x4A gd t.code rm tk d a
  | .flog2 gd t rm tk d a => fTokDA 0x4B gd t.code rm tk d a
  | .fsin gd t rm tk d a => fTokDA 0x4C gd t.code rm tk d a
  | .fcos gd t rm tk d a => fTokDA 0x4D gd t.code rm tk d a
  | .fdiv gd t rm tk d a b => fWord 0x4E gd tk.val d.val a.num b.num 0 t.code a.isG b.isG rm.code
  | .fcvt gd t s rm d a => fDA 0x4F gd t.code d a (rm.code + s.code * 8)
  | .icvt gd t s rm d a => fDA 0x50 gd t.code d a (rm.code + s.code * 8)
  | .ficvt gd t s rm d a => fDA 0x51 gd t.code d a (rm.code + s.code * 8)
  | .qcvt gd s f sat d a pos => fWord 0x52 gd 0 d.val a.num 0 pos.val s.code a.isG false (f.code + b2n sat * 32)
  | .qexp gd t (.narrow f) d a pos => fWord 0x53 gd d.dg d.num a.num 0 pos.val t.code a.isG false f.code
  | .qexp gd t .s10 d a pos => fWord 0x53 gd d.dg d.num a.num 0 pos.val t.code a.isG false 32
  | .fscl gd t rm d a b => fDAB 0x54 gd t.code d a b rm.code
  | .frnd gd t rm d a => fDA 0x55 gd t.code d a rm.code
  | .fclass gd s d a => fDA 0x56 gd s.code d a 0
  | .hadd2 gd t rm d a b => fDAB 0x57 gd t.code d a b rm.code
  | .hmul2 gd t rm d a b => fDAB 0x58 gd t.code d a b rm.code
  | .hfma2 gd t rm d a b c => fDABC 0x59 gd t.code d a b c rm.code
  | .hmin2 gd t d a b => fDAB 0x5A gd t.code d a b 0
  | .hmax2 gd t d a b => fDAB 0x5B gd t.code d a b 0
  | .fdot4 gd rm ae be d a b c => fDABC 0x5C gd 10 d a b c (rm.code + b2n ae * 8 + b2n be * 16)
  | .scvt gd f d a => fDA 0x5D gd 10 d a f.code
  | .fmovi gd d imm => iWord 0x60 gd d.dg d.num 0 imm.toNat
  | .faddi gd d a imm => iDA 0x61 gd d a imm.toNat
  | .fmuli gd d a imm => iDA 0x62 gd d a imm.toNat
  | .nop => fBare 0x80 .always 0
  | .dly n => fBare 0x81 .always n.val
  | .bra gd h off join => iWord 0x82 gd 0 h.code 0 (off.toNat * 2 ^ 12 + join.toNat)
  | .jmp gd a => fWord 0x83 gd 0 0 a.val 0 0 0 true false 0
  | .call gd d off m => iWord 0x84 gd 0 d.val 0 (off.toNat * 2 ^ 12 + m.toNat)
  | .callr gd d a m => fWord 0x85 gd 8 d.val a.val (m.toNat / 256) 0 0 true false (m.toNat % 256)
  | .ret gd a => fWord 0x86 gd 0 0 a.val 0 0 0 true false 0
  | .bsync c => fWord 0x87 .always 0 0 0 0 c.val 0 false false 0
  | .exit gd => fBare 0x88 gd 0
  | .region fin => fBare 0x89 .always (b2n fin)
  | .trap gd n => fBare 0x8A gd n.toNat
  | .rett => fBare 0x8B .always 0
  | .tmask gd n => fBare 0x8C gd (b2n n)
  | .csrr gd t d idx => fWord 0x8D gd d.dg d.num 0 0 0 t.code false false idx.toNat
  | .csrw gd t idx a => fWord 0x8E gd 0 0 a.num 0 0 t.code a.isG false idx.toNat
  | .yield => fBare 0x8F .always 0
  | .sysc gd tk d a na nr svc =>
      eWord 0x90 gd tk.val (d.val * 2 ^ 38 + a.val * 2 ^ 30 + na.val * 2 ^ 26 + nr.val * 2 ^ 22 + svc.toNat)
  | .brk gd n => fBare 0x91 gd n.toNat
  | .waitt gd tk n => fWord 0xA0 gd tk.val 0 0 0 0 0 false false n.val
  | .tkst gd tk clr d => fWord 0xA1 gd tk.val d.val 0 0 0 0 false false (b2n clr)
  | .barinit gd b => eBar 0xA2 gd b 0 0
  | .bararv gd b a => eBar 0xA3 gd b 0 a.val
  | .barxb gd b a => eBar 0xA4 gd b 0 a.val
  | .barwait gd b d tk =>
      eWord 0xA5 gd (tokNum tk) (d.val * 2 ^ 38 + b.val * 2 ^ 26 + b2n tk.isSome * 2 ^ 25)
  | .bartest gd b d => eBar 0xA6 gd b d.val 0
  | .barinv gd b => eBar 0xA7 gd b 0 0
  | .cntrd gd t d idx => fWord 0xA8 gd d.dg d.num 0 0 0 t.code false false idx.toNat
  | .cntctl gd a b k => fWord 0xA9 gd 0 0 a.val b.val 0 0 true true k.val
  | .genrd gd d => fWord 0xAA gd d.dg d.num 0 0 0 0 false false 0
  | .lyset gd n op a => fWord 0xB0 gd 0 n.val a.val 0 0 0 true false op.code
  | .lyget gd d n s => fWord 0xB1 gd 8 d.val n.val 0 0 0 false false s.code
  | .tplset gd n op a => fWord 0xB2 gd 0 n.val a.val 0 0 0 true false op.code
  | .tplget gd d n s => fWord 0xB3 gd 8 d.val n.val 0 0 0 false false s.code
  | .tlbinv gd (.page a b) sc => fWord 0xB4 gd 0 0 a.val b.val 0 0 true true (sc.code * 4)
  | .tlbinv gd (.space b) sc => fWord 0xB4 gd 0 0 0 b.val 0 0 false true (1 + sc.code * 4)
  | .tlbinv gd .all sc => fWord 0xB4 gd 0 0 0 0 0 0 false false (2 + sc.code * 4)
  | .fgset gd o a => fWord 0xB5 gd 0 0 a.val 0 0 0 true false (b2n o)
  | .hdlset gd a b => fWord 0xB6 gd 0 0 a.val b.val 0 0 true true 0
  | .ld gd tk d m z s => eLoad 0xC0 gd tk d m z s false
  | .st gd tk d m z s => eStore 0xC1 gd tk d m z s false
  | .lds gd tk d m z s sp => eLoad 0xC2 gd tk d m z s sp
  | .sts gd tk d m z s sp => eStore 0xC3 gd tk d m z s sp
  | .ldc gd tk d gb off z =>
      eWord 0xC4 gd tk.val (d.val * 2 ^ 38 + gb.val * 2 ^ 32 + z.code * 2 ^ 20 + off.toNat)
  | .prf gd lv m => eWord 0xC5 gd 0 (m.code + lv.code * 2 ^ 18)
  | .acp gd tk d m z bar =>
      eWord 0xC6 gd (tokNum tk) (d.val * 2 ^ 38 + m.code + z.acpCode * 2 ^ 20 + b2n bar.isSome * 2 ^ 19 +
        (match bar with | some b => b.val | none => 0) * 2 ^ 15 + b2n tk.isSome * 2 ^ 14)
  | .atom gd tk d m va op z s => eAtom 0xC7 gd tk.val d.val m va op z s 0
  | .red gd tk m va op z s => eAtom 0xC8 gd (tokNum tk) 0 m va op z s (b2n tk.isSome * 4)
  | .atoms gd tk d m va op z s sp => eAtom 0xC9 gd tk.val d.val m va op z s (b2n sp * 8)
  | .fence gd k sc => eWord 0xCA gd 0 (k.code * 2 ^ 18 + sc.code * 2 ^ 15)
  | .iflush gd gb gl => eWord 0xCB gd 0 (gb.val * 2 ^ 32 + gl.val * 2 ^ 26)
  | .isync gd => eWord 0xCC gd 0 0
  | .cwb gd tk gb gl inv => eWord 0xCD gd tk.val (gb.val * 2 ^ 32 + gl.val * 2 ^ 26 + b2n inv * 2 ^ 25)
  | .pinit gd tk ga free => eProm 0xCE gd tk 0 ga.val 0 0 free
  | .pfill gd tk ga gv sc => eProm 0xCF gd tk 0 ga.val gv.val sc.code false
  | .pwait gd tk d ga sc => eProm 0xD0 gd tk d.val ga.val 0 sc.code false
  | .pequ gd tk ga gv => eProm 0xD1 gd tk 0 ga.val gv.val 0 false
  | .ptest gd tk d ga sc => eProm 0xD2 gd tk d.val ga.val 0 sc.code false
  | .ldl gd tk d o => eLay 0xD3 gd tk.val d o false
  | .stl gd tk d o => eLay 0xD4 gd (tokNum tk) d o tk.isSome
  | .mma gd tk acc la gca lb gcb gf gk => eMma 0xE0 gd tk acc la gca lb gcb gf gk
  | .mmaz gd tk acc la gca lb gcb gf gk => eMma 0xE1 gd tk acc la gca lb gcb gf gk
  | .accz gd tk acc n => eWord 0xE2 gd tk.val (acc.val * 2 ^ 40 + n.val * 2 ^ 34)
  | .accld gd tk acc l gc tt => eAccMem 0xE3 gd tk acc l gc tt
  | .accst gd tk acc l gc tt => eAccMem 0xE4 gd tk acc l gc tt
  | .accmvGet gd tk acc x gr => eAccmv gd tk acc.val x.val gr.val 0 false
  | .accmvPut gd tk acc x gr => eAccmv gd tk acc.val x.val gr.val 1 false
  | .accmvStat gd tk acc x gr clr => eAccmv gd tk acc.val x.val gr.val 2 clr
  | .accmvCopy gd tk acc x gr => eAccmv gd tk acc.val x.val gr.val 3 false
  | .accsc gd tk acc gs i32 => eWord 0xE6 gd tk.val (acc.val * 2 ^ 40 + gs.val * 2 ^ 32 + b2n i32 * 2 ^ 24)
  | .mtest gd tk d => eWord 0xE7 gd tk.val (d.val * 2 ^ 38)
  | .rgacqInit gd rg ga => eRing 0xF0 gd 0 ga.val rg .none true
  | .rgacq gd d rg => eRing 0xF0 gd d.val 0 rg .none false
  | .rgcmt gd q rg ga => eRing 0xF1 gd 0 ga.val rg q false
  | .rgtake gd d rg => eRing 0xF2 gd d.val 0 rg .none false
  | .rgrel gd q rg ga => eRing 0xF3 gd 0 ga.val rg q false
  | .bcopy gd tk ct gs gt nc =>
      eWord 0xF4 gd tk.val (ct.val * 2 ^ 40 + gs.val * 2 ^ 34 + gt.val * 2 ^ 28 + nc.val * 2 ^ 26)
  | .qfence gd c m n => eWord 0xF5 gd 0 (b2n c * 2 ^ 43 + b2n m * 2 ^ 44 + b2n n * 2 ^ 45)
  | .amsg gd tk gx nb => eWord 0xF6 gd tk.val (gx.val * 2 ^ 40 + nb.toNat * 2 ^ 33)
  | .nsend gd tk gx => eNet 0xF7 gd tk gx
  | .nrecv gd tk gx => eNet 0xF8 gd tk gx
  | .fput gd tk gx => eNet 0xF9 gd tk gx
  | .fget gd tk gx => eNet 0xFA gd tk gx
  | .fcopy gd tk gx => eNet 0xFB gd tk gx
  | .fmrs gd tk gx => eNet 0xFC gd tk gx
  | .fmrl gd tk gx => eNet 0xFD gd tk gx
  | .nprobe gd tk gx => eNet 0xFE gd tk gx
  | i => match i.half0, i.half1 with
    | some h0, some h1 => pWord h0 h1
    | _, _ => 0

end Sys2Proof
end

