-- ==== Sys2Proof/Machine/Fetch.lean ====
section
/-!
DEFINITION. The fetch of a course's next word: alignment, the instruction cache, translation (08 R160, 11 R237, 19 R437).
-/
namespace Sys2Proof.Machine

/-- What a fetch comes to. -/
inductive Fetched where
  | word (w : W64)
  | trap (cause detail : Nat)
  /-- The word holds an uncorrectable error (R437). -/
  | poison
  /-- A replayable fault waits to be serviced (R160, R221). -/
  | wait
  deriving DecidableEq, Repr

/-- Words that a core's instruction cache holds: 64 KiB in blocks of 64 bytes (R237). -/
def icacheCap : Nat := 8192

/-- The word of `pc` in the core's instruction cache. -/
def State.cachedWord (s : State) (core space pc : Nat) : Option ICell :=
  s.icache.find? fun x => x.core == core && x.space == space && x.va == pc

/-- The eight words of the block around `pc`, which lies at system-physical `pa`. -/
def State.block (s : State) (core space pc pa : Nat) (host : Bool) : List ICell :=
  let b := s.bank host
  (List.range 8).map fun i =>
    let va := pc / 64 * 64 + 8 * i
    let a := pa / 64 * 64 + 8 * i
    ⟨core, space, va, a, BitVec.ofNat 64 (readNat b.m a 8), anyPsn b.psn a 8⟩

/-- A block joins a core's instruction cache; its oldest words leave one that is full. -/
def State.fillIcache (s : State) (core space pc : Nat) (cells : List ICell) : State :=
  let s := s.dropIcache core fun x => x.space == space && x.va / 64 == pc / 64
  let mine := s.icache.filter fun x => x.core == core
  let old := mine.take (mine.length + 8 - icacheCap)
  let s := s.dropIcache core old.contains
  { s with icache := s.icache ++ cells }

/-- What a word of the cache comes to. -/
def ICell.fetched (x : ICell) : Fetched := if x.psn then .poison else .word x.word

/-- The word as the course holds it already, or as the cache holds it: neither need still be there (R267, R268; log 2). -/
def State.heldWord (s : State) (t : Truss) (k : Course) : Option ICell :=
  match k.ahead.find? fun x => x.va == k.pc.toNat && Config.pick s.tick (2 ^ 24) 0 with
  | some x => some x
  | none =>
    match s.cachedWord t.core t.space k.pc.toNat with
    | some x => if Config.pick s.tick (2 ^ 24) 1 then some x else none
    | none => none

/-- The word comes from memory: translation, then a fill of its block (R160, R237). -/
def State.fetchMiss (s : State) (c : CRef) (t : Truss) (k : Course) : State × Fetched :=
  let pc := k.pc.toNat
  match s.reach (t.agent k 0) t.space pc ⟨false, true, !t.kernelMode⟩ with
  | (s, .failed cause d, _) => (s, .trap cause d)
  | (s, _, some pl) =>
    if pl.prm then (s, .trap 0x13 0xA3)
    else
      let cells := s.block t.core t.space pc pl.pa pl.host
      let s := if pl.host then s else s.touchLine t.space pl.pa false
      (s.fillIcache t.core t.space pc cells, ((cells[pc % 64 / 8]?).map ICell.fetched).getD .wait)
  | (s, ph, none) => (s.modCourse c fun k => { k with fetch := ph }, .wait)

/-- THE FETCH of the word at the course's pc. -/
def State.fetch (s : State) (c : CRef) (t : Truss) (k : Course) : State × Fetched :=
  match k.fetch with
  | .failed cause d =>
    (s.modCourse c fun k => { k with fetch := .untranslated }, if cause = 0x15 then .poison else .trap cause d)
  | .wait1 _ | .wait2 _ | .paging _ => (s, .wait)
  | _ =>
    if k.pc.toNat % 8 ≠ 0 then (s, .trap 0x02 0)
    else
      match s.heldWord t k with
      | some x => (s.modCourse c fun k => { k with ahead := k.ahead.filter fun y => y.va != x.va }, x.fetched)
      | none => s.fetchMiss c t k

/-- A word that is no instruction raises what R92 gives: step 1 at once; step 4 after the checks of steps 2 and 3. -/
def rejectCause (r : Reject) (t : Truss) (k : Course) : Nat :=
  match r with
  | .unassigned => 0x01
  | .reserved cls kernel =>
    if !roleAllows k.role cls then 0x03 else if kernel && !t.kernelMode then 0x17 else 0x01

end Sys2Proof.Machine
end

