-- ==== Sys2Proof/Machine/Agenda.lean ====
section
/-!
DEFINITION. What the device does next: the issue of a course's word, the arbiters, and the steps of its own that are possible (02 R38,
R39, R42; 08 R164, R169; log 1).
-/
namespace Sys2Proof.Machine

/-! ### The issue of a course's next word -/

/-- The next state of an outcome; a step that stops leaves the state. -/
def stateOf (o : Out) (s : State) : State := match o with | .next s' => s' | _ => s

/-- An asynchronous trap, or a rollback, comes before the next word (R169). -/
def Course.interrupted (k : Course) : Bool := k.asyncOpen && (k.debugPend || k.rollbackPend || !k.ovfPend.isEmpty)

/-- The merge loop ends without a lane while a `bsync` is pending: the lanes that have exited count as arrived; lanes still missing make
it MASKDIS at the `bsync` (R164). -/
def bsyncAlone (s : State) (c : CRef) (k : Course) (b : Bsync) : State :=
  let need := b.mask &&& ~~~ k.exited
  if b.arrived = need then
    (s.setCourse c { k with lanes := need, bsync := none, pc := b.pc + 8 })
  else
    trapEntry (s.setCourse c { k with lanes := b.arrived, bsync := none, pc := b.pc }) c 0x05 (lowestLane (need &&& ~~~ b.arrived)) 0 false

/-- THE NEXT WORD of course `c`, which stands at its pc after the merge loop: it is fetched, checked and run, or it faults (R92,
R160). -/
def runWord (s : State) (c : CRef) (t : Truss) (k : Course) : Out :=
  match s.fetch c t k with
  | (s, .word w) =>
    match decodeWord w.toNat with
    | .ok i => exec i { s with cur := c }
    | .error r => .next (trapEntry s c (rejectCause r t k) 0 0 false)
  | (s, .trap cause d) => .next (trapEntry s c cause d (k.pc.zeroExtend 64) false)
  | (s, .poison) => .next (s.killCourse c (s.courseCause c 0x15 3 (k.pc.zeroExtend 64) (k.pc.zeroExtend 64)))
  | (s, .wait) => .next s

/-- What a course does when the arbiter picks it: the merge loop runs; then a trap or a rollback that is pending, else its next word. The
MASKDIS of a `bsync` record left alone comes before an asynchronous trap that is pending (DESIGN CHOICE, log 90: R164 and R169 give no
order). -/
def runCourse (s : State) (c : CRef) : Out :=
  match s.truss? c.truss, s.course? c with
  | some t, some k =>
    let k := k.merge
    let s := s.setCourse c k
    match k.lanes == 0, k.bsync with
    | true, some b => .next (bsyncAlone s c k b)
    | true, none => .next s
    | false, _ =>
      if k.interrupted then .next (if k.debugPend || !k.rollbackPend then asyncTrap s c else rollback s c) else runWord s c t k
  | _, _ => .next s

/-! ### The arbiters (R38, R39) -/

/-- The word of a course would issue or fault now: nothing holds it back (R38). -/
def State.wordReady (s : State) (c : CRef) (t : Truss) (k : Course) : Bool :=
  match s.fetch c t k with
  | (s, .word w) =>
    match decodeWord w.toNat with
    | .ok i =>
      match ({ s with cur := c } : State).ctx? with
      | some x => (x.rejects i).isSome || !x.stalls i
      | none => false
    | .error _ => true
  | _ => true

/-- A rollback that is under way can go a step on (R443). -/
def State.rollsOn (s : State) (c : CRef) (t : Truss) (k : Course) : Bool :=
  match k.quarantine with
  | h :: _ => k.regionAt < h.at_ || !s.releaseWaits c h
  | [] => k.ops.all (s.opStuck c t)

/-- A course is eligible (R38); under STRICT it issues at most once every 2 cycles (R183). -/
def State.eligible (s : State) (c : CRef) : Bool :=
  match s.truss? c.truss, s.course? c with
  | some t, some k =>
    s.runs t && k.cstate == .resident && k.hold.over s.clk && !k.fetch.waits && (!k.strict || k.lastIssue + 2 ≤ s.clk) &&
    (let k := k.merge
     let s := s.setCourse c k
     if k.lanes = 0 then k.bsync.isSome
     else if k.interrupted then k.debugPend || !k.rollbackPend || !k.rgV || s.rollsOn c t k
     else s.wordReady c t k)
  | _, _ => false

/-- The courses of the device. -/
def State.allCourses (s : State) : List CRef :=
  ((List.range s.trusses.length).map fun n => match s.truss? n with
    | some t => (List.range t.courses.length).map fun j => (⟨n, j⟩ : CRef)
    | none => []).flatten

/-- A course that an arbiter may pick: its quadrant, its level, its last issue, and its slot. -/
structure Bid where
  c     : CRef
  quad  : Nat
  level : Nat
  last  : Nat
  slot  : Nat
  deriving DecidableEq, Repr

/-- The bid of an eligible course. -/
def State.bid (s : State) (c : CRef) : Option Bid :=
  if s.eligible c then
    match s.truss? c.truss, s.course? c with
    | some t, some k => some ⟨c, 4 * t.core + k.slot / 16, s.level t k, k.lastIssue, k.slot⟩
    | _, _ => none
  else none

/-- The higher level wins, then the issue furthest back, then the lower slot (R39). -/
def Bid.beats (a b : Bid) : Bool :=
  a.level < b.level || (a.level == b.level && (a.last < b.last || (a.last == b.last && a.slot < b.slot)))

/-- The courses that the quadrant arbiters pick. -/
def State.picks (s : State) : List CRef :=
  let bids := (s.allCourses.filterMap s.bid).filter fun b => !s.quadSpent b.quad
  (bids.filter fun b => !bids.any fun a => a.quad == b.quad && a.beats b).map (·.c)

/-! ### The device's own steps -/

/-- A step of the device's own, by its meaning. -/
abbrev OwnStep := State → Out

/-- Steps of one course. -/
def courseSteps (c : CRef) : List OwnStep :=
  (List.finRange 16).map (execTokenCompletion c) ++
  [execCourseRetire c, execQuarantineRelease c, execCourseUnpark c, execDlyExpiry c, execYieldExpiry c, execRegionGuardWaitExpiry c]

/-- Steps of one truss. -/
def trussSteps (n : Nat) : List OwnStep :=
  [execRingEntryEffect n .copy, execRingEntryEffect n .mat, execRingEntryEffect n .net, execNetworkEntryStart n, execFullEviction n,
   execTrussRestore n]

/-- Steps of one core: its engines do as many rows or elements as they please. -/
def State.coreSteps (s : State) (core : Nat) : List OwnStep :=
  let n := Config.nextStep (s.tick + core) % 64
  [execMatrixEntryStart core n, execMatrixEntryComplete core, execSelfTestProduct core 0, execCopyEntryExecute core n,
   execAmsgArrival core, execHandlerSpawn core, execCoreRetire core] ++
  match (s.core core).parking with
  | some (v, need) => [execPartialEviction core v need]
  | none => []

/-- Steps of the home slices. -/
def State.homeSteps (s : State) : List OwnStep :=
  (s.accesses.map fun a => ((List.range a.parts.length).map fun i =>
    [Serve.home, .homeNoFill, .l1].map fun v => execHomeSliceAccess a.id i v).flatten).flatten ++
  (s.proms.map fun p => [execHomeSliceAccess p.id 0 .home, execHomeSliceAccess p.id 1 .home, execPwaitRepeat p.id]).flatten

/-- Steps of one virtual device. -/
def State.vdSteps (s : State) (v : Fin 512) : List OwnStep :=
  [execStage1FaultRecord v, execStage2FaultEvent v, execMeterAccumulate v] ++
  (s.phasesOf v).filterMap fun p => match p with | .paging gpa => some (execPageIn v gpa) | _ => none

/-- The timers of one link. -/
def linkSteps (l : Fin 16) : List OwnStep :=
  [execAckTimer l, execResendTimeout l, execResendLimit l, execTrainingPhaseTimeout l, execLinkRetryTimer l, execQuiesceTimeout l]

/-- Steps of one queue. -/
def queueSteps (b : Nat) : List OwnStep :=
  [execPacketFetch b, execPacketNop b, execPacketLaunch b, execPacketWaitPromise b, execPacketWaitMemory b, execWaitPoll b,
   execPacketSignalFill b, execPacketSignalStore b, execPacketSignalInterrupt b, execPacketCond b, execPacketCopy b, execPacketFence b,
   execPacketRetire b, execRetireReport b]

/-- The service of a transfer that has come. -/
def transferService (x : Transfer) : OwnStep :=
  match x.kind with
  | .put => execPut x | .getReq => execGetreq x | .getData => execGetdata x | .msg => execMsg x | .contrib => execContrib x
  | .lReq => execLreq x | .lData => execLdata x | .done => execDone x | .absent => execAbsent x

/-- The steps that the device may take of itself, due or not. -/
def State.ownSteps (s : State) : List OwnStep :=
  (s.allCourses.map courseSteps).flatten ++ ((List.range s.trusses.length).map trussSteps).flatten ++
  ((List.range 192).map s.coreSteps).flatten ++ s.homeSteps ++
  ((List.finRange 512).map fun (v : Fin 512) => if (s.vdev? v).isSome then s.vdSteps v else []).flatten ++
  (s.qcbs.map fun e => queueSteps e.1).flatten ++
  ((List.finRange 8).map fun q => (List.finRange 32).map (execFallbackVisit q)).flatten ++
  ((List.finRange 16).map linkSteps).flatten ++ (s.inbound.map fun i => transferService i.x) ++
  (List.range s.launches.length).map execLaunchComplete ++ (List.finRange 32).map execSliceBoundary ++
  allEngines.map execKillDrain ++ (allEngines.map fun e => [execDrainTimeout ⟨e, false⟩, execDrainTimeout ⟨e, true⟩]).flatten ++ (List.finRange 16).map execColumnRetire ++
  (match s.folds with | f :: _ => (if f.left.isEmpty then [0] else f.left).map execLineHandover | [] => []) ++
  [execLaunchAdmission, execKillDump, execKillRelease, execQueueSchedulerPass, fun s => .next (attestStep s)]

/-- A step that is due: it changes the state. -/
def State.due (s : State) (f : OwnStep) : Bool := match f s with | .next s' => s' != s | _ => false

/-- A step that is due now: no clock must run on to it. -/
def State.dueNow (s : State) (f : OwnStep) : Bool := match f s with | .next s' => s' != s && s'.clk == s.clk | _ => false

/-- What may come next: a course that an arbiter picks, or a step of the device's own. -/
def State.moves (s : State) : List OwnStep := (s.picks.map fun c s => runCourse s c) ++ s.ownSteps.filter s.dueNow

/-- One of a list: the choice is a free value (log 1). -/
def chosen {α : Type} (tick : Nat) (xs : List α) : Option α :=
  match xs with
  | [x] => some x
  | xs => xs[Config.nextStep tick % xs.length]?

/-- Nothing is due now: time runs on to the end of a wait. -/
def State.runOn (s : State) : Out :=
  match chosen s.tick (s.ownSteps.filter s.due) with
  | some f => f s
  | none => .next (s.advanceTo (s.clk + 1))

/-! ### Steps -/

/-- The sensors read what they read, and issue is withheld while they show an excess; TJMAX holds the highest temperature since the host
read it, which it may have done before this step (R452, R454; log 77). -/
def State.sense (s : State) : State :=
  let t := Config.sensorWord s.tick 1
  let top := if Config.pick s.tick (2 ^ 25 + 1) 0 then t else if s.tjmax.toNat < t.toNat then t else s.tjmax
  let s : State := { s with pwrnow := Config.sensorWord s.tick 0, junction := t, tjmax := top }
  { s with throttled := s.power == .ready && s.overLimit }

/-- The step is over: some cycles have passed, and the sensors have read (log 10). -/
def passTime (o : Out) : Out :=
  match o with
  | .next s => .next { (s.advanceTo (s.clk + Config.extraCycles s.tick)).sense with tick := s.tick + 1 }
  | o => o

/-- A happening that the device answers before READY and after a failure (R451, R455). -/
def answersDown : Instr → Bool
  | .powerOn _ | .bootctlRetry _ | .bootctlAttest | .pwrlimWrite _ | .registerWrite .. | .modulePowerOff | .thermalTrip => true
  | _ => false

/-- A happening of the agenda: a word comes only by a fetch; what a device that is not READY does not answer is lost (R451). -/
def State.happen (s : State) (i : Instr) : Out :=
  if i.isWord || (s.power != .ready && !answersDown i) then .next s else exec i s

/-- One issue: a course that an arbiter picks; while issue is withheld, perhaps none (R454). -/
def State.issueOne (s : State) : Out :=
  match chosen s.tick s.picks with
  | some c => if s.withholds then .next s else runCourse s c
  | none => .next s

/-- A step of a device left to itself: it brings itself up, or takes one of the moves that are possible (log 1, log 5). -/
def State.alone (s : State) : Out :=
  match s.power with
  | .off => execPowerOn .good s
  | .booting => .next (bootAdvance s)
  | .failed => .next s
  | .ready => if s.withholds then .next s else match chosen s.tick s.moves with | some f => f s | none => s.runOn

/-- What the agenda says comes next, or what the device does when it says nothing (log 1). -/
def happening (s : State) : Out :=
  match s.agenda with
  | [] => s.alone
  | none :: rest => if s.power = .ready then ({ s with agenda := rest } : State).issueOne else .next { s with agenda := rest }
  | some i :: rest => ({ s with agenda := rest } : State).happen i

end Sys2Proof.Machine
end

