-- ==== Sys2Proof/Machine/Place.lean ====
section
/-!
DEFINITION. A device on which one course stands before one given word (log 5): what a launch from the host would have set up.
-/
namespace Sys2Proof.Machine

/-- Where the word lies, as a virtual and a system-physical address, and where the course's handler lies. -/
def placedPc : Nat := 0x1000
def placedHandler : Nat := 0x2000

/-- The items of the launch: one truss of one course of role 0, which allows every class; all registers, all tiles. -/
def placedItems : LaunchItems :=
  { kernel := BitVec.ofNat 64 placedPc, handler := BitVec.ofNat 64 placedHandler, tblBase := 0, tblCnt := 0,
    part := BitVec.ofNat 64 (8 + 4 * 2 ^ 8 + 16 * 2 ^ 16 + 64 * 2 ^ 24 + 16 * 2 ^ 40), gx := 1, gy := 1, gz := 1, courses := 1,
    span := 1, regs := 256, progress := 1, strict := false, guarded := false, tkmask := 0xFFFF, roles := 0, arg := 0, g5 := 0,
    g6 := 0, g7 := 0, statusAddr := 0 }

/-- A virtual device that holds cluster 0. -/
def placedDevice : VDev :=
  { v := true, mode := 0, weight := 1, s1root := 0, s2root := 0, gen := 0, hqs := 0, ctxBase := 0, dumpBase := 0, fep := 0, nfep := 0,
    ctxSize := 0, dumpSlots := 0, set := 0, pass := 0, runnable := true, meters := Vector.replicate 10 0,
    shares := Vector.replicate 10 0, modeBefore := 0, kdone := false, dumpNext := 0, dumpFreed := 0, dumpTrunc := false, dumps := 0,
    chainSlots := [], fltbase := 0, flttail := 0, flthead := 0, vecs := 0, msix := [], recvs := [], umsgs := [], grant := 1,
    excl := false, genRaises := 0, moveTo := none }

/-- The word is a kernel-mode instruction. -/
def wordKernel (w : Nat) : Bool :=
  match decodeWord w with | .ok i => i.kernelMode | .error (.reserved _ k) => k | .error .unassigned => false

/-- The translation of the page the word lies in, in the core's TLB. -/
def placedTlb (core space : Nat) (gen : BitVec 16) : TlbEntry :=
  { first := true, unit := core, space := space, va := placedPc, size := 4096, pa := placedPc, w := false, x := true, u := true, atom := 0,
    cm := false, prm := false, host := false, gen := gen }

/-- The truss on core 0. -/
def State.placedTruss (s : State) : Truss :=
  s.freshTruss 0 ⟨0, s.launches.length, placedItems, false, 0, 0, s.nextId, fun j => placedItems.start 0 j 0⟩

/-- A die's service truss, whose courses wait for a page of their firmware; one that is to run a word has its first course before it. -/
def State.placedService (s : State) (die : Nat) (run : Bool) : Truss :=
  let t := serviceTruss die (95 + 96 * die) (s.nextId + die) s.clk
  { t with courses := (List.range 4).zipWith (fun j k =>
      if run && j == 0 then { k with pc := BitVec.ofNat 57 placedPc } else { k with fetch := .wait1 0 }) t.courses }

/-- The device READY, with nothing on its cores but its service trusses and one course that stands before the word: a launched truss on core
0 for a word of user mode, a course of the service truss on core 95 for one of kernel mode; and its next step an issue. -/
def State.placed (s : State) (w : Nat) : State :=
  let s := if s.power = .ready then s else s.ready .good
  let kernel := wordKernel w
  let s : State := { s with
    agenda := [none], throttled := false, clk := Nat.max s.clk 16, ioClk := Nat.max s.ioClk (Nat.max s.clk 16 * 2 / 3),
    mem := writeNat s.mem placedPc 8 w, memPsn := psnWrite s.memPsn placedPc 8 false, icache := [],
    vds := tput s.vds 0 placedDevice,
    sets := vput s.sets 0 ⟨true, 1, 0, some 0, none, s.ioClk⟩,
    trusses := s.trusses.map fun t => { t with place := .gone }, svcCore := #v[95, 191] }
  let s : State := { s with
    trusses := s.trusses ++ [s.placedService 0 kernel, s.placedService 1 false], nextId := s.nextId + 2 }
  let space := if kernel then pfSpace else 0
  let s : State := { s with
    tlbs := placedTlb (if kernel then 95 else 0) space (s.gen space) :: s.tlbs.filter fun e => !(e.space == space) }
  if kernel then s
  else
    { (s.modCore 0 fun c => { c with part := some placedItems.part }) with
      launches := s.launches ++ [⟨0, 0, 0, placedItems, 1, 0, false, .untranslated⟩],
      trusses := s.trusses ++ [s.placedTruss], nextId := s.nextId + 1 }

end Sys2Proof.Machine
end

