-- ==== Sys2Proof/Machine/Step.lean ====
section
/-!
DEFINITION. One step of the device.
-/
namespace Sys2Proof.Machine

/-- ONE STEP: the happening that comes next, and the cycles that pass with it. -/
def step (s : State) : Host.Outcome State Fault Refusal := passTime (happening s)

/-- The state with one word placed where the next step fetches (log 5). -/
def State.withFetchWord (s : State) (nbits w : Nat) : State := s.placed (w % 2 ^ nbits % 2 ^ 64)

end Sys2Proof.Machine
end

