-- ==== Sys2Proof/Safety.lean ====
section
/-!
DEFINITION. The terms in which statements speak of a step: when a word issues, what it may leave changed beside its own effect, and how
its results lie in the registers.
-/
namespace Sys2Proof.Machine

/-! ### Runs -/

/-- A step that neither stops with a fault nor is refused. -/
def Safe (s : State) : Prop := ∃ s', step s = .next s'

/-- The memories of the device and of the host are in their canonical form: addresses rise, and no entry is what an unlisted byte reads as
(the model's own form of a memory: log 3). -/
def MemoryForm (s : State) : Prop := Memory.wf s.mem = true ∧ Memory.wf s.hostMem = true

/-! ### When a word issues -/

/-- The word `i` of the course the state has picked issues: the course is resident on a core; no check of R92 rejects the word, nothing
holds it back (R38), no late fault (R255), strict fault (R99, R183) or uncorrectable error (R437) takes its place. -/
def Issues (s : State) (x : Ctx) (i : Instr) : Prop :=
  s.ctx? = some x ∧ x.rejects i = none ∧ x.stalls i = false ∧ (deliversLate i = true → x.k.late = []) ∧
  x.k.strictFault i = none ∧ x.readsPoison i = false

/-! ### What every word changes beside its effect -/

/-- A device without what its meters have still to take in. -/
def VDev.noShares (d : VDev) : VDev := { d with shares := Vector.replicate 10 0 }
/-- A core without the values of its event counters. -/
def Core.noCounts (c : Core) : Core := { c with ec := c.ec.map fun e => { e with value := 0 } }
/-- A truss without the counter overflows that its courses have pending. -/
def Truss.noPend (t : Truss) : Truss := { t with courses := t.courses.map fun k => { k with ovfPend := [] } }

/-- A state without its devices, event counts, pending overflows and `tick`. -/
def State.hush (s : State) : State :=
  { s with vds := [], tick := 0, cores := s.cores.map Core.noCounts, trusses := s.trusses.map Truss.noPend }

/-- The states differ at most in what the meters take in, in the event counts and the overflows they leave pending, and in the model's
own `tick`: what every word counts (R198, R199). Memory, tables and every register of every course are the same. -/
def Quiet (s t : State) : Prop := t.hush = s.hush ∧ ∀ v, (t.vdev? v).map VDev.noShares = (s.vdev? v).map VDev.noShares

/-- The course after it has issued a word that adds `n` to its position and goes on at `pc` (R95). -/
def Course.after (k : Course) (clk core n : Nat) (pc : Addr) : Course := { k.moved clk core n with pc := pc }

/-- The word is done and has changed nothing but its course, which was `k'` before it moved on by `n` to `pc`. -/
def Done (x : Ctx) (t : State) (k' : Course) (n : Nat) (pc : Addr) : Prop :=
  Quiet (x.s.setCourse x.c (k'.after x.s.clk x.t.core n pc)) t

/-! ### Results in registers -/

/-- A token operation without the list of words that have written its destination since (R124). -/
def TokOp.noClash (o : TokOp) : TokOp := { o with clash := [] }

/-- The courses agree in everything but their registers, what is still to become visible of them, and errors in v registers. -/
def SameButRegs (k k' : Course) : Prop :=
  k'.ops.map TokOp.noClash = k.ops.map TokOp.noClash ∧
  { k' with v := k.v, g := k.g, p := k.p, shadows := k.shadows, flagShadows := k.flagShadows, ops := k.ops, psn := k.psn } = k

/-- A lane of register `name` (v from 0, g from 256, p from 320) lies in the shadow of an earlier result (R95). -/
def Course.inShadow (k : Course) (name lane : Nat) : Prop :=
  ∃ sh ∈ k.shadows, sh.old.name = name ∧ (sh.old.lanes.getLsbD lane = true ∨ 256 ≤ name ∧ name < 320)

/-- Register vN holds `y` in a lane, or its earlier value where it lies in the shadow of an earlier result (R96). -/
def LandsV (k k' : Course) (n lane : Nat) (y : W32) : Prop :=
  k'.vget n lane = y ∨ (k.inShadow n lane ∧ k'.vget n lane = k.vget n lane)

/-- Register gN holds `y`, or its earlier value where it lies in the shadow of an earlier result (R96). -/
def LandsG (k k' : Course) (n : Nat) (y : W64) : Prop :=
  k'.gget n = y ∨ (k.inShadow (256 + n) 0 ∧ k'.gget n = k.gget n)

/-- Predicate pN holds `y` in a lane, or its earlier value where it lies in the shadow of an earlier result (R96). -/
def LandsP (k k' : Course) (n lane : Nat) (y : Bool) : Prop :=
  (k'.pget n).getLsbD lane = y ∨ (k.inShadow (320 + n) lane ∧ (k'.pget n).getLsbD lane = (k.pget n).getLsbD lane)

/-- No v register, g register or predicate differs, but v registers from `n` on to `n + r`, in lanes of `ex`. -/
def KeepsV (k k' : Course) (n r : Nat) (ex : LaneMask) : Prop :=
  (∀ m l, ¬ (n ≤ m ∧ m < n + r ∧ ex.getLsbD l = true) → k'.vget m l = k.vget m l) ∧ k'.g = k.g ∧ k'.p = k.p
/-- No register differs but gN. -/
def KeepsG (k k' : Course) (n : Nat) : Prop := k'.v = k.v ∧ (∀ m, m ≠ n → k'.gget m = k.gget m) ∧ k'.p = k.p
/-- No register differs but pN, in lanes of `ex`. -/
def KeepsP (k k' : Course) (n : Nat) (ex : LaneMask) : Prop :=
  k'.v = k.v ∧ k'.g = k.g ∧ ∀ m l, ¬ (m = n ∧ ex.getLsbD l = true) → (k'.pget m).getLsbD l = (k.pget m).getLsbD l

/-- The results `f` of a word with destination `d` of `regs` 32-bit registers have landed: in the executing lanes of a v register or
pair; once, from the lowest executing lane, in a g register; in no other register and lane (R41, R86, R122). -/
def Lands (k k' : Course) (regs : Nat) (d : Reg) (ex : LaneMask) (f : Nat → W64) : Prop :=
  match d with
  | .v n =>
    KeepsV k k' n regs ex ∧
    ∀ l, ex.getLsbD l = true →
      LandsV k k' n l ((f l).truncate 32) ∧ (regs = 2 → LandsV k k' (n + 1) l ((f l >>> 32).truncate 32))
  | .g n => KeepsG k k' n ∧ if ex = 0 then k'.g = k.g else LandsG k k' n (f (lowestLane ex))

/-- A word with results alone is done: its results have landed, the course has moved to the next word, and nothing else has changed. -/
def Completes (x : Ctx) (t : State) (regs : Nat) (d : Reg) (ex : LaneMask) (f : Nat → W64) : Prop :=
  ∃ k', SameButRegs x.k k' ∧ k'.flagShadows = x.k.flagShadows ∧ Lands x.k k' regs d ex f ∧ Done x t k' 1 (x.k.pc + 8)

/-! ### The words of 06 with a register result -/

/-- A word with a register result: its guard, the 32-bit registers of its result, its destination, and the result in a lane of the course
as the word reads it. -/
structure RegWord where
  gd   : Guard
  regs : Nat
  d    : Reg
  val  : Course → Nat → W64

/-- The low `w` bits of a word. -/
def lowBits (w : Nat) (x : W64) : W64 := BitVec.ofNat 64 (x.toNat % 2 ^ w)

/-- A source of an I-form word at 64 bits: a v source is sign-extended (R104, R132). -/
def Course.wide (k : Course) (a : Reg) (l : Nat) : W64 :=
  match a with | .v n => (k.vget n l).signExtend 64 | .g n => k.gget n

/-- Position and length of a bit field, cut to the width (R128). -/
def bitField (w : Nat) (b : W32) : Nat × Nat :=
  let pos := (b.extractLsb' 0 6).toNat
  let len := (b.extractLsb' 8 7).toNat
  if pos ≥ w ∨ len = 0 then (0, 0) else (pos, min len (w - pos))

/-- The integer result of the words of 06 with a register destination and no lane exchange, as R126 to R128, R131 and R132 give it. -/
def intWord : Instr → Option RegWord
  | .add gd t sat d a b => some ⟨gd, t.regs, d, fun k l => (numI t).result (saturate (numI t) sat (k.int (numI t) a l + k.int (numI t) b l))⟩
  | .sub gd t sat d a b => some ⟨gd, t.regs, d, fun k l => (numI t).result (saturate (numI t) sat (k.int (numI t) a l - k.int (numI t) b l))⟩
  | .mul gd t d a b => some ⟨gd, t.regs, d, fun k l => (numI t).result (k.int (numI t) a l * k.int (numI t) b l)⟩
  | .mulh gd t d a b => some ⟨gd, t.regs, d, fun k l => (numI t).result (k.int (numI t) a l * k.int (numI t) b l / 2 ^ (numI t).w)⟩
  | .mad gd t d a b c => some ⟨gd, t.regs, d, fun k l =>
      (numI t).result (k.int (numI t) a l * k.int (numI t) b l + k.int (numI t) (.v c) l)⟩
  | .madw gd t d a b c => some ⟨gd, 2, d, fun k l =>
      BitVec.ofInt 64 (k.int (numMadw t) a l * k.int (numMadw t) b l) + k.src64 (.v c) l⟩
  | .min gd t d a b => some ⟨gd, t.regs, d, fun k l => (numI t).result (min (k.int (numI t) a l) (k.int (numI t) b l))⟩
  | .max gd t d a b => some ⟨gd, t.regs, d, fun k l => (numI t).result (max (k.int (numI t) a l) (k.int (numI t) b l))⟩
  | .abs gd t sat d a => some ⟨gd, t.regs, d, fun k l => (numS t).result (saturate (numS t) sat |k.int (numS t) a l|)⟩
  | .neg gd t sat d a => some ⟨gd, t.regs, d, fun k l => (numS t).result (saturate (numS t) sat (-k.int (numS t) a l))⟩
  | .lea gd t d a b sh => some ⟨gd, 2, d, fun k l => k.src64 a l + (BitVec.ofInt 64 (k.int (numW t) b l) <<< sh.val)⟩
  | .and gd t d a b => some ⟨gd, t.regs, d, fun k l => k.src t.regs a l &&& k.src t.regs b l⟩
  | .or gd t d a b => some ⟨gd, t.regs, d, fun k l => k.src t.regs a l ||| k.src t.regs b l⟩
  | .xor gd t d a b => some ⟨gd, t.regs, d, fun k l => k.src t.regs a l ^^^ k.src t.regs b l⟩
  | .andn gd t d a b => some ⟨gd, t.regs, d, fun k l => k.src t.regs a l &&& ~~~ k.src t.regs b l⟩
  | .not gd t d a => some ⟨gd, t.regs, d, fun k l => lowBits (numB t).w (~~~ k.src t.regs a l)⟩
  | .shl gd t d a b => some ⟨gd, t.regs, d, fun k l => lowBits (numB t).w (k.src t.regs a l <<< ((k.src32 b l).toNat % (numB t).w))⟩
  | .shr gd t d a b => some ⟨gd, t.regs, d, fun k l => k.src t.regs a l >>> ((k.src32 b l).toNat % (numB t).w)⟩
  | .sar gd t d a b => some ⟨gd, t.regs, d, fun k l =>
      (numSar t).result (k.int (numSar t) a l / 2 ^ ((k.src32 b l).toNat % (numSar t).w))⟩
  | .rot gd t d a b => some ⟨gd, t.regs, d, fun k l =>
      let n := (k.src32 b l).toNat % (numB t).w
      lowBits (numB t).w (k.src t.regs a l <<< n ||| k.src t.regs a l >>> ((numB t).w - n))⟩
  | .bfe gd t d a b => some ⟨gd, t.regs, d, fun k l =>
      let (pos, len) := bitField (numW t).w (k.src32 b l)
      (numW t).result (if len = 0 then 0 else NumTy.value ⟨len, (numW t).sg⟩ (lowBits len (k.src t.regs a l >>> pos)).toNat)⟩
  | .bfi gd t d a b c => some ⟨gd, t.regs, d, fun k l =>
      let (pos, len) := bitField (numB t).w (k.src32 b l)
      let m := BitVec.ofNat 64 ((2 ^ len - 1) * 2 ^ pos)
      k.src t.regs (.v c) l &&& ~~~ m ||| k.src t.regs a l <<< pos &&& m⟩
  | .pop gd t d a => some ⟨gd, t.regs, d, fun k l =>
      BitVec.ofNat 64 ((List.range (numB t).w).countP fun i => (k.src t.regs a l).getLsbD i)⟩
  | .clz gd t d a => some ⟨gd, t.regs, d, fun k l =>
      BitVec.ofNat 64 ((List.range (numB t).w).countP fun i => k.src t.regs a l >>> i == 0)⟩
  | .brev gd t d a => some ⟨gd, t.regs, d, fun k l =>
      BitVec.ofNat 64 (maskOf (numB t).w fun i => (k.src t.regs a l).getLsbD ((numB t).w - 1 - i))⟩
  | .sel gd t d a b p inv => some ⟨gd, t.regs, d, fun k l =>
      if (k.pget p).getLsbD l = !inv then k.src t.regs a l else k.src t.regs b l⟩
  | .mov gd t d a => some ⟨gd, t.regs, d, fun k l => k.src t.regs a l⟩
  | .addi gd d a imm => some ⟨gd, 1, d, fun k l => k.wide a l + imm.signExtend 64⟩
  | .andi gd d a imm => some ⟨gd, 1, d, fun k l => k.wide a l &&& imm.signExtend 64⟩
  | .ori gd d a imm => some ⟨gd, 1, d, fun k l => k.wide a l ||| imm.signExtend 64⟩
  | .xori gd d a imm => some ⟨gd, 1, d, fun k l => k.wide a l ^^^ imm.signExtend 64⟩
  | .movi gd d imm => some ⟨gd, 1, d, fun _ _ => imm.signExtend 64⟩
  | .muli gd d a imm => some ⟨gd, 1, d, fun k l => k.wide a l * imm.signExtend 64⟩
  | .leai gd d a off sh => some ⟨gd, 1, d, fun k l => k.wide a l + (off.signExtend 64 <<< sh.val)⟩
  | _ => none

/-! ### Words with a predicate result, and floating-point words -/

/-- A word with a predicate result: its guard, its destination, and the result in a lane. -/
structure PredWord where
  gd  : Guard
  d   : PDst
  val : Course → Nat → Bool

/-- The source of a `cmpi` as an integer: 32 bits of a v register or a whole g register, signed, or unsigned under `.uns` (R133). -/
def cmpiSide (a : Reg) (uns : Bool) (y : W64) : Int :=
  match a with
  | .v _ => if uns then ((y.truncate 32).toNat : Int) else (y.truncate 32).toInt
  | .g _ => if uns then (y.toNat : Int) else y.toInt

/-- The words of 06 with a predicate result, as R129, R130 and R133 give it. -/
def predWord : Instr → Option PredWord
  | .cmp gd t cc d a b => some ⟨gd, d, fun k l => condHolds cc (k.int (numI t) a l) (k.int (numI t) b l)⟩
  | .plog gd d a b c tt => some ⟨gd, d, fun k l =>
      tt.getLsbD (((k.pget a).getLsbD l).toNat * 4 + ((k.pget b).getLsbD l).toNat * 2 + ((k.pget c).getLsbD l).toNat)⟩
  | .cmpi gd cc uns d a imm => some ⟨gd, d, fun k l => condHolds cc (cmpiSide a uns (k.wide a l)) (cmpiSide a uns (imm.signExtend 64))⟩
  | _ => none

/-- A fixed-latency floating-point word: its guard, its latency class, the 32-bit registers of its result, its destination, and the result
with its flags in a lane. -/
structure FloatWord where
  gd   : Guard
  lat  : Nat
  regs : Nat
  d    : Reg
  val  : Course → Nat → W64 × FFlags

/-- A code with its flags as a result. -/
def coded64 (r : FRes) : W64 × FFlags := (BitVec.ofNat 64 r.1, r.2)

/-- The rounding mode of a word: DYN takes the course's RMODE (R140). -/
def Course.mode (k : Course) (rm : RM) : RMode := rmOf rm k.rmode

/-- The fixed-latency words of 07 with a register destination: the latency class of R97 and R143, and the correctly rounded result with
its flags that R144 to R156 give. -/
def floatWord : Instr → Option FloatWord
  | .fadd gd t rm d a b => some ⟨gd, (fmtOf t).plainClass, t.regs, d, fun k l =>
      coded64 (fAdd (fmtOf t) (k.mode rm) (k.fval (fmtOf t) a l) (k.fval (fmtOf t) b l))⟩
  | .fsub gd t rm d a b => some ⟨gd, (fmtOf t).plainClass, t.regs, d, fun k l =>
      coded64 (fSub (fmtOf t) (k.mode rm) (k.fval (fmtOf t) a l) (k.fval (fmtOf t) b l))⟩
  | .fmul gd t rm d a b => some ⟨gd, (fmtOf t).plainClass, t.regs, d, fun k l =>
      coded64 (fMul (fmtOf t) (k.mode rm) (k.fval (fmtOf t) a l) (k.fval (fmtOf t) b l))⟩
  | .fma gd t rm d a b c => some ⟨gd, (fmtOf t).plainClass, t.regs, d, fun k l =>
      coded64 (fFma (fmtOf t) (k.mode rm) (k.fval (fmtOf t) a l) (k.fval (fmtOf t) b l) (k.fval (fmtOf t) (.v c) l))⟩
  | .fmin gd t d a b => some ⟨gd, (fmtOf t).plainClass, t.regs, d, fun k l =>
      coded64 (fMinMax (fmtOf t) false (k.elem (fmtOf t) a l) (k.elem (fmtOf t) b l))⟩
  | .fmax gd t d a b => some ⟨gd, (fmtOf t).plainClass, t.regs, d, fun k l =>
      coded64 (fMinMax (fmtOf t) true (k.elem (fmtOf t) a l) (k.elem (fmtOf t) b l))⟩
  | .fcvt gd t src rm d a => some ⟨gd, 8, t.regs, d, fun k l => coded64 ((fmtOf t).ofVal (k.mode rm) (k.fval (fmtOf src) a l))⟩
  | .icvt gd t src rm d a => some ⟨gd, 8, t.regs, d, fun k l =>
      coded64 ((fmtOf t).ofVal (k.mode rm) (.fin (decide (k.int (numW src) a l < 0)) (k.int (numW src) a l).natAbs 0))⟩
  | .ficvt gd t src rm d a => some ⟨gd, 8, t.regs, d, fun k l => toInt (numW t) (k.mode rm) (k.fval (fmtOf src) a l)⟩
  | .qcvt gd t f sat d a pos => some ⟨gd, 8, 1, .v d, fun k l =>
      let r := toNFmt f sat (k.fval (fmtH t) a l)
      ((putField (narrowBits f) pos (k.vget d l) r.1).zeroExtend 64, r.2)⟩
  | .qexp gd t f d a pos => some ⟨gd, 8, 1, d, fun k l =>
      (BitVec.ofNat 64 ((fmtQ t).ofVal .rne (qexpVal f pos (k.src32 a l))).1, fNone)⟩
  | .fscl gd t rm d a b => some ⟨gd, 8, t.regs, d, fun k l =>
      coded64 (fScl (fmtOf t) (k.mode rm) (k.fval (fmtOf t) a l) (k.src32 b l).toInt)⟩
  | .frnd gd t rm d a => some ⟨gd, 8, t.regs, d, fun k l => coded64 (fRnd (fmtOf t) (k.mode rm) (k.fval (fmtOf t) a l))⟩
  | .fclass gd t d a => some ⟨gd, 8, 1, d, fun k l => (BitVec.ofNat 64 (fClass (fmtOf t) (k.elem (fmtOf t) a l)), fNone)⟩
  | .hadd2 gd t rm d a b => some ⟨gd, 6, 1, d, fun k l => coded64 (packed fun i =>
      fAdd (fmtX2 t) (k.mode rm) (k.hval t a i l) (k.hval t b i l))⟩
  | .hmul2 gd t rm d a b => some ⟨gd, 6, 1, d, fun k l => coded64 (packed fun i =>
      fMul (fmtX2 t) (k.mode rm) (k.hval t a i l) (k.hval t b i l))⟩
  | .hfma2 gd t rm d a b c => some ⟨gd, 6, 1, d, fun k l => coded64 (packed fun i =>
      fFma (fmtX2 t) (k.mode rm) (k.hval t a i l) (k.hval t b i l) (k.hval t (.v c) i l))⟩
  | .hmin2 gd t d a b => some ⟨gd, 6, 1, d, fun k l => coded64 (packed fun i => fMinMax (fmtX2 t) false (k.half a i l) (k.half b i l))⟩
  | .hmax2 gd t d a b => some ⟨gd, 6, 1, d, fun k l => coded64 (packed fun i => fMinMax (fmtX2 t) true (k.half a i l) (k.half b i l))⟩
  | .fdot4 gd rm ae5 be5 d a b c => some ⟨gd, 8, 1, d, fun k l =>
      coded64 (fDot4 (k.mode rm) ae5 be5 (k.src32 a l) (k.src32 b l) (k.fval fmtF32 (.v c) l))⟩
  | .scvt gd f d a => some ⟨gd, 8, 1, d, fun k l => coded64 (scaleCode f (k.fval fmtF32 a l))⟩
  | .fmovi gd d imm => some ⟨gd, 4, 1, d, fun _ _ => (BitVec.ofNat 64 (imm.toNat * 4), fNone)⟩
  | .faddi gd d a imm => some ⟨gd, 6, 1, d, fun k l =>
      coded64 (fAdd fmtF32 .rne (k.fval fmtF32 a l) (fmtF32.decode (imm.toNat * 4)))⟩
  | .fmuli gd d a imm => some ⟨gd, 6, 1, d, fun k l =>
      coded64 (fMul fmtF32 .rne (k.fval fmtF32 a l) (fmtF32.decode (imm.toNat * 4)))⟩
  | _ => none

/-- The flags raised in the executing lanes reach FSTAT with the result: at the position that lies the word's latency class further on
(R64, R112). -/
def Raises (k k' : Course) (lat : Nat) (ex : LaneMask) (fl : Nat → FFlags) : Prop :=
  k'.flagShadows = k.flagShadows ++ if laneFlags ex fl = 0 then [] else [⟨laneFlags ex fl, k.pos + lat⟩]

/-- A fixed-latency floating-point word is done: its results have landed, its flags are on their way, and nothing else has changed. -/
def CompletesWith (x : Ctx) (t : State) (w : FloatWord) : Prop :=
  let ex := x.r.execFor w.gd w.d
  ∃ k', SameButRegs x.k k' ∧ Raises x.k k' w.lat ex (fun l => (w.val x.r l).2) ∧
    Lands x.k k' w.regs w.d ex (fun l => (w.val x.r l).1) ∧ Done x t k' 1 (x.k.pc + 8)

/-! ### Words that count on a token -/

/-- The course has issued operation `o` on token `tk`: the token counts one more, the operation is the youngest, and the course differs in
nothing else (R178). -/
def Counts (k k' : Course) (tk : Tok) (o : TokOp) : Prop :=
  k'.tok = k.tok.set tk { k.tok[tk] with count := k.tok[tk].count + 1 } ∧
  k'.ops.map TokOp.noClash = (k.ops ++ [o]).map TokOp.noClash ∧
  o.id = k.nextOp ∧ o.tk = tk ∧ o.status = 0 ∧ o.fault = none ∧ o.fallen = false ∧
  k'.nextOp = k.nextOp + 1 ∧ { k' with tok := k.tok, ops := k.ops, nextOp := k.nextOp } = k

/-- The course after the issue of a word that counts on `tk`, or on no token: its operation waits for `wait`, and will write `ws`. -/
def CountsOn (k k' : Course) (tk : Option Tok) (wait : OpWait) (ws : List RegVal) (mat acq inval : Bool) : Prop :=
  match tk with
  | none => k' = k
  | some tk => ∃ o, Counts k k' tk o ∧ o.wait = wait ∧ o.writes = ws ∧ o.flags = 0 ∧ o.poison = false ∧ o.mat = mat ∧ o.acq = acq ∧
      o.inval = inval

/-- A token-class floating-point word: its token, destination, registers, and the result with flags in a lane. -/
structure SlowWord where
  gd   : Guard
  tk   : Tok
  regs : Nat
  d    : VReg
  val  : Course → Nat → FRes

/-- The token-class words of 07 (R149). -/
def slowWord : Instr → Option SlowWord
  | .frcp gd t rm tk d a => some ⟨gd, tk, t.regs, d, fun k l => fRcp (fmtOf t) (k.mode rm) (k.fval (fmtOf t) a l)⟩
  | .frsq gd t rm tk d a => some ⟨gd, tk, t.regs, d, fun k l => fRsq (fmtOf t) (k.mode rm) (k.fval (fmtOf t) a l)⟩
  | .fsqrt gd t rm tk d a => some ⟨gd, tk, t.regs, d, fun k l => fSqrt (fmtOf t) (k.mode rm) (k.fval (fmtOf t) a l)⟩
  | .fexp2 gd t rm tk d a => some ⟨gd, tk, 1, d, fun k l => fExp2 (fmtH t) (k.mode rm) (k.elem (fmtH t) a l)⟩
  | .flog2 gd t rm tk d a => some ⟨gd, tk, 1, d, fun k l => fLog2 (fmtH t) (k.mode rm) (k.elem (fmtH t) a l)⟩
  | .fsin gd t rm tk d a => some ⟨gd, tk, 1, d, fun k l => fTrig (fmtH t) (k.mode rm) false (k.elem (fmtH t) a l)⟩
  | .fcos gd t rm tk d a => some ⟨gd, tk, 1, d, fun k l => fTrig (fmtH t) (k.mode rm) true (k.elem (fmtH t) a l)⟩
  | .fdiv gd t rm tk d a b => some ⟨gd, tk, t.regs, d, fun k l =>
      fDiv (fmtOf t) (k.mode rm) (k.fval (fmtOf t) a l) (k.fval (fmtOf t) b l)⟩
  | _ => none

/-! ### Control -/

/-- The word is done and has changed the state to `s'` beside its course's move by `n` positions to `pc`. -/
def DoneWith (x : Ctx) (t s' : State) (n : Nat) (pc : Addr) : Prop :=
  Quiet (s'.modCourse x.c fun k => k.after x.s.clk x.t.core n pc) t

/-- A target address that R160 accepts. -/
def GoodTarget (t : Int) : Prop := t % 8 = 0 ∧ 0 ≤ t ∧ t < 2 ^ 57

/-- The frame that a trap pushes, word by word (R114). -/
def FrameOf (k : Course) (cause detail : Nat) (faddr : W64) (asy : Bool) (f : Frame) : Prop :=
  f.words[0] = k.pc.zeroExtend 64 ∧
  bits f.words[1].toNat 7 0 = cause % 256 ∧ bits f.words[1].toNat 15 8 = detail % 256 ∧
  bits f.words[1].toNat 21 16 = k.div.length % 64 ∧ f.words[1].getLsbD 22 = false ∧
  f.words[1].getLsbD 23 = asy ∧ f.words[1].getLsbD 24 = k.tm ∧ bits f.words[1].toNat 63 25 = 0 ∧
  f.words[2] = faddr ∧
  f.words[3].truncate 32 = k.lanes ∧ (f.words[3] >>> 32).truncate 16 = k.tkmask ∧ f.words[3] >>> 48 = 0 ∧
  ∀ j : Fin 16, bits (vat f.words (4 + j / 4) 0).toNat (16 * (j % 4) + 15) (16 * (j % 4)) =
    k.tok[j].count.toNat + 256 * k.tok[j].status.toNat

/-- The course has entered its handler with a trap: the frame is pushed, traps are masked, only tokens t12 to t15 are owned, the pc is the
handler's, every shadow is closed, a wait at a barrier is left, and nothing else has changed (R116, R168, R193). -/
def Entered (x : Ctx) (t : State) (cause detail : Nat) (faddr : W64) (asy : Bool) : Prop :=
  ∃ f, FrameOf x.k cause detail faddr asy f ∧
    t = { x.s.setCourse x.c { x.k.closeShadows with
            frames := f :: x.k.frames, tm := true, tkmask := 0xF000, pc := x.t.items.handler.truncate 57,
            barBlocked := none, barWoke := none, stalled := false, abn := x.k.abn || x.k.barWoke == some 1,
            lastIssue := x.s.clk } with tick := x.s.tick + 1 }

/-- A trap can be taken: fewer than four frames are open and the launch names a handler (R50, R168). -/
def CanTrap (x : Ctx) : Prop := x.k.frames.length < 4 ∧ x.t.items.handler ≠ 0

/-- The word raises a precise fault, and nothing else of it happens (R50). -/
def Traps (s : State) (x : Ctx) (i : Instr) (cause detail : Nat) (faddr : W64) : Prop :=
  exec i s = .next (trapEntry s x.c cause detail faddr false)

/-- The word completes with its course as `k'` and the next word at `pc`. -/
def Goes (s : State) (x : Ctx) (i : Instr) (k' : Course) (pc : Addr) : Prop := ∃ t, exec i s = .next t ∧ Done x t k' 1 pc

/-- The whole course takes a transfer: some lane is active, and the guard is true in every active lane (R159). -/
def WholeCourse (x : Ctx) (gd : Guard) : Prop := x.r.exec gd = x.k.lanes ∧ x.k.lanes ≠ 0

/-- The course after a call: its link pair holds the return address and the mask, visible to every later word, and its new mask keeps the
handler's tokens (R163). -/
def Linked (x : Ctx) (k' : Course) (d : GReg) (mask : BitVec 12) : Prop :=
  SameButRegs { x.k with tkmask := mask.zeroExtend 16 ||| (x.k.tkmask &&& 0xF000) } k' ∧ k'.flagShadows = x.k.flagShadows ∧
  k'.v = x.k.v ∧ k'.p = x.k.p ∧ (∀ m, m ≠ d.val → m ≠ d.val + 1 → k'.gget m = x.k.gget m) ∧
  k'.gget d.val = x.k.pc.zeroExtend 64 + 8 ∧ k'.gget (d.val + 1) = x.k.tkmask.zeroExtend 64 ∧
  ¬ k'.inShadow (256 + d.val) 0 ∧ ¬ k'.inShadow (257 + d.val) 0

/-- The word completes and has changed the state to `s'` beside its course's move to the next word. -/
def GoesWith (s : State) (x : Ctx) (i : Instr) (s' : State) : Prop := ∃ t, exec i s = .next t ∧ DoneWith x t s' 1 (x.k.pc + 8)

/-- A word counts on its token alone, and its operation is complete: what a word without an executing lane does (R88). -/
def CountsOnly (s : State) (x : Ctx) (i : Instr) (tk : Option Tok) : Prop :=
  ∃ k', CountsOn x.k k' tk .nothing [] false false false ∧ Goes s x i k' (x.k.pc + 8)

/-! ### Tables of the truss, and barriers -/

/-- Word `w` of an entry keeps the bits outside the fields. -/
def KeepsBits {n : Nat} (fs : List FieldAt) (e e' : Vector W64 n) : Prop :=
  ∀ w b : Nat, (∀ f ∈ fs, ¬ (f.word = w ∧ f.low ≤ b ∧ b < f.low + f.width)) →
    (vat e' w 0).getLsbD b = (vat e w 0).getLsbD b

/-- What a read of fields returns (R205). -/
def fieldsOf {n : Nat} (fs : List FieldAt) (e : Vector W64 n) : Nat := (fs.map fun f => f.read (vat e f.word 0)).sum

/-- The courses of a truss after its barrier `b` has completed a phase or not (R188, R193). -/
def phaseOver (b : Bar) (gone : BitVec 16) : Prop := b.mask &&& ~~~ (b.arrived ||| gone) = 0 ∧ b.pend = 0

/-- Truss `u` is `t` with barrier `b` at `y`, tested: where the phase is complete, the next one begins and the waiting courses wake. -/
def BarBecomes (t u : Truss) (b : Fin 16) (y : Bar) : Prop :=
  (y.valid = true ∧ y.fixed = true ∧ phaseOver y t.goneMask →
    u.bars = t.bars.set b { y with phase := y.phase + 1, mask := 0, arrived := 0, fixed := false } ∧
    u.courses = t.courses.map fun k => k.wakeBar b 0) ∧
  (¬ (y.valid = true ∧ y.fixed = true ∧ phaseOver y t.goneMask) → u.bars = t.bars.set b y ∧ u.courses = t.courses) ∧
  { u with bars := t.bars, courses := t.courses, tabPend := t.tabPend } = t

/-- A course under the guarded bit holds operation `op` back (R442). -/
def HeldBack (x : Ctx) (op : HeldOp) : State :=
  { x.s.setCourse x.c { x.k with quarantine := x.k.quarantine ++ [⟨op, x.s.clk, none, x.s.nextId⟩] } with nextId := x.s.nextId + 1 }

/-! ### Memory words -/

/-- A memory word: its token, what it does, its order, its executing lanes; a lane's address and the bytes it is aligned to; its parts
and its destination. -/
structure MemWord where
  tk    : Option Tok
  kind  : AccKind
  acq   : Option Scope := none
  rel   : Option Scope := none
  scratch : Bool := false
  ssc   : Bool := false
  lanes : LaneMask
  ea    : Nat → Nat
  size  : Nat
  parts : List Part
  land_ : Landing := .none

/-- The memory words that address bytes: `ld`, `st`, `atom`, `red`, `ldc`, `acp`, `lds`, `sts` and `atoms` (R252, R253, R256, R258,
R259, R261, R262). -/
def Ctx.memWord (x : Ctx) : Instr → Option MemWord
  | .ld gd tk d m z sem => some
      { tk := some tk, kind := .load, acq := ldAcq sem, lanes := x.r.exec gd, ea := x.r.eaOf m, size := szBytes z, land_ := .v d z,
        parts := ((lanesIn (x.r.exec gd)).map fun l => laneParts false l (x.r.eaOf m l) (szBytes z) [] 0).flatten }
  | .st gd tk d m z sem => some
      { tk := tk, kind := .store, rel := stRel sem, lanes := x.r.exec gd, ea := x.r.eaOf m, size := szBytes z,
        parts := ((lanesIn (x.r.exec gd)).map fun l =>
          laneParts false l (x.r.eaOf m l) (szBytes z) (x.r.runBytes d (szBytes z) l) 0).flatten }
  | .atom gd tk d m va op z sem => some
      { tk := some tk, kind := .atomic op, acq := atAcq sem, rel := atRel sem, lanes := x.r.exec gd, ea := x.r.eaOf (atMem m),
        size := aszBytes z, land_ := .at_ d z,
        parts := (lanesIn (x.r.exec gd)).map fun l => mkPart false l (x.r.eaOf (atMem m) l) (aszBytes z) (x.r.runBytes va (aszBytes z) l)
          (if op = .cas then x.r.runBytes d (aszBytes z) l else []) 0 }
  | .red gd tk m va op z sem => some
      { tk := tk, kind := .atomic op, acq := atAcq sem, rel := atRel sem, lanes := x.r.exec gd, ea := x.r.eaOf (atMem m),
        size := aszBytes z,
        parts := (lanesIn (x.r.exec gd)).map fun l => mkPart false l (x.r.eaOf (atMem m) l) (aszBytes z)
          (x.r.runBytes va (aszBytes z) l) [] 0 }
  | .ldc gd tk d gb off z => some
      { tk := some tk, kind := .load, lanes := x.r.execFor gd (.g d), ea := fun _ => (x.r.gget gb + off.signExtend 64).toNat,
        size := ldcBytes z, land_ := .g d z,
        parts := laneParts false (lowestLane x.k.lanes) (x.r.gget gb + off.signExtend 64).toNat (ldcBytes z) [] 0 }
  | .acp gd tk d m z bar => some
      { tk := tk, kind := .copy bar, lanes := x.r.exec gd, ea := x.r.eaOf m, size := aszBytes z,
        parts := ((lanesIn (x.r.exec gd)).map fun l =>
          laneParts false l (x.r.eaOf m l) (aszBytes z) [] (x.r.vget d l).toNat).flatten }
  | .lds gd tk d m z sem ssc => some
      { tk := some tk, kind := .load, acq := ldAcq sem, scratch := true, ssc := ssc, lanes := x.r.exec gd, ea := x.r.eaOf m,
        size := szBytes z, land_ := .v d z,
        parts := ((lanesIn (x.r.exec gd)).map fun l => laneParts true l (scrAddr x.t ssc (x.r.eaOf m l)) (szBytes z) [] 0).flatten }
  | .sts gd tk d m z sem ssc => some
      { tk := tk, kind := .store, rel := stRel sem, scratch := true, ssc := ssc, lanes := x.r.exec gd, ea := x.r.eaOf m,
        size := szBytes z,
        parts := ((lanesIn (x.r.exec gd)).map fun l =>
          laneParts true l (scrAddr x.t ssc (x.r.eaOf m l)) (szBytes z) (x.r.runBytes d (szBytes z) l) 0).flatten }
  | .atoms gd tk d m va op z sem ssc => some
      { tk := some tk, kind := .atomic op, acq := atAcq sem, rel := atRel sem, scratch := true, ssc := ssc, lanes := x.r.exec gd,
        ea := x.r.eaOf (atMem m), size := aszBytes z, land_ := .at_ d z,
        parts := (lanesIn (x.r.exec gd)).map fun l => mkPart true l (scrAddr x.t ssc (x.r.eaOf (atMem m) l)) (aszBytes z)
          (x.r.runBytes va (aszBytes z) l) (if op = .cas then x.r.runBytes d (aszBytes z) l else []) 0 }
  | _ => none

/-- The address of a lane passes the checks at issue (R235, R254, R261). -/
def Ctx.laneOk (x : Ctx) (i : Instr) (w : MemWord) (l : Nat) : Prop :=
  w.ea l % w.size = 0 ∧
  (w.scratch = false → w.ea l < 2 ^ 57) ∧
  (w.scratch = true → w.ssc = false → w.ea l < x.t.portion) ∧
  (w.scratch = true → w.ssc = true → w.ea l % 2 ^ 32 < x.t.portion ∧ w.ea l / 2 ^ 32 < x.t.items.span ∧ w.ea l < 2 ^ 35) ∧
  (∀ gd tk d m z bar, i = .acp gd tk d m z bar → (x.r.vget d l).toNat % aszBytes z = 0 ∧ (x.r.vget d l).toNat < x.t.portion)

/-- The effect of the access is held back under the guarded bit (R442). -/
def Ctx.holds (x : Ctx) (kind : AccKind) : Bool := x.t.items.guarded && kind.observable

/-- The access that the word sends (R255). -/
def Ctx.sent (x : Ctx) (w : MemWord) : Access :=
  { id := x.s.nextId, who := x.c, tokOp := w.tk.map fun _ => x.k.nextOp, kind := w.kind, ssc := w.ssc, scratch := w.scratch,
    acq := w.acq, rel := w.rel, drop := false, inRegion := x.k.rgstate.getLsbD 63, land_ := w.land_, lanes := w.lanes,
    parts := if x.holds w.kind then w.parts.map fun p => if p.phase.settled then p else { p with phase := .held } else w.parts }

/-- The access waits to be performed: the word counts on its token until it is, and a guarded course holds its effect back. -/
def Sends (s : State) (x : Ctx) (i : Instr) (w : MemWord) : Prop :=
  ∃ k1, CountsOn x.k k1 w.tk (.parts w.parts.length) (x.sent w).writes false false false ∧
    GoesWith s x i
      { x.s.setCourse x.c (if x.holds w.kind then
          { k1 with quarantine := k1.quarantine ++ [⟨.access x.s.nextId, x.s.clk, w.tk.map fun _ => x.k.nextOp, x.s.nextId⟩] } else k1)
        with accesses := x.s.accesses ++ [x.sent w], nextId := x.s.nextId + 1 }

/-- The parts of a scratchpad access performed one after another: the scratchpad with its poison bits after them, and the parts with
what they read (R257, R264, R309). -/
def performParts (kind : AccKind) (b : Bank) : List Part → Bank × List Part
  | [] => (b, [])
  | p :: ps =>
    if p.phase.settled then
      let r := performParts kind b ps
      (r.1, p :: r.2)
    else
      let at_ := p.va % 2 ^ 32
      let one := match kind with
        | .store => (b.store p at_ false, p)
        | .atomic op => b.atomic op p at_
        | _ => (b, b.load p at_)
      let r := performParts kind one.1 ps
      (r.1, { one.2 with phase := .performed } :: r.2)

/-- The access to the truss's own scratchpad is performed: the scratchpad is as its parts leave it, the operation is complete with what
they read, and an acquire at span scope or wider has invalidated the L1. -/
def Performs (s : State) (x : Ctx) (i : Instr) (w : MemWord) : Prop :=
  let r := performParts w.kind ⟨x.t.scr, x.t.scrPsn⟩ w.parts
  let a : Access := { x.sent w with parts := r.2 }
  ∃ k1, (match w.tk with
      | none => k1 = x.k
      | some tk => ∃ o, Counts x.k k1 tk o ∧ o.wait = .nothing ∧ o.writes = a.writes ∧ o.flags = 0 ∧
          o.poison = (w.land_ != .none && r.2.any (·.poison)) ∧ o.mat = false ∧ o.acq = false ∧ o.inval = false) ∧
    GoesWith s x i
      (let s1 : State := { (x.s.setTruss x.c.truss { x.t with scr := r.1.m, scrPsn := r.1.psn }).setCourse x.c k1 with
          nextId := x.s.nextId + 1 }
       if strong w.acq && w.acq != some .trs then s1.invalidateL1 x.t.core else s1)

/-! ### Entries of the engine queues -/

/-- An entry with nothing done yet (R286, R362, R374). -/
def Ctx.fresh (x : Ctx) (tk : Option Tok) (body : EntryBody) (start : Nat) : QEntry :=
  { id := x.s.nextId, course := x.c.course, tokOp := tk.map fun _ => x.k.nextOp, issued := x.s.clk, body := body, begun := false,
    done := start, full := false, poison := false, drop := false, partly := false, fault := none, subs := 0, ovf := false,
    wait := .untranslated, waitAt := 0, held := x.t.items.guarded, redo := false, wrote := false, inRegion := x.k.rgstate.getLsbD 63, cached := false,
    cache := [] }

/-- The word puts an entry at the end of queue `q` and counts on its token until the entry is complete; a guarded course's is held back.
A queue fence that every queue it names has reached passes. -/
def Enqueues (s : State) (x : Ctx) (i : Instr) (k0 : Course) (q : QSel) (tk : Tok) (ws : List RegVal) (body : EntryBody) (start : Nat) :
    Prop :=
  ∃ k1, CountsOn k0 k1 (some tk) (.parts 1) ws (q == .mat) false false ∧
    GoesWith s x i
      (({ x.s.setCourse x.c (if x.t.items.guarded then
            { k1 with quarantine := k1.quarantine ++ [⟨.entry x.s.nextId, x.s.clk, some x.k.nextOp, x.s.nextId⟩] } else k1)
          with nextId := x.s.nextId + 1 } : State).modTruss x.c.truss fun t =>
        (t.modQueue q fun es => es ++ [x.fresh (some tk) body start]).passFences 64)

/-- The operands of a product meet steps 1 to 9 of R292: no reserved or stray field, a pair of formats of R289 with its scaling, its
accumulate type and a depth in range, tiles that hold it, entries of those formats in the right spaces, and origins of scaled operands on
a block. -/
def MmaFits (o : MmaOps) (acc tiles : Nat) : Prop :=
  let f := fmtBlock o.fmt.toNat
  bits o.fmt.toNat 63 48 = 0 ∧ f.af < 14 ∧ f.bf < 14 ∧ f.bl ≠ 3 ∧ f.acc ≠ 3 ∧
  (f.as_ = false → f.ase = 0 ∧ f.an = 0) ∧ (f.bs = false → f.bse = 0 ∧ f.bn = 0) ∧ (f.as_ = false → f.bs = false → f.bl = 0) ∧
  (f.as_ = true → scalable f.af = true) ∧ (f.bs = true → scalable f.bf = true) ∧
  ∃ ty depth, pairInfo f.af f.bf f.as_ f.bs = some (ty, depth) ∧ f.acc = ty ∧ (ty = 2 → acc % 2 = 0 ∧ acc + 1 < tiles) ∧
    o.la.fmt = f.af ∧ o.lb.fmt = f.bf ∧ o.la.space ≠ 3 ∧ o.lb.space ≠ 3 ∧
    (f.as_ = true → o.lsa.space = 3 ∧ o.ca0 % f.len = 0) ∧ (f.bs = true → o.lsb.space = 3 ∧ o.cb1 % f.len = 0) ∧
    bits o.k.toNat 9 0 ≤ depth ∧ bits o.k.toNat 63 10 = 0

/-! ### Queues and the mailbox -/

/-- Packet `p` stands at the head of queue `blk`, every earlier packet has retired, its header is read again as fetched, and it passes the checks of
R343; `s1` is the state once the header is read. Nothing is captured or replayed. -/
structure HeadReady (s : State) (blk : Nat) (b : Qcb) (p : List Byte) (s1 : State) : Prop where
  queue : s.qcb? blk = some b
  head : b.look.head? = some p
  runs : s.threadRuns b = true
  empty : b.infl = []
  unskipped : b.skip = 0
  unfailed : b.wait = .untranslated
  read : s.queueRead b (b.unitAt b.head) 16 = (s1, .ok (p.take 16))
  good : packetErr b p = none
  plain : s.capctl.getLsbD 9 = false

/-- The queue stands after the issue of its packet `p` with what is in flight for it (R338, R342). -/
structure Moved (b b' : Qcb) (p : List Byte) (st : Inflight) : Prop where
  head : b'.head = b.head + BitVec.ofNat 32 (pkSize p + 1)
  eseq : b'.eseq = b.eseq + 1
  infl : b'.infl = [⟨pkSeq p, pkSize p + 1, st, .untranslated⟩]
  retire : b'.retire = b.retire
  tail : b'.tail = b.tail

/-- The mailbox takes a command: the device is READY and no command is under way. -/
def MailReady (s : State) : Prop := s.power = .ready ∧ s.mbBusy = false

/-- A mailbox command has ended with a status: BUSY is clear and the interrupt is sent last (R389). -/
def Answered (s : State) (st : BitVec 16) : Prop := s.mbBusy = false ∧ s.mbStatus = st ∧ s.hostOut.getLast? = some (HostOut.msix 0 0)

/-- The fabric page takes a command. -/
def FabricReady (s : State) : Prop := s.power = .ready ∧ s.fbBusy = none

/-- A fabric-page command has ended with a status (R418). -/
def FabricAnswered (s : State) (st : BitVec 16) : Prop := s.fbBusy = none ∧ s.fbStatus = st ∧ s.hostOut.getLast? = some (HostOut.msix 0 0)

end Sys2Proof.Machine
end

