-- ==== Sys2Proof/Certificates/Slice0/Obligations.lean ====
section
/-!
DEFINITION. The statements, one def of type Prop each; each docstring names the rules of spec/ it says in Lean.
-/
open Sys2Proof Sys2Proof.Machine

/-! ### Words with results alone -/

/-- R121, R122, R126 to R128, R131, R132: every integer, logic, shift, bit, selection and move word with a register destination (`add`,
`sub`, `mul`, `mulh`, `mad`, `madw`, `min`, `max`, `abs`, `neg`, `lea`, `and`, `or`, `xor`, `andn`, `not`, `shl`, `shr`, `sar`, `rot`,
`bfe`, `bfi`, `pop`, `clz`, `brev`, `sel`, `mov`, `addi`, `andi`, `ori`, `xori`, `movi`, `muli`, `leai`) that issues completes: its
result lies in the executing lanes of its destination, and no other register, no flag, no memory and no other state has changed.
R122, R129, R130, R133: `cmp`, `plog` and `cmpi` write their predicate in the executing lanes and change nothing else. -/
def Obligations.IntegerAndPredicateWordsComplete : Prop :=
  (∀ (i : Instr) (w : RegWord) (s : State) (x : Ctx), intWord i = some w → Issues s x i →
     ∃ t, exec i s = .next t ∧ Completes x t w.regs w.d (x.r.execFor w.gd w.d) (w.val x.r)) ∧
  (∀ (i : Instr) (w : PredWord) (s : State) (x : Ctx), predWord i = some w → Issues s x i →
     ∃ t, exec i s = .next t ∧ ∃ k', SameButRegs x.k k' ∧ k'.flagShadows = x.k.flagShadows ∧ KeepsP x.k k' w.d (x.r.exec w.gd) ∧
       (∀ l, (x.r.exec w.gd).getLsbD l = true → LandsP x.k k' w.d l (w.val x.r l)) ∧ Done x t k' 1 (x.k.pc + 8))

/-- R64, R112, R140, R144 to R148, R151 to R156: every fixed-latency floating-point and conversion word with a register destination
(`fadd`, `fsub`, `fmul`, `fma`, `fmin`, `fmax`, `fcvt`, `icvt`, `ficvt`, `qcvt`, `qexp`, `fscl`, `frnd`, `fclass`, `hadd2`, `hmul2`,
`hfma2`, `hmin2`, `hmax2`, `fdot4`, `scvt`, `fmovi`, `faddi`, `fmuli`) that issues completes: its rounded result lies in the executing
lanes, the flags of those lanes are on their way to FSTAT, and nothing else has changed.
R64, R146: `fcmp` writes the comparison of its predicate in the executing lanes, raises NV as R146 says, and changes nothing else. -/
def Obligations.FloatWordsComplete : Prop :=
  (∀ (i : Instr) (w : FloatWord) (s : State) (x : Ctx), floatWord i = some w → Issues s x i →
     ∃ t, exec i s = .next t ∧ CompletesWith x t w) ∧
  (∀ (gd : Guard) (t : FTy) (cc : FCond) (d : PDst) (a b : Reg) (s : State) (x : Ctx), Issues s x (.fcmp gd t cc d a b) →
     let r := fun l => fCompare (fmtOf t) cc (x.r.elem (fmtOf t) a l) (x.r.elem (fmtOf t) b l)
     ∃ t', exec (.fcmp gd t cc d a b) s = .next t' ∧ ∃ k', SameButRegs x.k k' ∧
       Raises x.k k' (if t = .f64 then 8 else 6) (x.r.exec gd) (fun l => (r l).2) ∧ KeepsP x.k k' d (x.r.exec gd) ∧
       (∀ l, (x.r.exec gd).getLsbD l = true → LandsP x.k k' d l (r l).1) ∧ Done x t' k' 1 (x.k.pc + 8))

/-- R149, R150, R178, R179: every token-class floating-point word (`frcp`, `frsq`, `fsqrt`, `fexp2`, `flog2`, `fsin`, `fcos`, `fdiv`)
that issues counts on its token; its operation carries the rounded results for the executing lanes and their flags, and is complete,
so that its count may fall; nothing else has changed. -/
def Obligations.TokenFloatWordsComplete : Prop :=
  ∀ (i : Instr) (w : SlowWord) (s : State) (x : Ctx), slowWord i = some w → Issues s x i →
    ∃ t, exec i s = .next t ∧ ∃ k' o, Counts x.k k' w.tk o ∧ o.wait = .nothing ∧ o.poison = false ∧
      o.flags = laneFlags (x.r.exec w.gd) (fun l => (w.val x.r l).2) ∧
      o.writes = (if x.r.exec w.gd = 0 then [] else
        resultVals w.regs (.v w.d) (x.r.exec w.gd) fun l => BitVec.ofNat 64 (w.val x.r l).1) ∧
      Done x t k' 1 (x.k.pc + 8)

/-- R84, R90, R93, R97: a paired word (`PAIR_MOV` to `PAIR_MOVI`) that issues writes the results of both its halves, each from the
registers as they stood before the word, in every active lane; it changes no other register and nothing else. -/
def Obligations.PairedWordsComplete : Prop :=
  ∀ (h0 h1 : Half) (s : State) (x : Ctx), Issues s x (Instr.pair h0 h1) →
    ∃ t, exec (Instr.pair h0 h1) s = .next t ∧ ∃ k', SameButRegs x.k k' ∧ k'.g = x.k.g ∧ k'.p = x.k.p ∧
      (∀ n l, ¬ ((n = h0.dst.val ∨ n = h1.dst.val) ∧ x.k.lanes.getLsbD l = true) → k'.vget n l = x.k.vget n l) ∧
      (∀ l, x.k.lanes.getLsbD l = true →
        LandsV x.k k' h0.dst l (BitVec.ofNat 32 (halfValue x.r h0 l).1) ∧
        LandsV x.k k' h1.dst l (BitVec.ofNat 32 (halfValue x.r h1 l).1)) ∧
      k'.flagShadows = x.k.flagShadows ++
        (if laneFlags x.k.lanes (fun l => (halfValue x.r h0 l).2) = 0 then []
          else [⟨laneFlags x.k.lanes (fun l => (halfValue x.r h0 l).2), x.k.pos + halfClass h0⟩]) ++
        (if laneFlags x.k.lanes (fun l => (halfValue x.r h1 l).2) = 0 then []
          else [⟨laneFlags x.k.lanes (fun l => (halfValue x.r h1 l).2), x.k.pos + halfClass h1⟩]) ∧
      Done x t k' 1 (x.k.pc + 8)

/-- R44, R96, R134 to R137: when the membership mask is the executing set, `shfl`, `vote` and `redl` complete, for every mode, type and
destination: `shfl` gives each lane the value of its source lane, or its own when that lane does not execute, as the lane sees that
register at issue; `vote` combines a predicate over the set; `redl` combines a register over the set or the prefix of it. Where the mask
differs, each raises MASKDIS (0x05) with the lowest differing lane as DETAIL. -/
def Obligations.LaneExchange : Prop :=
  (∀ gd t m (wl : Fin 6) d a b c s x, Issues s x (.shfl gd t m wl d a b c) → (x.r.gget c).truncate 32 = x.r.exec gd →
    let seg := 2 ^ wl.val
    let source := fun (l : Nat) =>
      let base := l - l % seg
      let y := (x.r.src32 b l).toNat
      let j := match m with
        | .pick => base + y % seg
        | .rot => base + (l % seg + y) % seg
        | .mir => base + (seg - 1 - l % seg + y) % seg
        | .xch => base + ((l % seg) ^^^ (y % seg))
      if (x.r.exec gd).getLsbD j then j else l
    ∃ (t' : State) (view : Nat → Nat), exec (.shfl gd t m wl d a b c) s = .next t' ∧
      Completes x t' t.regs (.v d) (x.r.exec gd) fun l => (x.k.seen (view l)).src t.regs (.v a) (source l)) ∧
  (∀ (k : Course) (n : Nat), k.shadows = [] → k.ops = [] → k.seen n = k) ∧
  (∀ gd m d a c s x, Issues s x (.vote gd (.pred m d) a c) → (x.r.gget c).truncate 32 = x.r.exec gd →
    let p := x.r.pget a
    let y : Bool := match m with
      | .all => decide (∀ l ∈ lanesIn (x.r.exec gd), p.getLsbD l = true)
      | .any => decide (∃ l ∈ lanesIn (x.r.exec gd), p.getLsbD l = true)
      | .odd => decide (((lanesIn (x.r.exec gd)).countP fun l => p.getLsbD l) % 2 = 1)
      | .same => decide (∀ l ∈ lanesIn (x.r.exec gd), ∀ j ∈ lanesIn (x.r.exec gd), p.getLsbD l = p.getLsbD j)
    ∃ t', exec (.vote gd (.pred m d) a c) s = .next t' ∧ ∃ k', SameButRegs x.k k' ∧ k'.flagShadows = x.k.flagShadows ∧
      KeepsP x.k k' d (x.r.exec gd) ∧
      (∀ l, (x.r.exec gd).getLsbD l = true → LandsP x.k k' d l y) ∧ Done x t' k' 1 (x.k.pc + 8)) ∧
  (∀ gd m d a c s x, Issues s x (.vote gd (.reg m d) a c) →
    let ex := x.r.exchangeSet gd (match d with | .g _ => true | .v _ => false)
    let y := ex &&& x.r.pget a
    (x.r.gget c).truncate 32 = ex →
    ∃ t', exec (.vote gd (.reg m d) a c) s = .next t' ∧ Completes x t' 1 d ex fun _ => match m with
      | .mask => y.zeroExtend 64
      | .count => BitVec.ofNat 64 ((List.range 32).countP fun l => y.getLsbD l)
      | .first => BitVec.ofNat 64 (((List.range 32).find? fun l => y.getLsbD l).getD 32)) ∧
  (∀ gd op scan d a c s x, Issues s x (.redl gd op scan d a c) →
    let ex := x.r.exchangeSet gd (match d with | .g _ => true | .v _ => false)
    (x.r.gget c).truncate 32 = ex →
    let lanes := fun (l : Nat) => (lanesIn ex).filter fun j => !scan || j ≤ l
    let ints := fun (n : NumTy) (l : Nat) => (lanes l).map fun j => x.r.int n a j
    let words := fun (t : BTy) (l : Nat) => (lanes l).map fun j => x.r.src t.regs a j
    ∃ t', exec (.redl gd op scan d a c) s = .next t' ∧ Completes x t' (redlNum op).regs d ex fun l => match op with
      | .add t => (numW t).result (ints (numW t) l).sum
      | .min t => (numW t).result ((ints (numW t) l).foldl min ((ints (numW t) l).headD 0))
      | .max t => (numW t).result ((ints (numW t) l).foldl max ((ints (numW t) l).headD 0))
      | .and t => lowBits (numB t).w ((words t l).foldl (· &&& ·) (BitVec.allOnes 64))
      | .or t => lowBits (numB t).w ((words t l).foldl (· ||| ·) 0)
      | .xor t => lowBits (numB t).w ((words t l).foldl (· ^^^ ·) 0)) ∧
  (∀ gd (c : GReg) i s x,
    let X := fun (toG : Bool) => x.r.exchangeSet gd toG
    let differs := fun (ex : LaneMask) => Issues s x i → (x.r.gget c).truncate 32 ≠ ex →
      Traps s x i 0x05 (lowestLane ((x.r.gget c).truncate 32 ^^^ ex)) 0
    (∀ t m wl d a b, i = .shfl gd t m wl d a b c → differs (X false)) ∧
    (∀ m d a, i = .vote gd (.pred m d) a c → differs (X false)) ∧
    (∀ m d a, i = .vote gd (.reg m d) a c → differs (X (match d with | .g _ => true | .v _ => false))) ∧
    (∀ op scan d a, i = .redl gd op scan d a c → differs (X (match d with | .g _ => true | .v _ => false))))

/-! ### Control -/

/-- R95, R161, R166, R171: `nop`, `dly`, `yield`, `tmask` and `region` complete. `dly n` adds n to the position and holds the next word
back for n cycles; `yield` keeps the course out of the next 8 cycles; `tmask` sets TM; `region` records REGION, RGSTATE and, in a guarded course, the wait of
1,024 cycles from the word before it; `region.end` clears RGSTATE.V. -/
def Obligations.SimpleControlCompletes : Prop :=
  (∀ s x, Issues s x .nop → Goes s x .nop x.k (x.k.pc + 8)) ∧
  (∀ n s x, Issues s x (.dly n) → ∃ t, exec (.dly n) s = .next t ∧ Done x t { x.k with hold := .dly (s.clk + n.val) } n (x.k.pc + 8)) ∧
  (∀ s x, Issues s x .yield → Goes s x .yield { x.k with hold := .yield (s.clk + 9) } (x.k.pc + 8)) ∧
  (∀ gd n s x, Issues s x (.tmask gd n) →
    Goes s x (.tmask gd n) (if x.r.uniform gd then { x.k with tm := n } else x.k) (x.k.pc + 8)) ∧
  (∀ s x, Issues s x (.region false) →
    Goes s x (.region false)
      { x.k with region := x.k.pc, regionAt := s.clk, rgstate := x.k.regionState,
                 ops := x.k.ops.map fun o => { o with inRegion := false },
                 hold := if x.t.items.guarded then .guard (x.k.lastIssue + 1024) else x.k.hold } (x.k.pc + 8)) ∧
  (∀ k : Course, k.frames.length ≤ 4 → k.div.length ≤ 32 →
    k.regionState.getLsbD 63 = true ∧ bits k.regionState.toNat 62 41 = 0 ∧ bits k.regionState.toNat 40 38 = k.frames.length ∧
    bits k.regionState.toNat 37 32 = k.div.length ∧ k.regionState.truncate 32 = k.lanes) ∧
  (∀ s x, Issues s x (.region true) →
    ∃ y : W64, y.getLsbD 63 = false ∧ y.truncate 63 = (x.k.rgstate.truncate 63 : BitVec 63) ∧
      Goes s x (.region true) { x.k with rgstate := y } (x.k.pc + 8))

/-- R42, R43, R160, R162: `bra` to T = pc + 8 × offset. No lane takes it: the next word follows. Every active lane takes it: the course
goes on at T. Else one path is pushed with the join address, and the other runs: the taken lanes at T, or, under `.u`, the rest at the
next word. Its faults are MISALIGN and PERM for a bad target, then DIVERGE without a join distance and DIVSTACK at 32 entries (that the
target comes first is the model's reading: log 73).
R159, R160, R163: `jmp`, `call`, `callr` and `ret` move the whole course to their target when every active lane's guard is true;
`call` and `callr` write the link pair and the new mask, `ret` takes the mask from the pair. -/
def Obligations.TransfersOfControl : Prop :=
  (∀ gd hint (off : BitVec 18) (join : BitVec 12) s x, Issues s x (.bra gd hint off join) →
     let i := Instr.bra gd hint off join
     let taken := x.r.exec gd
     let T : Int := x.k.pc.toNat + 8 * off.toInt
     let T' : Addr := BitVec.ofInt 57 T
     let J : Addr := x.k.pc + 8 * join.zeroExtend 57
     let rest := x.k.lanes &&& ~~~ taken
     (taken = 0 → Goes s x i x.k (x.k.pc + 8)) ∧
     (taken ≠ 0 → GoodTarget T → taken = x.k.lanes → Goes s x i x.k T') ∧
     (taken ≠ 0 → GoodTarget T → taken ≠ x.k.lanes → join ≠ 0 → x.k.div.length < 32 →
       (hint = .unlikely → Goes s x i { x.k with div := ⟨T', taken, J, false⟩ :: x.k.div, lanes := rest } (x.k.pc + 8)) ∧
       (hint ≠ .unlikely → Goes s x i { x.k with div := ⟨x.k.pc + 8, rest, J, false⟩ :: x.k.div, lanes := taken } T')) ∧
     (taken ≠ 0 → T % 8 = 0 → ¬ (0 ≤ T ∧ T < 2 ^ 57) → Traps s x i 0x13 0 (BitVec.ofInt 64 T)) ∧
     (taken ≠ 0 → T % 8 ≠ 0 → Traps s x i 0x02 0 (BitVec.ofInt 64 T)) ∧
     (taken ≠ 0 → GoodTarget T → taken ≠ x.k.lanes → join = 0 → Traps s x i 0x07 0 0) ∧
     (taken ≠ 0 → GoodTarget T → taken ≠ x.k.lanes → join ≠ 0 → 32 ≤ x.k.div.length → Traps s x i 0x08 0 0)) ∧
  ((∀ gd a s x, Issues s x (.jmp gd a) → WholeCourse x gd → GoodTarget (x.r.gget a).toNat →
     Goes s x (.jmp gd a) x.k ((x.r.gget a).truncate 57)) ∧
   (∀ gd d off mask s x, Issues s x (.call gd d off mask) → WholeCourse x gd →
     let T : Int := x.k.pc.toNat + 8 * (off : BitVec 18).toInt
     GoodTarget T → ∃ k', Linked x k' d mask ∧ Goes s x (.call gd d off mask) k' (BitVec.ofInt 57 T)) ∧
   (∀ gd d a mask s x, Issues s x (.callr gd d a mask) → WholeCourse x gd → GoodTarget (x.r.gget a).toNat →
     ∃ k', Linked x k' d mask ∧ Goes s x (.callr gd d a mask) k' ((x.r.gget a).truncate 57)) ∧
   (∀ gd a s x, Issues s x (.ret gd a) → WholeCourse x gd → (∀ j : Fin 16, 8 ≤ j.val → j.val ≤ 11 → x.k.tok[j].count = 0) →
     GoodTarget (x.r.gget a).toNat →
     Goes s x (.ret gd a)
       { x.k with tkmask := ((x.r.gget (a.val + 1)).truncate 16 &&& 0x0FFF) ||| (x.k.tkmask &&& 0xF000) } ((x.r.gget a).truncate 57)))

/-- R159, R160, R163: where `jmp`, `call`, `callr` and `ret` do not transfer: with no true guard they do nothing; with a guard that
differs they raise DIVERGE with the lowest active lane whose guard is false; `ret` raises TOKLEAK while t8 to t11 count; then a bad target
raises MISALIGN or PERM with FADDR the target.
R170: the faults of `rett`, the first that applies: no frame, a divergence stack below FDSP, a `bsync` record of this level, tokens
t12 to t15 above their snapshot, and a misaligned FPC. -/
def Obligations.TransferAndRettFaults : Prop :=
  ((∀ gd i s x, (∃ a, i = .jmp gd a) ∨ (∃ d off mask, i = .call gd d off mask) ∨ (∃ d a mask, i = .callr gd d a mask) ∨
       (∃ a, i = .ret gd a) → Issues s x i →
     (x.r.exec gd = 0 → Goes s x i x.k (x.k.pc + 8)) ∧
     (x.r.exec gd ≠ 0 → x.r.exec gd ≠ x.k.lanes → Traps s x i 0x07 (lowestLane (x.k.lanes &&& ~~~ x.r.exec gd)) 0)) ∧
   (∀ gd (a : GReg) i s x, i = .jmp gd a ∨ (∃ d mask, i = .callr gd d a mask) ∨
       i = .ret gd a ∧ (∀ j : Fin 16, 8 ≤ j.val → j.val ≤ 11 → x.k.tok[j].count = 0) → Issues s x i → WholeCourse x gd →
     ((x.r.gget a).toNat % 8 ≠ 0 → Traps s x i 0x02 0 (x.r.gget a)) ∧
     ((x.r.gget a).toNat % 8 = 0 → 2 ^ 57 ≤ (x.r.gget a).toNat → Traps s x i 0x13 0 (x.r.gget a))) ∧
   (∀ gd d (off : BitVec 18) mask s x, Issues s x (.call gd d off mask) → WholeCourse x gd →
     let T : Int := x.k.pc.toNat + 8 * off.toInt
     (T % 8 ≠ 0 → Traps s x (.call gd d off mask) 0x02 0 (BitVec.ofInt 64 T)) ∧
     (T % 8 = 0 → ¬ (0 ≤ T ∧ T < 2 ^ 57) → Traps s x (.call gd d off mask) 0x13 0 (BitVec.ofInt 64 T))) ∧
   (∀ gd a s x, Issues s x (.ret gd a) → WholeCourse x gd → (∃ j : Fin 16, 8 ≤ j.val ∧ j.val ≤ 11 ∧ x.k.tok[j].count ≠ 0) →
     Traps s x (.ret gd a) 0x0C 0 0)) ∧
  ((∀ s x, Issues s x .rett → x.k.frames = [] → Traps s x .rett 0x01 0x01 0) ∧
   (∀ s x f fs, Issues s x .rett → x.k.frames = f :: fs →
     let fdsp := bits f.words[1].toNat 21 16
     let fpc : Addr := f.words[0].truncate 57
     let held := ∃ b, x.k.bsync = some b ∧ b.tsp = x.k.frames.length
     let leak := ∃ j : Fin 16, 12 ≤ j.val ∧ f.tokCount j < x.k.tok[j].count.toNat
     (x.k.div.length < fdsp → Traps s x .rett 0x01 0x02 0) ∧
     (fdsp ≤ x.k.div.length → held → Traps s x .rett 0x01 0x03 0) ∧
     (fdsp ≤ x.k.div.length → ¬ held → leak → Traps s x .rett 0x0C 0 0) ∧
     (fdsp ≤ x.k.div.length → ¬ held → ¬ leak → fpc.toNat % 8 ≠ 0 → Traps s x .rett 0x02 0 (fpc.zeroExtend 64))))

/-- R44, R164: `bsync` makes the lanes of its mask meet. The last path to arrive goes on with every lane of the mask that has not exited,
and no record is left; an earlier one leaves its lanes in the record with no lane active. It raises MASKDIS when a record is pending at
another place or with another mask, or when an active lane lies outside the mask.
R56, R165: `exit` removes its lanes from the active mask, the divergence stack, the saved masks of the trap frames and a pending
`bsync`; the last lane's clears RGSTATE.V, or raises TOKLEAK while t8 to t11 count. -/
def Obligations.BsyncAndExit : Prop :=
  (∀ (c : GReg) s x, Issues s x (.bsync c) →
     let i := Instr.bsync c
     let m : LaneMask := (x.r.gget c).truncate 32
     let need := m &&& ~~~ x.k.exited
     let before : LaneMask := match x.k.bsync with | some b => b.arrived | none => 0
     let fits := ∀ b, x.k.bsync = some b → b.pc = x.k.pc ∧ b.tsp = x.k.frames.length ∧ b.mask = m
     (fits → x.k.lanes &&& ~~~ m = 0 → before ||| x.k.lanes = need →
       Goes s x i { x.k with lanes := need, bsync := none } (x.k.pc + 8)) ∧
     (fits → x.k.lanes &&& ~~~ m = 0 → before ||| x.k.lanes ≠ need →
       Goes s x i { x.k with bsync := some ⟨x.k.pc, m, before ||| x.k.lanes, x.k.frames.length⟩, lanes := 0 } x.k.pc) ∧
     (fits → x.k.lanes &&& ~~~ m ≠ 0 → Traps s x i 0x05 (lowestLane (x.k.lanes &&& ~~~ m)) 0) ∧
     (∀ b, x.k.bsync = some b → (b.pc ≠ x.k.pc ∨ b.tsp ≠ x.k.frames.length) → Traps s x i 0x05 32 0) ∧
     (∀ b, x.k.bsync = some b → b.pc = x.k.pc → b.tsp = x.k.frames.length → b.mask ≠ m → Traps s x i 0x05 (lowestLane (m ^^^ b.mask)) 0)) ∧
  (∀ gd s x, Issues s x (.exit gd) →
     let ex := x.r.exec gd
     let last := x.k.live &&& ~~~ ex = 0
     let leak := ∃ j : Fin 16, 8 ≤ j.val ∧ j.val ≤ 11 ∧ x.k.tok[j].count ≠ 0
     (ex = 0 → Goes s x (.exit gd) x.k (x.k.pc + 8)) ∧
     (ex ≠ 0 → ¬ (last ∧ leak) → ¬ (last ∧ x.k.rollbackPend = true) →
       ∃ k', Goes s x (.exit gd) k' (x.k.pc + 8) ∧ k'.lanes = x.k.lanes &&& ~~~ ex ∧ k'.exited = x.k.exited ||| ex ∧
         (∀ f ∈ k'.frames, (f.words[3].truncate 32 : LaneMask) &&& ex = 0) ∧ k'.frames.length = x.k.frames.length ∧
         (¬ last → k'.div = x.k.div.map (fun e => { e with mask := e.mask &&& ~~~ ex }) ∧
           k'.bsync = x.k.bsync.map (fun b => { b with arrived := b.arrived &&& ~~~ ex }) ∧ k'.rgstate = x.k.rgstate) ∧
         (last → k'.live = 0 ∧ k'.rgstate.getLsbD 63 = false) ∧
         { k' with lanes := x.k.lanes, exited := x.k.exited, frames := x.k.frames, div := x.k.div, bsync := x.k.bsync,
                   rgstate := x.k.rgstate } = x.k) ∧
     (ex ≠ 0 → last → leak → Traps s x (.exit gd) 0x0C 0 0))

/-- R50, R114, R116, R168: taking a trap. With a frame free and a handler named, the frame is pushed and the handler entered, and nothing
else changes; else the course is killed, with TRAPOVF (0x19) when four frames are open, with the trap's own cause when there is no
handler. -/
def Obligations.TrapEntryEffect : Prop :=
  ∀ (s : State) (x : Ctx) cause detail faddr asy, s.ctx? = some x →
    (CanTrap x → Entered x (trapEntry s x.c cause detail faddr asy) cause detail faddr asy) ∧
    (4 ≤ x.k.frames.length → trapEntry s x.c cause detail faddr asy =
      s.killCourse x.c (s.courseCause x.c 0x19 0 (x.k.pc.zeroExtend 64) faddr)) ∧
    (x.k.frames.length < 4 → x.t.items.handler = 0 → trapEntry s x.c cause detail faddr asy =
      s.killCourse x.c (s.courseCause x.c cause detail (x.k.pc.zeroExtend 64) faddr))

/-- R116, R167, R168, R170: `trap` and `brk` enter the handler with TRAPSW (0x18) or BRKPT (0x1A) and their number when the lowest
active lane's guard is true, and do nothing else otherwise; `rett` returns: PC, LANEMASK, TM, TKMASK and DIVSP come from the frame, which
is popped, and every shadow closes. -/
def Obligations.TrapWordsComplete : Prop :=
  (∀ gd n s x, Issues s x (.trap gd n) → x.r.uniform gd = true → CanTrap x →
    ∃ t, exec (.trap gd n) s = .next t ∧ Entered x t 0x18 n.toNat 0 false) ∧
  (∀ gd n s x, Issues s x (.brk gd n) → x.r.uniform gd = true → CanTrap x →
    ∃ t, exec (.brk gd n) s = .next t ∧ Entered x t 0x1A n.toNat 0 false) ∧
  (∀ gd n s x, Issues s x (.trap gd n) → x.r.uniform gd = false → Goes s x (.trap gd n) x.k (x.k.pc + 8)) ∧
  (∀ gd n s x, Issues s x (.brk gd n) → x.r.uniform gd = false → Goes s x (.brk gd n) x.k (x.k.pc + 8)) ∧
  (∀ s x f fs, Issues s x .rett → x.k.frames = f :: fs →
    let fdsp := bits f.words[1].toNat 21 16
    let fpc : Addr := f.words[0].truncate 57
    fdsp ≤ x.k.div.length → (∀ b, x.k.bsync = some b → b.tsp ≠ x.k.frames.length) →
    (∀ j : Fin 16, 12 ≤ j.val → x.k.tok[j].count.toNat ≤ f.tokCount j) → fpc.toNat % 8 = 0 →
    Goes s x .rett
      { x.k.closeShadows with lanes := f.words[3].truncate 32, div := x.k.div.drop (x.k.div.length - fdsp), tm := f.words[1].getLsbD 24,
                              tkmask := (f.words[3] >>> 32).truncate 16, frames := fs } fpc)

/-! ### The checks of every word -/

/-- R33, R38, R89, R92, R99, R183, R255: what stops a word before its own effect. The first check of R92 that fails raises its fault: ROLE for
a class outside the role, PRIV for a kernel-mode word in user mode, ILLEGAL_OP, TOKOWN for a token that TKMASK lacks. A word that is held back
leaves the state as it is. A late fault is raised in place of the word, and strict tracking raises UNDERWAIT or UNDERWRITE.
R89: `cntctl`, `tlbinv`, `fgset`, `hdlset` and `mtest` are the kernel-mode instructions, and a user-mode course that issues one (in a
role that has its class) raises PRIV (0x17). -/
def Obligations.ChecksOfEveryWord : Prop :=
  (∀ (i : Instr) (s : State) (x : Ctx), i.isWord = true → s.ctx? = some x →
     (roleAllows x.k.role i.opClass = false → Traps s x i 0x03 0 0) ∧
     (roleAllows x.k.role i.opClass = true → i.kernelMode = true → x.t.kernelMode = false → Traps s x i 0x17 0 0) ∧
     (roleAllows x.k.role i.opClass = true → (i.kernelMode = true → x.t.kernelMode = true) → i.wf = false → Traps s x i 0x01 0 0) ∧
     (∀ tk, roleAllows x.k.role i.opClass = true → (i.kernelMode = true → x.t.kernelMode = true) → i.wf = true → x.fits i = true →
       i.token = some tk → x.k.tkmask.getLsbD tk = false → Traps s x i 0x0B 0 0) ∧
     (x.rejects i = none → x.stalls i = true → exec i s = .next s) ∧
     (∀ f fs, x.rejects i = none → x.stalls i = false → deliversLate i = true → x.k.late = f :: fs →
       exec i s = .next (trapEntry (s.modCourse x.c fun k => { k with late := fs }) x.c f.cause f.detail f.faddr false)) ∧
     (x.rejects i = none → x.stalls i = false → (deliversLate i = true → x.k.late = []) → x.k.strict = true →
       (∃ n ∈ readNames i, n ∈ x.k.tracked) → Traps s x i 0x09 0 0) ∧
     (x.rejects i = none → x.stalls i = false → (deliversLate i = true → x.k.late = []) → x.k.strict = true →
       (∀ n ∈ readNames i, n ∉ x.k.tracked) → (∃ n ∈ writeNames i, n ∈ x.k.tracked) → Traps s x i 0x0A 0 0)) ∧
  ((∀ i : Instr, i.kernelMode = true ↔
     (∃ gd a b k, i = .cntctl gd a b k) ∨ (∃ gd m sc, i = .tlbinv gd m sc) ∨ (∃ gd o a, i = .fgset gd o a) ∨
     (∃ gd a b, i = .hdlset gd a b) ∨ (∃ gd tk d, i = .mtest gd tk d)) ∧
   (∀ (i : Instr) s x, i.kernelMode = true → s.ctx? = some x → roleAllows x.k.role i.opClass = true → x.t.kernelMode = false →
     Traps s x i 0x17 0 0))

/-! ### Special registers and service calls -/

/-- R110, R113, R117, R118, R172: `csrr` gives every executing lane the register's value at issue, cut to 32 bits under b32; an index without
a register raises ILLEGAL_OP, and a kernel-mode register in user mode PRIV. -/
def Obligations.CsrrReads : Prop :=
  ∀ gd t d (idx : BitVec 8) s x, Issues s x (.csrr gd t d idx) →
    let i := Instr.csrr gd t d idx
    let ex := x.r.execFor gd d
    let gives := fun (y : W64) => ∃ t', exec i s = .next t' ∧
      Completes x t' t.regs d ex fun _ => match t with | .b32 => (y.truncate 32 : W32).zeroExtend 64 | .b64 => y
    let tf := fun (n : Nat) => match x.k.frames with | [] => (0 : W64) | f :: _ => vat f.words n 0
    (ex = 0 → Goes s x i x.k (x.k.pc + 8)) ∧
    (idx = 0x00 → gives (x.k.pc.zeroExtend 64)) ∧ (idx = 0x01 → gives (x.k.lanes.zeroExtend 64)) ∧
    (idx = 0x02 → gives (BitVec.ofNat 64 x.k.tm.toNat)) ∧ (idx = 0x03 → gives (x.k.tkmask.zeroExtend 64)) ∧
    (idx = 0x04 → gives (BitVec.ofNat 64 x.k.strict.toNat)) ∧ (idx = 0x05 → gives (x.k.region.zeroExtend 64)) ∧
    (idx = 0x06 → gives (BitVec.ofNat 64 x.k.frames.length)) ∧ (idx = 0x07 → gives x.k.rgstate) ∧
    (idx = 0x08 → gives (tf 0)) ∧ (idx = 0x09 → gives (tf 1)) ∧ (idx = 0x0A → gives (tf 2)) ∧ (idx = 0x0B → gives (tf 3)) ∧
    (idx = 0x0C → gives (x.k.rowprog.zeroExtend 64)) ∧ (idx = 0x0D → gives (BitVec.ofNat 64 x.k.div.length)) ∧
    (idx = 0x0E → gives (x.k.ctxArea.zeroExtend 64)) ∧ (idx = 0x10 → gives (BitVec.ofNat 64 x.c.course)) ∧
    (idx = 0x11 → gives (BitVec.ofNat 64 x.t.index)) ∧ (idx = 0x12 → gives (BitVec.ofNat 64 x.t.spanPos)) ∧
    (idx = 0x13 → gives (x.k.role.zeroExtend 64)) ∧ (idx = 0x14 → gives (BitVec.ofNat 64 (x.t.core * 64 + x.k.slot))) ∧
    (idx = 0x18 → ∃ y : BitVec 5, gives (y.zeroExtend 64) ∧ x.k.fstat &&& ~~~ y = 0 ∧
      (x.k.flagShadows = [] → x.k.ops = [] → y = x.k.fstat)) ∧
    (idx = 0x19 → gives (x.k.rmode.zeroExtend 64)) ∧
    (idx = 0x1C → gives (BitVec.ofNat 64 s.clk - BitVec.ofNat 64 (s.core x.t.core).cyc0)) ∧ (idx = 0x1D → gives (BitVec.ofNat 64 x.t.vd)) ∧
    (x.t.kernelMode = true →
      (idx = 0x40 → gives 1) ∧ (idx = 0x41 → gives ((vat s.svrBase (dieOf x.t.core) 0).zeroExtend 64)) ∧
      (idx = 0x42 → gives ((vat s.svrHead (dieOf x.t.core) 0).zeroExtend 64)) ∧
      (idx = 0x43 → gives ((vat s.svrTail (dieOf x.t.core) 0).zeroExtend 64)) ∧
      (idx = 0x44 → gives ((s.core x.t.core).strkz.zeroExtend 64)) ∧ (idx = 0x45 → gives ((s.core x.t.core).mtint.zeroExtend 64))) ∧
    (ex ≠ 0 → 0x40 ≤ idx.toNat → idx.toNat ≤ 0x45 → x.t.kernelMode = false → Traps s x i 0x17 0 0) ∧
    (ex ≠ 0 → idx = 0x0F ∨ 0x15 ≤ idx.toNat ∧ idx.toNat ≤ 0x17 ∨ idx = 0x1A ∨ idx = 0x1B ∨ 0x1E ≤ idx.toNat ∧ idx.toNat < 0x40 ∨
      0x46 ≤ idx.toNat →
      Traps s x i 0x01 0 0)

/-- R110, R111, R113, R117, R118, R173: `csrw` of a register of the course writes it once, from the lowest active lane, when that lane's
guard is true: TM, TKMASK, STRICT, the words of the top frame, ROWPROG, FSTAT and RMODE; it does nothing when the guard is false there.
R118, R173: `csrw` of a kernel-mode register, in kernel mode: SVRBASE and SVRHEAD of the die, and MTINT of the core take the value,
STRKZ of the core loses the bits written as 1, and the read-only MODE and SVRTAIL raise ILLEGAL_OP; in user mode each raises PRIV. -/
def Obligations.CsrwWrites : Prop :=
  (∀ gd t (idx : BitVec 8) a s x, Issues s x (.csrw gd t idx a) →
     let i := Instr.csrw gd t idx a
     let y := x.r.src t.regs a (lowestLane x.k.lanes)
     let next := x.k.pc + 8
     (x.r.uniform gd = false → Goes s x i x.k next) ∧
     (x.r.uniform gd = true →
       (idx = 0x02 → Goes s x i { x.k with tm := y.getLsbD 0 } next) ∧
       (idx = 0x03 → (x.k.frames ≠ [] ∨ (y.truncate 16 : BitVec 16) &&& 0xF000 = 0) → Goes s x i { x.k with tkmask := y.truncate 16 } next) ∧
       (idx = 0x03 → x.k.frames = [] → (y.truncate 16 : BitVec 16) &&& 0xF000 ≠ 0 → Traps s x i 0x0B 0 0) ∧
       (idx = 0x04 → y.getLsbD 0 = false → Goes s x i { x.k with strict := false } next) ∧
       (idx = 0x04 → y.getLsbD 0 = true → ∃ k', k'.strict = true ∧ (x.k.strict = false → ∀ n, n ∉ k'.tracked) ∧
         (x.k.strict = true → k'.ops = x.k.ops) ∧ (∀ sh ∈ k'.shadows, sh.strict = false) ∧
         k'.shadows.length = x.k.shadows.length ∧ k'.ops.length = x.k.ops.length ∧
         { k' with strict := x.k.strict, shadows := x.k.shadows, ops := x.k.ops } = x.k ∧ Goes s x i k' next) ∧
       (0x08 ≤ idx.toNat → idx.toNat ≤ 0x0B → x.k.frames = [] → Traps s x i 0x01 0 0) ∧
       (∀ f fs, idx = 0x08 → x.k.frames = f :: fs → y >>> 57 = 0 → Goes s x i { x.k with frames := ⟨f.words.set 0 y⟩ :: fs } next) ∧
       (∀ f fs, idx = 0x09 → x.k.frames = f :: fs → y >>> 25 = 0 → y.getLsbD 22 = false →
         Goes s x i { x.k with frames := ⟨f.words.set 1 ((f.words[1] &&& 0x80FFFF) ||| (y &&& 0x13F0000))⟩ :: fs } next) ∧
       (∀ f fs, idx = 0x0A → x.k.frames = f :: fs → Goes s x i x.k next) ∧
       (∀ f fs, idx = 0x0B → x.k.frames = f :: fs → y >>> 48 = 0 → Goes s x i { x.k with frames := ⟨f.words.set 3 y⟩ :: fs } next) ∧
       (∀ f fs, x.k.frames = f :: fs → (idx = 0x08 ∧ y >>> 57 ≠ 0 ∨ idx = 0x09 ∧ (y >>> 25 ≠ 0 ∨ y.getLsbD 22 = true) ∨
         idx = 0x0B ∧ y >>> 48 ≠ 0) → Traps s x i 0x01 0 0) ∧
       (idx = 0x0C → (y.truncate 32 : W32) >>> 8 = 0 → (∀ o ∈ x.k.ops, o.mat = false ∨ o.fallen = true) →
         Goes s x i { x.k with rowprog := y.truncate 32, rowStart := true } next) ∧
       (idx = 0x0C → (y.truncate 32 : W32) >>> 8 ≠ 0 → Traps s x i 0x01 0 0) ∧
       (idx = 0x18 → x.k.flagShadows = [] → Goes s x i { x.k with fstat := y.truncate 5 } next) ∧
       (idx = 0x19 → Goes s x i { x.k with rmode := y.truncate 2 } next) ∧
       (idx = 0x00 ∨ idx = 0x01 ∨ 0x05 ≤ idx.toNat ∧ idx.toNat ≤ 0x07 ∨ 0x0D ≤ idx.toNat ∧ idx.toNat ≤ 0x17 ∨
         0x1A ≤ idx.toNat ∧ idx.toNat < 0x40 ∨ 0x46 ≤ idx.toNat → Traps s x i 0x01 0 0))) ∧
  (∀ gd t (idx : BitVec 8) a s x, Issues s x (.csrw gd t idx a) → x.r.uniform gd = true → 0x40 ≤ idx.toNat → idx.toNat ≤ 0x45 →
     let i := Instr.csrw gd t idx a
     let y := x.r.src t.regs a (lowestLane x.k.lanes)
     let die := dieOf x.t.core
     (x.t.kernelMode = false → Traps s x i 0x17 0 0) ∧
     (x.t.kernelMode = true →
       (idx = 0x41 → GoesWith s x i { s with svrBase := vput s.svrBase die (y.truncate 57) }) ∧
       (idx = 0x42 → GoesWith s x i { s with svrHead := vput s.svrHead die (y.truncate 11) }) ∧
       (idx = 0x44 → GoesWith s x i (s.modCore x.t.core fun c => { c with strkz := c.strkz &&& ~~~ (y.truncate 5) })) ∧
       (idx = 0x45 → GoesWith s x i (s.modCore x.t.core fun c => { c with mtint := y.truncate 32 })) ∧
       (idx = 0x40 ∨ idx = 0x43 → Traps s x i 0x01 0 0)))

/-- R46, R118, R174, R175: `sysc` writes the batch record of the executing lanes at SVRBASE + 2048 × (SVRTAIL mod 1,024) and SVRTAIL goes up by
1; its operation waits for the service and will write the result registers in the lanes of the record. With no executing lane it
completes at once. A guarded course holds its record back. The record holds 32 bytes of argument words for each lane, in lane order, after
a header of 64 bytes (the places of the header's fields are the model's free choice, log 13). -/
def Obligations.SyscWritesRecord : Prop :=
  ∀ gd tk d a na nr svc s x, Issues s x (.sysc gd tk d a na nr svc) →
    let i := Instr.sysc gd tk d a na nr svc
    let ex := x.r.exec gd
    let die := dieOf x.t.core
    let at_ := (vat s.svrBase die 0).toNat + 2048 * ((vat s.svrTail die 0).toNat % 1024)
    (ex = 0 → CountsOnly s x i (some tk)) ∧
    (ex ≠ 0 → x.t.items.guarded = false → ∃ (bytes : List Byte) (k1 : Course),
      bytes.length = 64 + 32 * laneCount ex ∧
      (∀ n l j, (lanesIn ex)[n]? = some l → j < 8 →
        bytesNat ((bytes.drop (64 + 32 * n + 4 * j)).take 4) = if j < na.val then (x.r.vget (a.val + j) l).toNat else 0) ∧
      CountsOn x.k k1 (some tk) .service (syscDests d nr ex) false false false ∧
      GoesWith s x i
        { s.setCourse x.c k1 with
            mem := writeBytes s.mem at_ bytes, memPsn := psnWrite s.memPsn at_ bytes.length false, svrTail := vput s.svrTail die (vat s.svrTail die 0 + 1),
            svcRecs := vput s.svcRecs die (vat s.svcRecs die [] ++ [some (x.c, x.k.nextOp)]) }) ∧
    (ex ≠ 0 → x.t.items.guarded = true → ∃ (bytes : List Byte) (k1 : Course),
      CountsOn x.k k1 (some tk) .service (syscDests d nr ex) false false false ∧
      Goes s x i { k1 with quarantine := x.k.quarantine ++
        [⟨.service (if die = 0 then 0 else 1) bytes, s.clk, some x.k.nextOp, s.nextId⟩] } (x.k.pc + 8))

/-! ### Tokens, counters, generations -/

/-- R180, R193, R236, R255: a `waitt` whose guard is true in the lowest active lane waits while its token counts more than `n`; then it
covers every operation of the token but the `n` youngest: they are done with, an acquire among them takes effect; where one of them
ended in a fault, that of the operation issued first is raised at the `waitt`.
R182: `tkst` writes the count of the token in bits [5:0] and its status in bits [15:8]; with `.clr` the status is then OK. -/
def Obligations.TokensWaitedAndRead : Prop :=
  (∀ gd tk n s x, Issues s x (.waitt gd tk n) →
     let i := Instr.waitt gd tk n
     let mine := x.k.ops.filter fun o => o.tk == tk
     let cov := mine.take (mine.length - n.val)
     let left : Course := { x.k with ops := x.k.ops.filter fun o => !(cov.map (·.id)).contains o.id }
     (x.r.uniform gd = false → Goes s x i x.k (x.k.pc + 8)) ∧
     (x.r.uniform gd = true → n.val < x.k.tok[tk].count.toNat → exec i s = .next (s.setCourse x.c { x.k with stalled := true })) ∧
     (x.r.uniform gd = true → x.k.tok[tk].count.toNat ≤ n.val → (∀ o ∈ cov, o.fault = none) →
       GoesWith s x i
         (let s1 := s.setCourse x.c left
          let s2 := if cov.any (·.acq) then s1.modTruss x.c.truss fun t => t.observe x.c.course else s1
          if cov.any (·.inval) then s2.invalidateL1 x.t.core else s2)) ∧
     (∀ as o bs f, x.r.uniform gd = true → x.k.tok[tk].count.toNat ≤ n.val → cov = as ++ o :: bs → (∀ p ∈ as, p.fault = none) → o.fault = some f →
       exec i s = .next (trapEntry (s.setCourse x.c (x.k.modOp o.id fun o => { o with fault := none })) x.c f.cause f.detail f.faddr false))) ∧
  (∀ gd tk clr d s x, Issues s x (.tkst gd tk clr d) →
     ∃ k1, SameButRegs x.k k1 ∧ k1.flagShadows = x.k.flagShadows ∧
       Lands x.k k1 2 (.g d) (x.r.execFor gd (.g d))
         (fun _ => BitVec.ofNat 64 (x.k.tok[tk].count.toNat + 256 * x.k.tok[tk].status.toNat)) ∧
       Goes s x (.tkst gd tk clr d)
         (if x.r.uniform gd && clr then { k1 with tok := k1.tok.set tk { k1.tok[tk] with status := 0 } } else k1) (x.k.pc + 8))

/-- R195, R196, R198 to R200: `genrd` reads the generation of the course's space, `cntrd` a meter of its virtual device, or in kernel mode an
event counter of its core; a user-mode read of an event counter raises PRIV, and an index without a counter ILLEGAL_OP. `cntctl` sets an
event counter's value and control; a reserved bit or an event code above 9 raises ILLEGAL_OP with DETAIL 0x20. -/
def Obligations.CountersReadAndSet : Prop :=
  (∀ gd d s x, Issues s x (.genrd gd d) →
    ∃ t', exec (.genrd gd d) s = .next t' ∧ Completes x t' 1 d (x.r.execFor gd d) fun _ =>
      (if x.t.kernelMode then s.pfGen else match s.vdev? x.t.vd with | some v => v.gen | none => 0).zeroExtend 64) ∧
  (∀ gd t d (idx : BitVec 8) s x, Issues s x (.cntrd gd t d idx) →
    let i := Instr.cntrd gd t d idx
    let ex := x.r.execFor gd d
    let gives := fun (y : W64) => ∃ t', exec i s = .next t' ∧
      Completes x t' t.regs d ex fun _ => match t with | .b32 => (y.truncate 32 : W32).zeroExtend 64 | .b64 => y
    (ex = 0 → Goes s x i x.k (x.k.pc + 8)) ∧
    (∀ v, x.t.kernelMode = false → s.vdev? x.t.vd = some v → idx.toNat < 10 → gives (vat v.meters idx.toNat 0)) ∧
    (x.t.kernelMode = true → 0x10 ≤ idx.toNat → idx.toNat ≤ 0x17 →
      gives ((vat (s.core x.t.core).ec (idx.toNat - 0x10) ⟨0, 0⟩).value.zeroExtend 64)) ∧
    (ex ≠ 0 → x.t.kernelMode = false → 0x10 ≤ idx.toNat → idx.toNat ≤ 0x17 → Traps s x i 0x17 0 0) ∧
    (ex ≠ 0 → 10 ≤ idx.toNat ∧ idx.toNat < 0x10 ∨ 0x18 ≤ idx.toNat → Traps s x i 0x01 0 0)) ∧
  (∀ gd a b k s x, Issues s x (.cntctl gd a b k) →
    let i := Instr.cntctl gd a b k
    let w := x.r.gget a
    (x.r.uniform gd = false → Goes s x i x.k (x.k.pc + 8)) ∧
    (x.r.uniform gd = true → w >>> 16 = 0 → bits w.toNat 7 0 ≤ 9 →
      GoesWith s x i (s.modCore x.t.core fun c => { c with ec := c.ec.set k ⟨(x.r.gget b).truncate 48, w.truncate 16⟩ })) ∧
    (x.r.uniform gd = true → (w >>> 16 ≠ 0 ∨ 9 < bits w.toNat 7 0) → Traps s x i 0x01 0x20 0))

/-! ### Barriers -/

/-- R45, R187 to R192, R442: `barinit`, `bararv`, `barxb` and `barinv`. `bararv` fixes the mask and adds the course; `barxb` adds bytes to
expect; each then tests whether the phase is complete; `barinit` makes a barrier valid, `barinv` not valid, waking its waiters with
INVALID. A course under the guarded bit makes the same checks and holds the operation back. -/
def Obligations.BarrierWordsComplete : Prop :=
  (∀ gd (b : Fin 16) s x, x.t.items.guarded = true → x.k.quarantine = [] → x.r.uniform gd = true →
    let y := x.t.bars[b]
    (Issues s x (.barinit gd b) → y.valid = false → GoesWith s x (.barinit gd b) (HeldBack x (.barinit b))) ∧
    (∀ a, Issues s x (.bararv gd b a) →
      let m : BitVec 16 := (x.r.gget a).truncate 16
      y.valid = true → m &&& ~~~ x.t.courseMask = 0 → (y.fixed = true → m = y.mask) → m.getLsbD x.c.course = true →
      y.arrived.getLsbD x.c.course = false → GoesWith s x (.bararv gd b a) (HeldBack x (.arrive b m))) ∧
    (∀ a, Issues s x (.barxb gd b a) →
      let n : W32 := (x.r.gget a).truncate 32
      y.valid = true → y.pend.toInt + (n.toNat : Int) ≤ 2 ^ 31 - 1 → GoesWith s x (.barxb gd b a) (HeldBack x (.expect b n))) ∧
    (Issues s x (.barinv gd b) → GoesWith s x (.barinv gd b) (HeldBack x (.barinv b)))) ∧
  ∀ gd (b : Fin 16) s x, x.t.items.guarded = false → x.k.quarantine = [] → x.r.uniform gd = true →
    let y := x.t.bars[b]
    (Issues s x (.barinit gd b) → y.valid = false →
      GoesWith s x (.barinit gd b) (s.setTruss x.c.truss { x.t with bars := x.t.bars.set b ⟨true, 0, 0, 0, false, 0⟩ })) ∧
    (∀ a, Issues s x (.bararv gd b a) →
      let m : BitVec 16 := (x.r.gget a).truncate 16
      y.valid = true → m &&& ~~~ x.t.courseMask = 0 → (y.fixed = true → m = y.mask) → m.getLsbD x.c.course = true →
      y.arrived.getLsbD x.c.course = false →
      ∃ u, BarBecomes x.t u b { y with mask := m, fixed := true, arrived := y.arrived ||| BitVec.ofNat 16 (2 ^ x.c.course) } ∧
        (x.t.tabPend = [] → u.tabPend = []) ∧ GoesWith s x (.bararv gd b a) (s.setTruss x.c.truss u)) ∧
    (∀ a, Issues s x (.barxb gd b a) →
      let n : W32 := (x.r.gget a).truncate 32
      y.valid = true → y.pend.toInt + (n.toNat : Int) ≤ 2 ^ 31 - 1 →
      ∃ u, BarBecomes x.t u b { y with pend := y.pend + n } ∧ u.tabPend = x.t.tabPend ∧
        GoesWith s x (.barxb gd b a) (s.setTruss x.c.truss u)) ∧
    (Issues s x (.barinv gd b) →
      GoesWith s x (.barinv gd b) (s.setTruss x.c.truss { x.t with
        bars := x.t.bars.set b { y with valid := false, mask := 0, arrived := 0, fixed := false, pend := 0 },
        courses := x.t.courses.map fun k => k.wakeBar b 2 }))

/-- R45, R187, R190 to R192: the BARMASK faults (0x04) of `barinit`, `bararv` and `barxb`, the first that applies; with the guard false in the
lowest active lane each barrier word does nothing. -/
def Obligations.BarrierFaults : Prop :=
  ∀ gd (b : Fin 16) s x, x.k.quarantine = [] →
    let y := x.t.bars[b]
    (∀ i, (i = .barinit gd b ∨ (∃ a, i = .bararv gd b a) ∨ (∃ a, i = .barxb gd b a) ∨ i = .barinv gd b) → Issues s x i →
      x.r.uniform gd = false → Goes s x i x.k (x.k.pc + 8)) ∧
    (x.r.uniform gd = true → Issues s x (.barinit gd b) → y.valid = true → Traps s x (.barinit gd b) 0x04 0x03 0) ∧
    (∀ a, x.r.uniform gd = true → Issues s x (.bararv gd b a) →
      let i := Instr.bararv gd b a
      let m : BitVec 16 := (x.r.gget a).truncate 16
      (y.valid = false → Traps s x i 0x04 0x02 0) ∧
      (y.valid = true → m &&& ~~~ x.t.courseMask ≠ 0 → Traps s x i 0x04 0x05 0) ∧
      (y.valid = true → m &&& ~~~ x.t.courseMask = 0 → y.fixed = true → m ≠ y.mask → Traps s x i 0x04 0x00 0) ∧
      (y.valid = true → m &&& ~~~ x.t.courseMask = 0 → (y.fixed = true → m = y.mask) → m.getLsbD x.c.course = false →
        Traps s x i 0x04 0x01 0) ∧
      (y.valid = true → m &&& ~~~ x.t.courseMask = 0 → (y.fixed = true → m = y.mask) → m.getLsbD x.c.course = true →
        y.arrived.getLsbD x.c.course = true → Traps s x i 0x04 0x04 0)) ∧
    (∀ a, x.r.uniform gd = true → Issues s x (.barxb gd b a) →
      (y.valid = false → Traps s x (.barxb gd b a) 0x04 0x02 0) ∧
      (y.valid = true → 2 ^ 31 - 1 < y.pend.toInt + (((x.r.gget a).truncate 32 : W32).toNat : Int) → Traps s x (.barxb gd b a) 0x04 0x06 0))

/-- R193: `barwait` gives gD its status: 1 while ABN is set, which it clears, 2 on a barrier that is not valid, 0 when the course has no
arrival in the current phase; else the blocking form begins to wait and the `.tk` form's operation waits. `bartest` reads PHASE, DONE, ABN
and V. A status of 0 and DONE = 1 are acquires at truss scope. With the guard false in the lowest active lane each does nothing, but that
the token of the `.tk` form completes. -/
def Obligations.BarrierWaits : Prop :=
  (∀ gd (b : Fin 16) (d : GReg) s x, x.r.uniform gd = false →
    (Issues s x (.barwait gd b d none) → Goes s x (.barwait gd b d none) x.k (x.k.pc + 8)) ∧
    (∀ tk, Issues s x (.barwait gd b d (some tk)) → CountsOnly s x (.barwait gd b d (some tk)) (some tk)) ∧
    (Issues s x (.bartest gd b d) → Goes s x (.bartest gd b d) x.k (x.k.pc + 8))) ∧
  ∀ gd (b : Fin 16) (d : GReg) s x, x.k.quarantine = [] → x.r.uniform gd = true →
    let y := x.t.bars[b]
    let inv := decide (1 < x.t.items.span)
    let status : Option W64 := if x.k.abn then some 1 else if !y.valid then some 2 else if !y.arrived.getLsbD x.c.course then some 0 else none
    let calm : Course := if x.k.abn then { x.k with abn := false } else x.k
    let acquire := fun (s' : State) => (let s1 := s'.modTruss x.c.truss fun t => t.observe x.c.course
                                        if inv then s1.invalidateL1 x.t.core else s1)
    (Issues s x (.barwait gd b d none) → x.k.barWoke = none →
      (∀ st, status = some st → ∃ k1, SameButRegs calm k1 ∧ k1.flagShadows = x.k.flagShadows ∧ Lands x.k k1 2 (.g d) 1 (fun _ => st) ∧
        GoesWith s x (.barwait gd b d none) (if st = 0 then acquire (s.setCourse x.c k1) else s.setCourse x.c k1)) ∧
      (status = none → exec (.barwait gd b d none) s = .next (s.setCourse x.c { x.k with barBlocked := some b }))) ∧
    (∀ st, Issues s x (.barwait gd b d none) → x.k.barWoke = some st →
      ∃ k1, SameButRegs { x.k with barWoke := none } k1 ∧ k1.flagShadows = x.k.flagShadows ∧ Lands x.k k1 2 (.g d) 1 (fun _ => st) ∧
        GoesWith s x (.barwait gd b d none) (if st = 0 then acquire (s.setCourse x.c k1) else s.setCourse x.c k1)) ∧
    (∀ tk, Issues s x (.barwait gd b d (some tk)) →
      (∀ st, status = some st → ∃ k1, CountsOn calm k1 (some tk) .nothing [.g d st] false (st == 0) (inv && st == 0) ∧
        Goes s x (.barwait gd b d (some tk)) k1 (x.k.pc + 8)) ∧
      (status = none → ∃ k1, CountsOn x.k k1 (some tk) (.barrier b) [.g d 0] false true inv ∧
        Goes s x (.barwait gd b d (some tk)) k1 (x.k.pc + 8))) ∧
    (Issues s x (.bartest gd b d) →
      let done := !y.arrived.getLsbD x.c.course
      ∃ k1, SameButRegs x.k k1 ∧ k1.flagShadows = x.k.flagShadows ∧ Lands x.k k1 2 (.g d) 1 (fun _ =>
          BitVec.ofNat 64 (y.phase.toNat + done.toNat * 2 ^ 16 + x.k.abn.toNat * 2 ^ 17 + y.valid.toNat * 2 ^ 18)) ∧
        GoesWith s x (.bartest gd b d) (if done then acquire (s.setCourse x.c k1) else s.setCourse x.c k1))

/-! ### Tables -/

/-- R204, R205, R207: `lyset` writes one field of a layout entry, or sets the entry to 0; `lyget` reads a field. Every other entry and every
bit outside the field keeps its value.
R207, R212: `tplset` and `tplget` do the same for copy templates. -/
def Obligations.LayoutAndTemplateWordsComplete : Prop :=
  ((∀ gd n sel a s x, Issues s x (.lyset gd n (.field sel) a) → x.r.uniform gd = true → x.t.tabPend = [] →
     lyLegal sel (x.r.gget a).toNat = true →
     let e := tget Layout.zero x.t.layouts n
     ∃ u e', fieldsOf (lyFields sel) e' = (x.r.gget a).toNat ∧ KeepsBits (lyFields sel) e e' ∧
       u.layouts = tset Layout.zero x.t.layouts n e' ∧ (∀ w ∈ u.tabPend, w.tpl = false ∧ w.n = n.val ∧ w.writer = x.c.course) ∧
       { u with layouts := x.t.layouts, tabPend := [] } = x.t ∧
       GoesWith s x (.lyset gd n (.field sel) a) (s.setTruss x.c.truss u)) ∧
   (∀ gd n a s x, Issues s x (.lyset gd n .clear a) → x.r.uniform gd = true → x.t.tabPend = [] →
     ∃ u, u.layouts = tset Layout.zero x.t.layouts n Layout.zero ∧ { u with layouts := x.t.layouts, tabPend := [] } = x.t ∧
       GoesWith s x (.lyset gd n .clear a) (s.setTruss x.c.truss u)) ∧
   (∀ gd n op a s x, Issues s x (.lyset gd n op a) → x.r.uniform gd = false → Goes s x (.lyset gd n op a) x.k (x.k.pc + 8)) ∧
   (∀ gd n sel a s x, Issues s x (.lyset gd n (.field sel) a) → x.r.uniform gd = true → lyLegal sel (x.r.gget a).toNat = false →
     Traps s x (.lyset gd n (.field sel) a) 0x16 (0x10 + lyCode sel) 0) ∧
   (∀ gd d n sel s x, Issues s x (.lyget gd d n sel) → x.t.tabPend = [] →
     ∃ t', exec (.lyget gd d n sel) s = .next t' ∧ Completes x t' 2 (.g d) (x.r.execFor gd (.g d)) fun _ =>
       BitVec.ofNat 64 (fieldsOf (lyFields sel) (tget Layout.zero x.t.layouts n)))) ∧
  ((∀ gd n sel a s x, Issues s x (.tplset gd n (.field sel) a) → x.r.uniform gd = true → x.t.tabPend = [] →
     tplLegal sel (x.r.gget a).toNat = true →
     let e := tget tplZero x.t.tpls n
     ∃ u e', fieldsOf (tplFields sel) e' = (x.r.gget a).toNat ∧ KeepsBits (tplFields sel) e e' ∧
       u.tpls = tset tplZero x.t.tpls n e' ∧ (∀ w ∈ u.tabPend, w.tpl = true ∧ w.n = n.val ∧ w.writer = x.c.course) ∧
       { u with tpls := x.t.tpls, tabPend := [] } = x.t ∧
       GoesWith s x (.tplset gd n (.field sel) a) (s.setTruss x.c.truss u)) ∧
   (∀ gd n a s x, Issues s x (.tplset gd n .clear a) → x.r.uniform gd = true → x.t.tabPend = [] →
     ∃ u, u.tpls = tset tplZero x.t.tpls n tplZero ∧ { u with tpls := x.t.tpls, tabPend := [] } = x.t ∧
       GoesWith s x (.tplset gd n .clear a) (s.setTruss x.c.truss u)) ∧
   (∀ gd n op a s x, Issues s x (.tplset gd n op a) → x.r.uniform gd = false → Goes s x (.tplset gd n op a) x.k (x.k.pc + 8)) ∧
   (∀ gd n sel a s x, Issues s x (.tplset gd n (.field sel) a) → x.r.uniform gd = true → tplLegal sel (x.r.gget a).toNat = false →
     Traps s x (.tplset gd n (.field sel) a) 0x16 (0x10 + tplCode sel) 0) ∧
   (∀ gd d n sel s x, Issues s x (.tplget gd d n sel) → x.t.tabPend = [] →
     ∃ t', exec (.tplget gd d n sel) s = .next t' ∧ Completes x t' 2 (.g d) (x.r.execFor gd (.g d)) fun _ =>
       BitVec.ofNat 64 (fieldsOf (tplFields sel) (tget tplZero x.t.tpls n))))

/-- R213, R214, R220, R221, R468: `tlbinv` drops the TLB entries of its scope that hold the page, the space, or any page, and notes the
accesses in flight that used them; `fgset` holds or opens the gate of a space on the course's die; `hdlset` binds the handler table of the
launch of the course whose batch record the service course has taken, for its trusses and for those still to come. A space above 512
raises ILLEGAL_OP; so does `hdlset` without a record, and a count above 256; a table that is not aligned raises MISALIGN. With the guard
false in the lowest active lane each does nothing. -/
def Obligations.KernelTableWordsComplete : Prop :=
  (∀ gd i s x, (∃ m sc, i = .tlbinv gd m sc) ∨ (∃ opn a, i = .fgset gd opn a) ∨ (∃ a b, i = .hdlset gd a b) → Issues s x i →
    x.r.uniform gd = false → Goes s x i x.k (x.k.pc + 8)) ∧
  (∀ gd m sc s x, Issues s x (.tlbinv gd m sc) → x.r.uniform gd = true →
    let space := fun (b : GReg) => (x.r.gget b).toNat % 1024
    let drops := fun (p : TlbEntry → Bool) => ∃ fl : List (Nat × Nat),
      GoesWith s x (.tlbinv gd m sc)
        (({ s with tlbs := s.tlbs.filter fun e => !p e } : State).setCourse x.c { x.k with inval := x.k.inval ++ fl }) ∧
      ∀ e ∈ s.tlbs, p e = true → e.first = true → ∀ a ∈ s.accesses, a.scratch = false → ∀ (j : Nat) q u pa gen host,
        a.parts[j]? = some q → s.truss? a.who.truss = some u → u.core = e.unit → u.space = e.space → e.va ≤ q.va → q.va < e.va + e.size →
        q.phase = .ready pa gen host → (a.id, j) ∈ fl
    (m = .all → drops fun e => e.inScope x.t.core sc) ∧
    (∀ b, m = .space b → space b ≤ 512 → drops fun e => e.inScope x.t.core sc && e.space == space b) ∧
    (∀ a b, m = .page a b → space b ≤ 512 → drops fun e => e.inScope x.t.core sc && (e.space == space b && decide (e.va ≤ (x.r.gget a).toNat) &&
      decide ((x.r.gget a).toNat < e.va + e.size))) ∧
    (∀ b, (m = .space b ∨ ∃ a, m = .page a b) → 512 < space b → Traps s x (.tlbinv gd m sc) 0x01 0 0)) ∧
  (∀ gd opn a s x, Issues s x (.fgset gd opn a) → x.r.uniform gd = true →
    let space := (x.r.gget a).toNat % 1024
    (space ≤ 512 → GoesWith s x (.fgset gd opn a) { s with gates := tset false s.gates (513 * dieOf x.t.core + space) (!opn) }) ∧
    (512 < space → Traps s x (.fgset gd opn a) 0x01 0 0)) ∧
  (∀ gd a b s x, Issues s x (.hdlset gd a b) → x.r.uniform gd = true →
    let base := (x.r.gget a).toNat
    let cnt := (x.r.gget b).toNat
    let holds := fun (u : Truss) => ∃ r, tget? (vat s.svcTaken (dieOf x.t.core) []) x.c.course = some r ∧ s.truss? r.1.truss = some u
    let bound := fun (i : LaunchItems) => { i with tblBase := base % 2 ^ 57, tblCnt := cnt }
    (∀ u, holds u → base % 8 = 0 → cnt ≤ 256 →
      GoesWith s x (.hdlset gd a b) { s with
        trusses := s.trusses.map fun t => if t.launch = u.launch then { t with items := bound t.items } else t,
        launches := s.launches.modify u.launch fun l => { l with items := bound l.items } }) ∧
    (∀ u, holds u → base % 8 ≠ 0 → Traps s x (.hdlset gd a b) 0x02 0 (x.r.gget a)) ∧
    (∀ u, holds u → base % 8 = 0 → 256 < cnt → Traps s x (.hdlset gd a b) 0x01 0 0) ∧
    (tget? (vat s.svcTaken (dieOf x.t.core) []) x.c.course = none → Traps s x (.hdlset gd a b) 0x01 0 0))

/-! ### Memory words -/

/-- R88, R252, R253, R255, R258, R259, R261, R262, R442: a global memory word (`ld`, `st`, `atom`, `red`, `ldc`, `acp`), or a scratchpad word
(`lds`, `sts`, `atoms`) that is held back or goes to another member of the span, sends its access: one part for each executing lane, two
for 16 bytes, with the lane's address and data; it counts on its token until the access is performed. With no executing lane it sends
none and its token completes. -/
def Obligations.MemoryWordsSend : Prop :=
  ∀ (i : Instr) (w : MemWord) s x, x.memWord i = some w → Issues s x i →
    (w.lanes = 0 → CountsOnly s x i w.tk) ∧
    (w.lanes ≠ 0 → (∀ l ∈ lanesIn w.lanes, x.laneOk i w l) →
      (w.scratch = false ∨ x.t.items.guarded = true ∨ ∃ p ∈ w.parts, p.va / 2 ^ 32 ≠ x.t.spanPos) → Sends s x i w)

/-- R235, R253, R254, R261: the checks of a memory word at issue, each over the executing lanes in ascending order: MISALIGN with the lane
as DETAIL; then PERM, 0xA5 for a global address outside 57 bits, 0xA0 beyond the portion, 0xA2 beyond the span. FADDR is the lane's
address; under 0xA0 it is the offset in the portion. The destination offsets of `acp` are checked after its addresses in the same way. -/
def Obligations.MemoryWordFaults : Prop :=
  ∀ (i : Instr) (w : MemWord) s x as l bs, x.memWord i = some w → Issues s x i → lanesIn w.lanes = as ++ l :: bs →
    let fa := BitVec.ofNat 64 (w.ea l)
    let aligned := ∀ m ∈ lanesIn w.lanes, w.ea m % w.size = 0
    ((∀ m ∈ as, w.ea m % w.size = 0) → w.ea l % w.size ≠ 0 → Traps s x i 0x02 l fa) ∧
    (w.scratch = false → aligned → (∀ m ∈ as, w.ea m < 2 ^ 57) → 2 ^ 57 ≤ w.ea l → Traps s x i 0x13 0xA5 fa) ∧
    (w.scratch = true → w.ssc = false → aligned → (∀ m ∈ as, w.ea m < x.t.portion) → x.t.portion ≤ w.ea l → Traps s x i 0x13 0xA0 fa) ∧
    (w.scratch = true → w.ssc = true → aligned → (∀ m ∈ lanesIn w.lanes, w.ea m % 2 ^ 32 < x.t.portion ∧ w.ea m < 2 ^ 35) →
      (∀ m ∈ as, w.ea m / 2 ^ 32 < x.t.items.span) → x.t.items.span ≤ w.ea l / 2 ^ 32 → Traps s x i 0x13 0xA2 fa) ∧
    (w.scratch = true → w.ssc = true → aligned → (∀ m ∈ as, w.ea m % 2 ^ 32 < x.t.portion ∧ w.ea m < 2 ^ 35) →
      (x.t.portion ≤ w.ea l % 2 ^ 32 ∨ 2 ^ 35 ≤ w.ea l) → Traps s x i 0x13 0xA0 (BitVec.ofNat 64 (w.ea l % 2 ^ 32))) ∧
    (∀ gd tk d m z bar, i = .acp gd tk d m z bar → aligned → (∀ n ∈ lanesIn w.lanes, w.ea n < 2 ^ 57) →
      let off := fun (n : Nat) => (x.r.vget d n).toNat
      let offset := BitVec.ofNat 64 (off l)
      ((∀ n ∈ as, off n % aszBytes z = 0) → off l % aszBytes z ≠ 0 → Traps s x i 0x02 l offset) ∧
      ((∀ n ∈ lanesIn w.lanes, off n % aszBytes z = 0) → (∀ n ∈ as, off n < x.t.portion) → x.t.portion ≤ off l →
        Traps s x i 0x13 0xA0 offset))

/-- R233, R235, R257, R264, R309: an access of `lds`, `sts` or `atoms` to the truss's own scratchpad, with nothing outstanding, is
performed at issue: its parts are performed in ascending lane order, each reading what the ones before have left; its operation is complete
with the values read. -/
def Obligations.ScratchpadPerforms : Prop :=
  ∀ (i : Instr) (w : MemWord) s x, x.memWord i = some w → Issues s x i → w.scratch = true → w.lanes ≠ 0 →
    (∀ l ∈ lanesIn w.lanes, x.laneOk i w l) → x.t.items.guarded = false → (∀ p ∈ w.parts, p.va / 2 ^ 32 = x.t.spanPos) →
    s.accesses = [] → s.proms = [] → s.early = [] → x.k.ops = [] → Performs s x i w

/-- R270, R271: `ldl` and `stl` with a good entry: one part for each byte run of each element of the executing lanes; a global entry, or one in
another member's scratchpad, sends the access; one in the truss's own scratchpad is performed at issue when nothing is outstanding. A bad
entry or element raises LAYOUT, and odd registers with a 64-bit format ILLEGAL_OP. -/
def Obligations.LayoutElementsComplete : Prop :=
  ∀ (i : Instr) gd tk d o (store : Bool) s x,
    (store = false ∧ (∃ t, tk = some t ∧ i = .ldl gd t d o) ∨ store = true ∧ i = .stl gd tk d o) → Issues s x i →
    let ex := x.r.exec gd
    let regs := o.nr.val + 1
    let e := x.t.layout x.s.tick x.c.course o.l
    let idx := ((lanesIn ex).map fun l => (List.range (layElems e.bits regs)).map fun j => (l, j)).flatten
    let coord := fun (p : Nat × Nat) => x.r.layCoord o (layElems e.bits regs) p.1 p.2
    let w : MemWord :=
      { tk := tk, kind := if store then .store else .load, scratch := e.space ≠ 0, ssc := e.space = 2, lanes := ex, ea := fun _ => 0, size := 1,
        land_ := if store then .none else .lay d e.bits regs o.row,
        parts := (idx.map fun p => e.elemParts x.t.spanPos p.1 p.2 (coord p)
          (if store then some (x.r.layCode d e.bits p.1 p.2) else none)).flatten }
    (ex = 0 → CountsOnly s x i tk) ∧
    (∀ detail fa, ex ≠ 0 → e.check x.t.items.span = some (detail, fa) → Traps s x i 0x16 detail fa) ∧
    (ex ≠ 0 → e.check x.t.items.span = none → e.bits = 64 → d.val % 2 ≠ 0 ∨ regs % 2 ≠ 0 → Traps s x i 0x01 0 0) ∧
    (ex ≠ 0 → e.check x.t.items.span = none → (e.bits = 64 → d.val % 2 = 0 ∧ regs % 2 = 0) →
      (∀ as p bs detail fa, idx = as ++ p :: bs → (∀ q ∈ as, e.elemFault x.t.portion (coord q) = none) →
        e.elemFault x.t.portion (coord p) = some (detail, fa) → Traps s x i 0x16 detail fa) ∧
      ((∀ p ∈ idx, e.elemFault x.t.portion (coord p) = none) → (∃ p ∈ w.parts, p.phase.settled = false) →
        (w.scratch = false ∨ x.t.items.guarded = true ∨ ∃ p ∈ w.parts, p.va / 2 ^ 32 ≠ x.t.spanPos) → Sends s x i w) ∧
      ((∀ p ∈ idx, e.elemFault x.t.portion (coord p) = none) → x.t.items.guarded = false →
        ((∀ p ∈ w.parts, p.phase.settled = true) ∨ w.scratch = true ∧ ∀ p ∈ w.parts, p.va / 2 ^ 32 = x.t.spanPos) →
        s.accesses = [] → s.proms = [] → s.early = [] → x.k.ops = [] → Performs s x i w))

/-- R236, R260, R265, R269: `prf` asks for the bytes at the addresses in range and counts on no token; `cwb` asks for its range, and its token
completes when the lines are clean; a length of 0 or a false guard completes at once, and a range that reaches 2^57 raises PERM 0xA5. An
acquire fence of span scope or wider, issued once its conditions hold, invalidates the core's L1; a release fence leaves it.
R266, R267: `iflush` drops every 64-byte fetch block that overlaps its range from the core's instruction cache, so that no word of the
block is found there; `isync` discards what the course has fetched ahead. -/
def Obligations.FenceRangeAndCodeWordsComplete : Prop :=
  ((∀ gd lv m s x, Issues s x (.prf gd lv m) →
     let near := (lanesIn (x.r.exec gd)).filter fun l => decide (x.r.eaOf m l < 2 ^ 57)
     (x.r.exec gd = 0 → Goes s x (.prf gd lv m) x.k (x.k.pc + 8)) ∧
     (near ≠ [] → Sends s x (.prf gd lv m)
       { tk := none, kind := .prefetch (lv == .l1), lanes := x.r.exec gd, ea := x.r.eaOf m, size := 1,
         parts := near.map fun l => mkPart false l (x.r.eaOf m l) 1 [] [] 0 }) ∧
     (x.r.exec gd ≠ 0 → near = [] → s.accesses = [] → GoesWith s x (.prf gd lv m) { s with nextId := s.nextId + 1 })) ∧
   (∀ gd tk gb gl inv s x, Issues s x (.cwb gd tk gb gl inv) →
     let i := Instr.cwb gd tk gb gl inv
     let base := (x.r.gget gb).toNat
     let len := (x.r.gget gl).toNat
     (x.r.uniform gd = false ∨ len = 0 → CountsOnly s x i (some tk)) ∧
     (x.r.uniform gd = true → len ≠ 0 → base + len ≤ 2 ^ 57 →
       Sends s x i { tk := some tk, kind := .clean inv, lanes := 1, ea := fun _ => base, size := 1, parts := [mkPart false 0 base len [] [] 0] }) ∧
     (x.r.uniform gd = true → len ≠ 0 → 2 ^ 57 < base + len → Traps s x i 0x13 0xA5 (x.r.gget gb))) ∧
   (∀ gd sem (sc : Scope) s x, Issues s x (.fence gd sem sc) →
     let i := Instr.fence gd sem sc
     let wide := sc ≠ .crs ∧ sc ≠ .trs
     (x.r.uniform gd = false → Goes s x i x.k (x.k.pc + 8)) ∧
     (x.r.uniform gd = true → x.t.tabPend = [] → (sem = .rel ∨ ¬ wide) → Goes s x i x.k (x.k.pc + 8)) ∧
     (x.r.uniform gd = true → x.t.tabPend = [] → sem ≠ .rel → wide →
       GoesWith s x i { s with l1 := s.l1.filter fun e => e.1 % 192 != x.t.core }))) ∧
  ((∀ gd gb gl s x, Issues s x (.iflush gd gb gl) →
     let i := Instr.iflush gd gb gl
     let base := (x.r.gget gb).toNat
     let len := (x.r.gget gl).toNat
     let hit := fun (c : ICell) => c.core == x.t.core && (decide (len ≠ 0) && c.space == x.t.space &&
       decide (c.va / 64 * 64 < base + len) && decide (base < c.va / 64 * 64 + 64))
     (x.r.uniform gd = false → Goes s x i x.k (x.k.pc + 8)) ∧
     (x.r.uniform gd = true → (len = 0 ∨ base + len ≤ 2 ^ 57) → ∃ t, exec i s = .next t ∧
       t.icache = s.icache.filter (fun c => !hit c) ∧ t.mem = s.mem ∧ t.l1 = s.l1 ∧ t.accesses = s.accesses ∧
       ∃ k', t.course? x.c = some k' ∧ k'.pc = x.k.pc + 8 ∧ k'.v = x.k.v ∧ k'.g = x.k.g ∧ k'.p = x.k.p ∧ k'.tok = x.k.tok ∧
         k'.ahead.all (fun c => x.k.ahead.contains c || s.icache.contains c) = true) ∧
     (x.r.uniform gd = true → len ≠ 0 → 2 ^ 57 < base + len → Traps s x i 0x13 0xA5 (x.r.gget gb))) ∧
   (∀ gd s x, Issues s x (.isync gd) →
     Goes s x (.isync gd) (if x.r.uniform gd then { x.k with ahead := [] } else x.k) (x.k.pc + 8)))

/-! ### Promise words -/

/-- R273 to R279: `pinit`, `pfill`, `pwait`, `pequ` and `ptest` send their operation on the named cells, and count on their token until it has
taken effect; `pfill` is a release and `pwait` and `ptest` acquires at their scope. With a false guard the token completes at once. A cell
that is not aligned to 8 raises MISALIGN, one outside 57 bits PERM 0xA5. -/
def Obligations.PromiseWordsSend : Prop :=
  ∀ (i : Instr) s x gd tk d (op : POp) (a : GReg) rel acq,
    ((∃ f, i = .pinit gd tk a f ∧ op = .pinit f ∧ d = none ∧ rel = none ∧ acq = none) ∨
     (∃ v sc, i = .pfill gd tk a v sc ∧ op = .pfill (x.r.gget v) ∧ d = none ∧ rel = some sc ∧ acq = none) ∨
     (∃ d' sc, i = .pwait gd tk d' a sc ∧ op = .pwait ∧ d = some d' ∧ rel = none ∧ acq = some sc) ∨
     (∃ b, i = .pequ gd tk a b ∧ op = .pequ (x.r.gget b).toNat ∧ d = none ∧ rel = none ∧ acq = none) ∨
     (∃ d' sc, i = .ptest gd tk d' a sc ∧ op = .ptest ∧ d = some d' ∧ rel = none ∧ acq = some sc)) →
    Issues s x i →
    let cells := (x.r.gget a).toNat :: match op with | .pequ b => [b] | _ => []
    let ph := if x.t.items.guarded then Phase.held else .untranslated
    let p : PromOp :=
      { id := s.nextId, who := .course x.c x.k.nextOp d, vd := x.t.vd, op := op, va := (x.r.gget a).toNat, phase := ph,
        phase2 := match op with | .pequ _ => ph | _ => .performed, waiting := none, rel := strong rel,
        relTrs := rel == some .trs, acqScope := acq, sent := 0 }
    (x.r.uniform gd = false → CountsOnly s x i (some tk)) ∧
    (x.r.uniform gd = true → (∀ c ∈ cells, c % 8 = 0 ∧ c < 2 ^ 57) →
      ∃ k1, CountsOn x.k k1 (some tk) (.parts 1) (match op with | .ptest => gRun d [0, 0] | _ => gRun d [0]) false false false ∧
        GoesWith s x i
          { s.setCourse x.c (if x.t.items.guarded then
              { k1 with quarantine := k1.quarantine ++ [⟨.promise s.nextId, s.clk, some x.k.nextOp, s.nextId⟩] } else k1)
            with proms := s.proms ++ [p], nextId := s.nextId + 1 }) ∧
    (∀ as c bs, x.r.uniform gd = true → cells = as ++ c :: bs → (∀ b ∈ as, b % 8 = 0) → c % 8 ≠ 0 →
      Traps s x i 0x02 (lowestLane x.k.lanes) (BitVec.ofNat 64 c)) ∧
    (∀ as c bs, x.r.uniform gd = true → cells = as ++ c :: bs → (∀ b ∈ cells, b % 8 = 0) → (∀ b ∈ as, b < 2 ^ 57) → 2 ^ 57 ≤ c →
      Traps s x i 0x13 0xA5 (BitVec.ofNat 64 c))

/-! ### Tensor, ring and network words -/

/-- R44, R286, R293, R300 to R304: a matrix-class word of a course with all 32 lanes active and executing, whose checks pass, completes its
issue with an entry of its operands at the end of the truss's matrix queue: `accz`, `accld`, `accst`, `accmv` in its four modes, `accsc`
and `mtest`. With a lane missing each raises CONVERGE (0x06); `accld` and `accst` raise FMT (0x0D) with DETAIL 0x09 for a tile type and a
format that do not go together, and LAYOUT (0x16) for the first element that fails the checks of R206.
R44, R289 to R293, R298: `mma` and `mmaz` put their entry at the end of the matrix queue when every check of R292 passes; the first that
fails raises its fault: CONVERGE with a lane missing, FMT for the format block and what it names, LAYOUT for an element, FMTSCALE (0x0E)
for too few scales of A (DETAIL 0) or B (DETAIL 1). The entry starts at row 0, or at the row that a `csrw` to ROWPROG has chosen. -/
def Obligations.MatrixWordsEnqueue : Prop :=
  (∀ gd tk (acc : Fin 64) s x,
     let full := x.r.exec gd = 0xFFFFFFFF
     let enq := fun (i : Instr) (ws : List RegVal) (body : EntryBody) =>
       Issues s x i → (full → Enqueues s x i x.k .mat tk ws body 0) ∧ (¬ full → Traps s x i 0x06 0 0)
     (∀ n, enq (.accz gd tk acc n) [] (.accz acc (n.val + 1))) ∧
     (∀ (l : Fin 256) (gc : GReg) tt, let e := x.t.layout s.tick x.c.course l
       let c0 := x.r.coord gc
       let c1 := x.r.coord (gc.val + 1)
       tilePair tt e acc = true → e.faults x.t ⟨[c0, c1], [64, 64], [0, 1]⟩ = none →
       enq (.accld gd tk acc l gc tt) [] (.accld acc e c0 c1 tt) ∧ enq (.accst gd tk acc l gc tt) [] (.accst acc e c0 c1 tt)) ∧
     (∀ (l : Fin 256) (gc : GReg) tt i, (i = .accld gd tk acc l gc tt ∨ i = .accst gd tk acc l gc tt) → Issues s x i → full →
       (tilePair tt (x.t.layout s.tick x.c.course l) acc = false → Traps s x i 0x0D 0x09 0) ∧
       (∀ d fa, tilePair tt (x.t.layout s.tick x.c.course l) acc = true →
         (x.t.layout s.tick x.c.course l).faults x.t ⟨[x.r.coord gc, x.r.coord (gc.val + 1)], [64, 64], [0, 1]⟩ = some (d, fa) →
         Traps s x i 0x16 d fa)) ∧
     (∀ (e : Layout) tt, tilePair tt e acc = true ↔ e.space ≠ 3 ∧ match tt with
       | .f32 => e.fmt = 1 ∨ e.fmt = 2 ∨ e.fmt = 3
       | .i32 => e.fmt = 1
       | .f64 => e.fmt = 0 ∧ acc.val % 2 = 0) ∧
     (∀ v gr, enq (.accmvGet gd tk acc v gr) (vPairDest v) (.accGet acc v ((x.r.gget gr).toNat % 64))) ∧
     (∀ v gr, enq (.accmvPut gd tk acc v gr) [] (.accPut acc ((x.r.gget gr).toNat % 64)
       ((List.range 32).map fun l => [x.r.vget v l, x.r.vget (v.val + 1) l]).flatten)) ∧
     (∀ d gr clr, enq (.accmvStat gd tk acc d gr clr) [.g d 0] (.accStat acc d clr)) ∧
     (∀ src gr, enq (.accmvCopy gd tk acc src gr) [] (.accCopy acc src)) ∧
     (∀ gs i32, enq (.accsc gd tk acc gs i32) [] (.accsc acc ((x.r.gget gs).truncate 32) i32)) ∧
     (∀ d, enq (.mtest gd tk d) [.g d 0] (.mtest d))) ∧
  (∀ gd tk acc la gca lb gcb gf gk (zero : Bool) (i : Instr) s x,
     i = (if zero then .mmaz gd tk acc la gca lb gcb gf gk else .mma gd tk acc la gca lb gcb gf gk) → Issues s x i →
     let o := x.mmaOps la gca lb gcb gf gk
     let f := fmtBlock o.fmt.toNat
     let k := bits o.k.toNat 9 0
     let full := x.r.exec gd = 0xFFFFFFFF
     (full → MmaFits o acc x.t.tiles.length → o.layFault x.t = none →
       (f.as_ = true → f.blocks k ≤ f.an) → (f.bs = true → f.blocks k ≤ f.bn) →
       Enqueues s x i { x.k with rowStart := false } .mat tk []
         (.mma zero acc o.la o.lb o.lsa o.lsb o.ca0 o.ca1 o.cb0 o.cb1 o.fmt k)
         (if x.k.rowStart && x.k.rowprog.getLsbD 7 then bits x.k.rowprog.toNat 6 0 else 0)) ∧
     (¬ full → Traps s x i 0x06 0 0) ∧
     (∀ d, full → o.fmtFault acc x.t.tiles.length = some d → Traps s x i 0x0D d 0) ∧
     (o.fmtFault acc x.t.tiles.length = none ↔ MmaFits o acc x.t.tiles.length) ∧
     (∀ d fa, full → MmaFits o acc x.t.tiles.length → o.layFault x.t = some (d, fa) → Traps s x i 0x16 d fa) ∧
     (full → MmaFits o acc x.t.tiles.length → o.layFault x.t = none → f.as_ = true → f.an < f.blocks k → Traps s x i 0x0E 0x00 0) ∧
     (full → MmaFits o acc x.t.tiles.length → o.layFault x.t = none → (f.as_ = true → f.blocks k ≤ f.an) → f.bs = true →
       f.bn < f.blocks k → Traps s x i 0x0E 0x01 0))

/-- R211, R369, R370, R374: `bcopy` whose checks pass puts its entry, with the template, both entries and both origins as they stand, at the end
of the copy queue; the checks come in the order LAYOUT, multicast mask beyond the span (0x0F), multicast in an unfit space, and formats that
do not go together (0x0D): 0x0A for two widths without conversion, 0x0B for a conversion that does not exist. With the guard false in the
lowest active lane its token completes. `qfence` puts one fence into every queue it names; a guarded course's
entries are held (R442). -/
def Obligations.CopyWordsEnqueue : Prop :=
  (∀ gd tk ct gs gdst (nc : Fin 4) s x, Issues s x (.bcopy gd tk ct gs gdst nc) →
    let i := Instr.bcopy gd tk ct gs gdst nc
    let w := x.t.template s.tick x.c.course ct
    let ls := x.t.layout s.tick x.c.course (tplSrc w)
    let ld := x.t.layout s.tick x.c.course (tplDst w)
    let cs := x.r.coords gs nc
    let cd := x.r.coords gdst nc
    let multi := tplMcast w ≠ 0 ∧ (ld.space = 0 ∨ ld.space = 2)
    (x.r.uniform gd = false → CountsOnly s x i (some tk)) ∧
    (x.r.uniform gd = true → copyLayFault x.t w ls ld cs cd = none → tplMcast w < 2 ^ x.t.items.span → ¬ multi →
      (if tplCvt w then convertible ls.kind ld.kind = true else ls.bits = ld.bits) →
      Enqueues s x i x.k .copy tk [] (.bcopy w ls ld cs cd) 0) ∧
    (∀ d fa, x.r.uniform gd = true → copyLayFault x.t w ls ld cs cd = some (d, fa) → Traps s x i 0x16 d fa) ∧
    (x.r.uniform gd = true → copyLayFault x.t w ls ld cs cd = none → 2 ^ x.t.items.span ≤ tplMcast w → Traps s x i 0x0F 0 0) ∧
    (x.r.uniform gd = true → copyLayFault x.t w ls ld cs cd = none → tplMcast w < 2 ^ x.t.items.span → multi →
      Traps s x i 0x16 0x09 0) ∧
    (x.r.uniform gd = true → copyLayFault x.t w ls ld cs cd = none → tplMcast w < 2 ^ x.t.items.span → ¬ multi →
      (tplCvt w = false → ls.bits ≠ ld.bits → Traps s x i 0x0D 0x0A 0) ∧
      (tplCvt w = true → convertible ls.kind ld.kind = false → Traps s x i 0x0D 0x0B 0))) ∧
  (∀ gd copy mat net s x, Issues s x (.qfence gd copy mat net) →
    let i := Instr.qfence gd copy mat net
    let e := x.fresh none (.qfence copy mat net s.nextId) 0
    let k1 := if x.t.items.guarded then
      { x.k with quarantine := x.k.quarantine ++ [⟨.entry s.nextId, s.clk, none, s.nextId⟩] } else x.k
    (x.r.uniform gd = false → Goes s x i x.k (x.k.pc + 8)) ∧
    (x.r.uniform gd = true →
      GoesWith s x i (({ s.setCourse x.c k1 with nextId := s.nextId + 1 } : State).modTruss x.c.truss fun t =>
        Truss.passFences { t with copyQ := if copy then t.copyQ ++ [e] else t.copyQ, matQ := if mat then t.matQ ++ [e] else t.matQ,
                                  netQ := if net then t.netQ ++ [e] else t.netQ } 64)))

/-- R358, R360 to R367, R442: the ring words. `rgacq.init` makes a ring valid with every slot FREE; `rgacq` takes the next FREE slot and
`rgtake` the next FILLED or ABANDONED one, and gD holds its slot word; `rgcmt` and `rgrel` turn an ACQUIRED slot to FILLED, or a TAKEN one
to FREE with its phase flipped, at once with no queue named or an empty one, and else when their entry reaches the head of the queue they
name. A slot in another state, another phase or a bad descriptor raises ILLEGAL_OP with its DETAIL. A course under the guarded bit holds
its ring word back, an acquire and a take too, whose slot word it has all the same. With the guard false in the lowest active lane each does nothing. -/
def Obligations.RingWordsComplete : Prop :=
  (∀ gd (rg : Fin 8) i s x, (∃ ga, i = .rgacqInit gd rg ga) ∨ (∃ d, i = .rgacq gd d rg) ∨ (∃ d, i = .rgtake gd d rg) ∨
      (∃ q ga, i = .rgcmt gd q rg ga) ∨ (∃ q ga, i = .rgrel gd q rg ga) → Issues s x i → x.r.uniform gd = false →
    Goes s x i x.k (x.k.pc + 8)) ∧
  (∀ gd (rg : Fin 8) (q : QSel) ga (commit : Bool) i y s x, i = (if commit then Instr.rgcmt gd q rg ga else .rgrel gd q rg ga) →
    Issues s x i → x.r.uniform gd = true → x.k.quarantine = [] →
    let r := x.t.rings[rg]
    let w := x.r.gget ga
    let n := bits w.toNat 37 32
    r.valid = true → r.slots[n]? = some y → y.st = (if commit then .acquired else .taken) → y.phase = w.getLsbD 40 →
    let body := EntryBody.ring rg n commit (some y.phase)
    let begun : Ring := { r with slots := r.slots.set n { y with st := if commit then .committing else .releasing } }
    (x.t.items.guarded = true → q = .none → GoesWith s x i (HeldBack x (.ringEffect rg n commit y.phase))) ∧
    (x.t.items.guarded = false → q ≠ .none → x.t.head? q ≠ none →
      GoesWith s x i (({ s with nextId := s.nextId + 1 } : State).setTruss x.c.truss
        ((Truss.modQueue { x.t with rings := x.t.rings.set rg begun } q fun es => es ++ [x.fresh none body 0]).passFences 64)))) ∧
  (∀ gd (rg : Fin 8) ga s x, Issues s x (.rgacqInit gd rg ga) → x.r.uniform gd = true → x.t.items.guarded = true → x.k.quarantine = [] →
    (∃ u, ringInit x.t rg (x.r.gget ga) = .ok u) →
    GoesWith s x (.rgacqInit gd rg ga) (HeldBack x (.ringInit rg (x.r.gget ga)))) ∧
  (∀ gd (rg : Fin 8) d (take : Bool) i s x, i = (if take then Instr.rgtake gd d rg else .rgacq gd d rg) → Issues s x i →
    x.r.uniform gd = true → x.t.items.guarded = true → x.k.quarantine = [] → x.t.tabPend = [] → x.t.rings[rg].valid = true →
    let r := x.t.rings[rg]
    let n := (if take then r.take else r.acq).toNat % r.slots.length
    ∃ k1, SameButRegs x.k k1 ∧ k1.flagShadows = x.k.flagShadows ∧
      Lands x.k k1 2 (.g d) 1 (fun _ => r.word n (take && r.slot n = .abandoned)) ∧
      GoesWith s x i
        { s.setCourse x.c { k1 with quarantine := [⟨.ringGet rg n take, s.clk, none, s.nextId⟩] } with nextId := s.nextId + 1 }) ∧
  ∀ gd (rg : Fin 8) s x, x.t.items.guarded = false → x.k.quarantine = [] → x.r.uniform gd = true →
    let r := x.t.rings[rg]
    (∀ ga, Issues s x (.rgacqInit gd rg ga) →
      let n := (x.r.gget ga).toNat
      let top := bits n 63 32 + (bits n 5 0 + 1) * bits n 19 8 * 128
      let good := bits n 31 28 = 0 ∧ bits n 23 20 = 0 ∧ bits n 7 6 = 0 ∧ bits n 19 8 ≠ 0 ∧ bits n 63 32 % 128 = 0
      let busy := r.valid = true ∧ ∃ y ∈ r.slots, y.st ≠ .free
      (¬ busy → good → top ≤ x.t.portion →
        let fresh : Ring :=
          { valid := true, ssz := bits n 19 8, prod := BitVec.ofNat 2 (bits n 25 24), cons := BitVec.ofNat 2 (bits n 27 26),
            base := bits n 63 32, acq := 0, take := 0, slots := List.replicate (bits n 5 0 + 1) ⟨.free, false, 0⟩, occ := 0 }
        GoesWith s x (.rgacqInit gd rg ga) (s.setTruss x.c.truss { x.t with rings := x.t.rings.set rg fresh })) ∧
      (busy → Traps s x (.rgacqInit gd rg ga) 0x01 0x31 0) ∧
      (¬ busy → ¬ good → Traps s x (.rgacqInit gd rg ga) 0x01 0x35 0) ∧
      (¬ busy → good → x.t.portion < top → Traps s x (.rgacqInit gd rg ga) 0x13 0xA0 (BitVec.ofNat 64 top))) ∧
    (∀ d (take : Bool) i, i = (if take then Instr.rgtake gd d rg else .rgacq gd d rg) → Issues s x i → x.t.tabPend = [] →
      let n := (if take then r.take else r.acq).toNat % r.slots.length
      (r.valid = true → ∃ k1, SameButRegs x.k k1 ∧ k1.flagShadows = x.k.flagShadows ∧
        Lands x.k k1 2 (.g d) 1 (fun _ => r.word n (take && r.slot n = .abandoned)) ∧
        let r' : Ring := { r with
          acq := if take then r.acq else r.acq + 1, take := if take then r.take + 1 else r.take,
          slots := r.slots.modify n fun y => { y with st := if take then .taken else .acquired, owner := x.c.course } }
        GoesWith s x i ((s.setCourse x.c k1).modTruss x.c.truss fun t => { t with rings := t.rings.set rg r' })) ∧
      (r.valid = false → Traps s x i 0x01 0x30 0)) ∧
    (∀ ga (q : QSel) (commit : Bool) i, i = (if commit then Instr.rgcmt gd q rg ga else .rgrel gd q rg ga) → Issues s x i →
      (q = .none ∨ x.t.head? q = none) → x.t.tabPend = [] →
      let w := x.r.gget ga
      let n := bits w.toNat 37 32
      let from_ : SlotState := if commit then .acquired else .taken
      (∀ y, r.valid = true → r.slots[n]? = some y → y.st = from_ → y.phase = w.getLsbD 40 →
        let r' : Ring := { r with
          slots := r.slots.set n (if commit then { y with st := .filled } else { y with st := .free, phase := !y.phase }) }
        GoesWith s x i (s.setTruss x.c.truss { x.t with rings := x.t.rings.set rg r' })) ∧
      (r.valid = false → Traps s x i 0x01 0x30 0) ∧
      (r.valid = true → r.slots[n]? = none → Traps s x i 0x01 0x34 0) ∧
      (∀ y, r.valid = true → r.slots[n]? = some y → y.st ≠ from_ → Traps s x i 0x01 (if commit then 0x32 else 0x33) 0) ∧
      (∀ y, r.valid = true → r.slots[n]? = some y → y.st = from_ → y.phase ≠ w.getLsbD 40 → Traps s x i 0x01 0x34 0))

/-- R375, R377 to R382, R386: a network word whose checks pass puts its entry, with the operands of its g registers, at the end of the network
queue: `amsg`, `nsend`, `nrecv`, `nprobe`, `fput`, `fget`, `fcopy`, `fmrs` and `fmrl`. A false guard completes its token at once, and so does
a length or count of 0. A reserved bit, a length or count of 2^32 and more, or an `amsg` payload above 64 bytes raises ILLEGAL_OP with DETAIL
0x40; an `amsg` handler index beyond the table raises ILLEGAL_OP, a local range that reaches 2^57 PERM 0xA5 with its address, and `fmrs` or
`fmrl` on a group that is not valid or not the device's PERM 0xA7. -/
def Obligations.NetworkWordsEnqueue : Prop :=
  ∀ gd tk (gx : GReg) s x,
    let r := fun (j : Nat) => (x.r.gget (gx.val + j)).toNat
    let w := r 0
    let fits := fun (base len : Nat) => base < 2 ^ 57 ∧ base + len ≤ 2 ^ 57
    let record := fun (a : Nat) => a % 8 = 0 ∧ fits a 32
    let enq := fun (i : Instr) (body : EntryBody) => Enqueues s x i x.k .net tk [] body 0
    (∀ i, ((∃ nb, i = .amsg gd tk gx nb) ∨ i = .nsend gd tk gx ∨ i = .nrecv gd tk gx ∨ i = .nprobe gd tk gx ∨ i = .fput gd tk gx ∨
        i = .fget gd tk gx ∨ i = .fcopy gd tk gx ∨ i = .fmrs gd tk gx ∨ i = .fmrl gd tk gx) → Issues s x i →
      x.r.uniform gd = false → CountsOnly s x i (some tk)) ∧
    (x.r.uniform gd = true →
      (∀ nb, Issues s x (.amsg gd tk gx nb) → bits w 63 16 = 0 → nb.toNat ≤ 64 → bits w 15 8 < x.t.items.tblCnt →
        enq (.amsg gd tk gx nb) (.amsg (bits w 7 0) (bits w 15 8) x.t.items.tblBase (x.r.payload gx nb.toNat))) ∧
      (Issues s x (.nsend gd tk gx) → bits w 31 16 = 0 → r 2 < 2 ^ 32 → r 2 ≠ 0 → fits (r 1) (r 2) →
        enq (.nsend gd tk gx) (.nsend (bits w 15 0) (bits w 63 32) (r 1) (r 2))) ∧
      (Issues s x (.nrecv gd tk gx) → bits w 31 17 = 0 → r 2 < 2 ^ 32 → fits (r 1) (r 2) → record (r 3) →
        enq (.nrecv gd tk gx) (.nrecv (x.r.gget gx) (r 1) (r 2) (r 3))) ∧
      (Issues s x (.nprobe gd tk gx) → bits w 31 17 = 0 → record (r 1) → enq (.nprobe gd tk gx) (.nprobe (x.r.gget gx) (r 1))) ∧
      (Issues s x (.fput gd tk gx) → bits w 63 16 = 0 → r 3 < 2 ^ 32 → r 3 ≠ 0 → fits (r 1) (r 3) →
        enq (.fput gd tk gx) (.fput w (r 1) (r 2) (r 3))) ∧
      (Issues s x (.fget gd tk gx) → bits w 63 16 = 0 → r 3 < 2 ^ 32 → r 3 ≠ 0 → fits (r 1) (r 3) →
        enq (.fget gd tk gx) (.fget w (r 1) (r 2) (r 3))) ∧
      (Issues s x (.fcopy gd tk gx) → bits w 63 32 = 0 → r 3 < 2 ^ 32 → r 3 ≠ 0 → (bits w 15 0 = 0xFFFE → fits (r 1) (r 3)) →
        (bits w 31 16 = 0xFFFE → fits (r 2) (r 3)) →
        enq (.fcopy gd tk gx) (.fcopy (bits w 15 0) (bits w 31 16) (r 1) (r 2) (r 3))) ∧
      (let e := s.group (bits w 11 0)
       let sz := grpSize e
       let good := bits w 63 12 = 0 ∧ r 3 < 2 ^ 32 ∧ r 3 ≠ 0 ∧ grpV e = true ∧ grpOwner e = x.t.space ∧ r 1 % sz = 0 ∧ r 2 % sz = 0
       (Issues s x (.fmrs gd tk gx) → good → fits (r 1) (r 3 * sz) → r 2 + r 3 * sz ≤ grpLen e →
         enq (.fmrs gd tk gx) (.fmrs (bits w 11 0) (r 1) (r 2) (r 3))) ∧
       (Issues s x (.fmrl gd tk gx) → good → fits (r 2) (r 3 * sz) → r 1 + r 3 * sz ≤ grpLen e →
         enq (.fmrl gd tk gx) (.fmrl (bits w 11 0) (r 1) (r 2) (r 3)))) ∧
      (Issues s x (.nsend gd tk gx) → r 2 = 0 → r 1 < 2 ^ 57 → bits w 31 16 = 0 → CountsOnly s x (.nsend gd tk gx) (some tk)) ∧
      (∀ i, (i = .fput gd tk gx ∨ i = .fget gd tk gx) → Issues s x i → bits w 63 16 = 0 → r 3 = 0 → r 1 < 2 ^ 57 →
        CountsOnly s x i (some tk)) ∧
      (Issues s x (.fcopy gd tk gx) → bits w 63 32 = 0 → r 3 = 0 → (bits w 15 0 = 0xFFFE → r 1 < 2 ^ 57) →
        (bits w 31 16 = 0xFFFE → r 2 < 2 ^ 57) → CountsOnly s x (.fcopy gd tk gx) (some tk)) ∧
      (let e := s.group (bits w 11 0)
       ∀ i loc off, (i = .fmrs gd tk gx ∧ loc = r 1 ∧ off = r 2 ∨ i = .fmrl gd tk gx ∧ loc = r 2 ∧ off = r 1) → Issues s x i →
         bits w 63 12 = 0 →
         (r 3 = 0 → grpV e = true → grpOwner e = x.t.space → loc % grpSize e = 0 → off % grpSize e = 0 → loc < 2 ^ 57 → off ≤ grpLen e →
           CountsOnly s x i (some tk)) ∧
         (r 3 < 2 ^ 32 → grpV e = false ∨ grpOwner e ≠ x.t.space → Traps s x i 0x13 0xA7 0)) ∧
      (∀ nb, Issues s x (.amsg gd tk gx nb) → bits w 63 16 = 0 → nb.toNat ≤ 64 → x.t.items.tblCnt ≤ bits w 15 8 →
        Traps s x (.amsg gd tk gx nb) 0x01 0 0) ∧
      (∀ i len, (i = .nsend gd tk gx ∧ bits w 31 16 = 0 ∧ len = r 2 ∨ i = .nrecv gd tk gx ∧ bits w 31 17 = 0 ∧ len = r 2 ∨
          i = .fput gd tk gx ∧ bits w 63 16 = 0 ∧ len = r 3 ∨ i = .fget gd tk gx ∧ bits w 63 16 = 0 ∧ len = r 3) → Issues s x i →
        len < 2 ^ 32 → ¬ fits (r 1) len → Traps s x i 0x13 0xA5 (BitVec.ofNat 64 (r 1))) ∧
      (∀ i, ((∃ nb, i = .amsg gd tk gx nb ∧ (bits w 63 16 ≠ 0 ∨ 64 < nb.toNat)) ∨
          i = .nsend gd tk gx ∧ (bits w 31 16 ≠ 0 ∨ 2 ^ 32 ≤ r 2) ∨ i = .nrecv gd tk gx ∧ (bits w 31 17 ≠ 0 ∨ 2 ^ 32 ≤ r 2) ∨
          i = .nprobe gd tk gx ∧ bits w 31 17 ≠ 0 ∨ i = .fput gd tk gx ∧ (bits w 63 16 ≠ 0 ∨ 2 ^ 32 ≤ r 3) ∨
          i = .fget gd tk gx ∧ (bits w 63 16 ≠ 0 ∨ 2 ^ 32 ≤ r 3) ∨ i = .fcopy gd tk gx ∧ (bits w 63 32 ≠ 0 ∨ 2 ^ 32 ≤ r 3) ∨
          (i = .fmrs gd tk gx ∨ i = .fmrl gd tk gx) ∧ (bits w 63 12 ≠ 0 ∨ 2 ^ 32 ≤ r 3)) →
        Issues s x i → Traps s x i 0x01 0x40 0))

/-! ### Steps of courses -/

/-- The device's steps for one course. R179, R255: a token's count falls past its oldest operation once that is complete: the results land
(unless it ended in a fault), its flags join FSTAT, and the status byte takes its status when it was OK. R95, R161, R166: a timed hold of
a resident course ends at its time. R50, R169: a debug request waits, and is taken at an instruction boundary, of a truss that runs, once the merge loop
has run and while the quadrant has an issue left, with BRKPT and DETAIL 0xFF; so is a counter overflow, with TRAPSW and the counter's number
as DETAIL. -/
def Obligations.CourseStepsComplete : Prop :=
  (∀ s c (tk : Tok) k as o bs, s.course? c = some k → k.cstate ≠ .killed → k.cstate ≠ .retired → k.ops = as ++ o :: bs →
    (∀ a ∈ as, a.tk ≠ tk ∨ a.fallen = true) → o.tk = tk → o.fallen = false → o.wait = .nothing → (o.poison = false ∨ o.fault.isSome = true) →
    ∃ k', exec (.tokenCompletion c tk) s = .next { s.setCourse c k' with tick := s.tick + 1 } ∧
      k'.tok = k.tok.set tk ⟨k.tok[tk].count - 1, if k.tok[tk].status = 0 then o.status else k.tok[tk].status⟩ ∧
      k'.ops = k.ops.map (fun p => if p.id = o.id then { p with fallen := true } else p) ∧
      (o.fault.isSome = true → k'.v = k.v ∧ k'.g = k.g ∧ k'.p = k.p ∧ k'.fstat = k.fstat) ∧
      (o.fault = none → k'.fstat = k.fstat ||| o.flags) ∧
      (o.fault = none → o.clash = [] →
        k'.v = (o.writes.foldl Course.put k).v ∧ k'.g = (o.writes.foldl Course.put k).g ∧ k'.p = (o.writes.foldl Course.put k).p) ∧
      { k' with v := k.v, g := k.g, p := k.p, tok := k.tok, fstat := k.fstat, ops := k.ops, psn := k.psn } = k) ∧
  (∀ s c t k till i, s.truss? c.truss = some t → s.course? c = some k → t.onCore = true → k.cstate = .resident →
    (i = .dlyExpiry c ∧ k.hold = .dly till ∨ i = .yieldExpiry c ∧ k.hold = .yield till ∨
      i = .regionGuardWaitExpiry c ∧ k.hold = .guard till) →
    ∃ t, exec i s = .next t ∧ t.clk = max s.clk till ∧ t.mem = s.mem ∧
      t.cores.map Core.noCounts = s.cores.map Core.noCounts ∧
      ∃ ovf, t.course? c = some { k with hold := .none, ovfPend := k.ovfPend ++ ovf }) ∧
  (∀ s c k, s.course? c = some k → k.cstate ≠ .killed → k.cstate ≠ .retired →
    exec (.debugRequest c) s = .next (s.setCourse c { k with debugPend := true })) ∧
  (∀ s c t k0, s.truss? c.truss = some t → s.course? c = some k0 → s.runs t = true →
    let k := k0.merge
    k.cstate = .resident → k.tm = false → k.frames.length < 4 → k.lanes ≠ 0 → s.quadSpent (4 * t.core + k.slot / 16) = false →
    (k.debugPend = true → exec (.asyncTrapTaken c) s =
      .next (trapEntry (s.setCourse c { k with debugPend := false }) c 0x1A 0xFF 0 true)) ∧
    (∀ n ns, k.debugPend = false → k.rollbackPend = false → k.ovfPend = n :: ns → exec (.asyncTrapTaken c) s =
      .next (trapEntry (s.setCourse c { k with ovfPend := ns }) c 0x18 n.toNat 0 true)))

/-- R56, R186: a course that the merge loop leaves without a lane, with nothing outstanding and no rollback request, retires; it counts as gone for every
barrier of its truss, and a truss without a live course is gone with all it held. R199: while `n` cycles pass, a counter of cycles
advances by `n`, one of stalled or of waiting cycles by `n` for every resident course of its core that stalls in a `waitt` or waits at a
barrier, and one of half-rate cycles by one for every resident course that STRICT keeps back after its issue in this cycle (the model's
choice: log 11); where it wraps armed, its trap waits in the course of its
target slot, and where it does not, no course takes a trap of it. R198: shares join their meters and are then 0. -/
def Obligations.RetireAndCountersComplete : Prop :=
  (∀ s c t k, s.truss? c.truss = some t → s.course? c = some k → t.onCore = true → k.cstate = .resident → k.laneless = true →
    k.rollbackPend = false → s.quiet c t k = true → c.course < 16 →
    ∃ t' u k', exec (.courseRetire c) s = .next t' ∧ t'.truss? c.truss = some u ∧ t'.course? c = some k' ∧ k'.cstate = .retired ∧
      u.goneMask.getLsbD c.course = true ∧
      ((∀ j k1, t.courses[j]? = some k1 → j ≠ c.course → k1.cstate = .retired) →
        u.place = .gone ∧ u.scr = [] ∧ u.tiles = [] ∧ u.layouts = [])) ∧
  (∀ s (core : Nat) (k : Fin 8) n, core < 192 →
    let ec := (s.core core).ec[k]
    let evt := bits ec.ctl.toNat 7 0
    let of_ := fun (p : Course → Bool) => ((s.trusses.filter fun t => t.place = .onCore core).map fun t =>
      (t.courses.filter fun k => k.cstate == .resident && p k).length).sum
    let m := if evt = 3 then n * of_ (·.stalled) else if evt = 4 then n * of_ (·.barBlocked.isSome)
      else if evt = 9 then min n 1 * of_ (fun k => k.strict && k.recent.head?.map (·.1) == some s.clk) else n
    ec.ctl.getLsbD 8 = true → (evt = 0 ∨ evt = 3 ∨ evt = 4 ∨ evt = 9) →
    ∃ t, exec (.eventCounterOverflow core k n) s = .next t ∧ t.clk = s.clk + n ∧
      (t.core core).ec[k] = { ec with value := ec.value + BitVec.ofNat 48 m } ∧
      (∀ c k1, 2 ^ 48 ≤ ec.value.toNat + m → ec.ctl.getLsbD 9 = true → s.courseInSlot core (bits ec.ctl.toNat 15 10) = some c →
        t.course? c = some k1 → BitVec.ofNat 8 k ∈ k1.ovfPend) ∧
      (∀ c t0 k0 k1, (ec.value.toNat + m < 2 ^ 48 ∨ ec.ctl.getLsbD 9 = false) → s.truss? c.truss = some t0 → t0.place = .onCore core →
        s.course? c = some k0 → t.course? c = some k1 → BitVec.ofNat 8 k ∈ k1.ovfPend → BitVec.ofNat 8 k ∈ k0.ovfPend)) ∧
  (∀ s (v : Fin 512) d, s.vdev? v = some d →
    ∃ t d', exec (.meterAccumulate v) s = .next t ∧ t.vdev? v = some d' ∧ (∀ j : Fin 10, d'.meters[j] = d.meters[j] + d.shares[j]) ∧
      d'.shares = Vector.replicate 10 0 ∧ { d' with meters := d.meters, shares := d.shares } = d)

/-! ### Engines of a core -/

/-- R283 to R286, R299 to R303: the matrix engine begins the head entry of the truss it takes (shown for `accz` and `accmv.put`, which act in one
step: the tiles named hold zeros with status 0, the row named holds the values), and completes an entry that is full: it leaves the
queue, the engine is free, and its operation is complete. A self-test that is due fences the sub-arrays in service that fail, clears the WS
bits of those that pass, and poisons a tile of one that fails. -/
def Obligations.MatrixEngineSteps : Prop :=
  (∀ s core rows tn t e, core < 192 → s.matNext core = some tn → s.truss? tn = some t → t.head? .mat = some e → e.wait = .untranslated →
    e.full = false → (s.core core).fenced ≠ 0xF → s.throttled = false →
    (∀ acc n, e.body = .accz acc n → acc + n ≤ t.tiles.length →
      ∃ s' u e', exec (.matrixEntryStart core rows) s = .next s' ∧ (s'.core core).matBusy = some tn ∧ s'.truss? tn = some u ∧
        u.head? .mat = some e' ∧ e'.id = e.id ∧ e'.begun = true ∧ e'.full = true ∧
        (∀ j m, j < n → (u.tile (acc + j)).get m = 0) ∧ (∀ j, j < n → (u.tile (acc + j)).status = 0) ∧
        (∀ j, (j < acc ∨ acc + n ≤ j) → u.tile j = t.tile j)) ∧
    (∀ acc row vals, e.body = .accPut acc row vals → acc < t.tiles.length → row < 64 → vals.length = 64 →
      ∃ s' u e', exec (.matrixEntryStart core rows) s = .next s' ∧ (s'.core core).matBusy = some tn ∧ s'.truss? tn = some u ∧
        u.head? .mat = some e' ∧ e'.begun = true ∧ e'.full = true ∧ (u.tile acc).status = (t.tile acc).status ∧
        (∀ j, j < 64 → some ((u.tile acc).get (64 * row + j)) = vals[j]?) ∧ (∀ j, j ≠ acc → u.tile j = t.tile j))) ∧
  (∀ s core tn t e, core < 192 → (s.core core).matBusy = some tn → s.truss? tn = some t → t.head? .mat = some e → e.full = true →
    (∀ d, e.body ≠ .mtest d) →
    ∃ s' u, exec (.matrixEntryComplete core) s = .next s' ∧ (s'.core core).matBusy = none ∧ s'.truss? tn = some u ∧
      (∀ x ∈ u.matQ, x.id ≠ e.id ∧ x ∈ t.matQ) ∧
      (∀ k o id, s.course? ⟨tn, e.course⟩ = some k → e.tokOp = some id → o ∈ k.ops → o.id = id →
        ∃ k' o', s'.course? ⟨tn, e.course⟩ = some k' ∧ o' ∈ k'.ops ∧ o'.id = id ∧ o'.wait = .nothing)) ∧
  (∀ s core (failed : BitVec 4), core < 192 → (s.core core).matBusy = none → (s.core core).testDue = true →
    let svc := ~~~ (s.core core).fenced
    ∃ s', exec (.selfTestProduct core failed) s = .next s' ∧ (s'.core core).fenced = (s.core core).fenced ||| (failed &&& svc) ∧
      (s'.core core).mcount = 0 ∧
      (∀ (n : Nat) t, s.truss? n = some t → t.place = .onCore core → ∃ u, s'.truss? n = some u ∧ u.tiles.length = t.tiles.length ∧
        ∀ (j : Nat) x, t.tiles[j]? = some x → ∃ y, u.tiles[j]? = some y ∧ y.elems = x.elems ∧
          y.ws = x.ws &&& ~~~ (svc &&& ~~~ failed) ∧ (x.ws &&& (failed &&& svc) ≠ 0 → y.psn = true)))

/-- R368: the copy engine takes the entry of the truss its round robin picks and has begun it, or has ended it. R361, R365: a commit or a
release at the head of its queue takes effect and leaves the queue. R48, R322: the network engine sends a message's entry on its way to
the core it names; a message that arrives is queued, or dropped when 64 wait. R46, R47, R468: a course of a service truss takes the next
record of its die, and completes the call it has taken: with the results in the lanes of its record, or rejected with SYSCFAULT. -/
def Obligations.OtherEngineSteps : Prop :=
  (∀ s core n tn t e, core < 192 → s.copyNext core = some tn → s.copyHead tn = some e → s.truss? tn = some t → e.wait = .untranslated →
    ∃ s' u, exec (.copyEntryExecute core n) s = .next s' ∧ (s'.core core).copyLast = some tn ∧ s'.truss? tn = some u ∧
      ((∃ x ∈ u.copyQ, x.id = e.id ∧ x.begun = true ∧ e.done ≤ x.done) ∨ ∀ x ∈ u.copyQ, x.id ≠ e.id)) ∧
  (∀ s tn q t e rg n commit y, s.truss? tn = some t → t.head? q = some e → t.onCore = true → e.held = false →
    e.body = .ring rg n commit (some y.phase) →
    t.rings[rg].slots[n]? = some y → y.st = (if commit then .committing else .releasing) →
    ∃ s' u, exec (.ringEntryEffect tn q) s = .next s' ∧ s'.truss? tn = some u ∧
      u.rings[rg].slots[n]? = some (if commit then { y with st := .filled } else { y with st := .free, phase := !y.phase }) ∧
      (∀ r : Fin 8, r ≠ rg → u.rings[r] = t.rings[r]) ∧ ∀ x ∈ u.queue q, x.id ≠ e.id) ∧
  (∀ s tn t e (target handler base : Nat) payload, s.truss? tn = some t → t.head? .net = some e → t.onCore = true → t.kernelMode = false →
    e.held = false → e.full = false → e.wait = .untranslated → s.entryAwaits tn e = false → e.body = .amsg target handler base payload →
    ∀ d (cl : Nat), s.vdev? t.vd = some d → ((List.range 24).filter fun c => d.grant.getLsbD c)[target / 8]? = some cl →
      ∃ s' m, exec (.networkEntryStart tn) s = .next s' ∧ s'.amsgFly = s.amsgFly ++ [m] ∧ m.target = 8 * cl + target % 8 ∧
        m.handler = handler ∧ m.tblBase = base ∧ m.payload = payload ∧ m.vd = t.vd) ∧
  (∀ s (core : Nat) m, core < 192 → s.amsgFly.find? (fun m => m.target == core) = some m →
    let queued := ((s.core core).amsgs.filter fun x => x.vd == m.vd).length
    ∃ s', exec (.amsgArrival core) s = .next s' ∧ s'.amsgFly = s.amsgFly.erase m ∧
      (queued < 64 → (s'.core core).amsgs = (s.core core).amsgs ++ [{ m with sender := none }]) ∧
      (64 ≤ queued → (s'.core core).amsgs = (s.core core).amsgs)) ∧
  (∀ s (die : Fin 2) (course : Fin 4) reject results x rs, tget? s.svcTaken[die] course = none → s.svcRecs[die] = some x :: rs →
    exec (.serviceRecordTake ⟨die, course⟩ reject results) s = .next { s with
      svcRecs := s.svcRecs.set die rs, svrHead := s.svrHead.set die (s.svrHead[die] + 1),
      svcTaken := s.svcTaken.set die (tput s.svcTaken[die] course x) }) ∧
  (∀ s (die : Fin 2) (course : Fin 4) reject results c k o d m, tget? s.svcTaken[die] course = some (c, o.id) → s.course? c = some k →
    k.cstate = .resident → k.ops = [o] → o.wait = .service → o.fault = none → o.status = 0 → o.writes = [.v d m (Vector.replicate 32 0)] →
    ∃ s' k' o', exec (.serviceRecordTake ⟨die, course⟩ reject results) s = .next s' ∧ tget? s'.svcTaken[die] course = none ∧
      s'.course? c = some k' ∧ k'.ops = [o'] ∧ o'.wait = .nothing ∧
      (reject = true → ∃ f, o'.fault = some f ∧ f.cause = 0x1B) ∧
      (reject = false → o'.fault = none ∧
        ∃ x, o'.writes = [.v d m x] ∧
          ∀ l row, m.getLsbD l = true → results[(lanesIn m).idxOf l]? = some row → vat x l 0 = (row[0]?).getD 0))

/-! ### Launches, eviction and the scheduler -/

/-- R32, R34, R233, R470: admission starts a truss of a waiting launch, one that is not CONCURRENT, where one fits: on a core of the grant,
with its scratchpad zero, and its first course at the kernel address with every lane active and g0 the truss index. R49, R213: a message
that a core takes, when nothing of its device can come back first, starts its handler truss at the address in the handler table, or, where the read of it ends in PERM, with a first fetch
that faults so (log 34). R58, R345: a launch whose trusses are gone is complete, and its status word is written. -/
def Obligations.LaunchSteps : Prop :=
  (∀ (s : State) (ln : Nat) (l : Launch) (d : VDev) (cores : List Nat) (s' : State), s.launches[ln]? = some l → s.vdev? l.vd = some d → l.items.courses ≠ 0 → s.admitSpan ln = some s' →
    s.pickCores d (List.replicate l.items.span fun c => s.openFor l.vd c && s.fits c l.items l.items.courses false) = some cores →
    cores ≠ [] →
    ∃ t k, s'.truss? s.trusses.length = some t ∧ t.vd = l.vd ∧ t.index = l.admitted ∧ t.scr = [] ∧ t.courses.length = l.items.courses ∧
      some t.place = (cores[0]?).map .onCore ∧ s'.course? ⟨s.trusses.length, 0⟩ = some k ∧ k.pc = l.items.kernel.truncate 57 ∧
      k.lanes = 0xFFFFFFFF ∧ k.tkmask = l.items.tkmask ∧ k.gget 0 = BitVec.ofNat 64 l.admitted ∧ k.gget 3 = l.items.arg ∧
      k.cstate = .resident) ∧
  (∀ s (v : Fin 512) d l, s.vds = [(v.val, d)] → s.served v = true → s.replaying v = false → s.launches = [l] → l.vd = v →
    l.complete = false → l.items.progress ≠ 0 → l.admitted < l.items.total → ∀ s', s.admitSpan 0 = some s' → s.trusses = [] →
    ∃ t n, exec .launchAdmission s = .next t ∧ (t.truss? 0).map (·.place) = (s'.truss? 0).map (·.place) ∧ (t.truss? 0).isSome = true ∧ t.launches[0]?.map (·.admitted) = some n ∧
      l.admitted + l.items.span ≤ n) ∧
  (∀ (s : State) (ln : Nat) (l : Launch) (q : Qcb), s.launches[ln]? = some l → s.launchOver ln l = true → l.wait.waits = false →
    s.qcbs = [(l.blk, q)] → q.v = true → q.slot.isSome = true →
    (l.items.statusAddr = 0 →
      ∃ s' q', exec (.launchComplete ln) s = .next s' ∧ s'.launches[ln]? = some { l with complete := true, wait := .performed } ∧
        s'.qcbs = [(l.blk, q')] ∧ q'.infl = q.infl.map fun p => if p.st = .launch ln then { p with st := .done } else p) ∧
    (∀ r pl, l.items.statusAddr ≠ 0 → (∀ c d, l.wait ≠ .failed c d) →
      Memory.wf s.mem = true → s.reach ⟨2, 5, 0xFF, 0⟩ l.vd l.items.statusAddr ⟨true, false, true⟩ = r → r.2.2 = some pl → pl.prm = false → pl.host = false →
      ∃ s' l', exec (.launchComplete ln) s = .next s' ∧ s'.launches[ln]? = some l' ∧ l'.complete = true ∧
        readNat s'.mem pl.pa 8 = (if l.status ≠ 0 then l.status.toNat
          else if ∃ t ∈ s.trusses, t.launch = ln ∧ t.handlerTruss = false ∧ ∃ k ∈ t.courses, k.cstate = .killed then 3 else 0))) ∧
  (∀ (s : State) (core : Nat) (m : AMsg) (l : Launch) r pl, core < 192 → (s.core core).amsgs.find? (fun m => s.served m.vd) = some m →
    s.launches[m.launch]? = some l → m.wait.waits = false → (∀ c d, m.wait ≠ .failed c d) → s.fits core l.items 1 true = true →
    s.unparking (fun t => t.ofVd m.vd && t.place == .onCore core) = false → s.restoring m.vd = false →
    s.reach ⟨dieOf core, 0, core, ((s.slotsFor core 1)[0]?).getD 0⟩ m.vd (m.tblBase + 8 * m.handler) ⟨false, false, true⟩ = r →
    r.2.2 = some pl → pl.prm = false →
    let entry := readNat (s.bank pl.host).m pl.pa 8
    ∃ s' t k, exec (.handlerSpawn core) s = .next s' ∧ s'.truss? r.1.trusses.length = some t ∧ t.handlerTruss = true ∧ t.vd = m.vd ∧
      t.place = .onCore core ∧ t.scr = [] ∧ t.tiles = [] ∧ s'.course? ⟨r.1.trusses.length, 0⟩ = some k ∧ k.pc = BitVec.ofNat 57 entry ∧
      k.lanes = 0xFFFFFFFF ∧ k.v = payloadV m.payload) ∧
  (∀ (s : State) (core : Nat) (m : AMsg) (l : Launch), core < 192 → (s.core core).amsgs.find? (fun m => s.served m.vd) = some m →
    s.launches[m.launch]? = some l → m.wait = .failed 0x13 0xA5 → s.fits core l.items 1 true = true →
    s.unparking (fun t => t.ofVd m.vd && t.place == .onCore core) = false → s.restoring m.vd = false →
    ∃ s' t k, exec (.handlerSpawn core) s = .next s' ∧ s'.truss? s.trusses.length = some t ∧ t.handlerTruss = true ∧ t.vd = m.vd ∧
      t.place = .onCore core ∧ s'.course? ⟨s.trusses.length, 0⟩ = some k ∧ k.fetch = .failed 0x13 0xA5 ∧ k.v = payloadV m.payload ∧
      (s'.core core).amsgs = (s.core core).amsgs.erase m)

/-- R53, R98, R405: a course is parked with every shadow closed while the space a switch needs is not free, and its image takes its footprint
of the core's record; R51: it comes back resident to its slot, and that part is free. R54, R285, R403: a truss that is to leave is stored
with its scratchpad and tables, its tiles with WS 0; R54, R464: it comes back whole to the core that is picked for it, when no
parked course of its device can come back first (R402). R401, R402: an idle
set with runnable devices selects one whose pass is the smallest; a switch that is over gives the set to the incoming device. -/
def Obligations.EvictionSteps : Prop :=
  (∀ s (core : Nat) (v : Fin 512) need c t k, core < 192 → (s.core core).parking = some (v, need) → s.regFree core < need →
    s.parkNext core v = some c → s.truss? c.truss = some t → s.course? c = some k → k.cstate = .resident → s.drained c t k = true →
    k.ops = [] → t.matQ = [] → t.copyQ = [] → t.netQ = [] →
    ∃ s' k', exec (.partialEviction core v need) s = .next s' ∧ s'.course? c = some k' ∧ k'.cstate = .parked ∧ k'.shadows = [] ∧
      k'.v = k.v ∧ k'.g = k.g ∧ k'.p = k.p ∧ k'.pc = k.pc ∧ k'.tok = k.tok ∧
      ∀ d, s.vdev? t.vd = some d → ∃ p ∈ s'.ctxParts, p.vd = t.vd ∧ p.core = core ∧ p.truss = c.truss ∧ p.course = some c.course ∧
        p.size = footprint t.items.regs) ∧
  (∀ s c t k, s.truss? c.truss = some t → s.course? c = some k → s.unparkable t k = true →
    ∃ s' k', exec (.courseUnpark c) s = .next s' ∧ s'.course? c = some k' ∧ k'.cstate = .resident ∧ k'.slot = k.slot ∧
      k'.restored = some s.clk ∧ k'.v = k.v ∧ k'.g = k.g ∧ k'.p = k.p ∧ k'.pc = k.pc ∧ k'.tok = k.tok ∧
      ∀ p ∈ s'.ctxParts, ¬ (p.truss = c.truss ∧ p.course = some c.course)) ∧
  (∀ s tn t, s.truss? tn = some t → t.evict = true → t.onCore = true → s.groupOf tn = [tn] → s.canLeave tn = true →
    t.unproven = false → (∀ k ∈ t.courses, k.ops = []) → (∀ d, s.vdev? t.space = some d → d.moveTo = none) →
    ∃ s' u, exec (.fullEviction tn) s = .next s' ∧ s'.truss? tn = some u ∧ u.place = .stored t.core ∧ u.scr = t.scr ∧
      u.layouts = t.layouts ∧ u.bars = t.bars ∧ u.rings = t.rings ∧ u.evict = false ∧
      (u.tiles = t.tiles.map fun x => { x with status := statusOf 0 x.ovf x.psn }) ∧
      ∀ (j : Nat) k, t.courses[j]? = some k → k.cstate = .resident → ∃ k', u.courses[j]? = some k' ∧ k'.cstate = .stored ∧ k'.shadows = [] ∧
        k'.v = k.v ∧ k'.g = k.g ∧ k'.p = k.p ∧ k'.pc = k.pc ∧ k'.tok = k.tok) ∧
  (∀ s tn (core c0 : Nat) t d, s.truss? tn = some t → t.place = .stored c0 → s.served t.space = true → t.live ≠ 0 → s.groupOf tn = [tn] →
    s.unparking (fun u => u.ofVd t.vd) = false → s.replaying t.vd = false →
    t.items.span = 1 → t.handlerTruss = false → s.vdev? t.vd = some d →
    s.pickCores d [fun c => s.fits c { t.items with part := s.launchPart t } t.live false] = some [core] →
    ∃ s' u, exec (.trussRestore tn) s = .next s' ∧ s'.truss? tn = some u ∧ u.place = .onCore core ∧ u.scr = t.scr ∧ u.tiles = t.tiles ∧
      u.layouts = t.layouts ∧ u.tpls = t.tpls ∧ u.bars = t.bars ∧ u.rings = t.rings ∧
      ∀ (j : Nat) k, t.courses[j]? = some k → k.gone = false → ∃ k', u.courses[j]? = some k' ∧ k'.cstate = .resident ∧
        k'.restored = some s.clk ∧ k'.v = k.v ∧ k'.g = k.g ∧ k'.p = k.p ∧ k'.pc = k.pc ∧ k'.tok = k.tok) ∧
  (∀ (s : State) (set : Fin 32), s.sets[set].defined = true → s.sets[set].running = none → s.sets[set].next = none →
    (∀ w ∈ s.holders set, w < 512 ∧ s.replaying w = false) → (s.holders set).any s.isRunnable = true →
    ∃ s' v dv, exec (.sliceBoundary set) s = .next s' ∧ s'.sets[set].next = some v ∧ s'.vdev? v = some dv ∧ dv.runnable = true ∧
      ∀ w ∈ s'.holders set, ∀ dw, s'.vdev? w = some dw → dw.runnable = true → dv.pass.toNat ≤ dw.pass.toNat) ∧
  (∀ s (set : Fin 32) v, s.sets[set].defined = true → s.sets[set].running = none → s.sets[set].next = some v → s.holders set = [] →
    s.switchDone set v = true →
    ∃ s', exec (.sliceBoundary set) s = .next s' ∧ s'.sets[set].running = some v ∧ s'.sets[set].next = none ∧
      s'.sets[set].sliceStart = s.ioClk)

/-- R441 to R443, R448: a strike report sets its STRKZ bit and counts in STRIKES; where the device runs one truss of one guarded course,
which issued in the quadrant within 1,024 cycles and holds nothing, that course has a rollback request. A rollback request that is
taken at an instruction boundary, with nothing held and nothing outstanding, returns the course to its region: PC, LANEMASK, DIVSP and TSP
as `region` recorded them, with no lane of that mask exited, and the request is done. The oldest held operation of a guarded course is
released 1,024 cycles after it issued, unless a release must wait. -/
def Obligations.StrikeAndRollbackSteps : Prop :=
  (∀ s core (zone : Fin 5), core < 192 →
    ∃ s', exec (.strikeReport core zone) s = .next s' ∧ (s'.core core).strkz = (s.core core).strkz ||| BitVec.ofNat 5 (2 ^ zone.val) ∧
      s'.strikes = s.strikes + 1) ∧
  (∀ s core (zone : Fin 5) t k, core < 192 → zone.val < 4 → s.trusses = [t] → t.courses = [k] → t.place = .onCore core →
    t.items.guarded = true → k.cstate = .resident →
    k.recent.any (fun x => x.2 == 4 * core + zone.val && s.inWindow x.1) = true → k.quarantine = [] →
    ∃ s', exec (.strikeReport core zone) s = .next s' ∧ s'.course? ⟨0, 0⟩ = some { k with rollbackPend := true }) ∧
  (∀ s c t k0, s.truss? c.truss = some t → s.course? c = some k0 → s.runs t = true →
    let k := k0.merge
    k.cstate = .resident → k.tm = false → k.frames.length < 4 → k.lanes ≠ 0 → s.quadSpent (4 * t.core + k.slot / 16) = false →
    k.rollbackPend = true → k.debugPend = false → k.rgstate.getLsbD 63 = true → k.quarantine = [] → k.ops = [] →
    bits k.rgstate.toNat 40 38 ≤ k.frames.length → bits k.rgstate.toNat 37 32 ≤ k.div.length →
    ∃ s' k', exec (.regionRollback c) s = .next s' ∧ s'.course? c = some k' ∧ k'.pc = k.region ∧ k'.lanes = k.rgstate.truncate 32 ∧
      k'.exited &&& k'.lanes = 0 ∧
      k'.frames.length = bits k.rgstate.toNat 40 38 ∧ k'.div.length = bits k.rgstate.toNat 37 32 ∧ k'.bsync = none ∧
      k'.rollbackPend = false ∧ k'.shadows = [] ∧ k'.v = k.v ∧ k'.g = k.g ∧ k'.p = k.p ∧ k'.tok = k.tok) ∧
  (∀ s c t k h hs, s.truss? c.truss = some t → s.course? c = some k → k.quarantine = h :: hs → k.cstate = .resident →
    k.rollbackPend = false → s.releaseWaits c h = false → (∀ id, h.op ≠ .promise id) → (∀ die r, h.op ≠ .service die r) →
    ∃ s', exec (.quarantineRelease c) s = .next s' ∧ max s.clk (h.at_ + 1024) = s'.clk ∧
      (∀ id, h.op = .access id → s'.accesses = s.accesses.map fun a => if a.id = id then a.release else a) ∧
      (∀ b y, h.op = .barinit b → t.bars[b] = y → y.valid = false →
        ∃ u, s'.truss? c.truss = some u ∧ u.bars = t.bars.set b ⟨true, 0, 0, 0, false, 0⟩))

/-! ### Errors of memories, worn parts and kills -/

/-- R249, R437, R439: a corrected error counts in CECNT, and every CECTHR of them event 0x20 follows; an uncorrectable error in HBM poisons
the four words of its ECC word and counts in UECNT; one in a register marks that 8-byte word of it, and counts toward its core's
retirement; one in the table entry of a live device starts the reset of that device. R446: a core with all sub-arrays fenced is retired,
and the trusses of devices on it are to leave; a column with 64 errors within one window of 2^36 cycles begins to be taken off for good while more than four
are powered. -/
def Obligations.HealthEventsComplete : Prop :=
  (∀ (s : State) (kind : Fin 6) (unit : Nat),
    exec (.eccCorrected kind unit) s = .next
      (if s.cecthr ≠ 0 ∧ (s.cecnt + 1).toNat % s.cecthr.toNat = 0 then
        ({ s with cecnt := s.cecnt + 1 } : State).postEvent 0x20 (unitDie kind unit) noVd 0 (BitVec.ofNat 64 (kind.val + unit * 2 ^ 8)) (s.cecnt + 1)
      else { s with cecnt := s.cecnt + 1 })) ∧
  (∀ (s : State) (a : Nat), ∃ t, exec (.eccUncorrectable (.hbm a)) s = .next t ∧ t.uecnt = s.uecnt + 1 ∧ t.mem = s.mem ∧
    (∀ w, a / 32 * 4 ≤ w → w < a / 32 * 4 + 4 → tget false t.memPsn w = true) ∧
    (∀ w, (w < a / 32 * 4 ∨ a / 32 * 4 + 4 ≤ w) → tget false t.memPsn w = tget false s.memPsn w)) ∧
  (∀ (s : State) (c : CRef) (r w : Nat) (t : Truss) (k : Course), s.truss? c.truss = some t → s.course? c = some k → t.onCore = true →
    k.cstate = .resident → t.core < 192 →
    ∃ s', exec (.eccUncorrectable (.register c r w)) s = .next s' ∧ s'.uecnt = s.uecnt + 1 ∧
      s'.course? c = some { k with psn := k.psn ++ [(r, w)] } ∧ (s'.core t.core).ueAt = (s.core t.core).ueAt ++ [s.clk]) ∧
  (∀ (s : State) (v : Fin 512) (d : VDev), s.vdev? v = some d → s.active v = true → s.trusses = [] → s.kills = [] →
    ∃ s' d' x, exec (.eccUncorrectable (.deviceTable v)) s = .next s' ∧ s'.vdev? v = some d' ∧ d'.mode = 4 ∧ d'.modeBefore = d.mode ∧
      s'.kills = [x] ∧ x.scope = .device v false ∧ x.stage = .drain ∧ s'.uecnt = s.uecnt + 1) ∧
  (∀ (s : State) (core : Nat) (c : Core), core < 192 → s.core core = c → c.retired = false → c.fenced = 0xF →
    ∃ s', exec (.coreRetire core) s = .next s' ∧ (s'.core core).retired = true ∧ s'.rrcnt = s.rrcnt + 1 ∧
      (∀ n u, s'.truss? n = some u → u.place = .onCore core → u.kernelMode = false → u.evict = true) ∧
      (∀ n, n < 192 → n ≠ core → s'.core n = s.core n)) ∧
  (∀ (s : State) (col : Fin 16), crowded 64 (tget [] s.ueCol col) = true → s.powered.contains col.val = true → 4 < s.powered.length →
    ∃ s', exec (.columnRetire col) s = .next s' ∧ s'.columnsGone = s.columnsGone ||| BitVec.ofNat 16 (2 ^ col.val) ∧
      s'.folds = s.folds ++ [⟨col, false, false, true, false, none, [], 0⟩] ∧ s'.rrcnt = s.rrcnt + 1)

/-- R57, R186, R445: a kill of a course, whose reason holds or that the supervisor cluster orders, leaves it KILLED with the kill's cause as
the root of its chain, its truss's barriers count it as gone, and a drain begins. R408, R409: in the drain of a course's kill each engine
reports, by itself or, 2^22 cycles after the kill began, by a timeout, which may escalate it to the kill of the device's work; when the
last one has, the dump follows. R411: the dump takes the next slot, or, with no room, marks the area truncated, and leaves no chain
undumped. R413: the release frees the slot, and a device whose work was killed comes back to the mode it had:
after a RESET with the registers of its control page at reset, and else with what they hold. -/
def Obligations.KillStepsComplete : Prop :=
  (∀ (s : State) (c : CRef) (t : Truss) (k : Course) (cause : KillCause) (code d : Nat), s.truss? c.truss = some t → s.course? c = some k →
    t.onCore = true → k.cstate = .resident → c.course < 16 → s.kills = [] →
    (cause = .poisonFetch ∧ (∃ y, k.fetch = .failed 0x15 y) ∧ (code, d) = (0x15, 3) ∨
      cause = .poisonRead ∧ (∃ o ∈ k.ops, o.wait = .nothing ∧ o.fallen = false ∧ o.poison = true ∧ o.fault = none) ∧ (code, d) = (0x15, 0) ∨
      cause = .noRegion ∧ k.rollbackPend = true ∧
        (k.live = 0 ∨ k.tm = false ∧ (k.rgstate.getLsbD 63 = false ∨ k.frames.length < bits k.rgstate.toNat 40 38 ∨
          k.div.length < bits k.rgstate.toNat 37 32)) ∧ (code, d) = (0x15, 1) ∨
      cause = .unguardedStrike ∧ t.items.guarded = false ∧
        (∃ e ∈ k.recent, s.inWindow e.1 = true ∧ (s.core (e.2 / 4)).strkz.getLsbD (e.2 % 4) = true) ∧ (code, d) = (0x15, 2) ∨
      (∃ c0 d0, cause = .trapOverflow c0 d0 ∧ k.fetch = .failed c0 d0 ∧ c0 < 256 ∧ d0 < 256 ∧
        (4 ≤ k.frames.length ∧ (code, d) = (0x19, 0) ∨ k.frames.length < 4 ∧ t.items.handler = 0 ∧ (code, d) = (c0, d0)))) →
    ∃ s' u k' r x, exec (.courseKill c cause) s = .next s' ∧ s'.truss? c.truss = some u ∧ u.goneMask.getLsbD c.course = true ∧
      s'.course? c = some k' ∧ k'.cstate = .killed ∧ k'.chain = [r] ∧ r.w0.truncate 16 = BitVec.ofNat 16 (code + d * 2 ^ 8) ∧
      r.w2 = k.pc.zeroExtend 64 ∧ s'.kills = [x] ∧ x.scope = .course c ∧ x.stage = .drain ∧ x.root = r) ∧
  (∀ (s : State) (c : CRef) (t : Truss) (k : Course), s.truss? c.truss = some t → s.course? c = some k → t.onCore = true → k.cstate = .resident →
    s.kills = [] → ∃ s' k' x, exec (.courseKill c .supervisor) s = .next s' ∧ s'.course? c = some k' ∧ k'.cstate = .killed ∧
      s'.kills = [x] ∧ x.scope = .course c ∧ x.stage = .drain ∧ k'.chain = [x.root]) ∧
  (∀ (s : State) (x : Kill) (eng : Engine) (c : CRef), s.kills = [x] → x.stage = .drain → x.drained.contains eng = false → x.scope = .course c →
    eng ≠ .core → ∃ s' y, exec (.killDrain eng) s = .next s' ∧ s'.kills = [y] ∧ y.drained = x.drained ++ [eng] ∧ y.scope = x.scope ∧
      y.root = x.root ∧ y.stage = if allEngines.all (x.drained ++ [eng]).contains then .dump else .drain) ∧
  (∀ (s : State) (x : Kill) (c : CRef), s.kills = [x] → x.stage = .drain → x.drained.contains .core = false → x.scope = .course c →
    s.accesses = [] → s.proms = [] → ∃ s' y, exec (.killDrain .core) s = .next s' ∧ s'.kills = [y] ∧ y.drained = x.drained ++ [.core]) ∧
  (∀ (s : State) (x : Kill) (eng : Engine) (c : CRef) (t : Truss), s.kills = [x] → x.stage = .drain → x.drained.contains eng = false →
    x.scope = .course c → s.truss? c.truss = some t → t.kernelMode = false →
    (∃ s' y, exec (.drainTimeout ⟨eng, false⟩) s = .next s' ∧ s'.kills = [y] ∧ y.drained = x.drained ++ [eng] ∧ x.began + 2 ^ 22 ≤ s'.clk) ∧
    (s.active t.vd = true → ∃ s' y z, exec (.drainTimeout ⟨eng, true⟩) s = .next s' ∧ s'.kills = [y, z] ∧ y.drained = x.drained ++ [eng] ∧
      x.began + 2 ^ 22 ≤ s'.clk ∧ z.scope = .device t.vd false ∧ z.stage = .drain)) ∧
  (∀ (s : State) (x : Kill) (c : CRef) (t : Truss) (k : Course) (d : VDev), s.kills = [x] → x.stage = .dump → x.scope = .course c →
    s.truss? c.truss = some t → t.place ≠ .gone → s.course? c = some k → k.cstate = .killed → k.chain ≠ [] → s.vdev? t.vd = some d →
    ∃ s' y k' d', exec .killDump s = .next s' ∧ s'.kills = [y] ∧ y.stage = .release ∧ s'.course? c = some k' ∧ k'.chain = [] ∧
      s'.vdev? t.vd = some d' ∧ d'.dumps = d.dumps + 1 ∧
      (0 < d.dumpRoom → x.firstSlot = none → y.firstSlot = some d.dumpNext ∧ d'.chainSlots = d.chainSlots ++ [d.dumpNext]) ∧
      (d.dumpRoom = 0 → d'.dumpTrunc = true)) ∧
  (∀ (s : State) (x : Kill) (c : CRef) (t : Truss) (k : Course), s.kills = [x] → x.stage = .release → x.scope = .course c →
    s.truss? c.truss = some t → t.place ≠ .gone → s.course? c = some k → k.cstate = .killed → t.courses = [k] → x.mailbox = false →
    ∃ s' u k', exec .killRelease s = .next s' ∧ s'.kills = [] ∧ s'.truss? c.truss = some u ∧ u.place = .gone ∧ u.scr = [] ∧ u.tiles = [] ∧
      s'.course? c = some k' ∧ k'.slot = 64 ∧ k'.ops = [] ∧ k'.chain = []) ∧
  (∀ (s : State) (x : Kill) (v : Fin 512) (d : VDev), s.kills = [x] → x.stage = .release → x.scope = .device v false → s.trusses = [] →
    s.vdev? v = some d →
    ∃ s' d', exec .killRelease s = .next s' ∧ s'.kills = [] ∧ s'.vdev? v = some d' ∧ d'.mode = d.modeBefore ∧ d'.kdone = true ∧
      (x.resets = true → d'.s1root = 0 ∧ d'.fltbase = 0 ∧ d'.flttail = 0 ∧ d'.flthead = 0 ∧ d'.vecs = 0) ∧
      (x.resets = false → d'.s1root = d.s1root ∧ d'.fltbase = d.fltbase ∧ d'.flttail = d.flttail ∧ d'.flthead = d.flthead ∧
        d'.vecs = d.vecs) ∧
      (∀ e ∈ s'.tlbs, e.space ≠ v.val) ∧ s'.mbBusy = (if x.mailbox then false else s.mbBusy))

/-! ### Homes, promise waits, migration and fault records -/

/-- R195, R238, R250: one step of an access at its home, when no other is in flight: a part whose generation is stale is rejected and goes
back to its walk; a store's bytes are in memory and its word, written whole, is clean; a load brings the bytes that memory holds.
R195, R276, R277: a repeating `pwait` completes once its class is FULL, is parked where there is room, and is rejected when its
translation is stale. R242: a fold begins to move an entry, and hands its lines over. R244: a unit that may move and that an access waits
for comes into HBM, and every wait on it ends; R245: a unit that may move is moved out; R248: a counter-managed unit follows the side that
issued more than three quarters of its last 4,096 atomics. R396, R397: a replayable fault is recorded, and passed on once. -/
def Obligations.MemoryEventsComplete : Prop :=
  (∀ (s : State) (a : Access) (i : Nat) (p : Part) (t : Truss) (k : Course) (pa : Nat) (gen : BitVec 16) (srv : Serve),
    s.accesses = [a] → a.parts[i]? = some p → s.truss? a.who.truss = some t → s.course? a.who = some k → k.cstate = .resident →
    p.phase = .ready pa gen false → a.scratch = false → p.got = [] → s.proms = [] → s.early = [] →
    (∀ q ∈ a.parts, q.sent = p.sent ∧ q.early = false) →
    (s.gen t.space ≠ gen → ∃ s' b q, exec (.homeSliceAccess a.id i srv) s = .next s' ∧ s'.accesses = [b] ∧ b.parts[i]? = some q ∧
      q = { p with phase := .untranslated } ∧ s'.mem = s.mem ∧ s'.memPsn = s.memPsn) ∧
    (s.gen t.space = gen → a.parts = [p] → a.kind = .store → srv = .home → p.size = 8 → p.data.length = 8 → p.cmp = [] → pa % 8 = 0 →
      Memory.wf s.mem = true → twf false s.memPsn = true →
      ∃ s', exec (.homeSliceAccess a.id i srv) s = .next s' ∧ s'.accesses = [] ∧ readBytes s'.mem pa 8 = p.data ∧
        tget false s'.memPsn (pa / 8) = false ∧ (∀ x, (x < pa ∨ pa + 8 ≤ x) → mget s'.mem x = mget s.mem x)) ∧
    (s.gen t.space = gen → 2 ≤ (a.parts.filter fun q => !q.phase.settled).length → a.kind = .load → srv = .homeNoFill →
      tget? s.l1 (l1Key t.core pa) = none → (∀ j, j < i → ∀ q, a.parts[j]? = some q → q.phase.settled = true) →
      ∃ s' b q, exec (.homeSliceAccess a.id i srv) s = .next s' ∧ s'.accesses = [b] ∧ b.parts[i]? = some q ∧ q.phase = .performed ∧
        q.got = readBytes s.mem pa p.size ∧ q.poison = anyPsn s.memPsn pa p.size ∧ s'.mem = s.mem)) ∧
  (∀ (s : State) (p : PromOp) (c r : Nat) (gen : BitVec 16) (host : Bool), s.proms = [p] → p.op = .pwait → p.phase = .ready c gen host →
    s.findRidge c = some r → p.waiting = some (r, false) →
    (∀ x, s.gen (s.promAgent p).2.1 = gen → s.cellValue r = some x → ∃ s', exec (.pwaitRepeat p.id) s = .next s' ∧ s'.proms = []) ∧
    (s.gen (s.promAgent p).2.1 = gen → s.cellValue r = none →
      exec (.pwaitRepeat p.id) s = .next { s with proms := [{ p with waiting := some (r, true) }] }) ∧
    (s.gen (s.promAgent p).2.1 ≠ gen → ∃ s', exec (.pwaitRepeat p.id) s = .next s' ∧
      s'.proms = [{ p with waiting := none, phase := .untranslated }] ∧ s'.cells = s.cells)) ∧
  (∀ (s : State) (f : Fold) (fs : List Fold) (h line : Nat), s.folds = f :: fs → f.entry = some h → f.left ≠ [] →
    ∃ s', exec (.lineHandover line) s = .next s' ∧ s'.folds = { f with left := f.left.filter (· != line) } :: fs ∧ s'.mem = s.mem) ∧
  (∀ (s : State) (f : Fold) (fs : List Fold) (h line : Nat), s.folds = f :: fs → f.entry = none → s.toMove f = some h →
    ∃ s' g, exec (.lineHandover line) s = .next s' ∧ s'.folds = g :: fs ∧ g.entry = some h ∧ g.left = s.linesOf h ∧
      tget? s'.fold h = some (foldWord true (s.sliceOf h) (s.foldDest f h)) ∧ s'.mem = s.mem) ∧
  (∀ (s : State) (v : Fin 512) (gpa : Nat) (d : VDev) (hbm a e : Nat) (free : List Nat), s.vdev? v = some d → s.hbmFree = hbm :: free →
    s.leaf2 d gpa = some (a, e) → inHost e = true → s.unitPinned d (gpa / unit64 * unit64) e = false →
    s.wantsUnit v (gpa / unit64 * unit64) = true →
    ∃ s', exec (.pageIn v gpa) s = .next s' ∧ s'.hbmFree = free ∧ s'.wantsUnit v (gpa / unit64 * unit64) = false ∧
      (∀ f ∈ s'.faults, f.on v true true (gpa / unit64 * unit64) = false) ∧
      ∀ b ∈ s'.accesses, ∀ t, s'.truss? b.who.truss = some t → t.space = v → ∀ p ∈ b.parts, ∀ x, p.phase = .paging x →
        x / unit64 ≠ gpa / unit64) ∧
  (∀ (s : State) (v : Fin 512) (gpa frame : Nat) (d : VDev) (a e : Nat), s.vdev? v = some d → s.leaf2 d gpa = some (a, e) →
    s.unitInHbm d (gpa / unit64 * unit64) e = true → s.unitPinned d (gpa / unit64 * unit64) e = false →
    ∃ s', exec (.pageOut v gpa frame) s = .next s' ∧
      s'.hbmFree = s.hbmFree ++ [bits e 51 16 * unit64] ∧ s'.gen v = d.gen + 1) ∧
  (∀ (s : State) (v : Fin 512) (gpa frame : Nat) (d : VDev) (a e : Nat), s.vdev? v = some d → s.leaf2 d gpa = some (a, e) →
    bit e 57 = true → d.mode ≠ 0 → d.mode.toNat ≤ 3 → s.unitPinned d (gpa / unit64 * unit64) e = false →
    let last := tget [] s.cmCount (unitKey (bits e 51 12 * 4096) (bit e 9))
    last.length = 4096 →
    (s.unitInHbm d (gpa / unit64 * unit64) e = true → 3072 < last.count true →
      ∃ s', exec (.counterManagedMove v gpa frame) s = .next s' ∧ s'.hbmFree = s.hbmFree ++ [bits e 51 16 * unit64]) ∧
    (∀ hbm free, inHost e = true → 3072 < last.count false → s.hbmFree = hbm :: free →
      ∃ s', exec (.counterManagedMove v gpa frame) s = .next s' ∧ s'.hbmFree = free)) ∧
  (∀ (s : State) (v : Fin 512) (d : VDev) (f : FaultWait) (s1 : State), s.vdev? v = some d → s.nextFault v false false = some f → d.fltRoom = true →
    s.guestWrite v d (bits d.fltbase.toNat 51 12 * 4096 + 32 * (d.flttail.toNat % 2 ^ bits d.fltbase.toNat 3 0)) (s.faultRecord f) = some s1 →
    ∃ s' d', exec (.stage1FaultRecord v) s = .next s' ∧ s'.vdev? v = some d' ∧ d'.flttail = d.flttail + 1 ∧
      ∀ g ∈ s'.faults, g.passed = false → g ≠ f) ∧
  (∀ (s : State) (v : Fin 512) (f : FaultWait), s.nextFault v true false = some f →
    exec (.stage2FaultEvent v) s =
      .next ((s.passFault f).postEvent 0x01 f.die v 0 (BitVec.ofNat 64 f.addr) (BitVec.ofNat 64 f.detail)))

/-! ### Queues -/

/-- R332, R339, R341: a kick of a queue's register raises its TAIL, sets the pending bit of a queue that is UNMAPPED, and changes nothing
else; one to no queue is discarded and counted. R340: a deferrable 128-byte write to a submission page appends four units and completes
Successful; a posted one is discarded and counted. R343: a thread fetches the packet at HEAD into its empty lookahead. -/
def Obligations.KicksAndFetches : Prop :=
  (∀ (s : State) (v j : Fin 512) (t : W32) (b : Qcb), (s.vdev? v).isSome = true → (s.kickEntry v j).getLsbD 31 = true →
    (s.kickEntry v j).getLsbD 30 = false → s.qcb? (bits (s.kickEntry v j).toNat 15 0) = some b → Memory.wf s.mem = true →
    (t - b.retire).toNat ≤ b.units →
    1 ≤ (t - b.tail).toNat → (t - b.tail).toNat < 2 ^ 31 →
    ∃ s' b', exec (.kickWrite v j t) s = .next s' ∧ s'.qcb? (bits (s.kickEntry v j).toNat 15 0) = some b' ∧ b'.tail = t ∧
      b'.head = b.head ∧ b'.st = b.st ∧ (b.st = .unmapped → b'.pending = true) ∧ (b.st ≠ .unmapped → b' = { b with tail := t }) ∧
      s'.discards = s.discards) ∧
  (∀ (s : State) (v j : Fin 512) (t : W32), (s.vdev? v).isSome = true → s.qcb? (bits (s.kickEntry v j).toNat 15 0) = none →
    exec (.kickWrite v j t) s = .next { s with discards := s.discards + 1 }) ∧
  (∀ (s : State) (v j : Fin 512) (off : Nat) (data : List Byte),
    exec (.submissionWrite v j true off data) s = .next { s with discards := s.discards + 1 }) ∧
  (∀ (s : State) (v j : Fin 512) (off : Nat) (data : List Byte) (b : Qcb) (s1 : State), (s.vdev? v).isSome = true →
    (s.kickEntry v j).getLsbD 31 = true → (s.kickEntry v j).getLsbD 30 = true → s.qcb? (bits (s.kickEntry v j).toNat 15 0) = some b →
    data.length = 128 → off % 128 = 0 → off < 4096 → b.st ≠ .halted → (b.tail - b.retire).toNat + 4 ≤ b.units →
    s.putUnits b b.tail (pieces 32 4 data) = (s1, none) → s1.qcb? (bits (s.kickEntry v j).toNat 15 0) = some b → Memory.wf s1.mem = true →
    ∃ s' b', exec (.submissionWrite v j false off data) s = .next s' ∧ s'.qcb? (bits (s.kickEntry v j).toNat 15 0) = some b' ∧
      b'.tail = b.tail + 4 ∧ b'.head = b.head ∧ (b.st = .unmapped → b'.pending = true) ∧ (b.slot.isSome = true → s'.mem = s1.mem) ∧
      s'.hostOut = s1.hostOut ++ [HostOut.completion .successful]) ∧
  (∀ (s : State) (blk : Nat) (b : Qcb) (s1 s2 : State) (h p : List Byte), s.qcb? blk = some b → s.fallback b = false → s.threadRuns b = true →
    b.look = [] → b.wait = .untranslated → b.head ≠ b.tail → (b.tail - b.head).toNat ≤ b.units →
    s.getUnits b b.head 1 = (s1, .ok h) → pkSize h + 1 ≤ (b.tail - b.head).toNat → s1.getUnits b b.head (pkSize h + 1) = (s2, .ok p) →
    ∃ s' b', exec (.packetFetch blk) s = .next s' ∧ s'.qcb? blk = some b' ∧ b' = { b with look := [p], ringAt := none } ∧ s'.mem = s2.mem)

/-- R342 to R350: a packet at the head of its queue that passes the checks of R343, with none before it in flight, issues: HEAD and ESEQ pass
over it, and what it still waits for is in flight. A LAUNCH goes to the distributor; a WAIT blocks its queue, on a promise or on a word
of memory; a SIGNAL fills a cell, stores a word, or sends an interrupt; a COND may skip packets; a COPY then moves its bytes piece by
piece. R354: under the fallback scheduler the visit of the slot whose turn it is issues a NOP, a LAUNCH, a SIGNAL or a WAIT on a promise,
and holds a packet of another type. -/
def Obligations.PacketsIssue : Prop :=
  (∀ (s : State) (blk : Nat) (b : Qcb) (p : List Byte) (s1 : State), HeadReady s blk b p s1 → s.fallback b = false →
    let one := fun (i : Instr) (st : Inflight) (more : State → Qcb → Prop) =>
      ∃ s' b', exec i s = .next s' ∧ s'.qcb? blk = some b' ∧ Moved b b' p st ∧ more s' b'
    (pkType p = 0 → one (.packetNop blk) .done fun s' b' => s'.mem = s1.mem ∧ b'.st = .running) ∧
    (pkType p = 6 → one (.packetFence blk) .done fun s' b' => s'.mem = s1.mem ∧ b'.st = .running) ∧
    (pkType p = 1 → one (.packetLaunch blk) (.launch s.launches.length) fun s' b' => b'.st = .running ∧
      ∃ l, s'.launches = s.launches ++ [l] ∧ l.items = launchItems p ∧ l.vd = b.vd ∧ l.blk = blk ∧ l.seq = pkSeq p ∧ l.complete = false ∧
        l.status = if (launchItems p).ok = true then 0 else 2) ∧
    (pkType p = 2 → bit (pkFlags p) 0 = false → pkWord p 16 < 2 ^ 57 →
      one (.packetWaitPromise blk) (.waitProm s.nextId) fun s' b' => b'.st = .blocked ∧
        ∃ q, s'.proms = s.proms ++ [q] ∧ q.id = s.nextId ∧ q.op = .pwait ∧ q.va = pkWord p 16 ∧ q.who = .queue blk ∧ q.vd = b.vd) ∧
    (pkType p = 2 → bit (pkFlags p) 0 = true →
      one (.packetWaitMemory blk) (.waitMem (pkWord p 16) (BitVec.ofNat 64 (pkWord p 24)) (BitVec.ofNat 64 (pkWord p 32))
        (bits (pkFlags p) 3 1) (bit (pkFlags p) 4)) fun _ b' => b'.st = .blocked ∧ b'.polled = s.ioClk) ∧
    (pkType p = 3 → bits (pkFlags p) 1 0 = 0 → pkWord p 16 < 2 ^ 57 →
      one (.packetSignalFill blk) (.promise s.nextId) fun s' b' => b'.st = .running ∧
        ∃ q, s'.proms = s.proms ++ [q] ∧ q.op = .pfill (BitVec.ofNat 64 (pkWord p 24)) ∧ q.va = pkWord p 16 ∧ q.who = .queue blk) ∧
    (∀ s2, pkType p = 3 → bits (pkFlags p) 1 0 = 1 →
      s1.queueWrite b (pkWord p 16) (natBytes (if bit (pkFlags p) 2 then 8 else 4) (pkWord p 24)) = (s2, .ok ()) →
      one (.packetSignalStore blk) .done fun s' _ => s'.mem = s2.mem ∧ s'.hostMem = s2.hostMem) ∧
    (pkType p = 3 → bits (pkFlags p) 1 0 = 2 →
      exec (.packetSignalInterrupt blk) s = .next ((s1.interrupt (b.vd * 64 + pkWord p 16)).modQcb blk fun b => b.issued p .done)) ∧
    (∀ s2 x, pkType p = 4 → s1.queueAcquire b (pkWord p 16) 4 = (s2, .ok x) →
      one (.packetCond blk) .done fun _ b' =>
        b'.skip = (if (BitVec.ofNat 64 (bytesNat x) != 0) = bit (pkFlags p) 0 then bytesNat ((p.drop 24).take 2) else 0)) ∧
    (pkType p = 5 → one (.packetCopy blk) (.copy (pkWord p 16) (pkWord p 24) (pkWord p 32) 0) fun s' _ => s'.mem = s1.mem)) ∧
  (∀ (s : State) (blk : Nat) (b : Qcb) (q : Packet) (a c n i : Nat) (s1 : State), s.qcb? blk = some b → s.copyMayIssue b = false → b.slot.isSome = true →
    b.infl = [q] → q.st = .copy a c n i → q.wait = .untranslated →
    s.moveBytes b (a + i) (c + i) (copyPiece (a + i) (c + i) (n - i)) = (s1, .ok ()) →
    ∃ s' b', exec (.packetCopy blk) s = .next s' ∧ s'.qcb? blk = some b' ∧ s'.mem = s1.mem ∧
      b'.infl = [{ q with st := if n ≤ i + copyPiece (a + i) (c + i) (n - i) then .done else .copy a c n (i + copyPiece (a + i) (c + i) (n - i)) }]) ∧
  (∀ (s : State) (blk : Nat) (b : Qcb) (p : List Byte) (s1 : State) (qp : Fin 8) (slot : Fin 32), s.qpFallback[qp] = true →
    s.qpCursor[qp] = slot.val →
    let v : State := { s with qpCursor := s.qpCursor.set qp ((slot.val + 1) % 32) }
    HeadReady v blk b p s1 → s.qcbs.find? (fun e => (e.2.slot.map (·.val)) == some (32 * qp.val + slot.val)) = some (blk, b) →
    let one := fun (st : Inflight) => ∃ s' b', exec (.fallbackVisit qp slot) s = .next s' ∧ s'.qcb? blk = some b' ∧ Moved b b' p st
    (pkType p = 0 → one .done) ∧
    (pkType p = 1 → one (.launch s.launches.length)) ∧
    (pkType p = 2 → bit (pkFlags p) 0 = false → pkWord p 16 < 2 ^ 57 → one (.waitProm s.nextId)) ∧
    (pkType p = 3 → bits (pkFlags p) 1 0 = 0 → pkWord p 16 < 2 ^ 57 → one (.promise s.nextId)) ∧
    (∀ s2, pkType p = 3 → bits (pkFlags p) 1 0 = 1 →
      s1.queueWrite b (pkWord p 16) (natBytes (if bit (pkFlags p) 2 then 8 else 4) (pkWord p 24)) = (s2, .ok ()) → one .done) ∧
    (pkType p = 3 → bits (pkFlags p) 1 0 = 2 → one .done) ∧
    (pkType p = 4 ∨ pkType p = 5 ∨ pkType p = 6 ∨ pkType p = 2 ∧ bit (pkFlags p) 0 = true →
      exec (.fallbackVisit qp slot) s = .next v))

/-- R347: a memory WAIT whose condition holds when it is polled ends, and one whose condition does not is polled again 1,024 cycles later.
R342: completed packets retire in ring order, and RETIRE is reported at HMIR. R351: a pass maps a pending queue, the only one, to a free
slot of its device's share. R352: a mapped queue that is unmapped leaves its slot, its memory WAIT is withdrawn, and it stays pending while
packets lie behind HEAD. R354: a missed heartbeat puts the fallback scheduler in, and running firmware takes it out. -/
def Obligations.QueueUpkeep : Prop :=
  (∀ (s : State) (blk : Nat) (b : Qcb) (q : Packet) (a : Nat) (v m : W64) (cond : Nat) (w64 : Bool) (s1 : State) (x : List Byte),
    s.qcb? blk = some b → b.slot.isSome = true → b.st = .blocked → s.fallback b = false → b.wait = .untranslated → s.active b.vd = true → b.infl = [q] →
    q.st = .waitMem a v m cond w64 → s.capctl.getLsbD 9 = false →
    (s.advanceTo ((b.polled * 3 + 1) / 2)).queueAcquire b a (if w64 then 8 else 4) = (s1, .ok x) →
    let keep := if w64 then 2 ^ 64 else 2 ^ 32
    ∃ s' b', exec (.waitPoll blk) s = .next s' ∧ s'.qcb? blk = some b' ∧
      if waitHolds ((bytesNat x &&& m.toNat) % keep) (v.toNat % keep) cond then b'.st = .running ∧ b'.infl = [{ q with st := .done }]
      else b'.st = .blocked ∧ b'.infl = [q] ∧ b'.polled = b.polled + 1024) ∧
  (∀ (s : State) (blk : Nat) (b : Qcb) (as bs : List Packet), s.qcb? blk = some b → Memory.wf s.mem = true →
    b.infl = as ++ bs → as ≠ [] → (∀ q ∈ as, q.st = .done) → (∀ q, bs.head? = some q → q.st ≠ .done) →
    ∃ s' b', exec (.packetRetire blk) s = .next s' ∧ s'.qcb? blk = some b' ∧ b'.infl = bs ∧ b'.unreported = true ∧
      b'.retire = b.retire + BitVec.ofNat 32 ((as.map (·.units)).sum)) ∧
  (∀ (s : State) (blk : Nat) (b : Qcb) (s1 : State), s.qcb? blk = some b → b.slot.isSome = true → b.unreported = true → b.hwait = .untranslated →
    b.hmir ≠ 0 →
    s.queueWrite b b.hmir (natBytes 4 b.retire.toNat) = (s1, .ok ()) →
    ∃ s', exec (.retireReport blk) s = .next s' ∧ s'.qcb? blk = some { b with unreported := false } ∧ s'.mem = s1.mem ∧
      s'.hostMem = s1.hostMem) ∧
  (∀ (s : State) (blk : Nat) (b0 b : Qcb) (n : Fin 256) (d : VDev), s.qcbs = [(blk, b0)] → b0.slot = none → s.qcb? blk = some b →
    b.pending = true → b.st = .unmapped → s.active b.vd = true → s.vdev? b.vd = some d → 0 < d.hqs → s.freeSlot = some n →
    ∃ s' b', exec .queueSchedulerPass s = .next s' ∧ s'.qcb? blk = some b' ∧ b'.st = .running ∧ b'.slot = some n ∧ b'.pending = false ∧
      b'.look = [] ∧ b'.head = b.head ∧ b'.tail = b.tail ∧ b'.infl = b.infl) ∧
  (∀ (s : State) (blk : Nat) (b : Qcb), s.qcb? blk = some b → b.slot.isSome = true → s.fallback b = false → b.st = .running → b.infl = [] →
    Memory.wf s.mem = true → b.rsz < 32 →
    ∃ s' b', exec (.queueUnmap blk) s = .next s' ∧ s'.qcb? blk = some b' ∧ b'.st = .unmapped ∧ b'.slot = none ∧ b'.head = b.head ∧
      b'.eseq = b.eseq ∧ b'.look = [] ∧ (b.head ≠ b.tail → b'.pending = true)) ∧
  (∀ (s : State) (blk : Nat) (b : Qcb) (q : Packet) (a : Nat) (v m : W64) (cond : Nat) (w64 : Bool), s.qcb? blk = some b →
    b.slot.isSome = true → s.fallback b = false → b.st = .blocked → b.infl = [q] → q.st = .waitMem a v m cond w64 →
    Memory.wf s.mem = true → b.rsz < 32 →
    ∃ s' b', exec (.queueUnmap blk) s = .next s' ∧ s'.qcb? blk = some b' ∧ b'.st = .unmapped ∧ b'.slot = none ∧ b'.infl = [] ∧
      b'.head = b.head - BitVec.ofNat 32 q.units ∧ b'.eseq = b.eseq - 1) ∧
  (∀ (s : State) (qp : Fin 8), s.qpFallback[qp] = false →
    ∃ s', exec (.heartbeatMiss qp) s = .next s' ∧ s'.qpFallback = s.qpFallback.set qp true ∧ s'.qcbs = s.qcbs) ∧
  (∀ (s : State) (qp : Fin 8), s.qpFallback[qp] = true →
    ∃ s', exec (.firmwareRunningAgain qp) s = .next s' ∧ s'.qpFallback = s.qpFallback.set qp false ∧ s'.qcbs = s.qcbs)

/-! ### The mailbox -/

/-- R388 to R392, R399, R404: CREATE makes a device in a free VDID with the root of its stage 2 from the pool; DESTROY begins its end,
or waits for the end of a switch into the device (R416), and stays BUSY; SETWEIGHT, SETMODE, DEFSET and SETSET change the device or the set they name (SETSET said here where no truss and no launch
stands in its way), and complete OK; a weight of 0 is BADARG, and SETMODE of a device that is not there is NOVD. A DEFSET while BUSY only
counts in DISCARDS. -/
def Obligations.DeviceCommands : Prop :=
  (∀ (s : State) (w : Vector W64 8) (root : Nat) (pool : List Nat), MailReady s → s.vdev? (argVd w) = none → s.pool = root :: pool →
    s.createErr w (bits w[1].toNat 28 24) (bits w[1].toNat 43 41) (bits w[1].toNat 23 16) (bits w[1].toNat 40 32) w[2].toNat w[3].toNat
      (bits w[4].toNat 63 32) w[5].toNat (vat s.sets (bits w[1].toNat 28 24) ClSet.reset) = 0 →
    ∃ s' d, exec (.create w) s = .next s' ∧ Answered s' 0 ∧ s'.pool = pool ∧ s'.vdev? (argVd w) = some d ∧ d.v = true ∧
      d.mode.toNat = bits w[1].toNat 43 41 ∧ d.weight.toNat = bits w[1].toNat 23 16 ∧ d.hqs = bits w[1].toNat 40 32 ∧ d.s2root = root ∧
      d.s1root = 0 ∧ d.ctxBase = w[2].toNat ∧ d.dumpBase = w[3].toNat ∧ d.set.val = bits w[1].toNat 28 24 ∧ d.pass = 0 ∧
      d.meters = Vector.replicate 10 0) ∧
  (∀ (s : State) (w : Vector W64 8) (d : VDev), MailReady s → s.vdev? (argVd w) = some d → d.mode ≠ 4 →
    (s.switchingTo (fin512 (argVd w)) = false →
      ∃ s' d' x, exec (.destroy w) s = .next s' ∧ s'.mbBusy = true ∧ s'.vdev? (argVd w) = some d' ∧ d'.mode = 4 ∧
        s'.kills = s.kills ++ [x] ∧ x.scope = .device (fin512 (argVd w)) true ∧ x.stage = .drain ∧ x.mailbox = true) ∧
    (s.switchingTo (fin512 (argVd w)) = true →
      ∃ s' x, exec (.destroy w) s = .next s' ∧ s'.mbBusy = true ∧ s'.vds = s.vds ∧
        s'.kills = s.kills ++ [x] ∧ x.scope = .device (fin512 (argVd w)) true ∧ x.stage = .wait ∧ x.mailbox = true) ∧
    (bits w[2].toNat 7 0 ≠ 0 → ∃ s', exec (.setweight w) s = .next s' ∧ Answered s' 0 ∧
      s'.vdev? (argVd w) = some { d with weight := BitVec.ofNat 8 (bits w[2].toNat 7 0) }) ∧
    (bits w[2].toNat 7 0 = 0 → ∃ s', exec (.setweight w) s = .next s' ∧ Answered s' 1 ∧ s'.vds = s.vds) ∧
    (bits w[2].toNat 2 0 ≤ 3 → ∃ s', exec (.setmode w) s = .next s' ∧ Answered s' 0 ∧
      s'.vdev? (argVd w) = some { d with mode := BitVec.ofNat 3 (bits w[2].toNat 2 0) }) ∧
    ((vat s.sets (bits w[2].toNat 4 0) ClSet.reset).defined = true → ctxNeed (vat s.sets (bits w[2].toNat 4 0) ClSet.reset).mask ≤ d.ctxSize →
      s.trusses = [] → s.launches = [] →
      ∃ s' d', exec (.setset w) s = .next s' ∧ Answered s' 0 ∧ s'.vdev? (argVd w) = some d' ∧ d'.set.val = bits w[2].toNat 4 0 ∧
        d'.grant = (vat s.sets (bits w[2].toNat 4 0) ClSet.reset).mask ∧ d'.moveTo = none)) ∧
  (∀ (s : State) (w : Vector W64 8), MailReady s → s.vdev? (argVd w) = none →
    ∃ s', exec (.setmode w) s = .next s' ∧ Answered s' 5 ∧ s'.vds = s.vds) ∧
  (∀ (s : State) (w : Vector W64 8), MailReady s → s.holders (bits w[1].toNat 4 0) = [] →
    (∀ k : Fin 32, k.val ≠ bits w[1].toNat 4 0 → s.sets[k].defined = true → s.sets[k].mask &&& w[2].truncate 24 = 0) →
    ∃ s', exec (.defset w) s = .next s' ∧ Answered s' 0 ∧
      s'.sets = vput s.sets (bits w[1].toNat 4 0) { ClSet.reset with defined := true, mask := w[2].truncate 24 }) ∧
  (∀ (s : State) (w : Vector W64 8), s.power = .ready → s.mbBusy = true →
    exec (.defset w) s = .next { s with discards := s.discards + 1 })

/-- R198, R216, R225, R338, R349, R390, R391, R397, R398, R411: MAPVEC writes a remap entry and sends a held message once; MAP2 maps pages
and ends the waits on them, UNMAP2 takes them away and raises the generation, ABORT2 ends waits in PERM; METERS writes the ten
meters to the host, or keeps the write while the host port is not trained (R471); QCREATE and QRESTART make a queue and start it again;
DUMPACK frees dump slots. A mapping over a context area is refused (the model's choice: log 49). -/
def Obligations.ResourceCommands : Prop :=
  (∀ (s : State) (w : Vector W64 8) (d : VDev), MailReady s → s.vdev? (argVd w) = some d → d.mode ≠ 4 →
    (bits w[3].toNat 61 11 = 0 → twf 0 s.remap = true →
      let e := argVd w * 64 + bits w[2].toNat 5 0
      ∃ s' x, exec (.mapvec w) s = .next s' ∧ Answered s' 0 ∧ tget 0 s'.remap e = x ∧ x.getLsbD 63 = w[3].getLsbD 63 ∧
        x.getLsbD 62 = w[3].getLsbD 62 ∧ bits x.toNat 10 0 = bits w[3].toNat 10 0 ∧
        (∀ j, j ≠ e → tget 0 s'.remap j = tget 0 s.remap j)) ∧
    (∀ s1 r, w[2].toNat % 4096 = 0 → w[3].toNat % 4096 = 0 → w[2].toNat + 4096 * w[4].toNat ≤ 2 ^ 52 → w[3].toNat + 4096 * w[4].toNat ≤ 2 ^ 52 →
      bits w[5].toNat 59 58 ≠ 3 → s.coversContext w[5].toNat w[3].toNat (4096 * w[4].toNat) = false →
      ({ s with mbcmd := coded w 0x08, mbBusy := true } : State).mapPages d.s2root w[2].toNat (w[3].toNat / 4096) w[5].toNat w[4].toNat = some (s1, r) →
      ∃ s', exec (.map2 w) s = .next s' ∧ Answered s' 0 ∧ s'.mem = s1.mem ∧
        s'.gen (argVd w) = (if r then d.gen + 1 else d.gen) ∧ ∀ p ∈ s'.phasesOf (argVd w), inRange w[2].toNat w[4].toNat p = false) ∧
    (w[2].toNat % 4096 = 0 → w[2].toNat + 4096 * w[4].toNat ≤ 2 ^ 52 →
      ∃ s', exec (.unmap2 w) s = .next s' ∧ Answered s' 0 ∧ s'.gen (argVd w) = d.gen + 1 ∧
        s'.mem = (({ s with mbcmd := coded w 0x09, mbBusy := true } : State).unmapPages d.s2root w[2].toNat w[4].toNat).mem) ∧
    (∃ s', exec (.abort2 w) s = .next s' ∧ Answered s' 0 ∧
      (∀ p ∈ s'.phasesOf (argVd w), ∀ a, p = .wait2 a → a / 4096 ≠ w[2].toNat / 4096) ∧ s'.mem = s.mem) ∧
    (w[2].toNat % 8 = 0 → ∃ s', exec (.meters w) s = .next s' ∧ Answered s' 0 ∧ s'.vds = s.vds ∧
      (s.hostUp = true → s'.hostOut = s.hostOut ++ [HostOut.write w[2].toNat (wordBytes d.meters.toList), HostOut.msix 0 0]) ∧
      (s.hostUp = false → s'.hostOut = s.hostOut ++ [HostOut.msix 0 0] ∧ s'.pfHost = s.pfHost ∧
        s'.hostWait = s.hostWait ++ [(w[2].toNat, wordBytes d.meters.toList)])) ∧
    (w[2].toNat ≤ (d.dumpNext - d.dumpFreed).toNat → ∃ s' d', exec (.dumpack w) s = .next s' ∧ Answered s' 0 ∧ s'.vdev? (argVd w) = some d' ∧
      d'.dumpFreed = d.dumpFreed + BitVec.ofNat 32 w[2].toNat ∧ d'.dumpNext = d.dumpNext ∧ d'.dumps = d.dumps)) ∧
  (∀ (s : State) (w : Vector W64 8) (d : VDev), MailReady s → s.vdev? (bits w[2].toNat 51 43) = some d → d.mode ≠ 4 →
    s.qcb? (bits w[1].toNat 15 0) = none → (s.kickEntry (bits w[2].toNat 51 43) (bits w[2].toNat 8 0)).getLsbD 31 = false →
    Memory.wf s.mem = true →
    ∃ s', exec (.qcreate w) s = .next s' ∧ Answered s' 0 ∧ (s'.kickEntry (bits w[2].toNat 51 43) (bits w[2].toNat 8 0)).getLsbD 31 = true ∧
      (w[2].getLsbD 63 = true → ∃ b, s'.qcb? (bits w[1].toNat 15 0) = some b ∧ b.st = .unmapped ∧
        b.vd.val = bits w[2].toNat 51 43 ∧ b.rsz = bits w[2].toNat 42 38 ∧ b.bprio.toNat = bits w[2].toNat 59 56 ∧
        b.rbase = bits w[3].toNat 56 0 ∧ b.head = w[4].truncate 32 ∧ b.retire = w[5].truncate 32 ∧ b.err = 0 ∧ b.infl = [])) ∧
  (∀ (s : State) (w : Vector W64 8) (b : Qcb) (d : VDev), MailReady s → s.qcb? (bits w[1].toNat 15 0) = some b → s.vdev? b.vd = some d →
    d.mode ≠ 4 → (b.st = .halted ∨ b.st = .faulted) → b.retire = b.head → ((w[2].truncate 32 : W32) - b.retire).toNat ≤ b.units →
    Memory.wf s.mem = true → b.rsz < 32 →
    ∃ s' b', exec (.qrestart w) s = .next s' ∧ Answered s' 0 ∧ s'.qcb? (bits w[1].toNat 15 0) = some b' ∧ b'.st = .unmapped ∧ b'.err = 0 ∧
      b'.errSeq = 0 ∧ b'.head = b.retire ∧ b'.tail = w[2].truncate 32 ∧ b'.eseq = w[3].truncate 32 ∧
      (w[2].truncate 32 ≠ b.retire → b'.pending = true))

/-- R14, R242, R414, R415: a RESET of a course, a truss or a device that holds work starts its kill and stays BUSY; the reset of what holds
no work completes OK at once, with the registers of a device's control page at reset; an engine is reset at once, a core with its own registers at their reset values, and values in memory stay;
a powered column folds off and on again, and COLUMN does not take the last four; a column that is off begins to fold on; a link that is
neither DOWN nor TRAINING trains again with its counts at reset, and keeps what it has not had acknowledged. -/
def Obligations.ResetCommands : Prop :=
  (∀ (s : State) (w : Vector W64 8) (d : VDev), MailReady s → s.vdev? (bits w[2].toNat 8 0) = some d → d.mode ≠ 4 →
    (∀ c k, s.courseAt (bits w[2].toNat 8 0) (bits w[2].toNat 16 9) (bits w[2].toNat 22 17) = some c → s.course? c = some k →
      ∃ s' k' x, exec (.resetCourse w) s = .next s' ∧ s'.mbBusy = true ∧ s'.course? c = some k' ∧ k'.cstate = .killed ∧
        s'.kills = s.kills ++ [x] ∧ x.scope = .course c ∧ x.mailbox = true) ∧
    (s.courseAt (bits w[2].toNat 8 0) (bits w[2].toNat 16 9) (bits w[2].toNat 22 17) = none →
      ∃ s', exec (.resetCourse w) s = .next s' ∧ Answered s' 0 ∧ s'.trusses = s.trusses) ∧
    (∀ t k, s.trusses = [t] → t.courses = [k] → t.vd.val = bits w[2].toNat 8 0 → t.place = .onCore (bits w[2].toNat 16 9) →
      k.slot = bits w[2].toNat 22 17 → k.cstate = .resident → t.kernelMode = false →
      (∃ s' k' x, exec (.resetTruss w) s = .next s' ∧ s'.mbBusy = true ∧ s'.course? ⟨0, 0⟩ = some k' ∧ k'.cstate = .killed ∧
        s'.kills = s.kills ++ [x] ∧ x.scope = .truss 0 ∧ x.mailbox = true) ∧
      (∃ s' d' k' x, exec (.resetVirtualDevice w) s = .next s' ∧ s'.mbBusy = true ∧ s'.vdev? (bits w[2].toNat 8 0) = some d' ∧
        d'.mode = 4 ∧ s'.course? ⟨0, 0⟩ = some k' ∧ k'.cstate = .killed ∧
        s'.kills = s.kills ++ [x] ∧ x.scope = .device (fin512 (bits w[2].toNat 8 0)) false)) ∧
    (s.holdsWork (bits w[2].toNat 8 0) = false → ∃ s' d', exec (.resetVirtualDevice w) s = .next s' ∧ Answered s' 0 ∧
      s'.vdev? (bits w[2].toNat 8 0) = some d' ∧ d'.s1root = 0 ∧ d'.fltbase = 0 ∧ d'.flttail = 0 ∧ d'.flthead = 0 ∧ d'.vecs = 0 ∧
      d'.gen = d.gen + 1 ∧ d'.mode = d.mode ∧ d'.kdone = false ∧ ∀ e ∈ s'.tlbs, e.space ≠ bits w[2].toNat 8 0)) ∧
  (∀ (s : State) (w : Vector W64 8), MailReady s → badEngine (bits w[2].toNat 7 0) (bits w[2].toNat 11 8) = false →
    ∃ s', exec (.resetEngine w) s = .next s' ∧ Answered s' 0 ∧ s'.mem = s.mem ∧ s'.vds = s.vds ∧
      (bits w[2].toNat 11 8 = 2 → (s'.core (bits w[2].toNat 7 0)).matBusy = none) ∧
      (bits w[2].toNat 11 8 = 0 → (s'.core (bits w[2].toNat 7 0)).strkz = 0 ∧ (s'.core (bits w[2].toNat 7 0)).mtint = 65536 ∧
        (s'.core (bits w[2].toNat 7 0)).fenced = 0)) ∧
  (∀ (s : State) (w : Vector W64 8), MailReady s →
    let c := fin16 (bits w[2].toNat 3 0)
    s.powered.contains c.val = true → 4 < s.powered.length →
    ∃ s', exec (.resetSliceColumn w) s = .next s' ∧ s'.mbBusy = true ∧ s'.folds = s.folds ++ [⟨c, false, true, false, true, none, [], 0⟩]) ∧
  (∀ (s : State) (w : Vector W64 8), MailReady s →
    let c := fin16 (bits w[1].toNat 3 0)
    (s.powered.contains c.val = true → 4 < s.powered.length →
      ∃ s', exec (.columnOff w) s = .next s' ∧ s'.mbBusy = true ∧ s'.folds = s.folds ++ [⟨c, false, false, false, true, none, [], 0⟩]) ∧
    (s.powered.contains c.val = true → s.powered.length ≤ 4 →
      ∃ s', exec (.columnOff w) s = .next s' ∧ Answered s' 3 ∧ s'.folds = s.folds ∧ s'.columns = s.columns) ∧
    (s.columnsGone.getLsbD c = false → s.columns.getLsbD c = false →
      ∃ s', exec (.columnOn w) s = .next s' ∧ s'.mbBusy = true ∧ s'.columns = s.columns ||| BitVec.ofNat 16 (2 ^ c.val) ∧
        s'.folds = s.folds ++ [⟨c, true, false, false, true, none, [], 0⟩])) ∧
  (∀ (s : State) (w : Vector W64 8), MailReady s → s.fbBusy = none → s.xmit = [] → s.outgoing = [] → s.contribStats = [] → s.inbound = [] →
    (s.link (bits w[2].toNat 3 0)).st ≠ .down → (s.link (bits w[2].toNat 3 0)).st ≠ .training →
    ∃ s', exec (.resetOpticalLink w) s = .next s' ∧ Answered s' 0 ∧ (s'.link (bits w[2].toNat 3 0)).st = .training ∧
      (s'.link (bits w[2].toNat 3 0)).phase = 1 ∧ (s'.link (bits w[2].toNat 3 0)).retrains = 0 ∧
      (s'.link (bits w[2].toNat 3 0)).replay = (s.link (bits w[2].toNat 3 0)).replay)

/-! ### Register pages, bring-up, power and the host's memory accesses -/

/-- R4, R394 to R396, R440, R454: a write to S1ROOT names the root, raises the generation and empties the TLBs of the space; FLTBASE takes a ring of a
size in range; FLTRES ends the waits on its page, by a new walk or in PERM; PWRLIM takes a limit of 1,000 to 2,800 and ignores another; CECTHR,
CAPHEAD, the nonce, the command words of the mailbox and of the fabric page, and FLTHEAD hold what is written to them and read it back, and
the doorbells, BOOTCTL and FLTRES read 0.
R451 to R456: module power begins the steps of bring-up at step 3, and so does RETRY after a failure; a step that passes gives the next;
after the last the device is READY with the pools of its image, and where one fails it is FAILED at the step, CODE and DETAIL where it
stopped. ATTEST makes the cluster busy, and is counted while it is; the report then goes to the host, or the write is kept while the host
port is not trained, and DONE follows. A throttle that the sensors bear out changes no result; a thermal trip takes power from the compute
dies in whatever step; with module power gone, what the host holds is all that stays. -/
def Obligations.RegisterPagesAndPower : Prop :=
  ((∀ (s : State) (v : Fin 512) (d : VDev) (x : W64), s.vdev? v = some d → x &&& ~~~ (BitVec.ofNat 64 (2 ^ 52 - 4096)) = 0 →
     ∃ s' d', exec (.s1rootWrite v x) s = .next s' ∧ s'.vdev? v = some d' ∧ d'.s1root = x.toNat ∧ d'.gen = d.gen + 1 ∧
       (∀ e ∈ s'.tlbs, e.space ≠ v.val) ∧ s'.mem = s.mem) ∧
   (∀ (s : State) (v : Fin 512) (d : VDev) (x : W64), s.vdev? v = some d → 7 ≤ bits x.toNat 3 0 → bits x.toNat 3 0 ≤ 12 →
     x &&& ~~~ (BitVec.ofNat 64 (2 ^ 52 - 4096 + 15)) = 0 →
     ∃ s', exec (.fltbaseWrite v x) s = .next s' ∧ s'.vdev? v = some { d with fltbase := x }) ∧
   (∀ (s : State) (v : Fin 512) (x : W64) i, s.active v = true →
     (i = .fltresReplay v x ∧ x.getLsbD 63 = false ∨ i = .fltresAbort v x ∧ x.getLsbD 63 = true) →
     ∃ s', exec i s = .next s' ∧ (∀ p ∈ s'.phasesOf v, ∀ a, p = .wait1 a → a / 4096 ≠ x.toNat % 2 ^ 57 / 4096) ∧
       s'.mem = s.mem ∧ s'.vds = s.vds ∧ s'.tlbs = s.tlbs) ∧
   (∀ (s : State) (v : W64), s.power ≠ .off → exec (.pwrlimWrite v) s = .next (if 1000 ≤ v.toNat ∧ v.toNat ≤ 2800 then { s with pwrlim := v } else s)) ∧
   (∀ (s : State) (v : W64), s.power = .ready → exec (.registerWrite .health 0x28 v) s = .next { s with cecthr := v }) ∧
   (∀ (s : State) (v : W64) (i : Fin 8), s.power ≠ .off →
     exec (.registerWrite .boot (0x40 + 8 * i.val) v) s = .next { s with nonce := s.nonce.set i v }) ∧
   (∀ (s : State) (v : W64) (i : Fin 8), s.power = .ready →
     exec (.registerWrite .mailbox (8 * i.val) v) s = .next { s with mbcmd := s.mbcmd.set i v }) ∧
   (∀ (s : State) (v : Fin 512) (d : VDev) (x : W64), s.power = .ready → s.vdev? v = some d →
     ∃ s', exec (.registerWrite (.control v) 0x20 x) s = .next s' ∧ s'.vdev? v = some { d with flthead := x } ∧
       registerRead s' (.control v) 0x20 = some x) ∧
   (∀ (s : State) (page : HostPage) (off : Nat) (x : W64), s.power = .ready →
     (page = .health ∧ (off = 0x28 ∨ off = 0x58) ∨ page = .boot ∧ (∃ i < 8, off = 0x40 + 8 * i) ∨ page = .mailbox ∧ (∃ i < 8, off = 8 * i) ∨
       page = .fabric ∧ ∃ i < 12, off = 8 * i) →
     ∃ s', exec (.registerWrite page off x) s = .next s' ∧ registerRead s' page off = some x) ∧
   (∀ (s : State), s.power = .ready → registerRead s .mailbox 0x40 = some 0 ∧ registerRead s .fabric 0x60 = some 0 ∧
     registerRead s .boot 0x08 = some 0 ∧ ∀ v : Fin 512, (s.vdev? v).isSome = true → registerRead s (.control v) 0x28 = some 0)) ∧
  ((∀ (s : State) (b : BringUp) i, (i = .powerOn b ∧ s.power = .off ∨ i = .bootctlRetry b ∧ s.power = .failed ∧ s.bootCode ≠ 7) →
     ∃ s', exec i s = .next s' ∧ s'.power = .booting ∧ s'.bootStep = 3 ∧ s'.bootCode = 0 ∧ s'.boot = some b ∧ s'.mem = s.mem) ∧
   (∀ (s : State) (b : BringUp), s.boot = some b → s.bootStep.toNat < 10 → stepFails b s.bootStep.toNat = none →
     (bootAdvance s).bootStep = s.bootStep + 1 ∧ (bootAdvance s).power = s.power ∧ (bootAdvance s).boot = some b) ∧
   (∀ (s : State) (b : BringUp), bootStops b = none →
     let u := s.bringUp b
     u.power = .ready ∧ u.computeOn = true ∧ u.bootStep = 10 ∧ u.bootCode = 0 ∧ u.mem = s.mem ∧ u.columns = b.columns ∧
       ∀ lo hi, b.fields.pool = some (lo, hi) → u.pool = imagePool lo hi ∧ u.hbmFree = imageUnits lo hi) ∧
   (∀ (s : State) (b : BringUp) (step code detail : Nat), bootStops b = some (step, code, detail) →
     let u := s.bringUp b
     u.power = .failed ∧ u.bootStep = BitVec.ofNat 4 step ∧ u.bootCode = BitVec.ofNat 4 code ∧ u.bootDetail = BitVec.ofNat 8 detail ∧
       (step ≤ 5 → u.pool = s.pool)) ∧
   (∀ (s : State), exec .bootctlAttest s = .next
     (if s.power = .ready ∧ s.attstat.getLsbD 63 = false then { s with attstat := BitVec.ofNat 64 (2 ^ 63) }
      else { s with discards := s.discards + 1 })) ∧
   (∀ (s : State), s.power = .ready → s.attstat.getLsbD 63 = true →
     let u := attestStep s
     u.attstat = 1 ∧ u.mem = s.mem ∧ (s.hostUp = true → u.hostOut = s.hostOut ++ [HostOut.write s.attaddr.toNat s.report]) ∧
       (s.hostUp = false → u.hostOut = s.hostOut ∧ u.hostWait = s.hostWait ++ [(s.attaddr.toNat, s.report)])) ∧
   (∀ (s : State) (e : Bool), s.power = .ready → s.overLimit = e → exec (.powerThrottle e) s = .next { s with throttled := e }) ∧
   (∀ (s : State), s.power ≠ .off → (s.power ≠ .failed ∨ s.bootCode ≠ 7) →
     ∃ s', exec .thermalTrip s = .next s' ∧ s'.power = .failed ∧ s'.computeOn = false ∧ s'.bootCode = 7 ∧ s'.boot = none) ∧
   (∀ (s : State), ∃ s', exec .modulePowerOff s = .next s' ∧ s'.power = .off ∧ s'.mem = [] ∧ s'.trusses = [] ∧ s'.vds = [] ∧
     s'.hostMem = s.hostMem ∧ s'.pfHost = s.pfHost))

/-- R418, R423, R432, R433, R436: ROUTE, EPSET, GSET and GCLR write their registers and complete; a group entry that breaks a rule completes
BADARG.
R430: QUIESCE of an UP link that no transfer under way goes on by queues its DRAIN flit and waits, BUSY set; of links that are DOWN it
completes at once, and of one that trains it ends BUSY; RELOCK of a QUIET link trains it again and waits, and of an UP one ends BUSY. -/
def Obligations.FabricPageCommands : Prop :=
  ((∀ (s : State) (w : Vector W64 12), FabricReady s →
     (s.xmit = [] → s.outgoing = [] → s.contribStats = [] → s.inbound = [] → ∃ s', exec (.route w) s = .next s' ∧ FabricAnswered s' 0 ∧
       s'.routes = vput s.routes (bits w[1].toNat 6 0) (w[2].truncate 16) ∧ s'.links = s.links) ∧
     (∃ s', exec (.epset w) s = .next s' ∧ FabricAnswered s' 0 ∧ s'.endpoints = tset 0 s.endpoints (bits w[1].toNat 11 0) (w[2].truncate 16)) ∧
     (let g := bits w[0].toNat 27 16
      let e : Vector W64 8 := #v[w[1], w[2], w[3], w[4], w[5], w[6], w[7], w[8]]
      (s.groupOk e = false → ∃ s', exec (.gset w) s = .next s' ∧ FabricAnswered s' 1 ∧ s'.groups = s.groups) ∧
      (s.groupOk e = true → (∀ c ∈ s.contribStats, c.grp ≠ g) → ∃ s', exec (.gset w) s = .next s' ∧ FabricAnswered s' 0 ∧
        s'.group g = e ∧ (twf 0 s.nextCn = true → tget 0 s'.nextCn g = 0)) ∧
      (twf (Vector.replicate 8 0) s.groups = true → s.gathers = [] → s.contribStats = [] → s.contribs = [] →
        ∃ s', exec (.gclr w) s = .next s' ∧ FabricAnswered s' 0 ∧ grpV (s'.group g) = false ∧
          ∀ h, h ≠ g → s'.group h = s.group h)))) ∧
  ((∀ (s : State) (w : Vector W64 12) (n : Fin 16), FabricReady s → s.xmit = [] → s.outgoing = [] → s.contribStats = [] →
     s.inbound = [] → (w[1].truncate 16 : BitVec 16) = BitVec.ofNat 16 (2 ^ n.val) →
     (s.links[n].st = .up → s.links[n].quiescing = none → s.links[n].drainSent = false →
       (∀ w ∈ s.forwards, w.ended = true ∨ w.out ≠ some n) → ∃ s', exec (.quiesce w) s = .next s' ∧ s'.fbBusy = some (true, BitVec.ofNat 16 (2 ^ n.val)) ∧ s'.links[n].quiescing = some s.clk ∧
         s'.links[n].drainSent = true ∧ s'.links[n].st = .up ∧ ∀ m : Fin 16, m ≠ n → s'.links[m] = s.links[m]) ∧
     (s.links[n].st = .down → ∃ s', exec (.quiesce w) s = .next s' ∧ FabricAnswered s' 0 ∧ s'.links = s.links) ∧
     (s.links[n].st = .training → ∃ s', exec (.quiesce w) s = .next s' ∧ FabricAnswered s' 4 ∧ s'.links = s.links) ∧
     (s.links[n].st = .quiet →
       ∃ s', exec (.relock w) s = .next s' ∧ s'.fbBusy = some (false, BitVec.ofNat 16 (2 ^ n.val)) ∧ s'.links[n].st = .training ∧
         s'.links[n].phase = 1 ∧ s'.links[n].relocking = true ∧ s'.links[n].allow = s.links[n].allow) ∧
     (s.links[n].st = .up → ∃ s', exec (.relock w) s = .next s' ∧ FabricAnswered s' 4 ∧ s'.links = s.links)))

/-- R216, R247, R250, R310: eight bytes that the host writes at an aligned system-physical address are in memory, and their word is clean; a
64-bit FetchAdd on device memory without poison acts once at the home and answers the old value; a write beyond the 52-bit space names
no place, and stops (the model's fault: log 67). -/
def Obligations.HostAccesses : Prop :=
  (∀ (s : State) (a : Nat) (data : List Byte), s.power = .ready → a % 8 = 0 → data.length = 8 → a + 8 ≤ 2 ^ 52 → Memory.wf s.mem = true →
    twf false s.memPsn = true →
    ∃ s', exec (.hostMemoryWrite none a data) s = .next s' ∧ readBytes s'.mem a 8 = data ∧ tget false s'.memPsn (a / 8) = false ∧
      ∀ x, (x < a ∨ a + 8 ≤ x) → mget s'.mem x = mget s.mem x) ∧
  (∀ (s : State) (v : Fin 512) (a pa : Nat) (cm : Bool) (x c : BitVec 128), s.power = .ready → a % 8 = 0 → a + 8 ≤ 2 ^ 52 →
    s.hostPlace (some v) a = some (pa, false, cm) → anyPsn s.memPsn pa 8 = false → Memory.wf s.mem = true →
    ∃ s', exec (.hostAtomicop v a .add .b64 x c) s = .next s' ∧
      readNat s'.mem pa 8 = (readNat s.mem pa 8 + x.toNat) % 2 ^ 64 ∧
      s'.hostOut = s.hostOut ++ [HostOut.atomicOld (BitVec.ofNat 128 (readNat s.mem pa 8))] ∧
      ∀ y, (y < pa ∨ pa + 8 ≤ y) → mget s'.mem y = mget s.mem y) ∧
  (∀ (s : State) (v : Option (Fin 512)) (a : Nat) (data : List Byte), 2 ^ 52 < a + data.length →
    exec (.hostMemoryWrite v a data) s = .fault .noSuchAddress)

/-! ### Links -/

/-- R419, R430: light begins phase 2; locked wavelengths carry the link through phases 3 to 5; the partner's parameters, when they agree, lead to phase
6, and its grant makes the link UP; a phase that runs out restarts training at phase 1; a DOWN link tries phase 1 again after its timer; a
link that is not UP in time after its QUIESCE is DOWN. -/
def Obligations.LinkTraining : Prop :=
  ∀ (s : State) (n : Fin 16) (l : Link), s.power = .ready → s.links[n] = l → s.xmit = [] → s.outgoing = [] → s.contribStats = [] → s.fbBusy = none →
    (2 ≤ l.phase → s.clk ≤ l.phaseStart + phaseLimit l.phase) →
    (∀ lit, l.st = .down → l.restarts < 3 → 2 ≤ ones (lit &&& 0x00FF) → 2 ≤ ones (lit &&& 0xFF00) → exec (.lightDetect n lit) s =
      .next { s with links := s.links.set n { l with lit := lit, st := .training, phase := 2, phaseStart := s.clk } }) ∧
    (∀ locked, l.st = .training → l.phase = 2 → 2 ≤ ones (l.lit &&& locked) → exec (.wavelengthLock n locked) s =
      .next { s with links := s.links.set n { l with rxmask := l.lit &&& locked, phase := 3, phaseStart := s.clk } }) ∧
    (∀ locked, l.st = .training → l.phase = 4 → ∃ s' f p, exec (.wavelengthLock n locked) s = .next s' ∧ s'.links[n].phase = 5 ∧
      s'.links[n].sent = l.sent ++ [f] ∧ f.ty = .ctrl ∧ f.par = some p ∧ p.rx = l.rxmask) ∧
    (∀ f p, l.st = .training → l.phase = 5 → f.ty = .ctrl → f.resv = false → f.par = some p → p.id ≠ s.fabricId → p.version = 1 →
      2 ≤ ones p.rx → l.rxmask &&& ~~~ p.tx = 0 →
      ∃ s', exec (.ctrlFlitReceive n f) s = .next s' ∧ s'.links[n].phase = 6 ∧ s'.links[n].st = .training ∧ s'.links[n].txmask = p.rx) ∧
    (∀ f, l.st = .training → l.phase = 6 → f.ty = .ctrl → f.resv = false → f.par = none → l.relocking = false → l.pend = [] → l.replay = [] →
      ∃ s', exec (.ctrlFlitReceive n f) s = .next s' ∧ s'.links[n].st = .up ∧ s'.links[n].allow = f.allow ∧ s'.links[n].rxSeq = f.seq) ∧
    (l.st = .training → 2 ≤ l.phase → l.restarts < 3 → ∃ s', exec (.trainingPhaseTimeout n) s = .next s' ∧ s'.links[n].phase = 1 ∧
      s'.links[n].restarts = l.restarts + 1 ∧ l.phaseStart + phaseLimit l.phase ≤ s'.clk) ∧
    (l.st = .down → ∃ s', exec (.linkRetryTimer n) s = .next s' ∧ s'.links[n].phase = 1 ∧ s'.links[n].restarts = 0 ∧
      (l.relocking = false → l.quiescing = none → s'.links[n].st = .down) ∧ l.phaseStart + 2 ^ 27 ≤ s'.clk) ∧
    (∀ t, l.quiescing = some t → l.pend = [] → l.replay = [] →
      ∃ s', exec (.quiesceTimeout n) s = .next s' ∧ s'.links[n].st = .down ∧ t + 2 ^ 32 ≤ s'.clk)

/-- R421, R424 to R430: a flit in sequence is taken, once, and its allowance is owed; one with a CRC failure or out of sequence is discarded and answered
with a NAK for the expected one; a DRAIN flit makes this end stop choosing the link and, when no transfer goes on by it, answer; acknowledgments go out by IDLE flits; a
flit that is not acknowledged in time is resent while there is allowance, and after 16 resends the link trains; lost wavelengths leave the
mask, and relit ones are announced once the allowance and the buffer let a flit leave. -/
def Obligations.LinkFlits : Prop :=
  ∀ (s : State) (n : Fin 16) (l : Link), s.links[n] = l → l.st = .up → l.quiescing = none →
    (∀ f x, f.resv = false → f.ty = .data → f.seq = l.rxSeq → f.wl = l.rxmask → f.nak = false → f.desc = some x → s.isOwn f.dstEp = true →
      x.kind = .put → f.lst = true → s.inbound = [] →
      ∃ s' i, exec (.flitReceive n unharmed f) s = .next s' ∧ s'.links[n].rxSeq = l.rxSeq + 1 ∧ s'.inbound = [i] ∧ i.whole = true ∧
        i.x.data = patch x.data f.off f.data ∧ i.x.kind = .put ∧ s'.mem = s.mem) ∧
    (∀ f, f.ty = .data → (f.seq ≠ l.rxSeq ∨ f.wl ≠ l.rxmask) → l.naking = false →
      ∃ s' g, exec (.flitReceive n unharmed f) s = .next s' ∧ s'.links[n].rxSeq = l.rxSeq ∧ s'.links[n].naking = true ∧
        s'.links[n].sent = l.sent ++ [g] ∧ g.ty = .idle ∧ g.nak = true ∧ g.ackSeq = l.rxSeq ∧ s'.inbound = s.inbound) ∧
    (∀ rx f, received rx = false → l.naking = false →
      ∃ s' g, exec (.flitReceive n rx f) s = .next s' ∧ s'.links[n].rxSeq = l.rxSeq ∧ s'.links[n].sent = l.sent ++ [g] ∧
        g.nak = true ∧ g.ackSeq = l.rxSeq ∧ s'.inbound = s.inbound) ∧
    (∀ f, f.ty = .drain → f.resv = false → f.seq = l.rxSeq → f.wl = l.rxmask → f.nak = false → l.drainSent = false →
      (∀ w ∈ s.forwards, w.ended = true ∨ w.out ≠ some n) →
      ∃ s', exec (.drainFlitReceive n f) s = .next s' ∧ s'.links[n].drainGot = true ∧ s'.links[n].drainSent = true ∧
        s'.links[n].quiescing = some s.clk ∧ s'.links[n].rxSeq = l.rxSeq + 1) ∧
    (0 < l.unacked → ∃ s' g, exec (.ackTimer n) s = .next s' ∧ s'.links[n].unacked = 0 ∧ s'.links[n].sent = l.sent ++ [g] ∧ g.ty = .idle ∧
      g.ackSeq = l.rxSeq ∧ g.nak = false ∧ l.lastRx ≤ s'.clk) ∧
    (∀ o os, l.replay = o :: os → ∃ s', exec (.resendTimeout n) s = .next s' ∧ l.lastAck + 8192 ≤ s'.clk ∧ s'.links[n].lastAck = s'.clk ∧
      (0 < l.allow → s'.links[n].resends = l.resends + 1 ∧ ∃ g gs, s'.links[n].sent = l.sent ++ g :: gs ∧ g.seq = o.f.seq) ∧
      (l.allow = 0 → s'.links[n].resends = l.resends ∧ s'.links[n].sent = l.sent)) ∧
    (16 ≤ l.resends → ∃ s', exec (.resendLimit n) s = .next s' ∧ s'.links[n].st = .training ∧ s'.links[n].phase = 2 ∧
      s'.links[n].replay = l.replay ∧ s'.links[n].retrains = if l.retrains = 255 then 255 else l.retrains + 1) ∧
    (∀ lost, lost &&& l.rxmask ≠ 0 → 2 ≤ ones (l.rxmask &&& ~~~ (lost &&& l.rxmask)) →
      ∃ s', exec (.lossOfLight n lost false) s = .next s' ∧ s'.links[n].rxmask = l.rxmask &&& ~~~ (lost &&& l.rxmask) ∧
        s'.links[n].st = .up ∧ s'.links[n].txmask = l.txmask) ∧
    (∀ lit, l.rxmask ||| lit ≠ l.rxmask → ∃ s', exec (.laserRelight n lit) s = .next s' ∧ s'.links[n].lit = l.lit ||| lit ∧
      s'.links[n].rxmask = l.rxmask ∧ (0 < l.allow → l.cursor = l.replay.length → l.replay.length < 4096 → l.pend = [] →
        s'.links[n].txSeq = l.txSeq + 1 ∧ ∃ g, s'.links[n].sent = l.sent ++ [g] ∧ g.ty = .ctrl ∧ g.mask = l.rxmask ||| lit ∧
          g.ofTx = true ∧ g.nak = false))

/-! ### Transfers at their destination -/

/-- R376, R379 to R382, R422, R431, R433 to R435, R460: a PUT whose places are all reached writes its bytes and is answered; one for a device that is
not ACTIVE writes nothing and is answered UNREACH; a GETREQ reads and answers with a GETDATA; a GETDATA writes the requester's bytes and ends
its transfer; a message without a posted receive joins the unexpected queue; a contribution is held until every peer has given
one; a window is read and replied; replies are gathered; DONE and ABSENT end the transfer they name. Endpoints lie on this device. -/
def Obligations.TransfersServed : Prop :=
  ∀ (s : State) (x : Transfer), s.power = .ready → s.isOwn x.dstEp = true → s.isOwn x.srcEp = true → s.inbound = [] →
    (∀ s1 bad n, x.kind = .put → s.active (epVd x.dstEp) = true →
      ({ s with inbound := [mkInbound x none] } : State).writeRun (switchReach (epVd x.dstEp)) x.addr.toNat 0 x.poison x.data.length x.data =
        (s1, n, bad, none) →
      ∃ s', exec (.put x) s = .next s' ∧ s'.mem = s1.mem ∧
        s'.inbound = [mkInbound { mkTransfer .done x.dstEp x.srcEp x.xid with st := if bad then 6 else 0 } none]) ∧
    (x.kind = .put → s.active (epVd x.dstEp) = false → ∃ s', exec (.put x) s = .next s' ∧ s'.mem = s.mem ∧
      s'.inbound = [mkInbound { mkTransfer .done x.dstEp x.srcEp x.xid with st := 2 } none]) ∧
    (∀ s1 out, x.kind = .getReq → x.data = [] → x.poison = [] → s.active (epVd x.dstEp) = true →
      ({ s with inbound := [mkInbound x none] } : State).readRun (switchReach (epVd x.dstEp)) x.addr.toNat 0 x.len.toNat x.len.toNat = (s1, out) →
      out.stop = none → ∃ s' i, exec (.getreq x) s = .next s' ∧ s'.inbound = [i] ∧ i.x.kind = .getData ∧ i.x.data = out.bytes ∧
        i.x.poison = out.psn ∧ i.x.dstEp = x.srcEp ∧ i.x.srcEp = x.dstEp ∧ i.x.xid = x.xid) ∧
    (∀ s1 bad n o, x.kind = .getData → s.outgoing = [o] → o.xid = x.xid → o.kind = .getReq → o.thru = none → x.data.length = o.len →
      ({ s with inbound := [mkInbound x none] } : State).writeRun (s.entryReach o) o.loc 0 x.poison x.data.length x.data = (s1, n, bad, none) →
      ∃ s', exec (.getdata x) s = .next s' ∧ s'.mem = s1.mem ∧ s'.outgoing = [] ∧ s'.inbound = []) ∧
    (∀ d, x.kind = .msg → (.msg, x.srcEp, x.xid) ∉ s.seen → s.active (epVd x.dstEp) = true → s.vdev? (epVd x.dstEp) = some d → d.recvs = [] →
      d.umsgs.length < Config.recvCap → (d.umsgs.map fun m => m.data.length).sum + x.data.length ≤ Config.unexpectedBytes →
      ∃ s' d' m, exec (.msg x) s = .next s' ∧ s'.vdev? (epVd x.dstEp) = some d' ∧ d'.umsgs = d.umsgs ++ [m] ∧ m.data = x.data ∧
        m.tag = x.addr.truncate 32 ∧ s'.inbound = [mkInbound { mkTransfer .done x.dstEp x.srcEp x.xid with st := if x.poison = [] then 0 else 6 } none]) ∧
    (∀ peer, x.kind = .contrib → s.active (epVd x.dstEp) = true → x.len.toNat % grpSize (s.group x.grp.toNat) = 0 → grpV (s.group x.grp.toNat) = true → grpIndex (s.group x.grp.toNat) x.srcEp = some peer →
      grpPeer (s.group x.grp.toNat) 0 = x.dstEp → 2 ≤ grpPeers (s.group x.grp.toNat) → s.groupAbsent x.grp.toNat = false → s.contribs = [] →
      s.contribStats = [] → s.summed = [] → splitContrib (s.group x.grp.toNat) x peer ≠ [] →
      (splitContrib (s.group x.grp.toNat) x peer).length ≤ 262144 →
      ∃ s', exec (.contrib x) s = .next s' ∧ s'.contribs = splitContrib (s.group x.grp.toNat) x peer ∧
        s'.contribStats = [⟨x.srcEp, x.xid, x.grp.toNat, x.dstEp, 0, false⟩] ∧ s'.inbound = [] ∧ s'.mem = s.mem) ∧
    (∀ s1 out, x.kind = .lReq → x.data = [] → x.poison = [] → grpV (s.group x.grp.toNat) = true →
      grpOwner (s.group x.grp.toNat) = epVd x.dstEp → s.active (epVd x.dstEp) = true → (grpIndex (s.group x.grp.toNat) x.srcEp).isSome = true →
      x.len.toNat % grpSize (s.group x.grp.toNat) = 0 → x.addr.toNat + x.len.toNat ≤ grpLen (s.group x.grp.toNat) →
      ({ s with inbound := [mkInbound x none] } : State).readRun (switchReach (grpOwner (s.group x.grp.toNat)))
        (grpBase (s.group x.grp.toNat) + x.addr.toNat) 0 x.len.toNat x.len.toNat = (s1, out) → out.stop = none →
      ∃ s' i, exec (.lreq x) s = .next s' ∧ s'.inbound = [i] ∧ i.x.kind = .lData ∧ i.x.data = out.bytes ∧ i.x.grp = x.grp ∧
        i.x.xid = x.xid ∧ i.x.dstEp = x.srcEp) ∧
    (∀ gt o j, x.kind = .lData → s.gathers = [gt] → gt.xid = x.xid → x.grp.toNat = gt.grp →
      x.len.toNat = gt.cnt * grpSize (s.group gt.grp) → x.data.length = x.len.toNat → s.outgoing = [o] → o.xid = x.xid → o.kind = .lReq →
      (List.range (grpPeers (s.group gt.grp))).find? (fun j => grpPeer (s.group gt.grp) j == x.srcEp && !(gt.replies.any fun r => r.1 == j)) =
        some j → gt.replies.length + 1 < grpPeers (s.group gt.grp) →
      ∃ s', exec (.ldata x) s = .next s' ∧ s'.gathers = [{ gt with replies := gt.replies ++ [(j, x.data, x.poison)] }] ∧ s'.inbound = [] ∧
        s'.outgoing = [o]) ∧
    (∀ o t e, (x.kind = .done ∧ (.done, x.srcEp, x.xid) ∉ s.seen ∧ (o.kind = .lReq ∨ o.dstEp = x.srcEp) ∨ x.kind = .absent) → s.outgoing = [o] → o.xid = x.xid → o.vd.val = epVd x.dstEp →
      s.truss? o.truss = some t → t.netQ = [e] → e.id = o.entry →
      ∃ s' u, exec (if x.kind = .done then .done x else .absent x) s = .next s' ∧ s'.outgoing = [] ∧ s'.inbound = [] ∧
        s'.truss? o.truss = some u ∧ u.netQ = [])

/-! ### Encodings, steps and reset -/

/-- Words that the spec writes out with their assembly (R82 to R90, R171, R190): each decodes to the instruction it stands for. -/
def Obligations.WordsDecode : Prop :=
  decodeTableWord 64 0x001E0282_02400F00 = some (.add .always .i64 false (.g 10) (.g 8) (.g 9)) ∧
  decodeTableWord 64 0x40820480_0C050A00 = some (.pairAdd 4 9 (.fmul 5 10)) ∧
  decodeTableWord 64 0x895C0481_80000064 = some (.cmpi .always .lt false 2 (.v 6) 100) ∧
  decodeTableWord 64 0x10DC0200_4080E800 = some (.fma .always .f32 .rne (.v 8) (.v 1) (.v 2) 3) ∧
  decodeTableWord 64 0xA0840080_00003003 = some (.bra ⟨false, 1⟩ .unlikely 3 3) ∧
  decodeTableWord 64 0x215E0F85_03C00200 = some (.callr .always 62 20 0xF00) ∧
  decodeTableWord 64 0xE95D4540_02000000 = some (.barwait .always 0 21 (some 5)) ∧
  decodeTableWord 64 0x2C1C0004_C000020D = some (.lyset .always 0 (.field .stride1) 19) ∧
  decodeTableWord 64 0xF05D0286_0059DFF8 = some (.st .always (some 4) 10 ⟨6, 0, false, BitVec.ofInt 13 (-8)⟩ .b64 (.rel .dev)) ∧
  decodeTableWord 64 0xF1DD8302_018681B0 = some (.atom .always 6 12 ⟨2, 1, true⟩ 13 .add .b32 (.ar .dev)) ∧
  decodeTableWord 64 0xF85CC004_6C15B69D = some (.mmaz .always 3 0 4 27 5 27 26 29) ∧
  decodeTableWord 64 0xFD1C406D_B4000000 = some (.bcopy .always 1 0 27 27 1) ∧
  decodeTableWord 64 0xFF5C8500_00000000 = some (.fmrl .always 2 5) ∧
  decodeTableWord 64 0 = none

/-- R82 to R92: for every instruction word that is well formed, decoding its encoding gives it back, with every operand; its encoding is a word
of 64 bits, and not the reserved one. -/
def Obligations.DecodeOfEncode : Prop :=
  ∀ i : Instr, i.isWord = true → i.wf = true →
    decodeWord (encode i) = .ok i ∧ encode i < 2 ^ 64 ∧ encode i ≠ 0 ∧ decodeTableWord 64 (encode i) = some i

/-- A step runs what it decodes (R38, R81, R92, R160): one issue runs the word at the pc of the course that is picked, after its merge loop, with the
course as the one the word acts for; a word that is no instruction raises its cause; a happening of the agenda is run, and
a word among them is not; left to itself the device takes the next step of its bring-up, or the one move that is possible. Cycles then pass, of a number the model leaves
free (log 10): they change no memory and no register of a course, and a course takes on at most traps of counters that wrap. -/
def Obligations.StepRunsDecoded : Prop :=
  (∀ (s : State) (rest : List (Option Instr)) (c : CRef) (t : Truss) (k : Course) (s2 : State) (w : W64), s.agenda = none :: rest →
    s.power = .ready → s.throttled = false →
    let s0 : State := { s with agenda := rest }
    s0.picks = [c] → s0.truss? c.truss = some t → s0.course? c = some k → k.merge.interrupted = false → k.merge.lanes ≠ 0 →
    (s0.setCourse c k.merge).fetch c t k.merge = (s2, .word w) →
    (∀ i, decodeWord w.toNat = .ok i → step s = passTime (exec i { s2 with cur := c })) ∧
    (∀ r, decodeWord w.toNat = .error r → step s = passTime (.next (trapEntry s2 c (rejectCause r t k.merge) 0 0 false)))) ∧
  (∀ (s : State) (rest : List (Option Instr)) (i : Instr), s.agenda = some i :: rest → s.power = .ready → i.isWord = false →
    step s = passTime (exec i { s with agenda := rest })) ∧
  (∀ (s : State) (rest : List (Option Instr)) (i : Instr), s.agenda = some i :: rest → i.isWord = true →
    step s = passTime (.next { s with agenda := rest })) ∧
  (∀ (s : State) (f : OwnStep), s.agenda = [] → s.power = .ready → s.moves = [f] → s.throttled = false →
    step s = passTime (f s)) ∧
  (∀ (s : State), s.agenda = [] → s.power = .booting → step s = passTime (.next (bootAdvance s))) ∧
  (∀ (s s' : State), passTime (.next s) = .next s' → s'.clk = s.clk + Config.extraCycles s.tick ∧ s'.mem = s.mem ∧
    s'.cores.map Core.noCounts = s.cores.map Core.noCounts ∧ s'.agenda = s.agenda ∧
    (∀ n t, s.truss? n = some t → ∃ u, s'.truss? n = some u ∧ u.place = t.place ∧ u.scr = t.scr ∧ u.tiles = t.tiles ∧ u.bars = t.bars) ∧
    ∀ c k, s.course? c = some k → ∃ ovf, s'.course? c = some { k with ovfPend := k.ovfPend ++ ovf })

/-- R6, R27, R199, R299, R418, R440, R451: what power-on leaves: no power-up step run, no device, truss, queue or set, every link DOWN with no
retrains, no route; the mailbox not busy, and its event ring, the counts of the health page, CAPCTL and ATTSTAT 0; of each core STRKZ, the
fenced sub-arrays, the matrix count and the event counters 0 and MTINT 65,536. Memory lists nothing, in its canonical form. The first step
begins bring-up, whose step 3 is then under way, of a module whose parts all work (the model's choice: log 5). -/
def Obligations.ResetLeaves : Prop :=
  let s := State.reset
  s.power = .off ∧ s.bootStep = 0 ∧ s.bootCode = 0 ∧ s.computeOn = false ∧ s.clk = 0 ∧ s.ioClk = 0 ∧ s.mem = [] ∧ s.cells = [] ∧ s.tlbs = [] ∧
  s.trusses = [] ∧ s.launches = [] ∧ s.vds = [] ∧ s.qcbs = [] ∧ s.kickMap = [] ∧ s.remap = [] ∧ s.kills = [] ∧
  s.mbBusy = false ∧ s.mbStatus = 0 ∧ s.evTail = 0 ∧ s.evHead = 0 ∧ s.cecnt = 0 ∧ s.uecnt = 0 ∧ s.strikes = 0 ∧ s.degrade = 0 ∧ s.rrcnt = 0 ∧
  s.discards = 0 ∧ s.capctl = 0 ∧ s.attstat = 0 ∧ (∀ n : Fin 16, s.links[n].st = .down ∧ s.links[n].retrains = 0) ∧
  (∀ n : Fin 32, s.sets[n].defined = false) ∧ (∀ n : Fin 128, s.routes[n] = 0) ∧
  (∀ n : Fin 192, s.cores[n].mtint = 65536 ∧ s.cores[n].strkz = 0 ∧ s.cores[n].fenced = 0 ∧ s.cores[n].mcount = 0 ∧
    ∀ j : Fin 8, s.cores[n].ec[j] = ⟨0, 0⟩) ∧
  MemoryForm s ∧ s.clk * 2 / 3 ≤ s.ioClk ∧
  s.boot = none ∧ s.throttled = false ∧
  ∃ s', step s = .next s' ∧ s'.power = .booting ∧ s'.bootStep = 3 ∧ s'.boot = some .good ∧ s'.mem = []

/-- R7: two cycles of the I/O die pass in three core cycles. The clocks never fall behind that: in any state in which the I/O die's clock has not, a
step leaves it so, and a step that says how many cycles have passed never takes the core clock back. -/
def Obligations.ClocksKeepPace : Prop :=
  (∀ s s' : State, s.clk * 2 / 3 ≤ s.ioClk → step s = .next s' → s'.clk * 2 / 3 ≤ s'.ioClk) ∧
  (∀ (o : Out) (s s' : State), o = .next s → passTime o = .next s' → s.clk ≤ s'.clk ∧ s.ioClk ≤ s'.ioClk)

/-- R3, R236: memory in its canonical form stays so under every step, whatever happens: equal contents of memory are equal data (the form is
the model's own: log 3). -/
def Obligations.MemoryKeepsForm : Prop := ∀ s s' : State, MemoryForm s → step s = .next s' → MemoryForm s'
end

