-- ==== Sys2Proof/Laws/Issue.lean ====
section
/-!
SUPPORT. What the issue of a word can do, said once: from `Issues` and what the effect answers, the next state; and what every word counts
changes nothing but meters, event counts and pending overflows.
-/
namespace Sys2Proof.Machine

/-! ### The context -/

/-- The context of the course picked: what stands where. -/
theorem ctx_of {s : State} {x : Ctx} (h : s.ctx? = some x) :
    x.s = s ∧ x.c = s.cur ∧ s.truss? x.c.truss = some x.t ∧ s.course? x.c = some x.k ∧ x.r = x.k.seen s.tick ∧
    x.t.onCore = true ∧ x.k.cstate = .resident := by
  unfold State.ctx? at h
  split at h
  · rename_i t k ht hk
    split at h
    · rename_i hc
      simp only [Bool.and_eq_true, decide_eq_true_eq] at hc
      cases h
      exact ⟨rfl, rfl, ht, hk, rfl, hc.1, hc.2⟩
    · cases h
  · cases h

/-! ### The issue -/

/-- A word that issues does what its effect answers. -/
theorem issue_of {s : State} {x : Ctx} {i : Instr} (h : Issues s x i) (body : Ctx → Res) :
    issue i s body = (body x).settle s x i := by
  obtain ⟨hx, hr, hs, hl, ht, hp⟩ := h
  have hlate : (if deliversLate i then x.k.late else []) = [] := by
    by_cases hd : deliversLate i = true
    · rw [if_pos hd]; exact hl hd
    · rw [if_neg hd]
  unfold issue
  rw [hx]
  simp only [hr, hs, hlate, ht, hp, Bool.false_eq_true, if_false]

theorem issue_ok {s s' : State} {x : Ctx} {i : Instr} {body : Ctx → Res} (h : Issues s x i) (hb : body x = .ok s') :
    issue i s body = s'.finish x.c i none := by rw [issue_of h, hb, Res.settle]

theorem issue_jump {s s' : State} {x : Ctx} {i : Instr} {body : Ctx → Res} {pc : Addr} (h : Issues s x i) (hb : body x = .jump s' pc) :
    issue i s body = s'.finish x.c i (some pc) := by rw [issue_of h, hb, Res.settle]

theorem issue_trap {s : State} {x : Ctx} {i : Instr} {body : Ctx → Res} {cause detail : Nat} {faddr : W64} (h : Issues s x i)
    (hb : body x = .trap cause detail faddr) : issue i s body = trapEntry s x.c cause detail faddr false := by rw [issue_of h, hb, Res.settle]

theorem issue_wait {s s' : State} {x : Ctx} {i : Instr} {body : Ctx → Res} (h : Issues s x i) (hb : body x = .wait s') :
    issue i s body = s' := by rw [issue_of h, hb, Res.settle]

/-! ### Tables -/

theorem tget?_tput {α : Type} (t : Tbl α) (k : Nat) (x : α) (j : Nat) :
    tget? (tput t k x) j = if j = k then some x else tget? t j := by
  induction t with
  | nil => by_cases h : j = k <;> simp [tput, tget?, h]
  | cons e t ih =>
    obtain ⟨i, y⟩ := e
    simp only [tput]
    split
    · subst_vars
      by_cases h : j = i <;> simp [tget?, h]
    · split
      · rename_i h1 h2
        by_cases hj : j = k
        · simp [tget?, hj]
        · simp only [tget?, hj, if_false]
          by_cases hlt : j < k
          · have h3 : j ≠ i := by omega
            have h4 : j < i := by omega
            simp [hlt, h3, h4]
          · simp [hlt]
      · rename_i h1 h2
        simp only [tget?, ih]
        by_cases hj : j = i
        · have : j ≠ k := by omega
          simp [hj]
          omega
        · by_cases hjk : j = k
          · subst hjk; simp [hj, h2]
          · simp [hj, hjk]

/-! ### Quiet changes -/

/-- A mapped block that is kept is found again (R352). -/
theorem qcb?_putQcb_mapped (s : State) (blk : Nat) {b : Qcb} (hs : b.slot.isSome = true) (hv : b.v = true) :
    (s.putQcb blk b).qcb? blk = some b := by
  unfold State.qcb? State.putQcb
  simp [tget?_tput, hs, hv]

theorem Quiet.refl (s : State) : Quiet s s := ⟨rfl, fun _ => rfl⟩

theorem Quiet.trans {a b c : State} (h1 : Quiet a b) (h2 : Quiet b c) : Quiet a c :=
  ⟨h2.1.trans h1.1, fun v => (h2.2 v).trans (h1.2 v)⟩

theorem vdev?_modVdev (s : State) (v : Nat) (f : VDev → VDev) (w : Nat) :
    (s.modVdev v f).vdev? w = if w = v then (s.vdev? v).map f else s.vdev? w := by
  unfold State.modVdev State.vdev?
  cases hd : tget? s.vds v with
  | none =>
    by_cases h : w = v
    · subst h; simp [hd]
    · simp [h]
  | some d => simp [tget?_tput]

/-- A change of a device alone is hushed. -/
theorem hush_modVdev (s : State) (v : Nat) (f : VDev → VDev) : (s.modVdev v f).hush = s.hush := by
  unfold State.modVdev
  cases tget? s.vds v <;> rfl

theorem Quiet.addShare (s : State) (vd m n : Nat) : Quiet s (s.addShare vd m n) := by
  unfold State.addShare
  refine ⟨hush_modVdev .., fun v => ?_⟩
  rw [vdev?_modVdev]
  by_cases h : v = vd
  · subst h
    simp only [if_true, Option.map_map]
    cases s.vdev? v <;> rfl
  · simp [h]

theorem map_vput {α β : Type} {n : Nat} (xs : Vector α n) (i : Nat) (y d : α) (f : α → β) (h : f y = f (vat xs i d)) :
    (vput xs i y).map f = xs.map f := by
  unfold vput vat at *
  split
  · rename_i hi
    rw [dif_pos hi] at h
    ext j hj
    simp only [Vector.getElem_map, Vector.getElem_set]
    split
    · subst_vars; exact h
    · rfl
  · rfl

theorem Quiet.modCore (s : State) (n : Nat) (f : Core → Core) (h : ∀ c, (f c).noCounts = c.noCounts) : Quiet s (s.modCore n f) := by
  refine ⟨?_, fun v => rfl⟩
  unfold State.modCore State.hush State.core
  simp only [map_vput s.cores n (f (vat s.cores n Core.reset)) Core.reset Core.noCounts (h _)]

theorem List.map_modify_of {α β : Type} (xs : List α) (n : Nat) (f : α → α) (g : α → β) (h : ∀ a, g (f a) = g a) :
    (xs.modify n f).map g = xs.map g := by
  apply List.ext_getElem?
  intro i
  simp only [List.getElem?_map, List.getElem?_modify]
  split
  · cases xs[i]? <;> simp [h]
  · cases xs[i]? <;> simp

theorem Quiet.pend (s : State) (c : CRef) (f : List (BitVec 8) → List (BitVec 8)) :
    Quiet s (s.modCourse c fun k => { k with ovfPend := f k.ovfPend }) := by
  refine ⟨?_, fun v => rfl⟩
  unfold State.modCourse State.modTruss State.hush
  rw [List.map_modify_of]
  intro t
  unfold Truss.noPend Truss.modCourse
  simp only [List.map_modify_of t.courses c.course (fun k => { k with ovfPend := f k.ovfPend })
    (fun k => { k with ovfPend := [] }) (fun _ => rfl)]

theorem Quiet.bumpCounter (s : State) (core k n : Nat) : Quiet s (s.bumpCounter core k n) := by
  have hc : Quiet s (s.modCore core fun c =>
      { c with ec := vput c.ec k { (vat (s.core core).ec k ⟨0, 0⟩) with value := (vat (s.core core).ec k ⟨0, 0⟩).value + BitVec.ofNat 48 n } }) := by
    refine ⟨?_, fun v => rfl⟩
    unfold State.modCore State.hush
    rw [map_vput (d := Core.reset)]
    unfold Core.noCounts State.core
    simp only [map_vput (d := (⟨0, 0⟩ : EvCounter)) (f := fun (e : EvCounter) => { e with value := 0 })]
  unfold State.bumpCounter
  simp only
  split
  · exact hc
  · split
    · exact hc.trans (Quiet.pend _ _ fun l => l ++ [BitVec.ofNat 8 k])
    · exact hc

theorem Quiet.countEvent (s : State) (core evt n : Nat) : Quiet s (s.countEvent core evt n) := by
  unfold State.countEvent
  generalize List.range 8 = ks
  induction ks generalizing s with
  | nil => exact Quiet.refl s
  | cons k ks ih =>
    simp only [List.foldl_cons]
    refine Quiet.trans ?_ (ih _)
    split
    · exact Quiet.bumpCounter ..
    · exact Quiet.refl s

theorem Quiet.tick (s : State) (n : Nat) : Quiet s { s with tick := n } := ⟨rfl, fun _ => rfl⟩

/-! ### The end of a word -/

theorem truss?_modTruss (s : State) (n m : Nat) (f : Truss → Truss) :
    (s.modTruss n f).truss? m = if m = n then (s.truss? m).map f else s.truss? m := by
  unfold State.modTruss State.truss?
  simp only [List.getElem?_modify, eq_comm (a := n)]
  split <;> simp

theorem course?_modCourse (s : State) (c d : CRef) (f : Course → Course) :
    (s.modCourse c f).course? d = if d = c then (s.course? d).map f else s.course? d := by
  unfold State.modCourse State.modTruss State.course? Truss.modCourse
  simp only [List.getElem?_modify]
  obtain ⟨ct, cc⟩ := c
  obtain ⟨dt, dc⟩ := d
  by_cases h : ct = dt
  · subst h
    cases hs : s.trusses[ct]? with
    | none => simp
    | some t =>
      simp only [if_true, Option.bind_some]
      by_cases hc : cc = dc
      · subst hc; simp
      · have : ¬ dc = cc := fun e => hc e.symm
        simp [hc, this]
  · have : ¬ dt = ct := fun e => h e.symm
    simp [h, this]

theorem course?_setCourse (s : State) (c d : CRef) (k : Course) :
    (s.setCourse c k).course? d = if d = c then (s.course? d).map (fun _ => k) else s.course? d := course?_modCourse ..

/-- Two changes of one course are one. -/
theorem modCourse_modCourse (s : State) (c : CRef) (f g : Course → Course) :
    (s.modCourse c f).modCourse c g = s.modCourse c (g ∘ f) := by
  unfold State.modCourse State.modTruss Truss.modCourse
  congr 1
  rw [List.modify_modify_eq]
  congr 1
  funext t
  simp only [Function.comp, List.modify_modify_eq]

theorem setCourse_modCourse (s : State) (c : CRef) (k : Course) (g : Course → Course) :
    (s.setCourse c k).modCourse c g = s.setCourse c (g k) := by
  unfold State.setCourse
  rw [modCourse_modCourse]
  rfl

theorem setCourse_self {s : State} {c : CRef} {k : Course} (h : s.course? c = some k) : s.setCourse c k = s := by
  unfold State.setCourse State.modCourse State.modTruss Truss.modCourse
  have : s.trusses.modify c.truss (fun t => { t with courses := t.courses.modify c.course fun _ => k }) = s.trusses := by
    apply List.ext_getElem?
    intro i
    simp only [List.getElem?_modify]
    unfold State.course? at h
    split
    · rename_i hi
      subst hi
      cases ht : s.trusses[c.truss]? with
      | none => simp
      | some t =>
        rw [ht] at h
        simp only [Option.bind_some] at h
        have : t.courses.modify c.course (fun _ => k) = t.courses := by
          apply List.ext_getElem?
          intro j
          simp only [List.getElem?_modify]
          split
          · rename_i hj; subst hj; simp [h]
          · simp
        simp [this]
    · simp
  rw [this]

/-- The end of a word moves its course on, and counts. -/
theorem finish_quiet {s : State} {c : CRef} {t : Truss} (h : s.truss? c.truss = some t) (i : Instr) (pc : Option Addr) :
    Quiet (s.modCourse c fun k => k.after s.clk t.core (positionsOf i) (pc.getD (k.pc + 8))) (s.finish c i pc) := by
  unfold State.finish
  simp only [h]
  refine Quiet.trans (Quiet.trans (Quiet.addShare _ t.space 1 1) (Quiet.countEvent _ t.core 1 1)) ?_
  refine Quiet.trans ?_ (Quiet.tick _ _)
  split
  · exact Quiet.countEvent ..
  · exact Quiet.refl _

/-- A word whose effect is on its course alone is done. -/
theorem done_set {s : State} {x : Ctx} (hx : s.ctx? = some x) (k' : Course) (i : Instr) (pc : Option Addr) :
    Done x ((x.set k').finish x.c i pc) k' (positionsOf i) (pc.getD (k'.pc + 8)) := by
  obtain ⟨h1, h2, ht, hk, -, -, -⟩ := ctx_of hx
  have htr : (x.set k').truss? x.c.truss = some (x.t.modCourse x.c.course fun _ => k') := by
    unfold Ctx.set State.setCourse State.modCourse
    rw [truss?_modTruss, h1, ht]
    simp
  have := finish_quiet htr i pc
  unfold Done
  unfold Ctx.set at this
  rw [setCourse_modCourse] at this
  exact this

end Sys2Proof.Machine
end

