-- ==== Sys2Proof/Laws/Memory.lean ====
section
/-!
SUPPORT. Sparse tables and bytes: reading after writing, and the canonical form that every write keeps (00 R3, 10 R216; log 3).
-/
namespace Sys2Proof.Machine

variable {α : Type} [DecidableEq α]

/-! ### The canonical form -/

/-- The canonical form in words: keys rise, and no entry is the default. -/
theorem twf_iff (d : α) (t : Tbl α) : twf d t = true ↔ t.Pairwise (fun a b => a.1 < b.1) ∧ ∀ e ∈ t, e.2 ≠ d := by
  induction t with
  | nil => simp [twf]
  | cons e t ih =>
    obtain ⟨j, x⟩ := e
    cases t with
    | nil => simp [twf]
    | cons e t =>
      obtain ⟨k, y⟩ := e
      simp only [twf, Bool.and_eq_true, decide_eq_true_eq, ih, List.pairwise_cons, List.mem_cons]
      constructor
      · rintro ⟨⟨hx, hjk⟩, ⟨hk, ht⟩, hd⟩
        refine ⟨⟨?_, hk, ht⟩, ?_⟩
        · rintro e (rfl | he)
          · exact hjk
          · exact Nat.lt_trans hjk (hk e he)
        · rintro e (rfl | he)
          · exact hx
          · exact hd e he
      · rintro ⟨⟨hj, hk, ht⟩, hd⟩
        exact ⟨⟨hd (j, x) (.inl rfl), hj (k, y) (.inl rfl)⟩, ⟨hk, ht⟩, fun e he => hd e (.inr he)⟩

theorem twf_tail {d : α} {e : Nat × α} {t : Tbl α} (h : twf d (e :: t) = true) : twf d t = true := by
  rw [twf_iff] at *
  exact ⟨(List.pairwise_cons.1 h.1).2, fun x hx => h.2 x (List.mem_cons_of_mem _ hx)⟩

/-- Keys that a write leaves are the written one and earlier ones. -/
theorem mem_tset {d : α} {t : Tbl α} {k : Nat} {x : α} {e : Nat × α} (h : e ∈ tset d t k x) : e ∈ t ∨ e = (k, x) ∧ x ≠ d := by
  induction t with
  | nil =>
    simp only [tset] at h
    split at h
    · cases h
    · simp only [List.mem_singleton] at h
      exact .inr ⟨h, ‹_›⟩
  | cons a t ih =>
    obtain ⟨j, y⟩ := a
    simp only [tset] at h
    split at h
    · split at h
      · exact .inl (List.mem_cons_of_mem _ h)
      · rcases List.mem_cons.1 h with h | h
        · exact .inr ⟨h, ‹_›⟩
        · exact .inl (List.mem_cons_of_mem _ h)
    · split at h
      · split at h
        · exact .inl h
        · rcases List.mem_cons.1 h with h | h
          · exact .inr ⟨h, ‹_›⟩
          · exact .inl h
      · rcases List.mem_cons.1 h with h | h
        · exact .inl (h ▸ List.mem_cons_self)
        · rcases ih h with h | h
          · exact .inl (List.mem_cons_of_mem _ h)
          · exact .inr h

/-- A write keeps the canonical form. -/
theorem tset_wf {d : α} {t : Tbl α} (h : twf d t = true) (k : Nat) (x : α) : twf d (tset d t k x) = true := by
  induction t with
  | nil => by_cases hx : x = d <;> simp [tset, twf, hx]
  | cons a t ih =>
    obtain ⟨j, y⟩ := a
    have ht := twf_tail h
    have h' := (twf_iff ..).1 h
    rw [List.pairwise_cons] at h'
    simp only [tset]
    split
    · rename_i hkj
      split
      · exact ht
      · rename_i hx
        refine (twf_iff ..).2 ⟨List.pairwise_cons.2 ⟨fun e he => ?_, h'.1.2⟩, ?_⟩
        · exact hkj ▸ h'.1.1 e he
        · intro e he
          rcases List.mem_cons.1 he with rfl | he
          · exact hx
          · exact h'.2 e (List.mem_cons_of_mem _ he)
    · split
      · rename_i hlt
        split
        · exact h
        · rename_i hx
          refine (twf_iff ..).2 ⟨List.pairwise_cons.2 ⟨fun e he => ?_, List.pairwise_cons.2 h'.1⟩, ?_⟩
          · rcases List.mem_cons.1 he with rfl | he
            · exact hlt
            · exact Nat.lt_trans hlt (h'.1.1 e he)
          · intro e he
            rcases List.mem_cons.1 he with rfl | he
            · exact hx
            · exact h'.2 e he
      · rename_i hne hge
        have hr := (twf_iff ..).1 (ih ht)
        refine (twf_iff ..).2 ⟨List.pairwise_cons.2 ⟨fun e he => ?_, hr.1⟩, ?_⟩
        · rcases mem_tset he with he | ⟨rfl, -⟩
          · exact h'.1.1 e he
          · show j < k
            omega
        · intro e he
          rcases List.mem_cons.1 he with rfl | he
          · exact h'.2 _ List.mem_cons_self
          · exact hr.2 e he

omit [DecidableEq α] in
/-- A key below all listed ones reads the default. -/
theorem tget_below {d : α} {t : Tbl α} {k : Nat} (h : ∀ e ∈ t, k < e.1) : tget d t k = d := by
  cases t with
  | nil => rfl
  | cons a t =>
    have := h a List.mem_cons_self
    simp only [tget]
    rw [if_neg (by omega), if_pos this]

/-- Reading after writing. -/
theorem tget_tset {d : α} {t : Tbl α} (h : twf d t = true) (k : Nat) (x : α) (j : Nat) :
    tget d (tset d t k x) j = if j = k then x else tget d t j := by
  induction t with
  | nil =>
    simp only [tset, tget]
    split
    · by_cases hj : j = k <;> simp_all [tget]
    · by_cases hj : j = k <;> simp_all [tget]
  | cons a t ih =>
    obtain ⟨i, y⟩ := a
    have ht := twf_tail h
    have h' := (twf_iff ..).1 h
    rw [List.pairwise_cons] at h'
    have hgt : ∀ e ∈ t, i < e.1 := h'.1.1
    simp only [tset]
    split
    · rename_i hki
      subst hki
      split
      · rename_i hx
        subst hx
        by_cases hj : j = k
        · subst hj; rw [if_pos rfl, tget_below hgt]
        · simp only [tget, hj, if_false]
          split
          · rw [tget_below fun e he => Nat.lt_trans ‹_› (hgt e he)]
          · rfl
      · by_cases hj : j = k <;> simp [tget, hj]
    · rename_i hne
      split
      · rename_i hlt
        split
        · rename_i hx
          subst hx
          by_cases hj : j = k
          · subst hj; simp [tget, hlt, hne]
          · simp [hj]
        · by_cases hj : j = k
          · simp [tget, hj]
          · simp only [tget, hj, if_false]
            by_cases hjk : j < k
            · have h1 : j ≠ i := by omega
              have h2 : j < i := by omega
              simp [hjk, h1, h2]
            · simp [hjk]
      · rename_i hge
        simp only [tget, ih ht]
        by_cases hj : j = i
        · subst hj
          have : ¬ j = k := fun e => hne e.symm
          simp [this]
        · by_cases hjk : j = k
          · subst hjk; simp [hne, hge]
          · simp [hj, hjk]

/-- Equal contents are equal tables. -/
theorem twf_ext {d : α} {t u : Tbl α} (ht : twf d t = true) (hu : twf d u = true) (h : ∀ k, tget d t k = tget d u k) : t = u := by
  induction t generalizing u with
  | nil =>
    cases u with
    | nil => rfl
    | cons b u =>
      have := h b.1
      simp only [tget, if_true] at this
      exact absurd this.symm (((twf_iff ..).1 hu).2 b List.mem_cons_self)
  | cons a t ih =>
    have ha := (twf_iff ..).1 ht
    rw [List.pairwise_cons] at ha
    cases u with
    | nil =>
      have := h a.1
      simp only [tget, if_true] at this
      exact absurd this (ha.2 a List.mem_cons_self)
    | cons b u =>
      have hb := (twf_iff ..).1 hu
      rw [List.pairwise_cons] at hb
      obtain ⟨i, x⟩ := a
      obtain ⟨j, y⟩ := b
      have hij : i = j := by
        rcases Nat.lt_trichotomy i j with hlt | he | hlt
        · have := h i
          simp only [tget, if_true] at this
          rw [if_neg (by omega), if_pos hlt] at this
          exact absurd this (ha.2 _ List.mem_cons_self)
        · exact he
        · have := h j
          simp only [tget, if_true] at this
          rw [if_neg (by omega), if_pos hlt] at this
          exact absurd this.symm (hb.2 _ List.mem_cons_self)
      subst hij
      have hxy : x = y := by simpa [tget] using h i
      subst hxy
      rw [ih (twf_tail ht) (twf_tail hu)]
      intro k
      by_cases hk : i < k
      · have := h k
        simp only [tget] at this
        rwa [if_neg (by omega), if_neg (by omega), if_neg (by omega), if_neg (by omega)] at this
      · rw [tget_below fun e he => Nat.lt_of_le_of_lt (Nat.not_lt.1 hk) (ha.1.1 e he),
          tget_below fun e he => Nat.lt_of_le_of_lt (Nat.not_lt.1 hk) (hb.1.1 e he)]

/-- Entries taken out keep the canonical form. -/
theorem filter_wf {d : α} {t : Tbl α} (h : twf d t = true) (p : Nat × α → Bool) : twf d (t.filter p) = true := by
  rw [twf_iff] at *
  exact ⟨h.1.filter p, fun e he => h.2 e (List.mem_of_mem_filter he)⟩

/-! ### Bytes -/

@[simp] theorem mset_wf {m : Mem} (h : Memory.wf m = true) (a : Nat) (b : Byte) : Memory.wf (mset m a b) = true := tset_wf h a b

theorem mget_mset {m : Mem} (h : Memory.wf m = true) (a : Nat) (b : Byte) (x : Nat) :
    mget (mset m a b) x = if x = a then b else mget m x := tget_tset h a b x

@[simp] theorem writeBytes_wf {m : Mem} (h : Memory.wf m = true) (a : Nat) (bs : List Byte) : Memory.wf (writeBytes m a bs) = true := by
  induction bs generalizing m a with
  | nil => exact h
  | cons b bs ih => exact ih (mset_wf h a b) (a + 1)

/-- A byte after a write: the byte written there, or the one before. -/
theorem mget_writeBytes {m : Mem} (h : Memory.wf m = true) (a : Nat) (bs : List Byte) (x : Nat) :
    mget (writeBytes m a bs) x = if a ≤ x ∧ x < a + bs.length then (bs[x - a]?).getD 0 else mget m x := by
  induction bs generalizing m a with
  | nil => simp [writeBytes]
  | cons b bs ih =>
    simp only [writeBytes, ih (mset_wf h a b), mget_mset h, List.length_cons]
    by_cases hx : x = a
    · subst hx
      rw [if_neg (by omega), if_pos rfl, if_pos (by omega)]
      simp
    · by_cases h1 : a + 1 ≤ x ∧ x < a + 1 + bs.length
      · rw [if_pos h1, if_pos (by omega)]
        obtain ⟨n, hn⟩ : ∃ n, x = a + 1 + n := ⟨x - (a + 1), by omega⟩
        subst hn
        have e1 : a + 1 + n - (a + 1) = n := by omega
        have e2 : a + 1 + n - a = n + 1 := by omega
        simp [e1, e2]
      · rw [if_neg h1, if_neg hx, if_neg (by omega)]

/-- A byte outside the written range is as before. -/
theorem mget_writeBytes_out {m : Mem} (h : Memory.wf m = true) (a : Nat) (bs : List Byte) {x : Nat} (hx : x < a ∨ a + bs.length ≤ x) :
    mget (writeBytes m a bs) x = mget m x := by
  rw [mget_writeBytes h, if_neg (by omega)]

theorem readBytes_length (m : Mem) (a n : Nat) : (readBytes m a n).length = n := by
  induction n generalizing a with
  | zero => rfl
  | succ n ih => simp [readBytes, ih]

/-- What has been written is read back. -/
theorem readBytes_writeBytes {m : Mem} (h : Memory.wf m = true) (a : Nat) (bs : List Byte) :
    readBytes (writeBytes m a bs) a bs.length = bs := by
  induction bs generalizing m a with
  | nil => rfl
  | cons b bs ih =>
    simp only [List.length_cons, readBytes, writeBytes, ih (mset_wf h a b)]
    rw [mget_writeBytes_out (mset_wf h a b) _ _ (.inl (by omega)), mget_mset h, if_pos rfl]

theorem natBytes_length (n x : Nat) : (natBytes n x).length = n := by
  induction n generalizing x with
  | zero => rfl
  | succ n ih => simp [natBytes, ih]

/-- The bytes of a number give the number back (R3). -/
theorem bytesNat_natBytes (n x : Nat) : bytesNat (natBytes n x) = x % 256 ^ n := by
  induction n generalizing x with
  | zero => simp [natBytes, bytesNat, Nat.mod_one]
  | succ n ih =>
    simp only [natBytes, bytesNat, ih, BitVec.toNat_ofNat]
    rw [show 256 ^ (n + 1) = 256 * 256 ^ n by ring, Nat.mod_mul]

theorem readNat_writeNat {m : Mem} (h : Memory.wf m = true) (a n x : Nat) : readNat (writeNat m a n x) a n = x % 256 ^ n := by
  unfold readNat writeNat
  have := readBytes_writeBytes h a (natBytes n x)
  rw [natBytes_length] at this
  rw [this, bytesNat_natBytes]

@[simp] theorem writeNat_wf {m : Mem} (h : Memory.wf m = true) (a n x : Nat) : Memory.wf (writeNat m a n x) = true :=
  writeBytes_wf h a _

/-- A fold of writes keeps the canonical form. -/
theorem foldl_wf {β : Type} {d : α} (f : Tbl α → β → Tbl α) (hf : ∀ t x, twf d t = true → twf d (f t x) = true) (xs : List β) {t : Tbl α}
    (h : twf d t = true) : twf d (xs.foldl f t) = true := by
  induction xs generalizing t with
  | nil => exact h
  | cons x xs ih => exact ih (hf t x h)

@[simp] theorem psnWrite_wf {p : Tbl Bool} (h : twf false p = true) (a n : Nat) (bad : Bool) : twf false (psnWrite p a n bad) = true := by
  refine foldl_wf _ (fun t x ht => ?_) _ h
  split
  · exact tset_wf ht ..
  · split
    · exact tset_wf ht ..
    · exact ht

/-! ### The other writers of memory -/

@[simp] theorem bank_store_wf {b : Bank} (h : Memory.wf b.m = true) (p : Part) (a : Nat) (bad : Bool) :
    Memory.wf (b.store p a bad).m = true := writeBytes_wf h ..

@[simp] theorem bank_atomic_wf {b : Bank} (h : Memory.wf b.m = true) (op : AOp) (p : Part) (a : Nat) :
    Memory.wf (b.atomic op p a).1.m = true := by
  unfold Bank.atomic
  dsimp only
  split
  · exact h
  · exact writeBytes_wf h ..

@[simp] theorem copyBytes_wf {m : Mem} (h : Memory.wf m = true) (from_ : Mem) (src dst n : Nat) :
    Memory.wf (copyBytes from_ m src dst n) = true :=
  foldl_wf (d := unlisted) _ (fun _ _ ht => tset_wf ht ..) _ (filter_wf h _)

/-- A change of another field keeps the form of memory. -/
theorem MemoryForm.of_eq {s t : State} (h : MemoryForm s) (h1 : t.mem = s.mem) (h2 : t.hostMem = s.hostMem) : MemoryForm t := by
  unfold MemoryForm at *; rwa [h1, h2]

theorem bank_form {s : State} (h : MemoryForm s) (host : Bool) : Memory.wf (s.bank host).m = true := by
  cases host
  · exact h.1
  · exact h.2

/-- A meter's share changes no byte of either memory (R198). -/
@[simp] theorem addShare_mem (s : State) (vd m n : Nat) : (s.addShare vd m n).mem = s.mem := by
  unfold State.addShare State.modVdev
  split <;> rfl
@[simp] theorem addShare_hostMem (s : State) (vd m n : Nat) : (s.addShare vd m n).hostMem = s.hostMem := by
  unfold State.addShare State.modVdev
  split <;> rfl

/-- A line replaced at a slice changes no byte (R13). -/
@[simp] theorem makeRoom_mem (s : State) (vd l : Nat) : (s.makeRoom vd l).mem = s.mem := by
  unfold State.makeRoom
  dsimp only
  split
  · split <;> simp
  · rfl
@[simp] theorem makeRoom_hostMem (s : State) (vd l : Nat) : (s.makeRoom vd l).hostMem = s.hostMem := by
  unfold State.makeRoom
  dsimp only
  split
  · split <;> simp
  · rfl

/-- A line handed over changes no byte (R242, R243). -/
@[simp] theorem handOver_mem (s : State) (vd l : Nat) : (s.handOver vd l).mem = s.mem := by
  unfold State.handOver
  split
  · split
    · dsimp only; split <;> simp
    · rfl
  · rfl
@[simp] theorem handOver_hostMem (s : State) (vd l : Nat) : (s.handOver vd l).hostMem = s.hostMem := by
  unfold State.handOver
  split
  · split
    · dsimp only; split <;> simp
    · rfl
  · rfl

/-- What a slice does for an access changes no byte (R13). -/
@[simp] theorem touchLine_mem (s : State) (vd a : Nat) (w : Bool) : (s.touchLine vd a w).mem = s.mem := by
  unfold State.touchLine
  dsimp only
  split <;> simp
@[simp] theorem touchLine_hostMem (s : State) (vd a : Nat) (w : Bool) : (s.touchLine vd a w).hostMem = s.hostMem := by
  unfold State.touchLine
  dsimp only
  split <;> simp

/-- The slices' part of an access keeps what `f` keeps of each line. -/
theorem foldl_keeps {α β : Type} (f : State → α → State) (g : State → β) (h : ∀ s x, g (f s x) = g s) (xs : List α) (s : State) :
    g (xs.foldl f s) = g s := by
  induction xs generalizing s with
  | nil => rfl
  | cons x xs ih => rw [List.foldl_cons, ih, h]

@[simp] theorem touchRange_mem (s : State) (vd a n : Nat) (w : Bool) : (s.touchRange vd a n w).mem = s.mem :=
  foldl_keeps _ State.mem (fun s _ => touchLine_mem s ..) _ s
@[simp] theorem touchRange_hostMem (s : State) (vd a n : Nat) (w : Bool) : (s.touchRange vd a n w).hostMem = s.hostMem :=
  foldl_keeps _ State.hostMem (fun s _ => touchLine_hostMem s ..) _ s

/-- A write at a home keeps the form of both memories. -/
theorem putBank_form {s : State} (h : MemoryForm s) (vd : Nat) (host : Bool) (pa n : Nat) {b : Bank} (hb : Memory.wf b.m = true) :
    MemoryForm (s.putBank vd host pa n b) := by
  cases host
  · exact ⟨hb, (touchRange_hostMem s vd pa n true).symm ▸ h.2⟩
  · exact ⟨h.1, hb⟩

/-- The walker's bits keep the form of both memories. -/
theorem markLeaf_form {s : State} (h : MemoryForm s) (vd mask : Nat) (l : Leaf) : MemoryForm (s.markLeaf vd mask l) := by
  unfold State.markLeaf
  split
  · exact ⟨h.1, mset_wf h.2 ..⟩
  · exact ⟨mset_wf h.1 .., by simpa using h.2⟩

theorem markWalk_form {s : State} (h : MemoryForm s) (vd : Nat) (w : Walked) (want : Want) : MemoryForm (s.markWalk vd w want) := by
  have hf : ∀ mask (ls : List Leaf) (s : State), MemoryForm s → MemoryForm (ls.foldl (State.markLeaf · vd mask ·) s) := by
    intro mask ls
    induction ls with
    | nil => exact fun _ h => h
    | cons l ls ih => exact fun s h => ih _ (markLeaf_form h ..)
  exact hf _ _ _ (hf _ _ _ h)

/-! ### Runs of bytes in one piece -/

omit [DecidableEq α] in
/-- A key that is not listed reads the default. -/
theorem tget_absent {d : α} {t : Tbl α} {k : Nat} (h : ∀ e ∈ t, e.1 ≠ k) : tget d t k = d := by
  induction t with
  | nil => rfl
  | cons a t ih =>
    obtain ⟨j, y⟩ := a
    have hj := h (j, y) List.mem_cons_self
    simp only [tget]
    rw [if_neg fun e => hj e.symm, ih fun e he => h e (List.mem_cons_of_mem _ he)]
    split <;> rfl

/-- A listed entry is what its key reads. -/
theorem tget_of_mem {d : α} {t : Tbl α} (h : twf d t = true) {k : Nat} {x : α} (hm : (k, x) ∈ t) : tget d t k = x := by
  induction t with
  | nil => cases hm
  | cons a t ih =>
    obtain ⟨j, y⟩ := a
    have h' := (twf_iff ..).1 h
    rw [List.pairwise_cons] at h'
    simp only [tget]
    rcases List.mem_cons.1 hm with e | hm
    · cases e
      rw [if_pos rfl]
    · have := h'.1.1 _ hm
      rw [if_neg (by simp only at this; omega), if_neg (by simp only at this; omega), ih (twf_tail h) hm]

/-- Tables in their form that read alike hold the same entries: what is listed is what does not read the default. -/
theorem mem_iff_tget {d : α} {t : Tbl α} (h : twf d t = true) (k : Nat) (x : α) : (k, x) ∈ t ↔ tget d t k = x ∧ x ≠ d := by
  refine ⟨fun hm => ⟨tget_of_mem h hm, ((twf_iff ..).1 h).2 _ hm⟩, fun ⟨hg, hx⟩ => ?_⟩
  by_contra hn
  refine hx (hg ▸ tget_absent fun e he hk => ?_)
  obtain ⟨j, y⟩ := e
  obtain rfl : j = k := hk
  obtain rfl : y = x := (tget_of_mem h he).symm.trans hg
  exact hn he

/-- Two tables in a row, the keys of the first below those of the second. -/
theorem append_wf {d : α} {t u : Tbl α} (ht : twf d t = true) (hu : twf d u = true) (h : ∀ e ∈ t, ∀ f ∈ u, e.1 < f.1) :
    twf d (t ++ u) = true := by
  rw [twf_iff] at *
  exact ⟨List.pairwise_append.2 ⟨ht.1, hu.1, h⟩, fun e he => (List.mem_append.1 he).elim (ht.2 e) (hu.2 e)⟩

theorem mem_cellsFrom {a : Nat} {bs : List Byte} {k : Nat} {x : Byte} :
    (k, x) ∈ cellsFrom a bs ↔ x ≠ unlisted ∧ a ≤ k ∧ k < a + bs.length ∧ (bs[k - a]?).getD 0 = x := by
  induction bs generalizing a with
  | nil => simp [cellsFrom]; omega
  | cons b bs ih =>
    have hs : ∀ n, a + 1 ≤ n → ((b :: bs)[n - a]?).getD 0 = (bs[n - (a + 1)]?).getD 0 := fun n hn => by
      rw [show n - a = n - (a + 1) + 1 by omega, List.getElem?_cons_succ]
    simp only [cellsFrom, List.length_cons]
    by_cases hk : k = a
    · subst hk
      split
      · rename_i hb
        rw [ih]
        simp only [Nat.sub_self, List.getElem?_cons_zero, Option.getD_some]
        constructor
        · rintro ⟨-, h, -⟩; omega
        · rintro ⟨hx, -, -, e⟩; exact absurd (e ▸ hb) hx
      · rename_i hb
        rw [List.mem_cons, ih]
        simp only [Prod.mk.injEq, true_and, Nat.sub_self, List.getElem?_cons_zero, Option.getD_some]
        constructor
        · rintro (e | ⟨-, h, -⟩)
          · exact ⟨e ▸ hb, Nat.le_refl _, by omega, e.symm⟩
          · omega
        · rintro ⟨-, -, -, e⟩; exact .inl e.symm
    · have : (k, x) ∈ (if b = unlisted then cellsFrom (a + 1) bs else (a, b) :: cellsFrom (a + 1) bs) ↔ (k, x) ∈ cellsFrom (a + 1) bs := by
        split
        · rfl
        · simp [hk]
      rw [this, ih]
      constructor
      · rintro ⟨hx, h1, h2, e⟩; exact ⟨hx, by omega, by omega, hs k h1 ▸ e⟩
      · rintro ⟨hx, h1, h2, e⟩; exact ⟨hx, by omega, by omega, hs k (by omega) ▸ e⟩

theorem cellsFrom_wf (a : Nat) (bs : List Byte) : Memory.wf (cellsFrom a bs) = true := by
  induction bs generalizing a with
  | nil => rfl
  | cons b bs ih =>
    simp only [cellsFrom]
    split
    · exact ih _
    · rename_i hb
      refine append_wf (t := [(a, b)]) (by simp [twf, hb]) (ih (a + 1)) fun e he f hf => ?_
      obtain ⟨k, x⟩ := f
      have := (mem_cellsFrom.1 hf).2.1
      simp only [List.mem_singleton] at he
      subst he
      exact this

/-- A run of bytes in one piece keeps the canonical form. -/
@[simp] theorem spliceBytes_wf {m : Mem} (h : Memory.wf m = true) (a : Nat) (bs : List Byte) : Memory.wf (spliceBytes m a bs) = true := by
  refine append_wf (append_wf (filter_wf h _) (cellsFrom_wf a bs) ?_) (filter_wf h _) ?_
  · rintro e he ⟨k, x⟩ hf
    have h1 := of_decide_eq_true (List.mem_filter.1 he).2
    have h2 := (mem_cellsFrom.1 hf).2.1
    show e.1 < k
    omega
  · rintro ⟨k, x⟩ he f hf
    have h1 := of_decide_eq_true (List.mem_filter.1 hf).2
    show k < f.1
    rcases List.mem_append.1 he with he | he
    · have := of_decide_eq_true (List.mem_filter.1 he).2
      simp only at this
      omega
    · have := (mem_cellsFrom.1 he).2.2.1
      omega

/-- A run written in one piece is the run written byte by byte. -/
theorem spliceBytes_eq {m : Mem} (h : Memory.wf m = true) (a : Nat) (bs : List Byte) : spliceBytes m a bs = writeBytes m a bs := by
  refine twf_ext (spliceBytes_wf h a bs) (writeBytes_wf h a bs) fun k => ?_
  have hw := mget_writeBytes h a bs k
  unfold mget at hw
  rw [hw]
  have hm : ∀ x, (k, x) ∈ spliceBytes m a bs ↔
      (k, x) ∈ m ∧ (k < a ∨ a + bs.length ≤ k) ∨ x ≠ unlisted ∧ a ≤ k ∧ k < a + bs.length ∧ (bs[k - a]?).getD 0 = x := fun x => by
    simp only [spliceBytes, List.mem_append, List.mem_filter, mem_cellsFrom, decide_eq_true_eq]
    tauto
  by_cases hd : tget unlisted (spliceBytes m a bs) k = unlisted
  · rw [hd]
    by_contra hne
    split at hne
    · rename_i hr
      exact ((mem_iff_tget (spliceBytes_wf h a bs) k _).1 ((hm _).2 (.inr ⟨Ne.symm hne, hr.1, hr.2, rfl⟩))).2.symm.elim
        (((mem_iff_tget (spliceBytes_wf h a bs) k _).1 ((hm _).2 (.inr ⟨Ne.symm hne, hr.1, hr.2, rfl⟩))).1.symm.trans hd).symm
    · rename_i hr
      have := (hm (tget unlisted m k)).2 (.inl ⟨(mem_iff_tget h k _).2 ⟨rfl, Ne.symm hne⟩, by omega⟩)
      exact hne (((mem_iff_tget (spliceBytes_wf h a bs) k _).1 this).1.symm.trans hd).symm
  · have hx := (hm _).1 ((mem_iff_tget (spliceBytes_wf h a bs) k _).2 ⟨rfl, hd⟩)
    rcases hx with ⟨h1, h2⟩ | ⟨-, h1, h2, h3⟩
    · rw [if_neg (by omega), tget_of_mem h h1]
    · rw [if_pos ⟨h1, h2⟩, h3]

/-- Bytes that the supervisor cluster writes keep the form of both memories. -/
theorem supWrite_form {s : State} (h : MemoryForm s) (a : Nat) (bs : List Byte) : MemoryForm (s.supWrite a bs) :=
  ⟨spliceBytes_wf h.1 a bs, h.2⟩

/-- An image written into a record keeps the form. -/
theorem putImage_form {s : State} (h : MemoryForm s) (a : Nat) (i : Image) : MemoryForm (s.putImage a i) :=
  (supWrite_form h a i.bytes).of_eq rfl rfl

/-- A queue control block kept keeps the form. -/
theorem putQcb_form {s : State} (h : MemoryForm s) (blk : Nat) (b : Qcb) : MemoryForm (s.putQcb blk b) := by
  refine ⟨?_, h.2⟩
  unfold State.putQcb
  dsimp only
  split
  · exact h.1
  · exact spliceBytes_wf h.1 ..

/-- Memory after reset lists nothing, and is in its canonical form. -/
theorem reset_memory_wf : State.reset.mem = [] ∧ Memory.wf State.reset.mem = true := ⟨rfl, rfl⟩

end Sys2Proof.Machine
end

