-- ==== Sys2Proof/Laws/PerInstr.lean ====
section
/-!
SUPPORT. One lemma for each constructor of `Instr`: its encoding fits the word of 64 bits (04 R81 to R85).
-/
namespace Sys2Proof

/-! ### Bounds of the fields -/

theorem Guard.code_lt (g : Guard) : g.code < 16 := by unfold Guard.code; have := g.pred.isLt; split <;> omega
theorem b2n_lt (b : Bool) : b2n b < 2 := by cases b <;> decide
theorem b2n_false : b2n false = 0 := rfl
theorem b2n_true : b2n true = 1 := rfl
theorem QSel.none_code : QSel.none.code = 0 := rfl
theorem Reg.num_lt (r : Reg) : r.num < 256 := by cases r with | v n => exact n.isLt | g n => exact Nat.lt_trans n.isLt (by decide)
theorem Reg.dg_lt (r : Reg) : r.dg < 9 := by cases r <;> simp [Reg.dg, Reg.isG, b2n]
theorem tokNum_lt (t : Option Tok) : tokNum t < 16 := by cases t with | none => decide | some t => exact t.isLt
theorem IntTy.code_lt (x : IntTy) : x.code < 16 := by cases x <;> decide
theorem STy.code_lt (x : STy) : x.code < 16 := by cases x <;> decide
theorem BTy.code_lt (x : BTy) : x.code < 16 := by cases x <;> decide
theorem MadwTy.code_lt (x : MadwTy) : x.code < 16 := by cases x <;> decide
theorem SarTy.code_lt (x : SarTy) : x.code < 16 := by cases x <;> decide
theorem WTy.code_lt (x : WTy) : x.code < 16 := by cases x <;> decide
theorem FTy.code_lt (x : FTy) : x.code < 16 := by cases x <;> decide
theorem HTy.code_lt (x : HTy) : x.code < 16 := by cases x <;> decide
theorem X2Ty.code_lt (x : X2Ty) : x.code < 16 := by cases x <;> decide
theorem QTy.code_lt (x : QTy) : x.code < 16 := by cases x <;> decide
theorem Cond.code_lt (x : Cond) : x.code < 8 := by cases x <;> decide
theorem FCond.code_lt (x : FCond) : x.code < 8 := by cases x <;> decide
theorem RM.code_lt (x : RM) : x.code < 8 := by cases x <;> decide
theorem NFmt.code_lt (x : NFmt) : x.code < 16 := by cases x <;> decide
theorem ScaleFmt.code_lt (x : ScaleFmt) : x.code < 16 := by cases x <;> decide
theorem ShflMode.code_lt (x : ShflMode) : x.code < 4 := by cases x <;> decide
theorem Scope.code_lt (x : Scope) : x.code < 8 := by cases x <;> decide
theorem Sz.code_lt (x : Sz) : x.code < 8 := by cases x <;> decide
theorem LdcSz.code_lt (x : LdcSz) : x.code < 8 := by cases x <;> decide
theorem ASz.code_lt (x : ASz) : x.code < 4 := by cases x <;> decide
theorem FenceSem.code_lt (x : FenceSem) : x.code < 4 := by cases x <;> decide
theorem AOp.code_lt (x : AOp) : x.code < 16 := by cases x <;> decide
theorem LySel.code_lt (x : LySel) : x.code < 32 := by cases x <;> decide
theorem LyOp.code_lt (x : LyOp) : x.code < 32 := by cases x with | clear => decide | field s => exact s.code_lt
theorem TplSel.code_lt (x : TplSel) : x.code < 32 := by cases x <;> decide
theorem TplOp.code_lt (x : TplOp) : x.code < 32 := by cases x with | clear => decide | field s => exact s.code_lt
theorem TlbScope.code_lt (x : TlbScope) : x.code < 4 := by cases x <;> decide
theorem PrfLevel.code_lt (x : PrfLevel) : x.code < 2 := by cases x <;> decide
theorem QSel.code_lt (x : QSel) : x.code < 4 := by cases x <;> decide
theorem TileTy.code_lt (x : TileTy) : x.code < 4 := by cases x <;> decide
theorem Hint.code_lt (x : Hint) : x.code < 4 := by cases x <;> decide
theorem LdSem.sem_lt (x : LdSem) : x.sem < 4 := by cases x <;> simp [LdSem.sem]
theorem LdSem.scp_lt (x : LdSem) : x.scp < 8 := by cases x with | rlx => decide | acq s => exact s.code_lt
theorem StSem.sem_lt (x : StSem) : x.sem < 4 := by cases x <;> simp [StSem.sem]
theorem StSem.scp_lt (x : StSem) : x.scp < 8 := by cases x with | rlx => decide | rel s => exact s.code_lt
theorem AtSem.sem_lt (x : AtSem) : x.sem < 4 := by cases x <;> simp [AtSem.sem]
theorem AtSem.scp_lt (x : AtSem) : x.scp < 8 := by cases x with | rlx => decide | acq s => exact s.code_lt | rel s => exact s.code_lt | ar s => exact s.code_lt
theorem ASz.acpCode_lt (x : ASz) : x.acpCode < 8 := by cases x <;> decide
theorem PrfLevel.bits_lt (x : PrfLevel) : x.bits < 2 := by cases x <;> decide
theorem RedlOp.op_lt (x : RedlOp) : x.op < 8 := by rcases x with (t | t | t | t | t | t) <;> simp [RedlOp.op]
theorem RedlOp.ty_lt (x : RedlOp) : x.ty < 16 := by rcases x with (t | t | t | t | t | t) <;> cases t <;> decide
theorem MemOpnd.code_lt (m : MemOpnd) : m.code < 2 ^ 38 - 2 ^ 23 + 2 ^ 13 := by
  unfold MemOpnd.code; have := m.gb.isLt; have := m.vx.isLt; have := b2n_lt m.xe; have := m.off.isLt; omega
theorem AtOpnd.code_lt (m : AtOpnd) : m.code < 2 ^ 38 - 2 ^ 23 + 1 := by
  unfold AtOpnd.code; have := m.gb.isLt; have := m.vx.isLt; have := b2n_lt m.xe; omega
theorem Half.word_lt (h : Half) : h.word < 2 ^ 31 := by
  unfold Half.word; have := h.dst.isLt; rcases h with (⟨d, a⟩ | ⟨d, a⟩ | ⟨d, a⟩ | ⟨d, a⟩ | ⟨d, a⟩ | ⟨d, a⟩ | ⟨d, a⟩ | ⟨d, a⟩ | ⟨d, a⟩ | ⟨d, a⟩ | ⟨d, a⟩ | ⟨d, a⟩ | ⟨d, a⟩ | ⟨d, a⟩ | ⟨d, a⟩ | ⟨d, a⟩ | ⟨d, a⟩ | ⟨d, a⟩ | ⟨d, a⟩ | ⟨d, a⟩ | ⟨d, a⟩ | ⟨d, a⟩)
  all_goals (first | (have := a.isLt; simp only [Half.code]; omega))
theorem pWord_lt (g h : Half) : pWord g h < 2 ^ 64 := by unfold pWord; have := g.word_lt; have := h.word_lt; omega
theorem fWord_lt {op tk d a b c ty sub : Nat} (gd : Guard) {ag bg : Bool} (h1 : op < 256) (h2 : tk < 16) (h3 : d < 256) (h4 : a < 256) (h5 : b < 256)
    (h6 : c < 256) (h7 : ty < 16) (h8 : sub < 256) : fWord op gd tk d a b c ty ag bg sub < 2 ^ 64 := by
  unfold fWord; have := gd.code_lt; have := b2n_lt ag; have := b2n_lt bg; omega
theorem iWord_lt {op tk d a imm : Nat} (gd : Guard) (h1 : op < 256) (h2 : tk < 16) (h3 : d < 256) (h4 : a < 256) (h5 : imm < 2 ^ 30) :
    iWord op gd tk d a imm < 2 ^ 64 := by unfold iWord; have := gd.code_lt; omega
theorem eWord_lt {op tk e : Nat} (gd : Guard) (h1 : op < 256) (h2 : tk < 16) (h3 : e < 2 ^ 46) : eWord op gd tk e < 2 ^ 64 := by
  unfold eWord; have := gd.code_lt; omega

/-! ### One lemma for each constructor -/

namespace Laws.Width

/-- The encoding of an instruction word lies within 64 bits. -/
def Statement (i : Instr) : Prop := i.isWord = true → encode i < 2 ^ 64

theorem add (gd : Guard) (t : IntTy) (sat : Bool) (d : Reg) (a : Reg) (b : Reg) : Statement (.add gd t sat d a b) := by
  intro _
  have h0 := Guard.code_lt gd; have h1 := IntTy.code_lt t; have h2 := b2n_lt sat; have h3 := Reg.num_lt d; have h4 := Reg.dg_lt d; have h5 := b2n_lt d.isG; have h6 := Reg.num_lt a; have h7 := Reg.dg_lt a; have h8 := b2n_lt a.isG; have h9 := Reg.num_lt b; have h10 := Reg.dg_lt b; have h11 := b2n_lt b.isG
  change fDAB 0x00 gd t.code d a b (b2n sat) < _
  delta fDAB
  refine fWord_lt _ ?_ ?_ ?_ ?_ ?_ ?_ ?_ ?_ <;> omega
theorem sub (gd : Guard) (t : IntTy) (sat : Bool) (d : Reg) (a : Reg) (b : Reg) : Statement (.sub gd t sat d a b) := by
  intro _
  have h0 := Guard.code_lt gd; have h1 := IntTy.code_lt t; have h2 := b2n_lt sat; have h3 := Reg.num_lt d; have h4 := Reg.dg_lt d; have h5 := b2n_lt d.isG; have h6 := Reg.num_lt a; have h7 := Reg.dg_lt a; have h8 := b2n_lt a.isG; have h9 := Reg.num_lt b; have h10 := Reg.dg_lt b; have h11 := b2n_lt b.isG
  change fDAB 0x01 gd t.code d a b (b2n sat) < _
  delta fDAB
  refine fWord_lt _ ?_ ?_ ?_ ?_ ?_ ?_ ?_ ?_ <;> omega
theorem mul (gd : Guard) (t : IntTy) (d : Reg) (a : Reg) (b : Reg) : Statement (.mul gd t d a b) := by
  intro _
  have h0 := Guard.code_lt gd; have h1 := IntTy.code_lt t; have h2 := Reg.num_lt d; have h3 := Reg.dg_lt d; have h4 := b2n_lt d.isG; have h5 := Reg.num_lt a; have h6 := Reg.dg_lt a; have h7 := b2n_lt a.isG; have h8 := Reg.num_lt b; have h9 := Reg.dg_lt b; have h10 := b2n_lt b.isG
  change fDAB 0x02 gd t.code d a b 0 < _
  delta fDAB
  refine fWord_lt _ ?_ ?_ ?_ ?_ ?_ ?_ ?_ ?_ <;> omega
theorem mulh (gd : Guard) (t : IntTy) (d : Reg) (a : Reg) (b : Reg) : Statement (.mulh gd t d a b) := by
  intro _
  have h0 := Guard.code_lt gd; have h1 := IntTy.code_lt t; have h2 := Reg.num_lt d; have h3 := Reg.dg_lt d; have h4 := b2n_lt d.isG; have h5 := Reg.num_lt a; have h6 := Reg.dg_lt a; have h7 := b2n_lt a.isG; have h8 := Reg.num_lt b; have h9 := Reg.dg_lt b; have h10 := b2n_lt b.isG
  change fDAB 0x03 gd t.code d a b 0 < _
  delta fDAB
  refine fWord_lt _ ?_ ?_ ?_ ?_ ?_ ?_ ?_ ?_ <;> omega
theorem mad (gd : Guard) (t : IntTy) (d : Reg) (a : Reg) (b : Reg) (c : VReg) : Statement (.mad gd t d a b c) := by
  intro _
  have h0 := Guard.code_lt gd; have h1 := IntTy.code_lt t; have h2 := Reg.num_lt d; have h3 := Reg.dg_lt d; have h4 := b2n_lt d.isG; have h5 := Reg.num_lt a; have h6 := Reg.dg_lt a; have h7 := b2n_lt a.isG; have h8 := Reg.num_lt b; have h9 := Reg.dg_lt b; have h10 := b2n_lt b.isG; have h11 := c.isLt
  change fDABC 0x04 gd t.code d a b c 0 < _
  delta fDABC
  refine fWord_lt _ ?_ ?_ ?_ ?_ ?_ ?_ ?_ ?_ <;> omega
theorem madw (gd : Guard) (t : MadwTy) (d : Reg) (a : Reg) (b : Reg) (c : VReg) : Statement (.madw gd t d a b c) := by
  intro _
  have h0 := Guard.code_lt gd; have h1 := MadwTy.code_lt t; have h2 := Reg.num_lt d; have h3 := Reg.dg_lt d; have h4 := b2n_lt d.isG; have h5 := Reg.num_lt a; have h6 := Reg.dg_lt a; have h7 := b2n_lt a.isG; have h8 := Reg.num_lt b; have h9 := Reg.dg_lt b; have h10 := b2n_lt b.isG; have h11 := c.isLt
  change fDABC 0x05 gd t.code d a b c 0 < _
  delta fDABC
  refine fWord_lt _ ?_ ?_ ?_ ?_ ?_ ?_ ?_ ?_ <;> omega
theorem min (gd : Guard) (t : IntTy) (d : Reg) (a : Reg) (b : Reg) : Statement (.min gd t d a b) := by
  intro _
  have h0 := Guard.code_lt gd; have h1 := IntTy.code_lt t; have h2 := Reg.num_lt d; have h3 := Reg.dg_lt d; have h4 := b2n_lt d.isG; have h5 := Reg.num_lt a; have h6 := Reg.dg_lt a; have h7 := b2n_lt a.isG; have h8 := Reg.num_lt b; have h9 := Reg.dg_lt b; have h10 := b2n_lt b.isG
  change fDAB 0x06 gd t.code d a b 0 < _
  delta fDAB
  refine fWord_lt _ ?_ ?_ ?_ ?_ ?_ ?_ ?_ ?_ <;> omega
theorem max (gd : Guard) (t : IntTy) (d : Reg) (a : Reg) (b : Reg) : Statement (.max gd t d a b) := by
  intro _
  have h0 := Guard.code_lt gd; have h1 := IntTy.code_lt t; have h2 := Reg.num_lt d; have h3 := Reg.dg_lt d; have h4 := b2n_lt d.isG; have h5 := Reg.num_lt a; have h6 := Reg.dg_lt a; have h7 := b2n_lt a.isG; have h8 := Reg.num_lt b; have h9 := Reg.dg_lt b; have h10 := b2n_lt b.isG
  change fDAB 0x07 gd t.code d a b 0 < _
  delta fDAB
  refine fWord_lt _ ?_ ?_ ?_ ?_ ?_ ?_ ?_ ?_ <;> omega
theorem abs (gd : Guard) (t : STy) (sat : Bool) (d : Reg) (a : Reg) : Statement (.abs gd t sat d a) := by
  intro _
  have h0 := Guard.code_lt gd; have h1 := STy.code_lt t; have h2 := b2n_lt sat; have h3 := Reg.num_lt d; have h4 := Reg.dg_lt d; have h5 := b2n_lt d.isG; have h6 := Reg.num_lt a; have h7 := Reg.dg_lt a; have h8 := b2n_lt a.isG
  change fDA 0x08 gd t.code d a (b2n sat) < _
  delta fDA
  refine fWord_lt _ ?_ ?_ ?_ ?_ ?_ ?_ ?_ ?_ <;> omega
theorem neg (gd : Guard) (t : STy) (sat : Bool) (d : Reg) (a : Reg) : Statement (.neg gd t sat d a) := by
  intro _
  have h0 := Guard.code_lt gd; have h1 := STy.code_lt t; have h2 := b2n_lt sat; have h3 := Reg.num_lt d; have h4 := Reg.dg_lt d; have h5 := b2n_lt d.isG; have h6 := Reg.num_lt a; have h7 := Reg.dg_lt a; have h8 := b2n_lt a.isG
  change fDA 0x09 gd t.code d a (b2n sat) < _
  delta fDA
  refine fWord_lt _ ?_ ?_ ?_ ?_ ?_ ?_ ?_ ?_ <;> omega
theorem and (gd : Guard) (t : BTy) (d : Reg) (a : Reg) (b : Reg) : Statement (.and gd t d a b) := by
  intro _
  have h0 := Guard.code_lt gd; have h1 := BTy.code_lt t; have h2 := Reg.num_lt d; have h3 := Reg.dg_lt d; have h4 := b2n_lt d.isG; have h5 := Reg.num_lt a; have h6 := Reg.dg_lt a; have h7 := b2n_lt a.isG; have h8 := Reg.num_lt b; have h9 := Reg.dg_lt b; have h10 := b2n_lt b.isG
  change fDAB 0x0A gd t.code d a b 0 < _
  delta fDAB
  refine fWord_lt _ ?_ ?_ ?_ ?_ ?_ ?_ ?_ ?_ <;> omega
theorem or (gd : Guard) (t : BTy) (d : Reg) (a : Reg) (b : Reg) : Statement (.or gd t d a b) := by
  intro _
  have h0 := Guard.code_lt gd; have h1 := BTy.code_lt t; have h2 := Reg.num_lt d; have h3 := Reg.dg_lt d; have h4 := b2n_lt d.isG; have h5 := Reg.num_lt a; have h6 := Reg.dg_lt a; have h7 := b2n_lt a.isG; have h8 := Reg.num_lt b; have h9 := Reg.dg_lt b; have h10 := b2n_lt b.isG
  change fDAB 0x0B gd t.code d a b 0 < _
  delta fDAB
  refine fWord_lt _ ?_ ?_ ?_ ?_ ?_ ?_ ?_ ?_ <;> omega
theorem xor (gd : Guard) (t : BTy) (d : Reg) (a : Reg) (b : Reg) : Statement (.xor gd t d a b) := by
  intro _
  have h0 := Guard.code_lt gd; have h1 := BTy.code_lt t; have h2 := Reg.num_lt d; have h3 := Reg.dg_lt d; have h4 := b2n_lt d.isG; have h5 := Reg.num_lt a; have h6 := Reg.dg_lt a; have h7 := b2n_lt a.isG; have h8 := Reg.num_lt b; have h9 := Reg.dg_lt b; have h10 := b2n_lt b.isG
  change fDAB 0x0C gd t.code d a b 0 < _
  delta fDAB
  refine fWord_lt _ ?_ ?_ ?_ ?_ ?_ ?_ ?_ ?_ <;> omega
theorem andn (gd : Guard) (t : BTy) (d : Reg) (a : Reg) (b : Reg) : Statement (.andn gd t d a b) := by
  intro _
  have h0 := Guard.code_lt gd; have h1 := BTy.code_lt t; have h2 := Reg.num_lt d; have h3 := Reg.dg_lt d; have h4 := b2n_lt d.isG; have h5 := Reg.num_lt a; have h6 := Reg.dg_lt a; have h7 := b2n_lt a.isG; have h8 := Reg.num_lt b; have h9 := Reg.dg_lt b; have h10 := b2n_lt b.isG
  change fDAB 0x0D gd t.code d a b 0 < _
  delta fDAB
  refine fWord_lt _ ?_ ?_ ?_ ?_ ?_ ?_ ?_ ?_ <;> omega
theorem not (gd : Guard) (t : BTy) (d : Reg) (a : Reg) : Statement (.not gd t d a) := by
  intro _
  have h0 := Guard.code_lt gd; have h1 := BTy.code_lt t; have h2 := Reg.num_lt d; have h3 := Reg.dg_lt d; have h4 := b2n_lt d.isG; have h5 := Reg.num_lt a; have h6 := Reg.dg_lt a; have h7 := b2n_lt a.isG
  change fDA 0x0E gd t.code d a 0 < _
  delta fDA
  refine fWord_lt _ ?_ ?_ ?_ ?_ ?_ ?_ ?_ ?_ <;> omega
theorem shl (gd : Guard) (t : BTy) (d : Reg) (a : Reg) (b : Reg) : Statement (.shl gd t d a b) := by
  intro _
  have h0 := Guard.code_lt gd; have h1 := BTy.code_lt t; have h2 := Reg.num_lt d; have h3 := Reg.dg_lt d; have h4 := b2n_lt d.isG; have h5 := Reg.num_lt a; have h6 := Reg.dg_lt a; have h7 := b2n_lt a.isG; have h8 := Reg.num_lt b; have h9 := Reg.dg_lt b; have h10 := b2n_lt b.isG
  change fDAB 0x0F gd t.code d a b 0 < _
  delta fDAB
  refine fWord_lt _ ?_ ?_ ?_ ?_ ?_ ?_ ?_ ?_ <;> omega
theorem shr (gd : Guard) (t : BTy) (d : Reg) (a : Reg) (b : Reg) : Statement (.shr gd t d a b) := by
  intro _
  have h0 := Guard.code_lt gd; have h1 := BTy.code_lt t; have h2 := Reg.num_lt d; have h3 := Reg.dg_lt d; have h4 := b2n_lt d.isG; have h5 := Reg.num_lt a; have h6 := Reg.dg_lt a; have h7 := b2n_lt a.isG; have h8 := Reg.num_lt b; have h9 := Reg.dg_lt b; have h10 := b2n_lt b.isG
  change fDAB 0x10 gd t.code d a b 0 < _
  delta fDAB
  refine fWord_lt _ ?_ ?_ ?_ ?_ ?_ ?_ ?_ ?_ <;> omega
theorem sar (gd : Guard) (t : SarTy) (d : Reg) (a : Reg) (b : Reg) : Statement (.sar gd t d a b) := by
  intro _
  have h0 := Guard.code_lt gd; have h1 := SarTy.code_lt t; have h2 := Reg.num_lt d; have h3 := Reg.dg_lt d; have h4 := b2n_lt d.isG; have h5 := Reg.num_lt a; have h6 := Reg.dg_lt a; have h7 := b2n_lt a.isG; have h8 := Reg.num_lt b; have h9 := Reg.dg_lt b; have h10 := b2n_lt b.isG
  change fDAB 0x11 gd t.code d a b 0 < _
  delta fDAB
  refine fWord_lt _ ?_ ?_ ?_ ?_ ?_ ?_ ?_ ?_ <;> omega
theorem rot (gd : Guard) (t : BTy) (d : Reg) (a : Reg) (b : Reg) : Statement (.rot gd t d a b) := by
  intro _
  have h0 := Guard.code_lt gd; have h1 := BTy.code_lt t; have h2 := Reg.num_lt d; have h3 := Reg.dg_lt d; have h4 := b2n_lt d.isG; have h5 := Reg.num_lt a; have h6 := Reg.dg_lt a; have h7 := b2n_lt a.isG; have h8 := Reg.num_lt b; have h9 := Reg.dg_lt b; have h10 := b2n_lt b.isG
  change fDAB 0x12 gd t.code d a b 0 < _
  delta fDAB
  refine fWord_lt _ ?_ ?_ ?_ ?_ ?_ ?_ ?_ ?_ <;> omega
theorem bfe (gd : Guard) (t : WTy) (d : Reg) (a : Reg) (b : Reg) : Statement (.bfe gd t d a b) := by
  intro _
  have h0 := Guard.code_lt gd; have h1 := WTy.code_lt t; have h2 := Reg.num_lt d; have h3 := Reg.dg_lt d; have h4 := b2n_lt d.isG; have h5 := Reg.num_lt a; have h6 := Reg.dg_lt a; have h7 := b2n_lt a.isG; have h8 := Reg.num_lt b; have h9 := Reg.dg_lt b; have h10 := b2n_lt b.isG
  change fDAB 0x13 gd t.code d a b 0 < _
  delta fDAB
  refine fWord_lt _ ?_ ?_ ?_ ?_ ?_ ?_ ?_ ?_ <;> omega
theorem bfi (gd : Guard) (t : BTy) (d : Reg) (a : Reg) (b : Reg) (c : VReg) : Statement (.bfi gd t d a b c) := by
  intro _
  have h0 := Guard.code_lt gd; have h1 := BTy.code_lt t; have h2 := Reg.num_lt d; have h3 := Reg.dg_lt d; have h4 := b2n_lt d.isG; have h5 := Reg.num_lt a; have h6 := Reg.dg_lt a; have h7 := b2n_lt a.isG; have h8 := Reg.num_lt b; have h9 := Reg.dg_lt b; have h10 := b2n_lt b.isG; have h11 := c.isLt
  change fDABC 0x14 gd t.code d a b c 0 < _
  delta fDABC
  refine fWord_lt _ ?_ ?_ ?_ ?_ ?_ ?_ ?_ ?_ <;> omega
theorem pop (gd : Guard) (t : BTy) (d : Reg) (a : Reg) : Statement (.pop gd t d a) := by
  intro _
  have h0 := Guard.code_lt gd; have h1 := BTy.code_lt t; have h2 := Reg.num_lt d; have h3 := Reg.dg_lt d; have h4 := b2n_lt d.isG; have h5 := Reg.num_lt a; have h6 := Reg.dg_lt a; have h7 := b2n_lt a.isG
  change fDA 0x15 gd t.code d a 0 < _
  delta fDA
  refine fWord_lt _ ?_ ?_ ?_ ?_ ?_ ?_ ?_ ?_ <;> omega
theorem clz (gd : Guard) (t : BTy) (d : Reg) (a : Reg) : Statement (.clz gd t d a) := by
  intro _
  have h0 := Guard.code_lt gd; have h1 := BTy.code_lt t; have h2 := Reg.num_lt d; have h3 := Reg.dg_lt d; have h4 := b2n_lt d.isG; have h5 := Reg.num_lt a; have h6 := Reg.dg_lt a; have h7 := b2n_lt a.isG
  change fDA 0x16 gd t.code d a 0 < _
  delta fDA
  refine fWord_lt _ ?_ ?_ ?_ ?_ ?_ ?_ ?_ ?_ <;> omega
theorem brev (gd : Guard) (t : BTy) (d : Reg) (a : Reg) : Statement (.brev gd t d a) := by
  intro _
  have h0 := Guard.code_lt gd; have h1 := BTy.code_lt t; have h2 := Reg.num_lt d; have h3 := Reg.dg_lt d; have h4 := b2n_lt d.isG; have h5 := Reg.num_lt a; have h6 := Reg.dg_lt a; have h7 := b2n_lt a.isG
  change fDA 0x17 gd t.code d a 0 < _
  delta fDA
  refine fWord_lt _ ?_ ?_ ?_ ?_ ?_ ?_ ?_ ?_ <;> omega
theorem sel (gd : Guard) (t : BTy) (d : Reg) (a : Reg) (b : Reg) (p : PSrc) (inv : Bool) : Statement (.sel gd t d a b p inv) := by
  intro _
  have h0 := Guard.code_lt gd; have h1 := BTy.code_lt t; have h2 := Reg.num_lt d; have h3 := Reg.dg_lt d; have h4 := b2n_lt d.isG; have h5 := Reg.num_lt a; have h6 := Reg.dg_lt a; have h7 := b2n_lt a.isG; have h8 := Reg.num_lt b; have h9 := Reg.dg_lt b; have h10 := b2n_lt b.isG; have h11 := p.isLt; have h12 := b2n_lt inv
  change fDAB 0x18 gd t.code d a b (p.val + b2n inv * 8) < _
  delta fDAB
  refine fWord_lt _ ?_ ?_ ?_ ?_ ?_ ?_ ?_ ?_ <;> omega
theorem mov (gd : Guard) (t : BTy) (d : Reg) (a : Reg) : Statement (.mov gd t d a) := by
  intro _
  have h0 := Guard.code_lt gd; have h1 := BTy.code_lt t; have h2 := Reg.num_lt d; have h3 := Reg.dg_lt d; have h4 := b2n_lt d.isG; have h5 := Reg.num_lt a; have h6 := Reg.dg_lt a; have h7 := b2n_lt a.isG
  change fDA 0x19 gd t.code d a 0 < _
  delta fDA
  refine fWord_lt _ ?_ ?_ ?_ ?_ ?_ ?_ ?_ ?_ <;> omega
theorem cmp (gd : Guard) (t : IntTy) (cc : Cond) (d : PDst) (a : Reg) (b : Reg) : Statement (.cmp gd t cc d a b) := by
  intro _
  have h0 := Guard.code_lt gd; have h1 := IntTy.code_lt t; have h2 := Cond.code_lt cc; have h3 := d.isLt; have h4 := Reg.num_lt a; have h5 := Reg.dg_lt a; have h6 := b2n_lt a.isG; have h7 := Reg.num_lt b; have h8 := Reg.dg_lt b; have h9 := b2n_lt b.isG
  change fWord 0x1A gd 0 d.val a.num b.num 0 t.code a.isG b.isG cc.code < _
  refine fWord_lt _ ?_ ?_ ?_ ?_ ?_ ?_ ?_ ?_ <;> omega
theorem plog (gd : Guard) (d : PDst) (a : PSrc) (b : PSrc) (c : PSrc) (tt : BitVec 8) : Statement (.plog gd d a b c tt) := by
  intro _
  have h0 := Guard.code_lt gd; have h1 := d.isLt; have h2 := a.isLt; have h3 := b.isLt; have h4 := c.isLt; have h5 := tt.isLt
  change fWord 0x1B gd 0 d.val a.val b.val c.val 0 false false tt.toNat < _
  refine fWord_lt _ ?_ ?_ ?_ ?_ ?_ ?_ ?_ ?_ <;> omega
theorem lea (gd : Guard) (t : WTy) (d : Reg) (a : Reg) (b : Reg) (sh : Fin 8) : Statement (.lea gd t d a b sh) := by
  intro _
  have h0 := Guard.code_lt gd; have h1 := WTy.code_lt t; have h2 := Reg.num_lt d; have h3 := Reg.dg_lt d; have h4 := b2n_lt d.isG; have h5 := Reg.num_lt a; have h6 := Reg.dg_lt a; have h7 := b2n_lt a.isG; have h8 := Reg.num_lt b; have h9 := Reg.dg_lt b; have h10 := b2n_lt b.isG; have h11 := sh.isLt
  change fDAB 0x1C gd t.code d a b sh.val < _
  delta fDAB
  refine fWord_lt _ ?_ ?_ ?_ ?_ ?_ ?_ ?_ ?_ <;> omega
theorem shfl (gd : Guard) (t : BTy) (m : ShflMode) (wl : Fin 6) (d : VReg) (a : VReg) (b : Reg) (c : GReg) : Statement (.shfl gd t m wl d a b c) := by
  intro _
  have h0 := Guard.code_lt gd; have h1 := BTy.code_lt t; have h2 := ShflMode.code_lt m; have h3 := wl.isLt; have h4 := d.isLt; have h5 := a.isLt; have h6 := Reg.num_lt b; have h7 := Reg.dg_lt b; have h8 := b2n_lt b.isG; have h9 := c.isLt
  change fWord 0x1D gd 0 d.val a.val b.num c.val t.code false b.isG (m.code + wl.val * 4) < _
  refine fWord_lt _ ?_ ?_ ?_ ?_ ?_ ?_ ?_ ?_ <;> omega
theorem vote (gd : Guard) (op : VoteOp) (a : PSrc) (c : GReg) : Statement (.vote gd op a c) := by
  intro _
  have h0 := gd.code_lt; have h1 := a.isLt; have h2 := c.isLt
  rcases op with ⟨m, d⟩ | ⟨m, d⟩
  · have h3 := d.isLt; cases m <;> (refine fWord_lt _ ?_ ?_ ?_ ?_ ?_ ?_ ?_ ?_ <;> first | omega | (simp only []; omega))
  · have h3 := Reg.num_lt d; have h4 := Reg.dg_lt d; cases m <;> (refine fWord_lt _ ?_ ?_ ?_ ?_ ?_ ?_ ?_ ?_ <;> first | omega | (simp only []; omega))
theorem redl (gd : Guard) (op : RedlOp) (scan : Bool) (d : Reg) (a : Reg) (c : GReg) : Statement (.redl gd op scan d a c) := by
  intro _
  have h0 := Guard.code_lt gd; have h1 := RedlOp.op_lt op; have h2 := RedlOp.ty_lt op; have h3 := b2n_lt scan; have h4 := Reg.num_lt d; have h5 := Reg.dg_lt d; have h6 := b2n_lt d.isG; have h7 := Reg.num_lt a; have h8 := Reg.dg_lt a; have h9 := b2n_lt a.isG; have h10 := c.isLt
  change fWord 0x1F gd d.dg d.num a.num 0 c.val op.ty a.isG false (op.op + b2n scan * 8) < _
  refine fWord_lt _ ?_ ?_ ?_ ?_ ?_ ?_ ?_ ?_ <;> omega
theorem addi (gd : Guard) (d : Reg) (a : Reg) (imm : BitVec 30) : Statement (.addi gd d a imm) := by
  intro _
  have h0 := Guard.code_lt gd; have h1 := Reg.num_lt d; have h2 := Reg.dg_lt d; have h3 := b2n_lt d.isG; have h4 := Reg.num_lt a; have h5 := Reg.dg_lt a; have h6 := b2n_lt a.isG; have h7 := imm.isLt
  change iDA 0x20 gd d a imm.toNat < _
  delta iDA
  refine iWord_lt _ ?_ ?_ ?_ ?_ ?_ <;> omega
theorem andi (gd : Guard) (d : Reg) (a : Reg) (imm : BitVec 30) : Statement (.andi gd d a imm) := by
  intro _
  have h0 := Guard.code_lt gd; have h1 := Reg.num_lt d; have h2 := Reg.dg_lt d; have h3 := b2n_lt d.isG; have h4 := Reg.num_lt a; have h5 := Reg.dg_lt a; have h6 := b2n_lt a.isG; have h7 := imm.isLt
  change iDA 0x21 gd d a imm.toNat < _
  delta iDA
  refine iWord_lt _ ?_ ?_ ?_ ?_ ?_ <;> omega
theorem ori (gd : Guard) (d : Reg) (a : Reg) (imm : BitVec 30) : Statement (.ori gd d a imm) := by
  intro _
  have h0 := Guard.code_lt gd; have h1 := Reg.num_lt d; have h2 := Reg.dg_lt d; have h3 := b2n_lt d.isG; have h4 := Reg.num_lt a; have h5 := Reg.dg_lt a; have h6 := b2n_lt a.isG; have h7 := imm.isLt
  change iDA 0x22 gd d a imm.toNat < _
  delta iDA
  refine iWord_lt _ ?_ ?_ ?_ ?_ ?_ <;> omega
theorem xori (gd : Guard) (d : Reg) (a : Reg) (imm : BitVec 30) : Statement (.xori gd d a imm) := by
  intro _
  have h0 := Guard.code_lt gd; have h1 := Reg.num_lt d; have h2 := Reg.dg_lt d; have h3 := b2n_lt d.isG; have h4 := Reg.num_lt a; have h5 := Reg.dg_lt a; have h6 := b2n_lt a.isG; have h7 := imm.isLt
  change iDA 0x23 gd d a imm.toNat < _
  delta iDA
  refine iWord_lt _ ?_ ?_ ?_ ?_ ?_ <;> omega
theorem movi (gd : Guard) (d : Reg) (imm : BitVec 30) : Statement (.movi gd d imm) := by
  intro _
  have h0 := Guard.code_lt gd; have h1 := Reg.num_lt d; have h2 := Reg.dg_lt d; have h3 := b2n_lt d.isG; have h4 := imm.isLt
  change iWord 0x24 gd d.dg d.num 0 imm.toNat < _
  refine iWord_lt _ ?_ ?_ ?_ ?_ ?_ <;> omega
theorem cmpi (gd : Guard) (cc : Cond) (uns : Bool) (d : PDst) (a : Reg) (imm : BitVec 30) : Statement (.cmpi gd cc uns d a imm) := by
  intro _
  have h0 := Guard.code_lt gd; have h1 := Cond.code_lt cc; have h2 := b2n_lt uns; have h3 := d.isLt; have h4 := Reg.num_lt a; have h5 := Reg.dg_lt a; have h6 := b2n_lt a.isG; have h7 := imm.isLt
  change iWord 0x25 gd (b2n a.isG * 4) (d.val + cc.code * 8 + b2n uns * 64) a.num imm.toNat < _
  refine iWord_lt _ ?_ ?_ ?_ ?_ ?_ <;> omega
theorem muli (gd : Guard) (d : Reg) (a : Reg) (imm : BitVec 30) : Statement (.muli gd d a imm) := by
  intro _
  have h0 := Guard.code_lt gd; have h1 := Reg.num_lt d; have h2 := Reg.dg_lt d; have h3 := b2n_lt d.isG; have h4 := Reg.num_lt a; have h5 := Reg.dg_lt a; have h6 := b2n_lt a.isG; have h7 := imm.isLt
  change iDA 0x26 gd d a imm.toNat < _
  delta iDA
  refine iWord_lt _ ?_ ?_ ?_ ?_ ?_ <;> omega
theorem leai (gd : Guard) (d : Reg) (a : Reg) (off : BitVec 27) (sh : Fin 8) : Statement (.leai gd d a off sh) := by
  intro _
  have h0 := Guard.code_lt gd; have h1 := Reg.num_lt d; have h2 := Reg.dg_lt d; have h3 := b2n_lt d.isG; have h4 := Reg.num_lt a; have h5 := Reg.dg_lt a; have h6 := b2n_lt a.isG; have h7 := off.isLt; have h8 := sh.isLt
  change iDA 0x27 gd d a (sh.val * 2 ^ 27 + off.toNat) < _
  delta iDA
  refine iWord_lt _ ?_ ?_ ?_ ?_ ?_ <;> omega
theorem fadd (gd : Guard) (t : FTy) (rm : RM) (d : Reg) (a : Reg) (b : Reg) : Statement (.fadd gd t rm d a b) := by
  intro _
  have h0 := Guard.code_lt gd; have h1 := FTy.code_lt t; have h2 := RM.code_lt rm; have h3 := Reg.num_lt d; have h4 := Reg.dg_lt d; have h5 := b2n_lt d.isG; have h6 := Reg.num_lt a; have h7 := Reg.dg_lt a; have h8 := b2n_lt a.isG; have h9 := Reg.num_lt b; have h10 := Reg.dg_lt b; have h11 := b2n_lt b.isG
  change fDAB 0x40 gd t.code d a b rm.code < _
  delta fDAB
  refine fWord_lt _ ?_ ?_ ?_ ?_ ?_ ?_ ?_ ?_ <;> omega
theorem fsub (gd : Guard) (t : FTy) (rm : RM) (d : Reg) (a : Reg) (b : Reg) : Statement (.fsub gd t rm d a b) := by
  intro _
  have h0 := Guard.code_lt gd; have h1 := FTy.code_lt t; have h2 := RM.code_lt rm; have h3 := Reg.num_lt d; have h4 := Reg.dg_lt d; have h5 := b2n_lt d.isG; have h6 := Reg.num_lt a; have h7 := Reg.dg_lt a; have h8 := b2n_lt a.isG; have h9 := Reg.num_lt b; have h10 := Reg.dg_lt b; have h11 := b2n_lt b.isG
  change fDAB 0x41 gd t.code d a b rm.code < _
  delta fDAB
  refine fWord_lt _ ?_ ?_ ?_ ?_ ?_ ?_ ?_ ?_ <;> omega
theorem fmul (gd : Guard) (t : FTy) (rm : RM) (d : Reg) (a : Reg) (b : Reg) : Statement (.fmul gd t rm d a b) := by
  intro _
  have h0 := Guard.code_lt gd; have h1 := FTy.code_lt t; have h2 := RM.code_lt rm; have h3 := Reg.num_lt d; have h4 := Reg.dg_lt d; have h5 := b2n_lt d.isG; have h6 := Reg.num_lt a; have h7 := Reg.dg_lt a; have h8 := b2n_lt a.isG; have h9 := Reg.num_lt b; have h10 := Reg.dg_lt b; have h11 := b2n_lt b.isG
  change fDAB 0x42 gd t.code d a b rm.code < _
  delta fDAB
  refine fWord_lt _ ?_ ?_ ?_ ?_ ?_ ?_ ?_ ?_ <;> omega
theorem fma (gd : Guard) (t : FTy) (rm : RM) (d : Reg) (a : Reg) (b : Reg) (c : VReg) : Statement (.fma gd t rm d a b c) := by
  intro _
  have h0 := Guard.code_lt gd; have h1 := FTy.code_lt t; have h2 := RM.code_lt rm; have h3 := Reg.num_lt d; have h4 := Reg.dg_lt d; have h5 := b2n_lt d.isG; have h6 := Reg.num_lt a; have h7 := Reg.dg_lt a; have h8 := b2n_lt a.isG; have h9 := Reg.num_lt b; have h10 := Reg.dg_lt b; have h11 := b2n_lt b.isG; have h12 := c.isLt
  change fDABC 0x43 gd t.code d a b c rm.code < _
  delta fDABC
  refine fWord_lt _ ?_ ?_ ?_ ?_ ?_ ?_ ?_ ?_ <;> omega
theorem fmin (gd : Guard) (t : FTy) (d : Reg) (a : Reg) (b : Reg) : Statement (.fmin gd t d a b) := by
  intro _
  have h0 := Guard.code_lt gd; have h1 := FTy.code_lt t; have h2 := Reg.num_lt d; have h3 := Reg.dg_lt d; have h4 := b2n_lt d.isG; have h5 := Reg.num_lt a; have h6 := Reg.dg_lt a; have h7 := b2n_lt a.isG; have h8 := Reg.num_lt b; have h9 := Reg.dg_lt b; have h10 := b2n_lt b.isG
  change fDAB 0x44 gd t.code d a b 0 < _
  delta fDAB
  refine fWord_lt _ ?_ ?_ ?_ ?_ ?_ ?_ ?_ ?_ <;> omega
theorem fmax (gd : Guard) (t : FTy) (d : Reg) (a : Reg) (b : Reg) : Statement (.fmax gd t d a b) := by
  intro _
  have h0 := Guard.code_lt gd; have h1 := FTy.code_lt t; have h2 := Reg.num_lt d; have h3 := Reg.dg_lt d; have h4 := b2n_lt d.isG; have h5 := Reg.num_lt a; have h6 := Reg.dg_lt a; have h7 := b2n_lt a.isG; have h8 := Reg.num_lt b; have h9 := Reg.dg_lt b; have h10 := b2n_lt b.isG
  change fDAB 0x45 gd t.code d a b 0 < _
  delta fDAB
  refine fWord_lt _ ?_ ?_ ?_ ?_ ?_ ?_ ?_ ?_ <;> omega
theorem fcmp (gd : Guard) (t : FTy) (cc : FCond) (d : PDst) (a : Reg) (b : Reg) : Statement (.fcmp gd t cc d a b) := by
  intro _
  have h0 := Guard.code_lt gd; have h1 := FTy.code_lt t; have h2 := FCond.code_lt cc; have h3 := d.isLt; have h4 := Reg.num_lt a; have h5 := Reg.dg_lt a; have h6 := b2n_lt a.isG; have h7 := Reg.num_lt b; have h8 := Reg.dg_lt b; have h9 := b2n_lt b.isG
  change fWord 0x46 gd 0 d.val a.num b.num 0 t.code a.isG b.isG cc.code < _
  refine fWord_lt _ ?_ ?_ ?_ ?_ ?_ ?_ ?_ ?_ <;> omega
theorem frcp (gd : Guard) (t : FTy) (rm : RM) (tk : Tok) (d : VReg) (a : Reg) : Statement (.frcp gd t rm tk d a) := by
  intro _
  have h0 := Guard.code_lt gd; have h1 := FTy.code_lt t; have h2 := RM.code_lt rm; have h3 := tk.isLt; have h4 := d.isLt; have h5 := Reg.num_lt a; have h6 := Reg.dg_lt a; have h7 := b2n_lt a.isG
  change fTokDA 0x47 gd t.code rm tk d a < _
  delta fTokDA
  refine fWord_lt _ ?_ ?_ ?_ ?_ ?_ ?_ ?_ ?_ <;> omega
theorem frsq (gd : Guard) (t : FTy) (rm : RM) (tk : Tok) (d : VReg) (a : Reg) : Statement (.frsq gd t rm tk d a) := by
  intro _
  have h0 := Guard.code_lt gd; have h1 := FTy.code_lt t; have h2 := RM.code_lt rm; have h3 := tk.isLt; have h4 := d.isLt; have h5 := Reg.num_lt a; have h6 := Reg.dg_lt a; have h7 := b2n_lt a.isG
  change fTokDA 0x48 gd t.code rm tk d a < _
  delta fTokDA
  refine fWord_lt _ ?_ ?_ ?_ ?_ ?_ ?_ ?_ ?_ <;> omega
theorem fsqrt (gd : Guard) (t : FTy) (rm : RM) (tk : Tok) (d : VReg) (a : Reg) : Statement (.fsqrt gd t rm tk d a) := by
  intro _
  have h0 := Guard.code_lt gd; have h1 := FTy.code_lt t; have h2 := RM.code_lt rm; have h3 := tk.isLt; have h4 := d.isLt; have h5 := Reg.num_lt a; have h6 := Reg.dg_lt a; have h7 := b2n_lt a.isG
  change fTokDA 0x49 gd t.code rm tk d a < _
  delta fTokDA
  refine fWord_lt _ ?_ ?_ ?_ ?_ ?_ ?_ ?_ ?_ <;> omega
theorem fexp2 (gd : Guard) (t : HTy) (rm : RM) (tk : Tok) (d : VReg) (a : Reg) : Statement (.fexp2 gd t rm tk d a) := by
  intro _
  have h0 := Guard.code_lt gd; have h1 := HTy.code_lt t; have h2 := RM.code_lt rm; have h3 := tk.isLt; have h4 := d.isLt; have h5 := Reg.num_lt a; have h6 := Reg.dg_lt a; have h7 := b2n_lt a.isG
  change fTokDA 0x4A gd t.code rm tk d a < _
  delta fTokDA
  refine fWord_lt _ ?_ ?_ ?_ ?_ ?_ ?_ ?_ ?_ <;> omega
theorem flog2 (gd : Guard) (t : HTy) (rm : RM) (tk : Tok) (d : VReg) (a : Reg) : Statement (.flog2 gd t rm tk d a) := by
  intro _
  have h0 := Guard.code_lt gd; have h1 := HTy.code_lt t; have h2 := RM.code_lt rm; have h3 := tk.isLt; have h4 := d.isLt; have h5 := Reg.num_lt a; have h6 := Reg.dg_lt a; have h7 := b2n_lt a.isG
  change fTokDA 0x4B gd t.code rm tk d a < _
  delta fTokDA
  refine fWord_lt _ ?_ ?_ ?_ ?_ ?_ ?_ ?_ ?_ <;> omega
theorem fsin (gd : Guard) (t : HTy) (rm : RM) (tk : Tok) (d : VReg) (a : Reg) : Statement (.fsin gd t rm tk d a) := by
  intro _
  have h0 := Guard.code_lt gd; have h1 := HTy.code_lt t; have h2 := RM.code_lt rm; have h3 := tk.isLt; have h4 := d.isLt; have h5 := Reg.num_lt a; have h6 := Reg.dg_lt a; have h7 := b2n_lt a.isG
  change fTokDA 0x4C gd t.code rm tk d a < _
  delta fTokDA
  refine fWord_lt _ ?_ ?_ ?_ ?_ ?_ ?_ ?_ ?_ <;> omega
theorem fcos (gd : Guard) (t : HTy) (rm : RM) (tk : Tok) (d : VReg) (a : Reg) : Statement (.fcos gd t rm tk d a) := by
  intro _
  have h0 := Guard.code_lt gd; have h1 := HTy.code_lt t; have h2 := RM.code_lt rm; have h3 := tk.isLt; have h4 := d.isLt; have h5 := Reg.num_lt a; have h6 := Reg.dg_lt a; have h7 := b2n_lt a.isG
  change fTokDA 0x4D gd t.code rm tk d a < _
  delta fTokDA
  refine fWord_lt _ ?_ ?_ ?_ ?_ ?_ ?_ ?_ ?_ <;> omega
theorem fdiv (gd : Guard) (t : FTy) (rm : RM) (tk : Tok) (d : VReg) (a : Reg) (b : Reg) : Statement (.fdiv gd t rm tk d a b) := by
  intro _
  have h0 := Guard.code_lt gd; have h1 := FTy.code_lt t; have h2 := RM.code_lt rm; have h3 := tk.isLt; have h4 := d.isLt; have h5 := Reg.num_lt a; have h6 := Reg.dg_lt a; have h7 := b2n_lt a.isG; have h8 := Reg.num_lt b; have h9 := Reg.dg_lt b; have h10 := b2n_lt b.isG
  change fWord 0x4E gd tk.val d.val a.num b.num 0 t.code a.isG b.isG rm.code < _
  refine fWord_lt _ ?_ ?_ ?_ ?_ ?_ ?_ ?_ ?_ <;> omega
theorem fcvt (gd : Guard) (t : FTy) (s : FTy) (rm : RM) (d : Reg) (a : Reg) : Statement (.fcvt gd t s rm d a) := by
  intro _
  have h0 := Guard.code_lt gd; have h1 := FTy.code_lt t; have h2 := FTy.code_lt s; have h3 := RM.code_lt rm; have h4 := Reg.num_lt d; have h5 := Reg.dg_lt d; have h6 := b2n_lt d.isG; have h7 := Reg.num_lt a; have h8 := Reg.dg_lt a; have h9 := b2n_lt a.isG
  change fDA 0x4F gd t.code d a (rm.code + s.code * 8) < _
  delta fDA
  refine fWord_lt _ ?_ ?_ ?_ ?_ ?_ ?_ ?_ ?_ <;> omega
theorem icvt (gd : Guard) (t : FTy) (s : WTy) (rm : RM) (d : Reg) (a : Reg) : Statement (.icvt gd t s rm d a) := by
  intro _
  have h0 := Guard.code_lt gd; have h1 := FTy.code_lt t; have h2 := WTy.code_lt s; have h3 := RM.code_lt rm; have h4 := Reg.num_lt d; have h5 := Reg.dg_lt d; have h6 := b2n_lt d.isG; have h7 := Reg.num_lt a; have h8 := Reg.dg_lt a; have h9 := b2n_lt a.isG
  change fDA 0x50 gd t.code d a (rm.code + s.code * 8) < _
  delta fDA
  refine fWord_lt _ ?_ ?_ ?_ ?_ ?_ ?_ ?_ ?_ <;> omega
theorem ficvt (gd : Guard) (t : WTy) (s : FTy) (rm : RM) (d : Reg) (a : Reg) : Statement (.ficvt gd t s rm d a) := by
  intro _
  have h0 := Guard.code_lt gd; have h1 := WTy.code_lt t; have h2 := FTy.code_lt s; have h3 := RM.code_lt rm; have h4 := Reg.num_lt d; have h5 := Reg.dg_lt d; have h6 := b2n_lt d.isG; have h7 := Reg.num_lt a; have h8 := Reg.dg_lt a; have h9 := b2n_lt a.isG
  change fDA 0x51 gd t.code d a (rm.code + s.code * 8) < _
  delta fDA
  refine fWord_lt _ ?_ ?_ ?_ ?_ ?_ ?_ ?_ ?_ <;> omega
theorem qcvt (gd : Guard) (s : HTy) (f : NFmt) (sat : Bool) (d : VReg) (a : Reg) (pos : Fin 8) : Statement (.qcvt gd s f sat d a pos) := by
  intro _
  have h0 := Guard.code_lt gd; have h1 := HTy.code_lt s; have h2 := NFmt.code_lt f; have h3 := b2n_lt sat; have h4 := d.isLt; have h5 := Reg.num_lt a; have h6 := Reg.dg_lt a; have h7 := b2n_lt a.isG; have h8 := pos.isLt
  change fWord 0x52 gd 0 d.val a.num 0 pos.val s.code a.isG false (f.code + b2n sat * 32) < _
  refine fWord_lt _ ?_ ?_ ?_ ?_ ?_ ?_ ?_ ?_ <;> omega
theorem qexp (gd : Guard) (t : QTy) (f : QSrc) (d : Reg) (a : Reg) (pos : Fin 8) : Statement (.qexp gd t f d a pos) := by
  intro _
  have h0 := gd.code_lt; have h1 := t.code_lt; have h2 := Reg.num_lt d; have h3 := Reg.dg_lt d; have h4 := Reg.num_lt a; have h5 := b2n_lt a.isG
  have h6 := pos.isLt
  rcases f with f | _
  · have h8 := f.code_lt; (refine fWord_lt _ ?_ ?_ ?_ ?_ ?_ ?_ ?_ ?_ <;> omega)
  · (refine fWord_lt _ ?_ ?_ ?_ ?_ ?_ ?_ ?_ ?_ <;> omega)
theorem fscl (gd : Guard) (t : FTy) (rm : RM) (d : Reg) (a : Reg) (b : Reg) : Statement (.fscl gd t rm d a b) := by
  intro _
  have h0 := Guard.code_lt gd; have h1 := FTy.code_lt t; have h2 := RM.code_lt rm; have h3 := Reg.num_lt d; have h4 := Reg.dg_lt d; have h5 := b2n_lt d.isG; have h6 := Reg.num_lt a; have h7 := Reg.dg_lt a; have h8 := b2n_lt a.isG; have h9 := Reg.num_lt b; have h10 := Reg.dg_lt b; have h11 := b2n_lt b.isG
  change fDAB 0x54 gd t.code d a b rm.code < _
  delta fDAB
  refine fWord_lt _ ?_ ?_ ?_ ?_ ?_ ?_ ?_ ?_ <;> omega
theorem frnd (gd : Guard) (t : FTy) (rm : RM) (d : Reg) (a : Reg) : Statement (.frnd gd t rm d a) := by
  intro _
  have h0 := Guard.code_lt gd; have h1 := FTy.code_lt t; have h2 := RM.code_lt rm; have h3 := Reg.num_lt d; have h4 := Reg.dg_lt d; have h5 := b2n_lt d.isG; have h6 := Reg.num_lt a; have h7 := Reg.dg_lt a; have h8 := b2n_lt a.isG
  change fDA 0x55 gd t.code d a rm.code < _
  delta fDA
  refine fWord_lt _ ?_ ?_ ?_ ?_ ?_ ?_ ?_ ?_ <;> omega
theorem fclass (gd : Guard) (s : FTy) (d : Reg) (a : Reg) : Statement (.fclass gd s d a) := by
  intro _
  have h0 := Guard.code_lt gd; have h1 := FTy.code_lt s; have h2 := Reg.num_lt d; have h3 := Reg.dg_lt d; have h4 := b2n_lt d.isG; have h5 := Reg.num_lt a; have h6 := Reg.dg_lt a; have h7 := b2n_lt a.isG
  change fDA 0x56 gd s.code d a 0 < _
  delta fDA
  refine fWord_lt _ ?_ ?_ ?_ ?_ ?_ ?_ ?_ ?_ <;> omega
theorem hadd2 (gd : Guard) (t : X2Ty) (rm : RM) (d : Reg) (a : Reg) (b : Reg) : Statement (.hadd2 gd t rm d a b) := by
  intro _
  have h0 := Guard.code_lt gd; have h1 := X2Ty.code_lt t; have h2 := RM.code_lt rm; have h3 := Reg.num_lt d; have h4 := Reg.dg_lt d; have h5 := b2n_lt d.isG; have h6 := Reg.num_lt a; have h7 := Reg.dg_lt a; have h8 := b2n_lt a.isG; have h9 := Reg.num_lt b; have h10 := Reg.dg_lt b; have h11 := b2n_lt b.isG
  change fDAB 0x57 gd t.code d a b rm.code < _
  delta fDAB
  refine fWord_lt _ ?_ ?_ ?_ ?_ ?_ ?_ ?_ ?_ <;> omega
theorem hmul2 (gd : Guard) (t : X2Ty) (rm : RM) (d : Reg) (a : Reg) (b : Reg) : Statement (.hmul2 gd t rm d a b) := by
  intro _
  have h0 := Guard.code_lt gd; have h1 := X2Ty.code_lt t; have h2 := RM.code_lt rm; have h3 := Reg.num_lt d; have h4 := Reg.dg_lt d; have h5 := b2n_lt d.isG; have h6 := Reg.num_lt a; have h7 := Reg.dg_lt a; have h8 := b2n_lt a.isG; have h9 := Reg.num_lt b; have h10 := Reg.dg_lt b; have h11 := b2n_lt b.isG
  change fDAB 0x58 gd t.code d a b rm.code < _
  delta fDAB
  refine fWord_lt _ ?_ ?_ ?_ ?_ ?_ ?_ ?_ ?_ <;> omega
theorem hfma2 (gd : Guard) (t : X2Ty) (rm : RM) (d : Reg) (a : Reg) (b : Reg) (c : VReg) : Statement (.hfma2 gd t rm d a b c) := by
  intro _
  have h0 := Guard.code_lt gd; have h1 := X2Ty.code_lt t; have h2 := RM.code_lt rm; have h3 := Reg.num_lt d; have h4 := Reg.dg_lt d; have h5 := b2n_lt d.isG; have h6 := Reg.num_lt a; have h7 := Reg.dg_lt a; have h8 := b2n_lt a.isG; have h9 := Reg.num_lt b; have h10 := Reg.dg_lt b; have h11 := b2n_lt b.isG; have h12 := c.isLt
  change fDABC 0x59 gd t.code d a b c rm.code < _
  delta fDABC
  refine fWord_lt _ ?_ ?_ ?_ ?_ ?_ ?_ ?_ ?_ <;> omega
theorem hmin2 (gd : Guard) (t : X2Ty) (d : Reg) (a : Reg) (b : Reg) : Statement (.hmin2 gd t d a b) := by
  intro _
  have h0 := Guard.code_lt gd; have h1 := X2Ty.code_lt t; have h2 := Reg.num_lt d; have h3 := Reg.dg_lt d; have h4 := b2n_lt d.isG; have h5 := Reg.num_lt a; have h6 := Reg.dg_lt a; have h7 := b2n_lt a.isG; have h8 := Reg.num_lt b; have h9 := Reg.dg_lt b; have h10 := b2n_lt b.isG
  change fDAB 0x5A gd t.code d a b 0 < _
  delta fDAB
  refine fWord_lt _ ?_ ?_ ?_ ?_ ?_ ?_ ?_ ?_ <;> omega
theorem hmax2 (gd : Guard) (t : X2Ty) (d : Reg) (a : Reg) (b : Reg) : Statement (.hmax2 gd t d a b) := by
  intro _
  have h0 := Guard.code_lt gd; have h1 := X2Ty.code_lt t; have h2 := Reg.num_lt d; have h3 := Reg.dg_lt d; have h4 := b2n_lt d.isG; have h5 := Reg.num_lt a; have h6 := Reg.dg_lt a; have h7 := b2n_lt a.isG; have h8 := Reg.num_lt b; have h9 := Reg.dg_lt b; have h10 := b2n_lt b.isG
  change fDAB 0x5B gd t.code d a b 0 < _
  delta fDAB
  refine fWord_lt _ ?_ ?_ ?_ ?_ ?_ ?_ ?_ ?_ <;> omega
theorem fdot4 (gd : Guard) (rm : RM) (ae5 : Bool) (be5 : Bool) (d : Reg) (a : Reg) (b : Reg) (c : VReg) : Statement (.fdot4 gd rm ae5 be5 d a b c) := by
  intro _
  have h0 := Guard.code_lt gd; have h1 := RM.code_lt rm; have h2 := b2n_lt ae5; have h3 := b2n_lt be5; have h4 := Reg.num_lt d; have h5 := Reg.dg_lt d; have h6 := b2n_lt d.isG; have h7 := Reg.num_lt a; have h8 := Reg.dg_lt a; have h9 := b2n_lt a.isG; have h10 := Reg.num_lt b; have h11 := Reg.dg_lt b; have h12 := b2n_lt b.isG; have h13 := c.isLt
  change fDABC 0x5C gd 10 d a b c (rm.code + b2n ae5 * 8 + b2n be5 * 16) < _
  delta fDABC
  refine fWord_lt _ ?_ ?_ ?_ ?_ ?_ ?_ ?_ ?_ <;> omega
theorem scvt (gd : Guard) (f : ScaleFmt) (d : Reg) (a : Reg) : Statement (.scvt gd f d a) := by
  intro _
  have h0 := Guard.code_lt gd; have h1 := ScaleFmt.code_lt f; have h2 := Reg.num_lt d; have h3 := Reg.dg_lt d; have h4 := b2n_lt d.isG; have h5 := Reg.num_lt a; have h6 := Reg.dg_lt a; have h7 := b2n_lt a.isG
  change fDA 0x5D gd 10 d a f.code < _
  delta fDA
  refine fWord_lt _ ?_ ?_ ?_ ?_ ?_ ?_ ?_ ?_ <;> omega
theorem fmovi (gd : Guard) (d : Reg) (imm : BitVec 30) : Statement (.fmovi gd d imm) := by
  intro _
  have h0 := Guard.code_lt gd; have h1 := Reg.num_lt d; have h2 := Reg.dg_lt d; have h3 := b2n_lt d.isG; have h4 := imm.isLt
  change iWord 0x60 gd d.dg d.num 0 imm.toNat < _
  refine iWord_lt _ ?_ ?_ ?_ ?_ ?_ <;> omega
theorem faddi (gd : Guard) (d : Reg) (a : Reg) (imm : BitVec 30) : Statement (.faddi gd d a imm) := by
  intro _
  have h0 := Guard.code_lt gd; have h1 := Reg.num_lt d; have h2 := Reg.dg_lt d; have h3 := b2n_lt d.isG; have h4 := Reg.num_lt a; have h5 := Reg.dg_lt a; have h6 := b2n_lt a.isG; have h7 := imm.isLt
  change iDA 0x61 gd d a imm.toNat < _
  delta iDA
  refine iWord_lt _ ?_ ?_ ?_ ?_ ?_ <;> omega
theorem fmuli (gd : Guard) (d : Reg) (a : Reg) (imm : BitVec 30) : Statement (.fmuli gd d a imm) := by
  intro _
  have h0 := Guard.code_lt gd; have h1 := Reg.num_lt d; have h2 := Reg.dg_lt d; have h3 := b2n_lt d.isG; have h4 := Reg.num_lt a; have h5 := Reg.dg_lt a; have h6 := b2n_lt a.isG; have h7 := imm.isLt
  change iDA 0x62 gd d a imm.toNat < _
  delta iDA
  refine iWord_lt _ ?_ ?_ ?_ ?_ ?_ <;> omega
theorem pairMov (d : VReg) (a : VReg) (h : Half) : Statement (.pairMov d a h) := fun _ => pWord_lt _ _
theorem pairAdd (d : VReg) (a : VReg) (h : Half) : Statement (.pairAdd d a h) := fun _ => pWord_lt _ _
theorem pairSub (d : VReg) (a : VReg) (h : Half) : Statement (.pairSub d a h) := fun _ => pWord_lt _ _
theorem pairAnd (d : VReg) (a : VReg) (h : Half) : Statement (.pairAnd d a h) := fun _ => pWord_lt _ _
theorem pairOr (d : VReg) (a : VReg) (h : Half) : Statement (.pairOr d a h) := fun _ => pWord_lt _ _
theorem pairXor (d : VReg) (a : VReg) (h : Half) : Statement (.pairXor d a h) := fun _ => pWord_lt _ _
theorem pairShl (d : VReg) (a : VReg) (h : Half) : Statement (.pairShl d a h) := fun _ => pWord_lt _ _
theorem pairShr (d : VReg) (a : VReg) (h : Half) : Statement (.pairShr d a h) := fun _ => pWord_lt _ _
theorem pairSar (d : VReg) (a : VReg) (h : Half) : Statement (.pairSar d a h) := fun _ => pWord_lt _ _
theorem pairMin (d : VReg) (a : VReg) (h : Half) : Statement (.pairMin d a h) := fun _ => pWord_lt _ _
theorem pairMax (d : VReg) (a : VReg) (h : Half) : Statement (.pairMax d a h) := fun _ => pWord_lt _ _
theorem pairFadd (d : VReg) (a : VReg) (h : Half) : Statement (.pairFadd d a h) := fun _ => pWord_lt _ _
theorem pairFmul (d : VReg) (a : VReg) (h : Half) : Statement (.pairFmul d a h) := fun _ => pWord_lt _ _
theorem pairFmin (d : VReg) (a : VReg) (h : Half) : Statement (.pairFmin d a h) := fun _ => pWord_lt _ _
theorem pairFmax (d : VReg) (a : VReg) (h : Half) : Statement (.pairFmax d a h) := fun _ => pWord_lt _ _
theorem pairHadd2 (d : VReg) (a : VReg) (h : Half) : Statement (.pairHadd2 d a h) := fun _ => pWord_lt _ _
theorem pairHmul2 (d : VReg) (a : VReg) (h : Half) : Statement (.pairHmul2 d a h) := fun _ => pWord_lt _ _
theorem pairAddi (d : VReg) (x : BitVec 8) (h : Half) : Statement (.pairAddi d x h) := fun _ => pWord_lt _ _
theorem pairShli (d : VReg) (n : BitVec 5) (h : Half) : Statement (.pairShli d n h) := fun _ => pWord_lt _ _
theorem pairShri (d : VReg) (n : BitVec 5) (h : Half) : Statement (.pairShri d n h) := fun _ => pWord_lt _ _
theorem pairAndi (d : VReg) (x : BitVec 8) (h : Half) : Statement (.pairAndi d x h) := fun _ => pWord_lt _ _
theorem pairMovi (d : VReg) (x : BitVec 8) (h : Half) : Statement (.pairMovi d x h) := fun _ => pWord_lt _ _
theorem nop : Statement .nop := by intro _; decide
theorem dly (n : Fin 64) : Statement (.dly n) := by
  intro _
  have h0 := n.isLt
  change fBare 0x81 .always n.val < _
  delta fBare
  refine fWord_lt _ ?_ ?_ ?_ ?_ ?_ ?_ ?_ ?_ <;> omega
theorem bra (gd : Guard) (hint : Hint) (off : BitVec 18) (join : BitVec 12) : Statement (.bra gd hint off join) := by
  intro _
  have h0 := Guard.code_lt gd; have h1 := Hint.code_lt hint; have h2 := off.isLt; have h3 := join.isLt
  change iWord 0x82 gd 0 hint.code 0 (off.toNat * 2 ^ 12 + join.toNat) < _
  refine iWord_lt _ ?_ ?_ ?_ ?_ ?_ <;> omega
theorem jmp (gd : Guard) (a : GReg) : Statement (.jmp gd a) := by
  intro _
  have h0 := Guard.code_lt gd; have h1 := a.isLt
  change fWord 0x83 gd 0 0 a.val 0 0 0 true false 0 < _
  refine fWord_lt _ ?_ ?_ ?_ ?_ ?_ ?_ ?_ ?_ <;> omega
theorem call (gd : Guard) (d : GReg) (off : BitVec 18) (mask : BitVec 12) : Statement (.call gd d off mask) := by
  intro _
  have h0 := Guard.code_lt gd; have h1 := d.isLt; have h2 := off.isLt; have h3 := mask.isLt
  change iWord 0x84 gd 0 d.val 0 (off.toNat * 2 ^ 12 + mask.toNat) < _
  refine iWord_lt _ ?_ ?_ ?_ ?_ ?_ <;> omega
theorem callr (gd : Guard) (d : GReg) (a : GReg) (mask : BitVec 12) : Statement (.callr gd d a mask) := by
  intro _
  have h0 := Guard.code_lt gd; have h1 := d.isLt; have h2 := a.isLt; have h3 := mask.isLt
  change fWord 0x85 gd 8 d.val a.val (mask.toNat / 256) 0 0 true false (mask.toNat % 256) < _
  refine fWord_lt _ ?_ ?_ ?_ ?_ ?_ ?_ ?_ ?_ <;> omega
theorem ret (gd : Guard) (a : GReg) : Statement (.ret gd a) := by
  intro _
  have h0 := Guard.code_lt gd; have h1 := a.isLt
  change fWord 0x86 gd 0 0 a.val 0 0 0 true false 0 < _
  refine fWord_lt _ ?_ ?_ ?_ ?_ ?_ ?_ ?_ ?_ <;> omega
theorem bsync (c : GReg) : Statement (.bsync c) := by
  intro _
  have h0 := c.isLt
  change fWord 0x87 .always 0 0 0 0 c.val 0 false false 0 < _
  refine fWord_lt _ ?_ ?_ ?_ ?_ ?_ ?_ ?_ ?_ <;> omega
theorem exit (gd : Guard) : Statement (.exit gd) := by
  intro _
  have h0 := Guard.code_lt gd
  change fBare 0x88 gd 0 < _
  delta fBare
  refine fWord_lt _ ?_ ?_ ?_ ?_ ?_ ?_ ?_ ?_ <;> omega
theorem region (fin : Bool) : Statement (.region fin) := by
  intro _
  have h0 := b2n_lt fin
  change fBare 0x89 .always (b2n fin) < _
  delta fBare
  refine fWord_lt _ ?_ ?_ ?_ ?_ ?_ ?_ ?_ ?_ <;> omega
theorem trap (gd : Guard) (n : BitVec 8) : Statement (.trap gd n) := by
  intro _
  have h0 := Guard.code_lt gd; have h1 := n.isLt
  change fBare 0x8A gd n.toNat < _
  delta fBare
  refine fWord_lt _ ?_ ?_ ?_ ?_ ?_ ?_ ?_ ?_ <;> omega
theorem rett : Statement .rett := by intro _; decide
theorem tmask (gd : Guard) (n : Bool) : Statement (.tmask gd n) := by
  intro _
  have h0 := Guard.code_lt gd; have h1 := b2n_lt n
  change fBare 0x8C gd (b2n n) < _
  delta fBare
  refine fWord_lt _ ?_ ?_ ?_ ?_ ?_ ?_ ?_ ?_ <;> omega
theorem csrr (gd : Guard) (t : BTy) (d : Reg) (idx : BitVec 8) : Statement (.csrr gd t d idx) := by
  intro _
  have h0 := Guard.code_lt gd; have h1 := BTy.code_lt t; have h2 := Reg.num_lt d; have h3 := Reg.dg_lt d; have h4 := b2n_lt d.isG; have h5 := idx.isLt
  change fWord 0x8D gd d.dg d.num 0 0 0 t.code false false idx.toNat < _
  refine fWord_lt _ ?_ ?_ ?_ ?_ ?_ ?_ ?_ ?_ <;> omega
theorem csrw (gd : Guard) (t : BTy) (idx : BitVec 8) (a : Reg) : Statement (.csrw gd t idx a) := by
  intro _
  have h0 := Guard.code_lt gd; have h1 := BTy.code_lt t; have h2 := idx.isLt; have h3 := Reg.num_lt a; have h4 := Reg.dg_lt a; have h5 := b2n_lt a.isG
  change fWord 0x8E gd 0 0 a.num 0 0 t.code a.isG false idx.toNat < _
  refine fWord_lt _ ?_ ?_ ?_ ?_ ?_ ?_ ?_ ?_ <;> omega
theorem yield : Statement .yield := by intro _; decide
theorem sysc (gd : Guard) (tk : Tok) (d : VReg) (a : VReg) (na : Fin 9) (nr : Fin 9) (svc : BitVec 14) : Statement (.sysc gd tk d a na nr svc) := by
  intro _
  have h0 := Guard.code_lt gd; have h1 := tk.isLt; have h2 := d.isLt; have h3 := a.isLt; have h4 := na.isLt; have h5 := nr.isLt; have h6 := svc.isLt
  change eWord 0x90 gd tk.val (d.val * 2 ^ 38 + a.val * 2 ^ 30 + na.val * 2 ^ 26 + nr.val * 2 ^ 22 + svc.toNat) < _
  refine eWord_lt _ ?_ ?_ ?_ <;> omega
theorem brk (gd : Guard) (n : BitVec 8) : Statement (.brk gd n) := by
  intro _
  have h0 := Guard.code_lt gd; have h1 := n.isLt
  change fBare 0x91 gd n.toNat < _
  delta fBare
  refine fWord_lt _ ?_ ?_ ?_ ?_ ?_ ?_ ?_ ?_ <;> omega
theorem waitt (gd : Guard) (tk : Tok) (n : Fin 64) : Statement (.waitt gd tk n) := by
  intro _
  have h0 := Guard.code_lt gd; have h1 := tk.isLt; have h2 := n.isLt
  change fWord 0xA0 gd tk.val 0 0 0 0 0 false false n.val < _
  refine fWord_lt _ ?_ ?_ ?_ ?_ ?_ ?_ ?_ ?_ <;> omega
theorem tkst (gd : Guard) (tk : Tok) (clr : Bool) (d : GReg) : Statement (.tkst gd tk clr d) := by
  intro _
  have h0 := Guard.code_lt gd; have h1 := tk.isLt; have h2 := b2n_lt clr; have h3 := d.isLt
  change fWord 0xA1 gd tk.val d.val 0 0 0 0 false false (b2n clr) < _
  refine fWord_lt _ ?_ ?_ ?_ ?_ ?_ ?_ ?_ ?_ <;> omega
theorem barinit (gd : Guard) (b : Fin 16) : Statement (.barinit gd b) := by
  intro _
  have h0 := Guard.code_lt gd; have h1 := b.isLt
  change eBar 0xA2 gd b 0 0 < _
  delta eBar
  refine eWord_lt _ ?_ ?_ ?_ <;> omega
theorem bararv (gd : Guard) (b : Fin 16) (a : GReg) : Statement (.bararv gd b a) := by
  intro _
  have h0 := Guard.code_lt gd; have h1 := b.isLt; have h2 := a.isLt
  change eBar 0xA3 gd b 0 a.val < _
  delta eBar
  refine eWord_lt _ ?_ ?_ ?_ <;> omega
theorem barxb (gd : Guard) (b : Fin 16) (a : GReg) : Statement (.barxb gd b a) := by
  intro _
  have h0 := Guard.code_lt gd; have h1 := b.isLt; have h2 := a.isLt
  change eBar 0xA4 gd b 0 a.val < _
  delta eBar
  refine eWord_lt _ ?_ ?_ ?_ <;> omega
theorem barwait (gd : Guard) (b : Fin 16) (d : GReg) (tk : Option Tok) : Statement (.barwait gd b d tk) := by
  intro _
  have h0 := Guard.code_lt gd; have h1 := b.isLt; have h2 := d.isLt; have h3 := tokNum_lt tk; have h4 := b2n_lt tk.isSome
  change eWord 0xA5 gd (tokNum tk) (d.val * 2 ^ 38 + b.val * 2 ^ 26 + b2n tk.isSome * 2 ^ 25) < _
  refine eWord_lt _ ?_ ?_ ?_ <;> omega
theorem bartest (gd : Guard) (b : Fin 16) (d : GReg) : Statement (.bartest gd b d) := by
  intro _
  have h0 := Guard.code_lt gd; have h1 := b.isLt; have h2 := d.isLt
  change eBar 0xA6 gd b d.val 0 < _
  delta eBar
  refine eWord_lt _ ?_ ?_ ?_ <;> omega
theorem barinv (gd : Guard) (b : Fin 16) : Statement (.barinv gd b) := by
  intro _
  have h0 := Guard.code_lt gd; have h1 := b.isLt
  change eBar 0xA7 gd b 0 0 < _
  delta eBar
  refine eWord_lt _ ?_ ?_ ?_ <;> omega
theorem cntrd (gd : Guard) (t : BTy) (d : Reg) (idx : BitVec 8) : Statement (.cntrd gd t d idx) := by
  intro _
  have h0 := Guard.code_lt gd; have h1 := BTy.code_lt t; have h2 := Reg.num_lt d; have h3 := Reg.dg_lt d; have h4 := b2n_lt d.isG; have h5 := idx.isLt
  change fWord 0xA8 gd d.dg d.num 0 0 0 t.code false false idx.toNat < _
  refine fWord_lt _ ?_ ?_ ?_ ?_ ?_ ?_ ?_ ?_ <;> omega
theorem cntctl (gd : Guard) (a : GReg) (b : GReg) (k : Fin 8) : Statement (.cntctl gd a b k) := by
  intro _
  have h0 := Guard.code_lt gd; have h1 := a.isLt; have h2 := b.isLt; have h3 := k.isLt
  change fWord 0xA9 gd 0 0 a.val b.val 0 0 true true k.val < _
  refine fWord_lt _ ?_ ?_ ?_ ?_ ?_ ?_ ?_ ?_ <;> omega
theorem genrd (gd : Guard) (d : Reg) : Statement (.genrd gd d) := by
  intro _
  have h0 := Guard.code_lt gd; have h1 := Reg.num_lt d; have h2 := Reg.dg_lt d; have h3 := b2n_lt d.isG
  change fWord 0xAA gd d.dg d.num 0 0 0 0 false false 0 < _
  refine fWord_lt _ ?_ ?_ ?_ ?_ ?_ ?_ ?_ ?_ <;> omega
theorem lyset (gd : Guard) (n : Fin 256) (op : LyOp) (a : GReg) : Statement (.lyset gd n op a) := by
  intro _
  have h0 := Guard.code_lt gd; have h1 := n.isLt; have h2 := LyOp.code_lt op; have h3 := a.isLt
  change fWord 0xB0 gd 0 n.val a.val 0 0 0 true false op.code < _
  refine fWord_lt _ ?_ ?_ ?_ ?_ ?_ ?_ ?_ ?_ <;> omega
theorem lyget (gd : Guard) (d : GReg) (n : Fin 256) (sel : LySel) : Statement (.lyget gd d n sel) := by
  intro _
  have h0 := Guard.code_lt gd; have h1 := d.isLt; have h2 := n.isLt; have h3 := LySel.code_lt sel
  change fWord 0xB1 gd 8 d.val n.val 0 0 0 false false sel.code < _
  refine fWord_lt _ ?_ ?_ ?_ ?_ ?_ ?_ ?_ ?_ <;> omega
theorem tplset (gd : Guard) (n : Fin 64) (op : TplOp) (a : GReg) : Statement (.tplset gd n op a) := by
  intro _
  have h0 := Guard.code_lt gd; have h1 := n.isLt; have h2 := TplOp.code_lt op; have h3 := a.isLt
  change fWord 0xB2 gd 0 n.val a.val 0 0 0 true false op.code < _
  refine fWord_lt _ ?_ ?_ ?_ ?_ ?_ ?_ ?_ ?_ <;> omega
theorem tplget (gd : Guard) (d : GReg) (n : Fin 64) (sel : TplSel) : Statement (.tplget gd d n sel) := by
  intro _
  have h0 := Guard.code_lt gd; have h1 := d.isLt; have h2 := n.isLt; have h3 := TplSel.code_lt sel
  change fWord 0xB3 gd 8 d.val n.val 0 0 0 false false sel.code < _
  refine fWord_lt _ ?_ ?_ ?_ ?_ ?_ ?_ ?_ ?_ <;> omega
theorem tlbinv (gd : Guard) (m : TlbMode) (sc : TlbScope) : Statement (.tlbinv gd m sc) := by
  intro _
  have h0 := gd.code_lt; have h1 := sc.code_lt
  rcases m with ⟨a, b⟩ | ⟨b⟩ | _
  · have := a.isLt; have := b.isLt; (refine fWord_lt _ ?_ ?_ ?_ ?_ ?_ ?_ ?_ ?_ <;> omega)
  · have := b.isLt; (refine fWord_lt _ ?_ ?_ ?_ ?_ ?_ ?_ ?_ ?_ <;> omega)
  · (refine fWord_lt _ ?_ ?_ ?_ ?_ ?_ ?_ ?_ ?_ <;> omega)
theorem fgset (gd : Guard) (opn : Bool) (a : GReg) : Statement (.fgset gd opn a) := by
  intro _
  have h0 := Guard.code_lt gd; have h1 := b2n_lt opn; have h2 := a.isLt
  change fWord 0xB5 gd 0 0 a.val 0 0 0 true false (b2n opn) < _
  refine fWord_lt _ ?_ ?_ ?_ ?_ ?_ ?_ ?_ ?_ <;> omega
theorem hdlset (gd : Guard) (a : GReg) (b : GReg) : Statement (.hdlset gd a b) := by
  intro _
  have h0 := Guard.code_lt gd; have h1 := a.isLt; have h2 := b.isLt
  change fWord 0xB6 gd 0 0 a.val b.val 0 0 true true 0 < _
  refine fWord_lt _ ?_ ?_ ?_ ?_ ?_ ?_ ?_ ?_ <;> omega
theorem ld (gd : Guard) (tk : Tok) (d : VReg) (m : MemOpnd) (z : Sz) (sem : LdSem) : Statement (.ld gd tk d m z sem) := by
  intro _
  have h0 := Guard.code_lt gd; have h1 := tk.isLt; have h2 := d.isLt; have h3 := MemOpnd.code_lt m; have h4 := Sz.code_lt z; have h5 := LdSem.sem_lt sem; have h6 := LdSem.scp_lt sem
  change eLoad 0xC0 gd tk d m z sem false < _
  delta eLoad
  simp only [b2n_false]
  refine eWord_lt _ ?_ ?_ ?_ <;> omega
theorem st (gd : Guard) (tk : Option Tok) (d : VReg) (m : MemOpnd) (z : Sz) (sem : StSem) : Statement (.st gd tk d m z sem) := by
  intro _
  have h0 := Guard.code_lt gd; have h1 := tokNum_lt tk; have h2 := b2n_lt tk.isSome; have h3 := d.isLt; have h4 := MemOpnd.code_lt m; have h5 := Sz.code_lt z; have h6 := StSem.sem_lt sem; have h7 := StSem.scp_lt sem
  change eStore 0xC1 gd tk d m z sem false < _
  delta eStore
  simp only [b2n_false]
  refine eWord_lt _ ?_ ?_ ?_ <;> omega
theorem lds (gd : Guard) (tk : Tok) (d : VReg) (m : MemOpnd) (z : Sz) (sem : LdSem) (ssc : Bool) : Statement (.lds gd tk d m z sem ssc) := by
  intro _
  have h0 := Guard.code_lt gd; have h1 := tk.isLt; have h2 := d.isLt; have h3 := MemOpnd.code_lt m; have h4 := Sz.code_lt z; have h5 := LdSem.sem_lt sem; have h6 := LdSem.scp_lt sem; have h7 := b2n_lt ssc
  change eLoad 0xC2 gd tk d m z sem ssc < _
  delta eLoad
  refine eWord_lt _ ?_ ?_ ?_ <;> omega
theorem sts (gd : Guard) (tk : Option Tok) (d : VReg) (m : MemOpnd) (z : Sz) (sem : StSem) (ssc : Bool) : Statement (.sts gd tk d m z sem ssc) := by
  intro _
  have h0 := Guard.code_lt gd; have h1 := tokNum_lt tk; have h2 := b2n_lt tk.isSome; have h3 := d.isLt; have h4 := MemOpnd.code_lt m; have h5 := Sz.code_lt z; have h6 := StSem.sem_lt sem; have h7 := StSem.scp_lt sem; have h8 := b2n_lt ssc
  change eStore 0xC3 gd tk d m z sem ssc < _
  delta eStore
  refine eWord_lt _ ?_ ?_ ?_ <;> omega
theorem ldc (gd : Guard) (tk : Tok) (d : GReg) (gb : GReg) (off : BitVec 13) (z : LdcSz) : Statement (.ldc gd tk d gb off z) := by
  intro _
  have h0 := Guard.code_lt gd; have h1 := tk.isLt; have h2 := d.isLt; have h3 := gb.isLt; have h4 := off.isLt; have h5 := LdcSz.code_lt z
  change eWord 0xC4 gd tk.val (d.val * 2 ^ 38 + gb.val * 2 ^ 32 + z.code * 2 ^ 20 + off.toNat) < _
  refine eWord_lt _ ?_ ?_ ?_ <;> omega
theorem prf (gd : Guard) (lv : PrfLevel) (m : MemOpnd) : Statement (.prf gd lv m) := by
  intro _
  have h0 := Guard.code_lt gd; have h1 := PrfLevel.code_lt lv; have h2 := PrfLevel.bits_lt lv; have h3 := MemOpnd.code_lt m
  change eWord 0xC5 gd 0 (m.code + lv.code * 2 ^ 18) < _
  refine eWord_lt _ ?_ ?_ ?_ <;> omega
theorem acp (gd : Guard) (tk : Option Tok) (d : VReg) (m : MemOpnd) (z : ASz) (bar : Option (Fin 16)) : Statement (.acp gd tk d m z bar) := by
  intro _
  have h0 := Guard.code_lt gd; have h1 := tokNum_lt tk; have h2 := b2n_lt tk.isSome; have h3 := d.isLt; have h4 := MemOpnd.code_lt m; have h5 := ASz.code_lt z; have h6 := ASz.acpCode_lt z; have h7 := b2n_lt bar.isSome
  cases bar with
  | none =>
    refine eWord_lt (tk := tokNum tk) (e := d.val * 2 ^ 38 + m.code + z.acpCode * 2 ^ 20 + b2n false * 2 ^ 19 + 0 * 2 ^ 15 + b2n tk.isSome * 2 ^ 14) gd ?_ ?_ ?_
    · decide
    · omega
    · simp only [b2n_false]; omega
  | some b =>
    have hb := b.isLt
    refine eWord_lt (tk := tokNum tk) (e := d.val * 2 ^ 38 + m.code + z.acpCode * 2 ^ 20 + b2n true * 2 ^ 19 + b.val * 2 ^ 15 + b2n tk.isSome * 2 ^ 14) gd ?_ ?_ ?_
    · decide
    · omega
    · simp only [b2n_true]; omega
theorem atom (gd : Guard) (tk : Tok) (d : VReg) (m : AtOpnd) (va : VReg) (op : AOp) (z : ASz) (sem : AtSem) : Statement (.atom gd tk d m va op z sem) := by
  intro _
  have h0 := Guard.code_lt gd; have h1 := tk.isLt; have h2 := d.isLt; have h3 := AtOpnd.code_lt m; have h4 := va.isLt; have h5 := AOp.code_lt op; have h6 := ASz.code_lt z; have h7 := ASz.acpCode_lt z; have h8 := AtSem.sem_lt sem; have h9 := AtSem.scp_lt sem
  change eAtom 0xC7 gd tk.val d.val m va op z sem 0 < _
  delta eAtom
  refine eWord_lt _ ?_ ?_ ?_ <;> omega
theorem red (gd : Guard) (tk : Option Tok) (m : AtOpnd) (va : VReg) (op : AOp) (z : ASz) (sem : AtSem) : Statement (.red gd tk m va op z sem) := by
  intro _
  have h0 := Guard.code_lt gd; have h1 := tokNum_lt tk; have h2 := b2n_lt tk.isSome; have h3 := AtOpnd.code_lt m; have h4 := va.isLt; have h5 := AOp.code_lt op; have h6 := ASz.code_lt z; have h7 := ASz.acpCode_lt z; have h8 := AtSem.sem_lt sem; have h9 := AtSem.scp_lt sem
  change eAtom 0xC8 gd (tokNum tk) 0 m va op z sem (b2n tk.isSome * 4) < _
  delta eAtom
  refine eWord_lt _ ?_ ?_ ?_ <;> omega
theorem atoms (gd : Guard) (tk : Tok) (d : VReg) (m : AtOpnd) (va : VReg) (op : AOp) (z : ASz) (sem : AtSem) (ssc : Bool) : Statement (.atoms gd tk d m va op z sem ssc) := by
  intro _
  have h0 := Guard.code_lt gd; have h1 := tk.isLt; have h2 := d.isLt; have h3 := AtOpnd.code_lt m; have h4 := va.isLt; have h5 := AOp.code_lt op; have h6 := ASz.code_lt z; have h7 := ASz.acpCode_lt z; have h8 := AtSem.sem_lt sem; have h9 := AtSem.scp_lt sem; have h10 := b2n_lt ssc
  change eAtom 0xC9 gd tk.val d.val m va op z sem (b2n ssc * 8) < _
  delta eAtom
  refine eWord_lt _ ?_ ?_ ?_ <;> omega
theorem fence (gd : Guard) (k : FenceSem) (sc : Scope) : Statement (.fence gd k sc) := by
  intro _
  have h0 := Guard.code_lt gd; have h1 := FenceSem.code_lt k; have h2 := Scope.code_lt sc
  change eWord 0xCA gd 0 (k.code * 2 ^ 18 + sc.code * 2 ^ 15) < _
  refine eWord_lt _ ?_ ?_ ?_ <;> omega
theorem iflush (gd : Guard) (gb : GReg) (gl : GReg) : Statement (.iflush gd gb gl) := by
  intro _
  have h0 := Guard.code_lt gd; have h1 := gb.isLt; have h2 := gl.isLt
  change eWord 0xCB gd 0 (gb.val * 2 ^ 32 + gl.val * 2 ^ 26) < _
  refine eWord_lt _ ?_ ?_ ?_ <;> omega
theorem isync (gd : Guard) : Statement (.isync gd) := by
  intro _
  have h0 := Guard.code_lt gd
  change eWord 0xCC gd 0 0 < _
  refine eWord_lt _ ?_ ?_ ?_ <;> omega
theorem cwb (gd : Guard) (tk : Tok) (gb : GReg) (gl : GReg) (inv : Bool) : Statement (.cwb gd tk gb gl inv) := by
  intro _
  have h0 := Guard.code_lt gd; have h1 := tk.isLt; have h2 := gb.isLt; have h3 := gl.isLt; have h4 := b2n_lt inv
  change eWord 0xCD gd tk.val (gb.val * 2 ^ 32 + gl.val * 2 ^ 26 + b2n inv * 2 ^ 25) < _
  refine eWord_lt _ ?_ ?_ ?_ <;> omega
theorem pinit (gd : Guard) (tk : Tok) (ga : GReg) (free : Bool) : Statement (.pinit gd tk ga free) := by
  intro _
  have h0 := Guard.code_lt gd; have h1 := tk.isLt; have h2 := ga.isLt; have h3 := b2n_lt free
  change eProm 0xCE gd tk 0 ga.val 0 0 free < _
  delta eProm
  refine eWord_lt _ ?_ ?_ ?_ <;> omega
theorem pfill (gd : Guard) (tk : Tok) (ga : GReg) (gv : GReg) (sc : Scope) : Statement (.pfill gd tk ga gv sc) := by
  intro _
  have h0 := Guard.code_lt gd; have h1 := tk.isLt; have h2 := ga.isLt; have h3 := gv.isLt; have h4 := Scope.code_lt sc
  change eProm 0xCF gd tk 0 ga.val gv.val sc.code false < _
  delta eProm
  simp only [b2n_false]
  refine eWord_lt _ ?_ ?_ ?_ <;> omega
theorem pwait (gd : Guard) (tk : Tok) (d : GReg) (ga : GReg) (sc : Scope) : Statement (.pwait gd tk d ga sc) := by
  intro _
  have h0 := Guard.code_lt gd; have h1 := tk.isLt; have h2 := d.isLt; have h3 := ga.isLt; have h4 := Scope.code_lt sc
  change eProm 0xD0 gd tk d.val ga.val 0 sc.code false < _
  delta eProm
  simp only [b2n_false]
  refine eWord_lt _ ?_ ?_ ?_ <;> omega
theorem pequ (gd : Guard) (tk : Tok) (ga : GReg) (gv : GReg) : Statement (.pequ gd tk ga gv) := by
  intro _
  have h0 := Guard.code_lt gd; have h1 := tk.isLt; have h2 := ga.isLt; have h3 := gv.isLt
  change eProm 0xD1 gd tk 0 ga.val gv.val 0 false < _
  delta eProm
  simp only [b2n_false]
  refine eWord_lt _ ?_ ?_ ?_ <;> omega
theorem ptest (gd : Guard) (tk : Tok) (d : GReg) (ga : GReg) (sc : Scope) : Statement (.ptest gd tk d ga sc) := by
  intro _
  have h0 := Guard.code_lt gd; have h1 := tk.isLt; have h2 := d.isLt; have h3 := ga.isLt; have h4 := Scope.code_lt sc
  change eProm 0xD2 gd tk d.val ga.val 0 sc.code false < _
  delta eProm
  simp only [b2n_false]
  refine eWord_lt _ ?_ ?_ ?_ <;> omega
theorem ldl (gd : Guard) (tk : Tok) (d : VReg) (o : LayOpnd) : Statement (.ldl gd tk d o) := by
  intro _
  have h0 := Guard.code_lt gd; have h1 := tk.isLt; have h2 := d.isLt; have h3 := o.l.isLt; have h4 := o.gc.isLt; have h5 := o.nc.isLt; have h6 := o.nr.isLt; have h7 := b2n_lt o.row
  change eLay 0xD3 gd tk.val d o false < _
  delta eLay
  simp only [b2n_false]
  refine eWord_lt _ ?_ ?_ ?_ <;> omega
theorem stl (gd : Guard) (tk : Option Tok) (d : VReg) (o : LayOpnd) : Statement (.stl gd tk d o) := by
  intro _
  have h0 := Guard.code_lt gd; have h1 := tokNum_lt tk; have h2 := b2n_lt tk.isSome; have h3 := d.isLt; have h4 := o.l.isLt; have h5 := o.gc.isLt; have h6 := o.nc.isLt; have h7 := o.nr.isLt; have h8 := b2n_lt o.row
  change eLay 0xD4 gd (tokNum tk) d o tk.isSome < _
  delta eLay
  refine eWord_lt _ ?_ ?_ ?_ <;> omega
theorem mma (gd : Guard) (tk : Tok) (acc : Fin 64) (la : Fin 256) (gca : GReg) (lb : Fin 256) (gcb : GReg) (gf : GReg) (gk : GReg) : Statement (.mma gd tk acc la gca lb gcb gf gk) := by
  intro _
  have h0 := Guard.code_lt gd; have h1 := tk.isLt; have h2 := acc.isLt; have h3 := la.isLt; have h4 := gca.isLt; have h5 := lb.isLt; have h6 := gcb.isLt; have h7 := gf.isLt; have h8 := gk.isLt
  change eMma 0xE0 gd tk acc la gca lb gcb gf gk < _
  delta eMma
  refine eWord_lt _ ?_ ?_ ?_ <;> omega
theorem mmaz (gd : Guard) (tk : Tok) (acc : Fin 64) (la : Fin 256) (gca : GReg) (lb : Fin 256) (gcb : GReg) (gf : GReg) (gk : GReg) : Statement (.mmaz gd tk acc la gca lb gcb gf gk) := by
  intro _
  have h0 := Guard.code_lt gd; have h1 := tk.isLt; have h2 := acc.isLt; have h3 := la.isLt; have h4 := gca.isLt; have h5 := lb.isLt; have h6 := gcb.isLt; have h7 := gf.isLt; have h8 := gk.isLt
  change eMma 0xE1 gd tk acc la gca lb gcb gf gk < _
  delta eMma
  refine eWord_lt _ ?_ ?_ ?_ <;> omega
theorem accz (gd : Guard) (tk : Tok) (acc : Fin 64) (n1 : Fin 64) : Statement (.accz gd tk acc n1) := by
  intro _
  have h0 := Guard.code_lt gd; have h1 := tk.isLt; have h2 := acc.isLt; have h3 := n1.isLt
  change eWord 0xE2 gd tk.val (acc.val * 2 ^ 40 + n1.val * 2 ^ 34) < _
  refine eWord_lt _ ?_ ?_ ?_ <;> omega
theorem accld (gd : Guard) (tk : Tok) (acc : Fin 64) (l : Fin 256) (gc : GReg) (tt : TileTy) : Statement (.accld gd tk acc l gc tt) := by
  intro _
  have h0 := Guard.code_lt gd; have h1 := tk.isLt; have h2 := acc.isLt; have h3 := l.isLt; have h4 := gc.isLt; have h5 := TileTy.code_lt tt
  change eAccMem 0xE3 gd tk acc l gc tt < _
  delta eAccMem
  refine eWord_lt _ ?_ ?_ ?_ <;> omega
theorem accst (gd : Guard) (tk : Tok) (acc : Fin 64) (l : Fin 256) (gc : GReg) (tt : TileTy) : Statement (.accst gd tk acc l gc tt) := by
  intro _
  have h0 := Guard.code_lt gd; have h1 := tk.isLt; have h2 := acc.isLt; have h3 := l.isLt; have h4 := gc.isLt; have h5 := TileTy.code_lt tt
  change eAccMem 0xE4 gd tk acc l gc tt < _
  delta eAccMem
  refine eWord_lt _ ?_ ?_ ?_ <;> omega
theorem accmvGet (gd : Guard) (tk : Tok) (acc : Fin 64) (x : VReg) (gr : GReg) : Statement (.accmvGet gd tk acc x gr) := by
  intro _
  have h0 := Guard.code_lt gd; have h1 := tk.isLt; have h2 := acc.isLt; have h3 := x.isLt; have h4 := gr.isLt
  change eAccmv gd tk acc.val x.val gr.val 0 false < _
  delta eAccmv
  simp only [b2n_false]
  refine eWord_lt _ ?_ ?_ ?_ <;> omega
theorem accmvPut (gd : Guard) (tk : Tok) (acc : Fin 64) (x : VReg) (gr : GReg) : Statement (.accmvPut gd tk acc x gr) := by
  intro _
  have h0 := Guard.code_lt gd; have h1 := tk.isLt; have h2 := acc.isLt; have h3 := x.isLt; have h4 := gr.isLt
  change eAccmv gd tk acc.val x.val gr.val 1 false < _
  delta eAccmv
  simp only [b2n_false]
  refine eWord_lt _ ?_ ?_ ?_ <;> omega
theorem accmvStat (gd : Guard) (tk : Tok) (acc : Fin 64) (x : GReg) (gr : GReg) (clr : Bool) : Statement (.accmvStat gd tk acc x gr clr) := by
  intro _
  have h0 := Guard.code_lt gd; have h1 := tk.isLt; have h2 := acc.isLt; have h3 := x.isLt; have h4 := gr.isLt; have h5 := b2n_lt clr
  change eAccmv gd tk acc.val x.val gr.val 2 clr < _
  delta eAccmv
  refine eWord_lt _ ?_ ?_ ?_ <;> omega
theorem accmvCopy (gd : Guard) (tk : Tok) (acc : Fin 64) (x : Fin 64) (gr : GReg) : Statement (.accmvCopy gd tk acc x gr) := by
  intro _
  have h0 := Guard.code_lt gd; have h1 := tk.isLt; have h2 := acc.isLt; have h3 := x.isLt; have h4 := gr.isLt
  change eAccmv gd tk acc.val x.val gr.val 3 false < _
  delta eAccmv
  simp only [b2n_false]
  refine eWord_lt _ ?_ ?_ ?_ <;> omega
theorem accsc (gd : Guard) (tk : Tok) (acc : Fin 64) (gs : GReg) (i32 : Bool) : Statement (.accsc gd tk acc gs i32) := by
  intro _
  have h0 := Guard.code_lt gd; have h1 := tk.isLt; have h2 := acc.isLt; have h3 := gs.isLt; have h4 := b2n_lt i32
  change eWord 0xE6 gd tk.val (acc.val * 2 ^ 40 + gs.val * 2 ^ 32 + b2n i32 * 2 ^ 24) < _
  refine eWord_lt _ ?_ ?_ ?_ <;> omega
theorem mtest (gd : Guard) (tk : Tok) (d : GReg) : Statement (.mtest gd tk d) := by
  intro _
  have h0 := Guard.code_lt gd; have h1 := tk.isLt; have h2 := d.isLt
  change eWord 0xE7 gd tk.val (d.val * 2 ^ 38) < _
  refine eWord_lt _ ?_ ?_ ?_ <;> omega
theorem rgacqInit (gd : Guard) (rg : Fin 8) (ga : GReg) : Statement (.rgacqInit gd rg ga) := by
  intro _
  have h0 := Guard.code_lt gd; have h1 := rg.isLt; have h2 := ga.isLt; have h3 := QSel.code_lt .none
  change eRing 0xF0 gd 0 ga.val rg .none true < _
  delta eRing
  simp only [b2n_true, QSel.none_code]
  refine eWord_lt _ ?_ ?_ ?_ <;> omega
theorem rgacq (gd : Guard) (d : GReg) (rg : Fin 8) : Statement (.rgacq gd d rg) := by
  intro _
  have h0 := Guard.code_lt gd; have h1 := d.isLt; have h2 := rg.isLt; have h3 := QSel.code_lt .none
  change eRing 0xF0 gd d.val 0 rg .none false < _
  delta eRing
  simp only [b2n_false, QSel.none_code]
  refine eWord_lt _ ?_ ?_ ?_ <;> omega
theorem rgcmt (gd : Guard) (q : QSel) (rg : Fin 8) (ga : GReg) : Statement (.rgcmt gd q rg ga) := by
  intro _
  have h0 := Guard.code_lt gd; have h1 := QSel.code_lt q; have h2 := rg.isLt; have h3 := ga.isLt; have h4 := QSel.code_lt .none
  change eRing 0xF1 gd 0 ga.val rg q false < _
  delta eRing
  simp only [b2n_false]
  refine eWord_lt _ ?_ ?_ ?_ <;> omega
theorem rgtake (gd : Guard) (d : GReg) (rg : Fin 8) : Statement (.rgtake gd d rg) := by
  intro _
  have h0 := Guard.code_lt gd; have h1 := d.isLt; have h2 := rg.isLt; have h3 := QSel.code_lt .none
  change eRing 0xF2 gd d.val 0 rg .none false < _
  delta eRing
  simp only [b2n_false, QSel.none_code]
  refine eWord_lt _ ?_ ?_ ?_ <;> omega
theorem rgrel (gd : Guard) (q : QSel) (rg : Fin 8) (ga : GReg) : Statement (.rgrel gd q rg ga) := by
  intro _
  have h0 := Guard.code_lt gd; have h1 := QSel.code_lt q; have h2 := rg.isLt; have h3 := ga.isLt; have h4 := QSel.code_lt .none
  change eRing 0xF3 gd 0 ga.val rg q false < _
  delta eRing
  simp only [b2n_false]
  refine eWord_lt _ ?_ ?_ ?_ <;> omega
theorem bcopy (gd : Guard) (tk : Tok) (ct : Fin 64) (gs : GReg) (gdst : GReg) (nc : Fin 4) : Statement (.bcopy gd tk ct gs gdst nc) := by
  intro _
  have h0 := Guard.code_lt gd; have h1 := tk.isLt; have h2 := ct.isLt; have h3 := gs.isLt; have h4 := gdst.isLt; have h5 := nc.isLt
  change eWord 0xF4 gd tk.val (ct.val * 2 ^ 40 + gs.val * 2 ^ 34 + gdst.val * 2 ^ 28 + nc.val * 2 ^ 26) < _
  refine eWord_lt _ ?_ ?_ ?_ <;> omega
theorem qfence (gd : Guard) (copy : Bool) (mat : Bool) (net : Bool) : Statement (.qfence gd copy mat net) := by
  intro _
  have h0 := Guard.code_lt gd; have h1 := b2n_lt copy; have h2 := b2n_lt mat; have h3 := b2n_lt net
  change eWord 0xF5 gd 0 (b2n copy * 2 ^ 43 + b2n mat * 2 ^ 44 + b2n net * 2 ^ 45) < _
  refine eWord_lt _ ?_ ?_ ?_ <;> omega
theorem amsg (gd : Guard) (tk : Tok) (gx : GReg) (nb : BitVec 7) : Statement (.amsg gd tk gx nb) := by
  intro _
  have h0 := Guard.code_lt gd; have h1 := tk.isLt; have h2 := gx.isLt; have h3 := nb.isLt
  change eWord 0xF6 gd tk.val (gx.val * 2 ^ 40 + nb.toNat * 2 ^ 33) < _
  refine eWord_lt _ ?_ ?_ ?_ <;> omega
theorem nsend (gd : Guard) (tk : Tok) (gx : GReg) : Statement (.nsend gd tk gx) := by
  intro _
  have h0 := Guard.code_lt gd; have h1 := tk.isLt; have h2 := gx.isLt
  change eNet 0xF7 gd tk gx < _
  delta eNet
  refine eWord_lt _ ?_ ?_ ?_ <;> omega
theorem nrecv (gd : Guard) (tk : Tok) (gx : GReg) : Statement (.nrecv gd tk gx) := by
  intro _
  have h0 := Guard.code_lt gd; have h1 := tk.isLt; have h2 := gx.isLt
  change eNet 0xF8 gd tk gx < _
  delta eNet
  refine eWord_lt _ ?_ ?_ ?_ <;> omega
theorem fput (gd : Guard) (tk : Tok) (gx : GReg) : Statement (.fput gd tk gx) := by
  intro _
  have h0 := Guard.code_lt gd; have h1 := tk.isLt; have h2 := gx.isLt
  change eNet 0xF9 gd tk gx < _
  delta eNet
  refine eWord_lt _ ?_ ?_ ?_ <;> omega
theorem fget (gd : Guard) (tk : Tok) (gx : GReg) : Statement (.fget gd tk gx) := by
  intro _
  have h0 := Guard.code_lt gd; have h1 := tk.isLt; have h2 := gx.isLt
  change eNet 0xFA gd tk gx < _
  delta eNet
  refine eWord_lt _ ?_ ?_ ?_ <;> omega
theorem fcopy (gd : Guard) (tk : Tok) (gx : GReg) : Statement (.fcopy gd tk gx) := by
  intro _
  have h0 := Guard.code_lt gd; have h1 := tk.isLt; have h2 := gx.isLt
  change eNet 0xFB gd tk gx < _
  delta eNet
  refine eWord_lt _ ?_ ?_ ?_ <;> omega
theorem fmrs (gd : Guard) (tk : Tok) (gx : GReg) : Statement (.fmrs gd tk gx) := by
  intro _
  have h0 := Guard.code_lt gd; have h1 := tk.isLt; have h2 := gx.isLt
  change eNet 0xFC gd tk gx < _
  delta eNet
  refine eWord_lt _ ?_ ?_ ?_ <;> omega
theorem fmrl (gd : Guard) (tk : Tok) (gx : GReg) : Statement (.fmrl gd tk gx) := by
  intro _
  have h0 := Guard.code_lt gd; have h1 := tk.isLt; have h2 := gx.isLt
  change eNet 0xFD gd tk gx < _
  delta eNet
  refine eWord_lt _ ?_ ?_ ?_ <;> omega
theorem nprobe (gd : Guard) (tk : Tok) (gx : GReg) : Statement (.nprobe gd tk gx) := by
  intro _
  have h0 := Guard.code_lt gd; have h1 := tk.isLt; have h2 := gx.isLt
  change eNet 0xFE gd tk gx < _
  delta eNet
  refine eWord_lt _ ?_ ?_ ?_ <;> omega
theorem tokenCompletion (c : CRef) (tk : Tok) : Statement (.tokenCompletion c tk) := by intro h; cases h
theorem dlyExpiry (c : CRef) : Statement (.dlyExpiry c) := by intro h; cases h
theorem yieldExpiry (c : CRef) : Statement (.yieldExpiry c) := by intro h; cases h
theorem regionGuardWaitExpiry (c : CRef) : Statement (.regionGuardWaitExpiry c) := by intro h; cases h
theorem asyncTrapTaken (c : CRef) : Statement (.asyncTrapTaken c) := by intro h; cases h
theorem debugRequest (c : CRef) : Statement (.debugRequest c) := by intro h; cases h
theorem eventCounterOverflow (core : Nat) (k : Fin 8) (n : Nat) : Statement (.eventCounterOverflow core k n) := by intro h; cases h
theorem meterAccumulate (vd : Fin 512) : Statement (.meterAccumulate vd) := by intro h; cases h
theorem matrixEntryStart (core : Nat) (rows : Nat) : Statement (.matrixEntryStart core rows) := by intro h; cases h
theorem matrixEntryComplete (core : Nat) : Statement (.matrixEntryComplete core) := by intro h; cases h
theorem selfTestProduct (core : Nat) (failed : BitVec 4) : Statement (.selfTestProduct core failed) := by intro h; cases h
theorem copyEntryExecute (core : Nat) (n : Nat) : Statement (.copyEntryExecute core n) := by intro h; cases h
theorem ringEntryEffect (truss : Nat) (q : QSel) : Statement (.ringEntryEffect truss q) := by intro h; cases h
theorem networkEntryStart (truss : Nat) : Statement (.networkEntryStart truss) := by intro h; cases h
theorem serviceRecordTake (who : SvcCourse) (reject : Bool) (results : List (List W32)) : Statement (.serviceRecordTake who reject results) := by intro h; cases h
theorem amsgArrival (core : Nat) : Statement (.amsgArrival core) := by intro h; cases h
theorem handlerSpawn (core : Nat) : Statement (.handlerSpawn core) := by intro h; cases h
theorem launchAdmission : Statement .launchAdmission := by intro h; cases h
theorem courseRetire (c : CRef) : Statement (.courseRetire c) := by intro h; cases h
theorem launchComplete (launch : Nat) : Statement (.launchComplete launch) := by intro h; cases h
theorem quarantineRelease (c : CRef) : Statement (.quarantineRelease c) := by intro h; cases h
theorem strikeReport (core : Nat) (zone : Fin 5) : Statement (.strikeReport core zone) := by intro h; cases h
theorem regionRollback (c : CRef) : Statement (.regionRollback c) := by intro h; cases h
theorem pwaitRepeat (waiter : Nat) : Statement (.pwaitRepeat waiter) := by intro h; cases h
theorem partialEviction (core : Nat) (vd : Fin 512) (need : Nat) : Statement (.partialEviction core vd need) := by intro h; cases h
theorem fullEviction (truss : Nat) : Statement (.fullEviction truss) := by intro h; cases h
theorem courseUnpark (c : CRef) : Statement (.courseUnpark c) := by intro h; cases h
theorem trussRestore (truss : Nat) : Statement (.trussRestore truss) := by intro h; cases h
theorem sliceBoundary (set : Fin 32) : Statement (.sliceBoundary set) := by intro h; cases h
theorem homeSliceAccess (acc : Nat) (part : Nat) (srv : Serve) : Statement (.homeSliceAccess acc part srv) := by intro h; cases h
theorem lineHandover (line : Nat) : Statement (.lineHandover line) := by intro h; cases h
theorem pageIn (vd : Fin 512) (gpa : Nat) : Statement (.pageIn vd gpa) := by intro h; cases h
theorem pageOut (vd : Fin 512) (gpa : Nat) (hostFrame : Nat) : Statement (.pageOut vd gpa hostFrame) := by intro h; cases h
theorem counterManagedMove (vd : Fin 512) (gpa : Nat) (hostFrame : Nat) : Statement (.counterManagedMove vd gpa hostFrame) := by intro h; cases h
theorem stage1FaultRecord (vd : Fin 512) : Statement (.stage1FaultRecord vd) := by intro h; cases h
theorem stage2FaultEvent (vd : Fin 512) : Statement (.stage2FaultEvent vd) := by intro h; cases h
theorem eccCorrected (unitKind : Fin 6) (unit : Nat) : Statement (.eccCorrected unitKind unit) := by intro h; cases h
theorem eccUncorrectable (place : EccPlace) : Statement (.eccUncorrectable place) := by intro h; cases h
theorem courseKill (c : CRef) (cause : KillCause) : Statement (.courseKill c cause) := by intro h; cases h
theorem killDrain (eng : Engine) : Statement (.killDrain eng) := by intro h; cases h
theorem drainTimeout (late : LateEngine) : Statement (.drainTimeout late) := by intro h; cases h
theorem killDump : Statement .killDump := by intro h; cases h
theorem killRelease : Statement .killRelease := by intro h; cases h
theorem coreRetire (core : Nat) : Statement (.coreRetire core) := by intro h; cases h
theorem columnRetire (col : Fin 16) : Statement (.columnRetire col) := by intro h; cases h
theorem kickWrite (vd : Fin 512) (j : Fin 512) (tail : W32) : Statement (.kickWrite vd j tail) := by intro h; cases h
theorem submissionWrite (vd : Fin 512) (j : Fin 512) (posted : Bool) (off : Nat) (data : List Byte) : Statement (.submissionWrite vd j posted off data) := by intro h; cases h
theorem packetFetch (blk : Nat) : Statement (.packetFetch blk) := by intro h; cases h
theorem packetNop (blk : Nat) : Statement (.packetNop blk) := by intro h; cases h
theorem packetLaunch (blk : Nat) : Statement (.packetLaunch blk) := by intro h; cases h
theorem packetWaitPromise (blk : Nat) : Statement (.packetWaitPromise blk) := by intro h; cases h
theorem packetWaitMemory (blk : Nat) : Statement (.packetWaitMemory blk) := by intro h; cases h
theorem waitPoll (blk : Nat) : Statement (.waitPoll blk) := by intro h; cases h
theorem packetSignalFill (blk : Nat) : Statement (.packetSignalFill blk) := by intro h; cases h
theorem packetSignalStore (blk : Nat) : Statement (.packetSignalStore blk) := by intro h; cases h
theorem packetSignalInterrupt (blk : Nat) : Statement (.packetSignalInterrupt blk) := by intro h; cases h
theorem packetCond (blk : Nat) : Statement (.packetCond blk) := by intro h; cases h
theorem packetCopy (blk : Nat) : Statement (.packetCopy blk) := by intro h; cases h
theorem packetFence (blk : Nat) : Statement (.packetFence blk) := by intro h; cases h
theorem packetRetire (blk : Nat) : Statement (.packetRetire blk) := by intro h; cases h
theorem retireReport (blk : Nat) : Statement (.retireReport blk) := by intro h; cases h
theorem queueSchedulerPass : Statement .queueSchedulerPass := by intro h; cases h
theorem queueUnmap (blk : Nat) : Statement (.queueUnmap blk) := by intro h; cases h
theorem heartbeatMiss (qp : Fin 8) : Statement (.heartbeatMiss qp) := by intro h; cases h
theorem fallbackVisit (qp : Fin 8) (slot : Fin 32) : Statement (.fallbackVisit qp slot) := by intro h; cases h
theorem create (w : Vector W64 8) : Statement (.create w) := by intro h; cases h
theorem destroy (w : Vector W64 8) : Statement (.destroy w) := by intro h; cases h
theorem setweight (w : Vector W64 8) : Statement (.setweight w) := by intro h; cases h
theorem defset (w : Vector W64 8) : Statement (.defset w) := by intro h; cases h
theorem setset (w : Vector W64 8) : Statement (.setset w) := by intro h; cases h
theorem setmode (w : Vector W64 8) : Statement (.setmode w) := by intro h; cases h
theorem mapvec (w : Vector W64 8) : Statement (.mapvec w) := by intro h; cases h
theorem map2 (w : Vector W64 8) : Statement (.map2 w) := by intro h; cases h
theorem unmap2 (w : Vector W64 8) : Statement (.unmap2 w) := by intro h; cases h
theorem abort2 (w : Vector W64 8) : Statement (.abort2 w) := by intro h; cases h
theorem meters (w : Vector W64 8) : Statement (.meters w) := by intro h; cases h
theorem qcreate (w : Vector W64 8) : Statement (.qcreate w) := by intro h; cases h
theorem qrestart (w : Vector W64 8) : Statement (.qrestart w) := by intro h; cases h
theorem resetCourse (w : Vector W64 8) : Statement (.resetCourse w) := by intro h; cases h
theorem resetTruss (w : Vector W64 8) : Statement (.resetTruss w) := by intro h; cases h
theorem resetVirtualDevice (w : Vector W64 8) : Statement (.resetVirtualDevice w) := by intro h; cases h
theorem resetEngine (w : Vector W64 8) : Statement (.resetEngine w) := by intro h; cases h
theorem resetSliceColumn (w : Vector W64 8) : Statement (.resetSliceColumn w) := by intro h; cases h
theorem resetOpticalLink (w : Vector W64 8) : Statement (.resetOpticalLink w) := by intro h; cases h
theorem dumpack (w : Vector W64 8) : Statement (.dumpack w) := by intro h; cases h
theorem columnOn (w : Vector W64 8) : Statement (.columnOn w) := by intro h; cases h
theorem columnOff (w : Vector W64 8) : Statement (.columnOff w) := by intro h; cases h
theorem s1rootWrite (vd : Fin 512) (v : W64) : Statement (.s1rootWrite vd v) := by intro h; cases h
theorem fltbaseWrite (vd : Fin 512) (v : W64) : Statement (.fltbaseWrite vd v) := by intro h; cases h
theorem fltresReplay (vd : Fin 512) (v : W64) : Statement (.fltresReplay vd v) := by intro h; cases h
theorem fltresAbort (vd : Fin 512) (v : W64) : Statement (.fltresAbort vd v) := by intro h; cases h
theorem route (w : Vector W64 12) : Statement (.route w) := by intro h; cases h
theorem epset (w : Vector W64 12) : Statement (.epset w) := by intro h; cases h
theorem gset (w : Vector W64 12) : Statement (.gset w) := by intro h; cases h
theorem gclr (w : Vector W64 12) : Statement (.gclr w) := by intro h; cases h
theorem quiesce (w : Vector W64 12) : Statement (.quiesce w) := by intro h; cases h
theorem relock (w : Vector W64 12) : Statement (.relock w) := by intro h; cases h
theorem bootctlRetry (b : BringUp) : Statement (.bootctlRetry b) := by intro h; cases h
theorem bootctlAttest : Statement .bootctlAttest := by intro h; cases h
theorem pwrlimWrite (v : W64) : Statement (.pwrlimWrite v) := by intro h; cases h
theorem registerWrite (page : HostPage) (off : Nat) (v : W64) : Statement (.registerWrite page off v) := by intro h; cases h
theorem powerOn (b : BringUp) : Statement (.powerOn b) := by intro h; cases h
theorem powerThrottle (excess : Bool) : Statement (.powerThrottle excess) := by intro h; cases h
theorem thermalTrip : Statement .thermalTrip := by intro h; cases h
theorem lightDetect (link : Fin 16) (lit : BitVec 16) : Statement (.lightDetect link lit) := by intro h; cases h
theorem trainingPhaseTimeout (link : Fin 16) : Statement (.trainingPhaseTimeout link) := by intro h; cases h
theorem linkRetryTimer (link : Fin 16) : Statement (.linkRetryTimer link) := by intro h; cases h
theorem flitReceive (link : Fin 16) (rx : Reception) (f : Flit) : Statement (.flitReceive link rx f) := by intro h; cases h
theorem ctrlFlitReceive (link : Fin 16) (f : Flit) : Statement (.ctrlFlitReceive link f) := by intro h; cases h
theorem drainFlitReceive (link : Fin 16) (f : Flit) : Statement (.drainFlitReceive link f) := by intro h; cases h
theorem ackTimer (link : Fin 16) : Statement (.ackTimer link) := by intro h; cases h
theorem resendTimeout (link : Fin 16) : Statement (.resendTimeout link) := by intro h; cases h
theorem resendLimit (link : Fin 16) : Statement (.resendLimit link) := by intro h; cases h
theorem lossOfLight (link : Fin 16) (lost : BitVec 16) (atSender : Bool) : Statement (.lossOfLight link lost atSender) := by intro h; cases h
theorem laserRelight (link : Fin 16) (lit : BitVec 16) : Statement (.laserRelight link lit) := by intro h; cases h
theorem quiesceTimeout (link : Fin 16) : Statement (.quiesceTimeout link) := by intro h; cases h
theorem put (x : Transfer) : Statement (.put x) := by intro h; cases h
theorem getreq (x : Transfer) : Statement (.getreq x) := by intro h; cases h
theorem getdata (x : Transfer) : Statement (.getdata x) := by intro h; cases h
theorem msg (x : Transfer) : Statement (.msg x) := by intro h; cases h
theorem contrib (x : Transfer) : Statement (.contrib x) := by intro h; cases h
theorem lreq (x : Transfer) : Statement (.lreq x) := by intro h; cases h
theorem ldata (x : Transfer) : Statement (.ldata x) := by intro h; cases h
theorem done (x : Transfer) : Statement (.done x) := by intro h; cases h
theorem absent (x : Transfer) : Statement (.absent x) := by intro h; cases h
theorem firmwareRunningAgain (qp : Fin 8) : Statement (.firmwareRunningAgain qp) := by intro h; cases h
theorem wavelengthLock (link : Fin 16) (locked : BitVec 16) : Statement (.wavelengthLock link locked) := by intro h; cases h
theorem hostMemoryWrite (vd : Option (Fin 512)) (addr : Nat) (data : List Byte) : Statement (.hostMemoryWrite vd addr data) := by intro h; cases h
theorem hostAtomicop (vd : Fin 512) (addr : Nat) (op : AOp) (z : ASz) (a : BitVec 128) (cmp : BitVec 128) : Statement (.hostAtomicop vd addr op z a cmp) := by intro h; cases h
theorem modulePowerOff : Statement .modulePowerOff := by intro h; cases h

end Laws.Width

end Sys2Proof
end

