-- ==== Sys2Proof/Laws/Results.lean ====
section
/-!
SUPPORT. How the results of fixed-latency words lie in the registers (04 R86, R95, R96).
-/
namespace Sys2Proof.Machine

/-! ### Vectors -/

theorem vat_set {α : Type} {n : Nat} (xs : Vector α n) (i : Fin n) (y d : α) (j : Nat) :
    vat (xs.set i y) j d = if j = i then y else vat xs j d := by
  unfold vat
  by_cases hj : j < n
  · simp only [hj, dif_pos, Vector.getElem_set, eq_comm (a := i.val)]
  · have : ¬ j = i.val := by have := i.isLt; omega
    simp [hj, this]

theorem vat_ofFn {α : Type} {n : Nat} (f : Fin n → α) (d : α) (l : Nat) :
    vat (Vector.ofFn f) l d = if h : l < n then f ⟨l, h⟩ else d := by
  unfold vat
  split <;> simp

theorem vget_out (k : Course) (n : Nat) {l : Nat} (h : ¬ l < 32) : k.vget n l = 0 := by unfold Course.vget vat; simp [h]

theorem getLsbD_out (m : LaneMask) {l : Nat} (h : m.getLsbD l = true) : l < 32 := by
  by_contra hl
  rw [BitVec.getLsbD_of_ge m l (by omega)] at h
  cases h

/-- A number made of chosen bits has just those bits. -/
theorem maskOf_testBit (n : Nat) (f : Nat → Bool) (l : Nat) : (maskOf n f).testBit l = (decide (l < n) && f l) := by
  induction n with
  | zero => simp [maskOf]
  | succ n ih =>
    have hlt : maskOf n f < 2 ^ n := by
      clear ih l
      induction n with
      | zero => simp [maskOf]
      | succ n ih =>
        unfold maskOf at *
        rw [List.range_succ, List.foldl_append]
        simp only [List.foldl_cons, List.foldl_nil]
        have : (2:Nat) ^ (n + 1) = 2 ^ n + 2 ^ n := by ring
        split <;> omega
    have hs : maskOf (n + 1) f = if f n then maskOf n f + 2 ^ n else maskOf n f := by
      unfold maskOf
      rw [List.range_succ, List.foldl_append]
      simp
    rw [hs]
    by_cases hf : f n
    · simp only [hf, if_true]
      rw [Nat.add_comm]
      by_cases hl : l = n
      · subst hl
        rw [Nat.testBit_two_pow_add_eq, ih]
        simp [hf]
      · rcases Nat.lt_or_gt_of_ne hl with h | h
        · rw [Nat.testBit_two_pow_add_gt h, ih]
          have : l < n + 1 := by omega
          simp [h, this]
        · have h1 : ¬ l < n + 1 := by omega
          rw [Nat.testBit_lt_two_pow]
          · simp [h1]
          · calc 2 ^ n + maskOf n f < 2 ^ n + 2 ^ n := by omega
              _ = 2 ^ (n + 1) := by ring
              _ ≤ 2 ^ l := Nat.pow_le_pow_right (by decide) (by omega)
    · simp only [hf, Bool.false_eq_true, if_false, ih]
      by_cases hl : l = n
      · subst hl; simp [hf]
      · by_cases h : l < n
        · have : l < n + 1 := by omega
          simp [h, this]
        · have : ¬ l < n + 1 := by omega
          simp [h, this]

theorem getLsbD_maskOf (f : Nat → Bool) (l : Nat) : (BitVec.ofNat 32 (maskOf 32 f)).getLsbD l = (decide (l < 32) && f l) := by
  rw [BitVec.getLsbD_ofNat, maskOf_testBit]
  by_cases h : l < 32 <;> simp [h]

/-! ### One result -/

/-- A course's own shadow test says that the lane lies in a shadow. -/
theorem shadowed_iff (k : Course) (w : RegVal) (l : Nat) : k.shadowed w l = true ↔
    ∃ sh ∈ k.shadows, sh.old.name = w.name ∧ ((∃ n x, w = .g n x) ∨ sh.old.lanes.getLsbD l = true) := by
  unfold Course.shadowed
  simp only [List.any_eq_true, Bool.and_eq_true, beq_iff_eq]
  constructor
  · rintro ⟨sh, h1, h2, h3⟩
    refine ⟨sh, h1, h2, ?_⟩
    cases w with
    | g n x => exact .inl ⟨n, x, rfl⟩
    | v n m x => exact .inr h3
    | p n m x => exact .inr h3
  · rintro ⟨sh, h1, h2, h3⟩
    refine ⟨sh, h1, h2, ?_⟩
    cases w with
    | g n x => rfl
    | v n m x => rcases h3 with ⟨_, _, h⟩ | h; · cases h
                 exact h
    | p n m x => rcases h3 with ⟨_, _, h⟩ | h; · cases h
                 exact h

/-- A result changes only registers, shadows, clashes and errors. -/
theorem land_keeps (k : Course) (tick L : Nat) (w : RegVal) :
    SameButRegs k (k.land tick L w) ∧ (k.land tick L w).flagShadows = k.flagShadows := by
  have hc : (markClash w k.ops).map TokOp.noClash = k.ops.map TokOp.noClash := by
    unfold markClash
    simp only [List.map_map]
    apply List.map_congr_left
    intro o _
    simp only [Function.comp]
    split <;> rfl
  unfold Course.land
  refine ⟨⟨hc, ?_⟩, ?_⟩
  · cases w with
    | v n m x => rfl
    | p n m x => rfl
    | g n x =>
      unfold Course.blend
      dsimp only
      split <;> rfl
  · cases w with
    | v n m x => rfl
    | p n m x => rfl
    | g n x =>
      unfold Course.blend
      dsimp only
      split <;> rfl

/-- What a cut leaves is the shadow itself, or lies in the register of the later result. -/
theorem mem_cut {sh x : Shadow} {w : RegVal} {till : Nat} (h : x ∈ sh.cut w till) : x = sh ∨ x.old.name = w.name := by
  unfold Shadow.cut at h
  split at h
  · exact .inl (List.mem_singleton.1 h)
  · rename_i hc
    have hn : sh.old.name = w.name := by
      simp only [RegVal.meets, Bool.or_eq_true, Bool.not_eq_true', decide_eq_true_eq, not_or, Bool.not_eq_false, Bool.and_eq_true,
        beq_iff_eq] at hc
      exact hc.1.1
    right
    cases ho : sh.old <;> cases w <;> simp only [ho, RegVal.name] at h hn ⊢ <;>
      first
      | (simp only [List.mem_append, List.mem_cons, List.not_mem_nil, or_false] at h
         rcases h with h | rfl | rfl
         · split at h
           · simp at h
           · rw [List.mem_singleton] at h; subst h; simpa [RegVal.name] using hn
         · simpa [RegVal.name] using hn
         · rfl)
      | (simp only [List.mem_cons, List.not_mem_nil, or_false] at h
         rcases h with rfl | rfl
         · simpa [ho, RegVal.name] using hn
         · rfl)

/-- A shadow after a result was there before, or lies in the result's register. -/
theorem mem_land_shadows {k : Course} {tick L : Nat} {w : RegVal} {x : Shadow} (h : x ∈ (k.land tick L w).shadows) :
    x ∈ k.shadows ∨ x.old.name = w.name := by
  replace h : x ∈ (k.shadows.map fun sh => sh.cut w (k.pos + L)).flatten ++ [⟨k.current w, k.pos + L, k.strict⟩] := h
  rw [List.mem_append, List.mem_flatten] at h
  rcases h with ⟨ys, hy, hx⟩ | h
  · obtain ⟨sh, hs, rfl⟩ := List.mem_map.1 hy
    rcases mem_cut hx with rfl | e
    · exact .inl hs
    · exact .inr e
  · rw [List.mem_singleton] at h
    subst h
    right
    cases w <;> rfl

theorem SameButRegs.trans {a b c : Course} (h1 : SameButRegs a b) (h2 : SameButRegs b c) : SameButRegs a c := by
  refine ⟨h2.1.trans h1.1, ?_⟩
  have e1 := h1.2
  have e2 := h2.2
  rw [← e1, ← e2]

theorem SameButRegs.refl (a : Course) : SameButRegs a a := ⟨rfl, rfl⟩

theorem vget_land (k : Course) (tick L : Nat) (n : VReg) (ex : LaneMask) (x : LaneVec) (m l : Nat) :
    (k.land tick L (.v n ex x)).vget m l =
      if m = n.val ∧ ex.getLsbD l = true ∧ (!k.shadowed (.v n ex x) l || Config.pick tick (1024 * 1024 + n.val) l) = true
      then vat x l 0 else k.vget m l := by
  show vat (vat (Vector.set k.v n.val _ n.isLt) m _) l 0 = _
  rw [show Vector.set k.v n.val _ n.isLt = k.v.set n _ from rfl, vat_set]
  by_cases hm : m = n.val
  · simp only [hm, if_true, true_and]
    rw [vat_ofFn]
    by_cases hl : l < 32
    · simp only [hl, dif_pos, RegVal.name, Bool.and_eq_true]
      by_cases h : ex.getLsbD l = true ∧ (!k.shadowed (.v n ex x) l || Config.pick tick (1024 * 1024 + n.val) l) = true
      · rw [if_pos h, if_pos h]
        unfold vat; simp [hl]
      · rw [if_neg h, if_neg h]
        unfold Course.vget vat
        simp [hl]
    · have : ¬ ex.getLsbD l = true := fun h => hl (getLsbD_out ex h)
      rw [if_neg (fun h => this h.1), vget_out k _ hl]
      simp [hl]
  · simp only [hm, if_false, false_and]
    rfl

theorem land_v_gp (k : Course) (tick L : Nat) (n : VReg) (ex : LaneMask) (x : LaneVec) :
    (k.land tick L (.v n ex x)).g = k.g ∧ (k.land tick L (.v n ex x)).p = k.p := ⟨rfl, rfl⟩

theorem vat_laneVec (f : Nat → W32) {l : Nat} (hl : l < 32) : vat (laneVec f) l 0 = f l := by
  unfold laneVec; rw [vat_ofFn]; simp [hl]

/-- A condition that fails inside an or of which one side must hold. -/
theorem shadow_of_not {k : Course} {w : RegVal} {l : Nat} {b : Bool} (h : ¬ (!k.shadowed w l || b) = true) : k.shadowed w l = true := by
  cases hs : k.shadowed w l
  · simp [hs] at h
  · rfl

theorem lands_v (k : Course) (tick L : Nat) (n : VReg) (ex : LaneMask) (f : Nat → W32) {l : Nat} (h : ex.getLsbD l = true) :
    LandsV k (k.land tick L (.v n ex (laneVec f))) n l (f l) := by
  have hl := getLsbD_out ex h
  unfold LandsV
  rw [vget_land]
  by_cases hc : (!k.shadowed (.v n ex (laneVec f)) l || Config.pick tick (1024 * 1024 + n.val) l) = true
  · left
    rw [if_pos ⟨rfl, h, hc⟩, vat_laneVec f hl]
  · right
    rw [if_neg (fun e => hc e.2.2)]
    refine ⟨?_, rfl⟩
    obtain ⟨sh, h1, h2, h3⟩ := (shadowed_iff ..).1 (shadow_of_not hc)
    rcases h3 with ⟨_, _, e⟩ | h3
    · cases e
    · exact ⟨sh, h1, h2, .inl h3⟩

theorem gget_land (k : Course) (tick L : Nat) (n : GReg) (y : W64) (m : Nat) :
    (k.land tick L (.g n y)).gget m =
      if m = n.val ∧ (!k.shadowed (.g n y) 0 || Config.pick tick (1024 * 1024 + (256 + n.val)) 0) = true then y else k.gget m := by
  unfold Course.land Course.blend
  simp only [RegVal.name]
  by_cases hc : (!k.shadowed (.g n y) 0 || Config.pick tick (1024 * 1024 + (256 + n.val)) 0) = true
  · simp only [hc, if_true, and_true]
    show vat (k.g.set n y) m 0 = _
    rw [vat_set]
    rfl
  · simp only [hc, and_false, Bool.false_eq_true, if_false]
    rfl

theorem land_g_vp (k : Course) (tick L : Nat) (n : GReg) (y : W64) :
    (k.land tick L (.g n y)).v = k.v ∧ (k.land tick L (.g n y)).p = k.p := by
  unfold Course.land Course.blend
  dsimp only
  split <;> exact ⟨rfl, rfl⟩

theorem lands_g (k : Course) (tick L : Nat) (n : GReg) (y : W64) : LandsG k (k.land tick L (.g n y)) n y := by
  unfold LandsG
  rw [gget_land]
  by_cases hc : (!k.shadowed (.g n y) 0 || Config.pick tick (1024 * 1024 + (256 + n.val)) 0) = true
  · left; rw [if_pos ⟨rfl, hc⟩]
  · right
    rw [if_neg (fun e => hc e.2)]
    refine ⟨?_, rfl⟩
    obtain ⟨sh, h1, h2, -⟩ := (shadowed_iff ..).1 (shadow_of_not hc)
    exact ⟨sh, h1, h2, .inr ⟨by omega, by have := n.isLt; omega⟩⟩

theorem pget_land (k : Course) (tick L : Nat) (n : PDst) (ex x : LaneMask) (m l : Nat) :
    ((k.land tick L (.p n ex x)).pget m).getLsbD l =
      if m = n.val ∧ ex.getLsbD l = true ∧ (!k.shadowed (.p n ex x) l || Config.pick tick (1024 * 1024 + (320 + n.val)) l) = true
      then x.getLsbD l else (k.pget m).getLsbD l := by
  show (vat (Vector.set k.p n.val _ n.isLt) m _).getLsbD l = _
  rw [show Vector.set k.p n.val _ n.isLt = k.p.set n _ from rfl, vat_set]
  by_cases hm : m = n.val
  · simp only [hm, if_true, true_and, RegVal.name]
    rw [getLsbD_maskOf]
    by_cases hl : l < 32
    · simp only [hl, decide_true, Bool.true_and, Bool.and_eq_true]
      by_cases h : ex.getLsbD l = true ∧ (!k.shadowed (.p n ex x) l || Config.pick tick (1024 * 1024 + (320 + n.val)) l) = true
      · rw [if_pos h, if_pos h]
      · rw [if_neg h, if_neg h]
        unfold Course.pget vat
        simp
    · have h1 : ¬ ex.getLsbD l = true := fun h => hl (getLsbD_out ex h)
      rw [if_neg (fun h => h1 h.1), BitVec.getLsbD_of_ge (k.pget _) l (by omega)]
      simp [hl]
  · simp only [hm, if_false, false_and]
    rfl

theorem lands_p (k : Course) (tick L : Nat) (n : PDst) (ex x : LaneMask) {l : Nat} (h : ex.getLsbD l = true) :
    LandsP k (k.land tick L (.p n ex x)) n l (x.getLsbD l) := by
  unfold LandsP
  rw [pget_land]
  by_cases hc : (!k.shadowed (.p n ex x) l || Config.pick tick (1024 * 1024 + (320 + n.val)) l) = true
  · left; rw [if_pos ⟨rfl, h, hc⟩]
  · right
    rw [if_neg (fun e => hc e.2.2)]
    refine ⟨?_, rfl⟩
    obtain ⟨sh, h1, h2, h3⟩ := (shadowed_iff ..).1 (shadow_of_not hc)
    rcases h3 with ⟨_, _, e⟩ | h3
    · cases e
    · exact ⟨sh, h1, h2, .inl h3⟩

/-! ### The results of a word -/

/-- No lane of an empty mask. -/
theorem not_lane_zero (l : Nat) : ¬ (0 : LaneMask).getLsbD l = true := by simp

/-- The results of a word with a register destination land as R86 and R122 say, and nothing else changes. -/
theorem landAll_lands (k : Course) (tick L regs : Nat) (d : Reg) (ex : LaneMask) (f : Nat → W64) (hr : regs = 1 ∨ regs = 2)
    (hd : ∀ n : VReg, d = .v n → n.val + regs ≤ 256) :
    let k' := k.landAll tick L ex (resultVals regs d ex f)
    SameButRegs k k' ∧ k'.flagShadows = k.flagShadows ∧ Lands k k' regs d ex f := by
  intro k'
  by_cases hex : ex = 0
  · have hk : k' = k := by simp only [k', Course.landAll, hex, if_true]
    rw [hk, hex]
    refine ⟨SameButRegs.refl k, rfl, ?_⟩
    unfold Lands
    cases d with
    | v n => exact ⟨⟨fun _ _ _ => rfl, rfl, rfl⟩, fun l h => absurd h (not_lane_zero l)⟩
    | g n => exact ⟨⟨rfl, fun _ _ => rfl, rfl⟩, by rw [if_pos rfl]⟩
  · cases d with
    | g n =>
      have hk : k' = k.land tick L (.g n (f (lowestLane ex))) := by
        simp only [k', Course.landAll, hex, if_false, resultVals, List.foldl_cons, List.foldl_nil]
      rw [hk]
      refine ⟨(land_keeps ..).1, (land_keeps ..).2, ?_⟩
      unfold Lands
      dsimp only
      refine ⟨⟨(land_g_vp ..).1, fun m hm => ?_, (land_g_vp ..).2⟩, ?_⟩
      · rw [gget_land, if_neg (fun e => hm e.1)]
      · rw [if_neg hex]; exact lands_g ..
    | v n =>
      have hn := hd n rfl
      rcases hr with hr | hr
      · have hk : k' = k.land tick L (.v n ex (laneVec fun l => (f l).truncate 32)) := by
          simp only [k', Course.landAll, hex, if_false, resultVals, hr]
          rfl
        rw [hk]
        refine ⟨(land_keeps ..).1, (land_keeps ..).2, ?_⟩
        unfold Lands
        dsimp only
        refine ⟨⟨fun m l hm => ?_, rfl, rfl⟩, fun l hl => ⟨lands_v (f := fun l => (f l).truncate 32) (h := hl) .., by omega⟩⟩
        rw [vget_land, if_neg]
        rintro ⟨e1, e2, -⟩
        exact hm ⟨by omega, by omega, e2⟩
      · have hn1 : (n + 1).val = n.val + 1 := by
          rw [hr] at hn
          rw [Fin.val_add]
          exact Nat.mod_eq_of_lt (by have h1 : ((1 : Fin 256) : Nat) = 1 := rfl; omega)
        generalize hlo : (RegVal.v n ex (laneVec fun l => (f l).truncate 32)) = lo
        generalize hhi : (RegVal.v (n + 1) ex (laneVec fun l => ((f l) >>> 32).truncate 32)) = hi
        have hk : k' = (k.land tick L lo).land tick L hi := by
          simp only [k', Course.landAll, hex, if_false, resultVals, hr, if_true, List.foldl_cons, List.foldl_nil, hlo, hhi]
        rw [hk]
        refine ⟨(land_keeps ..).1.trans (land_keeps ..).1, ((land_keeps ..).2).trans (land_keeps ..).2, ?_⟩
        unfold Lands
        dsimp only
        refine ⟨⟨fun m l hm => ?_, ?_, ?_⟩, fun l hl => ⟨?_, fun _ => ?_⟩⟩
        · subst hhi hlo
          rw [vget_land, vget_land, if_neg, if_neg]
          · rintro ⟨e1, e2, -⟩
            exact hm ⟨by omega, by omega, e2⟩
          · rintro ⟨e1, e2, -⟩
            exact hm ⟨by omega, by omega, e2⟩
        · subst hhi hlo; rfl
        · subst hhi hlo; rfl
        · have h1 := lands_v k tick L n ex (fun l => (f l).truncate 32) hl
          rw [hlo] at h1
          have h2 : ((k.land tick L lo).land tick L hi).vget n l = (k.land tick L lo).vget n l := by
            subst hhi
            rw [vget_land, if_neg]
            rintro ⟨e1, -, -⟩
            omega
          unfold LandsV at *
          rw [h2]
          exact h1
        · have h1 := lands_v (k.land tick L lo) tick L (n + 1) ex (fun l => ((f l) >>> 32).truncate 32) hl
          rw [hhi, hn1] at h1
          have h2 : (k.land tick L lo).vget (n.val + 1) l = k.vget (n.val + 1) l := by
            subst hlo
            rw [vget_land, if_neg]
            rintro ⟨e1, -, -⟩
            omega
          unfold LandsV at *
          rcases h1 with h1 | ⟨⟨sh, h3, h4, h5⟩, h1⟩
          · exact .inl h1
          · right
            rcases mem_land_shadows h3 with h3 | h3
            · exact ⟨⟨sh, h3, h4, h5⟩, h1.trans h2⟩
            · exfalso
              subst hlo
              simp only [RegVal.name] at h3 h4
              omega

/-- A predicate result lands in the executing lanes. -/
theorem landAll_pred (k : Course) (tick L : Nat) (d : PDst) (ex : LaneMask) (f : Nat → Bool) :
    let k' := k.landAll tick L ex [.p d ex (BitVec.ofNat 32 (maskOf 32 f))]
    SameButRegs k k' ∧ k'.flagShadows = k.flagShadows ∧ KeepsP k k' d ex ∧ ∀ l, ex.getLsbD l = true → LandsP k k' d l (f l) := by
  intro k'
  by_cases hex : ex = 0
  · have hk : k' = k := by simp only [k', Course.landAll, hex, if_true]
    rw [hk, hex]
    exact ⟨SameButRegs.refl k, rfl, ⟨rfl, rfl, fun _ _ _ => rfl⟩, fun l h => absurd h (not_lane_zero l)⟩
  · have hk : k' = k.land tick L (.p d ex (BitVec.ofNat 32 (maskOf 32 f))) := by
      simp only [k', Course.landAll, hex, if_false, List.foldl_cons, List.foldl_nil]
    rw [hk]
    refine ⟨(land_keeps ..).1, (land_keeps ..).2, ⟨rfl, rfl, fun m l hm => ?_⟩, fun l hl => ?_⟩
    · rw [pget_land, if_neg]
      rintro ⟨e1, e2, -⟩
      exact hm ⟨e1, e2⟩
    · have := lands_p k tick L d ex (BitVec.ofNat 32 (maskOf 32 f)) hl
      rw [getLsbD_maskOf] at this
      simpa [getLsbD_out ex hl] using this

end Sys2Proof.Machine
end

