-- ==== Sys2Proof/Laws/State.lean ====
section
/-!
SUPPORT. What the named updates of the state leave alone, a lemma for each field and update: all hold by unfolding.
-/
namespace Sys2Proof.Machine

/-! ### A truss or a course changes: nothing of the state but `trusses` -/

@[simp] theorem modTruss_agenda (s : State) (n : Nat) (f : Truss → Truss) : (s.modTruss n f).agenda = s.agenda := rfl
@[simp] theorem modTruss_cur (s : State) (n : Nat) (f : Truss → Truss) : (s.modTruss n f).cur = s.cur := rfl
@[simp] theorem modTruss_tick (s : State) (n : Nat) (f : Truss → Truss) : (s.modTruss n f).tick = s.tick := rfl
@[simp] theorem modTruss_power (s : State) (n : Nat) (f : Truss → Truss) : (s.modTruss n f).power = s.power := rfl
@[simp] theorem modTruss_bootStep (s : State) (n : Nat) (f : Truss → Truss) : (s.modTruss n f).bootStep = s.bootStep := rfl
@[simp] theorem modTruss_bootCode (s : State) (n : Nat) (f : Truss → Truss) : (s.modTruss n f).bootCode = s.bootCode := rfl
@[simp] theorem modTruss_bootDetail (s : State) (n : Nat) (f : Truss → Truss) : (s.modTruss n f).bootDetail = s.bootDetail := rfl
@[simp] theorem modTruss_boot (s : State) (n : Nat) (f : Truss → Truss) : (s.modTruss n f).boot = s.boot := rfl
@[simp] theorem modTruss_computeOn (s : State) (n : Nat) (f : Truss → Truss) : (s.modTruss n f).computeOn = s.computeOn := rfl
@[simp] theorem modTruss_throttled (s : State) (n : Nat) (f : Truss → Truss) : (s.modTruss n f).throttled = s.throttled := rfl
@[simp] theorem modTruss_clk (s : State) (n : Nat) (f : Truss → Truss) : (s.modTruss n f).clk = s.clk := rfl
@[simp] theorem modTruss_ioClk (s : State) (n : Nat) (f : Truss → Truss) : (s.modTruss n f).ioClk = s.ioClk := rfl
@[simp] theorem modTruss_dieCtr0 (s : State) (n : Nat) (f : Truss → Truss) : (s.modTruss n f).dieCtr0 = s.dieCtr0 := rfl
@[simp] theorem modTruss_mem (s : State) (n : Nat) (f : Truss → Truss) : (s.modTruss n f).mem = s.mem := rfl
@[simp] theorem modTruss_memPsn (s : State) (n : Nat) (f : Truss → Truss) : (s.modTruss n f).memPsn = s.memPsn := rfl
@[simp] theorem modTruss_lines (s : State) (n : Nat) (f : Truss → Truss) : (s.modTruss n f).lines = s.lines := rfl
@[simp] theorem modTruss_dirty (s : State) (n : Nat) (f : Truss → Truss) : (s.modTruss n f).dirty = s.dirty := rfl
@[simp] theorem modTruss_sliceLast (s : State) (n : Nat) (f : Truss → Truss) : (s.modTruss n f).sliceLast = s.sliceLast := rfl
@[simp] theorem modTruss_hostMem (s : State) (n : Nat) (f : Truss → Truss) : (s.modTruss n f).hostMem = s.hostMem := rfl
@[simp] theorem modTruss_hostPsn (s : State) (n : Nat) (f : Truss → Truss) : (s.modTruss n f).hostPsn = s.hostPsn := rfl
@[simp] theorem modTruss_cells (s : State) (n : Nat) (f : Truss → Truss) : (s.modTruss n f).cells = s.cells := rfl
@[simp] theorem modTruss_proms (s : State) (n : Nat) (f : Truss → Truss) : (s.modTruss n f).proms = s.proms := rfl
@[simp] theorem modTruss_accesses (s : State) (n : Nat) (f : Truss → Truss) : (s.modTruss n f).accesses = s.accesses := rfl
@[simp] theorem modTruss_early (s : State) (n : Nat) (f : Truss → Truss) : (s.modTruss n f).early = s.early := rfl
@[simp] theorem modTruss_nextId (s : State) (n : Nat) (f : Truss → Truss) : (s.modTruss n f).nextId = s.nextId := rfl
@[simp] theorem modTruss_l1 (s : State) (n : Nat) (f : Truss → Truss) : (s.modTruss n f).l1 = s.l1 := rfl
@[simp] theorem modTruss_icache (s : State) (n : Nat) (f : Truss → Truss) : (s.modTruss n f).icache = s.icache := rfl
@[simp] theorem modTruss_tlbs (s : State) (n : Nat) (f : Truss → Truss) : (s.modTruss n f).tlbs = s.tlbs := rfl
@[simp] theorem modTruss_gates (s : State) (n : Nat) (f : Truss → Truss) : (s.modTruss n f).gates = s.gates := rfl
@[simp] theorem modTruss_faults (s : State) (n : Nat) (f : Truss → Truss) : (s.modTruss n f).faults = s.faults := rfl
@[simp] theorem modTruss_pfGen (s : State) (n : Nat) (f : Truss → Truss) : (s.modTruss n f).pfGen = s.pfGen := rfl
@[simp] theorem modTruss_cmCount (s : State) (n : Nat) (f : Truss → Truss) : (s.modTruss n f).cmCount = s.cmCount := rfl
@[simp] theorem modTruss_fold (s : State) (n : Nat) (f : Truss → Truss) : (s.modTruss n f).fold = s.fold := rfl
@[simp] theorem modTruss_columns (s : State) (n : Nat) (f : Truss → Truss) : (s.modTruss n f).columns = s.columns := rfl
@[simp] theorem modTruss_columnsGone (s : State) (n : Nat) (f : Truss → Truss) : (s.modTruss n f).columnsGone = s.columnsGone := rfl
@[simp] theorem modTruss_folds (s : State) (n : Nat) (f : Truss → Truss) : (s.modTruss n f).folds = s.folds := rfl
@[simp] theorem modTruss_hbmFree (s : State) (n : Nat) (f : Truss → Truss) : (s.modTruss n f).hbmFree = s.hbmFree := rfl
@[simp] theorem modTruss_pool (s : State) (n : Nat) (f : Truss → Truss) : (s.modTruss n f).pool = s.pool := rfl
@[simp] theorem modTruss_ueCol (s : State) (n : Nat) (f : Truss → Truss) : (s.modTruss n f).ueCol = s.ueCol := rfl
@[simp] theorem modTruss_ioPsn (s : State) (n : Nat) (f : Truss → Truss) : (s.modTruss n f).ioPsn = s.ioPsn := rfl
@[simp] theorem modTruss_cores (s : State) (n : Nat) (f : Truss → Truss) : (s.modTruss n f).cores = s.cores := rfl
@[simp] theorem modTruss_svrBase (s : State) (n : Nat) (f : Truss → Truss) : (s.modTruss n f).svrBase = s.svrBase := rfl
@[simp] theorem modTruss_svrHead (s : State) (n : Nat) (f : Truss → Truss) : (s.modTruss n f).svrHead = s.svrHead := rfl
@[simp] theorem modTruss_svrTail (s : State) (n : Nat) (f : Truss → Truss) : (s.modTruss n f).svrTail = s.svrTail := rfl
@[simp] theorem modTruss_svcCore (s : State) (n : Nat) (f : Truss → Truss) : (s.modTruss n f).svcCore = s.svcCore := rfl
@[simp] theorem modTruss_svcRecs (s : State) (n : Nat) (f : Truss → Truss) : (s.modTruss n f).svcRecs = s.svcRecs := rfl
@[simp] theorem modTruss_svcTaken (s : State) (n : Nat) (f : Truss → Truss) : (s.modTruss n f).svcTaken = s.svcTaken := rfl
@[simp] theorem modTruss_launches (s : State) (n : Nat) (f : Truss → Truss) : (s.modTruss n f).launches = s.launches := rfl
@[simp] theorem modTruss_amsgFly (s : State) (n : Nat) (f : Truss → Truss) : (s.modTruss n f).amsgFly = s.amsgFly := rfl
@[simp] theorem modTruss_vds (s : State) (n : Nat) (f : Truss → Truss) : (s.modTruss n f).vds = s.vds := rfl
@[simp] theorem modTruss_remap (s : State) (n : Nat) (f : Truss → Truss) : (s.modTruss n f).remap = s.remap := rfl
@[simp] theorem modTruss_kickMap (s : State) (n : Nat) (f : Truss → Truss) : (s.modTruss n f).kickMap = s.kickMap := rfl
@[simp] theorem modTruss_qcbs (s : State) (n : Nat) (f : Truss → Truss) : (s.modTruss n f).qcbs = s.qcbs := rfl
@[simp] theorem modTruss_sets (s : State) (n : Nat) (f : Truss → Truss) : (s.modTruss n f).sets = s.sets := rfl
@[simp] theorem modTruss_kills (s : State) (n : Nat) (f : Truss → Truss) : (s.modTruss n f).kills = s.kills := rfl
@[simp] theorem modTruss_passesDue (s : State) (n : Nat) (f : Truss → Truss) : (s.modTruss n f).passesDue = s.passesDue := rfl
@[simp] theorem modTruss_passAt (s : State) (n : Nat) (f : Truss → Truss) : (s.modTruss n f).passAt = s.passAt := rfl
@[simp] theorem modTruss_ctxParts (s : State) (n : Nat) (f : Truss → Truss) : (s.modTruss n f).ctxParts = s.ctxParts := rfl
@[simp] theorem modTruss_qpFallback (s : State) (n : Nat) (f : Truss → Truss) : (s.modTruss n f).qpFallback = s.qpFallback := rfl
@[simp] theorem modTruss_qpCursor (s : State) (n : Nat) (f : Truss → Truss) : (s.modTruss n f).qpCursor = s.qpCursor := rfl
@[simp] theorem modTruss_mbcmd (s : State) (n : Nat) (f : Truss → Truss) : (s.modTruss n f).mbcmd = s.mbcmd := rfl
@[simp] theorem modTruss_mbBusy (s : State) (n : Nat) (f : Truss → Truss) : (s.modTruss n f).mbBusy = s.mbBusy := rfl
@[simp] theorem modTruss_mbStatus (s : State) (n : Nat) (f : Truss → Truss) : (s.modTruss n f).mbStatus = s.mbStatus := rfl
@[simp] theorem modTruss_mbOut (s : State) (n : Nat) (f : Truss → Truss) : (s.modTruss n f).mbOut = s.mbOut := rfl
@[simp] theorem modTruss_evBase (s : State) (n : Nat) (f : Truss → Truss) : (s.modTruss n f).evBase = s.evBase := rfl
@[simp] theorem modTruss_evSize (s : State) (n : Nat) (f : Truss → Truss) : (s.modTruss n f).evSize = s.evSize := rfl
@[simp] theorem modTruss_evTail (s : State) (n : Nat) (f : Truss → Truss) : (s.modTruss n f).evTail = s.evTail := rfl
@[simp] theorem modTruss_evHead (s : State) (n : Nat) (f : Truss → Truss) : (s.modTruss n f).evHead = s.evHead := rfl
@[simp] theorem modTruss_evWait (s : State) (n : Nat) (f : Truss → Truss) : (s.modTruss n f).evWait = s.evWait := rfl
@[simp] theorem modTruss_fbcmd (s : State) (n : Nat) (f : Truss → Truss) : (s.modTruss n f).fbcmd = s.fbcmd := rfl
@[simp] theorem modTruss_fbBusy (s : State) (n : Nat) (f : Truss → Truss) : (s.modTruss n f).fbBusy = s.fbBusy := rfl
@[simp] theorem modTruss_fbStatus (s : State) (n : Nat) (f : Truss → Truss) : (s.modTruss n f).fbStatus = s.fbStatus := rfl
@[simp] theorem modTruss_fbOut (s : State) (n : Nat) (f : Truss → Truss) : (s.modTruss n f).fbOut = s.fbOut := rfl
@[simp] theorem modTruss_cecnt (s : State) (n : Nat) (f : Truss → Truss) : (s.modTruss n f).cecnt = s.cecnt := rfl
@[simp] theorem modTruss_uecnt (s : State) (n : Nat) (f : Truss → Truss) : (s.modTruss n f).uecnt = s.uecnt := rfl
@[simp] theorem modTruss_strikes (s : State) (n : Nat) (f : Truss → Truss) : (s.modTruss n f).strikes = s.strikes := rfl
@[simp] theorem modTruss_degrade (s : State) (n : Nat) (f : Truss → Truss) : (s.modTruss n f).degrade = s.degrade := rfl
@[simp] theorem modTruss_rrcnt (s : State) (n : Nat) (f : Truss → Truss) : (s.modTruss n f).rrcnt = s.rrcnt := rfl
@[simp] theorem modTruss_cecthr (s : State) (n : Nat) (f : Truss → Truss) : (s.modTruss n f).cecthr = s.cecthr := rfl
@[simp] theorem modTruss_discards (s : State) (n : Nat) (f : Truss → Truss) : (s.modTruss n f).discards = s.discards := rfl
@[simp] theorem modTruss_capctl (s : State) (n : Nat) (f : Truss → Truss) : (s.modTruss n f).capctl = s.capctl := rfl
@[simp] theorem modTruss_capbase (s : State) (n : Nat) (f : Truss → Truss) : (s.modTruss n f).capbase = s.capbase := rfl
@[simp] theorem modTruss_capsize (s : State) (n : Nat) (f : Truss → Truss) : (s.modTruss n f).capsize = s.capsize := rfl
@[simp] theorem modTruss_captail (s : State) (n : Nat) (f : Truss → Truss) : (s.modTruss n f).captail = s.captail := rfl
@[simp] theorem modTruss_caphead (s : State) (n : Nat) (f : Truss → Truss) : (s.modTruss n f).caphead = s.caphead := rfl
@[simp] theorem modTruss_replayed (s : State) (n : Nat) (f : Truss → Truss) : (s.modTruss n f).replayed = s.replayed := rfl
@[simp] theorem modTruss_pfHost (s : State) (n : Nat) (f : Truss → Truss) : (s.modTruss n f).pfHost = s.pfHost := rfl
@[simp] theorem modTruss_fwSvn (s : State) (n : Nat) (f : Truss → Truss) : (s.modTruss n f).fwSvn = s.fwSvn := rfl
@[simp] theorem modTruss_cfgSvn (s : State) (n : Nat) (f : Truss → Truss) : (s.modTruss n f).cfgSvn = s.cfgSvn := rfl
@[simp] theorem modTruss_fwDigest (s : State) (n : Nat) (f : Truss → Truss) : (s.modTruss n f).fwDigest = s.fwDigest := rfl
@[simp] theorem modTruss_cfgDigest (s : State) (n : Nat) (f : Truss → Truss) : (s.modTruss n f).cfgDigest = s.cfgDigest := rfl
@[simp] theorem modTruss_nonce (s : State) (n : Nat) (f : Truss → Truss) : (s.modTruss n f).nonce = s.nonce := rfl
@[simp] theorem modTruss_attaddr (s : State) (n : Nat) (f : Truss → Truss) : (s.modTruss n f).attaddr = s.attaddr := rfl
@[simp] theorem modTruss_attstat (s : State) (n : Nat) (f : Truss → Truss) : (s.modTruss n f).attstat = s.attstat := rfl
@[simp] theorem modTruss_pwrlim (s : State) (n : Nat) (f : Truss → Truss) : (s.modTruss n f).pwrlim = s.pwrlim := rfl
@[simp] theorem modTruss_pwrnow (s : State) (n : Nat) (f : Truss → Truss) : (s.modTruss n f).pwrnow = s.pwrnow := rfl
@[simp] theorem modTruss_tjmax (s : State) (n : Nat) (f : Truss → Truss) : (s.modTruss n f).tjmax = s.tjmax := rfl
@[simp] theorem modTruss_junction (s : State) (n : Nat) (f : Truss → Truss) : (s.modTruss n f).junction = s.junction := rfl
@[simp] theorem modTruss_fabricId (s : State) (n : Nat) (f : Truss → Truss) : (s.modTruss n f).fabricId = s.fabricId := rfl
@[simp] theorem modTruss_qcbBase (s : State) (n : Nat) (f : Truss → Truss) : (s.modTruss n f).qcbBase = s.qcbBase := rfl
@[simp] theorem modTruss_contribBase (s : State) (n : Nat) (f : Truss → Truss) : (s.modTruss n f).contribBase = s.contribBase := rfl
@[simp] theorem modTruss_poolLo (s : State) (n : Nat) (f : Truss → Truss) : (s.modTruss n f).poolLo = s.poolLo := rfl
@[simp] theorem modTruss_poolHi (s : State) (n : Nat) (f : Truss → Truss) : (s.modTruss n f).poolHi = s.poolHi := rfl
@[simp] theorem modTruss_links (s : State) (n : Nat) (f : Truss → Truss) : (s.modTruss n f).links = s.links := rfl
@[simp] theorem modTruss_routes (s : State) (n : Nat) (f : Truss → Truss) : (s.modTruss n f).routes = s.routes := rfl
@[simp] theorem modTruss_endpoints (s : State) (n : Nat) (f : Truss → Truss) : (s.modTruss n f).endpoints = s.endpoints := rfl
@[simp] theorem modTruss_groups (s : State) (n : Nat) (f : Truss → Truss) : (s.modTruss n f).groups = s.groups := rfl
@[simp] theorem modTruss_outgoing (s : State) (n : Nat) (f : Truss → Truss) : (s.modTruss n f).outgoing = s.outgoing := rfl
@[simp] theorem modTruss_nextXid (s : State) (n : Nat) (f : Truss → Truss) : (s.modTruss n f).nextXid = s.nextXid := rfl
@[simp] theorem modTruss_forwards (s : State) (n : Nat) (f : Truss → Truss) : (s.modTruss n f).forwards = s.forwards := rfl
@[simp] theorem modTruss_inbound (s : State) (n : Nat) (f : Truss → Truss) : (s.modTruss n f).inbound = s.inbound := rfl
@[simp] theorem modTruss_xmit (s : State) (n : Nat) (f : Truss → Truss) : (s.modTruss n f).xmit = s.xmit := rfl
@[simp] theorem modTruss_contribs (s : State) (n : Nat) (f : Truss → Truss) : (s.modTruss n f).contribs = s.contribs := rfl
@[simp] theorem modTruss_contribStats (s : State) (n : Nat) (f : Truss → Truss) : (s.modTruss n f).contribStats = s.contribStats := rfl
@[simp] theorem modTruss_summed (s : State) (n : Nat) (f : Truss → Truss) : (s.modTruss n f).summed = s.summed := rfl
@[simp] theorem modTruss_nextCn (s : State) (n : Nat) (f : Truss → Truss) : (s.modTruss n f).nextCn = s.nextCn := rfl
@[simp] theorem modTruss_gathers (s : State) (n : Nat) (f : Truss → Truss) : (s.modTruss n f).gathers = s.gathers := rfl
@[simp] theorem modTruss_seen (s : State) (n : Nat) (f : Truss → Truss) : (s.modTruss n f).seen = s.seen := rfl
@[simp] theorem modTruss_hostOut (s : State) (n : Nat) (f : Truss → Truss) : (s.modTruss n f).hostOut = s.hostOut := rfl
@[simp] theorem modTruss_hostUp (s : State) (n : Nat) (f : Truss → Truss) : (s.modTruss n f).hostUp = s.hostUp := rfl
@[simp] theorem modTruss_hostWait (s : State) (n : Nat) (f : Truss → Truss) : (s.modTruss n f).hostWait = s.hostWait := rfl

@[simp] theorem modCourse_agenda (s : State) (c : CRef) (f : Course → Course) : (s.modCourse c f).agenda = s.agenda := rfl
@[simp] theorem modCourse_cur (s : State) (c : CRef) (f : Course → Course) : (s.modCourse c f).cur = s.cur := rfl
@[simp] theorem modCourse_tick (s : State) (c : CRef) (f : Course → Course) : (s.modCourse c f).tick = s.tick := rfl
@[simp] theorem modCourse_power (s : State) (c : CRef) (f : Course → Course) : (s.modCourse c f).power = s.power := rfl
@[simp] theorem modCourse_bootStep (s : State) (c : CRef) (f : Course → Course) : (s.modCourse c f).bootStep = s.bootStep := rfl
@[simp] theorem modCourse_bootCode (s : State) (c : CRef) (f : Course → Course) : (s.modCourse c f).bootCode = s.bootCode := rfl
@[simp] theorem modCourse_bootDetail (s : State) (c : CRef) (f : Course → Course) : (s.modCourse c f).bootDetail = s.bootDetail := rfl
@[simp] theorem modCourse_boot (s : State) (c : CRef) (f : Course → Course) : (s.modCourse c f).boot = s.boot := rfl
@[simp] theorem modCourse_computeOn (s : State) (c : CRef) (f : Course → Course) : (s.modCourse c f).computeOn = s.computeOn := rfl
@[simp] theorem modCourse_throttled (s : State) (c : CRef) (f : Course → Course) : (s.modCourse c f).throttled = s.throttled := rfl
@[simp] theorem modCourse_clk (s : State) (c : CRef) (f : Course → Course) : (s.modCourse c f).clk = s.clk := rfl
@[simp] theorem modCourse_ioClk (s : State) (c : CRef) (f : Course → Course) : (s.modCourse c f).ioClk = s.ioClk := rfl
@[simp] theorem modCourse_dieCtr0 (s : State) (c : CRef) (f : Course → Course) : (s.modCourse c f).dieCtr0 = s.dieCtr0 := rfl
@[simp] theorem modCourse_mem (s : State) (c : CRef) (f : Course → Course) : (s.modCourse c f).mem = s.mem := rfl
@[simp] theorem modCourse_memPsn (s : State) (c : CRef) (f : Course → Course) : (s.modCourse c f).memPsn = s.memPsn := rfl
@[simp] theorem modCourse_lines (s : State) (c : CRef) (f : Course → Course) : (s.modCourse c f).lines = s.lines := rfl
@[simp] theorem modCourse_dirty (s : State) (c : CRef) (f : Course → Course) : (s.modCourse c f).dirty = s.dirty := rfl
@[simp] theorem modCourse_sliceLast (s : State) (c : CRef) (f : Course → Course) : (s.modCourse c f).sliceLast = s.sliceLast := rfl
@[simp] theorem modCourse_hostMem (s : State) (c : CRef) (f : Course → Course) : (s.modCourse c f).hostMem = s.hostMem := rfl
@[simp] theorem modCourse_hostPsn (s : State) (c : CRef) (f : Course → Course) : (s.modCourse c f).hostPsn = s.hostPsn := rfl
@[simp] theorem modCourse_cells (s : State) (c : CRef) (f : Course → Course) : (s.modCourse c f).cells = s.cells := rfl
@[simp] theorem modCourse_proms (s : State) (c : CRef) (f : Course → Course) : (s.modCourse c f).proms = s.proms := rfl
@[simp] theorem modCourse_accesses (s : State) (c : CRef) (f : Course → Course) : (s.modCourse c f).accesses = s.accesses := rfl
@[simp] theorem modCourse_early (s : State) (c : CRef) (f : Course → Course) : (s.modCourse c f).early = s.early := rfl
@[simp] theorem modCourse_nextId (s : State) (c : CRef) (f : Course → Course) : (s.modCourse c f).nextId = s.nextId := rfl
@[simp] theorem modCourse_l1 (s : State) (c : CRef) (f : Course → Course) : (s.modCourse c f).l1 = s.l1 := rfl
@[simp] theorem modCourse_icache (s : State) (c : CRef) (f : Course → Course) : (s.modCourse c f).icache = s.icache := rfl
@[simp] theorem modCourse_tlbs (s : State) (c : CRef) (f : Course → Course) : (s.modCourse c f).tlbs = s.tlbs := rfl
@[simp] theorem modCourse_gates (s : State) (c : CRef) (f : Course → Course) : (s.modCourse c f).gates = s.gates := rfl
@[simp] theorem modCourse_faults (s : State) (c : CRef) (f : Course → Course) : (s.modCourse c f).faults = s.faults := rfl
@[simp] theorem modCourse_pfGen (s : State) (c : CRef) (f : Course → Course) : (s.modCourse c f).pfGen = s.pfGen := rfl
@[simp] theorem modCourse_cmCount (s : State) (c : CRef) (f : Course → Course) : (s.modCourse c f).cmCount = s.cmCount := rfl
@[simp] theorem modCourse_fold (s : State) (c : CRef) (f : Course → Course) : (s.modCourse c f).fold = s.fold := rfl
@[simp] theorem modCourse_columns (s : State) (c : CRef) (f : Course → Course) : (s.modCourse c f).columns = s.columns := rfl
@[simp] theorem modCourse_columnsGone (s : State) (c : CRef) (f : Course → Course) : (s.modCourse c f).columnsGone = s.columnsGone := rfl
@[simp] theorem modCourse_folds (s : State) (c : CRef) (f : Course → Course) : (s.modCourse c f).folds = s.folds := rfl
@[simp] theorem modCourse_hbmFree (s : State) (c : CRef) (f : Course → Course) : (s.modCourse c f).hbmFree = s.hbmFree := rfl
@[simp] theorem modCourse_pool (s : State) (c : CRef) (f : Course → Course) : (s.modCourse c f).pool = s.pool := rfl
@[simp] theorem modCourse_ueCol (s : State) (c : CRef) (f : Course → Course) : (s.modCourse c f).ueCol = s.ueCol := rfl
@[simp] theorem modCourse_ioPsn (s : State) (c : CRef) (f : Course → Course) : (s.modCourse c f).ioPsn = s.ioPsn := rfl
@[simp] theorem modCourse_cores (s : State) (c : CRef) (f : Course → Course) : (s.modCourse c f).cores = s.cores := rfl
@[simp] theorem modCourse_svrBase (s : State) (c : CRef) (f : Course → Course) : (s.modCourse c f).svrBase = s.svrBase := rfl
@[simp] theorem modCourse_svrHead (s : State) (c : CRef) (f : Course → Course) : (s.modCourse c f).svrHead = s.svrHead := rfl
@[simp] theorem modCourse_svrTail (s : State) (c : CRef) (f : Course → Course) : (s.modCourse c f).svrTail = s.svrTail := rfl
@[simp] theorem modCourse_svcCore (s : State) (c : CRef) (f : Course → Course) : (s.modCourse c f).svcCore = s.svcCore := rfl
@[simp] theorem modCourse_svcRecs (s : State) (c : CRef) (f : Course → Course) : (s.modCourse c f).svcRecs = s.svcRecs := rfl
@[simp] theorem modCourse_svcTaken (s : State) (c : CRef) (f : Course → Course) : (s.modCourse c f).svcTaken = s.svcTaken := rfl
@[simp] theorem modCourse_launches (s : State) (c : CRef) (f : Course → Course) : (s.modCourse c f).launches = s.launches := rfl
@[simp] theorem modCourse_amsgFly (s : State) (c : CRef) (f : Course → Course) : (s.modCourse c f).amsgFly = s.amsgFly := rfl
@[simp] theorem modCourse_vds (s : State) (c : CRef) (f : Course → Course) : (s.modCourse c f).vds = s.vds := rfl
@[simp] theorem modCourse_remap (s : State) (c : CRef) (f : Course → Course) : (s.modCourse c f).remap = s.remap := rfl
@[simp] theorem modCourse_kickMap (s : State) (c : CRef) (f : Course → Course) : (s.modCourse c f).kickMap = s.kickMap := rfl
@[simp] theorem modCourse_qcbs (s : State) (c : CRef) (f : Course → Course) : (s.modCourse c f).qcbs = s.qcbs := rfl
@[simp] theorem modCourse_sets (s : State) (c : CRef) (f : Course → Course) : (s.modCourse c f).sets = s.sets := rfl
@[simp] theorem modCourse_kills (s : State) (c : CRef) (f : Course → Course) : (s.modCourse c f).kills = s.kills := rfl
@[simp] theorem modCourse_passesDue (s : State) (c : CRef) (f : Course → Course) : (s.modCourse c f).passesDue = s.passesDue := rfl
@[simp] theorem modCourse_passAt (s : State) (c : CRef) (f : Course → Course) : (s.modCourse c f).passAt = s.passAt := rfl
@[simp] theorem modCourse_ctxParts (s : State) (c : CRef) (f : Course → Course) : (s.modCourse c f).ctxParts = s.ctxParts := rfl
@[simp] theorem modCourse_qpFallback (s : State) (c : CRef) (f : Course → Course) : (s.modCourse c f).qpFallback = s.qpFallback := rfl
@[simp] theorem modCourse_qpCursor (s : State) (c : CRef) (f : Course → Course) : (s.modCourse c f).qpCursor = s.qpCursor := rfl
@[simp] theorem modCourse_mbcmd (s : State) (c : CRef) (f : Course → Course) : (s.modCourse c f).mbcmd = s.mbcmd := rfl
@[simp] theorem modCourse_mbBusy (s : State) (c : CRef) (f : Course → Course) : (s.modCourse c f).mbBusy = s.mbBusy := rfl
@[simp] theorem modCourse_mbStatus (s : State) (c : CRef) (f : Course → Course) : (s.modCourse c f).mbStatus = s.mbStatus := rfl
@[simp] theorem modCourse_mbOut (s : State) (c : CRef) (f : Course → Course) : (s.modCourse c f).mbOut = s.mbOut := rfl
@[simp] theorem modCourse_evBase (s : State) (c : CRef) (f : Course → Course) : (s.modCourse c f).evBase = s.evBase := rfl
@[simp] theorem modCourse_evSize (s : State) (c : CRef) (f : Course → Course) : (s.modCourse c f).evSize = s.evSize := rfl
@[simp] theorem modCourse_evTail (s : State) (c : CRef) (f : Course → Course) : (s.modCourse c f).evTail = s.evTail := rfl
@[simp] theorem modCourse_evHead (s : State) (c : CRef) (f : Course → Course) : (s.modCourse c f).evHead = s.evHead := rfl
@[simp] theorem modCourse_evWait (s : State) (c : CRef) (f : Course → Course) : (s.modCourse c f).evWait = s.evWait := rfl
@[simp] theorem modCourse_fbcmd (s : State) (c : CRef) (f : Course → Course) : (s.modCourse c f).fbcmd = s.fbcmd := rfl
@[simp] theorem modCourse_fbBusy (s : State) (c : CRef) (f : Course → Course) : (s.modCourse c f).fbBusy = s.fbBusy := rfl
@[simp] theorem modCourse_fbStatus (s : State) (c : CRef) (f : Course → Course) : (s.modCourse c f).fbStatus = s.fbStatus := rfl
@[simp] theorem modCourse_fbOut (s : State) (c : CRef) (f : Course → Course) : (s.modCourse c f).fbOut = s.fbOut := rfl
@[simp] theorem modCourse_cecnt (s : State) (c : CRef) (f : Course → Course) : (s.modCourse c f).cecnt = s.cecnt := rfl
@[simp] theorem modCourse_uecnt (s : State) (c : CRef) (f : Course → Course) : (s.modCourse c f).uecnt = s.uecnt := rfl
@[simp] theorem modCourse_strikes (s : State) (c : CRef) (f : Course → Course) : (s.modCourse c f).strikes = s.strikes := rfl
@[simp] theorem modCourse_degrade (s : State) (c : CRef) (f : Course → Course) : (s.modCourse c f).degrade = s.degrade := rfl
@[simp] theorem modCourse_rrcnt (s : State) (c : CRef) (f : Course → Course) : (s.modCourse c f).rrcnt = s.rrcnt := rfl
@[simp] theorem modCourse_cecthr (s : State) (c : CRef) (f : Course → Course) : (s.modCourse c f).cecthr = s.cecthr := rfl
@[simp] theorem modCourse_discards (s : State) (c : CRef) (f : Course → Course) : (s.modCourse c f).discards = s.discards := rfl
@[simp] theorem modCourse_capctl (s : State) (c : CRef) (f : Course → Course) : (s.modCourse c f).capctl = s.capctl := rfl
@[simp] theorem modCourse_capbase (s : State) (c : CRef) (f : Course → Course) : (s.modCourse c f).capbase = s.capbase := rfl
@[simp] theorem modCourse_capsize (s : State) (c : CRef) (f : Course → Course) : (s.modCourse c f).capsize = s.capsize := rfl
@[simp] theorem modCourse_captail (s : State) (c : CRef) (f : Course → Course) : (s.modCourse c f).captail = s.captail := rfl
@[simp] theorem modCourse_caphead (s : State) (c : CRef) (f : Course → Course) : (s.modCourse c f).caphead = s.caphead := rfl
@[simp] theorem modCourse_replayed (s : State) (c : CRef) (f : Course → Course) : (s.modCourse c f).replayed = s.replayed := rfl
@[simp] theorem modCourse_pfHost (s : State) (c : CRef) (f : Course → Course) : (s.modCourse c f).pfHost = s.pfHost := rfl
@[simp] theorem modCourse_fwSvn (s : State) (c : CRef) (f : Course → Course) : (s.modCourse c f).fwSvn = s.fwSvn := rfl
@[simp] theorem modCourse_cfgSvn (s : State) (c : CRef) (f : Course → Course) : (s.modCourse c f).cfgSvn = s.cfgSvn := rfl
@[simp] theorem modCourse_fwDigest (s : State) (c : CRef) (f : Course → Course) : (s.modCourse c f).fwDigest = s.fwDigest := rfl
@[simp] theorem modCourse_cfgDigest (s : State) (c : CRef) (f : Course → Course) : (s.modCourse c f).cfgDigest = s.cfgDigest := rfl
@[simp] theorem modCourse_nonce (s : State) (c : CRef) (f : Course → Course) : (s.modCourse c f).nonce = s.nonce := rfl
@[simp] theorem modCourse_attaddr (s : State) (c : CRef) (f : Course → Course) : (s.modCourse c f).attaddr = s.attaddr := rfl
@[simp] theorem modCourse_attstat (s : State) (c : CRef) (f : Course → Course) : (s.modCourse c f).attstat = s.attstat := rfl
@[simp] theorem modCourse_pwrlim (s : State) (c : CRef) (f : Course → Course) : (s.modCourse c f).pwrlim = s.pwrlim := rfl
@[simp] theorem modCourse_pwrnow (s : State) (c : CRef) (f : Course → Course) : (s.modCourse c f).pwrnow = s.pwrnow := rfl
@[simp] theorem modCourse_tjmax (s : State) (c : CRef) (f : Course → Course) : (s.modCourse c f).tjmax = s.tjmax := rfl
@[simp] theorem modCourse_junction (s : State) (c : CRef) (f : Course → Course) : (s.modCourse c f).junction = s.junction := rfl
@[simp] theorem modCourse_fabricId (s : State) (c : CRef) (f : Course → Course) : (s.modCourse c f).fabricId = s.fabricId := rfl
@[simp] theorem modCourse_qcbBase (s : State) (c : CRef) (f : Course → Course) : (s.modCourse c f).qcbBase = s.qcbBase := rfl
@[simp] theorem modCourse_contribBase (s : State) (c : CRef) (f : Course → Course) : (s.modCourse c f).contribBase = s.contribBase := rfl
@[simp] theorem modCourse_poolLo (s : State) (c : CRef) (f : Course → Course) : (s.modCourse c f).poolLo = s.poolLo := rfl
@[simp] theorem modCourse_poolHi (s : State) (c : CRef) (f : Course → Course) : (s.modCourse c f).poolHi = s.poolHi := rfl
@[simp] theorem modCourse_links (s : State) (c : CRef) (f : Course → Course) : (s.modCourse c f).links = s.links := rfl
@[simp] theorem modCourse_routes (s : State) (c : CRef) (f : Course → Course) : (s.modCourse c f).routes = s.routes := rfl
@[simp] theorem modCourse_endpoints (s : State) (c : CRef) (f : Course → Course) : (s.modCourse c f).endpoints = s.endpoints := rfl
@[simp] theorem modCourse_groups (s : State) (c : CRef) (f : Course → Course) : (s.modCourse c f).groups = s.groups := rfl
@[simp] theorem modCourse_outgoing (s : State) (c : CRef) (f : Course → Course) : (s.modCourse c f).outgoing = s.outgoing := rfl
@[simp] theorem modCourse_nextXid (s : State) (c : CRef) (f : Course → Course) : (s.modCourse c f).nextXid = s.nextXid := rfl
@[simp] theorem modCourse_forwards (s : State) (c : CRef) (f : Course → Course) : (s.modCourse c f).forwards = s.forwards := rfl
@[simp] theorem modCourse_inbound (s : State) (c : CRef) (f : Course → Course) : (s.modCourse c f).inbound = s.inbound := rfl
@[simp] theorem modCourse_xmit (s : State) (c : CRef) (f : Course → Course) : (s.modCourse c f).xmit = s.xmit := rfl
@[simp] theorem modCourse_contribs (s : State) (c : CRef) (f : Course → Course) : (s.modCourse c f).contribs = s.contribs := rfl
@[simp] theorem modCourse_contribStats (s : State) (c : CRef) (f : Course → Course) : (s.modCourse c f).contribStats = s.contribStats := rfl
@[simp] theorem modCourse_summed (s : State) (c : CRef) (f : Course → Course) : (s.modCourse c f).summed = s.summed := rfl
@[simp] theorem modCourse_nextCn (s : State) (c : CRef) (f : Course → Course) : (s.modCourse c f).nextCn = s.nextCn := rfl
@[simp] theorem modCourse_gathers (s : State) (c : CRef) (f : Course → Course) : (s.modCourse c f).gathers = s.gathers := rfl
@[simp] theorem modCourse_seen (s : State) (c : CRef) (f : Course → Course) : (s.modCourse c f).seen = s.seen := rfl
@[simp] theorem modCourse_hostOut (s : State) (c : CRef) (f : Course → Course) : (s.modCourse c f).hostOut = s.hostOut := rfl
@[simp] theorem modCourse_hostUp (s : State) (c : CRef) (f : Course → Course) : (s.modCourse c f).hostUp = s.hostUp := rfl
@[simp] theorem modCourse_hostWait (s : State) (c : CRef) (f : Course → Course) : (s.modCourse c f).hostWait = s.hostWait := rfl

@[simp] theorem setTruss_agenda (s : State) (n : Nat) (t : Truss) : (s.setTruss n t).agenda = s.agenda := rfl
@[simp] theorem setTruss_cur (s : State) (n : Nat) (t : Truss) : (s.setTruss n t).cur = s.cur := rfl
@[simp] theorem setTruss_tick (s : State) (n : Nat) (t : Truss) : (s.setTruss n t).tick = s.tick := rfl
@[simp] theorem setTruss_power (s : State) (n : Nat) (t : Truss) : (s.setTruss n t).power = s.power := rfl
@[simp] theorem setTruss_bootStep (s : State) (n : Nat) (t : Truss) : (s.setTruss n t).bootStep = s.bootStep := rfl
@[simp] theorem setTruss_bootCode (s : State) (n : Nat) (t : Truss) : (s.setTruss n t).bootCode = s.bootCode := rfl
@[simp] theorem setTruss_bootDetail (s : State) (n : Nat) (t : Truss) : (s.setTruss n t).bootDetail = s.bootDetail := rfl
@[simp] theorem setTruss_boot (s : State) (n : Nat) (t : Truss) : (s.setTruss n t).boot = s.boot := rfl
@[simp] theorem setTruss_computeOn (s : State) (n : Nat) (t : Truss) : (s.setTruss n t).computeOn = s.computeOn := rfl
@[simp] theorem setTruss_throttled (s : State) (n : Nat) (t : Truss) : (s.setTruss n t).throttled = s.throttled := rfl
@[simp] theorem setTruss_clk (s : State) (n : Nat) (t : Truss) : (s.setTruss n t).clk = s.clk := rfl
@[simp] theorem setTruss_ioClk (s : State) (n : Nat) (t : Truss) : (s.setTruss n t).ioClk = s.ioClk := rfl
@[simp] theorem setTruss_dieCtr0 (s : State) (n : Nat) (t : Truss) : (s.setTruss n t).dieCtr0 = s.dieCtr0 := rfl
@[simp] theorem setTruss_mem (s : State) (n : Nat) (t : Truss) : (s.setTruss n t).mem = s.mem := rfl
@[simp] theorem setTruss_memPsn (s : State) (n : Nat) (t : Truss) : (s.setTruss n t).memPsn = s.memPsn := rfl
@[simp] theorem setTruss_lines (s : State) (n : Nat) (t : Truss) : (s.setTruss n t).lines = s.lines := rfl
@[simp] theorem setTruss_dirty (s : State) (n : Nat) (t : Truss) : (s.setTruss n t).dirty = s.dirty := rfl
@[simp] theorem setTruss_sliceLast (s : State) (n : Nat) (t : Truss) : (s.setTruss n t).sliceLast = s.sliceLast := rfl
@[simp] theorem setTruss_hostMem (s : State) (n : Nat) (t : Truss) : (s.setTruss n t).hostMem = s.hostMem := rfl
@[simp] theorem setTruss_hostPsn (s : State) (n : Nat) (t : Truss) : (s.setTruss n t).hostPsn = s.hostPsn := rfl
@[simp] theorem setTruss_cells (s : State) (n : Nat) (t : Truss) : (s.setTruss n t).cells = s.cells := rfl
@[simp] theorem setTruss_proms (s : State) (n : Nat) (t : Truss) : (s.setTruss n t).proms = s.proms := rfl
@[simp] theorem setTruss_accesses (s : State) (n : Nat) (t : Truss) : (s.setTruss n t).accesses = s.accesses := rfl
@[simp] theorem setTruss_early (s : State) (n : Nat) (t : Truss) : (s.setTruss n t).early = s.early := rfl
@[simp] theorem setTruss_nextId (s : State) (n : Nat) (t : Truss) : (s.setTruss n t).nextId = s.nextId := rfl
@[simp] theorem setTruss_l1 (s : State) (n : Nat) (t : Truss) : (s.setTruss n t).l1 = s.l1 := rfl
@[simp] theorem setTruss_icache (s : State) (n : Nat) (t : Truss) : (s.setTruss n t).icache = s.icache := rfl
@[simp] theorem setTruss_tlbs (s : State) (n : Nat) (t : Truss) : (s.setTruss n t).tlbs = s.tlbs := rfl
@[simp] theorem setTruss_gates (s : State) (n : Nat) (t : Truss) : (s.setTruss n t).gates = s.gates := rfl
@[simp] theorem setTruss_faults (s : State) (n : Nat) (t : Truss) : (s.setTruss n t).faults = s.faults := rfl
@[simp] theorem setTruss_pfGen (s : State) (n : Nat) (t : Truss) : (s.setTruss n t).pfGen = s.pfGen := rfl
@[simp] theorem setTruss_cmCount (s : State) (n : Nat) (t : Truss) : (s.setTruss n t).cmCount = s.cmCount := rfl
@[simp] theorem setTruss_fold (s : State) (n : Nat) (t : Truss) : (s.setTruss n t).fold = s.fold := rfl
@[simp] theorem setTruss_columns (s : State) (n : Nat) (t : Truss) : (s.setTruss n t).columns = s.columns := rfl
@[simp] theorem setTruss_columnsGone (s : State) (n : Nat) (t : Truss) : (s.setTruss n t).columnsGone = s.columnsGone := rfl
@[simp] theorem setTruss_folds (s : State) (n : Nat) (t : Truss) : (s.setTruss n t).folds = s.folds := rfl
@[simp] theorem setTruss_hbmFree (s : State) (n : Nat) (t : Truss) : (s.setTruss n t).hbmFree = s.hbmFree := rfl
@[simp] theorem setTruss_pool (s : State) (n : Nat) (t : Truss) : (s.setTruss n t).pool = s.pool := rfl
@[simp] theorem setTruss_ueCol (s : State) (n : Nat) (t : Truss) : (s.setTruss n t).ueCol = s.ueCol := rfl
@[simp] theorem setTruss_ioPsn (s : State) (n : Nat) (t : Truss) : (s.setTruss n t).ioPsn = s.ioPsn := rfl
@[simp] theorem setTruss_cores (s : State) (n : Nat) (t : Truss) : (s.setTruss n t).cores = s.cores := rfl
@[simp] theorem setTruss_svrBase (s : State) (n : Nat) (t : Truss) : (s.setTruss n t).svrBase = s.svrBase := rfl
@[simp] theorem setTruss_svrHead (s : State) (n : Nat) (t : Truss) : (s.setTruss n t).svrHead = s.svrHead := rfl
@[simp] theorem setTruss_svrTail (s : State) (n : Nat) (t : Truss) : (s.setTruss n t).svrTail = s.svrTail := rfl
@[simp] theorem setTruss_svcCore (s : State) (n : Nat) (t : Truss) : (s.setTruss n t).svcCore = s.svcCore := rfl
@[simp] theorem setTruss_svcRecs (s : State) (n : Nat) (t : Truss) : (s.setTruss n t).svcRecs = s.svcRecs := rfl
@[simp] theorem setTruss_svcTaken (s : State) (n : Nat) (t : Truss) : (s.setTruss n t).svcTaken = s.svcTaken := rfl
@[simp] theorem setTruss_launches (s : State) (n : Nat) (t : Truss) : (s.setTruss n t).launches = s.launches := rfl
@[simp] theorem setTruss_amsgFly (s : State) (n : Nat) (t : Truss) : (s.setTruss n t).amsgFly = s.amsgFly := rfl
@[simp] theorem setTruss_vds (s : State) (n : Nat) (t : Truss) : (s.setTruss n t).vds = s.vds := rfl
@[simp] theorem setTruss_remap (s : State) (n : Nat) (t : Truss) : (s.setTruss n t).remap = s.remap := rfl
@[simp] theorem setTruss_kickMap (s : State) (n : Nat) (t : Truss) : (s.setTruss n t).kickMap = s.kickMap := rfl
@[simp] theorem setTruss_qcbs (s : State) (n : Nat) (t : Truss) : (s.setTruss n t).qcbs = s.qcbs := rfl
@[simp] theorem setTruss_sets (s : State) (n : Nat) (t : Truss) : (s.setTruss n t).sets = s.sets := rfl
@[simp] theorem setTruss_kills (s : State) (n : Nat) (t : Truss) : (s.setTruss n t).kills = s.kills := rfl
@[simp] theorem setTruss_passesDue (s : State) (n : Nat) (t : Truss) : (s.setTruss n t).passesDue = s.passesDue := rfl
@[simp] theorem setTruss_passAt (s : State) (n : Nat) (t : Truss) : (s.setTruss n t).passAt = s.passAt := rfl
@[simp] theorem setTruss_ctxParts (s : State) (n : Nat) (t : Truss) : (s.setTruss n t).ctxParts = s.ctxParts := rfl
@[simp] theorem setTruss_qpFallback (s : State) (n : Nat) (t : Truss) : (s.setTruss n t).qpFallback = s.qpFallback := rfl
@[simp] theorem setTruss_qpCursor (s : State) (n : Nat) (t : Truss) : (s.setTruss n t).qpCursor = s.qpCursor := rfl
@[simp] theorem setTruss_mbcmd (s : State) (n : Nat) (t : Truss) : (s.setTruss n t).mbcmd = s.mbcmd := rfl
@[simp] theorem setTruss_mbBusy (s : State) (n : Nat) (t : Truss) : (s.setTruss n t).mbBusy = s.mbBusy := rfl
@[simp] theorem setTruss_mbStatus (s : State) (n : Nat) (t : Truss) : (s.setTruss n t).mbStatus = s.mbStatus := rfl
@[simp] theorem setTruss_mbOut (s : State) (n : Nat) (t : Truss) : (s.setTruss n t).mbOut = s.mbOut := rfl
@[simp] theorem setTruss_evBase (s : State) (n : Nat) (t : Truss) : (s.setTruss n t).evBase = s.evBase := rfl
@[simp] theorem setTruss_evSize (s : State) (n : Nat) (t : Truss) : (s.setTruss n t).evSize = s.evSize := rfl
@[simp] theorem setTruss_evTail (s : State) (n : Nat) (t : Truss) : (s.setTruss n t).evTail = s.evTail := rfl
@[simp] theorem setTruss_evHead (s : State) (n : Nat) (t : Truss) : (s.setTruss n t).evHead = s.evHead := rfl
@[simp] theorem setTruss_evWait (s : State) (n : Nat) (t : Truss) : (s.setTruss n t).evWait = s.evWait := rfl
@[simp] theorem setTruss_fbcmd (s : State) (n : Nat) (t : Truss) : (s.setTruss n t).fbcmd = s.fbcmd := rfl
@[simp] theorem setTruss_fbBusy (s : State) (n : Nat) (t : Truss) : (s.setTruss n t).fbBusy = s.fbBusy := rfl
@[simp] theorem setTruss_fbStatus (s : State) (n : Nat) (t : Truss) : (s.setTruss n t).fbStatus = s.fbStatus := rfl
@[simp] theorem setTruss_fbOut (s : State) (n : Nat) (t : Truss) : (s.setTruss n t).fbOut = s.fbOut := rfl
@[simp] theorem setTruss_cecnt (s : State) (n : Nat) (t : Truss) : (s.setTruss n t).cecnt = s.cecnt := rfl
@[simp] theorem setTruss_uecnt (s : State) (n : Nat) (t : Truss) : (s.setTruss n t).uecnt = s.uecnt := rfl
@[simp] theorem setTruss_strikes (s : State) (n : Nat) (t : Truss) : (s.setTruss n t).strikes = s.strikes := rfl
@[simp] theorem setTruss_degrade (s : State) (n : Nat) (t : Truss) : (s.setTruss n t).degrade = s.degrade := rfl
@[simp] theorem setTruss_rrcnt (s : State) (n : Nat) (t : Truss) : (s.setTruss n t).rrcnt = s.rrcnt := rfl
@[simp] theorem setTruss_cecthr (s : State) (n : Nat) (t : Truss) : (s.setTruss n t).cecthr = s.cecthr := rfl
@[simp] theorem setTruss_discards (s : State) (n : Nat) (t : Truss) : (s.setTruss n t).discards = s.discards := rfl
@[simp] theorem setTruss_capctl (s : State) (n : Nat) (t : Truss) : (s.setTruss n t).capctl = s.capctl := rfl
@[simp] theorem setTruss_capbase (s : State) (n : Nat) (t : Truss) : (s.setTruss n t).capbase = s.capbase := rfl
@[simp] theorem setTruss_capsize (s : State) (n : Nat) (t : Truss) : (s.setTruss n t).capsize = s.capsize := rfl
@[simp] theorem setTruss_captail (s : State) (n : Nat) (t : Truss) : (s.setTruss n t).captail = s.captail := rfl
@[simp] theorem setTruss_caphead (s : State) (n : Nat) (t : Truss) : (s.setTruss n t).caphead = s.caphead := rfl
@[simp] theorem setTruss_replayed (s : State) (n : Nat) (t : Truss) : (s.setTruss n t).replayed = s.replayed := rfl
@[simp] theorem setTruss_pfHost (s : State) (n : Nat) (t : Truss) : (s.setTruss n t).pfHost = s.pfHost := rfl
@[simp] theorem setTruss_fwSvn (s : State) (n : Nat) (t : Truss) : (s.setTruss n t).fwSvn = s.fwSvn := rfl
@[simp] theorem setTruss_cfgSvn (s : State) (n : Nat) (t : Truss) : (s.setTruss n t).cfgSvn = s.cfgSvn := rfl
@[simp] theorem setTruss_fwDigest (s : State) (n : Nat) (t : Truss) : (s.setTruss n t).fwDigest = s.fwDigest := rfl
@[simp] theorem setTruss_cfgDigest (s : State) (n : Nat) (t : Truss) : (s.setTruss n t).cfgDigest = s.cfgDigest := rfl
@[simp] theorem setTruss_nonce (s : State) (n : Nat) (t : Truss) : (s.setTruss n t).nonce = s.nonce := rfl
@[simp] theorem setTruss_attaddr (s : State) (n : Nat) (t : Truss) : (s.setTruss n t).attaddr = s.attaddr := rfl
@[simp] theorem setTruss_attstat (s : State) (n : Nat) (t : Truss) : (s.setTruss n t).attstat = s.attstat := rfl
@[simp] theorem setTruss_pwrlim (s : State) (n : Nat) (t : Truss) : (s.setTruss n t).pwrlim = s.pwrlim := rfl
@[simp] theorem setTruss_pwrnow (s : State) (n : Nat) (t : Truss) : (s.setTruss n t).pwrnow = s.pwrnow := rfl
@[simp] theorem setTruss_tjmax (s : State) (n : Nat) (t : Truss) : (s.setTruss n t).tjmax = s.tjmax := rfl
@[simp] theorem setTruss_junction (s : State) (n : Nat) (t : Truss) : (s.setTruss n t).junction = s.junction := rfl
@[simp] theorem setTruss_fabricId (s : State) (n : Nat) (t : Truss) : (s.setTruss n t).fabricId = s.fabricId := rfl
@[simp] theorem setTruss_qcbBase (s : State) (n : Nat) (t : Truss) : (s.setTruss n t).qcbBase = s.qcbBase := rfl
@[simp] theorem setTruss_contribBase (s : State) (n : Nat) (t : Truss) : (s.setTruss n t).contribBase = s.contribBase := rfl
@[simp] theorem setTruss_poolLo (s : State) (n : Nat) (t : Truss) : (s.setTruss n t).poolLo = s.poolLo := rfl
@[simp] theorem setTruss_poolHi (s : State) (n : Nat) (t : Truss) : (s.setTruss n t).poolHi = s.poolHi := rfl
@[simp] theorem setTruss_links (s : State) (n : Nat) (t : Truss) : (s.setTruss n t).links = s.links := rfl
@[simp] theorem setTruss_routes (s : State) (n : Nat) (t : Truss) : (s.setTruss n t).routes = s.routes := rfl
@[simp] theorem setTruss_endpoints (s : State) (n : Nat) (t : Truss) : (s.setTruss n t).endpoints = s.endpoints := rfl
@[simp] theorem setTruss_groups (s : State) (n : Nat) (t : Truss) : (s.setTruss n t).groups = s.groups := rfl
@[simp] theorem setTruss_outgoing (s : State) (n : Nat) (t : Truss) : (s.setTruss n t).outgoing = s.outgoing := rfl
@[simp] theorem setTruss_nextXid (s : State) (n : Nat) (t : Truss) : (s.setTruss n t).nextXid = s.nextXid := rfl
@[simp] theorem setTruss_forwards (s : State) (n : Nat) (t : Truss) : (s.setTruss n t).forwards = s.forwards := rfl
@[simp] theorem setTruss_inbound (s : State) (n : Nat) (t : Truss) : (s.setTruss n t).inbound = s.inbound := rfl
@[simp] theorem setTruss_xmit (s : State) (n : Nat) (t : Truss) : (s.setTruss n t).xmit = s.xmit := rfl
@[simp] theorem setTruss_contribs (s : State) (n : Nat) (t : Truss) : (s.setTruss n t).contribs = s.contribs := rfl
@[simp] theorem setTruss_contribStats (s : State) (n : Nat) (t : Truss) : (s.setTruss n t).contribStats = s.contribStats := rfl
@[simp] theorem setTruss_summed (s : State) (n : Nat) (t : Truss) : (s.setTruss n t).summed = s.summed := rfl
@[simp] theorem setTruss_nextCn (s : State) (n : Nat) (t : Truss) : (s.setTruss n t).nextCn = s.nextCn := rfl
@[simp] theorem setTruss_gathers (s : State) (n : Nat) (t : Truss) : (s.setTruss n t).gathers = s.gathers := rfl
@[simp] theorem setTruss_seen (s : State) (n : Nat) (t : Truss) : (s.setTruss n t).seen = s.seen := rfl
@[simp] theorem setTruss_hostOut (s : State) (n : Nat) (t : Truss) : (s.setTruss n t).hostOut = s.hostOut := rfl
@[simp] theorem setTruss_hostUp (s : State) (n : Nat) (t : Truss) : (s.setTruss n t).hostUp = s.hostUp := rfl
@[simp] theorem setTruss_hostWait (s : State) (n : Nat) (t : Truss) : (s.setTruss n t).hostWait = s.hostWait := rfl

@[simp] theorem setCourse_agenda (s : State) (c : CRef) (k : Course) : (s.setCourse c k).agenda = s.agenda := rfl
@[simp] theorem setCourse_cur (s : State) (c : CRef) (k : Course) : (s.setCourse c k).cur = s.cur := rfl
@[simp] theorem setCourse_tick (s : State) (c : CRef) (k : Course) : (s.setCourse c k).tick = s.tick := rfl
@[simp] theorem setCourse_power (s : State) (c : CRef) (k : Course) : (s.setCourse c k).power = s.power := rfl
@[simp] theorem setCourse_bootStep (s : State) (c : CRef) (k : Course) : (s.setCourse c k).bootStep = s.bootStep := rfl
@[simp] theorem setCourse_bootCode (s : State) (c : CRef) (k : Course) : (s.setCourse c k).bootCode = s.bootCode := rfl
@[simp] theorem setCourse_bootDetail (s : State) (c : CRef) (k : Course) : (s.setCourse c k).bootDetail = s.bootDetail := rfl
@[simp] theorem setCourse_boot (s : State) (c : CRef) (k : Course) : (s.setCourse c k).boot = s.boot := rfl
@[simp] theorem setCourse_computeOn (s : State) (c : CRef) (k : Course) : (s.setCourse c k).computeOn = s.computeOn := rfl
@[simp] theorem setCourse_throttled (s : State) (c : CRef) (k : Course) : (s.setCourse c k).throttled = s.throttled := rfl
@[simp] theorem setCourse_clk (s : State) (c : CRef) (k : Course) : (s.setCourse c k).clk = s.clk := rfl
@[simp] theorem setCourse_ioClk (s : State) (c : CRef) (k : Course) : (s.setCourse c k).ioClk = s.ioClk := rfl
@[simp] theorem setCourse_dieCtr0 (s : State) (c : CRef) (k : Course) : (s.setCourse c k).dieCtr0 = s.dieCtr0 := rfl
@[simp] theorem setCourse_mem (s : State) (c : CRef) (k : Course) : (s.setCourse c k).mem = s.mem := rfl
@[simp] theorem setCourse_memPsn (s : State) (c : CRef) (k : Course) : (s.setCourse c k).memPsn = s.memPsn := rfl
@[simp] theorem setCourse_lines (s : State) (c : CRef) (k : Course) : (s.setCourse c k).lines = s.lines := rfl
@[simp] theorem setCourse_dirty (s : State) (c : CRef) (k : Course) : (s.setCourse c k).dirty = s.dirty := rfl
@[simp] theorem setCourse_sliceLast (s : State) (c : CRef) (k : Course) : (s.setCourse c k).sliceLast = s.sliceLast := rfl
@[simp] theorem setCourse_hostMem (s : State) (c : CRef) (k : Course) : (s.setCourse c k).hostMem = s.hostMem := rfl
@[simp] theorem setCourse_hostPsn (s : State) (c : CRef) (k : Course) : (s.setCourse c k).hostPsn = s.hostPsn := rfl
@[simp] theorem setCourse_cells (s : State) (c : CRef) (k : Course) : (s.setCourse c k).cells = s.cells := rfl
@[simp] theorem setCourse_proms (s : State) (c : CRef) (k : Course) : (s.setCourse c k).proms = s.proms := rfl
@[simp] theorem setCourse_accesses (s : State) (c : CRef) (k : Course) : (s.setCourse c k).accesses = s.accesses := rfl
@[simp] theorem setCourse_early (s : State) (c : CRef) (k : Course) : (s.setCourse c k).early = s.early := rfl
@[simp] theorem setCourse_nextId (s : State) (c : CRef) (k : Course) : (s.setCourse c k).nextId = s.nextId := rfl
@[simp] theorem setCourse_l1 (s : State) (c : CRef) (k : Course) : (s.setCourse c k).l1 = s.l1 := rfl
@[simp] theorem setCourse_icache (s : State) (c : CRef) (k : Course) : (s.setCourse c k).icache = s.icache := rfl
@[simp] theorem setCourse_tlbs (s : State) (c : CRef) (k : Course) : (s.setCourse c k).tlbs = s.tlbs := rfl
@[simp] theorem setCourse_gates (s : State) (c : CRef) (k : Course) : (s.setCourse c k).gates = s.gates := rfl
@[simp] theorem setCourse_faults (s : State) (c : CRef) (k : Course) : (s.setCourse c k).faults = s.faults := rfl
@[simp] theorem setCourse_pfGen (s : State) (c : CRef) (k : Course) : (s.setCourse c k).pfGen = s.pfGen := rfl
@[simp] theorem setCourse_cmCount (s : State) (c : CRef) (k : Course) : (s.setCourse c k).cmCount = s.cmCount := rfl
@[simp] theorem setCourse_fold (s : State) (c : CRef) (k : Course) : (s.setCourse c k).fold = s.fold := rfl
@[simp] theorem setCourse_columns (s : State) (c : CRef) (k : Course) : (s.setCourse c k).columns = s.columns := rfl
@[simp] theorem setCourse_columnsGone (s : State) (c : CRef) (k : Course) : (s.setCourse c k).columnsGone = s.columnsGone := rfl
@[simp] theorem setCourse_folds (s : State) (c : CRef) (k : Course) : (s.setCourse c k).folds = s.folds := rfl
@[simp] theorem setCourse_hbmFree (s : State) (c : CRef) (k : Course) : (s.setCourse c k).hbmFree = s.hbmFree := rfl
@[simp] theorem setCourse_pool (s : State) (c : CRef) (k : Course) : (s.setCourse c k).pool = s.pool := rfl
@[simp] theorem setCourse_ueCol (s : State) (c : CRef) (k : Course) : (s.setCourse c k).ueCol = s.ueCol := rfl
@[simp] theorem setCourse_ioPsn (s : State) (c : CRef) (k : Course) : (s.setCourse c k).ioPsn = s.ioPsn := rfl
@[simp] theorem setCourse_cores (s : State) (c : CRef) (k : Course) : (s.setCourse c k).cores = s.cores := rfl
@[simp] theorem setCourse_svrBase (s : State) (c : CRef) (k : Course) : (s.setCourse c k).svrBase = s.svrBase := rfl
@[simp] theorem setCourse_svrHead (s : State) (c : CRef) (k : Course) : (s.setCourse c k).svrHead = s.svrHead := rfl
@[simp] theorem setCourse_svrTail (s : State) (c : CRef) (k : Course) : (s.setCourse c k).svrTail = s.svrTail := rfl
@[simp] theorem setCourse_svcCore (s : State) (c : CRef) (k : Course) : (s.setCourse c k).svcCore = s.svcCore := rfl
@[simp] theorem setCourse_svcRecs (s : State) (c : CRef) (k : Course) : (s.setCourse c k).svcRecs = s.svcRecs := rfl
@[simp] theorem setCourse_svcTaken (s : State) (c : CRef) (k : Course) : (s.setCourse c k).svcTaken = s.svcTaken := rfl
@[simp] theorem setCourse_launches (s : State) (c : CRef) (k : Course) : (s.setCourse c k).launches = s.launches := rfl
@[simp] theorem setCourse_amsgFly (s : State) (c : CRef) (k : Course) : (s.setCourse c k).amsgFly = s.amsgFly := rfl
@[simp] theorem setCourse_vds (s : State) (c : CRef) (k : Course) : (s.setCourse c k).vds = s.vds := rfl
@[simp] theorem setCourse_remap (s : State) (c : CRef) (k : Course) : (s.setCourse c k).remap = s.remap := rfl
@[simp] theorem setCourse_kickMap (s : State) (c : CRef) (k : Course) : (s.setCourse c k).kickMap = s.kickMap := rfl
@[simp] theorem setCourse_qcbs (s : State) (c : CRef) (k : Course) : (s.setCourse c k).qcbs = s.qcbs := rfl
@[simp] theorem setCourse_sets (s : State) (c : CRef) (k : Course) : (s.setCourse c k).sets = s.sets := rfl
@[simp] theorem setCourse_kills (s : State) (c : CRef) (k : Course) : (s.setCourse c k).kills = s.kills := rfl
@[simp] theorem setCourse_passesDue (s : State) (c : CRef) (k : Course) : (s.setCourse c k).passesDue = s.passesDue := rfl
@[simp] theorem setCourse_passAt (s : State) (c : CRef) (k : Course) : (s.setCourse c k).passAt = s.passAt := rfl
@[simp] theorem setCourse_ctxParts (s : State) (c : CRef) (k : Course) : (s.setCourse c k).ctxParts = s.ctxParts := rfl
@[simp] theorem setCourse_qpFallback (s : State) (c : CRef) (k : Course) : (s.setCourse c k).qpFallback = s.qpFallback := rfl
@[simp] theorem setCourse_qpCursor (s : State) (c : CRef) (k : Course) : (s.setCourse c k).qpCursor = s.qpCursor := rfl
@[simp] theorem setCourse_mbcmd (s : State) (c : CRef) (k : Course) : (s.setCourse c k).mbcmd = s.mbcmd := rfl
@[simp] theorem setCourse_mbBusy (s : State) (c : CRef) (k : Course) : (s.setCourse c k).mbBusy = s.mbBusy := rfl
@[simp] theorem setCourse_mbStatus (s : State) (c : CRef) (k : Course) : (s.setCourse c k).mbStatus = s.mbStatus := rfl
@[simp] theorem setCourse_mbOut (s : State) (c : CRef) (k : Course) : (s.setCourse c k).mbOut = s.mbOut := rfl
@[simp] theorem setCourse_evBase (s : State) (c : CRef) (k : Course) : (s.setCourse c k).evBase = s.evBase := rfl
@[simp] theorem setCourse_evSize (s : State) (c : CRef) (k : Course) : (s.setCourse c k).evSize = s.evSize := rfl
@[simp] theorem setCourse_evTail (s : State) (c : CRef) (k : Course) : (s.setCourse c k).evTail = s.evTail := rfl
@[simp] theorem setCourse_evHead (s : State) (c : CRef) (k : Course) : (s.setCourse c k).evHead = s.evHead := rfl
@[simp] theorem setCourse_evWait (s : State) (c : CRef) (k : Course) : (s.setCourse c k).evWait = s.evWait := rfl
@[simp] theorem setCourse_fbcmd (s : State) (c : CRef) (k : Course) : (s.setCourse c k).fbcmd = s.fbcmd := rfl
@[simp] theorem setCourse_fbBusy (s : State) (c : CRef) (k : Course) : (s.setCourse c k).fbBusy = s.fbBusy := rfl
@[simp] theorem setCourse_fbStatus (s : State) (c : CRef) (k : Course) : (s.setCourse c k).fbStatus = s.fbStatus := rfl
@[simp] theorem setCourse_fbOut (s : State) (c : CRef) (k : Course) : (s.setCourse c k).fbOut = s.fbOut := rfl
@[simp] theorem setCourse_cecnt (s : State) (c : CRef) (k : Course) : (s.setCourse c k).cecnt = s.cecnt := rfl
@[simp] theorem setCourse_uecnt (s : State) (c : CRef) (k : Course) : (s.setCourse c k).uecnt = s.uecnt := rfl
@[simp] theorem setCourse_strikes (s : State) (c : CRef) (k : Course) : (s.setCourse c k).strikes = s.strikes := rfl
@[simp] theorem setCourse_degrade (s : State) (c : CRef) (k : Course) : (s.setCourse c k).degrade = s.degrade := rfl
@[simp] theorem setCourse_rrcnt (s : State) (c : CRef) (k : Course) : (s.setCourse c k).rrcnt = s.rrcnt := rfl
@[simp] theorem setCourse_cecthr (s : State) (c : CRef) (k : Course) : (s.setCourse c k).cecthr = s.cecthr := rfl
@[simp] theorem setCourse_discards (s : State) (c : CRef) (k : Course) : (s.setCourse c k).discards = s.discards := rfl
@[simp] theorem setCourse_capctl (s : State) (c : CRef) (k : Course) : (s.setCourse c k).capctl = s.capctl := rfl
@[simp] theorem setCourse_capbase (s : State) (c : CRef) (k : Course) : (s.setCourse c k).capbase = s.capbase := rfl
@[simp] theorem setCourse_capsize (s : State) (c : CRef) (k : Course) : (s.setCourse c k).capsize = s.capsize := rfl
@[simp] theorem setCourse_captail (s : State) (c : CRef) (k : Course) : (s.setCourse c k).captail = s.captail := rfl
@[simp] theorem setCourse_caphead (s : State) (c : CRef) (k : Course) : (s.setCourse c k).caphead = s.caphead := rfl
@[simp] theorem setCourse_replayed (s : State) (c : CRef) (k : Course) : (s.setCourse c k).replayed = s.replayed := rfl
@[simp] theorem setCourse_pfHost (s : State) (c : CRef) (k : Course) : (s.setCourse c k).pfHost = s.pfHost := rfl
@[simp] theorem setCourse_fwSvn (s : State) (c : CRef) (k : Course) : (s.setCourse c k).fwSvn = s.fwSvn := rfl
@[simp] theorem setCourse_cfgSvn (s : State) (c : CRef) (k : Course) : (s.setCourse c k).cfgSvn = s.cfgSvn := rfl
@[simp] theorem setCourse_fwDigest (s : State) (c : CRef) (k : Course) : (s.setCourse c k).fwDigest = s.fwDigest := rfl
@[simp] theorem setCourse_cfgDigest (s : State) (c : CRef) (k : Course) : (s.setCourse c k).cfgDigest = s.cfgDigest := rfl
@[simp] theorem setCourse_nonce (s : State) (c : CRef) (k : Course) : (s.setCourse c k).nonce = s.nonce := rfl
@[simp] theorem setCourse_attaddr (s : State) (c : CRef) (k : Course) : (s.setCourse c k).attaddr = s.attaddr := rfl
@[simp] theorem setCourse_attstat (s : State) (c : CRef) (k : Course) : (s.setCourse c k).attstat = s.attstat := rfl
@[simp] theorem setCourse_pwrlim (s : State) (c : CRef) (k : Course) : (s.setCourse c k).pwrlim = s.pwrlim := rfl
@[simp] theorem setCourse_pwrnow (s : State) (c : CRef) (k : Course) : (s.setCourse c k).pwrnow = s.pwrnow := rfl
@[simp] theorem setCourse_tjmax (s : State) (c : CRef) (k : Course) : (s.setCourse c k).tjmax = s.tjmax := rfl
@[simp] theorem setCourse_junction (s : State) (c : CRef) (k : Course) : (s.setCourse c k).junction = s.junction := rfl
@[simp] theorem setCourse_fabricId (s : State) (c : CRef) (k : Course) : (s.setCourse c k).fabricId = s.fabricId := rfl
@[simp] theorem setCourse_qcbBase (s : State) (c : CRef) (k : Course) : (s.setCourse c k).qcbBase = s.qcbBase := rfl
@[simp] theorem setCourse_contribBase (s : State) (c : CRef) (k : Course) : (s.setCourse c k).contribBase = s.contribBase := rfl
@[simp] theorem setCourse_poolLo (s : State) (c : CRef) (k : Course) : (s.setCourse c k).poolLo = s.poolLo := rfl
@[simp] theorem setCourse_poolHi (s : State) (c : CRef) (k : Course) : (s.setCourse c k).poolHi = s.poolHi := rfl
@[simp] theorem setCourse_links (s : State) (c : CRef) (k : Course) : (s.setCourse c k).links = s.links := rfl
@[simp] theorem setCourse_routes (s : State) (c : CRef) (k : Course) : (s.setCourse c k).routes = s.routes := rfl
@[simp] theorem setCourse_endpoints (s : State) (c : CRef) (k : Course) : (s.setCourse c k).endpoints = s.endpoints := rfl
@[simp] theorem setCourse_groups (s : State) (c : CRef) (k : Course) : (s.setCourse c k).groups = s.groups := rfl
@[simp] theorem setCourse_outgoing (s : State) (c : CRef) (k : Course) : (s.setCourse c k).outgoing = s.outgoing := rfl
@[simp] theorem setCourse_nextXid (s : State) (c : CRef) (k : Course) : (s.setCourse c k).nextXid = s.nextXid := rfl
@[simp] theorem setCourse_forwards (s : State) (c : CRef) (k : Course) : (s.setCourse c k).forwards = s.forwards := rfl
@[simp] theorem setCourse_inbound (s : State) (c : CRef) (k : Course) : (s.setCourse c k).inbound = s.inbound := rfl
@[simp] theorem setCourse_xmit (s : State) (c : CRef) (k : Course) : (s.setCourse c k).xmit = s.xmit := rfl
@[simp] theorem setCourse_contribs (s : State) (c : CRef) (k : Course) : (s.setCourse c k).contribs = s.contribs := rfl
@[simp] theorem setCourse_contribStats (s : State) (c : CRef) (k : Course) : (s.setCourse c k).contribStats = s.contribStats := rfl
@[simp] theorem setCourse_summed (s : State) (c : CRef) (k : Course) : (s.setCourse c k).summed = s.summed := rfl
@[simp] theorem setCourse_nextCn (s : State) (c : CRef) (k : Course) : (s.setCourse c k).nextCn = s.nextCn := rfl
@[simp] theorem setCourse_gathers (s : State) (c : CRef) (k : Course) : (s.setCourse c k).gathers = s.gathers := rfl
@[simp] theorem setCourse_seen (s : State) (c : CRef) (k : Course) : (s.setCourse c k).seen = s.seen := rfl
@[simp] theorem setCourse_hostOut (s : State) (c : CRef) (k : Course) : (s.setCourse c k).hostOut = s.hostOut := rfl
@[simp] theorem setCourse_hostUp (s : State) (c : CRef) (k : Course) : (s.setCourse c k).hostUp = s.hostUp := rfl
@[simp] theorem setCourse_hostWait (s : State) (c : CRef) (k : Course) : (s.setCourse c k).hostWait = s.hostWait := rfl

@[simp] theorem truss_modCourse_courses (t : Truss) (j : Nat) (f : Course → Course) : (t.modCourse j f).courses = t.courses.modify j f := rfl
@[simp] theorem truss_modCourse_kernelMode (t : Truss) (j : Nat) (f : Course → Course) : (t.modCourse j f).kernelMode = t.kernelMode := rfl
@[simp] theorem truss_modCourse_handlerTruss (t : Truss) (j : Nat) (f : Course → Course) : (t.modCourse j f).handlerTruss = t.handlerTruss := rfl
@[simp] theorem truss_modCourse_spanPos (t : Truss) (j : Nat) (f : Course → Course) : (t.modCourse j f).spanPos = t.spanPos := rfl
@[simp] theorem truss_modCourse_goneMask (t : Truss) (j : Nat) (f : Course → Course) : (t.modCourse j f).goneMask = t.goneMask := rfl
@[simp] theorem truss_modCourse_layouts (t : Truss) (j : Nat) (f : Course → Course) : (t.modCourse j f).layouts = t.layouts := rfl
@[simp] theorem truss_modCourse_tabPend (t : Truss) (j : Nat) (f : Course → Course) : (t.modCourse j f).tabPend = t.tabPend := rfl
@[simp] theorem truss_modCourse_ctxSlot (t : Truss) (j : Nat) (f : Course → Course) : (t.modCourse j f).ctxSlot = t.ctxSlot := rfl

/-! ### A core changes -/

@[simp] theorem modCore_agenda (s : State) (n : Nat) (f : Core → Core) : (s.modCore n f).agenda = s.agenda := rfl
@[simp] theorem modCore_cur (s : State) (n : Nat) (f : Core → Core) : (s.modCore n f).cur = s.cur := rfl
@[simp] theorem modCore_tick (s : State) (n : Nat) (f : Core → Core) : (s.modCore n f).tick = s.tick := rfl
@[simp] theorem modCore_power (s : State) (n : Nat) (f : Core → Core) : (s.modCore n f).power = s.power := rfl
@[simp] theorem modCore_bootStep (s : State) (n : Nat) (f : Core → Core) : (s.modCore n f).bootStep = s.bootStep := rfl
@[simp] theorem modCore_bootCode (s : State) (n : Nat) (f : Core → Core) : (s.modCore n f).bootCode = s.bootCode := rfl
@[simp] theorem modCore_bootDetail (s : State) (n : Nat) (f : Core → Core) : (s.modCore n f).bootDetail = s.bootDetail := rfl
@[simp] theorem modCore_boot (s : State) (n : Nat) (f : Core → Core) : (s.modCore n f).boot = s.boot := rfl
@[simp] theorem modCore_computeOn (s : State) (n : Nat) (f : Core → Core) : (s.modCore n f).computeOn = s.computeOn := rfl
@[simp] theorem modCore_throttled (s : State) (n : Nat) (f : Core → Core) : (s.modCore n f).throttled = s.throttled := rfl
@[simp] theorem modCore_clk (s : State) (n : Nat) (f : Core → Core) : (s.modCore n f).clk = s.clk := rfl
@[simp] theorem modCore_ioClk (s : State) (n : Nat) (f : Core → Core) : (s.modCore n f).ioClk = s.ioClk := rfl
@[simp] theorem modCore_dieCtr0 (s : State) (n : Nat) (f : Core → Core) : (s.modCore n f).dieCtr0 = s.dieCtr0 := rfl
@[simp] theorem modCore_mem (s : State) (n : Nat) (f : Core → Core) : (s.modCore n f).mem = s.mem := rfl
@[simp] theorem modCore_memPsn (s : State) (n : Nat) (f : Core → Core) : (s.modCore n f).memPsn = s.memPsn := rfl
@[simp] theorem modCore_lines (s : State) (n : Nat) (f : Core → Core) : (s.modCore n f).lines = s.lines := rfl
@[simp] theorem modCore_dirty (s : State) (n : Nat) (f : Core → Core) : (s.modCore n f).dirty = s.dirty := rfl
@[simp] theorem modCore_sliceLast (s : State) (n : Nat) (f : Core → Core) : (s.modCore n f).sliceLast = s.sliceLast := rfl
@[simp] theorem modCore_hostMem (s : State) (n : Nat) (f : Core → Core) : (s.modCore n f).hostMem = s.hostMem := rfl
@[simp] theorem modCore_hostPsn (s : State) (n : Nat) (f : Core → Core) : (s.modCore n f).hostPsn = s.hostPsn := rfl
@[simp] theorem modCore_cells (s : State) (n : Nat) (f : Core → Core) : (s.modCore n f).cells = s.cells := rfl
@[simp] theorem modCore_proms (s : State) (n : Nat) (f : Core → Core) : (s.modCore n f).proms = s.proms := rfl
@[simp] theorem modCore_accesses (s : State) (n : Nat) (f : Core → Core) : (s.modCore n f).accesses = s.accesses := rfl
@[simp] theorem modCore_early (s : State) (n : Nat) (f : Core → Core) : (s.modCore n f).early = s.early := rfl
@[simp] theorem modCore_nextId (s : State) (n : Nat) (f : Core → Core) : (s.modCore n f).nextId = s.nextId := rfl
@[simp] theorem modCore_l1 (s : State) (n : Nat) (f : Core → Core) : (s.modCore n f).l1 = s.l1 := rfl
@[simp] theorem modCore_icache (s : State) (n : Nat) (f : Core → Core) : (s.modCore n f).icache = s.icache := rfl
@[simp] theorem modCore_tlbs (s : State) (n : Nat) (f : Core → Core) : (s.modCore n f).tlbs = s.tlbs := rfl
@[simp] theorem modCore_gates (s : State) (n : Nat) (f : Core → Core) : (s.modCore n f).gates = s.gates := rfl
@[simp] theorem modCore_faults (s : State) (n : Nat) (f : Core → Core) : (s.modCore n f).faults = s.faults := rfl
@[simp] theorem modCore_pfGen (s : State) (n : Nat) (f : Core → Core) : (s.modCore n f).pfGen = s.pfGen := rfl
@[simp] theorem modCore_cmCount (s : State) (n : Nat) (f : Core → Core) : (s.modCore n f).cmCount = s.cmCount := rfl
@[simp] theorem modCore_fold (s : State) (n : Nat) (f : Core → Core) : (s.modCore n f).fold = s.fold := rfl
@[simp] theorem modCore_columns (s : State) (n : Nat) (f : Core → Core) : (s.modCore n f).columns = s.columns := rfl
@[simp] theorem modCore_columnsGone (s : State) (n : Nat) (f : Core → Core) : (s.modCore n f).columnsGone = s.columnsGone := rfl
@[simp] theorem modCore_folds (s : State) (n : Nat) (f : Core → Core) : (s.modCore n f).folds = s.folds := rfl
@[simp] theorem modCore_hbmFree (s : State) (n : Nat) (f : Core → Core) : (s.modCore n f).hbmFree = s.hbmFree := rfl
@[simp] theorem modCore_pool (s : State) (n : Nat) (f : Core → Core) : (s.modCore n f).pool = s.pool := rfl
@[simp] theorem modCore_ueCol (s : State) (n : Nat) (f : Core → Core) : (s.modCore n f).ueCol = s.ueCol := rfl
@[simp] theorem modCore_ioPsn (s : State) (n : Nat) (f : Core → Core) : (s.modCore n f).ioPsn = s.ioPsn := rfl
@[simp] theorem modCore_svrBase (s : State) (n : Nat) (f : Core → Core) : (s.modCore n f).svrBase = s.svrBase := rfl
@[simp] theorem modCore_svrHead (s : State) (n : Nat) (f : Core → Core) : (s.modCore n f).svrHead = s.svrHead := rfl
@[simp] theorem modCore_svrTail (s : State) (n : Nat) (f : Core → Core) : (s.modCore n f).svrTail = s.svrTail := rfl
@[simp] theorem modCore_svcCore (s : State) (n : Nat) (f : Core → Core) : (s.modCore n f).svcCore = s.svcCore := rfl
@[simp] theorem modCore_svcRecs (s : State) (n : Nat) (f : Core → Core) : (s.modCore n f).svcRecs = s.svcRecs := rfl
@[simp] theorem modCore_svcTaken (s : State) (n : Nat) (f : Core → Core) : (s.modCore n f).svcTaken = s.svcTaken := rfl
@[simp] theorem modCore_trusses (s : State) (n : Nat) (f : Core → Core) : (s.modCore n f).trusses = s.trusses := rfl
@[simp] theorem modCore_launches (s : State) (n : Nat) (f : Core → Core) : (s.modCore n f).launches = s.launches := rfl
@[simp] theorem modCore_amsgFly (s : State) (n : Nat) (f : Core → Core) : (s.modCore n f).amsgFly = s.amsgFly := rfl
@[simp] theorem modCore_vds (s : State) (n : Nat) (f : Core → Core) : (s.modCore n f).vds = s.vds := rfl
@[simp] theorem modCore_remap (s : State) (n : Nat) (f : Core → Core) : (s.modCore n f).remap = s.remap := rfl
@[simp] theorem modCore_kickMap (s : State) (n : Nat) (f : Core → Core) : (s.modCore n f).kickMap = s.kickMap := rfl
@[simp] theorem modCore_qcbs (s : State) (n : Nat) (f : Core → Core) : (s.modCore n f).qcbs = s.qcbs := rfl
@[simp] theorem modCore_sets (s : State) (n : Nat) (f : Core → Core) : (s.modCore n f).sets = s.sets := rfl
@[simp] theorem modCore_kills (s : State) (n : Nat) (f : Core → Core) : (s.modCore n f).kills = s.kills := rfl
@[simp] theorem modCore_passesDue (s : State) (n : Nat) (f : Core → Core) : (s.modCore n f).passesDue = s.passesDue := rfl
@[simp] theorem modCore_passAt (s : State) (n : Nat) (f : Core → Core) : (s.modCore n f).passAt = s.passAt := rfl
@[simp] theorem modCore_ctxParts (s : State) (n : Nat) (f : Core → Core) : (s.modCore n f).ctxParts = s.ctxParts := rfl
@[simp] theorem modCore_qpFallback (s : State) (n : Nat) (f : Core → Core) : (s.modCore n f).qpFallback = s.qpFallback := rfl
@[simp] theorem modCore_qpCursor (s : State) (n : Nat) (f : Core → Core) : (s.modCore n f).qpCursor = s.qpCursor := rfl
@[simp] theorem modCore_mbcmd (s : State) (n : Nat) (f : Core → Core) : (s.modCore n f).mbcmd = s.mbcmd := rfl
@[simp] theorem modCore_mbBusy (s : State) (n : Nat) (f : Core → Core) : (s.modCore n f).mbBusy = s.mbBusy := rfl
@[simp] theorem modCore_mbStatus (s : State) (n : Nat) (f : Core → Core) : (s.modCore n f).mbStatus = s.mbStatus := rfl
@[simp] theorem modCore_mbOut (s : State) (n : Nat) (f : Core → Core) : (s.modCore n f).mbOut = s.mbOut := rfl
@[simp] theorem modCore_evBase (s : State) (n : Nat) (f : Core → Core) : (s.modCore n f).evBase = s.evBase := rfl
@[simp] theorem modCore_evSize (s : State) (n : Nat) (f : Core → Core) : (s.modCore n f).evSize = s.evSize := rfl
@[simp] theorem modCore_evTail (s : State) (n : Nat) (f : Core → Core) : (s.modCore n f).evTail = s.evTail := rfl
@[simp] theorem modCore_evHead (s : State) (n : Nat) (f : Core → Core) : (s.modCore n f).evHead = s.evHead := rfl
@[simp] theorem modCore_evWait (s : State) (n : Nat) (f : Core → Core) : (s.modCore n f).evWait = s.evWait := rfl
@[simp] theorem modCore_fbcmd (s : State) (n : Nat) (f : Core → Core) : (s.modCore n f).fbcmd = s.fbcmd := rfl
@[simp] theorem modCore_fbBusy (s : State) (n : Nat) (f : Core → Core) : (s.modCore n f).fbBusy = s.fbBusy := rfl
@[simp] theorem modCore_fbStatus (s : State) (n : Nat) (f : Core → Core) : (s.modCore n f).fbStatus = s.fbStatus := rfl
@[simp] theorem modCore_fbOut (s : State) (n : Nat) (f : Core → Core) : (s.modCore n f).fbOut = s.fbOut := rfl
@[simp] theorem modCore_cecnt (s : State) (n : Nat) (f : Core → Core) : (s.modCore n f).cecnt = s.cecnt := rfl
@[simp] theorem modCore_uecnt (s : State) (n : Nat) (f : Core → Core) : (s.modCore n f).uecnt = s.uecnt := rfl
@[simp] theorem modCore_strikes (s : State) (n : Nat) (f : Core → Core) : (s.modCore n f).strikes = s.strikes := rfl
@[simp] theorem modCore_degrade (s : State) (n : Nat) (f : Core → Core) : (s.modCore n f).degrade = s.degrade := rfl
@[simp] theorem modCore_rrcnt (s : State) (n : Nat) (f : Core → Core) : (s.modCore n f).rrcnt = s.rrcnt := rfl
@[simp] theorem modCore_cecthr (s : State) (n : Nat) (f : Core → Core) : (s.modCore n f).cecthr = s.cecthr := rfl
@[simp] theorem modCore_discards (s : State) (n : Nat) (f : Core → Core) : (s.modCore n f).discards = s.discards := rfl
@[simp] theorem modCore_capctl (s : State) (n : Nat) (f : Core → Core) : (s.modCore n f).capctl = s.capctl := rfl
@[simp] theorem modCore_capbase (s : State) (n : Nat) (f : Core → Core) : (s.modCore n f).capbase = s.capbase := rfl
@[simp] theorem modCore_capsize (s : State) (n : Nat) (f : Core → Core) : (s.modCore n f).capsize = s.capsize := rfl
@[simp] theorem modCore_captail (s : State) (n : Nat) (f : Core → Core) : (s.modCore n f).captail = s.captail := rfl
@[simp] theorem modCore_caphead (s : State) (n : Nat) (f : Core → Core) : (s.modCore n f).caphead = s.caphead := rfl
@[simp] theorem modCore_replayed (s : State) (n : Nat) (f : Core → Core) : (s.modCore n f).replayed = s.replayed := rfl
@[simp] theorem modCore_pfHost (s : State) (n : Nat) (f : Core → Core) : (s.modCore n f).pfHost = s.pfHost := rfl
@[simp] theorem modCore_fwSvn (s : State) (n : Nat) (f : Core → Core) : (s.modCore n f).fwSvn = s.fwSvn := rfl
@[simp] theorem modCore_cfgSvn (s : State) (n : Nat) (f : Core → Core) : (s.modCore n f).cfgSvn = s.cfgSvn := rfl
@[simp] theorem modCore_fwDigest (s : State) (n : Nat) (f : Core → Core) : (s.modCore n f).fwDigest = s.fwDigest := rfl
@[simp] theorem modCore_cfgDigest (s : State) (n : Nat) (f : Core → Core) : (s.modCore n f).cfgDigest = s.cfgDigest := rfl
@[simp] theorem modCore_nonce (s : State) (n : Nat) (f : Core → Core) : (s.modCore n f).nonce = s.nonce := rfl
@[simp] theorem modCore_attaddr (s : State) (n : Nat) (f : Core → Core) : (s.modCore n f).attaddr = s.attaddr := rfl
@[simp] theorem modCore_attstat (s : State) (n : Nat) (f : Core → Core) : (s.modCore n f).attstat = s.attstat := rfl
@[simp] theorem modCore_pwrlim (s : State) (n : Nat) (f : Core → Core) : (s.modCore n f).pwrlim = s.pwrlim := rfl
@[simp] theorem modCore_pwrnow (s : State) (n : Nat) (f : Core → Core) : (s.modCore n f).pwrnow = s.pwrnow := rfl
@[simp] theorem modCore_tjmax (s : State) (n : Nat) (f : Core → Core) : (s.modCore n f).tjmax = s.tjmax := rfl
@[simp] theorem modCore_junction (s : State) (n : Nat) (f : Core → Core) : (s.modCore n f).junction = s.junction := rfl
@[simp] theorem modCore_fabricId (s : State) (n : Nat) (f : Core → Core) : (s.modCore n f).fabricId = s.fabricId := rfl
@[simp] theorem modCore_qcbBase (s : State) (n : Nat) (f : Core → Core) : (s.modCore n f).qcbBase = s.qcbBase := rfl
@[simp] theorem modCore_contribBase (s : State) (n : Nat) (f : Core → Core) : (s.modCore n f).contribBase = s.contribBase := rfl
@[simp] theorem modCore_poolLo (s : State) (n : Nat) (f : Core → Core) : (s.modCore n f).poolLo = s.poolLo := rfl
@[simp] theorem modCore_poolHi (s : State) (n : Nat) (f : Core → Core) : (s.modCore n f).poolHi = s.poolHi := rfl
@[simp] theorem modCore_links (s : State) (n : Nat) (f : Core → Core) : (s.modCore n f).links = s.links := rfl
@[simp] theorem modCore_routes (s : State) (n : Nat) (f : Core → Core) : (s.modCore n f).routes = s.routes := rfl
@[simp] theorem modCore_endpoints (s : State) (n : Nat) (f : Core → Core) : (s.modCore n f).endpoints = s.endpoints := rfl
@[simp] theorem modCore_groups (s : State) (n : Nat) (f : Core → Core) : (s.modCore n f).groups = s.groups := rfl
@[simp] theorem modCore_outgoing (s : State) (n : Nat) (f : Core → Core) : (s.modCore n f).outgoing = s.outgoing := rfl
@[simp] theorem modCore_nextXid (s : State) (n : Nat) (f : Core → Core) : (s.modCore n f).nextXid = s.nextXid := rfl
@[simp] theorem modCore_forwards (s : State) (n : Nat) (f : Core → Core) : (s.modCore n f).forwards = s.forwards := rfl
@[simp] theorem modCore_inbound (s : State) (n : Nat) (f : Core → Core) : (s.modCore n f).inbound = s.inbound := rfl
@[simp] theorem modCore_xmit (s : State) (n : Nat) (f : Core → Core) : (s.modCore n f).xmit = s.xmit := rfl
@[simp] theorem modCore_contribs (s : State) (n : Nat) (f : Core → Core) : (s.modCore n f).contribs = s.contribs := rfl
@[simp] theorem modCore_contribStats (s : State) (n : Nat) (f : Core → Core) : (s.modCore n f).contribStats = s.contribStats := rfl
@[simp] theorem modCore_summed (s : State) (n : Nat) (f : Core → Core) : (s.modCore n f).summed = s.summed := rfl
@[simp] theorem modCore_nextCn (s : State) (n : Nat) (f : Core → Core) : (s.modCore n f).nextCn = s.nextCn := rfl
@[simp] theorem modCore_gathers (s : State) (n : Nat) (f : Core → Core) : (s.modCore n f).gathers = s.gathers := rfl
@[simp] theorem modCore_seen (s : State) (n : Nat) (f : Core → Core) : (s.modCore n f).seen = s.seen := rfl
@[simp] theorem modCore_hostOut (s : State) (n : Nat) (f : Core → Core) : (s.modCore n f).hostOut = s.hostOut := rfl
@[simp] theorem modCore_hostUp (s : State) (n : Nat) (f : Core → Core) : (s.modCore n f).hostUp = s.hostUp := rfl
@[simp] theorem modCore_hostWait (s : State) (n : Nat) (f : Core → Core) : (s.modCore n f).hostWait = s.hostWait := rfl

/-! ### The L1 of a core is emptied -/

@[simp] theorem invalidateL1_agenda (s : State) (core : Nat) : (s.invalidateL1 core).agenda = s.agenda := rfl
@[simp] theorem invalidateL1_cur (s : State) (core : Nat) : (s.invalidateL1 core).cur = s.cur := rfl
@[simp] theorem invalidateL1_tick (s : State) (core : Nat) : (s.invalidateL1 core).tick = s.tick := rfl
@[simp] theorem invalidateL1_power (s : State) (core : Nat) : (s.invalidateL1 core).power = s.power := rfl
@[simp] theorem invalidateL1_bootStep (s : State) (core : Nat) : (s.invalidateL1 core).bootStep = s.bootStep := rfl
@[simp] theorem invalidateL1_bootCode (s : State) (core : Nat) : (s.invalidateL1 core).bootCode = s.bootCode := rfl
@[simp] theorem invalidateL1_bootDetail (s : State) (core : Nat) : (s.invalidateL1 core).bootDetail = s.bootDetail := rfl
@[simp] theorem invalidateL1_boot (s : State) (core : Nat) : (s.invalidateL1 core).boot = s.boot := rfl
@[simp] theorem invalidateL1_computeOn (s : State) (core : Nat) : (s.invalidateL1 core).computeOn = s.computeOn := rfl
@[simp] theorem invalidateL1_throttled (s : State) (core : Nat) : (s.invalidateL1 core).throttled = s.throttled := rfl
@[simp] theorem invalidateL1_clk (s : State) (core : Nat) : (s.invalidateL1 core).clk = s.clk := rfl
@[simp] theorem invalidateL1_ioClk (s : State) (core : Nat) : (s.invalidateL1 core).ioClk = s.ioClk := rfl
@[simp] theorem invalidateL1_dieCtr0 (s : State) (core : Nat) : (s.invalidateL1 core).dieCtr0 = s.dieCtr0 := rfl
@[simp] theorem invalidateL1_mem (s : State) (core : Nat) : (s.invalidateL1 core).mem = s.mem := rfl
@[simp] theorem invalidateL1_memPsn (s : State) (core : Nat) : (s.invalidateL1 core).memPsn = s.memPsn := rfl
@[simp] theorem invalidateL1_lines (s : State) (core : Nat) : (s.invalidateL1 core).lines = s.lines := rfl
@[simp] theorem invalidateL1_dirty (s : State) (core : Nat) : (s.invalidateL1 core).dirty = s.dirty := rfl
@[simp] theorem invalidateL1_sliceLast (s : State) (core : Nat) : (s.invalidateL1 core).sliceLast = s.sliceLast := rfl
@[simp] theorem invalidateL1_hostMem (s : State) (core : Nat) : (s.invalidateL1 core).hostMem = s.hostMem := rfl
@[simp] theorem invalidateL1_hostPsn (s : State) (core : Nat) : (s.invalidateL1 core).hostPsn = s.hostPsn := rfl
@[simp] theorem invalidateL1_cells (s : State) (core : Nat) : (s.invalidateL1 core).cells = s.cells := rfl
@[simp] theorem invalidateL1_proms (s : State) (core : Nat) : (s.invalidateL1 core).proms = s.proms := rfl
@[simp] theorem invalidateL1_accesses (s : State) (core : Nat) : (s.invalidateL1 core).accesses = s.accesses := rfl
@[simp] theorem invalidateL1_early (s : State) (core : Nat) : (s.invalidateL1 core).early = s.early := rfl
@[simp] theorem invalidateL1_nextId (s : State) (core : Nat) : (s.invalidateL1 core).nextId = s.nextId := rfl
@[simp] theorem invalidateL1_icache (s : State) (core : Nat) : (s.invalidateL1 core).icache = s.icache := rfl
@[simp] theorem invalidateL1_tlbs (s : State) (core : Nat) : (s.invalidateL1 core).tlbs = s.tlbs := rfl
@[simp] theorem invalidateL1_gates (s : State) (core : Nat) : (s.invalidateL1 core).gates = s.gates := rfl
@[simp] theorem invalidateL1_faults (s : State) (core : Nat) : (s.invalidateL1 core).faults = s.faults := rfl
@[simp] theorem invalidateL1_pfGen (s : State) (core : Nat) : (s.invalidateL1 core).pfGen = s.pfGen := rfl
@[simp] theorem invalidateL1_cmCount (s : State) (core : Nat) : (s.invalidateL1 core).cmCount = s.cmCount := rfl
@[simp] theorem invalidateL1_fold (s : State) (core : Nat) : (s.invalidateL1 core).fold = s.fold := rfl
@[simp] theorem invalidateL1_columns (s : State) (core : Nat) : (s.invalidateL1 core).columns = s.columns := rfl
@[simp] theorem invalidateL1_columnsGone (s : State) (core : Nat) : (s.invalidateL1 core).columnsGone = s.columnsGone := rfl
@[simp] theorem invalidateL1_folds (s : State) (core : Nat) : (s.invalidateL1 core).folds = s.folds := rfl
@[simp] theorem invalidateL1_hbmFree (s : State) (core : Nat) : (s.invalidateL1 core).hbmFree = s.hbmFree := rfl
@[simp] theorem invalidateL1_pool (s : State) (core : Nat) : (s.invalidateL1 core).pool = s.pool := rfl
@[simp] theorem invalidateL1_ueCol (s : State) (core : Nat) : (s.invalidateL1 core).ueCol = s.ueCol := rfl
@[simp] theorem invalidateL1_ioPsn (s : State) (core : Nat) : (s.invalidateL1 core).ioPsn = s.ioPsn := rfl
@[simp] theorem invalidateL1_cores (s : State) (core : Nat) : (s.invalidateL1 core).cores = s.cores := rfl
@[simp] theorem invalidateL1_svrBase (s : State) (core : Nat) : (s.invalidateL1 core).svrBase = s.svrBase := rfl
@[simp] theorem invalidateL1_svrHead (s : State) (core : Nat) : (s.invalidateL1 core).svrHead = s.svrHead := rfl
@[simp] theorem invalidateL1_svrTail (s : State) (core : Nat) : (s.invalidateL1 core).svrTail = s.svrTail := rfl
@[simp] theorem invalidateL1_svcCore (s : State) (core : Nat) : (s.invalidateL1 core).svcCore = s.svcCore := rfl
@[simp] theorem invalidateL1_svcRecs (s : State) (core : Nat) : (s.invalidateL1 core).svcRecs = s.svcRecs := rfl
@[simp] theorem invalidateL1_svcTaken (s : State) (core : Nat) : (s.invalidateL1 core).svcTaken = s.svcTaken := rfl
@[simp] theorem invalidateL1_trusses (s : State) (core : Nat) : (s.invalidateL1 core).trusses = s.trusses := rfl
@[simp] theorem invalidateL1_launches (s : State) (core : Nat) : (s.invalidateL1 core).launches = s.launches := rfl
@[simp] theorem invalidateL1_amsgFly (s : State) (core : Nat) : (s.invalidateL1 core).amsgFly = s.amsgFly := rfl
@[simp] theorem invalidateL1_vds (s : State) (core : Nat) : (s.invalidateL1 core).vds = s.vds := rfl
@[simp] theorem invalidateL1_remap (s : State) (core : Nat) : (s.invalidateL1 core).remap = s.remap := rfl
@[simp] theorem invalidateL1_kickMap (s : State) (core : Nat) : (s.invalidateL1 core).kickMap = s.kickMap := rfl
@[simp] theorem invalidateL1_qcbs (s : State) (core : Nat) : (s.invalidateL1 core).qcbs = s.qcbs := rfl
@[simp] theorem invalidateL1_sets (s : State) (core : Nat) : (s.invalidateL1 core).sets = s.sets := rfl
@[simp] theorem invalidateL1_kills (s : State) (core : Nat) : (s.invalidateL1 core).kills = s.kills := rfl
@[simp] theorem invalidateL1_passesDue (s : State) (core : Nat) : (s.invalidateL1 core).passesDue = s.passesDue := rfl
@[simp] theorem invalidateL1_passAt (s : State) (core : Nat) : (s.invalidateL1 core).passAt = s.passAt := rfl
@[simp] theorem invalidateL1_ctxParts (s : State) (core : Nat) : (s.invalidateL1 core).ctxParts = s.ctxParts := rfl
@[simp] theorem invalidateL1_qpFallback (s : State) (core : Nat) : (s.invalidateL1 core).qpFallback = s.qpFallback := rfl
@[simp] theorem invalidateL1_qpCursor (s : State) (core : Nat) : (s.invalidateL1 core).qpCursor = s.qpCursor := rfl
@[simp] theorem invalidateL1_mbcmd (s : State) (core : Nat) : (s.invalidateL1 core).mbcmd = s.mbcmd := rfl
@[simp] theorem invalidateL1_mbBusy (s : State) (core : Nat) : (s.invalidateL1 core).mbBusy = s.mbBusy := rfl
@[simp] theorem invalidateL1_mbStatus (s : State) (core : Nat) : (s.invalidateL1 core).mbStatus = s.mbStatus := rfl
@[simp] theorem invalidateL1_mbOut (s : State) (core : Nat) : (s.invalidateL1 core).mbOut = s.mbOut := rfl
@[simp] theorem invalidateL1_evBase (s : State) (core : Nat) : (s.invalidateL1 core).evBase = s.evBase := rfl
@[simp] theorem invalidateL1_evSize (s : State) (core : Nat) : (s.invalidateL1 core).evSize = s.evSize := rfl
@[simp] theorem invalidateL1_evTail (s : State) (core : Nat) : (s.invalidateL1 core).evTail = s.evTail := rfl
@[simp] theorem invalidateL1_evHead (s : State) (core : Nat) : (s.invalidateL1 core).evHead = s.evHead := rfl
@[simp] theorem invalidateL1_evWait (s : State) (core : Nat) : (s.invalidateL1 core).evWait = s.evWait := rfl
@[simp] theorem invalidateL1_fbcmd (s : State) (core : Nat) : (s.invalidateL1 core).fbcmd = s.fbcmd := rfl
@[simp] theorem invalidateL1_fbBusy (s : State) (core : Nat) : (s.invalidateL1 core).fbBusy = s.fbBusy := rfl
@[simp] theorem invalidateL1_fbStatus (s : State) (core : Nat) : (s.invalidateL1 core).fbStatus = s.fbStatus := rfl
@[simp] theorem invalidateL1_fbOut (s : State) (core : Nat) : (s.invalidateL1 core).fbOut = s.fbOut := rfl
@[simp] theorem invalidateL1_cecnt (s : State) (core : Nat) : (s.invalidateL1 core).cecnt = s.cecnt := rfl
@[simp] theorem invalidateL1_uecnt (s : State) (core : Nat) : (s.invalidateL1 core).uecnt = s.uecnt := rfl
@[simp] theorem invalidateL1_strikes (s : State) (core : Nat) : (s.invalidateL1 core).strikes = s.strikes := rfl
@[simp] theorem invalidateL1_degrade (s : State) (core : Nat) : (s.invalidateL1 core).degrade = s.degrade := rfl
@[simp] theorem invalidateL1_rrcnt (s : State) (core : Nat) : (s.invalidateL1 core).rrcnt = s.rrcnt := rfl
@[simp] theorem invalidateL1_cecthr (s : State) (core : Nat) : (s.invalidateL1 core).cecthr = s.cecthr := rfl
@[simp] theorem invalidateL1_discards (s : State) (core : Nat) : (s.invalidateL1 core).discards = s.discards := rfl
@[simp] theorem invalidateL1_capctl (s : State) (core : Nat) : (s.invalidateL1 core).capctl = s.capctl := rfl
@[simp] theorem invalidateL1_capbase (s : State) (core : Nat) : (s.invalidateL1 core).capbase = s.capbase := rfl
@[simp] theorem invalidateL1_capsize (s : State) (core : Nat) : (s.invalidateL1 core).capsize = s.capsize := rfl
@[simp] theorem invalidateL1_captail (s : State) (core : Nat) : (s.invalidateL1 core).captail = s.captail := rfl
@[simp] theorem invalidateL1_caphead (s : State) (core : Nat) : (s.invalidateL1 core).caphead = s.caphead := rfl
@[simp] theorem invalidateL1_replayed (s : State) (core : Nat) : (s.invalidateL1 core).replayed = s.replayed := rfl
@[simp] theorem invalidateL1_pfHost (s : State) (core : Nat) : (s.invalidateL1 core).pfHost = s.pfHost := rfl
@[simp] theorem invalidateL1_fwSvn (s : State) (core : Nat) : (s.invalidateL1 core).fwSvn = s.fwSvn := rfl
@[simp] theorem invalidateL1_cfgSvn (s : State) (core : Nat) : (s.invalidateL1 core).cfgSvn = s.cfgSvn := rfl
@[simp] theorem invalidateL1_fwDigest (s : State) (core : Nat) : (s.invalidateL1 core).fwDigest = s.fwDigest := rfl
@[simp] theorem invalidateL1_cfgDigest (s : State) (core : Nat) : (s.invalidateL1 core).cfgDigest = s.cfgDigest := rfl
@[simp] theorem invalidateL1_nonce (s : State) (core : Nat) : (s.invalidateL1 core).nonce = s.nonce := rfl
@[simp] theorem invalidateL1_attaddr (s : State) (core : Nat) : (s.invalidateL1 core).attaddr = s.attaddr := rfl
@[simp] theorem invalidateL1_attstat (s : State) (core : Nat) : (s.invalidateL1 core).attstat = s.attstat := rfl
@[simp] theorem invalidateL1_pwrlim (s : State) (core : Nat) : (s.invalidateL1 core).pwrlim = s.pwrlim := rfl
@[simp] theorem invalidateL1_pwrnow (s : State) (core : Nat) : (s.invalidateL1 core).pwrnow = s.pwrnow := rfl
@[simp] theorem invalidateL1_tjmax (s : State) (core : Nat) : (s.invalidateL1 core).tjmax = s.tjmax := rfl
@[simp] theorem invalidateL1_junction (s : State) (core : Nat) : (s.invalidateL1 core).junction = s.junction := rfl
@[simp] theorem invalidateL1_fabricId (s : State) (core : Nat) : (s.invalidateL1 core).fabricId = s.fabricId := rfl
@[simp] theorem invalidateL1_qcbBase (s : State) (core : Nat) : (s.invalidateL1 core).qcbBase = s.qcbBase := rfl
@[simp] theorem invalidateL1_contribBase (s : State) (core : Nat) : (s.invalidateL1 core).contribBase = s.contribBase := rfl
@[simp] theorem invalidateL1_poolLo (s : State) (core : Nat) : (s.invalidateL1 core).poolLo = s.poolLo := rfl
@[simp] theorem invalidateL1_poolHi (s : State) (core : Nat) : (s.invalidateL1 core).poolHi = s.poolHi := rfl
@[simp] theorem invalidateL1_links (s : State) (core : Nat) : (s.invalidateL1 core).links = s.links := rfl
@[simp] theorem invalidateL1_routes (s : State) (core : Nat) : (s.invalidateL1 core).routes = s.routes := rfl
@[simp] theorem invalidateL1_endpoints (s : State) (core : Nat) : (s.invalidateL1 core).endpoints = s.endpoints := rfl
@[simp] theorem invalidateL1_groups (s : State) (core : Nat) : (s.invalidateL1 core).groups = s.groups := rfl
@[simp] theorem invalidateL1_outgoing (s : State) (core : Nat) : (s.invalidateL1 core).outgoing = s.outgoing := rfl
@[simp] theorem invalidateL1_nextXid (s : State) (core : Nat) : (s.invalidateL1 core).nextXid = s.nextXid := rfl
@[simp] theorem invalidateL1_forwards (s : State) (core : Nat) : (s.invalidateL1 core).forwards = s.forwards := rfl
@[simp] theorem invalidateL1_inbound (s : State) (core : Nat) : (s.invalidateL1 core).inbound = s.inbound := rfl
@[simp] theorem invalidateL1_xmit (s : State) (core : Nat) : (s.invalidateL1 core).xmit = s.xmit := rfl
@[simp] theorem invalidateL1_contribs (s : State) (core : Nat) : (s.invalidateL1 core).contribs = s.contribs := rfl
@[simp] theorem invalidateL1_contribStats (s : State) (core : Nat) : (s.invalidateL1 core).contribStats = s.contribStats := rfl
@[simp] theorem invalidateL1_summed (s : State) (core : Nat) : (s.invalidateL1 core).summed = s.summed := rfl
@[simp] theorem invalidateL1_nextCn (s : State) (core : Nat) : (s.invalidateL1 core).nextCn = s.nextCn := rfl
@[simp] theorem invalidateL1_gathers (s : State) (core : Nat) : (s.invalidateL1 core).gathers = s.gathers := rfl
@[simp] theorem invalidateL1_seen (s : State) (core : Nat) : (s.invalidateL1 core).seen = s.seen := rfl
@[simp] theorem invalidateL1_hostOut (s : State) (core : Nat) : (s.invalidateL1 core).hostOut = s.hostOut := rfl
@[simp] theorem invalidateL1_hostUp (s : State) (core : Nat) : (s.invalidateL1 core).hostUp = s.hostUp := rfl
@[simp] theorem invalidateL1_hostWait (s : State) (core : Nat) : (s.invalidateL1 core).hostWait = s.hostWait := rfl

/-! ### A device changes: nothing of the state but `vds` -/

@[simp] theorem modVdev_agenda (s : State) (v : Nat) (f : VDev → VDev) : (s.modVdev v f).agenda = s.agenda := by unfold State.modVdev; split <;> rfl
@[simp] theorem modVdev_cur (s : State) (v : Nat) (f : VDev → VDev) : (s.modVdev v f).cur = s.cur := by unfold State.modVdev; split <;> rfl
@[simp] theorem modVdev_tick (s : State) (v : Nat) (f : VDev → VDev) : (s.modVdev v f).tick = s.tick := by unfold State.modVdev; split <;> rfl
@[simp] theorem modVdev_power (s : State) (v : Nat) (f : VDev → VDev) : (s.modVdev v f).power = s.power := by unfold State.modVdev; split <;> rfl
@[simp] theorem modVdev_bootStep (s : State) (v : Nat) (f : VDev → VDev) : (s.modVdev v f).bootStep = s.bootStep := by unfold State.modVdev; split <;> rfl
@[simp] theorem modVdev_bootCode (s : State) (v : Nat) (f : VDev → VDev) : (s.modVdev v f).bootCode = s.bootCode := by unfold State.modVdev; split <;> rfl
@[simp] theorem modVdev_bootDetail (s : State) (v : Nat) (f : VDev → VDev) : (s.modVdev v f).bootDetail = s.bootDetail := by unfold State.modVdev; split <;> rfl
@[simp] theorem modVdev_boot (s : State) (v : Nat) (f : VDev → VDev) : (s.modVdev v f).boot = s.boot := by unfold State.modVdev; split <;> rfl
@[simp] theorem modVdev_computeOn (s : State) (v : Nat) (f : VDev → VDev) : (s.modVdev v f).computeOn = s.computeOn := by unfold State.modVdev; split <;> rfl
@[simp] theorem modVdev_throttled (s : State) (v : Nat) (f : VDev → VDev) : (s.modVdev v f).throttled = s.throttled := by unfold State.modVdev; split <;> rfl
@[simp] theorem modVdev_clk (s : State) (v : Nat) (f : VDev → VDev) : (s.modVdev v f).clk = s.clk := by unfold State.modVdev; split <;> rfl
@[simp] theorem modVdev_ioClk (s : State) (v : Nat) (f : VDev → VDev) : (s.modVdev v f).ioClk = s.ioClk := by unfold State.modVdev; split <;> rfl
@[simp] theorem modVdev_dieCtr0 (s : State) (v : Nat) (f : VDev → VDev) : (s.modVdev v f).dieCtr0 = s.dieCtr0 := by unfold State.modVdev; split <;> rfl
@[simp] theorem modVdev_mem (s : State) (v : Nat) (f : VDev → VDev) : (s.modVdev v f).mem = s.mem := by unfold State.modVdev; split <;> rfl
@[simp] theorem modVdev_memPsn (s : State) (v : Nat) (f : VDev → VDev) : (s.modVdev v f).memPsn = s.memPsn := by unfold State.modVdev; split <;> rfl
@[simp] theorem modVdev_lines (s : State) (v : Nat) (f : VDev → VDev) : (s.modVdev v f).lines = s.lines := by unfold State.modVdev; split <;> rfl
@[simp] theorem modVdev_dirty (s : State) (v : Nat) (f : VDev → VDev) : (s.modVdev v f).dirty = s.dirty := by unfold State.modVdev; split <;> rfl
@[simp] theorem modVdev_sliceLast (s : State) (v : Nat) (f : VDev → VDev) : (s.modVdev v f).sliceLast = s.sliceLast := by unfold State.modVdev; split <;> rfl
@[simp] theorem modVdev_hostMem (s : State) (v : Nat) (f : VDev → VDev) : (s.modVdev v f).hostMem = s.hostMem := by unfold State.modVdev; split <;> rfl
@[simp] theorem modVdev_hostPsn (s : State) (v : Nat) (f : VDev → VDev) : (s.modVdev v f).hostPsn = s.hostPsn := by unfold State.modVdev; split <;> rfl
@[simp] theorem modVdev_cells (s : State) (v : Nat) (f : VDev → VDev) : (s.modVdev v f).cells = s.cells := by unfold State.modVdev; split <;> rfl
@[simp] theorem modVdev_proms (s : State) (v : Nat) (f : VDev → VDev) : (s.modVdev v f).proms = s.proms := by unfold State.modVdev; split <;> rfl
@[simp] theorem modVdev_accesses (s : State) (v : Nat) (f : VDev → VDev) : (s.modVdev v f).accesses = s.accesses := by unfold State.modVdev; split <;> rfl
@[simp] theorem modVdev_early (s : State) (v : Nat) (f : VDev → VDev) : (s.modVdev v f).early = s.early := by unfold State.modVdev; split <;> rfl
@[simp] theorem modVdev_nextId (s : State) (v : Nat) (f : VDev → VDev) : (s.modVdev v f).nextId = s.nextId := by unfold State.modVdev; split <;> rfl
@[simp] theorem modVdev_l1 (s : State) (v : Nat) (f : VDev → VDev) : (s.modVdev v f).l1 = s.l1 := by unfold State.modVdev; split <;> rfl
@[simp] theorem modVdev_icache (s : State) (v : Nat) (f : VDev → VDev) : (s.modVdev v f).icache = s.icache := by unfold State.modVdev; split <;> rfl
@[simp] theorem modVdev_tlbs (s : State) (v : Nat) (f : VDev → VDev) : (s.modVdev v f).tlbs = s.tlbs := by unfold State.modVdev; split <;> rfl
@[simp] theorem modVdev_gates (s : State) (v : Nat) (f : VDev → VDev) : (s.modVdev v f).gates = s.gates := by unfold State.modVdev; split <;> rfl
@[simp] theorem modVdev_faults (s : State) (v : Nat) (f : VDev → VDev) : (s.modVdev v f).faults = s.faults := by unfold State.modVdev; split <;> rfl
@[simp] theorem modVdev_pfGen (s : State) (v : Nat) (f : VDev → VDev) : (s.modVdev v f).pfGen = s.pfGen := by unfold State.modVdev; split <;> rfl
@[simp] theorem modVdev_cmCount (s : State) (v : Nat) (f : VDev → VDev) : (s.modVdev v f).cmCount = s.cmCount := by unfold State.modVdev; split <;> rfl
@[simp] theorem modVdev_fold (s : State) (v : Nat) (f : VDev → VDev) : (s.modVdev v f).fold = s.fold := by unfold State.modVdev; split <;> rfl
@[simp] theorem modVdev_columns (s : State) (v : Nat) (f : VDev → VDev) : (s.modVdev v f).columns = s.columns := by unfold State.modVdev; split <;> rfl
@[simp] theorem modVdev_columnsGone (s : State) (v : Nat) (f : VDev → VDev) : (s.modVdev v f).columnsGone = s.columnsGone := by unfold State.modVdev; split <;> rfl
@[simp] theorem modVdev_folds (s : State) (v : Nat) (f : VDev → VDev) : (s.modVdev v f).folds = s.folds := by unfold State.modVdev; split <;> rfl
@[simp] theorem modVdev_hbmFree (s : State) (v : Nat) (f : VDev → VDev) : (s.modVdev v f).hbmFree = s.hbmFree := by unfold State.modVdev; split <;> rfl
@[simp] theorem modVdev_pool (s : State) (v : Nat) (f : VDev → VDev) : (s.modVdev v f).pool = s.pool := by unfold State.modVdev; split <;> rfl
@[simp] theorem modVdev_ueCol (s : State) (v : Nat) (f : VDev → VDev) : (s.modVdev v f).ueCol = s.ueCol := by unfold State.modVdev; split <;> rfl
@[simp] theorem modVdev_ioPsn (s : State) (v : Nat) (f : VDev → VDev) : (s.modVdev v f).ioPsn = s.ioPsn := by unfold State.modVdev; split <;> rfl
@[simp] theorem modVdev_cores (s : State) (v : Nat) (f : VDev → VDev) : (s.modVdev v f).cores = s.cores := by unfold State.modVdev; split <;> rfl
@[simp] theorem modVdev_svrBase (s : State) (v : Nat) (f : VDev → VDev) : (s.modVdev v f).svrBase = s.svrBase := by unfold State.modVdev; split <;> rfl
@[simp] theorem modVdev_svrHead (s : State) (v : Nat) (f : VDev → VDev) : (s.modVdev v f).svrHead = s.svrHead := by unfold State.modVdev; split <;> rfl
@[simp] theorem modVdev_svrTail (s : State) (v : Nat) (f : VDev → VDev) : (s.modVdev v f).svrTail = s.svrTail := by unfold State.modVdev; split <;> rfl
@[simp] theorem modVdev_svcCore (s : State) (v : Nat) (f : VDev → VDev) : (s.modVdev v f).svcCore = s.svcCore := by unfold State.modVdev; split <;> rfl
@[simp] theorem modVdev_svcRecs (s : State) (v : Nat) (f : VDev → VDev) : (s.modVdev v f).svcRecs = s.svcRecs := by unfold State.modVdev; split <;> rfl
@[simp] theorem modVdev_svcTaken (s : State) (v : Nat) (f : VDev → VDev) : (s.modVdev v f).svcTaken = s.svcTaken := by unfold State.modVdev; split <;> rfl
@[simp] theorem modVdev_trusses (s : State) (v : Nat) (f : VDev → VDev) : (s.modVdev v f).trusses = s.trusses := by unfold State.modVdev; split <;> rfl
@[simp] theorem modVdev_launches (s : State) (v : Nat) (f : VDev → VDev) : (s.modVdev v f).launches = s.launches := by unfold State.modVdev; split <;> rfl
@[simp] theorem modVdev_amsgFly (s : State) (v : Nat) (f : VDev → VDev) : (s.modVdev v f).amsgFly = s.amsgFly := by unfold State.modVdev; split <;> rfl
@[simp] theorem modVdev_remap (s : State) (v : Nat) (f : VDev → VDev) : (s.modVdev v f).remap = s.remap := by unfold State.modVdev; split <;> rfl
@[simp] theorem modVdev_kickMap (s : State) (v : Nat) (f : VDev → VDev) : (s.modVdev v f).kickMap = s.kickMap := by unfold State.modVdev; split <;> rfl
@[simp] theorem modVdev_qcbs (s : State) (v : Nat) (f : VDev → VDev) : (s.modVdev v f).qcbs = s.qcbs := by unfold State.modVdev; split <;> rfl
@[simp] theorem modVdev_sets (s : State) (v : Nat) (f : VDev → VDev) : (s.modVdev v f).sets = s.sets := by unfold State.modVdev; split <;> rfl
@[simp] theorem modVdev_kills (s : State) (v : Nat) (f : VDev → VDev) : (s.modVdev v f).kills = s.kills := by unfold State.modVdev; split <;> rfl
@[simp] theorem modVdev_passesDue (s : State) (v : Nat) (f : VDev → VDev) : (s.modVdev v f).passesDue = s.passesDue := by unfold State.modVdev; split <;> rfl
@[simp] theorem modVdev_passAt (s : State) (v : Nat) (f : VDev → VDev) : (s.modVdev v f).passAt = s.passAt := by unfold State.modVdev; split <;> rfl
@[simp] theorem modVdev_ctxParts (s : State) (v : Nat) (f : VDev → VDev) : (s.modVdev v f).ctxParts = s.ctxParts := by unfold State.modVdev; split <;> rfl
@[simp] theorem modVdev_qpFallback (s : State) (v : Nat) (f : VDev → VDev) : (s.modVdev v f).qpFallback = s.qpFallback := by unfold State.modVdev; split <;> rfl
@[simp] theorem modVdev_qpCursor (s : State) (v : Nat) (f : VDev → VDev) : (s.modVdev v f).qpCursor = s.qpCursor := by unfold State.modVdev; split <;> rfl
@[simp] theorem modVdev_mbcmd (s : State) (v : Nat) (f : VDev → VDev) : (s.modVdev v f).mbcmd = s.mbcmd := by unfold State.modVdev; split <;> rfl
@[simp] theorem modVdev_mbBusy (s : State) (v : Nat) (f : VDev → VDev) : (s.modVdev v f).mbBusy = s.mbBusy := by unfold State.modVdev; split <;> rfl
@[simp] theorem modVdev_mbStatus (s : State) (v : Nat) (f : VDev → VDev) : (s.modVdev v f).mbStatus = s.mbStatus := by unfold State.modVdev; split <;> rfl
@[simp] theorem modVdev_mbOut (s : State) (v : Nat) (f : VDev → VDev) : (s.modVdev v f).mbOut = s.mbOut := by unfold State.modVdev; split <;> rfl
@[simp] theorem modVdev_evBase (s : State) (v : Nat) (f : VDev → VDev) : (s.modVdev v f).evBase = s.evBase := by unfold State.modVdev; split <;> rfl
@[simp] theorem modVdev_evSize (s : State) (v : Nat) (f : VDev → VDev) : (s.modVdev v f).evSize = s.evSize := by unfold State.modVdev; split <;> rfl
@[simp] theorem modVdev_evTail (s : State) (v : Nat) (f : VDev → VDev) : (s.modVdev v f).evTail = s.evTail := by unfold State.modVdev; split <;> rfl
@[simp] theorem modVdev_evHead (s : State) (v : Nat) (f : VDev → VDev) : (s.modVdev v f).evHead = s.evHead := by unfold State.modVdev; split <;> rfl
@[simp] theorem modVdev_evWait (s : State) (v : Nat) (f : VDev → VDev) : (s.modVdev v f).evWait = s.evWait := by unfold State.modVdev; split <;> rfl
@[simp] theorem modVdev_fbcmd (s : State) (v : Nat) (f : VDev → VDev) : (s.modVdev v f).fbcmd = s.fbcmd := by unfold State.modVdev; split <;> rfl
@[simp] theorem modVdev_fbBusy (s : State) (v : Nat) (f : VDev → VDev) : (s.modVdev v f).fbBusy = s.fbBusy := by unfold State.modVdev; split <;> rfl
@[simp] theorem modVdev_fbStatus (s : State) (v : Nat) (f : VDev → VDev) : (s.modVdev v f).fbStatus = s.fbStatus := by unfold State.modVdev; split <;> rfl
@[simp] theorem modVdev_fbOut (s : State) (v : Nat) (f : VDev → VDev) : (s.modVdev v f).fbOut = s.fbOut := by unfold State.modVdev; split <;> rfl
@[simp] theorem modVdev_cecnt (s : State) (v : Nat) (f : VDev → VDev) : (s.modVdev v f).cecnt = s.cecnt := by unfold State.modVdev; split <;> rfl
@[simp] theorem modVdev_uecnt (s : State) (v : Nat) (f : VDev → VDev) : (s.modVdev v f).uecnt = s.uecnt := by unfold State.modVdev; split <;> rfl
@[simp] theorem modVdev_strikes (s : State) (v : Nat) (f : VDev → VDev) : (s.modVdev v f).strikes = s.strikes := by unfold State.modVdev; split <;> rfl
@[simp] theorem modVdev_degrade (s : State) (v : Nat) (f : VDev → VDev) : (s.modVdev v f).degrade = s.degrade := by unfold State.modVdev; split <;> rfl
@[simp] theorem modVdev_rrcnt (s : State) (v : Nat) (f : VDev → VDev) : (s.modVdev v f).rrcnt = s.rrcnt := by unfold State.modVdev; split <;> rfl
@[simp] theorem modVdev_cecthr (s : State) (v : Nat) (f : VDev → VDev) : (s.modVdev v f).cecthr = s.cecthr := by unfold State.modVdev; split <;> rfl
@[simp] theorem modVdev_discards (s : State) (v : Nat) (f : VDev → VDev) : (s.modVdev v f).discards = s.discards := by unfold State.modVdev; split <;> rfl
@[simp] theorem modVdev_capctl (s : State) (v : Nat) (f : VDev → VDev) : (s.modVdev v f).capctl = s.capctl := by unfold State.modVdev; split <;> rfl
@[simp] theorem modVdev_capbase (s : State) (v : Nat) (f : VDev → VDev) : (s.modVdev v f).capbase = s.capbase := by unfold State.modVdev; split <;> rfl
@[simp] theorem modVdev_capsize (s : State) (v : Nat) (f : VDev → VDev) : (s.modVdev v f).capsize = s.capsize := by unfold State.modVdev; split <;> rfl
@[simp] theorem modVdev_captail (s : State) (v : Nat) (f : VDev → VDev) : (s.modVdev v f).captail = s.captail := by unfold State.modVdev; split <;> rfl
@[simp] theorem modVdev_caphead (s : State) (v : Nat) (f : VDev → VDev) : (s.modVdev v f).caphead = s.caphead := by unfold State.modVdev; split <;> rfl
@[simp] theorem modVdev_replayed (s : State) (v : Nat) (f : VDev → VDev) : (s.modVdev v f).replayed = s.replayed := by unfold State.modVdev; split <;> rfl
@[simp] theorem modVdev_pfHost (s : State) (v : Nat) (f : VDev → VDev) : (s.modVdev v f).pfHost = s.pfHost := by unfold State.modVdev; split <;> rfl
@[simp] theorem modVdev_fwSvn (s : State) (v : Nat) (f : VDev → VDev) : (s.modVdev v f).fwSvn = s.fwSvn := by unfold State.modVdev; split <;> rfl
@[simp] theorem modVdev_cfgSvn (s : State) (v : Nat) (f : VDev → VDev) : (s.modVdev v f).cfgSvn = s.cfgSvn := by unfold State.modVdev; split <;> rfl
@[simp] theorem modVdev_fwDigest (s : State) (v : Nat) (f : VDev → VDev) : (s.modVdev v f).fwDigest = s.fwDigest := by unfold State.modVdev; split <;> rfl
@[simp] theorem modVdev_cfgDigest (s : State) (v : Nat) (f : VDev → VDev) : (s.modVdev v f).cfgDigest = s.cfgDigest := by unfold State.modVdev; split <;> rfl
@[simp] theorem modVdev_nonce (s : State) (v : Nat) (f : VDev → VDev) : (s.modVdev v f).nonce = s.nonce := by unfold State.modVdev; split <;> rfl
@[simp] theorem modVdev_attaddr (s : State) (v : Nat) (f : VDev → VDev) : (s.modVdev v f).attaddr = s.attaddr := by unfold State.modVdev; split <;> rfl
@[simp] theorem modVdev_attstat (s : State) (v : Nat) (f : VDev → VDev) : (s.modVdev v f).attstat = s.attstat := by unfold State.modVdev; split <;> rfl
@[simp] theorem modVdev_pwrlim (s : State) (v : Nat) (f : VDev → VDev) : (s.modVdev v f).pwrlim = s.pwrlim := by unfold State.modVdev; split <;> rfl
@[simp] theorem modVdev_pwrnow (s : State) (v : Nat) (f : VDev → VDev) : (s.modVdev v f).pwrnow = s.pwrnow := by unfold State.modVdev; split <;> rfl
@[simp] theorem modVdev_tjmax (s : State) (v : Nat) (f : VDev → VDev) : (s.modVdev v f).tjmax = s.tjmax := by unfold State.modVdev; split <;> rfl
@[simp] theorem modVdev_junction (s : State) (v : Nat) (f : VDev → VDev) : (s.modVdev v f).junction = s.junction := by unfold State.modVdev; split <;> rfl
@[simp] theorem modVdev_fabricId (s : State) (v : Nat) (f : VDev → VDev) : (s.modVdev v f).fabricId = s.fabricId := by unfold State.modVdev; split <;> rfl
@[simp] theorem modVdev_qcbBase (s : State) (v : Nat) (f : VDev → VDev) : (s.modVdev v f).qcbBase = s.qcbBase := by unfold State.modVdev; split <;> rfl
@[simp] theorem modVdev_contribBase (s : State) (v : Nat) (f : VDev → VDev) : (s.modVdev v f).contribBase = s.contribBase := by unfold State.modVdev; split <;> rfl
@[simp] theorem modVdev_poolLo (s : State) (v : Nat) (f : VDev → VDev) : (s.modVdev v f).poolLo = s.poolLo := by unfold State.modVdev; split <;> rfl
@[simp] theorem modVdev_poolHi (s : State) (v : Nat) (f : VDev → VDev) : (s.modVdev v f).poolHi = s.poolHi := by unfold State.modVdev; split <;> rfl
@[simp] theorem modVdev_links (s : State) (v : Nat) (f : VDev → VDev) : (s.modVdev v f).links = s.links := by unfold State.modVdev; split <;> rfl
@[simp] theorem modVdev_routes (s : State) (v : Nat) (f : VDev → VDev) : (s.modVdev v f).routes = s.routes := by unfold State.modVdev; split <;> rfl
@[simp] theorem modVdev_endpoints (s : State) (v : Nat) (f : VDev → VDev) : (s.modVdev v f).endpoints = s.endpoints := by unfold State.modVdev; split <;> rfl
@[simp] theorem modVdev_groups (s : State) (v : Nat) (f : VDev → VDev) : (s.modVdev v f).groups = s.groups := by unfold State.modVdev; split <;> rfl
@[simp] theorem modVdev_outgoing (s : State) (v : Nat) (f : VDev → VDev) : (s.modVdev v f).outgoing = s.outgoing := by unfold State.modVdev; split <;> rfl
@[simp] theorem modVdev_nextXid (s : State) (v : Nat) (f : VDev → VDev) : (s.modVdev v f).nextXid = s.nextXid := by unfold State.modVdev; split <;> rfl
@[simp] theorem modVdev_forwards (s : State) (v : Nat) (f : VDev → VDev) : (s.modVdev v f).forwards = s.forwards := by unfold State.modVdev; split <;> rfl
@[simp] theorem modVdev_inbound (s : State) (v : Nat) (f : VDev → VDev) : (s.modVdev v f).inbound = s.inbound := by unfold State.modVdev; split <;> rfl
@[simp] theorem modVdev_xmit (s : State) (v : Nat) (f : VDev → VDev) : (s.modVdev v f).xmit = s.xmit := by unfold State.modVdev; split <;> rfl
@[simp] theorem modVdev_contribs (s : State) (v : Nat) (f : VDev → VDev) : (s.modVdev v f).contribs = s.contribs := by unfold State.modVdev; split <;> rfl
@[simp] theorem modVdev_contribStats (s : State) (v : Nat) (f : VDev → VDev) : (s.modVdev v f).contribStats = s.contribStats := by unfold State.modVdev; split <;> rfl
@[simp] theorem modVdev_summed (s : State) (v : Nat) (f : VDev → VDev) : (s.modVdev v f).summed = s.summed := by unfold State.modVdev; split <;> rfl
@[simp] theorem modVdev_nextCn (s : State) (v : Nat) (f : VDev → VDev) : (s.modVdev v f).nextCn = s.nextCn := by unfold State.modVdev; split <;> rfl
@[simp] theorem modVdev_gathers (s : State) (v : Nat) (f : VDev → VDev) : (s.modVdev v f).gathers = s.gathers := by unfold State.modVdev; split <;> rfl
@[simp] theorem modVdev_seen (s : State) (v : Nat) (f : VDev → VDev) : (s.modVdev v f).seen = s.seen := by unfold State.modVdev; split <;> rfl
@[simp] theorem modVdev_hostOut (s : State) (v : Nat) (f : VDev → VDev) : (s.modVdev v f).hostOut = s.hostOut := by unfold State.modVdev; split <;> rfl
@[simp] theorem modVdev_hostUp (s : State) (v : Nat) (f : VDev → VDev) : (s.modVdev v f).hostUp = s.hostUp := by unfold State.modVdev; split <;> rfl
@[simp] theorem modVdev_hostWait (s : State) (v : Nat) (f : VDev → VDev) : (s.modVdev v f).hostWait = s.hostWait := by unfold State.modVdev; split <;> rfl

/-! ### A course moves on -/

@[simp] theorem moved_v (k : Course) (clk core n : Nat) : (k.moved clk core n).v = k.v := rfl
@[simp] theorem moved_g (k : Course) (clk core n : Nat) : (k.moved clk core n).g = k.g := rfl
@[simp] theorem moved_p (k : Course) (clk core n : Nat) : (k.moved clk core n).p = k.p := rfl
@[simp] theorem moved_tok (k : Course) (clk core n : Nat) : (k.moved clk core n).tok = k.tok := rfl
@[simp] theorem moved_pc (k : Course) (clk core n : Nat) : (k.moved clk core n).pc = k.pc := rfl
@[simp] theorem moved_lanes (k : Course) (clk core n : Nat) : (k.moved clk core n).lanes = k.lanes := rfl
@[simp] theorem moved_exited (k : Course) (clk core n : Nat) : (k.moved clk core n).exited = k.exited := rfl
@[simp] theorem moved_tm (k : Course) (clk core n : Nat) : (k.moved clk core n).tm = k.tm := rfl
@[simp] theorem moved_tkmask (k : Course) (clk core n : Nat) : (k.moved clk core n).tkmask = k.tkmask := rfl
@[simp] theorem moved_strict (k : Course) (clk core n : Nat) : (k.moved clk core n).strict = k.strict := rfl
@[simp] theorem moved_region (k : Course) (clk core n : Nat) : (k.moved clk core n).region = k.region := rfl
@[simp] theorem moved_regionAt (k : Course) (clk core n : Nat) : (k.moved clk core n).regionAt = k.regionAt := rfl
@[simp] theorem moved_rgstate (k : Course) (clk core n : Nat) : (k.moved clk core n).rgstate = k.rgstate := rfl
@[simp] theorem moved_rowprog (k : Course) (clk core n : Nat) : (k.moved clk core n).rowprog = k.rowprog := rfl
@[simp] theorem moved_rmode (k : Course) (clk core n : Nat) : (k.moved clk core n).rmode = k.rmode := rfl
@[simp] theorem moved_frames (k : Course) (clk core n : Nat) : (k.moved clk core n).frames = k.frames := rfl
@[simp] theorem moved_div (k : Course) (clk core n : Nat) : (k.moved clk core n).div = k.div := rfl
@[simp] theorem moved_bsync (k : Course) (clk core n : Nat) : (k.moved clk core n).bsync = k.bsync := rfl
@[simp] theorem moved_ctxArea (k : Course) (clk core n : Nat) : (k.moved clk core n).ctxArea = k.ctxArea := rfl
@[simp] theorem moved_role (k : Course) (clk core n : Nat) : (k.moved clk core n).role = k.role := rfl
@[simp] theorem moved_slot (k : Course) (clk core n : Nat) : (k.moved clk core n).slot = k.slot := rfl
@[simp] theorem moved_ops (k : Course) (clk core n : Nat) : (k.moved clk core n).ops = k.ops := rfl
@[simp] theorem moved_nextOp (k : Course) (clk core n : Nat) : (k.moved clk core n).nextOp = k.nextOp := rfl
@[simp] theorem moved_hold (k : Course) (clk core n : Nat) : (k.moved clk core n).hold = k.hold := rfl
@[simp] theorem moved_barBlocked (k : Course) (clk core n : Nat) : (k.moved clk core n).barBlocked = k.barBlocked := rfl
@[simp] theorem moved_barWoke (k : Course) (clk core n : Nat) : (k.moved clk core n).barWoke = k.barWoke := rfl
@[simp] theorem moved_late (k : Course) (clk core n : Nat) : (k.moved clk core n).late = k.late := rfl
@[simp] theorem moved_debugPend (k : Course) (clk core n : Nat) : (k.moved clk core n).debugPend = k.debugPend := rfl
@[simp] theorem moved_rollbackPend (k : Course) (clk core n : Nat) : (k.moved clk core n).rollbackPend = k.rollbackPend := rfl
@[simp] theorem moved_ovfPend (k : Course) (clk core n : Nat) : (k.moved clk core n).ovfPend = k.ovfPend := rfl
@[simp] theorem moved_abn (k : Course) (clk core n : Nat) : (k.moved clk core n).abn = k.abn := rfl
@[simp] theorem moved_cstate (k : Course) (clk core n : Nat) : (k.moved clk core n).cstate = k.cstate := rfl
@[simp] theorem moved_created (k : Course) (clk core n : Nat) : (k.moved clk core n).created = k.created := rfl
@[simp] theorem moved_restored (k : Course) (clk core n : Nat) : (k.moved clk core n).restored = k.restored := rfl
@[simp] theorem moved_quarantine (k : Course) (clk core n : Nat) : (k.moved clk core n).quarantine = k.quarantine := rfl
@[simp] theorem moved_matWrote (k : Course) (clk core n : Nat) : (k.moved clk core n).matWrote = k.matWrote := rfl
@[simp] theorem moved_rowStart (k : Course) (clk core n : Nat) : (k.moved clk core n).rowStart = k.rowStart := rfl
@[simp] theorem moved_fetch (k : Course) (clk core n : Nat) : (k.moved clk core n).fetch = k.fetch := rfl
@[simp] theorem moved_ahead (k : Course) (clk core n : Nat) : (k.moved clk core n).ahead = k.ahead := rfl
@[simp] theorem moved_chain (k : Course) (clk core n : Nat) : (k.moved clk core n).chain = k.chain := rfl
@[simp] theorem moved_psn (k : Course) (clk core n : Nat) : (k.moved clk core n).psn = k.psn := rfl
@[simp] theorem moved_inval (k : Course) (clk core n : Nat) : (k.moved clk core n).inval = k.inval := rfl

@[simp] theorem closeShadows_v (k : Course) : (k.closeShadows).v = k.v := rfl
@[simp] theorem closeShadows_g (k : Course) : (k.closeShadows).g = k.g := rfl
@[simp] theorem closeShadows_p (k : Course) : (k.closeShadows).p = k.p := rfl
@[simp] theorem closeShadows_tok (k : Course) : (k.closeShadows).tok = k.tok := rfl
@[simp] theorem closeShadows_pc (k : Course) : (k.closeShadows).pc = k.pc := rfl
@[simp] theorem closeShadows_lanes (k : Course) : (k.closeShadows).lanes = k.lanes := rfl
@[simp] theorem closeShadows_exited (k : Course) : (k.closeShadows).exited = k.exited := rfl
@[simp] theorem closeShadows_tm (k : Course) : (k.closeShadows).tm = k.tm := rfl
@[simp] theorem closeShadows_tkmask (k : Course) : (k.closeShadows).tkmask = k.tkmask := rfl
@[simp] theorem closeShadows_strict (k : Course) : (k.closeShadows).strict = k.strict := rfl
@[simp] theorem closeShadows_region (k : Course) : (k.closeShadows).region = k.region := rfl
@[simp] theorem closeShadows_regionAt (k : Course) : (k.closeShadows).regionAt = k.regionAt := rfl
@[simp] theorem closeShadows_rgstate (k : Course) : (k.closeShadows).rgstate = k.rgstate := rfl
@[simp] theorem closeShadows_rowprog (k : Course) : (k.closeShadows).rowprog = k.rowprog := rfl
@[simp] theorem closeShadows_rmode (k : Course) : (k.closeShadows).rmode = k.rmode := rfl
@[simp] theorem closeShadows_frames (k : Course) : (k.closeShadows).frames = k.frames := rfl
@[simp] theorem closeShadows_div (k : Course) : (k.closeShadows).div = k.div := rfl
@[simp] theorem closeShadows_bsync (k : Course) : (k.closeShadows).bsync = k.bsync := rfl
@[simp] theorem closeShadows_ctxArea (k : Course) : (k.closeShadows).ctxArea = k.ctxArea := rfl
@[simp] theorem closeShadows_role (k : Course) : (k.closeShadows).role = k.role := rfl
@[simp] theorem closeShadows_slot (k : Course) : (k.closeShadows).slot = k.slot := rfl
@[simp] theorem closeShadows_pos (k : Course) : (k.closeShadows).pos = k.pos := rfl
@[simp] theorem closeShadows_ops (k : Course) : (k.closeShadows).ops = k.ops := rfl
@[simp] theorem closeShadows_nextOp (k : Course) : (k.closeShadows).nextOp = k.nextOp := rfl
@[simp] theorem closeShadows_hold (k : Course) : (k.closeShadows).hold = k.hold := rfl
@[simp] theorem closeShadows_barBlocked (k : Course) : (k.closeShadows).barBlocked = k.barBlocked := rfl
@[simp] theorem closeShadows_barWoke (k : Course) : (k.closeShadows).barWoke = k.barWoke := rfl
@[simp] theorem closeShadows_stalled (k : Course) : (k.closeShadows).stalled = k.stalled := rfl
@[simp] theorem closeShadows_late (k : Course) : (k.closeShadows).late = k.late := rfl
@[simp] theorem closeShadows_debugPend (k : Course) : (k.closeShadows).debugPend = k.debugPend := rfl
@[simp] theorem closeShadows_rollbackPend (k : Course) : (k.closeShadows).rollbackPend = k.rollbackPend := rfl
@[simp] theorem closeShadows_ovfPend (k : Course) : (k.closeShadows).ovfPend = k.ovfPend := rfl
@[simp] theorem closeShadows_abn (k : Course) : (k.closeShadows).abn = k.abn := rfl
@[simp] theorem closeShadows_cstate (k : Course) : (k.closeShadows).cstate = k.cstate := rfl
@[simp] theorem closeShadows_lastIssue (k : Course) : (k.closeShadows).lastIssue = k.lastIssue := rfl
@[simp] theorem closeShadows_created (k : Course) : (k.closeShadows).created = k.created := rfl
@[simp] theorem closeShadows_restored (k : Course) : (k.closeShadows).restored = k.restored := rfl
@[simp] theorem closeShadows_quarantine (k : Course) : (k.closeShadows).quarantine = k.quarantine := rfl
@[simp] theorem closeShadows_recent (k : Course) : (k.closeShadows).recent = k.recent := rfl
@[simp] theorem closeShadows_matWrote (k : Course) : (k.closeShadows).matWrote = k.matWrote := rfl
@[simp] theorem closeShadows_rowStart (k : Course) : (k.closeShadows).rowStart = k.rowStart := rfl
@[simp] theorem closeShadows_fetch (k : Course) : (k.closeShadows).fetch = k.fetch := rfl
@[simp] theorem closeShadows_ahead (k : Course) : (k.closeShadows).ahead = k.ahead := rfl
@[simp] theorem closeShadows_chain (k : Course) : (k.closeShadows).chain = k.chain := rfl
@[simp] theorem closeShadows_psn (k : Course) : (k.closeShadows).psn = k.psn := rfl
@[simp] theorem closeShadows_inval (k : Course) : (k.closeShadows).inval = k.inval := rfl

@[simp] theorem modOp_v (k : Course) (id : Nat) (f : TokOp → TokOp) : (k.modOp id f).v = k.v := rfl
@[simp] theorem modOp_g (k : Course) (id : Nat) (f : TokOp → TokOp) : (k.modOp id f).g = k.g := rfl
@[simp] theorem modOp_p (k : Course) (id : Nat) (f : TokOp → TokOp) : (k.modOp id f).p = k.p := rfl
@[simp] theorem modOp_tok (k : Course) (id : Nat) (f : TokOp → TokOp) : (k.modOp id f).tok = k.tok := rfl
@[simp] theorem modOp_pc (k : Course) (id : Nat) (f : TokOp → TokOp) : (k.modOp id f).pc = k.pc := rfl
@[simp] theorem modOp_lanes (k : Course) (id : Nat) (f : TokOp → TokOp) : (k.modOp id f).lanes = k.lanes := rfl
@[simp] theorem modOp_exited (k : Course) (id : Nat) (f : TokOp → TokOp) : (k.modOp id f).exited = k.exited := rfl
@[simp] theorem modOp_tm (k : Course) (id : Nat) (f : TokOp → TokOp) : (k.modOp id f).tm = k.tm := rfl
@[simp] theorem modOp_tkmask (k : Course) (id : Nat) (f : TokOp → TokOp) : (k.modOp id f).tkmask = k.tkmask := rfl
@[simp] theorem modOp_strict (k : Course) (id : Nat) (f : TokOp → TokOp) : (k.modOp id f).strict = k.strict := rfl
@[simp] theorem modOp_region (k : Course) (id : Nat) (f : TokOp → TokOp) : (k.modOp id f).region = k.region := rfl
@[simp] theorem modOp_regionAt (k : Course) (id : Nat) (f : TokOp → TokOp) : (k.modOp id f).regionAt = k.regionAt := rfl
@[simp] theorem modOp_rgstate (k : Course) (id : Nat) (f : TokOp → TokOp) : (k.modOp id f).rgstate = k.rgstate := rfl
@[simp] theorem modOp_rowprog (k : Course) (id : Nat) (f : TokOp → TokOp) : (k.modOp id f).rowprog = k.rowprog := rfl
@[simp] theorem modOp_fstat (k : Course) (id : Nat) (f : TokOp → TokOp) : (k.modOp id f).fstat = k.fstat := rfl
@[simp] theorem modOp_rmode (k : Course) (id : Nat) (f : TokOp → TokOp) : (k.modOp id f).rmode = k.rmode := rfl
@[simp] theorem modOp_frames (k : Course) (id : Nat) (f : TokOp → TokOp) : (k.modOp id f).frames = k.frames := rfl
@[simp] theorem modOp_div (k : Course) (id : Nat) (f : TokOp → TokOp) : (k.modOp id f).div = k.div := rfl
@[simp] theorem modOp_bsync (k : Course) (id : Nat) (f : TokOp → TokOp) : (k.modOp id f).bsync = k.bsync := rfl
@[simp] theorem modOp_ctxArea (k : Course) (id : Nat) (f : TokOp → TokOp) : (k.modOp id f).ctxArea = k.ctxArea := rfl
@[simp] theorem modOp_role (k : Course) (id : Nat) (f : TokOp → TokOp) : (k.modOp id f).role = k.role := rfl
@[simp] theorem modOp_slot (k : Course) (id : Nat) (f : TokOp → TokOp) : (k.modOp id f).slot = k.slot := rfl
@[simp] theorem modOp_pos (k : Course) (id : Nat) (f : TokOp → TokOp) : (k.modOp id f).pos = k.pos := rfl
@[simp] theorem modOp_shadows (k : Course) (id : Nat) (f : TokOp → TokOp) : (k.modOp id f).shadows = k.shadows := rfl
@[simp] theorem modOp_flagShadows (k : Course) (id : Nat) (f : TokOp → TokOp) : (k.modOp id f).flagShadows = k.flagShadows := rfl
@[simp] theorem modOp_nextOp (k : Course) (id : Nat) (f : TokOp → TokOp) : (k.modOp id f).nextOp = k.nextOp := rfl
@[simp] theorem modOp_hold (k : Course) (id : Nat) (f : TokOp → TokOp) : (k.modOp id f).hold = k.hold := rfl
@[simp] theorem modOp_barBlocked (k : Course) (id : Nat) (f : TokOp → TokOp) : (k.modOp id f).barBlocked = k.barBlocked := rfl
@[simp] theorem modOp_barWoke (k : Course) (id : Nat) (f : TokOp → TokOp) : (k.modOp id f).barWoke = k.barWoke := rfl
@[simp] theorem modOp_stalled (k : Course) (id : Nat) (f : TokOp → TokOp) : (k.modOp id f).stalled = k.stalled := rfl
@[simp] theorem modOp_late (k : Course) (id : Nat) (f : TokOp → TokOp) : (k.modOp id f).late = k.late := rfl
@[simp] theorem modOp_debugPend (k : Course) (id : Nat) (f : TokOp → TokOp) : (k.modOp id f).debugPend = k.debugPend := rfl
@[simp] theorem modOp_rollbackPend (k : Course) (id : Nat) (f : TokOp → TokOp) : (k.modOp id f).rollbackPend = k.rollbackPend := rfl
@[simp] theorem modOp_ovfPend (k : Course) (id : Nat) (f : TokOp → TokOp) : (k.modOp id f).ovfPend = k.ovfPend := rfl
@[simp] theorem modOp_abn (k : Course) (id : Nat) (f : TokOp → TokOp) : (k.modOp id f).abn = k.abn := rfl
@[simp] theorem modOp_cstate (k : Course) (id : Nat) (f : TokOp → TokOp) : (k.modOp id f).cstate = k.cstate := rfl
@[simp] theorem modOp_lastIssue (k : Course) (id : Nat) (f : TokOp → TokOp) : (k.modOp id f).lastIssue = k.lastIssue := rfl
@[simp] theorem modOp_created (k : Course) (id : Nat) (f : TokOp → TokOp) : (k.modOp id f).created = k.created := rfl
@[simp] theorem modOp_restored (k : Course) (id : Nat) (f : TokOp → TokOp) : (k.modOp id f).restored = k.restored := rfl
@[simp] theorem modOp_quarantine (k : Course) (id : Nat) (f : TokOp → TokOp) : (k.modOp id f).quarantine = k.quarantine := rfl
@[simp] theorem modOp_recent (k : Course) (id : Nat) (f : TokOp → TokOp) : (k.modOp id f).recent = k.recent := rfl
@[simp] theorem modOp_matWrote (k : Course) (id : Nat) (f : TokOp → TokOp) : (k.modOp id f).matWrote = k.matWrote := rfl
@[simp] theorem modOp_rowStart (k : Course) (id : Nat) (f : TokOp → TokOp) : (k.modOp id f).rowStart = k.rowStart := rfl
@[simp] theorem modOp_fetch (k : Course) (id : Nat) (f : TokOp → TokOp) : (k.modOp id f).fetch = k.fetch := rfl
@[simp] theorem modOp_ahead (k : Course) (id : Nat) (f : TokOp → TokOp) : (k.modOp id f).ahead = k.ahead := rfl
@[simp] theorem modOp_chain (k : Course) (id : Nat) (f : TokOp → TokOp) : (k.modOp id f).chain = k.chain := rfl
@[simp] theorem modOp_psn (k : Course) (id : Nat) (f : TokOp → TokOp) : (k.modOp id f).psn = k.psn := rfl
@[simp] theorem modOp_inval (k : Course) (id : Nat) (f : TokOp → TokOp) : (k.modOp id f).inval = k.inval := rfl

@[simp] theorem land_tok (k : Course) (tick L : Nat) (w : RegVal) : (k.land tick L w).tok = k.tok := by cases w <;> first | rfl | (unfold Course.land Course.blend; dsimp only; split <;> rfl)
@[simp] theorem land_pc (k : Course) (tick L : Nat) (w : RegVal) : (k.land tick L w).pc = k.pc := by cases w <;> first | rfl | (unfold Course.land Course.blend; dsimp only; split <;> rfl)
@[simp] theorem land_lanes (k : Course) (tick L : Nat) (w : RegVal) : (k.land tick L w).lanes = k.lanes := by cases w <;> first | rfl | (unfold Course.land Course.blend; dsimp only; split <;> rfl)
@[simp] theorem land_exited (k : Course) (tick L : Nat) (w : RegVal) : (k.land tick L w).exited = k.exited := by cases w <;> first | rfl | (unfold Course.land Course.blend; dsimp only; split <;> rfl)
@[simp] theorem land_tm (k : Course) (tick L : Nat) (w : RegVal) : (k.land tick L w).tm = k.tm := by cases w <;> first | rfl | (unfold Course.land Course.blend; dsimp only; split <;> rfl)
@[simp] theorem land_tkmask (k : Course) (tick L : Nat) (w : RegVal) : (k.land tick L w).tkmask = k.tkmask := by cases w <;> first | rfl | (unfold Course.land Course.blend; dsimp only; split <;> rfl)
@[simp] theorem land_strict (k : Course) (tick L : Nat) (w : RegVal) : (k.land tick L w).strict = k.strict := by cases w <;> first | rfl | (unfold Course.land Course.blend; dsimp only; split <;> rfl)
@[simp] theorem land_region (k : Course) (tick L : Nat) (w : RegVal) : (k.land tick L w).region = k.region := by cases w <;> first | rfl | (unfold Course.land Course.blend; dsimp only; split <;> rfl)
@[simp] theorem land_regionAt (k : Course) (tick L : Nat) (w : RegVal) : (k.land tick L w).regionAt = k.regionAt := by cases w <;> first | rfl | (unfold Course.land Course.blend; dsimp only; split <;> rfl)
@[simp] theorem land_rgstate (k : Course) (tick L : Nat) (w : RegVal) : (k.land tick L w).rgstate = k.rgstate := by cases w <;> first | rfl | (unfold Course.land Course.blend; dsimp only; split <;> rfl)
@[simp] theorem land_rowprog (k : Course) (tick L : Nat) (w : RegVal) : (k.land tick L w).rowprog = k.rowprog := by cases w <;> first | rfl | (unfold Course.land Course.blend; dsimp only; split <;> rfl)
@[simp] theorem land_fstat (k : Course) (tick L : Nat) (w : RegVal) : (k.land tick L w).fstat = k.fstat := by cases w <;> first | rfl | (unfold Course.land Course.blend; dsimp only; split <;> rfl)
@[simp] theorem land_rmode (k : Course) (tick L : Nat) (w : RegVal) : (k.land tick L w).rmode = k.rmode := by cases w <;> first | rfl | (unfold Course.land Course.blend; dsimp only; split <;> rfl)
@[simp] theorem land_frames (k : Course) (tick L : Nat) (w : RegVal) : (k.land tick L w).frames = k.frames := by cases w <;> first | rfl | (unfold Course.land Course.blend; dsimp only; split <;> rfl)
@[simp] theorem land_div (k : Course) (tick L : Nat) (w : RegVal) : (k.land tick L w).div = k.div := by cases w <;> first | rfl | (unfold Course.land Course.blend; dsimp only; split <;> rfl)
@[simp] theorem land_bsync (k : Course) (tick L : Nat) (w : RegVal) : (k.land tick L w).bsync = k.bsync := by cases w <;> first | rfl | (unfold Course.land Course.blend; dsimp only; split <;> rfl)
@[simp] theorem land_ctxArea (k : Course) (tick L : Nat) (w : RegVal) : (k.land tick L w).ctxArea = k.ctxArea := by cases w <;> first | rfl | (unfold Course.land Course.blend; dsimp only; split <;> rfl)
@[simp] theorem land_role (k : Course) (tick L : Nat) (w : RegVal) : (k.land tick L w).role = k.role := by cases w <;> first | rfl | (unfold Course.land Course.blend; dsimp only; split <;> rfl)
@[simp] theorem land_slot (k : Course) (tick L : Nat) (w : RegVal) : (k.land tick L w).slot = k.slot := by cases w <;> first | rfl | (unfold Course.land Course.blend; dsimp only; split <;> rfl)
@[simp] theorem land_pos (k : Course) (tick L : Nat) (w : RegVal) : (k.land tick L w).pos = k.pos := by cases w <;> first | rfl | (unfold Course.land Course.blend; dsimp only; split <;> rfl)
@[simp] theorem land_flagShadows (k : Course) (tick L : Nat) (w : RegVal) : (k.land tick L w).flagShadows = k.flagShadows := by cases w <;> first | rfl | (unfold Course.land Course.blend; dsimp only; split <;> rfl)
@[simp] theorem land_nextOp (k : Course) (tick L : Nat) (w : RegVal) : (k.land tick L w).nextOp = k.nextOp := by cases w <;> first | rfl | (unfold Course.land Course.blend; dsimp only; split <;> rfl)
@[simp] theorem land_hold (k : Course) (tick L : Nat) (w : RegVal) : (k.land tick L w).hold = k.hold := by cases w <;> first | rfl | (unfold Course.land Course.blend; dsimp only; split <;> rfl)
@[simp] theorem land_barBlocked (k : Course) (tick L : Nat) (w : RegVal) : (k.land tick L w).barBlocked = k.barBlocked := by cases w <;> first | rfl | (unfold Course.land Course.blend; dsimp only; split <;> rfl)
@[simp] theorem land_barWoke (k : Course) (tick L : Nat) (w : RegVal) : (k.land tick L w).barWoke = k.barWoke := by cases w <;> first | rfl | (unfold Course.land Course.blend; dsimp only; split <;> rfl)
@[simp] theorem land_stalled (k : Course) (tick L : Nat) (w : RegVal) : (k.land tick L w).stalled = k.stalled := by cases w <;> first | rfl | (unfold Course.land Course.blend; dsimp only; split <;> rfl)
@[simp] theorem land_late (k : Course) (tick L : Nat) (w : RegVal) : (k.land tick L w).late = k.late := by cases w <;> first | rfl | (unfold Course.land Course.blend; dsimp only; split <;> rfl)
@[simp] theorem land_debugPend (k : Course) (tick L : Nat) (w : RegVal) : (k.land tick L w).debugPend = k.debugPend := by cases w <;> first | rfl | (unfold Course.land Course.blend; dsimp only; split <;> rfl)
@[simp] theorem land_rollbackPend (k : Course) (tick L : Nat) (w : RegVal) : (k.land tick L w).rollbackPend = k.rollbackPend := by cases w <;> first | rfl | (unfold Course.land Course.blend; dsimp only; split <;> rfl)
@[simp] theorem land_ovfPend (k : Course) (tick L : Nat) (w : RegVal) : (k.land tick L w).ovfPend = k.ovfPend := by cases w <;> first | rfl | (unfold Course.land Course.blend; dsimp only; split <;> rfl)
@[simp] theorem land_abn (k : Course) (tick L : Nat) (w : RegVal) : (k.land tick L w).abn = k.abn := by cases w <;> first | rfl | (unfold Course.land Course.blend; dsimp only; split <;> rfl)
@[simp] theorem land_cstate (k : Course) (tick L : Nat) (w : RegVal) : (k.land tick L w).cstate = k.cstate := by cases w <;> first | rfl | (unfold Course.land Course.blend; dsimp only; split <;> rfl)
@[simp] theorem land_lastIssue (k : Course) (tick L : Nat) (w : RegVal) : (k.land tick L w).lastIssue = k.lastIssue := by cases w <;> first | rfl | (unfold Course.land Course.blend; dsimp only; split <;> rfl)
@[simp] theorem land_created (k : Course) (tick L : Nat) (w : RegVal) : (k.land tick L w).created = k.created := by cases w <;> first | rfl | (unfold Course.land Course.blend; dsimp only; split <;> rfl)
@[simp] theorem land_restored (k : Course) (tick L : Nat) (w : RegVal) : (k.land tick L w).restored = k.restored := by cases w <;> first | rfl | (unfold Course.land Course.blend; dsimp only; split <;> rfl)
@[simp] theorem land_quarantine (k : Course) (tick L : Nat) (w : RegVal) : (k.land tick L w).quarantine = k.quarantine := by cases w <;> first | rfl | (unfold Course.land Course.blend; dsimp only; split <;> rfl)
@[simp] theorem land_recent (k : Course) (tick L : Nat) (w : RegVal) : (k.land tick L w).recent = k.recent := by cases w <;> first | rfl | (unfold Course.land Course.blend; dsimp only; split <;> rfl)
@[simp] theorem land_matWrote (k : Course) (tick L : Nat) (w : RegVal) : (k.land tick L w).matWrote = k.matWrote := by cases w <;> first | rfl | (unfold Course.land Course.blend; dsimp only; split <;> rfl)
@[simp] theorem land_rowStart (k : Course) (tick L : Nat) (w : RegVal) : (k.land tick L w).rowStart = k.rowStart := by cases w <;> first | rfl | (unfold Course.land Course.blend; dsimp only; split <;> rfl)
@[simp] theorem land_fetch (k : Course) (tick L : Nat) (w : RegVal) : (k.land tick L w).fetch = k.fetch := by cases w <;> first | rfl | (unfold Course.land Course.blend; dsimp only; split <;> rfl)
@[simp] theorem land_ahead (k : Course) (tick L : Nat) (w : RegVal) : (k.land tick L w).ahead = k.ahead := by cases w <;> first | rfl | (unfold Course.land Course.blend; dsimp only; split <;> rfl)
@[simp] theorem land_chain (k : Course) (tick L : Nat) (w : RegVal) : (k.land tick L w).chain = k.chain := by cases w <;> first | rfl | (unfold Course.land Course.blend; dsimp only; split <;> rfl)
@[simp] theorem land_inval (k : Course) (tick L : Nat) (w : RegVal) : (k.land tick L w).inval = k.inval := by cases w <;> first | rfl | (unfold Course.land Course.blend; dsimp only; split <;> rfl)

end Sys2Proof.Machine
end

