-- ==== Sys2Proof/Laws/Words.lean ====
section
/-!
SUPPORT. The words of 06 lane by lane: what the integer formulas of the meanings come to on words of bits.
-/
namespace Sys2Proof.Machine


theorem dst_wf {s : State} {x : Ctx} {i : Instr} (h : Issues s x i) : i.wf = true := by
  obtain ⟨-, hr, -⟩ := h
  unfold Ctx.rejects at hr
  split at hr; · cases hr
  split at hr; · cases hr
  split at hr; · cases hr
  rename_i h3
  simp only [Bool.or_eq_true, Bool.not_eq_true', not_or, Bool.not_eq_false] at h3
  exact h3.1

theorem Lands.congr {k k' : Course} {regs : Nat} {d : Reg} {ex : LaneMask} {f g : Nat → W64} (h : Lands k k' regs d ex f)
   (hv : ∀ n, d = .v n → ∀ l, (f l).truncate 32 = (g l).truncate 32 ∧ (regs = 2 → f l = g l)) (hg : ∀ n, d = .g n → ∀ l, f l = g l) :
   Lands k k' regs d ex g := by
  cases d with
  | v n =>
    refine ⟨h.1, fun l hl => ?_⟩
    have := hv n rfl l
    have h2 := h.2 l hl
    refine ⟨this.1 ▸ h2.1, fun e => this.2 e ▸ h2.2 e⟩
  | g n =>
    refine ⟨h.1, ?_⟩
    have := hg n rfl
    have h2 := h.2
    split
    · rename_i e; rw [if_pos e] at h2; exact h2
    · rename_i e; rw [if_neg e] at h2; rw [← this]; exact h2

theorem lanewise_completes {s : State} {x : Ctx} {i : Instr} (h : Issues s x i) (hp : positionsOf i = 1) (gd : Guard) (L regs : Nat) (d : Reg) (f : Ctx → Nat → W64)
    (hr : regs = 1 ∨ regs = 2) (hd : d.opnd regs ∈ i.body.dst) :
    Completes x (issueCourse i s fun x => x.lanewise gd L regs d (f x)) regs d (x.r.execFor gd d) (f x) := by
  have hw := dst_wf h
  unfold issueCourse
  rw [issue_ok h (body := fun x => x.ok (x.lanewise gd L regs d (f x))) rfl]
  have hd' : ∀ n : VReg, d = .v n → n.val + regs ≤ 256 := by
    intro n hn
    unfold Instr.wf at hw
    simp only [Bool.and_eq_true, List.all_eq_true] at hw
    have := hw.1.1 _ hd
    rw [hn] at this
    simp only [Reg.opnd, Opnd.wf, Bool.and_eq_true, decide_eq_true_eq] at this
    exact this.2
  obtain ⟨h1, h2, h3⟩ := landAll_lands x.k x.s.tick L regs d (x.r.execFor gd d) (f x) hr hd'
  refine ⟨_, h1, h2, h3, ?_⟩
  have := done_set h.1 (x.lanewise gd L regs d (f x)) i none
  rw [hp] at this
  have e : (x.lanewise gd L regs d (f x)).pc = x.k.pc := by have := congrArg Course.pc h1.2; exact this.symm ▸ rfl
  rw [← e]
  exact this

theorem resB (t : BTy) (x : Nat) : (numB t).result (x : Int) = BitVec.ofNat 64 (x % 2 ^ (numB t).w) := by
  have h : wrap (numB t).w (x : Int) = x % 2 ^ (numB t).w := by
    unfold wrap; norm_cast
  have hs : (numB t).sg = false := by cases t <;> rfl
  unfold NumTy.result NumTy.value
  rw [h, hs]
  simp only [Bool.false_eq_true, if_false, Nat.mod_mod]
  exact BitVec.ofInt_natCast ..

theorem src_lt (k : Course) (t : BTy) (a : Reg) (l : Nat) : (k.src t.regs a l).toNat < 2 ^ (numB t).w := by
  cases t
  · have : (k.src 1 a l).toNat = (k.src32 a l).toNat := by
      simp only [Course.src, show ¬ (1 = 2) by decide, if_false, BitVec.toNat_setWidth]
      exact Nat.mod_eq_of_lt (by have := (k.src32 a l).isLt; omega)
    show (k.src 1 a l).toNat < 2 ^ 32
    rw [this]; exact (k.src32 a l).isLt
  · exact (k.src 2 a l).isLt

theorem pat_eq (k : Course) (t : BTy) (a : Reg) (l : Nat) : k.pat (numB t) a l = (k.src t.regs a l).toNat := by
  have h : (numB t).regs = t.regs := by cases t <;> rfl
  unfold Course.pat
  rw [h]
  exact Nat.mod_eq_of_lt (src_lt k t a l)

/-- A number below 2^w that is the number of a word. -/
theorem resB_word (t : BTy) (x : Nat) (y : W64) (h : x % 2 ^ (numB t).w = y.toNat) : (numB t).result (x : Int) = y := by
  rw [resB, h]; simp

theorem w_le (t : BTy) : (numB t).w = 32 ∨ (numB t).w = 64 := by cases t <;> simp [numB]

theorem wB_le (t : BTy) : (numB t).w ≤ 64 := by cases t <;> decide

theorem toNat_lowBits (w : Nat) (hw : w ≤ 64) (x : W64) : (lowBits w x).toNat = x.toNat % 2 ^ w := by
  unfold lowBits
  rw [BitVec.toNat_ofNat]
  apply Nat.mod_eq_of_lt
  calc x.toNat % 2 ^ w < 2 ^ w := Nat.mod_lt _ (Nat.two_pow_pos w)
    _ ≤ 2 ^ 64 := Nat.pow_le_pow_right (by decide) hw

theorem getLsbD_lowBits (w : Nat) (hw : w ≤ 64) (x : W64) (i : Nat) : (lowBits w x).getLsbD i = (decide (i < w) && x.getLsbD i) := by
  rw [BitVec.getLsbD, toNat_lowBits w hw, Nat.testBit_mod_two_pow]; rfl

/-- Equality of results bit by bit. -/
theorem resB_bits (t : BTy) (x : Nat) (y : W64) (h : ∀ i, i < 64 → (decide (i < (numB t).w) && x.testBit i) = y.getLsbD i) :
    (numB t).result (x : Int) = y := by
  apply resB_word
  apply Nat.eq_of_testBit_eq
  intro i
  rw [Nat.testBit_mod_two_pow]
  by_cases hi : i < 64
  · rw [h i hi]; rfl
  · have h1 : ¬ i < (numB t).w := by have := wB_le t; omega
    have h2 : y.toNat.testBit i = false := Nat.testBit_lt_two_pow (lt_of_lt_of_le y.isLt (Nat.pow_le_pow_right (by decide) (by omega)))
    simp [h1, h2]

theorem bit_src (k : Course) (t : BTy) (a : Reg) (l i : Nat) (h : (numB t).w ≤ i) : (k.src t.regs a l).getLsbD i = false := by
  apply Nat.testBit_lt_two_pow
  exact lt_of_lt_of_le (src_lt k t a l) (Nat.pow_le_pow_right (by decide) h)

theorem flip_testBit (w x i : Nat) : (flip w x).testBit i = (decide (i < w) && !x.testBit i) := by
  unfold flip
  rw [show 2 ^ w - 1 - x % 2 ^ w = 2 ^ w - (x % 2 ^ w + 1) by omega, Nat.testBit_two_pow_sub_succ (Nat.mod_lt _ (Nat.two_pow_pos w))]
  rw [Nat.testBit_mod_two_pow]
  by_cases h : i < w <;> simp [h]

theorem r_and (k : Course) (t : BTy) (a b : Reg) (l : Nat) :
    (numB t).result ((k.pat (numB t) a l &&& k.pat (numB t) b l : Nat) : Int) = k.src t.regs a l &&& k.src t.regs b l := by
  apply resB_bits; intro i _; rw [pat_eq, pat_eq]
  by_cases h : i < (numB t).w
  · simp [h, BitVec.getLsbD]
  · simp [h, bit_src k t a l i (by omega)]

theorem r_or (k : Course) (t : BTy) (a b : Reg) (l : Nat) :
    (numB t).result ((k.pat (numB t) a l ||| k.pat (numB t) b l : Nat) : Int) = k.src t.regs a l ||| k.src t.regs b l := by
  apply resB_bits; intro i _; rw [pat_eq, pat_eq]
  by_cases h : i < (numB t).w
  · simp [h, BitVec.getLsbD]
  · simp [h, bit_src k t a l i (by omega), bit_src k t b l i (by omega)]

theorem r_xor (k : Course) (t : BTy) (a b : Reg) (l : Nat) :
    (numB t).result ((k.pat (numB t) a l ^^^ k.pat (numB t) b l : Nat) : Int) = k.src t.regs a l ^^^ k.src t.regs b l := by
  apply resB_bits; intro i _; rw [pat_eq, pat_eq]
  by_cases h : i < (numB t).w
  · simp [h, BitVec.getLsbD]
  · simp [h, bit_src k t a l i (by omega), bit_src k t b l i (by omega)]

theorem r_andn (k : Course) (t : BTy) (a b : Reg) (l : Nat) :
    (numB t).result ((k.pat (numB t) a l &&& flip (numB t).w (k.pat (numB t) b l) : Nat) : Int) = k.src t.regs a l &&& ~~~ k.src t.regs b l := by
  apply resB_bits; intro i h64; rw [pat_eq, pat_eq, Nat.testBit_and, flip_testBit]
  by_cases h : i < (numB t).w
  · rw [BitVec.getLsbD_and, BitVec.getLsbD_not]; simp [h, h64, BitVec.getLsbD]
  · simp [h, bit_src k t a l i (by omega)]

theorem r_not (k : Course) (t : BTy) (a : Reg) (l : Nat) :
    (numB t).result ((flip (numB t).w (k.pat (numB t) a l) : Nat) : Int) = lowBits (numB t).w (~~~ k.src t.regs a l) := by
  apply resB_bits; intro i h64; rw [pat_eq, flip_testBit, getLsbD_lowBits _ (wB_le t)]
  by_cases h : i < (numB t).w
  · rw [BitVec.getLsbD_not]; simp [h, h64, BitVec.getLsbD]
  · simp [h]

theorem r_shl (k : Course) (t : BTy) (a : Reg) (l n : Nat) :
    (numB t).result ((k.pat (numB t) a l * 2 ^ n : Nat) : Int) = lowBits (numB t).w (k.src t.regs a l <<< n) := by
  apply resB_bits; intro i h64; rw [pat_eq, getLsbD_lowBits _ (wB_le t), ← Nat.shiftLeft_eq, Nat.testBit_shiftLeft, BitVec.getLsbD_shiftLeft]
  by_cases h : i < (numB t).w
  · by_cases hn : n ≤ i
    · have : ¬ i < n := by omega
      simp [h, h64, hn, this, BitVec.getLsbD]
    · simp [h, h64, hn]
  · simp [h]

theorem r_shr (k : Course) (t : BTy) (a : Reg) (l n : Nat) :
    (numB t).result ((k.pat (numB t) a l / 2 ^ n : Nat) : Int) = k.src t.regs a l >>> n := by
  apply resB_bits; intro i h64; rw [pat_eq, ← Nat.shiftRight_eq_div_pow, Nat.testBit_shiftRight, BitVec.getLsbD_ushiftRight]
  by_cases h : i < (numB t).w
  · simp [h, BitVec.getLsbD]
  · simp [h, bit_src k t a l (n + i) (by omega)]

theorem r_rot (k : Course) (t : BTy) (a : Reg) (l n : Nat) (hn : n < (numB t).w) :
    (numB t).result ((rotl (numB t).w (k.pat (numB t) a l) n : Nat) : Int) =
      lowBits (numB t).w (k.src t.regs a l <<< n ||| k.src t.regs a l >>> ((numB t).w - n)) := by
  apply resB_bits; intro i h64; rw [pat_eq, getLsbD_lowBits _ (wB_le t)]
  unfold rotl
  by_cases h : i < (numB t).w
  · simp only [h, decide_true, Bool.true_and, BitVec.getLsbD_or, BitVec.getLsbD_shiftLeft, BitVec.getLsbD_ushiftRight]
    by_cases h0 : n = 0
    · subst h0
      simp [h64, BitVec.getLsbD]
      intro e
      have := bit_src k t a l ((numB t).w + i) (by omega)
      rw [BitVec.getLsbD, e] at this; cases this
    · simp only [h0, if_false, Nat.testBit_or, Nat.testBit_mod_two_pow, h, decide_true, Bool.true_and]
      rw [← Nat.shiftLeft_eq, Nat.testBit_shiftLeft, ← Nat.shiftRight_eq_div_pow, Nat.testBit_shiftRight]
      by_cases hn : n ≤ i
      · have : ¬ i < n := by omega
        simp [hn, this, h64, BitVec.getLsbD]
      · simp [hn, h64, BitVec.getLsbD]
  · simp [h]

theorem r_pat (k : Course) (t : BTy) (a : Reg) (l : Nat) :
    (numB t).result ((k.pat (numB t) a l : Nat) : Int) = k.src t.regs a l := by
  apply resB_word; rw [pat_eq]; exact Nat.mod_eq_of_lt (src_lt ..)

theorem r_pop (k : Course) (t : BTy) (a : Reg) (l : Nat) :
    (numB t).result ((popBits (numB t).w (k.pat (numB t) a l) : Nat) : Int) =
      BitVec.ofNat 64 ((List.range (numB t).w).countP fun i => (k.src t.regs a l).getLsbD i) := by
  have e : popBits (numB t).w (k.pat (numB t) a l) = (List.range (numB t).w).countP fun i => (k.src t.regs a l).getLsbD i := by
    unfold popBits
    rw [pat_eq, List.countP_eq_length_filter]; rfl
  rw [e, resB, Nat.mod_eq_of_lt]
  refine lt_of_le_of_lt List.countP_le_length ?_
  rw [List.length_range]; exact Nat.lt_two_pow_self

theorem count_clz (w x : Nat) (hx : x < 2 ^ w) : ((List.range w).countP fun i => decide (x / 2 ^ i = 0)) = clzBits w x := by
  unfold clzBits
  rw [Nat.mod_eq_of_lt hx]
  have key : ∀ m n, m ≤ n → ((List.range n).countP fun i => decide (m ≤ i)) = n - m := by
    intro m n hmn
    induction n with
    | zero => simp
    | succ n ih =>
      rw [List.range_succ, List.countP_append]
      by_cases h : m ≤ n
      · simp [ih h, h]; omega
      · have : m = n + 1 := by omega
        subst this
        simp
        intro a ha; omega
  by_cases h0 : x = 0
  · subst h0; simp
  · rw [if_neg h0]
    have e : ∀ i, decide (x / 2 ^ i = 0) = decide (Nat.log2 x + 1 ≤ i) := by
      intro i
      rw [decide_eq_decide, Nat.div_eq_zero_iff]
      have : (2 : Nat) ^ i ≠ 0 := by positivity
      simp only [this, false_or]
      exact (Nat.log2_lt h0).symm
    have hl : Nat.log2 x < w := (Nat.log2_lt h0).2 hx
    simp only [e]
    rw [key _ _ (by omega)]
    omega

theorem r_clz (k : Course) (t : BTy) (a : Reg) (l : Nat) :
    (numB t).result ((clzBits (numB t).w (k.pat (numB t) a l) : Nat) : Int) =
      BitVec.ofNat 64 ((List.range (numB t).w).countP fun i => k.src t.regs a l >>> i == 0) := by
  rw [pat_eq, ← count_clz _ _ (src_lt k t a l), resB, Nat.mod_eq_of_lt]
  · congr 1
    apply List.countP_congr
    intro i _
    simp only [decide_eq_true_eq, beq_iff_eq]
    rw [← BitVec.toNat_inj, BitVec.toNat_ushiftRight, Nat.shiftRight_eq_div_pow]; rfl
  · refine lt_of_le_of_lt List.countP_le_length ?_
    rw [List.length_range]; exact Nat.lt_two_pow_self

theorem r_brev (k : Course) (t : BTy) (a : Reg) (l : Nat) :
    (numB t).result ((revBits (numB t).w (k.pat (numB t) a l) : Nat) : Int) =
      BitVec.ofNat 64 (maskOf (numB t).w fun i => (k.src t.regs a l).getLsbD ((numB t).w - 1 - i)) := by
  apply resB_bits; intro i h64
  unfold revBits
  rw [pat_eq, maskOf_testBit, BitVec.getLsbD_ofNat, maskOf_testBit]
  by_cases h : i < (numB t).w <;> simp [h, h64, BitVec.getLsbD]

theorem field_eq (w : Nat) (b : W32) : fieldOf w b.toNat = bitField w b := by
  have e1 : bits b.toNat 5 0 = (b.extractLsb' 0 6).toNat := by
    simp [bits, BitVec.extractLsb'_toNat]
  have e2 : bits b.toNat 14 8 = (b.extractLsb' 8 7).toNat := by
    simp [bits, BitVec.extractLsb'_toNat, Nat.shiftRight_eq_div_pow]
  unfold fieldOf bitField
  rw [e1, e2]
  simp only [ge_iff_le, Bool.or_eq_true, decide_eq_true_eq]

theorem bitField_le (w : Nat) (b : W32) : (bitField w b).1 + (bitField w b).2 ≤ w := by
  unfold bitField
  dsimp only
  split
  · omega
  · rename_i h; push Not at h; simp only; omega

theorem r_bfi (k : Course) (t : BTy) (a : Reg) (c : VReg) (l pos len : Nat) (h : pos + len ≤ (numB t).w) :
    (numB t).result (((k.pat (numB t) (.v c) l &&& flip (numB t).w ((2 ^ len - 1) * 2 ^ pos)) |||
       ((k.pat (numB t) a l * 2 ^ pos) &&& ((2 ^ len - 1) * 2 ^ pos)) : Nat) : Int) =
     k.src t.regs (.v c) l &&& ~~~ BitVec.ofNat 64 ((2 ^ len - 1) * 2 ^ pos) ||| k.src t.regs a l <<< pos &&& BitVec.ofNat 64 ((2 ^ len - 1) * 2 ^ pos) := by
  apply resB_bits; intro i h64
  rw [pat_eq, pat_eq, Nat.testBit_or, Nat.testBit_and, Nat.testBit_and, flip_testBit, BitVec.getLsbD_or, BitVec.getLsbD_and, BitVec.getLsbD_and,
    BitVec.getLsbD_not, BitVec.getLsbD_ofNat, BitVec.getLsbD_shiftLeft]
  have hm : ((2 ^ len - 1) * 2 ^ pos).testBit i = (decide (pos ≤ i) && decide (i - pos < len)) := by
    rw [← Nat.shiftLeft_eq, Nat.testBit_shiftLeft, Nat.testBit_two_pow_sub_one]
  rw [hm, ← Nat.shiftLeft_eq, Nat.testBit_shiftLeft]
  by_cases hi : i < (numB t).w
  · by_cases hp : pos ≤ i
    · have : ¬ i < pos := by omega
      simp [hi, h64, hp, this, BitVec.getLsbD]
    · simp [hi, h64, hp, BitVec.getLsbD]
  · have h1 := bit_src k t (.v c) l i (by omega)
    have h2 : ¬ (i - pos < len) ∨ ¬ pos ≤ i := by omega
    rcases h2 with h2 | h2 <;> simp [hi, h1, h2]

theorem patW_eq (k : Course) (t : WTy) (a : Reg) (l : Nat) : k.pat (numW t) a l = (k.src t.regs a l).toNat := by
  cases t
  · exact pat_eq k .b32 a l
  · exact pat_eq k .b64 a l
  · exact pat_eq k .b32 a l
  · exact pat_eq k .b64 a l

theorem r_bfe (k : Course) (t : WTy) (a : Reg) (l pos len : Nat) (h : pos + len ≤ (numW t).w) :
    (if len = 0 then 0 else NumTy.value ⟨len, (numW t).sg⟩ (k.pat (numW t) a l / 2 ^ pos % 2 ^ len)) =
     (if len = 0 then 0 else NumTy.value ⟨len, (numW t).sg⟩ (lowBits len (k.src t.regs a l >>> pos)).toNat) := by
  have hw : (numW t).w ≤ 64 := by cases t <;> decide
  rw [toNat_lowBits len (by omega), patW_eq, BitVec.toNat_ushiftRight, Nat.shiftRight_eq_div_pow]

/-- A 64-bit result is the integer modulo 2^64. -/
theorem result64 (sg : Bool) (x : Int) : NumTy.result ⟨64, sg⟩ x = BitVec.ofInt 64 x := by
  unfold NumTy.result NumTy.value
  have hw : wrap 64 x < 2 ^ 64 := by
    unfold wrap
    have := Int.emod_lt_of_pos x (show (0:Int) < ((2 ^ 64 : Nat) : Int) by positivity)
    have := Int.emod_nonneg x (show ((2 ^ 64 : Nat) : Int) ≠ 0 by positivity)
    omega
  have hx : ((wrap 64 x : Nat) : Int) = x % ((2 ^ 64 : Nat) : Int) := by
    unfold wrap
    exact Int.toNat_of_nonneg (Int.emod_nonneg x (by positivity))
  apply BitVec.eq_of_toNat_eq
  rw [BitVec.toNat_ofInt, BitVec.toNat_ofInt]
  cases sg
  · simp only [Bool.false_eq_true, if_false]
    rw [Nat.mod_eq_of_lt hw, hx]
    simp
  · simp only [if_true]
    unfold signed
    rw [Nat.mod_eq_of_lt hw, hx]
    split
    · simp
    · simp

theorem ofInt_src64 (sg : Bool) (k : Course) (a : Reg) (l : Nat) : BitVec.ofInt 64 (k.int ⟨64, sg⟩ a l) = k.src64 a l := by
  unfold Course.int NumTy.value
  have e : k.src (NumTy.regs ⟨64, sg⟩) a l = k.src64 a l := rfl
  rw [e]
  have := (k.src64 a l).isLt
  apply BitVec.eq_of_toNat_eq
  rw [BitVec.toNat_ofInt]
  cases sg
  · simp only [Bool.false_eq_true, if_false]
    rw [Nat.mod_eq_of_lt this]
    omega
  · simp only [if_true]
    unfold signed
    rw [Nat.mod_eq_of_lt this]
    split <;> omega
/-! ### I-form words -/

theorem wrap_toNat (w : Nat) (x : Int) : wrap w x = (BitVec.ofInt w x).toNat := by
  rw [BitVec.toNat_ofInt]; rfl

/-- The low half of a 32-bit result. -/
theorem result32 (sg : Bool) (x : Int) : (NumTy.result ⟨32, sg⟩ x).truncate 32 = BitVec.ofInt 32 x := by
  unfold NumTy.result NumTy.value
  apply BitVec.eq_of_toNat_eq
  have hw : wrap 32 x < 2 ^ 32 := by rw [wrap_toNat]; exact (BitVec.ofInt 32 x).isLt
  have hx := wrap_toNat 32 x
  rw [BitVec.toNat_setWidth, BitVec.toNat_ofInt, ← hx]
  cases sg
  · simp only [Bool.false_eq_true, if_false]
    rw [Nat.mod_eq_of_lt hw]
    omega
  · simp only [if_true]
    unfold signed
    rw [Nat.mod_eq_of_lt hw]
    split <;> omega

theorem trunc_wide (k : Course) (a : Reg) (l : Nat) : (k.wide a l).truncate 32 = k.src32 a l := by
  unfold Course.wide Course.src32
  cases a with
  | v n =>
    apply BitVec.eq_of_getLsbD_eq
    intro i hi
    have : i < 64 := by omega
    dsimp only
    rw [BitVec.truncate_eq_setWidth, BitVec.getLsbD_setWidth, BitVec.getLsbD_signExtend]
    simp [hi, this]
  | g n => rfl

theorem trunc_sext {n : Nat} (x : BitVec n) : (x.signExtend 64).truncate 32 = x.signExtend 32 := by
  apply BitVec.eq_of_getLsbD_eq
  intro i hi
  have : i < 64 := by omega
  rw [BitVec.truncate_eq_setWidth, BitVec.getLsbD_setWidth, BitVec.getLsbD_signExtend, BitVec.getLsbD_signExtend]
  simp [hi, this]

theorem immSrc_32 (k : Course) (a : Reg) (l : Nat) : k.immSrc 32 a l = (k.src32 a l).toInt := by
  unfold Course.immSrc Course.src32; cases a <;> rfl

theorem immSrc_64 (k : Course) (a : Reg) (l : Nat) : k.immSrc 64 a l = (k.wide a l).toInt := by
  unfold Course.immSrc Course.wide
  cases a with
  | v n => dsimp only; rw [BitVec.toInt_signExtend_of_le (by decide)]
  | g n => rfl

theorem immWord_completes {s : State} {x : Ctx} {i : Instr} (h : Issues s x i) (hp : positionsOf i = 1) (gd : Guard) (d a : Reg) (f : Int → Int)
    (y : Course → Nat → W64) (hd : d.opnd 1 ∈ i.body.dst)
    (h32 : ∀ k l, BitVec.ofInt 32 (f (k.src32 a l).toInt) = (y k l).truncate 32) (h64 : ∀ k l, BitVec.ofInt 64 (f (k.wide a l).toInt) = y k l) :
    Completes x (issueCourse i s fun x => x.immWord gd d a f) 1 d (x.r.execFor gd d) (y x.r) := by
  cases d with
  | v n =>
    have e := lanewise_completes h hp gd (intClass (.v n)) 1 (.v n) (fun x l => NumTy.result ⟨32, true⟩ (f (x.r.immSrc 32 a l))) (.inl rfl) hd
    obtain ⟨k', h1, h2, h3, h4⟩ := e
    refine ⟨k', h1, h2, h3.congr ?_ ?_, h4⟩
    · intro m hm l
      refine ⟨?_, fun e => by omega⟩
      rw [result32, immSrc_32, h32]
    · intro m hm; cases hm
  | g n =>
    have e := lanewise_completes h hp gd (intClass (.g n)) 2 (.g n) (fun x l => NumTy.result ⟨64, true⟩ (f (x.r.immSrc 64 a l))) (.inr rfl) hd
    obtain ⟨k', h1, h2, h3, h4⟩ := e
    have h3' : Lands x.k k' 1 (.g n) (x.r.execFor gd (.g n)) fun l => NumTy.result ⟨64, true⟩ (f (x.r.immSrc 64 a l)) := h3
    refine ⟨k', h1, h2, h3'.congr ?_ ?_, h4⟩
    · intro m hm; cases hm
    · intro m hm l
      rw [result64, immSrc_64, h64]

theorem ofInt_toInt_add {w : Nat} (x y : BitVec w) : BitVec.ofInt w (x.toInt + y.toInt) = x + y := by
  rw [BitVec.ofInt_add, BitVec.ofInt_toInt, BitVec.ofInt_toInt]

theorem ofInt_toInt_mul {w : Nat} (x y : BitVec w) : BitVec.ofInt w (x.toInt * y.toInt) = x * y := by
  rw [BitVec.ofInt_mul, BitVec.ofInt_toInt, BitVec.ofInt_toInt]

/-- The immediate at 32 and at 64 bits. -/
theorem ofInt_imm {n : Nat} (x : BitVec n) (w : Nat) : BitVec.ofInt w x.toInt = x.signExtend w := rfl

theorem wrap_toInt {w : Nat} (x : BitVec w) : wrap w x.toInt = x.toNat := by rw [wrap_toNat, BitVec.ofInt_toInt]

theorem bitwise_ofInt (w : Nat) (f : Nat → Nat → Nat) (x : BitVec w) {n : Nat} (y : BitVec n) :
    BitVec.ofInt w (bitwise w f x.toInt y.toInt) = BitVec.ofNat w (f x.toNat (y.signExtend w).toNat) := by
  unfold bitwise
  rw [wrap_toInt, wrap_toNat, ofInt_imm]
  exact BitVec.ofInt_natCast ..

end Sys2Proof.Machine
end

