-- ==== Sys2Proof/Tests/Slice0.lean ====
section
/-!
SUPPORT. Own tests: ill-formed terms that the checks refuse, words written out from the encoding tables, states that meet the hypotheses of the
statements, and what one step makes of some of them. Expected values are computed by hand from the rules.
-/
open Sys2Proof Sys2Proof.Machine
namespace Sys2Proof.Tests
set_option Elab.async false

/-! ### Ill-formed terms are refused -/

/-- One term for each check of `Instr.wf` (R86, R92 step 4, R93, R95, R125, R137, R143, R152, R153, R256, R263, R374). -/
theorem test_illFormed_registers :
    (Instr.add .always .i64 false (.v 3) (.v 2) (.v 4)).wf = false ∧ (Instr.mov .always .b64 (.v 2) (.v 5)).wf = false ∧
    (Instr.ptest .always 0 63 4 .dev).wf = false ∧ (Instr.lds .always 0 253 ⟨1, 0, false, 0⟩ .b128 .rlx false).wf = false ∧
    (Instr.fput .always 0 61).wf = false := by decide

theorem test_illFormed_fields :
    (Instr.add ⟨false, 0⟩ .i8 false (.v 0) (.v 0) (.v 0)).wf = false ∧
    (Instr.redl .always (.add .i32) true (.g 1) (.v 1) 20).wf = false ∧ (Instr.fcvt .always .f32 .f32 .rne (.v 1) (.v 2)).wf = false ∧
    (Instr.qcvt .always .f32 .e4m3 false 9 (.v 7) 4).wf = false ∧ (Instr.qcvt .always .f16 .dpt8 false 9 (.v 7) 0).wf = false ∧
    (Instr.qcvt .always .f32 .e4m3 true 9 (.v 7) 0).wf = false ∧ (Instr.qexp .always .f32 (.narrow .e5m2) (.v 1) (.v 2) 4).wf = false ∧
    (Instr.qexp .always .f32 .s10 (.v 1) (.v 2) 2).wf = false ∧ (Instr.dly 0).wf = false ∧
    (Instr.atom .always 0 1 ⟨2, 0, false⟩ 4 .add .b128 .rlx).wf = false ∧ (Instr.red .always none ⟨2, 0, false⟩ 4 .cas .b32 .rlx).wf = false ∧
    (Instr.red .always none ⟨2, 0, false⟩ 4 .add .b128 .rlx).wf = false ∧ (Instr.qfence .always false false false).wf = false := by decide

theorem test_illFormed_pairs :
    (Instr.pairAdd 1 2 (.add 5 6)).wf = false ∧ (Instr.pairAdd 0 4 (.add 1 8)).wf = false := by decide

/-! ### Words that the spec writes out -/

/-- Each word decodes to its instruction, and is its encoding. -/
def decodes (l : List (Nat × Instr)) : Bool := l.all fun p => decodeTableWord 64 p.1 == some p.2 && encode p.2 == p.1

/-- Words of 04 and 06. -/
theorem test_decode_integer : decodes [
    (0x001C00C040800800, .add .always .i32 false (.v 3) (.v 1) (.v 2)), (0x002800C040800A00, .add ⟨true, 2⟩ .i32 false (.v 3) (.g 1) (.v 2)),
    (0x065C008640003200, .mov .always .b32 (.v 2) (.g 25)), (0x069C0040C1000802, .cmp .always .i32 .lt 1 (.v 3) (.v 4)),
    (0x06DC00C04081C0C0, .plog .always 3 1 2 7 0xC0), (0x075C014040853017, .shfl .always .b32 .xch 5 5 1 (.v 2) 20),
    (0x079E054040053004, .vote .always (.reg .mask (.g 21)) 1 20), (0x079C00C080037001, .vote .always (.pred .any 3) 2 13),
    (0x07DC01C040050800, .redl .always (.add .i32) false (.v 7) (.v 1) 20)] = true := by decide +kernel

theorem test_decode_immediate : decodes [
    (0x881F020140008000, .addi .always (.g 8) (.g 5) 32768), (0x885C004000000007, .andi .always (.v 1) (.v 0) 7),
    (0x891E03403FFFFFFF, .movi .always (.g 13) 0x3FFFFFFF), (0x899F02C000002000, .muli .always (.g 11) (.g 0) 8192),
    (0x895C048180000064, .cmpi .always .lt false 2 (.v 6) 100)] = true := by decide +kernel

/-- Words of 07, and paired words of 04. -/
theorem test_decode_float : decodes [
    (0x11DD018140002800, .frcp .always .f32 .rne 4 6 (.v 5)), (0x13DC010100002450, .fcvt .always .bf16 .f32 .rne (.v 4) (.v 4)),
    (0x149C0241C000A804, .qcvt .always .f32 .e4m3 false 9 (.v 7) 2), (0x171C02804080E810, .fdot4 .always .rne false true (.v 10) (.v 1) (.v 2) 3),
    (0x981C00400FF00000, .fmovi .always (.v 1) 0x0FF00000), (0x985C00808FC00000, .faddi .always (.v 2) (.v 2) 0x0FC00000)] = true := by
  decide +kernel

theorem test_decode_paired : decodes [
    (0x458001000B010300, .pairFadd 0 2 (.fadd 1 3)), (0x49028008120B0010, .pairShli 5 16 (.shli 11 16)),
    (0x408204800C050A00, .pairAdd 4 9 (.fmul 5 10))] = true := by decide +kernel

/-- Words of 08. -/
theorem test_decode_control : decodes [
    (0x201C000000000000, .nop), (0x205C000000000001, .dly 1), (0xA08400C03FFFC000, .bra ⟨false, 1⟩ .groupUniform (BitVec.ofInt 18 (-4)) 0),
    (0x20DC000500000200, .jmp .always 20), (0xA11C0F8000060F00, .call .always 62 0x60 0xF00), (0x219C000F80000200, .ret .always 62),
    (0x21DC000000054000, .bsync 21), (0x221C000000000000, .exit .always), (0x225C000000000000, .region false),
    (0x229C000000000005, .trap .always 5), (0x22DC000000000000, .rett), (0x231C000000000001, .tmask .always true), (0x23DC000000000000, .yield),
    (0x245C000000000000, .brk .always 0)] = true := by decide +kernel

theorem test_decode_system : decodes [
    (0x235E050000003408, .csrr .always .b64 (.g 20) 8), (0x239C000500003608, .csrw .always .b64 8 (.g 20)),
    (0xE41E45010C800011, .sysc .always 9 20 4 3 2 17)] = true := by decide +kernel

/-- Words of 09 and 10. -/
theorem test_decode_counters : decodes [
    (0x281CC00000000002, .waitt .always 3 2), (0x285D450000000001, .tkst .always 5 true 20), (0xE89C000004000000, .barinit .always 1),
    (0xE8DC000500000000, .bararv .always 0 20), (0xE91C000580000000, .barxb .always 0 22), (0xE95D454002000000, .barwait .always 0 21 (some 5)),
    (0x2A1E050000003406, .cntrd .always .b64 (.g 20) 6), (0x2A9E050000000000, .genrd .always (.g 20))] = true := by decide +kernel

theorem test_decode_tables : decodes [
    (0x2C5E05C000000009, .lyget .always 23 0 .size1), (0x2C9C000440000201, .tplset .always 0 (.field .dst) 17),
    (0x2D1C000505400308, .tlbinv .always (.page 20 21) .dev), (0x2D5C000500000201, .fgset .always true 20),
    (0x2D9C000505400300, .hdlset .always 20 21)] = true := by decide +kernel

/-- Words of 12. -/
theorem test_decode_memory : decodes [
    (0xF01CC20201C00010, .ld .always 3 8 ⟨2, 1, true, 16⟩ .b32 .rlx), (0xF05C021700600000, .st .always none 8 ⟨23, 0, false, 0⟩ .b128 .rlx),
    (0xF09C821B00600000, .lds .always 2 8 ⟨27, 0, false, 0⟩ .b128 .rlx false), (0xF0DC015B00400020, .sts .always none 5 ⟨27, 0, false, 32⟩ .b32 .rlx false),
    (0xF11C868300500000, .ldc .always 2 26 3 0 .b64), (0xF25C40DB01820000, .atoms .always 1 3 ⟨27, 1, true⟩ 4 .add .b32 .rlx false),
    (0xF29C000000098000, .fence .always .rel .dev), (0xF31C000000000000, .isync .always), (0xF4DC000008080000, .ldl .always 0 0 ⟨0, 8, 0, 1, false⟩),
    (0xF51C000088080000, .stl .always none 0 ⟨2, 8, 0, 1, false⟩)] = true := by decide +kernel

theorem test_decode_promises : decodes [
    (0xF39C000700000000, .pinit .always 0 7 false), (0xF3DC400C2D800000, .pfill .always 1 12 11 .dev), (0xF41C051901800000, .pwait .always 0 20 25 .dev),
    (0xF45C400C60000000, .pequ .always 1 12 24)] = true := by decide +kernel

/-- Words of 13 and 16. -/
theorem test_decode_matrix : decodes [
    (0xF89CC40C00000000, .accz .always 3 4 3), (0xF91CC0086C000000, .accst .always 3 0 8 27 .f32), (0xF95D021E02800000, .accmvStat .always 4 2 30 0 true),
    (0xF99CC01F01000000, .accsc .always 3 0 31 true), (0xF9DD0A0000000000, .mtest .always 4 40)] = true := by decide +kernel

theorem test_decode_queues : decodes [
    (0xFC1C07C000000000, .rgacq .always 31 0), (0xFC04001E04000000, .rgacqInit ⟨false, 1⟩ 0 30), (0xFC5C001F08000000, .rgcmt .always .copy 0 31),
    (0xFC9C078000000000, .rgtake .always 30 0), (0xFCDC001E10000000, .rgrel .always .mat 0 30), (0xFD5C180000000000, .qfence .always true true false),
    (0xFD9D322000000000, .amsg .always 4 50 16), (0xFE5CA80000000000, .fput .always 2 40), (0xFEDC540000000000, .fcopy .always 1 20),
    (0xFF1C500000000000, .fmrs .always 1 16)] = true := by decide +kernel

/-- The word of zeros, a stray word with a reserved opcode, and the word of ones are refused (R92). -/
theorem test_decode_refused :
    decodeWord 0 = .error .unassigned ∧ decodeWord 0x0A1C00C040800800 = .error .unassigned ∧
    decodeWord 0xFFFFFFFFFFFFFFFF = .error .unassigned := by decide +kernel


/-! ### Concrete states that meet the statements' hypotheses -/

/-- The conditions of `Issues`, and `p`, for the course that the state has picked. -/
def ready (s : State) (i : Instr) (p : Ctx → Bool) : Bool :=
  match s.ctx? with
  | none => false
  | some x =>
    (x.rejects i).isNone && !x.stalls i && (!deliversLate i || x.k.late.isEmpty) && (x.k.strictFault i).isNone && !x.readsPoison i && p x

theorem ready_issues {s : State} {i : Instr} {p : Ctx → Bool} (h : ready s i p = true) : ∃ x, Issues s x i ∧ p x = true := by
  unfold ready at h
  split at h
  · cases h
  · rename_i x hx
    simp only [Bool.and_eq_true, Option.isNone_iff_eq_none, Bool.not_eq_true', Bool.or_eq_true, List.isEmpty_iff] at h
    obtain ⟨⟨⟨⟨⟨h1, h2⟩, h3⟩, h4⟩, h5⟩, h6⟩ := h
    refine ⟨x, ⟨hx, h1, h2, fun hd => ?_, h4, h5⟩, h6⟩
    rcases h3 with h3 | h3
    · rw [hd] at h3; cases h3
    · exact h3

/-- The course of the state that stands before the word `i`. -/
def c0 : CRef := ⟨0, 0⟩
/-- A device with the word `i` before the first course of truss 0: of the only truss for a word of user mode, of a service truss for one of
kernel mode; the truss and the course are changed by `f` and `g`. -/
def on (i : Instr) (g : Course → Course := id) (f : Truss → Truss := id) : State :=
  let s := State.reset.placed (encode i)
  (({ s with trusses := s.trusses.drop (if i.kernelMode then 2 else 4) } : State).modCourse c0 g).modTruss 0 f
/-- The word issues there, and `p` holds of the course's context. -/
def meets (i : Instr) (p : Ctx → Bool) (g : Course → Course := id) (f : Truss → Truss := id) : Bool := ready (on i g f) i p

/-- A course with some g registers set. -/
def withG (l : List (GReg × W64)) (k : Course) : Course := l.foldl (fun k e => { k with g := k.g.set e.1 e.2 }) k
/-- A frame with the given FPC and word 3. -/
def frameOf (fpc : Nat) : Frame := ⟨#v[BitVec.ofNat 64 fpc, 0, 0, 0x0FFFFFFFFFFF, 0, 0, 0, 0]⟩
/-- A pending operation of a token. -/
def opOf (id : Nat) (tk : Tok) (w : OpWait) : TokOp :=
  { id := id, tk := tk, wait := w, writes := [], flags := 0, status := 0, fault := none, fallen := false, strict := false, clash := [],
    dests := [], poison := false, inRegion := false, acq := false, inval := false, mat := false }


/-- O1: a word of each kind issues. -/
theorem test_witness_integer :
    [Instr.add .always .i64 true (.v 4) (.v 2) (.v 6), .sub .always .i8 false (.v 4) (.v 2) (.v 6), .mul .always .n32 (.v 4) (.v 2) (.v 6),
     .mulh .always .i64 (.v 4) (.v 2) (.v 6), .mad .always .i32 (.v 4) (.v 2) (.v 6) 7, .madw .always .n32 (.v 4) (.v 2) (.v 6) 8,
     .min .always .i16 (.v 4) (.v 2) (.v 6), .max .always .i16 (.v 4) (.v 2) (.v 6), .abs .always .i32 false (.v 4) (.v 2),
     .neg .always .i32 true (.v 4) (.v 2), .lea .always .i32 (.v 4) (.v 2) (.v 6) 3, .and .always .b32 (.v 4) (.g 2) (.v 6),
     .or .always .b32 (.v 4) (.v 2) (.v 6), .xor .always .b64 (.g 4) (.g 2) (.g 6), .andn .always .b32 (.v 4) (.v 2) (.v 6),
     .not .always .b32 (.v 4) (.v 2), .shl .always .b32 (.v 4) (.v 2) (.v 6), .shr .always .b32 (.v 4) (.v 2) (.v 6),
     .sar .always .i64 (.v 4) (.v 2) (.v 6), .rot .always .b32 (.v 4) (.v 2) (.v 6), .bfe .always .i32 (.v 4) (.v 2) (.v 6),
     .bfi .always .b32 (.v 4) (.v 2) (.v 6) 7, .pop .always .b32 (.v 4) (.v 2), .clz .always .b32 (.v 4) (.v 2),
     .brev .always .b32 (.v 4) (.v 2), .sel .always .b32 (.v 4) (.v 2) (.v 6) 1 true, .mov ⟨true, 7⟩ .b32 (.v 255) (.g 63),
     .addi .always (.v 4) (.v 2) 1, .andi .always (.v 4) (.v 2) 1, .ori .always (.v 4) (.v 2) 1, .xori .always (.v 4) (.v 2) 1,
     .movi .always (.g 0) 1, .muli .always (.v 4) (.v 2) 1, .leai .always (.v 4) (.v 2) 1 7].all
      (fun i => (intWord i).isSome && meets i fun _ => true) = true := by decide +kernel

theorem test_witness_predicate :
    [Instr.cmp .always .i8 .ge 6 (.v 4) (.g 2), .plog .always 0 1 2 7 0xC0, .cmpi .always .lt true 2 (.g 6) 100].all
      (fun i => (predWord i).isSome && meets i fun _ => true) = true := by decide +kernel

/-- O2, O3: a word of each kind issues. -/
theorem test_witness_float :
    [Instr.fadd .always .f64 .dyn (.v 4) (.v 2) (.v 6), .fsub .always .f32 .rne (.v 4) (.v 2) (.v 6), .fmul .always .f16 .rtz (.v 4) (.v 2) (.v 6),
     .fma .always .bf16 .rup (.v 4) (.v 2) (.v 6) 7, .fmin .always .f32 (.v 4) (.v 2) (.v 6), .fmax .always .f32 (.v 4) (.v 2) (.v 6),
     .fcvt .always .bf16 .f32 .rne (.v 4) (.v 2), .icvt .always .f32 .i64 .rne (.v 4) (.v 2), .ficvt .always .n32 .f32 .rdn (.v 4) (.v 2),
     .qcvt .always .f32 .e2m1 false 4 (.v 2) 7, .qexp .always .f32 .s10 (.v 4) (.v 2) 1, .fscl .always .f32 .rne (.v 4) (.v 2) (.v 6),
     .frnd .always .f32 .rne (.v 4) (.v 2), .fclass .always .f64 (.v 4) (.v 2), .hadd2 .always .f16x2 .rne (.v 4) (.v 2) (.v 6),
     .hmul2 .always .f16x2 .rne (.v 4) (.v 2) (.v 6), .hfma2 .always .bf16x2 .rne (.v 4) (.v 2) (.v 6) 8, .hmin2 .always .f16x2 (.v 4) (.v 2) (.v 6),
     .hmax2 .always .f16x2 (.v 4) (.v 2) (.v 6), .fdot4 .always .rne false true (.v 10) (.v 1) (.v 2) 3, .scvt .always .e4m3 (.v 4) (.v 2),
     .fmovi .always (.v 1) 0x0FF00000, .faddi .always (.v 2) (.v 2) 1, .fmuli .always (.v 2) (.v 2) 1].all
      (fun i => (floatWord i).isSome && meets i fun _ => true) = true ∧
    meets (.fcmp .always .f64 .un 0 (.v 4) (.v 2)) (fun _ => true) = true := by decide +kernel

theorem test_witness_tokenFloat :
    [Instr.frcp .always .f32 .rne 4 6 (.v 5), .frsq .always .f32 .rne 4 6 (.v 5), .fsqrt .always .f64 .rne 15 6 (.v 4),
     .fexp2 .always .f32 .rne 4 6 (.v 5), .flog2 .always .f16 .rne 4 6 (.v 5), .fsin .always .f32 .rne 4 6 (.v 5),
     .fcos .always .f32 .rne 0 6 (.v 5), .fdiv .always .f32 .rne 4 6 (.v 5) (.g 1)].all
      (fun i => (slowWord i).isSome && meets i fun _ => true) = true := by decide +kernel

/-- O4: a pair with its highest and its lowest half. -/
theorem test_witness_paired :
    (meets (Instr.pair (.mov 0 1) (.movi 3 255)) (fun _ => true) && meets (Instr.pair (.movi 255 255) (.hmul2 2 1)) fun _ => true) = true := by
  decide +kernel

/-- O5: the mask is the executing set; and it is not. -/
theorem test_witness_exchange :
    meets (.shfl .always .b64 .rot 0 4 2 (.v 6) 20) (fun x => (x.r.gget 20).truncate 32 == x.r.exec .always && x.k.shadows.isEmpty && x.k.ops.isEmpty)
      (withG [(20, 0xFFFFFFFF)]) = true ∧
    [Instr.vote .always (.pred .same 6) 1 20, .vote .always (.reg .first (.v 4)) 1 20, .redl .always (.xor .b64) true (.v 4) (.v 2) 20].all
      (fun i => meets i (fun x => (x.r.gget 20).truncate 32 == x.r.exec .always) (withG [(20, 0xFFFFFFFF)])) = true ∧
    meets (.shfl .always .b32 .pick 5 4 2 (.v 6) 20) (fun x => (x.r.gget 20).truncate 32 != x.r.exec .always) = true := by decide +kernel

/-- O6: each word issues; a guarded truss too. -/
theorem test_witness_simple :
    [Instr.nop, .dly 63, .yield, .tmask .always true, .region false, .region true].all (fun i => meets i fun _ => true) = true ∧
    meets (.region false) (fun x => x.t.items.guarded) id (fun t => { t with items := { t.items with guarded := true } }) = true := by
  decide +kernel

/-- O7: no lane, every lane and some lanes take a `bra`; each of its faults. -/
theorem test_witness_bra :
    let p1 := fun (m : LaneMask) (k : Course) => { k with p := k.p.set (1 : Fin 7) m }
    let some_ := fun (i : Instr) (q : Ctx → Bool) (g : Course → Course) => meets i (fun x => x.r.exec ⟨false, 1⟩ != 0 && q x) (p1 1 ∘ g)
    meets (.bra ⟨false, 1⟩ .none 4 0) (fun x => x.r.exec ⟨false, 1⟩ == 0) (p1 0) = true ∧
    meets (.bra ⟨false, 1⟩ .none 4 0) (fun x => x.r.exec ⟨false, 1⟩ == x.k.lanes) (p1 0xFFFFFFFF) = true ∧
    some_ (.bra ⟨false, 1⟩ .unlikely 4 4095) (fun x => x.r.exec ⟨false, 1⟩ != x.k.lanes && decide (x.k.div.length < 32)) id = true ∧
    some_ (.bra ⟨false, 1⟩ .likely 4 1) (fun x => x.r.exec ⟨false, 1⟩ != x.k.lanes && decide (x.k.div.length < 32)) id = true ∧
    some_ (.bra ⟨false, 1⟩ .likely 0x20000 1) (fun x => decide ((x.k.pc.toNat : Int) + 8 * (0x20000 : BitVec 18).toInt < 0)) id = true ∧
    some_ (.bra ⟨false, 1⟩ .likely 4 0) (fun x => x.r.exec ⟨false, 1⟩ != x.k.lanes) id = true ∧
    some_ (.bra ⟨false, 1⟩ .likely 4 1) (fun x => decide (32 ≤ x.k.div.length)) (fun k => { k with div := List.replicate 32 ⟨0, 1, 0, true⟩ }) = true := by
  decide +kernel

/-- O7, O8: transfers of the whole course, and where they stop. -/
theorem test_witness_transfers :
    let g1 := withG [(20, 0x3000)]
    let bad := withG [(20, 4)]
    let far := withG [(20, 0x200000000000000)]
    let p1 := fun (m : LaneMask) (k : Course) => { k with p := k.p.set (1 : Fin 7) m }
    [Instr.jmp .always 20, .callr .always 62 20 0xF00, .ret .always 20, .call .always 0 1 0].all
      (fun i => meets i (fun x => (x.k.tok[8]).count == 0 && (x.k.tok[11]).count == 0) g1) = true ∧
    [Instr.jmp ⟨false, 1⟩ 20, .callr ⟨false, 1⟩ 62 20 0xF00, .ret ⟨false, 1⟩ 20, .call ⟨false, 1⟩ 0 1 0].all
      (fun i => meets i (fun _ => true) (p1 0 ∘ g1) && meets i (fun x => x.r.exec ⟨false, 1⟩ != x.k.lanes) (p1 2 ∘ g1)) = true ∧
    [Instr.jmp .always 20, .callr .always 62 20 0xF00].all (fun i => meets i (fun _ => true) bad && meets i (fun _ => true) far) = true ∧
    meets (.ret .always 20) (fun x => (x.k.tok[11]).count != 0)
      (fun k => { k with tok := k.tok.set 11 ⟨1, 0⟩, ops := [opOf 0 11 .service] }) = true := by decide +kernel

/-- O8, O11: `rett` with a good frame, and each of its faults. -/
theorem test_witness_rett :
    let f := frameOf 0x3000
    let lead := fun (fdsp : Nat) (fpc : Nat) => (⟨#v[BitVec.ofNat 64 fpc, BitVec.ofNat 64 (fdsp * 2 ^ 16), 0, 0x0FFFFFFFFFFF, 0, 0, 0, 0]⟩ : Frame)
    meets .rett (fun x => x.k.frames == [f]) (fun k => { k with frames := [f] }) = true ∧
    meets .rett (fun x => x.k.frames.isEmpty) = true ∧
    meets .rett (fun x => decide (x.k.div.length < 1)) (fun k => { k with frames := [lead 1 0x3000] }) = true ∧
    meets .rett (fun x => x.k.bsync.isSome) (fun k => { k with frames := [f], bsync := some ⟨0, 1, 1, 1⟩ }) = true ∧
    meets .rett (fun x => decide (f.tokCount 12 < (x.k.tok[12]).count.toNat))
      (fun k => { k with frames := [f], tok := k.tok.set 12 ⟨1, 0⟩, ops := [opOf 0 12 .service] }) = true ∧
    meets .rett (fun x => x.k.frames == [lead 0 0x3004]) (fun k => { k with frames := [lead 0 0x3004] }) = true := by decide +kernel

/-- O9: `bsync` with its last path, an earlier one, and each fault; `exit` of no lane, of some, of the last, and with a token left. -/
theorem test_witness_bsyncExit :
    let all := withG [(21, 0xFFFFFFFF)]
    meets (.bsync 21) (fun x => x.k.lanes == (x.r.gget 21).truncate 32 && x.k.bsync.isNone) all = true ∧
    meets (.bsync 21) (fun x => x.k.lanes != (x.r.gget 21).truncate 32 && x.k.bsync.isNone) (fun k => { all k with lanes := 1 }) = true ∧
    meets (.bsync 21) (fun x => x.k.lanes &&& ~~~ ((x.r.gget 21).truncate 32) != 0) (withG [(21, 1)]) = true ∧
    meets (.bsync 21) (fun x => x.k.bsync == some ⟨0, 0xFFFFFFFF, 0, 0⟩) (fun k => { all k with bsync := some ⟨0, 0xFFFFFFFF, 0, 0⟩ }) = true ∧
    meets (.bsync 21) (fun x => x.k.bsync == some ⟨x.k.pc, 3, 0, 0⟩) (fun k => { all k with bsync := some ⟨k.pc, 3, 0, 0⟩ }) = true ∧
    meets (.exit ⟨true, 7⟩) (fun x => x.r.exec ⟨true, 7⟩ == 0) = true ∧
    meets (.exit ⟨false, 1⟩) (fun x => x.k.live &&& ~~~ x.r.exec ⟨false, 1⟩ != 0) (fun k => { k with p := k.p.set (1 : Fin 7) 1 }) = true ∧
    meets (.exit .always) (fun x => x.k.live &&& ~~~ x.r.exec .always == 0 && !x.k.rollbackPend) = true ∧
    meets (.exit .always) (fun x => (x.k.tok[8]).count != 0) (fun k => { k with tok := k.tok.set 8 ⟨1, 0⟩, ops := [opOf 0 8 .service] }) = true := by
  decide +kernel

/-- O10, O11: a trap may be taken; four frames are open; no handler is named. -/
theorem test_witness_trap :
    [Instr.trap .always 255, .brk .always 0].all (fun i => meets i fun x => decide (x.k.frames.length < 4) && x.t.items.handler != 0) = true ∧
    [Instr.trap ⟨true, 7⟩ 255, .brk ⟨true, 7⟩ 0].all (fun i => meets i fun x => !x.r.uniform ⟨true, 7⟩) = true ∧
    meets (.trap .always 1) (fun x => x.k.frames.length == 4) (fun k => { k with frames := List.replicate 4 (frameOf 0) }) = true ∧
    meets (.trap .always 1) (fun x => x.t.items.handler == 0) id (fun t => { t with items := { t.items with handler := 0 } }) = true := by
  decide +kernel


/-- A truss of kernel mode, and one under the guarded bit. -/
def kernelT (t : Truss) : Truss := { t with kernelMode := true }
def guardedT (t : Truss) : Truss := { t with items := { t.items with guarded := true } }
/-- A layout entry of F32 elements in two dimensions of 64 by 64, in the scratchpad (space 1) or in global memory (space 0). -/
def entryOf (fmt space : Nat) : Layout :=
  #v[BitVec.ofNat 64 (0x1000 + space * 2 ^ 57 + fmt * 2 ^ 59), BitVec.ofNat 64 (64 + 64 * 2 ^ 20 + 2 * 2 ^ 60), BitVec.ofNat 64 (64 * 2 ^ 32), 0]
def withLayouts (l : List (Nat × Layout)) (t : Truss) : Truss := { t with layouts := l, tpls := [(0, #v[BitVec.ofNat 64 (2 ^ 20), BitVec.ofNat 64 (2 ^ 40)])] }

/-- O12: each check of a word, at its place in the order. -/
theorem test_witness_checks :
    let x0 := fun (i : Instr) (g : Course → Course) (q : Ctx → Bool) => match (on i g).ctx? with | some x => q x | none => false
    x0 (.accz .always 0 0 0) (fun k => { k with role := 1 }) (fun x => !roleAllows x.k.role .matrix) = true ∧
    x0 (.hdlset .always 1 2) id (fun x => roleAllows x.k.role .general && x.t.kernelMode) = true ∧
    x0 (.dly 0) id (fun x => roleAllows x.k.role .general) = true ∧
    x0 (.frcp .always .f32 .rne 4 6 (.v 5)) (fun k => { k with tkmask := 0 }) (fun x => x.fits (.frcp .always .f32 .rne 4 6 (.v 5)) && !x.k.tkmask.getLsbD 4) = true ∧
    x0 (.barwait .always 1 21 none) (fun k => { k with barBlocked := some 1 })
      (fun x => (x.rejects (.barwait .always 1 21 none)).isNone && x.stalls (.barwait .always 1 21 none)) = true ∧
    x0 (.exit .always) (fun k => { k with late := [⟨0x13, 0xA3, 0, 0⟩] }) (fun x => (x.rejects (.exit .always)).isNone && !x.stalls (.exit .always) && deliversLate (.exit .always)) = true ∧
    x0 (.mov .always .b32 (.v 4) (.v 2)) (fun k => { k with strict := true, shadows := [⟨.v 2 1 (Vector.replicate 32 0), k.pos + 1, true⟩] })
      (fun x => (x.rejects (.mov .always .b32 (.v 4) (.v 2))).isNone && !x.stalls (.mov .always .b32 (.v 4) (.v 2)) && x.k.tracked.contains 2) = true := by
  decide +kernel

/-- O12: a kernel-mode word of a user-mode truss. -/
theorem test_witness_privileged :
    [Instr.cntctl .always 1 2 3, .tlbinv .always .all .dev, .fgset .always true 20, .hdlset .always 20 21, .mtest .always 4 40].all
      (fun i => i.kernelMode && match (on i id fun t => { t with kernelMode := false }).ctx? with
        | some x => roleAllows x.k.role i.opClass && !x.t.kernelMode | none => false) = true := by decide +kernel

/-- O13, O14: a special register is read and written, in user and in kernel mode. -/
theorem test_witness_special :
    [0x00, 0x0E, 0x0F, 0x18, 0x1D, 0x40, 0x45, 0x46, 0xFF].all (fun n => meets (.csrr .always .b64 (.g 20) n) (fun x => x.r.execFor .always (.g 20) != 0) &&
      meets (.csrr .always .b32 (.v 20) n) (fun x => x.t.kernelMode) id kernelT) = true ∧
    meets (.csrr ⟨true, 7⟩ .b64 (.g 20) 8) (fun x => x.r.execFor ⟨true, 7⟩ (.g 20) == 0) = true ∧
    [0x02, 0x04, 0x08, 0x0C, 0x18, 0x19, 0x00, 0x46].all (fun n => meets (.csrw .always .b64 n (.g 20)) fun x => x.r.uniform .always) = true ∧
    [0x40, 0x41, 0x42, 0x43, 0x44, 0x45].all (fun n => meets (.csrw .always .b64 n (.g 20)) (fun x => x.r.uniform .always && !x.t.kernelMode) &&
      meets (.csrw .always .b64 n (.g 20)) (fun x => x.r.uniform .always && x.t.kernelMode) id kernelT) = true ∧
    meets (.csrw .always .b64 0x03 (.g 20)) (fun x => x.k.frames.isEmpty && (x.r.gget 20).truncate 16 &&& (0xF000 : BitVec 16) != 0) (withG [(20, 0xF000)]) = true ∧
    [0x08, 0x09, 0x0A, 0x0B].all (fun n => meets (.csrw .always .b64 n (.g 20)) (fun x => x.k.frames.length == 1) fun k => { k with frames := [frameOf 0] }) = true := by
  decide +kernel

/-- O15: a service call of some lanes, of none, and of a guarded course. -/
theorem test_witness_sysc :
    let i := Instr.sysc .always 9 20 4 8 8 17
    meets i (fun x => x.r.exec .always != 0 && !x.t.items.guarded) = true ∧ meets i (fun x => x.t.items.guarded) id guardedT = true ∧
    meets (.sysc ⟨true, 7⟩ 9 20 4 8 8 17) (fun x => x.r.exec ⟨true, 7⟩ == 0) = true := by decide +kernel

/-- O16: a `waitt` that covers operations, one of them faulted; a `tkst`. -/
theorem test_witness_tokens :
    let ops := fun (f : Option LateFault) (k : Course) => { k with
      tok := k.tok.set 3 ⟨1, 0⟩,
      ops := [{ opOf 0 3 .nothing with fallen := true }, { opOf 1 3 .nothing with fallen := true, fault := f }, opOf 2 3 .service] }
    meets (.waitt .always 3 1) (fun x => x.r.uniform .always) (ops none) = true ∧
    meets (.waitt .always 3 1) (fun x => x.r.uniform .always) (ops (some ⟨0x13, 0xA3, 0, 0⟩)) = true ∧
    meets (.waitt ⟨true, 7⟩ 3 63) (fun x => !x.r.uniform ⟨true, 7⟩) (ops none) = true ∧
    meets (.tkst .always 3 true 20) (fun x => x.r.uniform .always) (ops none) = true := by decide +kernel

/-- O17: counters read and set. -/
theorem test_witness_counters :
    meets (.genrd .always (.v 4)) (fun _ => true) = true ∧
    [0, 9, 10, 15, 16, 23, 24, 255].all (fun n => meets (.cntrd .always .b64 (.g 20) n) fun x => (x.s.vdev? x.t.vd).isSome && !x.t.kernelMode) = true ∧
    meets (.cntrd .always .b32 (.v 20) 0x17) (fun x => x.t.kernelMode) id kernelT = true ∧
    meets (.cntctl .always 1 2 7) (fun x => (x.r.gget 1) >>> 16 == 0 && bits (x.r.gget 1).toNat 7 0 ≤ 9) (withG [(1, 0xFF09)]) = true ∧
    meets (.cntctl .always 1 2 7) (fun x => decide (9 < bits (x.r.gget 1).toNat 7 0)) (withG [(1, 10)]) = true ∧
    meets (.cntctl ⟨true, 7⟩ 1 2 7) (fun x => !x.r.uniform ⟨true, 7⟩) = true := by decide +kernel

/-- O18, O19: barrier words on a barrier that is valid and on one that is not, and each fault. -/
theorem test_witness_barriers :
    let bar := fun (b : Bar) (t : Truss) => { t with bars := t.bars.set (1 : Fin 16) b }
    let valid : Bar := ⟨true, 0, 0, 0, false, 0⟩
    let base := fun (x : Ctx) => !x.t.items.guarded && x.k.quarantine.isEmpty && x.r.uniform .always
    meets (.barinit .always 1) base id (bar ⟨false, 0, 0, 0, false, 0⟩) = true ∧ meets (.barinit .always 1) base id (bar valid) = true ∧
    [(1, valid), (2, valid), (0, valid), (1, ⟨true, 0, 1, 1, true, 0⟩), (1, ⟨true, 0, 3, 0, true, 0⟩), (1, ⟨false, 0, 0, 0, false, 0⟩)].all (fun e =>
      meets (.bararv .always 1 20) base (withG [(20, BitVec.ofNat 64 e.1)]) (bar e.2)) = true ∧
    [0, 2 ^ 31 - 1, 2 ^ 31].all (fun n => meets (.barxb .always 1 22) base (withG [(22, BitVec.ofNat 64 n)]) (bar valid)) = true ∧
    meets (.barinv .always 1) base id (bar valid) = true ∧
    [Instr.barinit ⟨true, 7⟩ 1, .bararv ⟨true, 7⟩ 1 20, .barxb ⟨true, 7⟩ 1 20, .barinv ⟨true, 7⟩ 1].all (fun i => meets i fun x =>
      !x.r.uniform ⟨true, 7⟩) = true := by decide +kernel

/-- O20: a wait on an abandoned barrier, an invalid one, one not arrived at, and one that goes on; a woken course. -/
theorem test_witness_barrierWaits :
    let bar := fun (b : Bar) (t : Truss) => { t with bars := t.bars.set (1 : Fin 16) b }
    let bs : List Bar := [⟨true, 0, 0, 0, false, 0⟩, ⟨false, 0, 0, 0, false, 0⟩, ⟨true, 0, 3, 1, true, 0⟩]
    let base := fun (x : Ctx) => x.k.quarantine.isEmpty && x.r.uniform .always
    bs.all (fun b => [Instr.barwait .always 1 21 none, .barwait .always 1 21 (some 5), .bartest .always 1 21].all fun i =>
      meets i (fun x => base x && x.k.barWoke.isNone) id (bar b) && meets i base (fun k => { k with abn := true }) (bar b)) = true ∧
    meets (.barwait .always 1 21 none) (fun x => base x && x.k.barWoke == some 2) (fun k => { k with barWoke := some 2 }) = true := by decide +kernel

/-- O21: table words, with a legal and an illegal value. -/
theorem test_witness_tables :
    let base := fun (x : Ctx) => x.t.tabPend.isEmpty && x.r.uniform .always
    [Instr.lyset .always 255 (.field .swz) 20, .tplset .always 63 (.field .bar) 20].all (fun i =>
      meets i base (withG [(20, 31)]) && meets i base (withG [(20, 0x200)])) = true ∧
    lyLegal .swz 31 = true ∧ lyLegal .swz 0x200 = false ∧ tplLegal .bar 31 = true ∧ tplLegal .bar 0x200 = false ∧
    [Instr.lyset .always 0 .clear 20, .tplset .always 0 .clear 20, .lyget .always 23 0 .size1, .tplget .always 23 0 .mcast].all (fun i => meets i base) = true ∧
    [Instr.lyset ⟨true, 7⟩ 0 .clear 20, .tplset ⟨true, 7⟩ 0 .clear 20].all (fun i => meets i fun x => !x.r.uniform ⟨true, 7⟩) = true := by decide +kernel

/-- O22: kernel table words, with a space of the device and one above 512, and with a batch record taken. -/
theorem test_witness_kernelTables :
    [Instr.tlbinv .always .all .core, .tlbinv .always (.space 20) .clu, .tlbinv .always (.page 21 20) .dev, .fgset .always false 20].all (fun i =>
      meets i (fun x => (x.r.gget 20).toNat % 1024 == 512) (withG [(20, 512)]) && meets i (fun x => (x.r.gget 20).toNat % 1024 == 513) (withG [(20, 513)])) = true ∧
    meets (.hdlset .always 20 21) (fun x => (tget? (vat x.s.svcTaken (dieOf x.t.core) []) x.c.course).isNone) = true ∧
    [(8, 256), (4, 1), (8, 257)].all (fun e =>
      ready { on (.hdlset .always 20 21) (withG [(20, BitVec.ofNat 64 e.1), (21, BitVec.ofNat 64 e.2)]) with svcTaken := #v[[(0, (c0, 0))], []] }
        (.hdlset .always 20 21) fun x => tget? (vat x.s.svcTaken (dieOf x.t.core) []) x.c.course == some (c0, 0)) = true := by decide +kernel

/-- O23 to O25: memory words with and without executing lanes; the faults of an address; a scratchpad access of the truss's own. -/
theorem test_witness_memory :
    let m : MemOpnd := ⟨2, 1, false, 0⟩
    let am : AtOpnd := ⟨2, 1, false⟩
    let words : List (Guard → Instr) :=
      [fun g => .ld g 3 8 m .b128 (.acq .sys), fun g => .st g none 8 m .n8 .rlx, fun g => .atom g 3 8 am 4 .cas .b64 (.ar .dev), fun g => .red g none am 4 .add .b32 .rlx,
       fun g => .ldc g 3 8 2 0 .b64, fun g => .acp g none 8 m .b128 (some 3), fun g => .lds g 3 8 m .b32 .rlx true, fun g => .sts g none 8 m .b32 .rlx false,
       fun g => .atoms g 3 8 am 4 .add .b32 .rlx false]
    words.all (fun w => meets (w .always) (fun x => match x.memWord (w .always) with | some m => m.lanes != 0 && (lanesIn m.lanes).all (fun l => m.ea l % m.size == 0 && m.ea l < 1024) | none => false) (withG [(2, 64)]) &&
      meets (w ⟨true, 7⟩) (fun x => match x.memWord (w ⟨true, 7⟩) with | some m => m.lanes == 0 | none => false)) = true ∧
    [65, 2 ^ 57, 2 ^ 32].all (fun a => [Instr.ld .always 3 8 m .b32 .rlx, .lds .always 3 8 m .b32 .rlx false, .lds .always 3 8 m .b32 .rlx true].all fun i =>
      meets i (fun x => match x.memWord i with | some m => m.ea 0 == a | none => false) (withG [(2, BitVec.ofNat 64 a)])) = true ∧
    meets (.sts .always none 8 m .b32 .rlx false) (fun x => x.s.accesses.isEmpty && x.s.proms.isEmpty && x.k.ops.isEmpty && !x.t.items.guarded &&
      x.t.spanPos == 0 && decide (64 < x.t.portion)) (withG [(2, 64)]) = true := by decide +kernel

/-- O26: elements of a good entry, in global memory and in the scratchpad; a bad entry, a bad coordinate and an odd register. -/
theorem test_witness_layoutElements :
    let o : LayOpnd := ⟨0, 8, 1, 0, false⟩
    let is := [Instr.ldl .always 3 4 o, .stl .always none 4 o]
    [entryOf 1 0, entryOf 1 1, entryOf 0 1].all (fun e => is.all fun i => meets i (fun x =>
      let f := x.t.layout x.s.tick x.c.course 0
      x.r.exec .always != 0 && (f.check x.t.items.span).isNone && (f.elemFault x.t.portion [0, 0]).isNone && x.t.tabPend.isEmpty) id (withLayouts [(0, e)])) = true ∧
    is.all (fun i => meets i (fun x => ((x.t.layout x.s.tick x.c.course 0).check x.t.items.span).isSome)) = true ∧
    [Instr.ldl ⟨true, 7⟩ 3 4 o, .stl ⟨true, 7⟩ (some 3) 4 o].all (fun i => meets i fun x => x.r.exec ⟨true, 7⟩ == 0) = true := by decide +kernel

/-- O27: fences, ranges and code words. -/
theorem test_witness_ranges :
    [Instr.prf .always .l1 ⟨2, 1, false, 0⟩, .prf ⟨true, 7⟩ .home ⟨2, 1, false, 0⟩, .fence .always .acq .sys, .fence .always .rel .crs, .isync .always].all
      (fun i => meets i fun x => x.t.tabPend.isEmpty && x.s.accesses.isEmpty) = true ∧
    [(0x1000, 0), (0x1000, 64), (2 ^ 57 - 1, 1), (2 ^ 57 - 1, 2)].all (fun e => [Instr.cwb .always 3 2 4 true, .iflush .always 2 4].all fun i =>
      meets i (fun x => x.r.uniform .always) (withG [(2, BitVec.ofNat 64 e.1), (4, BitVec.ofNat 64 e.2)])) = true := by decide +kernel

/-- O28: promise words on good cells, a misaligned one and one outside the address space. -/
theorem test_witness_promises :
    let is : List (Guard → Instr) := [fun g => .pinit g 0 7 true, fun g => .pfill g 0 7 11 .dev, fun g => .pwait g 0 20 7 .trs, fun g => .pequ g 0 7 24, fun g => .ptest g 0 20 7 .sys]
    is.all (fun i => [0x1000, 0x1004, 2 ^ 57].all fun a => meets (i .always) (fun x => x.r.uniform .always && x.r.gget 7 == BitVec.ofNat 64 a) (withG [(7, BitVec.ofNat 64 a)])) = true ∧
    is.all (fun i => meets (i ⟨true, 7⟩) fun x => !x.r.uniform ⟨true, 7⟩) = true := by decide +kernel

/-- O29: matrix words with all lanes, and with a lane missing. -/
theorem test_witness_matrix :
    let is := [Instr.accz .always 0 63 0, .accmvGet .always 0 4 8 9, .accmvPut .always 0 4 8 9, .accmvStat .always 0 4 30 9 true, .accmvCopy .always 0 4 5 9,
      .accsc .always 0 4 9 true, .mma .always 3 0 0 8 1 10 12 14, .mmaz .always 3 0 0 8 1 10 12 14]
    let ls := withLayouts [(0, entryOf 1 1), (1, entryOf 1 1)]
    is.all (fun i => meets i (fun x => x.r.exec .always == 0xFFFFFFFF) id ls && meets i (fun x => x.r.exec .always != 0xFFFFFFFF) (fun k => { k with lanes := 1 }) ls) = true ∧
    meets (.mtest .always 4 40) (fun x => x.r.exec .always == 0xFFFFFFFF) = true ∧
    [Instr.accld .always 0 4 0 8 .f32, .accst .always 0 4 0 8 .f32].all (fun i => meets i (fun x => tilePair .f32 (x.t.layout x.s.tick x.c.course 0) 4 &&
      ((x.t.layout x.s.tick x.c.course 0).faults x.t ⟨[x.r.coord 8, x.r.coord 9], [64, 64], [0, 1]⟩).isNone) id ls) = true ∧
    meets (.accld .always 0 5 0 8 .f64) (fun x => !tilePair .f64 (x.t.layout x.s.tick x.c.course 0) 5) id (withLayouts []) = true ∧
    meets (.accst .always 0 4 0 8 .i32) (fun x => !tilePair .i32 (x.t.layout x.s.tick x.c.course 0) 4) id (withLayouts []) = true := by
  decide +kernel

/-- O29: the operands of an `mma` pass every check; a depth above the pair's fails. -/
theorem test_witness_mmaChecks :
    let ls := withLayouts [(0, entryOf 1 1), (1, entryOf 1 1)]
    let i := Instr.mma .always 3 0 0 8 1 10 12 14
    meets i (fun x => let o := x.mmaOps 0 8 1 10 12 14
      o.fmtFault 0 x.t.tiles.length == none && o.layFault x.t == none && !(fmtBlock o.fmt.toNat).as_ && !(fmtBlock o.fmt.toNat).bs)
      (withG [(12, 0x41), (14, 16)]) ls = true ∧
    meets i (fun x => ((x.mmaOps 0 8 1 10 12 14).fmtFault 0 x.t.tiles.length) == some 7) (withG [(12, 0x41), (14, 17)]) ls = true ∧
    meets i (fun x => ((x.mmaOps 0 8 1 10 12 14).fmtFault 0 x.t.tiles.length) == none && ((x.mmaOps 0 8 1 10 12 14).layFault x.t).isSome)
      (withG [(12, 0x41), (14, 16)]) (fun t => { ls t with items := { t.items with part := 0 } }) = true := by decide +kernel

/-- O30: a copy whose checks pass, and one whose mask lies outside the span; a queue fence. -/
theorem test_witness_copies :
    let i := Instr.bcopy .always 1 0 8 10 1
    let ok := fun (x : Ctx) (m : Nat) =>
      let w := x.t.template x.s.tick x.c.course 0
      copyLayFault x.t w (x.t.layout x.s.tick x.c.course (tplSrc w)) (x.t.layout x.s.tick x.c.course (tplDst w)) (x.r.coords 8 1) (x.r.coords 10 1) == none &&
        tplMcast w == m
    meets i (fun x => ok x 0) id (withLayouts [(0, entryOf 1 0), (1, entryOf 1 1)]) = true ∧
    meets i (fun x => ok x 2 && decide (2 ^ x.t.items.span ≤ 2)) id
      (fun t => { withLayouts [(0, entryOf 1 0), (1, entryOf 1 1)] t with tpls := [(0, #v[BitVec.ofNat 64 (2 ^ 20), BitVec.ofNat 64 (2 ^ 40 + 2 ^ 56)])] }) = true ∧
    meets i (fun x => ok x 1 && (x.t.layout x.s.tick x.c.course 0).space == 0) id
      (fun t => { withLayouts [(0, entryOf 1 0), (1, entryOf 1 0)] t with tpls := [(0, #v[BitVec.ofNat 64 (2 ^ 20), BitVec.ofNat 64 (2 ^ 40 + 2 ^ 55)])] }) = true ∧
    meets i (fun _ => true) = true ∧
    [Instr.qfence .always true true true, .qfence ⟨true, 7⟩ true false false, .bcopy ⟨true, 7⟩ 1 0 8 10 3].all (fun i => meets i fun _ => true) = true := by decide +kernel

/-- O31: ring words on a good ring, and each of their stops. -/
theorem test_witness_rings :
    let base := fun (x : Ctx) => !x.t.items.guarded && x.k.quarantine.isEmpty && x.r.uniform .always && x.t.tabPend.isEmpty
    let ring := fun (y : SlotState) (ph : Bool) (t : Truss) => { t with rings := t.rings.set (0 : Fin 8) ⟨true, 1, 0, 0, 0, 0, 0, [⟨y, ph, 0⟩], 0⟩ }
    let desc := withG [(31, 0x100)]
    meets (.rgacqInit .always 0 31) (fun x => base x && decide (128 ≤ x.t.portion)) desc = true ∧ meets (.rgacqInit .always 0 31) base desc (ring .filled false) = true ∧
    meets (.rgacqInit .always 0 31) base (withG [(31, 0)]) = true ∧ meets (.rgacqInit .always 0 31) base (withG [(31, 0xFFF3F)]) = true ∧
    [SlotState.filled, .abandoned].all (fun y => meets (.rgtake .always 30 0) base id (ring y false)) = true ∧
    meets (.rgacq .always 30 0) base id (ring .free false) = true ∧ [Instr.rgacq .always 30 0, .rgtake .always 30 0].all (fun i => meets i base) = true ∧
    [Instr.rgcmt .always .none 0 31, .rgrel .always .none 0 31].all (fun i => [SlotState.acquired, .taken, .free].all fun y => [0, 2 ^ 32, 2 ^ 40].all fun g =>
      meets i base (withG [(31, BitVec.ofNat 64 g)]) (ring y false)) = true ∧
    [Instr.rgcmt .always .none 0 31, .rgrel .always .none 0 31].all (fun i => meets i base) = true ∧
    [(Instr.rgacq .always 30 0, SlotState.free), (.rgtake .always 30 0, .filled), (.rgtake .always 30 0, .abandoned), (.rgcmt .always .none 0 31, .acquired),
      (.rgrel .always .none 0 31, .taken)].all (fun e => meets e.1 (fun x => x.t.items.guarded && x.k.quarantine.isEmpty && x.t.tabPend.isEmpty &&
        (vat x.t.rings 0 Ring.launch).valid) id fun t => guardedT (ring e.2 false t)) = true ∧
    meets (.rgacqInit .always 0 31) (fun x => x.t.items.guarded && x.k.quarantine.isEmpty && (match ringInit x.t 0 (x.r.gget 31) with | .ok _ => true | _ => false))
      desc guardedT = true := by decide +kernel

/-- O32: a network word of each kind, with good operands, with a false guard and with a length of 2^32. -/
theorem test_witness_network :
    let g := withG [(40, 0), (41, 0x1000), (42, 8), (43, 8)]
    let is : List (Guard → Instr) := [fun g => .nsend g 4 40, fun g => .nrecv g 4 40, fun g => .nprobe g 4 40, fun g => .fput g 4 40, fun g => .fget g 4 40,
      fun g => .fcopy g 4 40, fun g => .fmrs g 4 40, fun g => .fmrl g 4 40, fun g => .amsg g 4 40 64]
    is.all (fun i => meets (i .always) (fun x => x.r.uniform .always && x.r.gget 42 == 8) g && meets (i ⟨true, 7⟩) fun x => !x.r.uniform ⟨true, 7⟩) = true ∧
    [Instr.nsend .always 4 40, .nrecv .always 4 40].all (fun i => meets i (fun x => decide (2 ^ 32 ≤ (x.r.gget 42).toNat)) (withG [(42, 0x100000000)])) = true ∧
    [Instr.fput .always 4 40, .fcopy .always 4 40].all (fun i => meets i (fun x => decide (2 ^ 32 ≤ (x.r.gget 43).toNat)) (withG [(43, 0x100000000)])) = true ∧
    meets (.amsg .always 4 40 64) (fun x => decide (bits (x.r.gget 40).toNat 15 8 < x.t.items.tblCnt)) id (fun t => { t with items := { t.items with tblCnt := 1 } }) = true ∧
    [Instr.fmrs .always 4 40, .fmrl .always 4 40].all (fun i => ready { on i g with groups := [(0, #v[BitVec.ofNat 64 (2 ^ 63), 0, 4096, 0, 0, 0, 0, 0])] } i fun x =>
      (x.s.group 0) != Vector.replicate 8 0) = true := by decide +kernel


/-! ### The device's own steps: states that meet the statements' hypotheses, and what one step makes of them -/

/-- The step answers a next state, and `p` holds of it. -/
def gives (o : Host.Outcome State Fault Refusal) (p : State → Bool) : Bool := match o with | .next s => p s | _ => false
/-- A device with one truss of one course; the course, the truss and the core are changed by `g`, `f` and `h`. -/
def dev (g : Course → Course := id) (f : Truss → Truss := id) (h : Core → Core := id) : State := (on .nop g f).modCore 0 h
def courseP (s : State) (p : Course → Bool) : Bool := match s.course? c0 with | some k => p k | none => false
def trussP (s : State) (p : Truss → Bool) : Bool := match s.truss? 0 with | some t => p t | none => false
/-- An entry of an engine queue. -/
def entry (b : EntryBody) : QEntry :=
  { id := 7, course := 0, tokOp := some 0, issued := 0, body := b, begun := false, done := 0, full := false, wrote := false, poison := false, drop := false,
    partly := false, fault := none, subs := 0, ovf := false, wait := .untranslated, waitAt := 0, held := false, redo := false, inRegion := false,
    cached := false, cache := [] }

/-- O33: a token falls, past an operation that went well and past a faulted one; a timed hold ends. -/
theorem test_witness_courseSteps :
    let ops := fun (fl : Option LateFault) (k : Course) => { k with
      tok := k.tok.set 3 ⟨2, 0⟩,
      ops := [opOf 4 0 .service, { opOf 5 3 .nothing with fallen := true },
        { opOf 6 3 .nothing with writes := [.g 5 9], flags := 1, status := 2, fault := fl }] }
    gives (exec (.tokenCompletion c0 3) (dev (ops none))) (fun t => courseP t fun k => k.tok[(3 : Tok)] == ⟨1, 2⟩ && k.gget 5 == 9 && k.fstat == 1) = true ∧
    gives (exec (.tokenCompletion c0 3) (dev (ops (some ⟨0x13, 0xA3, 0, 6⟩)))) (fun t => courseP t fun k =>
      k.tok[(3 : Tok)] == ⟨1, 2⟩ && k.gget 5 == 0 && k.fstat == 0) = true ∧
    [(Instr.dlyExpiry c0, Hold.dly 99), (.yieldExpiry c0, .yield 99), (.regionGuardWaitExpiry c0, .guard 99)].all (fun e =>
      gives (exec e.1 (dev fun k => { k with hold := e.2 })) fun t => t.clk == 99 && courseP t fun k => k.hold == .none) = true := by decide +kernel

/-- O33: the asynchronous traps. -/
theorem test_witness_asyncTraps :
    gives (exec (.debugRequest c0) (dev)) (fun t => courseP t fun k => k.debugPend && k.cstate == .resident) = true ∧
    gives (exec (.asyncTrapTaken c0) (dev fun k => { k with debugPend := true, ovfPend := [3] })) (fun t => courseP t fun k =>
      k.frames.length == 1 && !k.debugPend && k.ovfPend == [3] && k.pc == 0x2000) = true ∧
    gives (exec (.asyncTrapTaken c0) (dev fun k => { k with ovfPend := [3, 4] })) (fun t => courseP t fun k => k.frames.length == 1 && k.ovfPend == [4]) = true := by
  decide +kernel

/-- O34: a course without lanes retires and its truss is gone; a counter wraps and its trap waits; shares join meters. -/
theorem test_witness_retireAndCounters :
    let s := dev fun k => { k with lanes := 0 }
    (match s.truss? 0, s.course? c0 with | some t, some k => t.onCore && k.laneless && s.quiet c0 t k && k.cstate == .resident | _, _ => false) = true ∧
    gives (exec (.courseRetire c0) s) (fun t => trussP t (fun u => u.goneMask.getLsbD 0 && u.place == .gone) && courseP t fun k => k.cstate == .retired) = true ∧
    gives (exec (.eventCounterOverflow 0 2 5) (dev (fun k => { k with strict := true, recent := [(16, 0)] }) id fun c => { c with
        ec := c.ec.set 2 ⟨BitVec.ofNat 48 (2 ^ 48 - 1), BitVec.ofNat 16 (9 + 2 ^ 8 + 2 ^ 9)⟩ }))
      (fun t => (t.core 0).ec[2].value == 0 && courseP t fun k => k.ovfPend == [2]) = true ∧
    [0, 3, 4].all (fun e => gives (exec (.eventCounterOverflow 0 2 5)
        (dev (fun k => { k with stalled := true, barBlocked := some 1 }) id fun c => { c with ec := c.ec.set 2 ⟨BitVec.ofNat 48 (2 ^ 48 - 5), BitVec.ofNat 16 (e + 2 ^ 8 + 2 ^ 9)⟩ }))
      fun t => (t.core 0).ec[2].value == 0 && courseP t fun k => k.ovfPend == [2]) = true ∧
    gives (exec (.meterAccumulate 0) { dev with vds := [(0, { placedDevice with shares := Vector.replicate 10 3 })] }) (fun t =>
      match t.vdev? 0 with | some d => d.meters == Vector.replicate 10 3 && d.shares == Vector.replicate 10 0 | none => false) = true := by decide +kernel

/-- O35: the head entry of the matrix engine is begun; a full one is completed; a self-test finds a failed sub-array. -/
theorem test_witness_matrixEngine :
    let q := fun (b : EntryBody) (fl : Bool) => dev (fun k => { k with ops := [opOf 0 3 (.parts 1)] }) (fun t => { t with matQ := [{ entry b with full := fl, begun := fl }] })
      (fun c => if fl then { c with matBusy := some 0 } else c)
    let s := q (.accz 60 4) false
    (s.matNext 0 == some 0 && (s.core 0).fenced != 0xF && trussP s fun t => (t.head? .mat).isSome && t.tiles.length == 64) = true ∧
    gives (exec (.matrixEntryStart 0 0) s) (fun t => (t.core 0).matBusy == some 0 && trussP t fun u => match u.head? .mat with
      | some e => e.full && (u.tile 63).status == 0 && (u.tile 60).get 5 == 0 | none => false) = true ∧
    gives (exec (.matrixEntryStart 0 0) (q (.accPut 3 63 ((List.range 64).map (BitVec.ofNat 32))) false)) (fun t => trussP t fun u =>
      (u.tile 3).get 4095 == 63 && (u.tile 3).get 4032 == 0) = true ∧
    gives (exec (.matrixEntryComplete 0) (q (.accz 60 4) true)) (fun t => (t.core 0).matBusy == none && trussP t (fun u => u.matQ.isEmpty) &&
      courseP t fun k => k.ops.map (·.wait) == [.nothing]) = true ∧
    gives (exec (.selfTestProduct 0 2) (dev id id fun c => { c with mcount := 65536, fenced := 1 })) (fun t => (t.core 0).fenced == 3 && (t.core 0).mcount == 0) = true ∧
    ((dev id id fun c => { c with mcount := 65536 }).core 0).testDue = true := by decide +kernel

/-- O36: the copy engine's entry, a ring effect, a message sent and arriving, and a service record. -/
theorem test_witness_otherEngines :
    let lay : Layout := #v[BitVec.ofNat 64 (0x1000 + 2 ^ 57 + 2 ^ 59), BitVec.ofNat 64 (64 + 64 * 2 ^ 20 + 2 * 2 ^ 60), BitVec.ofNat 64 (64 * 2 ^ 32), 0]
    let s := dev id fun t => { t with copyQ := [entry (.bcopy #v[BitVec.ofNat 64 (2 ^ 20), BitVec.ofNat 64 (2 ^ 40)] lay lay [0, 0] [0, 0])] }
    (s.copyNext 0 == some 0 && (s.copyHead 0).isSome) = true ∧
    gives (exec (.copyEntryExecute 0 1) s) (fun t => (t.core 0).copyLast == some 0 && trussP t fun u => u.copyQ.all fun x => x.begun) = true ∧
    [(true, SlotState.committing, SlotState.filled), (false, .releasing, .free)].all (fun e =>
      gives (exec (.ringEntryEffect 0 .copy) (dev id fun t => { t with
          rings := t.rings.set (2 : Fin 8) ⟨true, 1, 0, 0, 0, 0, 0, [⟨e.2.1, false, 0⟩], 0⟩, copyQ := [entry (.ring 2 0 e.1 (some false))] }))
        fun t => trussP t fun u => u.copyQ.isEmpty && u.rings[(2 : Fin 8)].slots.map (·.st) == [e.2.2]) = true ∧
    (match (dev).vdev? 0 with | some d => d.cores.length == 8 && d.cores[7]? == some 7 | none => false) = true ∧
    gives (exec (.networkEntryStart 0) (dev id fun t => { t with netQ := [entry (.amsg 7 1 0x3000 [1])] })) (fun t => t.amsgFly.map (·.target) == [7]) = true ∧
    [0, 64].all (fun n => let m : AMsg := ⟨0, 7, 1, 0x3000, 0, [1], some (0, 7), .untranslated⟩
      gives (exec (.amsgArrival 7) { (dev).modCore 7 fun c => { c with amsgs := List.replicate n m } with amsgFly := [m] }) fun t =>
        t.amsgFly.isEmpty && (t.core 7).amsgs.length == (if n == 0 then 1 else 64)) = true ∧
    gives (exec (.serviceRecordTake ⟨0, 3⟩ false []) { dev with svcRecs := #v[[none], []] }) (fun t => vat t.svrHead 0 0 == 1) = true ∧
    [(false, none, 5), (true, some 0x1B, 0)].all (fun e =>
      gives (exec (.serviceRecordTake ⟨1, 3⟩ e.1 [[5]]) { dev (fun k => { k with ops := [{ opOf 9 3 .service with writes := [.v 8 2 (Vector.replicate 32 0)] }] }) with
          svcTaken := #v[[], [(3, (c0, 9))]] })
        fun t => courseP t fun k => k.ops.map (fun o => (o.wait, o.fault.map (·.cause))) == [(.nothing, e.2.1)] && (tget? (vat t.svcTaken 1 []) 3).isNone) = true := by
  decide +kernel

/-- A device with one launch of two trusses that waits, and no truss. -/
def waiting : State := { dev with trusses := [], launches := [⟨0, 0, 5, { placedItems with gx := 2, arg := 77, progress := 2 }, 0, 0, false, .untranslated⟩] }

/-- A running queue of 128 units at 0x4000, with a packet behind HEAD. -/
def queue : Qcb :=
  { v := true, st := .running, bprio := 0, vd := 0, rsz := 7, kidx := 0, rbase := 0x4000, tail := 2, head := 0, eseq := 0, retire := 0, hmir := 0,
    ageq := 0, waitSince := 0, errSeq := 0, een := false, evec := 0, err := 0, infl := [], pending := false, slot := some 0, look := [], skip := 0,
    unreported := false, polled := 0, wait := .untranslated, hwait := .untranslated, ringAt := none }

/-- O37: a span is admitted, by its two ways. -/
theorem test_witness_launches :
    (match waiting.vdev? 0, waiting.launches[0]? with
      | some d, some l => waiting.pickCores d (List.replicate l.items.span fun c => waiting.openFor l.vd c && waiting.fits c l.items l.items.courses false) == some [0] &&
          waiting.served 0 && !waiting.replaying 0 && decide (l.admitted < l.items.total) | _, _ => false) = true ∧
    (match waiting.admitSpan 0 with | some t => courseP t (fun k => k.pc == 0x1000 && k.gget 3 == 77 && k.lanes == 0xFFFFFFFF && k.cstate == .resident) | none => false) = true ∧
    gives (exec .launchAdmission waiting) (fun t => t.launches.map (·.admitted) == [2] && t.trusses.map (·.index) == [0, 1]) = true := by decide +kernel

/-- O38: a course is parked and comes back; a truss leaves and comes back; a switch ends. -/
theorem test_witness_eviction :
    let full := dev id id fun c => { c with parking := some (0, 2000000) }
    (match full.truss? 0, full.course? c0 with | some t, some k => full.parkNext 0 0 == some c0 && full.drained c0 t k && decide (full.regFree 0 < 2000000) | _, _ => false) = true ∧
    gives (exec (.partialEviction 0 0 2000000) full) (fun t => t.ctxParts.length == 1 && courseP t fun k => k.cstate == .parked && k.pc == 0x1000) = true ∧
    gives (exec (.courseUnpark c0) (dev (fun k => { k with cstate := .parked }) id fun c => { c with part := some placedItems.part })) (fun t => courseP t fun k => k.cstate == .resident && k.restored == some 16) = true ∧
    (let s := dev id fun t => { t with evict := true, tested := true }
     s.groupOf 0 == [0] && s.canLeave 0 && gives (exec (.fullEviction 0) s) fun t => trussP t fun u => u.place == .stored 0 && !u.evict) = true ∧
    (let s := dev (fun k => { k with cstate := .stored }) fun t => { t with place := .stored 3 }
     (s.restored? 0).isSome && gives (exec (.trussRestore 0) s) fun t => trussP t (fun u => u.onCore) && courseP t fun k => k.cstate == .resident) = true ∧
    (let s : State := { dev with sets := (dev).sets.set (0 : Fin 32) { vat (dev).sets 0 ClSet.reset with running := none, next := none }, vds := [(0, { placedDevice with runnable := true })] }
     (s.holders 0).any s.isRunnable && gives (exec (.sliceBoundary 0) s) fun t => t.sets[(0 : Fin 32)].next == some 0) = true ∧
    (let s : State := { dev with sets := (dev).sets.set (4 : Fin 32) ⟨true, 0, 0, none, some 5, 0⟩ }
     s.holders 4 == [] && s.switchDone 4 5 && gives (exec (.sliceBoundary 4) s) fun t => t.sets[(4 : Fin 32)].running == some 5) = true := by decide +kernel

/-- O39: a strike report, without and with a guarded course; a rollback; a release from quarantine. -/
theorem test_witness_strikes :
    [0, 4].all (fun z => gives (exec (.strikeReport 191 z) (dev)) fun t => (t.core 191).strkz.getLsbD z.val && t.strikes == 1) = true ∧
    gives (exec (.strikeReport 0 0) (dev (fun k => { k with recent := [(16, 0)] }) guardedT)) (fun t => courseP t fun k => k.rollbackPend) = true ∧
    gives (exec (.regionRollback c0) (dev fun k => { k with rollbackPend := true, region := 0x1800, rgstate := BitVec.ofNat 64 (2 ^ 63 + 0xFF), v := k.v.set 3 (Vector.replicate 32 5) }))
      (fun t => courseP t fun k => k.pc == 0x1800 && k.lanes == 0xFF && !k.rollbackPend && k.v[(3 : Fin 256)] == Vector.replicate 32 5) = true ∧
    gives (exec (.quarantineRelease c0) (dev (fun k => { k with quarantine := [⟨.barinit 2, 16, none, 0⟩] }) fun t => { guardedT t with
        bars := t.bars.set (2 : Fin 16) ⟨false, 0, 0, 0, false, 0⟩ }))
      (fun t => t.clk == 1040 && trussP t (fun u => u.bars[(2 : Fin 16)].valid) && courseP t fun k => k.quarantine.isEmpty) = true := by decide +kernel

/-- O40: errors of memories, and worn parts. -/
theorem test_witness_health :
    gives (exec (.eccCorrected 0 0) { dev with cecthr := 2, cecnt := 1 }) (fun t => t.cecnt == 2 && t.evTail == 0) = true ∧
    gives (exec (.eccUncorrectable (.hbm 0x1008)) (dev)) (fun t => tget false t.memPsn 0x203 && t.uecnt == 1) = true ∧
    gives (exec (.eccUncorrectable (.register c0 255 15)) (dev)) (fun t => courseP t fun k => k.psn == [(255, 15)]) = true ∧
    gives (exec (.eccUncorrectable (.deviceTable 0)) { dev with trusses := [] }) (fun t => (match t.vdev? 0 with | some d => d.mode == 4 | none => false) &&
      t.kills.map (·.scope) == [.device 0 false]) = true ∧
    gives (exec (.coreRetire 0) (dev id id fun c => { c with fenced := 0xF })) (fun t => (t.core 0).retired && trussP t (·.evict)) = true ∧
    (let s : State := { dev with ueCol := [(3, List.replicate 64 16)] }
     crowded 64 (tget [] s.ueCol 3) && s.powered.contains 3 && gives (exec (.columnRetire 3) s) fun t => t.columnsGone == 8 && t.folds.length == 1) = true := by
  decide +kernel

/-- O41: kills, from a fetch of poison and by the supervisor; drains, a dump and a release. -/
theorem test_witness_kills :
    let root : Cause := ⟨0x0315, 0, 0x1000, 0⟩
    let kill := fun (y : KillStage) (sc : KillScope) (d : List Engine) => (⟨sc, y, d, 16, root, none, false, false⟩ : Kill)
    let killed := fun (y : KillStage) (d : List Engine) => { dev (fun k => { k with cstate := .killed, chain := [root] }) with kills := [kill y (.course c0) d] }
    gives (exec (.courseKill c0 .poisonFetch) (dev fun k => { k with fetch := .failed 0x15 0 })) (fun t => courseP t (fun k => k.cstate == .killed && k.chain.map (·.w0.truncate 16) == [0x0315]) &&
      t.kills.map (·.stage) == [.drain]) = true ∧
    [(KillCause.poisonRead, (fun k => { k with ops := [{ opOf 0 3 .nothing with poison := true }] } : Course → Course), 0x0015),
      (.noRegion, (fun k => { k with rollbackPend := true }), 0x0115), (.unguardedStrike, (fun k => { k with recent := [(16, 0)] }), 0x0215),
      (.trapOverflow 1 2, (fun k => { k with fetch := .failed 1 2, frames := List.replicate 4 (frameOf 0) }), 0x0019),
      (.trapOverflow 1 2, (fun k => { k with fetch := .failed 1 2 }), 0x0201)].all (fun e =>
      gives (exec (.courseKill c0 e.1) (dev e.2.1 (fun t => { t with items := { t.items with handler := 0 } }) fun c => { c with strkz := 1 })) fun t =>
        courseP t fun k => k.cstate == .killed && k.chain.map (·.w0.truncate 16) == [BitVec.ofNat 16 e.2.2]) = true ∧
    gives (exec (.courseKill c0 .supervisor) (dev)) (fun t => courseP t fun k => k.cstate == .killed) = true ∧
    [Engine.core, .matrix, .network].all (fun e => gives (exec (.killDrain e) (killed .drain [])) fun t => t.kills.map (·.drained) == [[e]]) = true ∧
    gives (exec (.drainTimeout ⟨.copy, false⟩) (killed .drain [.core])) (fun t => t.kills.map (·.drained) == [[.core, .copy]] && t.clk == 16 + 2 ^ 22) = true ∧
    gives (exec (.drainTimeout ⟨.copy, true⟩) (killed .drain [.core])) (fun t => t.kills.map (·.scope) == [.course c0, .device 0 false]) = true ∧
    gives (exec .killDump (killed .dump [])) (fun t => t.kills.map (·.stage) == [.release] && courseP t fun k => k.chain.isEmpty) = true ∧
    gives (exec .killRelease (killed .release [])) (fun t => t.kills.isEmpty && courseP t (fun k => k.slot == 64) && trussP t fun u => u.place == .gone) = true ∧
    gives (exec .killRelease { dev with trusses := [], kills := [kill .release (.device 0 false) []], vds := [(0, { placedDevice with mode := 4, modeBefore := 2 })] })
      (fun t => t.kills.isEmpty && match t.vdev? 0 with | some d => d.mode == 2 && d.kdone | none => false) = true ∧
    gives (exec .killRelease { dev with trusses := [], kills := [{ kill .release (.device 0 false) [] with resets := true }], vds := [(0, { placedDevice with
        mode := 4, flttail := 7, fltbase := 0x50007 })] })
      (fun t => match t.vdev? 0 with | some d => d.mode == placedDevice.modeBefore && d.flttail == 0 && d.fltbase == 0 | none => false) = true := by decide +kernel

/-- A page table that maps the first GiB onto itself, for both stages, at 0x80000; and one of level-1 entries for the unit at 0x100000, at 0x90000: in
HBM at 0x200000, or in host memory at 0x30000. -/
def tables (host : Bool) : Mem :=
  let w := fun (m : Mem) (e : Nat × Nat) => writeNat m e.1 8 e.2
  let m := [(0x80000, 0x81001), (0x81000, 0x82001), (0x82000, 0xFD), (0x90000, 0x91001), (0x91000, 0x92001), (0x92000, 0x93001), (0x93000, 0x94001)].foldl w (dev).mem
  (List.range 16).foldl (fun m i => w m (0x94800 + 8 * i, 0x1F0 - 0x100 + (if host then 2 ^ 9 + 2 ^ 57 + 0x30000 else 1 + 0xC + 2 ^ 8 + 2 ^ 57 + 0x200000) + 4096 * i)) m
/-- The device with its space mapped. -/
def mapped (d : VDev := { placedDevice with s1root := 0x80000, s2root := 0x80000 }) : State := { dev with mem := tables false, vds := [(0, d)] }
/-- An access of the course, with one part for 8 bytes. -/
def accessOf (k : AccKind) (data : List Byte) (ph : Phase) : Access :=
  { id := 3, who := c0, tokOp := none, kind := k, ssc := false, scratch := false, acq := none, rel := none,
    parts := [⟨0, 0x3000, 8, data, [], ph, [], false, 0, 0, false⟩], drop := false, inRegion := false, land_ := .none, lanes := 1 }
def bytes8 : List Byte := (List.range 8).map (BitVec.ofNat 8)
def waitOp (r : Bool) : PromOp :=
  { id := 9, who := .queue 0, vd := 0, op := .pwait, va := 0x3000, phase := .ready 0x3000 0 false, phase2 := .untranslated, waiting := some (0x3000, r), rel := false,
    relTrs := false, acqScope := none, sent := 0 }

/-- O42: parts at their home; a repeating `pwait`. -/
theorem test_witness_homes :
    gives (exec (.homeSliceAccess 3 0 .home) { dev with accesses := [accessOf .store bytes8 (.ready 0x3000 7 false)] }) (fun t =>
      t.accesses.map (fun a => a.parts.map (·.phase)) == [[.untranslated]]) = true ∧
    gives (exec (.homeSliceAccess 3 0 .home) { dev with accesses := [accessOf .store bytes8 (.ready 0x3000 0 false)], memPsn := [(0x600, true)] }) (fun t =>
      t.accesses.isEmpty && readBytes t.mem 0x3000 8 == bytes8 && !tget false t.memPsn 0x600) = true ∧
    (let a := accessOf .load [] (.ready 0x1000 0 false)
     gives (exec (.homeSliceAccess 3 0 .homeNoFill) { dev with accesses := [{ a with parts := a.parts ++ a.parts }] }) fun t =>
      t.accesses.map (fun a => a.parts.map (fun p => p.phase == .performed && p.got == readBytes t.mem 0x1000 8)) == [[true, false]]) = true ∧
    gives (exec (.pwaitRepeat 9) { dev with proms := [waitOp false], cells := [(0x3000, .full 5 0)] }) (fun t => t.proms.isEmpty) = true ∧
    gives (exec (.pwaitRepeat 9) { dev with proms := [waitOp false], cells := [(0x3000, .empty 0)] }) (fun t => t.proms == [waitOp true]) = true ∧
    (({ dev with cells := [(0x3000, .empty 0)] } : State).findRidge 0x3000 == some 0x3000) = true := by decide +kernel

/-- O42: a fold; units that move in and out; a fault that is recorded and passed on. -/
theorem test_witness_moves :
    gives (exec (.lineHandover 5) { dev with folds := [⟨2, false, false, false, false, some 16, [5, 6], 0⟩] }) (fun t => t.folds.map (·.left) == [[6]]) = true ∧
    (({ dev with folds := [⟨2, true, false, false, false, none, [], 0⟩], fold := [(16, 0x80000008)] } : State).toMove ⟨2, true, false, false, false, none, [], 0⟩).isSome = true ∧
    (let d := { placedDevice with s2root := 0x90000 }
     let s : State := { dev (fun k => { k with fetch := .paging 0x101000 }) with mem := tables true, vds := [(0, d)], hbmFree := [0x200000], faults := [⟨0, true, 0x101000, 5, 0, 0, 0, 0, true, false⟩], hostMem := writeNat [] 0x31008 8 77 }
     s.wantsUnit 0 0x100000 && gives (exec (.pageIn 0 0x101000) s) fun t => t.hbmFree.isEmpty && readNat t.mem 0x201008 8 == 77 &&
       courseP t fun k => k.fetch == .untranslated) = true ∧
    (let d := { placedDevice with s2root := 0x90000 }
     let s : State := { mapped { d with mode := 2 } with cmCount := [(0x40, List.replicate 4096 true)] }
     (match s.leaf2 d 0x100000 with | some (_, e) => s.unitInHbm d 0x100000 e && bit e 57 | none => false) &&
     [Instr.pageOut 0 0x100000 0x40, .counterManagedMove 0 0x100000 0x40].all fun i => gives (exec i s) fun t => t.hbmFree.getLast? == some 0x200000) = true ∧
    (let d := { placedDevice with s1root := 0x80000, s2root := 0x80000, fltbase := 0x50007 }
     let f : FaultWait := ⟨0, false, 0x123000, 5, 0, 0, 0, 0, false, false⟩
     let s := { mapped d with faults := [f, { f with stage2 := true }] }
     gives (exec (.stage1FaultRecord 0) s) (fun t => readNat t.mem 0x50000 8 == 0x123000 && match t.vdev? 0 with | some d => d.flttail == 1 | none => false) &&
     gives (exec (.stage2FaultEvent 0) s) fun t => t.faults.map (·.passed) == [false, true]) = true := by decide +kernel

/-- A device with the running queue 0, whose ring holds `p`. -/
def queued (p : List Byte) (f : Qcb → Qcb := id) : State :=
  { mapped with mem := writeBytes (tables false) 0x4000 p, kickMap := [(3, BitVec.ofNat 32 (2 ^ 31)), (4, BitVec.ofNat 32 (2 ^ 31 + 2 ^ 30))], qcbs := [(0, f queue)] }
def queueP (s : State) (p : Qcb → Bool) : Bool := match s.qcb? 0 with | some b => p b | none => false
/-- A packet of a type, with flags, a size in further units and words from offset 16 on. -/
def packet (ty flags size : Nat) (ws : List Nat) : List Byte :=
  let x := natBytes 8 (ty + size * 2 ^ 8 + flags * 2 ^ 17) ++ natBytes 8 0 ++ (ws.map (natBytes 8)).flatten
  x ++ List.replicate (32 * (size + 1) - x.length) 0

/-- O43: kicks, submission writes and a fetch. -/
theorem test_witness_kicks :
    let off := (queued []).putQcb 0 { queue with st := .unmapped, slot := none }
    gives (exec (.kickWrite 0 3 9) (queued [])) (fun t => queueP t fun b => b.tail == 9 && b.head == 0) = true ∧
    gives (exec (.kickWrite 0 3 9) off) (fun t => t.passesDue == 1 && queueP t fun b => b.pending && b.tail == 9) = true ∧
    gives (exec (.kickWrite 0 4 9) { queued [] with qcbs := [] }) (fun t => t.discards == 1) = true ∧
    gives (exec (.submissionWrite 0 4 true 0 []) (queued [])) (fun t => t.discards == 1) = true ∧
    gives (exec (.submissionWrite 0 4 false 3968 (List.replicate 128 7)) (queued [])) (fun t => queueP t (fun b => b.tail == 6) && readNat t.mem 0x4040 1 == 7 &&
      t.hostOut.getLast? == some (.completion .successful)) = true ∧
    gives (exec (.packetFetch 0) (queued (packet 1 0 1 []))) (fun t => queueP t fun b => b.look == [packet 1 0 1 []]) = true := by decide +kernel

/-- O37: a launch completes, with a status word and without; a handler truss starts, from its table and from a failed read of it. -/
theorem test_witness_launchEnds :
    let s : State := { dev id (fun t => { t with place := .gone }) with qcbs := [(0, { queue with infl := [⟨0, 2, .launch 0, .untranslated⟩] })] }
    s.launchOver 0 ⟨0, 0, 0, placedItems, 1, 0, false, .untranslated⟩ = true ∧
    gives (exec (.launchComplete 0) s) (fun t => t.launches.map (·.complete) == [true] && t.qcbs.map (fun e => e.2.infl.map (·.st)) == [[.done]]) = true ∧
    (let s : State := { mapped with launches := [⟨0, 0, 5, { placedItems with statusAddr := 0x7000, progress := 1 }, 1, 0, false, .untranslated⟩] }
     let s : State := { s with trusses := s.trusses.map fun t => { t with place := .gone }, qcbs := [(0, queue)] }
     gives (exec (.launchComplete 0) s) fun t => t.launches.map (·.complete) == [true] && readNat t.mem 0x7000 8 == 0) = true ∧
    (let m : AMsg := ⟨0, 7, 1, 0x82000, 0, List.replicate 64 9, none, .untranslated⟩
     gives (exec (.handlerSpawn 7) ((mapped : State).modCore 7 fun c => { c with amsgs := [m] })) fun t => match t.truss? 1 with
       | some u => u.handlerTruss && u.courses.map (·.pc) == [0] | none => false) = true ∧
    (let m : AMsg := ⟨0, 7, 1, 0x3000, 0, List.replicate 64 9, none, .failed 0x13 0xA5⟩
     let s := (dev).modCore 7 fun c => { c with amsgs := [m] }
     s.served 0 && s.fits 7 placedItems 1 true && gives (exec (.handlerSpawn 7) s) fun t => (t.core 7).amsgs.isEmpty && match t.truss? 1 with
       | some u => u.handlerTruss && u.place == .onCore 7 && u.courses.map (·.fetch) == [.failed 0x13 0xA5] | none => false) = true := by decide +kernel

/-- O44: packets at the head of a queue issue. -/
theorem test_witness_packets :
    let at_ := fun (p : List Byte) => queued p fun b => { b with look := [p], tail := 9 }
    let ok := fun (p : List Byte) => let s := at_ p
      match s.qcb? 0 with | some b => s.threadRuns b && (packetErr b p).isNone && (match (s.queueRead b (b.unitAt b.head) 16).2 with | .ok x => x == p.take 16 | _ => false) | none => false
    let ran := fun (i : Instr) (p : List Byte) (q : Qcb → Bool) => ok p && gives (exec i (at_ p)) fun t => queueP t fun b => b.eseq == 1 && b.head.toNat == pkSize p + 1 && q b
    ran (.packetNop 0) (packet 0 0 0 []) (fun b => b.st == .running) = true ∧ ran (.packetFence 0) (packet 6 5 0 []) (fun b => b.st == .running) = true ∧
    ran (.packetWaitPromise 0) (packet 2 0 1 [0x3000]) (fun b => b.st == .blocked) = true ∧
    ran (.packetWaitMemory 0) (packet 2 1 1 [0x3000, 5, 0xFF]) (fun b => b.st == .blocked && b.infl.map (·.st) == [.waitMem 0x3000 5 0xFF 0 false]) = true ∧
    ran (.packetSignalFill 0) (packet 3 0 1 [0x3000, 5]) (fun b => b.st == .running) = true ∧
    ran (.packetSignalStore 0) (packet 3 5 1 [0x3000, 5]) (fun b => b.infl.map (·.st) == [.done]) = true ∧
    ran (.packetSignalInterrupt 0) (packet 3 2 1 [63]) (fun b => b.infl.map (·.st) == [.done]) = true ∧
    ran (.packetCond 0) (packet 4 0 0 [0x3000, 3]) (fun b => b.skip == 3) = true ∧
    ran (.packetCopy 0) (packet 5 0 1 [0x3000, 0x5000, 64]) (fun b => b.infl.map (·.st) == [.copy 0x3000 0x5000 64 0]) = true ∧
    gives (exec (.packetCopy 0) (queued [] fun b => { b with infl := [⟨0, 2, .copy 0x3000 0x5000 8 0, .untranslated⟩] })) (fun t => queueP t fun b => b.infl.map (·.st) == [.done]) = true ∧
    [(0, 1), (4, 0)].all (fun e => let p := packet e.1 0 0 [0x3000]
      gives (exec (.fallbackVisit 0 0) { at_ p with qpFallback := Vector.replicate 8 true }) fun t => queueP t fun b => b.eseq == e.2) = true := by decide +kernel

/-- O44: a LAUNCH of one truss goes to the distributor. -/
theorem test_witness_launchPacket :
    let p := packet 1 0 3 [0x1000]
    let s := queued p fun b => { b with look := [p], tail := 9 }
    gives (exec (.packetLaunch 0) s) (fun t => queueP t (fun b => b.eseq == 1 && b.infl.map (·.st) == [.launch 1]) && t.launches.length == 2) = true := by decide +kernel

/-- O45: a polled WAIT, retirement, its report, and queues that leave and take a slot. -/
theorem test_witness_queueUpkeep :
    let wait := fun (v : Nat) (b : Qcb) => { b with st := .blocked, infl := [⟨0, 2, .waitMem 0x3000 (BitVec.ofNat 64 v) 0xFF 0 false, .untranslated⟩], head := 2, eseq := 1 }
    gives (exec (.waitPoll 0) (queued [] (wait 0))) (fun t => queueP t fun b => b.st == .running && b.infl.map (·.st) == [.done]) = true ∧
    gives (exec (.waitPoll 0) (queued [] (wait 5))) (fun t => queueP t fun b => b.st == .blocked && b.polled == 1024) = true ∧
    gives (exec (.packetRetire 0) (queued [] fun b => { b with infl := [⟨0, 2, .done, .untranslated⟩, ⟨1, 1, .promise 4, .untranslated⟩] }))
      (fun t => queueP t fun b => b.retire == 2 && b.infl.length == 1 && b.unreported) = true ∧
    gives (exec (.retireReport 0) (queued [] fun b => { b with unreported := true, retire := 9, hmir := 0x6000 })) (fun t => queueP t (fun b => !b.unreported) && readNat t.mem 0x6000 4 == 9) = true ∧
    gives (exec .queueSchedulerPass { (queued []).putQcb 0 { queue with st := .unmapped, slot := none, pending := true } with
      passesDue := 1, vds := [(0, { placedDevice with s1root := 0x80000, s2root := 0x80000, hqs := 1 })] })
      (fun t => t.passesDue == 0 && queueP t fun b => b.st == .running && b.slot.isSome && !b.pending) = true ∧
    gives (exec (.queueUnmap 0) (queued [])) (fun t => queueP t fun b => b.st == .unmapped && b.slot.isNone && b.pending) = true ∧
    gives (exec (.queueUnmap 0) (queued [] (wait 5))) (fun t => queueP t fun b => b.st == .unmapped && b.head == 0 && b.eseq == 0 && b.infl.isEmpty) = true ∧
    gives (exec (.heartbeatMiss 7) (queued [])) (fun t => t.qpFallback[(7 : Fin 8)]) = true ∧
    gives (exec (.firmwareRunningAgain 7) { queued [] with qpFallback := Vector.replicate 8 true }) (fun t => !t.qpFallback[(7 : Fin 8)]) = true := by decide +kernel

/-- Arguments of a mailbox command, from word 1 on. -/
def args (ws : List Nat) : Vector W64 8 := Vector.ofFn fun i => BitVec.ofNat 64 ((0 :: ws)[i.val]?.getD 0)
/-- The command has ended with a status, and `p` holds. -/
def answers (i : Instr) (s : State) (st : BitVec 16) (p : State → Bool) : Bool :=
  s.power == .ready && !s.mbBusy && gives (exec i s) fun t => !t.mbBusy && t.mbStatus == st && t.hostOut.getLast? == some (.msix 0 0) && p t
/-- The command has begun. -/
def begins (i : Instr) (s : State) (p : State → Bool) : Bool := s.power == .ready && !s.mbBusy && gives (exec i s) fun t => t.mbBusy && p t
def vdevP (s : State) (v : Nat) (p : VDev → Bool) : Bool := match s.vdev? v with | some d => p d | none => false

/-- O46: devices and sets. -/
theorem test_witness_devices :
    let none_ : State := { dev with trusses := [], vds := [(0, { placedDevice with ctxSize := 2 ^ 40 })], launches := [] }
    answers (.setweight (args [0, 255])) none_ 0 (fun t => vdevP t 0 fun d => d.weight == 255) = true ∧ answers (.setweight (args [0, 256])) none_ 1 (fun t => t.vds == none_.vds) = true ∧
    answers (.setmode (args [0, 3])) none_ 0 (fun t => vdevP t 0 fun d => d.mode == 3) = true ∧ answers (.setmode (args [511, 3])) none_ 5 (fun t => t.vds == none_.vds) = true ∧
    answers (.setset (args [0, 0])) none_ 0 (fun t => vdevP t 0 fun d => d.set == 0 && d.grant == 1) = true ∧
    begins (.destroy (args [0])) none_ (fun t => vdevP t 0 (fun d => d.mode == 4) && t.kills.map (·.scope) == [.device 0 true]) = true ∧
    begins (.destroy (args [0])) { none_ with sets := none_.sets.set (0 : Fin 32) ⟨true, 1, 0, none, some 0, 0⟩ } (fun t =>
      vdevP t 0 (fun d => d.mode != 4) && t.kills.map (·.stage) == [.wait]) = true ∧
    answers (.defset (args [31, 0x00FF00])) none_ 0 (fun t => t.sets[(31 : Fin 32)].mask == 0x00FF00) = true ∧
    gives (exec (.defset (args [31, 2])) { none_ with mbBusy := true }) (fun t => t.discards == 1 && !t.sets[(31 : Fin 32)].defined) = true := by decide +kernel

/-- O47: remap entries, pages, meters, dump slots and queues. -/
theorem test_witness_resources :
    let s : State := { mapped { placedDevice with s1root := 0x80000, s2root := 0x90000, dumpNext := 3, dumpFreed := 1, meters := Vector.replicate 10 7 } with hostUp := true }
    answers (.mapvec (args [0, 63, 2 ^ 63 + 0x7FF])) s 0 (fun t => (tget 0 t.remap 63).getLsbD 63 && (tget 0 t.remap 63).truncate 11 == (0x7FF : BitVec 11)) = true ∧
    answers (.map2 (args [0, 0x110000, 0x300000, 2, 4])) s 0 (fun t => readNat t.mem 0x94880 8 % 2 == 1 && bits (readNat t.mem 0x94888 8) 51 12 == 0x301) = true ∧
    answers (.unmap2 (args [0, 0x100000, 16])) s 0 (fun t => vdevP t 0 fun d => d.gen == 1 && (s.leaf2 d 0x100000).isSome) = true ∧
    answers (.abort2 (args [0, 0x100000])) { s with trusses := s.trusses.map fun t => { t with courses := t.courses.map fun k => { k with fetch := .wait2 0x100FFF } } } 0
      (fun t => courseP t fun k => k.fetch == .failed 0x13 0) = true ∧
    answers (.meters (args [0, 0x7000])) { s with hostUp := false } 0 (fun t => t.hostWait == [(0x7000, wordBytes (List.replicate 10 7))]) = true ∧
    answers (.meters (args [0, 0x7000])) s 0 (fun t => t.hostOut.head? == some (.write 0x7000 (wordBytes (List.replicate 10 7)))) = true ∧
    answers (.dumpack (args [0, 2])) s 0 (fun t => vdevP t 0 fun d => d.dumpFreed == 3) = true ∧
    answers (.qcreate (args [0xFFFF, 2 ^ 63 + 19 * 2 ^ 38 + 15 * 2 ^ 56, 0x4000, 0, 0])) s 0 (fun t => match t.qcb? 0xFFFF with
      | some b => b.rsz == 19 && b.bprio == 15 && b.rbase == 0x4000 | none => false) = true ∧
    answers (.qcreate (args [0xFFFF, 0, 0x4000, 0, 0])) s 0 (fun t => (t.qcb? 0xFFFF).isNone && (t.kickEntry 0 0).getLsbD 31) = true ∧
    answers (.qrestart (args [0, 128, 6])) (queued [] fun b => { b with st := .halted, err := 5 }) 0 (fun t => queueP t fun b => b.tail == 128 && b.err == 0 && b.eseq == 6 && b.head == 0) = true := by
  decide +kernel

/-- O46: a device is made, with the root of its stage 2 from the pool. -/
theorem test_witness_create :
    let s : State := { dev with pool := [0xA000, 0xB000] }
    let w := args [5 + 9 * 2 ^ 16 + 2 ^ 32 + 2 ^ 41, 2 ^ 38 + 2 ^ 30, 2 ^ 38 + 2 ^ 36, 16 * 2 ^ 32, 0]
    (match s.createErr w (bits w[1].toNat 28 24) (bits w[1].toNat 43 41) (bits w[1].toNat 23 16) (bits w[1].toNat 40 32) w[2].toNat w[3].toNat
      (bits w[4].toNat 63 32) w[5].toNat (vat s.sets (bits w[1].toNat 28 24) ClSet.reset) with | n => n == 0) = true ∧
    answers (.create w) s 0 (fun t => t.pool == [0xB000] && vdevP t 5 fun d => d.s2root == 0xA000 && d.weight == 9) = true := by decide +kernel

/-- O48: resets of a course, a truss and a device, of engines, of columns and of a link. -/
theorem test_witness_resets :
    let s := dev
    begins (.resetCourse (args [0, 0])) s (fun t => courseP t (fun k => k.cstate == .killed) && t.kills.map (·.scope) == [.course c0]) = true ∧
    answers (.resetCourse (args [0, 2 ^ 9])) s 0 (fun t => t.kills.isEmpty) = true ∧
    begins (.resetTruss (args [0, 0])) s (fun t => t.kills.map (·.scope) == [.truss 0]) = true ∧
    begins (.resetVirtualDevice (args [0, 0])) s (fun t => t.kills.map (·.scope) == [.device 0 false] && vdevP t 0 fun d => d.mode == 4) = true ∧
    answers (.resetVirtualDevice (args [0, 0])) { s with trusses := [], launches := [], vds := [(0, { placedDevice with vecs := 9, s1root := 0x80000 })] } 0
      (fun t => vdevP t 0 fun d => d.vecs == 0 && d.s1root == 0 && d.gen == placedDevice.gen + 1) = true ∧
    answers (.resetEngine (args [0, 2 * 2 ^ 8 + 191])) s 0 (fun t => (t.core 191).matBusy == none) = true ∧
    answers (.resetEngine (args [0, 0])) ((s).modCore 0 fun c => { c with strkz := 3, fenced := 1 }) 0 (fun t => (t.core 0).strkz == 0 && (t.core 0).mtint == 65536 && (t.core 0).fenced == 0) = true ∧
    begins (.resetSliceColumn (args [0, 15])) s (fun t => t.folds == [⟨15, false, true, false, true, none, [], 0⟩]) = true ∧
    begins (.columnOff (args [15])) s (fun t => t.folds == [⟨15, false, false, false, true, none, [], 0⟩]) = true ∧
    answers (.columnOff (args [3])) { s with columns := 0xF } 3 (fun t => t.columns == 0xF) = true ∧
    begins (.columnOn (args [4])) { s with columns := 0xF } (fun t => t.columns == 0x1F) = true ∧
    answers (.resetOpticalLink (args [0, 7])) { s with links := s.links.set (7 : Fin 16) { Link.reset with st := .quiet, retrains := 3 } } 0 (fun t => (t.link 7).st == .training && (t.link 7).retrains == 0) = true := by decide +kernel

/-- O49: a bring-up in which every step passes. -/
theorem test_witness_bringUp : bootStops .good = none ∧ BringUp.good.fields.pool = some (Config.poolBase, Config.poolEnd) := by
  have hf : fwOk .good = true := by
    simp only [fwOk, imageOk, BringUp.good, FlashImage.good, romKey, beq_self_eq_true, Bool.and_true, Bool.true_and]; rfl
  have hi : imageOk BringUp.good.cfg 2 BringUp.good.cfgKey = true := by
    simp only [imageOk, BringUp.good, FlashImage.good, beq_self_eq_true, Bool.and_true]; rfl
  have hg : fieldsOk BringUp.good.fields = true := by simp only [BringUp.good]; decide
  have hc : cfgOk .good = true := by simp only [cfgOk, hf, hi, hg, Bool.and_true]
  refine ⟨?_, rfl⟩
  simp [bootStops, stepFails, hf, hc]; decide

/-- O49: registers of the pages, bring-up and power. -/
theorem test_witness_registersAndPower :
    let s := mapped
    gives (exec (.s1rootWrite 0 0xFFFFFFFFFF000) s) (fun t => vdevP t 0 (fun d => d.s1root == 0xFFFFFFFFFF000 && d.gen == 1) && t.tlbs.all fun e => e.space != 0) = true ∧
    [7, 12].all (fun n => gives (exec (.fltbaseWrite 0 (BitVec.ofNat 64 (0x5000 + n))) s) fun t => vdevP t 0 fun d => d.fltbase == BitVec.ofNat 64 (0x5000 + n)) = true ∧
    [(Instr.fltresReplay 0 0x123000, Phase.untranslated), (.fltresAbort 0 (BitVec.ofNat 64 (2 ^ 63 + 0x123000)), .failed 0x13 0)].all (fun e =>
      gives (exec e.1 (dev fun k => { k with fetch := .wait1 0x123FF8 })) fun t => courseP t fun k => k.fetch == e.2) = true ∧
    [(999, 700), (1000, 1000), (2800, 2800), (2801, 700)].all (fun e => gives (exec (.pwrlimWrite (BitVec.ofNat 64 e.1)) { s with pwrlim := 700 }) fun t => t.pwrlim == BitVec.ofNat 64 e.2) = true ∧
    gives (exec (.registerWrite .health 0x28 9) s) (fun t => t.cecthr == 9) = true ∧ gives (exec (.registerWrite .boot 0x78 9) s) (fun t => t.nonce[(7 : Fin 8)] == 9) = true ∧
    gives (exec (.registerWrite .mailbox 0x38 9) s) (fun t => t.mbcmd[(7 : Fin 8)] == 9) = true ∧ gives (exec (.registerWrite (.control 0) 0x20 9) s) (fun t => vdevP t 0 fun d => d.flthead == 9) = true ∧
    [(HostPage.health, 0x28), (.health, 0x58), (.boot, 0x78), (.mailbox, 0x38), (.fabric, 0x58), (.control 0, 0x20)].all (fun e =>
      gives (exec (.registerWrite e.1 e.2 9) s) fun t => registerRead t e.1 e.2 == some 9) = true ∧
    [(HostPage.mailbox, 0x40), (.fabric, 0x60), (.boot, 8), (.control 0, 0x28)].all (fun e => registerRead s e.1 e.2 == some 0) = true ∧
    gives (exec (.powerOn .good) State.reset) (fun t => t.power == .booting && t.bootStep == 3 && t.boot.isSome) = true ∧
    (stepFails .good 3).isNone = true ∧ (bootAdvance { State.reset with power := .booting, bootStep := 3, boot := some .good }).bootStep = 4 ∧
    (let b : BringUp := { BringUp.good with pufOk := false }
     bootStops b == some (3, 1, 0) && let u := s.bringUp b
       u.power == .failed && u.bootStep == 3 && u.bootCode == 1 && u.bootDetail == 0) = true ∧
    gives (exec (.bootctlRetry .good) { State.reset with power := .failed, bootCode := 5 }) (fun t => t.power == .booting) = true ∧
    gives (exec .bootctlAttest s) (fun t => t.attstat == BitVec.ofNat 64 (2 ^ 63) && t.discards == 0) = true ∧
    (let busy : State := { s with attstat := BitVec.ofNat 64 (2 ^ 63) }
     gives (exec .bootctlAttest busy) (fun t => t.discards == 1) && (attestStep busy).attstat == 1 && (attestStep busy).hostWait.length == 1 &&
       (attestStep { busy with hostUp := true }).hostOut.length == 1) = true ∧
    gives (exec (.powerThrottle true) { s with pwrnow := 3000 }) (fun t => t.throttled) = true ∧
    gives (exec .thermalTrip { s with power := .failed, bootCode := 5 }) (fun t => t.power == .failed && t.bootCode == 7) = true ∧
    gives (exec .thermalTrip s) (fun t => t.power == .failed && t.bootCode == 7) = true ∧ gives (exec .modulePowerOff s) (fun t => t.power == .off && t.trusses.isEmpty) = true := by decide +kernel

/-- Words 1 to 8 of a fabric-page command, and its word 0. -/
def fargs (w0 : Nat) (ws : List Nat) : Vector W64 12 := Vector.ofFn fun i => BitVec.ofNat 64 ((w0 :: ws)[i.val]?.getD 0)
def fabs (i : Instr) (s : State) (st : BitVec 16) (p : State → Bool) : Bool :=
  s.power == .ready && s.fbBusy.isNone && gives (exec i s) fun t => t.fbBusy.isNone && t.fbStatus == st && t.hostOut.getLast? == some (.msix 0 0) && p t
def withLink (l : Link) : State := { dev with links := (dev).links.set (7 : Fin 16) l }
def linkP (o : Host.Outcome State Fault Refusal) (p : Link → Bool) : Bool := gives o fun t => p (t.link 7)
def upLink : Link := { Link.reset with st := .up, rxmask := 0xFF, txmask := 0xFF, lit := 0xFF }

/-- O50: commands of the fabric page. -/
theorem test_witness_fabricPage :
    let s := dev
    fabs (.route (fargs 0 [127, 0x8001])) s 0 (fun t => t.routes[(127 : Fin 128)] == 0x8001) = true ∧
    fabs (.epset (fargs 0 [4095, 0xFFFF])) s 0 (fun t => tget 0 t.endpoints 4095 == 0xFFFF) = true ∧
    fabs (.gset (fargs (0xFFF * 2 ^ 16) [2 ^ 63 + 2 * 2 ^ 47 + 1, 0x3000, 0x00010000])) s 0 (fun t => grpV (t.group 0xFFF) && grpPeers (t.group 0xFFF) == 2) = true ∧
    fabs (.gset (fargs 0 [2 ^ 63 + 2 ^ 47 + 1, 0x3000])) s 1 (fun t => t.groups.isEmpty) = true ∧
    fabs (.gclr (fargs 0 [])) { s with groups := [(0, #v[BitVec.ofNat 64 (2 ^ 63), 0, 0, 0, 0, 0, 0, 0])] } 0 (fun t => !grpV (t.group 0)) = true ∧
    linkP (exec (.quiesce (fargs 0 [0x80])) (withLink upLink)) (fun l => l.quiescing == some 16 && l.drainSent && l.st == .up) = true ∧
    fabs (.quiesce (fargs 0 [0x80])) (withLink Link.reset) 0 (fun t => (t.link 7).st == .down) = true ∧
    [LinkSt.training].all (fun y => fabs (.quiesce (fargs 0 [0x80])) (withLink { upLink with st := y }) 4 fun _ => true) = true ∧
    linkP (exec (.relock (fargs 0 [0x80])) (withLink { upLink with st := .quiet, allow := 5 })) (fun l => l.st == .training && l.phase == 1 && l.allow == 5) = true ∧
    fabs (.relock (fargs 0 [0x80])) (withLink upLink) 4 (fun _ => true) = true := by decide +kernel

/-- O51: accesses of the host to device memory. -/
theorem test_witness_hostAccesses :
    gives (exec (.hostMemoryWrite none (2 ^ 52 - 8) bytes8) (dev)) (fun t => readBytes t.mem (2 ^ 52 - 8) 8 == bytes8) = true ∧
    (match exec (.hostMemoryWrite none (2 ^ 52 - 7) bytes8) (dev) with | .fault .noSuchAddress => true | _ => false) = true ∧
    (match (mapped).hostPlace (some 0) 0x1000 with | some (pa, h, _) => pa == 0x1000 && !h | none => false) = true ∧
    gives (exec (.hostAtomicop 0 0x7000 .add .b64 5 0) mapped) (fun t => readNat t.mem 0x7000 8 == 5 && t.hostOut.getLast? == some (.atomicOld 0)) = true := by decide +kernel

/-- A flit that carries no transfer. -/
def flitOf (ty : FlitTy) : Flit :=
  { seq := 0, ackSeq := 0, av := false, nak := false, ty := ty, allow := 0, dstEp := 0, srcEp := 0x200, fst := true, lst := true, hop := 0, rs := false, resv := false,
    mask := 0, ofTx := false, par := none, desc := none, data := [], poison := [], xid := 0, off := 0, wl := 0xFF, beat := 0 }

/-- O52: a link's training, phase by phase. -/
theorem test_witness_training :
    let tr := fun (p : Nat) => withLink { upLink with st := .training, phase := p, restarts := 2 }
    linkP (exec (.lightDetect 7 0x303) (withLink Link.reset)) (fun l => l.st == .training && l.phase == 2 && l.lit == 0x303) = true ∧
    linkP (exec (.lightDetect 7 3) (withLink Link.reset)) (fun l => l.st == .down && l.lit == 3) = true ∧
    linkP (exec (.wavelengthLock 7 0x81) (tr 2)) (fun l => l.phase == 3 && l.rxmask == 0x81) = true ∧
    linkP (exec (.wavelengthLock 7 0xFF) (tr 4)) (fun l => l.phase == 5 && l.sent.map (·.ty) == [.ctrl]) = true ∧
    linkP (exec (.ctrlFlitReceive 7 { flitOf .ctrl with par := some ⟨1, 7, 1, 0xFF, 0x3⟩ }) (tr 5)) (fun l => l.phase == 6 && l.txmask == 3) = true ∧
    linkP (exec (.ctrlFlitReceive 7 { flitOf .ctrl with allow := 9, seq := 4 }) (tr 6)) (fun l => l.st == .up && l.allow == 9 && l.rxSeq == 4) = true ∧
    [2, 3, 6].all (fun p => linkP (exec (.trainingPhaseTimeout 7) (tr p)) fun l => l.phase == 1 && l.restarts == 3) = true ∧
    linkP (exec (.linkRetryTimer 7) (withLink { Link.reset with restarts := 3 })) (fun l => l.st == .down && l.phase == 1 && l.restarts == 0) = true ∧
    linkP (exec (.quiesceTimeout 7) (withLink { upLink with quiescing := some 16 })) (fun l => l.st == .down) = true := by decide +kernel

/-- The beats of the case of R429, and the length of a flit on the light (R420). -/
theorem test_beats : [0, 4, 11, 12, 34, 35].map (beatWavelength 0xFF0F) = [0, 8, 15, 0, 14, 15] ∧ (flitHeader (flitOf .data)).length = 2 ∧
    (flitPayload (flitOf .data)).length = 256 := by decide +kernel

/-- O53: flits on a link that is UP. -/
theorem test_witness_flits :
    let s := withLink upLink
    let put := { mkTransfer .put 0x200 0 5 with addr := 0x3000, len := 8 }
    gives (exec (.flitReceive 7 unharmed { flitOf .data with desc := some put, data := bytes8, xid := 5 }) s) (fun t => (t.link 7).rxSeq == 1 && t.inbound.map (fun i => i.x.data) == [bytes8]) = true ∧
    [{ flitOf .data with seq := 1 }, { flitOf .data with wl := 3 }].all (fun f => linkP (exec (.flitReceive 7 unharmed f) s) fun l => l.naking && l.sent.map (·.nak) == [true] && l.rxSeq == 0) = true ∧
    [FlitTy.data, .idle, .ctrl].all (fun y => linkP (exec (.flitReceive 7 ⟨false, []⟩ (flitOf y)) s) fun l => l.sent.map (·.nak) == [true]) = true ∧
    linkP (exec (.drainFlitReceive 7 (flitOf .drain)) s) (fun l => l.drainGot && l.drainSent && l.quiescing == some 16) = true ∧
    linkP (exec (.ackTimer 7) (withLink { upLink with unacked := 1 })) (fun l => l.unacked == 0 && l.sent.map (·.ty) == [.idle]) = true ∧
    [0, 9].all (fun a => linkP (exec (.resendTimeout 7) (withLink { upLink with allow := a, cursor := 1, replay := [⟨flitOf .data, false⟩] })) fun l =>
      l.resends == (if a == 0 then 0 else 1) && l.sent.length == l.resends) = true ∧
    linkP (exec (.resendLimit 7) (withLink { upLink with resends := 16, retrains := 255 })) (fun l => l.st == .training && l.phase == 2 && l.retrains == 255) = true ∧
    linkP (exec (.lossOfLight 7 0x81 false) s) (fun l => l.rxmask == 0x7E && l.st == .up) = true ∧
    linkP (exec (.laserRelight 7 0x100) s) (fun l => l.lit == 0x1FF && l.rxmask == 0xFF) = true ∧
    linkP (exec (.laserRelight 7 0x100) (withLink { upLink with allow := 9 })) (fun l => l.txSeq == 1 && l.sent.map (·.mask) == [0x1FF]) = true := by decide +kernel

/-- O54: transfers at their destination. -/
theorem test_witness_transfersServed :
    let s := mapped
    let x := fun (k : XKind) => { mkTransfer k 1 0 5 with addr := 0x3000, len := 8 }
    gives (exec (.put { x .put with data := bytes8 }) s) (fun t => readBytes t.mem 0x3000 8 == bytes8 && t.inbound.map (fun i => (i.x.kind, i.x.st)) == [(.done, 0)]) = true ∧
    gives (exec (.put { x .put with dstEp := 7, data := bytes8 }) s) (fun t => t.inbound.map (fun i => i.x.st) == [2]) = true ∧
    gives (exec (.getreq (x .getReq)) s) (fun t => t.inbound.map (fun i => (i.x.kind, i.x.data.length)) == [(.getData, 8)]) = true ∧
    gives (exec (.getdata { x .getData with data := bytes8 }) { s with outgoing := [⟨5, .getReq, 0, 0, 7, 1, 0x3000, 8, false, none⟩] }) (fun t =>
      readBytes t.mem 0x3000 8 == bytes8 && t.outgoing.isEmpty) = true ∧
    gives (exec (.msg { x .msg with data := bytes8 }) s) (fun t => vdevP t 0 (fun d => d.umsgs.map (·.data) == [bytes8]) && t.inbound.map (fun i => i.x.kind) == [.done]) = true ∧
    (let g : Vector W64 8 := #v[BitVec.ofNat 64 (2 ^ 63 + 2 ^ 52 + 2 * 2 ^ 47 + 1), 0x3000, 0x00010000, 0, 0, 0, 0, 0]
     let s : State := { s with groups := [(0, g)], vds := s.vds ++ [(1, placedDevice)] }
     gives (exec (.contrib { x .contrib with addr := 0, cn := 1, data := bytes8 }) s) (fun t => t.contribs.map (fun c => (c.peer, c.elems.length)) == [(1, 2)]) &&
     gives (exec (.lreq { x .lReq with addr := 0 }) s) fun t => t.inbound.map (fun i => (i.x.kind, i.x.data.length)) == [(.lData, 8)]) = true ∧
    (let e := { entry (.fput 1 0 0 8) with begun := true }
     let s : State := { dev (fun k => k) (fun t => { t with netQ := [e] }) with outgoing := [⟨5, .put, 0, 0, 7, 1, 0, 8, false, none⟩] }
     [Instr.done { mkTransfer .done 1 0 5 with st := 0 }, .absent (mkTransfer .absent 1 0 5)].all fun i => gives (exec i s) fun t => t.outgoing.isEmpty && trussP t fun u => u.netQ.isEmpty) = true := by
  decide +kernel

/-- O57, O59, O60: a word that the device comes to by itself; the form of memory and the pace of the clocks after it. -/
theorem test_witness_steps :
    let s := State.reset.withFetchWord 64 0x001E0282_02400F00
    (s.agenda == [none] && s.power == .ready && !s.throttled && Memory.wf s.mem && Memory.wf s.hostMem && decide (s.clk * 2 / 3 ≤ s.ioClk) &&
      ({ s with agenda := [] } : State).picks.length == 1 && gives (step s) fun t => Memory.wf t.mem) = true ∧
    ({ State.reset with power := .ready, vds := [(0, { placedDevice with shares := Vector.replicate 10 3 })] } : State).moves.length = 1 ∧
    gives (step (State.reset.withFetchWord 64 0)) (fun t => t.trusses.any fun u => u.courses.any fun k => k.frames.length == 1) = true ∧
    gives (step { s with agenda := [some (.debugRequest c0)] }) (fun t => courseP t (·.debugPend)) = true ∧
    gives (step { s with agenda := [some .nop] }) (fun t => t.agenda == []) = true := by decide +kernel

end Sys2Proof.Tests
end

section
/-!
PROOFS. The integer, logic, shift, bit, selection and move words, and the words with a predicate result, complete (06 R121, R122,
R126 to R133).
-/
namespace Sys2Proof.Machine

/-! ### Words by the form of their result -/

section Completion
variable {s : State} {x : Ctx} {i : Instr} (h : Issues s x i) (hp : positionsOf i = 1)
include h hp

/-- A word that computes at its type's width completes with the results `y` when its integers are reduced to them. -/
theorem intWord_completes {gd : Guard} {t : NumTy} {regs : Nat} {d : Reg} {f : Ctx → Nat → Int} {y : Nat → W64} (hr : t.regs = regs)
    (hd : d.opnd regs ∈ i.body.dst) (hy : ∀ l, t.result (f x l) = y l) :
    Completes x (issueCourse i s fun x => x.intWord gd t d (f x)) regs d (x.r.execFor gd d) y := by
  have hregs : regs = 1 ∨ regs = 2 := by rw [← hr, NumTy.regs]; split <;> simp
  rw [← funext hy]
  have := lanewise_completes h hp gd (intClass d) regs d (fun x l => t.result (f x l)) hregs hd
  subst hr
  exact this

/-- A word on bit patterns is a word on the integers that they are. -/
theorem patWord_completes {gd : Guard} {t : BTy} {d : Reg} {f : Ctx → Nat → Nat} {y : Nat → W64} (hd : d.opnd t.regs ∈ i.body.dst)
    (hy : ∀ l, (numB t).result (f x l : Int) = y l) :
    Completes x (issueCourse i s fun x => x.patWord gd (numB t) d (f x)) t.regs d (x.r.execFor gd d) y :=
  intWord_completes h hp (by cases t <;> rfl) hd hy

/-- A word at the width of its destination completes with the results `y` when they agree with its integers at that width: a
v register holds no more of them (R132). -/
theorem intWord_immWidth_completes {gd : Guard} {d : Reg} {f : Ctx → Nat → Int} {y : Nat → W64} (hd : d.opnd 1 ∈ i.body.dst)
    (hy : ∀ l, BitVec.ofInt (immWidth d) (f x l) = (y l).truncate (immWidth d)) :
    Completes x (issueCourse i s fun x => x.intWord gd ⟨immWidth d, true⟩ d (f x)) 1 d (x.r.execFor gd d) y := by
  cases d with
  | v n =>
    obtain ⟨k', hk, hf, hl, hdone⟩ := intWord_completes h hp (gd := gd) (t := ⟨32, true⟩) (f := f) rfl hd fun _ => rfl
    refine ⟨k', hk, hf, hl.congr (fun _ _ l => ⟨?_, fun e => absurd e (by decide)⟩) nofun, hdone⟩
    rw [result32]
    exact hy l
  | g n =>
    refine intWord_completes h hp (t := ⟨64, true⟩) (regs := 2) (d := .g n) rfl hd fun l => ?_
    rw [result64]
    exact (hy l).trans (BitVec.setWidth_eq _)

/-- A word with a predicate result completes with the bits `y`. -/
theorem predWord_completes {gd : Guard} {L : Nat} {d : PDst} {f : Ctx → Nat → Bool} {y : Nat → Bool} (hy : ∀ l, f x l = y l) :
    ∃ k', SameButRegs x.k k' ∧ k'.flagShadows = x.k.flagShadows ∧ KeepsP x.k k' d (x.r.exec gd) ∧
      (∀ l, (x.r.exec gd).getLsbD l = true → LandsP x.k k' d l (y l)) ∧
      Done x (issueCourse i s fun x => x.predWord L (x.r.exec gd) d (f x)) k' 1 (x.k.pc + 8) := by
  obtain ⟨hk, hf, hkeep, hland⟩ := landAll_pred x.k x.s.tick L d (x.r.exec gd) (f x)
  rw [← funext hy]
  refine ⟨_, hk, hf, hkeep, hland, ?_⟩
  have hpc : (x.predWord L (x.r.exec gd) d (f x)).pc = x.k.pc := (congrArg Course.pc hk.2 :)
  have hdone := done_set h.1 (x.predWord L (x.r.exec gd) d (f x)) i none
  rw [hp] at hdone
  rw [issueCourse, issue_ok h (body := fun x => x.ok (x.predWord L (x.r.exec gd) d (f x))) rfl, ← hpc]
  exact hdone

end Completion

/-! ### Results lane by lane -/

theorem numI_regs (t : IntTy) : (numI t).regs = t.regs := by cases t <;> rfl
theorem numS_regs (t : STy) : (numS t).regs = t.regs := by cases t <;> rfl
theorem numW_regs (t : WTy) : (numW t).regs = t.regs := by cases t <;> rfl
theorem numSar_regs (t : SarTy) : (numSar t).regs = t.regs := by cases t <;> rfl

theorem ofInt_mul_two_pow (w n : Nat) (z : Int) : BitVec.ofInt w (z * ((2 ^ n : Nat) : Int)) = BitVec.ofInt w z <<< n := by
  rw [BitVec.ofInt_mul, BitVec.ofInt_natCast, BitVec.shiftLeft_eq_mul_twoPow]
  exact congrArg (BitVec.ofInt w z * ·) (BitVec.eq_of_toNat_eq (by rw [BitVec.toNat_ofNat, BitVec.toNat_twoPow]))

/-- The sum of `madw` and `lea` is the sum of words (R127). -/
theorem result64_add (a b : Int) : NumTy.result ⟨64, true⟩ (a + b) = BitVec.ofInt 64 a + BitVec.ofInt 64 b := by
  rw [result64, BitVec.ofInt_add]

/-- A choice between two patterns is the choice between the words (R131). -/
theorem r_sel (k : Course) (t : BTy) (a b : Reg) (l : Nat) (c inv : Bool) :
    (numB t).result ((if c != inv then k.pat (numB t) a l else k.pat (numB t) b l : Nat) : Int) =
      if c = !inv then k.src t.regs a l else k.src t.regs b l := by
  cases c <;> cases inv <;> exact r_pat ..

/-! ### I-form sources and immediates -/

theorem immSrc_width (k : Course) (d a : Reg) (l : Nat) : k.immSrc (immWidth d) a l = ((k.wide a l).truncate (immWidth d)).toInt := by
  cases d with
  | v n => exact (immSrc_32 k a l).trans (congrArg BitVec.toInt (trunc_wide k a l).symm)
  | g n => exact (immSrc_64 k a l).trans (congrArg BitVec.toInt (BitVec.setWidth_eq _).symm)

theorem trunc_sext_width {n : Nat} (d : Reg) (y : BitVec n) : (y.signExtend 64).truncate (immWidth d) = y.signExtend (immWidth d) := by
  cases d with
  | v _ => exact trunc_sext y
  | g _ => exact BitVec.setWidth_eq _

/-- A bitwise word at the width of its destination agrees there with the operation on 64-bit words, when the operation on words does
what it does on their numbers and commutes with truncation. -/
theorem ofInt_bitwise_immSrc (f : Nat → Nat → Nat) (g : ∀ {w : Nat}, BitVec w → BitVec w → BitVec w)
    (hf : ∀ {w : Nat} (u v : BitVec w), (g u v).toNat = f u.toNat v.toNat)
    (hg : ∀ (w : Nat) (u v : W64), (g u v).truncate w = g (u.truncate w) (v.truncate w))
    (k : Course) (d a : Reg) {n : Nat} (y : BitVec n) (l : Nat) :
    BitVec.ofInt (immWidth d) (bitwise (immWidth d) f (k.immSrc (immWidth d) a l) y.toInt) =
      (g (k.wide a l) (y.signExtend 64)).truncate (immWidth d) := by
  rw [immSrc_width, bitwise_ofInt, hg, trunc_sext_width, ← hf, BitVec.ofNat_toNat, BitVec.setWidth_eq]

theorem ofInt_add_imm {w n : Nat} (u : BitVec w) (y : BitVec n) : BitVec.ofInt w (u.toInt + y.toInt) = u + y.signExtend w := by
  rw [BitVec.ofInt_add, BitVec.ofInt_toInt, ofInt_imm]

theorem ofInt_mul_imm {w n : Nat} (u : BitVec w) (y : BitVec n) : BitVec.ofInt w (u.toInt * y.toInt) = u * y.signExtend w := by
  rw [BitVec.ofInt_mul, BitVec.ofInt_toInt, ofInt_imm]

theorem ofInt_lea_imm {w n : Nat} (u : BitVec w) (y : BitVec n) (sh : Nat) :
    BitVec.ofInt w (u.toInt + y.toInt * ((2 ^ sh : Nat) : Int)) = u + y.signExtend w <<< sh := by
  rw [BitVec.ofInt_add, BitVec.ofInt_toInt, ofInt_mul_two_pow, ofInt_imm]

/-! ### Compares of `cmpi` -/

theorem value_wrap_signed (w : Nat) (z : Int) : NumTy.value ⟨w, true⟩ (wrap w z) = (BitVec.ofInt w z).toInt := by
  have hlt := (BitVec.ofInt w z).isLt
  rw [wrap_toNat, BitVec.toInt_eq_msb_cond, BitVec.msb_eq_getLsbD_last]
  simp only [NumTy.value, if_true, signed, Nat.mod_eq_of_lt hlt, BitVec.getLsbD]

theorem value_wrap_unsigned (w : Nat) (z : Int) : NumTy.value ⟨w, false⟩ (wrap w z) = ((BitVec.ofInt w z).toNat : Int) := by
  rw [wrap_toNat]
  simp only [NumTy.value, Bool.false_eq_true, if_false, Nat.mod_eq_of_lt (BitVec.ofInt w z).isLt]

/-- A side of `cmpi` at the width of its source is the side on 64-bit words that agree with it at that width (R133). -/
theorem value_wrap_cmpiSide (a : Reg) (uns : Bool) (z : Int) (y : W64) (hy : BitVec.ofInt (immWidth a) z = y.truncate (immWidth a)) :
    NumTy.value ⟨immWidth a, !uns⟩ (wrap (immWidth a) z) = cmpiSide a uns y := by
  cases uns
  · rw [Bool.not_false, value_wrap_signed, hy]
    cases a with
    | v _ => rfl
    | g _ => exact congrArg BitVec.toInt (BitVec.setWidth_eq y)
  · rw [Bool.not_true, value_wrap_unsigned, hy]
    cases a with
    | v _ => rfl
    | g _ => exact congrArg (fun u : W64 => (u.toNat : Int)) (BitVec.setWidth_eq y)

theorem cmpiHolds_eq (k : Course) (cc : Cond) (uns : Bool) (a : Reg) (imm : BitVec 30) (l : Nat) :
    cmpiHolds k cc uns a imm l = condHolds cc (cmpiSide a uns (k.wide a l)) (cmpiSide a uns (imm.signExtend 64)) := by
  have hsrc : BitVec.ofInt (immWidth a) (k.immSrc (immWidth a) a l) = (k.wide a l).truncate (immWidth a) := by
    rw [immSrc_width, BitVec.ofInt_toInt]
  rw [cmpiHolds, value_wrap_cmpiSide a uns _ _ hsrc, value_wrap_cmpiSide a uns _ _ (trunc_sext_width a imm).symm]

/-! ### The words -/

/-- Every word that `intWord` gives a result completes with it. -/
theorem regWord_completes {i : Instr} {w : RegWord} {s : State} {x : Ctx} (hw : intWord i = some w) (h : Issues s x i) :
    ∃ t, exec i s = .next t ∧ Completes x t w.regs w.d (x.r.execFor w.gd w.d) (w.val x.r) := by
  cases i with
  | add gd t sat d a b | sub gd t sat d a b => cases hw; exact ⟨_, rfl, intWord_completes h rfl (numI_regs t) (.head _) fun _ => rfl⟩
  | mul gd t d a b | mad gd t d a b c | min gd t d a b | max gd t d a b =>
    cases hw; exact ⟨_, rfl, intWord_completes h rfl (numI_regs t) (.head _) fun _ => rfl⟩
  | mulh gd t d a b =>
    cases hw; exact ⟨_, rfl, intWord_completes h rfl (numI_regs t) (.head _) fun _ => by rw [Nat.cast_pow, Nat.cast_ofNat]⟩
  | madw gd t d a b c =>
    cases hw
    exact ⟨_, rfl, intWord_completes h rfl rfl (.head _) fun _ => by rw [result64_add, ofInt_src64]⟩
  | abs gd t sat d a =>
    cases hw; exact ⟨_, rfl, intWord_completes h rfl (numS_regs t) (.head _) fun _ => by rw [Int.natCast_natAbs]⟩
  | neg gd t sat d a => cases hw; exact ⟨_, rfl, intWord_completes h rfl (numS_regs t) (.head _) fun _ => rfl⟩
  | lea gd t d a b sh =>
    cases hw
    exact ⟨_, rfl, intWord_completes h rfl rfl (.head _) fun _ => by rw [result64_add, ofInt_src64, ofInt_mul_two_pow]⟩
  | and gd t d a b => cases hw; exact ⟨_, rfl, patWord_completes h rfl (.head _) (r_and x.r t a b)⟩
  | or gd t d a b => cases hw; exact ⟨_, rfl, patWord_completes h rfl (.head _) (r_or x.r t a b)⟩
  | xor gd t d a b => cases hw; exact ⟨_, rfl, patWord_completes h rfl (.head _) (r_xor x.r t a b)⟩
  | andn gd t d a b => cases hw; exact ⟨_, rfl, patWord_completes h rfl (.head _) (r_andn x.r t a b)⟩
  | not gd t d a => cases hw; exact ⟨_, rfl, patWord_completes h rfl (.head _) (r_not x.r t a)⟩
  | shl gd t d a b => cases hw; exact ⟨_, rfl, patWord_completes h rfl (.head _) fun l => r_shl x.r t a l _⟩
  | shr gd t d a b => cases hw; exact ⟨_, rfl, patWord_completes h rfl (.head _) fun l => r_shr x.r t a l _⟩
  | sar gd t d a b =>
    cases hw; exact ⟨_, rfl, intWord_completes h rfl (numSar_regs t) (.head _) fun _ => by rw [Nat.cast_pow, Nat.cast_ofNat]; rfl⟩
  | rot gd t d a b =>
    cases hw
    exact ⟨_, rfl, patWord_completes h rfl (.head _) fun l => r_rot x.r t a l _ (Nat.mod_lt _ (by cases t <;> decide))⟩
  | bfe gd t d a b =>
    cases hw
    refine ⟨_, rfl, intWord_completes h rfl (numW_regs t) (.head _) fun l => congrArg (numW t).result ?_⟩
    exact (field_eq (numW t).w (x.r.src32 b l)) ▸ r_bfe x.r t a l _ _ (bitField_le _ (x.r.src32 b l))
  | bfi gd t d a b c =>
    cases hw
    refine ⟨_, rfl, patWord_completes h rfl (.head _) fun l => ?_⟩
    exact (field_eq (numB t).w (x.r.src32 b l)) ▸ r_bfi x.r t a c l _ _ (bitField_le _ (x.r.src32 b l))
  | pop gd t d a => cases hw; exact ⟨_, rfl, patWord_completes h rfl (.head _) (r_pop x.r t a)⟩
  | clz gd t d a => cases hw; exact ⟨_, rfl, patWord_completes h rfl (.head _) (r_clz x.r t a)⟩
  | brev gd t d a => cases hw; exact ⟨_, rfl, patWord_completes h rfl (.head _) (r_brev x.r t a)⟩
  | sel gd t d a b p inv => cases hw; exact ⟨_, rfl, patWord_completes h rfl (.head _) fun l => r_sel x.r t a b l _ inv⟩
  | mov gd t d a => cases hw; exact ⟨_, rfl, patWord_completes h rfl (.head _) (r_pat x.r t a)⟩
  | addi gd d a imm =>
    cases hw
    refine ⟨_, rfl, immWord_completes h rfl gd d a _ _ (.head _) (fun k l => ?_) fun k l => ofInt_add_imm _ imm⟩
    rw [ofInt_add_imm, ← trunc_wide, ← trunc_sext]
    exact (BitVec.setWidth_add _ _ (by decide)).symm
  | muli gd d a imm =>
    cases hw
    refine ⟨_, rfl, immWord_completes h rfl gd d a _ _ (.head _) (fun k l => ?_) fun k l => ofInt_mul_imm _ imm⟩
    rw [ofInt_mul_imm, ← trunc_wide, ← trunc_sext]
    exact (BitVec.setWidth_mul _ _ (by decide)).symm
  | leai gd d a off sh =>
    cases hw
    refine ⟨_, rfl, immWord_completes h rfl gd d a _ _ (.head _) (fun k l => ?_) fun k l => ofInt_lea_imm _ off _⟩
    rw [ofInt_lea_imm, ← trunc_wide, ← trunc_sext, BitVec.truncate_eq_setWidth, BitVec.truncate_eq_setWidth, BitVec.truncate_eq_setWidth,
      BitVec.setWidth_add _ _ (by decide), BitVec.setWidth_shiftLeft_of_le (by decide)]
  | andi gd d a imm =>
    cases hw
    exact ⟨_, rfl, intWord_immWidth_completes h rfl (.head _)
      (ofInt_bitwise_immSrc _ (· &&& ·) BitVec.toNat_and (fun _ _ _ => BitVec.setWidth_and) x.r d a imm)⟩
  | ori gd d a imm =>
    cases hw
    exact ⟨_, rfl, intWord_immWidth_completes h rfl (.head _)
      (ofInt_bitwise_immSrc _ (· ||| ·) BitVec.toNat_or (fun _ _ _ => BitVec.setWidth_or) x.r d a imm)⟩
  | xori gd d a imm =>
    cases hw
    exact ⟨_, rfl, intWord_immWidth_completes h rfl (.head _)
      (ofInt_bitwise_immSrc _ (· ^^^ ·) BitVec.toNat_xor (fun _ _ _ => BitVec.setWidth_xor) x.r d a imm)⟩
  | movi gd d imm => cases hw; exact ⟨_, rfl, intWord_immWidth_completes h rfl (.head _) fun _ => (trunc_sext_width d imm).symm⟩
  | _ => cases hw

/-- Settles O1: the words with a register result by `regWord_completes`, those with a predicate result by their bits. -/
theorem integerAndPredicateWordsComplete : Obligations.IntegerAndPredicateWordsComplete := by
  refine ⟨fun i w s x hw h => regWord_completes hw h, fun i w s x hw h => ?_⟩
  cases i with
  | cmp gd t cc d a b => cases hw; exact ⟨_, rfl, predWord_completes h rfl fun _ => rfl⟩
  | plog gd d a b c tt => cases hw; exact ⟨_, rfl, predWord_completes h rfl fun _ => rfl⟩
  | cmpi gd cc uns d a imm => cases hw; exact ⟨_, rfl, predWord_completes h rfl (cmpiHolds_eq x.r cc uns a imm)⟩
  | _ => cases hw

end Sys2Proof.Machine
end

section
/-!
PROOFS. The simple control words and the trap words complete (08 R161, R166, R167, R168, R170, R171).
-/
namespace Sys2Proof.Machine

/-! ### Words that change their course alone -/

section CourseWords
variable {s : State} {x : Ctx} {i : Instr} (h : Issues s x i) {body : Ctx → Res} {k' : Course}
include h

/-- A word whose effect is a new course at the same pc is done with it, and the next word follows. -/
theorem issue_ok_done (hb : body x = x.ok k') (hpc : k'.pc = x.k.pc) : Done x (issue i s body) k' (positionsOf i) (x.k.pc + 8) := by
  rw [issue_ok h hb, ← hpc]
  exact done_set h.1 k' i none

theorem goes_of_ok (hp : positionsOf i = 1) (he : exec i s = .next (issue i s body)) (hb : body x = x.ok k') (hpc : k'.pc = x.k.pc) :
    Goes s x i k' (x.k.pc + 8) := ⟨_, he, hp ▸ issue_ok_done h hb hpc⟩

/-- A word that transfers to `pc`: the pc of the course it leaves behind does not count. -/
theorem goes_of_jump {k : Course} {pc : Addr} (hp : positionsOf i = 1) (he : exec i s = .next (issue i s body))
    (hb : body x = .jump (x.set k) pc) (hk : { k with pc := pc } = { k' with pc := pc }) : Goes s x i k' pc := by
  have hafter : k.after x.s.clk x.t.core 1 pc = k'.after x.s.clk x.t.core 1 pc :=
    (congrArg (fun c : Course => c.after x.s.clk x.t.core 1 pc) hk :)
  have hdone := done_set h.1 k i (some pc)
  rw [hp] at hdone
  refine ⟨_, he, ?_⟩
  rw [issue_jump h hb]
  unfold Done at hdone ⊢
  rw [← hafter]
  exact hdone

end CourseWords

/-! ### Bits of a word by division -/

theorem getLsbD_of_div_mod {w n : Nat} {x : BitVec w} {b : Bool} (h : x.toNat / 2 ^ n % 2 = b.toNat) : x.getLsbD n = b := by
  rw [BitVec.getLsbD, Nat.testBit_eq_decide_div_mod_eq, h]
  cases b <;> rfl

/-! ### RGSTATE (R113, R166) -/

/-- The sum that RGSTATE records fits its fields: the frames and the divergence stack keep to their capacities. -/
theorem regionState_toNat {k : Course} (hf : k.frames.length ≤ 4) (hd : k.div.length ≤ 32) :
    k.regionState.toNat = 2 ^ 63 + k.frames.length * 2 ^ 38 + k.div.length * 2 ^ 32 + k.lanes.toNat := by
  have := k.lanes.isLt
  rw [Course.regionState, BitVec.toNat_ofNat, Nat.mod_eq_of_lt (by omega)]

theorem regionState_fields {k : Course} (hf : k.frames.length ≤ 4) (hd : k.div.length ≤ 32) :
    k.regionState.getLsbD 63 = true ∧ bits k.regionState.toNat 62 41 = 0 ∧ bits k.regionState.toNat 40 38 = k.frames.length ∧
    bits k.regionState.toNat 37 32 = k.div.length ∧ k.regionState.truncate 32 = k.lanes := by
  have hl := k.lanes.isLt
  have hn := regionState_toNat hf hd
  refine ⟨getLsbD_of_div_mod ?_, ?_, ?_, ?_, BitVec.eq_of_toNat_eq ?_⟩
  · rw [hn, Bool.toNat_true]; omega
  · rw [hn, bits]; omega
  · rw [hn, bits]; omega
  · rw [hn, bits]; omega
  · rw [BitVec.truncate_eq_setWidth, BitVec.toNat_setWidth, hn]
    omega

theorem getLsbD_andNot_bit63 (y : W64) {j : Nat} (hj : j < 64) :
    (y &&& ~~~ BitVec.ofNat 64 (2 ^ 63)).getLsbD j = (y.getLsbD j && !decide (63 = j)) := by
  simp only [BitVec.getLsbD_and, BitVec.getLsbD_not, BitVec.getLsbD_ofNat, Nat.testBit_two_pow, hj, decide_true, Bool.true_and]

/-- `region.end` clears bit 63 and no other. -/
theorem truncate_andNot_bit63 (y : W64) : (y &&& ~~~ BitVec.ofNat 64 (2 ^ 63)).truncate 63 = (y.truncate 63 : BitVec 63) := by
  refine BitVec.eq_of_getLsbD_eq fun j hj => ?_
  have hne : ¬ 63 = j := by omega
  rw [BitVec.truncate_eq_setWidth, BitVec.truncate_eq_setWidth, BitVec.getLsbD_setWidth, BitVec.getLsbD_setWidth,
    getLsbD_andNot_bit63 y (by omega), decide_eq_false hne, Bool.not_false, Bool.and_true]

/-- Settles O6: each word changes its course alone, and `issue_ok_done` says how the course moves on. -/
theorem simpleControlCompletes : Obligations.SimpleControlCompletes := by
  refine ⟨fun s x h => goes_of_ok h rfl rfl rfl rfl, fun n s x h => ?dly, fun s x h => ?yield, fun gd n s x h => ?tmask,
    fun s x h => ?region, fun k hf hd => regionState_fields hf hd, fun s x h => ?regionEnd⟩
  case dly =>
    obtain ⟨rfl, -⟩ := ctx_of h.1
    exact ⟨_, rfl, issue_ok_done h rfl rfl⟩
  case yield =>
    obtain ⟨rfl, -⟩ := ctx_of h.1
    exact goes_of_ok h rfl rfl rfl rfl
  case tmask => exact goes_of_ok h rfl rfl rfl (by split <;> rfl)
  case region =>
    obtain ⟨rfl, -⟩ := ctx_of h.1
    exact goes_of_ok h rfl rfl rfl rfl
  case regionEnd =>
    exact ⟨_, (getLsbD_andNot_bit63 _ (by decide)).trans (Bool.and_false _), truncate_andNot_bit63 _, goes_of_ok h rfl rfl rfl rfl⟩

/-! ### Trap frames (R114) -/

/-- Tokens 4 w to 4 w + 3 lie in word 4 + w of a frame, 16 bits each: the count, and the status from bit 8 on. -/
theorem bits_tokenWord (k : Course) (w : Nat) {r : Nat} (hr : r < 4) :
    bits (k.tokenWord w).toNat (16 * r + 15) (16 * r) =
      (vat k.tok (4 * w + r) ⟨0, 0⟩).count.toNat + 256 * (vat k.tok (4 * w + r) ⟨0, 0⟩).status.toNat := by
  have hc := fun j => (vat k.tok (4 * w + j) ⟨0, 0⟩).count.isLt
  have hs := fun j => (vat k.tok (4 * w + j) ⟨0, 0⟩).status.isLt
  have := hc 0; have := hc 1; have := hc 2; have := hc 3
  have := hs 0; have := hs 1; have := hs 2; have := hs 3
  have hw : (k.tokenWord w).toNat = (List.range 4).foldr (fun j acc => acc * 2 ^ 16 +
      (vat k.tok (4 * w + j) ⟨0, 0⟩).count.toNat + (vat k.tok (4 * w + j) ⟨0, 0⟩).status.toNat * 2 ^ 8) 0 := by
    rw [Course.tokenWord, BitVec.toNat_ofNat]
    refine Nat.mod_eq_of_lt ?_
    simp only [List.range, List.range.loop, List.foldr]
    omega
  rw [hw, bits]
  simp only [List.range, List.range.loop, List.foldr]
  interval_cases r <;> omega

/-- Word 4 + w of the frame that a trap writes holds the tokens from 4 w on. -/
theorem frame_tokenWord (k : Course) (cause detail : Nat) (faddr : W64) (asy : Bool) {w : Nat} (hw : w < 4) :
    vat (k.frame cause detail faddr asy).words (4 + w) 0 = k.tokenWord w := by
  interval_cases w <;> rfl

theorem frame_word1_toNat (k : Course) (cause detail : Nat) (faddr : W64) (asy : Bool) :
    (k.frame cause detail faddr asy).words[1].toNat =
      cause % 256 + detail % 256 * 2 ^ 8 + k.div.length % 64 * 2 ^ 16 + asy.toNat * 2 ^ 23 + k.tm.toNat * 2 ^ 24 := by
  have := Bool.toNat_lt asy
  have := Bool.toNat_lt k.tm
  exact (BitVec.toNat_ofNat ..).trans (Nat.mod_eq_of_lt (by omega))

theorem frame_word3_toNat (k : Course) (cause detail : Nat) (faddr : W64) (asy : Bool) :
    (k.frame cause detail faddr asy).words[3].toNat = k.lanes.toNat + k.tkmask.toNat * 2 ^ 32 := by
  have := k.lanes.isLt
  have := k.tkmask.isLt
  exact (BitVec.toNat_ofNat ..).trans (Nat.mod_eq_of_lt (by omega))

/-- The frame that a trap writes is the one R114 gives. -/
theorem frame_frameOf (k : Course) (cause detail : Nat) (faddr : W64) (asy : Bool) :
    FrameOf k cause detail faddr asy (k.frame cause detail faddr asy) := by
  have ha := Bool.toNat_lt asy
  have ht := Bool.toNat_lt k.tm
  have hl := k.lanes.isLt
  have hk := k.tkmask.isLt
  have h1 := frame_word1_toNat k cause detail faddr asy
  have h3 := frame_word3_toNat k cause detail faddr asy
  refine ⟨rfl, ?_, ?_, ?_, getLsbD_of_div_mod ?_, getLsbD_of_div_mod ?_, getLsbD_of_div_mod ?_, ?_, rfl,
    BitVec.eq_of_toNat_eq ?_, BitVec.eq_of_toNat_eq ?_, BitVec.eq_of_toNat_eq ?_, fun j => ?_⟩
  · rw [h1, bits]; omega
  · rw [h1, bits]; omega
  · rw [h1, bits]; omega
  · rw [h1, Bool.toNat_false]; omega
  · rw [h1]; omega
  · rw [h1]; omega
  · rw [h1, bits]; omega
  · rw [BitVec.truncate_eq_setWidth, BitVec.toNat_setWidth, h3]; omega
  · rw [BitVec.truncate_eq_setWidth, BitVec.toNat_setWidth, BitVec.toNat_ushiftRight, h3, Nat.shiftRight_eq_div_pow]; omega
  · rw [BitVec.toNat_ushiftRight, h3, Nat.shiftRight_eq_div_pow]; exact Nat.div_eq_of_lt (by omega)
  · rw [frame_tokenWord k cause detail faddr asy (by omega), bits_tokenWord k _ (Nat.mod_lt _ (by decide)), Nat.div_add_mod, vat,
      dif_pos j.isLt]
    rfl

/-! ### Entering the handler (R116, R168) -/

theorem modCourse_eq_setCourse {s : State} {c : CRef} {k : Course} (h : s.course? c = some k) (f : Course → Course) :
    s.modCourse c f = s.setCourse c (f k) := by
  have := setCourse_modCourse s c k f
  rwa [setCourse_self h] at this

/-- A trap that can be taken enters the handler. -/
theorem trapEntry_entered {s : State} {x : Ctx} (hx : s.ctx? = some x) (hc : CanTrap x) (cause detail : Nat) (faddr : W64) (asy : Bool) :
    Entered x (trapEntry s x.c cause detail faddr asy) cause detail faddr asy := by
  obtain ⟨rfl, -, ht, hk, -⟩ := ctx_of hx
  obtain ⟨hframes, hhandler⟩ := hc
  have hroom : ¬ Config.trapCap ≤ x.k.frames.length := Nat.not_le.mpr hframes
  refine ⟨_, frame_frameOf x.k cause detail faddr asy, ?_⟩
  unfold trapEntry
  simp only [ht, hk, hroom, hhandler, if_false]
  rw [modCourse_eq_setCourse hk]
  rfl

/-- A word whose effect raises a precise fault enters the handler with it, when a trap can be taken. -/
theorem issue_trap_entered {s : State} {x : Ctx} {i : Instr} {body : Ctx → Res} {cause detail : Nat} {faddr : W64} (h : Issues s x i)
    (hc : CanTrap x) (hb : body x = .trap cause detail faddr) : Entered x (issue i s body) cause detail faddr false := by
  rw [issue_trap h hb]
  exact trapEntry_entered h.1 hc cause detail faddr false

/-! ### Return from the handler (R170) -/

/-- With every check of R170 met, `rett` leaves the handler. -/
theorem rettEffect_leaves {x : Ctx} {f : Frame} {fs : List Frame} (hf : x.k.frames = f :: fs) (hd : f.fdsp ≤ x.k.div.length)
    (hb : ∀ b, x.k.bsync = some b → b.tsp ≠ x.k.frames.length)
    (ht : ∀ j : Fin 16, 12 ≤ j.val → x.k.tok[j].count.toNat ≤ f.tokCount j) (hpc : f.fpc.toNat % 8 = 0) :
    rettEffect x = .jump (x.set x.k.leave) f.fpc := by
  unfold rettEffect
  rw [hf] at hb ⊢
  refine (if_neg (Nat.not_lt.mpr hd)).trans ((if_neg ?sync).trans ((if_neg ?tok).trans (if_neg (not_not.mpr hpc))))
  case sync =>
    split
    · next b hsome => exact fun e => hb b hsome (eq_of_beq e)
    · exact Bool.false_ne_true
  case tok =>
    rw [List.any_eq_true]
    rintro ⟨j, hj, hlt⟩
    obtain ⟨hlo, hhi⟩ := List.mem_range'_1.mp hj
    rw [vat, dif_pos hhi, decide_eq_true_eq] at hlt
    exact Nat.not_lt.mpr (ht ⟨j, hhi⟩ hlo) hlt

theorem leave_eq {k : Course} {f : Frame} {fs : List Frame} (hf : k.frames = f :: fs) :
    k.leave = { k.closeShadows with pc := f.fpc, lanes := f.fmask, div := k.div.drop (k.div.length - f.fdsp), tm := f.stm,
                                    tkmask := f.stk, frames := fs } := by
  unfold Course.leave
  rw [hf]
  rfl

/-- Settles O11: `trap` and `brk` by the guard of the lowest active lane, `rett` by `rettEffect_leaves`. -/
theorem trapWordsComplete : Obligations.TrapWordsComplete := by
  refine ⟨fun gd n s x h hu hc => ⟨_, rfl, issue_trap_entered h hc (if_pos hu)⟩,
    fun gd n s x h hu hc => ⟨_, rfl, issue_trap_entered h hc (if_pos hu)⟩,
    fun gd n s x h hu => goes_of_ok h rfl rfl (if_neg (Bool.eq_false_iff.mp hu)) rfl,
    fun gd n s x h hu => goes_of_ok h rfl rfl (if_neg (Bool.eq_false_iff.mp hu)) rfl,
    fun s x f fs h hf => ?_⟩
  intro fdsp fpc hd hb ht hpc
  refine goes_of_jump h rfl rfl (rettEffect_leaves hf hd hb ht hpc) ?_
  rw [leave_eq hf]
  rfl

end Sys2Proof.Machine
end

section
/-!
PROOFS. Decoding gives back what was encoded (04 R81 to R92): words by form, operand shapes, and one case for each instruction word.
-/
namespace Sys2Proof

/-! ### Codes and fields read back -/

theorem IntTy.ofCode_code (t : IntTy) : IntTy.ofCode t.code = some t := by cases t <;> rfl
theorem STy.ofCode_code (t : STy) : STy.ofCode t.code = some t := by cases t <;> rfl
theorem BTy.ofCode_code (t : BTy) : BTy.ofCode t.code = some t := by cases t <;> rfl
theorem MadwTy.ofCode_code (t : MadwTy) : MadwTy.ofCode t.code = some t := by cases t <;> rfl
theorem SarTy.ofCode_code (t : SarTy) : SarTy.ofCode t.code = some t := by cases t <;> rfl
theorem WTy.ofCode_code (t : WTy) : WTy.ofCode t.code = some t := by cases t <;> rfl
theorem FTy.ofCode_code (t : FTy) : FTy.ofCode t.code = some t := by cases t <;> rfl
theorem HTy.ofCode_code (t : HTy) : HTy.ofCode t.code = some t := by cases t <;> rfl
theorem X2Ty.ofCode_code (t : X2Ty) : X2Ty.ofCode t.code = some t := by cases t <;> rfl
theorem QTy.ofCode_code (t : QTy) : QTy.ofCode t.code = some t := by cases t <;> rfl
theorem Cond.ofCode_code (t : Cond) : Cond.ofCode t.code = some t := by cases t <;> rfl
theorem FCond.ofCode_code (t : FCond) : FCond.ofCode t.code = some t := by cases t <;> rfl
theorem RM.ofCode_code (t : RM) : RM.ofCode t.code = some t := by cases t <;> rfl
theorem NFmt.ofCode_code (t : NFmt) : NFmt.ofCode t.code = some t := by cases t <;> rfl
theorem ScaleFmt.ofCode_code (t : ScaleFmt) : ScaleFmt.ofCode t.code = some t := by cases t <;> rfl
theorem ShflMode.ofCode_code (t : ShflMode) : ShflMode.ofCode t.code = some t := by cases t <;> rfl
theorem Scope.ofCode_code (t : Scope) : Scope.ofCode t.code = some t := by cases t <;> rfl
theorem Sz.ofCode_code (t : Sz) : Sz.ofCode t.code = some t := by cases t <;> rfl
theorem LdcSz.ofCode_code (t : LdcSz) : LdcSz.ofCode t.code = some t := by cases t <;> rfl
theorem ASz.ofCode_code (t : ASz) : ASz.ofCode t.code = some t := by cases t <;> rfl
theorem FenceSem.ofCode_code (t : FenceSem) : FenceSem.ofCode t.code = some t := by cases t <;> rfl
theorem AOp.ofCode_code (t : AOp) : AOp.ofCode t.code = some t := by cases t <;> rfl
theorem LySel.ofCode_code (t : LySel) : LySel.ofCode t.code = some t := by cases t <;> rfl
theorem TplSel.ofCode_code (t : TplSel) : TplSel.ofCode t.code = some t := by cases t <;> rfl
theorem TlbScope.ofCode_code (t : TlbScope) : TlbScope.ofCode t.code = some t := by cases t <;> rfl
theorem PrfLevel.ofCode_code (t : PrfLevel) : PrfLevel.ofCode t.code = some t := by cases t <;> rfl
theorem QSel.ofCode_code (t : QSel) : QSel.ofCode t.code = some t := by cases t <;> rfl
theorem TileTy.ofCode_code (t : TileTy) : TileTy.ofCode t.code = some t := by cases t <;> rfl
theorem Hint.ofCode_code (t : Hint) : Hint.ofCode t.code = some t := by cases t <;> rfl

theorem LyOp.ofCode_code (t : LyOp) : LyOp.ofCode t.code = some t := by
  cases t with
  | clear => rfl
  | field s => cases s <;> rfl

theorem TplOp.ofCode_code (t : TplOp) : TplOp.ofCode t.code = some t := by
  cases t with
  | clear => rfl
  | field s => cases s <;> rfl

theorem LdSem.ofCode_code (s : LdSem) : LdSem.ofCode s.sem s.scp = some s := by
  cases s with
  | rlx => rfl
  | acq c => cases c <;> rfl

theorem StSem.ofCode_code (s : StSem) : StSem.ofCode s.sem s.scp = some s := by
  cases s with
  | rlx => rfl
  | rel c => cases c <;> rfl

theorem AtSem.ofCode_code (s : AtSem) : AtSem.ofCode s.sem s.scp = some s := by
  cases s with
  | rlx => rfl
  | acq c | rel c | ar c => cases c <;> rfl

theorem RedlOp.ofCode_code (o : RedlOp) : RedlOp.ofCode o.op o.ty = some o := by
  cases o with
  | add t | min t | max t | and t | or t | xor t => cases t <;> rfl

theorem fin?_val {n x : Nat} {y : Fin n} (h : x = y.val) : fin? n x = some y := by
  subst h
  exact dif_pos y.isLt

theorem req_true {b : Bool} (h : b = true) : req b = some () := if_pos h

theorem ofNat_toNat {w : Nat} (x : BitVec w) : BitVec.ofNat w x.toNat = x := by rw [BitVec.ofNat_toNat, BitVec.setWidth_eq]

theorem b2n_beq (b : Bool) : (b2n b == 1) = b := by cases b <;> rfl

theorem regField_num (r : Reg) : regField r.isG r.num = some r := by
  cases r with
  | v n => exact congrArg (Option.map Reg.v) (fin?_val rfl)
  | g n => exact congrArg (Option.map Reg.g) (fin?_val rfl)

/-! ### Words by their form (R82, R83, R85) -/

/-- The fields of a word with guard `gd`, token field `tk` and bits [45:0] `e`. -/
def rawE (gd : Guard) (tk e : Nat) : Raw := { rawOf e with gd := gd, tk := tk, e := e }

theorem guardOf_code (g : Guard) {gn pg : Nat} (hn : gn = b2n g.neg) (hp : pg = g.pred.val) : guardOf gn pg = g := by
  obtain ⟨neg, pred⟩ := g
  subst hn hp
  have : (b2n neg % 2 == 1) = neg := by cases neg <;> rfl
  exact congrArg₂ Guard.mk this (Fin.ext (Nat.mod_eq_of_lt pred.isLt))

/-- The fields of the word with form `form`, opcode `op`, guard, token field and bits [45:0] are these. -/
theorem rawOf_word (form op : Nat) (gd : Guard) {tk e : Nat} (htk : tk < 16) (he : e < 2 ^ 46) :
    rawOf (form * 2 ^ 62 + op * 2 ^ 54 + gd.code * 2 ^ 50 + tk * 2 ^ 46 + e) = rawE gd tk e := by
  have hneg := b2n_lt gd.neg
  have hpred := gd.pred.isLt
  have hcode : gd.code = b2n gd.neg * 8 + gd.pred.val := by unfold Guard.code b2n; split <;> omega
  rw [hcode]
  generalize hw : form * 2 ^ 62 + op * 2 ^ 54 + (b2n gd.neg * 8 + gd.pred.val) * 2 ^ 50 + tk * 2 ^ 46 + e = w
  have hgd : guardOf (bits w 53 53) (bits w 52 50) = gd := guardOf_code gd (by unfold bits; omega) (by unfold bits; omega)
  have htk' : bits w 49 46 = tk := by unfold bits; omega
  have hd : bits w 45 38 = bits e 45 38 := by unfold bits; omega
  have ha : bits w 37 30 = bits e 37 30 := by unfold bits; omega
  have hb : bits w 29 22 = bits e 29 22 := by unfold bits; omega
  have hc : bits w 21 14 = bits e 21 14 := by unfold bits; omega
  have hty : bits w 13 10 = bits e 13 10 := by unfold bits; omega
  have hag : bits w 9 9 = bits e 9 9 := by unfold bits; omega
  have hbg : bits w 8 8 = bits e 8 8 := by unfold bits; omega
  have hsub : bits w 7 0 = bits e 7 0 := by unfold bits; omega
  have himm : bits w 29 0 = bits e 29 0 := by unfold bits; omega
  have he' : bits w 45 0 = e := by unfold bits; omega
  unfold rawOf rawE rawOf
  simp only [hgd, htk', hd, ha, hb, hc, hty, hag, hbg, hsub, himm, he']

/-- An assigned opcode of a form. -/
abbrev OpIn (form op : Nat) : Prop := op < 256 ∧ opAssigned op = true ∧ opForm op = form ∧ form ≠ 1 ∧ form < 4

/-- An assigned opcode of a form, other than 0. -/
abbrev OpOf (form op : Nat) : Prop := 0 < op ∧ OpIn form op

/-- The word `w` encodes the instruction `i`: it has 64 bits and decodes to it. -/
def Encodes (w : Nat) (i : Instr) : Prop := w < 2 ^ 64 ∧ decodeWord w = .ok i

theorem decodeWord_of_op {w op form : Nat} {i : Instr} (h0 : w ≠ 0) (hform : bits w 63 62 = form) (hop : bits w 61 54 = op)
    (hne : form ≠ 1) (ha : opAssigned op = true) (hf : opForm op = form) (hd : decodeOp (rawOf w) op = some i) (hwf : i.wf = true) :
    decodeWord w = .ok i := by
  unfold decodeWord
  simp only [h0, hform, hop, hne, ha, hf, hd, hwf, if_false, if_true, Bool.not_true, Bool.false_or, bne_self_eq_false, Bool.false_eq_true]

/-- A word of form F, I or E other than 0 encodes what its opcode decodes its fields to. -/
theorem encodes_word {form op : Nat} {gd : Guard} {tk e : Nat} {i : Instr} (ho : OpIn form op) (htk : tk < 16) (he : e < 2 ^ 46)
    (hne : form * 2 ^ 62 + op * 2 ^ 54 + gd.code * 2 ^ 50 + tk * 2 ^ 46 + e ≠ 0)
    (hd : decodeOp (rawE gd tk e) op = some i) (hwf : i.wf = true) :
    Encodes (form * 2 ^ 62 + op * 2 ^ 54 + gd.code * 2 ^ 50 + tk * 2 ^ 46 + e) i := by
  obtain ⟨hlt, ha, hf, hform1, hform⟩ := ho
  have hg := gd.code_lt
  refine ⟨by omega, decodeWord_of_op hne ?_ ?_ hform1 ha hf ((rawOf_word form op gd htk he).symm ▸ hd) hwf⟩
  · unfold bits; omega
  · unfold bits; omega

/-- The fields of a word of form F (R82). -/
def rawF (gd : Guard) (tk d a b c ty : Nat) (ag bg : Bool) (sub : Nat) : Raw :=
  let e := d * 2 ^ 38 + a * 2 ^ 30 + b * 2 ^ 22 + c * 2 ^ 14 + ty * 2 ^ 10 + b2n ag * 2 ^ 9 + b2n bg * 2 ^ 8 + sub
  { gd := gd, tk := tk, d := d, a := a, b := b, c := c, ty := ty, ag := ag, bg := bg, sub := sub, imm := bits e 29 0, e := e }

/-- The fields of a word of form I (R83). -/
def rawI (gd : Guard) (tk d a imm : Nat) : Raw :=
  { rawOf (d * 2 ^ 38 + a * 2 ^ 30 + imm) with gd := gd, tk := tk, d := d, a := a, imm := imm, e := d * 2 ^ 38 + a * 2 ^ 30 + imm }

section FormF
variable {op tk d a b c ty sub : Nat} {gd : Guard} {ag bg : Bool} {i : Instr} (htk : tk < 16) (hd : d < 256) (ha : a < 256) (hb : b < 256)
  (hc : c < 256) (hty : ty < 16) (hsub : sub < 256)

include hd ha hb hc hty hsub in
theorem rawE_formF : rawE gd tk (d * 2 ^ 38 + a * 2 ^ 30 + b * 2 ^ 22 + c * 2 ^ 14 + ty * 2 ^ 10 + b2n ag * 2 ^ 9 + b2n bg * 2 ^ 8 + sub) =
    rawF gd tk d a b c ty ag bg sub := by
  have hag := b2n_lt ag
  have hbg := b2n_lt bg
  unfold rawF rawE rawOf
  generalize he : d * 2 ^ 38 + a * 2 ^ 30 + b * 2 ^ 22 + c * 2 ^ 14 + ty * 2 ^ 10 + b2n ag * 2 ^ 9 + b2n bg * 2 ^ 8 + sub = e
  have h1 : bits e 45 38 = d := by unfold bits; omega
  have h2 : bits e 37 30 = a := by unfold bits; omega
  have h3 : bits e 29 22 = b := by unfold bits; omega
  have h4 : bits e 21 14 = c := by unfold bits; omega
  have h5 : bits e 13 10 = ty := by unfold bits; omega
  have h6 : bits e 9 9 = b2n ag := by unfold bits; omega
  have h7 : bits e 8 8 = b2n bg := by unfold bits; omega
  have h8 : bits e 7 0 = sub := by unfold bits; omega
  simp only [h1, h2, h3, h4, h5, h6, h7, h8, b2n_beq]

include htk hd ha hb hc hty hsub in
theorem encodes_fWord_of_ne (ho : OpIn 0 op) (hne : fWord op gd tk d a b c ty ag bg sub ≠ 0)
    (hdec : decodeOp (rawF gd tk d a b c ty ag bg sub) op = some i) (hwf : i.wf = true) :
    Encodes (fWord op gd tk d a b c ty ag bg sub) i := by
  have hag := b2n_lt ag
  have hbg := b2n_lt bg
  rw [← rawE_formF hd ha hb hc hty hsub] at hdec
  have heq : fWord op gd tk d a b c ty ag bg sub = 0 * 2 ^ 62 + op * 2 ^ 54 + gd.code * 2 ^ 50 + tk * 2 ^ 46 +
      (d * 2 ^ 38 + a * 2 ^ 30 + b * 2 ^ 22 + c * 2 ^ 14 + ty * 2 ^ 10 + b2n ag * 2 ^ 9 + b2n bg * 2 ^ 8 + sub) := by
    unfold fWord; omega
  rw [heq] at hne ⊢
  exact encodes_word ho htk (by omega) hne hdec hwf

include htk hd ha hb hc hty hsub in
theorem encodes_fWord (ho : OpOf 0 op) (hdec : decodeOp (rawF gd tk d a b c ty ag bg sub) op = some i) (hwf : i.wf = true) :
    Encodes (fWord op gd tk d a b c ty ag bg sub) i := by
  obtain ⟨hpos, hin⟩ := ho
  exact encodes_fWord_of_ne htk hd ha hb hc hty hsub hin (by unfold fWord; omega) hdec hwf

end FormF

/-- A word of form I (R83) is a word of its bits [45:0]. -/
theorem encodes_iWord {op tk d a imm : Nat} {gd : Guard} {i : Instr} (ho : OpOf 2 op) (htk : tk < 16) (hd : d < 256) (ha : a < 256)
    (himm : imm < 2 ^ 30)
    (hdec : decodeOp (rawI gd tk d a imm) op = some i) (hwf : i.wf = true) :
    Encodes (iWord op gd tk d a imm) i := by
  have hraw : rawE gd tk (d * 2 ^ 38 + a * 2 ^ 30 + imm) = rawI gd tk d a imm := by
    unfold rawI rawE rawOf
    generalize he : d * 2 ^ 38 + a * 2 ^ 30 + imm = e
    have h1 : bits e 45 38 = d := by unfold bits; omega
    have h2 : bits e 37 30 = a := by unfold bits; omega
    have h3 : bits e 29 0 = imm := by unfold bits; omega
    simp only [h1, h2, h3]
  have heq : iWord op gd tk d a imm = 2 * 2 ^ 62 + op * 2 ^ 54 + gd.code * 2 ^ 50 + tk * 2 ^ 46 + (d * 2 ^ 38 + a * 2 ^ 30 + imm) := by
    unfold iWord; omega
  rw [← hraw] at hdec
  obtain ⟨hpos, hin⟩ := ho
  rw [heq]
  exact encodes_word hin htk (by omega) (by omega) hdec hwf

theorem encodes_eWord {op tk e : Nat} {gd : Guard} {i : Instr} (ho : OpOf 3 op) (htk : tk < 16) (he : e < 2 ^ 46)
    (hdec : ∀ e', e' = e → decodeOp (rawE gd tk e') op = some i) (hwf : i.wf = true) : Encodes (eWord op gd tk e) i :=
  encodes_word ho.2 htk he (by have := ho.1; omega) (hdec e rfl) hwf

/-! ### Operand shapes of form F and form I -/

theorem bind_of {α β : Type} {o : Option α} {a : α} {f : α → Option β} {r : Option β} (h : o = some a) (hf : f a = r) :
    (o >>= f) = r := by rw [h, ← hf]; rfl

theorem Reg.dg_mod (r : Reg) : r.dg % 8 = 0 := Nat.mul_mod_left ..

theorem Reg.dg_div (r : Reg) : (r.dg / 8 == 1) = r.isG := by rw [Reg.dg, Nat.mul_div_cancel _ (by decide), b2n_beq]

section Shapes
variable {α : Type} {gd : Guard} {tk ty sub n : Nat} {d a b : Reg} {c : VReg} {ag bg : Bool} {t? : Option α} {t : α} {ok : Bool} {i : Instr}

theorem dF_rawF {x b' c' : Nat} : (rawF gd d.dg d.num x b' c' ty ag bg sub).dF = some d := by
  unfold Raw.dF rawF
  rw [if_pos d.dg_mod, d.dg_div, regField_num]

theorem aF_rawF {d' b' c' : Nat} : (rawF gd tk d' a.num b' c' ty a.isG bg sub).aF = some a := regField_num a

theorem bF_rawF {d' a' c' : Nat} : (rawF gd tk d' a' b.num c' ty ag b.isG sub).bF = some b := regField_num b

theorem decDAB_rawF {mk : Guard → α → Reg → Reg → Reg → Instr} (ht : t? = some t) (hok : ok = true) :
    decDAB (rawF gd d.dg d.num a.num b.num 0 ty a.isG b.isG sub) t? mk ok = some (mk gd t d a b) := by
  unfold decDAB
  rw [ht, dF_rawF, aF_rawF, bF_rawF, hok]
  rfl

theorem decDABC_rawF {mk : Guard → α → Reg → Reg → Reg → VReg → Instr} (ht : t? = some t) (hok : ok = true) :
    decDABC (rawF gd d.dg d.num a.num b.num c.val ty a.isG b.isG sub) t? mk ok = some (mk gd t d a b c) := by
  unfold decDABC
  have hc : (rawF gd d.dg d.num a.num b.num c.val ty a.isG b.isG sub).cV = some c := fin?_val rfl
  rw [ht, dF_rawF, aF_rawF, bF_rawF, hc, hok]
  rfl

theorem decDA_rawF {mk : Guard → α → Reg → Reg → Instr} (ht : t? = some t) (hok : ok = true) :
    decDA (rawF gd d.dg d.num a.num 0 0 ty a.isG false sub) t? mk ok = some (mk gd t d a) := by
  unfold decDA
  rw [ht, dF_rawF, aF_rawF, hok]
  rfl

theorem RM.ofCode_mod (rm : RM) : RM.ofCode (rm.code % 8) = some rm := by cases rm <;> rfl

theorem decTokDA_rawF {tk : Tok} {d : VReg} {rm : RM} {mk : Guard → α → RM → Tok → VReg → Reg → Instr} (ht : t? = some t) :
    decTokDA (rawF gd tk.val d.val a.num 0 0 ty a.isG false rm.code) t? mk = some (mk gd t rm tk d a) := by
  have hrm : RM.ofCode ((rawF gd tk.val d.val a.num 0 0 ty a.isG false rm.code).sub % 8) = some rm := rm.ofCode_mod
  have htk : (rawF gd tk.val d.val a.num 0 0 ty a.isG false rm.code).tok = some tk := fin?_val rfl
  have hd : (rawF gd tk.val d.val a.num 0 0 ty a.isG false rm.code).dV = some d := fin?_val rfl
  have hsub : decide ((rawF gd tk.val d.val a.num 0 0 ty a.isG false rm.code).sub < 8) = true := decide_eq_true rm.code_lt
  unfold decTokDA
  rw [ht, hrm, htk, hd, aF_rawF, hsub]
  rfl

theorem encodes_fDAB {op : Nat} (ho : OpOf 0 op) (hty : ty < 16) (hsub : sub < 256)
    (hdec : decodeOp (rawF gd d.dg d.num a.num b.num 0 ty a.isG b.isG sub) op = some i) (hwf : i.wf = true) :
    Encodes (fDAB op gd ty d a b sub) i :=
  encodes_fWord (Nat.lt_trans d.dg_lt (by decide)) d.num_lt a.num_lt b.num_lt (by decide) hty hsub ho hdec hwf

theorem encodes_fDABC {op : Nat} (ho : OpOf 0 op) (hty : ty < 16) (hsub : sub < 256)
    (hdec : decodeOp (rawF gd d.dg d.num a.num b.num c.val ty a.isG b.isG sub) op = some i) (hwf : i.wf = true) :
    Encodes (fDABC op gd ty d a b c sub) i :=
  encodes_fWord (Nat.lt_trans d.dg_lt (by decide)) d.num_lt a.num_lt b.num_lt c.isLt hty hsub ho hdec hwf

theorem encodes_fDA {op : Nat} (ho : OpOf 0 op) (hty : ty < 16) (hsub : sub < 256)
    (hdec : decodeOp (rawF gd d.dg d.num a.num 0 0 ty a.isG false sub) op = some i) (hwf : i.wf = true) :
    Encodes (fDA op gd ty d a sub) i :=
  encodes_fWord (Nat.lt_trans d.dg_lt (by decide)) d.num_lt a.num_lt (by decide) (by decide) hty hsub ho hdec hwf

theorem encodes_fTokDA {op : Nat} {tk : Tok} {d : VReg} {rm : RM} (ho : OpOf 0 op) (hty : ty < 16)
    (hdec : decodeOp (rawF gd tk.val d.val a.num 0 0 ty a.isG false rm.code) op = some i) (hwf : i.wf = true) :
    Encodes (fTokDA op gd ty rm tk d a) i :=
  encodes_fWord tk.isLt d.isLt a.num_lt (by decide) (by decide) hty (Nat.lt_trans rm.code_lt (by decide)) ho hdec hwf

theorem encodes_fBare {op : Nat} (ho : OpOf 0 op) (hsub : sub < 256)
    (hdec : decodeOp (rawF gd 0 0 0 0 0 0 false false sub) op = some i) (hwf : i.wf = true) : Encodes (fBare op gd sub) i :=
  encodes_fWord (by decide) (by decide) (by decide) (by decide) (by decide) (by decide) hsub ho hdec hwf

theorem dI_rawI {x y : Nat} (ha : y < 2) {imm : Nat} : (rawI gd (d.dg + y * 4) d.num x imm).dI = some d := by
  have hd := b2n_lt d.isG
  have h4 : (d.dg + y * 4) % 4 = 0 := by unfold Reg.dg; omega
  have h8 : (d.dg + y * 4) / 8 = b2n d.isG := by unfold Reg.dg; omega
  unfold Raw.dI rawI
  simp only [h4, h8, if_true, b2n_beq, regField_num]

theorem aI_rawI {x y : Nat} {imm : Nat} : (rawI gd (y * 8 + b2n a.isG * 4) x a.num imm).aI = some a := by
  have ha := b2n_lt a.isG
  have h4 : (y * 8 + b2n a.isG * 4) % 4 = 0 := by omega
  have h2 : (y * 8 + b2n a.isG * 4) / 4 % 2 = b2n a.isG := by omega
  unfold Raw.aI rawI
  simp only [h4, h2, if_true, b2n_beq, regField_num]

theorem decI_rawI {mk : Guard → Reg → Reg → BitVec 30 → Instr} {imm : BitVec 30} :
    decI (rawI gd (d.dg + b2n a.isG * 4) d.num a.num imm.toNat) mk = some (mk gd d a imm) := by
  unfold decI
  have ha : (rawI gd (d.dg + b2n a.isG * 4) d.num a.num imm.toNat).aI = some a := aI_rawI
  rw [dI_rawI (b2n_lt _), ha]
  exact congrArg (fun x => some (mk gd d a x)) (ofNat_toNat imm)

theorem encodes_iDA {op imm : Nat} (ho : OpOf 2 op) (himm : imm < 2 ^ 30)
    (hdec : decodeOp (rawI gd (d.dg + b2n a.isG * 4) d.num a.num imm) op = some i) (hwf : i.wf = true) : Encodes (iDA op gd d a imm) i := by
  have hd := b2n_lt d.isG
  have ha := b2n_lt a.isG
  exact encodes_iWord ho (by unfold Reg.dg; omega) d.num_lt a.num_lt himm hdec hwf

end Shapes

end Sys2Proof
end

section
/-!
PROOFS. Decoding gives back what was encoded: the fields of the memory, barrier, matrix, ring and promise words.
-/
namespace Sys2Proof
/-! ### Each instruction word -/

theorem fin?_coe {n : Nat} (y : Fin n) : fin? n y.val = some y := fin?_val rfl

theorem decLoad_rawE {gd : Guard} {tk : Tok} {d : VReg} {m : MemOpnd} {z : Sz} {s : LdSem} {sp : Bool} {e : Nat}
    (he : e = d.val * 2 ^ 38 + m.code + z.code * 2 ^ 20 + s.sem * 2 ^ 18 + s.scp * 2 ^ 15 + b2n sp * 2 ^ 13) :
    decLoad (rawE gd tk.val e) = some (tk, d, m, z, s) ∧ bits e 13 13 = b2n sp := by
  have hz := z.code_lt
  have hsem := s.sem_lt
  have hscp := s.scp_lt
  have hsp := b2n_lt sp
  have hx := b2n_lt m.xe
  unfold MemOpnd.code at he
  have h1 : bits e 45 38 = d.val := by unfold bits; omega
  have h2 : bits e 37 32 = m.gb.val := by unfold bits; omega
  have h3 : bits e 31 24 = m.vx.val := by unfold bits; omega
  have h4 : bits e 23 23 = b2n m.xe := by unfold bits; omega
  have h5 : bits e 12 0 = m.off.toNat := by unfold bits; omega
  have h6 : bits e 22 20 = z.code := by unfold bits; omega
  have h7 : bits e 19 18 = s.sem := by unfold bits; omega
  have h8 : bits e 17 15 = s.scp := by unfold bits; omega
  have h9 : bits e 14 14 = 0 := by unfold bits; omega
  refine ⟨?_, by unfold bits; omega⟩
  simp [decLoad, Raw.mem, Raw.tok, Raw.ef, rawE, vreg, h1, h2, h3, h4, h5, h6, h7, h8, h9, fin?_coe, Sz.ofCode_code, LdSem.ofCode_code,
    b2n_beq, req]

theorem optTok_rawE {gd : Guard} {tk : Option Tok} {e : Nat} {te : Bool} (h : te = tk.isSome) :
    (rawE gd (tokNum tk) e).optTok te = some tk := by
  subst h
  cases tk with
  | none => rfl
  | some t => exact congrArg (Option.map some) (fin?_coe t)

theorem decStore_rawE {gd : Guard} {tk : Option Tok} {d : VReg} {m : MemOpnd} {z : Sz} {s : StSem} {sp : Bool} {e : Nat}
    (he : e = d.val * 2 ^ 38 + m.code + z.code * 2 ^ 20 + s.sem * 2 ^ 18 + s.scp * 2 ^ 15 + b2n tk.isSome * 2 ^ 14 + b2n sp * 2 ^ 13) :
    decStore (rawE gd (tokNum tk) e) = some (tk, d, m, z, s) ∧ bits e 13 13 = b2n sp := by
  have hz := z.code_lt
  have hsem := s.sem_lt
  have hscp := s.scp_lt
  have hsp := b2n_lt sp
  have htk := b2n_lt tk.isSome
  have hx := b2n_lt m.xe
  unfold MemOpnd.code at he
  have h1 : bits e 45 38 = d.val := by unfold bits; omega
  have h2 : bits e 37 32 = m.gb.val := by unfold bits; omega
  have h3 : bits e 31 24 = m.vx.val := by unfold bits; omega
  have h4 : bits e 23 23 = b2n m.xe := by unfold bits; omega
  have h5 : bits e 12 0 = m.off.toNat := by unfold bits; omega
  have h6 : bits e 22 20 = z.code := by unfold bits; omega
  have h7 : bits e 19 18 = s.sem := by unfold bits; omega
  have h8 : bits e 17 15 = s.scp := by unfold bits; omega
  have h9 : bits e 14 14 = b2n tk.isSome := by unfold bits; omega
  have ht : (rawE gd (tokNum tk) e).optTok (bits e 14 14 == 1) = some tk := optTok_rawE (by rw [h9, b2n_beq])
  refine ⟨?_, by unfold bits; omega⟩
  unfold decStore
  rw [show (rawE gd (tokNum tk) e).ef 14 14 = bits e 14 14 from rfl, ht]
  simp [Raw.mem, Raw.ef, rawE, vreg, h1, h2, h3, h4, h5, h6, h7, h8, fin?_coe, Sz.ofCode_code, StSem.ofCode_code, b2n_beq]

theorem amem_rawE {gd : Guard} {tk d low : Nat} {m : AtOpnd} {va : VReg} {o : AOp} {z : ASz} {s : AtSem} {e : Nat}
    (hd : d < 256) (hlow : low < 16)
    (he : e = d * 2 ^ 38 + m.code + va.val * 2 ^ 15 + o.code * 2 ^ 11 + z.code * 2 ^ 9 + s.sem * 2 ^ 7 + s.scp * 2 ^ 4 + low) :
    (rawE gd tk e).amem = some m ∧ bits e 45 38 = d ∧ bits e 22 15 = va.val ∧ bits e 14 11 = o.code ∧ bits e 10 9 = z.code ∧
      bits e 8 7 = s.sem ∧ bits e 6 4 = s.scp ∧ e % 16 = low := by
  have ho := o.code_lt
  have hz := z.code_lt
  have hsem := s.sem_lt
  have hscp := s.scp_lt
  have hx := b2n_lt m.xe
  unfold AtOpnd.code at he
  have h2 : bits e 37 32 = m.gb.val := by unfold bits; omega
  have h3 : bits e 31 24 = m.vx.val := by unfold bits; omega
  have h4 : bits e 23 23 = b2n m.xe := by unfold bits; omega
  refine ⟨?_, by unfold bits; omega⟩
  simp [Raw.amem, Raw.ef, rawE, h2, h3, h4, fin?_coe, b2n_beq]

theorem decLay_rawE {gd : Guard} {tk : Nat} {d : VReg} {o : LayOpnd} {te : Bool} {e : Nat}
    (he : e = d.val * 2 ^ 38 + o.l.val * 2 ^ 30 + o.gc.val * 2 ^ 24 + o.nc.val * 2 ^ 22 + o.nr.val * 2 ^ 19 + b2n te * 2 ^ 18 +
      b2n o.row * 2 ^ 17) :
    decLay (rawE gd tk e) = some o ∧ bits e 45 38 = d.val ∧ bits e 18 18 = b2n te := by
  have ht := b2n_lt te
  have hr := b2n_lt o.row
  have h1 : bits e 37 30 = o.l.val := by unfold bits; omega
  have h2 : bits e 29 24 = o.gc.val := by unfold bits; omega
  have h3 : bits e 23 22 = o.nc.val := by unfold bits; omega
  have h4 : bits e 21 19 = o.nr.val := by unfold bits; omega
  have h5 : bits e 17 17 = b2n o.row := by unfold bits; omega
  have h6 : bits e 16 0 = 0 := by unfold bits; omega
  refine ⟨?_, by unfold bits; omega⟩
  simp [decLay, Raw.ef, rawE, greg, h1, h2, h3, h4, h5, h6, fin?_coe, b2n_beq, req]

theorem bar_fields {b : Fin 16} {d a : GReg} {e : Nat} (he : e = d.val * 2 ^ 38 + a.val * 2 ^ 30 + b.val * 2 ^ 26) :
    bits e 29 26 = b.val ∧ bits e 45 38 = d.val ∧ bits e 37 30 = a.val ∧ bits e 25 0 = 0 := by unfold bits; omega

theorem decMma_rawE {gd : Guard} {tk : Tok} {acc : Fin 64} {la lb : Fin 256} {gca gcb gf gk : GReg} {e : Nat}
    {mk : Guard → Tok → Fin 64 → Fin 256 → GReg → Fin 256 → GReg → GReg → GReg → Instr}
    (he : e = acc.val * 2 ^ 40 + la.val * 2 ^ 32 + gca.val * 2 ^ 26 + lb.val * 2 ^ 18 + gcb.val * 2 ^ 12 + gf.val * 2 ^ 6 + gk.val) :
    decMma (rawE gd tk.val e) mk = some (mk gd tk acc la gca lb gcb gf gk) := by
  have h1 : bits e 45 40 = acc.val := by unfold bits; omega
  have h2 : bits e 39 32 = la.val := by unfold bits; omega
  have h3 : bits e 31 26 = gca.val := by unfold bits; omega
  have h4 : bits e 25 18 = lb.val := by unfold bits; omega
  have h5 : bits e 17 12 = gcb.val := by unfold bits; omega
  have h6 : bits e 11 6 = gf.val := by unfold bits; omega
  have h7 : bits e 5 0 = gk.val := by unfold bits; omega
  simp [decMma, Raw.tok, Raw.ef, rawE, greg, h1, h2, h3, h4, h5, h6, h7, fin?_coe]

theorem decAccMem_rawE {gd : Guard} {tk : Tok} {acc : Fin 64} {l : Fin 256} {gc : GReg} {tt : TileTy} {e : Nat}
    {mk : Guard → Tok → Fin 64 → Fin 256 → GReg → TileTy → Instr}
    (he : e = acc.val * 2 ^ 40 + l.val * 2 ^ 32 + gc.val * 2 ^ 26 + tt.code * 2 ^ 24) :
    decAccMem (rawE gd tk.val e) mk = some (mk gd tk acc l gc tt) := by
  have ht := tt.code_lt
  have h1 : bits e 45 40 = acc.val := by unfold bits; omega
  have h2 : bits e 39 32 = l.val := by unfold bits; omega
  have h3 : bits e 31 26 = gc.val := by unfold bits; omega
  have h4 : bits e 25 24 = tt.code := by unfold bits; omega
  have h5 : bits e 23 0 = 0 := by unfold bits; omega
  simp [decAccMem, Raw.tok, Raw.ef, rawE, greg, h1, h2, h3, h4, h5, fin?_coe, TileTy.ofCode_code, req]

theorem accmv_fields {acc : Fin 64} {x mode : Nat} {gr : GReg} {clr : Bool} {e : Nat} (hx : x < 256) (hm : mode < 4)
    (he : e = acc.val * 2 ^ 40 + x * 2 ^ 32 + gr.val * 2 ^ 26 + mode * 2 ^ 24 + b2n clr * 2 ^ 23) :
    bits e 45 40 = acc.val ∧ bits e 39 32 = x ∧ bits e 31 26 = gr.val ∧ bits e 25 24 = mode ∧ bits e 23 23 = b2n clr ∧
      bits e 22 0 = 0 := by
  have := b2n_lt clr
  unfold bits
  omega

theorem decNet_rawE {gd : Guard} {tk : Tok} {gx : GReg} {e : Nat} {mk : Guard → Tok → GReg → Instr} (he : e = gx.val * 2 ^ 40) :
    decNet (rawE gd tk.val e) mk = some (mk gd tk gx) := by
  have h1 : bits e 45 40 = gx.val := by unfold bits; omega
  have h2 : bits e 39 0 = 0 := by unfold bits; omega
  simp [decNet, Raw.tok, Raw.ef, rawE, greg, h1, h2, fin?_coe, req]

theorem ring_fields {d ga : GReg} {rg : Fin 8} {q : QSel} {init : Bool} {e : Nat}
    (he : e = d.val * 2 ^ 38 + ga.val * 2 ^ 32 + rg.val * 2 ^ 29 + q.code * 2 ^ 27 + b2n init * 2 ^ 26) :
    bits e 45 38 = d.val ∧ bits e 37 32 = ga.val ∧ bits e 31 29 = rg.val ∧ bits e 28 27 = q.code ∧ bits e 26 26 = b2n init ∧
      bits e 25 0 = 0 ∧ bits e 26 0 = b2n init * 2 ^ 26 ∧ bits e 28 0 = q.code * 2 ^ 27 + b2n init * 2 ^ 26 := by
  have := b2n_lt init
  have := q.code_lt
  unfold bits
  omega

theorem prom_fields {d ga gv : GReg} {scp : Nat} {free : Bool} {e : Nat} (hs : scp < 8)
    (he : e = d.val * 2 ^ 38 + ga.val * 2 ^ 32 + gv.val * 2 ^ 26 + scp * 2 ^ 23 + b2n free * 2 ^ 22) :
    bits e 45 38 = d.val ∧ bits e 37 32 = ga.val ∧ bits e 31 26 = gv.val ∧ bits e 25 23 = scp ∧ bits e 22 22 = b2n free ∧
      bits e 21 0 = 0 ∧ bits e 22 0 = b2n free * 2 ^ 22 ∧ bits e 25 0 = scp * 2 ^ 23 + b2n free * 2 ^ 22 ∧
      bits e 31 23 = gv.val * 8 + scp := by
  have := b2n_lt free
  unfold bits
  omega
end Sys2Proof
end

section
/-!
PROOFS. Decoding gives back what was encoded: every instruction word, and its bytes (R3, R81 to R92).
-/
namespace Sys2Proof

theorem loadBits_lt {d : VReg} {m : MemOpnd} {z : Sz} {s : LdSem} {sp : Bool} :
    d.val * 2 ^ 38 + m.code + z.code * 2 ^ 20 + s.sem * 2 ^ 18 + s.scp * 2 ^ 15 + b2n sp * 2 ^ 13 < 2 ^ 46 := by
  have := m.code_lt; have := z.code_lt; have := s.sem_lt; have := s.scp_lt; have := b2n_lt sp
  omega

theorem storeBits_lt {d : VReg} {m : MemOpnd} {z : Sz} {s : StSem} {te sp : Bool} :
    d.val * 2 ^ 38 + m.code + z.code * 2 ^ 20 + s.sem * 2 ^ 18 + s.scp * 2 ^ 15 + b2n te * 2 ^ 14 + b2n sp * 2 ^ 13 < 2 ^ 46 := by
  have := m.code_lt; have := z.code_lt; have := s.sem_lt; have := s.scp_lt; have := b2n_lt sp; have := b2n_lt te
  omega

theorem atomBits_lt {d low : Nat} {m : AtOpnd} {va : VReg} {o : AOp} {z : ASz} {s : AtSem} (hd : d < 256) (hlow : low < 16) :
    d * 2 ^ 38 + m.code + va.val * 2 ^ 15 + o.code * 2 ^ 11 + z.code * 2 ^ 9 + s.sem * 2 ^ 7 + s.scp * 2 ^ 4 + low < 2 ^ 46 := by
  have := m.code_lt; have := o.code_lt; have := z.code_lt; have := s.sem_lt; have := s.scp_lt
  omega

theorem layBits_lt {d : VReg} {o : LayOpnd} {te : Bool} :
    d.val * 2 ^ 38 + o.l.val * 2 ^ 30 + o.gc.val * 2 ^ 24 + o.nc.val * 2 ^ 22 + o.nr.val * 2 ^ 19 + b2n te * 2 ^ 18 +
      b2n o.row * 2 ^ 17 < 2 ^ 46 := by
  have := b2n_lt te; have := b2n_lt o.row
  omega

theorem promBits_lt {d ga gv : GReg} {scp : Nat} {free : Bool} (hs : scp < 8) :
    d.val * 2 ^ 38 + ga.val * 2 ^ 32 + gv.val * 2 ^ 26 + scp * 2 ^ 23 + b2n free * 2 ^ 22 < 2 ^ 46 := by
  have := b2n_lt free
  omega

theorem mem_rawE {gd : Guard} {tk e : Nat} {m : MemOpnd} (h1 : bits e 37 32 = m.gb.val) (h2 : bits e 31 24 = m.vx.val)
    (h3 : bits e 23 23 = b2n m.xe) (h4 : bits e 12 0 = m.off.toNat) : (rawE gd tk e).mem = some m :=
  bind_of (fin?_val h1) <| bind_of (fin?_val h2) <| by
    simp [Raw.ef, rawE, h3, h4, b2n_beq]

theorem mmaBits_lt {acc : Fin 64} {la lb : Fin 256} {gca gcb gf gk : GReg} :
    acc.val * 2 ^ 40 + la.val * 2 ^ 32 + gca.val * 2 ^ 26 + lb.val * 2 ^ 18 + gcb.val * 2 ^ 12 + gf.val * 2 ^ 6 + gk.val < 2 ^ 46 := by
  omega

theorem accMemBits_lt {acc : Fin 64} {l : Fin 256} {gc : GReg} {tt : TileTy} :
    acc.val * 2 ^ 40 + l.val * 2 ^ 32 + gc.val * 2 ^ 26 + tt.code * 2 ^ 24 < 2 ^ 46 := by
  have := tt.code_lt
  omega

theorem accmvBits_lt {acc : Fin 64} {x mode : Nat} {gr : GReg} {clr : Bool} (hx : x < 256) (hm : mode < 4) :
    acc.val * 2 ^ 40 + x * 2 ^ 32 + gr.val * 2 ^ 26 + mode * 2 ^ 24 + b2n clr * 2 ^ 23 < 2 ^ 46 := by
  have := b2n_lt clr
  omega

theorem ringBits_lt {d ga : GReg} {rg : Fin 8} {q : QSel} {init : Bool} :
    d.val * 2 ^ 38 + ga.val * 2 ^ 32 + rg.val * 2 ^ 29 + q.code * 2 ^ 27 + b2n init * 2 ^ 26 < 2 ^ 46 := by
  have := b2n_lt init
  have := q.code_lt
  omega

/-- A paired word decodes to its halves (R84, R90). -/
theorem decodeHalf_code (h : Half) : decodeHalf h.code.1 h.dst.val h.code.2.1 h.code.2.2 = some h := by
  cases h with
  | mov d a | add d a | sub d a | and d a | or d a | xor d a | shl d a | shr d a | sar d a | min d a | max d a
  | fadd d a | fmul d a | fmin d a | fmax d a | hadd2 d a | hmul2 d a =>
    exact bind_of (fin?_coe d) (bind_of (fin?_coe a) rfl)
  | addi d x | andi d x | movi d x =>
    refine bind_of (fin?_coe d) (bind_of (a := 0) rfl ?_)
    simp [Half.code]
  | shli d n | shri d n =>
    have hn := n.isLt
    refine bind_of (fin?_coe d) (bind_of (a := 0) rfl ?_)
    simp [Half.code, hn]

theorem half_fields (h : Half) : h.code.1 ≤ 21 ∧ h.code.2.1 < 256 ∧ h.code.2.2 < 256 := by
  cases h with
  | mov d a | add d a | sub d a | and d a | or d a | xor d a | shl d a | shr d a | sar d a | min d a | max d a
  | fadd d a | fmul d a | fmin d a | fmax d a | hadd2 d a | hmul2 d a => simp only [Half.code]; omega
  | addi d x | andi d x | movi d x => have := x.isLt; simp only [Half.code]; omega
  | shli d n | shri d n => have := n.isLt; simp only [Half.code]; omega

theorem encodes_pWord {h0 h1 : Half} (hwf : (Instr.pair h0 h1).wf = true) : Encodes (pWord h0 h1) (.pair h0 h1) := by
  obtain ⟨ho0, ha0, hx0⟩ := half_fields h0
  obtain ⟨ho1, ha1, hx1⟩ := half_fields h1
  have hd0 := h0.dst.isLt
  have hd1 := h1.dst.isLt
  refine ⟨pWord_lt h0 h1, ?_⟩
  generalize hw : pWord h0 h1 = w
  unfold pWord Half.word at hw
  have hne : w ≠ 0 := by omega
  have hf : bits w 63 62 = 1 := by unfold bits; omega
  have b1 : bits w 61 55 = h0.code.1 := by unfold bits; omega
  have b2 : bits w 54 47 = h0.dst.val := by unfold bits; omega
  have b3 : bits w 46 39 = h0.code.2.1 := by unfold bits; omega
  have b4 : bits w 38 31 = h0.code.2.2 := by unfold bits; omega
  have b5 : bits w 30 24 = h1.code.1 := by unfold bits; omega
  have b6 : bits w 23 16 = h1.dst.val := by unfold bits; omega
  have b7 : bits w 15 8 = h1.code.2.1 := by unfold bits; omega
  have b8 : bits w 7 0 = h1.code.2.2 := by unfold bits; omega
  have hop : (decide (h0.code.1 > 0x15) || decide (h1.code.1 > 0x15)) = false := by simp; omega
  unfold decodeWord
  rw [if_neg hne, if_pos hf, b1, b2, b3, b4, b5, b6, b7, b8, hop, decodeHalf_code, decodeHalf_code]
  simp [hwf]
/-! ### `add`, whose all-zero word is reserved (R92, R125) -/

theorem Guard.eq_of_code {g : Guard} (h : g.code = 0) : g = ⟨false, 0⟩ := by
  obtain ⟨neg, pred⟩ := g
  unfold Guard.code at h
  cases neg with
  | true => exact absurd h (by simp)
  | false => exact congrArg (Guard.mk false) (Fin.ext (by simpa using h))

theorem Reg.eq_of_num {r : Reg} (hg : b2n r.isG = 0) (hn : r.num = 0) : r = .v 0 := by
  cases r with
  | v n => exact congrArg Reg.v (Fin.ext hn)
  | g n => exact absurd hg (by simp [Reg.isG, b2n])

theorem add_word_ne_zero {gd : Guard} {t : IntTy} {sat : Bool} {d a b : Reg} (hwf : (Instr.add gd t sat d a b).wf = true) :
    fDAB 0 gd t.code d a b (b2n sat) ≠ 0 := by
  intro h0
  unfold fDAB fWord Reg.dg at h0
  have hgd : gd = ⟨false, 0⟩ := Guard.eq_of_code (by omega)
  have ht : t = .i8 := by
    have : t.code = 0 := by omega
    cases t <;> simp [IntTy.code] at this ⊢
  have hsat : sat = false := by
    have : b2n sat = 0 := by omega
    cases sat <;> simp [b2n] at this ⊢
  have hd : d = .v 0 := Reg.eq_of_num (by omega) (by omega)
  have ha : a = .v 0 := Reg.eq_of_num (by omega) (by omega)
  have hb : b = .v 0 := Reg.eq_of_num (by omega) (by omega)
  subst hgd ht hsat hd ha hb
  exact absurd hwf (by decide)

theorem encodes_add {gd : Guard} {t : IntTy} {sat : Bool} {d a b : Reg} (hwf : (Instr.add gd t sat d a b).wf = true) :
    Encodes (fDAB 0 gd t.code d a b (b2n sat)) (.add gd t sat d a b) := by
  refine encodes_fWord_of_ne (Nat.lt_trans d.dg_lt (by decide)) d.num_lt a.num_lt b.num_lt (by decide) t.code_lt
    (Nat.lt_trans (b2n_lt sat) (by decide)) (by decide) (add_word_ne_zero hwf) ?_ hwf
  cases sat <;> exact decDAB_rawF (mk := (.add · · _)) t.ofCode_code rfl

/-! ### Every word -/

theorem encodes_encode (i : Instr) (hw : i.isWord = true) (hwf : i.wf = true) : Encodes (encode i) i := by
  cases i with
  | add gd t sat d a b => exact encodes_add hwf
  | sub gd t sat d a b =>
    refine encodes_fDAB (by decide) t.code_lt (Nat.lt_trans (b2n_lt sat) (by decide)) ?_ hwf
    cases sat <;> exact decDAB_rawF (mk := (.sub · · _)) t.ofCode_code rfl
  | abs gd t sat d a =>
    refine encodes_fDA (by decide) t.code_lt (Nat.lt_trans (b2n_lt sat) (by decide)) ?_ hwf
    cases sat <;> exact decDA_rawF (mk := (.abs · · _)) t.ofCode_code rfl
  | neg gd t sat d a =>
    refine encodes_fDA (by decide) t.code_lt (Nat.lt_trans (b2n_lt sat) (by decide)) ?_ hwf
    cases sat <;> exact decDA_rawF (mk := (.neg · · _)) t.ofCode_code rfl
  | mul gd t d a b | mulh gd t d a b | min gd t d a b | max gd t d a b =>
    exact encodes_fDAB (by decide) t.code_lt (by decide) (decDAB_rawF t.ofCode_code rfl) hwf
  | and gd t d a b | or gd t d a b | xor gd t d a b | andn gd t d a b | shl gd t d a b | shr gd t d a b | rot gd t d a b =>
    exact encodes_fDAB (by decide) t.code_lt (by decide) (decDAB_rawF t.ofCode_code rfl) hwf
  | sar gd t d a b => exact encodes_fDAB (by decide) t.code_lt (by decide) (decDAB_rawF t.ofCode_code rfl) hwf
  | bfe gd t d a b => exact encodes_fDAB (by decide) t.code_lt (by decide) (decDAB_rawF t.ofCode_code rfl) hwf
  | fmin gd t d a b | fmax gd t d a b => exact encodes_fDAB (by decide) t.code_lt (by decide) (decDAB_rawF t.ofCode_code rfl) hwf
  | hmin2 gd t d a b | hmax2 gd t d a b => exact encodes_fDAB (by decide) t.code_lt (by decide) (decDAB_rawF t.ofCode_code rfl) hwf
  | mad gd t d a b c => exact encodes_fDABC (by decide) t.code_lt (by decide) (decDABC_rawF t.ofCode_code rfl) hwf
  | madw gd t d a b c => exact encodes_fDABC (by decide) t.code_lt (by decide) (decDABC_rawF t.ofCode_code rfl) hwf
  | bfi gd t d a b c => exact encodes_fDABC (by decide) t.code_lt (by decide) (decDABC_rawF t.ofCode_code rfl) hwf
  | not gd t d a | pop gd t d a | clz gd t d a | brev gd t d a | mov gd t d a =>
    exact encodes_fDA (by decide) t.code_lt (by decide) (decDA_rawF t.ofCode_code rfl) hwf
  | fclass gd t d a => exact encodes_fDA (by decide) t.code_lt (by decide) (decDA_rawF t.ofCode_code rfl) hwf
  | fadd gd t rm d a b | fsub gd t rm d a b | fmul gd t rm d a b | fscl gd t rm d a b =>
    exact encodes_fDAB (by decide) t.code_lt (Nat.lt_trans rm.code_lt (by decide))
      (bind_of rm.ofCode_mod (decDAB_rawF t.ofCode_code (decide_eq_true rm.code_lt))) hwf
  | hadd2 gd t rm d a b | hmul2 gd t rm d a b =>
    exact encodes_fDAB (by decide) t.code_lt (Nat.lt_trans rm.code_lt (by decide))
      (bind_of rm.ofCode_mod (decDAB_rawF t.ofCode_code (decide_eq_true rm.code_lt))) hwf
  | fma gd t rm d a b c =>
    exact encodes_fDABC (by decide) t.code_lt (Nat.lt_trans rm.code_lt (by decide))
      (bind_of rm.ofCode_mod (decDABC_rawF t.ofCode_code (decide_eq_true rm.code_lt))) hwf
  | hfma2 gd t rm d a b c =>
    exact encodes_fDABC (by decide) t.code_lt (Nat.lt_trans rm.code_lt (by decide))
      (bind_of rm.ofCode_mod (decDABC_rawF t.ofCode_code (decide_eq_true rm.code_lt))) hwf
  | frnd gd t rm d a =>
    exact encodes_fDA (by decide) t.code_lt (Nat.lt_trans rm.code_lt (by decide))
      (bind_of rm.ofCode_mod (decDA_rawF t.ofCode_code (decide_eq_true rm.code_lt))) hwf
  | frcp gd t rm tk d a | frsq gd t rm tk d a | fsqrt gd t rm tk d a => exact encodes_fTokDA (by decide) t.code_lt (decTokDA_rawF t.ofCode_code) hwf
  | fexp2 gd t rm tk d a | flog2 gd t rm tk d a | fsin gd t rm tk d a | fcos gd t rm tk d a =>
    exact encodes_fTokDA (by decide) t.code_lt (decTokDA_rawF t.ofCode_code) hwf
  | addi gd d a imm | andi gd d a imm | ori gd d a imm | xori gd d a imm | muli gd d a imm | faddi gd d a imm | fmuli gd d a imm =>
    exact encodes_iDA (by decide) imm.isLt decI_rawI hwf
  | nop | rett | yield => exact encodes_fBare (by decide) (by decide) rfl hwf
  | exit gd => exact encodes_fBare (by decide) (by decide) rfl hwf
  | trap gd n | brk gd n => exact encodes_fBare (by decide) n.isLt (congrArg _ (congrArg _ (ofNat_toNat n))) hwf
  | region f => exact encodes_fBare (by decide) (by cases f <;> decide) (by cases f <;> rfl) hwf
  | tmask gd n => exact encodes_fBare (by decide) (by cases n <;> decide) (by cases n <;> rfl) hwf
  | dly n =>
    refine encodes_fBare (by decide) (Nat.lt_trans n.isLt (by decide)) ?_ hwf
    exact bind_of (fin?_coe n) rfl
  | sel gd t d a b p inv =>
    have hi := b2n_lt inv
    have hp : (p.val + b2n inv * 8) % 8 = p.val := by omega
    have hinv : (p.val + b2n inv * 8) / 8 = b2n inv := by omega
    refine encodes_fDAB (by decide) t.code_lt (by omega) (bind_of (fin?_val hp) ?_) hwf
    refine (decDAB_rawF (mk := (.sel · · · · · p _)) t.ofCode_code (decide_eq_true (by change p.val + b2n inv * 8 < 16; omega))).trans ?_
    exact congrArg (fun s => some (Instr.sel gd t d a b p s)) ((congrArg (· == 1) hinv).trans (b2n_beq inv))
  | lea gd t d a b sh =>
    exact encodes_fDAB (by decide) t.code_lt (Nat.lt_trans sh.isLt (by decide)) (bind_of (fin?_coe sh) (decDAB_rawF t.ofCode_code rfl)) hwf
  | cmp gd t cc d a b =>
    refine encodes_fWord (by decide) (by omega) a.num_lt b.num_lt (by decide) t.code_lt (Nat.lt_trans cc.code_lt (by decide)) (by decide) ?_ hwf
    exact bind_of t.ofCode_code (bind_of cc.ofCode_code (bind_of (fin?_coe d) (bind_of aF_rawF (bind_of bF_rawF rfl))))
  | fcmp gd t cc d a b =>
    refine encodes_fWord (by decide) (by omega) a.num_lt b.num_lt (by decide) t.code_lt (Nat.lt_trans cc.code_lt (by decide)) (by decide) ?_ hwf
    exact bind_of t.ofCode_code (bind_of cc.ofCode_code (bind_of (fin?_coe d) (bind_of aF_rawF (bind_of bF_rawF rfl))))
  | plog gd d a b c tt =>
    refine encodes_fWord (by decide) (by omega) (by omega) (by omega) (by omega) (by decide) tt.isLt (by decide) ?_ hwf
    exact bind_of (fin?_coe d) (bind_of (fin?_coe a) (bind_of (fin?_coe b) (bind_of (fin?_coe c)
      (congrArg (fun x => some (Instr.plog gd d a b c x)) (ofNat_toNat tt)))))
  | fdiv gd t rm tk d a b =>
    refine encodes_fWord tk.isLt d.isLt a.num_lt b.num_lt (by decide) t.code_lt (Nat.lt_trans rm.code_lt (by decide)) (by decide) ?_ hwf
    exact bind_of t.ofCode_code (bind_of rm.ofCode_code (bind_of (fin?_coe tk) (bind_of (fin?_coe d) (bind_of aF_rawF (bind_of bF_rawF rfl)))))
  | fcvt gd t src rm d a =>
    have hr := rm.code_lt
    have hs := src.code_lt
    have hrm : RM.ofCode ((rm.code + src.code * 8) % 8) = some rm := by rw [Nat.add_mul_mod_self_right]; exact rm.ofCode_mod
    have hsrc : FTy.ofCode ((rm.code + src.code * 8) / 8) = some src := by
      rw [Nat.add_mul_div_right _ _ (by decide), Nat.div_eq_of_lt hr, Nat.zero_add]; exact src.ofCode_code
    exact encodes_fDA (by decide) t.code_lt (by omega) (bind_of hrm (bind_of hsrc (decDA_rawF (mk := (.fcvt · · src rm)) t.ofCode_code rfl))) hwf
  | icvt gd t src rm d a =>
    have hr := rm.code_lt
    have hs := src.code_lt
    have hrm : RM.ofCode ((rm.code + src.code * 8) % 8) = some rm := by rw [Nat.add_mul_mod_self_right]; exact rm.ofCode_mod
    have hsrc : WTy.ofCode ((rm.code + src.code * 8) / 8) = some src := by
      rw [Nat.add_mul_div_right _ _ (by decide), Nat.div_eq_of_lt hr, Nat.zero_add]; exact src.ofCode_code
    exact encodes_fDA (by decide) t.code_lt (by omega) (bind_of hrm (bind_of hsrc (decDA_rawF (mk := (.icvt · · src rm)) t.ofCode_code rfl))) hwf
  | shfl gd t m wl d a b c =>
    have hm := m.code_lt
    have hm' : ShflMode.ofCode ((m.code + wl.val * 4) % 4) = some m := by
      rw [Nat.add_mul_mod_self_right, Nat.mod_eq_of_lt hm]; exact m.ofCode_code
    have hwl : (m.code + wl.val * 4) / 4 = wl.val := by omega
    refine encodes_fWord (by decide) d.isLt a.isLt b.num_lt (by omega) t.code_lt (by omega) (by decide) ?_ hwf
    exact bind_of t.ofCode_code (bind_of hm' (bind_of (fin?_val hwl) (bind_of (fin?_coe d) (bind_of (fin?_coe a) (bind_of bF_rawF
      (bind_of (fin?_coe c) rfl))))))
  | vote gd op a c =>
    cases op with
    | pred m d =>
      cases m <;> exact encodes_fWord (by decide) (by omega) (by omega) (by decide) (by omega) (by decide) (by decide) (by decide)
        (bind_of (fin?_coe a) (bind_of (fin?_coe c) (bind_of (req_true rfl) (bind_of (fin?_coe d) rfl)))) hwf
    | reg m d =>
      cases m <;> exact encodes_fWord (Nat.lt_trans d.dg_lt (by decide)) d.num_lt (by omega) (by decide) (by omega) (by decide)
        (by decide) (by decide) (bind_of (fin?_coe a) (bind_of (fin?_coe c) (bind_of (req_true rfl) (bind_of dF_rawF rfl)))) hwf
  | ficvt gd t src rm d a =>
    have hr := rm.code_lt
    have hs := src.code_lt
    have hrm : RM.ofCode ((rm.code + src.code * 8) % 8) = some rm := by rw [Nat.add_mul_mod_self_right]; exact rm.ofCode_mod
    have hsrc : FTy.ofCode ((rm.code + src.code * 8) / 8) = some src := by
      rw [Nat.add_mul_div_right _ _ (by decide), Nat.div_eq_of_lt hr, Nat.zero_add]; exact src.ofCode_code
    exact encodes_fDA (by decide) t.code_lt (by omega) (bind_of hrm (bind_of hsrc (decDA_rawF (mk := (.ficvt · · src rm)) t.ofCode_code rfl))) hwf
  | redl gd op scan d a c =>
    have ho := op.op_lt
    have hs := b2n_lt scan
    have hop : RedlOp.ofCode ((op.op + b2n scan * 8) % 8) op.ty = some op := by
      rw [Nat.add_mul_mod_self_right, Nat.mod_eq_of_lt ho]; exact op.ofCode_code
    have hscan : (op.op + b2n scan * 8) / 8 = b2n scan := by omega
    refine encodes_fWord (Nat.lt_trans d.dg_lt (by decide)) d.num_lt a.num_lt (by decide) (by omega) op.ty_lt (by omega) (by decide) ?_ hwf
    refine bind_of hop (bind_of dF_rawF (bind_of aF_rawF (bind_of (fin?_coe c) (bind_of (req_true (decide_eq_true ?_)) ?_))))
    · change op.op + b2n scan * 8 < 16
      omega
    · exact congrArg (fun x => some (Instr.redl gd op x d a c)) ((congrArg (· == 1) hscan).trans (b2n_beq scan))
  | qcvt gd t f sat d a pos =>
    have hs := b2n_lt sat
    have hf := f.code_lt
    have hf' : NFmt.ofCode ((f.code + b2n sat * 32) % 32) = some f := by
      rw [Nat.add_mul_mod_self_right, Nat.mod_eq_of_lt (by omega)]; exact f.ofCode_code
    have hsat : (f.code + b2n sat * 32) / 32 = b2n sat := by omega
    refine encodes_fWord (by decide) d.isLt a.num_lt (by decide) (by omega) t.code_lt (by omega) (by decide) ?_ hwf
    refine bind_of t.ofCode_code (bind_of hf' (bind_of (fin?_coe d) (bind_of aF_rawF (bind_of (fin?_coe pos)
      (bind_of (req_true (decide_eq_true ?_)) ?_)))))
    · change f.code + b2n sat * 32 < 64
      omega
    · exact congrArg (fun x => some (Instr.qcvt gd t f x d a pos)) ((congrArg (· == 1) hsat).trans (b2n_beq sat))
  | qexp gd t src d a pos =>
    cases src with
    | narrow f =>
      have hf := f.code_lt
      refine encodes_fWord (Nat.lt_trans d.dg_lt (by decide)) d.num_lt a.num_lt (by decide) (by omega) t.code_lt (by omega) (by decide) ?_ hwf
      refine bind_of t.ofCode_code (bind_of dF_rawF (bind_of aF_rawF (bind_of (fin?_coe pos) ((if_neg ?_).trans (bind_of (a := .narrow f) ?_ rfl)))))
      · change f.code ≠ 32
        omega
      · exact congrArg (Option.map QSrc.narrow) f.ofCode_code
    | s10 =>
      exact encodes_fWord (Nat.lt_trans d.dg_lt (by decide)) d.num_lt a.num_lt (by decide) (by omega) t.code_lt (by decide) (by decide)
        (bind_of t.ofCode_code (bind_of dF_rawF (bind_of aF_rawF (bind_of (fin?_coe pos) rfl)))) hwf
  | fdot4 gd rm ae be d a b c =>
    have hr := rm.code_lt
    have hrm : ∀ x y, RM.ofCode ((rm.code + b2n x * 8 + b2n y * 16) % 8) = some rm := by
      intro x y
      rw [show (rm.code + b2n x * 8 + b2n y * 16) % 8 = rm.code % 8 by omega]; exact rm.ofCode_mod
    have hc : (rawF gd d.dg d.num a.num b.num c.val 10 a.isG b.isG (rm.code + b2n ae * 8 + b2n be * 16)).cV = some c := fin?_coe c
    have hx := b2n_lt ae
    have hy := b2n_lt be
    have h8 : (rm.code + b2n ae * 8 + b2n be * 16) / 8 % 2 = b2n ae := by omega
    have h16 : (rm.code + b2n ae * 8 + b2n be * 16) / 16 = b2n be := by omega
    refine encodes_fDABC (by decide) (by decide) (by omega) ?_ hwf
    refine bind_of (hrm ae be) (bind_of dF_rawF (bind_of aF_rawF (bind_of bF_rawF (bind_of hc (bind_of (req_true (decide_eq_true ?_)) ?_)))))
    · change rm.code + b2n ae * 8 + b2n be * 16 < 32
      omega
    · exact congrArg₂ (fun x y => some (Instr.fdot4 gd rm x y d a b c)) ((congrArg (· == 1) h8).trans (b2n_beq ae))
        ((congrArg (· == 1) h16).trans (b2n_beq be))
  | scvt gd f d a =>
    exact encodes_fDA (by decide) (by decide) (Nat.lt_trans f.code_lt (by decide))
      (bind_of f.ofCode_code (bind_of dF_rawF (bind_of aF_rawF rfl))) hwf
  | leai gd d a off sh =>
    have h27 : (sh.val * 2 ^ 27 + off.toNat) / 2 ^ 27 = sh.val := by omega
    have hoff : BitVec.ofNat 27 (sh.val * 2 ^ 27 + off.toNat) = off :=
      BitVec.eq_of_toNat_eq (by rw [BitVec.toNat_ofNat]; omega)
    have ha : (rawI gd (d.dg + b2n a.isG * 4) d.num a.num (sh.val * 2 ^ 27 + off.toNat)).aI = some a := aI_rawI
    exact encodes_iDA (by decide) (by omega) (bind_of (dI_rawI (b2n_lt _)) (bind_of ha (bind_of (fin?_val h27)
      (congrArg (fun x => some (Instr.leai gd d a x sh)) hoff)))) hwf
  | movi gd d imm =>
    have hd : (rawI gd d.dg d.num 0 imm.toNat).dI = some d := dI_rawI (y := 0) (by decide)
    have h4 : d.dg / 4 % 2 = 0 := by unfold Reg.dg; omega
    have hr : ((rawI gd d.dg d.num 0 imm.toNat).a == 0 && (rawI gd d.dg d.num 0 imm.toNat).tk / 4 % 2 == 0) = true := by
      change (0 == 0 && d.dg / 4 % 2 == 0) = true
      rw [h4]; rfl
    exact encodes_iWord (by decide) (Nat.lt_trans d.dg_lt (by decide)) d.num_lt (by decide) imm.isLt
      (bind_of hd (bind_of (req_true hr) (congrArg (fun x => some (Instr.movi gd d x)) (ofNat_toNat imm)))) hwf
  | fmovi gd d imm =>
    have hd : (rawI gd d.dg d.num 0 imm.toNat).dI = some d := dI_rawI (y := 0) (by decide)
    have h4 : d.dg / 4 % 2 = 0 := by unfold Reg.dg; omega
    have hr : ((rawI gd d.dg d.num 0 imm.toNat).a == 0 && (rawI gd d.dg d.num 0 imm.toNat).tk / 4 % 2 == 0) = true := by
      change (0 == 0 && d.dg / 4 % 2 == 0) = true
      rw [h4]; rfl
    exact encodes_iWord (by decide) (Nat.lt_trans d.dg_lt (by decide)) d.num_lt (by decide) imm.isLt
      (bind_of hd (bind_of (req_true hr) (congrArg (fun x => some (Instr.fmovi gd d x)) (ofNat_toNat imm)))) hwf
  | cmpi gd cc uns d a imm =>
    have hcc := cc.code_lt
    have hu := b2n_lt uns
    have ha := b2n_lt a.isG
    have hcc' : Cond.ofCode ((d.val + cc.code * 8 + b2n uns * 64) / 8 % 8) = some cc := by
      rw [show (d.val + cc.code * 8 + b2n uns * 64) / 8 % 8 = cc.code by omega]; exact cc.ofCode_code
    have hd : (d.val + cc.code * 8 + b2n uns * 64) % 8 = d.val := by omega
    have hu' : (d.val + cc.code * 8 + b2n uns * 64) / 64 = b2n uns := by omega
    have ha' : (rawI gd (b2n a.isG * 4) (d.val + cc.code * 8 + b2n uns * 64) a.num imm.toNat).aI = some a := by
      have := aI_rawI (gd := gd) (a := a) (x := d.val + cc.code * 8 + b2n uns * 64) (y := 0) (imm := imm.toNat)
      rwa [Nat.zero_mul, Nat.zero_add] at this
    have hr : ((rawI gd (b2n a.isG * 4) (d.val + cc.code * 8 + b2n uns * 64) a.num imm.toNat).tk / 8 == 0 &&
        (rawI gd (b2n a.isG * 4) (d.val + cc.code * 8 + b2n uns * 64) a.num imm.toNat).d < 128) = true := by
      change (b2n a.isG * 4 / 8 == 0 && decide (d.val + cc.code * 8 + b2n uns * 64 < 128)) = true
      rw [decide_eq_true (by omega), show b2n a.isG * 4 / 8 = 0 by omega]; rfl
    exact encodes_iWord (by decide) (by omega) (by omega) a.num_lt imm.isLt
      (bind_of hcc' (bind_of (fin?_val hd) (bind_of ha' (bind_of (req_true hr) (congrArg₂ (fun x y => some (Instr.cmpi gd cc x d a y))
        ((congrArg (· == 1) hu').trans (b2n_beq uns)) (ofNat_toNat imm)))))) hwf
  | bra gd h off join =>
    have hoff : BitVec.ofNat 18 ((off.toNat * 2 ^ 12 + join.toNat) / 2 ^ 12) = off :=
      BitVec.eq_of_toNat_eq (by rw [BitVec.toNat_ofNat]; omega)
    have hjoin : BitVec.ofNat 12 (off.toNat * 2 ^ 12 + join.toNat) = join := BitVec.eq_of_toNat_eq (by rw [BitVec.toNat_ofNat]; omega)
    exact encodes_iWord (by decide) (by decide) (Nat.lt_trans h.code_lt (by decide)) (by decide) (by omega)
      (bind_of h.ofCode_code (congrArg₂ (fun x y => some (Instr.bra gd h x y)) hoff hjoin)) hwf
  | call gd d off mask =>
    have hoff : BitVec.ofNat 18 ((off.toNat * 2 ^ 12 + mask.toNat) / 2 ^ 12) = off :=
      BitVec.eq_of_toNat_eq (by rw [BitVec.toNat_ofNat]; omega)
    have hmask : BitVec.ofNat 12 (off.toNat * 2 ^ 12 + mask.toNat) = mask := BitVec.eq_of_toNat_eq (by rw [BitVec.toNat_ofNat]; omega)
    exact encodes_iWord (by decide) (by decide) (by omega) (by decide) (by omega)
      (bind_of (fin?_coe d) (congrArg₂ (fun x y => some (Instr.call gd d x y)) hoff hmask)) hwf
  | jmp gd a | ret gd a =>
    exact encodes_fWord (by decide) (by decide) (by omega) (by decide) (by decide) (by decide) (by decide) (by decide)
      (bind_of (fin?_coe a) rfl) hwf
  | callr gd d a mask =>
    have hm : BitVec.ofNat 12 (mask.toNat / 256 * 256 + mask.toNat % 256) = mask :=
      BitVec.eq_of_toNat_eq (by rw [BitVec.toNat_ofNat]; omega)
    have hb : decide (mask.toNat / 256 < 16) = true := decide_eq_true (by omega)
    refine encodes_fWord (by decide) (by omega) (by omega) (by omega) (by decide) (by decide) (by omega) (by decide) ?_ hwf
    refine bind_of (fin?_coe d) (bind_of (fin?_coe a) (bind_of (req_true ?_) (congrArg (fun x => some (Instr.callr gd d a x)) hm)))
    change (decide (mask.toNat / 256 < 16) && _ && _ && _) = true
    rw [hb]; rfl
  | bsync c =>
    exact encodes_fWord (by decide) (by decide) (by decide) (by decide) (by omega) (by decide) (by decide) (by decide)
      (bind_of (fin?_coe c) rfl) hwf
  | csrr gd t d idx | cntrd gd t d idx =>
    exact encodes_fWord (Nat.lt_trans d.dg_lt (by decide)) d.num_lt (by decide) (by decide) (by decide) t.code_lt idx.isLt (by decide)
      (bind_of t.ofCode_code (bind_of dF_rawF (congrArg _ (congrArg _ (ofNat_toNat idx))))) hwf
  | csrw gd t idx a =>
    exact encodes_fWord (by decide) (by decide) a.num_lt (by decide) (by decide) t.code_lt idx.isLt (by decide)
      (bind_of t.ofCode_code (bind_of aF_rawF (congrArg (fun x => some (Instr.csrw gd t x a)) (ofNat_toNat idx)))) hwf
  | genrd gd d =>
    exact encodes_fWord (Nat.lt_trans d.dg_lt (by decide)) d.num_lt (by decide) (by decide) (by decide) (by decide) (by decide) (by decide)
      (bind_of dF_rawF rfl) hwf
  | waitt gd tk n =>
    exact encodes_fWord tk.isLt (by decide) (by decide) (by decide) (by decide) (by decide) (by omega) (by decide)
      (bind_of (fin?_coe tk) (bind_of (fin?_coe n) rfl)) hwf
  | tkst gd tk clr d =>
    refine encodes_fWord tk.isLt (by omega) (by decide) (by decide) (by decide) (by decide) (Nat.lt_trans (b2n_lt clr) (by decide)) (by decide) ?_ hwf
    cases clr <;> exact bind_of (fin?_coe tk) (bind_of (fin?_coe d) rfl)
  | cntctl gd a b k =>
    exact encodes_fWord (by decide) (by decide) (by omega) (by omega) (by decide) (by decide) (by omega) (by decide)
      (bind_of (fin?_coe a) (bind_of (fin?_coe b) (bind_of (fin?_coe k) rfl))) hwf
  | lyset gd n op a | tplset gd n op a =>
    exact encodes_fWord (by decide) (by omega) (by omega) (by decide) (by decide) (by decide) (Nat.lt_trans op.code_lt (by decide)) (by decide)
      (bind_of (fin?_coe n) (bind_of op.ofCode_code (bind_of (fin?_coe a) rfl))) hwf
  | lyget gd d n sel | tplget gd d n sel =>
    exact encodes_fWord (by decide) (by omega) (by omega) (by decide) (by decide) (by decide) (Nat.lt_trans sel.code_lt (by decide)) (by decide)
      (bind_of (fin?_coe d) (bind_of (fin?_coe n) (bind_of sel.ofCode_code rfl))) hwf
  | tlbinv gd m sc =>
    cases m with
    | page a b =>
      refine encodes_fWord (by decide) (by decide) (by omega) (by omega) (by decide) (by decide) (by cases sc <;> decide) (by decide) ?_ hwf
      cases sc <;> simp [decodeOp, decodeOpB, rawF, TlbScope.code, TlbScope.ofCode, Raw.aG, Raw.bG, Raw.noD, Raw.noC, greg, fin?_coe, req]
    | space b =>
      refine encodes_fWord (by decide) (by decide) (by decide) (by omega) (by decide) (by decide) (by cases sc <;> decide) (by decide) ?_ hwf
      cases sc <;> simp [decodeOp, decodeOpB, rawF, TlbScope.code, TlbScope.ofCode, Raw.bG, Raw.noA, Raw.noD, Raw.noC, greg, fin?_coe, req]
    | all =>
      refine encodes_fWord (by decide) (by decide) (by decide) (by decide) (by decide) (by decide) (by cases sc <;> decide) (by decide) ?_ hwf
      cases sc <;> simp [decodeOp, decodeOpB, rawF, TlbScope.code, TlbScope.ofCode, Raw.noA, Raw.noB, Raw.noD, Raw.noC, req]
  | fgset gd o a =>
    refine encodes_fWord (by decide) (by decide) (by omega) (by decide) (by decide) (by decide) (Nat.lt_trans (b2n_lt o) (by decide)) (by decide) ?_ hwf
    cases o <;> exact bind_of (fin?_coe a) rfl
  | hdlset gd a b =>
    exact encodes_fWord (by decide) (by decide) (by omega) (by omega) (by decide) (by decide) (by decide) (by decide)
      (bind_of (fin?_coe a) (bind_of (fin?_coe b) rfl)) hwf
  | sysc gd tk d a na nr svc =>
    refine encodes_eWord (by decide) tk.isLt (by omega) (fun e he => ?_) hwf
    have h1 : bits e 45 38 = d.val ∧ bits e 37 30 = a.val ∧ bits e 29 26 = na.val ∧ bits e 25 22 = nr.val ∧ bits e 21 14 = 0 ∧
      bits e 13 0 = svc.toNat := by unfold bits; omega
    simp [decodeOp, decodeOp9, rawE, Raw.tok, Raw.ef, vreg, h1, fin?_coe, req]
  | barinit gd b | barinv gd b =>
    refine encodes_eWord (by decide) (by decide) (by omega) (fun e he => ?_) hwf
    obtain ⟨hb, hd, ha, h0⟩ := bar_fields (d := 0) (a := 0) he
    simp [decodeOp, decodeOpA, rawE, Raw.ef, hb, hd, ha, h0, fin?_coe, req]
  | bararv gd b a | barxb gd b a =>
    refine encodes_eWord (by decide) (by decide) (by omega) (fun e he => ?_) hwf
    obtain ⟨hb, hd, ha, h0⟩ := bar_fields (d := 0) (a := a) he
    simp [decodeOp, decodeOpA, rawE, Raw.ef, greg, hb, hd, ha, h0, fin?_coe, req]
  | bartest gd b d =>
    refine encodes_eWord (by decide) (by decide) (by omega) (fun e he => ?_) hwf
    obtain ⟨hb, hd, ha, h0⟩ := bar_fields (d := d) (a := 0) he
    simp [decodeOp, decodeOpA, rawE, Raw.ef, greg, hb, hd, ha, h0, fin?_coe, req]
  | barwait gd b d tk =>
    have ht := b2n_lt tk.isSome
    refine encodes_eWord (by decide) (tokNum_lt tk) (by omega) (fun e he => ?_) hwf
    have h1 : bits e 29 26 = b.val ∧ bits e 45 38 = d.val ∧ bits e 37 30 = 0 ∧ bits e 24 0 = 0 ∧ bits e 25 25 = b2n tk.isSome := by
      unfold bits; omega
    cases tk <;> simp [decodeOp, decodeOpA, rawE, Raw.tok, Raw.ef, greg, tokNum, h1, fin?_coe, b2n, req]
    exact rfl
  | ld gd tk d m z sem =>
    refine encodes_eWord (by decide) tk.isLt loadBits_lt (fun e he => ?_) hwf
    obtain ⟨hl, h0⟩ := decLoad_rawE (gd := gd) (tk := tk) he
    exact bind_of hl (bind_of (req_true (by simp [rawE, Raw.ef, h0, b2n])) rfl)
  | lds gd tk d m z sem sp =>
    refine encodes_eWord (by decide) tk.isLt loadBits_lt (fun e he => ?_) hwf
    obtain ⟨hl, h0⟩ := decLoad_rawE (gd := gd) (tk := tk) he
    exact bind_of hl (congrArg (fun b => some (Instr.lds gd tk d m z sem b)) ((congrArg (· == 1) h0).trans (b2n_beq sp)))
  | st gd tk d m z sem =>
    refine encodes_eWord (by decide) (tokNum_lt tk) storeBits_lt (fun e he => ?_) hwf
    obtain ⟨hl, h0⟩ := decStore_rawE (gd := gd) (tk := tk) he
    exact bind_of hl (bind_of (req_true (by simp [rawE, Raw.ef, h0, b2n])) rfl)
  | sts gd tk d m z sem sp =>
    refine encodes_eWord (by decide) (tokNum_lt tk) storeBits_lt (fun e he => ?_) hwf
    obtain ⟨hl, h0⟩ := decStore_rawE (gd := gd) (tk := tk) he
    exact bind_of hl (congrArg (fun b => some (Instr.sts gd tk d m z sem b)) ((congrArg (· == 1) h0).trans (b2n_beq sp)))
  | ldc gd tk d gb off z =>
    have hz := z.code_lt
    have ho := off.isLt
    refine encodes_eWord (by decide) tk.isLt (by omega) (fun e he => ?_) hwf
    have h1 : bits e 45 38 = d.val ∧ bits e 37 32 = gb.val ∧ bits e 31 23 = 0 ∧ bits e 22 20 = z.code ∧ bits e 19 13 = 0 ∧
      bits e 12 0 = off.toNat := by unfold bits; omega
    simp [decodeOp, decodeOpC, rawE, Raw.tok, Raw.ef, greg, h1, fin?_coe, LdcSz.ofCode_code, req]
  | prf gd lv m =>
    have hl := lv.code_lt
    have hm := m.code_lt
    refine encodes_eWord (by decide) (by decide) (by omega) (fun e he => ?_) hwf
    have hx := b2n_lt m.xe
    unfold MemOpnd.code at he
    have h1 : bits e 45 38 = 0 ∧ bits e 22 20 = 0 ∧ bits e 17 13 = 0 ∧ bits e 19 18 = lv.code ∧ bits e 37 32 = m.gb.val ∧
      bits e 31 24 = m.vx.val ∧ bits e 23 23 = b2n m.xe ∧ bits e 12 0 = m.off.toNat := by unfold bits; omega
    obtain ⟨ha, hb, hc, hlv, hgb, hvx, hxe, hoff⟩ := h1
    refine bind_of ((congrArg PrfLevel.ofCode hlv).trans lv.ofCode_code) (bind_of (mem_rawE hgb hvx hxe hoff) (bind_of (req_true ?_) rfl))
    simp [rawE, Raw.ef, ha, hb, hc]
  | acp gd tk d m z bar =>
    have hm := m.code_lt
    have hz := z.acpCode_lt
    have ht := b2n_lt tk.isSome
    have hbs := b2n_lt bar.isSome
    generalize hbn : (match bar with | some b => b.val | none => 0) = bn
    have hb16 : bn < 16 := by subst hbn; cases bar with | none => decide | some b => exact b.isLt
    have hw' : encode (.acp gd tk d m z bar) = eWord 0xC6 gd (tokNum tk) (d.val * 2 ^ 38 + m.code + z.acpCode * 2 ^ 20 +
      b2n bar.isSome * 2 ^ 19 + bn * 2 ^ 15 + b2n tk.isSome * 2 ^ 14) := by subst hbn; rfl
    rw [hw']
    refine encodes_eWord (by decide) (tokNum_lt tk) (by omega) (fun e he => ?_) hwf
    have hx := b2n_lt m.xe
    unfold MemOpnd.code at he
    have h1 : bits e 45 38 = d.val ∧ bits e 22 20 = z.acpCode ∧ bits e 19 19 = b2n bar.isSome ∧ bits e 18 15 = bn ∧
      bits e 14 14 = b2n tk.isSome ∧ bits e 13 13 = 0 ∧ bits e 37 32 = m.gb.val ∧
      bits e 31 24 = m.vx.val ∧ bits e 23 23 = b2n m.xe ∧ bits e 12 0 = m.off.toNat := by unfold bits; omega
    obtain ⟨hd, hz', hbs', hb', ht', h0, hgb, hvx, hxe, hoff⟩ := h1
    refine bind_of (optTok_rawE (by simp [Raw.ef, rawE, ht', b2n_beq])) (bind_of (fin?_val hd) (bind_of (mem_rawE hgb hvx hxe hoff) ?_))
    refine bind_of (a := (⟨bn, hb16⟩ : Fin 16)) (fin?_val (x := (rawE gd (tokNum tk) e).ef 18 15) hb') ?_
    have hacp : ∀ z', z = z' → (req ((rawE gd (tokNum tk) e).ef 13 13 == 0) >>= fun _ => pure (Instr.acp gd tk d m z'
        (if (rawE gd (tokNum tk) e).ef 19 19 = 1 then some ⟨bn, hb16⟩ else none))) = some (Instr.acp gd tk d m z bar) := by
      intro z' hz''
      subst hz''
      refine bind_of (req_true (by simp [rawE, Raw.ef, h0])) ?_
      simp only [rawE, Raw.ef, hbs']
      cases bar with
      | none => rfl
      | some b => subst hbn; rfl
    simp only [show (rawE gd (tokNum tk) e).ef 22 20 = z.acpCode from hz']
    cases z <;> exact hacp _ rfl
  | atom gd tk d m va o z s =>
    refine encodes_eWord (by decide) tk.isLt (atomBits_lt d.isLt (by decide)) (fun e he => ?_) hwf
    obtain ⟨hm, hd, hva, ho, hz, hsem, hscp, hlow⟩ := amem_rawE (gd := gd) (tk := tk.val) d.isLt (by decide) he
    have h0 : bits e 3 0 = 0 := by unfold bits; omega
    refine bind_of (fin?_coe tk) (bind_of (fin?_val hd) (bind_of hm (bind_of (fin?_val hva) ?_)))
    simp [rawE, Raw.ef, ho, hz, hsem, hscp, h0, AOp.ofCode_code, ASz.ofCode_code, AtSem.ofCode_code, req]
  | red gd tk m va o z s =>
    have ht := b2n_lt tk.isSome
    refine encodes_eWord (by decide) (tokNum_lt tk) (atomBits_lt (by decide) (by omega)) (fun e he => ?_) hwf
    obtain ⟨hm, hd, hva, ho, hz, hsem, hscp, hlow⟩ := amem_rawE (gd := gd) (tk := tokNum tk) (by decide) (by omega) he
    have h0 : bits e 2 2 = b2n tk.isSome ∧ bits e 3 3 = 0 ∧ bits e 1 0 = 0 := by unfold bits; omega
    refine bind_of (optTok_rawE (by simp [Raw.ef, rawE, h0, b2n_beq])) (bind_of hm (bind_of (fin?_val hva) ?_))
    simp [rawE, Raw.ef, hd, ho, hz, hsem, hscp, h0, AOp.ofCode_code, ASz.ofCode_code, AtSem.ofCode_code, req]
  | atoms gd tk d m va o z s sp =>
    have ht := b2n_lt sp
    refine encodes_eWord (by decide) tk.isLt (atomBits_lt d.isLt (by omega)) (fun e he => ?_) hwf
    obtain ⟨hm, hd, hva, ho, hz, hsem, hscp, hlow⟩ := amem_rawE (gd := gd) (tk := tk.val) d.isLt (by omega) he
    have h0 : bits e 3 3 = b2n sp ∧ bits e 2 0 = 0 := by unfold bits; omega
    refine bind_of (fin?_coe tk) (bind_of (fin?_val hd) (bind_of hm (bind_of (fin?_val hva) ?_)))
    simp [rawE, Raw.ef, ho, hz, hsem, hscp, h0, b2n_beq, AOp.ofCode_code, ASz.ofCode_code, AtSem.ofCode_code, req]
  | fence gd k sc =>
    have hk := k.code_lt
    have hs := sc.code_lt
    refine encodes_eWord (by decide) (by decide) (by omega) (fun e he => ?_) hwf
    have h1 : bits e 45 20 = 0 ∧ bits e 19 18 = k.code ∧ bits e 17 15 = sc.code ∧ bits e 14 0 = 0 := by unfold bits; omega
    simp [decodeOp, decodeOpC, rawE, Raw.ef, h1, FenceSem.ofCode_code, Scope.ofCode_code, req]
  | iflush gd gb gl =>
    refine encodes_eWord (by decide) (by decide) (by omega) (fun e he => ?_) hwf
    have h1 : bits e 45 38 = 0 ∧ bits e 37 32 = gb.val ∧ bits e 31 26 = gl.val ∧ bits e 25 0 = 0 := by unfold bits; omega
    simp [decodeOp, decodeOpC, rawE, Raw.ef, greg, h1, fin?_coe, req]
  | isync gd =>
    refine encodes_eWord (by decide) (by decide) (by decide) (fun e he => ?_) hwf
    subst he
    rfl
  | cwb gd tk gb gl inv =>
    have hi := b2n_lt inv
    refine encodes_eWord (by decide) tk.isLt (by omega) (fun e he => ?_) hwf
    have h1 : bits e 45 38 = 0 ∧ bits e 37 32 = gb.val ∧ bits e 31 26 = gl.val ∧ bits e 25 25 = b2n inv ∧ bits e 24 0 = 0 := by
      unfold bits; omega
    simp [decodeOp, decodeOpC, rawE, Raw.tok, Raw.ef, greg, h1, fin?_coe, b2n_beq, req]
  | pinit gd tk ga free =>
    have := b2n_lt free
    refine encodes_eWord (by decide) tk.isLt (by omega) (fun e he => ?_) hwf
    have h := prom_fields (d := 0) (ga := ga) (gv := 0) (scp := 0) (free := free) (by decide) he
    simp [decodeOp, decodeOpC, rawE, Raw.tok, Raw.ef, greg, h, fin?_coe, b2n_beq, req]
  | pfill gd tk ga gv sc =>
    have := sc.code_lt
    refine encodes_eWord (by decide) tk.isLt (promBits_lt (d := 0) sc.code_lt) (fun e he => ?_) hwf
    have h := prom_fields (d := 0) (ga := ga) (gv := gv) (scp := sc.code) (free := false) sc.code_lt he
    simp [decodeOp, decodeOpC, rawE, Raw.tok, Raw.ef, greg, h, fin?_coe, Scope.ofCode_code, b2n, req]
  | pwait gd tk d ga sc =>
    have := sc.code_lt
    refine encodes_eWord (by decide) tk.isLt (promBits_lt (gv := 0) sc.code_lt) (fun e he => ?_) hwf
    have h := prom_fields (d := d) (ga := ga) (gv := 0) (scp := sc.code) (free := false) sc.code_lt he
    simp [decodeOp, decodeOpD, rawE, Raw.tok, Raw.ef, greg, h, fin?_coe, Scope.ofCode_code, b2n, req]
  | pequ gd tk ga gv =>
    refine encodes_eWord (by decide) tk.isLt (promBits_lt (d := 0) (scp := 0) (by decide)) (fun e he => ?_) hwf
    have h := prom_fields (d := 0) (ga := ga) (gv := gv) (scp := 0) (free := false) (by decide) he
    simp [decodeOp, decodeOpD, rawE, Raw.tok, Raw.ef, greg, h, fin?_coe, b2n, req]
  | ptest gd tk d ga sc =>
    have := sc.code_lt
    refine encodes_eWord (by decide) tk.isLt (promBits_lt (gv := 0) sc.code_lt) (fun e he => ?_) hwf
    have h := prom_fields (d := d) (ga := ga) (gv := 0) (scp := sc.code) (free := false) sc.code_lt he
    simp [decodeOp, decodeOpD, rawE, Raw.tok, Raw.ef, greg, h, fin?_coe, Scope.ofCode_code, b2n, req]
  | ldl gd tk d o =>
    refine encodes_eWord (by decide) tk.isLt layBits_lt (fun e he => ?_) hwf
    obtain ⟨hl, hd, h0⟩ := decLay_rawE (gd := gd) (tk := tk.val) he
    exact bind_of (fin?_coe tk) (bind_of (fin?_val hd) (bind_of hl (bind_of (req_true (by simp [rawE, Raw.ef, h0, b2n])) rfl)))
  | stl gd tk d o =>
    refine encodes_eWord (by decide) (tokNum_lt tk) layBits_lt (fun e he => ?_) hwf
    obtain ⟨hl, hd, h0⟩ := decLay_rawE (gd := gd) (tk := tokNum tk) he
    exact bind_of (optTok_rawE (by simp [Raw.ef, rawE, h0, b2n_beq])) (bind_of (fin?_val hd) (bind_of hl rfl))
  | mma gd tk acc la gca lb gcb gf gk | mmaz gd tk acc la gca lb gcb gf gk =>
    exact encodes_eWord (by decide) tk.isLt mmaBits_lt (fun _ he => decMma_rawE he) hwf
  | accz gd tk acc n =>
    refine encodes_eWord (by decide) tk.isLt (by omega) (fun e he => ?_) hwf
    have h1 : bits e 45 40 = acc.val ∧ bits e 39 34 = n.val ∧ bits e 33 0 = 0 := by unfold bits; omega
    simp [decodeOp, decodeOpE, rawE, Raw.tok, Raw.ef, h1, fin?_coe, req]
  | accld gd tk acc l gc tt | accst gd tk acc l gc tt =>
    exact encodes_eWord (by decide) tk.isLt accMemBits_lt (fun _ he => decAccMem_rawE he) hwf
  | accmvGet gd tk acc x gr | accmvPut gd tk acc x gr =>
    refine encodes_eWord (by decide) tk.isLt (accmvBits_lt x.isLt (by decide)) (fun e he => ?_) hwf
    have h := accmv_fields (acc := acc) (gr := gr) (clr := false) x.isLt (by decide) he
    simp [decodeOp, decodeOpE, rawE, Raw.tok, Raw.ef, greg, vreg, h, fin?_coe, b2n, req]
  | accmvStat gd tk acc x gr clr =>
    refine encodes_eWord (by decide) tk.isLt (accmvBits_lt (by omega) (by decide)) (fun e he => ?_) hwf
    have h := accmv_fields (acc := acc) (x := x.val) (gr := gr) (clr := clr) (by omega) (by decide) he
    simp [decodeOp, decodeOpE, rawE, Raw.tok, Raw.ef, greg, h, fin?_coe, b2n_beq, req]
  | accmvCopy gd tk acc x gr =>
    refine encodes_eWord (by decide) tk.isLt (accmvBits_lt (by omega) (by decide)) (fun e he => ?_) hwf
    have h := accmv_fields (acc := acc) (x := x.val) (gr := gr) (clr := false) (by omega) (by decide) he
    simp [decodeOp, decodeOpE, rawE, Raw.tok, Raw.ef, greg, h, fin?_coe, b2n, req]
  | accsc gd tk acc gs i32 =>
    have hi := b2n_lt i32
    refine encodes_eWord (by decide) tk.isLt (by omega) (fun e he => ?_) hwf
    have h1 : bits e 45 40 = acc.val ∧ bits e 39 38 = 0 ∧ bits e 37 32 = gs.val ∧ bits e 31 26 = 0 ∧ bits e 25 24 = b2n i32 ∧
      bits e 23 0 = 0 := by unfold bits; omega
    simp [decodeOp, decodeOpE, rawE, Raw.tok, Raw.ef, greg, h1, fin?_coe, b2n_beq, Nat.le_of_lt_succ hi, req]
  | mtest gd tk d =>
    refine encodes_eWord (by decide) tk.isLt (by omega) (fun e he => ?_) hwf
    have h1 : bits e 45 38 = d.val ∧ bits e 37 0 = 0 := by unfold bits; omega
    simp [decodeOp, decodeOpE, rawE, Raw.tok, Raw.ef, greg, h1, fin?_coe, req]
  | rgacqInit gd rg ga =>
    refine encodes_eWord (by decide) (by decide) (ringBits_lt (d := 0)) (fun e he => ?_) hwf
    have h := ring_fields (d := 0) (ga := ga) (rg := rg) (q := .none) (init := true) he
    simp [decodeOp, decodeOpF, rawE, Raw.ef, greg, h, fin?_coe, b2n, QSel.code, req]
  | rgacq gd d rg =>
    refine encodes_eWord (by decide) (by decide) (ringBits_lt (ga := 0)) (fun e he => ?_) hwf
    have h := ring_fields (d := d) (ga := 0) (rg := rg) (q := .none) (init := false) he
    simp [decodeOp, decodeOpF, rawE, Raw.ef, greg, h, fin?_coe, b2n, QSel.code, req]
  | rgtake gd d rg =>
    refine encodes_eWord (by decide) (by decide) (ringBits_lt (ga := 0)) (fun e he => ?_) hwf
    have h := ring_fields (d := d) (ga := 0) (rg := rg) (q := .none) (init := false) he
    simp [decodeOp, decodeOpF, rawE, Raw.ef, greg, h, fin?_coe, b2n, QSel.code, req]
  | rgcmt gd q rg ga | rgrel gd q rg ga =>
    refine encodes_eWord (by decide) (by decide) (ringBits_lt (d := 0)) (fun e he => ?_) hwf
    have h := ring_fields (d := 0) (ga := ga) (rg := rg) (q := q) (init := false) he
    simp [decodeOp, decodeOpF, rawE, Raw.ef, greg, h, fin?_coe, b2n, QSel.ofCode_code, req]
  | bcopy gd tk ct gs gt nc =>
    refine encodes_eWord (by decide) tk.isLt (by omega) (fun e he => ?_) hwf
    have h1 : bits e 45 40 = ct.val ∧ bits e 39 34 = gs.val ∧ bits e 33 28 = gt.val ∧ bits e 27 26 = nc.val ∧ bits e 25 0 = 0 := by
      unfold bits; omega
    simp [decodeOp, decodeOpF, rawE, Raw.tok, Raw.ef, greg, h1, fin?_coe, req]
  | qfence gd c m n =>
    have hc := b2n_lt c
    have hm := b2n_lt m
    have hn := b2n_lt n
    refine encodes_eWord (by decide) (by decide) (by omega) (fun e he => ?_) hwf
    have h1 : bits e 42 0 = 0 ∧ bits e 43 43 = b2n c ∧ bits e 44 44 = b2n m ∧ bits e 45 45 = b2n n := by unfold bits; omega
    simp [decodeOp, decodeOpF, rawE, Raw.ef, h1, b2n_beq, req]
  | amsg gd tk gx nb =>
    have hn := nb.isLt
    refine encodes_eWord (by decide) tk.isLt (by omega) (fun e he => ?_) hwf
    have h1 : bits e 45 40 = gx.val ∧ bits e 39 33 = nb.toNat ∧ bits e 32 0 = 0 := by unfold bits; omega
    simp [decodeOp, decodeOpF, rawE, Raw.tok, Raw.ef, greg, h1, fin?_coe, req]
  | nsend gd tk gx | nrecv gd tk gx | fput gd tk gx | fget gd tk gx | fcopy gd tk gx | fmrs gd tk gx | fmrl gd tk gx
  | nprobe gd tk gx =>
    exact encodes_eWord (by decide) tk.isLt (by omega) (fun _ he => decNet_rawE he) hwf
  | pairMov d a h | pairAdd d a h | pairSub d a h | pairAnd d a h | pairOr d a h | pairXor d a h | pairShl d a h | pairShr d a h
  | pairSar d a h | pairMin d a h | pairMax d a h | pairFadd d a h | pairFmul d a h | pairFmin d a h | pairFmax d a h
  | pairHadd2 d a h | pairHmul2 d a h | pairAddi d a h | pairShli d a h | pairShri d a h | pairAndi d a h | pairMovi d a h =>
    exact encodes_pWord hwf
  | _ => cases hw

theorem leNat_leBytes (n x : Nat) : leNat (leBytes n x) = x % 256 ^ n := by
  induction n generalizing x with
  | zero => exact (Nat.mod_one x).symm
  | succ n ih =>
    rw [leBytes, leNat, ih, BitVec.toNat_ofNat, show 256 ^ (n + 1) = 256 * 256 ^ n from Nat.pow_succ']
    exact Nat.mod_mul.symm

theorem length_leBytes (n x : Nat) : (leBytes n x).length = n := by
  induction n generalizing x with
  | zero => rfl
  | succ n ih => exact congrArg (· + 1) (ih _)

theorem decodeTableWord_of_encodes {w : Nat} {i : Instr} (h : Encodes w i) : decodeTableWord 64 w = some i := by
  obtain ⟨hlt, hdec⟩ := h
  have hlen : (leBytes 8 w).length = 8 := length_leBytes 8 w
  have hw : leNat ((leBytes 8 w).take 8) = w := by
    rw [List.take_of_length_le hlen.le, leNat_leBytes]
    exact Nat.mod_eq_of_lt hlt
  unfold decodeTableWord decodeBytes
  rw [Nat.mod_eq_of_lt hlt, if_neg (by omega), hw, hdec]

theorem encodes_ne_zero {w : Nat} {i : Instr} (h : Encodes w i) : w ≠ 0 := by
  intro h0
  have hdec : decodeWord 0 = .ok i := h0 ▸ h.2
  exact absurd (hdec.symm.trans (if_pos rfl)) (by simp)

/-- Settles O56: each word's form gives back its fields, and its opcode's row gives back the operands. -/
theorem decodeOfEncode : Obligations.DecodeOfEncode := by
  intro i hword hwf
  have h := encodes_encode i hword hwf
  exact ⟨h.2, h.1, encodes_ne_zero h, decodeTableWord_of_encodes h⟩
end Sys2Proof
end

section
/-!
PROOFS. Transfers of control, reconvergence, leaving, and the entry of a trap (02 R42 to R44, R50, R56; 08 R159 to R165, R168, R170).
-/
namespace Sys2Proof.Machine

/-! ### Taking a trap (R50, R168) -/

/-- Settles O10: a trap that can be taken enters the handler; else `trapEntry` kills the course. -/
theorem trapEntryEffect : Obligations.TrapEntryEffect := by
  intro s x cause detail faddr asy hx
  obtain ⟨-, -, ht, hk, -⟩ := ctx_of hx
  refine ⟨fun hc => trapEntry_entered hx hc cause detail faddr asy, fun hfull => ?_, fun hroom hnone => ?_⟩
  · unfold trapEntry
    simp only [ht, hk]
    exact if_pos hfull
  · have hfree : ¬ Config.trapCap ≤ x.k.frames.length := Nat.not_le.mpr hroom
    unfold trapEntry
    simp only [ht, hk, hfree, hnone, if_false, if_true]

/-! ### Target addresses (R160) -/

theorem targetFault_good {t : Int} (h : GoodTarget t) : targetFault t = none := by
  obtain ⟨hal, hlo, hhi⟩ := h
  unfold targetFault
  have hrange : (t < 0 || (2 ^ 57 : Nat) ≤ t : Bool) = false := by simp; omega
  rw [if_neg (not_not.mpr hal), hrange]
  rfl

theorem targetFault_misaligned {t : Int} (h : t % 8 ≠ 0) : targetFault t = some (.trap 0x02 0 (BitVec.ofInt 64 t)) := if_pos h

theorem targetFault_range {t : Int} (hal : t % 8 = 0) (h : ¬ (0 ≤ t ∧ t < 2 ^ 57)) :
    targetFault t = some (.trap 0x13 0 (BitVec.ofInt 64 t)) := by
  unfold targetFault
  have hrange : (t < 0 || (2 ^ 57 : Nat) ≤ t : Bool) = true := by simp; omega
  rw [if_neg (not_not.mpr hal), hrange]
  rfl

theorem goTo_good {t : Int} {s : State} (h : GoodTarget t) : goTo t s = .jump s (BitVec.ofInt 57 t) := by
  unfold goTo; rw [targetFault_good h]

theorem goTo_misaligned {t : Int} {s : State} (h : t % 8 ≠ 0) : goTo t s = .trap 0x02 0 (BitVec.ofInt 64 t) := by
  unfold goTo; rw [targetFault_misaligned h]

theorem goTo_range {t : Int} {s : State} (hal : t % 8 = 0) (h : ¬ (0 ≤ t ∧ t < 2 ^ 57)) :
    goTo t s = .trap 0x13 0 (BitVec.ofInt 64 t) := by
  unfold goTo; rw [targetFault_range hal h]

theorem ofInt_toNat {w v : Nat} (y : BitVec w) : BitVec.ofInt v (y.toNat : Int) = y.setWidth v := by
  rw [BitVec.ofInt_natCast, BitVec.ofNat_toNat]

/-! ### Transfers of the whole course (R159, R163) -/

section Uniform
variable {x : Ctx} {gd : Guard} {f : Unit → Res}

theorem uniformTransfer_whole (h : WholeCourse x gd) : uniformTransfer x gd f = f () := by
  obtain ⟨heq, hne⟩ := h
  unfold uniformTransfer
  rw [heq]
  simp [show ¬ x.k.lanes = 0#32 from hne]

theorem uniformTransfer_none (h : x.r.exec gd = 0) : uniformTransfer x gd f = x.ok x.k := by
  unfold uniformTransfer
  simp [h]

theorem uniformTransfer_differs (h0 : x.r.exec gd ≠ 0) (h : x.r.exec gd ≠ x.k.lanes) :
    uniformTransfer x gd f = .trap 0x07 (lowestLane (x.k.lanes &&& ~~~ x.r.exec gd)) 0 := by
  unfold uniformTransfer
  simp [h, show ¬ x.r.exec gd = 0#32 from h0]

end Uniform

section Words
variable {s : State} {x : Ctx} {i : Instr} (h : Issues s x i) {body : Ctx → Res}
include h

/-- A word whose effect raises a fault raises it. -/
theorem traps_of (he : exec i s = .next (issue i s body)) {cause detail : Nat} {faddr : W64} (hb : body x = .trap cause detail faddr) :
    Traps s x i cause detail faddr := by
  unfold Traps; rw [he, issue_trap h hb]

/-- A word that answers with its own course goes on at the next word. -/
theorem goes_of_nothing (hp : positionsOf i = 1) (he : exec i s = .next (issue i s body)) (hb : body x = x.ok x.k) :
    Goes s x i x.k (x.k.pc + 8) := goes_of_ok h hp he hb rfl

theorem set_self : x.set x.k = x.s := by
  obtain ⟨rfl, -, -, hk, -⟩ := ctx_of h.1
  exact setCourse_self hk

theorem goes_of_move {pc : Addr} (hp : positionsOf i = 1) (he : exec i s = .next (issue i s body)) (hb : body x = .jump x.s pc) :
    Goes s x i x.k pc := goes_of_jump h hp he (by rw [hb, set_self h]) rfl

end Words

/-! ### The link pair (R163) -/

theorem markClash_noClash (w : RegVal) (ops : List TokOp) : (markClash w ops).map TokOp.noClash = ops.map TokOp.noClash := by
  unfold markClash
  rw [List.map_map]
  refine List.map_congr_left fun o _ => ?_
  rw [Function.comp_apply]
  split <;> rfl

theorem putNow_sameButRegs (k : Course) (n : GReg) (y : W64) : SameButRegs k (k.putNow n y) := ⟨markClash_noClash _ _, rfl⟩

theorem gget_putNow (k : Course) (n : GReg) (y : W64) (m : Nat) : (k.putNow n y).gget m = if m = n.val then y else k.gget m := by
  change vat (Vector.set k.g n.val y n.isLt) m 0 = _
  rw [show Vector.set k.g n.val y n.isLt = k.g.set n y from rfl, vat_set]
  rfl

theorem not_inShadow_putNow (k : Course) (n : GReg) (y : W64) (l : Nat) : ¬ (k.putNow n y).inShadow (256 + n.val) l := by
  rintro ⟨sh, hmem, hname, -⟩
  have := (List.mem_filter.mp hmem).2
  exact absurd hname (by simpa [RegVal.name] using this)

theorem inShadow_of_putNow {k : Course} {n : GReg} {y : W64} {name l : Nat} (h : (k.putNow n y).inShadow name l) : k.inShadow name l := by
  obtain ⟨sh, hmem, hrest⟩ := h
  exact ⟨sh, (List.mem_filter.mp hmem).1, hrest⟩

theorem link_eq {k : Course} {d : GReg} {mask : BitVec 12} (hd : d.val + 1 < 64) :
    k.link d mask = { (k.putNow d (k.pc.zeroExtend 64 + 8)).putNow ⟨d.val + 1, hd⟩ (k.tkmask.zeroExtend 64) with
      tkmask := mask.zeroExtend 16 ||| (k.tkmask &&& 0xF000) } := by
  unfold Course.link
  simp only [d.isLt, hd, dif_pos]

/-- The link pair of a call is written, visible to every later word. -/
theorem link_linked {x : Ctx} {d : GReg} {mask : BitVec 12} (hd : d.val + 1 < 64) : Linked x (x.k.link d mask) d mask := by
  rw [link_eq hd]
  have hsame := (putNow_sameButRegs x.k d (x.k.pc.zeroExtend 64 + 8)).trans
    (putNow_sameButRegs (x.k.putNow d (x.k.pc.zeroExtend 64 + 8)) ⟨d.val + 1, hd⟩ (x.k.tkmask.zeroExtend 64))
  obtain ⟨hops, hrest⟩ := hsame
  refine ⟨⟨hops, rfl⟩, rfl, rfl, rfl, fun m h0 h1 => ?other, ?low, ?high, fun h => ?lowShadow, fun h => ?highShadow⟩
  case other => exact (gget_putNow ..).trans ((if_neg h1).trans ((gget_putNow ..).trans (if_neg h0)))
  case low => exact (gget_putNow ..).trans ((if_neg (by simp)).trans ((gget_putNow ..).trans (if_pos rfl)))
  case high => exact (gget_putNow ..).trans (if_pos rfl)
  case lowShadow => exact not_inShadow_putNow _ _ _ _ (inShadow_of_putNow (k := x.k.putNow d _) h)
  case highShadow =>
    rw [show 257 + d.val = 256 + (d.val + 1) by omega] at h
    exact not_inShadow_putNow _ _ _ _ h

/-- A register run that a word writes lies in its file, and is aligned. -/
theorem dst_wf_of_issues {s : State} {x : Ctx} {i : Instr} (h : Issues s x i) {o : Opnd} (ho : o ∈ i.body.dst) : o.wf = true := by
  have hwf := dst_wf h
  unfold Instr.wf at hwf
  rw [Bool.and_eq_true, Bool.and_eq_true, List.all_eq_true] at hwf
  exact hwf.1.1 o ho

theorem pair_lt_of_issues {s : State} {x : Ctx} {i : Instr} {d : GReg} (h : Issues s x i) (ho : Opnd.g d.val 2 2 ∈ i.body.dst) :
    d.val + 1 < 64 := by
  have := dst_wf_of_issues h ho
  unfold Opnd.wf at this
  simp only [Bool.and_eq_true, decide_eq_true_eq] at this
  omega

/-! ### `bra` (R42, R43, R162) -/

theorem setCourse_addShare (s : State) (c : CRef) (k : Course) (g : Course → Course) (v m n : Nat) :
    ((s.setCourse c k).addShare v m n).modCourse c g = ((s.setCourse c k).modCourse c g).addShare v m n := by
  unfold State.addShare State.modVdev
  rw [show ((s.setCourse c k).modCourse c g).vds = (s.setCourse c k).vds from rfl]
  cases tget? (s.setCourse c k).vds v <;> rfl

/-- A word that transfers, and counts in its device's meter beside. -/
theorem goes_of_jump_counted {s : State} {x : Ctx} {i : Instr} {body : Ctx → Res} {k k' : Course} {pc : Addr} {v m n : Nat} (h : Issues s x i)
    (hp : positionsOf i = 1) (he : exec i s = .next (issue i s body)) (hb : body x = .jump ((x.set k).addShare v m n) pc)
    (hk : { k with pc := pc } = { k' with pc := pc }) : Goes s x i k' pc := by
  obtain ⟨rfl, -, ht, -⟩ := ctx_of h.1
  have htruss : ((x.set k).addShare v m n).truss? x.c.truss = some (x.t.modCourse x.c.course fun _ => k) := by
    rw [show ((x.set k).addShare v m n).truss? x.c.truss = (x.set k).truss? x.c.truss from ?_]
    · unfold Ctx.set State.setCourse State.modCourse
      rw [truss?_modTruss, ht, if_pos rfl]
      rfl
    · unfold State.addShare State.modVdev
      cases tget? (x.set k).vds v <;> rfl
  have hafter : k.after x.s.clk x.t.core 1 pc = k'.after x.s.clk x.t.core 1 pc :=
    (congrArg (fun c : Course => c.after x.s.clk x.t.core 1 pc) hk :)
  refine ⟨_, he, ?_⟩
  rw [issue_jump h hb]
  unfold Done
  rw [← hafter]
  have hfin := finish_quiet htruss i (some pc)
  unfold Ctx.set at hfin ⊢
  rw [setCourse_addShare, setCourse_modCourse, hp] at hfin
  refine (Quiet.addShare _ v m n).trans ?_
  convert hfin using 3
  unfold State.addShare State.modVdev
  cases tget? (x.s.setCourse x.c k).vds v <;> rfl

section Bra
variable {s : State} {x : Ctx} {gd : Guard} {hint : Hint} {off : BitVec 18} {join : BitVec 12}

theorem braEffect_taken (h0 : x.r.exec gd ≠ 0) (ht : GoodTarget (relTarget x.k.pc off)) :
    braEffect x gd hint off join =
      if x.r.exec gd = x.k.lanes then .jump x.s (BitVec.ofInt 57 (relTarget x.k.pc off))
      else if join = 0 then .trap 0x07 0 0
      else if Config.divCap ≤ x.k.div.length then .trap 0x08 0 0
      else
        let k := x.k.split hint (BitVec.ofInt 57 (relTarget x.k.pc off)) join (x.r.exec gd)
        .jump (if hint = .groupUniform then (x.set k).addShare x.t.space 6 1 else x.set k) k.pc := by
  unfold braEffect
  simp only [targetFault_good ht]
  exact if_neg h0

theorem braEffect_badTarget {f : Res} (h0 : x.r.exec gd ≠ 0) (ht : targetFault (relTarget x.k.pc off) = some f) :
    braEffect x gd hint off join = f := by
  unfold braEffect
  simp only [ht]
  exact if_neg h0

/-- A divergent `bra` pushes one path and runs the other. -/
theorem bra_diverges (h : Issues s x (.bra gd hint off join)) (h0 : x.r.exec gd ≠ 0) (ht : GoodTarget (relTarget x.k.pc off))
    (hne : x.r.exec gd ≠ x.k.lanes) (hj : join ≠ 0) (hroom : x.k.div.length < 32) {k' : Course}
    (hk : x.k.split hint (BitVec.ofInt 57 (relTarget x.k.pc off)) join (x.r.exec gd) = k') {k'' : Course}
    (hpc : { k' with pc := k'.pc } = { k'' with pc := k'.pc }) : Goes s x (.bra gd hint off join) k'' k'.pc := by
  have hcap : ¬ Config.divCap ≤ x.k.div.length := Nat.not_le.mpr hroom
  have hb := (braEffect_taken (hint := hint) (join := join) h0 ht).trans
    ((if_neg hne).trans ((if_neg hj).trans (if_neg hcap)))
  simp only [hk] at hb
  by_cases hg : hint = .groupUniform
  · rw [if_pos hg] at hb
    exact goes_of_jump_counted h rfl rfl hb hpc
  · rw [if_neg hg] at hb
    exact goes_of_jump h rfl rfl hb hpc

end Bra

theorem leaks_iff (k : Course) : k.leaks = true ↔ ∃ j : Fin 16, 8 ≤ j.val ∧ j.val ≤ 11 ∧ k.tok[j].count ≠ 0 := by
  unfold Course.leaks
  rw [List.any_eq_true]
  constructor
  · rintro ⟨j, hj, hne⟩
    obtain ⟨hlo, hhi⟩ := List.mem_range'_1.mp hj
    have hj16 : j < 16 := by omega
    rw [vat, dif_pos hj16] at hne
    exact ⟨⟨j, hj16⟩, hlo, Nat.le_of_lt_succ hhi, by simpa using hne⟩
  · rintro ⟨j, hlo, hhi, hne⟩
    refine ⟨j, List.mem_range'_1.mpr ⟨hlo, by omega⟩, ?_⟩
    rw [vat, dif_pos j.isLt]
    simpa using hne

theorem not_leaks {k : Course} (h : ∀ j : Fin 16, 8 ≤ j.val → j.val ≤ 11 → k.tok[j].count = 0) : k.leaks = false := by
  rw [Bool.eq_false_iff]
  intro hl
  obtain ⟨j, hlo, hhi, hne⟩ := (leaks_iff k).mp hl
  exact hne (h j hlo hhi)

/-- Settles O7: `bra` by its four ways on, the transfers of the whole course by `uniformTransfer_whole`. -/
theorem transfersOfControl : Obligations.TransfersOfControl := by
  refine ⟨fun gd hint off join s x h => ?bra, ?jmp, ?call, ?callr, ?ret⟩
  case bra =>
    refine ⟨fun h0 => goes_of_nothing h rfl rfl (if_pos h0), fun h0 ht hall => ?all, fun h0 ht hne hj hroom => ⟨fun hu => ?unlikely, fun hu => ?likely⟩,
      fun h0 hal hr => traps_of h rfl (braEffect_badTarget h0 (targetFault_range hal hr)),
      fun h0 hal => traps_of h rfl (braEffect_badTarget h0 (targetFault_misaligned hal)),
      fun h0 ht hne hj => traps_of h rfl ((braEffect_taken h0 ht).trans ((if_neg hne).trans (if_pos hj))),
      fun h0 ht hne hj hfull => traps_of h rfl ((braEffect_taken h0 ht).trans ((if_neg hne).trans ((if_neg hj).trans (if_pos hfull))))⟩
    case all => exact goes_of_move h rfl rfl ((braEffect_taken h0 ht).trans (if_pos hall))
    case unlikely => exact bra_diverges h h0 ht hne hj hroom (if_pos hu) rfl
    case likely => exact bra_diverges h h0 ht hne hj hroom (if_neg hu) rfl
  case jmp =>
    intro gd a s x h hw ht
    refine goes_of_move h rfl rfl ((uniformTransfer_whole hw).trans ?_)
    rw [goTo_good ht, ofInt_toNat]
  case call =>
    intro gd d off mask s x h hw T ht
    exact ⟨_, link_linked (pair_lt_of_issues h (.head _)), goes_of_jump h rfl rfl ((uniformTransfer_whole hw).trans (goTo_good ht)) rfl⟩
  case callr =>
    intro gd d a mask s x h hw ht
    refine ⟨_, link_linked (pair_lt_of_issues h (.head _)), goes_of_jump h rfl rfl ((uniformTransfer_whole hw).trans ?_) rfl⟩
    rw [goTo_good ht, ofInt_toNat]
  case ret =>
    intro gd a s x h hw htok ht
    refine goes_of_jump h rfl rfl ((uniformTransfer_whole hw).trans ((if_neg (Bool.eq_false_iff.mp (not_leaks htok))).trans ?_)) rfl
    rw [goTo_good ht, ofInt_toNat]

/-! ### Where transfers and `rett` do not go (R159, R160, R163, R170) -/

/-- A transfer of the whole course: what its word does is `uniformTransfer` of something. -/
theorem transfer_uniform {gd : Guard} {i : Instr} (hi : (∃ a, i = .jmp gd a) ∨ (∃ d off mask, i = .call gd d off mask) ∨
    (∃ d a mask, i = .callr gd d a mask) ∨ (∃ a, i = .ret gd a)) :
    ∃ f : Ctx → Unit → Res, positionsOf i = 1 ∧ ∀ s, exec i s = .next (issue i s fun x => uniformTransfer x gd (f x)) := by
  obtain ⟨a, rfl⟩ | ⟨d, off, mask, rfl⟩ | ⟨d, a, mask, rfl⟩ | ⟨a, rfl⟩ := hi <;> exact ⟨_, rfl, fun _ => rfl⟩

/-- A transfer of the whole course to a g register, its other checks met, goes to that address in some state. -/
theorem transfer_register {gd : Guard} {a : GReg} {i : Instr} {s : State} {x : Ctx} (hi : i = .jmp gd a ∨ (∃ d mask, i = .callr gd d a mask) ∨
    i = .ret gd a ∧ (∀ j : Fin 16, 8 ≤ j.val → j.val ≤ 11 → x.k.tok[j].count = 0)) (hw : WholeCourse x gd) :
    ∃ body : Ctx → Res, exec i s = .next (issue i s body) ∧ ∃ s', body x = goTo (x.r.gget a).toNat s' := by
  obtain rfl | ⟨d, mask, rfl⟩ | ⟨rfl, htok⟩ := hi
  · exact ⟨_, rfl, _, uniformTransfer_whole hw⟩
  · exact ⟨_, rfl, _, uniformTransfer_whole hw⟩
  · exact ⟨_, rfl, _, (uniformTransfer_whole hw).trans (if_neg (Bool.eq_false_iff.mp (not_leaks htok)))⟩

/-- A token of t12 to t15 counts more than its snapshot (R170). -/
theorem tokAbove_iff (k : Course) (f : Frame) :
    ((List.range' 12 4).any fun j => decide (f.tokCount j < (vat k.tok j ⟨0, 0⟩).count.toNat)) = true ↔
      ∃ j : Fin 16, 12 ≤ j.val ∧ f.tokCount j < k.tok[j].count.toNat := by
  rw [List.any_eq_true]
  constructor
  · rintro ⟨j, hj, hlt⟩
    obtain ⟨hlo, hhi⟩ := List.mem_range'_1.mp hj
    rw [vat, dif_pos hhi, decide_eq_true_eq] at hlt
    exact ⟨⟨j, hhi⟩, hlo, hlt⟩
  · rintro ⟨j, hlo, hlt⟩
    refine ⟨j, List.mem_range'_1.mpr ⟨hlo, j.isLt⟩, ?_⟩
    rw [vat, dif_pos j.isLt, decide_eq_true_eq]
    exact hlt

theorem syncHeld_iff (k : Course) : (match k.bsync with | some b => b.tsp == k.frames.length | none => false) = true ↔
    ∃ b, k.bsync = some b ∧ b.tsp = k.frames.length := by
  cases k.bsync with
  | none => simp
  | some b => simp

theorem rettEffect_cons {x : Ctx} {f : Frame} {fs : List Frame} (hf : x.k.frames = f :: fs) : rettEffect x =
    if x.k.div.length < f.fdsp then .trap 0x01 0x02 0
    else if (match x.k.bsync with | some b => b.tsp == x.k.frames.length | none => false) then .trap 0x01 0x03 0
    else if (List.range' 12 4).any fun j => f.tokCount j < (vat x.k.tok j ⟨0, 0⟩).count.toNat then .trap 0x0C 0 0
    else if f.fpc.toNat % 8 ≠ 0 then .trap 0x02 0 (f.fpc.zeroExtend 64)
    else .jump (x.set x.k.leave) f.fpc := by
  unfold rettEffect
  rw [hf] <;> rfl

/-- Settles O8: a guard that is not true in all lanes by `uniformTransfer`, bad targets by `goTo`, `rett` by its checks in order. -/
theorem transferAndRettFaults : Obligations.TransferAndRettFaults := by
  refine ⟨⟨fun gd i s x hi h => ?guards, fun gd a i s x hi h hw => ?targets, fun gd d off mask s x h hw => ?relative,
    fun gd a s x h hw hleak => ?leak⟩, fun s x h hf => ?noFrame, fun s x f fs h hf => ?frame⟩
  case guards =>
    obtain ⟨f, hp, he⟩ := transfer_uniform hi
    exact ⟨fun h0 => goes_of_nothing h hp (he s) (uniformTransfer_none h0), fun h0 hne => traps_of h (he s) (uniformTransfer_differs h0 hne)⟩
  case targets =>
    obtain ⟨body, he, s', hb⟩ := transfer_register (s := s) hi hw
    refine ⟨fun hal => traps_of h he (hb.trans ((goTo_misaligned (by omega)).trans ?_)),
      fun hal hr => traps_of h he (hb.trans ((goTo_range (by omega) (by omega)).trans ?_))⟩
    · rw [ofInt_toNat, BitVec.setWidth_eq]
    · rw [ofInt_toNat, BitVec.setWidth_eq]
  case relative =>
    exact ⟨fun hal => traps_of h rfl ((uniformTransfer_whole hw).trans (goTo_misaligned hal)),
      fun hal hr => traps_of h rfl ((uniformTransfer_whole hw).trans (goTo_range hal hr))⟩
  case leak => exact traps_of h rfl ((uniformTransfer_whole hw).trans (if_pos ((leaks_iff x.k).mpr hleak)))
  case noFrame => exact traps_of h rfl (by unfold rettEffect; rw [hf])
  case frame =>
    have hb := rettEffect_cons hf
    refine ⟨fun hd => traps_of h rfl (hb.trans (if_pos hd)), fun hd hs => ?held, fun hd hs hl => ?leakAbove, fun hd hs hl hal => ?pc⟩
    case held => exact traps_of h rfl (hb.trans ((if_neg (Nat.not_lt.mpr hd)).trans (if_pos ((syncHeld_iff _).mpr hs))))
    case leakAbove =>
      exact traps_of h rfl (hb.trans ((if_neg (Nat.not_lt.mpr hd)).trans ((if_neg (mt (syncHeld_iff _).mp hs)).trans
        (if_pos ((tokAbove_iff ..).mpr hl)))))
    case pc =>
      exact traps_of h rfl (hb.trans ((if_neg (Nat.not_lt.mpr hd)).trans ((if_neg (mt (syncHeld_iff _).mp hs)).trans
        ((if_neg (mt (tokAbove_iff ..).mp hl)).trans (if_pos hal)))))

/-! ### `bsync` (R44, R164) -/

/-- `bsync` with no record, or with one of its own place, level and mask. -/
theorem bsyncEffect_fits {x : Ctx} {c : GReg}
    (hfits : ∀ b, x.k.bsync = some b → b.pc = x.k.pc ∧ b.tsp = x.k.frames.length ∧ b.mask = (x.r.gget c).truncate 32) :
    bsyncEffect x c =
      let m : LaneMask := (x.r.gget c).truncate 32
      let arrived := (match x.k.bsync with | some b => b.arrived | none => 0) ||| x.k.lanes
      if x.k.lanes &&& ~~~ m ≠ 0 then .trap 0x05 (lowestLane (x.k.lanes &&& ~~~ m)) 0
      else if arrived = m &&& ~~~ x.k.exited then x.ok { x.k with lanes := m &&& ~~~ x.k.exited, bsync := none }
      else .jump (x.set { x.k with bsync := some ⟨x.k.pc, m, arrived, x.k.frames.length⟩, lanes := 0 }) x.k.pc := by
  unfold bsyncEffect
  cases hb : x.k.bsync with
  | none => rfl
  | some b =>
    obtain ⟨hpc, htsp, hm⟩ := hfits b hb
    simp [hpc, htsp, hm]

theorem bsync_effects : (∀ (c : GReg) s x, Issues s x (.bsync c) →
     let i := Instr.bsync c
     let m : LaneMask := (x.r.gget c).truncate 32
     let need := m &&& ~~~ x.k.exited
     let before : LaneMask := match x.k.bsync with | some b => b.arrived | none => 0
     let fits := ∀ b, x.k.bsync = some b → b.pc = x.k.pc ∧ b.tsp = x.k.frames.length ∧ b.mask = m
     (fits → x.k.lanes &&& ~~~ m = 0 → before ||| x.k.lanes = need →
       Goes s x i { x.k with lanes := need, bsync := none } (x.k.pc + 8)) ∧
     (fits → x.k.lanes &&& ~~~ m = 0 → before ||| x.k.lanes ≠ need →
       Goes s x i { x.k with bsync := some ⟨x.k.pc, m, before ||| x.k.lanes, x.k.frames.length⟩, lanes := 0 } x.k.pc) ∧
     (fits → x.k.lanes &&& ~~~ m ≠ 0 → Traps s x i 0x05 (lowestLane (x.k.lanes &&& ~~~ m)) 0) ∧
     (∀ b, x.k.bsync = some b → (b.pc ≠ x.k.pc ∨ b.tsp ≠ x.k.frames.length) → Traps s x i 0x05 32 0) ∧
     (∀ b, x.k.bsync = some b → b.pc = x.k.pc → b.tsp = x.k.frames.length → b.mask ≠ m → Traps s x i 0x05 (lowestLane (m ^^^ b.mask)) 0)) := by
  intro c s x h
  refine ⟨fun hf hin hall => ?last, fun hf hin hne => ?earlier, fun hf hout => ?outside, fun b hb hne => ?place, fun b hb hpc htsp hm => ?mask⟩
  case last => exact goes_of_ok h rfl rfl ((bsyncEffect_fits hf).trans ((if_neg (not_not.mpr hin)).trans (if_pos hall))) rfl
  case earlier => exact goes_of_jump h rfl rfl ((bsyncEffect_fits hf).trans ((if_neg (not_not.mpr hin)).trans (if_neg hne))) rfl
  case outside => exact traps_of h rfl ((bsyncEffect_fits hf).trans (if_pos hout))
  case place =>
    refine traps_of h rfl ?_
    unfold bsyncEffect
    rw [hb]
    simp only [Bool.or_eq_true, decide_eq_true_eq, hne, if_true]
  case mask =>
    refine traps_of h rfl ?_
    unfold bsyncEffect
    rw [hb]
    simp [hpc, htsp, Ne.symm hm]

/-! ### `exit` (R56, R165) -/

theorem lanes_le_foldl (es : List DivEntry) (m : LaneMask) (l : Nat) (h : m.getLsbD l = true) :
    (es.foldl (fun m e => m ||| e.mask) m).getLsbD l = true := by
  induction es generalizing m with
  | nil => exact h
  | cons e es ih => exact ih _ (by simp [h])

theorem live_of_lanes {k : Course} {l : Nat} (h : k.lanes.getLsbD l = true) : k.live.getLsbD l = true := by
  have := lanes_le_foldl k.div k.lanes l h
  unfold Course.live
  cases k.bsync with
  | none => exact this
  | some b => simp [this]

/-- When no lane is left, no active lane is. -/
theorem lanes_out_of_live {k : Course} {ex : LaneMask} (h : k.live &&& ~~~ ex = 0) : k.lanes &&& ~~~ ex = 0 := by
  refine BitVec.eq_of_getLsbD_eq fun l hl => ?_
  have hbit := congrArg (fun m : LaneMask => m.getLsbD l) h
  simp only [BitVec.getLsbD_and, BitVec.getLsbD_not, hl, decide_true, Bool.true_and] at hbit ⊢
  cases hk : k.lanes.getLsbD l with
  | false => exact (BitVec.getLsbD_zero ..).symm
  | true => rwa [live_of_lanes hk] at hbit

/-- Lanes removed from the saved mask of a frame are out of it. -/
theorem frame_removeLanes (y : W64) (ex : LaneMask) :
    ((y &&& ~~~ (ex.zeroExtend 64 : W64)).truncate 32 : LaneMask) &&& ex = 0 := by
  refine BitVec.eq_of_getLsbD_eq fun l hl => ?_
  have h64 : l < 64 := by omega
  simp [hl, h64, BitVec.truncate_eq_setWidth]

theorem removeLanes_frames {k : Course} {ex : LaneMask} {f : Frame} (hf : f ∈ (k.removeLanes ex).frames) :
    (f.words[3].truncate 32 : LaneMask) &&& ex = 0 := by
  obtain ⟨g, -, rfl⟩ := List.mem_map.mp hf
  rw [show ((g.words.set 3 (g.words[3] &&& ~~~ ((ex.zeroExtend 64 : W64)))))[3] = g.words[3] &&& ~~~ ((ex.zeroExtend 64 : W64)) from
    Vector.getElem_set_self ..]
  exact frame_removeLanes _ _

/-- Settles O9: `bsync` by its record, `exit` by whether a lane is left. -/
theorem bsyncAndExit : Obligations.BsyncAndExit := by
  refine ⟨bsync_effects, fun gd s x h => ⟨fun h0 => goes_of_nothing h rfl rfl (if_pos h0), fun h0 hleak hroll => ?leaves, fun h0 hlast hleak => ?leak⟩⟩
  case leaves =>
    have hl : (decide (x.k.live &&& ~~~ x.r.exec gd = 0) && x.k.leaks) = false := by
      rw [Bool.eq_false_iff, ne_eq, Bool.and_eq_true, decide_eq_true_eq, leaks_iff]
      exact hleak
    have heff : exitEffect x gd = _ := (if_neg h0).trans (if_neg (Bool.eq_false_iff.mp hl))
    by_cases hlast : x.k.live &&& ~~~ x.r.exec gd = 0
    · have hr : ¬ x.k.rollbackPend = true := fun hr => hroll ⟨hlast, hr⟩
      refine ⟨_, goes_of_ok h rfl rfl (heff.trans ((if_pos hlast).trans (if_neg hr))) rfl, rfl, rfl,
        fun f hf => removeLanes_frames hf, List.length_map .., fun hn => absurd hlast hn, fun _ => ⟨lanes_out_of_live hlast, ?_⟩, rfl⟩
      exact (getLsbD_andNot_bit63 _ (by decide)).trans (Bool.and_false _)
    · exact ⟨_, goes_of_ok h rfl rfl (heff.trans (if_neg hlast)) rfl, rfl, rfl,
        fun f hf => removeLanes_frames hf, List.length_map .., fun _ => ⟨rfl, rfl, rfl⟩, fun hl' => absurd hl' hlast, rfl⟩
  case leak =>
    refine traps_of h rfl ((if_neg h0).trans (if_pos ?_))
    rw [Bool.and_eq_true, decide_eq_true_eq, leaks_iff]
    exact ⟨hlast, hleak⟩

end Sys2Proof.Machine
end

section
/-!
PROOFS. The checks of every word (04 R92, 02 R33, R38, 04 R99, 09 R183, R255).
-/
namespace Sys2Proof.Machine

/-- Every instruction word is executed by the issue of it with an effect of its own. -/
theorem exec_of_isWord {i : Instr} (hw : i.isWord = true) (s : State) : ∃ body : Ctx → Res, exec i s = .next (issue i s body) := by
  cases i with
  | vote gd op a c => cases op <;> exact ⟨_, rfl⟩
  | _ => cases hw <;> exact ⟨_, rfl⟩

section Checks
variable {s : State} {x : Ctx} {i : Instr} {body : Ctx → Res} (hx : s.ctx? = some x)
include hx

theorem issue_rejected {cause : Nat} (hr : x.rejects i = some cause) : issue i s body = trapEntry s x.c cause 0 0 false := by
  unfold issue
  simp only [hx, hr]

theorem issue_stalled (hr : x.rejects i = none) (hs : x.stalls i = true) : issue i s body = s := by
  unfold issue
  simp only [hx, hr, hs, if_true]

theorem issue_late {f : LateFault} {fs : List LateFault} (hr : x.rejects i = none) (hs : x.stalls i = false) (hd : deliversLate i = true)
    (hl : x.k.late = f :: fs) :
    issue i s body = trapEntry (s.modCourse x.c fun k => { k with late := fs }) x.c f.cause f.detail f.faddr false := by
  unfold issue
  simp only [hx, hr, hs, hd, hl, if_true, Bool.false_eq_true, if_false]

theorem issue_strict {cause : Nat} (hr : x.rejects i = none) (hs : x.stalls i = false) (hl : deliversLate i = true → x.k.late = [])
    (ht : x.k.strictFault i = some cause) : issue i s body = trapEntry s x.c cause 0 0 false := by
  have hlate : (if deliversLate i then x.k.late else []) = [] := by
    split
    · next hd => exact hl hd
    · rfl
  unfold issue
  simp only [hx, hr, hs, hlate, ht, Bool.false_eq_true, if_false]

end Checks

/-! ### The checks of R92 in order -/

section Rejects
variable {x : Ctx} {i : Instr}

theorem rejects_role (h : roleAllows x.k.role i.opClass = false) : x.rejects i = some 0x03 := by
  unfold Ctx.rejects
  rw [h]
  rfl

theorem rejects_priv (hr : roleAllows x.k.role i.opClass = true) (hk : i.kernelMode = true) (hu : x.t.kernelMode = false) :
    x.rejects i = some 0x17 := by
  unfold Ctx.rejects
  rw [hr, hk, hu]
  rfl

/-- A word that its role and its mode allow is rejected by its form, or by its token. -/
theorem rejects_allowed (hr : roleAllows x.k.role i.opClass = true) (hk : i.kernelMode = true → x.t.kernelMode = true) :
    x.rejects i = if !i.wf || !x.fits i then some 0x01
      else match i.token with
        | some tk => if x.k.tkmask.getLsbD tk then none else some 0x0B
        | none => none := by
  have hpriv : (i.kernelMode && !x.t.kernelMode) = false := by
    cases hm : i.kernelMode with
    | false => rfl
    | true => rw [hk hm]; rfl
  unfold Ctx.rejects
  rw [hr, hpriv]
  rfl

theorem rejects_illegal (hr : roleAllows x.k.role i.opClass = true) (hk : i.kernelMode = true → x.t.kernelMode = true)
    (hw : i.wf = false) : x.rejects i = some 0x01 := by
  rw [rejects_allowed hr hk, hw]
  rfl

theorem rejects_token {tk : Tok} (hr : roleAllows x.k.role i.opClass = true) (hk : i.kernelMode = true → x.t.kernelMode = true)
    (hw : i.wf = true) (hf : x.fits i = true) (ht : i.token = some tk) (hm : x.k.tkmask.getLsbD tk = false) : x.rejects i = some 0x0B := by
  rw [rejects_allowed hr hk, hw, hf, ht]
  exact if_neg (Bool.eq_false_iff.mp hm)

end Rejects

/-! ### Strict tracking (R99, R183) -/

theorem strictFault_read {k : Course} {i : Instr} (hs : k.strict = true) (h : ∃ n ∈ readNames i, n ∈ k.tracked) :
    k.strictFault i = some 0x09 := by
  have hany : (readNames i).any (k.tracked.contains ·) = true := by
    obtain ⟨n, hn, ht⟩ := h
    exact List.any_eq_true.mpr ⟨n, hn, List.contains_iff_mem.mpr ht⟩
  unfold Course.strictFault
  simp only [hs, hany, Bool.not_true, Bool.false_eq_true, if_false, if_true]

theorem strictFault_write {k : Course} {i : Instr} (hs : k.strict = true) (hr : ∀ n ∈ readNames i, n ∉ k.tracked)
    (h : ∃ n ∈ writeNames i, n ∈ k.tracked) : k.strictFault i = some 0x0A := by
  have hread : (readNames i).any (k.tracked.contains ·) = false := by
    rw [List.any_eq_false]
    exact fun n hn ht => hr n hn (List.contains_iff_mem.mp ht)
  have hany : (writeNames i).any (k.tracked.contains ·) = true := by
    obtain ⟨n, hn, ht⟩ := h
    exact List.any_eq_true.mpr ⟨n, hn, List.contains_iff_mem.mpr ht⟩
  unfold Course.strictFault
  simp only [hs, hread, hany, Bool.not_true, Bool.false_eq_true, if_false, if_true]

/-! ### The kernel-mode instructions (R89) -/

theorem kernelMode_iff (i : Instr) : i.kernelMode = true ↔
    (∃ gd a b k, i = .cntctl gd a b k) ∨ (∃ gd m sc, i = .tlbinv gd m sc) ∨ (∃ gd o a, i = .fgset gd o a) ∨
    (∃ gd a b, i = .hdlset gd a b) ∨ (∃ gd tk d, i = .mtest gd tk d) := by
  constructor
  · intro h
    cases i with
    | cntctl gd a b k => exact .inl ⟨gd, a, b, k, rfl⟩
    | tlbinv gd m sc => exact .inr (.inl ⟨gd, m, sc, rfl⟩)
    | fgset gd o a => exact .inr (.inr (.inl ⟨gd, o, a, rfl⟩))
    | hdlset gd a b => exact .inr (.inr (.inr (.inl ⟨gd, a, b, rfl⟩)))
    | mtest gd tk d => exact .inr (.inr (.inr (.inr ⟨gd, tk, d, rfl⟩)))
    | _ => cases h
  · rintro (⟨gd, a, b, k, rfl⟩ | ⟨gd, m, sc, rfl⟩ | ⟨gd, o, a, rfl⟩ | ⟨gd, a, b, rfl⟩ | ⟨gd, tk, d, rfl⟩) <;> rfl

theorem isWord_of_kernelMode {i : Instr} (h : i.kernelMode = true) : i.isWord = true := by
  obtain ⟨gd, a, b, k, rfl⟩ | ⟨gd, m, sc, rfl⟩ | ⟨gd, o, a, rfl⟩ | ⟨gd, a, b, rfl⟩ | ⟨gd, tk, d, rfl⟩ := (kernelMode_iff i).mp h <;> rfl

/-- A word that a check of R92 rejects raises its fault. -/
theorem traps_of_rejects {i : Instr} {s : State} {x : Ctx} (hw : i.isWord = true) (hx : s.ctx? = some x) {cause : Nat}
    (hr : x.rejects i = some cause) : Traps s x i cause 0 0 := by
  obtain ⟨body, he⟩ := exec_of_isWord hw s
  exact he.trans (congrArg _ (issue_rejected hx hr))

/-- Settles O12: each check by what `issue` does where it fails. -/
theorem checksOfEveryWord : Obligations.ChecksOfEveryWord := by
  refine ⟨fun i s x hw hx => ?_, kernelMode_iff, fun i s x hk hx hr hu => traps_of_rejects (isWord_of_kernelMode hk) hx (rejects_priv hr hk hu)⟩
  obtain ⟨body, he⟩ := exec_of_isWord hw s
  refine ⟨fun h => traps_of_rejects hw hx (rejects_role h), fun hr hk hu => traps_of_rejects hw hx (rejects_priv hr hk hu),
    fun hr hk hwf => traps_of_rejects hw hx (rejects_illegal hr hk hwf),
    fun tk hr hk hwf hf ht hm => traps_of_rejects hw hx (rejects_token hr hk hwf hf ht hm),
    fun hr hs => he.trans (congrArg _ (issue_stalled hx hr hs)),
    fun f fs hr hs hd hl => he.trans (congrArg _ (issue_late hx hr hs hd hl)),
    fun hr hs hl hst hread => he.trans (congrArg _ (issue_strict hx hr hs hl (strictFault_read hst hread))),
    fun hr hs hl hst hread hwrite => he.trans (congrArg _ (issue_strict hx hr hs hl (strictFault_write hst hread hwrite)))⟩

end Sys2Proof.Machine
end

section
/-!
PROOFS. Reads and writes of special registers (05 R110 to R118, 08 R172, R173).
-/
namespace Sys2Proof.Machine

/-! ### Words by what their effect answers -/

theorem modCourse_congr {s : State} {c : CRef} {k : Course} {f g : Course → Course} (h : s.course? c = some k) (hfg : f k = g k) :
    s.modCourse c f = s.modCourse c g := by
  rw [modCourse_eq_setCourse h, modCourse_eq_setCourse h, hfg]

section Words
variable {s s' : State} {x : Ctx} {i : Instr} (h : Issues s x i) {body : Ctx → Res} {t' : Truss} {k' : Course}
include h

/-- A word that answers with a state is done with it, when its course stands there at the same pc and its truss on the same core. -/
theorem doneWith_of_ok (hb : body x = .ok s') (hclk : s'.clk = s.clk) (ht : s'.truss? x.c.truss = some t') (hcore : t'.core = x.t.core)
    (hk : s'.course? x.c = some k') (hpc : k'.pc = x.k.pc) : DoneWith x (issue i s body) s' (positionsOf i) (x.k.pc + 8) := by
  obtain ⟨rfl, -⟩ := ctx_of h.1
  rw [issue_ok h hb]
  have hfin := finish_quiet ht i none
  rw [hclk, hcore] at hfin
  unfold DoneWith
  rwa [modCourse_congr hk (g := fun k => k.after x.s.clk x.t.core (positionsOf i) (x.k.pc + 8)) (by rw [← hpc]; rfl)] at hfin

theorem goesWith_of_ok (hp : positionsOf i = 1) (he : exec i s = .next (issue i s body)) (hb : body x = .ok s') (hclk : s'.clk = s.clk)
    (ht : s'.truss? x.c.truss = some t') (hcore : t'.core = x.t.core) (hk : s'.course? x.c = some k') (hpc : k'.pc = x.k.pc) :
    GoesWith s x i s' := ⟨_, he, hp ▸ doneWith_of_ok h hb hclk ht hcore hk hpc⟩

/-- A word that changes the state beside its trusses. -/
theorem goesWith_of_trusses (hp : positionsOf i = 1) (he : exec i s = .next (issue i s body)) (hb : body x = .ok s') (hclk : s'.clk = s.clk)
    (ht : s'.trusses = s.trusses) : GoesWith s x i s' := by
  obtain ⟨-, -, htr, hk, -⟩ := ctx_of h.1
  refine goesWith_of_ok h hp he hb hclk (t' := x.t) (k' := x.k) ?_ rfl ?_ rfl
  · unfold State.truss? at htr ⊢; rw [ht, htr]
  · unfold State.course? at hk ⊢; rw [ht, hk]

/-- A word whose effect lands results, in the lanes of `ex`, completes. -/
theorem completes_of_landAll (hp : positionsOf i = 1) {L regs : Nat} {d : Reg} {ex : LaneMask} {f : Nat → W64} (hr : regs = 1 ∨ regs = 2)
    (hd : d.opnd regs ∈ i.body.dst) (hb : body x = x.ok (x.k.landAll x.s.tick L ex (resultVals regs d ex f))) :
    Completes x (issue i s body) regs d ex f := by
  have hfits : ∀ n : VReg, d = .v n → n.val + regs ≤ 256 := by
    rintro n rfl
    have := dst_wf_of_issues h hd
    unfold Reg.opnd Opnd.wf at this
    simp only [Bool.and_eq_true, decide_eq_true_eq] at this
    exact this.2
  obtain ⟨hsame, hflags, hlands⟩ := landAll_lands x.k x.s.tick L regs d ex f hr hfits
  have hpc : (x.k.landAll x.s.tick L ex (resultVals regs d ex f)).pc = x.k.pc := (congrArg Course.pc hsame.2 :)
  exact ⟨_, hsame, hflags, hlands, hp ▸ issue_ok_done h hb hpc⟩

end Words

theorem bTy_regs (t : BTy) : t.regs = 1 ∨ t.regs = 2 := by cases t <;> decide

/-! ### `csrr` (R110, R172) -/

/-- A register value as a result of type b32 or b64. -/
def typed (t : BTy) (y : W64) : W64 := match t with | .b32 => (y.truncate 32 : W32).zeroExtend 64 | .b64 => y

/-- Results where no lane executes change nothing. -/
theorem landAll_zero (k : Course) (tick L : Nat) (ws : List RegVal) : k.landAll tick L 0 ws = k := if_pos rfl

theorem spread_of_none {x : Ctx} {gd : Guard} {t : BTy} {d : Reg} (y : W64) (h : x.r.execFor gd d = 0) : x.spread gd t d y = x.k := by
  unfold Ctx.spread Ctx.lanewise
  rw [h]
  exact landAll_zero ..

/-- `csrr` of a register that it may read spreads its value. -/
theorem csrrEffect_special {x : Ctx} {gd : Guard} {t : BTy} {d : Reg} {idx : Nat} {y : W64} (hk : isKernelIdx idx = false)
    (hy : x.special idx = some y) : csrrEffect x gd t d idx = x.ok (x.spread gd t d y) := by
  unfold csrrEffect
  split
  · next h => rw [spread_of_none y h]
  · simp only [hk, hy, Bool.false_eq_true, if_false]

theorem csrrEffect_kernel {x : Ctx} {gd : Guard} {t : BTy} {d : Reg} {idx : Nat} (hk : isKernelIdx idx = true)
    (hm : x.t.kernelMode = true) : csrrEffect x gd t d idx = x.ok (x.spread gd t d (x.kernelReg idx)) := by
  by_cases h : x.r.execFor gd d = 0
  · exact (if_pos h).trans (congrArg x.ok (spread_of_none _ h).symm)
  · exact (if_neg h).trans ((if_pos hk).trans (if_pos hm))

theorem csrr_gives {s : State} {x : Ctx} {gd : Guard} {t : BTy} {d : Reg} {idx : BitVec 8} {y : W64} (h : Issues s x (.csrr gd t d idx))
    (hb : csrrEffect x gd t d idx.toNat = x.ok (x.spread gd t d y)) :
    ∃ t', exec (.csrr gd t d idx) s = .next t' ∧ Completes x t' t.regs d (x.r.execFor gd d) fun _ => typed t y :=
  ⟨_, rfl, completes_of_landAll h rfl (bTy_regs t) (.head _) hb⟩

theorem foldl_or_le {α : Type} (c : α → Bool) (fl : α → FFlags) (as : List α) (f : FFlags) (l : Nat) (h : f.getLsbD l = true) :
    (as.foldl (fun f a => if c a then f ||| fl a else f) f).getLsbD l = true := by
  induction as generalizing f with
  | nil => exact h
  | cons a as ih =>
    refine ih _ ?_
    by_cases hc : c a = true
    · simp [hc, h]
    · simpa [hc] using h

/-- A read of FSTAT returns every flag it holds. -/
theorem fstat_le_seen (k : Course) (tick : Nat) : k.fstat &&& ~~~ (k.fstatSeen tick) = 0 := by
  refine BitVec.eq_of_getLsbD_eq fun l hl => ?_
  rw [BitVec.getLsbD_and, BitVec.getLsbD_not]
  cases hf : k.fstat.getLsbD l with
  | false => exact (BitVec.getLsbD_zero ..).symm
  | true =>
    have hseen : (k.fstatSeen tick).getLsbD l = true := foldl_or_le _ _ _ _ l (foldl_or_le _ _ _ _ l hf)
    rw [hseen]
    simp

/-- An index without a register. -/
theorem special_none {x : Ctx} {n : Nat} (h : n = 0x0F ∨ 0x15 ≤ n ∧ n ≤ 0x17 ∨ n = 0x1A ∨ n = 0x1B ∨ 0x1E ≤ n) : x.special n = none := by
  rcases h with rfl | ⟨hlo, hhi⟩ | rfl | rfl | hlo
  · rfl
  · interval_cases n <;> rfl
  · rfl
  · rfl
  · obtain ⟨m, rfl⟩ := Nat.exists_eq_add_of_le' hlo
    rfl

theorem isKernelIdx_iff {n : Nat} : isKernelIdx n = true ↔ 0x40 ≤ n ∧ n ≤ 0x45 := by
  unfold isKernelIdx
  rw [Bool.and_eq_true, decide_eq_true_eq, decide_eq_true_eq]

/-- Settles O13: `csrr` of each register by its value, by `csrr_gives`. -/
theorem csrrReads : Obligations.CsrrReads := by
  intro gd t d idx s x h
  have hgives : ∀ {n : BitVec 8} {y : W64}, isKernelIdx n.toNat = false → x.special n.toNat = some y → idx = n →
      ∃ t', exec (.csrr gd t d idx) s = .next t' ∧ Completes x t' t.regs d (x.r.execFor gd d) fun _ => typed t y := by
    rintro n y hk hy rfl
    exact csrr_gives h (csrrEffect_special hk hy)
  have hkernel : ∀ {n : BitVec 8} {y : W64}, x.t.kernelMode = true → isKernelIdx n.toNat = true → x.kernelReg n.toNat = y → idx = n →
      ∃ t', exec (.csrr gd t d idx) s = .next t' ∧ Completes x t' t.regs d (x.r.execFor gd d) fun _ => typed t y := by
    rintro n y hm hk rfl rfl
    exact csrr_gives h (csrrEffect_kernel hk hm)
  obtain ⟨rfl, -⟩ := ctx_of h.1
  refine ⟨fun h0 => goes_of_nothing h rfl rfl (if_pos h0), hgives rfl rfl, hgives rfl rfl, hgives rfl rfl, hgives rfl rfl, hgives rfl rfl,
    hgives rfl rfl, hgives rfl rfl, hgives rfl rfl, hgives rfl rfl, hgives rfl rfl, hgives rfl rfl, hgives rfl rfl, hgives rfl rfl,
    hgives rfl rfl, hgives rfl rfl, hgives rfl rfl, hgives rfl rfl, hgives rfl rfl, hgives rfl rfl, hgives rfl rfl,
    fun hi => ⟨x.k.fstatSeen x.s.tick, hgives rfl rfl hi, fstat_le_seen .., fun hf ho => ?fstat⟩, hgives rfl rfl, hgives rfl rfl, hgives rfl rfl,
    fun hm => ⟨hkernel hm rfl ?mode, hkernel hm rfl rfl, hkernel hm rfl rfl, hkernel hm rfl rfl, hkernel hm rfl rfl, hkernel hm rfl rfl⟩,
    fun h0 hlo hhi hu => ?priv, fun h0 hidx => ?none⟩
  case fstat =>
    unfold Course.fstatSeen
    rw [hf, ho]
    rfl
  case mode =>
    change BitVec.ofNat 64 x.t.kernelMode.toNat = 1
    rw [hm]
    rfl
  case priv =>
    refine traps_of h rfl ((if_neg h0).trans ((if_pos (isKernelIdx_iff.mpr ⟨hlo, hhi⟩)).trans ?_))
    rw [hu]
    rfl
  case none =>
    have hn : (idx.toNat = 0x0F ∨ 0x15 ≤ idx.toNat ∧ idx.toNat ≤ 0x17 ∨ idx.toNat = 0x1A ∨ idx.toNat = 0x1B ∨ 0x1E ≤ idx.toNat) ∧
        ¬ (0x40 ≤ idx.toNat ∧ idx.toNat ≤ 0x45) := by
      rcases hidx with rfl | hr | rfl | rfl | hr | hr
      · decide
      · omega
      · decide
      · decide
      · omega
      · omega
    have hk : ¬ isKernelIdx idx.toNat = true := mt isKernelIdx_iff.mp hn.2
    refine traps_of h rfl ((if_neg h0).trans ((if_neg hk).trans ?_))
    rw [special_none hn.1]

end Sys2Proof.Machine
end

section
/-!
PROOFS. Writes of special registers (05 R110 to R118, 08 R173).
-/
namespace Sys2Proof.Machine

section Csrw
variable {s : State} {x : Ctx} {gd : Guard} {t : BTy} {idx : BitVec 8} {a : Reg}

theorem csrwEffect_special (hu : x.r.uniform gd = true) (hk : isKernelIdx idx.toNat = false) :
    csrwEffect x gd t idx.toNat a = x.writeSpecial idx.toNat (x.r.src t.regs a (lowestLane x.k.lanes)) := by
  unfold csrwEffect
  simp only [hu, hk, Bool.not_true, Bool.false_eq_true, if_false]

theorem csrwEffect_kernel (hu : x.r.uniform gd = true) (hk : isKernelIdx idx.toNat = true) :
    csrwEffect x gd t idx.toNat a =
      if x.t.kernelMode then x.writeKernel idx.toNat (x.r.src t.regs a (lowestLane x.k.lanes)) else .trap 0x17 0 0 := by
  unfold csrwEffect
  simp only [hu, hk, Bool.not_true, Bool.false_eq_true, if_false, if_true]

/-- A write of word `i` of the top frame that its reserved bits allow. -/
theorem writeFrame_some {i : Nat} {y z : W64} {f : Frame} {fs : List Frame} (hf : x.k.frames = f :: fs)
    (hz : writeTf i (vat f.words i 0) y = some z) : x.writeFrame i y = x.ok { x.k with frames := ⟨vput f.words i z⟩ :: fs } := by
  unfold Ctx.writeFrame
  rw [hf]
  simp only [hz]

theorem writeFrame_none {i : Nat} {y : W64} {f : Frame} {fs : List Frame} (hf : x.k.frames = f :: fs)
    (hz : writeTf i (vat f.words i 0) y = none) : x.writeFrame i y = .trap 0x01 0 0 := by
  unfold Ctx.writeFrame
  rw [hf]
  simp only [hz]

theorem writeFrame_nil {i : Nat} {y : W64} (hf : x.k.frames = []) : x.writeFrame i y = .trap 0x01 0 0 := by
  unfold Ctx.writeFrame
  rw [hf]

/-- An index that is read-only or has no register. -/
theorem writeSpecial_none {n : Nat} {y : W64} (h : n = 0 ∨ n = 1 ∨ 5 ≤ n ∧ n ≤ 7 ∨ 0x0D ≤ n ∧ n ≤ 0x17 ∨ 0x1A ≤ n) :
    x.writeSpecial n y = .trap 0x01 0 0 := by
  rcases h with rfl | rfl | ⟨hlo, hhi⟩ | ⟨hlo, hhi⟩ | hlo
  · rfl
  · rfl
  · interval_cases n <;> rfl
  · interval_cases n <;> rfl
  · obtain ⟨m, rfl⟩ := Nat.exists_eq_add_of_le' hlo
    rfl

/-- Writing back the word that stands there changes nothing. -/
theorem frame_same {k : Course} {f : Frame} {fs : List Frame} {i : Nat} (hf : k.frames = f :: fs) :
    { k with frames := ⟨vput f.words i (vat f.words i 0)⟩ :: fs } = k := by
  have hw : vput f.words i (vat f.words i 0) = f.words := by
    unfold vput vat
    split
    · next hi => exact Vector.set_getElem_self hi
    · rfl
  rw [hw, ← hf]

end Csrw

/-! ### STRICT (R111, R183) -/

theorem setStrict_on_untracked {k : Course} (h : k.strict = false) (n : Nat) : n ∉ (k.setStrict true).tracked := by
  have hsh : (k.shadows.map fun sh : Shadow => { sh with strict := false }).filter (·.strict) = [] := by
    rw [List.filter_eq_nil_iff]
    intro sh hsh
    obtain ⟨sh', -, rfl⟩ := List.mem_map.mp hsh
    exact Bool.false_ne_true
  have hops : (k.ops.map fun o : TokOp => { o with strict := o.strict && k.strict }).filter (·.strict) = [] := by
    rw [List.filter_eq_nil_iff]
    intro o ho
    obtain ⟨o', -, rfl⟩ := List.mem_map.mp ho
    simp [h]
  unfold Course.tracked Course.setStrict
  simp only [if_true, hsh, hops]
  exact List.not_mem_nil

theorem setStrict_on_ops {k : Course} (h : k.strict = true) : (k.setStrict true).ops = k.ops := by
  refine (List.map_congr_left fun o _ => ?_).trans (List.map_id _)
  rw [h, Bool.and_true]
  rfl

/-- Settles O14: each register by its case of `writeSpecial` or `writeKernel`. -/
theorem csrwWrites : Obligations.CsrwWrites := by
  refine ⟨fun gd t idx a s x h => ⟨fun hu => goes_of_nothing h rfl rfl ?off, fun hu => ?on⟩, fun gd t idx a s x h hu hlo hhi => ?kernel⟩
  case off =>
    unfold csrwEffect
    rw [hu]
    rfl
  case on =>
    set y := x.r.src t.regs a (lowestLane x.k.lanes) with hy
    have hwrite : ∀ {r : Res} {n : BitVec 8}, idx = n → isKernelIdx n.toNat = false → x.writeSpecial n.toNat y = r →
        csrwEffect x gd t idx.toNat a = r := by
      rintro r n rfl hk hw
      exact (csrwEffect_special hu hk).trans hw
    refine ⟨fun hi => goes_of_ok h rfl rfl (hwrite hi rfl rfl) rfl, fun hi hm => ?tkmask, fun hi hf hm => ?tokown,
      fun hi h0 => goes_of_ok h rfl rfl (hwrite hi rfl ?strictOff) rfl, fun hi h1 => ?strictOn, fun hlo hhi hf => ?noFrame,
      fun f fs hi hf hz => ?word0, fun f fs hi hf hz hb => ?word1, fun f fs hi hf => ?word2, fun f fs hi hf hz => ?word3,
      fun f fs hf hz => ?reserved, fun hi hz ho => ?rowprog, fun hi hz => ?rowReserved, fun hi hf => ?fstat,
      fun hi => goes_of_ok h rfl rfl (hwrite hi rfl rfl) rfl, fun hi => ?none⟩
    case tkmask =>
      refine goes_of_ok h rfl rfl (hwrite hi rfl (if_neg fun hc => ?_)) rfl
      rw [Bool.and_eq_true, decide_eq_true_eq, decide_eq_true_eq] at hc
      exact hm.elim (fun hf => hf hc.1) fun hz => hc.2 hz
    case tokown =>
      refine traps_of h rfl (hwrite hi rfl (if_pos ?_))
      rw [Bool.and_eq_true, decide_eq_true_eq, decide_eq_true_eq]
      exact ⟨hf, hm⟩
    case strictOff =>
      change x.ok (x.k.setStrict (y.getLsbD 0)) = _
      rw [h0]
      rfl
    case strictOn =>
      refine ⟨x.k.setStrict true, rfl, setStrict_on_untracked, setStrict_on_ops, fun sh hsh => ?_, List.length_map .., List.length_map .., rfl,
        goes_of_ok h rfl rfl (hwrite hi rfl ?_) rfl⟩
      · obtain ⟨sh', -, rfl⟩ := List.mem_map.mp hsh
        rfl
      · change x.ok (x.k.setStrict (y.getLsbD 0)) = _
        rw [h1]
    case noFrame =>
      have hi : idx = 8 ∨ idx = 9 ∨ idx = 10 ∨ idx = 11 := by bv_omega
      refine traps_of h rfl ?_
      rcases hi with hi | hi | hi | hi
      · exact hwrite hi rfl (writeFrame_nil (i := 0) (y := y) hf)
      · exact hwrite hi rfl (writeFrame_nil (i := 1) (y := y) hf)
      · exact hwrite hi rfl (writeFrame_nil (i := 2) (y := y) hf)
      · exact hwrite hi rfl (writeFrame_nil (i := 3) (y := y) hf)
    case word0 => exact goes_of_ok h rfl rfl (hwrite hi rfl (writeFrame_some hf (if_pos hz))) rfl
    case word1 =>
      have hw : writeTf 1 (vat f.words 1 0) y = some ((f.words[1] &&& 0x80FFFF) ||| (y &&& 0x13F0000)) := if_pos (by rw [hb, hz]; rfl)
      exact goes_of_ok h rfl rfl (hwrite hi rfl (writeFrame_some hf hw)) rfl
    case word2 => exact goes_of_nothing h rfl rfl (hwrite hi rfl ((writeFrame_some (i := 2) (y := y) hf rfl).trans (congrArg x.ok (frame_same hf))))
    case word3 => exact goes_of_ok h rfl rfl (hwrite hi rfl (writeFrame_some hf (if_pos hz))) rfl
    case reserved =>
      rcases hz with ⟨hi, hz⟩ | ⟨hi, hz⟩ | ⟨hi, hz⟩
      · exact traps_of h rfl (hwrite hi rfl (writeFrame_none hf (if_neg hz)))
      · have hw : writeTf 1 (vat f.words 1 0) y = none := by
          refine if_neg fun hc => ?_
          rw [Bool.and_eq_true, decide_eq_true_eq, Bool.not_eq_true'] at hc
          exact hz.elim (fun hne => hne hc.1) fun hb => Bool.false_ne_true (hc.2.symm.trans hb)
        exact traps_of h rfl (hwrite hi rfl (writeFrame_none hf hw))
      · exact traps_of h rfl (hwrite hi rfl (writeFrame_none hf (if_neg hz)))
    case rowprog =>
      have hbusy : ¬ (x.k.ops.any fun o => o.mat && !o.fallen) = true := by
        rw [List.any_eq_true]
        rintro ⟨o, ho', hb⟩
        rcases ho o ho' with hm | hm <;> simp [hm] at hb
      exact goes_of_ok h rfl rfl (hwrite hi rfl ((if_neg (not_not.mpr hz)).trans (if_neg hbusy))) rfl
    case rowReserved => exact traps_of h rfl (hwrite hi rfl (if_pos hz))
    case fstat =>
      refine goes_of_ok h rfl rfl (hwrite hi rfl ?_) rfl
      change x.ok (x.k.fstatWrite x.s.tick (y.truncate 5)) = _
      unfold Course.fstatWrite
      rw [hf]
      exact congrArg (fun fl => x.ok { x.k with fstat := y.truncate 5, flagShadows := fl }) hf.symm
    case none =>
      have hn : (idx.toNat = 0 ∨ idx.toNat = 1 ∨ 5 ≤ idx.toNat ∧ idx.toNat ≤ 7 ∨ 0x0D ≤ idx.toNat ∧ idx.toNat ≤ 0x17 ∨ 0x1A ≤ idx.toNat) ∧
          ¬ (0x40 ≤ idx.toNat ∧ idx.toNat ≤ 0x45) := by
        rcases hi with rfl | rfl | hi | hi | hi | hi
        · decide
        · decide
        · omega
        · omega
        · omega
        · omega
      exact traps_of h rfl (hwrite rfl (Bool.eq_false_iff.mpr (mt isKernelIdx_iff.mp hn.2)) (writeSpecial_none hn.1))
  case kernel =>
    set y := x.r.src t.regs a (lowestLane x.k.lanes) with hy
    have hb := (csrwEffect_kernel (t := t) (a := a) hu (isKernelIdx_iff.mpr ⟨hlo, hhi⟩))
    refine ⟨fun hm => traps_of h rfl (hb.trans (if_neg (Bool.eq_false_iff.mp hm))), fun hm => ?_⟩
    have hwrite : ∀ {r : Res} {n : BitVec 8}, idx = n → x.writeKernel n.toNat y = r → csrwEffect x gd t idx.toNat a = r := by
      rintro r n rfl hw
      exact hb.trans ((if_pos hm).trans hw)
    obtain ⟨rfl, -⟩ := ctx_of h.1
    refine ⟨fun hi => goesWith_of_trusses h rfl rfl (hwrite hi rfl) rfl rfl, fun hi => goesWith_of_trusses h rfl rfl (hwrite hi rfl) rfl rfl,
      fun hi => goesWith_of_trusses h rfl rfl (hwrite hi rfl) rfl rfl, fun hi => goesWith_of_trusses h rfl rfl (hwrite hi rfl) rfl rfl,
      fun hi => ?_⟩
    rcases hi with hi | hi <;> exact traps_of h rfl (hwrite hi rfl)

end Sys2Proof.Machine
end

section
/-!
PROOFS. Words that count on a token, service calls, and the words of tokens and counters (02 R46; 08 R174, R175; 09 R178 to R182, R195
to R200).
-/
namespace Sys2Proof.Machine

/-! ### Counting on a token (R178) -/

theorem foldl_markClash_noClash (ws : List RegVal) (ops : List TokOp) :
    (ws.foldl (fun os w => markClash w os) ops).map TokOp.noClash = ops.map TokOp.noClash := by
  induction ws generalizing ops with
  | nil => rfl
  | cons w ws ih => exact (ih _).trans (markClash_noClash w ops)

/-- The operation that a word counting on a token issues. -/
def Course.newOp (k : Course) (tk : Tok) (wait : OpWait) (ws : List RegVal) (mat acq inval : Bool) (flags : BitVec 5) (dests : List Nat) :
    TokOp :=
  { id := k.nextOp, tk := tk, wait := wait, writes := ws, dests := dests, flags := flags, status := 0, fault := none, fallen := false,
    strict := k.strict,
    clash := (k.shadows.map (·.old)).filter (fun o => ws.any o.meets) ++
      ((k.ops.filter (fun o => !o.fallen)).map (·.writes)).flatten.filter (fun o => ws.any o.meets),
    poison := false, inRegion := k.rgstate.getLsbD 63, acq := acq, inval := inval, mat := mat }

/-- A word that counts on a token issues its operation. -/
theorem issueOp_counts (k : Course) (tk : Tok) (wait : OpWait) (ws : List RegVal) (mat acq inval : Bool) (flags : BitVec 5) (dests : List Nat) :
    ∃ o, Counts k (k.issueOp tk wait ws mat acq inval flags dests) tk o ∧ o.wait = wait ∧ o.writes = ws ∧ o.flags = flags ∧
      o.poison = false ∧ o.mat = mat ∧ o.acq = acq ∧ o.inval = inval := by
  refine ⟨k.newOp tk wait ws mat acq inval flags dests, ⟨rfl, ?_, rfl, rfl, rfl, rfl, rfl, rfl, rfl⟩, rfl, rfl, rfl, rfl, rfl, rfl, rfl⟩
  rw [show (k.issueOp tk wait ws mat acq inval flags dests).ops = ws.foldl (fun os w => markClash w os) k.ops ++
      [k.newOp tk wait ws mat acq inval flags dests] from rfl, List.map_append, List.map_append, foldl_markClash_noClash]

theorem issueOp_countsOn (k : Course) (tk : Tok) (wait : OpWait) (ws : List RegVal) (mat acq inval : Bool) (dests : List Nat) :
    CountsOn k (k.issueOp tk wait ws mat acq inval 0 dests) (some tk) wait ws mat acq inval :=
  issueOp_counts k tk wait ws mat acq inval 0 dests

/-- A word without an executing lane counts on its token alone. -/
theorem countsOnly_of {s : State} {x : Ctx} {i : Instr} {body : Ctx → Res} {tk : Tok} {dests : List Nat} (h : Issues s x i)
    (hp : positionsOf i = 1) (he : exec i s = .next (issue i s body)) (hb : body x = x.ok (x.k.issueOp tk .nothing [] (dests := dests))) :
    CountsOnly s x i (some tk) := ⟨_, issueOp_countsOn .., goes_of_ok h hp he hb rfl⟩

/-! ### Lists of blocks of one length -/

theorem length_flatten_blocks {α : Type} {c : Nat} {bs : List (List α)} (h : ∀ b ∈ bs, b.length = c) :
    bs.flatten.length = c * bs.length := by
  induction bs with
  | nil => rfl
  | cons b bs ih =>
    rw [List.flatten_cons, List.length_append, h b (.head _), ih fun b' hb => h b' (.tail _ hb), List.length_cons, Nat.mul_succ, Nat.add_comm]

/-- A run of elements of block `n` of a list of blocks of `c` elements. -/
theorem flatten_block {α : Type} {c : Nat} {bs : List (List α)} (h : ∀ b ∈ bs, b.length = c) {n : Nat} {b : List α} (hn : bs[n]? = some b)
    {j m : Nat} (hj : j + m ≤ c) : (bs.flatten.drop (c * n + j)).take m = (b.drop j).take m := by
  induction bs generalizing n with
  | nil => cases hn
  | cons b' bs ih =>
    have hb' : b'.length = c := h b' (.head _)
    rw [List.flatten_cons]
    cases n with
    | zero =>
      cases hn
      rw [Nat.mul_zero, Nat.zero_add, List.drop_append_of_le_length (by omega), List.take_append_of_le_length (by rw [List.length_drop]; omega)]
    | succ n =>
      rw [← ih (fun b hb => h b (.tail _ hb)) (by simpa using hn),
        show c * (n + 1) + j = b'.length + (c * n + j) by rw [hb', Nat.mul_succ]; omega, List.drop_append,
        List.drop_eq_nil_of_le (by omega), List.nil_append, Nat.add_sub_cancel_left]

/-! ### The batch record (R46) -/

/-- The argument words of one lane in a batch record. -/
def argBytes (k : Course) (a : VReg) (na : Fin 9) (l : Nat) : List Byte :=
  ((List.range 8).map fun j => natBytes 4 (if j < na.val then (k.vget (a.val + j) l).toNat else 0)).flatten

theorem length_argBytes (k : Course) (a : VReg) (na : Fin 9) (l : Nat) : (argBytes k a na l).length = 32 := by
  unfold argBytes
  refine (length_flatten_blocks (c := 4) fun b hb => ?_).trans (by rw [List.length_map, List.length_range])
  obtain ⟨j, -, rfl⟩ := List.mem_map.mp hb
  exact natBytes_length ..

theorem argBytes_word (k : Course) (a : VReg) (na : Fin 9) (l : Nat) {j : Nat} (hj : j < 8) :
    bytesNat (((argBytes k a na l).drop (4 * j)).take 4) = if j < na.val then (k.vget (a.val + j) l).toNat else 0 := by
  have hblock : ((List.range 8).map fun j => natBytes 4 (if j < na.val then (k.vget (a.val + j) l).toNat else 0))[j]? =
      some (natBytes 4 (if j < na.val then (k.vget (a.val + j) l).toNat else 0)) := by
    rw [List.getElem?_map, List.getElem?_range hj]
    rfl
  have := flatten_block (c := 4) (fun b hb => by obtain ⟨j, -, rfl⟩ := List.mem_map.mp hb; exact natBytes_length ..) hblock (j := 0) (m := 4)
    (by decide)
  rw [Nat.add_zero] at this
  unfold argBytes
  rw [this, List.drop_zero, List.take_of_length_le (natBytes_length ..).le, bytesNat_natBytes, Nat.mod_eq_of_lt]
  split
  · exact Nat.lt_of_lt_of_le (k.vget (a.val + j) l).isLt (by decide)
  · decide

section Record
variable (x : Ctx) (ex : LaneMask) (tk : Tok) (a : VReg) (na : Fin 9) (svc : BitVec 14)

theorem record_eq : ∃ hdr : List Byte, hdr.length = 64 ∧ x.record ex tk a na svc = hdr ++ ((lanesIn ex).map (argBytes x.r a na)).flatten := by
  refine ⟨_, ?_, rfl⟩
  rw [List.length_map, List.length_range]

theorem length_record : (x.record ex tk a na svc).length = 64 + 32 * laneCount ex := by
  obtain ⟨hdr, hlen, heq⟩ := record_eq x ex tk a na svc
  rw [heq, List.length_append, hlen, length_flatten_blocks (c := 32), List.length_map]
  · rfl
  · intro b hb
    obtain ⟨l, -, rfl⟩ := List.mem_map.mp hb
    exact length_argBytes ..

theorem record_word {n l j : Nat} (hl : (lanesIn ex)[n]? = some l) (hj : j < 8) :
    bytesNat (((x.record ex tk a na svc).drop (64 + 32 * n + 4 * j)).take 4) = if j < na.val then (x.r.vget (a.val + j) l).toNat else 0 := by
  obtain ⟨hdr, hlen, heq⟩ := record_eq x ex tk a na svc
  have hblock : ((lanesIn ex).map (argBytes x.r a na))[n]? = some (argBytes x.r a na l) := by rw [List.getElem?_map, hl]; rfl
  have hrun := flatten_block (c := 32) (fun b hb => by obtain ⟨l, -, rfl⟩ := List.mem_map.mp hb; exact length_argBytes ..) hblock
    (j := 4 * j) (m := 4) (by omega)
  rw [heq, Nat.add_assoc, ← hlen, List.drop_append, List.drop_eq_nil_of_le (by omega), List.nil_append, Nat.add_sub_cancel_left, hrun]
  exact argBytes_word x.r a na l hj

end Record

/-- The truss and the course after a change of the course alone. -/
theorem truss?_set {s : State} {x : Ctx} (hx : s.ctx? = some x) (k : Course) :
    (x.set k).truss? x.c.truss = some (x.t.modCourse x.c.course fun _ => k) := by
  obtain ⟨rfl, -, ht, -⟩ := ctx_of hx
  unfold Ctx.set State.setCourse State.modCourse
  rw [truss?_modTruss, ht, if_pos rfl]
  rfl

theorem course?_set {s : State} {x : Ctx} (hx : s.ctx? = some x) (k : Course) : (x.set k).course? x.c = some k := by
  obtain ⟨rfl, -, -, hk, -⟩ := ctx_of hx
  unfold Ctx.set
  rw [course?_setCourse, if_pos rfl, hk]
  rfl

/-- A word that changes its course, and the state beside its trusses. -/
theorem goesWith_of_set {s s' : State} {x : Ctx} {i : Instr} {body : Ctx → Res} {k' : Course} (h : Issues s x i) (hp : positionsOf i = 1)
    (he : exec i s = .next (issue i s body)) (hb : body x = .ok s') (hclk : s'.clk = s.clk) (ht : s'.trusses = (x.set k').trusses)
    (hpc : k'.pc = x.k.pc) : GoesWith s x i s' := by
  refine goesWith_of_ok h hp he hb hclk (t' := x.t.modCourse x.c.course fun _ => k') (k' := k') ?_ rfl ?_ hpc
  · have := truss?_set h.1 k'
    unfold State.truss? at this ⊢
    rw [ht, this]
  · have := course?_set h.1 k'
    unfold State.course? at this ⊢
    rw [ht, this]

/-- Settles O15: `sysc` by whether a lane executes and whether the course is guarded; the record by its blocks. -/
theorem syscWritesRecord : Obligations.SyscWritesRecord := by
  intro gd tk d a na nr svc s x h
  refine ⟨fun h0 => countsOnly_of h rfl rfl (if_pos h0), fun h0 hg => ?plain, fun h0 hg => ?guarded⟩
  case plain =>
    obtain ⟨rfl, -⟩ := ctx_of h.1
    refine ⟨x.record (x.r.exec gd) tk a na svc, _, length_record .., fun n l j hl hj => record_word x _ tk a na svc hl hj,
      issueOp_countsOn x.k tk .service (syscDests d nr (x.r.exec gd)) false false false
      ((syscDests d nr (x.r.exec gd)).map RegVal.name), ?_⟩
    exact goesWith_of_set h rfl rfl ((if_neg h0).trans (if_neg (Bool.eq_false_iff.mp hg))) rfl rfl rfl
  case guarded =>
    obtain ⟨rfl, -⟩ := ctx_of h.1
    refine ⟨x.record (x.r.exec gd) tk a na svc, _, issueOp_countsOn x.k tk .service (syscDests d nr (x.r.exec gd)) false false false
      ((syscDests d nr (x.r.exec gd)).map RegVal.name), ?_⟩
    exact goes_of_ok h rfl rfl ((if_neg h0).trans (if_pos hg)) rfl

end Sys2Proof.Machine
end

section
/-!
PROOFS. The words of tokens, counters and generations (09 R178 to R182, R195 to R200).
-/
namespace Sys2Proof.Machine

theorem course?_of_truss? {s : State} {c : CRef} {t : Truss} {k : Course} (ht : s.truss? c.truss = some t) (hk : t.courses[c.course]? = some k) :
    s.course? c = some k := by
  unfold State.truss? at ht
  unfold State.course?
  rw [ht]
  exact hk

theorem course_of_truss {s : State} {x : Ctx} (hx : s.ctx? = some x) : x.t.courses[x.c.course]? = some x.k := by
  obtain ⟨-, -, ht, hk, -⟩ := ctx_of hx
  unfold State.truss? at ht
  unfold State.course? at hk
  rwa [ht] at hk

/-- A word that changes the truss of its course. -/
theorem goesWith_of_truss {s s' : State} {x : Ctx} {i : Instr} {body : Ctx → Res} {t' : Truss} {k' : Course} (h : Issues s x i)
    (hp : positionsOf i = 1) (he : exec i s = .next (issue i s body)) (hb : body x = .ok s') (hclk : s'.clk = s.clk)
    (ht : s'.truss? x.c.truss = some t') (hplace : t'.place = x.t.place) (hk : t'.courses[x.c.course]? = some k') (hpc : k'.pc = x.k.pc) :
    GoesWith s x i s' :=
  goesWith_of_ok h hp he hb hclk ht (by unfold Truss.core; rw [hplace]) (course?_of_truss? ht hk) hpc

/-! ### `waitt` and `tkst` (R180, R182) -/

section Waitt
variable {x : Ctx} {gd : Guard} {tk : Tok} {n : Nat}

theorem waittEffect_past (hu : x.r.uniform gd = true) (hn : x.k.count tk ≤ n) (hf : ∀ o ∈ x.k.covered tk n, o.fault = none) :
    waittEffect x gd tk n =
      (let cov := x.k.covered tk n
       let s1 := x.set { x.k with ops := x.k.ops.filter fun o => !(cov.map (·.id)).contains o.id }
       let s2 := if cov.any (·.acq) then s1.modTruss x.c.truss fun t => t.observe x.c.course else s1
       .ok (if cov.any (·.inval) then s2.invalidateL1 x.t.core else s2)) := by
  have hnone : (x.k.covered tk n).find? (fun o => o.fault.isSome) = none := by
    rw [List.find?_eq_none]
    intro o ho
    rw [hf o ho]
    exact Bool.false_ne_true
  unfold waittEffect
  simp only [hu, hnone, Nat.not_lt.mpr hn, Bool.not_true, Bool.false_eq_true, if_false]

theorem waittEffect_fault {as bs : List TokOp} {o : TokOp} {f : LateFault} (hu : x.r.uniform gd = true) (hn : x.k.count tk ≤ n)
    (hc : x.k.covered tk n = as ++ o :: bs) (hf : ∀ p ∈ as, p.fault = none) (ho : o.fault = some f) :
    waittEffect x gd tk n = .late (x.set (x.k.modOp o.id fun o => { o with fault := none })) f.cause f.detail f.faddr := by
  have hfind : (x.k.covered tk n).find? (fun o => o.fault.isSome) = some o := by
    rw [hc, List.find?_append, List.find?_eq_none.mpr fun p hp => by rw [hf p hp]; exact Bool.false_ne_true]
    simp [ho]
  unfold waittEffect
  simp only [hu, hfind, ho, Nat.not_lt.mpr hn, Bool.not_true, Bool.false_eq_true, if_false]

end Waitt

/-- The count and the status in the word that `tkst` writes. -/
theorem tokenWord_eq (t : Token) : Sys2Proof.Machine.tokenWord t = BitVec.ofNat 64 (t.count.toNat + 256 * t.status.toNat) :=
  congrArg (fun n => BitVec.ofNat 64 (t.count.toNat + n)) (Nat.mul_comm ..)

/-- What an acquire at a `waitt` leaves of the truss. -/
def Truss.waited (t : Truss) (j : Nat) (acq : Bool) : Truss := if acq then t.observe j else t

theorem waited_place (t : Truss) (j : Nat) (acq : Bool) : (t.waited j acq).place = t.place := by cases acq <;> rfl

theorem waited_courses (t : Truss) (j : Nat) (acq : Bool) : (t.waited j acq).courses = t.courses := by cases acq <;> rfl

/-- A `waitt` that has an acquire to take, or none, and lines to drop, or none, leaves its truss so. -/
theorem truss?_waited {s : State} {x : Ctx} (hx : s.ctx? = some x) (k : Course) (acq inval : Bool) (core : Nat) :
    (let s1 := x.set k
     let s2 := if acq then s1.modTruss x.c.truss fun t => t.observe x.c.course else s1
     if inval then s2.invalidateL1 core else s2).truss? x.c.truss = some ((x.t.modCourse x.c.course fun _ => k).waited x.c.course acq) := by
  have hset := truss?_set hx k
  cases acq
  · cases inval <;> exact hset
  · have hobs : ((x.set k).modTruss x.c.truss fun t => t.observe x.c.course).truss? x.c.truss =
        some ((x.t.modCourse x.c.course fun _ => k).observe x.c.course) := by
      rw [truss?_modTruss, if_pos rfl, hset]
      rfl
    cases inval <;> exact hobs

theorem clk_waited (x : Ctx) (k : Course) (acq inval : Bool) (core : Nat) :
    (let s1 := x.set k
     let s2 := if acq then s1.modTruss x.c.truss fun t => t.observe x.c.course else s1
     if inval then s2.invalidateL1 core else s2).clk = x.s.clk := by cases acq <;> cases inval <;> rfl

theorem courses_modCourse {s : State} {x : Ctx} (hx : s.ctx? = some x) (k : Course) :
    (x.t.modCourse x.c.course fun _ => k).courses[x.c.course]? = some k := by
  have hk := course_of_truss hx
  unfold Truss.modCourse
  rw [List.getElem?_modify, hk]
  exact congrArg some (if_pos rfl)

/-- Settles O16: `waitt` by its guard, its count and the operations it covers; `tkst` by what it lands. -/
theorem tokensWaitedAndRead : Obligations.TokensWaitedAndRead := by
  refine ⟨fun gd tk n s x h => ⟨fun hu => ?off, fun hu hn => ?waits, fun hu hn hf => ?past, fun as o bs f hu hn hc hf ho => ?late⟩,
    fun gd tk clr d s x h => ?tkst⟩
  case off => exact goes_of_nothing h rfl rfl (if_pos (by rw [hu]; rfl))
  case waits =>
    obtain ⟨rfl, -⟩ := ctx_of h.1
    exact congrArg _ (issue_wait h ((if_neg (by rw [hu]; decide)).trans (if_pos hn)))
  case past =>
    obtain ⟨rfl, -⟩ := ctx_of h.1
    exact goesWith_of_truss h rfl rfl (waittEffect_past hu hn hf) (clk_waited ..) (truss?_waited h.1 ..) (waited_place ..)
      (by rw [waited_courses]; exact courses_modCourse h.1 _) (by rfl)
  case late =>
    obtain ⟨rfl, -⟩ := ctx_of h.1
    refine congrArg _ ((issue_of h _).trans ?_)
    rw [waittEffect_fault hu hn hc hf ho]
    rfl
  case tkst =>
    obtain ⟨hsame, hflags, hlands⟩ := landAll_lands x.k x.s.tick 2 2 (.g d) (x.r.execFor gd (.g d))
      (fun _ => Sys2Proof.Machine.tokenWord x.k.tok[tk]) (.inr rfl) nofun
    have hpc : (x.lanewise gd 2 2 (.g d) fun _ => Sys2Proof.Machine.tokenWord x.k.tok[tk]).pc = x.k.pc := (congrArg Course.pc hsame.2 :)
    refine ⟨_, hsame, hflags, tokenWord_eq x.k.tok[tk] ▸ hlands, goes_of_ok h rfl rfl rfl ?_⟩
    split
    · exact hpc
    · exact hpc

/-! ### Counters (R195 to R200) -/

theorem ushiftRight_eq_zero_iff (y : W64) {n : Nat} (hn : n ≤ 64) : y >>> n = 0 ↔ bits y.toNat 63 n = 0 := by
  have hy := y.isLt
  have hmod : y.toNat / 2 ^ n < 2 ^ (63 + 1 - n) := by
    rw [Nat.div_lt_iff_lt_mul (by positivity), ← Nat.pow_add]
    exact lt_of_lt_of_eq hy (congrArg _ (by omega))
  rw [bits, Nat.mod_eq_of_lt hmod, ← Nat.shiftRight_eq_div_pow, ← BitVec.toNat_ushiftRight]
  exact ⟨fun h => by rw [h]; rfl, fun h => BitVec.eq_of_toNat_eq h⟩

theorem space_user {t : Truss} (h : t.kernelMode = false) : t.space = t.vd := by
  unfold Truss.space
  rw [h]
  rfl

theorem space_kernel {t : Truss} (h : t.kernelMode = true) : t.space = pfSpace := if_pos h

theorem gen_of_truss (s : State) (t : Truss) :
    s.gen t.space = if t.kernelMode then s.pfGen else match s.vdev? t.vd with | some v => v.gen | none => 0 := by
  cases hm : t.kernelMode with
  | true => rw [space_kernel hm]; rfl
  | false =>
    rw [space_user hm]
    exact if_neg (Nat.ne_of_lt t.vd.isLt)

section Cntrd
variable {s : State} {x : Ctx} {gd : Guard} {t : BTy} {d : Reg} {idx : BitVec 8} {y : W64} (h : Issues s x (.cntrd gd t d idx))
include h

theorem cntrd_gives (hy : x.counter idx.toNat = .ok y) :
    ∃ t', exec (.cntrd gd t d idx) s = .next t' ∧ Completes x t' t.regs d (x.r.execFor gd d) fun _ => typed t y := by
  refine ⟨_, rfl, completes_of_landAll h rfl (L := 4) (bTy_regs t) (.head _) ?_⟩
  by_cases h0 : x.r.execFor gd d = 0
  · exact (if_pos h0).trans (congrArg x.ok (by rw [h0, landAll_zero]))
  · rw [if_neg h0, hy]
    rfl

theorem cntrd_faults {cause : Nat} (h0 : x.r.execFor gd d ≠ 0) (hy : x.counter idx.toNat = .error cause) :
    Traps s x (.cntrd gd t d idx) cause 0 0 := by
  refine traps_of h rfl ((if_neg h0).trans ?_)
  rw [hy]

end Cntrd

/-- Settles O17: `genrd` and `cntrd` by what they land, `cntctl` by its checks. -/
theorem countersReadAndSet : Obligations.CountersReadAndSet := by
  refine ⟨fun gd d s x h => ?genrd, fun gd t d idx s x h => ⟨fun h0 => goes_of_nothing h rfl rfl (if_pos h0), fun v hm hv hi => ?meter,
    fun hm hlo hhi => ?event, fun h0 hm hlo hhi => ?priv, fun h0 hi => ?none⟩, fun gd a b k s x h => ?cntctl⟩
  case genrd =>
    obtain ⟨rfl, -⟩ := ctx_of h.1
    refine ⟨_, rfl, (congrArg (fun y : BitVec 16 => Completes x _ 1 d (x.r.execFor gd d) fun _ => y.zeroExtend 64) (gen_of_truss x.s x.t)).mp ?_⟩
    exact lanewise_completes h rfl gd 4 1 d (fun x _ => (x.s.gen x.t.space).zeroExtend 64) (.inl rfl) (.head _)
  case meter =>
    obtain ⟨rfl, -⟩ := ctx_of h.1
    refine cntrd_gives h ((if_pos hi).trans ?_)
    rw [space_user hm, hv]
  case event =>
    obtain ⟨rfl, -⟩ := ctx_of h.1
    refine cntrd_gives h ((if_neg (by omega)).trans ((if_pos ?_).trans (if_pos hm)))
    simp [hlo, hhi]
  case priv =>
    refine cntrd_faults h h0 ((if_neg (by omega)).trans ((if_pos ?_).trans (if_neg (Bool.eq_false_iff.mp hm))))
    simp [hlo, hhi]
  case none =>
    refine cntrd_faults h h0 ((if_neg (by omega)).trans (if_neg ?_))
    simp only [Bool.and_eq_true, decide_eq_true_eq]
    omega
  case cntctl =>
    obtain ⟨rfl, -⟩ := ctx_of h.1
    refine ⟨fun hu => goes_of_nothing h rfl rfl (if_neg (Bool.eq_false_iff.mp hu)), fun hu hw hc => ?set, fun hu hw => ?bad⟩
    case set =>
      refine goesWith_of_trusses h rfl rfl ((if_pos hu).trans ((if_neg ?_).trans ?_)) rfl rfl
      · rw [ushiftRight_eq_zero_iff _ (by decide)] at hw
        simp [hw, hc]
      · rfl
    case bad =>
      refine traps_of h rfl ((if_pos hu).trans (if_pos ?_))
      rw [ne_eq, ushiftRight_eq_zero_iff _ (by decide)] at hw
      simpa using hw

end Sys2Proof.Machine
end

section
/-!
PROOFS. Barrier words (02 R45; 09 R185 to R194; 19 R442).
-/
namespace Sys2Proof.Machine

/-- A course that holds nothing back sees its truss as it is. -/
theorem view_self {s : State} {x : Ctx} (hx : s.ctx? = some x) (hq : x.k.quarantine = []) : x.t.view x.c.course = x.t := by
  unfold Truss.view
  rw [course_of_truss hx]
  simp only [hq]
  rfl

/-! ### Operations on the truss -/

section TrussWord
variable {s : State} {x : Ctx} {i : Instr} {op : HeldOp} {gd : Guard} (h : Issues s x i) (hp : positionsOf i = 1)
  (he : exec i s = .next (issue i s fun x => x.once gd fun _ => x.trussWord op)) (hq : x.k.quarantine = []) (hu : x.r.uniform gd = true)
include h hq

theorem trussWord_error {cause detail : Nat} {faddr : W64} (ha : x.t.applyHeld x.c.course op = .error (cause, detail, faddr)) :
    x.trussWord op = .trap cause detail faddr := by
  unfold Ctx.trussWord
  rw [view_self h.1 hq, ha]

theorem trussWord_ok {u : Truss} (ha : x.t.applyHeld x.c.course op = .ok u) : x.trussWord op =
    if x.t.items.guarded then
      .ok { x.set { x.k with quarantine := x.k.quarantine ++ [⟨op, x.s.clk, none, x.s.nextId⟩] } with nextId := x.s.nextId + 1 }
    else .ok (x.s.setTruss x.c.truss u) := by
  unfold Ctx.trussWord
  rw [view_self h.1 hq, ha]

end TrussWord

theorem truss?_setTruss {s : State} {n : Nat} {t u : Truss} (h : s.truss? n = some t) : (s.setTruss n u).truss? n = some u := by
  unfold State.setTruss
  rw [truss?_modTruss, if_pos rfl, h]
  rfl

section OnceWord
variable {s : State} {x : Ctx} {i : Instr} {op : Ctx → HeldOp} {gd : Guard} (h : Issues s x i) (hp : positionsOf i = 1)
  (he : exec i s = .next (issue i s fun x => x.once gd fun _ => x.trussWord (op x)))
include h he

include hp in
/-- A word that acts once for its course does nothing when the guard is false. -/
theorem once_goes (hu : x.r.uniform gd = false) : Goes s x i x.k (x.k.pc + 8) :=
  goes_of_nothing h hp he (if_neg (Bool.eq_false_iff.mp hu))

theorem once_traps (hq : x.k.quarantine = []) (hu : x.r.uniform gd = true) {cause detail : Nat} {faddr : W64}
    (ha : x.t.applyHeld x.c.course (op x) = .error (cause, detail, faddr)) : Traps s x i cause detail faddr :=
  traps_of h he ((if_pos hu).trans (trussWord_error h hq ha))

include hp in
/-- A guarded course holds the operation back once its checks pass. -/
theorem once_held (hq : x.k.quarantine = []) (hu : x.r.uniform gd = true) (hg : x.t.items.guarded = true) {u : Truss}
    (ha : x.t.applyHeld x.c.course (op x) = .ok u) : GoesWith s x i (HeldBack x (op x)) :=
  goesWith_of_set h hp he ((if_pos hu).trans ((trussWord_ok h hq ha).trans (if_pos hg))) (by obtain ⟨rfl, -⟩ := ctx_of h.1; rfl) rfl rfl

include hp in
/-- The operation acts at once on the truss of a course that is not guarded. -/
theorem once_acts (hq : x.k.quarantine = []) (hu : x.r.uniform gd = true) (hg : x.t.items.guarded = false) {u : Truss}
    (ha : x.t.applyHeld x.c.course (op x) = .ok u) (hplace : u.place = x.t.place) {k' : Course} (hk : u.courses[x.c.course]? = some k')
    (hpc : k'.pc = x.k.pc) : GoesWith s x i (s.setTruss x.c.truss u) := by
  obtain ⟨rfl, -, ht, -⟩ := ctx_of h.1
  exact goesWith_of_truss h hp he ((if_pos hu).trans ((trussWord_ok h hq ha).trans (if_neg (Bool.eq_false_iff.mp hg)))) rfl
    (truss?_setTruss ht) hplace hk hpc

end OnceWord

/-! ### The phase of a barrier (R187, R188) -/

theorem complete_iff (y : Bar) (gone : BitVec 16) : y.complete gone = true ↔ y.valid = true ∧ y.fixed = true ∧ phaseOver y gone := by
  unfold Bar.complete phaseOver
  simp only [Bool.and_eq_true, beq_iff_eq, and_assoc]

/-- A barrier changed is tested. -/
theorem changeBar_becomes (t : Truss) (b : Fin 16) (f : Bar → Bar) : BarBecomes t (t.changeBar b f) b (f t.bars[b]) := by
  have hbar : ({ t with bars := t.bars.set b (f t.bars[b]) } : Truss).bars[b] = f t.bars[b] := Vector.getElem_set_self ..
  have hgone : ({ t with bars := t.bars.set b (f t.bars[b]) } : Truss).goneMask = t.goneMask := rfl
  unfold Truss.changeBar Truss.testBar
  rw [hgone]
  simp only [hbar]
  by_cases hc : (f t.bars[b]).complete t.goneMask = true
  · rw [if_pos hc]
    refine ⟨fun _ => ⟨?_, rfl⟩, fun hn => absurd ((complete_iff ..).mp hc) hn, rfl⟩
    exact Vector.set_set ..
  · rw [if_neg hc]
    exact ⟨fun hy => absurd ((complete_iff ..).mpr hy) hc, fun _ => ⟨rfl, rfl⟩, rfl⟩

theorem changeBar_place (t : Truss) (b : Fin 16) (f : Bar → Bar) : (t.changeBar b f).place = t.place :=
  (congrArg Truss.place (changeBar_becomes t b f).2.2 :)

theorem changeBar_tabPend (t : Truss) (b : Fin 16) (f : Bar → Bar) : (t.changeBar b f).tabPend = t.tabPend := by
  unfold Truss.changeBar Truss.testBar
  dsimp only
  split <;> rfl

/-- Every course keeps its pc while a barrier of its truss changes. -/
theorem changeBar_course {t : Truss} {j : Nat} {k : Course} (h : t.courses[j]? = some k) (b : Fin 16) (f : Bar → Bar) :
    ∃ k', (t.changeBar b f).courses[j]? = some k' ∧ k'.pc = k.pc := by
  obtain ⟨hover, hstays, -⟩ := changeBar_becomes t b f
  by_cases hy : (f t.bars[b]).valid = true ∧ (f t.bars[b]).fixed = true ∧ phaseOver (f t.bars[b]) t.goneMask
  · rw [(hover hy).2, List.getElem?_map, h]
    exact ⟨_, rfl, rfl⟩
  · rw [(hstays hy).2, h]
    exact ⟨_, rfl, rfl⟩

theorem publish_becomes {t u : Truss} {b : Fin 16} {y : Bar} (h : BarBecomes t u b y) (j : Nat) : BarBecomes t (u.publish j) b y := h

/-! ### The checks of barrier words -/

section Arrive
variable {t : Truss} {j : Nat} {b : Fin 16} {m : BitVec 16}

theorem barArrive_invalid (hv : t.bars[b].valid = false) : barArrive t j b m = barFault 0x02 := if_pos (by rw [hv]; rfl)

theorem barArrive_outside (hv : t.bars[b].valid = true) (hm : m &&& ~~~ t.courseMask ≠ 0) : barArrive t j b m = barFault 0x05 := by
  unfold barArrive
  simp only [hv, Bool.not_true, Bool.false_eq_true, if_false, hm, ne_eq, not_false_eq_true, if_true]

theorem barArrive_differs (hv : t.bars[b].valid = true) (hm : m &&& ~~~ t.courseMask = 0) (hfix : t.bars[b].fixed = true)
    (hne : m ≠ t.bars[b].mask) : barArrive t j b m = barFault 0x00 := by
  unfold barArrive
  simp only [hv, hm, hfix, hne, Bool.not_true, Bool.false_eq_true, ne_eq, not_true_eq_false, not_false_eq_true, decide_true, Bool.and_self,
    if_false, if_true]

/-- `bararv` with a mask that fits: its last two checks. -/
theorem barArrive_fits (hv : t.bars[b].valid = true) (hm : m &&& ~~~ t.courseMask = 0)
    (hfix : t.bars[b].fixed = true → m = t.bars[b].mask) : barArrive t j b m =
      if !m.getLsbD j then barFault 0x01
      else if t.bars[b].arrived.getLsbD j then barFault 0x04
      else .ok (t.changeBar b fun x => { x with mask := m, fixed := true, arrived := x.arrived ||| BitVec.ofNat 16 (2 ^ j) }) := by
  have hmask : (t.bars[b].fixed && decide (m ≠ t.bars[b].mask)) = false := by
    rw [Bool.and_eq_false_iff, decide_eq_false_iff_not, not_not, or_iff_not_imp_left, Bool.not_eq_false]
    exact hfix
  unfold barArrive
  simp only [hv, hm, hmask, Bool.not_true, Bool.false_eq_true, ne_eq, not_true_eq_false, if_false]

theorem barArrive_ok (hv : t.bars[b].valid = true) (hm : m &&& ~~~ t.courseMask = 0) (hfix : t.bars[b].fixed = true → m = t.bars[b].mask)
    (hj : m.getLsbD j = true) (ha : t.bars[b].arrived.getLsbD j = false) :
    barArrive t j b m = .ok (t.changeBar b fun x => { x with mask := m, fixed := true, arrived := x.arrived ||| BitVec.ofNat 16 (2 ^ j) }) := by
  rw [barArrive_fits hv hm hfix, hj, ha]
  rfl

end Arrive

theorem barExpect_valid {t : Truss} {b : Fin 16} {n : W32} (hv : t.bars[b].valid = true) : barExpect t b n =
    if (2 ^ 31 - 1 : Int) < t.bars[b].pend.toInt + n.toNat then barFault 0x06 else .ok (t.changeBar b fun x => { x with pend := x.pend + n }) := by
  unfold barExpect
  simp only [hv, Bool.not_true, Bool.false_eq_true, if_false]

theorem barExpect_invalid {t : Truss} {b : Fin 16} {n : W32} (hv : t.bars[b].valid = false) : barExpect t b n = barFault 0x02 :=
  if_pos (by rw [hv]; rfl)

/-- The operation of `bararv` on the truss. -/
theorem applyHeld_arrive {t u : Truss} {j : Nat} {b : Fin 16} {m : BitVec 16} (h : barArrive t j b m = .ok u) :
    t.applyHeld j (.arrive b m) = .ok (u.publish j) := congrArg (Except.map fun t : Truss => t.publish j) h

theorem applyHeld_arrive_error {t : Truss} {j : Nat} {b : Fin 16} {m : BitVec 16} {detail : Nat} (h : barArrive t j b m = barFault detail) :
    t.applyHeld j (.arrive b m) = barFault detail := congrArg (Except.map fun t : Truss => t.publish j) h

/-- Settles O18: each operation by what it does to the truss, held back or at once. -/
theorem barrierWordsComplete : Obligations.BarrierWordsComplete := by
  refine ⟨fun gd b s x hg hq hu => ⟨fun h hv => ?heldInit, fun a h => ?heldArrive, fun a h => ?heldExpect, fun h => ?heldInv⟩,
    fun gd b s x hg hq hu => ⟨fun h hv => ?init, fun a h => ?arrive, fun a h => ?expect, fun h => ?inv⟩⟩
  case heldInit => exact once_held (op := fun _ => .barinit b) h rfl rfl hq hu hg (if_neg (Bool.eq_false_iff.mp hv))
  case heldArrive =>
    intro m hv hm hfix hj ha
    exact once_held (op := fun x => .arrive b ((x.r.gget a).truncate 16)) h rfl rfl hq hu hg (applyHeld_arrive (barArrive_ok hv hm hfix hj ha))
  case heldExpect =>
    intro n hv hn
    exact once_held (op := fun x => .expect b ((x.r.gget a).truncate 32)) h rfl rfl hq hu hg ((barExpect_valid hv).trans (if_neg (Int.not_lt.mpr hn)))
  case heldInv => exact once_held (op := fun _ => .barinv b) h rfl rfl hq hu hg rfl
  case init =>
    exact once_acts (op := fun _ => .barinit b) h rfl rfl hq hu hg (if_neg (Bool.eq_false_iff.mp hv)) rfl (course_of_truss h.1) rfl
  case arrive =>
    intro m hv hm hfix hj ha
    obtain ⟨k', hk, hpc⟩ := changeBar_course (course_of_truss h.1) b fun y =>
      { y with mask := m, fixed := true, arrived := y.arrived ||| BitVec.ofNat 16 (2 ^ x.c.course) }
    refine ⟨_, publish_becomes (changeBar_becomes x.t b fun y => { y with mask := m, fixed := true, arrived := y.arrived ||| _ }) x.c.course,
      fun ht => ?_, once_acts (op := fun x => .arrive b ((x.r.gget a).truncate 16)) h rfl rfl hq hu hg
        (applyHeld_arrive (barArrive_ok hv hm hfix hj ha)) (changeBar_place ..) hk hpc⟩
    unfold Truss.publish
    rw [changeBar_tabPend, ht]
    rfl
  case expect =>
    intro n hv hn
    obtain ⟨k', hk, hpc⟩ := changeBar_course (course_of_truss h.1) b fun y => { y with pend := y.pend + n }
    exact ⟨_, changeBar_becomes x.t b fun y => { y with pend := y.pend + n }, changeBar_tabPend ..,
      once_acts (op := fun x => .expect b ((x.r.gget a).truncate 32)) h rfl rfl hq hu hg ((barExpect_valid hv).trans (if_neg (Int.not_lt.mpr hn)))
        (changeBar_place ..) hk hpc⟩
  case inv =>
    refine once_acts (op := fun _ => .barinv b) h rfl rfl hq hu hg rfl rfl (k' := x.k.wakeBar b 2) ?_ rfl
    rw [List.getElem?_map, course_of_truss h.1]
    rfl

/-- Settles O19: the checks of each word in order. -/
theorem barrierFaults : Obligations.BarrierFaults := by
  intro gd b s x hq
  refine ⟨fun i hi h hu => ?off, fun hu h hv => once_traps (op := fun _ => .barinit b) h rfl hq hu (if_pos hv), fun a hu h => ?arrive,
    fun a hu h => ⟨fun hv => ?_, fun hv hn => ?_⟩⟩
  case off =>
    obtain rfl | ⟨a, rfl⟩ | ⟨a, rfl⟩ | rfl := hi
    · exact once_goes (op := fun _ => .barinit b) h rfl rfl hu
    · exact once_goes (op := fun x => .arrive b ((x.r.gget a).truncate 16)) h rfl rfl hu
    · exact once_goes (op := fun x => .expect b ((x.r.gget a).truncate 32)) h rfl rfl hu
    · exact once_goes (op := fun _ => .barinv b) h rfl rfl hu
  case arrive =>
    have hfault : ∀ {detail : Nat}, barArrive x.t x.c.course b ((x.r.gget a).truncate 16) = barFault detail →
        Traps s x (.bararv gd b a) 0x04 detail 0 := fun hb =>
      once_traps (op := fun x => .arrive b ((x.r.gget a).truncate 16)) h rfl hq hu (applyHeld_arrive_error hb)
    exact ⟨fun hv => hfault (barArrive_invalid hv), fun hv hm => hfault (barArrive_outside hv hm),
      fun hv hm hfix hne => hfault (barArrive_differs hv hm hfix hne),
      fun hv hm hfix hj => hfault ((barArrive_fits hv hm hfix).trans (if_pos (by rw [hj]; rfl))),
      fun hv hm hfix hj ha => hfault ((barArrive_fits hv hm hfix).trans ((if_neg (by rw [hj]; decide)).trans (if_pos ha)))⟩
  · exact once_traps (op := fun x => .expect b ((x.r.gget a).truncate 32)) h rfl hq hu (barExpect_invalid hv)
  · exact once_traps (op := fun x => .expect b ((x.r.gget a).truncate 32)) h rfl hq hu ((barExpect_valid hv).trans (if_pos hn))

end Sys2Proof.Machine
end

section
/-!
PROOFS. `barwait` and `bartest` (09 R193).
-/
namespace Sys2Proof.Machine

/-! ### A result in a g register -/

theorem lowestLane_lt_of_uniform {k : Course} {gd : Guard} (h : k.uniform gd = true) : lowestLane k.lanes < 32 := by
  unfold Course.uniform at h
  rw [Bool.and_eq_true, decide_eq_true_eq] at h
  exact h.1

theorem execFor_g_ne_zero {k : Course} {gd : Guard} {d : GReg} (h : k.uniform gd = true) : k.execFor gd (.g d) ≠ 0 := by
  have hlt := lowestLane_lt_of_uniform h
  unfold Course.execFor
  simp only [h, if_true]
  intro h0
  have hbit := congrArg (fun m : LaneMask => m.getLsbD (lowestLane k.lanes)) h0
  rw [BitVec.getLsbD_ofNat, Nat.testBit_two_pow_self, decide_eq_true hlt] at hbit
  exact absurd (hbit.trans (BitVec.getLsbD_zero ..)) (by decide)

theorem execFor_g_zero {k : Course} {gd : Guard} {d : GReg} (h : k.uniform gd = false) : k.execFor gd (.g d) = 0 :=
  if_neg (Bool.eq_false_iff.mp h)

/-- A result that no lane's value decides lands in a g register whatever lanes execute. -/
theorem lands_g_one {k k' : Course} {regs : Nat} {d : GReg} {ex : LaneMask} {y : W64} (hex : ex ≠ 0)
    (h : Lands k k' regs (.g d) ex fun _ => y) : Lands k k' regs (.g d) 1 fun _ => y := by
  obtain ⟨hkeep, hland⟩ := h
  rw [if_neg hex] at hland
  exact ⟨hkeep, (if_neg (by decide : (1 : LaneMask) ≠ 0)).mpr hland⟩

theorem land_lands (k : Course) (tick L : Nat) (d : GReg) (y : W64) :
    SameButRegs k (k.land tick L (.g d y)) ∧ (k.land tick L (.g d y)).flagShadows = k.flagShadows ∧
      Lands k (k.land tick L (.g d y)) 2 (.g d) 1 fun _ => y :=
  landAll_lands k tick L 2 (.g d) 1 (fun _ => y) (.inr rfl) nofun

/-! ### The acquire of a barrier -/

/-- The truss after an acquire by a barrier word. -/
theorem truss?_barAcquire {s : State} {x : Ctx} (hx : s.ctx? = some x) (k : Course) (st : Prop) [Decidable st] :
    (if st then x.barAcquire (x.set k) else x.set k).truss? x.c.truss =
      some ((x.t.modCourse x.c.course fun _ => k).waited x.c.course (decide st)) := by
  have h := truss?_waited hx k (decide st) (decide st && decide (1 < x.t.items.span)) x.t.core
  by_cases hs : st
  · rw [decide_eq_true hs] at h ⊢
    rw [if_pos hs]
    unfold Ctx.barAcquire
    by_cases hspan : 1 < x.t.items.span
    · rw [decide_eq_true hspan] at h
      rw [if_pos hspan]
      exact h
    · rw [decide_eq_false hspan] at h
      rw [if_neg hspan]
      exact h
  · rw [decide_eq_false hs] at h ⊢
    rw [if_neg hs]
    exact h

theorem clk_barAcquire (x : Ctx) (k : Course) (st : Prop) [Decidable st] :
    (if st then x.barAcquire (x.set k) else x.set k).clk = x.s.clk := by
  unfold Ctx.barAcquire
  split
  · dsimp only
    split <;> rfl
  · rfl

/-- The acquire of a barrier word, in a truss of a span above 1 with its L1 invalidated. -/
def Ctx.acquired (x : Ctx) (s : State) : State :=
  let s1 := s.modTruss x.c.truss fun t => t.observe x.c.course
  if decide (1 < x.t.items.span) then s1.invalidateL1 x.t.core else s1

theorem barAcquire_eq (x : Ctx) (s : State) : x.barAcquire s = x.acquired s := by
  unfold Ctx.barAcquire Ctx.acquired
  simp only [decide_eq_true_eq]

/-- A word that leaves its course as `k`, with or without an acquire. -/
theorem goesWith_barAcquire {s : State} {x : Ctx} {i : Instr} {body : Ctx → Res} {k : Course} {st : Prop} [Decidable st] (h : Issues s x i)
    (hp : positionsOf i = 1) (he : exec i s = .next (issue i s body))
    (hb : body x = .ok (if st then x.barAcquire (x.set k) else x.set k)) (hpc : k.pc = x.k.pc) :
    GoesWith s x i (if st then x.acquired (x.set k) else x.set k) := by
  rw [← barAcquire_eq]
  refine goesWith_of_truss h hp he hb ?_ (truss?_barAcquire h.1 k st) (waited_place ..) (by rw [waited_courses]; exact courses_modCourse h.1 _) hpc
  obtain ⟨rfl, -⟩ := ctx_of h.1
  exact clk_barAcquire ..

/-- The status that a `barwait` meets. -/
theorem barStatus_self {s : State} {x : Ctx} (hx : s.ctx? = some x) (hq : x.k.quarantine = []) (b : Fin 16) : x.barStatus b =
    if x.k.abn then some 1 else if !x.t.bars[b].valid then some 2 else if !x.t.bars[b].arrived.getLsbD x.c.course then some 0 else none := by
  unfold Ctx.barStatus
  rw [view_self hx hq]

/-- The status is ABANDONED exactly while ABN is set. -/
theorem barStatus_one {s : State} {x : Ctx} (hx : s.ctx? = some x) (hq : x.k.quarantine = []) {b : Fin 16} {st : W64} (h : x.barStatus b = some st) :
    st = 1 ↔ x.k.abn = true := by
  rw [barStatus_self hx hq] at h
  cases ha : x.k.abn with
  | true =>
    rw [ha] at h
    cases h
    decide
  | false =>
    rw [ha] at h
    refine ⟨fun h1 => ?_, nofun⟩
    subst h1
    simp only [Bool.false_eq_true, if_false] at h
    split at h
    · exact absurd h (by decide)
    · split at h
      · exact absurd h (by decide)
      · cases h

/-- The course without ABN, when the status took it. -/
theorem calm_eq {s : State} {x : Ctx} (hx : s.ctx? = some x) (hq : x.k.quarantine = []) {b : Fin 16} {st : W64} (h : x.barStatus b = some st) :
    (if st = 1 then { x.k with abn := false } else x.k) = if x.k.abn then { x.k with abn := false } else x.k :=
  if_congr (barStatus_one hx hq h) rfl rfl

theorem lands_calm {k k1 : Course} {c : Prop} [Decidable c] {d : GReg} {y : W64}
    (h : Lands (if c then { k with abn := false } else k) k1 2 (.g d) 1 fun _ => y) : Lands k k1 2 (.g d) 1 fun _ => y := by
  split at h
  · exact h
  · exact h

/-- Settles O20: the blocking form and the `.tk` form by the status met, `bartest` by what it reads. -/
theorem barrierWaits : Obligations.BarrierWaits := by
  refine ⟨fun gd b d s x hu => ⟨fun h => ?offBlock, fun tk h => ?offToken, fun h => ?offTest⟩,
    fun gd b d s x hq hu => ⟨fun h hw => ⟨fun st hst => ?status, fun hst => ?waits⟩, fun st h hw => ?woke,
      fun tk h => ⟨fun st hst => ?tokStatus, fun hst => ?tokWaits⟩, fun h => ?test⟩⟩
  case offBlock => exact goes_of_nothing h rfl rfl (if_neg (Bool.eq_false_iff.mp hu))
  case offToken => exact countsOnly_of h rfl rfl (if_neg (Bool.eq_false_iff.mp hu))
  case offTest =>
    refine goes_of_nothing h rfl rfl ?_
    unfold bartestEffect Ctx.lanewise
    simp only [hu, execFor_g_zero hu, landAll_zero, Bool.and_false, Bool.false_eq_true, if_false]
    rfl
  case status =>
    have hst' : x.barStatus b = some st := (barStatus_self h.1 hq b).trans hst
    obtain ⟨rfl, -⟩ := ctx_of h.1
    obtain ⟨hsame, hflags, hlands⟩ := land_lands (if x.k.abn then { x.k with abn := false } else x.k) x.s.tick 1 d st
    refine ⟨_, hsame, hflags.trans (by split <;> rfl), lands_calm hlands, goesWith_barAcquire h rfl rfl ((if_pos hu).trans ?_)
      ((congrArg Course.pc hsame.2 :).trans (by split <;> rfl))⟩
    unfold barwaitBlocking
    rw [hw, hst']
    simp only [calm_eq h.1 hq hst']
  case waits =>
    have hst' : x.barStatus b = none := (barStatus_self h.1 hq b).trans hst
    obtain ⟨rfl, -⟩ := ctx_of h.1
    refine congrArg _ (issue_wait h ((if_pos hu).trans ?_))
    unfold barwaitBlocking
    rw [hw, hst']
    rfl
  case woke =>
    obtain ⟨rfl, -⟩ := ctx_of h.1
    obtain ⟨hsame, hflags, hlands⟩ := land_lands { x.k with barWoke := none } x.s.tick 1 d st
    refine ⟨_, hsame, hflags, hlands, goesWith_barAcquire h rfl rfl ((if_pos hu).trans ?_) (congrArg Course.pc hsame.2 :)⟩
    unfold barwaitBlocking
    rw [hw]
  case tokStatus =>
    have hst' : x.barStatus b = some st := (barStatus_self h.1 hq b).trans hst
    refine ⟨_, issueOp_countsOn _ tk .nothing [.g d st] false (st == 0) (decide (1 < x.t.items.span) && st == 0) ([RegVal.g d st].map RegVal.name),
      goes_of_ok h rfl rfl ((if_pos hu).trans ?_) (by dsimp only; split <;> rfl)⟩
    unfold barwaitToken
    rw [hst', ← calm_eq h.1 hq hst']
  case tokWaits =>
    have hst' : x.barStatus b = none := (barStatus_self h.1 hq b).trans hst
    refine ⟨_, issueOp_countsOn _ tk (.barrier b) [.g d 0] false true (decide (1 < x.t.items.span)) ([RegVal.g d 0].map RegVal.name),
      goes_of_ok h rfl rfl ((if_pos hu).trans ?_) rfl⟩
    unfold barwaitToken
    rw [hst']
  case test =>
    obtain ⟨rfl, -⟩ := ctx_of h.1
    obtain ⟨hsame, hflags, hlands⟩ := landAll_lands x.k x.s.tick 2 2 (.g d) (x.r.execFor gd (.g d)) (fun _ =>
      BitVec.ofNat 64 (x.t.bars[b].phase.toNat + (!x.t.bars[b].arrived.getLsbD x.c.course).toNat * 2 ^ 16 + x.k.abn.toNat * 2 ^ 17 +
        x.t.bars[b].valid.toNat * 2 ^ 18)) (.inr rfl) nofun
    refine ⟨_, hsame, hflags, lands_g_one (execFor_g_ne_zero hu) hlands, goesWith_barAcquire h rfl rfl ?_ (congrArg Course.pc hsame.2 :)⟩
    unfold bartestEffect
    rw [view_self h.1 hq]
    simp only [hu, Bool.and_true]
    rfl

end Sys2Proof.Machine
end

section
/-!
PROOFS. The words of layout entries and copy templates (10 R204 to R207, R212).
-/
namespace Sys2Proof.Machine

/-! ### Fields of a word -/

/-- Bit `b` of its word lies in the field. -/
def FieldAt.has (f : FieldAt) (b : Nat) : Bool := decide (f.low ≤ b) && decide (b < f.low + f.width)

/-- The mask of the fields of one word, and the bits that `y` puts there. -/
def fieldsMask (fs : List FieldAt) : W64 := fs.foldl (fun m f => m ||| fieldMask f.low f.width) 0#64
def fieldsBits (fs : List FieldAt) (y : Nat) : W64 := fs.foldl (fun v f => v ||| (f.bits y).1) 0#64

/-- The word with the fields written. -/
def writeWord (fs : List FieldAt) (y : Nat) (was : W64) : W64 := was &&& ~~~ (fieldsMask fs) ||| fieldsBits fs y &&& fieldsMask fs

theorem getLsbD_fieldMask {low width b : Nat} (hb : b < 64) :
    (fieldMask low width).getLsbD b = (decide (low ≤ b) && decide (b < low + width)) := by
  unfold fieldMask
  rw [BitVec.getLsbD_ofNat, decide_eq_true hb, Bool.true_and, Nat.testBit_mul_two_pow, Nat.testBit_two_pow_sub_one]
  by_cases hlo : low ≤ b
  · simp only [hlo, decide_true, Bool.true_and]
    exact decide_eq_decide.mpr (by omega)
  · simp [hlo]

theorem getLsbD_fieldBits (f : FieldAt) (y : Nat) {b : Nat} (hb : b < 64) :
    (f.bits y).1.getLsbD b = (f.has b && y.testBit (b - f.low + f.at_)) := by
  unfold FieldAt.bits FieldAt.has
  rw [BitVec.getLsbD_ofNat, decide_eq_true hb, Bool.true_and, Nat.testBit_mul_two_pow, Nat.testBit_mod_two_pow, Nat.testBit_div_two_pow]
  by_cases hlo : f.low ≤ b
  · simp only [hlo, decide_true, Bool.true_and]
    rw [show decide (b - f.low < f.width) = decide (b < f.low + f.width) from decide_eq_decide.mpr (by omega)]
  · simp [hlo]

theorem getLsbD_foldl_or {α : Type} (g : α → W64) (as : List α) (m : W64) (b : Nat) :
    (as.foldl (fun m a => m ||| g a) m).getLsbD b = (m.getLsbD b || as.any fun a => (g a).getLsbD b) := by
  induction as generalizing m with
  | nil => simp
  | cons a as ih => rw [List.foldl_cons, ih, BitVec.getLsbD_or, List.any_cons, Bool.or_assoc]

theorem getLsbD_fieldsMask (fs : List FieldAt) {b : Nat} (hb : b < 64) : (fieldsMask fs).getLsbD b = fs.any fun f => f.has b := by
  unfold fieldsMask
  rw [getLsbD_foldl_or, BitVec.getLsbD_zero, Bool.false_or]
  exact congrArg (List.any fs) (funext fun f => getLsbD_fieldMask hb)

theorem getLsbD_fieldsBits (fs : List FieldAt) (y : Nat) {b : Nat} (hb : b < 64) :
    (fieldsBits fs y).getLsbD b = fs.any fun f => f.has b && y.testBit (b - f.low + f.at_) := by
  unfold fieldsBits
  rw [getLsbD_foldl_or, BitVec.getLsbD_zero, Bool.false_or]
  exact congrArg (List.any fs) (funext fun f => getLsbD_fieldBits f y hb)

/-- A bit of a written word outside the fields stays. -/
theorem writeWord_outside {fs : List FieldAt} {y : Nat} {was : W64} {b : Nat} (h : ∀ f ∈ fs, f.has b = false) :
    (writeWord fs y was).getLsbD b = was.getLsbD b := by
  by_cases hb : b < 64
  · have hm : (fieldsMask fs).getLsbD b = false := by
      rw [getLsbD_fieldsMask fs hb, List.any_eq_false]
      exact fun f hf => Bool.eq_false_iff.mp (h f hf)
    unfold writeWord
    rw [BitVec.getLsbD_or, BitVec.getLsbD_and, BitVec.getLsbD_and, BitVec.getLsbD_not, hm, decide_eq_true hb]
    simp
  · rw [BitVec.getLsbD_of_ge _ _ (by omega), BitVec.getLsbD_of_ge _ _ (by omega)]

/-- Fields of one word that do not overlap. -/
structure Apart (fs : List FieldAt) : Prop where
  fits : ∀ f ∈ fs, f.low + f.width ≤ 64
  alone : ∀ f ∈ fs, ∀ g ∈ fs, ∀ b, f.has b = true → g.has b = true → g = f

/-- A bit of a written word in a field is the bit of the value. -/
theorem writeWord_inside {fs : List FieldAt} (ha : Apart fs) {y : Nat} {was : W64} {f : FieldAt} (hf : f ∈ fs) {b : Nat} (hb : f.has b = true) :
    (writeWord fs y was).getLsbD b = y.testBit (b - f.low + f.at_) := by
  have hlt : b < 64 := by
    have := ha.fits f hf
    unfold FieldAt.has at hb
    rw [Bool.and_eq_true, decide_eq_true_eq, decide_eq_true_eq] at hb
    omega
  have hm : (fieldsMask fs).getLsbD b = true := by
    rw [getLsbD_fieldsMask fs hlt, List.any_eq_true]
    exact ⟨f, hf, hb⟩
  have hv : (fieldsBits fs y).getLsbD b = y.testBit (b - f.low + f.at_) := by
    rw [getLsbD_fieldsBits fs y hlt]
    cases hy : y.testBit (b - f.low + f.at_) with
    | true =>
      rw [List.any_eq_true]
      exact ⟨f, hf, by rw [hb, hy]; rfl⟩
    | false =>
      rw [List.any_eq_false]
      intro g hg hgb
      rw [Bool.and_eq_true] at hgb
      rw [ha.alone f hf g hg b hb hgb.1, hy] at hgb
      exact absurd hgb.2 (by decide)
  unfold writeWord
  rw [BitVec.getLsbD_or, BitVec.getLsbD_and, BitVec.getLsbD_and, BitVec.getLsbD_not, hm, hv]
  simp

/-- A field of a written word reads what the value holds there. -/
theorem read_writeWord {fs : List FieldAt} (ha : Apart fs) {y : Nat} {was : W64} {f : FieldAt} (hf : f ∈ fs) :
    f.read (writeWord fs y was) = y / 2 ^ f.at_ % 2 ^ f.width * 2 ^ f.at_ := by
  unfold FieldAt.read
  refine congrArg (· * 2 ^ f.at_) (Nat.eq_of_testBit_eq fun i => ?_)
  rw [Nat.testBit_mod_two_pow, Nat.testBit_mod_two_pow, Nat.testBit_div_two_pow, Nat.testBit_div_two_pow]
  by_cases hi : i < f.width
  · have hb : f.has (i + f.low) = true := by unfold FieldAt.has; simp; omega
    have := writeWord_inside ha (y := y) (was := was) hf hb
    rw [BitVec.getLsbD, Nat.add_sub_cancel] at this
    rw [this]
  · simp [hi]

/-! ### Writing fields of an entry -/

/-- Every table write listed is one of course `j` to entry `e`. -/
def OwnPend (ws : List TabWrite) (j : Nat) (tpl : Bool) (e : Nat) : Prop := ∀ w ∈ ws, w.tpl = tpl ∧ w.n = e ∧ w.writer = j

theorem mem_coverWrites {ws : List TabWrite} {j n word : Nat} {tpl : Bool} {mask : W64} {w : TabWrite} (h : w ∈ coverWrites ws j tpl n word mask) :
    ∃ w' ∈ ws, w.tpl = w'.tpl ∧ w.n = w'.n ∧ w.writer = w'.writer := by
  unfold coverWrites at h
  obtain ⟨l, hl, hw⟩ := List.mem_flatten.mp (List.mem_filter.mp h).1
  obtain ⟨w', hw', rfl⟩ := List.mem_map.mp hl
  refine ⟨w', hw', ?_⟩
  split at hw
  · rcases List.mem_cons.mp hw with rfl | hw
    · exact ⟨rfl, rfl, rfl⟩
    · obtain rfl := List.mem_singleton.mp hw
      exact ⟨rfl, rfl, rfl⟩
  · obtain rfl := List.mem_singleton.mp hw
    exact ⟨rfl, rfl, rfl⟩

theorem OwnPend.cover {ws : List TabWrite} {j n word : Nat} {tpl : Bool} {mask : W64} (h : OwnPend ws j tpl n) :
    OwnPend (coverWrites ws j tpl n word mask) j tpl n := by
  intro w hw
  obtain ⟨w', hw', ht, hn, hr⟩ := mem_coverWrites hw
  obtain ⟨h1, h2, h3⟩ := h w' hw'
  exact ⟨ht.trans h1, hn.trans h2, hr.trans h3⟩

/-- No write of another course is lost to one's own. -/
theorem lostBits_own {t : Truss} {j n word tick : Nat} {tpl : Bool} {m : W64} (h : OwnPend t.tabPend j tpl n) :
    t.lostBits tick j tpl n word m = 0 := by
  have hnone : t.tabPend.zipIdx.filter (fun x => x.1.tpl == tpl && x.1.n == n && x.1.word == word && x.1.writer != j && x.1.stale.getLsbD j &&
      Config.pickTable tick (4096 + x.2)) = [] := by
    rw [List.filter_eq_nil_iff]
    intro x hx
    obtain ⟨-, -, hw⟩ := h x.1 (List.fst_mem_of_mem_zipIdx hx)
    simp [hw]
  unfold Truss.lostBits
  rw [hnone]
  rfl

section Put
variable {n : Nat} {t : Truss} {j e tick : Nat} {tpl : Bool}

/-- A write by a course of an entry that no other course has written: its word, and what stays to be observed. -/
theorem putWord_own (h : OwnPend t.tabPend j tpl e) (ws : Vector W64 n) (word : Nat) (m v : W64) :
    ∃ p, OwnPend p j tpl e ∧ t.putWord tick j tpl e ws word m v =
      ({ t with tabPend := p }, vput ws word (vat ws word 0 &&& ~~~ m ||| v &&& m)) := by
  refine ⟨_, ?_, Prod.ext rfl ?_⟩
  · intro w hw
    rcases List.mem_append.mp hw with hw | hw
    · exact h.cover w hw
    · split at hw
      · cases hw
      · obtain rfl := List.mem_singleton.mp hw
        exact ⟨rfl, rfl, rfl⟩
  · change vput ws word ((vat ws word 0 &&& ~~~ (m &&& ~~~ (t.lostBits tick j tpl e word m))) ||| (v &&& m &&& ~~~ (t.lostBits tick j tpl e word m))) = _
    rw [lostBits_own h, show ~~~ (0 : W64) = BitVec.allOnes 64 from rfl, BitVec.and_allOnes, BitVec.and_allOnes]

/-- The entry with fields written, word by word. -/
def writeFields (fs : List FieldAt) (y : Nat) (ws : Vector W64 n) : Vector W64 n :=
  (fs.map (·.word)).dedup.foldl (fun ws word => vput ws word (writeWord (fs.filter fun f => f.word == word) y (vat ws word 0))) ws

theorem putFields_own (h : OwnPend t.tabPend j tpl e) (ws : Vector W64 n) (fs : List FieldAt) (y : Nat) :
    ∃ p, OwnPend p j tpl e ∧ t.putFields tick j tpl e ws fs y = ({ t with tabPend := p }, writeFields fs y ws) := by
  unfold Truss.putFields writeFields
  generalize (fs.map (·.word)).dedup = words
  induction words generalizing t ws with
  | nil => exact ⟨t.tabPend, h, rfl⟩
  | cons word words ih =>
    obtain ⟨p, hp, heq⟩ := putWord_own (tick := tick) h ws word (fieldsMask (fs.filter fun f => f.word == word))
      (fieldsBits (fs.filter fun f => f.word == word) y)
    obtain ⟨q, hq, hrest⟩ := ih (t := { t with tabPend := p }) hp
      (vput ws word (writeWord (fs.filter fun f => f.word == word) y (vat ws word 0)))
    refine ⟨q, hq, ?_⟩
    rw [List.foldl_cons, List.foldl_cons]
    refine Eq.trans (congrArg (fun x : Truss × Vector W64 n => List.foldl _ x words) ?_) hrest
    exact heq

end Put

/-! ### Entries written and read back -/

theorem vat_vput {α : Type} {n : Nat} (xs : Vector α n) (i : Nat) (y d : α) (k : Nat) :
    vat (vput xs i y) k d = if k = i ∧ i < n then y else vat xs k d := by
  unfold vput
  by_cases hi : i < n
  · rw [dif_pos hi, show xs.set i y hi = xs.set (⟨i, hi⟩ : Fin n) y from rfl, vat_set]
    simp [hi]
  · rw [dif_neg hi, if_neg fun h => hi h.2]

/-- Fields that lie in one word of an entry of `n` words, and do not overlap. -/
structure OneWord (n word : Nat) (fs : List FieldAt) : Prop where
  apart : Apart fs
  inRange : word < n
  words : (fs.map (·.word)).dedup = [word]

namespace OneWord
variable {n word : Nat} {fs : List FieldAt} (h : OneWord n word fs)
include h

theorem word_eq {f : FieldAt} (hf : f ∈ fs) : f.word = word := by
  have : f.word ∈ (fs.map (·.word)).dedup := List.mem_dedup.mpr (List.mem_map_of_mem hf)
  rw [h.words] at this
  exact List.mem_singleton.mp this

theorem writeFields_eq (y : Nat) (ws : Vector W64 n) : writeFields fs y ws = vput ws word (writeWord fs y (vat ws word 0)) := by
  have hall : fs.filter (fun f => f.word == word) = fs := List.filter_eq_self.mpr fun f hf => beq_iff_eq.mpr (h.word_eq hf)
  unfold writeFields
  rw [h.words, List.foldl_cons, List.foldl_nil, hall]

theorem fieldsOf_write (y : Nat) (ws : Vector W64 n) :
    fieldsOf fs (writeFields fs y ws) = (fs.map fun f => y / 2 ^ f.at_ % 2 ^ f.width * 2 ^ f.at_).sum := by
  unfold fieldsOf
  refine congrArg List.sum (List.map_congr_left fun f hf => ?_)
  rw [h.writeFields_eq, vat_vput, if_pos ⟨h.word_eq hf, h.inRange⟩]
  exact read_writeWord h.apart hf

theorem keepsBits_write (y : Nat) (ws : Vector W64 n) : KeepsBits fs ws (writeFields fs y ws) := by
  intro w b hout
  rw [h.writeFields_eq, vat_vput]
  split
  · next hw =>
    obtain ⟨rfl, -⟩ := hw
    refine writeWord_outside fun f hf => ?_
    have := hout f hf
    rw [Bool.eq_false_iff]
    intro hb
    unfold FieldAt.has at hb
    rw [Bool.and_eq_true, decide_eq_true_eq, decide_eq_true_eq] at hb
    exact this ⟨h.word_eq hf, hb⟩
  · rfl

end OneWord

theorem oneWord_single {n : Nat} {f : FieldAt} (hfit : f.low + f.width ≤ 64) (hn : f.word < n) : OneWord n f.word [f] where
  apart := by
    refine ⟨fun g hg => ?_, fun g hg g' hg' _ _ _ => ?_⟩
    · obtain rfl := List.mem_singleton.mp hg
      exact hfit
    · rw [List.mem_singleton.mp hg, List.mem_singleton.mp hg']
  inRange := hn
  words := rfl

/-- Two fields of one word, the second above the first. -/
theorem oneWord_pair {n : Nat} {f g : FieldAt} (hbelow : f.low + f.width ≤ g.low) (hfit : g.low + g.width ≤ 64) (hword : g.word = f.word)
    (hn : f.word < n) : OneWord n f.word [f, g] where
  apart := by
    refine ⟨fun a ha => ?_, fun a ha a' ha' b hb hb' => ?_⟩
    · rcases List.mem_pair.mp ha with rfl | rfl
      · omega
      · exact hfit
    · unfold FieldAt.has at hb hb'
      simp only [Bool.and_eq_true, decide_eq_true_eq] at hb hb'
      rcases List.mem_pair.mp ha with rfl | rfl <;> rcases List.mem_pair.mp ha' with rfl | rfl
      · rfl
      · omega
      · omega
      · rfl
  inRange := hn
  words := by
    rw [List.map_cons, List.map_cons, List.map_nil, hword, List.dedup_cons_of_mem (List.mem_singleton_self _)]
    rfl

/-- The fields of each selection lie in one word (R204). -/
theorem lyFields_oneWord (sel : LySel) : ∃ word, OneWord 4 word (lyFields sel) := by
  cases sel
  case swz => exact ⟨_, oneWord_pair (by decide) (by decide) rfl (by decide)⟩
  all_goals exact ⟨_, oneWord_single (by decide) (by decide)⟩

theorem tplFields_oneWord (sel : TplSel) : ∃ word, OneWord 2 word (tplFields sel) := by
  cases sel
  case bar => exact ⟨_, oneWord_pair (by decide) (by decide) rfl (by decide)⟩
  all_goals exact ⟨_, oneWord_single (by decide) (by decide)⟩

/-- A legal value fits its fields (R205). -/
theorem lyFields_hold {sel : LySel} {y : Nat} (hy : y < 2 ^ 64) (h : lyLegal sel y = true) :
    ((lyFields sel).map fun f => y / 2 ^ f.at_ % 2 ^ f.width * 2 ^ f.at_).sum = y := by
  cases sel <;> simp [lyLegal, lyFields, bits] at h ⊢ <;> omega

theorem tplFields_hold {sel : TplSel} {y : Nat} (hy : y < 2 ^ 64) (h : tplLegal sel y = true) :
    ((tplFields sel).map fun f => y / 2 ^ f.at_ % 2 ^ f.width * 2 ^ f.at_).sum = y := by
  cases sel <;> simp [tplLegal, tplFields, bits] at h ⊢ <;> omega

/-- A whole word written with 0. -/
theorem writeWord_zero (word : Nat) (was : W64) : writeWord [⟨word, 0, 64, 0⟩] 0 was = 0 := by
  refine BitVec.eq_of_getLsbD_eq fun b hb => ?_
  rw [writeWord_inside (f := ⟨word, 0, 64, 0⟩) (oneWord_single (n := word + 1) (f := ⟨word, 0, 64, 0⟩) (by simp) (by simp)).apart
    (List.mem_singleton_self _) (by unfold FieldAt.has; simpa using hb), Nat.zero_testBit]
  exact BitVec.getLsbD_zero.symm

theorem writeFields_layout_clear (ws : Layout) :
    writeFields [⟨0, 0, 64, 0⟩, ⟨1, 0, 64, 0⟩, ⟨2, 0, 64, 0⟩, ⟨3, 0, 64, 0⟩] 0 ws = Layout.zero := by
  have hwords : (List.map FieldAt.word [⟨0, 0, 64, 0⟩, ⟨1, 0, 64, 0⟩, ⟨2, 0, 64, 0⟩, ⟨3, 0, 64, 0⟩]).dedup = [0, 1, 2, 3] := by decide
  unfold writeFields
  rw [hwords]
  simp only [List.foldl_cons, List.foldl_nil, List.filter, beq_self_eq_true, Nat.reduceBEq, writeWord_zero]
  refine Vector.ext fun i hi => ?_
  interval_cases i <;> simp [vput, Layout.zero]

theorem writeFields_template_clear (ws : Vector W64 2) : writeFields [⟨0, 0, 64, 0⟩, ⟨1, 0, 64, 0⟩] 0 ws = tplZero := by
  have hwords : (List.map FieldAt.word [⟨0, 0, 64, 0⟩, ⟨1, 0, 64, 0⟩]).dedup = [0, 1] := by decide
  unfold writeFields
  rw [hwords]
  simp only [List.foldl_cons, List.foldl_nil, List.filter, beq_self_eq_true, Nat.reduceBEq, writeWord_zero]
  refine Vector.ext fun i hi => ?_
  interval_cases i <;> simp [vput, tplZero]

/-! ### The words -/

theorem ownPend_of_nil {t : Truss} (h : t.tabPend = []) (j : Nat) (tpl : Bool) (e : Nat) : OwnPend t.tabPend j tpl e := by
  rw [h]; nofun

/-- What a course's write of fields makes of its truss, when no write to its tables is still to be observed: the entry, and its own write. -/
theorem putLayout_own {t : Truss} (h : t.tabPend = []) (tick j e : Nat) (fs : List FieldAt) (y : Nat) :
    ∃ u, t.putLayout tick j e fs y = u ∧ u.layouts = tset Layout.zero t.layouts e (writeFields fs y (tget Layout.zero t.layouts e)) ∧
      OwnPend u.tabPend j false e ∧ { u with layouts := t.layouts, tabPend := [] } = t ∧ u.place = t.place ∧ u.courses = t.courses := by
  obtain ⟨p, hp, heq⟩ := putFields_own (tick := tick) (ownPend_of_nil h j false e) (tget Layout.zero t.layouts e) fs y
  refine ⟨{ t with tabPend := p, layouts := tset Layout.zero t.layouts e (writeFields fs y (tget Layout.zero t.layouts e)) }, ?_, rfl, hp, ?_, rfl, rfl⟩
  · unfold Truss.putLayout
    rw [heq]
  · rw [← h]

theorem putTemplate_own {t : Truss} (h : t.tabPend = []) (tick j e : Nat) (fs : List FieldAt) (y : Nat) :
    ∃ u, t.putTemplate tick j e fs y = u ∧ u.tpls = tset tplZero t.tpls e (writeFields fs y (tget tplZero t.tpls e)) ∧
      OwnPend u.tabPend j true e ∧ { u with tpls := t.tpls, tabPend := [] } = t ∧ u.place = t.place ∧ u.courses = t.courses := by
  obtain ⟨p, hp, heq⟩ := putFields_own (tick := tick) (ownPend_of_nil h j true e) (tget tplZero t.tpls e) fs y
  refine ⟨{ t with tabPend := p, tpls := tset tplZero t.tpls e (writeFields fs y (tget tplZero t.tpls e)) }, ?_, rfl, hp, ?_, rfl, rfl⟩
  · unfold Truss.putTemplate
    rw [heq]
  · rw [← h]

/-- Without a write still to be observed, a course reads the entry as it is. -/
theorem tabSeen_of_nil {n : Nat} {t : Truss} (h : t.tabPend = []) (tick j e : Nat) (tpl : Bool) (ws : Vector W64 n) :
    t.tabSeen tick j tpl e ws = ws := by
  unfold Truss.tabSeen
  rw [h]
  rfl

/-- A word whose effect is a change of its truss that leaves the place and the courses. -/
theorem goesWith_setTruss {s : State} {x : Ctx} {i : Instr} {body : Ctx → Res} {u : Truss} (h : Issues s x i) (hp : positionsOf i = 1)
    (he : exec i s = .next (issue i s body)) (hb : body x = .ok (x.s.setTruss x.c.truss u)) (hplace : u.place = x.t.place)
    (hk : u.courses = x.t.courses) : GoesWith s x i (s.setTruss x.c.truss u) := by
  obtain ⟨rfl, -, ht, -⟩ := ctx_of h.1
  exact goesWith_of_truss h hp he hb rfl (truss?_setTruss ht) hplace (by rw [hk]; exact course_of_truss h.1) rfl

/-- Settles O21: the fields of a selection lie in one word and hold every legal value; a write touches them alone. -/
theorem layoutAndTemplateWordsComplete : Obligations.LayoutAndTemplateWordsComplete := by
  refine ⟨⟨fun gd n sel a s x h hu hpend hl => ?lyField, fun gd n a s x h hu hpend => ?lyClear,
      fun gd n op a s x h hu => ?lyOff, fun gd n sel a s x h hu hl => ?lyBad, fun gd d n sel s x h hpend => ?lyGet⟩,
    fun gd n sel a s x h hu hpend hl => ?tplField, fun gd n a s x h hu hpend => ?tplClear,
      fun gd n op a s x h hu => ?tplOff, fun gd n sel a s x h hu hl => ?tplBad, fun gd d n sel s x h hpend => ?tplGet⟩
  case lyField =>
    obtain ⟨word, hw⟩ := lyFields_oneWord sel
    obtain ⟨u, hput, hentry, hown, hrest, hplace, hcourses⟩ := putLayout_own hpend x.s.tick x.c.course n (lyFields sel) (x.r.gget a).toNat
    exact ⟨u, _, (hw.fieldsOf_write _ _).trans (lyFields_hold (BitVec.isLt _) hl), hw.keepsBits_write _ _, hentry, hown, hrest,
      goesWith_setTruss h rfl rfl ((if_pos hu).trans ((if_pos hl).trans (congrArg (fun u => Res.ok (x.s.setTruss x.c.truss u)) hput))) hplace hcourses⟩
  case lyClear =>
    obtain ⟨u, hput, hentry, -, hrest, hplace, hcourses⟩ := putLayout_own hpend x.s.tick x.c.course n [⟨0, 0, 64, 0⟩, ⟨1, 0, 64, 0⟩, ⟨2, 0, 64, 0⟩, ⟨3, 0, 64, 0⟩] 0
    rw [writeFields_layout_clear] at hentry
    exact ⟨u, hentry, hrest,
      goesWith_setTruss h rfl rfl ((if_pos hu).trans (congrArg (fun u => Res.ok (x.s.setTruss x.c.truss u)) hput)) hplace hcourses⟩
  case lyOff => exact goes_of_nothing h rfl rfl (if_neg (Bool.eq_false_iff.mp hu))
  case lyBad => exact traps_of h rfl ((if_pos hu).trans (if_neg (Bool.eq_false_iff.mp hl)))
  case lyGet =>
    refine ⟨_, rfl, ?_⟩
    have := lanewise_completes h rfl gd 8 2 (.g d) (fun x _ => BitVec.ofNat 64 (fieldsOf (lyFields sel) (x.t.layout x.s.tick x.c.course n)))
      (.inr rfl) (.head _)
    unfold Truss.layout at this
    rw [tabSeen_of_nil hpend] at this
    exact this
  case tplField =>
    obtain ⟨word, hw⟩ := tplFields_oneWord sel
    obtain ⟨u, hput, hentry, hown, hrest, hplace, hcourses⟩ := putTemplate_own hpend x.s.tick x.c.course n (tplFields sel) (x.r.gget a).toNat
    exact ⟨u, _, (hw.fieldsOf_write _ _).trans (tplFields_hold (BitVec.isLt _) hl), hw.keepsBits_write _ _, hentry, hown, hrest,
      goesWith_setTruss h rfl rfl ((if_pos hu).trans ((if_pos hl).trans (congrArg (fun u => Res.ok (x.s.setTruss x.c.truss u)) hput))) hplace hcourses⟩
  case tplClear =>
    obtain ⟨u, hput, hentry, -, hrest, hplace, hcourses⟩ := putTemplate_own hpend x.s.tick x.c.course n [⟨0, 0, 64, 0⟩, ⟨1, 0, 64, 0⟩] 0
    rw [writeFields_template_clear] at hentry
    exact ⟨u, hentry, hrest,
      goesWith_setTruss h rfl rfl ((if_pos hu).trans (congrArg (fun u => Res.ok (x.s.setTruss x.c.truss u)) hput)) hplace hcourses⟩
  case tplOff => exact goes_of_nothing h rfl rfl (if_neg (Bool.eq_false_iff.mp hu))
  case tplBad => exact traps_of h rfl ((if_pos hu).trans (if_neg (Bool.eq_false_iff.mp hl)))
  case tplGet =>
    refine ⟨_, rfl, ?_⟩
    have := lanewise_completes h rfl gd 8 2 (.g d) (fun x _ => BitVec.ofNat 64 (fieldsOf (tplFields sel) (x.t.template x.s.tick x.c.course n)))
      (.inr rfl) (.head _)
    unfold Truss.template at this
    rw [tabSeen_of_nil hpend] at this
    exact this

end Sys2Proof.Machine
end

section
/-!
PROOFS. The kernel-mode table words (10 R213, R214, R220, R221).
-/
namespace Sys2Proof.Machine

/-! ### `tlbinv` (R220) -/

/-- An entry of `gone` may have given the translation of `va` in space `sp` on `core`. -/
def usedOf (gone : List TlbEntry) (core sp va : Nat) : Bool :=
  gone.any fun e => e.space == sp && e.va ≤ va && va < e.va + e.size && (if e.first then e.unit == core else e.unit == clusterOf core)

/-- The effect of a `tlbinv` that drops the entries of `p`. -/
def dropEffect (x : Ctx) (p : TlbEntry → Bool) : Res :=
  .ok ((x.s.dropTlb (x.s.tlbs.filter p).contains).modCourse x.c fun k =>
    { k with inval := k.inval ++ (x.s.dropTlb (x.s.tlbs.filter p).contains).flightOf (usedOf (x.s.tlbs.filter p)) })

theorem tlbinvEffect_all (x : Ctx) (sc : TlbScope) : tlbinvEffect x .all sc = dropEffect x fun e => e.inScope x.t.core sc := by
  rw [show (fun e : TlbEntry => e.inScope x.t.core sc) = fun e => e.inScope x.t.core sc && true from funext fun e => (Bool.and_true _).symm]
  rfl

theorem tlbinvEffect_space (x : Ctx) (sc : TlbScope) {b : GReg} (h : (x.r.gget b).toNat % 1024 ≤ 512) :
    tlbinvEffect x (.space b) sc = dropEffect x fun e => e.inScope x.t.core sc && e.space == (x.r.gget b).toNat % 1024 :=
  if_neg (by simpa using h)

theorem tlbinvEffect_page (x : Ctx) (sc : TlbScope) {a b : GReg} (h : (x.r.gget b).toNat % 1024 ≤ 512) :
    tlbinvEffect x (.page a b) sc = dropEffect x fun e => e.inScope x.t.core sc && (e.space == (x.r.gget b).toNat % 1024 &&
      decide (e.va ≤ (x.r.gget a).toNat) && decide ((x.r.gget a).toNat < e.va + e.size)) :=
  if_neg (by simpa using h)

theorem dropTlb_contains (s : State) (p : TlbEntry → Bool) :
    s.dropTlb (s.tlbs.filter p).contains = { s with tlbs := s.tlbs.filter fun e => !p e } := by
  unfold State.dropTlb
  congr 1
  refine List.filter_congr fun e he => ?_
  rw [Bool.not_inj_iff, Bool.eq_iff_iff, List.contains_iff_mem, List.mem_filter]
  exact and_iff_right he

/-- An access of a part in flight whose translation an entry may have given is noted. -/
theorem mem_flightOf {s : State} {used : Nat → Nat → Nat → Bool} {a : Access} {j : Nat} {q : Part} {u : Truss} (ha : a ∈ s.accesses)
    (hs : a.scratch = false) (hq : a.parts[j]? = some q) (hf : q.phase.flying = true) (ht : s.truss? a.who.truss = some u)
    (hu : used u.core u.space q.va = true) : (a.id, j) ∈ s.flightOf used := by
  unfold State.flightOf
  refine List.mem_flatten.mpr ⟨_, List.mem_append_left _ (List.mem_map_of_mem ha), ?_⟩
  rw [if_neg (Bool.eq_false_iff.mp hs)]
  refine List.mem_filterMap.mpr ⟨(q, j), List.mem_zipIdx_iff_getElem?.mpr hq, ?_⟩
  dsimp only
  rw [hf, Bool.true_and, ht]
  exact if_pos hu

theorem tlbinv_drops {s : State} {x : Ctx} {gd : Guard} {m : TlbMode} {sc : TlbScope} {p : TlbEntry → Bool} (h : Issues s x (.tlbinv gd m sc))
    (hu : x.r.uniform gd = true) (hb : tlbinvEffect x m sc = dropEffect x p) : ∃ fl : List (Nat × Nat),
      GoesWith s x (.tlbinv gd m sc)
        (({ s with tlbs := s.tlbs.filter fun e => !p e } : State).setCourse x.c { x.k with inval := x.k.inval ++ fl }) ∧
      ∀ e ∈ s.tlbs, p e = true → e.first = true → ∀ a ∈ s.accesses, a.scratch = false → ∀ (j : Nat) q u pa gen host,
        a.parts[j]? = some q → s.truss? a.who.truss = some u → u.core = e.unit → u.space = e.space → e.va ≤ q.va → q.va < e.va + e.size →
        q.phase = .ready pa gen host → (a.id, j) ∈ fl := by
  obtain ⟨rfl, -, -, hk, -⟩ := ctx_of h.1
  refine ⟨(x.s.dropTlb (x.s.tlbs.filter p).contains).flightOf (usedOf (x.s.tlbs.filter p)),
    goesWith_of_set h rfl rfl ((if_pos hu).trans (hb.trans (congrArg Res.ok ?_))) rfl rfl rfl, ?_⟩
  · rw [dropTlb_contains]
    exact modCourse_eq_setCourse (by exact hk) _
  · intro e he hp hfirst a ha hs j q u pa gen host hq ht hunit hspace hlo hhi hready
    refine mem_flightOf (by exact ha) hs hq (by rw [hready]; rfl) (by exact ht) (List.any_eq_true.mpr ⟨e, List.mem_filter.mpr ⟨he, hp⟩, ?_⟩)
    rw [hfirst, hspace, hunit, beq_self_eq_true, decide_eq_true hlo, decide_eq_true hhi, if_pos rfl, beq_self_eq_true]
    rfl

/-! ### `hdlset` (R213, R214) -/

theorem hdlsetEffect_bound {x : Ctx} {a b : GReg} {r : CRef × Nat} {u : Truss}
    (hr : tget? (vat x.s.svcTaken (dieOf x.t.core) []) x.c.course = some r) (hu : x.s.truss? r.1.truss = some u) :
    hdlsetEffect x a b = if (x.r.gget a).toNat % 8 ≠ 0 then .trap 0x02 0 (x.r.gget a)
      else if 256 < (x.r.gget b).toNat then .trap 0x01 0 0
      else .ok (x.s.bindHandlers u.launch ((x.r.gget a).toNat % 2 ^ 57) (x.r.gget b).toNat) := by
  have hcaller : ((tget? (vat x.s.svcTaken (dieOf x.t.core) []) x.c.course).bind fun r => x.s.truss? r.1.truss) = some u := by
    rw [hr, Option.bind_some, hu]
  unfold hdlsetEffect
  rw [hcaller]

theorem hdlsetEffect_free {x : Ctx} {a b : GReg} (hr : tget? (vat x.s.svcTaken (dieOf x.t.core) []) x.c.course = none) :
    hdlsetEffect x a b = .trap 0x01 0 0 := by
  unfold hdlsetEffect
  rw [hr]
  rfl

/-- The binding keeps a truss's place and courses. -/
theorem truss?_bindHandlers {s : State} {n : Nat} {t : Truss} (h : s.truss? n = some t) (launch base cnt : Nat) :
    ∃ t', (s.bindHandlers launch base cnt).truss? n = some t' ∧ t'.place = t.place ∧ t'.courses = t.courses := by
  refine ⟨if t.launch = launch then { t with items := { t.items with tblBase := base, tblCnt := cnt } } else t, ?_, ?_, ?_⟩
  · unfold State.truss? State.bindHandlers at *
    rw [List.getElem?_map, h]
    rfl
  · split <;> rfl
  · split <;> rfl

/-- Settles O22: `tlbinv` by its mode, `fgset` by its space, `hdlset` by the record of the die's service course. -/
theorem kernelTableWordsComplete : Obligations.KernelTableWordsComplete := by
  refine ⟨fun gd i s x hi h hu => ?off, fun gd m sc s x h hu => ⟨?all, ?space, ?page, ?badSpace⟩,
    fun gd opn a s x h hu => ⟨fun hs => ?gate, fun hs => ?badGate⟩,
    fun gd a b s x h hu => ⟨?bind, ?misaligned, ?count, ?free⟩⟩
  case off =>
    obtain ⟨m, sc, rfl⟩ | ⟨opn, a, rfl⟩ | ⟨a, b, rfl⟩ := hi
    · exact goes_of_nothing h rfl rfl (if_neg (Bool.eq_false_iff.mp hu))
    · exact goes_of_nothing h rfl rfl (if_neg (Bool.eq_false_iff.mp hu))
    · exact goes_of_nothing h rfl rfl (if_neg (Bool.eq_false_iff.mp hu))
  case all =>
    rintro rfl
    exact tlbinv_drops h hu (tlbinvEffect_all x sc)
  case space =>
    rintro b rfl hs
    exact tlbinv_drops h hu (tlbinvEffect_space x sc hs)
  case page =>
    rintro a b rfl hs
    exact tlbinv_drops h hu (tlbinvEffect_page x sc hs)
  case badSpace =>
    rintro b (rfl | ⟨a, rfl⟩) hs
    · exact traps_of h rfl ((if_pos hu).trans (if_pos (decide_eq_true hs)))
    · exact traps_of h rfl ((if_pos hu).trans (if_pos (decide_eq_true hs)))
  case gate =>
    obtain ⟨rfl, -⟩ := ctx_of h.1
    exact goesWith_of_trusses h rfl rfl ((if_pos hu).trans (if_neg (Nat.not_lt.mpr hs))) rfl rfl
  case badGate => exact traps_of h rfl ((if_pos hu).trans (if_pos hs))
  case bind =>
    rintro u ⟨r, hr, hru⟩ hal hcnt
    obtain ⟨rfl, -, ht, -⟩ := ctx_of h.1
    obtain ⟨t', ht', hplace, hcourses⟩ := truss?_bindHandlers ht u.launch ((x.r.gget a).toNat % 2 ^ 57) (x.r.gget b).toNat
    exact goesWith_of_truss h rfl rfl ((if_pos hu).trans ((hdlsetEffect_bound hr hru).trans
      ((if_neg (not_not_intro hal)).trans (if_neg (Nat.not_lt.mpr hcnt))))) rfl ht' hplace (by rw [hcourses]; exact course_of_truss h.1) rfl
  case misaligned =>
    rintro u ⟨r, hr, hru⟩ hal
    obtain ⟨rfl, -⟩ := ctx_of h.1
    exact traps_of h rfl ((if_pos hu).trans ((hdlsetEffect_bound hr hru).trans (if_pos hal)))
  case count =>
    rintro u ⟨r, hr, hru⟩ hal hcnt
    obtain ⟨rfl, -⟩ := ctx_of h.1
    exact traps_of h rfl ((if_pos hu).trans ((hdlsetEffect_bound hr hru).trans ((if_neg (not_not_intro hal)).trans (if_pos hcnt))))
  case free =>
    intro hr
    obtain ⟨rfl, -⟩ := ctx_of h.1
    exact traps_of h rfl ((if_pos hu).trans (hdlsetEffect_free hr))

end Sys2Proof.Machine
end

section
/-!
PROOFS. Floating-point words, token-class words and paired words (07 R139 to R156; 04 R84, R93).
-/
namespace Sys2Proof.Machine

/-! ### Results with flags -/

theorem raise_sameButRegs (k : Course) (L : Nat) (fl : FFlags) : SameButRegs k (k.raise L fl) := by
  unfold Course.raise
  split
  · exact SameButRegs.refl k
  · exact ⟨rfl, rfl⟩

theorem raise_flagShadows (k : Course) (L : Nat) (fl : FFlags) :
    (k.raise L fl).flagShadows = k.flagShadows ++ if fl = 0 then [] else [⟨fl, k.pos + L⟩] := by
  unfold Course.raise
  split
  · exact (List.append_nil _).symm
  · rfl

theorem raise_regs (k : Course) (L : Nat) (fl : FFlags) : (k.raise L fl).v = k.v ∧ (k.raise L fl).g = k.g ∧ (k.raise L fl).p = k.p := by
  unfold Course.raise
  split <;> exact ⟨rfl, rfl, rfl⟩

theorem raise_shadows (k : Course) (L : Nat) (fl : FFlags) : (k.raise L fl).shadows = k.shadows := by
  unfold Course.raise
  split <;> rfl

/-- Flags on their way change no register. -/
theorem lands_raise {k k1 : Course} {regs : Nat} {d : Reg} {ex : LaneMask} {f : Nat → W64} (h : Lands k k1 regs d ex f) (L : Nat) (fl : FFlags) :
    Lands k (k1.raise L fl) regs d ex f := by
  obtain ⟨hv, hg, hp⟩ := raise_regs k1 L fl
  unfold Lands KeepsV KeepsG LandsV LandsG Course.vget Course.gget at *
  rw [hv, hg, hp]
  exact h

theorem raise_raises {k k1 : Course} (hsame : SameButRegs k k1) (hflags : k1.flagShadows = k.flagShadows) (L : Nat) (ex : LaneMask)
    (fl : Nat → FFlags) : Raises k (k1.raise L (laneFlags ex fl)) L ex fl := by
  unfold Raises
  rw [raise_flagShadows, hflags, show k1.pos = k.pos from (congrArg Course.pos hsame.2 :)]

section Words
variable {s : State} {x : Ctx} {i : Instr} (h : Issues s x i) (hp : positionsOf i = 1)
include h hp

/-- A word with results and flags completes with those that its lanes give. -/
theorem flagWord_completes {gd : Guard} {L regs : Nat} {d : Reg} {f : Ctx → Nat → W64 × FFlags} {v : Course → Nat → W64 × FFlags}
    (hr : regs = 1 ∨ regs = 2) (hd : d.opnd regs ∈ i.body.dst) (hv : f x = v x.r) :
    CompletesWith x (issueCourse i s fun x => x.flagWord gd L regs d (f x)) ⟨gd, L, regs, d, v⟩ := by
  have hfits : ∀ n : VReg, d = .v n → n.val + regs ≤ 256 := by
    rintro n rfl
    have hwf := dst_wf_of_issues h hd
    unfold Reg.opnd Opnd.wf at hwf
    simp only [Bool.and_eq_true, decide_eq_true_eq] at hwf
    exact hwf.2
  obtain ⟨hsame, hflags, hlands⟩ := landAll_lands x.k x.s.tick L regs d (x.r.execFor gd d) (fun l => (v x.r l).1) hr hfits
  unfold CompletesWith
  refine ⟨_, hsame.trans (raise_sameButRegs ..), raise_raises hsame hflags ..,
    lands_raise hlands .., hp ▸ issue_ok_done h (congrArg (fun y => x.ok (x.flagWord gd L regs d y)) hv) ?_⟩
  exact (congrArg Course.pc (hsame.trans (raise_sameButRegs ..)).2 :)

theorem fWord_completes {gd : Guard} {L regs regs' : Nat} {d : Reg} {f : Ctx → Nat → FRes} {v : Course → Nat → FRes} (hregs : regs = regs')
    (hr : regs' = 1 ∨ regs' = 2) (hd : d.opnd regs' ∈ i.body.dst) (hv : f x = v x.r) :
    CompletesWith x (issueCourse i s fun x => x.fWord gd L regs d (f x)) ⟨gd, L, regs', d, fun k l => coded64 (v k l)⟩ := by
  subst hregs
  exact flagWord_completes h hp (f := fun x l => coded64 (f x l)) hr hd (by rw [hv])

end Words

theorem fmtOf_regs (t : FTy) : (fmtOf t).regs = t.regs := by cases t <;> rfl
theorem fTy_regs (t : FTy) : t.regs = 1 ∨ t.regs = 2 := by cases t <;> decide
theorem wTy_regs (t : WTy) : t.regs = 1 ∨ t.regs = 2 := by cases t <;> decide

/-- The mode that a word takes from the course as it reads it. -/
theorem rm_eq_mode (x : Ctx) (rm : RM) : x.rm rm = x.r.mode rm := rfl

theorem floatWord_completes {i : Instr} {w : FloatWord} {s : State} {x : Ctx} (hw : floatWord i = some w) (h : Issues s x i) :
    ∃ t, exec i s = .next t ∧ CompletesWith x t w := by
  cases i with
  | fadd gd t rm d a b => cases hw; exact ⟨_, rfl, fWord_completes h rfl (fmtOf_regs t) (fTy_regs t) (.head _) rfl⟩
  | fsub gd t rm d a b => cases hw; exact ⟨_, rfl, fWord_completes h rfl (fmtOf_regs t) (fTy_regs t) (.head _) rfl⟩
  | fmul gd t rm d a b => cases hw; exact ⟨_, rfl, fWord_completes h rfl (fmtOf_regs t) (fTy_regs t) (.head _) rfl⟩
  | fma gd t rm d a b c => cases hw; exact ⟨_, rfl, fWord_completes h rfl (fmtOf_regs t) (fTy_regs t) (.head _) rfl⟩
  | fmin gd t d a b => cases hw; exact ⟨_, rfl, fWord_completes h rfl (fmtOf_regs t) (fTy_regs t) (.head _) rfl⟩
  | fmax gd t d a b => cases hw; exact ⟨_, rfl, fWord_completes h rfl (fmtOf_regs t) (fTy_regs t) (.head _) rfl⟩
  | fcvt gd t src rm d a => cases hw; exact ⟨_, rfl, fWord_completes h rfl (fmtOf_regs t) (fTy_regs t) (.head _) rfl⟩
  | icvt gd t src rm d a => cases hw; exact ⟨_, rfl, fWord_completes h rfl (fmtOf_regs t) (fTy_regs t) (.head _) rfl⟩
  | ficvt gd t src rm d a =>
    cases hw
    refine ⟨_, rfl, ?_⟩
    have := flagWord_completes h rfl (gd := gd) (L := 8) (d := d) (f := fun x l => toInt (numW t) (x.rm rm) (x.r.fval (fmtOf src) a l))
      (v := fun k l => toInt (numW t) (k.mode rm) (k.fval (fmtOf src) a l)) (wTy_regs t) (.head _) rfl
    rw [← numW_regs] at this ⊢
    exact this
  | qcvt gd t f sat d a pos =>
    cases hw
    refine ⟨_, rfl, flagWord_completes h rfl (d := .v d) (.inl rfl) (.head _) (funext fun l => Prod.ext (BitVec.ofNat_toNat ..) rfl)⟩
  | qexp gd t f d a pos => cases hw; exact ⟨_, rfl, flagWord_completes h rfl (.inl rfl) (.head _) rfl⟩
  | fscl gd t rm d a b => cases hw; exact ⟨_, rfl, fWord_completes h rfl (fmtOf_regs t) (fTy_regs t) (.head _) rfl⟩
  | frnd gd t rm d a => cases hw; exact ⟨_, rfl, fWord_completes h rfl (fmtOf_regs t) (fTy_regs t) (.head _) rfl⟩
  | fclass gd t d a => cases hw; exact ⟨_, rfl, flagWord_completes h rfl (.inl rfl) (.head _) rfl⟩
  | hadd2 gd t rm d a b => cases hw; exact ⟨_, rfl, fWord_completes h rfl rfl (.inl rfl) (.head _) rfl⟩
  | hmul2 gd t rm d a b => cases hw; exact ⟨_, rfl, fWord_completes h rfl rfl (.inl rfl) (.head _) rfl⟩
  | hfma2 gd t rm d a b c => cases hw; exact ⟨_, rfl, fWord_completes h rfl rfl (.inl rfl) (.head _) rfl⟩
  | hmin2 gd t d a b => cases hw; exact ⟨_, rfl, fWord_completes h rfl rfl (.inl rfl) (.head _) rfl⟩
  | hmax2 gd t d a b => cases hw; exact ⟨_, rfl, fWord_completes h rfl rfl (.inl rfl) (.head _) rfl⟩
  | fdot4 gd rm ae5 be5 d a b c => cases hw; exact ⟨_, rfl, fWord_completes h rfl rfl (.inl rfl) (.head _) rfl⟩
  | scvt gd f d a => cases hw; exact ⟨_, rfl, fWord_completes h rfl rfl (.inl rfl) (.head _) rfl⟩
  | fmovi gd d imm => cases hw; exact ⟨_, rfl, flagWord_completes h rfl (.inl rfl) (.head _) rfl⟩
  | faddi gd d a imm => cases hw; exact ⟨_, rfl, fWord_completes h rfl rfl (.inl rfl) (.head _) rfl⟩
  | fmuli gd d a imm => cases hw; exact ⟨_, rfl, fWord_completes h rfl rfl (.inl rfl) (.head _) rfl⟩
  | _ => cases hw

theorem plainClass_eq (t : FTy) : (fmtOf t).plainClass = if t = .f64 then 8 else 6 := by cases t <;> rfl

/-- Settles O2: the words with a register result by `flagWord_completes`, `fcmp` by its predicate. -/
theorem floatWordsComplete : Obligations.FloatWordsComplete := by
  refine ⟨fun i w s x hw h => floatWord_completes hw h, fun gd t cc d a b s x h => ?_⟩
  obtain ⟨hsame, hflags, hkeep, hland⟩ := landAll_pred x.k x.s.tick (fmtOf t).plainClass d (x.r.exec gd)
    (fun l => (fCompare (fmtOf t) cc (x.r.elem (fmtOf t) a l) (x.r.elem (fmtOf t) b l)).1)
  have hraises := raise_raises hsame hflags (fmtOf t).plainClass (x.r.exec gd)
    (fun l => (fCompare (fmtOf t) cc (x.r.elem (fmtOf t) a l) (x.r.elem (fmtOf t) b l)).2)
  obtain ⟨hv, hg, hp⟩ := raise_regs (x.k.landAll x.s.tick (fmtOf t).plainClass (x.r.exec gd) [.p d (x.r.exec gd) (BitVec.ofNat 32 (maskOf 32
    fun l => (fCompare (fmtOf t) cc (x.r.elem (fmtOf t) a l) (x.r.elem (fmtOf t) b l)).1))]) (fmtOf t).plainClass
    (laneFlags (x.r.exec gd) fun l => (fCompare (fmtOf t) cc (x.r.elem (fmtOf t) a l) (x.r.elem (fmtOf t) b l)).2)
  refine ⟨_, rfl, _, hsame.trans (raise_sameButRegs ..), plainClass_eq t ▸ hraises, ?_, ?_,
    issue_ok_done h rfl (congrArg Course.pc (hsame.trans (raise_sameButRegs ..)).2 :)⟩
  · unfold KeepsP Course.pget at *
    rw [hv, hg, hp]
    exact hkeep
  · unfold LandsP Course.pget at *
    rw [hp]
    exact hland

/-! ### Token-class words (R149) -/

theorem tokWord_completes {s : State} {x : Ctx} {i : Instr} (h : Issues s x i) (hp : positionsOf i = 1) {gd : Guard} {tk : Tok}
    {regs regs' : Nat} {d : VReg} {f : Ctx → Nat → FRes} {v : Course → Nat → FRes} (hregs : regs = regs') (hv : f x = v x.r) :
    ∃ k' o, Counts x.k k' tk o ∧ o.wait = .nothing ∧ o.poison = false ∧ o.flags = laneFlags (x.r.exec gd) (fun l => (v x.r l).2) ∧
      o.writes = (if x.r.exec gd = 0 then [] else resultVals regs' (.v d) (x.r.exec gd) fun l => BitVec.ofNat 64 (v x.r l).1) ∧
      Done x (issueCourse i s fun x => x.tokWord gd tk regs d (f x)) k' 1 (x.k.pc + 8) := by
  subst hregs
  obtain ⟨o, hcounts, hwait, hwrites, hflags, hpoison, -⟩ := issueOp_counts x.k tk .nothing
    (if x.r.exec gd = 0 then [] else resultVals regs (.v d) (x.r.exec gd) fun l => BitVec.ofNat 64 (v x.r l).1) false false false
    (laneFlags (x.r.exec gd) fun l => (v x.r l).2) (List.range' d.val regs)
  have hdone := issue_ok_done h (body := fun x => x.ok (x.tokWord gd tk regs d (f x)))
    (congrArg (fun y => x.ok (x.tokWord gd tk regs d y)) hv) rfl
  rw [hp] at hdone
  exact ⟨_, o, hcounts, hwait, hpoison, hflags, hwrites, hdone⟩

/-- Settles O3: each word issues one operation that carries its results. -/
theorem tokenFloatWordsComplete : Obligations.TokenFloatWordsComplete := by
  intro i w s x hw h
  cases i with
  | frcp gd t rm tk d a => cases hw; exact ⟨_, rfl, tokWord_completes h rfl (fmtOf_regs t) rfl⟩
  | frsq gd t rm tk d a => cases hw; exact ⟨_, rfl, tokWord_completes h rfl (fmtOf_regs t) rfl⟩
  | fsqrt gd t rm tk d a => cases hw; exact ⟨_, rfl, tokWord_completes h rfl (fmtOf_regs t) rfl⟩
  | fexp2 gd t rm tk d a => cases hw; exact ⟨_, rfl, tokWord_completes h rfl rfl rfl⟩
  | flog2 gd t rm tk d a => cases hw; exact ⟨_, rfl, tokWord_completes h rfl rfl rfl⟩
  | fsin gd t rm tk d a => cases hw; exact ⟨_, rfl, tokWord_completes h rfl rfl rfl⟩
  | fcos gd t rm tk d a => cases hw; exact ⟨_, rfl, tokWord_completes h rfl rfl rfl⟩
  | fdiv gd t rm tk d a b => cases hw; exact ⟨_, rfl, tokWord_completes h rfl (fmtOf_regs t) rfl⟩
  | _ => cases hw

/-! ### Paired words (R93) -/

/-- A register that a result does not name lies in a shadow after it only if it did before. -/
theorem inShadow_of_land {k : Course} {tick L : Nat} {w : RegVal} {name l : Nat} (hn : w.name ≠ name)
    (h : (k.land tick L w).inShadow name l) : k.inShadow name l := by
  obtain ⟨sh, hmem, hname, hlane⟩ := h
  refine ⟨sh, (mem_land_shadows hmem).resolve_right fun e => hn (e.symm.trans hname), hname, hlane⟩

/-- Courses that differ at most in their registers. -/
def OnlyRegs (k k' : Course) : Prop := { k' with v := k.v, g := k.g, p := k.p } = k

theorem onlyRegs_blend (k : Course) (ch : Nat → Bool) (w : RegVal) : OnlyRegs k (k.blend ch w) := by
  cases w with
  | v n m y => rfl
  | p n m y => rfl
  | g n y =>
    unfold OnlyRegs Course.blend
    dsimp only
    split <;> rfl

theorem OnlyRegs.trans {a b c : Course} (hab : OnlyRegs a b) (hbc : OnlyRegs b c) : OnlyRegs a c := by
  unfold OnlyRegs at *
  rw [← hab, ← hbc]

theorem onlyRegs_foldl {α : Type} {f : Course → α → Course} (hf : ∀ k a, OnlyRegs k (f k a)) (as : List α) (k : Course) :
    OnlyRegs k (as.foldl f k) := by
  induction as generalizing k with
  | nil => rfl
  | cons a as ih => exact (hf k a).trans (ih (f k a))

theorem onlyRegs_foldr {α : Type} {f : α → Course → Course} (hf : ∀ a k, OnlyRegs k (f a k)) (as : List α) (k : Course) :
    OnlyRegs k (as.foldr f k) := by
  induction as with
  | nil => rfl
  | cons a as ih => exact ih.trans (hf a _)

/-- A word reads its course with registers alone changed (R96). -/
theorem onlyRegs_seen (k : Course) (tick : Nat) : OnlyRegs k (k.seen tick) := by
  unfold Course.seen
  exact (onlyRegs_foldl (fun k o => onlyRegs_foldl (fun k w => onlyRegs_blend ..) ..) ..).trans (onlyRegs_foldr (fun x k => onlyRegs_blend ..) ..)

theorem onlyRegs_r {s : State} {x : Ctx} (hx : s.ctx? = some x) : OnlyRegs x.k x.r := by
  obtain ⟨-, -, -, -, hr, -⟩ := ctx_of hx
  rw [hr]
  exact onlyRegs_seen ..

theorem r_lanes {s : State} {x : Ctx} (hx : s.ctx? = some x) : x.r.lanes = x.k.lanes := (congrArg Course.lanes (onlyRegs_r hx) :)

/-- What a half writes: its value in every active lane. -/
def halfResult (x : Ctx) (h : Half) : RegVal := .v h.dst x.k.lanes (laneVec fun l => BitVec.ofNat 32 (halfValue x.r h l).1)
/-- The flags that a half raises. -/
def halfFlags (x : Ctx) (h : Half) : FFlags := laneFlags x.k.lanes fun l => (halfValue x.r h l).2

theorem landHalf_eq {s : State} {x : Ctx} (hx : s.ctx? = some x) (k : Course) (h : Half) : landHalf x k h =
    (if x.k.lanes = 0 then k else k.land x.s.tick (halfClass h) (halfResult x h)).raise (halfClass h) (halfFlags x h) := by
  unfold landHalf
  rw [r_lanes hx]
  rfl

/-- The course after the result of one half, from the course before it: the result in the active lanes, its flags on their way, and the other
registers with their shadows. -/
structure HalfLands (x : Ctx) (h : Half) (k k' : Course) : Prop where
  same : SameButRegs k k'
  g : k'.g = k.g
  p : k'.p = k.p
  keeps : ∀ n l, ¬ (n = h.dst.val ∧ x.k.lanes.getLsbD l = true) → k'.vget n l = k.vget n l
  shadow : ∀ n l, n ≠ h.dst.val → k'.inShadow n l → k.inShadow n l
  lands : ∀ l, x.k.lanes.getLsbD l = true → LandsV k k' h.dst l (BitVec.ofNat 32 (halfValue x.r h l).1)
  flags : k'.flagShadows = k.flagShadows ++ if halfFlags x h = 0 then [] else [⟨halfFlags x h, k.pos + halfClass h⟩]

theorem HalfLands.raise {x : Ctx} {h : Half} {k k1 : Course} (hsame : SameButRegs k k1) (hg : k1.g = k.g) (hp : k1.p = k.p)
    (hkeeps : ∀ n l, ¬ (n = h.dst.val ∧ x.k.lanes.getLsbD l = true) → k1.vget n l = k.vget n l)
    (hshadow : ∀ n l, n ≠ h.dst.val → k1.inShadow n l → k.inShadow n l)
    (hlands : ∀ l, x.k.lanes.getLsbD l = true → LandsV k k1 h.dst l (BitVec.ofNat 32 (halfValue x.r h l).1))
    (hflags : k1.flagShadows = k.flagShadows) : HalfLands x h k (k1.raise (halfClass h) (halfFlags x h)) := by
  obtain ⟨hv', hg', hp'⟩ := raise_regs k1 (halfClass h) (halfFlags x h)
  have hget : ∀ n l, (k1.raise (halfClass h) (halfFlags x h)).vget n l = k1.vget n l := by
    intro n l
    unfold Course.vget
    rw [hv']
  refine ⟨hsame.trans (raise_sameButRegs ..), hg'.trans hg, hp'.trans hp, fun n l hn => (hget n l).trans (hkeeps n l hn),
    fun n l hn hs => hshadow n l hn ?_, fun l hl => ?_, ?_⟩
  · unfold Course.inShadow at hs ⊢
    rwa [raise_shadows] at hs
  · unfold LandsV
    rw [hget]
    exact hlands l hl
  · rw [raise_flagShadows, hflags, show k1.pos = k.pos from (congrArg Course.pos hsame.2 :)]

theorem landHalf_lands {s : State} {x : Ctx} (hx : s.ctx? = some x) (k : Course) (h : Half) : HalfLands x h k (landHalf x k h) := by
  rw [landHalf_eq hx]
  by_cases hex : x.k.lanes = 0
  · rw [if_pos hex]
    exact HalfLands.raise (SameButRegs.refl k) rfl rfl (fun _ _ _ => rfl) (fun _ _ _ hs => hs)
      (fun l hl => absurd (hex ▸ hl) (not_lane_zero l)) rfl
  · rw [if_neg hex]
    obtain ⟨hsame, hflags⟩ := land_keeps k x.s.tick (halfClass h) (halfResult x h)
    refine HalfLands.raise hsame rfl rfl (fun n l hn => ?_) (fun n l hn => inShadow_of_land (Ne.symm hn))
      (fun l hl => lands_v k x.s.tick (halfClass h) h.dst x.k.lanes (fun l => BitVec.ofNat 32 (halfValue x.r h l).1) hl) hflags
    exact (vget_land ..).trans (if_neg fun e => hn ⟨e.1, e.2.1⟩)

/-- The destinations of the halves of a well-formed paired word differ (R84). -/
theorem pair_dst_ne {s : State} {x : Ctx} {h0 h1 : Half} (h : Issues s x (Instr.pair h0 h1)) : h0.dst.val ≠ h1.dst.val := by
  have hw := dst_wf h
  have hok : (Instr.pair h0 h1).fieldsOk = pairOk h0 h1 := by cases h0 <;> rfl
  unfold Instr.wf at hw
  rw [hok] at hw
  unfold pairOk at hw
  simp only [Bool.and_eq_true, bne_iff_ne] at hw
  exact fun e => hw.2.1 (by rw [e])

theorem exec_pair (h0 h1 : Half) (s : State) : exec (Instr.pair h0 h1) s = .next (pairWord h0 h1 s) := by cases h0 <;> rfl

/-- Settles O4: the second half lands beside the first, both with the values read at issue. -/
theorem pairedWordsComplete : Obligations.PairedWordsComplete := by
  intro h0 h1 s x h
  have hne := pair_dst_ne h
  have hpos : positionsOf (Instr.pair h0 h1) = 1 := by cases h0 <;> rfl
  have first := landHalf_lands h.1 x.k h0
  have second := landHalf_lands h.1 (landHalf x x.k h0) h1
  have hsame := first.same.trans second.same
  refine ⟨_, exec_pair h0 h1 s, landHalf x (landHalf x x.k h0) h1, hsame, second.g.trans first.g, second.p.trans first.p,
    fun n l hn => ?_, fun l hl => ⟨?_, ?_⟩, ?_, hpos ▸ issue_ok_done h rfl (congrArg Course.pc hsame.2 :)⟩
  · exact (second.keeps n l fun e => hn ⟨.inr e.1, e.2⟩).trans (first.keeps n l fun e => hn ⟨.inl e.1, e.2⟩)
  · have := first.lands l hl
    unfold LandsV at this ⊢
    rwa [second.keeps _ l fun e => hne e.1]
  · have := second.lands l hl
    unfold LandsV at this ⊢
    rw [first.keeps _ l fun e => hne e.1.symm] at this
    exact this.imp_right fun ⟨hs, hy⟩ => ⟨first.shadow _ l (Ne.symm hne) hs, hy⟩
  · rw [second.flags, first.flags, show (landHalf x x.k h0).pos = x.k.pos from (congrArg Course.pos first.same.2 :)]
    rfl

end Sys2Proof.Machine
end

section
/-!
PROOFS. The lane-exchange words (06 R134 to R137).
-/
namespace Sys2Proof.Machine

/-! ### Lanes of a mask -/

theorem mem_lanesIn {m : LaneMask} {l : Nat} : l ∈ lanesIn m ↔ m.getLsbD l = true := by
  unfold lanesIn
  rw [List.mem_filter, List.mem_range]
  exact ⟨fun h => h.2, fun h => ⟨getLsbD_out m h, h⟩⟩

theorem laneMask_eq {m n : LaneMask} (h : ∀ l, m.getLsbD l = true ↔ n.getLsbD l = true) : m = n :=
  BitVec.eq_of_getLsbD_eq fun l _ => Bool.eq_iff_iff.mpr (h l)

theorem laneMask_eq_zero {m : LaneMask} : m = 0 ↔ ∀ l, m.getLsbD l = false := by
  refine ⟨fun h l => by rw [h]; exact BitVec.getLsbD_zero .., fun h => laneMask_eq fun l => ?_⟩
  rw [h l]
  exact ⟨nofun, fun e => absurd e (not_lane_zero l)⟩

theorem getLsbD_lowestLane {m : LaneMask} (h : m ≠ 0) : m.getLsbD (lowestLane m) = true := by
  unfold lowestLane
  cases hf : (List.range 32).find? (fun l => m.getLsbD l) with
  | some l => exact List.find?_some hf
  | none =>
    rw [List.find?_eq_none] at hf
    refine absurd (laneMask_eq_zero.mpr fun l => ?_) h
    rw [Bool.eq_false_iff]
    exact fun hl => hf l (List.mem_range.mpr (getLsbD_out m hl)) hl

/-- Results that agree in the executing lanes land alike. -/
theorem Lands.congr_lanes {k k' : Course} {regs : Nat} {d : Reg} {ex : LaneMask} {f g : Nat → W64} (h : Lands k k' regs d ex f)
    (hfg : ∀ l, ex.getLsbD l = true → f l = g l) : Lands k k' regs d ex g := by
  cases d with
  | v n => exact ⟨h.1, fun l hl => hfg l hl ▸ h.2 l hl⟩
  | g n =>
    obtain ⟨hkeep, hland⟩ := h
    refine ⟨hkeep, ?_⟩
    by_cases hex : ex = 0
    · rwa [if_pos hex] at hland ⊢
    · rw [if_neg hex] at hland ⊢
      rwa [← hfg _ (getLsbD_lowestLane hex)]

theorem Completes.congr_lanes {x : Ctx} {t : State} {regs : Nat} {d : Reg} {ex : LaneMask} {f g : Nat → W64} (h : Completes x t regs d ex f)
    (hfg : ∀ l, ex.getLsbD l = true → f l = g l) : Completes x t regs d ex g := by
  obtain ⟨k', hsame, hflags, hlands, hdone⟩ := h
  exact ⟨k', hsame, hflags, hlands.congr_lanes hfg, hdone⟩

/-! ### `vote` (R136) -/

theorem mem_votes {k : Course} {ex : LaneMask} {a : PSrc} {l : Nat} :
    (votes k ex a).getLsbD l = true ↔ ex.getLsbD l = true ∧ (k.pget a).getLsbD l = true := by
  unfold votes
  rw [BitVec.getLsbD_and, Bool.and_eq_true]

theorem votes_eq_set {k : Course} {ex : LaneMask} {a : PSrc} : votes k ex a = ex ↔ ∀ l ∈ lanesIn ex, (k.pget a).getLsbD l = true := by
  refine ⟨fun h l hl => ?_, fun h => laneMask_eq fun l => ?_⟩
  · rw [mem_lanesIn, ← h] at hl
    exact (mem_votes.mp hl).2
  · rw [mem_votes]
    exact ⟨And.left, fun hl => ⟨hl, h l (mem_lanesIn.mpr hl)⟩⟩

theorem votes_eq_zero {k : Course} {ex : LaneMask} {a : PSrc} : votes k ex a = 0 ↔ ∀ l ∈ lanesIn ex, (k.pget a).getLsbD l = false := by
  rw [laneMask_eq_zero]
  refine ⟨fun h l hl => ?_, fun h l => ?_⟩
  · rw [Bool.eq_false_iff]
    exact fun hp => Bool.eq_false_iff.mp (h l) (mem_votes.mpr ⟨mem_lanesIn.mp hl, hp⟩)
  · rw [Bool.eq_false_iff]
    intro hv
    obtain ⟨hl, hp⟩ := mem_votes.mp hv
    rw [h l (mem_lanesIn.mpr hl)] at hp
    exact absurd hp (by decide)

theorem laneCount_votes (k : Course) (ex : LaneMask) (a : PSrc) :
    laneCount (votes k ex a) = (lanesIn ex).countP fun l => (k.pget a).getLsbD l := by
  unfold laneCount lanesIn
  rw [← List.countP_eq_length_filter, List.countP_filter]
  refine List.countP_congr fun l _ => ?_
  rw [mem_votes, Bool.and_eq_true]
  exact and_comm

/-- The predicate that a vote gives, as R136 says it of the lanes of the set. -/
theorem votePred_eq (k : Course) (ex : LaneMask) (a : PSrc) (m : VotePred) : votePred m ex (votes k ex a) = match m with
    | .all => decide (∀ l ∈ lanesIn ex, (k.pget a).getLsbD l = true)
    | .any => decide (∃ l ∈ lanesIn ex, (k.pget a).getLsbD l = true)
    | .odd => decide (((lanesIn ex).countP fun l => (k.pget a).getLsbD l) % 2 = 1)
    | .same => decide (∀ l ∈ lanesIn ex, ∀ j ∈ lanesIn ex, (k.pget a).getLsbD l = (k.pget a).getLsbD j) := by
  rw [Bool.eq_iff_iff]
  cases m with
  | all =>
    rw [decide_eq_true_eq, ← votes_eq_set]
    exact beq_iff_eq
  | any =>
    rw [decide_eq_true_eq]
    refine bne_iff_ne.trans ((not_congr votes_eq_zero).trans ?_)
    simp only [not_forall, Bool.not_eq_false, exists_prop]
  | odd =>
    rw [decide_eq_true_eq, ← laneCount_votes]
    exact beq_iff_eq
  | same =>
    rw [decide_eq_true_eq]
    refine (Bool.or_eq_true ..).to_iff.trans ((or_congr (beq_iff_eq.trans votes_eq_set) (beq_iff_eq.trans votes_eq_zero)).trans ?_)
    constructor
    · rintro (h | h) l hl j hj
      · rw [h l hl, h j hj]
      · rw [h l hl, h j hj]
    · intro h
      by_cases hany : ∃ l ∈ lanesIn ex, (k.pget a).getLsbD l = true
      · obtain ⟨l, hl, hp⟩ := hany
        exact .inl fun j hj => (h j hj l hl).trans hp
      · exact .inr fun l hl => Bool.eq_false_iff.mpr fun hp => hany ⟨l, hl, hp⟩

theorem voteReg_eq (m : VoteReg) (y : LaneMask) : BitVec.ofNat 64 (voteReg m y) = match m with
    | .mask => y.zeroExtend 64
    | .count => BitVec.ofNat 64 ((List.range 32).countP fun l => y.getLsbD l)
    | .first => BitVec.ofNat 64 (((List.range 32).find? fun l => y.getLsbD l).getD 32) := by
  cases m with
  | mask => exact BitVec.ofNat_toNat ..
  | count => exact congrArg (BitVec.ofNat 64) (List.countP_eq_length_filter ..).symm
  | first => rfl

/-! ### `redl` (R137) -/

/-- A combination of bit patterns is that of the words. -/
theorem foldl_bitwise {w : Nat} (f : Nat → Nat → Nat) (g : W64 → W64 → W64) (hf : ∀ u v : W64, (g u v).toNat = f u.toNat v.toNat)
    (hlt : ∀ a b, a < 2 ^ w → b < 2 ^ w → f a b < 2 ^ w) (ys : List W64) (y : W64) (hy : y.toNat < 2 ^ w) (hys : ∀ u ∈ ys, u.toNat < 2 ^ w) :
    (ys.map fun u => (u.toNat : Int)).foldl (bitwise w f) y.toNat = ((ys.foldl g y).toNat : Int) ∧ (ys.foldl g y).toNat < 2 ^ w := by
  induction ys generalizing y with
  | nil => exact ⟨rfl, hy⟩
  | cons u ys ih =>
    have hu := hys u (.head _)
    have hgu : (g y u).toNat < 2 ^ w := by rw [hf]; exact hlt _ _ hy hu
    obtain ⟨heq, hbound⟩ := ih (g y u) hgu fun v hv => hys v (.tail _ hv)
    refine ⟨?_, hbound⟩
    have hstep : bitwise w f (y.toNat : Int) (u.toNat : Int) = ((g y u).toNat : Int) := by
      have hmod : ∀ n : Nat, n < 2 ^ w → wrap w (n : Int) = n := by
        intro n hn
        unfold wrap
        norm_cast
        exact Nat.mod_eq_of_lt hn
      unfold bitwise
      rw [hmod _ hy, hmod _ hu, hf]
    rw [List.map_cons, List.foldl_cons, hstep]
    exact heq

theorem int_numB (k : Course) (t : BTy) (a : Reg) (l : Nat) : k.int (numB t) a l = ((k.src t.regs a l).toNat : Int) := by
  have hsg : (numB t).sg = false := by cases t <;> rfl
  have hregs : (numB t).regs = t.regs := by cases t <;> rfl
  unfold Course.int NumTy.value
  rw [hsg, hregs, if_neg Bool.false_ne_true, Nat.mod_eq_of_lt (src_lt k t a l)]

/-- A combination of words over a set that is not empty. -/
theorem redl_bitwise {f : Nat → Nat → Nat} {g : W64 → W64 → W64} {e : W64} (he : ∀ u, g e u = u) (hf : ∀ u v : W64, (g u v).toNat = f u.toNat v.toNat)
    (hlt : ∀ w a b, a < 2 ^ w → b < 2 ^ w → f a b < 2 ^ w) (k : Course) (t : BTy) (a : Reg) (j : Nat) (js : List Nat) :
    (numB t).result ((js.map (k.int (numB t) a)).foldl (bitwise (numB t).w f) (k.int (numB t) a j)) =
      lowBits (numB t).w (((j :: js).map fun j => k.src t.regs a j).foldl g e) := by
  have hint : js.map (k.int (numB t) a) = (js.map fun j => k.src t.regs a j).map fun u : W64 => (u.toNat : Int) := by
    rw [List.map_map]
    exact List.map_congr_left fun j _ => int_numB k t a j
  obtain ⟨heq, -⟩ := foldl_bitwise f g hf (hlt (numB t).w) (js.map fun j => k.src t.regs a j) (k.src t.regs a j) (src_lt ..) fun u hu => by
    obtain ⟨i, -, rfl⟩ := List.mem_map.mp hu
    exact src_lt ..
  rw [int_numB, hint, heq, resB, List.map_cons, List.foldl_cons, he]
  rfl

theorem foldl_add (ys : List Int) (y : Int) : ys.foldl (· + ·) y = y + ys.sum := by
  induction ys generalizing y with
  | nil => simp
  | cons u ys ih => rw [List.foldl_cons, ih, List.sum_cons, Int.add_assoc]

/-- What `redl` gives a lane, over the lanes it combines. -/
theorem redl_result (k : Course) (op : RedlOp) (a : Reg) (j : Nat) (js : List Nat) :
    (redlNum op).result (redlAll op ((j :: js).map (k.int (redlNum op) a))) = match op with
      | .add t => (numW t).result ((j :: js).map fun j => k.int (numW t) a j).sum
      | .min t => (numW t).result (((j :: js).map fun j => k.int (numW t) a j).foldl min (((j :: js).map fun j => k.int (numW t) a j).headD 0))
      | .max t => (numW t).result (((j :: js).map fun j => k.int (numW t) a j).foldl max (((j :: js).map fun j => k.int (numW t) a j).headD 0))
      | .and t => lowBits (numB t).w (((j :: js).map fun j => k.src t.regs a j).foldl (· &&& ·) (BitVec.allOnes 64))
      | .or t => lowBits (numB t).w (((j :: js).map fun j => k.src t.regs a j).foldl (· ||| ·) 0)
      | .xor t => lowBits (numB t).w (((j :: js).map fun j => k.src t.regs a j).foldl (· ^^^ ·) 0) := by
  cases op with
  | add t => exact congrArg (numW t).result (foldl_add ..)
  | min t => exact congrArg (fun y => (numW t).result ((js.map fun j => k.int (numW t) a j).foldl min y)) (min_self (k.int (numW t) a j)).symm
  | max t => exact congrArg (fun y => (numW t).result ((js.map fun j => k.int (numW t) a j).foldl max y)) (max_self (k.int (numW t) a j)).symm
  | and t =>
    exact redl_bitwise (g := (· &&& ·)) (fun u => BitVec.allOnes_and) (fun u v => BitVec.toNat_and ..) (fun w a b _ hb => Nat.and_lt_two_pow a hb) k t a j js
  | or t => exact redl_bitwise (g := (· ||| ·)) (fun u => BitVec.zero_or) (fun u v => BitVec.toNat_or ..) (fun w a b ha hb => Nat.or_lt_two_pow ha hb) k t a j js
  | xor t => exact redl_bitwise (g := (· ^^^ ·)) (fun u => BitVec.zero_xor) (fun u v => BitVec.toNat_xor ..) (fun w a b ha hb => Nat.xor_lt_two_pow ha hb) k t a j js

/-- The value of `redl` in a lane that executes: the combination over the set, or over the lanes of it up to this one. -/
theorem redlValue_result (k : Course) (op : RedlOp) (scan : Bool) (ex : LaneMask) (a : Reg) {l : Nat} (hl : ex.getLsbD l = true) :
    (redlNum op).result (redlValue k op scan ex a l) =
      let lanes := (lanesIn ex).filter fun j => !scan || decide (j ≤ l)
      match op with
      | .add t => (numW t).result (lanes.map fun j => k.int (numW t) a j).sum
      | .min t => (numW t).result ((lanes.map fun j => k.int (numW t) a j).foldl min ((lanes.map fun j => k.int (numW t) a j).headD 0))
      | .max t => (numW t).result ((lanes.map fun j => k.int (numW t) a j).foldl max ((lanes.map fun j => k.int (numW t) a j).headD 0))
      | .and t => lowBits (numB t).w ((lanes.map fun j => k.src t.regs a j).foldl (· &&& ·) (BitVec.allOnes 64))
      | .or t => lowBits (numB t).w ((lanes.map fun j => k.src t.regs a j).foldl (· ||| ·) 0)
      | .xor t => lowBits (numB t).w ((lanes.map fun j => k.src t.regs a j).foldl (· ^^^ ·) 0) := by
  have hmem : l ∈ (lanesIn ex).filter fun j => !scan || decide (j ≤ l) :=
    List.mem_filter.mpr ⟨mem_lanesIn.mpr hl, by rw [decide_eq_true (Nat.le_refl l), Bool.or_true]⟩
  unfold redlValue
  generalize (lanesIn ex).filter (fun j => !scan || decide (j ≤ l)) = lanes at hmem ⊢
  cases lanes with
  | nil => cases hmem
  | cons j js => exact redl_result k op a j js

theorem redl_regs (op : RedlOp) : (redlNum op).regs = 1 ∨ (redlNum op).regs = 2 := by
  unfold NumTy.regs
  split
  · exact .inr rfl
  · exact .inl rfl

theorem redl_dst (gd : Guard) (op : RedlOp) (scan : Bool) (d a : Reg) (c : GReg) :
    d.opnd (redlNum op).regs ∈ (Instr.redl gd op scan d a c).body.dst := by
  cases op with
  | add t | min t | max t =>
    unfold redlNum
    rw [numW_regs]
    exact .head _
  | and t | or t | xor t => cases t <;> exact .head _

/-! ### The membership mask (R44, R134) -/

theorem exchange_agrees {x : Ctx} {ex : LaneMask} {c : GReg} (h : (x.r.gget c).truncate 32 = ex) (k : Course) : x.exchange ex c k = x.ok k :=
  if_pos h

theorem exchange_differs {x : Ctx} {ex : LaneMask} {c : GReg} (h : (x.r.gget c).truncate 32 ≠ ex) (k : Course) :
    x.exchange ex c k = .trap 0x05 (lowestLane ((x.r.gget c).truncate 32 ^^^ ex)) 0 := if_neg h

/-- Settles O5: each word exchanges when its mask agrees, and raises MASKDIS when it differs. -/
theorem laneExchange : Obligations.LaneExchange := by
  refine ⟨fun gd t m wl d a b c s x h hm => ?shfl, fun k n hs ho => ?view, fun gd m d a c s x h hm => ?votePred, fun gd m d a c s x h => ?voteReg,
    fun gd op scan d a c s x h => ?redl, fun gd c i s x => ⟨?shflDiffers, ?votePredDiffers, ?voteRegDiffers, ?redlDiffers⟩⟩
  case shfl =>
    exact ⟨_, fun l => x.s.tick + 32 * 2 ^ 64 * (l + 1), rfl, completes_of_landAll h rfl (bTy_regs t) (.head _) (exchange_agrees hm _)⟩
  case view =>
    unfold Course.seen
    simp only [hs, ho, List.filter_nil, List.foldl_nil, List.zipIdx_nil, List.foldr_nil]
  case votePred =>
    obtain ⟨hsame, hflags, hkeep, hland⟩ := landAll_pred x.k x.s.tick 8 d (x.r.exec gd) fun _ => votePred m (x.r.exec gd) (votes x.r (x.r.exec gd) a)
    exact ⟨_, rfl, _, hsame, hflags, hkeep, fun l hl => votePred_eq x.r (x.r.exec gd) a m ▸ hland l hl,
      issue_ok_done h (exchange_agrees hm _) (congrArg Course.pc hsame.2 :)⟩
  case voteReg =>
    intro ex y hm
    refine ⟨_, rfl, ?_⟩
    exact (completes_of_landAll h rfl (.inl rfl) (.head _) (exchange_agrees hm _)).congr_lanes fun _ _ => voteReg_eq m y
  case redl =>
    intro ex hm lanes ints words
    refine ⟨_, rfl, ?_⟩
    exact (completes_of_landAll h rfl (redl_regs op) (redl_dst ..) (exchange_agrees hm _)).congr_lanes fun l hl => redlValue_result x.r op scan ex a hl
  case shflDiffers =>
    rintro t m wl d a b rfl h hm
    exact traps_of h rfl (exchange_differs hm _)
  case votePredDiffers =>
    rintro m d a rfl h hm
    exact traps_of h rfl (exchange_differs hm _)
  case voteRegDiffers =>
    rintro m d a rfl h hm
    exact traps_of h rfl (exchange_differs hm _)
  case redlDiffers =>
    rintro op scan d a rfl h hm
    exact traps_of h rfl (exchange_differs hm _)

end Sys2Proof.Machine
end

section
/-!
PROOFS. Memory words: the checks at issue, and the access that a word sends (11 R235; 12 R252 to R264; 19 R442).
-/
namespace Sys2Proof.Machine

/-! ### The checks at issue (R235, R254) -/

section LaneFaults
variable {lanes as bs : List Nat} {l cause : Nat} {bad : Nat → Bool} {detail fa : Nat → Nat}

theorem laneFault_none (h : ∀ m ∈ lanes, bad m = false) : laneFault lanes bad cause detail fa = none := by
  unfold laneFault
  rw [List.find?_eq_none.mpr fun m hm => Bool.eq_false_iff.mp (h m hm)]
  rfl

/-- The lowest lane that fails the check gives the fault. -/
theorem laneFault_first (hl : lanes = as ++ l :: bs) (has : ∀ m ∈ as, bad m = false) (hbad : bad l = true) :
    laneFault lanes bad cause detail fa = some (.trap cause (detail l) (BitVec.ofNat 64 (fa l))) := by
  unfold laneFault
  rw [hl, List.find?_append, List.find?_eq_none.mpr fun m hm => Bool.eq_false_iff.mp (has m hm), Option.none_or, List.find?_cons_of_pos hbad]
  rfl

end LaneFaults

/-- The check of the address of a word in its space: the fault that it raises. -/
def Ctx.memFault (x : Ctx) (w : MemWord) : Option Res :=
  if w.scratch then scratchFault x.t w.ssc (lanesIn w.lanes) w.size w.ea else globalFault (lanesIn w.lanes) w.size w.ea

/-- The checks of the destination offsets of `acp` (R261). -/
def Ctx.copyFault (x : Ctx) (lanes : LaneMask) (d : VReg) (n : Nat) : Option Res :=
  orElse (laneFault (lanesIn lanes) (fun l => (x.r.vget d l).toNat % n ≠ 0) 0x02 id fun l => (x.r.vget d l).toNat) fun _ =>
    laneFault (lanesIn lanes) (fun l => x.t.portion ≤ (x.r.vget d l).toNat) 0x13 (fun _ => 0xA0) fun l => (x.r.vget d l).toNat

/-- The checks of a memory word. -/
def Ctx.wordFault (x : Ctx) (i : Instr) (w : MemWord) : Option Res :=
  orElse (x.memFault w) fun _ => match i with
    | .acp _ _ d _ z _ => x.copyFault w.lanes d (aszBytes z)
    | _ => none

/-- What a memory word sends. -/
def MemWord.toSent (w : MemWord) : Sent :=
  { tk := w.tk, kind := w.kind, ssc := w.ssc, scratch := w.scratch, acq := w.acq, rel := w.rel, parts := w.parts, land_ := w.land_, lanes := w.lanes }

/-- A fault, or what the word does without one. -/
def faultOr (f : Option Res) (r : Res) : Res := match f with | some f => f | none => r

theorem orElse_of_none {f : Option Res} (h : f = none) (b : Unit → Option Res) : orElse f b = b () := by rw [h]; rfl
theorem orElse_of_some {f : Option Res} {r : Res} (h : f = some r) (b : Unit → Option Res) : orElse f b = some r := by rw [h]; rfl
theorem orElse_none (f : Option Res) : (orElse f fun _ => none) = f := by cases f <;> rfl

/-- A memory word is issued with its checks and then its access. -/
theorem memWord_issues {x : Ctx} {i : Instr} {w : MemWord} (hw : x.memWord i = some w) : positionsOf i = 1 ∧
    ∃ body : Ctx → Res, (∀ s, exec i s = .next (issue i s body)) ∧ body x = faultOr (x.wordFault i w) (x.send w.toSent) := by
  unfold Ctx.wordFault
  cases i with
  | ld gd tk d m z sem => cases hw; exact ⟨rfl, _, fun s => rfl, by rw [orElse_none]; rfl⟩
  | st gd tk d m z sem => cases hw; exact ⟨rfl, _, fun s => rfl, by rw [orElse_none]; rfl⟩
  | lds gd tk d m z sem ssc => cases hw; exact ⟨rfl, _, fun s => rfl, by rw [orElse_none]; rfl⟩
  | sts gd tk d m z sem ssc => cases hw; exact ⟨rfl, _, fun s => rfl, by rw [orElse_none]; rfl⟩
  | atom gd tk d m va op z sem => cases hw; exact ⟨rfl, _, fun s => rfl, by rw [orElse_none]; rfl⟩
  | red gd tk m va op z sem => cases hw; exact ⟨rfl, _, fun s => rfl, by rw [orElse_none]; rfl⟩
  | atoms gd tk d m va op z sem ssc => cases hw; exact ⟨rfl, _, fun s => rfl, by rw [orElse_none]; rfl⟩
  | ldc gd tk d gb off z =>
    cases hw
    refine ⟨rfl, _, fun s => rfl, ?_⟩
    have hea : x.r.ea gb 0 false off = fun _ => (x.r.gget gb + off.signExtend 64).toNat := by
      funext l
      unfold Course.ea
      rw [if_neg Bool.false_ne_true, show (0 : W64) = 0#64 from rfl, BitVec.add_zero]
    rw [orElse_none]
    unfold ldcEffect
    rw [hea]
    rfl
  | acp gd tk d m z bar =>
    cases hw
    refine ⟨rfl, _, fun s => rfl, ?_⟩
    rfl
  | _ => cases hw

/-- A lane that passes the checks raises none of them. -/
theorem wordFault_none {x : Ctx} {i : Instr} {w : MemWord} (h : ∀ l ∈ lanesIn w.lanes, x.laneOk i w l) : x.wordFault i w = none := by
  have haligned : laneFault (lanesIn w.lanes) (fun l => decide (w.ea l % w.size ≠ 0)) 0x02 id w.ea = none :=
    laneFault_none fun m hm => decide_eq_false (not_not_intro (h m hm).1)
  have hmem : x.memFault w = none := by
    unfold Ctx.memFault scratchFault globalFault
    split
    · next hs =>
      refine (orElse_of_none haligned _).trans ((orElse_of_none (laneFault_none fun m hm => ?_) _).trans (laneFault_none fun m hm => ?_))
      · obtain ⟨-, -, hown, hspan, -⟩ := h m hm
        cases hssc : w.ssc with
        | false =>
          have := hown hs hssc
          simpa using this
        | true =>
          obtain ⟨hoff, -, htop⟩ := hspan hs hssc
          simp
          omega
      · obtain ⟨-, -, -, hspan, -⟩ := h m hm
        cases hssc : w.ssc with
        | false => rfl
        | true =>
          obtain ⟨-, hm', -⟩ := hspan hs hssc
          simp
          omega
    · next hs =>
      refine (orElse_of_none haligned _).trans (laneFault_none fun m hm => ?_)
      have := (h m hm).2.1 (Bool.eq_false_iff.mpr hs)
      simp
      omega
  unfold Ctx.wordFault
  rw [hmem]
  unfold orElse
  dsimp only
  split
  · unfold Ctx.copyFault
    rw [laneFault_none fun m hm => ?_, laneFault_none fun m hm => ?_]
    · rfl
    · obtain ⟨-, -, -, -, hcopy⟩ := h m hm
      have := (hcopy _ _ _ _ _ _ rfl).2
      simpa using this
    · obtain ⟨-, -, -, -, hcopy⟩ := h m hm
      have := (hcopy _ _ _ _ _ _ rfl).1
      simpa using this
  · rfl

/-! ### The access (R255, R442) -/

theorem send_nothing {x : Ctx} {w : MemWord} (h : w.lanes = 0) : x.send w.toSent =
    x.ok (match w.tk with | some tk => x.k.issueOp tk .nothing [] (dests := w.land_.names) | none => x.k) := if_pos h

/-- A word without an executing lane counts on its token alone (R88). -/
theorem countsOnly_of_send {s : State} {x : Ctx} {i : Instr} {body : Ctx → Res} {w : MemWord} (h : Issues s x i) (hp : positionsOf i = 1)
    (he : exec i s = .next (issue i s body)) (hb : body x = x.send w.toSent) (hl : w.lanes = 0) : CountsOnly s x i w.tk := by
  rw [send_nothing hl] at hb
  cases htk : w.tk with
  | none =>
    rw [htk] at hb
    exact ⟨x.k, rfl, goes_of_ok h hp he hb rfl⟩
  | some tk =>
    rw [htk] at hb
    exact countsOnly_of h hp he hb

theorem settled_held (p : Part) : (if p.phase.settled then p else { p with phase := .held }).phase.settled = p.phase.settled := by
  split
  · rfl
  · next h => exact (Bool.eq_false_iff.mpr h).symm

theorem pending_sent {x : Ctx} {w : MemWord} (h : ∃ p ∈ w.parts, p.phase.settled = false) : (x.sent w).pending = true := by
  obtain ⟨p, hp, hs⟩ := h
  unfold Access.pending Ctx.sent
  refine List.any_eq_true.mpr ?_
  split
  · exact ⟨_, List.mem_map_of_mem hp, by rw [settled_held, hs]; rfl⟩
  · exact ⟨p, hp, by rw [hs]; rfl⟩

/-- The course once its access counts on its token. -/
def Ctx.counted (x : Ctx) (w : MemWord) : Course :=
  match w.tk with | some tk => x.k.issueOp tk (.parts (x.sent w).parts.length) (x.sent w).writes | none => x.k

theorem counted_pc (x : Ctx) (w : MemWord) : (x.counted w).pc = x.k.pc := by
  unfold Ctx.counted
  cases w.tk <;> rfl

/-- The course after the issue of an access: a guarded course holds the effect back. -/
def Ctx.sender (x : Ctx) (w : MemWord) : Course :=
  if x.holds w.kind then
    { x.counted w with quarantine := (x.counted w).quarantine ++ [⟨.access x.s.nextId, x.s.clk, w.tk.map fun _ => x.k.nextOp, x.s.nextId⟩] }
  else x.counted w

theorem sender_pc (x : Ctx) (w : MemWord) : (x.sender w).pc = x.k.pc := by
  rw [← counted_pc x w]
  unfold Ctx.sender
  split <;> rfl

/-- The state with the access sent. -/
def Ctx.withAccess (x : Ctx) (w : MemWord) : State :=
  { x.set (x.sender w) with accesses := x.s.accesses ++ [x.sent w], nextId := x.s.nextId + 1 }

theorem send_eq {x : Ctx} {w : MemWord} (h : w.lanes ≠ 0) : x.send w.toSent =
    .ok (let s := if (x.sent w).pending then x.withAccess w else (x.withAccess w).settle (x.sent w)
      if (w.scratch && (x.sent w).parts.all fun p => p.va / 2 ^ 32 = x.t.spanPos) && !x.t.items.guarded then
        (List.range (x.sent w).parts.length).foldl (fun s i => s.homeStep x.s.nextId i .home) s else s) := if_neg h

theorem sends_of_send {s : State} {x : Ctx} {i : Instr} {body : Ctx → Res} {w : MemWord} (h : Issues s x i) (hp : positionsOf i = 1)
    (he : exec i s = .next (issue i s body)) (hb : body x = x.send w.toSent) (hl : w.lanes ≠ 0)
    (hpend : ∃ p ∈ w.parts, p.phase.settled = false)
    (haway : w.scratch = false ∨ x.t.items.guarded = true ∨ ∃ p ∈ w.parts, p.va / 2 ^ 32 ≠ x.t.spanPos) : Sends s x i w := by
  have hnow : ((w.scratch && (x.sent w).parts.all fun p => p.va / 2 ^ 32 = x.t.spanPos) && !x.t.items.guarded) = false := by
    cases hg : x.t.items.guarded with
    | true => simp
    | false =>
      rcases haway with hs | hg' | ⟨p, hmem, hne⟩
      · rw [hs]; rfl
      · rw [hg] at hg'; cases hg'
      · have hparts : (x.sent w).parts = w.parts := if_neg (by unfold Ctx.holds; rw [hg]; exact Bool.false_ne_true)
        have hall : (w.parts.all fun p => p.va / 2 ^ 32 = x.t.spanPos) = false := by
          rw [List.all_eq_false]
          exact ⟨p, hmem, by simpa using hne⟩
        rw [hparts, hall, Bool.and_false, Bool.false_and]
  have hsend : x.send w.toSent = .ok (x.withAccess w) := by
    rw [send_eq hl, hnow, pending_sent hpend]
    rfl
  have hlen : (x.sent w).parts.length = w.parts.length := by
    unfold Ctx.sent
    dsimp only
    split
    · exact List.length_map ..
    · rfl
  obtain ⟨rfl, -⟩ := ctx_of h.1
  refine ⟨x.counted w, ?_, goesWith_of_set (k' := x.sender w) h hp he (hb.trans hsend) rfl rfl (sender_pc x w)⟩
  unfold Ctx.counted
  rw [hlen]
  cases w.tk with
  | none => rfl
  | some tk => exact issueOp_countsOn ..

/-! ### The parts of a word -/

theorem mkPart_unsettled (scr : Bool) (l va n : Nat) (data cmp : List Byte) (dst : Nat) : (mkPart scr l va n data cmp dst).phase.settled = false := by
  cases scr <;> rfl

theorem laneParts_ne_nil (scr : Bool) (l va n : Nat) (data : List Byte) (dst : Nat) : ∃ p ∈ laneParts scr l va n data dst, p.phase.settled = false := by
  unfold laneParts
  split
  · exact ⟨_, .head _, mkPart_unsettled ..⟩
  · exact ⟨_, .head _, mkPart_unsettled ..⟩

theorem lanesIn_ne_nil {m : LaneMask} (h : m ≠ 0) : lowestLane m ∈ lanesIn m := mem_lanesIn.mpr (getLsbD_lowestLane h)

theorem flatten_unsettled {m : LaneMask} (h : m ≠ 0) {f : Nat → List Part} (hf : ∀ l, ∃ p ∈ f l, p.phase.settled = false) :
    ∃ p ∈ ((lanesIn m).map f).flatten, p.phase.settled = false := by
  obtain ⟨p, hp, hs⟩ := hf (lowestLane m)
  exact ⟨p, List.mem_flatten.mpr ⟨_, List.mem_map_of_mem (lanesIn_ne_nil h), hp⟩, hs⟩

theorem map_unsettled {m : LaneMask} (h : m ≠ 0) {f : Nat → Part} (hf : ∀ l, (f l).phase.settled = false) :
    ∃ p ∈ (lanesIn m).map f, p.phase.settled = false := ⟨_, List.mem_map_of_mem (lanesIn_ne_nil h), hf _⟩

/-- A memory word with an executing lane has something to perform. -/
theorem memWord_unsettled {x : Ctx} {i : Instr} {w : MemWord} (hw : x.memWord i = some w) (hl : w.lanes ≠ 0) :
    ∃ p ∈ w.parts, p.phase.settled = false := by
  cases i with
  | ld gd tk d m z sem => cases hw; exact flatten_unsettled hl fun l => laneParts_ne_nil ..
  | st gd tk d m z sem => cases hw; exact flatten_unsettled hl fun l => laneParts_ne_nil ..
  | acp gd tk d m z bar => cases hw; exact flatten_unsettled hl fun l => laneParts_ne_nil ..
  | lds gd tk d m z sem ssc => cases hw; exact flatten_unsettled hl fun l => laneParts_ne_nil ..
  | sts gd tk d m z sem ssc => cases hw; exact flatten_unsettled hl fun l => laneParts_ne_nil ..
  | ldc gd tk d gb off z => cases hw; exact laneParts_ne_nil ..
  | atom gd tk d m va op z sem => cases hw; exact map_unsettled hl fun l => mkPart_unsettled ..
  | red gd tk m va op z sem => cases hw; exact map_unsettled hl fun l => mkPart_unsettled ..
  | atoms gd tk d m va op z sem ssc => cases hw; exact map_unsettled hl fun l => mkPart_unsettled ..
  | _ => cases hw

/-- With no executing lane no check fails. -/
theorem laneOk_of_none {x : Ctx} {i : Instr} {w : MemWord} (hl : w.lanes = 0) : ∀ l ∈ lanesIn w.lanes, x.laneOk i w l := by
  intro l h
  rw [mem_lanesIn, hl] at h
  exact absurd h (not_lane_zero l)

/-- Settles O23: the checks passed, the word sends its access; without a lane it has none. -/
theorem memoryWordsSend : Obligations.MemoryWordsSend := by
  intro i w s x hw h
  obtain ⟨hp, body, he, hb⟩ := memWord_issues hw
  refine ⟨fun hl => ?_, fun hl hok haway => ?_⟩
  · rw [wordFault_none (laneOk_of_none hl)] at hb
    exact countsOnly_of_send h hp (he s) hb hl
  · rw [wordFault_none hok] at hb
    exact sends_of_send h hp (he s) hb hl (memWord_unsettled hw hl) haway

/-! ### The faults (R235, R254, R261) -/

theorem traps_of_wordFault {s : State} {x : Ctx} {i : Instr} {w : MemWord} {cause detail : Nat} {faddr : W64} (hw : x.memWord i = some w)
    (h : Issues s x i) (hf : x.wordFault i w = some (.trap cause detail faddr)) : Traps s x i cause detail faddr := by
  obtain ⟨-, body, he, hb⟩ := memWord_issues hw
  rw [hf] at hb
  exact traps_of h (he s) hb

theorem wordFault_of_memFault {x : Ctx} {i : Instr} {w : MemWord} {f : Res} (h : x.memFault w = some f) : x.wordFault i w = some f := by
  unfold Ctx.wordFault
  rw [h]
  rfl

section Faults
variable {x : Ctx} {w : MemWord} {as bs : List Nat} {l : Nat}

theorem memFault_misaligned (hl : lanesIn w.lanes = as ++ l :: bs) (has : ∀ m ∈ as, w.ea m % w.size = 0) (hbad : w.ea l % w.size ≠ 0) :
    x.memFault w = some (.trap 0x02 l (BitVec.ofNat 64 (w.ea l))) := by
  have := laneFault_first (bad := fun l => decide (w.ea l % w.size ≠ 0)) (cause := 0x02) (detail := id) (fa := w.ea) hl
    (fun m hm => decide_eq_false (not_not_intro (has m hm))) (decide_eq_true hbad)
  unfold Ctx.memFault scratchFault globalFault
  split
  · exact orElse_of_some this _
  · exact orElse_of_some this _

theorem aligned_none (ha : ∀ m ∈ lanesIn w.lanes, w.ea m % w.size = 0) :
    laneFault (lanesIn w.lanes) (fun l => decide (w.ea l % w.size ≠ 0)) 0x02 id w.ea = none :=
  laneFault_none fun m hm => decide_eq_false (not_not_intro (ha m hm))

theorem memFault_global (hs : w.scratch = false) (ha : ∀ m ∈ lanesIn w.lanes, w.ea m % w.size = 0) (hl : lanesIn w.lanes = as ++ l :: bs)
    (has : ∀ m ∈ as, w.ea m < 2 ^ 57) (hbad : 2 ^ 57 ≤ w.ea l) : x.memFault w = some (.trap 0x13 0xA5 (BitVec.ofNat 64 (w.ea l))) := by
  unfold Ctx.memFault globalFault
  rw [if_neg (Bool.eq_false_iff.mp hs), orElse_of_none (aligned_none ha)]
  exact laneFault_first hl (fun m hm => decide_eq_false (Nat.not_le.mpr (has m hm))) (decide_eq_true hbad)

/-- The offset of a lane in the portion. -/
def MemWord.off (w : MemWord) (l : Nat) : Nat := if w.ssc then w.ea l % 2 ^ 32 else w.ea l

theorem memFault_portion (hs : w.scratch = true) (ha : ∀ m ∈ lanesIn w.lanes, w.ea m % w.size = 0) (hl : lanesIn w.lanes = as ++ l :: bs)
    (has : ∀ m ∈ as, (decide (x.t.portion ≤ w.off m) || (w.ssc && decide (2 ^ 35 ≤ w.ea m))) = false)
    (hbad : (decide (x.t.portion ≤ w.off l) || (w.ssc && decide (2 ^ 35 ≤ w.ea l))) = true) :
    x.memFault w = some (.trap 0x13 0xA0 (BitVec.ofNat 64 (w.off l))) := by
  unfold Ctx.memFault scratchFault
  rw [if_pos hs, orElse_of_none (aligned_none ha)]
  exact orElse_of_some (laneFault_first (fa := w.off) hl has hbad) _

theorem memFault_span (hs : w.scratch = true) (hssc : w.ssc = true) (ha : ∀ m ∈ lanesIn w.lanes, w.ea m % w.size = 0)
    (hl : lanesIn w.lanes = as ++ l :: bs) (hin : ∀ m ∈ lanesIn w.lanes, w.ea m % 2 ^ 32 < x.t.portion ∧ w.ea m < 2 ^ 35)
    (has : ∀ m ∈ as, w.ea m / 2 ^ 32 < x.t.items.span) (hbad : x.t.items.span ≤ w.ea l / 2 ^ 32) :
    x.memFault w = some (.trap 0x13 0xA2 (BitVec.ofNat 64 (w.ea l))) := by
  unfold Ctx.memFault scratchFault
  rw [if_pos hs, hssc, orElse_of_none (aligned_none ha), orElse_of_none (laneFault_none fun m hm => ?_)]
  · refine laneFault_first hl (fun m hm => ?_) ?_
    · rw [Bool.true_and]
      exact decide_eq_false (Nat.not_le.mpr (has m hm))
    · rw [Bool.true_and]
      exact decide_eq_true hbad
  · obtain ⟨hoff, htop⟩ := hin m hm
    change (decide (x.t.portion ≤ w.ea m % 2 ^ 32) || true && decide (2 ^ 35 ≤ w.ea m)) = false
    rw [decide_eq_false (Nat.not_le.mpr hoff), decide_eq_false (Nat.not_le.mpr htop)]
    rfl

end Faults

/-- The offsets of `acp` are checked once the addresses have passed. -/
theorem wordFault_copy {x : Ctx} {w : MemWord} {gd : Guard} {tk : Option Tok} {d : VReg} {m : MemOpnd} {z : ASz} {bar : Option (Fin 16)}
    (hs : w.scratch = false) (ha : ∀ m ∈ lanesIn w.lanes, w.ea m % w.size = 0) (hin : ∀ n ∈ lanesIn w.lanes, w.ea n < 2 ^ 57) :
    x.wordFault (.acp gd tk d m z bar) w = x.copyFault w.lanes d (aszBytes z) := by
  have hnone : x.memFault w = none := by
    unfold Ctx.memFault globalFault
    rw [if_neg (Bool.eq_false_iff.mp hs), orElse_of_none (aligned_none ha)]
    exact laneFault_none fun m hm => decide_eq_false (Nat.not_le.mpr (hin m hm))
  unfold Ctx.wordFault
  rw [hnone]
  rfl

/-- Settles O24: each check by the first lane that fails it, once every lane has passed the checks before. -/
theorem memoryWordFaults : Obligations.MemoryWordFaults := by
  intro i w s x as l bs hw h hl fa aligned
  refine ⟨fun has hbad => ?align, fun hs ha has hbad => ?global, fun hs hssc ha has hbad => ?portion, fun hs hssc ha hin has hbad => ?span,
    fun hs hssc ha has hbad => ?member, fun gd tk d m z bar hi ha hin => ?copy⟩
  case align => exact traps_of_wordFault hw h (wordFault_of_memFault (memFault_misaligned hl has hbad))
  case global => exact traps_of_wordFault hw h (wordFault_of_memFault (memFault_global hs ha hl has hbad))
  case span => exact traps_of_wordFault hw h (wordFault_of_memFault (memFault_span hs hssc ha hl hin has hbad))
  case portion =>
    have hoff : ∀ m, w.off m = w.ea m := fun m => if_neg (Bool.eq_false_iff.mp hssc)
    have hfault := memFault_portion (x := x) hs ha hl (fun m hm => ?_) ?_
    · rw [hoff] at hfault
      exact traps_of_wordFault hw h (wordFault_of_memFault hfault)
    · rw [hoff, hssc, decide_eq_false (Nat.not_le.mpr (has m hm))]
      rfl
    · rw [hoff, decide_eq_true hbad]
      rfl
  case member =>
    have hoff : ∀ m, w.off m = w.ea m % 2 ^ 32 := fun m => if_pos hssc
    have hfault := memFault_portion (x := x) hs ha hl (fun m hm => ?_) ?_
    · rw [hoff] at hfault
      exact traps_of_wordFault hw h (wordFault_of_memFault hfault)
    · obtain ⟨hin, htop⟩ := has m hm
      rw [hoff, hssc, decide_eq_false (Nat.not_le.mpr hin), decide_eq_false (Nat.not_le.mpr htop)]
      rfl
    · rw [hoff, hssc, Bool.true_and, Bool.or_eq_true, decide_eq_true_eq, decide_eq_true_eq]
      exact hbad
  case copy =>
    subst hi
    have hs : w.scratch = false := by cases hw; rfl
    refine ⟨fun has hbad => ?_, fun hal has hbad => ?_⟩
    · refine traps_of_wordFault hw h ((wordFault_copy hs ha hin).trans (orElse_of_some ?_ _))
      exact laneFault_first hl (fun m hm => decide_eq_false (not_not_intro (has m hm))) (decide_eq_true hbad)
    · refine traps_of_wordFault hw h ((wordFault_copy hs ha hin).trans ((orElse_of_none (laneFault_none fun m hm => ?_) _).trans ?_))
      · exact decide_eq_false (not_not_intro (hal m hm))
      · exact laneFault_first hl (fun m hm => decide_eq_false (Nat.not_le.mpr (has m hm))) (decide_eq_true hbad)

end Sys2Proof.Machine
end

section
/-!
PROOFS. Accesses to the truss's own scratchpad, performed at issue (11 R233; 12 R257, R264; 14 R309).
-/
namespace Sys2Proof.Machine

/-! ### One access alone -/

theorem modTruss_modTruss (s : State) (n : Nat) (f g : Truss → Truss) : (s.modTruss n f).modTruss n g = s.modTruss n (g ∘ f) := by
  unfold State.modTruss
  rw [List.modify_modify_eq]

theorem modTruss_congr {s : State} {n : Nat} {t : Truss} (h : s.truss? n = some t) {f g : Truss → Truss} (hfg : f t = g t) :
    s.modTruss n f = s.modTruss n g := by
  unfold State.modTruss
  congr 1
  refine List.ext_getElem? fun m => ?_
  rw [List.getElem?_modify, List.getElem?_modify]
  split
  · next hm =>
    subst hm
    rw [show s.trusses[n]? = some t from h]
    exact congrArg some hfg
  · rfl

/-- The truss with its scratchpad as `b`. -/
def Truss.withBank (t : Truss) (b : Bank) : Truss := { t with scr := b.m, scrPsn := b.psn }

/-- The state while access `a` is under way: its parts stand as `ps`, and the scratchpad as they have left it. -/
def State.midway (s : State) (a : Access) (b : Bank) (ps : List Part) : State :=
  { s.modTruss a.who.truss (·.withBank b) with accesses := [{ a with parts := ps }] }

/-- A scratchpad access of a course that is on its core, with nothing else outstanding. -/
structure Alone (s : State) (a : Access) (t : Truss) (k : Course) : Prop where
  truss : s.truss? a.who.truss = some t
  course : t.courses[a.who.course]? = some k
  here : k.away = false
  proms : s.proms = []
  early : s.early = []

/-- One part performed on the scratchpad. -/
def performOne (kind : AccKind) (b : Bank) (p : Part) : Bank × Part :=
  match kind with
  | .store => (b.store p (p.va % 2 ^ 32) false, p)
  | .atomic op => b.atomic op p (p.va % 2 ^ 32)
  | _ => (b, b.load p (p.va % 2 ^ 32))

theorem performParts_settled {kind : AccKind} {b : Bank} {p : Part} {ps : List Part} (h : p.phase.settled = true) :
    performParts kind b (p :: ps) = ((performParts kind b ps).1, p :: (performParts kind b ps).2) := if_pos h

theorem performParts_open {kind : AccKind} {b : Bank} {p : Part} {ps : List Part} (h : p.phase.settled = false) :
    performParts kind b (p :: ps) = ((performParts kind (performOne kind b p).1 ps).1,
      { (performOne kind b p).2 with phase := .performed } :: (performParts kind (performOne kind b p).1 ps).2) :=
  if_neg (Bool.eq_false_iff.mp h)

theorem performParts_all_settled {kind : AccKind} {b : Bank} {ps : List Part} (h : ∀ p ∈ ps, p.phase.settled = true) :
    performParts kind b ps = (b, ps) := by
  induction ps with
  | nil => rfl
  | cons p ps ih => rw [performParts_settled (h p (.head _)), ih fun q hq => h q (.tail _ hq)]

namespace Alone
variable {s : State} {a : Access} {t : Truss} {k : Course} (h : Alone s a t k)
include h

theorem truss?_midway (b : Bank) (ps : List Part) : (s.midway a b ps).truss? a.who.truss = some (t.withBank b) := by
  have := truss?_modTruss s a.who.truss a.who.truss (·.withBank b)
  rw [if_pos rfl, h.truss] at this
  exact this

theorem course?_midway (b : Bank) (ps : List Part) : (s.midway a b ps).course? a.who = some k :=
  course?_of_truss? (h.truss?_midway b ps) h.course

omit h in
theorem earlier_midway (b : Bank) (ps qs : List Part) : (s.midway a b ps).earlier { a with parts := qs } = [] := by
  unfold State.earlier State.midway
  simp

/-- Nothing keeps a part of the access waiting once the parts before it are performed. -/
theorem not_blocked (hscr : a.scratch = true) {b : Bank} {ps : List Part} {i : Nat} {p : Part} {pa : Nat} {gen : BitVec 16} {host l1 : Bool}
    (hbefore : ∀ q ∈ ps.take i, q.phase.settled = true) :
    (s.midway a b ps).partBlocked { a with parts := ps } (t.withBank b) i p pa gen host l1 = false := by
  have hacq : (s.midway a b ps).acquiresBefore a.who a.id = false := by
    unfold State.acquiresBefore
    rw [show (s.midway a b ps).proms = [] from h.proms]
    rfl
  have hprom : (s.midway a b ps).promisesBefore a.who a.id = false := by
    unfold State.promisesBefore
    rw [show (s.midway a b ps).proms = [] from h.proms]
    rfl
  have hrel : (s.midway a b ps).releasesBefore a.who a.id = false := by
    unfold State.releasesBefore
    rw [show (s.midway a b ps).early = [] from h.early, show (s.midway a b ps).accesses = [{ a with parts := ps }] from rfl]
    simp
  have hfenced : (s.midway a b ps).fenced { a with parts := ps } = false := by
    unfold State.fenced
    rw [earlier_midway]
    dsimp only
    rw [hacq, hprom, hrel]
    simp
  have hmember : ∀ pos m at_, (s.midway a b ps).memberAwaited { a with parts := ps } pos i p m at_ = false := by
    intro pos m at_
    unfold State.memberAwaited
    rw [earlier_midway]
    simp only [List.any_nil, Bool.or_false]
    rw [List.any_eq_false]
    intro q hq
    rw [hbefore q hq]
    simp
  have hearly : ∀ sp pa n, (s.midway a b ps).earlyAwaited { a with parts := ps } sp pa n = false := by
    intro sp pa n
    unfold State.earlyAwaited
    rw [show (s.midway a b ps).early = [] from h.early]
    exact Bool.and_false _
  unfold State.partBlocked
  refine (if_pos hscr).trans ?_
  rw [hfenced, hmember, hearly]
  rfl

/-- A release notes nothing when it comes before no access. -/
theorem noteRelease_midway (b : Bank) (ps qs : List Part) (sp pa n : Nat) :
    (s.midway a b ps).noteRelease { a with parts := qs } sp pa n = s.midway a b ps := by
  have hearly : (s.midway a b ps).early = [] := h.early
  have hneeds : ∀ early, ({ s.midway a b ps with early := early } : State).needsOf { a with parts := qs } = [] := by
    intro early
    unfold State.needsOf
    rw [show ({ s.midway a b ps with early := early } : State).proms = [] from h.proms,
      show ({ s.midway a b ps with early := early } : State).earlier { a with parts := qs } = [] from earlier_midway (s := s) b ps qs]
    rfl
  have hshow : ({ s.midway a b ps with early := [] } : State).showRelease { a with parts := qs } sp pa n = s.midway a b ps := by
    unfold State.showRelease
    split
    · dsimp only
      rw [hneeds]
      simp only [List.isEmpty_nil, Bool.not_true, Bool.and_false, Bool.false_eq_true, if_false]
      rw [← hearly]
    · rw [← hearly]
  unfold State.noteRelease
  rw [hearly]
  dsimp only [List.filter_nil]
  split
  · exact hshow
  · exact hshow

omit h in
theorem heldBytes_midway (b : Bank) (ps qs : List Part) (p : Part) : (s.midway a b ps).heldBytes { a with parts := qs } p = p := by
  unfold State.heldBytes
  rw [earlier_midway]
  rfl

omit h in
theorem modTruss_midway (b b' : Bank) (ps : List Part) :
    (s.midway a b ps).modTruss a.who.truss (fun u => { u with scr := b'.m, scrPsn := b'.psn }) = s.midway a b' ps := by
  have := modTruss_modTruss s a.who.truss (·.withBank b) (·.withBank b')
  have hc : (fun t : Truss => t.withBank b') ∘ (fun t : Truss => t.withBank b) = fun t : Truss => t.withBank b' := rfl
  rw [hc] at this
  unfold State.midway
  rw [← this]
  rfl

/-- The owning core performs a part. -/
theorem performScratch_midway {b : Bank} {ps : List Part} {i : Nat} {p : Part} (hown : p.va / 2 ^ 32 = t.spanPos) :
    (s.midway a b ps).performScratch { a with parts := ps } i (t.withBank b) p =
      (s.midway a (performOne a.kind b p).1 ps).settle
        { a with parts := ps.set i { (performOne a.kind b p).2 with phase := .performed } } := by
  have howner : (some a.who.truss).bind (fun n => ((s.midway a b ps).truss? n).map fun u => (n, u)) = some (a.who.truss, t.withBank b) := by
    rw [Option.bind_some, h.truss?_midway]
    rfl
  have hnote : ∀ s', s' = s.midway a (performOne a.kind b p).1 ps →
      (match a.kind with | .load => s' | _ => s'.noteRelease { a with parts := ps } (2 + a.who.truss) (p.va % 2 ^ 32) p.size) =
        s.midway a (performOne a.kind b p).1 ps := by
    rintro s' rfl
    split
    · rfl
    · exact h.noteRelease_midway ..
  unfold State.performScratch
  dsimp only
  rw [if_pos (show p.va / 2 ^ 32 = (t.withBank b).spanPos from hown), howner]
  dsimp only
  rw [heldBytes_midway]
  exact congrArg (fun s => State.settle s { a with parts := ps.set i { (performOne a.kind b p).2 with phase := .performed } })
    (hnote _ (modTruss_midway b (performOne a.kind b p).1 ps))

omit h in
theorem find_midway (b : Bank) (ps : List Part) : (s.midway a b ps).accesses.find? (fun c => c.id == a.id) = some { a with parts := ps } :=
  List.find?_cons_of_pos (beq_self_eq_true a.id)

/-- A step of a part that waits for nothing performs it. -/
theorem homeStep_ready (hscr : a.scratch = true) {b : Bank} {ps : List Part} {i : Nat} {p : Part} (hi : ps[i]? = some p) (hready : p.phase = .ready 0 0 false)
    (hown : p.va / 2 ^ 32 = t.spanPos) (hbefore : ∀ q ∈ ps.take i, q.phase.settled = true) (hgood : ∀ q ∈ ps, ∀ c d, q.phase ≠ .failed c d) :
    (s.midway a b ps).homeStep a.id i .home = (s.midway a (performOne a.kind b p).1 ps).settle
      { a with parts := ps.set i { (performOne a.kind b p).2 with phase := .performed } } := by
  have hfailed : ({ a with parts := ps } : Access).laneFailed i p = false := by
    unfold Access.laneFailed
    refine (Bool.and_eq_false_iff ..).mpr (.inr ?_)
    rw [List.any_eq_false]
    intro q hq
    unfold Access.mates at hq
    obtain ⟨x, hx, rfl⟩ := List.mem_map.mp hq
    have hmem := List.fst_mem_of_mem_zipIdx (List.mem_filter.mp hx).1
    split
    · next c d hf => exact absurd hf (hgood _ hmem c d)
    · exact Bool.false_ne_true
  unfold State.homeStep
  rw [find_midway]
  dsimp only
  rw [hi, h.truss?_midway, h.course?_midway]
  dsimp only
  rw [h.here, hready]
  refine (if_neg Bool.false_ne_true).trans ((if_neg ?_).trans ((if_neg (Bool.eq_false_iff.mp hfailed)).trans
    ((if_neg (Bool.eq_false_iff.mp (h.not_blocked hscr hbefore))).trans ((if_pos hscr).trans (h.performScratch_midway hown)))))
  rw [show ({ a with parts := ps } : Access).scratch = true from hscr]
  exact Bool.false_ne_true

/-- A step of a part that is performed does nothing. -/
theorem homeStep_performed {b : Bank} {ps : List Part} {i : Nat} {p : Part} (hi : ps[i]? = some p) (hdone : p.phase = .performed) :
    (s.midway a b ps).homeStep a.id i .home = s.midway a b ps := by
  unfold State.homeStep
  rw [find_midway]
  dsimp only
  rw [hi, h.truss?_midway, h.course?_midway]
  dsimp only
  rw [h.here, hdone]
  rfl

/-! ### The end of the access -/

end Alone

/-- The access has ended: an acquire at span scope or wider has invalidated the L1, and the operation is complete (R236, R255). -/
def State.ended (s : State) (a : Access) (t : Truss) (b : Bank) (ps : List Part) : State :=
  let s1 : State := { s.modTruss a.who.truss (·.withBank b) with accesses := [] }
  (if homeAcq a.acq then s1.invalidateL1 t.core else s1).modCourse a.who fun k =>
    k.endOp a.tokOp none ({ a with parts := ps } : Access).writes (a.land_ != .none && ps.any (·.poison)) ({ a with parts := ps } : Access).status

theorem accesses_ended (s : State) (a : Access) (t : Truss) (b : Bank) (ps : List Part) : (s.ended a t b ps).accesses = [] := by
  unfold State.ended
  dsimp only
  split <;> rfl

/-- No access is left to step. -/
theorem homeStep_ended (s : State) (a : Access) (t : Truss) (b : Bank) (ps : List Part) (is : List Nat) :
    is.foldl (fun s i => s.homeStep a.id i .home) (s.ended a t b ps) = s.ended a t b ps := by
  induction is with
  | nil => rfl
  | cons i is ih =>
    have hstep : (s.ended a t b ps).homeStep a.id i .home = s.ended a t b ps := by
      unfold State.homeStep
      rw [accesses_ended]
      rfl
    rw [List.foldl_cons, hstep, ih]

/-- Without an early release there is none to drop. -/
theorem filter_early {s : State} (h : s.early = []) (f : EarlyRel → Bool) : ({ s with early := s.early.filter f } : State) = s := by
  rw [h, List.filter_nil, ← h]

theorem performed_settled {p : Part} (h : p.phase = .performed) : p.phase.settled = true := by rw [h]; rfl
theorem performed_good {p : Part} (h : p.phase = .performed) (c d : Nat) : p.phase ≠ .failed c d := by rw [h]; nofun

namespace Alone
variable {s : State} {a : Access} {t : Truss} {k : Course} (h : Alone s a t k)

theorem settle_open {b : Bank} {ps qs : List Part} (hopen : ∃ p ∈ qs, p.phase.settled = false) :
    (s.midway a b ps).settle { a with parts := qs } = s.midway a b qs := by
  obtain ⟨p, hp, hs⟩ := hopen
  have hpend : ({ a with parts := qs } : Access).pending = true := List.any_eq_true.mpr ⟨p, hp, by rw [hs]; rfl⟩
  unfold State.settle
  rw [if_pos hpend, show (s.midway a b ps).accesses = [{ a with parts := ps }] from rfl, List.map_cons, List.map_nil]
  rw [if_pos rfl]
  rfl

theorem not_pending {qs : List Part} (hdone : ∀ p ∈ qs, p.phase.settled = true) : ({ a with parts := qs } : Access).pending = false := by
  refine List.any_eq_false.mpr fun p hp => ?_
  rw [hdone p hp]
  exact Bool.false_ne_true

theorem no_fault {qs : List Part} (hgood : ∀ q ∈ qs, ∀ c d, q.phase ≠ .failed c d) : ({ a with parts := qs } : Access).fault? = none := by
  unfold Access.fault?
  rw [List.findSome?_eq_none_iff]
  intro q hq
  split
  · next c d hf => exact absurd hf (hgood q hq c d)
  · rfl

include h

theorem settle_done {b : Bank} {ps qs : List Part} (hdone : ∀ p ∈ qs, p.phase = .performed) :
    (s.midway a b ps).settle { a with parts := qs } = s.ended a t b qs := by
  have haccs : ((s.midway a b ps).accesses.filter fun c => c.id != a.id) = [] := by
    rw [show (s.midway a b ps).accesses = [{ a with parts := ps }] from rfl]
    simp
  have htruss := h.truss?_midway b ps
  unfold State.settle
  rw [if_neg (Bool.eq_false_iff.mp (not_pending fun p hp => performed_settled (hdone p hp))), no_fault fun p hp => performed_good (hdone p hp)]
  dsimp only
  rw [haccs, ite_self]
  unfold State.ended
  dsimp only
  by_cases hacq : homeAcq a.acq = true
  · simp only [hacq, Option.isNone_none, Bool.and_true, if_true]
    rw [show State.truss? { s.midway a b ps with accesses := [] } a.who.truss = some (t.withBank b) from htruss]
    dsimp only
    exact congrArg (fun s => State.modCourse s a.who _)
      (filter_early (s := ({ s.modTruss a.who.truss (·.withBank b) with accesses := [] } : State).invalidateL1 t.core) (by exact h.early) _)
  · simp only [Bool.eq_false_iff.mpr hacq, Bool.false_and, Bool.false_eq_true, if_false]
    exact congrArg (fun s => State.modCourse s a.who _)
      (filter_early (s := { s.modTruss a.who.truss (·.withBank b) with accesses := [] }) (by exact h.early) _)

/-- The parts of the access performed one after another, from some place on. -/
theorem run_midway (hscr : a.scratch = true) {rest : List Part} (hrest : ∀ p ∈ rest, p.phase = .performed ∨ p.phase = .ready 0 0 false ∧ p.va / 2 ^ 32 = t.spanPos) :
    ∀ {done : List Part} (b : Bank), (∀ p ∈ done, p.phase = .performed) → (∃ p ∈ rest, p.phase.settled = false) →
      (List.range' done.length rest.length).foldl (fun s i => s.homeStep a.id i .home) (s.midway a b (done ++ rest)) =
        s.ended a t (performParts a.kind b rest).1 (done ++ (performParts a.kind b rest).2) := by
  induction rest with
  | nil =>
    rintro done b - ⟨p, hp, -⟩
    cases hp
  | cons p rest ih =>
    intro done b hdone hopen
    have hget : (done ++ p :: rest)[done.length]? = some p := by rw [List.getElem?_append_right (Nat.le_refl _), Nat.sub_self]; rfl
    have htail : ∀ q ∈ rest, q.phase = .performed ∨ q.phase = .ready 0 0 false ∧ q.va / 2 ^ 32 = t.spanPos := fun q hq => hrest q (.tail _ hq)
    have hset : ∀ q, (done ++ p :: rest).set done.length q = (done ++ [q]) ++ rest := by simp
    rw [List.length_cons, List.range'_succ, List.foldl_cons]
    rcases hrest p (.head _) with hp | ⟨hp, hown⟩
    · have hrestOpen : ∃ q ∈ rest, q.phase.settled = false := by
        obtain ⟨q, hq, hs⟩ := hopen
        rcases List.mem_cons.mp hq with rfl | hq
        · rw [hp] at hs; cases hs
        · exact ⟨q, hq, hs⟩
      have hih := ih htail (done := done ++ [p]) b (by simpa [or_imp, forall_and] using ⟨hdone, hp⟩) hrestOpen
      rw [List.length_append, List.append_assoc, List.append_assoc] at hih
      rw [h.homeStep_performed hget hp, performParts_settled (performed_settled hp)]
      exact hih
    · have hgood : ∀ q ∈ done ++ p :: rest, ∀ c d, q.phase ≠ .failed c d := by
        intro q hq c d hf
        rcases List.mem_append.mp hq with hq | hq
        · exact performed_good (hdone q hq) c d hf
        · rcases hrest q hq with hq | ⟨hq, -⟩ <;> rw [hq] at hf <;> cases hf
      have hbefore : ∀ q ∈ (done ++ p :: rest).take done.length, q.phase.settled = true := by
        intro q hq
        rw [List.take_left] at hq
        exact performed_settled (hdone q hq)
      have hopenp : p.phase.settled = false := by rw [hp]; rfl
      have hdone' : ∀ q ∈ done ++ [{ (performOne a.kind b p).2 with phase := .performed }], q.phase = .performed := by
        simpa [or_imp, forall_and] using hdone
      rw [h.homeStep_ready hscr hget hp hown hbefore hgood, hset, performParts_open hopenp]
      by_cases hrestOpen : ∃ q ∈ rest, q.phase.settled = false
      · obtain ⟨q, hq, hs⟩ := hrestOpen
        have hih := ih htail (performOne a.kind b p).1 hdone' ⟨q, hq, hs⟩
        rw [settle_open ⟨q, List.mem_append_right _ hq, hs⟩]
        rw [List.length_append, List.append_assoc _ _ (performParts a.kind (performOne a.kind b p).1 rest).2] at hih
        exact hih
      · have hall : ∀ q ∈ rest, q.phase = .performed := by
          intro q hq
          rcases htail q hq with hq' | ⟨hq', -⟩
          · exact hq'
          · exact absurd ⟨q, hq, by rw [hq']; rfl⟩ hrestOpen
        rw [h.settle_done (fun q hq => ?_), homeStep_ended, performParts_all_settled fun q hq => performed_settled (hall q hq)]
        · rw [List.append_assoc]
          rfl
        · rcases List.mem_append.mp hq with hq | hq
          · exact hdone' q hq
          · exact hall q hq

end Alone

/-! ### Performed at issue -/

theorem modTruss_id {s : State} {n : Nat} {t : Truss} (h : s.truss? n = some t) {f : Truss → Truss} (hf : f t = t) : s.modTruss n f = s := by
  rw [modTruss_congr h (g := id) hf]
  unfold State.modTruss
  rw [List.modify_id]

theorem homeAcq_eq (a : Option Scope) : homeAcq a = (strong a && a != some .trs) := by
  cases a with
  | none => rfl
  | some sc => cases sc <;> rfl

/-- A store reads nothing, poisoned or not. -/
theorem performParts_store_clean {b : Bank} {ps : List Part} (h : ∀ p ∈ ps, p.poison = false) :
    ∀ p ∈ (performParts .store b ps).2, p.poison = false := by
  induction ps generalizing b with
  | nil => nofun
  | cons p ps ih =>
    have htail : ∀ q ∈ ps, q.poison = false := fun q hq => h q (.tail _ hq)
    cases hs : p.phase.settled with
    | true =>
      rw [performParts_settled hs]
      intro q hq
      rcases List.mem_cons.mp hq with rfl | hq
      · exact h _ (.head _)
      · exact ih htail q hq
    | false =>
      rw [performParts_open hs]
      intro q hq
      rcases List.mem_cons.mp hq with rfl | hq
      · exact h p (.head _)
      · exact ih htail q hq

section Performs
variable {s : State} {x : Ctx} {w : MemWord}

theorem sent_parts (hg : x.t.items.guarded = false) : (x.sent w).parts = w.parts :=
  if_neg (by unfold Ctx.holds; rw [hg]; exact Bool.false_ne_true)

theorem sender_eq (hg : x.t.items.guarded = false) : x.sender w = x.counted w :=
  if_neg (by unfold Ctx.holds; rw [hg]; exact Bool.false_ne_true)

theorem alone_sent (hx : s.ctx? = some x) (hprom : s.proms = []) (hearly : s.early = []) :
    Alone (x.withAccess w) (x.sent w) (x.t.modCourse x.c.course fun _ => x.sender w) (x.sender w) where
  truss := truss?_set hx (x.sender w)
  course := by
    have := courses_modCourse hx (x.sender w)
    exact this
  here := by
    have hc : (x.sender w).cstate = x.k.cstate := by
      unfold Ctx.sender Ctx.counted
      cases w.tk <;> (dsimp only; split <;> rfl)
    obtain ⟨-, -, -, -, -, -, hres⟩ := ctx_of hx
    unfold Course.away
    rw [hc, hres]
    rfl
  proms := by
    obtain ⟨rfl, -⟩ := ctx_of hx
    exact hprom
  early := by
    obtain ⟨rfl, -⟩ := ctx_of hx
    exact hearly

theorem withAccess_midway (hx : s.ctx? = some x) (hg : x.t.items.guarded = false) (hacc : s.accesses = []) :
    x.withAccess w = (x.withAccess w).midway (x.sent w) ⟨x.t.scr, x.t.scrPsn⟩ w.parts := by
  have hid := modTruss_id (s := x.withAccess w) (n := x.c.truss) (truss?_set hx (x.sender w)) (f := (·.withBank ⟨x.t.scr, x.t.scrPsn⟩)) rfl
  obtain ⟨rfl, -⟩ := ctx_of hx
  have hacc' : (x.withAccess w).accesses = [{ x.sent w with parts := w.parts }] := by
    unfold Ctx.withAccess
    rw [hacc, ← sent_parts hg]
    rfl
  unfold State.midway
  rw [show (x.sent w).who.truss = x.c.truss from rfl, hid, ← hacc']

/-- What the end of the access does to its course. -/
def Ctx.receive (x : Ctx) (w : MemWord) (ps : List Part) (k : Course) : Course :=
  k.endOp (x.sent w).tokOp none ({ x.sent w with parts := ps } : Access).writes (w.land_ != .none && ps.any (·.poison))
    ({ x.sent w with parts := ps } : Access).status

theorem drop_accesses {s : State} (h : s.accesses = []) : ({ s with accesses := [] } : State) = s := by rw [← h]

/-- The truss after the access has gone through it. -/
theorem receive_truss (hx : s.ctx? = some x) (hg : x.t.items.guarded = false) (b : Bank) (ps : List Part) :
    (((x.set (x.sender w)).modTruss x.c.truss (·.withBank b)).modCourse x.c (x.receive w ps)) =
      (x.s.setTruss x.c.truss { x.t with scr := b.m, scrPsn := b.psn }).setCourse x.c (x.receive w ps (x.counted w)) := by
  obtain ⟨rfl, -, ht, -⟩ := ctx_of hx
  have hleft := modTruss_modTruss (x.set (x.sender w)) x.c.truss (·.withBank b) fun t => t.modCourse x.c.course (x.receive w ps)
  have hleft' := modTruss_modTruss x.s x.c.truss (fun t => t.modCourse x.c.course fun _ => x.sender w)
    ((fun t => t.modCourse x.c.course (x.receive w ps)) ∘ (·.withBank b))
  have hright := modTruss_modTruss x.s x.c.truss (fun _ => { x.t with scr := b.m, scrPsn := b.psn })
    fun t => t.modCourse x.c.course fun _ => x.receive w ps (x.counted w)
  refine hleft.trans (hleft'.trans (Eq.trans (modTruss_congr ht ?_) hright.symm))
  have hcourse : ((x.t.courses.modify x.c.course fun _ => x.sender w).modify x.c.course (x.receive w ps)) =
      x.t.courses.modify x.c.course fun _ => x.receive w ps (x.counted w) := by
    rw [List.modify_modify_eq, sender_eq hg]
    rfl
  unfold Function.comp Truss.modCourse Truss.withBank
  dsimp only
  rw [hcourse]

/-- The state once the access has ended. -/
theorem ended_eq (hx : s.ctx? = some x) (hg : x.t.items.guarded = false) (hacc : s.accesses = []) (b : Bank) (ps : List Part) :
    (x.withAccess w).ended (x.sent w) (x.t.modCourse x.c.course fun _ => x.sender w) b ps =
      (let s1 : State := { (x.s.setTruss x.c.truss { x.t with scr := b.m, scrPsn := b.psn }).setCourse x.c (x.receive w ps (x.counted w)) with
          nextId := x.s.nextId + 1 }
       if strong w.acq && w.acq != some .trs then s1.invalidateL1 x.t.core else s1) := by
  have htruss := receive_truss (w := w) hx hg b ps
  obtain ⟨rfl, -⟩ := ctx_of hx
  have hstate : ({ (x.withAccess w).modTruss x.c.truss (·.withBank b) with accesses := [] } : State).modCourse x.c (x.receive w ps) =
      { (x.s.setTruss x.c.truss { x.t with scr := b.m, scrPsn := b.psn }).setCourse x.c (x.receive w ps (x.counted w)) with
        nextId := x.s.nextId + 1 } := by
    rw [← htruss]
    exact drop_accesses (s := { ((x.set (x.sender w)).modTruss x.c.truss (·.withBank b)).modCourse x.c (x.receive w ps) with
      nextId := x.s.nextId + 1 }) hacc
  unfold State.ended
  rw [show (x.sent w).acq = w.acq from rfl, homeAcq_eq]
  dsimp only
  split
  · exact congrArg (fun s => State.invalidateL1 s x.t.core) hstate
  · exact hstate

theorem foldl_markClash_nil (ws : List RegVal) : ws.foldl (fun os w => markClash w os) ([] : List TokOp) = [] := by
  induction ws with
  | nil => rfl
  | cons w ws ih => exact ih

theorem modOp_ops_single {k : Course} {o : TokOp} (h : k.ops = [o]) (f : TokOp → TokOp) : (k.modOp o.id f).ops = [f o] := by
  unfold Course.modOp
  dsimp only
  rw [h, List.map_cons, List.map_nil, if_pos rfl]

/-- The one operation of a course has ended without a fault. -/
theorem endOp_counts {k : Course} (hops : k.ops = []) (tk : Tok) (wait : OpWait) (ws0 ws : List RegVal) (poison : Bool) :
    ∃ o, Counts k ((k.issueOp tk wait ws0).endOp (some k.nextOp) none ws poison 0) tk o ∧ o.wait = .nothing ∧ o.writes = ws ∧ o.flags = 0 ∧
      o.poison = poison ∧ o.mat = false ∧ o.acq = false ∧ o.inval = false := by
  have hissued : (k.issueOp tk wait ws0).ops = [k.newOp tk wait ws0 false false false 0 (ws0.map RegVal.name)] := by
    rw [show (k.issueOp tk wait ws0).ops = ws0.foldl (fun os w => markClash w os) k.ops ++
      [k.newOp tk wait ws0 false false false 0 (ws0.map RegVal.name)] from rfl, hops, foldl_markClash_nil]
    rfl
  refine ⟨{ k.newOp tk wait ws0 false false false 0 (ws0.map RegVal.name) with wait := .nothing, writes := ws, poison := poison },
    ⟨rfl, ?_, rfl, rfl, rfl, rfl, rfl, rfl, rfl⟩, rfl, rfl, rfl, rfl, rfl, rfl, rfl⟩
  have hended := modOp_ops_single (modOp_ops_single hissued fun o => { o with writes := ws, poison := poison })
    fun o => { o with wait := .nothing, status := if o.status = 0 then 0 else o.status }
  rw [hops]
  exact congrArg (List.map TokOp.noClash) hended

/-- The operation is complete with what the parts read. -/
theorem receive_counts (hops : x.k.ops = []) {ps : List Part} (hclean : w.land_ = .none → ∀ p ∈ ps, p.poison = false) :
    match w.tk with
    | none => x.receive w ps (x.counted w) = x.k
    | some tk => ∃ o, Counts x.k (x.receive w ps (x.counted w)) tk o ∧ o.wait = .nothing ∧ o.writes = ({ x.sent w with parts := ps } : Access).writes ∧
        o.flags = 0 ∧ o.poison = (w.land_ != .none && ps.any (·.poison)) ∧ o.mat = false ∧ o.acq = false ∧ o.inval = false := by
  have hstatus : ({ x.sent w with parts := ps } : Access).status = 0 := by
    have hmoved : (w.land_ == .none && ps.any (·.poison)) = false := by
      cases hl : w.land_ == .none with
      | false => rfl
      | true =>
        rw [Bool.true_and, List.any_eq_false]
        intro p hp
        rw [hclean (eq_of_beq hl) p hp]
        exact Bool.false_ne_true
    unfold Access.status
    rw [show ({ x.sent w with parts := ps } : Access).land_ = w.land_ from rfl, show ({ x.sent w with parts := ps } : Access).parts = ps from rfl,
      hmoved]
    rfl
  unfold Ctx.receive
  rw [hstatus]
  have htok : (x.sent w).tokOp = w.tk.map fun _ => x.k.nextOp := rfl
  rw [htok]
  unfold Ctx.counted
  cases w.tk with
  | none => rfl
  | some tk => exact endOp_counts hops tk _ _ _ _

/-- What ends at issue: the state after the parts of the access. -/
def Ctx.performedState (x : Ctx) (w : MemWord) (r : Bank × List Part) : State :=
  (x.withAccess w).ended (x.sent w) (x.t.modCourse x.c.course fun _ => x.sender w) r.1 r.2

/-- An access to the truss's own scratchpad runs through its parts when nothing is outstanding. -/
theorem send_runs (hx : s.ctx? = some x) (hl : w.lanes ≠ 0) (hg : x.t.items.guarded = false) (hscr : w.scratch = true)
    (hparts : ∀ p ∈ w.parts, p.phase = .performed ∨ p.phase = .ready 0 0 false ∧ p.va / 2 ^ 32 = x.t.spanPos)
    (hplace : ∀ p ∈ w.parts, p.va / 2 ^ 32 = x.t.spanPos) (hopen : ∃ p ∈ w.parts, p.phase.settled = false)
    (hacc : s.accesses = []) (hprom : s.proms = []) (hearly : s.early = []) :
    x.send w.toSent = .ok (x.performedState w (performParts w.kind ⟨x.t.scr, x.t.scrPsn⟩ w.parts)) := by
  have hall : ((x.sent w).parts.all fun p => decide (p.va / 2 ^ 32 = x.t.spanPos)) = true := by
    rw [sent_parts hg, List.all_eq_true]
    exact fun p hp => decide_eq_true (hplace p hp)
  have hrun := (alone_sent (w := w) hx hprom hearly).run_midway hscr hparts (done := []) ⟨x.t.scr, x.t.scrPsn⟩ nofun hopen
  rw [List.nil_append, List.nil_append, ← withAccess_midway (w := w) hx hg hacc] at hrun
  rw [send_eq hl, pending_sent hopen, hscr, hall, hg, sent_parts hg, List.range_eq_range']
  exact congrArg Res.ok hrun

/-- An access that is performed as it stands ends. -/
theorem send_settled (hx : s.ctx? = some x) (hl : w.lanes ≠ 0) (hg : x.t.items.guarded = false) (hdone : ∀ p ∈ w.parts, p.phase = .performed)
    (hacc : s.accesses = []) (hprom : s.proms = []) (hearly : s.early = []) :
    x.send w.toSent = .ok (x.performedState w (performParts w.kind ⟨x.t.scr, x.t.scrPsn⟩ w.parts)) := by
  have hsent : ({ x.sent w with parts := w.parts } : Access) = x.sent w := by rw [← sent_parts hg]
  have hsettled : ∀ p ∈ w.parts, p.phase.settled = true := fun p hp => performed_settled (hdone p hp)
  have hpend := Alone.not_pending (a := x.sent w) hsettled
  have hend := (alone_sent (w := w) hx hprom hearly).settle_done (b := ⟨x.t.scr, x.t.scrPsn⟩) (ps := w.parts) hdone
  rw [hsent] at hpend
  rw [← withAccess_midway (w := w) hx hg hacc, hsent] at hend
  rw [send_eq hl, hpend, performParts_all_settled hsettled]
  refine congrArg Res.ok ?_
  dsimp only
  rw [if_neg Bool.false_ne_true, hend]
  split
  · exact homeStep_ended (x.withAccess w) (x.sent w) _ _ _ _
  · rfl

/-- An access to the truss's own scratchpad, or one that is performed as it stands, ends at issue when nothing is outstanding. -/
theorem performs_of_send {i : Instr} {body : Ctx → Res} (h : Issues s x i) (hp : positionsOf i = 1) (he : exec i s = .next (issue i s body))
    (hb : body x = x.send w.toSent) (hl : w.lanes ≠ 0) (hg : x.t.items.guarded = false)
    (hparts : ∀ p ∈ w.parts, p.phase = .performed ∨ p.phase = .ready 0 0 false ∧ p.va / 2 ^ 32 = x.t.spanPos)
    (hown : (∀ p ∈ w.parts, p.phase.settled = true) ∨ w.scratch = true ∧ ∀ p ∈ w.parts, p.va / 2 ^ 32 = x.t.spanPos)
    (hclean : w.land_ = .none → w.kind = .store ∧ ∀ p ∈ w.parts, p.poison = false)
    (hacc : s.accesses = []) (hprom : s.proms = []) (hearly : s.early = []) (hops : x.k.ops = []) : Performs s x i w := by
  have hrun : x.send w.toSent = .ok (x.performedState w (performParts w.kind ⟨x.t.scr, x.t.scrPsn⟩ w.parts)) := by
    by_cases hopen : ∃ p ∈ w.parts, p.phase.settled = false
    · obtain ⟨hscr, hplace⟩ := hown.resolve_left fun hall => by
        obtain ⟨p, hmem, hs⟩ := hopen
        rw [hall p hmem] at hs
        cases hs
      exact send_runs h.1 hl hg hscr hparts hplace hopen hacc hprom hearly
    · refine send_settled h.1 hl hg (fun p hmem => ?_) hacc hprom hearly
      rcases hparts p hmem with hq | ⟨hq, -⟩
      · exact hq
      · exact absurd ⟨p, hmem, by rw [hq]; rfl⟩ hopen
  have hread : w.land_ = .none → ∀ p ∈ (performParts w.kind ⟨x.t.scr, x.t.scrPsn⟩ w.parts).2, p.poison = false := by
    intro hland
    obtain ⟨hkind, hpoison⟩ := hclean hland
    rw [hkind]
    exact performParts_store_clean hpoison
  unfold Performs
  generalize performParts w.kind ⟨x.t.scr, x.t.scrPsn⟩ w.parts = r at hrun hread
  refine ⟨x.receive w r.2 (x.counted w), receive_counts (w := w) hops hread, ?_⟩
  have htruss := truss?_modTruss (x.s.setTruss x.c.truss (x.t.withBank r.1)) x.c.truss x.c.truss
    fun t => t.modCourse x.c.course fun _ => x.receive w r.2 (x.counted w)
  obtain ⟨rfl, -, ht, -⟩ := ctx_of h.1
  rw [if_pos rfl, truss?_setTruss ht] at htruss
  refine goesWith_of_truss h hp he (hb.trans (hrun.trans (congrArg Res.ok (ended_eq h.1 hg hacc _ _)))) ?_
    (t' := (x.t.withBank r.1).modCourse x.c.course fun _ => x.receive w r.2 (x.counted w)) ?_ rfl (courses_modCourse h.1 _) ?_
  · dsimp only
    split <;> rfl
  · dsimp only
    split
    · exact htruss
    · exact htruss
  · rw [← counted_pc x w]
    unfold Ctx.receive Course.endOp
    split <;> rfl

end Performs

/-! ### The parts of a scratchpad word -/

theorem mkPart_ready {l va n : Nat} {data cmp : List Byte} {dst : Nat} :
    (mkPart true l va n data cmp dst).phase = .ready 0 0 false ∧ (mkPart true l va n data cmp dst).poison = false := ⟨rfl, rfl⟩

theorem laneParts_ready {l va n : Nat} {data : List Byte} {dst : Nat} :
    ∀ p ∈ laneParts true l va n data dst, p.phase = .ready 0 0 false ∧ p.poison = false := by
  unfold laneParts
  split
  · simp only [List.mem_cons, List.not_mem_nil, or_false]
    rintro p (rfl | rfl)
    · exact mkPart_ready
    · exact mkPart_ready
  · simp only [List.mem_cons, List.not_mem_nil, or_false]
    rintro p rfl
    exact mkPart_ready

theorem flatten_forall {lanes : List Nat} {f : Nat → List Part} {q : Part → Prop} (h : ∀ l, ∀ p ∈ f l, q p) : ∀ p ∈ (lanes.map f).flatten, q p := by
  intro p hp
  obtain ⟨ps, hps, hp⟩ := List.mem_flatten.mp hp
  obtain ⟨l, -, rfl⟩ := List.mem_map.mp hps
  exact h l p hp

/-- The parts of a scratchpad word need no translation. -/
theorem scratchWord_ready {x : Ctx} {i : Instr} {w : MemWord} (hw : x.memWord i = some w) (hs : w.scratch = true) :
    ∀ p ∈ w.parts, p.phase = .ready 0 0 false ∧ p.poison = false := by
  cases i with
  | lds gd tk d m z sem ssc => cases hw; exact flatten_forall fun l => laneParts_ready
  | sts gd tk d m z sem ssc => cases hw; exact flatten_forall fun l => laneParts_ready
  | atoms gd tk d m va op z sem ssc =>
    cases hw
    intro p hp
    obtain ⟨l, -, rfl⟩ := List.mem_map.mp hp
    exact mkPart_ready
  | ld gd tk d m z sem | st gd tk d m z sem | acp gd tk d m z bar | ldc gd tk d gb off z | atom gd tk d m va op z sem | red gd tk m va op z sem =>
    cases hw
    cases hs
  | _ => cases hw

theorem scratchWord_lands {x : Ctx} {i : Instr} {w : MemWord} (hw : x.memWord i = some w) (hs : w.scratch = true) (hl : w.land_ = .none) :
    w.kind = .store := by
  cases i with
  | sts gd tk d m z sem ssc => cases hw; rfl
  | lds gd tk d m z sem ssc | atoms gd tk d m va op z sem ssc =>
    cases hw
    cases hl
  | ld gd tk d m z sem | st gd tk d m z sem | acp gd tk d m z bar | ldc gd tk d gb off z | atom gd tk d m va op z sem | red gd tk m va op z sem =>
    cases hw
    cases hs
  | _ => cases hw

/-- Settles O25: the parts are performed in order, and the access ends with the last. -/
theorem scratchpadPerforms : Obligations.ScratchpadPerforms := by
  intro i w s x hw h hs hl hok hg hown hacc hprom hearly hops
  obtain ⟨hp, body, he, hb⟩ := memWord_issues hw
  rw [wordFault_none hok] at hb
  have hready := scratchWord_ready hw hs
  exact performs_of_send h hp (he s) hb hl hg (fun p hmem => .inr ⟨(hready p hmem).1, hown p hmem⟩) (.inr ⟨hs, hown⟩)
    (fun hland => ⟨scratchWord_lands hw hs hland, fun p hmem => (hready p hmem).2⟩) hacc hprom hearly hops

end Sys2Proof.Machine
end

section
/-!
PROOFS. Layout-addressed elements (12 R270, R271).
-/
namespace Sys2Proof.Machine

/-- A part of an element is read as its zero code, or is still to be performed in the entry's space. -/
theorem elemParts_phase {e : Layout} {pos l j : Nat} {c : List Int} {code : Option Nat} :
    ∀ p ∈ e.elemParts pos l j c code,
      (p.phase = .performed ∨ p.phase = if e.space ≠ 0 then .ready 0 0 false else .untranslated) ∧ p.poison = false := by
  intro p hp
  unfold Layout.elemParts at hp
  split at hp
  · split at hp
    · cases hp
    · obtain rfl := List.mem_singleton.mp hp
      exact ⟨.inl rfl, rfl⟩
  · obtain ⟨i, -, rfl⟩ := List.mem_map.mp hp
    refine ⟨.inr ?_, rfl⟩
    unfold mkPart Layout.elem
    by_cases hs : e.space = 0
    · simp [hs]
    · simp [hs]

section LayWord
variable (x : Ctx) (gd : Guard) (tk : Option Tok) (d : VReg) (o : LayOpnd) (store : Bool)

/-- The entry that a word names, as the course reads it. -/
def layEntry : Layout := x.t.layout x.s.tick x.c.course o.l
/-- The elements of a word: the lane and the number of each. -/
def layIdx : List (Nat × Nat) :=
  ((lanesIn (x.r.exec gd)).map fun l => (List.range (layElems (layEntry x o).bits (o.nr.val + 1))).map fun j => (l, j)).flatten
/-- The coordinates of an element. -/
def layAt (p : Nat × Nat) : List Int := x.r.layCoord o (layElems (layEntry x o).bits (o.nr.val + 1)) p.1 p.2
/-- The fault of an element. -/
def layBad (p : Nat × Nat) : Option LayFault := (layEntry x o).elemFault x.t.portion (layAt x o p)

/-- The access of a layout word. -/
def layWord : MemWord :=
  { tk := tk, kind := if store then .store else .load, scratch := (layEntry x o).space ≠ 0, ssc := (layEntry x o).space = 2, lanes := x.r.exec gd,
    ea := fun _ => 0, size := 1, land_ := if store then .none else .lay d (layEntry x o).bits (o.nr.val + 1) o.row,
    parts := ((layIdx x gd o).map fun p => (layEntry x o).elemParts x.t.spanPos p.1 p.2 (layAt x o p)
      (if store then some (x.r.layCode d (layEntry x o).bits p.1 p.2) else none)).flatten }

variable {x gd tk d o store}

theorem layWord_phase : ∀ p ∈ (layWord x gd tk d o store).parts,
    (p.phase = .performed ∨ p.phase = if (layEntry x o).space ≠ 0 then .ready 0 0 false else .untranslated) ∧ p.poison = false := by
  intro p hp
  obtain ⟨ps, hps, hp⟩ := List.mem_flatten.mp hp
  obtain ⟨q, -, rfl⟩ := List.mem_map.mp hps
  exact elemParts_phase p hp

/-! ### What the word does -/

/-- The access of a layout word without an executing lane. -/
def layNothing (x : Ctx) (tk : Option Tok) (d : VReg) (o : LayOpnd) (store : Bool) : MemWord where
  tk := tk
  kind := .load
  lanes := 0
  ea := fun _ => 0
  size := 1
  parts := []
  land_ := if store then .none else .lay d (layEntry x o).bits (o.nr.val + 1) o.row

theorem layEffect_none (hex : x.r.exec gd = 0) : layEffect x gd tk d o store = x.send (layNothing x tk d o store).toSent := if_pos hex

section Lanes
variable (hex : x.r.exec gd ≠ 0)
include hex

theorem layEffect_badEntry {detail : Nat} {fa : W64} (hc : (layEntry x o).check x.t.items.span = some (detail, fa)) :
    layEffect x gd tk d o store = .trap 0x16 detail fa := by
  refine (if_neg hex).trans ?_
  rw [show (x.t.layout x.s.tick x.c.course o.l).check x.t.items.span = some (detail, fa) from hc]

variable (hc : (layEntry x o).check x.t.items.span = none)
include hc

/-- With a good entry: odd registers, a bad element, or the access. -/
theorem layEffect_goodEntry : layEffect x gd tk d o store =
    if (decide ((layEntry x o).bits = 64) && (decide (d.val % 2 ≠ 0) || decide ((o.nr.val + 1) % 2 ≠ 0))) then .trap 0x01 0 0
    else match (layIdx x gd o).findSome? (layBad x o) with
      | some (detail, fa) => .trap 0x16 detail fa
      | none => x.send (layWord x gd tk d o store).toSent := by
  refine (if_neg hex).trans ?_
  rw [show (x.t.layout x.s.tick x.c.course o.l).check x.t.items.span = none from hc]
  rfl

theorem layEffect_odd (hbits : (layEntry x o).bits = 64) (hodd : d.val % 2 ≠ 0 ∨ (o.nr.val + 1) % 2 ≠ 0) :
    layEffect x gd tk d o store = .trap 0x01 0 0 := by
  rw [layEffect_goodEntry hex hc]
  exact if_pos (by simpa [hbits] using hodd)

variable (heven : (layEntry x o).bits = 64 → d.val % 2 = 0 ∧ (o.nr.val + 1) % 2 = 0)
include heven

theorem layEffect_even : layEffect x gd tk d o store = match (layIdx x gd o).findSome? (layBad x o) with
    | some (detail, fa) => .trap 0x16 detail fa
    | none => x.send (layWord x gd tk d o store).toSent := by
  rw [layEffect_goodEntry hex hc]
  refine if_neg fun h => ?_
  rw [Bool.and_eq_true, decide_eq_true_eq] at h
  obtain ⟨h1, h2⟩ := heven h.1
  simp [h1, h2] at h

theorem layEffect_badElem {as bs : List (Nat × Nat)} {p : Nat × Nat} {detail : Nat} {fa : W64} (hidx : layIdx x gd o = as ++ p :: bs)
    (has : ∀ q ∈ as, layBad x o q = none) (hbad : layBad x o p = some (detail, fa)) : layEffect x gd tk d o store = .trap 0x16 detail fa := by
  have hfind : (layIdx x gd o).findSome? (layBad x o) = some (detail, fa) := by
    rw [hidx, List.findSome?_append, List.findSome?_eq_none_iff.mpr has, Option.none_or, List.findSome?_cons, hbad]
  rw [layEffect_even hex hc heven, hfind]

theorem layEffect_sends (hgood : ∀ q ∈ layIdx x gd o, layBad x o q = none) :
    layEffect x gd tk d o store = x.send (layWord x gd tk d o store).toSent := by
  rw [layEffect_even hex hc heven, List.findSome?_eq_none_iff.mpr hgood]

end Lanes
end LayWord

/-- Settles O26: a good entry whose elements are good sends the access, or performs it where nothing is outstanding. -/
theorem layoutElementsComplete : Obligations.LayoutElementsComplete := by
  intro i gd tk d o store s x hi h
  obtain ⟨hp, he⟩ : positionsOf i = 1 ∧ exec i s = .next (issue i s fun x => layEffect x gd tk d o store) := by
    rcases hi with ⟨rfl, t, rfl, rfl⟩ | ⟨rfl, rfl⟩
    · exact ⟨rfl, rfl⟩
    · exact ⟨rfl, rfl⟩
  refine ⟨fun hex => ?none, fun detail fa hex hc => ?badEntry, fun hex hc hbits hodd => ?odd, fun hex hc heven =>
    ⟨fun as p bs detail fa hidx has hbad => ?badElem, fun hgood hopen haway => ?sends, fun hgood hg hown hacc hprom hearly hops => ?performs⟩⟩
  case none => exact countsOnly_of_send h hp he (layEffect_none hex) rfl
  case badEntry => exact traps_of h he (layEffect_badEntry hex hc)
  case odd => exact traps_of h he (layEffect_odd hex hc hbits hodd)
  case badElem => exact traps_of h he (layEffect_badElem hex hc heven hidx has hbad)
  case sends => exact sends_of_send h hp he (layEffect_sends hex hc heven hgood) hex hopen haway
  case performs =>
    refine performs_of_send h hp he (layEffect_sends hex hc heven hgood) hex hg (fun p hmem => ?_) hown (fun hland => ⟨?_, fun p hmem => ?_⟩)
      hacc hprom hearly hops
    · obtain ⟨hphase, -⟩ := layWord_phase p hmem
      rcases hphase with hphase | hphase
      · exact .inl hphase
      · rcases hown with hall | ⟨hscr, hplace⟩
        · have hs := hall p hmem
          rw [hphase] at hs
          split at hs <;> cases hs
        · have hspace : (layEntry x o).space ≠ 0 := of_decide_eq_true hscr
          rw [if_pos hspace] at hphase
          exact .inr ⟨hphase, hplace p hmem⟩
    · cases store with
      | true => rfl
      | false => cases hland
    · exact (layWord_phase p hmem).2

end Sys2Proof.Machine
end

section
/-!
PROOFS. Fences, ranges and code words: a prefetch whose lanes all lie outside the address space is settled at its issue, and with it the
releases whose needs are met leave the record of releases performed early (12 R260; 14 R311).
-/
namespace Sys2Proof.Machine

/-- A prefetch of the byte at g2 in every lane. -/
def farPrefetch : Instr := .prf .always .l1 ⟨2, 1, false, 0⟩

/-- A course before that prefetch: g2 lies outside the address space, and a release that waits for no access stands in the record of
releases performed early. -/
def farState : State :=
  let s := State.reset.placed (encode farPrefetch)
  ({ s with trusses := s.trusses.drop 4, early := [⟨⟨0, 0⟩, .dev, 0, 0, 8, [], 0⟩] } : State).modCourse ⟨0, 0⟩ fun k =>
    { k with g := k.g.set 2 (BitVec.ofNat 64 (2 ^ 57)) }

/-- The prefetch issues there, with an executing lane and none in range. -/
def farCtx (x : Ctx) : Bool :=
  (x.rejects farPrefetch).isNone && !x.stalls farPrefetch && (!deliversLate farPrefetch || x.k.late.isEmpty) &&
  (x.k.strictFault farPrefetch).isNone && !x.readsPoison farPrefetch && decide (x.r.exec .always ≠ 0) &&
  ((lanesIn (x.r.exec .always)).filter fun l => decide (x.r.eaOf ⟨2, 1, false, 0⟩ l < 2 ^ 57)).isEmpty

theorem farState_ctx : farState.ctx?.any farCtx = true := by decide +kernel

theorem farState_issues : ∃ x, Issues farState x farPrefetch ∧ x.r.exec .always ≠ 0 ∧
    ((lanesIn (x.r.exec .always)).filter fun l => decide (x.r.eaOf ⟨2, 1, false, 0⟩ l < 2 ^ 57)) = [] := by
  obtain ⟨x, hx, hc⟩ := (Option.any_eq_true _ _).mp farState_ctx
  unfold farCtx at hc
  simp only [Bool.and_eq_true, Option.isNone_iff_eq_none, Bool.not_eq_true', List.isEmpty_iff, decide_eq_true_eq] at hc
  obtain ⟨⟨⟨⟨⟨⟨hr, hs⟩, -⟩, hf⟩, hp⟩, he⟩, hn⟩ := hc
  exact ⟨x, ⟨hx, hr, hs, fun hd => absurd hd (by decide), hf, hp⟩, he, hn⟩

/-- The step that issues it leaves the record empty. -/
theorem farPrefetch_early : (match exec farPrefetch farState with | .next t => t.early.isEmpty | _ => false) = true := by decide +kernel

/-- Refutes O27: a prefetch without a lane in range changes more than the statement lets it: the releases performed early whose needs are
met leave their record. -/
theorem not_fenceRangeAndCodeWordsComplete : ¬ Obligations.FenceRangeAndCodeWordsComplete := by
  rintro ⟨⟨hprf, -⟩, -⟩
  obtain ⟨x, hissues, hexec, hnear⟩ := farState_issues
  obtain ⟨-, -, hfar⟩ := hprf _ _ _ _ _ hissues
  obtain ⟨t, ht, hq, -⟩ := hfar hexec hnear rfl
  have hkept := congrArg State.early hq
  change t.early = farState.early at hkept
  have hleft := farPrefetch_early
  rw [show exec farPrefetch farState = .next t from ht] at hleft
  dsimp only at hleft
  rw [hkept] at hleft
  cases hleft

end Sys2Proof.Machine
end

section
/-!
PROOFS. Promise words: the checks of their cells, and the operation that they send (12 R254, R273 to R279; 19 R442).
-/
namespace Sys2Proof.Machine

/-- The cells that a promise word names. -/
def promCells (op : POp) (a : W64) : List Nat := a.toNat :: match op with | .pequ b => [b] | _ => []

/-- The registers that a promise word writes. -/
def promDests (op : POp) (d : Option GReg) : List RegVal := match op with | .ptest => gRun d [0, 0] | _ => gRun d [0]

/-- The phase in which an operation is issued. -/
def Ctx.issuePhase (x : Ctx) : Phase := if x.t.items.guarded then .held else .untranslated

/-- The operation that a promise word sends (R273). -/
def Ctx.sentProm (x : Ctx) (d : Option GReg) (op : POp) (a : W64) (rel acq : Option Scope) : PromOp :=
  { id := x.s.nextId, who := .course x.c x.k.nextOp d, vd := x.t.vd, op := op, va := a.toNat, phase := x.issuePhase,
    phase2 := match op with | .pequ _ => x.issuePhase | _ => .performed, waiting := none, rel := strong rel, relTrs := rel == some .trs,
    acqScope := acq, sent := 0 }

/-- The course once a held operation joins those held back. -/
def Ctx.holding (x : Ctx) (k : Course) (op : HeldOp) : Course :=
  if x.t.items.guarded then { k with quarantine := k.quarantine ++ [⟨op, x.s.clk, some x.k.nextOp, x.s.nextId⟩] } else k

theorem holding_pc (x : Ctx) (k : Course) (op : HeldOp) : (x.holding k op).pc = k.pc := by
  unfold Ctx.holding
  split <;> rfl

/-- The state once a promise word has sent its operation. -/
def Ctx.withProm (x : Ctx) (tk : Tok) (d : Option GReg) (op : POp) (a : W64) (rel acq : Option Scope) : State :=
  { x.set (x.holding (x.k.issueOp tk (.parts 1) (promDests op d)) (.promise x.s.nextId)) with
    proms := x.s.proms ++ [x.sentProm d op a rel acq], nextId := x.s.nextId + 1 }

section Effect
variable {x : Ctx} {gd : Guard} {tk : Tok} {d : Option GReg} {op : POp} {a : W64} {rel acq : Option Scope} {as bs : List Nat} {c : Nat}

/-- A promise word, by its guard and the first checks of its cells that fail. -/
theorem promise_eq : x.promise gd tk d op a rel acq =
    if !x.r.uniform gd then x.ok (x.k.issueOp tk .nothing [] (dests := (promDests op d).map RegVal.name))
    else match (promCells op a).find? (fun c => c % 8 ≠ 0), (promCells op a).find? (fun c => 2 ^ 57 ≤ c) with
      | some c, _ => .trap 0x02 (lowestLane x.k.lanes) (BitVec.ofNat 64 c)
      | none, some c => .trap 0x13 0xA5 (BitVec.ofNat 64 c)
      | none, none => .ok (x.withProm tk d op a rel acq) := rfl

theorem promise_unguarded (hu : x.r.uniform gd = false) :
    x.promise gd tk d op a rel acq = x.ok (x.k.issueOp tk .nothing [] (dests := (promDests op d).map RegVal.name)) :=
  if_pos (by rw [hu]; rfl)

theorem promise_sends (hu : x.r.uniform gd = true) (hgood : ∀ c ∈ promCells op a, c % 8 = 0 ∧ c < 2 ^ 57) :
    x.promise gd tk d op a rel acq =
      .ok (x.withProm tk d op a rel acq) := by
  have haligned : (promCells op a).find? (fun c => c % 8 ≠ 0) = none :=
    List.find?_eq_none.mpr fun c hc => by simpa using (hgood c hc).1
  have hinside : (promCells op a).find? (fun c => 2 ^ 57 ≤ c) = none :=
    List.find?_eq_none.mpr fun c hc => by simpa using (hgood c hc).2
  rw [promise_eq, hu, Bool.not_true, if_neg Bool.false_ne_true, haligned, hinside]

theorem promise_misaligned (hu : x.r.uniform gd = true) (hcells : promCells op a = as ++ c :: bs) (has : ∀ b ∈ as, b % 8 = 0)
    (hc : c % 8 ≠ 0) : x.promise gd tk d op a rel acq = .trap 0x02 (lowestLane x.k.lanes) (BitVec.ofNat 64 c) := by
  have hfind : (promCells op a).find? (fun c => c % 8 ≠ 0) = some c :=
    hcells ▸ List.find?_eq_some_iff_append.mpr ⟨by simpa using hc, as, bs, rfl, fun b hb => by simpa using has b hb⟩
  rw [promise_eq, hu, Bool.not_true, if_neg Bool.false_ne_true, hfind]

theorem promise_outside (hu : x.r.uniform gd = true) (hcells : promCells op a = as ++ c :: bs) (hall : ∀ b ∈ promCells op a, b % 8 = 0)
    (has : ∀ b ∈ as, b < 2 ^ 57) (hc : 2 ^ 57 ≤ c) : x.promise gd tk d op a rel acq = .trap 0x13 0xA5 (BitVec.ofNat 64 c) := by
  have haligned : (promCells op a).find? (fun c => c % 8 ≠ 0) = none :=
    List.find?_eq_none.mpr fun c hc => by simpa using hall c hc
  have hfind : (promCells op a).find? (fun c => 2 ^ 57 ≤ c) = some c :=
    hcells ▸ List.find?_eq_some_iff_append.mpr ⟨by simpa using hc, as, bs, rfl, fun b hb => by simpa using has b hb⟩
  rw [promise_eq, hu, Bool.not_true, if_neg Bool.false_ne_true, haligned, hfind]

end Effect

/-- The promise words, each with its operation. -/
theorem promWord_issues {i : Instr} {x : Ctx} {gd : Guard} {tk : Tok} {d : Option GReg} {op : POp} {a : GReg} {rel acq : Option Scope}
    (hi : (∃ f, i = .pinit gd tk a f ∧ op = .pinit f ∧ d = none ∧ rel = none ∧ acq = none) ∨
     (∃ v sc, i = .pfill gd tk a v sc ∧ op = .pfill (x.r.gget v) ∧ d = none ∧ rel = some sc ∧ acq = none) ∨
     (∃ d' sc, i = .pwait gd tk d' a sc ∧ op = .pwait ∧ d = some d' ∧ rel = none ∧ acq = some sc) ∨
     (∃ b, i = .pequ gd tk a b ∧ op = .pequ (x.r.gget b).toNat ∧ d = none ∧ rel = none ∧ acq = none) ∨
     (∃ d' sc, i = .ptest gd tk d' a sc ∧ op = .ptest ∧ d = some d' ∧ rel = none ∧ acq = some sc)) : positionsOf i = 1 ∧
    ∃ body : Ctx → Res, (∀ s, exec i s = .next (issue i s body)) ∧ body x = x.promise gd tk d op (x.r.gget a) rel acq := by
  rcases hi with ⟨f, rfl, rfl, rfl, rfl, rfl⟩ | ⟨v, sc, rfl, rfl, rfl, rfl, rfl⟩ | ⟨d', sc, rfl, rfl, rfl, rfl, rfl⟩ |
    ⟨b, rfl, rfl, rfl, rfl, rfl⟩ | ⟨d', sc, rfl, rfl, rfl, rfl, rfl⟩
  all_goals exact ⟨rfl, _, fun s => rfl, rfl⟩

/-- Settles O28: by the first check of the cells that fails, or by the operation sent. -/
theorem promiseWordsSend : Obligations.PromiseWordsSend := by
  intro i s x gd tk d op a rel acq hi h
  obtain ⟨hp, body, he, hb⟩ := promWord_issues hi
  obtain ⟨rfl, -⟩ := ctx_of h.1
  refine ⟨fun hu => countsOnly_of h hp (he _) (hb.trans (promise_unguarded hu)), fun hu hgood => ?_,
    fun as c bs hu hcells has hc => traps_of h (he _) (hb.trans (promise_misaligned hu hcells has hc)),
    fun as c bs hu hcells hall has hc => traps_of h (he _) (hb.trans (promise_outside hu hcells hall has hc))⟩
  exact ⟨x.k.issueOp tk (.parts 1) (promDests op d), issueOp_countsOn ..,
    goesWith_of_set h hp (he _) (hb.trans (promise_sends hu hgood)) rfl rfl (holding_pc ..)⟩

end Sys2Proof.Machine
end

section
/-!
PROOFS. Words that put an entry into an engine's queue: the entry, and the fences that it lets pass (13 R286; 14 R323; 16 R369, R370, R374).
-/
namespace Sys2Proof.Machine

/-! ### Queues of a truss -/

theorem modQueue_place (t : Truss) (q : QSel) (f : List QEntry → List QEntry) : (t.modQueue q f).place = t.place := by
  cases q <;> rfl

theorem modQueue_courses (t : Truss) (q : QSel) (f : List QEntry → List QEntry) : (t.modQueue q f).courses = t.courses := by
  cases q <;> rfl

theorem passFences_place (t : Truss) (n : Nat) : (t.passFences n).place = t.place := by
  induction n generalizing t with
  | zero => rfl
  | succ n ih =>
    unfold Truss.passFences
    split
    · exact ih _
    · rfl

theorem passFences_courses (t : Truss) (n : Nat) : (t.passFences n).courses = t.courses := by
  induction n generalizing t with
  | zero => rfl
  | succ n ih =>
    unfold Truss.passFences
    split
    · exact ih _
    · rfl

/-! ### The issue of an entry (R286) -/

/-- A word that changes its course to `k'` and its truss's queues. -/
theorem goesWith_of_queues {s s' : State} {x : Ctx} {i : Instr} {body : Ctx → Res} {k' : Course} {f : Truss → Truss} (h : Issues s x i)
    (hp : positionsOf i = 1) (he : exec i s = .next (issue i s body)) (hb : body x = .ok (s'.modTruss x.c.truss f))
    (hclk : s'.clk = s.clk) (ht : s'.trusses = (x.set k').trusses) (hplace : ∀ t, (f t).place = t.place)
    (hcourses : ∀ t, (f t).courses = t.courses) (hpc : k'.pc = x.k.pc) : GoesWith s x i (s'.modTruss x.c.truss f) := by
  have htr : s'.truss? x.c.truss = some (x.t.modCourse x.c.course fun _ => k') := by
    have := truss?_set h.1 k'
    unfold State.truss? at this ⊢
    rw [ht, this]
  have hk : (x.t.modCourse x.c.course fun _ => k').courses[x.c.course]? = some k' := by
    unfold Truss.modCourse
    rw [List.getElem?_modify, course_of_truss h.1]
    exact congrArg some (if_pos rfl)
  refine goesWith_of_truss h hp he hb hclk (t' := f (x.t.modCourse x.c.course fun _ => k')) ?_ (hplace _) (k' := k') ?_ hpc
  · rw [truss?_modTruss, if_pos rfl, htr]
    rfl
  · rw [hcourses, hk]

/-- A word that enqueues counts on its token, with its entry at the end of the queue (R286, R442); a word may clear ROWPROG's choice of a
start row with it. -/
theorem enqueues_of {s : State} {x : Ctx} {i : Instr} {body : Ctx → Res} {q : QSel} {tk : Tok} {ws : List RegVal} {b : EntryBody} {start : Nat}
    (h : Issues s x i) (hp : positionsOf i = 1) (he : exec i s = .next (issue i s body)) (rs : Bool)
    (hb : body x = ({ x with k := { x.k with rowStart := rs } } : Ctx).enqueue q (some tk) ws b start) :
    Enqueues s x i { x.k with rowStart := rs } q tk ws b start := by
  obtain ⟨rfl, -⟩ := ctx_of h.1
  refine ⟨({ x.k with rowStart := rs } : Course).issueOp tk (.parts 1) ws (q == .mat), issueOp_countsOn .., ?_⟩
  refine goesWith_of_queues h hp he (k' := x.holding (({ x.k with rowStart := rs } : Course).issueOp tk (.parts 1) ws (q == .mat)) (.entry x.s.nextId))
    hb rfl rfl (fun t => ?_) (fun t => ?_) (holding_pc ..)
  · rw [passFences_place, modQueue_place]
  · rw [passFences_courses, modQueue_courses]

theorem enqueues_of_enqueue {s : State} {x : Ctx} {i : Instr} {body : Ctx → Res} {q : QSel} {tk : Tok} {ws : List RegVal} {b : EntryBody}
    (h : Issues s x i) (hp : positionsOf i = 1) (he : exec i s = .next (issue i s body)) (hb : body x = x.enqueue q (some tk) ws b) :
    Enqueues s x i x.k q tk ws b 0 := enqueues_of h hp he x.k.rowStart hb

/-! ### `bcopy` (R369, R370) and `qfence` (R374) -/

/-- The addresses of the copy that `bcopy` names. -/
structure CopyArgs where
  w  : Vector W64 2
  ls : Layout
  ld : Layout
  cs : List Int
  cd : List Int

/-- The template, entries and origins as they stand. -/
def Ctx.copyArgs (x : Ctx) (ct gs gdst nc : Nat) : CopyArgs :=
  let w := x.t.template x.s.tick x.c.course ct
  ⟨w, x.t.layout x.s.tick x.c.course (tplSrc w), x.t.layout x.s.tick x.c.course (tplDst w), x.r.coords gs nc, x.r.coords gdst nc⟩

/-- A multicast into a space that has none (R370). -/
def CopyArgs.badCast (a : CopyArgs) : Bool := tplMcast a.w ≠ 0 && (a.ld.space = 0 || a.ld.space = 2)

/-- The faults of `bcopy` beside those of its layouts, the first that applies (R370). -/
def CopyArgs.fault (a : CopyArgs) (t : Truss) : Option Res :=
  if 2 ^ t.items.span ≤ tplMcast a.w then some (.trap 0x0F 0 0)
  else if a.badCast then some (.trap 0x16 0x09 0)
  else if !tplCvt a.w && a.ls.bits ≠ a.ld.bits then some (.trap 0x0D 0x0A 0)
  else if tplCvt a.w && !convertible a.ls.kind a.ld.kind then some (.trap 0x0D 0x0B 0)
  else none

/-- The fault of the layouts of a copy (R206). -/
def CopyArgs.layFault (a : CopyArgs) (t : Truss) : Option LayFault := copyLayFault t a.w a.ls a.ld a.cs a.cd

/-- What the copy puts into its queue. -/
def CopyArgs.body (a : CopyArgs) : EntryBody := .bcopy a.w a.ls a.ld a.cs a.cd

section Copy
variable {s : State} {x : Ctx} {gd : Guard} {tk : Tok} {ct : Fin 64} {gs gdst : GReg} {nc : Fin 4} {a : CopyArgs}

theorem faultOr_ite (c : Prop) [Decidable c] (r : Res) (f : Option Res) (e : Res) :
    faultOr (if c then some r else f) e = if c then r else faultOr f e := by
  split <;> rfl

theorem bcopyEffect_eq (ha : x.copyArgs ct gs gdst nc = a) : bcopyEffect x tk ct gs gdst nc =
    match a.layFault x.t with
    | some (detail, fa) => .trap 0x16 detail fa
    | none => faultOr (a.fault x.t) (x.enqueue .copy (some tk) [] a.body) := by
  subst ha
  unfold bcopyEffect CopyArgs.fault
  change (match (x.copyArgs ct gs gdst nc).layFault x.t with | some (detail, fa) => _ | none => _) = _
  generalize (x.copyArgs ct gs gdst nc).layFault x.t = f
  cases f with
  | some f => rfl
  | none =>
    dsimp only
    rw [faultOr_ite, faultOr_ite, faultOr_ite, faultOr_ite]
    rfl

theorem bcopy_traps (ha : x.copyArgs ct gs gdst nc = a) (h : Issues s x (.bcopy gd tk ct gs gdst nc)) (hu : x.r.uniform gd = true)
    (hlay : a.layFault x.t = none) {cause detail : Nat} {faddr : W64} (hf : a.fault x.t = some (.trap cause detail faddr)) :
    Traps s x (.bcopy gd tk ct gs gdst nc) cause detail faddr := by
  refine traps_of h rfl ((if_pos hu).trans ((bcopyEffect_eq ha).trans ?_))
  rw [hlay, hf]
  rfl

theorem bcopy_layTraps (ha : x.copyArgs ct gs gdst nc = a) (h : Issues s x (.bcopy gd tk ct gs gdst nc)) (hu : x.r.uniform gd = true)
    {detail : Nat} {faddr : W64} (hlay : a.layFault x.t = some (detail, faddr)) :
    Traps s x (.bcopy gd tk ct gs gdst nc) 0x16 detail faddr := by
  refine traps_of h rfl ((if_pos hu).trans ((bcopyEffect_eq ha).trans ?_))
  rw [hlay]

theorem bcopy_enqueues (ha : x.copyArgs ct gs gdst nc = a) (h : Issues s x (.bcopy gd tk ct gs gdst nc)) (hu : x.r.uniform gd = true)
    (hlay : a.layFault x.t = none) (hf : a.fault x.t = none) :
    Enqueues s x (.bcopy gd tk ct gs gdst nc) x.k .copy tk [] a.body 0 := by
  refine enqueues_of_enqueue h rfl rfl ((if_pos hu).trans ((bcopyEffect_eq ha).trans ?_))
  rw [hlay, hf]
  rfl

end Copy

section CopyFaults
variable {a : CopyArgs} {t : Truss}

theorem CopyArgs.badCast_iff : a.badCast = true ↔ tplMcast a.w ≠ 0 ∧ (a.ld.space = 0 ∨ a.ld.space = 2) := by
  unfold CopyArgs.badCast
  simp

theorem CopyArgs.fault_beyond (hm : 2 ^ t.items.span ≤ tplMcast a.w) : a.fault t = some (.trap 0x0F 0 0) := if_pos hm

theorem CopyArgs.fault_multi (hm : tplMcast a.w < 2 ^ t.items.span) (hb : a.badCast = true) : a.fault t = some (.trap 0x16 0x09 0) :=
  (if_neg (Nat.not_le.mpr hm)).trans (if_pos hb)

/-- The formats of a copy that passes the checks before them. -/
theorem CopyArgs.fault_formats (hm : tplMcast a.w < 2 ^ t.items.span) (hb : ¬ a.badCast = true) : a.fault t =
    if !tplCvt a.w && a.ls.bits ≠ a.ld.bits then some (.trap 0x0D 0x0A 0)
    else if tplCvt a.w && !convertible a.ls.kind a.ld.kind then some (.trap 0x0D 0x0B 0) else none :=
  (if_neg (Nat.not_le.mpr hm)).trans (if_neg hb)

theorem CopyArgs.fault_none (hm : tplMcast a.w < 2 ^ t.items.span) (hb : ¬ a.badCast = true)
    (hf : if tplCvt a.w then convertible a.ls.kind a.ld.kind = true else a.ls.bits = a.ld.bits) : a.fault t = none := by
  rw [fault_formats hm hb]
  cases hc : tplCvt a.w with
  | true => rw [hc, if_pos rfl] at hf; simp [hf]
  | false => rw [hc, if_neg Bool.false_ne_true] at hf; simp [hf]

theorem CopyArgs.fault_width (hm : tplMcast a.w < 2 ^ t.items.span) (hb : ¬ a.badCast = true) (hc : tplCvt a.w = false)
    (hf : a.ls.bits ≠ a.ld.bits) : a.fault t = some (.trap 0x0D 0x0A 0) := by
  rw [fault_formats hm hb]
  simp [hc, hf]

theorem CopyArgs.fault_conversion (hm : tplMcast a.w < 2 ^ t.items.span) (hb : ¬ a.badCast = true) (hc : tplCvt a.w = true)
    (hf : convertible a.ls.kind a.ld.kind = false) : a.fault t = some (.trap 0x0D 0x0B 0) := by
  rw [fault_formats hm hb]
  simp [hc, hf]

end CopyFaults

/-- The queues with a fence at the end of each that it names. -/
def Truss.fenced (t : Truss) (copy mat net : Bool) (e : QEntry) : Truss :=
  { t with copyQ := if copy then t.copyQ ++ [e] else t.copyQ, matQ := if mat then t.matQ ++ [e] else t.matQ,
           netQ := if net then t.netQ ++ [e] else t.netQ }

theorem foldl_fenceQueues (t : Truss) (copy mat net : Bool) (e : QEntry) :
    (fenceQueues copy mat net).foldl (fun t q => t.modQueue q fun es => es ++ [e]) t = t.fenced copy mat net e := by
  cases copy <;> cases mat <;> cases net <;> rfl

/-- The course once a `qfence` is held back. -/
def Ctx.fencing (x : Ctx) : Course :=
  if x.t.items.guarded then { x.k with quarantine := x.k.quarantine ++ [⟨.entry x.s.nextId, x.s.clk, none, x.s.nextId⟩] } else x.k

theorem fencing_pc (x : Ctx) : x.fencing.pc = x.k.pc := by
  unfold Ctx.fencing
  split <;> rfl

theorem fenceQueues_ok (x : Ctx) (copy mat net : Bool) : x.fenceQueues copy mat net =
    .ok (({ x.set x.fencing with nextId := x.s.nextId + 1 } : State).modTruss x.c.truss fun t =>
      (t.fenced copy mat net (x.fresh none (.qfence copy mat net x.s.nextId) 0)).passFences 64) := by
  simp only [← foldl_fenceQueues]
  rfl

/-- Settles O30: `bcopy` by the first of its checks that fails, `qfence` by its guard. -/
theorem copyWordsEnqueue : Obligations.CopyWordsEnqueue := by
  refine ⟨fun gd tk ct gs gdst nc s x h => ?_, fun gd copy mat net s x h => ⟨fun hu => ?_, fun hu => ?_⟩⟩
  · obtain ⟨rfl, -⟩ := ctx_of h.1
    refine ⟨fun hu => countsOnly_of h rfl rfl (if_neg (Bool.eq_false_iff.mp hu)),
      fun hu hlay hm hmulti hf => ?_,
      fun d fa hu hlay => ?_,
      fun hu hlay hm => ?_,
      fun hu hlay hm hmulti => ?_,
      fun hu hlay hm hmulti => ⟨fun hc hf => ?_, fun hc hf => ?_⟩⟩
    · exact bcopy_enqueues (a := x.copyArgs ct gs gdst nc) rfl h hu hlay (CopyArgs.fault_none hm (CopyArgs.badCast_iff.not.mpr hmulti) hf)
    · exact bcopy_layTraps (a := x.copyArgs ct gs gdst nc) rfl h hu hlay
    · exact bcopy_traps (a := x.copyArgs ct gs gdst nc) rfl h hu hlay (CopyArgs.fault_beyond hm)
    · exact bcopy_traps (a := x.copyArgs ct gs gdst nc) rfl h hu hlay (CopyArgs.fault_multi hm (CopyArgs.badCast_iff.mpr hmulti))
    · exact bcopy_traps (a := x.copyArgs ct gs gdst nc) rfl h hu hlay (CopyArgs.fault_width hm (CopyArgs.badCast_iff.not.mpr hmulti) hc hf)
    · exact bcopy_traps (a := x.copyArgs ct gs gdst nc) rfl h hu hlay (CopyArgs.fault_conversion hm (CopyArgs.badCast_iff.not.mpr hmulti) hc hf)
  · exact goes_of_nothing h rfl rfl (if_neg (Bool.eq_false_iff.mp hu))
  · obtain ⟨rfl, -⟩ := ctx_of h.1
    exact goesWith_of_queues h rfl rfl (k' := x.fencing) ((if_pos hu).trans (fenceQueues_ok ..)) rfl rfl
      (fun t => passFences_place ..) (fun t => passFences_courses ..) (fencing_pc x)

end Sys2Proof.Machine
end

section
/-!
PROOFS. Words of the matrix class: the lanes they need, their checks, and the entries they put into the matrix queue (13 R286 to R304).
-/
namespace Sys2Proof.Machine

/-! ### Convergence (R44) -/

theorem converged_full {x : Ctx} {gd : Guard} {f : Unit → Res} (h : x.r.exec gd = 0xFFFFFFFF) : x.converged gd f = f () := if_pos h
theorem converged_missing {x : Ctx} {gd : Guard} {f : Unit → Res} (h : ¬ x.r.exec gd = 0xFFFFFFFF) : x.converged gd f = .trap 0x06 0 0 := if_neg h

/-- A word that needs all lanes: its entry, or CONVERGE. -/
theorem matWord {s : State} {x : Ctx} {i : Instr} {gd : Guard} {tk : Tok} {f : Ctx → Res} {ws : List RegVal} {b : EntryBody}
    (hp : positionsOf i = 1) (he : exec i s = .next (issue i s fun x => x.converged gd fun _ => f x))
    (hf : f x = x.enqueue .mat (some tk) ws b) (h : Issues s x i) :
    (x.r.exec gd = 0xFFFFFFFF → Enqueues s x i x.k .mat tk ws b 0) ∧ (¬ x.r.exec gd = 0xFFFFFFFF → Traps s x i 0x06 0 0) :=
  ⟨fun hfull => enqueues_of_enqueue h hp he ((converged_full hfull).trans hf), fun hno => traps_of h he (converged_missing hno)⟩

/-! ### `accld` and `accst` (R302) -/

/-- What the entry of `accld` or `accst` holds. -/
def accBody (store : Bool) (acc : Nat) (e : Layout) (c0 c1 : Int) (tt : TileTy) : EntryBody :=
  if store then .accst acc e c0 c1 tt else .accld acc e c0 c1 tt

/-- The elements of a tile in memory. -/
def Ctx.tileSweep (x : Ctx) (gc : GReg) : Sweep := ⟨[x.r.coord gc, x.r.coord (gc.val + 1)], [64, 64], [0, 1]⟩

/-- `accld` or `accst` with its lanes, by its tile type and the first element that fails. -/
def Ctx.accMove (x : Ctx) (tk : Tok) (acc : Nat) (l : Fin 256) (gc : GReg) (tt : TileTy) (store : Bool) : Res :=
  let e := x.t.layout x.s.tick x.c.course l
  if !tilePair tt e acc then .trap 0x0D 0x09 0
  else match e.faults x.t (x.tileSweep gc) with
    | some (d, fa) => .trap 0x16 d fa
    | none => x.enqueue .mat (some tk) [] (accBody store acc e (x.r.coord gc) (x.r.coord (gc.val + 1)) tt)

section AccMove
variable {x : Ctx} {tk : Tok} {acc : Nat} {l : Fin 256} {gc : GReg} {tt : TileTy} {store : Bool}

theorem accMove_wrong (h : tilePair tt (x.t.layout x.s.tick x.c.course l) acc = false) : x.accMove tk acc l gc tt store = .trap 0x0D 0x09 0 :=
  if_pos (by rw [h]; rfl)

theorem accMove_paired (h : tilePair tt (x.t.layout x.s.tick x.c.course l) acc = true) : x.accMove tk acc l gc tt store =
    match (x.t.layout x.s.tick x.c.course l).faults x.t (x.tileSweep gc) with
    | some (d, fa) => .trap 0x16 d fa
    | none => x.enqueue .mat (some tk) [] (accBody store acc (x.t.layout x.s.tick x.c.course l) (x.r.coord gc) (x.r.coord (gc.val + 1)) tt) :=
  if_neg (Bool.eq_false_iff.mp (by rw [h]; rfl))

theorem accMove_good (h : tilePair tt (x.t.layout x.s.tick x.c.course l) acc = true)
    (hgood : (x.t.layout x.s.tick x.c.course l).faults x.t (x.tileSweep gc) = none) : x.accMove tk acc l gc tt store =
      x.enqueue .mat (some tk) [] (accBody store acc (x.t.layout x.s.tick x.c.course l) (x.r.coord gc) (x.r.coord (gc.val + 1)) tt) := by
  rw [accMove_paired h, hgood]

theorem accMove_bad (h : tilePair tt (x.t.layout x.s.tick x.c.course l) acc = true) {d : Nat} {fa : W64}
    (hbad : (x.t.layout x.s.tick x.c.course l).faults x.t (x.tileSweep gc) = some (d, fa)) :
    x.accMove tk acc l gc tt store = .trap 0x16 d fa := by
  rw [accMove_paired h, hbad]

end AccMove

/-- `accld` and `accst` are issued with one effect. -/
theorem accMove_exec {gd : Guard} {tk : Tok} {acc : Fin 64} {l : Fin 256} {gc : GReg} {tt : TileTy} {store : Bool} {i : Instr}
    (hi : i = if store then .accst gd tk acc l gc tt else .accld gd tk acc l gc tt) : positionsOf i = 1 ∧
    ∀ s, exec i s = .next (issue i s fun x => x.converged gd fun _ => x.accMove tk acc l gc tt store) := by
  cases store with
  | true => cases hi; exact ⟨rfl, fun s => rfl⟩
  | false => cases hi; exact ⟨rfl, fun s => rfl⟩

theorem tilePair_iff (e : Layout) (tt : TileTy) (acc : Nat) : tilePair tt e acc = true ↔ e.space ≠ 3 ∧ match tt with
    | .f32 => e.fmt = 1 ∨ e.fmt = 2 ∨ e.fmt = 3
    | .i32 => e.fmt = 1
    | .f64 => e.fmt = 0 ∧ acc % 2 = 0 := by
  unfold tilePair
  cases tt with
  | f32 => simp [or_assoc]
  | i32 => simp
  | f64 => simp

/-! ### `mma` (R292) -/

theorem FmtBlock.stray_eq_false (f : FmtBlock) : f.stray = false ↔
    (f.as_ = false → f.ase = 0 ∧ f.an = 0) ∧ (f.bs = false → f.bse = 0 ∧ f.bn = 0) ∧ (f.as_ = false → f.bs = false → f.bl = 0) := by
  unfold FmtBlock.stray
  cases f.as_ <;> cases f.bs <;> simp [and_assoc]

/-- A check of a chain, passed. -/
theorem ite_some_eq_none {α : Type} {c : Prop} [Decidable c] {a : α} {b : Option α} : (if c then some a else b) = none ↔ ¬ c ∧ b = none := by
  split <;> simp_all

/-- The format faults are those of steps 1 to 9. -/
theorem fmtFault_eq_none (o : MmaOps) (acc tiles : Nat) : o.fmtFault acc tiles = none ↔ MmaFits o acc tiles := by
  unfold MmaOps.fmtFault MmaFits
  dsimp only
  generalize fmtBlock o.fmt.toNat = f
  rw [ite_some_eq_none, ite_some_eq_none]
  have hstray := f.stray_eq_false
  cases hpair : pairInfo f.af f.bf f.as_ f.bs with
  | none => simp
  | some p =>
    obtain ⟨ty, depth⟩ := p
    dsimp only
    simp only [ite_some_eq_none]
    simp only [Bool.or_eq_true, Bool.and_eq_true, decide_eq_true_eq, Bool.not_eq_true', not_or, Bool.not_eq_true, hstray, Option.some.injEq, Prod.mk.injEq]
    constructor
    · rintro ⟨⟨⟨⟨⟨⟨hres, haf⟩, hbf⟩, hbl⟩, hacc⟩, hsa, hsb, hl⟩, ⟨hka, hkb⟩, hty, heven, hla, hlb, ⟨⟨⟨hspa, hspb⟩, hlsa⟩, hlsb⟩, ⟨hdepth, hk⟩, ⟨hca, hcb⟩, -⟩
      exact ⟨by omega, by omega, by omega, hbl, hacc, hsa, hsb, hl, by grind, by grind, ty, depth, ⟨rfl, rfl⟩, by omega, by omega,
        by omega, by omega, hspa, hspb, by grind, by grind, by omega, by omega⟩
    · rintro ⟨hres, haf, hbf, hbl, hacc, hsa, hsb, hl, hka, hkb, _, _, ⟨rfl, rfl⟩, hty, heven, hla, hlb, hspa, hspb, hlsa, hlsb, hdepth, hk⟩
      exact ⟨⟨⟨⟨⟨⟨by omega, by omega⟩, by omega⟩, hbl⟩, hacc⟩, hsa, hsb, hl⟩, ⟨by grind, by grind⟩, by omega, by omega, by omega, by omega,
        ⟨⟨⟨hspa, hspb⟩, by grind⟩, by grind⟩, ⟨by omega, by omega⟩, ⟨by grind, by grind⟩, trivial⟩

/-- The faults of `mma` after those of its formats, the first that applies (R292). -/
def MmaOps.lateFault (o : MmaOps) (t : Truss) : Option Res :=
  let f := fmtBlock o.fmt.toNat
  let k := bits o.k.toNat 9 0
  match o.layFault t with
  | some (d, fa) => some (.trap 0x16 d fa)
  | none =>
    if f.as_ && f.an < f.blocks k then some (.trap 0x0E 0x00 0) else if f.bs && f.bn < f.blocks k then some (.trap 0x0E 0x01 0) else none

/-- Few scales for an operand that has some. -/
theorem enough_iff {b : Bool} {m n : Nat} : (b && decide (n < m)) = false ↔ (b = true → m ≤ n) := by
  cases b <;> simp

section Mma
variable {x : Ctx} {gd : Guard} {tk : Tok} {acc : Nat} {o : MmaOps} {zero : Bool}

/-- The row that `mma` starts at (R298). -/
def Ctx.startRow (x : Ctx) : Nat := if x.k.rowStart && x.k.rowprog.getLsbD 7 then bits x.k.rowprog.toNat 6 0 else 0

/-- What `mma` puts into its queue. -/
def MmaOps.body (o : MmaOps) (zero : Bool) (acc : Nat) : EntryBody :=
  .mma zero acc o.la o.lb o.lsa o.lsb o.ca0 o.ca1 o.cb0 o.cb1 o.fmt (bits o.k.toNat 9 0)

theorem mmaEffect_format (hfull : x.r.exec gd = 0xFFFFFFFF) {d : Nat} (h : o.fmtFault acc x.t.tiles.length = some d) :
    mmaEffect x gd tk acc o zero = .trap 0x0D d 0 := by
  unfold mmaEffect
  rw [converged_full hfull, h]

theorem mmaEffect_fits (hfull : x.r.exec gd = 0xFFFFFFFF) (h : MmaFits o acc x.t.tiles.length) :
    mmaEffect x gd tk acc o zero = faultOr (o.lateFault x.t)
      (({ x with k := { x.k with rowStart := false } } : Ctx).enqueue .mat (some tk) [] (o.body zero acc) x.startRow) := by
  unfold mmaEffect MmaOps.lateFault
  rw [converged_full hfull, (fmtFault_eq_none ..).mpr h]
  cases o.layFault x.t with
  | some f => rfl
  | none =>
    dsimp only
    rw [faultOr_ite, faultOr_ite]
    rfl

variable {t : Truss}

theorem lateFault_layout {d : Nat} {fa : W64} (h : o.layFault t = some (d, fa)) : o.lateFault t = some (.trap 0x16 d fa) := by
  unfold MmaOps.lateFault
  rw [h]

theorem lateFault_scales (h : o.layFault t = none) : o.lateFault t =
    if (fmtBlock o.fmt.toNat).as_ && (fmtBlock o.fmt.toNat).an < (fmtBlock o.fmt.toNat).blocks (bits o.k.toNat 9 0) then some (.trap 0x0E 0x00 0)
    else if (fmtBlock o.fmt.toNat).bs && (fmtBlock o.fmt.toNat).bn < (fmtBlock o.fmt.toNat).blocks (bits o.k.toNat 9 0) then
      some (.trap 0x0E 0x01 0) else none := by
  unfold MmaOps.lateFault
  rw [h]

end Mma

/-- `mma` and `mmaz` are issued with one effect. -/
theorem mma_exec {gd : Guard} {tk : Tok} {acc : Fin 64} {la lb : Fin 256} {gca gcb gf gk : GReg} {zero : Bool} {i : Instr}
    (hi : i = (if zero then .mmaz gd tk acc la gca lb gcb gf gk else .mma gd tk acc la gca lb gcb gf gk)) : positionsOf i = 1 ∧
    ∀ s, exec i s = .next (issue i s fun x => mmaEffect x gd tk acc (x.mmaOps la gca lb gcb gf gk) zero) := by
  cases zero with
  | true => cases hi; exact ⟨rfl, fun s => rfl⟩
  | false => cases hi; exact ⟨rfl, fun s => rfl⟩

/-- `accld` or `accst` of a tile that fits and whose elements are good: its entry, or CONVERGE. -/
theorem accMove_word {s : State} {x : Ctx} {gd : Guard} {tk : Tok} {acc : Fin 64} {l : Fin 256} {gc : GReg} {tt : TileTy} (store : Bool)
    (hpair : tilePair tt (x.t.layout x.s.tick x.c.course l) acc = true)
    (hgood : (x.t.layout x.s.tick x.c.course l).faults x.t (x.tileSweep gc) = none) {i : Instr}
    (hi : i = if store then .accst gd tk acc l gc tt else .accld gd tk acc l gc tt) (h : Issues s x i) :
    (x.r.exec gd = 0xFFFFFFFF → Enqueues s x i x.k .mat tk []
      (accBody store acc (x.t.layout x.s.tick x.c.course l) (x.r.coord gc) (x.r.coord (gc.val + 1)) tt) 0) ∧
    (¬ x.r.exec gd = 0xFFFFFFFF → Traps s x i 0x06 0 0) := by
  obtain ⟨hp, he⟩ := accMove_exec hi
  exact matWord hp (he s) (accMove_good hpair hgood) h

/-- Settles O29: the words of tiles by their lanes; `accld` and `accst` by their checks; `mma` by the first check of R292 that fails. -/
theorem matrixWordsEnqueue : Obligations.MatrixWordsEnqueue := by
  refine ⟨fun gd tk acc s x => ?_, fun gd tk acc la gca lb gcb gf gk zero i s x hi h => ?_⟩
  · refine ⟨fun n => ?_, fun l gc tt hpair hgood => ⟨?_, ?_⟩, fun l gc tt i hi h hfull => ?_, fun e tt => ?_,
      fun v gr => ?_, fun v gr => ?_, fun d gr clr => ?_, fun src gr => ?_, fun gs i32 => ?_, fun d => ?_⟩
    · exact matWord rfl rfl rfl
    · intro h
      obtain ⟨rfl, -⟩ := ctx_of h.1
      exact accMove_word false hpair hgood rfl h
    · intro h
      obtain ⟨rfl, -⟩ := ctx_of h.1
      exact accMove_word true hpair hgood rfl h
    · obtain ⟨rfl, -⟩ := ctx_of h.1
      obtain ⟨store, hi⟩ : ∃ store, i = if store then .accst gd tk acc l gc tt else .accld gd tk acc l gc tt :=
        hi.elim (fun h => ⟨false, h⟩) fun h => ⟨true, h⟩
      obtain ⟨-, he⟩ := accMove_exec hi
      exact ⟨fun hpair => traps_of h (he _) ((converged_full hfull).trans (accMove_wrong hpair)),
        fun d fa hpair hbad => traps_of h (he _) ((converged_full hfull).trans (accMove_bad hpair hbad))⟩
    · exact tilePair_iff e tt acc
    · exact matWord rfl rfl rfl
    · exact matWord rfl rfl rfl
    · exact matWord rfl rfl rfl
    · exact matWord rfl rfl rfl
    · exact matWord rfl rfl rfl
    · exact matWord rfl rfl rfl
  · obtain ⟨hp, he⟩ := mma_exec hi
    refine ⟨fun hfull hfits hlay ha hb => ?_, fun hno => traps_of h (he s) (converged_missing hno),
      fun d hfull hd => traps_of h (he s) (mmaEffect_format hfull hd), fmtFault_eq_none .., fun d fa hfull hfits hlay => ?_,
      fun hfull hfits hlay hs hlow => ?_, fun hfull hfits hlay ha hs hlow => ?_⟩
    · refine enqueues_of h hp (he s) false ((mmaEffect_fits hfull hfits).trans ?_)
      rw [lateFault_scales hlay, enough_iff.mpr ha, enough_iff.mpr hb]
      rfl
    · refine traps_of h (he s) ((mmaEffect_fits hfull hfits).trans ?_)
      rw [lateFault_layout hlay]
      rfl
    · refine traps_of h (he s) ((mmaEffect_fits hfull hfits).trans ?_)
      rw [lateFault_scales hlay, if_pos (by rw [hs, decide_eq_true hlow]; rfl)]
      rfl
    · refine traps_of h (he s) ((mmaEffect_fits hfull hfits).trans ?_)
      rw [lateFault_scales hlay, enough_iff.mpr ha, if_neg Bool.false_ne_true, if_pos (by rw [hs, decide_eq_true hlow]; rfl)]
      rfl

end Sys2Proof.Machine
end

section
/-!
PROOFS. Ring words: the checks of a slot, what a slot becomes, and the operations held back (16 R358 to R367; 19 R442).
-/
namespace Sys2Proof.Machine

/-! ### The next slot (R361) -/

/-- The word of an acquire or of a take. -/
def ringGetWord (gd : Guard) (d : GReg) (rg : Fin 8) (take : Bool) : Instr := if take then .rgtake gd d rg else .rgacq gd d rg

/-- The word of a commit or of a release. -/
def ringPutWord (gd : Guard) (q : QSel) (rg : Fin 8) (ga : GReg) (commit : Bool) : Instr := if commit then .rgcmt gd q rg ga else .rgrel gd q rg ga

theorem ringGetWord_exec (gd : Guard) (d : GReg) (rg : Fin 8) (take : Bool) : positionsOf (ringGetWord gd d rg take) = 1 ∧
    ∀ s, exec (ringGetWord gd d rg take) s = .next (issue (ringGetWord gd d rg take) s fun x => x.once gd fun _ => x.ringGet d rg take) := by
  cases take with
  | true => exact ⟨rfl, fun s => rfl⟩
  | false => exact ⟨rfl, fun s => rfl⟩

theorem ringPutWord_exec (gd : Guard) (q : QSel) (rg : Fin 8) (ga : GReg) (commit : Bool) : positionsOf (ringPutWord gd q rg ga commit) = 1 ∧
    ∀ s, exec (ringPutWord gd q rg ga commit) s =
      .next (issue (ringPutWord gd q rg ga commit) s fun x => x.once gd fun _ => x.ringPut q rg (x.r.gget ga) commit) := by
  cases commit with
  | true => exact ⟨rfl, fun s => rfl⟩
  | false => exact ⟨rfl, fun s => rfl⟩

/-- An acquire or take that issues finds its slot as it waits for it. -/
theorem nextReady_of_issues {s : State} {x : Ctx} {gd : Guard} {d : GReg} {rg : Fin 8} {take : Bool} (h : Issues s x (ringGetWord gd d rg take))
    (hq : x.k.quarantine = []) (hu : x.r.uniform gd = true) (hv : x.t.rings[rg].valid = true) : x.t.rings[rg].nextReady take = true := by
  obtain ⟨hx, -, hs, -⟩ := h
  have hview := view_self hx hq
  unfold Ctx.stalls at hs
  rw [Bool.or_eq_false_iff] at hs
  obtain ⟨-, hs⟩ := hs
  cases take with
  | true =>
    simp only [ringGetWord, if_true, hu, hview, hv, Bool.true_and, Bool.not_eq_false'] at hs
    exact hs
  | false =>
    simp only [ringGetWord, if_false, Bool.false_eq_true, hu, hview, hv, Bool.true_and, Bool.not_eq_false'] at hs
    exact hs

/-- The ring once course `j` has its next slot. -/
def Ring.got (r : Ring) (j : Nat) (take : Bool) : Ring :=
  { r with
    acq := if take then r.acq else r.acq + 1, take := if take then r.take + 1 else r.take,
    slots := r.slots.modify (r.next take) fun y => { y with st := if take then .taken else .acquired, owner := j } }

theorem ringGet_invalid {t : Truss} {j : Nat} {rg : Fin 8} {n : Nat} {take : Bool} (hv : t.rings[rg].valid = false) :
    ringGet t j rg n take = .error (0x01, 0x30, 0) := if_pos (by rw [hv]; rfl)

theorem ringGet_ready {t : Truss} {j : Nat} {rg : Fin 8} {take : Bool} (hv : t.rings[rg].valid = true) (hr : t.rings[rg].nextReady take = true) :
    ringGet t j rg (t.rings[rg].next take) take = .ok { t with rings := t.rings.set rg (t.rings[rg].got j take) } := by
  refine (if_neg ?_).trans (if_neg ?_)
  · rw [hv]
    exact Bool.false_ne_true
  · rw [hr]
    simp

/-! ### The effect of an acquire or take -/

/-- The course with the slot word in gD. -/
def Ctx.slotWord (x : Ctx) (d : GReg) (rg : Fin 8) (take : Bool) : Course :=
  let r := x.t.rings[rg]
  x.k.land x.s.tick 1 (.g d (r.word (r.next take) (take && r.slot (r.next take) = .abandoned)))

theorem slotWord_lands (x : Ctx) (d : GReg) (rg : Fin 8) (take : Bool) :
    SameButRegs x.k (x.slotWord d rg take) ∧ (x.slotWord d rg take).flagShadows = x.k.flagShadows ∧
      Lands x.k (x.slotWord d rg take) 2 (.g d) 1 fun _ =>
        x.t.rings[rg].word (x.t.rings[rg].next take) (take && x.t.rings[rg].slot (x.t.rings[rg].next take) = .abandoned) :=
  land_lands ..

theorem slotWord_pc (x : Ctx) (d : GReg) (rg : Fin 8) (take : Bool) : (x.slotWord d rg take).pc = x.k.pc :=
  (congrArg Course.pc (slotWord_lands x d rg take).1.2 :)

/-- A write of a g register, whatever the course holds back. -/
theorem blend_withQuarantine (k : Course) (q : List Held) (ch : Nat → Bool) (d : GReg) (y : W64) :
    ({ k with quarantine := q } : Course).blend ch (.g d y) = { k.blend ch (.g d y) with quarantine := q } := by
  unfold Course.blend
  dsimp only
  cases ch 0 <;> rfl

theorem land_withQuarantine (k : Course) (q : List Held) (tick L : Nat) (d : GReg) (y : W64) :
    ({ k with quarantine := q } : Course).land tick L (.g d y) = { k.land tick L (.g d y) with quarantine := q } :=
  congrArg (fun k' : Course => { k' with
      shadows := (k.shadows.map fun (sh : Shadow) => sh.cut (.g d y) (k.pos + L)).flatten ++ [(⟨k.current (.g d y), k.pos + L, k.strict⟩ : Shadow)],
      ops := markClash (.g d y) k.ops, psn := clearWords (.g d y) k.psn })
    (blend_withQuarantine k q (fun l => !k.shadowed (.g d y) l || Config.pick tick (1024 * 1024 + (RegVal.g d y).name) l) d y)

theorem observe_of_nil (t : Truss) (j : Nat) (h : t.tabPend = []) : t.observe j = t := by
  unfold Truss.observe
  rw [h, List.foldl_nil, ← h]

theorem publish_of_nil (t : Truss) (j : Nat) (h : t.tabPend = []) : t.publish j = t := by
  unfold Truss.publish
  rw [h, List.map_nil, ← h]

theorem modCourse_const {t : Truss} {j : Nat} {k : Course} (h : t.courses[j]? = some k) (f : Course → Course) :
    t.modCourse j f = t.modCourse j fun _ => f k := by
  unfold Truss.modCourse
  refine congrArg (fun cs => { t with courses := cs }) (List.ext_getElem? fun m => ?_)
  rw [List.getElem?_modify, List.getElem?_modify]
  by_cases hm : j = m
  · subst hm
    rw [h]
    rfl
  · simp only [hm, if_false]

theorem course_of_modCourse {t : Truss} {j : Nat} {k : Course} (h : t.courses[j]? = some k) (k' : Course) :
    (t.modCourse j fun _ => k').courses[j]? = some k' := by
  unfold Truss.modCourse
  rw [List.getElem?_modify, h]
  exact congrArg some (if_pos rfl)

section Get
variable {s : State} {x : Ctx} {gd : Guard} {d : GReg} {rg : Fin 8} {take : Bool} (h : Issues s x (ringGetWord gd d rg take))
  (hq : x.k.quarantine = []) (hu : x.r.uniform gd = true)
include h hq hu

theorem ringGet_traps (hv : x.t.rings[rg].valid = false) : Traps s x (ringGetWord gd d rg take) 0x01 0x30 0 := by
  refine traps_of h ((ringGetWord_exec gd d rg take).2 s) ((if_pos hu).trans ?_)
  have ha : x.t.applyHeld x.c.course (.ringGet rg (x.t.rings[rg].next take) take) = .error (0x01, 0x30, 0) := ringGet_invalid hv
  unfold Ctx.ringGet
  dsimp only
  rw [view_self h.1 hq, trussWord_error h hq ha]

/-- The operation's checks pass. -/
theorem applyHeld_ringGet (hv : x.t.rings[rg].valid = true) : x.t.applyHeld x.c.course (.ringGet rg (x.t.rings[rg].next take) take) =
    .ok { x.t with rings := x.t.rings.set rg (x.t.rings[rg].got x.c.course take) } :=
  ringGet_ready hv (nextReady_of_issues h hq hu hv)

/-- A course that is not guarded has its slot at once (R361). -/
theorem ringGet_acts (hv : x.t.rings[rg].valid = true) (hg : x.t.items.guarded = false) (htab : x.t.tabPend = []) :
    GoesWith s x (ringGetWord gd d rg take) ((s.setCourse x.c (x.slotWord d rg take)).modTruss x.c.truss fun t =>
      { t with rings := t.rings.set rg (x.t.rings[rg].got x.c.course take) }) := by
  obtain ⟨hp, he⟩ := ringGetWord_exec gd d rg take
  have ht := (ctx_of h.1).2.2.1
  have heff : x.ringGet d rg take = .ok ((x.s.setCourse x.c (x.slotWord d rg take)).modTruss x.c.truss fun t =>
      { t with rings := t.rings.set rg (x.t.rings[rg].got x.c.course take) }) := by
    obtain ⟨rfl, -⟩ := ctx_of h.1
    unfold Ctx.ringGet
    dsimp only
    rw [view_self h.1 hq, trussWord_ok h hq (applyHeld_ringGet h hq hu hv), if_neg (Bool.eq_false_iff.mp hg)]
    refine congrArg Res.ok ?_
    unfold State.setTruss State.setCourse State.modCourse
    rw [modTruss_modTruss, modTruss_modTruss]
    refine modTruss_congr ht ?_
    have hgot := modCourse_const (t := { x.t with rings := x.t.rings.set rg (x.t.rings[rg].got x.c.course take) }) (course_of_truss h.1)
      fun k => k.land x.s.tick 1
        (.g d (x.t.rings[rg].word (x.t.rings[rg].next take) (take && x.t.rings[rg].slot (x.t.rings[rg].next take) = .abandoned)))
    refine Eq.trans ?_ hgot
    exact observe_of_nil _ _ htab
  obtain ⟨rfl, -⟩ := ctx_of h.1
  refine goesWith_of_truss h hp (he _) ((if_pos hu).trans heff) rfl
    (t' := { x.t.modCourse x.c.course fun _ => x.slotWord d rg take with rings := x.t.rings.set rg (x.t.rings[rg].got x.c.course take) })
    (k' := x.slotWord d rg take) ?_ rfl (course_of_modCourse (course_of_truss h.1) _)
    (slotWord_pc ..)
  rw [truss?_modTruss, if_pos rfl, show x.s.setCourse x.c (x.slotWord d rg take) = x.set (x.slotWord d rg take) from rfl, truss?_set h.1]
  rfl

/-- A guarded course holds the operation back, and has its slot word all the same (R442). -/
theorem ringGet_held (hv : x.t.rings[rg].valid = true) (hg : x.t.items.guarded = true) (htab : x.t.tabPend = []) :
    GoesWith s x (ringGetWord gd d rg take)
      { s.setCourse x.c { x.slotWord d rg take with quarantine := [⟨.ringGet rg (x.t.rings[rg].next take) take, s.clk, none, s.nextId⟩] } with
        nextId := s.nextId + 1 } := by
  obtain ⟨hp, he⟩ := ringGetWord_exec gd d rg take
  obtain ⟨rfl, -, ht, -⟩ := ctx_of h.1
  refine goesWith_of_set h hp (he _) ((if_pos hu).trans ?_) (k' := { x.slotWord d rg take with
    quarantine := [⟨.ringGet rg (x.t.rings[rg].next take) take, x.s.clk, none, x.s.nextId⟩] }) rfl rfl (slotWord_pc ..)
  have hland : (x.set { x.k with quarantine := [⟨.ringGet rg (x.t.rings[rg].next take) take, x.s.clk, none, x.s.nextId⟩] }).modTruss x.c.truss
      (fun t => (t.modCourse x.c.course fun k => k.land x.s.tick 1 (.g d (x.t.rings[rg].word (x.t.rings[rg].next take)
        (take && x.t.rings[rg].slot (x.t.rings[rg].next take) = .abandoned)))).observe x.c.course) =
      x.s.setCourse x.c { x.slotWord d rg take with quarantine := [⟨.ringGet rg (x.t.rings[rg].next take) take, x.s.clk, none, x.s.nextId⟩] } := by
    unfold Ctx.set State.setCourse State.modCourse
    rw [modTruss_modTruss]
    refine modTruss_congr ht ?_
    refine Eq.trans (observe_of_nil _ _ htab) ?_
    rw [modCourse_const (course_of_modCourse (course_of_truss h.1) _), land_withQuarantine]
    exact congrArg (fun cs => { x.t with courses := cs }) (List.modify_modify_eq ..)
  unfold Ctx.ringGet
  dsimp only
  rw [view_self h.1 hq, trussWord_ok h hq (applyHeld_ringGet h hq hu hv), if_pos hg, hq, List.nil_append]
  exact congrArg (fun s => Res.ok { s with nextId := x.s.nextId + 1 }) hland

end Get

/-! ### Commits and releases (R361, R362, R364) -/

section Begin
variable {t : Truss} {rg : Fin 8} {w : W64} {commit : Bool} {y : Slot}

theorem ringBegin_invalid (hv : t.rings[rg].valid = false) : ringBegin t rg w commit = .error (0x01, 0x30, 0) := if_pos (by rw [hv]; rfl)

/-- The checks of a ring that is valid. -/
theorem ringBegin_valid (hv : t.rings[rg].valid = true) : ringBegin t rg w commit =
    match t.rings[rg].slots[bits w.toNat 37 32]? with
    | none => .error (0x01, 0x34, 0)
    | some x =>
      if x.st ≠ (if commit then .acquired else .taken) then .error (0x01, if commit then 0x32 else 0x33, 0)
      else if x.phase ≠ w.getLsbD 40 then .error (0x01, 0x34, 0)
      else .ok (t.modSlot rg (bits w.toNat 37 32) fun x => { x with st := if commit then .committing else .releasing }) :=
  if_neg (by rw [hv]; exact Bool.false_ne_true)

theorem ringBegin_missing (hv : t.rings[rg].valid = true) (hy : t.rings[rg].slots[bits w.toNat 37 32]? = none) :
    ringBegin t rg w commit = .error (0x01, 0x34, 0) := by
  rw [ringBegin_valid hv, hy]

theorem ringBegin_state (hv : t.rings[rg].valid = true) (hy : t.rings[rg].slots[bits w.toNat 37 32]? = some y)
    (hst : y.st ≠ if commit then .acquired else .taken) : ringBegin t rg w commit = .error (0x01, if commit then 0x32 else 0x33, 0) := by
  rw [ringBegin_valid hv, hy]
  exact if_pos hst

theorem ringBegin_phase (hv : t.rings[rg].valid = true) (hy : t.rings[rg].slots[bits w.toNat 37 32]? = some y)
    (hst : y.st = if commit then .acquired else .taken) (hph : y.phase ≠ w.getLsbD 40) :
    ringBegin t rg w commit = .error (0x01, 0x34, 0) := by
  rw [ringBegin_valid hv, hy]
  exact (if_neg (not_not_intro hst)).trans (if_pos hph)

/-- The ring with slot `n` changed to `y`. -/
def Ring.withSlot (r : Ring) (n : Nat) (y : Slot) : Ring := { r with slots := r.slots.set n y }

/-- The truss with ring `rg` changed to `r`. -/
def Truss.withRing (t : Truss) (rg : Fin 8) (r : Ring) : Truss := { t with rings := t.rings.set rg r }

theorem withRing_withRing (t : Truss) (rg : Fin 8) (r r' : Ring) : (t.withRing rg r).withRing rg r' = t.withRing rg r' := by
  unfold Truss.withRing
  dsimp only
  rw [Vector.set_set]

theorem withSlot_withSlot (r : Ring) (n : Nat) (y y' : Slot) : (r.withSlot n y).withSlot n y' = r.withSlot n y' := by
  unfold Ring.withSlot
  dsimp only
  rw [List.set_set]

theorem modSlot_eq {n : Nat} (hy : t.rings[rg].slots[n]? = some y) (f : Slot → Slot) :
    t.modSlot rg n f = t.withRing rg (t.rings[rg].withSlot n (f y)) := by
  have hslots : t.rings[rg].slots.modify n f = t.rings[rg].slots.set n (f y) := by
    rw [List.modify_eq_set_getElem?, hy]
    rfl
  unfold Truss.modSlot Truss.withRing Ring.withSlot
  rw [hslots]

theorem ringBegin_ok (hv : t.rings[rg].valid = true) (hy : t.rings[rg].slots[bits w.toNat 37 32]? = some y)
    (hst : y.st = if commit then .acquired else .taken) (hph : y.phase = w.getLsbD 40) : ringBegin t rg w commit =
      .ok (t.withRing rg (t.rings[rg].withSlot (bits w.toNat 37 32) { y with st := if commit then .committing else .releasing })) := by
  rw [ringBegin_valid hv, hy, ← modSlot_eq hy fun x => { x with st := if commit then .committing else .releasing }]
  exact (if_neg (not_not_intro hst)).trans (if_neg (not_not_intro hph))

/-- A slot that is being committed or released takes its effect. -/
theorem ringEffect_begun (n : Nat) (hy : t.rings[rg].slots[n]? = some y) :
    (t.withRing rg (t.rings[rg].withSlot n { y with st := if commit then .committing else .releasing })).ringEffect
      rg n commit (some y.phase) =
    t.withRing rg (t.rings[rg].withSlot n (if commit then { y with st := .filled } else { y with st := .free, phase := !y.phase })) := by
  obtain ⟨hn, -⟩ := List.getElem?_eq_some_iff.mp hy
  have hring : (t.withRing rg (t.rings[rg].withSlot n { y with st := if commit then .committing else .releasing })).rings[rg] =
      t.rings[rg].withSlot n { y with st := if commit then .committing else .releasing } := Vector.getElem_set_self ..
  unfold Truss.ringEffect
  rw [modSlot_eq (y := { y with st := if commit then .committing else .releasing })
    (by rw [hring]; exact List.getElem?_set_self hn), hring, withRing_withRing, withSlot_withSlot, if_neg (not_not_intro rfl)]
  cases commit <;> rfl

end Begin

/-- The entry of a course that is not guarded, which counts on no token. -/
theorem enqueue_bare {x : Ctx} {q : QSel} {b : EntryBody} (hg : x.t.items.guarded = false) (hk : x.s.course? x.c = some x.k) :
    x.enqueue q none [] b = .ok (({ x.s with nextId := x.s.nextId + 1 } : State).modTruss x.c.truss fun t =>
      (t.modQueue q fun es => es ++ [x.fresh none b 0]).passFences 64) := by
  unfold Ctx.enqueue Ctx.set Ctx.fresh
  dsimp only
  rw [hg, if_neg Bool.false_ne_true, setCourse_self hk]
  rfl

section Put
variable {s : State} {x : Ctx} {gd : Guard} {q : QSel} {rg : Fin 8} {ga : GReg} {commit : Bool} (h : Issues s x (ringPutWord gd q rg ga commit))
  (hq : x.k.quarantine = []) (hu : x.r.uniform gd = true)
include h hq hu

theorem ringPut_traps {cause detail : Nat} {faddr : W64} (ha : ringBegin x.t rg (x.r.gget ga) commit = .error (cause, detail, faddr)) :
    Traps s x (ringPutWord gd q rg ga commit) cause detail faddr := by
  refine traps_of h ((ringPutWord_exec gd q rg ga commit).2 s) ((if_pos hu).trans ?_)
  unfold Ctx.ringPut
  dsimp only
  rw [view_self h.1 hq, ha]

omit hu in
/-- A commit or a release whose checks pass. -/
theorem ringPut_passes {t : Truss} (ha : ringBegin x.t rg (x.r.gget ga) commit = .ok t) : x.ringPut q rg (x.r.gget ga) commit =
    if x.t.items.guarded then
      if q = .none || (x.t.head? q).isNone then
        .ok (HeldBack x (.ringEffect rg (bits (x.r.gget ga).toNat 37 32) commit ((x.r.gget ga).getLsbD 40)))
      else x.enqueue q none [] (.ring rg (bits (x.r.gget ga).toNat 37 32) commit (some ((x.r.gget ga).getLsbD 40)))
    else if q = .none || (x.t.head? q).isNone then
      .ok (x.s.setTruss x.c.truss
        ((t.ringEffect rg (bits (x.r.gget ga).toNat 37 32) commit (some ((x.r.gget ga).getLsbD 40))).publish x.c.course))
    else ({ x with s := x.s.setTruss x.c.truss t, t := t } : Ctx).enqueue q none []
      (.ring rg (bits (x.r.gget ga).toNat 37 32) commit (some ((x.r.gget ga).getLsbD 40))) := by
  unfold Ctx.ringPut
  dsimp only
  rw [view_self h.1 hq, ha]
  rfl

variable {y : Slot} (hv : x.t.rings[rg].valid = true) (hy : x.t.rings[rg].slots[bits (x.r.gget ga).toNat 37 32]? = some y)
  (hst : y.st = if commit then .acquired else .taken) (hph : y.phase = (x.r.gget ga).getLsbD 40)
include hv hy hst hph

/-- A guarded course's commit or release with no queue named is held back (R442). -/
theorem ringPut_held (hg : x.t.items.guarded = true) (hnone : q = .none) : GoesWith s x (ringPutWord gd q rg ga commit)
    (HeldBack x (.ringEffect rg (bits (x.r.gget ga).toNat 37 32) commit y.phase)) := by
  obtain ⟨hp, he⟩ := ringPutWord_exec gd q rg ga commit
  obtain ⟨rfl, -⟩ := ctx_of h.1
  refine goesWith_of_set h hp (he _) ((if_pos hu).trans ((ringPut_passes h hq (ringBegin_ok hv hy hst hph)).trans ?_))
    (k' := { x.k with quarantine := x.k.quarantine ++
      [⟨.ringEffect rg (bits (x.r.gget ga).toNat 37 32) commit y.phase, x.s.clk, none, x.s.nextId⟩] }) rfl rfl rfl
  rw [if_pos hg, hnone, ← hph]
  rfl

/-- With no queue named, or an empty one, the slot changes at once (R362). -/
theorem ringPut_acts (hg : x.t.items.guarded = false) (hnow : q = .none ∨ x.t.head? q = none) (htab : x.t.tabPend = []) :
    GoesWith s x (ringPutWord gd q rg ga commit) (s.setTruss x.c.truss (x.t.withRing rg (x.t.rings[rg].withSlot (bits (x.r.gget ga).toNat 37 32)
      (if commit then { y with st := .filled } else { y with st := .free, phase := !y.phase })))) := by
  obtain ⟨hp, he⟩ := ringPutWord_exec gd q rg ga commit
  obtain ⟨rfl, -, ht, -⟩ := ctx_of h.1
  refine goesWith_of_truss h hp (he _) ((if_pos hu).trans ((ringPut_passes h hq (ringBegin_ok hv hy hst hph)).trans ?_)) rfl
    (truss?_setTruss ht) rfl (course_of_truss h.1) rfl
  have hnow' : (decide (q = .none) || (x.t.head? q).isNone) = true := by
    rcases hnow with hnow | hnow
    · rw [hnow]; rfl
    · rw [hnow]; exact Bool.or_true _
  rw [if_neg (Bool.eq_false_iff.mp hg), if_pos hnow', ← hph, ringEffect_begun _ hy]
  exact congrArg (fun t => Res.ok (x.s.setTruss x.c.truss t)) (publish_of_nil _ _ htab)

/-- Else the entry goes to the end of the queue, and the slot waits for it (R362). -/
theorem ringPut_enqueues (hg : x.t.items.guarded = false) (hqueue : q ≠ .none) (hhead : x.t.head? q ≠ none) :
    GoesWith s x (ringPutWord gd q rg ga commit) (({ s with nextId := s.nextId + 1 } : State).setTruss x.c.truss
      (((x.t.withRing rg (x.t.rings[rg].withSlot (bits (x.r.gget ga).toNat 37 32) { y with st := if commit then .committing else .releasing })).modQueue q
        fun es => es ++ [x.fresh none (.ring rg (bits (x.r.gget ga).toNat 37 32) commit (some y.phase)) 0]).passFences 64)) := by
  obtain ⟨hp, he⟩ := ringPutWord_exec gd q rg ga commit
  obtain ⟨rfl, -, ht, -⟩ := ctx_of h.1
  refine goesWith_of_truss h hp (he _) ((if_pos hu).trans ((ringPut_passes h hq (ringBegin_ok hv hy hst hph)).trans ?_)) rfl
    (truss?_setTruss ht) (by rw [passFences_place, modQueue_place]; rfl) (k' := x.k)
    (by rw [passFences_courses, modQueue_courses]; exact course_of_truss h.1) rfl
  have hnow' : ¬ (decide (q = .none) || (x.t.head? q).isNone) = true := by simp [hqueue, hhead]
  rw [if_neg (Bool.eq_false_iff.mp hg), if_neg hnow', ← hph]
  generalize hu : x.t.withRing rg (x.t.rings[rg].withSlot (bits (x.r.gget ga).toNat 37 32) { y with st := if commit then .committing else .releasing }) = u
  have hcourses : u.courses = x.t.courses := hu ▸ rfl
  have hguard : u.items.guarded = false := hu ▸ hg
  refine (enqueue_bare (x := { x with s := x.s.setTruss x.c.truss u, t := u }) hguard
    (course?_of_truss? (truss?_setTruss ht) (hcourses ▸ course_of_truss h.1))).trans ?_
  have hfresh : ({ x with s := x.s.setTruss x.c.truss u, t := u } : Ctx).fresh none
      (.ring rg (bits (x.r.gget ga).toNat 37 32) commit (some y.phase)) 0 =
      x.fresh none (.ring rg (bits (x.r.gget ga).toNat 37 32) commit (some y.phase)) 0 := by
    unfold Ctx.fresh
    dsimp only
    rw [hguard, hg]
    rfl
  rw [hfresh]
  refine congrArg Res.ok ?_
  change ((({ x.s with nextId := x.s.nextId + 1 } : State).setTruss x.c.truss u).modTruss x.c.truss _) = _
  unfold State.setTruss
  rw [modTruss_modTruss]
  rfl

end Put

/-! ### `rgacq.init` (R361, R364) -/

/-- A descriptor whose reserved fields are 0, with slots of some size on a line. -/
def GoodRing (n : Nat) : Prop := bits n 31 28 = 0 ∧ bits n 23 20 = 0 ∧ bits n 7 6 = 0 ∧ bits n 19 8 ≠ 0 ∧ bits n 63 32 % 128 = 0

/-- A ring with a slot in use. -/
def Ring.inUse (r : Ring) : Prop := r.valid = true ∧ ∃ y ∈ r.slots, y.st ≠ .free

/-- The end of the ring that a descriptor describes. -/
def ringTop (n : Nat) : Nat := bits n 63 32 + (bits n 5 0 + 1) * bits n 19 8 * 128

/-- The ring that a descriptor describes, every slot FREE. -/
def freshRing (n : Nat) : Ring :=
  { valid := true, ssz := bits n 19 8, prod := BitVec.ofNat 2 (bits n 25 24), cons := BitVec.ofNat 2 (bits n 27 26),
    base := bits n 63 32, acq := 0, take := 0, slots := List.replicate (bits n 5 0 + 1) ⟨.free, false, 0⟩, occ := 0 }

section Init
variable {t : Truss} {rg : Fin 8} {w : W64}

theorem inUse_iff (r : Ring) : (r.valid && r.slots.any fun x => x.st != .free) = true ↔ r.inUse := by
  unfold Ring.inUse
  simp

theorem goodRing_iff (n : Nat) : (bits n 31 28 ≠ 0 || bits n 23 20 ≠ 0 || bits n 7 6 ≠ 0 || bits n 19 8 = 0 || bits n 63 32 % 128 ≠ 0) = true ↔
    ¬ GoodRing n := by
  unfold GoodRing
  simp only [Bool.or_eq_true, decide_eq_true_eq]
  tauto

theorem ringInit_inUse (hb : t.rings[rg].inUse) : ringInit t rg w = .error (0x01, 0x31, 0) := if_pos ((inUse_iff _).mpr hb)

theorem ringInit_bad (hb : ¬ t.rings[rg].inUse) (hg : ¬ GoodRing w.toNat) : ringInit t rg w = .error (0x01, 0x35, 0) :=
  (if_neg ((inUse_iff _).not.mpr hb)).trans (if_pos ((goodRing_iff _).mpr hg))

theorem ringInit_beyond (hb : ¬ t.rings[rg].inUse) (hg : GoodRing w.toNat) (ht : t.portion < ringTop w.toNat) :
    ringInit t rg w = .error (0x13, 0xA0, BitVec.ofNat 64 (ringTop w.toNat)) :=
  (if_neg ((inUse_iff _).not.mpr hb)).trans ((if_neg ((goodRing_iff _).not.mpr (not_not_intro hg))).trans (if_pos ht))

theorem ringInit_ok (hb : ¬ t.rings[rg].inUse) (hg : GoodRing w.toNat) (ht : ringTop w.toNat ≤ t.portion) :
    ringInit t rg w = .ok (t.withRing rg (freshRing w.toNat)) :=
  (if_neg ((inUse_iff _).not.mpr hb)).trans ((if_neg ((goodRing_iff _).not.mpr (not_not_intro hg))).trans (if_neg (Nat.not_lt.mpr ht)))

end Init

/-- A ring word does nothing when the guard is false in the lowest active lane. -/
theorem ringWord_goes {s : State} {x : Ctx} {i : Instr} {gd : Guard} {f : Ctx → Res} (hp : positionsOf i = 1)
    (he : exec i s = .next (issue i s fun x => x.once gd fun _ => f x)) (h : Issues s x i) (hu : x.r.uniform gd = false) :
    Goes s x i x.k (x.k.pc + 8) := goes_of_nothing h hp he (if_neg (Bool.eq_false_iff.mp hu))

/-- Settles O31: each word by its ring, its slot, and whether the course is guarded. -/
theorem ringWordsComplete : Obligations.RingWordsComplete := by
  refine ⟨fun gd rg i s x hi h hu => ?_, fun gd rg q ga commit i y s x hi h hu hq hv hy hst hph => ⟨fun hg hn => ?_, fun hg hn hhead => ?_⟩,
    fun gd rg ga s x h hu hg hq ⟨u, ha⟩ => once_held h rfl rfl hq hu hg (op := fun x => .ringInit rg (x.r.gget ga)) ha,
    fun gd rg d take i s x hi h hu hg hq htab hv => ?_, fun gd rg s x hg hq hu => ⟨fun ga h => ?_, fun d take i hi h htab => ?_,
      fun ga q commit i hi h hnow htab => ?_⟩⟩
  · rcases hi with ⟨ga, rfl⟩ | ⟨d, rfl⟩ | ⟨d, rfl⟩ | ⟨q, ga, rfl⟩ | ⟨q, ga, rfl⟩
    all_goals exact ringWord_goes rfl rfl h hu
  · subst hi
    exact ringPut_held h hq hu hv hy hst hph hg hn
  · subst hi
    exact ringPut_enqueues h hq hu hv hy hst hph hg hn hhead
  · subst hi
    obtain ⟨hsame, hflags, hlands⟩ := slotWord_lands x d rg take
    exact ⟨x.slotWord d rg take, hsame, hflags, hlands, ringGet_held h hq hu hv hg htab⟩
  · exact ⟨fun hb hgood htop => once_acts h rfl rfl hq hu hg (op := fun x => .ringInit rg (x.r.gget ga)) (ringInit_ok hb hgood htop) rfl
        (course_of_truss h.1) rfl,
      fun hb => once_traps h rfl hq hu (op := fun x => .ringInit rg (x.r.gget ga)) (ringInit_inUse hb),
      fun hb hbad => once_traps h rfl hq hu (op := fun x => .ringInit rg (x.r.gget ga)) (ringInit_bad hb hbad),
      fun hb hgood htop => once_traps h rfl hq hu (op := fun x => .ringInit rg (x.r.gget ga)) (ringInit_beyond hb hgood htop)⟩
  · subst hi
    obtain ⟨hsame, hflags, hlands⟩ := slotWord_lands x d rg take
    exact ⟨fun hv => ⟨x.slotWord d rg take, hsame, hflags, hlands, ringGet_acts h hq hu hv hg htab⟩, ringGet_traps h hq hu⟩
  · subst hi
    exact ⟨fun y hv hy hst hph => ringPut_acts h hq hu hv hy hst hph hg hnow htab,
      fun hv => ringPut_traps h hq hu (ringBegin_invalid hv),
      fun hv hy => ringPut_traps h hq hu (ringBegin_missing hv hy),
      fun y hv hy hst => ringPut_traps h hq hu (ringBegin_state hv hy hst),
      fun y hv hy hst hph => ringPut_traps h hq hu (ringBegin_phase hv hy hst hph)⟩

end Sys2Proof.Machine
end

section
/-!
PROOFS. Network words: their checks in order, and their entries in the network queue (16 R375 to R382, R386).
-/
namespace Sys2Proof.Machine

/-! ### The checks -/

theorem firstFault_pass {c : Option Res} {cs : List (Option Res)} {f : Option Res} (h : c = none) (hcs : firstFault cs = f) :
    firstFault (c :: cs) = f := by
  rw [h, ← hcs]
  rfl

theorem firstFault_fail {c : Option Res} {cs : List (Option Res)} {r : Res} (h : c = some r) : firstFault (c :: cs) = some r := by
  rw [h]
  rfl

section Reserved
variable {p q : Prop} [Decidable p] [Decidable q]

theorem reserved_none (hp : ¬ p) : reserved (decide p) = none := by
  unfold reserved
  simp [hp]

theorem reserved_some (hp : p) : reserved (decide p) = some (.trap 0x01 0x40 0) := by
  unfold reserved
  simp [hp]

theorem reserved_or_none (hp : ¬ p) (hq : ¬ q) : reserved (decide p || decide q) = none := by
  unfold reserved
  simp [hp, hq]

theorem reserved_or_some (h : p ∨ q) : reserved (decide p || decide q) = some (.trap 0x01 0x40 0) := by
  unfold reserved
  rw [if_pos (by simpa only [Bool.or_eq_true, decide_eq_true_eq] using h)]

end Reserved

/-- A run of bytes within the address space. -/
def Fits (base len : Nat) : Prop := base < 2 ^ 57 ∧ base + len ≤ 2 ^ 57

theorem localFault_none {base len : Nat} (h : Fits base len) : localFault base len = none := by
  obtain ⟨hb, hl⟩ := h
  unfold localFault
  rw [decide_eq_false (Nat.not_le.mpr hb), decide_eq_false (Nat.not_lt.mpr hl)]
  rfl

theorem localFault_some {base len : Nat} (h : ¬ Fits base len) : localFault base len = some (.trap 0x13 0xA5 (BitVec.ofNat 64 base)) := by
  unfold Fits at h
  refine if_pos ?_
  rw [Bool.or_eq_true, decide_eq_true_eq, decide_eq_true_eq]
  omega

theorem localFault_empty {base : Nat} (h : base < 2 ^ 57) : localFault base 0 = none := localFault_none ⟨h, by omega⟩

theorem recordFault_none {x : Ctx} {a : Nat} (h : a % 8 = 0 ∧ Fits a 32) : x.recordFault a = none :=
  (if_neg (not_not_intro h.1)).trans (localFault_none h.2)

theorem ofNat_gx (k : Course) (g : GReg) : BitVec.ofNat 64 (k.gx g 0) = k.gget g := by
  unfold Course.gx
  rw [BitVec.ofNat_toNat, BitVec.setWidth_eq, Nat.add_zero]

/-- The check of a place that only the issuing device itself has. -/
theorem onSelf_none {ep : Nat} {f : Option Res} (h : ep = selfEp → f = none) : (if ep = selfEp then f else none) = none := by
  split
  · next hself => exact h hself
  · rfl

theorem short_of_zero {len : Nat} (h : len = 0) : ¬ 2 ^ 32 ≤ len := by omega

theorem fits_of_zero {base len : Nat} (h : len = 0) (hb : base < 2 ^ 57) : Fits base len := ⟨hb, by omega⟩

/-! ### The entry -/

section Entry
variable {s : State} {x : Ctx} {i : Instr} {gd : Guard} {tk : Tok} {f : Ctx → Res} {checks : List (Option Res)} {empty : Bool} {b : EntryBody}
  (h : Issues s x i) (he : exec i s = .next (issue i s fun x => x.network gd tk fun _ => f x)) (hu : x.r.uniform gd = true)
  (hf : f x = x.netEntry tk checks empty b)
include h he hu hf

theorem netWord_enqueues (hp : positionsOf i = 1) (hc : firstFault checks = none) (hne : empty = false) :
    Enqueues s x i x.k .net tk [] b 0 := by
  refine enqueues_of_enqueue h hp he ((if_pos hu).trans (hf.trans ?_))
  unfold Ctx.netEntry
  rw [hc, hne]
  rfl

theorem netWord_counts (hp : positionsOf i = 1) (hc : firstFault checks = none) (hempty : empty = true) : CountsOnly s x i (some tk) := by
  refine countsOnly_of (dests := []) h hp he ((if_pos hu).trans (hf.trans ?_))
  unfold Ctx.netEntry
  rw [hc, hempty]
  rfl

theorem netWord_traps {cause detail : Nat} {faddr : W64} (hc : firstFault checks = some (.trap cause detail faddr)) :
    Traps s x i cause detail faddr := by
  refine traps_of h he ((if_pos hu).trans (hf.trans ?_))
  unfold Ctx.netEntry
  rw [hc]

end Entry

/-- A network word with a false guard completes its token (R386). -/
theorem netWord_unguarded {s : State} {x : Ctx} {i : Instr} {gd : Guard} {tk : Tok} {f : Ctx → Res} (h : Issues s x i)
    (he : exec i s = .next (issue i s fun x => x.network gd tk fun _ => f x)) (hp : positionsOf i = 1) (hu : x.r.uniform gd = false) :
    CountsOnly s x i (some tk) := countsOnly_of h hp he (if_neg (Bool.eq_false_iff.mp hu))

/-! ### Reductions (R380) -/

/-- `fmrs` or `fmrl`. -/
def reduceWord (gd : Guard) (tk : Tok) (gx : GReg) (readBack : Bool) : Instr := if readBack then .fmrl gd tk gx else .fmrs gd tk gx

theorem reduceWord_exec (gd : Guard) (tk : Tok) (gx : GReg) (readBack : Bool) : positionsOf (reduceWord gd tk gx readBack) = 1 ∧
    ∀ s, exec (reduceWord gd tk gx readBack) s =
      .next (issue (reduceWord gd tk gx readBack) s fun x => x.network gd tk fun _ => reduceEffect x tk gx readBack) := by
  cases readBack with
  | true => exact ⟨rfl, fun s => rfl⟩
  | false => exact ⟨rfl, fun s => rfl⟩

/-- The checks of a reduction on the group of entry `e`, of `cnt` elements from `loc` and from offset `off` of the window. -/
def Ctx.reduceChecks (x : Ctx) (w : Nat) (e : Vector W64 8) (loc off cnt : Nat) : List (Option Res) :=
  [reserved (bits w 63 12 ≠ 0 || 2 ^ 32 ≤ cnt),
   if !grpV e || grpOwner e ≠ x.t.space then some (.trap 0x13 0xA7 0) else none,
   (if loc % grpSize e ≠ 0 then some loc else if off % grpSize e ≠ 0 then some off else none).map fun p =>
     .trap 0x02 (lowestLane x.k.lanes) (BitVec.ofNat 64 p),
   localFault loc (cnt * grpSize e),
   if grpLen e < off + cnt * grpSize e then some (.trap 0x13 0xA6 0) else none]

section Reduce
variable {x : Ctx} {w : Nat} {e : Vector W64 8} {loc off cnt : Nat} (hres : bits w 63 12 = 0) (hcnt : cnt < 2 ^ 32)
include hres hcnt

theorem reduceChecks_pass (hv : grpV e = true) (ho : grpOwner e = x.t.space) (hloc : loc % grpSize e = 0) (hoff : off % grpSize e = 0)
    (hfits : Fits loc (cnt * grpSize e)) (hend : off + cnt * grpSize e ≤ grpLen e) : firstFault (x.reduceChecks w e loc off cnt) = none := by
  refine firstFault_pass (reserved_or_none (not_not_intro hres) (Nat.not_le.mpr hcnt)) (firstFault_pass (if_neg ?_) (firstFault_pass ?_
    (firstFault_pass (localFault_none hfits) (firstFault_pass (if_neg (Nat.not_lt.mpr hend)) rfl))))
  · rw [hv, ho]
    simp
  · rw [hloc, hoff]
    rfl

theorem reduceChecks_group (hg : grpV e = false ∨ grpOwner e ≠ x.t.space) :
    firstFault (x.reduceChecks w e loc off cnt) = some (.trap 0x13 0xA7 0) := by
  refine firstFault_pass (reserved_or_none (not_not_intro hres) (Nat.not_le.mpr hcnt)) (firstFault_fail (if_pos ?_))
  rw [Bool.or_eq_true, Bool.not_eq_true', decide_eq_true_eq]
  exact hg

end Reduce

/-- The words that name a range of their own space and a length: reserved bits, the range, whether a length of 0 ends them. -/
theorem putGet_exec (gd : Guard) (tk : Tok) (gx : GReg) (get : Bool) : positionsOf (if get then Instr.fget gd tk gx else .fput gd tk gx) = 1 ∧
    ∀ s, exec (if get then Instr.fget gd tk gx else .fput gd tk gx) s =
      .next (issue (if get then Instr.fget gd tk gx else .fput gd tk gx) s fun x => x.network gd tk fun _ => putGetEffect x tk gx get) := by
  cases get with
  | true => exact ⟨rfl, fun s => rfl⟩
  | false => exact ⟨rfl, fun s => rfl⟩

/-- Settles O32: each word by the first of its checks that fails. -/
theorem networkWordsEnqueue : Obligations.NetworkWordsEnqueue := by
  intro gd tk gx s x
  refine ⟨fun i hi h hu => ?_, fun hu => ⟨?amsg, ?nsend, ?nrecv, ?nprobe, ?fput, ?fget, ?fcopy, ⟨?fmrs, ?fmrl⟩, ?nsendEmpty, ?putGetEmpty,
    ?fcopyEmpty, ?reduceCounts, ?amsgIndex, ?ranges, ?reserved⟩⟩
  · rcases hi with ⟨nb, rfl⟩ | rfl | rfl | rfl | rfl | rfl | rfl | rfl | rfl
    all_goals exact netWord_unguarded h rfl rfl hu
  case amsg =>
    intro nb h hres hnb hidx
    exact netWord_enqueues h rfl hu rfl rfl (firstFault_pass (reserved_or_none (not_not_intro hres) (Nat.not_lt.mpr hnb))
      (firstFault_pass (if_neg (Nat.not_le.mpr hidx)) rfl)) rfl
  case nsend =>
    intro h hres hlen hne hfits
    exact netWord_enqueues h rfl hu rfl rfl (firstFault_pass (reserved_or_none (not_not_intro hres) (Nat.not_le.mpr hlen))
      (firstFault_pass (localFault_none hfits) rfl)) (decide_eq_false hne)
  case nrecv =>
    intro h hres hlen hfits hrec
    have henq := netWord_enqueues h rfl hu rfl rfl (firstFault_pass (reserved_or_none (not_not_intro hres) (Nat.not_le.mpr hlen))
      (firstFault_pass (localFault_none hfits) (firstFault_pass (recordFault_none hrec) rfl))) rfl
    rwa [ofNat_gx] at henq
  case nprobe =>
    intro h hres hrec
    have henq := netWord_enqueues h rfl hu rfl rfl (firstFault_pass (reserved_none (not_not_intro hres))
      (firstFault_pass (recordFault_none hrec) rfl)) rfl
    rwa [ofNat_gx] at henq
  case fput =>
    intro h hres hlen hne hfits
    exact netWord_enqueues h rfl hu rfl rfl (firstFault_pass (reserved_or_none (not_not_intro hres) (Nat.not_le.mpr hlen))
      (firstFault_pass (localFault_none hfits) rfl)) (decide_eq_false hne)
  case fget =>
    intro h hres hlen hne hfits
    exact netWord_enqueues h rfl hu rfl rfl (firstFault_pass (reserved_or_none (not_not_intro hres) (Nat.not_le.mpr hlen))
      (firstFault_pass (localFault_none hfits) rfl)) (decide_eq_false hne)
  case fcopy =>
    intro h hres hlen hne hsrc hdst
    exact netWord_enqueues h rfl hu rfl rfl (firstFault_pass (reserved_or_none (not_not_intro hres) (Nat.not_le.mpr hlen))
      (firstFault_pass (onSelf_none fun hself => localFault_none (hsrc hself))
        (firstFault_pass (onSelf_none fun hself => localFault_none (hdst hself)) rfl))) (decide_eq_false hne)
  case fmrs =>
    rintro h ⟨hres, hlen, hne, hv, ho, hloc, hoff⟩ hfits hend
    obtain ⟨rfl, -⟩ := ctx_of h.1
    obtain ⟨hp, he⟩ := reduceWord_exec gd tk gx false
    exact netWord_enqueues h (he _) hu rfl hp (reduceChecks_pass hres hlen hv ho hloc hoff hfits hend) (decide_eq_false hne)
  case fmrl =>
    rintro h ⟨hres, hlen, hne, hv, ho, hoff, hloc⟩ hfits hend
    obtain ⟨rfl, -⟩ := ctx_of h.1
    obtain ⟨hp, he⟩ := reduceWord_exec gd tk gx true
    exact netWord_enqueues h (he _) hu rfl hp (reduceChecks_pass hres hlen hv ho hloc hoff hfits hend) (decide_eq_false hne)
  case nsendEmpty =>
    intro h hlen hbuf hres
    exact netWord_counts h rfl hu rfl rfl (firstFault_pass (reserved_or_none (not_not_intro hres) (short_of_zero hlen))
      (firstFault_pass (localFault_none (fits_of_zero hlen hbuf)) rfl)) (decide_eq_true hlen)
  case putGetEmpty =>
    intro i hi h hres hlen hloc
    obtain ⟨get, rfl⟩ : ∃ get, i = if get then Instr.fget gd tk gx else .fput gd tk gx :=
      hi.elim (fun h => ⟨false, h⟩) fun h => ⟨true, h⟩
    obtain ⟨hp, he⟩ := putGet_exec gd tk gx get
    exact netWord_counts h (he _) hu rfl hp (firstFault_pass (reserved_or_none (not_not_intro hres) (short_of_zero hlen))
      (firstFault_pass (localFault_none (fits_of_zero hlen hloc)) rfl)) (decide_eq_true hlen)
  case fcopyEmpty =>
    intro h hres hlen hsrc hdst
    exact netWord_counts h rfl hu rfl rfl (firstFault_pass (reserved_or_none (not_not_intro hres) (short_of_zero hlen))
      (firstFault_pass (onSelf_none fun hself => localFault_none (fits_of_zero hlen (hsrc hself)))
        (firstFault_pass (onSelf_none fun hself => localFault_none (fits_of_zero hlen (hdst hself))) rfl))) (decide_eq_true hlen)
  case reduceCounts =>
    intro e i loc off hi h hres
    obtain ⟨rfl, -⟩ := ctx_of h.1
    obtain ⟨readBack, rfl, hf⟩ : ∃ readBack, i = reduceWord gd tk gx readBack ∧ ∃ b, reduceEffect x tk gx readBack =
        x.netEntry tk (x.reduceChecks (x.r.gx gx 0) (x.s.group (bits (x.r.gx gx 0) 11 0)) loc off (x.r.gx gx 3)) (x.r.gx gx 3 = 0) b := by
      rcases hi with ⟨rfl, rfl, rfl⟩ | ⟨rfl, rfl, rfl⟩
      · exact ⟨false, rfl, _, rfl⟩
      · exact ⟨true, rfl, _, rfl⟩
    obtain ⟨b, hf⟩ := hf
    obtain ⟨hp, he⟩ := reduceWord_exec gd tk gx readBack
    refine ⟨fun hlen hv ho hloc hoff hbase hend => ?_, fun hlen hg => netWord_traps h (he _) hu hf (reduceChecks_group hres hlen hg)⟩
    have hzero : x.r.gx gx 3 = 0 := hlen
    rw [hzero] at hf
    refine netWord_counts h (he _) hu hf hp (reduceChecks_pass hres (by omega) hv ho hloc hoff ⟨hbase, ?_⟩ ?_) rfl
    · rw [Nat.zero_mul]
      exact hbase.le
    · rw [Nat.zero_mul]
      exact hend
  case amsgIndex =>
    intro nb h hres hnb hidx
    exact netWord_traps h rfl hu rfl (firstFault_pass (reserved_or_none (not_not_intro hres) (Nat.not_lt.mpr hnb)) (firstFault_fail (if_pos hidx)))
  case ranges =>
    rintro i len hi h hlen hout
    rcases hi with ⟨rfl, hres, rfl⟩ | ⟨rfl, hres, rfl⟩ | ⟨rfl, hres, rfl⟩ | ⟨rfl, hres, rfl⟩
    all_goals exact netWord_traps h rfl hu rfl (firstFault_pass (reserved_or_none (not_not_intro hres) (Nat.not_le.mpr hlen))
      (firstFault_fail (localFault_some hout)))
  case reserved =>
    rintro i hi h
    rcases hi with ⟨nb, rfl, hres⟩ | ⟨rfl, hres⟩ | ⟨rfl, hres⟩ | ⟨rfl, hres⟩ | ⟨rfl, hres⟩ | ⟨rfl, hres⟩ | ⟨rfl, hres⟩ | ⟨rfl | rfl, hres⟩
    case inr.inr.inr.inl => exact netWord_traps h rfl hu rfl (firstFault_fail (reserved_some hres))
    all_goals exact netWord_traps h rfl hu rfl (firstFault_fail (reserved_or_some hres))

end Sys2Proof.Machine
end

section
/-!
PROOFS. Words that the spec writes out (04 R82 to R90), and what power-on leaves (20 R451).
-/
namespace Sys2Proof.Machine

/-- A word decodes to the well-formed instruction that it encodes. -/
theorem decodes_of_encodes {i : Instr} {w : Nat} (h : (i.isWord && i.wf && encode i == w) = true) : decodeTableWord 64 w = some i := by
  simp only [Bool.and_eq_true, beq_iff_eq] at h
  obtain ⟨⟨hi, hwf⟩, rfl⟩ := h
  obtain ⟨-, -, -, hdecode⟩ := decodeOfEncode i hi hwf
  exact hdecode

/-- Settles O55: each word is the encoding of its instruction; the word of zeros is reserved. -/
theorem wordsDecode : Obligations.WordsDecode := by
  refine ⟨?_, ?_, ?_, ?_, ?_, ?_, ?_, ?_, ?_, ?_, ?_, ?_, ?_, by decide⟩
  all_goals exact decodes_of_encodes (by decide)

/-- Each core at reset (R6, R199, R299). -/
theorem core_reset (n : Fin 192) : State.reset.cores[n] = Core.reset := Vector.getElem_replicate ..

/-- Settles O58: the reset state as it is written down, and its first step. -/
theorem resetLeaves : Obligations.ResetLeaves := by
  unfold Obligations.ResetLeaves
  intro s
  refine ⟨rfl, rfl, rfl, rfl, rfl, rfl, rfl, rfl, rfl, rfl, rfl, rfl, rfl, rfl, rfl, rfl, rfl, rfl, rfl, rfl, rfl, rfl, rfl, rfl, rfl, rfl, rfl, rfl,
    by decide, by decide, by decide, fun n => ?_, ⟨rfl, rfl⟩, by decide, rfl, rfl, ?_⟩
  · rw [core_reset]
    exact ⟨rfl, rfl, rfl, rfl, by decide⟩
  · exact ⟨_, rfl, rfl, rfl, rfl, rfl⟩

end Sys2Proof.Machine
end

section
/-!
PROOFS. One step: what comes next, and the cycles that pass with it (02 R38; 08 R160; log 1, log 10).
-/
namespace Sys2Proof.Machine

/-! ### What comes next -/

theorem not_withholds {s : State} (h : s.throttled = false) : s.withholds = false := by
  unfold State.withholds
  rw [h]
  rfl

/-- An issue where one course is picked. -/
theorem issueOne_single {s : State} {c : CRef} (hp : s.picks = [c]) (ht : s.throttled = false) : s.issueOne = runCourse s c := by
  unfold State.issueOne
  rw [hp]
  exact if_neg (Bool.eq_false_iff.mp (not_withholds ht))

/-- A course with a lane after the merge loop, and no trap or rollback pending, runs its next word. -/
theorem runCourse_word {s : State} {c : CRef} {t : Truss} {k : Course} (ht : s.truss? c.truss = some t) (hk : s.course? c = some k)
    (hi : k.merge.interrupted = false) (hl : k.merge.lanes ≠ 0) : runCourse s c = runWord (s.setCourse c k.merge) c t k.merge := by
  have hl' : (k.merge.lanes == 0) = false := beq_eq_false_iff_ne.mpr hl
  unfold runCourse
  rw [ht, hk]
  dsimp only
  rw [hl', hi]
  rfl

theorem happening_issue {s : State} {rest : List (Option Instr)} (ha : s.agenda = none :: rest) (hp : s.power = .ready) :
    happening s = ({ s with agenda := rest } : State).issueOne := by
  unfold happening
  rw [ha]
  exact if_pos hp

theorem happening_some {s : State} {rest : List (Option Instr)} {i : Instr} (ha : s.agenda = some i :: rest) :
    happening s = ({ s with agenda := rest } : State).happen i := by
  unfold happening
  rw [ha]

theorem happening_alone {s : State} (ha : s.agenda = []) : happening s = s.alone := by
  unfold happening
  rw [ha]

/-! ### The cycles that pass -/

/-- What the meters take in changes nothing else. -/
theorem foldl_addShare_quiet (ts : List Truss) (s : State) (f : Truss → Nat) :
    Quiet s (ts.foldl (fun st x => st.addShare x.space 0 (f x)) s) := by
  induction ts generalizing s with
  | nil => exact Quiet.refl s
  | cons t ts ih => exact (Quiet.addShare ..).trans (ih _)

theorem advanceTo_clk (s : State) (t : Nat) : (s.advanceTo t).clk = Nat.max s.clk t := rfl
theorem advanceTo_ioClk (s : State) (t : Nat) : (s.advanceTo t).ioClk = Nat.max s.ioClk (Nat.max s.clk t * 2 / 3) := rfl

theorem advanceTo_mem (s : State) (t : Nat) : (s.advanceTo t).mem = s.mem :=
  (congrArg State.mem (foldl_addShare_quiet s.trusses s fun x => x.resident * (Nat.max s.clk t - s.clk)).1 :)

theorem advanceTo_hostMem (s : State) (t : Nat) : (s.advanceTo t).hostMem = s.hostMem :=
  (congrArg State.hostMem (foldl_addShare_quiet s.trusses s fun x => x.resident * (Nat.max s.clk t - s.clk)).1 :)

theorem advanceTo_agenda (s : State) (t : Nat) : (s.advanceTo t).agenda = s.agenda :=
  (congrArg State.agenda (foldl_addShare_quiet s.trusses s fun x => x.resident * (Nat.max s.clk t - s.clk)).1 :)

theorem advanceTo_cores (s : State) (t : Nat) : (s.advanceTo t).cores.map Core.noCounts = s.cores.map Core.noCounts := by
  ext n hn
  simp only [State.advanceTo, Vector.getElem_map, Vector.getElem_ofFn, Core.noCounts]
  rw [Vector.map_map]
  rfl

/-- A truss while cycles pass: its rings note their occupancy, and its courses their counters' overflows. -/
theorem truss?_advanceTo {s : State} {n : Nat} {t : Truss} (h : s.truss? n = some t) (m : Nat) : ∃ u, (s.advanceTo m).truss? n = some u ∧
    u.place = t.place ∧ u.scr = t.scr ∧ u.tiles = t.tiles ∧ u.bars = t.bars ∧
    ∀ (j : Nat) (k : Course), t.courses[j]? = some k → ∃ ovf, u.courses[j]? = some { k with ovfPend := k.ovfPend ++ ovf } := by
  unfold State.truss? at h ⊢
  unfold State.advanceTo
  dsimp only
  rw [List.getElem?_map, h]
  refine ⟨_, rfl, rfl, rfl, rfl, rfl, fun j k hk => ?_⟩
  dsimp only
  rw [List.getElem?_map, hk, Option.map_some]
  split
  · exact ⟨_, rfl⟩
  · exact ⟨[], by rw [List.append_nil]⟩

/-- Settles O57: by what the agenda says, and by what passes with a step. -/
theorem stepRunsDecoded : Obligations.StepRunsDecoded := by
  refine ⟨?word, ?happening, ?lost, ?alone, ?booting, ?passes⟩
  case word =>
    intro s rest c t k s2 w ha hp ht s0 hpick htr hk hi hl hf
    have hstep : step s = passTime (runWord (s0.setCourse c k.merge) c t k.merge) := by
      unfold step
      rw [happening_issue ha hp, issueOne_single hpick ht, runCourse_word htr hk hi hl]
    refine ⟨fun i hd => ?_, fun r hd => ?_⟩
    · rw [hstep]
      unfold runWord
      rw [hf]
      dsimp only
      rw [hd]
    · rw [hstep]
      unfold runWord
      rw [hf]
      dsimp only
      rw [hd]
  case happening =>
    intro s rest i ha hp hi
    unfold step
    rw [happening_some ha]
    unfold State.happen
    rw [hi, show ({ s with agenda := rest } : State).power = .ready from hp]
    rfl
  case lost =>
    intro s rest i ha hi
    unfold step
    rw [happening_some ha]
    unfold State.happen
    rw [hi]
    rfl
  case alone =>
    intro s f ha hp hm ht
    unfold step
    rw [happening_alone ha]
    unfold State.alone
    rw [hp, not_withholds ht, hm]
    rfl
  case booting =>
    intro s ha hp
    unfold step
    rw [happening_alone ha]
    unfold State.alone
    rw [hp]
  case passes =>
    rintro s s' h
    cases h
    refine ⟨Nat.max_eq_right (Nat.le_add_right ..), advanceTo_mem .., advanceTo_cores .., advanceTo_agenda .., fun n t ht => ?_, fun c k hk => ?_⟩
    · obtain ⟨u, hu, hplace, hscr, htiles, hbars, -⟩ := truss?_advanceTo ht (s.clk + Config.extraCycles s.tick)
      exact ⟨u, hu, hplace, hscr, htiles, hbars⟩
    · unfold State.course? at hk
      obtain ⟨t, ht, hj⟩ := Option.bind_eq_some_iff.mp hk
      obtain ⟨u, hu, -, -, -, -, hcourses⟩ := truss?_advanceTo ht (s.clk + Config.extraCycles s.tick)
      obtain ⟨ovf, hovf⟩ := hcourses c.course k hj
      exact ⟨ovf, course?_of_truss? hu hovf⟩

end Sys2Proof.Machine
end

section
/-!
PROOFS. The host's accesses to device memory (11 R247, R250; 14 R310).
-/
namespace Sys2Proof.Machine

/-! ### Bytes and poison bits -/

/-- A run of at most 8 bytes is one piece. -/
theorem pieces_single {α : Type} {bs : List α} (h : bs.length = 8) : pieces 8 8 bs = [bs] := by
  cases bs with
  | nil => cases h
  | cons b bs =>
    have hdrop : (b :: bs).drop 8 = [] := List.drop_eq_nil_of_le h.le
    have htake : (b :: bs).take 8 = b :: bs := List.take_of_length_le h.le
    unfold pieces
    rw [hdrop, htake]
    rfl

/-- An aligned word wholly written with clean data is clean (R250). -/
theorem psnWrite_word {p : Tbl Bool} (hp : twf false p = true) {a : Nat} (ha : a % 8 = 0) :
    tget false (psnWrite p a 8 false) (a / 8) = false := by
  have hwords : wordsOf a 8 = [a / 8] := by
    unfold wordsOf
    rw [if_neg (by decide), show (a + 8 - 1) / 8 - a / 8 + 1 = 1 by omega]
    rfl
  have hinside : a ≤ 8 * (a / 8) ∧ 8 * (a / 8) + 8 ≤ a + 8 := by omega
  unfold psnWrite
  rw [hwords, List.foldl_cons, List.foldl_nil, if_neg Bool.false_ne_true, if_pos hinside, tget_tset hp, if_pos rfl]

/-! ### What an access changes at its slices -/

/-- A state without the lines of the slices, what the meters take in, and the model's own `tick`. -/
def State.noLines (s : State) : State := { s with lines := [], dirty := [], folds := [], vds := [], tick := 0 }

theorem addShare_noLines (s : State) (vd m n : Nat) : (s.addShare vd m n).noLines = s.noLines := by
  unfold State.addShare State.modVdev
  split <;> rfl

theorem makeRoom_noLines (s : State) (vd l : Nat) : (s.makeRoom vd l).noLines = s.noLines := by
  unfold State.makeRoom
  dsimp only
  split
  · split
    · exact addShare_noLines { s with tick := s.tick + 1 } vd 3 128
    · rfl
  · rfl

theorem handOver_noLines (s : State) (vd l : Nat) : (s.handOver vd l).noLines = s.noLines := by
  unfold State.handOver
  split
  · split
    · dsimp only
      split
      · exact makeRoom_noLines ..
      · rfl
    · rfl
  · rfl

/-- An access to a line changes the slices alone (R13, R238). -/
theorem touchLine_noLines (s : State) (vd a : Nat) (w : Bool) : (s.touchLine vd a w).noLines = s.noLines := by
  unfold State.touchLine
  dsimp only
  split
  · exact handOver_noLines ..
  · exact (addShare_noLines ..).trans ((makeRoom_noLines ..).trans (handOver_noLines ..))

theorem touchRange_noLines (s : State) (vd a n : Nat) (w : Bool) : (s.touchRange vd a n w).noLines = s.noLines :=
  foldl_keeps _ State.noLines (fun s _ => touchLine_noLines s ..) _ s

/-! ### A posted write -/

/-- An aligned word that the host writes at a system-physical address. -/
theorem hostBytes_word {s : State} {a : Nat} {data : List Byte} (h : data.length = 8) : s.hostBytes none a data =
    s.putBank pfSpace false a 8 ⟨writeBytes s.mem a data, psnWrite s.memPsn a 8 false⟩ := by
  unfold State.hostBytes
  rw [h, pieces_single h]
  simp only [List.zipIdx_cons, List.zipIdx_nil, List.foldl_cons, List.foldl_nil, State.hostPlace, h]
  rfl

/-! ### An atomic -/

/-- A FetchAdd of a 64-bit word without poison, performed at its home. -/
theorem atomic_add {b : Bank} {p : Part} {a : Nat} {x : BitVec 128} (hsize : p.size = 8) (hdata : p.data = natBytes 8 x.toNat)
    (hclean : anyPsn b.psn a 8 = false) : b.atomic .add p a =
      (⟨writeNat b.m a 8 ((readNat b.m a 8 + x.toNat) % 2 ^ 64), b.psn⟩, { p with got := readBytes b.m a 8, poison := false }) := by
  unfold Bank.atomic Bank.load
  dsimp only
  rw [hsize, hclean, hdata, bytesNat_natBytes, if_neg Bool.false_ne_true]
  unfold atomicNew writeNat readNat
  rw [show (256 : Nat) ^ 8 = 2 ^ 64 from rfl, show 8 * 8 = 64 from rfl, Nat.add_mod_mod]

theorem countAtomic_mem (s : State) (pa : Nat) (host byHost : Bool) : (s.countAtomic pa host byHost).mem = s.mem := rfl
theorem countAtomic_hostOut (s : State) (pa : Nat) (host byHost : Bool) : (s.countAtomic pa host byHost).hostOut = s.hostOut := rfl

/-- The state after a word of device memory has changed at its home. -/
def State.wordAt (s : State) (vd pa y : Nat) : State := s.putBank vd false pa 8 ⟨writeNat s.mem pa 8 y, s.memPsn⟩

/-- The part of a 64-bit atomic of the host. -/
def State.hostPart (s : State) (a : Nat) (x c : BitVec 128) : Part :=
  { lane := 0, va := a, size := 8, data := natBytes 8 x.toNat, cmp := natBytes 8 c.toNat, phase := .performed, got := [], poison := false,
    dst := 0, sent := s.clk, early := false }

/-- What the host's 64-bit atomic on device memory makes of the state, from what it makes of memory. -/
def State.hostAnswer (s : State) (vd pa : Nat) (cm : Bool) (r : Bank × Part) : State :=
  let t := if r.2.poison then s else s.putBank vd false pa 8 r.1
  let t := if cm then t.countAtomic pa false true else t
  { t with hostOut := t.hostOut ++ [HostOut.atomicOld (BitVec.ofNat 128 (bytesNat r.2.got))] }

theorem hostAtomic_add {s : State} {v : Fin 512} {a pa : Nat} {cm : Bool} {x c : BitVec 128} (hp : s.power = .ready) (ha : a % 8 = 0)
    (hplace : s.hostPlace (some v) a = some (pa, false, cm)) (hclean : anyPsn s.memPsn pa 8 = false) :
    hostAtomic s v a .add .b64 x c =
      let t := s.wordAt v pa ((readNat s.mem pa 8 + x.toNat) % 2 ^ 64)
      let t := if cm then t.countAtomic pa false true else t
      { t with hostOut := t.hostOut ++ [HostOut.atomicOld (BitVec.ofNat 128 (readNat s.mem pa 8))] } := by
  have hgo : ¬ (decide (s.power ≠ .ready) || !isAtomicOp .add .b64 || decide (a % asize .b64 ≠ 0)) = true := by
    rw [hp, show a % asize .b64 = 0 from ha]
    decide
  have hans : hostAtomic s v a .add .b64 x c = s.hostAnswer v pa cm ((s.bank false).atomic .add (s.hostPart a x c) pa) := by
    refine (if_neg hgo).trans ?_
    rw [hplace]
    rfl
  rw [hans, atomic_add rfl rfl hclean]
  rfl

/-- Settles O51: the writes and the atomic, byte by byte. -/
theorem hostAccesses : Obligations.HostAccesses := by
  refine ⟨fun s a data hp ha hlen hin hmem hpsn => ?_, fun s v a pa cm x c hp ha hin hplace hclean hmem => ?_, fun s v a data hout => if_pos hout⟩
  · have hspace : ¬ addrSpace < a + data.length := by unfold addrSpace; omega
    refine ⟨_, (if_neg hspace).trans (if_neg (not_not_intro hp)), ?_⟩
    rw [hostBytes_word hlen]
    refine ⟨?_, psnWrite_word hpsn ha, fun y hy => mget_writeBytes_out hmem a data (hlen ▸ hy)⟩
    have hread := readBytes_writeBytes hmem a data
    rw [hlen] at hread
    exact hread
  · have hspace : ¬ addrSpace < a + asize .b64 := by unfold addrSpace asize; dsimp only; omega
    refine ⟨_, (if_neg hspace).trans (congrArg Host.Outcome.next (hostAtomic_add hp ha hplace hclean)), ?_⟩
    generalize hy : (readNat s.mem pa 8 + x.toNat) % 2 ^ 64 = y
    have hmem' : ∀ t : State, t = (if cm then (s.wordAt v pa y).countAtomic pa false true else s.wordAt v pa y) →
        t.mem = writeNat s.mem pa 8 y ∧ t.hostOut = s.hostOut := by
      rintro t rfl
      have hout : (s.wordAt v pa y).hostOut = s.hostOut := (congrArg State.hostOut (touchRange_noLines s v pa 8 true) :)
      split
      · exact ⟨rfl, hout⟩
      · exact ⟨rfl, hout⟩
    obtain ⟨hm, hout⟩ := hmem' _ rfl
    dsimp only
    rw [hm, hout]
    refine ⟨?_, rfl, fun z hz => mget_writeBytes_out hmem pa _ (by rwa [natBytes_length])⟩
    rw [readNat_writeNat hmem, ← hy, show (256 : Nat) ^ 8 = 2 ^ 64 from rfl, Nat.mod_mod]

end Sys2Proof.Machine
end

section
/-!
PROOFS. The mailbox's commands on devices and sets (17 R388 to R392, R399, R404).
-/
namespace Sys2Proof.Machine

/-! ### The doorbell -/

/-- The state in which a command's meaning begins. -/
def State.inBox (s : State) (w : Vector W64 8) : State := { s with mbcmd := w, mbBusy := true }

theorem mailbox_status {s t : State} {w : Vector W64 8} {f : State → Ended} {st : BitVec 16} (h : MailReady s)
    (hf : f (s.inBox w) = .status t st) : mailbox s w f = t.mbDone st := by
  obtain ⟨hp, hb⟩ := h
  unfold mailbox
  rw [if_neg (not_not_intro hp), if_neg (ne_true_of_eq_false hb)]
  unfold State.inBox at hf
  rw [hf]

theorem mailbox_later {s t : State} {w : Vector W64 8} {f : State → Ended} (h : MailReady s)
    (hf : f (s.inBox w) = .later t) : mailbox s w f = t := by
  obtain ⟨hp, hb⟩ := h
  unfold mailbox
  rw [if_neg (not_not_intro hp), if_neg (ne_true_of_eq_false hb)]
  unfold State.inBox at hf
  rw [hf]

theorem mbDone_answered (s : State) (st : BitVec 16) : Answered (s.mbDone st) st := ⟨rfl, rfl, List.getLast?_concat⟩

theorem onDevice_some {s : State} {vd : Nat} {d : VDev} (f : VDev → Ended) (hd : s.vdev? vd = some d) (hm : d.mode ≠ 4) :
    onDevice s vd f = f d := by
  unfold onDevice
  rw [hd]
  exact if_neg hm

theorem onDevice_none {s : State} {vd : Nat} (f : VDev → Ended) (hd : s.vdev? vd = none) : onDevice s vd f = .status s noVdSt := by
  unfold onDevice
  rw [hd]

theorem bits_lt (w h l : Nat) : bits w h l < 2 ^ (h + 1 - l) := Nat.mod_lt _ (Nat.two_pow_pos _)

/-- The guard of a command on a device that is there, once the command words stand in the mailbox. -/
theorem onDevice_inBox {s : State} {w : Vector W64 8} {vd : Nat} {d : VDev} (f : VDev → Ended) (hd : s.vdev? vd = some d) (hm : d.mode ≠ 4) :
    onDevice (s.inBox w) vd f = f d := onDevice_some f hd hm

theorem fin512_argVd (w : Vector W64 8) : (fin512 (argVd w)).val = argVd w := Nat.mod_eq_of_lt (bits_lt w[1].toNat 8 0)

/-! ### CREATE -/

@[simp] theorem dumpHeader_vds (s : State) (v : Nat) : (s.dumpHeader v).vds = s.vds := by
  unfold State.dumpHeader
  split <;> rfl

@[simp] theorem dumpHeader_pool (s : State) (v : Nat) : (s.dumpHeader v).pool = s.pool := by
  unfold State.dumpHeader
  split <;> rfl

/-- A CREATE that passes every check of R392 names one of the four modes. -/
theorem mode_of_createErr {s : State} {w : Vector W64 8} {set mode weight hqs ctx dump slots size : Nat} {x : ClSet}
    (h : s.createErr w set mode weight hqs ctx dump slots size x = 0) : mode ≤ 3 := by
  by_contra hmode
  unfold State.createErr at h
  dsimp only at h
  rw [if_pos (by simp; omega)] at h
  exact absurd h (by decide)

/-! ### Kills -/

/-- A state without its devices and its trusses: what no kill step changes. -/
def State.noWork (s : State) : State := { s with vds := [], trusses := [] }

theorem addShare_noWork (s : State) (vd m n : Nat) : (s.addShare vd m n).noWork = s.noWork := by
  unfold State.addShare State.modVdev
  split <;> rfl

theorem killStep_noWork (s : State) (c : CRef) (root : Cause) : (s.killStep c root).noWork = s.noWork := by
  unfold State.killStep
  split
  · split
    · rfl
    · split
      · rfl
      · exact addShare_noWork ..
  · rfl

theorem killAll_noWork (s : State) (k : KillScope) (root : Cause) : (s.killAll k root).noWork = s.noWork :=
  foldl_keeps _ State.noWork (fun s c => killStep_noWork s c root) _ s

/-- What of a device no count of a meter changes: the device but for its shares. -/
def State.mode? (s : State) (v : Nat) : Option (BitVec 3) := (s.vdev? v).map (·.mode)

theorem mode?_addShare (s : State) (vd m n v : Nat) : (s.addShare vd m n).mode? v = s.mode? v := by
  unfold State.mode? State.addShare
  rw [vdev?_modVdev]
  split
  · next h =>
    subst h
    cases s.vdev? v <;> rfl
  · rfl

theorem mode?_killStep (s : State) (c : CRef) (root : Cause) (v : Nat) : (s.killStep c root).mode? v = s.mode? v := by
  unfold State.killStep
  split
  · split
    · rfl
    · split
      · rfl
      · exact mode?_addShare ..
  · rfl

theorem mode?_killAll (s : State) (k : KillScope) (root : Cause) (v : Nat) : (s.killAll k root).mode? v = s.mode? v :=
  foldl_keeps _ (State.mode? · v) (fun s c => mode?_killStep s c root v) _ s

theorem vdev?_of_mode? {s : State} {v : Nat} {m : BitVec 3} (h : s.mode? v = some m) : ∃ d, s.vdev? v = some d ∧ d.mode = m :=
  Option.map_eq_some_iff.mp h

/-- A raise of a generation, with the tables of it: what else of the state stays. -/
def State.noFlight (s : State) : State := { s with vds := [], tlbs := [], accesses := [], proms := [] }

theorem modVdev_noFlight (s : State) (v : Nat) (f : VDev → VDev) : (s.modVdev v f).noFlight = s.noFlight := by
  unfold State.modVdev
  split <;> rfl

theorem retryFlight_noFlight (s : State) (v : Nat) : (s.retryFlight v).noFlight = s.noFlight := rfl

theorem dropTlb_noFlight (s : State) (p : TlbEntry → Bool) : (s.dropTlb p).noFlight = s.noFlight := rfl

/-- A device whose generation has been raised (R196). -/
def VDev.raised (d : VDev) : VDev := { d with gen := d.gen + 1, genRaises := (d.genRaises + 1) % 32768 }

theorem raiseGen_none {s : State} {v : Nat} (hd : s.vdev? v = none) : s.raiseGen v = s := by
  unfold State.raiseGen
  rw [hd]

theorem raiseGen_some {s : State} {v : Nat} {d : VDev} (hd : s.vdev? v = some d) : s.raiseGen v =
    if d.genRaises + 1 = 32768 then ((s.modVdev v VDev.raised).dropTlb fun e => e.space == v).retryFlight v
    else s.modVdev v VDev.raised := by
  unfold State.raiseGen
  rw [hd]
  rfl

theorem raiseGen_noFlight (s : State) (v : Nat) : (s.raiseGen v).noFlight = s.noFlight := by
  cases hd : s.vdev? v with
  | none => rw [raiseGen_none hd]
  | some d =>
    rw [raiseGen_some hd]
    split
    · rw [retryFlight_noFlight, dropTlb_noFlight, modVdev_noFlight]
    · exact modVdev_noFlight ..

theorem vdev?_retryFlight (s : State) (v w : Nat) : (s.retryFlight v).vdev? w = s.vdev? w := rfl
theorem vdev?_dropTlb (s : State) (p : TlbEntry → Bool) (w : Nat) : (s.dropTlb p).vdev? w = s.vdev? w := rfl

theorem vdev?_raiseGen (s : State) (v w : Nat) :
    (s.raiseGen v).vdev? w = if w = v then (s.vdev? v).map VDev.raised else s.vdev? w := by
  cases hd : s.vdev? v with
  | none =>
    rw [raiseGen_none hd]
    split
    · next h => rw [h, hd]; rfl
    · rfl
  | some d =>
    rw [raiseGen_some hd, ← hd, ← vdev?_modVdev]
    split
    · rw [vdev?_retryFlight, vdev?_dropTlb]
    · rfl

theorem mode?_raiseGen (s : State) (v w : Nat) : (s.raiseGen v).mode? w = s.mode? w := by
  unfold State.mode?
  rw [vdev?_raiseGen]
  split
  · next h =>
    subst h
    cases s.vdev? w <;> rfl
  · rfl

/-- A kill that the supervisor cluster orders, as it stands in the list (R408). -/
def State.killOf (s : State) (scope : KillScope) (root : Cause) (mailbox : Bool) : Kill :=
  { scope := scope, stage := .drain, drained := [], began := s.clk, root := root, firstSlot := none, mailbox := mailbox, resets := false }

theorem kills_of_noWork {s t : State} (h : s.noWork = t.noWork) : s.kills = t.kills := by
  have hkills := congrArg State.kills h
  exact hkills

theorem mbBusy_of_noWork {s t : State} (h : s.noWork = t.noWork) : s.mbBusy = t.mbBusy := by
  have hbusy := congrArg State.mbBusy h
  exact hbusy

theorem clk_of_noWork {s t : State} (h : s.noWork = t.noWork) : s.clk = t.clk := by
  have hclk := congrArg State.clk h
  exact hclk

theorem kills_of_noFlight {s t : State} (h : s.noFlight = t.noFlight) : s.kills = t.kills := by
  have hkills := congrArg State.kills h
  exact hkills

theorem mbBusy_of_noFlight {s t : State} (h : s.noFlight = t.noFlight) : s.mbBusy = t.mbBusy := by
  have hbusy := congrArg State.mbBusy h
  exact hbusy

theorem pushKill_kills (s : State) (scope : KillScope) (root : Cause) (mailbox : Bool) :
    (s.pushKill scope root mailbox).kills = s.kills ++ [s.killOf scope root mailbox] := rfl

theorem startKill_kills (s : State) (scope : KillScope) (mailbox : Bool) :
    (s.startKill scope mailbox).kills = s.kills ++ [s.killOf scope s.orderedCause mailbox] := by
  have hkept := killAll_noWork s scope s.orderedCause
  unfold State.startKill
  rw [pushKill_kills, kills_of_noWork hkept]
  unfold State.killOf
  rw [clk_of_noWork hkept]

theorem pushKill_mbBusy (s : State) (scope : KillScope) (root : Cause) (mailbox : Bool) :
    (s.pushKill scope root mailbox).mbBusy = s.mbBusy := rfl

theorem startKill_mbBusy (s : State) (scope : KillScope) (mailbox : Bool) : (s.startKill scope mailbox).mbBusy = s.mbBusy := by
  unfold State.startKill
  rw [pushKill_mbBusy, mbBusy_of_noWork (killAll_noWork ..)]

theorem mode?_pushKill (s : State) (scope : KillScope) (root : Cause) (mailbox : Bool) (v : Nat) :
    (s.pushKill scope root mailbox).mode? v = s.mode? v := rfl

theorem mode?_startKill (s : State) (scope : KillScope) (mailbox : Bool) (v : Nat) : (s.startKill scope mailbox).mode? v = s.mode? v := by
  unfold State.startKill
  rw [mode?_pushKill, mode?_killAll]

/-! ### The kill of a device's work -/

/-- A device that is DRAINING from now on (R408). -/
def VDev.draining (d : VDev) : VDev := { d with modeBefore := d.mode, mode := 4 }

/-- A space's gates are held on both dies. -/
def State.heldGates (s : State) (v : Fin 512) : State :=
  { s with gates := tset false (tset false s.gates (513 * 0 + v.val) true) (513 * 1 + v.val) true }

theorem heldGates_kills (s : State) (v : Fin 512) : (s.heldGates v).kills = s.kills := rfl
theorem heldGates_mbBusy (s : State) (v : Fin 512) : (s.heldGates v).mbBusy = s.mbBusy := rfl

theorem mode?_heldGates (s : State) (v : Fin 512) (w : Nat) : (s.heldGates v).mode? w = s.mode? w := rfl

/-- The state of a device's kill before its courses are killed (R408 step 1). -/
def State.drainBegun (s : State) (v : Fin 512) : State := ((s.modVdev v VDev.draining).heldGates v).raiseGen v

theorem killDevice_eq (s : State) (v : Fin 512) (destroy mailbox : Bool) :
    s.killDevice v destroy mailbox = (s.drainBegun v).startKill (.device v destroy) mailbox := rfl

theorem drainBegun_kept (s : State) (v : Fin 512) : (s.drainBegun v).kills = s.kills ∧ (s.drainBegun v).mbBusy = s.mbBusy := by
  have hgen := raiseGen_noFlight ((s.modVdev v VDev.draining).heldGates v) v
  have hdev := modVdev_noFlight s v VDev.draining
  unfold State.drainBegun
  rw [kills_of_noFlight hgen, mbBusy_of_noFlight hgen, heldGates_kills, heldGates_mbBusy]
  exact ⟨kills_of_noFlight hdev, mbBusy_of_noFlight hdev⟩

theorem mode?_drainBegun {s : State} {v : Fin 512} {d : VDev} (hd : s.vdev? v = some d) : (s.drainBegun v).mode? v = some 4 := by
  unfold State.drainBegun
  rw [mode?_raiseGen, mode?_heldGates]
  unfold State.mode?
  rw [vdev?_modVdev, if_pos rfl, hd]
  rfl

/-- The kill of a device's work: the device is DRAINING, and the kill is in the list. -/
theorem killDevice_starts {s : State} {v : Fin 512} {d : VDev} (destroy mailbox : Bool) (hd : s.vdev? v = some d) :
    ∃ d' x, (s.killDevice v destroy mailbox).mbBusy = s.mbBusy ∧ (s.killDevice v destroy mailbox).vdev? v = some d' ∧ d'.mode = 4 ∧
      (s.killDevice v destroy mailbox).kills = s.kills ++ [x] ∧ x.scope = .device v destroy ∧ x.stage = .drain ∧ x.mailbox = mailbox := by
  obtain ⟨hkills, hbusy⟩ := drainBegun_kept s v
  rw [killDevice_eq]
  obtain ⟨d', hd', hm'⟩ := vdev?_of_mode? ((mode?_startKill (s.drainBegun v) (.device v destroy) mailbox v).trans (mode?_drainBegun hd))
  refine ⟨d', (s.drainBegun v).killOf (.device v destroy) (s.drainBegun v).orderedCause mailbox, (startKill_mbBusy ..).trans hbusy, hd', hm', ?_,
    rfl, rfl, rfl⟩
  rw [startKill_kills, hkills]

/-! ### SETSET -/

theorem isSome_modVdev (s : State) (v : Nat) (f : VDev → VDev) (w : Nat) : ((s.modVdev v f).vdev? w).isSome = (s.vdev? w).isSome := by
  rw [vdev?_modVdev]
  split
  · next h => rw [Option.isSome_map, h]
  · rfl

theorem isSome_chargeSlice (s : State) (vd v : Nat) : (((s.chargeSlice vd).vdev? v).isSome) = (s.vdev? v).isSome := by
  unfold State.chargeSlice State.addShare
  rw [isSome_modVdev, isSome_modVdev]

theorem trusses_modVdev (s : State) (v : Nat) (f : VDev → VDev) : (s.modVdev v f).trusses = s.trusses := by
  unfold State.modVdev
  split <;> rfl

theorem sets_modVdev (s : State) (v : Nat) (f : VDev → VDev) : (s.modVdev v f).sets = s.sets := by
  unfold State.modVdev
  split <;> rfl

/-- A device that has moved to a set (R404). -/
def VDev.moved (d : VDev) (n : Fin 32) (x : ClSet) : VDev :=
  { d with set := n, grant := x.mask, moveTo := none, pass := if d.pass < x.floor then x.floor else d.pass, runnable := false }

/-- A set as it is now. -/
def State.withSet (s : State) (n : Nat) (x : ClSet) : State := { s with sets := vput s.sets n x }

/-- The cores once a device's messages have moved to its new grant (R404, R405). -/
def State.movedCores (s : State) (vd : Nat) (d : VDev) (n : Fin 32) : Vector Core 192 :=
  let x := vat s.sets n ClSet.reset
  let old := d.cores
  let new := (List.range 192).filter fun c => x.mask.getLsbD (c / 8)
  let at_ := fun (c : Nat) => (new[(old.takeWhile (· < c)).length]?).getD c
  let msgs : List AMsg := ((old.map fun c => ((s.core c).amsgs.filter fun m => m.vd.val == vd).map fun m =>
    ({ m with target := at_ c } : AMsg))).flatten
  Vector.ofFn fun (i : Fin 192) =>
    { s.cores[i] with amsgs := (s.cores[i].amsgs.filter fun (m : AMsg) => m.vd.val != vd) ++ msgs.filter fun (m : AMsg) => m.target == i.val }

/-- A device's old set without it. -/
def ClSet.without (o : ClSet) (vd : Nat) : ClSet :=
  let into := o.next.map (·.val) == some vd
  let ran := o.running.map (·.val) == some vd
  { o with running := if ran || into then none else o.running, next := if into then none else o.next }

def State.withCores (s : State) (cs : Vector Core 192) : State := { s with cores := cs }

/-- The slice of the device that ran has ended. -/
def State.charged (s : State) (vd : Nat) (o : ClSet) : State :=
  if (o.running.map (·.val) == some vd) && o.next.isNone then s.chargeSlice vd else s

/-- A device that is to move to a set has moved there, and the command is answered. -/
def State.movedTo (s : State) (v : Nat) (d : VDev) (n : Fin 32) : State :=
  ((((s.withCores (s.movedCores v d n)).charged v (vat s.sets d.set ClSet.reset)).withSet d.set
    ((vat s.sets d.set ClSet.reset).without v)).modVdev v (VDev.moved · n (vat s.sets n ClSet.reset))).mbDone 0

theorem finishMove_def (s : State) (v : Nat) : s.finishMove v =
    match s.vdev? v with
    | none => s
    | some d => match d.moveTo with
      | none => s
      | some n => if s.trusses.any fun t => t.ofVd v && t.onCore then s else s.movedTo v d n := rfl

/-- With no truss on a core a SETSET ends at once. -/
theorem finishMove_eq {s : State} {v : Nat} {d : VDev} {n : Fin 32} (hd : s.vdev? v = some d) (hn : d.moveTo = some n)
    (ht : s.trusses = []) : s.finishMove v = s.movedTo v d n := by
  rw [finishMove_def, hd]
  dsimp only
  rw [hn, ht, List.any_nil]
  exact if_neg Bool.false_ne_true

theorem isSome_charged (s : State) (vd : Nat) (o : ClSet) (v : Nat) : ((s.charged vd o).vdev? v).isSome = (s.vdev? v).isSome := by
  unfold State.charged
  split
  · exact isSome_chargeSlice ..
  · rfl

theorem vdev?_withCores (s : State) (cs : Vector Core 192) (v : Nat) : (s.withCores cs).vdev? v = s.vdev? v := rfl
theorem vdev?_mbDone (s : State) (st : BitVec 16) (v : Nat) : (s.mbDone st).vdev? v = s.vdev? v := rfl
theorem vdev?_withSet (s : State) (n : Nat) (x : ClSet) (v : Nat) : (s.withSet n x).vdev? v = s.vdev? v := rfl
theorem vdev?_inBox (s : State) (w : Vector W64 8) (v : Nat) : (s.inBox w).vdev? v = s.vdev? v := rfl

theorem finishMove_ends {s : State} {v : Nat} {d : VDev} {n : Fin 32} (hd : s.vdev? v = some d) (hn : d.moveTo = some n)
    (ht : s.trusses = []) : ∃ d', Answered (s.finishMove v) 0 ∧ (s.finishMove v).vdev? v = some d' ∧ d'.set = n ∧
      d'.grant = (vat s.sets n ClSet.reset).mask ∧ d'.moveTo = none := by
  have hsome : (((s.withCores (s.movedCores v d n)).charged v (vat s.sets d.set ClSet.reset)).vdev? v).isSome = true := by
    rw [isSome_charged, vdev?_withCores, hd]
    rfl
  obtain ⟨e, he⟩ := Option.isSome_iff_exists.mp hsome
  rw [finishMove_eq hd hn ht]
  unfold State.movedTo
  refine ⟨e.moved n (vat s.sets n ClSet.reset), mbDone_answered .., ?_, rfl, rfl, rfl⟩
  rw [vdev?_mbDone, vdev?_modVdev, if_pos rfl, vdev?_withSet, he]
  rfl

/-! ### The obligation -/

section
variable {s : State} {w : Vector W64 8}

/-- The device that a CREATE's command words describe, with the root of its stage 2 (R392). -/
def State.newDevice (s : State) (w : Vector W64 8) (root : Nat) : VDev :=
  VDev.created (BitVec.ofNat 3 (bits w[1].toNat 43 41)) (BitVec.ofNat 8 (bits w[1].toNat 23 16)) root (bits w[1].toNat 40 32)
    w[2].toNat w[3].toNat (bits w[4].toNat 15 0) (bits w[4].toNat 31 16)
    (if w[5].toNat = 0 then ctxNeed (vat s.sets (bits w[1].toNat 28 24) ClSet.reset).mask else w[5].toNat) (bits w[4].toNat 63 32)
    ⟨bits w[1].toNat 28 24 % 32, Nat.mod_lt _ (by decide)⟩ (vat s.sets (bits w[1].toNat 28 24) ClSet.reset).mask

/-- The state with a device made (R392). -/
def State.withDevice (s : State) (v root : Nat) (pool : List Nat) (d : VDev) : State :=
  { s.clearPage root with
    pool := pool, vds := tput s.vds v d, remap := s.remap.filter (fun e => e.1 / 64 != v),
    kickMap := s.kickMap.filter (fun e => e.1 / 512 != v) }

theorem vdev?_withDevice (s : State) (v root : Nat) (pool : List Nat) (d : VDev) : (s.withDevice v root pool d).vdev? v = some d :=
  (tget?_tput s.vds v d v).trans (if_pos rfl)

theorem vdev?_dumpHeader (s : State) (v x : Nat) : (s.dumpHeader v).vdev? x = s.vdev? x := by
  unfold State.vdev?
  rw [dumpHeader_vds]

theorem doCreate_ok {root : Nat} {pool : List Nat} (hv : s.vdev? (argVd w) = none) (hp : s.pool = root :: pool)
    (he : s.createErr w (bits w[1].toNat 28 24) (bits w[1].toNat 43 41) (bits w[1].toNat 23 16) (bits w[1].toNat 40 32) w[2].toNat
      w[3].toNat (bits w[4].toNat 63 32) w[5].toNat (vat s.sets (bits w[1].toNat 28 24) ClSet.reset) = 0) :
    doCreate w (s.inBox (coded w 0x01)) =
      .status (((s.inBox (coded w 0x01)).withDevice (argVd w) root pool (s.newDevice w root)).dumpHeader (argVd w)) okSt := by
  unfold doCreate
  dsimp only
  rw [vdev?_inBox, hv, show (s.inBox (coded w 0x01)).pool = root :: pool from hp]
  exact (if_neg (not_not_intro he)).trans rfl

/-- CREATE whose checks pass (R392). -/
theorem create_ok {root : Nat} {pool : List Nat} (h : MailReady s) (hv : s.vdev? (argVd w) = none) (hp : s.pool = root :: pool)
    (he : s.createErr w (bits w[1].toNat 28 24) (bits w[1].toNat 43 41) (bits w[1].toNat 23 16) (bits w[1].toNat 40 32) w[2].toNat
      w[3].toNat (bits w[4].toNat 63 32) w[5].toNat (vat s.sets (bits w[1].toNat 28 24) ClSet.reset) = 0) :
    ∃ s' d, exec (.create w) s = .next s' ∧ Answered s' 0 ∧ s'.pool = pool ∧ s'.vdev? (argVd w) = some d ∧ d.v = true ∧
      d.mode.toNat = bits w[1].toNat 43 41 ∧ d.weight.toNat = bits w[1].toNat 23 16 ∧ d.hqs = bits w[1].toNat 40 32 ∧ d.s2root = root ∧
      d.s1root = 0 ∧ d.ctxBase = w[2].toNat ∧ d.dumpBase = w[3].toNat ∧ d.set.val = bits w[1].toNat 28 24 ∧ d.pass = 0 ∧
      d.meters = Vector.replicate 10 0 := by
  have hmode : bits w[1].toNat 43 41 < 2 ^ 3 := bits_lt _ _ _
  have hweight : bits w[1].toNat 23 16 < 2 ^ 8 := bits_lt _ _ _
  have hset : bits w[1].toNat 28 24 < 32 := bits_lt _ _ _
  refine ⟨_, s.newDevice w root, congrArg Host.Outcome.next (mailbox_status h (doCreate_ok hv hp he)), mbDone_answered .., dumpHeader_pool .., ?_, rfl, ?_, ?_,
    rfl, rfl, rfl, rfl, rfl, Nat.mod_eq_of_lt hset, rfl, rfl⟩
  · rw [vdev?_mbDone, vdev?_dumpHeader, vdev?_withDevice]
  · exact Nat.mod_eq_of_lt hmode
  · exact Nat.mod_eq_of_lt hweight

variable {d : VDev} (h : MailReady s) (hd : s.vdev? (argVd w) = some d) (hm : d.mode ≠ 4)
include h hd hm

theorem exec_destroy : exec (.destroy w) s = .next ((s.inBox (coded w 0x02)).destroyWork (fin512 (argVd w))) :=
  congrArg Host.Outcome.next (mailbox_later h (onDevice_some _ hd hm))

/-- DESTROY with no switch into the device under way (R399, R408). -/
theorem destroy_starts (hsw : s.switchingTo (fin512 (argVd w)) = false) :
    ∃ s' d' x, exec (.destroy w) s = .next s' ∧ s'.mbBusy = true ∧ s'.vdev? (argVd w) = some d' ∧ d'.mode = 4 ∧
      s'.kills = s.kills ++ [x] ∧ x.scope = .device (fin512 (argVd w)) true ∧ x.stage = .drain ∧ x.mailbox = true := by
  have hrun : (s.inBox (coded w 0x02)).destroyWork (fin512 (argVd w)) = (s.inBox (coded w 0x02)).killDevice (fin512 (argVd w)) true true :=
    if_neg (ne_true_of_eq_false hsw)
  have hd' : (s.inBox (coded w 0x02)).vdev? (fin512 (argVd w)) = some d := (fin512_argVd w).symm ▸ hd
  obtain ⟨d', x, hbusy, hdev, hrest⟩ := killDevice_starts true true hd'
  rw [fin512_argVd] at hdev
  exact ⟨_, d', x, (exec_destroy h hd hm).trans (congrArg Host.Outcome.next hrun), hbusy, hdev, hrest⟩

/-- DESTROY during a switch into the device waits (R416). -/
theorem destroy_waits (hsw : s.switchingTo (fin512 (argVd w)) = true) :
    ∃ s' x, exec (.destroy w) s = .next s' ∧ s'.mbBusy = true ∧ s'.vds = s.vds ∧
      s'.kills = s.kills ++ [x] ∧ x.scope = .device (fin512 (argVd w)) true ∧ x.stage = .wait ∧ x.mailbox = true :=
  ⟨_, _, (exec_destroy h hd hm).trans (congrArg Host.Outcome.next (if_pos hsw)), rfl, rfl, rfl, rfl, rfl, rfl⟩

theorem setweight_ok (hw : bits w[2].toNat 7 0 ≠ 0) : ∃ s', exec (.setweight w) s = .next s' ∧ Answered s' 0 ∧
    s'.vdev? (argVd w) = some { d with weight := BitVec.ofNat 8 (bits w[2].toNat 7 0) } := by
  have hrun : doSetweight w (s.inBox (coded w 0x03)) = .status ((s.inBox (coded w 0x03)).modVdev (argVd w) fun d =>
      { d with weight := BitVec.ofNat 8 (bits w[2].toNat 7 0) }) okSt := by
    unfold doSetweight
    rw [onDevice_inBox _ hd hm, if_neg hw]
  refine ⟨_, congrArg Host.Outcome.next (mailbox_status h hrun), mbDone_answered .., ?_⟩
  rw [vdev?_mbDone, vdev?_modVdev, if_pos rfl, vdev?_inBox, hd]
  rfl

theorem setweight_zero (hw : bits w[2].toNat 7 0 = 0) : ∃ s', exec (.setweight w) s = .next s' ∧ Answered s' 1 ∧ s'.vds = s.vds := by
  have hrun : doSetweight w (s.inBox (coded w 0x03)) = .status (s.inBox (coded w 0x03)) badArg := by
    unfold doSetweight
    rw [onDevice_inBox _ hd hm, if_pos hw]
  exact ⟨_, congrArg Host.Outcome.next (mailbox_status h hrun), mbDone_answered .., rfl⟩

theorem setmode_ok (hw : bits w[2].toNat 2 0 ≤ 3) : ∃ s', exec (.setmode w) s = .next s' ∧ Answered s' 0 ∧
    s'.vdev? (argVd w) = some { d with mode := BitVec.ofNat 3 (bits w[2].toNat 2 0) } := by
  have hrun : doSetmode w (s.inBox (coded w 0x06)) = .status ((s.inBox (coded w 0x06)).modVdev (argVd w) fun d =>
      { d with mode := BitVec.ofNat 3 (bits w[2].toNat 2 0) }) okSt := by
    unfold doSetmode
    rw [onDevice_inBox _ hd hm]
    exact if_neg hw.not_gt
  refine ⟨_, congrArg Host.Outcome.next (mailbox_status h hrun), mbDone_answered .., ?_⟩
  rw [vdev?_mbDone, vdev?_modVdev, if_pos rfl, vdev?_inBox, hd]
  rfl

/-- A device that is to move to a set. -/
def VDev.movingTo (d : VDev) (n : Nat) : VDev := { d with moveTo := some ⟨n % 32, Nat.mod_lt _ (by decide)⟩ }

/-- The trusses of a device are to leave. -/
def State.allLeave (s : State) (v : Nat) : State :=
  { s with trusses := s.trusses.map fun t => if t.ofVd v && t.onCore then { t with evict := true } else t }

omit h hd hm in
theorem vdev?_allLeave (s : State) (v x : Nat) : (s.allLeave v).vdev? x = s.vdev? x := rfl

omit h hd hm in
theorem sets_allLeave (s : State) (v : Nat) : (s.allLeave v).sets = s.sets := rfl

omit h hd hm in
theorem trusses_allLeave (s : State) (v : Nat) :
    (s.allLeave v).trusses = s.trusses.map fun t => if t.ofVd v && t.onCore then { t with evict := true } else t := rfl

omit h hd hm in
theorem trusses_inBox (s : State) (w : Vector W64 8) : (s.inBox w).trusses = s.trusses := rfl

omit h in
theorem doSetset_ok (hdef : (vat s.sets (bits w[2].toNat 4 0) ClSet.reset).defined = true)
    (hctx : ctxNeed (vat s.sets (bits w[2].toNat 4 0) ClSet.reset).mask ≤ d.ctxSize)
    (hfit : s.launchesFit (argVd w) d (vat s.sets (bits w[2].toNat 4 0) ClSet.reset).mask = true) :
    doSetset w s = .later (((s.modVdev (argVd w) (VDev.movingTo · (bits w[2].toNat 4 0))).allLeave (argVd w)).finishMove (argVd w)) := by
  unfold doSetset
  dsimp only
  rw [onDevice_some _ hd hm, if_neg (by rw [hdef]; decide), if_neg (by rw [hfit]; simpa using hctx)]
  rfl

/-- SETSET with no truss and no launch in its way (R404). -/
theorem setset_ok (hdef : (vat s.sets (bits w[2].toNat 4 0) ClSet.reset).defined = true)
    (hctx : ctxNeed (vat s.sets (bits w[2].toNat 4 0) ClSet.reset).mask ≤ d.ctxSize) (ht : s.trusses = []) (hl : s.launches = []) :
    ∃ s' d', exec (.setset w) s = .next s' ∧ Answered s' 0 ∧ s'.vdev? (argVd w) = some d' ∧ d'.set.val = bits w[2].toNat 4 0 ∧
      d'.grant = (vat s.sets (bits w[2].toNat 4 0) ClSet.reset).mask ∧ d'.moveTo = none := by
  have hset : bits w[2].toNat 4 0 % 32 = bits w[2].toNat 4 0 := Nat.mod_eq_of_lt (bits_lt _ 4 0)
  have hfit : (s.inBox (coded w 0x05)).launchesFit (argVd w) d (vat s.sets (bits w[2].toNat 4 0) ClSet.reset).mask = true := by
    unfold State.launchesFit
    rw [show (s.inBox (coded w 0x05)).launches = [] from hl]
    rfl
  have hrun := doSetset_ok (s := s.inBox (coded w 0x05)) hd hm hdef hctx hfit
  obtain ⟨d', hans, hdev, hset', hgrant, hmove⟩ := finishMove_ends
    (s := ((s.inBox (coded w 0x05)).modVdev (argVd w) (VDev.movingTo · (bits w[2].toNat 4 0))).allLeave (argVd w)) (v := argVd w)
    (d := d.movingTo (bits w[2].toNat 4 0)) (n := ⟨bits w[2].toNat 4 0 % 32, Nat.mod_lt _ (by decide)⟩)
    (by
      rw [vdev?_allLeave, vdev?_modVdev, if_pos rfl, vdev?_inBox, hd]
      rfl)
    rfl
    (by rw [trusses_allLeave, trusses_modVdev, trusses_inBox, ht]; rfl)
  refine ⟨_, d', congrArg Host.Outcome.next (mailbox_later h hrun), hans, hdev, ?_, ?_, hmove⟩
  · rw [hset']; exact hset
  · rw [hgrant, sets_allLeave, sets_modVdev]
    exact congrArg (fun n => (vat s.sets n ClSet.reset).mask) hset

end

/-- SETMODE of a device that is not there (R399). -/
theorem setmode_none {s : State} {w : Vector W64 8} (h : MailReady s) (hd : s.vdev? (argVd w) = none) :
    ∃ s', exec (.setmode w) s = .next s' ∧ Answered s' 5 ∧ s'.vds = s.vds := by
  have hrun : doSetmode w (s.inBox (coded w 0x06)) = .status (s.inBox (coded w 0x06)) noVdSt := onDevice_none _ hd
  exact ⟨_, congrArg Host.Outcome.next (mailbox_status h hrun), mbDone_answered .., rfl⟩

/-- No other set shares a cluster with the mask. -/
theorem defset_disjoint {sets : Vector ClSet 32} {n : Nat} {m : BitVec 24}
    (h : ∀ k : Fin 32, k.val ≠ n → sets[k].defined = true → sets[k].mask &&& m = 0) :
    ((List.range 32).any fun k => k != n && (vat sets k ClSet.reset).defined && (vat sets k ClSet.reset).mask &&& m != 0) = false := by
  rw [List.any_eq_false]
  intro k hk
  have hlt : k < 32 := List.mem_range.mp hk
  have hat : vat sets k ClSet.reset = sets[(⟨k, hlt⟩ : Fin 32)] := dif_pos hlt
  rw [hat]
  simp only [Bool.and_eq_true, bne_iff_ne, not_and, not_not]
  intro ⟨hne, hdef⟩
  exact h ⟨k, hlt⟩ hne hdef

theorem defset_ok {s : State} {w : Vector W64 8} (h : MailReady s) (hh : s.holders (bits w[1].toNat 4 0) = [])
    (hdis : ∀ k : Fin 32, k.val ≠ bits w[1].toNat 4 0 → s.sets[k].defined = true → s.sets[k].mask &&& w[2].truncate 24 = 0) :
    ∃ s', exec (.defset w) s = .next s' ∧ Answered s' 0 ∧
      s'.sets = vput s.sets (bits w[1].toNat 4 0) { ClSet.reset with defined := true, mask := w[2].truncate 24 } := by
  have hrun : doDefset w (s.inBox (coded w 0x04)) = .status ((s.inBox (coded w 0x04)).withSet (bits w[1].toNat 4 0)
      { ClSet.reset with defined := true, mask := w[2].truncate 24 }) okSt := by
    refine (if_neg ?_).trans rfl
    rw [show (s.inBox (coded w 0x04)).holders (bits w[1].toNat 4 0) = [] from hh,
      show (s.inBox (coded w 0x04)).sets = s.sets from rfl, defset_disjoint hdis]
    decide
  exact ⟨_, congrArg Host.Outcome.next (mailbox_status h hrun), mbDone_answered .., rfl⟩

theorem mailbox_busy {s : State} (w : Vector W64 8) (f : State → Ended) (hp : s.power = .ready) (hb : s.mbBusy = true) :
    mailbox s w f = s.discard := by
  unfold mailbox
  rw [if_neg (not_not_intro hp), if_pos hb]

/-- Settles O46: each command's meaning, run from the mailbox. -/
theorem deviceCommands : Obligations.DeviceCommands := by
  refine ⟨fun s w root pool h hv hp he => create_ok h hv hp he, fun s w d h hd hm => ?_, fun s w h hd => setmode_none h hd,
    fun s w h hh hdis => defset_ok h hh hdis, fun s w hp hb => congrArg Host.Outcome.next (mailbox_busy _ _ hp hb)⟩
  exact ⟨destroy_starts h hd hm, destroy_waits h hd hm, setweight_ok h hd hm, setweight_zero h hd hm, setmode_ok h hd hm, setset_ok h hd hm⟩

end Sys2Proof.Machine
end

section
/-!
PROOFS. The commands of the fabric page (18 R418, R430, R432, R436).
-/
namespace Sys2Proof.Machine

/-- What a table holds at a key just written, when it is no default. -/
theorem tget_tset_self {α : Type} [DecidableEq α] {d x : α} (h : x ≠ d) (t : Tbl α) (k : Nat) : tget d (tset d t k x) k = x := by
  induction t with
  | nil => simp [tset, tget, h]
  | cons e t ih =>
    obtain ⟨j, y⟩ := e
    unfold tset
    by_cases hkj : k = j
    · simp [tget, h, hkj]
    · by_cases hlt : k < j
      · simp [tget, h, hkj, hlt]
      · simp only [if_neg hkj, if_neg hlt]
        simp [tget, hkj, hlt, ih]

/-! ### A change of the fabric while nothing is under way -/

theorem routeAll_nil (s : State) (n : Nat) : s.routeAll [] n = s := by
  cases n <;> rfl

def State.keepInbound (s : State) (p : Inbound → Bool) : State := { s with inbound := s.inbound.filter fun i => !p i }

theorem keepInbound_nil {s : State} (p : Inbound → Bool) (h : s.inbound = []) : s.keepInbound p = s := by
  cases s
  cases h
  rfl

theorem dropInbounds_eq (s : State) (p : Inbound → Bool) : s.dropInbounds p = ((s.inbound.filter p).foldl State.returnOwed s).keepInbound p := rfl

theorem dropInbounds_nil {s : State} (p : Inbound → Bool) (h : s.inbound = []) : s.dropInbounds p = s := by
  rw [dropInbounds_eq, h, List.filter_nil, List.foldl_nil, keepInbound_nil p h]

def State.noXmit (s : State) : State := { s with xmit := [] }

theorem noXmit_nil {s : State} (h : s.xmit = []) : s.noXmit = s := by
  cases s
  cases h
  rfl

/-- Flits that wait are routed again, and what comes from a lost peer is dropped. -/
def State.rerouted (s : State) : State :=
  let s := s.noXmit.routeAll s.xmit 5
  s.dropInbounds fun i => i.link.isSome && s.lostPeer i.x.srcEp

theorem rerouted_idle {s : State} (hx : s.xmit = []) (hi : s.inbound = []) : s.rerouted = s := by
  unfold State.rerouted
  rw [hx, noXmit_nil hx, routeAll_nil, dropInbounds_nil _ hi]

/-- The transfers whose peer is lost end. -/
def State.lostEnded (s : State) : State :=
  let gone := s.outgoing.filter fun o =>
    match o.kind, s.gathers.find? fun g => g.xid == o.xid with
    | .lReq, some g =>
      g.gathering s && (List.range (grpPeers (s.group g.grp))).any fun j => s.lostPeer (grpPeer (s.group g.grp) j)
    | _, _ => s.lostPeer o.dstEp
  gone.foldl (fun s o => s.endOutgoing o.xid o.lost) s

theorem lostEnded_idle {s : State} (ho : s.outgoing = []) : s.lostEnded = s := by
  unfold State.lostEnded
  rw [ho, List.filter_nil]
  rfl

/-- The chunks of groups that lost a peer are freed. -/
def State.chunksTested (s : State) : State :=
  ((s.contribStats.map (·.grp)).dedup).foldl (fun s g => if s.groupAbsent g then s.freeGroup g else s) s

theorem chunksTested_idle {s : State} (hc : s.contribStats = []) : s.chunksTested = s := by
  unfold State.chunksTested
  rw [hc]
  rfl

theorem fabricChanged_eq (s : State) : s.fabricChanged = s.rerouted.lostEnded.chunksTested.fabricDone := rfl

/-- With no flit that waits, no transfer and no contribution, only commands that wait may complete. -/
theorem fabricChanged_idle {s : State} (hx : s.xmit = []) (ho : s.outgoing = []) (hc : s.contribStats = []) (hi : s.inbound = []) :
    s.fabricChanged = s.fabricDone := by
  rw [fabricChanged_eq, rerouted_idle hx hi, lostEnded_idle ho, chunksTested_idle hc]

theorem fabricDone_free {s : State} (h : s.fbBusy = none) : s.fabricDone = s := by
  unfold State.fabricDone
  rw [h]

theorem fabricChanged_free {s : State} (hx : s.xmit = []) (ho : s.outgoing = []) (hc : s.contribStats = []) (hi : s.inbound = [])
    (hb : s.fbBusy = none) : s.fabricChanged = s := (fabricChanged_idle hx ho hc hi).trans (fabricDone_free hb)

/-! ### The doorbell -/

/-- The state in which a fabric command's meaning begins. -/
def State.inFabricBox (s : State) (w : Vector W64 12) : State := { s with fbcmd := w }

theorem fabricCommand_ready {s : State} (w : Vector W64 12) (f : State → State) (h : FabricReady s) :
    fabricCommand s w f = f (s.inFabricBox w) := by
  obtain ⟨hp, hb⟩ := h
  unfold fabricCommand
  rw [if_neg (not_not_intro hp), if_neg (show ¬ s.fbBusy.isSome = true by rw [hb]; decide)]
  rfl

theorem fabricStatus_answered {s : State} (st : BitVec 16) (h : s.fbBusy = none) : FabricAnswered (s.fabricStatus st) st :=
  ⟨h, rfl, List.getLast?_concat⟩

section
variable {s : State} {w : Vector W64 12} (h : FabricReady s)
include h

omit h in
/-- The state with a route register written. -/
theorem exec_fabric {i : Instr} {f : State → State} {t : State} (h : FabricReady s) (hi : exec i s = .next (fabricCommand s w f))
    (hf : f (s.inFabricBox w) = t) : exec i s = .next t := by
  rw [hi, fabricCommand_ready w f h, hf]

def State.withRoute (s : State) (n : Nat) (m : BitVec 16) : State := { s with routes := vput s.routes n m }

theorem route_ok (hx : s.xmit = []) (ho : s.outgoing = []) (hc : s.contribStats = []) (hi : s.inbound = []) :
    ∃ s', exec (.route w) s = .next s' ∧ FabricAnswered s' 0 ∧
      s'.routes = vput s.routes (bits w[1].toNat 6 0) (w[2].truncate 16) ∧ s'.links = s.links := by
  let t := (s.inFabricBox w).withRoute (bits w[1].toNat 6 0) (w[2].truncate 16)
  have ht : t.fabricChanged = t := fabricChanged_free hx ho hc hi h.2
  refine ⟨t.fabricStatus 0, exec_fabric h rfl (congrArg (State.fabricStatus · 0) ht), fabricStatus_answered 0 h.2, rfl, rfl⟩

theorem epset_ok : ∃ s', exec (.epset w) s = .next s' ∧ FabricAnswered s' 0 ∧
    s'.endpoints = tset 0 s.endpoints (bits w[1].toNat 11 0) (w[2].truncate 16) :=
  ⟨_, exec_fabric h rfl rfl, fabricStatus_answered 0 h.2, rfl⟩

/-- A group entry that breaks a rule of R432. -/
theorem gset_bad (hg : s.groupOk #v[w[1], w[2], w[3], w[4], w[5], w[6], w[7], w[8]] = false) :
    ∃ s', exec (.gset w) s = .next s' ∧ FabricAnswered s' 1 ∧ s'.groups = s.groups := by
  have hg' : (s.inFabricBox w).groupOk #v[w[1], w[2], w[3], w[4], w[5], w[6], w[7], w[8]] = false := hg
  refine ⟨_, exec_fabric h rfl (if_pos ?_), fabricStatus_answered 1 h.2, rfl⟩
  rw [hg']
  rfl

omit h in
/-- A group entry that passes the checks has at least two peers. -/
theorem groupOk_ne_zero {e : Vector W64 8} (hg : s.groupOk e = true) : e ≠ Vector.replicate 8 0 := by
  rintro rfl
  unfold State.groupOk at hg
  simp only [Bool.and_eq_true, decide_eq_true_eq] at hg
  obtain ⟨⟨⟨⟨⟨⟨⟨-, hpeers⟩, -⟩, -⟩, -⟩, -⟩, -⟩, -⟩ := hg
  exact absurd hpeers (by decide)

def State.withGroup (s : State) (g : Nat) (e : Vector W64 8) : State := { s with groups := tset (Vector.replicate 8 0) s.groups g e }

/-- A group's chunk numbers begin again. -/
def State.freshChunks (s : State) (g : Nat) : State :=
  { s with nextCn := tset 0 s.nextCn g 0, summed := s.summed.filter fun x => x.1 != g }

theorem gset_ok (hg : s.groupOk #v[w[1], w[2], w[3], w[4], w[5], w[6], w[7], w[8]] = true)
    (hc : ∀ c ∈ s.contribStats, c.grp ≠ bits w[0].toNat 27 16) :
    ∃ s', exec (.gset w) s = .next s' ∧ FabricAnswered s' 0 ∧ s'.group (bits w[0].toNat 27 16) = #v[w[1], w[2], w[3], w[4], w[5], w[6], w[7], w[8]] ∧
      (twf 0 s.nextCn = true → tget 0 s'.nextCn (bits w[0].toNat 27 16) = 0) := by
  have hg' : (s.inFabricBox w).groupOk #v[w[1], w[2], w[3], w[4], w[5], w[6], w[7], w[8]] = true := hg
  have hc' : ((s.inFabricBox w).contribStats.any fun c => c.grp == bits w[0].toNat 27 16) = false := by
    rw [List.any_eq_false]
    intro c hm hcontra
    exact hc c hm (beq_iff_eq.mp hcontra)
  let t := ((s.inFabricBox w).withGroup (bits w[0].toNat 27 16) #v[w[1], w[2], w[3], w[4], w[5], w[6], w[7], w[8]]).freshChunks (bits w[0].toNat 27 16)
  refine ⟨t.fabricStatus 0, exec_fabric h rfl ((if_neg ?_).trans (if_neg (ne_true_of_eq_false hc'))), fabricStatus_answered 0 h.2, ?_, fun hn => ?_⟩
  · rw [hg']
    decide
  · exact tget_tset_self (groupOk_ne_zero hg) ..
  · exact (tget_tset hn _ _ _).trans (if_pos rfl)

end

/-! ### GCLR -/

/-- A state without its links and its transfers at this switch: what the drop of transfers does not change. -/
def State.noInbound (s : State) : State := { s with inbound := [], links := Vector.replicate 16 Link.reset }

theorem returnOwed_noInbound (s : State) (i : Inbound) : (s.returnOwed i).noInbound = s.noInbound := by
  unfold State.returnOwed
  split <;> rfl

theorem keepInbound_noInbound (s : State) (p : Inbound → Bool) : (s.keepInbound p).noInbound = s.noInbound := rfl

theorem dropInbounds_noInbound (s : State) (p : Inbound → Bool) : (s.dropInbounds p).noInbound = s.noInbound := by
  rw [dropInbounds_eq, keepInbound_noInbound]
  exact foldl_keeps _ State.noInbound returnOwed_noInbound _ s

theorem fbBusy_of_noInbound {s t : State} (h : s.noInbound = t.noInbound) : s.fbBusy = t.fbBusy := by
  have hbusy := congrArg State.fbBusy h
  exact hbusy

theorem group_of_noInbound {s t : State} (h : s.noInbound = t.noInbound) (g : Nat) : s.group g = t.group g := by
  have hgroup := congrArg (State.group · g) h
  exact hgroup

/-- A group's chunks that are open, and their contributors, are no more. -/
def State.noChunks (s : State) (g : Nat) : State :=
  { s with contribs := s.contribs.filter fun c => c.grp != g, contribStats := s.contribStats.filter fun c => c.grp != g }

theorem freeGroup_eq (s : State) (g : Nat) : s.freeGroup g =
    (s.contribStats.filter fun c => c.grp == g).foldl (fun s c => s.sendDone (mkTransfer .contrib c.srcEp c.dstEp c.xid) 2)
      ((s.noChunks g).dropInbounds fun i => i.x.kind == .contrib && i.x.grp.toNat == g && i.at_ != 0) := rfl

theorem freeGroup_idle {s : State} (g : Nat) (hc : s.contribStats = []) :
    (s.freeGroup g).fbBusy = s.fbBusy ∧ ∀ k, (s.freeGroup g).group k = s.group k := by
  have hkept := dropInbounds_noInbound (s.noChunks g) fun i => i.x.kind == .contrib && i.x.grp.toNat == g && i.at_ != 0
  rw [freeGroup_eq, hc, List.filter_nil, List.foldl_nil]
  have hbusy : (s.noChunks g).fbBusy = s.fbBusy := rfl
  have hgroups : ∀ k, (s.noChunks g).group k = s.group k := fun _ => rfl
  exact ⟨(fbBusy_of_noInbound hkept).trans hbusy, fun k => (group_of_noInbound hkept k).trans (hgroups k)⟩

/-- A group entry that is not valid. -/
def cleared (e : Vector W64 8) : Vector W64 8 := e.set 0 (e[0] &&& ~~~ (BitVec.ofNat 64 (2 ^ 63)))

theorem grpV_cleared (e : Vector W64 8) : grpV (cleared e) = false := by
  unfold grpV cleared
  rw [Vector.getElem_set_self, BitVec.getLsbD_and, show (~~~ (BitVec.ofNat 64 (2 ^ 63))).getLsbD 63 = false by decide, Bool.and_false]

theorem gclr_ok {s : State} {w : Vector W64 12} (h : FabricReady s) (hw : twf (Vector.replicate 8 0) s.groups = true)
    (hg : s.gathers = []) (hc : s.contribStats = []) :
    ∃ s', exec (.gclr w) s = .next s' ∧ FabricAnswered s' 0 ∧ grpV (s'.group (bits w[0].toNat 27 16)) = false ∧
      ∀ k, k ≠ bits w[0].toNat 27 16 → s'.group k = s.group k := by
  let g := bits w[0].toNat 27 16
  let t := (s.inFabricBox w).withGroup g (cleared (s.group g))
  have hgroup : ∀ k, t.group k = if k = g then cleared (s.group g) else s.group k := fun k => tget_tset hw g _ k
  obtain ⟨hbusy, hgroups⟩ := freeGroup_idle (s := t) g hc
  have hxs : ((t.gathers.filter fun x => x.grp == g && x.gathering t).map (·.xid)) = [] := by
    rw [show t.gathers = [] from hg]
    rfl
  refine ⟨(t.freeGroup g).fabricStatus 0, exec_fabric h rfl ?_, fabricStatus_answered 0 (hbusy.trans h.2), ?_, fun k hk => ?_⟩
  · exact congrArg (fun xs : List W32 => ((xs.foldl (fun s x => s.endOutgoing x 3) t).freeGroup g).fabricStatus 0) hxs
  · exact (congrArg grpV ((hgroups g).trans ((hgroup g).trans (if_pos rfl)))).trans (grpV_cleared _)
  · exact (hgroups k).trans ((hgroup k).trans (if_neg hk))

/-! ### QUIESCE and RELOCK -/

/-- A mask of one link names that link. -/
theorem named_single (n : Fin 16) : (List.range 16).filter (BitVec.ofNat 16 (2 ^ n.val)).getLsbD = [n.val] := by
  revert n
  decide

/-- What a link sends leaves its state, its quiesce and its DRAIN as they are, and loses no flit that it holds. -/
structure SendsOn (a b : Link) : Prop where
  st : b.st = a.st
  quiescing : b.quiescing = a.quiescing
  drainSent : b.drainSent = a.drainSent
  holds : a.replay ≠ [] ∨ a.pend ≠ [] → b.replay ≠ [] ∨ b.pend ≠ []

theorem SendsOn.trans {a b c : Link} (h : SendsOn a b) (k : SendsOn b c) : SendsOn a c :=
  ⟨k.st.trans h.st, k.quiescing.trans h.quiescing, k.drainSent.trans h.drainSent, fun x => k.holds (h.holds x)⟩

theorem pumpFuel_sendsOn (n : Nat) (l : Link) : SendsOn l (l.pumpFuel n) := by
  induction n generalizing l with
  | zero => exact ⟨rfl, rfl, rfl, id⟩
  | succ n ih =>
    unfold Link.pumpFuel
    split
    · exact ⟨rfl, rfl, rfl, id⟩
    · split
      · refine SendsOn.trans ?_ (ih _)
        exact ⟨rfl, rfl, rfl, id⟩
      · split
        · exact ⟨rfl, rfl, rfl, id⟩
        · split
          · exact ⟨rfl, rfl, rfl, id⟩
          · dsimp only
            refine SendsOn.trans ?_ (ih _)
            split
            · exact ⟨rfl, rfl, rfl, fun _ => .inl (by simp [Link.restart, Link.emit, Link.light])⟩
            · exact ⟨rfl, rfl, rfl, fun _ => .inl (by simp [Link.emit, Link.light])⟩


theorem pump_sendsOn (l : Link) : SendsOn l l.pump := pumpFuel_sendsOn _ l

theorem link_fin (s : State) (n : Fin 16) : s.link n = s.links[n] := dif_pos n.isLt

theorem link_modLink (s : State) (n : Fin 16) (f : Link → Link) (m : Nat) :
    (s.modLink n f).link m = if m = n then f (s.link n) else s.link m := by
  refine (vat_vput s.links n (f (s.link n)) Link.reset m).trans ?_
  simp only [n.isLt, and_true]
  rfl

/-- What the change of a link and its sending leave: everything but the link, and the meters (R198). -/
theorem pumpLink_noLines (s : State) (n : Nat) (g : Link → Link) :
    (s.pumpLink n g).noLines = (s.modLink n fun l => (g l).pump).noLines := by
  unfold State.pumpLink
  exact foldl_keeps _ State.noLines (fun s x => addShare_noLines s _ _ _) _ _

theorem links_of_noLines {s t : State} (h : s.noLines = t.noLines) : s.links = t.links := by
  have hlinks := congrArg State.links h
  exact hlinks

theorem link_of_links {s t : State} (h : s.links = t.links) (n : Nat) : s.link n = t.link n := by
  unfold State.link
  rw [h]

/-- No flit waits, no transfer is under way, no chunk is open. -/
structure FabricIdle (s : State) : Prop where
  xmit : s.xmit = []
  outgoing : s.outgoing = []
  contribStats : s.contribStats = []
  inbound : s.inbound = []

theorem FabricIdle.changed {s : State} (h : FabricIdle s) : s.fabricChanged = s.fabricDone :=
  fabricChanged_idle h.xmit h.outgoing h.contribStats h.inbound

theorem FabricIdle.of_noLines {s t : State} (h : FabricIdle t) (he : s.noLines = t.noLines) : FabricIdle s := by
  have hx := congrArg State.xmit he
  have ho := congrArg State.outgoing he
  have hc := congrArg State.contribStats he
  have hi := congrArg State.inbound he
  exact ⟨hx.trans h.xmit, ho.trans h.outgoing, hc.trans h.contribStats, hi.trans h.inbound⟩

/-- A fabric command waits for the links of a mask. -/
def State.fabricWaits (s : State) (quiesce : Bool) (m : BitVec 16) : State := { s with fbBusy := some (quiesce, m) }

/-- A link that a command waits for is as far as the command wants it (R430). -/
def Link.reached (l : Link) (quiesce : Bool) : Bool :=
  if quiesce then l.st == .quiet || l.st == .dark || l.st == .down || (l.st == .up && l.quiescing.isNone)
  else l.st == .up || l.st == .down

/-- A command that has waited for one link ends. -/
def State.fabricEnded (s : State) (quiesce : Bool) (m : BitVec 16) : State :=
  let out := maskOf 16 fun n => m.getLsbD n && (s.link n).st == (if quiesce then .quiet else .up)
  { s with fbBusy := none, fbStatus := 0, fbOut := s.fbOut.set 0 (BitVec.ofNat 64 out), hostOut := s.hostOut ++ [.msix 0 0] }

theorem fabricDone_waits (s : State) (quiesce : Bool) (m : BitVec 16) : (s.fabricWaits quiesce m).fabricDone =
    if ((List.range 16).filter m.getLsbD).all fun n => (s.link n).reached quiesce then (s.fabricWaits quiesce m).fabricEnded quiesce m
    else s.fabricWaits quiesce m := rfl

theorem fabricWaits_single {s : State} {n : Fin 16} (quiesce : Bool) (h : FabricIdle s) :
    (s.fabricWaits quiesce (BitVec.ofNat 16 (2 ^ n.val))).fabricChanged =
      if (s.link n).reached quiesce then (s.fabricWaits quiesce (BitVec.ofNat 16 (2 ^ n.val))).fabricEnded quiesce (BitVec.ofNat 16 (2 ^ n.val))
      else s.fabricWaits quiesce (BitVec.ofNat 16 (2 ^ n.val)) := by
  have hidle : FabricIdle (s.fabricWaits quiesce (BitVec.ofNat 16 (2 ^ n.val))) := ⟨h.xmit, h.outgoing, h.contribStats, h.inbound⟩
  rw [hidle.changed, fabricDone_waits, named_single, List.all_cons, List.all_nil, Bool.and_true]

/-- An UP link stops taking new transfers, and its DRAIN flit is queued (R430 step 1). -/
def State.beginQuiesce (s : State) (n : Nat) : State :=
  let l := s.link n
  if l.st = .up && l.quiescing.isNone then
    ((s.modLink n fun l => { l with quiescing := some s.clk }).sendDrain n).quietCheck n
  else s

theorem exec_quiesce (w : Vector W64 12) (s : State) : exec (.quiesce w) s = .next (fabricCommand s w fun s =>
    if ((List.range 16).filter (w[1].truncate 16 : BitVec 16).getLsbD).any fun n => (s.link n).st == .training then s.fabricStatus 4
    else ((((List.range 16).filter (w[1].truncate 16 : BitVec 16).getLsbD).foldl State.beginQuiesce s).fabricWaits true
      (w[1].truncate 16)).fabricChanged) := rfl

/-- The link as it is quiesced: its DRAIN flit queued behind what it holds. -/
def Link.drainQueued (l : Link) : Link := { l with drainSent := true, pend := l.pend ++ [OutFlit.mk (mkFlit .drain) false] }

theorem sendDrain_sends {s : State} {n : Fin 16} (hst : (s.link n).st = .up) (hq : (s.link n).quiescing.isSome = true)
    (hd : (s.link n).drainSent = false) (hf : ∀ w ∈ s.forwards, w.ended = true ∨ w.out ≠ some n) :
    s.sendDrain n = s.pumpLink n Link.drainQueued := by
  have hnone : (s.forwards.any fun w => !w.ended && w.out.map (·.val) == some n.val) = false := by
    rw [List.any_eq_false]
    intro w hw hcontra
    rw [Bool.and_eq_true, Bool.not_eq_true', beq_iff_eq, Option.map_eq_some_iff] at hcontra
    obtain ⟨hopen, k, hk, hkn⟩ := hcontra
    rcases hf w hw with hended | hout
    · rw [hended] at hopen
      cases hopen
    · exact hout (hk.trans (congrArg some (Fin.ext hkn)))
  refine if_pos ?_
  rw [hst, hq, hd, hnone]
  rfl

/-- A link that still holds a flit is not quiet. -/
theorem quietCheck_holds {s : State} {n : Nat} (h : (s.link n).replay ≠ [] ∨ (s.link n).pend ≠ []) : s.quietCheck n = s := by
  refine if_neg fun hcontra => ?_
  simp only [Bool.and_eq_true, List.isEmpty_iff] at hcontra
  obtain ⟨⟨⟨⟨-, hreplay⟩, hpend⟩, -⟩, -⟩ := hcontra
  rcases h with h | h
  · exact h hreplay
  · exact h hpend


theorem link_fabricWaits (s : State) (quiesce : Bool) (m : BitVec 16) (n : Nat) : (s.fabricWaits quiesce m).link n = s.link n := rfl

/-- The link quiesces from the cycle `clk` on. -/
def Link.quieting (l : Link) (clk : Nat) : Link := { l with quiescing := some clk }

theorem beginQuiesce_eq (s : State) (n : Nat) : s.beginQuiesce n =
    if (s.link n).st = .up && (s.link n).quiescing.isNone then ((s.modLink n (Link.quieting · s.clk)).sendDrain n).quietCheck n else s := rfl

/-- An UP link that is told to quiesce has its DRAIN flit queued, or sent, and is not quiet yet. -/
theorem beginQuiesce_up {s : State} {n : Fin 16} (hst : (s.link n).st = .up) (hq : (s.link n).quiescing = none)
    (hd : (s.link n).drainSent = false) (hf : ∀ w ∈ s.forwards, w.ended = true ∨ w.out ≠ some n) :
    ∃ b : Link, b.st = .up ∧ b.quiescing = some s.clk ∧ b.drainSent = true ∧
      (∀ m, (s.beginQuiesce n).link m = if m = n then b else s.link m) ∧ (FabricIdle s → FabricIdle (s.beginQuiesce n)) := by
  have hlink1 : (s.modLink n (Link.quieting · s.clk)).link n = (s.link n).quieting s.clk := by rw [link_modLink, if_pos rfl]
  have hdrain : (s.modLink n (Link.quieting · s.clk)).sendDrain n = (s.modLink n (Link.quieting · s.clk)).pumpLink n Link.drainQueued :=
    sendDrain_sends (hlink1 ▸ hst) (hlink1 ▸ rfl) (hlink1 ▸ hd) hf
  have hkept := pumpLink_noLines (s.modLink n (Link.quieting · s.clk)) n Link.drainQueued
  have hlink2 : ∀ m, ((s.modLink n (Link.quieting · s.clk)).pumpLink n Link.drainQueued).link m =
      if m = n then ((s.link n).quieting s.clk).drainQueued.pump else s.link m := by
    intro m
    rw [link_of_links (links_of_noLines hkept), link_modLink, hlink1]
    split
    · rfl
    · next hm => rw [link_modLink, if_neg hm]
  have hsends := pump_sendsOn ((s.link n).quieting s.clk).drainQueued
  have hquiet := quietCheck_holds (s := (s.modLink n (Link.quieting · s.clk)).pumpLink n Link.drainQueued) (n := n) (by
    rw [hlink2, if_pos rfl]
    exact hsends.holds (.inr (by simp [Link.drainQueued])))
  have hbegin : s.beginQuiesce n = (s.modLink n (Link.quieting · s.clk)).pumpLink n Link.drainQueued := by
    rw [beginQuiesce_eq, if_pos (by rw [hst, hq]; rfl), hdrain, hquiet]
  rw [hbegin]
  refine ⟨_, hsends.st.trans hst, hsends.quiescing, hsends.drainSent, hlink2, fun hi => ?_⟩
  have hmod : FabricIdle ((s.modLink n (Link.quieting · s.clk)).modLink n fun l => l.drainQueued.pump) :=
    ⟨hi.xmit, hi.outgoing, hi.contribStats, hi.inbound⟩
  exact hmod.of_noLines hkept

/-- The link as a RELOCK leaves it before its phase 1. -/
def Link.relocks (l : Link) : Link := { l with relocking := true, restarts := 0 }

/-- A link trains again, keeping its allowances (R430 step 3). -/
def State.relockLink (s : State) (n : Nat) : State := (s.modLink n Link.relocks).toPhase n 1

theorem exec_relock (w : Vector W64 12) (s : State) : exec (.relock w) s = .next (fabricCommand s w fun s =>
    if ((List.range 16).filter (w[1].truncate 16 : BitVec 16).getLsbD).any fun n => (s.link n).st != .quiet && (s.link n).st != .dark
    then s.fabricStatus 4
    else ((((List.range 16).filter (w[1].truncate 16 : BitVec 16).getLsbD).foldl State.relockLink s).fabricWaits false
      (w[1].truncate 16)).fabricChanged) := rfl

theorem relockLink_link (s : State) (n : Fin 16) : ((s.relockLink n).link n).st = .training ∧ ((s.relockLink n).link n).phase = 1 ∧
    ((s.relockLink n).link n).relocking = true ∧ ((s.relockLink n).link n).allow = (s.link n).allow := by
  unfold State.relockLink State.toPhase
  rw [link_modLink, if_pos rfl, link_modLink, if_pos rfl]
  exact ⟨rfl, rfl, rfl, rfl⟩

section
variable {s : State} {w : Vector W64 12} {n : Fin 16} (h : FabricReady s) (hi : FabricIdle s)
  (hm : (w[1].truncate 16 : BitVec 16) = BitVec.ofNat 16 (2 ^ n.val))
include h hi hm

omit hi in
/-- QUIESCE of one link that does not train. -/
theorem exec_quiesce_single (hst : s.links[n].st ≠ .training) :
    exec (.quiesce w) s =
      .next ((((s.inFabricBox w).beginQuiesce n).fabricWaits true (BitVec.ofNat 16 (2 ^ n.val))).fabricChanged) := by
  have hlink : (s.inFabricBox w).link n = s.links[n] := link_fin s n
  refine exec_fabric h (exec_quiesce w s) ((if_neg ?_).trans ?_)
  · rw [hm, named_single, List.any_cons, List.any_nil, Bool.or_false, hlink, beq_iff_eq]
    exact hst
  · rw [hm, named_single, List.foldl_cons, List.foldl_nil]

theorem quiesce_down (hst : s.links[n].st = .down) : ∃ s', exec (.quiesce w) s = .next s' ∧ FabricAnswered s' 0 ∧ s'.links = s.links := by
  have hlink : (s.inFabricBox w).link n = s.links[n] := link_fin s n
  have hbegin : (s.inFabricBox w).beginQuiesce n = s.inFabricBox w := if_neg (by rw [hlink, hst]; exact Bool.false_ne_true)
  have hreached : ((s.inFabricBox w).link n).reached true = true := by
    unfold Link.reached
    rw [hlink, hst]
    rfl
  have hidle : FabricIdle (s.inFabricBox w) := ⟨hi.xmit, hi.outgoing, hi.contribStats, hi.inbound⟩
  refine ⟨((s.inFabricBox w).fabricWaits true (BitVec.ofNat 16 (2 ^ n.val))).fabricEnded true (BitVec.ofNat 16 (2 ^ n.val)),
    (exec_quiesce_single h hm (by rw [hst]; decide)).trans (congrArg Host.Outcome.next ?_), ⟨rfl, rfl, List.getLast?_concat⟩, rfl⟩
  rw [hbegin, fabricWaits_single true hidle, if_pos hreached]

omit hi in
theorem quiesce_training (hst : s.links[n].st = .training) :
    ∃ s', exec (.quiesce w) s = .next s' ∧ FabricAnswered s' 4 ∧ s'.links = s.links := by
  have hlink : (s.inFabricBox w).link n = s.links[n] := link_fin s n
  refine ⟨_, exec_fabric h (exec_quiesce w s) (if_pos ?_), fabricStatus_answered 4 h.2, rfl⟩
  rw [hm, named_single, List.any_cons, List.any_nil, Bool.or_false, hlink, hst]
  rfl

theorem quiesce_up (hst : s.links[n].st = .up) (hq : s.links[n].quiescing = none) (hd : s.links[n].drainSent = false)
    (hf : ∀ w ∈ s.forwards, w.ended = true ∨ w.out ≠ some n) :
    ∃ s', exec (.quiesce w) s = .next s' ∧ s'.fbBusy = some (true, BitVec.ofNat 16 (2 ^ n.val)) ∧ s'.links[n].quiescing = some s.clk ∧
      s'.links[n].drainSent = true ∧ s'.links[n].st = .up ∧ ∀ m : Fin 16, m ≠ n → s'.links[m] = s.links[m] := by
  have hlink : (s.inFabricBox w).link n = s.links[n] := link_fin s n
  obtain ⟨b, hbst, hbq, hbd, hlinks, hkeeps⟩ := beginQuiesce_up (s := s.inFabricBox w) (n := n) (hlink ▸ hst) (hlink ▸ hq) (hlink ▸ hd) hf
  have hidle : FabricIdle ((s.inFabricBox w).beginQuiesce n) := hkeeps ⟨hi.xmit, hi.outgoing, hi.contribStats, hi.inbound⟩
  have hwaits : (((s.inFabricBox w).beginQuiesce n).link n).reached true = false := by
    rw [hlinks, if_pos rfl]
    unfold Link.reached
    rw [hbst, hbq]
    rfl
  have hself := hlinks n
  rw [if_pos rfl] at hself
  refine ⟨((s.inFabricBox w).beginQuiesce n).fabricWaits true (BitVec.ofNat 16 (2 ^ n.val)),
    (exec_quiesce_single h hm (by rw [hst]; decide)).trans (congrArg Host.Outcome.next ?_), rfl, ?_, ?_, ?_, fun m hmn => ?_⟩
  · rw [fabricWaits_single true hidle, if_neg (ne_true_of_eq_false hwaits)]
  all_goals rw [← link_fin, link_fabricWaits]
  · rw [hself, hbq]
    rfl
  · rw [hself, hbd]
  · rw [hself, hbst]
  · rw [hlinks, if_neg (fun he => hmn (Fin.ext he))]
    exact link_fin s m

omit hi in
theorem relock_up (hst : s.links[n].st = .up) : ∃ s', exec (.relock w) s = .next s' ∧ FabricAnswered s' 4 ∧ s'.links = s.links := by
  have hlink : (s.inFabricBox w).link n = s.links[n] := link_fin s n
  refine ⟨_, exec_fabric h (exec_relock w s) (if_pos ?_), fabricStatus_answered 4 h.2, rfl⟩
  rw [hm, named_single, List.any_cons, List.any_nil, Bool.or_false, hlink, hst]
  rfl

theorem relock_quiet (hst : s.links[n].st = .quiet) : ∃ s', exec (.relock w) s = .next s' ∧ s'.fbBusy = some (false, BitVec.ofNat 16 (2 ^ n.val)) ∧
    s'.links[n].st = .training ∧ s'.links[n].phase = 1 ∧ s'.links[n].relocking = true ∧ s'.links[n].allow = s.links[n].allow := by
  have hlink : (s.inFabricBox w).link n = s.links[n] := link_fin s n
  obtain ⟨htrain, hphase, hrelock, hallow⟩ := relockLink_link (s.inFabricBox w) n
  have hidle : FabricIdle ((s.inFabricBox w).relockLink n) := ⟨hi.xmit, hi.outgoing, hi.contribStats, hi.inbound⟩
  have hwaits : (((s.inFabricBox w).relockLink n).link n).reached false = false := by
    unfold Link.reached
    rw [htrain]
    rfl
  refine ⟨((s.inFabricBox w).relockLink n).fabricWaits false (BitVec.ofNat 16 (2 ^ n.val)),
    exec_fabric h (exec_relock w s) ((if_neg ?_).trans ?_), rfl, ?_⟩
  · rw [hm, named_single, List.any_cons, List.any_nil, Bool.or_false, hlink, hst]
    decide
  · rw [hm, named_single, List.foldl_cons, List.foldl_nil, fabricWaits_single false hidle, if_neg (ne_true_of_eq_false hwaits)]
  · rw [← link_fin, link_fabricWaits]
    exact ⟨htrain, hphase, hrelock, hallow.trans (congrArg Link.allow hlink)⟩

end

/-- Settles O50: each command's meaning, run from the fabric page. -/
theorem fabricPageCommands : Obligations.FabricPageCommands := by
  refine ⟨fun s w h => ⟨route_ok h, epset_ok h, gset_bad h, gset_ok h, fun hw hg hc _ => gclr_ok h hw hg hc⟩, fun s w n h hx ho hc hi hm => ?_⟩
  have hidle : FabricIdle s := ⟨hx, ho, hc, hi⟩
  exact ⟨quiesce_up h hidle hm, quiesce_down h hidle hm, quiesce_training h hm, relock_quiet h hidle hm, relock_up h hm⟩

end Sys2Proof.Machine
end

section
/-!
PROOFS. The resets that the mailbox commands (17 R414, R415).
-/
namespace Sys2Proof.Machine

/-! ### What a kill step makes of the courses -/

/-- The states of a truss's courses. -/
def Truss.cstates (t : Truss) : List CState := t.courses.map (·.cstate)

/-- The state of a course. -/
def State.cstate? (s : State) (c : CRef) : Option CState := (s.truss? c.truss).bind (·.cstates[c.course]?)

theorem cstate?_eq (s : State) (c : CRef) : s.cstate? c = (s.course? c).map (·.cstate) := by
  unfold State.cstate? State.course? State.truss? Truss.cstates
  cases s.trusses[c.truss]? <;> simp

theorem wakeBar_cstate (k : Course) (b : Fin 16) (st : W64) : (k.wakeBar b st).cstate = k.cstate := rfl

theorem abandon_cstate (k : Course) : k.abandon.cstate = k.cstate := by
  unfold Course.abandon
  dsimp only
  split <;> rfl

/-- A course as its kill leaves it (R408 step 2). -/
def Course.killed (k : Course) (root : Cause) : Course :=
  { k.closeShadows with cstate := .killed, chain := [root], quarantine := [], barBlocked := none, barWoke := none, stalled := false,
                        late := [], ops := k.ops.map fun o => { o with fault := none } }

/-- The courses of a truss once course `j` is gone: the others' waits end, but of those that are gone already (R57). -/
def Truss.abandoned (t : Truss) (j : Nat) : Truss :=
  { t with courses := (List.range t.courses.length).zipWith (fun i k => if i = j || t.goneMask.getLsbD i then k else k.abandon) t.courses }

/-- A truss once its course `j` is killed. -/
def Truss.killOne (t : Truss) (j : Nat) (root : Cause) : Truss :=
  (((t.modCourse j (Course.killed · root)).abandoned j).killSlots j).markGone j

/-- A part of a course that no end of a wait on a barrier changes. -/
structure KeptByBars {α : Type} (p : Course → α) : Prop where
  wakeBar : ∀ (k : Course) b st, p (k.wakeBar b st) = p k
  abandon : ∀ k : Course, p k.abandon = p k

theorem keptByBars_cstate : KeptByBars Course.cstate := ⟨wakeBar_cstate, abandon_cstate⟩

section
variable {α : Type} {p : Course → α} (h : KeptByBars p)
include h

theorem testBar_kept (t : Truss) (b : Fin 16) : (t.testBar b).courses.map p = t.courses.map p := by
  unfold Truss.testBar
  dsimp only
  split
  · rw [List.map_map]
    exact List.map_congr_left fun k _ => h.wakeBar k b 0
  · rfl

theorem testBars_kept (t : Truss) : t.testBars.courses.map p = t.courses.map p := by
  unfold Truss.testBars
  induction List.finRange 16 generalizing t with
  | nil => rfl
  | cons b bs ih => rw [List.foldl_cons, ih, testBar_kept h]

theorem abandoned_kept (t : Truss) (j : Nat) : (t.abandoned j).courses.map p = t.courses.map p := by
  unfold Truss.abandoned
  apply List.ext_getElem?
  intro i
  simp only [List.getElem?_map, List.getElem?_zipWith]
  cases hk : t.courses[i]? with
  | none => simp
  | some k =>
    have hi : i < t.courses.length := (List.getElem?_eq_some_iff.mp hk).1
    rw [List.getElem?_range hi]
    simp only [Option.map_some, Option.some.injEq]
    split
    · rfl
    · exact h.abandon k

omit h in
theorem killSlots_kept (t : Truss) (j : Nat) : (t.killSlots j).courses.map p = t.courses.map p := rfl

theorem markGone_kept (t : Truss) (j : Nat) : (t.markGone j).courses.map p = t.courses.map p := testBars_kept h _

theorem killOne_kept (t : Truss) (j : Nat) (root : Cause) :
    (t.killOne j root).courses.map p = (t.courses.modify j (Course.killed · root)).map p := by
  unfold Truss.killOne
  rw [markGone_kept h, killSlots_kept, abandoned_kept h]
  rfl

end

theorem killOne_cstates (t : Truss) (j : Nat) (root : Cause) : (t.killOne j root).cstates = t.cstates.modify j fun _ => .killed := by
  unfold Truss.cstates
  rw [killOne_kept keptByBars_cstate]
  apply List.ext_getElem?
  intro i
  simp only [List.getElem?_map, List.getElem?_modify]
  cases t.courses[i]? with
  | none => rfl
  | some k =>
    simp only [Option.map_some]
    split <;> rfl

theorem cstate?_addShare (s : State) (vd m n : Nat) (c : CRef) : (s.addShare vd m n).cstate? c = s.cstate? c := by
  unfold State.cstate? State.truss? State.addShare
  rw [trusses_modVdev]

/-- A course that is gone already takes a further link, until its chain is dumped (R445). -/
def Course.linked (k : Course) (root : Cause) : Course := { k with chain := if k.chain.isEmpty then [] else k.chain ++ [root] }

/-- The kill step of a course that is there, by its state. -/
theorem killStep_eq {s : State} {c : CRef} {t : Truss} {k : Course} (root : Cause) (ht : s.truss? c.truss = some t) (hk : s.course? c = some k) :
    s.killStep c root =
      if k.cstate = .killed then s.modCourse c (Course.linked · root)
      else if k.cstate = .retired then s
      else (s.modTruss c.truss (Truss.killOne · c.course root)).addShare t.space 8 1 := by
  unfold State.killStep
  rw [ht, hk]
  rfl

/-- What a kill step makes of a state. -/
def CState.afterKill (x : CState) : CState := if x = .retired then .retired else .killed

theorem killStep_none {s : State} {c : CRef} (root : Cause) (h : s.course? c = none) : s.killStep c root = s := by
  unfold State.killStep
  rw [h]
  split
  · rename_i hk
    cases hk
  · rfl

theorem truss_of_course {s : State} {c : CRef} {k : Course} (hk : s.course? c = some k) :
    ∃ t, s.truss? c.truss = some t ∧ t.courses[c.course]? = some k := Option.bind_eq_some_iff.mp hk

theorem cstate?_modCourse_keep (s : State) (d : CRef) (f : Course → Course) (hf : ∀ k, (f k).cstate = k.cstate) (c : CRef) :
    (s.modCourse d f).cstate? c = s.cstate? c := by
  rw [cstate?_eq, cstate?_eq, course?_modCourse]
  split
  · cases s.course? c with
    | none => rfl
    | some k => exact congrArg some (hf k)
  · rfl

theorem cstate?_killOne (s : State) (d : CRef) (root : Cause) (c : CRef) : (s.modTruss d.truss (Truss.killOne · d.course root)).cstate? c =
    if c = d then (s.cstate? c).map (fun _ => .killed) else s.cstate? c := by
  obtain ⟨ct, cj⟩ := c
  obtain ⟨dt, dj⟩ := d
  unfold State.cstate?
  rw [truss?_modTruss]
  simp only [CRef.mk.injEq]
  by_cases htruss : ct = dt
  · simp only [htruss, if_true, true_and]
    cases s.truss? dt with
    | none => simp
    | some t =>
      simp only [Option.map_some, Option.bind_some, killOne_cstates, List.getElem?_modify]
      by_cases hcourse : cj = dj
      · simp [hcourse]
      · simp [hcourse, Ne.symm hcourse]
  · simp only [htruss, if_false, false_and]

/-- A kill step kills the course it names, unless it has retired, and changes the state of no other. -/
theorem cstate?_killStep (s : State) (d : CRef) (root : Cause) (c : CRef) :
    (s.killStep d root).cstate? c = if c = d then (s.cstate? c).map CState.afterKill else s.cstate? c := by
  cases hd : s.course? d with
  | none =>
    rw [killStep_none root hd]
    split
    · next hc => rw [hc, cstate?_eq, hd]; rfl
    · rfl
  | some k =>
    obtain ⟨t, ht, -⟩ := truss_of_course hd
    have hstate : s.cstate? d = some k.cstate := by rw [cstate?_eq, hd]; rfl
    rw [killStep_eq root ht hd]
    split
    · next hkilled =>
      rw [cstate?_modCourse_keep s d (Course.linked · root) (fun _ => rfl)]
      split
      · next hc => rw [hc, hstate, hkilled]; rfl
      · rfl
    · split
      · next hretired =>
        split
        · next hc => rw [hc, hstate, hretired]; rfl
        · rfl
      · next hretired =>
        rw [cstate?_addShare, cstate?_killOne]
        split
        · next hc => rw [hc, hstate]; exact congrArg some (if_neg hretired).symm
        · rfl

/-- The kill steps of a list of courses kill each that has not retired. -/
theorem cstate?_killSteps {cs : List CRef} {c : CRef} (hc : c ∈ cs) (root : Cause) {s : State} {x : CState} (hx : s.cstate? c = some x)
    (hlive : x ≠ .retired) : (cs.foldl (fun s c => s.killStep c root) s).cstate? c = some .killed := by
  have hkilled : ∀ (cs : List CRef) (s : State), s.cstate? c = some .killed → (cs.foldl (fun s c => s.killStep c root) s).cstate? c = some .killed := by
    intro cs
    induction cs with
    | nil => exact fun _ h => h
    | cons d cs ih =>
      intro s h
      refine ih _ ?_
      rw [cstate?_killStep, h]
      split <;> rfl
  induction cs generalizing s with
  | nil => cases hc
  | cons d cs ih =>
    rw [List.foldl_cons]
    by_cases hcd : c = d
    · refine hkilled _ _ ?_
      rw [cstate?_killStep, if_pos hcd, hx]
      exact congrArg some (if_neg hlive)
    · refine ih ((List.mem_cons.mp hc).resolve_left hcd) ?_
      rw [cstate?_killStep, if_neg hcd, hx]

/-- The courses that `coursesWhere` lists. -/
theorem mem_coursesWhere {s : State} {sel : CRef → Course → Bool} {c : CRef} :
    c ∈ s.coursesWhere sel ↔ ∃ t k, s.truss? c.truss = some t ∧ t.courses[c.course]? = some k ∧ t.place ≠ .gone ∧ sel c k = true := by
  obtain ⟨ct, cj⟩ := c
  unfold State.coursesWhere
  simp only [List.mem_flatten, List.mem_map, List.mem_range, exists_exists_and_eq_and]
  constructor
  · rintro ⟨n, hn, hmem⟩
    split at hmem
    · next t ht =>
      split at hmem
      · cases hmem
      · next hplace =>
        rw [List.mem_filterMap] at hmem
        obtain ⟨j, hj, hsome⟩ := hmem
        split at hsome
        · next k hk =>
          split at hsome
          · next hsel =>
            simp only [Option.some.injEq, CRef.mk.injEq] at hsome
            obtain ⟨rfl, rfl⟩ := hsome
            exact ⟨t, k, ht, hk, hplace, hsel⟩
          · cases hsome
        · cases hsome
    · cases hmem
  · rintro ⟨t, k, ht, hk, hplace, hsel⟩
    refine ⟨ct, (List.getElem?_eq_some_iff.mp ht).1, ?_⟩
    rw [ht]
    dsimp only
    rw [if_neg hplace, List.mem_filterMap]
    refine ⟨cj, List.mem_range.mpr (List.getElem?_eq_some_iff.mp hk).1, ?_⟩
    rw [hk]
    exact if_pos hsel

theorem course?_of_cstate? {s : State} {c : CRef} {x : CState} (h : s.cstate? c = some x) : ∃ k, s.course? c = some k ∧ k.cstate = x := by
  rw [cstate?_eq] at h
  exact Option.map_eq_some_iff.mp h

theorem course?_eq_some {s : State} {c : CRef} {t : Truss} {k : Course} (ht : s.truss? c.truss = some t)
    (hk : t.courses[c.course]? = some k) : s.course? c = some k := Option.bind_eq_some_iff.mpr ⟨t, ht, hk⟩

/-- The kill of a scope kills every course of it that lives. -/
theorem cstate?_killAll {s : State} {scope : KillScope} {c : CRef} {t : Truss} {k : Course} (root : Cause) (ht : s.truss? c.truss = some t)
    (hk : t.courses[c.course]? = some k) (hplace : t.place ≠ .gone) (hgone : k.gone = false) (hcovers : s.covers scope c = true) :
    (s.killAll scope root).cstate? c = some .killed := by
  have hx : s.cstate? c = some k.cstate := by rw [cstate?_eq, course?_eq_some ht hk]; rfl
  refine cstate?_killSteps (mem_coursesWhere.mpr ⟨t, k, ht, hk, hplace, by rw [hgone, hcovers]; rfl⟩) root hx fun hretired => ?_
  unfold Course.gone at hgone
  rw [hretired] at hgone
  cases hgone

theorem cstate?_pushKill (s : State) (scope : KillScope) (root : Cause) (mailbox : Bool) (c : CRef) :
    (s.pushKill scope root mailbox).cstate? c = s.cstate? c := rfl

/-- A kill begins: the command stays BUSY, a course of its scope that lives is killed, and the kill is in the list (R414). -/
theorem startKill_kills_course {s : State} {scope : KillScope} {c : CRef} {t : Truss} {k : Course} (mailbox : Bool)
    (ht : s.truss? c.truss = some t) (hk : t.courses[c.course]? = some k) (hplace : t.place ≠ .gone) (hgone : k.gone = false)
    (hcovers : s.covers scope c = true) :
    ∃ k', (s.startKill scope mailbox).course? c = some k' ∧ k'.cstate = .killed :=
  course?_of_cstate? ((cstate?_pushKill ..).trans (cstate?_killAll _ ht hk hplace hgone hcovers))

theorem trusses_of_noFlight {s t : State} (h : s.noFlight = t.noFlight) : s.trusses = t.trusses := by
  have htrusses := congrArg State.trusses h
  exact htrusses

theorem truss?_drainBegun (s : State) (v : Fin 512) (n : Nat) : (s.drainBegun v).truss? n = s.truss? n := by
  unfold State.truss? State.drainBegun
  rw [trusses_of_noFlight (raiseGen_noFlight ..)]
  exact congrArg (fun ts : List Truss => ts[n]?) (trusses_modVdev s v VDev.draining)

theorem modify_concat {α : Type} (xs : List α) (x : α) (f : α → α) : (xs ++ [x]).modify xs.length f = xs ++ [f x] := by
  induction xs with
  | nil => rfl
  | cons y xs ih => exact congrArg (y :: ·) ih

/-- The last kill of the list is a RESET's. -/
def State.markReset (s : State) : State := s.modKill (s.kills.length - 1) fun k => { k with resets := true }

theorem markReset_kills {s : State} {ks : List Kill} {x : Kill} (h : s.kills = ks ++ [x]) : s.markReset.kills = ks ++ [{ x with resets := true }] := by
  unfold State.markReset State.modKill
  rw [h, List.length_append, List.length_singleton, Nat.add_sub_cancel]
  exact modify_concat ..

theorem course?_markReset (s : State) (c : CRef) : s.markReset.course? c = s.course? c := rfl
theorem vdev?_markReset (s : State) (v : Nat) : s.markReset.vdev? v = s.vdev? v := rfl
theorem mbBusy_markReset (s : State) : s.markReset.mbBusy = s.mbBusy := rfl

theorem resetWork_eq (s : State) (v : Fin 512) : s.resetWork v = (s.killDevice v false true).markReset := rfl

/-- The RESET of a device's work: the device is DRAINING, a course of it that lives is killed, the kill is in the list (R6, R414). -/
theorem resetWork_starts {s : State} {v : Fin 512} {d : VDev} {c : CRef} {t : Truss} {k : Course} (hd : s.vdev? v = some d)
    (ht : s.truss? c.truss = some t) (hk : t.courses[c.course]? = some k) (hplace : t.place ≠ .gone) (hgone : k.gone = false)
    (hv : t.ofVd v = true) : ∃ d' k' x, (s.resetWork v).mbBusy = s.mbBusy ∧ (s.resetWork v).vdev? v = some d' ∧ d'.mode = 4 ∧
      (s.resetWork v).course? c = some k' ∧ k'.cstate = .killed ∧ (s.resetWork v).kills = s.kills ++ [x] ∧ x.scope = .device v false := by
  obtain ⟨d', x, hbusy, hdev, hmode, hkills, hscope, -, -⟩ := killDevice_starts false true hd
  have ht' : (s.drainBegun v).truss? c.truss = some t := (truss?_drainBegun ..).trans ht
  obtain ⟨k', hk', hkilled⟩ := startKill_kills_course (scope := .device v false) true ht' hk hplace hgone (by
    unfold State.covers
    dsimp only
    rw [ht']
    exact hv)
  rw [← killDevice_eq] at hk'
  rw [resetWork_eq]
  exact ⟨d', k', { x with resets := true }, (mbBusy_markReset _).trans hbusy, (vdev?_markReset ..).trans hdev, hmode,
    (course?_markReset ..).trans hk', hkilled, markReset_kills hkills, hscope⟩

theorem onTarget_some {s : State} {vd : Nat} {d : VDev} (f : VDev → Ended) (hd : s.vdev? vd = some d) (hm : d.mode ≠ 4) :
    onTarget s vd f = f d := by
  unfold onTarget
  rw [hd]
  exact onDevice_some f hd hm

theorem courseAt_inBox (s : State) (w : Vector W64 8) (vd core slot : Nat) : (s.inBox w).courseAt vd core slot = s.courseAt vd core slot := rfl

/-- The course that a RESET names: it lives, in a truss of the device that lies on the core. -/
theorem courseAt_some {s : State} {vd core slot : Nat} {c : CRef} (h : s.courseAt vd core slot = some c) :
    ∃ t k, s.truss? c.truss = some t ∧ t.courses[c.course]? = some k ∧ t.place ≠ .gone ∧ k.gone = false := by
  have hmem := List.mem_of_head? h
  obtain ⟨t, k, ht, hk, hplace, hsel⟩ := mem_coursesWhere.mp hmem
  simp only [Bool.and_eq_true, Bool.not_eq_true'] at hsel
  obtain ⟨⟨hgone, -⟩, -⟩ := hsel
  exact ⟨t, k, ht, hk, hplace, hgone⟩

section
variable {s : State} {w : Vector W64 8} {d : VDev} (h : MailReady s) (hd : s.vdev? (bits w[2].toNat 8 0) = some d) (hm : d.mode ≠ 4)
include h hd hm

omit h in
theorem onTarget_inBox (v : Vector W64 8) (f : VDev → Ended) : onTarget (s.inBox v) (bits w[2].toNat 8 0) f = f d := onTarget_some f hd hm

theorem resetCourse_some {c : CRef} (hc : s.courseAt (bits w[2].toNat 8 0) (bits w[2].toNat 16 9) (bits w[2].toNat 22 17) = some c) :
    ∃ s' k' x, exec (.resetCourse w) s = .next s' ∧ s'.mbBusy = true ∧ s'.course? c = some k' ∧ k'.cstate = .killed ∧
      s'.kills = s.kills ++ [x] ∧ x.scope = .course c ∧ x.mailbox = true := by
  have hrun : doResetCourse w (s.inBox (ofScope w 0)) = .later ((s.inBox (ofScope w 0)).startKill (.course c) true) := by
    unfold doResetCourse
    rw [onTarget_inBox hd hm, courseAt_inBox, hc]
  obtain ⟨t, k, ht, hk, hplace, hgone⟩ := courseAt_some hc
  obtain ⟨k', hk', hkilled⟩ := startKill_kills_course (s := s.inBox (ofScope w 0)) (scope := .course c) true ht hk hplace hgone (beq_self_eq_true c)
  exact ⟨_, k', (s.inBox (ofScope w 0)).killOf (.course c) _ true, congrArg Host.Outcome.next (mailbox_later h hrun), startKill_mbBusy .., hk', hkilled,
    startKill_kills .., rfl, rfl⟩

theorem resetCourse_none (hc : s.courseAt (bits w[2].toNat 8 0) (bits w[2].toNat 16 9) (bits w[2].toNat 22 17) = none) :
    ∃ s', exec (.resetCourse w) s = .next s' ∧ Answered s' 0 ∧ s'.trusses = s.trusses := by
  have hrun : doResetCourse w (s.inBox (ofScope w 0)) = .status (s.inBox (ofScope w 0)) okSt := by
    unfold doResetCourse
    rw [onTarget_inBox hd hm, courseAt_inBox, hc]
  exact ⟨_, congrArg Host.Outcome.next (mailbox_status h hrun), mbDone_answered .., rfl⟩

section
variable {t : Truss} {k : Course} (ht : s.trusses = [t]) (hk : t.courses = [k]) (hv : t.vd.val = bits w[2].toNat 8 0)
  (hplace : t.place = .onCore (bits w[2].toNat 16 9)) (hslot : k.slot = bits w[2].toNat 22 17) (hres : k.cstate = .resident)
  (hkm : t.kernelMode = false)
include ht hk hv hplace hslot hres hkm

theorem resetTruss_first : ∃ s' k' x, exec (.resetTruss w) s = .next s' ∧ s'.mbBusy = true ∧ s'.course? ⟨0, 0⟩ = some k' ∧ k'.cstate = .killed ∧
    s'.kills = s.kills ++ [x] ∧ x.scope = .truss 0 ∧ x.mailbox = true := by
  have ht0 : s.truss? 0 = some t := by unfold State.truss?; rw [ht]; rfl
  have hk0 : t.courses[0]? = some k := by rw [hk]; rfl
  have hfind : ((List.range s.trusses.length).find? fun n => match s.truss? n with
      | some t => t.ofVd (bits w[2].toNat 8 0) && t.place == .onCore (bits w[2].toNat 16 9) && (t.courses.head?.map (·.slot)) == some (bits w[2].toNat 22 17)
      | none => false) = some 0 := by
    rw [ht]
    refine List.find?_cons_of_pos ?_
    rw [ht0]
    simp [Truss.ofVd, hv, hplace, hkm, hk, hslot]
  have hrun : doResetTruss w (s.inBox (ofScope w 1)) = .later ((s.inBox (ofScope w 1)).startKill (.truss 0) true) := by
    unfold doResetTruss
    dsimp only
    rw [onTarget_inBox hd hm]
    refine Eq.trans ?_ (congrArg (fun o : Option Nat => match o with
      | some n => Ended.later ((s.inBox (ofScope w 1)).startKill (.truss n) true)
      | none => .status (s.inBox (ofScope w 1)) okSt) hfind)
    rfl
  obtain ⟨k', hk', hkilled⟩ := startKill_kills_course (s := s.inBox (ofScope w 1)) (scope := .truss 0) (c := ⟨0, 0⟩) true ht0 hk0
    (by rw [hplace]; exact TrussPlace.noConfusion) (by unfold Course.gone; rw [hres]; rfl) rfl
  exact ⟨_, k', (s.inBox (ofScope w 1)).killOf (.truss 0) _ true, congrArg Host.Outcome.next (mailbox_later h hrun), startKill_mbBusy .., hk', hkilled,
    startKill_kills .., rfl, rfl⟩


omit hslot in
theorem resetDevice_work : ∃ s' d' k' x, exec (.resetVirtualDevice w) s = .next s' ∧ s'.mbBusy = true ∧
    s'.vdev? (bits w[2].toNat 8 0) = some d' ∧ d'.mode = 4 ∧ s'.course? ⟨0, 0⟩ = some k' ∧ k'.cstate = .killed ∧
    s'.kills = s.kills ++ [x] ∧ x.scope = .device (fin512 (bits w[2].toNat 8 0)) false := by
  have ht0 : s.truss? 0 = some t := by unfold State.truss?; rw [ht]; rfl
  have hk0 : t.courses[0]? = some k := by rw [hk]; rfl
  have hfin : (fin512 (bits w[2].toNat 8 0)).val = bits w[2].toNat 8 0 := Nat.mod_eq_of_lt (bits_lt _ 8 0)
  have hwork : (s.inBox (ofScope w 2)).holdsWork (bits w[2].toNat 8 0) = true := by
    unfold State.holdsWork
    rw [show (s.inBox (ofScope w 2)).trusses = [t] from ht]
    simp [Truss.ofVd, hv, hplace, hkm]
  have hrun : doResetDevice w (s.inBox (ofScope w 2)) = .later ((s.inBox (ofScope w 2)).resetWork (fin512 (bits w[2].toNat 8 0))) := by
    unfold doResetDevice
    dsimp only
    rw [onTarget_inBox hd hm, if_pos hwork]
  have hd' : (s.inBox (ofScope w 2)).vdev? (fin512 (bits w[2].toNat 8 0)) = some d := hfin.symm ▸ hd
  obtain ⟨d', k', x, hbusy, hdev, hmode, hcourse, hkilled, hkills, hscope⟩ :=
    resetWork_starts hd' (c := ⟨0, 0⟩) ht0 hk0 (by rw [hplace]; exact TrussPlace.noConfusion) (by unfold Course.gone; rw [hres]; rfl)
      (by unfold Truss.ofVd; rw [hkm, hv, hfin]; simp)
  rw [hfin] at hdev
  exact ⟨_, d', k', x, congrArg Host.Outcome.next (mailbox_later h hrun), hbusy, hdev, hmode, hcourse, hkilled, hkills, hscope⟩

end

/-- A device without work after its reset (R414). -/
def VDev.resetIdle (d : VDev) : VDev := { d.resetPage with kdone := false }

theorem resetDevice_idle (hwork : s.holdsWork (bits w[2].toNat 8 0) = false) :
    ∃ s' d', exec (.resetVirtualDevice w) s = .next s' ∧ Answered s' 0 ∧
      s'.vdev? (bits w[2].toNat 8 0) = some d' ∧ d'.s1root = 0 ∧ d'.fltbase = 0 ∧ d'.flttail = 0 ∧ d'.flthead = 0 ∧ d'.vecs = 0 ∧
      d'.gen = d.gen + 1 ∧ d'.mode = d.mode ∧ d'.kdone = false ∧ ∀ e ∈ s'.tlbs, e.space ≠ bits w[2].toNat 8 0 := by
  have hrun : doResetDevice w (s.inBox (ofScope w 2)) = .status ((((s.inBox (ofScope w 2)).modVdev (bits w[2].toNat 8 0)
      VDev.resetIdle).raiseGen (bits w[2].toNat 8 0)).dropTlb fun e => e.space == bits w[2].toNat 8 0) okSt := by
    unfold doResetDevice
    dsimp only
    rw [onTarget_inBox hd hm]
    exact if_neg (ne_true_of_eq_false hwork)
  refine ⟨_, d.resetIdle.raised, congrArg Host.Outcome.next (mailbox_status h hrun), mbDone_answered .., ?_, rfl, rfl, rfl, rfl, rfl, rfl, rfl, rfl,
    fun e he => ?_⟩
  · rw [vdev?_mbDone, vdev?_dropTlb, vdev?_raiseGen, if_pos rfl, vdev?_modVdev, if_pos rfl, vdev?_inBox, hd]
    rfl
  · have hfilter := (List.mem_filter.mp he).2
    rw [Bool.not_eq_true', beq_eq_false_iff_ne] at hfilter
    exact hfilter

end

/-! ### Engines -/

/-- What the reset of an engine keeps: values in memory, and the devices. -/
def State.values (s : State) : Mem × Tbl VDev := (s.mem, s.vds)

theorem dropEarly_values (s : State) (c : CRef) (sel : Access → Bool) : (s.dropEarly c sel).values = s.values := by
  unfold State.dropEarly
  refine foldl_keeps _ State.values (fun s p => ?_) _ s
  split
  · split <;> rfl
  · rfl

theorem resetCore_values (s : State) (n : Nat) : (s.resetCore n).values = s.values :=
  foldl_keeps (fun s c => s.dropEarly c fun _ => true) State.values (fun s c => dropEarly_values s c _) _ s

theorem restartQueue_values (s : State) (n : Nat) (q : QSel) : (s.restartQueue n q).values = s.values := by
  unfold State.restartQueue
  refine foldl_keeps _ State.values (fun s n => ?_) _ s
  rfl

theorem restartNetwork_values (s : State) (n : Nat) : (s.restartNetwork n).values = s.values := by
  unfold State.restartNetwork
  refine foldl_keeps _ State.values (fun s n => ?_) _ s
  rfl

/-- A core's registers and counters as its reset leaves them. -/
def Core.engineReset (c : Core) : Core := { c with strkz := 0, mtint := 65536, ec := Vector.replicate 8 ⟨0, 0⟩, mcount := 0, fenced := 0 }

/-- The reset of a core ends with its registers. -/
theorem resetCore_last (s : State) (n : Nat) : ∃ t : State, s.resetCore n = t.modCore n Core.engineReset := ⟨_, rfl⟩

theorem resetEngine_matrix (s : State) (n : Nat) : s.resetEngine n 2 = (s.restartQueue n .mat).modCore n fun c => { c with matBusy := none } := rfl

theorem resetEngine_values (s : State) (n kind : Nat) : (s.resetEngine n kind).values = s.values := by
  unfold State.resetEngine
  split
  · exact resetCore_values ..
  · exact restartQueue_values ..
  · exact restartQueue_values ..
  · exact restartNetwork_values ..
  all_goals rfl

/-- A state without what an event record changes: the ring, and what goes to the host. -/
def State.noEvents (s : State) : State := { s with evWait := [], evTail := 0, pfHost := [], hostOut := [], hostWait := [] }

theorem pfWrite_noEvents (s : State) (a : Nat) (data : List Byte) : (s.pfWrite a data).noEvents = s.noEvents := by
  unfold State.pfWrite
  split <;> rfl

theorem flushEvents_noEvents (s : State) (n : Nat) : (s.flushEvents n).noEvents = s.noEvents := by
  induction n generalizing s with
  | zero => rfl
  | succ n ih =>
    unfold State.flushEvents
    split
    · split
      · exact (ih _).trans (pfWrite_noEvents ..)
      · rfl
    · rfl

theorem postEvent_noEvents (s : State) (kind die vdid extra : Nat) (w2 w3 : W64) :
    (s.postEvent kind die vdid extra w2 w3).noEvents = s.noEvents := flushEvents_noEvents _ _

theorem resetNoted_values (s : State) (n kind : Nat) : (s.resetNoted n kind).values = s.values := by
  have hevent := congrArg State.values (postEvent_noEvents (s.resetEngine n kind) 0x26 2 noVd 0 (BitVec.ofNat 64 (n + kind * 2 ^ 8)) 0)
  exact Eq.trans hevent (resetEngine_values s n kind)

theorem resetNoted_core (s : State) (n kind m : Nat) : (s.resetNoted n kind).core m = (s.resetEngine n kind).core m := by
  have hevent := congrArg (State.core · m) (postEvent_noEvents (s.resetEngine n kind) 0x26 2 noVd 0 (BitVec.ofNat 64 (n + kind * 2 ^ 8)) 0)
  exact hevent

theorem core_modCore (s : State) (n : Nat) (f : Core → Core) (m : Nat) :
    (s.modCore n f).core m = if m = n ∧ n < 192 then f (s.core n) else s.core m := vat_vput s.cores n _ Core.reset m

theorem resetEngine_ok {s : State} {w : Vector W64 8} (h : MailReady s) (hb : badEngine (bits w[2].toNat 7 0) (bits w[2].toNat 11 8) = false) :
    ∃ s', exec (.resetEngine w) s = .next s' ∧ Answered s' 0 ∧ s'.mem = s.mem ∧ s'.vds = s.vds ∧
      (bits w[2].toNat 11 8 = 2 → (s'.core (bits w[2].toNat 7 0)).matBusy = none) ∧
      (bits w[2].toNat 11 8 = 0 → (s'.core (bits w[2].toNat 7 0)).strkz = 0 ∧ (s'.core (bits w[2].toNat 7 0)).mtint = 65536 ∧
        (s'.core (bits w[2].toNat 7 0)).fenced = 0) := by
  have hrun : doResetEngine w (s.inBox (ofScope w 3)) =
      .status ((s.inBox (ofScope w 3)).resetNoted (bits w[2].toNat 7 0) (bits w[2].toNat 11 8)) okSt := if_neg (ne_true_of_eq_false hb)
  have hvalues := resetNoted_values (s.inBox (ofScope w 3)) (bits w[2].toNat 7 0) (bits w[2].toNat 11 8)
  obtain ⟨hmem, hvds⟩ := Prod.mk.inj hvalues
  have hcore : ∀ m, (((s.inBox (ofScope w 3)).resetNoted (bits w[2].toNat 7 0) (bits w[2].toNat 11 8)).mbDone okSt).core m =
      ((s.inBox (ofScope w 3)).resetEngine (bits w[2].toNat 7 0) (bits w[2].toNat 11 8)).core m := fun m => resetNoted_core ..
  have hlt : bits w[2].toNat 11 8 < 4 → bits w[2].toNat 7 0 < 192 := by
    intro hk
    by_contra hn
    unfold badEngine at hb
    simp at hb
    omega
  refine ⟨_, congrArg Host.Outcome.next (mailbox_status h hrun), mbDone_answered .., hmem, hvds, fun hk => ?_, fun hk => ?_⟩
  · rw [hcore, hk]
    rw [resetEngine_matrix, core_modCore, if_pos ⟨rfl, hlt (by omega)⟩]
  · rw [hcore, hk]
    obtain ⟨t, ht⟩ := resetCore_last (s.inBox (ofScope w 3)) (bits w[2].toNat 7 0)
    rw [show State.resetEngine _ _ 0 = _ from ht, core_modCore, if_pos ⟨rfl, hlt (by omega)⟩]
    exact ⟨rfl, rfl, rfl⟩

/-! ### Columns and links -/

theorem resetColumn_ok {s : State} {w : Vector W64 8} (h : MailReady s) (hc : s.powered.contains (fin16 (bits w[2].toNat 3 0)).val = true)
    (hlen : 4 < s.powered.length) : ∃ s', exec (.resetSliceColumn w) s = .next s' ∧ s'.mbBusy = true ∧
      s'.folds = s.folds ++ [⟨fin16 (bits w[2].toNat 3 0), false, true, false, true, none, [], 0⟩] := by
  have hrun : doResetColumn w (s.inBox (ofScope w 4)) = .later ((s.inBox (ofScope w 4)).beginFold (fin16 (bits w[2].toNat 3 0)) false true false true) := by
    unfold doResetColumn
    dsimp only
    rw [show (s.inBox (ofScope w 4)).powered = s.powered from rfl, hc, if_neg (by decide), if_neg hlen.not_ge]
  exact ⟨_, congrArg Host.Outcome.next (mailbox_later h hrun), rfl, rfl⟩

theorem columnOff_ok {s : State} {w : Vector W64 8} (h : MailReady s) (hc : s.powered.contains (fin16 (bits w[1].toNat 3 0)).val = true)
    (hlen : 4 < s.powered.length) : ∃ s', exec (.columnOff w) s = .next s' ∧ s'.mbBusy = true ∧
      s'.folds = s.folds ++ [⟨fin16 (bits w[1].toNat 3 0), false, false, false, true, none, [], 0⟩] := by
  have hrun : ∀ v, doColumnOff w (s.inBox v) = .later ((s.inBox v).beginFold (fin16 (bits w[1].toNat 3 0)) false false false true) := by
    intro v
    unfold doColumnOff
    dsimp only
    rw [show (s.inBox v).powered = s.powered from rfl, hc, if_neg (by decide), if_neg hlen.not_ge]
  exact ⟨_, congrArg Host.Outcome.next (mailbox_later h (hrun _)), rfl, rfl⟩

/-- COLUMN does not take the last four (R242). -/
theorem columnOff_last {s : State} {w : Vector W64 8} (h : MailReady s) (hc : s.powered.contains (fin16 (bits w[1].toNat 3 0)).val = true)
    (hlen : s.powered.length ≤ 4) : ∃ s', exec (.columnOff w) s = .next s' ∧ Answered s' 3 ∧ s'.folds = s.folds ∧ s'.columns = s.columns := by
  have hrun : ∀ v, doColumnOff w (s.inBox v) = .status (s.inBox v) noRoom := by
    intro v
    unfold doColumnOff
    dsimp only
    rw [show (s.inBox v).powered = s.powered from rfl, hc, if_neg (by decide), if_pos hlen]
  exact ⟨_, congrArg Host.Outcome.next (mailbox_status h (hrun _)), mbDone_answered .., rfl, rfl⟩

theorem columnOn_ok {s : State} {w : Vector W64 8} (h : MailReady s) (hgone : s.columnsGone.getLsbD (fin16 (bits w[1].toNat 3 0)) = false)
    (hoff : s.columns.getLsbD (fin16 (bits w[1].toNat 3 0)) = false) : ∃ s', exec (.columnOn w) s = .next s' ∧ s'.mbBusy = true ∧
      s'.columns = s.columns ||| BitVec.ofNat 16 (2 ^ (fin16 (bits w[1].toNat 3 0)).val) ∧
      s'.folds = s.folds ++ [⟨fin16 (bits w[1].toNat 3 0), true, false, false, true, none, [], 0⟩] := by
  have hrun : ∀ v, doColumnOn w (s.inBox v) = .later ((s.inBox v).beginFold (fin16 (bits w[1].toNat 3 0)) true false false true) := by
    intro v
    refine (if_neg (ne_true_of_eq_false hgone)).trans (if_neg ?_)
    rw [show (s.inBox v).columns.getLsbD (fin16 (bits w[1].toNat 3 0)) = false from hoff]
    exact Bool.false_ne_true
  exact ⟨_, congrArg Host.Outcome.next (mailbox_later h (hrun _)), rfl, rfl, rfl⟩

/-- A link as its reset leaves it before its phase 1. -/
def Link.resets (l : Link) : Link :=
  { l with retrains := 0, txmask := 0, rxmask := 0, restarts := 0, relocking := l.relocking || (l.st != .down && l.st != .training) }

/-- A link is reset with nothing under way. -/
def State.linkReset (s : State) (n : Nat) : State := (s.modLink n fun _ => (s.link n).resets).toPhase n 1

theorem resetLink_eq (s : State) (n : Nat) : s.resetLink n = (s.linkReset n).fabricChanged := rfl

theorem linkReset_link {s : State} {n : Fin 16} (hdown : (s.link n).st ≠ .down) (htrain : (s.link n).st ≠ .training) :
    ((s.linkReset n).link n).st = .training ∧ ((s.linkReset n).link n).phase = 1 ∧ ((s.linkReset n).link n).retrains = 0 ∧
      ((s.linkReset n).link n).replay = (s.link n).replay := by
  have hrelock : (s.link n).resets.relocking = true := by
    unfold Link.resets
    simp [hdown, htrain]
  unfold State.linkReset State.toPhase
  rw [link_modLink, if_pos rfl, link_modLink, if_pos rfl]
  dsimp only
  rw [hrelock]
  exact ⟨rfl, rfl, rfl, rfl⟩

theorem idle_linkReset {s : State} {n : Nat} (h : FabricIdle s) : FabricIdle (s.linkReset n) := ⟨h.xmit, h.outgoing, h.contribStats, h.inbound⟩

theorem fbBusy_linkReset (s : State) (n : Nat) : (s.linkReset n).fbBusy = s.fbBusy := rfl

theorem link_mbDone (s : State) (st : BitVec 16) (n : Nat) : (s.mbDone st).link n = s.link n := rfl

theorem link_inBox (s : State) (w : Vector W64 8) (n : Nat) : (s.inBox w).link n = s.link n := rfl

theorem resetLink_ok {s : State} {w : Vector W64 8} (h : MailReady s) (hb : s.fbBusy = none) (hi : FabricIdle s)
    (hdown : (s.link (bits w[2].toNat 3 0)).st ≠ .down) (htrain : (s.link (bits w[2].toNat 3 0)).st ≠ .training) :
    ∃ s', exec (.resetOpticalLink w) s = .next s' ∧ Answered s' 0 ∧ (s'.link (bits w[2].toNat 3 0)).st = .training ∧
      (s'.link (bits w[2].toNat 3 0)).phase = 1 ∧ (s'.link (bits w[2].toNat 3 0)).retrains = 0 ∧
      (s'.link (bits w[2].toNat 3 0)).replay = (s.link (bits w[2].toNat 3 0)).replay := by
  obtain ⟨n, hn⟩ : ∃ n : Fin 16, n.val = bits w[2].toNat 3 0 := ⟨⟨_, bits_lt _ 3 0⟩, rfl⟩
  have hidle : FabricIdle ((s.inBox (ofScope w 5)).linkReset n) := idle_linkReset (s := s.inBox (ofScope w 5)) ⟨hi.xmit, hi.outgoing, hi.contribStats, hi.inbound⟩
  have hbusy : ((s.inBox (ofScope w 5)).linkReset n).fbBusy = none := (fbBusy_linkReset (s.inBox (ofScope w 5)) n).trans hb
  have hchanged : ((s.inBox (ofScope w 5)).linkReset n).fabricChanged = (s.inBox (ofScope w 5)).linkReset n :=
    hidle.changed.trans (fabricDone_free hbusy)
  have hrun : doResetLink w (s.inBox (ofScope w 5)) = .status ((s.inBox (ofScope w 5)).linkReset n) okSt := by
    unfold doResetLink
    rw [← hn, resetLink_eq, hchanged]
  rw [← hn] at hdown htrain ⊢
  refine ⟨_, congrArg Host.Outcome.next (mailbox_status h hrun), mbDone_answered .., ?_⟩
  rw [link_mbDone]
  exact linkReset_link hdown htrain

/-- Settles O48: each reset, run from the mailbox. -/
theorem resetCommands : Obligations.ResetCommands := by
  refine ⟨fun s w d h hd hm => ⟨fun c k hc _ => resetCourse_some h hd hm hc, resetCourse_none h hd hm, fun t k ht hk hv hplace hslot hres hkm => ?_,
    resetDevice_idle h hd hm⟩, fun s w h hb => resetEngine_ok h hb, fun s w h => resetColumn_ok h, fun s w h => ?_, fun s w h hb hx ho hc hi => ?_⟩
  · exact ⟨resetTruss_first h hd hm ht hk hv hplace hslot hres hkm, resetDevice_work h hd hm ht hk hv hplace hres hkm⟩
  · exact ⟨columnOff_ok h, columnOff_last h, columnOn_ok h⟩
  · exact resetLink_ok h hb ⟨hx, ho, hc, hi⟩

end Sys2Proof.Machine
end

section
/-!
PROOFS. A queue control block kept and found again (15 R338, R352).
-/
namespace Sys2Proof.Machine

/-! ### Words written one after another -/

theorem writeBytes_append (m : Mem) (a : Nat) (bs cs : List Byte) : writeBytes m a (bs ++ cs) = writeBytes (writeBytes m a bs) (a + bs.length) cs := by
  induction bs generalizing m a with
  | nil => rfl
  | cons b bs ih =>
    rw [List.cons_append, writeBytes, ih, writeBytes, List.length_cons]
    congr 1
    omega

theorem readBytes_same {m m' : Mem} {a n : Nat} (h : ∀ x, a ≤ x → x < a + n → mget m x = mget m' x) : readBytes m a n = readBytes m' a n := by
  induction n generalizing a with
  | zero => rfl
  | succ n ih =>
    unfold readBytes
    rw [h a (Nat.le_refl _) (by omega), ih fun x h1 h2 => h x (by omega) (by omega)]

/-- A word of a run of words written is read back. -/
theorem readNat_words {m : Mem} (h : Memory.wf m = true) (a : Nat) (ws : List Nat) {i : Nat} (hi : i < ws.length) :
    readNat (writeBytes m a (ws.map (natBytes 8)).flatten) (a + 8 * i) 8 = ws[i] % 2 ^ 64 := by
  induction ws generalizing m a i with
  | nil => cases hi
  | cons w ws ih =>
    rw [List.map_cons, List.flatten_cons, writeBytes_append, natBytes_length]
    have hw : Memory.wf (writeBytes m a (natBytes 8 w)) = true := writeBytes_wf h ..
    cases i with
    | zero =>
      have hfirst : readNat (writeBytes m a (natBytes 8 w)) a 8 = w % 256 ^ 8 := readNat_writeNat h a 8 w
      rw [Nat.mul_zero, Nat.add_zero, List.getElem_cons_zero]
      refine Eq.trans ?_ hfirst
      exact congrArg bytesNat (readBytes_same fun x _ hx => mget_writeBytes_out hw _ _ (.inl hx))
    | succ i =>
      rw [List.getElem_cons_succ, ← ih hw (a + 8) (Nat.lt_of_succ_lt_succ hi)]
      congr 1
      omega

/-! ### The words of a block -/

/-- A block as its words hold it: the ring's base and the host's address have 57 bits. -/
def Qcb.inWords (b : Qcb) : Qcb := { b with rbase := b.rbase % 2 ^ 57, hmir := b.hmir % 2 ^ 57 }

theorem qstateOf_code (st : QState) : qstateOf st.code = st := by
  cases st <;> rfl

theorem code_lt (st : QState) : st.code < 8 := by
  cases st <;> decide

theorem bit_of_div {x i : Nat} {b : Bool} (h : x / 2 ^ i % 2 = b.toNat) : bit x i = b := by
  unfold bit
  rw [Nat.testBit_eq_decide_div_mod_eq, h]
  cases b <;> rfl

theorem ofNat_of_eq {n x : Nat} {y : BitVec n} (h : x % 2 ^ n = y.toNat) : BitVec.ofNat n x = y := by
  apply BitVec.eq_of_toNat_eq
  rw [BitVec.toNat_ofNat, h]

section
variable {v st bp vd rsz kidx : Nat} (hv : v < 2) (hst : st < 8) (hbp : bp < 16) (hvd : vd < 512) (hrsz : rsz < 32) (hkidx : kidx < 512)
include hv hst hbp hvd hrsz hkidx

/-- The fields of word 0. -/
theorem word0_fields : let w := (v * 2 ^ 63 + st * 2 ^ 60 + bp * 2 ^ 56 + vd * 2 ^ 43 + rsz * 2 ^ 38 + kidx) % 2 ^ 64
    w / 2 ^ 63 % 2 = v ∧ bits w 62 60 = st ∧ bits w 59 56 = bp ∧ bits w 51 43 = vd ∧ bits w 42 38 = rsz ∧ bits w 8 0 = kidx := by
  unfold bits
  dsimp only
  omega

end

/-- The fields of a word of two halves. -/
theorem halves_fields {x y : Nat} (hx : x < 2 ^ 32) (hy : y < 2 ^ 32) :
    bits ((x * 2 ^ 32 + y) % 2 ^ 64) 63 32 = x ∧ bits ((x * 2 ^ 32 + y) % 2 ^ 64) 31 0 = y := by
  unfold bits
  omega

/-- The fields of word 5. -/
theorem word5_fields {x y : Nat} (hx : x < 2 ^ 16) (hy : y < 2 ^ 48) :
    bits ((x * 2 ^ 48 + y) % 2 ^ 64) 63 48 = x ∧ bits ((x * 2 ^ 48 + y) % 2 ^ 64) 47 0 = y := by
  unfold bits
  omega

/-- The fields of word 6. -/
theorem word6_fields {x e v y : Nat} (hx : x < 2 ^ 32) (he : e < 2) (hv : v < 64) (hy : y < 256) :
    let w := (x * 2 ^ 32 + e * 2 ^ 15 + v * 2 ^ 8 + y) % 2 ^ 64
    bits w 63 32 = x ∧ w / 2 ^ 15 % 2 = e ∧ bits w 13 8 = v ∧ bits w 7 0 = y := by
  unfold bits
  dsimp only
  omega

/-- A 57-bit address in a word. -/
theorem address_field (x : Nat) : bits (x % 2 ^ 64) 56 0 = x % 2 ^ 57 := by
  unfold bits
  omega

theorem ofNat_toNat_of {n x : Nat} {y : BitVec n} (h : x = y.toNat) : BitVec.ofNat n x = y := by
  rw [h, BitVec.ofNat_toNat, BitVec.setWidth_eq]

theorem fin_of {n x : Nat} {y : Fin n} (h : x = y.val) (hx : x % n < n) : (⟨x % n, hx⟩ : Fin n) = y := by
  exact Fin.ext ((congrArg (· % n) h).trans (Nat.mod_eq_of_lt y.isLt))

/-- The fields of a block are read back from its words. -/
theorem load_word (b : Qcb) (h : b.rsz < 32) : b.load (fun i => b.word i % 2 ^ 64) = b.inWords := by
  obtain ⟨e1, e2, e3, e4, e5, e6⟩ := word0_fields (Bool.toNat_lt b.v) (code_lt b.st) b.bprio.isLt b.vd.isLt h b.kidx.isLt
  obtain ⟨e7, e8⟩ := halves_fields b.tail.isLt b.head.isLt
  obtain ⟨e9, e10⟩ := halves_fields b.eseq.isLt b.retire.isLt
  obtain ⟨e11, e12⟩ := word5_fields b.ageq.isLt b.waitSince.isLt
  obtain ⟨e13, e14, e15, e16⟩ := word6_fields b.errSeq.isLt (Bool.toNat_lt b.een) b.evec.isLt b.err.isLt
  unfold Qcb.load Qcb.inWords
  simp only [Qcb.word, bit_of_div e1, e2, qstateOf_code, ofNat_toNat_of e3, fin_of e4, e5, fin_of e6, ofNat_toNat_of e7, ofNat_toNat_of e8,
    ofNat_toNat_of e9, ofNat_toNat_of e10, ofNat_toNat_of e11, ofNat_toNat_of e12, ofNat_toNat_of e13, bit_of_div e14, fin_of e15,
    ofNat_toNat_of e16, address_field]


/-! ### A block kept -/

/-- The fields of a block that is not mapped are within its words. -/
structure Qcb.Fits (b : Qcb) : Prop where
  rsz : b.rsz < 32
  rbase : b.rbase < 2 ^ 57
  hmir : b.hmir < 2 ^ 57

theorem Qcb.Fits.inWords {b : Qcb} (h : b.Fits) : b.inWords = b := by
  unfold Qcb.inWords
  rw [Nat.mod_eq_of_lt h.rbase, Nat.mod_eq_of_lt h.hmir]

theorem qcbWord_putQcb {s : State} (hm : Memory.wf s.mem = true) (blk : Nat) {b : Qcb} (hslot : b.slot = none) {i : Nat} (hi : i < 24) :
    (s.putQcb blk b).qcbWord blk i = b.word i % 2 ^ 64 := by
  have hmem : (s.putQcb blk b).mem = writeBytes s.mem (s.qcbAddr blk) (((List.range 24).map b.word).map (natBytes 8)).flatten := by
    unfold State.putQcb
    rw [hslot, List.map_map, ← spliceBytes_eq hm]
    rfl
  have hlen : i < ((List.range 24).map b.word).length := by rw [List.length_map, List.length_range]; exact hi
  unfold State.qcbWord
  rw [hmem, show (s.putQcb blk b).qcbAddr blk = s.qcbAddr blk from rfl, readNat_words hm _ _ hlen, List.getElem_map, List.getElem_range]

/-- A block reads only its first seven words. -/
theorem load_congr (b : Qcb) {f g : Nat → Nat} (h : ∀ i, i < 24 → f i = g i) : b.load f = b.load g := by
  unfold Qcb.load
  simp only [h 0 (by decide), h 1 (by decide), h 2 (by decide), h 3 (by decide), h 4 (by decide), h 5 (by decide), h 6 (by decide)]

/-- A block as it is in use: what its slot holds, or what its words hold. -/
def Qcb.used (k : Qcb) (w : Nat → Nat) : Qcb := if k.slot.isSome then k else k.load w

theorem qcb?_eq (s : State) (blk : Nat) : s.qcb? blk =
    if (((tget? s.qcbs blk).getD Qcb.blank).used (s.qcbWord blk)).v then some (((tget? s.qcbs blk).getD Qcb.blank).used (s.qcbWord blk))
    else none := rfl

/-- A block in use is valid, and one that is not mapped is as its words hold it. -/
theorem of_qcb? {s : State} {blk : Nat} {b : Qcb} (h : s.qcb? blk = some b) : b.v = true ∧ ((tget? s.qcbs blk).getD Qcb.blank).used (s.qcbWord blk) = b := by
  rw [qcb?_eq] at h
  by_cases hv : (((tget? s.qcbs blk).getD Qcb.blank).used (s.qcbWord blk)).v = true
  · rw [if_pos hv] at h
    have hb := Option.some.inj h
    exact ⟨hb ▸ hv, hb⟩
  · rw [if_neg hv] at h
    cases h

/-- A block that is kept is found again (R338, R352). -/
theorem qcb?_putQcb {s : State} (hm : Memory.wf s.mem = true) (blk : Nat) {b : Qcb} (hv : b.v = true) (hslot : b.slot = none) (hrsz : b.rsz < 32) :
    (s.putQcb blk b).qcb? blk = some b.inWords := by
  have hkept : (tget? (s.putQcb blk b).qcbs blk).getD Qcb.blank = b := by
    rw [show (s.putQcb blk b).qcbs = tput s.qcbs blk b from rfl, tget?_tput, if_pos rfl]
    rfl
  have hload : b.load ((s.putQcb blk b).qcbWord blk) = b.inWords :=
    (load_congr b fun i hi => qcbWord_putQcb hm blk hslot hi).trans (load_word b hrsz)
  have hused : b.used ((s.putQcb blk b).qcbWord blk) = b.inWords := by
    unfold Qcb.used
    rw [hslot]
    exact hload
  rw [qcb?_eq, hkept, hused]
  exact if_pos hv

theorem v_of_qcb? {s : State} {blk : Nat} {b : Qcb} (h : s.qcb? blk = some b) : b.v = true := (of_qcb? h).1

theorem fits_of_load (k : Qcb) (f : Nat → Nat) : (k.load f).Fits := ⟨bits_lt _ 42 38, bits_lt _ 56 0, bits_lt _ 56 0⟩

theorem fits_of_qcb? {s : State} {blk : Nat} {b : Qcb} (h : s.qcb? blk = some b) (hslot : b.slot = none) : b.Fits := by
  obtain ⟨-, rfl⟩ := of_qcb? h
  unfold Qcb.used at hslot ⊢
  split
  · next hmapped =>
    rw [if_pos hmapped] at hslot
    rw [hslot] at hmapped
    cases hmapped
  · exact fits_of_load ..

/-- A change of a block that keeps its place, its ring and its host address. -/
structure Qcb.Alike (b c : Qcb) : Prop where
  v : c.v = b.v
  slot : c.slot = b.slot
  rsz : c.rsz = b.rsz
  rbase : c.rbase = b.rbase
  hmir : c.hmir = b.hmir

theorem Qcb.Fits.of_alike {b c : Qcb} (h : b.Fits) (ha : b.Alike c) : c.Fits :=
  ⟨ha.rsz.symm ▸ h.rsz, ha.rbase.symm ▸ h.rbase, ha.hmir.symm ▸ h.hmir⟩

theorem modQcb_some {s : State} {blk : Nat} {b : Qcb} (f : Qcb → Qcb) (h : s.qcb? blk = some b) : s.modQcb blk f =
    { s.putQcb blk (f b) with passesDue := s.passesDue + (b.slot.isSome && !b.restful && (f b).restful).toNat } := by
  unfold State.modQcb
  rw [h]

theorem modQcb_none {s : State} {blk : Nat} (f : Qcb → Qcb) (h : s.qcb? blk = none) : s.modQcb blk f = s := by
  unfold State.modQcb
  rw [h]

theorem qcb?_passesDue (s : State) (n blk : Nat) : ({ s with passesDue := n } : State).qcb? blk = s.qcb? blk := rfl

theorem qcb?_putQcb_alike {s : State} {blk : Nat} {b c : Qcb} (h : s.qcb? blk = some b) (hm : b.slot = none → Memory.wf s.mem = true) (ha : b.Alike c) :
    (s.putQcb blk c).qcb? blk = some c := by
  have hv : c.v = true := ha.v.trans (v_of_qcb? h)
  cases hslot : b.slot with
  | none =>
    have hfits := (fits_of_qcb? h hslot).of_alike ha
    rw [qcb?_putQcb (hm hslot) blk hv (ha.slot.trans hslot) hfits.rsz, hfits.inWords]
  | some n => exact qcb?_putQcb_mapped s blk (by rw [ha.slot, hslot]; rfl) hv

/-- A change that keeps a block's place is found again. -/
theorem qcb?_modQcb {s : State} {blk : Nat} {b : Qcb} {f : Qcb → Qcb} (h : s.qcb? blk = some b) (hm : b.slot = none → Memory.wf s.mem = true)
    (ha : b.Alike (f b)) : (s.modQcb blk f).qcb? blk = some (f b) := by
  rw [modQcb_some f h, qcb?_passesDue]
  exact qcb?_putQcb_alike h hm ha

/-- A block that leaves its slot is found again by its words (R352). -/
theorem qcb?_modQcb_unmapped {s : State} {blk : Nat} {b : Qcb} {f : Qcb → Qcb} (h : s.qcb? blk = some b) (hm : Memory.wf s.mem = true)
    (hv : (f b).v = b.v) (hslot : (f b).slot = none) (hrsz : (f b).rsz < 32) : (s.modQcb blk f).qcb? blk = some (f b).inWords := by
  rw [modQcb_some f h, qcb?_passesDue]
  exact qcb?_putQcb hm blk (hv.trans (v_of_qcb? h)) hslot hrsz

/-- A mapped block's change leaves memory. -/
theorem modQcb_mem_mapped {s : State} {blk : Nat} {b : Qcb} {f : Qcb → Qcb} (h : s.qcb? blk = some b) (hslot : (f b).slot.isSome = true) :
    (s.modQcb blk f).mem = s.mem := by
  rw [modQcb_some f h]
  exact if_pos hslot

end Sys2Proof.Machine
end

section
/-!
PROOFS. What a translation leaves alone (10 R215, R219; 17 R396).
-/
namespace Sys2Proof.Machine

/-- A state without what a translation may change: the memories (the accessed bits of tables), the TLBs, the faults that wait, the slices, the
meters, the event counts, and what goes to the host. -/
def State.noReach (s : State) : State :=
  { s.hush with mem := [], hostMem := [], tlbs := [], faults := [], lines := [], dirty := [], folds := [],
                evWait := [], evTail := 0, pfHost := [], hostOut := [], hostWait := [] }

theorem noReach_of_noLines {s t : State} (h : s.noLines = t.noLines) : s.noReach = t.noReach := by
  have hreach := congrArg State.noReach h
  exact hreach

theorem noReach_of_noEvents {s t : State} (h : s.noEvents = t.noEvents) : s.noReach = t.noReach := by
  have hreach := congrArg State.noReach h
  exact hreach

theorem noReach_of_hush {s t : State} (h : s.hush = t.hush) : s.noReach = t.noReach := by
  unfold State.noReach
  rw [h]

/-- A state with its TLBs replaced. -/
def State.withTlbs (s : State) (ts : List TlbEntry) : State := { s with tlbs := ts }

theorem withTlbs_noReach (s : State) (ts : List TlbEntry) : (s.withTlbs ts).noReach = s.noReach := rfl

theorem readTables_noReach (s : State) (space va : Nat) : (s.readTables space va).noReach = s.noReach :=
  noReach_of_noLines (foldl_keeps _ State.noLines (fun s _ => touchLine_noLines s ..) _ s)

def State.withMem (s : State) (m : Mem) : State := { s with mem := m }

theorem withMem_noReach (s : State) (m : Mem) : (s.withMem m).noReach = s.noReach := rfl

def State.withHostMem (s : State) (m : Mem) (out : List HostOut) : State := { s with hostMem := m, hostOut := out }

theorem withHostMem_noReach (s : State) (m : Mem) (out : List HostOut) : (s.withHostMem m out).noReach = s.noReach := rfl

theorem markLeaf_eq (s : State) (vd mask : Nat) (l : Leaf) : s.markLeaf vd mask l =
    if l.host then s.withHostMem (markEntry s.hostMem l.addr mask)
      (s.hostOut ++ (if readNat (markEntry s.hostMem l.addr mask) l.addr 8 = readNat s.hostMem l.addr 8 then [] else
        [HostOut.atomicOp .cas l.addr 8 (BitVec.ofNat 128 (readNat (markEntry s.hostMem l.addr mask) l.addr 8))
          (BitVec.ofNat 128 (readNat s.hostMem l.addr 8))]))
    else (s.touchLine vd l.addr (mget (markEntry s.mem l.addr mask) l.addr != mget s.mem l.addr)).withMem (markEntry s.mem l.addr mask) := rfl

theorem markLeaf_noReach (s : State) (vd mask : Nat) (l : Leaf) : (s.markLeaf vd mask l).noReach = s.noReach := by
  rw [markLeaf_eq]
  split
  · exact withHostMem_noReach ..
  · rw [withMem_noReach]
    exact noReach_of_noLines (touchLine_noLines ..)

theorem markWalk_noReach (s : State) (vd : Nat) (w : Walked) (want : Want) : (s.markWalk vd w want).noReach = s.noReach := by
  have hleaves : ∀ mask (ls : List Leaf) (s : State), (ls.foldl (State.markLeaf · vd mask ·) s).noReach = s.noReach :=
    fun mask ls s => foldl_keeps (fun s l => s.markLeaf vd mask l) State.noReach (fun s l => markLeaf_noReach s vd mask l) ls s
  unfold State.markWalk
  exact (hleaves ..).trans (hleaves ..)

/-- A walk that misses, and fills TLBs by `fill`. -/
def State.walked (s : State) (space va : Nat) (want : Want) (fill : State → TlbEntry → List TlbEntry) : State × Except Miss Place :=
  match s.walk space va want with
  | .error e => (s.readTables space va, .error e)
  | .ok w =>
    let e := w.entry (s.readTables space va) space va want
    let t := (s.readTables space va).markWalk space w want
    (t.withTlbs (fill t e), .ok (e.place va))

theorem walked_noReach (s : State) (space va : Nat) (want : Want) (fill : State → TlbEntry → List TlbEntry) :
    (s.walked space va want fill).1.noReach = s.noReach := by
  unfold State.walked
  split
  · exact readTables_noReach ..
  · dsimp only
    rw [withTlbs_noReach, markWalk_noReach, readTables_noReach]

theorem translate_none (s : State) (space va : Nat) (want : Want) : s.translate none space va want = s.walked space va want fun s _ => s.tlbs := rfl

theorem translate_some (s : State) (c space va : Nat) (want : Want) : s.translate (some c) space va want =
    match s.tlbs.find? fun e => e.first && e.unit == c && e.hits (s.gen space) space va want with
    | some e => (s, .ok (e.place va))
    | none =>
      match (s.countEvent c 6 1).tlbs.find? fun e => !e.first && e.unit == clusterOf c && e.hits (s.gen space) space va want with
      | some e => ((s.countEvent c 6 1).withTlbs (tlbFill (s.countEvent c 6 1).tlbs true c 256 e), .ok (e.place va))
      | none => (s.countEvent c 6 1).walked space va want fun s e => tlbFill (tlbFill s.tlbs true c 256 e) false (clusterOf c) 8192 e := rfl

theorem translate_noReach (s : State) (core : Option Nat) (space va : Nat) (want : Want) :
    (s.translate core space va want).1.noReach = s.noReach := by
  cases core with
  | none =>
    rw [translate_none]
    exact walked_noReach ..
  | some c =>
    have hcount : (s.countEvent c 6 1).noReach = s.noReach := noReach_of_hush (Quiet.countEvent s c 6 1).1
    rw [translate_some]
    split
    · rfl
    · split
      · exact (withTlbs_noReach ..).trans hcount
      · exact (walked_noReach ..).trans hcount

theorem noteFault_noReach (s : State) (ag : Agent) (space : Nat) (stage2 paging : Bool) (addr detail : Nat) :
    (s.noteFault ag space stage2 paging addr detail).noReach = s.noReach := by
  unfold State.noteFault
  split <;> rfl

theorem poisonedEntry_noReach (s : State) (ag : Agent) (space a : Nat) : (s.poisonedEntry ag space a).noReach = s.noReach :=
  noReach_of_noEvents (postEvent_noEvents ..)

/-- A translation changes the accessed bits of the tables, TLBs, faults that wait, slices and counts alone. -/
theorem reach_noReach (s : State) (ag : Agent) (space va : Nat) (want : Want) : (s.reach ag space va want).1.noReach = s.noReach := by
  have htranslate := translate_noReach s (if ag.core < 192 then some ag.core else none) space va want
  unfold State.reach
  split
  all_goals rename_i heq; rw [heq] at htranslate
  · exact htranslate
  · exact (noteFault_noReach ..).trans htranslate
  · exact (noteFault_noReach ..).trans htranslate
  · exact (noteFault_noReach ..).trans htranslate
  · exact htranslate
  · exact (poisonedEntry_noReach ..).trans htranslate

/-! ### A queue's accesses -/

theorem touchRange_noReach (s : State) (vd a n : Nat) (w : Bool) : (s.touchRange vd a n w).noReach = s.noReach :=
  noReach_of_noLines (touchRange_noLines ..)

theorem queueRead_noReach (s : State) (b : Qcb) (va n : Nat) : (s.queueRead b va n).1.noReach = s.noReach := by
  have hreach := reach_noReach s b.agent b.vd va ⟨false, false, true⟩
  unfold State.queueRead
  split
  · rfl
  · dsimp only
    split
    · split
      · exact hreach
      · dsimp only
        split
        · exact hreach
        · exact (touchRange_noReach ..).trans hreach
    · exact hreach

theorem getUnits_noReach (b : Qcb) (n : Nat) (s : State) (u : W32) : (s.getUnits b u n).1.noReach = s.noReach := by
  induction n generalizing s u with
  | zero => rfl
  | succ n ih =>
    have hread := queueRead_noReach s b (b.unitAt u) 32
    unfold State.getUnits
    split
    · next heq => rw [heq] at hread; exact hread
    · next t x heq =>
      rw [heq] at hread
      have hrest := ih t (u + 1)
      split
      · next heq' => rw [heq'] at hrest; exact hrest.trans hread
      · next heq' => rw [heq'] at hrest; exact hrest.trans hread

theorem used_slot (k : Qcb) (w : Nat → Nat) : (k.used w).slot = k.slot := by
  unfold Qcb.used
  split <;> rfl

theorem used_mapped {k : Qcb} (w : Nat → Nat) (h : k.slot.isSome = true) : k.used w = k := if_pos h

/-- A mapped block is found in its slot, whatever memory holds. -/
theorem qcb?_mapped_of_qcbs {s t : State} (h : t.qcbs = s.qcbs) {blk : Nat} {b : Qcb} (hb : s.qcb? blk = some b) (hslot : b.slot.isSome = true) :
    t.qcb? blk = some b := by
  obtain ⟨hv, hused⟩ := of_qcb? hb
  have hkept : ((tget? s.qcbs blk).getD Qcb.blank).slot.isSome = true := by
    rw [← used_slot _ (s.qcbWord blk), hused]
    exact hslot
  rw [used_mapped _ hkept] at hused
  rw [qcb?_eq, h, used_mapped _ hkept, hused, if_pos hv]

theorem qcbs_of_noReach {s t : State} (h : t.noReach = s.noReach) : t.qcbs = s.qcbs := by
  have hqcbs := congrArg State.qcbs h
  exact hqcbs

theorem qcb?_of_noReach {s t : State} (h : t.noReach = s.noReach) {blk : Nat} {b : Qcb} (hb : s.qcb? blk = some b) (hslot : b.slot.isSome = true) :
    t.qcb? blk = some b := qcb?_mapped_of_qcbs (qcbs_of_noReach h) hb hslot

end Sys2Proof.Machine
end

section
/-!
PROOFS. Kicks, submissions and the fetch of packets (15 R339 to R343).
-/
namespace Sys2Proof.Machine

theorem kick_alike (b : Qcb) (io : Nat) (t : W32) : b.Alike (b.kick io t) := by
  unfold Qcb.kick
  dsimp only
  split <;> exact ⟨rfl, rfl, rfl, rfl, rfl⟩

theorem kick_tail {b : Qcb} (io : Nat) {t : W32} (h1 : 1 ≤ (t - b.tail).toNat) (h2 : (t - b.tail).toNat < 2 ^ 31) :
    b.kick io t = if b.st = .unmapped then ({ b with tail := t } : Qcb).pend io else { b with tail := t } := by
  unfold Qcb.kick
  dsimp only
  rw [if_pos (show 1 ≤ (t - b.tail).toNat ∧ (t - b.tail).toNat < 2 ^ 31 from ⟨h1, h2⟩)]

theorem putQcb_discards (s : State) (blk : Nat) (b : Qcb) : (s.putQcb blk b).discards = s.discards := rfl

theorem modQcb_discards (s : State) (blk : Nat) (f : Qcb → Qcb) : (s.modQcb blk f).discards = s.discards := by
  unfold State.modQcb
  split <;> rfl

theorem modQcb_hostOut (s : State) (blk : Nat) (f : Qcb → Qcb) : (s.modQcb blk f).hostOut = s.hostOut := by
  unfold State.modQcb
  split <;> rfl

theorem qcb?_wakeFor (s : State) (b : Qcb) (blk : Nat) : (s.wakeFor b).qcb? blk = s.qcb? blk := rfl

theorem qcb?_complete (s : State) (c : Completion) (blk : Nat) : (s.complete c).qcb? blk = s.qcb? blk := rfl

/-- A kick within the ring (R332, R339, R341). -/
theorem kick_ok {s : State} {v j : Fin 512} {t : W32} {b : Qcb} (hv : (s.vdev? v).isSome = true) (h31 : (s.kickEntry v j).getLsbD 31 = true)
    (h30 : (s.kickEntry v j).getLsbD 30 = false) (hb : s.qcb? (bits (s.kickEntry v j).toNat 15 0) = some b) (hm : Memory.wf s.mem = true)
    (hu : (t - b.retire).toNat ≤ b.units) (h1 : 1 ≤ (t - b.tail).toNat) (h2 : (t - b.tail).toNat < 2 ^ 31) :
    ∃ s' b', exec (.kickWrite v j t) s = .next s' ∧ s'.qcb? (bits (s.kickEntry v j).toNat 15 0) = some b' ∧ b'.tail = t ∧
      b'.head = b.head ∧ b'.st = b.st ∧ (b.st = .unmapped → b'.pending = true) ∧ (b.st ≠ .unmapped → b' = { b with tail := t }) ∧
      s'.discards = s.discards := by
  have hrun : kickStep s v j t = (s.modQcb (bits (s.kickEntry v j).toNat 15 0) fun b => b.kick s.ioNow t).wakeFor b := by
    unfold kickStep
    dsimp only
    rw [if_neg (by rw [Option.isNone_iff_eq_none]; intro hnone; rw [hnone] at hv; cases hv), hb]
    dsimp only
    rw [h31, h30, if_neg (by decide), if_neg hu.not_gt]
  have hfound := qcb?_modQcb (f := fun b => b.kick s.ioNow t) hb (fun _ => hm) (kick_alike b _ t)
  refine ⟨_, b.kick s.ioNow t, congrArg Host.Outcome.next hrun, (qcb?_wakeFor ..).trans hfound, ?_, ?_, ?_, fun hst => ?_, fun hst => ?_,
    modQcb_discards ..⟩
  all_goals rw [kick_tail _ h1 h2]
  · split <;> rfl
  · split <;> rfl
  · split <;> rfl
  · rw [if_pos hst]
    rfl
  · rw [if_neg hst]

/-- A kick to no queue is counted (R339). -/
theorem kick_none {s : State} {v j : Fin 512} {t : W32} (hv : (s.vdev? v).isSome = true)
    (hb : s.qcb? (bits (s.kickEntry v j).toNat 15 0) = none) : exec (.kickWrite v j t) s = .next s.discard := by
  refine congrArg Host.Outcome.next ?_
  unfold kickStep
  dsimp only
  rw [if_neg (by rw [Option.isNone_iff_eq_none]; intro hnone; rw [hnone] at hv; cases hv), hb]

/-- A block to which four units have been submitted (R340, R341). -/
def Qcb.submitted (b : Qcb) (io : Nat) : Qcb :=
  let b := { b with tail := b.tail + 4 }
  if b.st = .unmapped then b.pend io else b

theorem submitted_eq (b : Qcb) (io : Nat) :
    b.submitted io = if b.st = .unmapped then ({ b with tail := b.tail + 4 } : Qcb).pend io else { b with tail := b.tail + 4 } := rfl

theorem submitted_alike (b : Qcb) (io : Nat) : b.Alike (b.submitted io) := by
  unfold Qcb.submitted
  dsimp only
  split <;> exact ⟨rfl, rfl, rfl, rfl, rfl⟩

theorem submit_ok {s : State} {v j : Fin 512} {off : Nat} {data : List Byte} {b : Qcb} {s1 : State} (hv : (s.vdev? v).isSome = true)
    (h31 : (s.kickEntry v j).getLsbD 31 = true) (h30 : (s.kickEntry v j).getLsbD 30 = true)
    (hb : s.qcb? (bits (s.kickEntry v j).toNat 15 0) = some b) (hlen : data.length = 128) (hoff : off % 128 = 0) (hoff2 : off < 4096)
    (hst : b.st ≠ .halted) (hroom : (b.tail - b.retire).toNat + 4 ≤ b.units) (hput : s.putUnits b b.tail (pieces 32 4 data) = (s1, none))
    (hb1 : s1.qcb? (bits (s.kickEntry v j).toNat 15 0) = some b) (hm : Memory.wf s1.mem = true) :
    ∃ s' b', exec (.submissionWrite v j false off data) s = .next s' ∧ s'.qcb? (bits (s.kickEntry v j).toNat 15 0) = some b' ∧
      b'.tail = b.tail + 4 ∧ b'.head = b.head ∧ (b.st = .unmapped → b'.pending = true) ∧ (b.slot.isSome = true → s'.mem = s1.mem) ∧
      s'.hostOut = s1.hostOut ++ [HostOut.completion .successful] := by
  have hrun : submitStep s v j false off data =
      ((s1.modQcb (bits (s.kickEntry v j).toNat 15 0) (Qcb.submitted · s1.ioNow)).wakeFor b).complete .successful := by
    unfold submitStep
    dsimp only
    rw [if_neg (by decide), if_neg (by rw [Option.isNone_iff_eq_none]; intro hnone; rw [hnone] at hv; cases hv), hb]
    dsimp only
    rw [h31, h30, if_neg (by simp [hlen, hoff, hoff2]), if_neg (by simp [-BitVec.toNat_sub, hst, hroom]), hput]
    rfl
  have hfound := qcb?_modQcb (f := (Qcb.submitted · s1.ioNow)) hb1 (fun _ => hm) (submitted_alike b _)
  refine ⟨_, b.submitted s1.ioNow, congrArg Host.Outcome.next hrun, (qcb?_complete ..).trans ((qcb?_wakeFor ..).trans hfound), ?_, ?_, fun hu => ?_,
    fun hslot => ?_, congrArg (· ++ [HostOut.completion .successful]) (modQcb_hostOut ..)⟩
  · unfold Qcb.submitted
    dsimp only
    split <;> rfl
  · unfold Qcb.submitted
    dsimp only
    split <;> rfl
  · rw [submitted_eq, if_pos hu]
    rfl
  · have hmapped : (b.submitted s1.ioNow).slot.isSome = true := by
      rw [(submitted_alike b _).slot]
      exact hslot
    have hmem := modQcb_mem_mapped (f := (Qcb.submitted · s1.ioNow)) hb1 hmapped
    exact hmem

/-- A packet joins the lookahead. -/
def Qcb.fetched (b : Qcb) (p : List Byte) : Qcb := { b with look := b.look ++ [p], wait := .untranslated, ringAt := none }

theorem fetch_ok {s : State} {blk : Nat} {b : Qcb} {s1 s2 : State} {h p : List Byte} (hb : s.qcb? blk = some b) (hfall : s.fallback b = false)
    (hruns : s.threadRuns b = true) (hlook : b.look = []) (hwait : b.wait = .untranslated) (hne : b.head ≠ b.tail)
    (hu : (b.tail - b.head).toNat ≤ b.units) (h1 : s.getUnits b b.head 1 = (s1, .ok h)) (hsz : pkSize h + 1 ≤ (b.tail - b.head).toNat)
    (h2 : s1.getUnits b b.head (pkSize h + 1) = (s2, .ok p)) :
    ∃ s' b', exec (.packetFetch blk) s = .next s' ∧ s'.qcb? blk = some b' ∧ b' = { b with look := [p], ringAt := none } ∧ s'.mem = s2.mem := by
  have hslot : b.slot.isSome = true := by
    unfold State.threadRuns at hruns
    simp only [Bool.and_eq_true] at hruns
    obtain ⟨⟨⟨-, hslot⟩, -⟩, -⟩ := hruns
    exact hslot
  have hat : b.fetchAt = b.head := by
    unfold Qcb.fetchAt
    rw [hlook]
    exact BitVec.add_zero _
  have hleft : (b.tail - b.head).toNat ≠ 0 := by
    intro hzero
    exact hne (by bv_omega)
  have hpf : b.packetFailed = false := by
    unfold Qcb.packetFailed
    rw [hwait]
  have hrf : b.ringFailed = none := by
    unfold Qcb.ringFailed
    rw [hwait]
  have hrun : fetchPacket s blk = s2.modQcb blk (Qcb.fetched · p) := by
    unfold fetchPacket
    rw [hb]
    dsimp only
    rw [hat, hruns, hpf, hlook, if_neg (by simp [-BitVec.toNat_sub, hu, hleft]), hrf, h1]
    dsimp only
    rw [if_neg hsz.not_gt, h2]
    rfl
  have hkept1 := getUnits_noReach b 1 s b.head
  have hkept2 := getUnits_noReach b (pkSize h + 1) s1 b.head
  rw [h1] at hkept1
  rw [h2] at hkept2
  have hb2 : s2.qcb? blk = some b := qcb?_of_noReach (hkept2.trans hkept1) hb hslot
  have hfound := qcb?_modQcb (f := (Qcb.fetched · p)) hb2 (fun hnone => by rw [hnone] at hslot; cases hslot) ⟨rfl, rfl, rfl, rfl, rfl⟩
  have hexec : exec (.packetFetch blk) s = .next (fetchPacket s blk) := by
    refine congrArg Host.Outcome.next ?_
    rw [hb]
    exact if_neg (ne_true_of_eq_false hfall)
  refine ⟨_, b.fetched p, hexec.trans (congrArg Host.Outcome.next hrun), hfound, ?_, modQcb_mem_mapped hb2 hslot⟩
  unfold Qcb.fetched
  rw [hlook, ← hwait]
  rfl

/-- Settles O43: kicks, submissions and a fetch, each by its meaning. -/
theorem kicksAndFetches : Obligations.KicksAndFetches :=
  ⟨fun _ _ _ _ _ hv h31 h30 hb hm hu h1 h2 => kick_ok hv h31 h30 hb hm hu h1 h2, fun _ _ _ _ hv hb => kick_none hv hb,
    fun _ _ _ _ _ => rfl,
    fun _ _ _ _ _ _ _ hv h31 h30 hb hlen hoff hoff2 hst hroom hput hb1 hm => submit_ok hv h31 h30 hb hlen hoff hoff2 hst hroom hput hb1 hm,
    fun _ _ _ _ _ _ _ hb hfall hruns hlook hwait hne hu h1 hsz h2 => fetch_ok hb hfall hruns hlook hwait hne hu h1 hsz h2⟩

end Sys2Proof.Machine
end

section
/-!
PROOFS. The upkeep of queues: polls, retirement, mappings, the fallback scheduler (15 R342, R347, R351, R352, R354).
-/
namespace Sys2Proof.Machine

/-! ### Accesses of a thread -/

/-- A state without what a thread's access may change. -/
def State.noStore (s : State) : State := { s.noReach with memPsn := [], hostPsn := [] }

theorem noStore_of_noReach {s t : State} (h : s.noReach = t.noReach) : s.noStore = t.noStore := by
  unfold State.noStore
  rw [h]

theorem qcbs_of_noStore {s t : State} (h : s.noStore = t.noStore) : s.qcbs = t.qcbs := by
  have hqcbs := congrArg State.qcbs h
  exact hqcbs

theorem capctl_of_noStore {s t : State} (h : s.noStore = t.noStore) : s.capctl = t.capctl := by
  have hcapctl := congrArg State.capctl h
  exact hcapctl

/-- A state with a bank of device memory. -/
def State.withBank (s : State) (b : Bank) : State := { s with mem := b.m, memPsn := b.psn }

theorem withBank_noStore (s : State) (b : Bank) : (s.withBank b).noStore = s.noStore := rfl

theorem putBank_device (s : State) (vd pa n : Nat) (b : Bank) : s.putBank vd false pa n b = (s.touchRange vd pa n true).withBank b := rfl

theorem putBank_noStore (s : State) (vd : Nat) (host : Bool) (pa n : Nat) (b : Bank) : (s.putBank vd host pa n b).noStore = s.noStore := by
  cases host with
  | true => rfl
  | false => rw [putBank_device, withBank_noStore, noStore_of_noReach (touchRange_noReach ..)]

theorem queueWrite_noStore (s : State) (b : Qcb) (va : Nat) (data : List Byte) : (s.queueWrite b va data).1.noStore = s.noStore := by
  have hreach := noStore_of_noReach (reach_noReach s b.agent b.vd va ⟨true, false, true⟩)
  unfold State.queueWrite
  split
  · rfl
  · dsimp only
    split
    · split
      · exact hreach
      · exact (putBank_noStore ..).trans hreach
    · exact hreach

theorem queueAcquire_noReach (s : State) (b : Qcb) (va n : Nat) : (s.queueAcquire b va n).1.noReach = s.noReach := by
  unfold State.queueAcquire
  dsimp only
  split
  · split
    · rfl
    · exact queueRead_noReach ..
  · exact queueRead_noReach ..

/-! ### Polls -/

/-- A state without its clocks and what the cycles that pass count. -/
def State.noTime (s : State) : State :=
  { s with clk := 0, ioClk := 0, vds := [], tick := 0, cores := s.cores.map Core.noCounts, trusses := [] }

theorem noTime_of_hush {s t : State} (h : s.hush = t.hush) : s.noTime = t.noTime := by
  have htime := congrArg (fun s : State => { s with clk := 0, ioClk := 0, trusses := [] }) h
  exact htime

/-- What the meters take in while cycles pass (R198). -/
def State.metered (s : State) (t : Nat) : State :=
  s.trusses.foldl (fun st x => st.addShare x.space 0 (x.resident * (Nat.max s.clk t - s.clk))) s

theorem metered_quiet (s : State) (t : Nat) : Quiet s (s.metered t) :=
  foldl_addShare_quiet s.trusses s fun x => x.resident * (Nat.max s.clk t - s.clk)

def State.withoutCores (s : State) : State := { s.noTime with cores := Vector.replicate 192 Core.reset }

theorem advanceTo_withoutCores (s : State) (t : Nat) : (s.advanceTo t).withoutCores = s.withoutCores := by
  have htime := congrArg (fun s : State => { s with cores := Vector.replicate 192 Core.reset }) (noTime_of_hush (metered_quiet s t).1)
  exact htime

theorem tget?_map {α β : Type} (t : Tbl α) (f : α → β) (k : Nat) : tget? (t.map fun e => (e.1, f e.2)) k = (tget? t k).map f := by
  induction t with
  | nil => rfl
  | cons e t ih =>
    obtain ⟨j, x⟩ := e
    unfold tget?
    simp only [List.map_cons]
    split
    · rfl
    · split
      · rfl
      · exact ih

/-- A device without its meters and shares. -/
def VDev.noMeters (d : VDev) : VDev := { d.noShares with meters := Vector.replicate 10 0 }

theorem vdev?_advanceTo (s : State) (t v : Nat) : ((s.advanceTo t).vdev? v).map VDev.noMeters = (s.vdev? v).map VDev.noMeters := by
  have hquiet := (metered_quiet s t).2 v
  have hmetered : ((s.metered t).vdev? v).map VDev.noMeters = (s.vdev? v).map VDev.noMeters := by
    have hmap := congrArg (Option.map fun d : VDev => { d with meters := Vector.replicate 10 0 }) hquiet
    rw [Option.map_map, Option.map_map] at hmap
    exact hmap
  have heq : (s.advanceTo t).vds = if (Nat.max s.clk t) / meterSpan = s.clk / meterSpan then (s.metered t).vds
      else (s.metered t).vds.map fun e => (e.1, e.2.accumulate) := rfl
  unfold State.vdev? at hmetered ⊢
  rw [heq]
  split
  · exact hmetered
  · rw [tget?_map, Option.map_map]
    exact hmetered

theorem active_of_vdev? {s t : State} {v : Nat} (h : (t.vdev? v).map VDev.noMeters = (s.vdev? v).map VDev.noMeters) : t.active v = s.active v := by
  have hactive : ∀ u : State, u.active v = match (u.vdev? v).map VDev.noMeters with | some d => d.v && d.mode.toNat < 4 | none => false := by
    intro u
    unfold State.active
    cases u.vdev? v <;> rfl
  rw [hactive, hactive, h]

section
variable {s t : State} (h : s.withoutCores = t.withoutCores)
include h

theorem qcbs_of_withoutCores : s.qcbs = t.qcbs := (congrArg State.qcbs h :)
theorem mem_of_withoutCores : s.mem = t.mem := (congrArg State.mem h :)
theorem qcbBase_of_withoutCores : s.qcbBase = t.qcbBase := (congrArg State.qcbBase h :)
theorem capctl_of_withoutCores : s.capctl = t.capctl := (congrArg State.capctl h :)
theorem qpFallback_of_withoutCores : s.qpFallback = t.qpFallback := (congrArg State.qpFallback h :)
theorem passesDue_of_withoutCores : s.passesDue = t.passesDue := (congrArg State.passesDue h :)

end

/-- A block is as its entry, and the words in memory. -/
theorem qcb?_congr {s t : State} (h1 : t.qcbs = s.qcbs) (h2 : t.mem = s.mem) (h3 : t.qcbBase = s.qcbBase) (blk : Nat) : t.qcb? blk = s.qcb? blk := by
  have hwords : t.qcbWord blk = s.qcbWord blk := by
    funext i
    unfold State.qcbWord State.qcbAddr
    rw [h2, h3]
  rw [qcb?_eq, qcb?_eq, h1, hwords]

theorem qcb?_advanceTo (s : State) (t blk : Nat) : (s.advanceTo t).qcb? blk = s.qcb? blk :=
  qcb?_congr (qcbs_of_withoutCores (advanceTo_withoutCores s t)) (mem_of_withoutCores (advanceTo_withoutCores s t))
    (qcbBase_of_withoutCores (advanceTo_withoutCores s t)) blk

/-- A WAIT on memory that has ended (R347). -/
def Qcb.waitEnded (b : Qcb) (st : Inflight) : Qcb :=
  { b.finish st with st := if b.st = .blocked then .running else b.st, wait := .untranslated }

/-- A WAIT on memory that is to be polled again. -/
def Qcb.pollAgain (b : Qcb) : Qcb := { b with polled := b.polled + 1024, wait := .untranslated }

theorem takenValue_idle {s : State} (vd : Nat) (x : W64) (h : s.capctl.getLsbD 9 = false) : s.takenValue vd x = (s, x) := by
  have hreplay : s.replaying vd = false := by
    unfold State.replaying
    rw [h]
    rfl
  have hcapture : s.capturing vd = false := by
    unfold State.capturing
    rw [h]
    rfl
  unfold State.takenValue State.capture
  rw [hreplay, hcapture]
  rfl

theorem poll_ok {s : State} {blk : Nat} {b : Qcb} {q : Packet} {a : Nat} {v m : W64} {cond : Nat} {w64 : Bool} {s1 : State} {x : List Byte}
    (hb : s.qcb? blk = some b) (hslot : b.slot.isSome = true) (hst : b.st = .blocked) (hfall : s.fallback b = false)
    (hwait : b.wait = .untranslated) (hact : s.active b.vd = true) (hinfl : b.infl = [q]) (hq : q.st = .waitMem a v m cond w64)
    (hcap : s.capctl.getLsbD 9 = false)
    (hread : (s.advanceTo ((b.polled * 3 + 1) / 2)).queueAcquire b a (if w64 then 8 else 4) = (s1, .ok x)) :
    let keep := if w64 then 2 ^ 64 else 2 ^ 32
    ∃ s' b', exec (.waitPoll blk) s = .next s' ∧ s'.qcb? blk = some b' ∧
      if waitHolds ((bytesNat x &&& m.toNat) % keep) (v.toNat % keep) cond then b'.st = .running ∧ b'.infl = [{ q with st := .done }]
      else b'.st = .blocked ∧ b'.infl = [q] ∧ b'.polled = b.polled + 1024 := by
  intro keep
  have hkept := queueAcquire_noReach (s.advanceTo ((b.polled * 3 + 1) / 2)) b a (if w64 then 8 else 4)
  rw [hread] at hkept
  have hb1 : s1.qcb? blk = some b := qcb?_of_noReach hkept ((qcb?_advanceTo ..).trans hb) hslot
  have hcap1 : s1.capctl.getLsbD 9 = false := by
    rw [capctl_of_noStore (noStore_of_noReach hkept), capctl_of_withoutCores (advanceTo_withoutCores ..)]
    exact hcap
  have hreplay : s1.replaying b.vd = false := by
    unfold State.replaying
    rw [hcap1]
    rfl
  have hmem : b.memWait = some (q, a, v, m, cond, w64) := by
    unfold Qcb.memWait
    rw [hinfl, List.findSome?_cons, hq]
  have hrun : pollStep s blk = if waitHolds ((bytesNat x &&& m.toNat) % keep) (v.toNat % keep) cond then s1.modQcb blk (Qcb.waitEnded · q.st)
      else s1.modQcb blk Qcb.pollAgain := by
    unfold pollStep
    rw [hb]
    dsimp only
    rw [hmem]
    dsimp only
    rw [if_neg (by rw [hfall, hwait, hact, Option.isNone_eq_false_iff.mpr hslot]; decide), hwait]
    dsimp only
    rw [hread]
    dsimp only
    rw [hreplay, if_neg Bool.false_ne_true, takenValue_idle _ _ hcap1]
    rfl
  have hnot : b.slot = none → Memory.wf s1.mem = true := fun hnone => by
    rw [hnone] at hslot
    cases hslot
  by_cases hholds : waitHolds ((bytesNat x &&& m.toNat) % keep) (v.toNat % keep) cond = true
  · have hfound := qcb?_modQcb (f := (Qcb.waitEnded · q.st)) hb1 hnot ⟨rfl, rfl, rfl, rfl, rfl⟩
    refine ⟨_, b.waitEnded q.st, congrArg Host.Outcome.next (hrun.trans (if_pos hholds)), hfound, ?_⟩
    rw [if_pos hholds]
    unfold Qcb.waitEnded Qcb.finish
    rw [hst, hinfl]
    simp
  · have hfound := qcb?_modQcb (f := Qcb.pollAgain) hb1 hnot ⟨rfl, rfl, rfl, rfl, rfl⟩
    refine ⟨_, b.pollAgain, congrArg Host.Outcome.next (hrun.trans (if_neg hholds)), hfound, ?_⟩
    rw [if_neg hholds]
    exact ⟨hst, hinfl, rfl⟩

/-! ### Retirement -/

theorem takeWhile_done {as bs : List Packet} (has : ∀ q ∈ as, q.st = .done) (hbs : ∀ q, bs.head? = some q → q.st ≠ .done) :
    (as ++ bs).takeWhile (fun p => p.st == .done) = as := by
  rw [List.takeWhile_append_of_pos fun q hq => beq_iff_eq.mpr (has q hq)]
  cases bs with
  | nil => rw [List.takeWhile_nil, List.append_nil]
  | cons q bs => rw [List.takeWhile_cons_of_neg (by rw [beq_iff_eq]; exact hbs q rfl), List.append_nil]

theorem retire_ok {s : State} {blk : Nat} {b : Qcb} {as bs : List Packet} (hb : s.qcb? blk = some b) (hm : Memory.wf s.mem = true)
    (hinfl : b.infl = as ++ bs) (hne : as ≠ []) (has : ∀ q ∈ as, q.st = .done) (hbs : ∀ q, bs.head? = some q → q.st ≠ .done) :
    ∃ s' b', exec (.packetRetire blk) s = .next s' ∧ s'.qcb? blk = some b' ∧ b'.infl = bs ∧ b'.unreported = true ∧
      b'.retire = b.retire + BitVec.ofNat 32 ((as.map (·.units)).sum) := by
  have hdone : b.retireDone = { b with infl := bs, retire := b.retire + BitVec.ofNat 32 ((as.map (·.units)).sum), unreported := true } := by
    unfold Qcb.retireDone
    rw [hinfl, takeWhile_done has hbs]
    dsimp only
    rw [if_neg (by rw [List.isEmpty_iff]; exact hne), List.drop_left]
  have hfound := qcb?_modQcb (f := Qcb.retireDone) hb (fun _ => hm) (by rw [hdone]; exact ⟨rfl, rfl, rfl, rfl, rfl⟩)
  exact ⟨_, _, rfl, hfound, by rw [hdone], by rw [hdone], by rw [hdone]⟩

/-- RETIRE has been reported. -/
def Qcb.reported (b : Qcb) : Qcb := { b with unreported := false, hwait := .untranslated }

theorem report_ok {s : State} {blk : Nat} {b : Qcb} {s1 : State} (hb : s.qcb? blk = some b) (hslot : b.slot.isSome = true)
    (hun : b.unreported = true) (hwait : b.hwait = .untranslated) (hmir : b.hmir ≠ 0)
    (hwrite : s.queueWrite b b.hmir (natBytes 4 b.retire.toNat) = (s1, .ok ())) :
    ∃ s', exec (.retireReport blk) s = .next s' ∧ s'.qcb? blk = some { b with unreported := false } ∧ s'.mem = s1.mem ∧
      s'.hostMem = s1.hostMem := by
  have hkept := queueWrite_noStore s b b.hmir (natBytes 4 b.retire.toNat)
  rw [hwrite] at hkept
  have hb1 : s1.qcb? blk = some b := qcb?_mapped_of_qcbs (qcbs_of_noStore hkept) hb hslot
  have hrun : reportStep s blk = s1.modQcb blk Qcb.reported := by
    unfold reportStep
    rw [hb]
    dsimp only
    rw [if_neg (by rw [hun, hwait]; decide), if_neg hmir, hwait]
    dsimp only
    rw [hwrite]
    rfl
  have hfound := qcb?_modQcb (f := Qcb.reported) hb1 (fun hnone => by rw [hnone] at hslot; cases hslot) ⟨rfl, rfl, rfl, rfl, rfl⟩
  refine ⟨_, congrArg Host.Outcome.next hrun, hfound.trans (congrArg some ?_), modQcb_mem_mapped hb1 hslot, ?_⟩
  · unfold Qcb.reported
    rw [← hwait]
  · rw [modQcb_some _ hb1]
    rfl

/-! ### The mapping of queues to slots (R351) -/

/-- What a queue's block is made of, apart from the devices. -/
def State.blocks (s : State) : Tbl Qcb × Mem × Nat := (s.qcbs, s.mem, s.qcbBase)

theorem qcb?_of_blocks {s t : State} (h : t.blocks = s.blocks) (blk : Nat) : t.qcb? blk = s.qcb? blk :=
  qcb?_congr (congrArg (·.1) h :) (congrArg (·.2.1) h :) (congrArg (·.2.2) h :) blk

theorem modVdev_blocks (s : State) (v : Nat) (f : VDev → VDev) : (s.modVdev v f).blocks = s.blocks := by
  unfold State.modVdev
  split <;> rfl

theorem setFloor_blocks (s : State) (set : Nat) : (s.setFloor set).blocks = s.blocks := by
  unfold State.setFloor
  split <;> rfl

theorem noteRunnable_blocks (s : State) (set vd : Nat) : (s.noteRunnable set vd).blocks = s.blocks := by
  unfold State.noteRunnable
  split
  · rfl
  · dsimp only
    split
    · rw [setFloor_blocks, modVdev_blocks]
    · split
      · rw [setFloor_blocks, modVdev_blocks]
      · rfl

theorem noteSet_blocks (s : State) (set : Nat) : (s.noteSet set).blocks = s.blocks :=
  foldl_keeps _ State.blocks (fun s v => noteRunnable_blocks s set v) _ s

/-- A queue that has been mapped to a slot. -/
def Qcb.mapped (b : Qcb) (n : Fin 256) : Qcb :=
  { b with st := .running, slot := some n, pending := false, look := [], wait := .untranslated, ringAt := none }

theorem qcb?_mapQueue {s : State} {blk : Nat} {b : Qcb} (h : s.qcb? blk = some b) (n : Fin 256) : (s.mapQueue blk n).qcb? blk = some (b.mapped n) := by
  have hrun : s.mapQueue blk n = s.modQcb blk (Qcb.mapped · n) := rfl
  rw [hrun, modQcb_some _ h, qcb?_passesDue]
  have hv : b.v = true := v_of_qcb? h
  exact qcb?_putQcb_mapped s blk rfl hv

section
variable {s : State} {blk : Nat} {b0 b : Qcb} (hqcbs : s.qcbs = [(blk, b0)]) (hb : s.qcb? blk = some b)
include hqcbs hb

theorem pendingQueues_single (hpending : b.pending = true) (hst : b.st = .unmapped) (hact : s.active b.vd = true) : s.pendingQueues = [blk] := by
  have hqueues : s.queues = [(blk, b)] := by
    unfold State.queues
    rw [hqcbs, List.filterMap_cons, hb]
    rfl
  have hcond : (b.pending && b.st == .unmapped && s.active b.vd) = true := by
    rw [hpending, hst, hact]
    rfl
  unfold State.pendingQueues
  dsimp only
  rw [hqueues, List.filter_cons_of_pos (by exact hcond), List.filter_nil, List.mergeSort_singleton]
  rfl

theorem tryMap_free {d : VDev} {n : Fin 256} (hslot0 : b0.slot = none) (hd : s.vdev? b.vd = some d) (hhqs : 0 < d.hqs)
    (hfree : s.freeSlot = some n) : s.tryMap blk = s.mapQueue blk n := by
  have hheld : (s.qcbs.filter fun e => e.2.vd == b.vd && e.2.slot.isSome).length = 0 := by
    rw [hqcbs, List.filter_cons_of_neg (by rw [hslot0]; simp)]
    rfl
  unfold State.tryMap
  rw [hb]
  dsimp only
  rw [hd, hheld]
  dsimp only
  rw [if_pos hhqs, hfree]

theorem qcb?_mapQueues {d : VDev} {n : Fin 256} (hslot0 : b0.slot = none) (hpending : b.pending = true) (hst : b.st = .unmapped)
    (hact : s.active b.vd = true) (hd : s.vdev? b.vd = some d) (hhqs : 0 < d.hqs) (hfree : s.freeSlot = some n) :
    s.mapQueues.qcb? blk = some (b.mapped n) := by
  have hrun : s.mapQueues = (List.range 32).foldl State.noteSet (s.mapQueue blk n) := by
    unfold State.mapQueues
    rw [pendingQueues_single hqcbs hb hpending hst hact, List.foldl_cons, List.foldl_nil, tryMap_free hqcbs hb hslot0 hd hhqs hfree]
  rw [hrun, qcb?_of_blocks (foldl_keeps _ State.blocks noteSet_blocks _ _)]
  exact qcb?_mapQueue hb n

end

theorem freeSlot_congr {s t : State} (h1 : t.qpFallback = s.qpFallback) (h2 : t.qcbs = s.qcbs) : t.freeSlot = s.freeSlot := by
  unfold State.freeSlot
  rw [h1, h2]

/-- One pass is done of those that are due. -/
def State.passTaken (s : State) (n : Nat) : State := { s with passesDue := n }
/-- The periodic pass is noted. -/
def State.passNoted (s : State) : State := { s with passAt := s.passAt + 65536 }

theorem mapPass_due {s : State} {n : Nat} (h : s.passesDue = n + 1) : mapPass s = (s.passTaken n).mapQueues := by
  unfold mapPass
  rw [h]
  rfl

theorem mapPass_periodic {s : State} (h : s.passesDue = 0) :
    mapPass s = (s.advanceTo (((s.passAt + 65536) * 3 + 1) / 2)).passNoted.mapQueues := by
  unfold mapPass
  rw [h]
  rfl

theorem mapPass_ok {s : State} {blk : Nat} {b0 b : Qcb} {n : Fin 256} {d : VDev} (hqcbs : s.qcbs = [(blk, b0)]) (hslot0 : b0.slot = none)
    (hb : s.qcb? blk = some b) (hpending : b.pending = true) (hst : b.st = .unmapped) (hact : s.active b.vd = true)
    (hd : s.vdev? b.vd = some d) (hhqs : 0 < d.hqs) (hfree : s.freeSlot = some n) : (mapPass s).qcb? blk = some (b.mapped n) := by
  cases hdue : s.passesDue with
  | succ k =>
    rw [mapPass_due hdue]
    exact qcb?_mapQueues (s := s.passTaken k) (d := d) hqcbs hb hslot0 hpending hst hact hd hhqs hfree
  | zero =>
    rw [mapPass_periodic hdue]
    have hkept := advanceTo_withoutCores s (((s.passAt + 65536) * 3 + 1) / 2)
    have hnow : (s.advanceTo (((s.passAt + 65536) * 3 + 1) / 2)).qcb? blk = some b := (qcb?_advanceTo ..).trans hb
    have hdev := vdev?_advanceTo s (((s.passAt + 65536) * 3 + 1) / 2) b.vd
    have hact' := (active_of_vdev? hdev).trans hact
    have hfree' := (freeSlot_congr (qpFallback_of_withoutCores hkept) (qcbs_of_withoutCores hkept)).trans hfree
    have hqcbs' := (qcbs_of_withoutCores hkept).trans hqcbs
    rw [hd] at hdev
    generalize s.advanceTo (((s.passAt + 65536) * 3 + 1) / 2) = u at *
    obtain ⟨d', hd', hmeters⟩ := Option.map_eq_some_iff.mp hdev
    have hhqs' : d'.hqs = d.hqs := (congrArg VDev.hqs hmeters :)
    exact qcb?_mapQueues (s := u.passNoted) (d := d') hqcbs' hnow hslot0 hpending hst hact' hd' (hhqs' ▸ hhqs) hfree'

/-! ### The unmapping of a queue (R352) -/

/-- A queue that has left its slot. -/
def Qcb.left (b : Qcb) (io : Nat) : Qcb :=
  let b := { b.withdrawWait with look := [], st := .unmapped, slot := none, wait := .untranslated, ringAt := none }
  if b.idle then b else b.pend io

theorem left_cases (b : Qcb) (io : Nat) : ∃ w p, b.left io =
    { b.withdrawWait with look := [], st := .unmapped, slot := none, wait := .untranslated, ringAt := none, waitSince := w, pending := p } ∧
    (b.withdrawWait.head ≠ b.withdrawWait.tail → p = true) := by
  unfold Qcb.left
  dsimp only
  split
  case isTrue hidle =>
    refine ⟨_, _, rfl, fun hne => absurd ?_ hne⟩
    unfold Qcb.idle at hidle
    simp at hidle
    exact hidle
  · exact ⟨_, _, rfl, fun _ => rfl⟩

theorem unmapStep_eq {s : State} {blk : Nat} {b : Qcb} (hb : s.qcb? blk = some b) (hslot : b.slot.isSome = true) (hfall : s.fallback b = false)
    (hst : b.st = .running ∨ b.st = .blocked) : unmapStep s blk = (s.withdrawQueue blk).modQcb blk (Qcb.left · s.ioNow) := by
  unfold unmapStep
  rw [hb]
  dsimp only
  rw [if_pos (by rw [hslot, hfall]; obtain h | h := hst <;> rw [h] <;> rfl)]
  unfold State.unmapQueue
  rw [hb]
  rfl

theorem withdrawWait_kept (b : Qcb) : b.withdrawWait.v = b.v ∧ b.withdrawWait.rsz = b.rsz := by
  unfold Qcb.withdrawWait
  dsimp only
  split <;> exact ⟨rfl, rfl⟩

theorem unmap_ok {s : State} {blk : Nat} {b : Qcb} (hb : s.qcb? blk = some b) (hslot : b.slot.isSome = true) (hfall : s.fallback b = false)
    (hst : b.st = .running ∨ b.st = .blocked) (hm : Memory.wf s.mem = true) (hrsz : b.rsz < 32) :
    ∃ s' b', exec (.queueUnmap blk) s = .next s' ∧ s'.qcb? blk = some b' ∧ b'.st = .unmapped ∧ b'.slot = none ∧ b'.look = [] ∧
      b'.infl = b.withdrawWait.infl ∧ b'.head = b.withdrawWait.head ∧ b'.eseq = b.withdrawWait.eseq ∧
      (b.withdrawWait.head ≠ b.withdrawWait.tail → b'.pending = true) := by
  obtain ⟨w, p, hleft, hp⟩ := left_cases b s.ioNow
  obtain ⟨hv, hz⟩ := withdrawWait_kept b
  have hfound := qcb?_modQcb_unmapped (s := s.withdrawQueue blk) (f := (Qcb.left · s.ioNow)) hb hm (by rw [hleft]; exact hv) (by rw [hleft])
    (by rw [hleft]; exact (congrArg (· < 32) hz).mpr hrsz)
  rw [hleft] at hfound
  exact ⟨_, _, congrArg Host.Outcome.next (unmapStep_eq hb hslot hfall hst), hfound, rfl, rfl, rfl, rfl, rfl, rfl, hp⟩

theorem withdrawWait_empty {b : Qcb} (h : b.infl = []) : b.withdrawWait = b := by
  unfold Qcb.withdrawWait
  rw [h]
  rfl

theorem withdrawWait_mem {b : Qcb} {q : Packet} {a : Nat} {v m : W64} {cond : Nat} {w64 : Bool} (h : b.infl = [q]) (hq : q.st = .waitMem a v m cond w64) :
    b.withdrawWait = { b with infl := [], head := b.head - BitVec.ofNat 32 q.units, eseq := b.eseq - 1 } := by
  unfold Qcb.withdrawWait
  dsimp only
  rw [h, List.find?_cons_of_pos (by rw [hq])]
  dsimp only
  rw [List.filter_cons_of_neg (by rw [hq]; exact Bool.false_ne_true), List.filter_nil]

/-! ### The fallback scheduler (R354) -/

theorem setFallback_ok {s : State} {qp : Fin 8} (on : Bool) (h : s.qpFallback[qp] = !on) :
    (s.setFallback qp on).qpFallback = s.qpFallback.set qp on ∧ (s.setFallback qp on).qcbs = s.qcbs := by
  have hold : vat s.qpFallback qp false = !on := by
    unfold vat
    rw [dif_pos qp.isLt]
    exact h
  have hput : vput s.qpFallback qp on = s.qpFallback.set qp on := dif_pos qp.isLt
  unfold State.setFallback
  rw [if_neg (by rw [hold]; cases on <;> decide)]
  have hevent := postEvent_noEvents { s with qpFallback := vput s.qpFallback qp on } 0x27 2 noVd 0 (BitVec.ofNat 64 (qp.val + on.toNat * 2 ^ 8)) 0
  exact ⟨(congrArg State.qpFallback hevent :).trans hput, (congrArg State.qcbs hevent :)⟩

/-- Settles O45. The pass maps the one pending queue whatever the clock has become by then, since time changes neither the queues nor the
devices; a queue that leaves its slot is found again by the words of its block. -/
theorem queueUpkeep : Obligations.QueueUpkeep := by
  unfold Obligations.QueueUpkeep
  refine ⟨?poll, ?retire, ?report, ?pass, ?unmap, ?unmapBlocked, ?miss, ?runs⟩
  case poll =>
    intro s blk b q a v m cond w64 s1 x hb hslot hst hfall hwait hact hinfl hq hcap hread
    exact poll_ok hb hslot hst hfall hwait hact hinfl hq hcap hread
  case retire =>
    intro s blk b as bs hb hm hinfl hne has hbs
    exact retire_ok hb hm hinfl hne has hbs
  case report =>
    intro s blk b s1 hb hslot hun hwait hmir hwrite
    exact report_ok hb hslot hun hwait hmir hwrite
  case pass =>
    intro s blk b0 b n d hqcbs hslot0 hb hpending hst hact hd hhqs hfree
    exact ⟨_, _, rfl, mapPass_ok hqcbs hslot0 hb hpending hst hact hd hhqs hfree, rfl, rfl, rfl, rfl, rfl, rfl, rfl⟩
  case unmap =>
    intro s blk b hb hslot hfall hst hinfl hm hrsz
    obtain ⟨s', b', hrun, hfound, hst', hslot', hlook, -, hhead, heseq, hp⟩ := unmap_ok hb hslot hfall (.inl hst) hm hrsz
    rw [withdrawWait_empty hinfl] at hhead heseq hp
    exact ⟨s', b', hrun, hfound, hst', hslot', hhead, heseq, hlook, hp⟩
  case unmapBlocked =>
    intro s blk b q a v m cond w64 hb hslot hfall hst hinfl hq hm hrsz
    obtain ⟨s', b', hrun, hfound, hst', hslot', -, hinfl', hhead, heseq, -⟩ := unmap_ok hb hslot hfall (.inr hst) hm hrsz
    rw [withdrawWait_mem hinfl hq] at hinfl' hhead heseq
    exact ⟨s', b', hrun, hfound, hst', hslot', hinfl', hhead, heseq⟩
  case miss =>
    intro s qp h
    exact ⟨_, rfl, setFallback_ok true h⟩
  case runs =>
    intro s qp h
    exact ⟨_, rfl, setFallback_ok false h⟩

end Sys2Proof.Machine
end

section
/-!
PROOFS. The mailbox's commands on vectors, stage-2 mappings, meters, dumps and queues (10 R216, R225; 15 R338; 17 R390, R391, R397, R398, R411).
-/
namespace Sys2Proof.Machine

theorem argVd_lt (w : Vector W64 8) : argVd w < 512 := bits_lt w[1].toNat 8 0

theorem gen_of_vdev? {s : State} {v : Nat} {d : VDev} (hv : v < 512) (hd : s.vdev? v = some d) : s.gen v = d.gen := by
  unfold State.gen
  rw [if_neg (show v ≠ pfSpace from Nat.ne_of_lt hv), hd]

theorem gen_mbDone (s : State) (st : BitVec 16) (v : Nat) : (s.mbDone st).gen v = s.gen v := rfl

theorem vdev?_of_vds {s t : State} (h : t.vds = s.vds) (v : Nat) : t.vdev? v = s.vdev? v := by
  unfold State.vdev?
  rw [h]

theorem onAny_some {s : State} {v : Nat} {d : VDev} (f : VDev → Ended) (hd : s.vdev? v = some d) : onAny s v f = f d := by
  unfold onAny
  rw [hd]

/-! ### Waits that end (R396, R397) -/

theorem truss?_resolve (s : State) (v : Nat) (sel : Phase → Bool) (abort : Bool) (n : Nat) :
    ((s.resolve v sel abort).truss? n).map Truss.space = (s.truss? n).map Truss.space := by
  have hmap : (s.resolve v sel abort).truss? n = (s.truss? n).map fun t => if t.space == v then t.resolve sel abort else t := List.getElem?_map
  rw [hmap, Option.map_map]
  congr 1
  funext t
  dsimp only [Function.comp]
  split <;> rfl

/-- The truss is of the space. -/
def State.trussIn (s : State) (v n : Nat) : Bool := (s.truss? n).map Truss.space == some v

theorem trussIn_eq (s : State) (v n : Nat) : (match s.truss? n with | some t => t.space == v | none => false) = s.trussIn v n := by
  unfold State.trussIn
  cases s.truss? n <;> rfl

theorem trussIn_resolve (s : State) (v : Nat) (sel : Phase → Bool) (abort : Bool) (n : Nat) :
    (s.resolve v sel abort).trussIn v n = s.trussIn v n := by
  unfold State.trussIn
  rw [truss?_resolve]

theorem promSpace_resolve (s : State) (v : Nat) (sel : Phase → Bool) (abort : Bool) (p : PromOp) (a b : Phase) :
    (s.resolve v sel abort).promSpace { p with phase := a, phase2 := b } = s.promSpace p := by
  have hspace : ∀ u : State, u.promSpace p = match p.who with
      | .course c .. => ((u.truss? c.truss).map Truss.space).getD p.vd
      | .queue _ => p.vd := by
    intro u
    unfold State.promSpace
    cases p.who with
    | queue n => rfl
    | course c =>
      dsimp only
      cases u.truss? c.truss <;> rfl
  have hsame : (s.resolve v sel abort).promSpace { p with phase := a, phase2 := b } = (s.resolve v sel abort).promSpace p := rfl
  rw [hsame, hspace, hspace]
  cases p.who with
  | queue n => rfl
  | course c => exact congrArg (fun o => o.getD p.vd.val) (truss?_resolve s v sel abort _)

section
variable (v : Nat) (sel : Phase → Bool) (abort : Bool)

/-- A phase that a wait's end has gone through. -/
def Resolved (sel : Phase → Bool) (abort : Bool) (p : Phase) : Prop := ∃ q : Phase, p = q.resolve sel abort

theorem resolved_entry {t : Truss} {e : QSel × QEntry} (he : e ∈ (t.resolve sel abort).entries) : Resolved sel abort e.2.wait := by
  unfold Truss.entries Truss.resolve at he
  simp only [List.map_map, List.mem_append, List.mem_map, Function.comp] at he
  obtain (⟨x, -, rfl⟩ | ⟨x, -, rfl⟩) | ⟨x, -, rfl⟩ := he <;> exact ⟨_, rfl⟩

theorem resolved_fetch {t : Truss} {p : Phase} (hp : p ∈ (t.resolve sel abort).courses.map (·.fetch)) : Resolved sel abort p := by
  unfold Truss.resolve at hp
  simp only [List.map_map, List.mem_map, Function.comp] at hp
  obtain ⟨k, -, rfl⟩ := hp
  exact ⟨_, rfl⟩

/-- What `resolve` maps is either picked, and then resolved, or is not among what a space waits on. -/
theorem of_filter_map {α β : Type} {xs : List α} {c : α → Bool} {c' : β → Bool} {f : α → β} {g : α → β} {y : β}
    (hy : y ∈ (xs.map fun x => if c x then f x else g x).filter c') (hc : ∀ x, c x = false → c' (g x) = false) : ∃ x, y = f x := by
  obtain ⟨hy, hcy⟩ := List.mem_filter.mp hy
  obtain ⟨x, -, rfl⟩ := List.mem_map.mp hy
  cases hx : c x with
  | true => exact ⟨x, by rw [if_pos rfl]⟩
  | false =>
    rw [hx, if_neg Bool.false_ne_true, hc x hx] at hcy
    cases hcy

theorem resolved_access (s : State) {p : Phase} {ofTruss : Nat → Bool} (hof : ∀ n, ofTruss n = (s.resolve v sel abort).trussIn v n)
    (hp : p ∈ (((s.resolve v sel abort).accesses.filter fun a => ofTruss a.who.truss).map fun a => a.parts.map (·.phase)).flatten) :
    Resolved sel abort p := by
  obtain ⟨ps, hps, hp⟩ := List.mem_flatten.mp hp
  obtain ⟨a, ha, rfl⟩ := List.mem_map.mp hps
  obtain ⟨x, rfl⟩ := of_filter_map (f := fun a : Access => a.resolve sel abort) (g := fun a => a)
    (c := fun a : Access => match s.truss? a.who.truss with | some t => t.space == v | none => false) ha fun x hx => by
    rw [hof, trussIn_resolve, ← trussIn_eq]
    exact hx
  unfold Access.resolve at hp
  simp only [List.map_map, List.mem_map, Function.comp] at hp
  obtain ⟨q, -, rfl⟩ := hp
  exact ⟨_, rfl⟩

theorem resolved_prom (s : State) {p : Phase} (hp : p ∈ (((s.resolve v sel abort).proms.filter fun p =>
    (s.resolve v sel abort).promSpace p == v).map fun p => [p.phase, p.phase2]).flatten) : Resolved sel abort p := by
  obtain ⟨ps, hps, hp⟩ := List.mem_flatten.mp hp
  obtain ⟨a, ha, rfl⟩ := List.mem_map.mp hps
  obtain ⟨x, rfl⟩ := of_filter_map (c := fun p => s.promSpace p == v) (g := fun p => p)
    (f := fun p : PromOp => { p with phase := p.phase.resolve sel abort, phase2 := p.phase2.resolve sel abort }) ha fun x hx =>
    (congrArg (· == v) (promSpace_resolve s v sel abort x x.phase x.phase2)).trans hx
  obtain rfl | hp := List.mem_cons.mp hp
  · exact ⟨_, rfl⟩
  · exact ⟨_, List.mem_singleton.mp hp⟩

theorem resolved_truss (s : State) {p : Phase} (hp : p ∈ (((s.resolve v sel abort).trusses.filter fun t => t.space == v).map fun t =>
    t.courses.map (·.fetch) ++ t.entries.map fun e => e.2.wait).flatten) : Resolved sel abort p := by
  obtain ⟨ps, hps, hp⟩ := List.mem_flatten.mp hp
  obtain ⟨t, ht, rfl⟩ := List.mem_map.mp hps
  obtain ⟨x, rfl⟩ := of_filter_map (c := fun t : Truss => t.space == v) (f := fun t : Truss => t.resolve sel abort) (g := fun t => t) ht fun x hx => hx
  obtain hp | hp := List.mem_append.mp hp
  · exact resolved_fetch sel abort hp
  · obtain ⟨e, he, rfl⟩ := List.mem_map.mp hp
    exact resolved_entry sel abort he

theorem resolved_amsg (s : State) {p : Phase} (hp : p ∈ ((s.resolve v sel abort).cores.toList.map fun (c : Core) =>
    (c.amsgs.filter fun m => m.vd.val == v).map (·.wait)).flatten) : Resolved sel abort p := by
  obtain ⟨ps, hps, hp⟩ := List.mem_flatten.mp hp
  obtain ⟨c, hc, rfl⟩ := List.mem_map.mp hps
  have hcores : (s.resolve v sel abort).cores.toList = s.cores.toList.map fun (c : Core) =>
    { c with amsgs := c.amsgs.map fun m => if m.vd.val == v then { m with wait := m.wait.resolve sel abort } else m } := Vector.toList_map
  rw [hcores] at hc
  obtain ⟨c, -, rfl⟩ := List.mem_map.mp hc
  obtain ⟨m, hm, rfl⟩ := List.mem_map.mp hp
  obtain ⟨x, rfl⟩ := of_filter_map (g := fun m : AMsg => m) (f := fun m : AMsg => { m with wait := m.wait.resolve sel abort }) hm fun x hx => hx
  exact ⟨_, rfl⟩

theorem resolved_launch (s : State) {p : Phase} (hp : p ∈ ((s.resolve v sel abort).launches.filter fun l => l.vd.val == v).map (·.wait)) :
    Resolved sel abort p := by
  obtain ⟨l, hl, rfl⟩ := List.mem_map.mp hp
  obtain ⟨x, rfl⟩ := of_filter_map (g := fun l : Launch => l) (f := fun l : Launch => { l with wait := l.wait.resolve sel abort }) hl fun x hx => hx
  exact ⟨_, rfl⟩

theorem resolved_queue (s : State) {p : Phase} (hp : p ∈ (((s.resolve v sel abort).qcbs.filter fun e => e.2.vd.val == v).map fun e =>
    e.2.wait :: e.2.hwait :: e.2.infl.map (·.wait)).flatten) : Resolved sel abort p := by
  obtain ⟨ps, hps, hp⟩ := List.mem_flatten.mp hp
  obtain ⟨e, he, rfl⟩ := List.mem_map.mp hps
  obtain ⟨x, rfl⟩ := of_filter_map (g := fun e : Nat × Qcb => e) (f := fun e : Nat × Qcb => (e.1, e.2.resolve sel abort)) he fun x hx => hx
  obtain rfl | hp := List.mem_cons.mp hp
  · exact ⟨_, rfl⟩
  obtain rfl | hp := List.mem_cons.mp hp
  · exact ⟨_, rfl⟩
  unfold Qcb.resolve at hp
  simp only [List.map_map, List.mem_map, Function.comp] at hp
  obtain ⟨q, -, rfl⟩ := hp
  exact ⟨_, rfl⟩

theorem resolved_inbound (s : State) {p : Phase} (hp : p ∈ ((s.resolve v sel abort).inbound.filter fun i => i.x.dstEp.toNat % 512 == v).map (·.wait)) :
    Resolved sel abort p := by
  obtain ⟨l, hl, rfl⟩ := List.mem_map.mp hp
  obtain ⟨x, rfl⟩ := of_filter_map (g := fun i : Inbound => i) (f := fun i : Inbound => { i with wait := i.wait.resolve sel abort }) hl fun x hx => hx
  exact ⟨_, rfl⟩

/-- Every wait of a space has gone through `resolve`. -/
theorem resolved_of_mem (s : State) {p : Phase} (hp : p ∈ (s.resolve v sel abort).phasesOf v) : Resolved sel abort p := by
  unfold State.phasesOf at hp
  obtain hp | hp := List.mem_append.mp hp
  case inr => exact resolved_inbound v sel abort s hp
  obtain hp | hp := List.mem_append.mp hp
  case inr => exact resolved_queue v sel abort s hp
  obtain hp | hp := List.mem_append.mp hp
  case inr => exact resolved_launch v sel abort s hp
  obtain hp | hp := List.mem_append.mp hp
  case inr => exact resolved_amsg v sel abort s hp
  obtain hp | hp := List.mem_append.mp hp
  case inr => exact resolved_truss v sel abort s hp
  obtain hp | hp := List.mem_append.mp hp
  · exact resolved_access v sel abort s (fun n => trussIn_eq _ v n) hp
  · exact resolved_prom v sel abort s hp

end

end Sys2Proof.Machine
end

section
/-!
PROOFS. The mailbox's commands on vectors, stage-2 mappings, meters, dumps and queues, one by one.
-/
namespace Sys2Proof.Machine

/-! ### What the commands' own functions leave -/

/-- The page of a table that is taken from the pool, with the entry that names it. -/
def State.withTable (s : State) (a page : Nat) (pool : List Nat) : State :=
  ({ s with pool := pool } : State).clearPage page |>.supWrite a (natBytes 8 (page + 1))

theorem withTable_vds (s : State) (a page : Nat) (pool : List Nat) : (s.withTable a page pool).vds = s.vds := rfl

/-- The address of a table's entry for a guest-physical address (R216). -/
def tableEntryAt (gpa n table : Nat) : Nat := table + 8 * (gpa / 2 ^ (21 + 9 * n) % (if n = 3 then 16 else 512))

theorem makeLeaf_succ (s : State) (gpa n table : Nat) : s.makeLeaf gpa (n + 1) table =
    if bit (readNat s.mem (tableEntryAt gpa n table) 8) 0 && !bit (readNat s.mem (tableEntryAt gpa n table) 8) 7
      then s.makeLeaf gpa n (bits (readNat s.mem (tableEntryAt gpa n table) 8) 51 12 * 4096)
    else match s.pool with
      | [] => none
      | page :: pool => (s.withTable (tableEntryAt gpa n table) page pool).makeLeaf gpa n page := rfl

theorem makeLeaf_vds {gpa : Nat} : ∀ {n table : Nat} {s t : State} {a : Nat}, s.makeLeaf gpa n table = some (t, a) → t.vds = s.vds
  | 0, table, s, t, a, h => by
    unfold State.makeLeaf at h
    cases h
    rfl
  | n + 1, table, s, t, a, h => by
    rw [makeLeaf_succ] at h
    split at h
    · exact makeLeaf_vds h
    · split at h
      · cases h
      · exact (makeLeaf_vds h).trans (withTable_vds ..)

theorem mapPages_vds {root attrs : Nat} : ∀ {n gpa frame : Nat} {s t : State} {r : Bool}, s.mapPages root gpa frame attrs n = some (t, r) → t.vds = s.vds
  | 0, gpa, frame, s, t, r, h => by
    unfold State.mapPages at h
    cases h
    rfl
  | n + 1, gpa, frame, s, t, r, h => by
    unfold State.mapPages at h
    split at h
    · cases h
    case h_2 u a hleaf =>
      dsimp only at h
      split at h
      · cases h
      case h_2 x y hrest =>
        cases h
        exact (mapPages_vds hrest).trans (show u.vds = s.vds from makeLeaf_vds hleaf)

theorem unmapPages_vds (root : Nat) : ∀ (n gpa : Nat) (s : State), (s.unmapPages root gpa n).vds = s.vds
  | 0, gpa, s => rfl
  | n + 1, gpa, s => by
    unfold State.unmapPages
    dsimp only
    rw [unmapPages_vds root n]
    split <;> rfl

section
variable {s : State} {w : Vector W64 8} {d : VDev} (h : MailReady s) (hd : s.vdev? (argVd w) = some d)

/-! ### MAPVEC (R225, R398) -/

/-- A remap entry (R225). -/
def vectorWord (held v m : Bool) (vec : Nat) : W64 := BitVec.ofNat 64 (v.toNat * 2 ^ 63 + m.toNat * 2 ^ 62 + (held && m).toNat * 2 ^ 61 + vec)

theorem vectorWord_fields (held v m : Bool) {vec : Nat} (hvec : vec < 2 ^ 11) :
    (vectorWord held v m vec).getLsbD 63 = v ∧ (vectorWord held v m vec).getLsbD 62 = m ∧ bits (vectorWord held v m vec).toNat 10 0 = vec := by
  have hnat : (vectorWord held v m vec).toNat = v.toNat * 2 ^ 63 + m.toNat * 2 ^ 62 + (held && m).toNat * 2 ^ 61 + vec := by
    unfold vectorWord
    rw [BitVec.toNat_ofNat]
    cases v <;> cases m <;> cases held <;> (simp only [Bool.toNat_true, Bool.toNat_false, Bool.and_true, Bool.and_false]; omega)
  have hbit : ∀ i, (vectorWord held v m vec).getLsbD i = bit (vectorWord held v m vec).toNat i := fun i => rfl
  rw [hbit, hbit, hnat]
  refine ⟨bit_of_div ?_, bit_of_div ?_, ?_⟩
  · cases v <;> cases m <;> cases held <;> (simp only [Bool.toNat_true, Bool.toNat_false, Bool.and_true, Bool.and_false]; omega)
  · cases v <;> cases m <;> cases held <;> (simp only [Bool.toNat_true, Bool.toNat_false, Bool.and_true, Bool.and_false]; omega)
  · unfold bits
    cases v <;> cases m <;> cases held <;> (simp only [Bool.toNat_true, Bool.toNat_false, Bool.and_true, Bool.and_false]; omega)

theorem setVector_remap (s : State) (e : Nat) (v m : Bool) (vec : Nat) :
    (s.setVector e v m vec).remap = tset 0 s.remap e (vectorWord ((tget 0 s.remap e).getLsbD 61 && v) v m vec) := by
  unfold State.setVector
  dsimp only
  split <;> rfl

include h hd in
theorem mapvec_ok (hm : d.mode ≠ 4) (hbits : bits w[3].toNat 61 11 = 0) (hform : twf 0 s.remap = true) :
    let e := argVd w * 64 + bits w[2].toNat 5 0
    ∃ s' x, exec (.mapvec w) s = .next s' ∧ Answered s' 0 ∧ tget 0 s'.remap e = x ∧ x.getLsbD 63 = w[3].getLsbD 63 ∧
      x.getLsbD 62 = w[3].getLsbD 62 ∧ bits x.toNat 10 0 = bits w[3].toNat 10 0 ∧
      (∀ j, j ≠ e → tget 0 s'.remap j = tget 0 s.remap j) := by
  intro e
  have hrun : ∃ c, exec (.mapvec w) s = .next (((s.inBox (coded w c)).setVector e (w[3].getLsbD 63) (w[3].getLsbD 62)
      (bits w[3].toNat 10 0)).mbDone okSt) := by
    have hdo : ∀ c, doMapvec w (s.inBox (coded w c)) = .status ((s.inBox (coded w c)).setVector e (w[3].getLsbD 63) (w[3].getLsbD 62)
      (bits w[3].toNat 10 0)) okSt := by
      intro c
      unfold doMapvec
      rw [onDevice_inBox _ hd hm, if_neg (not_not_intro hbits)]
    exact ⟨_, congrArg Host.Outcome.next (mailbox_status h (hdo _))⟩
  obtain ⟨c, hrun⟩ := hrun
  have hremap := setVector_remap (s.inBox (coded w c)) e (w[3].getLsbD 63) (w[3].getLsbD 62) (bits w[3].toNat 10 0)
  obtain ⟨hv, hmask, hvec⟩ := vectorWord_fields ((tget 0 s.remap e).getLsbD 61 && w[3].getLsbD 63) (w[3].getLsbD 63) (w[3].getLsbD 62)
    (bits_lt w[3].toNat 10 0)
  refine ⟨_, _, hrun, mbDone_answered .., (congrArg (fun r => tget 0 r e) hremap).trans ((tget_tset hform e _ e).trans (if_pos rfl)), hv, hmask, hvec,
    fun j hj => ?_⟩
  exact (congrArg (fun r => tget 0 r j) hremap).trans ((tget_tset hform e _ j).trans (if_neg hj))

/-! ### Stage-2 mappings (R216, R397) -/

theorem raiseGen_gen {s : State} {v : Nat} {d : VDev} (hv : v < 512) (hd : s.vdev? v = some d) : (s.raiseGen v).gen v = d.gen + 1 := by
  have hraised : (s.raiseGen v).vdev? v = some d.raised := by
    rw [vdev?_raiseGen, if_pos rfl, hd]
    rfl
  rw [gen_of_vdev? hv hraised]
  rfl

theorem mem_mbDone (s : State) (st : BitVec 16) : (s.mbDone st).mem = s.mem := rfl
theorem vds_mbDone (s : State) (st : BitVec 16) : (s.mbDone st).vds = s.vds := rfl
theorem phasesOf_mbDone (s : State) (st : BitVec 16) (v : Nat) : (s.mbDone st).phasesOf v = s.phasesOf v := rfl
theorem gen_resolve (s : State) (v : Nat) (sel : Phase → Bool) (abort : Bool) (x : Nat) : (s.resolve v sel abort).gen x = s.gen x := rfl
theorem mem_resolve (s : State) (v : Nat) (sel : Phase → Bool) (abort : Bool) : (s.resolve v sel abort).mem = s.mem := rfl

theorem mem_of_noFlight {s t : State} (h : s.noFlight = t.noFlight) : s.mem = t.mem := (congrArg State.mem h :)

/-- The faults of a range of a device are done with. -/
def State.faultsMapped (s : State) (v base n : Nat) : State :=
  { s with faults := s.faults.filter fun f => !(f.space == v && f.stage2 && base ≤ f.addr && f.addr < base + 4096 * n) }

theorem mem_faultsMapped (s : State) (v base n : Nat) : (s.faultsMapped v base n).mem = s.mem := rfl
theorem gen_faultsMapped (s : State) (v base n x : Nat) : (s.faultsMapped v base n).gen x = s.gen x := rfl

theorem doMap2_ok {s s1 : State} {r : Bool} (hd : s.vdev? (argVd w) = some d) (hm : d.mode ≠ 4) (hbase : w[2].toNat % 4096 = 0) (hframe : w[3].toNat % 4096 = 0)
    (hend : w[2].toNat + 4096 * w[4].toNat ≤ 2 ^ 52) (hfend : w[3].toNat + 4096 * w[4].toNat ≤ 2 ^ 52) (hatom : bits w[5].toNat 59 58 ≠ 3)
    (hctx : s.coversContext w[5].toNat w[3].toNat (4096 * w[4].toNat) = false)
    (hmap : s.mapPages d.s2root w[2].toNat (w[3].toNat / 4096) w[5].toNat w[4].toNat = some (s1, r)) :
    doMap2 w s = .status (((if r then s1.raiseGen (argVd w) else s1).faultsMapped (argVd w) w[2].toNat w[4].toNat).resolve (argVd w)
      (inRange w[2].toNat w[4].toNat) false) okSt := by
  have hcond : (w[2].toNat % 4096 ≠ 0 || w[3].toNat % 4096 ≠ 0 || addrSpace < w[2].toNat + 4096 * w[4].toNat ||
      addrSpace < w[3].toNat + 4096 * w[4].toNat || bits w[5].toNat 59 58 = 3 || s.coversContext w[5].toNat w[3].toNat (4096 * w[4].toNat)) = false := by
    rw [hctx]
    rw [decide_eq_false (Nat.not_lt.mpr hend : ¬ addrSpace < _), decide_eq_false (Nat.not_lt.mpr hfend : ¬ addrSpace < _)]
    simp [hbase, hframe, hatom]
  unfold doMap2
  dsimp only
  rw [onDevice_some _ hd hm, if_neg (by rw [hcond]; exact Bool.false_ne_true), hmap]
  rfl

theorem inRange_resolve {base n : Nat} {p : Phase} (hp : Resolved (inRange base n) false p) : inRange base n p = false := by
  obtain ⟨q, rfl⟩ := hp
  unfold Phase.resolve
  split
  · rfl
  case isFalse hq =>
    unfold Phase.waits at hq
    unfold inRange at hq ⊢
    cases q <;> simp_all

include h hd in
theorem map2_ok (hm : d.mode ≠ 4) {s1 : State} {r : Bool} (hbase : w[2].toNat % 4096 = 0) (hframe : w[3].toNat % 4096 = 0)
    (hend : w[2].toNat + 4096 * w[4].toNat ≤ 2 ^ 52) (hfend : w[3].toNat + 4096 * w[4].toNat ≤ 2 ^ 52) (hatom : bits w[5].toNat 59 58 ≠ 3)
    (hctx : s.coversContext w[5].toNat w[3].toNat (4096 * w[4].toNat) = false)
    (hmap : (s.inBox (coded w 0x08)).mapPages d.s2root w[2].toNat (w[3].toNat / 4096) w[5].toNat w[4].toNat = some (s1, r)) :
    ∃ s', exec (.map2 w) s = .next s' ∧ Answered s' 0 ∧ s'.mem = s1.mem ∧
      s'.gen (argVd w) = (if r then d.gen + 1 else d.gen) ∧ ∀ p ∈ s'.phasesOf (argVd w), inRange w[2].toNat w[4].toNat p = false := by
  have hd1 : s1.vdev? (argVd w) = some d := (vdev?_of_vds (mapPages_vds hmap) _).trans hd
  refine ⟨_, congrArg Host.Outcome.next (mailbox_status h (doMap2_ok hd hm hbase hframe hend hfend hatom hctx hmap)), mbDone_answered .., ?_, ?_, ?_⟩
  · rw [mem_mbDone, mem_resolve, mem_faultsMapped]
    cases r with
    | true => exact mem_of_noFlight (raiseGen_noFlight s1 _)
    | false => rfl
  · rw [gen_mbDone, gen_resolve, gen_faultsMapped]
    cases r with
    | true => exact raiseGen_gen (argVd_lt w) hd1
    | false => exact gen_of_vdev? (argVd_lt w) hd1
  · intro p hp
    rw [phasesOf_mbDone] at hp
    exact inRange_resolve (resolved_of_mem _ _ _ _ hp)

include h hd in
theorem unmap2_ok (hm : d.mode ≠ 4) (hbase : w[2].toNat % 4096 = 0) (hend : w[2].toNat + 4096 * w[4].toNat ≤ 2 ^ 52) :
    ∃ s', exec (.unmap2 w) s = .next s' ∧ Answered s' 0 ∧ s'.gen (argVd w) = d.gen + 1 ∧
      s'.mem = ((s.inBox (coded w 0x09)).unmapPages d.s2root w[2].toNat w[4].toNat).mem := by
  have hcond : (w[2].toNat % 4096 ≠ 0 || addrSpace < w[2].toNat + 4096 * w[4].toNat) = false := by
    rw [decide_eq_false (Nat.not_lt.mpr hend : ¬ addrSpace < _)]
    simp [hbase]
  have hrun : doUnmap2 w (s.inBox (coded w 0x09)) =
      .status (((s.inBox (coded w 0x09)).unmapPages d.s2root w[2].toNat w[4].toNat).raiseGen (argVd w)) okSt := by
    unfold doUnmap2
    dsimp only
    rw [onDevice_inBox _ hd hm, if_neg (by rw [hcond]; exact Bool.false_ne_true)]
  have hd1 := (vdev?_of_vds (unmapPages_vds d.s2root w[4].toNat w[2].toNat (s.inBox (coded w 0x09))) (argVd w)).trans hd
  exact ⟨_, congrArg Host.Outcome.next (mailbox_status h hrun), mbDone_answered ..,
    (gen_mbDone ..).trans (raiseGen_gen (argVd_lt w) hd1), (mem_mbDone ..).trans (mem_of_noFlight (raiseGen_noFlight _ _))⟩

theorem not_wait2_resolve {sel : Phase → Bool} {p : Phase} (hp : Resolved sel true p) {a : Nat} (hpa : p = .wait2 a) : sel (.wait2 a) = false := by
  obtain ⟨q, rfl⟩ := hp
  unfold Phase.resolve at hpa
  split at hpa
  · cases hpa
  case isFalse hq =>
    rw [hpa] at hq
    simpa [Phase.waits] using hq

include h hd in
theorem abort2_ok (hm : d.mode ≠ 4) : ∃ s', exec (.abort2 w) s = .next s' ∧ Answered s' 0 ∧
    (∀ p ∈ s'.phasesOf (argVd w), ∀ a, p = .wait2 a → a / 4096 ≠ w[2].toNat / 4096) ∧ s'.mem = s.mem := by
  have hrun : doAbort2 w (s.inBox (coded w 0x0A)) =
      .status ((s.inBox (coded w 0x0A)).endStage2 (argVd w) (fun a => a / 4096 == w[2].toNat / 4096) true) okSt := by
    unfold doAbort2
    dsimp only
    rw [onDevice_inBox _ hd hm]
  refine ⟨_, congrArg Host.Outcome.next (mailbox_status h hrun), mbDone_answered .., fun p hp a hpa => ?_, rfl⟩
  have hsel := not_wait2_resolve (resolved_of_mem _ _ _ _ hp) hpa
  exact ne_of_beq_false hsel

/-! ### Meters and dumps (R198, R411) -/

theorem doMeters_ok {s : State} (hd : s.vdev? (argVd w) = some d) (hw : w[2].toNat % 8 = 0) :
    doMeters w s = .status (s.pfWrite w[2].toNat (wordBytes d.meters.toList)) okSt := by
  unfold doMeters
  rw [onAny_some _ hd, if_neg (not_not_intro hw)]

include h hd in
theorem meters_ok (hw : w[2].toNat % 8 = 0) : ∃ s', exec (.meters w) s = .next s' ∧ Answered s' 0 ∧ s'.vds = s.vds ∧
    (s.hostUp = true → s'.hostOut = s.hostOut ++ [HostOut.write w[2].toNat (wordBytes d.meters.toList), HostOut.msix 0 0]) ∧
    (s.hostUp = false → s'.hostOut = s.hostOut ++ [HostOut.msix 0 0] ∧ s'.pfHost = s.pfHost ∧
      s'.hostWait = s.hostWait ++ [(w[2].toNat, wordBytes d.meters.toList)]) := by
  refine ⟨_, congrArg Host.Outcome.next (mailbox_status h (doMeters_ok (s := s.inBox (coded w 0x0B)) hd hw)), mbDone_answered .., ?_, fun hup => ?_, fun hup => ?_⟩
  · exact (congrArg State.vds (pfWrite_noEvents (s.inBox (coded w 0x0B)) w[2].toNat (wordBytes d.meters.toList)) :)
  · have hput : (s.inBox (coded w 0x0B)).pfWrite w[2].toNat (wordBytes d.meters.toList) =
        (s.inBox (coded w 0x0B)).pfPut w[2].toNat (wordBytes d.meters.toList) := if_pos hup
    rw [hput]
    exact List.append_assoc ..
  · have hwait : (s.inBox (coded w 0x0B)).pfWrite w[2].toNat (wordBytes d.meters.toList) =
        { s.inBox (coded w 0x0B) with hostWait := s.hostWait ++ [(w[2].toNat, wordBytes d.meters.toList)] } :=
      if_neg (ne_true_of_eq_false hup)
    rw [hwait]
    exact ⟨rfl, rfl, rfl⟩

/-- `n` more slots are acknowledged. -/
def VDev.dumpsFreed (d : VDev) (freed : W32) : VDev :=
  { d with dumpFreed := freed, chainSlots := d.chainSlots.filter fun k => (k - freed).toNat < (d.dumpNext - freed).toNat }

include h hd in
theorem dumpack_ok (hw : w[2].toNat ≤ (d.dumpNext - d.dumpFreed).toNat) :
    ∃ s' d', exec (.dumpack w) s = .next s' ∧ Answered s' 0 ∧ s'.vdev? (argVd w) = some d' ∧
      d'.dumpFreed = d.dumpFreed + BitVec.ofNat 32 w[2].toNat ∧ d'.dumpNext = d.dumpNext ∧ d'.dumps = d.dumps := by
  have hrun : ∀ c, doDumpack w (s.inBox (coded w c)) = .status (((s.inBox (coded w c)).modVdev (argVd w) fun d' =>
      d'.dumpsFreed (d.dumpFreed + BitVec.ofNat 32 w[2].toNat)).dumpHeader (argVd w)) okSt := by
    intro c
    unfold doDumpack
    dsimp only
    rw [onAny_some _ ((vdev?_inBox ..).trans hd), if_neg (Nat.not_lt.mpr hw)]
    rfl
  refine ⟨_, d.dumpsFreed (d.dumpFreed + BitVec.ofNat 32 w[2].toNat), congrArg Host.Outcome.next (mailbox_status h (hrun _)), mbDone_answered .., ?_, rfl, rfl, rfl⟩
  rw [vdev?_mbDone, vdev?_dumpHeader, vdev?_modVdev, if_pos rfl, vdev?_inBox, hd]
  rfl

end

end Sys2Proof.Machine
end

section
/-!
PROOFS. The mailbox's commands on queues (15 R338; 17 R390, R391), and what the commands on resources do.
-/
namespace Sys2Proof.Machine

/-! ### QCREATE (R390) -/

/-- The kick-page map names the block (R226). -/
def State.withKick (s : State) (k : Nat) (guest : Bool) (blk : Nat) : State :=
  { s with kickMap := tset 0 s.kickMap k (BitVec.ofNat 32 (2 ^ 31 + guest.toNat * 2 ^ 30 + blk)) }

theorem lowHalf_eq (x : W64) : BitVec.ofNat 32 (bits x.toNat 31 0) = x.truncate 32 := by
  apply BitVec.eq_of_toNat_eq
  simp [bits]

theorem newQcb_fields (s : State) (w : Vector W64 8) (blk : Nat) : (s.newQcb w blk).v = w[2].getLsbD 63 ∧
    (s.newQcb w blk).vd.val = bits w[2].toNat 51 43 ∧ (s.newQcb w blk).kidx.val = bits w[2].toNat 8 0 ∧
    (s.newQcb w blk).rsz = bits w[2].toNat 42 38 ∧ (s.newQcb w blk).bprio.toNat = bits w[2].toNat 59 56 := by
  have hbprio : bits w[2].toNat 59 56 < 2 ^ 4 := bits_lt _ _ _
  exact ⟨rfl, Nat.mod_eq_of_lt (bits_lt _ _ _), Nat.mod_eq_of_lt (bits_lt _ _ _), rfl, Nat.mod_eq_of_lt hbprio⟩

theorem qcb?_withKick (s : State) (k : Nat) (guest : Bool) (blk x : Nat) : (s.withKick k guest blk).qcb? x = s.qcb? x := rfl
theorem qcb?_mbDone (s : State) (st : BitVec 16) (x : Nat) : (s.mbDone st).qcb? x = s.qcb? x := rfl
theorem qcb?_inBox (s : State) (w : Vector W64 8) (x : Nat) : (s.inBox w).qcb? x = s.qcb? x := rfl

theorem qcreate_ok {s : State} {w : Vector W64 8} {d : VDev} (h : MailReady s) (hd : s.vdev? (bits w[2].toNat 51 43) = some d) (hm : d.mode ≠ 4) (hnone : s.qcb? (bits w[1].toNat 15 0) = none)
    (hkick : (s.kickEntry (bits w[2].toNat 51 43) (bits w[2].toNat 8 0)).getLsbD 31 = false) (hmem : Memory.wf s.mem = true) :
    ∃ s', exec (.qcreate w) s = .next s' ∧ Answered s' 0 ∧ (s'.kickEntry (bits w[2].toNat 51 43) (bits w[2].toNat 8 0)).getLsbD 31 = true ∧
      (w[2].getLsbD 63 = true → ∃ b, s'.qcb? (bits w[1].toNat 15 0) = some b ∧ b.st = .unmapped ∧
        b.vd.val = bits w[2].toNat 51 43 ∧ b.rsz = bits w[2].toNat 42 38 ∧ b.bprio.toNat = bits w[2].toNat 59 56 ∧
        b.rbase = bits w[3].toNat 56 0 ∧ b.head = w[4].truncate 32 ∧ b.retire = w[5].truncate 32 ∧ b.err = 0 ∧ b.infl = []) := by
  obtain ⟨hv, hvd, hkidx, hrsz, hbprio⟩ := newQcb_fields (s.inBox (coded w 0x0C)) w (bits w[1].toNat 15 0)
  have hdrain : (s.inBox (coded w 0x0C)).drainingBlock (bits w[1].toNat 15 0) = false := by
    unfold State.drainingBlock
    rw [qcb?_inBox, hnone]
  have hrun : doQcreate w (s.inBox (coded w 0x0C)) = .status (((s.inBox (coded w 0x0C)).putQcb (bits w[1].toNat 15 0)
      ((s.inBox (coded w 0x0C)).newQcb w (bits w[1].toNat 15 0))).withKick (bits w[2].toNat 51 43 * 512 + bits w[2].toNat 8 0) (w[7].getLsbD 0)
      (bits w[1].toNat 15 0)) okSt := by
    unfold doQcreate
    dsimp only
    rw [hvd, hkidx, onDevice_inBox _ hd hm, hdrain, if_neg Bool.false_ne_true, qcb?_inBox, hnone]
    exact if_neg (by rw [show (tget 0 (s.inBox (coded w 0x0C)).kickMap _).getLsbD 31 = false from hkick]; decide)
  refine ⟨_, congrArg Host.Outcome.next (mailbox_status h hrun), mbDone_answered .., ?_, fun hw => ?_⟩
  · have hblk : bits w[1].toNat 15 0 < 2 ^ 16 := bits_lt _ _ _
    have hbit : (BitVec.ofNat 32 (2 ^ 31 + (w[7].getLsbD 0).toNat * 2 ^ 30 + bits w[1].toNat 15 0)).getLsbD 31 = true := by
      have hone : (w[7].getLsbD 0).toNat ≤ 1 := Bool.toNat_le _
      have hbitOf : ∀ x : W32, x.getLsbD 31 = bit x.toNat 31 := fun _ => rfl
      rw [hbitOf, BitVec.toNat_ofNat]
      exact bit_of_div (b := true) (by rw [Bool.toNat_true]; omega)
    have hne : BitVec.ofNat 32 (2 ^ 31 + (w[7].getLsbD 0).toNat * 2 ^ 30 + bits w[1].toNat 15 0) ≠ 0 := by
      intro hzero
      rw [hzero] at hbit
      revert hbit
      decide
    exact (congrArg (·.getLsbD 31) (tget_tset_self hne _ _)).trans hbit
  · have hfound := qcb?_putQcb (s := s.inBox (coded w 0x0C)) hmem (bits w[1].toNat 15 0) (hv.trans hw) rfl (hrsz ▸ bits_lt w[2].toNat 42 38)
    refine ⟨_, (qcb?_mbDone ..).trans ((qcb?_withKick ..).trans hfound), rfl, hvd, hrsz, hbprio, Nat.mod_eq_of_lt (bits_lt w[3].toNat 56 0), ?_, ?_, rfl, rfl⟩
    · exact lowHalf_eq w[4]
    · exact lowHalf_eq w[5]

/-! ### QRESTART (R391) -/

/-- A queue that starts again. -/
def Qcb.restarted (b : Qcb) (io : Nat) (tail seq : W32) : Qcb :=
  let b := { b with err := 0, errSeq := 0, head := b.retire, tail := tail, eseq := seq, st := .unmapped, slot := none,
                    look := [], skip := 0, wait := .untranslated, ringAt := none }
  if b.idle then b else b.pend io

theorem restarted_cases (b : Qcb) (io : Nat) (tail seq : W32) : ∃ t p, b.restarted io tail seq =
    { b with err := 0, errSeq := 0, head := b.retire, tail := tail, eseq := seq, st := .unmapped, slot := none,
             look := [], skip := 0, wait := .untranslated, ringAt := none, waitSince := t, pending := p } ∧ (tail ≠ b.retire → p = true) := by
  unfold Qcb.restarted
  dsimp only
  split
  case isTrue hidle =>
    refine ⟨_, _, rfl, fun hne => absurd ?_ hne⟩
    unfold Qcb.idle at hidle
    exact (eq_of_beq hidle).symm
  · exact ⟨_, _, rfl, fun _ => rfl⟩

/-- The scheduler of mappings is woken for a queue that has packets (R351). -/
def State.withPasses (s : State) (n : Nat) : State := { s with passesDue := s.passesDue + n }

theorem qcb?_withPasses (s : State) (n x : Nat) : (s.withPasses n).qcb? x = s.qcb? x := rfl

theorem doQrestart_eq (w : Vector W64 8) (s : State) : doQrestart w s = match s.qcb? (bits w[1].toNat 15 0) with
    | none => .status s badArg
    | some b => onDevice s b.vd fun _ =>
      if (b.st ≠ .halted && b.st ≠ .faulted) || b.retire ≠ b.head then .status s busySt
      else if b.units < ((w[2].truncate 32 : W32) - b.retire).toNat then .status s badArg
      else .status ((s.modQcb (bits w[1].toNat 15 0) (Qcb.restarted · s.ioNow (w[2].truncate 32) (w[3].truncate 32))).withPasses
        ((w[2].truncate 32 : W32) != b.retire).toNat) okSt := rfl

theorem qrestart_ok {s : State} {w : Vector W64 8} {d : VDev} {b : Qcb} (h : MailReady s) (hb : s.qcb? (bits w[1].toNat 15 0) = some b) (hd : s.vdev? b.vd = some d) (hm : d.mode ≠ 4)
    (hst : b.st = .halted ∨ b.st = .faulted) (hretire : b.retire = b.head) (htail : ((w[2].truncate 32 : W32) - b.retire).toNat ≤ b.units)
    (hmem : Memory.wf s.mem = true) (hrsz : b.rsz < 32) :
    ∃ s' b', exec (.qrestart w) s = .next s' ∧ Answered s' 0 ∧ s'.qcb? (bits w[1].toNat 15 0) = some b' ∧ b'.st = .unmapped ∧ b'.err = 0 ∧
      b'.errSeq = 0 ∧ b'.head = b.retire ∧ b'.tail = w[2].truncate 32 ∧ b'.eseq = w[3].truncate 32 ∧
      (w[2].truncate 32 ≠ b.retire → b'.pending = true) := by
  have hrun : doQrestart w (s.inBox (coded w 0x0D)) = .status (((s.inBox (coded w 0x0D)).modQcb (bits w[1].toNat 15 0)
      (Qcb.restarted · s.ioNow (w[2].truncate 32) (w[3].truncate 32))).withPasses ((w[2].truncate 32 : W32) != b.retire).toNat) okSt := by
    have hcond : ((b.st ≠ .halted && b.st ≠ .faulted) || b.retire ≠ b.head) = false := by
      rw [hretire]
      obtain hst | hst := hst <;> rw [hst] <;> simp
    rw [doQrestart_eq, qcb?_inBox, hb]
    dsimp only
    rw [onDevice_inBox _ hd hm, if_neg (by rw [hcond]; exact Bool.false_ne_true), if_neg (Nat.not_lt.mpr htail)]
    rfl
  obtain ⟨t, p, hre, hp⟩ := restarted_cases b s.ioNow (w[2].truncate 32) (w[3].truncate 32)
  have hfound := qcb?_modQcb_unmapped (s := s.inBox (coded w 0x0D)) (f := (Qcb.restarted · s.ioNow (w[2].truncate 32) (w[3].truncate 32))) hb hmem
    (by rw [hre]) (by rw [hre]) (by rw [hre]; exact hrsz)
  rw [hre] at hfound
  exact ⟨_, _, congrArg Host.Outcome.next (mailbox_status h hrun), mbDone_answered .., (qcb?_mbDone ..).trans ((qcb?_withPasses ..).trans hfound),
    rfl, rfl, rfl, rfl, rfl, rfl, hp⟩

/-- Settles O47. A wait's end leaves no phase of its space in the range (`resolved_of_mem`), and a block is found again by its words. -/
theorem resourceCommands : Obligations.ResourceCommands := by
  unfold Obligations.ResourceCommands
  refine ⟨?device, ?create, ?restart⟩
  case device =>
    intro s w d h hd hm
    refine ⟨?mapvec, ?map2, ?unmap2, ?abort2, ?meters, ?dumpack⟩
    case mapvec => exact fun hbits hform => mapvec_ok h hd hm hbits hform
    case map2 => exact fun s1 r hbase hframe hend hfend hatom hctx hmap => map2_ok h hd hm hbase hframe hend hfend hatom hctx hmap
    case unmap2 => exact fun hbase hend => unmap2_ok h hd hm hbase hend
    case abort2 => exact abort2_ok h hd hm
    case meters => exact fun hw => meters_ok h hd hw
    case dumpack => exact fun hw => dumpack_ok h hd hw
  case create =>
    intro s w d h hd hm hnone hkick hmem
    exact qcreate_ok h hd hm hnone hkick hmem
  case restart =>
    intro s w b d h hb hd hm hst hretire htail hmem hrsz
    exact qrestart_ok h hb hd hm hst hretire htail hmem hrsz

end Sys2Proof.Machine
end

section
/-!
PROOFS. The steps of courses other than words: completions, timed holds, requests (08 R161, R166, R169; 09 R179).
-/
namespace Sys2Proof.Machine

/-! ### Completions (R179, R255) -/

/-- A course with other registers. -/
def Course.withRegs (k c : Course) : Course := { k with v := c.v, g := c.g, p := c.p, psn := c.psn }

/-- A course with another note of the poisoned words. -/
def Course.withPsn (k : Course) (q : List (Nat × Nat)) : Course := { k with psn := q }

theorem blend_withRegs (k c : Course) (ch : Nat → Bool) (w : RegVal) : (k.blend ch w).withRegs c = k.withRegs c := by
  unfold Course.blend
  cases w with
  | v n m x => rfl
  | p n m x => rfl
  | g n x => dsimp only; split <;> rfl

theorem landOp_eq (k : Course) (tick : Nat) (o : TokOp) (w : RegVal) : ∃ ch q, k.landOp tick o w = (k.blend ch w).withPsn q := ⟨_, _, rfl⟩

theorem withPsn_withRegs (k c : Course) (q : List (Nat × Nat)) : (k.withPsn q).withRegs c = k.withRegs c := rfl

theorem landOp_withRegs (k c : Course) (tick : Nat) (o : TokOp) (w : RegVal) : (k.landOp tick o w).withRegs c = k.withRegs c := by
  obtain ⟨ch, q, h⟩ := landOp_eq k tick o w
  rw [h, withPsn_withRegs, blend_withRegs]

theorem lands_withRegs (tick : Nat) (o : TokOp) (c : Course) (ws : List RegVal) (k : Course) :
    (ws.foldl (fun k w => k.landOp tick o w) k).withRegs c = k.withRegs c := by
  induction ws generalizing k with
  | nil => rfl
  | cons w ws ih => exact (ih _).trans (landOp_withRegs ..)

theorem put_withPsn (k : Course) (q : List (Nat × Nat)) (w : RegVal) : (k.withPsn q).put w = (k.put w).withPsn q := by
  unfold Course.put Course.blend
  cases w <;> rfl

theorem withPsn_withPsn (k : Course) (q r : List (Nat × Nat)) : (k.withPsn q).withPsn r = k.withPsn r := rfl

theorem landOp_put {o : TokOp} (h : o.clash = []) (k : Course) (tick : Nat) (w : RegVal) :
    k.landOp tick o w = (k.put w).withPsn (clearWords w (k.put w).psn) := by
  unfold Course.landOp
  rw [h]
  rfl

/-- With no clash every result is written whole. -/
theorem lands_put {o : TokOp} (h : o.clash = []) (tick : Nat) (ws : List RegVal) : ∀ (k : Course) (q : List (Nat × Nat)),
    ∃ q', ws.foldl (fun k w => k.landOp tick o w) (k.withPsn q) = (ws.foldl Course.put k).withPsn q' := by
  induction ws with
  | nil => exact fun k q => ⟨q, rfl⟩
  | cons w ws ih =>
    intro k q
    obtain ⟨q', hq⟩ := ih (k.put w) (clearWords w ((k.withPsn q).put w).psn)
    refine ⟨q', ?_⟩
    rw [List.foldl_cons, List.foldl_cons, landOp_put h, ← hq, put_withPsn, withPsn_withPsn]

/-- What the fall of an operation's count does besides landing its results (R179). -/
def Course.counted (k : Course) (o : TokOp) : Course :=
  ({ k with
    tok := k.tok.set o.tk ⟨k.tok[o.tk].count - 1, if k.tok[o.tk].status = 0 then o.status else k.tok[o.tk].status⟩,
    fstat := if o.fault.isSome then k.fstat else k.fstat ||| o.flags } : Course).modOp o.id fun o => { o with fallen := true }

/-- What an operation writes. -/
def Course.landed (k : Course) (tick : Nat) (o : TokOp) : Course := if o.fault.isSome then k else o.writes.foldl (fun k w => k.landOp tick o w) k

theorem fall_eq (k : Course) (tick : Nat) (o : TokOp) : k.fall tick o = (k.landed tick o).counted o := rfl

theorem landed_withRegs (k : Course) (tick : Nat) (o : TokOp) : (k.landed tick o).withRegs k = k := by
  unfold Course.landed
  split
  · rfl
  · exact lands_withRegs tick o k o.writes k

theorem landed_eq (k : Course) (tick : Nat) (o : TokOp) : ∃ c : Course, k.landed tick o = k.withRegs c :=
  ⟨k.landed tick o, (congrArg (Course.withRegs · (k.landed tick o)) (landed_withRegs k tick o) :)⟩

theorem tokenFall_ok {s : State} {c : CRef} {tk : Tok} {k : Course} {as bs : List TokOp} {o : TokOp} (hk : s.course? c = some k)
    (hkill : k.cstate ≠ .killed) (hret : k.cstate ≠ .retired) (hops : k.ops = as ++ o :: bs) (has : ∀ a ∈ as, a.tk ≠ tk ∨ a.fallen = true)
    (htk : o.tk = tk) (hfallen : o.fallen = false) (hwait : o.wait = .nothing) (hpoison : o.poison = false ∨ o.fault.isSome = true) :
    tokenFall s c tk = { s.setCourse c (k.fall s.tick o) with tick := s.tick + 1 } := by
  have hfind : k.ops.find? (fun o => o.tk == tk && !o.fallen) = some o := by
    rw [hops, List.find?_append, List.find?_eq_none.mpr, Option.none_or, List.find?_cons_of_pos (by rw [htk, hfallen]; simp)]
    intro a ha
    obtain h | h := has a ha
    · simp [h]
    · simp [h]
  have hnext : k.nextFall tk = some o := by
    unfold Course.nextFall
    rw [hfind]
    exact if_pos (by unfold TokOp.done; rw [hwait]; rfl)
  unfold tokenFall
  rw [hk]
  dsimp only
  rw [if_neg (by simp [hkill, hret]), hnext]
  refine if_neg ?_
  obtain h | h := hpoison
  · simp [h]
  · rw [Option.isNone_eq_false_iff.mpr h, Bool.and_false]
    exact Bool.false_ne_true

theorem counted_regs (k : Course) (o : TokOp) : (k.counted o).v = k.v ∧ (k.counted o).g = k.g ∧ (k.counted o).p = k.p := ⟨rfl, rfl, rfl⟩

theorem fall_counts (k : Course) (tick : Nat) (o : TokOp) :
    (k.fall tick o).tok = k.tok.set o.tk ⟨k.tok[o.tk].count - 1, if k.tok[o.tk].status = 0 then o.status else k.tok[o.tk].status⟩ ∧
    (k.fall tick o).ops = k.ops.map (fun p => if p.id = o.id then { p with fallen := true } else p) ∧
    (k.fall tick o).fstat = (if o.fault.isSome then k.fstat else k.fstat ||| o.flags) := by
  obtain ⟨c, hc⟩ := landed_eq k tick o
  rw [fall_eq, hc]
  exact ⟨rfl, rfl, rfl⟩

/-- A fall changes the registers, the token, the flags and the operation's mark alone. -/
theorem fall_kept (k : Course) (tick : Nat) (o : TokOp) :
    ({ k.fall tick o with v := k.v, g := k.g, p := k.p, tok := k.tok, fstat := k.fstat, ops := k.ops, psn := k.psn } : Course) = k := by
  obtain ⟨c, hc⟩ := landed_eq k tick o
  rw [fall_eq, hc]
  rfl

theorem fall_faulted {o : TokOp} (h : o.fault.isSome = true) (k : Course) (tick : Nat) : (k.fall tick o).v = k.v ∧ (k.fall tick o).g = k.g ∧
    (k.fall tick o).p = k.p ∧ (k.fall tick o).fstat = k.fstat := by
  have hland : k.landed tick o = k := if_pos h
  obtain ⟨-, -, hfstat⟩ := fall_counts k tick o
  obtain ⟨hv, hg, hp⟩ := counted_regs k o
  refine ⟨?_, ?_, ?_, hfstat.trans (if_pos h)⟩
  · rw [fall_eq, hland, hv]
  · rw [fall_eq, hland, hg]
  · rw [fall_eq, hland, hp]

theorem fall_put {o : TokOp} (hf : o.fault = none) (hc : o.clash = []) (k : Course) (tick : Nat) : (k.fall tick o).v = (o.writes.foldl Course.put k).v ∧
    (k.fall tick o).g = (o.writes.foldl Course.put k).g ∧ (k.fall tick o).p = (o.writes.foldl Course.put k).p := by
  obtain ⟨q, hq⟩ := lands_put hc tick o.writes k k.psn
  have hland : k.landed tick o = (o.writes.foldl Course.put k).withPsn q := by
    unfold Course.landed
    rw [hf]
    exact hq
  obtain ⟨hv, hg, hp⟩ := counted_regs ((o.writes.foldl Course.put k).withPsn q) o
  rw [fall_eq, hland]
  exact ⟨hv, hg, hp⟩

/-! ### Timed holds (R95, R161, R166) -/

theorem endHold_ok {s : State} {c : CRef} {t : Truss} {k : Course} {till : Nat} {sel : Hold → Option Nat} (ht : s.truss? c.truss = some t)
    (hk : s.course? c = some k) (hcore : t.onCore = true) (hres : k.cstate = .resident) (hsel : sel k.hold = some till) :
    (endHold s c sel).clk = max s.clk till ∧ (endHold s c sel).mem = s.mem ∧
      (endHold s c sel).cores.map Core.noCounts = s.cores.map Core.noCounts ∧
      ∃ ovf, (endHold s c sel).course? c = some { k with hold := .none, ovfPend := k.ovfPend ++ ovf } := by
  have hrun : endHold s c sel = (s.advanceTo till).modCourse c fun k => { k with hold := .none } := by
    unfold endHold
    rw [ht, hk]
    dsimp only
    rw [if_neg (by rw [hcore, hres]; decide), hsel]
  have hkt : t.courses[c.course]? = some k := by
    unfold State.course? at hk
    unfold State.truss? at ht
    rw [ht] at hk
    exact hk
  obtain ⟨u, hu, -, -, -, -, hcourses⟩ := truss?_advanceTo ht till
  obtain ⟨ovf, hovf⟩ := hcourses c.course k hkt
  have hfound : (s.advanceTo till).course? c = some { k with ovfPend := k.ovfPend ++ ovf } := by
    unfold State.course?
    unfold State.truss? at hu
    rw [hu]
    exact hovf
  rw [hrun]
  refine ⟨advanceTo_clk s till, advanceTo_mem s till, advanceTo_cores s till, ovf, ?_⟩
  rw [course?_modCourse, if_pos rfl, hfound]
  rfl

/-! ### Traps taken at a boundary (R50, R169) -/

theorem atBoundary_ok {s : State} {c : CRef} {t : Truss} {k0 : Course} (ht : s.truss? c.truss = some t) (hk : s.course? c = some k0)
    (hruns : s.runs t = true) (hres : k0.merge.cstate = .resident) (htm : k0.merge.tm = false) (hframes : k0.merge.frames.length < 4)
    (hlanes : k0.merge.lanes ≠ 0) (hquad : s.quadSpent (4 * t.core + k0.merge.slot / 16) = false) :
    s.atBoundary c = some (s.setCourse c k0.merge, t, k0.merge) := by
  have hopen : k0.merge.asyncOpen = true := by
    unfold Course.asyncOpen
    rw [hres, htm]
    exact decide_eq_true hframes
  unfold State.atBoundary
  rw [ht, hk]
  dsimp only
  rw [if_pos (by rw [hruns, hopen, bne_iff_ne.mpr hlanes, hquad]; decide)]

/-- Settles O33: each step by what it makes of its course. -/
theorem courseStepsComplete : Obligations.CourseStepsComplete := by
  unfold Obligations.CourseStepsComplete
  refine ⟨?completion, ?hold, ?debug, ?trap⟩
  case completion =>
    intro s c tk k as o bs hk hkill hret hops has htk hfallen hwait hpoison
    obtain ⟨htok, hmark, hfstat⟩ := fall_counts k s.tick o
    refine ⟨k.fall s.tick o, congrArg Host.Outcome.next (tokenFall_ok hk hkill hret hops has htk hfallen hwait hpoison), ?_, hmark,
      fun hf => fall_faulted hf k s.tick, fun hf => ?_, fun hf hc => fall_put hf hc k s.tick, fall_kept k s.tick o⟩
    · subst htk
      exact htok
    · rw [hfstat, hf]
      exact if_neg Bool.false_ne_true
  case hold =>
    intro s c t k till i ht hk hcore hres hi
    obtain ⟨rfl, hhold⟩ | ⟨rfl, hhold⟩ | ⟨rfl, hhold⟩ := hi
    · exact ⟨_, rfl, endHold_ok ht hk hcore hres (by rw [hhold])⟩
    · exact ⟨_, rfl, endHold_ok ht hk hcore hres (by rw [hhold])⟩
    · exact ⟨_, rfl, endHold_ok ht hk hcore hres (by rw [hhold])⟩
  case debug =>
    intro s c k hk hkill hret
    refine congrArg Host.Outcome.next ?_
    rw [hk]
    dsimp only
    rw [if_neg (by simp [hkill, hret]), modCourse_eq_setCourse hk]
  case trap =>
    intro s c t k0 ht hk hruns k hres htm hframes hlanes hquad
    have hat := atBoundary_ok ht hk hruns hres htm hframes hlanes hquad
    refine ⟨fun hdebug => congrArg Host.Outcome.next ?_, fun n ns hdebug hroll hovf => congrArg Host.Outcome.next ?_⟩
    · unfold asyncTrap
      rw [hat]
      dsimp only
      rw [if_pos hdebug, setCourse_modCourse]
    · unfold asyncTrap
      rw [hat]
      dsimp only
      rw [if_neg (ne_true_of_eq_false hdebug), if_neg (ne_true_of_eq_false hroll), hovf]
      dsimp only
      rw [setCourse_modCourse]

end Sys2Proof.Machine
end

section
/-!
PROOFS. Retirement, the counters of cycles, and meters (02 R56; 09 R186, R198, R199).
-/
namespace Sys2Proof.Machine

/-! ### Retirement (R56, R186) -/

/-- A course that retires. -/
def Course.retire (k : Course) : Course := { k.closeShadows with cstate := .retired, div := [], bsync := none, hold := .none }

/-- A truss once its course `j` has retired. -/
def Truss.retireOne (t : Truss) (j : Nat) : Truss := (t.modCourse j Course.retire).markGone j

/-- A truss without its barriers and courses. -/
def Truss.noBars (t : Truss) : Truss := { t with bars := Vector.replicate 16 Bar.launch, courses := [] }

theorem testBar_noBars (t : Truss) (b : Fin 16) : (t.testBar b).noBars = t.noBars := by
  unfold Truss.testBar
  dsimp only
  split <;> rfl

theorem testBars_noBars (t : Truss) : t.testBars.noBars = t.noBars := by
  unfold Truss.testBars
  induction List.finRange 16 generalizing t with
  | nil => rfl
  | cons b bs ih => exact (ih _).trans (testBar_noBars t b)

/-- A truss that has noted a course as gone. -/
def Truss.withGone (t : Truss) (j : Nat) : Truss := { t with goneMask := t.goneMask ||| BitVec.ofNat 16 (2 ^ j) }

theorem retireOne_eq (t : Truss) (j : Nat) : t.retireOne j = ((t.modCourse j Course.retire).withGone j).testBars := rfl

theorem noBars_place (t : Truss) : t.noBars.place = t.place := rfl
theorem noBars_goneMask (t : Truss) : t.noBars.goneMask = t.goneMask := rfl

theorem testBars_place (t : Truss) : t.testBars.place = t.place := by
  rw [← noBars_place, testBars_noBars, noBars_place]

theorem testBars_goneMask (t : Truss) : t.testBars.goneMask = t.goneMask := by
  rw [← noBars_goneMask, testBars_noBars, noBars_goneMask]

theorem retireOne_goneMask (t : Truss) (j : Nat) : (t.retireOne j).goneMask = t.goneMask ||| BitVec.ofNat 16 (2 ^ j) := by
  rw [retireOne_eq, testBars_goneMask]
  rfl

theorem retireOne_place (t : Truss) (j : Nat) : (t.retireOne j).place = t.place := by
  rw [retireOne_eq, testBars_place]
  rfl

theorem getLsbD_mark {j : Nat} (hj : j < 16) (x : BitVec 16) : (x ||| BitVec.ofNat 16 (2 ^ j)).getLsbD j = true := by
  rw [BitVec.getLsbD_or, BitVec.getLsbD_ofNat, Nat.testBit_two_pow_self, decide_eq_true hj]
  simp

theorem retireOne_cstates (t : Truss) (j : Nat) : (t.retireOne j).cstates = t.cstates.modify j fun _ => .retired := by
  unfold Truss.cstates Truss.retireOne
  rw [markGone_kept keptByBars_cstate]
  unfold Truss.modCourse
  apply List.ext_getElem?
  intro i
  simp only [List.getElem?_map, List.getElem?_modify]
  cases t.courses[i]? with
  | none => rfl
  | some k =>
    simp only [Option.map_some]
    split <;> rfl

/-- A truss that is gone (R56). -/
def Truss.ended (t : Truss) : Truss :=
  { t with place := .gone, scr := [], scrPsn := [], tiles := [], units := [], layouts := [], tpls := [], tabPend := [], evict := false,
           rings := Vector.replicate 8 Ring.launch, matQ := [], copyQ := [], netQ := [],
           courses := t.courses.map fun k => { k with slot := 64 } }

theorem ended_goneMask (t : Truss) : t.ended.goneMask = t.goneMask := rfl

theorem ended_cstates (t : Truss) : t.ended.cstates = t.cstates := by
  unfold Truss.cstates Truss.ended
  dsimp only
  rw [List.map_map]
  rfl

theorem trusses_mbDone (s : State) (st : BitVec 16) : (s.mbDone st).trusses = s.trusses := rfl
theorem trusses_withSet (s : State) (n : Nat) (x : ClSet) : (s.withSet n x).trusses = s.trusses := rfl
theorem trusses_withCores (s : State) (cs : Vector Core 192) : (s.withCores cs).trusses = s.trusses := rfl

theorem trusses_charged (s : State) (v : Nat) (o : ClSet) : (s.charged v o).trusses = s.trusses := by
  unfold State.charged State.chargeSlice State.addShare
  split
  · rw [trusses_modVdev, trusses_modVdev]
  · rfl

theorem trusses_finishMove (s : State) (v : Nat) : (s.finishMove v).trusses = s.trusses := by
  rw [finishMove_def]
  split
  · rfl
  · split
    · rfl
    · split
      · rfl
      · unfold State.movedTo
        rw [trusses_mbDone, trusses_modVdev, trusses_withSet, trusses_charged, trusses_withCores]

theorem trusses_freePart (s : State) (core : Nat) : (s.freePart core).trusses = s.trusses := by
  unfold State.freePart
  split <;> rfl

/-- Every course of the truss is retired, or killed and released. -/
def State.allOver (s : State) (tn : Nat) (t : Truss) : Bool :=
  (List.range t.courses.length).all fun j => match t.courses[j]? with
    | some k => k.cstate == .retired || (k.cstate == .killed && !s.underKill ⟨tn, j⟩)
    | none => true

theorem retireTruss_eq {s : State} {tn : Nat} {t : Truss} (ht : s.truss? tn = some t) : s.retireTruss tn =
    if !s.allOver tn t || t.place = .gone then s
    else (((s.modCore t.core fun c => c.leaveAcc t).modTruss tn Truss.ended).freePart t.core |>.freeParts (fun p => p.truss == tn)).finishMove t.space := by
  unfold State.retireTruss
  rw [ht]
  rfl

theorem trusses_retireTruss {s : State} {tn : Nat} {t : Truss} (ht : s.truss? tn = some t) (hplace : t.place ≠ .gone) :
    (s.retireTruss tn).trusses = if s.allOver tn t then s.trusses.modify tn Truss.ended else s.trusses := by
  rw [retireTruss_eq ht]
  cases hover : s.allOver tn t with
  | false => rfl
  | true =>
    rw [if_pos rfl, if_neg (by simp [hplace]), trusses_finishMove]
    unfold State.freeParts
    exact trusses_freePart ..

theorem truss?_retireTruss {s : State} {tn : Nat} {t : Truss} (ht : s.truss? tn = some t) (hplace : t.place ≠ .gone) :
    (s.retireTruss tn).truss? tn = some (if s.allOver tn t then t.ended else t) := by
  unfold State.truss? at ht ⊢
  rw [trusses_retireTruss ht hplace]
  split
  · rw [List.getElem?_modify, ht]
    simp
  · exact ht

theorem courseRetireStep_eq {s : State} {c : CRef} {t : Truss} {k : Course} (ht : s.truss? c.truss = some t) (hk : s.course? c = some k)
    (hcore : t.onCore = true) (hres : k.cstate = .resident) (hless : k.laneless = true) (hroll : k.rollbackPend = false)
    (hquiet : s.quiet c t k = true) : courseRetireStep s c = (s.modTruss c.truss (Truss.retireOne · c.course)).retireTruss c.truss := by
  unfold courseRetireStep
  rw [ht, hk]
  dsimp only
  rw [if_neg (by rw [hroll]; simp), if_pos (by rw [hcore, hres, hless, hquiet]; decide)]
  rfl

theorem allOver_retireOne {s : State} {c : CRef} {t : Truss} (hothers : ∀ j k1, t.courses[j]? = some k1 → j ≠ c.course → k1.cstate = .retired) :
    s.allOver c.truss (t.retireOne c.course) = true := by
  unfold State.allOver
  rw [List.all_eq_true]
  intro j hj
  split
  case h_2 => rfl
  case h_1 k hk =>
    have hstate : (t.retireOne c.course).cstates[j]? = some k.cstate := by
      unfold Truss.cstates
      rw [List.getElem?_map, hk]
      rfl
    have hretired : k.cstate = .retired := by
      rw [retireOne_cstates, List.getElem?_modify] at hstate
      unfold Truss.cstates at hstate
      rw [List.getElem?_map] at hstate
      cases hk1 : t.courses[j]? with
      | none => rw [hk1] at hstate; cases hstate
      | some k1 =>
        rw [hk1] at hstate
        by_cases hjc : c.course = j
        · subst hjc
          simpa using hstate.symm
        · have hold := hothers j k1 hk1 fun h => hjc h.symm
          simpa [hjc, hold] using hstate.symm
    rw [hretired]
    rfl

theorem course?_of_cstate {s : State} {c : CRef} {st : CState} (h : s.cstate? c = some st) : ∃ k, s.course? c = some k ∧ k.cstate = st := by
  rw [cstate?_eq, Option.map_eq_some_iff] at h
  exact h

theorem retire_course_ok {s : State} {c : CRef} {t : Truss} {k : Course} (ht : s.truss? c.truss = some t) (hk : s.course? c = some k)
    (hcore : t.onCore = true) (hres : k.cstate = .resident) (hless : k.laneless = true) (hroll : k.rollbackPend = false)
    (hquiet : s.quiet c t k = true) (hc : c.course < 16) :
    ∃ t' u k', exec (.courseRetire c) s = .next t' ∧ t'.truss? c.truss = some u ∧ t'.course? c = some k' ∧ k'.cstate = .retired ∧
      u.goneMask.getLsbD c.course = true ∧
      ((∀ j k1, t.courses[j]? = some k1 → j ≠ c.course → k1.cstate = .retired) →
        u.place = .gone ∧ u.scr = [] ∧ u.tiles = [] ∧ u.layouts = []) := by
  have hplace : (t.retireOne c.course).place ≠ .gone := by
    rw [retireOne_place]
    intro h
    unfold Truss.onCore at hcore
    rw [h] at hcore
    cases hcore
  have hmod : (s.modTruss c.truss (Truss.retireOne · c.course)).truss? c.truss = some (t.retireOne c.course) := by
    rw [truss?_modTruss, if_pos rfl, ht]
    rfl
  have hfound := truss?_retireTruss hmod hplace
  have hold : t.cstates[c.course]? = some k.cstate := by
    have hkt : t.courses[c.course]? = some k := by
      unfold State.course? at hk
      unfold State.truss? at ht
      rw [ht] at hk
      exact hk
    unfold Truss.cstates
    rw [List.getElem?_map, hkt]
    rfl
  have hmark := (congrArg (·.getLsbD c.course) (retireOne_goneMask t c.course)).trans (getLsbD_mark hc _)
  have hstate : (t.retireOne c.course).cstates[c.course]? = some .retired := by
    rw [retireOne_cstates, List.getElem?_modify, hold]
    simp
  generalize hover : (s.modTruss c.truss (Truss.retireOne · c.course)).allOver c.truss (t.retireOne c.course) = finished at hfound
  have hcstate : ((s.modTruss c.truss (Truss.retireOne · c.course)).retireTruss c.truss).cstate? c = some .retired := by
    unfold State.cstate?
    rw [hfound]
    cases finished with
    | true => exact (congrArg (·[c.course]?) (ended_cstates _)).trans hstate
    | false => exact hstate
  obtain ⟨k', hk', hretired⟩ := course?_of_cstate hcstate
  refine ⟨_, _, k', congrArg Host.Outcome.next (courseRetireStep_eq ht hk hcore hres hless hroll hquiet), hfound, hk', hretired, ?_, fun hothers => ?_⟩
  · cases finished with
    | true => exact (ended_goneMask _).symm ▸ hmark
    | false => exact hmark
  · rw [← hover, allOver_retireOne hothers]
    exact ⟨rfl, rfl, rfl, rfl⟩

/-! ### Counters of cycles (R199) -/

/-- The overflows that a course takes on while cycles pass up to `m`. -/
def State.overflows (s : State) (t : Truss) (k : Course) (m : Nat) : List (BitVec 8) :=
  if t.onCore && k.cstate = .resident then (s.core t.core).wraps (s.cycleEvents t.core (Nat.max s.clk m - s.clk)) k.slot else []

theorem course?_advanceTo {s : State} {c : CRef} {t : Truss} {k : Course} (ht : s.truss? c.truss = some t) (hk : s.course? c = some k) (m : Nat) :
    (s.advanceTo m).course? c = some { k with ovfPend := k.ovfPend ++ s.overflows t k m } := by
  unfold State.truss? at ht
  unfold State.course? at hk ⊢
  rw [ht] at hk
  have hkt : t.courses[c.course]? = some k := hk
  unfold State.advanceTo
  dsimp only
  rw [List.getElem?_map, ht]
  dsimp only [Option.map_some, Option.bind_some]
  rw [List.getElem?_map, hkt, Option.map_some]
  unfold State.overflows
  split
  · rfl
  · rw [List.append_nil]

theorem course?_advanceTo_none {s : State} {c : CRef} (hk : s.course? c = none) (m : Nat) : (s.advanceTo m).course? c = none := by
  unfold State.course? at hk ⊢
  unfold State.advanceTo
  dsimp only
  rw [List.getElem?_map]
  cases ht : s.trusses[c.truss]? with
  | none => rfl
  | some t =>
    rw [ht] at hk
    have hkt : t.courses[c.course]? = none := hk
    dsimp only [Option.map_some, Option.bind_some]
    rw [List.getElem?_map, hkt, Option.map_none]

/-- A counter that has counted on. -/
def EvCounter.plus (x : EvCounter) (n : Nat) : EvCounter := { x with value := x.value + BitVec.ofNat 48 n }

theorem ec_advanceTo (s : State) {core : Nat} (hcore : core < 192) (k : Fin 8) (m : Nat) : ((s.advanceTo m).core core).ec[k] =
    (s.core core).ec[k].plus ((s.core core).ec[k].passed (s.cycleEvents core (Nat.max s.clk m - s.clk))) := by
  have hold : s.core core = s.cores[core] := dif_pos hcore
  have hnew : (s.advanceTo m).core core = (s.advanceTo m).cores[core] := dif_pos hcore
  rw [hold, hnew]
  unfold State.advanceTo
  dsimp only
  rw [Vector.getElem_ofFn]
  dsimp only
  exact Vector.getElem_map ..

/-- The courses on a core that `p` picks, among those that are resident. -/
def State.residentsOn (s : State) (core : Nat) (p : Course → Bool) : Nat :=
  ((s.trusses.filter fun t => t.place = .onCore core).map fun t => (t.courses.filter fun k => k.cstate == .resident && p k).length).sum

theorem sum_if_eq_sum_filter {α : Type} (p : α → Bool) (f : α → Nat) (xs : List α) :
    (xs.map fun x => if p x then f x else 0).sum = ((xs.filter p).map f).sum := by
  induction xs with
  | nil => rfl
  | cons x xs ih =>
    rw [List.map_cons, List.sum_cons, ih, List.filter_cons]
    cases p x <;> simp

/-- The cycles of an event that pass while `n` cycles do (R199; log 11). -/
def State.cyclesOf (s : State) (core n evt : Nat) : Nat :=
  if evt = 3 then n * s.residentsOn core (·.stalled) else if evt = 4 then n * s.residentsOn core (·.barBlocked.isSome)
  else if evt = 9 then min n 1 * s.residentsOn core (fun k => k.strict && k.recent.head?.map (·.1) == some s.clk) else n

theorem cycleEvents_eq (s : State) (core n : Nat) {evt : Nat} (h : evt = 0 ∨ evt = 3 ∨ evt = 4 ∨ evt = 9) :
    s.cycleEvents core n evt = s.cyclesOf core n evt := by
  have hsum := fun p : Course → Bool => sum_if_eq_sum_filter (fun t : Truss => decide (t.place = .onCore core))
    (fun t => (t.courses.filter fun k => k.cstate == .resident && p k).length) s.trusses
  simp only [decide_eq_true_eq] at hsum
  unfold State.cycleEvents State.cyclesOf State.residentsOn
  obtain rfl | rfl | rfl | rfl := h
  · exact Nat.mul_one n
  · exact congrArg (n * ·) (hsum (·.stalled))
  · exact congrArg (n * ·) (hsum (·.barBlocked.isSome))
  · exact congrArg (min n 1 * ·) (hsum fun k => k.strict && k.recent.head?.map (·.1) == some s.clk)

theorem passed_eq {s : State} {core n : Nat} {x : EvCounter} (hon : x.ctl.getLsbD 8 = true)
    (hevt : bits x.ctl.toNat 7 0 = 0 ∨ bits x.ctl.toNat 7 0 = 3 ∨ bits x.ctl.toNat 7 0 = 4 ∨ bits x.ctl.toNat 7 0 = 9) :
    x.passed (s.cycleEvents core n) = s.cyclesOf core n (bits x.ctl.toNat 7 0) := by
  unfold EvCounter.passed
  dsimp only
  rw [if_pos (by rw [hon]; simpa [or_assoc] using hevt)]
  exact cycleEvents_eq s core n hevt

theorem mem_wraps {c : Core} {count : Nat → Nat} {slot : Nat} {k : Fin 8} : BitVec.ofNat 8 k ∈ c.wraps count slot ↔
    2 ^ 48 ≤ c.ec[k].value.toNat + c.ec[k].passed count ∧ c.ec[k].ctl.getLsbD 9 = true ∧ bits c.ec[k].ctl.toNat 15 10 = slot := by
  have hvat : vat c.ec k ⟨0, 0⟩ = c.ec[k] := dif_pos k.isLt
  unfold Core.wraps
  rw [List.mem_map]
  constructor
  · rintro ⟨j, hj, hjk⟩
    obtain ⟨hlt, hcond⟩ := List.mem_filter.mp hj
    have hsame : j = k.val := by
      have hnat := congrArg BitVec.toNat hjk
      rw [BitVec.toNat_ofNat, BitVec.toNat_ofNat] at hnat
      have := List.mem_range.mp hlt
      omega
    subst hsame
    dsimp only at hcond
    rw [hvat] at hcond
    simpa [and_assoc] using hcond
  · intro h
    refine ⟨k.val, List.mem_filter.mpr ⟨List.mem_range.mpr k.isLt, ?_⟩, rfl⟩
    dsimp only
    rw [hvat]
    simpa [and_assoc] using h

/-- The course found in a slot is resident, of a truss on the core. -/
theorem courseInSlot_some {s : State} {core slot : Nat} {c : CRef} (h : s.courseInSlot core slot = some c) :
    ∃ t k, s.truss? c.truss = some t ∧ s.course? c = some k ∧ t.place = .onCore core ∧ k.cstate = .resident ∧ k.slot = slot := by
  unfold State.courseInSlot at h
  obtain ⟨ti, -, hti⟩ := List.exists_of_findSome?_eq_some h
  split at hti
  case h_2 => cases hti
  case h_1 t ht =>
    split at hti
    case isFalse => cases hti
    case isTrue hplace =>
      obtain ⟨j, hj, rfl⟩ := Option.map_eq_some_iff.mp hti
      have hcond := List.find?_some hj
      split at hcond
      case h_2 => cases hcond
      case h_1 k hk =>
        simp only [Bool.and_eq_true, beq_iff_eq] at hcond
        obtain ⟨hres, hslot⟩ := hcond
        refine ⟨t, k, ht, ?_, hplace, hres, hslot⟩
        unfold State.course?
        dsimp only
        rw [ht]
        exact hk

section
variable {s : State} {core : Nat} {k : Fin 8} {n : Nat} (hcore : core < 192) (hon : (s.core core).ec[k].ctl.getLsbD 8 = true)
  (hevt : bits (s.core core).ec[k].ctl.toNat 7 0 = 0 ∨ bits (s.core core).ec[k].ctl.toNat 7 0 = 3 ∨ bits (s.core core).ec[k].ctl.toNat 7 0 = 4 ∨
    bits (s.core core).ec[k].ctl.toNat 7 0 = 9)
include hon hevt

theorem exec_eventCounterOverflow : exec (.eventCounterOverflow core k n) s = .next (s.advanceTo (s.clk + n)) := by
  have hvat : vat (s.core core).ec k ⟨0, 0⟩ = (s.core core).ec[k] := dif_pos k.isLt
  refine congrArg Host.Outcome.next ?_
  dsimp only
  rw [hvat, hon, Bool.not_true, if_neg Bool.false_ne_true, if_pos hevt]

omit hon hevt in
theorem span_add : Nat.max s.clk (s.clk + n) - s.clk = n := by
  have hmax : Nat.max s.clk (s.clk + n) = s.clk + n := Nat.max_eq_right (Nat.le_add_right ..)
  rw [hmax, Nat.add_sub_cancel_left]

/-- The overflow of this counter is among those that a course on its core takes on exactly where it wraps armed for the course's slot. -/
theorem mem_overflows {t : Truss} {k1 : Course} (hplace : t.place = .onCore core) : BitVec.ofNat 8 k ∈ s.overflows t k1 (s.clk + n) ↔
    k1.cstate = .resident ∧ 2 ^ 48 ≤ (s.core core).ec[k].value.toNat + s.cyclesOf core n (bits (s.core core).ec[k].ctl.toNat 7 0) ∧
      (s.core core).ec[k].ctl.getLsbD 9 = true ∧ bits (s.core core).ec[k].ctl.toNat 15 10 = k1.slot := by
  have htcore : t.core = core := by
    unfold Truss.core
    rw [hplace]
  have hton : t.onCore = true := by
    unfold Truss.onCore
    rw [hplace]
  unfold State.overflows
  rw [htcore, hton, span_add, Bool.true_and]
  by_cases hres : k1.cstate = .resident
  · rw [if_pos (decide_eq_true hres), mem_wraps, passed_eq hon hevt]
    exact (and_iff_right hres).symm
  · rw [if_neg (by simpa using hres)]
    exact ⟨fun h => absurd h List.not_mem_nil, fun h => absurd h.1 hres⟩

end

theorem ovfPend_appended {k : Course} {o : List (BitVec 8)} : ({ k with ovfPend := k.ovfPend ++ o } : Course).ovfPend = k.ovfPend ++ o := rfl

/-- Settles O34. A counter's overflow reaches a course exactly where `mem_overflows` says. -/
theorem retireAndCountersComplete : Obligations.RetireAndCountersComplete := by
  unfold Obligations.RetireAndCountersComplete
  refine ⟨?retire, ?counter, ?meter⟩
  case retire =>
    intro s c t k ht hk hcore hres hless hroll hquiet hc
    exact retire_course_ok ht hk hcore hres hless hroll hquiet hc
  case counter =>
    intro s core k n hcore ec evt of_ m hon hevt
    refine ⟨_, exec_eventCounterOverflow hon hevt, Nat.max_eq_right (Nat.le_add_right ..), ?_, ?_, ?_⟩
    · rw [ec_advanceTo s hcore, span_add, passed_eq hon hevt]
      rfl
    · intro c k1 hwrap harmed hslot hk1
      obtain ⟨t, k0, ht, hk0, hplace, hres, hslot0⟩ := courseInSlot_some hslot
      rw [course?_advanceTo ht hk0] at hk1
      rw [← Option.some.inj hk1, ovfPend_appended]
      exact List.mem_append_right _ ((mem_overflows hon hevt hplace).mpr ⟨hres, hwrap, harmed, hslot0.symm⟩)
    · intro c t0 k0 k1 hno ht hplace hk0 hk1 hmem
      rw [course?_advanceTo ht hk0] at hk1
      rw [← Option.some.inj hk1, ovfPend_appended] at hmem
      obtain hmem | hmem := List.mem_append.mp hmem
      · exact hmem
      · obtain ⟨-, hwrap, harmed, -⟩ := (mem_overflows hon hevt hplace).mp hmem
        obtain hlt | harm := hno
        · exact absurd hwrap (Nat.not_le.mpr hlt)
        · exact absurd harmed (ne_true_of_eq_false harm)
  case meter =>
    intro s v d hd
    refine ⟨_, d.accumulate, rfl, ?_, fun j => ?_, rfl, rfl⟩
    · rw [vdev?_modVdev, if_pos rfl, hd]
      rfl
    · exact Vector.getElem_ofFn ..

end Sys2Proof.Machine
end

section
/-!
PROOFS. What the engines' reads and writes leave (13 R288), and the copy engine's step (16 R368, R371).
-/
namespace Sys2Proof.Machine

/-! ### What a read or a write of an engine leaves -/

def Truss.queues (t : Truss) : List QEntry × List QEntry × List QEntry := (t.copyQ, t.matQ, t.netQ)

/-- The entries of the trusses, and what each copy engine served last. -/
def State.engines (s : State) : List (List QEntry × List QEntry × List QEntry) × Vector (Option Nat) 192 :=
  (s.trusses.map Truss.queues, s.cores.map Core.copyLast)

theorem engines_noStore (s : State) : s.noStore.engines = s.engines := by
  have htrusses : s.noStore.trusses = s.trusses.map Truss.noPend := rfl
  have hcores : s.noStore.cores = s.cores.map Core.noCounts := rfl
  unfold State.engines
  rw [htrusses, hcores, List.map_map, Vector.map_map]
  rfl

theorem engines_of_noStore {s t : State} (h : s.noStore = t.noStore) : s.engines = t.engines := by
  rw [← engines_noStore, h, engines_noStore]

theorem engines_modTruss (s : State) (n : Nat) {f : Truss → Truss} (hf : ∀ t, (f t).queues = t.queues) : (s.modTruss n f).engines = s.engines := by
  have hmap : (s.trusses.modify n f).map Truss.queues = s.trusses.map Truss.queues := by
    apply List.ext_getElem?
    intro i
    simp only [List.getElem?_map, List.getElem?_modify]
    cases s.trusses[i]? with
    | none => rfl
    | some t =>
      simp only [Option.map_some]
      split
      · exact congrArg some (hf t)
      · rfl
  unfold State.engines State.modTruss
  dsimp only
  rw [hmap]

/-- A truss's scratchpad after a part is written. -/
def Truss.storePart (u : Truss) (p : Part) (poison : Bool) (whole : Nat → Bool) : Truss :=
  let b := (⟨u.scr, u.scrPsn⟩ : Bank).store p (p.va % 2 ^ 32) poison
  { u with scr := b.m, scrPsn := if whole (p.va / 8) then tset false b.psn (p.va % 2 ^ 32 / 8) false else b.psn }

theorem testBar_queues (t : Truss) (b : Fin 16) : (t.testBar b).queues = t.queues := by
  unfold Truss.testBar
  dsimp only
  split <;> rfl

theorem landBytes_queues (t : Truss) (b : Fin 16) (n : Nat) : (t.landBytes b n).queues = t.queues := by
  unfold Truss.landBytes
  split
  · exact testBar_queues ..
  · rfl

/-- A part of the state that the reads and writes of an engine leave as it is. -/
structure EngineFrame {β : Type} (view : State → β) : Prop where
  reach : ∀ (s : State) ag space va want, view (s.reach ag space va want).1 = view s
  touchRange : ∀ (s : State) vd a n w, view (s.touchRange vd a n w) = view s
  putBank : ∀ (s : State) vd host pa n b, view (s.putBank vd host pa n b) = view s
  l1Drop : ∀ (s : State) core a, view (s.l1Drop core a) = view s
  cleanWord : ∀ (s : State) host w, view (s.cleanWord host w) = view s
  storePart : ∀ (s : State) n p poison whole, view (s.modTruss n fun u => u.storePart p poison whole) = view s
  landBytes : ∀ (s : State) n b k, view (s.modTruss n fun u => u.landBytes b k) = view s

theorem engineFrame_engines : EngineFrame State.engines where
  reach s ag space va want := engines_of_noStore (noStore_of_noReach (reach_noReach s ag space va want))
  touchRange s vd a n w := engines_of_noStore (noStore_of_noReach (touchRange_noReach ..))
  putBank s vd host pa n b := engines_of_noStore (putBank_noStore ..)
  l1Drop _ _ _ := rfl
  cleanWord s host w := by cases host <;> rfl
  storePart s n _ _ _ := engines_modTruss s n fun _ => rfl
  landBytes s n b k := engines_modTruss s n fun t => landBytes_queues t b k

/-- One part that an engine reads. -/
def State.loadPart (s : State) (at_ : EngineAt) (p : Part) : State × Except Halted Got :=
  match p.phase with
  | .performed => (s, .ok ⟨p.got, false, false⟩)
  | .ready .. =>
    match (s.owner at_ (p.va / 2 ^ 32)).bind s.truss? with
    | some u => (s, .ok ⟨((⟨u.scr, u.scrPsn⟩ : Bank).load p (p.va % 2 ^ 32)).got, ((⟨u.scr, u.scrPsn⟩ : Bank).load p (p.va % 2 ^ 32)).poison, false⟩)
    | none => (s, .ok ⟨if p.data.isEmpty then List.replicate p.size 0 else p.data, false, true⟩)
  | _ =>
    match s.enginePlace at_ p.va false with
    | (s, .ok pl) => (if pl.host then s else s.touchRange at_.t.space pl.pa p.size false,
        .ok ⟨((s.bank pl.host).load p pl.pa).got, ((s.bank pl.host).load p pl.pa).poison, false⟩)
    | (s, .error e) => (s, .error e)

theorem engineLoad_cons (s : State) (at_ : EngineAt) (p : Part) (ps : List Part) : s.engineLoad at_ (p :: ps) =
    match s.loadPart at_ p with
    | (s, .error e) => (s, .error e)
    | (s, .ok g) => match s.engineLoad at_ ps with
      | (s, .error e) => (s, .error e)
      | (s, .ok g') => (s, .ok ⟨g.bytes ++ g'.bytes, g.poison || g'.poison, g.drop || g'.drop⟩) := rfl

/-- Memory after a part is written at its place. -/
def State.storePlaced (s : State) (at_ : EngineAt) (poison : Bool) (whole : Nat → Bool) (p : Part) (pl : Place) : State :=
  let s' := s.putBank at_.t.space pl.host pl.pa p.size ((s.bank pl.host).store p pl.pa poison)
  let s' := if pl.host then s' else s'.l1Drop at_.t.core pl.pa
  if whole (p.va / 8) then s'.cleanWord pl.host (pl.pa / 8) else s'

/-- One part that an engine writes. -/
def State.storePart (s : State) (at_ : EngineAt) (poison : Bool) (whole : Nat → Bool) (p : Part) : State × Except Halted Bool :=
  match p.phase with
  | .ready .. => match s.owner at_ (p.va / 2 ^ 32) with
    | some n => (s.modTruss n fun u => u.storePart p poison whole, .ok false)
    | none => (s, .ok true)
  | _ => match s.enginePlace at_ p.va true with
    | (s, .ok pl) => (s.storePlaced at_ poison whole p pl, .ok false)
    | (s, .error e) => (s, .error e)

theorem engineStore_cons (s : State) (at_ : EngineAt) (poison : Bool) (whole : Nat → Bool) (p : Part) (ps : List Part) :
    s.engineStore at_ poison whole (p :: ps) = match s.storePart at_ poison whole p with
      | (s, .error e) => (s, .error e)
      | (s, .ok d) => match s.engineStore at_ poison whole ps with
        | (s, .error e) => (s, .error e)
        | (s, .ok d') => (s, .ok (d || d')) := rfl

/-- An entry that a copy has gone on with: the same, and no element less. -/
structure QEntry.Onward (e e' : QEntry) : Prop where
  id : e'.id = e.id
  begun : e'.begun = e.begun
  done : e.done ≤ e'.done

theorem QEntry.Onward.rfl {e : QEntry} : e.Onward e := ⟨Eq.refl _, Eq.refl _, Nat.le_refl _⟩

theorem QEntry.Onward.trans {e f g : QEntry} (h : e.Onward f) (h' : f.Onward g) : e.Onward g :=
  ⟨h'.id.trans h.id, h'.begun.trans h.begun, Nat.le_trans h.done h'.done⟩

theorem QEntry.onward_halt (e : QEntry) (h : Halted) : e.Onward (e.halt h) := by
  unfold QEntry.halt
  split <;> exact ⟨Eq.refl _, Eq.refl _, Nat.le_refl _⟩

/-- The entry once one element more has moved. -/
def QEntry.moved (e : QEntry) (g : Got) (full : Bool) : QEntry := { e.note g with done := e.done + 1, full := full }

theorem QEntry.onward_moved (e : QEntry) (g : Got) (full drop : Bool) : e.Onward { e.moved g full with drop := drop } :=
  ⟨Eq.refl _, Eq.refl _, Nat.le_succ _⟩

section
variable {β : Type} {view : State → β} (hview : EngineFrame view)
include hview

theorem enginePlace_frame (s : State) (at_ : EngineAt) (va : Nat) (w : Bool) : view (s.enginePlace at_ va w).1 = view s := by
  have hreach := hview.reach s at_.ag at_.t.space va ⟨w, false, !at_.t.kernelMode⟩
  unfold State.enginePlace
  dsimp only
  split
  · split
    · exact hreach
    · split <;> exact hreach
  · exact hreach

theorem loadPlaced_frame (s : State) (at_ : EngineAt) (p : Part) : view (match s.enginePlace at_ p.va false with
    | (s, .ok pl) => ((if pl.host then s else s.touchRange at_.t.space pl.pa p.size false,
        .ok ⟨((s.bank pl.host).load p pl.pa).got, ((s.bank pl.host).load p pl.pa).poison, false⟩) : State × Except Halted Got)
    | (s, .error e) => (s, .error e)).1 = view s := by
  have hplace := enginePlace_frame hview s at_ p.va false
  generalize s.enginePlace at_ p.va false = r at hplace ⊢
  obtain ⟨u, e | pl⟩ := r
  · exact hplace
  · dsimp only
    split
    · exact hplace
    · exact (hview.touchRange ..).trans hplace

theorem loadPart_frame (s : State) (at_ : EngineAt) (p : Part) : view (s.loadPart at_ p).1 = view s := by
  unfold State.loadPart
  split
  · rfl
  · split <;> rfl
  · exact loadPlaced_frame hview s at_ p

theorem engineLoad_frame (at_ : EngineAt) (ps : List Part) (s : State) : view (s.engineLoad at_ ps).1 = view s := by
  induction ps generalizing s with
  | nil => rfl
  | cons p ps ih =>
    rw [engineLoad_cons]
    have hone := loadPart_frame hview s at_ p
    generalize s.loadPart at_ p = r at hone ⊢
    obtain ⟨u, e | g⟩ := r
    · exact hone
    · dsimp only
      have hrest := ih u
      generalize u.engineLoad at_ ps = r at hrest ⊢
      obtain ⟨w, e | g'⟩ := r
      · exact hrest.trans hone
      · exact hrest.trans hone

theorem storePlaced_frame (s : State) (at_ : EngineAt) (poison : Bool) (whole : Nat → Bool) (p : Part) (pl : Place) :
    view (s.storePlaced at_ poison whole p pl) = view s := by
  have hput := hview.putBank s at_.t.space pl.host pl.pa p.size ((s.bank pl.host).store p pl.pa poison)
  have hdrop : view (if pl.host then s.putBank at_.t.space pl.host pl.pa p.size ((s.bank pl.host).store p pl.pa poison)
      else (s.putBank at_.t.space pl.host pl.pa p.size ((s.bank pl.host).store p pl.pa poison)).l1Drop at_.t.core pl.pa) = view s := by
    split
    · exact hput
    · exact (hview.l1Drop ..).trans hput
  unfold State.storePlaced
  dsimp only
  split
  · exact (hview.cleanWord ..).trans hdrop
  · exact hdrop

theorem storePart_frame (s : State) (at_ : EngineAt) (poison : Bool) (whole : Nat → Bool) (p : Part) :
    view (s.storePart at_ poison whole p).1 = view s := by
  unfold State.storePart
  split
  · split
    · exact hview.storePart ..
    · rfl
  · have hplace := enginePlace_frame hview s at_ p.va true
    generalize s.enginePlace at_ p.va true = r at hplace ⊢
    obtain ⟨u, e | pl⟩ := r
    · exact hplace
    · exact (storePlaced_frame hview ..).trans hplace

theorem engineStore_frame (at_ : EngineAt) (poison : Bool) (whole : Nat → Bool) (ps : List Part) (s : State) :
    view (s.engineStore at_ poison whole ps).1 = view s := by
  induction ps generalizing s with
  | nil => rfl
  | cons p ps ih =>
    rw [engineStore_cons]
    have hone := storePart_frame hview s at_ poison whole p
    generalize s.storePart at_ poison whole p = r at hone ⊢
    obtain ⟨u, e | d⟩ := r
    · exact hone
    · dsimp only
      have hrest := ih u
      generalize u.engineStore at_ poison whole ps = r at hrest ⊢
      obtain ⟨w, e | d'⟩ := r
      · exact hrest.trans hone
      · exact hrest.trans hone

/-! ### The elements of a copy (R371) -/

theorem loadElem_frame (s : State) (at_ : EngineAt) (e : Layout) (x : List Int) : view (s.loadElem at_ e x).1 = view s := by
  have hload := engineLoad_frame hview at_ (e.elemParts at_.t.spanPos 0 0 x none) s
  unfold State.loadElem
  dsimp only
  generalize s.engineLoad at_ (e.elemParts at_.t.spanPos 0 0 x none) = r at hload ⊢
  obtain ⟨u, e | g⟩ := r
  · exact hload
  · exact hload

section
variable (at_ : EngineAt) (w : Vector W64 2) (ld : Layout) (x : List Int) (code fresh : Nat) (psn : Bool) (whole : Nat → Nat → Bool)

theorem landElem_frame (m : Nat) (s : State) : view (s.landElem at_ w ld x code fresh m psn whole).1 = view s := by
  have hstore := engineStore_frame hview at_ psn (whole m) (ld.elemParts m 0 0 x (some code)) s
  unfold State.landElem
  generalize s.engineStore at_ psn (whole m) (ld.elemParts m 0 0 x (some code)) = r at hstore ⊢
  obtain ⟨u, e | d⟩ := r
  · exact hstore
  · dsimp only
    split
    · exact (hview.landBytes ..).trans hstore
    · exact hstore

theorem landAll_frame (ms : List Nat) (s : State) : view (s.landAll at_ w ld x code fresh psn whole ms).1 = view s := by
  induction ms generalizing s with
  | nil => rfl
  | cons m ms ih =>
    have hone := landElem_frame hview at_ w ld x code fresh psn whole m s
    unfold State.landAll
    generalize s.landElem at_ w ld x code fresh m psn whole = r at hone ⊢
    obtain ⟨u, e | d⟩ := r
    · exact hone
    · dsimp only
      have hrest := ih u
      generalize u.landAll at_ w ld x code fresh psn whole ms = r at hrest ⊢
      obtain ⟨v, e | d'⟩ := r
      · exact hrest.trans hone
      · exact hrest.trans hone

end

theorem copyElem_frame (s : State) (at_ : EngineAt) (e : QEntry) (w : Vector W64 2) (ls ld : Layout) (cs cd : List Int) :
    view (s.copyElem at_ e w ls ld cs cd).1 = view s ∧ e.Onward (s.copyElem at_ e w ls ld cs cd).2 := by
  have hload := loadElem_frame hview s at_ ls ((tplSweep w cs).at_ e.done)
  unfold State.copyElem
  dsimp only
  generalize s.loadElem at_ ls ((tplSweep w cs).at_ e.done) = r at hload ⊢
  obtain ⟨u, h | ⟨c, g⟩⟩ := r
  · exact ⟨hload, e.onward_halt h⟩
  · dsimp only
    split
    · exact ⟨hload, Eq.refl _, Eq.refl _, Nat.le_succ _⟩
    · generalize hland : State.landAll _ _ _ _ _ _ _ _ _ _ = r
      have hkept := congrArg (fun r => view r.1) hland
      rw [landAll_frame hview] at hkept
      obtain ⟨v, h | d⟩ := r
      · exact ⟨hkept.symm.trans hload, e.onward_halt h⟩
      · exact ⟨hkept.symm.trans hload, Eq.refl _, Eq.refl _, Nat.le_succ _⟩

theorem copyRun_frame (tn n : Nat) (s : State) (e : QEntry) :
    view (s.copyRun tn e n).1 = view s ∧ e.Onward (s.copyRun tn e n).2 := by
  induction n generalizing s e with
  | zero => exact ⟨rfl, .rfl⟩
  | succ n ih =>
    unfold State.copyRun
    split
    · exact ⟨rfl, .rfl⟩
    · split
      case h_2 => exact ⟨rfl, .rfl⟩
      case h_1 t w ls ld cs cd ht hbody =>
        obtain ⟨hstate, hentry⟩ := copyElem_frame hview s ⟨tn, t, t.entryAgent e 1⟩ e w ls ld cs cd
        generalize s.copyElem ⟨tn, t, t.entryAgent e 1⟩ e w ls ld cs cd = r at hstate hentry ⊢
        obtain ⟨u, e'⟩ := r
        obtain ⟨hrest, hlast⟩ := ih u e'
        exact ⟨hrest.trans hstate, hentry.trans hlast⟩

end

theorem copyRun_kept (tn n : Nat) (s : State) (e : QEntry) :
    (s.copyRun tn e n).1.engines = s.engines ∧ e.Onward (s.copyRun tn e n).2 := copyRun_frame engineFrame_engines tn n s e

end Sys2Proof.Machine
end

section
/-!
PROOFS. The ends of entries, and the steps of the copy engine, the rings and the network engine (02 R48; 13 R286; 16 R361, R365, R368).
-/
namespace Sys2Proof.Machine

/-! ### What is left of the queues when an entry ends (R286, R323) -/

/-- The entries of `t'` bear numbers of entries of `t`, and the rings are the same. -/
structure QueuesFrom (t t' : Truss) : Prop where
  ids : ∀ q, ∀ x ∈ t'.queue q, ∃ y ∈ t.queue q, y.id = x.id
  rings : t'.rings = t.rings

theorem QueuesFrom.refl (t : Truss) : QueuesFrom t t := ⟨fun _ x hx => ⟨x, hx, rfl⟩, rfl⟩

theorem QueuesFrom.trans {t u v : Truss} (h : QueuesFrom t u) (h' : QueuesFrom u v) : QueuesFrom t v := by
  refine ⟨fun q x hx => ?_, h'.rings.trans h.rings⟩
  obtain ⟨y, hy, hyx⟩ := h'.ids q x hx
  obtain ⟨z, hz, hzy⟩ := h.ids q y hy
  exact ⟨z, hz, hzy.trans hyx⟩

theorem queue_modQueue (t : Truss) (q : QSel) (f : List QEntry → List QEntry) (q' : QSel) :
    (t.modQueue q f).queue q' = if q' = q ∧ q ≠ .none then f (t.queue q') else t.queue q' := by
  cases q <;> cases q' <;> rfl

theorem queuesFrom_modQueue (t : Truss) (q : QSel) {f : List QEntry → List QEntry} (hf : ∀ es, ∀ x ∈ f es, ∃ y ∈ es, y.id = x.id) :
    QueuesFrom t (t.modQueue q f) := by
  refine ⟨fun q' x hx => ?_, by cases q <;> rfl⟩
  rw [queue_modQueue] at hx
  split at hx
  · exact hf _ x hx
  · exact ⟨x, hx, rfl⟩

theorem queuesFrom_passFences (n : Nat) (t : Truss) : QueuesFrom t (t.passFences n) := by
  induction n generalizing t with
  | zero => exact .refl t
  | succ n ih =>
    unfold Truss.passFences
    split
    · refine QueuesFrom.trans (u := _) ?_ (ih _)
      refine ⟨fun q x hx => ?_, rfl⟩
      cases q with
      | none => exact absurd hx List.not_mem_nil
      | copy => exact ⟨x, List.mem_of_mem_filter hx, rfl⟩
      | mat => exact ⟨x, List.mem_of_mem_filter hx, rfl⟩
      | net => exact ⟨x, List.mem_of_mem_filter hx, rfl⟩
    · exact .refl t

theorem queuesFrom_reissueIn (t : Truss) (js : List Nat) (q : QSel) : QueuesFrom t (t.reissueIn js q) := by
  refine queuesFrom_modQueue t q fun es x hx => ?_
  dsimp only at hx
  obtain hx | hx := List.mem_append.mp hx
  · exact ⟨x, List.mem_of_mem_filter hx, rfl⟩
  · obtain ⟨y, hy, rfl⟩ := List.mem_map.mp hx
    exact ⟨y, List.mem_of_mem_filter (List.mem_of_mem_take hy), rfl⟩

theorem queuesFrom_refill (t : Truss) : QueuesFrom t t.refill := by
  unfold Truss.refill
  split
  · exact .refl t
  · exact (((queuesFrom_reissueIn t _ .copy).trans (queuesFrom_reissueIn ..)).trans (queuesFrom_reissueIn ..)).trans (queuesFrom_passFences ..)

/-- A truss once the entry of number `id` has left a queue. -/
def Truss.without (t : Truss) (q : QSel) (id : Nat) : Truss := ((t.modQueue q fun es => es.filter fun x => x.id != id).passFences 64).refill

theorem without_rings (t : Truss) (q : QSel) (id : Nat) : (t.without q id).rings = t.rings :=
  ((queuesFrom_modQueue t q fun _ x hx => ⟨x, List.mem_of_mem_filter hx, rfl⟩).trans
    ((queuesFrom_passFences ..).trans (queuesFrom_refill _))).rings

theorem without_ids {t : Truss} {q : QSel} {id : Nat} {x : QEntry} (hx : x ∈ (t.without q id).queue q) : x.id ≠ id := by
  obtain ⟨y, hy, hyx⟩ := ((queuesFrom_passFences 64 (t.modQueue q fun es => es.filter fun x => x.id != id)).trans (queuesFrom_refill _)).ids q x hx
  rw [queue_modQueue] at hy
  split at hy
  · have hne := (List.mem_filter.mp hy).2
    rw [← hyx]
    exact bne_iff_ne.mp hne
  case isFalse hq =>
    cases q with
    | none => exact absurd hy List.not_mem_nil
    | copy => exact absurd ⟨rfl, nofun⟩ hq
    | mat => exact absurd ⟨rfl, nofun⟩ hq
    | net => exact absurd ⟨rfl, nofun⟩ hq

theorem endEntry_eq (s : State) (tn : Nat) (q : QSel) (e : QEntry) (ws : List RegVal) (consumed : Bool) (st : BitVec 8) :
    s.endEntry tn q e ws consumed st =
      (s.modTruss tn fun t => t.without q e.id).modCourse ⟨tn, e.course⟩ fun k => k.endOp e.tokOp e.fault ws consumed st := rfl

theorem truss?_endEntry {s : State} {tn : Nat} {t : Truss} (ht : s.truss? tn = some t) (q : QSel) (e : QEntry) (ws : List RegVal) (consumed : Bool)
    (st : BitVec 8) : (s.endEntry tn q e ws consumed st).truss? tn =
      some ((t.without q e.id).modCourse e.course fun k => k.endOp e.tokOp e.fault ws consumed st) := by
  rw [endEntry_eq]
  unfold State.modCourse
  rw [truss?_modTruss, if_pos rfl, truss?_modTruss, if_pos rfl, ht]
  rfl

theorem queue_modCourse (t : Truss) (j : Nat) (f : Course → Course) (q : QSel) : (t.modCourse j f).queue q = t.queue q := by
  cases q <;> rfl

theorem endEntry_cores (s : State) (tn : Nat) (q : QSel) (e : QEntry) (ws : List RegVal) (consumed : Bool) (st : BitVec 8) :
    (s.endEntry tn q e ws consumed st).cores = s.cores := rfl

theorem setEntry_cores (s : State) (tn : Nat) (q : QSel) (e : QEntry) : (s.setEntry tn q e).cores = s.cores := rfl

/-! ### The copy engine (R368) -/

/-- The entry that the engine has taken. -/
def QEntry.start (e : QEntry) : QEntry := { e with begun := true }

/-- The core's engine notes the truss it serves. -/
def State.serving (s : State) (core tn : Nat) : State := s.modCore core fun c => { c with copyLast := some tn }

/-- How the engine leaves the entry it has gone on with. -/
def State.leaveCopy (s : State) (tn : Nat) (e : QEntry) : State :=
  if e.full then s.endEntry tn .copy e [] false e.status else s.setEntry tn .copy e

/-- The engine's run of an entry, unless a wait of it has ended in a fault. -/
def State.runEntry (s : State) (tn : Nat) (e : QEntry) (n : Nat) : State × QEntry :=
  match e.aborted with | some e => (s, e) | none => s.copyRun tn e (n + 1)

theorem copyStep_def (s : State) (core n : Nat) : copyStep s core n = match s.copyNext core with
    | none => s
    | some tn => match s.copyHead tn with
      | none => s
      | some e => if e.wait.waits then s
        else ((s.serving core tn).runEntry tn e.start n).1.leaveCopy tn ((s.serving core tn).runEntry tn e.start n).2 := rfl

theorem copyStep_eq {s : State} {core n tn : Nat} {e : QEntry} (hnext : s.copyNext core = some tn) (hhead : s.copyHead tn = some e)
    (hwait : e.wait = .untranslated) : copyStep s core n =
      ((s.serving core tn).copyRun tn e.start (n + 1)).1.leaveCopy tn ((s.serving core tn).copyRun tn e.start (n + 1)).2 := by
  have hrun : (s.serving core tn).runEntry tn e.start n = (s.serving core tn).copyRun tn e.start (n + 1) := by
    unfold State.runEntry QEntry.aborted QEntry.start
    dsimp only
    rw [hwait]
  rw [copyStep_def, hnext]
  dsimp only
  rw [hhead]
  dsimp only
  rw [hwait, if_neg (by decide), hrun]

theorem copyHead_mem {s : State} {tn : Nat} {t : Truss} {e : QEntry} (ht : s.truss? tn = some t) (h : s.copyHead tn = some e) : e ∈ t.copyQ := by
  unfold State.copyHead at h
  rw [ht] at h
  dsimp only [Option.bind_some] at h
  split at h
  case h_2 => cases h
  case h_1 e' he =>
    split at h
    case h_2 => cases h
    case h_1 =>
      split at h
      case isTrue => cases h
      case isFalse =>
        cases h
        exact List.mem_of_find?_eq_some he

theorem copyLast_of_engines {s t : State} {core : Nat} (hcore : core < 192) (h : s.engines = t.engines) :
    (s.core core).copyLast = (t.core core).copyLast := by
  have hcores : s.cores.map Core.copyLast = t.cores.map Core.copyLast := congrArg (·.2) h
  have hone := congrArg (fun v => v[core]) hcores
  have hs : s.core core = s.cores[core] := dif_pos hcore
  have ht : t.core core = t.cores[core] := dif_pos hcore
  rw [hs, ht]
  simpa only [Vector.getElem_map] using hone

theorem copyQ_of_engines {s t : State} {n : Nat} {u : Truss} (h : s.engines = t.engines) (hu : t.truss? n = some u) :
    ∃ u', s.truss? n = some u' ∧ u'.copyQ = u.copyQ := by
  have hqueues : s.trusses.map Truss.queues = t.trusses.map Truss.queues := congrArg (·.1) h
  have hone := congrArg (·[n]?) hqueues
  simp only [List.getElem?_map] at hone
  unfold State.truss? at hu ⊢
  rw [hu, Option.map_some] at hone
  obtain ⟨u', hu', hq⟩ := Option.map_eq_some_iff.mp hone
  exact ⟨u', hu', congrArg (·.1) hq⟩

theorem copyLast_serving (s : State) {core : Nat} (hcore : core < 192) (tn : Nat) : ((s.serving core tn).core core).copyLast = some tn := by
  unfold State.serving
  rw [core_modCore, if_pos ⟨rfl, hcore⟩]

theorem leaveCopy_ok {s : State} {tn : Nat} {u : Truss} {e e' : QEntry} (hu : s.truss? tn = some u) (hmem : e ∈ u.copyQ)
    (hon : e.start.Onward e') : ∃ u', (s.leaveCopy tn e').truss? tn = some u' ∧
      ((∃ x ∈ u'.copyQ, x.id = e.id ∧ x.begun = true ∧ e.done ≤ x.done) ∨ ∀ x ∈ u'.copyQ, x.id ≠ e.id) := by
  have hid : e'.id = e.id := hon.id
  unfold State.leaveCopy
  split
  · refine ⟨_, truss?_endEntry hu .copy e' [] false e'.status, .inr fun x hx => ?_⟩
    rw [← hid]
    exact without_ids (q := .copy) hx
  · refine ⟨u.modQueue .copy fun es => es.map fun x => if x.id = e'.id then e' else x, ?_, .inl ⟨e', ?_, hid, hon.begun, hon.done⟩⟩
    · unfold State.setEntry
      rw [truss?_modTruss, if_pos rfl, hu]
      rfl
    · exact List.mem_map.mpr ⟨e, hmem, if_pos hid.symm⟩

theorem leaveCopy_core (s : State) (tn : Nat) (e : QEntry) (core : Nat) : (s.leaveCopy tn e).core core = s.core core := by
  unfold State.leaveCopy State.core
  split
  · rw [endEntry_cores]
  · rw [setEntry_cores]

theorem copy_ok {s : State} {core n tn : Nat} {t : Truss} {e : QEntry} (hcore : core < 192) (hnext : s.copyNext core = some tn)
    (hhead : s.copyHead tn = some e) (ht : s.truss? tn = some t) (hwait : e.wait = .untranslated) :
    ∃ s' u, exec (.copyEntryExecute core n) s = .next s' ∧ (s'.core core).copyLast = some tn ∧ s'.truss? tn = some u ∧
      ((∃ x ∈ u.copyQ, x.id = e.id ∧ x.begun = true ∧ e.done ≤ x.done) ∨ ∀ x ∈ u.copyQ, x.id ≠ e.id) := by
  obtain ⟨hkept, hon⟩ := copyRun_kept tn (n + 1) (s.serving core tn) e.start
  obtain ⟨u, hu, hcopyQ⟩ := copyQ_of_engines hkept (u := t) ht
  obtain ⟨u', hu', hentry⟩ := leaveCopy_ok hu (hcopyQ ▸ copyHead_mem ht hhead) hon
  refine ⟨_, u', congrArg Host.Outcome.next (copyStep_eq hnext hhead hwait), ?_, hu', hentry⟩
  rw [leaveCopy_core, copyLast_of_engines hcore hkept, copyLast_serving s hcore]

/-! ### Ring entries (R361, R365) -/

theorem modSlot_ringEffect {t : Truss} {rg : Fin 8} {n : Nat} {y : Slot} {commit : Bool} (hy : t.rings[rg].slots[n]? = some y)
    (hst : y.st = if commit then .committing else .releasing) : t.ringEffect rg n commit (some y.phase) =
      t.withRing rg (t.rings[rg].withSlot n (if commit then { y with st := .filled } else { y with st := .free, phase := !y.phase })) := by
  unfold Truss.ringEffect
  rw [modSlot_eq hy, if_neg (not_not_intro rfl)]
  cases commit with
  | true => exact congrArg (fun x => t.withRing rg (t.rings[rg].withSlot n x)) (if_pos hst)
  | false => exact congrArg (fun x => t.withRing rg (t.rings[rg].withSlot n x)) (if_pos hst)

theorem withRing_same (t : Truss) (rg : Fin 8) (r : Ring) : (t.withRing rg r).rings[rg] = r := Vector.getElem_set_self ..

theorem withRing_other (t : Truss) (rg : Fin 8) (r : Ring) {rg' : Fin 8} (h : rg' ≠ rg) : (t.withRing rg r).rings[rg'] = t.rings[rg'] :=
  Vector.getElem_set_ne rg.isLt rg'.isLt fun heq => h (Fin.ext heq.symm)

theorem ring_ok {s : State} {tn : Nat} {q : QSel} {t : Truss} {e : QEntry} {rg : Fin 8} {n : Nat} {commit : Bool} {y : Slot}
    (ht : s.truss? tn = some t) (hhead : t.head? q = some e) (hcore : t.onCore = true) (hheld : e.held = false)
    (hbody : e.body = .ring rg n commit (some y.phase)) (hy : t.rings[rg].slots[n]? = some y)
    (hst : y.st = (if commit then .committing else .releasing)) :
    ∃ s' u, exec (.ringEntryEffect tn q) s = .next s' ∧ s'.truss? tn = some u ∧
      u.rings[rg].slots[n]? = some (if commit then { y with st := .filled } else { y with st := .free, phase := !y.phase }) ∧
      (∀ r : Fin 8, r ≠ rg → u.rings[r] = t.rings[r]) ∧ ∀ x ∈ u.queue q, x.id ≠ e.id := by
  have hrun : ringEntryStep s tn q = (s.modTruss tn fun t => (t.ringEffect rg n commit (some y.phase)).publish e.course).endEntry tn q e [] false 0 := by
    unfold ringEntryStep
    rw [ht]
    dsimp only
    rw [hhead]
    dsimp only
    rw [hbody]
    exact if_neg (by rw [hheld, hcore]; decide)
  have hmod : (s.modTruss tn fun t => (t.ringEffect rg n commit (some y.phase)).publish e.course).truss? tn =
      some ((t.ringEffect rg n commit (some y.phase)).publish e.course) := by
    rw [truss?_modTruss, if_pos rfl, ht]
    rfl
  have hrings : ∀ f : Course → Course, ((((t.ringEffect rg n commit (some y.phase)).publish e.course).without q e.id).modCourse e.course f).rings =
      (t.withRing rg (t.rings[rg].withSlot n (if commit then { y with st := .filled } else { y with st := .free, phase := !y.phase }))).rings := by
    intro f
    rw [← modSlot_ringEffect hy hst]
    exact without_rings _ q e.id
  obtain ⟨hn, -⟩ := List.getElem?_eq_some_iff.mp hy
  refine ⟨_, _, congrArg Host.Outcome.next hrun, truss?_endEntry hmod q e [] false 0, ?_, fun r hr => ?_, fun x hx => ?_⟩
  · rw [hrings, withRing_same]
    exact List.getElem?_set_self hn
  · rw [hrings, withRing_other _ _ _ hr]
  · rw [queue_modCourse] at hx
    exact without_ids hx

/-! ### Messages (R48, R322) -/

/-- A message that is on its way (R48). -/
def State.sent (s : State) (m : AMsg) : State := { s with amsgFly := s.amsgFly ++ [m] }

theorem netStart_amsg {s : State} {tn : Nat} {t : Truss} {e : QEntry} {target handler base : Nat} {payload : List Byte} {core : Nat}
    (hkernel : t.kernelMode = false) (hbody : e.body = .amsg target handler base payload) (hgrant : s.grantCore t.vd target = some core) :
    s.netStart tn t e = (s.sent ⟨t.vd, core, handler, base, t.launch, payload, some (tn, e.id), .untranslated⟩).setEntry tn .net
      { e with begun := true, full := true } := by
  unfold State.netStart
  dsimp only
  rw [hkernel, if_neg Bool.false_ne_true, hbody]
  dsimp only
  rw [hgrant]
  rfl

theorem network_ok {s : State} {tn : Nat} {t : Truss} {e : QEntry} {target handler base : Nat} {payload : List Byte}
    (ht : s.truss? tn = some t) (hhead : t.head? .net = some e) (hcore : t.onCore = true) (hkernel : t.kernelMode = false) (hheld : e.held = false)
    (hfull : e.full = false) (hwait : e.wait = .untranslated) (hawaits : s.entryAwaits tn e = false)
    (hbody : e.body = .amsg target handler base payload) {d : VDev} {cl : Nat} (hd : s.vdev? t.vd = some d)
    (hcl : ((List.range 24).filter fun c => d.grant.getLsbD c)[target / 8]? = some cl) :
    ∃ s' m, exec (.networkEntryStart tn) s = .next s' ∧ s'.amsgFly = s.amsgFly ++ [m] ∧ m.target = 8 * cl + target % 8 ∧
      m.handler = handler ∧ m.tblBase = base ∧ m.payload = payload ∧ m.vd = t.vd := by
  have hgrant : s.grantCore t.vd target = some (8 * cl + target % 8) := by
    unfold State.grantCore
    rw [hd]
    dsimp only
    rw [hcl]
    rfl
  have hab : e.aborted = none := by
    unfold QEntry.aborted
    rw [hwait]
  have hrun : networkStep s tn = s.netStart tn t e := by
    unfold networkStep
    rw [ht]
    dsimp only
    rw [hhead]
    dsimp only
    rw [if_neg (by rw [hheld, hfull, hwait, hcore, hawaits]; decide), hab]
  exact ⟨_, _, congrArg Host.Outcome.next (hrun.trans (netStart_amsg hkernel hbody hgrant)), rfl, rfl, rfl, rfl, rfl, rfl⟩

/-- A message has left the network for a core's queue, or for nowhere (R48). -/
def State.arrived (s : State) (core : Nat) (m : AMsg) : State :=
  let full := Config.amsgCap ≤ ((s.core core).amsgs.filter fun x => x.vd == m.vd).length
  let s : State := { s with amsgFly := s.amsgFly.erase m }
  if full then s else s.modCore core fun c => { c with amsgs := c.amsgs ++ [{ m with sender := none }] }

theorem endNet_kept (s : State) (tn id : Nat) (st : BitVec 8) : (s.endNet tn id st).amsgFly = s.amsgFly ∧ (s.endNet tn id st).cores = s.cores := by
  unfold State.endNet
  split <;> exact ⟨rfl, rfl⟩

theorem amsgArrive_kept {s : State} {core : Nat} {m : AMsg} (hm : s.amsgFly.find? (fun m => m.target == core) = some m) :
    (amsgArrive s core).amsgFly = (s.arrived core m).amsgFly ∧ (amsgArrive s core).cores = (s.arrived core m).cores := by
  unfold amsgArrive
  rw [hm]
  dsimp only
  split
  · exact endNet_kept ..
  · exact ⟨rfl, rfl⟩

theorem arrived_fly (s : State) (core : Nat) (m : AMsg) : (s.arrived core m).amsgFly = s.amsgFly.erase m := by
  unfold State.arrived
  dsimp only
  split <;> rfl

theorem arrived_queued {s : State} {core : Nat} {m : AMsg} (hcore : core < 192)
    (hroom : ((s.core core).amsgs.filter fun x => x.vd == m.vd).length < 64) :
    ((s.arrived core m).core core).amsgs = (s.core core).amsgs ++ [{ m with sender := none }] := by
  unfold State.arrived
  dsimp only
  rw [if_neg (show ¬ Config.amsgCap ≤ _ from Nat.not_le.mpr hroom), core_modCore, if_pos ⟨rfl, hcore⟩]
  rfl

theorem arrived_dropped {s : State} {core : Nat} {m : AMsg} (hfull : 64 ≤ ((s.core core).amsgs.filter fun x => x.vd == m.vd).length) :
    ((s.arrived core m).core core).amsgs = (s.core core).amsgs := by
  unfold State.arrived
  dsimp only
  rw [if_pos (show Config.amsgCap ≤ _ from hfull)]
  rfl

theorem core_congr {s t : State} (h : s.cores = t.cores) (n : Nat) : s.core n = t.core n := by
  unfold State.core
  rw [h]

end Sys2Proof.Machine
end

section
/-!
PROOFS. The service trusses (02 R46, R47, R468), and what the engines of a core do.
-/
namespace Sys2Proof.Machine

theorem tget?_tdel {α : Type} (t : Tbl α) (k : Nat) : tget? (tdel t k) k = none := by
  unfold tdel
  induction t with
  | nil => rfl
  | cons e t ih =>
    obtain ⟨j, x⟩ := e
    rw [List.filter_cons]
    split
    case isFalse => exact ih
    case isTrue hj =>
      unfold tget?
      split
      case isTrue heq => exact absurd heq.symm (bne_iff_ne.mp hj)
      case isFalse =>
        split
        · rfl
        · exact ih

theorem vat_fin {α : Type} {n : Nat} (v : Vector α n) (i : Fin n) (d : α) : vat v i d = v[i] := dif_pos i.isLt
theorem vput_fin {α : Type} {n : Nat} (v : Vector α n) (i : Fin n) (x : α) : vput v i x = v.set i x := dif_pos i.isLt

theorem serviceTake_ok {s : State} {die : Fin 2} {course : Fin 4} {x : CRef × Nat} {rs : List (Option (CRef × Nat))} (reject : Bool)
    (results : List (List W32)) (hnone : tget? s.svcTaken[die] course = none) (hrecs : s.svcRecs[die] = some x :: rs) :
    exec (.serviceRecordTake ⟨die, course⟩ reject results) s = .next { s with
      svcRecs := s.svcRecs.set die rs, svrHead := s.svrHead.set die (s.svrHead[die] + 1),
      svcTaken := s.svcTaken.set die (tput s.svcTaken[die] course x) } := by
  refine congrArg Host.Outcome.next ?_
  unfold serviceStep
  dsimp only
  rw [vat_fin, hnone]
  dsimp only
  rw [vat_fin, hrecs]
  dsimp only
  rw [vput_fin, vput_fin, vput_fin, vat_fin]

/-- A call's results as what its operation writes: in the lanes of its record (R47). -/
def callWrite (results : List (List W32)) (w : RegVal) (j : Nat) : RegVal :=
  match w with
  | .v n m _ =>
    let rows := (List.range 32).map fun l => ((results[(lanesIn m).idxOf l]?).getD [])
    RegVal.v n m (laneVec fun l => ((rows[l]?).getD [])[j]?.getD 0)
  | w => w

/-- What a call's operation writes, register by register. -/
def callWrites (results : List (List W32)) (ws : List RegVal) : List RegVal := ws.zipIdx.map fun (w, j) => callWrite results w j

/-- A course once its call has ended. -/
def Course.callEnds (k : Course) (op seq : Nat) (reject : Bool) (results : List (List W32)) : Course :=
  if k.gone then k
  else if reject then k.endOp (some op) (some ⟨0x1B, 0, 0, seq⟩) [] false 0
  else k.endOp (some op) none (callWrites results (((k.ops.find? fun o => o.id == op).map (·.writes)).getD [])) false 0

theorem endCall_eq (s : State) (c : CRef) (op : Nat) (reject : Bool) (results : List (List W32)) :
    s.endCall c op reject results = s.modCourse c (Course.callEnds · op s.nextId reject results) := rfl

/-- A die's course is done with the call it took. -/
def State.doneWith (s : State) (die : Fin 2) (course : Nat) : State :=
  { s with svcTaken := vput s.svcTaken die (tdel s.svcTaken[die] course) }

theorem serviceStep_taken {s : State} {die : Fin 2} {course : Fin 4} {c : CRef} {op : Nat} (reject : Bool) (results : List (List W32))
    (h : tget? s.svcTaken[die] course = some (c, op)) : serviceStep s die course reject results =
      (s.doneWith die course).modCourse c (Course.callEnds · op s.nextId reject results) := by
  unfold serviceStep
  dsimp only
  rw [vat_fin, h]
  rfl

theorem doneWith_taken (s : State) (die : Fin 2) (course : Nat) : tget? (s.doneWith die course).svcTaken[die] course = none := by
  have htaken : (s.doneWith die course).svcTaken[die] = tdel s.svcTaken[die] course := by
    unfold State.doneWith
    dsimp only
    rw [vput_fin]
    exact Vector.getElem_set_self ..
  rw [htaken, tget?_tdel]

theorem row_of_lane {results : List (List W32)} {m : LaneMask} {l : Nat} {row : List W32} (hm : m.getLsbD l = true)
    (hrow : results[(lanesIn m).idxOf l]? = some row) :
    vat (laneVec fun l => ((((List.range 32).map fun l => ((results[(lanesIn m).idxOf l]?).getD []))[l]?).getD [])[0]?.getD 0) l 0 =
      (row[0]?).getD 0 := by
  have hl : l < 32 := BitVec.lt_of_getLsbD hm
  rw [vat_laneVec _ hl, List.getElem?_map, List.getElem?_range hl]
  simp only [Option.map_some, Option.getD_some]
  rw [hrow]
  rfl

/-- An operation once it has ended. -/
def TokOp.callEnded (o : TokOp) (fault : Option LateFault) (ws : List RegVal) : TokOp :=
  { o with fault := fault, writes := ws, poison := o.poison && fault.isSome, wait := .nothing, status := if o.status = 0 then 0 else o.status }

theorem callEnds_rejected {k : Course} {o : TokOp} (hgone : k.gone = false) (hops : k.ops = [o]) (seq : Nat)
    (results : List (List W32)) : (k.callEnds o.id seq true results).ops = [o.callEnded (some ⟨0x1B, 0, 0, seq⟩) o.writes] := by
  unfold Course.callEnds
  rw [hgone, if_neg Bool.false_ne_true, if_pos rfl]
  unfold Course.endOp Course.completeOp Course.modOp
  dsimp only
  rw [hops]
  simp [TokOp.callEnded]

theorem callEnds_done {k : Course} {o : TokOp} (hgone : k.gone = false) (hops : k.ops = [o]) (hfault : o.fault = none) (seq : Nat)
    (results : List (List W32)) : (k.callEnds o.id seq false results).ops =
      [o.callEnded none (callWrites results o.writes)] := by
  unfold Course.callEnds
  rw [hgone, if_neg Bool.false_ne_true, if_neg Bool.false_ne_true]
  unfold Course.endOp Course.completeOp Course.modOp
  dsimp only
  rw [hops]
  simp [TokOp.callEnded, hfault]

theorem serviceEnd_ok {s : State} {die : Fin 2} {course : Fin 4} (reject : Bool) (results : List (List W32)) {c : CRef} {k : Course} {o : TokOp}
    {d : VReg} {m : LaneMask} (htaken : tget? s.svcTaken[die] course = some (c, o.id)) (hk : s.course? c = some k) (hres : k.cstate = .resident)
    (hops : k.ops = [o]) (hfault : o.fault = none) (hwrites : o.writes = [.v d m (Vector.replicate 32 0)]) :
    ∃ s' k' o', exec (.serviceRecordTake ⟨die, course⟩ reject results) s = .next s' ∧ tget? s'.svcTaken[die] course = none ∧
      s'.course? c = some k' ∧ k'.ops = [o'] ∧ o'.wait = .nothing ∧
      (reject = true → ∃ f, o'.fault = some f ∧ f.cause = 0x1B) ∧
      (reject = false → o'.fault = none ∧
        ∃ x, o'.writes = [.v d m x] ∧
          ∀ l row, m.getLsbD l = true → results[(lanesIn m).idxOf l]? = some row → vat x l 0 = (row[0]?).getD 0) := by
  have hgone : k.gone = false := by
    unfold Course.gone
    rw [hres]
    rfl
  have hfound : ((s.doneWith die course).modCourse c (Course.callEnds · o.id s.nextId reject results)).course? c =
      some (k.callEnds o.id s.nextId reject results) := by
    rw [course?_modCourse, if_pos rfl, show (s.doneWith die course).course? c = some k from hk]
    rfl
  have hrun : exec (.serviceRecordTake ⟨die, course⟩ reject results) s =
      .next ((s.doneWith die course).modCourse c (Course.callEnds · o.id s.nextId reject results)) :=
    congrArg Host.Outcome.next (serviceStep_taken reject results htaken)
  cases reject with
  | true => exact ⟨_, _, _, hrun, doneWith_taken s die course, hfound, callEnds_rejected hgone hops s.nextId results, rfl,
      fun _ => ⟨_, rfl, rfl⟩, nofun⟩
  | false =>
    refine ⟨_, _, _, hrun, doneWith_taken s die course, hfound, callEnds_done hgone hops hfault s.nextId results, rfl, nofun, fun _ => ⟨rfl, ?_⟩⟩
    refine ⟨_, congrArg (callWrites results) hwrites, fun l row hm hrow => ?_⟩
    exact row_of_lane hm hrow

/-- Settles O36: each engine by the entry, the message or the record at its head. -/
theorem otherEngineSteps : Obligations.OtherEngineSteps := by
  unfold Obligations.OtherEngineSteps
  refine ⟨?copy, ?ring, ?network, ?arrival, ?take, ?call⟩
  case copy =>
    intro s core n tn t e hcore hnext hhead ht hwait
    exact copy_ok hcore hnext hhead ht hwait
  case ring =>
    intro s tn q t e rg n commit y ht hhead hcore hheld hbody hy hst
    exact ring_ok ht hhead hcore hheld hbody hy hst
  case network =>
    intro s tn t e target handler base payload ht hhead hcore hkernel hheld hfull hwait hawaits hbody d cl hd hcl
    exact network_ok ht hhead hcore hkernel hheld hfull hwait hawaits hbody hd hcl
  case arrival =>
    intro s core m hcore hm queued
    obtain ⟨hfly, hcores⟩ := amsgArrive_kept hm
    refine ⟨_, rfl, hfly.trans (arrived_fly ..), fun hroom => ?_, fun hfull => ?_⟩
    · rw [core_congr hcores]
      exact arrived_queued hcore hroom
    · rw [core_congr hcores]
      exact arrived_dropped hfull
  case take =>
    intro s die course reject results x rs hnone hrecs
    exact serviceTake_ok reject results hnone hrecs
  case call =>
    intro s die course reject results c k o d m htaken hk hres hops hwait hfault hstatus hwrites
    exact serviceEnd_ok reject results htaken hk hres hops hfault hwrites

end Sys2Proof.Machine
end

section
/-!
PROOFS. Strike reports, region rollback, and the release of what a guarded course holds (19 R441 to R443, R448).
-/
namespace Sys2Proof.Machine

/-! ### What a strike report keeps (R441, R442) -/

/-- What the sensors of a core have reported, and how many reports there were. -/
def State.reports (s : State) (core : Nat) : BitVec 5 × W64 := ((s.core core).strkz, s.strikes)

theorem reports_of_noWork {s t : State} (core : Nat) (h : s.noWork = t.noWork) : s.reports core = t.reports core := by
  have hreports := congrArg (State.reports · core) h
  exact hreports

theorem reports_modCourse (s : State) (c : CRef) (f : Course → Course) (core : Nat) : (s.modCourse c f).reports core = s.reports core := rfl

theorem reports_modCore (s : State) (n : Nat) {f : Core → Core} (hf : ∀ c, (f c).strkz = c.strkz) (core : Nat) :
    (s.modCore n f).reports core = s.reports core := by
  have hstrkz : ((s.modCore n f).core core).strkz = (s.core core).strkz := by
    rw [core_modCore]
    split
    case isTrue h => rw [hf, h.1]
    case isFalse => rfl
  exact congrArg (fun x => (x, s.strikes)) hstrkz

theorem reports_dropEntries (s : State) (tn : Nat) (sel : QEntry → Bool) (core : Nat) : (s.dropEntries tn sel).reports core = s.reports core := by
  unfold State.dropEntries
  split
  · rfl
  case h_2 t ht =>
    have hfree : ∀ b : Bool, (if b && (s.core t.core).matBusy == some tn then s.modCore t.core fun c => { c with matBusy := none } else s).reports core =
        s.reports core := by
      intro b
      split
      · exact reports_modCore s t.core (f := fun c => { c with matBusy := none }) (fun _ => rfl) core
      · rfl
    exact hfree _

/-- A held operation's own part of the state is given up. -/
def State.dropHeldOp (s : State) (c : CRef) (h : Held) : State :=
  match h.op with
  | .access id => { s with accesses := s.accesses.filter fun a => a.id != id }
  | .promise id => { s with proms := s.proms.filter fun p => p.id != id }
  | .entry id => s.dropEntries c.truss fun e => e.id == id
  | _ => s

theorem dropHeld_eq (s : State) (c : CRef) (h : Held) : s.dropHeld c h = (s.dropHeldOp c h).modCourse c fun k =>
    { (match h.tokOp with | some id => k.dropOp id | none => k) with
      quarantine := (match h.tokOp with | some id => k.dropOp id | none => k).quarantine.filter (· != h) } := rfl

theorem reports_dropHeld (s : State) (c : CRef) (h : Held) (core : Nat) : (s.dropHeld c h).reports core = s.reports core := by
  rw [dropHeld_eq, reports_modCourse]
  unfold State.dropHeldOp
  split
  · rfl
  · rfl
  · exact reports_dropEntries ..
  · rfl

/-- A drain has begun for the kill of a course. -/
def State.pushCourseKill (s : State) (c : CRef) (root : Cause) : State :=
  { s with kills := s.kills ++ [{ scope := .course c, stage := .drain, drained := [], began := s.clk, root := root, firstSlot := none,
                                  mailbox := false, resets := false }] }

theorem reports_pushCourseKill (s : State) (c : CRef) (root : Cause) (core : Nat) : (s.pushCourseKill c root).reports core = s.reports core := rfl

theorem killCourse_eq (s : State) (c : CRef) (root : Cause) : s.killCourse c root = match s.course? c with
    | some k => if k.cstate = .killed || k.cstate = .retired then s.killStep c root else (s.killStep c root).pushCourseKill c root
    | none => s := rfl

theorem reports_killCourse (s : State) (c : CRef) (root : Cause) (core : Nat) : (s.killCourse c root).reports core = s.reports core := by
  rw [killCourse_eq]
  split
  · split
    · exact reports_of_noWork core (killStep_noWork ..)
    · exact (reports_pushCourseKill ..).trans (reports_of_noWork core (killStep_noWork ..))
  · rfl

theorem reports_strikeCourse (s : State) (c : CRef) (guarded : Bool) (core : Nat) : (s.strikeCourse c guarded).reports core = s.reports core := by
  unfold State.strikeCourse
  split
  · rfl
  · split
    · exact foldl_keeps _ (State.reports · core) (fun s h => reports_dropHeld s c h core) _ s
    · exact reports_killCourse ..

/-- The tiles of a core's trusses are poisoned where its struck engine wrote them. -/
theorem reports_strikeTiles (s : State) (n core : Nat) : (s.strikeTiles n).reports core = s.reports core :=
  reports_modCore s n (f := fun c => { c with acc := c.acc.map fun e => (e.1, { e.2 with tiles := e.2.tiles.map s.strikeTile }) }) (fun _ => rfl) core

/-- The courses that a report affects. -/
def State.hitBy (s : State) (core : Nat) (zone : Fin 5) : List (CRef × Bool) :=
  ((List.range s.trusses.length).map fun n => match s.truss? n with
    | some t => (List.range t.courses.length).filterMap fun j =>
        match t.courses[j]? with
        | some k => if s.struck t k core zone then some ((⟨n, j⟩ : CRef), t.items.guarded) else none
        | none => none
    | none => []).flatten

/-- The zone is noted in STRKZ. -/
def State.strikeMarked (s : State) (core : Nat) (zone : Fin 5) : State :=
  s.modCore core fun c => { c with strkz := c.strkz ||| BitVec.ofNat 5 (2 ^ zone.val) }

/-- A strike more is counted. -/
def State.strikeCounted (s : State) : State := { s with strikes := s.strikes + 1 }

/-- A report is noted: in STRKZ, in the event ring and in STRIKES. -/
def State.strikeNoted (s : State) (core : Nat) (zone : Fin 5) : State :=
  ((s.strikeMarked core zone).postEvent 0x22 (dieOf core) noVd 0 (BitVec.ofNat 64 (core + zone.val * 2 ^ 8))
    ((s.strikeMarked core zone).cyc core)).strikeCounted

theorem strike_eq (s : State) (core : Nat) (zone : Fin 5) : strike s core zone =
    (s.hitBy core zone).foldl (fun s h => s.strikeCourse h.1 h.2)
      (if zone.val = 4 then (s.strikeNoted core zone).strikeTiles core else s.strikeNoted core zone) := rfl

theorem reports_noEvents {s t : State} (core : Nat) (h : s.noEvents = t.noEvents) : s.reports core = t.reports core := by
  have hreports := congrArg (State.reports · core) h
  exact hreports

theorem reports_strikeCounted (s : State) (core : Nat) : s.strikeCounted.reports core = ((s.reports core).1, (s.reports core).2 + 1) := rfl

theorem reports_strikeMarked {s : State} {core : Nat} (hcore : core < 192) (zone : Fin 5) :
    (s.strikeMarked core zone).reports core = ((s.core core).strkz ||| BitVec.ofNat 5 (2 ^ zone.val), s.strikes) := by
  have hstrkz : ((s.strikeMarked core zone).core core).strkz = (s.core core).strkz ||| BitVec.ofNat 5 (2 ^ zone.val) := by
    unfold State.strikeMarked
    rw [core_modCore, if_pos ⟨rfl, hcore⟩]
  exact congrArg (fun x => (x, s.strikes)) hstrkz

theorem reports_strikeNoted {s : State} {core : Nat} (hcore : core < 192) (zone : Fin 5) :
    (s.strikeNoted core zone).reports core = ((s.core core).strkz ||| BitVec.ofNat 5 (2 ^ zone.val), s.strikes + 1) := by
  unfold State.strikeNoted
  rw [reports_strikeCounted, reports_noEvents core (postEvent_noEvents ..), reports_strikeMarked hcore]

theorem reports_strike {s : State} {core : Nat} (hcore : core < 192) (zone : Fin 5) :
    (strike s core zone).reports core = ((s.core core).strkz ||| BitVec.ofNat 5 (2 ^ zone.val), s.strikes + 1) := by
  rw [strike_eq]
  refine (foldl_keeps _ (State.reports · core) (fun s (h : CRef × Bool) => reports_strikeCourse s h.1 h.2 core) _ _).trans ?_
  split
  · exact (reports_strikeTiles ..).trans (reports_strikeNoted hcore zone)
  · exact reports_strikeNoted hcore zone

theorem exec_strikeReport {s : State} {core : Nat} (hcore : core < 192) (zone : Fin 5) :
    exec (.strikeReport core zone) s = .next (strike s core zone) := congrArg Host.Outcome.next (if_pos hcore)

/-! ### A guarded course that is struck -/

theorem trusses_noEvents {s t : State} (h : s.noEvents = t.noEvents) : s.trusses = t.trusses := by
  have htrusses := congrArg State.trusses h
  exact htrusses

theorem strikeNoted_trusses (s : State) (core : Nat) (zone : Fin 5) : (s.strikeNoted core zone).trusses = s.trusses := by
  have hevent := trusses_noEvents (postEvent_noEvents (s.strikeMarked core zone) 0x22 (dieOf core) noVd 0
    (BitVec.ofNat 64 (core + zone.val * 2 ^ 8)) ((s.strikeMarked core zone).cyc core))
  exact hevent

theorem course?_single {s : State} {t : Truss} {k : Course} (ht : s.trusses = [t]) (hk : t.courses = [k]) : s.course? ⟨0, 0⟩ = some k := by
  unfold State.course?
  rw [ht]
  dsimp only [List.getElem?_cons_zero, Option.bind_some]
  rw [hk]
  rfl

section
variable {s : State} {core : Nat} {zone : Fin 5} {t : Truss} {k : Course} (hcore : core < 192) (hzone : zone.val < 4) (ht : s.trusses = [t])
  (hcourses : t.courses = [k]) (hplace : t.place = .onCore core) (hguarded : t.items.guarded = true) (hres : k.cstate = .resident)
  (hrecent : k.recent.any (fun x => x.2 == 4 * core + zone.val && s.inWindow x.1) = true)
include hzone ht hcourses hplace hguarded hres hrecent

theorem hitBy_single : s.hitBy core zone = [(⟨0, 0⟩, true)] := by
  have hstruck : s.struck t k core zone = true := by
    unfold State.struck
    rw [hplace, hres, if_pos hzone, hrecent]
    rfl
  have htruss : s.truss? 0 = some t := by
    unfold State.truss?
    rw [ht]
    rfl
  unfold State.hitBy
  rw [ht, List.length_singleton, show List.range 1 = [0] from rfl, List.map_cons, htruss]
  dsimp only
  rw [hcourses, List.length_singleton, show List.range 1 = [0] from rfl, List.filterMap_cons]
  dsimp only [List.getElem?_cons_zero]
  rw [hstruck, hguarded]
  rfl

theorem strike_guarded (hquar : k.quarantine = []) : (strike s core zone).course? ⟨0, 0⟩ = some { k with rollbackPend := true } := by
  have hk : (s.strikeNoted core zone).course? ⟨0, 0⟩ = some k := course?_single ((strikeNoted_trusses ..).trans ht) hcourses
  have hrun : strike s core zone = (s.strikeNoted core zone).modCourse ⟨0, 0⟩ fun k => { k with rollbackPend := true } := by
    rw [strike_eq, hitBy_single hzone ht hcourses hplace hguarded hres hrecent, if_neg (Nat.ne_of_lt hzone), List.foldl_cons, List.foldl_nil]
    unfold State.strikeCourse
    rw [hk]
    dsimp only
    rw [if_pos (by rw [hres]; decide), hquar]
    rfl
  rw [hrun, course?_modCourse, if_pos rfl, hk]
  rfl

end

/-! ### Rollback (R443) -/

theorem drainTokens_empty {s : State} {c : CRef} {k : Course} (hk : s.course? c = some k) (hops : k.ops = []) (vd : Nat) : s.drainTokens c vd = s := by
  unfold State.drainTokens
  rw [hk]
  dsimp only
  rw [hops]
  rfl

theorem course?_setCourse_of {s : State} {c : CRef} {k0 : Course} (hk : s.course? c = some k0) (k : Course) : (s.setCourse c k).course? c = some k := by
  rw [course?_setCourse, if_pos rfl, hk]
  rfl

theorem rollback_eq {s u : State} {c : CRef} {t : Truss} {k : Course} (hat : s.atBoundary c = some (u, t, k)) (hk : u.course? c = some k)
    (hroll : k.rollbackPend = true) (hdebug : k.debugPend = false) (hrg : k.rgstate.getLsbD 63 = true) (hquar : k.quarantine = []) (hops : k.ops = [])
    (hframes : bits k.rgstate.toNat 40 38 ≤ k.frames.length) (hdiv : bits k.rgstate.toNat 37 32 ≤ k.div.length) (hgone : k.gone = false) :
    rollback s c = u.setCourse c (k.toRegion u.clk) := by
  have hin : (!k.rgV || k.frames.length < k.tdepth || k.div.length < k.ddepth) = false := by
    unfold Course.rgV Course.tdepth Course.ddepth
    rw [hrg, decide_eq_false (Nat.not_lt.mpr hframes), decide_eq_false (Nat.not_lt.mpr hdiv)]
    rfl
  unfold rollback
  rw [hat]
  dsimp only
  rw [if_neg (by rw [hroll, hdebug]; decide), if_neg (by rw [hin]; decide), hquar]
  dsimp only
  rw [if_neg (by rw [hops, List.all_nil]; decide), drainTokens_empty hk hops, hk]
  dsimp only
  rw [if_neg (by rw [hgone]; decide)]

theorem exited_away (x y : LaneMask) : (x &&& ~~~ y) &&& y = 0 := by
  rw [BitVec.and_assoc, BitVec.and_comm (~~~ y) y, BitVec.and_not_self]
  exact BitVec.and_zero

/-! ### Release of a held operation (R442) -/

/-- The oldest held operation leaves the buffer. -/
def State.unheld (s : State) (c : CRef) (h : Held) : State := s.modCourse c fun k => { k with quarantine := k.quarantine.filter (· != h) }

/-- A released operation whose check no longer holds ends in its fault (R255, R442). -/
def State.heldFault (s : State) (c : CRef) (h : Held) (f : Nat × Nat × W64) : State :=
  s.modCourse c fun k => k.endOp h.tokOp (some ⟨f.1, f.2.1, f.2.2, h.seq⟩) [] false 0

theorem dropEntries_clk (s : State) (tn : Nat) (sel : QEntry → Bool) : (s.dropEntries tn sel).clk = s.clk := by
  unfold State.dropEntries
  split
  · rfl
  case h_2 t ht =>
    have hfree : ∀ b : Bool, (if b && (s.core t.core).matBusy == some tn then s.modCore t.core fun c => { c with matBusy := none } else s).clk = s.clk := by
      intro b
      split <;> rfl
    exact hfree _

/-- An entry that is let go (R442). -/
def Truss.letGo (t : Truss) (id : Nat) : Truss :=
  let free := fun (es : List QEntry) => es.map fun e => if e.id = id then { e with held := false } else e
  ({ t with copyQ := free t.copyQ, matQ := free t.matQ, netQ := free t.netQ } : Truss).passFences 64

/-- An operation on barriers or rings is applied as the truss now stands (R442). -/
def State.releaseOp (s : State) (c : CRef) (h : Held) (t : Truss) : State :=
  match h.op with
  | .entry id => match t.applyHeld c.course h.op with
    | .ok t' => s.setTruss c.truss (t'.letGo id)
    | .error f => (s.dropEntries c.truss fun e => e.id == id).heldFault c h f
  | op => match t.applyHeld c.course op with
    | .ok t' => s.setTruss c.truss t'
    | .error f => s.heldFault c h f

theorem releaseOp_clk (s : State) (c : CRef) (h : Held) (t : Truss) : (s.releaseOp c h t).clk = s.clk := by
  unfold State.releaseOp
  split
  · split
    · rfl
    · exact dropEntries_clk ..
  · split <;> rfl

/-- An access is let go. -/
def State.releaseAccess (s : State) (id : Nat) : State := { s with accesses := s.accesses.map fun a => if a.id = id then a.release else a }

theorem releaseHeld_access {s : State} {c : CRef} {h : Held} {t : Truss} {id : Nat} (ht : (s.unheld c h).truss? c.truss = some t)
    (hop : h.op = .access id) : s.releaseHeld c h = (s.unheld c h).releaseAccess id := by
  unfold State.releaseHeld
  unfold State.unheld at ht
  dsimp only
  rw [ht]
  dsimp only
  rw [hop]
  rfl

theorem releaseHeld_op {s : State} {c : CRef} {h : Held} {t : Truss} (ht : (s.unheld c h).truss? c.truss = some t) (haccess : ∀ id, h.op ≠ .access id)
    (hprom : ∀ id, h.op ≠ .promise id) (hserv : ∀ die r, h.op ≠ .service die r) : s.releaseHeld c h = (s.unheld c h).releaseOp c h t := by
  unfold State.releaseHeld
  unfold State.unheld at ht
  dsimp only
  rw [ht]
  dsimp only
  unfold State.releaseOp
  cases hop : h.op with
  | access id => exact absurd hop (haccess id)
  | promise id => exact absurd hop (hprom id)
  | service die r => exact absurd hop (hserv die r)
  | _ => rfl

theorem release_eq {s : State} {c : CRef} {k : Course} {h : Held} {hs : List Held} (hk : s.course? c = some k) (hquar : k.quarantine = h :: hs)
    (hres : k.cstate = .resident) (hroll : k.rollbackPend = false) (hwaits : s.releaseWaits c h = false) (hserv : ∀ die r, h.op ≠ .service die r) :
    quarantineStep s c = (s.advanceTo (h.at_ + 1024)).releaseHeld c h := by
  have hgone : k.gone = false := by
    unfold Course.gone
    rw [hres]
    rfl
  unfold quarantineStep
  rw [hk]
  dsimp only
  rw [hquar]
  dsimp only
  rw [hgone, hroll, hwaits]
  split
  case h_1 die r hop => exact absurd hop (hserv die r)
  case h_2 => rfl

theorem accesses_unheld (s : State) (c : CRef) (h : Held) : (s.unheld c h).accesses = s.accesses := rfl
theorem clk_unheld (s : State) (c : CRef) (h : Held) : (s.unheld c h).clk = s.clk := rfl
theorem clk_releaseAccess (s : State) (id : Nat) : (s.releaseAccess id).clk = s.clk := rfl
theorem accesses_of_withoutCores {s t : State} (h : s.withoutCores = t.withoutCores) : s.accesses = t.accesses := by
  have haccesses := congrArg State.accesses h
  exact haccesses

theorem truss?_unheld {s : State} {c : CRef} {t : Truss} (ht : s.truss? c.truss = some t) (h : Held) :
    (s.unheld c h).truss? c.truss = some (t.modCourse c.course fun k => { k with quarantine := k.quarantine.filter (· != h) }) := by
  unfold State.unheld State.modCourse
  rw [truss?_modTruss, if_pos rfl, ht]
  rfl

theorem releaseOp_barinit {s : State} {c : CRef} {h : Held} {t : Truss} {b : Fin 16} (ht : s.truss? c.truss = some t) (hop : h.op = .barinit b)
    (hvalid : t.bars[b].valid = false) : ∃ u, (s.releaseOp c h t).truss? c.truss = some u ∧ u.bars = t.bars.set b ⟨true, 0, 0, 0, false, 0⟩ := by
  have happlied : t.applyHeld c.course (.barinit b) = .ok { t with bars := t.bars.set b ⟨true, 0, 0, 0, false, 0⟩ } := by
    unfold Truss.applyHeld barInit
    exact if_neg (ne_true_of_eq_false hvalid)
  refine ⟨{ t with bars := t.bars.set b ⟨true, 0, 0, 0, false, 0⟩ }, ?_, rfl⟩
  unfold State.releaseOp
  rw [hop]
  dsimp only
  rw [happlied]
  dsimp only
  unfold State.setTruss
  rw [truss?_modTruss, if_pos rfl, ht]
  rfl

theorem release_ok {s : State} {c : CRef} {t : Truss} {k : Course} {h : Held} {hs : List Held} (ht : s.truss? c.truss = some t)
    (hk : s.course? c = some k) (hquar : k.quarantine = h :: hs) (hres : k.cstate = .resident) (hroll : k.rollbackPend = false)
    (hwaits : s.releaseWaits c h = false) (hprom : ∀ id, h.op ≠ .promise id) (hserv : ∀ die r, h.op ≠ .service die r) :
    ∃ s', exec (.quarantineRelease c) s = .next s' ∧ max s.clk (h.at_ + 1024) = s'.clk ∧
      (∀ id, h.op = .access id → s'.accesses = s.accesses.map fun a => if a.id = id then a.release else a) ∧
      (∀ b y, h.op = .barinit b → t.bars[b] = y → y.valid = false →
        ∃ u, s'.truss? c.truss = some u ∧ u.bars = t.bars.set b ⟨true, 0, 0, 0, false, 0⟩) := by
  have hrun : exec (.quarantineRelease c) s = .next ((s.advanceTo (h.at_ + 1024)).releaseHeld c h) :=
    congrArg Host.Outcome.next (release_eq hk hquar hres hroll hwaits hserv)
  have hclk := advanceTo_clk s (h.at_ + 1024)
  have haccesses := accesses_of_withoutCores (advanceTo_withoutCores s (h.at_ + 1024))
  obtain ⟨u, hu, -, -, -, hbars, -⟩ := truss?_advanceTo ht (h.at_ + 1024)
  have hunheld := truss?_unheld hu h
  refine ⟨_, hrun, ?_⟩
  generalize s.advanceTo (h.at_ + 1024) = w at hclk haccesses hunheld ⊢
  cases hop : h.op with
  | access id =>
    rw [releaseHeld_access hunheld hop, clk_releaseAccess, clk_unheld]
    refine ⟨hclk.symm, fun id' hid => ?_, nofun⟩
    cases hid
    unfold State.releaseAccess
    dsimp only
    rw [accesses_unheld, haccesses]
  | promise id => exact absurd hop (hprom id)
  | service die r => exact absurd hop (hserv die r)
  | barinit b =>
    rw [releaseHeld_op hunheld (by rw [hop]; nofun) hprom hserv, releaseOp_clk, clk_unheld]
    refine ⟨hclk.symm, nofun, fun b' y hb hy hvalid => ?_⟩
    cases hb
    rw [← hbars]
    exact releaseOp_barinit hunheld hop (by rw [show ∀ f, (u.modCourse c.course f).bars = u.bars from fun _ => rfl, hbars, hy]; exact hvalid)
  | _ =>
    rw [releaseHeld_op hunheld (by rw [hop]; nofun) hprom hserv, releaseOp_clk, clk_unheld]
    exact ⟨hclk.symm, nofun, nofun⟩

/-- Settles O39: a report, a rollback and a release, each by the course and the core it reaches. -/
theorem strikeAndRollbackSteps : Obligations.StrikeAndRollbackSteps := by
  unfold Obligations.StrikeAndRollbackSteps
  refine ⟨?report, ?guarded, ?rollback, ?release⟩
  case report =>
    intro s core zone hcore
    have hreports := reports_strike (s := s) hcore zone
    exact ⟨_, exec_strikeReport hcore zone, congrArg (·.1) hreports, congrArg (·.2) hreports⟩
  case guarded =>
    intro s core zone t k hcore hzone ht hcourses hplace hguarded hres hrecent hquar
    exact ⟨_, exec_strikeReport hcore zone, strike_guarded hzone ht hcourses hplace hguarded hres hrecent hquar⟩
  case rollback =>
    intro s c t k0 ht hk0 hruns k hres htm hframes hlanes hquad hroll hdebug hrg hquar hops hdepth hdiv
    have hk := course?_setCourse_of hk0 k
    have hgone : k.gone = false := by
      unfold Course.gone
      rw [hres]
      rfl
    have hrun := rollback_eq (atBoundary_ok ht hk0 hruns hres htm hframes hlanes hquad) hk hroll hdebug hrg hquar hops hdepth hdiv hgone
    refine ⟨_, k.toRegion s.clk, congrArg Host.Outcome.next hrun, course?_setCourse_of hk _, rfl, rfl, exited_away _ _, ?_, ?_, rfl, rfl, rfl, rfl, rfl, rfl, rfl⟩
    · exact (List.length_drop ..).trans (Nat.sub_sub_self hdepth)
    · exact (List.length_drop ..).trans (Nat.sub_sub_self hdiv)
  case release =>
    intro s c t k h hs ht hk hquar hres hroll hwaits hprom hserv
    exact release_ok ht hk hquar hres hroll hwaits hprom hserv

end Sys2Proof.Machine
end

section
/-!
PROOFS. Errors of memories, and worn cores and columns (11 R249; 19 R437, R439, R446).
-/
namespace Sys2Proof.Machine

/-! ### Events (R438) -/

/-- An uncorrectable error is counted. -/
def State.ueCounted (s : State) : State := { s with uecnt := s.uecnt + 1 }

theorem ueEvent_noEvents (s : State) (kind unit vd : Nat) (w3 : W64) : (s.ueEvent kind unit vd w3).noEvents = s.ueCounted.noEvents :=
  postEvent_noEvents ..

theorem uecnt_of_noEvents {s t : State} (h : s.noEvents = t.noEvents) : s.uecnt = t.uecnt := by
  have huecnt := congrArg State.uecnt h
  exact huecnt

theorem values_of_noEvents {s t : State} (h : s.noEvents = t.noEvents) : s.values = t.values := by
  have hvalues := congrArg State.values h
  exact hvalues

/-! ### A poisoned word of HBM (R249, R250) -/

theorem tget_tset_insert {α : Type} [DecidableEq α] {d x : α} (h : x ≠ d) (t : Tbl α) (k j : Nat) :
    tget d (tset d t k x) j = if j = k then x else tget d t j := by
  by_cases hj : j = k
  · rw [hj, if_pos rfl, tget_tset_self h]
  rw [if_neg hj]
  induction t with
  | nil => simp [tset, tget, h, hj]
  | cons e t ih =>
    obtain ⟨i, y⟩ := e
    unfold tset
    split
    · next hki =>
      subst hki
      simp [tget, hj]
    · split
      · next hlt =>
        simp only [tget, if_neg hj]
        split
        · next hjk =>
          rw [if_neg (by omega), if_pos (by omega)]
        · rfl
      · simp only [tget]
        split
        · rfl
        · split
          · rfl
          · exact ih

theorem tget_poison (t : Tbl Bool) (ws : List Nat) (w : Nat) :
    tget false (ws.foldl (fun p w => tset false p w true) t) w = (decide (w ∈ ws) || tget false t w) := by
  induction ws generalizing t with
  | nil => rfl
  | cons x ws ih =>
    rw [List.foldl_cons, ih, tget_tset_insert (by decide)]
    by_cases hw : w = x
    · simp [hw]
    · simp [hw]

theorem hbm_ok (s : State) (a : Nat) : ∃ t, exec (.eccUncorrectable (.hbm a)) s = .next t ∧ t.uecnt = s.uecnt + 1 ∧ t.mem = s.mem ∧
    (∀ w, a / 32 * 4 ≤ w → w < a / 32 * 4 + 4 → tget false t.memPsn w = true) ∧
    (∀ w, (w < a / 32 * 4 ∨ a / 32 * 4 + 4 ≤ w) → tget false t.memPsn w = tget false s.memPsn w) := by
  have hevent := ueEvent_noEvents s 4 (stackOf a) noVd (BitVec.ofNat 64 (a / 32 * 32))
  have huecnt := uecnt_of_noEvents hevent
  have hmem : (s.ueEvent 4 (stackOf a) noVd (BitVec.ofNat 64 (a / 32 * 32))).mem = s.mem := by
    have h := congrArg State.mem hevent
    exact h
  have hpsn : (s.ueEvent 4 (stackOf a) noVd (BitVec.ofNat 64 (a / 32 * 32))).memPsn = s.memPsn := by
    have h := congrArg State.memPsn hevent
    exact h
  have hfirst : a / 32 * 32 / 8 = a / 32 * 4 := by omega
  have hword : ∀ w, tget false ((s.ueEvent 4 (stackOf a) noVd (BitVec.ofNat 64 (a / 32 * 32))).poisonWords (a / 32 * 32) 4).memPsn w =
      (decide (w ∈ List.range' (a / 32 * 4) 4) || tget false s.memPsn w) := by
    intro w
    unfold State.poisonWords
    dsimp only
    rw [hpsn, tget_poison, hfirst]
  refine ⟨_, rfl, huecnt, hmem, fun w h1 h2 => (hword w).trans ?_, fun w h => (hword w).trans ?_⟩
  · rw [decide_eq_true (List.mem_range'_1.mpr ⟨h1, h2⟩), Bool.true_or]
  · rw [decide_eq_false (fun hw => ?_), Bool.false_or]
    have := List.mem_range'_1.mp hw
    omega

/-! ### Errors of a core's memories (R437, R446) -/

theorem core_noEvents {s t : State} (h : s.noEvents = t.noEvents) (n : Nat) : s.core n = t.core n := by
  have hcore := congrArg (State.core · n) h
  exact hcore

/-- An error of a core's SRAM counts toward its retirement. -/
def Core.worn (c : Core) (clk : Nat) : Core := { c with ueAt := c.ueAt ++ [clk] }

/-- The model's own count of its free choices goes on. -/
def State.ticked (s : State) : State := { s with tick := s.tick + 1 }

theorem coreError_eq (s : State) (kind core : Nat) : s.coreError kind core =
    ((s.ueEvent kind core noVd (Config.sramWord s.tick)).modCore core
      (Core.worn · s.clk)).ticked := rfl

theorem ueCounted_core (s : State) (n : Nat) : s.ueCounted.core n = s.core n := rfl
theorem ueCounted_trusses (s : State) : s.ueCounted.trusses = s.trusses := rfl
theorem ticked_core (s : State) (n : Nat) : s.ticked.core n = s.core n := rfl

theorem coreError_core (s : State) (kind : Nat) {core : Nat} (hcore : core < 192) :
    ((s.coreError kind core).core core).ueAt = (s.core core).ueAt ++ [s.clk] := by
  have hevent := ueEvent_noEvents s kind core noVd (Config.sramWord s.tick)
  rw [coreError_eq, ticked_core, core_modCore, if_pos ⟨rfl, hcore⟩, core_noEvents hevent, ueCounted_core]
  rfl

theorem coreError_kept (s : State) (kind core : Nat) : (s.coreError kind core).uecnt = s.uecnt + 1 ∧ (s.coreError kind core).trusses = s.trusses := by
  have hevent := ueEvent_noEvents s kind core noVd (Config.sramWord s.tick)
  exact ⟨(show (s.coreError kind core).uecnt = (s.ueEvent kind core noVd (Config.sramWord s.tick)).uecnt from rfl).trans (uecnt_of_noEvents hevent),
    (show (s.coreError kind core).trusses = (s.ueEvent kind core noVd (Config.sramWord s.tick)).trusses from rfl).trans
      ((trusses_noEvents hevent).trans (ueCounted_trusses s))⟩

theorem course?_of_trusses {s t : State} (h : s.trusses = t.trusses) (c : CRef) : s.course? c = t.course? c := by
  unfold State.course?
  rw [h]

theorem register_ok {s : State} {c : CRef} (r w : Nat) {t : Truss} {k : Course} (ht : s.truss? c.truss = some t) (hk : s.course? c = some k)
    (hon : t.onCore = true) (hres : k.cstate = .resident) (hcore : t.core < 192) :
    ∃ s', exec (.eccUncorrectable (.register c r w)) s = .next s' ∧ s'.uecnt = s.uecnt + 1 ∧
      s'.course? c = some { k with psn := k.psn ++ [(r, w)] } ∧ (s'.core t.core).ueAt = (s.core t.core).ueAt ++ [s.clk] := by
  obtain ⟨huecnt, htrusses⟩ := coreError_kept s 0 t.core
  have hrun : uncorrectable s (.register c r w) = (s.coreError 0 t.core).modCourse c fun k => { k with psn := k.psn ++ [(r, w)] } := by
    unfold uncorrectable
    dsimp only
    rw [ht, hk]
    dsimp only
    rw [if_pos (by rw [hon, hres]; decide)]
  refine ⟨_, congrArg Host.Outcome.next hrun, huecnt, ?_, coreError_core s 0 hcore⟩
  rw [course?_modCourse, if_pos rfl, course?_of_trusses htrusses, hk]
  rfl

/-! ### An error in the table entry of a device (R437) -/

theorem killAll_noTrusses {s : State} (h : s.trusses = []) (k : KillScope) (root : Cause) : s.killAll k root = s := by
  have hnone : s.coursesWhere (fun c x => !x.gone && s.covers k c) = [] := by
    unfold State.coursesWhere
    rw [h]
    rfl
  unfold State.killAll
  rw [hnone]
  rfl

theorem drainBegun_dev {s : State} {v : Fin 512} {d : VDev} (hd : s.vdev? v = some d) : (s.drainBegun v).vdev? v = some d.draining.raised := by
  have hdrain : ((s.modVdev v VDev.draining).heldGates v).vdev? v = some d.draining := by
    have hheld : ((s.modVdev v VDev.draining).heldGates v).vdev? v = (s.modVdev v VDev.draining).vdev? v := rfl
    rw [hheld, vdev?_modVdev, if_pos rfl, hd]
    rfl
  unfold State.drainBegun
  rw [vdev?_raiseGen, if_pos rfl, hdrain]
  rfl

theorem trusses_drainBegun (s : State) (v : Fin 512) : (s.drainBegun v).trusses = s.trusses := by
  apply List.ext_getElem?
  exact fun n => truss?_drainBegun s v n

/-- The kill of a device that has no trusses. -/
theorem killDevice_noTrusses {s : State} {v : Fin 512} {d : VDev} (hd : s.vdev? v = some d) (ht : s.trusses = []) (destroy mailbox : Bool) :
    (s.killDevice v destroy mailbox).vdev? v = some d.draining.raised ∧
      ∃ x, (s.killDevice v destroy mailbox).kills = s.kills ++ [x] ∧ x.scope = .device v destroy ∧ x.stage = .drain := by
  obtain ⟨-, x, -, -, -, hkills, hscope, hstage, -⟩ := killDevice_starts destroy mailbox hd
  refine ⟨?_, x, hkills, hscope, hstage⟩
  rw [killDevice_eq]
  unfold State.startKill
  rw [killAll_noTrusses ((trusses_drainBegun s v).trans ht)]
  exact drainBegun_dev hd

theorem uecnt_of_noWork {s t : State} (h : s.noWork = t.noWork) : s.uecnt = t.uecnt := by
  have huecnt := congrArg State.uecnt h
  exact huecnt

theorem uecnt_of_noFlight {s t : State} (h : s.noFlight = t.noFlight) : s.uecnt = t.uecnt := by
  have huecnt := congrArg State.uecnt h
  exact huecnt

theorem killDevice_uecnt (s : State) (v : Fin 512) (destroy mailbox : Bool) : (s.killDevice v destroy mailbox).uecnt = s.uecnt := by
  have hgen := uecnt_of_noFlight (raiseGen_noFlight ((s.modVdev v VDev.draining).heldGates v) v)
  have hdev := uecnt_of_noFlight (modVdev_noFlight s v VDev.draining)
  have hkill := uecnt_of_noWork (killAll_noWork (s.drainBegun v) (.device v destroy) (s.drainBegun v).orderedCause)
  rw [killDevice_eq]
  exact hkill.trans (hgen.trans hdev)

theorem ioWord_kept (s : State) (vd : Nat) : (s.ioWord vd).uecnt = s.uecnt + 1 ∧ (s.ioWord vd).vds = s.vds ∧ (s.ioWord vd).trusses = s.trusses ∧
    (s.ioWord vd).kills = s.kills := by
  have hevent := ueEvent_noEvents s 5 0 vd (Config.sramWord s.tick)
  have hvds := congrArg State.vds hevent
  have htrusses := congrArg State.trusses hevent
  have hkills := congrArg State.kills hevent
  exact ⟨uecnt_of_noEvents hevent, hvds, htrusses, hkills⟩

theorem active_of_vds {s t : State} (h : t.vds = s.vds) (v : Nat) : t.active v = s.active v := by
  unfold State.active
  rw [vdev?_of_vds h]

theorem deviceTable_ok {s : State} {v : Fin 512} {d : VDev} (hd : s.vdev? v = some d) (hact : s.active v = true) (ht : s.trusses = [])
    (hk : s.kills = []) : ∃ s' d' x, exec (.eccUncorrectable (.deviceTable v)) s = .next s' ∧ s'.vdev? v = some d' ∧ d'.mode = 4 ∧
      d'.modeBefore = d.mode ∧ s'.kills = [x] ∧ x.scope = .device v false ∧ x.stage = .drain ∧ s'.uecnt = s.uecnt + 1 := by
  obtain ⟨huecnt, hvds, htrusses, hkills⟩ := ioWord_kept s v
  have hrun : uncorrectable s (.deviceTable v) = (s.ioWord v).killDevice v false false := by
    unfold uncorrectable
    dsimp only
    rw [dif_pos v.isLt, if_pos ((active_of_vds hvds v).trans hact)]
  obtain ⟨hdev, x, hlist, hscope, hstage⟩ := killDevice_noTrusses ((vdev?_of_vds hvds v).trans hd) (htrusses.trans ht) false false
  rw [hkills, hk] at hlist
  exact ⟨_, _, x, congrArg Host.Outcome.next hrun, hdev, rfl, rfl, hlist, hscope, hstage, (killDevice_uecnt ..).trans huecnt⟩

/-! ### Corrected errors (R439) -/

/-- A corrected error is counted. -/
def State.ceCounted (s : State) : State := { s with cecnt := s.cecnt + 1 }

theorem corrected_eq (s : State) (kind unit : Nat) : corrected s kind unit =
    if s.cecthr ≠ 0 ∧ (s.cecnt + 1).toNat % s.cecthr.toNat = 0 then
      s.ceCounted.postEvent 0x20 (unitDie kind unit) noVd 0 (BitVec.ofNat 64 (kind + unit * 2 ^ 8)) (s.cecnt + 1)
    else s.ceCounted := by
  have hdef : corrected s kind unit =
      if s.cecthr ≠ 0 && (s.cecnt + 1).toNat % s.cecthr.toNat = 0 then
        s.ceCounted.postEvent 0x20 (unitDie kind unit) noVd 0 (BitVec.ofNat 64 (kind + unit * 2 ^ 8)) (s.cecnt + 1)
      else s.ceCounted := rfl
  rw [hdef]
  by_cases h : s.cecthr ≠ 0 ∧ (s.cecnt + 1).toNat % s.cecthr.toNat = 0
  · rw [if_pos h, if_pos (by simpa using h)]
  · rw [if_neg h, if_neg (by simpa using h)]

/-! ### Cores taken out of service (R446) -/

/-- The cores and the count of replacement requests. -/
def State.fleet (s : State) : Vector Core 192 × W64 := (s.cores, s.rrcnt)

theorem fleet_of_noEvents {s t : State} (h : s.noEvents = t.noEvents) : s.fleet = t.fleet := by
  have hfleet := congrArg State.fleet h
  exact hfleet

theorem fleet_askReplacement (s : State) (kind unit : Nat) : (s.askReplacement kind unit).fleet = (s.cores, s.rrcnt + 1) :=
  fleet_of_noEvents (postEvent_noEvents ..)

theorem fleet_degradeBy (s : State) (hi lo : Nat) : (s.degradeBy hi lo).fleet = s.fleet := rfl
theorem fleet_moveService (s : State) (core new : Nat) : (s.moveService core new).fleet = s.fleet := rfl

theorem fleet_markGroups (s : State) : s.markGroups.fleet = s.fleet :=
  foldl_keeps (fun (s : State) n => s.modTruss n fun t => { t with evict := t.onCore }) State.fleet (fun _ _ => rfl) _ s

/-- A core is marked as taken out of service. -/
def State.coreGone (s : State) (core : Nat) : State := s.modCore core fun c => { c with retired := true }

/-- The retirement of a core is reported, and its service truss moves. -/
def State.coreReported (s : State) (core : Nat) : State :=
  let s := s.coreGone core
  let s := s.postEvent 0x25 2 noVd 0 (BitVec.ofNat 64 core) (BitVec.ofNat 64 s.inServiceCores)
  let s := (s.askReplacement 7 core).degradeBy 15 8
  if s.hostsService core then
    match s.lastCore (dieOf core) with | some n => s.moveService core n | none => s
  else s

/-- The trusses of a core that devices have on it are to leave. -/
def State.coreEmptied (s : State) (core : Nat) : State :=
  { s with trusses := s.trusses.map fun t => if t.place = .onCore core && !t.kernelMode then { t with evict := true } else t }

theorem retireCore_eq (s : State) (core : Nat) : s.retireCore core = ((s.coreReported core).coreEmptied core).markGroups := rfl

theorem fleet_coreReported (s : State) (core : Nat) : (s.coreReported core).fleet = ((s.coreGone core).cores, s.rrcnt + 1) := by
  have hevent := fleet_of_noEvents (postEvent_noEvents (s.coreGone core) 0x25 2 noVd 0 (BitVec.ofNat 64 core)
    (BitVec.ofNat 64 (s.coreGone core).inServiceCores))
  unfold State.coreReported
  dsimp only
  generalize (s.coreGone core).postEvent 0x25 2 noVd 0 (BitVec.ofNat 64 core) (BitVec.ofNat 64 (s.coreGone core).inServiceCores) = u at hevent ⊢
  have hasked : ((u.askReplacement 7 core).degradeBy 15 8).fleet = ((s.coreGone core).cores, s.rrcnt + 1) := by
    rw [fleet_degradeBy, fleet_askReplacement]
    exact congrArg (fun x : Vector Core 192 × W64 => (x.1, x.2 + 1)) hevent
  split
  · split
    · exact (fleet_moveService ..).trans hasked
    · exact hasked
  · exact hasked

theorem fleet_retireCore (s : State) (core : Nat) : (s.retireCore core).fleet = ((s.coreGone core).cores, s.rrcnt + 1) := by
  rw [retireCore_eq, fleet_markGroups]
  exact fleet_coreReported s core

/-- The trusses that devices have on a core are to leave. -/
def State.Leaves (s : State) (core : Nat) : Prop := ∀ n u, s.truss? n = some u → u.place = .onCore core → u.kernelMode = false → u.evict = true

theorem leaves_coreEmptied (s : State) (core : Nat) : (s.coreEmptied core).Leaves core := by
  intro n u hu hplace hkernel
  have hmap : (s.coreEmptied core).truss? n =
      (s.truss? n).map fun t => if t.place = .onCore core && !t.kernelMode then { t with evict := true } else t := List.getElem?_map
  rw [hmap] at hu
  obtain ⟨t, -, rfl⟩ := Option.map_eq_some_iff.mp hu
  split at hplace
  case isTrue h => rw [if_pos h]
  case isFalse h =>
    rw [if_neg h] at hkernel
    exact absurd (by rw [hplace, hkernel]; simp) h

theorem leaves_markEvict {s : State} {core : Nat} (h : s.Leaves core) (n : Nat) :
    (s.modTruss n fun t => { t with evict := t.onCore }).Leaves core := by
  intro m u hu hplace hkernel
  rw [truss?_modTruss] at hu
  split at hu
  · obtain ⟨t, -, rfl⟩ := Option.map_eq_some_iff.mp hu
    have hon : t.onCore = true := by
      unfold Truss.onCore
      rw [show t.place = .onCore core from hplace]
    exact hon
  · exact h m u hu hplace hkernel

theorem leaves_foldl_markEvict (ns : List Nat) {s : State} {core : Nat} (h : s.Leaves core) :
    (ns.foldl (fun s n => s.modTruss n fun t => { t with evict := t.onCore }) s).Leaves core := by
  induction ns generalizing s with
  | nil => exact h
  | cons n ns ih => exact ih (leaves_markEvict h n)

theorem coreRetire_ok {s : State} {core : Nat} (hcore : core < 192) (hin : (s.core core).retired = false) (hfenced : (s.core core).fenced = 0xF) :
    ∃ s', exec (.coreRetire core) s = .next s' ∧ (s'.core core).retired = true ∧ s'.rrcnt = s.rrcnt + 1 ∧
      (∀ n u, s'.truss? n = some u → u.place = .onCore core → u.kernelMode = false → u.evict = true) ∧
      (∀ n, n < 192 → n ≠ core → s'.core n = s.core n) := by
  have hrun : coreRetireStep s core = s.retireCore core := by
    unfold coreRetireStep
    dsimp only
    rw [if_neg (by rw [hin, hfenced, decide_eq_false (Nat.not_le.mpr hcore)]; simp)]
  have hfleet := fleet_retireCore s core
  have hcores : ∀ n, (s.retireCore core).core n = (s.coreGone core).core n := fun n => core_congr (congrArg (·.1) hfleet) n
  have hleaves : (s.retireCore core).Leaves core := by
    rw [retireCore_eq]
    exact leaves_foldl_markEvict _ (leaves_coreEmptied (s.coreReported core) core)
  refine ⟨_, congrArg Host.Outcome.next hrun, ?_, congrArg (·.2) hfleet, hleaves, fun n hn hne => ?_⟩
  · rw [hcores]
    unfold State.coreGone
    rw [core_modCore, if_pos ⟨rfl, hcore⟩]
  · rw [hcores]
    unfold State.coreGone
    rw [core_modCore, if_neg fun h => hne h.1]

/-! ### Columns folded off for good (R446) -/

/-- What folds and columns there are, with the count of replacement requests. -/
def State.columnState (s : State) : List Fold × BitVec 16 × BitVec 16 × W64 := (s.folds, s.columns, s.columnsGone, s.rrcnt)

theorem columnState_of_noEvents {s t : State} (h : s.noEvents = t.noEvents) : s.columnState = t.columnState := by
  have hcolumns := congrArg State.columnState h
  exact hcolumns

theorem columnState_askReplacement (s : State) (kind unit : Nat) :
    (s.askReplacement kind unit).columnState = (s.folds, s.columns, s.columnsGone, s.rrcnt + 1) := columnState_of_noEvents (postEvent_noEvents ..)

theorem powered_of_columnState {s t : State} (hf : s.folds = t.folds) (hc : s.columns = t.columns) : s.powered = t.powered := by
  unfold State.powered
  rw [hf, hc]

/-- A column's errors are counted from the start again. -/
def State.errorsCleared (s : State) (col : Fin 16) : State := { s with ueCol := tset [] s.ueCol col [] }
/-- A column is off for good. -/
def State.columnLost (s : State) (col : Fin 16) : State := { s with columnsGone := s.columnsGone ||| BitVec.ofNat 16 (2 ^ col.val) }

theorem columnRetireStep_eq (s : State) (col : Fin 16) : columnRetireStep s col =
    if !crowded 64 (tget [] s.ueCol col) || !s.powered.contains col.val then s
    else if ((s.errorsCleared col).askReplacement 7 col.val).powered.length ≤ 4 then (s.errorsCleared col).askReplacement 7 col.val
    else ((((s.errorsCleared col).askReplacement 7 col.val).columnLost col).degradeBy 19 16).beginFold col false false true false := rfl

theorem columnState_lost (s : State) (col : Fin 16) : (((s.columnLost col).degradeBy 19 16).beginFold col false false true false).columnState =
    (s.folds ++ [⟨col, false, false, true, false, none, [], 0⟩], s.columns, s.columnsGone ||| BitVec.ofNat 16 (2 ^ col.val), s.rrcnt) := rfl

theorem columnRetire_ok {s : State} {col : Fin 16} (hcrowded : crowded 64 (tget [] s.ueCol col) = true) (hon : s.powered.contains col.val = true)
    (hfour : 4 < s.powered.length) :
    ∃ s', exec (.columnRetire col) s = .next s' ∧ s'.columnsGone = s.columnsGone ||| BitVec.ofNat 16 (2 ^ col.val) ∧
      s'.folds = s.folds ++ [⟨col, false, false, true, false, none, [], 0⟩] ∧ s'.rrcnt = s.rrcnt + 1 := by
  have hasked := columnState_askReplacement (s.errorsCleared col) 7 col.val
  have hpowered : ((s.errorsCleared col).askReplacement 7 col.val).powered = s.powered :=
    powered_of_columnState (congrArg (·.1) hasked) (congrArg (·.2.1) hasked)
  have hrun := columnRetireStep_eq s col
  rw [if_neg (by rw [hcrowded, hon]; decide), if_neg (by rw [hpowered]; exact Nat.not_le.mpr hfour)] at hrun
  have hlost := columnState_lost ((s.errorsCleared col).askReplacement 7 col.val) col
  generalize (s.errorsCleared col).askReplacement 7 col.val = u at hasked hrun hlost
  have hfolds : u.folds = s.folds := congrArg (·.1) hasked
  have hgone : u.columnsGone = s.columnsGone := congrArg (·.2.2.1) hasked
  have hrrcnt : u.rrcnt = s.rrcnt + 1 := congrArg (·.2.2.2) hasked
  rw [hfolds, hgone, hrrcnt] at hlost
  exact ⟨_, congrArg Host.Outcome.next hrun, congrArg (·.2.2.1) hlost, congrArg (·.1) hlost, congrArg (·.2.2.2) hlost⟩

/-- Settles O40: each event by the part it counts for or takes out of service. -/
theorem healthEventsComplete : Obligations.HealthEventsComplete := by
  unfold Obligations.HealthEventsComplete
  refine ⟨fun s kind unit => congrArg Host.Outcome.next (corrected_eq s kind unit), hbm_ok, ?register, ?table, ?core, ?column⟩
  case register =>
    intro s c r w t k ht hk hon hres hcore
    exact register_ok r w ht hk hon hres hcore
  case table =>
    intro s v d hd hact ht hk
    exact deviceTable_ok hd hact ht hk
  case core =>
    intro s core c hcore hc hin hfenced
    subst hc
    exact coreRetire_ok hcore hin hfenced
  case column =>
    intro s col hcrowded hon hfour
    exact columnRetire_ok hcrowded hon hfour

end Sys2Proof.Machine
end

section
/-!
PROOFS. The matrix engine: the end of an entry while an entry that was withdrawn waits for room (02 R52; 13 R286).
-/
namespace Sys2Proof.Machine

/-- An entry the engine has finished. -/
def finishedEntry : QEntry := { mkEntry 1 0 none 0 (.accz 0 1) false false with full := true }

/-- An entry that a drain withdrew, and that found no room when its course came back. -/
def withdrawnEntry : QEntry := { mkEntry 2 0 none 0 (.accz 0 1) false false with redo := true }

/-- A truss whose matrix queue holds both, on core 0, whose engine has finished the first. -/
def refillState : State :=
  let s := State.reset.placed 0
  ({ s with trusses := (s.trusses.drop 4).map fun t => { t with matQ := [finishedEntry, withdrawnEntry] } } : State).modCore 0 fun c =>
    { c with matBusy := some 0 }

/-- What the statement asks of the state before the step. -/
def refillBefore (s : State) : Bool :=
  (s.core 0).matBusy == some 0 && (s.truss? 0).any fun t => t.matQ == [finishedEntry, withdrawnEntry] && t.head? .mat == some finishedEntry

theorem refillState_before : refillBefore refillState = true := by decide +kernel

/-- The step lets the withdrawn entry in again, as one that is withdrawn no more. -/
theorem refillState_after : (match exec (.matrixEntryComplete 0) refillState with
    | .next s' => (s'.truss? 0).any fun u => u.matQ.any fun x => !x.redo
    | _ => false) = true := by decide +kernel

/-- Refutes O35: an entry that was withdrawn enters the queue again in the step that makes room for it, so the queue holds an entry that it
did not hold before. -/
theorem not_matrixEngineSteps : ¬ Obligations.MatrixEngineSteps := by
  rintro ⟨-, hcomplete, -⟩
  have hbefore := refillState_before
  unfold refillBefore at hbefore
  rw [Bool.and_eq_true, beq_iff_eq] at hbefore
  obtain ⟨hbusy, htruss⟩ := hbefore
  obtain ⟨t, ht, hqueue⟩ := (Option.any_eq_true _ _).mp htruss
  rw [Bool.and_eq_true, beq_iff_eq, beq_iff_eq] at hqueue
  obtain ⟨hmatQ, hhead⟩ := hqueue
  obtain ⟨s', u, hrun, -, hu, hkept, -⟩ := hcomplete refillState 0 0 t finishedEntry (by decide) hbusy ht hhead rfl (fun _ => nofun)
  have hafter := refillState_after
  rw [hrun] at hafter
  dsimp only at hafter
  rw [hu] at hafter
  obtain ⟨x, hx, hredo⟩ := List.any_eq_true.mp hafter
  obtain ⟨hid, hold⟩ := hkept x hx
  rw [hmatQ] at hold
  obtain rfl | hold := List.mem_cons.mp hold
  · exact hid rfl
  · rw [List.mem_singleton.mp hold] at hredo
    cases hredo

end Sys2Proof.Machine
end

section
/-!
PROOFS. What every step keeps: memory in its canonical form, and the I/O die's clock abreast of the cores' (00 R3, R7).
-/
namespace Sys2Proof.Machine

/-- Which of the two is asked for: each is kept without the other. -/
class Asked where
  memory : Prop
  clocks : Prop

variable [Asked]

/-- As far as it is asked for: both memories in their canonical form, and the I/O die's clock not behind the core clock (R3, R7). -/
structure SoundAt (mem hostMem : Mem) (clk ioClk : Nat) : Prop where
  mem : Asked.memory → Memory.wf mem = true
  host : Asked.memory → Memory.wf hostMem = true
  clocks : Asked.clocks → clk * 2 / 3 ≤ ioClk

/-- What every step keeps, read off the four parts of the state that it speaks of: a change of any other part keeps it as it is. -/
abbrev State.Sound (s : State) : Prop := SoundAt s.mem s.hostMem s.clk s.ioClk

/-- It, of the four parts alone: what shows it of a state that agrees in them. -/
theorem State.Sound.parts {s : State} (h : s.Sound) : SoundAt s.mem s.hostMem s.clk s.ioClk := h

/-- The state an outcome goes on in, if it goes on. -/
def Out.Sound : Out → Prop
  | .next s => s.Sound
  | _ => True

/-- The state that a word's effect answers, if it answers one. -/
def Res.Sound : Res → Prop
  | .ok s | .jump s _ | .late s _ _ _ | .wait s => s.Sound
  | .trap .. => True

theorem Out.Sound.of_next {o : Out} (h : o.Sound) {s : State} (e : o = .next s) : s.Sound := by subst e; exact h
theorem Out.sound_fault (f : Fault) : Out.Sound (.fault f) := trivial
theorem Out.sound_refused (r : Refusal) : Out.Sound (.refused r) := trivial

theorem Res.sound_trap (cause detail : Nat) (faddr : W64) : (Res.trap cause detail faddr).Sound := trivial
theorem Res.sound_ok {s : State} (h : s.Sound) : (Res.ok s).Sound := h
theorem Res.sound_jump {s : State} (h : s.Sound) (pc : Addr) : (Res.jump s pc).Sound := h
theorem Res.sound_late {s : State} (h : s.Sound) (cause detail : Nat) (faddr : W64) : (Res.late s cause detail faddr).Sound := h
theorem Res.sound_wait {s : State} (h : s.Sound) : (Res.wait s).Sound := h

theorem foldl_sound {α : Type} {f : State → α → State} (hf : ∀ s x, s.Sound → (f s x).Sound) (xs : List α) {s : State} (h : s.Sound) :
    (xs.foldl f s).Sound := by
  induction xs generalizing s with
  | nil => exact h
  | cons x xs ih => exact ih (hf s x h)

/-- The state of a pair that is known to be sound. -/
theorem sound_of_fst {α : Type} {p : State × α} {s : State} {e : α} (hp : p = (s, e)) (h : p.1.Sound) : s.Sound := by
  subst hp; exact h

/-- The bank of a place in its canonical form. -/
theorem bank_sound {s : State} (h : s.Sound) (host : Bool) (hm : Asked.memory) : Memory.wf (s.bank host).m = true := by
  cases host
  · exact h.mem hm
  · exact h.host hm

end Sys2Proof.Machine
end

section
/-!
PROOFS. What every step keeps: changes of the state's parts, of clocks and of memory.
-/
namespace Sys2Proof.Machine
variable [Asked]

theorem State.modTruss_sound {s : State} (h : s.Sound) (t : Nat) (f : Truss → Truss) : (s.modTruss t f).Sound := h
theorem State.modCourse_sound {s : State} (h : s.Sound) (c : CRef) (f : Course → Course) : (s.modCourse c f).Sound := h
theorem State.modCore_sound {s : State} (h : s.Sound) (n : Nat) (f : Core → Core) : (s.modCore n f).Sound := h
theorem State.invalidateL1_sound {s : State} (h : s.Sound) (core : Nat) : (s.invalidateL1 core).Sound := h
theorem State.l1Drop_sound {s : State} (h : s.Sound) (core a : Nat) : (s.l1Drop core a).Sound := h
theorem State.l1Fill_sound {s : State} (h : s.Sound) (core a : Nat) : (s.l1Fill core a).Sound := h
theorem State.countAtomic_sound {s : State} (h : s.Sound) (pa : Nat) (inHost byHost : Bool) : (s.countAtomic pa inHost byHost).Sound := h
theorem State.noteTurn_sound {s : State} (h : s.Sound) (home core : Nat) : (s.noteTurn home core).Sound := h
theorem Ctx.set_sound {x : Ctx} (h : x.s.Sound) (k : Course) : (x.set k).Sound := h
theorem State.modVdev_sound {s : State} (h : s.Sound) (v : Nat) (f : VDev → VDev) : (s.modVdev v f).Sound := by
  unfold State.modVdev
  split <;> exact h

theorem State.addShare_sound {s : State} (h : s.Sound) (vd m n : Nat) : (s.addShare vd m n).Sound := State.modVdev_sound h ..

theorem State.bumpCounter_sound {s : State} (h : s.Sound) (core k n : Nat) : (s.bumpCounter core k n).Sound := by
  unfold State.bumpCounter
  dsimp only
  (repeat' split) <;> exact h

theorem State.countEvent_sound {s : State} (h : s.Sound) (core evt n : Nat) : (s.countEvent core evt n).Sound :=
  foldl_sound (fun s k h => by dsimp only; split <;> apply_rules [h, State.bumpCounter_sound]) _ h

theorem State.killStep_sound {s : State} (h : s.Sound) (c : CRef) (root : Cause) : (s.killStep c root).Sound := by
  unfold State.killStep
  dsimp only
  (repeat' split) <;> apply_rules [h, State.addShare_sound]

theorem State.killCourse_sound {s : State} (h : s.Sound) (c : CRef) (root : Cause) : (s.killCourse c root).Sound := by
  unfold State.killCourse
  (repeat' split) <;> apply_rules [h, State.killStep_sound]

theorem trapEntry_sound {s : State} (h : s.Sound) (c : CRef) (cause detail : Nat) (faddr : W64) (asy : Bool) :
    (trapEntry s c cause detail faddr asy).Sound := by
  unfold trapEntry
  (repeat' split) <;> apply_rules [h, State.killCourse_sound]

/-- The I/O die's clock moves on with the core clock, to two cycles in three at least. -/
theorem State.advanceTo_sound {s : State} (h : s.Sound) (t : Nat) : (s.advanceTo t).Sound := by
  obtain ⟨hm, hh, -⟩ := h
  refine ⟨?_, ?_, ?_⟩
  · rw [advanceTo_mem]; exact hm
  · rw [advanceTo_hostMem]; exact hh
  · intro _; rw [advanceTo_clk, advanceTo_ioClk]; exact Nat.le_max_right ..

theorem State.finish_sound {s : State} (h : s.Sound) (c : CRef) (i : Instr) (pc : Option Addr) : (s.finish c i pc).Sound := by
  unfold State.finish
  split
  · exact h
  · dsimp only
    split <;> apply_rules [State.countEvent_sound, State.addShare_sound]

theorem Res.settle_sound {s : State} (h : s.Sound) (x : Ctx) (i : Instr) {r : Res} (hr : r.Sound) : (r.settle s x i).Sound := by
  cases r with
  | ok s' => exact State.finish_sound hr ..
  | jump s' pc => exact State.finish_sound hr ..
  | trap cause detail faddr => exact trapEntry_sound h ..
  | late s' cause detail faddr => exact trapEntry_sound hr ..
  | wait s' => exact hr

/-- A word keeps it when its effect does. -/
theorem issue_sound {s : State} (h : s.Sound) {i : Instr} {body : Ctx → Res} (hb : ∀ x : Ctx, x.s.Sound → (body x).Sound) :
    (issue i s body).Sound := by
  unfold issue
  split
  · exact h
  · rename_i x hx
    obtain ⟨hs, -⟩ := ctx_of hx
    have hx : x.s.Sound := hs ▸ h
    (repeat' split) <;> apply_rules [h, hx, trapEntry_sound, State.killCourse_sound, Res.settle_sound, hb]

theorem issueCourse_sound {s : State} (h : s.Sound) (i : Instr) (f : Ctx → Course) : (issueCourse i s f).Sound :=
  issue_sound h fun _ hx => hx

theorem Ctx.exchange_sound {x : Ctx} (h : x.s.Sound) (ex : LaneMask) (c : GReg) (k : Course) : (x.exchange ex c k).Sound := by
  unfold Ctx.exchange
  dsimp only
  split <;> apply_rules [h, Res.sound_trap]

end Sys2Proof.Machine
end

section
/-!
PROOFS. What every step keeps: tokens, counters, barriers, tables, and the steps of a course and its meters.
-/
namespace Sys2Proof.Machine
variable [Asked]

theorem waittEffect_sound {x : Ctx} (h : x.s.Sound) (gd : Guard) (tk : Tok) (n : Nat) : (waittEffect x gd tk n).Sound := by
  unfold waittEffect
  dsimp only
  split
  · exact h
  · split
    · exact h
    · split
      · split <;> exact h
      · refine Res.sound_ok ?_
        have hs := State.modTruss_sound (Ctx.set_sound h { x.k with ops := x.k.ops.filter fun o => !((x.k.covered tk n).map (·.id)).contains o.id })
          x.c.truss fun t => t.observe x.c.course
        (repeat' split)
        · exact State.invalidateL1_sound hs _
        · exact State.invalidateL1_sound (Ctx.set_sound h _) _
        · exact hs
        · exact Ctx.set_sound h _

theorem execWaitt_sound {s : State} (h : s.Sound) (gd : Guard) (tk : Tok) (n : Fin 64) :
    (execWaitt gd tk n s).Sound := issue_sound h fun _ h => waittEffect_sound h ..

theorem execTkst_sound {s : State} (h : s.Sound) (gd : Guard) (tk : Tok) (clr : Bool) (d : GReg) :
    (execTkst gd tk clr d s).Sound := issueCourse_sound h ..

theorem Ctx.trussWord_sound {x : Ctx} (h : x.s.Sound) (op : HeldOp) : (x.trussWord op).Sound := by
  unfold Ctx.trussWord
  (repeat' split) <;> apply_rules [h, Res.sound_trap]

theorem Ctx.once_sound {x : Ctx} (h : x.s.Sound) (gd : Guard) {f : Unit → Res} (hf : (f ()).Sound) : (x.once gd f).Sound := by
  unfold Ctx.once
  split
  · exact hf
  · exact h

theorem execBarinit_sound {s : State} (h : s.Sound) (gd : Guard) (b : Fin 16) : (execBarinit gd b s).Sound :=
  issue_sound h fun _ h => Ctx.once_sound h _ (Ctx.trussWord_sound h _)

theorem execBararv_sound {s : State} (h : s.Sound) (gd : Guard) (b : Fin 16) (a : GReg) : (execBararv gd b a s).Sound :=
  issue_sound h fun _ h => Ctx.once_sound h _ (Ctx.trussWord_sound h _)

theorem execBarxb_sound {s : State} (h : s.Sound) (gd : Guard) (b : Fin 16) (a : GReg) : (execBarxb gd b a s).Sound :=
  issue_sound h fun _ h => Ctx.once_sound h _ (Ctx.trussWord_sound h _)

theorem execBarinv_sound {s : State} (h : s.Sound) (gd : Guard) (b : Fin 16) : (execBarinv gd b s).Sound :=
  issue_sound h fun _ h => Ctx.once_sound h _ (Ctx.trussWord_sound h _)

theorem Ctx.barAcquire_sound (x : Ctx) {s : State} (h : s.Sound) : (x.barAcquire s).Sound := by
  unfold Ctx.barAcquire
  dsimp only
  split <;> exact h

theorem barwaitBlocking_sound {x : Ctx} (h : x.s.Sound) (b : Fin 16) (d : GReg) : (barwaitBlocking x b d).Sound := by
  have hd : ∀ (st : W64) (s : State), s.Sound → (Res.ok (if st = 0 then x.barAcquire s else s)).Sound := fun st s h => by
    refine Res.sound_ok ?_
    split
    · exact Ctx.barAcquire_sound x h
    · exact h
  unfold barwaitBlocking
  dsimp only
  split
  · exact hd _ _ h
  · split
    · exact hd _ _ h
    · exact h

theorem barwaitToken_sound {x : Ctx} (h : x.s.Sound) (b : Fin 16) (d : GReg) (tk : Tok) : (barwaitToken x b d tk).Sound := by
  unfold barwaitToken
  split <;> exact h

theorem execBarwait_sound {s : State} (h : s.Sound) (gd : Guard) (b : Fin 16) (d : GReg) (tk : Option Tok) : (execBarwait gd b d tk s).Sound :=
  issue_sound h fun _ h => by
    split
    · exact Ctx.once_sound h _ (barwaitBlocking_sound h ..)
    · split
      · exact barwaitToken_sound h ..
      · exact h

theorem bartestEffect_sound {x : Ctx} (h : x.s.Sound) (gd : Guard) (b : Fin 16) (d : GReg) : (bartestEffect x gd b d).Sound := by
  refine Res.sound_ok ?_
  split
  · exact Ctx.barAcquire_sound x h
  · exact h

theorem execBartest_sound {s : State} (h : s.Sound) (gd : Guard) (b : Fin 16) (d : GReg) :
    (execBartest gd b d s).Sound := issue_sound h fun _ h => bartestEffect_sound h ..

theorem execGenrd_sound {s : State} (h : s.Sound) (gd : Guard) (d : Reg) : (execGenrd gd d s).Sound := issueCourse_sound h ..

theorem execCntrd_sound {s : State} (h : s.Sound) (gd : Guard) (t : BTy) (d : Reg) (idx : BitVec 8) :
    (execCntrd gd t d idx s).Sound := issue_sound h fun _ h => by
  (repeat' split) <;> apply_rules [h]

theorem execCntctl_sound {s : State} (h : s.Sound) (gd : Guard) (a b : GReg) (k : Fin 8) : (execCntctl gd a b k s).Sound :=
  issue_sound h fun _ h => Ctx.once_sound h _ (by
    dsimp only
    split
    · exact Res.sound_trap ..
    · exact h)

theorem State.makeRoom_sound {s : State} (h : s.Sound) (vd l : Nat) : (s.makeRoom vd l).Sound := by
  unfold State.makeRoom
  dsimp only
  (repeat' split) <;> apply_rules [h, State.addShare_sound]

theorem State.handOver_sound {s : State} (h : s.Sound) (vd l : Nat) : (s.handOver vd l).Sound := by
  unfold State.handOver
  dsimp only
  (repeat' split) <;> apply_rules [h, State.makeRoom_sound]

theorem State.handOvers_sound {s : State} (h : s.Sound) (vd : Nat) (ls : List Nat) :
    (s.handOvers vd ls).Sound := foldl_sound (fun _ _ h => State.handOver_sound h ..) _ h

theorem State.touchLine_sound {s : State} (h : s.Sound) (vd a : Nat) (write : Bool) : (s.touchLine vd a write).Sound := by
  unfold State.touchLine
  dsimp only
  split <;> apply_rules [h, State.handOver_sound, State.makeRoom_sound, State.addShare_sound]

theorem State.touchRange_sound {s : State} (h : s.Sound) (vd a n : Nat) (write : Bool) :
    (s.touchRange vd a n write).Sound := foldl_sound (fun _ _ h => State.touchLine_sound h ..) _ h

/-- A write at a home puts bytes in their form into one memory (R236). -/
theorem State.putBank_sound {s : State} (h : s.Sound) (vd : Nat) (host : Bool) (pa n : Nat) {b : Bank} (hb : Asked.memory → Memory.wf b.m = true) :
    (s.putBank vd host pa n b).Sound := by
  cases host
  · have ht := State.touchRange_sound h vd pa n true
    exact ⟨hb, ht.host, ht.clocks⟩
  · exact ⟨h.mem, hb, h.clocks⟩

theorem State.markLeaf_sound {s : State} (h : s.Sound) (vd mask : Nat) (l : Leaf) : (s.markLeaf vd mask l).Sound := by
  unfold State.markLeaf
  split
  · exact ⟨h.mem, fun hm => mset_wf (h.host hm) .., h.clocks⟩
  · have ht := State.touchLine_sound h vd l.addr (mget (markEntry s.mem l.addr mask) l.addr != mget s.mem l.addr)
    exact ⟨fun hm => mset_wf (h.mem hm) .., ht.host, ht.clocks⟩

theorem State.markWalk_sound {s : State} (h : s.Sound) (vd : Nat) (w : Walked) (want : Want) : (s.markWalk vd w want).Sound :=
  foldl_sound (fun _ _ h => State.markLeaf_sound h ..) _ (foldl_sound (fun _ _ h => State.markLeaf_sound h ..) _ h)

theorem State.readTables_sound {s : State} (h : s.Sound) (space va : Nat) :
    (s.readTables space va).Sound := foldl_sound (fun _ _ h => State.touchLine_sound h ..) _ h

theorem State.translate_sound {s : State} (h : s.Sound) (core : Option Nat) (space va : Nat) (want : Want) :
    (s.translate core space va want).1.Sound := by
  unfold State.translate
  dsimp only
  (repeat' split) <;> apply_rules [h, State.readTables_sound, State.markWalk_sound, State.countEvent_sound]

theorem State.raiseGen_sound {s : State} (h : s.Sound) (vd : Nat) : (s.raiseGen vd).Sound := by
  unfold State.raiseGen
  (repeat' split) <;> apply_rules [h, State.modVdev_sound]

theorem State.dropIcache_sound {s : State} (h : s.Sound) (core : Nat) (p : ICell → Bool) : (s.dropIcache core p).Sound := by
  unfold State.dropIcache
  dsimp only
  split <;> apply_rules [h]

theorem State.pfWrite_sound {s : State} (h : s.Sound) (addr : Nat) (data : List Byte) : (s.pfWrite addr data).Sound := by
  unfold State.pfWrite
  split <;> exact h

theorem State.hostTrained_sound {s : State} (h : s.Sound) : s.hostTrained.Sound := by
  unfold State.hostTrained
  apply foldl_sound (f := fun (s : State) (x : Nat × List Byte) => s.pfPut x.1 x.2)
  · exact fun _ _ h => h.parts
  · exact h.parts

theorem State.flushEvents_sound {s : State} (h : s.Sound) (n : Nat) : (s.flushEvents n).Sound := by
  induction n generalizing s with
  | zero => exact h
  | succ n ih =>
    unfold State.flushEvents
    split
    · split
      · apply ih
        apply State.pfWrite_sound
        exact h.parts
      · exact h
    · exact h

theorem State.postEvent_sound {s : State} (h : s.Sound) (kind die vdid extra : Nat) (w2 w3 : W64) :
    (s.postEvent kind die vdid extra w2 w3).Sound := by
  apply State.flushEvents_sound
  exact h.parts

theorem State.noteFault_sound {s : State} (h : s.Sound) (ag : Agent) (space : Nat) (stage2 paging : Bool) (addr detail : Nat) :
    (s.noteFault ag space stage2 paging addr detail).Sound := by
  unfold State.noteFault
  split <;> exact h

theorem State.poisonedEntry_sound {s : State} (h : s.Sound) (ag : Agent) (space a : Nat) :
    (s.poisonedEntry ag space a).Sound := State.postEvent_sound h ..

theorem State.reach_sound {s : State} (h : s.Sound) (ag : Agent) (space va : Nat) (want : Want) : (s.reach ag space va want).1.Sound := by
  unfold State.reach
  (repeat' split) <;> apply_rules [h, State.translate_sound, State.noteFault_sound, State.poisonedEntry_sound, sound_of_fst]

theorem State.reachIf_sound {s : State} (h : s.Sound) (live : Bool) (ag : Agent) (space va : Nat) (want : Want) :
    (s.reachIf live ag space va want).1.Sound := by
  unfold State.reachIf
  (repeat' split) <;> apply_rules [h, State.reach_sound, State.translate_sound, State.poisonedEntry_sound, sound_of_fst]

theorem tokenFall_sound {s : State} (h : s.Sound) (c : CRef) (tk : Tok) : (tokenFall s c tk).Sound := by
  unfold tokenFall
  (repeat' split) <;> apply_rules [h, State.killCourse_sound]

theorem execTokenCompletion_sound {s : State} (h : s.Sound) (c : CRef) (tk : Tok) : (execTokenCompletion c tk s).Sound := tokenFall_sound h ..

theorem endHold_sound {s : State} (h : s.Sound) (c : CRef) (sel : Hold → Option Nat) : (endHold s c sel).Sound := by
  unfold endHold
  (repeat' split) <;> apply_rules [h, State.advanceTo_sound]

theorem execDlyExpiry_sound {s : State} (h : s.Sound) (c : CRef) : (execDlyExpiry c s).Sound := endHold_sound h ..

theorem execYieldExpiry_sound {s : State} (h : s.Sound) (c : CRef) : (execYieldExpiry c s).Sound := endHold_sound h ..

theorem execRegionGuardWaitExpiry_sound {s : State} (h : s.Sound) (c : CRef) : (execRegionGuardWaitExpiry c s).Sound := endHold_sound h ..

theorem execDebugRequest_sound {s : State} (h : s.Sound) (c : CRef) : (execDebugRequest c s).Sound := by
  unfold execDebugRequest
  (repeat' split) <;> apply_rules [h]

theorem execEventCounterOverflow_sound {s : State} (h : s.Sound) (core : Nat) (k : Fin 8) (n : Nat) :
    (execEventCounterOverflow core k n s).Sound := by
  unfold execEventCounterOverflow
  dsimp only
  (repeat' split) <;> apply_rules [h, State.advanceTo_sound]

theorem execMeterAccumulate_sound {s : State} (h : s.Sound) (vd : Fin 512) : (execMeterAccumulate vd s).Sound := State.modVdev_sound h ..

end Sys2Proof.Machine
end

section
/-!
PROOFS. What every step keeps: layouts, bytes of elements, and one step of an access at its home (11 R234 to R247).
-/
namespace Sys2Proof.Machine
variable [Asked]

theorem lysetEffect_sound {x : Ctx} (h : x.s.Sound) (n : Fin 256) (op : LyOp) (a : GReg) : (lysetEffect x n op a).Sound := by
  unfold lysetEffect
  dsimp only
  (repeat' split) <;> apply_rules [h, Res.sound_trap]

theorem execLyset_sound {s : State} (h : s.Sound) (gd : Guard) (n : Fin 256) (op : LyOp) (a : GReg) :
    (execLyset gd n op a s).Sound := issue_sound h fun _ h => Ctx.once_sound h _ (lysetEffect_sound h ..)

theorem execLyget_sound {s : State} (h : s.Sound) (gd : Guard) (d : GReg) (n : Fin 256) (sel : LySel) :
    (execLyget gd d n sel s).Sound := issueCourse_sound h ..

theorem tplsetEffect_sound {x : Ctx} (h : x.s.Sound) (n : Fin 64) (op : TplOp) (a : GReg) : (tplsetEffect x n op a).Sound := by
  unfold tplsetEffect
  dsimp only
  (repeat' split) <;> apply_rules [h, Res.sound_trap]

theorem execTplset_sound {s : State} (h : s.Sound) (gd : Guard) (n : Fin 64) (op : TplOp) (a : GReg) :
    (execTplset gd n op a s).Sound := issue_sound h fun _ h => Ctx.once_sound h _ (tplsetEffect_sound h ..)

theorem execTplget_sound {s : State} (h : s.Sound) (gd : Guard) (d : GReg) (n : Fin 64) (sel : TplSel) :
    (execTplget gd d n sel s).Sound := issueCourse_sound h ..

theorem tlbinvEffect_sound {x : Ctx} (h : x.s.Sound) (m : TlbMode) (sc : TlbScope) : (tlbinvEffect x m sc).Sound := by
  unfold tlbinvEffect
  dsimp only
  (repeat' split) <;> apply_rules [h, Res.sound_trap]

theorem execTlbinv_sound {s : State} (h : s.Sound) (gd : Guard) (m : TlbMode) (sc : TlbScope) :
    (execTlbinv gd m sc s).Sound := issue_sound h fun _ h => Ctx.once_sound h _ (tlbinvEffect_sound h ..)

theorem execFgset_sound {s : State} (h : s.Sound) (gd : Guard) (opn : Bool) (a : GReg) : (execFgset gd opn a s).Sound := issue_sound h fun _ h => by
  refine Ctx.once_sound h _ ?_
  dsimp only
  (repeat' split) <;> apply_rules [h]

theorem hdlsetEffect_sound {x : Ctx} (h : x.s.Sound) (a b : GReg) : (hdlsetEffect x a b).Sound := by
  unfold hdlsetEffect
  dsimp only
  (repeat' split) <;> apply_rules [h, Res.sound_trap]

theorem execHdlset_sound {s : State} (h : s.Sound) (gd : Guard) (a b : GReg) :
    (execHdlset gd a b s).Sound := issue_sound h fun _ h => Ctx.once_sound h _ (hdlsetEffect_sound h ..)

theorem State.l1Patch_sound {s : State} (h : s.Sound) (core a : Nat) (p : Part) : (s.l1Patch core a p).Sound := by
  unfold State.l1Patch
  split <;> exact h

theorem State.showRelease_sound {s : State} (h : s.Sound) (a : Access) (space pa size : Nat) : (s.showRelease a space pa size).Sound := by
  unfold State.showRelease
  split <;> exact h

theorem State.noteRelease_sound {s : State} (h : s.Sound) (a : Access) (space pa size : Nat) : (s.noteRelease a space pa size).Sound := by
  unfold State.noteRelease
  apply_rules [h, State.showRelease_sound]

theorem State.settle_sound {s : State} (h : s.Sound) (a : Access) : (s.settle a).Sound := by
  unfold State.settle
  dsimp only
  (repeat' split) <;> apply_rules [h]

theorem State.setPart_sound {s : State} (h : s.Sound) (a : Access) (i : Nat) (p : Part) : (s.setPart a i p).Sound := State.settle_sound h ..

theorem State.translatePart_sound {s : State} (h : s.Sound) (a : Access) (i : Nat) (p : Part) (t : Truss) (k : Course) :
    (s.translatePart a i p t k).Sound := by
  unfold State.translatePart
  dsimp only
  (repeat' split) <;> apply_rules [h, State.translate_sound, State.setPart_sound, State.poisonedEntry_sound, State.reachIf_sound, sound_of_fst]

/-- The host's memory takes what the host's atomic left in its bank (R247). -/
theorem State.askHost_sound {s : State} (h : s.Sound) (op : AOp) (pa : Nat) (p : Part) {b : Bank} (hb : Asked.memory → Memory.wf b.m = true) :
    (s.askHost op pa p b).Sound := ⟨h.mem, hb, h.clocks⟩

theorem State.readPart_sound {s : State} (h : s.Sound) (a : Access) (t : Truss) (p : Part) (pa : Nat) (host : Bool) (srv : Serve) :
    (s.readPart a t p pa host srv).1.Sound := by
  unfold State.readPart
  dsimp only
  (repeat' split) <;> apply_rules [h, State.countEvent_sound, State.touchRange_sound]

theorem State.cleanPart_sound {s : State} (h : s.Sound) (a : Access) (i : Nat) (p : Part) (pa : Nat) (host inv : Bool) (vd : Nat) :
    (s.cleanPart a i p pa host inv vd).Sound := by
  unfold State.cleanPart
  apply_rules [h, State.addShare_sound, State.setPart_sound]

theorem State.performGlobal_sound {s : State} (h : s.Sound) (a : Access) (i : Nat) (t : Truss) (p : Part) (pa : Nat) (host : Bool) (srv : Serve) :
    (s.performGlobal a i t p pa host srv).Sound := by
  have hr := State.readPart_sound h a t p pa host srv
  unfold State.performGlobal
  dsimp only
  split
  · exact State.setPart_sound hr ..
  · exact State.setPart_sound hr ..
  · split
    · split
      · exact h
      · exact State.setPart_sound (State.showRelease_sound (State.l1Patch_sound h ..) ..) ..
    · have hw := State.noteRelease_sound (State.putBank_sound h t.space host pa p.size (fun hm => bank_store_wf (bank_sound h host hm) p pa false))
        a host.toNat pa p.size
      split <;> apply_rules [hw, State.setPart_sound, State.l1Patch_sound]
  · have hb := fun hm => bank_atomic_wf (bank_sound h host hm) ‹_› p pa
    (repeat' split) <;> apply_rules [h, hb, State.setPart_sound, State.noteRelease_sound, State.askHost_sound, State.putBank_sound]
  · (repeat' split) <;> apply_rules [h, State.setPart_sound, State.touchLine_sound, State.l1Fill_sound]
  · exact State.cleanPart_sound h ..

theorem State.landPart_sound {s : State} (h : s.Sound) (a : Access) (i : Nat) (p : Part) (bar : Option (Fin 16)) :
    (s.landPart a i p bar).Sound := by
  unfold State.landPart
  apply_rules [h, State.setPart_sound]

theorem State.performScratch_sound {s : State} (h : s.Sound) (a : Access) (i : Nat) (t : Truss) (p : Part) : (s.performScratch a i t p).Sound := by
  unfold State.performScratch
  dsimp only
  (repeat' split) <;> apply_rules [h, State.setPart_sound, State.noteRelease_sound]

theorem State.showAgain_sound {s : State} (h : s.Sound) (core acc i : Nat) : (s.showAgain core acc i).Sound := by
  unfold State.showAgain
  (repeat' split) <;> apply_rules [h, State.l1Patch_sound]

theorem State.homeStep_sound {s : State} (h : s.Sound) (acc i : Nat) (srv : Serve) : (s.homeStep acc i srv).Sound := by
  unfold State.homeStep
  (repeat' split) <;>
    apply_rules [h, State.translatePart_sound, State.showAgain_sound, State.countEvent_sound, State.setPart_sound,
      State.performScratch_sound, State.landPart_sound, State.performGlobal_sound, State.settle_sound]

end Sys2Proof.Machine
end

section
/-!
PROOFS. What every step keeps: memory words, fences, promises, and the reads and writes of engines.
-/
namespace Sys2Proof.Machine
variable [Asked]

/-! ### Faults of addresses: each is a trap -/

theorem laneFault_sound {lanes : List Nat} {bad : Nat → Bool} {cause : Nat} {detail addr : Nat → Nat} {f : Res}
    (hf : laneFault lanes bad cause detail addr = some f) : f.Sound := by
  unfold laneFault at hf
  obtain ⟨l, -, rfl⟩ := Option.map_eq_some_iff.1 hf
  trivial

theorem orElse_sound {a : Option Res} {b : Unit → Option Res} (ha : ∀ f, a = some f → f.Sound) (hb : ∀ f, b () = some f → f.Sound)
    {f : Res} (hf : orElse a b = some f) : f.Sound := by
  cases a with
  | none => exact hb f hf
  | some g => exact ha f hf

theorem globalFault_sound {lanes : List Nat} {n : Nat} {ea : Nat → Nat} {f : Res} (hf : globalFault lanes n ea = some f) : f.Sound :=
  orElse_sound (fun _ => laneFault_sound) (fun _ => laneFault_sound) hf

theorem scratchFault_sound {t : Truss} {ssc : Bool} {lanes : List Nat} {n : Nat} {ea : Nat → Nat} {f : Res}
    (hf : scratchFault t ssc lanes n ea = some f) : f.Sound := by
  unfold scratchFault at hf
  exact orElse_sound (fun _ => laneFault_sound) (fun _ => orElse_sound (fun _ => laneFault_sound) fun _ => laneFault_sound) hf

theorem spaceFault_sound {x : Ctx} {scr ssc : Bool} {ex : LaneMask} {n : Nat} {ea : Nat → Nat} {f : Res}
    (hf : x.spaceFault scr ssc ex n ea = some f) : f.Sound := by
  unfold Ctx.spaceFault at hf
  split at hf
  · exact scratchFault_sound hf
  · exact globalFault_sound hf

theorem rangeFault_sound {base len : Nat} {f : Res} (hf : rangeFault base len = some f) : f.Sound := by
  unfold rangeFault at hf
  split at hf
  · cases hf; trivial
  · cases hf

/-! ### Accesses, fences and code words -/

theorem Ctx.send_sound {x : Ctx} (h : x.s.Sound) (m : Sent) : (x.send m).Sound := by
  unfold Ctx.send
  split
  · exact h
  · extract_lets id op held parts a k1 k2 s1 s2 s3 own
    have h2 : s2.Sound := h.parts
    have h3 : s3.Sound := by
      unfold s3
      split
      · exact h2
      · exact State.settle_sound h2 _
    refine Res.sound_ok ?_
    split
    · exact foldl_sound (fun _ _ h => State.homeStep_sound h ..) _ h3
    · exact h3

theorem loadEffect_sound {x : Ctx} (h : x.s.Sound) (gd : Guard) (tk : Tok) (d : VReg) (m : MemOpnd) (z : Sz) (sem : LdSem) (scr ssc : Bool) :
    (loadEffect x gd tk d m z sem scr ssc).Sound := by
  unfold loadEffect
  dsimp only
  split
  · exact spaceFault_sound ‹_›
  · exact Ctx.send_sound h _

theorem storeEffect_sound {x : Ctx} (h : x.s.Sound) (gd : Guard) (tk : Option Tok) (d : VReg) (m : MemOpnd) (z : Sz) (sem : StSem)
    (scr ssc : Bool) : (storeEffect x gd tk d m z sem scr ssc).Sound := by
  unfold storeEffect
  dsimp only
  split
  · exact spaceFault_sound ‹_›
  · exact Ctx.send_sound h _

theorem execLd_sound {s : State} (h : s.Sound) (gd : Guard) (tk : Tok) (d : VReg) (m : MemOpnd) (z : Sz) (sem : LdSem) :
    (execLd gd tk d m z sem s).Sound := issue_sound h fun _ h => loadEffect_sound h ..

theorem execSt_sound {s : State} (h : s.Sound) (gd : Guard) (tk : Option Tok) (d : VReg) (m : MemOpnd) (z : Sz) (sem : StSem) :
    (execSt gd tk d m z sem s).Sound := issue_sound h fun _ h => storeEffect_sound h ..

theorem execLds_sound {s : State} (h : s.Sound) (gd : Guard) (tk : Tok) (d : VReg) (m : MemOpnd) (z : Sz) (sem : LdSem) (ssc : Bool) :
    (execLds gd tk d m z sem ssc s).Sound := issue_sound h fun _ h => loadEffect_sound h ..

theorem execSts_sound {s : State} (h : s.Sound) (gd : Guard) (tk : Option Tok) (d : VReg) (m : MemOpnd) (z : Sz) (sem : StSem) (ssc : Bool) :
    (execSts gd tk d m z sem ssc s).Sound := issue_sound h fun _ h => storeEffect_sound h ..

theorem ldcEffect_sound {x : Ctx} (h : x.s.Sound) (gd : Guard) (tk : Tok) (d gb : GReg) (off : BitVec 13) (z : LdcSz) :
    (ldcEffect x gd tk d gb off z).Sound := by
  unfold ldcEffect
  dsimp only
  split
  · exact globalFault_sound ‹_›
  · exact Ctx.send_sound h _

theorem execLdc_sound {s : State} (h : s.Sound) (gd : Guard) (tk : Tok) (d gb : GReg) (off : BitVec 13) (z : LdcSz) :
    (execLdc gd tk d gb off z s).Sound := issue_sound h fun _ h => ldcEffect_sound h ..

theorem execPrf_sound {s : State} (h : s.Sound) (gd : Guard) (lv : PrfLevel) (m : MemOpnd) :
    (execPrf gd lv m s).Sound := issue_sound h fun _ h => Ctx.send_sound h ..

theorem acpEffect_sound {x : Ctx} (h : x.s.Sound) (gd : Guard) (tk : Option Tok) (d : VReg) (m : MemOpnd) (z : ASz)
    (bar : Option (Fin 16)) : (acpEffect x gd tk d m z bar).Sound := by
  unfold acpEffect
  dsimp only
  split
  · next hf =>
    exact orElse_sound (fun _ => globalFault_sound) (fun _ => orElse_sound (fun _ => laneFault_sound) fun _ => laneFault_sound) hf
  · exact Ctx.send_sound h _

theorem execAcp_sound {s : State} (h : s.Sound) (gd : Guard) (tk : Option Tok) (d : VReg) (m : MemOpnd) (z : ASz) (bar : Option (Fin 16)) :
    (execAcp gd tk d m z bar s).Sound := issue_sound h fun _ h => acpEffect_sound h ..

theorem atomicEffect_sound {x : Ctx} (h : x.s.Sound) (gd : Guard) (tk : Option Tok) (d : Option VReg) (m : AtOpnd) (va : VReg) (op : AOp)
    (z : ASz) (sem : AtSem) (scr ssc : Bool) : (atomicEffect x gd tk d m va op z sem scr ssc).Sound := by
  unfold atomicEffect
  dsimp only
  split
  · exact spaceFault_sound ‹_›
  · exact Ctx.send_sound h _

theorem execAtom_sound {s : State} (h : s.Sound) (gd : Guard) (tk : Tok) (d : VReg) (m : AtOpnd) (va : VReg) (op : AOp) (z : ASz) (sem : AtSem) :
    (execAtom gd tk d m va op z sem s).Sound := issue_sound h fun _ h => atomicEffect_sound h ..

theorem execRed_sound {s : State} (h : s.Sound) (gd : Guard) (tk : Option Tok) (m : AtOpnd) (va : VReg) (op : AOp) (z : ASz) (sem : AtSem) :
    (execRed gd tk m va op z sem s).Sound := issue_sound h fun _ h => atomicEffect_sound h ..

theorem execAtoms_sound {s : State} (h : s.Sound) (gd : Guard) (tk : Tok) (d : VReg) (m : AtOpnd) (va : VReg) (op : AOp) (z : ASz) (sem : AtSem) (ssc : Bool) :
    (execAtoms gd tk d m va op z sem ssc s).Sound := issue_sound h fun _ h => atomicEffect_sound h ..

theorem fenceEffect_sound {x : Ctx} (h : x.s.Sound) (k : FenceSem) (sc : Scope) : (fenceEffect x k sc).Sound := by
  have ht : ∀ (f : Truss → Truss) (s : State), s.Sound → (if sc = .crs then s else s.modTruss x.c.truss f).Sound := fun f s h => by
    split <;> exact h
  have hp : (if k = .acq then x.s else if sc = .crs then x.s else x.s.modTruss x.c.truss fun t => t.publish x.c.course).Sound := by
    split
    · exact h
    · exact ht _ _ h
  unfold fenceEffect
  dsimp only
  split
  · exact hp
  · refine Res.sound_ok ?_
    split
    · exact ht _ _ hp
    · exact State.invalidateL1_sound (ht _ _ hp) _

theorem execFence_sound {s : State} (h : s.Sound) (gd : Guard) (k : FenceSem) (sc : Scope) :
    (execFence gd k sc s).Sound := issue_sound h fun _ h => Ctx.once_sound h _ (fenceEffect_sound h ..)

theorem iflushEffect_sound {x : Ctx} (h : x.s.Sound) (gb gl : GReg) : (iflushEffect x gb gl).Sound := by
  unfold iflushEffect
  dsimp only
  split
  · exact rangeFault_sound ‹_›
  · exact State.dropIcache_sound h ..

theorem execIflush_sound {s : State} (h : s.Sound) (gd : Guard) (gb gl : GReg) :
    (execIflush gd gb gl s).Sound := issue_sound h fun _ h => Ctx.once_sound h _ (iflushEffect_sound h ..)

theorem execIsync_sound {s : State} (h : s.Sound) (gd : Guard) : (execIsync gd s).Sound := issueCourse_sound h ..

theorem cwbEffect_sound {x : Ctx} (h : x.s.Sound) (tk : Tok) (gb gl : GReg) (inv : Bool) : (cwbEffect x tk gb gl inv).Sound := by
  unfold cwbEffect
  dsimp only
  split
  · exact rangeFault_sound ‹_›
  · split
    · exact h
    · exact Ctx.send_sound h _

theorem execCwb_sound {s : State} (h : s.Sound) (gd : Guard) (tk : Tok) (gb gl : GReg) (inv : Bool) :
    (execCwb gd tk gb gl inv s).Sound := issue_sound h fun _ h => by
  split <;> apply_rules [h, cwbEffect_sound]

theorem layEffect_sound {x : Ctx} (h : x.s.Sound) (gd : Guard) (tk : Option Tok) (d : VReg) (o : LayOpnd) (store : Bool) :
    (layEffect x gd tk d o store).Sound := by
  unfold layEffect
  dsimp only
  (repeat' split) <;> apply_rules [h, Ctx.send_sound, Res.sound_trap]

theorem execLdl_sound {s : State} (h : s.Sound) (gd : Guard) (tk : Tok) (d : VReg) (o : LayOpnd) :
    (execLdl gd tk d o s).Sound := issue_sound h fun _ h => layEffect_sound h ..

theorem execStl_sound {s : State} (h : s.Sound) (gd : Guard) (tk : Option Tok) (d : VReg) (o : LayOpnd) :
    (execStl gd tk d o s).Sound := issue_sound h fun _ h => layEffect_sound h ..

theorem State.interrupt_sound {s : State} (h : s.Sound) (e : Nat) : (s.interrupt e).Sound := by
  unfold State.interrupt
  dsimp only
  (repeat' split) <;> apply_rules [h]

/-- A block that is kept goes into memory in one piece (R352). -/
theorem State.putQcb_sound {s : State} (h : s.Sound) (blk : Nat) (b : Qcb) : (s.putQcb blk b).Sound := by
  refine ⟨?_, h.host, h.clocks⟩
  unfold State.putQcb
  dsimp only
  split
  · exact h.mem
  · exact fun hm => spliceBytes_wf (h.mem hm) ..

theorem State.modQcb_sound {s : State} (h : s.Sound) (blk : Nat) (f : Qcb → Qcb) : (s.modQcb blk f).Sound := by
  unfold State.modQcb
  split <;> apply_rules [h, State.putQcb_sound]

theorem State.haltQueue_sound {s : State} (h : s.Sound) (blk : Nat) (err : BitVec 8) (seq : W32) : (s.haltQueue blk err seq).Sound := by
  unfold State.haltQueue
  (repeat' split) <;> apply_rules [h, State.modQcb_sound, State.interrupt_sound]

theorem State.endQueueProm_sound {s : State} (h : s.Sound) (blk id : Nat) (op : POp) (e : PromEnd) : (s.endQueueProm blk id op e).Sound := by
  unfold State.endQueueProm
  (repeat' split) <;> apply_rules [h, State.modQcb_sound, State.haltQueue_sound]

theorem State.acquire_sound {s : State} (h : s.Sound) (c : CRef) (sc : Option Scope) : (s.acquire c sc).Sound := by
  unfold State.acquire
  dsimp only
  (repeat' split) <;> apply_rules [h]

theorem State.promEnd_sound {s : State} (h : s.Sound) (p : PromOp) (e : PromEnd) : (s.promEnd p e).Sound := by
  unfold State.promEnd
  (repeat' split) <;> apply_rules [h, State.endQueueProm_sound, State.acquire_sound]

theorem State.wakeClass_sound {s : State} (h : s.Sound) (r : Nat) : (s.wakeClass r).Sound := by
  unfold State.wakeClass
  split
  · exact h
  · exact foldl_sound (fun _ _ h => State.promEnd_sound h ..) _ h

theorem State.promFault_sound {s : State} (h : s.Sound) (p : PromOp) (reason : Nat) : (s.promFault p reason).Sound := State.promEnd_sound h ..

theorem State.pinitEffect_sound {s : State} (h : s.Sound) (p : PromOp) (c : Nat) (free : Bool) : (s.pinitEffect p c free).Sound := by
  unfold State.pinitEffect
  dsimp only
  (repeat' split) <;> apply_rules [h, State.promEnd_sound, State.promFault_sound]

theorem State.pfillEffect_sound {s : State} (h : s.Sound) (p : PromOp) (c : Nat) (x : W64) : (s.pfillEffect p c x).Sound := by
  unfold State.pfillEffect
  (repeat' split) <;> apply_rules [h, State.promFault_sound, State.promEnd_sound, State.wakeClass_sound]

theorem State.pwaitEffect_sound {s : State} (h : s.Sound) (p : PromOp) (c : Nat) : (s.pwaitEffect p c).Sound := by
  unfold State.pwaitEffect
  (repeat' split) <;> apply_rules [h, State.promFault_sound, State.promEnd_sound]

theorem State.pequEffect_sound {s : State} (h : s.Sound) (p : PromOp) (a b : Nat) : (s.pequEffect p a b).Sound := by
  unfold State.pequEffect
  (repeat' split) <;> apply_rules [h, State.promEnd_sound, State.promFault_sound, State.wakeClass_sound]

theorem State.ptestEffect_sound {s : State} (h : s.Sound) (p : PromOp) (c : Nat) : (s.ptestEffect p c).Sound := by
  unfold State.ptestEffect
  split <;> apply_rules [h, State.promEnd_sound]

theorem State.promEffect_sound {s : State} (h : s.Sound) (p : PromOp) (a b : Nat) : (s.promEffect p a b).Sound := by
  unfold State.promEffect
  split <;> apply_rules [h, State.pinitEffect_sound, State.pfillEffect_sound, State.pwaitEffect_sound, State.pequEffect_sound, State.ptestEffect_sound]

theorem State.promStep_sound {s : State} (h : s.Sound) (id i : Nat) : (s.promStep id i).Sound := by
  unfold State.promStep
  dsimp only
  (repeat' split) <;> apply_rules [h, State.handOvers_sound, State.promEffect_sound, State.reachIf_sound, State.promEnd_sound, State.countEvent_sound]

theorem execHomeSliceAccess_sound {s : State} (h : s.Sound) (acc part : Nat) (srv : Serve) : (execHomeSliceAccess acc part srv s).Sound := by
  unfold execHomeSliceAccess
  split <;> apply_rules [h, State.homeStep_sound, State.promStep_sound]

theorem execPwaitRepeat_sound {s : State} (h : s.Sound) (waiter : Nat) : (execPwaitRepeat waiter s).Sound := by
  unfold execPwaitRepeat
  (repeat' split) <;> apply_rules [h, State.countEvent_sound, State.pwaitEffect_sound]

theorem Ctx.promise_sound {x : Ctx} (h : x.s.Sound) (gd : Guard) (tk : Tok) (d : Option GReg) (op : POp) (a : W64)
    (rel acq : Option Scope) : (x.promise gd tk d op a rel acq).Sound := by
  unfold Ctx.promise
  extract_lets
  split
  · exact h
  · split
    · trivial
    · trivial
    · exact h

theorem execPinit_sound {s : State} (h : s.Sound) (gd : Guard) (tk : Tok) (ga : GReg) (free : Bool) :
    (execPinit gd tk ga free s).Sound := issue_sound h fun _ h => Ctx.promise_sound h ..

theorem execPfill_sound {s : State} (h : s.Sound) (gd : Guard) (tk : Tok) (ga gv : GReg) (sc : Scope) :
    (execPfill gd tk ga gv sc s).Sound := issue_sound h fun _ h => Ctx.promise_sound h ..

theorem execPwait_sound {s : State} (h : s.Sound) (gd : Guard) (tk : Tok) (d ga : GReg) (sc : Scope) :
    (execPwait gd tk d ga sc s).Sound := issue_sound h fun _ h => Ctx.promise_sound h ..

theorem execPequ_sound {s : State} (h : s.Sound) (gd : Guard) (tk : Tok) (ga gv : GReg) :
    (execPequ gd tk ga gv s).Sound := issue_sound h fun _ h => Ctx.promise_sound h ..

theorem execPtest_sound {s : State} (h : s.Sound) (gd : Guard) (tk : Tok) (d ga : GReg) (sc : Scope) :
    (execPtest gd tk d ga sc s).Sound := issue_sound h fun _ h => Ctx.promise_sound h ..

theorem State.enginePlace_sound {s : State} (h : s.Sound) (at_ : EngineAt) (va : Nat) (w : Bool) : (s.enginePlace at_ va w).1.Sound := by
  unfold State.enginePlace
  dsimp only
  (repeat' split) <;> apply_rules [h, State.reach_sound]

theorem State.cleanWord_sound {s : State} (h : s.Sound) (host : Bool) (w : Nat) : (s.cleanWord host w).Sound := by
  unfold State.cleanWord
  split <;> exact h

/-! ### Reads and writes of engines -/

theorem State.engineLoad_sound {s : State} (h : s.Sound) (at_ : EngineAt) (ps : List Part) : (s.engineLoad at_ ps).1.Sound := by
  induction ps generalizing s with
  | nil => exact h
  | cons p ps ih =>
    unfold State.engineLoad
    have hone : ∀ one : State × Except Halted Got, one.1.Sound → (match one with
        | (s, .error e) => (s, .error e)
        | (s, .ok g) =>
          match s.engineLoad at_ ps with
          | (s, .error e) => (s, .error e)
          | (s, .ok g') => (s, .ok ⟨g.bytes ++ g'.bytes, g.poison || g'.poison, g.drop || g'.drop⟩) : State × Except Halted Got).1.Sound := by
      rintro ⟨t, r⟩ ht
      have := ih ht
      cases r with
      | error e => exact ht
      | ok g => dsimp only; split <;> exact sound_of_fst ‹_› this
    refine hone _ ?_
    split
    · exact h
    · split <;> exact h
    · have hp := State.enginePlace_sound h at_ p.va false
      split
      · split <;> apply_rules [State.touchRange_sound, sound_of_fst ‹_› hp]
      · exact sound_of_fst ‹_› hp

theorem State.engineStore_sound {s : State} (h : s.Sound) (at_ : EngineAt) (poison : Bool) (whole : Nat → Bool) (ps : List Part) :
    (s.engineStore at_ poison whole ps).1.Sound := by
  induction ps generalizing s with
  | nil => exact h
  | cons p ps ih =>
    unfold State.engineStore
    have hone : ∀ one : State × Except Halted Bool, one.1.Sound → (match one with
        | (s, .error e) => (s, .error e)
        | (s, .ok d) =>
          match s.engineStore at_ poison whole ps with
          | (s, .error e) => (s, .error e)
          | (s, .ok d') => (s, .ok (d || d')) : State × Except Halted Bool).1.Sound := by
      rintro ⟨t, r⟩ ht
      have := ih ht
      cases r with
      | error e => exact ht
      | ok g => dsimp only; split <;> exact sound_of_fst ‹_› this
    refine hone _ ?_
    split
    · split <;> exact h
    · have hp := State.enginePlace_sound h at_ p.va true
      split
      · next t pl ht =>
        have hs := sound_of_fst ht hp
        have hb := State.putBank_sound hs at_.t.space pl.host pl.pa p.size (fun hm => bank_store_wf (bank_sound hs pl.host hm) p pl.pa poison)
        have hc : ∀ {u : State} (b : Bool) (w : Nat), u.Sound → (u.cleanWord b w).Sound := fun b w hu => by
          unfold State.cleanWord
          split <;> exact hu
        (repeat' split) <;> apply_rules [hb, hc, State.l1Drop_sound]
      · exact sound_of_fst ‹_› hp

theorem State.loadElem_sound {s : State} (h : s.Sound) (at_ : EngineAt) (e : Layout) (x : List Int) : (s.loadElem at_ e x).1.Sound := by
  have := State.engineLoad_sound h at_ (e.elemParts at_.t.spanPos 0 0 x none)
  unfold State.loadElem
  dsimp only
  split <;> exact sound_of_fst ‹_› this

theorem State.loadElems_sound {s : State} (h : s.Sound) (at_ : EngineAt) (e : Layout) (xs : List (List Int)) :
    (s.loadElems at_ e xs).1.Sound := by
  induction xs generalizing s with
  | nil => exact h
  | cons x xs ih =>
    unfold State.loadElems
    have hl := State.loadElem_sound h at_ e x
    split
    · exact sound_of_fst ‹_› hl
    · next t c g ht =>
      have := ih (sound_of_fst ht hl)
      split <;> exact sound_of_fst ‹_› this

end Sys2Proof.Machine
end

section
/-!
PROOFS. What every step keeps: matrix words and the matrix engine, rings, and the copy engine.
-/
namespace Sys2Proof.Machine
variable [Asked]

theorem Ctx.enqueue_sound {x : Ctx} (h : x.s.Sound) (q : QSel) (tk : Option Tok) (ws : List RegVal) (body : EntryBody) (start : Nat := 0) :
    (x.enqueue q tk ws body start).Sound := h.parts

theorem State.setEntry_sound {s : State} (h : s.Sound) (tn : Nat) (q : QSel) (e : QEntry) : (s.setEntry tn q e).Sound := h
theorem State.endEntry_sound {s : State} (h : s.Sound) (tn : Nat) (q : QSel) (e : QEntry) (ws : List RegVal) (poison : Bool)
    (status : BitVec 8) : (s.endEntry tn q e ws poison status).Sound := h

/-! ### Matrix words -/

theorem Ctx.converged_sound {x : Ctx} (gd : Guard) {f : Unit → Res} (hf : (f ()).Sound) : (x.converged gd f).Sound := by
  unfold Ctx.converged
  split
  · exact hf
  · trivial

theorem mmaEffect_sound {x : Ctx} (h : x.s.Sound) (gd : Guard) (tk : Tok) (acc : Nat) (o : MmaOps) (zero : Bool) :
    (mmaEffect x gd tk acc o zero).Sound := by
  refine Ctx.converged_sound _ ?_
  dsimp only
  (repeat' split) <;> apply_rules [h, Res.sound_trap]

theorem execMma_sound {s : State} (h : s.Sound) (gd : Guard) (tk : Tok) (acc : Fin 64) (la : Fin 256) (gca : GReg) (lb : Fin 256) (gcb gf gk : GReg) :
    (execMma gd tk acc la gca lb gcb gf gk s).Sound := issue_sound h fun _ h => mmaEffect_sound h ..

theorem execMmaz_sound {s : State} (h : s.Sound) (gd : Guard) (tk : Tok) (acc : Fin 64) (la : Fin 256) (gca : GReg) (lb : Fin 256) (gcb gf gk : GReg) :
    (execMmaz gd tk acc la gca lb gcb gf gk s).Sound := issue_sound h fun _ h => mmaEffect_sound h ..

theorem execAccz_sound {s : State} (h : s.Sound) (gd : Guard) (tk : Tok) (acc n1 : Fin 64) : (execAccz gd tk acc n1 s).Sound :=
  issue_sound h fun _ h => Ctx.converged_sound _ (Ctx.enqueue_sound h ..)

theorem accMoveEffect_sound {x : Ctx} (h : x.s.Sound) (gd : Guard) (tk : Tok) (acc : Nat) (l : Fin 256) (gc : GReg) (tt : TileTy) (store : Bool) :
    (accMoveEffect x gd tk acc l gc tt store).Sound := by
  refine Ctx.converged_sound _ ?_
  dsimp only
  split
  · trivial
  · split
    · trivial
    · exact Ctx.enqueue_sound h ..

theorem execAccld_sound {s : State} (h : s.Sound) (gd : Guard) (tk : Tok) (acc : Fin 64) (l : Fin 256) (gc : GReg) (tt : TileTy) :
    (execAccld gd tk acc l gc tt s).Sound := issue_sound h fun _ h => accMoveEffect_sound h ..

theorem execAccst_sound {s : State} (h : s.Sound) (gd : Guard) (tk : Tok) (acc : Fin 64) (l : Fin 256) (gc : GReg) (tt : TileTy) :
    (execAccst gd tk acc l gc tt s).Sound := issue_sound h fun _ h => accMoveEffect_sound h ..

theorem execAccmvGet_sound {s : State} (h : s.Sound) (gd : Guard) (tk : Tok) (acc : Fin 64) (v : VReg) (gr : GReg) :
    (execAccmvGet gd tk acc v gr s).Sound := issue_sound h fun _ h => Ctx.converged_sound _ (Ctx.enqueue_sound h ..)

theorem execAccmvPut_sound {s : State} (h : s.Sound) (gd : Guard) (tk : Tok) (acc : Fin 64) (v : VReg) (gr : GReg) :
    (execAccmvPut gd tk acc v gr s).Sound := issue_sound h fun _ h => Ctx.converged_sound _ (Ctx.enqueue_sound h ..)

theorem execAccmvStat_sound {s : State} (h : s.Sound) (gd : Guard) (tk : Tok) (acc : Fin 64) (d gr : GReg) (clr : Bool) :
    (execAccmvStat gd tk acc d gr clr s).Sound := issue_sound h fun _ h => Ctx.converged_sound _ (Ctx.enqueue_sound h ..)

theorem execAccmvCopy_sound {s : State} (h : s.Sound) (gd : Guard) (tk : Tok) (acc src : Fin 64) (gr : GReg) :
    (execAccmvCopy gd tk acc src gr s).Sound := issue_sound h fun _ h => Ctx.converged_sound _ (Ctx.enqueue_sound h ..)

theorem execAccsc_sound {s : State} (h : s.Sound) (gd : Guard) (tk : Tok) (acc : Fin 64) (gs : GReg) (i32 : Bool) :
    (execAccsc gd tk acc gs i32 s).Sound := issue_sound h fun _ h => Ctx.converged_sound _ (Ctx.enqueue_sound h ..)

theorem execMtest_sound {s : State} (h : s.Sound) (gd : Guard) (tk : Tok) (d : GReg) : (execMtest gd tk d s).Sound :=
  issue_sound h fun _ h => Ctx.converged_sound _ (Ctx.enqueue_sound h ..)

/-! ### The matrix engine -/

theorem State.loadColumns_sound {s : State} (h : s.Sound) (at_ : EngineAt) (l : Layout) (xs : Nat → List (List Int)) (n j : Nat) :
    (s.loadColumns at_ l xs n j).1.Sound := by
  induction n generalizing s j with
  | zero => exact h
  | succ n ih =>
    unfold State.loadColumns
    have hl := State.loadElems_sound h at_ l (xs j)
    split
    · exact sound_of_fst ‹_› hl
    · next t cs g ht =>
      have := ih (sound_of_fst ht hl) (j + 1)
      split <;> exact sound_of_fst ‹_› this

theorem State.mmaCache_sound {s : State} (h : s.Sound) (at_ : EngineAt) (e : QEntry) (lb lsb : Layout) (cb0 cb1 : Int) (f : FmtBlock) (k : Nat) :
    (s.mmaCache at_ e lb lsb cb0 cb1 f k).1.Sound := by
  unfold State.mmaCache
  split
  · next ht => exact sound_of_fst ht (State.loadColumns_sound h ..)
  · next ht =>
    have hs := sound_of_fst ht (State.loadColumns_sound h ..)
    dsimp only
    split <;> exact sound_of_fst ‹_› (State.loadColumns_sound hs ..)

theorem State.mmaRow_sound {s : State} (h : s.Sound) (at_ : EngineAt) (e : QEntry) (zero : Bool) (acc : Nat) (la lsa : Layout)
    (ca0 ca1 : Int) (f : FmtBlock) (k : Nat) : (s.mmaRow at_ e zero acc la lsa ca0 ca1 f k).1.Sound := by
  unfold State.mmaRow
  dsimp only
  split
  · next ht => exact sound_of_fst ht (State.loadElems_sound h ..)
  · next ht =>
    have hs := sound_of_fst ht (State.loadElems_sound h ..)
    split
    · next ht => exact sound_of_fst ht (State.loadElems_sound hs ..)
    · next ht => exact State.modCourse_sound (State.modTruss_sound (sound_of_fst ht (State.loadElems_sound hs ..)) ..) ..

theorem State.accldRow_sound {s : State} (h : s.Sound) (at_ : EngineAt) (e : QEntry) (acc : Nat) (l : Layout) (c0 c1 : Int) (tt : TileTy) :
    (s.accldRow at_ e acc l c0 c1 tt).1.Sound := by
  unfold State.accldRow
  dsimp only
  split
  · next ht => exact sound_of_fst ht (State.loadElems_sound h ..)
  · next ht => exact State.modTruss_sound (sound_of_fst ht (State.loadElems_sound h ..)) ..

theorem State.accstRow_sound {s : State} (h : s.Sound) (at_ : EngineAt) (e : QEntry) (l : Layout) (c0 c1 : Int) (codes : Nat → Nat)
    (psn : Nat → Bool) (n : Nat) : (s.accstRow at_ e l c0 c1 codes psn n).1.Sound := by
  induction n generalizing s e with
  | zero => exact h
  | succ n ih =>
    unfold State.accstRow
    dsimp only
    split
    · next ht => exact sound_of_fst ht (State.engineStore_sound h ..)
    · next ht => exact ih (sound_of_fst ht (State.engineStore_sound h ..)) _

theorem State.tileStep_sound {s : State} (h : s.Sound) (at_ : EngineAt) (e : QEntry) : (s.tileStep at_ e).1.Sound := by
  unfold State.tileStep
  dsimp only
  split <;> apply_rules [h]

theorem State.matWork_sound {s : State} (h : s.Sound) (at_ : EngineAt) (e : QEntry) : (s.matWork at_ e).1.Sound := by
  unfold State.matWork
  split
  · dsimp only
    (repeat' split) <;> apply_rules [h, State.mmaCache_sound, State.mmaRow_sound]
  · exact State.accldRow_sound h ..
  · dsimp only
    (repeat' split) <;> apply_rules [h, State.accstRow_sound, State.advanceTo_sound]
  · exact State.tileStep_sound h ..

theorem State.noteWrite_sound {s : State} (h : s.Sound) (tn : Nat) (e : QEntry) : (s.noteWrite tn e).Sound := by
  unfold State.noteWrite
  split <;> exact h

theorem State.matRun_sound {s : State} (h : s.Sound) (core tn : Nat) (e : QEntry) (n : Nat) : (s.matRun core tn e n).1.Sound := by
  induction n generalizing s e with
  | zero => exact h
  | succ n ih =>
    unfold State.matRun
    split
    · exact h
    · next t _ =>
      have hw := State.noteWrite_sound (State.matWork_sound h ⟨tn, t, t.entryAgent e 2⟩ e) tn (s.matWork ⟨tn, t, t.entryAgent e 2⟩ e).2
      dsimp only
      split
      · exact hw
      · exact ih hw _

theorem matrixStart_sound {s : State} (h : s.Sound) (core rows : Nat) : (matrixStart s core rows).Sound := by
  unfold matrixStart
  split
  · exact h
  · split
    · exact h
    · split
      · exact h
      · refine State.setEntry_sound ?_ ..
        split
        · exact h
        · split
          · exact h
          · exact State.matRun_sound (State.modTruss_sound (State.modCore_sound h ..) ..) ..

theorem execMatrixEntryStart_sound {s : State} (h : s.Sound) (core rows : Nat) : (execMatrixEntryStart core rows s).Sound := by
  unfold execMatrixEntryStart
  split <;> apply_rules [h, matrixStart_sound]

theorem State.selfTest_sound {s : State} (h : s.Sound) (core : Nat) (failed : BitVec 4) : (s.selfTest core failed).Sound := by
  unfold State.selfTest
  refine foldl_sound (fun s i h => ?_) _ h.parts
  split
  · exact State.postEvent_sound (State.postEvent_sound h ..) ..
  · exact h

theorem State.matStatus_sound {s : State} (h : s.Sound) (tn : Nat) (e : QEntry) : (s.matStatus tn e).Sound := by
  unfold State.matStatus
  (repeat' split) <;> apply_rules [h]

theorem matrixComplete_sound {s : State} (h : s.Sound) (core : Nat) : (matrixComplete s core).Sound := by
  unfold matrixComplete
  split
  · exact h
  · split
    · exact h
    · split
      · exact h
      · extract_lets isMma dead ws s1 s2 s3 s4 s5
        have h1 : s1.Sound := by unfold s1; split <;> apply_rules [h, State.matStatus_sound]
        have h2 : s2.Sound := by unfold s2; split <;> exact h1
        have h4 : s4.Sound := by unfold s4; split <;> apply_rules [h2, State.addShare_sound]
        have h5 := fun tn e ws p st => State.endEntry_sound (State.countEvent_sound h4 core 7 1) tn .mat e ws p st
        (repeat' split) <;> apply_rules [h, h5]

theorem execMatrixEntryComplete_sound {s : State} (h : s.Sound) (core : Nat) : (execMatrixEntryComplete core s).Sound := matrixComplete_sound h ..

theorem execSelfTestProduct_sound {s : State} (h : s.Sound) (core : Nat) (failed : BitVec 4) : (execSelfTestProduct core failed s).Sound := by
  unfold execSelfTestProduct
  dsimp only
  split
  · (repeat' split) <;> apply_rules [h, State.selfTest_sound]
  · split
    · split
      · exact State.endEntry_sound (State.countEvent_sound (State.selfTest_sound (State.modCore_sound h ..) ..) ..) ..
      · exact h
    · exact h

theorem execRgacqInit_sound {s : State} (h : s.Sound) (gd : Guard) (rg : Fin 8) (ga : GReg) :
    (execRgacqInit gd rg ga s).Sound := issue_sound h fun _ h => Ctx.once_sound h _ (Ctx.trussWord_sound h ..)

/-! ### Rings -/

theorem Ctx.ringGet_sound {x : Ctx} (h : x.s.Sound) (d : GReg) (rg : Fin 8) (take : Bool) : (x.ringGet d rg take).Sound := by
  have ht := Ctx.trussWord_sound h (.ringGet rg (((x.t.view x.c.course).rings[rg]).next take) take)
  unfold Ctx.ringGet
  dsimp only
  split
  · next he => rw [he] at ht; exact ht
  · exact ht

theorem execRgacq_sound {s : State} (h : s.Sound) (gd : Guard) (d : GReg) (rg : Fin 8) :
    (execRgacq gd d rg s).Sound := issue_sound h fun _ h => Ctx.once_sound h _ (Ctx.ringGet_sound h ..)

theorem execRgtake_sound {s : State} (h : s.Sound) (gd : Guard) (d : GReg) (rg : Fin 8) :
    (execRgtake gd d rg s).Sound := issue_sound h fun _ h => Ctx.once_sound h _ (Ctx.ringGet_sound h ..)

theorem Ctx.ringPut_sound {x : Ctx} (h : x.s.Sound) (q : QSel) (rg : Fin 8) (w : W64) (commit : Bool) : (x.ringPut q rg w commit).Sound := by
  unfold Ctx.ringPut
  dsimp only
  split
  · trivial
  · split
    · split
      · exact h
      · exact Ctx.enqueue_sound h ..
    · split
      · trivial
      · split
        · exact h
        · apply Ctx.enqueue_sound
          exact State.modTruss_sound h ..

theorem execRgcmt_sound {s : State} (h : s.Sound) (gd : Guard) (q : QSel) (rg : Fin 8) (ga : GReg) :
    (execRgcmt gd q rg ga s).Sound := issue_sound h fun _ h => Ctx.once_sound h _ (Ctx.ringPut_sound h ..)

theorem execRgrel_sound {s : State} (h : s.Sound) (gd : Guard) (q : QSel) (rg : Fin 8) (ga : GReg) :
    (execRgrel gd q rg ga s).Sound := issue_sound h fun _ h => Ctx.once_sound h _ (Ctx.ringPut_sound h ..)

theorem ringEntryStep_sound {s : State} (h : s.Sound) (tn : Nat) (q : QSel) : (ringEntryStep s tn q).Sound := by
  unfold ringEntryStep
  (repeat' split) <;> apply_rules [h]

theorem execRingEntryEffect_sound {s : State} (h : s.Sound) (truss : Nat) (q : QSel) :
    (execRingEntryEffect truss q s).Sound := ringEntryStep_sound h ..

theorem execQfence_sound {s : State} (h : s.Sound) (gd : Guard) (copy mat net : Bool) :
    (execQfence gd copy mat net s).Sound := issue_sound h fun _ h => Ctx.once_sound h _ h

theorem bcopyEffect_sound {x : Ctx} (h : x.s.Sound) (tk : Tok) (ct gs gdst nc : Nat) : (bcopyEffect x tk ct gs gdst nc).Sound := by
  unfold bcopyEffect
  dsimp only
  (repeat' split) <;> apply_rules [h, Res.sound_trap]

theorem execBcopy_sound {s : State} (h : s.Sound) (gd : Guard) (tk : Tok) (ct : Fin 64) (gs gdst : GReg) (nc : Fin 4) :
    (execBcopy gd tk ct gs gdst nc s).Sound := issue_sound h fun _ h => by
  split <;> apply_rules [h, bcopyEffect_sound]

/-! ### The copy engine -/

theorem State.landElem_sound {s : State} (h : s.Sound) (at_ : EngineAt) (w : Vector W64 2) (ld : Layout) (x : List Int) (code fresh m : Nat)
    (psn : Bool) (whole : Nat → Nat → Bool) : (s.landElem at_ w ld x code fresh m psn whole).1.Sound := by
  unfold State.landElem
  dsimp only
  split
  · next ht => exact sound_of_fst ht (State.engineStore_sound h ..)
  · next ht =>
    have hs := sound_of_fst ht (State.engineStore_sound h ..)
    split <;> exact hs

theorem State.landAll_sound {s : State} (h : s.Sound) (at_ : EngineAt) (w : Vector W64 2) (ld : Layout) (x : List Int) (code fresh : Nat)
    (psn : Bool) (whole : Nat → Nat → Bool) (ms : List Nat) : (s.landAll at_ w ld x code fresh psn whole ms).1.Sound := by
  induction ms generalizing s with
  | nil => exact h
  | cons m ms ih =>
    unfold State.landAll
    split
    · next ht => exact sound_of_fst ht (State.landElem_sound h ..)
    · next ht =>
      have := ih (sound_of_fst ht (State.landElem_sound h ..))
      split <;> exact sound_of_fst ‹_› this

theorem State.copyElem_sound {s : State} (h : s.Sound) (at_ : EngineAt) (e : QEntry) (w : Vector W64 2) (ls ld : Layout) (cs cd : List Int) :
    (s.copyElem at_ e w ls ld cs cd).1.Sound := by
  unfold State.copyElem
  dsimp only
  split
  · next ht => exact sound_of_fst ht (State.loadElem_sound h ..)
  · next ht =>
    have hs := sound_of_fst ht (State.loadElem_sound h ..)
    split
    · exact hs
    · split <;> exact sound_of_fst ‹_› (State.landAll_sound hs ..)

theorem State.copyRun_sound {s : State} (h : s.Sound) (tn : Nat) (e : QEntry) (n : Nat) : (s.copyRun tn e n).1.Sound := by
  induction n generalizing s e with
  | zero => exact h
  | succ n ih =>
    unfold State.copyRun
    split
    · exact h
    · split
      · exact ih (State.copyElem_sound h ..) _
      · exact h

theorem copyStep_sound {s : State} (h : s.Sound) (core n : Nat) : (copyStep s core n).Sound := by
  unfold copyStep
  split
  · exact h
  · split
    · exact h
    · split
      · exact h
      · have hr : ∀ (p : State × QEntry) (tn : Nat), p.1.Sound → (match p with
            | (s, e) => if e.full then s.endEntry tn .copy e [] false e.status else s.setEntry tn .copy e : State).Sound := by
          intro p tn hp
          dsimp only
          split <;> exact hp
        refine hr _ _ ?_
        split
        · exact h
        · exact State.copyRun_sound (State.modCore_sound h ..) ..

theorem execCopyEntryExecute_sound {s : State} (h : s.Sound) (core n : Nat) : (execCopyEntryExecute core n s).Sound := copyStep_sound h ..

end Sys2Proof.Machine
end

section
/-!
PROOFS. What every step keeps: links, their flits and their training (18).
-/
namespace Sys2Proof.Machine
variable [Asked]

theorem State.pumpLink_sound {s : State} (h : s.Sound) (n : Nat) (g : Link → Link) :
    (s.pumpLink n g).Sound := foldl_sound (fun _ _ h => State.addShare_sound h ..) _ h

theorem State.endNet_sound {s : State} (h : s.Sound) (truss entry : Nat) (st : BitVec 8) : (s.endNet truss entry st).Sound := by
  unfold State.endNet
  split <;> exact h

theorem State.endOutgoing_sound {s : State} (h : s.Sound) (xid : W32) (st : BitVec 8) : (s.endOutgoing xid st).Sound := by
  unfold State.endOutgoing
  (repeat' split) <;> apply_rules [h, State.endNet_sound]

theorem State.modLink_sound {s : State} (h : s.Sound) (n : Nat) (f : Link → Link) : (s.modLink n f).Sound := h
theorem State.toPhase_sound {s : State} (h : s.Sound) (n p : Nat) : (s.toPhase n p).Sound := h

/-- The paths of a flit and of an answer to one it could not send, by the bound on answers to answers. -/
theorem route_sound (n : Nat) :
    (∀ (s : State) (o : OutFlit), s.Sound → (s.routeFlit o n).Sound) ∧ (∀ (s : State) (os : List OutFlit), s.Sound → (s.routeAll os n).Sound) := by
  induction n with
  | zero => exact ⟨fun s o h => by unfold State.routeFlit; exact h, fun s os h => by unfold State.routeAll; exact h⟩
  | succ n ih =>
    obtain ⟨ihf, iha⟩ := ih
    constructor
    · intro s o h
      unfold State.routeFlit
      dsimp only
      split
      · split
        · exact h
        · split
          · split
            · exact State.endOutgoing_sound h ..
            · exact h
          · split
            · split
              · exact iha _ _ h.parts
              · exact h
            · exact h
      · exact State.pumpLink_sound h ..
    · intro s os h
      unfold State.routeAll
      exact foldl_sound (fun s o h => ihf s o h) os h

theorem State.routeFlit_sound {s : State} (h : s.Sound) (o : OutFlit) (n : Nat) : (s.routeFlit o n).Sound := (route_sound n).1 s o h

theorem State.routeAll_sound {s : State} (h : s.Sound) (os : List OutFlit) (n : Nat) : (s.routeAll os n).Sound := (route_sound n).2 s os h

theorem State.sendTransfer_sound {s : State} (h : s.Sound) (x : Transfer) (mine : Bool) : (s.sendTransfer x mine).Sound := by
  unfold State.sendTransfer
  split
  · exact h
  · exact State.routeAll_sound h ..

theorem State.sendDone_sound {s : State} (h : s.Sound) (x : Transfer) (st : BitVec 8) : (s.sendDone x st).Sound := State.sendTransfer_sound h ..

theorem State.returnOwed_sound {s : State} (h : s.Sound) (i : Inbound) : (s.returnOwed i).Sound := by
  unfold State.returnOwed
  split <;> exact h

theorem State.dropInbounds_sound {s : State} (h : s.Sound) (p : Inbound → Bool) :
    (s.dropInbounds p).Sound := foldl_sound (fun _ _ h => State.returnOwed_sound h ..) _ h

theorem State.freeGroup_sound {s : State} (h : s.Sound) (g : Nat) : (s.freeGroup g).Sound := by
  refine foldl_sound (fun _ _ h => State.sendDone_sound h ..) _ ?_
  apply State.dropInbounds_sound
  exact h.parts

theorem State.fabricDone_sound {s : State} (h : s.Sound) : s.fabricDone.Sound := by
  unfold State.fabricDone
  dsimp only
  (repeat' split) <;> apply_rules [h]

theorem State.fabricChanged_sound {s : State} (h : s.Sound) : s.fabricChanged.Sound := by
  have h1 : (({ s with xmit := [] } : State).routeAll s.xmit 5).Sound := by
    apply State.routeAll_sound
    exact h.parts
  unfold State.fabricChanged
  apply State.fabricDone_sound
  refine foldl_sound (fun s g h => ?_) _ (foldl_sound (fun _ _ h => State.endOutgoing_sound h ..) _ (State.dropInbounds_sound h1 _))
  split
  · exact State.freeGroup_sound h _
  · exact h

theorem State.postCause_sound {s : State} (h : s.Sound) (c : Cause) : (s.postCause c).Sound := by
  unfold State.postCause
  apply_rules [h, State.flushEvents_sound]

theorem State.laserLost_sound {s : State} (h : s.Sound) (n : Nat) (lost : BitVec 16) : (s.laserLost n lost).Sound := by
  unfold State.laserLost
  dsimp only
  apply_rules [h, State.postEvent_sound]

theorem State.linkDown_sound {s : State} (h : s.Sound) (n : Nat) (after : Link) : (s.linkDown n after).Sound :=
  State.fabricChanged_sound (State.routeAll_sound (State.modLink_sound
    (foldl_sound (fun _ _ h => State.laserLost_sound h ..) _ (State.postCause_sound h _)) ..) ..)

theorem State.linkUp_sound {s : State} (h : s.Sound) (n : Nat) : (s.linkUp n).Sound := by
  unfold State.linkUp
  apply State.fabricChanged_sound
  apply State.pumpLink_sound
  exact State.postCause_sound h _

theorem State.retrain_sound {s : State} (h : s.Sound) (n : Nat) : (s.retrain n).Sound := by
  unfold State.retrain
  dsimp only
  split
  · exact State.linkDown_sound h ..
  · exact State.toPhase_sound (State.modLink_sound h ..) ..

theorem execLightDetect_sound {s : State} (h : s.Sound) (link : Fin 16) (lit : BitVec 16) : (execLightDetect link lit s).Sound := by
  unfold execLightDetect
  dsimp only
  (repeat' split) <;> exact h

theorem execWavelengthLock_sound {s : State} (h : s.Sound) (link : Fin 16) (locked : BitVec 16) : (execWavelengthLock link locked s).Sound := by
  unfold execWavelengthLock
  dsimp only
  (repeat' split) <;> apply_rules [h, State.retrain_sound]

theorem execTrainingPhaseTimeout_sound {s : State} (h : s.Sound) (link : Fin 16) : (execTrainingPhaseTimeout link s).Sound := by
  unfold execTrainingPhaseTimeout
  dsimp only
  split <;> apply_rules [h, State.advanceTo_sound, State.retrain_sound]

theorem execLinkRetryTimer_sound {s : State} (h : s.Sound) (link : Fin 16) : (execLinkRetryTimer link s).Sound := by
  unfold execLinkRetryTimer
  dsimp only
  split <;> apply_rules [h, State.advanceTo_sound]

theorem State.trainCtrl_sound {s : State} (h : s.Sound) (n : Nat) (f : Flit) : (s.trainCtrl n f).Sound := by
  unfold State.trainCtrl
  dsimp only
  split
  · exact State.retrain_sound h _
  · split
    · split
      · exact State.toPhase_sound (State.modLink_sound h ..) ..
      · exact State.retrain_sound (State.modLink_sound h ..) _
    · split
      · split
        · exact State.retrain_sound (State.modLink_sound h ..) _
        · exact State.linkUp_sound h _
      · exact State.linkUp_sound (State.modLink_sound h ..) _
    · split <;> exact h

theorem State.newRx_sound {s : State} (h : s.Sound) (n : Nat) (mask : BitVec 16) : (s.newRx n mask).Sound := by
  unfold State.newRx
  dsimp only
  split
  · exact State.linkDown_sound h ..
  · split
    · exact State.postCause_sound (State.modLink_sound h ..) _
    · exact State.postCause_sound (State.pumpLink_sound h ..) _

theorem State.newTx_sound {s : State} (h : s.Sound) (n : Nat) (mask ack : BitVec 16) : (s.newTx n mask ack).Sound := by
  unfold State.newTx
  dsimp only
  split
  · exact State.linkDown_sound (State.laserLost_sound h ..) ..
  · split
    · exact State.postCause_sound (State.pumpLink_sound h ..) _
    · exact State.laserLost_sound (State.postCause_sound (State.modLink_sound h ..) _) ..

theorem State.upCtrl_sound {s : State} (h : s.Sound) (n : Nat) (f : Flit) : (s.upCtrl n f).Sound := by
  unfold State.upCtrl
  dsimp only
  split
  · split
    · exact State.newRx_sound h ..
    · exact h
  · split
    · split
      · split
        · exact State.laserLost_sound (State.postCause_sound (State.modLink_sound h ..) _) ..
        · split
          · exact h
          · exact State.newTx_sound h ..
      · split
        · exact h
        · exact State.newTx_sound h ..
    · split
      · exact h
      · exact State.newTx_sound h ..

theorem lightLost_sound {s : State} (h : s.Sound) (n : Nat) (lost : BitVec 16) (atSender : Bool) : (lightLost s n lost atSender).Sound := by
  unfold lightLost
  dsimp only
  split
  · split
    · split
      · exact h
      · split
        · exact State.linkDown_sound (State.laserLost_sound h ..) ..
        · exact State.pumpLink_sound h ..
    · split
      · exact h
      · exact State.newRx_sound h ..
  all_goals exact State.modLink_sound h ..

theorem execLossOfLight_sound {s : State} (h : s.Sound) (link : Fin 16) (lost : BitVec 16) (atSender : Bool) :
    (execLossOfLight link lost atSender s).Sound := lightLost_sound h ..

theorem execLaserRelight_sound {s : State} (h : s.Sound) (link : Fin 16) (lit : BitVec 16) : (execLaserRelight link lit s).Sound := by
  unfold execLaserRelight
  dsimp only
  (repeat' split) <;> apply_rules [h, State.pumpLink_sound]

theorem State.takeAck_sound {s : State} (h : s.Sound) (n : Nat) (f : Flit) : (s.takeAck n f).Sound := by
  unfold State.takeAck
  apply_rules [h, State.pumpLink_sound]

theorem State.sendDrain_sound {s : State} (h : s.Sound) (n : Nat) : (s.sendDrain n).Sound := by
  unfold State.sendDrain
  dsimp only
  split <;> apply_rules [h, State.pumpLink_sound]

theorem State.forwardFlit_sound {s : State} (h : s.Sound) (n : Fin 16) (f : Flit) : (s.forwardFlit n f).Sound := by
  unfold State.forwardFlit
  split
  · split
    · exact State.sendDone_sound h ..
    · exact h
  · extract_lets o w s1
    have h1 : s1.Sound := h.parts
    have h2 := fun k g => State.pumpLink_sound h1 k g
    split
    · split
      · dsimp only
        split
        · exact State.sendDrain_sound (h2 ..) _
        · exact h2 ..
      · exact State.routeFlit_sound h1 ..
    · exact State.routeFlit_sound h1 ..

theorem State.acceptFlit_sound {s : State} (h : s.Sound) (n : Fin 16) (f : Flit) : (s.acceptFlit n f).Sound := by
  unfold State.acceptFlit
  dsimp only
  (repeat' split) <;> apply_rules [h]

theorem State.takeDrain_sound {s : State} (h : s.Sound) (n : Nat) : (s.takeDrain n).Sound := by
  unfold State.takeDrain
  apply_rules [h, State.sendDrain_sound]

theorem State.quietCheck_sound {s : State} (h : s.Sound) (n : Nat) : (s.quietCheck n).Sound := by
  unfold State.quietCheck
  dsimp only
  split
  · exact State.fabricChanged_sound (State.modLink_sound h ..)
  · exact h

theorem flitStep_sound {s : State} (h : s.Sound) (n : Fin 16) (rx : Reception) (f : Flit) : (flitStep s n rx f).Sound := by
  unfold flitStep
  extract_lets l ok news s1 s2 s3 s4 s5
  have h1 : s1.Sound := State.modLink_sound h ..
  have h2 : s2.Sound := by
    unfold s2
    split
    · exact State.upCtrl_sound (State.modLink_sound h1 ..) ..
    · exact h1
  have h3 : s3.Sound := State.takeAck_sound h2 ..
  have h4 : s4.Sound := by
    unfold s4
    split
    · exact h3
    · split
      · exact State.modLink_sound (State.takeDrain_sound h3 _) ..
      · split
        · exact State.acceptFlit_sound h3 ..
        · exact State.forwardFlit_sound (State.modLink_sound h3 ..) ..
  have h5 : s5.Sound := by unfold s5; split <;> exact h4
  split
  · split
    · exact State.trainCtrl_sound h ..
    · exact State.modLink_sound h ..
  · split
    · exact h
    · split
      · exact State.modLink_sound h ..
      · split
        · split
          · exact State.newRx_sound (State.modLink_sound h ..) ..
          · exact State.modLink_sound h ..
        · split
          · exact State.quietCheck_sound (State.takeAck_sound h ..) _
          · exact State.quietCheck_sound h5 _

theorem execFlitReceive_sound {s : State} (h : s.Sound) (link : Fin 16) (rx : Reception) (f : Flit) :
    (execFlitReceive link rx f s).Sound := flitStep_sound h ..

theorem execCtrlFlitReceive_sound {s : State} (h : s.Sound) (link : Fin 16) (f : Flit) : (execCtrlFlitReceive link f s).Sound := by
  unfold execCtrlFlitReceive
  split <;> apply_rules [h, flitStep_sound]

theorem execDrainFlitReceive_sound {s : State} (h : s.Sound) (link : Fin 16) (f : Flit) : (execDrainFlitReceive link f s).Sound := by
  unfold execDrainFlitReceive
  split <;> apply_rules [h, flitStep_sound]

theorem execAckTimer_sound {s : State} (h : s.Sound) (link : Fin 16) : (execAckTimer link s).Sound := by
  unfold execAckTimer
  dsimp only
  split <;> apply_rules [h, State.advanceTo_sound, State.quietCheck_sound]

theorem execResendTimeout_sound {s : State} (h : s.Sound) (link : Fin 16) : (execResendTimeout link s).Sound := by
  unfold execResendTimeout
  dsimp only
  split <;> apply_rules [h, State.advanceTo_sound, State.pumpLink_sound]

theorem execResendLimit_sound {s : State} (h : s.Sound) (link : Fin 16) : (execResendLimit link s).Sound := by
  unfold execResendLimit
  dsimp only
  split
  · exact State.fabricChanged_sound (State.toPhase_sound (State.modLink_sound h ..) ..)
  · exact h

theorem execQuiesceTimeout_sound {s : State} (h : s.Sound) (link : Fin 16) : (execQuiesceTimeout link s).Sound := by
  unfold execQuiesceTimeout
  dsimp only
  split
  · exact State.linkDown_sound (State.advanceTo_sound h _) ..
  · exact h

theorem fabricCommand_sound {s : State} (h : s.Sound) (w : Vector W64 12) {f : State → State} (hf : ∀ s : State, s.Sound → (f s).Sound) :
    (fabricCommand s w f).Sound := by
  unfold fabricCommand
  split
  · exact h
  · split
    · exact h
    · apply hf
      exact h.parts

theorem State.fabricStatus_sound {s : State} (h : s.Sound) (st : BitVec 16) : (s.fabricStatus st).Sound := h

theorem execRoute_sound {s : State} (h : s.Sound) (w : Vector W64 12) : (execRoute w s).Sound :=
  fabricCommand_sound h _ fun s h => by
    refine State.fabricStatus_sound ?_ _
    apply State.fabricChanged_sound
    exact h.parts

theorem execEpset_sound {s : State} (h : s.Sound) (w : Vector W64 12) : (execEpset w s).Sound :=
  fabricCommand_sound h _ fun _ h => h.parts

theorem execGset_sound {s : State} (h : s.Sound) (w : Vector W64 12) : (execGset w s).Sound :=
  fabricCommand_sound h _ fun s h => by
    dsimp only
    split
    · exact h
    · split
      · exact h
      · exact h.parts

theorem execGclr_sound {s : State} (h : s.Sound) (w : Vector W64 12) : (execGclr w s).Sound :=
  fabricCommand_sound h _ fun s h => by
    extract_lets g e s1 xs
    have h1 : s1.Sound := h.parts
    exact State.fabricStatus_sound (State.freeGroup_sound (foldl_sound (fun _ _ h => State.endOutgoing_sound h ..) _ h1) _) _

theorem execQuiesce_sound {s : State} (h : s.Sound) (w : Vector W64 12) : (execQuiesce w s).Sound :=
  fabricCommand_sound h _ fun s h => by
    extract_lets m ls s1
    split
    · exact h
    · have h1 : s1.Sound := by
        refine foldl_sound (fun s n h => ?_) _ h
        dsimp only
        split
        · exact State.quietCheck_sound (State.sendDrain_sound (State.modLink_sound h ..) _) _
        · exact h
      apply State.fabricChanged_sound
      exact h1.parts

theorem execRelock_sound {s : State} (h : s.Sound) (w : Vector W64 12) : (execRelock w s).Sound :=
  fabricCommand_sound h _ fun s h => by
    extract_lets m ls s1
    split
    · exact h
    · have h1 : s1.Sound := foldl_sound (fun s n h => State.toPhase_sound (State.modLink_sound h ..) ..) _ h
      apply State.fabricChanged_sound
      exact h1.parts

theorem State.resetLink_sound {s : State} (h : s.Sound) (n : Nat) : (s.resetLink n).Sound :=
  State.fabricChanged_sound (State.toPhase_sound (State.modLink_sound h ..) ..)

end Sys2Proof.Machine
end

section
/-!
PROOFS. What every step keeps: what a guarded course holds, service calls, network words and the network engine.
-/
namespace Sys2Proof.Machine
variable [Asked]

theorem State.capture_sound {s : State} (h : s.Sound) (vd kind w0 : Nat) (ws : List W64) : (s.capture vd kind w0 ws).Sound := by
  unfold State.capture
  (repeat' split) <;> apply_rules [h, State.pfWrite_sound]

theorem State.captureDigest_sound {s : State} (h : s.Sound) (vd kind w0 : Nat) (data : List Byte) : (s.captureDigest vd kind w0 data).Sound := by
  unfold State.captureDigest
  apply_rules [h, State.capture_sound]

theorem State.compareDigest_sound {s : State} (h : s.Sound) (vd kind blk : Nat) (seq : W32) (data : List Byte) :
    (s.compareDigest vd kind blk seq data).1.Sound := by
  unfold State.compareDigest
  dsimp only
  (repeat' split) <;> apply_rules [h, State.postEvent_sound]

theorem State.takenValue_sound {s : State} (h : s.Sound) (vd : Nat) (x : W64) : (s.takenValue vd x).1.Sound := by
  unfold State.takenValue
  (repeat' split) <;> apply_rules [h, State.capture_sound]

theorem execNop_sound {s : State} (h : s.Sound) : (execNop s).Sound := issueCourse_sound h ..

theorem execDly_sound {s : State} (h : s.Sound) (n : Fin 64) : (execDly n s).Sound := issueCourse_sound h ..

theorem execYield_sound {s : State} (h : s.Sound) : (execYield s).Sound := issueCourse_sound h ..

/-- A check that finds a fault answers a trap. -/
theorem trap_or_sound {c : Prop} [Decidable c] {cause detail : Nat} {fa : W64} {rest : Option Res} (hr : ∀ f, rest = some f → f.Sound)
    {f : Res} (hf : (if c then some (.trap cause detail fa) else rest) = some f) : f.Sound := by
  split at hf
  · cases hf; trivial
  · exact hr f hf

theorem none_sound (f : Res) (hf : none = some f) : f.Sound := by cases hf

theorem targetFault_sound {t : Int} {f : Res} (hf : targetFault t = some f) : f.Sound :=
  trap_or_sound (fun _ => trap_or_sound none_sound) hf

theorem braEffect_sound {x : Ctx} (h : x.s.Sound) (gd : Guard) (hint : Hint) (off : BitVec 18) (join : BitVec 12) :
    (braEffect x gd hint off join).Sound := by
  unfold braEffect
  dsimp only
  split
  · exact h
  · split
    · exact targetFault_sound ‹_›
    · split
      · exact h
      · split
        · trivial
        · split
          · trivial
          · refine Res.sound_jump ?_ _
            split
            · exact State.addShare_sound (Ctx.set_sound h _) ..
            · exact Ctx.set_sound h _

theorem execBra_sound {s : State} (h : s.Sound) (gd : Guard) (hint : Hint) (off : BitVec 18) (join : BitVec 12) :
    (execBra gd hint off join s).Sound := issue_sound h fun _ h => braEffect_sound h ..

theorem uniformTransfer_sound {x : Ctx} (h : x.s.Sound) (gd : Guard) {f : Unit → Res} (hf : (f ()).Sound) : (uniformTransfer x gd f).Sound := by
  unfold uniformTransfer
  dsimp only
  split
  · exact hf
  · split
    · exact h
    · trivial

theorem goTo_sound {s : State} (h : s.Sound) (t : Int) : (goTo t s).Sound := by
  unfold goTo
  split
  · exact targetFault_sound ‹_›
  · exact h

theorem execJmp_sound {s : State} (h : s.Sound) (gd : Guard) (a : GReg) : (execJmp gd a s).Sound :=
  issue_sound h fun _ h => uniformTransfer_sound h _ (goTo_sound h _)

theorem execCall_sound {s : State} (h : s.Sound) (gd : Guard) (d : GReg) (off : BitVec 18) (mask : BitVec 12) : (execCall gd d off mask s).Sound :=
  issue_sound h fun _ h => uniformTransfer_sound h _ (goTo_sound (Ctx.set_sound h _) _)

theorem execCallr_sound {s : State} (h : s.Sound) (gd : Guard) (d a : GReg) (mask : BitVec 12) : (execCallr gd d a mask s).Sound :=
  issue_sound h fun _ h => uniformTransfer_sound h _ (goTo_sound (Ctx.set_sound h _) _)

theorem execRet_sound {s : State} (h : s.Sound) (gd : Guard) (a : GReg) : (execRet gd a s).Sound :=
  issue_sound h fun _ h => uniformTransfer_sound h _ (by
    split
    · trivial
    · exact goTo_sound (Ctx.set_sound h _) _)

theorem bsyncEffect_sound {x : Ctx} (h : x.s.Sound) (c : GReg) : (bsyncEffect x c).Sound := by
  unfold bsyncEffect
  dsimp only
  split
  · next f hf =>
    split at hf
    · exact trap_or_sound (fun _ => trap_or_sound none_sound) hf
    · cases hf
  · split
    · trivial
    · (repeat' split) <;> exact Ctx.set_sound h _

theorem execBsync_sound {s : State} (h : s.Sound) (c : GReg) : (execBsync c s).Sound := issue_sound h fun _ h => bsyncEffect_sound h ..

theorem exitEffect_sound {x : Ctx} (h : x.s.Sound) (gd : Guard) : (exitEffect x gd).Sound := by
  unfold exitEffect
  dsimp only
  (repeat' split) <;> apply_rules [h, State.killCourse_sound, Res.sound_trap]

theorem execExit_sound {s : State} (h : s.Sound) (gd : Guard) : (execExit gd s).Sound := issue_sound h fun _ h => exitEffect_sound h ..

theorem execRegion_sound {s : State} (h : s.Sound) (fin : Bool) : (execRegion fin s).Sound := issueCourse_sound h ..

theorem execTrap_sound {s : State} (h : s.Sound) (gd : Guard) (n : BitVec 8) : (execTrap gd n s).Sound := issue_sound h fun _ h => by
  split <;> apply_rules [h]

theorem execBrk_sound {s : State} (h : s.Sound) (gd : Guard) (n : BitVec 8) : (execBrk gd n s).Sound := issue_sound h fun _ h => by
  split <;> apply_rules [h]

theorem rettEffect_sound {x : Ctx} (h : x.s.Sound) : (rettEffect x).Sound := by
  unfold rettEffect
  (repeat' split) <;> apply_rules [h, Res.sound_trap]

theorem execRett_sound {s : State} (h : s.Sound) : (execRett s).Sound := issue_sound h fun _ h => rettEffect_sound h ..

theorem execTmask_sound {s : State} (h : s.Sound) (gd : Guard) (n : Bool) : (execTmask gd n s).Sound := issueCourse_sound h ..

theorem csrrEffect_sound {x : Ctx} (h : x.s.Sound) (gd : Guard) (t : BTy) (d : Reg) (idx : Nat) : (csrrEffect x gd t d idx).Sound := by
  unfold csrrEffect
  (repeat' split) <;> apply_rules [h, Res.sound_trap]

theorem execCsrr_sound {s : State} (h : s.Sound) (gd : Guard) (t : BTy) (d : Reg) (idx : BitVec 8) :
    (execCsrr gd t d idx s).Sound := issue_sound h fun _ h => csrrEffect_sound h ..

theorem Ctx.writeFrame_sound {x : Ctx} (h : x.s.Sound) (i : Nat) (y : W64) : (x.writeFrame i y).Sound := by
  unfold Ctx.writeFrame
  (repeat' split) <;> apply_rules [h, Res.sound_trap]

theorem Ctx.writeKernel_sound {x : Ctx} (h : x.s.Sound) (idx : Nat) (y : W64) : (x.writeKernel idx y).Sound := by
  unfold Ctx.writeKernel
  split <;> apply_rules [h, Res.sound_trap]

theorem Ctx.writeSpecial_sound {x : Ctx} (h : x.s.Sound) (idx : Nat) (y : W64) : (x.writeSpecial idx y).Sound := by
  unfold Ctx.writeSpecial
  dsimp only
  (repeat' split) <;> apply_rules [h, Ctx.writeFrame_sound, Res.sound_trap]

theorem csrwEffect_sound {x : Ctx} (h : x.s.Sound) (gd : Guard) (t : BTy) (idx : Nat) (a : Reg) : (csrwEffect x gd t idx a).Sound := by
  unfold csrwEffect
  (repeat' split) <;> apply_rules [h, Ctx.writeKernel_sound, Ctx.writeSpecial_sound, Res.sound_trap]

theorem execCsrw_sound {s : State} (h : s.Sound) (gd : Guard) (t : BTy) (idx : BitVec 8) (a : Reg) :
    (execCsrw gd t idx a s).Sound := issue_sound h fun _ h => csrwEffect_sound h ..

/-- The record of a service call goes into memory byte by byte (R46). -/
theorem State.writeRecord_sound {s : State} (h : s.Sound) (die : Nat) (rec_ : List Byte) (who : CRef × Nat) :
    (s.writeRecord die rec_ who).Sound := ⟨fun hm => writeBytes_wf (h.mem hm) .., h.host, h.clocks⟩

theorem syscEffect_sound {x : Ctx} (h : x.s.Sound) (gd : Guard) (tk : Tok) (d a : VReg) (na nr : Fin 9) (svc : BitVec 14) :
    (syscEffect x gd tk d a na nr svc).Sound := by
  unfold syscEffect
  dsimp only
  (repeat' split) <;> apply_rules [h, State.writeRecord_sound]

theorem execSysc_sound {s : State} (h : s.Sound) (gd : Guard) (tk : Tok) (d a : VReg) (na nr : Fin 9) (svc : BitVec 14) :
    (execSysc gd tk d a na nr svc s).Sound := issue_sound h fun _ h => syscEffect_sound h ..

/-! ### Network words -/

theorem reserved_sound {bad : Bool} (f : Res) (hf : reserved bad = some f) : f.Sound := trap_or_sound none_sound hf

theorem localFault_sound {base len : Nat} (f : Res) (hf : localFault base len = some f) : f.Sound := trap_or_sound none_sound hf

theorem recordFault_sound {x : Ctx} {a : Nat} (f : Res) (hf : x.recordFault a = some f) : f.Sound := trap_or_sound localFault_sound hf

theorem firstFault_sound {checks : List (Option Res)} (hc : ∀ c ∈ checks, ∀ f, c = some f → f.Sound) {f : Res} (hf : firstFault checks = some f) :
    f.Sound := by
  induction checks with
  | nil => cases hf
  | cons c cs ih =>
    cases c with
    | none => exact ih (fun c hm => hc c (List.mem_cons_of_mem _ hm)) hf
    | some g => exact hc _ List.mem_cons_self f hf

theorem Ctx.network_sound {x : Ctx} (h : x.s.Sound) (gd : Guard) (tk : Tok) {f : Unit → Res} (hf : (f ()).Sound) : (x.network gd tk f).Sound := by
  unfold Ctx.network
  split
  · exact hf
  · exact h

theorem Ctx.netEntry_sound {x : Ctx} (h : x.s.Sound) (tk : Tok) {checks : List (Option Res)} (hc : ∀ c ∈ checks, ∀ f, c = some f → f.Sound)
    (empty : Bool) (body : EntryBody) : (x.netEntry tk checks empty body).Sound := by
  unfold Ctx.netEntry
  split
  · exact firstFault_sound hc ‹_›
  · split
    · exact h
    · exact Ctx.enqueue_sound h ..

theorem amsgEffect_sound {x : Ctx} (h : x.s.Sound) (tk : Tok) (g nb : Nat) : (amsgEffect x tk g nb).Sound := by
  refine Ctx.netEntry_sound h _ ?_ _ _
  simp only [List.forall_mem_cons]
  exact ⟨reserved_sound, fun _ => trap_or_sound none_sound, List.forall_mem_nil _⟩

theorem execAmsg_sound {s : State} (h : s.Sound) (gd : Guard) (tk : Tok) (gx : GReg) (nb : BitVec 7) : (execAmsg gd tk gx nb s).Sound :=
  issue_sound h fun _ h => Ctx.network_sound h _ _ (amsgEffect_sound h ..)

theorem nsendEffect_sound {x : Ctx} (h : x.s.Sound) (tk : Tok) (g : Nat) : (nsendEffect x tk g).Sound := by
  refine Ctx.netEntry_sound h _ ?_ _ _
  simp only [List.forall_mem_cons]
  exact ⟨reserved_sound, localFault_sound, List.forall_mem_nil _⟩

theorem execNsend_sound {s : State} (h : s.Sound) (gd : Guard) (tk : Tok) (gx : GReg) : (execNsend gd tk gx s).Sound :=
  issue_sound h fun _ h => Ctx.network_sound h _ _ (nsendEffect_sound h ..)

theorem nrecvEffect_sound {x : Ctx} (h : x.s.Sound) (tk : Tok) (g : Nat) : (nrecvEffect x tk g).Sound := by
  refine Ctx.netEntry_sound h _ ?_ _ _
  simp only [List.forall_mem_cons]
  exact ⟨reserved_sound, localFault_sound, recordFault_sound, List.forall_mem_nil _⟩

theorem execNrecv_sound {s : State} (h : s.Sound) (gd : Guard) (tk : Tok) (gx : GReg) : (execNrecv gd tk gx s).Sound :=
  issue_sound h fun _ h => Ctx.network_sound h _ _ (nrecvEffect_sound h ..)

theorem nprobeEffect_sound {x : Ctx} (h : x.s.Sound) (tk : Tok) (g : Nat) : (nprobeEffect x tk g).Sound := by
  refine Ctx.netEntry_sound h _ ?_ _ _
  simp only [List.forall_mem_cons]
  exact ⟨reserved_sound, recordFault_sound, List.forall_mem_nil _⟩

theorem execNprobe_sound {s : State} (h : s.Sound) (gd : Guard) (tk : Tok) (gx : GReg) : (execNprobe gd tk gx s).Sound :=
  issue_sound h fun _ h => Ctx.network_sound h _ _ (nprobeEffect_sound h ..)

theorem putGetEffect_sound {x : Ctx} (h : x.s.Sound) (tk : Tok) (g : Nat) (get : Bool) : (putGetEffect x tk g get).Sound := by
  refine Ctx.netEntry_sound h _ ?_ _ _
  simp only [List.forall_mem_cons]
  exact ⟨reserved_sound, localFault_sound, List.forall_mem_nil _⟩

theorem execFput_sound {s : State} (h : s.Sound) (gd : Guard) (tk : Tok) (gx : GReg) : (execFput gd tk gx s).Sound :=
  issue_sound h fun _ h => Ctx.network_sound h _ _ (putGetEffect_sound h ..)

theorem execFget_sound {s : State} (h : s.Sound) (gd : Guard) (tk : Tok) (gx : GReg) : (execFget gd tk gx s).Sound :=
  issue_sound h fun _ h => Ctx.network_sound h _ _ (putGetEffect_sound h ..)

theorem fcopyEffect_sound {x : Ctx} (h : x.s.Sound) (tk : Tok) (g : Nat) : (fcopyEffect x tk g).Sound := by
  have hl : ∀ {c : Prop} [Decidable c] {base len : Nat} (f : Res), (if c then localFault base len else none) = some f → f.Sound := by
    intro c _ base len f hf
    split at hf
    · exact localFault_sound f hf
    · cases hf
  refine Ctx.netEntry_sound h _ ?_ _ _
  simp only [List.forall_mem_cons]
  exact ⟨reserved_sound, hl, hl, List.forall_mem_nil _⟩

theorem execFcopy_sound {s : State} (h : s.Sound) (gd : Guard) (tk : Tok) (gx : GReg) : (execFcopy gd tk gx s).Sound :=
  issue_sound h fun _ h => Ctx.network_sound h _ _ (fcopyEffect_sound h ..)

theorem reduceEffect_sound {x : Ctx} (h : x.s.Sound) (tk : Tok) (g : Nat) (readBack : Bool) : (reduceEffect x tk g readBack).Sound := by
  have hm : ∀ (bad : Option Nat) (lane : Nat) (f : Res), (bad.map fun p => Res.trap 0x02 lane (BitVec.ofNat 64 p)) = some f → f.Sound := by
    intro bad lane f hf
    obtain ⟨p, -, rfl⟩ := Option.map_eq_some_iff.1 hf
    trivial
  refine Ctx.netEntry_sound h _ ?_ _ _
  simp only [List.forall_mem_cons]
  exact ⟨reserved_sound, fun _ => trap_or_sound none_sound, hm _ _, localFault_sound, fun _ => trap_or_sound none_sound, List.forall_mem_nil _⟩

theorem execFmrs_sound {s : State} (h : s.Sound) (gd : Guard) (tk : Tok) (gx : GReg) : (execFmrs gd tk gx s).Sound :=
  issue_sound h fun _ h => Ctx.network_sound h _ _ (reduceEffect_sound h ..)

theorem execFmrl_sound {s : State} (h : s.Sound) (gd : Guard) (tk : Tok) (gx : GReg) : (execFmrl gd tk gx s).Sound :=
  issue_sound h fun _ h => Ctx.network_sound h _ _ (reduceEffect_sound h ..)

theorem State.runPlace_sound {s : State} (h : s.Sound) (r : Reacher) (va : Nat) (w : Bool) : (s.runPlace r va w).1.Sound := by
  unfold State.runPlace
  dsimp only
  (repeat' split) <;> apply_rules [h, State.reach_sound]

/-! ### The network engine -/

theorem State.readRun_sound {s : State} (h : s.Sound) (r : Reacher) (va k n fuel : Nat) : (s.readRun r va k n fuel).1.Sound := by
  induction fuel generalizing s va k n with
  | zero => exact h
  | succ fuel ih =>
    unfold State.readRun
    split
    · exact h
    · split
      · next ht => exact sound_of_fst ht (State.runPlace_sound h ..)
      · next ht =>
        have hs := sound_of_fst ht (State.runPlace_sound h ..)
        dsimp only
        apply ih
        split
        · exact hs
        · exact State.touchRange_sound hs ..

theorem State.writeRun_sound {s : State} (h : s.Sound) (r : Reacher) (va k : Nat) (psn : List Nat) (fuel : Nat) (bs : List Byte) :
    (s.writeRun r va k psn fuel bs).1.Sound := by
  induction fuel generalizing s va k bs with
  | zero => unfold State.writeRun; exact h
  | succ fuel ih =>
    cases bs with
    | nil => unfold State.writeRun; exact h
    | cons b bs =>
      unfold State.writeRun
      split
      · next ht => exact sound_of_fst ht (State.runPlace_sound h ..)
      · next t pl ht =>
        have hs := sound_of_fst ht (State.runPlace_sound h ..)
        have hp := fun p bad => State.putBank_sound hs r.space pl.host pl.pa (pieceLen va k (b :: bs).length)
          (fun hm => bank_store_wf (bank_sound hs pl.host hm) p pl.pa bad)
        dsimp only
        apply ih
        split
        · exact hp ..
        · exact State.l1Drop_sound (hp ..) ..

theorem State.localBytes_sound {s : State} (h : s.Sound) (r : Reacher) (e : QEntry) (va len : Nat) : (s.localBytes r e va len).1.Sound := by
  unfold State.localBytes
  dsimp only
  split <;> exact State.readRun_sound h ..

theorem State.beginTransfer_sound {s : State} (h : s.Sound) (tn : Nat) (t : Truss) (e : QEntry) (x : Transfer) (loc len : Nat) (thru : Option (BitVec 16)) :
    (s.beginTransfer tn t e x loc len thru).Sound := by
  unfold State.beginTransfer
  apply_rules [h, State.sendTransfer_sound]

theorem State.sendBytes_sound {s : State} (h : s.Sound) (tn : Nat) (t : Truss) (r : Reacher) (e : QEntry) (loc len : Nat) (x : Transfer) :
    (s.sendBytes tn t r e loc len x).Sound := by
  unfold State.sendBytes
  split
  · next ht =>
    have hs := sound_of_fst ht (State.localBytes_sound h ..)
    split <;> exact hs
  · next ht => exact State.beginTransfer_sound (sound_of_fst ht (State.localBytes_sound h ..)) ..

theorem State.postRecv_sound {s : State} (h : s.Sound) (tn : Nat) (t : Truss) (e : QEntry) (mw : W64) (buf cap ra : Nat) :
    (s.postRecv tn t e mw buf cap ra).Sound := by
  unfold State.postRecv
  split
  · exact h
  · dsimp only
    split
    · refine State.endEntry_sound ?_ ..
      apply State.modVdev_sound
      exact h.parts
    · split
      · exact h
      · exact State.endEntry_sound (State.modVdev_sound h ..) ..

theorem State.probe_sound {s : State} (h : s.Sound) (tn : Nat) (t : Truss) (r : Reacher) (e : QEntry) (mw : W64) (ra : Nat) :
    (s.probe tn t r e mw ra).Sound := by
  unfold State.probe
  extract_lets m ws bs
  have hw := State.writeRun_sound h r (ra + e.done) e.done [] 32 (bs.drop e.done)
  dsimp only
  (repeat' split) <;> exact hw.parts

theorem State.askPeers_sound {s : State} (h : s.Sound) (tn : Nat) (t : Truss) (e : QEntry) (g off dst cnt : Nat) :
    (s.askPeers tn t e g off dst cnt).Sound := foldl_sound (fun _ _ h => State.sendTransfer_sound h ..) _ h

theorem State.netStart_sound {s : State} (h : s.Sound) (tn : Nat) (t : Truss) (e : QEntry) : (s.netStart tn t e).Sound := by
  have hfin : ∀ st, (s.endEntry tn .net e [] false st).Sound := fun st => State.endEntry_sound h ..
  unfold State.netStart
  dsimp only
  split
  · exact hfin _
  · split
    · split
      · exact hfin _
      · exact h.parts
    · split
      · split
        · exact hfin _
        · exact State.sendBytes_sound h ..
      · exact hfin _
    · exact State.postRecv_sound h ..
    · exact State.probe_sound h ..
    · split
      · split
        · exact hfin _
        · exact State.sendBytes_sound h ..
      · exact hfin _
    · split
      · split
        · exact hfin _
        · exact State.beginTransfer_sound h ..
      · exact hfin _
    · split
      · split
        · exact hfin _
        · split
          · exact State.sendBytes_sound h ..
          · exact State.beginTransfer_sound h ..
      · exact hfin _
    · split
      · exact hfin _
      · split
        · next ht =>
          have hs := sound_of_fst ht (State.localBytes_sound h ..)
          split <;> exact hs
        · next ht =>
          have hs := sound_of_fst ht (State.localBytes_sound h ..)
          apply State.beginTransfer_sound
          exact hs.parts
    · split
      · exact hfin _
      · exact State.askPeers_sound h ..
    · exact h

theorem networkStep_sound {s : State} (h : s.Sound) (tn : Nat) : (networkStep s tn).Sound := by
  unfold networkStep
  (repeat' split) <;> apply_rules [h, State.netStart_sound]

theorem execNetworkEntryStart_sound {s : State} (h : s.Sound) (truss : Nat) : (execNetworkEntryStart truss s).Sound := networkStep_sound h ..

theorem amsgArrive_sound {s : State} (h : s.Sound) (core : Nat) : (amsgArrive s core).Sound := by
  unfold amsgArrive
  dsimp only
  (repeat' split) <;> apply_rules [h, State.endNet_sound]

theorem execAmsgArrival_sound {s : State} (h : s.Sound) (core : Nat) : (execAmsgArrival core s).Sound := amsgArrive_sound h ..

theorem State.dropEntries_sound {s : State} (h : s.Sound) (tn : Nat) (sel : QEntry → Bool) : (s.dropEntries tn sel).Sound := by
  unfold State.dropEntries
  dsimp only
  (repeat' split) <;> apply_rules [h]

theorem State.dropRecvs_sound {s : State} (h : s.Sound) (vd : Nat) (sel : Recv → Bool) : (s.dropRecvs vd sel).Sound := State.modVdev_sound h ..

theorem State.dropEarly_sound {s : State} (h : s.Sound) (c : CRef) (sel : Access → Bool) : (s.dropEarly c sel).Sound := by
  refine foldl_sound (fun s p h => ?_) _ h
  split
  · split
    · exact State.l1Drop_sound h ..
    · exact h
  · exact h

theorem State.discardOp_sound {s : State} (h : s.Sound) (c : CRef) (vd id : Nat) : (s.discardOp c vd id).Sound := by
  unfold State.discardOp
  refine State.modCourse_sound ?_ ..
  apply State.dropRecvs_sound
  apply State.dropEntries_sound
  exact (State.dropEarly_sound h ..).parts

theorem State.dropHeld_sound {s : State} (hs : s.Sound) (c : CRef) (h : Held) : (s.dropHeld c h).Sound := by
  unfold State.dropHeld
  refine State.modCourse_sound ?_ ..
  split
  · exact hs.parts
  · exact hs.parts
  · exact State.dropEntries_sound hs ..
  · exact hs

theorem State.releaseHeld_sound {s : State} (hs : s.Sound) (c : CRef) (h : Held) : (s.releaseHeld c h).Sound := by
  unfold State.releaseHeld
  extract_lets s1
  have h1 : s1.Sound := State.modCourse_sound hs ..
  split
  · exact h1
  · split
    · exact h1.parts
    · exact h1.parts
    · exact State.writeRecord_sound h1 ..
    · split
      · exact h1
      · exact State.modCourse_sound (State.dropEntries_sound h1 ..) ..
    · split <;> exact h1

theorem quarantineStep_sound {s : State} (h : s.Sound) (c : CRef) : (quarantineStep s c).Sound := by
  unfold quarantineStep
  dsimp only
  (repeat' split) <;> apply_rules [h, State.advanceTo_sound, State.releaseHeld_sound]

theorem execQuarantineRelease_sound {s : State} (h : s.Sound) (c : CRef) : (execQuarantineRelease c s).Sound := quarantineStep_sound h ..

end Sys2Proof.Machine
end

section
/-!
PROOFS. What every step keeps: images, launches, faults, and the scheduler's switches.
-/
namespace Sys2Proof.Machine
variable [Asked]

/-- What the supervisor cluster writes goes into memory in one piece. -/
theorem State.supWrite_sound {s : State} (h : s.Sound) (a : Nat) (bs : List Byte) : (s.supWrite a bs).Sound :=
  ⟨fun hm => spliceBytes_wf (h.mem hm) .., h.host, h.clocks⟩

theorem State.putImage_sound {s : State} (h : s.Sound) (a : Nat) (i : Image) : (s.putImage a i).Sound := State.supWrite_sound h ..

theorem State.keepImage_sound {s : State} (h : s.Sound) (tn : Nat) (t : Truss) (j : Option Nat) (i : Image) : (s.keepImage tn t j i).1.Sound := by
  unfold State.keepImage
  split <;> apply_rules [h, State.putImage_sound]

theorem State.keepCourse_sound {s : State} (h : s.Sound) (c : CRef) : (s.keepCourse c).Sound := by
  unfold State.keepCourse
  split <;> apply_rules [h, State.keepImage_sound]

theorem State.keepTile_sound {s : State} (h : s.Sound) (tn : Nat) (t : Truss) (x : Tile) : (s.keepTile tn t x).Sound := by
  unfold State.keepTile
  split <;> apply_rules [h, State.keepImage_sound, State.supWrite_sound]

theorem State.keepMessages_sound {s : State} (h : s.Sound) (vd : Nat) (d : VDev) (core : Nat) :
    (s.keepMessages vd d core).Sound := State.supWrite_sound h ..

theorem State.keepTruss_sound {s : State} (h : s.Sound) (tn : Nat) (t : Truss) : (s.keepTruss tn t).Sound := by
  unfold State.keepTruss
  split
  · exact h
  · refine State.keepMessages_sound (foldl_sound (fun _ _ h => State.keepTile_sound h ..) _ ?_) ..
    split <;> apply_rules [h, State.putImage_sound, State.keepImage_sound]

theorem State.startSpan_sound {s : State} (h : s.Sound) (ln : Nat) (l : Launch) (index : Nat) (cores : List Nat) :
    (s.startSpan ln l index cores).Sound := by
  unfold State.startSpan
  refine foldl_sound (fun s x hs => ?_) _ h.parts
  apply State.capture_sound
  exact (State.dropIcache_sound hs ..).parts

theorem State.admitSpan_sound {s : State} (h : s.Sound) (ln : Nat) : ∀ t, s.admitSpan ln = some t → t.Sound := by
  intro t ht
  unfold State.admitSpan at ht
  split at ht
  · cases ht
  · split at ht
    · cases ht
    · split at ht
      · cases ht
        exact (State.startSpan_sound h ..).parts
      · cases ht

theorem State.admitMany_sound {s : State} (h : s.Sound) (ln : Nat) (fuel : Nat) : (s.admitMany ln fuel).Sound := by
  induction fuel generalizing s with
  | zero => exact h
  | succ n ih =>
    unfold State.admitMany
    split
    · split
      · exact h
      · split
        · exact ih (State.admitSpan_sound h _ _ ‹_›)
        · exact h
    · exact h

theorem State.emptied_sound {s : State} (h : s.Sound) (d : VDev) : (s.emptied d).Sound := by
  unfold State.emptied
  apply_rules [h]

theorem State.admitConcurrent_sound {s : State} (h : s.Sound) (ln : Nat) (d : VDev) (l : Launch) : (s.admitConcurrent ln d l).1.Sound := by
  unfold State.admitConcurrent
  extract_lets s'
  have hs : s'.Sound := State.admitMany_sound h ..
  split <;>
  · split
    · exact hs
    · split <;> exact h

theorem State.rejectHopeless_sound {s : State} (h : s.Sound) (vd : Nat) (d : VDev) : (s.rejectHopeless vd d).Sound := by
  refine foldl_sound (fun s x hs => ?_) _ h
  (repeat' split) <;> exact hs

theorem State.startRecorded_sound {s : State} (h : s.Sound) (ln : Nat) (l : Launch) (spans index : Nat) (cores : List Nat) :
    ∀ t, s.startRecorded ln l spans index cores = some t → t.Sound := by
  intro t ht
  induction spans generalizing s index cores with
  | zero => cases ht; exact h
  | succ k ih =>
    unfold State.startRecorded at ht
    dsimp only at ht
    split at ht
    · exact ih (State.startSpan_sound h ..) _ _ ht
    · cases ht

theorem State.useRecord_sound {s : State} (h : s.Sound) (kind n : Nat) : (s.useRecord kind n).Sound := h

theorem State.admitReplay_sound {s : State} (h : s.Sound) (vd : Nat) : (s.admitReplay vd).Sound := by
  unfold State.admitReplay
  split
  · exact h
  · split
    · split
      · exact State.useRecord_sound h ..
      · exact h
    · extract_lets k ns xs named busy
      split
      · exact h
      · split
        · exact h
        · next ht =>
          have hs := State.startRecorded_sound h _ _ _ _ _ _ ht
          exact hs.parts
    · exact h

theorem State.admitLaunch_sound {s : State} (h : s.Sound) (ln : Nat) (d : VDev) (l : Launch) : (s.admitLaunch ln d l).1.Sound := by
  unfold State.admitLaunch
  (repeat' split) <;> apply_rules [h, State.admitConcurrent_sound, State.admitMany_sound]

theorem State.admitDevice_sound {s : State} (h : s.Sound) (vd : Nat) (d : VDev) (oldest : Bool) (lns : List Nat) :
    (s.admitDevice vd d oldest lns).Sound := by
  induction lns generalizing s oldest with
  | nil => exact h
  | cons ln lns ih =>
    unfold State.admitDevice
    split
    · exact ih h _
    · split
      · exact ih h _
      · have hr := State.admitLaunch_sound h ln d ‹_›
        dsimp only
        split
        · exact hr
        · exact ih hr _

theorem State.spawn_sound {s : State} (h : s.Sound) (core : Nat) (m : AMsg) (l : Launch) (entry : W64) (fetch : Phase) :
    (s.spawn core m l entry fetch).Sound := h.parts

theorem State.freePart_sound {s : State} (h : s.Sound) (core : Nat) : (s.freePart core).Sound := by
  unfold State.freePart
  split <;> exact h

theorem State.chargeSlice_sound {s : State} (h : s.Sound) (vd : Nat) :
    (s.chargeSlice vd).Sound := State.modVdev_sound (State.addShare_sound h ..) ..

theorem State.finishMove_sound {s : State} (h : s.Sound) (vd : Nat) : (s.finishMove vd).Sound := by
  unfold State.finishMove
  split
  · exact h
  · split
    · exact h
    · split
      · exact h
      · extract_lets x old new at_ msgs s1 o into ran s2 o' s3 s4
        have h1 : s1.Sound := h.parts
        have h2 : s2.Sound := by
          unfold s2
          split
          · exact State.chargeSlice_sound h1 _
          · exact h1
        have h3 : s3.Sound := h2.parts
        have h4 : s4.Sound := State.modVdev_sound h3 ..
        exact h4.parts

theorem State.retireTruss_sound {s : State} (h : s.Sound) (tn : Nat) : (s.retireTruss tn).Sound := by
  unfold State.retireTruss
  dsimp only
  (repeat' split) <;> apply_rules [h, State.freePart_sound, State.finishMove_sound]

theorem courseRetireStep_sound {s : State} (h : s.Sound) (c : CRef) : (courseRetireStep s c).Sound := by
  unfold courseRetireStep
  (repeat' split) <;> apply_rules [h, State.killCourse_sound, State.retireTruss_sound]

theorem execCourseRetire_sound {s : State} (h : s.Sound) (c : CRef) : (execCourseRetire c s).Sound := courseRetireStep_sound h ..

theorem State.endLaunch_sound {s : State} (h : s.Sound) (ln : Nat) (l : Launch) (perm : Bool) : (s.endLaunch ln l perm).Sound := by
  unfold State.endLaunch
  split <;> apply_rules [h, State.modQcb_sound, State.haltQueue_sound]

/-- The status of a launch goes into memory as a number of eight bytes (R58). -/
theorem completeStep_sound {s : State} (h : s.Sound) (ln : Nat) : (completeStep s ln).Sound := by
  unfold completeStep
  split
  · exact h
  · next l _ =>
    split
    · exact h
    · dsimp only
      split
      · exact State.endLaunch_sound h ..
      · split
        · exact State.endLaunch_sound h ..
        · have hr := State.reach_sound h ⟨2, 5, 0xFF, 0⟩ l.vd l.items.statusAddr ⟨true, false, true⟩
          split
          · split
            · exact State.endLaunch_sound hr ..
            · exact State.endLaunch_sound (State.putBank_sound hr _ _ _ _ fun hm => writeNat_wf (bank_sound hr _ hm) ..) ..
          · split
            · exact State.endLaunch_sound hr ..
            · exact hr.parts

theorem execLaunchComplete_sound {s : State} (h : s.Sound) (launch : Nat) : (execLaunchComplete launch s).Sound := completeStep_sound h ..

theorem serviceStep_sound {s : State} (h : s.Sound) (die : Fin 2) (course : Fin 4) (reject : Bool) (results : List (List W32)) :
    (serviceStep s die course reject results).Sound := by
  unfold serviceStep
  dsimp only
  (repeat' split) <;> apply_rules [h]

theorem execServiceRecordTake_sound {s : State} (h : s.Sound) (who : SvcCourse) (reject : Bool) (results : List (List W32)) :
    (execServiceRecordTake who reject results s).Sound := serviceStep_sound h ..

theorem State.passFault_sound {s : State} (h : s.Sound) (f : FaultWait) : (s.passFault f).Sound := h

theorem State.guestWrite_sound {s : State} (h : s.Sound) (vd : Nat) (d : VDev) (gpa : Nat) (data : List Byte) :
    ∀ t, s.guestWrite vd d gpa data = some t → t.Sound := by
  intro t ht
  unfold State.guestWrite at ht
  split at ht
  · cases ht
    exact State.putBank_sound h _ _ _ _ fun hm => writeBytes_wf (bank_sound h _ hm) ..
  · cases ht

theorem faultRecordStep_sound {s : State} (h : s.Sound) (vd : Nat) : (faultRecordStep s vd).Sound := by
  unfold faultRecordStep
  split
  · split
    · exact h
    · dsimp only
      split
      · have hs := State.guestWrite_sound h _ _ _ _ _ ‹_›
        split
        · exact State.interrupt_sound (State.modVdev_sound (State.passFault_sound hs _) ..) _
        · exact State.modVdev_sound (State.passFault_sound hs _) ..
      · exact h
  · exact h

theorem execStage1FaultRecord_sound {s : State} (h : s.Sound) (vd : Fin 512) : (execStage1FaultRecord vd s).Sound := faultRecordStep_sound h ..

theorem faultEventStep_sound {s : State} (h : s.Sound) (vd : Nat) : (faultEventStep s vd).Sound := by
  unfold faultEventStep
  split <;> apply_rules [h, State.postEvent_sound]

theorem execStage2FaultEvent_sound {s : State} (h : s.Sound) (vd : Fin 512) : (execStage2FaultEvent vd s).Sound := faultEventStep_sound h ..

theorem State.fltres_sound {s : State} (h : s.Sound) (vd : Nat) (v : W64) (abort : Bool) : (s.fltres vd v abort).Sound := by
  unfold State.fltres
  split <;> exact h

theorem execFltresReplay_sound {s : State} (h : s.Sound) (vd : Fin 512) (v : W64) : (execFltresReplay vd v s).Sound := State.fltres_sound h ..

theorem execFltresAbort_sound {s : State} (h : s.Sound) (vd : Fin 512) (v : W64) : (execFltresAbort vd v s).Sound := State.fltres_sound h ..

theorem State.fallAll_sound {s : State} (h : s.Sound) (c : CRef) : (s.fallAll c).Sound := by
  unfold State.fallAll
  split
  · refine foldl_sound (fun s o hs => ?_) _ h
    split
    · exact hs
    · exact tokenFall_sound hs ..
  · exact h

theorem State.unpost_sound {s : State} (h : s.Sound) (c : CRef) (vd : Nat) : (s.unpost c vd).Sound := by
  unfold State.unpost
  split
  · exact h
  · exact foldl_sound (fun _ _ hs => State.modTruss_sound hs ..) _ (State.dropRecvs_sound h ..)

theorem State.withdraw_sound {s : State} (h : s.Sound) (c : CRef) (t : Truss) : (s.withdraw c t).Sound := by
  unfold State.withdraw
  extract_lets mine busy s1 ids gone s2 s3 out
  have h1 : s1.Sound := by
    unfold s1
    split
    · exact State.modCore_sound h ..
    · exact h
  have h2 : s2.Sound := State.dropEarly_sound h1 ..
  have h3 : s3.Sound := h2.parts
  exact State.modTruss_sound (State.unpost_sound h3 ..) ..

theorem State.saveCourse_sound {s : State} (h : s.Sound) (c : CRef) (to_ : CState) : (s.saveCourse c to_).Sound := by
  unfold State.saveCourse
  have hf := State.fallAll_sound h c
  dsimp only
  split
  · split
    · exact hf
    · exact State.addShare_sound (State.keepCourse_sound (State.modCourse_sound (State.withdraw_sound hf ..) ..) _) ..
  · exact hf

theorem partialStep_sound {s : State} (h : s.Sound) (core vd need : Nat) : (partialStep s core vd need).Sound := by
  unfold partialStep
  (repeat' split) <;> apply_rules [h, State.saveCourse_sound, State.modVdev_sound]

theorem execPartialEviction_sound {s : State} (h : s.Sound) (core : Nat) (vd : Fin 512) (need : Nat) :
    (execPartialEviction core vd need s).Sound := partialStep_sound h ..

theorem unparkStep_sound {s : State} (h : s.Sound) (c : CRef) : (unparkStep s c).Sound := by
  unfold unparkStep
  (repeat' split) <;> apply_rules [h]

theorem execCourseUnpark_sound {s : State} (h : s.Sound) (c : CRef) : (execCourseUnpark c s).Sound := unparkStep_sound h ..

theorem State.recordMatrix_sound {s : State} (h : s.Sound) (tn : Nat) : (s.recordMatrix tn).Sound := by
  unfold State.recordMatrix
  (repeat' split) <;> apply_rules [h, State.withdraw_sound]

theorem State.storeTruss_sound {s : State} (h : s.Sound) (tn : Nat) : (s.storeTruss tn).Sound := by
  unfold State.storeTruss
  split
  · exact h
  · split
    · exact h
    · next t _ _ =>
      have hf : ((List.range t.courses.length).foldl (fun s j => s.saveCourse ⟨tn, j⟩ .stored) s).Sound :=
        foldl_sound (fun _ _ hs => State.saveCourse_sound hs ..) _ h
      dsimp only
      apply State.modVdev_sound
      apply State.addShare_sound
      apply State.freePart_sound
      apply State.modTruss_sound
      split
      · exact State.keepTruss_sound (State.modCore_sound hf ..) ..
      · exact State.modCore_sound hf ..

theorem evictStep_sound {s : State} (h : s.Sound) (tn : Nat) : (evictStep s tn).Sound := by
  unfold evictStep
  split
  · exact h
  · dsimp only
    split
    · exact h
    · split
      · exact State.finishMove_sound (foldl_sound (fun _ _ hs => State.storeTruss_sound hs _) _ h) _
      · exact foldl_sound (fun _ _ hs => State.recordMatrix_sound hs _) _ h

theorem execFullEviction_sound {s : State} (h : s.Sound) (truss : Nat) : (execFullEviction truss s).Sound := evictStep_sound h ..

theorem State.noteRestore_sound {s : State} (h : s.Sound) (t : Truss) (core : Nat) : (s.noteRestore t core).Sound := by
  unfold State.noteRestore
  (repeat' split) <;> apply_rules [h, State.capture_sound]

theorem State.bringBack_sound {s : State} (h : s.Sound) (tn core : Nat) : (s.bringBack tn core).Sound := by
  unfold State.bringBack
  split
  · exact h
  · extract_lets slot slots area live part units s1 s2
    have h1 : s1.Sound := State.modTruss_sound h ..
    have h2 : s2.Sound := h1.parts
    apply State.noteRestore_sound
    exact h2.parts

theorem State.restoreSpan_sound {s : State} (h : s.Sound) (tn : Nat) : ∀ t, s.restoreSpan tn = some t → t.Sound := by
  intro t ht
  unfold State.restoreSpan at ht
  split at ht
  · cases ht
  · split at ht
    · cases ht
    · dsimp only at ht
      split at ht
      · cases ht
        exact foldl_sound (fun _ _ hs => State.bringBack_sound hs ..) _ h
      · cases ht

theorem State.restoreAll_sound {s : State} (h : s.Sound) (ns : List Nat) : ∀ t, s.restoreAll ns = some t → t.Sound := by
  intro t ht
  induction ns generalizing s with
  | nil => cases ht; exact h
  | cons n ns ih =>
    unfold State.restoreAll at ht
    split at ht
    · split at ht
      · obtain ⟨s', hs', ht⟩ := Option.bind_eq_some_iff.mp ht
        exact ih (State.restoreSpan_sound h _ _ hs') ht
      · exact ih h ht
    · exact ih h ht

theorem State.restored?_sound {s : State} (h : s.Sound) (tn : Nat) : ∀ t, s.restored? tn = some t → t.Sound := by
  intro t ht
  unfold State.restored? at ht
  split at ht
  · cases ht
  · split at ht
    · split at ht
      · exact State.restoreAll_sound h _ _ ht
      · cases ht
    · cases ht

theorem execTrussRestore_sound {s : State} (h : s.Sound) (truss : Nat) : (execTrussRestore truss s).Sound := by
  show ((s.restored? truss).getD s).Sound
  cases hr : s.restored? truss with
  | none => exact h
  | some t => exact State.restored?_sound h _ _ hr

theorem State.admitFor_sound {s : State} (h : s.Sound) (vd : Nat) (d : VDev) : (s.admitFor vd d).Sound := by
  unfold State.admitFor
  (repeat' split) <;> apply_rules [h, State.admitReplay_sound, State.rejectHopeless_sound, State.admitDevice_sound]

theorem admission_sound {s : State} (h : s.Sound) : (admission s).Sound := foldl_sound (fun _ _ h => State.admitFor_sound h ..) _ h

theorem execLaunchAdmission_sound {s : State} (h : s.Sound) : (execLaunchAdmission s).Sound := admission_sound h ..

theorem spawnStep_sound {s : State} (h : s.Sound) (core : Nat) : (spawnStep s core).Sound := by
  unfold spawnStep
  split
  · exact h
  · next m _ =>
    split
    · exact State.modCore_sound h ..
    · split
      · exact h
      · split
        · exact State.spawn_sound h ..
        · dsimp only
          have hr := State.reach_sound h ⟨dieOf core, 0, core, ((s.slotsFor core 1)[0]?).getD 0⟩ m.vd (m.tblBase + 8 * m.handler) ⟨false, false, true⟩
          split
          · split
            · exact State.spawn_sound hr ..
            · apply State.spawn_sound
              split
              · exact hr
              · exact State.touchRange_sound hr ..
          · split
            · exact State.spawn_sound hr ..
            · exact State.modCore_sound hr ..

theorem execHandlerSpawn_sound {s : State} (h : s.Sound) (core : Nat) : (execHandlerSpawn core s).Sound := spawnStep_sound h ..

theorem State.setFloor_sound {s : State} (h : s.Sound) (set : Nat) : (s.setFloor set).Sound := by
  unfold State.setFloor
  split <;> exact h

theorem State.noteRunnable_sound {s : State} (h : s.Sound) (set vd : Nat) : (s.noteRunnable set vd).Sound := by
  unfold State.noteRunnable
  split
  · exact h
  · dsimp only
    (repeat' split) <;> apply_rules [h, State.setFloor_sound, State.modVdev_sound]

theorem State.noteSet_sound {s : State} (h : s.Sound) (set : Nat) :
    (s.noteSet set).Sound := foldl_sound (fun _ _ h => State.noteRunnable_sound h ..) _ h

theorem State.markGroups_sound {s : State} (h : s.Sound) : s.markGroups.Sound :=
  foldl_sound (fun _ _ hs => State.modTruss_sound hs ..) _ h

theorem State.keepQueues_sound {s : State} (h : s.Sound) (vd : Nat) (cl : BitVec 24) : (s.keepQueues vd cl).Sound := by
  unfold State.keepQueues
  split
  · exact h
  · exact foldl_sound (fun _ _ hs => State.keepMessages_sound hs ..) _ h

theorem State.planSwitch_sound {s : State} (h : s.Sound) (set old new : Nat) : (s.planSwitch set old new).Sound := by
  unfold State.planSwitch
  dsimp only
  refine State.markGroups_sound (foldl_sound (fun s core hs => ?_) _ (State.keepQueues_sound h ..))
  split
  · exact hs
  · split <;> exact hs

theorem State.captureSwitch_sound {s : State} (h : s.Sound) (set : Nat) (old new : Option (Fin 512)) : (s.captureSwitch set old new).Sound := by
  unfold State.captureSwitch
  (repeat' split) <;> apply_rules [h, State.capture_sound]

theorem State.select_sound {s : State} (h : s.Sound) (set : Nat) (old : Option (Fin 512)) : (s.select set old).1.Sound := by
  unfold State.select
  dsimp only
  (repeat' split) <;> apply_rules [h]

theorem State.boundary_sound {s : State} (h : s.Sound) (set : Nat) : (s.boundary set).Sound := by
  unfold State.boundary
  extract_lets old s1 s2 excl put
  clear_value old
  have h1 : s1.Sound := by
    unfold s1
    split
    · exact State.chargeSlice_sound h _
    · exact h
  have h2 : s2.Sound := State.setFloor_sound (State.noteSet_sound h1 _) _
  split
  next s3 sel hp =>
  have h3 : s3.Sound := by
    refine sound_of_fst hp ?_
    split
    · exact h2
    · exact State.select_sound h2 ..
  have hput : ∀ {u : State} (f : ClSet → ClSet), u.Sound → (put u f).Sound := fun _ hu => hu.parts
  clear_value put
  split
  · exact hput _ h3
  · next v _ =>
    extract_lets nv s4 s5
    have h4 : s4.Sound := State.captureSwitch_sound h3 ..
    have h5 : s5.Sound := by
      unfold s5
      split
      · exact State.planSwitch_sound h4 ..
      · exact h4
    split
    · exact hput _ h3
    · exact hput _ h5

theorem sliceStep_sound {s : State} (h : s.Sound) (set : Fin 32) : (sliceStep s set).Sound := by
  unfold sliceStep
  dsimp only
  split
  · exact h
  · have hn := State.noteSet_sound h set
    split
    · split <;> exact hn
    · split
      · exact State.boundary_sound hn _
      · exact State.boundary_sound (State.advanceTo_sound hn _) _
    · split
      · exact State.boundary_sound hn _
      · exact hn

theorem execSliceBoundary_sound {s : State} (h : s.Sound) (set : Fin 32) : (execSliceBoundary set s).Sound := sliceStep_sound h ..

end Sys2Proof.Machine
end

section
/-!
PROOFS. What every step keeps: queues and their packets, rollback, and fabric transfers.
-/
namespace Sys2Proof.Machine
variable [Asked]

theorem kickStep_sound {s : State} (h : s.Sound) (vd j : Nat) (t : W32) : (kickStep s vd j t).Sound := by
  unfold kickStep
  dsimp only
  (repeat' split) <;> apply_rules [h, State.haltQueue_sound, State.modQcb_sound]

theorem execKickWrite_sound {s : State} (h : s.Sound) (vd j : Fin 512) (tail : W32) : (execKickWrite vd j tail s).Sound := kickStep_sound h ..

theorem State.unitPlaces_sound {s : State} (h : s.Sound) (b : Qcb) (u : W32) (n : Nat) : (s.unitPlaces b u n).1.Sound := by
  induction n generalizing s u with
  | zero => exact h
  | succ n ih =>
    unfold State.unitPlaces
    have hr := State.reach_sound h b.agent b.vd (b.unitAt u) ⟨true, false, true⟩
    dsimp only
    split
    · exact hr
    · split
      · exact hr
      · split
        · next ht => exact sound_of_fst ht (ih hr _)
        · next ht => exact sound_of_fst ht (ih hr _)

theorem State.putUnits_sound {s : State} (h : s.Sound) (b : Qcb) (u : W32) (xs : List (List Byte)) : (s.putUnits b u xs).1.Sound := by
  unfold State.putUnits
  have hp := State.unitPlaces_sound h b u xs.length
  split
  · next ht => exact sound_of_fst ht hp
  · next ht =>
    refine foldl_sound (fun s x hs => ?_) _ (sound_of_fst ht hp)
    exact State.putBank_sound hs _ _ _ _ fun hm => writeBytes_wf (bank_sound hs _ hm) ..

theorem State.complete_sound {s : State} (h : s.Sound) (c : Completion) : (s.complete c).Sound := h

theorem State.wakeFor_sound {s : State} (h : s.Sound) (b : Qcb) : (s.wakeFor b).Sound := h

theorem submitStep_sound {s : State} (h : s.Sound) (vd j : Nat) (posted : Bool) (off : Nat) (data : List Byte) :
    (submitStep s vd j posted off data).Sound := by
  unfold submitStep
  split
  · exact h
  · split
    · exact h
    · dsimp only
      split
      · exact h
      · next b _ =>
        split
        · exact h
        · split
          · exact h
          · have hp := State.putUnits_sound h b b.tail (pieces 32 4 data)
            split
            · next ht => exact State.complete_sound (State.wakeFor_sound (State.modQcb_sound (sound_of_fst ht hp) ..) _) _
            · next ht => exact State.complete_sound (State.haltQueue_sound (sound_of_fst ht hp) ..) _
            · next ht => exact State.complete_sound (sound_of_fst ht hp) _

theorem execSubmissionWrite_sound {s : State} (h : s.Sound) (vd j : Fin 512) (posted : Bool) (off : Nat) (data : List Byte) :
    (execSubmissionWrite vd j posted off data s).Sound := submitStep_sound h ..

theorem State.queueRead_sound {s : State} (h : s.Sound) (b : Qcb) (va n : Nat) : (s.queueRead b va n).1.Sound := by
  unfold State.queueRead
  dsimp only
  (repeat' split) <;> apply_rules [h, State.reach_sound, State.touchRange_sound]

theorem State.queueAcquire_sound {s : State} (h : s.Sound) (b : Qcb) (va n : Nat) : (s.queueAcquire b va n).1.Sound := by
  unfold State.queueAcquire
  dsimp only
  (repeat' split) <;> apply_rules [h, State.reach_sound, State.queueRead_sound]

theorem State.queueWrite_sound {s : State} (h : s.Sound) (b : Qcb) (va : Nat) (data : List Byte) : (s.queueWrite b va data).1.Sound := by
  unfold State.queueWrite
  split
  · exact h
  · have hr := State.reach_sound h b.agent b.vd va ⟨true, false, true⟩
    dsimp only
    split
    · split
      · exact hr
      · exact State.putBank_sound hr _ _ _ _ fun hm => writeBytes_wf (bank_sound hr _ hm) ..
    · exact hr

theorem State.fetchFault_sound {s : State} (h : s.Sound) (blk : Nat) (seq : W32) (ph : Phase) : (s.fetchFault blk seq ph).Sound := by
  unfold State.fetchFault
  split <;> apply_rules [h, State.haltQueue_sound, State.modQcb_sound]

theorem State.getUnits_sound {s : State} (h : s.Sound) (b : Qcb) (u : W32) (n : Nat) : (s.getUnits b u n).1.Sound := by
  induction n generalizing s u with
  | zero => exact h
  | succ n ih =>
    unfold State.getUnits
    have hr := State.queueRead_sound h b (b.unitAt u) 32
    split
    · next ht => exact sound_of_fst ht hr
    · next ht =>
      have hs := ih (sound_of_fst ht hr) (u + 1)
      split
      · next hu => exact sound_of_fst hu hs
      · next hu => exact sound_of_fst hu hs

theorem State.haltRing_sound {s : State} (h : s.Sound) (blk : Nat) (seq : W32) :
    (s.haltRing blk seq).Sound := State.haltQueue_sound (State.modQcb_sound h ..) ..

theorem fetchPacket_sound {s : State} (h : s.Sound) (blk : Nat) : (fetchPacket s blk).Sound := by
  unfold fetchPacket
  split
  · exact h
  · dsimp only
    split
    · exact h
    · split
      · exact State.haltRing_sound h ..
      · split
        · next ht => exact State.fetchFault_sound (sound_of_fst ht (State.getUnits_sound h ..)) ..
        · next ht =>
          have hs := sound_of_fst ht (State.getUnits_sound h ..)
          split
          · exact hs
          · split
            · next hu => exact State.fetchFault_sound (sound_of_fst hu (State.getUnits_sound hs ..)) ..
            · next hu => exact State.modQcb_sound (sound_of_fst hu (State.getUnits_sound hs ..)) ..

theorem execPacketFetch_sound {s : State} (h : s.Sound) (blk : Nat) : (execPacketFetch blk s).Sound := by
  unfold execPacketFetch
  (repeat' split) <;> apply_rules [h, fetchPacket_sound]

theorem State.digestPacket_sound {s : State} (h : s.Sound) (b : Qcb) (blk : Nat) (p : List Byte) : (s.digestPacket b blk p).1.Sound := by
  unfold State.digestPacket
  (repeat' split) <;> apply_rules [h, State.compareDigest_sound, State.captureDigest_sound, sound_of_fst]

theorem State.digested_sound {s : State} (h : s.Sound) (b : Qcb) (blk : Nat) (p : List Byte) {issue_ : State → State}
    (hi : ∀ s : State, s.Sound → (issue_ s).Sound) : (s.digested b blk p issue_).Sound := by
  unfold State.digested
  have hd := State.digestPacket_sound h b blk p
  split
  · next ht => exact State.haltQueue_sound (sound_of_fst ht hd) ..
  · next ht => exact hi _ (sound_of_fst ht hd)

/-- The state that the issue of a packet comes to. -/
def Issued.Sound : Issued → Prop
  | .ok s _ | .halt s _ | .wait s _ => s.Sound

theorem Issued.Sound.of_ok {i : Issued} (h : i.Sound) {s : State} {st : Inflight} (e : i = .ok s st) : s.Sound := by subst e; exact h
theorem Issued.Sound.of_halt {i : Issued} (h : i.Sound) {s : State} {err : BitVec 8} (e : i = .halt s err) : s.Sound := by subst e; exact h
theorem Issued.Sound.of_wait {i : Issued} (h : i.Sound) {s : State} {ph : Phase} (e : i = .wait s ph) : s.Sound := by subst e; exact h

theorem Issued.of_sound {s : State} (h : s.Sound) (ph : Phase) : (Issued.of s ph).Sound := by
  unfold Issued.of
  split <;> exact h

/-- A packet keeps it when what it does keeps it. -/
theorem State.issuePacket_sound {s : State} (h : s.Sound) (blk : Nat) (mine : List Byte → Bool) {f : State → Qcb → List Byte → Issued}
    (hf : ∀ (s : State) b p, s.Sound → (f s b p).Sound) : (s.issuePacket blk mine f).Sound := by
  unfold State.issuePacket
  split
  · exact h
  · split
    · exact h
    · split
      · exact h
      · split
        · exact State.haltRing_sound h ..
        · split
          · next ht => exact State.fetchFault_sound (sound_of_fst ht (State.queueRead_sound h ..)) ..
          · next ht =>
            have hs := sound_of_fst ht (State.queueRead_sound h ..)
            split
            · exact State.modQcb_sound hs ..
            · split
              · exact State.haltQueue_sound hs ..
              · split
                · exact State.digested_sound hs _ _ _ fun s h => State.modQcb_sound h ..
                · split
                  · exact State.digested_sound hs _ _ _ fun s h => State.haltQueue_sound (State.modQcb_sound h ..) ..
                  · split
                    · next hw => exact State.modQcb_sound ((hf _ _ _ hs).of_wait hw) ..
                    · refine State.digested_sound hs _ _ _ fun s h => ?_
                      split
                      · next hw => exact State.modQcb_sound ((hf _ _ _ h).of_ok hw) ..
                      · next hw => exact State.haltQueue_sound (State.modQcb_sound ((hf _ _ _ h).of_halt hw) ..) ..
                      · next hw => exact State.modQcb_sound ((hf _ _ _ h).of_wait hw) ..

theorem State.firmware_sound {s : State} (h : s.Sound) (blk : Nat) {f : State → Nat → State} (hf : (f s blk).Sound) :
    (s.firmware blk f).Sound := by
  unfold State.firmware
  split
  · split
    · exact h
    · exact hf
  · exact h

theorem issueNop_sound {s : State} (h : s.Sound) (blk : Nat) : (issueNop s blk).Sound := State.issuePacket_sound h _ _ fun _ _ _ h => h

theorem execPacketNop_sound {s : State} (h : s.Sound) (blk : Nat) : (execPacketNop blk s).Sound :=
  State.firmware_sound h _ (issueNop_sound h _)

theorem issueLaunch_sound {s : State} (h : s.Sound) (blk : Nat) : (issueLaunch s blk).Sound :=
  State.issuePacket_sound h _ _ fun _ _ _ h => h.parts

theorem execPacketLaunch_sound {s : State} (h : s.Sound) (blk : Nat) : (execPacketLaunch blk s).Sound :=
  State.firmware_sound h _ (issueLaunch_sound h _)

theorem State.queueProm_sound {s : State} (h : s.Sound) (blk : Nat) (b : Qcb) (op : POp) (va : Nat) (rel : Bool) (acq : Option Scope) :
    (s.queueProm blk b op va rel acq).1.Sound := h.parts

theorem issueWaitPromise_sound {s : State} (h : s.Sound) (blk : Nat) : (issueWaitPromise s blk).Sound :=
  State.issuePacket_sound h _ _ fun s b p h => by
    split
    · exact h
    · exact State.modQcb_sound (State.queueProm_sound h ..) ..

theorem execPacketWaitPromise_sound {s : State} (h : s.Sound) (blk : Nat) : (execPacketWaitPromise blk s).Sound :=
  State.firmware_sound h _ (issueWaitPromise_sound h _)

theorem issueWaitMemory_sound {s : State} (h : s.Sound) (blk : Nat) : (issueWaitMemory s blk).Sound :=
  State.issuePacket_sound h _ _ fun _ _ _ h => State.modQcb_sound h ..

theorem execPacketWaitMemory_sound {s : State} (h : s.Sound) (blk : Nat) : (execPacketWaitMemory blk s).Sound :=
  State.firmware_sound h _ (issueWaitMemory_sound h _)

theorem pollStep_sound {s : State} (h : s.Sound) (blk : Nat) : (pollStep s blk).Sound := by
  unfold pollStep
  split
  · exact h
  · split
    · exact h
    · split
      · exact h
      · extract_lets s1 go read
        have h1 : s1.Sound := State.advanceTo_sound h _
        have hgo : ∀ u : State, u.Sound → (go u).Sound := fun u hu => State.modQcb_sound hu ..
        have hread : read.1.Sound := by
          unfold read
          split
          · exact h1
          · exact State.queueAcquire_sound h1 ..
        clear_value go read
        split
        · next => exact State.haltQueue_sound (hgo _ hread) ..
        · next => exact State.modQcb_sound hread ..
        · dsimp only
          split
          · exact hgo _ (State.takenValue_sound hread ..)
          · split
            · exact hgo _ (State.takenValue_sound hread ..)
            · exact State.modQcb_sound hread ..

theorem execWaitPoll_sound {s : State} (h : s.Sound) (blk : Nat) : (execWaitPoll blk s).Sound := pollStep_sound h ..

theorem issueSignalFill_sound {s : State} (h : s.Sound) (blk : Nat) : (issueSignalFill s blk).Sound :=
  State.issuePacket_sound h _ _ fun s b p h => by
    split
    · exact h
    · exact State.queueProm_sound h ..

theorem execPacketSignalFill_sound {s : State} (h : s.Sound) (blk : Nat) : (execPacketSignalFill blk s).Sound :=
  State.firmware_sound h _ (issueSignalFill_sound h _)

theorem issueSignalStore_sound {s : State} (h : s.Sound) (blk : Nat) : (issueSignalStore s blk).Sound :=
  State.issuePacket_sound h _ _ fun s b p h => by
    split
    · next ht => exact sound_of_fst ht (State.queueWrite_sound h ..)
    · next ht => exact Issued.of_sound (sound_of_fst ht (State.queueWrite_sound h ..)) _

theorem execPacketSignalStore_sound {s : State} (h : s.Sound) (blk : Nat) : (execPacketSignalStore blk s).Sound :=
  State.firmware_sound h _ (issueSignalStore_sound h _)

theorem issueSignalInterrupt_sound {s : State} (h : s.Sound) (blk : Nat) : (issueSignalInterrupt s blk).Sound :=
  State.issuePacket_sound h _ _ fun _ _ _ h => State.interrupt_sound h _

theorem execPacketSignalInterrupt_sound {s : State} (h : s.Sound) (blk : Nat) : (execPacketSignalInterrupt blk s).Sound :=
  State.firmware_sound h _ (issueSignalInterrupt_sound h _)

theorem issueCond_sound {s : State} (h : s.Sound) (blk : Nat) : (issueCond s blk).Sound :=
  State.issuePacket_sound h _ _ fun s b p h => by
    split
    · next ht => exact Issued.of_sound (sound_of_fst ht (State.queueAcquire_sound h ..)) _
    · next ht =>
      have hs := State.takenValue_sound (sound_of_fst ht (State.queueAcquire_sound h ..))
      dsimp only
      split
      · exact State.modQcb_sound (hs ..) ..
      · exact hs ..

theorem execPacketCond_sound {s : State} (h : s.Sound) (blk : Nat) : (execPacketCond blk s).Sound :=
  State.firmware_sound h _ (issueCond_sound h _)

theorem State.moveBytes_sound {s : State} (h : s.Sound) (b : Qcb) (src dst n : Nat) : (s.moveBytes b src dst n).1.Sound := by
  unfold State.moveBytes
  split
  · exact h
  · have hr := State.reach_sound h b.agent b.vd src ⟨false, false, true⟩
    dsimp only
    split
    · exact hr
    · have hq := State.reach_sound hr b.agent b.vd dst ⟨true, false, true⟩
      split
      · exact hq
      · split
        · exact hq
        · refine State.putBank_sound ?_ _ _ _ _ fun hm => writeBytes_wf (bank_sound hq _ hm) ..
          split
          · exact hq
          · exact State.touchRange_sound hq ..

theorem State.copyStep_sound {s : State} (h : s.Sound) (blk : Nat) (b : Qcb) (p : Packet) (src dst len at_ : Nat) :
    (s.copyStep blk b p src dst len at_).Sound := by
  unfold State.copyStep
  dsimp only
  (repeat' split) <;> apply_rules [h, State.modQcb_sound, State.haltQueue_sound, State.moveBytes_sound, sound_of_fst]

theorem issueCopy_sound {s : State} (h : s.Sound) (blk : Nat) : (issueCopy s blk).Sound :=
  State.issuePacket_sound h _ _ fun s b p h => by
    dsimp only
    split
    · exact State.captureDigest_sound h ..
    · split
      · have hd := State.compareDigest_sound h b.vd 5 blk (pkSeq p) (s.copySource b (pkWord p 16) (pkWord p 32))
        split
        · next ht => exact sound_of_fst ht hd
        · next ht => exact sound_of_fst ht hd
      · exact h

theorem stepCopy_sound {s : State} (h : s.Sound) (blk : Nat) : (stepCopy s blk).Sound := by
  unfold stepCopy
  split
  · exact h
  · next b _ =>
    extract_lets run next_
    have hall : ∀ f ∈ run ++ next_, (f s).Sound := by
      intro f hf
      rcases List.mem_append.mp hf with hf | hf
      · obtain ⟨⟨p, a, c, n, i⟩, -, rfl⟩ := List.mem_map.mp hf
        exact State.copyStep_sound h ..
      · unfold next_ at hf
        split at hf
        · obtain rfl := List.mem_singleton.mp hf
          exact issueCopy_sound h _
        · cases hf
    split
    · next f he => exact hall f (he ▸ List.mem_singleton_self f)
    · split
      · next f hf => exact hall f (List.mem_of_getElem? hf)
      · exact h

theorem execPacketCopy_sound {s : State} (h : s.Sound) (blk : Nat) : (execPacketCopy blk s).Sound := stepCopy_sound h ..

theorem issueFence_sound {s : State} (h : s.Sound) (blk : Nat) : (issueFence s blk).Sound := State.issuePacket_sound h _ _ fun _ _ _ h => h

theorem execPacketFence_sound {s : State} (h : s.Sound) (blk : Nat) : (execPacketFence blk s).Sound :=
  State.firmware_sound h _ (issueFence_sound h _)

theorem execPacketRetire_sound {s : State} (h : s.Sound) (blk : Nat) : (execPacketRetire blk s).Sound := State.modQcb_sound h ..

theorem State.discard_sound {s : State} (h : s.Sound) : s.discard.Sound := h

theorem reportStep_sound {s : State} (h : s.Sound) (blk : Nat) : (reportStep s blk).Sound := by
  unfold reportStep
  split
  · exact h
  · next b _ =>
    extract_lets done
    have hdone : ∀ u : State, u.Sound → (done u).Sound := fun u hu => State.modQcb_sound hu ..
    clear_value done
    split
    · exact h
    · split
      · exact hdone _ h
      · split
        · exact State.discard_sound (hdone _ h)
        · have hw := State.queueWrite_sound h b b.hmir (natBytes 4 b.retire.toNat)
          split
          · next ht => exact hdone _ (sound_of_fst ht hw)
          · next ht => exact State.discard_sound (hdone _ (sound_of_fst ht hw))
          · next ht => exact State.modQcb_sound (sound_of_fst ht hw) ..

theorem execRetireReport_sound {s : State} (h : s.Sound) (blk : Nat) : (execRetireReport blk s).Sound := reportStep_sound h ..

theorem State.unmapQueue_sound {s : State} (h : s.Sound) (blk : Nat) : (s.unmapQueue blk).Sound := by
  unfold State.unmapQueue
  split <;> apply_rules [h, State.modQcb_sound]

theorem State.mapQueue_sound {s : State} (h : s.Sound) (blk : Nat) (n : Fin 256) : (s.mapQueue blk n).Sound := State.modQcb_sound h ..

theorem unmapStep_sound {s : State} (h : s.Sound) (blk : Nat) : (unmapStep s blk).Sound := by
  unfold unmapStep
  (repeat' split) <;> apply_rules [h, State.unmapQueue_sound]

theorem execQueueUnmap_sound {s : State} (h : s.Sound) (blk : Nat) : (execQueueUnmap blk s).Sound := unmapStep_sound h ..

theorem State.tryMap_sound {s : State} (h : s.Sound) (blk : Nat) : (s.tryMap blk).Sound := by
  unfold State.tryMap
  dsimp only
  (repeat' split) <;> apply_rules [h, State.unmapQueue_sound, State.mapQueue_sound]

theorem State.mapQueues_sound {s : State} (h : s.Sound) : s.mapQueues.Sound :=
  foldl_sound (fun _ _ hs => State.noteSet_sound hs _) _ (foldl_sound (fun _ _ hs => State.tryMap_sound hs _) _ h)

theorem mapPass_sound {s : State} (h : s.Sound) : (mapPass s).Sound := by
  unfold mapPass
  split
  · apply State.mapQueues_sound; exact h.parts
  · apply State.mapQueues_sound; exact (State.advanceTo_sound h _).parts

theorem execQueueSchedulerPass_sound {s : State} (h : s.Sound) : (execQueueSchedulerPass s).Sound := mapPass_sound h ..

theorem State.setFallback_sound {s : State} (h : s.Sound) (qp : Fin 8) (on : Bool) : (s.setFallback qp on).Sound := by
  unfold State.setFallback
  split <;> apply_rules [h, State.postEvent_sound]

theorem execHeartbeatMiss_sound {s : State} (h : s.Sound) (qp : Fin 8) : (execHeartbeatMiss qp s).Sound := State.setFallback_sound h ..

theorem execFirmwareRunningAgain_sound {s : State} (h : s.Sound) (qp : Fin 8) :
    (execFirmwareRunningAgain qp s).Sound := State.setFallback_sound h ..

theorem visitStep_sound {s : State} (h : s.Sound) (qp : Fin 8) (slot : Fin 32) : (visitStep s qp slot).Sound := by
  unfold visitStep
  split
  · exact h
  · extract_lets s1
    have h1 : s1.Sound := h.parts
    clear_value s1
    split
    · exact h1
    · split
      · exact fetchPacket_sound h1 _
      · (repeat' split) <;>
          apply_rules [h1, issueLaunch_sound, issueWaitPromise_sound, issueSignalFill_sound, issueSignalStore_sound, issueSignalInterrupt_sound,
            issueNop_sound]

theorem execFallbackVisit_sound {s : State} (h : s.Sound) (qp : Fin 8) (slot : Fin 32) : (execFallbackVisit qp slot s).Sound := visitStep_sound h ..

theorem State.atBoundary_sound {s : State} (h : s.Sound) (c : CRef) : ∀ t, s.atBoundary c = some t → t.1.Sound := by
  intro t ht
  unfold State.atBoundary at ht
  split at ht
  · dsimp only at ht
    split at ht
    · cases ht; exact h
    · cases ht
  · cases ht

theorem asyncTrap_sound {s : State} (h : s.Sound) (c : CRef) : (asyncTrap s c).Sound := by
  unfold asyncTrap
  split
  · next ht =>
    have hs := State.atBoundary_sound h _ _ ht
    split
    · exact trapEntry_sound (State.modCourse_sound hs ..) ..
    · split
      · exact hs
      · split
        · exact trapEntry_sound (State.modCourse_sound hs ..) ..
        · exact hs
  · exact h

theorem execAsyncTrapTaken_sound {s : State} (h : s.Sound) (c : CRef) : (execAsyncTrapTaken c s).Sound := asyncTrap_sound h ..

theorem State.strikeCourse_sound {s : State} (h : s.Sound) (c : CRef) (guarded : Bool) : (s.strikeCourse c guarded).Sound := by
  unfold State.strikeCourse
  split
  · exact h
  · split
    · exact State.modCourse_sound (foldl_sound (fun _ _ hs => State.dropHeld_sound hs ..) _ h) ..
    · exact State.killCourse_sound h ..

theorem State.strikeTiles_sound {s : State} (h : s.Sound) (core : Nat) : (s.strikeTiles core).Sound := h

theorem strike_sound {s : State} (h : s.Sound) (core : Nat) (zone : Fin 5) : (strike s core zone).Sound := by
  unfold strike
  extract_lets hits s1 s2 s3 s4
  have h1 : s1.Sound := h
  have h2 : s2.Sound := State.postEvent_sound h1 ..
  have h3 : s3.Sound := h2.parts
  refine foldl_sound (fun _ _ hs => State.strikeCourse_sound hs ..) _ ?_
  unfold s4
  split
  · exact State.strikeTiles_sound h3 _
  · exact h3

theorem execStrikeReport_sound {s : State} (h : s.Sound) (core : Nat) (zone : Fin 5) : (execStrikeReport core zone s).Sound := by
  unfold execStrikeReport
  split <;> apply_rules [h, strike_sound]

theorem State.drainTokens_sound {s : State} (h : s.Sound) (c : CRef) (vd : Nat) : (s.drainTokens c vd).Sound := by
  unfold State.drainTokens
  split
  · exact h
  · refine foldl_sound (fun s o hs => ?_) _ h
    (repeat' split) <;> apply_rules [hs, tokenFall_sound, State.discardOp_sound]

theorem rollback_sound {s : State} (h : s.Sound) (c : CRef) : (rollback s c).Sound := by
  unfold rollback
  split
  · next s1 t k ht =>
    have hs := State.atBoundary_sound h _ _ ht
    dsimp only at hs
    split
    · exact hs
    · split
      · exact State.killCourse_sound hs ..
      · split
        · (repeat' split) <;> apply_rules [hs, State.dropHeld_sound, State.releaseHeld_sound]
        · split
          · exact hs
          · have hd := State.drainTokens_sound hs c t.vd
            dsimp only
            (repeat' split) <;> exact hd
  · exact h

theorem execRegionRollback_sound {s : State} (h : s.Sound) (c : CRef) : (execRegionRollback c s).Sound := rollback_sound h ..

theorem State.answer_sound {s : State} (h : s.Sound) (i : Inbound) (st : BitVec 8) : (s.answer i st).Sound := by
  unfold State.answer
  split <;> apply_rules [h, State.sendDone_sound]

theorem State.servePut_sound {s : State} (h : s.Sound) (i : Inbound) : (s.servePut i).Sound := by
  unfold State.servePut
  dsimp only
  (repeat' split) <;> apply_rules [h, State.answer_sound, State.writeRun_sound]

theorem State.serveGetReq_sound {s : State} (h : s.Sound) (i : Inbound) : (s.serveGetReq i).Sound := by
  unfold State.serveGetReq
  dsimp only
  (repeat' split) <;> apply_rules [h, State.answer_sound, State.readRun_sound, State.sendTransfer_sound]

theorem State.faultOutgoing_sound {s : State} (h : s.Sound) (o : Outgoing) (h : Halted) : (s.faultOutgoing o h).Sound := by
  unfold State.faultOutgoing
  dsimp only
  split <;> apply_rules [h]

theorem State.passOn_sound {s : State} (h : s.Sound) (o : Outgoing) (i : Inbound) (dst : BitVec 16) : (s.passOn o i dst).Sound := by
  unfold State.passOn
  apply_rules [h, State.sendTransfer_sound]

theorem State.serveGetData_sound {s : State} (h : s.Sound) (i : Inbound) : (s.serveGetData i).Sound := by
  unfold State.serveGetData
  dsimp only
  (repeat' split) <;> apply_rules [h, State.passOn_sound, State.writeRun_sound, State.faultOutgoing_sound, State.endOutgoing_sound]

theorem State.matchMsg_sound {s : State} (h : s.Sound) (i : Inbound) : (s.matchMsg i).Sound := by
  unfold State.matchMsg
  dsimp only
  (repeat' split) <;> apply_rules [h, State.answer_sound, State.modVdev_sound]

theorem State.setInbound_sound {s : State} (h : s.Sound) (i : Inbound) : (s.setInbound i).Sound := h

theorem State.deliverMsg_sound {s : State} (h : s.Sound) (i : Inbound) (r : Recv) : (s.deliverMsg i r).Sound := by
  unfold State.deliverMsg
  extract_lets x vd len got w src fail
  have hfail : ∀ (u : State) i st c d va, u.Sound → (fail u i st c d va).Sound := fun u i st c d va hu =>
    State.answer_sound (State.modCourse_sound hu ..) ..
  clear_value fail
  split
  next s1 n bad stop ht =>
  have h1 := sound_of_fst ht (State.writeRun_sound h ..)
  dsimp only
  split
  · exact hfail _ _ _ _ _ _ h1
  · exact State.setInbound_sound h1 _
  · split
    · exact hfail _ _ _ _ _ _ (State.writeRun_sound h1 ..)
    · exact State.setInbound_sound (State.writeRun_sound h1 ..) _
    · exact State.answer_sound (State.modCourse_sound (State.writeRun_sound h1 ..) ..) ..

theorem State.serveMsg_sound {s : State} (h : s.Sound) (i : Inbound) : (s.serveMsg i).Sound := by
  unfold State.serveMsg
  (repeat' split) <;> apply_rules [h, State.deliverMsg_sound, State.matchMsg_sound, State.answer_sound]

theorem State.endContribs_sound {s : State} (h : s.Sound) (g : Nat) :
    (s.endContribs g).Sound := foldl_sound (fun _ _ h => State.sendDone_sound h ..) _ h

theorem State.consume_sound {s : State} (h : s.Sound) (g chunk e : Nat) (cs : List Contribution) (st : BitVec 8) :
    (s.consume g chunk e cs st).Sound := by
  unfold State.consume
  apply_rules [h, State.endContribs_sound]

theorem State.sumRun_sound {s : State} (h : s.Sound) (w : Vector W64 8) (g fuel : Nat) : (s.sumRun w g fuel).1.Sound := by
  induction fuel generalizing s with
  | zero => exact h
  | succ n ih =>
    unfold State.sumRun
    split
    · exact h
    · dsimp only
      split <;> next ht =>
        have hs := sound_of_fst ht (State.writeRun_sound h ..)
        apply_rules [hs, ih, State.consume_sound]

theorem State.poolChunks_sound {s : State} (h : s.Sound) (x : Transfer) (g : Nat) (cs : List Contribution) (more : Bool) :
    (s.poolChunks x g cs more).Sound := h

theorem State.dropInbound_sound {s : State} (h : s.Sound) (i : Inbound) : (s.dropInbound i).Sound := h

theorem State.serveContrib_sound {s : State} (h : s.Sound) (i : Inbound) : (s.serveContrib i).Sound := by
  unfold State.serveContrib
  extract_lets x g w absent come cs new opens over_ s1 j s2
  have hr := State.returnOwed_sound h i
  have h1 : s1.Sound := by
    unfold s1
    split
    · exact h
    · exact hr
  have h2 : s2.Sound := State.endContribs_sound (State.setInbound_sound (State.poolChunks_sound h1 ..) _) _
  clear_value s1 s2
  split
  · exact State.answer_sound hr ..
  · split
    · exact State.sendTransfer_sound (State.dropInbound_sound hr _) ..
    · split
      · exact State.answer_sound (State.returnOwed_sound (State.freeGroup_sound h _) _) ..
      · split
        · next ht => exact State.setInbound_sound (sound_of_fst ht (State.sumRun_sound h2 ..)) _
        · next ht =>
          have hs := sound_of_fst ht (State.sumRun_sound h2 ..)
          split
          · exact State.dropInbound_sound hs _
          · exact hs

theorem State.serveLReq_sound {s : State} (h : s.Sound) (i : Inbound) : (s.serveLReq i).Sound := by
  unfold State.serveLReq
  dsimp only
  (repeat' split) <;> apply_rules [h, State.sendTransfer_sound, State.answer_sound, State.readRun_sound]

theorem State.gatherRun_sound {s : State} (h : s.Sound) (o : Outgoing) (w : Vector W64 8) (gt : Gather) (fuel : Nat) :
    (s.gatherRun o w gt fuel).1.Sound := by
  induction fuel generalizing s gt with
  | zero => exact h
  | succ n ih =>
    unfold State.gatherRun
    split
    · exact h
    · dsimp only
      split <;> next ht =>
        have hs := sound_of_fst ht (State.writeRun_sound h ..)
        apply_rules [hs, ih]

theorem State.serveLData_sound {s : State} (h : s.Sound) (i : Inbound) : (s.serveLData i).Sound := by
  unfold State.serveLData
  extract_lets x put
  have hput : ∀ (u : State) g, u.Sound → (put u g).Sound := fun _ _ hu => hu.parts
  clear_value put
  split
  · split
    · exact h
    · split
      · exact State.endOutgoing_sound (State.dropInbound_sound h _) ..
      · extract_lets w free gt
        split
        · exact hput _ _ (State.dropInbound_sound h _)
        · have hg := fun o => State.gatherRun_sound h o w gt gt.cnt
          split
          · next ht => exact State.faultOutgoing_sound (State.dropInbound_sound (sound_of_fst ht (hg _)) _) ..
          · next ht => exact State.setInbound_sound (hput _ _ (sound_of_fst ht (hg _))) _
          · next ht => exact State.endOutgoing_sound (State.dropInbound_sound (sound_of_fst ht (hg _)) _) ..
  · exact State.dropInbound_sound h _

theorem State.serveDone_sound {s : State} (h : s.Sound) (i : Inbound) : (s.serveDone i).Sound := by
  unfold State.serveDone
  dsimp only
  (repeat' split) <;> apply_rules [h, State.endOutgoing_sound]

theorem State.serveAbsent_sound {s : State} (h : s.Sound) (i : Inbound) : (s.serveAbsent i).Sound := by
  unfold State.serveAbsent
  split <;> apply_rules [h, State.endOutgoing_sound]

theorem State.serve_sound {s : State} (h : s.Sound) (i : Inbound) : (s.serve i).Sound := by
  unfold State.serve
  split <;> apply_rules [h, State.servePut_sound, State.serveGetReq_sound, State.serveGetData_sound, State.serveMsg_sound, State.serveContrib_sound, State.serveLReq_sound, State.serveLData_sound, State.serveDone_sound, State.serveAbsent_sound]

theorem transferStep_sound {s : State} (h : s.Sound) (kind : XKind) (x : Transfer) : (transferStep s kind x).Sound := by
  unfold transferStep
  dsimp only
  (repeat' split) <;> apply_rules [h, State.serve_sound]

theorem execPut_sound {s : State} (h : s.Sound) (x : Transfer) : (execPut x s).Sound := transferStep_sound h ..

theorem execGetreq_sound {s : State} (h : s.Sound) (x : Transfer) : (execGetreq x s).Sound := transferStep_sound h ..

theorem execGetdata_sound {s : State} (h : s.Sound) (x : Transfer) : (execGetdata x s).Sound := transferStep_sound h ..

theorem execMsg_sound {s : State} (h : s.Sound) (x : Transfer) : (execMsg x s).Sound := transferStep_sound h ..

theorem execContrib_sound {s : State} (h : s.Sound) (x : Transfer) : (execContrib x s).Sound := transferStep_sound h ..

theorem execLreq_sound {s : State} (h : s.Sound) (x : Transfer) : (execLreq x s).Sound := transferStep_sound h ..

theorem execLdata_sound {s : State} (h : s.Sound) (x : Transfer) : (execLdata x s).Sound := transferStep_sound h ..

theorem execDone_sound {s : State} (h : s.Sound) (x : Transfer) : (execDone x s).Sound := transferStep_sound h ..

theorem execAbsent_sound {s : State} (h : s.Sound) (x : Transfer) : (execAbsent x s).Sound := transferStep_sound h ..

end Sys2Proof.Machine
end

section
/-!
PROOFS. What every step keeps: kills, paging, and what degrades.
-/
namespace Sys2Proof.Machine
variable [Asked]

theorem State.killAll_sound {s : State} (h : s.Sound) (k : KillScope) (root : Cause) :
    (s.killAll k root).Sound := foldl_sound (fun _ _ h => State.killStep_sound h ..) _ h

theorem State.startKill_sound {s : State} (h : s.Sound) (scope : KillScope) (mailbox : Bool) :
    (s.startKill scope mailbox).Sound := State.killAll_sound h ..

theorem State.killDevice_sound {s : State} (h : s.Sound) (v : Fin 512) (destroy mailbox : Bool) : (s.killDevice v destroy mailbox).Sound := by
  unfold State.killDevice
  apply_rules [h, State.modVdev_sound, State.raiseGen_sound, State.startKill_sound]

theorem State.modKill_sound {s : State} (h : s.Sound) (n : Nat) (f : Kill → Kill) : (s.modKill n f).Sound := h

theorem State.resetWork_sound {s : State} (h : s.Sound) (v : Fin 512) : (s.resetWork v).Sound :=
  State.modKill_sound (State.killDevice_sound h ..) ..

theorem State.destroyWork_sound {s : State} (h : s.Sound) (v : Fin 512) : (s.destroyWork v).Sound := by
  unfold State.destroyWork
  split <;> apply_rules [h, State.killDevice_sound]

theorem State.beginWaiting_sound {s : State} (h : s.Sound) : s.beginWaiting.Sound := by
  unfold State.beginWaiting
  (repeat' split) <;> apply_rules [h, State.killDevice_sound]

theorem State.dropCells_sound {s : State} (h : s.Sound) (v : Nat) : (s.dropCells v).Sound := by
  unfold State.dropCells
  split
  · exact h
  · refine foldl_sound (fun s p hs => ?_) _ h.parts
    split
    · exact hs.parts
    · exact State.promEnd_sound hs ..

theorem State.dropDevice_sound {s : State} (h : s.Sound) (v : Nat) : (s.dropDevice v).Sound := by
  unfold State.dropDevice
  apply_rules [h, State.dropCells_sound]

theorem State.pruneFaults_sound {s : State} (h : s.Sound) : s.pruneFaults.Sound := h

theorem State.drainCore_sound {s : State} (h : s.Sound) (k : Kill) (cs : List CRef) (force : Bool) : (s.drainCore k cs force).1.Sound := by
  unfold State.drainCore
  extract_lets s1 s2 s3 s4 s5
  have h1 : s1.Sound := foldl_sound (fun _ _ hs => State.settle_sound hs _) _ h
  have h2 : s2.Sound := by
    unfold s2
    split
    · exact foldl_sound (fun _ _ hs => State.dropEarly_sound hs ..) _ h1
    · exact h1
  have h3 : s3.Sound := h2.parts
  have h4 : s4.Sound := foldl_sound (fun _ _ hs => State.modCourse_sound hs ..) _ h3
  have h5 : s5.Sound := by
    unfold s5
    split
    · exact State.dropDevice_sound h4 _
    · exact h4
  exact State.pruneFaults_sound h5

theorem State.dropQueue_sound {s : State} (h : s.Sound) (c : CRef) (q : QSel) : (s.dropQueue c q).Sound := by
  unfold State.dropQueue
  split <;> apply_rules [h, State.dropEntries_sound]

theorem State.finishLine_sound {s : State} (h : s.Sound) (tn : Nat) (e : QEntry) (n : Nat) : (s.finishLine tn e n).Sound := by
  induction n generalizing s e with
  | zero => exact h
  | succ n ih =>
    unfold State.finishLine
    split
    · split
      · exact h
      · split
        next ht => exact ih (sound_of_fst ht (State.copyRun_sound h ..)) _
    · exact h

theorem State.drainCopy_sound {s : State} (h : s.Sound) (cs : List CRef) : (s.drainCopy cs).Sound := by
  refine foldl_sound (fun s c hs => State.dropQueue_sound ?_ ..) _ h
  split
  · split
    · exact State.finishLine_sound hs ..
    · exact hs
  · exact hs

theorem State.drainMatrix_sound {s : State} (h : s.Sound) (cs : List CRef) : (s.drainMatrix cs).Sound :=
  foldl_sound (fun _ _ hs => State.dropQueue_sound (State.modTruss_sound hs ..) ..) _ h

theorem State.dropTransfer_sound {s : State} (h : s.Sound) (o : Outgoing) : (s.dropTransfer o).Sound := by
  unfold State.dropTransfer
  dsimp only
  split <;> apply_rules [h, State.dropInbounds_sound, State.freeGroup_sound]

theorem State.drainNetwork_sound {s : State} (h : s.Sound) (cs : List CRef) : (s.drainNetwork cs).Sound := by
  refine foldl_sound (fun s c hs => ?_) _ h
  split
  · exact State.dropQueue_sound (foldl_sound (fun _ _ hs => State.dropTransfer_sound hs _) _ hs) ..
  · exact hs

theorem State.drainMatching_sound {s : State} (h : s.Sound) (k : Kill) (cs : List CRef) : (s.drainMatching k cs).Sound := by
  unfold State.drainMatching
  extract_lets s1
  have h1 : s1.Sound := by
    refine foldl_sound (fun s c hs => ?_) _ h
    split
    · exact State.dropRecvs_sound hs ..
    · exact hs
  split
  · exact h1
  · exact foldl_sound (fun _ _ hs => State.answer_sound hs ..) _ (State.modVdev_sound h1 ..).parts

theorem State.drainPaging_sound {s : State} (h : s.Sound) (k : Kill) : (s.drainPaging k).Sound := by
  unfold State.drainPaging
  split <;> exact h

theorem State.drainQueues_sound {s : State} (h : s.Sound) (k : Kill) : (s.drainQueues k).Sound := by
  unfold State.drainQueues
  split
  · exact h
  · refine foldl_sound (fun s blk hs => ?_) _ h
    split
    · apply State.modQcb_sound
      exact hs.parts
    · exact hs

theorem State.faultLaunch_sound {s : State} (h : s.Sound) (ln : Nat) (destroy : Bool) : (s.faultLaunch ln destroy).Sound := by
  unfold State.faultLaunch
  split
  · exact h
  · extract_lets st s1
    have h1 : s1.Sound := h.parts
    clear_value s1
    split
    · exact State.endLaunch_sound h1 ..
    · split
      · next ht =>
        have hs := sound_of_fst ht (State.translate_sound h1 ..)
        split
        · exact State.endLaunch_sound hs ..
        · exact State.endLaunch_sound (State.putBank_sound hs _ _ _ _ fun hm => writeNat_wf (bank_sound hs _ hm) ..) ..
      · next ht => exact State.endLaunch_sound (sound_of_fst ht (State.translate_sound h1 ..)) ..

theorem State.drainLaunches_sound {s : State} (h : s.Sound) (k : Kill) : (s.drainLaunches k).Sound := by
  unfold State.drainLaunches
  split
  · refine foldl_sound (fun s n hs => ?_) _ h
    (repeat' split) <;> apply_rules [hs, State.faultLaunch_sound]
  · exact h

theorem State.linkFaults_sound {s : State} (h : s.Sound) (cs : List CRef) : (s.linkFaults cs).Sound := by
  refine foldl_sound (fun s c hs => ?_) _ h
  split <;> exact hs

theorem State.drainEngine_sound {s : State} (h : s.Sound) (k : Kill) (eng : Engine) (force : Bool) : (s.drainEngine k eng force).1.Sound := by
  unfold State.drainEngine
  split <;> apply_rules [h, State.drainCore_sound, State.drainCopy_sound, State.drainMatrix_sound, Ctx.network_sound, State.drainNetwork_sound, State.drainQueues_sound, State.drainLaunches_sound, State.drainPaging_sound, State.drainMatching_sound]

theorem State.reported_sound {s : State} (h : s.Sound) (n : Nat) (k : Kill) (eng : Engine) : (s.reported n k eng).Sound := by
  unfold State.reported
  dsimp only
  split <;> apply_rules [h, State.linkFaults_sound]

theorem drainStep_sound {s : State} (h : s.Sound) (eng : Engine) : (drainStep s eng).Sound := by
  unfold drainStep
  dsimp only
  (repeat' split) <;> apply_rules [h, State.beginWaiting_sound, State.drainEngine_sound, State.reported_sound, sound_of_fst]

theorem execKillDrain_sound {s : State} (h : s.Sound) (eng : Engine) : (execKillDrain eng s).Sound := drainStep_sound h ..

theorem State.restartQueue_sound {s : State} (h : s.Sound) (core : Nat) (q : QSel) : (s.restartQueue core q).Sound :=
  foldl_sound (fun _ _ hs => State.modTruss_sound hs ..) _ h

theorem State.restartNetwork_sound {s : State} (h : s.Sound) (core : Nat) : (s.restartNetwork core).Sound :=
  foldl_sound (fun _ _ hs => State.modTruss_sound hs ..) _ h

theorem State.resetCore_sound {s : State} (h : s.Sound) (core : Nat) : (s.resetCore core).Sound := by
  unfold State.resetCore
  extract_lets here s1 s2
  have h1 : s1.Sound := foldl_sound (fun _ _ hs => State.dropEarly_sound hs ..) _ h
  have h2 : s2.Sound := h1.parts
  exact State.modCore_sound (State.invalidateL1_sound h2 _) ..

theorem State.resetEngine_sound {s : State} (h : s.Sound) (n kind : Nat) : (s.resetEngine n kind).Sound := by
  unfold State.resetEngine
  split <;> apply_rules [h, State.resetCore_sound, State.restartQueue_sound, State.restartNetwork_sound]

theorem State.resetNoted_sound {s : State} (h : s.Sound) (n kind : Nat) :
    (s.resetNoted n kind).Sound := State.postEvent_sound (State.resetEngine_sound h ..) ..

theorem timeoutStep_sound {s : State} (h : s.Sound) (eng : Engine) (escalate : Bool) : (timeoutStep s eng escalate).Sound := by
  unfold timeoutStep
  split
  · extract_lets s1 s2 s3
    have h1 : s1.Sound := State.advanceTo_sound h _
    have h2 : s2.Sound := foldl_sound (fun _ _ hs => State.resetNoted_sound hs ..) _ h1
    have h3 : s3.Sound := State.reported_sound (State.drainEngine_sound h2 ..) ..
    (repeat' split) <;> apply_rules [h3, State.killDevice_sound]
  · exact h

theorem execDrainTimeout_sound {s : State} (h : s.Sound) (late : LateEngine) : (execDrainTimeout late s).Sound := timeoutStep_sound h ..

theorem State.dumpHeader_sound {s : State} (h : s.Sound) (v : Nat) : (s.dumpHeader v).Sound := by
  unfold State.dumpHeader
  split <;> apply_rules [h, State.supWrite_sound]

theorem State.dumpSlot_sound {s : State} (h : s.Sound) (v : Nat) (d : VDev) (i : Image) :
    (s.dumpSlot v d i).Sound := State.modVdev_sound (State.putImage_sound h ..) ..

theorem State.dumpTruss_sound {s : State} (h : s.Sound) (v fuel : Nat) (i : Image) : (s.dumpTruss v fuel i).Sound := by
  induction fuel generalizing s i with
  | zero => exact h
  | succ n ih =>
    unfold State.dumpTruss
    (repeat' split) <;> apply_rules [h, ih, State.dumpSlot_sound, State.modVdev_sound]

theorem State.dumpCourse_sound {s : State} (h : s.Sound) (c : CRef) : (s.dumpCourse c).1.Sound := by
  unfold State.dumpCourse
  split
  · split
    · exact h
    · extract_lets s1 bs k' count s2
      have hcount : ∀ u : State, u.Sound → (count u).Sound := fun _ hu => State.modVdev_sound hu ..
      have h1 : s1.Sound := State.modCourse_sound h ..
      have h2 : s2.Sound := State.modVdev_sound (hcount _ h1) ..
      clear_value s2
      split
      · exact h1
      · extract_lets n s3
        have h3 : s3.Sound := State.modVdev_sound (State.dumpSlot_sound (hcount _ h1) ..) ..
        clear_value s3
        split
        · split
          · exact State.modVdev_sound (State.supWrite_sound h2 ..) ..
          · exact h2
        · split
          · exact h3
          · exact State.dumpTruss_sound (State.modTruss_sound h3 ..) ..
  · exact h

theorem dumpStep_sound {s : State} (h : s.Sound) : (dumpStep s).Sound := by
  unfold dumpStep
  split
  · exact h
  · have hfold : ∀ (cs : List CRef) (x : State × Option W32), x.1.Sound →
        (cs.foldl (fun (x : State × Option W32) c => match x.1.dumpCourse c with | (s, m) => (s, x.2.orElse fun _ => m)) x).1.Sound := by
      intro cs
      induction cs with
      | nil => exact fun _ hx => hx
      | cons c cs ih => exact fun x hx => ih _ (State.dumpCourse_sound hx c)
    extract_lets cs
    split
    next ht =>
    exact State.modKill_sound (foldl_sound (fun _ _ hs => State.dumpHeader_sound hs _) _ (sound_of_fst ht (hfold _ _ h))) ..

theorem execKillDump_sound {s : State} (h : s.Sound) : (execKillDump s).Sound := dumpStep_sound h ..

theorem State.clearPage_sound {s : State} (h : s.Sound) (a : Nat) : (s.clearPage a).Sound := State.supWrite_sound h ..

theorem State.removeDevice_sound {s : State} (h : s.Sound) (v : Nat) : (s.removeDevice v).Sound := by
  unfold State.removeDevice
  split
  · exact h
  · extract_lets tables blks units s1
    have h1 : s1.Sound := foldl_sound (fun _ _ hs => State.supWrite_sound hs ..) _ (foldl_sound (fun _ _ hs => State.clearPage_sound hs _) _ h)
    exact h1.parts

theorem State.releaseDevice_sound {s : State} (h : s.Sound) (v : Fin 512) (destroy resets : Bool) : (s.releaseDevice v destroy resets).Sound := by
  unfold State.releaseDevice
  extract_lets s1 s2 s3
  have h1 : s1.Sound := foldl_sound (fun _ _ hs => State.modQcb_sound hs ..) _ h
  have h2 : s2.Sound := h1.parts
  have h3 : s3.Sound := State.modVdev_sound h2 ..
  clear_value s2 s3
  split
  · exact State.removeDevice_sound h2 _
  · split
    · dsimp only
      (repeat' split) <;> apply_rules [h3, State.interrupt_sound, State.modVdev_sound]
    · exact h3

theorem State.mbDone_sound {s : State} (h : s.Sound) (st : BitVec 16) : (s.mbDone st).Sound := h

theorem releaseStep_sound {s : State} (h : s.Sound) : (releaseStep s).Sound := by
  unfold releaseStep
  split
  · exact h
  · extract_lets cs vd s1 s2 s3 slot s4 s5 s6
    have h1 : s1.Sound := h.parts
    have h2 : s2.Sound := by
      refine foldl_sound (fun s c hs => ?_) _ h1
      split <;> exact hs
    have h3 : s3.Sound := foldl_sound (fun _ _ hs => State.retireTruss_sound hs _) _ h2
    have h4 : s4.Sound := State.postEvent_sound h3 ..
    have h5 : s5.Sound := h4.parts
    have h6 : s6.Sound := by
      unfold s6
      split
      · exact State.releaseDevice_sound h5 ..
      · exact h5
    split
    · exact State.mbDone_sound h6 _
    · exact h6

theorem execKillRelease_sound {s : State} (h : s.Sound) : (execKillRelease s).Sound := releaseStep_sound h ..

theorem courseKillStep_sound {s : State} (h : s.Sound) (c : CRef) (cause : KillCause) : (courseKillStep s c cause).Sound := by
  unfold courseKillStep
  (repeat' split) <;> apply_rules [h, State.startKill_sound, State.killCourse_sound]

theorem execCourseKill_sound {s : State} (h : s.Sound) (c : CRef) (cause : KillCause) :
    (execCourseKill c cause s).Sound := courseKillStep_sound h ..

theorem State.writeUnit_sound {s : State} (h : s.Sound) (d : VDev) (unit frame : Nat) (host : Bool) : (s.writeUnit d unit frame host).Sound := by
  refine foldl_sound (fun s i hs => ?_) _ h
  split
  · exact State.supWrite_sound hs ..
  · exact hs

theorem State.dropLines_sound {s : State} (h : s.Sound) (vd pa n : Nat) : (s.dropLines vd pa n).Sound := State.addShare_sound h ..

theorem State.resolve_sound {s : State} (h : s.Sound) (vd : Nat) (f : Phase → Bool) (abort : Bool) : (s.resolve vd f abort).Sound := h

/-- The bytes of a unit that comes into HBM go into device memory cell by cell (R244). -/
theorem State.pageIn_sound {s : State} (h : s.Sound) (vd : Nat) (d : VDev) (unit e hbm : Nat) : (s.pageIn vd d unit e hbm).Sound := by
  unfold State.pageIn
  extract_lets host s1 s2 s3
  have h1 : s1.Sound := State.dropLines_sound h ..
  have h2 : s2.Sound := ⟨fun hm => copyBytes_wf (h1.mem hm) .., h1.host, h1.clocks⟩
  exact State.resolve_sound (State.addShare_sound (State.addShare_sound (State.writeUnit_sound h2 ..) ..) ..) ..

theorem pageInStep_sound {s : State} (h : s.Sound) (vd gpa : Nat) : (pageInStep s vd gpa).Sound := by
  unfold pageInStep
  dsimp only
  (repeat' split) <;> apply_rules [h, State.pageIn_sound]

theorem execPageIn_sound {s : State} (h : s.Sound) (vd : Fin 512) (gpa : Nat) : (execPageIn vd gpa s).Sound := pageInStep_sound h ..

/-- The bytes of a unit that moves out go into the host's memory cell by cell (R245). -/
theorem State.pageOut_sound {s : State} (h : s.Sound) (vd : Nat) (d : VDev) (unit e frame : Nat) : (s.pageOut vd d unit e frame).Sound := by
  unfold State.pageOut
  extract_lets hbm host s1 bytes s2
  have h1 : s1.Sound := State.dropLines_sound (State.raiseGen_sound (State.writeUnit_sound h ..) _) ..
  have h2 : s2.Sound := ⟨h1.mem, fun hm => copyBytes_wf (h1.host hm) .., h1.clocks⟩
  exact State.addShare_sound (State.addShare_sound h2 ..) ..

theorem pageOutStep_sound {s : State} (h : s.Sound) (vd gpa frame : Nat) : (pageOutStep s vd gpa frame).Sound := by
  unfold pageOutStep
  dsimp only
  (repeat' split) <;> apply_rules [h, State.pageOut_sound]

theorem execPageOut_sound {s : State} (h : s.Sound) (vd : Fin 512) (gpa hostFrame : Nat) :
    (execPageOut vd gpa hostFrame s).Sound := pageOutStep_sound h ..

theorem managedStep_sound {s : State} (h : s.Sound) (vd gpa frame : Nat) : (managedStep s vd gpa frame).Sound := by
  unfold managedStep
  split
  · split
    · extract_lets unit key c byHost s1
      have h1 : s1.Sound := h.parts
      clear_value s1
      split
      · exact h
      · split
        · exact State.pageOut_sound h1 ..
        · split
          · split
            · exact State.pageIn_sound h1 ..
            · exact h
          · exact h
    · exact h
  · exact h

theorem execCounterManagedMove_sound {s : State} (h : s.Sound) (vd : Fin 512) (gpa hostFrame : Nat) :
    (execCounterManagedMove vd gpa hostFrame s).Sound := managedStep_sound h ..

theorem State.hostBytes_sound {s : State} (h : s.Sound) (vd : Option (Fin 512)) (addr : Nat) (data : List Byte) :
    (s.hostBytes vd addr data).Sound := by
  refine foldl_sound (fun s x hs => ?_) _ h
  dsimp only
  split
  · next host _ _ =>
    have hb := fun hm pa bs => writeBytes_wf (bank_sound hs host hm) pa bs
    split
    · exact ⟨hs.mem, fun hm => hb hm .., hs.clocks⟩
    · next hh =>
      rw [Bool.not_eq_true] at hh
      subst hh
      exact State.putBank_sound hs _ _ _ _ fun hm => hb hm ..
  · exact hs

theorem execHostMemoryWrite_sound {s : State} (h : s.Sound) (vd : Option (Fin 512)) (addr : Nat) (data : List Byte) :
    (execHostMemoryWrite vd addr data s).Sound := by
  unfold execHostMemoryWrite
  (repeat' split) <;> apply_rules [h, State.hostBytes_sound]

theorem hostAtomic_sound {s : State} (h : s.Sound) (vd : Fin 512) (addr : Nat) (op : AOp) (z : ASz) (a cmp : BitVec 128) :
    (hostAtomic s vd addr op z a cmp).Sound := by
  unfold hostAtomic
  extract_lets n p
  split
  · exact h
  · split
    · exact h
    · next pa host cm _ =>
      split
      next b q hbq =>
      have hb : Asked.memory → Memory.wf b.m = true := fun hm => by
        have := bank_atomic_wf (bank_sound h host hm) op p pa
        rwa [hbq] at this
      extract_lets s1 s2
      have h1 : s1.Sound := by
        unfold s1
        split
        · exact h
        · split
          · exact ⟨h.mem, hb, h.clocks⟩
          · exact State.putBank_sound h _ _ _ _ hb
      have h2 : s2.Sound := by
        unfold s2
        split <;> exact h1
      exact h2.parts

theorem execHostAtomicop_sound {s : State} (h : s.Sound) (vd : Fin 512) (addr : Nat) (op : AOp) (z : ASz) (a cmp : BitVec 128) :
    (execHostAtomicop vd addr op z a cmp s).Sound := by
  unfold execHostAtomicop
  split <;> apply_rules [h, hostAtomic_sound]

theorem State.askReplacement_sound {s : State} (h : s.Sound) (kind unit : Nat) : (s.askReplacement kind unit).Sound := by
  unfold State.askReplacement
  apply_rules [h, State.postEvent_sound]

theorem State.startMove_sound {s : State} (h : s.Sound) (f : Fold) (n : Nat) : (s.startMove f n).Sound := h.parts

theorem State.endMove_sound {s : State} (h : s.Sound) (n : Nat) : (s.endMove n).Sound := h.parts

theorem State.endFold_sound {s : State} (h : s.Sound) (f : Fold) : (s.endFold f).Sound := by
  unfold State.endFold
  extract_lets m s1 s2
  have h1 : s1.Sound := h.parts
  have h2 : s2.Sound := by
    unfold s2
    split
    · exact State.postEvent_sound h1 ..
    · exact h1
  clear_value s2
  split
  · exact h1.parts
  · split
    · exact State.mbDone_sound h2 _
    · exact h2

theorem foldStep_sound {s : State} (h : s.Sound) (line : Nat) : (foldStep s line).Sound := by
  unfold foldStep
  split
  · exact h
  · split
    · split
      · exact State.startMove_sound h ..
      · exact State.endFold_sound h _
    · split
      · exact State.endMove_sound h _
      · exact State.handOver_sound h ..

theorem execLineHandover_sound {s : State} (h : s.Sound) (line : Nat) : (execLineHandover line s).Sound := foldStep_sound h ..

theorem State.degradeBy_sound {s : State} (h : s.Sound) (hi lo : Nat) : (s.degradeBy hi lo).Sound := h

theorem columnRetireStep_sound {s : State} (h : s.Sound) (col : Fin 16) : (columnRetireStep s col).Sound := by
  unfold columnRetireStep
  split
  · exact h
  · extract_lets s1
    have h1 : s1.Sound := by
      apply State.askReplacement_sound
      exact h.parts
    split
    · exact h1
    · exact h1.parts

theorem execColumnRetire_sound {s : State} (h : s.Sound) (col : Fin 16) : (execColumnRetire col s).Sound := columnRetireStep_sound h ..

theorem State.retireCore_sound {s : State} (h : s.Sound) (core : Nat) : (s.retireCore core).Sound := by
  unfold State.retireCore
  extract_lets s1 s2 s3 s4
  have h1 : s1.Sound := State.modCore_sound h ..
  have h2 : s2.Sound := State.postEvent_sound h1 ..
  have h3 : s3.Sound := State.degradeBy_sound (State.askReplacement_sound h2 ..) ..
  have h4 : s4.Sound := by
    unfold s4
    split
    · split <;> exact h3
    · exact h3
  apply State.markGroups_sound
  exact h4.parts

theorem coreRetireStep_sound {s : State} (h : s.Sound) (core : Nat) : (coreRetireStep s core).Sound := by
  unfold coreRetireStep
  dsimp only
  split
  · exact h
  · exact State.retireCore_sound h _

theorem execCoreRetire_sound {s : State} (h : s.Sound) (core : Nat) : (execCoreRetire core s).Sound := coreRetireStep_sound h ..

theorem corrected_sound {s : State} (h : s.Sound) (kind unit : Nat) : (corrected s kind unit).Sound := by
  unfold corrected
  dsimp only
  split <;> apply_rules [h, State.postEvent_sound]

theorem execEccCorrected_sound {s : State} (h : s.Sound) (unitKind : Fin 6) (unit : Nat) :
    (execEccCorrected unitKind unit s).Sound := corrected_sound h ..

theorem State.ueEvent_sound {s : State} (h : s.Sound) (kind unit vd : Nat) (w3 : W64) : (s.ueEvent kind unit vd w3).Sound := by
  unfold State.ueEvent
  apply_rules [h, State.postEvent_sound]

theorem State.coreError_sound {s : State} (h : s.Sound) (kind core : Nat) : (s.coreError kind core).Sound := by
  unfold State.coreError
  apply_rules [h, State.ueEvent_sound]

theorem State.ioError_sound {s : State} (h : s.Sound) (vd : Nat) (w : W64) : (s.ioError vd w).Sound := State.ueEvent_sound h ..

theorem State.ioWord_sound {s : State} (h : s.Sound) (vd : Nat) : (s.ioWord vd).Sound := State.ioError_sound h ..

theorem State.failCommands_sound {s : State} (h : s.Sound) : s.failCommands.Sound := by
  unfold State.failCommands
  split <;> exact h

theorem uncorrectable_sound {s : State} (h : s.Sound) (place : EccPlace) : (uncorrectable s place).Sound := by
  have hc := fun kind core => State.coreError_sound h kind core
  have hw := fun vd => State.ioWord_sound h vd
  cases place with
  | slice a => exact (State.ueEvent_sound h ..).parts
  | hbm a => exact (State.ueEvent_sound h ..).parts
  | scratchpad tn off =>
    unfold uncorrectable
    dsimp only
    (repeat' split) <;> apply_rules [h, State.modTruss_sound]
  | tile tn n w =>
    unfold uncorrectable
    dsimp only
    (repeat' split) <;> apply_rules [h, State.modTruss_sound]
  | register c r w =>
    unfold uncorrectable
    dsimp only
    (repeat' split) <;> apply_rules [h, State.modCourse_sound]
  | l1 core a =>
    unfold uncorrectable
    dsimp only
    split
    · exact (hc ..).parts
    · exact h
  | icache core a =>
    unfold uncorrectable
    dsimp only
    split
    · exact (hc ..).parts
    · exact h
  | ioSram w => exact State.ioError_sound h ..
  | matching v n w => exact State.modVdev_sound (hw _) ..
  | deviceTable v =>
    unfold uncorrectable
    dsimp only
    split
    · split
      · exact State.killDevice_sound (hw _) ..
      · exact hw _
    · exact hw _
  | supervisorMemory => exact State.failCommands_sound (hw _)
  | queueProcessorMemory qp =>
    unfold uncorrectable
    dsimp only
    split
    · exact State.setFallback_sound (hw _) ..
    · exact hw _

theorem execEccUncorrectable_sound {s : State} (h : s.Sound) (place : EccPlace) : (execEccUncorrectable place s).Sound := uncorrectable_sound h ..

end Sys2Proof.Machine
end

section
/-!
PROOFS. What every step keeps: mailbox commands, register pages, and bring-up.
-/
namespace Sys2Proof.Machine
variable [Asked]

/-- The state that a mailbox command comes to. -/
def Ended.Sound : Ended → Prop
  | .status s _ | .later s => s.Sound

theorem Ended.Sound.of_status {e : Ended} (h : e.Sound) {s : State} {st : BitVec 16} (he : e = .status s st) : s.Sound := by subst he; exact h
theorem Ended.Sound.of_later {e : Ended} (h : e.Sound) {s : State} (he : e = .later s) : s.Sound := by subst he; exact h

/-- The mailbox keeps it when the command does. -/
theorem mailbox_sound {s : State} (h : s.Sound) (w : Vector W64 8) {f : State → Ended} (hf : ∀ s : State, s.Sound → (f s).Sound) :
    (mailbox s w f).Sound := by
  unfold mailbox
  split
  · exact h
  · split
    · exact State.discard_sound h
    · have hw := hf { s with mbcmd := w, mbBusy := true } h.parts
      split
      · next he => exact State.mbDone_sound (hw.of_status he) _
      · next he => exact hw.of_later he

theorem State.setVector_sound {s : State} (h : s.Sound) (e : Nat) (v m : Bool) (vec : Nat) : (s.setVector e v m vec).Sound := by
  unfold State.setVector
  dsimp only
  split <;> apply_rules [h]

theorem onDevice_sound {s : State} (h : s.Sound) (vd : Nat) {f : VDev → Ended} (hf : ∀ d, (f d).Sound) : (onDevice s vd f).Sound := by
  unfold onDevice
  split
  · exact h
  · split
    · exact h
    · exact hf _

theorem onAny_sound {s : State} (h : s.Sound) (vd : Nat) {f : VDev → Ended} (hf : ∀ d, (f d).Sound) : (onAny s vd f).Sound := by
  unfold onAny
  split
  · exact hf _
  · exact h

theorem onTarget_sound {s : State} (h : s.Sound) (vd : Nat) {f : VDev → Ended} (hf : ∀ d, (f d).Sound) : (onTarget s vd f).Sound := by
  unfold onTarget
  split
  · exact h
  · exact onDevice_sound h _ hf

/-! ### What each command leaves -/

theorem doCreate_sound {s : State} (h : s.Sound) (w : Vector W64 8) : (doCreate w s).Sound := by
  unfold doCreate
  dsimp only
  split
  · split <;> exact h
  · split
    · next root pool _ =>
      split
      · exact h
      · have hc := State.clearPage_sound h root
        refine State.dumpHeader_sound ?_ _
        exact hc.parts
    · exact h

theorem doDestroy_sound {s : State} (h : s.Sound) (w : Vector W64 8) : (doDestroy w s).Sound :=
  onDevice_sound h _ fun _ => State.destroyWork_sound h _

theorem doSetweight_sound {s : State} (h : s.Sound) (w : Vector W64 8) : (doSetweight w s).Sound :=
  onDevice_sound h _ fun _ => by
    split
    · exact h
    · exact State.modVdev_sound h ..

theorem doDefset_sound {s : State} (h : s.Sound) (w : Vector W64 8) : (doDefset w s).Sound := by
  unfold doDefset
  dsimp only
  split
  · exact h
  · exact h.parts

theorem doSetset_sound {s : State} (h : s.Sound) (w : Vector W64 8) : (doSetset w s).Sound :=
  onDevice_sound h _ fun d => by
    split
    · exact h
    · split
      · exact h
      · apply State.finishMove_sound
        exact (State.modVdev_sound h ..).parts

theorem doSetmode_sound {s : State} (h : s.Sound) (w : Vector W64 8) : (doSetmode w s).Sound :=
  onDevice_sound h _ fun _ => by
    dsimp only
    split
    · exact h
    · exact State.modVdev_sound h ..

theorem doMapvec_sound {s : State} (h : s.Sound) (w : Vector W64 8) : (doMapvec w s).Sound :=
  onDevice_sound h _ fun _ => by
    split
    · exact h
    · exact State.setVector_sound h ..

theorem State.makeLeaf_sound {s : State} (h : s.Sound) (gpa n table : Nat) : ∀ t, s.makeLeaf gpa n table = some t → t.1.Sound := by
  intro t ht
  induction n generalizing s table with
  | zero => cases ht; exact h
  | succ n ih =>
    unfold State.makeLeaf at ht
    extract_lets a e at ht
    split at ht
    · exact ih h _ ht
    · split at ht
      · cases ht
      · refine ih ?_ _ ht
        refine State.supWrite_sound (State.clearPage_sound ?_ _) ..
        exact h.parts

theorem State.mapPages_sound {s : State} (h : s.Sound) (root gpa frame attrs n : Nat) :
    ∀ t, s.mapPages root gpa frame attrs n = some t → t.1.Sound := by
  intro t ht
  induction n generalizing s gpa frame t with
  | zero => cases ht; exact h
  | succ n ih =>
    unfold State.mapPages at ht
    split at ht
    · cases ht
    · next hl =>
      have hs := State.makeLeaf_sound h _ _ _ _ hl
      dsimp only at ht hs
      split at ht
      · cases ht
      · next hm =>
        cases ht
        have hr := ih (State.supWrite_sound hs ..) _ _ _ hm
        exact hr

theorem doMap2_sound {s : State} (h : s.Sound) (w : Vector W64 8) : (doMap2 w s).Sound :=
  onDevice_sound h _ fun d => by
    split
    · exact h
    · split
      · exact h
      · next s1 replaced hm =>
        have h1 : s1.Sound := State.mapPages_sound h _ _ _ _ _ _ hm
        extract_lets s2 s3
        have h2 : s2.Sound := by
          unfold s2
          split
          · exact State.raiseGen_sound h1 _
          · exact h1
        have h3 : s3.Sound := h2.parts
        exact State.resolve_sound h3 ..

theorem State.unmapPages_sound {s : State} (h : s.Sound) (root gpa n : Nat) : (s.unmapPages root gpa n).Sound := by
  induction n generalizing s gpa with
  | zero => exact h
  | succ n ih =>
    unfold State.unmapPages
    apply ih
    split
    · exact State.supWrite_sound h ..
    · exact h

theorem doUnmap2_sound {s : State} (h : s.Sound) (w : Vector W64 8) : (doUnmap2 w s).Sound :=
  onDevice_sound h _ fun _ => by
    split
    · exact h
    · exact State.raiseGen_sound (State.unmapPages_sound h ..) _

theorem doAbort2_sound {s : State} (h : s.Sound) (w : Vector W64 8) : (doAbort2 w s).Sound :=
  onDevice_sound h _ fun _ => h.parts

theorem doMeters_sound {s : State} (h : s.Sound) (w : Vector W64 8) : (doMeters w s).Sound :=
  onAny_sound h _ fun _ => by
    split
    · exact h
    · exact State.pfWrite_sound h ..

theorem doDumpack_sound {s : State} (h : s.Sound) (w : Vector W64 8) : (doDumpack w s).Sound :=
  onAny_sound h _ fun _ => by
    split
    · exact h
    · exact State.dumpHeader_sound (State.modVdev_sound h ..) _

theorem doQcreate_sound {s : State} (h : s.Sound) (w : Vector W64 8) : (doQcreate w s).Sound :=
  onDevice_sound h _ fun _ => by
    split
    · exact h
    · split
      · exact h
      · extract_lets s1
        have h1 : s1.Sound := State.putQcb_sound h ..
        exact h1.parts

theorem doQrestart_sound {s : State} (h : s.Sound) (w : Vector W64 8) : (doQrestart w s).Sound := by
  unfold doQrestart
  extract_lets blk tail s1
  have h1 : s1.Sound := State.modQcb_sound h ..
  split
  · exact h
  · refine onDevice_sound h _ fun _ => ?_
    split
    · exact h
    · split
      · exact h
      · exact h1.parts

theorem doResetCourse_sound {s : State} (h : s.Sound) (w : Vector W64 8) : (doResetCourse w s).Sound :=
  onTarget_sound h _ fun _ => by
    split
    · exact State.startKill_sound h ..
    · exact h

theorem doResetTruss_sound {s : State} (h : s.Sound) (w : Vector W64 8) : (doResetTruss w s).Sound :=
  onTarget_sound h _ fun _ => by
    dsimp only
    split
    · exact State.startKill_sound h ..
    · exact h

theorem State.dropTlb_sound {s : State} (h : s.Sound) (sel : TlbEntry → Bool) : (s.dropTlb sel).Sound := h

theorem doResetDevice_sound {s : State} (h : s.Sound) (w : Vector W64 8) : (doResetDevice w s).Sound :=
  onTarget_sound h _ fun _ => by
    split
    · exact State.resetWork_sound h _
    · exact State.dropTlb_sound (State.raiseGen_sound (State.modVdev_sound h ..) _) _

theorem doResetEngine_sound {s : State} (h : s.Sound) (w : Vector W64 8) : (doResetEngine w s).Sound := by
  unfold doResetEngine
  dsimp only
  split
  · exact h
  · exact State.resetNoted_sound h ..

theorem State.beginFold_sound {s : State} (h : s.Sound) (col : Fin 16) (on reset retire mailbox : Bool) :
    (s.beginFold col on reset retire mailbox).Sound := h

theorem doResetColumn_sound {s : State} (h : s.Sound) (w : Vector W64 8) : (doResetColumn w s).Sound := by
  unfold doResetColumn
  dsimp only
  split
  · exact h
  · split
    · exact h
    · exact State.beginFold_sound h ..

theorem doResetLink_sound {s : State} (h : s.Sound) (w : Vector W64 8) : (doResetLink w s).Sound := State.resetLink_sound h _

theorem doColumnOn_sound {s : State} (h : s.Sound) (w : Vector W64 8) : (doColumnOn w s).Sound := by
  unfold doColumnOn
  dsimp only
  split
  · exact h
  · split
    · exact h
    · exact State.beginFold_sound h ..

theorem doColumnOff_sound {s : State} (h : s.Sound) (w : Vector W64 8) : (doColumnOff w s).Sound := by
  unfold doColumnOff
  dsimp only
  split
  · exact h
  · split
    · exact h
    · exact State.beginFold_sound h ..

theorem doCommand_sound {s : State} (h : s.Sound) (w : Vector W64 8) : (doCommand w s).Sound := by
  unfold doCommand
  split
  case h_14 =>
    split
    · exact doResetCourse_sound h _
    · exact doResetTruss_sound h _
    · exact doResetDevice_sound h _
    · exact doResetEngine_sound h _
    · exact doResetColumn_sound h _
    · exact doResetLink_sound h _
    · exact h
  case h_16 =>
    split
    · exact doColumnOn_sound h _
    · exact doColumnOff_sound h _
  · exact doCreate_sound h _
  · exact doDestroy_sound h _
  · exact doSetweight_sound h _
  · exact doDefset_sound h _
  · exact doSetset_sound h _
  · exact doSetmode_sound h _
  · exact doMapvec_sound h _
  · exact doMap2_sound h _
  · exact doUnmap2_sound h _
  · exact doAbort2_sound h _
  · exact doMeters_sound h _
  · exact doQcreate_sound h _
  · exact doQrestart_sound h _
  · exact doDumpack_sound h _
  · exact h

theorem execCreate_sound {s : State} (h : s.Sound) (w : Vector W64 8) : (execCreate w s).Sound :=
  mailbox_sound h _ fun _ h => doCreate_sound h _

theorem execDestroy_sound {s : State} (h : s.Sound) (w : Vector W64 8) : (execDestroy w s).Sound :=
  mailbox_sound h _ fun _ h => doDestroy_sound h _

theorem execSetweight_sound {s : State} (h : s.Sound) (w : Vector W64 8) : (execSetweight w s).Sound :=
  mailbox_sound h _ fun _ h => doSetweight_sound h _

theorem execDefset_sound {s : State} (h : s.Sound) (w : Vector W64 8) : (execDefset w s).Sound :=
  mailbox_sound h _ fun _ h => doDefset_sound h _

theorem execSetset_sound {s : State} (h : s.Sound) (w : Vector W64 8) : (execSetset w s).Sound :=
  mailbox_sound h _ fun _ h => doSetset_sound h _

theorem execSetmode_sound {s : State} (h : s.Sound) (w : Vector W64 8) : (execSetmode w s).Sound :=
  mailbox_sound h _ fun _ h => doSetmode_sound h _

theorem execMapvec_sound {s : State} (h : s.Sound) (w : Vector W64 8) : (execMapvec w s).Sound :=
  mailbox_sound h _ fun _ h => doMapvec_sound h _

theorem execMap2_sound {s : State} (h : s.Sound) (w : Vector W64 8) : (execMap2 w s).Sound :=
  mailbox_sound h _ fun _ h => doMap2_sound h _

theorem execUnmap2_sound {s : State} (h : s.Sound) (w : Vector W64 8) : (execUnmap2 w s).Sound :=
  mailbox_sound h _ fun _ h => doUnmap2_sound h _

theorem execAbort2_sound {s : State} (h : s.Sound) (w : Vector W64 8) : (execAbort2 w s).Sound :=
  mailbox_sound h _ fun _ h => doAbort2_sound h _

theorem execMeters_sound {s : State} (h : s.Sound) (w : Vector W64 8) : (execMeters w s).Sound :=
  mailbox_sound h _ fun _ h => doMeters_sound h _

theorem execQcreate_sound {s : State} (h : s.Sound) (w : Vector W64 8) : (execQcreate w s).Sound :=
  mailbox_sound h _ fun _ h => doQcreate_sound h _

theorem execQrestart_sound {s : State} (h : s.Sound) (w : Vector W64 8) : (execQrestart w s).Sound :=
  mailbox_sound h _ fun _ h => doQrestart_sound h _

theorem execResetCourse_sound {s : State} (h : s.Sound) (w : Vector W64 8) : (execResetCourse w s).Sound :=
  mailbox_sound h _ fun _ h => doResetCourse_sound h _

theorem execResetTruss_sound {s : State} (h : s.Sound) (w : Vector W64 8) : (execResetTruss w s).Sound :=
  mailbox_sound h _ fun _ h => doResetTruss_sound h _

theorem execResetVirtualDevice_sound {s : State} (h : s.Sound) (w : Vector W64 8) : (execResetVirtualDevice w s).Sound :=
  mailbox_sound h _ fun _ h => doResetDevice_sound h _

theorem execResetEngine_sound {s : State} (h : s.Sound) (w : Vector W64 8) : (execResetEngine w s).Sound :=
  mailbox_sound h _ fun _ h => doResetEngine_sound h _

theorem execResetSliceColumn_sound {s : State} (h : s.Sound) (w : Vector W64 8) : (execResetSliceColumn w s).Sound :=
  mailbox_sound h _ fun _ h => doResetColumn_sound h _

theorem execResetOpticalLink_sound {s : State} (h : s.Sound) (w : Vector W64 8) : (execResetOpticalLink w s).Sound :=
  mailbox_sound h _ fun _ h => doResetLink_sound h _

theorem execDumpack_sound {s : State} (h : s.Sound) (w : Vector W64 8) : (execDumpack w s).Sound :=
  mailbox_sound h _ fun _ h => doDumpack_sound h _

theorem execColumnOn_sound {s : State} (h : s.Sound) (w : Vector W64 8) : (execColumnOn w s).Sound :=
  mailbox_sound h _ fun _ h => doColumnOn_sound h _

theorem execColumnOff_sound {s : State} (h : s.Sound) (w : Vector W64 8) : (execColumnOff w s).Sound :=
  mailbox_sound h _ fun _ h => doColumnOff_sound h _

theorem s1rootStep_sound {s : State} (h : s.Sound) (vd : Nat) (v : W64) : (s1rootStep s vd v).Sound := by
  unfold s1rootStep
  split <;> apply_rules [h, State.modVdev_sound, State.raiseGen_sound]

theorem execS1rootWrite_sound {s : State} (h : s.Sound) (vd : Fin 512) (v : W64) : (execS1rootWrite vd v s).Sound := s1rootStep_sound h ..

theorem fltbaseStep_sound {s : State} (h : s.Sound) (vd : Nat) (v : W64) : (fltbaseStep s vd v).Sound := by
  unfold fltbaseStep
  dsimp only
  split <;> apply_rules [h, State.modVdev_sound]

theorem execFltbaseWrite_sound {s : State} (h : s.Sound) (vd : Fin 512) (v : W64) : (execFltbaseWrite vd v s).Sound := fltbaseStep_sound h ..

/-- Where an entry that is homed on a column that is off goes, as bring-up has it. -/
def State.foldHome (columns : BitVec 16) (slices : List Nat) (s : State) (h : Nat) : State :=
  let home := (tget (foldWord false 0 (h % 128)) s.fold h).toNat % 128
  if columns.getLsbD (columnOf home) then s
  else
    let d := (slices[Config.foldTarget s.tick % slices.length]?).getD home
    { s with fold := tput s.fold h (foldWord false 0 d), tick := s.tick + 1 }

omit [Asked] in
theorem bootFold_eq (s : State) (columns : BitVec 16) :
    s.bootFold columns = if columns = 0xFFFF then { s with columns := 0xFFFF } else
      (List.range 1024).foldl (State.foldHome columns (((List.range 16).filter columns.getLsbD).map fun c => List.range' (8 * c) 8).flatten)
        { s with columns := columns } := rfl

theorem State.foldHome_sound {s : State} (h : s.Sound) (columns : BitVec 16) (slices : List Nat) (n : Nat) :
    (s.foldHome columns slices n).Sound := by
  unfold State.foldHome
  dsimp only
  split
  · exact h
  · exact h.parts

theorem State.bootFold_sound {s : State} (h : s.Sound) (columns : BitVec 16) : (s.bootFold columns).Sound := by
  rw [bootFold_eq]
  split
  · exact h.parts
  · refine foldl_sound (fun s n hs => State.foldHome_sound hs ..) _ ?_
    exact h.parts

theorem State.bootCores_sound {s : State} (h : s.Sound) (clusters : BitVec 24) : (s.bootCores clusters).Sound := by
  unfold State.bootCores
  split
  · exact h
  · refine foldl_sound (fun s c hs => ?_) _ h
    split
    · exact hs
    · exact State.retireCore_sound hs _

theorem State.opticsUp_sound {s : State} (h : s.Sound) (b : BringUp) : (s.opticsUp b).Sound := by
  unfold State.opticsUp
  split <;> apply_rules [h, State.bootFold_sound, State.bootCores_sound]

theorem State.readConfig_sound {s : State} (h : s.Sound) (b : BringUp) : (s.readConfig b).Sound := h.parts

theorem State.computeUp_sound {s : State} (h : s.Sound) : s.computeUp.Sound := h.parts

theorem State.startService_sound {s : State} (h : s.Sound) : s.startService.Sound := h.parts

theorem State.linksUp_sound {s : State} (h : s.Sound) : s.linksUp.Sound := h.parts

theorem State.readyUp_sound {s : State} (h : s.Sound) : s.readyUp.Sound := h.parts

theorem State.ready_sound {s : State} (h : s.Sound) (b : BringUp) : (s.ready b).Sound :=
  State.readyUp_sound (State.linksUp_sound (State.opticsUp_sound (State.startService_sound (State.computeUp_sound (State.readConfig_sound h b))) b))

theorem State.bootActs_sound {s : State} (h : s.Sound) (b : BringUp) (n : Nat) : (s.bootActs b n).Sound := by
  unfold State.bootActs
  split <;> apply_rules [h, State.opticsUp_sound]

theorem State.bootPassed_sound {s : State} (h : s.Sound) (b : BringUp) (n : Nat) : (s.bootPassed b n).Sound := by
  unfold State.bootPassed
  split <;> exact h

theorem bootAdvance_sound {s : State} (h : s.Sound) : (bootAdvance s).Sound := by
  unfold bootAdvance
  dsimp only
  (repeat' split) <;> apply_rules [h, State.bootActs_sound, State.bootPassed_sound]

theorem State.bringUp_sound {s : State} (h : s.Sound) (b : BringUp) : (s.bringUp b).Sound := foldl_sound (fun _ _ h => bootAdvance_sound h ..) _ h

theorem powerOn_sound {s : State} (h : s.Sound) (b : BringUp) : (powerOn s b).Sound := by
  unfold powerOn
  split <;> apply_rules [h, State.hostTrained_sound]

theorem execPowerOn_sound {s : State} (h : s.Sound) (b : BringUp) : (execPowerOn b s).Sound := powerOn_sound h ..

theorem bootRetry_sound {s : State} (h : s.Sound) (b : BringUp) : (bootRetry s b).Sound := by
  unfold bootRetry
  split <;> exact h

theorem execBootctlRetry_sound {s : State} (h : s.Sound) (b : BringUp) : (execBootctlRetry b s).Sound := bootRetry_sound h ..

theorem retryWrite_sound {s : State} (h : s.Sound) : (retryWrite s).Sound := bootRetry_sound h ..

theorem attest_sound {s : State} (h : s.Sound) : (attest s).Sound := by
  unfold attest
  split <;> apply_rules [h, State.ready_sound]

theorem attestStep_sound {s : State} (h : s.Sound) : (attestStep s).Sound := by
  unfold attestStep
  split
  · exact h
  · exact (State.pfWrite_sound h ..).parts

theorem execBootctlAttest_sound {s : State} (h : s.Sound) : (execBootctlAttest s).Sound := attest_sound h ..

theorem powerLimit_sound {s : State} (h : s.Sound) (v : W64) : (powerLimit s v).Sound := by
  unfold powerLimit
  split <;> exact h

theorem execPwrlimWrite_sound {s : State} (h : s.Sound) (v : W64) : (execPwrlimWrite v s).Sound := by
  unfold execPwrlimWrite
  split <;> apply_rules [h, powerLimit_sound]

theorem execPowerThrottle_sound {s : State} (h : s.Sound) (excess : Bool) : (execPowerThrottle excess s).Sound := by
  unfold execPowerThrottle
  split <;> apply_rules [h, State.ready_sound]

theorem thermalTrip_sound {s : State} (h : s.Sound) : (thermalTrip s).Sound := by
  unfold thermalTrip
  split <;> apply_rules [h, State.postEvent_sound]

theorem execThermalTrip_sound {s : State} (h : s.Sound) : (execThermalTrip s).Sound := thermalTrip_sound h ..

/-- Power that goes leaves device memory without contents, and the host's memory and the clocks as they were (R5, R451). -/
theorem powerOff_sound {s : State} (h : s.Sound) : (powerOff s).Sound := ⟨fun _ => rfl, h.host, h.clocks⟩

theorem execModulePowerOff_sound {s : State} (h : s.Sound) : (execModulePowerOff s).Sound := powerOff_sound h ..

theorem mailboxWrite_sound {s : State} (h : s.Sound) (off : Nat) (v : W64) : (mailboxWrite s off v).Sound := by
  unfold mailboxWrite
  split
  · split
    · exact mailbox_sound h _ fun _ h => doCommand_sound h _
    · exact h
  · apply State.flushEvents_sound; exact h.parts
  · apply State.flushEvents_sound; exact h.parts
  · apply State.flushEvents_sound; exact h.parts
  · split
    · exact h.parts
    · exact h

/-- The state that a command of the fabric page comes to. -/
theorem outState_sound {s : State} (h : s.Sound) {o : Out} (ho : o.Sound) : (fabricDoor.outState s o).Sound := by
  cases o with
  | next s' => exact ho
  | fault f => exact h
  | refused r => exact h

theorem fabricDoor_sound {s : State} (h : s.Sound) : (fabricDoor s).Sound := by
  unfold fabricDoor
  dsimp only
  split
  · exact outState_sound h (execRoute_sound h _)
  · exact outState_sound h (execEpset_sound h _)
  · exact outState_sound h (execGset_sound h _)
  · exact outState_sound h (execGclr_sound h _)
  · exact outState_sound h (execQuiesce_sound h _)
  · exact outState_sound h (execRelock_sound h _)
  · exact fabricCommand_sound h _ fun _ h => h.parts

theorem fabricWrite_sound {s : State} (h : s.Sound) (off : Nat) (v : W64) : (fabricWrite s off v).Sound := by
  unfold fabricWrite
  (repeat' split) <;> apply_rules [h, fabricDoor_sound]

theorem healthWrite_sound {s : State} (h : s.Sound) (off : Nat) (v : W64) : (healthWrite s off v).Sound := by
  unfold healthWrite
  split <;> exact h

theorem bootWrite_sound {s : State} (h : s.Sound) (off : Nat) (v : W64) : (bootWrite s off v).Sound := by
  unfold bootWrite
  (repeat' split) <;> apply_rules [h, attest_sound, retryWrite_sound, powerLimit_sound]

theorem controlWrite_sound {s : State} (h : s.Sound) (vd off : Nat) (v : W64) : (controlWrite s vd off v).Sound := by
  unfold controlWrite
  (repeat' split) <;> apply_rules [h, State.modVdev_sound, s1rootStep_sound, fltbaseStep_sound, State.fltres_sound]

theorem registerWrite_sound {s : State} (h : s.Sound) (page : HostPage) (off : Nat) (v : W64) : (registerWrite s page off v).Sound := by
  unfold registerWrite
  split
  · split
    · exact h
    · exact bootWrite_sound h ..
  · split
    · exact h
    · split
      · exact mailboxWrite_sound h ..
      · exact fabricWrite_sound h ..
      · exact healthWrite_sound h ..
      · exact h
      · exact controlWrite_sound h ..
      · split
        · exact State.modVdev_sound h ..
        · exact h

theorem afterRead_sound {s : State} (h : s.Sound) (page : HostPage) (off : Nat) : (afterRead s page off).Sound := by
  unfold afterRead
  split <;> exact h

theorem execRegisterWrite_sound {s : State} (h : s.Sound) (page : HostPage) (off : Nat) (v : W64) :
    (execRegisterWrite page off v s).Sound := registerWrite_sound h ..

end Sys2Proof.Machine
end

section
/-!
PROOFS. What every step keeps: every instruction.
-/
namespace Sys2Proof.Machine
variable [Asked]

theorem execShfl_sound {s : State} (h : s.Sound) (gd : Guard) (t : BTy) (m : ShflMode) (wl : Fin 6) (d a : VReg) (b : Reg) (c : GReg) : (execShfl gd t m wl d a b c s).Sound :=
  issue_sound h fun _ h => Ctx.exchange_sound h ..

theorem voteEffect_sound {x : Ctx} (h : x.s.Sound) (gd : Guard) (op : VoteOp) (a : PSrc) (c : GReg) : (voteEffect x gd op a c).Sound := by
  unfold voteEffect
  split <;> apply_rules [h, Ctx.exchange_sound, State.landAll_sound]

theorem execVote_sound {s : State} (h : s.Sound) (gd : Guard) (op : VoteOp) (a : PSrc) (c : GReg) : (execVote gd op a c s).Sound :=
  issue_sound h fun _ h => voteEffect_sound h ..

theorem execRedl_sound {s : State} (h : s.Sound) (gd : Guard) (op : RedlOp) (scan : Bool) (d a : Reg) (c : GReg) : (execRedl gd op scan d a c s).Sound :=
  issue_sound h fun _ h => Ctx.exchange_sound h ..

/-- Every instruction keeps it, as its meaning does; the fixed-latency words write the course alone. -/
theorem exec_sound {s : State} (h : s.Sound) (i : Instr) : Out.Sound (exec i s) :=
  match i with
  | .add .. | .sub .. | .mul .. | .mulh .. | .mad .. | .madw .. | .min .. | .max .. | .abs .. | .neg .. | .and .. | .or .. | .xor ..
  | .andn .. | .not .. | .shl .. | .shr .. | .sar .. | .rot .. | .bfe .. | .bfi .. | .pop .. | .clz .. | .brev .. | .sel .. | .mov ..
  | .cmp .. | .plog .. | .lea .. | .addi .. | .andi .. | .ori .. | .xori .. | .movi .. | .cmpi .. | .muli .. | .leai .. | .fadd ..
  | .fsub .. | .fmul .. | .fma .. | .fmin .. | .fmax .. | .fcmp .. | .frcp .. | .frsq .. | .fsqrt .. | .fexp2 .. | .flog2 .. | .fsin ..
  | .fcos .. | .fdiv .. | .fcvt .. | .icvt .. | .ficvt .. | .qcvt .. | .qexp .. | .fscl .. | .frnd .. | .fclass .. | .hadd2 .. | .hmul2 ..
  | .hfma2 .. | .hmin2 .. | .hmax2 .. | .fdot4 .. | .scvt .. | .fmovi .. | .faddi .. | .fmuli .. | .pairMov .. | .pairAdd .. | .pairSub ..
  | .pairAnd .. | .pairOr .. | .pairXor .. | .pairShl .. | .pairShr .. | .pairSar .. | .pairMin .. | .pairMax .. | .pairFadd ..
  | .pairFmul .. | .pairFmin .. | .pairFmax .. | .pairHadd2 .. | .pairHmul2 .. | .pairAddi .. | .pairShli .. | .pairShri .. | .pairAndi ..
  | .pairMovi .. =>
    issueCourse_sound h ..
  | .shfl .. => execShfl_sound h ..
  | .vote .. => execVote_sound h ..
  | .redl .. => execRedl_sound h ..
  | .nop => execNop_sound h
  | .dly .. => execDly_sound h ..
  | .bra .. => execBra_sound h ..
  | .jmp .. => execJmp_sound h ..
  | .call .. => execCall_sound h ..
  | .callr .. => execCallr_sound h ..
  | .ret .. => execRet_sound h ..
  | .bsync .. => execBsync_sound h ..
  | .exit .. => execExit_sound h ..
  | .region .. => execRegion_sound h ..
  | .trap .. => execTrap_sound h ..
  | .rett => execRett_sound h
  | .tmask .. => execTmask_sound h ..
  | .csrr .. => execCsrr_sound h ..
  | .csrw .. => execCsrw_sound h ..
  | .yield => execYield_sound h
  | .sysc .. => execSysc_sound h ..
  | .brk .. => execBrk_sound h ..
  | .waitt .. => execWaitt_sound h ..
  | .tkst .. => execTkst_sound h ..
  | .barinit .. => execBarinit_sound h ..
  | .bararv .. => execBararv_sound h ..
  | .barxb .. => execBarxb_sound h ..
  | .barwait .. => execBarwait_sound h ..
  | .bartest .. => execBartest_sound h ..
  | .barinv .. => execBarinv_sound h ..
  | .cntrd .. => execCntrd_sound h ..
  | .cntctl .. => execCntctl_sound h ..
  | .genrd .. => execGenrd_sound h ..
  | .lyset .. => execLyset_sound h ..
  | .lyget .. => execLyget_sound h ..
  | .tplset .. => execTplset_sound h ..
  | .tplget .. => execTplget_sound h ..
  | .tlbinv .. => execTlbinv_sound h ..
  | .fgset .. => execFgset_sound h ..
  | .hdlset .. => execHdlset_sound h ..
  | .ld .. => execLd_sound h ..
  | .st .. => execSt_sound h ..
  | .lds .. => execLds_sound h ..
  | .sts .. => execSts_sound h ..
  | .ldc .. => execLdc_sound h ..
  | .prf .. => execPrf_sound h ..
  | .acp .. => execAcp_sound h ..
  | .atom .. => execAtom_sound h ..
  | .red .. => execRed_sound h ..
  | .atoms .. => execAtoms_sound h ..
  | .fence .. => execFence_sound h ..
  | .iflush .. => execIflush_sound h ..
  | .isync .. => execIsync_sound h ..
  | .cwb .. => execCwb_sound h ..
  | .pinit .. => execPinit_sound h ..
  | .pfill .. => execPfill_sound h ..
  | .pwait .. => execPwait_sound h ..
  | .pequ .. => execPequ_sound h ..
  | .ptest .. => execPtest_sound h ..
  | .ldl .. => execLdl_sound h ..
  | .stl .. => execStl_sound h ..
  | .mma .. => execMma_sound h ..
  | .mmaz .. => execMmaz_sound h ..
  | .accz .. => execAccz_sound h ..
  | .accld .. => execAccld_sound h ..
  | .accst .. => execAccst_sound h ..
  | .accmvGet .. => execAccmvGet_sound h ..
  | .accmvPut .. => execAccmvPut_sound h ..
  | .accmvStat .. => execAccmvStat_sound h ..
  | .accmvCopy .. => execAccmvCopy_sound h ..
  | .accsc .. => execAccsc_sound h ..
  | .mtest .. => execMtest_sound h ..
  | .rgacqInit .. => execRgacqInit_sound h ..
  | .rgacq .. => execRgacq_sound h ..
  | .rgcmt .. => execRgcmt_sound h ..
  | .rgtake .. => execRgtake_sound h ..
  | .rgrel .. => execRgrel_sound h ..
  | .bcopy .. => execBcopy_sound h ..
  | .qfence .. => execQfence_sound h ..
  | .amsg .. => execAmsg_sound h ..
  | .nsend .. => execNsend_sound h ..
  | .nrecv .. => execNrecv_sound h ..
  | .fput .. => execFput_sound h ..
  | .fget .. => execFget_sound h ..
  | .fcopy .. => execFcopy_sound h ..
  | .fmrs .. => execFmrs_sound h ..
  | .fmrl .. => execFmrl_sound h ..
  | .nprobe .. => execNprobe_sound h ..
  | .tokenCompletion .. => execTokenCompletion_sound h ..
  | .dlyExpiry .. => execDlyExpiry_sound h ..
  | .yieldExpiry .. => execYieldExpiry_sound h ..
  | .regionGuardWaitExpiry .. => execRegionGuardWaitExpiry_sound h ..
  | .asyncTrapTaken .. => execAsyncTrapTaken_sound h ..
  | .debugRequest .. => execDebugRequest_sound h ..
  | .eventCounterOverflow .. => execEventCounterOverflow_sound h ..
  | .meterAccumulate .. => execMeterAccumulate_sound h ..
  | .matrixEntryStart .. => execMatrixEntryStart_sound h ..
  | .matrixEntryComplete .. => execMatrixEntryComplete_sound h ..
  | .selfTestProduct .. => execSelfTestProduct_sound h ..
  | .copyEntryExecute .. => execCopyEntryExecute_sound h ..
  | .ringEntryEffect .. => execRingEntryEffect_sound h ..
  | .networkEntryStart .. => execNetworkEntryStart_sound h ..
  | .serviceRecordTake .. => execServiceRecordTake_sound h ..
  | .amsgArrival .. => execAmsgArrival_sound h ..
  | .handlerSpawn .. => execHandlerSpawn_sound h ..
  | .launchAdmission => execLaunchAdmission_sound h
  | .courseRetire .. => execCourseRetire_sound h ..
  | .launchComplete .. => execLaunchComplete_sound h ..
  | .quarantineRelease .. => execQuarantineRelease_sound h ..
  | .strikeReport .. => execStrikeReport_sound h ..
  | .regionRollback .. => execRegionRollback_sound h ..
  | .pwaitRepeat .. => execPwaitRepeat_sound h ..
  | .partialEviction .. => execPartialEviction_sound h ..
  | .fullEviction .. => execFullEviction_sound h ..
  | .courseUnpark .. => execCourseUnpark_sound h ..
  | .trussRestore .. => execTrussRestore_sound h ..
  | .sliceBoundary .. => execSliceBoundary_sound h ..
  | .homeSliceAccess .. => execHomeSliceAccess_sound h ..
  | .lineHandover .. => execLineHandover_sound h ..
  | .pageIn .. => execPageIn_sound h ..
  | .pageOut .. => execPageOut_sound h ..
  | .counterManagedMove .. => execCounterManagedMove_sound h ..
  | .stage1FaultRecord .. => execStage1FaultRecord_sound h ..
  | .stage2FaultEvent .. => execStage2FaultEvent_sound h ..
  | .eccCorrected .. => execEccCorrected_sound h ..
  | .eccUncorrectable .. => execEccUncorrectable_sound h ..
  | .courseKill .. => execCourseKill_sound h ..
  | .killDrain .. => execKillDrain_sound h ..
  | .drainTimeout .. => execDrainTimeout_sound h ..
  | .killDump => execKillDump_sound h
  | .killRelease => execKillRelease_sound h
  | .coreRetire .. => execCoreRetire_sound h ..
  | .columnRetire .. => execColumnRetire_sound h ..
  | .kickWrite .. => execKickWrite_sound h ..
  | .submissionWrite .. => execSubmissionWrite_sound h ..
  | .packetFetch .. => execPacketFetch_sound h ..
  | .packetNop .. => execPacketNop_sound h ..
  | .packetLaunch .. => execPacketLaunch_sound h ..
  | .packetWaitPromise .. => execPacketWaitPromise_sound h ..
  | .packetWaitMemory .. => execPacketWaitMemory_sound h ..
  | .waitPoll .. => execWaitPoll_sound h ..
  | .packetSignalFill .. => execPacketSignalFill_sound h ..
  | .packetSignalStore .. => execPacketSignalStore_sound h ..
  | .packetSignalInterrupt .. => execPacketSignalInterrupt_sound h ..
  | .packetCond .. => execPacketCond_sound h ..
  | .packetCopy .. => execPacketCopy_sound h ..
  | .packetFence .. => execPacketFence_sound h ..
  | .packetRetire .. => execPacketRetire_sound h ..
  | .retireReport .. => execRetireReport_sound h ..
  | .queueSchedulerPass => execQueueSchedulerPass_sound h
  | .queueUnmap .. => execQueueUnmap_sound h ..
  | .heartbeatMiss .. => execHeartbeatMiss_sound h ..
  | .fallbackVisit .. => execFallbackVisit_sound h ..
  | .create .. => execCreate_sound h ..
  | .destroy .. => execDestroy_sound h ..
  | .setweight .. => execSetweight_sound h ..
  | .defset .. => execDefset_sound h ..
  | .setset .. => execSetset_sound h ..
  | .setmode .. => execSetmode_sound h ..
  | .mapvec .. => execMapvec_sound h ..
  | .map2 .. => execMap2_sound h ..
  | .unmap2 .. => execUnmap2_sound h ..
  | .abort2 .. => execAbort2_sound h ..
  | .meters .. => execMeters_sound h ..
  | .qcreate .. => execQcreate_sound h ..
  | .qrestart .. => execQrestart_sound h ..
  | .resetCourse .. => execResetCourse_sound h ..
  | .resetTruss .. => execResetTruss_sound h ..
  | .resetVirtualDevice .. => execResetVirtualDevice_sound h ..
  | .resetEngine .. => execResetEngine_sound h ..
  | .resetSliceColumn .. => execResetSliceColumn_sound h ..
  | .resetOpticalLink .. => execResetOpticalLink_sound h ..
  | .dumpack .. => execDumpack_sound h ..
  | .columnOn .. => execColumnOn_sound h ..
  | .columnOff .. => execColumnOff_sound h ..
  | .s1rootWrite .. => execS1rootWrite_sound h ..
  | .fltbaseWrite .. => execFltbaseWrite_sound h ..
  | .fltresReplay .. => execFltresReplay_sound h ..
  | .fltresAbort .. => execFltresAbort_sound h ..
  | .route .. => execRoute_sound h ..
  | .epset .. => execEpset_sound h ..
  | .gset .. => execGset_sound h ..
  | .gclr .. => execGclr_sound h ..
  | .quiesce .. => execQuiesce_sound h ..
  | .relock .. => execRelock_sound h ..
  | .bootctlRetry .. => execBootctlRetry_sound h ..
  | .bootctlAttest => execBootctlAttest_sound h
  | .pwrlimWrite .. => execPwrlimWrite_sound h ..
  | .registerWrite .. => execRegisterWrite_sound h ..
  | .powerOn .. => execPowerOn_sound h ..
  | .powerThrottle .. => execPowerThrottle_sound h ..
  | .thermalTrip => execThermalTrip_sound h
  | .lightDetect .. => execLightDetect_sound h ..
  | .trainingPhaseTimeout .. => execTrainingPhaseTimeout_sound h ..
  | .linkRetryTimer .. => execLinkRetryTimer_sound h ..
  | .flitReceive .. => execFlitReceive_sound h ..
  | .ctrlFlitReceive .. => execCtrlFlitReceive_sound h ..
  | .drainFlitReceive .. => execDrainFlitReceive_sound h ..
  | .ackTimer .. => execAckTimer_sound h ..
  | .resendTimeout .. => execResendTimeout_sound h ..
  | .resendLimit .. => execResendLimit_sound h ..
  | .lossOfLight .. => execLossOfLight_sound h ..
  | .laserRelight .. => execLaserRelight_sound h ..
  | .quiesceTimeout .. => execQuiesceTimeout_sound h ..
  | .put .. => execPut_sound h ..
  | .getreq .. => execGetreq_sound h ..
  | .getdata .. => execGetdata_sound h ..
  | .msg .. => execMsg_sound h ..
  | .contrib .. => execContrib_sound h ..
  | .lreq .. => execLreq_sound h ..
  | .ldata .. => execLdata_sound h ..
  | .done .. => execDone_sound h ..
  | .absent .. => execAbsent_sound h ..
  | .firmwareRunningAgain .. => execFirmwareRunningAgain_sound h ..
  | .wavelengthLock .. => execWavelengthLock_sound h ..
  | .hostMemoryWrite .. => execHostMemoryWrite_sound h ..
  | .hostAtomicop .. => execHostAtomicop_sound h ..
  | .modulePowerOff => execModulePowerOff_sound h

end Sys2Proof.Machine
end

section
/-!
PROOFS. What every step keeps: the step itself.
-/
namespace Sys2Proof.Machine
variable [Asked]

/-! ### The issue of a course's next word -/

theorem State.fillIcache_sound {s : State} (h : s.Sound) (core space pc : Nat) (cells : List ICell) : (s.fillIcache core space pc cells).Sound :=
  (State.dropIcache_sound (State.dropIcache_sound h ..) ..).parts

theorem State.fetchMiss_sound {s : State} (h : s.Sound) (c : CRef) (t : Truss) (k : Course) : (s.fetchMiss c t k).1.Sound := by
  unfold State.fetchMiss
  extract_lets pc
  have hr := State.reach_sound h (t.agent k 0) t.space pc ⟨false, true, !t.kernelMode⟩
  split
  · next ht => exact sound_of_fst ht hr
  · next ht =>
    have hs := sound_of_fst ht hr
    split
    · exact hs
    · apply State.fillIcache_sound
      split
      · exact hs
      · exact State.touchLine_sound hs ..
  · next ht => exact State.modCourse_sound (sound_of_fst ht hr) ..

theorem State.fetch_sound {s : State} (h : s.Sound) (c : CRef) (t : Truss) (k : Course) : (s.fetch c t k).1.Sound := by
  unfold State.fetch
  (repeat' split) <;> apply_rules [h, State.fetchMiss_sound]

theorem bsyncAlone_sound {s : State} (h : s.Sound) (c : CRef) (k : Course) (b : Bsync) : (bsyncAlone s c k b).Sound := by
  unfold bsyncAlone
  dsimp only
  split
  · exact h
  · apply trapEntry_sound; exact h.parts

theorem runWord_sound {s : State} (h : s.Sound) (c : CRef) (t : Truss) (k : Course) : (runWord s c t k).Sound := by
  unfold runWord
  have hf := State.fetch_sound h c t k
  split
  · next ht =>
    have hs := sound_of_fst ht hf
    split
    · apply exec_sound
      exact hs.parts
    · exact trapEntry_sound hs ..
  · next ht => exact trapEntry_sound (sound_of_fst ht hf) ..
  · next ht => exact State.killCourse_sound (sound_of_fst ht hf) ..
  · next ht => exact sound_of_fst ht hf

theorem State.setCourse_sound {s : State} (h : s.Sound) (c : CRef) (k : Course) : (s.setCourse c k).Sound := h

theorem runCourse_sound {s : State} (h : s.Sound) (c : CRef) : (runCourse s c).Sound := by
  unfold runCourse
  split
  · next t k _ _ =>
    have hs := State.setCourse_sound h c k.merge
    dsimp only
    split
    · exact bsyncAlone_sound hs ..
    · exact hs
    · split
      · split
        · exact asyncTrap_sound hs _
        · exact rollback_sound hs _
      · exact runWord_sound hs ..
  · exact h

/-! ### The device's own steps -/

/-- A step of the device's own that keeps it. -/
def OwnStep.Keeps (f : OwnStep) : Prop := ∀ s : State, s.Sound → Out.Sound (f s)

/-- Every step of a list does. -/
def AllKeep (fs : List OwnStep) : Prop := ∀ f ∈ fs, OwnStep.Keeps f

theorem AllKeep.nil : AllKeep [] := List.forall_mem_nil _

theorem AllKeep.cons {f : OwnStep} {fs : List OwnStep} (hf : ∀ s : State, s.Sound → Out.Sound (f s)) (h : AllKeep fs) : AllKeep (f :: fs) :=
  List.forall_mem_cons.mpr ⟨hf, h⟩

theorem AllKeep.append {fs gs : List OwnStep} (hf : AllKeep fs) (hg : AllKeep gs) : AllKeep (fs ++ gs) :=
  List.forall_mem_append.mpr ⟨hf, hg⟩

theorem AllKeep.map {α : Type} {g : α → OwnStep} (xs : List α) (hg : ∀ a (s : State), s.Sound → Out.Sound (g a s)) : AllKeep (xs.map g) :=
  List.forall_mem_map.mpr fun a _ => hg a

theorem AllKeep.flatten {α : Type} {g : α → List OwnStep} (xs : List α) (hg : ∀ a, AllKeep (g a)) : AllKeep (xs.map g).flatten := by
  intro f hf
  obtain ⟨fs, hfs, hf⟩ := List.mem_flatten.mp hf
  obtain ⟨a, -, rfl⟩ := List.mem_map.mp hfs
  exact hg a f hf

theorem AllKeep.filter {fs : List OwnStep} (h : AllKeep fs) (p : OwnStep → Bool) : AllKeep (fs.filter p) :=
  fun f hf => h f (List.mem_of_mem_filter hf)

/-- A step of the opcode table keeps it. -/
theorem AllKeep.exec (i : Instr) {fs : List OwnStep} (h : AllKeep fs) : AllKeep (exec i :: fs) := .cons (fun _ hs => exec_sound hs i) h

theorem courseSteps_keep (c : CRef) : AllKeep (courseSteps c) :=
  .append (.map _ fun tk _ hs => exec_sound hs (.tokenCompletion c tk)) <|
    .exec (.courseRetire c) <| .exec (.quarantineRelease c) <| .exec (.courseUnpark c) <| .exec (.dlyExpiry c) <| .exec (.yieldExpiry c) <|
    .exec (.regionGuardWaitExpiry c) .nil

theorem trussSteps_keep (n : Nat) : AllKeep (trussSteps n) :=
  .exec (.ringEntryEffect n .copy) <| .exec (.ringEntryEffect n .mat) <| .exec (.ringEntryEffect n .net) <| .exec (.networkEntryStart n) <|
    .exec (.fullEviction n) <| .exec (.trussRestore n) .nil

theorem coreSteps_keep (s : State) (core : Nat) : AllKeep (s.coreSteps core) := by
  refine .append (.exec (.matrixEntryStart core _) <| .exec (.matrixEntryComplete core) <| .exec (.selfTestProduct core 0) <|
    .exec (.copyEntryExecute core _) <| .exec (.amsgArrival core) <| .exec (.handlerSpawn core) <| .exec (.coreRetire core) .nil) ?_
  split
  · next v need _ => exact .exec (.partialEviction core v need) .nil
  · exact .nil

theorem homeSteps_keep (s : State) : AllKeep s.homeSteps :=
  .append
    (.flatten _ fun a => .flatten _ fun i => .map _ fun v _ hs => exec_sound hs (.homeSliceAccess a.id i v))
    (.flatten _ fun p => .exec (.homeSliceAccess p.id 0 .home) <| .exec (.homeSliceAccess p.id 1 .home) <| .exec (.pwaitRepeat p.id) .nil)

theorem vdSteps_keep (s : State) (v : Fin 512) : AllKeep (s.vdSteps v) := by
  refine .append (.exec (.stage1FaultRecord v) <| .exec (.stage2FaultEvent v) <| .exec (.meterAccumulate v) .nil) fun f hf => ?_
  obtain ⟨p, -, hp⟩ := List.mem_filterMap.mp hf
  split at hp
  · next gpa =>
    cases hp
    exact fun _ hs => exec_sound hs (.pageIn v gpa)
  · cases hp

theorem linkSteps_keep (l : Fin 16) : AllKeep (linkSteps l) :=
  .exec (.ackTimer l) <| .exec (.resendTimeout l) <| .exec (.resendLimit l) <| .exec (.trainingPhaseTimeout l) <| .exec (.linkRetryTimer l) <|
    .exec (.quiesceTimeout l) .nil

theorem queueSteps_keep (b : Nat) : AllKeep (queueSteps b) :=
  .exec (.packetFetch b) <| .exec (.packetNop b) <| .exec (.packetLaunch b) <| .exec (.packetWaitPromise b) <| .exec (.packetWaitMemory b) <|
    .exec (.waitPoll b) <| .exec (.packetSignalFill b) <| .exec (.packetSignalStore b) <| .exec (.packetSignalInterrupt b) <|
    .exec (.packetCond b) <| .exec (.packetCopy b) <| .exec (.packetFence b) <| .exec (.packetRetire b) <| .exec (.retireReport b) .nil

theorem transferService_sound {s : State} (h : s.Sound) (x : Transfer) : Out.Sound (transferService x s) := by
  unfold transferService
  cases x.kind <;> exact transferStep_sound h ..

theorem ownSteps_keep (s : State) : AllKeep s.ownSteps := by
  unfold State.ownSteps
  refine .append (.append (.append (.append (.append (.append (.append (.append (.append (.append (.append (.append (.append (.append
    (.append (.flatten _ courseSteps_keep) (.flatten _ trussSteps_keep)) (.flatten _ (coreSteps_keep s))) (homeSteps_keep s))
    (.flatten _ fun v => ?_)) (.flatten _ fun e => queueSteps_keep e.1))
    (.flatten _ fun q => .map _ fun n _ hs => exec_sound hs (.fallbackVisit q n))) (.flatten _ linkSteps_keep))
    (.map _ fun i _ hs => transferService_sound hs i.x)) (.map _ fun n _ hs => exec_sound hs (.launchComplete n)))
    (.map _ fun n _ hs => exec_sound hs (.sliceBoundary n))) (.map _ fun e _ hs => exec_sound hs (.killDrain e)))
    (.flatten _ fun e => .exec (.drainTimeout ⟨e, false⟩) <| .exec (.drainTimeout ⟨e, true⟩) .nil))
    (.map _ fun c _ hs => exec_sound hs (.columnRetire c))) ?_)
    (.exec .launchAdmission <| .exec .killDump <| .exec .killRelease <| .exec .queueSchedulerPass <|
      .cons (fun _ hs => attestStep_sound hs) .nil)
  · split
    · exact vdSteps_keep s v
    · exact .nil
  · split
    · exact .map _ fun l _ hs => exec_sound hs (.lineHandover l)
    · exact .nil

/-! ### What comes next -/

omit [Asked] in
theorem mem_of_chosen {α : Type} {tick : Nat} {xs : List α} {x : α} (h : chosen tick xs = some x) : x ∈ xs := by
  unfold chosen at h
  split at h
  · cases h; exact List.mem_singleton_self _
  · exact List.mem_of_getElem? h

theorem moves_keep (s : State) : AllKeep s.moves :=
  .append (.map _ fun c _ hs => runCourse_sound hs c) ((ownSteps_keep s).filter _)

/-- What the outcome is stays a variable here and below: the list of moves that it is chosen from is never to be worked out. -/
theorem runOn_sound {s : State} {o : Out} (h : s.Sound) (ho : s.runOn = o) : o.Sound := by
  unfold State.runOn at ho
  split at ho
  · next f hf => subst ho; exact (ownSteps_keep s).filter _ f (mem_of_chosen hf) s h
  · subst ho; exact State.advanceTo_sound h _

theorem issueOne_sound {s : State} (h : s.Sound) : Out.Sound s.issueOne := by
  unfold State.issueOne
  split
  · split
    · exact h
    · exact runCourse_sound h _
  · exact h

/-- One of the moves that are possible, or else the end of a wait. -/
theorem oneMove_sound {s : State} {o : Out} (h : s.Sound)
    (ho : (match chosen s.tick s.moves with | some f => f s | none => s.runOn) = o) : o.Sound := by
  generalize hf : chosen s.tick s.moves = m at ho
  cases m with
  | none => exact runOn_sound h ho
  | some f => subst ho; exact moves_keep s f (mem_of_chosen hf) s h

theorem alone_sound {s : State} {o : Out} (h : s.Sound) (ho : s.alone = o) : o.Sound := by
  unfold State.alone at ho
  split at ho
  · subst ho; exact execPowerOn_sound h _
  · subst ho; exact bootAdvance_sound h
  · subst ho; exact h
  · split at ho
    · subst ho; exact h
    · exact oneMove_sound h ho

theorem happen_sound {s : State} (h : s.Sound) (i : Instr) : Out.Sound (s.happen i) := by
  unfold State.happen
  split
  · exact h
  · exact exec_sound h i

theorem happening_sound {s : State} {o : Out} (h : s.Sound) (ho : happening s = o) : o.Sound := by
  unfold happening at ho
  split at ho
  · exact alone_sound h ho
  · split at ho
    · subst ho; apply issueOne_sound; exact h.parts
    · subst ho; exact h.parts
  · subst ho; apply happen_sound; exact h.parts

theorem passTime_sound {o o' : Out} (h : o.Sound) (ho : passTime o = o') : o'.Sound := by
  subst ho
  cases o with
  | next s =>
    have hs : (s.advanceTo (s.clk + Config.extraCycles s.tick)).Sound := State.advanceTo_sound h _
    exact hs.parts
  | fault f => exact h
  | refused r => exact h

theorem step_sound {s : State} {o : Out} (h : s.Sound) (ho : step s = o) : o.Sound := by
  unfold step at ho
  generalize hp : happening s = p at ho
  exact passTime_sound (happening_sound h hp) ho

end Sys2Proof.Machine
end

section
/-!
PROOFS. Memory keeps its form, and the clocks keep pace.
-/
namespace Sys2Proof.Machine

/-! ### The two obligations -/

theorem step_keeps_memoryForm {s s' : State} (h : MemoryForm s) (hs : step s = .next s') : MemoryForm s' := by
  let : Asked := ⟨True, False⟩
  have h0 : s.Sound := ⟨fun _ => h.1, fun _ => h.2, fun hf => hf.elim⟩
  have h1 : s'.Sound := (step_sound h0 hs : Out.Sound (.next s'))
  exact ⟨h1.mem trivial, h1.host trivial⟩

theorem step_keeps_clocks {s s' : State} (h : s.clk * 2 / 3 ≤ s.ioClk) (hs : step s = .next s') : s'.clk * 2 / 3 ≤ s'.ioClk := by
  let : Asked := ⟨False, True⟩
  have h0 : s.Sound := ⟨fun hf => hf.elim, fun hf => hf.elim, fun _ => h⟩
  have h1 : s'.Sound := (step_sound h0 hs : Out.Sound (.next s'))
  exact h1.clocks trivial

/-- Cycles that pass take neither clock back. -/
theorem passTime_clocks {s s' : State} (h : passTime (.next s) = .next s') : s.clk ≤ s'.clk ∧ s.ioClk ≤ s'.ioClk := by
  have hs : s' = { (s.advanceTo (s.clk + Config.extraCycles s.tick)).sense with tick := s.tick + 1 } := by
    simpa [passTime] using h.symm
  subst hs
  exact ⟨Nat.le_max_left .., Nat.le_max_left ..⟩

/-- Settles O60: what every step keeps, asked of memory alone. -/
theorem memoryKeepsForm : Obligations.MemoryKeepsForm := by
  unfold Obligations.MemoryKeepsForm
  exact fun _ _ => step_keeps_memoryForm

/-- Settles O59: what every step keeps, asked of the clocks alone; time that passes moves both on. -/
theorem clocksKeepPace : Obligations.ClocksKeepPace := by
  unfold Obligations.ClocksKeepPace
  refine ⟨fun _ _ => step_keeps_clocks, fun o s s' ho h => ?_⟩
  subst ho
  exact passTime_clocks h

end Sys2Proof.Machine
end

section
/-!
PROOFS. Links: what their sending and their changes keep, and their training (18 R419, R424 to R430).
-/
namespace Sys2Proof.Machine

/-! ### What a link's sending leaves -/

/-- A link without what its sending changes: its flits, its sequence, its allowances and its counts of them. -/
def Link.still (l : Link) : Link :=
  { l with owe := 0, txSeq := 0, replay := [], cursor := 0, pend := [], sent := [], beats := 0, unacked := 0, resends := 0, allow := 0 }

/-- A flit as it is put on the light (R420, R421). -/
def Link.onLight (l : Link) (f : Flit) : Flit :=
  { f with ackSeq := l.rxSeq, av := true, allow := Nat.min l.owe 1023, wl := l.txmask, beat := l.beats }

theorem emit_sent (l : Link) (f : Flit) : (l.emit f).sent = l.sent ++ [l.onLight f] := rfl

theorem emit_still (l : Link) (f : Flit) : (l.emit f).still = l.still := rfl

/-- The next flit of the replay buffer leaves again. -/
def Link.resent (l : Link) (o : OutFlit) : Link :=
  { l.emit o.f with cursor := l.cursor + 1, allow := l.allow - 1, resends := l.resends + (l.cursor == 0).toNat }

/-- A new flit enters the replay buffer and leaves. -/
def Link.sentNew (l : Link) (o : OutFlit) (os : List OutFlit) : Link :=
  let f := { o.f with seq := l.txSeq }
  let a : Link := { { l with pend := os, replay := l.replay ++ [{ o with f := f }], txSeq := l.txSeq + 1 }.emit f with
    cursor := l.cursor + 1, allow := l.allow - 1 }
  if announces f then a.restart else a

theorem pumpFuel_succ (l : Link) (n : Nat) : l.pumpFuel (n + 1) =
    if l.st ≠ .up || l.allow = 0 then l
    else match l.replay[l.cursor]? with
      | some o => (l.resent o).pumpFuel n
      | none => match l.pend with
        | [] => l
        | o :: os => if 4096 ≤ l.replay.length then l else (l.sentNew o os).pumpFuel n := rfl

theorem sentNew_still (l : Link) (o : OutFlit) (os : List OutFlit) : (l.sentNew o os).still = l.still := by
  unfold Link.sentNew
  dsimp only
  split <;> rfl

/-- What holds of a link and is kept as a flit leaves holds when sending ends. -/
theorem pumpFuel_keeps {P : Link → Prop} (hresent : ∀ l o, P l → P (l.resent o)) (hnew : ∀ l o os, P l → P (l.sentNew o os)) (n : Nat) {l : Link}
    (h : P l) : P (l.pumpFuel n) := by
  induction n generalizing l with
  | zero => exact h
  | succ n ih =>
    rw [pumpFuel_succ]
    split
    · exact h
    · split
      · exact ih (hresent _ _ h)
      · split
        · exact h
        · split
          · exact h
          · exact ih (hnew _ _ _ h)

theorem pump_still (l : Link) : l.pump.still = l.still :=
  pumpFuel_keeps (P := fun b => b.still = l.still) (fun _ _ h => h) (fun a o os h => (sentNew_still a o os).trans h) _ rfl

theorem still_parts {a b : Link} (h : a.still = b.still) : a.st = b.st ∧ a.phase = b.phase ∧ a.rxSeq = b.rxSeq ∧ a.rxmask = b.rxmask ∧
    a.txmask = b.txmask ∧ a.lit = b.lit ∧ a.quiescing = b.quiescing ∧ a.lastAck = b.lastAck := by
  have h1 := congrArg Link.st h
  have h2 := congrArg Link.phase h
  have h3 := congrArg Link.rxSeq h
  have h4 := congrArg Link.rxmask h
  have h5 := congrArg Link.txmask h
  have h6 := congrArg Link.lit h
  have h7 := congrArg Link.quiescing h
  have h8 := congrArg Link.lastAck h
  exact ⟨h1, h2, h3, h4, h5, h6, h7, h8⟩

theorem still_drains {a b : Link} (h : a.still = b.still) : a.drainSent = b.drainSent ∧ a.drainGot = b.drainGot ∧ a.naking = b.naking := by
  have h1 := congrArg Link.drainSent h
  have h2 := congrArg Link.drainGot h
  have h3 := congrArg Link.naking h
  exact ⟨h1, h2, h3⟩

theorem sentNew_cursor (l : Link) (o : OutFlit) (os : List OutFlit) : (l.sentNew o os).cursor = l.cursor + 1 := by
  unfold Link.sentNew
  dsimp only
  split <;> rfl

theorem sentNew_sent (l : Link) (o : OutFlit) (os : List OutFlit) : ∃ f, (l.sentNew o os).sent = l.sent ++ [f] := by
  unfold Link.sentNew
  dsimp only
  split <;> exact ⟨_, rfl⟩

theorem sentNew_resends (l : Link) (o : OutFlit) (os : List OutFlit) : (l.sentNew o os).resends = l.resends := by
  unfold Link.sentNew
  dsimp only
  split <;> rfl

/-- Flits only ever join what has been sent. -/
theorem pumpFuel_sent (n : Nat) (l : Link) : ∃ fs, (l.pumpFuel n).sent = l.sent ++ fs := by
  refine pumpFuel_keeps (P := fun b => ∃ fs, b.sent = l.sent ++ fs) ?_ ?_ n ⟨[], by rw [List.append_nil]⟩
  · rintro b o ⟨fs, h⟩
    exact ⟨fs ++ [_], (congrArg (· ++ [_]) h).trans (List.append_assoc ..)⟩
  · rintro b o os ⟨fs, h⟩
    obtain ⟨f, hf⟩ := sentNew_sent b o os
    exact ⟨fs ++ [f], by rw [hf, h, List.append_assoc]⟩

/-- Resends are counted of the oldest flit alone (R426). -/
theorem pumpFuel_resends (n : Nat) {l : Link} (h : l.cursor ≠ 0) : (l.pumpFuel n).resends = l.resends := by
  refine (pumpFuel_keeps (P := fun b => b.cursor ≠ 0 ∧ b.resends = l.resends) ?_ ?_ n ⟨h, rfl⟩).2
  · rintro b o ⟨hc, hr⟩
    refine ⟨Nat.succ_ne_zero _, ?_⟩
    show b.resends + (b.cursor == 0).toNat = l.resends
    rw [beq_false_of_ne hc, hr]
    rfl
  · rintro b o os ⟨hc, hr⟩
    exact ⟨(sentNew_cursor b o os).symm ▸ Nat.succ_ne_zero _, (sentNew_resends b o os).trans hr⟩

/-- A link without allowance, or that is not UP, sends nothing. -/
theorem pump_stops {l : Link} (h : l.st ≠ .up ∨ l.allow = 0) : l.pump = l := by
  unfold Link.pump
  rw [pumpFuel_succ, if_pos (by simpa using h)]

/-- A link with nothing to send sends nothing. -/
theorem pump_empty {l : Link} (hr : l.replay = []) (hp : l.pend = []) : l.pump = l := by
  unfold Link.pump
  rw [pumpFuel_succ, hr, hp]
  split <;> rfl

/-! ### A change of one link -/

theorem link_pumpLink (s : State) (n : Fin 16) (g : Link → Link) (m : Nat) :
    (s.pumpLink n g).link m = if m = n then (g (s.link n)).pump else s.link m :=
  (link_of_links (links_of_noLines (pumpLink_noLines s n g)) m).trans (link_modLink s n _ m)

theorem link_toPhase (s : State) (n : Fin 16) (p : Nat) : (s.toPhase n p).link n =
    { s.link n with st := if p = 1 && !(s.link n).relocking && (s.link n).quiescing.isNone then .down else .training, phase := p,
                    phaseStart := s.clk } := by
  unfold State.toPhase
  rw [link_modLink, if_pos rfl]

theorem modLink_set {s : State} {n : Fin 16} (f : Link → Link) {l : Link} (h : f s.links[n] = l) :
    s.modLink n f = { s with links := s.links.set n l } := by
  unfold State.modLink
  rw [link_fin, vput_fin, h]

/-- Changes of a link one after another are one change. -/
theorem modLink_modLink (s : State) (n : Fin 16) (f g : Link → Link) : (s.modLink n f).modLink n g = s.modLink n fun l => g (f l) := by
  have hlink : (s.modLink n f).link n = f (s.link n) := by rw [link_modLink, if_pos rfl]
  unfold State.modLink at hlink ⊢
  rw [hlink]
  simp only [vput_fin, Vector.set_set]

/-! ### What a change of the fabric leaves of a link that is not UP -/

/-- A link without the allowance it owes. -/
def Link.noOwe (l : Link) : Link := { l with owe := 0 }

theorem noOwe_parts {a b : Link} (h : a.noOwe = b.noOwe) : a.st = b.st ∧ a.phase = b.phase ∧ a.rxSeq = b.rxSeq ∧ a.allow = b.allow ∧
    a.replay = b.replay ∧ a.retrains = b.retrains := by
  have h1 := congrArg Link.st h
  have h2 := congrArg Link.phase h
  have h3 := congrArg Link.rxSeq h
  have h4 := congrArg Link.allow h
  have h5 := congrArg Link.replay h
  have h6 := congrArg Link.retrains h
  exact ⟨h1, h2, h3, h4, h5, h6⟩

theorem returnOwed_noOwe (s : State) (i : Inbound) (m : Nat) : ((s.returnOwed i).link m).noOwe = (s.link m).noOwe := by
  unfold State.returnOwed
  split
  · next n _ =>
    rw [link_modLink]
    split
    · next hm => rw [hm]; rfl
    · rfl
  · rfl

theorem dropInbounds_noOwe (s : State) (p : Inbound → Bool) (m : Nat) : ((s.dropInbounds p).link m).noOwe = (s.link m).noOwe :=
  foldl_keeps _ (fun s : State => (s.link m).noOwe) (fun s i => returnOwed_noOwe s i m) _ s

theorem endNet_links (s : State) (tn id : Nat) (st : BitVec 8) : (s.endNet tn id st).links = s.links := by
  unfold State.endNet
  split <;> rfl

theorem endOutgoing_links (s : State) (xid : W32) (st : BitVec 8) : (s.endOutgoing xid st).links = s.links := by
  unfold State.endOutgoing
  split
  · refine (endNet_links ..).trans ?_
    dsimp only
    split
    · split <;> rfl
    · rfl
  · rfl

/-- The link that a flit takes is UP (R423). -/
theorem open_up {s : State} {d : Nat} {ls : List Nat} (h : s.openLinks d = ls) (hne : ls ≠ []) (x : Nat) :
    (s.link ((ls[x % ls.length]?).getD 0)).st = .up ∧ (ls[x % ls.length]?).getD 0 < 16 := by
  have hlt : x % ls.length < ls.length := Nat.mod_lt _ (List.length_pos_of_ne_nil hne)
  rw [List.getElem?_eq_getElem hlt, Option.getD_some]
  have hmem : ls[x % ls.length] ∈ s.openLinks d := h ▸ List.getElem_mem hlt
  unfold State.openLinks State.routeOf at hmem
  rw [List.mem_filter, List.mem_filter, List.mem_range, Bool.and_eq_true, beq_iff_eq] at hmem
  obtain ⟨⟨hk, -⟩, hup, -⟩ := hmem
  exact ⟨hup, hk⟩

/-- Flits that are routed leave a link that is not UP as it is, and so do the answers to those that are lost. -/
theorem route_link {m : Nat} {l : Link} (hl : l.st ≠ .up) (n : Nat) :
    (∀ (s : State) (o : OutFlit), s.link m = l → (s.routeFlit o n).link m = l) ∧
    (∀ (s : State) (os : List OutFlit), s.link m = l → (s.routeAll os n).link m = l) := by
  induction n with
  | zero => exact ⟨fun s o h => by unfold State.routeFlit; exact h, fun s os h => by unfold State.routeAll; exact h⟩
  | succ n ih =>
    obtain ⟨ihf, iha⟩ := ih
    constructor
    · intro s o h
      unfold State.routeFlit
      dsimp only
      split
      · split
        · exact h
        · split
          · split
            · exact (link_of_links (endOutgoing_links ..) m).trans h
            · exact h
          · split
            · split
              · exact iha _ _ h
              · exact h
            · exact h
      · next hls =>
        obtain ⟨hup, hk⟩ := open_up rfl hls o.f.xid.toNat
        generalize ((s.openLinks (epDev o.f.dstEp))[o.f.xid.toNat % (s.openLinks (epDev o.f.dstEp)).length]?).getD 0 = k at hup hk ⊢
        refine (link_pumpLink s ⟨k, hk⟩ _ m).trans ?_
        rw [if_neg (fun hm : m = k => hl (by rw [← h, hm]; exact hup)), h]
    · intro s os h
      unfold State.routeAll
      induction os generalizing s with
      | nil => exact h
      | cons o os iho => exact iho _ (ihf s o h)

theorem sendDone_link {s : State} {m : Nat} (h : (s.link m).st ≠ .up) (x : Transfer) (st : BitVec 8) : (s.sendDone x st).link m = s.link m := by
  unfold State.sendDone State.sendTransfer
  split
  · rfl
  · exact (route_link h 4).2 s _ rfl

/-- A link that is not UP, up to the allowance it owes, under a run of changes that each leave it so. -/
theorem foldl_noOwe {α : Type} {f : State → α → State} {m : Nat}
    (hf : ∀ s x, (s.link m).st ≠ .up → ((f s x).link m).noOwe = (s.link m).noOwe) (xs : List α) {s : State} (h : (s.link m).st ≠ .up) :
    ((xs.foldl f s).link m).noOwe = (s.link m).noOwe := by
  induction xs generalizing s with
  | nil => rfl
  | cons x xs ih =>
    have hstep := hf s x h
    exact (ih (by rw [(noOwe_parts hstep).1]; exact h)).trans hstep

theorem freeGroup_noOwe {s : State} {m : Nat} (h : (s.link m).st ≠ .up) (g : Nat) : ((s.freeGroup g).link m).noOwe = (s.link m).noOwe := by
  have hdrop : (((s.noChunks g).dropInbounds fun i => i.x.kind == .contrib && i.x.grp.toNat == g && i.at_ != 0).link m).noOwe = (s.link m).noOwe :=
    dropInbounds_noOwe (s.noChunks g) _ m
  rw [freeGroup_eq]
  refine (foldl_noOwe (fun s c hs => ?_) _ ?_).trans hdrop
  · rw [sendDone_link hs]
  · rw [(noOwe_parts hdrop).1]
    exact h

theorem fabricDone_links (s : State) : s.fabricDone.links = s.links := by
  unfold State.fabricDone
  split
  · rfl
  · dsimp only
    (repeat' split) <;> rfl

theorem rerouted_noOwe {s : State} {m : Nat} (h : (s.link m).st ≠ .up) : (s.rerouted.link m).noOwe = (s.link m).noOwe :=
  (dropInbounds_noOwe _ _ m).trans (congrArg Link.noOwe ((route_link h 5).2 s.noXmit s.xmit rfl))

theorem lostEnded_links (s : State) : s.lostEnded.links = s.links :=
  foldl_keeps _ State.links (fun s _ => endOutgoing_links s ..) _ s

theorem chunksTested_noOwe {s : State} {m : Nat} (h : (s.link m).st ≠ .up) : (s.chunksTested.link m).noOwe = (s.link m).noOwe := by
  refine foldl_noOwe (fun s g hs => ?_) _ h
  split
  · exact freeGroup_noOwe hs g
  · rfl

theorem fabricChanged_noOwe {s : State} {m : Nat} (h : (s.link m).st ≠ .up) : (s.fabricChanged.link m).noOwe = (s.link m).noOwe := by
  have h1 := rerouted_noOwe h
  have h2 : s.rerouted.lostEnded.link m = s.rerouted.link m := link_of_links (lostEnded_links _) m
  have h3 : (s.rerouted.lostEnded.link m).st ≠ .up := by
    rw [h2, (noOwe_parts h1).1]
    exact h
  rw [fabricChanged_eq, link_of_links (fabricDone_links _) m, chunksTested_noOwe h3, h2, h1]

end Sys2Proof.Machine
end

section
/-!
PROOFS. The training of a link (18 R419, R430).
-/
namespace Sys2Proof.Machine

/-! ### A fabric on which nothing is under way -/

/-- No flit waits, no transfer is under way, no chunk is open, and no command waits for links. -/
structure FabricStill (s : State) : Prop where
  xmit : s.xmit = []
  outgoing : s.outgoing = []
  contribStats : s.contribStats = []
  fbBusy : s.fbBusy = none

/-- The parts of the state of which that speaks. -/
def State.underWay (s : State) : List OutFlit × List Outgoing × List ContribStat × Option (Bool × BitVec 16) :=
  (s.xmit, s.outgoing, s.contribStats, s.fbBusy)

theorem FabricStill.of_underWay {s t : State} (h : FabricStill t) (he : s.underWay = t.underWay) : FabricStill s := by
  simp only [State.underWay, Prod.mk.injEq] at he
  obtain ⟨hx, ho, hc, hb⟩ := he
  exact ⟨hx.trans h.xmit, ho.trans h.outgoing, hc.trans h.contribStats, hb.trans h.fbBusy⟩

/-- Only what comes from a lost peer is dropped. -/
theorem FabricStill.changed {s : State} (h : FabricStill s) :
    s.fabricChanged = s.dropInbounds fun i => i.link.isSome && s.lostPeer i.x.srcEp := by
  have hkept := dropInbounds_noInbound s fun i => i.link.isSome && s.lostPeer i.x.srcEp
  have hroute : s.rerouted = s.dropInbounds fun i => i.link.isSome && s.lostPeer i.x.srcEp := by
    unfold State.rerouted
    rw [h.xmit, noXmit_nil h.xmit, routeAll_nil]
  generalize s.dropInbounds (fun i => i.link.isSome && s.lostPeer i.x.srcEp) = d at hkept hroute ⊢
  have hout : d.outgoing = s.outgoing := by
    have hnow := congrArg State.outgoing hkept
    exact hnow
  have hstats : d.contribStats = s.contribStats := by
    have hnow := congrArg State.contribStats hkept
    exact hnow
  rw [fabricChanged_eq, hroute, lostEnded_idle (hout.trans h.outgoing), chunksTested_idle (hstats.trans h.contribStats),
    fabricDone_free ((fbBusy_of_noInbound hkept).trans h.fbBusy)]

theorem FabricStill.changed_clk {s : State} (h : FabricStill s) : s.fabricChanged.clk = s.clk := by
  have hclk := congrArg State.clk (dropInbounds_noInbound s fun i => i.link.isSome && s.lostPeer i.x.srcEp)
  rw [h.changed]
  exact hclk

theorem FabricStill.changed_noOwe {s : State} (h : FabricStill s) (m : Nat) : (s.fabricChanged.link m).noOwe = (s.link m).noOwe := by
  rw [h.changed]
  exact dropInbounds_noOwe ..

/-- What records of links leave: the links, the clock, and what is under way. -/
theorem parts_of_noEvents {s t : State} (h : s.noEvents = t.noEvents) : s.links = t.links ∧ s.clk = t.clk ∧ s.underWay = t.underWay := by
  have hlinks := congrArg State.links h
  have hclk := congrArg State.clk h
  have hunder := congrArg State.underWay h
  exact ⟨hlinks, hclk, hunder⟩

theorem postCause_noEvents (s : State) (c : Cause) : (s.postCause c).noEvents = s.noEvents := flushEvents_noEvents _ _

theorem laserLost_eq {s u : State} (n : Nat) (lost : BitVec 16) (hu : s.postEvent 0x28 2 noVd 0 6 (BitVec.ofNat 64 n) = u) :
    (s.laserLost n lost).links = u.links ∧ (s.laserLost n lost).clk = u.clk ∧ (s.laserLost n lost).underWay = u.underWay := by
  refine ⟨?_, ?_, ?_⟩
  · unfold State.laserLost
    rw [hu]
  · unfold State.laserLost
    rw [hu]
  · unfold State.laserLost State.underWay
    rw [hu]

theorem laserLost_parts (s : State) (n : Nat) (lost : BitVec 16) : (s.laserLost n lost).links = s.links ∧ (s.laserLost n lost).clk = s.clk ∧
    (s.laserLost n lost).underWay = s.underWay := by
  obtain ⟨hlinks, hclk, hunder⟩ := laserLost_eq n lost rfl
  obtain ⟨hlinks', hclk', hunder'⟩ := parts_of_noEvents (postEvent_noEvents s 0x28 2 noVd 0 6 (BitVec.ofNat 64 n))
  exact ⟨hlinks.trans hlinks', hclk.trans hclk', hunder.trans hunder'⟩

/-- What a link's sending leaves of it. -/
theorem underWay_pumpLink (s : State) (n : Nat) (g : Link → Link) : (s.pumpLink n g).underWay = s.underWay := by
  have hsend := congrArg State.underWay (pumpLink_noLines s n g)
  exact hsend

theorem advanceTo_links (s : State) (t : Nat) : (s.advanceTo t).links = s.links := by
  have hlinks := congrArg State.links (advanceTo_withoutCores s t)
  exact hlinks

theorem advanceTo_underWay (s : State) (t : Nat) : (s.advanceTo t).underWay = s.underWay := by
  have hunder := congrArg State.underWay (advanceTo_withoutCores s t)
  exact hunder

/-! ### A link comes UP, or goes DOWN -/

/-- A link as it comes UP (R419, R426, R427). -/
def Link.comesUp (l : Link) (clk : Nat) : Link :=
  { l with st := .up, phase := 6, restarts := 0, relocking := false, quiescing := none, drainSent := false, drainGot := false,
           cursor := 0, resends := 0, naking := false, lastAck := clk, beats := 0 }

/-- The record of a link that comes UP (R427). -/
def State.upCause (s : State) (n : Nat) : Cause := s.linkCause 0x13 n 15 { s.link n with txmask := 0, rxmask := 0 } (s.link n)

theorem linkUp_eq (s : State) (n : Nat) :
    s.linkUp n = ((s.postCause (s.upCause n)).pumpLink n (Link.comesUp · (s.postCause (s.upCause n)).clk)).fabricChanged := rfl

/-- A link that holds no flit is UP, and sends nothing yet. -/
theorem linkUp_link {s : State} (h : FabricStill s) (n : Fin 16) (hr : (s.link n).replay = []) (hp : (s.link n).pend = []) :
    ((s.linkUp n).link n).st = .up ∧ ((s.linkUp n).link n).allow = (s.link n).allow ∧ ((s.linkUp n).link n).rxSeq = (s.link n).rxSeq := by
  obtain ⟨hlinks, -, hunder⟩ := parts_of_noEvents (postCause_noEvents s (s.upCause n))
  rw [linkUp_eq]
  generalize s.postCause (s.upCause n) = u at hlinks hunder ⊢
  have hpump : (u.pumpLink n (Link.comesUp · u.clk)).link n = (s.link n).comesUp u.clk := by
    rw [link_pumpLink, if_pos rfl, link_of_links hlinks]
    exact pump_empty hr hp
  have hsend := underWay_pumpLink u n (Link.comesUp · u.clk)
  obtain ⟨hst, -, hseq, hallow, -⟩ := noOwe_parts ((FabricStill.of_underWay h (hsend.trans hunder)).changed_noOwe n)
  rw [hst, hseq, hallow, hpump]
  exact ⟨rfl, rfl, rfl⟩

/-- A link as it goes DOWN (R419, R428). -/
def Link.goesDown (after : Link) (clk : Nat) : Link :=
  { after with st := .down, phase := if after.restarts < 3 then 1 else 0, replay := [], cursor := 0, pend := [], quiescing := none, drainSent := false,
               drainGot := false, relocking := false, resends := 0, naking := false, restripe := [], phaseStart := clk }

/-- A link goes DOWN once its record and its losses of laser light are noted; what it held goes on another. -/
def State.downWith (s : State) (n : Nat) (after : Link) (os : List OutFlit) : State :=
  ((s.modLink n fun _ => after.goesDown s.clk).routeAll os 5).fabricChanged

/-- The record of a link that goes DOWN (R427). -/
def State.downCause (s : State) (n : Nat) (after : Link) : Cause := s.linkCause 0x10 n 15 (s.link n) after

theorem linkDown_eq (s : State) (n : Nat) (after : Link) :
    s.linkDown n after = ((s.link n).restripe.foldl (fun s c => s.laserLost n (lostOf c)) (s.postCause (s.downCause n after))).downWith n after
      ((((s.link n).replay.filter fun o => o.f.ty == .data).map fun (o : OutFlit) => ({ o with f := { o.f with rs := true } } : OutFlit)) ++
        (s.link n).pend.filter fun o => o.f.ty == .data) := rfl

theorem lasersLost_parts (n : Nat) (cs : List Cause) (s : State) : let t := cs.foldl (fun s c => s.laserLost n (lostOf c)) s
    t.links = s.links ∧ t.clk = s.clk ∧ t.underWay = s.underWay :=
  ⟨foldl_keeps _ State.links (fun s c => (laserLost_parts s n (lostOf c)).1) cs s,
    foldl_keeps _ State.clk (fun s c => (laserLost_parts s n (lostOf c)).2.1) cs s,
    foldl_keeps _ State.underWay (fun s c => (laserLost_parts s n (lostOf c)).2.2) cs s⟩

theorem linkDown_link {s : State} (h : FabricStill s) (n : Fin 16) (hr : (s.link n).replay = []) (hp : (s.link n).pend = []) (after : Link) :
    ((s.linkDown n after).link n).st = .down ∧ (s.linkDown n after).clk = s.clk := by
  obtain ⟨-, hclk, hunder⟩ := parts_of_noEvents (postCause_noEvents s (s.downCause n after))
  obtain ⟨-, hclk', hunder'⟩ := lasersLost_parts n (s.link n).restripe (s.postCause (s.downCause n after))
  rw [linkDown_eq, hr, hp]
  generalize (s.link n).restripe.foldl (fun s c => s.laserLost n (lostOf c)) (s.postCause (s.downCause n after)) = u at hclk' hunder' ⊢
  unfold State.downWith
  rw [List.filter_nil, List.map_nil, List.append_nil, routeAll_nil]
  have hlink : (u.modLink n fun _ => after.goesDown u.clk).link n = after.goesDown u.clk := by rw [link_modLink, if_pos rfl]
  have hstill : FabricStill (u.modLink n fun _ => after.goesDown u.clk) := FabricStill.of_underWay h (hunder'.trans hunder)
  refine ⟨?_, hstill.changed_clk.trans (hclk'.trans hclk)⟩
  rw [(noOwe_parts (hstill.changed_noOwe n)).1, hlink]
  rfl

/-! ### The phases -/

section
variable {s : State} {n : Fin 16}

theorem lightDetect_ok {lit : BitVec 16} (hp : s.power = .ready) (hst : (s.link n).st = .down) (hr : (s.link n).restarts < 3)
    (hlow : 2 ≤ ones (lit &&& 0x00FF)) (hhigh : 2 ≤ ones (lit &&& 0xFF00)) : exec (.lightDetect n lit) s =
      .next { s with links := vput s.links n { (s.link n) with lit := lit, st := .training, phase := 2, phaseStart := s.clk } } := by
  have hfibres : ((fibres lit).all fun f => 2 ≤ ones f) = true := by
    unfold fibres
    simpa using And.intro hlow hhigh
  have hgo : ((s.link n).st == .down && (s.link n).restarts < 3 || (s.link n).st == .training && (s.link n).phase == 1) = true := by
    rw [hst]
    simpa using hr
  refine congrArg Host.Outcome.next ((if_neg (not_not_intro hp)).trans ((if_pos hgo).trans ((if_pos hfibres).trans ?_)))
  unfold State.toPhase
  rw [modLink_modLink]
  rfl

/-- The phase that a link is in has not run out. -/
theorem phaseOver_false {l : Link} (h : 2 ≤ l.phase → s.clk ≤ l.phaseStart + phaseLimit l.phase) : s.phaseOver l = false := by
  unfold State.phaseOver
  by_cases hp : 2 ≤ l.phase
  · simp [Nat.not_lt.mpr (h hp)]
  · simp [hp]

/-- The CTRL flit that says this end's parameters (R419). -/
def Link.paramFlit (l : Link) (id : BitVec 7) (n : Nat) : Flit :=
  { mkFlit .ctrl with seq := l.txSeq, par := some ⟨id, n, 1, 0xFFFF, l.rxmask⟩ }

theorem exec_wavelengthLock {locked : BitVec 16} (hst : (s.link n).st = .training) (hover : s.phaseOver (s.link n) = false) :
    exec (.wavelengthLock n locked) s = .next (
      if (s.link n).phase = 2 then
        if 2 ≤ ones ((s.link n).lit &&& locked) then (s.modLink n fun l => { l with rxmask := l.lit &&& locked }).toPhase n 3 else s.retrain n
      else if (s.link n).phase = 3 then s.toPhase n 4
      else if (s.link n).phase = 4 then
        (s.modLink n fun l => l.emit (l.paramFlit s.fabricId n)).toPhase n 5
      else s) := by
  exact congrArg Host.Outcome.next ((if_neg (not_not_intro hst)).trans (if_neg (ne_true_of_eq_false hover)))

theorem wavelengthLock_phase2 {locked : BitVec 16} (hst : (s.link n).st = .training) (hover : s.phaseOver (s.link n) = false)
    (hp : (s.link n).phase = 2) (hones : 2 ≤ ones ((s.link n).lit &&& locked)) : exec (.wavelengthLock n locked) s =
      .next { s with links := vput s.links n { (s.link n) with rxmask := (s.link n).lit &&& locked, phase := 3, phaseStart := s.clk } } := by
  rw [exec_wavelengthLock hst hover, if_pos hp, if_pos hones]
  unfold State.toPhase
  rw [modLink_modLink]
  refine congrArg Host.Outcome.next (congrArg (fun l => { s with links := vput s.links n l }) ?_)
  rw [← hst]
  rfl

theorem wavelengthLock_phase4 {locked : BitVec 16} (hst : (s.link n).st = .training) (hover : s.phaseOver (s.link n) = false)
    (hp : (s.link n).phase = 4) : ∃ s' f p, exec (.wavelengthLock n locked) s = .next s' ∧ (s'.link n).phase = 5 ∧
      (s'.link n).sent = (s.link n).sent ++ [f] ∧ f.ty = .ctrl ∧ f.par = some p ∧ p.rx = (s.link n).rxmask := by
  have hrun := exec_wavelengthLock (locked := locked) hst hover
  rw [if_neg (by rw [hp]; decide), if_neg (by rw [hp]; decide), if_pos hp] at hrun
  refine ⟨_, (s.link n).onLight ((s.link n).paramFlit s.fabricId n), ⟨s.fabricId, n, 1, 0xFFFF, (s.link n).rxmask⟩, hrun, ?_⟩
  · rw [link_toPhase, link_modLink, if_pos rfl]
    exact ⟨rfl, rfl, rfl, rfl, rfl⟩

/-- A CTRL flit of training that comes unharmed (R419). -/
theorem exec_trainCtrl {f : Flit} (hst : (s.link n).st = .training) (hty : f.ty = .ctrl) (hresv : f.resv = false) :
    exec (.ctrlFlitReceive n f) s = .next (s.trainCtrl n f) := by
  have hok : (received unharmed && !f.resv && !flitReserved f.ty) = true := by
    rw [hty, hresv]
    rfl
  have hctrl : (received unharmed && !f.resv && !flitReserved f.ty && decide (f.ty = .ctrl)) = true := by
    rw [hok, hty]
    rfl
  exact congrArg Host.Outcome.next ((if_pos hty).trans ((if_pos hst).trans (if_pos hctrl)))

/-- A CTRL flit in phase 5 with parameters that agree, and one in phase 6 of a link that does not train again. -/
theorem trainCtrl_phase5 {f : Flit} {p : LinkParams} (hover : s.phaseOver (s.link n) = false) (hp : (s.link n).phase = 5) (hpar : f.par = some p)
    (hid : p.id ≠ s.fabricId) (hversion : p.version = 1) (hones : 2 ≤ ones p.rx) (hmask : (s.link n).rxmask &&& ~~~ p.tx = 0) :
    s.trainCtrl n f = (s.modLink n fun l =>
      { l with txmask := p.rx, allow := if l.relocking then l.allow + f.allow else l.allow }.light
        { mkFlit .ctrl with seq := l.txSeq, allow := 1024 }).toPhase n 6 := by
  unfold State.trainCtrl
  rw [if_neg (ne_true_of_eq_false hover), hp, hpar]
  exact if_pos (by simp [hid, hversion, hones, hmask])

theorem trainCtrl_phase6 {f : Flit} (hover : s.phaseOver (s.link n) = false) (hp : (s.link n).phase = 6) (hpar : f.par = none)
    (hrelock : (s.link n).relocking = false) :
    s.trainCtrl n f = (s.modLink n fun l => { l with allow := f.allow, owe := 0, rxSeq := f.seq }).linkUp n := by
  unfold State.trainCtrl
  rw [if_neg (ne_true_of_eq_false hover), hp, hpar]
  exact if_neg (by rw [hrelock]; decide)

theorem ctrlFlit_phase5 {f : Flit} {p : LinkParams} (hst : (s.link n).st = .training) (hover : s.phaseOver (s.link n) = false)
    (hp : (s.link n).phase = 5) (hty : f.ty = .ctrl) (hresv : f.resv = false) (hpar : f.par = some p) (hid : p.id ≠ s.fabricId)
    (hversion : p.version = 1) (hones : 2 ≤ ones p.rx) (hmask : (s.link n).rxmask &&& ~~~ p.tx = 0) :
    ∃ s', exec (.ctrlFlitReceive n f) s = .next s' ∧ (s'.link n).phase = 6 ∧ (s'.link n).st = .training ∧ (s'.link n).txmask = p.rx := by
  refine ⟨_, (exec_trainCtrl hst hty hresv).trans (congrArg _ (trainCtrl_phase5 hover hp hpar hid hversion hones hmask)), ?_⟩
  rw [link_toPhase, link_modLink, if_pos rfl]
  exact ⟨rfl, rfl, rfl⟩

theorem ctrlFlit_phase6 {f : Flit} (h : FabricStill s) (hst : (s.link n).st = .training) (hover : s.phaseOver (s.link n) = false)
    (hp : (s.link n).phase = 6) (hty : f.ty = .ctrl) (hresv : f.resv = false) (hpar : f.par = none) (hrelock : (s.link n).relocking = false)
    (hpend : (s.link n).pend = []) (hreplay : (s.link n).replay = []) :
    ∃ s', exec (.ctrlFlitReceive n f) s = .next s' ∧ (s'.link n).st = .up ∧ (s'.link n).allow = f.allow ∧ (s'.link n).rxSeq = f.seq := by
  refine ⟨_, (exec_trainCtrl hst hty hresv).trans (congrArg _ (trainCtrl_phase6 hover hp hpar hrelock)), ?_⟩
  have hlink : (s.modLink n fun l => { l with allow := f.allow, owe := 0, rxSeq := f.seq }).link n =
      { s.link n with allow := f.allow, owe := 0, rxSeq := f.seq } := by rw [link_modLink, if_pos rfl]
  have hup := linkUp_link (s := s.modLink n fun l => { l with allow := f.allow, owe := 0, rxSeq := f.seq })
    ⟨h.xmit, h.outgoing, h.contribStats, h.fbBusy⟩ n (by rw [hlink]; exact hreplay) (by rw [hlink]; exact hpend)
  rw [hlink] at hup
  exact hup

/-- A phase that runs out begins the training again, at phase 1 (R419). -/
theorem trainingPhaseTimeout_ok (hst : (s.link n).st = .training) (hp : 2 ≤ (s.link n).phase) (hr : (s.link n).restarts < 3) :
    ∃ s', exec (.trainingPhaseTimeout n) s = .next s' ∧ (s'.link n).phase = 1 ∧ (s'.link n).restarts = (s.link n).restarts + 1 ∧
      (s.link n).phaseStart + phaseLimit (s.link n).phase ≤ s'.clk := by
  have hlinks (t : Nat) : (s.advanceTo t).link n = (s.link n) := link_of_links (advanceTo_links s t) n
  refine ⟨_, congrArg Host.Outcome.next (if_pos (by simp [hst, hp])), ?_⟩
  unfold State.retrain
  rw [hlinks]
  dsimp only
  rw [if_neg (by omega), link_toPhase, link_modLink, if_pos rfl, hlinks]
  exact ⟨rfl, rfl, Nat.le_max_right ..⟩

/-- A DOWN link tries phase 1 again (R419). -/
theorem linkRetryTimer_ok (hpow : s.power = .ready) (hst : (s.link n).st = .down) :
    ∃ s', exec (.linkRetryTimer n) s = .next s' ∧ (s'.link n).phase = 1 ∧ (s'.link n).restarts = 0 ∧
      ((s.link n).relocking = false → (s.link n).quiescing = none → (s'.link n).st = .down) ∧ (s.link n).phaseStart + 2 ^ 27 ≤ s'.clk := by
  refine ⟨_, congrArg Host.Outcome.next (if_neg (by simp [hst, hpow])), ?_⟩
  rw [link_toPhase, link_modLink, if_pos rfl, link_of_links (advanceTo_links s _)]
  refine ⟨rfl, rfl, fun hrelock hq => ?_, Nat.le_max_right ..⟩
  dsimp only
  rw [hrelock, hq]
  rfl

/-- A link that is not UP in time after its QUIESCE is DOWN (R430). -/
theorem quiesceTimeout_ok (h : FabricStill s) {t : Nat} (hq : (s.link n).quiescing = some t) (hpend : (s.link n).pend = [])
    (hreplay : (s.link n).replay = []) :
    ∃ s', exec (.quiesceTimeout n) s = .next s' ∧ (s'.link n).st = .down ∧ t + 2 ^ 32 ≤ s'.clk := by
  have hrun : exec (.quiesceTimeout n) s =
      .next ((s.advanceTo (t + 2 ^ 32)).linkDown n ((s.advanceTo (t + 2 ^ 32)).link n)) := by
    refine congrArg Host.Outcome.next ?_
    dsimp only
    rw [hq]
  have hlink := link_of_links (advanceTo_links s (t + 2 ^ 32)) n
  obtain ⟨hst, hclk⟩ := linkDown_link (h.of_underWay (advanceTo_underWay s (t + 2 ^ 32))) n (by rw [hlink]; exact hreplay)
    (by rw [hlink]; exact hpend) ((s.advanceTo (t + 2 ^ 32)).link n)
  refine ⟨_, hrun, hst, ?_⟩
  rw [hclk]
  exact Nat.le_max_right ..

end

/-- Settles O52: phase by phase, each by what the step makes of its link. -/
theorem linkTraining : Obligations.LinkTraining := by
  intro s n l hp hl hx ho hc hb hover
  have h : FabricStill s := ⟨hx, ho, hc, hb⟩
  subst hl
  have hover' := phaseOver_false hover
  simp only [← vput_fin]
  simp only [← link_fin] at hover' ⊢
  exact ⟨fun lit => lightDetect_ok hp, fun locked hst hp2 => wavelengthLock_phase2 hst hover' hp2,
    fun locked hst hp4 => wavelengthLock_phase4 hst hover' hp4, fun f p hst hp5 => ctrlFlit_phase5 hst hover' hp5,
    fun f hst hp6 hty hresv hpar hrelock => ctrlFlit_phase6 h hst hover' hp6 hty hresv hpar hrelock, trainingPhaseTimeout_ok,
    linkRetryTimer_ok hp, fun t => quiesceTimeout_ok h⟩

end Sys2Proof.Machine
end

section
/-!
PROOFS. The flits of an UP link: what is taken, discarded, acknowledged and resent, and its wavelengths (18 R421, R424 to R430).
-/
namespace Sys2Proof.Machine

/-! ### What a flit says of the reverse direction -/

/-- What acknowledged flits leave of the transfers under way (R424, R428). -/
def State.acked (s : State) (n : Nat) (f : Flit) : State :=
  let l := s.link n
  let k := match l.replay.head? with
    | some o => let d := (f.ackSeq - o.f.seq).toNat; if f.av && d ≤ l.replay.length then d else 0
    | none => 0
  let got := l.replay.take k
  let xids := (got.filter (·.mine)).map (·.f.xid)
  let on := got.filter fun o => !o.mine
  { s with
    outgoing := s.outgoing.map fun o => if xids.contains o.xid then { o with acked := true } else o,
    forwards := (s.forwards.filter fun w => !(on.any fun o => o.f.lst && w.is o.f)).map fun w =>
      if on.any fun o => w.is o.f then { w with acked := true } else w }

/-- A link once `k` of its flits are acknowledged (R424, R425). -/
def Link.took (l : Link) (k : Nat) (f : Flit) (clk : Nat) (rewind : Bool) : Link :=
  let l := { l with replay := l.replay.drop k, cursor := l.cursor - k, allow := l.allow + f.allow,
                    lastAck := if f.av then clk else l.lastAck, resends := if 0 < k then 0 else l.resends }
  if rewind then { l with cursor := 0 } else l

theorem takeAck_eq (s : State) (n : Nat) (f : Flit) : ∃ k rewind, s.takeAck n f = (s.acked n f).pumpLink n (Link.took · k f s.clk rewind) :=
  ⟨_, _, rfl⟩

/-- A link without what an acknowledgment or its sending changes. -/
def Link.unsent (l : Link) : Link := { l.still with lastAck := 0 }

theorem took_unsent (l : Link) (k : Nat) (f : Flit) (clk : Nat) (rewind : Bool) : (l.took k f clk rewind).unsent = l.unsent := by
  unfold Link.took
  dsimp only
  split <;> rfl

theorem pump_unsent (l : Link) : l.pump.unsent = l.unsent := congrArg (fun l : Link => { l with lastAck := 0 }) (pump_still l)

theorem unsent_parts {a b : Link} (h : a.unsent = b.unsent) : a.st = b.st ∧ a.rxSeq = b.rxSeq ∧ a.quiescing = b.quiescing ∧
    a.drainSent = b.drainSent ∧ a.drainGot = b.drainGot := by
  have h1 := congrArg Link.st h
  have h2 := congrArg Link.rxSeq h
  have h3 := congrArg Link.quiescing h
  have h4 := congrArg Link.drainSent h
  have h5 := congrArg Link.drainGot h
  exact ⟨h1, h2, h3, h4, h5⟩

theorem takeAck_link (s : State) (n : Fin 16) (f : Flit) : ((s.takeAck n f).link n).unsent = (s.link n).unsent := by
  obtain ⟨k, rewind, htake⟩ := takeAck_eq s n f
  rw [htake, link_pumpLink, if_pos rfl, pump_unsent, took_unsent]
  rfl

/-- What an acknowledgment leaves. -/
theorem takeAck_kept (s : State) (n : Nat) (f : Flit) : (s.takeAck n f).inbound = s.inbound ∧ (s.takeAck n f).mem = s.mem ∧
    (s.takeAck n f).clk = s.clk ∧ ∀ e, (s.takeAck n f).isOwn e = s.isOwn e := by
  obtain ⟨k, rewind, htake⟩ := takeAck_eq s n f
  have hpump := pumpLink_noLines (s.acked n f) n (Link.took · k f s.clk rewind)
  rw [htake]
  have h1 := congrArg State.inbound hpump
  have h2 := congrArg State.mem hpump
  have h3 := congrArg State.clk hpump
  have h4 (e : BitVec 16) := congrArg (State.isOwn · e) hpump
  exact ⟨h1, h2, h3, h4⟩

/-- No transfer that this switch forwards goes on by the link. -/
def NoneOn (n : Fin 16) (ws : List Forward) : Prop := ∀ w ∈ ws, w.ended = true ∨ w.out ≠ some n

theorem noneOn_acked {n : Fin 16} {w : Forward} (h : w.ended = true ∨ w.out ≠ some n) (c : Bool) :
    (if c then { w with acked := true } else w).ended = true ∨ (if c then { w with acked := true } else w).out ≠ some n := by
  cases c <;> exact h

theorem takeAck_forwards {s : State} {n : Fin 16} (f : Flit) (h : NoneOn n s.forwards) : NoneOn n (s.takeAck n f).forwards := by
  obtain ⟨k, rewind, htake⟩ := takeAck_eq s n f
  have hpump := congrArg State.forwards (pumpLink_noLines (s.acked n f) n (Link.took · k f s.clk rewind))
  have hforwards : (s.takeAck n f).forwards = (s.acked n f).forwards := by
    rw [htake]
    exact hpump
  rw [hforwards]
  intro w hw
  obtain ⟨w0, hmem, rfl⟩ := List.mem_map.mp hw
  exact noneOn_acked (h w0 (List.mem_of_mem_filter hmem)) _

/-- A link that takes no part in a quiesce does not fall quiet. -/
theorem quietCheck_open {s : State} {n : Nat} (h : (s.link n).quiescing = none) : s.quietCheck n = s :=
  if_neg (by rw [h]; simp)

/-! ### Receiving -/

section
variable {s : State} {n : Fin 16} {f : Flit}

/-- A mask that its sender sends on, and this end does not know yet (R427). -/
def Link.hasNews (l : Link) (f : Flit) : Bool := announces f && f.mask ≠ l.rxmask && f.wl &&& ~~~ f.mask == 0

/-- A link that takes a flit in its sequence. -/
def Link.inSequence (l : Link) (clk : Nat) : Link :=
  { l with rxSeq := l.rxSeq + 1, unacked := l.unacked + 1, lastRx := clk, naking := false }

/-- A link owes allowance for a flit more. -/
def State.owes (s : State) (n k : Nat) : State := s.modLink n fun l => { l with owe := l.owe + k }

/-- What a CTRL flit says is done before its acknowledgment is taken. -/
def State.controlled (s : State) (n : Nat) (f : Flit) : State := if f.ty = .ctrl then (s.owes n 1).upCtrl n f else s

/-- What a flit in sequence is for. -/
def State.serves (s : State) (n : Fin 16) (f : Flit) : State :=
  if f.ty = .ctrl then s
  else if f.ty = .drain then (s.takeDrain n).modLink n (·.idle false)
  else if s.isOwn f.dstEp then s.acceptFlit n f
  else (s.owes n 1).forwardFlit n f

/-- Flits that were taken are acknowledged after 64 of them at the latest (R424). -/
def State.ackFull (s : State) (n : Nat) : State := if 64 ≤ (s.link n).unacked then s.modLink n (·.idle false) else s

theorem flitStep_eq (s : State) (n : Fin 16) (rx : Reception) (f : Flit) : flitStep s n rx f =
    if (s.link n).st = .training then
      if (received rx && !f.resv && !flitReserved f.ty) && f.ty = .ctrl then s.trainCtrl n f else s.owes n (flitCosts f.ty).toNat
    else if (s.link n).st ≠ .up then s
    else if !(received rx && !f.resv && !flitReserved f.ty) || (f.wl ≠ (s.link n).rxmask && !(s.link n).hasNews f) then
      s.rejectFlit n (flitCosts f.ty)
    else if f.seq ≠ (s.link n).rxSeq then
      if (s.link n).hasNews f then (s.owes n 1).newRx n f.mask else s.rejectFlit n (flitCosts f.ty)
    else if f.ty = .idle then (s.takeAck n f).quietCheck n
    else ((((((s.modLink n (Link.inSequence · s.clk)).controlled n f).takeAck n f).serves n f).ackFull n).quietCheck n) := rfl

/-- A flit that is discarded is answered with a NAK for the expected one, but in a run of them (R424, R425). -/
theorem rejectFlit_link {costs : Bool} (hn : (s.link n).naking = false) : ∃ g, ((s.rejectFlit n costs).link n).rxSeq = (s.link n).rxSeq ∧
    ((s.rejectFlit n costs).link n).naking = true ∧ ((s.rejectFlit n costs).link n).sent = (s.link n).sent ++ [g] ∧ g.ty = .idle ∧ g.nak = true ∧
    g.ackSeq = (s.link n).rxSeq ∧ (s.rejectFlit n costs).inbound = s.inbound := by
  have hlink : (s.rejectFlit n costs).link n =
      { ({ s.link n with owe := if costs then (s.link n).owe + 1 else (s.link n).owe } : Link).idle true with naking := true } := by
    unfold State.rejectFlit
    rw [link_modLink, if_pos rfl]
    exact if_neg (by rw [hn]; exact Bool.false_ne_true)
  rw [hlink]
  exact ⟨_, rfl, rfl, rfl, rfl, rfl, rfl, rfl⟩

theorem flitStep_misplaced (hst : (s.link n).st = .up) (hty : f.ty = .data) (hbad : f.seq ≠ (s.link n).rxSeq ∨ f.wl ≠ (s.link n).rxmask) :
    flitStep s n unharmed f = s.rejectFlit n (flitCosts f.ty) := by
  have hnews : (s.link n).hasNews f = false := by
    unfold Link.hasNews announces
    rw [hty]
    rfl
  rw [flitStep_eq, if_neg (by rw [hst]; decide), if_neg (not_not_intro hst), hnews]
  split
  · rfl
  · next hok =>
    have hseq : f.seq ≠ (s.link n).rxSeq := by
      rcases hbad with h | h
      · exact h
      · simp [h] at hok
    rw [if_pos hseq, if_neg Bool.false_ne_true]

theorem flitStep_harmed {rx : Reception} (hst : (s.link n).st = .up) (hrx : received rx = false) :
    flitStep s n rx f = s.rejectFlit n (flitCosts f.ty) := by
  rw [flitStep_eq, if_neg (by rw [hst]; decide), if_neg (not_not_intro hst), if_pos (by rw [hrx]; rfl)]

/-- A flit in sequence is taken: its transfer is served here, or the end answers a DRAIN. -/
theorem flitStep_taken (hst : (s.link n).st = .up) (hresv : f.resv = false) (hseq : f.seq = (s.link n).rxSeq) (hwl : f.wl = (s.link n).rxmask)
    (hty : f.ty = .data ∨ f.ty = .drain) :
    flitStep s n unharmed f = ((((s.modLink n (Link.inSequence · s.clk)).takeAck n f).serves n f).ackFull n).quietCheck n := by
  have hctrl : f.ty ≠ .ctrl := by
    rcases hty with h | h <;> (rw [h]; decide)
  have hidle : f.ty ≠ .idle := by
    rcases hty with h | h <;> (rw [h]; decide)
  have hok : (received unharmed && !f.resv && !flitReserved f.ty) = true := by
    rcases hty with h | h <;> (rw [h, hresv]; rfl)
  have hgood : (!(received unharmed && !f.resv && !flitReserved f.ty) || (f.wl ≠ (s.link n).rxmask && !(s.link n).hasNews f)) = false := by
    rw [hok, decide_eq_false (not_not_intro hwl)]
    rfl
  rw [flitStep_eq, if_neg (by rw [hst]; decide), if_neg (not_not_intro hst), hgood, if_neg Bool.false_ne_true, if_neg (not_not_intro hseq),
    if_neg hidle, show (s.modLink n (Link.inSequence · s.clk)).controlled n f = s.modLink n (Link.inSequence · s.clk) from if_neg hctrl]

def State.joined (s : State) (i : Inbound) : State := { s with inbound := s.inbound ++ [i] }

/-- The transfer that its only flit makes at this switch. -/
def inboundOf (f : Flit) (n : Fin 16) (x : Transfer) : Inbound :=
  let i := mkInbound x (some n)
  { i with x := { i.x with data := patch i.x.data f.off f.data,
                           poison := i.x.poison ++ f.poison.map fun w => f.off / 8 + w - if f.fst then 4 else 0 },
           link := none }

/-- The last flit of a PUT, which is its first too, is a whole transfer, and its allowance is owed. -/
theorem acceptFlit_put {x : Transfer} (hdesc : f.desc = some x) (hkind : x.kind = .put) (hlst : f.lst = true) (hin : s.inbound = []) :
    s.acceptFlit n f = (s.joined (inboundOf f n x)).owes n 1 := by
  have hnone : s.inbound.find? (fun i => i.link.isSome && i.x.srcEp == f.srcEp && i.x.dstEp == f.dstEp && i.x.xid == f.xid) = none := by
    rw [hin]
    rfl
  have hplain : (x.kind == .msg || x.kind == .done) = false := by
    rw [hkind]
    rfl
  have hcontrib : (x.kind == .contrib) = false := by
    rw [hkind]
    rfl
  unfold State.acceptFlit
  dsimp only
  rw [hnone, hdesc]
  dsimp only
  rw [hplain, hcontrib, hlst]
  rfl

theorem link_owes (k : Nat) : ((s.owes n k).link n).unsent = (s.link n).unsent ∧ ((s.owes n k).link n).unacked = (s.link n).unacked := by
  unfold State.owes
  rw [link_modLink, if_pos rfl]
  exact ⟨rfl, rfl⟩

/-- What the acknowledgment of taken flits leaves. -/
theorem ackFull_kept (s : State) (n : Fin 16) : ((s.ackFull n).link n).unsent = (s.link n).unsent ∧ (s.ackFull n).inbound = s.inbound ∧
    (s.ackFull n).mem = s.mem := by
  unfold State.ackFull
  split
  · rw [link_modLink, if_pos rfl]
    exact ⟨rfl, rfl, rfl⟩
  · exact ⟨rfl, rfl, rfl⟩

/-- A flit of a link in its sequence. -/
theorem inSequence_link : ((s.modLink n (Link.inSequence · s.clk)).link n) = (s.link n).inSequence s.clk := by rw [link_modLink, if_pos rfl]

/-- A PUT of one flit is taken, once (R424, R428). -/
theorem flitReceive_put {x : Transfer} (hst : (s.link n).st = .up) (hq : (s.link n).quiescing = none) (hresv : f.resv = false) (hty : f.ty = .data)
    (hseq : f.seq = (s.link n).rxSeq) (hwl : f.wl = (s.link n).rxmask) (hdesc : f.desc = some x) (hown : s.isOwn f.dstEp = true)
    (hkind : x.kind = .put) (hlst : f.lst = true) (hin : s.inbound = []) :
    ∃ s' i, exec (.flitReceive n unharmed f) s = .next s' ∧ (s'.link n).rxSeq = (s.link n).rxSeq + 1 ∧ s'.inbound = [i] ∧ i.whole = true ∧
      i.x.data = patch x.data f.off f.data ∧ i.x.kind = .put ∧ s'.mem = s.mem := by
  have hlink := (takeAck_link (s.modLink n (Link.inSequence · s.clk)) n f).trans (congrArg Link.unsent inSequence_link)
  obtain ⟨hinbound, hmem, -, hisown⟩ := takeAck_kept (s.modLink n (Link.inSequence · s.clk)) n f
  have hrun := flitStep_taken hst hresv hseq hwl (.inl hty)
  generalize (s.modLink n (Link.inSequence · s.clk)).takeAck n f = u at hlink hinbound hmem hisown hrun
  have hserve : u.serves n f = (u.joined (inboundOf f n x)).owes n 1 := by
    unfold State.serves
    rw [hty, if_neg (by decide), if_neg (by decide), if_pos ((hisown f.dstEp).trans hown)]
    exact acceptFlit_put hdesc hkind hlst (hinbound.trans hin)
  obtain ⟨hack, hack2, hack3⟩ := ackFull_kept ((u.joined (inboundOf f n x)).owes n 1) n
  have hall : (((u.joined (inboundOf f n x)).owes n 1).ackFull n |>.link n).unsent = ((s.link n).inSequence s.clk).unsent :=
    hack.trans ((link_owes (s := u.joined (inboundOf f n x)) 1).1.trans hlink)
  obtain ⟨-, hrx, hquiet, -⟩ := unsent_parts hall
  rw [hserve, quietCheck_open (hquiet.trans hq)] at hrun
  refine ⟨_, inboundOf f n x, congrArg Host.Outcome.next hrun, hrx, ?_, rfl, rfl, hkind, hack3.trans hmem⟩
  rw [hack2]
  show u.inbound ++ [inboundOf f n x] = [inboundOf f n x]
  rw [hinbound]
  show s.inbound ++ [inboundOf f n x] = [inboundOf f n x]
  rw [hin]
  rfl

/-- A link that a DRAIN flit has come by (R430 step 1). -/
def Link.drains (l : Link) (clk : Nat) : Link := { l with drainGot := true, owe := l.owe + 1, quiescing := some (l.quiescing.getD clk) }

theorem takeDrain_eq (s : State) (n : Nat) : s.takeDrain n = (s.modLink n (Link.drains · s.clk)).sendDrain n := rfl

/-- The end that a DRAIN flit reaches answers with its own, behind what it holds. -/
theorem takeDrain_link (hst : (s.link n).st = .up) (hd : (s.link n).drainSent = false) (hf : NoneOn n s.forwards) :
    (s.takeDrain n).link n = ((s.link n).drains s.clk).drainQueued.pump := by
  have hlink : (s.modLink n (Link.drains · s.clk)).link n = (s.link n).drains s.clk := by rw [link_modLink, if_pos rfl]
  have hsends : (s.modLink n (Link.drains · s.clk)).sendDrain n = (s.modLink n (Link.drains · s.clk)).pumpLink n Link.drainQueued :=
    sendDrain_sends (by rw [hlink]; exact hst) (by rw [hlink]; rfl) (by rw [hlink]; exact hd) hf
  rw [takeDrain_eq, hsends, link_pumpLink, if_pos rfl, hlink]

theorem drainFlitReceive_ok (hst : (s.link n).st = .up) (hq : (s.link n).quiescing = none) (hty : f.ty = .drain) (hresv : f.resv = false)
    (hseq : f.seq = (s.link n).rxSeq) (hwl : f.wl = (s.link n).rxmask) (hd : (s.link n).drainSent = false) (hf : NoneOn n s.forwards) :
    ∃ s', exec (.drainFlitReceive n f) s = .next s' ∧ (s'.link n).drainGot = true ∧ (s'.link n).drainSent = true ∧
      (s'.link n).quiescing = some s.clk ∧ (s'.link n).rxSeq = (s.link n).rxSeq + 1 := by
  have hlink := (takeAck_link (s.modLink n (Link.inSequence · s.clk)) n f).trans (congrArg Link.unsent inSequence_link)
  obtain ⟨-, -, hclk, -⟩ := takeAck_kept (s.modLink n (Link.inSequence · s.clk)) n f
  have hforwards := takeAck_forwards (s := s.modLink n (Link.inSequence · s.clk)) f hf
  have hrun := flitStep_taken hst hresv hseq hwl (.inr hty)
  generalize (s.modLink n (Link.inSequence · s.clk)).takeAck n f = u at hlink hclk hforwards hrun
  obtain ⟨hst', hrx, hquiet, hsent, -⟩ := unsent_parts hlink
  have hserve : u.serves n f = (u.takeDrain n).modLink n (·.idle false) := by
    unfold State.serves
    rw [hty, if_neg (by decide), if_pos rfl]
  have hdrain : (u.serves n f).link n = ((u.link n).drains u.clk).drainQueued.pump.idle false := by
    rw [hserve, link_modLink, if_pos rfl, takeDrain_link (hst'.trans hst) (hsent.trans hd) hforwards]
  have hack : (u.serves n f).ackFull n = u.serves n f := by
    refine if_neg ?_
    rw [hdrain]
    show ¬ 64 ≤ 0
    decide
  have hholds := (pump_sendsOn ((u.link n).drains u.clk).drainQueued).holds (.inr (by simp [Link.drainQueued]))
  have hstill := pump_still ((u.link n).drains u.clk).drainQueued
  obtain ⟨-, -, hrx', -, -, -, hquiet', -⟩ := still_parts hstill
  obtain ⟨hsent', hgot', -⟩ := still_drains hstill
  rw [hack, quietCheck_holds (by rw [hdrain]; exact hholds)] at hrun
  refine ⟨_, congrArg Host.Outcome.next ((if_pos hty).trans hrun), ?_⟩
  rw [hdrain]
  refine ⟨hgot', hsent', hquiet'.trans ?_, hrx'.trans hrx⟩
  show some ((u.link n).quiescing.getD u.clk) = some s.clk
  rw [hquiet, hclk, show ((s.link n).inSequence s.clk).quiescing = none from hq]
  rfl

/-! ### Timers (R424 to R426) -/

theorem ackTimer_ok (hst : (s.link n).st = .up) (hq : (s.link n).quiescing = none) (hu : 0 < (s.link n).unacked) :
    ∃ s' g, exec (.ackTimer n) s = .next s' ∧ (s'.link n).unacked = 0 ∧ (s'.link n).sent = (s.link n).sent ++ [g] ∧ g.ty = .idle ∧
      g.ackSeq = (s.link n).rxSeq ∧ g.nak = false ∧ (s.link n).lastRx ≤ s'.clk := by
  have hlink : ((s.advanceTo (s.link n).lastRx).modLink n (·.idle false)).link n = (s.link n).idle false := by
    rw [link_modLink, if_pos rfl, link_of_links (advanceTo_links s _)]
  have hrun : exec (.ackTimer n) s = .next ((s.advanceTo (s.link n).lastRx).modLink n (·.idle false)) := by
    refine congrArg Host.Outcome.next ((if_pos (by simp [hst, hu])).trans (quietCheck_open ?_))
    rw [hlink]
    exact hq
  refine ⟨_, (s.link n).onLight { mkFlit .idle with seq := (s.link n).txSeq, nak := false }, hrun, ?_⟩
  rw [hlink]
  exact ⟨rfl, rfl, rfl, rfl, rfl, Nat.le_max_right ..⟩

/-- A link that begins to resend what it holds, from the oldest flit on. -/
def Link.rewound (l : Link) (clk : Nat) : Link := { l with cursor := 0, lastAck := clk }

/-- The oldest flit leaves again first, and that is counted (R426). -/
theorem rewound_pump {l : Link} {o : OutFlit} {os : List OutFlit} (hst : l.st = .up) (hr : l.replay = o :: os) (hallow : 0 < l.allow) (clk : Nat) :
    (l.rewound clk).pump.resends = l.resends + 1 ∧ ∃ g gs, (l.rewound clk).pump.sent = l.sent ++ g :: gs ∧ g.seq = o.f.seq := by
  have hfirst : (l.rewound clk).pump = ((l.rewound clk).resent o).pumpFuel (l.pend.length + l.replay.length) := by
    unfold Link.pump
    rw [pumpFuel_succ, if_neg (by simp [Link.rewound, hst, Nat.ne_of_gt hallow])]
    have hhead : (l.rewound clk).replay[(l.rewound clk).cursor]? = some o := by
      show l.replay[0]? = some o
      rw [hr]
      rfl
    rw [hhead]
    rfl
  have hcursor : ((l.rewound clk).resent o).cursor ≠ 0 := Nat.succ_ne_zero _
  obtain ⟨gs, hsent⟩ := pumpFuel_sent (l.pend.length + l.replay.length) ((l.rewound clk).resent o)
  rw [hfirst]
  refine ⟨pumpFuel_resends _ hcursor, (l.rewound clk).onLight o.f, gs, hsent.trans ?_, rfl⟩
  exact List.append_assoc l.sent [(l.rewound clk).onLight o.f] gs

theorem resendTimeout_ok {o : OutFlit} {os : List OutFlit} (hst : (s.link n).st = .up) (hr : (s.link n).replay = o :: os) :
    ∃ s', exec (.resendTimeout n) s = .next s' ∧ (s.link n).lastAck + 8192 ≤ s'.clk ∧ (s'.link n).lastAck = s'.clk ∧
      (0 < (s.link n).allow → (s'.link n).resends = (s.link n).resends + 1 ∧
        ∃ g gs, (s'.link n).sent = (s.link n).sent ++ g :: gs ∧ g.seq = o.f.seq) ∧
      ((s.link n).allow = 0 → (s'.link n).resends = (s.link n).resends ∧ (s'.link n).sent = (s.link n).sent) := by
  have hrun : exec (.resendTimeout n) s = .next ((s.advanceTo ((s.link n).lastAck + 8192)).pumpLink n
      (Link.rewound · (s.advanceTo ((s.link n).lastAck + 8192)).clk)) := congrArg Host.Outcome.next (if_pos (by simp [hst, hr]))
  have hlink := link_of_links (advanceTo_links s ((s.link n).lastAck + 8192)) n
  have hclk : (s.link n).lastAck + 8192 ≤ (s.advanceTo ((s.link n).lastAck + 8192)).clk := Nat.le_max_right ..
  refine ⟨_, hrun, ?_⟩
  generalize s.advanceTo ((s.link n).lastAck + 8192) = u at hlink hclk
  have hsend : (u.pumpLink n (Link.rewound · u.clk)).clk = u.clk := by
    have hnow := congrArg State.clk (pumpLink_noLines u n (Link.rewound · u.clk))
    exact hnow
  obtain ⟨-, -, -, -, -, -, -, hack⟩ := still_parts (pump_still ((s.link n).rewound u.clk))
  rw [link_pumpLink, if_pos rfl, hlink, hsend]
  refine ⟨hclk, hack, rewound_pump hst hr (clk := u.clk), fun hnone => ?_⟩
  rw [pump_stops (l := (s.link n).rewound u.clk) (.inr hnone)]
  exact ⟨rfl, rfl⟩

theorem resendLimit_ok (hst : (s.link n).st = .up) (hr : 16 ≤ (s.link n).resends) : ∃ s', exec (.resendLimit n) s = .next s' ∧
    (s'.link n).st = .training ∧ (s'.link n).phase = 2 ∧ (s'.link n).replay = (s.link n).replay ∧
    (s'.link n).retrains = if (s.link n).retrains = 255 then 255 else (s.link n).retrains + 1 := by
  refine ⟨_, congrArg Host.Outcome.next (if_pos (by simp [hst, hr])), ?_⟩
  have hlink : (((s.modLink n fun l => ({ l with relocking := true, lit := l.rxmask } : Link).countRetrain).toPhase n 2).link n) =
      { ({ s.link n with relocking := true, lit := (s.link n).rxmask } : Link).countRetrain with st := .training, phase := 2, phaseStart := s.clk } := by
    rw [link_toPhase, link_modLink, if_pos rfl]
    rfl
  obtain ⟨hst', hphase, -, -, hreplay, hretrains⟩ := noOwe_parts (fabricChanged_noOwe
    (s := (s.modLink n fun l => ({ l with relocking := true, lit := l.rxmask } : Link).countRetrain).toPhase n 2) (m := n)
    (by rw [hlink]; exact LinkSt.noConfusion))
  rw [hst', hphase, hreplay, hretrains, hlink]
  exact ⟨rfl, rfl, rfl, rfl⟩

/-! ### Wavelengths (R427, R429) -/

/-- The wavelengths of a mask that a loss leaves out of it. -/
theorem lost_mask (a b : BitVec 16) : a &&& ~~~ (a &&& ~~~ (b &&& a)) = b &&& a := by
  ext i hi
  simp only [BitVec.getElem_and, BitVec.getElem_not]
  cases a[i] <;> cases b[i] <;> rfl

/-- A link whose receive mask has shrunk, and which says so with a NAK. -/
def Link.shrunk (l : Link) (mask : BitVec 16) : Link := ({ l with rxmask := mask, naking := true } : Link).announce mask true true

theorem newRx_shrunk {mask : BitVec 16} (hones : 2 ≤ ones mask) (hlost : (s.link n).rxmask &&& ~~~ mask ≠ 0) :
    (s.newRx n mask).link n = ((s.link n).shrunk mask).pump := by
  unfold State.newRx
  dsimp only
  rw [if_neg (Nat.not_lt.mpr hones), if_neg hlost, link_of_links (parts_of_noEvents (postCause_noEvents ..)).1, link_pumpLink, if_pos rfl]
  rfl

theorem lossOfLight_ok {lost : BitVec 16} (hst : (s.link n).st = .up) (hlost : lost &&& (s.link n).rxmask ≠ 0)
    (hones : 2 ≤ ones ((s.link n).rxmask &&& ~~~ (lost &&& (s.link n).rxmask))) :
    ∃ s', exec (.lossOfLight n lost false) s = .next s' ∧ (s'.link n).rxmask = (s.link n).rxmask &&& ~~~ (lost &&& (s.link n).rxmask) ∧
      (s'.link n).st = .up ∧ (s'.link n).txmask = (s.link n).txmask := by
  have hnew : exec (.lossOfLight n lost false) s = .next (s.newRx n ((s.link n).rxmask &&& ~~~ (lost &&& (s.link n).rxmask))) := by
    refine congrArg Host.Outcome.next ?_
    unfold lightLost
    dsimp only
    rw [hst]
    exact if_neg hlost
  have hshrunk : (s.link n).rxmask &&& ~~~ ((s.link n).rxmask &&& ~~~ (lost &&& (s.link n).rxmask)) ≠ 0 := by
    rw [lost_mask]
    exact hlost
  generalize (s.link n).rxmask &&& ~~~ (lost &&& (s.link n).rxmask) = mask at hnew hones hshrunk ⊢
  have hlink := newRx_shrunk hones hshrunk
  obtain ⟨hst', -, -, hrx, htx, -⟩ := still_parts (pump_still ((s.link n).shrunk mask))
  refine ⟨_, hnew, ?_⟩
  rw [hlink]
  exact ⟨hrx, hst'.trans hst, htx⟩

/-- The link that announces relit wavelengths, and sends nothing else, sends that announcement. -/
theorem announce_pump {l : Link} {mask : BitVec 16} (hst : l.st = .up) (hallow : 0 < l.allow) (hcursor : l.cursor = l.replay.length)
    (hroom : l.replay.length < 4096) (hpend : l.pend = []) :
    ((l.announce mask true false).pump).txSeq = l.txSeq + 1 ∧ ∃ g, ((l.announce mask true false).pump).sent = l.sent ++ [g] ∧ g.ty = .ctrl ∧
      g.mask = mask ∧ g.ofTx = true ∧ g.nak = false := by
  let f : Flit := { mkFlit .ctrl with mask := mask, ofTx := true }
  have hone : l.announce mask true false = { l with pend := [⟨f, false⟩] } := by
    unfold Link.announce Link.ctrl
    rw [hpend]
    rfl
  have hfirst : (l.announce mask true false).pump = (({ l with pend := [⟨f, false⟩] } : Link).sentNew ⟨f, false⟩ []).pumpFuel (l.replay.length + 1) := by
    have hend : l.replay[l.cursor]? = none := by rw [hcursor]; exact List.getElem?_eq_none (Nat.le_refl _)
    unfold Link.pump
    rw [hone, pumpFuel_succ, if_neg (by simp [hst, Nat.ne_of_gt hallow])]
    dsimp only
    rw [hend]
    dsimp only
    rw [if_neg (Nat.not_le_of_lt hroom), List.length_singleton, Nat.add_comm 1]
  have hends : (({ l with pend := [⟨f, false⟩] } : Link).sentNew ⟨f, false⟩ []).pumpFuel (l.replay.length + 1) =
      ({ l with pend := [⟨f, false⟩] } : Link).sentNew ⟨f, false⟩ [] := by
    have hend : (({ l with pend := [⟨f, false⟩] } : Link).sentNew ⟨f, false⟩ []).replay[(({ l with pend := [⟨f, false⟩] } : Link).sentNew ⟨f, false⟩ []).cursor]? = none := by
      show (l.replay ++ [_])[l.cursor + 1]? = none
      rw [hcursor]
      exact List.getElem?_eq_none (by simp)
    rw [pumpFuel_succ, hend]
    split <;> rfl
  rw [hfirst, hends]
  exact ⟨rfl, _, rfl, rfl, rfl, rfl, rfl⟩

theorem laserRelight_ok {lit : BitVec 16} (hst : (s.link n).st = .up) (hlit : (s.link n).rxmask ||| lit ≠ (s.link n).rxmask) :
    ∃ s', exec (.laserRelight n lit) s = .next s' ∧ (s'.link n).lit = (s.link n).lit ||| lit ∧ (s'.link n).rxmask = (s.link n).rxmask ∧
      (0 < (s.link n).allow → (s.link n).cursor = (s.link n).replay.length → (s.link n).replay.length < 4096 → (s.link n).pend = [] →
        (s'.link n).txSeq = (s.link n).txSeq + 1 ∧ ∃ g, (s'.link n).sent = (s.link n).sent ++ [g] ∧ g.ty = .ctrl ∧
          g.mask = (s.link n).rxmask ||| lit ∧ g.ofTx = true ∧ g.nak = false) := by
  refine ⟨_, congrArg Host.Outcome.next ((if_pos hst).trans (if_neg hlit)), ?_⟩
  obtain ⟨-, -, -, hrx, -, hl, -⟩ := still_parts (pump_still (({ s.link n with lit := (s.link n).lit ||| lit } : Link).announce
    ((s.link n).rxmask ||| lit) true false))
  rw [link_pumpLink, if_pos rfl]
  exact ⟨hl, hrx, fun hallow hcursor hroom hpend => announce_pump hst hallow hcursor hroom hpend⟩

end

/-- Settles O53: each clause by what becomes of the link that the flit, the timer or the light acts on. -/
theorem linkFlits : Obligations.LinkFlits := by
  intro s n l hl hst hq
  subst hl
  simp only [← link_fin] at hst hq ⊢
  refine ⟨fun f x hresv hty hseq hwl _ hdesc hown hkind hlst hin => flitReceive_put hst hq hresv hty hseq hwl hdesc hown hkind hlst hin,
    fun f hty hbad hn => ?_, fun rx f hrx hn => ?_, fun f hty hresv hseq hwl _ => drainFlitReceive_ok hst hq hty hresv hseq hwl,
    ackTimer_ok hst hq, fun o os => resendTimeout_ok hst, resendLimit_ok hst, fun lost => lossOfLight_ok hst, fun lit => laserRelight_ok hst⟩
  · obtain ⟨g, hrx, hnak, hsent, hidle, hg, hseq, hin⟩ := rejectFlit_link (costs := flitCosts f.ty) hn
    exact ⟨_, g, congrArg Host.Outcome.next (flitStep_misplaced hst hty hbad), hrx, hnak, hsent, hidle, hg, hseq, hin⟩
  · obtain ⟨g, hrx', -, hsent, -, hg, hseq, hin⟩ := rejectFlit_link (costs := flitCosts f.ty) hn
    exact ⟨_, g, congrArg Host.Outcome.next (flitStep_harmed hst hrx), hrx', hsent, hg, hseq, hin⟩

end Sys2Proof.Machine
end

section
/-!
PROOFS. Transfers at the switch of their destination (16 R376, R379 to R382; 18 R422, R431, R433 to R435; 23 R460).
-/
namespace Sys2Proof.Machine

/-! ### What the reads and writes of a run leave -/

/-- A state without what a run of reads or writes changes. -/
def State.noRun (s : State) : State := { s.noReach with memPsn := [], hostPsn := [], l1 := [] }

theorem noRun_of_noReach {s t : State} (h : s.noReach = t.noReach) : s.noRun = t.noRun :=
  congrArg (fun s : State => { s with memPsn := [], hostPsn := [], l1 := [] }) h

theorem runPlace_noRun (s : State) (r : Reacher) (va : Nat) (w : Bool) : (s.runPlace r va w).1.noRun = s.noRun := by
  have hreach := noRun_of_noReach (reach_noReach s r.ag r.space va ⟨w, false, r.user⟩)
  unfold State.runPlace
  split
  · rfl
  · dsimp only
    split
    · split <;> exact hreach
    · exact hreach

theorem touchRange_noRun (s : State) (vd a n : Nat) (w : Bool) : (s.touchRange vd a n w).noRun = s.noRun :=
  noRun_of_noReach (noReach_of_noLines (touchRange_noLines ..))

theorem putBank_noRun (s : State) (vd : Nat) (host : Bool) (pa n : Nat) (b : Bank) : (s.putBank vd host pa n b).noRun = s.noRun := by
  unfold State.putBank
  split
  · rfl
  · exact (show State.noRun { s.touchRange vd pa n true with mem := b.m, memPsn := b.psn } = (s.touchRange vd pa n true).noRun from rfl).trans
      (touchRange_noRun ..)

theorem l1Drop_noRun (s : State) (core a : Nat) : (s.l1Drop core a).noRun = s.noRun := rfl

theorem readRun_noRun (r : Reacher) (fuel : Nat) (s : State) (va k n : Nat) : (s.readRun r va k n fuel).1.noRun = s.noRun := by
  induction fuel generalizing s va k n with
  | zero => rfl
  | succ fuel ih =>
    have hplace := runPlace_noRun s r va false
    unfold State.readRun
    split
    · rfl
    · split
      · next u e hp => rw [hp] at hplace; exact hplace
      · next u pl hp =>
        rw [hp] at hplace
        dsimp only
        refine (ih ..).trans (Eq.trans ?_ hplace)
        split
        · rfl
        · exact touchRange_noRun ..

theorem writeRun_noRun (r : Reacher) (psn : List Nat) (fuel : Nat) (s : State) (va k : Nat) (bs : List Byte) :
    (s.writeRun r va k psn fuel bs).1.noRun = s.noRun := by
  induction fuel generalizing s va k bs with
  | zero => unfold State.writeRun; rfl
  | succ fuel ih =>
    cases bs with
    | nil => rfl
    | cons b bs =>
      have hplace := runPlace_noRun s r va true
      unfold State.writeRun
      split
      · next u e hp => rw [hp] at hplace; exact hplace
      · next u pl hp =>
        rw [hp] at hplace
        dsimp only
        refine (ih ..).trans (Eq.trans ?_ hplace)
        split
        · exact putBank_noRun ..
        · exact (l1Drop_noRun ..).trans (putBank_noRun ..)

/-- The transfers of a state, and its number on the fabric. -/
theorem transfers_of_noRun {s t : State} (h : s.noRun = t.noRun) : s.inbound = t.inbound ∧ s.fabricId = t.fabricId ∧ s.outgoing = t.outgoing ∧
    s.gathers = t.gathers := by
  have h1 := congrArg State.inbound h
  have h2 := congrArg State.fabricId h
  have h3 := congrArg State.outgoing h
  have h4 := congrArg State.gathers h
  exact ⟨h1, h2, h3, h4⟩

theorem isOwn_congr {s t : State} (h : s.fabricId = t.fabricId) (e : BitVec 16) : s.isOwn e = t.isOwn e := by
  unfold State.isOwn
  rw [h]

/-! ### Transfers that come and go -/

/-- The transfers at this switch. -/
def State.holding (s : State) (is : List Inbound) : State := { s with inbound := is }

/-- A transfer that has come, whole, and was not sent before. -/
def State.come (s : State) (x : Transfer) : State :=
  { s with inbound := s.inbound ++ [mkInbound x none],
           seen := if x.kind == .msg || x.kind == .done then s.seen ++ [(x.kind, x.srcEp, x.xid)] else s.seen }

/-- The entry is one of the transfer. -/
def Inbound.of (i : Inbound) (x : Transfer) : Prop := i.x.kind = x.kind ∧ i.x.srcEp = x.srcEp ∧ i.x.dstEp = x.dstEp ∧ i.x.xid = x.xid

theorem of_is {i j : Inbound} {x : Transfer} (hi : i.of x) (hj : j.of x) : j.is i.x = true := by
  obtain ⟨hkind, hsrc, hdst, hxid⟩ := hi
  obtain ⟨hkind', hsrc', hdst', hxid'⟩ := hj
  unfold Inbound.is
  rw [hkind, hsrc, hdst, hxid, hkind', hsrc', hdst', hxid']
  simp

/-- The only transfer at this switch leaves it. -/
theorem dropInbound_single {s : State} {x : Transfer} {i j : Inbound} (hin : s.inbound = [j]) (hi : i.of x) (hj : j.of x) :
    s.dropInbound i = s.holding [] := by
  unfold State.dropInbound
  rw [hin, List.filter_cons_of_neg (by rw [of_is hi hj]; decide)]
  rfl

theorem dropInbound_only {s : State} {x : Transfer} {i : Inbound} (hin : s.inbound = [mkInbound x none]) (hi : i.of x) :
    s.dropInbound i = s.holding [] := dropInbound_single hin hi ⟨rfl, rfl, rfl, rfl⟩

theorem setInbound_single {s : State} {x : Transfer} {i j : Inbound} (hin : s.inbound = [j]) (hi : i.of x) (hj : j.of x) :
    s.setInbound i = s.holding [i] := by
  unfold State.setInbound
  rw [hin, List.map_singleton, if_pos (of_is hi hj)]
  rfl

theorem sendTransfer_own {s : State} {x : Transfer} (h : s.isOwn x.dstEp = true) (mine : Bool) :
    s.sendTransfer x mine = s.holding (s.inbound ++ [mkInbound x none]) := if_pos h

/-- A transfer of this device's is answered by a DONE at this switch. -/
theorem answer_own {s : State} {x : Transfer} {i : Inbound} (hin : s.inbound = [mkInbound x none]) (hi : i.of x) (hq : i.quiet = false)
    (hown : s.isOwn x.srcEp = true) (st : BitVec 8) :
    s.answer i st = s.holding [mkInbound { mkTransfer .done x.dstEp x.srcEp x.xid with st := st } none] := by
  unfold State.answer
  dsimp only
  rw [hq, if_neg Bool.false_ne_true, dropInbound_only hin hi]
  unfold State.sendDone
  obtain ⟨-, hsrc, hdst, hxid⟩ := hi
  rw [hsrc, hdst, hxid]
  exact sendTransfer_own hown false

/-! ### What a transfer does at its destination, by its kind -/

section
variable {u : State} {i : Inbound}

theorem serve_put (h : i.x.kind = .put) : u.serve i = u.servePut i := by
  unfold State.serve
  rw [h]

theorem serve_getReq (h : i.x.kind = .getReq) : u.serve i = u.serveGetReq i := by
  unfold State.serve
  rw [h]

theorem serve_getData (h : i.x.kind = .getData) : u.serve i = u.serveGetData i := by
  unfold State.serve
  rw [h]

theorem serve_msg (h : i.x.kind = .msg) : u.serve i = u.serveMsg i := by
  unfold State.serve
  rw [h]

theorem serve_contrib (h : i.x.kind = .contrib) : u.serve i = u.serveContrib i := by
  unfold State.serve
  rw [h]

theorem serve_lReq (h : i.x.kind = .lReq) : u.serve i = u.serveLReq i := by
  unfold State.serve
  rw [h]

theorem serve_lData (h : i.x.kind = .lData) : u.serve i = u.serveLData i := by
  unfold State.serve
  rw [h]

theorem serve_done (h : i.x.kind = .done) : u.serve i = u.serveDone i := by
  unfold State.serve
  rw [h]

theorem serve_absent (h : i.x.kind = .absent) : u.serve i = u.serveAbsent i := by
  unfold State.serve
  rw [h]

end

section
variable {s : State} {x : Transfer} (hp : s.power = .ready) (hown : s.isOwn x.dstEp = true) (hin : s.inbound = [])
include hp hown hin

/-- A transfer that has not come by flits comes, and is served. -/
theorem transferStep_fresh (h : x.kind = .msg ∨ x.kind = .done → (x.kind, x.srcEp, x.xid) ∉ s.seen) :
    transferStep s x.kind x = (s.come x).serve (mkInbound x none) := by
  have hnone : (s.inbound.find? fun i => i.is x) = none := by rw [hin]; rfl
  have hseen : ((x.kind == .msg || x.kind == .done) && s.seen.contains (x.kind, x.srcEp, x.xid)) = false := by
    by_cases hk : x.kind = .msg ∨ x.kind = .done
    · have hnot := h hk
      simp [hnot]
    · obtain ⟨hm, hd⟩ := not_or.mp hk
      simp [hm, hd]
  unfold transferStep
  dsimp only
  rw [if_neg (by simp [hp, hown]), hnone]
  dsimp only
  rw [hseen, if_neg Bool.false_ne_true]
  rfl

omit hp hown in
theorem come_plain (h : (x.kind == .msg || x.kind == .done) = false) : s.come x = s.holding [mkInbound x none] := by
  unfold State.come
  rw [hin, h]
  rfl

/-- The run of a transfer of a kind, which has not been sent before. -/
theorem transferStep_run {kind : XKind} (hkind : x.kind = kind) (h : kind = .msg ∨ kind = .done → (x.kind, x.srcEp, x.xid) ∉ s.seen) :
    transferStep s kind x = (s.come x).serve (mkInbound x none) := by
  subst hkind
  exact transferStep_fresh hp hown hin h

/-- One of a kind that is not noted as seen. -/
theorem transferStep_plain {kind : XKind} (hkind : x.kind = kind) (h : (kind == .msg || kind == .done) = false) :
    transferStep s kind x = (s.holding [mkInbound x none]).serve (mkInbound x none) := by
  rw [transferStep_run hp hown hin hkind (fun hk => absurd h (by rcases hk with rfl | rfl <;> decide)), come_plain hin (hkind ▸ h)]

end

/-! ### PUT, GETREQ, GETDATA -/

section
variable {u s1 : State} {i : Inbound}

/-- A test of a device that is ACTIVE passes. -/
theorem not_inactive {v : Nat} (h : u.active v = true) : ¬ (!u.active v) = true := by rw [h]; decide

theorem servePut_whole {n : Nat} {bad : Bool} (hact : u.active (epVd i.x.dstEp) = true) (hat : i.at_ = 0) (hpsn : i.psn = false)
    (hwhole : i.whole = true) (hrun : u.writeRun (switchReach (epVd i.x.dstEp)) i.x.addr.toNat 0 i.x.poison i.x.data.length i.x.data =
      (s1, n, bad, none)) :
    u.servePut i = s1.answer { i with at_ := n, psn := bad, wait := .untranslated } (okOr bad) := by
  unfold State.servePut
  dsimp only
  rw [hat, Nat.add_zero, List.drop_zero, hrun, hpsn, Nat.zero_add, Bool.false_or]
  exact (if_neg (not_inactive hact)).trans (if_pos hwhole)

theorem servePut_inactive (hact : u.active (epVd i.x.dstEp) = false) (hat : i.at_ = 0) : u.servePut i = u.answer i 2 := by
  unfold State.servePut
  dsimp only
  rw [hact, hat]
  rfl

/-- The bytes that a GETREQ has read, as they are sent. -/
def getReply (x : Transfer) (out : RunRead) : Transfer :=
  let y := { x with data := x.data ++ out.bytes, poison := x.poison ++ out.psn }
  { y with kind := .getData, srcEp := x.dstEp, dstEp := x.srcEp, addr := 0, len := BitVec.ofNat 64 y.data.length }

theorem serveGetReq_whole {out : RunRead} (hact : u.active (epVd i.x.dstEp) = true) (hat : i.at_ = 0)
    (hrun : u.readRun (switchReach (epVd i.x.dstEp)) i.x.addr.toNat 0 i.x.len.toNat i.x.len.toNat = (s1, out)) (hstop : out.stop = none) :
    ∃ j : Inbound, j.of i.x ∧ u.serveGetReq i = (s1.dropInbound j).sendTransfer (getReply i.x out) false := by
  refine ⟨{ i with x := { i.x with data := i.x.data ++ out.bytes, poison := i.x.poison ++ out.psn }, at_ := out.bytes.length,
                   wait := .untranslated }, ⟨rfl, rfl, rfl, rfl⟩, ?_⟩
  unfold State.serveGetReq
  dsimp only
  rw [hat, Nat.add_zero, Nat.sub_zero, hrun, hstop, Nat.zero_add]
  exact if_neg (not_inactive hact)

theorem serveGetData_whole {n : Nat} {bad : Bool} {o : Outgoing} (hout : u.outgoing = [o]) (hxid : o.xid = i.x.xid) (hkind : o.kind = .getReq)
    (hthru : o.thru = none) (hlen : i.x.data.length = o.len) (hat : i.at_ = 0) (hpsn : i.psn = false) (hlink : i.link = none)
    (hrun : u.writeRun (u.entryReach o) o.loc 0 i.x.poison i.x.data.length i.x.data = (s1, n, bad, none)) :
    ∃ j : Inbound, j.of i.x ∧ u.serveGetData i = (s1.dropInbound j).endOutgoing o.xid (okOr bad) := by
  refine ⟨{ i with at_ := n, psn := bad, wait := .untranslated }, ⟨rfl, rfl, rfl, rfl⟩, ?_⟩
  have hfind : (u.outgoing.find? fun o => o.xid == i.x.xid && o.kind == .getReq) = some o := by
    rw [hout]
    exact List.find?_cons_of_pos (by rw [hxid, hkind]; simp)
  unfold State.serveGetData
  dsimp only
  rw [hfind]
  dsimp only
  rw [hthru]
  dsimp only
  rw [hat, Nat.add_zero, List.drop_zero, hrun, hpsn, Nat.zero_add, Bool.false_or]
  exact (if_neg (by unfold Inbound.whole; rw [hlink]; decide)).trans (if_pos hlen)

end

/-! ### The end of a transfer of this device -/

/-- A transfer through this device's own switch is seen by its course (R326). -/
def State.seenBy (s : State) (o : Outgoing) : State :=
  if s.isOwn o.dstEp then match s.truss? o.truss with | some t => s.invalidateL1 t.core | none => s else s

/-- A transfer is under way no more. -/
def State.withoutXid (s : State) (xid : W32) : State :=
  { s with outgoing := s.outgoing.filter fun o => o.xid != xid, gathers := s.gathers.filter fun g => g.xid != xid }

theorem endOutgoing_eq {s : State} {o : Outgoing} {xid : W32} (h : (s.outgoing.find? fun o => o.xid == xid) = some o) (st : BitVec 8) :
    s.endOutgoing xid st = ((s.seenBy o).withoutXid xid).endNet o.truss o.entry st := by
  unfold State.endOutgoing
  rw [h]
  rfl

/-- A state without the lines of the first-level caches. -/
def State.noL1 (s : State) : State := { s with l1 := [] }

theorem seenBy_noL1 (s : State) (o : Outgoing) : (s.seenBy o).noL1 = s.noL1 := by
  unfold State.seenBy
  split
  · split <;> rfl
  · rfl

theorem seenBy_parts (s : State) (o : Outgoing) : (s.seenBy o).outgoing = s.outgoing ∧ (s.seenBy o).inbound = s.inbound ∧
    (s.seenBy o).mem = s.mem ∧ (s.seenBy o).trusses = s.trusses := by
  have h := seenBy_noL1 s o
  have h1 := congrArg State.outgoing h
  have h2 := congrArg State.inbound h
  have h3 := congrArg State.mem h
  have h4 := congrArg State.trusses h
  exact ⟨h1, h2, h3, h4⟩

theorem endNet_parts (s : State) (tn id : Nat) (st : BitVec 8) : (s.endNet tn id st).outgoing = s.outgoing ∧ (s.endNet tn id st).inbound = s.inbound ∧
    (s.endNet tn id st).mem = s.mem := by
  unfold State.endNet
  split <;> exact ⟨rfl, rfl, rfl⟩

/-- The only transfer of this device ends. -/
theorem endOutgoing_only {s : State} {o : Outgoing} {xid : W32} (hout : s.outgoing = [o]) (hxid : o.xid = xid) (st : BitVec 8) :
    s.endOutgoing xid st = ((s.seenBy o).withoutXid xid).endNet o.truss o.entry st ∧
    (s.endOutgoing xid st).outgoing = [] ∧ (s.endOutgoing xid st).inbound = s.inbound ∧ (s.endOutgoing xid st).mem = s.mem := by
  have hfind : (s.outgoing.find? fun o => o.xid == xid) = some o := by
    rw [hout]
    exact List.find?_cons_of_pos (by rw [hxid]; exact beq_self_eq_true _)
  obtain ⟨hseen, hseen2, hseen3, -⟩ := seenBy_parts s o
  have hgone : ((s.seenBy o).withoutXid xid).outgoing = [] := by
    show (s.seenBy o).outgoing.filter _ = []
    rw [hseen, hout]
    simp [hxid]
  obtain ⟨h1, h2, h3⟩ := endNet_parts ((s.seenBy o).withoutXid xid) o.truss o.entry st
  rw [endOutgoing_eq hfind]
  exact ⟨rfl, h1.trans hgone, h2.trans hseen2, h3.trans hseen3⟩

theorem queue_refill_nil {t : Truss} {q : QSel} {id : Nat} (h : ∀ x ∈ t.queue q, x.id = id) : (t.without q id).queue q = [] := by
  refine List.eq_nil_iff_forall_not_mem.mpr fun x hx => ?_
  obtain ⟨y, hy, hyx⟩ := ((queuesFrom_modQueue t q fun _ x hx => ⟨x, List.mem_of_mem_filter hx, rfl⟩).trans
    ((queuesFrom_passFences 64 _).trans (queuesFrom_refill _))).ids q x hx
  exact without_ids hx (hyx.symm.trans (h y hy))

/-- The entry of the transfer that ends leaves its queue. -/
theorem endNet_netQ {s : State} {tn id : Nat} {t : Truss} {e : QEntry} (ht : s.truss? tn = some t) (hq : t.netQ = [e]) (hid : e.id = id)
    (st : BitVec 8) : ∃ u, (s.endNet tn id st).truss? tn = some u ∧ u.netQ = [] := by
  have hfind : ((s.truss? tn).bind fun t => t.netQ.find? fun e => e.id == id) = some e := by
    rw [ht, Option.bind_some, hq]
    exact List.find?_cons_of_pos (by rw [hid]; exact beq_self_eq_true _)
  unfold State.endNet
  rw [hfind]
  refine ⟨_, truss?_endEntry ht .net e [] false st, (queue_modCourse _ _ _ .net).trans (queue_refill_nil fun x hx => ?_)⟩
  have hx' : x ∈ t.netQ := hx
  rw [hq, List.mem_singleton] at hx'
  rw [hx']

section
variable {s : State} {x : Transfer} (hp : s.power = .ready) (hown : s.isOwn x.dstEp = true) (hsrc : s.isOwn x.srcEp = true)
  (hin : s.inbound = [])
include hp hown hsrc hin

theorem put_ok {s1 : State} {bad : Bool} {n : Nat} (hkind : x.kind = .put) (hact : s.active (epVd x.dstEp) = true)
    (hrun : (s.holding [mkInbound x none]).writeRun (switchReach (epVd x.dstEp)) x.addr.toNat 0 x.poison x.data.length x.data =
      (s1, n, bad, none)) :
    ∃ s', exec (.put x) s = .next s' ∧ s'.mem = s1.mem ∧
      s'.inbound = [mkInbound { mkTransfer .done x.dstEp x.srcEp x.xid with st := if bad then 6 else 0 } none] := by
  have hkept := writeRun_noRun (switchReach (epVd x.dstEp)) x.poison x.data.length (s.holding [mkInbound x none]) x.addr.toNat 0 x.data
  rw [hrun] at hkept
  obtain ⟨hin1, hfab, -, -⟩ := transfers_of_noRun hkept
  have hserve := servePut_whole (u := s.holding [mkInbound x none]) (i := mkInbound x none) hact rfl rfl rfl hrun
  rw [answer_own hin1 ⟨rfl, rfl, rfl, rfl⟩ rfl ((isOwn_congr hfab _).trans hsrc)] at hserve
  refine ⟨_, congrArg Host.Outcome.next ((transferStep_plain hp hown hin hkind rfl).trans ((serve_put hkind).trans hserve)), rfl, rfl⟩

theorem put_inactive (hkind : x.kind = .put) (hact : s.active (epVd x.dstEp) = false) : ∃ s', exec (.put x) s = .next s' ∧ s'.mem = s.mem ∧
    s'.inbound = [mkInbound { mkTransfer .done x.dstEp x.srcEp x.xid with st := 2 } none] := by
  have hserve := servePut_inactive (u := s.holding [mkInbound x none]) (i := mkInbound x none) hact rfl
  rw [answer_own (s := s.holding [mkInbound x none]) rfl ⟨rfl, rfl, rfl, rfl⟩ rfl hsrc] at hserve
  exact ⟨_, congrArg Host.Outcome.next ((transferStep_plain hp hown hin hkind rfl).trans ((serve_put hkind).trans hserve)), rfl, rfl⟩

theorem getreq_ok {s1 : State} {out : RunRead} (hkind : x.kind = .getReq) (hdata : x.data = []) (hpoison : x.poison = [])
    (hact : s.active (epVd x.dstEp) = true)
    (hrun : (s.holding [mkInbound x none]).readRun (switchReach (epVd x.dstEp)) x.addr.toNat 0 x.len.toNat x.len.toNat = (s1, out))
    (hstop : out.stop = none) : ∃ s' i, exec (.getreq x) s = .next s' ∧ s'.inbound = [i] ∧ i.x.kind = .getData ∧ i.x.data = out.bytes ∧
      i.x.poison = out.psn ∧ i.x.dstEp = x.srcEp ∧ i.x.srcEp = x.dstEp ∧ i.x.xid = x.xid := by
  have hkept := readRun_noRun (switchReach (epVd x.dstEp)) x.len.toNat (s.holding [mkInbound x none]) x.addr.toNat 0 x.len.toNat
  rw [hrun] at hkept
  obtain ⟨hin1, hfab, -, -⟩ := transfers_of_noRun hkept
  obtain ⟨j, hj, hserve⟩ := serveGetReq_whole (u := s.holding [mkInbound x none]) (i := mkInbound x none) hact rfl hrun hstop
  rw [dropInbound_only hin1 hj] at hserve
  have hsend := sendTransfer_own (s := State.holding s1 []) (x := getReply x out) ((isOwn_congr hfab _).trans hsrc) false
  refine ⟨_, mkInbound (getReply x out) none,
    congrArg Host.Outcome.next ((transferStep_plain hp hown hin hkind rfl).trans ((serve_getReq hkind).trans (hserve.trans hsend))), rfl, rfl, ?_, ?_, rfl, rfl, rfl⟩
  · exact congrArg (· ++ out.bytes) hdata
  · exact congrArg (· ++ out.psn) hpoison

omit hsrc in
theorem getdata_ok {s1 : State} {bad : Bool} {n : Nat} {o : Outgoing} (hkind : x.kind = .getData) (hout : s.outgoing = [o]) (hxid : o.xid = x.xid)
    (hokind : o.kind = .getReq) (hthru : o.thru = none) (hlen : x.data.length = o.len)
    (hrun : (s.holding [mkInbound x none]).writeRun (s.entryReach o) o.loc 0 x.poison x.data.length x.data = (s1, n, bad, none)) :
    ∃ s', exec (.getdata x) s = .next s' ∧ s'.mem = s1.mem ∧ s'.outgoing = [] ∧ s'.inbound = [] := by
  have hkept := writeRun_noRun (s.entryReach o) x.poison x.data.length (s.holding [mkInbound x none]) o.loc 0 x.data
  rw [hrun] at hkept
  obtain ⟨hin1, -, hout1, -⟩ := transfers_of_noRun hkept
  obtain ⟨j, hj, hserve⟩ := serveGetData_whole (u := s.holding [mkInbound x none]) (i := mkInbound x none) hout hxid hokind hthru hlen rfl rfl rfl hrun
  rw [dropInbound_only hin1 hj] at hserve
  obtain ⟨-, hgone, hleft, hmem⟩ := endOutgoing_only (s := State.holding s1 []) (hout1.trans hout) rfl (okOr bad)
  exact ⟨_, congrArg Host.Outcome.next ((transferStep_plain hp hown hin hkind rfl).trans ((serve_getData hkind).trans hserve)), hmem, hgone, hleft⟩

end

end Sys2Proof.Machine
end

section
/-!
PROOFS. Messages, contributions, windows and answers at the switch of their destination (16 R379 to R382; 18 R431, R433 to R435).
-/
namespace Sys2Proof.Machine

/-! ### Messages (R381) -/

/-- A message that no posted receive waits for. -/
def State.unexpected (s : State) (x : Transfer) : UMsg := ⟨s.sourceIndex (epVd x.dstEp) x.srcEp, x.addr.truncate 32, x.data, x.poison⟩

/-- It joins the unexpected queue of its device. -/
def State.queueMsg (s : State) (x : Transfer) : State :=
  s.modVdev (epVd x.dstEp) fun d => { d with umsgs := d.umsgs ++ [s.unexpected x] }

theorem serveMsg_unexpected {u : State} {x : Transfer} {d : VDev} (hin : u.inbound = [mkInbound x none]) (hact : u.active (epVd x.dstEp) = true)
    (hd : u.vdev? (epVd x.dstEp) = some d) (hrecvs : d.recvs = []) (hcap : d.umsgs.length < Config.recvCap)
    (hbytes : (d.umsgs.map fun m => m.data.length).sum + x.data.length ≤ Config.unexpectedBytes) :
    u.serveMsg (mkInbound x none) = (u.queueMsg x).answer (mkInbound x none) (okOr (!x.poison.isEmpty)) := by
  have hawaits : u.msgAwaits (mkInbound x none) = false := by
    unfold State.msgAwaits
    rw [hin]
    simp [mkInbound]
  have hmatch : u.matchMsg (mkInbound x none) = (u.queueMsg x).answer (mkInbound x none) (okOr (!x.poison.isEmpty)) := by
    have hroom : ¬ ((Config.recvCap ≤ d.umsgs.length || Config.unexpectedBytes < (d.umsgs.map fun m => m.data.length).sum + x.data.length ||
        Config.recvCap ≤ d.recvs.length) = true) := by
      rw [hrecvs]
      simp [Nat.not_le.mpr hcap, Nat.not_lt.mpr hbytes, Nat.ne_of_gt (Nat.lt_of_le_of_lt (Nat.zero_le _) hcap)]
    unfold State.matchMsg
    dsimp only [mkInbound]
    rw [hd]
    dsimp only
    rw [hrecvs, List.find?_nil]
    rw [hrecvs] at hroom
    exact if_neg hroom
  unfold State.serveMsg
  rw [hawaits]
  refine (if_neg (show ¬ (!true || true && false) = true by decide)).trans ?_
  exact (if_pos hact).trans hmatch

section
variable {s : State} {x : Transfer} (hp : s.power = .ready) (hown : s.isOwn x.dstEp = true) (hsrc : s.isOwn x.srcEp = true)
  (hin : s.inbound = [])
include hp hown hsrc hin

theorem msg_ok {d : VDev} (hkind : x.kind = .msg) (hnew : (.msg, x.srcEp, x.xid) ∉ s.seen) (hact : s.active (epVd x.dstEp) = true)
    (hd : s.vdev? (epVd x.dstEp) = some d) (hrecvs : d.recvs = []) (hcap : d.umsgs.length < Config.recvCap)
    (hbytes : (d.umsgs.map fun m => m.data.length).sum + x.data.length ≤ Config.unexpectedBytes) :
    ∃ s' d' m, exec (.msg x) s = .next s' ∧ s'.vdev? (epVd x.dstEp) = some d' ∧ d'.umsgs = d.umsgs ++ [m] ∧ m.data = x.data ∧
      m.tag = x.addr.truncate 32 ∧
      s'.inbound = [mkInbound { mkTransfer .done x.dstEp x.srcEp x.xid with st := if x.poison = [] then 0 else 6 } none] := by
  have hinc : (s.come x).inbound = [mkInbound x none] := by
    show s.inbound ++ [mkInbound x none] = _
    rw [hin]
    rfl
  have hserve := serveMsg_unexpected (u := s.come x) hinc hact hd hrecvs hcap hbytes
  have hfab : ((s.come x).queueMsg x).fabricId = s.fabricId := by
    unfold State.queueMsg State.modVdev
    split <;> rfl
  have hinq : ((s.come x).queueMsg x).inbound = [mkInbound x none] := by
    rw [← hinc]
    unfold State.queueMsg State.modVdev
    split <;> rfl
  rw [answer_own hinq ⟨rfl, rfl, rfl, rfl⟩ rfl ((isOwn_congr hfab _).trans hsrc)] at hserve
  have hvd : ((s.come x).queueMsg x).vdev? (epVd x.dstEp) = some { d with umsgs := d.umsgs ++ [(s.come x).unexpected x] } := by
    refine (vdev?_modVdev ..).trans ((if_pos rfl).trans ?_)
    rw [show (s.come x).vdev? (epVd x.dstEp) = some d from hd]
    rfl
  refine ⟨_, _, _, congrArg Host.Outcome.next ((transferStep_run hp hown hin hkind fun _ => hkind ▸ hnew).trans ((serve_msg hkind).trans hserve)),
    hvd, rfl, rfl, rfl, ?_⟩
  cases x.poison <;> rfl

end

/-! ### Contributions (R379, R434) -/

/-- What the pool holds. -/
def State.pooled (s : State) (cs : List Contribution) (ks : List ContribStat) : State := { s with contribs := cs, contribStats := ks }

/-- The contributor of a transfer's chunks. -/
def contribStat (x : Transfer) (more : Bool) : ContribStat := ⟨x.srcEp, x.xid, x.grp.toNat, x.dstEp, 0, more⟩

theorem mem_splitContrib {w : Vector W64 8} {x : Transfer} {peer : Nat} {c : Contribution} (h : c ∈ splitContrib w x peer) :
    c.peer = peer ∧ c.srcEp = x.srcEp ∧ c.xid = x.xid := by
  unfold splitContrib at h
  dsimp only at h
  obtain ⟨k, -, hk⟩ := List.mem_filterMap.mp h
  split at hk
  · cases hk
  · cases hk
    exact ⟨rfl, rfl, rfl⟩

theorem mapM_none {α β : Type} {f : α → Option β} {x : α} {xs : List α} (hx : x ∈ xs) (hf : f x = none) : xs.mapM f = none := by
  induction xs with
  | nil => cases hx
  | cons y ys ih =>
    rw [List.mapM_cons]
    rcases List.mem_cons.mp hx with rfl | hmem
    · rw [hf]
      rfl
    · rw [ih hmem]
      cases f y <;> rfl

/-- One peer's contributions alone make no sum of a group of two peers or more. -/
theorem nextSum_one {s : State} {w : Vector W64 8} {g peer : Nat} (h : ∀ c ∈ s.contribs, c.peer = peer) (hpeers : 2 ≤ grpPeers w) :
    s.nextSum w g = none := by
  have hsum (chunk e : Nat) : s.sumOf w g chunk e = none := by
    have hother : ∃ j, j < grpPeers w ∧ peer ≠ j := by
      by_cases h0 : peer = 0
      · exact ⟨1, by omega, by omega⟩
      · exact ⟨0, by omega, h0⟩
    obtain ⟨j, hj, hne⟩ := hother
    refine mapM_none (List.mem_range.mpr hj) (List.find?_eq_none.mpr fun c hc => ?_)
    rw [h c hc]
    simp [hne]
  unfold State.nextSum
  refine List.findSome?_eq_none_iff.mpr fun c _ => List.findSome?_eq_none_iff.mpr fun e _ => ?_
  rw [hsum]
  rfl

theorem sumRun_one {s : State} {w : Vector W64 8} {g peer : Nat} (h : ∀ c ∈ s.contribs, c.peer = peer) (hpeers : 2 ≤ grpPeers w) (n : Nat) :
    s.sumRun w g (n + 1) = (s, none) := by
  unfold State.sumRun
  rw [nextSum_one h hpeers]

/-- A contributor whose chunks are in the pool gets no DONE yet. -/
theorem endContribs_pooled {s : State} {x : Transfer} {cs : List Contribution} (hne : cs ≠ []) (h : ∀ c ∈ cs, c.srcEp = x.srcEp ∧ c.xid = x.xid)
    (g : Nat) : (s.pooled cs [contribStat x false]).endContribs g = s.pooled cs [contribStat x false] := by
  have hthere : (cs.any fun c => c.srcEp == x.srcEp && c.xid == x.xid) = true := by
    obtain ⟨c, hc⟩ := List.exists_mem_of_ne_nil cs hne
    obtain ⟨hsrc, hxid⟩ := h c hc
    exact List.any_eq_true.mpr ⟨c, hc, by rw [hsrc, hxid]; simp⟩
  have hended : ((s.pooled cs [contribStat x false]).contribStats.filter fun k => k.grp == g && !k.more &&
      !((s.pooled cs [contribStat x false]).contribs.any fun c => c.srcEp == k.srcEp && c.xid == k.xid)) = [] := by
    unfold State.pooled contribStat
    rw [List.filter_cons_of_neg (by rw [hthere]; simp), List.filter_nil]
  unfold State.endContribs
  rw [hended]
  rfl

theorem poolChunks_first {s : State} {x : Transfer} {cs : List Contribution} (hc : s.contribs = []) (hs : s.contribStats = []) (hne : cs ≠ [])
    (more : Bool) : s.poolChunks x x.grp.toNat cs more = s.pooled cs [contribStat x more] := by
  unfold State.poolChunks
  rw [hc, hs, List.isEmpty_eq_false_iff.mpr hne]
  simp [State.pooled, contribStat]

/-- Chunks enter the pool, and contributors that are done with get their DONE. -/
def State.enterPool (s : State) (i : Inbound) (new : List Contribution) (over_ : Bool) : State :=
  ((s.poolChunks i.x i.x.grp.toNat new (!over_)).setInbound i).endContribs i.x.grp.toNat

/-- The sums that are ready are written, and a contribution that is over leaves the switch. -/
def State.sumUp (s : State) (i : Inbound) (w : Vector W64 8) (over_ : Bool) : State :=
  match s.sumRun w i.x.grp.toNat (i.x.data.length + 1) with
  | (s, some ph) => s.setInbound { i with wait := ph }
  | (s, none) => if over_ then s.dropInbound i else s

/-- The chunks that come of a contribution enter the pool, as far as it has room. -/
def State.takeChunks (s : State) (i : Inbound) (w : Vector W64 8) (come cs new : List Contribution) : State :=
  let over_ := i.whole && come.length ≤ i.at_ + cs.length
  let s := if s.poolFull then s else s.returnOwed i
  let i := { i with at_ := i.at_ + cs.length, owed := if s.poolFull then i.owed else 0, wait := .untranslated }
  (s.enterPool i new over_).sumUp i w over_

theorem serveContrib_eq (s : State) (i : Inbound) : s.serveContrib i =
    if !s.active (epVd i.x.dstEp) then (s.returnOwed i).answer i 2
    else if grpRefuses (s.group i.x.grp.toNat) i.x then
      (s.returnOwed i).dropInbound i |>.sendTransfer { mkTransfer .absent i.x.dstEp i.x.srcEp i.x.xid with grp := i.x.grp } false
    else
      let come := splitContrib (s.group i.x.grp.toNat) i.x ((grpIndex (s.group i.x.grp.toNat) i.x.srcEp).getD 0)
      let cs := ((come.drop i.at_).take (contribSlots - s.contribs.length))
      let new := cs.filter fun c => !s.stale c
      if (new.any fun c => !(s.contribs.any fun d => d.grp == i.x.grp.toNat && d.chunk == c.chunk)) && s.groupAbsent i.x.grp.toNat then
        ((s.freeGroup i.x.grp.toNat).returnOwed i).answer i 2
      else s.takeChunks i (s.group i.x.grp.toNat) come cs new := rfl

/-- Chunks for which there is room, none of them stale, and of a group that is whole. -/
theorem serveContrib_enters {s : State} {i : Inbound} {peer : Nat} {come : List Contribution} (hact : s.active (epVd i.x.dstEp) = true)
    (hrefuse : grpRefuses (s.group i.x.grp.toNat) i.x = false) (hpeer : grpIndex (s.group i.x.grp.toNat) i.x.srcEp = some peer)
    (hcome : splitContrib (s.group i.x.grp.toNat) i.x peer = come) (hroom : (come.drop i.at_).take (contribSlots - s.contribs.length) = come)
    (hnew : (come.filter fun c => !s.stale c) = come) (habs : s.groupAbsent i.x.grp.toNat = false) :
    s.serveContrib i = s.takeChunks i (s.group i.x.grp.toNat) come come come := by
  rw [serveContrib_eq]
  refine (if_neg (not_inactive hact)).trans ((if_neg (by rw [hrefuse]; decide)).trans ?_)
  dsimp only
  rw [hpeer, Option.getD_some, hcome, hroom, hnew, habs, Bool.and_false]
  rfl

theorem takeChunks_first {s : State} {x : Transfer} {w : Vector W64 8} {cs : List Contribution} {peer : Nat} (hin : s.inbound = [mkInbound x none])
    (hc : s.contribs = []) (hs : s.contribStats = []) (hne : cs ≠ []) (hpeers : 2 ≤ grpPeers w)
    (hcs : ∀ c ∈ cs, c.peer = peer ∧ c.srcEp = x.srcEp ∧ c.xid = x.xid) :
    s.takeChunks (mkInbound x none) w cs cs cs = (s.pooled cs [contribStat x false]).holding [] := by
  have hfull : s.poolFull = false := by
    unfold State.poolFull
    rw [hc]
    decide
  have hover : ((mkInbound x none).whole && decide (cs.length ≤ (mkInbound x none).at_ + cs.length)) = true := by
    simp [mkInbound, Inbound.whole]
  let i : Inbound := { mkInbound x none with at_ := 0 + cs.length, owed := 0, wait := .untranslated }
  have hstage : s.enterPool i cs true = (s.holding [i]).pooled cs [contribStat x false] := by
    unfold State.enterPool
    have hset : (s.pooled cs [contribStat x false]).setInbound i = (s.pooled cs [contribStat x false]).holding [i] :=
      setInbound_single (s := s.pooled cs [contribStat x false]) (j := mkInbound x none) hin (x := x) ⟨rfl, rfl, rfl, rfl⟩ ⟨rfl, rfl, rfl, rfl⟩
    rw [show i.x = x from rfl, poolChunks_first hc hs hne, Bool.not_true, hset]
    exact endContribs_pooled (s := s.holding [i]) hne (fun c h => (hcs c h).2) x.grp.toNat
  have hsum : ((s.holding [i]).pooled cs [contribStat x false]).sumUp i w true = (s.pooled cs [contribStat x false]).holding [] := by
    unfold State.sumUp
    rw [sumRun_one (fun c h => (hcs c h).1) hpeers]
    exact dropInbound_single (s := (s.holding [i]).pooled cs [contribStat x false]) (j := i) (x := x) rfl ⟨rfl, rfl, rfl, rfl⟩ ⟨rfl, rfl, rfl, rfl⟩
  have hreturn : (if s.poolFull then s else s.returnOwed (mkInbound x none)) = s := by
    rw [hfull]
    rfl
  unfold State.takeChunks
  dsimp only
  rw [hover, hreturn, hfull]
  exact (congrArg (State.sumUp · i w true) hstage).trans hsum

section
variable {s : State} {x : Transfer} (hp : s.power = .ready) (hown : s.isOwn x.dstEp = true) (hin : s.inbound = [])
include hp hown hin

theorem contrib_ok {peer : Nat} (hkind : x.kind = .contrib) (hact : s.active (epVd x.dstEp) = true)
    (hsize : x.len.toNat % grpSize (s.group x.grp.toNat) = 0) (hv : grpV (s.group x.grp.toNat) = true)
    (hpeer : grpIndex (s.group x.grp.toNat) x.srcEp = some peer) (hhome : grpPeer (s.group x.grp.toNat) 0 = x.dstEp)
    (hpeers : 2 ≤ grpPeers (s.group x.grp.toNat)) (habs : s.groupAbsent x.grp.toNat = false) (hc : s.contribs = []) (hs : s.contribStats = [])
    (hsummed : s.summed = []) (hne : splitContrib (s.group x.grp.toNat) x peer ≠ [])
    (hlen : (splitContrib (s.group x.grp.toNat) x peer).length ≤ 262144) :
    ∃ s', exec (.contrib x) s = .next s' ∧ s'.contribs = splitContrib (s.group x.grp.toNat) x peer ∧
      s'.contribStats = [⟨x.srcEp, x.xid, x.grp.toNat, x.dstEp, 0, false⟩] ∧ s'.inbound = [] ∧ s'.mem = s.mem := by
  have hrefuse : grpRefuses (s.group x.grp.toNat) x = false := by
    unfold grpRefuses
    rw [hv, hhome, hpeer, hsize]
    simp
  have hstale (c : Contribution) : (s.holding [mkInbound x none]).stale c = false := by
    unfold State.stale
    rw [show (s.holding [mkInbound x none]).summed = [] from hsummed, show (s.holding [mkInbound x none]).contribs = [] from hc]
    rfl
  have hroom : ((splitContrib (s.group x.grp.toNat) x peer).drop 0).take (contribSlots - (s.holding [mkInbound x none]).contribs.length) =
      splitContrib (s.group x.grp.toNat) x peer := by
    rw [show (s.holding [mkInbound x none]).contribs = [] from hc, List.drop_zero]
    exact List.take_of_length_le hlen
  have henters := serveContrib_enters (s := s.holding [mkInbound x none]) (i := mkInbound x none) hact hrefuse hpeer rfl hroom
    (List.filter_eq_self.mpr fun c _ => by rw [hstale]; rfl) habs
  have hserve := henters.trans (takeChunks_first (s := s.holding [mkInbound x none]) rfl hc hs hne hpeers fun c => mem_splitContrib)
  exact ⟨_, congrArg Host.Outcome.next ((transferStep_plain hp hown hin hkind rfl).trans ((serve_contrib hkind).trans hserve)), rfl, rfl, rfl, rfl⟩

end

end Sys2Proof.Machine
end

section
/-!
PROOFS. Windows that are read, replies that are gathered, and the answers that end transfers (16 R380; 18 R433, R435; 23 R460).
-/
namespace Sys2Proof.Machine

/-! ### Reading windows (R380, R435) -/

section
variable {u s1 : State} {i : Inbound}

/-- The bytes of a window, as they are sent. -/
def windowReply (x : Transfer) (out : RunRead) : Transfer :=
  { mkTransfer .lData x.dstEp x.srcEp x.xid with len := x.len, data := x.data ++ out.bytes, poison := x.poison ++ out.psn, grp := x.grp,
                                                  addr := x.addr }

theorem serveLReq_whole {out : RunRead} (hact : u.active (epVd i.x.dstEp) = true)
    (hbad : (!grpV (u.group i.x.grp.toNat) || grpOwner (u.group i.x.grp.toNat) ≠ epVd i.x.dstEp ||
      (grpIndex (u.group i.x.grp.toNat) i.x.srcEp).isNone || i.x.len.toNat % grpSize (u.group i.x.grp.toNat) ≠ 0 ||
      grpLen (u.group i.x.grp.toNat) < i.x.addr.toNat + i.x.len.toNat) = false) (hat : i.at_ = 0)
    (hrun : u.readRun (switchReach (grpOwner (u.group i.x.grp.toNat))) (grpBase (u.group i.x.grp.toNat) + i.x.addr.toNat) 0 i.x.len.toNat
      i.x.len.toNat = (s1, out)) (hstop : out.stop = none) :
    u.serveLReq i = (s1.dropInbound i).sendTransfer (windowReply i.x out) false := by
  unfold State.serveLReq
  dsimp only
  rw [hat, Nat.add_zero, Nat.sub_zero, hrun, hstop, hbad]
  exact if_neg (not_inactive hact)

/-- What a reply leaves of the gatherings. -/
def State.gathered (s : State) (g : Gather) : State := { s with gathers := s.gathers.map fun h => if h.xid = g.xid then g else h }

/-- A reply that is not the last is kept (R435). -/
theorem serveLData_more {gt : Gather} {o : Outgoing} {j : Nat} (hg : u.gathers = [gt]) (hxid : gt.xid = i.x.xid) (hgrp : i.x.grp.toNat = gt.grp)
    (hlen : i.x.len.toNat = gt.cnt * grpSize (u.group gt.grp)) (hdata : i.x.data.length = i.x.len.toNat) (hout : u.outgoing = [o])
    (hoxid : o.xid = i.x.xid) (hokind : o.kind = .lReq) (hwhole : i.whole = true) (hat : i.at_ = 0)
    (hfree : ((List.range (grpPeers (u.group gt.grp))).find? fun j => grpPeer (u.group gt.grp) j == i.x.srcEp && !(gt.replies.any fun r => r.1 == j)) =
      some j) (hmore : gt.replies.length + 1 < grpPeers (u.group gt.grp)) :
    u.serveLData i = (u.dropInbound i).gathered { gt with replies := gt.replies ++ [(j, i.x.data, i.x.poison)] } := by
  have hgather : (u.gathers.find? fun g => g.xid == i.x.xid) = some gt := by
    rw [hg]
    exact List.find?_cons_of_pos (by rw [hxid]; exact beq_self_eq_true _)
  have hfind : (u.outgoing.find? fun o => o.xid == i.x.xid && o.kind == .lReq) = some o := by
    rw [hout]
    exact List.find?_cons_of_pos (by rw [hoxid, hokind]; simp)
  have hgood : (decide (i.x.grp.toNat ≠ gt.grp) || decide (i.x.len.toNat ≠ gt.cnt * grpSize (u.group gt.grp)) ||
      decide (i.x.data.length ≠ i.x.len.toNat)) = false := by
    simp only [hgrp, hlen.symm, hdata]
    simp
  unfold State.serveLData
  dsimp only
  rw [hgather, hfind]
  dsimp only
  rw [hgood, hfree, hwhole, hat]
  refine (if_neg (by decide)).trans ((if_neg Bool.false_ne_true).trans ((if_pos ?_).trans rfl))
  simpa using hmore

end

section
variable {s : State} {x : Transfer} (hp : s.power = .ready) (hown : s.isOwn x.dstEp = true) (hin : s.inbound = [])
include hp hown hin

theorem lreq_ok {s1 : State} {out : RunRead} (hsrc : s.isOwn x.srcEp = true) (hkind : x.kind = .lReq) (hdata : x.data = [])
    (hv : grpV (s.group x.grp.toNat) = true)
    (howner : grpOwner (s.group x.grp.toNat) = epVd x.dstEp) (hact : s.active (epVd x.dstEp) = true)
    (hidx : (grpIndex (s.group x.grp.toNat) x.srcEp).isSome = true) (hsize : x.len.toNat % grpSize (s.group x.grp.toNat) = 0)
    (hlen : x.addr.toNat + x.len.toNat ≤ grpLen (s.group x.grp.toNat))
    (hrun : (s.holding [mkInbound x none]).readRun (switchReach (grpOwner (s.group x.grp.toNat)))
      (grpBase (s.group x.grp.toNat) + x.addr.toNat) 0 x.len.toNat x.len.toNat = (s1, out)) (hstop : out.stop = none) :
    ∃ s' i, exec (.lreq x) s = .next s' ∧ s'.inbound = [i] ∧ i.x.kind = .lData ∧ i.x.data = out.bytes ∧ i.x.grp = x.grp ∧
      i.x.xid = x.xid ∧ i.x.dstEp = x.srcEp := by
  have hkept := readRun_noRun (switchReach (grpOwner (s.group x.grp.toNat))) x.len.toNat (s.holding [mkInbound x none])
    (grpBase (s.group x.grp.toNat) + x.addr.toNat) 0 x.len.toNat
  rw [hrun] at hkept
  obtain ⟨hin1, hfab, -, -⟩ := transfers_of_noRun hkept
  have hgood : (!grpV (s.group x.grp.toNat) || decide (grpOwner (s.group x.grp.toNat) ≠ epVd x.dstEp) ||
      (grpIndex (s.group x.grp.toNat) x.srcEp).isNone || decide (x.len.toNat % grpSize (s.group x.grp.toNat) ≠ 0) ||
      decide (grpLen (s.group x.grp.toNat) < x.addr.toNat + x.len.toNat)) = false := by
    rw [hv, howner, hsize, Option.isNone_eq_false_iff.mpr hidx, decide_eq_false (Nat.not_lt.mpr hlen)]
    simp
  have hserve := serveLReq_whole (u := s.holding [mkInbound x none]) (i := mkInbound x none) hact hgood rfl hrun hstop
  rw [dropInbound_only hin1 ⟨rfl, rfl, rfl, rfl⟩] at hserve
  have hsend := sendTransfer_own (s := State.holding s1 []) (x := windowReply x out) ((isOwn_congr hfab _).trans hsrc) false
  exact ⟨_, mkInbound (windowReply x out) none,
    congrArg Host.Outcome.next ((transferStep_plain hp hown hin hkind rfl).trans ((serve_lReq hkind).trans (hserve.trans hsend))),
    rfl, rfl, congrArg (· ++ out.bytes) hdata, rfl, rfl, rfl⟩

theorem ldata_ok {gt : Gather} {o : Outgoing} {j : Nat} (hkind : x.kind = .lData) (hg : s.gathers = [gt]) (hxid : gt.xid = x.xid)
    (hgrp : x.grp.toNat = gt.grp) (hlen : x.len.toNat = gt.cnt * grpSize (s.group gt.grp)) (hdata : x.data.length = x.len.toNat)
    (hout : s.outgoing = [o]) (hoxid : o.xid = x.xid) (hokind : o.kind = .lReq)
    (hfree : ((List.range (grpPeers (s.group gt.grp))).find? fun j => grpPeer (s.group gt.grp) j == x.srcEp && !(gt.replies.any fun r => r.1 == j)) =
      some j) (hmore : gt.replies.length + 1 < grpPeers (s.group gt.grp)) :
    ∃ s', exec (.ldata x) s = .next s' ∧ s'.gathers = [{ gt with replies := gt.replies ++ [(j, x.data, x.poison)] }] ∧ s'.inbound = [] ∧
      s'.outgoing = [o] := by
  have hserve := serveLData_more (u := s.holding [mkInbound x none]) (i := mkInbound x none) hg hxid hgrp hlen hdata hout hoxid hokind rfl rfl
    hfree hmore
  rw [dropInbound_only rfl ⟨rfl, rfl, rfl, rfl⟩] at hserve
  refine ⟨_, congrArg Host.Outcome.next ((transferStep_plain hp hown hin hkind rfl).trans ((serve_lData hkind).trans hserve)), ?_, rfl, hout⟩
  show s.gathers.map _ = _
  rw [hg, List.map_singleton, if_pos rfl]
  rfl

/-! ### DONE and ABSENT (R433, R460) -/

/-- The status that a DONE ends a transfer with. -/
def doneStatus (o : Outgoing) (x : Transfer) : BitVec 8 :=
  if o.kind = .put && o.loc < o.len then worse partialSt x.st else if o.kind = .lReq && x.st = 2 then 3 else x.st

omit hp hown hin in
/-- The only transfer of this device ends, with its entry. -/
theorem endOutgoing_entry {u : State} {o : Outgoing} {t : Truss} {e : QEntry} {xid : W32} (hout : u.outgoing = [o]) (hoxid : o.xid = xid)
    (ht : u.truss? o.truss = some t) (hq : t.netQ = [e]) (hid : e.id = o.entry) (st : BitVec 8) :
    (u.endOutgoing xid st).outgoing = [] ∧ (u.endOutgoing xid st).inbound = u.inbound ∧
      ∃ v, (u.endOutgoing xid st).truss? o.truss = some v ∧ v.netQ = [] := by
  obtain ⟨hend, hgone, hleft, -⟩ := endOutgoing_only hout hoxid st
  obtain ⟨-, -, -, htrusses⟩ := seenBy_parts u o
  have ht' : ((u.seenBy o).withoutXid xid).truss? o.truss = some t := (congrArg (·[o.truss]?) htrusses).trans ht
  refine ⟨hgone, hleft, ?_⟩
  rw [hend]
  exact endNet_netQ ht' hq hid st

theorem done_ok {o : Outgoing} {t : Truss} {e : QEntry} (hkind : x.kind = .done) (hnew : (.done, x.srcEp, x.xid) ∉ s.seen)
    (hend : o.kind = .lReq ∨ o.dstEp = x.srcEp) (hout : s.outgoing = [o]) (hoxid : o.xid = x.xid) (hvd : o.vd.val = epVd x.dstEp)
    (ht : s.truss? o.truss = some t) (hq : t.netQ = [e]) (hid : e.id = o.entry) :
    ∃ s' u, exec (.done x) s = .next s' ∧ s'.outgoing = [] ∧ s'.inbound = [] ∧ s'.truss? o.truss = some u ∧ u.netQ = [] := by
  have hinc : (s.come x).inbound = [mkInbound x none] := by
    show s.inbound ++ [mkInbound x none] = _
    rw [hin]
    rfl
  have hserve : (s.come x).serveDone (mkInbound x none) = ((s.come x).holding []).endOutgoing x.xid (doneStatus o x) := by
    have hfind : ((s.come x).outgoing.find? fun o => o.xid == x.xid && o.vd.val == epVd x.dstEp && (o.kind == .lReq || o.dstEp == x.srcEp)) =
        some o := by
      rw [show (s.come x).outgoing = [o] from hout]
      refine List.find?_cons_of_pos ?_
      rw [hoxid, hvd]
      simpa using hend
    have hnone : ((s.come x).inbound.any fun j => j.x.kind == .getData && j.x.xid == x.xid && j.x.dstEp == x.dstEp) = false := by
      rw [hinc]
      simp [mkInbound, hkind]
    unfold State.serveDone
    rw [show (mkInbound x none).x = x from rfl, dropInbound_only hinc ⟨rfl, rfl, rfl, rfl⟩]
    dsimp only
    rw [hfind]
    dsimp only
    rw [hnone]
    rfl
  obtain ⟨hgone, hleft, v, hv, hnet⟩ := endOutgoing_entry (u := (s.come x).holding []) hout hoxid ht hq hid (doneStatus o x)
  exact ⟨_, v, congrArg Host.Outcome.next ((transferStep_run hp hown hin hkind fun _ => hkind ▸ hnew).trans ((serve_done hkind).trans hserve)),
    hgone, hleft, hv, hnet⟩

theorem absent_ok {o : Outgoing} {t : Truss} {e : QEntry} (hkind : x.kind = .absent) (hout : s.outgoing = [o]) (hoxid : o.xid = x.xid)
    (hvd : o.vd.val = epVd x.dstEp) (ht : s.truss? o.truss = some t) (hq : t.netQ = [e]) (hid : e.id = o.entry) :
    ∃ s' u, exec (.absent x) s = .next s' ∧ s'.outgoing = [] ∧ s'.inbound = [] ∧ s'.truss? o.truss = some u ∧ u.netQ = [] := by
  have hserve : (s.holding [mkInbound x none]).serveAbsent (mkInbound x none) =
      ((s.holding [mkInbound x none]).holding []).endOutgoing x.xid (if o.kind = .lReq then 3 else 2) := by
    have hfind : ((s.holding [mkInbound x none]).outgoing.find? fun o => o.xid == x.xid && o.vd.val == epVd x.dstEp) = some o := by
      rw [show (s.holding [mkInbound x none]).outgoing = [o] from hout]
      exact List.find?_cons_of_pos (by rw [hoxid, hvd]; simp)
    have hdrop := dropInbound_only (s := s.holding [mkInbound x none]) (x := x) (i := mkInbound x none) rfl ⟨rfl, rfl, rfl, rfl⟩
    unfold State.serveAbsent
    rw [show (mkInbound x none).x = x from rfl, hfind, hdrop]
  obtain ⟨hgone, hleft, v, hv, hnet⟩ := endOutgoing_entry (u := (s.holding [mkInbound x none]).holding []) hout hoxid ht hq hid
    (if o.kind = .lReq then 3 else 2)
  exact ⟨_, v, congrArg Host.Outcome.next ((transferStep_plain hp hown hin hkind rfl).trans ((serve_absent hkind).trans hserve)),
    hgone, hleft, hv, hnet⟩

end

/-- Settles O54: kind by kind, by what the switch makes of the transfer. -/
theorem transfersServed : Obligations.TransfersServed := by
  intro s x hp hown hsrc hin
  refine ⟨fun s1 bad n hkind hact hrun => put_ok hp hown hsrc hin hkind hact hrun, put_inactive hp hown hsrc hin,
    fun s1 out hkind hdata hpoison hact hrun => getreq_ok hp hown hsrc hin hkind hdata hpoison hact hrun,
    fun s1 bad n o hkind hout hxid hokind hthru hlen hrun => getdata_ok hp hown hin hkind hout hxid hokind hthru hlen hrun,
    fun d hkind hnew hact hd hrecvs => msg_ok hp hown hsrc hin hkind hnew hact hd hrecvs,
    fun peer hkind hact hsize hv hpeer hhome hpeers habs hc hs hsummed => contrib_ok hp hown hin hkind hact hsize hv hpeer hhome hpeers habs hc hs hsummed,
    fun s1 out hkind hdata _ hv howner hact hidx hsize hlen hrun => lreq_ok hp hown hin hsrc hkind hdata hv howner hact hidx hsize hlen hrun,
    fun gt o j hkind hg hxid hgrp hlen hdata hout hoxid hokind hfree => ldata_ok hp hown hin hkind hg hxid hgrp hlen hdata hout hoxid hokind hfree,
    fun o t e hend hout hoxid hvd ht hq hid => ?_⟩
  rcases hend with ⟨hkind, hnew, hend⟩ | hkind
  · rw [if_pos hkind]
    exact done_ok hp hown hin hkind hnew hend hout hoxid hvd ht hq hid
  · rw [if_neg (by rw [hkind]; decide)]
    exact absent_ok hp hown hin hkind hout hoxid hvd ht hq hid

end Sys2Proof.Machine
end

section
/-!
PROOFS. The register pages: what a write leaves, and what reads back (00 R4, R5; 17 R389, R394 to R396; 18 R418; 19 R440; 20 R452, R454).
-/
namespace Sys2Proof.Machine

/-! ### The control page (R394 to R396) -/

theorem s1rootWrite_ok {s : State} {v : Fin 512} {d : VDev} {x : W64} (hd : s.vdev? v = some d)
    (hx : x &&& ~~~ (BitVec.ofNat 64 (2 ^ 52 - 4096)) = 0) :
    ∃ s' d', exec (.s1rootWrite v x) s = .next s' ∧ s'.vdev? v = some d' ∧ d'.s1root = x.toNat ∧ d'.gen = d.gen + 1 ∧
      (∀ e ∈ s'.tlbs, e.space ≠ v.val) ∧ s'.mem = s.mem := by
  have hrun : exec (.s1rootWrite v x) s =
      .next (((s.modVdev v fun d => { d with s1root := x.toNat }).raiseGen v).dropTlb fun e => e.space == v.val) :=
    congrArg Host.Outcome.next (if_neg (by rw [hd, hx]; exact Bool.false_ne_true))
  have hvd : (((s.modVdev v fun d => { d with s1root := x.toNat }).raiseGen v).dropTlb fun e => e.space == v.val).vdev? v =
      some (({ d with s1root := x.toNat } : VDev).raised) := by
    rw [vdev?_dropTlb, vdev?_raiseGen, if_pos rfl, vdev?_modVdev, if_pos rfl, hd]
    rfl
  have hmem : (((s.modVdev v fun d => { d with s1root := x.toNat }).raiseGen v).dropTlb fun e => e.space == v.val).mem = s.mem := by
    have hkept := congrArg State.mem ((dropTlb_noFlight ((s.modVdev v fun d => { d with s1root := x.toNat }).raiseGen v) fun e => e.space == v.val).trans
      ((raiseGen_noFlight ..).trans (modVdev_noFlight s v _)))
    exact hkept
  refine ⟨_, _, hrun, hvd, rfl, rfl, fun e he => ?_, hmem⟩
  have hkeep := (List.mem_filter.mp he).2
  simpa using hkeep

theorem fltbaseWrite_ok {s : State} {v : Fin 512} {d : VDev} {x : W64} (hd : s.vdev? v = some d) (hlo : 7 ≤ bits x.toNat 3 0)
    (hhi : bits x.toNat 3 0 ≤ 12) (hx : x &&& ~~~ (BitVec.ofNat 64 (2 ^ 52 - 4096 + 15)) = 0) :
    ∃ s', exec (.fltbaseWrite v x) s = .next s' ∧ s'.vdev? v = some { d with fltbase := x } := by
  have hrun : exec (.fltbaseWrite v x) s = .next (s.modVdev v fun d => { d with fltbase := x }) := by
    refine congrArg Host.Outcome.next (if_neg ?_)
    rw [hx, decide_eq_false (Nat.not_lt.mpr hlo), decide_eq_false (Nat.not_lt.mpr hhi)]
    decide
  refine ⟨_, hrun, ?_⟩
  rw [vdev?_modVdev, if_pos rfl, hd]
  rfl

/-- A wait on a page of stage 1 has ended. -/
theorem not_wait1_resolve {sel : Phase → Bool} {abort : Bool} {p : Phase} (hp : Resolved sel abort p) {a : Nat} (hpa : p = .wait1 a) :
    sel (.wait1 a) = false := by
  obtain ⟨q, rfl⟩ := hp
  unfold Phase.resolve at hpa
  by_cases hq : (q.waits && sel q) = true
  · rw [if_pos hq] at hpa
    split at hpa <;> cases hpa
  · rw [if_neg hq] at hpa
    subst hpa
    simpa [Phase.waits] using hq

theorem endStage1_ok (s : State) (v : Fin 512) (va : Nat) (abort : Bool) : let u := s.endStage1 v va abort
    (∀ p ∈ u.phasesOf v, ∀ a, p = .wait1 a → a / 4096 ≠ va / 4096) ∧ u.mem = s.mem ∧ u.vds = s.vds ∧ u.tlbs = s.tlbs := by
  refine ⟨fun p hp a hpa => ?_, rfl, rfl, rfl⟩
  have hsel := not_wait1_resolve (resolved_of_mem v _ abort _ hp) hpa
  simpa using hsel

theorem fltres_ok {s : State} {v : Fin 512} {x : W64} {i : Instr} (hact : s.active v = true)
    (hi : i = .fltresReplay v x ∧ x.getLsbD 63 = false ∨ i = .fltresAbort v x ∧ x.getLsbD 63 = true) :
    ∃ s', exec i s = .next s' ∧ (∀ p ∈ s'.phasesOf v, ∀ a, p = .wait1 a → a / 4096 ≠ x.toNat % 2 ^ 57 / 4096) ∧
      s'.mem = s.mem ∧ s'.vds = s.vds ∧ s'.tlbs = s.tlbs := by
  rcases hi with ⟨rfl, hbit⟩ | ⟨rfl, hbit⟩
  · exact ⟨_, congrArg Host.Outcome.next (if_pos (by rw [hbit, hact]; rfl)), endStage1_ok s v (x.toNat % 2 ^ 57) false⟩
  · exact ⟨_, congrArg Host.Outcome.next (if_pos (by rw [hbit, hact]; rfl)), endStage1_ok s v (x.toNat % 2 ^ 57) true⟩

/-! ### Writes that a register holds -/

section
variable {s : State} {v : W64}

theorem pwrlimWrite_ok (hp : s.power ≠ .off) :
    exec (.pwrlimWrite v) s = .next (if 1000 ≤ v.toNat ∧ v.toNat ≤ 2800 then { s with pwrlim := v } else s) := by
  refine congrArg Host.Outcome.next ((if_neg hp).trans ?_)
  unfold powerLimit
  by_cases h : 1000 ≤ v.toNat ∧ v.toNat ≤ 2800
  · rw [if_pos h, if_pos (by simpa using h)]
  · rw [if_neg h, if_neg (by simpa using h)]

theorem healthWrite_run (hp : s.power = .ready) (off : Nat) : exec (.registerWrite .health off v) s = .next (healthWrite s off v) :=
  congrArg Host.Outcome.next (if_neg (not_not_intro hp))

theorem bootWrite_run (hp : s.power ≠ .off) (off : Nat) : exec (.registerWrite .boot off v) s = .next (bootWrite s off v) :=
  congrArg Host.Outcome.next (if_neg hp)

theorem mailboxWrite_run (hp : s.power = .ready) (off : Nat) : exec (.registerWrite .mailbox off v) s = .next (mailboxWrite s off v) :=
  congrArg Host.Outcome.next (if_neg (not_not_intro hp))

theorem fabricWrite_run (hp : s.power = .ready) (off : Nat) : exec (.registerWrite .fabric off v) s = .next (fabricWrite s off v) :=
  congrArg Host.Outcome.next (if_neg (not_not_intro hp))

theorem controlWrite_run (hp : s.power = .ready) (vd off : Nat) : exec (.registerWrite (.control vd) off v) s = .next (controlWrite s vd off v) :=
  congrArg Host.Outcome.next (if_neg (not_not_intro hp))

/-- A word of the nonce, of the mailbox's command, and of the fabric page's. -/
theorem bootWrite_nonce (i : Fin 8) : bootWrite s (0x40 + 8 * i.val) v = { s with nonce := s.nonce.set i v } := by
  have hi := i.isLt
  unfold bootWrite
  split
  · omega
  · omega
  · omega
  · rw [if_pos (by simp; omega), show (0x40 + 8 * i.val) / 8 - 8 = i.val by omega, vput_fin]

theorem mailboxWrite_word (i : Fin 8) : mailboxWrite s (8 * i.val) v = { s with mbcmd := s.mbcmd.set i v } := by
  have hi := i.isLt
  unfold mailboxWrite
  split
  · omega
  · omega
  · omega
  · omega
  · rw [if_pos (by simp; omega), show 8 * i.val / 8 = i.val by omega, vput_fin]

theorem fabricWrite_word (i : Fin 12) : fabricWrite s (8 * i.val) v = { s with fbcmd := s.fbcmd.set i v } := by
  have hi := i.isLt
  unfold fabricWrite
  rw [if_neg (by omega), if_pos (by simp; omega), show 8 * i.val / 8 = i.val by omega, vput_fin]

/-- The control page of a device that exists reads as it stands. -/
theorem registerRead_control {u : State} {vd off : Nat} {d : VDev} (hp : u.power = .ready) (hd : u.vdev? vd = some d) (hoff : off % 8 = 0) :
    registerRead u (.control vd) off = some (u.pageWord (.control vd) off) := by
  have hanswers : u.answers (.control vd) = true := by
    unfold State.answers
    dsimp only
    rw [hp, hd]
    rfl
  unfold registerRead
  rw [hanswers, hoff]
  rfl

theorem flthead_ok {vd : Fin 512} {d : VDev} (hp : s.power = .ready) (hd : s.vdev? vd = some d) :
    ∃ s', exec (.registerWrite (.control vd) 0x20 v) s = .next s' ∧ s'.vdev? vd = some { d with flthead := v } ∧
      registerRead s' (.control vd) 0x20 = some v := by
  have hvd : (s.modVdev vd fun d => { d with flthead := v }).vdev? vd = some { d with flthead := v } := by
    rw [vdev?_modVdev, if_pos rfl, hd]
    rfl
  have hpow : (s.modVdev vd fun d => { d with flthead := v }).power = .ready := by
    have hkept := congrArg State.power (modVdev_noFlight s vd fun d => { d with flthead := v })
    exact hkept.trans hp
  refine ⟨s.modVdev vd fun d => { d with flthead := v }, controlWrite_run hp vd 0x20, hvd, ?_⟩
  generalize (s.modVdev vd fun d => { d with flthead := v }) = u at hvd hpow
  rw [registerRead_control hpow hvd rfl]
  unfold State.pageWord
  dsimp only
  rw [hvd]
  rfl

/-! ### What reads back -/

/-- A page of the device, which is READY, reads as it stands. -/
theorem registerRead_ready {u : State} {page : HostPage} {off : Nat} (hp : u.power = .ready) (hpage : page = .health ∨ page = .boot ∨
    page = .mailbox ∨ page = .fabric) (hoff : off % 8 = 0) : registerRead u page off = some (u.pageWord page off) := by
  have hanswers : u.answers page = true := by
    unfold State.answers
    rcases hpage with rfl | rfl | rfl | rfl <;> (dsimp only; rw [hp]; rfl)
  unfold registerRead
  rw [hanswers, hoff]
  rfl

theorem vat_set_self {n : Nat} (xs : Vector W64 n) (i : Fin n) : vat (xs.set i v) i 0 = v := (dif_pos i.isLt).trans (Vector.getElem_set_self ..)

theorem nonce_reads (i : Fin 8) : ({ s with nonce := s.nonce.set i v } : State).pageWord .boot (0x40 + 8 * i.val) = v := by
  have hi := i.isLt
  unfold State.pageWord
  dsimp only
  split
  · omega
  · omega
  · omega
  · omega
  · omega
  · omega
  · omega
  · omega
  · rw [if_pos (by simp; omega), show (0x40 + 8 * i.val) / 8 - 8 = i.val by omega, vat_set_self]

theorem mbcmd_reads (i : Fin 8) : ({ s with mbcmd := s.mbcmd.set i v } : State).pageWord .mailbox (8 * i.val) = v := by
  have hi := i.isLt
  unfold State.pageWord
  dsimp only
  rw [if_pos (by omega), show 8 * i.val / 8 = i.val by omega, vat_set_self]

theorem fbcmd_reads (i : Fin 12) : ({ s with fbcmd := s.fbcmd.set i v } : State).pageWord .fabric (8 * i.val) = v := by
  have hi := i.isLt
  unfold State.pageWord
  dsimp only
  rw [if_pos (by omega), show 8 * i.val / 8 = i.val by omega, vat_set_self]

theorem registerWrite_reads {page : HostPage} {off : Nat} (hp : s.power = .ready)
    (h : page = .health ∧ (off = 0x28 ∨ off = 0x58) ∨ page = .boot ∧ (∃ i < 8, off = 0x40 + 8 * i) ∨ page = .mailbox ∧ (∃ i < 8, off = 8 * i) ∨
      page = .fabric ∧ ∃ i < 12, off = 8 * i) :
    ∃ s', exec (.registerWrite page off v) s = .next s' ∧ registerRead s' page off = some v := by
  rcases h with ⟨rfl, rfl | rfl⟩ | ⟨rfl, i, hi, rfl⟩ | ⟨rfl, i, hi, rfl⟩ | ⟨rfl, i, hi, rfl⟩
  · exact ⟨_, healthWrite_run hp 0x28, registerRead_ready hp (.inl rfl) rfl⟩
  · exact ⟨_, healthWrite_run hp 0x58, registerRead_ready hp (.inl rfl) rfl⟩
  · lift i to Fin 8 using hi
    refine ⟨_, (bootWrite_run (by rw [hp]; decide) _).trans (congrArg _ (bootWrite_nonce i)), ?_⟩
    exact (registerRead_ready (u := { s with nonce := s.nonce.set i v }) hp (.inr (.inl rfl)) (show (0x40 + 8 * i.val) % 8 = 0 by omega)).trans (congrArg some (nonce_reads (s := s) (v := v) i))
  · lift i to Fin 8 using hi
    refine ⟨_, (mailboxWrite_run hp _).trans (congrArg _ (mailboxWrite_word i)), ?_⟩
    exact (registerRead_ready (u := { s with mbcmd := s.mbcmd.set i v }) hp (.inr (.inr (.inl rfl))) (show 8 * i.val % 8 = 0 by omega)).trans (congrArg some (mbcmd_reads (s := s) (v := v) i))
  · lift i to Fin 12 using hi
    refine ⟨_, (fabricWrite_run hp _).trans (congrArg _ (fabricWrite_word i)), ?_⟩
    exact (registerRead_ready (u := { s with fbcmd := s.fbcmd.set i v }) hp (.inr (.inr (.inr rfl))) (show 8 * i.val % 8 = 0 by omega)).trans (congrArg some (fbcmd_reads (s := s) (v := v) i))

/-- The places of actions read 0. -/
theorem actions_read_zero (hp : s.power = .ready) : registerRead s .mailbox 0x40 = some 0 ∧ registerRead s .fabric 0x60 = some 0 ∧
    registerRead s .boot 0x08 = some 0 ∧ ∀ v : Fin 512, (s.vdev? v).isSome = true → registerRead s (.control v) 0x28 = some 0 := by
  refine ⟨registerRead_ready hp (.inr (.inr (.inl rfl))) rfl, registerRead_ready hp (.inr (.inr (.inr rfl))) rfl,
    registerRead_ready hp (.inr (.inl rfl)) rfl, fun v hv => ?_⟩
  obtain ⟨d, hd⟩ := Option.isSome_iff_exists.mp hv
  rw [registerRead_control hp hd rfl]
  unfold State.pageWord
  dsimp only
  rw [hd]
  rfl

end

end Sys2Proof.Machine
end

section
/-!
PROOFS. Bring-up, attestation, power and heat (20 R449 to R456).
-/
namespace Sys2Proof.Machine

/-! ### What the retirement of cores leaves -/

/-- The parts of the state that bring-up speaks of. -/
structure BootPart where
  mem : Mem
  power : Power
  boot : Option BringUp
  code : BitVec 4
  step : BitVec 4
  computeOn : Bool
  columns : BitVec 16
  pool : List Nat
  hbmFree : List Nat

def State.bootPart (s : State) : BootPart := ⟨s.mem, s.power, s.boot, s.bootCode, s.bootStep, s.computeOn, s.columns, s.pool, s.hbmFree⟩

theorem bootPart_of_noEvents {s t : State} (h : s.noEvents = t.noEvents) : s.bootPart = t.bootPart := by
  have hpart := congrArg State.bootPart h
  exact hpart

/-- One more request for a replacement is counted. -/
def State.countRequest (s : State) : State := { s with rrcnt := s.rrcnt + 1 }

theorem askReplacement_eq (s : State) (kind unit : Nat) : s.askReplacement kind unit =
    s.countRequest.postEvent 0x28 2 noVd 0 (BitVec.ofNat 64 kind) (BitVec.ofNat 64 unit) := rfl

theorem bootPart_askReplacement (s : State) (kind unit : Nat) : (s.askReplacement kind unit).bootPart = s.bootPart := by
  rw [askReplacement_eq]
  exact (bootPart_of_noEvents (postEvent_noEvents ..)).trans rfl

theorem bootPart_degradeBy (s : State) (hi lo : Nat) : (s.degradeBy hi lo).bootPart = s.bootPart := rfl
theorem bootPart_moveService (s : State) (core new : Nat) : (s.moveService core new).bootPart = s.bootPart := rfl

theorem bootPart_markGroups (s : State) : s.markGroups.bootPart = s.bootPart :=
  foldl_keeps (fun (s : State) n => s.modTruss n fun t => { t with evict := t.onCore }) State.bootPart (fun _ _ => rfl) _ s

theorem bootPart_coreReported (s : State) (core : Nat) : (s.coreReported core).bootPart = s.bootPart := by
  have hevent := bootPart_of_noEvents (postEvent_noEvents (s.coreGone core) 0x25 2 noVd 0 (BitVec.ofNat 64 core)
    (BitVec.ofNat 64 (s.coreGone core).inServiceCores))
  unfold State.coreReported
  dsimp only
  generalize (s.coreGone core).postEvent 0x25 2 noVd 0 (BitVec.ofNat 64 core) (BitVec.ofNat 64 (s.coreGone core).inServiceCores) = u at hevent ⊢
  have hasked : ((u.askReplacement 7 core).degradeBy 15 8).bootPart = s.bootPart := by
    rw [bootPart_degradeBy, bootPart_askReplacement, hevent]
    rfl
  split
  · split
    · exact (bootPart_moveService ..).trans hasked
    · exact hasked
  · exact hasked

theorem bootPart_retireCore (s : State) (core : Nat) : (s.retireCore core).bootPart = s.bootPart := by
  rw [retireCore_eq, bootPart_markGroups]
  exact bootPart_coreReported s core

theorem bootPart_bootCores (s : State) (clusters : BitVec 24) : (s.bootCores clusters).bootPart = s.bootPart := by
  unfold State.bootCores
  split
  · rfl
  · refine foldl_keeps _ State.bootPart (fun s c => ?_) _ s
    split
    · rfl
    · exact bootPart_retireCore s c

theorem bootPart_bootFold (s : State) (columns : BitVec 16) : (s.bootFold columns).bootPart = { s.bootPart with columns := columns } := by
  unfold State.bootFold
  split
  · next h => rw [h]; rfl
  · refine (foldl_keeps _ State.bootPart (fun s c => ?_) _ _).trans rfl
    dsimp only
    split <;> rfl

theorem bootPart_opticsUp (s : State) (b : BringUp) : (s.opticsUp b).bootPart =
    if 4 ≤ ((List.range 16).filter b.columns.getLsbD).length then { s.bootPart with columns := b.columns } else s.bootPart := by
  unfold State.opticsUp
  rw [bootPart_bootCores]
  split
  · exact bootPart_bootFold s b.columns
  · rfl

/-! ### The steps of bring-up (R451) -/

section
variable {s : State} {b : BringUp} {n : Nat}

theorem opticsUp_kept (s : State) (b : BringUp) : (s.opticsUp b).mem = s.mem ∧ (s.opticsUp b).power = s.power ∧ (s.opticsUp b).boot = s.boot ∧
    (s.opticsUp b).bootCode = s.bootCode ∧ (s.opticsUp b).bootStep = s.bootStep ∧ (s.opticsUp b).computeOn = s.computeOn ∧
    (s.opticsUp b).pool = s.pool ∧ (s.opticsUp b).hbmFree = s.hbmFree := by
  have h := bootPart_opticsUp s b
  have hcols : ∃ c, (s.opticsUp b).bootPart = { s.bootPart with columns := c } := by
    rw [h]
    split
    · exact ⟨_, rfl⟩
    · exact ⟨s.columns, rfl⟩
  obtain ⟨c, hc⟩ := hcols
  have h1 := congrArg BootPart.mem hc
  have h2 := congrArg BootPart.power hc
  have h3 := congrArg BootPart.boot hc
  have h4 := congrArg BootPart.code hc
  have h5 := congrArg BootPart.step hc
  have h6 := congrArg BootPart.computeOn hc
  have h7 := congrArg BootPart.pool hc
  have h8 := congrArg BootPart.hbmFree hc
  exact ⟨h1, h2, h3, h4, h5, h6, h7, h8⟩

theorem opticsUp_columns (s : State) (h : opticsOk b = true) : (s.opticsUp b).columns = b.columns := by
  have hfour : 4 ≤ ((List.range 16).filter b.columns.getLsbD).length := by
    unfold opticsOk at h
    simp only [Bool.and_eq_true, decide_eq_true_eq] at h
    exact h.1
  have hpart := bootPart_opticsUp s b
  rw [if_pos hfour] at hpart
  have hcolumns := congrArg BootPart.columns hpart
  exact hcolumns

/-- What a step before the last leaves of memory and of where bring-up stands. -/
theorem bootActs_kept (hn : n ≠ 10) : (s.bootActs b n).mem = s.mem ∧ (s.bootActs b n).power = s.power ∧ (s.bootActs b n).boot = s.boot ∧
    (s.bootActs b n).bootCode = s.bootCode ∧ (s.bootActs b n).bootStep = s.bootStep ∧ (s.bootActs b n).pool = s.pool ∧
    (s.bootActs b n).hbmFree = s.hbmFree := by
  unfold State.bootActs
  split
  · exact ⟨rfl, rfl, rfl, rfl, rfl, rfl, rfl⟩
  · obtain ⟨h1, h2, h3, h4, h5, -, h7, h8⟩ := opticsUp_kept s b
    exact ⟨h1, h2, h3, h4, h5, h7, h8⟩
  · exact ⟨rfl, rfl, rfl, rfl, rfl, rfl, rfl⟩
  · exact absurd rfl hn
  · exact ⟨rfl, rfl, rfl, rfl, rfl, rfl, rfl⟩

theorem bootPassed_kept (s : State) (b : BringUp) (n : Nat) : (s.bootPassed b n).mem = s.mem ∧ (s.bootPassed b n).power = s.power ∧
    (s.bootPassed b n).boot = s.boot ∧ (s.bootPassed b n).bootCode = s.bootCode ∧ (s.bootPassed b n).computeOn = s.computeOn ∧
    (s.bootPassed b n).columns = s.columns ∧ (n ≠ 5 → (s.bootPassed b n).pool = s.pool ∧ (s.bootPassed b n).hbmFree = s.hbmFree) := by
  unfold State.bootPassed
  split
  · exact ⟨rfl, rfl, rfl, rfl, rfl, rfl, fun _ => ⟨rfl, rfl⟩⟩
  · exact ⟨rfl, rfl, rfl, rfl, rfl, rfl, fun h => absurd rfl h⟩
  · exact ⟨rfl, rfl, rfl, rfl, rfl, rfl, fun _ => ⟨rfl, rfl⟩⟩
  · exact ⟨rfl, rfl, rfl, rfl, rfl, rfl, fun _ => ⟨rfl, rfl⟩⟩

/-- Step 5 supplies the memory that the image names (R450). -/
theorem readConfig_pool (s : State) {lo hi : Nat} (h : b.fields.pool = some (lo, hi)) :
    ((s.bootActs b 5).bootPassed b 5).pool = imagePool lo hi ∧ ((s.bootActs b 5).bootPassed b 5).hbmFree = imageUnits lo hi := by
  unfold State.bootActs State.bootPassed State.readConfig
  dsimp only
  rw [h]
  simp only [Option.getD_some, and_self]

/-- The next step is under way. -/
def State.nextStep (s : State) (n : Nat) : State := { s with bootStep := BitVec.ofNat 4 (n + 1) }

theorem nextStep_pool (s : State) (n : Nat) : (s.nextStep n).pool = s.pool := rfl
theorem nextStep_hbmFree (s : State) (n : Nat) : (s.nextStep n).hbmFree = s.hbmFree := rfl

/-- Bring-up has stopped. -/
def State.bootFailed (s : State) (code detail : Nat) : State :=
  { s with power := .failed, bootCode := BitVec.ofNat 4 code, bootDetail := BitVec.ofNat 8 detail, boot := none }

theorem bootAdvance_passes (hb : s.boot = some b) (hstep : s.bootStep.toNat = n) (hpass : stepFails b n = none) (hn : n < 10) :
    bootAdvance s = ((s.bootActs b n).bootPassed b n).nextStep n := by
  unfold bootAdvance
  rw [hb]
  dsimp only
  rw [hstep, hpass]
  exact if_pos hn

theorem bootAdvance_fails {code detail : Nat} (hb : s.boot = some b) (hstep : s.bootStep.toNat = n) (hfail : stepFails b n = some (code, detail)) :
    bootAdvance s = (s.bootActs b n).bootFailed code detail := by
  unfold bootAdvance
  rw [hb]
  dsimp only
  rw [hstep, hfail]
  rfl

theorem bootAdvance_stays (hb : s.boot = none) : bootAdvance s = s := by
  unfold bootAdvance
  rw [hb]

/-- Step `n` of a bring-up that began in `s` is under way. -/
structure Booting (s : State) (b : BringUp) (n : Nat) (u : State) : Prop where
  boot : u.boot = some b
  power : u.power = .booting
  step : u.bootStep = BitVec.ofNat 4 n
  code : u.bootCode = 0
  mem : u.mem = s.mem
  oldPool : n ≤ 5 → u.pool = s.pool
  newPool : 6 ≤ n → ∀ lo hi, b.fields.pool = some (lo, hi) → u.pool = imagePool lo hi ∧ u.hbmFree = imageUnits lo hi
  computeOn : 7 ≤ n → u.computeOn = true
  columns : 9 ≤ n → u.columns = b.columns

theorem Booting.start (s : State) (b : BringUp) : Booting s b 3 (s.bootFrom3 b) :=
  ⟨rfl, rfl, rfl, rfl, rfl, fun _ => rfl, fun h => absurd h (by decide), fun h => absurd h (by decide), fun h => absurd h (by decide)⟩

theorem step_toNat (h : n ≤ 10) : (BitVec.ofNat 4 n).toNat = n := by
  rw [BitVec.toNat_ofNat]
  exact Nat.mod_eq_of_lt (by omega)

theorem Booting.next {u : State} (h : Booting s b n u) (hn : n < 10) (hpass : stepFails b n = none) : Booting s b (n + 1) (bootAdvance u) := by
  rw [bootAdvance_passes h.boot (by rw [h.step, step_toNat (by omega)]) hpass hn]
  obtain ⟨hmem, hpower, hboot, hcode, -, hpool, hfree⟩ := bootActs_kept (s := u) (b := b) (Nat.ne_of_lt hn)
  obtain ⟨hmem', hpower', hboot', hcode', hon', hcols', hpool'⟩ := bootPassed_kept (u.bootActs b n) b n
  refine ⟨hboot'.trans (hboot.trans h.boot), hpower'.trans (hpower.trans h.power), rfl, hcode'.trans (hcode.trans h.code),
    hmem'.trans (hmem.trans h.mem), fun h5 => ?_, fun h6 lo hi hfields => ?_, fun h7 => ?_, fun h9 => ?_⟩
  · exact (hpool' (by omega)).1.trans (hpool.trans (h.oldPool (by omega)))
  · rw [nextStep_pool, nextStep_hbmFree]
    by_cases hn5 : n = 5
    · subst hn5
      exact readConfig_pool u hfields
    · obtain ⟨hp, hf⟩ := h.newPool (by omega) lo hi hfields
      exact ⟨(hpool' hn5).1.trans (hpool.trans hp), (hpool' hn5).2.trans (hfree.trans hf)⟩
  · refine hon'.trans ?_
    by_cases hn6 : n = 6
    · subst hn6
      rfl
    · have hon := h.computeOn (by omega)
      unfold State.bootActs
      split
      · rfl
      · obtain ⟨-, -, -, -, -, hc, -, -⟩ := opticsUp_kept u b
        exact hc.trans hon
      · exact hon
      · exact hon
      · exact hon
  · refine hcols'.trans ?_
    by_cases hn8 : n = 8
    · subst hn8
      refine opticsUp_columns u ?_
      unfold stepFails at hpass
      by_contra hbad
      rw [if_neg hbad] at hpass
      cases hpass
    · have hn9 : n = 9 := by omega
      subst hn9
      exact h.columns (by omega)

/-- Where a bring-up stops, its step is the first that fails. -/
theorem findSome_range' {α : Type} {f : Nat → Option α} {y : α} (k start : Nat) (h : (List.range' start k).findSome? f = some y) :
    ∃ n, start ≤ n ∧ n < start + k ∧ f n = some y ∧ ∀ m, start ≤ m → m < n → f m = none := by
  induction k generalizing start with
  | zero => cases h
  | succ k ih =>
    rw [List.range'_succ, List.findSome?_cons] at h
    cases hf : f start with
    | some z =>
      rw [hf] at h
      cases h
      exact ⟨start, Nat.le_refl _, by omega, hf, fun m hle hlt => absurd hlt (by omega)⟩
    | none =>
      rw [hf] at h
      obtain ⟨n, hle, hlt, hn, hbefore⟩ := ih (start + 1) h
      refine ⟨n, by omega, by omega, hn, fun m hm hmn => ?_⟩
      by_cases he : m = start
      · exact he ▸ hf
      · exact hbefore m (by omega) hmn

theorem bringUp_iterate (s : State) (b : BringUp) : s.bringUp b = bootAdvance^[8] (s.bootFrom3 b) := by
  unfold State.bringUp
  rw [List.foldl_const, List.length_range]

/-- Steps that pass one after another. -/
theorem Booting.run (s : State) (b : BringUp) (k : Nat) (hk : k ≤ 7) (h : ∀ m, 3 ≤ m → m < 3 + k → stepFails b m = none) :
    Booting s b (3 + k) (bootAdvance^[k] (s.bootFrom3 b)) := by
  induction k with
  | zero => exact Booting.start s b
  | succ k ih =>
    rw [Function.iterate_succ_apply']
    exact (ih (by omega) fun m hm hlt => h m hm (by omega)).next (by omega) (h (3 + k) (by omega) (by omega))

theorem bringUp_passes (h : bootStops b = none) : let u := s.bringUp b
    u.power = .ready ∧ u.computeOn = true ∧ u.bootStep = 10 ∧ u.bootCode = 0 ∧ u.mem = s.mem ∧ u.columns = b.columns ∧
      ∀ lo hi, b.fields.pool = some (lo, hi) → u.pool = imagePool lo hi ∧ u.hbmFree = imageUnits lo hi := by
  have hpass : ∀ m, 3 ≤ m → m < 3 + 7 → stepFails b m = none := by
    intro m hm hlt
    by_cases h9 : m = 9
    · subst h9
      rfl
    · have hnone := List.findSome?_eq_none_iff.mp h m (by
        rw [show [3, 4, 5, 6, 7, 8] = List.range' 3 6 from rfl, List.mem_range'_1]
        omega)
      exact Option.map_eq_none_iff.mp hnone
  have hrun := Booting.run s b 7 (by omega) hpass
  have hlast : bootAdvance (bootAdvance^[7] (s.bootFrom3 b)) = (bootAdvance^[7] (s.bootFrom3 b)).readyUp := by
    have hstep : (bootAdvance^[7] (s.bootFrom3 b)).bootStep.toNat = 10 := by rw [hrun.step]; rfl
    generalize bootAdvance^[7] (s.bootFrom3 b) = u at hrun hstep
    unfold bootAdvance
    rw [hrun.boot]
    dsimp only
    rw [hstep]
    exact if_neg (by decide)
  rw [bringUp_iterate, Function.iterate_succ_apply', hlast]
  exact ⟨rfl, hrun.computeOn (by omega), rfl, rfl, hrun.mem, hrun.columns (by omega), hrun.newPool (by omega)⟩

theorem iterate_stays {u : State} (hb : u.boot = none) (k : Nat) : bootAdvance^[k] u = u :=
  Function.iterate_fixed (bootAdvance_stays hb) k

theorem bringUp_fails {step code detail : Nat} (h : bootStops b = some (step, code, detail)) : let u := s.bringUp b
    u.power = .failed ∧ u.bootStep = BitVec.ofNat 4 step ∧ u.bootCode = BitVec.ofNat 4 code ∧ u.bootDetail = BitVec.ofNat 8 detail ∧
      (step ≤ 5 → u.pool = s.pool) := by
  obtain ⟨n, hlo, hhi, hn, hbefore⟩ := findSome_range' (f := fun n => (stepFails b n).map fun x : Nat × Nat => (n, x.1, x.2)) 6 3 h
  obtain ⟨⟨c, d⟩, hfail, hx⟩ := Option.map_eq_some_iff.mp hn
  obtain ⟨k, rfl⟩ : ∃ k, n = 3 + k := ⟨n - 3, by omega⟩
  cases hx
  have hrun := Booting.run s b k (by omega) fun m hm hlt => Option.map_eq_none_iff.mp (hbefore m hm hlt)
  have hstop := bootAdvance_fails hrun.boot (by rw [hrun.step, step_toNat (by omega)]) hfail
  have hall : s.bringUp b = ((bootAdvance^[k] (s.bootFrom3 b)).bootActs b (3 + k)).bootFailed c d := by
    rw [bringUp_iterate, show 8 = (7 - k) + 1 + k by omega, Function.iterate_add_apply, Function.iterate_succ_apply, hstop]
    exact iterate_stays rfl _
  obtain ⟨-, -, -, -, hstep, hpool, -⟩ := bootActs_kept (s := bootAdvance^[k] (s.bootFrom3 b)) (b := b) (n := 3 + k) (by omega)
  rw [hall]
  exact ⟨rfl, hstep.trans hrun.step, rfl, rfl, fun h5 => hpool.trans (hrun.oldPool h5)⟩

end

end Sys2Proof.Machine
end

section
/-!
PROOFS. Power-on, attestation, power and heat (20 R449 to R456), and O49.
-/
namespace Sys2Proof.Machine

section
variable {s : State} {b : BringUp} {n : Nat}

/-! ### Bring-up begins, and goes on (R451) -/

theorem hostTrained_mem (s : State) : s.hostTrained.mem = s.mem :=
  foldl_keeps (fun (s : State) (x : Nat × List Byte) => s.pfPut x.1 x.2) State.mem (fun _ _ => rfl) _ _

/-- Module power is on: the I/O-die counter starts, and the host port has not trained yet. -/
def State.poweredOn (s : State) : State := { s with dieCtr0 := vput s.dieCtr0 2 s.ioClk, passAt := s.ioClk }

theorem powerOn_eq (h : s.power = .off) : powerOn s b = s.poweredOn.hostTrained.bootFrom3 b := if_pos h

theorem bootFrom3_begins (s : State) (b : BringUp) : let u := s.bootFrom3 b
    u.power = .booting ∧ u.bootStep = 3 ∧ u.bootCode = 0 ∧ u.boot = some b ∧ u.mem = s.mem := ⟨rfl, rfl, rfl, rfl, rfl⟩

theorem bringUp_begins {i : Instr} (h : i = .powerOn b ∧ s.power = .off ∨ i = .bootctlRetry b ∧ s.power = .failed ∧ s.bootCode ≠ 7) :
    ∃ s', exec i s = .next s' ∧ s'.power = .booting ∧ s'.bootStep = 3 ∧ s'.bootCode = 0 ∧ s'.boot = some b ∧ s'.mem = s.mem := by
  rcases h with ⟨rfl, hoff⟩ | ⟨rfl, hfailed, hcode⟩
  · refine ⟨_, congrArg Host.Outcome.next (powerOn_eq hoff), ?_⟩
    obtain ⟨hpower, hstep, hcode, hboot, hmem⟩ := bootFrom3_begins s.poweredOn.hostTrained b
    exact ⟨hpower, hstep, hcode, hboot, hmem.trans (hostTrained_mem _)⟩
  · have hgo : (s.power = .failed && s.bootCode ≠ 7) = true := by
      rw [hfailed]
      exact decide_eq_true hcode
    exact ⟨_, congrArg Host.Outcome.next (if_pos hgo), bootFrom3_begins s b⟩

theorem nextStep_keeps (s : State) (n : Nat) : (s.nextStep n).bootStep = BitVec.ofNat 4 (n + 1) ∧ (s.nextStep n).power = s.power ∧
    (s.nextStep n).boot = s.boot := ⟨rfl, rfl, rfl⟩

theorem bootAdvance_goesOn (hb : s.boot = some b) (hlt : s.bootStep.toNat < 10) (hpass : stepFails b s.bootStep.toNat = none) :
    (bootAdvance s).bootStep = s.bootStep + 1 ∧ (bootAdvance s).power = s.power ∧ (bootAdvance s).boot = some b := by
  rw [bootAdvance_passes hb rfl hpass hlt]
  obtain ⟨-, hpower, hboot, -⟩ := bootActs_kept (s := s) (b := b) (Nat.ne_of_lt hlt)
  obtain ⟨-, hpower', hboot', -⟩ := bootPassed_kept (s.bootActs b s.bootStep.toNat) b s.bootStep.toNat
  obtain ⟨hstep'', hpower'', hboot''⟩ := nextStep_keeps ((s.bootActs b s.bootStep.toNat).bootPassed b s.bootStep.toNat) s.bootStep.toNat
  refine ⟨hstep''.trans ?_, hpower''.trans (hpower'.trans hpower), hboot''.trans (hboot'.trans (hboot.trans hb))⟩
  rw [BitVec.ofNat_add, BitVec.ofNat_toNat, BitVec.setWidth_eq]
  rfl

/-! ### Attestation (R453) -/

theorem attest_ok (s : State) : exec .bootctlAttest s = .next
    (if s.power = .ready ∧ s.attstat.getLsbD 63 = false then { s with attstat := BitVec.ofNat 64 (2 ^ 63) }
     else { s with discards := s.discards + 1 }) := by
  refine congrArg Host.Outcome.next ?_
  unfold attest
  by_cases hready : s.power = .ready ∧ s.attstat.getLsbD 63 = false
  · rw [if_pos hready, if_neg]
    obtain ⟨hpower, hbusy⟩ := hready
    simp only [hpower, hbusy, ne_eq, not_true_eq_false, decide_false, Bool.or_false, Bool.false_eq_true, not_false_eq_true]
  · rw [if_neg hready, if_pos]
    · rfl
    · by_cases hpower : s.power = .ready
      · have hbusy : s.attstat.getLsbD 63 = true := by
          by_contra hfree
          exact hready ⟨hpower, Bool.eq_false_iff.mpr hfree⟩
        rw [hbusy, Bool.or_true]
      · rw [Bool.or_eq_true, decide_eq_true_eq]
        exact Or.inl hpower

/-- The report has been written. -/
def State.attested (s : State) : State := { s with attstat := 1, tick := s.tick + 1 }

theorem attested_keeps (u : State) : u.attested.attstat = 1 ∧ u.attested.mem = u.mem ∧ u.attested.hostOut = u.hostOut ∧
    u.attested.hostWait = u.hostWait := ⟨rfl, rfl, rfl, rfl⟩

theorem pfWrite_up (h : s.hostUp = true) (addr : Nat) (data : List Byte) : s.pfWrite addr data = s.pfPut addr data := if_pos h

theorem pfWrite_waits (h : s.hostUp = false) (addr : Nat) (data : List Byte) : (s.pfWrite addr data).hostOut = s.hostOut ∧
    (s.pfWrite addr data).hostWait = s.hostWait ++ [(addr, data)] := by
  unfold State.pfWrite
  rw [h]
  exact ⟨rfl, rfl⟩

theorem pfWrite_mem (s : State) (addr : Nat) (data : List Byte) : (s.pfWrite addr data).mem = s.mem := by
  unfold State.pfWrite
  split <;> rfl

theorem attestStep_ok (hpower : s.power = .ready) (hbusy : s.attstat.getLsbD 63 = true) : let u := attestStep s
    u.attstat = 1 ∧ u.mem = s.mem ∧ (s.hostUp = true → u.hostOut = s.hostOut ++ [HostOut.write s.attaddr.toNat s.report]) ∧
      (s.hostUp = false → u.hostOut = s.hostOut ∧ u.hostWait = s.hostWait ++ [(s.attaddr.toNat, s.report)]) := by
  have hgo : ¬ (s.power ≠ .ready || !s.attstat.getLsbD 63) = true := by
    rw [hpower, hbusy]
    decide
  have hstep : attestStep s = { s.pfWrite s.attaddr.toNat s.report with attstat := 1, tick := s.tick + 1 } := if_neg hgo
  dsimp only
  rw [hstep]
  refine ⟨rfl, pfWrite_mem .., fun hup => ?_, fun hdown => pfWrite_waits hdown _ _⟩
  have hput := congrArg State.hostOut (pfWrite_up hup s.attaddr.toNat s.report)
  exact hput

/-! ### Power and heat (R454, R455) -/

theorem powerThrottle_ok {e : Bool} (hpower : s.power = .ready) (hover : s.overLimit = e) :
    exec (.powerThrottle e) s = .next { s with throttled := e } := by
  refine congrArg Host.Outcome.next (if_pos ?_)
  rw [hpower, hover, beq_self_eq_true]
  rfl

theorem thermalTrip_ok (hon : s.power ≠ .off) (hfirst : s.power ≠ .failed ∨ s.bootCode ≠ 7) :
    ∃ s', exec .thermalTrip s = .next s' ∧ s'.power = .failed ∧ s'.computeOn = false ∧ s'.bootCode = 7 ∧ s'.boot = none := by
  have hgo : ¬ (s.power = .off || (s.power = .failed && s.bootCode = 7)) = true := by
    simp only [Bool.or_eq_true, Bool.and_eq_true, decide_eq_true_eq]
    rintro (hoff | ⟨hfailed, hcode⟩)
    · exact hon hoff
    · exact hfirst.elim (absurd hfailed) (absurd hcode)
  exact ⟨_, congrArg Host.Outcome.next (if_neg hgo), rfl, rfl, rfl, rfl⟩

theorem modulePowerOff_ok (s : State) : ∃ s', exec .modulePowerOff s = .next s' ∧ s'.power = .off ∧ s'.mem = [] ∧ s'.trusses = [] ∧
    s'.vds = [] ∧ s'.hostMem = s.hostMem ∧ s'.pfHost = s.pfHost := ⟨_, rfl, rfl, rfl, rfl, rfl, rfl, rfl⟩

end

/-- Settles O49: a register write is the change of its field; bring-up is an iteration of one step, whose invariant says what the steps
that have passed have set, and which stops at the first step that fails. -/
theorem registerPagesAndPower : Obligations.RegisterPagesAndPower := by
  unfold Obligations.RegisterPagesAndPower
  refine ⟨⟨?_, ?_, ?_, ?_, ?_, ?_, ?_, ?_, ?_, ?_⟩, ⟨?_, ?_, ?_, ?_, ?_, ?_, ?_, ?_, ?_⟩⟩
  · exact fun s v d x hd hx => s1rootWrite_ok hd hx
  · exact fun s v d x hd hlo hhi hx => fltbaseWrite_ok hd hlo hhi hx
  · exact fun s v x i hact hi => fltres_ok hact hi
  · exact fun s v hp => pwrlimWrite_ok hp
  · exact fun s v hp => healthWrite_run hp 0x28
  · exact fun s v i hp => (bootWrite_run hp _).trans (congrArg Host.Outcome.next (bootWrite_nonce i))
  · exact fun s v i hp => (mailboxWrite_run hp _).trans (congrArg Host.Outcome.next (mailboxWrite_word i))
  · exact fun s v d x hp hd => flthead_ok hp hd
  · exact fun s page off x hp hpage => registerWrite_reads hp hpage
  · exact fun s hp => actions_read_zero hp
  · exact fun s b i hi => bringUp_begins hi
  · exact fun s b hb hlt hpass => bootAdvance_goesOn hb hlt hpass
  · exact fun s b hb => bringUp_passes hb
  · exact fun s b step code detail hb => bringUp_fails hb
  · exact attest_ok
  · exact fun s hp hbusy => attestStep_ok hp hbusy
  · exact fun s e hp hover => powerThrottle_ok hp hover
  · exact fun s hon hfirst => thermalTrip_ok hon hfirst
  · exact modulePowerOff_ok

end Sys2Proof.Machine
end

section
/-!
PROOFS. Launches (02 R34, R36, R470): the admission of a launch whose span names no truss.
-/
namespace Sys2Proof.Machine

/-! ### A span of no truss -/

theorem pickCores_nil (s : State) (d : VDev) {cs : List Nat} (h : s.pickCores d [] = some cs) : cs = [] := by
  unfold State.pickCores at h
  simp only [spanWays, List.foldl_cons, List.foldl_nil, Option.bind_eq_some_iff, Option.some.injEq] at h
  obtain ⟨-, -, rfl⟩ := h
  rfl

/-- The launch's next span, with no core for it, changes no truss. -/
theorem admitSpan_spanless {s s' : State} {ln : Nat} {l : Launch} (hl : s.launches[ln]? = some l) (hspan : l.items.span = 0)
    (h : s.admitSpan ln = some s') : s'.trusses = s.trusses ∧ ∃ l', s'.launches[ln]? = some l' ∧ l'.items.span = 0 := by
  unfold State.admitSpan at h
  rw [hl] at h
  dsimp only at h
  split at h
  · cases h
  · rw [hspan, List.replicate_zero] at h
    split at h
    · next cores hcores =>
      rw [pickCores_nil s _ hcores] at h
      cases h
      refine ⟨rfl, { l with admitted := l.admitted + l.items.span }, ?_, hspan⟩
      refine (List.getElem?_modify ..).trans ?_
      simp only [if_true]
      exact congrArg (Option.map _) hl
    · cases h

theorem admitMany_spanless (ln : Nat) (fuel : Nat) {s : State} {l : Launch} (hl : s.launches[ln]? = some l) (hspan : l.items.span = 0) :
    (s.admitMany ln fuel).trusses = s.trusses := by
  induction fuel generalizing s l with
  | zero => rfl
  | succ n ih =>
    unfold State.admitMany
    rw [hl]
    dsimp only
    split
    · rfl
    · split
      · next s' hs' =>
        obtain ⟨htrusses, l', hl', hspan'⟩ := admitSpan_spanless hl hspan hs'
        exact (ih hl' hspan').trans htrusses
      · rfl

/-! ### A launch that has one -/

/-- A launch of one truss in spans of none. -/
def spanlessLaunch : Launch := ⟨0, 0, 0, { placedItems with span := 0 }, 0, 0, false, .untranslated⟩

/-- The device that holds it runs. -/
def spanlessState : State :=
  { State.reset with vds := [(0, placedDevice)], sets := vput State.reset.sets 0 ⟨true, 1, 0, some 0, none, 0⟩, launches := [spanlessLaunch] }

theorem spanlessState_runs : (spanlessState.served 0 && !spanlessState.replaying 0 && (spanlessState.admitSpan 0).isSome) = true := by decide +kernel

theorem admission_run (s : State) : exec .launchAdmission s = .next (admission s) := rfl

/-- An admission step where one device has one launch, which is not CONCURRENT, and no truss. -/
theorem admission_single {s : State} {v : Nat} {d : VDev} {l : Launch} (hvds : s.vds = [(v, d)]) (hserved : s.served v = true)
    (hreplay : s.replaying v = false) (hlaunches : s.launches = [l]) (hvd : l.vd.val = v) (hleft : l.allAdmitted = false)
    (hprogress : l.items.progress ≠ 0) (htrusses : s.trusses = []) : admission s = s.admitMany 0 maxTrusses := by
  have hfor : admission s = s.admitFor v d := by
    unfold admission
    rw [hvds]
    rfl
  have hunparking : s.unparking (fun t => t.ofVd v) = false := by
    unfold State.unparking
    rw [htrusses]
    rfl
  have hrestoring : s.restoring v = false := by
    unfold State.restoring
    rw [htrusses]
    rfl
  have hout : s.startedOut 0 = false := by
    unfold State.startedOut
    rw [htrusses]
    rfl
  have hclear : s.queueClear 0 l = true := rfl
  have hlaunch : s.admitLaunch 0 d l = (s.admitMany 0 maxTrusses, false) := by
    unfold State.admitLaunch
    rw [hclear, hout, Bool.not_true, if_neg Bool.false_ne_true, if_neg hprogress, Bool.and_false, if_neg Bool.false_ne_true]
  rw [hfor]
  unfold State.admitFor
  rw [hserved, hreplay, hunparking, hrestoring]
  simp only [Bool.not_true, Bool.false_eq_true, if_false, Bool.or_self, hlaunches, List.length_singleton, List.range_one, State.admitDevice,
    List.getElem?_cons_zero, hvd, bne_self_eq_false, hleft, hlaunch, Bool.false_and]

/-- Refutes O37: a launch of one truss in spans of none has a span that starts, and an admission step starts no truss of it. -/
theorem not_launchSteps : ¬ Obligations.LaunchSteps := by
  unfold Obligations.LaunchSteps
  rintro ⟨-, hadmission, -⟩
  have hruns := spanlessState_runs
  rw [Bool.and_eq_true, Bool.and_eq_true, Bool.not_eq_true', Option.isSome_iff_exists] at hruns
  obtain ⟨⟨hserved, hreplay⟩, s', hs'⟩ := hruns
  obtain ⟨t, n, hrun, -, hsome, -⟩ := hadmission spanlessState 0 placedDevice spanlessLaunch rfl hserved hreplay rfl rfl rfl (by decide) (by decide)
    s' hs' rfl
  have hstep := (admission_run spanlessState).symm.trans hrun
  rw [admission_single rfl hserved hreplay rfl rfl rfl (by decide) rfl, Host.Outcome.next.injEq] at hstep
  have hnone : t.trusses = [] := by
    rw [← hstep]
    exact admitMany_spanless 0 maxTrusses (l := spanlessLaunch) rfl rfl
  unfold State.truss? at hsome
  rw [hnone] at hsome
  cases hsome

end Sys2Proof.Machine
end

section
/-!
PROOFS. The issue of packets (15 R338, R342 to R350, R354).
-/
namespace Sys2Proof.Machine

/-! ### What a capture that is off leaves -/

section
variable {s : State} (h : s.capctl.getLsbD 9 = false)
include h

theorem replaying_idle (vd : Nat) : s.replaying vd = false := by
  unfold State.replaying
  rw [h]
  rfl

theorem capturing_idle (vd : Nat) : s.capturing vd = false := by
  unfold State.capturing
  rw [h]
  rfl

theorem capture_idle (vd kind w0 : Nat) (ws : List W64) : s.capture vd kind w0 ws = s := by
  unfold State.capture
  rw [capturing_idle h]
  rfl

theorem captureDigest_idle (vd kind w0 : Nat) (data : List Byte) : s.captureDigest vd kind w0 data = s := by
  unfold State.captureDigest
  dsimp only
  rw [capture_idle h, capture_idle h]

theorem digestPacket_idle (b : Qcb) (blk : Nat) (p : List Byte) : s.digestPacket b blk p = (s, false) := by
  have hcompare : s.compareDigest b.vd 1 blk (pkSeq p) p = (s, false) := by
    unfold State.compareDigest
    rw [replaying_idle h]
    rfl
  unfold State.digestPacket
  rw [hcompare]
  dsimp only
  rw [captureDigest_idle h]

theorem digested_idle (b : Qcb) (blk : Nat) (p : List Byte) (issue_ : State → State) : s.digested b blk p issue_ = issue_ s := by
  unfold State.digested
  rw [digestPacket_idle h]

end

/-! ### A packet at the head of its queue issues (R343, R344) -/

section
variable {s s1 s2 : State} {blk : Nat} {b c : Qcb} {p : List Byte} {st : Inflight}

/-- The header's second read leaves the queue and the capture as they are. -/
theorem HeadReady.queue1 (h : HeadReady s blk b p s1) : s1.noReach = s.noReach := by
  have hread := queueRead_noReach s b (b.unitAt b.head) 16
  rw [h.read] at hread
  exact hread

theorem HeadReady.parts (h : HeadReady s blk b p s1) : b.st = .running ∧ b.slot.isSome = true := by
  have hruns := h.runs
  unfold State.threadRuns at hruns
  simp only [Bool.and_eq_true, beq_iff_eq] at hruns
  exact ⟨hruns.1.1.1, hruns.1.1.2⟩

theorem HeadReady.found (h : HeadReady s blk b p s1) : s1.qcb? blk = some b := qcb?_of_noReach h.queue1 h.queue h.parts.2

theorem HeadReady.idle (h : HeadReady s blk b p s1) : s1.capctl.getLsbD 9 = false := by
  rw [capctl_of_noStore (noStore_of_noReach h.queue1)]
  exact h.plain

theorem issuePacket_ok (h : HeadReady s blk b p s1) {mine : List Byte → Bool} {f : State → Qcb → List Byte → Issued} (hmine : mine p = true)
    (hf : f s1 b p = .ok s2 st) : s.issuePacket blk mine f = s2.modQcb blk (Qcb.issued · p st) := by
  obtain ⟨rest, hlook⟩ : ∃ rest, b.look = p :: rest := by
    have hhead := h.head
    cases hl : b.look with
    | nil => rw [hl] at hhead; cases hhead
    | cons q rest => rw [hl] at hhead; cases hhead; exact ⟨rest, rfl⟩
  have hring : b.ringFailed = none := by
    unfold Qcb.ringFailed
    rw [h.unfailed]
  have hpacket : b.packetFailed = false := by
    unfold Qcb.packetFailed
    rw [h.unfailed]
  have hact : s1.digested b blk p (fun s => match f s b p with
      | .ok s st => s.modQcb blk fun b => b.issued p st
      | .halt s e => (s.modQcb blk fun b => b.issued p .done).haltQueue blk e (pkSeq p)
      | .wait s ph => s.modQcb blk fun b => { b with wait := ph, ringAt := none }) = s2.modQcb blk (Qcb.issued · p st) := by
    rw [digested_idle h.idle, hf]
  unfold State.issuePacket
  rw [h.queue]
  dsimp only
  rw [hlook]
  dsimp only
  rw [if_neg (by rw [h.runs, hmine, h.empty]; simp), hring]
  dsimp only
  rw [h.read]
  dsimp only
  rw [if_neg (fun hne => hne rfl), h.good]
  dsimp only
  rw [if_neg (fun hne => hne h.unskipped), hpacket, if_neg Bool.false_ne_true, hf]
  exact hact

/-- A queue as it was but for what an issue does beside: its state, its poll, its skip and its lookahead. -/
structure Qcb.Along (b c : Qcb) : Prop where
  head : c.head = b.head
  eseq : c.eseq = b.eseq
  infl : c.infl = b.infl
  retire : c.retire = b.retire
  tail : c.tail = b.tail

theorem moved_issued (hinfl : b.infl = []) (h : b.Along c) : Moved b (c.issued p st) p st := by
  refine ⟨?_, ?_, ?_, h.retire, h.tail⟩
  · exact congrArg (· + _) h.head
  · exact congrArg (· + _) h.eseq
  · exact congrArg (· ++ _) (h.infl.trans hinfl)

theorem issued_found (hc : s2.qcb? blk = some c) (hslot : c.slot.isSome = true) :
    (s2.modQcb blk (Qcb.issued · p st)).qcb? blk = some (c.issued p st) :=
  qcb?_modQcb (f := (Qcb.issued · p st)) hc (fun hnone => by rw [hnone] at hslot; cases hslot) ⟨rfl, rfl, rfl, rfl, rfl⟩

theorem issued_mem (hc : s2.qcb? blk = some c) (hslot : c.slot.isSome = true) : (s2.modQcb blk (Qcb.issued · p st)).mem = s2.mem :=
  modQcb_mem_mapped (f := (Qcb.issued · p st)) hc hslot

/-! ### NOP, FENCE and LAUNCH -/

theorem issueNop_eq (h : HeadReady s blk b p s1) (hty : pkType p = 0) : issueNop s blk = s1.modQcb blk (Qcb.issued · p .done) :=
  issuePacket_ok h (by rw [hty]; rfl) rfl

theorem issueFence_eq (h : HeadReady s blk b p s1) (hty : pkType p = 6) : issueFence s blk = s1.modQcb blk (Qcb.issued · p .done) :=
  issuePacket_ok h (by rw [hty]; rfl) rfl

/-- What the distributor takes in for a LAUNCH packet (R30, R470). -/
def launchOf (blk : Nat) (b : Qcb) (p : List Byte) : Launch :=
  { vd := b.vd, blk := blk, seq := pkSeq p, items := launchItems p, admitted := if (launchItems p).ok then 0 else (launchItems p).total,
    status := if (launchItems p).ok then 0 else 2, complete := false, wait := .untranslated }

def State.withLaunch (s : State) (l : Launch) : State := { s with launches := s.launches ++ [l] }

theorem issueLaunch_eq (h : HeadReady s blk b p s1) (hty : pkType p = 1) :
    issueLaunch s blk = (s1.withLaunch (launchOf blk b p)).modQcb blk (Qcb.issued · p (.launch s1.launches.length)) :=
  issuePacket_ok h (by rw [hty]; rfl) rfl

theorem launches_modQcb (s : State) (blk : Nat) (f : Qcb → Qcb) : (s.modQcb blk f).launches = s.launches := by
  unfold State.modQcb
  split <;> rfl

theorem proms_modQcb (s : State) (blk : Nat) (f : Qcb → Qcb) : (s.modQcb blk f).proms = s.proms := by
  unfold State.modQcb
  split <;> rfl

theorem hostMem_modQcb (s : State) (blk : Nat) (f : Qcb → Qcb) : (s.modQcb blk f).hostMem = s.hostMem := by
  unfold State.modQcb
  split <;> rfl

theorem launches_of_noReach {s t : State} (h : s.noReach = t.noReach) : s.launches = t.launches := by
  have hlaunches := congrArg State.launches h
  exact hlaunches

theorem proms_of_noReach {s t : State} (h : s.noReach = t.noReach) : s.proms = t.proms := by
  have hproms := congrArg State.proms h
  exact hproms

theorem nextId_of_noReach {s t : State} (h : s.noReach = t.noReach) : s.nextId = t.nextId := by
  have hnext := congrArg State.nextId h
  exact hnext

theorem ioClk_of_noReach {s t : State} (h : s.noReach = t.noReach) : s.ioClk = t.ioClk := by
  have hclk := congrArg State.ioClk h
  exact hclk

/-! ### WAIT and SIGNAL (R347 to R349) -/

/-- The queue waits. -/
def Qcb.waiting (b : Qcb) : Qcb := { b with st := .blocked }
def Qcb.waitingPoll (b : Qcb) (io : Nat) : Qcb := { b with st := .blocked, polled := io }

/-- The promise operation of a queue's packet. -/
def promOf (s : State) (blk : Nat) (b : Qcb) (op : POp) (va : Nat) (rel : Bool) (acq : Option Scope) : PromOp :=
  { id := s.nextId, who := .queue blk, vd := b.vd, op := op, va := va, phase := .untranslated, phase2 := .performed, waiting := none,
    rel := rel, relTrs := false, acqScope := acq, sent := s.clk }

theorem queueProm_proms (s : State) (blk : Nat) (b : Qcb) (op : POp) (va : Nat) (rel : Bool) (acq : Option Scope) :
    (s.queueProm blk b op va rel acq).1.proms = s.proms ++ [promOf s blk b op va rel acq] := rfl

theorem qcb?_queueProm (s : State) (blk : Nat) (b : Qcb) (op : POp) (va : Nat) (rel : Bool) (acq : Option Scope) (n : Nat) :
    (s.queueProm blk b op va rel acq).1.qcb? n = s.qcb? n := rfl

theorem issueWaitPromise_eq (h : HeadReady s blk b p s1) (hty : pkType p = 2) (hflag : bit (pkFlags p) 0 = false) (hva : pkWord p 16 < 2 ^ 57) :
    issueWaitPromise s blk = (((s1.queueProm blk b .pwait (pkWord p 16) false (some .sys)).1).modQcb blk Qcb.waiting).modQcb blk
      (Qcb.issued · p (.waitProm s1.nextId)) :=
  issuePacket_ok h (by rw [hty, hflag]; rfl) (if_neg (Nat.not_le.mpr hva))

theorem issueWaitMemory_eq (h : HeadReady s blk b p s1) (hty : pkType p = 2) (hflag : bit (pkFlags p) 0 = true) :
    issueWaitMemory s blk = (s1.modQcb blk (Qcb.waitingPoll · s1.ioClk)).modQcb blk (Qcb.issued · p (.waitMem (pkWord p 16)
      (BitVec.ofNat 64 (pkWord p 24)) (BitVec.ofNat 64 (pkWord p 32)) (bits (pkFlags p) 3 1) (bit (pkFlags p) 4))) :=
  issuePacket_ok h (by rw [hty, hflag]; rfl) rfl

theorem issueSignalFill_eq (h : HeadReady s blk b p s1) (hty : pkType p = 3) (hkind : signalKind p = 0) (hva : pkWord p 16 < 2 ^ 57) :
    issueSignalFill s blk = ((s1.queueProm blk b (.pfill (BitVec.ofNat 64 (pkWord p 24))) (pkWord p 16) true none).1).modQcb blk
      (Qcb.issued · p (.promise s1.nextId)) :=
  issuePacket_ok h (by rw [hty, hkind]; rfl) (if_neg (Nat.not_le.mpr hva))

theorem issueSignalStore_eq (h : HeadReady s blk b p s1) (hty : pkType p = 3) (hkind : signalKind p = 1)
    (hwrite : s1.queueWrite b (pkWord p 16) (natBytes (if bit (pkFlags p) 2 then 8 else 4) (pkWord p 24)) = (s2, .ok ())) :
    issueSignalStore s blk = s2.modQcb blk (Qcb.issued · p .done) :=
  issuePacket_ok h (by rw [hty, hkind]; rfl) (by rw [hwrite])

theorem issueSignalInterrupt_eq (h : HeadReady s blk b p s1) (hty : pkType p = 3) (hkind : signalKind p = 2) :
    issueSignalInterrupt s blk = (s1.interrupt (b.vd * 64 + pkWord p 16)).modQcb blk (Qcb.issued · p .done) :=
  issuePacket_ok h (by rw [hty, hkind]; rfl) rfl

theorem qcb?_stored (h : HeadReady s blk b p s1) {va : Nat} {data : List Byte} (hwrite : s1.queueWrite b va data = (s2, .ok ())) :
    s2.qcb? blk = some b := by
  have hkept := queueWrite_noStore s1 b va data
  rw [hwrite] at hkept
  exact qcb?_mapped_of_qcbs (qcbs_of_noStore hkept) h.found h.parts.2

theorem qcb?_interrupt (s : State) (e blk : Nat) : (s.interrupt e).qcb? blk = s.qcb? blk := by
  unfold State.interrupt
  dsimp only
  split
  · rfl
  · split <;> rfl

/-! ### COND and COPY (R344, R350) -/

/-- A COND passes over `n` packets. -/
def Qcb.skipping (b : Qcb) (n : Nat) : Qcb := { b with skip := n, look := b.look.take 1 }

/-- Packets that a COND passes over when its word reads `x`. -/
def condSkip (p : List Byte) (x : W64) : Nat := if (x != 0) = bit (pkFlags p) 0 then bytesNat ((p.drop 24).take 2) else 0

theorem issueCond_eq (h : HeadReady s blk b p s1) {x : List Byte} (hty : pkType p = 4)
    (hread : s1.queueAcquire b (pkWord p 16) 4 = (s2, .ok x)) : ∃ (u : State) (c : Qcb), u.qcb? blk = some c ∧ b.Along c ∧ c.slot = b.slot ∧
      c.skip = condSkip p (BitVec.ofNat 64 (bytesNat x)) ∧ issueCond s blk = u.modQcb blk (Qcb.issued · p .done) := by
  have hkept := queueAcquire_noReach s1 b (pkWord p 16) 4
  rw [hread] at hkept
  have hfound := qcb?_of_noReach hkept h.found h.parts.2
  have hidle : s2.capctl.getLsbD 9 = false := by
    rw [capctl_of_noStore (noStore_of_noReach hkept)]
    exact h.idle
  have htaken := takenValue_idle b.vd (BitVec.ofNat 64 (bytesNat x)) hidle
  have hmine : decide (pkType p = 4) = true := decide_eq_true hty
  by_cases hskip : ((BitVec.ofNat 64 (bytesNat x) != 0) == bit (pkFlags p) 0 && decide (bytesNat ((p.drop 24).take 2) ≠ 0)) = true
  · refine ⟨_, b.skipping (bytesNat ((p.drop 24).take 2)), qcb?_modQcb (f := (Qcb.skipping · (bytesNat ((p.drop 24).take 2)))) hfound
      (fun hnone => by have := h.parts.2; rw [hnone] at this; cases this) ⟨rfl, rfl, rfl, rfl, rfl⟩, ⟨rfl, rfl, rfl, rfl, rfl⟩, rfl, ?_,
      issuePacket_ok h hmine ?_⟩
    · rw [Bool.and_eq_true, beq_iff_eq] at hskip
      exact (if_pos hskip.1).symm
    · rw [hread]
      dsimp only
      rw [htaken]
      dsimp only
      rw [if_pos hskip]
      rfl
  · refine ⟨s2, b, hfound, ⟨rfl, rfl, rfl, rfl, rfl⟩, rfl, ?_, issuePacket_ok h hmine ?_⟩
    · rw [h.unskipped]
      unfold condSkip
      split
      · next heq =>
        rw [beq_iff_eq.mpr heq, Bool.true_and, decide_eq_true_eq, not_not] at hskip
        exact hskip.symm
      · rfl
    · rw [hread]
      dsimp only
      rw [htaken]
      dsimp only
      rw [if_neg hskip]

theorem issueCopy_eq (h : HeadReady s blk b p s1) (hty : pkType p = 5) :
    issueCopy s blk = s1.modQcb blk (Qcb.issued · p (.copy (pkWord p 16) (pkWord p 24) (pkWord p 32) 0)) := by
  refine issuePacket_ok h (decide_eq_true hty) ?_
  dsimp only
  rw [capturing_idle h.idle, if_neg Bool.false_ne_true, replaying_idle h.idle, if_neg Bool.false_ne_true]

/-- With no COPY under way the next one issues. -/
theorem stepCopy_issues (h : HeadReady s blk b p s1) (hty : pkType p = 5) (hfall : s.fallback b = false) : stepCopy s blk = issueCopy s blk := by
  have hcopying : b.copying = [] := by
    unfold Qcb.copying
    rw [h.empty]
    rfl
  have hmay : s.copyMayIssue b = true := by
    have hhead := h.head
    unfold State.copyMayIssue
    rw [hfall]
    cases hl : b.look with
    | nil => rw [hl] at hhead; cases hhead
    | cons q rest =>
      rw [hl] at hhead
      cases hhead
      exact beq_iff_eq.mpr hty
  unfold stepCopy
  rw [h.queue]
  dsimp only
  rw [hcopying, hmay]
  rfl

end

end Sys2Proof.Machine
end

section
/-!
PROOFS. A COPY's pieces, the fallback scheduler's visits, and O44 (15 R344, R354).
-/
namespace Sys2Proof.Machine

/-! ### A COPY moves its next piece (R344) -/

theorem moveBytes_noStore (s : State) (b : Qcb) (src dst n : Nat) : (s.moveBytes b src dst n).1.noStore = s.noStore := by
  unfold State.moveBytes
  split
  · rfl
  · have hsrc := noStore_of_noReach (reach_noReach s b.agent b.vd src ⟨false, false, true⟩)
    dsimp only
    generalize s.reach b.agent b.vd src ⟨false, false, true⟩ = r at hsrc ⊢
    have hdst := (noStore_of_noReach (reach_noReach r.1 b.agent b.vd dst ⟨true, false, true⟩)).trans hsrc
    generalize r.1.reach b.agent b.vd dst ⟨true, false, true⟩ = q at hdst ⊢
    split
    · exact hsrc
    · split
      · exact hdst
      · split
        · exact hdst
        · refine (putBank_noStore ..).trans ?_
          split
          · exact hdst
          · exact (noStore_of_noReach (touchRange_noReach ..)).trans hdst

/-- The COPY `p` of a queue has come to `st`. -/
def Qcb.copyAt (b : Qcb) (p : Packet) (st : Inflight) (ph : Phase) : Qcb :=
  { b with infl := b.infl.map fun q => if q = p then { q with st := st, wait := ph } else q }

section
variable {s s1 : State} {blk : Nat} {b : Qcb} {q : Packet} {a c n i : Nat}

theorem stepCopy_moves (hb : s.qcb? blk = some b) (hmay : s.copyMayIssue b = false) (hinfl : b.infl = [q]) (hq : q.st = .copy a c n i)
    (hwait : q.wait = .untranslated) : stepCopy s blk = s.copyStep blk b q a c n i := by
  have hcopying : b.copying = [(q, a, c, n, i)] := by
    unfold Qcb.copying
    rw [hinfl, List.filterMap_cons, hq, hwait]
    rfl
  unfold stepCopy
  rw [hb]
  dsimp only
  rw [hcopying, hmay]
  rfl

theorem copyPiece_eq (hwait : q.wait = .untranslated)
    (hmove : s.moveBytes b (a + i) (c + i) (copyPiece (a + i) (c + i) (n - i)) = (s1, .ok ())) :
    s.copyStep blk b q a c n i = s1.modQcb blk (Qcb.copyAt · q (if n ≤ i + copyPiece (a + i) (c + i) (n - i) then .done
      else .copy a c n (i + copyPiece (a + i) (c + i) (n - i))) .untranslated) := by
  unfold State.copyStep
  rw [hwait]
  dsimp only
  rw [hmove]
  rfl

theorem copy_moves (hb : s.qcb? blk = some b) (hmay : s.copyMayIssue b = false) (hslot : b.slot.isSome = true) (hinfl : b.infl = [q])
    (hq : q.st = .copy a c n i) (hwait : q.wait = .untranslated)
    (hmove : s.moveBytes b (a + i) (c + i) (copyPiece (a + i) (c + i) (n - i)) = (s1, .ok ())) :
    ∃ s' b', exec (.packetCopy blk) s = .next s' ∧ s'.qcb? blk = some b' ∧ s'.mem = s1.mem ∧
      b'.infl = [{ q with st := if n ≤ i + copyPiece (a + i) (c + i) (n - i) then .done else .copy a c n (i + copyPiece (a + i) (c + i) (n - i)) }] := by
  have hkept := moveBytes_noStore s b (a + i) (c + i) (copyPiece (a + i) (c + i) (n - i))
  rw [hmove] at hkept
  have hb1 : s1.qcb? blk = some b := qcb?_mapped_of_qcbs (qcbs_of_noStore hkept) hb hslot
  have hrun := (stepCopy_moves hb hmay hinfl hq hwait).trans (copyPiece_eq (blk := blk) hwait hmove)
  generalize (if n ≤ i + copyPiece (a + i) (c + i) (n - i) then Inflight.done else .copy a c n (i + copyPiece (a + i) (c + i) (n - i))) = st at hrun ⊢
  have hfound := qcb?_modQcb (f := (Qcb.copyAt · q st .untranslated)) hb1 (fun hnone => by rw [hnone] at hslot; cases hslot) ⟨rfl, rfl, rfl, rfl, rfl⟩
  refine ⟨_, _, congrArg Host.Outcome.next hrun, hfound, modQcb_mem_mapped (f := (Qcb.copyAt · q st .untranslated)) hb1 hslot, ?_⟩
  unfold Qcb.copyAt
  rw [hinfl, List.map_singleton, if_pos rfl, ← hwait]

end

/-! ### The firmware's issues -/

section
variable {s s1 s2 : State} {blk : Nat} {b : Qcb} {p : List Byte}

theorem firmware_runs (h : HeadReady s blk b p s1) (hfall : s.fallback b = false) (f : State → Nat → State) : s.firmware blk f = f s blk := by
  unfold State.firmware
  rw [h.queue]
  exact if_neg (by rw [hfall]; exact Bool.false_ne_true)

/-- A packet that has issued, with what else its issue did. -/
theorem issued_one (h : HeadReady s blk b p s1) {i : Instr} {st : Inflight} {u : State} {c : Qcb} {more : State → Qcb → Prop}
    (hrun : exec i s = .next (u.modQcb blk (Qcb.issued · p st))) (hc : u.qcb? blk = some c) (hslot : c.slot = b.slot) (halong : b.Along c)
    (hmore : more (u.modQcb blk (Qcb.issued · p st)) (c.issued p st)) :
    ∃ s' b', exec i s = .next s' ∧ s'.qcb? blk = some b' ∧ Moved b b' p st ∧ more s' b' :=
  ⟨_, _, hrun, issued_found hc (by rw [hslot]; exact h.parts.2), moved_issued h.empty halong, hmore⟩

theorem Qcb.Along.refl (b : Qcb) : b.Along b := ⟨rfl, rfl, rfl, rfl, rfl⟩

theorem HeadReady.mem (h : HeadReady s blk b p s1) (st : Inflight) : (s1.modQcb blk (Qcb.issued · p st)).mem = s1.mem := issued_mem h.found h.parts.2

theorem qcb?_waitPromise (h : HeadReady s blk b p s1) : ((s1.queueProm blk b .pwait (pkWord p 16) false (some .sys)).1.modQcb blk Qcb.waiting).qcb? blk =
    some b.waiting :=
  qcb?_modQcb (f := Qcb.waiting) ((qcb?_queueProm ..).trans h.found) (fun hnone => by have := h.parts.2; rw [hnone] at this; cases this)
    ⟨rfl, rfl, rfl, rfl, rfl⟩

theorem qcb?_waitMemory (h : HeadReady s blk b p s1) (io : Nat) : (s1.modQcb blk (Qcb.waitingPoll · io)).qcb? blk = some (b.waitingPoll io) :=
  qcb?_modQcb (f := (Qcb.waitingPoll · io)) h.found (fun hnone => by have := h.parts.2; rw [hnone] at this; cases this) ⟨rfl, rfl, rfl, rfl, rfl⟩

theorem packetLaunch_ok (h : HeadReady s blk b p s1) (hfall : s.fallback b = false) (hty : pkType p = 1) :
    ∃ s' b', exec (.packetLaunch blk) s = .next s' ∧ s'.qcb? blk = some b' ∧ Moved b b' p (.launch s.launches.length) ∧ b'.st = .running ∧
      ∃ l, s'.launches = s.launches ++ [l] ∧ l.items = launchItems p ∧ l.vd = b.vd ∧ l.blk = blk ∧ l.seq = pkSeq p ∧ l.complete = false ∧
        l.status = if (launchItems p).ok = true then 0 else 2 := by
  have hlaunches := launches_of_noReach h.queue1
  have hrun := (firmware_runs h hfall issueLaunch).trans (issueLaunch_eq h hty)
  rw [hlaunches] at hrun
  refine issued_one h (congrArg Host.Outcome.next hrun) h.found rfl (.refl b) ⟨h.parts.1, launchOf blk b p, ?_, rfl, rfl, rfl, rfl, rfl, rfl⟩
  exact (launches_modQcb ..).trans (congrArg (· ++ _) hlaunches)

theorem packetWaitPromise_ok (h : HeadReady s blk b p s1) (hfall : s.fallback b = false) (hty : pkType p = 2) (hflag : bit (pkFlags p) 0 = false)
    (hva : pkWord p 16 < 2 ^ 57) :
    ∃ s' b', exec (.packetWaitPromise blk) s = .next s' ∧ s'.qcb? blk = some b' ∧ Moved b b' p (.waitProm s.nextId) ∧ b'.st = .blocked ∧
      ∃ q, s'.proms = s.proms ++ [q] ∧ q.id = s.nextId ∧ q.op = .pwait ∧ q.va = pkWord p 16 ∧ q.who = .queue blk ∧ q.vd = b.vd := by
  have hnext := nextId_of_noReach h.queue1
  have hrun := (firmware_runs h hfall issueWaitPromise).trans (issueWaitPromise_eq h hty hflag hva)
  rw [hnext] at hrun
  refine issued_one h (congrArg Host.Outcome.next hrun) (qcb?_waitPromise h) rfl ⟨rfl, rfl, rfl, rfl, rfl⟩
    ⟨rfl, promOf s1 blk b .pwait (pkWord p 16) false (some .sys), ?_, hnext, rfl, rfl, rfl, rfl⟩
  rw [proms_modQcb, proms_modQcb, queueProm_proms, proms_of_noReach h.queue1]

theorem packetSignalFill_ok (h : HeadReady s blk b p s1) (hfall : s.fallback b = false) (hty : pkType p = 3) (hkind : bits (pkFlags p) 1 0 = 0)
    (hva : pkWord p 16 < 2 ^ 57) :
    ∃ s' b', exec (.packetSignalFill blk) s = .next s' ∧ s'.qcb? blk = some b' ∧ Moved b b' p (.promise s.nextId) ∧ b'.st = .running ∧
      ∃ q, s'.proms = s.proms ++ [q] ∧ q.op = .pfill (BitVec.ofNat 64 (pkWord p 24)) ∧ q.va = pkWord p 16 ∧ q.who = .queue blk := by
  have hrun := (firmware_runs h hfall issueSignalFill).trans (issueSignalFill_eq h hty hkind hva)
  rw [nextId_of_noReach h.queue1] at hrun
  refine issued_one h (congrArg Host.Outcome.next hrun) ((qcb?_queueProm ..).trans h.found) rfl (.refl b)
    ⟨h.parts.1, promOf s1 blk b (.pfill (BitVec.ofNat 64 (pkWord p 24))) (pkWord p 16) true none, ?_, rfl, rfl, rfl⟩
  rw [proms_modQcb, queueProm_proms, proms_of_noReach h.queue1]

theorem packetCond_ok (h : HeadReady s blk b p s1) (hfall : s.fallback b = false) {x : List Byte} (hty : pkType p = 4)
    (hread : s1.queueAcquire b (pkWord p 16) 4 = (s2, .ok x)) :
    ∃ s' b', exec (.packetCond blk) s = .next s' ∧ s'.qcb? blk = some b' ∧ Moved b b' p .done ∧
      b'.skip = (if (BitVec.ofNat 64 (bytesNat x) != 0) = bit (pkFlags p) 0 then bytesNat ((p.drop 24).take 2) else 0) := by
  obtain ⟨u, c, hc, halong, hslot, hskip, heq⟩ := issueCond_eq h hty hread
  exact issued_one h (more := fun _ b' => b'.skip = condSkip p (BitVec.ofNat 64 (bytesNat x)))
    (congrArg Host.Outcome.next ((firmware_runs h hfall issueCond).trans heq)) hc hslot halong hskip

end

/-! ### The fallback scheduler's visits (R354) -/

/-- The fallback scheduler goes on to the next slot. -/
def State.nextSlot (s : State) (qp : Fin 8) (slot : Fin 32) : State := { s with qpCursor := s.qpCursor.set qp ((slot.val + 1) % 32) }

/-- What a visit does with a packet. -/
def visitPacket (s : State) (blk : Nat) (p : List Byte) : State :=
  match pkType p with
  | 1 => issueLaunch s blk
  | 2 => if bit (pkFlags p) 0 then s else issueWaitPromise s blk
  | 3 => if signalKind p = 0 then issueSignalFill s blk else if signalKind p = 1 then issueSignalStore s blk else issueSignalInterrupt s blk
  | 4 | 5 | 6 => s
  | _ => issueNop s blk

section
variable {s s1 : State} {blk : Nat} {b : Qcb} {p : List Byte} {qp : Fin 8} {slot : Fin 32}

theorem visit_run (hon : s.qpFallback[qp] = true) (hcursor : s.qpCursor[qp] = slot.val) (h : HeadReady (s.nextSlot qp slot) blk b p s1)
    (hfind : s.qcbs.find? (fun e => (e.2.slot.map (·.val)) == some (32 * qp.val + slot.val)) = some (blk, b)) :
    exec (.fallbackVisit qp slot) s = .next (visitPacket (s.nextSlot qp slot) blk p) := by
  obtain ⟨rest, hlook⟩ : ∃ rest, b.look = p :: rest := by
    have hhead := h.head
    cases hl : b.look with
    | nil => rw [hl] at hhead; cases hhead
    | cons q rest => rw [hl] at hhead; cases hhead; exact ⟨rest, rfl⟩
  have hgo : ¬ (!vat s.qpFallback qp false || vat s.qpCursor qp 0 ≠ slot.val) = true := by
    rw [vat_fin, vat_fin, hon, hcursor]
    simp
  have hnext : ({ s with qpCursor := vput s.qpCursor qp ((slot.val + 1) % 32) } : State) = s.nextSlot qp slot := by
    rw [vput_fin]
    rfl
  refine congrArg Host.Outcome.next ?_
  unfold visitStep
  rw [if_neg hgo]
  dsimp only
  rw [hfind]
  dsimp only
  rw [hlook]
  dsimp only
  rw [hnext]
  rfl

theorem visitPacket_signal (hty : pkType p = 3) : visitPacket s blk p = if signalKind p = 0 then issueSignalFill s blk
    else if signalKind p = 1 then issueSignalStore s blk else issueSignalInterrupt s blk := by
  unfold visitPacket
  rw [hty]
  rfl

theorem visitPacket_held (hty : pkType p = 4 ∨ pkType p = 5 ∨ pkType p = 6 ∨ pkType p = 2 ∧ bit (pkFlags p) 0 = true) : visitPacket s blk p = s := by
  unfold visitPacket
  obtain h4 | h5 | h6 | ⟨h2, hflag⟩ := hty
  · rw [h4]
    rfl
  · rw [h5]
    rfl
  · rw [h6]
    rfl
  · rw [h2]
    exact if_pos hflag

/-- A visit that issues the packet of its slot. -/
theorem visit_one (h : HeadReady s blk b p s1) {t : State} {i : Instr} {st : Inflight} {u : State} {c : Qcb} (hrun : exec i t = .next (visitPacket s blk p))
    (heq : visitPacket s blk p = u.modQcb blk (Qcb.issued · p st)) (hc : u.qcb? blk = some c) (hslot : c.slot = b.slot) (halong : b.Along c) :
    ∃ s' b', exec i t = .next s' ∧ s'.qcb? blk = some b' ∧ Moved b b' p st :=
  ⟨_, _, hrun.trans (congrArg Host.Outcome.next heq), issued_found hc (by rw [hslot]; exact h.parts.2), moved_issued h.empty halong⟩

theorem visit_launch (h : HeadReady s blk b p s1) (hty : pkType p = 1) :
    visitPacket s blk p = (s1.withLaunch (launchOf blk b p)).modQcb blk (Qcb.issued · p (.launch s.launches.length)) := by
  rw [← launches_of_noReach h.queue1, ← issueLaunch_eq h hty]
  unfold visitPacket
  rw [hty]
  rfl

theorem visit_waitPromise (h : HeadReady s blk b p s1) (hty : pkType p = 2) (hflag : bit (pkFlags p) 0 = false) (hva : pkWord p 16 < 2 ^ 57) :
    visitPacket s blk p = (((s1.queueProm blk b .pwait (pkWord p 16) false (some .sys)).1).modQcb blk Qcb.waiting).modQcb blk
      (Qcb.issued · p (.waitProm s.nextId)) := by
  rw [← nextId_of_noReach h.queue1, ← issueWaitPromise_eq h hty hflag hva]
  unfold visitPacket
  rw [hty]
  exact if_neg (by rw [hflag]; exact Bool.false_ne_true)

theorem visit_fill (h : HeadReady s blk b p s1) (hty : pkType p = 3) (hkind : signalKind p = 0) (hva : pkWord p 16 < 2 ^ 57) :
    visitPacket s blk p = ((s1.queueProm blk b (.pfill (BitVec.ofNat 64 (pkWord p 24))) (pkWord p 16) true none).1).modQcb blk
      (Qcb.issued · p (.promise s.nextId)) := by
  rw [← nextId_of_noReach h.queue1, ← issueSignalFill_eq h hty hkind hva]
  exact (visitPacket_signal hty).trans (if_pos hkind)

theorem visit_store (h : HeadReady s blk b p s1) {s2 : State} (hty : pkType p = 3) (hkind : signalKind p = 1)
    (hwrite : s1.queueWrite b (pkWord p 16) (natBytes (if bit (pkFlags p) 2 then 8 else 4) (pkWord p 24)) = (s2, .ok ())) :
    visitPacket s blk p = s2.modQcb blk (Qcb.issued · p .done) := by
  rw [← issueSignalStore_eq h hty hkind hwrite]
  exact (visitPacket_signal hty).trans ((if_neg (by rw [hkind]; decide)).trans (if_pos hkind))

theorem visit_interrupt (h : HeadReady s blk b p s1) (hty : pkType p = 3) (hkind : signalKind p = 2) :
    visitPacket s blk p = (s1.interrupt (b.vd * 64 + pkWord p 16)).modQcb blk (Qcb.issued · p .done) := by
  rw [← issueSignalInterrupt_eq h hty hkind]
  exact (visitPacket_signal hty).trans ((if_neg (by rw [hkind]; decide)).trans (if_neg (by rw [hkind]; decide)))

theorem visit_nop (h : HeadReady s blk b p s1) (hty : pkType p = 0) : visitPacket s blk p = s1.modQcb blk (Qcb.issued · p .done) := by
  rw [← issueNop_eq h hty]
  unfold visitPacket
  rw [hty]
  rfl

end

/-- Settles O44: the issue of a packet whose checks pass is the change of its own kind on the state that the second read of its header
leaves, and then the move of HEAD and ESEQ past it. -/
theorem packetsIssue : Obligations.PacketsIssue := by
  unfold Obligations.PacketsIssue
  refine ⟨fun s blk b p s1 h hfall => ?_, fun s blk b q a c n i s1 hb hmay hslot hinfl hq hwait hmove => copy_moves hb hmay hslot hinfl hq hwait hmove,
    fun s blk b p s1 qp slot hon hcursor (h : HeadReady (s.nextSlot qp slot) blk b p s1) hfind => ?_⟩
  · intro one
    refine ⟨?_, ?_, ?_, ?_, ?_, ?_, ?_, ?_, ?_, ?_⟩
    · exact fun hty => issued_one h (congrArg Host.Outcome.next ((firmware_runs h hfall issueNop).trans (issueNop_eq h hty))) h.found rfl (.refl b)
        ⟨h.mem _, h.parts.1⟩
    · exact fun hty => issued_one h (congrArg Host.Outcome.next ((firmware_runs h hfall issueFence).trans (issueFence_eq h hty))) h.found rfl (.refl b)
        ⟨h.mem _, h.parts.1⟩
    · exact fun hty => packetLaunch_ok h hfall hty
    · exact fun hty hflag hva => packetWaitPromise_ok h hfall hty hflag hva
    · intro hty hflag
      exact issued_one h (congrArg Host.Outcome.next ((firmware_runs h hfall issueWaitMemory).trans (issueWaitMemory_eq h hty hflag)))
        (qcb?_waitMemory h s1.ioClk) rfl ⟨rfl, rfl, rfl, rfl, rfl⟩ ⟨rfl, ioClk_of_noReach h.queue1⟩
    · exact fun hty hkind hva => packetSignalFill_ok h hfall hty hkind hva
    · intro s2 hty hkind hwrite
      have hc := qcb?_stored h hwrite
      exact issued_one h (congrArg Host.Outcome.next ((firmware_runs h hfall issueSignalStore).trans (issueSignalStore_eq h hty hkind hwrite))) hc rfl
        (.refl b) ⟨issued_mem hc h.parts.2, hostMem_modQcb ..⟩
    · exact fun hty hkind => congrArg Host.Outcome.next ((firmware_runs h hfall issueSignalInterrupt).trans (issueSignalInterrupt_eq h hty hkind))
    · exact fun s2 x hty hread => packetCond_ok h hfall hty hread
    · intro hty
      exact issued_one h (congrArg Host.Outcome.next ((stepCopy_issues h hty hfall).trans (issueCopy_eq h hty))) h.found rfl (.refl b) (h.mem _)
  · intro one
    have hrun := visit_run hon hcursor h hfind
    refine ⟨?_, ?_, ?_, ?_, ?_, ?_, ?_⟩
    · exact fun hty => visit_one h hrun (visit_nop h hty) h.found rfl (.refl b)
    · exact fun hty => visit_one h hrun (visit_launch h hty) h.found rfl (.refl b)
    · exact fun hty hflag hva => visit_one h hrun (visit_waitPromise h hty hflag hva) (qcb?_waitPromise h) rfl ⟨rfl, rfl, rfl, rfl, rfl⟩
    · exact fun hty hkind hva => visit_one h hrun (visit_fill h hty hkind hva) ((qcb?_queueProm ..).trans h.found) rfl (.refl b)
    · intro s2 hty hkind hwrite
      exact visit_one h hrun (visit_store h hty hkind hwrite) (qcb?_stored h hwrite) rfl (.refl b)
    · intro hty hkind
      exact visit_one h hrun (visit_interrupt h hty hkind) ((qcb?_interrupt ..).trans h.found) rfl (.refl b)
    · exact fun hty => hrun.trans (congrArg Host.Outcome.next (visitPacket_held hty))

end Sys2Proof.Machine
end

section
/-!
PROOFS. One step of an access at its home, when no other is in flight (09 R195; 11 R236 to R241, R250; 12 R255).
-/
namespace Sys2Proof.Machine

/-! ### What a home leaves of memory and of the accesses -/

/-- Device memory with its poison, and the accesses under way. -/
def State.atHome (s : State) : Mem × Tbl Bool × List Access := (s.mem, s.memPsn, s.accesses)

theorem atHome_of_quiet {s t : State} (h : Quiet s t) : t.atHome = s.atHome := by
  have hhome := congrArg State.atHome h.1
  exact hhome

theorem atHome_of_noLines {s t : State} (h : t.noLines = s.noLines) : t.atHome = s.atHome := by
  have hhome := congrArg State.atHome h
  exact hhome

theorem atHome_l1Drop (s : State) (core a : Nat) : (s.l1Drop core a).atHome = s.atHome := rfl

theorem atHome_l1Patch (s : State) (core a : Nat) (p : Part) : (s.l1Patch core a p).atHome = s.atHome := by
  unfold State.l1Patch
  split <;> rfl

theorem atHome_noteRelease (s : State) (a : Access) (space pa size : Nat) : (s.noteRelease a space pa size).atHome = s.atHome := by
  unfold State.noteRelease State.showRelease
  dsimp only
  split <;> rfl

theorem atHome_noteTurn (s : State) (home core : Nat) : (s.noteTurn home core).atHome = s.atHome := rfl

/-- The accesses under way, replaced. -/
def State.withAccesses (s : State) (as : List Access) : State := { s with accesses := as }

theorem settle_pending {s : State} {a : Access} (h : a.pending = true) :
    s.settle a = s.withAccesses (s.accesses.map fun b => if b.id = a.id then a else b) := if_pos h

/-- An acquire that takes effect leaves memory and the accesses. -/
theorem atHome_acquired (s : State) (tn : Nat) (acquires : Bool) :
    (if acquires then match s.truss? tn with | some t => s.invalidateL1 t.core | none => s else s).atHome = s.atHome := by
  split
  · split <;> rfl
  · rfl

theorem settle_done {s : State} {a : Access} (h : a.pending = false) :
    (s.settle a).atHome = (s.mem, s.memPsn, s.accesses.filter fun b => b.id != a.id) := by
  unfold State.settle
  rw [if_neg (by rw [h]; exact Bool.false_ne_true)]
  exact atHome_acquired (s.withAccesses (s.accesses.filter fun b => b.id != a.id)) _ _

/-! ### An access that is alone -/

/-- One access is in flight, and nothing else that orders: its part `i` is translated, its parts left the core together (R240, R241). -/
structure AtHome (s : State) (a : Access) (i : Nat) (p : Part) (t : Truss) (k : Course) (pa : Nat) (gen : BitVec 16) : Prop where
  only : s.accesses = [a]
  part : a.parts[i]? = some p
  truss : s.truss? a.who.truss = some t
  course : s.course? a.who = some k
  resident : k.cstate = .resident
  ready : p.phase = .ready pa gen false
  memory : a.scratch = false
  unread : p.got = []
  proms : s.proms = []
  early : s.early = []
  together : ∀ q ∈ a.parts, q.sent = p.sent ∧ q.early = false

section
variable {s : State} {a : Access} {i : Nat} {p : Part} {t : Truss} {k : Course} {pa : Nat} {gen : BitVec 16}

theorem earlier_single {s : State} {a : Access} (h : s.accesses = [a]) : s.earlier a = [] := by
  unfold State.earlier
  rw [h, List.filter_cons_of_neg (by simp), List.filter_nil]

theorem heldBytes_single {s : State} {a : Access} (h : s.accesses = [a]) (p : Part) : s.heldBytes a p = p := by
  unfold State.heldBytes
  rw [earlier_single h]
  rfl

theorem AtHome.mem (h : AtHome s a i p t k pa gen) : p ∈ a.parts := List.mem_of_getElem? h.part

theorem AtHome.run (h : AtHome s a i p t k pa gen) (srv : Serve) : exec (.homeSliceAccess a.id i srv) s = .next (s.homeStep a.id i srv) := by
  refine congrArg Host.Outcome.next (if_pos ?_)
  rw [h.only, List.any_cons, beq_self_eq_true, Bool.true_or]

theorem AtHome.here (h : AtHome s a i p t k pa gen) : k.away = false := by
  unfold Course.away
  rw [h.resident]
  rfl

theorem AtHome.fenced (h : AtHome s a i p t k pa gen) : s.fenced a = false := by
  have hreleases : s.releasesBefore a.who a.id = false := by
    unfold State.releasesBefore
    rw [h.only, h.early]
    simp
  unfold State.fenced State.acquiresBefore State.promisesBefore
  dsimp only
  rw [earlier_single h.only, h.proms, hreleases]
  simp

theorem AtHome.shown (h : AtHome s a i p t k pa gen) : s.shownAwaited t.core a p = false := by
  unfold State.shownAwaited
  rw [h.only]
  simp

theorem AtHome.awaited (h : AtHome s a i p t k pa gen) (space size : Nat) : s.earlyAwaited a space pa size = false := by
  unfold State.earlyAwaited
  rw [h.early]
  simp

theorem AtHome.line (h : AtHome s a i p t k pa gen) : s.lineAwaited t.core a i pa = false := by
  unfold State.lineAwaited
  rw [h.only, List.any_cons, List.any_nil, Bool.or_false, Bool.and_eq_false_iff]
  refine Or.inr (List.any_eq_false.mpr fun x hx => ?_)
  rw [(h.together x.1 (List.fst_mem_of_mem_zipIdx hx)).2, Bool.false_and, Bool.false_and]
  exact Bool.false_ne_true

theorem AtHome.unblocked (h : AtHome s a i p t k pa gen) (hbefore : (a.parts.take i).any (fun q => !q.phase.settled && p.meets q) = false)
    (hlane : a.laneAwaited i p gen = false) : s.partBlocked a t i p pa gen false false = false := by
  have hbytes : s.bytesAwaited a i p = false := by
    unfold State.bytesAwaited
    rw [earlier_single h.only, hbefore]
    rfl
  unfold State.partBlocked
  rw [h.memory, if_neg Bool.false_ne_true, h.unread, if_neg (by simp), h.fenced, hbytes, h.awaited, h.shown, hlane, h.line]
  simp

/-- Requests that wait at a slice are those of the one access. -/
theorem AtHome.waiting (h : AtHome s a i p t k pa gen) (home : Nat) : ∀ r ∈ s.waitingAt home, r.core = t.core ∧ r.sent = p.sent := by
  intro r hr
  unfold State.waitingAt at hr
  dsimp only at hr
  rw [h.only, h.proms, List.map_nil, List.append_nil, List.map_singleton, List.flatten_singleton, List.mem_filter, h.truss, h.course] at hr
  obtain ⟨hr, -⟩ := hr
  dsimp only at hr
  split at hr
  · cases hr
  · obtain ⟨x, hx, hsome⟩ := List.mem_filterMap.mp hr
    split at hsome
    · split at hsome
      · cases hsome
        exact ⟨rfl, (h.together x.1 (List.fst_mem_of_mem_zipIdx hx)).1⟩
      · cases hsome
    · cases hsome

theorem AtHome.turn (h : AtHome s a i p t k pa gen) (home : Nat) : s.turn home t.core p.sent = true := by
  have hsame := h.waiting home
  unfold State.turn
  dsimp only
  generalize s.waitingAt home = ws at hsame ⊢
  split
  · refine List.all_eq_true.mpr fun r hr => ?_
    rw [(hsame r hr).1, decide_eq_true_eq]
  · next hnot =>
    obtain ⟨r, hr⟩ := List.exists_mem_of_ne_nil _ fun hnil => hnot (List.isEmpty_iff.mpr hnil)
    obtain ⟨hrws, hrold⟩ := List.mem_filter.mp hr
    rw [Bool.and_eq_true]
    refine ⟨?_, List.all_eq_true.mpr fun r' hr' => ?_⟩
    · rw [← (hsame r hrws).2]
      exact hrold
    · obtain ⟨hcore, hsent⟩ := hsame r' (List.mem_of_mem_filter hr')
      rw [hcore, hsent]
      simp

theorem AtHome.found (h : AtHome s a i p t k pa gen) : s.accesses.find? (fun b => b.id == a.id) = some a := by
  rw [h.only, List.find?_cons_of_pos (by exact beq_self_eq_true a.id)]

/-- A part of the wrong generation goes back to its walk. -/
theorem AtHome.stale (h : AtHome s a i p t k pa gen) (hgen : s.gen t.space ≠ gen) (srv : Serve) :
    s.homeStep a.id i srv = (s.countEvent t.core 8 1).setPart a i { p with phase := .untranslated } := by
  unfold State.homeStep
  rw [h.found]
  dsimp only
  rw [h.part, h.truss, h.course]
  dsimp only
  rw [h.here, if_neg Bool.false_ne_true, h.ready]
  dsimp only
  rw [if_pos (by rw [h.memory, h.unread, decide_eq_true hgen]; rfl), (h.together p h.mem).2, if_neg Bool.false_ne_true, h.resident]
  rfl

/-- A part that may be performed, at a slice. -/
theorem AtHome.performs (h : AtHome s a i p t k pa gen) (hgen : s.gen t.space = gen) {srv : Serve} (hsrv : (srv == .l1) = false)
    (hfailed : a.laneFailed i p = false) (hblocked : s.partBlocked a t i p pa gen false false = false) :
    s.homeStep a.id i srv = (s.performGlobal a i t p pa false srv).noteTurn (s.homeFor pa p.sent) t.core := by
  unfold State.homeStep
  rw [h.found]
  dsimp only
  rw [h.part, h.truss, h.course]
  dsimp only
  rw [h.here, if_neg Bool.false_ne_true, h.ready]
  dsimp only
  rw [if_neg (by simp [hgen]), hfailed, if_neg Bool.false_ne_true, hsrv, hblocked, if_neg Bool.false_ne_true, h.memory, if_neg Bool.false_ne_true,
    h.unread, if_neg (by simp), if_neg (by simp), h.turn, if_pos rfl, if_neg Bool.false_ne_true]

theorem set_getElem? {α : Type} {xs : List α} {i : Nat} {x : α} (h : xs[i]? = some x) (y : α) : (xs.set i y)[i]? = some y := by
  rw [List.getElem?_set_self (List.getElem?_eq_some_iff.mp h).1]

/-- The access with part `i` changed. -/
def Access.withPart (a : Access) (i : Nat) (p : Part) : Access := { a with parts := a.parts.set i p }

theorem setPart_pending {s : State} (h : s.accesses = [a]) {q : Part} (hq : (a.withPart i q).pending = true) :
    (s.setPart a i q).accesses = [a.withPart i q] ∧ (s.setPart a i q).mem = s.mem ∧ (s.setPart a i q).memPsn = s.memPsn := by
  have hset : s.setPart a i q = s.withAccesses [a.withPart i q] := by
    refine (settle_pending hq).trans ?_
    rw [h, List.map_singleton]
    exact congrArg (fun x => s.withAccesses [x]) (if_pos rfl)
  rw [hset]
  exact ⟨rfl, rfl, rfl⟩

theorem homeAccess_stale (h : AtHome s a i p t k pa gen) (hgen : s.gen t.space ≠ gen) (srv : Serve) :
    ∃ s' b q, exec (.homeSliceAccess a.id i srv) s = .next s' ∧ s'.accesses = [b] ∧ b.parts[i]? = some q ∧
      q = { p with phase := .untranslated } ∧ s'.mem = s.mem ∧ s'.memPsn = s.memPsn := by
  have hkept := atHome_of_quiet (Quiet.countEvent s t.core 8 1)
  have hrun := (h.run srv).trans (congrArg Host.Outcome.next (h.stale hgen srv))
  generalize s.countEvent t.core 8 1 = u at hkept hrun
  have hmem : u.mem = s.mem := congrArg (·.1) hkept
  have hpsn : u.memPsn = s.memPsn := congrArg (·.2.1) hkept
  have honly : u.accesses = [a] := (congrArg (·.2.2) hkept :).trans h.only
  have hpending : (a.withPart i { p with phase := .untranslated }).pending = true :=
    List.any_eq_true.mpr ⟨_, List.mem_of_getElem? (set_getElem? h.part _), rfl⟩
  obtain ⟨hacc, hmem', hpsn'⟩ := setPart_pending honly hpending
  exact ⟨_, _, _, hrun, hacc, set_getElem? h.part _, rfl, hmem'.trans hmem, hpsn'.trans hpsn⟩

/-! ### A store and a load -/

theorem maskBytes_nil (old data : List Byte) : maskBytes old data [] = data := by
  cases old with
  | nil => rfl
  | cons o os =>
    cases data with
    | nil => rfl
    | cons d ds => rfl

theorem store_whole (b : Bank) (hcmp : p.cmp = []) : b.store p pa false = ⟨writeBytes b.m pa p.data, psnWrite b.psn pa p.size false⟩ := by
  unfold Bank.store
  rw [hcmp, maskBytes_nil]
  rfl

theorem homeAccess_store (h : AtHome s a i p t k pa gen) (hgen : s.gen t.space = gen) (hone : a.parts = [p]) (hkind : a.kind = .store)
    (hsize : p.size = 8) (hdata : p.data.length = 8) (hcmp : p.cmp = []) (halign : pa % 8 = 0) (hm : Memory.wf s.mem = true)
    (hpsn : twf false s.memPsn = true) :
    ∃ s', exec (.homeSliceAccess a.id i .home) s = .next s' ∧ s'.accesses = [] ∧ readBytes s'.mem pa 8 = p.data ∧
      tget false s'.memPsn (pa / 8) = false ∧ (∀ x, (x < pa ∨ pa + 8 ≤ x) → mget s'.mem x = mget s.mem x) := by
  obtain rfl : i = 0 := by
    have hlt := (List.getElem?_eq_some_iff.mp h.part).1
    rw [hone, List.length_singleton] at hlt
    omega
  have hmates : a.mates 0 p = [] := by
    unfold Access.mates
    rw [hone]
    rfl
  have hfailed : a.laneFailed 0 p = false := by
    unfold Access.laneFailed
    rw [hmates, List.any_nil, Bool.and_false]
  have hlane : a.laneAwaited 0 p gen = false := by
    unfold Access.laneAwaited
    rw [hmates, List.any_nil, Bool.and_false]
  have hrun := (h.run .home).trans (congrArg Host.Outcome.next (h.performs hgen rfl hfailed (h.unblocked rfl hlane)))
  have hbank : (s.bank false).store p pa false = ⟨writeBytes s.mem pa p.data, psnWrite s.memPsn pa p.size false⟩ := store_whole _ hcmp
  have hstep : s.performGlobal a 0 t p pa false .home =
      (((s.putBank t.space false pa p.size ⟨writeBytes s.mem pa p.data, psnWrite s.memPsn pa p.size false⟩).noteRelease a 0 pa p.size).l1Patch t.core pa p).setPart
        a 0 { p with early := false, phase := .performed } := by
    unfold State.performGlobal
    dsimp only
    rw [hkind]
    dsimp only
    rw [hbank]
    rfl
  have hkept : (((s.putBank t.space false pa p.size ⟨writeBytes s.mem pa p.data, psnWrite s.memPsn pa p.size false⟩).noteRelease a 0 pa p.size).l1Patch
      t.core pa p).atHome = (writeBytes s.mem pa p.data, psnWrite s.memPsn pa p.size false, [a]) := by
    rw [atHome_l1Patch, atHome_noteRelease, putBank_device]
    have haccesses : (s.touchRange t.space pa p.size true).accesses = s.accesses :=
      (congrArg (·.2.2) (atHome_of_noLines (touchRange_noLines s t.space pa p.size true)) :)
    exact congrArg (fun as => (writeBytes s.mem pa p.data, psnWrite s.memPsn pa p.size false, as)) (haccesses.trans h.only)
  rw [hstep] at hrun
  generalize (((s.putBank t.space false pa p.size ⟨writeBytes s.mem pa p.data, psnWrite s.memPsn pa p.size false⟩).noteRelease a 0 pa p.size).l1Patch
      t.core pa p) = u at hkept hrun
  have hnot : (a.withPart 0 { p with early := false, phase := .performed }).pending = false := by
    unfold Access.pending Access.withPart
    rw [hone]
    rfl
  have hdone : ((u.setPart a 0 { p with early := false, phase := .performed }).noteTurn (s.homeFor pa p.sent) t.core).atHome =
      (writeBytes s.mem pa p.data, psnWrite s.memPsn pa p.size false, []) := by
    rw [atHome_noteTurn]
    refine (settle_done hnot).trans ?_
    have hmem : u.mem = writeBytes s.mem pa p.data := congrArg (·.1) hkept
    have hpsn : u.memPsn = psnWrite s.memPsn pa p.size false := congrArg (·.2.1) hkept
    have hacc : u.accesses = [a] := congrArg (·.2.2) hkept
    rw [hmem, hpsn, hacc, List.filter_cons_of_neg (by simp [Access.withPart]), List.filter_nil]
  generalize (u.setPart a 0 { p with early := false, phase := .performed }).noteTurn (s.homeFor pa p.sent) t.core = s' at hrun hdone
  have hmem : s'.mem = writeBytes s.mem pa p.data := congrArg (·.1) hdone
  have hpsn' : s'.memPsn = psnWrite s.memPsn pa p.size false := congrArg (·.2.1) hdone
  refine ⟨s', hrun, (congrArg (·.2.2) hdone :), ?_, ?_, fun x hx => ?_⟩
  · rw [hmem, ← hdata]
    exact readBytes_writeBytes hm ..
  · rw [hpsn', hsize]
    exact psnWrite_word hpsn halign
  · rw [hmem]
    exact mget_writeBytes_out hm _ _ (by omega)

/-- An access with two parts left is under way while one of them changes. -/
theorem pending_withPart (hp : a.parts[i]? = some p) (hmore : 2 ≤ (a.parts.filter fun q => !q.phase.settled).length) (q : Part) :
    (a.withPart i q).pending = true := by
  obtain ⟨hi, hget⟩ := List.getElem?_eq_some_iff.mp hp
  rw [← List.countP_eq_length_filter] at hmore
  have hcount := List.countP_set (p := fun q : Part => !q.phase.settled) (a := q) hi
  have hpos : 0 < (a.parts.set i q).countP fun q => !q.phase.settled := by
    rw [hcount]
    split <;> split <;> omega
  obtain ⟨x, hx, hopen⟩ := List.countP_pos_iff.mp hpos
  exact List.any_eq_true.mpr ⟨x, hx, hopen⟩

theorem homeAccess_load (h : AtHome s a i p t k pa gen) (hgen : s.gen t.space = gen) (hmore : 2 ≤ (a.parts.filter fun q => !q.phase.settled).length)
    (hkind : a.kind = .load) (hbefore : ∀ j, j < i → ∀ q, a.parts[j]? = some q → q.phase.settled = true) :
    ∃ s' b q, exec (.homeSliceAccess a.id i .homeNoFill) s = .next s' ∧ s'.accesses = [b] ∧ b.parts[i]? = some q ∧ q.phase = .performed ∧
      q.got = readBytes s.mem pa p.size ∧ q.poison = anyPsn s.memPsn pa p.size ∧ s'.mem = s.mem := by
  have hfailed : a.laneFailed i p = false := by
    unfold Access.laneFailed
    rw [hkind]
    rfl
  have hlane : a.laneAwaited i p gen = false := by
    unfold Access.laneAwaited
    rw [hkind]
    rfl
  have htake : (a.parts.take i).any (fun q => !q.phase.settled && p.meets q) = false := by
    refine List.any_eq_false.mpr fun q hq => ?_
    obtain ⟨j, hj⟩ := List.getElem?_of_mem hq
    rw [List.getElem?_take] at hj
    split at hj
    · next hji =>
      rw [hbefore j hji q hj]
      simp
    · cases hj
  have hrun := (h.run .homeNoFill).trans (congrArg Host.Outcome.next (h.performs hgen rfl hfailed (h.unblocked htake hlane)))
  have hread : s.readPart a t p pa false .homeNoFill =
      (((if homeAcq a.acq then s else s.countEvent t.core 5 1).touchRange t.space pa p.size false).l1Drop t.core pa, (s.bank false).load p pa) := by
    unfold State.readPart
    dsimp only
    rw [if_neg Bool.false_ne_true, if_pos (by rfl)]
  have hkept : (((if homeAcq a.acq then s else s.countEvent t.core 5 1).touchRange t.space pa p.size false).l1Drop t.core pa).atHome = s.atHome := by
    rw [atHome_l1Drop, atHome_of_noLines (touchRange_noLines ..)]
    split
    · rfl
    · exact atHome_of_quiet (Quiet.countEvent ..)
  have hstep : s.performGlobal a i t p pa false .homeNoFill =
      (((if homeAcq a.acq then s else s.countEvent t.core 5 1).touchRange t.space pa p.size false).l1Drop t.core pa).setPart a i
        { (s.bank false).load p pa with phase := .performed } := by
    unfold State.performGlobal
    dsimp only
    rw [hkind]
    dsimp only
    rw [hread]
    dsimp only
    rw [heldBytes_single ((congrArg (·.2.2) hkept :).trans h.only)]
  rw [hstep] at hrun
  generalize ((if homeAcq a.acq then s else s.countEvent t.core 5 1).touchRange t.space pa p.size false).l1Drop t.core pa = u at hkept hrun
  have hmem : u.mem = s.mem := congrArg (·.1) hkept
  have honly : u.accesses = [a] := (congrArg (·.2.2) hkept :).trans h.only
  have hpending : (a.withPart i { (s.bank false).load p pa with phase := .performed }).pending = true := by
    exact pending_withPart h.part hmore _
  obtain ⟨hacc, hmem', -⟩ := setPart_pending honly hpending
  exact ⟨_, _, _, hrun, hacc, set_getElem? h.part _, rfl, rfl, rfl, hmem'.trans hmem⟩

end

end Sys2Proof.Machine
end

section
/-!
PROOFS. Repeating waits on promises, the move of slice columns, page migration, and the records of replayable faults (10 R221; 11 R242 to R248;
12 R277; 17 R396, R397).
-/
namespace Sys2Proof.Machine

/-! ### A repeating `pwait` (R277) -/

section
variable {s : State} {p : PromOp}

theorem proms_haltQueue (s : State) (blk : Nat) (err : BitVec 8) (seq : W32) : (s.haltQueue blk err seq).proms = s.proms := by
  have hinterrupt : ∀ (u : State) (e : Nat), (u.interrupt e).proms = u.proms := by
    intro u e
    unfold State.interrupt
    dsimp only
    split
    · rfl
    · split <;> rfl
  unfold State.haltQueue
  split
  · rfl
  · split
    · rfl
    · dsimp only
      split
      · rw [hinterrupt, proms_modQcb]
      · rw [proms_modQcb]

theorem proms_endQueueProm (s : State) (blk id : Nat) (op : POp) (e : PromEnd) : (s.endQueueProm blk id op e).proms = s.proms := by
  unfold State.endQueueProm
  split
  · rfl
  · dsimp only
    split
    · rw [proms_haltQueue, proms_modQcb]
    · rw [proms_modQcb]

theorem proms_acquire (s : State) (c : CRef) (sc : Option Scope) : (s.acquire c sc).proms = s.proms := by
  unfold State.acquire
  split
  · dsimp only
    split
    · split <;> rfl
    · rfl
  · rfl

/-- A promise operation that has ended is gone. -/
theorem proms_promEnd (s : State) (p : PromOp) (e : PromEnd) : (s.promEnd p e).proms = s.proms.filter fun q => q.id != p.id := by
  unfold State.promEnd
  dsimp only
  split
  · rw [proms_endQueueProm]
  · split
    · rw [modCourse_proms, proms_acquire]
    · rfl

variable {c r : Nat} {gen : BitVec 16} {host : Bool}

/-- The one promise operation is a `pwait` that repeats at a ridge. -/
structure Repeats (s : State) (p : PromOp) (c r : Nat) (gen : BitVec 16) (host : Bool) : Prop where
  only : s.proms = [p]
  ready : p.phase = .ready c gen host
  ridge : s.findRidge c = some r
  waiting : p.waiting = some (r, false)

theorem Repeats.run (h : Repeats s p c r gen host) : exec (.pwaitRepeat p.id) s = .next (if s.gen (s.promAgent p).2.1 ≠ gen then
    (if (s.promAgent p).1.core < 192 then s.countEvent (s.promAgent p).1.core 8 1 else s).setProm { p with waiting := none, phase := .untranslated }
    else s.pwaitEffect p c) := by
  refine congrArg Host.Outcome.next ?_
  rw [h.only, List.find?_cons_of_pos (by exact beq_self_eq_true p.id)]
  dsimp only
  rw [h.waiting, h.ready]

theorem Repeats.full (h : Repeats s p c r gen host) (hgen : s.gen (s.promAgent p).2.1 = gen) {x : W64} (hx : s.cellValue r = some x) :
    ∃ s', exec (.pwaitRepeat p.id) s = .next s' ∧ s'.proms = [] := by
  have heffect : s.pwaitEffect p c = s.promEnd p (.ok [x] true) := by
    unfold State.pwaitEffect
    rw [h.ridge]
    dsimp only
    rw [hx]
  refine ⟨_, h.run.trans (congrArg Host.Outcome.next ((if_neg (not_not.mpr hgen)).trans heffect)), ?_⟩
  rw [proms_promEnd, h.only, List.filter_cons_of_neg (by simp), List.filter_nil]

theorem Repeats.empty (h : Repeats s p c r gen host) (hgen : s.gen (s.promAgent p).2.1 = gen) (hx : s.cellValue r = none) :
    exec (.pwaitRepeat p.id) s = .next { s with proms := [{ p with waiting := some (r, true) }] } := by
  have heffect : s.pwaitEffect p c = { s with proms := [{ p with waiting := some (r, true) }] } := by
    unfold State.pwaitEffect
    rw [h.ridge]
    dsimp only
    rw [hx]
    dsimp only
    rw [h.only, List.filter_cons_of_neg (by rw [h.waiting]; exact Bool.false_ne_true), List.map_singleton, if_pos rfl]
    rfl
  exact h.run.trans (congrArg Host.Outcome.next ((if_neg (not_not.mpr hgen)).trans heffect))

theorem Repeats.stale (h : Repeats s p c r gen host) (hgen : s.gen (s.promAgent p).2.1 ≠ gen) : ∃ s', exec (.pwaitRepeat p.id) s = .next s' ∧
    s'.proms = [{ p with waiting := none, phase := .untranslated }] ∧ s'.cells = s.cells := by
  have hkept : (if (s.promAgent p).1.core < 192 then s.countEvent (s.promAgent p).1.core 8 1 else s).proms = s.proms ∧
      (if (s.promAgent p).1.core < 192 then s.countEvent (s.promAgent p).1.core 8 1 else s).cells = s.cells := by
    split
    · have hquiet := (Quiet.countEvent s (s.promAgent p).1.core 8 1).1
      exact ⟨(congrArg State.proms hquiet :), (congrArg State.cells hquiet :)⟩
    · exact ⟨rfl, rfl⟩
  refine ⟨_, h.run.trans (congrArg Host.Outcome.next (if_pos hgen)), ?_, hkept.2⟩
  unfold State.setProm
  dsimp only
  rw [hkept.1, h.only, List.map_singleton, if_pos rfl]

end

/-! ### The move of a column (R242) -/

section
variable {s : State} {f : Fold} {fs : List Fold} {h line : Nat}

theorem makeRoom_folds (s : State) (vd l : Nat) : (s.makeRoom vd l).folds = s.folds ∧ (s.makeRoom vd l).mem = s.mem := by
  have hmem : (s.makeRoom vd l).mem = s.mem := by
    have hkept := congrArg State.mem (makeRoom_noLines s vd l)
    exact hkept
  refine ⟨?_, hmem⟩
  unfold State.makeRoom
  dsimp only
  split
  · split
    · unfold State.addShare State.modVdev
      split <;> rfl
    · rfl
  · rfl

/-- The line is no longer among those that the old slice holds of the moving entry. -/
def State.lineMoved (s : State) (f : Fold) (fs : List Fold) (line : Nat) : State :=
  { s with folds := { f with left := f.left.filter (· != line) } :: fs }

theorem lineHandover_ok (hfolds : s.folds = f :: fs) (hentry : f.entry = some h) (hleft : f.left ≠ []) :
    ∃ s', exec (.lineHandover line) s = .next s' ∧ s'.folds = { f with left := f.left.filter (· != line) } :: fs ∧ s'.mem = s.mem := by
  have hrun : exec (.lineHandover line) s = .next (s.handOver noVd line) := by
    refine congrArg Host.Outcome.next ?_
    unfold foldStep
    rw [hfolds]
    dsimp only
    rw [hentry]
    exact if_neg (by rw [List.isEmpty_iff]; exact hleft)
  have hover : s.handOver noVd line = if f.left.contains line then
      (if s.lines.contains line then (s.lineMoved f fs line).makeRoom noVd line else s.lineMoved f fs line) else s := by
    unfold State.handOver
    rw [hfolds]
    rfl
  refine ⟨_, hrun, ?_⟩
  rw [hover]
  by_cases hin : f.left.contains line = true
  · rw [if_pos hin]
    split
    · exact makeRoom_folds (s.lineMoved f fs line) noVd line
    · exact ⟨rfl, rfl⟩
  · rw [if_neg hin]
    have hsame : f.left.filter (· != line) = f.left := by
      refine List.filter_eq_self.mpr fun x hx => ?_
      rw [bne_iff_ne]
      rintro rfl
      exact hin (List.contains_iff_mem.mpr hx)
    rw [hsame]
    exact ⟨hfolds, rfl⟩

theorem lineHandover_starts (hfolds : s.folds = f :: fs) (hentry : f.entry = none) (hmove : s.toMove f = some h) :
    ∃ s' g, exec (.lineHandover line) s = .next s' ∧ s'.folds = g :: fs ∧ g.entry = some h ∧ g.left = s.linesOf h ∧
      tget? s'.fold h = some (foldWord true (s.sliceOf h) (s.foldDest f h)) ∧ s'.mem = s.mem := by
  have hrun : exec (.lineHandover line) s = .next (s.startMove f h) := by
    refine congrArg Host.Outcome.next ?_
    unfold foldStep
    rw [hfolds]
    dsimp only
    rw [hentry]
    dsimp only
    rw [hmove]
  refine ⟨_, { f with entry := some h, left := s.linesOf h, began := s.clk }, hrun, ?_, rfl, rfl, ?_, rfl⟩
  · unfold State.startMove
    dsimp only
    rw [hfolds]
    rfl
  · unfold State.startMove
    dsimp only
    rw [tget?_tput, if_pos rfl]

end

end Sys2Proof.Machine
end

section
/-!
PROOFS. Page migration and fault records, and O42 (11 R244, R245, R248; 17 R396, R397).
-/
namespace Sys2Proof.Machine

/-! ### What a migration leaves of the pool, the faults and the devices -/

/-- Free units of HBM, and the faults that wait. -/
def State.paging (s : State) : List Nat × List FaultWait := (s.hbmFree, s.faults)

theorem paging_of_noLines {s t : State} (h : s.noLines = t.noLines) : s.paging = t.paging := by
  have hpaging := congrArg State.paging h
  exact hpaging

theorem paging_of_noFlight {s t : State} (h : s.noFlight = t.noFlight) : s.paging = t.paging := by
  have hpaging := congrArg State.paging h
  exact hpaging

theorem paging_addShare (s : State) (vd m n : Nat) : (s.addShare vd m n).paging = s.paging := paging_of_noLines (addShare_noLines ..)

theorem paging_dropLines (s : State) (vd pa n : Nat) : (s.dropLines vd pa n).paging = s.paging :=
  paging_addShare s vd 3 ((s.dirty.filter fun l => pa / 128 ≤ l && l < (pa + n) / 128).length * 128)

theorem paging_writeUnit (s : State) (d : VDev) (unit frame : Nat) (host : Bool) : (s.writeUnit d unit frame host).paging = s.paging := by
  refine foldl_keeps _ State.paging (fun s i => ?_) _ s
  split <;> rfl

theorem vds_writeUnit (s : State) (d : VDev) (unit frame : Nat) (host : Bool) : (s.writeUnit d unit frame host).vds = s.vds := by
  refine foldl_keeps _ State.vds (fun s i => ?_) _ s
  split <;> rfl

/-! ### A unit comes in (R244) -/

/-- The waits on a unit. -/
def onUnit (unit : Nat) (p : Phase) : Bool := match p with | .paging gpa => gpa / unit64 * unit64 == unit | _ => false

/-- A unit of HBM holds what lay in host memory, and no fault on it waits. -/
def State.unitTaken (s : State) (vd unit host hbm : Nat) : State :=
  { s with
    faults := s.faults.filter fun f => !f.on vd true true unit,
    mem := copyBytes s.hostMem s.mem host hbm unit64, memPsn := copyPoison s.hostPsn s.memPsn host hbm unit64,
    hbmFree := s.hbmFree.erase hbm }

/-- The unit's entries name it, and its bytes are metered. -/
def State.unitMapped (s : State) (vd : Nat) (d : VDev) (unit e hbm : Nat) : State :=
  ((((s.dropLines vd hbm unit64).unitTaken vd unit (bits e 51 16 * unit64) hbm).writeUnit d unit (hbm / 4096) false).addShare vd 5 unit64).addShare vd 3 unit64

theorem pageIn_eq (s : State) (vd : Nat) (d : VDev) (unit e hbm : Nat) :
    s.pageIn vd d unit e hbm = (s.unitMapped vd d unit e hbm).resolve vd (onUnit unit) false := rfl

theorem pageIn_paging (s : State) (vd : Nat) (d : VDev) (unit e hbm : Nat) :
    (s.pageIn vd d unit e hbm).paging = (s.hbmFree.erase hbm, s.faults.filter fun f => !f.on vd true true unit) := by
  have hmapped : (s.unitMapped vd d unit e hbm).paging = (s.hbmFree.erase hbm, s.faults.filter fun f => !f.on vd true true unit) := by
    unfold State.unitMapped
    rw [paging_addShare, paging_addShare, paging_writeUnit]
    exact congrArg (fun x : List Nat × List FaultWait => (x.1.erase hbm, x.2.filter fun f => !f.on vd true true unit)) (paging_dropLines s vd hbm unit64)
  rw [pageIn_eq]
  exact hmapped

theorem not_onUnit {unit : Nat} {p : Phase} (hp : Resolved (onUnit unit) false p) {x : Nat} (hpx : p = .paging x) : x / unit64 * unit64 ≠ unit := by
  obtain ⟨q, rfl⟩ := hp
  unfold Phase.resolve at hpx
  by_cases hq : (q.waits && onUnit unit q) = true
  · rw [if_pos hq] at hpx
    cases hpx
  · rw [if_neg hq] at hpx
    subst hpx
    simpa [Phase.waits, onUnit] using hq

/-- A part of an access in a space is among the waits of the space. -/
theorem phase_of_access {s : State} {v : Nat} {b : Access} {t : Truss} {p : Part} (hb : b ∈ s.accesses) (ht : s.truss? b.who.truss = some t)
    (hspace : t.space = v) (hp : p ∈ b.parts) : p.phase ∈ s.phasesOf v := by
  unfold State.phasesOf
  simp only [List.mem_append, or_assoc]
  refine Or.inl (List.mem_flatten.mpr ⟨_, List.mem_map.mpr ⟨b, List.mem_filter.mpr ⟨hb, ?_⟩, rfl⟩, List.mem_map_of_mem hp⟩)
  rw [ht]
  exact beq_iff_eq.mpr hspace

/-- What a page-in leaves: the unit is no longer free, and no access waits for it (R244). -/
theorem pageIn_ok (s : State) (v : Fin 512) (d : VDev) (gpa e hbm : Nat) : let u := s.pageIn v d (gpa / unit64 * unit64) e hbm
    u.hbmFree = s.hbmFree.erase hbm ∧ u.wantsUnit v (gpa / unit64 * unit64) = false ∧
      (∀ f ∈ u.faults, f.on v true true (gpa / unit64 * unit64) = false) ∧
      ∀ b ∈ u.accesses, ∀ t, u.truss? b.who.truss = some t → t.space = v → ∀ p ∈ b.parts, ∀ x, p.phase = .paging x → x / unit64 ≠ gpa / unit64 := by
  intro u
  have hpaging : u.paging = _ := pageIn_paging s v d (gpa / unit64 * unit64) e hbm
  have hfaults : ∀ f ∈ u.faults, f.on v true true (gpa / unit64 * unit64) = false := by
    intro f hf
    rw [show u.faults = _ from congrArg (·.2) hpaging] at hf
    simpa using (List.mem_filter.mp hf).2
  refine ⟨congrArg (·.1) hpaging, ?_, hfaults, fun b hb t ht hspace p hp x hpx heq => ?_⟩
  · refine List.any_eq_false.mpr fun f hf => ?_
    rw [hfaults f hf, Bool.false_and]
    exact Bool.false_ne_true
  · have hresolved := resolved_of_mem v (onUnit (gpa / unit64 * unit64)) false (s.unitMapped v d (gpa / unit64 * unit64) e hbm)
      (phase_of_access hb ht hspace hp)
    exact not_onUnit hresolved hpx (by rw [heq])

section
variable {s : State} {v : Fin 512} {gpa frame : Nat} {d : VDev} {a e : Nat}

theorem execPageIn_ok {hbm : Nat} {free : List Nat} (hd : s.vdev? v = some d) (hfree : s.hbmFree = hbm :: free) (hleaf : s.leaf2 d gpa = some (a, e))
    (hhost : inHost e = true) (hpinned : s.unitPinned d (gpa / unit64 * unit64) e = false) (hwants : s.wantsUnit v (gpa / unit64 * unit64) = true) :
    ∃ s', exec (.pageIn v gpa) s = .next s' ∧ s'.hbmFree = free ∧ s'.wantsUnit v (gpa / unit64 * unit64) = false ∧
      (∀ f ∈ s'.faults, f.on v true true (gpa / unit64 * unit64) = false) ∧
      ∀ b ∈ s'.accesses, ∀ t, s'.truss? b.who.truss = some t → t.space = v → ∀ p ∈ b.parts, ∀ x, p.phase = .paging x →
        x / unit64 ≠ gpa / unit64 := by
  have hrun : exec (.pageIn v gpa) s = .next (s.pageIn v d (gpa / unit64 * unit64) e hbm) := by
    refine congrArg Host.Outcome.next ?_
    unfold pageInStep
    rw [hd, hfree]
    dsimp only
    rw [hleaf]
    dsimp only
    rw [hhost, hpinned, hwants]
    rfl
  obtain ⟨hhbm, hdone⟩ := pageIn_ok s v d gpa e hbm
  refine ⟨_, hrun, hhbm.trans ?_, hdone⟩
  rw [hfree, List.erase_cons_head]

/-! ### A unit goes out (R245) -/

/-- Host memory holds the unit, whose place in HBM is free. -/
def State.unitGiven (s : State) (hbm host : Nat) : State :=
  { s with
    hostMem := copyBytes s.mem s.hostMem hbm host unit64, hostPsn := copyPoison s.memPsn s.hostPsn hbm host unit64,
    hbmFree := s.hbmFree ++ [hbm], hostOut := s.hostOut ++ [HostOut.write host (readBytes s.mem hbm unit64)] }

theorem pageOut_eq (s : State) (vd : Nat) (d : VDev) (unit e frame : Nat) : s.pageOut vd d unit e frame =
    ((((((s.writeUnit d unit (frame / 16 * 16) true).raiseGen vd).dropLines vd (bits e 51 16 * unit64) unit64).unitGiven (bits e 51 16 * unit64)
      (frame / 16 * unit64)).addShare vd 5 unit64).addShare vd 3 unit64) := rfl

theorem unitGiven_paging (s : State) (hbm host : Nat) : (s.unitGiven hbm host).paging = (s.hbmFree ++ [hbm], s.faults) := rfl

theorem hbmFree_of_paging {s t : State} (h : s.paging = t.paging) : s.hbmFree = t.hbmFree := (Prod.mk.inj h).1

theorem pageOut_hbmFree (s : State) (vd : Nat) (d : VDev) (unit e frame : Nat) :
    (s.pageOut vd d unit e frame).hbmFree = s.hbmFree ++ [bits e 51 16 * unit64] := by
  have hlines := (paging_dropLines ((s.writeUnit d unit (frame / 16 * 16) true).raiseGen vd) vd (bits e 51 16 * unit64) unit64).trans
    ((paging_of_noFlight (raiseGen_noFlight ..)).trans (paging_writeUnit s d unit (frame / 16 * 16) true))
  rw [pageOut_eq]
  generalize ((s.writeUnit d unit (frame / 16 * 16) true).raiseGen vd).dropLines vd (bits e 51 16 * unit64) unit64 = u at hlines
  rw [← hbmFree_of_paging hlines]
  exact hbmFree_of_paging ((paging_addShare ..).trans (paging_addShare ..))

/-- The generation of a device. -/
def State.genOf? (s : State) (v : Nat) : Option (BitVec 16) := (s.vdev? v).map (·.gen)

theorem genOf?_addShare (s : State) (vd m n v : Nat) : (s.addShare vd m n).genOf? v = s.genOf? v := by
  have hquiet := congrArg (Option.map VDev.gen) ((Quiet.addShare s vd m n).2 v)
  rw [Option.map_map, Option.map_map] at hquiet
  exact hquiet

theorem genOf?_dropLines (s : State) (vd pa n v : Nat) : (s.dropLines vd pa n).genOf? v = s.genOf? v :=
  genOf?_addShare s vd 3 ((s.dirty.filter fun l => pa / 128 ≤ l && l < (pa + n) / 128).length * 128) v

theorem genOf?_unitGiven (s : State) (hbm host v : Nat) : (s.unitGiven hbm host).genOf? v = s.genOf? v := rfl

theorem pageOut_gen (hd : s.vdev? v = some d) (unit : Nat) : (s.pageOut v d unit e frame).gen v = d.gen + 1 := by
  have hwrite : (s.writeUnit d unit (frame / 16 * 16) true).vdev? v = some d := (vdev?_of_vds (vds_writeUnit ..) v).trans hd
  have hraised : ((s.writeUnit d unit (frame / 16 * 16) true).raiseGen v).genOf? v = some (d.gen + 1) := by
    unfold State.genOf?
    rw [vdev?_raiseGen, if_pos rfl, hwrite]
    rfl
  have hout : (s.pageOut v d unit e frame).genOf? v = some (d.gen + 1) := by
    rw [pageOut_eq, genOf?_addShare, genOf?_addShare, genOf?_unitGiven, genOf?_dropLines]
    exact hraised
  obtain ⟨d', hd', hgen⟩ := Option.map_eq_some_iff.mp hout
  rw [gen_of_vdev? v.isLt hd', hgen]

theorem execPageOut_ok (hd : s.vdev? v = some d) (hleaf : s.leaf2 d gpa = some (a, e)) (hin : s.unitInHbm d (gpa / unit64 * unit64) e = true)
    (hpinned : s.unitPinned d (gpa / unit64 * unit64) e = false) :
    ∃ s', exec (.pageOut v gpa frame) s = .next s' ∧ s'.hbmFree = s.hbmFree ++ [bits e 51 16 * unit64] ∧ s'.gen v = d.gen + 1 := by
  have hrun : exec (.pageOut v gpa frame) s = .next (s.pageOut v d (gpa / unit64 * unit64) e frame) := by
    refine congrArg Host.Outcome.next ?_
    unfold pageOutStep
    rw [hd]
    dsimp only
    rw [hleaf]
    dsimp only
    rw [hin, hpinned]
    rfl
  exact ⟨_, hrun, pageOut_hbmFree .., pageOut_gen hd _⟩

/-! ### A counter-managed unit (R248) -/

/-- A unit's count of atomics begins anew. -/
def State.recount (s : State) (key : Nat) : State := { s with cmCount := tset [] s.cmCount key [] }

/-- What a counter-managed unit's last atomics bring about. -/
theorem managedStep_eq (hd : s.vdev? v = some d) (hleaf : s.leaf2 d gpa = some (a, e)) (hcm : bit e 57 = true) (hmode : d.mode ≠ 0)
    (hthree : d.mode.toNat ≤ 3) (hpinned : s.unitPinned d (gpa / unit64 * unit64) e = false) {last : List Bool}
    (hlast : tget [] s.cmCount (unitKey (bits e 51 12 * 4096) (bit e 9)) = last) (hfull : last.length = 4096) :
    managedStep s v gpa frame =
      if 3072 < last.count true && s.unitInHbm d (gpa / unit64 * unit64) e then
        (s.recount (unitKey (bits e 51 12 * 4096) (bit e 9))).pageOut v d (gpa / unit64 * unit64) e frame
      else if last.count true < 1024 && inHost e then
        match s.hbmFree with
        | hbm :: _ => (s.recount (unitKey (bits e 51 12 * 4096) (bit e 9))).pageIn v d (gpa / unit64 * unit64) e hbm
        | [] => s
      else s := by
  have hcount : (last.filter id).length = last.count true := by
    rw [← List.countP_eq_length_filter]
    exact List.countP_congr fun x _ => by cases x <;> simp
  unfold managedStep
  dsimp only
  rw [hd]
  dsimp only
  rw [hleaf]
  dsimp only
  rw [hlast, hcount, if_neg]
  · rfl
  · rw [hcm, hpinned, hfull, decide_eq_false hmode, decide_eq_false (Nat.not_lt.mpr hthree)]
    decide

theorem counterManaged_ok (hd : s.vdev? v = some d) (hleaf : s.leaf2 d gpa = some (a, e)) (hcm : bit e 57 = true) (hmode : d.mode ≠ 0)
    (hthree : d.mode.toNat ≤ 3) (hpinned : s.unitPinned d (gpa / unit64 * unit64) e = false) {last : List Bool}
    (hlast : tget [] s.cmCount (unitKey (bits e 51 12 * 4096) (bit e 9)) = last) (hfull : last.length = 4096) :
    (s.unitInHbm d (gpa / unit64 * unit64) e = true → 3072 < last.count true →
      ∃ s', exec (.counterManagedMove v gpa frame) s = .next s' ∧ s'.hbmFree = s.hbmFree ++ [bits e 51 16 * unit64]) ∧
    (∀ hbm free, inHost e = true → 3072 < last.count false → s.hbmFree = hbm :: free →
      ∃ s', exec (.counterManagedMove v gpa frame) s = .next s' ∧ s'.hbmFree = free) := by
  have hrun := managedStep_eq (frame := frame) hd hleaf hcm hmode hthree hpinned hlast hfull
  refine ⟨fun hin hmany => ?_, fun hbm free hhost hmany hfree => ?_⟩
  · have hgo : (3072 < last.count true && s.unitInHbm d (gpa / unit64 * unit64) e) = true := by
      rw [hin, Bool.and_true]
      exact decide_eq_true hmany
    exact ⟨_, congrArg Host.Outcome.next (hrun.trans (if_pos hgo)), pageOut_hbmFree ..⟩
  · have hboth : last.count true + last.count false = 4096 := hfull ▸ List.count_true_add_count_false last
    have hfirst : ¬ (3072 < last.count true && s.unitInHbm d (gpa / unit64 * unit64) e) = true := by
      rw [decide_eq_false (show ¬ 3072 < last.count true by omega), Bool.false_and]
      exact Bool.false_ne_true
    have hsecond : (last.count true < 1024 && inHost e) = true := by
      rw [hhost, Bool.and_true]
      exact decide_eq_true (by omega)
    rw [if_neg hfirst, if_pos hsecond, hfree] at hrun
    refine ⟨_, congrArg Host.Outcome.next hrun, ?_⟩
    obtain ⟨hhbm, -⟩ := pageIn_ok (s.recount (unitKey (bits e 51 12 * 4096) (bit e 9))) v d gpa e hbm
    refine hhbm.trans ?_
    have hkept : (s.recount (unitKey (bits e 51 12 * 4096) (bit e 9))).hbmFree = hbm :: free := hfree
    rw [hkept, List.erase_cons_head]

/-! ### Records of faults (R396, R397) -/

theorem faults_passFault (f : FaultWait) : ∀ g ∈ (s.passFault f).faults, g.passed = false → g ≠ f := by
  intro g hg hopen heq
  obtain ⟨x, -, rfl⟩ := List.mem_map.mp hg
  by_cases hx : x = f
  · rw [if_pos hx] at hopen
    cases hopen
  · rw [if_neg hx] at heq
    exact hx heq

/-- A device without its meters' shares. -/
def State.unmetered? (s : State) (v : Nat) : Option VDev := (s.vdev? v).map VDev.noShares

theorem unmetered?_addShare (s : State) (vd m n v : Nat) : (s.addShare vd m n).unmetered? v = s.unmetered? v :=
  (Quiet.addShare s vd m n).2 v

theorem unmetered?_makeRoom (s : State) (vd l v : Nat) : (s.makeRoom vd l).unmetered? v = s.unmetered? v := by
  unfold State.makeRoom
  dsimp only
  split
  · split
    · exact unmetered?_addShare { s with tick := s.tick + 1 } vd 3 128 v
    · rfl
  · rfl

theorem unmetered?_handOver (s : State) (vd l v : Nat) : (s.handOver vd l).unmetered? v = s.unmetered? v := by
  unfold State.handOver
  split
  · split
    · dsimp only
      split
      · exact unmetered?_makeRoom ..
      · rfl
    · rfl
  · rfl

theorem unmetered?_touchLine (s : State) (vd a : Nat) (w : Bool) (v : Nat) : (s.touchLine vd a w).unmetered? v = s.unmetered? v := by
  unfold State.touchLine
  dsimp only
  split
  · exact unmetered?_handOver ..
  · exact (unmetered?_addShare ..).trans ((unmetered?_makeRoom ..).trans (unmetered?_handOver ..))

theorem unmetered?_touchRange (s : State) (vd a n : Nat) (w : Bool) (v : Nat) : (s.touchRange vd a n w).unmetered? v = s.unmetered? v :=
  foldl_keeps _ (State.unmetered? · v) (fun s _ => unmetered?_touchLine s ..) _ s

theorem unmetered?_putBank (s : State) (vd : Nat) (host : Bool) (pa n : Nat) (b : Bank) (v : Nat) :
    (s.putBank vd host pa n b).unmetered? v = s.unmetered? v := by
  cases host with
  | true => rfl
  | false => exact unmetered?_touchRange s vd pa n true v

theorem guestWrite_vdev? {s1 : State} {vd n : Nat} {data : List Byte} (h : s.guestWrite vd d n data = some s1) {v : Nat} (hd : s.vdev? v = some d) :
    ∃ d1, s1.vdev? v = some d1 ∧ d1.noShares = d.noShares := by
  have hkept : s1.unmetered? v = some d.noShares := by
    unfold State.guestWrite at h
    split at h
    · cases h
      exact (unmetered?_putBank ..).trans (congrArg (Option.map VDev.noShares) hd)
    · cases h
  exact Option.map_eq_some_iff.mp hkept

theorem vdev?_interrupt (s : State) (e v : Nat) : (s.interrupt e).vdev? v = s.vdev? v := by
  unfold State.interrupt
  dsimp only
  split
  · rfl
  · split <;> rfl

theorem faults_interrupt (s : State) (e : Nat) : (s.interrupt e).faults = s.faults := by
  unfold State.interrupt
  dsimp only
  split
  · rfl
  · split <;> rfl

theorem faults_modVdev (s : State) (v : Nat) (f : VDev → VDev) : (s.modVdev v f).faults = s.faults := by
  unfold State.modVdev
  split <;> rfl

/-- A record is in the ring, and the fault is passed on. -/
def State.recorded (s : State) (v : Nat) (f : FaultWait) : State := (s.passFault f).modVdev v fun d => { d with flttail := d.flttail + 1 }

theorem vdev?_recorded {d1 : VDev} {v : Nat} (hd : s.vdev? v = some d1) (f : FaultWait) :
    (s.recorded v f).vdev? v = some { d1 with flttail := d1.flttail + 1 } := by
  unfold State.recorded
  rw [vdev?_modVdev, if_pos rfl]
  exact congrArg _ hd

theorem faults_recorded (s : State) (v : Nat) (f : FaultWait) : (s.recorded v f).faults = (s.passFault f).faults := faults_modVdev ..

/-- A replayable fault is recorded in its ring (R396). -/
theorem stage1FaultRecord_ok {f : FaultWait} {s1 : State} (hd : s.vdev? v = some d) (hnext : s.nextFault v false false = some f)
    (hroom : d.fltRoom = true)
    (hwrite : s.guestWrite v d (bits d.fltbase.toNat 51 12 * 4096 + 32 * (d.flttail.toNat % 2 ^ bits d.fltbase.toNat 3 0)) (s.faultRecord f) = some s1) :
    ∃ s' d', exec (.stage1FaultRecord v) s = .next s' ∧ s'.vdev? v = some d' ∧ d'.flttail = d.flttail + 1 ∧
      ∀ g ∈ s'.faults, g.passed = false → g ≠ f := by
  obtain ⟨d1, hd1, hshares⟩ := guestWrite_vdev? hwrite hd
  have htail : d1.flttail = d.flttail := (congrArg VDev.flttail hshares :)
  have hrun : faultRecordStep s v = if d.vecs.getLsbD 16 then (s1.recorded v f).interrupt (v * 64 + bits d.vecs.toNat 5 0) else s1.recorded v f := by
    unfold faultRecordStep
    rw [hnext, hd]
    dsimp only
    rw [hroom, if_neg (by decide), hwrite]
    rfl
  by_cases hvec : d.vecs.getLsbD 16 = true
  · rw [if_pos hvec] at hrun
    refine ⟨_, _, congrArg Host.Outcome.next hrun, (vdev?_interrupt ..).trans (vdev?_recorded hd1 f), congrArg (· + 1) htail, ?_⟩
    rw [faults_interrupt, faults_recorded]
    exact faults_passFault f
  · rw [if_neg hvec] at hrun
    refine ⟨_, _, congrArg Host.Outcome.next hrun, vdev?_recorded hd1 f, congrArg (· + 1) htail, ?_⟩
    rw [faults_recorded]
    exact faults_passFault f

/-- A fault of stage 2 goes to the supervisor as an event (R397). -/
theorem stage2FaultEvent_ok {f : FaultWait} (hnext : s.nextFault v true false = some f) : exec (.stage2FaultEvent v) s =
    .next ((s.passFault f).postEvent 0x01 f.die v 0 (BitVec.ofNat 64 f.addr) (BitVec.ofNat 64 f.detail)) := by
  refine congrArg Host.Outcome.next ?_
  unfold faultEventStep
  rw [hnext]

end

/-! ### O42 -/

/-- Settles O42: each event is run once on a state of its own kind; a wait's end leaves no phase of the unit (`resolved_of_mem`), and a page's move
changes the pool and the faults alone. -/
theorem memoryEventsComplete : Obligations.MemoryEventsComplete := by
  refine ⟨?_, ?_, ?_, ?_, ?_, ?_, ?_, ?_, ?_⟩
  · intro s a i p t k pa gen srv honly hpart ht hk hres hready hmem hgot hproms hearly htogether
    have h : AtHome s a i p t k pa gen := ⟨honly, hpart, ht, hk, hres, hready, hmem, hgot, hproms, hearly, htogether⟩
    refine ⟨fun hgen => homeAccess_stale h hgen srv, ?_, ?_⟩
    · rintro hgen hone hkind rfl hsize hdata hcmp halign hwf hpsn
      exact homeAccess_store h hgen hone hkind hsize hdata hcmp halign hwf hpsn
    · rintro hgen hmore hkind rfl - hbefore
      exact homeAccess_load h hgen hmore hkind hbefore
  · intro s p c r gen host honly _ hready hridge hwaiting
    have h : Repeats s p c r gen host := ⟨honly, hready, hridge, hwaiting⟩
    exact ⟨fun x hgen hx => h.full hgen hx, fun hgen hx => h.empty hgen hx, fun hgen => h.stale hgen⟩
  · intro s f fs h line hfolds hentry hleft
    exact lineHandover_ok hfolds hentry hleft
  · intro s f fs h line hfolds hentry hmove
    exact lineHandover_starts hfolds hentry hmove
  · intro s v gpa d hbm a e free hd hfree hleaf hhost hpinned hwants
    exact execPageIn_ok hd hfree hleaf hhost hpinned hwants
  · intro s v gpa frame d a e hd hleaf hin hpinned
    exact execPageOut_ok hd hleaf hin hpinned
  · intro s v gpa frame d a e hd hleaf hcm hmode hthree hpinned last hfull
    exact counterManaged_ok hd hleaf hcm hmode hthree hpinned rfl hfull
  · intro s v d f s1 hd hnext hroom hwrite
    exact stage1FaultRecord_ok hd hnext hroom hwrite
  · intro s v f hnext
    exact stage2FaultEvent_ok hnext

end Sys2Proof.Machine
end

section
/-!
PROOFS. Courses and trusses that leave a core (02 R53, R54; 04 R98; 17 R403, R405).
-/
namespace Sys2Proof.Machine

/-! ### What the queues leave of a truss -/

/-- A truss without its queues. -/
def Truss.noQueues (t : Truss) : Truss := { t with copyQ := [], matQ := [], netQ := [] }

/-- The trusses without their queues, and the clock. -/
def State.bodies (s : State) : List Truss × Nat := (s.trusses.map Truss.noQueues, s.clk)

theorem bodies_of_trusses {s t : State} (h : s.trusses = t.trusses) (hclk : s.clk = t.clk) : s.bodies = t.bodies := by
  unfold State.bodies
  rw [h, hclk]

theorem body_of_bodies {s t : State} (h : s.bodies = t.bodies) {n : Nat} {x : Truss} (hx : t.truss? n = some x) :
    ∃ y, s.truss? n = some y ∧ y.noQueues = x.noQueues := by
  have hbody : (s.truss? n).map Truss.noQueues = (t.truss? n).map Truss.noQueues := by
    unfold State.truss?
    rw [← List.getElem?_map, ← List.getElem?_map, (Prod.mk.inj h).1]
  rw [hx] at hbody
  exact Option.map_eq_some_iff.mp hbody

theorem bodies_modTruss (s : State) (n : Nat) {f g : Truss → Truss} (hf : ∀ t, (f t).noQueues = g t.noQueues) :
    (s.modTruss n f).bodies = (s.bodies.1.modify n g, s.clk) := by
  unfold State.bodies State.modTruss
  refine congrArg (·, s.clk) (List.ext_getElem? fun m => ?_)
  rw [List.getElem?_map, List.getElem?_modify, List.getElem?_modify, List.getElem?_map]
  cases s.trusses[m]? with
  | none => rfl
  | some t =>
    by_cases hm : n = m
    · simp [hm, hf]
    · simp [hm]

/-- A change of a truss's queues alone. -/
theorem bodies_queues (s : State) (n : Nat) {f : Truss → Truss} (hf : ∀ t, (f t).noQueues = t.noQueues) : (s.modTruss n f).bodies = s.bodies := by
  rw [bodies_modTruss s n (g := id) hf, List.modify_id]
  rfl

theorem bodies_modCourse (s : State) (c : CRef) (f : Course → Course) :
    (s.modCourse c f).bodies = (s.bodies.1.modify c.truss fun t => t.modCourse c.course f, s.clk) := bodies_modTruss s c.truss fun _ => rfl

theorem bodies_addShare (s : State) (vd m n : Nat) : (s.addShare vd m n).bodies = s.bodies := by
  unfold State.addShare State.modVdev
  split <;> rfl

theorem bodies_modVdev (s : State) (vd : Nat) (f : VDev → VDev) : (s.modVdev vd f).bodies = s.bodies := by
  unfold State.modVdev
  split <;> rfl

theorem noQueues_passFences (n : Nat) (t : Truss) : (t.passFences n).noQueues = t.noQueues := by
  induction n generalizing t with
  | zero => rfl
  | succ n ih =>
    unfold Truss.passFences
    split
    · exact ih _
    · rfl

theorem noQueues_reissueIn (t : Truss) (js : List Nat) (q : QSel) : (t.reissueIn js q).noQueues = t.noQueues := by
  cases q <;> rfl

theorem noQueues_reissue (t : Truss) (js : List Nat) : (t.reissue js).noQueues = t.noQueues := by
  unfold Truss.reissue
  rw [noQueues_passFences, noQueues_reissueIn, noQueues_reissueIn, noQueues_reissueIn]

/-! ### What is outstanding is withdrawn (R52) -/

theorem bodies_dropEarly (s : State) (c : CRef) (sel : Access → Bool) : (s.dropEarly c sel).bodies = s.bodies := by
  refine foldl_keeps _ State.bodies (fun s p => ?_) _ s
  split
  · split <;> rfl
  · rfl

theorem bodies_unpost (s : State) (c : CRef) (vd : Nat) : (s.unpost c vd).bodies = s.bodies := by
  unfold State.unpost
  split
  · rfl
  · refine (foldl_keeps _ State.bodies (fun s r => ?_) _ _).trans (bodies_modVdev ..)
    exact bodies_queues s c.truss fun _ => rfl

/-- An entry of a course that is recorded as performed by no engine yet. -/
def owns (c : CRef) (e : QEntry) : Bool := e.course == c.course && !e.redo

/-- The entry at the head of the matrix queue is the course's. -/
def Truss.multipliesFor (t : Truss) (c : CRef) : Bool := match t.head? .mat with | some e => owns c e | none => false

/-- The core's engine is free of the course's work. -/
def State.matFreed (s : State) (c : CRef) (t : Truss) : State :=
  if t.multipliesFor c && (s.core t.core).matBusy == some c.truss then s.modCore t.core fun x => { x with matBusy := none } else s

theorem bodies_matFreed (s : State) (c : CRef) (t : Truss) : (s.matFreed c t).bodies = s.bodies := by
  unfold State.matFreed
  split <;> rfl

/-- The accesses and promise operations of a course are recorded as not performed, and what its entries have in the network is gone. -/
def State.recalled (s : State) (c : CRef) (gone : Nat → Nat → Bool) : State :=
  { s with
    accesses := s.accesses.map fun a => if a.who = c then a.withdraw else a,
    proms := s.proms.map fun p => match p.who with | .course d .. => if d = c then p.withdraw else p | .queue _ => p,
    outgoing := s.outgoing.filter fun o => !gone o.truss o.entry, gathers := s.gathers.filter fun g => !gone g.truss g.entry }

/-- A course's entries are recorded as not performed. -/
def Truss.recalled (t : Truss) (c : CRef) : Truss :=
  let out := fun (es : List QEntry) => es.map fun e => if owns c e then e.withdraw else e
  ({ t with copyQ := out t.copyQ, matQ := out t.matQ, netQ := out t.netQ } : Truss).passFences 64

theorem noQueues_recalled (t : Truss) (c : CRef) : (t.recalled c).noQueues = t.noQueues := noQueues_passFences 64 _

theorem withdraw_eq (s : State) (c : CRef) (t : Truss) : s.withdraw c t =
    (((((s.matFreed c t).dropEarly c fun _ => true).recalled c
      fun n e => n == c.truss && ((t.netQ.filter (owns c)).map (·.id)).contains e).unpost c t.vd).modTruss c.truss (·.recalled c)) := rfl

theorem withdraw_bodies (s : State) (c : CRef) (t : Truss) : (s.withdraw c t).bodies = s.bodies := by
  rw [withdraw_eq, bodies_queues _ _ (noQueues_recalled · c), bodies_unpost]
  exact (bodies_dropEarly ..).trans (bodies_matFreed ..)

/-! ### A course's image is saved (R52, R98, R405) -/

/-- A course leaves its slot. -/
def Course.leaves (k : Course) (to_ : CState) (clk : Nat) : Course :=
  { k.closeShadows with cstate := to_, hold := k.hold.leave clk, fetch := .untranslated }

/-- What saving makes of a course. -/
def Course.saved (k : Course) (to_ : CState) (clk : Nat) : Course := if k.cstate = .resident then k.leaves to_ clk else k

section
variable {s : State} {c : CRef} {t : Truss} {k : Course}

theorem fallAll_idle (hk : s.course? c = some k) (hops : k.ops = []) : s.fallAll c = s := by
  unfold State.fallAll
  rw [hk]
  dsimp only
  rw [hops, List.foldl_nil]

/-- The course has left its slot, and no image of it is kept yet. -/
def State.left (s : State) (c : CRef) (t : Truss) (to_ : CState) : State := (s.withdraw c t).modCourse c (·.leaves to_ s.clk)

theorem saveCourse_resident (ht : s.truss? c.truss = some t) (hk : s.course? c = some k) (hres : k.cstate = .resident) (hops : k.ops = [])
    (to_ : CState) : s.saveCourse c to_ = ((s.left c t to_).keepCourse c).addShare t.space 7 1 := by
  unfold State.saveCourse
  dsimp only
  rw [fallAll_idle hk hops, ht, hk]
  dsimp only
  rw [if_neg (not_not_intro hres)]
  rfl

theorem saveCourse_away (hk : s.course? c = some k) (hres : k.cstate ≠ .resident) (hops : k.ops = []) (to_ : CState) : s.saveCourse c to_ = s := by
  unfold State.saveCourse
  dsimp only
  rw [fallAll_idle hk hops, hk]
  split
  · next hk' =>
    cases hk'
    exact if_pos hres
  · rfl

theorem bodies_supWrite (s : State) (a : Nat) (bs : List Byte) : (s.supWrite a bs).bodies = s.bodies := rfl

theorem bodies_putImage (s : State) (a : Nat) (i : Image) : (s.putImage a i).bodies = s.bodies := rfl

theorem bodies_keepImage (s : State) (tn : Nat) (t : Truss) (j : Option Nat) (i : Image) : (s.keepImage tn t j i).1.bodies = s.bodies := by
  unfold State.keepImage
  split
  · rfl
  · rfl

theorem bodies_keepCourse (s : State) (c : CRef) : (s.keepCourse c).bodies = s.bodies := by
  unfold State.keepCourse
  split
  · exact bodies_keepImage ..
  · rfl

theorem bodies_left (s : State) (c : CRef) (t : Truss) (to_ : CState) : (s.left c t to_).bodies = (s.modCourse c (·.leaves to_ s.clk)).bodies := by
  unfold State.left
  rw [bodies_modCourse, bodies_modCourse, withdraw_bodies, show (s.withdraw c t).clk = s.clk from (Prod.mk.inj (withdraw_bodies s c t)).2]

/-- Saving changes the course alone, and the queues. -/
theorem saveCourse_bodies (ht : s.truss? c.truss = some t) (hk : s.course? c = some k) (hops : k.ops = []) (to_ : CState) :
    (s.saveCourse c to_).bodies = (s.modCourse c (·.saved to_ s.clk)).bodies := by
  by_cases hres : k.cstate = .resident
  · rw [saveCourse_resident ht hk hres hops, bodies_addShare, bodies_keepCourse, bodies_left]
    rw [modCourse_congr hk (f := (·.leaves to_ s.clk)) (g := (·.saved to_ s.clk)) (if_pos hres).symm]
  · have hkept : k.saved to_ s.clk = k := if_neg hres
    rw [saveCourse_away hk hres hops, modCourse_congr hk (f := (·.saved to_ s.clk)) (g := id) hkept, bodies_modCourse]
    have hid : (fun t : Truss => t.modCourse c.course id) = id := funext fun t => by
      unfold Truss.modCourse
      rw [List.modify_id]
      rfl
    rw [hid, List.modify_id]
    rfl

/-! ### A truss is stored (R54, R403) -/

/-- A truss without its queues and its courses. -/
def Truss.shell (t : Truss) : Truss := { t.noQueues with courses := [] }

/-- The first `n` courses of a truss are saved. -/
structure SavedUpTo (tn : Nat) (t : Truss) (clk : Nat) (u : State) (n : Nat) (x : Truss) : Prop where
  truss : u.truss? tn = some x
  time : u.clk = clk
  shell : x.shell = t.shell
  courses : ∀ j, x.courses[j]? = (t.courses[j]?).map fun k => if j < n then k.saved .stored clk else k

/-- Another course of a truss is saved. -/
theorem SavedUpTo.next {tn clk n : Nat} {u : State} {x : Truss} (h : SavedUpTo tn t clk u n x) (hk : t.courses[n]? = some k) (hops : k.ops = []) :
    ∃ y, SavedUpTo tn t clk (u.saveCourse ⟨tn, n⟩ .stored) (n + 1) y := by
  have hxk : x.courses[n]? = some k := by
    rw [h.courses, hk]
    exact congrArg some (if_neg (Nat.lt_irrefl n))
  have hcourse : u.course? ⟨tn, n⟩ = some k := (congrArg (Option.bind · fun t => t.courses[n]?) h.truss :).trans hxk
  have hbodies := saveCourse_bodies (c := ⟨tn, n⟩) h.truss hcourse hops .stored
  have hchanged : (u.modCourse ⟨tn, n⟩ (·.saved .stored u.clk)).truss? tn = some (x.modCourse n (·.saved .stored u.clk)) := by
    unfold State.modCourse
    rw [truss?_modTruss, if_pos rfl, h.truss]
    rfl
  obtain ⟨y, hy, hsame⟩ := body_of_bodies hbodies hchanged
  refine ⟨y, hy, (Prod.mk.inj hbodies).2.trans h.time, ?_, fun j => ?_⟩
  · exact (congrArg (fun t : Truss => { t with courses := [] }) hsame).trans h.shell
  · have hcourses : y.courses = x.courses.modify n (·.saved .stored u.clk) := (congrArg Truss.courses hsame :)
    rw [hcourses, List.getElem?_modify, h.courses, h.time]
    by_cases hj : n = j
    · subst hj
      rw [hk]
      simp
    · have hlt : j < n + 1 ↔ j < n := by omega
      simp only [if_neg hj, hlt, id_map']

theorem savedUpTo_all {tn : Nat} (ht : s.truss? tn = some t) (hops : ∀ k ∈ t.courses, k.ops = []) (n : Nat) (hn : n ≤ t.courses.length) :
    ∃ x, SavedUpTo tn t s.clk ((List.range n).foldl (fun s j => s.saveCourse ⟨tn, j⟩ .stored) s) n x := by
  induction n with
  | zero => exact ⟨t, ht, rfl, rfl, fun j => by simp⟩
  | succ n ih =>
    obtain ⟨x, hx⟩ := ih (by omega)
    rw [List.range_succ, List.foldl_append]
    exact hx.next (List.getElem?_eq_getElem hn) (hops _ (List.getElem_mem hn))

end

end Sys2Proof.Machine
end

section
/-!
PROOFS. Partial and full evictions, and what unparks a course (02 R51, R53, R54; 13 R285; 17 R402, R403, R405).
-/
namespace Sys2Proof.Machine

section
variable {s : State} {tn : Nat} {t : Truss} {c : CRef} {k : Course}

/-! ### A truss is stored (R54, R285, R403) -/

/-- The first `n` courses of a truss are saved. -/
def State.coursesSaved (s : State) (tn n : Nat) : State := (List.range n).foldl (fun s j => s.saveCourse ⟨tn, j⟩ .stored) s

/-- The tiles of a truss with WS 0. -/
def State.tilesLeft (s : State) (tn : Nat) : List Tile :=
  (((s.truss? tn).map (·.tiles)).getD []).map fun x => { x with status := statusOf 0 x.ovf x.psn }

/-- The ACC units and the record of the core keep what the truss holds. -/
def State.bodyKept (s : State) (tn : Nat) (t : Truss) (tiles : List Tile) : State :=
  let s := s.modCore t.core fun c => c.leaveAcc { t with tiles := tiles }
  match s.truss? tn with | some u => s.keepTruss tn { u with tiles := tiles } | none => s

/-- A truss is in the record of its core. -/
def Truss.shelved (t : Truss) (tiles : List Tile) : Truss :=
  { t with place := .stored t.core, evict := false, tested := false, tiles := tiles, units := [],
           courses := t.courses.map fun k => { k with slot := 64, cstate := if k.cstate = .parked then .stored else k.cstate } }

theorem storeTruss_eq (ht : s.truss? tn = some t) (hon : t.onCore = true) : s.storeTruss tn =
    ((((((s.coursesSaved tn t.courses.length).bodyKept tn t ((s.coursesSaved tn t.courses.length).tilesLeft tn)).modTruss tn
      (·.shelved ((s.coursesSaved tn t.courses.length).tilesLeft tn))).freePart t.core).addShare t.space 7
        (t.courses.filter fun k => k.cstate == .parked).length).modVdev t.space VDev.accumulate) := by
  unfold State.storeTruss
  rw [ht]
  refine (if_neg ?_).trans rfl
  rw [hon]
  decide

theorem trusses_addShare (s : State) (vd m n : Nat) : (s.addShare vd m n).trusses = s.trusses := trusses_modVdev ..

theorem trusses_keepImage (s : State) (tn : Nat) (t : Truss) (j : Option Nat) (i : Image) : (s.keepImage tn t j i).1.trusses = s.trusses := by
  unfold State.keepImage
  split
  · rfl
  · rfl

theorem trusses_keepTile (s : State) (tn : Nat) (t : Truss) (x : Tile) : (s.keepTile tn t x).trusses = s.trusses := by
  unfold State.keepTile
  split
  · rfl
  · exact trusses_keepImage ..

theorem trusses_keepTruss (s : State) (tn : Nat) (t : Truss) : (s.keepTruss tn t).trusses = s.trusses := by
  unfold State.keepTruss
  split
  · rfl
  · next d hd =>
    dsimp only
    refine Eq.trans (b := (List.foldl (fun (s : State) x => s.keepTile tn t x) _ t.tiles).trusses) rfl ?_
    rw [foldl_keeps _ State.trusses (fun s x => trusses_keepTile ..)]
    split
    · rfl
    · exact trusses_keepImage ..

theorem trusses_bodyKept (s : State) (tn : Nat) (t : Truss) (tiles : List Tile) : (s.bodyKept tn t tiles).trusses = s.trusses := by
  unfold State.bodyKept
  dsimp only
  split
  · exact trusses_keepTruss ..
  · rfl

theorem truss?_of_trusses {s u : State} (h : s.trusses = u.trusses) (n : Nat) : s.truss? n = u.truss? n := by
  unfold State.truss?
  rw [h]

/-- What a truss is once it is stored. -/
theorem truss?_storeTruss (ht : s.truss? tn = some t) (hon : t.onCore = true) {x : Truss}
    (hx : (s.coursesSaved tn t.courses.length).truss? tn = some x) :
    (s.storeTruss tn).truss? tn = some (x.shelved (x.tiles.map fun y => { y with status := statusOf 0 y.ovf y.psn })) := by
  have htiles : (s.coursesSaved tn t.courses.length).tilesLeft tn = x.tiles.map fun y => { y with status := statusOf 0 y.ovf y.psn } := by
    unfold State.tilesLeft
    rw [hx]
    rfl
  rw [storeTruss_eq ht hon, htiles, truss?_of_trusses (trusses_modVdev ..), truss?_of_trusses (trusses_addShare ..),
    truss?_of_trusses (trusses_freePart ..), truss?_modTruss, if_pos rfl, truss?_of_trusses (trusses_bodyKept ..), hx]
  rfl

/-- The truss of a number lies on a core. -/
def State.liesOnCore (s : State) (n : Nat) : Bool := match s.truss? n with | some u => u.onCore | none => false

/-- The truss of a number has yet to be tested. -/
def State.isUnproven (s : State) (n : Nat) : Bool := match s.truss? n with | some u => u.unproven | none => false

theorem evictStep_eq (ht : s.truss? tn = some t) : evictStep s tn =
    if !(t.evict && t.onCore && ((s.groupOf tn).filter s.liesOnCore).all s.canLeave) then s
    else if (((s.groupOf tn).filter s.liesOnCore).filter s.isUnproven).isEmpty then
      (((s.groupOf tn).filter s.liesOnCore).foldl State.storeTruss s).finishMove t.space
    else (((s.groupOf tn).filter s.liesOnCore).filter s.isUnproven).foldl State.recordMatrix s := by
  unfold evictStep
  rw [ht]
  rfl

/-- A truss that leaves alone is stored (R54). -/
theorem evictStep_single (ht : s.truss? tn = some t) (hevict : t.evict = true) (hon : t.onCore = true) (halone : s.groupOf tn = [tn])
    (hleave : s.canLeave tn = true) (hproven : t.unproven = false) : evictStep s tn = (s.storeTruss tn).finishMove t.space := by
  have hlies : s.liesOnCore tn = true := by
    unfold State.liesOnCore
    rw [ht]
    exact hon
  have htested : s.isUnproven tn = false := by
    unfold State.isUnproven
    rw [ht]
    exact hproven
  rw [evictStep_eq ht, halone, List.filter_cons_of_pos hlies, List.filter_nil, List.filter_cons_of_neg (by rw [htested]; decide), List.filter_nil,
    hevict, hon, List.all_cons, hleave]
  rfl

theorem saved_kept (k : Course) (to_ : CState) (clk : Nat) (hres : k.cstate = .resident) : (k.saved to_ clk).cstate = to_ ∧
    (k.saved to_ clk).shadows = [] ∧ (k.saved to_ clk).v = k.v ∧ (k.saved to_ clk).g = k.g ∧ (k.saved to_ clk).p = k.p ∧
    (k.saved to_ clk).pc = k.pc ∧ (k.saved to_ clk).tok = k.tok := by
  unfold Course.saved
  rw [if_pos hres]
  exact ⟨rfl, rfl, rfl, rfl, rfl, rfl, rfl⟩

theorem fullEviction_ok (ht : s.truss? tn = some t) (hevict : t.evict = true) (hon : t.onCore = true) (halone : s.groupOf tn = [tn])
    (hleave : s.canLeave tn = true) (hproven : t.unproven = false) (hops : ∀ k ∈ t.courses, k.ops = []) :
    ∃ s' u, exec (.fullEviction tn) s = .next s' ∧ s'.truss? tn = some u ∧ u.place = .stored t.core ∧ u.scr = t.scr ∧
      u.layouts = t.layouts ∧ u.bars = t.bars ∧ u.rings = t.rings ∧ u.evict = false ∧
      (u.tiles = t.tiles.map fun x => { x with status := statusOf 0 x.ovf x.psn }) ∧
      ∀ (j : Nat) k, t.courses[j]? = some k → k.cstate = .resident → ∃ k', u.courses[j]? = some k' ∧ k'.cstate = .stored ∧ k'.shadows = [] ∧
        k'.v = k.v ∧ k'.g = k.g ∧ k'.p = k.p ∧ k'.pc = k.pc ∧ k'.tok = k.tok := by
  obtain ⟨x, hx⟩ := savedUpTo_all ht hops t.courses.length le_rfl
  have hstored := truss?_storeTruss ht hon hx.truss
  have hcore : x.core = t.core := (congrArg Truss.core hx.shell :)
  refine ⟨_, _, congrArg Host.Outcome.next (evictStep_single ht hevict hon halone hleave hproven),
    (truss?_of_trusses (trusses_finishMove ..) tn).trans hstored, congrArg TrussPlace.stored hcore, (congrArg Truss.scr hx.shell :),
    (congrArg Truss.layouts hx.shell :), (congrArg Truss.bars hx.shell :), (congrArg Truss.rings hx.shell :), rfl, ?_, fun j k hk hres => ?_⟩
  · exact congrArg (List.map _) (congrArg Truss.tiles hx.shell :)
  · obtain ⟨hstate, hshadows, hv, hg, hp, hpc, htok⟩ := saved_kept k .stored s.clk hres
    have hxk : x.courses[j]? = some (k.saved .stored s.clk) := by
      rw [hx.courses, hk]
      exact congrArg some (if_pos (List.getElem?_eq_some_iff.mp hk).1)
    refine ⟨{ k.saved .stored s.clk with slot := 64, cstate := .stored }, ?_, rfl, hshadows, hv, hg, hp, hpc, htok⟩
    refine (List.getElem?_map ..).trans ?_
    rw [hxk]
    refine congrArg some (congrArg (fun y => ({ k.saved .stored s.clk with slot := 64, cstate := y } : Course)) ?_)
    rw [hstate]
    rfl

/-! ### The course that is parked (R53) -/

/-- A fold that keeps what it has or takes the next has taken an element. -/
theorem mem_of_foldl_pick {α : Type} {f : Option α → α → Option α} (hf : ∀ b y, f b y = b ∨ f b y = some y) (xs : List α) (b : Option α) {x : α}
    (h : xs.foldl f b = some x) : b = some x ∨ x ∈ xs := by
  induction xs generalizing b with
  | nil => exact Or.inl h
  | cons y ys ih =>
    obtain hb | hmem := ih _ h
    · obtain hkept | htaken := hf b y
      · exact Or.inl (hkept ▸ hb)
      · rw [htaken] at hb
        cases hb
        exact Or.inr List.mem_cons_self
    · exact Or.inr (List.mem_cons_of_mem y hmem)

/-- The course that is parked next lies on its core. -/
theorem place_of_parkNext {core vd : Nat} (h : s.parkNext core vd = some c) (ht : s.truss? c.truss = some t) : t.place = .onCore core := by
  unfold State.parkNext at h
  obtain ⟨x, hx, rfl⟩ := Option.map_eq_some_iff.mp h
  refine (mem_of_foldl_pick (fun b y => ?_) _ _ hx).elim (fun hnone => nomatch hnone) fun hx => ?_
  · cases b with
    | none => exact Or.inr rfl
    | some z =>
      dsimp only
      split
      · exact Or.inr rfl
      · exact Or.inl rfl
  · obtain ⟨ys, hys, hmem⟩ := List.mem_flatten.mp hx
    obtain ⟨n, -, rfl⟩ := List.mem_map.mp hys
    split at hmem
    · next u hu =>
      split at hmem
      · next hcond =>
        obtain ⟨j, -, hj⟩ := List.mem_filterMap.mp hmem
        have hn : x.1.truss = n := by
          split at hj
          · split at hj
            · cases hj
              rfl
            · cases hj
          · cases hj
        rw [hn, hu] at ht
        cases ht
        simp only [Bool.and_eq_true, decide_eq_true_eq] at hcond
        exact hcond.1.2
      · cases hmem
    · cases hmem

theorem padTo_length (n : Nat) (bs : List Byte) : (padTo n bs).length = n := by
  unfold padTo
  rw [List.length_take, List.length_append, List.length_replicate]
  omega

theorem image_length (k : Course) (t : Truss) (j : Nat) : (k.image t j).bytes.length = footprint t.items.regs := padTo_length ..

/-- A device is there. -/
def State.known (s : State) (v : Nat) : Bool := (s.vdev? v).isSome

theorem known_modVdev (s : State) (vd : Nat) (f : VDev → VDev) (v : Nat) : (s.modVdev vd f).known v = s.known v := by
  unfold State.known
  rw [vdev?_modVdev]
  split
  · next h => rw [Option.isSome_map, h]
  · rfl

theorem known_modTruss (s : State) (n : Nat) (f : Truss → Truss) (v : Nat) : (s.modTruss n f).known v = s.known v := rfl

theorem known_unpost (s : State) (c : CRef) (vd v : Nat) : (s.unpost c vd).known v = s.known v := by
  unfold State.unpost
  split
  · rfl
  · refine (foldl_keeps _ (State.known · v) (fun s r => ?_) _ _).trans (known_modVdev ..)
    rfl

theorem known_dropEarly (s : State) (c : CRef) (sel : Access → Bool) (v : Nat) : (s.dropEarly c sel).known v = s.known v := by
  refine foldl_keeps _ (State.known · v) (fun s p => ?_) _ s
  split
  · split <;> rfl
  · rfl

theorem known_matFreed (s : State) (c : CRef) (t : Truss) (v : Nat) : (s.matFreed c t).known v = s.known v := by
  unfold State.matFreed
  split <;> rfl

theorem known_withdraw (s : State) (c : CRef) (t : Truss) (v : Nat) : (s.withdraw c t).known v = s.known v := by
  rw [withdraw_eq]
  exact (known_unpost ..).trans ((known_dropEarly ..).trans (known_matFreed ..))

theorem known_left (s : State) (c : CRef) (t : Truss) (to_ : CState) (v : Nat) : (s.left c t to_).known v = s.known v := by
  unfold State.left State.modCourse
  rw [known_modTruss, known_withdraw]

theorem ctxParts_modVdev (s : State) (vd : Nat) (f : VDev → VDev) : (s.modVdev vd f).ctxParts = s.ctxParts := by
  unfold State.modVdev
  split <;> rfl

theorem ctxParts_keepImage {d : VDev} (hd : s.vdev? t.vd = some d) (tn : Nat) (j : Option Nat) (i : Image) :
    (s.keepImage tn t j i).1.ctxParts = s.ctxParts ++
      [⟨t.vd, t.core, tn, j, firstGap (s.partsOf t.vd t.core) i.bytes.length ((s.partsOf t.vd t.core).length + 1) 0, i.bytes.length⟩] := by
  unfold State.keepImage
  rw [hd]
  rfl

/-- The image of a course takes its footprint of the record. -/
theorem keepCourse_part (ht : s.truss? c.truss = some t) (hk : s.course? c = some k) (hknown : s.known t.vd = true) :
    ∃ p ∈ (s.keepCourse c).ctxParts, p.vd = t.vd ∧ p.core = t.core ∧ p.truss = c.truss ∧ p.course = some c.course ∧
      p.size = footprint t.items.regs := by
  obtain ⟨d, hd⟩ := Option.isSome_iff_exists.mp hknown
  have hkept : s.keepCourse c = (s.keepImage c.truss t (some c.course) (k.image t c.course)).1 := by
    unfold State.keepCourse
    rw [ht, hk]
  rw [hkept]
  generalize hi : k.image t c.course = i
  rw [ctxParts_keepImage hd]
  refine ⟨_, List.mem_append_right _ (List.mem_singleton_self _), rfl, rfl, rfl, rfl, ?_⟩
  rw [← hi]
  exact image_length ..

theorem course?_of_bodies {s u : State} (h : s.bodies = u.bodies) (c : CRef) : s.course? c = u.course? c := by
  have hof : ∀ w : State, w.course? c = (w.bodies.1[c.truss]?).bind fun t => t.courses[c.course]? := by
    intro w
    unfold State.course? State.bodies
    rw [List.getElem?_map]
    cases w.trusses[c.truss]? <;> rfl
  rw [hof, hof, h]

/-- A course that is parked keeps its registers, and its image takes its footprint (R53, R98, R405). -/
theorem partialEviction_ok {core : Nat} {v : Fin 512} {need : Nat} (hpark : (s.core core).parking = some (v, need)) (hfree : s.regFree core < need)
    (hnext : s.parkNext core v = some c) (ht : s.truss? c.truss = some t) (hk : s.course? c = some k) (hres : k.cstate = .resident)
    (hdrained : s.drained c t k = true) (hops : k.ops = []) :
    ∃ s' k', exec (.partialEviction core v need) s = .next s' ∧ s'.course? c = some k' ∧ k'.cstate = .parked ∧ k'.shadows = [] ∧
      k'.v = k.v ∧ k'.g = k.g ∧ k'.p = k.p ∧ k'.pc = k.pc ∧ k'.tok = k.tok ∧
      ∀ d, s.vdev? t.vd = some d → ∃ p ∈ s'.ctxParts, p.vd = t.vd ∧ p.core = core ∧ p.truss = c.truss ∧ p.course = some c.course ∧
        p.size = footprint t.items.regs := by
  have hrun : partialStep s core v need = (s.saveCourse c .parked).modVdev v VDev.accumulate := by
    unfold partialStep
    rw [hpark]
    refine (if_neg (not_not_intro rfl)).trans ?_
    dsimp only
    rw [if_neg (Nat.not_le.mpr hfree), hnext]
    dsimp only
    rw [ht, hk]
    exact if_pos hdrained
  have hcore : t.core = core := by
    unfold Truss.core
    rw [place_of_parkNext hnext ht]
  have hbodies := saveCourse_bodies ht hk hops .parked
  have hcourse : (s.modCourse c (·.saved .parked s.clk)).course? c = some (k.saved .parked s.clk) := by
    rw [course?_modCourse, if_pos rfl, hk]
    rfl
  have hdone : ((s.saveCourse c .parked).modVdev v VDev.accumulate).course? c = some (k.saved .parked s.clk) := by
    rw [course?_of_bodies ((bodies_modVdev ..).trans hbodies), hcourse]
  refine ⟨_, _, congrArg Host.Outcome.next hrun, hdone, ?_⟩
  obtain ⟨hstate, hshadows, hv, hg, hp, hpc, htok⟩ := saved_kept k .parked s.clk hres
  refine ⟨hstate, hshadows, hv, hg, hp, hpc, htok, fun d hd => ?_⟩
  have hchanged : (s.modCourse c (·.leaves .parked s.clk)).truss? c.truss = some (t.modCourse c.course (·.leaves .parked s.clk)) := by
    unfold State.modCourse
    rw [truss?_modTruss, if_pos rfl, ht]
    rfl
  obtain ⟨u, hu, hsame⟩ := body_of_bodies (bodies_left s c t .parked) hchanged
  have hleft : (s.left c t .parked).course? c = some (k.leaves .parked s.clk) := by
    rw [course?_of_bodies (bodies_left ..), course?_modCourse, if_pos rfl, hk]
    rfl
  have hvd : u.vd = t.vd := (congrArg Truss.vd hsame :)
  have hknown : (s.left c t .parked).known u.vd = true := by
    rw [known_left, hvd]
    exact Option.isSome_iff_exists.mpr ⟨d, hd⟩
  obtain ⟨p, hmem, hpvd, hpcore, hptruss, hpcourse, hpsize⟩ := keepCourse_part hu hleft hknown
  refine ⟨p, ?_, hpvd.trans hvd, hpcore.trans ((congrArg Truss.core hsame :).trans hcore), hptruss, hpcourse,
    hpsize.trans (congrArg (fun x : Truss => footprint x.items.regs) hsame :)⟩
  rw [saveCourse_resident ht hk hres hops]
  rwa [ctxParts_modVdev, State.addShare, ctxParts_modVdev]

/-! ### A parked course comes back (R51) -/

theorem bodies_freeParts (s : State) (p : CtxPart → Bool) : (s.freeParts p).bodies = s.bodies := rfl

theorem courseUnpark_ok (ht : s.truss? c.truss = some t) (hk : s.course? c = some k) (hpark : s.unparkable t k = true) :
    ∃ s' k', exec (.courseUnpark c) s = .next s' ∧ s'.course? c = some k' ∧ k'.cstate = .resident ∧ k'.slot = k.slot ∧
      k'.restored = some s.clk ∧ k'.v = k.v ∧ k'.g = k.g ∧ k'.p = k.p ∧ k'.pc = k.pc ∧ k'.tok = k.tok ∧
      ∀ p ∈ s'.ctxParts, ¬ (p.truss = c.truss ∧ p.course = some c.course) := by
  have hrun : unparkStep s c = (s.modTruss c.truss fun t => (t.modCourse c.course fun k => k.comeBack k.slot s.clk).reissue [c.course]).freeParts
      fun p => p.truss == c.truss && p.course == some c.course := by
    unfold unparkStep
    rw [ht, hk]
    exact if_pos hpark
  have hcourse : ((s.modTruss c.truss fun t => (t.modCourse c.course fun k => k.comeBack k.slot s.clk).reissue [c.course]).freeParts
      fun p => p.truss == c.truss && p.course == some c.course).course? c = some (k.comeBack k.slot s.clk) := by
    have hbodies := bodies_modTruss s c.truss (f := fun t => (t.modCourse c.course fun k => k.comeBack k.slot s.clk).reissue [c.course])
      (g := fun t => t.modCourse c.course fun k => k.comeBack k.slot s.clk) fun t => noQueues_reissue ..
    rw [course?_of_bodies ((bodies_freeParts ..).trans (hbodies.trans (bodies_modCourse s c _).symm)), course?_modCourse, if_pos rfl, hk]
    rfl
  refine ⟨_, _, congrArg Host.Outcome.next hrun, hcourse, rfl, rfl, rfl, rfl, rfl, rfl, rfl, rfl, fun p hp hsame => ?_⟩
  obtain ⟨htruss, hpcourse⟩ := hsame
  have hfreed := (List.mem_filter.mp hp).2
  dsimp only at hfreed
  rw [htruss, hpcourse, beq_self_eq_true, beq_self_eq_true] at hfreed
  exact absurd hfreed (by decide)

end

end Sys2Proof.Machine
end

section
/-!
PROOFS. A stored truss comes back to a core (02 R54; 19 R447; 24 R464).
-/
namespace Sys2Proof.Machine

/-! ### What a capture leaves (R447) -/

/-- The trusses, the devices and the sets. -/
def State.scheduled (s : State) : List Truss × Tbl VDev × Vector ClSet 32 := (s.trusses, s.vds, s.sets)

theorem scheduled_of_noEvents {s u : State} (h : s.noEvents = u.noEvents) : s.scheduled = u.scheduled := by
  have hscheduled := congrArg State.scheduled h
  exact hscheduled

theorem scheduled_capture (s : State) (vd kind w0 : Nat) (ws : List W64) : (s.capture vd kind w0 ws).scheduled = s.scheduled := by
  unfold State.capture
  split
  · rfl
  · split
    · rfl
    · refine (scheduled_of_noEvents (pfWrite_noEvents ..)).trans ?_
      rfl

theorem trusses_noteRestore (s : State) (t : Truss) (core : Nat) : (s.noteRestore t core).trusses = s.trusses := by
  unfold State.noteRestore
  split
  · rfl
  · split
    · split
      · split <;> rfl
      · rfl
    · exact (Prod.mk.inj (scheduled_capture ..)).1

section
variable {s : State} {tn : Nat} {t : Truss} {core : Nat}

/-! ### A truss takes its slots again -/

/-- The indices of the live courses. -/
def Truss.liveAt (t : Truss) : List Nat :=
  (List.range t.courses.length).filter fun j => match t.courses[j]? with | some k => !k.gone | none => false

/-- The header slot of a truss that comes to a core. -/
def State.slotBack (s : State) (t : Truss) (core : Nat) : Nat := if t.place = .stored core then t.ctxSlot else s.headerSlot t.vd core

/-- The ACC units of a truss that comes to a core. -/
def State.unitsBack (s : State) (t : Truss) (core : Nat) : List Nat :=
  takeUnits s.tick ((t.tiles.length + 3) / 4) 0 (s.accFree core (s.launchPart t))

/-- What a restore makes of a course. -/
def State.courseBack (s : State) (t : Truss) (core j : Nat) (k : Course) : Course :=
  if k.gone then k
  else { k.comeBack (((s.slotsFor core t.live)[(t.liveAt.idxOf j)]?).getD 64) s.clk with ctxArea := s.headerAddr t.vd core (s.slotBack t core) }

/-- What a restore of `t` makes of a truss. -/
def State.trussBack (s : State) (t : Truss) (core : Nat) (u : Truss) : Truss :=
  ({ u with
    courses := (List.range u.courses.length).zipWith (s.courseBack t core) u.courses, place := .onCore core, ctxSlot := s.slotBack t core,
    units := s.unitsBack t core, tested := false } : Truss).reissue t.liveAt

/-- A core's L1 is invalid, and a step of the order of use is done. -/
def State.l1Stale (s : State) (core : Nat) : State := { s.invalidateL1 core with tick := s.tick + 1 }

theorem bringBack_eq (ht : s.truss? tn = some t) : s.bringBack tn core =
    (((((s.modTruss tn (s.trussBack t core)).modCore core fun c => (c.usePool s.tick t.vd (s.launchPart t)).takeAcc (s.unitsBack t core)).freeParts
      fun p => p.truss == tn).l1Stale core).noteRestore t core) := by
  unfold State.bringBack
  rw [ht]
  rfl

theorem trusses_arrived (s : State) (core : Nat) (f : Core → Core) (p : CtxPart → Bool) :
    (((s.modCore core f).freeParts p).l1Stale core).trusses = s.trusses := rfl

theorem truss?_bringBack (ht : s.truss? tn = some t) : (s.bringBack tn core).truss? tn = some (s.trussBack t core t) := by
  have hmod : (s.modTruss tn (s.trussBack t core)).truss? tn = some (s.trussBack t core t) := by
    rw [truss?_modTruss, if_pos rfl, ht]
    rfl
  rw [bringBack_eq ht, truss?_of_trusses (trusses_noteRestore ..), truss?_of_trusses (trusses_arrived ..)]
  exact hmod

theorem noQueues_trussBack (s : State) (t : Truss) (core : Nat) (u : Truss) : (s.trussBack t core u).noQueues =
    ({ u with
      courses := (List.range u.courses.length).zipWith (s.courseBack t core) u.courses, place := .onCore core, ctxSlot := s.slotBack t core,
      units := s.unitsBack t core, tested := false } : Truss).noQueues := noQueues_reissue ..

theorem courses_trussBack {j : Nat} {k : Course} (hk : t.courses[j]? = some k) :
    (s.trussBack t core t).courses[j]? = some (s.courseBack t core j k) := by
  have hcourses : (s.trussBack t core t).courses = (List.range t.courses.length).zipWith (s.courseBack t core) t.courses :=
    (congrArg Truss.courses (noQueues_trussBack s t core t) :)
  have hj : (List.range t.courses.length)[j]? = some j := by
    rw [List.getElem?_range (List.getElem?_eq_some_iff.mp hk).1]
  rw [hcourses, List.getElem?_zipWith, hj, hk]

/-! ### The truss that is restored (R54, R447) -/

theorem restoreSpan_single {d : VDev} (ht : s.truss? tn = some t) (hd : s.vdev? t.vd = some d) (hspan : t.items.span = 1)
    (hhandler : t.handlerTruss = false) (hreplay : s.replaying t.vd = false)
    (hpick : s.pickCores d [fun c => s.fits c { t.items with part := s.launchPart t } t.live false] = some [core]) :
    s.restoreSpan tn = some (s.bringBack tn core) := by
  have hrecorded : s.recordedCores t.vd [tn] = none := by
    unfold State.recordedCores
    rw [hreplay]
    rfl
  unfold State.restoreSpan
  rw [ht]
  dsimp only
  rw [hd]
  dsimp only
  rw [if_pos hspan, hrecorded]
  dsimp only
  rw [List.map_cons, List.map_nil, ht]
  dsimp only
  rw [hhandler, if_neg (by decide), hpick]
  rfl

theorem restored?_single {d : VDev} {c0 : Nat} (ht : s.truss? tn = some t) (hplace : t.place = .stored c0) (hserved : s.served t.space = true)
    (hlive : t.live ≠ 0) (halone : s.groupOf tn = [tn]) (hunparking : s.unparking (fun u => u.ofVd t.vd) = false)
    (hreplay : s.replaying t.vd = false) (hspan : t.items.span = 1) (hhandler : t.handlerTruss = false) (hd : s.vdev? t.vd = some d)
    (hpick : s.pickCores d [fun c => s.fits c { t.items with part := s.launchPart t } t.live false] = some [core]) :
    s.restored? tn = some (s.bringBack tn core) := by
  have hall : s.restoreAll [tn] = some (s.bringBack tn core) := by
    unfold State.restoreAll
    rw [ht]
    dsimp only
    rw [hplace]
    dsimp only
    rw [restoreSpan_single ht hd hspan hhandler hreplay hpick]
    rfl
  have hgo : (s.served t.space && t.live ≠ 0 && !s.unparking fun u => u.ofVd t.vd) = true := by
    rw [hserved, hunparking, decide_eq_true hlive]
    rfl
  unfold State.restored?
  rw [ht]
  dsimp only
  rw [hplace]
  dsimp only
  rw [if_pos hgo, halone, hall]

/-- A truss comes back whole (R54, R464). -/
theorem trussRestore_ok {d : VDev} {c0 : Nat} (ht : s.truss? tn = some t) (hplace : t.place = .stored c0) (hserved : s.served t.space = true)
    (hlive : t.live ≠ 0) (halone : s.groupOf tn = [tn]) (hunparking : s.unparking (fun u => u.ofVd t.vd) = false)
    (hreplay : s.replaying t.vd = false) (hspan : t.items.span = 1) (hhandler : t.handlerTruss = false) (hd : s.vdev? t.vd = some d)
    (hpick : s.pickCores d [fun c => s.fits c { t.items with part := s.launchPart t } t.live false] = some [core]) :
    ∃ s' u, exec (.trussRestore tn) s = .next s' ∧ s'.truss? tn = some u ∧ u.place = .onCore core ∧ u.scr = t.scr ∧ u.tiles = t.tiles ∧
      u.layouts = t.layouts ∧ u.tpls = t.tpls ∧ u.bars = t.bars ∧ u.rings = t.rings ∧
      ∀ (j : Nat) k, t.courses[j]? = some k → k.gone = false → ∃ k', u.courses[j]? = some k' ∧ k'.cstate = .resident ∧
        k'.restored = some s.clk ∧ k'.v = k.v ∧ k'.g = k.g ∧ k'.p = k.p ∧ k'.pc = k.pc ∧ k'.tok = k.tok := by
  have hrun : (s.restored? tn).getD s = s.bringBack tn core := by
    rw [restored?_single ht hplace hserved hlive halone hunparking hreplay hspan hhandler hd hpick]
    rfl
  have hbody := noQueues_trussBack s t core t
  refine ⟨_, _, congrArg Host.Outcome.next hrun, truss?_bringBack ht, (congrArg Truss.place hbody :), (congrArg Truss.scr hbody :),
    (congrArg Truss.tiles hbody :), (congrArg Truss.layouts hbody :), (congrArg Truss.tpls hbody :), (congrArg Truss.bars hbody :),
    (congrArg Truss.rings hbody :), fun j k hk hgone => ⟨_, courses_trussBack hk, ?_⟩⟩
  unfold State.courseBack
  rw [hgone, if_neg (by decide)]
  exact ⟨rfl, rfl, rfl, rfl, rfl, rfl, rfl⟩

end

end Sys2Proof.Machine
end

section
/-!
PROOFS. The selection of a device for a cluster set, and O38 (09 R197; 17 R400 to R402).
-/
namespace Sys2Proof.Machine

/-! ### The smallest pass (R401) -/

/-- One device is compared with the best so far. -/
def State.better (s : State) (b : Option (Nat × W64)) (v : Nat) : Option (Nat × W64) :=
  match s.vdev? v with
  | some d => (match b with | some y => if d.pass.toNat < y.2.toNat then some (v, d.pass) else some y | none => some (v, d.pass))
  | none => b

theorem minPass_eq (s : State) (vs : List Nat) : s.minPass vs = vs.foldl s.better none := rfl

/-- A device with a pass, which is no greater than those of the devices of a list. -/
structure LeastOf (s : State) (vs : List Nat) (x : Nat × W64) : Prop where
  mem : x.1 ∈ vs
  pass : ∃ d, s.vdev? x.1 = some d ∧ d.pass = x.2
  least : ∀ w ∈ vs, ∀ d, s.vdev? w = some d → x.2.toNat ≤ d.pass.toNat

/-- What the comparison of a list's devices comes to. -/
def BestOf (s : State) (vs : List Nat) : Option (Nat × W64) → Prop
  | some x => LeastOf s vs x
  | none => ∀ w ∈ vs, s.vdev? w = none

theorem bestOf_better {s : State} {vs : List Nat} {b : Option (Nat × W64)} (h : BestOf s vs b) (v : Nat) : BestOf s (vs ++ [v]) (s.better b v) := by
  unfold State.better
  cases hv : s.vdev? v with
  | none =>
    cases b with
    | none =>
      intro w hw
      obtain hw | hw := List.mem_append.mp hw
      · exact h w hw
      · rw [List.mem_singleton.mp hw, hv]
    | some x =>
      refine ⟨List.mem_append_left _ h.mem, h.pass, fun w hw d hd => ?_⟩
      obtain hw | hw := List.mem_append.mp hw
      · exact h.least w hw d hd
      · rw [List.mem_singleton.mp hw, hv] at hd
        cases hd
  | some e =>
    cases b with
    | none =>
      refine ⟨List.mem_append_right _ (List.mem_singleton_self v), ⟨e, hv, rfl⟩, fun w hw d hd => ?_⟩
      obtain hw | hw := List.mem_append.mp hw
      · rw [h w hw] at hd
        cases hd
      · rw [List.mem_singleton.mp hw, hv] at hd
        cases hd
        exact le_rfl
    | some x =>
      dsimp only
      split
      · next hlt =>
        refine ⟨List.mem_append_right _ (List.mem_singleton_self v), ⟨e, hv, rfl⟩, fun w hw d hd => ?_⟩
        obtain hw | hw := List.mem_append.mp hw
        · exact hlt.le.trans (h.least w hw d hd)
        · rw [List.mem_singleton.mp hw, hv] at hd
          cases hd
          exact le_rfl
      · next hge =>
        refine ⟨List.mem_append_left _ h.mem, h.pass, fun w hw d hd => ?_⟩
        obtain hw | hw := List.mem_append.mp hw
        · exact h.least w hw d hd
        · rw [List.mem_singleton.mp hw, hv] at hd
          cases hd
          exact not_lt.mp hge

theorem bestOf_minPass (s : State) (vs : List Nat) : BestOf s vs (s.minPass vs) := by
  rw [minPass_eq]
  induction vs using List.reverseRecOn with
  | nil => exact fun w hw => absurd hw List.not_mem_nil
  | append_singleton vs v ih =>
    rw [List.foldl_append]
    exact bestOf_better ih v

/-! ### What the notes on the runnable devices leave (R197, R400) -/

/-- Replacing an entry of a table leaves what does not tell the two entries apart. -/
theorem map_tput {α β : Type} {f : Nat × α → β} {m : Tbl α} {k : Nat} {x y : α} (hx : tget? m k = some x) (hf : f (k, y) = f (k, x)) :
    (tput m k y).map f = m.map f := by
  induction m with
  | nil => cases hx
  | cons e m ih =>
    obtain ⟨j, z⟩ := e
    unfold tget? at hx
    unfold tput
    split at hx
    · next hkj =>
      cases hx
      rw [if_pos hkj, List.map_cons, List.map_cons, hf, hkj]
    · next hkj =>
      split at hx
      · cases hx
      · next hlt =>
        rw [if_neg hkj, if_neg hlt, List.map_cons, List.map_cons, ih hx]

/-- A device's number, and where it stands. -/
def setOf (e : Nat × VDev) : Nat × Bool × Fin 32 := (e.1, e.2.v, e.2.set)

theorem holders_eq (s : State) (set : Nat) : s.holders set = ((s.vds.map setOf).filter fun x => x.2.1 && x.2.2.val == set).map (·.1) := by
  unfold State.holders
  rw [List.filter_map, List.map_map]
  rfl

/-- The state without its devices and the sets. -/
def State.noSched (s : State) : State := { s with vds := [], sets := Vector.replicate 32 ClSet.reset }

/-- A set without its floor. -/
def ClSet.noFloor (x : ClSet) : ClSet := { x with floor := 0 }

/-- A device without its pass and whether it counts as runnable. -/
def VDev.noPass (d : VDev) : VDev := { d with pass := 0, runnable := false }

/-- Only passes, notes of runnable devices and the floor of a set have changed. -/
structure Noted (set : Nat) (s u : State) : Prop where
  sched : u.noSched = s.noSched
  holders : u.holders set = s.holders set
  devices : ∀ w, (u.vdev? w).map VDev.noPass = (s.vdev? w).map VDev.noPass
  set : (vat u.sets set ClSet.reset).noFloor = (vat s.sets set ClSet.reset).noFloor

theorem Noted.refl (set : Nat) (s : State) : Noted set s s := ⟨rfl, rfl, fun _ => rfl, rfl⟩

theorem Noted.trans {set : Nat} {s u v : State} (h : Noted set s u) (h' : Noted set u v) : Noted set s v :=
  ⟨h'.sched.trans h.sched, h'.holders.trans h.holders, fun w => (h'.devices w).trans (h.devices w), h'.set.trans h.set⟩

theorem Noted.active {set : Nat} {s u : State} (h : Noted set s u) (w : Nat) : u.active w = s.active w := by
  have hof : ∀ t : State, t.active w = match (t.vdev? w).map VDev.noPass with | some d => d.v && d.mode.toNat < 4 | none => false := by
    intro t
    unfold State.active
    cases t.vdev? w <;> rfl
  rw [hof, hof, h.devices]

theorem Noted.isRunnable {set : Nat} {s u : State} (h : Noted set s u) (w : Nat) : u.isRunnable w = s.isRunnable w := by
  unfold State.isRunnable
  rw [h.active]
  have hwork : u.hasWork w = s.hasWork w := (congrArg (State.hasWork · w) h.sched :)
  rw [hwork]

theorem Noted.replaying {set : Nat} {s u : State} (h : Noted set s u) (w : Nat) : u.replaying w = s.replaying w :=
  (congrArg (State.replaying · w) h.sched :)

theorem noted_modVdev (set : Nat) (s : State) (v : Nat) {f : VDev → VDev} (hf : ∀ d, (f d).noPass = d.noPass) : Noted set s (s.modVdev v f) := by
  refine ⟨?_, ?_, fun w => ?_, ?_⟩
  · unfold State.modVdev
    split <;> rfl
  · rw [holders_eq, holders_eq]
    unfold State.modVdev
    split
    · next d hd =>
      have hset : setOf (v, f d) = setOf (v, d) := (congrArg (fun e => setOf (v, e)) (hf d) :)
      dsimp only
      rw [map_tput hd hset]
    · rfl
  · rw [vdev?_modVdev]
    split
    · next hw =>
      rw [hw]
      cases s.vdev? v with
      | none => rfl
      | some d => exact congrArg some (hf d)
    · rfl
  · unfold State.modVdev
    split <;> rfl

theorem noted_setFloor (set : Nat) (s : State) : Noted set s (s.setFloor set) := by
  unfold State.setFloor
  split
  · refine ⟨rfl, rfl, fun _ => rfl, ?_⟩
    dsimp only
    rw [vat_vput]
    split <;> rfl
  · exact .refl set s

theorem noted_noteRunnable (set : Nat) (s : State) (v : Nat) : Noted set s (s.noteRunnable set v) := by
  unfold State.noteRunnable
  split
  · exact .refl set s
  · dsimp only
    split
    · refine Noted.trans ?_ (noted_setFloor ..)
      exact noted_modVdev set s v fun _ => rfl
    · split
      · refine Noted.trans ?_ (noted_setFloor ..)
        exact noted_modVdev set s v fun _ => rfl
      · exact .refl set s

theorem noted_noteSet (set : Nat) (s : State) : Noted set s (s.noteSet set) := by
  have hall : ∀ (vs : List Nat) (u : State), Noted set u (vs.foldl (fun s v => s.noteRunnable set v) u) := by
    intro vs
    induction vs with
    | nil => exact fun u => .refl set u
    | cons v vs ih => exact fun u => (noted_noteRunnable set u v).trans (ih _)
  exact hall _ s

/-! ### Every runnable device counts (R400) -/

/-- A device counts as runnable. -/
def State.counts (s : State) (w : Nat) : Prop := ∃ d, s.vdev? w = some d ∧ d.runnable = true

/-- A device that has become runnable, in a set of floor `f`. -/
def VDev.counted (d : VDev) (f : W64) : VDev := { d with runnable := true, pass := if d.pass < f then f else d.pass }

theorem vdev?_setFloor (s : State) (set w : Nat) : (s.setFloor set).vdev? w = s.vdev? w := by
  unfold State.setFloor
  split <;> rfl

section
variable {s : State} {w : Nat}

theorem counts_noteRunnable (set : Nat) (hrun : s.isRunnable w = true) : (s.noteRunnable set w).counts w := by
  have hactive : s.active w = true := ((Bool.and_eq_true _ _).mp hrun).1
  obtain ⟨d, hd⟩ : ∃ d, s.vdev? w = some d := by
    unfold State.active at hactive
    split at hactive
    · next d hd => exact ⟨d, hd⟩
    · cases hactive
  unfold State.noteRunnable
  rw [hd]
  dsimp only
  rw [hrun]
  cases hcount : d.runnable with
  | true => exact ⟨d, hd, hcount⟩
  | false =>
    refine ⟨d.counted (vat s.sets set ClSet.reset).floor, (vdev?_setFloor ..).trans ?_, rfl⟩
    rw [vdev?_modVdev, if_pos rfl, hd]
    rfl

theorem counts_noteRunnable_of_counts (set v : Nat) (hrun : s.isRunnable w = true) (hcounts : s.counts w) : (s.noteRunnable set v).counts w := by
  by_cases hvw : w = v
  · subst hvw
    exact counts_noteRunnable set hrun
  · have hkept : (s.noteRunnable set v).vdev? w = s.vdev? w := by
      unfold State.noteRunnable
      split
      · rfl
      · dsimp only
        split
        · rw [vdev?_setFloor, vdev?_modVdev, if_neg hvw]
        · split
          · rw [vdev?_setFloor, vdev?_modVdev, if_neg hvw]
          · rfl
    obtain ⟨d, hd, hcount⟩ := hcounts
    exact ⟨d, hkept.trans hd, hcount⟩

theorem counts_foldl (set : Nat) (vs : List Nat) (s : State) (hrun : s.isRunnable w = true) (h : w ∈ vs ∨ s.counts w) :
    (vs.foldl (fun s v => s.noteRunnable set v) s).counts w := by
  induction vs generalizing s with
  | nil => exact h.resolve_left List.not_mem_nil
  | cons v vs ih =>
    have hrun' : (s.noteRunnable set v).isRunnable w = true := ((noted_noteRunnable set s v).isRunnable w).trans hrun
    refine ih _ hrun' ?_
    obtain hmem | hcounts := h
    · obtain rfl | hmem := List.mem_cons.mp hmem
      · exact Or.inr (counts_noteRunnable set hrun)
      · exact Or.inl hmem
    · exact Or.inr (counts_noteRunnable_of_counts set v hrun hcounts)

theorem counts_noteSet {set : Nat} (hrun : s.isRunnable w = true) (hmem : w ∈ s.holders set) : (s.noteSet set).counts w :=
  counts_foldl set _ s hrun (Or.inl hmem)

end

/-! ### A boundary of an idle set (R401) -/

section
variable {s : State} {set : Fin 32}

/-- The devices of a set that count as runnable. -/
def State.countedIn (s : State) (set : Nat) : List Nat :=
  (s.holders set).filter fun v => match s.vdev? v with | some d => d.runnable | none => false

theorem mem_countedIn {w set : Nat} : w ∈ s.countedIn set ↔ w ∈ s.holders set ∧ s.counts w := by
  unfold State.countedIn State.counts
  rw [List.mem_filter]
  refine and_congr_right fun _ => ?_
  cases s.vdev? w <;> simp

theorem select_idle {set : Nat} {u : State} (hreplay : ∀ w ∈ u.holders set, u.replaying w = false) (old : Option (Fin 512)) :
    u.select set old = (u, (u.minPass (u.countedIn set)).map (·.1)) := by
  have hnone : (u.countedIn set).find? u.replaying = none := by
    refine List.find?_eq_none.mpr fun w hw => ?_
    rw [hreplay w (mem_countedIn.mp hw).1]
    decide
  have heq : u.select set old = match (u.countedIn set).find? u.replaying with
      | some v =>
        match u.nextRecord 3 with
        | some n =>
          let into := u.capWord n 3 == 1
          let runsNow := old.map (·.val) == some v
          if into && !runsNow then (u.useRecord 3 n, some v)
          else if !into && runsNow then
            match (u.minPass ((u.countedIn set).filter (· != v))).map (·.1) with
            | some w => (u.useRecord 3 n, some w)
            | none => (u, some v)
          else (u, if runsNow then some v else (u.minPass ((u.countedIn set).filter (· != v))).map (·.1))
        | none => (u, (u.minPass (u.countedIn set)).map (·.1))
      | none => (u, (u.minPass (u.countedIn set)).map (·.1)) := rfl
  rw [heq, hnone]

/-- A set changes. -/
def State.putSet (s : State) (set : Nat) (f : ClSet → ClSet) : State := { s with sets := vput s.sets set (f (vat s.sets set ClSet.reset)) }

/-- The notes of a boundary. -/
def State.noted (s : State) (set : Nat) : State := (s.noteSet set).setFloor set

theorem boundary_idle (hold : (vat s.sets set ClSet.reset).running = none) (hreplay : ∀ w ∈ (s.noted set).holders set, (s.noted set).replaying w = false)
    {v : Nat} (hv : v < 512) (hbest : ((s.noted set).minPass ((s.noted set).countedIn set)).map (·.1) = some v) :
    s.boundary set = ((s.noted set).captureSwitch set none (some ⟨v, hv⟩)).putSet set fun x => { x with next := some ⟨v, hv⟩ } := by
  have hselect := select_idle hreplay none
  rw [hbest] at hselect
  unfold State.boundary
  rw [hold]
  dsimp only
  rw [if_neg (by decide), show ((s.noteSet set).setFloor set).select set none = _ from hselect]
  dsimp only
  rw [dif_pos hv, if_neg (by simp)]
  rfl

theorem noted_noted (set : Nat) (s : State) : Noted set s (s.noted set) := (noted_noteSet set s).trans (noted_setFloor set _)

theorem scheduled_captureSwitch (s : State) (set : Nat) (new : Option (Fin 512)) : (s.captureSwitch set none new).scheduled = s.scheduled := by
  unfold State.captureSwitch
  cases new with
  | none => rfl
  | some v => exact scheduled_capture ..

theorem holders_of_vds {s u : State} (h : s.vds = u.vds) (set : Nat) : s.holders set = u.holders set := by
  unfold State.holders
  rw [h]

/-- An idle set with a runnable device selects one whose pass is the smallest (R401). -/
theorem sliceBoundary_selects (hdefined : s.sets[set].defined = true) (hrunning : s.sets[set].running = none) (hnext : s.sets[set].next = none)
    (hheld : ∀ w ∈ s.holders set, w < 512 ∧ s.replaying w = false) (hany : (s.holders set).any s.isRunnable = true) :
    ∃ s' v dv, exec (.sliceBoundary set) s = .next s' ∧ s'.sets[set].next = some v ∧ s'.vdev? v = some dv ∧ dv.runnable = true ∧
      ∀ w ∈ s'.holders set, ∀ dw, s'.vdev? w = some dw → dw.runnable = true → dv.pass.toNat ≤ dw.pass.toNat := by
  rw [← vat_fin (d := ClSet.reset)] at hdefined hrunning hnext
  have hfirst := noted_noteSet set.val s
  have hnoted := hfirst.trans (noted_noted set.val (s.noteSet set))
  obtain ⟨w, hw, hrun⟩ := List.any_eq_true.mp hany
  have hrun' : (s.noteSet set).isRunnable w = true := (hfirst.isRunnable w).trans hrun
  have hw' : w ∈ (s.noteSet set).holders set := hfirst.holders ▸ hw
  have hstep : sliceStep s set = (s.noteSet set).boundary set := by
    have hmore : ((s.noteSet set).holders set).any (s.noteSet set).isRunnable = true := List.any_eq_true.mpr ⟨w, hw', hrun'⟩
    unfold sliceStep
    dsimp only
    rw [hdefined, if_neg (by decide), hnext, hrunning]
    exact if_pos hmore
  obtain ⟨dw, hdw, hcount⟩ : ((s.noteSet set).noted set).counts w := by
    obtain ⟨d, hd, hcount⟩ := counts_noteSet hrun' hw'
    exact ⟨d, (vdev?_setFloor ..).trans hd, hcount⟩
  generalize hu : (s.noteSet set).noted set = u at hnoted hdw
  have hmem : w ∈ u.countedIn set := mem_countedIn.mpr ⟨hnoted.holders ▸ hw, dw, hdw, hcount⟩
  have hbest := bestOf_minPass u (u.countedIn set)
  cases hmin : u.minPass (u.countedIn set) with
  | none =>
    rw [hmin] at hbest
    rw [hbest w hmem] at hdw
    cases hdw
  | some x =>
    rw [hmin] at hbest
    obtain ⟨hholds, dv, hdv, hcounted⟩ := mem_countedIn.mp hbest.mem
    obtain ⟨hlt, -⟩ := hheld x.1 (hnoted.holders ▸ hholds)
    have hidle : (vat (s.noteSet set).sets set ClSet.reset).running = none := (congrArg ClSet.running hfirst.set :).trans hrunning
    have hreplay : ∀ w ∈ u.holders set, u.replaying w = false := fun w hw =>
      (hnoted.replaying w).trans (hheld w (hnoted.holders ▸ hw)).2
    have hboundary := boundary_idle (s := s.noteSet set) hidle (by rwa [hu]) hlt (by rw [hu, hmin]; rfl)
    rw [hu] at hboundary
    have hsched := Prod.mk.inj (Prod.mk.inj (scheduled_captureSwitch u set (some ⟨x.1, hlt⟩))).2
    generalize u.captureSwitch set none (some ⟨x.1, hlt⟩) = z at hboundary hsched
    have hvdev : ∀ w, (z.putSet set fun y => { y with next := some ⟨x.1, hlt⟩ }).vdev? w = u.vdev? w := fun w => vdev?_of_vds hsched.1 w
    refine ⟨_, ⟨x.1, hlt⟩, dv, congrArg Host.Outcome.next (hstep.trans hboundary), ?_, (hvdev _).trans hdv, hcounted, fun w hw dw hdw hrunnable => ?_⟩
    · rw [← vat_fin (d := ClSet.reset)]
      unfold State.putSet
      dsimp only
      rw [vat_vput, if_pos ⟨rfl, set.isLt⟩]
    · rw [hvdev] at hdw
      obtain ⟨dx, hdx, hpass⟩ := hbest.pass
      rw [hdv] at hdx
      cases hdx
      rw [hpass]
      refine hbest.least w (mem_countedIn.mpr ⟨?_, dw, hdw, hrunnable⟩) dw hdw
      rwa [← holders_of_vds (s := z.putSet set fun y => { y with next := some ⟨x.1, hlt⟩ }) hsched.1]

/-- A switch that is over gives the set to the incoming device (R402). -/
theorem sliceBoundary_switched {v : Fin 512} (hdefined : s.sets[set].defined = true) (hnext : s.sets[set].next = some v) (hnone : s.holders set = [])
    (hdone : s.switchDone set v = true) :
    ∃ s', exec (.sliceBoundary set) s = .next s' ∧ s'.sets[set].running = some v ∧ s'.sets[set].next = none ∧
      s'.sets[set].sliceStart = s.ioClk := by
  rw [← vat_fin (d := ClSet.reset)] at hdefined hnext
  have hnote : s.noteSet set = s := by
    unfold State.noteSet
    rw [hnone, List.foldl_nil]
  have hrun : sliceStep s set = s.putSet set fun x => { x with running := some v, next := none, sliceStart := s.ioClk } := by
    unfold sliceStep
    dsimp only
    rw [hdefined, if_neg (by decide), hnote, hnext]
    exact if_pos hdone
  have hset : (s.putSet set fun x => { x with running := some v, next := none, sliceStart := s.ioClk }).sets[set] =
      { vat s.sets set ClSet.reset with running := some v, next := none, sliceStart := s.ioClk } := by
    rw [← vat_fin (d := ClSet.reset)]
    unfold State.putSet
    dsimp only
    rw [vat_vput, if_pos ⟨rfl, set.isLt⟩]
  refine ⟨_, congrArg Host.Outcome.next hrun, ?_, ?_, ?_⟩
  · rw [hset]
  · rw [hset]
  · rw [hset]

end

/-! ### O38 -/

/-- Settles O38. What leaves a core changes in its queues and its courses alone (`State.bodies`); a boundary's notes leave every runnable device
counted, and the fold of `minPass` keeps the least (`BestOf`). -/
theorem evictionSteps : Obligations.EvictionSteps := by
  refine ⟨?_, ?_, ?_, ?_, ?_, ?_⟩
  · intro s core v need c t k _ hpark hfree hnext ht hk hres hdrained hops _ _ _
    exact partialEviction_ok hpark hfree hnext ht hk hres hdrained hops
  · intro s c t k ht hk hpark
    exact courseUnpark_ok ht hk hpark
  · intro s tn t ht hevict hon halone hleave hproven hops _
    exact fullEviction_ok ht hevict hon halone hleave hproven hops
  · intro s tn core c0 t d ht hplace hserved hlive halone hunparking hreplay hspan hhandler hd hpick
    exact trussRestore_ok ht hplace hserved hlive halone hunparking hreplay hspan hhandler hd hpick
  · intro s set hdefined hrunning hnext hheld hany
    exact sliceBoundary_selects hdefined hrunning hnext hheld hany
  · intro s set v hdefined _ hnext hnone hdone
    exact sliceBoundary_switched hdefined hnext hnone hdone

end Sys2Proof.Machine
end

section
/-!
PROOFS. What engines and their resets leave of the kills, the clock, the owners of trusses and the active devices (17 R408, R409, R415).
-/
namespace Sys2Proof.Machine

/-! ### What is watched -/

/-- Whose truss it is. -/
def Truss.ident (t : Truss) : Bool × Fin 512 := (t.kernelMode, t.vd)

/-- The kills under way, the clock, whose the trusses are, and which devices are active. -/
def State.watched (s : State) : List Kill × Nat × List (Bool × Fin 512) × (Nat → Bool) := (s.kills, s.clk, s.trusses.map Truss.ident, s.active)

/-- What is watched is `w`. -/
def Watched (w : List Kill × Nat × List (Bool × Fin 512) × (Nat → Bool)) (s : State) : Prop := s.watched = w

section
variable {w : List Kill × Nat × List (Bool × Fin 512) × (Nat → Bool)} {s : State}

theorem watched_foldl {α : Type} {f : State → α → State} (hf : ∀ s x, Watched w s → Watched w (f s x)) (xs : List α) (h : Watched w s) :
    Watched w (xs.foldl f s) := by
  induction xs generalizing s with
  | nil => exact h
  | cons x xs ih => exact ih (hf s x h)

theorem ident_modify (ts : List Truss) (n : Nat) {f : Truss → Truss} (hf : ∀ t, (f t).ident = t.ident) :
    (ts.modify n f).map Truss.ident = ts.map Truss.ident := List.map_modify_of ts n f Truss.ident hf

theorem watched_modTruss (h : Watched w s) (n : Nat) {f : Truss → Truss} (hf : ∀ t, (f t).ident = t.ident) : Watched w (s.modTruss n f) := by
  unfold Watched State.watched State.modTruss at *
  rw [← h, ident_modify _ _ hf]
  rfl

theorem watched_modCourse (h : Watched w s) (c : CRef) (f : Course → Course) : Watched w (s.modCourse c f) :=
  watched_modTruss h c.truss fun _ => rfl

theorem watched_modVdev (h : Watched w s) (v : Nat) {f : VDev → VDev} (hv : ∀ d, (f d).v = d.v) (hmode : ∀ d, (f d).mode = d.mode) :
    Watched w (s.modVdev v f) := by
  have hactive : (s.modVdev v f).active = s.active := by
    funext u
    unfold State.active
    rw [vdev?_modVdev]
    by_cases hu : u = v
    · rw [if_pos hu, hu]
      cases s.vdev? v with
      | none => rfl
      | some d =>
        dsimp only [Option.map_some]
        rw [hv, hmode]
    · rw [if_neg hu]
  unfold Watched at *
  rw [← h]
  unfold State.watched
  rw [hactive]
  unfold State.modVdev
  split <;> rfl

theorem watched_addShare (h : Watched w s) (vd m n : Nat) : Watched w (s.addShare vd m n) := watched_modVdev h vd (fun _ => rfl) fun _ => rfl

/-! ### Translations and the memories -/

theorem unmetered?_readTables (s : State) (space va v : Nat) : (s.readTables space va).unmetered? v = s.unmetered? v :=
  foldl_keeps _ (State.unmetered? · v) (fun s _ => unmetered?_touchLine s ..) _ s

theorem unmetered?_withMem (s : State) (m : Mem) (v : Nat) : (s.withMem m).unmetered? v = s.unmetered? v := rfl

theorem unmetered?_markLeaf (s : State) (vd mask : Nat) (l : Leaf) (v : Nat) : (s.markLeaf vd mask l).unmetered? v = s.unmetered? v := by
  rw [markLeaf_eq]
  split
  · rfl
  · rw [unmetered?_withMem, unmetered?_touchLine]

theorem unmetered?_markWalk (s : State) (vd : Nat) (x : Walked) (want : Want) (v : Nat) : (s.markWalk vd x want).unmetered? v = s.unmetered? v := by
  have hleaves : ∀ mask (ls : List Leaf) (s : State), (ls.foldl (State.markLeaf · vd mask ·) s).unmetered? v = s.unmetered? v :=
    fun mask ls s => foldl_keeps (fun s l => s.markLeaf vd mask l) (State.unmetered? · v) (fun s l => unmetered?_markLeaf s vd mask l v) ls s
  unfold State.markWalk
  exact (hleaves ..).trans (hleaves ..)

theorem unmetered?_withTlbs (s : State) (ts : List TlbEntry) (v : Nat) : (s.withTlbs ts).unmetered? v = s.unmetered? v := rfl

theorem unmetered?_walked (s : State) (space va : Nat) (want : Want) (fill : State → TlbEntry → List TlbEntry) (v : Nat) :
    (s.walked space va want fill).1.unmetered? v = s.unmetered? v := by
  unfold State.walked
  split
  · exact unmetered?_readTables ..
  · dsimp only
    rw [unmetered?_withTlbs, unmetered?_markWalk, unmetered?_readTables]

theorem unmetered?_translate (s : State) (core : Option Nat) (space va : Nat) (want : Want) (v : Nat) :
    (s.translate core space va want).1.unmetered? v = s.unmetered? v := by
  cases core with
  | none =>
    rw [translate_none]
    exact unmetered?_walked ..
  | some c =>
    have hcount : (s.countEvent c 6 1).unmetered? v = s.unmetered? v := (Quiet.countEvent s c 6 1).2 v
    rw [translate_some]
    split
    · rfl
    · split
      · exact (unmetered?_withTlbs ..).trans hcount
      · exact (unmetered?_walked ..).trans hcount

theorem unmetered?_noteFault (s : State) (ag : Agent) (space : Nat) (stage2 paging : Bool) (addr detail v : Nat) :
    (s.noteFault ag space stage2 paging addr detail).unmetered? v = s.unmetered? v := by
  unfold State.noteFault
  split <;> rfl

theorem unmetered?_of_noEvents {s u : State} (h : s.noEvents = u.noEvents) (v : Nat) : s.unmetered? v = u.unmetered? v := by
  have hunmetered := congrArg (State.unmetered? · v) h
  exact hunmetered

theorem unmetered?_reach (s : State) (ag : Agent) (space va : Nat) (want : Want) (v : Nat) :
    (s.reach ag space va want).1.unmetered? v = s.unmetered? v := by
  have htranslate := unmetered?_translate s (if ag.core < 192 then some ag.core else none) space va want v
  unfold State.reach
  split
  all_goals rename_i heq; rw [heq] at htranslate
  · exact htranslate
  · exact (unmetered?_noteFault ..).trans htranslate
  · exact (unmetered?_noteFault ..).trans htranslate
  · exact (unmetered?_noteFault ..).trans htranslate
  · exact htranslate
  · exact (unmetered?_of_noEvents (postEvent_noEvents ..) v).trans htranslate

theorem watched_of_noStore {s u : State} (h : s.noStore = u.noStore) (hdev : ∀ v, s.unmetered? v = u.unmetered? v) : s.watched = u.watched := by
  have hkills : s.kills = u.kills := (congrArg State.kills h :)
  have hclk : s.clk = u.clk := (congrArg State.clk h :)
  have hident : ∀ t : State, t.noStore.trusses.map Truss.ident = t.trusses.map Truss.ident := by
    intro t
    have hpend : t.noStore.trusses = t.trusses.map Truss.noPend := rfl
    rw [hpend, List.map_map]
    rfl
  have hactive : s.active = u.active := by
    have hof : ∀ (t : State) (v : Nat), t.active v = match t.unmetered? v with | some d => d.v && d.mode.toNat < 4 | none => false := by
      intro t v
      unfold State.active State.unmetered?
      cases t.vdev? v <;> rfl
    funext v
    rw [hof, hof, hdev]
  unfold State.watched
  rw [hkills, hclk, ← hident s, h, hident u, hactive]

theorem storePart_ident (u : Truss) (p : Part) (poison : Bool) (whole : Nat → Bool) : (u.storePart p poison whole).ident = u.ident := rfl

theorem testBar_ident (t : Truss) (b : Fin 16) : (t.testBar b).ident = t.ident := by
  unfold Truss.testBar
  dsimp only
  split <;> rfl

theorem landBytes_ident (t : Truss) (b : Fin 16) (n : Nat) : (t.landBytes b n).ident = t.ident := by
  unfold Truss.landBytes
  split
  · exact testBar_ident ..
  · rfl

theorem engineFrame_watched : EngineFrame State.watched where
  reach s ag space va want := watched_of_noStore (noStore_of_noReach (reach_noReach s ag space va want)) fun v => unmetered?_reach s ag space va want v
  touchRange s vd a n x := watched_of_noStore (noStore_of_noReach (touchRange_noReach ..)) fun v => unmetered?_touchRange s vd a n x v
  putBank s vd host pa n b := watched_of_noStore (putBank_noStore ..) fun v => unmetered?_putBank s vd host pa n b v
  l1Drop _ _ _ := rfl
  cleanWord s host x := by cases host <;> rfl
  storePart s n p poison whole := watched_modTruss (w := s.watched) rfl n fun t => storePart_ident t p poison whole
  landBytes s n b k := watched_modTruss (w := s.watched) rfl n fun t => landBytes_ident t b k

/-! ### Entries that end (R323) -/

theorem ident_modQueue (t : Truss) (q : QSel) (f : List QEntry → List QEntry) : (t.modQueue q f).ident = t.ident := by
  cases q <;> rfl

theorem ident_of_noQueues {t u : Truss} (h : t.noQueues = u.noQueues) : t.ident = u.ident := by
  have hident := congrArg Truss.ident h
  exact hident

theorem ident_refill (t : Truss) : t.refill.ident = t.ident := by
  unfold Truss.refill
  split
  · rfl
  · exact ident_of_noQueues (noQueues_reissue ..)

theorem ident_without (t : Truss) (q : QSel) (id : Nat) : (t.without q id).ident = t.ident := by
  unfold Truss.without
  rw [ident_refill, ident_of_noQueues (noQueues_passFences ..), ident_modQueue]

theorem watched_dropEntries (h : Watched w s) (tn : Nat) (sel : QEntry → Bool) : Watched w (s.dropEntries tn sel) := by
  unfold State.dropEntries
  split
  · exact h
  · extract_lets busy s1
    have h1 : Watched w s1 := by
      unfold s1
      split
      · exact h
      · exact h
    refine watched_modTruss h1 tn fun t => ?_
    rw [ident_refill]
    exact ident_of_noQueues (noQueues_passFences ..)

theorem watched_dropQueue (h : Watched w s) (c : CRef) (q : QSel) : Watched w (s.dropQueue c q) := by
  unfold State.dropQueue
  split
  · exact watched_dropEntries h ..
  · exact h

end

end Sys2Proof.Machine
end

section
/-!
PROOFS. What the drains of a course's kill and the resets of late engines leave (17 R408, R409, R415; 18 R431).
-/
namespace Sys2Proof.Machine

section
variable {w : List Kill × Nat × List (Bool × Fin 512) × (Nat → Bool)} {s : State}

/-! ### Transfers that end (R430, R431) -/

theorem watched_endNet (h : Watched w s) (truss entry : Nat) (st : BitVec 8) : Watched w (s.endNet truss entry st) := by
  unfold State.endNet
  split
  · exact watched_modCourse (watched_modTruss h truss fun t => ident_without t _ _) _ _
  · exact h

/-- A transfer is no more. -/
def State.withoutTransfer (s : State) (xid : W32) : State :=
  { s with outgoing := s.outgoing.filter fun o => o.xid != xid, gathers := s.gathers.filter fun g => g.xid != xid }

theorem watched_endOutgoing (h : Watched w s) (xid : W32) (st : BitVec 8) : Watched w (s.endOutgoing xid st) := by
  unfold State.endOutgoing
  split
  · extract_lets s1
    have h1 : Watched w s1 := by
      unfold s1
      split
      · split
        · exact h
        · exact h
      · exact h
    have h2 : Watched w (s1.withoutTransfer xid) := h1
    exact watched_endNet h2 ..
  · exact h

/-! ### Flits that are sent -/

theorem watched_pumpLink (h : Watched w s) (n : Nat) (g : Link → Link) : Watched w (s.pumpLink n g) := by
  have h1 : Watched w (s.modLink n fun _ => (g (s.link n)).pump) := h
  exact watched_foldl (fun _ _ h => watched_addShare h ..) _ h1

/-- A flit that is routed, and an answer to one that was lost, by the bound on answers to answers. -/
theorem watched_route (n : Nat) : (∀ (s : State) (o : OutFlit), Watched w s → Watched w (s.routeFlit o n)) ∧
    (∀ (s : State) (os : List OutFlit), Watched w s → Watched w (s.routeAll os n)) := by
  induction n with
  | zero => exact ⟨fun s o h => by unfold State.routeFlit; exact h, fun s os h => by unfold State.routeAll; exact h⟩
  | succ n ih =>
    obtain ⟨ihf, iha⟩ := ih
    refine ⟨fun s o h => ?_, fun s os h => ?_⟩
    · unfold State.routeFlit
      dsimp only
      split
      · split
        · exact h
        · split
          · split
            · exact watched_endOutgoing h ..
            · exact h
          · split
            · next x _ =>
              have h1 : Watched w ({ s with forwards := s.forwards.filter fun y => !y.is o.f } : State) := h
              split
              · exact iha _ _ h1
              · exact h1
            · exact h
      · exact watched_pumpLink h ..
    · unfold State.routeAll
      exact watched_foldl (fun s o h => ihf s o h) os h

theorem watched_sendTransfer (h : Watched w s) (x : Transfer) (mine : Bool) : Watched w (s.sendTransfer x mine) := by
  unfold State.sendTransfer
  split
  · exact h
  · exact (watched_route 4).2 s _ h

theorem watched_sendDone (h : Watched w s) (x : Transfer) (st : BitVec 8) : Watched w (s.sendDone x st) := watched_sendTransfer h ..

theorem watched_returnOwed (h : Watched w s) (i : Inbound) : Watched w (s.returnOwed i) := by
  unfold State.returnOwed
  split
  · exact h
  · exact h

theorem watched_dropInbounds (h : Watched w s) (p : Inbound → Bool) : Watched w (s.dropInbounds p) := by
  rw [dropInbounds_eq]
  exact watched_foldl (fun _ _ h => watched_returnOwed h ..) (s.inbound.filter p) h

theorem watched_freeGroup (h : Watched w s) (g : Nat) : Watched w (s.freeGroup g) := by
  have h1 : Watched w (s.noChunks g) := h
  rw [freeGroup_eq]
  exact watched_foldl (fun _ _ h => watched_sendDone h ..) _ (watched_dropInbounds h1 _)

/-- What is not yet on the light of a transfer goes no further. -/
def State.unsentGone (s : State) (o : Outgoing) : State :=
  { s with
    outgoing := s.outgoing.filter fun p => p.xid != o.xid,
    gathers := s.gathers.filter fun g => g.xid != o.xid,
    xmit := s.xmit.filter fun f => !(f.mine && f.f.xid == o.xid),
    links := s.links.map fun (l : Link) => { l with pend := l.pend.filter fun f => !(f.mine && f.f.xid == o.xid) } }

/-- A contributor has contributed nothing. -/
def State.withoutContribs (s : State) (srcEp : BitVec 16) (xid : W32) : State :=
  { s with contribs := s.contribs.filter fun y => !(y.srcEp == srcEp && y.xid == xid),
           contribStats := s.contribStats.filter fun y => !(y.srcEp == srcEp && y.xid == xid) }

theorem watched_dropTransfer (h : Watched w s) (o : Outgoing) : Watched w (s.dropTransfer o) := by
  have h1 := watched_dropInbounds h fun i => i.x.kind == .contrib && i.x.srcEp == s.ownEp o.vd && i.x.xid == o.xid
  unfold State.dropTransfer
  generalize (s.dropInbounds fun i => i.x.kind == .contrib && i.x.srcEp == s.ownEp o.vd && i.x.xid == o.xid) = u at h1
  have h2 : Watched w (u.unsentGone o) := h1
  dsimp only
  split
  · next x _ =>
    have h3 : Watched w ((u.unsentGone o).withoutContribs x.srcEp x.xid) := h2
    exact watched_freeGroup h3 _
  · exact h2

/-! ### The engines' parts of a drain (R409) -/

theorem watched_copyRun (h : Watched w s) (tn : Nat) (e : QEntry) (n : Nat) : Watched w (s.copyRun tn e n).1 :=
  (copyRun_frame engineFrame_watched tn n s e).1.trans h

theorem watched_finishLine (h : Watched w s) (tn : Nat) (e : QEntry) (n : Nat) : Watched w (s.finishLine tn e n) := by
  induction n generalizing s e with
  | zero => exact h
  | succ n ih =>
    unfold State.finishLine
    split
    · split
      · exact h
      · have hrun := watched_copyRun h tn e 1
        split
        next u e' heq =>
          rw [heq] at hrun
          exact ih hrun e'
    · exact h

theorem watched_drainCopy (h : Watched w s) (cs : List CRef) : Watched w (s.drainCopy cs) := by
  refine watched_foldl (fun s c h => watched_dropQueue ?_ ..) cs h
  split
  · split
    · exact watched_finishLine h ..
    · exact h
  · exact h

theorem ident_modTile (t : Truss) (n : Nat) (f : Tile → Tile) : (t.modTile n f).ident = t.ident := rfl

theorem ident_foldl {α : Type} {f : Truss → α → Truss} (hf : ∀ t x, (f t x).ident = t.ident) (xs : List α) (t : Truss) :
    (xs.foldl f t).ident = t.ident := by
  induction xs generalizing t with
  | nil => rfl
  | cons x xs ih => exact (ih _).trans (hf t x)

theorem watched_drainMatrix (h : Watched w s) (cs : List CRef) : Watched w (s.drainMatrix cs) := by
  refine watched_foldl (fun s c h => watched_dropQueue (watched_modTruss h c.truss fun t => ?_) ..) cs h
  exact ident_foldl (fun t (e : QEntry) => ident_foldl (fun t n => ident_modTile t n _) e.body.tiles t) _ t

theorem watched_drainNetwork (h : Watched w s) (cs : List CRef) : Watched w (s.drainNetwork cs) := by
  refine watched_foldl (fun s c h => ?_) cs h
  split
  · exact watched_dropQueue (watched_foldl (fun _ _ h => watched_dropTransfer h _) _ h) ..
  · exact h

theorem watched_dropEarly (h : Watched w s) (c : CRef) (sel : Access → Bool) : Watched w (s.dropEarly c sel) := by
  refine watched_foldl (fun s p h => ?_) _ h
  split
  · split
    · exact h
    · exact h
  · exact h

theorem watched_settle (h : Watched w s) (a : Access) : Watched w (s.settle a) := by
  unfold State.settle
  split
  · exact h
  · extract_lets s1 fault s2 s3
    have h2 : Watched w s2 := by
      unfold s2
      split
      · split
        · exact h
        · exact h
      · exact h
    have h3 : Watched w s3 := h2
    exact watched_modCourse h3 ..

section
variable {k : Kill} {c : CRef} (hscope : k.scope = .course c)
include hscope

theorem device_of_course : k.device = none := by
  unfold Kill.device
  rw [hscope]

theorem watched_drainCore (h : Watched w s) (cs : List CRef) (force : Bool) : Watched w (s.drainCore k cs force).1 := by
  unfold State.drainCore
  rw [device_of_course hscope]
  extract_lets s1 s2 s3 s4
  have h1 : Watched w s1 := watched_foldl (fun _ _ h => watched_settle h _) _ h
  have h2 : Watched w s2 := by
    unfold s2
    split
    · exact watched_foldl (fun _ _ h => watched_dropEarly h ..) cs h1
    · exact h1
  have h3 : Watched w s3 := h2
  have h4 : Watched w s4 := watched_foldl (fun _ _ h => watched_modCourse h ..) cs h3
  exact h4

theorem watched_drainMatching (h : Watched w s) (cs : List CRef) : Watched w (s.drainMatching k cs) := by
  unfold State.drainMatching
  rw [device_of_course hscope]
  refine watched_foldl (fun s c h => ?_) cs h
  split
  · exact watched_modVdev h _ (fun _ => rfl) fun _ => rfl
  · exact h

/-- An engine's part of the drain of a course's kill. -/
theorem watched_drainEngine (h : Watched w s) (eng : Engine) (force : Bool) : Watched w (s.drainEngine k eng force).1 := by
  unfold State.drainEngine
  cases eng with
  | core => exact watched_drainCore hscope h ..
  | copy => exact watched_drainCopy h _
  | matrix => exact watched_drainMatrix h _
  | network => exact watched_drainNetwork h _
  | queueProcessor =>
    unfold State.drainQueues
    rw [device_of_course hscope]
    exact h
  | distributor =>
    unfold State.drainLaunches
    rw [hscope]
    exact h
  | pageMigration =>
    unfold State.drainPaging
    rw [device_of_course hscope]
    exact h
  | matching => exact watched_drainMatching hscope h _

end

/-! ### Engines that are reset (R415) -/

theorem watched_restartQueue (h : Watched w s) (core : Nat) (q : QSel) : Watched w (s.restartQueue core q) :=
  watched_foldl (fun _ n h => watched_modTruss h n fun t => ident_modQueue t q _) _ h

theorem watched_restartNetwork (h : Watched w s) (core : Nat) : Watched w (s.restartNetwork core) :=
  watched_foldl (fun _ n h => watched_modTruss h n fun t => ident_modQueue t .net _) _ h

/-- A core's accesses in flight are recorded as not performed, and its translations and fetched words are gone. -/
def State.coreRecalled (s : State) (core : Nat) (here : CRef → Bool) : State :=
  { s with
    accesses := s.accesses.map fun a => if here a.who then a.withdraw else a,
    proms := s.proms.map fun p => match p.who with | .course c .. => if here c then p.withdraw else p | .queue _ => p,
    icache := s.icache.filter fun x => x.core != core, tlbs := s.tlbs.filter fun e => !(e.first && e.unit == core) }

/-- A core's registers at reset. -/
def Core.registersReset (c : Core) : Core := { c with strkz := 0, mtint := 65536, ec := Vector.replicate 8 ⟨0, 0⟩, mcount := 0, fenced := 0 }

theorem resetCore_eq (s : State) (core : Nat) : s.resetCore core =
    (((((s.coursesWhere fun c _ => (s.onCoreIds core).contains c.truss).foldl (fun s c => s.dropEarly c fun _ => true) s).coreRecalled core
      fun c => (s.onCoreIds core).contains c.truss).invalidateL1 core).modCore core Core.registersReset) := rfl

theorem watched_coreRecalled (h : Watched w s) (core : Nat) (here : CRef → Bool) : Watched w (s.coreRecalled core here) := h

theorem watched_invalidateL1 (h : Watched w s) (core : Nat) : Watched w (s.invalidateL1 core) := h

theorem watched_modCore (h : Watched w s) (n : Nat) (f : Core → Core) : Watched w (s.modCore n f) := h

theorem watched_resetCore (h : Watched w s) (core : Nat) : Watched w (s.resetCore core) := by
  rw [resetCore_eq]
  have hdropped := watched_foldl (fun _ c h => watched_dropEarly h c fun _ => true) (s.coursesWhere fun c _ => (s.onCoreIds core).contains c.truss) h
  exact watched_modCore (watched_invalidateL1 (watched_coreRecalled hdropped ..) core) ..

theorem watched_resetEngine (h : Watched w s) (n kind : Nat) : Watched w (s.resetEngine n kind) := by
  unfold State.resetEngine
  split
  · exact watched_resetCore h n
  · exact watched_restartQueue h n .copy
  · exact watched_modCore (watched_restartQueue h n .mat) ..
  · exact watched_restartNetwork h n
  · exact h
  · exact h
  · exact h
  · exact h

theorem watched_postEvent (h : Watched w s) (kind die vdid extra : Nat) (w2 w3 : W64) : Watched w (s.postEvent kind die vdid extra w2 w3) := by
  have hwatched := congrArg State.watched (postEvent_noEvents s kind die vdid extra w2 w3)
  exact Eq.trans hwatched h

theorem watched_resetNoted (h : Watched w s) (n kind : Nat) : Watched w (s.resetNoted n kind) := watched_postEvent (watched_resetEngine h n kind) ..

end

end Sys2Proof.Machine
end

section
/-!
PROOFS. Engines report in the drain of a course's kill, by themselves or by a timeout (17 R406, R408, R409).
-/
namespace Sys2Proof.Machine

section
variable {s : State} {x : Kill} {c : CRef}

/-! ### The only kill -/

theorem killAt_single {st : KillStage} {sel : Kill → Bool} (honly : s.kills = [x]) (hst : x.stage = st) (hsel : sel x = true) :
    s.killAt st sel = some (0, x) := by
  unfold State.killAt
  rw [honly, List.zipIdx_cons, List.zipIdx_nil, List.find?_cons_of_pos]
  · rfl
  · rw [hst, hsel]
    cases st <;> rfl

theorem beginWaiting_single (honly : s.kills = [x]) (hst : x.stage = .drain) : s.beginWaiting = s := by
  unfold State.beginWaiting
  rw [honly, List.find?_cons_of_neg, List.find?_nil]
  rw [hst]
  decide

/-- A kill once an engine has reported. -/
def Kill.reportedBy (x : Kill) (eng : Engine) : Kill :=
  { x with drained := x.drained ++ [eng], stage := if allEngines.all (x.drained ++ [eng]).contains then .dump else x.stage }

section
variable {r : Nat × List (Bool × Fin 512) × (Nat → Bool)}

theorem watched_modKill (h : Watched ([x], r) s) (f : Kill → Kill) : Watched ([f x], r) (s.modKill 0 f) := by
  obtain ⟨hkills, hrest⟩ := Prod.mk.inj h
  have hmod : (s.modKill 0 f).kills = [f x] := by
    unfold State.modKill
    rw [hkills]
    rfl
  exact Prod.ext hmod hrest

theorem watched_linkFaults {w : List Kill × Nat × List (Bool × Fin 512) × (Nat → Bool)} (h : Watched w s) (cs : List CRef) :
    Watched w (s.linkFaults cs) := by
  refine watched_foldl (fun s c h => ?_) cs h
  split
  · exact watched_modCourse h ..
  · exact h

theorem watched_reported (h : Watched ([x], r) s) (eng : Engine) : Watched ([x.reportedBy eng], r) (s.reported 0 x eng) := by
  have hdrained := watched_modKill h fun k => { k with drained := x.drained ++ [eng] }
  unfold State.reported Kill.reportedBy
  dsimp only
  split
  · exact watched_modKill (watched_linkFaults hdrained _) fun k => { k with stage := .dump }
  · exact hdrained

end

theorem kills_of_watched {w : List Kill × Nat × List (Bool × Fin 512) × (Nat → Bool)} (h : Watched w s) : s.kills = w.1 := (congrArg (·.1) h :)

/-! ### An engine reports by itself (R409) -/

theorem drainStep_done {eng : Engine} (honly : s.kills = [x]) (hst : x.stage = .drain) (hopen : x.drained.contains eng = false)
    (hdone : (s.drainEngine x eng false).2 = true) : drainStep s eng = (s.drainEngine x eng false).1.reported 0 x eng := by
  have hat : s.killAt .drain (fun k => !k.drained.contains eng) = some (0, x) := by
    refine killAt_single honly hst ?_
    rw [hopen]
    rfl
  unfold drainStep
  dsimp only
  rw [beginWaiting_single honly hst, hat]
  dsimp only
  generalize s.drainEngine x eng false = r at hdone ⊢
  obtain ⟨u, b⟩ := r
  dsimp only at hdone
  rw [hdone]

/-- What a report leaves (R409). -/
theorem killDrain_reports {eng : Engine} (honly : s.kills = [x]) (hst : x.stage = .drain) (hopen : x.drained.contains eng = false)
    (hscope : x.scope = .course c) (hdone : (s.drainEngine x eng false).2 = true) :
    ∃ s' y, exec (.killDrain eng) s = .next s' ∧ s'.kills = [y] ∧ y.drained = x.drained ++ [eng] ∧ y.scope = x.scope ∧
      y.root = x.root ∧ y.stage = if allEngines.all (x.drained ++ [eng]).contains then .dump else .drain := by
  have hwatched : Watched ([x], s.clk, s.trusses.map Truss.ident, s.active) s := congrArg (·, s.clk, s.trusses.map Truss.ident, s.active) honly
  have hreported := watched_reported (watched_drainEngine hscope hwatched eng false) eng
  refine ⟨_, _, congrArg Host.Outcome.next (drainStep_done honly hst hopen hdone), kills_of_watched hreported, rfl, rfl, rfl, ?_⟩
  unfold Kill.reportedBy
  rw [hst]

theorem drainEngine_done {eng : Engine} (hcore : eng ≠ .core) (force : Bool) : (s.drainEngine x eng force).2 = true := by
  unfold State.drainEngine
  cases eng with
  | core => exact absurd rfl hcore
  | copy | matrix | network | queueProcessor | distributor | pageMigration | matching => rfl

/-- The accesses and the promise operations in flight. -/
def State.outstanding (s : State) : List Access × List PromOp := (s.accesses, s.proms)

theorem outstanding_modCourse (s : State) (c : CRef) (f : Course → Course) : (s.modCourse c f).outstanding = s.outstanding := rfl

/-- A core with nothing outstanding has drained. -/
theorem drainCore_done (hscope : x.scope = .course c) (haccesses : s.accesses = []) (hproms : s.proms = []) :
    (s.drainEngine x .core false).2 = true := by
  have hdrained : (s.drainCore x (s.killedOf x.scope) false).2 = true := by
    unfold State.drainCore
    rw [device_of_course hscope]
    extract_lets s1 s2 s3 s4
    have h1 : s1 = s := by
      unfold s1
      rw [haccesses]
      rfl
    have h2 : s2 = s := h1
    have h3 : s3.outstanding = ([], []) := by
      unfold s3 State.outstanding
      dsimp only
      rw [h2, haccesses, hproms]
      rfl
    have h4 : s4.outstanding = ([], []) := (foldl_keeps _ State.outstanding (fun s c => outstanding_modCourse s c _) _ s3).trans h3
    obtain ⟨hnone, hidle⟩ := Prod.mk.inj h4
    dsimp only
    rw [hnone, hidle]
    rfl
  exact hdrained

/-! ### An engine that is late (R406, R409) -/

theorem watched_advanceTo (s : State) (t : Nat) :
    Watched (s.kills, Nat.max s.clk t, s.trusses.map Truss.ident, s.active) (s.advanceTo t) := by
  have hkills : (s.advanceTo t).kills = s.kills := (congrArg State.kills (advanceTo_withoutCores s t) :)
  have hident : (s.advanceTo t).trusses.map Truss.ident = s.trusses.map Truss.ident := by
    unfold State.advanceTo
    dsimp only
    rw [List.map_map]
    rfl
  have hactive : (s.advanceTo t).active = s.active := funext fun v => active_of_vdev? (vdev?_advanceTo s t v)
  unfold Watched State.watched
  rw [hkills, hident, hactive, advanceTo_clk]

/-- The course's device once an engine was late. -/
theorem killOwner_course {t : Truss} {u : State} (hscope : x.scope = .course c) (ht : s.truss? c.truss = some t)
    (huser : t.kernelMode = false) (h : u.trusses.map Truss.ident = s.trusses.map Truss.ident) : u.killOwner x = some t.vd := by
  have hident : (u.truss? c.truss).map Truss.ident = some t.ident := by
    unfold State.truss? at ht ⊢
    rw [← List.getElem?_map, h, List.getElem?_map, ht]
    rfl
  obtain ⟨t', ht', hsame⟩ := Option.map_eq_some_iff.mp hident
  obtain ⟨hkernel, hvd⟩ := Prod.mk.inj hsame
  unfold State.killOwner
  rw [hscope]
  dsimp only
  rw [ht', Option.bind_some, hkernel, huser, if_neg (by decide), hvd]

/-- The state once a late engine is reset, and its part of the drain done. -/
def State.timedOut (s : State) (x : Kill) (eng : Engine) : State :=
  let u := s.advanceTo (x.began + 2 ^ 22)
  let u := (u.engineNumbers x eng).foldl (fun s m => s.resetNoted m (engineKind eng)) u
  (u.drainEngine x eng true).1.reported 0 x eng

theorem watched_timedOut (honly : s.kills = [x]) (hscope : x.scope = .course c) (eng : Engine) :
    Watched ([x.reportedBy eng], Nat.max s.clk (x.began + 2 ^ 22), s.trusses.map Truss.ident, s.active) (s.timedOut x eng) := by
  have hadvanced := watched_advanceTo s (x.began + 2 ^ 22)
  rw [honly] at hadvanced
  exact watched_reported (watched_drainEngine hscope (watched_foldl (fun _ m h => watched_resetNoted h m _) _ hadvanced) eng true) eng

theorem timeoutStep_eq {eng : Engine} {t : Truss} (honly : s.kills = [x]) (hst : x.stage = .drain) (hopen : x.drained.contains eng = false)
    (hscope : x.scope = .course c) (ht : s.truss? c.truss = some t) (huser : t.kernelMode = false) (escalate : Bool) :
    timeoutStep s eng escalate =
      if escalate && (s.timedOut x eng).active t.vd then (s.timedOut x eng).killDevice t.vd false false else s.timedOut x eng := by
  have hat : s.killAt .drain (fun k => !k.drained.contains eng) = some (0, x) := by
    refine killAt_single honly hst ?_
    rw [hopen]
    rfl
  have howner : (s.timedOut x eng).killOwner x = some t.vd :=
    killOwner_course hscope ht huser (congrArg (·.2.2.1) (watched_timedOut honly hscope eng) :)
  have heq : timeoutStep s eng escalate = match s.killAt .drain fun k => !k.drained.contains eng with
    | some (n, k) =>
      let u := s.advanceTo (k.began + 2 ^ 22)
      let u := (u.engineNumbers k eng).foldl (fun s m => s.resetNoted m (engineKind eng)) u
      let u := (u.drainEngine k eng true).1.reported n k eng
      match u.killOwner k with
      | some v => if escalate && u.active v then u.killDevice v false false else u
      | none => u
    | none => s := rfl
  rw [heq, hat]
  change (match (s.timedOut x eng).killOwner x with
    | some v => if escalate && (s.timedOut x eng).active v then (s.timedOut x eng).killDevice v false false else s.timedOut x eng
    | none => s.timedOut x eng) = _
  rw [howner]

theorem drainTimeout_reports {eng : Engine} {t : Truss} (honly : s.kills = [x]) (hst : x.stage = .drain) (hopen : x.drained.contains eng = false)
    (hscope : x.scope = .course c) (ht : s.truss? c.truss = some t) (huser : t.kernelMode = false) :
    ∃ s' y, exec (.drainTimeout ⟨eng, false⟩) s = .next s' ∧ s'.kills = [y] ∧ y.drained = x.drained ++ [eng] ∧ x.began + 2 ^ 22 ≤ s'.clk := by
  have hwatched := watched_timedOut honly hscope eng
  have hclk : (s.timedOut x eng).clk = Nat.max s.clk (x.began + 2 ^ 22) := (congrArg (·.2.1) hwatched :)
  refine ⟨_, _, congrArg Host.Outcome.next (timeoutStep_eq honly hst hopen hscope ht huser false), kills_of_watched hwatched, rfl, ?_⟩
  exact hclk ▸ Nat.le_max_right ..

theorem clk_killDevice (s : State) (v : Fin 512) (destroy mailbox : Bool) : (s.killDevice v destroy mailbox).clk = s.clk := by
  have hkilled := clk_of_noWork (killAll_noWork (s.drainBegun v) (.device v destroy) (s.drainBegun v).orderedCause)
  have hbegun : (s.drainBegun v).clk = s.clk := by
    have hgen : (s.drainBegun v).clk = ((s.modVdev v VDev.draining).heldGates v).clk :=
      (congrArg State.clk (raiseGen_noFlight ((s.modVdev v VDev.draining).heldGates v) v) :)
    have hdev : (s.modVdev v VDev.draining).clk = s.clk := (congrArg State.clk (modVdev_noFlight s v VDev.draining) :)
    exact hgen.trans hdev
  rw [killDevice_eq]
  exact hkilled.trans hbegun

/-- The supervisor cluster may escalate the drain to the device's work (R406). -/
theorem drainTimeout_escalates {eng : Engine} {t : Truss} (honly : s.kills = [x]) (hst : x.stage = .drain) (hopen : x.drained.contains eng = false)
    (hscope : x.scope = .course c) (ht : s.truss? c.truss = some t) (huser : t.kernelMode = false) (hact : s.active t.vd = true) :
    ∃ s' y z, exec (.drainTimeout ⟨eng, true⟩) s = .next s' ∧ s'.kills = [y, z] ∧ y.drained = x.drained ++ [eng] ∧
      x.began + 2 ^ 22 ≤ s'.clk ∧ z.scope = .device t.vd false ∧ z.stage = .drain := by
  have hwatched := watched_timedOut honly hscope eng
  have hclk : (s.timedOut x eng).clk = Nat.max s.clk (x.began + 2 ^ 22) := (congrArg (·.2.1) hwatched :)
  have hactive : (s.timedOut x eng).active t.vd = true := (congrFun (congrArg (·.2.2.2) hwatched :) t.vd.val).trans hact
  have hstep := timeoutStep_eq honly hst hopen hscope ht huser true
  rw [hactive, Bool.and_self, if_pos rfl] at hstep
  obtain ⟨d, hd⟩ : ∃ d, (s.timedOut x eng).vdev? t.vd = some d := by
    unfold State.active at hactive
    split at hactive
    · next d hd => exact ⟨d, hd⟩
    · cases hactive
  obtain ⟨-, z, -, -, -, hkills, hzscope, hzstage, -⟩ := killDevice_starts false false hd
  rw [kills_of_watched hwatched] at hkills
  refine ⟨_, _, z, congrArg Host.Outcome.next hstep, hkills, rfl, ?_, hzscope, hzstage⟩
  rw [clk_killDevice, hclk]
  exact Nat.le_max_right ..

end

end Sys2Proof.Machine
end

section
/-!
PROOFS. Kills of courses (02 R57; 09 R186; 17 R406, R412; 19 R445).
-/
namespace Sys2Proof.Machine

section
variable {s : State} {c : CRef} {t : Truss} {k : Course}

/-! ### The courses of a scope -/

theorem nodup_coursesWhere (s : State) (sel : CRef → Course → Bool) : (s.coursesWhere sel).Nodup := by
  unfold State.coursesWhere
  refine List.nodup_flatten.mpr ⟨fun l hl => ?_, ?_⟩
  · obtain ⟨n, -, rfl⟩ := List.mem_map.mp hl
    split
    · split
      · exact List.nodup_nil
      · refine List.nodup_range.filterMap fun i j d hi hj => ?_
        split at hi
        · split at hi
          · split at hj
            · split at hj
              · cases hi
                cases hj
                rfl
              · cases hj
            · cases hj
          · cases hi
        · cases hi
    · exact List.nodup_nil
  · refine List.Pairwise.map _ (fun n m hnm => ?_) List.nodup_range
    intro d hd hd'
    have htruss : ∀ i, d ∈ (match s.truss? i with
        | some t => if t.place = TrussPlace.gone then [] else (List.range t.courses.length).filterMap fun j => match t.courses[j]? with
            | some k => if sel ⟨i, j⟩ k then some (⟨i, j⟩ : CRef) else none
            | none => none
        | none => []) → d.truss = i := by
      intro i hi
      split at hi
      · split at hi
        · cases hi
        · obtain ⟨j, -, hj⟩ := List.mem_filterMap.mp hi
          split at hj
          · split at hj
            · cases hj
              rfl
            · cases hj
          · cases hj
      · cases hi
    exact hnm ((htruss n hd).symm.trans (htruss m hd'))

/-- The one course of a course's kill. -/
theorem coursesWhere_course {sel : CRef → Course → Bool} (ht : s.truss? c.truss = some t) (hk : t.courses[c.course]? = some k)
    (hplace : t.place ≠ .gone) (hsel : sel c k = true) (honly : ∀ d k, sel d k = true → d = c) : s.coursesWhere sel = [c] := by
  refine List.perm_singleton.mp ((List.perm_ext_iff_of_nodup (nodup_coursesWhere s sel) (List.nodup_singleton c)).mpr fun d => ?_)
  rw [List.mem_singleton]
  refine ⟨fun hd => ?_, fun hd => ?_⟩
  · obtain ⟨_, k', -, -, -, hd⟩ := mem_coursesWhere.mp hd
    exact honly d k' hd
  · rw [hd]
    exact mem_coursesWhere.mpr ⟨t, k, ht, hk, hplace, hsel⟩

theorem covers_course (s : State) (c d : CRef) : s.covers (.course c) d = (c == d) := rfl

theorem killedOf_course (ht : s.truss? c.truss = some t) (hk : t.courses[c.course]? = some k) (hplace : t.place ≠ .gone)
    (hkilled : k.cstate = .killed) : s.killedOf (.course c) = [c] := by
  refine coursesWhere_course ht hk hplace ?_ fun d k hd => ?_
  · rw [hkilled, covers_course, beq_self_eq_true, beq_self_eq_true]
    rfl
  · rw [covers_course] at hd
    exact (beq_iff_eq.mp ((Bool.and_eq_true _ _).mp hd).2).symm

/-! ### A course is killed (R57, R408) -/

/-- What the kill of a course makes of its state and its chain. -/
def Course.fate (k : Course) : CState × List Cause := (k.cstate, k.chain)

theorem keptByBars_fate : KeptByBars Course.fate := by
  refine ⟨fun _ _ _ => rfl, fun k => ?_⟩
  unfold Course.abandon
  dsimp only
  split <;> rfl

theorem killOne_fate (hk : t.courses[c.course]? = some k) (root : Cause) :
    ∃ k', (t.killOne c.course root).courses[c.course]? = some k' ∧ k'.cstate = .killed ∧ k'.chain = [root] := by
  have hmap : ((t.killOne c.course root).courses.map Course.fate)[c.course]? = some (.killed, [root]) := by
    rw [killOne_kept keptByBars_fate, List.getElem?_map, List.getElem?_modify, hk]
    simp [Course.killed, Course.fate]
  rw [List.getElem?_map] at hmap
  obtain ⟨k', hk', hfate⟩ := Option.map_eq_some_iff.mp hmap
  obtain ⟨hstate, hchain⟩ := Prod.mk.inj hfate
  exact ⟨k', hk', hstate, hchain⟩

theorem killOne_goneMask (t : Truss) {j : Nat} (hj : j < 16) (root : Cause) : (t.killOne j root).goneMask.getLsbD j = true := by
  unfold Truss.killOne Truss.markGone
  rw [testBars_goneMask]
  have hbit : (BitVec.ofNat 16 (2 ^ j)).getLsbD j = true := by
    rw [BitVec.getLsbD_ofNat, decide_eq_true hj, Nat.testBit_two_pow_self]
    rfl
  dsimp only
  rw [BitVec.getLsbD_or, hbit, Bool.or_true]

/-- A live course once its kill step is done. -/
theorem killStep_live (ht : s.truss? c.truss = some t) (hk : s.course? c = some k) (hlive : k.cstate = .resident) (root : Cause) :
    (s.killStep c root).truss? c.truss = some (t.killOne c.course root) ∧
      ∃ k', (s.killStep c root).course? c = some k' ∧ k'.cstate = .killed ∧ k'.chain = [root] := by
  have hstep : s.killStep c root = (s.modTruss c.truss (Truss.killOne · c.course root)).addShare t.space 8 1 := by
    rw [killStep_eq root ht hk, hlive, if_neg (by decide), if_neg (by decide)]
  have htruss : (s.killStep c root).truss? c.truss = some (t.killOne c.course root) := by
    rw [hstep, truss?_of_trusses (trusses_addShare ..), truss?_modTruss, if_pos rfl, ht]
    rfl
  have hcourse : t.courses[c.course]? = some k := by
    obtain ⟨t', ht', hk'⟩ := truss_of_course hk
    rw [ht] at ht'
    cases ht'
    exact hk'
  obtain ⟨k', hk', hfate⟩ := killOne_fate hcourse root
  exact ⟨htruss, k', course?_eq_some htruss hk', hfate⟩

/-! ### The supervisor cluster orders a kill (R406, R412) -/

theorem place_of_onCore (h : t.onCore = true) : t.place ≠ .gone := by
  intro hgone
  unfold Truss.onCore at h
  rw [hgone] at h
  cases h

theorem courses_of_course? (ht : s.truss? c.truss = some t) (hk : s.course? c = some k) : t.courses[c.course]? = some k := by
  obtain ⟨t', ht', hk'⟩ := truss_of_course hk
  rw [ht] at ht'
  cases ht'
  exact hk'

theorem killAll_course (ht : s.truss? c.truss = some t) (hk : s.course? c = some k) (hplace : t.place ≠ .gone) (hgone : k.gone = false)
    (root : Cause) : s.killAll (.course c) root = s.killStep c root := by
  have hscope : s.coursesWhere (fun d x => !x.gone && s.covers (.course c) d) = [c] := by
    refine coursesWhere_course ht (courses_of_course? ht hk) hplace ?_ fun d k hd => ?_
    · rw [hgone, covers_course, beq_self_eq_true]
      rfl
    · rw [covers_course] at hd
      exact (beq_iff_eq.mp ((Bool.and_eq_true _ _).mp hd).2).symm
  unfold State.killAll
  rw [hscope]
  rfl

theorem gone_of_resident (h : k.cstate = .resident) : k.gone = false := by
  unfold Course.gone
  rw [h]
  rfl

theorem courseKill_supervisor (ht : s.truss? c.truss = some t) (hk : s.course? c = some k) (hon : t.onCore = true) (hlive : k.cstate = .resident)
    (hnone : s.kills = []) : ∃ s' k' x, exec (.courseKill c .supervisor) s = .next s' ∧ s'.course? c = some k' ∧ k'.cstate = .killed ∧
      s'.kills = [x] ∧ x.scope = .course c ∧ x.stage = .drain ∧ k'.chain = [x.root] := by
  have hrun : courseKillStep s c .supervisor = s.startKill (.course c) false := by
    unfold courseKillStep
    rw [ht, hk]
    dsimp only
    rw [gone_of_resident hlive, decide_eq_false (place_of_onCore hon), if_neg (by decide)]
    rfl
  have hkills := startKill_kills s (.course c) false
  rw [hnone] at hkills
  obtain ⟨-, k', hk', hstate, hchain⟩ := killStep_live ht hk hlive s.orderedCause
  refine ⟨_, k', _, congrArg Host.Outcome.next hrun, ?_, hstate, hkills, rfl, rfl, hchain⟩
  unfold State.startKill
  rw [killAll_course ht hk (place_of_onCore hon) (gone_of_resident hlive)]
  exact hk'

/-! ### A kill whose reason holds (R50, R250, R437, R443, R445) -/

theorem causeRec_w0 (s : State) {code d : Nat} (hcode : code < 256) (agent core slot : Nat) (fpc faddr : W64) :
    (s.causeRec code d agent core slot fpc faddr).w0.truncate 16 = BitVec.ofNat 16 (code + d * 2 ^ 8) := by
  refine BitVec.eq_of_toNat_eq ?_
  unfold State.causeRec
  simp only [BitVec.truncate_eq_setWidth, BitVec.toNat_setWidth, BitVec.toNat_ofNat]
  omega

/-- The root of a course's kill. -/
def State.killRoot (s : State) (c : CRef) (k : Course) (cause : KillCause) (code d : Nat) : Cause :=
  if cause = .unguardedStrike then s.strikeCause c k else s.courseCause c code d (k.pc.zeroExtend 64) 0

theorem killRoot_w0 {cause : KillCause} {code d : Nat} (hcode : code < 256) (hstrike : cause = .unguardedStrike → (code, d) = (0x15, 2)) :
    (s.killRoot c k cause code d).w0.truncate 16 = BitVec.ofNat 16 (code + d * 2 ^ 8) := by
  unfold State.killRoot
  split
  · next h =>
    cases hstrike h
    exact causeRec_w0 s (by decide) ..
  · unfold State.courseCause
    split
    · exact causeRec_w0 s hcode ..
    · exact causeRec_w0 s hcode ..

theorem killRoot_w2 (cause : KillCause) (code d : Nat) : (s.killRoot c k cause code d).w2 = k.pc.zeroExtend 64 := by
  unfold State.killRoot
  split
  · rfl
  · unfold State.courseCause
    split
    · rfl
    · rfl

theorem courseKill_reason {cause : KillCause} {code d : Nat} {y : W64} (ht : s.truss? c.truss = some t) (hk : s.course? c = some k)
    (hon : t.onCore = true) (hlive : k.cstate = .resident) (hj : c.course < 16) (hnone : s.kills = [])
    (hreason : s.killReason t k cause = some (code, d, y)) (hcode : code < 256)
    (hstrike : cause = .unguardedStrike → (code, d) = (0x15, 2)) :
    ∃ s' u k' r x, exec (.courseKill c cause) s = .next s' ∧ s'.truss? c.truss = some u ∧ u.goneMask.getLsbD c.course = true ∧
      s'.course? c = some k' ∧ k'.cstate = .killed ∧ k'.chain = [r] ∧ r.w0.truncate 16 = BitVec.ofNat 16 (code + d * 2 ^ 8) ∧
      r.w2 = k.pc.zeroExtend 64 ∧ s'.kills = [x] ∧ x.scope = .course c ∧ x.stage = .drain ∧ x.root = r := by
  have hsup : cause ≠ .supervisor := by
    rintro rfl
    cases hreason
  have hrun : courseKillStep s c cause = (s.killStep c (s.killRoot c k cause code d)).pushCourseKill c (s.killRoot c k cause code d) := by
    have hkill : s.killCourse c (s.killRoot c k cause code d) =
        (s.killStep c (s.killRoot c k cause code d)).pushCourseKill c (s.killRoot c k cause code d) := by
      rw [killCourse_eq, hk]
      dsimp only
      rw [hlive, if_neg (by decide)]
    rw [← hkill]
    unfold courseKillStep
    rw [ht, hk]
    dsimp only
    rw [gone_of_resident hlive, decide_eq_false (place_of_onCore hon), if_neg (by decide), if_neg hsup, hreason]
    rfl
  obtain ⟨hu, k', hk', hstate, hchain⟩ := killStep_live ht hk hlive (s.killRoot c k cause code d)
  have hkills : (s.killStep c (s.killRoot c k cause code d)).kills = [] := (kills_of_noWork (killStep_noWork ..)).trans hnone
  refine ⟨_, _, k', s.killRoot c k cause code d, _, congrArg Host.Outcome.next hrun, hu, killOne_goneMask t hj _, hk', hstate, hchain,
    killRoot_w0 hcode hstrike, killRoot_w2 .., congrArg (· ++ [_]) hkills, rfl, rfl, rfl⟩

theorem killReason_poisonFetch {y : Nat} (h : k.fetch = .failed 0x15 y) : s.killReason t k .poisonFetch = some (0x15, 3, k.pc.zeroExtend 64) := by
  unfold State.killReason
  dsimp only
  rw [h]
  rfl

theorem killReason_poisonRead {o : TokOp} (ho : o ∈ k.ops) (hwait : o.wait = .nothing) (hfallen : o.fallen = false) (hpoison : o.poison = true)
    (hfault : o.fault = none) : s.killReason t k .poisonRead = some (0x15, 0, 0) := by
  refine if_pos (List.any_eq_true.mpr ⟨o, ho, ?_⟩)
  unfold TokOp.done
  rw [hwait, hfallen, hpoison, hfault]
  rfl

theorem killReason_noRegion (hpend : k.rollbackPend = true) (h : k.live = 0 ∨ k.tm = false ∧ (k.rgstate.getLsbD 63 = false ∨
    k.frames.length < bits k.rgstate.toNat 40 38 ∨ k.div.length < bits k.rgstate.toNat 37 32)) : s.killReason t k .noRegion = some (0x15, 1, 0) := by
  refine if_pos ?_
  unfold Course.rgV Course.tdepth Course.ddepth
  rw [hpend, Bool.true_and]
  obtain hlive | ⟨htm, hregion⟩ := h
  · rw [hlive]
    rfl
  · simp only [htm, Bool.or_eq_true, Bool.and_eq_true, Bool.not_eq_true', decide_eq_true_eq, or_assoc]
    exact Or.inr ⟨trivial, hregion⟩

theorem killReason_strike (hguard : t.items.guarded = false)
    (h : ∃ e ∈ k.recent, s.inWindow e.1 = true ∧ (s.core (e.2 / 4)).strkz.getLsbD (e.2 % 4) = true) :
    s.killReason t k .unguardedStrike = some (0x15, 2, 0) := by
  obtain ⟨e, he, hwindow, hstrike⟩ := h
  have hany : (k.recent.any fun x => s.inWindow x.1 && (s.core (x.2 / 4)).strkz.getLsbD (x.2 % 4)) = true := by
    refine List.any_eq_true.mpr ⟨e, he, ?_⟩
    rw [hwindow, hstrike]
    rfl
  refine if_pos ?_
  rw [hguard, hany]
  rfl

theorem killReason_frames {c0 d0 : Nat} (h : k.fetch = .failed c0 d0) (hframes : 4 ≤ k.frames.length) :
    s.killReason t k (.trapOverflow c0 d0) = some (0x19, 0, 0) := by
  unfold State.killReason
  dsimp only
  rw [if_neg (not_not_intro h)]
  exact if_pos hframes

theorem killReason_handler {c0 d0 : Nat} (h : k.fetch = .failed c0 d0) (hframes : k.frames.length < 4) (hhandler : t.items.handler = 0) :
    s.killReason t k (.trapOverflow c0 d0) = some (c0, d0, 0) := by
  unfold State.killReason
  dsimp only
  rw [if_neg (not_not_intro h), if_neg (show ¬ Config.trapCap ≤ k.frames.length from Nat.not_le.mpr hframes), if_pos hhandler]

end

end Sys2Proof.Machine
end

section
/-!
PROOFS. The dump of a killed course (17 R411).
-/
namespace Sys2Proof.Machine

section
variable {s : State} {c : CRef} {t : Truss} {k : Course} {d : VDev} {v : Nat}

/-! ### What a dump keeps -/

/-- The kills, a course, and what a device's dump area counts. -/
def State.dumping (s : State) (c : CRef) (v : Nat) : List Kill × Option Course × Option (W32 × List W32) :=
  (s.kills, s.course? c, (s.vdev? v).map fun d => (d.dumps, d.chainSlots))

theorem dumping_modVdev (s : State) (c : CRef) (v u : Nat) {f : VDev → VDev} (hf : ∀ d, ((f d).dumps, (f d).chainSlots) = (d.dumps, d.chainSlots)) :
    (s.modVdev u f).dumping c v = s.dumping c v := by
  have hkills : (s.modVdev u f).kills = s.kills := by
    unfold State.modVdev
    split <;> rfl
  have hcourse : (s.modVdev u f).course? c = s.course? c := course?_of_bodies (bodies_modVdev ..) c
  have hdev : ((s.modVdev u f).vdev? v).map (fun d => (d.dumps, d.chainSlots)) = (s.vdev? v).map fun d => (d.dumps, d.chainSlots) := by
    rw [vdev?_modVdev]
    by_cases hv : v = u
    · rw [if_pos hv, hv]
      cases s.vdev? u with
      | none => rfl
      | some d => exact congrArg some (hf d)
    · rw [if_neg hv]
  unfold State.dumping
  rw [hkills, hcourse, hdev]

theorem dumping_putImage (s : State) (a : Nat) (i : Image) (c : CRef) (v : Nat) : (s.putImage a i).dumping c v = s.dumping c v := rfl

theorem dumping_dumpSlot (s : State) (u : Nat) (d : VDev) (i : Image) (c : CRef) (v : Nat) : (s.dumpSlot u d i).dumping c v = s.dumping c v := by
  unfold State.dumpSlot
  refine (dumping_modVdev _ c v u ?_).trans (dumping_putImage s (d.slotAddr d.dumpNext) i c v)
  exact fun _ => rfl

theorem dumping_modTruss (s : State) (n : Nat) {f : Truss → Truss} (hf : ∀ t, (f t).courses = t.courses) (c : CRef) (v : Nat) :
    (s.modTruss n f).dumping c v = s.dumping c v := by
  have hof : ∀ u : State, u.course? c = ((u.trusses.map Truss.courses)[c.truss]?).bind (·[c.course]?) := by
    intro u
    unfold State.course?
    rw [List.getElem?_map]
    cases u.trusses[c.truss]? <;> rfl
  have hcourses : (s.modTruss n f).trusses.map Truss.courses = s.trusses.map Truss.courses := List.map_modify_of s.trusses n f Truss.courses hf
  have hcourse : (s.modTruss n f).course? c = s.course? c := by
    rw [hof, hof, hcourses]
  exact congrArg (fun x => (s.kills, x, (s.vdev? v).map fun d => (d.dumps, d.chainSlots))) hcourse

theorem dumping_dumpTruss (u n : Nat) (s : State) (i : Image) (c : CRef) (v : Nat) : (s.dumpTruss u n i).dumping c v = s.dumping c v := by
  induction n generalizing s i with
  | zero => rfl
  | succ n ih =>
    unfold State.dumpTruss
    split
    · rfl
    · split
      · split
        · exact dumping_modVdev s c v u fun _ => rfl
        · exact (ih _ _).trans (dumping_dumpSlot ..)
      · rfl

/-! ### A killed course is dumped -/

/-- The chain of a course is spent. -/
def State.chainSpent (s : State) (c : CRef) : State := s.modCourse c fun k => { k with chain := [] }

/-- A device has one dump more. -/
def State.counted (s : State) (v : Nat) : State := s.modVdev v fun d => { d with dumps := d.dumps + 1 }

/-- The chain of a course lies in a slot. -/
def State.chainIn (s : State) (v : Nat) (n : W32) : State := s.modVdev v fun d => { d with chainSlots := d.chainSlots ++ [n] }

/-- The course with the count that was left of its `dly`. -/
def State.dumpedCourse (s : State) (c : CRef) (t : Truss) (k : Course) : Course :=
  if s.imaged c || !t.onCore then k else { k with hold := k.hold.leave s.clk }

theorem dumpCourse_eq (ht : s.truss? c.truss = some t) (hk : s.course? c = some k) (hchain : k.chain ≠ []) (hd : s.vdev? t.vd = some d) :
    s.dumpCourse c =
      if d.dumpRoom = 0 then
        match d.chainPlace with
        | some n => (((((s.chainSpent c).counted t.vd).modVdev t.vd fun d => { d with dumpTrunc := true }).supWrite (d.slotAddr n)
            (chainBytes k.chain)).chainIn t.vd n, some n)
        | none => (((s.chainSpent c).counted t.vd).modVdev t.vd fun d => { d with dumpTrunc := true }, none)
      else if t.dumped then
        ((((s.chainSpent c).counted t.vd).dumpSlot t.vd d (Image.join ⟨chainBytes k.chain, []⟩ (((s.chainSpent c).dumpedCourse c t k).image t c.course))).chainIn
          t.vd d.dumpNext, some d.dumpNext)
      else
        ((((((s.chainSpent c).counted t.vd).dumpSlot t.vd d (Image.join ⟨chainBytes k.chain, []⟩
          (((s.chainSpent c).dumpedCourse c t k).image t c.course))).chainIn t.vd d.dumpNext).modTruss c.truss fun t => { t with dumped := true }).dumpTruss t.vd
            64 (t.images.foldl Image.join ⟨[], []⟩), some d.dumpNext) := by
  have hempty : k.chain.isEmpty = false := by
    cases hc : k.chain with
    | nil => exact absurd hc hchain
    | cons x xs => rfl
  have hd' : (s.chainSpent c).vdev? t.vd = some d := hd
  unfold State.dumpCourse
  rw [ht, hk]
  dsimp only
  rw [hempty, if_neg (by decide)]
  change (match (s.chainSpent c).vdev? t.vd with | none => _ | some d => _) = _
  rw [hd']
  rfl

/-- What the dump of a course leaves: its chain is spent, and its device has counted the dump (R411). -/
structure Dumped (s u : State) (c : CRef) (t : Truss) (k : Course) (d : VDev) (m : Option W32) : Prop where
  kills : u.kills = s.kills
  course : u.course? c = some { k with chain := [] }
  device : ∃ d', u.vdev? t.vd = some d' ∧ d'.dumps = d.dumps + 1 ∧
    (0 < d.dumpRoom → m = some d.dumpNext ∧ d'.chainSlots = d.chainSlots ++ [d.dumpNext]) ∧ (d.dumpRoom = 0 → d'.dumpTrunc = true)

theorem dumping_counted (hk : s.course? c = some k) (hd : s.vdev? t.vd = some d) :
    ((s.chainSpent c).counted t.vd).dumping c t.vd = (s.kills, some { k with chain := [] }, some (d.dumps + 1, d.chainSlots)) := by
  have hkills : ((s.chainSpent c).counted t.vd).kills = s.kills := by
    unfold State.counted State.modVdev
    split <;> rfl
  have hcourse : ((s.chainSpent c).counted t.vd).course? c = some { k with chain := [] } := by
    unfold State.counted State.chainSpent
    rw [course?_of_bodies (bodies_modVdev ..), course?_modCourse, if_pos rfl, hk]
    rfl
  have hdev : ((s.chainSpent c).counted t.vd).vdev? t.vd = some { d with dumps := d.dumps + 1 } := by
    unfold State.counted
    rw [vdev?_modVdev, if_pos rfl]
    exact congrArg _ hd
  unfold State.dumping
  rw [hkills, hcourse, hdev]
  rfl

theorem dumping_chainIn {u : State} {ks : List Kill} {x : Option Course} {n0 : W32} {cs : List W32} (h : u.dumping c v = (ks, x, some (n0, cs)))
    (n : W32) : (u.chainIn v n).dumping c v = (ks, x, some (n0, cs ++ [n])) := by
  obtain ⟨hkills, hrest⟩ := Prod.mk.inj h
  obtain ⟨hcourse, hdev⟩ := Prod.mk.inj hrest
  obtain ⟨e, he, hsame⟩ := Option.map_eq_some_iff.mp hdev
  obtain ⟨hdumps, hslots⟩ := Prod.mk.inj hsame
  have hkept : (u.chainIn v n).kills = u.kills := by
    unfold State.chainIn State.modVdev
    split <;> rfl
  have hcourse' : (u.chainIn v n).course? c = u.course? c := course?_of_bodies (bodies_modVdev ..) c
  have hnew : (u.chainIn v n).vdev? v = some { e with chainSlots := e.chainSlots ++ [n] } := by
    unfold State.chainIn
    rw [vdev?_modVdev, if_pos rfl, he]
    rfl
  unfold State.dumping
  rw [hkept, hkills, hcourse', hcourse, hnew, ← hdumps, ← hslots]
  rfl

/-- A dump with room in the area. -/
theorem dumped_of_room {u : State} (hroom : d.dumpRoom ≠ 0)
    (h : u.dumping c t.vd = (s.kills, some { k with chain := [] }, some (d.dumps + 1, d.chainSlots ++ [d.dumpNext]))) :
    Dumped s u c t k d (some d.dumpNext) := by
  obtain ⟨hkills, hrest⟩ := Prod.mk.inj h
  obtain ⟨hcourse, hdev⟩ := Prod.mk.inj hrest
  obtain ⟨e, he, hsame⟩ := Option.map_eq_some_iff.mp hdev
  obtain ⟨hdumps, hslots⟩ := Prod.mk.inj hsame
  exact ⟨hkills, hcourse, e, he, hdumps, fun _ => ⟨rfl, hslots⟩, fun hnone => absurd hnone hroom⟩

/-- A device's dump area is marked truncated. -/
def State.truncated (s : State) (v : Nat) : State := s.modVdev v fun d => { d with dumpTrunc := true }

/-- A dump without room. -/
theorem dumped_of_full {u : State} {m : Option W32} {cs : List W32} (hroom : d.dumpRoom = 0)
    (h : u.dumping c t.vd = (s.kills, some { k with chain := [] }, some (d.dumps + 1, cs)))
    (htrunc : ∀ e, u.vdev? t.vd = some e → e.dumpTrunc = true) : Dumped s u c t k d m := by
  obtain ⟨hkills, hrest⟩ := Prod.mk.inj h
  obtain ⟨hcourse, hdev⟩ := Prod.mk.inj hrest
  obtain ⟨e, he, hsame⟩ := Option.map_eq_some_iff.mp hdev
  obtain ⟨hdumps, -⟩ := Prod.mk.inj hsame
  exact ⟨hkills, hcourse, e, he, hdumps, fun hpos => absurd hroom (by omega), fun _ => htrunc e he⟩

theorem vdev?_truncated {u : State} {e : VDev} (h : (u.truncated v).vdev? v = some e) : e.dumpTrunc = true := by
  unfold State.truncated at h
  rw [vdev?_modVdev, if_pos rfl] at h
  obtain ⟨x, -, rfl⟩ := Option.map_eq_some_iff.mp h
  rfl

theorem vdev?_chainIn {u : State} {e : VDev} {n : W32} (h : (u.chainIn v n).vdev? v = some e) : ∃ x, u.vdev? v = some x ∧ e.dumpTrunc = x.dumpTrunc := by
  unfold State.chainIn at h
  rw [vdev?_modVdev, if_pos rfl] at h
  obtain ⟨x, hx, rfl⟩ := Option.map_eq_some_iff.mp h
  exact ⟨x, hx, rfl⟩

theorem dumping_supWrite (s : State) (a : Nat) (bs : List Byte) (c : CRef) (v : Nat) : (s.supWrite a bs).dumping c v = s.dumping c v := rfl

theorem vdev?_supWrite (s : State) (a : Nat) (bs : List Byte) (v : Nat) : (s.supWrite a bs).vdev? v = s.vdev? v := rfl

theorem dumpCourse_dumped (ht : s.truss? c.truss = some t) (hk : s.course? c = some k) (hchain : k.chain ≠ []) (hd : s.vdev? t.vd = some d) :
    Dumped s (s.dumpCourse c).1 c t k d (s.dumpCourse c).2 := by
  have hcounted := dumping_counted hk hd
  rw [dumpCourse_eq ht hk hchain hd]
  by_cases hroom : d.dumpRoom = 0
  · have htrunc : (((s.chainSpent c).counted t.vd).truncated t.vd).dumping c t.vd =
        (s.kills, some { k with chain := [] }, some (d.dumps + 1, d.chainSlots)) := by
      refine (dumping_modVdev _ c _ _ ?_).trans hcounted
      exact fun _ => rfl
    rw [if_pos hroom]
    cases hplace : d.chainPlace with
    | none => exact dumped_of_full hroom htrunc fun e he => vdev?_truncated he
    | some n =>
      have hwritten := (dumping_supWrite (((s.chainSpent c).counted t.vd).truncated t.vd) (d.slotAddr n) (chainBytes k.chain) c t.vd).trans htrunc
      refine dumped_of_full hroom (dumping_chainIn hwritten n) fun e he => ?_
      obtain ⟨x, hx, hsame⟩ := vdev?_chainIn he
      rw [vdev?_supWrite] at hx
      exact hsame.trans (vdev?_truncated hx)
  · have hslot := dumping_chainIn ((dumping_dumpSlot ((s.chainSpent c).counted t.vd) t.vd d
      (Image.join ⟨chainBytes k.chain, []⟩ (((s.chainSpent c).dumpedCourse c t k).image t c.course)) c t.vd).trans hcounted) d.dumpNext
    rw [if_neg hroom]
    split
    · exact dumped_of_room hroom hslot
    · refine dumped_of_room hroom ((dumping_dumpTruss ..).trans ((dumping_modTruss _ _ ?_ ..).trans hslot))
      exact fun _ => rfl

/-! ### The dump of a course's kill -/

theorem dumpHeader_kept (s : State) (v : Nat) : (s.dumpHeader v).kills = s.kills ∧ (s.dumpHeader v).vds = s.vds ∧ (s.dumpHeader v).trusses = s.trusses := by
  unfold State.dumpHeader
  split
  · exact ⟨rfl, rfl, rfl⟩
  · exact ⟨rfl, rfl, rfl⟩

/-- The kills, the devices and the trusses. -/
def State.accounts (s : State) : List Kill × Tbl VDev × List Truss := (s.kills, s.vds, s.trusses)

theorem accounts_dumpHeader (s : State) (v : Nat) : (s.dumpHeader v).accounts = s.accounts := by
  obtain ⟨hkills, hvds, htrusses⟩ := dumpHeader_kept s v
  unfold State.accounts
  rw [hkills, hvds, htrusses]

theorem killDump_ok {x : Kill} (honly : s.kills = [x]) (hst : x.stage = .dump) (hscope : x.scope = .course c) (ht : s.truss? c.truss = some t)
    (hplace : t.place ≠ .gone) (hk : s.course? c = some k) (hkilled : k.cstate = .killed) (hchain : k.chain ≠ []) (hd : s.vdev? t.vd = some d) :
    ∃ s' y k' d', exec .killDump s = .next s' ∧ s'.kills = [y] ∧ y.stage = .release ∧ s'.course? c = some k' ∧ k'.chain = [] ∧
      s'.vdev? t.vd = some d' ∧ d'.dumps = d.dumps + 1 ∧
      (0 < d.dumpRoom → x.firstSlot = none → y.firstSlot = some d.dumpNext ∧ d'.chainSlots = d.chainSlots ++ [d.dumpNext]) ∧
      (d.dumpRoom = 0 → d'.dumpTrunc = true) := by
  have hkills : s.killedOf x.scope = [c] := hscope ▸ killedOf_course ht (courses_of_course? ht hk) hplace hkilled
  have hdumped := dumpCourse_dumped ht hk hchain hd
  obtain ⟨vs, hrun⟩ : ∃ vs : List Nat, dumpStep s = (vs.foldl State.dumpHeader (s.dumpCourse c).1).modKill 0 fun k =>
      { k with stage := .release, firstSlot := x.firstSlot.orElse fun _ => (s.dumpCourse c).2 } := by
    unfold dumpStep
    rw [killAt_single honly hst rfl]
    dsimp only
    rw [hkills]
    exact ⟨_, rfl⟩
  generalize s.dumpCourse c = r at hdumped hrun
  obtain ⟨u, m⟩ := r
  have haccounts : (vs.foldl State.dumpHeader u).accounts = u.accounts := foldl_keeps _ State.accounts accounts_dumpHeader vs u
  obtain ⟨hall, hrest⟩ := Prod.mk.inj haccounts
  obtain ⟨hvds, htrusses⟩ := Prod.mk.inj hrest
  obtain ⟨d', hd', hdumps, hfull, htrunc⟩ := hdumped.device
  have hmod : ((vs.foldl State.dumpHeader u).modKill 0 fun k => { k with stage := .release, firstSlot := x.firstSlot.orElse fun _ => m }).kills =
      [{ x with stage := .release, firstSlot := x.firstSlot.orElse fun _ => m }] := by
    unfold State.modKill
    dsimp only
    rw [hall, hdumped.kills, honly]
    rfl
  have hcourse : (vs.foldl State.dumpHeader u).course? c = some { k with chain := [] } := by
    rw [← hdumped.course]
    unfold State.course?
    rw [htrusses]
  refine ⟨_, _, _, d', congrArg Host.Outcome.next hrun, hmod, rfl, hcourse, rfl, (vdev?_of_vds hvds t.vd).trans hd', hdumps, fun hpos hfirst => ?_, htrunc⟩
  obtain ⟨hm, hslots⟩ := hfull hpos
  refine ⟨?_, hslots⟩
  dsimp only at hm ⊢
  rw [hfirst, hm]
  rfl

end

end Sys2Proof.Machine
end

section
/-!
PROOFS. The release of a kill, and O41 (17 R394, R413).
-/
namespace Sys2Proof.Machine

section
variable {s : State} {x : Kill} {c : CRef} {t : Truss} {k : Course}

/-! ### The steps of a release -/

/-- A state with its kills replaced. -/
def State.withKills (s : State) (ks : List Kill) : State := { s with kills := ks }

/-- A course that is released. -/
def Course.released (k : Course) : Course := { k with slot := 64, chain := [], ops := [] }

/-- A killed course is released, where no other kill holds it. -/
def State.releaseCourse (s : State) (c : CRef) : State :=
  if s.underKill c then s
  else (s.modCourse c Course.released).freeParts fun p => p.truss == c.truss && p.course == some c.course

/-- The event of a release. -/
def State.announced (s : State) (k : Kill) (vd : Nat) : State :=
  let slot := match k.firstSlot with
    | some m => (match s.vdev? vd with | some d => BitVec.ofNat 64 (m.toNat % d.dumpSlots) | none => 0)
    | none => Config.noSlot s.tick
  let s := s.postEvent 0x02 2 vd 0 slot (BitVec.ofNat 64 (bits k.root.w0.toNat 7 0))
  { s with tick := s.tick + 1 }

/-- What the release of a device adds, and the mailbox's answer. -/
def State.closed (s : State) (k : Kill) : State :=
  let s := match k.scope with | .device v destroy => s.releaseDevice v destroy k.resets | _ => s
  if k.mailbox then s.mbDone 0 else s

theorem releaseStep_eq (honly : s.kills = [x]) (hst : x.stage = .release) : releaseStep s =
    ((((((s.killedOf x.scope).map (·.truss)).dedup).foldl State.retireTruss
      ((s.killedOf x.scope).foldl State.releaseCourse (s.withKills []))).announced x (s.killVd x)).closed x) := by
  have herase : s.kills.eraseIdx 0 = [] := by
    rw [honly]
    rfl
  unfold releaseStep
  rw [killAt_single honly hst rfl]
  dsimp only
  rw [herase]
  rfl

/-- Kills, trusses, devices, TLBs and the mailbox. -/
def State.settled (s : State) : List Kill × List Truss × Tbl VDev × List TlbEntry × Bool := (s.kills, s.trusses, s.vds, s.tlbs, s.mbBusy)

theorem settled_announced (s : State) (k : Kill) (vd : Nat) : (s.announced k vd).settled = s.settled := by
  have hevent : ∀ w2 w3, (s.postEvent 0x02 2 vd 0 w2 w3).settled = s.settled := by
    intro w2 w3
    have hsettled := congrArg State.settled (postEvent_noEvents s 0x02 2 vd 0 w2 w3)
    exact hsettled
  exact hevent _ _

/-! ### The release of a course's kill (R413) -/

theorem underKill_none (h : s.kills = []) (c : CRef) : s.underKill c = false := by
  unfold State.underKill
  rw [h]
  rfl

theorem kills_modVdev (s : State) (v : Nat) (f : VDev → VDev) : (s.modVdev v f).kills = s.kills := by
  unfold State.modVdev
  split <;> rfl

theorem kills_charged (s : State) (v : Nat) (o : ClSet) : (s.charged v o).kills = s.kills := by
  unfold State.charged State.chargeSlice State.addShare
  split
  · rw [kills_modVdev, kills_modVdev]
  · rfl

theorem kills_mbDone (s : State) (st : BitVec 16) : (s.mbDone st).kills = s.kills := rfl
theorem kills_withSet (s : State) (n : Nat) (y : ClSet) : (s.withSet n y).kills = s.kills := rfl
theorem kills_withCores (s : State) (cs : Vector Core 192) : (s.withCores cs).kills = s.kills := rfl

theorem kills_finishMove (s : State) (v : Nat) : (s.finishMove v).kills = s.kills := by
  rw [finishMove_def]
  split
  · rfl
  · split
    · rfl
    · split
      · rfl
      · unfold State.movedTo
        rw [kills_mbDone, kills_modVdev, kills_withSet, kills_charged, kills_withCores]

theorem kills_freePart (s : State) (core : Nat) : (s.freePart core).kills = s.kills := by
  unfold State.freePart
  split <;> rfl

theorem kills_freeParts (s : State) (p : CtxPart → Bool) : (s.freeParts p).kills = s.kills := rfl
theorem kills_modTruss (s : State) (n : Nat) (f : Truss → Truss) : (s.modTruss n f).kills = s.kills := rfl
theorem kills_modCore (s : State) (n : Nat) (f : Core → Core) : (s.modCore n f).kills = s.kills := rfl

theorem kills_retireTruss (s : State) (tn : Nat) : (s.retireTruss tn).kills = s.kills := by
  cases ht : s.truss? tn with
  | none =>
    unfold State.retireTruss
    rw [ht]
  | some t =>
    rw [retireTruss_eq ht]
    split
    · rfl
    · rw [kills_finishMove, kills_freeParts, kills_freePart, kills_modTruss, kills_modCore]

/-- A truss whose one course is killed and released is gone. -/
theorem allOver_released {u : State} (hnone : u.kills = []) (hcourses : t.courses = [k]) (hkilled : k.cstate = .killed) (tn : Nat) :
    u.allOver tn t = true := by
  unfold State.allOver
  rw [hcourses]
  refine List.all_eq_true.mpr fun j hj => ?_
  obtain rfl : j = 0 := by simpa using List.mem_range.mp hj
  rw [List.getElem?_cons_zero]
  dsimp only
  rw [hkilled, underKill_none hnone]
  rfl

theorem closed_course (hscope : x.scope = .course c) (hmail : x.mailbox = false) (u : State) : u.closed x = u := by
  unfold State.closed
  rw [hscope, hmail]
  rfl

theorem killRelease_course (honly : s.kills = [x]) (hst : x.stage = .release) (hscope : x.scope = .course c) (ht : s.truss? c.truss = some t)
    (hplace : t.place ≠ .gone) (hk : s.course? c = some k) (hkilled : k.cstate = .killed) (hcourses : t.courses = [k]) (hmail : x.mailbox = false) :
    ∃ s' u k', exec .killRelease s = .next s' ∧ s'.kills = [] ∧ s'.truss? c.truss = some u ∧ u.place = .gone ∧ u.scr = [] ∧ u.tiles = [] ∧
      s'.course? c = some k' ∧ k'.slot = 64 ∧ k'.ops = [] ∧ k'.chain = [] := by
  have hget := courses_of_course? ht hk
  have hj : c.course = 0 := by
    have hlt := (List.getElem?_eq_some_iff.mp hget).1
    rw [hcourses, List.length_singleton] at hlt
    omega
  have hkills : s.killedOf x.scope = [c] := hscope ▸ killedOf_course ht hget hplace hkilled
  have hrun := releaseStep_eq honly hst
  rw [hkills, List.map_singleton, List.dedup_eq_self.mpr (List.nodup_singleton _), List.foldl_cons, List.foldl_nil, List.foldl_cons, List.foldl_nil,
    closed_course hscope hmail] at hrun
  have hrelease : (s.withKills []).releaseCourse c =
      ((s.withKills []).modCourse c Course.released).freeParts fun p => p.truss == c.truss && p.course == some c.course := by
    unfold State.releaseCourse
    rw [underKill_none rfl, if_neg (by decide)]
  have hnone : ((s.withKills []).releaseCourse c).kills = [] := by
    rw [hrelease]
    rfl
  have htruss : ((s.withKills []).releaseCourse c).truss? c.truss = some (t.modCourse c.course Course.released) := by
    have hmod : ((s.withKills []).modCourse c Course.released).truss? c.truss = some (t.modCourse c.course Course.released) := by
      unfold State.modCourse
      rw [truss?_modTruss, if_pos rfl]
      exact congrArg _ ht
    rw [hrelease]
    exact hmod
  generalize (s.withKills []).releaseCourse c = u at hrun hnone htruss
  have hreleased : (t.modCourse c.course Course.released).courses = [k.released] := by
    unfold Truss.modCourse
    dsimp only
    rw [hcourses, hj]
    rfl
  have hended := truss?_retireTruss htruss hplace
  rw [if_pos (allOver_released hnone hreleased hkilled c.truss)] at hended
  have hsettled := settled_announced (u.retireTruss c.truss) x (s.killVd x)
  obtain ⟨hall, hrest⟩ := Prod.mk.inj hsettled
  obtain ⟨htrusses, -⟩ := Prod.mk.inj hrest
  have hdone := (truss?_of_trusses htrusses c.truss).trans hended
  refine ⟨_, _, { k.released with slot := 64 }, congrArg Host.Outcome.next hrun, hall.trans ((kills_retireTruss ..).trans hnone), hdone, rfl, rfl, rfl,
    course?_eq_some hdone ?_, rfl, rfl, rfl⟩
  unfold Truss.ended
  dsimp only
  rw [hreleased, hj]
  rfl

/-! ### The release of a device's kill (R413) -/

theorem settled_modQcb (s : State) (blk : Nat) (f : Qcb → Qcb) : (s.modQcb blk f).settled = s.settled := by
  unfold State.modQcb
  split <;> rfl

/-- A device's gates are open, and no TLB holds a translation of its space. -/
def State.reopened (s : State) (v : Fin 512) : State :=
  { s with
    tlbs := s.tlbs.filter fun e => e.space != v.val,
    gates := tset false (tset false s.gates v.val false) (513 + v.val) false }

/-- The device's mode is what it was, and its kill is done. -/
def VDev.back (d : VDev) : VDev := { d with mode := d.modeBefore, kdone := true }

/-- A device's kill vector, and its control page after a RESET. -/
def State.pageBack (s : State) (v : Fin 512) (resets : Bool) : State :=
  match s.vdev? v with
  | some d =>
    let s := if d.vecs.getLsbD 17 then s.interrupt (v.val * 64 + bits d.vecs.toNat 13 8) else s
    if resets then s.modVdev v VDev.resetPage else s
  | none => s

theorem releaseDevice_eq (s : State) (v : Fin 512) (resets : Bool) : s.releaseDevice v false resets =
    ((((((s.queues.filter fun e => e.2.vd == v && e.2.slot.isSome).foldl (fun s e => s.modQcb e.1 fun b => { b with slot := none }) s).reopened v).modVdev v
      VDev.back).pageBack v resets)) := rfl

theorem settled_interrupt (s : State) (e : Nat) : (s.interrupt e).settled = s.settled := by
  unfold State.interrupt
  dsimp only
  split
  · rfl
  · split <;> rfl

/-- What the page's return changes: the device's page alone. -/
theorem pageBack_kept {v : Fin 512} {d : VDev} (hd : s.vdev? v = some d) (resets : Bool) :
    (s.pageBack v resets).vdev? v = some (if resets then d.resetPage else d) ∧ (s.pageBack v resets).kills = s.kills ∧
      (s.pageBack v resets).tlbs = s.tlbs ∧ (s.pageBack v resets).mbBusy = s.mbBusy := by
  have hsent : ∀ u : State, u.settled = s.settled → (if resets then u.modVdev v VDev.resetPage else u).vdev? v = some (if resets then d.resetPage else d) ∧
      (if resets then u.modVdev v VDev.resetPage else u).kills = s.kills ∧
      (if resets then u.modVdev v VDev.resetPage else u).tlbs = s.tlbs ∧ (if resets then u.modVdev v VDev.resetPage else u).mbBusy = s.mbBusy := by
    intro u hu
    have hkills : u.kills = s.kills := (congrArg (·.1) hu :)
    have hvds : u.vds = s.vds := (congrArg (·.2.2.1) hu :)
    have htlbs : u.tlbs = s.tlbs := (congrArg (·.2.2.2.1) hu :)
    have hbusy : u.mbBusy = s.mbBusy := (congrArg (·.2.2.2.2) hu :)
    have hdev : u.vdev? v = some d := (vdev?_of_vds hvds v).trans hd
    cases resets with
    | false => exact ⟨hdev, hkills, htlbs, hbusy⟩
    | true =>
      have hmod : (u.modVdev v VDev.resetPage).vdev? v = some d.resetPage := by
        rw [vdev?_modVdev, if_pos rfl, hdev]
        rfl
      have hnoWork : (u.modVdev v VDev.resetPage).noWork = u.noWork := by
        unfold State.modVdev
        split <;> rfl
      exact ⟨hmod, (congrArg State.kills hnoWork :).trans hkills, (congrArg State.tlbs hnoWork :).trans htlbs, (congrArg State.mbBusy hnoWork :).trans hbusy⟩
  unfold State.pageBack
  rw [hd]
  dsimp only
  refine hsent _ ?_
  split
  · exact settled_interrupt ..
  · rfl

theorem releaseDevice_kept {v : Fin 512} {d : VDev} (hd : s.vdev? v = some d) (resets : Bool) :
    (s.releaseDevice v false resets).vdev? v = some (if resets then d.back.resetPage else d.back) ∧
      (s.releaseDevice v false resets).kills = s.kills ∧ (∀ e ∈ (s.releaseDevice v false resets).tlbs, e.space ≠ v.val) ∧
      (s.releaseDevice v false resets).mbBusy = s.mbBusy := by
  have hslots : ((s.queues.filter fun e => e.2.vd == v && e.2.slot.isSome).foldl (fun s e => s.modQcb e.1 fun b => { b with slot := none }) s).settled =
      s.settled := foldl_keeps _ State.settled (fun s (e : Nat × Qcb) => settled_modQcb s e.1 _) _ s
  rw [releaseDevice_eq]
  generalize (s.queues.filter fun e => e.2.vd == v && e.2.slot.isSome).foldl (fun s e => s.modQcb e.1 fun b => { b with slot := none }) s = u at hslots ⊢
  have hkills : u.kills = s.kills := (congrArg (·.1) hslots :)
  have hvds : u.vds = s.vds := (congrArg (·.2.2.1) hslots :)
  have hbusy : u.mbBusy = s.mbBusy := (congrArg (·.2.2.2.2) hslots :)
  have hdev : (u.reopened v).vdev? v = some d := (vdev?_of_vds hvds v).trans hd
  have hback : ((u.reopened v).modVdev v VDev.back).vdev? v = some d.back := by
    rw [vdev?_modVdev, if_pos rfl, hdev]
    rfl
  have hnoWork : ((u.reopened v).modVdev v VDev.back).noWork = (u.reopened v).noWork := by
    unfold State.modVdev
    split <;> rfl
  obtain ⟨hpage, hpkills, hptlbs, hpbusy⟩ := pageBack_kept hback resets
  refine ⟨hpage, hpkills.trans ((congrArg State.kills hnoWork :).trans hkills), fun e he => ?_,
    hpbusy.trans ((congrArg State.mbBusy hnoWork :).trans hbusy)⟩
  have htlbs : ((u.reopened v).modVdev v VDev.back).tlbs = (u.reopened v).tlbs := (congrArg State.tlbs hnoWork :)
  rw [hptlbs, htlbs] at he
  simpa using (List.mem_filter.mp he).2

theorem killedOf_idle (h : s.trusses = []) (scope : KillScope) : s.killedOf scope = [] := by
  unfold State.killedOf State.coursesWhere
  rw [h]
  rfl

theorem killRelease_device {v : Fin 512} {d : VDev} (honly : s.kills = [x]) (hst : x.stage = .release) (hscope : x.scope = .device v false)
    (htrusses : s.trusses = []) (hd : s.vdev? v = some d) :
    ∃ s' d', exec .killRelease s = .next s' ∧ s'.kills = [] ∧ s'.vdev? v = some d' ∧ d'.mode = d.modeBefore ∧ d'.kdone = true ∧
      (x.resets = true → d'.s1root = 0 ∧ d'.fltbase = 0 ∧ d'.flttail = 0 ∧ d'.flthead = 0 ∧ d'.vecs = 0) ∧
      (x.resets = false → d'.s1root = d.s1root ∧ d'.fltbase = d.fltbase ∧ d'.flttail = d.flttail ∧ d'.flthead = d.flthead ∧
        d'.vecs = d.vecs) ∧
      (∀ e ∈ s'.tlbs, e.space ≠ v.val) ∧ s'.mbBusy = (if x.mailbox then false else s.mbBusy) := by
  have hrun := releaseStep_eq honly hst
  rw [killedOf_idle htrusses, List.map_nil, List.foldl_nil, List.dedup_nil, List.foldl_nil] at hrun
  have hsettled := settled_announced (s.withKills []) x (s.killVd x)
  generalize (s.withKills []).announced x (s.killVd x) = u at hrun hsettled
  have hkills : u.kills = [] := (congrArg (·.1) hsettled :)
  have hvds : u.vds = s.vds := (congrArg (·.2.2.1) hsettled :)
  have hbusy : u.mbBusy = s.mbBusy := (congrArg (·.2.2.2.2) hsettled :)
  obtain ⟨hdev, hrkills, hrtlbs, hrbusy⟩ := releaseDevice_kept ((vdev?_of_vds hvds v).trans hd) x.resets
  have hclosed : u.closed x = if x.mailbox then (u.releaseDevice v false x.resets).mbDone 0 else u.releaseDevice v false x.resets := by
    unfold State.closed
    rw [hscope]
  rw [hclosed] at hrun
  generalize u.releaseDevice v false x.resets = z at hrun hdev hrkills hrtlbs hrbusy
  have hpage : ∀ e : VDev, e = (if x.resets then d.back.resetPage else d.back) → e.mode = d.modeBefore ∧ e.kdone = true ∧
      (x.resets = true → e.s1root = 0 ∧ e.fltbase = 0 ∧ e.flttail = 0 ∧ e.flthead = 0 ∧ e.vecs = 0) ∧
      (x.resets = false → e.s1root = d.s1root ∧ e.fltbase = d.fltbase ∧ e.flttail = d.flttail ∧ e.flthead = d.flthead ∧ e.vecs = d.vecs) := by
    rintro e rfl
    cases x.resets with
    | true => exact ⟨rfl, rfl, fun _ => ⟨rfl, rfl, rfl, rfl, rfl⟩, fun h => Bool.noConfusion h⟩
    | false => exact ⟨rfl, rfl, fun h => Bool.noConfusion h, fun _ => ⟨rfl, rfl, rfl, rfl, rfl⟩⟩
  obtain ⟨hmode, hkdone, hreset, hkept⟩ := hpage _ rfl
  cases hmail : x.mailbox with
  | true =>
    rw [hmail, if_pos rfl] at hrun
    exact ⟨_, _, congrArg Host.Outcome.next hrun, hrkills.trans hkills, hdev, hmode, hkdone, hreset, hkept, hrtlbs, rfl⟩
  | false =>
    rw [hmail, if_neg (by decide)] at hrun
    exact ⟨_, _, congrArg Host.Outcome.next hrun, hrkills.trans hkills, hdev, hmode, hkdone, hreset, hkept, hrtlbs, hrbusy.trans hbusy⟩

end

/-! ### O41 -/

/-- Settles O41: by the one kill there is, stage by stage; no engine's part of a course's drain changes the kills, the clock, or whose the trusses
are (`Watched`). -/
theorem killStepsComplete : Obligations.KillStepsComplete := by
  refine ⟨?_, ?_, ?_, ?_, ?_, ?_, ?_, ?_⟩
  · intro s c t k cause code d ht hk hon hlive hj hnone hwhy
    obtain ⟨rfl, ⟨y, hfetch⟩, hcode⟩ | ⟨rfl, ⟨o, ho, hwait, hfallen, hpoison, hfault⟩, hcode⟩ | ⟨rfl, hpend, hregion, hcode⟩ |
      ⟨rfl, hguard, hstrike, hcode⟩ | ⟨c0, d0, rfl, hfetch, hc0, -, ⟨hframes, hcode⟩ | ⟨hframes, hhandler, hcode⟩⟩ := hwhy
    · cases hcode
      exact courseKill_reason ht hk hon hlive hj hnone (killReason_poisonFetch hfetch) (by decide) nofun
    · cases hcode
      exact courseKill_reason ht hk hon hlive hj hnone (killReason_poisonRead ho hwait hfallen hpoison hfault) (by decide) nofun
    · cases hcode
      exact courseKill_reason ht hk hon hlive hj hnone (killReason_noRegion hpend hregion) (by decide) nofun
    · cases hcode
      exact courseKill_reason ht hk hon hlive hj hnone (killReason_strike hguard hstrike) (by decide) fun _ => rfl
    · cases hcode
      exact courseKill_reason ht hk hon hlive hj hnone (killReason_frames hfetch hframes) (by decide) nofun
    · cases hcode
      exact courseKill_reason ht hk hon hlive hj hnone (killReason_handler hfetch hframes hhandler) hc0 nofun
  · intro s c t k ht hk hon hlive hnone
    exact courseKill_supervisor ht hk hon hlive hnone
  · intro s x eng c honly hst hopen hscope heng
    exact killDrain_reports honly hst hopen hscope (drainEngine_done heng false)
  · intro s x c honly hst hopen hscope haccesses hproms
    obtain ⟨s', y, hrun, hkills, hdrained, -⟩ := killDrain_reports honly hst hopen hscope (drainCore_done hscope haccesses hproms)
    exact ⟨s', y, hrun, hkills, hdrained⟩
  · intro s x eng c t honly hst hopen hscope ht huser
    exact ⟨drainTimeout_reports honly hst hopen hscope ht huser, drainTimeout_escalates honly hst hopen hscope ht huser⟩
  · intro s x c t k d honly hst hscope ht hplace hk hkilled hchain hd
    exact killDump_ok honly hst hscope ht hplace hk hkilled hchain hd
  · intro s x c t k honly hst hscope ht hplace hk hkilled hcourses hmail
    exact killRelease_course honly hst hscope ht hplace hk hkilled hcourses hmail
  · intro s x v d honly hst hscope htrusses hd
    exact killRelease_device honly hst hscope htrusses hd

end Sys2Proof.Machine
end
